-- ==== Sys2Proof/Word.lean ====
section
/-!
DEFINITION. The word types: the byte of a memory cell and the 64-bit register word of spec/00 R3.
-/
namespace Sys2Proof

/-- One byte of a memory or of a descriptor. -/
abbrev Byte := BitVec 8

/-- The contents of one set-up register (R3). -/
abbrev Word := BitVec 64

end Sys2Proof
end

