-- ==== Sys2Proof/Syntax.lean ====
section
/-!
DEFINITION. The commands the block takes: one constructor of `Instr` per row of spec/opcode_table.json, with the row's
operands, and the types of those operands. Where a rule leaves an outcome to the physical world (an uncorrectable burst, a
checksum that differs, a measured voltage, a packet that arrives), that outcome is an operand of the command.
-/
namespace Sys2Proof

/-- The descriptor that a unit's request serves: its ring, RING_SEQ, LAYER_ID and OP_ID; the default names none. -/
structure Origin where
  ring  : Nat := 0x100
  seq   : Nat := 0xFFFFFF
  layer : Nat := 0xFFFF
  op    : Nat := 0xFFFF
  deriving DecidableEq, Repr

/-- Who makes a request (spec/01 R46, R48). A block, a Ledger engine, a unit of link die `r` or of the primary Trelfort makes it for a
descriptor, if for one. A remote module's request carries its chip number, the virtual channel it arrived on, and FLAGS.MGMT, TAG,
LAYER_ID and OP_ID of its packet. A TMP READ or WRITE (spec/14 R617) carries the Trelfort it reached, its source and its SEQ. -/
inductive Master where
  | host
  | block (b : Nat) (o : Origin)
  | ledger (r : Nat) (o : Origin)
  | link (r : Nat) (o : Origin)
  | service (o : Origin)
  | remote (r chip vc : Nat) (mgmtFlag : Bool) (tag layer op : Nat)
  | mgmtPort
  | ring (n : Nat)
  | jtag
  | tmp (die src seq : Nat)
  deriving DecidableEq, Repr

/-- The address space a request names: a PCIe BAR or global addresses (spec/01 R29, R54-R56). -/
inductive Space where
  | bar0 | bar2 | bar4 | global
  deriving DecidableEq, Repr

/-- What the two error codes find on a burst (spec/05 R220). -/
inductive Ecc where
  | clean | onDie | corrected | uncorrectable
  deriving DecidableEq, Repr

/-- What the codes find on the bursts of HBM that a command reads (R220): each burst that is not clean, as stack × 2^30 + stack address
div 64, with what they find. -/
abbrev EccFinds := List (Nat × Ecc)

/-- A fabric packet (spec/07 R322) with the channel and class it travels on, and the port of this module that received it. -/
structure Packet where
  dst   : Nat
  src   : Nat
  kind  : Nat
  flags : Nat := 0
  gen   : Nat := 0
  ttl   : Nat := 15
  addr  : Nat := 0
  layer : Nat := 0xFFFF
  op    : Nat := 0xFFFF
  tag   : Nat := 0
  err   : Nat := 0
  body  : List Byte := []
  vc    : Nat := 1
  cls   : Nat := 0
  port  : Nat := 0xFF
  deriving DecidableEq, Repr

/-- R330. Two packets have the same (SRC, DST, VC). -/
def Packet.sameFlow (a b : Packet) : Bool := a.src == b.src && a.dst == b.dst && a.vc == b.vc

/-- What a LINK flit carries (R308, R318, R335, R341, R343). -/
inductive LinkMsg where
  | hello (chip : Nat) (valid : Bool) (port : Nat)
  | keepWarm
  | keepWarmExit
  | lastSeq (seq : Nat) (passedOff : Bool)
  deriving DecidableEq, Repr

/-- A flit (spec/07 R307): TYPE 0 IDLE, 1 DATA, 2 LINK; each credit return is (VC, CLASS, count). -/
structure Flit where
  type     : Nat := 0
  seq      : Nat := 0
  vc       : Nat := 0
  sop      : Bool := false
  eop      : Bool := false
  cls      : Nat := 0
  ackSeq   : Nat := 0
  ackValid : Bool := false
  nak      : Bool := false
  credit0  : Option (Nat × Nat × Nat) := none
  credit1  : Option (Nat × Nat × Nat) := none
  payload  : List Byte := []
  link     : Option LinkMsg := none
  deriving DecidableEq, Repr

/-- What a module reads of a holder (spec/12 R539, R541): CONT.PIECE_BASE in bytes, AREA_MIB, its sixteen PIECE_OWNER words, and the
first 64 bytes of the index pages of the two sets of the area that serves the owner. -/
structure HolderView where
  base   : Nat
  area   : Nat
  owners : List Word
  index0 : List Byte
  index1 : List Byte
  deriving DecidableEq, Repr

/-- What RESTORE_SELECT reads of a listed module (spec/13 R589): CKP.STEPS and CKP.STATUS, its eight manifests, its ten holders, and
what it reads of each of those. -/
structure ModView where
  steps     : Word
  status    : Word
  manifests : List (List Byte)
  holders   : List Nat
  views     : List (Option HolderView)
  deriving DecidableEq, Repr

/-- A piece that REBUILD reads of a holder (spec/12 R541): stripe, position, its 64 KiB, and the CRCs of its sixteen pages in the holder's
tag area. -/
structure PieceRead where
  stripe : Nat
  piece  : Nat
  data   : List Byte
  crcs   : List Nat
  deriving DecidableEq, Repr


/-- A PTP message as the time unit sees it (spec/15 R656): an Announce of a grandmaster with its interval in ns, and whether the best
master clock algorithm selects it; the offset that an exchange gives, in ns; any other. -/
inductive PtpMsg where
  | announce (gm ivl : Nat) (best : Bool)
  | exchange (d : Int)
  | other
  deriving DecidableEq, Repr


/-- A PCIe Configuration Request (spec/17 R702): a read of a register, a write that sets MSI-X Enable and Function Mask, any other write. -/
inductive CfgReq where
  | read (off : Nat)
  | msix (enable fmask : Bool)
  | write (off value : Nat)
  deriving DecidableEq, Repr


/-- A command: one constructor per row of the table, in its rule's words. -/
inductive Instr where
  /-- R36. A read of `len` bytes; `ecc` is what the codes find on the bursts of HBM that it reads, as in every command that reads HBM. -/
  | memoryRead (who : Master) (sp : Space) (addr len : Nat) (ecc : EccFinds)
  /-- R53. A write. -/
  | memoryWrite (who : Master) (sp : Space) (addr : Nat) (data : List Byte)
  /-- R755. A 64-bit write of the register at a BAR0 offset. -/
  | registerWrite (who : Master) (off : Nat) (value : Word)
  /-- R759. A register access whose holder does not answer within 10 µs. -/
  | registerHolderTimeout (who : Master) (off : Nat) (write : Bool)
  /-- R13. A bridge, numbered as in R474, exhausts its link-level retries. -/
  | bridgeRetryExhausted (bridge : Nat)
  /-- R72. A doorbell of ring n with its 64-bit value. -/
  | doorbell (n : Nat) (value : Word)
  /-- R76. Ring n fetches its next descriptor; `data` is what the read returns from host memory or another module. -/
  | descriptorFetch (n : Nat) (data param : List Byte) (ecc : EccFinds)
  /-- R776. The next descriptor of ring n is judged and starts or completes; `param` as for `data` above. -/
  | descriptorStart (n : Nat) (param : List Byte) (ecc : EccFinds)
  /-- R91, R92. The deadline of descriptor `seq` of ring n passes. -/
  | deadlineExpire (n seq : Nat)
  /-- R90. One microsecond after the deadline the descriptor has not completed. -/
  | deadlineMiss (n seq : Nat)
  /-- R97. The completion record of a descriptor with an outcome is written. -/
  | descriptorComplete (n seq : Nat)
  /-- R100. Software unmasks MSI-X vector v, or the whole function (none). -/
  | msixUnmask (vector : Option Nat)
  /-- R102. Software writes CQ_HEAD of completion ring m. -/
  | cqHeadWrite (m value : Nat)
  /-- R108. CMD STOP to function f. -/
  | cmdStop (f : Nat)
  /-- R108. CMD CHANGE to function f. -/
  | cmdChange (f : Nat)
  /-- R111. CMD RESTART to function f. -/
  | cmdRestart (f : Nat)
  /-- R108. CMD ABORT to function f. -/
  | cmdAbort (f : Nat)
  /-- R115. A draining function has no started descriptor left. -/
  | drainComplete (f : Nat)
  /-- R115. DRAIN_LIMIT of function f expires. -/
  | drainLimitExpire (f : Nat)
  /-- R118. A reply or late write tagged with an earlier GEN of function f arrives; for a submission ring it is the late
  record of a disowned descriptor (R121). -/
  | staleReplyDrop (f gen : Nat)
  /-- R645. A master reads POP[i]. -/
  | evrPop (who : Master) (idx : Nat)
  /-- R169. SWEEP of a started descriptor begins; `pick` is the random choice of an audit tile (R443). -/
  | sweep (n seq pick : Nat) (ecc : EccFinds)
  /-- R210. INTERACT of a started descriptor begins; `pick` as for SWEEP. -/
  | interact (n seq pick : Nat) (ecc : EccFinds)
  /-- R206. VE_OP of a started descriptor. -/
  | veOp (n seq : Nat) (ecc : EccFinds)
  /-- R140. A cell (block × 64 + cell) takes its next chunk; `bad` is a tile with an uncorrected error of the accumulator store,
  `corr` the number of corrected errors (R155). -/
  | chunkApply (cell : Nat) (bad : Option Nat) (corr : Nat) (ecc : EccFinds)
  /-- R141. A tile of a cell folds; `fault` lists elements that a fault of the cell changed, with their encodings. -/
  | tileFold (cell tile : Nat) (fault : List (Nat × Nat)) (bad : Bool) (corr : Nat) (ecc : EccFinds)
  /-- R191. The Tiler looks for a descriptor to prefetch. -/
  | prefetchStart
  /-- R198. A write of FENCE_BLOCK (none) or FENCE_CELL[b]. -/
  | fenceClearWrite (block : Option Nat) (value : Word)
  /-- R223. The scrubber of stack `st` reads its next burst; `ecc` is what the codes find. -/
  | scrubRead (st : Nat) (ecc : Ecc)
  /-- R226. The cut token reaches Ledger die r. -/
  | cutTokenArrival (r : Nat)
  /-- R227. Ledger die r acts on a held cut token. -/
  | cutTokenRelease (r : Nat)
  /-- R240. GATHER of a started descriptor begins. -/
  | gather (n seq : Nat) (ofs idx wts : List Byte) (ecc : EccFinds)
  /-- R252. A row request reaches Ledger die r of its owner. -/
  | rowRequest (r : Nat) (pkt : Packet) (ecc : EccFinds)
  /-- R254. The row of place `pos` of a GATHER's list arrives: read on this module (none), or by packet. -/
  | rowReply (n seq pos : Nat) (pkt : Option Packet) (ecc : EccFinds)
  /-- R257. An OPEN message at its target, or its answer at the engine. -/
  | gatherOpen (pkt : Packet)
  /-- R287. UPDATE_DENSE: `count` further elements or blocks; `bad` is how many come before one on which the engine's
  datapaths disagree. -/
  | updateDense (n seq count : Nat) (bad : Option Nat) (ecc : EccFinds)
  /-- R290. UPDATE_ROWS: `count` further list positions. -/
  | updateRows (n seq count : Nat) (bad : Option Nat) (ecc : EccFinds)
  /-- R278. SETCOEF of a started descriptor. -/
  | setcoef (n seq : Nat) (ecc : EccFinds)
  /-- R299. A vector engine takes over the interrupted update of Ledger die r. -/
  | veTakeover (r : Nat)
  /-- R418. TAG_SEAL of a started descriptor. -/
  | tagSeal (n seq : Nat) (ecc : EccFinds)
  /-- R418. TAG_VERIFY of a started descriptor. -/
  | tagVerify (n seq : Nat) (ecc : EccFinds)
  /-- R313. The egress of port p sends its next flit; `parity` is a disagreement of the duplicate credit counters that
  parity does not resolve (R473), or one that it does. -/
  | flitSend (p : Nat) (parity : Option Bool)
  /-- R316. A DATA flit arrives at port p; `crcOk` says whether its CRC holds. -/
  | dataFlitReceive (p : Nat) (f : Flit) (crcOk : Bool)
  /-- R308. An IDLE flit arrives at port p. -/
  | idleFlitReceive (p : Nat) (f : Flit) (crcOk : Bool)
  /-- R317. A NAK with ACK_SEQ `seq` arrives at port p. -/
  | nakReceive (p seq : Nat)
  /-- R315. An acknowledgement of `seq` arrives at port p. -/
  | ackReceive (p seq : Nat)
  /-- R316. One microsecond has passed at port p without an acknowledgement sent. -/
  | ackTimer (p : Nat)
  /-- R318. Port p retrains. -/
  | portRetrain (p : Nat)
  /-- R318. Port p finishes training; the other end's last accepted SEQ, and whether it has passed through OFF (R505). -/
  | portTrainingComplete (p lastSeq : Nat) (passedOff : Bool)
  /-- R319. Training of port p has not completed within 5 ms, or is the third within 60 s. -/
  | portTrainingTimeout (p : Nat)
  /-- R338. Port p loses its link. -/
  | portLinkLoss (p : Nat)
  /-- R338. Port p, DOWN, retries training. -/
  | portDownRetry (p : Nat)
  /-- R335. 100 ms have passed; HELLO goes out on each port that is up. -/
  | helloTimer
  /-- R336. A HELLO arrives at port p. -/
  | helloReceive (p : Nat) (f : Flit) (crcOk : Bool)
  /-- R337. Ten seconds have passed since discovery started, and planned port p is not ACTIVE. -/
  | discoveryTimeout (p : Nat)
  /-- R324. A packet reaches link die r through port p (none: it was delivered to this module, and is served). -/
  | packetReceive (r : Nat) (p : Option Nat) (pkt : Packet) (ecc : EccFinds)
  /-- R331. An error reply arrives. -/
  | errorReplyReceive (pkt : Packet)
  /-- R341. The other end's Keep-warm request arrives at port p, or this end sends its own (no flit in `rx`). -/
  | keepWarmRequest (p : Nat) (rx : Option Flit) (crcOk : Bool)
  /-- R343. A Keep-warm exit request of either end on port p. -/
  | keepWarmExitRequest (p : Nat) (rx : Option Flit) (crcOk : Bool)
  /-- R343. Port p is back at full rate. -/
  | keepWarmExitComplete (p : Nat)
  /-- R348. JOB_START of a started descriptor. -/
  | jobStart (n seq : Nat) (ecc : EccFinds)
  /-- R346. JOB_END of a started descriptor. -/
  | jobEnd (n seq : Nat)
  /-- R349. An ARM packet arrives; `entries` are the Rope table entries the module reads from the root. -/
  | arm (pkt : Packet) (entries : List Byte)
  /-- R349. A child's acknowledgement arrives. -/
  | armAckReceive (pkt : Packet)
  /-- R349. (h − d) × ARM_WAIT has passed since the ARM, or the COMMIT, of a job arrived. -/
  | armWaitExpire (job : Nat)
  /-- R351. h × ARM_WAIT has passed at the root. -/
  | rootArmTimeout
  /-- R351. An ADOPT packet arrives; `entries` as for ARM. -/
  | adopt (pkt : Packet) (entries : List Byte)
  /-- R351. A further h × ARM_WAIT has passed at the root. -/
  | missingTimeout
  /-- R352. A COMMIT packet arrives. -/
  | commit (pkt : Packet)
  /-- R354. A COMMIT acknowledgement arrives. -/
  | commitAckReceive (pkt : Packet)
  /-- R352. Module time reaches START_TIME. -/
  | startTimeReached
  /-- R350. A DISARM packet arrives. -/
  | disarm (pkt : Packet)
  /-- R350. ARM_HOLD has passed since the latest ARM without COMMIT. -/
  | armHoldExpire
  /-- R362, R363. REDUCE of a started descriptor: its rank forms the statistic and sends EXP. -/
  | reduce (n seq : Nat) (ecc : EccFinds)
  /-- R393. DIGEST_CLOSE of a started descriptor. -/
  | digestClose (n seq : Nat) (ecc : EccFinds)
  /-- R367. An EXP packet arrives at its home. -/
  | exp (pkt : Packet)
  /-- R384. A BUSY packet arrives at its rank. -/
  | busy (pkt : Packet)
  /-- R384. Two microseconds have passed since the BUSY of a REDUCE. -/
  | expRetryTimer (n seq : Nat)
  /-- R368. Home engine e sends the next GRANT of a bucket. -/
  | grantSend (e coll step bucket : Nat)
  /-- R371. A GRANT packet arrives at its rank. -/
  | grant (pkt : Packet) (ecc : EccFinds)
  /-- R369. A CONTRIB segment arrives at its home. -/
  | contrib (pkt : Packet)
  /-- R379. A RESULT segment arrives at its rank. -/
  | result (pkt : Packet)
  /-- R382. An ABORT packet arrives at its rank. -/
  | abort (pkt : Packet)
  /-- R381. The deadline of a bucket passes at its home. -/
  | homeDeadlineExpire (e coll step bucket : Nat)
  /-- R396. A CONFIRM token arrives at its home. -/
  | confirm (pkt : Packet)
  /-- R397. A RETRACT token arrives at its home. -/
  | retract (pkt : Packet)
  /-- R400. A RESULT_CONFIRM token arrives at its rank. -/
  | resultConfirm (pkt : Packet)
  /-- R401. A RESULT_RETRACT token arrives at its rank. -/
  | resultRetract (pkt : Packet)
  /-- R398. The Steep window of a journal entry expires. -/
  | journalSteepExpire (e coll step bucket rank : Nat)
  /-- R402. The Steep window of a held RESULT expires. -/
  | resultSteepExpire (n seq : Nat)
  /-- R416, R433. The CRC that copy engine r reads back from the tag area of chip `chip` for its HBM page `dst`, to which page
  `page` was copied; `again` says that this is the second attempt. -/
  | tagCopyReadback (r page chip dst crc : Nat) (again : Bool)
  /-- R421, R422. The Strainer's verdict on a folded tile; `forced` is a difference of the duplicated epilogue (R423) or a fault of
  the Strainer itself, which makes the verdict fail. -/
  | strainerVerdict (ticket tile : Nat) (forced : Bool)
  /-- R424, R425. The replay of the earliest failed tile of a ticket is judged; `forced` is a failing verdict of the replay cell
  that a fault of that cell causes, `fault` its changed elements. -/
  | replayJudge (ticket : Nat) (forced : Bool) (fault : List (Nat × Nat)) (ecc : EccFinds)
  /-- R428. The outputs of the sequencers of a block differ. -/
  | lockstepMismatch (block : Nat)
  /-- R430. The earliest unsettled ticket settles. -/
  | ticketSettle
  /-- R477. The fence of a ticket arrives at link die r. -/
  | fenceMessage (r ticket : Nat)
  /-- R437. A ticket whose data left UNCONFIRMED has not settled in time. -/
  | steepFenceTimer (ticket : Nat)
  /-- R439. An UNCONFIRMED posted write arrives at link die r. -/
  | unconfirmedWriteReceive (r : Nat) (pkt : Packet)
  /-- R440. WRITE_CONFIRM arrives. -/
  | writeConfirm (r : Nat) (pkt : Packet)
  /-- R440. WRITE_RETRACT arrives. -/
  | writeRetract (r : Nat) (pkt : Packet)
  /-- R441. The Steep window of a quarantined item expires. -/
  | steepWindowExpire (src item : Nat)
  /-- R440. The oldest early token has been kept for one Steep window. -/
  | earlyTokenExpire
  /-- R444. The audit tile of a descriptor is compared; `fault` lists elements that a fault of the audit cell changed. -/
  | auditCompare (n seq : Nat) (fault : List (Nat × Nat)) (ecc : EccFinds)
  /-- R444. The third cell judges an audit; `fault` as before, of the third cell. -/
  | auditThirdJudge (n seq : Nat) (fault : List (Nat × Nat)) (ecc : EccFinds)
  /-- R449. SCAN_BLOCK of a started descriptor. -/
  | scanBlock (n seq : Nat)
  /-- R449. What the scan waits for is over: the block goes into reset and the patterns are applied. -/
  | scanProceed
  /-- R450. The scan ends: patterns applied, patterns that failed, the first of them, or a segment whose CRC fails (R447). -/
  | scanFinish (patterns fails first : Nat) (badSegment : Option Nat)
  /-- R456. An arbitration point of a level (0 cell, 1 block, 2 region, 3 module) of a die has held traffic of a class without credit
  for CONG_US. -/
  | congestionEpisode (level die point tc : Nat)
  /-- R456. The point has moved traffic for CONG_US without a wait for credit. -/
  | congestionEpisodeEnd (level die point tc : Nat)
  /-- R462. Corrected errors of a subject exceed CE_LIMIT: stack s as 0x60 + s, port p as 0x100 + p, a cell's store as 0x1000 + cell. -/
  | ceRate (subject : Nat)
  /-- R466. The region request timer of a request of descriptor `seq` of ring n expires; `lower` says that a bridge or port on its
  path exhausted its retries. -/
  | regionTimerExpire (n seq die target : Nat) (write lower : Bool)
  /-- R466. The fabric request timer of the request with a transaction tag expires; `lower` as above. -/
  | fabricTimerExpire (tag : Nat) (lower : Bool)
  /-- R468. The module operation timer of a started descriptor expires. -/
  | moduleTimerExpire (n seq : Nat)
  /-- R475. RECLAIM of a started descriptor. -/
  | reclaim (n seq : Nat)
  /-- R472. The region switch of Ledger die r has held no packet for 1 µs. -/
  | regionSwitchQuiescent (r : Nat)
  /-- R459. A unit reports a fault: die, class, severity (0 INFO to 4 FATAL), unit, cell, port, ring, RING_SEQ, LAYER_ID and
  OP_ID of its source. -/
  | faultReport (cls sev die unit cell port ring seq layer op : Nat)
  /-- R486. The wait-for detector takes its sample. -/
  | waitforSample
  /-- R488. The egress queue of port p, channel and class has been stalled for STALL_MS. -/
  | egressStall (p vc cls : Nat)
  /-- R488. STALL_MS / 2 have passed since the queue's last probe. -/
  | probeResendTimer (p vc cls : Nat)
  /-- R489. The HANG_PROBE `pkt` that came in through port p is acted on. -/
  | hangProbe (p : Nat) (pkt : Packet)
  /-- R491. A beat of a source arrives: a block's number, or die 0x50 to 0x53 (R600). -/
  | lanternBeat (src : Nat)
  /-- R491. An interval of 10 ms has passed without a beat of the source; for a P die whose feed then trips, `pickup` says whether the other
  feed carries the load in time (R630). -/
  | lanternMissTimer (src : Nat) (pickup : Bool)
  /-- R496. RESET of a started descriptor. -/
  | reset (n seq : Nat)
  /-- R514. A write of RESET_CMD with LEVEL 1; `mgmt` says whether it carries the management-plane attribute. -/
  | resetCmdCompute (mgmt dump : Bool)
  /-- R514. The same with LEVEL 2. -/
  | resetCmdModule (mgmt dump : Bool)
  /-- R514. The same with LEVEL 3. -/
  | resetCmdCold (mgmt dump : Bool)
  /-- R495. MOD_RESET# is asserted. -/
  | modResetAssert
  /-- R495. PERST# is asserted. -/
  | perstAssert
  /-- R702. PERST# is deasserted. -/
  | perstDeassert
  /-- R499. Block b has sent no beat within 10 ms of its release. -/
  | blockBeatTimeout (b : Nat)
  /-- R495. 40 ms have passed since a compute reset started. -/
  | computeResetTimeout
  /-- R495. 6 s have passed since a module recovery started. -/
  | moduleRecoveryTimeout
  /-- R483. The running reset has completed its last step. -/
  | resetEnd
  /-- R513. Trelfort t copies the crash summary into its oldest flash slot. -/
  | summaryFlashCopy (t : Nat)
  /-- R495. MOD_RESET# is deasserted. -/
  | modResetDeassert
  /-- R565. CUT of a started descriptor. -/
  | cut (n seq : Nat)
  /-- R567. The Sump copy engine of Ledger die r takes the next page of its inactive banks. -/
  | sumpCopy (r : Nat) (ecc : EccFinds)
  /-- R568. The controller admits the next held write. -/
  | heldWriteRelease (ecc : EccFinds)
  /-- R576. The manifest is written; what a drain that starts now reads of the ten holders. -/
  | manifestSeal (views : List (Option HolderView)) (ecc : EccFinds)
  /-- R573. The fold ends; what the drain that starts now reads of the ten holders. -/
  | foldEnd (views : List (Option HolderView)) (ecc : EccFinds)
  /-- R581. The drain has written every stripe; the pages, as holder, stripe and page of the piece, whose CRC read back differs from the
  source's both times (R416). -/
  | flowstoneDrainEnd (bad : List (Nat × Nat × Nat)) (ecc : EccFinds)
  /-- R590. RESTORE_SELECT of a started descriptor; what it reads of the modules listed, in order, and the bytes of a
  list that lies in another module. -/
  | restoreSelect (n seq : Nat) (mods : List ModView) (list : List Byte) (ecc : EccFinds)
  /-- R594. RESTORE of a started descriptor; the image bytes when IMG_ADDR lies in another module. -/
  | restore (n seq : Nat) (ext : List Byte) (ecc : EccFinds)
  /-- R522. CADDY_RECORD of a started descriptor. -/
  | caddyRecord (n seq : Nat) (ecc : EccFinds)
  /-- R526. A CADDY_COPY delivered to this module. -/
  | caddyCopy (pkt : Packet)
  /-- R528. A CADDY_ACK delivered to this module. -/
  | caddyAck (pkt : Packet)
  /-- R528. BUDDY_WAIT_US has passed. -/
  | buddyWaitExpire
  /-- R532. SPREAD_APPLY of a started descriptor. -/
  | spreadApply (n seq : Nat) (ecc : EccFinds)
  /-- R542. REBUILD of a started descriptor; what it reads of the ten holders, and their pieces. -/
  | rebuild (n seq : Nat) (views : List (Option HolderView)) (pieces : List PieceRead) (ecc : EccFinds)
  /-- R604. The boot ROM of Trelfort t runs. -/
  | bootRom (t : Nat)
  /-- R608. The K-cores of Trelfort t differ. -/
  | kcoreLockstep (t : Nat)
  /-- R609. The Trelfort that may take over gets the grants. -/
  | takeover
  /-- R611. The next journal entry reaches the standby `lag` microseconds after the change, or is lost. -/
  | journalEntry (lost : Bool) (lag : Nat)
  /-- R611. The full copy is applied. -/
  | syncComplete
  /-- R613. A write of ROLE_CMD: with the management-plane attribute, and the SWAP bit. -/
  | swap (mgmt swap : Bool)
  /-- R613. The primary hands over. -/
  | swapHandover
  /-- R606. A write of ARB. -/
  | fuseSvnAdvance (mgmt : Bool) (die svn : Nat)
  /-- R617. A datagram reaches Trelfort t from the source `src`: a READ. -/
  | tmpRead (t src : Nat) (dgram : List Byte) (ecc : EccFinds)
  /-- R617. A datagram: a WRITE. -/
  | tmpWrite (t src : Nat) (dgram : List Byte)
  /-- R619. A datagram: a STATUS request. -/
  | tmpStatus (t src : Nat) (dgram : List Byte)
  /-- R620. A datagram: a FLASH_WRITE. -/
  | flashWrite (t src : Nat) (dgram : List Byte)
  /-- R621. A datagram: a NOTICE_ACK. -/
  | noticeAck (t src : Nat) (dgram : List Byte)
  /-- R621. 100 ms have passed since the notice was sent last. -/
  | noticeRepeat (seq : Nat)
  /-- R623. An event of a kind (0 CE, 1 RETRY, 2 RETRAIN) of a subject. -/
  | riskEvent (subject kind : Nat)
  /-- R623. A bucket ends. -/
  | riskBucketBoundary
  /-- R646. Trelfort t copies the next record to its flash. -/
  | evrFlashCopy (t : Nat)
  /-- R647. A write of 1 to CLEAR_FLASH; `mgmt` as for RESET_CMD. -/
  | clearFlash (mgmt : Bool)
  /-- R647. The erase ends. -/
  | flashEraseDone
  /-- R648. EVR_FETCH of a started descriptor. -/
  | evrFetch (n seq : Nat)
  /-- R649. Another 1/256 h has passed. -/
  | opHoursSave
  /-- R652. The count of the earliest broadcast change is reached. -/
  | timeParamApply
  /-- R653. A write of TIME.RATE; `allowed` says that management or the primary's firmware makes it. -/
  | rateWrite (allowed : Bool) (value : Word)
  /-- R653. A write of TIME.ADJ. -/
  | adjWrite (allowed : Bool) (value : Word)
  /-- R653. The slew has run. -/
  | slewEnd
  /-- R656. A PTP message arrives. -/
  | ptpMessage (msg : PtpMsg)
  /-- R661. Three announce intervals have passed without an Announce. -/
  | announceTimeout
  /-- R658. A rising edge of SYNC_IN. -/
  | syncInEdge
  /-- R659. REFCLK is lost. -/
  | refclkLost
  /-- R659. REFCLK returns. -/
  | refclkReturn
  /-- R659. The PLLs change back, at a SYNC edge or after 1 s. -/
  | refclkSwitchback (sync : Bool)
  /-- R670. A write of EVT_SEL[d][n] by a master. -/
  | evtSelWrite (who : Master) (d n : Nat) (value : Word)
  /-- R670. A write of FILTER[d][n] by a master. -/
  | filterWrite (who : Master) (d n : Nat) (value : Word)
  /-- R672. A write of OBS.WHISTLE by a master. -/
  | whistleWrite (who : Master) (value : Word)
  /-- R676. A write of OBS.WHISTLE_SEND by a master. -/
  | whistleSend (who : Master) (value : Word)
  /-- R676. A WHISTLE packet delivered to this module. -/
  | whistlePacket (pkt : Packet)
  /-- R672, R685. A rising edge of DBG_TRIG_IN. -/
  | dbgTrigInEdge
  /-- R674. Module time reaches a pending Whistle. -/
  | whistleFire
  /-- R679. COUNTER_DUMP of a started descriptor. -/
  | counterDump (n seq : Nat)
  /-- R685. The packets after a trigger of block b run out. -/
  | tracePostStop (b : Nat)
  /-- R686. A write of TRACE_CFG, or of TRACE_BASE. -/
  | traceCfgWrite (base : Bool) (value : Word)
  /-- R693. BYPASS in the TAP of Trelfort t. -/
  | jtagBypass (t : Nat)
  /-- R692. IDCODE in the TAP of Trelfort t. -/
  | jtagIdcode (t : Nat)
  /-- R693. SAMPLE/PRELOAD in the TAP of Trelfort t: the levels at the pads, and the register that is shifted in. -/
  | jtagSamplePreload (t pads shifted : Nat)
  /-- R693. EXTEST in the TAP of Trelfort t: the levels at the pads, and the register that is shifted in. -/
  | jtagExtest (t pads shifted : Nat)
  /-- R695. IJTAG in the TAP of Trelfort t: the bits shifted, and whether the TAP stays in Shift-DR or Update-DR. -/
  | jtagIjtag (t bits : Nat) (held : Bool)
  /-- R693. KTRACE in the TAP of Trelfort t. -/
  | jtagKtrace (t : Nat)
  /-- R694. MEMACC in the TAP of Trelfort t: WRITE, ADDRESS and DATA. -/
  | jtagMemacc (t : Nat) (write : Bool) (addr : Nat) (data : Word) (ecc : EccFinds)
  /-- R693. KEYPROG in the TAP of Trelfort t: the 32 bytes of the key. -/
  | jtagKeyprog (t : Nat) (key : List Byte)
  /-- R692. TRST# is asserted. -/
  | trstAssert
  /-- R625. The voltage of feed f (0 FEED_A, 1 FEED_B), in 0.1 V, comes into 700 to 900 V. -/
  | feedInRange (f volt : Nat)
  /-- R740. The voltage of feed f rises past 100 V. -/
  | feedPrechargeStart (f volt : Nat)
  /-- R740. The input capacitance of feed f is charged to within 50 V. -/
  | feedPrechargeDone (f : Nat)
  /-- R625. Feed f has been in range for 10 s; whether its self-test passes. -/
  | feedQualified (f : Nat) (selftest : Bool)
  /-- R625. Feed f leaves 700 to 900 V. -/
  | feedOutOfRange (f volt : Nat)
  /-- R626. FEED_A has not qualified 30 s after FEED_B. -/
  | feedbPowerupTimer
  /-- R627, R629, R630. Feed f, ACTIVE, trips; whether the other feed carries the load within 100 µs. -/
  | feedTrip (f volt : Nat) (pickup : Bool)
  /-- R739. The averaged current of the ACTIVE feed, in 10 mA. -/
  | feedCurrentLimit (curr : Nat)
  /-- R697, R698. The supplies are in regulation after a feed became ACTIVE. -/
  | powerUp
  /-- R697, R703. Steps 5 to 10 end: blocks that failed the start-up scan, whether a pattern segment failed in both flashes, the
  persistent settings, and the MGMT rings that they name. -/
  | startupReady (failed : List Nat) (noScan : Bool) (settings : List (Nat × Word)) (rings : List Nat)
  /-- R707. A token of 5 bytes on ENUM_IN; `coded` says that every bit had its transition. -/
  | enumTokenReceive (frame : List Byte) (coded : Bool)
  /-- R708. 10 ms have passed since the last token. -/
  | enumTokenSend
  /-- R710. ENUM_WAIT_S has passed. -/
  | enumWaitExpire
  /-- R699. Both waits of step 3 have passed. -/
  | assignWaitExpire
  /-- R699. LOCK_WAIT_S has passed. -/
  | lockWaitExpire
  /-- R712. A write of CHIP_ASSIGN. -/
  | chipAssignWrite (mgmt : Bool) (value : Word)
  /-- R701. A write of START_CFG. -/
  | startCfgWrite (mgmt : Bool) (value : Word)
  /-- R716. A write of DVFS. -/
  | targetMhzWrite (value : Word)
  /-- R717. The PLLs take a step. -/
  | dvfsGlideStep
  /-- R720. 1 µs has passed without array work. -/
  | arrayIdle
  /-- R721. POWER of a started descriptor; blocks that do not beat within 10 ms of leaving DOZE. -/
  | power (n seq : Nat) (silent : List Nat)
  /-- R724. A die reaches WARN_C. -/
  | thermalWarn (die temp : Nat)
  /-- R724, R739. The next step of the cap is due, with the hottest die and its temperature. -/
  | capStep (die temp : Nat)
  /-- R725. A junction reaches 110 °C; the stacks that did not reach self-refresh. -/
  | thermalTrip (die temp : Nat) (lost : List Nat)
  /-- R726. THERMTRIP# is released. -/
  | thermtripRelease
  /-- R724, R744. The coolant-inlet sensor reads a temperature, 0xFF when it does not answer. -/
  | coolantInletReading (temp : Nat)
  /-- R702. A Configuration Request. -/
  | pcieConfigRequest (req : CfgReq)
  /-- R702. The PCIe link finishes training. -/
  | pcieLinkUp
  deriving DecidableEq, Repr

end Sys2Proof
end

