-- ==== Sys2Proof/Decode.lean ====
section
/-!
DEFINITION. The commands that words spell. The block takes commands from its pins, buses and registers and has no
instruction words: spec/opcode_table.json gives its rows no bits, so no word spells a command.
-/
namespace Sys2Proof

/-- The command that the bits of a word spell: none, since no row of the table has bits. -/
def decodeTableWord (_nbits _w : Nat) : Option Instr := none

end Sys2Proof
end

