-- ==== Sys2Proof/Machine/Bits.lean ====
section
/-!
DEFINITION. Bit fields of words, little-endian byte strings (spec/00 R2), saturating counters and two's complement.
-/
namespace Sys2Proof.Machine

/-- Bits hi down to lo of a number. -/
def bitsOf (w hi lo : Nat) : Nat := w / 2 ^ lo % 2 ^ (hi + 1 - lo)

/-- Bit b of a number. -/
def bitOf (w b : Nat) : Bool := w / 2 ^ b % 2 == 1

/-- A number of n bits with bit b set or cleared. -/
def setBit (w b : Nat) (v : Bool) : Nat :=
  if bitOf w b == v then w else if v then w + 2 ^ b else w - 2 ^ b

/-- The place of a field in a register: its high and its low bit. -/
structure Fld where
  hi : Nat
  lo : Nat
  deriving DecidableEq, Repr

/-- The value of a field of a register word. -/
def Fld.get (f : Fld) (w : Word) : Nat := bitsOf w.toNat f.hi f.lo

/-- The largest value a field can hold. -/
def Fld.max (f : Fld) : Nat := 2 ^ (f.hi + 1 - f.lo) - 1

/-- The mask of a field's bits. -/
def Fld.mask (f : Fld) : Word := BitVec.ofNat 64 (f.max * 2 ^ f.lo)

/-- A register word with the field replaced by v, reduced to the field's width. -/
def Fld.put (f : Fld) (w : Word) (v : Nat) : Word :=
  (w &&& ~~~ f.mask) ||| (BitVec.ofNat 64 (v % (f.max + 1) * 2 ^ f.lo))

/-- The number that little-endian bytes spell (R2). -/
def leNat : List Byte → Nat
  | [] => 0
  | b :: t => b.toNat + 256 * leNat t

/-- The n low bytes of a number, least significant first (R2). -/
def leBytes : Nat → Nat → List Byte
  | 0, _ => []
  | n + 1, v => BitVec.ofNat 8 v :: leBytes n (v / 256)

/-- Bytes first to first + n - 1 of a byte string as a little-endian number. -/
def leAt (bs : List Byte) (first n : Nat) : Nat := leNat ((bs.drop first).take n)

/-- A counter that stops at top. -/
def satAdd (top a b : Nat) : Nat := min top (a + b)

/-- The signed value of an n-bit two's complement number. -/
def sext (n v : Nat) : Int :=
  if 2 * (v % 2 ^ n) ≥ 2 ^ n then (v % 2 ^ n : Int) - 2 ^ n else (v % 2 ^ n : Int)

/-- The n-bit two's complement form of a signed value. -/
def tc (n : Nat) (v : Int) : Nat := (v % (2 ^ n : Int)).toNat

/-- How many of the n low bits of a number are set. -/
def popcount : Nat → Nat → Nat
  | 0, _ => 0
  | n + 1, w => w % 2 + popcount n (w / 2)

/-- The positions below n of the set bits of a number, ascending. -/
def bitList (n w : Nat) : List Nat := (List.range n).filter (bitOf w)

/-- The quotient rounded up. -/
def ceilDiv (a b : Nat) : Nat := (a + b - 1) / b

/-- (a - b) mod 2^n for sequence numbers. -/
def subMod (n a b : Nat) : Nat := (a % 2 ^ n + 2 ^ n - b % 2 ^ n) % 2 ^ n

/-- Replace the element at place i of a list, where it has one. -/
def listSet {α : Type} : List α → Nat → α → List α
  | [], _, _ => []
  | _ :: t, 0, v => v :: t
  | a :: t, i + 1, v => a :: listSet t i v

/-- Change the first element of a list that satisfies p. -/
def updFirst {α : Type} (p : α → Bool) (f : α → α) : List α → List α
  | [] => []
  | a :: t => if p a then f a :: t else a :: updFirst p f t

/-- A list without its first element that satisfies p. -/
def dropFirst {α : Type} (p : α → Bool) : List α → List α
  | [] => []
  | a :: t => if p a then t else a :: dropFirst p t

/-- The list cut into pieces of n elements; the fuel bounds the number of pieces. -/
def chunksOf {α : Type} (n : Nat) : Nat → List α → List (List α)
  | 0, _ => []
  | _ + 1, [] => []
  | fuel + 1, l => l.take n :: chunksOf n fuel (l.drop n)

end Sys2Proof.Machine
end

