-- ==== Sys2Proof/Machine/Crc.lean ====
section
/-!
DEFINITION. The two cyclic redundancy codes of the spec: CRC-32C over bytes (spec/09 R407) and CRC-64 with the ECMA-182
polynomial (spec/08 R388).
-/
namespace Sys2Proof.Machine

/-- n steps of a reflected CRC register. -/
def crcStepsRefl (poly : Nat) : Nat → Nat → Nat
  | 0, c => c
  | n + 1, c => crcStepsRefl poly n (if c % 2 = 1 then (c / 2) ^^^ poly else c / 2)

/-- n steps of a CRC register of w bits that shifts left. -/
def crcStepsNorm (w poly : Nat) : Nat → Nat → Nat
  | 0, c => c
  | n + 1, c =>
    crcStepsNorm w poly n (if bitOf c (w - 1) then ((2 * c) % 2 ^ w) ^^^ poly else (2 * c) % 2 ^ w)

/-- A register carried over bytes. Its value is looked at before each byte, so that long strings can be evaluated. -/
def crcFold (f : Nat → Byte → Nat) : List Byte → Nat → Nat
  | [], c => c
  | b :: t, 0 => crcFold f t (f 0 b)
  | b :: t, c + 1 => crcFold f t (f (c + 1) b)

/-- A left-shifting CRC of w bits carried over bytes. -/
def crcNormBytes (w poly : Nat) (c : Nat) (bs : List Byte) : Nat :=
  crcFold (fun c b => crcStepsNorm w poly 8 (c ^^^ (b.toNat * 2 ^ (w - 8)))) bs c

/-- CRC-32C (Castagnoli) of a byte string. -/
def crc32c (bs : List Byte) : Nat :=
  crcFold (fun c b => crcStepsRefl 0x82F63B78 8 (c ^^^ b.toNat)) bs 0xFFFFFFFF ^^^ 0xFFFFFFFF

end Sys2Proof.Machine
end

