-- ==== Sys2Proof/Config.lean ====
section
/-!
DEFINITION. What one part fixes and what the spec leaves open. Every constant here is opaque: nothing in Lean can evaluate
it, so a claim holds for every value of it. Each is named by a row of the assumption log.
-/
namespace Sys2Proof

/-- The serial number programmed at manufacture (spec/19 R762). -/
opaque Config.serialNumber : Word

/-- A byte that the spec calls indeterminate or states no value for; the argument is the counter `State.freeCtr`. -/
opaque Config.freeByte : Nat → Byte

/-- Which of the binary32 values within 2 units in the last place an elementary function of a vector engine gives (spec/04
R203): the SUBOP and the input. -/
opaque Config.veSlip : Nat → BitVec 32 → Nat

/-- What an elementary function of a vector engine gives where the spec states no value: the SUBOP and the input. -/
opaque Config.veOpen : Nat → BitVec 32 → BitVec 32

/-- The SHA-384 digest of the vendor's public key in the fuses of Trelfort die t (spec/14 R603). -/
opaque Config.keyDigest : Nat → List Byte

/-- The BRANCH and TARGET packets that a block's sequencer emits for a traced descriptor (spec/16 R681): the program image that
decides them is not in the spec. The argument is the counter `State.freeCtr`. -/
opaque Config.branchTrace : Nat → List (List Byte)

/-- The link-control content of a LINK flit (spec/07 R307), whose layout the spec does not give (assumption 119): the message, 0 HELLO,
1 Keep-warm, 2 Keep-warm exit, 3 last accepted SEQ, and its fields. -/
opaque Config.linkContent : Nat → List Nat → List Byte

/-- R684. Whether the sink of a trace packet has fallen behind while the block's buffer is full (assumption 92). -/
opaque Config.traceBehind : Nat → Bool

end Sys2Proof
end

