-- ==== Sys2Proof/Machine/Regs.lean ====
section
/-!
DEFINITION. The set-up registers of spec/19 R765-R773 and the field maps of the chapters: the offset of each register in
BAR0 (`Reg.<BLOCK>_<REGISTER>`), the place of each field (`Fld.<BLOCK>_<REGISTER>_<FIELD>`), and the register list with
its access codes, reset values, owning functions and management marks.
-/
namespace Sys2Proof.Machine

/-- The access codes of spec/19 R755; a reserved bit belongs to no field. -/
inductive Acc where
  | ro | rw | rw1c | wo
  deriving DecidableEq, Repr

/-- One row of the register list. `strideA`, `countA` and `strideB`, `countB` place the elements of an indexed register;
`owner` is the function that owns a configuration register: its number is the first part plus the second times the A
index (R109); `mgmt` marks a register that takes writes only with the management-plane attribute. -/
structure RegRow where
  name    : String
  base    : Nat
  strideA : Nat
  countA  : Nat
  strideB : Nat
  countB  : Nat
  reset   : Word
  owner   : Option (Nat × Nat)
  mgmt    : Bool
  fields  : List (Fld × Acc)
  deriving DecidableEq, Repr

/-- Offset of MOD.ID (R761). -/
def Reg.MOD_ID : Nat := 0x0
def Fld.MOD_ID_VENDOR : Fld := ⟨63, 48⟩
def Fld.MOD_ID_PART : Fld := ⟨47, 32⟩
def Fld.MOD_ID_FAMILY : Fld := ⟨31, 24⟩
def Fld.MOD_ID_REV_MAJOR : Fld := ⟨23, 16⟩
def Fld.MOD_ID_REV_MINOR : Fld := ⟨15, 8⟩
/-- Offset of MOD.CAP (R762). -/
def Reg.MOD_CAP : Nat := 0x8
def Fld.MOD_CAP_STACKS : Fld := ⟨63, 56⟩
def Fld.MOD_CAP_STACK_GIB : Fld := ⟨55, 48⟩
def Fld.MOD_CAP_PORTS : Fld := ⟨47, 40⟩
def Fld.MOD_CAP_REGIONS : Fld := ⟨39, 32⟩
def Fld.MOD_CAP_BLOCKS : Fld := ⟨31, 24⟩
def Fld.MOD_CAP_CELLS : Fld := ⟨23, 16⟩
def Fld.MOD_CAP_MAX_L : Fld := ⟨15, 8⟩
def Fld.MOD_CAP_FMT_MASK : Fld := ⟨7, 0⟩
/-- Offset of MOD.CHIP_NUMBER (R32). -/
def Reg.MOD_CHIP_NUMBER : Nat := 0x10
def Fld.MOD_CHIP_NUMBER_VALID : Fld := ⟨16, 16⟩
def Fld.MOD_CHIP_NUMBER_GROUP : Fld := ⟨15, 9⟩
def Fld.MOD_CHIP_NUMBER_MEMBER : Fld := ⟨8, 0⟩
/-- Offset of MOD.SERIAL (R762). -/
def Reg.MOD_SERIAL : Nat := 0x18
def Fld.MOD_SERIAL_SERIAL : Fld := ⟨63, 0⟩
/-- Offset of MOD.AP_WIN (R57). -/
def Reg.MOD_AP_WIN (w : Nat) : Nat := 0x100 + 0x8 * w
def Fld.MOD_AP_WIN_BASE : Fld := ⟨63, 30⟩
def Fld.MOD_AP_WIN_VALID : Fld := ⟨0, 0⟩
/-- Offset of MOD.HANG_CFG (R514). -/
def Reg.MOD_HANG_CFG : Nat := 0x200
def Fld.MOD_HANG_CFG_WF_EN : Fld := ⟨16, 16⟩
def Fld.MOD_HANG_CFG_STALL_MS : Fld := ⟨15, 0⟩
/-- Offset of MOD.HANG_STATUS (R514). -/
def Reg.MOD_HANG_STATUS : Nat := 0x208
def Fld.MOD_HANG_STATUS_COUNT : Fld := ⟨63, 48⟩
def Fld.MOD_HANG_STATUS_RING : Fld := ⟨47, 40⟩
def Fld.MOD_HANG_STATUS_DIE : Fld := ⟨39, 32⟩
def Fld.MOD_HANG_STATUS_LEN : Fld := ⟨31, 28⟩
def Fld.MOD_HANG_STATUS_FUNCTION : Fld := ⟨25, 16⟩
def Fld.MOD_HANG_STATUS_PORT : Fld := ⟨15, 8⟩
def Fld.MOD_HANG_STATUS_VALID : Fld := ⟨0, 0⟩
/-- Offset of MOD.HANG_SEQ (R514). -/
def Reg.MOD_HANG_SEQ : Nat := 0x210
def Fld.MOD_HANG_SEQ_RING_SEQ : Fld := ⟨63, 32⟩
def Fld.MOD_HANG_SEQ_LAYER_ID : Fld := ⟨31, 16⟩
def Fld.MOD_HANG_SEQ_OP_ID : Fld := ⟨15, 0⟩
/-- Offset of MOD.LANTERN_MISS (R514). -/
def Reg.MOD_LANTERN_MISS : Nat := 0x218
def Fld.MOD_LANTERN_MISS_BLOCKS : Fld := ⟨63, 0⟩
/-- Offset of MOD.RESET_CFG (R514). -/
def Reg.MOD_RESET_CFG : Nat := 0x220
def Fld.MOD_RESET_CFG_AUTO_RESTART : Fld := ⟨7, 7⟩
def Fld.MOD_RESET_CFG_DUMP_COLD : Fld := ⟨2, 2⟩
def Fld.MOD_RESET_CFG_DUMP_MODULE : Fld := ⟨1, 1⟩
def Fld.MOD_RESET_CFG_DUMP_COMPUTE : Fld := ⟨0, 0⟩
/-- Offset of MOD.RESET_CMD (R514). -/
def Reg.MOD_RESET_CMD : Nat := 0x228
def Fld.MOD_RESET_CMD_DUMP : Fld := ⟨7, 7⟩
def Fld.MOD_RESET_CMD_LEVEL : Fld := ⟨1, 0⟩
/-- Offset of MOD.RESET_STATUS (R514). -/
def Reg.MOD_RESET_STATUS : Nat := 0x230
def Fld.MOD_RESET_STATUS_COMPUTE : Fld := ⟨63, 48⟩
def Fld.MOD_RESET_STATUS_MODULE : Fld := ⟨47, 32⟩
def Fld.MOD_RESET_STATUS_COLD : Fld := ⟨31, 24⟩
def Fld.MOD_RESET_STATUS_LAST_CAUSE : Fld := ⟨23, 16⟩
def Fld.MOD_RESET_STATUS_IN_PROGRESS : Fld := ⟨9, 8⟩
def Fld.MOD_RESET_STATUS_PHASE : Fld := ⟨0, 0⟩
/-- Offset of MOD.DUMP_STATUS (R514). -/
def Reg.MOD_DUMP_STATUS : Nat := 0x238
def Fld.MOD_DUMP_STATUS_DUMP_SEQ : Fld := ⟨63, 32⟩
def Fld.MOD_DUMP_STATUS_LEVEL : Fld := ⟨31, 24⟩
def Fld.MOD_DUMP_STATUS_CAUSE : Fld := ⟨23, 16⟩
def Fld.MOD_DUMP_STATUS_COPY1_VALID : Fld := ⟨1, 1⟩
def Fld.MOD_DUMP_STATUS_COPY0_VALID : Fld := ⟨0, 0⟩
/-- Offset of MOD.CHIP_ASSIGN (R727). -/
def Reg.MOD_CHIP_ASSIGN : Nat := 0x300
def Fld.MOD_CHIP_ASSIGN_SLOT_OVR_EN : Fld := ⟨17, 17⟩
def Fld.MOD_CHIP_ASSIGN_VALID : Fld := ⟨16, 16⟩
def Fld.MOD_CHIP_ASSIGN_SLOT_OVR : Fld := ⟨15, 12⟩
def Fld.MOD_CHIP_ASSIGN_GROUP : Fld := ⟨11, 5⟩
def Fld.MOD_CHIP_ASSIGN_RACK : Fld := ⟨4, 0⟩
/-- Offset of MOD.ENUM_STATUS (R727). -/
def Reg.MOD_ENUM_STATUS : Nat := 0x308
def Fld.MOD_ENUM_STATUS_CHANGES : Fld := ⟨63, 48⟩
def Fld.MOD_ENUM_STATUS_BAD_FRAMES : Fld := ⟨47, 32⟩
def Fld.MOD_ENUM_STATUS_LAST_RX : Fld := ⟨31, 24⟩
def Fld.MOD_ENUM_STATUS_SLOT_VALID : Fld := ⟨7, 7⟩
def Fld.MOD_ENUM_STATUS_OVER : Fld := ⟨6, 6⟩
def Fld.MOD_ENUM_STATUS_STUCK : Fld := ⟨5, 5⟩
def Fld.MOD_ENUM_STATUS_SLOT_CHANGED : Fld := ⟨4, 4⟩
def Fld.MOD_ENUM_STATUS_SLOT : Fld := ⟨3, 0⟩
/-- Offset of MOD.FN (R105). -/
def Reg.MOD_FN (f : Nat) : Nat := 0x1000 + 0x8 * f
def Fld.MOD_FN_DRAIN_LIMIT : Fld := ⟨47, 32⟩
def Fld.MOD_FN_GEN : Fld := ⟨31, 24⟩
def Fld.MOD_FN_CMD : Fld := ⟨19, 16⟩
def Fld.MOD_FN_STATE : Fld := ⟨3, 0⟩
/-- Offset of RING.SQ_BASE (R123). -/
def Reg.RING_SQ_BASE (n : Nat) : Nat := 0x100000 + 0x40 * n
def Fld.RING_SQ_BASE_BASE : Fld := ⟨63, 12⟩
def Fld.RING_SQ_BASE_LOC : Fld := ⟨0, 0⟩
/-- Offset of RING.SQ_CFG (R123). -/
def Reg.RING_SQ_CFG (n : Nat) : Nat := 0x100008 + 0x40 * n
def Fld.RING_SQ_CFG_CQ : Fld := ⟨15, 8⟩
def Fld.RING_SQ_CFG_LOG2_SIZE : Fld := ⟨4, 0⟩
/-- Offset of RING.SQ_HEAD (R123). -/
def Reg.RING_SQ_HEAD (n : Nat) : Nat := 0x100010 + 0x40 * n
def Fld.RING_SQ_HEAD_HEAD : Fld := ⟨31, 0⟩
/-- Offset of RING.SQ_TAIL (R123). -/
def Reg.RING_SQ_TAIL (n : Nat) : Nat := 0x100018 + 0x40 * n
def Fld.RING_SQ_TAIL_TAIL : Fld := ⟨31, 0⟩
/-- Offset of RING.SQ_STATUS (R123). -/
def Reg.RING_SQ_STATUS (n : Nat) : Nat := 0x100020 + 0x40 * n
def Fld.RING_SQ_STATUS_DISOWNED : Fld := ⟨63, 32⟩
def Fld.RING_SQ_STATUS_DB_REJECT : Fld := ⟨31, 1⟩
def Fld.RING_SQ_STATUS_HALTED : Fld := ⟨0, 0⟩
/-- Offset of RING.EVT_BANK (R123). -/
def Reg.RING_EVT_BANK (n : Nat) : Nat := 0x100028 + 0x40 * n
def Fld.RING_EVT_BANK_OVERFLOW : Fld := ⟨33, 33⟩
def Fld.RING_EVT_BANK_POISON : Fld := ⟨32, 32⟩
def Fld.RING_EVT_BANK_COUNT : Fld := ⟨31, 0⟩
/-- Offset of RING.CQ_BASE (R123). -/
def Reg.RING_CQ_BASE (m : Nat) : Nat := 0x104000 + 0x40 * m
def Fld.RING_CQ_BASE_BASE : Fld := ⟨63, 12⟩
def Fld.RING_CQ_BASE_LOC : Fld := ⟨0, 0⟩
/-- Offset of RING.CQ_CFG (R123). -/
def Reg.RING_CQ_CFG (m : Nat) : Nat := 0x104008 + 0x40 * m
def Fld.RING_CQ_CFG_VECTOR : Fld := ⟨15, 8⟩
def Fld.RING_CQ_CFG_LOG2_SIZE : Fld := ⟨4, 0⟩
/-- Offset of RING.CQ_TAIL (R123). -/
def Reg.RING_CQ_TAIL (m : Nat) : Nat := 0x104010 + 0x40 * m
def Fld.RING_CQ_TAIL_TAIL : Fld := ⟨31, 0⟩
/-- Offset of RING.CQ_HEAD (R123). -/
def Reg.RING_CQ_HEAD (m : Nat) : Nat := 0x104018 + 0x40 * m
def Fld.RING_CQ_HEAD_HEAD : Fld := ⟨31, 0⟩
/-- Offset of RING.CQ_STATUS (R123). -/
def Reg.RING_CQ_STATUS (m : Nat) : Nat := 0x104020 + 0x40 * m
def Fld.RING_CQ_STATUS_DROPPED : Fld := ⟨63, 32⟩
def Fld.RING_CQ_STATUS_RESERVED : Fld := ⟨31, 0⟩
/-- Offset of RING.DB (R71). -/
def Reg.RING_DB (n : Nat) : Nat := 0x108000 + 0x8 * n
def Fld.RING_DB_TAIL : Fld := ⟨31, 0⟩
/-- Offset of ARR.TILER_CFG (R190). -/
def Reg.ARR_TILER_CFG : Nat := 0x200000
def Fld.ARR_TILER_CFG_OVERLAP : Fld := ⟨16, 16⟩
def Fld.ARR_TILER_CFG_PREFETCH_CHUNKS : Fld := ⟨11, 8⟩
def Fld.ARR_TILER_CFG_TILER_MIB : Fld := ⟨6, 0⟩
/-- Offset of ARR.SWEEP_STATUS (R199). -/
def Reg.ARR_SWEEP_STATUS : Nat := 0x200008
def Fld.ARR_SWEEP_STATUS_ACTIVE_CELLS : Fld := ⟨44, 32⟩
def Fld.ARR_SWEEP_STATUS_RING : Fld := ⟨31, 24⟩
def Fld.ARR_SWEEP_STATUS_TILES_LEFT : Fld := ⟨23, 0⟩
/-- Offset of ARR.BLOCK_MASK (R199). -/
def Reg.ARR_BLOCK_MASK : Nat := 0x200010
def Fld.ARR_BLOCK_MASK_ENABLE : Fld := ⟨63, 0⟩
/-- Offset of ARR.FENCE_BLOCK (R199). -/
def Reg.ARR_FENCE_BLOCK : Nat := 0x200018
def Fld.ARR_FENCE_BLOCK_FENCED : Fld := ⟨63, 0⟩
/-- Offset of ARR.ARITH_CNT (R166). -/
def Reg.ARR_ARITH_CNT : Nat := 0x200100
def Fld.ARR_ARITH_CNT_BOUND_EXT : Fld := ⟨63, 48⟩
def Fld.ARR_ARITH_CNT_NAN : Fld := ⟨47, 32⟩
def Fld.ARR_ARITH_CNT_INF : Fld := ⟨31, 16⟩
def Fld.ARR_ARITH_CNT_FLUSH : Fld := ⟨15, 0⟩
/-- Offset of ARR.CELL_MASK (R199). -/
def Reg.ARR_CELL_MASK (b : Nat) : Nat := 0x201000 + 0x8 * b
def Fld.ARR_CELL_MASK_ENABLE : Fld := ⟨63, 0⟩
/-- Offset of ARR.FENCE_CELL (R199). -/
def Reg.ARR_FENCE_CELL (b : Nat) : Nat := 0x201200 + 0x8 * b
def Fld.ARR_FENCE_CELL_FENCED : Fld := ⟨63, 0⟩
/-- Offset of LDG.TBL_DIR_BASE (R261). -/
def Reg.LDG_TBL_DIR_BASE (r : Nat) : Nat := 0x300000 + 0x10000 * r
def Fld.LDG_TBL_DIR_BASE_BASE : Fld := ⟨63, 12⟩
/-- Offset of LDG.TBL_DIR_CFG (R261). -/
def Reg.LDG_TBL_DIR_CFG (r : Nat) : Nat := 0x300008 + 0x10000 * r
def Fld.LDG_TBL_DIR_CFG_COUNT : Fld := ⟨15, 0⟩
/-- Offset of LDG.GATHER_STATUS (R261). -/
def Reg.LDG_GATHER_STATUS (r : Nat) : Nat := 0x300010 + 0x10000 * r
def Fld.LDG_GATHER_STATUS_OUTSTANDING : Fld := ⟨45, 32⟩
def Fld.LDG_GATHER_STATUS_STARTED : Fld := ⟨2, 0⟩
/-- Offset of LDG.ERRMEM_BASE (R261). -/
def Reg.LDG_ERRMEM_BASE (r : Nat) : Nat := 0x300018 + 0x10000 * r
def Fld.LDG_ERRMEM_BASE_BASE : Fld := ⟨63, 12⟩
/-- Offset of LDG.ERRMEM_SIZE (R261). -/
def Reg.LDG_ERRMEM_SIZE (r : Nat) : Nat := 0x300020 + 0x10000 * r
def Fld.LDG_ERRMEM_SIZE_PAGES : Fld := ⟨31, 0⟩
/-- Offset of LDG.DIRTY_CTL (R261). -/
def Reg.LDG_DIRTY_CTL (r : Nat) : Nat := 0x300028 + 0x10000 * r
def Fld.LDG_DIRTY_CTL_BANK : Fld := ⟨48, 48⟩
def Fld.LDG_DIRTY_CTL_HELD_CUTS : Fld := ⟨47, 32⟩
def Fld.LDG_DIRTY_CTL_INACTIVE_SET : Fld := ⟨31, 0⟩
/-- Offset of LDG.SCRUB_CFG (R261). -/
def Reg.LDG_SCRUB_CFG (r : Nat) : Nat := 0x300030 + 0x10000 * r
def Fld.LDG_SCRUB_CFG_PERIOD_H : Fld := ⟨15, 0⟩
/-- Offset of LDG.ECC_STATUS (R261). -/
def Reg.LDG_ECC_STATUS (r : Nat) (k : Nat) : Nat := 0x300040 + 0x10000 * r + 0x8 * k
def Fld.LDG_ECC_STATUS_UE_COUNT : Fld := ⟨63, 48⟩
def Fld.LDG_ECC_STATUS_CE_COUNT : Fld := ⟨47, 16⟩
/-- Offset of LDG.UE_ADDR (R261). -/
def Reg.LDG_UE_ADDR (r : Nat) (k : Nat) : Nat := 0x300050 + 0x10000 * r + 0x8 * k
def Fld.LDG_UE_ADDR_ADDR : Fld := ⟨35, 6⟩
def Fld.LDG_UE_ADDR_VALID : Fld := ⟨0, 0⟩
/-- Offset of LDG.SUMP_STATUS (R768). -/
def Reg.LDG_SUMP_STATUS (r : Nat) : Nat := 0x380000 + 0x100 * r
def Fld.LDG_SUMP_STATUS_COPIED : Fld := ⟨63, 32⟩
def Fld.LDG_SUMP_STATUS_HELD_WRITES : Fld := ⟨31, 16⟩
def Fld.LDG_SUMP_STATUS_PHASE : Fld := ⟨2, 0⟩
/-- Offset of LDG.SUMP_PROGRESS (R768). -/
def Reg.LDG_SUMP_PROGRESS (r : Nat) : Nat := 0x380008 + 0x100 * r
def Fld.LDG_SUMP_PROGRESS_NEXT : Fld := ⟨31, 0⟩
/-- Offset of UPD.RULE_BASE (R302). -/
def Reg.UPD_RULE_BASE (r : Nat) : Nat := 0x400000 + 0x10000 * r
def Fld.UPD_RULE_BASE_BASE : Fld := ⟨63, 12⟩
/-- Offset of UPD.CFG (R302). -/
def Reg.UPD_CFG (r : Nat) : Nat := 0x400008 + 0x10000 * r
def Fld.UPD_CFG_FORCE_VE : Fld := ⟨0, 0⟩
/-- Offset of UPD.STATUS (R302). -/
def Reg.UPD_STATUS (r : Nat) : Nat := 0x400010 + 0x10000 * r
def Fld.UPD_STATUS_SINGULAR : Fld := ⟨63, 48⟩
def Fld.UPD_STATUS_NONFINITE : Fld := ⟨47, 32⟩
def Fld.UPD_STATUS_HANDED : Fld := ⟨31, 16⟩
def Fld.UPD_STATUS_VE_BUSY : Fld := ⟨0, 0⟩
/-- Offset of UPD.RUNNING (R302). -/
def Reg.UPD_RUNNING (r : Nat) : Nat := 0x400018 + 0x10000 * r
def Fld.UPD_RUNNING_RING : Fld := ⟨39, 32⟩
def Fld.UPD_RUNNING_RING_SEQ : Fld := ⟨31, 0⟩
/-- Offset of UPD.PROGRESS (R302). -/
def Reg.UPD_PROGRESS (r : Nat) : Nat := 0x400020 + 0x10000 * r
def Fld.UPD_PROGRESS_NEXT : Fld := ⟨31, 0⟩
/-- Offset of FAB.VC_CREDITS (R356). -/
def Reg.FAB_VC_CREDITS (r : Nat) : Nat := 0x500000 + 0x10000 * r
def Fld.FAB_VC_CREDITS_ALL : Fld := ⟨63, 0⟩
/-- Offset of FAB.VC_WEIGHT (R356). -/
def Reg.FAB_VC_WEIGHT (r : Nat) : Nat := 0x500008 + 0x10000 * r
def Fld.FAB_VC_WEIGHT_ALL : Fld := ⟨23, 0⟩
/-- Offset of FAB.PORT_CFG (R356). -/
def Reg.FAB_PORT_CFG (r : Nat) (q : Nat) : Nat := 0x500010 + 0x10000 * r + 0x8 * q
def Fld.FAB_PORT_CFG_PLAN_CHIP : Fld := ⟨39, 24⟩
def Fld.FAB_PORT_CFG_PLAN_PORT : Fld := ⟨23, 16⟩
def Fld.FAB_PORT_CFG_NGROUP : Fld := ⟨7, 4⟩
def Fld.FAB_PORT_CFG_KW_FORCE : Fld := ⟨3, 3⟩
def Fld.FAB_PORT_CFG_KW_ALLOW : Fld := ⟨2, 2⟩
def Fld.FAB_PORT_CFG_PLANNED : Fld := ⟨1, 1⟩
def Fld.FAB_PORT_CFG_ENABLE : Fld := ⟨0, 0⟩
/-- Offset of FAB.PORT_STATUS (R356). -/
def Reg.FAB_PORT_STATUS (r : Nat) (q : Nat) : Nat := 0x500040 + 0x10000 * r + 0x8 * q
def Fld.FAB_PORT_STATUS_NEIGH_CHIP : Fld := ⟨35, 20⟩
def Fld.FAB_PORT_STATUS_NEIGH_PORT : Fld := ⟨19, 12⟩
def Fld.FAB_PORT_STATUS_RETRAINS : Fld := ⟨11, 8⟩
def Fld.FAB_PORT_STATUS_KW : Fld := ⟨4, 4⟩
def Fld.FAB_PORT_STATUS_STATE : Fld := ⟨3, 0⟩
/-- Offset of FAB.PORT_ERR (R356). -/
def Reg.FAB_PORT_ERR (r : Nat) (q : Nat) : Nat := 0x500070 + 0x10000 * r + 0x8 * q
def Fld.FAB_PORT_ERR_CRC_ERR : Fld := ⟨63, 32⟩
def Fld.FAB_PORT_ERR_REPLAYS : Fld := ⟨31, 0⟩
/-- Offset of FAB.STATUS (R356). -/
def Reg.FAB_STATUS (r : Nat) : Nat := 0x5000A0 + 0x10000 * r
def Fld.FAB_STATUS_VC7_DROP : Fld := ⟨63, 48⟩
def Fld.FAB_STATUS_MGMT_CLEARED : Fld := ⟨47, 32⟩
def Fld.FAB_STATUS_NO_ROUTE : Fld := ⟨31, 0⟩
/-- Offset of FAB.ROUTE (R325). -/
def Reg.FAB_ROUTE (r : Nat) (i : Nat) : Nat := 0x508000 + 0x10000 * r + 0x8 * i
def Fld.FAB_ROUTE_VALID : Fld := ⟨63, 63⟩
def Fld.FAB_ROUTE_ALT_VALID : Fld := ⟨62, 62⟩
def Fld.FAB_ROUTE_DATELINE : Fld := ⟨61, 61⟩
def Fld.FAB_ROUTE_ALT_DATELINE : Fld := ⟨60, 60⟩
def Fld.FAB_ROUTE_GROUP : Fld := ⟨59, 56⟩
def Fld.FAB_ROUTE_ALT_GROUP : Fld := ⟨55, 52⟩
def Fld.FAB_ROUTE_NEXT : Fld := ⟨31, 16⟩
def Fld.FAB_ROUTE_ALT_NEXT : Fld := ⟨15, 0⟩
/-- Offset of FAB.PLAN_STATUS (R357). -/
def Reg.FAB_PLAN_STATUS : Nat := 0x580000
def Fld.FAB_PLAN_STATUS_ACCEPT_DOWN : Fld := ⟨63, 48⟩
def Fld.FAB_PLAN_STATUS_DEGRADED : Fld := ⟨40, 40⟩
def Fld.FAB_PLAN_STATUS_DOWN : Fld := ⟨39, 32⟩
def Fld.FAB_PLAN_STATUS_QUARANTINED : Fld := ⟨31, 24⟩
def Fld.FAB_PLAN_STATUS_DORMANT : Fld := ⟨23, 16⟩
def Fld.FAB_PLAN_STATUS_ACTIVE : Fld := ⟨15, 8⟩
/-- Offset of FAB.ROPE_CFG (R357). -/
def Reg.FAB_ROPE_CFG : Nat := 0x580008
def Fld.FAB_ROPE_CFG_COMMIT_LEAD : Fld := ⟨63, 48⟩
def Fld.FAB_ROPE_CFG_ARM_HOLD : Fld := ⟨47, 32⟩
def Fld.FAB_ROPE_CFG_ARM_WAIT : Fld := ⟨15, 0⟩
/-- Offset of FAB.ROPE_STATUS (R357). -/
def Reg.FAB_ROPE_STATUS : Nat := 0x580010
def Fld.FAB_ROPE_STATUS_JOB_ID : Fld := ⟨63, 32⟩
def Fld.FAB_ROPE_STATUS_COMMITTED : Fld := ⟨1, 1⟩
def Fld.FAB_ROPE_STATUS_ARMED : Fld := ⟨0, 0⟩
/-- Offset of RED.BUF_BASE (R405). -/
def Reg.RED_BUF_BASE (e : Nat) : Nat := 0x600000 + 0x1000 * e
def Fld.RED_BUF_BASE_BASE : Fld := ⟨63, 12⟩
/-- Offset of RED.BUF_SIZE (R405). -/
def Reg.RED_BUF_SIZE (e : Nat) : Nat := 0x600008 + 0x1000 * e
def Fld.RED_BUF_SIZE_PAGES : Fld := ⟨31, 0⟩
/-- Offset of RED.JRNL_CFG (R405). -/
def Reg.RED_JRNL_CFG (e : Nat) : Nat := 0x600010 + 0x1000 * e
def Fld.RED_JRNL_CFG_ENTRIES : Fld := ⟨12, 0⟩
/-- Offset of RED.DLOG_BASE (R405). -/
def Reg.RED_DLOG_BASE (e : Nat) : Nat := 0x600018 + 0x1000 * e
def Fld.RED_DLOG_BASE_BASE : Fld := ⟨63, 12⟩
/-- Offset of RED.DLOG_CFG (R405). -/
def Reg.RED_DLOG_CFG (e : Nat) : Nat := 0x600020 + 0x1000 * e
def Fld.RED_DLOG_CFG_LOG2_STEPS : Fld := ⟨3, 0⟩
/-- Offset of RED.STATUS (R405). -/
def Reg.RED_STATUS (e : Nat) : Nat := 0x600028 + 0x1000 * e
def Fld.RED_STATUS_JOURNAL : Fld := ⟨47, 32⟩
def Fld.RED_STATUS_GRANTS : Fld := ⟨31, 16⟩
def Fld.RED_STATUS_HOME_SLOTS : Fld := ⟨6, 0⟩
/-- Offset of RED.CNT_A (R405). -/
def Reg.RED_CNT_A (e : Nat) : Nat := 0x600030 + 0x1000 * e
def Fld.RED_CNT_A_BOUND_EXT : Fld := ⟨63, 48⟩
def Fld.RED_CNT_A_RETRACTED : Fld := ⟨47, 32⟩
def Fld.RED_CNT_A_RESTARTS : Fld := ⟨31, 16⟩
/-- Offset of RED.CNT_B (R405). -/
def Reg.RED_CNT_B (e : Nat) : Nat := 0x600038 + 0x1000 * e
def Fld.RED_CNT_B_NONFINITE : Fld := ⟨63, 32⟩
def Fld.RED_CNT_B_BUSY : Fld := ⟨31, 16⟩
def Fld.RED_CNT_B_STALE : Fld := ⟨15, 0⟩
/-- Offset of RED.AUDIT (R405). -/
def Reg.RED_AUDIT (e : Nat) : Nat := 0x600040 + 0x1000 * e
def Fld.RED_AUDIT_ISSUED : Fld := ⟨63, 32⟩
def Fld.RED_AUDIT_RETURNED : Fld := ⟨31, 0⟩
/-- Offset of INTG.CFG (R452). -/
def Reg.INTG_CFG : Nat := 0x700000
def Fld.INTG_CFG_AUDIT_EN : Fld := ⟨1, 1⟩
def Fld.INTG_CFG_EARLY_COMPLETE : Fld := ⟨0, 0⟩
/-- Offset of INTG.STEEP (R452). -/
def Reg.INTG_STEEP : Nat := 0x700008
def Fld.INTG_STEEP_WINDOW_NS : Fld := ⟨31, 0⟩
/-- Offset of INTG.TICKET (R452). -/
def Reg.INTG_TICKET : Nat := 0x700010
def Fld.INTG_TICKET_SETTLED : Fld := ⟨31, 16⟩
def Fld.INTG_TICKET_NEXT : Fld := ⟨15, 0⟩
/-- Offset of INTG.CHECK_CNT (R452). -/
def Reg.INTG_CHECK_CNT : Nat := 0x700018
def Fld.INTG_CHECK_CNT_STRAINER_AT_FAULT : Fld := ⟨63, 48⟩
def Fld.INTG_CHECK_CNT_RESULT_AT_FAULT : Fld := ⟨47, 32⟩
def Fld.INTG_CHECK_CNT_BOTH : Fld := ⟨31, 16⟩
def Fld.INTG_CHECK_CNT_SKIPPED : Fld := ⟨15, 0⟩
/-- Offset of INTG.AUDIT_CNT (R452). -/
def Reg.INTG_AUDIT_CNT : Nat := 0x700020
def Fld.INTG_AUDIT_CNT_RUN : Fld := ⟨63, 32⟩
def Fld.INTG_AUDIT_CNT_MISMATCH : Fld := ⟨31, 16⟩
/-- Offset of INTG.TAG_CNT (R452). -/
def Reg.INTG_TAG_CNT : Nat := 0x700028
def Fld.INTG_TAG_CNT_MISMATCH : Fld := ⟨63, 32⟩
def Fld.INTG_TAG_CNT_OPEN_READS : Fld := ⟨31, 0⟩
/-- Offset of INTG.PENDING (R452). -/
def Reg.INTG_PENDING : Nat := 0x700030
def Fld.INTG_PENDING_HIGH_WATER : Fld := ⟨47, 32⟩
def Fld.INTG_PENDING_IN_USE : Fld := ⟨31, 0⟩
/-- Offset of INTG.STEEP_CNT (R452). -/
def Reg.INTG_STEEP_CNT : Nat := 0x700038
def Fld.INTG_STEEP_CNT_EXPIRED : Fld := ⟨63, 32⟩
def Fld.INTG_STEEP_CNT_FENCED : Fld := ⟨31, 0⟩
/-- Offset of INTG.SCAN_STATUS (R452). -/
def Reg.INTG_SCAN_STATUS : Nat := 0x700040
def Fld.INTG_SCAN_STATUS_FAILED : Fld := ⟨63, 48⟩
def Fld.INTG_SCAN_STATUS_PASSED : Fld := ⟨47, 32⟩
def Fld.INTG_SCAN_STATUS_RUNNING : Fld := ⟨8, 8⟩
def Fld.INTG_SCAN_STATUS_BLOCK : Fld := ⟨7, 0⟩
/-- Offset of INTG.STRAINER_FLAG (R452). -/
def Reg.INTG_STRAINER_FLAG (b : Nat) : Nat := 0x701000 + 0x8 * b
def Fld.INTG_STRAINER_FLAG_FLAGGED : Fld := ⟨63, 0⟩
/-- Offset of FLT.CFG (R482). -/
def Reg.FLT_CFG : Nat := 0x800000
def Fld.FLT_CFG_CE_LIMIT : Fld := ⟨15, 0⟩
/-- Offset of FLT.TIMER (R469). -/
def Reg.FLT_TIMER : Nat := 0x800008
def Fld.FLT_TIMER_CONG_US : Fld := ⟨63, 48⟩
def Fld.FLT_TIMER_MODULE_MS : Fld := ⟨47, 32⟩
def Fld.FLT_TIMER_FABRIC_MS : Fld := ⟨31, 16⟩
def Fld.FLT_TIMER_REGION_MS : Fld := ⟨15, 0⟩
/-- Offset of FLT.HOLD_CAP (R469). -/
def Reg.FLT_HOLD_CAP : Nat := 0x800010
def Fld.FLT_HOLD_CAP_MODULE_MS : Fld := ⟨47, 32⟩
def Fld.FLT_HOLD_CAP_FABRIC_MS : Fld := ⟨31, 16⟩
def Fld.FLT_HOLD_CAP_REGION_MS : Fld := ⟨15, 0⟩
/-- Offset of FLT.SEV_CNT (R482). -/
def Reg.FLT_SEV_CNT : Nat := 0x800018
def Fld.FLT_SEV_CNT_FATAL : Fld := ⟨63, 48⟩
def Fld.FLT_SEV_CNT_UNCONTAINED : Fld := ⟨47, 32⟩
def Fld.FLT_SEV_CNT_CONTAINED : Fld := ⟨31, 16⟩
def Fld.FLT_SEV_CNT_CORRECTED : Fld := ⟨15, 0⟩
/-- Offset of FLT.CONG_CNT (R482). -/
def Reg.FLT_CONG_CNT : Nat := 0x800020
def Fld.FLT_CONG_CNT_MODULE : Fld := ⟨63, 48⟩
def Fld.FLT_CONG_CNT_REGION : Fld := ⟨47, 32⟩
def Fld.FLT_CONG_CNT_BLOCK : Fld := ⟨31, 16⟩
def Fld.FLT_CONG_CNT_CELL : Fld := ⟨15, 0⟩
/-- Offset of FLT.SUPPRESSED (R482). -/
def Reg.FLT_SUPPRESSED : Nat := 0x800028
def Fld.FLT_SUPPRESSED_COUNT : Fld := ⟨31, 0⟩
/-- Offset of FLT.CLASS_CNT (R482). -/
def Reg.FLT_CLASS_CNT (c : Nat) : Nat := 0x800100 + 0x8 * c
def Fld.FLT_CLASS_CNT_COUNT : Fld := ⟨63, 32⟩
def Fld.FLT_CLASS_CNT_LAST_NS : Fld := ⟨31, 0⟩
/-- Offset of FLT.AUDIT (R472). -/
def Reg.FLT_AUDIT (p : Nat) : Nat := 0x801000 + 0x8 * p
def Fld.FLT_AUDIT_ISSUED : Fld := ⟨63, 32⟩
def Fld.FLT_AUDIT_RETURNED : Fld := ⟨31, 0⟩
/-- Offset of CONT.CADDY_BASE (R552). -/
def Reg.CONT_CADDY_BASE : Nat := 0x900000
def Fld.CONT_CADDY_BASE_BASE : Fld := ⟨63, 12⟩
/-- Offset of CONT.BUDDY_BASE (R552). -/
def Reg.CONT_BUDDY_BASE : Nat := 0x900008
def Fld.CONT_BUDDY_BASE_BASE : Fld := ⟨63, 12⟩
/-- Offset of CONT.BUDDY (R552). -/
def Reg.CONT_BUDDY : Nat := 0x900010
def Fld.CONT_BUDDY_SRC1 : Fld := ⟨63, 48⟩
def Fld.CONT_BUDDY_SRC0 : Fld := ⟨47, 32⟩
def Fld.CONT_BUDDY_BUDDY1 : Fld := ⟨31, 16⟩
def Fld.CONT_BUDDY_BUDDY0 : Fld := ⟨15, 0⟩
/-- Offset of CONT.CADDY_CFG (R552). -/
def Reg.CONT_CADDY_CFG : Nat := 0x900018
def Fld.CONT_CADDY_CFG_COPIES : Fld := ⟨17, 16⟩
def Fld.CONT_CADDY_CFG_BUDDY_WAIT_US : Fld := ⟨15, 0⟩
/-- Offset of CONT.CADDY_STATUS (R552). -/
def Reg.CONT_CADDY_STATUS : Nat := 0x900020
def Fld.CONT_CADDY_STATUS_LAST_STEP : Fld := ⟨63, 32⟩
def Fld.CONT_CADDY_STATUS_MISMATCH : Fld := ⟨31, 16⟩
def Fld.CONT_CADDY_STATUS_BUDDY_MISS : Fld := ⟨15, 0⟩
/-- Offset of CONT.SPREAD_BASE (R552). -/
def Reg.CONT_SPREAD_BASE : Nat := 0x900028
def Fld.CONT_SPREAD_BASE_BASE : Fld := ⟨63, 12⟩
/-- Offset of CONT.SPREAD_CFG (R552). -/
def Reg.CONT_SPREAD_CFG : Nat := 0x900030
def Fld.CONT_SPREAD_CFG_VERSION : Fld := ⟨31, 16⟩
def Fld.CONT_SPREAD_CFG_PLANS : Fld := ⟨15, 0⟩
/-- Offset of CONT.SPREAD_STATUS (R552). -/
def Reg.CONT_SPREAD_STATUS : Nat := 0x900038
def Fld.CONT_SPREAD_STATUS_APPLIED : Fld := ⟨31, 16⟩
def Fld.CONT_SPREAD_STATUS_LOST_COUNT : Fld := ⟨3, 0⟩
/-- Offset of CONT.LOST (R552). -/
def Reg.CONT_LOST (i : Nat) : Nat := 0x900040 + 0x8 * i
def Fld.CONT_LOST_VALID : Fld := ⟨16, 16⟩
def Fld.CONT_LOST_CHIP : Fld := ⟨15, 0⟩
/-- Offset of CONT.PIECE_BASE (R552). -/
def Reg.CONT_PIECE_BASE : Nat := 0x900080
def Fld.CONT_PIECE_BASE_BASE : Fld := ⟨63, 16⟩
/-- Offset of CONT.PIECE_CFG (R552). -/
def Reg.CONT_PIECE_CFG : Nat := 0x900088
def Fld.CONT_PIECE_CFG_AREA_MIB : Fld := ⟨31, 0⟩
/-- Offset of CONT.PIECE_OWNER (R552). -/
def Reg.CONT_PIECE_OWNER (a : Nat) : Nat := 0x900090 + 0x8 * a
def Fld.CONT_PIECE_OWNER_VALID : Fld := ⟨16, 16⟩
def Fld.CONT_PIECE_OWNER_CHIP : Fld := ⟨15, 0⟩
/-- Offset of CONT.HOLDERS_LO (R552). -/
def Reg.CONT_HOLDERS_LO : Nat := 0x900110
def Fld.CONT_HOLDERS_LO_H : Fld := ⟨63, 0⟩
/-- Offset of CONT.HOLDERS_MID (R552). -/
def Reg.CONT_HOLDERS_MID : Nat := 0x900118
def Fld.CONT_HOLDERS_MID_H : Fld := ⟨63, 0⟩
/-- Offset of CONT.HOLDERS_HI (R552). -/
def Reg.CONT_HOLDERS_HI : Nat := 0x900120
def Fld.CONT_HOLDERS_HI_H : Fld := ⟨31, 0⟩
/-- Offset of CONT.REBUILD_STATUS (R552). -/
def Reg.CONT_REBUILD_STATUS : Nat := 0x900128
def Fld.CONT_REBUILD_STATUS_STRIPES : Fld := ⟨63, 32⟩
def Fld.CONT_REBUILD_STATUS_RECONSTRUCTED : Fld := ⟨31, 0⟩
/-- Offset of CKP.CFG (R597). -/
def Reg.CKP_CFG : Nat := 0xA00000
def Fld.CKP_CFG_EARLY_LEAD : Fld := ⟨23, 8⟩
def Fld.CKP_CFG_RATE_PCT : Fld := ⟨7, 0⟩
/-- Offset of CKP.SUMP_BASE (R597). -/
def Reg.CKP_SUMP_BASE : Nat := 0xA00008
def Fld.CKP_SUMP_BASE_BASE : Fld := ⟨35, 12⟩
/-- Offset of CKP.SUMP_CFG (R597). -/
def Reg.CKP_SUMP_CFG : Nat := 0xA00010
def Fld.CKP_SUMP_CFG_SHADOW_MIB : Fld := ⟨63, 32⟩
def Fld.CKP_SUMP_CFG_DELTA_MIB : Fld := ⟨31, 0⟩
/-- Offset of CKP.MANIFEST_BASE (R597). -/
def Reg.CKP_MANIFEST_BASE : Nat := 0xA00018
def Fld.CKP_MANIFEST_BASE_BASE : Fld := ⟨63, 12⟩
/-- Offset of CKP.HOST_BASE (R597). -/
def Reg.CKP_HOST_BASE : Nat := 0xA00020
def Fld.CKP_HOST_BASE_BASE : Fld := ⟨63, 12⟩
/-- Offset of CKP.HOST_CFG (R597). -/
def Reg.CKP_HOST_CFG : Nat := 0xA00028
def Fld.CKP_HOST_CFG_LOC : Fld := ⟨33, 33⟩
def Fld.CKP_HOST_CFG_EN : Fld := ⟨32, 32⟩
def Fld.CKP_HOST_CFG_SLOT_MIB : Fld := ⟨31, 0⟩
/-- Offset of CKP.CUT_AT (R587). -/
def Reg.CKP_CUT_AT : Nat := 0xA00030
def Fld.CKP_CUT_AT_VALID : Fld := ⟨32, 32⟩
def Fld.CKP_CUT_AT_STEP : Fld := ⟨31, 0⟩
/-- Offset of CKP.STEPS (R597). -/
def Reg.CKP_STEPS : Nat := 0xA00038
def Fld.CKP_STEPS_SHADOW_STEP : Fld := ⟨63, 32⟩
def Fld.CKP_STEPS_DELTA_STEP : Fld := ⟨31, 0⟩
/-- Offset of CKP.STATUS (R597). -/
def Reg.CKP_STATUS : Nat := 0xA00040
def Fld.CKP_STATUS_LAST_CUT : Fld := ⟨63, 32⟩
def Fld.CKP_STATUS_FULL_CUTS : Fld := ⟨31, 16⟩
def Fld.CKP_STATUS_NONFINITE : Fld := ⟨15, 8⟩
def Fld.CKP_STATUS_FULL_NEXT : Fld := ⟨4, 4⟩
def Fld.CKP_STATUS_PHASE : Fld := ⟨3, 1⟩
def Fld.CKP_STATUS_SHADOW_VALID : Fld := ⟨0, 0⟩
/-- Offset of CKP.DRAIN_STATUS (R597). -/
def Reg.CKP_DRAIN_STATUS : Nat := 0xA00048
def Fld.CKP_DRAIN_STATUS_STRIPES : Fld := ⟨63, 32⟩
def Fld.CKP_DRAIN_STATUS_HOST_SKIPPED : Fld := ⟨31, 16⟩
def Fld.CKP_DRAIN_STATUS_MISSED : Fld := ⟨15, 0⟩
/-- Offset of CKP.RESTORE_STATUS (R597). -/
def Reg.CKP_RESTORE_STATUS : Nat := 0xA00050
def Fld.CKP_RESTORE_STATUS_STEP : Fld := ⟨63, 32⟩
def Fld.CKP_RESTORE_STATUS_MIXED : Fld := ⟨31, 16⟩
def Fld.CKP_RESTORE_STATUS_RESTORES : Fld := ⟨15, 0⟩
/-- Offset of CKP.RANGE_A (R553). -/
def Reg.CKP_RANGE_A (i : Nat) : Nat := 0xA00100 + 0x10 * i
def Fld.CKP_RANGE_A_BASE : Fld := ⟨47, 12⟩
def Fld.CKP_RANGE_A_NARROW : Fld := ⟨2, 2⟩
def Fld.CKP_RANGE_A_KIND : Fld := ⟨1, 0⟩
/-- Offset of CKP.RANGE_B (R553). -/
def Reg.CKP_RANGE_B (i : Nat) : Nat := 0xA00108 + 0x10 * i
def Fld.CKP_RANGE_B_ID_BASE : Fld := ⟨55, 40⟩
def Fld.CKP_RANGE_B_FMT : Fld := ⟨39, 32⟩
def Fld.CKP_RANGE_B_PAGES : Fld := ⟨31, 0⟩
/-- Offset of TRF.ROLE (R632). -/
def Reg.TRF_ROLE : Nat := 0xB00000
def Fld.TRF_ROLE_FAILOVERS : Fld := ⟨63, 48⟩
def Fld.TRF_ROLE_LAG_US : Fld := ⟨47, 32⟩
def Fld.TRF_ROLE_PRIMARY : Fld := ⟨8, 8⟩
def Fld.TRF_ROLE_T1_ROLE : Fld := ⟨6, 4⟩
def Fld.TRF_ROLE_T0_ROLE : Fld := ⟨2, 0⟩
/-- Offset of TRF.ROLE_CMD (R613). -/
def Reg.TRF_ROLE_CMD : Nat := 0xB00008
def Fld.TRF_ROLE_CMD_SWAP : Fld := ⟨0, 0⟩
/-- Offset of TRF.BOOT (R632). -/
def Reg.TRF_BOOT (d : Nat) : Nat := 0xB00010 + 0x8 * d
def Fld.TRF_BOOT_VERSION : Fld := ⟨63, 32⟩
def Fld.TRF_BOOT_SVN : Fld := ⟨31, 24⟩
def Fld.TRF_BOOT_FUSE_SVN : Fld := ⟨23, 16⟩
def Fld.TRF_BOOT_SLOT : Fld := ⟨1, 1⟩
def Fld.TRF_BOOT_BOOT_ALT : Fld := ⟨0, 0⟩
/-- Offset of TRF.ARB (R606). -/
def Reg.TRF_ARB : Nat := 0xB00020
def Fld.TRF_ARB_DIE : Fld := ⟨8, 8⟩
def Fld.TRF_ARB_SVN : Fld := ⟨7, 0⟩
/-- Offset of TRF.MGMT_CFG (R632). -/
def Reg.TRF_MGMT_CFG : Nat := 0xB00028
def Fld.TRF_MGMT_CFG_MAC_EN : Fld := ⟨32, 32⟩
def Fld.TRF_MGMT_CFG_UDP_PORT : Fld := ⟨15, 0⟩
/-- Offset of TRF.FLEET_ADDR_HI (R632). -/
def Reg.TRF_FLEET_ADDR_HI : Nat := 0xB00030
def Fld.TRF_FLEET_ADDR_HI_ADDR : Fld := ⟨63, 0⟩
/-- Offset of TRF.FLEET_ADDR_LO (R632). -/
def Reg.TRF_FLEET_ADDR_LO : Nat := 0xB00038
def Fld.TRF_FLEET_ADDR_LO_ADDR : Fld := ⟨63, 0⟩
/-- Offset of TRF.TMP_STATUS (R632). -/
def Reg.TRF_TMP_STATUS : Nat := 0xB00040
def Fld.TRF_TMP_STATUS_MAC_FAIL : Fld := ⟨63, 48⟩
def Fld.TRF_TMP_STATUS_UNACKED : Fld := ⟨47, 32⟩
def Fld.TRF_TMP_STATUS_REQUESTS : Fld := ⟨31, 0⟩
/-- Offset of TRF.RISK_WEIGHT (R623). -/
def Reg.TRF_RISK_WEIGHT : Nat := 0xB00100
def Fld.TRF_RISK_WEIGHT_RETRAIN : Fld := ⟨23, 16⟩
def Fld.TRF_RISK_WEIGHT_RETRY : Fld := ⟨15, 8⟩
def Fld.TRF_RISK_WEIGHT_CE : Fld := ⟨7, 0⟩
/-- Offset of TRF.RISK_CFG (R623). -/
def Reg.TRF_RISK_CFG : Nat := 0xB00108
def Fld.TRF_RISK_CFG_BUCKET_MIN : Fld := ⟨7, 0⟩
/-- Offset of TRF.RISK_THRESH (R624). -/
def Reg.TRF_RISK_THRESH : Nat := 0xB00110
def Fld.TRF_RISK_THRESH_RETIRE : Fld := ⟨59, 40⟩
def Fld.TRF_RISK_THRESH_WARN : Fld := ⟨39, 20⟩
def Fld.TRF_RISK_THRESH_WATCH : Fld := ⟨19, 0⟩
/-- Offset of TRF.RISK_STATUS (R632). -/
def Reg.TRF_RISK_STATUS : Nat := 0xB00118
def Fld.TRF_RISK_STATUS_RETIRE : Fld := ⟨63, 48⟩
def Fld.TRF_RISK_STATUS_WARN : Fld := ⟨47, 32⟩
def Fld.TRF_RISK_STATUS_WATCH : Fld := ⟨31, 16⟩
/-- Offset of TRF.RISK_SCORE (R632). -/
def Reg.TRF_RISK_SCORE (i : Nat) : Nat := 0xB00200 + 0x8 * i
def Fld.TRF_RISK_SCORE_LEVEL : Fld := ⟨33, 32⟩
def Fld.TRF_RISK_SCORE_SCORE : Fld := ⟨31, 0⟩
/-- Offset of EVR.HEAD_SEQ (R663). -/
def Reg.EVR_HEAD_SEQ : Nat := 0xC00000
def Fld.EVR_HEAD_SEQ_SEQ : Fld := ⟨31, 0⟩
/-- Offset of EVR.TAIL_SEQ (R663). -/
def Reg.EVR_TAIL_SEQ : Nat := 0xC00008
def Fld.EVR_TAIL_SEQ_SEQ : Fld := ⟨31, 0⟩
/-- Offset of EVR.DROPPED (R663). -/
def Reg.EVR_DROPPED : Nat := 0xC00010
def Fld.EVR_DROPPED_FLASH : Fld := ⟨63, 32⟩
def Fld.EVR_DROPPED_SRAM : Fld := ⟨31, 0⟩
/-- Offset of EVR.FLASH_STATUS (R663). -/
def Reg.EVR_FLASH_STATUS : Nat := 0xC00018
def Fld.EVR_FLASH_STATUS_COUNT : Fld := ⟨63, 32⟩
def Fld.EVR_FLASH_STATUS_ERASING : Fld := ⟨1, 1⟩
def Fld.EVR_FLASH_STATUS_FULL : Fld := ⟨0, 0⟩
/-- Offset of EVR.LIFE (R663). -/
def Reg.EVR_LIFE : Nat := 0xC00020
def Fld.EVR_LIFE_POWER_CYCLES : Fld := ⟨63, 32⟩
def Fld.EVR_LIFE_OP_HOURS : Fld := ⟨31, 0⟩
/-- Offset of EVR.CTL (R663). -/
def Reg.EVR_CTL : Nat := 0xC00028
def Fld.EVR_CTL_CLEAR_FLASH : Fld := ⟨0, 0⟩
/-- Offset of EVR.POP (R663). -/
def Reg.EVR_POP (i : Nat) : Nat := 0xC80000 + 0x8 * i
def Fld.EVR_POP_RELEASED : Fld := ⟨63, 32⟩
def Fld.EVR_POP_TAIL_SEQ : Fld := ⟨31, 0⟩
/-- Offset of TIME.NOW (R664). -/
def Reg.TIME_NOW : Nat := 0xD00000
def Fld.TIME_NOW_ERA : Fld := ⟨63, 32⟩
def Fld.TIME_NOW_TIME_NS : Fld := ⟨31, 0⟩
/-- Offset of TIME.COUNT (R664). -/
def Reg.TIME_COUNT : Nat := 0xD00008
def Fld.TIME_COUNT_COUNT : Fld := ⟨63, 0⟩
/-- Offset of TIME.OFFSET (R664). -/
def Reg.TIME_OFFSET : Nat := 0xD00010
def Fld.TIME_OFFSET_OFFSET : Fld := ⟨63, 0⟩
/-- Offset of TIME.RATE (R664). -/
def Reg.TIME_RATE : Nat := 0xD00018
def Fld.TIME_RATE_RATE_PPB : Fld := ⟨31, 0⟩
/-- Offset of TIME.ADJ (R664). -/
def Reg.TIME_ADJ : Nat := 0xD00020
def Fld.TIME_ADJ_D : Fld := ⟨63, 0⟩
/-- Offset of TIME.STATUS (R664). -/
def Reg.TIME_STATUS : Nat := 0xD00028
def Fld.TIME_STATUS_LAST_OFFSET : Fld := ⟨63, 32⟩
def Fld.TIME_STATUS_HOLDOVERS : Fld := ⟨31, 16⟩
def Fld.TIME_STATUS_SYNC_ERR : Fld := ⟨6, 6⟩
def Fld.TIME_STATUS_REF_LOST : Fld := ⟨5, 5⟩
def Fld.TIME_STATUS_SLEWING : Fld := ⟨4, 4⟩
def Fld.TIME_STATUS_STATE : Fld := ⟨3, 0⟩
/-- Offset of TIME.CFG (R664). -/
def Reg.TIME_CFG : Nat := 0xD00030
def Fld.TIME_CFG_SYNC_TOL_NS : Fld := ⟨63, 48⟩
def Fld.TIME_CFG_LOCK_NS : Fld := ⟨47, 32⟩
def Fld.TIME_CFG_DOMAIN : Fld := ⟨31, 24⟩
def Fld.TIME_CFG_SYNC_EN : Fld := ⟨1, 1⟩
def Fld.TIME_CFG_PTP_EN : Fld := ⟨0, 0⟩
/-- Offset of TIME.GM_ID (R664). -/
def Reg.TIME_GM_ID : Nat := 0xD00038
def Fld.TIME_GM_ID_CLOCK_ID : Fld := ⟨63, 0⟩
/-- Offset of TIME.SYNC_STAMP (R664). -/
def Reg.TIME_SYNC_STAMP : Nat := 0xD00040
def Fld.TIME_SYNC_STAMP_ERA : Fld := ⟨63, 32⟩
def Fld.TIME_SYNC_STAMP_TIME_NS : Fld := ⟨31, 0⟩
/-- Offset of OBS.WHISTLE_CFG (R696). -/
def Reg.OBS_WHISTLE_CFG : Nat := 0xE00000
def Fld.OBS_WHISTLE_CFG_FAULT_ACTION : Fld := ⟨23, 20⟩
def Fld.OBS_WHISTLE_CFG_FAULT_SEV : Fld := ⟨18, 16⟩
def Fld.OBS_WHISTLE_CFG_PIN_ACTION : Fld := ⟨11, 8⟩
def Fld.OBS_WHISTLE_CFG_REMOTE_EN : Fld := ⟨1, 1⟩
def Fld.OBS_WHISTLE_CFG_PIN_EN : Fld := ⟨0, 0⟩
/-- Offset of OBS.WHISTLE (R696). -/
def Reg.OBS_WHISTLE : Nat := 0xE00008
def Fld.OBS_WHISTLE_AT : Fld := ⟨63, 32⟩
def Fld.OBS_WHISTLE_IMMEDIATE : Fld := ⟨4, 4⟩
def Fld.OBS_WHISTLE_ACTION : Fld := ⟨3, 0⟩
/-- Offset of OBS.WHISTLE_SEND (R696). -/
def Reg.OBS_WHISTLE_SEND : Nat := 0xE00010
def Fld.OBS_WHISTLE_SEND_DST : Fld := ⟨63, 48⟩
def Fld.OBS_WHISTLE_SEND_ACTION : Fld := ⟨47, 44⟩
def Fld.OBS_WHISTLE_SEND_AT : Fld := ⟨31, 0⟩
/-- Offset of OBS.WHISTLE_STATUS (R696). -/
def Reg.OBS_WHISTLE_STATUS : Nat := 0xE00018
def Fld.OBS_WHISTLE_STATUS_REFUSED : Fld := ⟨63, 48⟩
def Fld.OBS_WHISTLE_STATUS_REMOTE_DROPPED : Fld := ⟨47, 32⟩
def Fld.OBS_WHISTLE_STATUS_HELD : Fld := ⟨4, 4⟩
def Fld.OBS_WHISTLE_STATUS_PENDING : Fld := ⟨3, 0⟩
/-- Offset of OBS.TRACE_CFG (R696). -/
def Reg.OBS_TRACE_CFG : Nat := 0xE00020
def Fld.OBS_TRACE_CFG_TRIG_FAULT : Fld := ⟨33, 33⟩
def Fld.OBS_TRACE_CFG_TRIG_PIN : Fld := ⟨32, 32⟩
def Fld.OBS_TRACE_CFG_POST : Fld := ⟨31, 16⟩
def Fld.OBS_TRACE_CFG_PIN_BLOCK : Fld := ⟨15, 8⟩
def Fld.OBS_TRACE_CFG_KCORE : Fld := ⟨4, 4⟩
def Fld.OBS_TRACE_CFG_SINK : Fld := ⟨3, 2⟩
def Fld.OBS_TRACE_CFG_MODE : Fld := ⟨1, 0⟩
/-- Offset of OBS.TRACE_BASE (R696). -/
def Reg.OBS_TRACE_BASE : Nat := 0xE00028
def Fld.OBS_TRACE_BASE_BASE : Fld := ⟨63, 12⟩
def Fld.OBS_TRACE_BASE_LOG2_MIB : Fld := ⟨3, 0⟩
/-- Offset of OBS.TRACE_WIN (R696). -/
def Reg.OBS_TRACE_WIN : Nat := 0xE00030
def Fld.OBS_TRACE_WIN_BLOCK : Fld := ⟨7, 0⟩
/-- Offset of OBS.DBG_CFG (R696). -/
def Reg.OBS_DBG_CFG : Nat := 0xE00038
def Fld.OBS_DBG_CFG_TOUT_TRACE : Fld := ⟨50, 50⟩
def Fld.OBS_DBG_CFG_TOUT_FAULT : Fld := ⟨49, 49⟩
def Fld.OBS_DBG_CFG_TOUT_WHISTLE : Fld := ⟨48, 48⟩
def Fld.OBS_DBG_CFG_DECIM : Fld := ⟨47, 40⟩
def Fld.OBS_DBG_CFG_DIV : Fld := ⟨39, 32⟩
def Fld.OBS_DBG_CFG_GROUP : Fld := ⟨31, 16⟩
def Fld.OBS_DBG_CFG_DIE : Fld := ⟨15, 8⟩
def Fld.OBS_DBG_CFG_MODE : Fld := ⟨1, 0⟩
/-- Offset of OBS.JTAG_CFG (R696). -/
def Reg.OBS_JTAG_CFG : Nat := 0xE00040
def Fld.OBS_JTAG_CFG_IJTAG_BUSY : Fld := ⟨1, 1⟩
def Fld.OBS_JTAG_CFG_UNLOCK : Fld := ⟨0, 0⟩
/-- Offset of OBS.TRACE_PTR (R696). -/
def Reg.OBS_TRACE_PTR (b : Nat) : Nat := 0xE00100 + 0x8 * b
def Fld.OBS_TRACE_PTR_LOST : Fld := ⟨63, 48⟩
def Fld.OBS_TRACE_PTR_WRAPPED : Fld := ⟨33, 33⟩
def Fld.OBS_TRACE_PTR_STOPPED : Fld := ⟨32, 32⟩
def Fld.OBS_TRACE_PTR_WPTR : Fld := ⟨31, 0⟩
/-- Offset of OBS.EVT_SEL (R696). -/
def Reg.OBS_EVT_SEL (d : Nat) (n : Nat) : Nat := 0xE10000 + 0x400 * d + 0x10 * n
def Fld.OBS_EVT_SEL_QUAL : Fld := ⟨31, 16⟩
def Fld.OBS_EVT_SEL_EXCL_CHECK : Fld := ⟨8, 8⟩
def Fld.OBS_EVT_SEL_EVENT : Fld := ⟨7, 0⟩
/-- Offset of OBS.FILTER (R696). -/
def Reg.OBS_FILTER (d : Nat) (n : Nat) : Nat := 0xE10008 + 0x400 * d + 0x10 * n
def Fld.OBS_FILTER_OP_HI : Fld := ⟨63, 48⟩
def Fld.OBS_FILTER_OP_LO : Fld := ⟨47, 32⟩
def Fld.OBS_FILTER_LAYER_HI : Fld := ⟨31, 16⟩
def Fld.OBS_FILTER_LAYER_LO : Fld := ⟨15, 0⟩
/-- Offset of OBS.SNAP (R696). -/
def Reg.OBS_SNAP (d : Nat) (n : Nat) : Nat := 0xE40000 + 0x200 * d + 0x8 * n
def Fld.OBS_SNAP_COUNT : Fld := ⟨63, 0⟩
/-- Offset of OBS.SNAP_INFO (R696). -/
def Reg.OBS_SNAP_INFO : Nat := 0xE7F000
def Fld.OBS_SNAP_INFO_SEQ : Fld := ⟨63, 32⟩
def Fld.OBS_SNAP_INFO_TIME_NS : Fld := ⟨31, 0⟩
/-- Offset of OBS.SNAP_ERA (R696). -/
def Reg.OBS_SNAP_ERA : Nat := 0xE7F008
def Fld.OBS_SNAP_ERA_ERA : Fld := ⟨63, 32⟩
def Fld.OBS_SNAP_ERA_CAPTURING : Fld := ⟨4, 4⟩
def Fld.OBS_SNAP_ERA_ACTION : Fld := ⟨3, 0⟩
/-- Offset of OBS.SNAP_MISS_LO (R696). -/
def Reg.OBS_SNAP_MISS_LO : Nat := 0xE7F010
def Fld.OBS_SNAP_MISS_LO_DIES : Fld := ⟨63, 0⟩
/-- Offset of OBS.SNAP_MISS_HI (R696). -/
def Reg.OBS_SNAP_MISS_HI : Nat := 0xE7F018
def Fld.OBS_SNAP_MISS_HI_DIES : Fld := ⟨15, 0⟩
/-- Offset of PWR.FEED_STATUS (R633). -/
def Reg.PWR_FEED_STATUS : Nat := 0xF00000
def Fld.PWR_FEED_STATUS_LAST_SWITCH_NS : Fld := ⟨63, 32⟩
def Fld.PWR_FEED_STATUS_SWITCHES : Fld := ⟨31, 16⟩
def Fld.PWR_FEED_STATUS_ACTIVE : Fld := ⟨7, 7⟩
def Fld.PWR_FEED_STATUS_STATE_B : Fld := ⟨6, 4⟩
def Fld.PWR_FEED_STATUS_STATE_A : Fld := ⟨2, 0⟩
/-- Offset of PWR.FEED_MEAS (R633). -/
def Reg.PWR_FEED_MEAS : Nat := 0xF00008
def Fld.PWR_FEED_MEAS_VOLT_A : Fld := ⟨63, 48⟩
def Fld.PWR_FEED_MEAS_VOLT_B : Fld := ⟨47, 32⟩
def Fld.PWR_FEED_MEAS_CURR_A : Fld := ⟨31, 16⟩
def Fld.PWR_FEED_MEAS_CURR_B : Fld := ⟨15, 0⟩
/-- Offset of PWR.FEED_CHECK (R633). -/
def Reg.PWR_FEED_CHECK : Nat := 0xF00010
def Fld.PWR_FEED_CHECK_QUAL_FAILS : Fld := ⟨31, 16⟩
def Fld.PWR_FEED_CHECK_SELFTEST_B : Fld := ⟨1, 1⟩
def Fld.PWR_FEED_CHECK_SELFTEST_A : Fld := ⟨0, 0⟩
/-- Offset of PWR.STATE (R728). -/
def Reg.PWR_STATE : Nat := 0xF00100
def Fld.PWR_STATE_CHANGING : Fld := ⟨3, 3⟩
def Fld.PWR_STATE_STATE : Fld := ⟨2, 0⟩
/-- Offset of PWR.DVFS (R728). -/
def Reg.PWR_DVFS : Nat := 0xF00108
def Fld.PWR_DVFS_CAP_MHZ : Fld := ⟨41, 32⟩
def Fld.PWR_DVFS_EFF_MHZ : Fld := ⟨25, 16⟩
def Fld.PWR_DVFS_TARGET_MHZ : Fld := ⟨9, 0⟩
/-- Offset of PWR.START_CFG (R728). -/
def Reg.PWR_START_CFG : Nat := 0xF00110
def Fld.PWR_START_CFG_SCAN : Fld := ⟨32, 32⟩
def Fld.PWR_START_CFG_LOCK_WAIT_S : Fld := ⟨31, 24⟩
def Fld.PWR_START_CFG_ASSIGN_WAIT_S : Fld := ⟨23, 16⟩
def Fld.PWR_START_CFG_ENUM_WAIT_S : Fld := ⟨15, 8⟩
/-- Offset of PWR.START_STATUS (R728). -/
def Reg.PWR_START_STATUS : Nat := 0xF00118
def Fld.PWR_START_STATUS_ELAPSED_MS : Fld := ⟨63, 32⟩
def Fld.PWR_START_STATUS_SCAN_FAILED : Fld := ⟨31, 16⟩
def Fld.PWR_START_STATUS_STEP : Fld := ⟨15, 12⟩
def Fld.PWR_START_STATUS_READY : Fld := ⟨7, 7⟩
def Fld.PWR_START_STATUS_NO_CHIP : Fld := ⟨6, 6⟩
def Fld.PWR_START_STATUS_NO_TIME : Fld := ⟨5, 5⟩
def Fld.PWR_START_STATUS_NO_SCAN : Fld := ⟨4, 4⟩
def Fld.PWR_START_STATUS_PCIE_DOWN : Fld := ⟨3, 3⟩
/-- Offset of PWR.THERM_CFG (R728). -/
def Reg.PWR_THERM_CFG : Nat := 0xF00120
def Fld.PWR_THERM_CFG_WARN_C : Fld := ⟨7, 0⟩
/-- Offset of PWR.THERM_STATUS (R728). -/
def Reg.PWR_THERM_STATUS : Nat := 0xF00128
def Fld.PWR_THERM_STATUS_WARNS : Fld := ⟨63, 48⟩
def Fld.PWR_THERM_STATUS_TRIPS : Fld := ⟨47, 40⟩
def Fld.PWR_THERM_STATUS_COOLANT_C : Fld := ⟨39, 32⟩
def Fld.PWR_THERM_STATUS_MAX_C : Fld := ⟨31, 24⟩
def Fld.PWR_THERM_STATUS_HOT_DIE : Fld := ⟨23, 16⟩
def Fld.PWR_THERM_STATUS_LOST_STACKS : Fld := ⟨15, 0⟩

/-- The registers of the MOD block. -/
def regsMOD : List RegRow := [
  ⟨"MOD.ID", 0x0, 0x1, 1, 0x1, 1, 0x5A31600C10A0100#64, none, false, [(⟨63, 48⟩, .ro), (⟨47, 32⟩, .ro), (⟨31, 24⟩, .ro), (⟨23, 16⟩, .ro), (⟨15, 8⟩, .ro)]⟩,
  ⟨"MOD.CAP", 0x8, 0x1, 1, 0x1, 1, 0x104030084040183F#64, none, false, [(⟨63, 56⟩, .ro), (⟨55, 48⟩, .ro), (⟨47, 40⟩, .ro), (⟨39, 32⟩, .ro), (⟨31, 24⟩, .ro), (⟨23, 16⟩, .ro), (⟨15, 8⟩, .ro), (⟨7, 0⟩, .ro)]⟩,
  ⟨"MOD.CHIP_NUMBER", 0x10, 0x1, 1, 0x1, 1, 0x0#64, none, false, [(⟨16, 16⟩, .ro), (⟨15, 9⟩, .ro), (⟨8, 0⟩, .ro)]⟩,
  ⟨"MOD.SERIAL", 0x18, 0x1, 1, 0x1, 1, Config.serialNumber, none, false, [(⟨63, 0⟩, .ro)]⟩,
  ⟨"MOD.AP_WIN", 0x100, 0x8, 16, 0x1, 1, 0x0#64, none, false, [(⟨63, 30⟩, .rw), (⟨0, 0⟩, .rw)]⟩,
  ⟨"MOD.HANG_CFG", 0x200, 0x1, 1, 0x1, 1, 0x10001#64, some (0x50, 0), false, [(⟨16, 16⟩, .rw), (⟨15, 0⟩, .rw)]⟩,
  ⟨"MOD.HANG_STATUS", 0x208, 0x1, 1, 0x1, 1, 0xFFFF0000FF00#64, none, false, [(⟨63, 48⟩, .ro), (⟨47, 40⟩, .ro), (⟨39, 32⟩, .ro), (⟨31, 28⟩, .ro), (⟨25, 16⟩, .ro), (⟨15, 8⟩, .ro), (⟨0, 0⟩, .rw1c)]⟩,
  ⟨"MOD.HANG_SEQ", 0x210, 0x1, 1, 0x1, 1, 0xFFFFFFFF#64, none, false, [(⟨63, 32⟩, .ro), (⟨31, 16⟩, .ro), (⟨15, 0⟩, .ro)]⟩,
  ⟨"MOD.LANTERN_MISS", 0x218, 0x1, 1, 0x1, 1, 0x0#64, none, false, [(⟨63, 0⟩, .rw1c)]⟩,
  ⟨"MOD.RESET_CFG", 0x220, 0x1, 1, 0x1, 1, 0x86#64, some (0x50, 0), false, [(⟨7, 7⟩, .rw), (⟨2, 2⟩, .rw), (⟨1, 1⟩, .rw), (⟨0, 0⟩, .rw)]⟩,
  ⟨"MOD.RESET_CMD", 0x228, 0x1, 1, 0x1, 1, 0x0#64, none, true, [(⟨7, 7⟩, .wo), (⟨1, 0⟩, .wo)]⟩,
  ⟨"MOD.RESET_STATUS", 0x230, 0x1, 1, 0x1, 1, 0x0#64, none, false, [(⟨63, 48⟩, .ro), (⟨47, 32⟩, .ro), (⟨31, 24⟩, .ro), (⟨23, 16⟩, .ro), (⟨9, 8⟩, .ro), (⟨0, 0⟩, .ro)]⟩,
  ⟨"MOD.DUMP_STATUS", 0x238, 0x1, 1, 0x1, 1, 0x0#64, none, false, [(⟨63, 32⟩, .ro), (⟨31, 24⟩, .ro), (⟨23, 16⟩, .ro), (⟨1, 1⟩, .ro), (⟨0, 0⟩, .ro)]⟩,
  ⟨"MOD.CHIP_ASSIGN", 0x300, 0x1, 1, 0x1, 1, 0x0#64, none, true, [(⟨17, 17⟩, .rw), (⟨16, 16⟩, .rw), (⟨15, 12⟩, .rw), (⟨11, 5⟩, .rw), (⟨4, 0⟩, .rw)]⟩,
  ⟨"MOD.ENUM_STATUS", 0x308, 0x1, 1, 0x1, 1, 0x0#64, none, false, [(⟨63, 48⟩, .ro), (⟨47, 32⟩, .ro), (⟨31, 24⟩, .ro), (⟨7, 7⟩, .ro), (⟨6, 6⟩, .ro), (⟨5, 5⟩, .ro), (⟨4, 4⟩, .ro), (⟨3, 0⟩, .ro)]⟩,
  ⟨"MOD.FN", 0x1000, 0x8, 768, 0x1, 1, 0x3201000002#64, none, false, [(⟨47, 32⟩, .rw), (⟨31, 24⟩, .ro), (⟨19, 16⟩, .wo), (⟨3, 0⟩, .ro)]⟩]

/-- The registers of the RING block. -/
def regsRING : List RegRow := [
  ⟨"RING.SQ_BASE", 0x100000, 0x40, 256, 0x1, 1, 0x0#64, some (0x100, 1), false, [(⟨63, 12⟩, .rw), (⟨0, 0⟩, .rw)]⟩,
  ⟨"RING.SQ_CFG", 0x100008, 0x40, 256, 0x1, 1, 0x0#64, some (0x100, 1), false, [(⟨15, 8⟩, .rw), (⟨4, 0⟩, .rw)]⟩,
  ⟨"RING.SQ_HEAD", 0x100010, 0x40, 256, 0x1, 1, 0x0#64, none, false, [(⟨31, 0⟩, .ro)]⟩,
  ⟨"RING.SQ_TAIL", 0x100018, 0x40, 256, 0x1, 1, 0x0#64, none, false, [(⟨31, 0⟩, .ro)]⟩,
  ⟨"RING.SQ_STATUS", 0x100020, 0x40, 256, 0x1, 1, 0x0#64, none, false, [(⟨63, 32⟩, .ro), (⟨31, 1⟩, .ro), (⟨0, 0⟩, .ro)]⟩,
  ⟨"RING.EVT_BANK", 0x100028, 0x40, 256, 0x1, 1, 0x0#64, none, false, [(⟨33, 33⟩, .rw1c), (⟨32, 32⟩, .ro), (⟨31, 0⟩, .ro)]⟩,
  ⟨"RING.CQ_BASE", 0x104000, 0x40, 256, 0x1, 1, 0x0#64, some (0x200, 1), false, [(⟨63, 12⟩, .rw), (⟨0, 0⟩, .rw)]⟩,
  ⟨"RING.CQ_CFG", 0x104008, 0x40, 256, 0x1, 1, 0x0#64, some (0x200, 1), false, [(⟨15, 8⟩, .rw), (⟨4, 0⟩, .rw)]⟩,
  ⟨"RING.CQ_TAIL", 0x104010, 0x40, 256, 0x1, 1, 0x0#64, none, false, [(⟨31, 0⟩, .ro)]⟩,
  ⟨"RING.CQ_HEAD", 0x104018, 0x40, 256, 0x1, 1, 0x0#64, none, false, [(⟨31, 0⟩, .rw)]⟩,
  ⟨"RING.CQ_STATUS", 0x104020, 0x40, 256, 0x1, 1, 0x0#64, none, false, [(⟨63, 32⟩, .ro), (⟨31, 0⟩, .ro)]⟩,
  ⟨"RING.DB", 0x108000, 0x8, 256, 0x1, 1, 0x0#64, none, false, [(⟨31, 0⟩, .rw)]⟩]

/-- The registers of the ARR block. -/
def regsARR : List RegRow := [
  ⟨"ARR.TILER_CFG", 0x200000, 0x1, 1, 0x1, 1, 0x10430#64, some (0x0, 0), false, [(⟨16, 16⟩, .rw), (⟨11, 8⟩, .rw), (⟨6, 0⟩, .rw)]⟩,
  ⟨"ARR.SWEEP_STATUS", 0x200008, 0x1, 1, 0x1, 1, 0xFF000000#64, none, false, [(⟨44, 32⟩, .ro), (⟨31, 24⟩, .ro), (⟨23, 0⟩, .ro)]⟩,
  ⟨"ARR.BLOCK_MASK", 0x200010, 0x1, 1, 0x1, 1, 0xFFFFFFFFFFFFFFFF#64, none, false, [(⟨63, 0⟩, .rw)]⟩,
  ⟨"ARR.FENCE_BLOCK", 0x200018, 0x1, 1, 0x1, 1, 0x0#64, none, false, [(⟨63, 0⟩, .rw1c)]⟩,
  ⟨"ARR.ARITH_CNT", 0x200100, 0x1, 1, 0x1, 1, 0x0#64, none, false, [(⟨63, 48⟩, .ro), (⟨47, 32⟩, .ro), (⟨31, 16⟩, .ro), (⟨15, 0⟩, .ro)]⟩,
  ⟨"ARR.CELL_MASK", 0x201000, 0x8, 64, 0x1, 1, 0xFFFFFFFFFFFFFFFF#64, none, false, [(⟨63, 0⟩, .rw)]⟩,
  ⟨"ARR.FENCE_CELL", 0x201200, 0x8, 64, 0x1, 1, 0x0#64, none, false, [(⟨63, 0⟩, .rw1c)]⟩]

/-- The registers of the LDG block. -/
def regsLDG : List RegRow := [
  ⟨"LDG.TBL_DIR_BASE", 0x300000, 0x10000, 8, 0x1, 1, 0x0#64, some (0x10, 4), false, [(⟨63, 12⟩, .rw)]⟩,
  ⟨"LDG.TBL_DIR_CFG", 0x300008, 0x10000, 8, 0x1, 1, 0x0#64, some (0x10, 4), false, [(⟨15, 0⟩, .rw)]⟩,
  ⟨"LDG.GATHER_STATUS", 0x300010, 0x10000, 8, 0x1, 1, 0x0#64, none, false, [(⟨45, 32⟩, .ro), (⟨2, 0⟩, .ro)]⟩,
  ⟨"LDG.ERRMEM_BASE", 0x300018, 0x10000, 8, 0x1, 1, 0x0#64, some (0x30, 1), false, [(⟨63, 12⟩, .rw)]⟩,
  ⟨"LDG.ERRMEM_SIZE", 0x300020, 0x10000, 8, 0x1, 1, 0x0#64, some (0x30, 1), false, [(⟨31, 0⟩, .rw)]⟩,
  ⟨"LDG.DIRTY_CTL", 0x300028, 0x10000, 8, 0x1, 1, 0x0#64, none, false, [(⟨48, 48⟩, .ro), (⟨47, 32⟩, .ro), (⟨31, 0⟩, .ro)]⟩,
  ⟨"LDG.SCRUB_CFG", 0x300030, 0x10000, 8, 0x1, 1, 0x18#64, none, false, [(⟨15, 0⟩, .rw)]⟩,
  ⟨"LDG.ECC_STATUS", 0x300040, 0x10000, 8, 0x8, 2, 0x0#64, none, false, [(⟨63, 48⟩, .ro), (⟨47, 16⟩, .ro)]⟩,
  ⟨"LDG.UE_ADDR", 0x300050, 0x10000, 8, 0x8, 2, 0x0#64, none, false, [(⟨35, 6⟩, .ro), (⟨0, 0⟩, .rw1c)]⟩,
  ⟨"LDG.SUMP_STATUS", 0x380000, 0x100, 8, 0x1, 1, 0x0#64, none, false, [(⟨63, 32⟩, .ro), (⟨31, 16⟩, .ro), (⟨2, 0⟩, .ro)]⟩,
  ⟨"LDG.SUMP_PROGRESS", 0x380008, 0x100, 8, 0x1, 1, 0x0#64, none, false, [(⟨31, 0⟩, .ro)]⟩]

/-- The registers of the UPD block. -/
def regsUPD : List RegRow := [
  ⟨"UPD.RULE_BASE", 0x400000, 0x10000, 8, 0x1, 1, 0x0#64, some (0x11, 4), false, [(⟨63, 12⟩, .rw)]⟩,
  ⟨"UPD.CFG", 0x400008, 0x10000, 8, 0x1, 1, 0x0#64, some (0x11, 4), false, [(⟨0, 0⟩, .rw)]⟩,
  ⟨"UPD.STATUS", 0x400010, 0x10000, 8, 0x1, 1, 0x0#64, none, false, [(⟨63, 48⟩, .ro), (⟨47, 32⟩, .ro), (⟨31, 16⟩, .ro), (⟨0, 0⟩, .ro)]⟩,
  ⟨"UPD.RUNNING", 0x400018, 0x10000, 8, 0x1, 1, 0xFF00000000#64, none, false, [(⟨39, 32⟩, .ro), (⟨31, 0⟩, .ro)]⟩,
  ⟨"UPD.PROGRESS", 0x400020, 0x10000, 8, 0x1, 1, 0x0#64, none, false, [(⟨31, 0⟩, .ro)]⟩]

/-- The registers of the FAB block. -/
def regsFAB : List RegRow := [
  ⟨"FAB.VC_CREDITS", 0x500000, 0x10000, 8, 0x1, 1, 0x80C1C1C280804#64, some (0x30, 1), false, [(⟨63, 0⟩, .rw)]⟩,
  ⟨"FAB.VC_WEIGHT", 0x500008, 0x10000, 8, 0x1, 1, 0x116682#64, some (0x30, 1), false, [(⟨23, 0⟩, .rw)]⟩,
  ⟨"FAB.PORT_CFG", 0x500010, 0x10000, 8, 0x8, 6, 0x4#64, some (0x30, 1), false, [(⟨39, 24⟩, .rw), (⟨23, 16⟩, .rw), (⟨7, 4⟩, .rw), (⟨3, 3⟩, .rw), (⟨2, 2⟩, .rw), (⟨1, 1⟩, .rw), (⟨0, 0⟩, .rw)]⟩,
  ⟨"FAB.PORT_STATUS", 0x500040, 0x10000, 8, 0x8, 6, 0x0#64, none, false, [(⟨35, 20⟩, .ro), (⟨19, 12⟩, .ro), (⟨11, 8⟩, .ro), (⟨4, 4⟩, .ro), (⟨3, 0⟩, .ro)]⟩,
  ⟨"FAB.PORT_ERR", 0x500070, 0x10000, 8, 0x8, 6, 0x0#64, none, false, [(⟨63, 32⟩, .ro), (⟨31, 0⟩, .ro)]⟩,
  ⟨"FAB.STATUS", 0x5000A0, 0x10000, 8, 0x1, 1, 0x0#64, none, false, [(⟨63, 48⟩, .ro), (⟨47, 32⟩, .ro), (⟨31, 0⟩, .ro)]⟩,
  ⟨"FAB.ROUTE", 0x508000, 0x10000, 8, 0x8, 576, 0x0#64, none, false, [(⟨63, 63⟩, .rw), (⟨62, 62⟩, .rw), (⟨61, 61⟩, .rw), (⟨60, 60⟩, .rw), (⟨59, 56⟩, .rw), (⟨55, 52⟩, .rw), (⟨31, 16⟩, .rw), (⟨15, 0⟩, .rw)]⟩,
  ⟨"FAB.PLAN_STATUS", 0x580000, 0x1, 1, 0x1, 1, 0x0#64, none, true, [(⟨63, 48⟩, .rw), (⟨40, 40⟩, .ro), (⟨39, 32⟩, .ro), (⟨31, 24⟩, .ro), (⟨23, 16⟩, .ro), (⟨15, 8⟩, .ro)]⟩,
  ⟨"FAB.ROPE_CFG", 0x580008, 0x1, 1, 0x1, 1, 0x507D0000003E8#64, none, false, [(⟨63, 48⟩, .rw), (⟨47, 32⟩, .rw), (⟨15, 0⟩, .rw)]⟩,
  ⟨"FAB.ROPE_STATUS", 0x580010, 0x1, 1, 0x1, 1, 0x0#64, none, false, [(⟨63, 32⟩, .ro), (⟨1, 1⟩, .ro), (⟨0, 0⟩, .ro)]⟩]

/-- The registers of the RED block. -/
def regsRED : List RegRow := [
  ⟨"RED.BUF_BASE", 0x600000, 0x1000, 16, 0x1, 1, 0x0#64, some (0x40, 1), false, [(⟨63, 12⟩, .rw)]⟩,
  ⟨"RED.BUF_SIZE", 0x600008, 0x1000, 16, 0x1, 1, 0x0#64, some (0x40, 1), false, [(⟨31, 0⟩, .rw)]⟩,
  ⟨"RED.JRNL_CFG", 0x600010, 0x1000, 16, 0x1, 1, 0x400#64, some (0x40, 1), false, [(⟨12, 0⟩, .rw)]⟩,
  ⟨"RED.DLOG_BASE", 0x600018, 0x1000, 16, 0x1, 1, 0x0#64, some (0x40, 1), false, [(⟨63, 12⟩, .rw)]⟩,
  ⟨"RED.DLOG_CFG", 0x600020, 0x1000, 16, 0x1, 1, 0x3#64, some (0x40, 1), false, [(⟨3, 0⟩, .rw)]⟩,
  ⟨"RED.STATUS", 0x600028, 0x1000, 16, 0x1, 1, 0x0#64, none, false, [(⟨47, 32⟩, .ro), (⟨31, 16⟩, .ro), (⟨6, 0⟩, .ro)]⟩,
  ⟨"RED.CNT_A", 0x600030, 0x1000, 16, 0x1, 1, 0x0#64, none, false, [(⟨63, 48⟩, .ro), (⟨47, 32⟩, .ro), (⟨31, 16⟩, .ro)]⟩,
  ⟨"RED.CNT_B", 0x600038, 0x1000, 16, 0x1, 1, 0x0#64, none, false, [(⟨63, 32⟩, .ro), (⟨31, 16⟩, .ro), (⟨15, 0⟩, .ro)]⟩,
  ⟨"RED.AUDIT", 0x600040, 0x1000, 16, 0x1, 1, 0x0#64, none, false, [(⟨63, 32⟩, .ro), (⟨31, 0⟩, .ro)]⟩]

/-- The registers of the INTG block. -/
def regsINTG : List RegRow := [
  ⟨"INTG.CFG", 0x700000, 0x1, 1, 0x1, 1, 0x3#64, some (0x0, 0), false, [(⟨1, 1⟩, .rw), (⟨0, 0⟩, .rw)]⟩,
  ⟨"INTG.STEEP", 0x700008, 0x1, 1, 0x1, 1, 0x4E20#64, some (0x50, 0), false, [(⟨31, 0⟩, .rw)]⟩,
  ⟨"INTG.TICKET", 0x700010, 0x1, 1, 0x1, 1, 0x0#64, none, false, [(⟨31, 16⟩, .ro), (⟨15, 0⟩, .ro)]⟩,
  ⟨"INTG.CHECK_CNT", 0x700018, 0x1, 1, 0x1, 1, 0x0#64, none, false, [(⟨63, 48⟩, .ro), (⟨47, 32⟩, .ro), (⟨31, 16⟩, .ro), (⟨15, 0⟩, .ro)]⟩,
  ⟨"INTG.AUDIT_CNT", 0x700020, 0x1, 1, 0x1, 1, 0x0#64, none, false, [(⟨63, 32⟩, .ro), (⟨31, 16⟩, .ro)]⟩,
  ⟨"INTG.TAG_CNT", 0x700028, 0x1, 1, 0x1, 1, 0x0#64, none, false, [(⟨63, 32⟩, .ro), (⟨31, 0⟩, .ro)]⟩,
  ⟨"INTG.PENDING", 0x700030, 0x1, 1, 0x1, 1, 0x0#64, none, false, [(⟨47, 32⟩, .ro), (⟨31, 0⟩, .ro)]⟩,
  ⟨"INTG.STEEP_CNT", 0x700038, 0x1, 1, 0x1, 1, 0x0#64, none, false, [(⟨63, 32⟩, .ro), (⟨31, 0⟩, .ro)]⟩,
  ⟨"INTG.SCAN_STATUS", 0x700040, 0x1, 1, 0x1, 1, 0xFF#64, none, false, [(⟨63, 48⟩, .ro), (⟨47, 32⟩, .ro), (⟨8, 8⟩, .ro), (⟨7, 0⟩, .ro)]⟩,
  ⟨"INTG.STRAINER_FLAG", 0x701000, 0x8, 64, 0x1, 1, 0x0#64, none, false, [(⟨63, 0⟩, .rw1c)]⟩]

/-- The registers of the FLT block. -/
def regsFLT : List RegRow := [
  ⟨"FLT.CFG", 0x800000, 0x1, 1, 0x1, 1, 0x40#64, some (0x50, 0), false, [(⟨15, 0⟩, .rw)]⟩,
  ⟨"FLT.TIMER", 0x800008, 0x1, 1, 0x1, 1, 0x64003200140005#64, some (0x50, 0), false, [(⟨63, 48⟩, .rw), (⟨47, 32⟩, .rw), (⟨31, 16⟩, .rw), (⟨15, 0⟩, .rw)]⟩,
  ⟨"FLT.HOLD_CAP", 0x800010, 0x1, 1, 0x1, 1, 0x3200140005#64, some (0x50, 0), false, [(⟨47, 32⟩, .rw), (⟨31, 16⟩, .rw), (⟨15, 0⟩, .rw)]⟩,
  ⟨"FLT.SEV_CNT", 0x800018, 0x1, 1, 0x1, 1, 0x0#64, none, false, [(⟨63, 48⟩, .rw1c), (⟨47, 32⟩, .rw1c), (⟨31, 16⟩, .ro), (⟨15, 0⟩, .ro)]⟩,
  ⟨"FLT.CONG_CNT", 0x800020, 0x1, 1, 0x1, 1, 0x0#64, none, false, [(⟨63, 48⟩, .ro), (⟨47, 32⟩, .ro), (⟨31, 16⟩, .ro), (⟨15, 0⟩, .ro)]⟩,
  ⟨"FLT.SUPPRESSED", 0x800028, 0x1, 1, 0x1, 1, 0x0#64, none, false, [(⟨31, 0⟩, .ro)]⟩,
  ⟨"FLT.CLASS_CNT", 0x800108, 0x8, 21, 0x1, 1, 0x0#64, none, false, [(⟨63, 32⟩, .ro), (⟨31, 0⟩, .ro)]⟩,
  ⟨"FLT.AUDIT", 0x801000, 0x8, 147, 0x1, 1, 0x0#64, none, false, [(⟨63, 32⟩, .ro), (⟨31, 0⟩, .ro)]⟩]

/-- The registers of the CONT block. -/
def regsCONT : List RegRow := [
  ⟨"CONT.CADDY_BASE", 0x900000, 0x1, 1, 0x1, 1, 0x0#64, some (0x50, 0), false, [(⟨63, 12⟩, .rw)]⟩,
  ⟨"CONT.BUDDY_BASE", 0x900008, 0x1, 1, 0x1, 1, 0x0#64, some (0x50, 0), false, [(⟨63, 12⟩, .rw)]⟩,
  ⟨"CONT.BUDDY", 0x900010, 0x1, 1, 0x1, 1, 0x0#64, some (0x50, 0), false, [(⟨63, 48⟩, .rw), (⟨47, 32⟩, .rw), (⟨31, 16⟩, .rw), (⟨15, 0⟩, .rw)]⟩,
  ⟨"CONT.CADDY_CFG", 0x900018, 0x1, 1, 0x1, 1, 0x3E8#64, some (0x50, 0), false, [(⟨17, 16⟩, .rw), (⟨15, 0⟩, .rw)]⟩,
  ⟨"CONT.CADDY_STATUS", 0x900020, 0x1, 1, 0x1, 1, 0x0#64, none, false, [(⟨63, 32⟩, .ro), (⟨31, 16⟩, .ro), (⟨15, 0⟩, .ro)]⟩,
  ⟨"CONT.SPREAD_BASE", 0x900028, 0x1, 1, 0x1, 1, 0x0#64, some (0x50, 0), false, [(⟨63, 12⟩, .rw)]⟩,
  ⟨"CONT.SPREAD_CFG", 0x900030, 0x1, 1, 0x1, 1, 0x0#64, some (0x50, 0), false, [(⟨31, 16⟩, .rw), (⟨15, 0⟩, .rw)]⟩,
  ⟨"CONT.SPREAD_STATUS", 0x900038, 0x1, 1, 0x1, 1, 0x0#64, none, false, [(⟨31, 16⟩, .ro), (⟨3, 0⟩, .ro)]⟩,
  ⟨"CONT.LOST", 0x900040, 0x8, 8, 0x1, 1, 0x0#64, none, true, [(⟨16, 16⟩, .rw), (⟨15, 0⟩, .rw)]⟩,
  ⟨"CONT.PIECE_BASE", 0x900080, 0x1, 1, 0x1, 1, 0x0#64, some (0x50, 0), false, [(⟨63, 16⟩, .rw)]⟩,
  ⟨"CONT.PIECE_CFG", 0x900088, 0x1, 1, 0x1, 1, 0x0#64, some (0x50, 0), false, [(⟨31, 0⟩, .rw)]⟩,
  ⟨"CONT.PIECE_OWNER", 0x900090, 0x8, 16, 0x1, 1, 0x0#64, some (0x50, 0), false, [(⟨16, 16⟩, .rw), (⟨15, 0⟩, .rw)]⟩,
  ⟨"CONT.HOLDERS_LO", 0x900110, 0x1, 1, 0x1, 1, 0x0#64, some (0x50, 0), false, [(⟨63, 0⟩, .rw)]⟩,
  ⟨"CONT.HOLDERS_MID", 0x900118, 0x1, 1, 0x1, 1, 0x0#64, some (0x50, 0), false, [(⟨63, 0⟩, .rw)]⟩,
  ⟨"CONT.HOLDERS_HI", 0x900120, 0x1, 1, 0x1, 1, 0x0#64, some (0x50, 0), false, [(⟨31, 0⟩, .rw)]⟩,
  ⟨"CONT.REBUILD_STATUS", 0x900128, 0x1, 1, 0x1, 1, 0x0#64, none, false, [(⟨63, 32⟩, .ro), (⟨31, 0⟩, .ro)]⟩]

/-- The registers of the CKP block. -/
def regsCKP : List RegRow := [
  ⟨"CKP.CFG", 0xA00000, 0x1, 1, 0x1, 1, 0x405#64, some (0x50, 0), false, [(⟨23, 8⟩, .rw), (⟨7, 0⟩, .rw)]⟩,
  ⟨"CKP.SUMP_BASE", 0xA00008, 0x1, 1, 0x1, 1, 0x0#64, some (0x50, 0), false, [(⟨35, 12⟩, .rw)]⟩,
  ⟨"CKP.SUMP_CFG", 0xA00010, 0x1, 1, 0x1, 1, 0x0#64, some (0x50, 0), false, [(⟨63, 32⟩, .rw), (⟨31, 0⟩, .rw)]⟩,
  ⟨"CKP.MANIFEST_BASE", 0xA00018, 0x1, 1, 0x1, 1, 0x0#64, some (0x50, 0), false, [(⟨63, 12⟩, .rw)]⟩,
  ⟨"CKP.HOST_BASE", 0xA00020, 0x1, 1, 0x1, 1, 0x0#64, some (0x50, 0), false, [(⟨63, 12⟩, .rw)]⟩,
  ⟨"CKP.HOST_CFG", 0xA00028, 0x1, 1, 0x1, 1, 0x0#64, some (0x50, 0), false, [(⟨33, 33⟩, .rw), (⟨32, 32⟩, .rw), (⟨31, 0⟩, .rw)]⟩,
  ⟨"CKP.CUT_AT", 0xA00030, 0x1, 1, 0x1, 1, 0x0#64, none, true, [(⟨32, 32⟩, .rw), (⟨31, 0⟩, .rw)]⟩,
  ⟨"CKP.STEPS", 0xA00038, 0x1, 1, 0x1, 1, 0xFFFFFFFF#64, none, false, [(⟨63, 32⟩, .ro), (⟨31, 0⟩, .ro)]⟩,
  ⟨"CKP.STATUS", 0xA00040, 0x1, 1, 0x1, 1, 0x0#64, none, false, [(⟨63, 32⟩, .ro), (⟨31, 16⟩, .ro), (⟨15, 8⟩, .ro), (⟨4, 4⟩, .ro), (⟨3, 1⟩, .ro), (⟨0, 0⟩, .ro)]⟩,
  ⟨"CKP.DRAIN_STATUS", 0xA00048, 0x1, 1, 0x1, 1, 0x0#64, none, false, [(⟨63, 32⟩, .ro), (⟨31, 16⟩, .ro), (⟨15, 0⟩, .ro)]⟩,
  ⟨"CKP.RESTORE_STATUS", 0xA00050, 0x1, 1, 0x1, 1, 0x0#64, none, false, [(⟨63, 32⟩, .ro), (⟨31, 16⟩, .ro), (⟨15, 0⟩, .ro)]⟩,
  ⟨"CKP.RANGE_A", 0xA00100, 0x10, 32, 0x1, 1, 0x0#64, some (0x50, 0), false, [(⟨47, 12⟩, .rw), (⟨2, 2⟩, .rw), (⟨1, 0⟩, .rw)]⟩,
  ⟨"CKP.RANGE_B", 0xA00108, 0x10, 32, 0x1, 1, 0x0#64, some (0x50, 0), false, [(⟨55, 40⟩, .rw), (⟨39, 32⟩, .rw), (⟨31, 0⟩, .rw)]⟩]

/-- The registers of the TRF block. -/
def regsTRF : List RegRow := [
  ⟨"TRF.ROLE", 0xB00000, 0x1, 1, 0x1, 1, 0x0#64, none, false, [(⟨63, 48⟩, .ro), (⟨47, 32⟩, .ro), (⟨8, 8⟩, .ro), (⟨6, 4⟩, .ro), (⟨2, 0⟩, .ro)]⟩,
  ⟨"TRF.ROLE_CMD", 0xB00008, 0x1, 1, 0x1, 1, 0x0#64, none, true, [(⟨0, 0⟩, .wo)]⟩,
  ⟨"TRF.BOOT", 0xB00010, 0x8, 2, 0x1, 1, 0x0#64, none, false, [(⟨63, 32⟩, .ro), (⟨31, 24⟩, .ro), (⟨23, 16⟩, .ro), (⟨1, 1⟩, .ro), (⟨0, 0⟩, .ro)]⟩,
  ⟨"TRF.ARB", 0xB00020, 0x1, 1, 0x1, 1, 0x0#64, none, true, [(⟨8, 8⟩, .wo), (⟨7, 0⟩, .wo)]⟩,
  ⟨"TRF.MGMT_CFG", 0xB00028, 0x1, 1, 0x1, 1, 0x10000BA7E#64, some (0x51, 0), false, [(⟨32, 32⟩, .rw), (⟨15, 0⟩, .rw)]⟩,
  ⟨"TRF.FLEET_ADDR_HI", 0xB00030, 0x1, 1, 0x1, 1, 0x0#64, some (0x51, 0), false, [(⟨63, 0⟩, .rw)]⟩,
  ⟨"TRF.FLEET_ADDR_LO", 0xB00038, 0x1, 1, 0x1, 1, 0x0#64, some (0x51, 0), false, [(⟨63, 0⟩, .rw)]⟩,
  ⟨"TRF.TMP_STATUS", 0xB00040, 0x1, 1, 0x1, 1, 0x0#64, none, false, [(⟨63, 48⟩, .ro), (⟨47, 32⟩, .ro), (⟨31, 0⟩, .ro)]⟩,
  ⟨"TRF.RISK_WEIGHT", 0xB00100, 0x1, 1, 0x1, 1, 0x400401#64, some (0x50, 0), false, [(⟨23, 16⟩, .rw), (⟨15, 8⟩, .rw), (⟨7, 0⟩, .rw)]⟩,
  ⟨"TRF.RISK_CFG", 0xB00108, 0x1, 1, 0x1, 1, 0x3C#64, some (0x50, 0), false, [(⟨7, 0⟩, .rw)]⟩,
  ⟨"TRF.RISK_THRESH", 0xB00110, 0x1, 1, 0x1, 1, 0x20000080000200#64, some (0x50, 0), false, [(⟨59, 40⟩, .rw), (⟨39, 20⟩, .rw), (⟨19, 0⟩, .rw)]⟩,
  ⟨"TRF.RISK_STATUS", 0xB00118, 0x1, 1, 0x1, 1, 0x0#64, none, false, [(⟨63, 48⟩, .ro), (⟨47, 32⟩, .ro), (⟨31, 16⟩, .ro)]⟩,
  ⟨"TRF.RISK_SCORE", 0xB00200, 0x8, 144, 0x1, 1, 0x0#64, none, false, [(⟨33, 32⟩, .ro), (⟨31, 0⟩, .ro)]⟩]

/-- The registers of the EVR block. -/
def regsEVR : List RegRow := [
  ⟨"EVR.HEAD_SEQ", 0xC00000, 0x1, 1, 0x1, 1, 0x0#64, none, false, [(⟨31, 0⟩, .ro)]⟩,
  ⟨"EVR.TAIL_SEQ", 0xC00008, 0x1, 1, 0x1, 1, 0x0#64, none, false, [(⟨31, 0⟩, .ro)]⟩,
  ⟨"EVR.DROPPED", 0xC00010, 0x1, 1, 0x1, 1, 0x0#64, none, false, [(⟨63, 32⟩, .ro), (⟨31, 0⟩, .ro)]⟩,
  ⟨"EVR.FLASH_STATUS", 0xC00018, 0x1, 1, 0x1, 1, 0x0#64, none, false, [(⟨63, 32⟩, .ro), (⟨1, 1⟩, .ro), (⟨0, 0⟩, .ro)]⟩,
  ⟨"EVR.LIFE", 0xC00020, 0x1, 1, 0x1, 1, 0x0#64, none, false, [(⟨63, 32⟩, .ro), (⟨31, 0⟩, .ro)]⟩,
  ⟨"EVR.CTL", 0xC00028, 0x1, 1, 0x1, 1, 0x0#64, none, true, [(⟨0, 0⟩, .wo)]⟩,
  ⟨"EVR.POP", 0xC80000, 0x8, 65536, 0x1, 1, 0x0#64, none, false, [(⟨63, 32⟩, .ro), (⟨31, 0⟩, .ro)]⟩]

/-- The registers of the TIME block. -/
def regsTIME : List RegRow := [
  ⟨"TIME.NOW", 0xD00000, 0x1, 1, 0x1, 1, 0x0#64, none, false, [(⟨63, 32⟩, .ro), (⟨31, 0⟩, .ro)]⟩,
  ⟨"TIME.COUNT", 0xD00008, 0x1, 1, 0x1, 1, 0x0#64, none, false, [(⟨63, 0⟩, .ro)]⟩,
  ⟨"TIME.OFFSET", 0xD00010, 0x1, 1, 0x1, 1, 0x0#64, none, false, [(⟨63, 0⟩, .ro)]⟩,
  ⟨"TIME.RATE", 0xD00018, 0x1, 1, 0x1, 1, 0x0#64, none, true, [(⟨31, 0⟩, .rw)]⟩,
  ⟨"TIME.ADJ", 0xD00020, 0x1, 1, 0x1, 1, 0x0#64, none, true, [(⟨63, 0⟩, .wo)]⟩,
  ⟨"TIME.STATUS", 0xD00028, 0x1, 1, 0x1, 1, 0x0#64, none, false, [(⟨63, 32⟩, .ro), (⟨31, 16⟩, .ro), (⟨6, 6⟩, .ro), (⟨5, 5⟩, .ro), (⟨4, 4⟩, .ro), (⟨3, 0⟩, .ro)]⟩,
  ⟨"TIME.CFG", 0xD00030, 0x1, 1, 0x1, 1, 0x6400C800000003#64, some (0x50, 0), false, [(⟨63, 48⟩, .rw), (⟨47, 32⟩, .rw), (⟨31, 24⟩, .rw), (⟨1, 1⟩, .rw), (⟨0, 0⟩, .rw)]⟩,
  ⟨"TIME.GM_ID", 0xD00038, 0x1, 1, 0x1, 1, 0x0#64, none, false, [(⟨63, 0⟩, .ro)]⟩,
  ⟨"TIME.SYNC_STAMP", 0xD00040, 0x1, 1, 0x1, 1, 0x0#64, none, false, [(⟨63, 32⟩, .ro), (⟨31, 0⟩, .ro)]⟩]

/-- The registers of the OBS block. -/
def regsOBS : List RegRow := [
  ⟨"OBS.WHISTLE_CFG", 0xE00000, 0x1, 1, 0x1, 1, 0x100#64, none, true, [(⟨23, 20⟩, .rw), (⟨18, 16⟩, .rw), (⟨11, 8⟩, .rw), (⟨1, 1⟩, .rw), (⟨0, 0⟩, .rw)]⟩,
  ⟨"OBS.WHISTLE", 0xE00008, 0x1, 1, 0x1, 1, 0x0#64, none, true, [(⟨63, 32⟩, .wo), (⟨4, 4⟩, .wo), (⟨3, 0⟩, .wo)]⟩,
  ⟨"OBS.WHISTLE_SEND", 0xE00010, 0x1, 1, 0x1, 1, 0x0#64, none, true, [(⟨63, 48⟩, .wo), (⟨47, 44⟩, .wo), (⟨31, 0⟩, .wo)]⟩,
  ⟨"OBS.WHISTLE_STATUS", 0xE00018, 0x1, 1, 0x1, 1, 0x0#64, none, false, [(⟨63, 48⟩, .ro), (⟨47, 32⟩, .ro), (⟨4, 4⟩, .ro), (⟨3, 0⟩, .ro)]⟩,
  ⟨"OBS.TRACE_CFG", 0xE00020, 0x1, 1, 0x1, 1, 0x1#64, none, false, [(⟨33, 33⟩, .rw), (⟨32, 32⟩, .rw), (⟨31, 16⟩, .rw), (⟨15, 8⟩, .rw), (⟨4, 4⟩, .rw), (⟨3, 2⟩, .rw), (⟨1, 0⟩, .rw)]⟩,
  ⟨"OBS.TRACE_BASE", 0xE00028, 0x1, 1, 0x1, 1, 0x0#64, none, false, [(⟨63, 12⟩, .rw), (⟨3, 0⟩, .rw)]⟩,
  ⟨"OBS.TRACE_WIN", 0xE00030, 0x1, 1, 0x1, 1, 0x0#64, none, false, [(⟨7, 0⟩, .rw)]⟩,
  ⟨"OBS.DBG_CFG", 0xE00038, 0x1, 1, 0x1, 1, 0x10500000000#64, none, false, [(⟨50, 50⟩, .rw), (⟨49, 49⟩, .rw), (⟨48, 48⟩, .rw), (⟨47, 40⟩, .rw), (⟨39, 32⟩, .rw), (⟨31, 16⟩, .rw), (⟨15, 8⟩, .rw), (⟨1, 0⟩, .rw)]⟩,
  ⟨"OBS.JTAG_CFG", 0xE00040, 0x1, 1, 0x1, 1, 0x0#64, none, true, [(⟨1, 1⟩, .ro), (⟨0, 0⟩, .rw)]⟩,
  ⟨"OBS.TRACE_PTR", 0xE00100, 0x8, 64, 0x1, 1, 0x0#64, none, false, [(⟨63, 48⟩, .ro), (⟨33, 33⟩, .ro), (⟨32, 32⟩, .ro), (⟨31, 0⟩, .ro)]⟩,
  ⟨"OBS.EVT_SEL", 0xE10000, 0x400, 80, 0x10, 48, 0x0#64, none, true, [(⟨31, 16⟩, .rw), (⟨8, 8⟩, .rw), (⟨7, 0⟩, .rw)]⟩,
  ⟨"OBS.FILTER", 0xE10008, 0x400, 80, 0x10, 48, 0xFFFF0000FFFF0000#64, none, true, [(⟨63, 48⟩, .rw), (⟨47, 32⟩, .rw), (⟨31, 16⟩, .rw), (⟨15, 0⟩, .rw)]⟩,
  ⟨"OBS.SNAP", 0xE40000, 0x200, 80, 0x8, 48, 0x0#64, none, true, [(⟨63, 0⟩, .ro)]⟩,
  ⟨"OBS.SNAP_INFO", 0xE7F000, 0x1, 1, 0x1, 1, 0x0#64, none, true, [(⟨63, 32⟩, .ro), (⟨31, 0⟩, .ro)]⟩,
  ⟨"OBS.SNAP_ERA", 0xE7F008, 0x1, 1, 0x1, 1, 0x0#64, none, true, [(⟨63, 32⟩, .ro), (⟨4, 4⟩, .ro), (⟨3, 0⟩, .ro)]⟩,
  ⟨"OBS.SNAP_MISS_LO", 0xE7F010, 0x1, 1, 0x1, 1, 0x0#64, none, true, [(⟨63, 0⟩, .ro)]⟩,
  ⟨"OBS.SNAP_MISS_HI", 0xE7F018, 0x1, 1, 0x1, 1, 0x0#64, none, true, [(⟨15, 0⟩, .ro)]⟩]

/-- The registers of the PWR block. -/
def regsPWR : List RegRow := [
  ⟨"PWR.FEED_STATUS", 0xF00000, 0x1, 1, 0x1, 1, 0x0#64, none, false, [(⟨63, 32⟩, .ro), (⟨31, 16⟩, .ro), (⟨7, 7⟩, .ro), (⟨6, 4⟩, .ro), (⟨2, 0⟩, .ro)]⟩,
  ⟨"PWR.FEED_MEAS", 0xF00008, 0x1, 1, 0x1, 1, 0x0#64, none, false, [(⟨63, 48⟩, .ro), (⟨47, 32⟩, .ro), (⟨31, 16⟩, .ro), (⟨15, 0⟩, .ro)]⟩,
  ⟨"PWR.FEED_CHECK", 0xF00010, 0x1, 1, 0x1, 1, 0x0#64, none, false, [(⟨31, 16⟩, .ro), (⟨1, 1⟩, .ro), (⟨0, 0⟩, .ro)]⟩,
  ⟨"PWR.STATE", 0xF00100, 0x1, 1, 0x1, 1, 0x1#64, none, false, [(⟨3, 3⟩, .ro), (⟨2, 0⟩, .ro)]⟩,
  ⟨"PWR.DVFS", 0xF00108, 0x1, 1, 0x1, 1, 0x3E803E803E8#64, none, false, [(⟨41, 32⟩, .ro), (⟨25, 16⟩, .ro), (⟨9, 0⟩, .rw)]⟩,
  ⟨"PWR.START_CFG", 0xF00110, 0x1, 1, 0x1, 1, 0xF050200#64, none, true, [(⟨32, 32⟩, .rw), (⟨31, 24⟩, .rw), (⟨23, 16⟩, .rw), (⟨15, 8⟩, .rw)]⟩,
  ⟨"PWR.START_STATUS", 0xF00118, 0x1, 1, 0x1, 1, 0x0#64, none, false, [(⟨63, 32⟩, .ro), (⟨31, 16⟩, .ro), (⟨15, 12⟩, .ro), (⟨7, 7⟩, .ro), (⟨6, 6⟩, .ro), (⟨5, 5⟩, .ro), (⟨4, 4⟩, .ro), (⟨3, 3⟩, .ro)]⟩,
  ⟨"PWR.THERM_CFG", 0xF00120, 0x1, 1, 0x1, 1, 0x5F#64, some (0x50, 0), false, [(⟨7, 0⟩, .rw)]⟩,
  ⟨"PWR.THERM_STATUS", 0xF00128, 0x1, 1, 0x1, 1, 0xFF00FF0000#64, none, false, [(⟨63, 48⟩, .ro), (⟨47, 40⟩, .ro), (⟨39, 32⟩, .ro), (⟨31, 24⟩, .ro), (⟨23, 16⟩, .ro), (⟨15, 0⟩, .ro)]⟩]

/-- The register list of one 1 MiB block (R753). -/
def regBlock (b : Nat) : List RegRow :=
  match b with
  | 0 => regsMOD | 1 => regsRING | 2 => regsARR | 3 => regsLDG | 4 => regsUPD | 5 => regsFAB | 6 => regsRED
  | 7 => regsINTG | 8 => regsFLT | 9 => regsCONT | 10 => regsCKP | 11 => regsTRF | 12 => regsEVR | 13 => regsTIME
  | 14 => regsOBS | 15 => regsPWR | _ => []

/-- The indices of offset off within a row, if the row has a register there. -/
def RegRow.index (r : RegRow) (off : Nat) : Option (Nat × Nat) :=
  if off < r.base then none
  else
    let d := off - r.base
    let a := if r.countA = 1 then 0 else d / r.strideA
    let d2 := if r.countA = 1 then d else d % r.strideA
    let b := if r.countB = 1 then 0 else d2 / r.strideB
    let d3 := if r.countB = 1 then d2 else d2 % r.strideB
    if a < r.countA && b < r.countB && d3 == 0 then some (a, b) else none

/-- The first row of a list that has a register at the offset, with its indices. -/
def findRow (off : Nat) : List RegRow → Option (RegRow × Nat × Nat)
  | [] => none
  | r :: t => match r.index off with
    | some (a, b) => some (r, a, b)
    | none => findRow off t

/-- The register at a BAR0 offset. -/
def findReg (off : Nat) : Option (RegRow × Nat × Nat) := findRow off (regBlock (off / 0x100000))

/-- The event codes of the three die types in code order (spec/16 R666). -/
def eventCodes (d : Nat) : List Nat :=
  if d < 0x40 then [0x01, 0x02, 0x03, 0x04, 0x05, 0x06, 0x08, 0x09, 0x0A, 0x0B, 0x10, 0x11, 0x12, 0x18, 0x19, 0x1A,
    0x20, 0x21, 0x28, 0x29, 0x2A, 0x30, 0x31]
  else if d < 0x48 then [0x40, 0x41, 0x42, 0x43, 0x44, 0x45, 0x46, 0x47, 0x48, 0x49, 0x4A, 0x4B, 0x4C]
  else [0x60, 0x61, 0x62, 0x63, 0x64, 0x65, 0x66, 0x67, 0x68]

/-- A function number that R103 assigns. -/
def fnAssigned (f : Nat) : Bool :=
  f == 0 || (0x10 ≤ f && f < 0x30 && f % 4 != 3) || (0x30 ≤ f && f < 0x38) || (0x40 ≤ f && f < 0x52) ||
    (0x100 ≤ f && f < 0x300)

/-- The value of a register at power-up: the Reset column of spec/19, the events of R666 for EVT_SEL, and zero for the
entries of MOD.FN that are unassigned (R106). -/
def regReset (off : Nat) : Word :=
  if 0x1000 ≤ off && off < 0x2800 && off % 8 == 0 then
    if fnAssigned ((off - 0x1000) / 8) then 0x3201000002#64 else 0#64
  else if 0xE10000 ≤ off && off < 0xE24000 && off % 16 == 0 then
    BitVec.ofNat 64 ((eventCodes ((off - 0xE10000) / 0x400)).getD (((off - 0xE10000) % 0x400) / 16) 0)
  else match findReg off with
    | some (r, _, _) => r.reset
    | none => 0#64

end Sys2Proof.Machine
end

