-- ==== Sys2Proof/Machine/Tbl.lean ====
section
/-!
DEFINITION. Sparse tables: a list of (key, value) pairs in one canonical form (keys strictly rising, no value equal to
what an unlisted key reads as). Memories, register files and every other keyed store of the model are tables.
-/
namespace Sys2Proof.Machine

/-- A sparse table. -/
abbrev Tbl (α : Type) := List (Nat × α)

/-- What key k holds: its entry, or the default d k. -/
def tblGet {α : Type} (d : Nat → α) : Tbl α → Nat → α
  | [], k => d k
  | (j, v) :: t, k => if k = j then v else if k < j then d k else tblGet d t k

/-- The table with key k holding v; an entry equal to the default is not kept. -/
def tblPut {α : Type} [DecidableEq α] (d : Nat → α) : Tbl α → Nat → α → Tbl α
  | [], k, v => if v = d k then [] else [(k, v)]
  | (j, u) :: t, k, v =>
    if k = j then (if v = d k then t else (k, v) :: t)
    else if k < j then (if v = d k then (j, u) :: t else (k, v) :: (j, u) :: t)
    else (j, u) :: tblPut d t k v

/-- The keys of the table rise strictly, all above the bound. -/
def tblSortedFrom {α : Type} : Option Nat → Tbl α → Bool
  | _, [] => true
  | none, (j, _) :: t => tblSortedFrom (some j) t
  | some b, (j, _) :: t => decide (b < j) && tblSortedFrom (some j) t

/-- The canonical form of a table. -/
def tblWf {α : Type} [DecidableEq α] (d : Nat → α) (m : Tbl α) : Bool :=
  tblSortedFrom none m && m.all (fun e => decide (e.2 ≠ d e.1))

/-- Write values at consecutive keys. -/
def tblPutList {α : Type} [DecidableEq α] (d : Nat → α) (m : Tbl α) (k : Nat) : List α → Tbl α
  | [] => m
  | v :: t => tblPutList d (tblPut d m k v) (k + 1) t

/-- Read n values at consecutive keys. -/
def tblGetList {α : Type} (d : Nat → α) (m : Tbl α) (k : Nat) : Nat → List α
  | 0 => []
  | n + 1 => tblGet d m k :: tblGetList d m (k + 1) n

/-- Write the entries of a list, its last one first. -/
def tblPutAll {α : Type} [DecidableEq α] (d : Nat → α) (m es : Tbl α) : Tbl α := es.foldr (fun e t => tblPut d t e.1 e.2) m

/-- The table with the n keys from lo on holding what a list of entries has for them, and the default where it has none. -/
def tblReplace {α : Type} [DecidableEq α] (d : Nat → α) (m : Tbl α) (lo n : Nat) (es : Tbl α) : Tbl α :=
  tblPutAll d (m.filter (fun e => lo + n ≤ e.1)) (m.filter (fun e => e.1 < lo) ++ es.filter (fun e => lo ≤ e.1 && e.1 < lo + n))

/-- The entries of the n keys from a on, moved to the keys from b on. -/
def tblMoved {α : Type} (m : Tbl α) (a n b : Nat) : Tbl α :=
  (m.filter (fun e => a ≤ e.1 && e.1 < a + n)).map (fun e => (e.1 - a + b, e.2))

/-- The table without the entries whose key lies in [lo, hi). -/
def tblClear {α : Type} (m : Tbl α) (lo hi : Nat) : Tbl α := m.filter (fun e => e.1 < lo || hi ≤ e.1)

/-- The table without the entries whose key satisfies p. -/
def tblDrop {α : Type} (p : Nat → Bool) (m : Tbl α) : Tbl α := m.filter (fun e => !p e.1)

end Sys2Proof.Machine
end

