-- ==== Sys2Proof/Machine/State.lean ====
section
/-!
DEFINITION. The state of the block: every register, buffer, queue and mode that the spec gives the module, and the queue of
commands that wait. All of it is plain data.
-/
namespace Sys2Proof.Machine

open Sys2Proof

/-! ### Arithmetic values (spec/03) -/

/-- A value that the array or a vector engine holds: NaN, an infinity, or ± m × 2^e. -/
inductive FVal where
  | nan
  | inf (neg : Bool)
  | fin (neg : Bool) (m : Nat) (e : Int)
  deriving DecidableEq, Repr


/-! ### Fabric (spec/07) -/

/-- A packet queued at an egress: its bytes not yet sent, whether some are, the port and the class in which it arrived, and the instant. -/
structure Queued where
  pkt   : Packet
  rest  : List Byte
  begun : Bool := false
  from_ : Option Nat := none
  inCls : Nat := 0
  since : Nat := 0
  deriving DecidableEq, Repr

/-- A port beside its registers. Tables are keyed by VC × 2 + CLASS: credits in use (R311), receive slots emptied and not
yet returned, packets queued, bytes of the packet being received. `replay` holds the DATA flits not acknowledged (R315),
`resend` those to send again (R317). `inbox` holds the packets received whole, with the receive slots that each still
fills; `lastTr` says of each channel whether its last packet was a transit packet (R453), `lost` that the port left ACTIVE
for TRAINING, `linkOut` the LINK messages that the other end has not answered (R308), `linkSent` those of them that have left at least
once, `sent0` the VC0 packets sent whole and not wholly acknowledged, with the SEQ of the last flit of each (R320), `reached` that the
port has been ACTIVE since discovery started (R337). -/
structure Port where
  txSeq    : Nat := 0
  replay   : List Flit := []
  resend   : List Flit := []
  rxNext   : Nat := 0
  discard  : Bool := false
  nakSeq   : Nat := 0
  nakRun   : Nat := 0
  sinceAck : Nat := 0
  lastAck  : Nat := 0
  used     : Tbl Nat := []
  giveBack : Tbl Nat := []
  queue    : Tbl (List Queued) := []
  asm      : Tbl (List Byte) := []
  wrrVc    : Nat := 1
  wrrLeft  : Nat := 0
  lastTr   : Tbl Bool := []
  lastLink : Bool := false
  kwAsked  : Bool := false
  kwPeer   : Bool := false
  kwExit   : Bool := false
  retrains : List Nat := []
  trainAt  : Nat := 0
  lost     : Bool := false
  inbox    : List (Packet × Nat) := []
  retry    : Bool := false
  passedOff : Bool := true
  linkOut  : List LinkMsg := []
  linkSent : List LinkMsg := []
  sent0    : List (Nat × Queued) := []
  reached  : Bool := false
  deriving DecidableEq, Repr

/-- The Rope service as a participant (R346, R349, R352): the job, where the root's table and status bytes lie, this module's
entry, depth and height, its parent, the START_RING; whether it is armed or committed and the START_TIME that it still
waits for; ARM_WAIT and ARM_HOLD as sampled and when ARM came; its children and adopted children as (index, chip); what
the children answered to ARM, and to COMMIT. -/
structure RopeNode where
  job      : Nat
  root     : Nat
  addr     : Nat
  stat     : Nat
  index    : Nat
  depth    : Nat
  height   : Nat
  ring     : Nat
  parent   : Nat
  wait     : Nat
  hold     : Nat
  armed    : Bool
  committed : Bool := false
  startAt  : Option Nat := none
  armAt    : Nat
  kids     : List (Nat × Nat)
  adopted  : List (Nat × Nat) := []
  waiting  : List Nat
  okCount  : Nat := 0
  refCount : Nat := 0
  silent   : List Nat := []
  answered : Bool := false
  cAt      : Nat := 0
  cParent  : Nat := 0
  cWaiting : List Nat := []
  cCount   : Nat := 0
  cSilent  : List Nat := []
  cAnswered : Bool := false
  deriving DecidableEq, Repr

/-- R349, R351, R352. An acknowledgement that the root has taken: the sender's index, the ARMED (or committed) and REFUSED counts of its
subtree, and the indices that it reports unanswered. -/
structure RopeAck where
  index  : Nat
  ok     : Nat
  ref    : Nat
  silent : List Nat
  deriving DecidableEq, Repr

/-- The Rope service as the root of a JOB_START in progress (R348-R355): its descriptor, the table, ARM_WAIT and COMMIT_LEAD as
sampled; the phase (0 ARM sent, 1 re-roped, 2 COMMIT sent, 3 re-roped) and when it began; its own counts, the acknowledgements of
the phase, the children that have not answered, the indices reported unanswered, the alternate parents asked and the children that it
adopted itself, START_TIME, whether it is committed itself, and the indices that answered NOT_ARMED. -/
structure RopeRoot where
  ring      : Nat
  seq       : Nat
  job       : Nat
  n         : Nat
  addr      : Nat
  stat      : Nat
  height    : Nat
  startRing : Nat
  keep      : Bool
  wait      : Nat
  lead      : Nat
  sentAt    : Nat
  phase     : Nat := 0
  okCount   : Nat := 0
  refCount  : Nat := 0
  waiting   : List Nat
  silent    : List Nat := []
  asked     : List Nat := []
  adopted   : List (Nat × Nat) := []
  acks      : List RopeAck := []
  entries   : List Byte
  startTime : Nat := 0
  cCount    : Nat := 0
  notArmed  : List Nat := []
  deriving DecidableEq, Repr

/-- A read of another module that awaits its reply (R31): its tag, who asked, the address, and when it was sent; or a TMP WRITE to one
(R617), with the bytes it writes. -/
structure RemRead where
  tag  : Nat
  who  : Master
  addr : Nat
  len  : Nat
  data : List Byte := []
  since : Nat := 0
  deriving DecidableEq, Repr

/-- The fabric of the module: its 48 ports, packets delivered to units of this module and not yet taken, the instant at
which discovery started, the Rope service with the start token, the VC0 packets acted on (R321), and reads of other
modules that await a reply. -/
structure Fab where
  ports     : Tbl Port := []
  delivered : List Packet := []
  discStart : Option Nat := none
  nodes     : List RopeNode := []
  root      : Option RopeRoot := none
  token     : Bool := true
  seen      : List (Nat × Nat × Nat) := []
  nextTag   : Nat := 0
  reads     : List RemRead := []
  deriving DecidableEq, Repr

/-! ### Memory, packets, reports -/

/-- The memories. Every list is a table (Machine/Tbl.lean): HBM is keyed by stack × 2^36 + stack address, staging SRAM by
block × 0x800_0000 + offset, the Trelfort window by window offset, host memory by host address, and each flash by flash
address. `stagTag` holds the block tags of the staging pages (R408), `poison` the bursts that hold an uncorrectable error
(R221), `scrubbed` those of them that only a patrol scrubber has reported and `replaced` how many such reports a later write of the
whole burst has made CORRECTED, `dirty` the dirty-row banks: key (stack × 2 + bank) × 2^24 + page (R225). `hostW` is what the module wrote to host
memory: what it reads there is an operand of the command. -/
structure Mem where
  hbm     : List Host.Cell := []
  staging : List Host.Cell := []
  trf     : List Host.Cell := []
  hostW   : List Host.Cell := []
  flash0  : List Host.Cell := []
  flash1  : List Host.Cell := []
  stagTag : Tbl Nat := []
  poison  : List Nat := []
  scrubbed : List Nat := []
  replaced : Nat := 0
  dirty   : Tbl Bool := []
  deriving DecidableEq, Repr

/-- A hop of a packet over the region torus (spec/01 R14-R18): from region to region, over a bridge (R474), in a buffer class. -/
structure TorHop where
  src    : Nat
  dst    : Nat
  bridge : Nat
  cls    : Nat
  deriving DecidableEq, Repr

/-- The region switches and die-to-die bridges: per bridge (R474) the flits that it has carried, whose credits are back; per region
switch the packets that have passed its buffers; and the hops of the last packet that crossed the torus. -/
structure Tor where
  flits : Tbl Nat := []
  passed : Tbl Nat := []
  path  : List TorHop := []
  deriving DecidableEq, Repr

/-- A page of this module with writes whose verdict is outstanding (spec/09 R432). -/
structure PendPage where
  page   : Nat
  ticket : Nat
  tile   : Nat
  deriving DecidableEq, Repr

/-- A plain write that waits for the Sump copy of its unit (spec/13 R568), for an older write that does, or for an older read of its
master (spec/05 R224): its master and stamp, its place and data. -/
structure HeldWrite where
  who   : Master
  stamp : Nat
  key   : Nat
  data  : List Byte
  deriving DecidableEq, Repr

/-- A plain read that waits for a pending page (spec/09 R433), or for an older write of its master (spec/05 R224). -/
structure WaitRead where
  who  : Master
  stamp : Nat
  addr : Nat
  len  : Nat
  deriving DecidableEq, Repr

/-- The source and context of a report or record (spec/15 R634), with the indices that fix its snapshot (R636, R637):
function, region, stack of the die, port of the die, reduce engine, pool, block, subject, and values. -/
structure Ctx where
  die    : Nat := 0x50
  unit   : Nat := 0xFF
  cell   : Nat := 0xFF
  port   : Nat := 0xFF
  ring   : Nat := 0xFF
  seq    : Nat := 0xFFFFFF
  layer  : Nat := 0xFFFF
  op     : Nat := 0xFFFF
  fn     : Option Nat := none
  region : Option Nat := none
  k      : Option Nat := none
  q      : Option Nat := none
  eng    : Option Nat := none
  pool   : Option Nat := none
  blk    : Option Nat := none
  subj   : Option Nat := none
  vals   : List Nat := []
  fns    : List Nat := []
  deriving DecidableEq, Repr

/-- A report or event that no Trelfort has recorded yet because none is PRIMARY (spec/15 R640). -/
structure WaitReport where
  code : Nat
  cls  : Nat
  sev  : Nat
  time : Nat
  ctx  : Ctx
  deriving DecidableEq, Repr

/-- What leaves the module, oldest first: read data, PCIe messages, datagrams, flits, pin levels. -/
inductive Out where
  /-- The data of a read, with whether it was poisoned, to its requester. -/
  | readReply (who : Master) (addr : Nat) (data : List Byte) (poisoned : Bool)
  /-- The outcome of a PCIe Configuration Request (R702): retry status, or served with data. -/
  | cfgReply (retry : Bool) (data : Nat)
  /-- An MSI-X message (R100). -/
  | msix (vector : Nat)
  /-- A TMP datagram to a source address and port, with its type, SEQ and body (R614). -/
  | tmp (dst : Nat) (type seq : Nat) (body : List Byte)
  /-- A management notice (R621): NOTICE_SEQ, KIND, proposed cut, record. -/
  | notice (seq kind cut : Nat) (record : List Byte)
  /-- A pulse on DBG_TRIG_OUT (R691). -/
  | trigOut
  /-- A trace packet of a die on DBG_OBS (R683, R691). -/
  | dbgTrace (die : Nat) (packet : List Byte)
  /-- A level on a named pin: 0 ALERT#, 1 PWR_GOOD, 2 THERMTRIP#, 3 READY. -/
  | pin (n : Nat) (level : Bool)
  /-- A flit on a port: its fields, and its 256 bytes (R307). -/
  | flit (port : Nat) (f : Flit) (bytes : List Byte)
  /-- A token on ENUM_OUT (R708). -/
  | enumToken (slot : Nat)
  /-- The bits a JTAG data register shifts out of a Trelfort's TAP (R693). -/
  | tdo (die : Nat) (bits : Nat)
  deriving DecidableEq, Repr

/-! ### Time (spec/15 R650-R664) -/

/-- A broadcast change of the time parameters, not yet applied (R652). -/
inductive TimeChange where
  | offset (d : Int)
  | rate (ppb : Int)
  | slew (d : Int)
  deriving DecidableEq, Repr

/-- The time copy of the module. `now` counts nanoseconds of TCLK since the model began and never restarts; the TCLK
counter of R650 is `now - start`. `slewD` is the slew under way and `slewAt` the count at which it began. -/
structure Clock where
  now     : Nat := 0
  start   : Nat := 0
  offset  : Int := 0
  acc     : Int := 0
  base    : Nat := 0
  rate    : Int := 0
  slewD   : Int := 0
  slewAt  : Nat := 0
  slewing : Bool := false
  changes : List (Nat × TimeChange) := []
  good    : Nat := 0
  annAt   : Nat := 0
  annIvl  : Nat := 0
  refBack : Option Nat := none
  gm      : Nat := 0
  deriving DecidableEq, Repr

/-! ### Rings and descriptors (spec/02) -/

/-- A fetched descriptor that has not started: its RING_SEQ, its 64 bytes, its parameter block where that lies outside this module
(assumption 114), its deadline in module time, the completion slots it holds (R95), and the module time of the first doorbell that
covered it. -/
structure Fetched where
  seq      : Nat
  bytes    : List Byte
  ext      : List Byte := []
  deadline : Option Int
  slots    : Nat
  bellAt   : Int := 0
  deriving DecidableEq, Repr

/-- What a submission ring holds besides its registers: fetched descriptors, and the accepted doorbells that still cover
unfetched descriptors with the module time of each (R89), and the ring whose completion set POISON last (R84). -/
structure SqSt where
  fetched : List Fetched := []
  bells   : List (Nat × Int) := []
  poisonBy : Nat := 0xFF
  deriving DecidableEq, Repr

/-- The completion a descriptor ends with (R93); the ring engines write one that no other unit is involved in. -/
structure Done where
  status : Nat
  cls    : Nat := 0
  flags  : Nat := 0
  result : Nat := 0
  die    : Nat := 0x48
  unit   : Nat := 0x26
  cell   : Nat := 0xFF
  port   : Nat := 0xFF
  cring  : Nat := 0xFF
  deriving DecidableEq, Repr

/-- A started descriptor: where it came from, its bytes with its parameter block, the function that runs it, the
function's GEN at the start (R117), whether a substitute runs it (R87, FLAGS.FALLBACK), its ticket (R430), whether its
operation has begun, when it started, its ring's GEN then (R121), whether a declared hang names it (R487), how long its module operation
timer has been paused (R464), and its outcome once it has one. -/
structure Started where
  ring     : Nat
  seq      : Nat
  bytes    : List Byte
  param    : List Byte := []
  fn       : Nat
  gen      : Nat
  deadline : Option Int
  slots    : Nat
  fallback : Bool := false
  ticket   : Option Nat := none
  begun    : Bool := false
  startAt  : Nat := 0
  rgen     : Nat := 1
  hang     : Bool := false
  held     : Nat := 0
  done     : Option Done := none
  deriving DecidableEq, Repr

/-- An UNCONFIRMED completion whose second slot stays reserved until its ticket settles (R96), unless its ring has released it (R775). -/
structure Unconf where
  ring   : Nat
  seq    : Nat
  step   : Nat
  ticket : Nat
  irq    : Bool
  cq     : Nat
  kept   : Bool := true
  deriving DecidableEq, Repr

/-- The PCIe endpoint of link die 0: link up, BARs open, PERST# asserted, MSI-X Enable and Function Mask, vector masks and
Pending Bits (R100, R702). -/
structure Pcie where
  linkUp  : Bool := false
  bars    : Bool := false
  perst   : Bool := false
  msixEn  : Bool := false
  fnMask  : Bool := false
  vecMask : List Nat := []
  pend    : List Nat := []
  deriving DecidableEq, Repr

/-! ### Faults (spec/10) -/

/-- A request that was re-issued once after its timer expired (R466): 0 under the region timer, 1 under the fabric timer; its
descriptor, the requesting die, its target die or chip, its new transaction tag, whether a bridge or port on its path had exhausted its retries, and when it was
re-issued: from then on it asserts HOLD to its descriptor's module operation timer (R464). -/
structure Timed where
  kind   : Nat
  ring   : Nat
  seq    : Nat
  die    : Nat
  target : Nat
  tag    : Nat
  lower  : Bool
  since  : Nat := 0
  deriving DecidableEq, Repr

/-- The fault side of the primary Trelfort: when a record of a (die, class) pair was last written (R460), reports that wait
for a PRIMARY, the report number per die (R640), congested arbitration points (R456), corrected-error windows (R462), the
pools of R472 that a fatal disagreement took out, ALERT#, and a FATAL report whose reset has
not begun (R458), with its class and die; and per port the intervals in which it has asserted HOLD while it retried (R464), the last
one open while it does. -/
structure Flt where
  lastRec  : Tbl Nat := []
  waiting  : List WaitReport := []
  repNo    : Tbl Nat := []
  congest  : List (Nat × Nat × Nat × Nat) := []
  ceWin    : Tbl (List Nat) := []
  ceDone   : Tbl Bool := []
  latest   : Tbl Nat := []
  alert    : Bool := false
  fatal    : Bool := false
  fatalCls : Nat := 0
  fatalDie : Nat := 0xFF
  badPools : List Nat := []
  bridges  : List Nat := []
  degraded : Bool := false
  timed    : List Timed := []
  holds    : Tbl (List (Nat × Option Nat)) := []
  deriving DecidableEq, Repr

/-- A management notice that repeats until it is acknowledged (spec/14 R621). -/
structure Notice where
  seq    : Nat
  kind   : Nat
  cut    : Nat
  record : List Byte
  since  : Nat
  sent   : Nat
  deriving DecidableEq, Repr

/-- The Event Recorder beside its registers (spec/15 R646-R649): per die the SEQ of the next record to copy to flash and how many
records its flash copy holds; whether the copy has stopped, and then the SEQ of the next record that is counted as not copied; an
erase with its instant; when OP_HOURS was last saved. -/
structure Evr where
  next0 : Nat := 0
  next1 : Nat := 0
  n0    : Nat := 0
  n1    : Nat := 0
  full  : Bool := false
  seen  : Nat := 0
  eraseAt : Option Nat := none
  savedAt : Nat := 0
  deriving DecidableEq, Repr

/-! ### The array (spec/03, spec/04, spec/09) -/

/-- A tile dealt to a cell (block × 64 + cell) and not yet folded: its round in the cell's list, the next chunk of K, its
tile tag once its first chunk has come (R154), the accumulation stack of each element
in row order (R140), and the checksums of its Strainer: P and S per column, Q and T per row (R419). -/
structure Tile where
  num   : Nat
  cell  : Nat
  round : Nat
  next  : Nat := 0
  tag   : Option Nat := none
  stack : List (List (Option FVal)) := []
  p     : List FVal := []
  s     : List FVal := []
  q     : List FVal := []
  t     : List FVal := []
  deriving DecidableEq, Repr

/-- An operand element as the cell multiplies it: its value after flush and scale, the halves of the F32 split (R131), and whether
it was flushed. -/
structure Opnd where
  v  : FVal
  hi : FVal
  lo : FVal
  fl : Bool
  deriving DecidableEq, Repr

/-- A chunk that the Tiler has fetched into the Tiler area of a cell's block (R194): the cell, its tile, the number of the chunk, and the
operands of the tile's rows and columns. -/
structure PreChunk where
  cell  : Nat
  tile  : Nat
  chunk : Nat
  rows  : List (List Opnd)
  cols  : List (List Opnd)
  deriving DecidableEq, Repr

/-- The ARRAY descriptor that runs (R169): its active cells (R180), the tiles of the cells' lists, how many tiles are
left, the INF_OUT and NAN_OUT counts, whether an input was flushed, how often a lockstep mismatch has hit it (R429),
the blocks whose staging SRAM is unmapped (R213), and the chunks that were fetched ahead for its cells (R194, R196). -/
structure ArrRun where
  ring   : Nat
  seq    : Nat
  op     : Nat
  ticket : Nat
  active : List Nat
  tiles  : List Tile
  left   : Nat
  infOut : Nat := 0
  nanOut : Nat := 0
  flush  : Bool := false
  hits   : Nat := 0
  begun  : Bool := false
  gone   : List Nat := []
  pre    : List PreChunk := []
  deriving DecidableEq, Repr

/-- A folded tile: its cell, its folded values and their encodings in the accumulator format, its checksums, the pages it wrote, and how it stands: 0 the verdict is
outstanding, 1 passed or settled, 2 failed and to be replayed, 3 withdrawn (R422-R427, R432). -/
structure Folded where
  num   : Nat
  cell  : Nat
  vals  : List FVal
  words : List Nat
  p     : List FVal
  s     : List FVal
  q     : List FVal
  t     : List FVal
  pages : List Nat
  standing : Nat := 0
  deriving DecidableEq, Repr

/-- An unsettled ticket (R430): the descriptor that took it, its folded tiles, whether the descriptor has stopped running,
whether it is fenced (R434), the class and source of a withdrawal, the link die and instant at which its data first left the module (R437), and
the pages of partial writes whose old CRC held or failed (R414). -/
structure TicketSt where
  num     : Nat
  ring    : Nat
  seq     : Nat
  bytes   : List Byte
  param   : List Byte
  tiles   : List Folded := []
  ended   : Bool := false
  fenced  : Bool := false
  withdrawn : Option Nat := none
  die     : Nat := 0xFF
  unit    : Nat := 0xFF
  cell    : Nat := 0xFF
  firstSend : Option (Nat × Nat) := none
  okPages : List Nat := []
  badPages : List Nat := []
  deriving DecidableEq, Repr

/-- An audit under way (R443): the descriptor, the tile, its first cell, the audit cell, the encodings of the values that the tile's
operands give, those of the first cell once it has folded, and, after a comparison that differed, the audit cell's (R444). -/
structure Audit where
  ring   : Nat
  seq    : Nat
  bytes  : List Byte
  param  : List Byte
  tile   : Nat
  cell   : Nat
  auditCell : Nat
  truth  : List Nat
  orig   : Option (List Nat) := none
  again  : Option (List Nat) := none
  deriving DecidableEq, Repr

/-- The array function beside its registers: the running descriptor, the descriptor chosen for the overlap window (R192)
with its cells and the chunks fetched ahead into the idle half of the Tiler areas (R194), the half that the running descriptor uses and
the (block, half) pairs of Tiler areas that other masters have written (R188), fence bits that a write clears at the next descriptor start (R198), the last audited STEP, the STEP whose
first sweep is audited, the instant at which the array was last busy (R720), and the events counted for the running descriptor, by die
and EVENT (R668). -/
structure Arr where
  run     : Option ArrRun := none
  prefetch : Option (Nat × Nat) := none
  preCells : List Nat := []
  pre     : List PreChunk := []
  half    : Nat := 0
  tilerHits : List (Nat × Nat) := []
  clearBlock : Nat := 0
  clearCell  : Tbl Nat := []
  tickets : List TicketSt := []
  audits  : List Audit := []
  lastAudit : Option Nat := none
  trace   : List (Nat × List Nat) := []
  busyAt  : Nat := 0
  evs     : Tbl Nat := []
  deriving DecidableEq, Repr


/-! ### Gather and Update engines (spec/05, spec/06) -/

/-- A list position of a GATHER: its index, how it stands (0 absent, 1 to be issued, 2 outstanding, 3 arrived), the tag of
its remote request, the row's owner (0xFFFF: this module) and address, the instant of its issue, and its payload. -/
structure GPos where
  idx  : Nat
  st   : Nat
  tag  : Nat := 0
  chip : Nat := 0xFFFF
  slot : Nat := 0
  addr : Nat := 0
  since : Nat := 0
  data : List Byte := []
  deriving DecidableEq, Repr

/-- A GATHER that has begun (R240-R259): its directory entry, bags and positions, whether the target accepted the range
(R257), the bags written, and the positions made absent (R245). -/
structure GatherRun where
  ring   : Nat
  seq    : Nat
  region : Nat
  entry  : List Byte
  bags   : List (List GPos)
  weights : List Nat := []
  opened : Bool := false
  openTag : Nat := 0
  written : List Nat := []
  badIdx : Nat := 0
  deriving DecidableEq, Repr

/-- The output range of a GATHER of another module that this module accepted (R257): who sends its rows, the TAG of its OPEN message, and
the places written so far (R249). -/
structure RowsIn where
  src  : Nat
  tag  : Nat
  done : List (Nat × Nat) := []
  deriving DecidableEq, Repr

/-- A descriptor of an Update engine that has started (R287-R300): the block whose vector engine runs it, if one does, the
effective slot it uses and whether that is the pending one (R275), and its counts; `fault` is the class of the fault that interrupted it, until a vector engine
takes over. -/
structure UpdRun where
  ring   : Nat
  seq    : Nat
  ve     : Option Nat := none
  begun  : Bool := false
  slot   : List Byte := []
  pend   : Bool := false
  singular  : Nat := 0
  nonfinite : Nat := 0
  diag   : Bool := false
  fault  : Option Nat := none
  deriving DecidableEq, Repr


/-! ### Reduce engines (spec/08) -/

/-- A RESULT that a rank receives (R379, R400): its sequence number, E, lane bytes, BOUND_EXT, H, the segments that have come,
whether it is final, and the instant of its first packet. -/
structure HeldRes where
  seq   : Nat
  e     : Int
  lane  : Nat
  ext   : Bool
  h     : Nat
  segs  : List (Nat × List Byte)
  final : Bool
  since : Nat
  deriving DecidableEq, Repr

/-- A REDUCE as a rank (R363-R402): its descriptor, contribution version and epoch, statistic, elements x (R365), item CRC, the pending pages
its data was read from (page, ticket), whether the version travelled UNCONFIRMED, the fenced ticket it waits on, the
instant of a BUSY, the RESULT it holds, the result sequences dropped and confirmed in advance, and whether it has ended. -/
structure RankRun where
  ring   : Nat
  seq    : Nat
  eng    : Nat
  bytes  : List Byte
  param  : List Byte
  ver    : Nat := 0
  epoch  : Nat := 0
  stat   : Int := 0
  xs     : List FVal := []
  c      : Nat := 0
  deps   : List (Nat × Nat) := []
  unconf : Bool := false
  lost   : Option Nat := none
  busyAt : Option Nat := none
  res    : Option HeldRes := none
  gone   : List Nat := []
  sure   : List Nat := []
  tokens : List (Nat × Nat) := []
  closed : Bool := false
  deriving DecidableEq, Repr

/-- What a home knows of a rank: its chip, engine and GEN, its version and statistic (none while it is missing), the
retracted version's statistic, its deadline, whether a grant is outstanding, the segments of its contribution, the whole
contribution (C, payload) once it has come, whether it is consumed, and the tokens applied to it (KIND, VERSION). -/
structure HomeRank where
  rank   : Nat
  chip   : Nat
  eng    : Nat
  gen    : Nat
  layer  : Nat
  op     : Nat
  ver    : Nat
  stat   : Option Int
  old    : Option Int := none
  dead   : Nat := 0
  granted : Bool := false
  segs   : List (Nat × List Byte) := []
  got    : Option (Nat × List Byte) := none
  unconf : Bool := false
  eaten  : Bool := false
  c      : Nat := 0
  tokens : List (Nat × Nat) := []
  deriving DecidableEq, Repr

/-- An entry of the retraction journal (R394). -/
structure JEntry where
  rank    : Nat
  ver     : Nat
  stat    : Int
  c       : Nat
  payload : List Byte
  since   : Nat
  deriving DecidableEq, Repr

/-- A bucket at its home (R363-R403). `final` marks a bucket whose result is final; its slot is free. -/
structure HomeBucket where
  eng    : Nat
  coll   : Nat
  step   : Nat
  bucket : Nat
  n      : Nat
  mode   : Nat
  count  : Nat
  epoch  : Nat := 0
  e      : Option Int := none
  lanes  : List Int := []
  resSeq : Nat := 0
  sent   : Bool := false
  final  : Bool := false
  extSaid : Bool := false
  ranks  : List HomeRank := []
  jrnl   : List JEntry := []
  deriving DecidableEq, Repr


/-! ### Held items (spec/09 R438-R442) -/

/-- An UNCONFIRMED posted write in the quarantine buffer of a link die: its SRC, ITEM and ticket, its data as (global offset,
bytes) in arrival order, and the instant of its first packet. -/
structure QItem where
  die    : Nat
  src    : Nat
  item   : Nat
  ticket : Nat
  data   : List (Nat × List Byte)
  since  : Nat
  deriving DecidableEq, Repr

/-- The quarantine buffers, the tokens that came before their item with the instant of each (R440), and the tokens applied
to quarantined items: SRC, ITEM, KIND (R442). `fenced` lists the fenced tickets of each link die (R478), `msgs` the fence
messages on their way: link die, ticket (R477). -/
structure Quar where
  items : List QItem := []
  early : List (Packet × Nat) := []
  done  : List (Nat × Nat × Nat) := []
  fenced : Tbl (List Nat) := []
  msgs  : List (Nat × Nat) := []
  deriving DecidableEq, Repr


/-- A scan test in progress (R449): its descriptor, block and Trelfort, the old mask bit, the array descriptor that it waits
for, and whether the block is held in reset. -/
structure Scan where
  ring  : Nat
  seq   : Nat
  block : Nat
  trf   : Nat
  mask  : Bool
  waits : Option (Nat × Nat) := none
  held  : Bool := false
  deriving DecidableEq, Repr


/-! ### Observation (spec/16) -/

/-- Counters (key die × 48 + n), pending Whistles as (TIME_NS, ACTION), trace buffers (key die × 2^18 + offset:
R24 gives every die one, the rules give blocks and Trelforts packets for theirs), trace settings in force, packets since the
last SYNC, packets lost since the last LOST (R684), packets left after a trigger,
the WHISTLE packets heard as (SRC, ID), where each K-core trace buffer is read and written, and the two TAPs. -/
structure Obs where
  counters : Tbl Nat := []
  whistles : List (Nat × Nat) := []
  sendId   : Nat := 0
  trBuf    : Tbl Byte := []
  trCfg    : Word := 1#64
  trBase   : Word := 0#64
  trDirty  : Bool := false
  trCount  : Tbl Nat := []
  trLost   : Tbl Nat := []
  trPost   : Tbl Nat := []
  heard    : List (Nat × Nat) := []
  kRead    : Tbl Nat := []
  kWrite   : Tbl Nat := []
  ir0      : Nat := 1
  ir1      : Nat := 1
  bsr      : Nat := 0
  pads     : Nat := 0
  extest   : Bool := false
  ijtag    : Option Nat := none
  macKey0  : Option (List Byte) := none
  macKey1  : Option (List Byte) := none
  deriving DecidableEq, Repr

/-! ### Hangs and resets (spec/11) -/

/-- A HANG_PROBE that a stalled egress queue sent (R488): its port, VC, CLASS and PROBE_ID, the head packet with the instant at
which it joined the queue, and when the probe was last sent. -/
structure Probe where
  port  : Nat
  vc    : Nat
  cls   : Nat
  id    : Nat
  pkt   : Packet
  since : Nat
  sent  : Nat
  deriving DecidableEq, Repr

/-- A reset in progress (R495-R504): its level, when it started, the RESET descriptors that complete at its end, the blocks
that have beaten since their release, whether MOD_RESET# holds it, and its CAUSE. -/
structure ResetRun where
  level  : Nat
  start  : Nat
  descs  : List (Nat × Nat) := []
  beaten : List Nat := []
  held   : Bool := false
  cause  : Nat := 0
  deriving DecidableEq, Repr

/-- The detectors and the reset in progress: the wait edges of the last sample (waiter, waited-on function, ring and RING_SEQ of
the blocked descriptor), probes and the next PROBE_ID, the last beat or miss and the misses of each Lantern source (R491), and
the Trelforts that still have to copy the summary of a dump (R513). -/
structure Hang where
  edges   : List (Nat × Nat × Nat × Nat) := []
  probes  : List Probe := []
  probeNo : Nat := 0
  beatAt  : Tbl Nat := []
  misses  : Tbl Nat := []
  reset   : Option ResetRun := none
  dumped  : Bool := false
  toFlash : List Nat := []
  deriving DecidableEq, Repr


/-! ### Job continuity (spec/12) -/

/-- A write-mode CADDY_RECORD that waits for its buddies (R525, R528): its descriptor, STEP, LOSS_DIGEST, when the copies were sent,
what each answered, and whether this module found a difference (R527). -/
structure CaddyRun where
  ring   : Nat
  seq    : Nat
  step   : Nat
  digest : Nat
  sentAt : Nat
  acks   : List (Option Nat)
  differs : Bool
  deriving DecidableEq, Repr


/-! ### Checkpoints (spec/13) -/

/-- A cut in progress (R561-R578): the descriptor that took it, while it has no outcome; the dies that swapped; the engines
that finished; the image pages copied; whether it is full, and whether it goes directly into the shadow (R574). -/
structure Cut where
  ring     : Nat
  seq      : Nat
  step     : Nat
  jobId    : Nat
  trigger  : Nat
  waitSeal : Bool
  waitDrain : Bool
  full     : Bool
  direct   : Bool
  ruleVer  : Nat := 0
  swapped  : List Nat := []
  finished : List Nat := []
  copied   : Nat := 0
  deriving DecidableEq, Repr

/-- The Sump beside its registers: the cut in progress, cut tokens that a die holds (R227) or that are on their way, the
delta entries used per stack (R571), the number of sealed cuts since RESTART (R575), the sealed cut that is being folded or drained
(CKP.STATUS.PHASE tells which), and the address of the set that the drain writes at each holder that it reaches (R581, R582). -/
structure Sump where
  cut     : Option Cut := none
  tokens  : List Nat := []
  held    : List Nat := []
  delta   : Tbl Nat := []
  ordinal : Nat := 0
  sealed  : Option Cut := none
  targets : List (Option Nat) := []
  deriving DecidableEq, Repr


/-! ### Trelforts and the risk scorer (spec/14) -/

/-- The two Trelfort dies beside their registers: whether each has halted and since when, a SWAP in progress with its instant, the replies
kept (source and die, SEQ, TYPE, body) oldest first (R618), the anti-rollback fuse counters (R606), whether each has run since its
reset, and whether the want of a standby was reported (R612). -/
structure Trf where
  halted0  : Option Nat := none
  halted1  : Option Nat := none
  swapAt   : Option Nat := none
  replies  : List (Nat × Nat × Nat × List Byte) := []
  fuse0    : Nat := 0
  fuse1    : Nat := 0
  ran0     : Bool := false
  ran1     : Bool := false
  noStandby : Bool := false
  deriving DecidableEq, Repr

/-- The risk scorer (R622-R624): the buckets of each subject, current first, and when the current bucket began. -/
structure Risk where
  buckets : Tbl (List Nat) := []
  since   : Nat := 0
  deriving DecidableEq, Repr


/-! ### Power and start-up (spec/17, spec/14) -/

/-- A feed (R625, R740): whether its voltage is in 700-900 V, whether it charges its input capacitance, whether it is charged, the
instant from which its qualification counts, and the instant at which it qualified. -/
structure Feed where
  inRange  : Bool := false
  charging : Bool := false
  charged  : Bool := false
  since    : Option Nat := none
  qualAt   : Nat := 0
  deriving DecidableEq, Repr

/-- Power and start-up beside the registers: PWR_GOOD; the feeds; the thermal cap of R724 and whether the current of R739 is
above its limit; the frequency that the PLLs have reached (R717); cells gated (R720); a warning episode, a warm coolant inlet
reported, and THERMTRIP# with the instant it was asserted (R725); the beginning of start-up, of its step 3 and of its step 4;
cold resets in a row that have not reached READY (R612); whether ENUM_IN has shown a transition or a valid token since step 3
(R710), and when this module last sent its token. -/
structure Pwr where
  good     : Bool := false
  feedA    : Feed := {}
  feedB    : Feed := {}
  thermCap : Nat := 1000
  overCur  : Bool := false
  mhz      : Nat := 1000
  gated    : Bool := false
  doze     : Bool := false
  hot      : Bool := false
  inletHot : Bool := false
  tripAt   : Option Nat := none
  startAt  : Nat := 0
  step3At  : Nat := 0
  step4At  : Nat := 0
  colds    : Nat := 0
  stopped  : Bool := false
  tripped  : Bool := false
  capAt    : Nat := 0
  enumMove : Bool := false
  enumOk   : Bool := false
  tokenAt  : Nat := 0
  deriving DecidableEq, Repr



/-- Why the block stops. No rule of the spec stops it: a fault of the hardware is a report (spec/10), so no meaning raises
one of these. -/
inductive Fault where
  /-- Raised by no meaning; safe, since a run that never stops allows whatever the hardware does next. -/
  | none
  deriving DecidableEq, Repr

/-- Why a command is refused. -/
inductive Refusal where
  /-- An arm of exec whose command has no meaning yet, by its mnemonic; safe, since nothing is then claimed of it. -/
  | notModelled (mnemonic : String)
  deriving DecidableEq, Repr

/-- The state of the block. -/
structure State where
  /-- Commands that wait, first in first out. -/
  pending  : List Instr := []
  /-- The set-up registers, keyed by BAR0 offset; an unlisted one reads as its Reset column. -/
  regs     : Tbl Word := []
  /-- The settings in force: what each configuration register held when its function last passed RESTART (R72, R111). -/
  inForce  : Tbl Word := []
  /-- Late replies dropped, per function (R118). -/
  genStale : Tbl Nat := []
  /-- The instant at which a function entered DRAIN (R115). -/
  drainAt  : Tbl Nat := []
  /-- The ring a function served last (R86). -/
  rrLast   : Tbl Nat := []
  mem      : Mem := {}
  clk      : Clock := {}
  /-- Submission rings, keyed by number. -/
  sq       : Tbl SqSt := []
  started  : List Started := []
  unconf   : List Unconf := []
  pcie     : Pcie := {}
  flt      : Flt := {}
  evr      : Evr := {}
  notices  : List Notice := []
  noticeNo : Nat := 0
  pages    : List PendPage := []
  heldWr   : List HeldWrite := []
  waitRd   : List WaitRead := []
  /-- The stamp of the next request that has to wait (R224). -/
  order    : Nat := 0
  fab      : Fab := {}
  tor      : Tor := {}
  /-- How many free values have been drawn. -/
  freeCtr  : Nat := 0
  /-- What has left the module, oldest first. -/
  out      : List Out := []
  /-- Dies held in reset or without power, by die number (R9); every die at power-up. -/
  dark     : List Nat := List.range 0x50
  obs      : Obs := {}
  /-- The state journal to the standby that it has not applied (spec/14 R611): window offset in its own SRAM, bytes. -/
  journal  : List (Nat × List Byte) := []
  arr      : Arr := {}
  sump     : Sump := {}
  gathers  : List GatherRun := []
  rowsIn   : List RowsIn := []
  /-- Keyed by Ledger die. -/
  upd      : Tbl (Option UpdRun) := []
  /-- The next burst of each stack's patrol scrubber (R223). -/
  scrub    : Tbl Nat := []
  ranks    : List RankRun := []
  homes    : List HomeBucket := []
  quar     : Quar := {}
  scan     : Option Scan := none
  hang     : Hang := {}
  trelfort : Trf := {}
  risk     : Risk := {}
  pwr      : Pwr := {}
  caddy    : Option CaddyRun := none
  deriving DecidableEq, Repr

/-- The module at power-up, before POWER_UP: every register at its Reset column (spec/19 R765-R773, R777), phase BRINGUP,
nothing in any buffer, no command waiting. -/
def State.reset : State := {}

end Sys2Proof.Machine
end

