-- ==== Sys2Proof/Machine/Ops.lean ====
section
/-!
DEFINITION. Named operations over registers, functions, time, memory and tags. Every meaning goes through them.
-/
namespace Sys2Proof.Machine

open Sys2Proof

/-! ### Registers -/

/-- The stored word of the register at a BAR0 offset. -/
def State.reg (s : State) (off : Nat) : Word := tblGet regReset s.regs off

/-- Store the word of a register. -/
def State.setReg (s : State) (off : Nat) (w : Word) : State := { s with regs := tblPut regReset s.regs off w }

/-- A field of a register. -/
def State.fget (s : State) (off : Nat) (f : Fld) : Nat := f.get (s.reg off)

/-- Set a field of a register. -/
def State.fput (s : State) (off : Nat) (f : Fld) (v : Nat) : State := s.setReg off (f.put (s.reg off) v)

/-- Add to a counter field, which stops at its largest value. -/
def State.bump (s : State) (off : Nat) (f : Fld) (n : Nat) : State := s.fput off f (satAdd f.max (s.fget off f) n)

/-- Add to a counter field that counts modulo its width. -/
def State.count (s : State) (off : Nat) (f : Fld) (n : Nat) : State := s.fput off f (s.fget off f + n)

/-- Take from a counter field, not below zero. -/
def State.lower (s : State) (off : Nat) (f : Fld) (n : Nat) : State := s.fput off f (s.fget off f - n)

/-- A field of a configuration register as it is in force (R72, R111). -/
def State.cfg (s : State) (off : Nat) (f : Fld) : Nat := f.get (tblGet regReset s.inForce off)

/-- One bit of a register. -/
def State.rbit (s : State) (off b : Nat) : Bool := bitOf (s.reg off).toNat b

/-- Set one bit of a register. -/
def State.putBit (s : State) (off b : Nat) (v : Bool) : State := s.fput off ⟨b, b⟩ (if v then 1 else 0)

/-- What leaves the module. -/
def State.emit (s : State) (o : Out) : State := { s with out := s.out ++ [o] }

/-- n free bytes (assumption 4): values the spec leaves open. -/
def freeBytes (s : State) (n : Nat) : List Byte := (List.range n).map (fun i => Config.freeByte (s.freeCtr + i))

/-- The state after n free values were drawn. -/
def State.drew (s : State) (n : Nat) : State := { s with freeCtr := s.freeCtr + n }

/-! ### Counters (spec/16 R665-R669) -/

/-- What an unlisted entry of a table of numbers or of flags reads as. -/
def falseAt (_ : Nat) : Bool := false
def zeroAt (_ : Nat) : Nat := 0

/-- R665-R668. Counter c of a die counts an event with a LAYER_ID and OP_ID; `qual` judges QUAL, and `check` marks an event
that EXCL_CHECK leaves out. -/
def State.counts (s : State) (die c ev layer op : Nat) (qual : Nat → Bool) (check : Bool) : Bool :=
  let e := s.reg (Reg.OBS_EVT_SEL die c)
  let f := s.reg (Reg.OBS_FILTER die c)
  Fld.OBS_EVT_SEL_EVENT.get e == ev && ev != 0 && qual (Fld.OBS_EVT_SEL_QUAL.get e) &&
    !(check && Fld.OBS_EVT_SEL_EXCL_CHECK.get e == 1) &&
    Fld.OBS_FILTER_LAYER_LO.get f ≤ layer && layer ≤ Fld.OBS_FILTER_LAYER_HI.get f &&
    Fld.OBS_FILTER_OP_LO.get f ≤ op && op ≤ Fld.OBS_FILTER_OP_HI.get f

/-- Counter c of a die counts n more (R665). -/
def bumpCounter (t : Tbl Nat) (die c n : Nat) : Tbl Nat :=
  tblPut zeroAt t (die * 48 + c) (satAdd (2 ^ 64 - 1) (tblGet zeroAt t (die * 48 + c)) n)

/-- R665. n events of a die are counted, unless the counters are held (R669). -/
def State.evCount (s : State) (die ev n layer op : Nat) (qual : Nat → Bool := fun _ => true) (check : Bool := false) : State :=
  if n = 0 || s.fget Reg.OBS_WHISTLE_STATUS Fld.OBS_WHISTLE_STATUS_HELD = 1 then s
  else
    let hit := (List.range 48).filter (fun c => s.counts die c ev layer op qual check)
    { s with obs := { s.obs with counters := hit.foldl (fun t c => bumpCounter t die c n) s.obs.counters } }

/-! ### Functions (R103-R105) -/

def fnRUN : Nat := 0
def fnDRAIN : Nat := 1
def fnSTOPPED : Nat := 2
def fnCHANGE : Nat := 3
def fnRESTART : Nat := 4

/-- STATE of function f. -/
def State.fnState (s : State) (f : Nat) : Nat := s.fget (Reg.MOD_FN f) Fld.MOD_FN_STATE

/-- Set STATE of function f. -/
def State.setFn (s : State) (f st : Nat) : State := s.fput (Reg.MOD_FN f) Fld.MOD_FN_STATE st

/-- GEN of function f. -/
def State.gen (s : State) (f : Nat) : Nat := s.fget (Reg.MOD_FN f) Fld.MOD_FN_GEN

/-- R117. GEN advances, and 0xFF becomes 0x01. -/
def State.bumpGen (s : State) (f : Nat) : State :=
  s.fput (Reg.MOD_FN f) Fld.MOD_FN_GEN (if s.gen f ≥ 0xFF then 1 else s.gen f + 1)

/-- Every function number that R103 assigns. -/
def allFns : List Nat := (List.range 0x300).filter fnAssigned

/-! ### Time (R651) -/

/-- The TCLK count of the primary's copy. -/
def Clock.count (c : Clock) : Nat := c.now - c.start

/-- What a slew under way has added to time: 500 ppm of the time since it began, up to its whole amount (R653). -/
def Clock.slewPart (c : Clock) : Int :=
  if c.slewing then
    let run := (c.count - c.slewAt) / 2000
    if c.slewD < 0 then - (min run (-c.slewD).toNat : Int) else (min run c.slewD.toNat : Int)
  else 0

/-- Module time t in nanoseconds (R651). -/
def State.time (s : State) : Int :=
  (s.clk.count : Int) + s.clk.offset + s.clk.acc + (((s.clk.count : Int) - s.clk.base) * s.clk.rate) / 1000000000 +
    s.clk.slewPart

/-- TIME_NS. -/
def State.timeNs (s : State) : Nat := tc 32 s.time

/-- ERA. -/
def State.era (s : State) : Nat := tc 32 (s.time / 4294967296)

/-- Bring the clock to an instant, if it has not reached it: an event that a timer causes finds at least that much time
passed. -/
def State.reach (s : State) (instant : Nat) : State := { s with clk := { s.clk with now := max s.clk.now instant } }

/-- Bring module time to at least t. -/
def State.reachTime (s : State) (t : Int) : State :=
  if s.time < t then s.reach (s.clk.now + (t - s.time).toNat) else s

/-- R654. TIME_NS has reached v. -/
def State.reached (s : State) (v : Nat) : Bool := decide (subMod 32 s.timeNs v < 2 ^ 31)

/-- Move the clock on until TIME_NS has reached v (R654). -/
def State.reachNs (s : State) (v : Nat) : State :=
  if s.reached v then s else s.reach (s.clk.now + subMod 32 v s.timeNs)

/-! ### Places -/

/-- Where an offset of this module leads (R36). HBM places are stack × 2^36 + stack address, staging places are
block × 0x800_0000 + offset. -/
inductive Loc where
  | hbm (a : Nat)
  | staging (a : Nat)
  | reg (off : Nat)
  | trf (off : Nat)
  | unmapped
  deriving DecidableEq, Repr

/-- R43. Block b has power and is out of reset. -/
def State.blockUp (s : State) (b : Nat) : Bool := !(s.dark.contains b)

/-- R36-R38, R42, R43, R45, R54. The place of a module offset. -/
def State.locOf (s : State) (off : Nat) : Loc :=
  if off < 0x010000000000 then .hbm ((off / 4096) % 16 * 2 ^ 36 + off / 65536 * 4096 + off % 4096)
  else if off < 0x020000000000 then .hbm (off - 0x010000000000)
  else if off < 0x020200000000 then
    let o := off - 0x020000000000
    if o % 0x8000000 < 0x6000000 && s.blockUp (o / 0x8000000) then .staging o else .unmapped
  else if 0x030000000000 ≤ off && off < 0x030004000000 then
    if off - 0x030000000000 < 0x1000000 then .reg (off - 0x030000000000) else .unmapped
  else if 0x040000000000 ≤ off && off < 0x040001000000 then
    if (off - 0x040000000000) % 0x800000 < 0x600000 then .trf (off - 0x040000000000) else .unmapped
  else .unmapped

/-- The module's chip number, when valid (R32). -/
def State.chip (s : State) : Option Nat :=
  let w := s.reg Reg.MOD_CHIP_NUMBER
  if bitOf w.toNat 16 then some (bitsOf w.toNat 15 0) else none

/-- A global address leads into this module (R31), to another chip, or nowhere (R33). -/
inductive GLoc where
  | own (l : Loc)
  | remote (chip off : Nat)
  | none
  deriving DecidableEq, Repr

/-- R29, R31, R33. -/
def State.gloc (s : State) (addr : Nat) : GLoc :=
  let c := addr / 2 ^ 48
  let off := addr % 2 ^ 48
  if c = 0xFFFF then .own (s.locOf off)
  else match s.chip with
    | some own => if c = own then .own (s.locOf off) else .remote c off
    | none => .none

/-- The place of a global address in this module's HBM, if it lies there. -/
def State.hbmOf (s : State) (addr : Nat) : Option Nat :=
  match s.gloc addr with
  | .own (.hbm a) => some a
  | _ => none

/-! ### Memory of the module: HBM and staging SRAM as one space of places; staging starts at 2^40. A page is a place
divided by 4096, so HBM pages lie below 2^28 and staging pages above. -/

/-- What an unlisted HBM place reads as: 0xFF in the FMT byte of a tag (an OPEN page, R410), else zero (assumption 5). -/
def hbmDefault (a : Nat) : Byte :=
  if 0xFE8000000 ≤ a % 2 ^ 36 && a % 2 ^ 36 < 0xFF0000000 && a % 8 == 7 then 0xFF#8 else 0#8

/-- What an unlisted byte of the other memories reads as (assumption 5). -/
def zeroByte (_ : Nat) : Byte := 0#8

/-- What an erased or unlisted byte of flash reads as (assumption 5). -/
def erasedByte (_ : Nat) : Byte := 0xFF#8

/-- The canonical form of the memories: keys rising, no entry equal to what an unlisted place reads as. -/
def Mem.wf (m : Mem) : Bool :=
  tblWf hbmDefault m.hbm && tblWf zeroByte m.staging && tblWf zeroByte m.trf && tblWf zeroByte m.hostW &&
    tblWf erasedByte m.flash0 && tblWf erasedByte m.flash1

/-- One byte of HBM or staging SRAM. -/
def Mem.byte (m : Mem) (a : Nat) : Byte :=
  if a < 2 ^ 40 then tblGet hbmDefault m.hbm a else tblGet zeroByte m.staging (a - 2 ^ 40)

/-- Write one byte of HBM or staging SRAM. -/
def Mem.setByte (m : Mem) (a : Nat) (b : Byte) : Mem :=
  if a < 2 ^ 40 then { m with hbm := tblPut hbmDefault m.hbm a b }
  else { m with staging := tblPut zeroByte m.staging (a - 2 ^ 40) b }

/-- n bytes from place a. -/
def Mem.read (m : Mem) (a : Nat) : Nat → List Byte
  | 0 => []
  | n + 1 => m.byte a :: m.read (a + 1) n

/-- Bytes written from place a on. -/
def Mem.write (m : Mem) (a : Nat) : List Byte → Mem
  | [] => m
  | b :: t => (m.setByte a b).write (a + 1) t

/-- The bytes of a table of bytes. -/
def rdTbl (m : List Host.Cell) (a n : Nat) : List Byte := tblGetList zeroByte m a n

/-- Bytes of a flash, and bytes programmed into it. -/
def rdFlash (m : List Host.Cell) (a n : Nat) : List Byte := tblGetList erasedByte m a n
def wrFlash (m : List Host.Cell) (a : Nat) (d : List Byte) : List Host.Cell := tblPutList erasedByte m a d

/-- Bytes written into a table of bytes. -/
def wrTbl (m : List Host.Cell) (a : Nat) (d : List Byte) : List Host.Cell := tblPutList zeroByte m a d

/-- The pages that n bytes from place a touch. -/
def pagesOf (a n : Nat) : List Nat :=
  if n = 0 then [] else (List.range ((a + n - 1) / 4096 - a / 4096 + 1)).map (a / 4096 + ·)

/-- The 64-byte bursts that n bytes from place a touch. -/
def burstsOf (a n : Nat) : List Nat :=
  if n = 0 then [] else (List.range ((a + n - 1) / 64 - a / 64 + 1)).map (a / 64 + ·)

/-- R221. Some burst of the n bytes holds an uncorrectable error. -/
def State.poisonedAt (s : State) (a n : Nat) : Bool := (burstsOf a n).any (s.mem.poison.contains ·)

/-- A write of n bytes from place a replaces the whole burst b. -/
def replaces (a n b : Nat) : Bool := a ≤ b * 64 && b * 64 + 64 ≤ a + n

/-- A write that replaces a whole burst ends its error; the reports of a burst that only the scrubber has read become CORRECTED (R221,
assumption 38). -/
def Mem.cleanse (m : Mem) (a n : Nat) : Mem :=
  { m with poison := m.poison.filter (fun b => !replaces a n b), scrubbed := m.scrubbed.filter (fun b => !replaces a n b),
           replaced := m.replaced + (m.scrubbed.filter (replaces a n)).length }

/-- R9, R10. The region of an HBM page. -/
def regionOfPage (p : Nat) : Nat := p / 2 ^ 24 / 2

/-- The key of a dirty bit: stack, bank, page (R225). -/
def dirtyKey (stack bank page : Nat) : Nat := (stack * 2 + bank) * 2 ^ 24 + page

/-- The active dirty bank of the region (R226). -/
def State.activeBank (s : State) (r : Nat) : Nat := s.fget (Reg.LDG_DIRTY_CTL r) Fld.LDG_DIRTY_CTL_BANK

/-- R225. Set the dirty bit of an HBM page in its active bank. -/
def State.setDirty (s : State) (page : Nat) : State :=
  if page < 2 ^ 28 then
    { s with mem := { s.mem with
        dirty := tblPut falseAt s.mem.dirty (dirtyKey (page / 2 ^ 24) (s.activeBank (regionOfPage page)) (page % 2 ^ 24)) true } }
  else s

/-- The dirty bit of an HBM page in the inactive bank. -/
def State.inactiveDirty (s : State) (page : Nat) : Bool :=
  tblGet falseAt s.mem.dirty (dirtyKey (page / 2 ^ 24) (1 - s.activeBank (regionOfPage page)) (page % 2 ^ 24))

/-! ### Block tags (R406-R415) -/

/-- FMT 0xFF and every other bit zero. -/
def openTag : Nat := 0xFF00000000000000
def openAt (_ : Nat) : Nat := openTag

/-- FMT, STEP_PAR and BLOCK_ID of a tag (R406). -/
def tagFmt (t : Nat) : Nat := bitsOf t 63 56
def tagStep (t : Nat) : Nat := bitsOf t 55 48
def tagId (t : Nat) : Nat := bitsOf t 47 32
def tagCrc (t : Nat) : Nat := bitsOf t 31 0

/-- A tag from its fields. -/
def mkTag (fmt step bid crc : Nat) : Nat :=
  fmt % 256 * 2 ^ 56 + step % 256 * 2 ^ 48 + bid % 65536 * 2 ^ 32 + crc % 2 ^ 32

/-- R410. Pages of the tag area and of the crash-dump area, which no unit checks. -/
def alwaysOpen (page : Nat) : Bool :=
  if page < 2 ^ 28 then
    let sp := page % 2 ^ 24
    (0xFE8000 ≤ sp && sp < 0xFF0000) || (0xFF0000 ≤ sp && page / 2 ^ 24 < 2)
  else false

/-- Where the tag of an HBM page lies (R408). -/
def tagPlace (page : Nat) : Nat := page / 2 ^ 24 * 2 ^ 36 + 0xFE8000000 + 8 * (page % 2 ^ 24)

/-- The tag of a page. -/
def State.tag (s : State) (page : Nat) : Nat :=
  if page < 2 ^ 28 then leNat (s.mem.read (tagPlace page) 8) else tblGet openAt s.mem.stagTag (page - 2 ^ 28)

/-- Write the tag of a page: a write of HBM where the page lies there (R408). -/
def State.putTag (s : State) (page t : Nat) : State :=
  if page < 2 ^ 28 then { s with mem := s.mem.write (tagPlace page) (leBytes 8 t) }
  else { s with mem := { s.mem with stagTag := tblPut openAt s.mem.stagTag (page - 2 ^ 28) t } }

/-- Write the tag of a page, with the dirty bit of the page of the tag area (R225). -/
def State.setTag (s : State) (page t : Nat) : State :=
  if page < 2 ^ 28 then (s.putTag page t).setDirty (tagPlace page / 4096) else s.putTag page t

/-- R410. A page that is OPEN. -/
def State.isOpen (s : State) (page : Nat) : Bool := alwaysOpen page || tagFmt (s.tag page) == 0xFF

/-- R410. A page that is WITHDRAWN. -/
def State.isWithdrawn (s : State) (page : Nat) : Bool := !alwaysOpen page && tagFmt (s.tag page) == 0xFE

/-- R406, R415. FMT becomes OPEN and STEP_PAR zero. -/
def State.openPage (s : State) (page : Nat) : State :=
  if alwaysOpen page then s else s.setTag page (mkTag 0xFF 0 (tagId (s.tag page)) (tagCrc (s.tag page)))

/-- A page becomes WITHDRAWN. -/
def State.withdrawPage (s : State) (page : Nat) : State :=
  if alwaysOpen page then s else s.setTag page (mkTag 0xFE (tagStep (s.tag page)) (tagId (s.tag page)) (tagCrc (s.tag page)))

/-- The 4,096 bytes of a page. -/
def State.pageBytes (s : State) (page : Nat) : List Byte :=
  s.mem.read (page * 4096) 4096

/-- R413. The BLOCK_ID of a page that no descriptor or table names: bits [27:12] of its address. -/
def defaultId (page : Nat) : Nat := if page < 2 ^ 28 then page % 65536 else (page - 2 ^ 28) % 0x8000

/-- R413. Seal a page: the CRC of its contents with the given fields. -/
def State.sealPage (s : State) (page fmt step bid : Nat) : State :=
  s.setTag page (mkTag fmt step bid (crc32c (s.pageBytes page)))

/-- The same by a Sump copy engine, which sets no dirty bit (R225). -/
def State.sealSump (s : State) (page fmt step bid : Nat) : State :=
  s.putTag page (mkTag fmt step bid (crc32c (s.pageBytes page)))

/-- Bytes into HBM or staging SRAM, with the dirty bits of R225. -/
def State.write (s : State) (a : Nat) (d : List Byte) : State :=
  (pagesOf a d.length).foldl (fun s p => s.setDirty p) { s with mem := (s.mem.write a d).cleanse a d.length }

/-- R188. The half of its block's Tiler area that a page of staging SRAM lies in, with the block. -/
def State.tilerHalf (s : State) (page : Nat) : Option (Nat × Nat) :=
  let off := (page - 2 ^ 28) % 0x8000
  let size := s.cfg Reg.ARR_TILER_CFG Fld.ARR_TILER_CFG_TILER_MIB * 256
  if 2 ^ 28 ≤ page && off < size then some ((page - 2 ^ 28) / 0x8000, 2 * off / size) else none

/-- R188. A write of another master into a Tiler area corrupts the operands that are held there. -/
def State.tilerWritten (s : State) (a n : Nat) : State :=
  if s.arr.run.isSome then
    { s with arr := { s.arr with tilerHits := s.arr.tilerHits ++ ((pagesOf a n).filterMap s.tilerHalf).filter (fun x => !s.arr.tilerHits.contains x) } }
  else s

/-- A plain write (R415): the bytes, the dirty bits, and every page touched OPEN; a Tiler area is not protected from it (R188). -/
def State.writePlain (s : State) (a : Nat) (d : List Byte) : State :=
  (pagesOf a d.length).foldl (fun s p => s.openPage p) ((s.write a d).tilerWritten a d.length)

/-- A write made by a Sump copy engine, which sets no dirty bit (R225). -/
def State.writeSump (s : State) (a : Nat) (d : List Byte) : State :=
  { s with mem := (s.mem.write a d).cleanse a d.length }

/-- Bytes that an engine leaves indeterminate: free values. -/
def State.looseAt (s : State) (a n : Nat) : State := (s.drew n).writeSump a (freeBytes s n)

/-! ### Roles (R607) -/

/-- The Trelfort that is PRIMARY, if one is. -/
def State.primary (s : State) : Option Nat :=
  if s.fget Reg.TRF_ROLE Fld.TRF_ROLE_PRIMARY = 0 then
    (if s.fget Reg.TRF_ROLE Fld.TRF_ROLE_T0_ROLE = 3 then some 0 else none)
  else (if s.fget Reg.TRF_ROLE Fld.TRF_ROLE_T1_ROLE = 3 then some 1 else none)

/-- The phase is SERVICE (R483). -/
def State.service (s : State) : Bool := s.fget Reg.MOD_RESET_STATUS Fld.MOD_RESET_STATUS_PHASE == 1

end Sys2Proof.Machine
end

