-- ==== Sys2Proof/Machine/Record.lean ====
section
/-!
DEFINITION. What a register read shows, the Event Recorder (spec/15 R634-R642), and fault reports (spec/10 R458-R461) with
all they cause: counts, limiter, record, notice, ALERT#, Whistle and trace triggers.
-/
namespace Sys2Proof.Machine

open Sys2Proof

/-! ### What a register reads as (R755, R74, R655, R677, R687) -/

/-- The bits of a row's fields that a read shows: every field but the write-only ones. -/
def readMask (r : RegRow) : Word :=
  r.fields.foldl (fun m fa => if fa.2 == .wo then m else m ||| fa.1.mask) 0#64

/-- Row reads outstanding on the Gather engine of Ledger die r (R258). -/
def State.outstanding (s : State) (r : Nat) : Nat :=
  ((s.gathers.filter (·.region == r)).map (fun g => ((g.bags.map (fun b => (b.filter (·.st == 2)).length)).sum))).sum

/-- GATHER_STATUS of Ledger die r (R258, R261). -/
def State.gatherStatus (s : State) (r : Nat) (w : Word) : Word :=
  Fld.LDG_GATHER_STATUS_OUTSTANDING.put
    (Fld.LDG_GATHER_STATUS_STARTED.put w (s.started.filter (fun d => d.fn == 0x10 + 4 * r && d.done.isNone)).length) (s.outstanding r)

/-- The buckets that engine e holds as home. -/
def State.homesOf (s : State) (e : Nat) : List HomeBucket := s.homes.filter (fun h => h.eng == e && !h.final)

/-- Journal entries in use, and grants outstanding, on home engine e (R394, R404). -/
def State.jrnlUse (s : State) (e : Nat) : Nat := ((s.homesOf e).map (·.jrnl.length)).sum
def State.grantsOut (s : State) (e : Nat) : Nat := ((s.homesOf e).map (fun h => (h.ranks.filter (·.granted)).length)).sum

/-- STATUS of reduce engine e (R405). -/
def State.redStatus (s : State) (e : Nat) (w : Word) : Word :=
  Fld.RED_STATUS_JOURNAL.put (Fld.RED_STATUS_GRANTS.put (Fld.RED_STATUS_HOME_SLOTS.put w (s.homesOf e).length) (s.grantsOut e)) (s.jrnlUse e)

/-- SEV_CNT (R482): the reports that a later write has made CORRECTED are no longer CONTAINED (R221). -/
def State.sevCnt (s : State) : Word :=
  let w := s.reg Reg.FLT_SEV_CNT
  let n := s.mem.replaced
  Fld.FLT_SEV_CNT_CORRECTED.put (Fld.FLT_SEV_CNT_CONTAINED.put w (Fld.FLT_SEV_CNT_CONTAINED.get w - n))
    (satAdd Fld.FLT_SEV_CNT_CORRECTED.max (Fld.FLT_SEV_CNT_CORRECTED.get w) n)

/-- FLT.AUDIT[p] (R472): what bridges and region switches have issued and got back counts with the rest. -/
def State.auditReg (s : State) (p : Nat) : Word :=
  let n := if 48 ≤ p && p < 138 then tblGet zeroAt s.tor.flits (p - 48) else if 138 ≤ p && p < 146 then tblGet zeroAt s.tor.passed (p - 138) else 0
  let w := s.reg (Reg.FLT_AUDIT p)
  Fld.FLT_AUDIT_RETURNED.put (Fld.FLT_AUDIT_ISSUED.put w (Fld.FLT_AUDIT_ISSUED.get w + n)) (Fld.FLT_AUDIT_RETURNED.get w + n)

def portDefault (_ : Nat) : Port := {}

/-- Port p beside its registers. -/
def State.port (s : State) (p : Nat) : Port := tblGet portDefault s.fab.ports p

/-- R318, R319. Retrains of port p within the last 60 s. -/
def State.recentRetrains (s : State) (p : Nat) : List Nat := (s.port p).retrains.filter (fun t => s.clk.now < t + 60000000000)

/-- R356. PORT_STATUS of port p: RETRAINS falls as its retrains grow older than 60 s. -/
def State.portStatus (s : State) (p : Nat) (w : Word) : Word := Fld.FAB_PORT_STATUS_RETRAINS.put w (min 15 (s.recentRetrains p).length)

/-- A register of which a read shows fields that follow the state. -/
def State.liveReg (s : State) (off : Nat) (w : Word) : Word :=
  match (List.range 8).find? (fun r => Reg.LDG_GATHER_STATUS r == off), (List.range 16).find? (fun e => Reg.RED_STATUS e == off),
    (List.range 48).find? (fun p => Reg.FAB_PORT_STATUS (p / 6) (p % 6) == off) with
  | some r, _, _ => s.gatherStatus r w
  | none, some e, _ => s.redStatus e w
  | none, none, some p => s.portStatus p w
  | none, none, none => w

/-- The value a read of the register at a BAR0 offset returns, without the act of EVR.POP. The snapshot range is served
only with the management-plane attribute (R47, R49). -/
def State.regPeek (s : State) (mgmt : Bool) (off : Nat) : Word :=
  if 0xE40000 ≤ off && off < 0xE80000 then
    (if mgmt then (match findReg off with | some _ => s.reg off | none => 0#64) else 0#64)
  else if 0xE80000 ≤ off && off < 0xEC0000 then
    let b := s.fget Reg.OBS_TRACE_WIN Fld.OBS_TRACE_WIN_BLOCK
    if b < 64 && s.blockUp b then BitVec.ofNat 64 (leNat (tblGetList zeroByte s.obs.trBuf (b * 2 ^ 18 + (off - 0xE80000)) 8))
    else 0#64
  else if 0x108000 ≤ off && off < 0x108800 then
    BitVec.ofNat 64 (s.fget (Reg.RING_SQ_TAIL ((off - 0x108000) / 8)) Fld.RING_SQ_TAIL_TAIL)
  else if off = Reg.FLT_SEV_CNT then s.sevCnt
  else if 0x801180 ≤ off && off < 0x801490 then s.auditReg ((off - 0x801000) / 8)
  else if off = Reg.TIME_NOW then BitVec.ofNat 64 (s.era * 2 ^ 32 + s.timeNs)
  else if off = Reg.TIME_COUNT then BitVec.ofNat 64 s.clk.count
  else if off = Reg.TIME_OFFSET then BitVec.ofNat 64 (tc 64 s.clk.offset)
  else if off = Reg.TIME_RATE then BitVec.ofNat 64 (tc 32 s.clk.rate)
  else if off = Reg.TIME_STATUS then Fld.TIME_STATUS_SLEWING.put (s.reg off) (if s.clk.slewing then 1 else 0)
  else if off = Reg.OBS_JTAG_CFG then Fld.OBS_JTAG_CFG_IJTAG_BUSY.put (s.reg off) (if s.scan.isSome then 1 else 0)
  else if 0xC80000 ≤ off && off < 0xD00000 then
    BitVec.ofNat 64 (s.fget Reg.EVR_TAIL_SEQ Fld.EVR_TAIL_SEQ_SEQ)
  else match findReg off with
    | none => 0#64
    | some (r, _, _) => s.liveReg off (s.reg off &&& readMask r)

/-! ### Snapshots (R461, R636, R637) -/

/-- An entry of a snapshot list: a register, a value that the report carries, or an index the report does not fix. -/
inductive Snap where
  | reg (off : Nat)
  | val (v : Nat)
  | none
  deriving DecidableEq, Repr

/-- A register whose index may not be fixed. -/
def snapAt (i : Option Nat) (f : Nat → Nat) : Snap := match i with | some n => .reg (f n) | none => .none

/-- The n-th value of the report. -/
def snapVal (c : Ctx) (n : Nat) : Snap := match c.vals[n]? with | some v => .val v | none => .none

/-- A ring number, or none for 0xFF. -/
def Ctx.ringIx (c : Ctx) : Option Nat := if c.ring < 256 && c.ring != 0xFF then some c.ring else none

/-- The region of the report: the one it names, else that of a Ledger or link die or of a stack. -/
def Ctx.regionIx (c : Ctx) : Option Nat :=
  match c.region with
  | some r => some r
  | none =>
    if 0x40 ≤ c.die && c.die < 0x48 then some (c.die - 0x40)
    else if 0x48 ≤ c.die && c.die < 0x50 then some (c.die - 0x48)
    else if 0x60 ≤ c.die && c.die < 0x70 then some ((c.die - 0x60) / 2)
    else none

/-- The controller of the report: the one it names, else that of a stack. -/
def Ctx.kIx (c : Ctx) : Option Nat :=
  match c.k with
  | some k => some k
  | none => if 0x60 ≤ c.die && c.die < 0x70 then some ((c.die - 0x60) % 2) else none

/-- The block of the report. -/
def Ctx.blkIx (c : Ctx) : Option Nat := match c.blk with | some b => some b | none => if c.die < 0x40 then some c.die else none

/-- A register of two indices. -/
def snapAt2 (i j : Option Nat) (f : Nat → Nat → Nat) : Snap :=
  match i, j with | some a, some b => .reg (f a b) | _, _ => .none

/-- The port registers of the report's port. -/
def Ctx.portReg (c : Ctx) (f : Nat → Nat → Nat) : Snap := if c.port < 48 then .reg (f (c.port / 6) (c.port % 6)) else .none

/-- The snapshot list of an event code (R461, R636). -/
def snapList (code : Nat) (c : Ctx) : List Snap :=
  match code with
  | 0x01 => [.reg Reg.INTG_CHECK_CNT, .reg Reg.INTG_TICKET, .reg Reg.ARR_SWEEP_STATUS, .reg Reg.ARR_FENCE_BLOCK,
      snapAt c.blkIx Reg.INTG_STRAINER_FLAG, .reg Reg.INTG_AUDIT_CNT]
  | 0x02 => [snapAt c.ringIx Reg.RING_SQ_STATUS, snapAt c.ringIx Reg.RING_EVT_BANK, snapAt c.fn Reg.MOD_FN,
      snapAt c.eng Reg.RED_STATUS, .reg Reg.INTG_STEEP_CNT]
  | 0x03 => (List.range 8).map (fun i => snapAt c.fns[i]? Reg.MOD_FN) ++ [.reg Reg.FLT_SEV_CNT, .reg (Reg.FLT_CLASS_CNT 0x03)]
  | 0x04 => [.reg (Reg.MOD_FN 0x50), .reg (Reg.MOD_FN 0x51), .reg Reg.INTG_SCAN_STATUS, .reg Reg.FLT_TIMER]
  | 0x05 => [(match c.eng, c.pool with
      | some e, _ => .reg (Reg.RED_AUDIT e) | _, some p => .reg (Reg.FLT_AUDIT p) | _, _ => .none),
      snapAt c.fn Reg.MOD_FN, snapAt c.eng Reg.RED_STATUS]
  | 0x06 => [c.portReg Reg.FAB_PORT_STATUS, c.portReg Reg.FAB_PORT_ERR, .reg Reg.FAB_PLAN_STATUS, snapAt c.pool Reg.FLT_AUDIT]
  | 0x07 => [snapAt2 c.regionIx c.kIx Reg.LDG_ECC_STATUS, snapAt2 c.regionIx c.kIx Reg.LDG_UE_ADDR, .reg Reg.ARR_SWEEP_STATUS]
  | 0x08 => [snapAt2 c.regionIx c.kIx Reg.LDG_ECC_STATUS, c.portReg Reg.FAB_PORT_ERR, .reg Reg.FLT_CFG]
  | 0x09 => [.reg Reg.INTG_TAG_CNT, .reg Reg.INTG_PENDING, snapAt2 c.regionIx c.kIx Reg.LDG_ECC_STATUS]
  | 0x0A => [c.portReg Reg.FAB_PORT_CFG, c.portReg Reg.FAB_PORT_STATUS, .reg Reg.FAB_PLAN_STATUS]
  | 0x0B => [.reg Reg.PWR_FEED_STATUS, .reg Reg.PWR_FEED_MEAS, .reg Reg.PWR_FEED_CHECK]
  | 0x0C => [.reg Reg.PWR_THERM_STATUS, .reg Reg.PWR_DVFS, .reg Reg.PWR_THERM_CFG]
  | 0x0D => [.reg Reg.ARR_ARITH_CNT, snapAt c.eng Reg.RED_CNT_A]
  | 0x0E => [snapAt c.regionIx Reg.UPD_STATUS, snapAt c.regionIx Reg.UPD_PROGRESS]
  | 0x0F => [snapAt c.eng Reg.RED_STATUS, snapAt c.eng Reg.RED_CNT_B]
  | 0x10 => [.reg Reg.CKP_RESTORE_STATUS, .reg Reg.CKP_STEPS, .reg Reg.CKP_STATUS]
  | 0x11 => [snapAt c.fn Reg.MOD_FN, snapVal c 0, snapVal c 1]
  | 0x12 => [snapAt c.fn Reg.MOD_FN, snapAt c.ringIx Reg.RING_SQ_STATUS]
  | 0x13 => [.reg Reg.ARR_SWEEP_STATUS, .reg Reg.ARR_FENCE_BLOCK, .reg Reg.INTG_TICKET]
  | 0x14 => [.reg Reg.MOD_CHIP_NUMBER, snapAt c.regionIx Reg.FAB_STATUS, snapVal c 0]
  | 0x15 => [snapAt c.subj Reg.TRF_RISK_SCORE, .reg Reg.TRF_RISK_THRESH, .reg Reg.TRF_RISK_STATUS]
  | 0x0100 => [.reg Reg.FLT_CONG_CNT, .reg Reg.FLT_TIMER]
  | 0x0101 => [c.portReg Reg.FAB_PORT_STATUS, c.portReg Reg.FAB_PORT_CFG, c.portReg Reg.FAB_PORT_ERR, .reg Reg.FAB_PLAN_STATUS]
  | 0x0102 => [snapAt c.subj Reg.TRF_RISK_SCORE, .reg Reg.TRF_RISK_THRESH, .reg Reg.TRF_RISK_STATUS]
  | 0x0103 => [.reg Reg.TRF_ROLE, .reg (Reg.TRF_BOOT 0), .reg (Reg.TRF_BOOT 1)]
  | 0x0104 => [.reg Reg.PWR_FEED_STATUS, .reg Reg.PWR_FEED_MEAS, .reg Reg.PWR_FEED_CHECK]
  | 0x0105 => [.reg Reg.MOD_RESET_STATUS, .reg Reg.MOD_HANG_STATUS, .reg Reg.MOD_HANG_SEQ, .reg Reg.FLT_SEV_CNT]
  | 0x0106 => [.reg Reg.MOD_RESET_STATUS, .reg Reg.MOD_DUMP_STATUS, .reg Reg.ARR_FENCE_BLOCK, .reg Reg.MOD_LANTERN_MISS]
  | 0x0107 => [.reg Reg.MOD_CHIP_NUMBER, .reg Reg.MOD_RESET_STATUS, .reg Reg.TIME_STATUS, .reg Reg.FAB_PLAN_STATUS]
  | 0x0108 => [.reg Reg.TIME_STATUS, .reg Reg.TIME_NOW, .reg Reg.TIME_OFFSET, .reg Reg.TIME_RATE, .reg Reg.TIME_GM_ID]
  | 0x0109 => [.reg Reg.CKP_STATUS, .reg Reg.CKP_STEPS, .reg Reg.CKP_DRAIN_STATUS]
  | 0x010A => [.reg Reg.EVR_FLASH_STATUS, .reg Reg.EVR_DROPPED]
  | _ => []

/-- The value an entry captures, if it captures one. -/
def State.snap (s : State) : Snap → Option Nat
  | .reg off => some (s.regPeek true off).toNat
  | .val v => some v
  | .none => none

/-! ### Records -/

/-- CAIRN of a record (R634). -/
def cairn : Nat := 0xCA1A4D2B

/-- Bit n of SLOT_VALID is set where entry n captured a value (R634, R637). -/
def slotValid : Nat → List (Option Nat) → Nat
  | _, [] => 0
  | n, o :: t => (if o.isSome then 2 ^ n else 0) + slotValid (n + 1) t

/-- The 128 bytes of a record (R634). -/
def State.recordBytes (s : State) (seq code cls sev time : Nat) (c : Ctx) : List Byte :=
  let snaps := (snapList code c).map s.snap
  let life := s.reg Reg.EVR_LIFE
  leBytes 4 seq ++ leBytes 4 (Fld.EVR_LIFE_OP_HOURS.get life) ++ leBytes 4 (Fld.EVR_LIFE_POWER_CYCLES.get life) ++
    leBytes 4 time ++ leBytes 2 code ++ leBytes 1 cls ++ leBytes 1 sev ++
    leBytes 1 c.die ++ leBytes 1 c.unit ++ leBytes 1 c.cell ++ leBytes 1 c.port ++
    leBytes 3 c.seq ++ leBytes 1 c.ring ++ leBytes 2 c.layer ++ leBytes 2 c.op ++
    (snaps ++ List.replicate (11 - snaps.length) none).flatMap (fun o : Option Nat => leBytes 8 (o.getD 0)) ++
    leBytes 1 snaps.length ++ leBytes 2 (slotValid 0 snaps) ++ leBytes 1 0 ++ leBytes 4 cairn

/-- The window offset of a Trelfort's own SRAM (R45). -/
def trfBase (die : Nat) : Nat := die * 0x800000

/-- Store bytes in the SRAM of a Trelfort, and journal them to the standby when the primary stores them (R611). -/
def State.trfStore (s : State) (die off : Nat) (d : List Byte) : State :=
  let s1 : State := { s with mem := { s.mem with trf := wrTbl s.mem.trf (trfBase die + off) d } }
  let peer := s.fget Reg.TRF_ROLE (if die = 0 then Fld.TRF_ROLE_T1_ROLE else Fld.TRF_ROLE_T0_ROLE)
  if s.primary = some die && (peer == 1 || peer == 2) then { s1 with journal := s1.journal ++ [(off, d)] } else s1

/-- Records held in SRAM (R641). -/
def State.evrHeld (s : State) : Nat :=
  subMod 32 (s.fget Reg.EVR_HEAD_SEQ Fld.EVR_HEAD_SEQ_SEQ) (s.fget Reg.EVR_TAIL_SEQ Fld.EVR_TAIL_SEQ_SEQ)

/-- A record of this severity is kept (R642). -/
def State.evrKeeps (s : State) (sev : Nat) : Bool := s.evrHeld < 16384 && (2 ≤ sev || s.evrHeld < 16320)

/-- R634, R635, R641, R642. The primary records an event, or counts it as not recorded; with no PRIMARY the event waits
(R640). -/
def State.record (s : State) (code cls sev time : Nat) (c : Ctx) : State :=
  match s.primary with
  | none => { s with flt := { s.flt with waiting := s.flt.waiting ++ [⟨code, cls, sev, time, c⟩] } }
  | some die =>
    if s.evrKeeps sev then
      let seq := s.fget Reg.EVR_HEAD_SEQ Fld.EVR_HEAD_SEQ_SEQ
      (s.trfStore die (0x400000 + 128 * (seq % 16384)) (s.recordBytes seq code cls sev time c)).count
        Reg.EVR_HEAD_SEQ Fld.EVR_HEAD_SEQ_SEQ 1
    else s.bump Reg.EVR_DROPPED Fld.EVR_DROPPED_SRAM 1

/-- An event of R636 that is no fault report. -/
def State.event (s : State) (code : Nat) (c : Ctx) : State := s.record code 0 0 s.timeNs c

/-! ### Whistles and triggers that a report causes (R672, R673, R685, R691) -/

/-- R671. An ACTION that is discarded. -/
def badAction (a : Nat) : Bool := a == 0 || (bitOf a 2 && bitOf a 3)

/-- R672, R673. A pending Whistle is armed, or refused when four are pending. -/
def State.armWhistle (s : State) (at_ action : Nat) : State :=
  if s.obs.whistles.length ≥ 4 then s.bump Reg.OBS_WHISTLE_STATUS Fld.OBS_WHISTLE_STATUS_REFUSED 1
  else ({ s with obs := { s.obs with whistles := s.obs.whistles ++ [(at_ % 2 ^ 32, action)] } }).fput
    Reg.OBS_WHISTLE_STATUS Fld.OBS_WHISTLE_STATUS_PENDING (s.obs.whistles.length + 1)

/-- R685. A trace trigger on block b: tracing runs for POST × 256 further packets. -/
def State.traceTrigger (s : State) (b : Nat) : State :=
  let post := Fld.OBS_TRACE_CFG_POST.get s.obs.trCfg
  if Fld.OBS_TRACE_CFG_SINK.get s.obs.trCfg = 0 && post != 0 && tblGet zeroAt s.obs.trPost b = 0 &&
      !(s.rbit (Reg.OBS_TRACE_PTR b) 32) then
    let s1 : State := { s with obs := { s.obs with trPost := tblPut zeroAt s.obs.trPost b (post * 256) } }
    if s.rbit Reg.OBS_DBG_CFG 50 then s1.emit .trigOut else s1
  else s

/-! ### Reports -/

/-- The SEV_CNT field of a severity (R482). -/
def sevField : Nat → Option Fld
  | 1 => some Fld.FLT_SEV_CNT_CORRECTED
  | 2 => some Fld.FLT_SEV_CNT_CONTAINED
  | 3 => some Fld.FLT_SEV_CNT_UNCONTAINED
  | 4 => some Fld.FLT_SEV_CNT_FATAL
  | _ => none

/-- R621. A NOTICE goes to the fleet controller and repeats until acknowledged. -/
def State.notice (s : State) (kind cut : Nat) (record : List Byte) : State :=
  ({ s with
      noticeNo := (s.noticeNo + 1) % 2 ^ 32
      notices := s.notices ++ [{ seq := s.noticeNo, kind := kind, cut := cut, record := record, since := s.clk.now, sent := s.clk.now }] } : State).emit (.notice s.noticeNo kind cut record)

/-- R460. The limiter lets a report of this die and class be recorded now. -/
def State.limiterPasses (s : State) (die cls : Nat) : Bool :=
  match s.flt.lastRec.find? (fun e => e.1 == die * 32 + cls) with
  | none => true
  | some (_, t) => t + 1000000 ≤ s.clk.now

/-- R460. The second that the limiter holds from a recorded report on begins. -/
def State.limiterStart (s : State) (die cls : Nat) : State :=
  { s with flt := { s.flt with lastRec := tblPut (fun _ => 2 ^ 200) s.flt.lastRec (die * 32 + cls) s.clk.now } }

/-- R640, R690. A report is the next of its die, and the latest one there. -/
def State.reportLatest (s : State) (cls sev : Nat) (c : Ctx) : State :=
  { s with flt := { s.flt with
      repNo := tblPut zeroAt s.flt.repNo c.die ((tblGet zeroAt s.flt.repNo c.die + 1) % 65536)
      latest := tblPut zeroAt s.flt.latest c.die (sev * 256 + cls) } }

/-- R458-R461, R639, R640. A fault report reaches the primary Trelfort: it is counted, and recorded unless the limiter of
R460 holds an INFO or CORRECTED record back; what the record sets off is `acts`. -/
def State.logReport (acts : State → State) (s : State) (cls sev : Nat) (c : Ctx) : State :=
  let time := s.timeNs
  let s := (s.bump (Reg.FLT_CLASS_CNT cls) Fld.FLT_CLASS_CNT_COUNT 1).fput (Reg.FLT_CLASS_CNT cls) Fld.FLT_CLASS_CNT_LAST_NS time
  let s := match sevField sev with | some f => s.bump Reg.FLT_SEV_CNT f 1 | none => s
  let s := s.reportLatest cls sev c
  if sev ≤ 1 && !(s.limiterPasses c.die cls) then s.bump Reg.FLT_SUPPRESSED Fld.FLT_SUPPRESSED_COUNT 1
  else
    let s := if sev ≤ 1 then s.limiterStart c.die cls else s
    acts (s.record cls cls sev time c)

/-- R671, R672. A recorded report at or above FAULT_SEV raises a Whistle, or its ACTION is discarded and reported. -/
def State.faultWhistle (s : State) (sev : Nat) : State :=
  let fs := s.fget Reg.OBS_WHISTLE_CFG Fld.OBS_WHISTLE_CFG_FAULT_SEV
  let act := s.fget Reg.OBS_WHISTLE_CFG Fld.OBS_WHISTLE_CFG_FAULT_ACTION
  if fs = 0 || sev < fs then s
  else if badAction act then
    s.logReport id 0x11 0 { die := 0x50 + s.primary.getD 0, unit := 0x31, vals := [Reg.OBS_WHISTLE_CFG, act] }
  else s.armWhistle (s.timeNs + 2000) act

/-- R458, R672, R685, R691. What a recorded report of a severity sets off besides its record. -/
def State.sevActions (s : State) (cls sev time : Nat) (c : Ctx) : State :=
  let rec_ := s.recordBytes (subMod 32 (s.fget Reg.EVR_HEAD_SEQ Fld.EVR_HEAD_SEQ_SEQ) 1) cls cls sev time c
  let s := if sev ≥ 2 then s.notice 0 0 rec_ else s
  let s := if sev ≥ 3 then
      (if s.flt.alert then s else ({ s with flt := { s.flt with alert := true } }).emit (.pin 0 true)) else s
  let s := if sev ≥ 4 && cls != 0x0B && cls != 0x0C then { s with flt := { s.flt with fatal := true, fatalCls := cls, fatalDie := c.die } } else s
  let s := s.faultWhistle sev
  let s := if sev ≥ 2 && s.rbit Reg.OBS_DBG_CFG 49 then s.emit .trigOut else s
  if sev ≥ 2 && c.die < 0x40 && bitOf s.obs.trCfg.toNat 33 then s.traceTrigger c.die else s

/-- R458-R461. A fault report: it is logged, and has the further effects of its severity. -/
def State.report (s : State) (cls sev : Nat) (c : Ctx) : State := s.logReport (fun z => z.sevActions cls sev s.timeNs c) cls sev c

/-- The die of the primary Trelfort, for contexts. -/
def State.trfDie (s : State) : Nat := 0x50 + s.primary.getD 0

/-- The die of a function, for contexts; a Trelfort service stands for T0. -/
def dieOfFn (f : Nat) : Nat :=
  if f = 0 then 0
  else if 0x10 ≤ f && f < 0x30 then 0x40 + (f - 0x10) / 4
  else if 0x30 ≤ f && f < 0x38 then 0x48 + (f - 0x30)
  else if 0x40 ≤ f && f < 0x50 then 0x48 + (f - 0x40) / 2
  else if f = 0x50 || f = 0x51 then 0x50
  else 0x48

/-- The unit of a function (R763). -/
def unitOfFn (f : Nat) : Nat :=
  if f = 0 then 0
  else if 0x10 ≤ f && f < 0x30 then 0x13 + f % 4
  else if 0x30 ≤ f && f < 0x38 then 0x25
  else if 0x40 ≤ f && f < 0x50 then 0x21 + f % 2
  else if f = 0x50 then 0x30
  else if f = 0x51 then 0x31
  else 0x26

/-- The die on which a function runs now, for contexts. -/
def State.fnDie (s : State) (f : Nat) : Nat := if f = 0x50 || f = 0x51 then s.trfDie else dieOfFn f

/-- CONFIG_REJECTED (INFO) naming an offset and a value; its owner is the function addressed, or the primary where there is none
(R109, R461). -/
def State.rejected (s : State) (off : Nat) (value : Nat) (fn : Option Nat) : State :=
  s.report 0x11 0 (match fn with
    | some f => { die := s.fnDie f, unit := unitOfFn f, fn := fn, vals := [off, value] }
    | none => { die := s.trfDie, unit := 0x31, vals := [off, value] })

/-- ADDR_UNMAPPED (INFO) naming the 64-bit address (R35), raised by a Ledger die's register decoder or region switch. -/
def State.unmapped (s : State) (addr : Nat) (c : Ctx) : State := s.report 0x14 0 { c with vals := [addr] }

/-! ### What the codes find (spec/05 R220) -/

/-- R462. A Ferua sentinel counts corrected errors of a subject: a stack (0x60 + s), a port (0x100 + p) or the accumulator
store of a cell (0x1000 + block × 64 + cell). -/
def State.corrected (s : State) (subject n : Nat) : State :=
  { s with flt := { s.flt with
      ceWin := tblPut (fun _ => []) s.flt.ceWin subject (tblGet (fun _ => []) s.flt.ceWin subject ++ List.replicate n s.clk.now) } }

/-- R220. A burst of a stack was corrected, by either code. -/
def State.burstCorrected (s : State) (stack : Nat) : State :=
  ((s.bump (Reg.LDG_ECC_STATUS (stack / 2) (stack % 2)) Fld.LDG_ECC_STATUS_CE_COUNT 1).evCount (0x40 + stack / 2) 0x4A 1 0xFFFF 0xFFFF).corrected (0x60 + stack) 1

/-- R220, R221. What the codes find on a burst that is read: a correction is counted, an uncorrectable error marks the burst
poisoned. -/
def State.eccRead (s : State) (burst : Nat) (e : Ecc) : State :=
  match e with
  | .clean => s
  | .onDie => s.burstCorrected (burst / 2 ^ 30)
  | .corrected => s.burstCorrected (burst / 2 ^ 30)
  | .uncorrectable =>
    if s.mem.poison.contains burst then s else { s with mem := { s.mem with poison := s.mem.poison ++ [burst] } }

/-- R220. What the codes find on the bursts that a command reads; a place outside HBM has no code. -/
def State.eccAll (s : State) (ecc : EccFinds) : State := ecc.foldl (fun s e => if e.1 < 2 ^ 34 then s.eccRead e.1 e.2 else s) s

/-! ### Roles (spec/14 R607) -/

/-- The role of Trelfort d, and its field. -/
def roleFld (d : Nat) : Fld := if d = 0 then Fld.TRF_ROLE_T0_ROLE else Fld.TRF_ROLE_T1_ROLE
def State.role (s : State) (d : Nat) : Nat := s.fget Reg.TRF_ROLE (roleFld d)
def State.setRole (s : State) (d r : Nat) : State := s.fput Reg.TRF_ROLE (roleFld d) r

/-- Role states (R607). -/
def rBOOT : Nat := 0
def rSYNCING : Nat := 1
def rSTANDBY : Nat := 2
def rPRIMARY : Nat := 3
def rHALTED : Nat := 4
def rRECOVERY : Nat := 5

/-- R607, R636. A Trelfort changes its role; the change is recorded. -/
def State.changeRole (s : State) (d r : Nat) : State :=
  if s.role d = r then s else (s.setRole d r).event 0x0103 { die := 0x50 + d, unit := 0x31 }

/-! ### Power states (spec/17 R715-R720) -/

/-- R715, R728. PWR.STATE shows the first state whose condition holds, and whether a glide is in progress. -/
def State.showPower (s : State) : State :=
  let eff := s.fget Reg.PWR_DVFS Fld.PWR_DVFS_EFF_MHZ
  (s.fput Reg.PWR_STATE Fld.PWR_STATE_STATE (if s.pwr.doze then 4 else if s.pwr.gated then 3 else if eff < 1000 then 2 else 1)).fput
    Reg.PWR_STATE Fld.PWR_STATE_CHANGING (if !s.pwr.doze && s.pwr.mhz != eff then 1 else 0)

/-- R716, R723. The ACLK setting follows TARGET_MHZ and CAP_MHZ; in DOZE it waits for the exit. -/
def State.setEff (s : State) : State :=
  if s.pwr.doze then s
  else (s.fput Reg.PWR_DVFS Fld.PWR_DVFS_EFF_MHZ
    (min (s.fget Reg.PWR_DVFS Fld.PWR_DVFS_TARGET_MHZ) (s.fget Reg.PWR_DVFS Fld.PWR_DVFS_CAP_MHZ))).showPower

/-- R720. The cells of every block are clocked again. -/
def State.clockCells (s : State) : State :=
  if s.pwr.gated then ({ s with pwr := { s.pwr with gated := false } } : State).showPower else s

/-! ### The time unit (spec/15 R660) -/

/-- Time states (R660). -/
def tFREE : Nat := 0
def tLOCKING : Nat := 1
def tLOCKED : Nat := 2
def tHOLDOVER : Nat := 3
def State.timeState (s : State) : Nat := s.fget Reg.TIME_STATUS Fld.TIME_STATUS_STATE

/-- R660. The time unit changes state; GM_ID is updated as it leaves LOCKING, and the change is recorded. -/
def State.setTime (s : State) (st : Nat) : State :=
  if s.timeState = st then s
  else
    let s0 := if s.timeState = tLOCKING then s.setReg Reg.TIME_GM_ID (BitVec.ofNat 64 s.clk.gm) else s
    let s1 := s0.fput Reg.TIME_STATUS Fld.TIME_STATUS_STATE st
    let s2 := if st = tHOLDOVER then s1.bump Reg.TIME_STATUS Fld.TIME_STATUS_HOLDOVERS 1 else s1
    s2.event 0x0108 { die := s.trfDie, unit := 0x32 }

/-- R660. PTP_EN in force is 0: the unit is FREE. -/
def State.ptpApplied (s : State) : State :=
  if s.cfg Reg.TIME_CFG Fld.TIME_CFG_PTP_EN = 0 then s.setTime tFREE else s

end Sys2Proof.Machine
end

