-- ==== Sys2Proof/Machine/Torus.lean ====
section
/-!
DEFINITION. The region torus (spec/01 R10-R19): the route of a packet between regions, the bridges that it crosses with their
buffer classes, and what its crossing leaves in the pools of R472 (spec/10).
-/
namespace Sys2Proof.Machine

open Sys2Proof

/-! ### Routes (R14, R15, R17, R18) -/

/-- The region n hops in the direction of increasing x from region r, in its row. -/
def rowStep (r n : Nat) : Nat := r / 4 * 4 + (r + n) % 4

/-- R474. The x bridge that a hop in the direction of increasing x from region r crosses. -/
def xBridge (r : Nat) : Nat := 72 + r

/-- The hops of n steps round the row from region r, in the direction of increasing x or the other. A packet is in the second buffer
class from its crossing between x = 3 and x = 0 on (R15). -/
def rowHops (up : Bool) : Nat → Nat → Nat → List TorHop
  | 0, _, _ => []
  | n + 1, r, cls =>
    let q := rowStep r (if up then 1 else 3)
    let lower := if up then r else q
    let c := if lower % 4 = 3 then 1 else cls
    { src := r, dst := q, bridge := xBridge lower, cls := c } :: rowHops up n q c

/-- Some hop crosses a bridge that is down. -/
def usesDown (down : List Nat) (hs : List TorHop) : Bool := hs.any (fun h => down.contains h.bridge)

/-- R14, R17. The hops in x: the shorter way round the row, that of increasing x when both are two hops; the other way when that one
crosses a bridge that is down and the other does not (assumption 113). -/
def xHops (down : List Nat) (a b : Nat) : List TorHop :=
  let d := (b % 4 + 4 - a % 4) % 4
  let near := rowHops (decide (d ≤ 2)) (min d (4 - d)) a 0
  let far := rowHops (!decide (d ≤ 2)) (4 - min d (4 - d)) a 0
  if d ≠ 0 && usesDown down near && !usesDown down far then far else near

/-- R18. The hop in y: the first of the pair's two bridges, the other when that one is down (assumption 113). -/
def yHop (down : List Nat) (a b : Nat) : List TorHop :=
  if a / 4 = b / 4 then []
  else
    let c := a % 4
    [{ src := a, dst := b, bridge := if down.contains (80 + 2 * c) && !down.contains (81 + 2 * c) then 81 + 2 * c else 80 + 2 * c, cls := 0 }]

/-- R14. The route from region a to region b: x first, then y. -/
def torusRoute (down : List Nat) (a b : Nat) : List TorHop :=
  let m := a / 4 * 4 + b % 4
  xHops down a m ++ yHop down m b

/-! ### Crossings (R332, R472) -/

/-- Internal flits of 64 bytes that a packet with n bytes of body takes (R322, R453, assumption 113). -/
def innerFlits (n : Nat) : Nat := (32 + n + 63) / 64

/-- A bridge has carried n flits, and their credits are back. -/
def State.bridgeCarries (s : State) (n i : Nat) : State :=
  { s with tor := { s.tor with flits := tblPut zeroAt s.tor.flits i (tblGet zeroAt s.tor.flits i + n) } }

/-- A packet has passed the buffers of the region switch of region r. -/
def State.switchPasses (s : State) (r : Nat) : State :=
  { s with tor := { s.tor with passed := tblPut zeroAt s.tor.passed r (tblGet zeroAt s.tor.passed r + 1) } }

/-- A packet with n bytes of body crosses from the region switch of region a to that of region b, by the bridges that are up. -/
def State.cross (s : State) (a b n : Nat) : State :=
  let hs := torusRoute s.flt.bridges a b
  let s1 := (hs.map (·.bridge)).foldl (fun s i => s.bridgeCarries (innerFlits n) i) s
  let s2 := (a :: hs.map (·.dst)).foldl State.switchPasses s1
  { s2 with tor := { s2.tor with path := hs } }

/-- A request with n bytes goes from the region switch of region a to a place of this module: HBM and registers of a region by its
Ledger die, staging SRAM over the block's bridge, the Trelfort window over the controller bridge (R10-R12, R45). -/
def State.crossTo (s : State) (a n : Nat) : Loc → State
  | .hbm p => s.cross a (p / 2 ^ 37 % 8) n
  | .staging p => (s.cross a (p / 0x8000000 / 8 % 8) n).bridgeCarries (innerFlits n) (p / 0x8000000 % 64)
  | .reg _ => s
  | .trf o => if o < 0x800000 then (s.cross a 0 n).bridgeCarries (innerFlits n) 88 else (s.cross a 7 n).bridgeCarries (innerFlits n) 89
  | .unmapped => s

/-- R465, R467. Some bridge that a request from a die to a die of another region, or a block, would cross has exhausted its retries. -/
def State.pathDown (s : State) (die target : Nat) : Bool :=
  let region (d : Nat) : Nat := if d < 0x40 then d / 8 else if d < 0x48 then d - 0x40 else if d < 0x50 then d - 0x48 else if 0x60 ≤ d && d < 0x70 then (d - 0x60) / 2 else 0
  let local_ (d : Nat) : List Nat := if d < 0x40 then [d] else if 0x48 ≤ d && d < 0x50 then [64 + (d - 0x48)] else if d = 0x50 then [88] else if d = 0x51 then [89] else []
  (local_ die ++ local_ target ++ (torusRoute [] (region die) (region target)).map (·.bridge)).any s.flt.bridges.contains

end Sys2Proof.Machine
end

