-- ==== Sys2Proof/Machine/Route.lean ====
section
/-!
DEFINITION. Packets: their bytes (spec/07 R322), the route by chip number (R324-R331), queues of the egress ports, and
the sending of a packet from a unit of this module.
-/
namespace Sys2Proof.Machine

open Sys2Proof

def State.setPort (s : State) (p : Nat) (v : Port) : State :=
  { s with fab := { s.fab with ports := tblPut portDefault s.fab.ports p v } }

/-- STATE of port p: 0 OFF, 1 TRAINING, 2 DISCOVERING, 3 ACTIVE, 4 DORMANT, 5 QUARANTINED, 6 DOWN (R356). -/
def State.portState (s : State) (p : Nat) : Nat :=
  s.fget (Reg.FAB_PORT_STATUS (p / 6) (p % 6)) Fld.FAB_PORT_STATUS_STATE

/-- A field of PORT_CFG of port p as in force. -/
def State.portCfg (s : State) (p : Nat) (f : Fld) : Nat := s.cfg (Reg.FAB_PORT_CFG (p / 6) (p % 6)) f

/-- The bytes of a packet: its 32-byte header (R322) and its body. -/
def packetBytes (k : Packet) : List Byte :=
  leBytes 2 k.dst ++ leBytes 2 k.src ++ leBytes 1 k.kind ++ leBytes 1 k.flags ++ leBytes 1 k.gen ++ leBytes 1 k.ttl ++
    leBytes 8 k.addr ++ leBytes 4 k.body.length ++ leBytes 2 k.layer ++ leBytes 2 k.op ++ leBytes 4 k.tag ++
    leBytes 4 k.err ++ k.body

/-- The packet that bytes of a (VC, CLASS) pair spell. -/
def packetOf (b : List Byte) (vc cls : Nat) : Packet where
  dst := leAt b 0 2
  src := leAt b 2 2
  kind := leAt b 4 1
  flags := leAt b 5 1
  gen := leAt b 6 1
  ttl := leAt b 7 1
  addr := leAt b 8 8
  layer := leAt b 20 2
  op := leAt b 22 2
  tag := leAt b 24 4
  err := leAt b 28 4
  body := (b.drop 32).take (leAt b 16 4)
  vc := vc
  cls := cls

/-- The queue of a (VC, CLASS) pair. -/
def pairKey (vc cls : Nat) : Nat := vc * 2 + cls

def noQueue (_ : Nat) : List Queued := []
def noBytes (_ : Nat) : List Byte := []

/-- The eligible ports of one hop: ACTIVE, of the group, and with the next hop as discovered neighbour (R324). -/
def State.hopPorts (s : State) (group next : Nat) : List Nat :=
  (List.range 48).filter (fun p => s.portState p == 3 && s.portCfg p Fld.FAB_PORT_CFG_NGROUP == group &&
    s.fget (Reg.FAB_PORT_STATUS (p / 6) (p % 6)) Fld.FAB_PORT_STATUS_NEIGH_CHIP == next)

/-- R324. The eligible ports and DATELINE of the hop to a destination from the table of link die r. -/
def State.route (s : State) (r dst : Nat) : Option (List Nat × Bool) :=
  let own := s.fget Reg.MOD_CHIP_NUMBER ⟨15, 0⟩
  let i := if dst / 512 = own / 512 then dst % 512 else 512 + dst / 512
  let e := if i < 576 then s.reg (Reg.FAB_ROUTE r i) else 0#64
  let ps := s.hopPorts (Fld.FAB_ROUTE_GROUP.get e) (Fld.FAB_ROUTE_NEXT.get e)
  let qs := s.hopPorts (Fld.FAB_ROUTE_ALT_GROUP.get e) (Fld.FAB_ROUTE_ALT_NEXT.get e)
  if bitOf e.toNat 63 && !ps.isEmpty then some (ps, bitOf e.toNat 61)
  else if bitOf e.toNat 62 && !qs.isEmpty then some (qs, bitOf e.toNat 60)
  else none

/-- R329. The port among the eligible ones. -/
def pickPort (ps : List Nat) (k : Packet) : Nat :=
  ps.getD ((k.dst * 0x9E37 + k.src * 0x7F4B + k.vc) % 65536 % ps.length) 0

/-- A packet joins an egress queue; VC0 packets sent again go ahead of new ones (R320). -/
def State.enqueue (s : State) (p : Nat) (k : Packet) (from_ : Option Nat) (inCls : Nat) (ahead : Bool) : State :=
  let pt := s.port p
  let key := pairKey k.vc k.cls
  let q := tblGet noQueue pt.queue key
  let e : Queued := { pkt := k, rest := packetBytes k, from_ := from_, inCls := inCls, since := s.clk.now }
  let q' := if ahead then q.filter (·.begun) ++ e :: q.filter (fun x => !x.begun) else q ++ [e]
  s.setPort p { pt with queue := tblPut noQueue pt.queue key q' }

/-- R331. Packets that their receiver answers. The row and Rope kinds are those of assumption 12. -/
def isRequest (kind : Nat) : Bool := [0x01, 0x04, 0x10, 0x13, 0x20, 0x22, 0x40, 0x42, 0x43, 0x45, 0x3C].contains kind

/-- Bytes in the quarantine buffer of link die r (R439). -/
def State.quarUse (s : State) (r : Nat) : Nat :=
  ((s.quar.items.filter (·.die == r)).map (fun i => (i.data.map (·.2.length)).sum)).sum

/-- R439. The quarantine buffer of link die r is full: an UNCONFIRMED posted write there waits for room. -/
def State.quarFull (s : State) (r : Nat) : Bool :=
  s.fab.delivered.any (fun k => k.kind == 0x03 && bitOf k.flags 0 && k.port < 48 && k.port / 6 == r && s.quarUse r + k.body.length > 2 ^ 22)

/-- R322. The KINDs that the chapters define; a packet of another, RSVD, KIND is dropped at its destination (assumption 119). -/
def knownKind (kind : Nat) : Bool :=
  (1 ≤ kind && kind ≤ 6) || (0x10 ≤ kind && kind ≤ 0x16) || (0x20 ≤ kind && kind ≤ 0x25) || (0x30 ≤ kind && kind ≤ 0x35) ||
    kind == 0x38 || kind == 0x3C || kind == 0x3D || (0x40 ≤ kind && kind ≤ 0x46)

/-- A packet reaches the units of this module. -/
def State.deliver (s : State) (k : Packet) : State :=
  if knownKind k.kind then { s with fab := { s.fab with delivered := s.fab.delivered ++ [k] } } else s

/-- R324, R332. A packet reaches port p from link die r, or from a unit of region r: over the link bridges and the region switches, in the
traffic class of its channel, unless it is in transit and the port is one of link die r. -/
def State.toPort (s : State) (r p n : Nat) (starts : Bool) : State :=
  if !starts && p / 6 = r then s
  else
    let s1 := if starts then s else s.bridgeCarries (innerFlits n) (64 + r)
    (s1.cross r (p / 6) n).bridgeCarries (innerFlits n) (64 + p / 6)

/-- A packet, in the class of its arrival, leaves on the hop that link die r finds, or is dropped where there is none; `from_` is the
ingress port of a transit packet (R324, R327, R331), `ahead` says that it is sent again (R320). The answer tells whether it left. -/
def State.tryForward (s : State) (r : Nat) (k : Packet) (from_ : Option Nat) (ahead : Bool := false) : Option State :=
  match s.route r k.dst with
  | none => none
  | some (ps, dateline) =>
    let cls := if from_.isSome && (k.cls == 1 || dateline) then 1 else 0
    let k' := { k with cls := cls }
    let p := pickPort ps k'
    some ((s.toPort r p k'.body.length from_.isNone).enqueue p k' from_ k.cls ahead)

/-- R331. The error reply to a request that found no route. -/
def errorReply (k : Packet) (own err : Nat) : Packet :=
  { dst := k.src, src := own, kind := 0x06, gen := k.gen, addr := k.addr, layer := k.layer, op := k.op, tag := k.tag,
    err := err, vc := k.vc }

/-- R331. Link die r discards a packet that it cannot forward: counted, and answered with ERR 1 when it was a request. -/
def State.discardPacket (s : State) (r : Nat) (k : Packet) : State :=
  let s := s.bump (Reg.FAB_STATUS r) Fld.FAB_STATUS_NO_ROUTE 1
  if isRequest k.kind then
    let own := s.fget Reg.MOD_CHIP_NUMBER ⟨15, 0⟩
    let e := { errorReply k own 1 with flags := if k.vc = 6 then k.flags &&& 2 else 0 }
    if k.src = own || k.src = 0xFFFF then s.deliver e
    else match s.tryForward r e none with
      | some s' => s'
      | none => s.bump (Reg.FAB_STATUS r) Fld.FAB_STATUS_NO_ROUTE 1
  else s

/-- R324. Link die r forwards a packet, or discards it. -/
def State.forward (s : State) (r : Nat) (k : Packet) (from_ : Option Nat) : State :=
  match s.tryForward r k from_ with
  | some s' => s'
  | none => s.discardPacket r k

/-- A unit of region r sends a packet: to this module, or out through link die r. -/
def State.send (s : State) (r : Nat) (k : Packet) : State :=
  let own := s.fget Reg.MOD_CHIP_NUMBER ⟨15, 0⟩
  let k := { k with src := if s.chip.isSome then own else 0xFFFF, ttl := 15 }
  if k.dst = 0xFFFF || (s.chip.isSome && k.dst = own) then s.deliver k else s.forward r k none

/-- R34. A route to a chip exists from link die r. -/
def State.hasRoute (s : State) (r chip : Nat) : Bool := (s.route r chip).isSome

/-- A fresh transaction tag. -/
def State.newTag (s : State) : Nat × State :=
  (s.fab.nextTag, { s with fab := { s.fab with nextTag := (s.fab.nextTag + 1) % 2 ^ 32 } })

/-- A read of another module is open until its reply comes. -/
def State.addRead (s : State) (x : RemRead) : State := { s with fab := { s.fab with reads := s.fab.reads ++ [x] } }

end Sys2Proof.Machine
end

