-- ==== Sys2Proof/Machine/GMem.lean ====
section
/-!
DEFINITION. Reads and writes of global addresses by the module's own units (spec/01 R29-R53): cut at 4 KiB boundaries, so
that each piece lies in one range of the offset map and in one stack (R50, R51).
-/
namespace Sys2Proof.Machine

open Sys2Proof

/-- How far an address lies before the next place where a request is cut: the end of its 4 KiB page, or of the register space (R50, R51). -/
def pieceRoom (a : Nat) : Nat :=
  let off := a % 2 ^ 48
  if 0x030000000000 ≤ off && off < 0x030001000000 then 0x030001000000 - off else 4096 - a % 4096

/-- An address range cut so that each piece lies in one range of the map and in one stack: (address, length) pieces; the fuel bounds
their number. -/
def pieces : Nat → Nat → Nat → List (Nat × Nat)
  | 0, _, _ => []
  | fuel + 1, a, n =>
    if n = 0 then []
    else
      let m := min n (pieceRoom a)
      (a, m) :: pieces fuel (a + m) (n - m)

/-- The pieces of n bytes from address a. -/
def piecesOf (a n : Nat) : List (Nat × Nat) := pieces (n / 4096 + 2) a n

/-- The place in HBM or staging SRAM of a location. -/
def Loc.place : Loc → Option Nat
  | .hbm a => some a
  | .staging a => some (2 ^ 40 + a)
  | _ => none

/-- The place in HBM or staging SRAM that a global address names on this module. -/
def State.placeOf (s : State) (addr : Nat) : Option Nat :=
  match s.gloc addr with
  | .own l => l.place
  | _ => none

/-- Every piece of the range lies in HBM or staging SRAM of this module. -/
def State.inOwnMem (s : State) (addr n : Nat) : Bool := (piecesOf addr n).all (fun p => (s.placeOf p.1).isSome)

/-- Every piece of the range lies in this module's HBM. -/
def State.inOwnHbm (s : State) (addr n : Nat) : Bool := (piecesOf addr n).all (fun p => (s.hbmOf p.1).isSome)

/-- A request of a unit of this module finds no place (R33, R35). -/
def State.isUnmapped (s : State) (r addr : Nat) : Bool :=
  match s.gloc addr with
  | .own .unmapped => true
  | .none => true
  | .remote c _ => !s.hasRoute r c
  | _ => false

/-! ### Who asks (R46, R48) -/

/-- R48. The request carries the management-plane attribute. -/
def mgmtOf : Master → Bool
  | .mgmtPort => true
  | .jtag => true
  | .tmp _ _ _ => true
  | .ring n => 224 ≤ n && n < 256
  | .block _ o => 224 ≤ o.ring && o.ring < 256
  | .ledger _ o => 224 ≤ o.ring && o.ring < 256
  | .link _ o => 224 ≤ o.ring && o.ring < 256
  | .service o => 224 ≤ o.ring && o.ring < 256
  | .remote _ _ vc f _ _ _ => vc == 6 && f
  | .host => false

/-- R54, R324. The region whose switch and link die a master's requests enter: its own; for another module that of the receiving link
die; region 0 for the host; for the primary
Trelfort, and the management port and the TAPs behind it, that of its controller bridge (R12). -/
def State.entry (s : State) : Master → Nat
  | .block b _ => b / 8
  | .ledger r _ => r
  | .link r _ => r
  | .service _ => if s.primary = some 1 then 7 else 0
  | .mgmtPort => if s.primary = some 1 then 7 else 0
  | .jtag => if s.primary = some 1 then 7 else 0
  | .tmp die _ _ => if die = 1 then 7 else 0
  | .host => 0
  | .ring _ => 0
  | .remote r _ _ _ _ _ _ => r

/-- The descriptor that a master's request serves. -/
def originOf : Master → Origin
  | .block _ o => o
  | .ledger _ o => o
  | .link _ o => o
  | .service o => o
  | .ring n => { ring := n }
  | .remote _ _ _ _ _ layer op => { layer := layer, op := op }
  | _ => {}

/-- R35. The context of a report about an access: the requester's, and the register decoder or region switch of the Ledger die that
decodes the address. -/
def State.whoCtx (s : State) (who : Master) : Ctx :=
  let o := originOf who
  { die := 0x40 + s.entry who, unit := 0x12, region := some (s.entry who), ring := min o.ring 0xFF, seq := o.seq, layer := o.layer, op := o.op,
    blk := match who with | .block b _ => some b | _ => none }

/-- The unit of a die that makes a request. -/
def masterOf (die : Nat) (o : Origin) : Master :=
  if die < 0x40 then .block die o
  else if die < 0x48 then .ledger (die - 0x40) o
  else if die < 0x50 then .link (die - 0x48) o
  else .service o

/-- This module's own address of an offset. -/
def ownAt (off : Nat) : Nat := 0xFFFF * 2 ^ 48 + off

/-! ### Registers -/

/-- R753. The die that answers for a register: none for a block of the primary Trelfort. -/
def holderOf (off : Nat) : Option Nat :=
  let b := off / 0x100000
  if b = 1 then some 0x48
  else if b = 2 || b = 7 then some 0x40
  else if b = 3 then (if off % 0x100000 < 0x80000 then some (0x40 + off % 0x100000 / 0x10000 % 8) else some (0x40 + off % 0x80000 / 0x100 % 8))
  else if b = 4 then some (0x40 + off % 0x100000 / 0x10000 % 8)
  else if b = 5 then (if off % 0x100000 < 0x80000 then some (0x48 + off % 0x100000 / 0x10000 % 8) else some 0x48)
  else if b = 6 then some (0x48 + off % 0x100000 / 0x2000 % 8)
  else none

/-- R759. The holder of a register answers. -/
def State.answers (s : State) (off : Nat) : Bool :=
  match holderOf off with
  | some d => s.blockUp d
  | none => s.primary.isSome

/-- R759. A holder that does not answer is reported. -/
def State.noAnswer (s : State) (off : Nat) : State := s.unmapped off { die := 0x40, unit := 0x18, region := some 0 }

/-- The SEQ of the next record that the primary copies to its flash (R646). -/
def State.flashNext (s : State) : Nat := if s.primary = some 1 then s.evr.next1 else s.evr.next0

/-- R645. How many records a read of POP[i] releases. -/
def State.popCount (s : State) (i : Nat) : Nat :=
  let tail := s.fget Reg.EVR_TAIL_SEQ Fld.EVR_TAIL_SEQ_SEQ
  match (List.range s.evrHeld).find? (fun k => (tail + k) % 65536 == i) with
  | none => 0
  | some k => if s.evr.full then k + 1 else min (k + 1) (subMod 32 s.flashNext tail)

/-- R645. A read of POP[i]: records are released, and their number and the new TAIL_SEQ returned. -/
def State.evrPop (s : State) (i : Nat) : State × Word :=
  let n := s.popCount i
  let s1 := s.count Reg.EVR_TAIL_SEQ Fld.EVR_TAIL_SEQ_SEQ n
  (s1, BitVec.ofNat 64 (n * 2 ^ 32 + s1.fget Reg.EVR_TAIL_SEQ Fld.EVR_TAIL_SEQ_SEQ))

/-- R4, R47, R49, R101, R645, R755, R756, R759. A read of a register's 64 bits. -/
def State.regRead (s : State) (who : Master) (off : Nat) : State × Word :=
  if !s.answers off then (s.noAnswer off, 0#64)
  else if 0xE40000 ≤ off && off < 0xE80000 && !(mgmtOf who) then (s.unmapped (ownAt (0x030000000000 + off)) (s.whoCtx who), 0#64)
  else if 0xC80000 ≤ off && off < 0xD00000 then s.evrPop ((off - 0xC80000) / 8)
  else (s, s.regPeek (mgmtOf who) off)

/-- R4. A read of register space: whole registers, a narrower aligned part of one, or a misaligned access, which is rejected with the
byte offset and the value 0 (assumption 112). -/
def State.regBytes (s : State) (who : Master) (off n : Nat) : State × List Byte :=
  if n % 8 = 0 && off % 8 = 0 then
    (List.range (n / 8)).foldl (fun (q : State × List Byte) i =>
      let r := q.1.regRead who (off + 8 * i)
      (r.1, q.2 ++ leBytes 8 r.2.toNat)) (s, [])
  else if [1, 2, 4].contains n && off % n = 0 then
    let r := s.regRead who (off / 8 * 8)
    (r.1, ((leBytes 8 r.2.toNat).drop (off % 8)).take n)
  else (s.rejected off 0 none, List.replicate n 0#8)

/-- R500. While a reset runs, some piece of the range lies in staging SRAM that is unmapped. -/
def State.resetGone (s : State) (r addr n : Nat) : Bool :=
  s.hang.reset.isSome && (piecesOf addr n).any (fun p => s.isUnmapped r p.1)

/-- R4. Bytes of register space as a read finds them: whole registers, a narrower aligned part of one, or zeros for a misaligned
access (assumption 112). -/
def State.regPart (s : State) (mgmt : Bool) (off n : Nat) : List Byte :=
  if n % 8 = 0 && off % 8 = 0 then (List.range (n / 8)).flatMap (fun i => leBytes 8 (s.regPeek mgmt (off + 8 * i)).toNat)
  else if [1, 2, 4].contains n && off % n = 0 then ((leBytes 8 (s.regPeek mgmt (off / 8 * 8)).toNat).drop (off % 8)).take n
  else List.replicate n 0#8

/-- The bytes of n places of one piece of this module; zero where the piece is unmapped (R35). -/
def State.pieceRead (s : State) (mgmt : Bool) (p : Nat × Nat) : List Byte :=
  match s.gloc p.1 with
  | .own (.hbm a) => s.mem.read a p.2
  | .own (.staging a) => s.mem.read (2 ^ 40 + a) p.2
  | .own (.trf o) => rdTbl s.mem.trf o p.2
  | .own (.reg off) => s.regPart mgmt off p.2
  | _ => List.replicate p.2 0#8

/-- A range of global addresses of this module as its units read it. -/
def State.gread (s : State) (addr n : Nat) : List Byte := (piecesOf addr n).flatMap (s.pieceRead false)

/-- R433. One piece as a plain reader finds it: a WITHDRAWN page reads as zero. -/
def State.plainPiece (s : State) (mgmt : Bool) (p : Nat × Nat) : List Byte :=
  match s.placeOf p.1 with
  | some a => if s.isWithdrawn (a / 4096) then List.replicate p.2 0#8 else s.pieceRead mgmt p
  | none => s.pieceRead mgmt p

/-- A range of global addresses of this module as a unit that knows no tags reads it. -/
def State.plainBytes (s : State) (addr n : Nat) : List Byte := (piecesOf addr n).flatMap (s.plainPiece false)

/-- R34, R35, R46, R49. One piece of a read by a unit of this module, which may lead anywhere: a register is read as by any master, a
piece that is unmapped reads as zero and is reported. What another module holds is no part of this state: it is an operand of the
command, or reads as zero. -/
def State.fetchPiece (s : State) (who : Master) (p : Nat × Nat) : State × List Byte :=
  match s.gloc p.1 with
  | .own (.reg off) => s.regBytes who off p.2
  | .own l => if s.isUnmapped (s.entry who) p.1 then (s.unmapped p.1 (s.whoCtx who), List.replicate p.2 0#8)
              else (s.crossTo (s.entry who) p.2 l, s.plainPiece (mgmtOf who) p)
  | _ => (if s.isUnmapped (s.entry who) p.1 then s.unmapped p.1 (s.whoCtx who) else s, List.replicate p.2 0#8)

/-- R46, R50. A read of global addresses by a unit of this module. -/
def State.fetchBytes (s : State) (who : Master) (addr n : Nat) : State × List Byte :=
  (piecesOf addr n).foldl (fun (q : State × List Byte) p => let x := q.1.fetchPiece who p; (x.1, q.2 ++ x.2)) (s, [])

/-- Some burst of the range is poisoned (R221). -/
def State.gpoisoned (s : State) (addr n : Nat) : Bool :=
  (piecesOf addr n).any (fun p => match s.placeOf p.1 with | some a => s.poisonedAt a p.2 | none => false)

/-- The pages of this module that the range touches. -/
def State.gpages (s : State) (addr n : Nat) : List Nat :=
  (piecesOf addr n).flatMap (fun p => match s.placeOf p.1 with | some a => pagesOf a p.2 | none => [])

/-- R46. The Trelfort window takes writes only in the exchange areas. -/
def trfWritable (o : Nat) : Bool := 0x300000 ≤ o % 0x800000 && o % 0x800000 < 0x400000

/-! ### Writes held for a Sump copy (spec/13 R553-R568) -/

/-- A protected range in use (R553, R597): its index, kind, first page, pages, NARROW, FMT and ID_BASE. -/
structure Prot where
  index  : Nat
  kind   : Nat
  page0  : Nat
  pages  : Nat
  narrow : Bool
  fmt    : Nat
  idBase : Nat
  deriving DecidableEq, Repr

/-- The protected range of index i as a pair of register words gives it. -/
def protOf (i : Nat) (a b : Word) : Option Prot :=
  if Fld.CKP_RANGE_A_KIND.get a = 0 then none
  else some { index := i, kind := Fld.CKP_RANGE_A_KIND.get a, page0 := Fld.CKP_RANGE_A_BASE.get a - 0x10000000,
              pages := Fld.CKP_RANGE_B_PAGES.get b, narrow := Fld.CKP_RANGE_A_NARROW.get a == 1,
              fmt := Fld.CKP_RANGE_B_FMT.get b, idBase := Fld.CKP_RANGE_B_ID_BASE.get b }

/-- The protected ranges in force, in index order. -/
def State.prots (s : State) : List Prot :=
  (List.range 32).filterMap (fun i => protOf i (tblGet regReset s.inForce (Reg.CKP_RANGE_A i)) (tblGet regReset s.inForce (Reg.CKP_RANGE_B i)))

/-- The range that protects a page. -/
def State.protOfPage (s : State) (page : Nat) : Option Prot :=
  s.prots.find? (fun r => r.page0 ≤ page && page < r.page0 + r.pages)

/-- The pages that are copied together with a page: its unit in a NARROW range, else itself. -/
def unitOf (r : Prot) (page : Nat) : List Nat :=
  if r.narrow then (List.range 5).map (fun i => r.page0 + (page - r.page0) / 5 * 5 + i) else [page]

/-- R568. A write to some page of n bytes from place a has to wait for the copy of its unit. -/
def State.sumpHolds (s : State) (a n : Nat) : Bool :=
  s.sump.cut.isSome && (pagesOf a n).any (fun p => p < 2 ^ 28 &&
    match s.protOfPage p with | some r => (unitOf r p).any s.inactiveDirty | none => false)

/-- A held write waits for a page of the range: a later write does not overtake it. -/
def State.behindHeld (s : State) (a n : Nat) : Bool :=
  s.heldWr.any (fun w => (pagesOf w.key w.data.length).any (pagesOf a n).contains)

/-- R224. Two requests come from one master. -/
def sameMaster : Master → Master → Bool
  | .remote _ c _ _ _ _ _, .remote _ d _ _ _ _ _ => c == d
  | .block a _, .block b _ => a == b
  | .ledger a _, .ledger b _ => a == b
  | .link a _, .link b _ => a == b
  | .service _, .service _ => true
  | .tmp _ _ _, .tmp _ _ _ => true
  | a, b => a == b

/-- The bursts of this module that n bytes at a global address touch. -/
def State.gbursts (s : State) (addr n : Nat) : List Nat :=
  (piecesOf addr n).flatMap (fun p => match s.placeOf p.1 with | some a => burstsOf a p.2 | none => [])

/-- R224. A read of the same master that waits, older than a stamp, touches one of the bursts. -/
def State.behindRead (s : State) (who : Master) (stamp : Nat) (bs : List Nat) : Bool :=
  s.waitRd.any (fun w => w.stamp < stamp && sameMaster w.who who && (s.gbursts w.addr w.len).any bs.contains)

/-- R224. A held write of the same master, older than a stamp, touches one of the bursts. -/
def State.behindWrite (s : State) (who : Master) (stamp : Nat) (bs : List Nat) : Bool :=
  s.heldWr.any (fun w => w.stamp < stamp && sameMaster w.who who && (burstsOf w.key w.data.length).any bs.contains)

/-- R53, R224, R415, R568. A plain write of HBM or staging SRAM: applied, or held until the Sump copy engine has copied the pages, older
writes to them are admitted and older reads of its master have been served. -/
def State.plainWrite (s : State) (who : Master) (a : Nat) (d : List Byte) : State :=
  if s.sumpHolds a d.length || s.behindHeld a d.length || s.behindRead who s.order (burstsOf a d.length) then
    let s1 : State := { s with heldWr := s.heldWr ++ [{ who := who, stamp := s.order, key := a, data := d }], order := s.order + 1 }
    if s.sumpHolds a d.length then s1.bump (Reg.LDG_SUMP_STATUS (regionOfPage (a / 4096))) Fld.LDG_SUMP_STATUS_HELD_WRITES 1 else s1
  else s.writePlain a d

/-- R117. The GEN of the function that makes a request: the one that runs the descriptor which the request serves, or the function of
the unit's die. -/
def State.genOf (s : State) (who : Master) : Nat :=
  match s.started.find? (fun d => d.ring == (originOf who).ring && d.seq == (originOf who).seq) with
  | some d => s.gen d.fn
  | none => match who with
    | .block _ _ => s.gen 0
    | .link r _ => s.gen (0x30 + r)
    | .service _ => s.gen 0x50
    | _ => 0

/-- The packet of a posted write by a unit (R48, R117, R322, R323). -/
def State.writePacket (s : State) (who : Master) (chip off vc : Nat) (d : List Byte) : Packet :=
  { dst := chip, src := chip, kind := 0x03, gen := s.genOf who, addr := off, body := d, layer := (originOf who).layer, op := (originOf who).op,
    vc := if mgmtOf who then 6 else vc, flags := if mgmtOf who then 2 else 0 }

/-- One piece of a plain write by a unit of this module. A piece in register space or in another module travels as a posted write
packet, which a MEMORY_WRITE of its receiver serves. -/
def State.pieceWrite (s : State) (who : Master) (vc addr : Nat) (d : List Byte) : State :=
  let r := s.entry who
  match s.gloc addr with
  | .own (.hbm a) => (s.crossTo r d.length (.hbm a)).plainWrite who a d
  | .own (.staging a) => (s.crossTo r d.length (.staging a)).plainWrite who (2 ^ 40 + a) d
  | .own (.trf o) =>
    if trfWritable o then
      let s1 := s.crossTo r d.length (.trf o)
      { s1 with mem := { s1.mem with trf := wrTbl s1.mem.trf o d } }
    else s.unmapped addr (s.whoCtx who)
  | .own (.reg off) => s.deliver (s.writePacket who 0xFFFF (0x030000000000 + off) 1 d)
  | .own .unmapped => s.unmapped addr (s.whoCtx who)
  | .none => s.unmapped addr (s.whoCtx who)
  | .remote c off =>
    if s.hasRoute r c then s.send r (s.writePacket who c off vc d) else s.unmapped addr (s.whoCtx who)

/-- The pieces of data with the address of each. -/
def dataPieces (addr : Nat) (d : List Byte) : List (Nat × List Byte) :=
  (piecesOf addr d.length).map (fun p => (p.1, (d.drop (p.1 - addr)).take p.2))

/-- A plain write of a unit to global addresses (R415). -/
def State.gwrite (s : State) (who : Master) (vc addr : Nat) (d : List Byte) : State :=
  (dataPieces addr d).foldl (fun s p => s.pieceWrite who vc p.1 p.2) s

/-- A write of the module to host memory over PCIe. -/
def State.hostWrite (s : State) (addr : Nat) (d : List Byte) : State :=
  { s with mem := { s.mem with hostW := wrTbl s.mem.hostW addr d } }

end Sys2Proof.Machine
end

