-- ==== Sys2Proof/Machine/Flags.lean ====
section
/-!
DEFINITION. The flags and codes of descriptors and completion records: FLAGS of a descriptor (spec/02 R66), STATUS values
(R94), FLAGS of a completion record (R93), ring classes (R61), and how a STATUS decides what an event carries (R84).
-/
namespace Sys2Proof.Machine

open Sys2Proof

/-! ### STATUS (R94) -/
def stSUCCESS : Nat := 0x0000
def stCANCELLED : Nat := 0x0001
def stABORTED : Nat := 0x0002
def stDEADLINE : Nat := 0x0003
def stBAD_OPCODE : Nat := 0x0004
def stBAD_SEQ : Nat := 0x0005
def stBAD_OPERAND : Nat := 0x0006
def stGEN_STALE : Nat := 0x0007
def stFAULTED : Nat := 0x0008
def stREFUSED : Nat := 0x0009
def stRETRACTION : Nat := 0x000A

/-! ### FLAGS of a completion record (R93): bits 0 to 3 -/
def flBOUND_EXT : Nat := 1
def flUNCONFIRMED : Nat := 2
def flRETRACTED : Nat := 4
def flFALLBACK : Nat := 8

/-- A completion flag is among the flags. -/
def hasFlag (flags f : Nat) : Bool := flags / f % 2 == 1

/-- The flags with one more. -/
def addFlag (flags f : Nat) : Nat := if hasFlag flags f then flags else flags + f

/-! ### FLAGS of a descriptor (R66), read from its 64 bytes -/
def dFlags (b : List Byte) : Nat := leAt b 2 2
def dSIGNAL (b : List Byte) : Bool := bitOf (dFlags b) 0
def dIRQ (b : List Byte) : Bool := bitOf (dFlags b) 1
def dPARAM (b : List Byte) : Bool := bitOf (dFlags b) 2
def dSERIAL (b : List Byte) : Bool := bitOf (dFlags b) 3
def dSIG_RING (b : List Byte) : Nat := bitsOf (dFlags b) 15 8

/-- The RSVD bits of bytes 0 to 23 are all zero (R66, R65, R78). -/
def rsvdClear (b : List Byte) : Bool := bitsOf (dFlags b) 7 4 == 0 && bitsOf (leAt b 21 1) 7 1 == 0

/-- R84. A completion of this STATUS sets POISON in the bank that its event goes to. -/
def poisons (status : Nat) : Bool := status != stSUCCESS

/-- R61. The opcode class that a submission ring accepts. -/
def ringClass (n : Nat) : Nat :=
  if n < 32 then 1 else if n < 128 then 2 else if n < 192 then 3 else if n < 224 then 4 else 5

/-- R69, and the operations of the chapters, by opcode. -/
def opDefined (o : Nat) : Bool :=
  [0x0000, 0x1001, 0x1003, 0x1020, 0x2001, 0x2010, 0x2011, 0x2018, 0x2020, 0x2021, 0x3001, 0x3002, 0x3010, 0x3018,
   0x4001, 0x4010, 0x4020, 0x4030, 0x4050, 0x4058, 0x5010, 0x5020, 0x5030, 0x5040, 0x5050, 0x5060].contains o

end Sys2Proof.Machine
end

