-- ==== Sys2Proof/Machine/Operands.lean ====
section
/-!
DEFINITION. The operand forms of a descriptor (spec/02 R65, R67): its header fields, inline operands by byte number, and
the parameter block that FLAGS.PARAM names.
-/
namespace Sys2Proof.Machine

open Sys2Proof

/-! ### Header fields (R65) -/
def dOPCODE (b : List Byte) : Nat := leAt b 0 2
def dRING_SEQ (b : List Byte) : Nat := leAt b 4 4
def dLAYER (b : List Byte) : Nat := leAt b 8 2
def dOP (b : List Byte) : Nat := leAt b 10 2
def dSTEP (b : List Byte) : Nat := leAt b 12 4
def dDEADLINE (b : List Byte) : Nat := leAt b 16 4
def dGEN (b : List Byte) : Nat := leAt b 20 1
def dTRACE (b : List Byte) : Bool := bitOf (leAt b 21 1) 0
def dWAIT (b : List Byte) : Nat := leAt b 22 2

/-! ### The parameter block reference (R67) -/
def dParamAddr (b : List Byte) : Nat := leAt b 24 8
def dParamLen (b : List Byte) : Nat := leAt b 32 4

/-- R67. The reference is well formed: 64 to 4,096 bytes in multiples of 64, at a 64-byte aligned address. -/
def dParamOk (b : List Byte) : Bool :=
  64 ≤ dParamLen b && dParamLen b ≤ 4096 && dParamLen b % 64 == 0 && dParamAddr b % 64 == 0

/-- Bytes lo to hi of a byte string are all zero. -/
def zeroBytes (b : List Byte) (lo hi : Nat) : Bool := ((b.drop lo).take (hi + 1 - lo)).all (· == 0#8)

end Sys2Proof.Machine
end

