-- ==== Sys2Proof/Machine/Complete.lean ====
section
/-!
DEFINITION. Completion of descriptors (spec/02 R82-R85, R93-R100, R775): records, PHASE, events, POISON, MSI-X, the
reserved slots, and the counting of records that a ring cannot take.
-/
namespace Sys2Proof.Machine

open Sys2Proof

/-- The function of submission ring n and of completion ring m (R103). -/
def sqFn (n : Nat) : Nat := 0x100 + n
def cqFn (m : Nat) : Nat := 0x200 + m

/-- R63, R72. The number of entries a LOG2_SIZE in force gives; zero where none is in force. -/
def sizeOf (log2 : Nat) : Nat := if 6 ≤ log2 && log2 ≤ 16 then 2 ^ log2 else 0

def State.sqSize (s : State) (n : Nat) : Nat := sizeOf (s.cfg (Reg.RING_SQ_CFG n) Fld.RING_SQ_CFG_LOG2_SIZE)
def State.cqSize (s : State) (m : Nat) : Nat := sizeOf (s.cfg (Reg.RING_CQ_CFG m) Fld.RING_CQ_CFG_LOG2_SIZE)

/-- R64. The completion ring of submission ring n. -/
def State.cqOf (s : State) (n : Nat) : Nat := s.cfg (Reg.RING_SQ_CFG n) Fld.RING_SQ_CFG_CQ

def noSq (_ : Nat) : SqSt := {}
def State.sqSt (s : State) (n : Nat) : SqSt := tblGet noSq s.sq n
def State.setSq (s : State) (n : Nat) (v : SqSt) : State := { s with sq := tblPut noSq s.sq n v }

/-- Bytes 0 to 30 of a record (R93). -/
def recordHead (seq step time : Nat) (d : Done) : List Byte :=
  leBytes 4 seq ++ leBytes 2 d.status ++ leBytes 1 d.cls ++ leBytes 1 d.flags ++ leBytes 4 time ++ leBytes 4 step ++
    leBytes 8 d.result ++ leBytes 1 d.die ++ leBytes 1 d.unit ++ leBytes 1 d.cell ++ leBytes 1 d.port ++
    leBytes 1 d.cring ++ leBytes 2 0

/-- What a descriptor's unit says of it in its requests. -/
def originOfDesc (n seq : Nat) (b : List Byte) : Origin := { ring := n, seq := seq, layer := dLAYER b, op := dOP b }

/-- The ring engines of link die 0, for a descriptor. -/
def ringMaster (n seq : Nat) (b : List Byte) : Master := .link 0 (originOfDesc n seq b)

/-- Bytes into a ring in host memory (LOC 0) or in global space (LOC 1). -/
def State.ringWrite (s : State) (who : Master) (loc : Bool) (addr : Nat) (d : List Byte) : State :=
  if loc then s.gwrite who 1 addr d else s.hostWrite addr d

/-- R99, R124. PHASE of the pass that a record number lies on. -/
def phaseOf (size tail : Nat) : Nat := if tail / size % 2 = 0 then 0x80 else 0

/-- R100. A message of the vector is sent, held in its Pending Bit when masked, or neither when MSI-X is off. -/
def State.msixSend (s : State) (v : Nat) : State :=
  if !s.pcie.msixEn then s
  else if s.pcie.fnMask || s.pcie.vecMask.contains v then
    (if s.pcie.pend.contains v then s else { s with pcie := { s.pcie with pend := s.pcie.pend ++ [v] } })
  else s.emit (.msix v)

/-- R97, R775. Completion ring m writes the records that become ready for it. -/
def State.cqWrites (s : State) (m : Nat) : Bool := (s.fnState (cqFn m) == fnRUN || s.fnState (cqFn m) == fnDRAIN) && s.cqSize m != 0

/-- R97-R99, R775. Write a record into the next slot of completion ring m, bytes 0-30 and then byte 31, or drop it. -/
def State.putRecord (s : State) (who : Master) (m seq step : Nat) (d : Done) (irq : Bool) : State :=
  if s.cqWrites m then
    let base := s.cfg (Reg.RING_CQ_BASE m) Fld.RING_CQ_BASE_BASE * 4096
    let loc := s.cfg (Reg.RING_CQ_BASE m) Fld.RING_CQ_BASE_LOC == 1
    let tail := s.fget (Reg.RING_CQ_TAIL m) Fld.RING_CQ_TAIL_TAIL
    let slot := base + 32 * (tail % s.cqSize m)
    let s := s.ringWrite who loc slot (recordHead seq step s.timeNs d)
    let s := s.ringWrite who loc (slot + 31) [BitVec.ofNat 8 (phaseOf (s.cqSize m) tail)]
    let s := s.count (Reg.RING_CQ_TAIL m) Fld.RING_CQ_TAIL_TAIL 1
    if irq then s.msixSend (s.cfg (Reg.RING_CQ_CFG m) Fld.RING_CQ_CFG_VECTOR) else s
  else s.bump (Reg.RING_CQ_STATUS m) Fld.RING_CQ_STATUS_DROPPED 1

/-- R82, R84, R85. One event to the bank of ring n, from ring `by_`, which a POISON names. -/
def State.sendEvent (s : State) (n : Nat) (poison : Bool) (by_ : Nat) : State :=
  let c := s.fget (Reg.RING_EVT_BANK n) Fld.RING_EVT_BANK_COUNT
  let s := if c ≥ 2 ^ 32 - 1 then s.fput (Reg.RING_EVT_BANK n) Fld.RING_EVT_BANK_OVERFLOW 1
    else s.fput (Reg.RING_EVT_BANK n) Fld.RING_EVT_BANK_COUNT (c + 1)
  if poison then (s.setSq n { s.sqSt n with poisonBy := by_ }).fput (Reg.RING_EVT_BANK n) Fld.RING_EVT_BANK_POISON 1 else s

/-- R95. Slots of completion ring m are reserved or released. -/
def State.reserve (s : State) (m k : Nat) : State := s.bump (Reg.RING_CQ_STATUS m) Fld.RING_CQ_STATUS_RESERVED k
def State.release (s : State) (m k : Nat) : State := s.lower (Reg.RING_CQ_STATUS m) Fld.RING_CQ_STATUS_RESERVED k

/-- The record, the slots, the event and the message of a completion of ring n: `keep` slots stay reserved (R96). The event of a record
that its ring drops sets POISON whatever the STATUS (R775). -/
def State.complete (s : State) (n : Nat) (bytes : List Byte) (seq slots keep : Nat) (d : Done) : State :=
  let m := s.cqOf n
  let bad := poisons d.status || !s.cqWrites m
  let s := s.putRecord (ringMaster n seq bytes) m seq (dSTEP bytes) d (dIRQ bytes)
  let s := s.release m (slots - keep)
  if dSIGNAL bytes then s.sendEvent (dSIG_RING bytes) bad n else s

/-- The continuity service as a master, for no descriptor (R515). -/
def trfMaster : Master := .service {}

/-- A descriptor that never starts completes at once (R776). -/
def State.completeFetched (s : State) (n : Nat) (f : Fetched) (d : Done) : State :=
  s.complete n f.bytes f.seq f.slots 0 d

/-- The context of a report about a descriptor: its ring, RING_SEQ, LAYER_ID and OP_ID. -/
def ctxOf (n : Nat) (bytes : List Byte) (die unit : Nat) : Ctx :=
  { die := die, unit := unit, ring := n, seq := dRING_SEQ bytes % 2 ^ 24, layer := dLAYER bytes, op := dOP bytes }

/-- The started descriptor of a ring and RING_SEQ. -/
def State.findStarted (s : State) (n seq : Nat) : Option Started :=
  s.started.find? (fun d => d.ring == n && d.seq == seq)

/-- Change a started descriptor. -/
def State.updStarted (s : State) (n seq : Nat) (f : Started → Started) : State :=
  { s with started := updFirst (fun d => d.ring == n && d.seq == seq) f s.started }

/-- R464. The reply to a re-issued request has come: its descriptor's module operation timer is no longer paused for it. -/
def State.answeredTimed (s : State) (tag : Nat) : State :=
  match s.flt.timed.find? (fun t => t.kind == 1 && t.tag == tag) with
  | none => s
  | some t =>
    let s1 := s.updStarted t.ring t.seq (fun d => { d with held := d.held + (s.clk.now - t.since) })
    { s1 with flt := { s1.flt with timed := s1.flt.timed.filter (fun t => !(t.kind == 1 && t.tag == tag)) } }

/-- What a started descriptor's outcome carries besides: a substitute marks it FALLBACK (R296), and a declared hang that names it
gives its class (R487). -/
def Started.outcome (x : Started) (d : Done) : Done :=
  let d1 := if x.fallback then { d with flags := addFlag d.flags flFALLBACK } else d
  if x.hang then { d1 with cls := 0x03 } else d1

/-- The die of a Trelfort service is the primary's. -/
def State.doneDie (s : State) (d : Done) : Done := if d.die = 0x50 then { d with die := s.trfDie } else d

/-- R93. The die and unit of an outcome: those of the descriptor's function where the unit that ends it names none of its own. -/
def Started.located (x : Started) (d : Done) : Done :=
  if d.die = 0x48 && d.unit = 0x26 then { d with die := dieOfFn x.fn, unit := unitOfFn x.fn } else d

/-- A started descriptor gets its outcome; the first one stands. -/
def State.setDone (s : State) (n seq : Nat) (d : Done) : State :=
  s.updStarted n seq (fun x => if x.done.isSome then x else { x with done := some (x.outcome (s.doneDie (x.located d))) })

/-- The started descriptors of function f that have no outcome. -/
def State.runningOn (s : State) (f : Nat) : List Started := s.started.filter (fun d => d.fn == f && d.done.isNone)

end Sys2Proof.Machine
end

