-- ==== Sys2Proof/Machine/Tags.lean ====
section
/-!
DEFINITION. Block tags as tag-aware units read them (spec/09 R411, R412), uncorrectable bursts (spec/05 R220-R222), and
pending pages (R432, R433).
-/
namespace Sys2Proof.Machine

open Sys2Proof

/-- The die that owns a page: the Ledger die of its stack, or the block of its staging SRAM. -/
def pageDie (page : Nat) : Nat :=
  if page < 2 ^ 28 then 0x40 + page / 2 ^ 24 / 2 else (page - 2 ^ 28) / 0x8000

/-- The context of a report that the owner of a page makes about it: the owner's Ferua sentinel, and the page's address. -/
def pageCtx (page : Nat) (c : Ctx) (off : Nat := 0) : Ctx :=
  if page < 2 ^ 28 then
    { c with die := pageDie page, unit := 0x18, region := some (regionOfPage page), k := some (page / 2 ^ 24 % 2), vals := (page * 4096 + off) :: c.vals }
  else { c with die := pageDie page, unit := 0x08, blk := some (pageDie page), vals := (page * 4096 + off) :: c.vals }

/-- R412. A page fails its CRC or its expected fields: TAG_MISMATCH (CONTAINED), with the page's address, or a row's in it (R254). -/
def State.tagMismatch (s : State) (page : Nat) (c : Ctx) (off : Nat := 0) : State :=
  (s.bump Reg.INTG_TAG_CNT Fld.INTG_TAG_CNT_MISMATCH 1).report 0x09 2 (pageCtx page c off)

/-- The CRC of a page's tag covers its contents. -/
def State.crcGood (s : State) (page : Nat) : Bool := tagCrc (s.tag page) == crc32c (s.pageBytes page)

/-- R666. A tag check of a unit on a die, and whether it failed, as events: a block counts its own, and so does a Ledger die. -/
def State.tagEvents (s : State) (c : Ctx) (failed : Bool) : State :=
  let ev := if c.die < 0x40 then 0x20 else 0x48
  if c.die < 0x48 then
    let s1 := s.evCount c.die ev 1 c.layer c.op
    if failed then s1.evCount c.die (ev + 1) 1 c.layer c.op else s1
  else s

/-- R411. A page's tag fails the check of a reader: the CRC of a page read whole, the FMT and the BLOCK_ID that the descriptor fixes. -/
def State.tagBad (s : State) (page : Nat) (whole : Bool) (fmt bid : Option Nat) : Bool :=
  (whole && !s.crcGood page) || (match fmt with | some f => tagFmt (s.tag page) != f % 256 | none => false) ||
    (match bid with | some i => tagId (s.tag page) != i % 65536 | none => false)

/-- R411, R412. A tag-aware unit reads a page, whole or in part, with the FMT and BLOCK_ID that the descriptor fixes; a check that fails is
made once more. The answer is the FAULT_CLASS of the failure, if it fails again. -/
def State.tagReadPage (s : State) (c : Ctx) (page : Nat) (whole : Bool) (fmt bid : Option Nat) (off : Nat := 0) : State × Option Nat :=
  if s.isOpen page then (s.bump Reg.INTG_TAG_CNT Fld.INTG_TAG_CNT_OPEN_READS 1, none)
  else if s.isWithdrawn page then (s.report 0x01 2 (pageCtx page c), some 0x01)
  else if s.tagBad page whole fmt bid then (((s.tagEvents c true).tagEvents c true).tagMismatch page c off, some 0x09)
  else (s.tagEvents c false, none)

/-- A fold that stops at the first failure. -/
def foldChecks {α : Type} (s : State) (f : State → α → State × Option Nat) : List α → State × Option Nat
  | [] => (s, none)
  | x :: t => match f s x with
    | (s', none) => foldChecks s' f t
    | r => r

/-- What follows a check that passed. -/
def afterCheck (q : State × Option Nat) (f : State → State) : State × Option Nat :=
  match q with
  | (s, none) => (f s, none)
  | r => r

/-- The pages of a range of this module with whether the range covers each whole. -/
def State.pagesWhole (s : State) (addr n : Nat) : List (Nat × Bool) :=
  (piecesOf addr n).filterMap (fun p => (s.placeOf p.1).map (fun a => (a / 4096, p.2 == 4096)))

/-- R221. Whether a burst in error has been read by the scrubber alone. -/
def State.noteScrubbed (s : State) (burst : Nat) (alone : Bool) : State :=
  { s with mem := { s.mem with scrubbed := if alone then s.mem.scrubbed ++ [burst] else s.mem.scrubbed.filter (· != burst) } }

/-- R220-R222. The controller detects an uncorrectable burst at a place of HBM. `by_` says that only the patrol scrubber has read it: a
later write of the whole burst then makes the report CORRECTED (R221). -/
def State.ueReport (s : State) (a : Nat) (c : Ctx) (by_ : Bool := false) : State :=
  let st := a / 2 ^ 36
  let s := s.bump (Reg.LDG_ECC_STATUS (st / 2) (st % 2)) Fld.LDG_ECC_STATUS_UE_COUNT 1
  let s := s.setReg (Reg.LDG_UE_ADDR (st / 2) (st % 2))
    (Fld.LDG_UE_ADDR_VALID.put (Fld.LDG_UE_ADDR_ADDR.put 0#64 (a % 2 ^ 36 / 64)) 1)
  let s := s.noteScrubbed (a / 64) by_
  s.report 0x07 2 { c with die := 0x60 + st, unit := 0xFF, region := some (st / 2), k := some (st % 2), vals := [a % 2 ^ 36] }

/-- R221. A unit that reads a range learns whether a burst of it is poisoned. -/
def State.poisonCheck (s : State) (c : Ctx) (addr n : Nat) : State × Option Nat :=
  foldChecks s (fun s p => match s.placeOf p.1 with
    | some a => match (burstsOf a p.2).find? (s.mem.poison.contains ·) with
      | some b => (s.ueReport (b * 64) c, some 0x07)
      | none => (s, none)
    | none => (s, none)) (piecesOf addr n)

/-- R411, R221. A tag-aware unit reads a range of this module: tags, then errors. -/
def State.awareCheck (s : State) (c : Ctx) (addr n : Nat) (fmt bid : Option Nat) : State × Option Nat :=
  match foldChecks s (fun s p => s.tagReadPage c p.1 p.2 fmt bid) (s.pagesWhole addr n) with
  | (s', none) => s'.poisonCheck c addr n
  | r => r

/-- Several ranges read by one operation. -/
def State.awareChecks (s : State) (c : Ctx) (rs : List (Nat × Nat)) : State × Option Nat :=
  foldChecks s (fun s r => s.awareCheck c r.1 r.2 none none) rs

/-! ### Pending pages (R432, R433) -/

/-- A page is pending. -/
def State.isPending (s : State) (page : Nat) : Bool := s.pages.any (·.page == page)

/-- Some page of the range is pending: a reader that may not read it waits. -/
def State.pendingIn (s : State) (addr n : Nat) : Bool := (s.gpages addr n).any s.isPending

/-- The owner of a page, as a table of pending pages: a Ledger die or a block; and how many entries its table has. -/
def ownerLimit (page : Nat) : Nat := if page < 2 ^ 28 then 4096 else 1024

/-- Entries in use in the table of one owner. -/
def State.ownerUse (s : State) (die : Nat) : Nat := (s.pages.filter (fun e => pageDie e.page == die)).length

/-- R432. The owners' tables have room for the entries of a ticket's tile that are not there yet. -/
def State.pendRoom (s : State) (ticket : Nat) (pages : List Nat) : Bool :=
  let new := pages.filter (fun p => !s.pages.any (fun e => e.page == p && e.ticket == ticket))
  new.all (fun p => s.ownerUse (pageDie p) + (new.filter (fun q => pageDie q == pageDie p)).length ≤ ownerLimit p)

/-- IN_USE and HIGH_WATER after a change of the tables (R452). -/
def State.countPending (s : State) : State :=
  let high := s.pages.foldl (fun m e => max m (s.ownerUse (pageDie e.page))) (s.fget Reg.INTG_PENDING Fld.INTG_PENDING_HIGH_WATER)
  (s.fput Reg.INTG_PENDING Fld.INTG_PENDING_IN_USE s.pages.length).fput Reg.INTG_PENDING Fld.INTG_PENDING_HIGH_WATER high

/-- R432. Pages become pending for a tile of a ticket. -/
def State.makePending (s : State) (ticket tile : Nat) (pages : List Nat) : State :=
  State.countPending { s with pages := pages.foldl (fun l p =>
    if l.any (fun e => e.page == p && e.ticket == ticket) then
      updFirst (fun e => e.page == p && e.ticket == ticket) (fun e => { e with tile := max e.tile tile }) l
    else l ++ [{ page := p, ticket := ticket, tile := tile }]) s.pages }

/-- Entries of a ticket leave the tables. -/
def State.dropPending (s : State) (ticket : Nat) (pages : List Nat) : State :=
  State.countPending { s with pages := s.pages.filter (fun e => !(e.ticket == ticket && pages.contains e.page)) }

end Sys2Proof.Machine
end

