-- ==== Sys2Proof/Machine/Access.lean ====
section
/-!
DEFINITION. Reads by the masters of the system (spec/01 R29-R60, spec/19 R753-R759): the address spaces, register reads, the
Event Recorder's POP (spec/15 R645), and reads that wait for a pending page (spec/09 R433).
-/
namespace Sys2Proof.Machine

open Sys2Proof

/-- R54-R56. The global address that an address of a space names; none where the space is unmapped. A report then names the address
within the space (assumption 112). -/
def State.spaceAddr (s : State) (sp : Space) (a : Nat) : Option Nat :=
  match sp with
  | .global => some a
  | .bar0 => if a < 0x1000000 then some (ownAt (0x030000000000 + a)) else none
  | .bar2 => if a < 0x100000 && a % 0x1000 < 8 then some (ownAt (0x030000108000 + 8 * (a / 0x1000) + a % 0x1000)) else none
  | .bar4 =>
    let w := a / 2 ^ 30
    if w < 16 && s.fget (Reg.MOD_AP_WIN w) Fld.MOD_AP_WIN_VALID = 1 then
      some (s.fget (Reg.MOD_AP_WIN w) Fld.MOD_AP_WIN_BASE * 2 ^ 30 + a % 2 ^ 30)
    else none

/-! ### Reads -/

/-- What a read found so far: its bytes, whether data of it is poisoned or withdrawn, and whether some part was mapped. -/
structure ReadAcc where
  data   : List Byte := []
  poison : Bool := false
  mapped : Bool := false
  deriving DecidableEq, Repr

/-- R36, R221, R433. One piece of a read that this module serves. -/
def State.readPiece (s0 : State) (who : Master) (addr n : Nat) (acc : ReadAcc) : State × ReadAcc :=
  let s := match s0.gloc addr with | .own l => s0.crossTo (s0.entry who) n l | _ => s0
  let zero : List Byte := List.replicate n 0#8
  match s.gloc addr with
  | .own (.reg off) => let r := s.regBytes who off n; (r.1, { acc with data := acc.data ++ r.2, mapped := true })
  | .own (.trf o) => (s, { acc with data := acc.data ++ rdTbl s.mem.trf o n, mapped := true })
  | .own .unmapped => (s.unmapped addr (s.whoCtx who), { acc with data := acc.data ++ zero })
  | .none => (s.unmapped addr (s.whoCtx who), { acc with data := acc.data ++ zero })
  | .remote _ _ => (s.unmapped addr (s.whoCtx who), { acc with data := acc.data ++ zero })
  | .own l => match l.place with
    | none => (s, acc)
    | some a =>
      if (pagesOf a n).any s.isWithdrawn then (s, { acc with data := acc.data ++ zero, poison := true, mapped := true })
      else match (burstsOf a n).find? (s.mem.poison.contains ·) with
        | some b => (s.ueReport (b * 64) (s.whoCtx who), { acc with data := acc.data ++ zero, poison := true, mapped := true })
        | none => (s, { acc with data := acc.data ++ s.mem.read a n, mapped := true })

/-- R50, R51. A read of n bytes of global addresses of this module. -/
def State.readAll (s : State) (who : Master) (addr n : Nat) : State × ReadAcc :=
  (piecesOf addr n).foldl (fun q p => q.1.readPiece who p.1 p.2 q.2) (s, {})

/-- R615, R618. A Trelfort answers a TMP request with REPLY, and keeps the answer among the last 64 of that source. -/
def State.tmpKeep (s : State) (die src type seq : Nat) (body : List Byte) : State :=
  let mine := s.trelfort.replies.filter (fun r => r.1 == 2 * src + die)
  let rest := if mine.length ≥ 64 then dropFirst (fun r => r.1 == 2 * src + die) s.trelfort.replies else s.trelfort.replies
  ({ s with trelfort := { s.trelfort with replies := rest ++ [(2 * src + die, seq, type, body)] } } : State).emit (.tmp src type seq body)

def State.tmpReply (s : State) (die src seq status : Nat) (data : List Byte) : State :=
  s.tmpKeep die src 0x03 seq (leBytes 2 status ++ leBytes 1 (s.primary.getD 0) ++ List.replicate 13 0#8 ++ data)

/-- R331, R433, R617. The answer to a read: to a master of this module or the host, by packet to another module, or by datagram. -/
def State.replyRead (s : State) (who : Master) (addr : Nat) (acc : ReadAcc) : State :=
  match who with
  | .remote r chip vc f tag layer op =>
    let k : Packet := { dst := chip, src := 0, kind := 0x02, addr := addr % 2 ^ 48, tag := tag, vc := vc, flags := if f then 2 else 0, layer := layer, op := op }
    if acc.poison then s.send r { k with kind := 0x06, err := 3 }
    else if !acc.mapped then s.send r { k with kind := 0x06, err := 2 }
    else s.send r { k with body := acc.data }
  | .tmp die src seq =>
    if acc.poison then s.tmpReply die src seq 4 []
    else if !acc.mapped then s.tmpReply die src seq 2 []
    else s.tmpReply die src seq 0 acc.data
  | _ => s.emit (.readReply who addr acc.data acc.poison)

/-- R224, R433. A plain read waits while a page of it is pending, or an older write of its master to one of its bursts is held. -/
def State.readWaits (s : State) (who : Master) (stamp addr n : Nat) : Bool :=
  s.pendingIn addr n || s.behindWrite who stamp (s.gbursts addr n)

/-- R433. A plain read of this module is served, or waits. -/
def State.serveRead (s : State) (who : Master) (addr n : Nat) : State :=
  if s.readWaits who s.order addr n then
    { s with waitRd := s.waitRd ++ [{ who := who, stamp := s.order, addr := addr, len := n }], order := s.order + 1 }
  else let r := s.readAll who addr n; r.1.replyRead who addr r.2

/-- R433. Waiting reads that need wait no longer are served. -/
def State.serveWaiting (s : State) : State :=
  let ready := s.waitRd.filter (fun w => !s.readWaits w.who w.stamp w.addr w.len)
  ready.foldl (fun s w => let r := s.readAll w.who w.addr w.len; r.1.replyRead w.who w.addr r.2)
    { s with waitRd := s.waitRd.filter (fun w => s.readWaits w.who w.stamp w.addr w.len) }

/-- How far an address of a space lies before the next place where a request is cut: the end of a BAR4 window (R60), of the register
blocks in BAR0 (R54), of a doorbell or of the gap behind it in BAR2 (R55). -/
def spaceRoom : Space → Nat → Nat
  | .global, _ => 2 ^ 64
  | .bar0, a => if a < 0x1000000 then 0x1000000 - a else 2 ^ 64
  | .bar2, a => if 0x100000 ≤ a then 2 ^ 64 else if a % 0x1000 < 8 then 8 - a % 0x1000 else 0x1000 - a % 0x1000
  | .bar4, a => 2 ^ 30 - a % 2 ^ 30

/-- R50, R60. The parts (address, length) of a request to a space; the fuel bounds their number. -/
def cutSpace (sp : Space) : Nat → Nat → Nat → List (Nat × Nat)
  | 0, _, _ => []
  | fuel + 1, a, n =>
    if n = 0 then []
    else
      let m := min n (spaceRoom sp a)
      (a, m) :: cutSpace sp fuel (a + m) (n - m)

def spaceParts (sp : Space) (a n : Nat) : List (Nat × Nat) := cutSpace sp (n / 2048 + 4) a n

/-- R322. What one packet holds goes in one; a longer request is split where pages end. -/
def bodies (a n : Nat) : List (Nat × Nat) := if n ≤ 4096 then [(a, n)] else piecesOf a n

/-- The parts of a read: as the space cuts it, each no longer than a packet's body holds. -/
def readParts (sp : Space) (a n : Nat) : List (Nat × Nat) := (spaceParts sp a n).flatMap (fun q => bodies q.1 q.2)

/-- A request for a read of another module that a master makes (R48, R322). -/
def readPacket (who : Master) (chip off n tag : Nat) : Packet :=
  { dst := chip, src := chip, kind := 0x01, addr := off, tag := tag, body := leBytes 8 n, layer := (originOf who).layer, op := (originOf who).op,
    vc := if mgmtOf who then 6 else 4, flags := if mgmtOf who then 2 else 0 }

/-- R220. What the codes find on the bursts of a range that this module serves. -/
def State.eccIn (s : State) (addr n : Nat) (ecc : EccFinds) : State :=
  let bs := s.gbursts addr n
  s.eccAll (ecc.filter (fun e => bs.contains e.1))

/-- One part of a read by a master: served here, or sent to the module that its address names (R31, R34). -/
def State.readPart (s : State) (who : Master) (sp : Space) (addr n : Nat) (ecc : EccFinds) : State :=
  match s.spaceAddr sp addr with
    | none => (s.unmapped addr (s.whoCtx who)).replyRead who addr { data := List.replicate n 0#8 }
    | some a => match s.gloc a with
      | .remote c off =>
        if s.hasRoute (s.entry who) c then
          let t := s.newTag
          let s1 := t.2.addRead { tag := t.1, who := who, addr := a, len := n, since := t.2.clk.now }
          s1.send (s.entry who) (readPacket who c off n t.1)
        else (s.unmapped a (s.whoCtx who)).replyRead who a { data := List.replicate n 0#8 }
      | _ => (s.eccIn a n ecc).serveRead who a n

/-- R60, R702. A read by a master; before the BARs are open the endpoint takes no request of the host. -/
def memoryRead (s : State) (who : Master) (sp : Space) (addr n : Nat) (ecc : EccFinds) : State :=
  if who == .host && !s.pcie.bars then s else (readParts sp addr n).foldl (fun s p => s.readPart who sp p.1 p.2 ecc) s

/-- R36. The MEMORY_READ command; `ecc` is what the codes find on the bursts of HBM that it reads. -/
def execMemoryRead (who : Master) (sp : Space) (addr len : Nat) (ecc : EccFinds) (s : State) : Host.Outcome State Fault Refusal :=
  .next (memoryRead s who sp addr len ecc)

/-- R759. REGISTER_HOLDER_TIMEOUT: zero for a read, a write discarded, and the report. -/
def execRegisterHolderTimeout (who : Master) (off : Nat) (write : Bool) (s : State) : Host.Outcome State Fault Refusal :=
  .next (let s1 := s.noAnswer off
    if write then s1 else s1.emit (.readReply who (ownAt (0x030000000000 + off)) (List.replicate 8 0#8) false))

/-- R645. The EVR_POP command: a read of POP[i] by a master. -/
def execEvrPop (who : Master) (i : Nat) (s : State) : Host.Outcome State Fault Refusal :=
  .next (if i < 65536 then
      let r := s.evrPop i
      r.1.emit (.readReply who (ownAt (0x030000C80000 + 8 * i)) (leBytes 8 r.2.toNat) false)
    else s)

end Sys2Proof.Machine
end

