-- ==== Sys2Proof/Machine/Trace.lean ====
section
/-!
DEFINITION. Sequencer branch trace: when it runs, its packets and its sinks (spec/16 R680-R686, spec/04 R217).
-/
namespace Sys2Proof.Machine

open Sys2Proof

/-- The key of a descriptor in a list of traced descriptors. -/
def descKey (n seq : Nat) : Nat := n * 2 ^ 32 + seq

/-- R686. TRACE_CFG and TRACE_BASE take effect, and the pointers return to zero. -/
def State.applyTrace (s : State) : State :=
  if s.obs.trDirty then
    let s1 : State := { s with obs := { s.obs with
        trCfg := s.reg Reg.OBS_TRACE_CFG, trBase := s.reg Reg.OBS_TRACE_BASE, trDirty := false, trPost := [], trCount := [], trLost := [] } }
    (List.range 64).foldl (fun s b => s.setReg (Reg.OBS_TRACE_PTR b) 0#64) s1
  else s

/-- R680. A descriptor is traced. -/
def State.traces (s : State) (b : List Byte) : Bool :=
  let m := Fld.OBS_TRACE_CFG_MODE.get s.obs.trCfg
  m == 2 || (m == 1 && dTRACE b)

/-- R683. WPTR moves on by a packet within a size; the caller says what a wrap sets. -/
def State.traceStep (s : State) (b size : Nat) (wrap : State → State) : State :=
  let w := s.fget (Reg.OBS_TRACE_PTR b) Fld.OBS_TRACE_PTR_WPTR + 16
  let s1 := s.fput (Reg.OBS_TRACE_PTR b) Fld.OBS_TRACE_PTR_WPTR (w % size)
  if size ≤ w then wrap s1 else s1

/-- The buffer of a block stops. -/
def State.traceStopped (s : State) (b : Nat) : State := s.fput (Reg.OBS_TRACE_PTR b) Fld.OBS_TRACE_PTR_STOPPED 1

/-- R685. A packet after a trigger. -/
def State.tracePost (s : State) (b : Nat) : State :=
  match tblGet zeroAt s.obs.trPost b with
  | 0 => s
  | n + 1 =>
    let s1 : State := { s with obs := { s.obs with trPost := tblPut zeroAt s.obs.trPost b n } }
    if n = 0 then s1.traceStopped b else s1

/-- R683, R691. A packet of block b goes to its sink; the pins show it in mode 2. -/
def State.tracePut (s : State) (b : Nat) (p : List Byte) : State :=
  let cfg := s.obs.trCfg
  let sink := Fld.OBS_TRACE_CFG_SINK.get cfg
  let w := s.fget (Reg.OBS_TRACE_PTR b) Fld.OBS_TRACE_PTR_WPTR
  let buffer (s : State) : State := { s with obs := { s.obs with trBuf := tblPutList zeroByte s.obs.trBuf (b * 2 ^ 18 + w) p } }
  if s.fget (Reg.OBS_TRACE_PTR b) Fld.OBS_TRACE_PTR_STOPPED = 1 then s
  else if sink = 3 && Fld.OBS_TRACE_CFG_PIN_BLOCK.get cfg == b then
    (if s.fget Reg.OBS_DBG_CFG Fld.OBS_DBG_CFG_MODE = 2 then s.emit (.dbgTrace b p) else s)
  else if sink = 2 then
    let size := 2 ^ Fld.OBS_TRACE_BASE_LOG2_MIB.get s.obs.trBase * 2 ^ 20
    (s.gwrite (.block b {}) 4 (Fld.OBS_TRACE_BASE_BASE.get s.obs.trBase * 4096 + b * size + w) p).traceStep b size
      (fun s => s.fput (Reg.OBS_TRACE_PTR b) Fld.OBS_TRACE_PTR_WRAPPED 1)
  else if sink = 1 then (buffer s).traceStep b (2 ^ 18) (fun s => s.traceStopped b)
  else ((buffer s).traceStep b (2 ^ 18) (fun s => s)).tracePost b

/-- R683, R684. Block b streams its packets to HBM or to the pins. -/
def State.traceStreams (s : State) (b : Nat) : Bool :=
  let sink := Fld.OBS_TRACE_CFG_SINK.get s.obs.trCfg
  s.fget (Reg.OBS_TRACE_PTR b) Fld.OBS_TRACE_PTR_STOPPED != 1 &&
    (sink == 2 || (sink == 3 && Fld.OBS_TRACE_CFG_PIN_BLOCK.get s.obs.trCfg == b))

/-- R681. The bytes of a SYNC packet; the PC is a free value, for the program image is not in the spec. -/
def State.syncBytes (s : State) (b ring seq : Nat) : List Byte :=
  leBytes 1 1 ++ leBytes 1 b ++ leBytes 2 0 ++ freeBytes s 4 ++ leBytes 4 s.timeNs ++ leBytes 1 ring ++ leBytes 3 seq

/-- R684. A packet that finds the buffer full is discarded and counted. -/
def State.traceDiscard (s : State) (b : Nat) : State :=
  let s1 := s.bump (Reg.OBS_TRACE_PTR b) Fld.OBS_TRACE_PTR_LOST 1
  { s1 with obs := { s1.obs with trLost := tblPut zeroAt s1.obs.trLost b (tblGet zeroAt s1.obs.trLost b + 1) } }

/-- R682, R684. Once space frees, a LOST packet says how many were lost, and a SYNC follows it. -/
def State.traceLost (s : State) (b ring seq : Nat) : State :=
  match tblGet zeroAt s.obs.trLost b with
  | 0 => s
  | n + 1 =>
    let s1 : State := { s with obs := { s.obs with trLost := tblPut zeroAt s.obs.trLost b 0, trCount := tblPut zeroAt s.obs.trCount b 1 } }
    let s2 := s1.tracePut b (leBytes 1 5 ++ leBytes 3 0 ++ leBytes 4 (n + 1) ++ leBytes 4 s.timeNs ++ leBytes 4 0)
    (s2.drew 4).tracePut b (s2.syncBytes b ring seq)

/-- R684. A packet is written to its sink, or discarded where a stream has fallen behind. -/
def State.traceOffer (s : State) (b ring seq : Nat) (p : List Byte) : State :=
  if s.traceStreams b then
    let s1 := s.drew 1
    if Config.traceBehind s.freeCtr then s1.traceDiscard b else (s1.traceLost b ring seq).tracePut b p
  else s.tracePut b p

/-- R681. A SYNC packet. -/
def State.traceSync (s : State) (b ring seq : Nat) : State :=
  ({ s.drew 4 with obs := { s.obs with trCount := tblPut zeroAt s.obs.trCount b 1 } } : State).traceOffer b ring seq (s.syncBytes b ring seq)

/-- R682, R684. A packet, after a SYNC when 4,096 packets have gone since the last one. -/
def State.tracePacket (s : State) (b ring seq : Nat) (p : List Byte) : State :=
  let s1 := if 4096 ≤ tblGet zeroAt s.obs.trCount b then s.traceSync b ring seq else s
  ({ s1 with obs := { s1.obs with trCount := tblPut zeroAt s1.obs.trCount b (tblGet zeroAt s1.obs.trCount b + 1) } } : State).traceOffer b ring seq
    ((p ++ List.replicate 16 0#8).take 16)

/-- R681. A TAGS packet. -/
def State.traceTags (s : State) (b : Nat) (d : Started) : State :=
  s.tracePacket b d.ring d.seq (leBytes 1 4 ++ leBytes 1 d.ring ++ leBytes 2 (dLAYER d.bytes) ++ leBytes 2 (dOP d.bytes) ++ leBytes 2 0 ++
    leBytes 4 d.seq ++ leBytes 4 s.timeNs)

/-- R681. An END packet, its PC a free value. -/
def State.traceEndPacket (s : State) (b : Nat) (d : Started) : State :=
  State.tracePacket (s.drew 4) b d.ring d.seq (leBytes 1 6 ++ leBytes 3 0 ++ freeBytes s 4 ++ leBytes 4 s.timeNs ++ leBytes 4 0)

/-- R217, R682. A traced descriptor starts: a SYNC and a TAGS of every active block. -/
def State.traceStart (s : State) (d : Started) (blocks : List Nat) : State :=
  if s.traces d.bytes then
    let s1 : State := { s with arr := { s.arr with trace := s.arr.trace ++ [(descKey d.ring d.seq, blocks)] } }
    blocks.foldl (fun s b => (s.traceSync b d.ring d.seq).traceTags b d) s1
  else s

/-- R217, R682. Tracing of a descriptor ends at its record: the packets of its path, and an END, of each block that still runs. -/
def traceEnd (s : State) (d : Started) : State :=
  match s.arr.trace.find? (fun e => e.1 == descKey d.ring d.seq) with
  | none => s
  | some e =>
    let s1 : State := { s with arr := { s.arr with trace := s.arr.trace.filter (fun x => x.1 != e.1) } }
    (e.2.filter s1.blockUp).foldl (fun s b =>
      ((Config.branchTrace s.freeCtr).foldl (fun s p => s.tracePacket b d.ring d.seq p) (s.drew 1)).traceEndPacket b d) s1

end Sys2Proof.Machine
end

