-- ==== Sys2Proof/Machine/Stop.lean ====
section
/-!
DEFINITION. Which function a descriptor targets (spec/02 R776 step 7, R103), and how a started descriptor is stopped at its
abort point by a deadline or an abort (R92, R115, and the abort rules of the chapters).
-/
namespace Sys2Proof.Machine

open Sys2Proof

/-- A function of a bounded index. -/
def fnIn (i bound base step : Nat) : Option Nat := if i < bound then some (base + step * i) else none

/-- The function that a descriptor targets, from its opcode and operands; none for NOP and for operands that name none. -/
def targetOf (b param : List Byte) : Option Nat :=
  let o := dOPCODE b
  let region := leAt b 24 1
  if o = 0 then none
  else if o / 0x1000 = 1 then some 0
  else if o = 0x2001 || o = 0x2020 || o = 0x2021 then fnIn region 8 0x10 4
  else if o = 0x2010 || o = 0x2011 then fnIn region 8 0x11 4
  else if o = 0x2018 then fnIn (if region = 0xFF then 0 else region) 8 0x11 4
  else if o = 0x3010 then fnIn (leAt b 36 1) 16 0x40 1
  else if o = 0x3018 then fnIn (leAt b 24 1) 16 0x40 1
  else if o = 0x3001 || o = 0x3002 then some 0x30
  else if o = 0x4020 then (if param.isEmpty then none else fnIn (leAt param 2 1) 8 0x12 4)
  else if o / 0x1000 = 4 then some 0x50
  else some 0x51

/-- R87. A function whose descriptors run on a substitute while it is out of RUN: the Update engines (R264). -/
def hasSubstitute (f : Nat) : Bool := 0x10 ≤ f && f < 0x30 && f % 4 == 1

/-- The reduce engine of a function. -/
def engOfFn (f : Nat) : Option Nat := if 0x40 ≤ f && f < 0x50 then some (f - 0x40) else none

/-- Change the entry of a ticket. -/
def State.updTicket (s : State) (t : Nat) (f : TicketSt → TicketSt) : State :=
  { s with arr := { s.arr with tickets := updFirst (fun x => x.num == t) f s.arr.tickets } }

/-- The array descriptor that runs has ended, however it ends: the array is free for the next one (R169, R199), and a sweep that flushed an
input is counted (R166). -/
def State.endRun (s : State) : State :=
  match s.arr.run with
  | none => s
  | some r =>
    let s0 := if r.flush then s.bump Reg.ARR_ARITH_CNT Fld.ARR_ARITH_CNT_FLUSH 1 else s
    let s1 := s0.updTicket r.ticket (fun x => { x with ended := true })
    let s2 : State := { s1 with arr := { s1.arr with run := none, busyAt := s1.clk.now } }
    s2.setReg Reg.ARR_SWEEP_STATUS (Fld.ARR_SWEEP_STATUS_RING.put 0#64 0xFF)

/-- R201. The array stops a descriptor at a chunk boundary. -/
def State.stopArray (s : State) (d : Started) : State :=
  match s.arr.run with
  | some r => if r.ring = d.ring && r.seq = d.seq then s.endRun else s
  | none => s

/-- A rank's REDUCE has ended; its entry stays for the tokens that its data still owes (R395, R442). -/
def State.endRank (s : State) (n seq : Nat) : State :=
  { s with ranks := updFirst (fun k => k.ring == n && k.seq == seq) (fun k => { k with closed := true, res := none, busyAt := none }) s.ranks }

/-- R382. What a REDUCE that its own deadline stops reports: no laggard, and HOME_CHIP. -/
def reduceStop (d : Started) (done : Done) : Done :=
  if dOPCODE d.bytes = 0x3010 && done.status = stDEADLINE then
    { done with result := leAt d.bytes 56 2 * 2 ^ 32 + 0xFFFFFFFF }
  else done

end Sys2Proof.Machine
end

