-- ==== Sys2Proof/Machine/Rings.lean ====
section
/-!
DEFINITION. Doorbells, fetching, deadlines, completion and completion-ring heads (spec/02 R61-R102).
-/
namespace Sys2Proof.Machine

open Sys2Proof

/-- R72, R73. A doorbell of ring n is accepted and moves TAIL forward, or is discarded and counted. -/
def doorbell (s : State) (n : Nat) (value : Word) : State :=
  let tail := value.toNat % 2 ^ 32
  let size := s.sqSize n
  let d1 := subMod 32 tail (s.fget (Reg.RING_SQ_TAIL n) Fld.RING_SQ_TAIL_TAIL)
  let d2 := subMod 32 tail (s.fget (Reg.RING_SQ_HEAD n) Fld.RING_SQ_HEAD_HEAD)
  if 1 ≤ d1 && d1 ≤ size && 1 ≤ d2 && d2 ≤ size then
    let s1 := s.fput (Reg.RING_SQ_TAIL n) Fld.RING_SQ_TAIL_TAIL tail
    s1.setSq n { s1.sqSt n with bells := (s1.sqSt n).bells ++ [(tail, s.time)] }
  else s.bump (Reg.RING_SQ_STATUS n) Fld.RING_SQ_STATUS_DB_REJECT 1

/-- R72. The DOORBELL command; there are 256 rings. -/
def execDoorbell (n : Nat) (value : Word) (s : State) : Host.Outcome State Fault Refusal :=
  .next (if n < 256 then doorbell s n value else s)

/-- R89. The module time of the first accepted doorbell that covers a RING_SEQ. -/
def bellTime (size seq : Nat) (bells : List (Nat × Int)) : Option Int :=
  match bells.find? (fun b => 1 ≤ subMod 32 b.1 seq && subMod 32 b.1 seq ≤ size) with
  | some (_, t) => some t
  | none => none

/-- R95. Completion slots that the next descriptor of ring n needs. -/
def State.slotsNeeded (s : State) (n : Nat) : Nat :=
  if n < 32 && s.cfg Reg.INTG_CFG Fld.INTG_CFG_EARLY_COMPLETE == 1 then 2 else 1

/-- R95. Completion ring m has room for k more reserved slots. -/
def State.cqRoom (s : State) (m k : Nat) : Bool :=
  subMod 32 (s.fget (Reg.RING_CQ_TAIL m) Fld.RING_CQ_TAIL_TAIL) (s.fget (Reg.RING_CQ_HEAD m) Fld.RING_CQ_HEAD_HEAD) +
    s.fget (Reg.RING_CQ_STATUS m) Fld.RING_CQ_STATUS_RESERVED + k ≤ s.cqSize m

/-- R76. Ring n may fetch. -/
def State.mayFetch (s : State) (n : Nat) : Bool :=
  s.fnState (sqFn n) == fnRUN && !(s.rbit (Reg.RING_SQ_STATUS n) 0) && s.sqSize n != 0 &&
    s.fget (Reg.RING_SQ_HEAD n) Fld.RING_SQ_HEAD_HEAD != s.fget (Reg.RING_SQ_TAIL n) Fld.RING_SQ_TAIL_TAIL &&
    (s.sqSt n).fetched.length < 64 && s.cqRoom (s.cqOf n) (s.slotsNeeded n)

/-- Data an outside read returns, as exactly n bytes. -/
def padTo (n : Nat) (d : List Byte) : List Byte := (d ++ List.replicate (n - d.length) 0#8).take n

/-- Bytes at an address of a ring's space as a master reads them: of this module where the address lies there, else what the read of host
memory or of another module returned. -/
def State.extRead (s : State) (who : Master) (loc : Bool) (addr n : Nat) (ext : List Byte) : State × List Byte :=
  if loc then (match s.gloc addr with
    | .remote c _ => if s.hasRoute (s.entry who) c then (s, padTo n ext) else (s.unmapped addr (s.whoCtx who), List.replicate n 0#8)
    | _ => s.fetchBytes who addr n)
  else (s, padTo n ext)

/-- The same bytes, as a decision that reads nothing finds them. -/
def State.extPeek (s : State) (loc : Bool) (addr n : Nat) (ext : List Byte) : List Byte :=
  if loc then (match s.gloc addr with | .remote _ _ => padTo n ext | _ => s.gread addr n) else padTo n ext

/-- The parameter block of a fetched descriptor of ring n, as a decision finds it (R67, assumption 114). -/
def State.peekParam (s : State) (n : Nat) (x : Fetched) : List Byte :=
  if dPARAM x.bytes && dParamOk x.bytes then
    s.extPeek (s.cfg (Reg.RING_SQ_BASE n) Fld.RING_SQ_BASE_LOC == 1) (dParamAddr x.bytes) (dParamLen x.bytes) x.ext
  else []

/-- The function that a fetched descriptor of ring n targets. -/
def State.targetFetched (s : State) (n : Nat) (x : Fetched) : Option Nat := targetOf x.bytes (s.peekParam n x)

/-- R77. The completion of a slot whose descriptor carries another RING_SEQ. -/
def badSeq (read : Nat) : Done := { status := stBAD_SEQ, result := read }

/-- R776, checks 1 to 3, and R115 for a target in DRAIN: what a fetched descriptor completes with at its fetch, if it
does. -/
def State.fetchVerdict (s : State) (n : Nat) (x : Fetched) (poisoned : Bool) : Option Done :=
  let b := x.bytes
  if poisoned then some { status := stFAULTED, cls := 0x07 }
  else if dRING_SEQ b != x.seq then some (badSeq (dRING_SEQ b))
  else if !(opDefined (dOPCODE b) && (dOPCODE b == 0 || dOPCODE b / 0x1000 == ringClass n)) then some { status := stBAD_OPCODE }
  else if !rsvdClear b then some { status := stBAD_OPERAND }
  else match s.targetFetched n x with
    | some f => if s.fnState f == fnDRAIN && !hasSubstitute f then some { status := stCANCELLED } else none
    | none => none

/-- R76-R79, R89, R95. Ring n fetches and checks its next descriptor. -/
def fetch (s0 : State) (n : Nat) (data param : List Byte) : State :=
  let seq := s0.fget (Reg.RING_SQ_HEAD n) Fld.RING_SQ_HEAD_HEAD
  let base := s0.cfg (Reg.RING_SQ_BASE n) Fld.RING_SQ_BASE_BASE * 4096
  let loc := s0.cfg (Reg.RING_SQ_BASE n) Fld.RING_SQ_BASE_LOC == 1
  let addr := base + 64 * (seq % s0.sqSize n)
  let who : Master := .link 0 { ring := n, seq := seq }
  let q := s0.extRead who loc addr 64 data
  let c := { s0.whoCtx who with die := 0x48, unit := 0x26 }
  let r := if loc then q.1.poisonCheck c addr 64 else (q.1, none)
  let s := r.1
  let b := q.2
  let k := s.slotsNeeded n
  let st := s.sqSt n
  let bell := bellTime (s.sqSize n) seq st.bells
  let deadline := if dDEADLINE b = 0 then none else bell.map (fun t => t + (dDEADLINE b : Int))
  let s1 := (s.reserve (s.cqOf n) k).count (Reg.RING_SQ_HEAD n) Fld.RING_SQ_HEAD_HEAD 1
  let s2 := s1.setSq n { st with bells := st.bells.filter (fun x => 1 < subMod 32 x.1 seq && subMod 32 x.1 seq ≤ s.sqSize n) }
  let x : Fetched := { seq := seq, bytes := b, ext := param, deadline := deadline, slots := k, bellAt := bell.getD 0 }
  match s.fetchVerdict n x r.2.isSome with
  | none => s2.setSq n { s2.sqSt n with fetched := st.fetched ++ [x] }
  | some d =>
    let s3 := s2.complete n b seq k 0 d
    if d.status = stBAD_SEQ then s3.putBit (Reg.RING_SQ_STATUS n) 0 true else s3

/-- R76. The DESCRIPTOR_FETCH command. -/
def execDescriptorFetch (n : Nat) (data param : List Byte) (ecc : EccFinds) (z : State) : Host.Outcome State Fault Refusal :=
  let s := z.eccAll ecc
  .next (if n < 256 && s.mayFetch n then fetch s n data param else s)

/-- R90. The die and unit that run a started descriptor: those of its function, or the vector engine that stands in for it. -/
def State.whereRuns (s : State) (d : Started) : Nat × Nat :=
  if hasSubstitute d.fn then (match tblGet (fun _ => none) s.upd ((d.fn - 0x11) / 4) with
    | some u => (match u.ve with | some b => (b, 0x04) | none => (s.fnDie d.fn, unitOfFn d.fn))
    | none => (s.fnDie d.fn, unitOfFn d.fn))
  else (s.fnDie d.fn, unitOfFn d.fn)

/-- A waited-on context (R90): a ring with its RING_SEQ, and the die and unit that hold the work. -/
structure Waited where
  ring : Nat := 0xFF
  seq  : Nat := 0
  die  : Nat := 0x48
  unit : Nat := 0x26
  deriving DecidableEq, Repr

/-- R90, R93. What a descriptor that waits on an event of ring n waits on: a ring that owes it one, with the RING_SEQ there. Of several,
the ring of the first started descriptor that will signal, then the lowest ring that has fetched one (assumption 115). -/
def State.waitedOn (s : State) (n : Nat) : Nat × Nat :=
  match s.started.find? (fun d => dSIGNAL d.bytes && dSIG_RING d.bytes == n) with
  | some d => (d.ring, d.seq)
  | none => match (List.range 256).filterMap (fun m =>
      ((s.sqSt m).fetched.find? (fun f => dSIGNAL f.bytes && dSIG_RING f.bytes == n)).map (fun f => (m, f.seq))) with
    | x :: _ => x
    | [] => (0xFF, 0)

/-- R83. The bank of ring n holds the descriptor's events. -/
def State.hasEvents (s : State) (n : Nat) (f : Fetched) : Bool := dWAIT f.bytes ≤ s.fget (Reg.RING_EVT_BANK n) Fld.RING_EVT_BANK_COUNT

/-- The context that holds a started descriptor's work. -/
def State.holding (s : State) (d : Started) : Waited := { ring := d.ring, seq := d.seq, die := (s.whereRuns d).1, unit := (s.whereRuns d).2 }

/-- R90. What an unstarted descriptor of ring n waits on: an event that is due, an earlier descriptor of its ring, or the first started
descriptor of its function (assumption 115). -/
def State.waitedFor (s : State) (n : Nat) (x : Fetched) : Waited :=
  if !s.hasEvents n x then { ring := (s.waitedOn n).1, seq := (s.waitedOn n).2 }
  else match (s.sqSt n).fetched.head?, s.started.find? (fun d => d.ring == n && d.rgen == s.gen (sqFn n)) with
    | some h, e =>
      if h.seq != x.seq then { ring := n, seq := h.seq }
      else match (if dSERIAL x.bytes then e else none), s.targetFetched n x with
        | some d, _ => s.holding d
        | none, some f => (match s.started.find? (fun d => d.fn == f) with
          | some d => s.holding d
          | none => { die := s.fnDie f, unit := unitOfFn f })
        | none, none => {}
    | none, _ => {}

/-- R493, R494. A declaration goes into HANG_STATUS and HANG_SEQ, which keep the first until VALID is cleared. -/
def State.declareHang (s : State) (ring die len fn port seq layer op : Nat) : State :=
  if s.rbit Reg.MOD_HANG_STATUS 0 then s.bump Reg.MOD_HANG_STATUS Fld.MOD_HANG_STATUS_COUNT 1
  else
    let w := (List.foldl (fun w (e : Fld × Nat) => e.1.put w e.2) (0#64)
      [(Fld.MOD_HANG_STATUS_COUNT, 1), (Fld.MOD_HANG_STATUS_RING, ring), (Fld.MOD_HANG_STATUS_DIE, die),
       (Fld.MOD_HANG_STATUS_LEN, min len 15), (Fld.MOD_HANG_STATUS_FUNCTION, fn), (Fld.MOD_HANG_STATUS_PORT, port),
       (Fld.MOD_HANG_STATUS_VALID, 1)])
    (s.setReg Reg.MOD_HANG_STATUS w).setReg Reg.MOD_HANG_SEQ
      (BitVec.ofNat 64 (seq % 2 ^ 32 * 2 ^ 32 + layer % 65536 * 65536 + op % 65536))

/-- R430. A ticket that has not settled. -/
def State.unsettled (s : State) (t : Nat) : Bool :=
  let lo := s.fget Reg.INTG_TICKET Fld.INTG_TICKET_SETTLED
  subMod 16 t lo < subMod 16 (s.fget Reg.INTG_TICKET Fld.INTG_TICKET_NEXT) lo

/-- R118, R121. The record of a disowned descriptor is dropped and counted. -/
def dropDisowned (s : State) (d : Started) : State :=
  let n := d.ring
  let s : State := { s with started := dropFirst (fun x => x.ring == d.ring && x.seq == d.seq && x.rgen == d.rgen) s.started }
  let s := s.lower (Reg.RING_SQ_STATUS n) Fld.RING_SQ_STATUS_DISOWNED 1
  let s : State := { s with genStale := tblPut zeroAt s.genStale (sqFn n) (tblGet zeroAt s.genStale (sqFn n) + 1) }
  s.report 0x12 0 { ctxOf n d.bytes 0x48 0x26 with fn := some (sqFn n) }

/-- A descriptor is no longer started. -/
def State.dropStarted (s : State) (d : Started) : State :=
  { s with started := dropFirst (fun x => x.ring == d.ring && x.seq == d.seq) s.started }

/-- R96. A provisional record waits for its ticket. -/
def State.addUnconf (s : State) (u : Unconf) : State := { s with unconf := s.unconf ++ [u] }

/-- R96, R97, R430, R431. The completion of a started descriptor that has its outcome, when its ticket lets the record be written; `end_`
is what ends with its record. -/
def completeStarted (s : State) (d : Started) (out : Done) (end_ : State → State) : State :=
  if d.rgen != s.gen (sqFn d.ring) then dropDisowned (end_ s) d
  else match d.ticket with
    | none => ((end_ s).dropStarted d).complete d.ring d.bytes d.seq d.slots 0 out
    | some t =>
      if s.unsettled t then
        if d.slots ≥ 2 then
          (((end_ s).dropStarted d).complete d.ring d.bytes d.seq d.slots 1 { out with flags := addFlag out.flags flUNCONFIRMED }).addUnconf
            { ring := d.ring, seq := d.seq, step := dSTEP d.bytes, ticket := t, irq := dIRQ d.bytes, cq := s.cqOf d.ring }
        else s
      else ((end_ s).dropStarted d).complete d.ring d.bytes d.seq d.slots 0 out

/-- A write packet of a descriptor. -/
def isResultOf (d : Started) (k : Packet) : Bool := k.kind == 0x03 && k.layer == dLAYER d.bytes && k.op == dOP d.bytes && dLAYER d.bytes != 0xFFFF

/-- R98. Every result write of a started descriptor has been done: none waits for the Sump, none is still on its way in this module. -/
def State.resultsLanded (s : State) (d : Started) : Bool :=
  !s.heldWr.any (fun w => (originOf w.who).ring == d.ring && (originOf w.who).seq == d.seq) && !s.fab.delivered.any (isResultOf d) &&
    !s.fab.ports.any (fun p => p.2.queue.any (fun q => q.2.any (fun x => x.from_.isNone && isResultOf d x.pkt)))

/-- R97, R98. The DESCRIPTOR_COMPLETE command; the trace of a descriptor ends with its record (R217). -/
def execDescriptorComplete (n seq : Nat) (s : State) : Host.Outcome State Fault Refusal :=
  .next (match s.findStarted n seq with
    | some d => match d.done with
      | some out => if s.resultsLanded d then completeStarted s d out (fun s => traceEnd s d) else s
      | none => s
    | none => s)

/-- R100. Software unmasks a vector, or the function, and pending messages leave; no command masks a vector (assumption 33). -/
def execMsixUnmask (vector : Option Nat) (s : State) : Host.Outcome State Fault Refusal :=
  let p := s.pcie
  let p' := match vector with
    | some v => { p with vecMask := p.vecMask.filter (· != v) }
    | none => { p with fnMask := false }
  let go := p'.pend.filter (fun v => !p'.fnMask && !p'.vecMask.contains v)
  .next (go.foldl (fun s v => s.emit (.msix v)) { s with pcie := { p' with pend := p'.pend.filter (fun v => !go.contains v) } })

/-- R102. Software returns consumed slots of completion ring m. -/
def cqHeadWrite (s : State) (m value : Nat) : State :=
  let head := s.fget (Reg.RING_CQ_HEAD m) Fld.RING_CQ_HEAD_HEAD
  let tail := s.fget (Reg.RING_CQ_TAIL m) Fld.RING_CQ_TAIL_TAIL
  if subMod 32 value head ≤ subMod 32 tail head then s.fput (Reg.RING_CQ_HEAD m) Fld.RING_CQ_HEAD_HEAD value
  else s.rejected (Reg.RING_CQ_HEAD m) value (some (cqFn m))

/-- R102. The CQ_HEAD_WRITE command. -/
def execCqHeadWrite (m value : Nat) (s : State) : Host.Outcome State Fault Refusal :=
  .next (if m < 256 then cqHeadWrite s m value else s)

end Sys2Proof.Machine
end

