-- ==== Sys2Proof/Machine/Float.lean ====
section
/-!
DEFINITION. The formats and the exact arithmetic of spec/03: values, rounding to nearest-even, the accumulators A32 and AX,
IEEE binary64, input and output formats, block scales and the ordering of TopK; and the elementary functions of R203.
-/
namespace Sys2Proof.Machine

open Sys2Proof

/-- A binary floating-point format: precision, exponent of the smallest subnormal, exponent of the largest binade. -/
structure FFmt where
  p    : Nat
  qmin : Int
  emax : Int
  deriving DecidableEq, Repr

/-- A32, IEEE binary32 (R134); AX (R135); binary64 (R419); BF16, F8E5, F8E4 and F4 (R125). -/
def fA32 : FFmt := ⟨24, -149, 127⟩
def fAX : FFmt := ⟨36, -1057, 1023⟩
def f64 : FFmt := ⟨53, -1074, 1023⟩
def fBF16 : FFmt := ⟨8, -133, 127⟩
def fF8E5 : FFmt := ⟨3, -16, 15⟩
def fF8E4 : FFmt := ⟨4, -9, 1000000⟩
def fF4 : FFmt := ⟨2, -1, 1000000⟩

/-- m / 2^k rounded to nearest, ties to even. -/
def rneShift (m k : Nat) : Nat :=
  let q := m / 2 ^ k
  let r := m % 2 ^ k
  if 2 * r > 2 ^ k || (2 * r = 2 ^ k && q % 2 = 1) then q + 1 else q

/-- R136. Rounding to nearest-even with subnormals kept; overflow gives an infinity. -/
def FVal.round (f : FFmt) : FVal → FVal
  | .fin neg m e =>
    if m = 0 then .fin neg 0 0
    else
      let q := max (e + (Nat.log2 m : Int) + 1 - (f.p : Int)) f.qmin
      let r : Nat × Int := if q ≤ e then (m, e) else (rneShift m (q - e).toNat, q)
      if r.1 = 0 then .fin neg 0 0
      else if r.2 + (Nat.log2 r.1 : Int) > f.emax then .inf neg
      else .fin neg r.1 r.2
  | v => v

/-- Two values are the same: NaN is NaN whatever its payload (R164), finite values agree in sign and magnitude. -/
def FVal.same : FVal → FVal → Bool
  | .nan, .nan => true
  | .inf a, .inf b => a == b
  | .fin n m e, .fin n' m' e' => n == n' && m * 2 ^ (e - min e e').toNat == m' * 2 ^ (e' - min e e').toNat
  | _, _ => false

/-- A zero or a finite value that is zero. -/
def FVal.isZero : FVal → Bool
  | .fin _ m _ => m == 0
  | _ => false

def FVal.isNan : FVal → Bool
  | .nan => true
  | _ => false

def FVal.isInf : FVal → Bool
  | .inf _ => true
  | _ => false

def FVal.isFin : FVal → Bool
  | .fin _ _ _ => true
  | _ => false

def FVal.isNeg : FVal → Bool
  | .inf n => n
  | .fin n _ _ => n
  | .nan => false

def FVal.negate : FVal → FVal
  | .inf n => .inf (!n)
  | .fin n m e => .fin (!n) m e
  | .nan => .nan

def FVal.abs : FVal → FVal
  | .inf _ => .inf false
  | .fin _ m e => .fin false m e
  | .nan => .nan

/-- The exact product (R163 for infinities and NaNs). -/
def FVal.mul : FVal → FVal → FVal
  | .nan, _ => .nan
  | _, .nan => .nan
  | .inf a, .inf b => .inf (a != b)
  | .inf a, .fin b m _ => if m = 0 then .nan else .inf (a != b)
  | .fin a m _, .inf b => if m = 0 then .nan else .inf (a != b)
  | .fin a m e, .fin b n d => .fin (a != b) (m * n) (e + d)

/-- The signed integer of a finite value at exponent q, which is at most its own. -/
def atExp (neg : Bool) (m : Nat) (e q : Int) : Int :=
  let v : Int := (m * 2 ^ (e - q).toNat : Nat)
  if neg then -v else v

/-- The exact sum; an exact zero of unlike signs is +0 (R163, IEEE 754). -/
def FVal.add : FVal → FVal → FVal
  | .nan, _ => .nan
  | _, .nan => .nan
  | .inf a, .inf b => if a = b then .inf a else .nan
  | .inf a, .fin _ _ _ => .inf a
  | .fin _ _ _, .inf b => .inf b
  | .fin a m e, .fin b n d =>
    if m = 0 && n = 0 then .fin (a && b) 0 0
    else if m = 0 then .fin b n d
    else if n = 0 then .fin a m e
    else
      let q := min e d
      let v := atExp a m e q + atExp b n d q
      if v = 0 then .fin false 0 0 else .fin (decide (v < 0)) v.natAbs q

/-- fl(x + y) and fl(x × y) in a format. -/
def fadd (f : FFmt) (x y : FVal) : FVal := (x.add y).round f
def fmul (f : FFmt) (x y : FVal) : FVal := (x.mul y).round f

/-- fl(x / y) for y that is no zero; a zero divisor gives an infinity, or NaN. -/
def fdiv (f : FFmt) : FVal → FVal → FVal
  | .nan, _ => .nan
  | _, .nan => .nan
  | .inf _, .inf _ => .nan
  | .inf a, .fin b _ _ => .inf (a != b)
  | .fin a _ _, .inf b => .fin (a != b) 0 0
  | .fin a m e, .fin b n d =>
    if n = 0 then (if m = 0 then .nan else .inf (a != b))
    else if m = 0 then .fin (a != b) 0 0
    else
      let s := f.p + 3 + Nat.log2 n
      let q := m * 2 ^ s / n
      let r := m * 2 ^ s % n
      FVal.round f (.fin (a != b) (2 * q + (if r = 0 then 0 else 1)) (e - d - s - 1))

/-- x < y in the order of the numbers; false when either is NaN. -/
def FVal.lt : FVal → FVal → Bool
  | .nan, _ => false
  | _, .nan => false
  | .inf a, .inf b => a && !b
  | .inf a, .fin _ _ _ => a
  | .fin _ _ _, .inf b => !b
  | .fin a m e, .fin b n d =>
    let q := min e d
    decide (atExp a m e q < atExp b n d q)

/-! ### Encodings -/

/-- The IEEE-like layout of a format: exponent bits, fraction bits, bias. -/
structure Layout where
  eb : Nat
  fb : Nat
  bias : Nat
  deriving DecidableEq, Repr

def lF32 : Layout := ⟨8, 23, 127⟩
def lBF16 : Layout := ⟨8, 7, 127⟩
def lF8E5 : Layout := ⟨5, 2, 15⟩
def lF8E4 : Layout := ⟨4, 3, 7⟩
def lF4 : Layout := ⟨2, 1, 1⟩

/-- The number that an encoding without infinities and NaNs gives. -/
def Layout.number (l : Layout) (w : Nat) : FVal :=
  let s := bitOf w (l.eb + l.fb)
  let e := bitsOf w (l.eb + l.fb - 1) l.fb
  let m := w % 2 ^ l.fb
  if e = 0 then .fin s m (1 - (l.bias : Int) - l.fb)
  else .fin s (m + 2 ^ l.fb) ((e : Int) - l.bias - l.fb)

/-- The value of an encoding with IEEE infinities and NaNs. -/
def Layout.ieee (l : Layout) (w : Nat) : FVal :=
  if bitsOf w (l.eb + l.fb - 1) l.fb = 2 ^ l.eb - 1 then
    (if w % 2 ^ l.fb = 0 then .inf (bitOf w (l.eb + l.fb)) else .nan)
  else l.number w

/-- The encoding of a finite value that the format holds. -/
def Layout.encode (l : Layout) (neg : Bool) (m : Nat) (e : Int) : Nat :=
  let s := if neg then 2 ^ (l.eb + l.fb) else 0
  if m = 0 then s
  else
    let x := e + (Nat.log2 m : Int)
    if x < 1 - (l.bias : Int) then
      s + m * 2 ^ (e - (1 - (l.bias : Int) - l.fb)).toNat
    else s + (x + l.bias).toNat * 2 ^ l.fb + (m * 2 ^ l.fb / 2 ^ Nat.log2 m - 2 ^ l.fb)

/-- The encoding of a rounded value in an IEEE-like layout, with the canonical NaN given (R164). -/
def Layout.encodeAll (l : Layout) (nan : Nat) : FVal → Nat
  | .nan => nan
  | .inf n => (if n then 2 ^ (l.eb + l.fb) else 0) + (2 ^ l.eb - 1) * 2 ^ l.fb
  | .fin n m e => l.encode n m e

/-- binary32 of a value and back. -/
def toF32 (v : FVal) : Nat := lF32.encodeAll 0x7FC00000 (v.round fA32)
def ofF32 (w : Nat) : FVal := lF32.ieee w

/-- R125. The value of an element of format code f from its bits, before block scale and flush. -/
def elemVal (f w : Nat) : FVal :=
  match f with
  | 1 => lF4.number w
  | 2 => if w % 128 = 0x7F then .nan else lF8E4.number w
  | 3 => lF8E5.ieee w
  | 4 => let v := sext 8 w; .fin (decide (v < 0)) v.natAbs 0
  | 5 => lBF16.ieee w
  | 6 => lF32.ieee w
  | _ => .fin false 0 0

/-- R128. An F4 or F8E4 subnormal, which the cell flushes. -/
def isFlushed (f w : Nat) : Bool :=
  match f with
  | 1 => bitsOf w 2 1 == 0 && w % 2 == 1
  | 2 => bitsOf w 6 3 == 0 && w % 8 != 0
  | _ => false

/-- R128. The value after the flush. -/
def flushVal (f w : Nat) : FVal := if isFlushed f w then .fin (elemVal f w).isNeg 0 0 else elemVal f w

/-- R127. An element times its block scale, exactly; the scale 0xFF marks NaN. -/
def scaled (e : Nat) (v : FVal) : FVal :=
  if e = 0xFF then .nan
  else match v with
    | .fin n m x => .fin n m (x + (e : Int) - 127)
    | v => v

/-- R126. Bits per element. -/
def elemBits (f : Nat) : Nat :=
  match f with
  | 1 => 4 | 2 => 8 | 3 => 8 | 4 => 8 | 5 => 16 | 6 => 32 | _ => 8

/-- F4 or S8: a format with block scales (R127). -/
def blockScaled (f : Nat) : Bool := f == 1 || f == 4

/-- Bytes of n packed elements. -/
def elemBytes (f n : Nat) : Nat := ceilDiv (n * elemBits f) 8

/-! ### Output conversion (R157-R159, R165) -/

/-- What an output element counts as: nothing, INF_OUT, or NAN_OUT. -/
inductive OutKind where
  | plain | inf | nan
  deriving DecidableEq, Repr

/-- R157, R164. An element converted to F32, BF16, F8E4 or F8E5. -/
def convElem (f : Nat) (v : FVal) : Nat × OutKind :=
  let kind (r : FVal) : OutKind := if r.isNan then .nan else if r.isInf then .inf else .plain
  match f with
  | 6 => let r := v.round fA32; (lF32.encodeAll 0x7FC00000 r, kind r)
  | 5 => let r := v.round fBF16; (lBF16.encodeAll 0x7FC0 r, kind r)
  | 3 => let r := v.round fF8E5; (lF8E5.encodeAll 0x7E r, kind r)
  | _ => match v.round fF8E4 with
    | .nan => (0x7F, .nan)
    | .inf _ => (0x7F, .inf)
    | .fin n m e =>
      if FVal.lt (.fin false 448 0) (.fin false m e) then ((if n then 0x80 else 0) + 0x7E, .inf)
      else (lF8E4.encode n m e, .plain)

/-- The larger of two magnitudes. -/
def maxMag (x y : FVal) : FVal := if FVal.lt x y then y else x

/-- R158. E of an F4 block whose largest magnitude is m × 2^e. -/
def scaleF4 (m : Nat) (e : Int) : Int := max (-127) (min 127 (e + (Nat.log2 m : Int) - 2))

/-- R158. The smallest E with m × 2^(e - E) at most 127, clamped. -/
def scaleS8 (m : Nat) (e : Int) : Int :=
  let x := e + (Nat.log2 m : Int) - 6
  let fits := !(FVal.lt (.fin false 127 x) (.fin false m e))
  max (-127) (min 127 (if fits then x else x + 1))

/-- m × 2^k as an integer: nearest-even, or toward zero. -/
def toInt (rtz : Bool) (m : Nat) (k : Int) : Nat :=
  if 0 ≤ k then m * 2 ^ k.toNat else if rtz then m / 2 ^ (-k).toNat else rneShift m (-k).toNat

/-- R158, R159. An S8 element at scale E, with whether it saturated. -/
def convS8 (rtz : Bool) (E : Int) : FVal → Nat × Bool
  | .fin n m e =>
    let v := toInt rtz m (e - E)
    if n then (if v > 128 then (0x80, true) else (tc 8 (-(v : Int)), false))
    else if v > 127 then (127, true) else (v, false)
  | _ => (0, false)

/-- R158, R159. An F4 element at scale E. -/
def convF4 (E : Int) : FVal → Nat
  | .fin n m e => match FVal.round fF4 (.fin n m (e - E)) with
    | .fin n' m' e' => if FVal.lt (.fin false 6 0) (.fin false m' e') then (if n' then 8 else 0) + 7 else lF4.encode n' m' e'
    | _ => 0
  | _ => 0

/-- R158. A block of at most 32 elements converted to F4 or S8: scale byte, element codes, INF_OUT and NAN_OUT counts. -/
def convBlock (f : Nat) (rtz : Bool) (vs : List FVal) : Nat × List Nat × Nat × Nat :=
  if vs.any (fun v => !v.isFin) then (0xFF, vs.map (fun _ => 0), 0, 1)
  else match vs.foldl (fun a v => maxMag a v.abs) (.fin false 0 0) with
    | .fin _ m e =>
      let E := if m = 0 then 0 else if f = 1 then scaleF4 m e else scaleS8 m e
      let byte := (E + 127).toNat
      if f = 1 then (byte, vs.map (convF4 E), 0, 0)
      else
        let rs := vs.map (convS8 rtz E)
        (byte, rs.map (·.1), (rs.filter (·.2)).length, 0)
    | _ => (0xFF, vs.map (fun _ => 0), 0, 1)

/-! ### TopK order (R160) -/

/-- (v, position) ranks above (w, position'). -/
def ranksAbove (x y : FVal × Nat) : Bool :=
  if x.1.isNan && y.1.isNan then decide (x.2 < y.2)
  else if x.1.isNan then false
  else if y.1.isNan then true
  else if FVal.lt y.1 x.1 then true
  else if FVal.lt x.1 y.1 then false
  else decide (x.2 < y.2)

/-- Insert an entry into a ranked list. -/
def rankInsert (x : FVal × Nat) : List (FVal × Nat) → List (FVal × Nat)
  | [] => [x]
  | y :: t => if ranksAbove x y then x :: y :: t else y :: rankInsert x t

/-- The k highest-ranked of a ranked list and further entries (R161, R162). -/
def rankMerge (k : Nat) (l : List (FVal × Nat)) (xs : List (FVal × Nat)) : List (FVal × Nat) :=
  xs.foldl (fun a x => (rankInsert x a).take k) l

/-! ### Trees (R139, R204) -/

/-- One level of a tree: neighbours combine; the last one alone passes on. -/
def treeLevel (f : FFmt) : List FVal → List FVal
  | x :: y :: t => fadd f x y :: treeLevel f t
  | l => l

/-- The tree of the given depth over present leaves in order; none when there is no leaf. -/
def treeSum (f : FFmt) : Nat → List FVal → Option FVal
  | 0, l => l.head?
  | d + 1, l => treeSum f d (treeLevel f l)

/-- R204. The fixed-order sum of a list, at the depth that its length gives; an empty sum is +0. -/
def veSum (vs : List FVal) : FVal := (treeSum fA32 (Nat.log2 (2 * vs.length) + 1) vs).getD (.fin false 0 0)

/-! ### Exp, log and reciprocal square root (R203): within 2 units in the last place of binary32, the same bits for the
same input. Which value within the bound is open (assumption 20). -/

/-- 2^256 × ln 2, rounded down. -/
def ln2Fix : Nat := 0xb17217f7d1cf79abc9e3b39803f2f6af40f343267298b62d8a0d175b8baafa2b

/-- Taylor terms of e^r in fixed point with 256 fraction bits, r below 1. -/
def expTerms (r : Nat) : Nat → Nat → Nat → Nat → Nat
  | 0, _, _, acc => acc
  | fuel + 1, i, t, acc =>
    let t' := t * r / 2 ^ 256 / i
    expTerms r fuel (i + 1) t' (acc + t')

/-- e^(±x) for a fixed-point x ≥ 0: (significand with 256 fraction bits, exponent of two). -/
def expFix (neg : Bool) (x : Nat) : Nat × Int :=
  let k := x / ln2Fix
  let r := x % ln2Fix
  if neg then
    if r = 0 then (2 ^ 256, -(k : Int))
    else (expTerms (ln2Fix - r) 80 1 (2 ^ 256) (2 ^ 256), -(k : Int) - 1)
  else (expTerms r 80 1 (2 ^ 256) (2 ^ 256), (k : Int))

/-- Terms of the series of artanh z in fixed point, z at most 1/3. -/
def atanhTerms (z2 : Nat) : Nat → Nat → Nat → Nat → Nat
  | 0, _, _, acc => acc
  | fuel + 1, i, t, acc =>
    let t' := t * z2 / 2 ^ 256
    atanhTerms z2 fuel (i + 2) t' (acc + t' / i)

/-- ln of m × 2^e, m > 0, in fixed point with 256 fraction bits. -/
def lnFix (m : Nat) (e : Int) : Int :=
  let k := Nat.log2 m
  let num := (m - 2 ^ k) * 2 ^ 256
  let z := num / (m + 2 ^ k)
  let s := 2 * atanhTerms (z * z / 2 ^ 256) 90 3 z z
  (s : Int) + (e + (k : Int)) * (ln2Fix : Int)

/-- The largest integer whose square is at most n, by bits from the top. -/
def isqrtBits (n : Nat) : Nat → Nat → Nat
  | 0, r => r
  | b + 1, r => if (r + 2 ^ b) * (r + 2 ^ b) ≤ n then isqrtBits n b (r + 2 ^ b) else isqrtBits n b r

def isqrt (n : Nat) : Nat := isqrtBits n (Nat.log2 n / 2 + 1) 0

/-- The binary32 value next to a positive m × 2^e that lies at most 2 units in the last place away, as `slip` chooses;
`exact` says that m × 2^e is the value itself and no lower bound of it. -/
def nearF32 (slip : Nat) (exact neg : Bool) (m : Nat) (e : Int) : FVal :=
  if m = 0 then .fin neg 0 0
  else
    let q := max (e + (Nat.log2 m : Int) + 1 - 24) (-149)
    let low : Nat := if q ≤ e then m * 2 ^ (e - q).toNat else m / 2 ^ (q - e).toNat
    let onGrid := exact && (q ≤ e || m % 2 ^ (q - e).toNat == 0)
    let d : Int := if onGrid then (slip % 5 : Nat) - 2 else (slip % 4 : Nat) - 1
    FVal.round fA32 (.fin neg ((low : Int) + d).toNat q)

/-- R206 EXP. -/
def veExp (x : FVal) : FVal :=
  match x with
  | .nan => .nan
  | .inf n => if n then .fin false 0 0 else .inf false
  | .fin neg m e =>
    let slip := Config.veSlip 6 (BitVec.ofNat 32 (toF32 x))
    if m = 0 then nearF32 slip true false 1 0
    else if e + (Nat.log2 m : Int) ≥ 8 then (if neg then .fin false 0 0 else .inf false)
    else
      let fx : Nat := if e ≥ -256 then m * 2 ^ (e + 256).toNat else m / 2 ^ (-(e + 256)).toNat
      let r := expFix neg fx
      nearF32 slip false false r.1 (r.2 - 256)

/-- R206 LOG; the spec states no value for a zero or negative input. -/
def veLog (x : FVal) : FVal :=
  match x with
  | .nan => .nan
  | .inf n => if n then ofF32 (Config.veOpen 7 (BitVec.ofNat 32 (toF32 x))).toNat else .inf false
  | .fin neg m e =>
    if neg || m = 0 then ofF32 (Config.veOpen 7 (BitVec.ofNat 32 (toF32 x))).toNat
    else
      let v := lnFix m e
      nearF32 (Config.veSlip 7 (BitVec.ofNat 32 (toF32 x))) false (decide (v < 0)) v.natAbs (-256)

/-- R206 RSQRT; the spec states no value for a zero or negative input. -/
def veRsqrt (x : FVal) : FVal :=
  match x with
  | .nan => .nan
  | .inf n => if n then ofF32 (Config.veOpen 8 (BitVec.ofNat 32 (toF32 x))).toNat else .fin false 0 0
  | .fin neg m e =>
    if neg || m = 0 then ofF32 (Config.veOpen 8 (BitVec.ofNat 32 (toF32 x))).toNat
    else
      let odd := e % 2 != 0
      let m2 := if odd then 2 * m else m
      let e2 := if odd then e - 1 else e
      let r := isqrt (2 ^ 400 / m2)
      nearF32 (Config.veSlip 8 (BitVec.ofNat 32 (toF32 x))) (r * r * m2 == 2 ^ 400) false r (-(e2 / 2) - 200)

end Sys2Proof.Machine
end

