-- ==== Sys2Proof/Machine/Sump.lean ====
section
/-!
DEFINITION. The Sump copy engines (spec/13 R553-R574): protected ranges, the image, narrow units, delta and shadow; and the
admission of writes to protected pages that are not copied yet (R568).
-/
namespace Sys2Proof.Machine

open Sys2Proof

/-- R555, R556. Image pages of a range. -/
def Prot.imagePages (r : Prot) : Nat := if r.narrow then r.pages / 5 * 4 else r.pages

/-- The stack of a range. -/
def Prot.stack (r : Prot) : Nat := r.page0 / 2 ^ 24

/-- R556. First image page of a range. -/
def State.imageBase (s : State) (r : Prot) : Nat :=
  ((s.prots.filter (·.index < r.index)).map Prot.imagePages).sum

/-- R556. Pages of the image. -/
def State.imageSize (s : State) : Nat := (s.prots.map Prot.imagePages).sum

/-- R570. The place of an image page of a range in the shadow of its stack; `j` counts from the range's first. -/
def State.shadowPlace (s : State) (r : Prot) (j : Nat) : Nat :=
  r.stack * 2 ^ 36 + s.cfg Reg.CKP_SUMP_BASE Fld.CKP_SUMP_BASE_BASE * 4096 +
    (((s.prots.filter (fun x => x.index < r.index && x.stack == r.stack)).map Prot.imagePages).sum + j) * 4096

/-- The delta area of a stack begins here. -/
def State.deltaBase (s : State) (stack : Nat) : Nat :=
  stack * 2 ^ 36 + s.cfg Reg.CKP_SUMP_BASE Fld.CKP_SUMP_BASE_BASE * 4096 + s.cfg Reg.CKP_SUMP_CFG Fld.CKP_SUMP_CFG_SHADOW_MIB * 2 ^ 20

/-- R571. Image pages that a delta area holds. -/
def State.deltaRoom (s : State) : Nat := s.cfg Reg.CKP_SUMP_CFG Fld.CKP_SUMP_CFG_DELTA_MIB * 255

/-- R571. Where delta page e of a stack lies, its page number, and where its index entry lies. -/
def State.deltaPage (s : State) (stack e : Nat) : Nat := s.deltaBase stack + e / 255 * 2 ^ 20 + (e % 255 + 1) * 4096
def State.deltaNo (s : State) (stack e : Nat) : Nat := s.deltaPage stack e / 4096
def State.deltaIndex (s : State) (stack e : Nat) : Nat := s.deltaBase stack + e / 255 * 2 ^ 20 + 8 * (e % 255)

def unusedIndex : Nat := 2 ^ 64 - 1

/-- R572. A page written by a Sump copy engine into the Sump, with its tag. -/
def State.writeImagePage (s : State) (place ip step : Nat) (d : List Byte) : State :=
  (s.writeSump place d).sealSump (place / 4096) 0x30 step ip

/-- The place of an image page in the shadow. -/
def State.shadowOf (s : State) (ip : Nat) : Option Nat :=
  match s.prots.find? (fun r => s.imageBase r ≤ ip && ip < s.imageBase r + r.imagePages) with
  | some r => some (s.shadowPlace r (ip - s.imageBase r))
  | none => none

/-! ### Narrow units (R557-R560) -/

/-- R558. Eight times the logarithm to base two of m × 2^e, rounded to the nearest integer. -/
def log8 (m : Nat) (e : Int) : Int := ((Nat.log2 (m ^ 16) : Int) + 16 * e + 1) / 2

/-- R558. The scale byte of a group. -/
def narrowScale (vs : List FVal) : Nat :=
  match (vs.filter FVal.isFin).foldl (fun a v => maxMag a v.abs) (.fin false 0 0) with
  | .fin _ m e => if m = 0 then 0 else (max 0 (min 255 (e + (Nat.log2 m : Int) + 128))).toNat
  | _ => 0

/-- R558. The code of one moment under a scale. -/
def narrowCode (E : Nat) : FVal → Nat
  | .fin n m e =>
    if m = 0 then 0
    else
      let k := min (log8 m e - 8 * ((E : Int) - 127) + 127) 126
      if k < 1 then 0 else (if n then 0x80 else 0) + k.toNat
  | _ => 0

/-- The integer eighth root of n. -/
def root8 (n : Nat) : Nat := isqrt (isqrt (isqrt n))

/-- R559. The BF16 encoding that a code widens to. -/
def widenCode (E c : Nat) : Nat :=
  let k := c % 128
  if k = 0 then 0
  else
    let t : Int := 8 * ((E : Int) - 127) + (k : Int) - 127
    let q := t / 8
    let f := (t % 8).toNat
    let r := root8 (2 ^ (512 + f))
    lBF16.encodeAll 0x7FC0 (FVal.round fBF16 (.fin (c ≥ 128) (2 * r + (if f = 0 then 0 else 1)) (q - 65)))

/-- R557, R558. A unit of 2,560 records as image bytes, with how many moments were not finite. -/
def narrowUnit (recs : List Byte) : List Byte × Nat :=
  let rs := chunksOf 8 2560 recs
  let m1 := rs.map (fun r => lBF16.ieee (leAt r 4 2))
  let m2 := rs.map (fun r => lBF16.ieee (leAt r 6 2))
  let g1 := chunksOf 32 80 m1
  let g2 := chunksOf 32 80 m2
  let codes (gs : List (List FVal)) : List Byte := gs.flatMap (fun g => g.map (fun v => BitVec.ofNat 8 (narrowCode (narrowScale g) v)))
  (rs.flatMap (fun r => r.take 4) ++ codes g1 ++ codes g2 ++ g1.map (fun g => BitVec.ofNat 8 (narrowScale g)) ++
    g2.map (fun g => BitVec.ofNat 8 (narrowScale g)) ++ List.replicate 864 0#8,
   ((m1 ++ m2).filter (fun v => !v.isFin)).length)

/-- R557, R559. The records that the image bytes of a unit widen to. -/
def widenUnit (img : List Byte) : List Byte :=
  (List.range 2560).flatMap (fun i =>
    (img.drop (4 * i)).take 4 ++
      leBytes 2 (widenCode (leAt img (15360 + i / 32) 1) (leAt img (10240 + i) 1)) ++
      leBytes 2 (widenCode (leAt img (15440 + i / 32) 1) (leAt img (12800 + i) 1)))

/-! ### Copying -/

/-- Clear the inactive dirty bit of a page (R227). -/
def State.clearInactive (s : State) (page : Nat) : State :=
  { s with mem := { s.mem with
      dirty := tblPut falseAt s.mem.dirty (dirtyKey (page / 2 ^ 24) (1 - s.activeBank (regionOfPage page)) (page % 2 ^ 24)) false } }

/-- The pages of stack k of region r set in the inactive bank, in address order. -/
def State.inactivePages (s : State) (r : Nat) : List Nat :=
  s.mem.dirty.filterMap (fun e =>
    let st := e.1 / 2 ^ 24 / 2
    if st / 2 == r && e.1 / 2 ^ 24 % 2 == 1 - s.activeBank r then some (st * 2 ^ 24 + e.1 % 2 ^ 24) else none)

/-- INACTIVE_SET of region r follows the bitmaps. -/
def State.countInactive (s : State) (r : Nat) : State :=
  s.fput (Reg.LDG_DIRTY_CTL r) Fld.LDG_DIRTY_CTL_INACTIVE_SET (s.inactivePages r).length

/-- R578. The bits of the inactive banks are dropped with a stopped cut: the next one copies every page. -/
def State.dropInactive (s : State) : State :=
  let s1 : State := { s with mem := { s.mem with
    dirty := tblDrop (fun k => k / 2 ^ 24 % 2 == 1 - s.activeBank (k / 2 ^ 24 / 4)) s.mem.dirty } }
  (List.range 8).foldl (fun s r => s.countInactive r) s1

/-- R571, R573. The index entries of a stack's delta are marked unused. -/
def State.clearDelta (s : State) (stack : Nat) : State :=
  let s1 := (List.range (tblGet zeroAt s.sump.delta stack)).foldl (fun s e => s.writeSump (s.deltaIndex stack e) (leBytes 8 unusedIndex)) s
  { s1 with sump := { s1.sump with delta := tblPut zeroAt s1.sump.delta stack 0 } }

/-- R578. The delta of a cut that is not sealed is discarded. -/
def State.clearDeltas (s : State) : State := (List.range 16).foldl State.clearDelta s

/-- R578. The copy of the cut in progress stops before sealing. -/
def State.stopCut (s : State) : State :=
  match s.sump.cut with
  | none => s
  | some _ =>
    let s1 := if s.fget Reg.CKP_STATUS Fld.CKP_STATUS_PHASE = 1 then s.fput Reg.CKP_STATUS Fld.CKP_STATUS_PHASE 0 else s
    let s2 := (List.range 8).foldl (fun s r => s.fput (Reg.LDG_SUMP_STATUS r) Fld.LDG_SUMP_STATUS_PHASE 0) s1
    let s3 := s2.clearDeltas.dropInactive.fput Reg.CKP_STATUS Fld.CKP_STATUS_FULL_NEXT 1
    { s3 with sump := { s3.sump with cut := none, tokens := [], held := [] } }

/-- PHASE of a Sump copy engine, and of all of them with the service's. -/
def State.sumpPhase (s : State) (r p : Nat) : State := s.fput (Reg.LDG_SUMP_STATUS r) Fld.LDG_SUMP_STATUS_PHASE p
def State.ckpPhase (s : State) (p : Nat) : State :=
  (List.range 8).foldl (fun s r => s.sumpPhase r p) (s.fput Reg.CKP_STATUS Fld.CKP_STATUS_PHASE p)

/-- R585. A drain is over, or is stopped: nothing of the cut runs on. -/
def State.endDrain (s : State) : State :=
  let s1 := s.ckpPhase 0
  { s1 with sump := { s1.sump with sealed := none, targets := [] } }

/-- R585. Module recovery stops a drain. -/
def State.stopDrain (s : State) : State := if s.fget Reg.CKP_STATUS Fld.CKP_STATUS_PHASE = 3 then s.endDrain else s

/-- The Sump copy engine that owns a stack, as the reader of a page. -/
def sumpCtx (stack : Nat) : Ctx := { die := 0x40 + stack / 2, unit := 0x15, region := some (stack / 2) }

/-- R412, R567. A Sump read of a page: its tag, then the poison of its bursts. -/
def State.sumpCheck (s : State) (c : Ctx) (p : Nat) : State × Option Nat :=
  match s.tagReadPage c p true none none with
  | (s1, none) => (match (burstsOf (p * 4096) 4096).find? (s1.mem.poison.contains ·) with
    | some b => (s1.ueReport (b * 64) c, some 0x07)
    | none => (s1, none))
  | x => x

/-- R573. Delta page e of a stack goes to its place in the shadow, read with its tag check (R411, R412). -/
def State.foldPage (s : State) (stack step e : Nat) : State × Option Nat :=
  let ip := leNat (s.mem.read (s.deltaIndex stack e) 8)
  match s.shadowOf ip with
  | none => (s, none)
  | some pl => afterCheck (s.sumpCheck (sumpCtx stack) (s.deltaNo stack e))
      (fun s1 => s1.writeImagePage pl ip step (s1.pageBytes (s1.deltaNo stack e)))

/-- R573. Fold the delta of a stack into the shadow, and mark its entries unused; the class of a page that fails its check stops the fold. -/
def State.foldStack (s : State) (stack step : Nat) : State × Option Nat :=
  afterCheck (foldChecks s (fun s e => s.foldPage stack step e) (List.range (tblGet zeroAt s.sump.delta stack))) (·.clearDelta stack)

/-- R573. Fold every stack. -/
def State.foldAll (s : State) (step : Nat) : State × Option Nat := foldChecks s (fun s st => s.foldStack st step) (List.range 16)

/-- R412. A page that a Sump copy engine reads for the cut in progress fails its check: the cut ends. -/
def State.cutFails (s : State) (stack cls : Nat) : State :=
  match s.sump.cut with
  | some c => (s.setDone c.ring c.seq { status := stFAULTED, cls := cls, die := 0x40 + stack / 2, unit := 0x15 }).stopCut
  | none => s

/-- R574. A delta area is full: the cut becomes full and goes directly into the shadow. -/
def State.deltaFull (s : State) (stack : Nat) (c : Cut) : State :=
  match (s.fput Reg.CKP_STATUS Fld.CKP_STATUS_SHADOW_VALID 0).foldAll c.step with
  | (s1, some cls) => s1.cutFails stack cls
  | (s1, none) =>
    let s2 := if c.full then s1 else s1.bump Reg.CKP_STATUS Fld.CKP_STATUS_FULL_CUTS 1
    { s2 with sump := { s2.sump with cut := some { c with full := true, direct := true } } }

/-- R567, R574. One image page of the cut in progress goes into the delta area, or into the shadow. -/
def State.putImage (s : State) (stack ip : Nat) (d : List Byte) : State :=
  match s.sump.cut with
  | none => s
  | some c0 =>
    let s1 := if !c0.direct && tblGet zeroAt s.sump.delta stack ≥ s.deltaRoom then s.deltaFull stack c0 else s
    match s1.sump.cut with
    | none => s1
    | some c =>
      let s2 :=
        if c.direct then (match s1.shadowOf ip with | some pl => s1.writeImagePage pl ip c.step d | none => s1)
        else
          let e := tblGet zeroAt s1.sump.delta stack
          let w := (s1.writeImagePage (s1.deltaPage stack e) ip c.step d).writeSump (s1.deltaIndex stack e) (leBytes 8 ip)
          { w with sump := { w.sump with delta := tblPut zeroAt w.sump.delta stack (e + 1) } }
      let s2 := s2.evCount (0x40 + stack / 2) 0x45 1 0xFFFF 0xFFFF
      let s3 : State := { s2 with sump := { s2.sump with cut := some { c with copied := c.copied + 1 } } }
      (s3.bump (Reg.LDG_SUMP_STATUS (stack / 2)) Fld.LDG_SUMP_STATUS_COPIED 1).fput
        (Reg.LDG_SUMP_PROGRESS (stack / 2)) Fld.LDG_SUMP_PROGRESS_NEXT (ip + 1)

/-- R567, R560. The Sump copy engine copies one unit of a protected range: it reads the pages as a tag-aware reader, writes
the image pages, writes narrowed moments back, and clears the pages' bits. A failing check ends the cut (R412). -/
def State.copyUnit (s : State) (r : Prot) (page : Nat) : State :=
  let ps := unitOf r page
  let st := page / 2 ^ 24
  match foldChecks s (fun s p => s.sumpCheck (sumpCtx st) p) ps with
  | (s1, some cls) => s1.cutFails st cls
  | (s1, none) =>
    let step := match s1.sump.cut with | some cut => cut.step | none => 0
    let s2 :=
      if r.narrow then
        let first := ps.headD page
        let img := narrowUnit (s1.mem.read (first * 4096) 20480)
        let ip := s1.imageBase r + (first - r.page0) / 5 * 4
        let s2 := (List.range 4).foldl (fun s i => s.putImage st (ip + i) ((img.1.drop (4096 * i)).take 4096)) s1
        let s3 := s2.writeSump (first * 4096) (widenUnit img.1)
        let s4 := ps.foldl (fun s p => if s.isOpen p then s else s.sealSump p (tagFmt (s.tag p)) step (tagId (s.tag p))) s3
        s4.bump Reg.CKP_STATUS Fld.CKP_STATUS_NONFINITE img.2
      else s1.putImage st (s1.imageBase r + (page - r.page0)) (s1.pageBytes page)
    (ps.foldl State.clearInactive s2).countInactive (st / 2)

/-- R568. The range whose page or unit a write to an HBM page has to wait for. -/
def State.uncopied (s : State) (page : Nat) : Option Prot :=
  if page < 2 ^ 28 && s.sump.cut.isSome then
    match s.protOfPage page with
    | some r => if (unitOf r page).any s.inactiveDirty then some r else none
    | none => none
  else none

/-- R568. A write reaches a page: a protected page, or a page whose unit is protected, that is still set in the inactive bank
is copied first. -/
def State.sumpGuard (s : State) (page : Nat) : State :=
  match s.uncopied page with
  | some r => (s.copyUnit r page).bump (Reg.LDG_SUMP_STATUS (regionOfPage page)) Fld.LDG_SUMP_STATUS_HELD_WRITES 1
  | none => s

/-- R273. The lowest TABLE_VER of the eight rule tables. -/
def State.ruleVer (s : State) : Nat :=
  let v (r : Nat) : Nat := leNat (s.gread (s.cfg (Reg.UPD_RULE_BASE r) Fld.UPD_RULE_BASE_BASE * 4096) 4)
  (List.range 8).foldl (fun a r => min a (v r)) (v 0)

/-- The pages of a held write. -/
def HeldWrite.pages (w : HeldWrite) : List Nat := pagesOf w.key w.data.length

/-- Pages together with those of the held writes that have to be admitted before a write to them: each later one shares a page. -/
def heldClosure (ps : List Nat) (l : List HeldWrite) : List Nat :=
  l.foldr (fun w q => if w.pages.any q.contains then q ++ w.pages else q) ps

/-- R53, R224. Held writes that an engine's write to some pages would overtake are admitted first, in the order of their arrival, each
once the units that it waits for are copied; one behind a read of its own master stays held. -/
def State.admitHeld (s : State) (ps : List Nat) : State :=
  let all := heldClosure ps s.heldWr
  (s.heldWr.filter (fun w => w.pages.any all.contains)).foldl (fun s w =>
    if s.behindRead w.who w.stamp (burstsOf w.key w.data.length) then s
    else
      let s1 := w.pages.foldl (fun s p => match s.uncopied p with | some r => s.copyUnit r p | none => s) s
      State.writePlain { s1 with heldWr := dropFirst (· == w) s1.heldWr } w.key w.data) s

/-- R53, R568. Pages are made ready for an engine's write: their units are copied, and older writes to them admitted. -/
def State.readyPages (s : State) (ps : List Nat) : State := (ps.foldl State.sumpGuard s).admitHeld ps

/-- A write of a tag-aware engine into HBM or staging SRAM, after the copy of protected units (R568) and the writes that came first (R53). -/
def State.engWrite (s : State) (a : Nat) (d : List Byte) : State := (s.readyPages (pagesOf a d.length)).write a d

/-! ### Tag-aware writes (R413, R414) -/

/-- Join address ranges that follow one another. -/
def joinRanges (rs : List (Nat × Nat)) : List (Nat × Nat) :=
  (rs.foldl (fun (acc : List (Nat × Nat)) r => match acc with
    | (a, n) :: t => if a + n = r.1 then (a, n + r.2) :: t else r :: (a, n) :: t
    | [] => [r]) []).reverse

/-- The pieces of writes to addresses of this module, by place. -/
def State.placed (s : State) (ws : List (Nat × List Byte)) : List (Nat × List Byte) :=
  ws.flatMap (fun w => (dataPieces w.1 w.2).filterMap (fun p => (s.placeOf p.1).map (fun a => (a, p.2))))

/-- R35, R50. The parts of writes that lie at no mapped place are discarded and reported. -/
def State.unplaced (s : State) (c : Ctx) (ws : List (Nat × List Byte)) : State :=
  (ws.flatMap (fun w => piecesOf w.1 w.2.length)).foldl (fun s p => if (s.placeOf p.1).isSome then s else s.unmapped p.1 c) s

/-- A page is covered whole by a range of places. -/
def coversPage (rs : List (Nat × Nat)) (page : Nat) : Bool :=
  rs.any (fun r => r.1 ≤ page * 4096 && page * 4096 + 4096 ≤ r.1 + r.2)

/-- Pages without repetition, in order of first mention. -/
def dedup (l : List Nat) : List Nat := l.foldl (fun a x => if a.contains x then a else a ++ [x]) []

/-- R413, R414. A tag-aware engine writes data with a FMT, a STEP and BLOCK_IDs by page: a page in part that fails its old
CRC keeps its contents and fails the operation; the other pages are written and sealed. A part at no mapped place is discarded and
reported (R50). -/
def State.awareWrites (s0 : State) (c : Ctx) (fmt step : Nat) (bid : Nat → Nat) (ws : List (Nat × List Byte)) : State × Option Nat :=
  let pl := s0.placed ws
  let pages := dedup (pl.flatMap (fun w => pagesOf w.1 w.2.length))
  let s := (s0.unplaced c ws).readyPages pages
  let cover := joinRanges (pl.map (fun w => (w.1, w.2.length)))
  let bad := pages.filter (fun p => !coversPage cover p && !s.isOpen p && !s.crcGood p)
  let s1 := (pl.filter (fun w => !bad.contains (w.1 / 4096))).foldl (fun s w => s.engWrite w.1 w.2) s
  let s2 := (pages.filter (fun p => !bad.contains p)).foldl (fun s p =>
    if coversPage cover p then s.sealPage p fmt step (bid p)
    else if s.isOpen p then s else s.sealPage p (tagFmt (s.tag p)) step (tagId (s.tag p))) s1
  let s3 := bad.foldl (fun s p => s.tagMismatch p c) s2
  (s3, if bad.isEmpty then none else some 0x09)

end Sys2Proof.Machine
end

