-- ==== Sys2Proof/Machine/Drain.lean ====
section
/-!
DEFINITION. A function leaves RUN (spec/02 R104, R115, R121): it enters DRAIN and cancels what has not started.
-/
namespace Sys2Proof.Machine

open Sys2Proof

/-- R115 step 2, R121. A fetched descriptor of ring n that a function's DRAIN cancels: one that targets it, when it has no substitute, or
one of the ring itself. -/
def State.cancelledBy (s : State) (f n : Nat) (x : Fetched) : Bool :=
  f == sqFn n || (s.targetFetched n x == some f && !hasSubstitute f)

/-- R196. The Tiler discards its prefetched operands. -/
def State.dropPrefetch (s : State) : State := { s with arr := { s.arr with prefetch := none, preCells := [], pre := [], busyAt := s.clk.now } }

/-- R196. A prefetched descriptor that completes without starting takes the prefetch with it. -/
def State.forgetPrefetch (s : State) (n seq : Nat) : State :=
  if s.arr.prefetch = some (n, seq) then s.dropPrefetch else s

/-- R115 step 2. Ring n completes its cancelled descriptors with CANCELLED, in RING_SEQ order. -/
def State.cancelRing (s : State) (f n : Nat) : State :=
  let xs := (s.sqSt n).fetched
  let s1 := s.setSq n { s.sqSt n with fetched := xs.filter (fun x => !s.cancelledBy f n x) }
  (xs.filter (s.cancelledBy f n)).foldl (fun s x => (s.forgetPrefetch n x.seq).completeFetched n x { status := stCANCELLED }) s1

/-- R118. A reply or late write of an earlier GEN of function f is dropped, counted and reported. -/
def State.dropStale (s : State) (f : Nat) : State :=
  State.report { s with genStale := tblPut zeroAt s.genStale f (tblGet zeroAt s.genStale f + 1) } 0x12 0
    { die := s.fnDie f, unit := unitOfFn f, fn := some f }

/-- R104, R115. A function in RUN enters DRAIN. -/
def State.enterDrain (s : State) (f : Nat) : State :=
  if s.fnState f = fnRUN then
    let s1 := s.setFn f fnDRAIN
    let s2 : State := { s1 with drainAt := tblPut zeroAt s1.drainAt f s1.clk.now }
    let s3 := if f = 0 then s2.dropPrefetch else s2
    let s4 := (List.range 256).foldl (fun s n => s.cancelRing f n) s3
    if 0x10 ≤ f && f < 0x30 && f % 4 == 2 then s4.stopCut else s4
  else s

end Sys2Proof.Machine
end

