-- ==== Sys2Proof/Machine/Tiles.lean ====
section
/-!
DEFINITION. The arithmetic of a sweep, tile by tile (spec/03 R125-R166, spec/04 R172-R182, R209-R212, spec/09 R419-R421):
operands, terms, chunk trees, the accumulation stack, the fold, the epilogue, TopK, the Strainer's checksums, and the places
of a tile's outputs.
-/
namespace Sys2Proof.Machine

open Sys2Proof

/-! ### Operands of SWEEP and INTERACT -/

/-- The operands of a SWEEP (R172, R173), from the descriptor and its parameter block. -/
structure SweepP where
  aFmt : Nat
  bFmt : Nat
  cFmt : Nat
  acc : Nat
  L : Nat
  gMax : Nat
  mode : Nat
  scaleMode : Nat
  topkK : Nat
  m : Nat
  n : Nat
  k : Nat
  batch : Nat
  a : Nat
  b : Nat
  c : Nat
  sa : Nat
  sb : Nat
  sc : Nat
  sigmaA : Nat
  betaA : Nat
  sigma : Nat
  lo : Nat
  hi : Nat
  lda : Nat
  ldb : Nat
  ldc : Nat
  bsa : Nat
  bsb : Nat
  bsc : Nat
  deriving DecidableEq, Repr

def sweepP (d p : List Byte) : SweepP where
  aFmt := leAt d 36 1
  bFmt := leAt d 37 1
  cFmt := leAt d 38 1
  acc := leAt d 39 1
  L := leAt d 40 1
  gMax := leAt d 41 1
  mode := leAt d 42 1
  scaleMode := leAt d 43 1
  topkK := leAt d 44 2
  m := leAt d 48 4
  n := leAt d 52 4
  k := leAt d 56 4
  batch := leAt d 60 4
  a := leAt p 0 8
  b := leAt p 8 8
  c := leAt p 16 8
  sa := leAt p 24 8
  sb := leAt p 32 8
  sc := leAt p 40 8
  sigmaA := leAt p 48 8
  betaA := leAt p 56 8
  sigma := leAt p 64 4
  lo := leAt p 68 4
  hi := leAt p 72 4
  lda := leAt p 76 4
  ldb := leAt p 80 4
  ldc := leAt p 84 4
  bsa := leAt p 88 8
  bsb := leAt p 96 8
  bsc := leAt p 104 8

def SweepP.transA (x : SweepP) : Bool := bitOf x.mode 0
def SweepP.transB (x : SweepP) : Bool := bitOf x.mode 1
def SweepP.rtz (x : SweepP) : Bool := bitOf x.mode 2
def SweepP.bias (x : SweepP) : Bool := bitOf x.mode 3
def SweepP.clamp (x : SweepP) : Bool := bitOf x.mode 4
def SweepP.topk (x : SweepP) : Bool := bitOf x.mode 5
def SweepP.whole (x : SweepP) : Bool := bitOf x.mode 6

/-- The operands of an INTERACT (R209). -/
structure InterP where
  zFmt : Nat
  cFmt : Nat
  acc : Nat
  L : Nat
  mode : Nat
  f : Nat
  d : Nat
  s : Nat
  zOff : Nat
  zStride : Nat
  oOff : Nat
  oStride : Nat
  sigma : Nat
  lo : Nat
  hi : Nat
  deriving DecidableEq, Repr

def interP (d : List Byte) : InterP where
  zFmt := leAt d 24 1
  cFmt := leAt d 25 1
  acc := leAt d 26 1
  L := leAt d 27 1
  mode := leAt d 28 1
  f := leAt d 29 1
  d := leAt d 30 2
  s := leAt d 32 4
  zOff := leAt d 36 4
  zStride := leAt d 40 4
  oOff := leAt d 44 4
  oStride := leAt d 48 4
  sigma := leAt d 52 4
  lo := leAt d 56 4
  hi := leAt d 60 4

def InterP.diag (x : InterP) : Bool := bitOf x.mode 0
/-- R211. Samples per tile. -/
def InterP.q (x : InterP) : Nat := 64 / x.f
/-- Output elements per sample (R210). -/
def InterP.outs (x : InterP) : Nat := if x.diag then x.f * (x.f + 1) / 2 else x.f * (x.f - 1) / 2
/-- R211. Tiles per block. -/
def InterP.tiles (x : InterP) : Nat := ceilDiv x.s x.q

/-- The global address of an offset in the staging SRAM of block b of this module. -/
def stagingAddr (b off : Nat) : Nat := 0xFFFF * 2 ^ 48 + 0x020000000000 + b * 0x8000000 + off

/-- The accumulator format of an ARRAY descriptor. -/
def accFmt (acc : Nat) : FFmt := if acc = 0 then fA32 else fAX

/-- The encoding of an accumulator value in A32 or AX (R134, R135), read back. -/
def ofAcc (acc w : Nat) : FVal :=
  if acc = 0 then ofF32 (w % 2 ^ 32)
  else
    let e := bitsOf w 46 36
    let m := w % 2 ^ 36
    let n := bitOf w 47
    if e = 2047 then (if m = 0 then .inf n else .nan)
    else .fin n m ((max e 1 : Nat) - 1023 - 35)

/-- The encoding of an accumulator value in A32 or AX (R134, R135), with the canonical NaN of R164. -/
def encAcc (acc : Nat) (v : FVal) : Nat :=
  if acc = 0 then toF32 v
  else
    let sg (n : Bool) : Nat := if n then 2 ^ 47 else 0
    match v with
    | .nan => 2047 * 2 ^ 36 + 0xC00000000
    | .inf n => sg n + 2047 * 2 ^ 36
    | .fin n m e =>
      let top : Int := e + (Nat.log2 m : Int)
      let lsb : Int := max (top - 35) (-1057)
      let frac := if lsb ≤ e then m * 2 ^ (e - lsb).toNat else m / 2 ^ (lsb - e).toNat
      if m = 0 then sg n
      else sg n + (if top < -1022 then 0 else (top + 1023).toNat) * 2 ^ 36 + frac

/-- What a sweep needs of a descriptor, SWEEP or INTERACT. -/
structure TileP where
  op : Nat
  acc : Nat
  L : Nat
  K : Nat
  f32 : Bool
  sw : SweepP
  it : InterP
  deriving DecidableEq, Repr

def tileP (bytes param : List Byte) : TileP :=
  let sw := sweepP bytes param
  let it := interP bytes
  if dOPCODE bytes = 0x1001 then
    { op := 0x1001, acc := sw.acc, L := sw.L, K := sw.k, f32 := sw.aFmt == 6, sw := sw, it := it }
  else { op := dOPCODE bytes, acc := it.acc, L := it.L, K := it.d, f32 := it.zFmt == 6, sw := sw, it := it }

/-- R179. Tile rows, tile columns, and tiles of a SWEEP. -/
def SweepP.tr (x : SweepP) : Nat := ceilDiv x.m 64
def SweepP.tc (x : SweepP) : Nat := ceilDiv x.n 64
def SweepP.total (x : SweepP) : Nat := x.batch * (x.tr * x.tc)

/-- Batch element, first row and first column of tile t of a SWEEP. -/
def SweepP.tileAt (x : SweepP) (t : Nat) : Nat × Nat × Nat :=
  let u := t % (x.tr * x.tc)
  (t / (x.tr * x.tc), u / x.tc * 64, u % x.tc * 64)

/-- Rows and columns that tile t holds (R179, R211). -/
def TileP.shape (x : TileP) (t : Nat) : Nat × Nat :=
  if x.op = 0x1001 then
    let a := x.sw.tileAt t
    (min 64 (x.sw.m - a.2.1), min 64 (x.sw.n - a.2.2))
  else
    let u := t % x.it.tiles
    let r := min x.it.q (x.it.s - u * x.it.q) * x.it.f
    (r, r)

/-- Chunks of K (R138). -/
def TileP.chunks (x : TileP) : Nat := ceilDiv x.K 64

/-! ### Elements -/

/-- The bits of element idx of packed elements of a format at an address (R126). -/
def State.elemAt (s : State) (f addr idx : Nat) : Nat :=
  if f = 1 then bitsOf (leNat (s.gread (addr + idx / 2) 1)) (idx % 2 * 4 + 3) (idx % 2 * 4)
  else leNat (s.gread (addr + idx * (elemBits f / 8)) (elemBits f / 8))

/-- R131. A binary32 value truncated to BF16. -/
def hiOf (w : Nat) : FVal := lBF16.ieee (w / 65536)

/-- R131. (x - hi) truncated to BF16, a zero keeping the sign of x. -/
def loOf (w : Nat) : FVal :=
  match (ofF32 w).add (hiOf w).negate with
  | .fin n m e =>
    if m = 0 then .fin (bitOf w 31) 0 0
    else
      let q := max (e + (Nat.log2 m : Int) + 1 - 8) (-133)
      if q ≤ e then .fin n m e else (if m / 2 ^ (q - e).toNat = 0 then .fin (bitOf w 31) 0 0 else .fin n (m / 2 ^ (q - e).toNat) q)
  | v => v

/-- The operand of a format from its bits and block scale. -/
def opnd (f w scale : Nat) : Opnd :=
  if f = 6 then { v := ofF32 w, hi := hiOf w, lo := loOf w, fl := false }
  else
    let v := flushVal f w
    let x := if blockScaled f then scaled scale v else v
    { v := x, hi := x, lo := .fin false 0 0, fl := isFlushed f w }

/-- Element (i, k) of op(A) of batch element e (R174-R176). -/
def State.sweepA (s : State) (x : SweepP) (e i k : Nat) : Opnd :=
  let base := x.a + e * x.bsa
  let w := if x.transA then s.elemAt x.aFmt (base + k * x.lda) i else s.elemAt x.aFmt (base + i * x.lda) k
  let sc := if blockScaled x.aFmt then
      leNat (s.gread (x.sa + e * x.m * ceilDiv x.k 32 + i * ceilDiv x.k 32 + k / 32) 1) else 127
  opnd x.aFmt w sc

/-- Element (k, j) of op(B) of batch element e. -/
def State.sweepB (s : State) (x : SweepP) (e k j : Nat) : Opnd :=
  let base := x.b + e * x.bsb
  let w := if x.transB then s.elemAt x.bFmt (base + j * x.ldb) k else s.elemAt x.bFmt (base + k * x.ldb) j
  let sc := if blockScaled x.bFmt then
      leNat (s.gread (x.sb + e * x.n * ceilDiv x.k 32 + j * ceilDiv x.k 32 + k / 32) 1) else 127
  opnd x.bFmt w sc

/-- Element k of row i of an INTERACT tile (R210, R211). -/
def State.interZ (s : State) (x : InterP) (t i k : Nat) : Opnd :=
  let blk := t / x.tiles
  let smp := t % x.tiles * x.q + i / x.f
  opnd x.zFmt (s.elemAt x.zFmt (stagingAddr blk (x.zOff + smp * x.zStride)) (i % x.f * x.d + k)) 127

/-- Row operand (i, k) and column operand (k, j) of tile t. -/
def State.tileA (s : State) (x : TileP) (t i k : Nat) : Opnd :=
  if x.op = 0x1001 then let a := x.sw.tileAt t; s.sweepA x.sw a.1 (a.2.1 + i) k else s.interZ x.it t i k
def State.tileB (s : State) (x : TileP) (t k j : Nat) : Opnd :=
  if x.op = 0x1001 then let a := x.sw.tileAt t; s.sweepB x.sw a.1 k (a.2.2 + j) else s.interZ x.it t j k

/-! ### Terms, chunks, stack, fold -/

/-- R132, R137, R163. The term of two operand elements. -/
def termOf (f : FFmt) (f32 : Bool) (a b : Opnd) : FVal :=
  if f32 && a.v.isFin && b.v.isFin then
    (((a.hi.mul b.hi).add (a.hi.mul b.lo)).add (a.lo.mul b.hi)).round f
  else (a.v.mul b.v).round f

/-- R138. The reduction indices of chunk c. -/
def chunkKs (K c : Nat) : List Nat := (List.range (min 64 (K - 64 * c))).map (64 * c + ·)

/-- R139. The chunk sum from the operands of a row and of a column. -/
def chunkSum (f : FFmt) (f32 : Bool) (row col : List Opnd) : FVal :=
  (treeSum f 6 (List.zipWith (termOf f f32) row col)).getD (.fin false 0 0)

/-- R140. A chunk sum enters the stack, whose slots 0 to L the list holds. -/
def pushStack (f : FFmt) : List (Option FVal) → FVal → List (Option FVal)
  | [], _ => []
  | [some x], v => [some (fadd f x v)]
  | [none], v => [some v]
  | some x :: t, v => none :: pushStack f t (fadd f x v)
  | none :: t, v => some v :: t

/-- R141. The fold of the stack; +0 when nothing is in it. -/
def foldSlots (f : FFmt) (slots : List (Option FVal)) : FVal :=
  (slots.foldl (fun (acc : Option FVal) x => match acc, x with
    | none, x => x
    | a, none => a
    | some a, some x => some (fadd f x a)) none).getD (.fin false 0 0)

/-- Sum in binary64, in index order (R419; the order is assumption 21). -/
def sum64 (vs : List FVal) : FVal := vs.foldl (fadd f64) (.fin false 0 0)

/-- R419. One step k of a checksum: from the sums over one side and the element of the other. -/
def checkStep (f32 : Bool) (acc : FVal) (sv shi slo : FVal) (o : Opnd) : FVal :=
  if f32 && o.v.isFin && sv.isFin then
    fadd f64 acc (fadd f64 (fadd f64 (fmul f64 shi o.hi) (fmul f64 shi o.lo)) (fmul f64 slo o.hi))
  else fadd f64 acc (fmul f64 sv o.v)

/-- The magnitudes of an operand. -/
def Opnd.mag (o : Opnd) : Opnd := { v := o.v.abs, hi := o.hi.abs, lo := o.lo.abs, fl := o.fl }

/-- The checksum of each line of `lines` (columns for P and S, rows for Q and T) after a chunk: `across` lists, for each k,
the operands of the other side. -/
def checkChunk (f32 : Bool) (old : List FVal) (across : List (List Opnd)) (lines : List (List Opnd)) : List FVal :=
  let sums := across.map (fun os => (sum64 (os.map (·.v)), sum64 (os.map (·.hi)), sum64 (os.map (·.lo))))
  List.zipWith (fun acc line =>
    (List.zip sums line).foldl (fun acc e => checkStep f32 acc e.1.1 e.1.2.1 e.1.2.2 e.2) acc) old lines

/-- Swap rows and columns of a table of n columns. -/
def transposeOp (n : Nat) (rows : List (List Opnd)) : List (List Opnd) :=
  (List.range n).map (fun k => rows.filterMap (fun r => r[k]?))

/-- The operands of chunk c of tile t: its rows and its columns. -/
def State.chunkOps (s : State) (x : TileP) (t c : Nat) : List (List Opnd) × List (List Opnd) :=
  let sh := x.shape t
  let ks := chunkKs x.K c
  ((List.range sh.1).map (fun i => ks.map (fun k => s.tileA x t i k)), (List.range sh.2).map (fun j => ks.map (fun k => s.tileB x t k j)))

/-- The A operand format (R129), whose code is also the EVENT of its MAC terms (R666). -/
def TileP.fmt (x : TileP) : Nat := if x.op = 0x1001 then x.sw.aFmt else x.it.zFmt

/-- The B operand format. -/
def TileP.fmtB (x : TileP) : Nat := if x.op = 0x1001 then x.sw.bFmt else x.it.zFmt

/-- R188. The operands of chunk c of tile t after another master has written over them: free values. -/
def State.lostOps (s : State) (x : TileP) (t c : Nat) : List (List Opnd) × List (List Opnd) :=
  let sh := x.shape t
  let n := (chunkKs x.K c).length
  let get (f i : Nat) : Opnd := opnd f (leNat ((List.range 4).map (fun j => Config.freeByte (s.freeCtr + 5 * i + j))) % 2 ^ elemBits f)
    (Config.freeByte (s.freeCtr + 5 * i + 4)).toNat
  ((List.range sh.1).map (fun i => (List.range n).map (fun k => get x.fmt (64 * i + k))),
   (List.range sh.2).map (fun j => (List.range n).map (fun k => get x.fmtB (4096 + 64 * j + k))))

/-- R167, R666. The events of a chunk with its operands: MAC terms, flushed, NaN and infinite inputs. -/
def chunkEvents (x : TileP) (c : Nat) (q : List (List Opnd) × List (List Opnd)) : List (Nat × Nat) :=
  let es := (q.1 ++ q.2).flatten
  [(x.fmt, q.1.length * q.2.length * (chunkKs x.K c).length), (0x10, (es.filter (·.fl)).length),
   (0x11, (es.filter (fun o => o.v == .nan)).length),
   (0x12, (es.filter (fun o => o.v == .inf false || o.v == .inf true)).length)]

/-- R138-R140, R419. A tile takes chunk c with its operands: its stacks and its Strainer's checksums; whether an input was flushed. -/
def applyChunk (x : TileP) (tl : Tile) (c : Nat) (q : List (List Opnd) × List (List Opnd)) : Tile × Bool :=
  let f := accFmt x.acc
  let sh := x.shape tl.num
  let rows := q.1
  let cols := q.2
  let old := if tl.stack.isEmpty then List.replicate (sh.1 * sh.2) (List.replicate (x.L + 1) none) else tl.stack
  let sums := rows.flatMap (fun r => cols.map (fun l => chunkSum f x.f32 r l))
  let z (n : Nat) (l : List FVal) : List FVal := if l.isEmpty then List.replicate n (.fin false 0 0) else l
  let magR := rows.map (fun r => r.map Opnd.mag)
  let magC := cols.map (fun r => r.map Opnd.mag)
  let n := (chunkKs x.K c).length
  ({ tl with
      next := c + 1
      stack := List.zipWith (pushStack f) old sums
      p := checkChunk x.f32 (z sh.2 tl.p) (transposeOp n rows) cols
      s := checkChunk x.f32 (z sh.2 tl.s) (transposeOp n magR) magC
      q := checkChunk x.f32 (z sh.1 tl.q) (transposeOp n cols) rows
      t := checkChunk x.f32 (z sh.1 tl.t) (transposeOp n magC) magR },
   (rows ++ cols).any (fun l => l.any (·.fl)))

/-- A tile with every chunk of K applied, from the start: what a replay or an audit computes (R424, R443). -/
def State.runTile (s : State) (x : TileP) (num cell : Nat) : Tile :=
  (List.range x.chunks).foldl (fun tl c => (applyChunk x tl c (s.chunkOps x tl.num c)).1) { num := num, cell := cell, round := 0 }

/-- R141, R164. The encodings of a tile's folded values in row order; `fault` lists elements that a fault of the cell changed, with the
encoding that the accumulator then holds. -/
def foldTile (x : TileP) (tl : Tile) (fault : List (Nat × Nat)) : List Nat :=
  let sh := x.shape tl.num
  let vs := if tl.stack.isEmpty then List.replicate (sh.1 * sh.2) (FVal.fin false 0 0) else tl.stack.map (foldSlots (accFmt x.acc))
  fault.foldl (fun l e => listSet l e.1 (e.2 % (if x.acc = 0 then 2 ^ 32 else 2 ^ 48))) (vs.map (fun v => encAcc x.acc (v.round (accFmt x.acc))))

/-! ### The Strainer's verdict (R419-R421) -/

/-- R150. c of a sweep. -/
def boundC (K L : Nat) : Nat := ceilDiv K (64 * 2 ^ L) - 1

/-- R420. The tolerance. -/
def tau (x : TileP) (v : FVal) : FVal :=
  let c := boundC x.K x.L
  let u : Int := if x.acc = 0 then -24 else -36
  let eta : Int := if x.acc = 0 then -150 else -1058
  ((FVal.mul (.fin false (7 + x.L + c) u) v).add (FVal.mul (.fin false 1 (-44)) v)).add (.fin false (64 * x.K) eta)

/-- One check: skipped, passed or failed. -/
def lineCheck (x : TileP) (sum chk mag : FVal) (vals : List FVal) : Option Bool :=
  if !chk.isFin || !mag.isFin || vals.any (fun v => !v.isFin) then none
  else some (!(FVal.lt (tau x mag) (sum.add chk.negate).abs))

/-- The checks of the columns and rows of a folded tile. -/
def tileChecks (x : TileP) (t : Folded) : List (Option Bool) :=
  let sh := x.shape t.num
  let z (n : Nat) (l : List FVal) : List FVal := if l.isEmpty then List.replicate n (FVal.fin false 0 0) else l
  let row (i : Nat) : List FVal := (t.vals.drop (i * sh.2)).take sh.2
  let col (j : Nat) : List FVal := (List.range sh.1).filterMap (fun i => t.vals[i * sh.2 + j]?)
  ((List.range sh.2).map (fun j => lineCheck x (sum64 (col j)) ((z sh.2 t.p).getD j .nan) ((z sh.2 t.s).getD j .nan) (col j))) ++
    ((List.range sh.1).map (fun i => lineCheck x (sum64 (row i)) ((z sh.1 t.q).getD i .nan) ((z sh.1 t.t).getD i .nan) (row i)))

/-! ### Epilogue (R156-R161) and outputs -/

/-- R156. Scale, bias and clamp of one folded value. -/
def epilogue (f : FFmt) (sigma beta : Option FVal) (clamp : Option (FVal × FVal)) (a : FVal) : FVal :=
  let a := match sigma with | some v => fmul f a v | none => a
  let a := match beta with | some v => fadd f a v | none => a
  match clamp with
  | some (lo, hi) => if FVal.lt a lo then lo else if FVal.lt hi a then hi else a
  | none => a

/-- The values of a tile after step 3 of R156, in row order. -/
def State.tileVals (s : State) (x : TileP) (t : Folded) : List FVal :=
  let f := accFmt x.acc
  let sh := x.shape t.num
  if x.op = 0x1001 then
    let a := x.sw.tileAt t.num
    let cols := (List.range sh.2).map (fun j =>
      let jj := a.2.2 + j
      (if x.sw.scaleMode = 1 then some (ofF32 x.sw.sigma)
       else if x.sw.scaleMode = 2 then some (ofF32 (leNat (s.gread (x.sw.sigmaA + 4 * jj) 4))) else none,
       if x.sw.bias then some (ofF32 (leNat (s.gread (x.sw.betaA + 4 * jj) 4))) else none))
    let clamp := if x.sw.clamp then some (ofF32 x.sw.lo, ofF32 x.sw.hi) else none
    (List.range t.vals.length).filterMap (fun i => (t.vals[i]?).map (fun v =>
      let c := cols.getD (i % sh.2) (none, none)
      epilogue f c.1 c.2 clamp v))
  else
    let sg := if bitOf x.it.mode 1 then some (ofF32 x.it.sigma) else none
    let clamp := if bitOf x.it.mode 2 then some (ofF32 x.it.lo, ofF32 x.it.hi) else none
    t.vals.map (epilogue f sg none clamp)

/-- Packed bytes of element codes (R126). -/
def packElems (f : Nat) (codes : List Nat) : List Byte :=
  if f = 1 then (chunksOf 2 codes.length codes).map (fun c => BitVec.ofNat 8 (c.getD 0 0 + 16 * c.getD 1 0))
  else codes.flatMap (fun c => leBytes (elemBits f / 8) c)

/-- A row of values as output bytes: the elements, the block scales, and the INF_OUT and NAN_OUT counts. -/
def convRow (f : Nat) (rtz : Bool) (vs : List FVal) : List Byte × List Byte × Nat × Nat :=
  if blockScaled f then
    let bs := (chunksOf 32 vs.length vs).map (convBlock f rtz)
    (packElems f (bs.flatMap (·.2.1)), bs.map (fun b => BitVec.ofNat 8 b.1), (bs.map (·.2.2.1)).sum, (bs.map (·.2.2.2)).sum)
  else
    let es := vs.map (convElem f)
    (packElems f (es.map (·.1)), [], (es.filter (·.2 == .inf)).length, (es.filter (·.2 == .nan)).length)

/-- What a tile writes: element bytes, scale bytes, counts. -/
structure TileOut where
  data   : List (Nat × List Byte) := []
  scales : List (Nat × List Byte) := []
  infs   : Nat := 0
  nans   : Nat := 0
  deriving DecidableEq, Repr

/-- Rows of a list. -/
def rowsOf {α : Type} (n : Nat) (l : List α) : List (List α) := chunksOf n l.length l

/-- R210. The place of element (i, j) of a sample in its packed output. -/
def triIndex (diag : Bool) (f i j : Nat) : Nat :=
  if diag then ((List.range i).map (fun r => f - r)).sum + (j - i) else ((List.range i).map (fun r => f - 1 - r)).sum + (j - i - 1)

/-- The outputs of a tile of a sweep without TopK, or of an INTERACT tile (R174, R175, R210). -/
def State.tileOut (s : State) (x : TileP) (t : Folded) : TileOut :=
  let sh := x.shape t.num
  let vs := s.tileVals x t
  if x.op = 0x1001 then
    let a := x.sw.tileAt t.num
    let n32 := ceilDiv x.sw.n 32
    ((List.range sh.1).zip (rowsOf sh.2 vs)).foldl (fun o r =>
      let c := convRow x.sw.cFmt x.sw.rtz r.2
      let i := a.2.1 + r.1
      { data := o.data ++ [(x.sw.c + a.1 * x.sw.bsc + i * x.sw.ldc + a.2.2 * elemBits x.sw.cFmt / 8, c.1)]
        scales := if c.2.1.isEmpty then o.scales else o.scales ++ [(x.sw.sc + a.1 * x.sw.m * n32 + i * n32 + a.2.2 / 32, c.2.1)]
        infs := o.infs + c.2.2.1
        nans := o.nans + c.2.2.2 }) {}
  else
    let blk := t.num / x.it.tiles
    let smp0 := t.num % x.it.tiles * x.it.q
    (List.range (sh.1 / x.it.f)).foldl (fun o u =>
      let ijs := (List.range x.it.f).flatMap (fun i => (List.range x.it.f).filterMap (fun j =>
        if i < j || (x.it.diag && i == j) then some (vs.getD ((u * x.it.f + i) * sh.2 + u * x.it.f + j) .nan) else none))
      let c := convRow x.it.cFmt false ijs
      { o with
        data := o.data ++ [(stagingAddr blk (x.it.oOff + (smp0 + u) * x.it.oStride), c.1)]
        infs := o.infs + c.2.2.1
        nans := o.nans + c.2.2.2 }) {}

/-- The format code of the canonical NaN element of a TopK padding entry (R161, R164). -/
def canonicalNan (f : Nat) : Nat := (convElem f .nan).1

/-- R161, R178. The ranked entries of a scope as bytes, with the counts of R165. -/
def topkBytes (f k : Nat) (l : List (FVal × Nat)) : List Byte × Nat × Nat :=
  let es := l.map (fun e => (convElem f e.1, e.2))
  (es.flatMap (fun e => leBytes 8 e.1.1 ++ leBytes 8 e.2) ++
     (List.replicate (k - l.length) (leBytes 8 (canonicalNan f) ++ leBytes 8 (2 ^ 64 - 1))).flatten,
   (es.filter (·.1.2 == .inf)).length, (es.filter (·.1.2 == .nan)).length)

/-- R160-R162. The TopK output of a SWEEP from its folded tiles. -/
def State.topkOut (s : State) (x : TileP) (ts : List Folded) : TileOut :=
  let w := x.sw
  let all := ts.flatMap (fun t =>
    let a := w.tileAt t.num
    let sh := x.shape t.num
    let vs := s.tileVals x t
    (List.range vs.length).filterMap (fun i => (vs[i]?).map (fun v =>
      let r := a.2.1 + i / sh.2
      ((if w.whole then a.1 else a.1 * w.m + r), (v, r * w.n + (a.2.2 + i % sh.2))))))
  (List.range (if w.whole then w.batch else w.batch * w.m)).foldl (fun o sc =>
    let l := rankMerge w.topkK [] ((all.filter (·.1 == sc)).map (·.2))
    let b := topkBytes w.cFmt w.topkK l
    let addr := if w.whole then w.c + sc * w.bsc else w.c + sc / w.m * w.bsc + sc % w.m * w.ldc
    { o with data := o.data ++ [(addr, b.1)], infs := o.infs + b.2.1, nans := o.nans + b.2.2 }) {}

/-! ### Dealing (R152, R180, R182, R211, R212) -/

/-- R152. Tiles per cell. -/
def tilesPerCell (acc L : Nat) : Nat := min 32 (if acc = 0 then 32 / (L + 1) else 128 / (6 * (L + 1)))

/-- R182. G. -/
def gOf (acc L gMax : Nat) : Nat :=
  if gMax ≠ 0 && gMax < tilesPerCell acc L then gMax else tilesPerCell acc L

/-- R182. The dealing of tiles t to T - 1 over the cells. -/
def dealTiles (cells : List Nat) (G T : Nat) : Nat → Nat → Nat → List Tile
  | 0, _, _ => []
  | fuel + 1, t, rnd =>
    if T ≤ t || cells.isEmpty || G = 0 then []
    else
      let g := min G (ceilDiv (T - t) cells.length)
      ((List.range (min (cells.length * g) (T - t))).map (fun i =>
        ({ num := t + i, cell := cells.getD (i / g) 0, round := rnd } : Tile))) ++
        dealTiles cells G T fuel (t + cells.length * g) (rnd + 1)

/-- R212. The block whose cells run the tiles of a block. -/
def hostBlock (active : List Nat) (b : Nat) : Option Nat :=
  let has (x : Nat) : Bool := active.any (fun c => c / 64 == x)
  if has b then some b
  else match ((List.range 7).map (fun i => b / 8 * 8 + (b + 1 + i) % 8)).find? has with
    | some x => some x
    | none => ((List.range 63).map (fun i => (b + 1 + i) % 64)).find? has

/-- The tiles of an ARRAY descriptor, dealt to the active cells. -/
def dealAll (x : TileP) (active gone : List Nat) : List Tile :=
  if x.op = 0x1001 then dealTiles active (gOf x.acc x.L x.sw.gMax) x.sw.total x.sw.total 0 0
  else
    ((List.range 64).filter (fun b => !gone.contains b)).flatMap (fun b =>
      match hostBlock active b with
      | some h => (dealTiles (active.filter (fun c => c / 64 == h)) (gOf x.acc x.L 0) x.it.tiles x.it.tiles 0 (b * 2 ^ 32)).map
          (fun t => { t with num := b * x.it.tiles + t.num })
      | none => [])

/-- R180. A cell (block × 64 + cell) is enabled and not fenced. -/
def State.cellActive (s : State) (c : Nat) : Bool :=
  !bitOf (s.reg Reg.ARR_FENCE_BLOCK).toNat (c / 64) && bitOf (s.reg Reg.ARR_BLOCK_MASK).toNat (c / 64) &&
    !bitOf (s.reg (Reg.ARR_FENCE_CELL (c / 64))).toNat (c % 64) && bitOf (s.reg (Reg.ARR_CELL_MASK (c / 64))).toNat (c % 64)

/-- R180. The active set, in ascending order. -/
def State.activeSet (s : State) : List Nat := (List.range 4096).filter s.cellActive

/-! ### Choosing another cell (R185, R186, R424) -/

/-- R185. The search of a block's grid from cell c for a cell that may take over; c itself is never chosen. -/
def searchGrid (ok : Nat → Bool) (c : Nat) : Option Nat :=
  match ((List.range 7).map (fun i => c / 8 * 8 + (c % 8 + 1 + i) % 8)).find? ok with
  | some x => some x
  | none => ((List.range 7).flatMap (fun r => (List.range 8).map (fun i => (c / 8 + 1 + r) % 8 * 8 + i))).find? ok

/-- R185, R186. Where the tiles of a cell go among the active cells: in its block, else in the next block upwards. -/
def moveTarget (active : List Nat) (cell : Nat) : Option Nat :=
  let b := cell / 64
  let c := cell % 64
  match searchGrid (fun x => active.contains (b * 64 + x)) c with
  | some x => some (b * 64 + x)
  | none => ((List.range 63).map (fun i => (b + 1 + i) % 64)).findSome? (fun y =>
      if active.contains (y * 64 + c) then some (y * 64 + c)
      else (searchGrid (fun x => active.contains (y * 64 + x)) c).map (y * 64 + ·))

end Sys2Proof.Machine
end

