-- ==== Sys2Proof/Machine/Ledger.lean ====
section
/-!
DEFINITION. The Ledger dies (spec/05): the patrol scrubber, the cut tokens' bank swap, tables, and the Gather engine; sealing
and verifying of tags (spec/09 R418).
-/
namespace Sys2Proof.Machine

open Sys2Proof

/-! ### Patrol scrubber (R223, R417) -/

/-- R221, R223, R417. The scrubber of stack k reads its next burst, and an error that no other unit has met is noted as its own; at the end of a page that is neither OPEN nor WITHDRAWN it
verifies the page's CRC. -/
def scrubRead (s : State) (st : Nat) (ecc : Ecc) : State :=
  let n := tblGet zeroAt s.scrub st
  let burst := st * 2 ^ 30 + n
  let page := burst / 64
  let s1 := s.eccRead burst ecc
  let only := !s.mem.poison.contains burst || s.mem.scrubbed.contains burst
  let s2 := if s1.mem.poison.contains burst then s1.ueReport (burst * 64) { unit := 0xFF } only else s1
  let s3 : State := { s2 with scrub := tblPut zeroAt s2.scrub st ((n + 1) % 2 ^ 30) }
  if n % 64 = 63 && !s3.isOpen page && !s3.isWithdrawn page && !s3.crcGood page then
    (s3.tagMismatch page {}).withdrawPage page
  else s3

/-- R223. SCRUB_READ; the scrubber of a stack runs while PERIOD_H is not zero and its region is out of reset. -/
def execScrubRead (st : Nat) (ecc : Ecc) (s : State) : Host.Outcome State Fault Refusal :=
  .next (if st < 16 && s.fget (Reg.LDG_SCRUB_CFG (st / 2)) Fld.LDG_SCRUB_CFG_PERIOD_H != 0 && s.blockUp (0x40 + st / 2) then
      scrubRead s st ecc else s)

/-! ### Cut tokens (R226, R227, R565) -/

/-- R226, R565. Ledger die r swaps its banks; every page of every ANCHOR range of its stacks counts as set, or every page of
every range when the cut is to copy all (R574, R578). -/
def State.swapBanks (s : State) (r : Nat) : State :=
  let all := match s.sump.cut with | some c => c.full | none => false
  let s1 := s.fput (Reg.LDG_DIRTY_CTL r) Fld.LDG_DIRTY_CTL_BANK (1 - s.activeBank r)
  let anchors := s1.prots.filter (fun p => p.stack / 2 == r && (p.kind == 2 || all))
  let pages := anchors.flatMap (fun p => (List.range p.pages).map (p.page0 + ·))
  let s2 := pages.foldl (fun s p => { s with mem := { s.mem with
      dirty := tblPut falseAt s.mem.dirty (dirtyKey (p / 2 ^ 24) (1 - s.activeBank r) (p % 2 ^ 24)) true } }) s1
  let s3 := (s2.fput (Reg.LDG_SUMP_STATUS r) Fld.LDG_SUMP_STATUS_HELD_WRITES 0).fput (Reg.LDG_SUMP_STATUS r) Fld.LDG_SUMP_STATUS_COPIED 0
  let s4 := ((s3.fput (Reg.LDG_SUMP_STATUS r) Fld.LDG_SUMP_STATUS_PHASE 1).fput (Reg.LDG_SUMP_PROGRESS r) Fld.LDG_SUMP_PROGRESS_NEXT 0).fput
    Reg.CKP_STATUS Fld.CKP_STATUS_PHASE 1
  let s5 := s4.countInactive r
  match s5.sump.cut with
  | none => s5
  | some c =>
    let c' : Cut := { c with swapped := c.swapped ++ [r], ruleVer := s5.ruleVer }
    let s6 : State := { s5 with sump := { s5.sump with cut := some c' } }
    if c'.swapped.length = 8 && !c.waitSeal && !c.waitDrain then s6.setDone c.ring c.seq { status := stSUCCESS, result := 1 } else s6

/-- R226, R227. The cut token reaches Ledger die r: it swaps, or holds the token while its inactive bank is not clear. -/
def execCutTokenArrival (r : Nat) (s : State) : Host.Outcome State Fault Refusal :=
  .next (if s.sump.tokens.contains r then
      let s1 : State := { s with sump := { s.sump with tokens := s.sump.tokens.filter (· != r) } }
      if (s1.inactivePages r).isEmpty then s1.swapBanks r
      else
        let s2 : State := { s1 with sump := { s1.sump with held := s1.sump.held ++ [r] } }
        s2.bump (Reg.LDG_DIRTY_CTL r) Fld.LDG_DIRTY_CTL_HELD_CUTS 1
    else s)

/-- R227. A held token is acted on once the inactive bank is clear. -/
def execCutTokenRelease (r : Nat) (s : State) : Host.Outcome State Fault Refusal :=
  .next (if s.sump.held.contains r && (s.inactivePages r).isEmpty then
      State.swapBanks { s with sump := { s.sump with held := s.sump.held.filter (· != r) } } r
    else s)

/-! ### Tables (R232-R238, R778) -/

/-- A directory entry (R233). -/
structure TblEntry where
  version : Nat
  fmt : Nat
  w : Nat
  shard : Nat
  d : Nat
  stride : Nat
  seed : Nat
  map : Nat
  base : Nat
  mapVer : Nat
  salt : Nat
  slots : Nat
  deriving DecidableEq, Repr

def tblEntry (b : List Byte) : TblEntry where
  version := leAt b 0 1
  fmt := leAt b 1 1
  w := leAt b 2 1
  shard := leAt b 3 1
  d := leAt b 4 2
  stride := 2 ^ leAt b 6 1
  seed := leAt b 8 8
  map := leAt b 16 8
  base := leAt b 24 8
  mapVer := leAt b 32 4
  salt := leAt b 36 2
  slots := leAt b 40 4

/-- R235. Bytes of a row's payload. -/
def TblEntry.payload (e : TblEntry) : Nat := elemBytes e.fmt e.d + (if blockScaled e.fmt then ceilDiv e.d 32 else 0)

/-- An address whose chip part names this module. -/
def State.ownAddr (s : State) (a : Nat) : Bool :=
  a / 2 ^ 48 == 0xFFFF || (match s.chip with | some c => a / 2 ^ 48 == c | none => false)

/-- R778. The entry is valid. -/
def State.entryValid (s : State) (b : List Byte) : Bool :=
  let e := tblEntry b
  let lg := leAt b 6 1
  e.version != 0 && 1 ≤ e.fmt && e.fmt ≤ 6 && 10 ≤ e.w && e.w ≤ 48 && e.shard ≤ 20 && e.shard ≤ e.w && 1 ≤ e.d && e.d ≤ 4096 &&
    6 ≤ lg && lg ≤ 12 && e.payload ≤ e.stride && e.map % 4 == 0 && e.base % 4096 == 0 && s.ownAddr e.map && s.ownAddr e.base &&
    zeroBytes b 7 7 && zeroBytes b 38 39 && zeroBytes b 44 63

/-- Where entry i of the directory of Ledger die r lies (R232). -/
def State.entryAddr (s : State) (r i : Nat) : Nat := s.cfg (Reg.LDG_TBL_DIR_BASE r) Fld.LDG_TBL_DIR_BASE_BASE * 4096 + 64 * i

/-- The entry of a TABLE_ID in the directory of Ledger die r, when it is below COUNT and valid. -/
def State.tableOf (s : State) (r i : Nat) : Option (List Byte) :=
  if i < s.cfg (Reg.LDG_TBL_DIR_CFG r) Fld.LDG_TBL_DIR_CFG_COUNT then
    let b := s.gread (s.entryAddr r i) 64
    if s.entryValid b then some b else none
  else none

/-- R236. The position p of a row index. -/
def rowMix (w seed x : Nat) : Nat :=
  let m := 2 ^ w
  let h := (w + 1) / 2
  let p := (x ^^^ seed) % m
  let p := (p * 0x9FB21C651E98DF25) % m
  let p := p ^^^ (p / 2 ^ h)
  let p := (p * 0xD1B54A32D192ED03) % m
  p ^^^ (p / 2 ^ h)

/-- Bytes of a bucket (R236). -/
def TblEntry.bucketBytes (e : TblEntry) : Nat := max 4096 (2 ^ (e.w - e.shard) * e.stride)

/-- R236. The address of the shard-map entry of a row index. -/
def TblEntry.mapAddr (e : TblEntry) (x : Nat) : Nat := (e.map + 4 * (rowMix e.w e.seed x / 2 ^ (e.w - e.shard))) % 2 ^ 64

/-- R236, R237. The owner chip, slot and local row of a row index. -/
def State.placeRow (s : State) (e : TblEntry) (x : Nat) : Nat × Nat × Nat :=
  let p := rowMix e.w e.seed x
  let m := leNat (s.gread (e.mapAddr x) 4)
  (m % 65536, m / 65536, p % 2 ^ (e.w - e.shard))

/-- R236. The address of a local row of a slot on this module, in 64-bit arithmetic. -/
def TblEntry.rowAddr (e : TblEntry) (slot local_ : Nat) : Nat := (e.base + slot * e.bucketBytes + local_ * e.stride) % 2 ^ 64

/-- R238. The block identifier of the page of an address of the table. -/
def TblEntry.blockId (e : TblEntry) (addr : Nat) : Nat := (e.salt + (addr - e.base) / 4096) % 65536

/-! ### GATHER operands (R241-R243) -/

structure GatherP where
  region : Nat
  pool : Nat
  outFmt : Nat
  table : Nat
  ver : Nat
  bags : Nat
  pitch : Nat
  idx : Nat
  ofs : Nat
  out : Nat
  deriving DecidableEq, Repr

def gatherP (b : List Byte) : GatherP where
  region := leAt b 24 1
  pool := leAt b 25 1
  outFmt := leAt b 26 1
  table := leAt b 28 2
  ver := leAt b 30 1
  bags := leAt b 32 4
  pitch := leAt b 36 4
  idx := leAt b 40 8
  ofs := leAt b 48 8
  out := leAt b 56 8

/-- Bytes of an output row. -/
def GatherP.rowBytes (g : GatherP) (e : TblEntry) : Nat := if g.outFmt = 0 then e.payload else elemBytes g.outFmt e.d

/-- The offsets of the bags (R242), from the bytes of the offset array. -/
def gatherOfs (g : GatherP) (d : List Byte) : List Nat :=
  if g.pool = 0 then List.range (g.bags + 1) else (chunksOf 4 (g.bags + 1) d).map leNat

/-- R242. Bytes of the offset array, and the address of the weights. -/
def GatherP.ofsLen (g : GatherP) : Nat := if g.pool = 0 then 0 else 4 * (g.bags + 1)
def GatherP.weights (g : GatherP) : Nat := g.ofs + (4 * (g.bags + 1) + 63) / 64 * 64

/-- R243. The offsets start at 0, do not fall, and no bag or list is too long. -/
def ofsGood (pool : Nat) (o : List Nat) : Bool :=
  o.headD 1 == 0 && (List.zip o o.tail).all (fun p => p.1 ≤ p.2 && p.2 - p.1 ≤ 65536) && (pool == 0 || o.getLastD 0 ≤ 2 ^ 24)

/-- The block and offset in staging SRAM that a global address names by its bits, on any module (R42). -/
def stagingOf (addr : Nat) : Option (Nat × Nat) :=
  let off := addr % 2 ^ 48
  if 0x020000000000 ≤ off && off < 0x020200000000 then
    some ((off - 0x020000000000) / 0x8000000, (off - 0x020000000000) % 0x8000000)
  else none

/-- The bytes from the first to the last output row. -/
def GatherP.outLen (g : GatherP) (e : TblEntry) : Nat := (g.bags - 1) * g.pitch + g.rowBytes e

/-- R243, R241. What completes a GATHER with BAD_OPERAND from its operands alone, but for REGION. -/
def gatherBad (b : List Byte) : Bool :=
  let g := gatherP b
  g.pool > 4 || !(([2, 3, 5, 6].contains g.outFmt) || (g.pool == 0 && g.outFmt == 0)) || g.bags == 0 || g.bags > 2 ^ 20 || g.pitch % 64 != 0 ||
    g.idx % 8 != 0 || (g.pool != 0 && g.ofs % 64 != 0) || g.out % 64 != 0 || (stagingOf g.out).isNone ||
    !zeroBytes b 27 27 || !zeroBytes b 31 31 || (g.pool == 0 && g.ofs != 0)

/-- R243. What completes it once the engine has read the directory entry. -/
def GatherP.entryBad (g : GatherP) (e : TblEntry) : Bool :=
  e.version != g.ver || g.pitch < g.rowBytes e || (match stagingOf g.out with | some (_, o) => o + g.outLen e > 0x6000000 | none => true)

/-! ### Pooling (R246-R249) -/

/-- The elements of a row's payload, widened to binary32 (R246, R127). -/
def rowElems (e : TblEntry) (d : List Byte) : List FVal :=
  (List.range e.d).map (fun i =>
    let w := if e.fmt = 1 then bitsOf (leAt d (i / 2) 1) (i % 2 * 4 + 3) (i % 2 * 4)
      else leAt d (i * (elemBits e.fmt / 8)) (elemBits e.fmt / 8)
    let v := elemVal e.fmt w
    if blockScaled e.fmt then (scaled (leAt d (elemBytes e.fmt e.d + i / 32) 1) v).round fA32 else v)

/-- One level of a tree in which leaves may be absent (R139, R247). -/
def optLevel : List (Option FVal) → List (Option FVal)
  | some x :: some y :: t => some (fadd fA32 x y) :: optLevel t
  | some x :: none :: t => some x :: optLevel t
  | none :: y :: t => y :: optLevel t
  | l => l

/-- R247. The pairwise sum over positions, absent ones included. -/
def optSum : Nat → List (Option FVal) → Option FVal
  | 0, l => l.headD none
  | d + 1, l => optSum d (optLevel l)

def pairSum (l : List (Option FVal)) : FVal := (optSum (Nat.log2 (2 * l.length) + 1) l).getD (.fin false 0 0)

/-- R246. The largest of present elements. -/
def maxPool (vs : List FVal) : FVal :=
  if vs.any FVal.isNan then .nan
  else
    let m := vs.foldl (fun a v => if FVal.lt a v then v else a) (vs.headD (.fin false 0 0))
    if m.isZero && vs.any (fun v => v.isZero && !v.isNeg) then .fin false 0 0 else m

/-- R246, R248, R249. The output row of a bag. -/
def poolBag (g : GatherP) (e : TblEntry) (weights : List Nat) (bag : List GPos) : List Byte :=
  let present := bag.filter (·.st == 3)
  if present.isEmpty then List.replicate (g.rowBytes e) 0#8
  else if g.pool = 0 && g.outFmt = 0 then ((present.headD { idx := 0, st := 0 }).data).take (g.rowBytes e)
  else
    let rows : List (Option (List FVal)) := bag.map (fun p => if p.st == 3 then some (rowElems e p.data) else none)
    let pooled := (List.range e.d).map (fun j =>
      let col := rows.map (fun r => r.map (fun l => l.getD j .nan))
      match g.pool with
      | 0 => (col.findSome? id).getD .nan
      | 1 => pairSum col
      | 2 => fdiv fA32 (pairSum col) (.fin false present.length 0)
      | 3 => maxPool (col.filterMap id)
      | _ => pairSum (List.zipWith (fun (o : Option FVal) w => o.map (fun v => fmul fA32 (ofF32 w) v)) col weights))
    packElems g.outFmt (pooled.map (fun v => (convElem g.outFmt v).1))

/-! ### The running GATHER -/

/-- Change a running GATHER. -/
def State.updGather (s : State) (n seq : Nat) (f : GatherRun → GatherRun) : State :=
  { s with gathers := updFirst (fun g => g.ring == n && g.seq == seq) f s.gathers }

def State.findGather (s : State) (n seq : Nat) : Option GatherRun := s.gathers.find? (fun g => g.ring == n && g.seq == seq)

/-- A GATHER ends: it leaves the engine with its outcome. -/
def State.endGather (s : State) (n seq : Nat) (d : Done) : State :=
  State.setDone { s with gathers := dropFirst (fun g => g.ring == n && g.seq == seq) s.gathers } n seq d

/-- The body of a row request: TABLE_ID, MAP_VERSION, slot, local row (R251; the layout is assumption 12). -/
def rowReqBody (table mapVer slot local_ : Nat) : List Byte :=
  leBytes 2 table ++ leBytes 2 0 ++ leBytes 4 mapVer ++ leBytes 4 slot ++ leBytes 8 local_

/-- The context of a report about a GATHER. -/
def gatherCtx (n region : Nat) (b : List Byte) : Ctx := { ctxOf n b (0x40 + region) 0x13 with region := some region }

/-- The failure of a GATHER, and its refusal. -/
def gatherFail (region cls : Nat) : Done := { status := stFAULTED, cls := cls, die := 0x40 + region, unit := 0x13 }
def gatherRejects (region : Nat) : Done := { status := stBAD_OPERAND, die := 0x40 + region, unit := 0x13 }

/-- A GATHER runs. -/
def State.addGather (s : State) (g : GatherRun) : State := { s with gathers := s.gathers ++ [g] }

/-- R251. The row request of a position goes to its owner under a new tag. -/
def State.sendRow (s : State) (g : GatherRun) (b : List Byte) (q : GPos) : State × GPos :=
  let e := tblEntry g.entry
  let (t, s1) := s.newTag
  let k : Packet := { dst := q.chip, src := 0, kind := 0x10, gen := s.gen (0x10 + 4 * g.region), layer := dLAYER b, op := dOP b, tag := t,
                      body := rowReqBody (gatherP b).table e.mapVer q.slot (rowMix e.w e.seed q.idx % 2 ^ (e.w - e.shard)), vc := 3 }
  (s1.send g.region k, { q with tag := t, since := s.clk.now })

/-- Issue one position: the engine reads the shard-map entry (R221, R411; while its page is pending the position waits); a read of a row of
this module then waits for its ROW_REPLY; a row elsewhere is requested on VC3 (R251). A failure is answered with its class: for a missing
route ADDR_UNMAPPED is reported with the row's address as this module's directory entry gives it (R255, assumption 34). -/
def State.issueRow (s : State) (g : GatherRun) (b : List Byte) (p : GPos) : State × GPos × Option Nat :=
  let e := tblEntry g.entry
  let c := gatherCtx g.ring g.region b
  if s.pendingIn (e.mapAddr p.idx) 4 then (s, p, none)
  else match s.awareCheck c (e.mapAddr p.idx) 4 none none with
    | (s1, some cls) => (s1, p, some cls)
    | (s1, none) =>
      let pl := s1.placeRow e p.idx
      let q : GPos := { p with st := 2, addr := e.rowAddr pl.2.1 pl.2.2, since := s1.clk.now }
      if s1.ownAddr (pl.1 * 2 ^ 48) then (s1, q, none)
      else if s1.hasRoute g.region pl.1 then
        let r := (s1.evCount (0x40 + g.region) 0x41 1 (dLAYER b) (dOP b)).sendRow g b { q with chip := pl.1, slot := pl.2.1 }
        (r.1, r.2, none)
      else (s1.unmapped (pl.1 * 2 ^ 48 + q.addr % 2 ^ 48) c, p, some 0x14)

/-- Positions of a bag, issued in order while there is room, by a function that issues one; the first failure stops it. -/
def issueList (f : State → GPos → State × GPos × Option Nat) (s : State) : Nat → List GPos → State × List GPos × Nat × Option Nat
  | room, [] => (s, [], room, none)
  | room, p :: t =>
    if p.st = 1 && 0 < room then
      match f s p with
      | (s1, _, some cls) => (s1, p :: t, room, some cls)
      | (s1, q, none) =>
        let x := issueList f s1 (if q.st = 2 then room - 1 else room) t
        (x.1, q :: x.2.1, x.2.2)
    else
      let x := issueList f s room t
      (x.1, p :: x.2.1, x.2.2)

/-- Issue positions of a bag while the engine has room (R258). -/
def State.issueBag (s : State) (g : GatherRun) (b : List Byte) (room : Nat) (l : List GPos) : State × List GPos × Nat × Option Nat :=
  issueList (fun s p => s.issueRow g b p) s room l

/-- Issue every position of a GATHER that the engine has room for, up to the first failure. -/
def State.issueBags (s : State) (g : GatherRun) (b : List Byte) : Nat → List (List GPos) → State × List (List GPos) × Option Nat
  | _, [] => (s, [], none)
  | room, x :: t =>
    match s.issueBag g b room x with
    | (s1, y, _, some cls) => (s1, y :: t, some cls)
    | (s1, y, room', none) =>
      let q := State.issueBags s1 g b room' t
      (q.1, y :: q.2.1, q.2.2)

/-- R247, R258. Rows of a bag that have arrived and whose neighbour in the sum has not (assumption 34). -/
def unpooled : List GPos → Nat
  | p :: q :: t => (if p.st = 3 && (q.st = 1 || q.st = 2) || q.st = 3 && (p.st = 1 || p.st = 2) then 1 else 0) + unpooled t
  | _ => 0

/-- R258. Bytes of the rows of Ledger die r that have arrived and are not pooled, and of those outstanding, which arrive next. -/
def State.rowBytesHeld (s : State) (r : Nat) : Nat :=
  ((s.gathers.filter (·.region == r)).map (fun g => (tblEntry g.entry).payload *
    (g.bags.map (fun b => unpooled b + (b.filter (·.st == 2)).length)).sum)).sum

/-- R258. How many more rows of a table's payload the engine of die r may issue. -/
def State.rowRoom (s : State) (r : Nat) (e : TblEntry) : Nat := min (8192 - s.outstanding r) ((2 ^ 21 - s.rowBytesHeld r) / max 1 e.payload)

/-- R251, R255, R258. -/
def State.issueGather (s : State) (g : GatherRun) (b : List Byte) : State :=
  match s.issueBags g b (s.rowRoom g.region (tblEntry g.entry)) g.bags with
  | (s1, _, some cls) => s1.endGather g.ring g.seq (gatherFail g.region cls)
  | (s1, bags, none) => s1.updGather g.ring g.seq (fun x => { x with bags := bags })

/-- R258. Once rows have drained, every GATHER of the engine issues what there is room for. -/
def State.issueAll (s : State) (r : Nat) : State :=
  (s.gathers.filter (·.region == r)).foldl (fun s g => match s.findGather g.ring g.seq, s.findStarted g.ring g.seq with
    | some x, some d => s.issueGather x d.bytes
    | _, _ => s) s

/-- A bag whose positions have all arrived or are absent. -/
def bagReady (b : List GPos) : Bool := b.all (fun p => p.st == 0 || p.st == 3)

/-- R249, R413, R414. One output row goes to the target block: written there with tags, or sent to its module. -/
def State.writeRow (s : State) (g : GatherRun) (b : List Byte) (addr : Nat) (d : List Byte) : State × Option Nat :=
  let c := gatherCtx g.ring g.region b
  match s.gloc addr with
  | .remote chip off =>
    (s.send g.region
      { dst := chip, src := 0, kind := 0x16, gen := s.gen (0x10 + 4 * g.region), addr := off, layer := dLAYER b, op := dOP b, tag := g.openTag,
        body := leBytes 1 (gatherP b).outFmt ++ leBytes 1 (dSTEP b) ++ d, vc := 3 }, none)
  | _ => s.awareWrites c (gatherP b).outFmt (dSTEP b) defaultId [(addr, d)]

/-- R249. At its end a GATHER seals each page that it wrote whole. -/
def State.sealRows (s : State) (b : List Byte) : State :=
  let g := gatherP b
  match s.tableOf g.region g.table with
  | none => s
  | some eb =>
    let e := tblEntry eb
    let rows := (List.range g.bags).filterMap (fun i => (s.placeOf (g.out + i * g.pitch)).map (fun a => (a, g.rowBytes e)))
    let cover := joinRanges rows
    (dedup (cover.flatMap (fun r => pagesOf r.1 r.2))).foldl (fun s p =>
      if coversPage cover p then s.sealPage p g.outFmt (dSTEP b) (defaultId p) else s) s

/-- Write the output rows of bags that are ready, once the target has accepted the range; the last one completes the
descriptor (R249, R256). -/
def State.advanceGather (s : State) (n seq : Nat) : State :=
  match s.findGather n seq, s.findStarted n seq with
  | some g, some d =>
    if !g.opened then s
    else
      let p := gatherP d.bytes
      let e := tblEntry g.entry
      let ofs := (g.bags.foldl (fun (a : List Nat × Nat) b => (a.1 ++ [a.2], a.2 + b.length)) ([], 0)).1
      let todo := (List.range g.bags.length).filter (fun i => !g.written.contains i && bagReady (g.bags.getD i []))
      let r := foldChecks s (fun s i =>
        s.writeRow g d.bytes (p.out + i * p.pitch) (poolBag p e ((g.weights.drop (ofs.getD i 0)).take (g.bags.getD i []).length) (g.bags.getD i []))) todo
      match r.2 with
      | some cls => r.1.endGather n seq (gatherFail g.region cls)
      | none =>
        let s1 := r.1.updGather n seq (fun x => { x with written := x.written ++ todo })
        if g.written.length + todo.length = g.bags.length then
          let rows := (g.bags.map (fun b => (b.filter (·.st == 3)).length)).sum
          (s1.sealRows d.bytes).endGather n seq
            { status := stSUCCESS, result := min rows (2 ^ 32 - 1) * 2 ^ 32 + min g.badIdx (2 ^ 32 - 1), die := 0x40 + g.region, unit := 0x13 }
        else s1
  | _, _ => s

/-- Positions of the index list from their indices (R244, R245). -/
def mkPos (w idx : Nat) : GPos :=
  if idx = 2 ^ 64 - 1 || idx ≥ 2 ^ w then { idx := idx, st := 0 } else { idx := idx, st := 1 }

/-- Cut a list at the offsets of the bags. -/
def cutBags {α : Type} (ofs : List Nat) (l : List α) : List (List α) :=
  (List.zip ofs ofs.tail).map (fun p => (l.drop p.1).take (p.2 - p.1))

/-- The body of an OPEN message: the bytes of the range, its rows, and the region of the engine, which the answer repeats (R257; the layout
is assumption 12). -/
def openBody (len rows region : Nat) : List Byte := leBytes 8 len ++ leBytes 4 rows ++ leBytes 1 region

/-- R245, R251, R257. The lists of a GATHER have been read: an index outside the table is reported, OPEN leaves for the target of the
output, and rows are issued. -/
def State.openGather (s : State) (d : Started) (p : GatherP) (eb : List Byte) (os idxs wts : List Nat) : State :=
  let b := d.bytes
  let e := tblEntry eb
  let c := gatherCtx d.ring p.region b
  let out := idxs.filter (fun i => i != 2 ^ 64 - 1 && i ≥ 2 ^ e.w)
  let s1 := if out.isEmpty then s else s.unmapped (out.headD 0) c
  let q := s1.newTag
  let g : GatherRun := { ring := d.ring, seq := d.seq, region := p.region, entry := eb, bags := cutBags os (idxs.map (mkPos e.w)),
                         weights := wts, openTag := q.1, badIdx := out.length }
  let s2 := (q.2.addGather g).updStarted d.ring d.seq (fun x => { x with begun := true })
  let chip := if s.ownAddr p.out then 0xFFFF else p.out / 2 ^ 48
  if chip != 0xFFFF && !s2.hasRoute p.region chip then (s2.unmapped p.out c).endGather d.ring d.seq (gatherFail p.region 0x14)
  else
    (s2.send p.region
      { dst := chip, src := 0, kind := 0x13, gen := s.gen (0x10 + 4 * p.region), addr := p.out % 2 ^ 48,
        layer := dLAYER b, op := dOP b, tag := q.1, body := openBody (p.outLen e) p.bags p.region, vc := 3 }).issueGather g b

/-- R242, R243. The directory entry of a GATHER has been read: its lists are read and judged. `ofs`, `idx` and `wts` are what reads of lists
in another module return; `wait` is the state where a page is pending. -/
def State.readLists (s wait : State) (d : Started) (p : GatherP) (eb ofs idx wts : List Byte) : State :=
  let c := gatherCtx d.ring p.region d.bytes
  let who := masterOf (0x40 + p.region) (originOfDesc d.ring d.seq d.bytes)
  let x := s.extRead who true p.ofs p.ofsLen ofs
  let os := gatherOfs p x.2
  let cnt := os.getLastD 0
  let wLen := if p.pool = 4 then 4 * cnt else 0
  if p.entryBad (tblEntry eb) || !ofsGood p.pool os then x.1.setDone d.ring d.seq (gatherRejects p.region)
  else if x.1.pendingIn p.idx (8 * cnt) || x.1.pendingIn p.weights wLen then wait
  else
    let q := x.1.awareChecks c [(p.idx, 8 * cnt), (p.weights, wLen)]
    match q.2 with
    | some cls => q.1.setDone d.ring d.seq (gatherFail p.region cls)
    | none =>
      let y := q.1.extRead who true p.idx (8 * cnt) idx
      let w := y.1.extRead who true p.weights wLen wts
      w.1.openGather d p eb os ((chunksOf 8 cnt y.2).map leNat) (if p.pool = 4 then (chunksOf 4 cnt w.2).map leNat else [])

/-- R243. A GATHER begins with its directory entry and the offset array; it waits while a page that it reads is pending. -/
def beginGather (s : State) (d : Started) (ofs idx wts : List Byte) : State :=
  let p := gatherP d.bytes
  let dir := s.entryAddr p.region p.table
  if s.pendingIn dir 64 || s.pendingIn p.ofs p.ofsLen then s
  else
    let q := s.awareChecks (gatherCtx d.ring p.region d.bytes) [(dir, 64), (p.ofs, p.ofsLen)]
    match q.2 with
    | some cls => q.1.setDone d.ring d.seq (gatherFail p.region cls)
    | none => match q.1.tableOf p.region p.table with
      | none => q.1.setDone d.ring d.seq (gatherRejects p.region)
      | some eb => q.1.readLists s d p eb ofs idx wts

/-- R240. GATHER of a started descriptor; of one that has begun, it issues the rows that there is room for now (R258). -/
def execGather (n seq : Nat) (ofs idx wts : List Byte) (ecc : EccFinds) (z : State) : Host.Outcome State Fault Refusal :=
  let s := z.eccAll ecc
  .next (match s.findStarted n seq with
    | some d =>
      if dOPCODE d.bytes = 0x2001 && d.done.isNone then
        (if d.begun then (match s.findGather n seq with | some g => s.issueGather g d.bytes | none => s) else beginGather s d ofs idx wts)
      else s
    | none => s)

/-- R330. Take a delivered packet, the oldest of its (SRC, DST, VC). -/
def State.take (s : State) (k : Packet) : Option State :=
  if s.fab.delivered.find? (·.sameFlow k) == some k then some { s with fab := { s.fab with delivered := dropFirst (· == k) s.fab.delivered } }
  else none

/-- A unit of region r answers a request on its channel. -/
def State.answer (s : State) (r : Nat) (k : Packet) (kind err : Nat) (body : List Byte) : State :=
  s.send r { dst := k.src, src := 0, kind := kind, gen := k.gen, addr := k.addr, layer := k.layer, op := k.op, tag := k.tag, err := err,
             body := body, vc := k.vc }

/-- R257. The target checks an output range: in the populated staging SRAM of one mapped block and outside its Tiler area. -/
def State.openOk (s : State) (addr len : Nat) : Bool :=
  match stagingOf addr with
  | none => false
  | some (b, o) => o + len ≤ 0x6000000 && s.cfg Reg.ARR_TILER_CFG Fld.ARR_TILER_CFG_TILER_MIB * 2 ^ 20 ≤ o && s.blockUp b

/-- R249. An accepted range is noted, for the pages that its rows will cover; a range of an older OPEN with its TAG is over. -/
def State.noteOpen (s : State) (k : Packet) : State :=
  { s with rowsIn := s.rowsIn.filter (fun x => !(x.src == k.src && x.tag == k.tag)) ++ [{ src := k.src, tag := k.tag }] }

/-- R257, R118. GATHER_OPEN: an OPEN message at its target, or the target's answer at the engine that sent it. An answer of an earlier GEN
is dropped and counted. -/
def execGatherOpen (pkt : Packet) (s : State) : Host.Outcome State Fault Refusal :=
  .next (match s.take pkt with
    | none => s
    | some s1 =>
      if pkt.kind = 0x13 then
        let r := match stagingOf pkt.addr with | some (b, _) => b / 8 | none => 0
        let ok := s1.openOk pkt.addr (leAt pkt.body 0 8)
        (if ok then s1.noteOpen pkt else s1).answer r pkt (if ok then 0x14 else 0x15) 0 (leBytes 1 (leAt pkt.body 12 1))
      else
        let f := 0x10 + 4 * (leAt pkt.body 0 1 % 8)
        match s1.gathers.find? (fun g => g.openTag == pkt.tag && !g.opened) with
        | none => if pkt.gen != s1.gen f then s1.dropStale f else s1
        | some g =>
          if pkt.kind = 0x14 then ((s1.updGather g.ring g.seq (fun x => { x with opened := true })).advanceGather g.ring g.seq).issueAll g.region
          else if pkt.kind = 0x15 then
            (s1.endGather g.ring g.seq { status := stBAD_OPERAND, die := 0x40 + g.region, unit := 0x13 }).issueAll g.region
          else s1)

/-- R253-R255, R221. A row of this module is read: its page's tag, then its bursts. A tag check that fails is made once more, and when it
fails again it is reported with the row's address; a row at no mapped place is no row of zeros. The answer is the class of a failure. -/
def State.readRow (s : State) (c : Ctx) (e : TblEntry) (addr : Nat) : State × Option Nat :=
  match s.placeOf addr with
  | none => (s.unmapped addr c, some 0x14)
  | some a =>
    let page := a / 4096
    let bid := some (e.blockId addr)
    match s.tagReadPage c page false (some e.fmt) bid (a % 4096) with
    | (s1, none) => s1.poisonCheck c addr e.payload
    | x => x

/-- R252. The owner refuses a row; the body holds its MAP_VERSION and the class of a failed read (assumption 12). -/
def State.refuseRow (s : State) (r : Nat) (k : Packet) (ver cls : Nat) : State :=
  s.answer r k 0x12 0 (leBytes 4 ver ++ leBytes 1 cls)

/-- R252. The requested row of an entry is read and answered; `wait` is the state where its page is pending. -/
def State.giveRow (s wait : State) (r : Nat) (k : Packet) (c : Ctx) (e : TblEntry) : State :=
  let slot := leAt k.body 8 4
  let st := s.fnState (0x10 + 4 * r)
  let addr := e.rowAddr slot (leAt k.body 12 8)
  if !(e.mapVer = leAt k.body 4 4 && slot < e.slots && (st = fnRUN || st = fnDRAIN || st = fnSTOPPED)) then s.refuseRow r k e.mapVer 0
  else if s.pendingIn addr e.payload then wait
  else
    let q := s.readRow c e addr
    match q.2 with
    | some cls => q.1.refuseRow r k e.mapVer cls
    | none => (q.1.evCount (0x40 + r) 0x42 1 k.layer k.op).answer r k 0x11 0 (q.1.gread addr e.payload)

/-- R252. A row request at its owner: the directory entry is read, and the row with it. -/
def State.serveRow (s wait : State) (r : Nat) (k : Packet) : State :=
  let table := leAt k.body 0 2
  let dir := s.entryAddr r table
  let c : Ctx := { die := 0x40 + r, unit := 0x13, region := some r, layer := k.layer, op := k.op }
  if !(table < s.cfg (Reg.LDG_TBL_DIR_CFG r) Fld.LDG_TBL_DIR_CFG_COUNT) then s.refuseRow r k 0 0
  else if s.pendingIn dir 64 then wait
  else
    let q := s.awareCheck c dir 64 none none
    match q.2 with
    | some cls => q.1.refuseRow r k 0 cls
    | none => match q.1.tableOf r table with
      | none => q.1.refuseRow r k 0 0
      | some eb => q.1.giveRow wait r k c (tblEntry eb)

/-- R252. ROW_REQUEST at the owner: served by the Ledger die whose link die received it, through the Gather engine function of that die, or
refused. -/
def execRowRequest (r : Nat) (pkt : Packet) (ecc : EccFinds) (z : State) : Host.Outcome State Fault Refusal :=
  let s := z.eccAll ecc
  .next (if pkt.kind = 0x10 && pkt.port < 48 && pkt.port / 6 = r then
      (match s.take pkt with
        | none => s
        | some s1 => s1.serveRow s r pkt)
    else s)

/-- A row has arrived for a position. -/
def State.rowArrived (s : State) (g : GatherRun) (p : GPos → Bool) (d : List Byte) : State :=
  s.updGather g.ring g.seq (fun x => { x with bags := x.bags.map (fun b => b.map (fun q => if q.st == 2 && p q then { q with st := 3, data := d } else q)) })

/-- The position at a place of the list. -/
def posAt (g : GatherRun) (pos : Nat) : Option GPos := g.bags.flatten[pos]?

/-- Mark the position at a place of the list as arrived. -/
def State.rowArrivedAt (s : State) (g : GatherRun) (pos : Nat) (d : List Byte) : State :=
  let f := g.bags.flatten
  let f' := match f[pos]? with | some q => listSet f pos { q with st := 3, data := d } | none => f
  let ofs := (g.bags.foldl (fun (a : List Nat) b => a ++ [a.getLastD 0 + b.length]) [0])
  s.updGather g.ring g.seq (fun x => { x with bags := cutBags ofs f' })

/-- After a row has arrived, ready bags are written and more rows issued, for every GATHER of the engine (R258). -/
def State.afterRow (s : State) (n seq region : Nat) : State := (s.advanceGather n seq).issueAll region

/-- A position of a GATHER waits for the reply to a row request under a tag. -/
def waitsTag (tag : Nat) (g : GatherRun) : Bool := g.bags.any (fun b => b.any (fun q => q.st == 2 && q.tag == tag && q.chip != 0xFFFF))

/-- R118, R465. A row or a refusal under a tag that no position waits for any longer is dropped, and counted as stale at the Gather engine
of the region that it reached (assumption 119). -/
def State.dropRowReply (s : State) (k : Packet) : State :=
  if (k.kind == 0x11 || k.kind == 0x12) && !s.gathers.any (waitsTag k.tag) then
    (match s.take k with
    | some s1 => s1.dropStale (0x10 + 4 * (if k.port < 48 then k.port / 6 else 0))
    | none => s)
  else s

/-- R254. ROW_REPLY: a row of this module at place `pos` of the list is read, or a packet brings a row or a refusal of the
owner. -/
def execRowReply (n seq pos : Nat) (pkt : Option Packet) (ecc : EccFinds) (z : State) : Host.Outcome State Fault Refusal :=
  let s := z.eccAll ecc
  .next (match s.findGather n seq, s.findStarted n seq with
    | some g, some d =>
      let e := tblEntry g.entry
      let c := gatherCtx n g.region d.bytes
      let fail (s : State) (cls : Nat) : State := (s.endGather n seq (gatherFail g.region cls)).issueAll g.region
      match pkt with
      | none => match posAt g pos with
        | none => s
        | some q =>
          if q.st != 2 || q.chip != 0xFFFF || s.pendingIn q.addr e.payload then s
          else match s.readRow c e q.addr with
            | (s1, some cls) => fail s1 cls
            | (s1, none) =>
              ((s1.evCount (0x40 + g.region) 0x40 1 (dLAYER d.bytes) (dOP d.bytes)).rowArrivedAt g pos (s1.gread q.addr e.payload)).afterRow n seq g.region
      | some k =>
        if !(waitsTag k.tag g) then s.dropRowReply k
        else match s.take k with
          | none => s
          | some s0 =>
            if k.gen != d.gen then s0.dropStale (0x10 + 4 * g.region) else
            let s1 := s0.answeredTimed k.tag
            if k.kind = 0x11 then (s1.rowArrived g (fun q => q.tag == k.tag && q.chip != 0xFFFF) k.body).afterRow n seq g.region
            else if k.kind = 0x12 then
              if leAt k.body 4 1 = 0 then
                (s1.endGather n seq { status := stREFUSED, result := leAt k.body 0 4, die := 0x40 + g.region, unit := 0x13, port := k.port }).issueAll g.region
              else fail s1 (leAt k.body 4 1)
            else s1
    | _, _ => match pkt with | some k => s.dropRowReply k | none => s)

/-! ### A GATHER that is stopped (R259) -/

/-- R259. The output rows of a stopped GATHER that it had not written are indeterminate: free values, once it may write at all (R257). -/
def State.looseRows (s : State) (g : GatherRun) (b : List Byte) : State :=
  let p := gatherP b
  let n := p.rowBytes (tblEntry g.entry)
  if g.opened && s.ownAddr p.out then
    ((List.range g.bags.length).filter (fun i => !g.written.contains i)).foldl (fun s i =>
      ((s.drew n).writeRow g b (p.out + i * p.pitch) (freeBytes s n)).1) s
  else s

/-- R259. The Gather engine leaves a descriptor. -/
def State.stopGather (s : State) (d : Started) : State :=
  match s.findGather d.ring d.seq with
  | some g => let s1 := s.looseRows g d.bytes
              { s1 with gathers := dropFirst (fun g => g.ring == d.ring && g.seq == d.seq) s1.gathers }
  | none => s

/-- R302. The Update engine, or the vector engine in its place, leaves a descriptor. -/
def State.stopUpdate (s : State) (d : Started) : State :=
  let r := (d.fn - 0x11) / 4
  match tblGet (fun _ => none) s.upd r with
  | some u =>
    if u.ring = d.ring && u.seq = d.seq then
      ((({ s with upd := tblPut (fun _ => none) s.upd r none } : State).fput (Reg.UPD_STATUS r) Fld.UPD_STATUS_VE_BUSY 0).setReg
        (Reg.UPD_RUNNING r) (Fld.UPD_RUNNING_RING.put 0#64 0xFF))
    else s
  | none => s

/-- A started descriptor is stopped at its abort point and gets its outcome. -/
def State.stopDesc (s : State) (d : Started) (done : Done) : State :=
  ((((s.stopArray d).stopGather d).stopUpdate d).endRank d.ring d.seq).setDone d.ring d.seq (reduceStop d done)

/-! ### Sealing and verifying (spec/09 R418) -/

/-- R418. What completes a TAG_SEAL or TAG_VERIFY with BAD_OPERAND, but for REGION. -/
def State.tagOpBad (s : State) (b : List Byte) : Bool :=
  let pages := leAt b 28 4
  let addr := leAt b 32 8
  let opts := leAt b 40 1
  pages == 0 || pages > 2 ^ 24 || addr % 4096 != 0 || !s.inOwnMem addr (pages * 4096) || opts / 2 != 0 ||
    (dOPCODE b == 0x2020 && opts != 0) || !zeroBytes b 41 63

/-- The pages of a TAG_SEAL or TAG_VERIFY, in order. -/
def State.tagOpPages (s : State) (b : List Byte) : List Nat :=
  (List.range (leAt b 28 4)).filterMap (fun i => (s.placeOf (leAt b 32 8 + 4096 * i)).map (· / 4096))

/-- R418. A page passes TAG_VERIFY. -/
def State.verifyPage (s : State) (fmt : Nat) (checkId : Bool) (bid page : Nat) : Bool :=
  !s.isWithdrawn page &&
    (if fmt = 0xFF then s.isOpen page || s.crcGood page else tagFmt (s.tag page) == fmt && s.crcGood page) &&
    (!checkId || tagId (s.tag page) == bid % 65536)

/-- The burst at which a page that is read whole is poisoned (R221); a WITHDRAWN page is not read. -/
def State.pagePoison (s : State) (page : Nat) : Option Nat :=
  if s.isWithdrawn page then none else ((List.range 64).map (page * 64 + ·)).find? (s.mem.poison.contains ·)

/-- R221. A tag operation meets a poisoned burst: the pages before it are done, and it fails. -/
def State.tagOpFails (s : State) (d : Started) (burst : Nat) : State :=
  (s.ueReport (burst * 64) (ctxOf d.ring d.bytes (0x40 + leAt d.bytes 24 1) 0x13)).setDone d.ring d.seq
    { status := stFAULTED, cls := 0x07, die := 0x40 + leAt d.bytes 24 1, unit := 0x13 }

/-- R418, R221. TAG_SEAL: every page gets its CRC and the descriptor's tag; WITHDRAWN pages are left and counted. -/
def tagSeal (s : State) (d : Started) : State :=
  let b := d.bytes
  let ps := s.tagOpPages b
  let ok := ps.takeWhile (fun p => (s.pagePoison p).isNone)
  let s1 := (ok.zip (List.range ok.length)).foldl (fun s p =>
    if s.isWithdrawn p.1 then s else s.sealPage p.1 (leAt b 25 1) (dSTEP b) (leAt b 26 2 + p.2)) s
  match ps.findSome? s.pagePoison with
  | some burst => s1.tagOpFails d burst
  | none => s1.setDone d.ring d.seq { status := stSUCCESS, result := ps.length * 2 ^ 32 + (ps.filter s.isWithdrawn).length,
                                      die := 0x40 + leAt b 24 1, unit := 0x13 }

/-- R418, R221. TAG_VERIFY: every page is checked, nothing is written, and a failure is reported once. -/
def tagVerify (s : State) (d : Started) : State :=
  let b := d.bytes
  let ps := s.tagOpPages b
  let bad := (ps.zip (List.range ps.length)).filter (fun p => !s.verifyPage (leAt b 25 1) (bitOf (leAt b 40 1) 0) (leAt b 26 2 + p.2) p.1)
  let s1 := match bad with
    | [] => s
    | p :: _ => (s.bump Reg.INTG_TAG_CNT Fld.INTG_TAG_CNT_MISMATCH 1).report 0x09 0 (pageCtx p.1 (ctxOf d.ring b 0 0))
  match ps.findSome? s.pagePoison with
  | some burst => s.tagOpFails d burst
  | none => s1.setDone d.ring d.seq { status := stSUCCESS, result := ps.length * 2 ^ 32 + bad.length, die := 0x40 + leAt b 24 1, unit := 0x13 }

/-- R433. A tag operation waits for its pending pages. -/
def State.tagOpReady (s : State) (d : Started) (op : Nat) : Bool :=
  dOPCODE d.bytes == op && d.done.isNone && !(s.tagOpPages d.bytes).any s.isPending

/-- R418. The TAG_SEAL command. -/
def execTagSeal (n seq : Nat) (ecc : EccFinds) (z : State) : Host.Outcome State Fault Refusal :=
  let s := z.eccAll ecc
  .next (match s.findStarted n seq with
    | some d => if s.tagOpReady d 0x2020 then tagSeal s d else s
    | none => s)

/-- R418. The TAG_VERIFY command. -/
def execTagVerify (n seq : Nat) (ecc : EccFinds) (z : State) : Host.Outcome State Fault Refusal :=
  let s := z.eccAll ecc
  .next (match s.findStarted n seq with
    | some d => if s.tagOpReady d 0x2021 then tagVerify s d else s
    | none => s)

end Sys2Proof.Machine
end

