-- ==== Sys2Proof/Machine/Update.lean ====
section
/-!
DEFINITION. The Update engines (spec/06): rule tables, the recurrence, rows and blocks, and the vector-engine fallback.
-/
namespace Sys2Proof.Machine

open Sys2Proof

/-! ### The recurrence (R268-R271) -/

abbrev fl (v : FVal) : FVal := v.round fA32
def m32 (x y : FVal) : FVal := fmul fA32 x y
def a32 (x y : FVal) : FVal := fadd fA32 x y
def s32 (x y : FVal) : FVal := fadd fA32 x y.negate

/-- Coefficient i of a slot. -/
def coef (cs : List Nat) (i : Nat) : FVal := ofF32 (cs.getD i 0)

/-- u, m1n and d of an element (R268). -/
def updUMD (cs : List Nat) (g p m1 : FVal) : FVal × FVal × FVal :=
  let u := a32 (m32 (coef cs 0) g) (m32 (coef cs 1) p)
  let m1n := a32 (m32 (coef cs 2) m1) (m32 (coef cs 3) u)
  (u, m1n, a32 (m32 (coef cs 6) m1n) (m32 (coef cs 7) u))

/-- m2n from the squared term of an element or the statistic of a row. -/
def updM2 (cs : List Nat) (m2 q : FVal) : FVal := a32 (m32 (coef cs 4) m2) (m32 (coef cs 5) q)

/-- s (R268). -/
def updS (cs : List Nat) (m2n : FVal) : FVal :=
  if (coef cs 8).isZero then .fin false 1 0
  else m32 (coef cs 8) (veRsqrt (a32 (m32 (coef cs 9) m2n) (coef cs 10)))

/-- The clamp under c13; a NaN stays NaN. -/
def updClamp (cs : List Nat) (pn : FVal) : FVal :=
  let c := (coef cs 13).abs
  if (coef cs 13).isZero then pn
  else
    let x := if FVal.lt pn c.negate then c.negate else pn
    if FVal.lt c x then c else x

/-- pn from d and s. -/
def updP (cs : List Nat) (p d sv : FVal) : FVal :=
  updClamp cs (s32 (s32 p (m32 (m32 (coef cs 11) d) sv)) (m32 (coef cs 12) p))

/-- A dense record in binary32: P, M1, M2. -/
def recOf (b : List Byte) : FVal × FVal × FVal := (ofF32 (leAt b 0 4), lBF16.ieee (leAt b 4 2), lBF16.ieee (leAt b 6 2))

/-- R271. The bytes of a dense record, or none when a value to be stored is NaN or infinite (R272). -/
def recBytes (pn m1n m2n : FVal) : Option (List Byte) :=
  let b1 := m1n.round fBF16
  let b2 := m2n.round fBF16
  if pn.isFin && b1.isFin && b2.isFin then
    some (leBytes 4 (toF32 pn) ++ leBytes 2 (lBF16.encodeAll 0x7FC0 b1) ++ leBytes 2 (lBF16.encodeAll 0x7FC0 b2))
  else none

/-- R268. The new record of a dense element under a DIAG entry. -/
def diagRecord (cs : List Nat) (g : FVal) (b : List Byte) : Option (List Byte) :=
  let r := recOf b
  let u := updUMD cs g r.1 r.2.1
  let m2n := updM2 cs r.2.2 (m32 u.1 u.1)
  recBytes (updP cs r.1 u.2.2 (updS cs m2n)) u.2.1 m2n

/-- R270-R272. The new stride of an embedding row, or none when a value to be stored is NaN or infinite. -/
def rowRecord (cs : List Nat) (e : TblEntry) (gs : List FVal) (row : List Byte) (step : Nat) : Option (List Byte) :=
  let ps := rowElems e row
  let m2 := lBF16.ieee (leAt row (e.stride - 8) 2)
  let us := List.zipWith (fun g p => updUMD cs g p (.fin false 0 0)) gs ps
  let q := m32 (veSum (us.map (fun u => m32 u.1 u.1))) (fdiv fA32 (.fin false 1 0) (.fin false e.d 0))
  let m2n := updM2 cs m2 q
  let sv := updS cs m2n
  let pns := List.zipWith (fun u p => updP cs p u.2.2 sv) us ps
  let b2 := m2n.round fBF16
  let c := convRow e.fmt false pns
  let bad := if blockScaled e.fmt then c.2.2.2 != 0 else pns.any (fun v => (convElem e.fmt v).2 == .nan || !(v.round (if e.fmt = 6 then fA32 else if e.fmt = 5 then fBF16 else if e.fmt = 3 then fF8E5 else fA32)).isFin)
  if bad || !b2.isFin then none
  else
    let pay := c.1 ++ c.2.1
    some (pay ++ (row.drop pay.length).take (e.stride - 8 - pay.length) ++ leBytes 2 (lBF16.encodeAll 0x7FC0 b2) ++ leBytes 2 0 ++ leBytes 4 step)

/-! ### The block-whitened rule (R281-R286) -/

/-- Element (i, j) of a 16 × 16 matrix in row order. -/
def mat (m : List FVal) (i j : Nat) : FVal := m.getD (16 * i + j) (.fin false 0 0)

/-- Place of G[i][j], i ≤ j, in the upper triangle (R282). -/
def triPlace (i j : Nat) : Nat := ((List.range i).map (fun r => 16 - r)).sum + (j - i)

/-- G[i][j] of a symmetric statistic. -/
def gAt (g : List FVal) (i j : Nat) : FVal := g.getD (if i ≤ j then triPlace i j else triPlace j i) (.fin false 0 0)

/-- R282. The new statistic of a block. -/
def newStat (cs : List Nat) (g u : List FVal) : List FVal :=
  (List.range 16).flatMap (fun i => (List.range (16 - i)).map (fun dj =>
    let j := i + dj
    let x := veSum ((List.range 16).map (fun k => m32 (mat u i k) (mat u j k)))
    a32 (m32 (coef cs 14) (gAt g i j)) (m32 (coef cs 5) x)))

/-- R283. One column of the factor: r[j] and l[i][j] for i > j; none when the pivot is singular. `l` holds the columns found
so far, each a full column of 16. -/
def factorCol (cs : List Nat) (gn : List FVal) (damping : FVal) (l : List (List FVal)) (j : Nat) : Option (FVal × List FVal) :=
  let lij (i k : Nat) : FVal := (l.getD k []).getD i (.fin false 0 0)
  let h := a32 (m32 (coef cs 9) (gAt gn j j)) damping
  let pv := s32 h (veSum ((List.range j).map (fun k => m32 (lij j k) (lij j k))))
  if !(FVal.lt (coef cs 15) pv) then none
  else
    let r := veRsqrt pv
    some (r, (List.range 16).map (fun i =>
      if i ≤ j then .fin false 0 0
      else m32 (s32 (m32 (coef cs 9) (gAt gn j i)) (veSum ((List.range j).map (fun k => m32 (lij i k) (lij j k))))) r))

/-- R283. The factor with its reciprocal pivots, or none. -/
def factor (cs : List Nat) (gn : List FVal) (damping : FVal) : Option (List FVal × List (List FVal)) :=
  (List.range 16).foldl (fun (acc : Option (List FVal × List (List FVal))) j => match acc with
    | none => none
    | some (r, l) => match factorCol cs gn damping l j with
      | none => none
      | some (rj, col) => some (r ++ [rj], l ++ [col])) (some ([], []))

/-- R283. Column j of w, the inverse of the factor. -/
def invCol (r : List FVal) (l : List (List FVal)) (j : Nat) : List FVal :=
  let lij (i k : Nat) : FVal := (l.getD k []).getD i (.fin false 0 0)
  (List.range (15 - j)).foldl (fun (w : List FVal) di =>
    let i := j + 1 + di
    let sum := veSum ((List.range (i - j)).map (fun d => m32 (lij i (j + d)) (w.getD (j + d) (.fin false 0 0))))
    listSet w i (m32 (r.getD i .nan).negate sum)) (listSet (List.replicate 16 (.fin false 0 0)) j (r.getD j .nan))

/-- 10^n times c10 in binary32 (R283). -/
def dampingAt (cs : List Nat) (n : Nat) : FVal := m32 (coef cs 10) (.fin false (10 ^ n) 0)

/-- R284. The first of attempts 0 to 3 that factors. -/
def attempts (cs : List Nat) (gn : List FVal) : Option (List FVal × List (List FVal)) :=
  (List.range 4).findSome? (fun n => factor cs gn (dampingAt cs n))

/-- What a block update writes: the 256 records in row order (none where left unchanged), the statistic if it changes, and
how it went: 0 whitened, 1 singular, 2 statistic not finite. -/
structure BlockOut where
  recs : List (Option (List Byte))
  stat : Option (List FVal)
  how  : Nat
  deriving DecidableEq, Repr

/-- R281-R286. The update of one block from its gradients, records and statistic. -/
def blockUpdate (cs : List Nat) (gs : List FVal) (recs : List (List Byte)) (g : List FVal) : BlockOut :=
  let rs := recs.map recOf
  let us := List.zipWith (fun g (r : FVal × FVal × FVal) => updUMD cs g r.1 r.2.1) gs rs
  let u := us.map (·.1)
  let d := us.map (·.2.2)
  let gn := newStat cs g u
  let diag := List.zipWith (diagRecord cs) gs recs
  if gn.any (fun v => !v.isFin) then { recs := diag, stat := none, how := 2 }
  else match attempts cs gn with
    | none => { recs := diag, stat := some gn, how := 1 }
    | some (r, l) =>
      let w := (List.range 16).map (invCol r l)
      let wij (i k : Nat) : FVal := if k > i then .fin false 0 0 else (w.getD k []).getD i (.fin false 0 0)
      let out := (List.range 256).map (fun x =>
        let i := x / 16
        let j := x % 16
        let sv := m32 (coef cs 8) (veSum ((List.range 16).map (fun k => m32 (wij i k) (mat d k j))))
        let rr := rs.getD x (.nan, .nan, .nan)
        let uu := us.getD x (.nan, .nan, .nan)
        let m2n := updM2 cs rr.2.2 (m32 uu.1 uu.1)
        let pn := updClamp cs (s32 (s32 rr.1 (m32 (coef cs 11) sv)) (m32 (coef cs 12) rr.1))
        recBytes pn uu.2.1 m2n)
      { recs := out, stat := some gn, how := 0 }

/-! ### Rule tables (R273-R280) -/

/-- The address of the rule table of Ledger die r. -/
def State.ruleBase (s : State) (r : Nat) : Nat := s.cfg (Reg.UPD_RULE_BASE r) Fld.UPD_RULE_BASE_BASE * 4096

def State.activeSlot (s : State) (r e : Nat) : Nat := s.ruleBase r + 0x100 + 256 * e
def State.pendingSlot (s : State) (r e : Nat) : Nat := s.ruleBase r + 0x180 + 256 * e

/-- TYPE, ENTRY_VER and EFF_STEP of a slot (R274). -/
def slotType (b : List Byte) : Nat := leAt b 64 1
def slotVer (b : List Byte) : Nat := leAt b 66 2
def slotEff (b : List Byte) : Nat := leAt b 68 4
def slotCoefs (b : List Byte) : List Nat := (List.range 16).map (fun i => leAt b (4 * i) 4)

/-- R275. The effective slot: its bytes, and whether it is the pending one. -/
def State.effSlot (s : State) (r e step : Nat) : List Byte × Bool :=
  let p := s.gread (s.pendingSlot r e) 128
  if slotType p != 0 && slotEff p ≤ step then (p, true) else (s.gread (s.activeSlot r e) 128, false)

/-- The coefficients, TYPE and ENTRY_VER that an UPDATE uses. -/
def UpdRun.coefs (u : UpdRun) : List Nat := slotCoefs u.slot
def UpdRun.type (u : UpdRun) : Nat := slotType u.slot
def UpdRun.ver (u : UpdRun) : Nat := slotVer u.slot

/-- R221. The slots of a rule entry hold a poisoned burst: the engine reads them once the descriptor runs, and fails it there. -/
def State.slotsPoisoned (s : State) (r e : Nat) : Bool := s.gpoisoned (s.activeSlot r e) 256

/-- The region of an UPDATE. -/
def updRegion (b : List Byte) : Nat := leAt b 24 1

/-- Every piece of a range lies in stacks 2r and 2r + 1 (R263). -/
def State.inStacks (s : State) (r addr n : Nat) : Bool :=
  (piecesOf addr n).all (fun p => match s.hbmOf p.1 with | some a => a / 2 ^ 36 / 2 == r | none => false)

/-- Two ranges of addresses of this module share a place. -/
def State.overlap (s : State) (x y : Nat × Nat) : Bool :=
  (piecesOf x.1 x.2).any (fun p => match s.placeOf p.1 with
    | none => false
    | some a => (piecesOf y.1 y.2).any (fun q => match s.placeOf q.1 with
      | none => false
      | some b => a < b + q.2 && b < a + p.2))

/-- Some two of a list of ranges overlap. -/
def State.anyOverlap (s : State) : List (Nat × Nat) → Bool
  | [] => false
  | x :: t => t.any (s.overlap x) || State.anyOverlap s t

/-- Bytes of a gradient element. -/
def gBytes (b : List Byte) : Nat := elemBits (leAt b 26 1) / 8

/-- R289. What completes an UPDATE_DENSE with BAD_OPERAND, but for REGION and OWNER_BLOCK. -/
def State.denseBad (s : State) (b : List Byte) : Bool :=
  let r := updRegion b
  let rows := leAt b 28 4
  let cols := leAt b 32 4
  let n := rows * cols
  let rec_ := leAt b 40 8
  let grad := leAt b 48 8
  let stat := leAt b 56 8
  let ty := if s.slotsPoisoned r (leAt b 25 1) then 1 else slotType (s.effSlot r (leAt b 25 1) (dSTEP b)).1
  let statLen := n / 256 * 576
  dPARAM b || leAt b 25 1 > 63 || !([5, 6].contains (leAt b 26 1)) || ty > 2 || (ty == 2 && (rows % 16 != 0 || cols % 16 != 0)) ||
    n == 0 || n > 2 ^ 32 - 1 || !zeroBytes b 38 39 || rec_ % 4096 != 0 || grad % 64 != 0 || stat % 4096 != 0 || (ty != 2 && stat != 0 && !s.slotsPoisoned r (leAt b 25 1)) ||
    !s.inStacks r rec_ (8 * n) || !s.inOwnMem grad (gBytes b * n) || (ty == 2 && !s.inStacks r stat statLen) ||
    s.anyOverlap ([(rec_, 8 * n), (grad, gBytes b * n)] ++ (if ty = 2 then [(stat, statLen)] else []))

/-- The index at a list position of an UPDATE_ROWS. -/
def State.updIndex (s : State) (b : List Byte) (i : Nat) : Nat := leNat (s.gread (leAt b 40 8 + 8 * i) 8)

/-- R289. A shard-map entry names this module by its chip number. -/
def State.mapsHere (s : State) (chip : Nat) : Bool := s.chip == some chip

/-- The address of the row of an index, if it lies on this module in stacks 2r and 2r + 1. -/
def State.updRowAddr (s : State) (r : Nat) (e : TblEntry) (x : Nat) : Option Nat :=
  let pl := s.placeRow e x
  let a := e.rowAddr pl.2.1 pl.2.2
  if x < 2 ^ e.w && s.mapsHere pl.1 && s.inStacks r a e.stride then some a else none

/-- R289. What completes an UPDATE_ROWS with BAD_OPERAND, but for REGION and OWNER_BLOCK. -/
def State.rowsBad (s : State) (b : List Byte) : Bool :=
  let r := updRegion b
  let n := leAt b 32 4
  let pitch := leAt b 36 4
  let ty := if s.slotsPoisoned r (leAt b 25 1) then 1 else slotType (s.effSlot r (leAt b 25 1) (dSTEP b)).1
  let idx := leAt b 40 8
  let grad := leAt b 48 8
  match s.tableOf r (leAt b 28 2) with
  | none => true
  | some eb =>
    let e := tblEntry eb
    let gLen := (n - 1) * pitch + gBytes b * e.d
    dPARAM b || leAt b 25 1 > 63 || !([5, 6].contains (leAt b 26 1)) || ty ≥ 2 || n == 0 || n > 2 ^ 24 || e.version != leAt b 30 1 ||
      e.payload + 8 > e.stride || pitch % 64 != 0 || pitch < gBytes b * e.d || idx % 8 != 0 || grad % 64 != 0 ||
      !zeroBytes b 31 31 || !zeroBytes b 56 63 || !s.inOwnMem grad gLen || !s.inOwnMem idx (8 * n) || s.overlap (idx, 8 * n) (grad, gLen) ||
      (List.range n).any (fun i =>
        let x := s.updIndex b i
        if x = 2 ^ 64 - 1 then false
        else match s.updRowAddr r e x with
          | none => true
          | some a => s.overlap (a, e.stride) (idx, 8 * n) || s.overlap (a, e.stride) (grad, gLen))

/-- R276. What completes an UPDATE with REFUSED. -/
def State.updRefused (s : State) (b : List Byte) : Bool :=
  let sl := (s.effSlot (updRegion b) (leAt b 25 1) (dSTEP b)).1
  !s.slotsPoisoned (updRegion b) (leAt b 25 1) && (slotType sl == 0 || dSTEP b < slotEff sl)

/-- R278. What completes a SETCOEF with BAD_OPERAND from its operands alone, but for REGION. -/
def State.setcoefBad (s : State) (b : List Byte) : Bool :=
  let a := leAt b 32 8
  dPARAM b || leAt b 25 1 > 63 || !([1, 2].contains (leAt b 26 1)) || !zeroBytes b 27 27 || !zeroBytes b 40 63 || a % 64 != 0 || !s.inOwnMem a 64

/-- R278. What completes it once its coefficients are read. -/
def coefsBad (ty : Nat) (cs : List Nat) : Bool :=
  cs.any (fun w => !(ofF32 w).isFin) ||
    (ty == 2 && ((coef cs 8).isZero || !(FVal.lt (.fin false 0 0) (coef cs 10)) || FVal.lt (coef cs 15) (.fin false 0 0)))

/-! ### The substitute (R295-R300) -/

/-- A block that may run fallback work: it has an active cell and power and is out of reset (R297). -/
def State.veQualifies (s : State) (b : Nat) : Bool := s.blockUp b && s.activeSet.any (fun c => c / 64 == b)

/-- R297. The block whose vector engine takes the work of an owner block. -/
def State.veBlock (s : State) (own : Nat) : Option Nat :=
  if s.fnState 0 != fnRUN then none
  else (own :: ((List.range 7).map (fun i => own / 8 * 8 + (own + 1 + i) % 8) ++ (List.range 63).map (fun i => (own + 1 + i) % 64))).find? s.veQualifies

/-- R297. The owner block of an UPDATE or SETCOEF. -/
def ownerBlock (b : List Byte) : Nat :=
  if dOPCODE b = 0x2018 then (if updRegion b = 0xFF then 0 else 8 * updRegion b) else leAt b 27 1

/-- R295. The descriptor runs on a vector engine from its start. -/
def State.needsVe (s : State) (f : Nat) (b : List Byte) : Bool :=
  let r := (f - 0x11) / 4
  s.fnState f != fnRUN || s.cfg (Reg.UPD_CFG r) Fld.UPD_CFG_FORCE_VE == 1 ||
    (dOPCODE b == 0x2011 && (match s.tableOf r (leAt b 28 2) with
      | some eb => blockScaled (tblEntry eb).fmt || (tblEntry eb).d > 1024
      | none => false))

def noUpd (_ : Nat) : Option UpdRun := none
def State.updRun (s : State) (r : Nat) : Option UpdRun := tblGet noUpd s.upd r
def State.setUpd (s : State) (r : Nat) (u : Option UpdRun) : State := { s with upd := tblPut noUpd s.upd r u }

/-- The Ledger die of an Update engine function. -/
def updDie (f : Nat) : Nat := (f - 0x11) / 4

/-- A descriptor of an Update engine function starts, on the engine or on the vector engine of a block (R300, R302). An UPDATE keeps the
effective slot that its checks judged (R275). -/
def State.startUpd (s : State) (d : Started) (ve : Option Nat) : State :=
  let r := updDie d.fn
  let sl := s.effSlot r (leAt d.bytes 25 1) (dSTEP d.bytes)
  let s1 := s.setUpd r (some { ring := d.ring, seq := d.seq, ve := ve, slot := sl.1, pend := sl.2 })
  let s2 := (s1.fput (Reg.UPD_RUNNING r) Fld.UPD_RUNNING_RING d.ring).fput (Reg.UPD_RUNNING r) Fld.UPD_RUNNING_RING_SEQ d.seq
  let s3 := s2.fput (Reg.UPD_PROGRESS r) Fld.UPD_PROGRESS_NEXT 0
  if ve.isSome then (s3.fput (Reg.UPD_STATUS r) Fld.UPD_STATUS_VE_BUSY 1).bump (Reg.UPD_STATUS r) Fld.UPD_STATUS_HANDED 1 else s3

/-- A descriptor of an Update engine function ends with its outcome; work on a vector engine names the block (R299). -/
def State.endUpd (s : State) (r : Nat) (d : Done) : State :=
  match s.updRun r with
  | none => s
  | some u =>
    let d1 := match u.ve with
      | some b => { d with flags := addFlag d.flags flFALLBACK, die := b, unit := 0x04 }
      | none => { d with die := 0x40 + r, unit := 0x14 }
    let s1 := (s.setUpd r none).fput (Reg.UPD_STATUS r) Fld.UPD_STATUS_VE_BUSY 0
    (s1.setReg (Reg.UPD_RUNNING r) (Fld.UPD_RUNNING_RING.put 0#64 0xFF)).setDone u.ring u.seq d1

/-- The unit that reads and reports for an update. -/
def updCtx (u : UpdRun) (r : Nat) (b : List Byte) : Ctx :=
  match u.ve with
  | some blk => { ctxOf u.ring b blk 0x04 with region := some r }
  | none => { ctxOf u.ring b (0x40 + r) 0x14 with region := some r }

/-- R275, R414. A pending effective slot is promoted before the first record. -/
def State.promote (s : State) (r : Nat) (u : UpdRun) (b : List Byte) : State × Option Nat :=
  let e := leAt b 25 1
  if u.pend then s.awareWrites (updCtx u r b) 0x00 (dSTEP b) defaultId [(s.activeSlot r e, u.slot), (s.pendingSlot r e + 64, [0#8])]
  else (s, none)

/-- R295. An Update engine is disabled by a fault while it runs a descriptor: the rest moves to a vector engine. -/
def State.engineFault (s : State) (d : Started) (cls : Nat) : State :=
  match (if hasSubstitute d.fn then s.updRun (updDie d.fn) else none) with
  | some u => if u.ring = d.ring && u.seq = d.seq && u.ve.isNone then s.setUpd (updDie d.fn) (some { u with fault := some cls }) else s
  | none => s

/-- R291. The RESULT of an UPDATE. -/
def updDone (u : UpdRun) : Done :=
  { status := stSUCCESS,
    result := u.ver * 2 ^ 48 + min u.singular 0xFFFF * 2 ^ 32 + min u.nonfinite (2 ^ 32 - 1) }

/-- Units of work of an UPDATE: elements, blocks or list positions (R292). -/
def updTotal (u : UpdRun) (b : List Byte) : Nat :=
  if dOPCODE b = 0x2011 then leAt b 32 4
  else if u.type = 2 then leAt b 28 4 / 16 * (leAt b 32 4 / 16) else leAt b 28 4 * leAt b 32 4

/-- The ranges that unit i of an UPDATE reads: (address, length, FMT, BLOCK_ID of its first page). -/
def State.updReads (s : State) (u : UpdRun) (b : List Byte) (i : Nat) : List (Nat × Nat × Option Nat × Option Nat) :=
  let rec_ := leAt b 40 8
  let grad := leAt b 48 8
  let salt := leAt b 36 2
  let cols := leAt b 32 4
  if dOPCODE b = 0x2011 then
    let r := updRegion b
    match s.tableOf r (leAt b 28 2) with
    | none => []
    | some eb =>
      let e := tblEntry eb
      let x := s.updIndex b i
      if x = 2 ^ 64 - 1 then [(rec_ + 8 * i, 8, none, none)]
      else match s.updRowAddr r e x with
        | none => []
        | some a => [(rec_ + 8 * i, 8, none, none), (a, e.stride, some e.fmt, some (e.blockId a)), (grad + i * leAt b 36 4, gBytes b * e.d, none, none)]
  else if u.type = 2 then
    let bx := i % (cols / 16)
    let ay := i / (cols / 16)
    (List.range 16).flatMap (fun k =>
      let el := (16 * ay + k) * cols + 16 * bx
      [(rec_ + 8 * el, 128, some 0x10, some ((salt + 8 * el / 4096) % 65536)), (grad + gBytes b * el, 16 * gBytes b, none, none)]) ++
      [(leAt b 56 8 + i * 576, 576, some 0x11, none)]
  else [(rec_ + 8 * i, 8, some 0x10, some ((salt + 8 * i / 4096) % 65536)), (grad + gBytes b * i, gBytes b, none, none)]

/-- The ranges that an UPDATE reads from end to end: records, gradients and statistics of a shard; the indices, and gradient rows without
gaps, of a list. -/
def State.updWhole (s : State) (u : UpdRun) (b : List Byte) : List (Nat × Nat) :=
  if dOPCODE b = 0x2011 then
    let d := match s.tableOf (updRegion b) (leAt b 28 2) with | some eb => (tblEntry eb).d | none => 0
    (leAt b 40 8, 8 * leAt b 32 4) :: (if leAt b 36 4 = gBytes b * d then [(leAt b 48 8, leAt b 32 4 * leAt b 36 4)] else [])
  else
    let n := leAt b 28 4 * leAt b 32 4
    [(leAt b 40 8, 8 * n), (leAt b 48 8, gBytes b * n)] ++ (if u.type = 2 then [(leAt b 56 8, n / 256 * 576)] else [])

/-- R411. The descriptor reads the page of an address whole, and this read is the one that meets its first byte. -/
def firstOfPage (rs : List (Nat × Nat)) (a : Nat) : Bool := a % 4096 == 0 && rs.any (fun r => r.1 ≤ a && a + 4096 ≤ r.1 + r.2)

/-- R293, R411. A read of an update, piece by piece, so that each page meets its own BLOCK_ID; the CRC of a page that the descriptor reads
whole is checked with its first byte. -/
def State.updCheck (s : State) (c : Ctx) (rs : List (Nat × Nat)) (x : Nat × Nat × Option Nat × Option Nat) : State × Option Nat :=
  foldChecks s (fun s p =>
    let bid := x.2.2.2.map (fun i => i + (p.1 / 4096 - x.1 / 4096))
    match s.placeOf p.1 with
    | none => (s, none)
    | some a => match s.tagReadPage c (a / 4096) (p.2 == 4096 || firstOfPage rs p.1) x.2.2.1 bid with
      | (s1, none) => s1.poisonCheck c p.1 p.2
      | r => r) (piecesOf x.1 x.2.1)

/-- The gradient elements at an address. -/
def State.gradAt (s : State) (fmt addr n : Nat) : List FVal :=
  (List.range n).map (fun i => elemVal fmt (leNat (s.gread (addr + i * (elemBits fmt / 8)) (elemBits fmt / 8))))

/-- The BLOCK_IDs of the pages that an UPDATE writes, by page of place (R413). -/
def updIds (s : State) (b : List Byte) (page : Nat) : Nat :=
  if dOPCODE b = 0x2011 then tagId (s.tag page)
  else
    let n := 8 * (leAt b 28 4 * leAt b 32 4)
    match (piecesOf (leAt b 40 8) n).find? (fun p => match s.hbmOf p.1 with | some a => a / 4096 == page | none => false) with
    | some p => (leAt b 36 2 + (p.1 - leAt b 40 8) / 4096) % 65536
    | none => defaultId page

/-- R268-R286. One unit of an UPDATE: the writes with their FMT, and the counts. -/
def State.updUnit (s : State) (u : UpdRun) (b : List Byte) (i : Nat) : List (Nat × Nat × List Byte) × UpdRun :=
  let rec_ := leAt b 40 8
  let grad := leAt b 48 8
  let fmt := leAt b 26 1
  let cols := leAt b 32 4
  if dOPCODE b = 0x2011 then
    match s.tableOf (updRegion b) (leAt b 28 2) with
    | none => ([], u)
    | some eb =>
      let e := tblEntry eb
      match s.updRowAddr (updRegion b) e (s.updIndex b i) with
      | none => ([], u)
      | some a => match rowRecord u.coefs e (s.gradAt fmt (grad + i * leAt b 36 4) e.d) (s.gread a e.stride) (dSTEP b) with
        | some d => ([(a, e.fmt, d)], u)
        | none => ([], { u with nonfinite := u.nonfinite + 1 })
  else if u.type = 2 then
    let bx := i % (cols / 16)
    let ay := i / (cols / 16)
    let els := (List.range 256).map (fun x => (16 * ay + x / 16) * cols + 16 * bx + x % 16)
    let gs := els.flatMap (fun el => s.gradAt fmt (grad + gBytes b * el) 1)
    let recs := els.map (fun el => s.gread (rec_ + 8 * el) 8)
    let sa := leAt b 56 8 + i * 576
    let o := blockUpdate u.coefs gs recs ((List.range 136).map (fun k => ofF32 (leNat (s.gread (sa + 4 * k) 4))))
    let ws := (List.zip els o.recs).filterMap (fun p => p.2.map (fun d => (rec_ + 8 * p.1, 0x10, d)))
    let st := match o.stat with
      | some g => [(sa, 0x11, g.flatMap (fun v => leBytes 4 (toF32 v)) ++ List.replicate 32 0#8)]
      | none => []
    (ws ++ st, { u with
      nonfinite := u.nonfinite + (o.recs.filter (·.isNone)).length + (if o.how = 2 then 1 else 0)
      singular := u.singular + (if o.how = 1 then 1 else 0)
      diag := u.diag || o.how != 0 })
  else match diagRecord u.coefs ((s.gradAt fmt (grad + gBytes b * i) 1).headD .nan) (s.gread (rec_ + 8 * i) 8) with
    | some d => ([(rec_ + 8 * i, 0x10, d)], u)
    | none => ([], { u with nonfinite := u.nonfinite + 1 })

/-- R293. The datapaths of the engine disagree: the record is not written, and the engine leaves RUN. -/
def State.updMismatch (s : State) (r : Nat) (u : UpdRun) (b : List Byte) : State :=
  let s1 := s.report 0x01 2 { updCtx u r b with die := 0x40 + r, unit := 0x14 }
  (s1.setUpd r (some { u with fault := some 0x01 })).enterDrain (0x11 + 4 * r)

/-- Seal each page that a range of addresses covers whole. -/
def State.sealRange (s : State) (addr n fmt step : Nat) (bid : Nat → Nat) : State :=
  let cover := joinRanges ((piecesOf addr n).filterMap (fun p => (s.hbmOf p.1).map (fun a => (a, p.2))))
  (dedup (cover.flatMap (fun r => pagesOf r.1 r.2))).foldl (fun s p => if coversPage cover p then s.sealPage p fmt step (bid p) else s) s

/-- At its end an UPDATE_DENSE seals each record page, and each statistic page, that it covers whole (R266, R293, R413). -/
def State.sealDense (s : State) (u : UpdRun) (b : List Byte) : State :=
  if dOPCODE b = 0x2011 then s
  else
    let n := leAt b 28 4 * leAt b 32 4
    let s1 := s.sealRange (leAt b 40 8) (8 * n) 0x10 (dSTEP b) (updIds s b)
    if u.type = 2 then s1.sealRange (leAt b 56 8) (n / 256 * 576) 0x11 (dSTEP b) defaultId else s1

/-- R292, R414. The pages that a unit's writes leave in part and whose old CRC fails: none of the unit is written then. -/
def State.staleParts (s : State) (ws : List (Nat × Nat × List Byte)) : List Nat :=
  dedup (((s.placed (ws.map (fun w => (w.1, w.2.2)))).flatMap (fun w => pagesOf w.1 w.2.length)).filter (fun p => !s.isOpen p && !s.crcGood p))

/-- R666. The elements of unit i of an UPDATE as events, or one block of BLOCK16: of the engine, or of the vector engines of the block
that stands in for it. -/
def State.updEvents (s : State) (r : Nat) (u : UpdRun) (b : List Byte) (i : Nat) : State :=
  let block : Bool := dOPCODE b != 0x2011 && u.type == 2
  let n := if dOPCODE b = 0x2011 then
      (match s.tableOf (updRegion b) (leAt b 28 2) with
      | some eb => (match s.updRowAddr (updRegion b) (tblEntry eb) (s.updIndex b i) with | some _ => (tblEntry eb).d | none => 0)
      | none => 0)
    else 1
  match u.ve with
  | some k => s.evCount k 0x0A n (dLAYER b) (dOP b)
  | none => s.evCount (0x40 + r) (if block then 0x44 else 0x43) n (dLAYER b) (dOP b)

/-- R292, R293. Unit i's writes, each with its tag check; a page whose old contents fail theirs stops the unit before it writes. -/
def State.updPut (s : State) (r : Nat) (b : List Byte) (u : UpdRun) (ws : List (Nat × Nat × List Byte)) : State × Option Nat :=
  let stale := s.staleParts ws
  if stale.isEmpty then foldChecks s (fun s e => s.awareWrites (updCtx u r b) e.2.1 (dSTEP b) (updIds s b) [(e.1, e.2.2)]) ws
  else (stale.foldl (fun s p => s.tagMismatch p (updCtx u r b)) s, some 0x09)

/-- Unit i is done: its events, PROGRESS and counts; v is the run after it. Blocks that take the DIAG form mark the descriptor FALLBACK,
however it ends (R284, R286). -/
def State.updDid (s : State) (r : Nat) (b : List Byte) (i : Nat) (u v : UpdRun) : State :=
  let s0 := if v.diag then s.updStarted u.ring u.seq (fun d => { d with fallback := true }) else s
  let s1 := ((s0.updEvents r u b i).setUpd r (some v)).fput (Reg.UPD_PROGRESS r) Fld.UPD_PROGRESS_NEXT (i + 1)
  let s2 := (s1.bump (Reg.UPD_STATUS r) Fld.UPD_STATUS_NONFINITE (v.nonfinite - u.nonfinite)).bump (Reg.UPD_STATUS r)
    Fld.UPD_STATUS_SINGULAR (v.singular - u.singular)
  if u.singular = 0 && v.singular != 0 then s2.report 0x0E 0 { updCtx u r b with vals := [i] } else s2

/-- Unit i of an UPDATE, where `bad` says that the datapaths disagree on it; the answer tells whether the next unit follows. -/
def State.updOne (s : State) (r : Nat) (b : List Byte) (u : UpdRun) (i : Nat) (bad : Bool) : State × Bool :=
  let q := foldChecks s (fun s x => s.updCheck (updCtx u r b) (s.updWhole u b) x) (s.updReads u b i)
  match q.2 with
  | some cls => (q.1.endUpd r { status := stFAULTED, cls := cls }, false)
  | none =>
    if bad && u.ve.isNone then (q.1.updMismatch r u b, false)
    else
      let w := q.1.updUnit u b i
      let x := q.1.updPut r b u w.1
      match x.2 with
      | some cls => (x.1.endUpd r { status := stFAULTED, cls := cls }, false)
      | none =>
        let s1 := x.1.updDid r b i u w.2
        if i + 1 = updTotal u b then ((s1.sealDense u b).endUpd r (updDone w.2), false) else (s1, true)

/-- Work through the units of an UPDATE from PROGRESS.NEXT: `count` of them, the first one at `bad` with datapaths that
disagree. -/
def State.updSteps (s : State) (r : Nat) (b : List Byte) : Nat → Option Nat → State
  | 0, _ => s
  | count + 1, bad =>
    match s.updRun r with
    | none => s
    | some u =>
      let i := s.fget (Reg.UPD_PROGRESS r) Fld.UPD_PROGRESS_NEXT
      if u.fault.isSome || i ≥ updTotal u b then s
      else if (s.updReads u b i).any (fun x => s.pendingIn x.1 x.2.1) then s
      else
        let x := s.updOne r b u i (bad = some 0)
        if x.2 then State.updSteps x.1 r b count (bad.map (· - 1)) else x.1

/-- R275. The UPDATE begins: its slots are read with tag checks, and the effective slot is promoted. -/
def State.beginUpd (s : State) (r : Nat) (u : UpdRun) (b : List Byte) : State × Option Nat :=
  let e := leAt b 25 1
  let c := updCtx u r b
  let q := s.awareChecks c ([(s.activeSlot r e, 128), (s.pendingSlot r e, 128)] ++
    (if dOPCODE b = 0x2011 then [(s.entryAddr r (leAt b 28 2), 64)] else []))
  match q.2 with
  | some cls => (q.1, some cls)
  | none => match q.1.promote r u b with
    | (s1, none) => (s1.setUpd r (some { u with begun := true }), none)
    | x => x

/-- UPDATE_DENSE and UPDATE_ROWS: the next `count` units of the started descriptor. -/
def updateStep (s : State) (d : Started) (count : Nat) (bad : Option Nat) : State :=
  let r := updDie d.fn
  match s.updRun r with
  | none => s
  | some u =>
    if u.ring != d.ring || u.seq != d.seq || u.fault.isSome then s
    else if !u.begun then
      if s.pendingIn (s.activeSlot r (leAt d.bytes 25 1)) 256 then s
      else
        let q := s.beginUpd r u d.bytes
        match q.2 with
        | some cls => q.1.endUpd r { status := stFAULTED, cls := cls }
        | none => q.1.updSteps r d.bytes count bad
    else s.updSteps r d.bytes count bad

/-- R287. The UPDATE_DENSE command: `count` further elements or blocks are updated; `bad` is how many are before one on which
the engine's datapaths disagree. -/
def execUpdateDense (n seq count : Nat) (bad : Option Nat) (ecc : EccFinds) (z : State) : Host.Outcome State Fault Refusal :=
  let s := z.eccAll ecc
  .next (match s.findStarted n seq with
    | some d => if dOPCODE d.bytes = 0x2010 && d.done.isNone then updateStep s d count bad else s
    | none => s)

/-- R290. The UPDATE_ROWS command, for list positions. -/
def execUpdateRows (n seq count : Nat) (bad : Option Nat) (ecc : EccFinds) (z : State) : Host.Outcome State Fault Refusal :=
  let s := z.eccAll ecc
  .next (match s.findStarted n seq with
    | some d => if dOPCODE d.bytes = 0x2011 && d.done.isNone then updateStep s d count bad else s
    | none => s)

/-- R278. SETCOEF writes the rule table of one Ledger die, whose slots it reads first: (ENTRY_VER, TABLE_VER), or a refusal, or a class. -/
def State.setcoefOne (s0 : State) (c : Ctx) (b : List Byte) (r : Nat) : State × Option (Nat × Nat) × Option Nat :=
  let e := leAt b 25 1
  let rd := s0.awareChecks c [(s0.ruleBase r, 4), (s0.activeSlot r e, 256)]
  let s := rd.1
  let a := s.pendingSlot r e
  let old := s.gread a 128
  let act := s.gread (s.activeSlot r e) 128
  if rd.2.isSome then (s, none, rd.2)
  else if slotType old != 0 && slotEff old != leAt b 28 4 then (s, none, none)
  else
    let prev := if slotVer old != 0 then slotVer old else slotVer act
    let ver := if prev = 0xFFFF then 1 else prev + 1
    let tv := (leNat (s.gread (s.ruleBase r) 4) + 1) % 2 ^ 32
    let q := s.awareWrites c 0x00 (dSTEP b) defaultId
      [(s.ruleBase r, leBytes 4 tv), (a, s.gread (leAt b 32 8) 64 ++ leBytes 1 (leAt b 26 1) ++ leBytes 1 0 ++ leBytes 2 ver ++ leBytes 4 (leAt b 28 4))]
    (q.1, some (ver, tv), q.2)

/-- R279, R280. The dies of a SETCOEF in turn; the results so far. -/
def State.setcoefAll (s : State) (c : Ctx) (b : List Byte) : List Nat → List (Nat × Nat) → State × Done
  | [], rs =>
    let mn (f : Nat × Nat → Nat) : Nat := (rs.map f).foldl min (2 ^ 32 - 1)
    (s, { status := stSUCCESS, result := mn (·.1) * 2 ^ 48 + mn (·.2) })
  | r :: t, rs =>
    let q := s.setcoefOne c b r
    match q.2.2, q.2.1 with
    | some cls, _ => (q.1, { status := stFAULTED, cls := cls })
    | none, none => (q.1, { status := stREFUSED })
    | none, some v => State.setcoefAll q.1 c b t (rs ++ [v])

/-- The dies that a SETCOEF writes (R277, R279). -/
def setcoefDies (b : List Byte) : List Nat := if updRegion b = 0xFF then List.range 8 else [updRegion b]

/-- R278-R280. SETCOEF of a started descriptor; it waits while a page it reads is pending. -/
def setcoef (s : State) (d : Started) : State :=
  let r := updDie d.fn
  match s.updRun r with
  | none => s
  | some u =>
    let b := d.bytes
    if u.ring != d.ring || u.seq != d.seq then s
    else if s.pendingIn (leAt b 32 8) 64 || (setcoefDies b).any (fun r => s.pendingIn (s.pendingSlot r (leAt b 25 1)) 128) then s
    else
      let q := s.awareCheck (updCtx u r b) (leAt b 32 8) 64 none none
      match q.2 with
      | some cls => q.1.endUpd r { status := stFAULTED, cls := cls }
      | none =>
        if coefsBad (leAt b 26 1) (slotCoefs (q.1.gread (leAt b 32 8) 64)) then q.1.endUpd r { status := stBAD_OPERAND }
        else let x := q.1.setcoefAll (updCtx u r b) b (setcoefDies b) []; x.1.endUpd r x.2

/-- R278. The SETCOEF command. -/
def execSetcoef (n seq : Nat) (ecc : EccFinds) (z : State) : Host.Outcome State Fault Refusal :=
  let s := z.eccAll ecc
  .next (match s.findStarted n seq with
    | some d => if dOPCODE d.bytes = 0x2018 && d.done.isNone then setcoef s d else s
    | none => s)

/-- R297, R299. VE_TAKEOVER: the vector engine of the owner block, or of the next qualifying one, resumes the interrupted
update of Ledger die r at PROGRESS.NEXT; with none, the descriptor fails with the engine's class. -/
def veTakeover (s : State) (r : Nat) : State :=
  match s.updRun r with
  | none => s
  | some u => match u.fault, s.findStarted u.ring u.seq with
    | some cls, some d => match s.veBlock (ownerBlock d.bytes) with
      | some b =>
        let s1 := s.setUpd r (some { u with ve := some b, fault := none })
        let s2 := s1.updStarted u.ring u.seq (fun x => { x with fallback := true })
        (s2.fput (Reg.UPD_STATUS r) Fld.UPD_STATUS_VE_BUSY 1).bump (Reg.UPD_STATUS r) Fld.UPD_STATUS_HANDED 1
      | none => s.endUpd r { status := stFAULTED, cls := cls }
    | _, _ => s

/-- R299. The VE_TAKEOVER command. -/
def execVeTakeover (r : Nat) (s : State) : Host.Outcome State Fault Refusal := .next (if r < 8 then veTakeover s r else s)

end Sys2Proof.Machine
end

