-- ==== Sys2Proof/Machine/Array.lean ====
section
/-!
DEFINITION. The array function (spec/03 R140-R166, spec/04 R169-R201): operand checks, the start of a descriptor, dealing, the
chunks and folds of cells, fences and redistribution, the overlap window.
-/
namespace Sys2Proof.Machine

open Sys2Proof

/-! ### Ranges (R174-R178, R210) -/

/-- Bytes from the first row to the end of the last of `rows` rows. -/
def rowsExt (rows ld rb : Nat) : Nat := if rows = 0 || rb = 0 then 0 else (rows - 1) * ld + rb

/-- A matrix of a SWEEP: address, row distance, batch distance, stored rows, bytes per row. -/
structure Mat where
  addr : Nat
  ld : Nat
  bs : Nat
  rows : Nat
  rb : Nat
  deriving DecidableEq, Repr

def SweepP.matA (x : SweepP) : Mat :=
  { addr := x.a, ld := x.lda, bs := x.bsa, rows := if x.transA then x.k else x.m, rb := elemBytes x.aFmt (if x.transA then x.m else x.k) }
def SweepP.matB (x : SweepP) : Mat :=
  { addr := x.b, ld := x.ldb, bs := x.bsb, rows := if x.transB then x.n else x.k, rb := elemBytes x.bFmt (if x.transB then x.k else x.n) }
def SweepP.matC (x : SweepP) : Mat :=
  { addr := x.c, ld := x.ldc, bs := x.bsc, rows := if x.topk && x.whole then 1 else x.m,
    rb := if x.topk then 16 * x.topkK else elemBytes x.cFmt x.n }

/-- The ranges of a matrix for the conditions of R177: one per batch element, from its first row to its last, the gaps between rows
included (assumption 116). -/
def Mat.ranges (m : Mat) (batch : Nat) : List (Nat × Nat) :=
  (List.range batch).map (fun e => (m.addr + e * m.bs, rowsExt m.rows m.ld m.rb))

/-- The rows of a matrix, joined where they follow one another. -/
def Mat.rowRanges (m : Mat) (batch : Nat) : List (Nat × Nat) :=
  (List.range batch).flatMap (fun e =>
    if m.rows ≤ 1 || m.ld = m.rb then [(m.addr + e * m.bs, rowsExt m.rows m.rb m.rb)]
    else (List.range m.rows).map (fun i => (m.addr + e * m.bs + i * m.ld, m.rb)))

/-- The packed ranges that a SWEEP reads beside A and B: block scales, σ, β. -/
def SweepP.packed (x : SweepP) : List (Nat × Nat) :=
  (if blockScaled x.aFmt then [(x.sa, x.batch * x.m * ceilDiv x.k 32)] else []) ++
    (if blockScaled x.bFmt then [(x.sb, x.batch * x.n * ceilDiv x.k 32)] else []) ++
    (if x.scaleMode = 2 then [(x.sigmaA, 4 * x.n)] else []) ++ (if x.bias then [(x.betaA, 4 * x.n)] else [])

/-- The scales that a SWEEP writes. -/
def SweepP.outScales (x : SweepP) : List (Nat × Nat) :=
  if blockScaled x.cFmt then [(x.sc, x.batch * x.m * ceilDiv x.n 32)] else []

/-- Input and output ranges of a SWEEP. -/
def SweepP.ins (x : SweepP) : List (Nat × Nat) := x.matA.ranges x.batch ++ x.matB.ranges x.batch ++ x.packed
def SweepP.outs (x : SweepP) : List (Nat × Nat) := x.matC.ranges x.batch ++ x.outScales

/-- Input and output ranges of an INTERACT over the blocks it serves. -/
def InterP.inLen (x : InterP) : Nat := (x.s - 1) * x.zStride + x.f * x.d * (elemBits x.zFmt / 8)
def InterP.outBytes (x : InterP) : Nat := x.outs * (elemBits x.cFmt / 8)
def InterP.outLen (x : InterP) : Nat := (x.s - 1) * x.oStride + x.outBytes
def InterP.ins (x : InterP) (blocks : List Nat) : List (Nat × Nat) := blocks.map (fun b => (stagingAddr b x.zOff, x.inLen))
def InterP.outRows (x : InterP) (blocks : List Nat) : List (Nat × Nat) :=
  blocks.flatMap (fun b => (List.range x.s).map (fun i => (stagingAddr b (x.oOff + i * x.oStride), x.outBytes)))

/-! ### VE_OP (R205) -/

structure VeP where
  sub : Nat
  inF : Nat
  outF : Nat
  count : Nat
  x : Nat
  y : Nat
  z : Nat
  alpha : Nat
  rowlen : Nat
  deriving DecidableEq, Repr

def veP (b : List Byte) : VeP where
  sub := leAt b 24 2
  inF := leAt b 26 1
  outF := leAt b 27 1
  count := leAt b 28 4
  x := leAt b 32 8
  y := leAt b 40 8
  z := leAt b 48 8
  alpha := leAt b 56 4
  rowlen := leAt b 60 4

/-- R206. SUBOPs that read a second input of COUNT elements, or a gain of ROWLEN values; row operations. -/
def VeP.two (v : VeP) : Bool := [1, 2, 3, 4, 5].contains v.sub
def VeP.gain (v : VeP) : Bool := v.sub == 0x10 || v.sub == 0x11
def VeP.rowOp (v : VeP) : Bool := [0x10, 0x11, 0x12, 0x18].contains v.sub
def VeP.merge (v : VeP) : Bool := v.sub == 0x20

/-- Elements that a VE_OP reads and writes, and the length of a row of them. -/
def VeP.rows (v : VeP) : Nat := if v.rowOp then ceilDiv v.count v.rowlen else 1
def VeP.outN (v : VeP) : Nat := if v.sub = 0x18 then v.rows else v.count
def VeP.inRow (v : VeP) : Nat := if v.rowOp then v.rowlen else v.count
def VeP.outRow (v : VeP) : Nat := if v.rowOp && v.sub != 0x18 then v.rowlen else v.outN

/-- Where the scales of n elements at an address lie (R205; for inputs assumption 23), and their number for rows of len: the 32-element
blocks begin anew with each row (assumption 116). -/
def scalesAt (addr f n : Nat) : Nat := addr + (elemBytes f n + 63) / 64 * 64
def scaleCount (n len : Nat) : Nat := if len = 0 then 0 else n / len * ceilDiv len 32 + ceilDiv (n % len) 32

/-- The ranges of n elements in rows of len. -/
def veRange (addr f n len : Nat) : List (Nat × Nat) :=
  (addr, elemBytes f n) :: (if blockScaled f then [(scalesAt addr f n, scaleCount n len)] else [])

def VeP.ins (v : VeP) : List (Nat × Nat) :=
  if v.merge then [(v.x, 16 * v.rowlen * v.count)]
  else veRange v.x v.inF v.count v.inRow ++ (if v.two then veRange v.y v.inF v.count v.count else []) ++
    (if v.gain then veRange v.y v.inF v.rowlen v.rowlen else [])
def VeP.outs (v : VeP) : List (Nat × Nat) :=
  if v.merge then [(v.z, 16 * v.rowlen)]
  else (v.z, elemBytes v.outF v.outN) :: (if blockScaled v.outF then [(scalesAt v.z v.outF v.count, scaleCount v.outN v.outRow)] else [])

/-- R177, R206. The operands of a VE_OP that may not touch a Tiler area. -/
def VeP.operands (v : VeP) : List (Nat × Nat) :=
  if v.merge then v.ins
  else (v.x, elemBytes v.inF v.count) :: (if v.two then [(v.y, elemBytes v.inF v.count)] else if v.gain then [(v.y, elemBytes v.inF v.rowlen)] else [])

/-! ### Checks (R129, R140, R171, R177, R206, R214) -/

/-- The Tiler areas of the 64 blocks (R188). -/
def State.tilerAreas (s : State) : List (Nat × Nat) :=
  (List.range 64).map (fun b => (stagingAddr b 0, s.cfg Reg.ARR_TILER_CFG Fld.ARR_TILER_CFG_TILER_MIB * 2 ^ 20))

/-- A range touches a Tiler area: its pieces lie in staging SRAM below the area's size. -/
def State.inTiler (s : State) (r : Nat × Nat) : Bool :=
  (piecesOf r.1 r.2).any (fun p => match s.gloc p.1 with
    | .own (.staging a) => a % 0x8000000 < s.cfg Reg.ARR_TILER_CFG Fld.ARR_TILER_CFG_TILER_MIB * 2 ^ 20
    | _ => false)

/-- The range and overlap conditions of R177: operands and outputs keep clear of the Tiler areas, and input scales, σ and β need not. -/
def State.rangesBad (s : State) (ins operands outs : List (Nat × Nat)) : Bool :=
  (ins ++ outs).any (fun r => !s.inOwnMem r.1 r.2) || (operands ++ outs).any s.inTiler || outs.any (fun o => ins.any (s.overlap o))

/-- R129. -/
def pairOk (a b : Nat) : Bool :=
  (a == 1 && b == 1) || ((a == 2 || a == 3) && (b == 2 || b == 3)) || (a == 4 && b == 4) || (a == 5 && b == 5) || (a == 6 && b == 6)

/-- R177. The strides of a matrix. -/
def Mat.strideBad (m : Mat) (batch : Nat) : Bool :=
  (m.rows > 1 && (m.ld % 64 != 0 || m.ld < m.rb)) || (batch > 1 && (m.bs % 64 != 0 || m.bs < rowsExt m.rows m.ld m.rb))

/-- R171, R177, R178. What completes a SWEEP with BAD_OPERAND. -/
def State.sweepBad (s : State) (b p : List Byte) : Bool :=
  let x := sweepP b p
  p.length < 128 || leAt b 46 2 != 0 || bitOf x.mode 7 || x.acc > 1 || x.scaleMode > 2 || !zeroBytes p 112 127 || x.L > 24 ||
    x.m == 0 || x.n == 0 || x.batch == 0 || !pairOk x.aFmt x.bFmt || x.cFmt == 0 || x.cFmt > 6 || (x.rtz && x.cFmt != 4) ||
    (x.topk && (blockScaled x.cFmt || x.topkK == 0 || x.topkK > 256)) || (!x.topk && (x.topkK != 0 || x.whole)) ||
    (!blockScaled x.aFmt && x.sa != 0) || (!blockScaled x.bFmt && x.sb != 0) || (!blockScaled x.cFmt && x.sc != 0) ||
    (x.scaleMode != 2 && x.sigmaA != 0) || (!x.bias && x.betaA != 0) || (x.scaleMode != 1 && x.sigma != 0) ||
    (!x.clamp && (x.lo != 0 || x.hi != 0)) ||
    [x.a, x.b, x.c, x.sa, x.sb, x.sc].any (· % 64 != 0) || x.sigmaA % 4 != 0 || x.betaA % 4 != 0 ||
    x.matA.strideBad x.batch || x.matB.strideBad x.batch || x.matC.strideBad x.batch ||
    (x.topk && (if x.whole then x.ldc != 0 else x.m > 1 && x.ldc < 16 * x.topkK)) || s.rangesBad x.ins (x.matA.ranges x.batch ++ x.matB.ranges x.batch) x.outs

/-- R214. What completes an INTERACT with BAD_OPERAND; without output elements (R210) there is no output range. -/
def State.interBad (s : State) (b : List Byte) : Bool :=
  let x := interP b
  let lim := s.cfg Reg.ARR_TILER_CFG Fld.ARR_TILER_CFG_TILER_MIB * 2 ^ 20
  dPARAM b || !([2, 3, 5].contains x.zFmt) || !([2, 3, 5, 6].contains x.cFmt) || x.acc > 1 || x.L > 24 || x.mode / 8 != 0 ||
    x.f == 0 || x.f > 64 || x.d == 0 || x.s == 0 || [x.zOff, x.oOff, x.zStride, x.oStride].any (· % 64 != 0) ||
    x.zStride < x.f * x.d * (elemBits x.zFmt / 8) || x.oStride < x.outBytes ||
    x.zOff + x.inLen > 0x6000000 || x.zOff < lim ||
    (x.outs != 0 && (x.oOff + x.outLen > 0x6000000 || x.oOff < lim || (x.zOff < x.oOff + x.outLen && x.oOff < x.zOff + x.inLen))) || (!bitOf x.mode 1 && x.sigma != 0) ||
    (!bitOf x.mode 2 && (x.lo != 0 || x.hi != 0))

/-- R206. What completes a VE_OP with BAD_OPERAND. -/
def State.veBad (s : State) (b : List Byte) : Bool :=
  let v := veP b
  let elem : Bool := 1 ≤ v.sub && v.sub ≤ 9
  dPARAM b || !(elem || v.rowOp || v.merge) || v.inF < 2 || v.inF > 6 || v.outF == 0 || v.outF > 6 ||
    (elem && v.rowlen != 0) || (v.rowOp && (v.rowlen == 0 || v.rowlen > 1048576)) ||
    (v.merge && (v.rowlen == 0 || v.rowlen > 256 || blockScaled v.outF)) ||
    v.x % 64 != 0 || ((v.two || v.gain) && v.y % 64 != 0) || v.z % 64 != 0 || s.rangesBad v.ins v.operands v.outs

/-- R153. The accumulator store holds no tile at this depth. -/
def noTile (b p : List Byte) : Bool :=
  let x := tileP b p
  (dOPCODE b == 0x1001 || dOPCODE b == 0x1003) && tilesPerCell x.acc x.L == 0

/-! ### Events (R666-R668) -/

/-- R666, R667. An event of the running array descriptor at a die; it is kept in case R429 repeats the descriptor. -/
def State.arrEvent (s : State) (b : List Byte) (die : Nat) (e : Nat × Nat) : State :=
  let s1 := s.evCount die e.1 e.2 (dLAYER b) (dOP b)
  { s1 with arr := { s1.arr with evs := tblPut zeroAt s1.arr.evs (die * 256 + e.1) (tblGet zeroAt s1.arr.evs (die * 256 + e.1) + e.2) } }

def State.arrEvents (s : State) (b : List Byte) (die : Nat) (es : List (Nat × Nat)) : State := es.foldl (fun s e => s.arrEvent b die e) s

/-- R668. A counter of EXCL_CHECK takes back n. -/
def State.takeBack (s : State) (die c n : Nat) : State :=
  { s with obs := { s.obs with counters := tblPut zeroAt s.obs.counters (die * 48 + c) (tblGet zeroAt s.obs.counters (die * 48 + c) - n) } }

/-- R668. The events of the first run of a descriptor that R429 repeats leave the counters of EXCL_CHECK. -/
def State.uncount (s : State) (b : List Byte) : State :=
  let s1 := s.arr.evs.foldl (fun s e =>
    ((List.range 48).filter (fun c => s.counts (e.1 / 256) c (e.1 % 256) (dLAYER b) (dOP b) (fun _ => true) false &&
        !(s.counts (e.1 / 256) c (e.1 % 256) (dLAYER b) (dOP b) (fun _ => true) true))).foldl
      (fun s c => s.takeBack (e.1 / 256) c e.2) s) s
  { s1 with arr := { s1.arr with evs := [] } }

/-- R668. A tile recomputed on a cell, by a replay or an audit: its terms, inputs and fold are events that EXCL_CHECK leaves out. -/
def State.recomputed (s : State) (b p : List Byte) (num cell : Nat) : State :=
  let x := tileP b p
  (((List.range x.chunks).flatMap (fun c => chunkEvents x c (s.chunkOps x num c))) ++ [(0x31, 1)]).foldl
    (fun s (e : Nat × Nat) => s.evCount (cell / 64) e.1 e.2 (dLAYER b) (dOP b) (check := true)) s

/-! ### Start (R180, R198, R199, R217, R430, R686) -/

/-- R198. The fence bits that writes clear at this start. -/
def State.clearFences (s : State) : State :=
  let s1 := s.setReg Reg.ARR_FENCE_BLOCK (s.reg Reg.ARR_FENCE_BLOCK &&& ~~~(BitVec.ofNat 64 s.arr.clearBlock))
  let s2 := s.arr.clearCell.foldl (fun s e =>
    s.setReg (Reg.ARR_FENCE_CELL e.1) (s.reg (Reg.ARR_FENCE_CELL e.1) &&& ~~~(BitVec.ofNat 64 e.2))) s1
  { s2 with arr := { s2.arr with clearBlock := 0, clearCell := [] } }

/-- R199. SWEEP_STATUS of a running descriptor. -/
def sweepStatus (cells ring left : Nat) : Word :=
  Fld.ARR_SWEEP_STATUS_ACTIVE_CELLS.put (Fld.ARR_SWEEP_STATUS_RING.put (Fld.ARR_SWEEP_STATUS_TILES_LEFT.put 0#64 (min left 0xFFFFFF)) ring) cells

/-- R182, R211. The tiles of an ARRAY descriptor, dealt; a VE_OP has none. -/
def dealt (b p : List Byte) (active gone : List Nat) : List Tile := if dOPCODE b = 0x1020 then [] else dealAll (tileP b p) active gone

/-- R180, R182, R196, R430. An ARRAY descriptor starts: fences are cleared, the active set is sampled, the tiles are dealt, and it takes a
ticket. A prefetched one goes on in the other half of the Tiler areas, with the chunks of the cells that are still active. -/
def State.startArray (s : State) (d : Started) : State :=
  let s1 := s.clearFences.applyTrace.clockCells
  let t := s1.fget Reg.INTG_TICKET Fld.INTG_TICKET_NEXT
  let act := s1.activeSet
  let s2 := s1.fput Reg.INTG_TICKET Fld.INTG_TICKET_NEXT (t + 1)
  let gone := (List.range 64).filter (fun b => !s.blockUp b)
  let ts := dealt d.bytes d.param act gone
  let ahead : Bool := s.arr.prefetch == some (d.ring, d.seq)
  let half := if ahead then 1 - s.arr.half else s.arr.half
  let run : ArrRun := { ring := d.ring, seq := d.seq, op := dOPCODE d.bytes, ticket := t, active := act, tiles := ts, left := ts.length, gone := gone,
                        pre := if ahead then s.arr.pre.filter (fun c => act.contains c.cell) else [] }
  let tk : TicketSt := { num := t, ring := d.ring, seq := d.seq, bytes := d.bytes, param := d.param }
  let s3 : State := { s2 with arr := { s2.arr with
      run := some run, prefetch := none, preCells := [], pre := [], half := half,
      tilerHits := if ahead then s2.arr.tilerHits.filter (·.2 == half) else [], tickets := s2.arr.tickets ++ [tk], busyAt := s2.clk.now, evs := [] } }
  ((s3.traceStart d (dedup (act.map (· / 64)))).updStarted d.ring d.seq (fun x => { x with ticket := some t })).setReg Reg.ARR_SWEEP_STATUS (sweepStatus act.length d.ring ts.length)

/-- The running array descriptor of a ring and RING_SEQ. -/
def State.runOf (s : State) (n seq : Nat) : Option (ArrRun × Started) :=
  match s.arr.run, s.findStarted n seq with
  | some r, some d => if r.ring = n && r.seq = seq && d.done.isNone then some (r, d) else none
  | _, _ => none

/-- Replace the running descriptor's state; ACTIVE_CELLS shows the cells that are still active (assumption 116). -/
def State.setRun (s : State) (r : ArrRun) : State :=
  ({ s with arr := { s.arr with run := some r } } : State).setReg Reg.ARR_SWEEP_STATUS (sweepStatus r.active.length r.ring r.left)

/-- The context of a report about the running array descriptor. -/
def arrCtx (n : Nat) (b : List Byte) (cell : Nat) : Ctx :=
  { ctxOf n b (cell / 64) 0 with cell := cell % 64, blk := some (cell / 64), fn := some 0 }

/-- The running descriptor ends with a fault; its ticket settles by R430. -/
def State.failRun (s : State) (r : ArrRun) (cls cell : Nat) : State :=
  (s.setDone r.ring r.seq { status := stFAULTED, cls := cls, die := cell / 64, unit := 0, cell := cell % 64 }).endRun

/-! ### The end of a sweep (R151, R165, R166) -/

/-- R151, R165, R166, R213, R414. Every tile of a sweep is folded and written. One that exceeds the pairwise limit sets BOUND_EXT and c
also where it ends FAULTED for its pages or blocks (assumption 116). -/
def State.finishRun (s : State) (r : ArrRun) (d : Started) : State :=
  let x := tileP d.bytes d.param
  let c := boundC x.K x.L
  let ext : Bool := x.K > 64 * 2 ^ x.L
  let bad := s.arr.tickets.any (fun t => t.num == r.ticket && !t.badPages.isEmpty)
  let s1 := if ext then (s.bump Reg.ARR_ARITH_CNT Fld.ARR_ARITH_CNT_BOUND_EXT 1).report 0x0D 0 (arrCtx r.ring d.bytes (r.active.headD 0)) else s
  let s2 := if r.nanOut = 0 then s1 else s1.bump Reg.ARR_ARITH_CNT Fld.ARR_ARITH_CNT_NAN 1
  let s3 := if r.infOut = 0 then s2 else s2.bump Reg.ARR_ARITH_CNT Fld.ARR_ARITH_CNT_INF 1
  let fl := if ext then flBOUND_EXT else 0
  let res := min r.infOut 0xFFFF * 2 ^ 48 + min r.nanOut 0xFFFF * 2 ^ 32 + (if ext then min c (2 ^ 32 - 1) else 0)
  let die := r.active.headD 0 / 64
  let out : Done :=
    if bad then { status := stFAULTED, cls := 0x09, flags := fl, result := if ext then min c (2 ^ 32 - 1) else 0, die := die, unit := 0 }
    else if r.op = 0x1003 && !r.gone.isEmpty then
      { status := stFAULTED, cls := 0x14, flags := fl, result := if ext then min c (2 ^ 32 - 1) else 0, die := r.gone.headD 0, unit := 0 }
    else { status := stSUCCESS, cls := if ext then 0x0D else 0, flags := fl, result := res, die := die, unit := 0 }
  (s3.setDone r.ring r.seq out).endRun

/-! ### Dealing (R182, R211, R443) -/

/-- The ranges that a sweep reads. -/
def sweepReads (r : ArrRun) (b p : List Byte) : List (Nat × Nat) :=
  if r.op = 0x1001 then
    let x := sweepP b p
    x.matA.rowRanges x.batch ++ x.matB.rowRanges x.batch ++ x.packed
  else (interP b).ins ((List.range 64).filter (fun b => !r.gone.contains b))

/-- R424. The replay cell for a cell among candidates: the same cell of the next block upwards, else the search of R185 in the
blocks upwards. -/
def replayCell (ok : Nat → Bool) (cell : Nat) : Option Nat :=
  let b := cell / 64
  let c := cell % 64
  let ups := (List.range 63).map (fun i => (b + 1 + i) % 64)
  match ups.find? (fun y => ok (y * 64 + c)) with
  | some y => some (y * 64 + c)
  | none => (ups ++ [b]).findSome? (fun y => (searchGrid (fun x => ok (y * 64 + x) && y * 64 + x != cell) c).map (y * 64 + ·))

/-- R424. A cell that may replay: active now, and its Strainer not flagged. -/
def State.mayReplay (s : State) (cell : Nat) : Bool :=
  decide (cell < 4096) && s.cellActive cell && !bitOf (s.reg (Reg.INTG_STRAINER_FLAG (cell / 64))).toNat (cell % 64)

/-- R443. The audit of a descriptor, when it is due: the tile is the operand's, reduced to the number of tiles. -/
def State.startAudit (s : State) (r : ArrRun) (d : Started) (tiles : List Tile) (pick : Nat) : State :=
  if s.cfg Reg.INTG_CFG Fld.INTG_CFG_AUDIT_EN = 1 && s.arr.lastAudit != some (dSTEP d.bytes) then
    let s1 : State := { s with arr := { s.arr with lastAudit := some (dSTEP d.bytes) } }
    match tiles[pick % tiles.length]? with
    | none => s1
    | some t => match replayCell s.mayReplay t.cell with
      | none => s1
      | some a =>
        let x := tileP d.bytes d.param
        let au : Audit := { ring := r.ring, seq := r.seq, bytes := d.bytes, param := d.param, tile := t.num, cell := t.cell, auditCell := a,
                            truth := foldTile x (s.runTile x t.num a) [] }
        ({ s1 with arr := { s1.arr with audits := s1.arr.audits ++ [au] } } : State).recomputed d.bytes d.param t.num a
  else s

/-- R411, R433. A sweep begins: it waits while a page it reads is pending, and checks its operands' tags. -/
def State.beginRun (s : State) (r : ArrRun) (d : Started) (pick : Nat) : State :=
  let reads := sweepReads r d.bytes d.param
  if reads.any (fun q => s.pendingIn q.1 q.2) then s
  else
    let q := s.awareChecks (arrCtx r.ring d.bytes (r.active.headD 0)) reads
    match q.2 with
    | some cls => q.1.failRun r cls (r.active.headD 0)
    | none =>
      let r1 := { r with begun := true }
      let s1 := (q.1.setRun r1).startAudit r1 d r.tiles pick
      if r.tiles.isEmpty then s1.finishRun r1 d else s1

/-- R169. The SWEEP command; `pick` is the hardware's random choice of the audit tile. -/
def execSweep (n seq pick : Nat) (ecc : EccFinds) (z : State) : Host.Outcome State Fault Refusal :=
  let s := z.eccAll ecc
  .next (match s.runOf n seq with
    | some (r, d) => if r.op = 0x1001 && !r.begun then s.beginRun r d pick else s
    | none => s)

/-- R210. The INTERACT command. -/
def execInteract (n seq pick : Nat) (ecc : EccFinds) (z : State) : Host.Outcome State Fault Refusal :=
  let s := z.eccAll ecc
  .next (match s.runOf n seq with
    | some (r, d) => if r.op = 0x1003 && !r.begun then s.beginRun r d pick else s
    | none => s)

/-! ### Redistribution (R144, R155, R185-R187) -/

/-- A tile that moves restarts at chunk 0 at the end of the receiving cell's list. -/
def moveTile (r : ArrRun) (num dst : Nat) : ArrRun :=
  let rnd := (r.tiles.filter (·.cell == dst)).foldl (fun a t => max a (t.round + 1)) 0
  match r.tiles.find? (·.num == num) with
  | none => r
  | some _ => { r with tiles := r.tiles.filter (·.num != num) ++ [{ num := num, cell := dst, round := rnd }] }

/-- R185, R186. Every tile of cells that are no longer active moves; the answer is none when no cell is left. -/
def moveCells (r : ArrRun) (gone : List Nat) : Option ArrRun :=
  let act := r.active.filter (fun c => !gone.contains c)
  if act.isEmpty then none
  else some ((r.tiles.filter (fun t => gone.contains t.cell)).foldl (fun r t =>
    match moveTarget act t.cell with | some c => moveTile r t.num c | none => r) { r with active := act })

/-- R198, R185-R187. The running sweep loses cells to a fence of a class. -/
def State.loseCells (s : State) (gone : List Nat) (cls : Nat) : State :=
  match s.arr.run with
  | none => s
  | some r => match moveCells r gone with
    | some r1 => s.setRun r1
    | none => s.failRun r cls (gone.headD 0)

/-- R198. A cell is fenced. -/
def State.fenceCell (s : State) (cell cls : Nat) : State :=
  (s.putBit (Reg.ARR_FENCE_CELL (cell / 64)) (cell % 64) true).loseCells [cell] cls

/-- R198. A block is fenced. -/
def State.fenceBlock (s : State) (b cls : Nat) : State :=
  (s.putBit Reg.ARR_FENCE_BLOCK b true).loseCells ((List.range 64).map (b * 64 + ·)) cls

/-! ### Chunks (R140, R154, R155, R183) -/

/-- The tiles that a cell has in progress: those of its earliest round. -/
def groupOf (r : ArrRun) (cell : Nat) : List Tile :=
  let ts := r.tiles.filter (·.cell == cell)
  let rnd := ts.foldl (fun a t => min a t.round) ((ts.head?.map (·.round)).getD 0)
  ts.filter (·.round == rnd)

/-- R154. A tile tag that is free: the lowest (assumption 116). -/
def freeTag (ts : List Tile) : Nat := ((List.range 32).find? (fun t => !ts.any (·.tag == some t))).getD 31

/-- R183. The tiles of the cell's group that take the next chunk: those that have taken the fewest. -/
def nextTiles (r : ArrRun) (x : TileP) (cell : Nat) : List Tile :=
  let grp := (groupOf r cell).filter (·.next < x.chunks)
  grp.filter (·.next == grp.foldl (fun a t => min a t.next) x.chunks)

/-- R188. The Tiler area of a cell's block has been written over. -/
def State.tilerLost (s : State) (x : TileP) (cell : Nat) : Bool := x.op == 0x1001 && s.arr.tilerHits.contains (cell / 64, s.arr.half)

/-- R188, R194, R196. The operands that a cell's next chunk of a tile finds in the Tiler area: free values where another master has written
there, those fetched ahead, or those of memory. -/
def State.cellOps (s : State) (r : ArrRun) (x : TileP) (cell : Nat) (t : Tile) : List (List Opnd) × List (List Opnd) :=
  if s.tilerLost x cell then s.lostOps x t.num t.next
  else match r.pre.find? (fun c => c.cell == cell && c.tile == t.num && c.chunk == t.next) with
    | some c => (c.rows, c.cols)
    | none => s.chunkOps x t.num t.next

/-- Free values that the operands of one chunk may take. -/
def opsDrawn : Nat := 5 * 8192

/-- R183. Apply the next chunk to every tile of the cell's group that has taken the fewest, with the events of the chunks. -/
def State.chunkStep (s : State) (r : ArrRun) (x : TileP) (cell : Nat) : ArrRun × List (Nat × Nat) × State :=
  (nextTiles r x cell).foldl (fun (q : ArrRun × List (Nat × Nat) × State) t =>
    let ops := q.2.2.cellOps r x cell t
    let t1 := { t with tag := some (t.tag.getD (freeTag (q.1.tiles.filter (·.cell == cell)))) }
    let y := applyChunk x t1 t.next ops
    ({ q.1 with tiles := q.1.tiles.map (fun u => if u.num == t.num then y.1 else u), flush := q.1.flush || y.2 },
     q.2.1 ++ chunkEvents x t.next ops, if s.tilerLost x cell then q.2.2.drew opsDrawn else q.2.2)) (r, [], s)

/-- R155. An uncorrected error of the accumulator store moves one tile. -/
def State.storeError (s : State) (r : ArrRun) (d : Started) (cell num : Nat) : State :=
  match (groupOf r cell).find? (fun t => t.num == num && t.tag.isSome) with
  | none => s
  | some t =>
    let s1 := s.report 0x07 2 { arrCtx r.ring d.bytes cell with unit := 0x02, vals := [t.tag.getD 0] }
    match moveTarget (r.active.filter (· != cell)) cell with
    | some c => s1.setRun (moveTile r num c)
    | none => s1.failRun r 0x07 cell

/-- R140, R155. The CHUNK_APPLY command: the cell takes its next chunk; `bad` is a tile whose store word has an error that
SECDED cannot correct, `corr` how many errors it corrected. -/
def execChunkApply (cell : Nat) (bad : Option Nat) (corr : Nat) (ecc : EccFinds) (z : State) : Host.Outcome State Fault Refusal :=
  let s := z.eccAll ecc
  .next (match s.arr.run with
    | some r => match s.runOf r.ring r.seq with
      | some (_, d) =>
        if r.begun && cell < 4096 then
          let x := tileP d.bytes d.param
          let q := s.chunkStep r x cell
          let s1 := ((q.2.2.setRun q.1).arrEvents d.bytes (cell / 64) q.2.1).corrected (0x1000 + cell) corr
          match bad with | some num => s1.storeError q.1 d cell num | none => s1
        else s
      | none => s
    | none => s)

/-! ### Folds (R141, R154, R156-R165, R414, R432) -/

/-- The output ranges of an ARRAY descriptor with their format codes, row by row. -/
def arrOuts (b p : List Byte) (gone : List Nat) : List (Nat × Nat × Nat) :=
  if dOPCODE b = 0x1001 then
    let x := sweepP b p
    (x.matC.rowRanges x.batch).map (fun r => (if x.topk then 0 else x.cFmt, r.1, r.2)) ++ x.outScales.map (fun r => (0x07, r.1, r.2))
  else if dOPCODE b = 0x1003 then
    let x := interP b
    (x.outRows ((List.range 64).filter (fun k => !gone.contains k))).map (fun r => (x.cFmt, r.1, r.2))
  else
    let v := veP b
    match v.outs with
    | [] => []
    | z :: t => (if v.merge then 0 else v.outF, z.1, z.2) :: t.map (fun r => (0x07, r.1, r.2))

/-- The places that outputs of a format cover, joined. -/
def State.coverOf (s : State) (outs : List (Nat × Nat × Nat)) (fmt : Nat) : List (Nat × Nat) :=
  joinRanges ((outs.filter (·.1 == fmt)).flatMap (fun o =>
    (piecesOf o.2.1 o.2.2).filterMap (fun p => (s.placeOf p.1).map (fun a => (a, p.2)))))

/-- R413. The format with which outputs cover a page whole. -/
def State.fmtOfPage (s : State) (outs : List (Nat × Nat × Nat)) (page : Nat) : Option Nat :=
  (dedup (outs.map (·.1))).find? (fun f => coversPage (s.coverOf outs f) page)

/-- R414. Pages that a descriptor writes for the first time and only in part: those whose old CRC fails take no writes. -/
def State.judgePages (s : State) (c : Ctx) (t : TicketSt) (outs : List (Nat × Nat × Nat)) (pages : List Nat) : State × TicketSt :=
  pages.foldl (fun (q : State × TicketSt) p =>
    if q.2.okPages.contains p || q.2.badPages.contains p then q
    else if s.isOpen p || (s.fmtOfPage outs p).isSome || s.crcGood p then (q.1, { q.2 with okPages := q.2.okPages ++ [p] })
    else (q.1.tagMismatch p c, { q.2 with badPages := q.2.badPages ++ [p] })) (s, t)

/-- R432. A write into pages has to wait: no room in an owner's table, or a page's old contents await another verdict. -/
def State.foldWaits (s : State) (t : TicketSt) (outs : List (Nat × Nat × Nat)) (pages : List Nat) : Bool :=
  !s.pendRoom t.num pages || pages.any (fun p =>
    s.pages.any (fun e => e.page == p && e.ticket != t.num) && (s.fmtOfPage outs p).isNone)

/-- The pages of writes to addresses of this module. -/
def State.pagesOfWrites (s : State) (ws : List (Nat × List Byte)) : List Nat :=
  dedup ((s.placed ws).flatMap (fun w => pagesOf w.1 w.2.length))

/-- R414, R432. A tile's rows are written: to the pages that take writes, which become pending. -/
def State.writeOut (s : State) (c : Ctx) (t : TicketSt) (outs : List (Nat × Nat × Nat)) (tile : Nat) (ws : List (Nat × List Byte)) :
    State × List Nat :=
  let pages := s.pagesOfWrites ws
  let q := s.judgePages c t outs pages
  let good := pages.filter (fun p => !q.2.badPages.contains p)
  let s1 := ((s.placed ws).filter (fun w => good.contains (w.1 / 4096))).foldl (fun s w => s.engWrite w.1 w.2) q.1
  ((s1.updTicket t.num (fun x => { x with okPages := q.2.okPages, badPages := q.2.badPages })).makePending t.num tile good, good)

/-- The outputs of a folded tile: its own rows, or the TopK output once it is the last tile. -/
def State.outOf (s : State) (x : TileP) (all : List Folded) (f : Folded) (last : Bool) : TileOut :=
  if x.op = 0x1001 && x.sw.topk then (if last then s.topkOut x all else {}) else s.tileOut x f

/-- R141, R419. The fold of a tile. -/
def foldOf (x : TileP) (t : Tile) (fault : List (Nat × Nat)) : Folded :=
  let ws := foldTile x t fault
  { num := t.num, cell := t.cell, vals := ws.map (ofAcc x.acc), words := ws, p := t.p, s := t.s, q := t.q, t := t.t, pages := [] }

/-- R141, R156-R166, R443. A tile folds: its values pass the epilogue, its rows are written, and its Strainer's verdict is
outstanding. -/
def State.foldStep (s : State) (r : ArrRun) (d : Started) (tk : TicketSt) (t : Tile) (fault : List (Nat × Nat)) : State :=
  let x := tileP d.bytes d.param
  let outs := arrOuts d.bytes d.param r.gone
  let f := foldOf x t fault
  let last := r.left = 1
  let o := s.outOf x (tk.tiles ++ [f]) f last
  let ws := o.data ++ o.scales
  if s.foldWaits tk outs (s.pagesOfWrites ws) then s
  else
    let w := s.writeOut (arrCtx r.ring d.bytes t.cell) tk outs t.num ws
    let topk := x.op = 0x1001 && x.sw.topk
    let s1 := w.1.updTicket tk.num (fun k => { k with
      tiles := (if topk then k.tiles.map (fun g => { g with pages := w.2 }) else k.tiles) ++ [{ f with pages := w.2 }] })
    let s2 : State := { s1 with arr := { s1.arr with audits := s1.arr.audits.map (fun a =>
      if a.ring == r.ring && a.seq == r.seq && a.tile == t.num && a.cell == t.cell then { a with orig := some f.words } else a) } }
    let r1 := { r with tiles := r.tiles.filter (·.num != t.num), left := r.left - 1, infOut := r.infOut + o.infs, nanOut := r.nanOut + o.nans }
    let s3 := (s2.setRun r1).arrEvents d.bytes (t.cell / 64)
      ((0x31, 1) :: (if topk && last then [(0x0B, o.data.length * x.sw.topkK)] else []))
    if last then s3.finishRun r1 d else s3

/-- R141, R155. The TILE_FOLD command; `fault` lists elements that a fault of the cell changed, with the accumulator's encoding, `bad` says
that a store word has an error that SECDED cannot correct, and `corr` how many errors it corrected. -/
def execTileFold (cell tile : Nat) (fault : List (Nat × Nat)) (bad : Bool) (corr : Nat) (ecc : EccFinds) (z : State) : Host.Outcome State Fault Refusal :=
  let s := z.eccAll ecc
  .next (match s.arr.run with
    | some r => match s.runOf r.ring r.seq, s.arr.tickets.find? (·.num == r.ticket) with
      | some (_, d), some tk => match (groupOf r cell).find? (·.num == tile) with
        | some t =>
          if r.begun && t.next = (tileP d.bytes d.param).chunks then
            let s1 := s.corrected (0x1000 + cell) corr
            if bad then s1.storeError r d cell tile else s1.foldStep r d tk t fault
          else s
        | none => s
      | _, _ => s
    | none => s)

/-! ### The overlap window (R191-R196) -/

/-- The input and output ranges of an ARRAY descriptor. -/
def arrIns (b p : List Byte) : List (Nat × Nat) :=
  if dOPCODE b = 0x1001 then (sweepP b p).ins else if dOPCODE b = 0x1003 then (interP b).ins (List.range 64) else (veP b).ins

/-- R191. The head of ring n is eligible for a prefetch while descriptor d runs. -/
def State.eligible (s : State) (d : Started) (n : Nat) (f : Fetched) : Bool :=
  dOPCODE f.bytes / 0x1000 == 1 && s.hasEvents n f && !dSERIAL f.bytes &&
    !((arrIns f.bytes (s.peekParam n f)).any (fun i => (arrOuts d.bytes d.param []).any (fun o => s.overlap i (o.2.1, o.2.2))))

/-- R86. The rings that feed the array, after the one it served last. -/
def State.arrayOrder (s : State) : List Nat :=
  let last := tblGet (fun _ => 31) s.rrLast 0
  (List.range 32).map (fun i => (last + 1 + i) % 32)

/-- R194. The chunks that the cells of a SWEEP apply first in their first round, up to PREFETCH_CHUNKS. -/
def State.fetchAhead (s : State) (x : TileP) (cells : List Nat) : List PreChunk :=
  let n := min (s.cfg Reg.ARR_TILER_CFG Fld.ARR_TILER_CFG_PREFETCH_CHUNKS) x.chunks
  (dealTiles cells (gOf x.acc x.L x.sw.gMax) x.sw.total 1 0 0).flatMap (fun t => (List.range n).map (fun c =>
    let q := s.chunkOps x t.num c
    { cell := t.cell, tile := t.num, chunk := c, rows := q.1, cols := q.2 }))

/-- R191-R194. PREFETCH_START: the Tiler chooses the next eligible descriptor, and fetches the first chunks of a SWEEP into the idle half
of the Tiler areas. -/
def execPrefetchStart (s : State) : Host.Outcome State Fault Refusal :=
  .next (match s.arr.run with
    | some r => match s.findStarted r.ring r.seq with
      | some d =>
        if s.cfg Reg.ARR_TILER_CFG Fld.ARR_TILER_CFG_OVERLAP = 1 && s.arr.prefetch.isNone then
          match s.arrayOrder.findSome? (fun n => match (s.sqSt n).fetched with
              | f :: _ => if s.eligible d n f then some (n, f) else none
              | [] => none) with
          | some (n, f) =>
            let cells := if dOPCODE f.bytes = 0x1001 then s.activeSet else []
            State.clockCells { s with
              rrLast := tblPut (fun _ => 31) s.rrLast 0 n
              arr := { s.arr with
                prefetch := some (n, f.seq), preCells := cells, tilerHits := s.arr.tilerHits.filter (·.2 == s.arr.half)
                pre := if dOPCODE f.bytes = 0x1001 then s.fetchAhead (tileP f.bytes (s.peekParam n f)) cells else [] } }
          | none => s
        else s
      | none => s
    | none => s)

/-- R198. FENCE_CLEAR_WRITE: a write of FENCE_BLOCK or of FENCE_CELL[b] clears the fence bits written as 1 at the next
descriptor start. -/
def execFenceClearWrite (block : Option Nat) (value : Word) (s : State) : Host.Outcome State Fault Refusal :=
  .next (match block with
    | none => { s with arr := { s.arr with clearBlock := s.arr.clearBlock ||| (s.reg Reg.ARR_FENCE_BLOCK &&& value).toNat } }
    | some b =>
      if b < 64 then
        { s with arr := { s.arr with
          clearCell := tblPut zeroAt s.arr.clearCell b (tblGet zeroAt s.arr.clearCell b ||| (s.reg (Reg.ARR_FENCE_CELL b) &&& value).toNat) } }
      else s)

end Sys2Proof.Machine
end

