-- ==== Sys2Proof/Machine/Reduce.lean ====
section
/-!
DEFINITION. The reduce engines as ranks (spec/08 R358-R403): the statistic, quantisation, error memory, CONTRIB, the output,
the digest log, and the tokens that a rank sends.
-/
namespace Sys2Proof.Machine

open Sys2Proof

/-! ### Operands (R360, R361) -/

structure RedP where
  engine : Nat
  mode : Nat
  gFmt : Nat
  outFmt : Nat
  rank : Nat
  n : Nat
  bucket : Nat
  coll : Nat
  opts : Nat
  homeEng : Nat
  homeChip : Nat
  count : Nat
  step : Nat
  grad : Nat
  out : Nat
  seedLo : Nat
  seedHi : Nat
  emPage : Nat
  deriving DecidableEq, Repr

def redP (b p : List Byte) : RedP where
  engine := leAt b 36 1
  mode := leAt b 37 1
  gFmt := leAt b 38 1
  outFmt := leAt b 39 1
  rank := leAt b 40 4
  n := leAt b 44 4
  bucket := leAt b 48 4
  coll := leAt b 52 2
  opts := leAt b 54 1
  homeEng := leAt b 55 1
  homeChip := leAt b 56 2
  count := leAt b 60 4
  step := dSTEP b
  grad := leAt p 0 8
  out := leAt p 8 8
  seedLo := leAt p 16 8
  seedHi := leAt p 24 8
  emPage := leAt p 32 4

/-- OPTS.EM. -/
def RedP.em (x : RedP) : Bool := bitOf x.opts 0

/-- R370. Pages of a half of the bucket's error memory. -/
def RedP.half (x : RedP) : Nat := ceilDiv (4 * x.count) 4096

/-- Bytes of the gradient. -/
def RedP.gradLen (x : RedP) : Nat := x.count * (elemBits x.gFmt / 8)

/-- R375. Bytes of a lane. -/
def laneBytes (mode n : Nat) : Nat :=
  if mode = 3 then 8
  else if mode = 0 then (if n < 2 ^ 31 then 4 else 8)
  else if mode = 1 then (if n ≤ 2 ^ 23 then 4 else 8)
  else (if n ≤ 2 ^ 15 then 4 else 8)

/-- R375, R376. The table calls for BOUND_EXT. -/
def boundExt (mode n : Nat) : Bool := mode != 3 && laneBytes mode n == 8

/-- R378. Bytes of the output. -/
def RedP.outLen (x : RedP) : Nat := if x.outFmt = 0 then 64 + x.count * laneBytes x.mode x.n else 4 * x.count

/-- R362. What completes a REDUCE with BAD_OPERAND, but for ENGINE and a second descriptor of the same rank. -/
def State.reduceBad (s : State) (b p : List Byte) : Bool :=
  let x := redP b p
  x.mode > 3 || !([5, 6].contains x.gFmt) || !([0, 6].contains x.outFmt) || x.n == 0 || x.rank ≥ x.n || x.bucket > 65535 || x.opts > 1 ||
    x.homeEng > 15 || !zeroBytes b 58 59 || x.count == 0 || x.count > 2 ^ 20 || !zeroBytes p 36 63 || x.grad % 64 != 0 ||
    x.out % 64 != 0 || (x.mode == 0 && !x.em) || !s.inOwnMem x.grad x.gradLen || !s.inOwnMem x.out x.outLen ||
    s.overlap (x.grad, x.gradLen) (x.out, x.outLen) ||
    (x.em && x.emPage + 2 * x.half > s.cfg (Reg.LDG_ERRMEM_SIZE (x.engine / 2)) Fld.LDG_ERRMEM_SIZE_PAGES)

/-! ### Arithmetic of a rank (R365, R371-R373) -/

/-- R372. rnd(i). -/
def redRnd (seedLo seedHi rank bucket i : Nat) : Nat :=
  let m := 2 ^ 64
  let z := seedLo % m ^^^ (rank * 0x9E3779B97F4A7C15) % m
  let z := (z + bucket * 2 ^ 32 + i) % m
  let z := z ^^^ (seedHi % m)
  let z := ((z ^^^ (z / 2 ^ 30)) * 0xBF58476D1CE4E5B9) % m
  let z := ((z ^^^ (z / 2 ^ 27)) * 0x94D049BB133111EB) % m
  (z ^^^ (z / 2 ^ 31)) / 2 ^ 40

/-- R365. The largest ⌊log2 |x|⌋, or the statistic of SIGN1. -/
def redStat (mode count : Nat) (xs : List FVal) : Int :=
  if mode = 0 then
    let sum := (optSum (Nat.log2 (2 * xs.length) + 1) (xs.map (fun v => if v.isFin then some v.abs else none))).getD (.fin false 0 0)
    match fmul fA32 sum (fdiv fA32 (.fin false 1 0) (.fin false count 0)) with
    | .fin _ m e => if m = 0 then -32768 else (Nat.log2 m : Int) + e
    | _ => 127
  else xs.foldl (fun a v => match v with
    | .fin _ m e => if m = 0 then a else max a ((Nat.log2 m : Int) + e)
    | _ => a) (-32768)

/-- R371. k. -/
def redK (mode : Nat) : Int := if mode = 1 then 6 else if mode = 2 then 14 else if mode = 3 then 30 else 0

/-- R371. Rounding of y = num / 2^d. -/
def redRound (mode : Nat) (num : Int) (d rnd : Nat) : Int :=
  let den : Int := 2 ^ d
  let fl := num / den
  let r := num - fl * den
  if mode = 3 then
    (if 2 * r > den || (2 * r = den && fl % 2 = 1) then fl + 1 else fl)
  else if (rnd : Int) < r * 2 ^ 24 / den then fl + 1 else fl

/-- R371. The quantised value and the new residual of an element. -/
def quantise (mode : Nat) (E : Int) (rnd : Nat) (x : FVal) : Int × FVal :=
  match x with
  | .fin n m e =>
    if E = -32768 then (0, x.round fA32)
    else
      let k := redK mode
      let v : Int := if n then -(m : Int) else m
      let sh := e + k - E
      let q : Int :=
        if mode = 0 then (if v < 0 then -1 else 1)
        else
          let qmax : Int := if mode = 1 then 127 else if mode = 2 then 32767 else 2 ^ 31 - 1
          let q := if sh ≥ 0 then v * 2 ^ sh.toNat else redRound mode v (-sh).toNat rnd
          min (max q (-qmax)) qmax
      (q, if q = 0 then x.round fA32 else (x.add (.fin (decide (0 < q)) q.natAbs (E - k))).round fA32)
  | _ => (0, .fin false 0 0)

/-- R373. The payload of a contribution. -/
def packQ (mode : Nat) (qs : List Int) : List Byte :=
  if mode = 0 then (chunksOf 8 qs.length qs).map (fun c =>
    BitVec.ofNat 8 ((List.range c.length).map (fun i => if c.getD i 0 < 0 then 2 ^ i else 0)).sum)
  else qs.flatMap (fun q => leBytes (if mode = 1 then 1 else if mode = 2 then 2 else 4) (tc 32 q))

/-- Bytes of a payload. -/
def payloadLen (mode count : Nat) : Nat :=
  if mode = 0 then ceilDiv count 8 else if mode = 1 then count else if mode = 2 then 2 * count else 4 * count

/-- The quantised values of a payload. -/
def unpackQ (mode count : Nat) (p : List Byte) : List Int :=
  (List.range count).map (fun i =>
    if mode = 0 then (if bitOf (leAt p (i / 8) 1) (i % 8) then -1 else 1)
    else if mode = 1 then sext 8 (leAt p i 1) else if mode = 2 then sext 16 (leAt p (2 * i) 2) else sext 32 (leAt p (4 * i) 4))

/-! ### Digests (R388-R391) -/

/-- R388. CRC-64 of bytes. -/
def crc64 (b : List Byte) : Nat := crcNormBytes 64 0x42F0E1EBA9EA3693 0 b

/-- R389. The item CRC. -/
def itemCrc (rank step bucket mode : Nat) (E : Int) (payload : List Byte) : Nat :=
  crc64 (leBytes 4 rank ++ leBytes 4 step ++ leBytes 4 bucket ++ leBytes 1 mode ++ leBytes 1 (tc 8 E) ++ leBytes 2 0 ++ payload)

/-! ### Packets (R364) -/

/-- The first 16 bytes of a reduce body. -/
def redHead (coll ver epoch step bucket rank : Nat) : List Byte :=
  leBytes 2 coll ++ leBytes 1 ver ++ leBytes 1 epoch ++ leBytes 4 step ++ leBytes 4 bucket ++ leBytes 4 rank

def rColl (k : Packet) : Nat := leAt k.body 0 2
def rVer (k : Packet) : Nat := leAt k.body 2 1
def rEpoch (k : Packet) : Nat := leAt k.body 3 1
def rStep (k : Packet) : Nat := leAt k.body 4 4
def rBucket (k : Packet) : Nat := leAt k.body 8 4
def rRank (k : Packet) : Nat := leAt k.body 12 4

/-- R434. FLAGS.UNCONFIRMED. -/
def pUnconf (k : Packet) : Bool := bitOf k.flags 0

/-- Segments of up to 4,064 bytes with their offsets. -/
def segments (d : List Byte) : List (Nat × List Byte) :=
  let cs := chunksOf 4064 (d.length / 4064 + 1) d
  (List.range cs.length).map (fun i => (4064 * i, cs.getD i []))

/-- A segment joins the ones that have come; a repeated offset replaces. -/
def addSeg (segs : List (Nat × List Byte)) (off : Nat) (d : List Byte) : List (Nat × List Byte) :=
  segs.filter (fun x => x.1 < off) ++ (off, d) :: segs.filter (fun x => off < x.1)

/-- The bytes of segments that have come. -/
def segBytes (segs : List (Nat × List Byte)) : List Byte := segs.flatMap (·.2)

/-! ### The rank's reads -/

/-- The context of a rank's reports. -/
def rankCtx (n eng : Nat) (b : List Byte) : Ctx :=
  { ctxOf n b (0x48 + eng / 2) (0x21 + eng % 2) with region := some (eng / 2), eng := some eng, fn := some (0x40 + eng) }

/-- R433, R500. A reduce engine reads a page that is pending without a check of its CRC; staging SRAM that a reset has unmapped
fails it. -/
def State.rankRead (s : State) (c : Ctx) (addr n : Nat) : State × Option Nat :=
  if s.resetGone 0 addr n then (s.unmapped addr c, some 0x14)
  else match foldChecks s (fun s p =>
      if s.isPending p.1 && !s.isWithdrawn p.1 then (s, none) else s.tagReadPage c p.1 p.2 none none) (s.pagesWhole addr n) with
  | (s', none) => s'.poisonCheck c addr n
  | r => r

/-- R228, R370. The address of half `h` of a bucket's error memory: the register holds a module offset of this module. -/
def State.emAddr (s : State) (x : RedP) (h : Nat) : Nat :=
  ownAt ((s.cfg (Reg.LDG_ERRMEM_BASE (x.engine / 2)) Fld.LDG_ERRMEM_BASE_BASE + x.emPage + h * x.half) * 4096)

/-- R365. x of every element. -/
def State.redXs (s : State) (x : RedP) : List FVal :=
  let g := s.gread x.grad x.gradLen
  let w := elemBits x.gFmt / 8
  let e := if x.em then s.gread (s.emAddr x (x.step % 2)) (4 * x.count) else []
  (List.range x.count).map (fun i =>
    fadd fA32 (elemVal x.gFmt (leAt g (w * i) w)) (if x.em then ofF32 (leAt e (4 * i) 4) else .fin false 0 0))

/-- R365, R411, R433. The rank reads its gradient and residuals. -/
def State.redReads (s : State) (c : Ctx) (x : RedP) : State × Option Nat :=
  match s.rankRead c x.grad x.gradLen with
  | (s', none) => if x.em then s'.rankRead c (s'.emAddr x (x.step % 2)) (4 * x.count) else (s', none)
  | r => r

/-- R433, R434. The pending pages of a gradient, with their tickets. -/
def State.redDeps (s : State) (x : RedP) : List (Nat × Nat) :=
  let ps := s.gpages x.grad x.gradLen
  (s.pages.filter (fun e => ps.contains e.page)).map (fun e => (e.page, e.ticket))

/-- R434. The latest issued of tickets. -/
def State.latestTicket (s : State) (ts : List Nat) : Nat :=
  let lo := s.fget Reg.INTG_TICKET Fld.INTG_TICKET_SETTLED
  ts.foldl (fun a t => if subMod 16 a lo < subMod 16 t lo then t else a) (ts.headD 0)

/-! ### Sending -/

/-- Change a rank. -/
def State.updRank (s : State) (n seq : Nat) (f : RankRun → RankRun) : State :=
  { s with ranks := updFirst (fun k => k.ring == n && k.seq == seq) f s.ranks }

def State.findRank (s : State) (n seq : Nat) : Option RankRun := s.ranks.find? (fun k => k.ring == n && k.seq == seq)

/-- A packet of a rank to its home; ADDR names the home engine (assumption 22). -/
def State.toHome (s : State) (k : RankRun) (kind vc : Nat) (rest : List Byte) : State :=
  let x := redP k.bytes k.param
  s.send (x.engine / 2)
    { dst := x.homeChip, src := 0, kind := kind, gen := s.gen (0x40 + x.engine), addr := x.homeEng, layer := dLAYER k.bytes, op := dOP k.bytes,
      flags := if vc = 2 && k.unconf then 1 else 0,
      tag := if vc = 2 && k.unconf then s.latestTicket (k.deps.map (·.2)) else 0,
      body := redHead x.coll k.ver k.epoch x.step x.bucket x.rank ++ rest, vc := vc }

/-- R437. The first instant at which data of tickets left, and the link die whose engine sent it. -/
def State.noteSend (s : State) (r : Nat) (ts : List Nat) : State :=
  ts.foldl (fun s t => s.updTicket t (fun x => if x.firstSend.isSome then x else { x with firstSend := some (r, s.clk.now) })) s

/-- R435, R478. Link die r discards UNCONFIRMED packets of ticket t. -/
def State.fencedAt (s : State) (r t : Nat) : Bool :=
  let l := tblGet (fun _ => []) s.quar.fenced r
  l.contains t || l.length ≥ 64

/-- R395, R435. A rank retracts the version it sent, or lost at the egress, and waits for the ticket. -/
def State.rankRetract (s : State) (k : RankRun) (t : Nat) : State :=
  (s.toHome k 0x31 0 []).updRank k.ring k.seq (fun x => { x with lost := some t, tokens := x.tokens ++ [(0x31, x.ver)] })

/-- R363 step 1, R364, R435. A rank sends EXP, or loses it when data of a fenced ticket would travel UNCONFIRMED. -/
def State.sendExp (s : State) (k : RankRun) (dead : Option Int) : State :=
  let x := redP k.bytes k.param
  match k.deps.find? (fun d => s.fencedAt (x.engine / 2) d.2) with
  | some d => s.rankRetract k d.2
  | none =>
    let s1 := s.toHome k 0x20 2 (leBytes 2 (tc 16 k.stat) ++ leBytes 1 x.mode ++ leBytes 1 x.engine ++ leBytes 4 x.n ++ leBytes 4 x.count ++
      leBytes 4 (match dead with | some t => tc 32 t | none => 0))
    s1.noteSend (x.engine / 2) (k.deps.map (·.2))

/-- A rank's descriptor ends. -/
def State.finishRank (s : State) (k : RankRun) (d : Done) : State :=
  (s.endRank k.ring k.seq).setDone k.ring k.seq { d with die := 0x48 + k.eng / 2, unit := 0x21 + k.eng % 2 }

/-- R365, R399. A rank reads its gradient and residuals for a version, forms the statistic and sends EXP. -/
def State.rankRead1 (s : State) (k : RankRun) (dead : Option Int) : State :=
  let x := redP k.bytes k.param
  let r := s.redReads (rankCtx k.ring k.eng k.bytes) x
  match r.2 with
  | some cls => r.1.finishRank k { status := stFAULTED, cls := cls }
  | none =>
    let xs := s.redXs x
    let deps := s.redDeps x
    let k1 := { k with xs := xs, stat := redStat x.mode x.count xs, deps := deps, unconf := !deps.isEmpty, lost := none, busyAt := none }
    let s1 := (r.1.updRank k.ring k.seq (fun _ => k1)).bump (Reg.RED_CNT_B k.eng) Fld.RED_CNT_B_NONFINITE (xs.filter (fun v => !v.isFin)).length
    s1.sendExp k1 dead

/-- R358, R363. The REDUCE command: the started descriptor becomes a rank. -/
def execReduce (n seq : Nat) (ecc : EccFinds) (z : State) : Host.Outcome State Fault Refusal :=
  let s := z.eccAll ecc
  .next (match s.findStarted n seq with
    | some d =>
      if dOPCODE d.bytes = 0x3010 && !d.begun && d.done.isNone then
        let k : RankRun := { ring := n, seq := seq, eng := leAt d.bytes 36 1, bytes := d.bytes, param := d.param }
        let x := redP d.bytes d.param
        let old (q : RankRun) : Bool := q.closed && q.eng == k.eng &&
          (let y := redP q.bytes q.param; y.coll == x.coll && y.step == x.step && y.bucket == x.bucket && y.rank == x.rank)
        let s1 : State := { s with ranks := s.ranks.filter (fun q => !old q) ++ [k] }
        (s1.updStarted n seq (fun x => { x with begun := true })).rankRead1 k d.deadline
      else s
    | none => s)

/-! ### Packets of the home at the rank -/

/-- The rank that a reduce packet addresses; ADDR names its engine. -/
def rankOf (k : Packet) (q : RankRun) : Bool :=
  let x := redP q.bytes q.param
  q.eng == k.addr && x.coll == rColl k && x.step == rStep k && x.bucket == rBucket k && x.rank == rRank k

/-- R387. A stale packet or token at engine e. -/
def State.staleRed (s : State) (e : Nat) : State := s.bump (Reg.RED_CNT_B e) Fld.RED_CNT_B_STALE 1

/-- A delivered packet of a KIND reaches its rank: the packet of an earlier GEN is dropped (R118, R387), one for no running
rank is counted as stale. -/
def State.atRank (s : State) (kind : Nat) (k : Packet) (f : State → RankRun → State) (ended : State → RankRun → State) : State :=
  if k.kind != kind then s
  else match s.take k with
    | none => s
    | some s1 =>
      if k.addr > 15 then s1
      else if k.gen != s1.gen (0x40 + k.addr) then s1.dropStale (0x40 + k.addr)
      else match s1.ranks.find? (rankOf k) with
        | some q => if q.closed then ended s1 q else f s1 q
        | none => s1.staleRed k.addr

/-- What a packet to a rank that has ended does. -/
def lateRank (s : State) (q : RankRun) : State := s.staleRed q.eng

/-- R384. BUSY. -/
def execBusy (pkt : Packet) (s : State) : Host.Outcome State Fault Refusal :=
  .next (s.atRank 0x25 pkt (fun s q => s.updRank q.ring q.seq (fun x => { x with busyAt := some s.clk.now })) lateRank)

/-- R384. Two microseconds after BUSY, the EXP is sent again, until the deadline. -/
def execExpRetryTimer (n seq : Nat) (s : State) : Host.Outcome State Fault Refusal :=
  .next (match s.findRank n seq, s.findStarted n seq with
    | some q, some d => match q.busyAt with
      | some t =>
        let s1 := (s.reach (t + 2000)).updRank n seq (fun x => { x with busyAt := none })
        if q.closed || (d.deadline.any (fun t => decide (t ≤ s1.time))) then s1 else s1.sendExp q d.deadline
      | none => s
    | _, _ => s)

/-- R371, R374, R389. The rank quantises, writes its residuals, and sends its contribution. -/
def State.contribute (s : State) (q : RankRun) (E : Int) : State :=
  let x := redP q.bytes q.param
  let rs := (List.range q.xs.length).map (fun i =>
    quantise x.mode E (redRnd x.seedLo x.seedHi x.rank x.bucket i) (q.xs.getD i .nan))
  let r := if x.em then
      s.awareWrites (rankCtx q.ring q.eng q.bytes) 0x20 x.step defaultId
        [(s.emAddr x ((x.step + 1) % 2), rs.flatMap (fun v => leBytes 4 (toF32 v.2)))]
    else (s, none)
  match r.2 with
  | some cls => r.1.finishRank q { status := stFAULTED, cls := cls }
  | none =>
    let pay := packQ x.mode (rs.map (·.1))
    let c := itemCrc x.rank x.step x.bucket x.mode E pay
    let q1 := { q with c := c, unconf := !q.deps.isEmpty }
    let s1 := ((r.1.evCount (0x48 + q.eng / 2) 0x64 x.count (dLAYER q.bytes) (dOP q.bytes)).updRank q.ring q.seq (fun _ => q1)).noteSend (q.eng / 2) (q1.deps.map (·.2))
    match q1.deps.find? (fun d => s1.fencedAt (q.eng / 2) d.2) with
    | some d => s1.rankRetract q1 d.2
    | none => (segments pay).foldl (fun s g => s.toHome q1 0x22 2 (leBytes 8 c ++ leBytes 4 g.1 ++ leBytes 4 0 ++ g.2)) s1

/-- R371, R387, R399. GRANT. -/
def execGrant (pkt : Packet) (ecc : EccFinds) (z : State) : Host.Outcome State Fault Refusal :=
  let s := z.eccAll ecc
  .next (s.atRank 0x21 pkt (fun s q =>
    if rVer pkt < q.ver || rEpoch pkt < q.epoch then s.staleRed q.eng
    else if rVer pkt != q.ver || q.lost.isSome then s
    else
      let s1 := if q.epoch < rEpoch pkt then s.bump (Reg.RED_CNT_A q.eng) Fld.RED_CNT_A_RESTARTS 1 else s
      let q1 := { q with epoch := rEpoch pkt }
      (s1.updRank q.ring q.seq (fun _ => q1)).contribute q1 (sext 16 (leAt pkt.body 16 2))) lateRank)

/-- R378. The dequantised value of a lane, as binary32. -/
def deqLane (mode : Nat) (E L : Int) : FVal :=
  ((FVal.round fA32 (.fin (decide (L < 0)) L.natAbs 0)).mul (.fin false 1 (E - redK mode))).round fA32

/-- Where the digest-log entry of a bucket lies (R392). -/
def State.dlogAddr (s : State) (e step bucket : Nat) : Nat :=
  s.cfg (Reg.RED_DLOG_BASE e) Fld.RED_DLOG_BASE_BASE * 4096 +
    (step % 2 ^ s.cfg (Reg.RED_DLOG_CFG e) Fld.RED_DLOG_CFG_LOG2_STEPS * 65536 + bucket) * 32

/-- R378. The output of a rank from a RESULT. -/
def redOutput (x : RedP) (h : HeldRes) : List Byte :=
  let b := segBytes h.segs
  if x.outFmt = 0 then
    leBytes 2 (tc 16 h.e) ++ leBytes 1 x.mode ++ leBytes 1 h.lane ++ leBytes 4 x.n ++ leBytes 4 x.count ++ leBytes 4 x.step ++
      leBytes 8 h.h ++ List.replicate 40 0#8 ++ b
  else (List.range x.count).flatMap (fun i =>
    leBytes 4 (toF32 (if h.e = -32768 then .fin false 0 0 else deqLane x.mode h.e (sext (8 * h.lane) (leAt b (h.lane * i) h.lane)))))

/-- R379, R392, R376. A rank writes the output and the log entry of a final RESULT and completes. -/
def State.finalResult (s : State) (q : RankRun) (h : HeldRes) : State :=
  let x := redP q.bytes q.param
  let c := rankCtx q.ring q.eng q.bytes
  let la := s.dlogAddr q.eng x.step x.bucket
  let fl := (if h.ext then 2 else 0) + (if q.ver = 0 then 0 else 4)
  let r := foldChecks s (fun s (w : Nat × Nat × List Byte) => s.awareWrites c w.1 x.step defaultId [w.2])
    [(if x.outFmt = 0 then 0x21 else 0x06, x.out, redOutput x h),
     (0, la, leBytes 4 x.step ++ leBytes 4 x.rank ++ leBytes 8 q.c ++ leBytes 8 h.h ++ leBytes 4 x.bucket ++ leBytes 4 fl),
     (0, la + 28, leBytes 1 (fl + 1))]
  match r.2 with
  | some cls => r.1.finishRank q { status := stFAULTED, cls := cls }
  | none =>
    (r.1.updRank q.ring q.seq (fun k => { k with sure := k.sure ++ [h.seq] })).finishRank q
      { status := stSUCCESS, cls := if h.ext then 0x0D else 0, flags := if h.ext then flBOUND_EXT else 0, result := h.h }

/-- Every lane of a RESULT has come. -/
def HeldRes.whole (h : HeldRes) (count : Nat) : Bool := count * h.lane ≤ (segBytes h.segs).length

/-- R379, R387, R400, R401. A RESULT segment. -/
def execResult (pkt : Packet) (s : State) : Host.Outcome State Fault Refusal :=
  .next (s.atRank 0x23 pkt (fun s q =>
    if rEpoch pkt < q.epoch then s.staleRed q.eng
    else if q.gone.contains (rVer pkt) then s
    else
      let x := redP q.bytes q.param
      let h0 : HeldRes := match q.res with
        | some h => if h.seq = rVer pkt then h else
            { seq := rVer pkt, e := 0, lane := 4, ext := false, h := 0, segs := [], final := false, since := s.clk.now }
        | none => { seq := rVer pkt, e := 0, lane := 4, ext := false, h := 0, segs := [], final := false, since := s.clk.now }
      let h : HeldRes := { h0 with e := sext 16 (leAt pkt.body 16 2), lane := leAt pkt.body 18 1, ext := bitOf (leAt pkt.body 19 1) 0,
                                   h := leAt pkt.body 20 8, segs := addSeg h0.segs (leAt pkt.body 28 4) (pkt.body.drop 32),
                                   final := !pUnconf pkt || q.sure.contains (rVer pkt) }
      let s1 := s.updRank q.ring q.seq (fun k => { k with res := some h })
      if h.whole x.count && h.final then s1.finalResult q h else s1) lateRank)

/-- R382, R385, R386. ABORT. -/
def execAbort (pkt : Packet) (s : State) : Host.Outcome State Fault Refusal :=
  .next (s.atRank 0x24 pkt (fun s q =>
    let reason := leAt pkt.body 16 2
    if reason = 1 then
      s.finishRank q { status := stDEADLINE, result := (redP q.bytes q.param).homeChip * 2 ^ 32 + leAt pkt.body 20 4 }
    else if reason = 2 then s.finishRank q { status := stREFUSED }
    else if reason = 3 then s.finishRank q { status := stBAD_OPERAND }
    else s) lateRank)

/-- R400. RESULT_CONFIRM: a held RESULT becomes final; one that has not come whole is final when it has. -/
def execResultConfirm (pkt : Packet) (s : State) : Host.Outcome State Fault Refusal :=
  .next (s.atRank 0x32 pkt (fun s q =>
    if q.sure.contains (rVer pkt) || q.gone.contains (rVer pkt) then s.staleRed q.eng
    else match q.res with
      | some h =>
        if h.seq = rVer pkt && h.whole (redP q.bytes q.param).count then s.finalResult q h
        else s.updRank q.ring q.seq (fun k => { k with sure := k.sure ++ [rVer pkt] })
      | none => s.updRank q.ring q.seq (fun k => { k with sure := k.sure ++ [rVer pkt] })) lateRank)

/-- R401, R442. RESULT_RETRACT: the rank drops the RESULT; one that it has used already is reported. -/
def execResultRetract (pkt : Packet) (s : State) : Host.Outcome State Fault Refusal :=
  .next (s.atRank 0x33 pkt (fun s q =>
    if q.gone.contains (rVer pkt) then s.staleRed q.eng
    else s.updRank q.ring q.seq (fun k => { k with
      gone := k.gone ++ [rVer pkt]
      res := match k.res with | some h => if h.seq = rVer pkt then none else some h | none => none })) (fun s q =>
    if q.sure.contains (rVer pkt) then
      s.report 0x01 3 { rankCtx q.ring q.eng q.bytes with vals := [pkt.src, rBucket pkt] }
    else s.staleRed q.eng))

/-- R402, R438, R441. The Steep window of a held RESULT expires. -/
def execResultSteepExpire (n seq : Nat) (s : State) : Host.Outcome State Fault Refusal :=
  .next (match s.findRank n seq with
    | some q => match q.res with
      | some h =>
        if h.final || q.closed then s
        else
          let s1 := s.reach (h.since + s.cfg Reg.INTG_STEEP Fld.INTG_STEEP_WINDOW_NS)
          let s2 := s1.bump Reg.INTG_STEEP_CNT Fld.INTG_STEEP_CNT_EXPIRED 1
          let s3 := s2.report 0x02 2 { rankCtx n q.eng q.bytes with unit := 0x27, vals := [(redP q.bytes q.param).homeChip, (redP q.bytes q.param).bucket] }
          s3.finishRank q { status := stFAULTED, cls := 0x02 }
      | none => s
    | none => s)

/-! ### Tickets at the ranks (R395, R435, R436) -/

/-- R395. A page of a ticket that ranks read is confirmed: a rank with no further pending page confirms its version. -/
def State.rankPageConfirmed (s : State) (page t : Nat) : State :=
  s.ranks.foldl (fun s q =>
    if q.lost.isNone && q.deps.contains (page, t) then
      let q1 := { q with deps := q.deps.filter (· != (page, t)) }
      let s1 := s.updRank q.ring q.seq (fun _ => q1)
      if q1.deps.isEmpty && q.unconf then
        (s1.toHome q1 0x30 0 []).updRank q.ring q.seq (fun k => { k with unconf := false, tokens := k.tokens ++ [(0x30, k.ver)] })
      else s1
    else s) s

/-- R435. Link die r fences a ticket: the ranks of its engines that sent data of it retract. -/
def State.rankFence (s : State) (r t : Nat) : State :=
  s.ranks.foldl (fun s q => if q.eng / 2 == r && q.lost.isNone && q.deps.any (·.2 == t) then s.rankRetract q t else s) s

/-- R436. A ticket has settled: the ranks that retracted data of it read it again. -/
def State.rankSettled (s : State) (t : Nat) : State :=
  s.ranks.foldl (fun s q =>
    if q.lost = some t && !q.closed then
      let dead := match s.findStarted q.ring q.seq with | some d => d.deadline | none => none
      s.rankRead1 { q with ver := (q.ver + 1) % 256, deps := [], lost := none } dead
    else s) s

/-! ### DIGEST_CLOSE (R393) -/

/-- R393. What completes a DIGEST_CLOSE with BAD_OPERAND, but for ENGINE. -/
def digestBad (b : List Byte) : Bool :=
  !zeroBytes b 25 27 || leAt b 32 4 == 0 || leAt b 32 4 > 65536 || !zeroBytes b 36 39 || leAt b 40 8 % 64 != 0 || !zeroBytes b 48 63

/-- R393. The digests of a step's log entries: SENT, RECV, entries used. -/
def digests (log : List Byte) (step buckets : Nat) : Nat × Nat × Nat :=
  let es := (List.range buckets).filterMap (fun i =>
    let e := (log.drop (32 * i)).take 32
    if bitOf (leAt e 28 4) 0 && leAt e 0 4 == step then some (i, e) else none)
  (crc64 (es.flatMap (fun e => (e.2.drop 4).take 4 ++ leBytes 4 e.1 ++ (e.2.drop 8).take 8)),
   crc64 (es.flatMap (fun e => leBytes 4 e.1 ++ (e.2.drop 16).take 8)), es.length)

/-- R393. DIGEST_CLOSE of a started descriptor. -/
def digestClose (s : State) (d : Started) : State :=
  let b := d.bytes
  let e := leAt b 24 1
  let c := rankCtx d.ring e b
  let step := leAt b 28 4
  let n := leAt b 32 4
  let log := s.dlogAddr e step 0
  let out (cls : Nat) : Done := { status := stFAULTED, cls := cls, die := 0x48 + e / 2, unit := 0x21 + e % 2 }
  let r := s.rankRead c log (32 * n)
  match r.2 with
  | some cls => r.1.setDone d.ring d.seq (out cls)
  | none =>
    let g := digests (s.gread log (32 * n)) step n
    let data := leBytes 4 step ++ leBytes 4 g.2.2 ++ leBytes 8 g.1 ++ leBytes 8 g.2.1 ++ leBytes 4 (n - g.2.2) ++ List.replicate 36 0#8
    let w := match s.gloc (leAt b 40 8) with
      | .remote _ _ => (r.1.gwrite (.link (e / 2) (originOfDesc d.ring d.seq b)) 4 (leAt b 40 8) data, none)
      | _ => r.1.awareWrites c 0 (dSTEP b) defaultId [(leAt b 40 8, data)]
    match w.2 with
    | some cls => w.1.setDone d.ring d.seq (out cls)
    | none => w.1.setDone d.ring d.seq { status := stSUCCESS, result := g.2.1, die := 0x48 + e / 2, unit := 0x21 + e % 2 }

/-- R393. The DIGEST_CLOSE command. -/
def execDigestClose (n seq : Nat) (ecc : EccFinds) (z : State) : Host.Outcome State Fault Refusal :=
  let s := z.eccAll ecc
  .next (match s.findStarted n seq with
    | some d => if dOPCODE d.bytes = 0x3018 && d.done.isNone then digestClose s d else s
    | none => s)

end Sys2Proof.Machine
end

