-- ==== Sys2Proof/Machine/ReduceHome.lean ====
section
/-!
DEFINITION. The reduce engines as homes (spec/08 R363-R403): EXP and the shared exponent, grants, contributions and lanes,
RESULT, deadlines, and the retraction journal.
-/
namespace Sys2Proof.Machine

open Sys2Proof

/-- The key that names a bucket. -/
def HomeBucket.isKey (h : HomeBucket) (e coll step bucket : Nat) : Bool :=
  h.eng == e && h.coll == coll && h.step == step && h.bucket == bucket

/-- The bucket of a packet at its home engine. -/
def State.homeOf (s : State) (k : Packet) : Option HomeBucket :=
  s.homes.find? (·.isKey k.addr (rColl k) (rStep k) (rBucket k))

/-- Replace a bucket. -/
def State.putHome (s : State) (h : HomeBucket) : State :=
  { s with homes := updFirst (·.isKey h.eng h.coll h.step h.bucket) (fun _ => h) s.homes }

/-- A bucket leaves its home. -/
def State.dropHome (s : State) (h : HomeBucket) : State :=
  { s with homes := dropFirst (·.isKey h.eng h.coll h.step h.bucket) s.homes }

/-- What the home knows of a rank. -/
def HomeBucket.rankAt (h : HomeBucket) (j : Nat) : Option HomeRank := h.ranks.find? (·.rank == j)

/-- Change a rank of a bucket. -/
def HomeBucket.updRank (h : HomeBucket) (j : Nat) (f : HomeRank → HomeRank) : HomeBucket :=
  { h with ranks := updFirst (·.rank == j) f h.ranks }

/-- R368. NEXT: the lowest rank not consumed. -/
def HomeBucket.next (h : HomeBucket) : Nat :=
  ((List.range (h.ranks.length + 1)).find? (fun j => !(h.ranks.any (fun r => r.rank == j && r.eaten)))).getD h.ranks.length

/-- The context of a home's reports about a bucket. -/
def homeCtx (h : HomeBucket) (vals : List Nat) : Ctx :=
  let r := h.ranks.head?
  { die := 0x48 + h.eng / 2, unit := 0x21 + h.eng % 2, eng := some h.eng, fn := some (0x40 + h.eng),
    layer := match r with | some x => x.layer | none => 0xFFFF, op := match r with | some x => x.op | none => 0xFFFF, vals := vals }

/-- R404. Reduce tokens of engine e are issued or returned. -/
def State.issueTok (s : State) (e n : Nat) : State := s.count (Reg.RED_AUDIT e) Fld.RED_AUDIT_ISSUED n
def State.returnTok (s : State) (e n : Nat) : State := s.count (Reg.RED_AUDIT e) Fld.RED_AUDIT_RETURNED n

/-- The tokens that a bucket's grants hold. -/
def HomeBucket.held (h : HomeBucket) : Nat := (h.ranks.filter (·.granted)).length

/-- A packet of the home to a rank; its GEN is that of the rank's engine, and ADDR names the engine (assumption 22). -/
def State.toRank (s : State) (h : HomeBucket) (r : HomeRank) (kind vc ver flags : Nat) (rest : List Byte) : State :=
  s.send (h.eng / 2)
    { dst := r.chip, src := 0, kind := kind, flags := flags, gen := r.gen, addr := r.eng, layer := r.layer, op := r.op,
      body := redHead h.coll ver h.epoch h.step h.bucket r.rank ++ rest, vc := vc }

/-- A packet to every rank heard from. -/
def State.toRanks (s : State) (h : HomeBucket) (kind vc ver flags : Nat) (rest : List Byte) : State :=
  h.ranks.foldl (fun s r => s.toRank h r kind vc ver flags rest) s

/-- R381, R385, R386. The home aborts a bucket: ABORT to every rank heard from, tokens returned, slot freed. -/
def State.abortHome (s : State) (h : HomeBucket) (reason laggard : Nat) : State :=
  ((s.toRanks h 0x24 2 0 0 (leBytes 2 reason ++ leBytes 2 0 ++ leBytes 4 laggard)).returnTok h.eng h.held).dropHome h

/-! ### The result (R375, R379, R391, R400) -/

/-- R391. The bucket digest over the consumed contributions. -/
def HomeBucket.digest (h : HomeBucket) : Nat :=
  crc64 ((List.range h.ranks.length).flatMap (fun j => match h.rankAt j with
    | some r => leBytes 4 j ++ leBytes 4 h.bucket ++ leBytes 8 r.c
    | none => []))

/-- R364. RESULT to every rank, with its sequence number. -/
def State.sendResult (s : State) (h : HomeBucket) (unconf : Bool) : State :=
  let lb := laneBytes h.mode h.n
  let lanes := h.lanes.flatMap (fun v => leBytes lb (tc (8 * lb) v))
  let E := h.e.getD (-32768)
  let d := h.digest
  (segments lanes).foldl (fun s g => s.toRanks h 0x23 2 h.resSeq (if unconf then 1 else 0)
    (leBytes 2 (tc 16 E) ++ leBytes 1 lb ++ leBytes 1 (if boundExt h.mode h.n then 1 else 0) ++ leBytes 8 d ++ leBytes 4 g.1 ++ g.2)) s

/-- All N ranks are consumed. -/
def HomeBucket.full (h : HomeBucket) : Bool := (h.ranks.filter (·.eaten)).length == h.n

/-- R363 step 6, R376, R400. Once every rank is consumed the result goes out, final when the journal holds nothing of the key;
a result sent before becomes final with RESULT_CONFIRM. -/
def State.concludeHome (s : State) (h : HomeBucket) : State :=
  if !h.full || h.final then s.putHome h
  else if h.sent then
    (if h.jrnl.isEmpty then (s.putHome { h with final := true }).toRanks h 0x32 0 h.resSeq 0 [] else s.putHome h)
  else
    let s1 := if boundExt h.mode h.n && !h.extSaid then
        (s.bump (Reg.RED_CNT_A h.eng) Fld.RED_CNT_A_BOUND_EXT 1).report 0x0D 0 (homeCtx h [h.coll, h.step, h.bucket])
      else s
    let h1 := { h with sent := true, extSaid := true, final := h.jrnl.isEmpty }
    (s1.putHome h1).sendResult h1 (!h.jrnl.isEmpty)

/-! ### Contributions (R369, R394, R396) -/

/-- R369, R375, R394. The home consumes rank j. -/
def State.consume (s : State) (h : HomeBucket) (r : HomeRank) (c : Nat) (pay : List Byte) : State × HomeBucket :=
  let q := unpackQ h.mode h.count pay
  let lanes := List.zipWith (· + ·) h.lanes q
  let sure := r.tokens.contains (0x30, r.ver)
  let jr := if r.unconf && !sure then
      h.jrnl ++ [{ rank := r.rank, ver := r.ver, stat := r.stat.getD (-32768), c := c, payload := pay, since := s.clk.now }] else h.jrnl
  ((s.returnTok h.eng 1).evCount (0x48 + h.eng / 2) 0x63 q.length r.layer r.op, ({ h with lanes := lanes, jrnl := jr }).updRank r.rank (fun x =>
    { x with eaten := true, granted := false, got := none, segs := [], c := c }))

/-- R369. The home consumes NEXT while its contribution is there. -/
def State.consumeAll (s : State) (h : HomeBucket) : Nat → State × HomeBucket
  | 0 => (s, h)
  | fuel + 1 => match h.rankAt h.next with
    | some r => match r.got with
      | some g => let x := s.consume h r g.1 g.2; State.consumeAll x.1 x.2 fuel
      | none => (s, h)
    | none => (s, h)

/-- R367. E is fixed once every rank has its EXP. -/
def HomeBucket.fix (h : HomeBucket) : HomeBucket :=
  if h.e.isNone && (h.ranks.filter (·.stat.isSome)).length = h.n then
    { h with e := some (h.ranks.foldl (fun a r => max a (r.stat.getD (-32768))) (-32768)) }
  else h

/-- R397, R398. A version of a rank is retracted: subtracted exactly when it is consumed, discarded otherwise; the rank is
missing again. -/
def State.retractVersion (s : State) (h : HomeBucket) (r : HomeRank) : State × HomeBucket :=
  let s1 := s.bump (Reg.RED_CNT_A h.eng) Fld.RED_CNT_A_RETRACTED 1
  let clear (x : HomeRank) : HomeRank :=
    { x with stat := none, old := x.stat, granted := false, eaten := false, got := none, segs := [], tokens := x.tokens ++ [(0x31, x.ver)] }
  if r.eaten then
    let s2 := if h.sent then s1.toRanks h 0x33 0 h.resSeq 0 [] else s1
    let h1 := { h with
      lanes := match h.jrnl.find? (fun (j : JEntry) => j.rank == r.rank) with
        | some j => List.zipWith (· - ·) h.lanes (unpackQ h.mode h.count j.payload)
        | none => h.lanes
      jrnl := h.jrnl.filter (fun (j : JEntry) => j.rank != r.rank)
      resSeq := if h.sent then (h.resSeq + 1) % 256 else h.resSeq
      sent := false }
    (s2, h1.updRank r.rank clear)
  else ((if r.granted then s1.returnTok h.eng 1 else s1), h.updRank r.rank clear)

/-- R399. The statistic of a new version differs: a new epoch. -/
def State.restartHome (s : State) (h : HomeBucket) : State × HomeBucket :=
  (s.returnTok h.eng h.held,
   { h with epoch := (h.epoch + 1) % 256, e := none, lanes := List.replicate h.count 0, jrnl := [],
            ranks := h.ranks.map (fun r => { r with granted := false, eaten := false, got := none, segs := [] }) })

/-! ### Commands of the home -/

/-- A delivered packet of a KIND reaches a home engine; one for no engine is dropped. -/
def State.atHome (s : State) (kind : Nat) (k : Packet) (f : State → State) : State :=
  if k.kind != kind then s else match s.take k with | none => s | some s1 => if k.addr > 15 then s1 else f s1

/-- R118, R387. What a packet of a rank does at the bucket and the rank that it names; one tagged with another GEN than the rank's
EXP is dropped. -/
def State.forRank (s : State) (k : Packet) (absent : State → State) (f : State → HomeBucket → HomeRank → State) : State :=
  match s.homeOf k with
  | none => absent s
  | some h => match h.rankAt (rRank k) with
    | none => absent s
    | some r => if k.gen != r.gen then s.dropStale (0x40 + k.addr) else f s h r

/-- The rank of an EXP. -/
def expRank (k : Packet) : HomeRank :=
  { rank := rRank k, chip := k.src, eng := leAt k.body 19 1, gen := k.gen, layer := k.layer, op := k.op, ver := rVer k,
    stat := some (sext 16 (leAt k.body 16 2)), dead := leAt k.body 28 4 }

/-- R397, R440. Early tokens of a rank. -/
def State.earlyFor (s : State) (k : Packet) : List (Nat × Nat) :=
  (s.quar.early.filter (fun e => (e.1.kind == 0x30 || e.1.kind == 0x31) && e.1.addr == k.addr && rColl e.1 == rColl k && rStep e.1 == rStep k &&
    rBucket e.1 == rBucket k && rRank e.1 == rRank k)).map (fun e => (e.1.kind, rVer e.1))

/-- R397, R440. A RETRACT that came before the version it names takes it out as its EXP comes. -/
def State.takeEarly (s : State) (h : HomeBucket) (k : Packet) : State × HomeBucket :=
  let toks := s.earlyFor k
  let h1 := h.updRank (rRank k) (fun r => { r with tokens := r.tokens ++ toks })
  if toks.contains (0x31, rVer k) then
    (s.bump (Reg.RED_CNT_A h.eng) Fld.RED_CNT_A_RETRACTED 1, h1.updRank (rRank k) (fun r => { r with old := r.stat, stat := none }))
  else (s, h1)

/-- R367, R399. The home records an EXP of a bucket that it holds. -/
def State.recordExp (s : State) (h : HomeBucket) (k : Packet) : State :=
  match h.rankAt (rRank k) with
  | none =>
    let x := s.takeEarly { h with ranks := h.ranks ++ [expRank k] } k
    x.1.concludeHome x.2.fix
  | some r0 =>
    if rVer k < r0.ver then s.staleRed h.eng
    else if rVer k = r0.ver then (if r0.tokens.contains (0x31, r0.ver) then s.staleRed h.eng else s)
    else
      let x := if r0.tokens.contains (0x31, r0.ver) then (s, h) else s.retractVersion h r0
      let stat := sext 16 (leAt k.body 16 2)
      let old := match x.2.rankAt (rRank k) with | some r => r.old | none => none
      let h1 := x.2.updRank (rRank k) (fun r => { r with ver := rVer k, stat := some stat, dead := leAt k.body 28 4, unconf := false })
      let y := if h1.e.isSome && old != some stat then x.1.restartHome h1 else (x.1, h1)
      let z := y.1.takeEarly y.2 k
      z.1.putHome z.2.fix

/-- R367, R384-R386. EXP. -/
def execExp (pkt : Packet) (s : State) : Host.Outcome State Fault Refusal :=
  .next (s.atHome 0x20 pkt (fun s =>
    let e := pkt.addr
    let st := s.fnState (0x40 + e)
    let lone : HomeBucket := { eng := e, coll := rColl pkt, step := rStep pkt, bucket := rBucket pkt, n := leAt pkt.body 20 4,
                               mode := leAt pkt.body 18 1, count := leAt pkt.body 24 4 }
    match (match s.homeOf pkt with | some h => if h.final then none else some h | none => none) with
    | some h =>
      if st != fnRUN && st != fnDRAIN then s.toRank lone (expRank pkt) 0x24 2 0 0 (leBytes 2 2 ++ leBytes 2 0 ++ leBytes 4 0xFFFFFFFF)
      else if h.n != lone.n || h.mode != lone.mode || h.count != lone.count then
        let h1 := if (h.rankAt (rRank pkt)).isSome then h else { h with ranks := h.ranks ++ [expRank pkt] }
        (s.abortHome h1 3 0xFFFFFFFF).report 0x0F 2 (homeCtx h1 [h.coll, h.step, h.bucket])
      else s.recordExp h pkt
    | none =>
      if st != fnRUN then s.toRank lone (expRank pkt) 0x24 2 0 0 (leBytes 2 2 ++ leBytes 2 0 ++ leBytes 4 0xFFFFFFFF)
      else if (s.homesOf e).length ≥ 64 then
        (s.toRank lone (expRank pkt) 0x25 2 (rVer pkt) 0 []).bump (Reg.RED_CNT_B e) Fld.RED_CNT_B_BUSY 1
      else
        let h : HomeBucket := { lone with lanes := List.replicate lone.count 0 }
        let s1 : State := { s with homes := s.homes.filter (fun x => !x.isKey e h.coll h.step h.bucket) ++ [h] }
        s1.recordExp h pkt))

/-- R383, R394. Payload bytes that grants and journal entries hold in the buffer area of engine e. -/
def State.bufUse (s : State) (e : Nat) : Nat :=
  ((s.homesOf e).map (fun h => (h.held + h.jrnl.length) * payloadLen h.mode h.count)).sum

/-- R368, R394. The rank to which a home may send GRANT. -/
def State.grantable (s : State) (h : HomeBucket) : Option HomeRank :=
  if h.e.isNone || h.final || s.jrnlUse h.eng ≥ s.cfg (Reg.RED_JRNL_CFG h.eng) Fld.RED_JRNL_CFG_ENTRIES ||
      s.bufUse h.eng + payloadLen h.mode h.count > s.cfg (Reg.RED_BUF_SIZE h.eng) Fld.RED_BUF_SIZE_PAGES * 4096 then none
  else ((List.range 64).map (h.next + ·)).findSome? (fun j => match h.rankAt j with
    | some r => if !r.granted && !r.eaten && r.got.isNone && r.stat.isSome then some r else none
    | none => none)

/-- R368. GRANT_SEND. -/
def execGrantSend (e coll step bucket : Nat) (s : State) : Host.Outcome State Fault Refusal :=
  .next (match s.homes.find? (·.isKey e coll step bucket) with
    | some h => match s.grantable h with
      | some r =>
        let h1 := h.updRank r.rank (fun x => { x with granted := true })
        ((s.putHome h1).issueTok e 1).toRank h1 r 0x21 2 r.ver 0 (leBytes 2 (tc 16 (h.e.getD 0)))
      | none => s
    | none => s)

/-- R369, R387, R390. CONTRIB. -/
def execContrib (pkt : Packet) (s : State) : Host.Outcome State Fault Refusal :=
  .next (s.atHome 0x22 pkt (fun s =>
    s.forRank pkt (fun s => s.staleRed pkt.addr) (fun s h r =>
      if rEpoch pkt < h.epoch || rVer pkt < r.ver || h.final then s.staleRed pkt.addr
      else if rVer pkt != r.ver || r.tokens.contains (0x31, r.ver) || r.eaten || r.got.isSome || !r.granted then s
      else
        let segs := addSeg r.segs (leAt pkt.body 24 4) (pkt.body.drop 32)
        let unconf := r.unconf || pUnconf pkt
        let pay := segBytes segs
        if pay.length < payloadLen h.mode h.count then s.putHome (h.updRank r.rank (fun x => { x with segs := segs, unconf := unconf }))
        else
          let c := leAt pkt.body 16 8
          if itemCrc r.rank h.step h.bucket h.mode (h.e.getD 0) pay != c then
            (s.putHome (h.updRank r.rank (fun x => { x with segs := [] }))).report 0x0F 2
              { homeCtx h [h.coll, h.step, h.bucket] with subj := some r.rank }
          else
            let h1 := h.updRank r.rank (fun x => { x with segs := [], got := some (c, pay), unconf := unconf })
            let x := s.consumeAll h1 (h1.ranks.length + 1)
            x.1.concludeHome x.2)))

/-- R381. The laggard of a bucket: the lowest rank whose EXP, or whose current CONTRIB, is missing;
0xFFFFFFFF when none is. -/
def HomeBucket.laggard (h : HomeBucket) : Nat :=
  ((List.range (h.ranks.length + 1)).find? (fun j => match h.rankAt j with
    | some r => r.stat.isNone || (!r.eaten && r.got.isNone)
    | none => j < h.n)).getD 0xFFFFFFFF

/-- R381. HOME_DEADLINE_EXPIRE: the earliest deadline of the current versions. -/
def execHomeDeadlineExpire (e coll step bucket : Nat) (s : State) : Host.Outcome State Fault Refusal :=
  .next (match s.homes.find? (·.isKey e coll step bucket) with
    | some h =>
      let ds := (h.ranks.filter (·.dead != 0)).map (·.dead)
      if h.final || ds.isEmpty then s
      else
        let t := ds.foldl (fun a b => if subMod 32 a b < 2 ^ 31 then b else a) (ds.headD 0)
        let s1 := s.reachNs t
        let lag := h.laggard
        (s1.abortHome h 1 lag).report 0x02 2 { homeCtx h [h.coll, h.step, h.bucket] with subj := some lag }
    | none => s)

/-- R440. A token whose item is not there is kept for one Steep window. -/
def State.keepEarly (s : State) (k : Packet) : State :=
  { s with quar := { s.quar with early := s.quar.early ++ [(k, s.clk.now)] } }

/-- R396. CONFIRM. -/
def execConfirm (pkt : Packet) (s : State) : Host.Outcome State Fault Refusal :=
  .next (s.atHome 0x30 pkt (fun s =>
    s.forRank pkt (fun s => s.keepEarly pkt) (fun s h r =>
      if rVer pkt < r.ver || h.final || r.tokens.contains (0x30, rVer pkt) || r.tokens.contains (0x31, rVer pkt) then s.staleRed pkt.addr
      else if r.ver < rVer pkt then s.keepEarly pkt
      else
        let h1 := ({ h with jrnl := h.jrnl.filter (fun j => !(j.rank == r.rank && j.ver == rVer pkt)) }).updRank r.rank
          (fun x => { x with tokens := x.tokens ++ [(0x30, rVer pkt)] })
        s.concludeHome h1)))

/-- R397, R403. RETRACT. -/
def execRetract (pkt : Packet) (s : State) : Host.Outcome State Fault Refusal :=
  .next (s.atHome 0x31 pkt (fun s =>
    s.forRank pkt (fun s => s.keepEarly pkt) (fun s h r =>
      if r.tokens.contains (0x31, rVer pkt) then s.staleRed pkt.addr
      else if h.final || r.tokens.contains (0x30, rVer pkt) || (r.ver == rVer pkt && r.eaten && !h.jrnl.any (fun (j : JEntry) => j.rank == r.rank)) then
        s.report 0x01 3 { homeCtx h [h.coll, h.step, h.bucket] with subj := some r.rank }
      else if rVer pkt < r.ver then s.staleRed pkt.addr
      else if r.ver < rVer pkt then s.keepEarly pkt
      else let x := s.retractVersion h r; x.1.putHome x.2)))

/-- R398, R438, R441. The Steep window of a journal entry expires: as for RETRACT, and the fault is raised. -/
def execJournalSteepExpire (e coll step bucket rank : Nat) (s : State) : Host.Outcome State Fault Refusal :=
  .next (match s.homes.find? (·.isKey e coll step bucket) with
    | some h => match h.jrnl.find? (·.rank == rank), h.rankAt rank with
      | some j, some r =>
        let s1 := s.reach (j.since + s.cfg Reg.INTG_STEEP Fld.INTG_STEEP_WINDOW_NS)
        let x := (s1.bump Reg.INTG_STEEP_CNT Fld.INTG_STEEP_CNT_EXPIRED 1).retractVersion h r
        (x.1.putHome x.2).report 0x02 2 { homeCtx h [r.chip, h.coll, h.step, h.bucket] with unit := 0x27 }
      | _, _ => s
    | none => s)

/-- R385. Every bucket that engine e still holds is aborted as refused. -/
def State.refuseHomes (s : State) (e : Nat) : State :=
  (s.homesOf e).foldl (fun s h => s.abortHome h 2 0xFFFFFFFF) s

end Sys2Proof.Machine
end

