-- ==== Sys2Proof/Machine/Integrity.lean ====
section
/-!
DEFINITION. Result integrity (spec/09): verdicts, replays, tickets, the Fence (spec/10 R477, R478), quarantined writes, audit
tiles, and the scan test.
-/
namespace Sys2Proof.Machine

open Sys2Proof

/-! ### Fencing a ticket (R434, R435, R437, R477, R478) -/

/-- The ticket of a number, while it is unsettled. -/
def State.ticketOf (s : State) (t : Nat) : Option TicketSt := s.arr.tickets.find? (·.num == t)

/-- R435, R477. A ticket is fenced: the fence goes to the eight link dies, and STEEP_CNT.FENCED counts the ticket once. -/
def State.fenceTicket (s : State) (t : Nat) : State :=
  match s.ticketOf t with
  | none => s
  | some k =>
    if k.fenced then s
    else
      let s1 := s.updTicket t (fun x => { x with fenced := true })
      let s2 : State := { s1 with quar := { s1.quar with msgs := s1.quar.msgs ++ (List.range 8).map (fun r => (r, t)) } }
      s2.bump Reg.INTG_STEEP_CNT Fld.INTG_STEEP_CNT_FENCED 1

/-- R434, R435. A queued packet of this module that a fence discards at egress. -/
def fencedPacket (t : Nat) (q : Queued) : Bool := q.from_.isNone && !q.begun && pUnconf q.pkt && q.pkt.tag % 65536 == t

/-- R435. Link die r discards the UNCONFIRMED packets of a ticket that have not begun to leave. -/
def State.dropFenced (s : State) (r t : Nat) : State :=
  (List.range 6).foldl (fun s i =>
    let p := s.port (6 * r + i)
    s.setPort (6 * r + i) { p with queue := p.queue.map (fun e => (e.1, e.2.filter (fun q => !fencedPacket t q))) }) s

/-- R435, R477, R478. A fence message arrives at link die r: the ticket takes an entry while one is free, packets are
discarded, and the engines that sent data of it retract. -/
def fenceArrives (s : State) (r t : Nat) : State :=
  let l := tblGet (fun _ => []) s.quar.fenced r
  let s1 : State := { s with quar := { s.quar with
      msgs := dropFirst (· == (r, t)) s.quar.msgs
      fenced := if l.contains t || l.length ≥ 64 then s.quar.fenced else tblPut (fun _ => []) s.quar.fenced r (l ++ [t]) } }
  (s1.dropFenced r t).rankFence r t

/-- R477. The FENCE_MESSAGE command. -/
def execFenceMessage (r ticket : Nat) (s : State) : Host.Outcome State Fault Refusal :=
  .next (if s.quar.msgs.contains (r, ticket) then fenceArrives s r ticket else s)

/-- The Steep window in force (R438). -/
def State.steepWindow (s : State) : Nat := s.cfg Reg.INTG_STEEP Fld.INTG_STEEP_WINDOW_NS

/-- R437. STEEP_FENCE_TIMER: WINDOW_NS − 8 µs after the first send of its data, a ticket that has not settled is fenced. -/
def execSteepFenceTimer (ticket : Nat) (s : State) : Host.Outcome State Fault Refusal :=
  .next (match s.ticketOf ticket with
    | some k => match k.firstSend with
      | some (_, t) => (s.reach (t + s.steepWindow - 8000)).fenceTicket ticket
      | none => s
    | none => s)

/-! ### Releasing and withdrawing pages (R413, R430-R433) -/

/-- Every tile of the ticket that wrote the page has passed or been settled by a passing result. -/
def TicketSt.pagePassed (k : TicketSt) (page : Nat) : Bool :=
  k.tiles.any (·.pages.contains page) && k.tiles.all (fun f => !f.pages.contains page || f.standing == 1)

/-- R413, R414. The tag that a released page gets: of the format with which the descriptor covers it whole, else of its old FMT
and BLOCK_ID; an OPEN page in part stays OPEN. -/
def State.sealOut (s : State) (k : TicketSt) (page : Nat) : State :=
  match s.fmtOfPage (arrOuts k.bytes k.param []) page with
  | some f => s.sealPage page f (dSTEP k.bytes) (defaultId page)
  | none => if s.isOpen page then s else s.sealPage page (tagFmt (s.tag page)) (dSTEP k.bytes) (tagId (s.tag page))

/-- R432. The pages of a ticket whose tiles have all passed are sealed and released, once its descriptor has stopped running. -/
def State.releasePages (s : State) (t : Nat) : State :=
  match s.ticketOf t with
  | none => s
  | some k =>
    if k.ended then
      let ps := dedup ((s.pages.filter (fun e => e.ticket == t && k.pagePassed e.page)).map (·.page))
      (ps.foldl (fun s p => ((s.sealOut k p).dropPending t [p]).rankPageConfirmed p t) s).serveWaiting
    else s

/-- R425, R430. A started descriptor fails though its outcome stands but its record is not written; an outcome other than
SUCCESS stays. -/
def State.failDesc (s : State) (n seq : Nat) (d : Done) : State :=
  s.updStarted n seq (fun x => match x.done with
    | none => { x with done := some d }
    | some o => if o.status = stSUCCESS then { x with done := some d } else x)

/-- R424, R425, R427, R429. A tile's pages become WITHDRAWN, its ticket is to settle WITHDRAWN, and the descriptor fails. -/
def State.withdrawTile (s : State) (k : TicketSt) (f : Folded) (cls : Nat) : State :=
  let s1 := f.pages.foldl (fun s p => s.withdrawPage p) s
  let s2 := (s1.dropPending k.num f.pages).updTicket k.num (fun x =>
    let y := { x with tiles := x.tiles.map (fun g => if g.num == f.num then { g with standing := 3 } else g) }
    if y.withdrawn.isSome then y else { y with withdrawn := some cls, die := f.cell / 64, unit := 0, cell := f.cell % 64 })
  let s3 := s2.failDesc k.ring k.seq { status := stFAULTED, cls := cls, die := f.cell / 64, unit := 0, cell := f.cell % 64 }
  match s3.arr.run with
  | some r => if r.ticket = k.num then s3.endRun else s3
  | none => s3

/-- A tile of a ticket gets its standing. -/
def State.standTile (s : State) (t num st : Nat) : State :=
  s.updTicket t (fun x => { x with tiles := x.tiles.map (fun g => if g.num == num then { g with standing := st } else g) })

/-! ### Verdicts (R421-R423) -/

/-- R421. No check that a folded tile's Strainer makes fails. -/
def tilePasses (x : TileP) (f : Folded) : Bool := !(tileChecks x f).contains (some false)

/-- R666. The events of a Strainer's verdict: a tile checked, rows and columns skipped, a failing verdict. -/
def State.strained (s : State) (b p : List Byte) (f : Folded) (failed check : Bool) : State :=
  [(0x18, 1), (0x19, ((tileChecks (tileP b p) f).filter (·.isNone)).length), (0x1A, if failed then 1 else 0)].foldl
    (fun s (e : Nat × Nat) => s.evCount (f.cell / 64) e.1 e.2 (dLAYER b) (dOP b) (check := check)) s

/-- R421-R423, R435. The verdict on a folded tile. -/
def verdict (s : State) (k : TicketSt) (f : Folded) (forced : Bool) : State :=
  let x := tileP k.bytes k.param
  let s1 := s.bump Reg.INTG_CHECK_CNT Fld.INTG_CHECK_CNT_SKIPPED ((tileChecks x f).filter (·.isNone)).length
  let good := tilePasses x f && !forced
  let s2 := s1.strained k.bytes k.param f (!good) false
  if good then (s2.standTile k.num f.num 1).releasePages k.num
  else (s2.standTile k.num f.num 2).fenceTicket k.num

/-- R422. The STRAINER_VERDICT command. -/
def execStrainerVerdict (ticket tile : Nat) (forced : Bool) (s : State) : Host.Outcome State Fault Refusal :=
  .next (match s.ticketOf ticket with
    | some k => match k.tiles.find? (fun f => f.num == tile && f.standing == 0) with
      | some f => verdict s k f forced
      | none => s
    | none => s)

/-! ### Replays (R424-R427) -/

/-- Of batch element e of a matrix, `len` bytes from `off` of each of `n` stored rows from row `lo` on; whole rows that follow one another
are one range. -/
def Mat.part (m : Mat) (e lo n off len : Nat) : List (Nat × Nat) :=
  if len = m.rb && (n ≤ 1 || m.ld = m.rb) then [(m.addr + e * m.bs + lo * m.ld, n * m.rb)]
  else (List.range n).map (fun i => (m.addr + e * m.bs + (lo + i) * m.ld + off, len))

/-- R411, R424. The ranges of operands and of their block scales that tile `t` reads. -/
def TileP.reads (x : TileP) (t : Nat) : List (Nat × Nat) :=
  let sh := x.shape t
  if x.op = 0x1001 then
    let w := x.sw
    let a := w.tileAt t
    let k32 := ceilDiv w.k 32
    (if w.transA then w.matA.part a.1 0 w.k (elemBytes w.aFmt a.2.1) (elemBytes w.aFmt sh.1) else w.matA.part a.1 a.2.1 sh.1 0 w.matA.rb) ++
      (if w.transB then w.matB.part a.1 a.2.2 sh.2 0 w.matB.rb else w.matB.part a.1 0 w.k (elemBytes w.bFmt a.2.2) (elemBytes w.bFmt sh.2)) ++
      (if blockScaled w.aFmt then [(w.sa + a.1 * w.m * k32 + a.2.1 * k32, sh.1 * k32)] else []) ++
      (if blockScaled w.bFmt then [(w.sb + a.1 * w.n * k32 + a.2.2 * k32, sh.2 * k32)] else [])
  else
    let n := sh.1 / x.it.f
    [(stagingAddr (t / x.it.tiles) (x.it.zOff + t % x.it.tiles * x.it.q * x.it.zStride),
      (n - 1) * x.it.zStride + x.it.f * x.it.d * (elemBits x.it.zFmt / 8))]

/-- The context of a report of R425: the original cell, with the replay cell and the tile as values. -/
def replayCtx (k : TicketSt) (f : Folded) (replay : Option Nat) : Ctx :=
  { arrCtx k.ring k.bytes f.cell with vals := [f.cell, replay.getD 0xFFFF, f.num] }

/-- R425, third row. Both are suspect: the block is fenced, the tile's pages are withdrawn, the descriptor fails. -/
def bothSuspect (s : State) (k : TicketSt) (f : Folded) (replay : Option Nat) : State :=
  let s1 := (s.fenceBlock (f.cell / 64) 0x01).withdrawTile k f 0x01
  (s1.bump Reg.INTG_CHECK_CNT Fld.INTG_CHECK_CNT_BOTH 1).report 0x01 3 (replayCtx k f replay)

/-- R425, first row, and R426. The Strainer is at fault: its cell is flagged, or fenced when it was flagged before. -/
def strainerAtFault (s : State) (k : TicketSt) (f : Folded) (replay : Option Nat) : State :=
  let s1 := (s.bump Reg.INTG_CHECK_CNT Fld.INTG_CHECK_CNT_STRAINER_AT_FAULT 1).report 0x01 1 (replayCtx k f replay)
  let s2 := if s.rbit (Reg.INTG_STRAINER_FLAG (f.cell / 64)) (f.cell % 64) then
      (s1.fenceCell f.cell 0x01).report 0x01 2 { arrCtx k.ring k.bytes f.cell with unit := 0x08 }
    else s1.putBit (Reg.INTG_STRAINER_FLAG (f.cell / 64)) (f.cell % 64) true
  (s2.standTile k.num f.num 1).releasePages k.num

/-- The rows of a replaced tile are written again into its pages (R425, second row). -/
def State.rewriteTile (s : State) (k : TicketSt) (x : TileP) (g : Folded) : State :=
  let all := k.tiles.map (fun f => if f.num == g.num then g else f)
  let o := if x.op = 0x1001 && x.sw.topk then (if g.pages.isEmpty then {} else s.topkOut x all) else s.tileOut x g
  ((s.placed (o.data ++ o.scales)).filter (fun w => g.pages.contains (w.1 / 4096))).foldl (fun s w => s.engWrite w.1 w.2) s

/-- R425, second row. The result is at fault: the cell is fenced and the replay's result becomes the tile's output. -/
def resultAtFault (s : State) (k : TicketSt) (f g : Folded) (replay : Option Nat) : State :=
  let x := tileP k.bytes k.param
  let s1 := s.rewriteTile k x { g with pages := f.pages }
  let s2 := s1.updTicket k.num (fun y => { y with tiles := y.tiles.map (fun h =>
    if h.num == f.num then { g with pages := f.pages, standing := 1 } else h) })
  let s3 := (s2.fenceCell f.cell 0x01).bump Reg.INTG_CHECK_CNT Fld.INTG_CHECK_CNT_RESULT_AT_FAULT 1
  (s3.report 0x01 2 (replayCtx k f replay)).releasePages k.num

/-- R424, R425. A failed tile is replayed on the replay cell and judged. -/
def replay (s : State) (k : TicketSt) (f : Folded) (forced : Bool) (fault : List (Nat × Nat)) : State :=
  match replayCell s.mayReplay f.cell with
  | none => bothSuspect s k f none
  | some c =>
    let q := s.awareChecks (arrCtx k.ring k.bytes c) ((tileP k.bytes k.param).reads f.num)
    match q.2 with
    | some cls => q.1.withdrawTile k f cls
    | none =>
      let x := tileP k.bytes k.param
      let g := foldOf x (s.runTile x f.num c) fault
      let bad := forced || !tilePasses x g
      let s1 := (q.1.recomputed k.bytes k.param f.num c).strained k.bytes k.param g bad true
      if bad then bothSuspect s1 k f (some c)
      else if g.words == f.words then strainerAtFault s1 k f (some c)
      else resultAtFault s1 k f g (some c)

/-- The failed tile of a ticket with the lowest number (R427). -/
def TicketSt.failed (k : TicketSt) : Option Folded :=
  (k.tiles.filter (·.standing == 2)).foldl (fun (a : Option Folded) f => match a with
    | some g => if f.num < g.num then some f else some g
    | none => some f) none

/-- R424, R427. The REPLAY_JUDGE command. -/
def execReplayJudge (ticket : Nat) (forced : Bool) (fault : List (Nat × Nat)) (ecc : EccFinds) (z : State) : Host.Outcome State Fault Refusal :=
  let s := z.eccAll ecc
  .next (match s.ticketOf ticket with
    | some k => match k.failed with
      | some f => replay s k f forced fault
      | none => s
    | none => s)

/-- R427. The array leaves RUN by an abort: the pages of every unsettled disagreement become WITHDRAWN. -/
def State.withdrawDisagreements (s : State) : State :=
  s.arr.tickets.foldl (fun s k => (k.tiles.filter (·.standing == 2)).foldl (fun s f => s.withdrawTile k f 0x01) s) s

/-! ### Lockstep (R428, R429) -/

/-- R429. The running descriptor starts again from chunk 0 of every tile on the remaining cells. -/
def State.rerun (s : State) (r : ArrRun) (d : Started) (active : List Nat) : State :=
  let ts := dealt d.bytes d.param active r.gone
  let r1 : ArrRun := { r with active := active, tiles := ts, left := ts.length, infOut := 0, nanOut := 0, flush := false, hits := r.hits + 1 }
  let s1 := ((s.setRun r1).uncount d.bytes).updTicket r.ticket (fun k => { k with tiles := [] })
  { s1 with arr := { s1.arr with audits := s1.arr.audits.map (fun a => if a.ring == r.ring && a.seq == r.seq then { a with orig := none } else a) } }

/-- R429. The third mismatch that hits a descriptor: it fails, and its output pages, written or not, become WITHDRAWN. -/
def State.thirdMismatch (s : State) (r : ArrRun) (d : Started) (block : Nat) : State :=
  let ps := dedup ((s.pages.filter (·.ticket == r.ticket)).map (·.page) ++
    (arrOuts d.bytes d.param r.gone).flatMap (fun o => s.gpages o.2.1 o.2.2))
  let s1 := (ps.foldl (fun s p => s.withdrawPage p) s).dropPending r.ticket ps
  let s2 := s1.updTicket r.ticket (fun k => { k with tiles := k.tiles.map (fun f => { f with standing := 3 }), withdrawn := some 0x01, die := block, unit := 0x08 })
  (s2.setDone r.ring r.seq { status := stFAULTED, cls := 0x13, die := block, unit := 0x08 }).endRun

/-- R428, R429. The sequencers of a block differ: the block is fenced, the fault reported, the ticket fenced, and the
descriptor runs again. -/
def lockstep (s : State) (b : Nat) : State :=
  let s1 := s.putBit Reg.ARR_FENCE_BLOCK b true
  match s.arr.run with
  | none => s1.report 0x13 2 { die := b, unit := 0x08, blk := some b }
  | some r => match s.findStarted r.ring r.seq with
    | none => s1.report 0x13 2 { die := b, unit := 0x08, blk := some b }
    | some d =>
      let s2 := (s1.report 0x13 2 { ctxOf r.ring d.bytes b 0x08 with blk := some b, fn := some 0 }).fenceTicket r.ticket
      let act := r.active.filter (fun c => c / 64 != b)
      if r.hits ≥ 2 then s2.thirdMismatch r d b
      else if act.isEmpty then s2.failRun r 0x13 (b * 64)
      else s2.rerun r d act

/-- R428. The LOCKSTEP_MISMATCH command. -/
def execLockstepMismatch (block : Nat) (s : State) : Host.Outcome State Fault Refusal :=
  .next (if block < 64 && s.blockUp block then lockstep s block else s)

/-! ### Settling (R96, R430, R431, R478) -/

/-- The ticket that settles next, when it may: its descriptor has stopped running and no verdict is outstanding. -/
def State.ripeTicket (s : State) : Option TicketSt :=
  match s.ticketOf (s.fget Reg.INTG_TICKET Fld.INTG_TICKET_SETTLED) with
  | some k => if k.ended && k.tiles.all (fun f => f.standing == 1 || f.standing == 3) then some k else none
  | none => none

/-- R96, R431. An UNCONFIRMED completion of the ticket releases its slot, or gets its RETRACTION record there. -/
def State.settleUnconf (s : State) (k : TicketSt) (u : Unconf) : State :=
  let n := if u.kept then 1 else 0
  match k.withdrawn with
  | none => s.release u.cq n
  | some cls =>
    let cls' := if cls = 0x09 || cls = 0x07 then cls else 0x01
    (s.putRecord (ringMaster u.ring u.seq k.bytes) u.cq u.seq u.step
      { status := stRETRACTION, cls := cls', flags := flRETRACTED, die := k.die, unit := k.unit, cell := k.cell } u.irq).release u.cq n

/-- R430-R433, R436, R478. A ticket settles CONFIRMED, or WITHDRAWN with the pages that are still pending. -/
def State.settle (s : State) (k : TicketSt) : State :=
  let s1 := s.releasePages k.num
  let ps := (s1.pages.filter (·.ticket == k.num)).map (·.page)
  let s2 := (ps.foldl (fun s p => s.withdrawPage p) s1).dropPending k.num ps
  let s3 := s2.count Reg.INTG_TICKET Fld.INTG_TICKET_SETTLED 1
  let s4 : State := { s3 with
    arr := { s3.arr with tickets := s3.arr.tickets.filter (·.num != k.num) }
    quar := { s3.quar with
      fenced := (List.range 8).foldl (fun m r => tblPut (fun _ => []) m r ((tblGet (fun _ => []) m r).filter (· != k.num))) s3.quar.fenced
      msgs := s3.quar.msgs.filter (·.2 != k.num) }
    unconf := s3.unconf.filter (·.ticket != k.num) }
  let s5 := (s3.unconf.filter (·.ticket == k.num)).foldl (fun s u => s.settleUnconf k u) s4
  (s5.rankSettled k.num).serveWaiting

/-- R430. The TICKET_SETTLE command. -/
def execTicketSettle (s : State) : Host.Outcome State Fault Refusal :=
  .next (match s.ripeTicket with
    | some k => s.settle k
    | none => s)

/-! ### Quarantined writes (R438-R442) -/

def pItem (k : Packet) : Nat := k.tag / 65536 % 65536

/-- A RELEASED item is written to memory in arrival order. -/
def State.writeItem (s : State) (r src : Nat) (data : List (Nat × List Byte)) : State :=
  data.foldl (fun s d => s.gwrite (.remote r src 4 false 0 0xFFFF 0xFFFF) 4 (ownAt d.1) d.2) s

/-- The token that came for an item and is still kept: its KIND. -/
def State.earlyWrite (s : State) (src item : Nat) : Option Nat :=
  (s.quar.early.find? (fun e => (e.1.kind == 0x34 || e.1.kind == 0x35) && e.1.src == src && leAt e.1.body 0 2 == item)).map (·.1.kind)

/-- R439, R440. An UNCONFIRMED posted write: held, or acted on at once by a token that came before it. -/
def quarantine (s : State) (r : Nat) (k : Packet) : State :=
  match s.earlyWrite k.src (pItem k) with
  | some 0x34 => ({ s with quar := { s.quar with done := s.quar.done ++ [(k.src, pItem k, 0x34)] } } : State).writeItem r k.src [(k.addr, k.body)]
  | some _ => s
  | none =>
    if s.quar.items.any (fun i => i.src == k.src && i.item == pItem k) then
      let add (i : QItem) : QItem := { i with data := i.data ++ [(k.addr, k.body)] }
      { s with quar := { s.quar with items := updFirst (fun i => i.src == k.src && i.item == pItem k) add s.quar.items } }
    else
      { s with quar := { s.quar with
          items := s.quar.items ++ [{ die := r, src := k.src, item := pItem k, ticket := k.tag % 65536, data := [(k.addr, k.body)], since := s.clk.now }]
          done := s.quar.done.filter (fun d => !(d.1 == k.src && d.2.1 == pItem k)) } }

/-- R439. The UNCONFIRMED_WRITE_RECEIVE command at the link die that the packet reached; while the buffer is full it waits there. -/
def execUnconfirmedWriteReceive (r : Nat) (pkt : Packet) (s : State) : Host.Outcome State Fault Refusal :=
  .next (if pkt.kind = 0x03 && pUnconf pkt && r < 8 && (48 ≤ pkt.port || pkt.port / 6 = r) && s.quarUse r + pkt.body.length ≤ 2 ^ 22 then
      (match s.take pkt with | some s1 => quarantine s1 r pkt | none => s)
    else s)

/-- The item of a token is removed from its buffer, and the token noted. -/
def State.dropItem (s : State) (i : QItem) (kind : Nat) : State :=
  { s with quar := { s.quar with
      items := dropFirst (fun x => x.src == i.src && x.item == i.item) s.quar.items
      done := s.quar.done ++ [(i.src, i.item, kind)] } }

/-- R440, R442. WRITE_CONFIRM. -/
def writeConfirmed (s : State) (k : Packet) : State :=
  let item := leAt k.body 0 2
  match s.quar.items.find? (fun i => i.src == k.src && i.item == item) with
  | some i => ((s.dropItem i 0x34).writeItem i.die i.src i.data).keepEarly k
  | none => if s.quar.done.any (fun d => d.1 == k.src && d.2.1 == item) then s else s.keepEarly k

/-- R440. The WRITE_CONFIRM command. -/
def execWriteConfirm (r : Nat) (pkt : Packet) (s : State) : Host.Outcome State Fault Refusal :=
  .next (if pkt.kind = 0x34 && r < 8 then (match s.take pkt with | some s1 => writeConfirmed s1 pkt | none => s) else s)

/-- R440, R442. WRITE_RETRACT. -/
def writeRetracted (s : State) (r : Nat) (k : Packet) : State :=
  let item := leAt k.body 0 2
  match s.quar.items.find? (fun i => i.src == k.src && i.item == item) with
  | some i => (s.dropItem i 0x35).keepEarly k
  | none =>
    if s.quar.done.contains (k.src, item, 0x34) then
      s.report 0x01 3 { die := 0x48 + r, unit := 0x24, region := some r, vals := [k.src, leAt k.body 2 2, item] }
    else if s.quar.done.any (fun d => d.1 == k.src && d.2.1 == item) then s
    else s.keepEarly k

/-- R440. The WRITE_RETRACT command. -/
def execWriteRetract (r : Nat) (pkt : Packet) (s : State) : Host.Outcome State Fault Refusal :=
  .next (if pkt.kind = 0x35 && r < 8 then (match s.take pkt with | some s1 => writeRetracted s1 r pkt | none => s) else s)

/-- R440, R441. STEEP_WINDOW_EXPIRE: the item is discarded and the fault raised. -/
def execSteepWindowExpire (src item : Nat) (s : State) : Host.Outcome State Fault Refusal :=
  .next (match s.quar.items.find? (fun i => i.src == src && i.item == item) with
    | some i =>
      (((s.reach (i.since + s.steepWindow)).dropItem i 0x35).bump Reg.INTG_STEEP_CNT Fld.INTG_STEEP_CNT_EXPIRED 1).report 0x02 2
        { die := 0x48 + i.die, unit := 0x27, region := some i.die, vals := [src, i.ticket, item] }
    | none => s)

/-- R440. EARLY_TOKEN_EXPIRE: the oldest kept token has been kept for one Steep window. -/
def execEarlyTokenExpire (s : State) : Host.Outcome State Fault Refusal :=
  .next (match s.quar.early with
    | e :: rest => ({ s with quar := { s.quar with early := rest } } : State).reach (e.2 + s.steepWindow)
    | [] => s)

/-- R416, R433. The copy engine of link die r reads back the CRC of its copy of a page: it writes the source tag there, sends
the page once more, or acts under R412. A page that is pending waits. -/
def tagReadback (s : State) (r page chip dst crc : Nat) (again : Bool) : State :=
  let k : Packet := { dst := chip, src := 0, kind := 0x03, addr := 0x010000000000 + tagPlace dst, vc := 4, body := leBytes 8 (s.tag page) }
  if crc = tagCrc (s.tag page) then s.send r k
  else if again then s.tagMismatch page { die := 0x48 + r, unit := 0x23, region := some r }
  else s.send r { k with addr := 0x010000000000 + dst * 4096, body := s.pageBytes page }

/-- R416. The TAG_COPY_READBACK command. -/
def execTagCopyReadback (r page chip dst crc : Nat) (again : Bool) (s : State) : Host.Outcome State Fault Refusal :=
  .next (if r < 8 && dst < 2 ^ 28 && !s.isPending page then
      tagReadback (s.evCount (0x48 + r) 0x67 1 0xFFFF 0xFFFF) r page chip dst crc again else s)

/-! ### Audit tiles (R443, R444) -/

def State.auditOf (s : State) (n seq : Nat) : Option Audit := s.arr.audits.find? (fun a => a.ring == n && a.seq == seq)

/-- An audit ends. -/
def State.dropAudit (s : State) (a : Audit) : State :=
  { s with arr := { s.arr with audits := dropFirst (fun b => b.ring == a.ring && b.seq == a.seq) s.arr.audits } }

/-- The encodings of the values that a cell folds for an audit. -/
def auditVals (a : Audit) (fault : List (Nat × Nat)) : List Nat :=
  let x := tileP a.bytes a.param
  fault.foldl (fun l e => listSet l e.1 (e.2 % (if x.acc = 0 then 2 ^ 32 else 2 ^ 48))) a.truth

/-- R444. AUDIT_COMPARE. -/
def execAuditCompare (n seq : Nat) (fault : List (Nat × Nat)) (ecc : EccFinds) (z : State) : Host.Outcome State Fault Refusal :=
  let s := z.eccAll ecc
  .next (match s.auditOf n seq with
    | some a => match a.orig, a.again with
      | some o, none =>
        let v := auditVals a fault
        if v == o then (s.dropAudit a).bump Reg.INTG_AUDIT_CNT Fld.INTG_AUDIT_CNT_RUN 1
        else
          let note (b : Audit) : Audit := { b with again := some v }
          let s1 : State := { s with arr := { s.arr with audits := updFirst (fun b => b.ring == n && b.seq == seq) note s.arr.audits } }
          s1.bump Reg.INTG_AUDIT_CNT Fld.INTG_AUDIT_CNT_MISMATCH 1
      | _, _ => s
    | none => s)

/-- The context of an audit's report, with STEP. -/
def auditCtx (a : Audit) (cell : Nat) : Ctx := { arrCtx a.ring a.bytes cell with vals := [dSTEP a.bytes, a.tile] }

/-- R444. The third cell's result judges an audit; where no third cell qualifies, its result equals neither. -/
def thirdJudge (s : State) (a : Audit) (o v third : List Nat) (cell : Option Nat) : State :=
  if cell.isSome && third == v then (s.fenceCell a.cell 0x01).report 0x01 3 (auditCtx a a.cell)
  else if cell.isSome && third == o then (s.fenceCell a.auditCell 0x01).report 0x01 2 (auditCtx a a.auditCell)
  else (s.fenceBlock (a.cell / 64) 0x01).report 0x01 3 (auditCtx a a.cell)

/-- R444. AUDIT_THIRD_JUDGE. -/
def execAuditThirdJudge (n seq : Nat) (fault : List (Nat × Nat)) (ecc : EccFinds) (z : State) : Host.Outcome State Fault Refusal :=
  let s := z.eccAll ecc
  .next (match s.auditOf n seq with
    | some a => match a.orig, a.again with
      | some o, some v =>
        let cell := replayCell (fun c => s.mayReplay c && c != a.cell && c != a.auditCell) a.auditCell
        let s1 := match cell with | some c => s.recomputed a.bytes a.param a.tile c | none => s
        thirdJudge (s1.dropAudit a) a o v (auditVals a fault) cell
      | _, _ => s
    | none => s)

/-! ### Scan test (R447-R451) -/

/-- A block goes into reset: its staging SRAM is unmapped and its contents are lost; they are zero, and its pages OPEN, when it
comes back (R43, R410, R449). -/
def State.blockOff (s : State) (b : Nat) : State :=
  { s with
    dark := if s.dark.contains b then s.dark else s.dark ++ [b]
    mem := { s.mem with staging := tblClear s.mem.staging (b * 0x8000000) ((b + 1) * 0x8000000)
                        stagTag := tblClear s.mem.stagTag (b * 0x8000) ((b + 1) * 0x8000) } }

/-- A die leaves reset. -/
def State.dieOn (s : State) (d : Nat) : State := { s with dark := s.dark.filter (· != d) }

/-- SCAN_STATUS while a scan of a block runs, and when none does. -/
def State.scanShow (s : State) (b : Option Nat) : State :=
  (s.fput Reg.INTG_SCAN_STATUS Fld.INTG_SCAN_STATUS_RUNNING (if b.isSome then 1 else 0)).fput Reg.INTG_SCAN_STATUS Fld.INTG_SCAN_STATUS_BLOCK (b.getD 0xFF)

/-- R449 step 1. The scan masks its block and notes what it waits for. -/
def scanStart (s : State) (d : Started) : State :=
  let b := leAt d.bytes 24 1
  let w := match s.arr.run with
    | some r => if r.active.any (fun c => c / 64 == b) then some (r.ring, r.seq) else none
    | none => none
  let sc : Scan := { ring := d.ring, seq := d.seq, block := b, trf := leAt d.bytes 25 1, mask := s.rbit Reg.ARR_BLOCK_MASK b, waits := w }
  (({ s with scan := some sc } : State).putBit Reg.ARR_BLOCK_MASK b false).scanShow (some b)

/-- R448. SCAN_BLOCK has bad operands. -/
def scanBad (b : List Byte) : Bool := dPARAM b || 63 < leAt b 24 1 || 1 < leAt b 25 1 || !zeroBytes b 26 63

/-- The die number, 0 or 1, of the primary or of the other Trelfort. -/
def State.trfOf (s : State) (standby : Nat) : Nat := if standby = 0 then s.primary.getD 0 else 1 - s.primary.getD 0

/-- R448, R695. SCAN_BLOCK is judged, and starts when no scan runs. -/
def scanDesc (s : State) (d : Started) : State :=
  if scanBad d.bytes then s.setDone d.ring d.seq { status := stBAD_OPERAND, die := 0x50, unit := 0x34 }
  else if s.scan.isSome then s
  else if s.obs.ijtag == some (s.trfOf (leAt d.bytes 25 1)) then s.setDone d.ring d.seq { status := stREFUSED, die := 0x50, unit := 0x34 }
  else scanStart (s.updStarted d.ring d.seq (fun x => { x with begun := true })) d

/-- R448. SCAN_BLOCK of a started descriptor: one scan at a time. -/
def execScanBlock (n seq : Nat) (s : State) : Host.Outcome State Fault Refusal :=
  .next (match s.findStarted n seq with
    | some d =>
      if dOPCODE d.bytes = 0x5010 && !d.begun && d.done.isNone then scanDesc s d else s
    | none => s)

/-- R449 step 1. Nothing that the scan waits for is left. -/
def State.scanReady (s : State) (c : Scan) : Bool :=
  (match c.waits with
    | none => true
    | some (n, q) => (s.findStarted n q).isNone || (match s.arr.run with
        | some r => r.ring == n && r.seq == q && !r.active.any (fun x => x / 64 == c.block)
        | none => false)) &&
    !s.upd.any (fun e => match e.2 with | some u => u.ve == some c.block | none => false)

/-- R449 steps 2 and 3. The SCAN_PROCEED command. -/
def execScanProceed (s : State) : Host.Outcome State Fault Refusal :=
  .next (match s.scan with
    | some c => if !c.held && s.scanReady c then ({ s with scan := some { c with held := true } } : State).blockOff c.block else s
    | none => s)

/-- R449 step 5. The scan is over: the mask bit is restored. -/
def State.scanOver (s : State) (c : Scan) : State :=
  (({ s with scan := none } : State).putBit Reg.ARR_BLOCK_MASK c.block c.mask).scanShow none

/-- R450. The outcome of a scan. -/
def scanDone (patterns fails first : Nat) (bad : Option Nat) : Done :=
  match bad with
  | some g => { status := stFAULTED, cls := 0x04, result := g % 2 ^ 32, die := 0x50, unit := 0x31 }
  | none =>
    if fails = 0 then { status := stSUCCESS, result := patterns % 2 ^ 32 }
    else { status := stFAULTED, cls := 0x01, result := first % 2 ^ 32 * 2 ^ 32 + fails % 2 ^ 32, die := 0x50, unit := 0x31 }

/-- R449, R450. SCAN_FINISH: the block leaves reset, and the scan completes. -/
def scanFinish (s : State) (c : Scan) (patterns fails first : Nat) (bad : Option Nat) : State :=
  let s1 := ((s.dieOn c.block).scanOver c).setDone c.ring c.seq (scanDone patterns fails first bad)
  if bad.isSome then s1
  else if fails = 0 then s1.bump Reg.INTG_SCAN_STATUS Fld.INTG_SCAN_STATUS_PASSED 1
  else
    ((s1.bump Reg.INTG_SCAN_STATUS Fld.INTG_SCAN_STATUS_FAILED 1).report 0x01 2 { die := c.block, unit := 0x08, blk := some c.block }).fenceBlock c.block 0x01

/-- R450. The SCAN_FINISH command. -/
def execScanFinish (patterns fails first : Nat) (badSegment : Option Nat) (s : State) : Host.Outcome State Fault Refusal :=
  .next (match s.scan with
    | some c => if c.held then scanFinish s c patterns fails first badSegment else s
    | none => s)

/-- R451. A reset stops a scan: its descriptor completes with ABORTED, and the block follows the reset. -/
def State.scanStop (s : State) : State :=
  match s.scan with
  | some c => (s.scanOver c).setDone c.ring c.seq { status := stABORTED }
  | none => s

end Sys2Proof.Machine
end

