-- ==== Sys2Proof/Machine/Link.lean ====
section
/-!
DEFINITION. The link layer of the 48 ports (spec/07 R303-R321), discovery and the link plan (R333-R340), Keep-warm
(R341-R344), and the crossing of a port through OFF (spec/11 R505).
-/
namespace Sys2Proof.Machine

open Sys2Proof

/-! ### Port states (R337, R338) -/

/-- States of a port whose link does not carry flits, by STATE of PORT_STATUS (R356): disabled, training, or given up. -/
def pOFF : Nat := 0
def pTRAINING : Nat := 1
def pDOWN : Nat := 6

/-- The context of a report or event about port p. -/
def portCtx (p : Nat) (vals : List Nat) : Ctx :=
  { die := 0x48 + p / 6, unit := 0x20, port := p, region := some (p / 6), pool := some p, vals := vals }

/-- States of a port whose link has trained: before its HELLO is judged, on the plan, off the plan, and held off a wrong neighbour. -/
def pDISCOVERING : Nat := 2
def pACTIVE : Nat := 3
def pDORMANT : Nat := 4
def pQUARANTINED : Nat := 5

/-- A planned port of the link plan in force. -/
def State.planned (s : State) (p : Nat) : Bool := s.portCfg p Fld.FAB_PORT_CFG_PLANNED == 1

/-- How many ports satisfy a condition. -/
def portsWith (f : Nat → Bool) : Nat := ((List.range 48).filter f).length

/-- R337, R357. PLAN_STATUS follows the states of the ports; `lost` says that a planned ACTIVE port went DOWN, or that a planned
port missed its ten seconds. -/
def State.countPlan (s : State) (lost : Bool) : State :=
  let down := portsWith (fun p => s.planned p && s.portState p == pDOWN)
  let w := s.reg Reg.FAB_PLAN_STATUS
  let deg := if down = 0 then 0 else if lost then 1 else Fld.FAB_PLAN_STATUS_DEGRADED.get w
  s.setReg Reg.FAB_PLAN_STATUS
    (Fld.FAB_PLAN_STATUS_ACTIVE.put
      (Fld.FAB_PLAN_STATUS_DORMANT.put
        (Fld.FAB_PLAN_STATUS_QUARANTINED.put
          (Fld.FAB_PLAN_STATUS_DOWN.put (Fld.FAB_PLAN_STATUS_DEGRADED.put w deg) down)
          (portsWith (fun p => s.portState p == pQUARANTINED)))
        (portsWith (fun p => s.portState p == pDORMANT)))
      (portsWith (fun p => s.portState p == pACTIVE)))

/-- R338. Port p changes state; the change is recorded. -/
def State.setPortState (s : State) (p st : Nat) (lost : Bool) : State :=
  if s.portState p = st then s.countPlan lost
  else ((s.fput (Reg.FAB_PORT_STATUS (p / 6) (p % 6)) Fld.FAB_PORT_STATUS_STATE st).countPlan lost).event 0x0101 (portCtx p [])

/-- No interval of HOLD. -/
def noHolds (_ : Nat) : List (Nat × Option Nat) := []

/-- R464. Port p begins a retry: it asserts HOLD for the operations that wait on it. -/
def State.openHold (s : State) (p : Nat) : State :=
  let xs := tblGet noHolds s.flt.holds p
  if xs.any (·.2.isNone) then s
  else { s with flt := { s.flt with holds := tblPut noHolds s.flt.holds p (xs ++ [(s.clk.now, none)]) } }

/-- R464. The retry of port p is over. -/
def State.closeHold (s : State) (p : Nat) : State :=
  let xs := tblGet noHolds s.flt.holds p
  { s with flt := { s.flt with holds := tblPut noHolds s.flt.holds p (xs.map (fun x => if x.2.isNone then (x.1, some s.clk.now) else x)) } }

/-- LINK messages of a kind wait no longer for an answer. -/
def Port.dropLink (pt : Port) (f : LinkMsg → Bool) : Port :=
  { pt with linkOut := pt.linkOut.filter (fun m => !f m), linkSent := pt.linkSent.filter (fun m => !f m) }

/-- A LINK message waits to be sent until it is answered. -/
def Port.addLink (pt : Port) (m : LinkMsg) : Port :=
  { pt with linkOut := pt.linkOut.filter (· != m) ++ [m], linkSent := pt.linkSent.filter (· != m) }

/-- R318, R338, R464. Port p enters TRAINING; leaving ACTIVE counts as a retrain. -/
def State.train (s : State) (p : Nat) (retry : Bool) : State :=
  let was := s.portState p
  let again := was == pACTIVE
  let pt := s.port p
  let rs := s.recentRetrains p ++ (if again then [s.clk.now] else [])
  let s1 := s.setPort p { pt with
    trainAt := s.clk.now, retry := retry, retrains := rs, lost := pt.lost || again, nakRun := 0, linkOut := [], linkSent := [],
    kwAsked := false, kwPeer := false, kwExit := false }
  ((s1.fput (Reg.FAB_PORT_STATUS (p / 6) (p % 6)) Fld.FAB_PORT_STATUS_KW 0).setPortState p pTRAINING false).openHold p

/-! ### Credits (R310, R311, R472) -/

/-- R311. Receive slots that one class of a channel has: half of 16 × the VC_CREDITS field in force. -/
def State.pairCredits (s : State) (p vc : Nat) : Nat := bitsOf (s.cfg (Reg.FAB_VC_CREDITS (p / 6)) Fld.FAB_VC_CREDITS_ALL) (8 * vc + 7) (8 * vc) * 8

/-- Credits of a pair in use at port p. -/
def Port.usedOf (pt : Port) (key : Nat) : Nat := tblGet zeroAt pt.used key

/-- R311, R472. Credits that the other end returns. -/
def State.creditBack (s : State) (p : Nat) (c : Option (Nat × Nat × Nat)) : State :=
  match c with
  | none => s
  | some (vc, cls, n) =>
    let pt := s.port p
    (s.setPort p { pt with used := tblPut zeroAt pt.used (pairKey vc cls) (pt.usedOf (pairKey vc cls) - n) }).count
      (Reg.FLT_AUDIT p) Fld.FLT_AUDIT_RETURNED n

/-- R320, R505. Every credit that port p has in use returns to its pool. -/
def State.allCreditsBack (s : State) (p : Nat) : State :=
  let pt := s.port p
  (s.setPort p { pt with used := [] }).count (Reg.FLT_AUDIT p) Fld.FLT_AUDIT_RETURNED ((pt.used.map (·.2)).sum)

/-- R334, R439. Channels whose credits link die r withholds: VC1 to VC5 while its function is STOPPED or in CHANGE, and VC4 while its
quarantine buffer is full. -/
def State.withheld (s : State) (p vc : Nat) : Bool :=
  ((s.fnState (0x30 + p / 6) == fnSTOPPED || s.fnState (0x30 + p / 6) == fnCHANGE) && 1 ≤ vc && vc ≤ 5) || (vc == 4 && s.quarFull (p / 6))

/-- Credits for the other end that port p may return now, at most two pairs. -/
def State.returnable (s : State) (p : Nat) : List (Nat × Nat) :=
  ((s.port p).giveBack.filter (fun e => !s.withheld p (e.1 / 2))).take 2

/-- A credit field of a flit (R307). -/
def creditField (e : Nat × Nat) : Nat × Nat × Nat := (e.1 / 2, e.1 % 2, min e.2 2047)

/-- A slot count shrinks by what a flit returned. -/
def giveLess (g : Tbl Nat) (es : List (Nat × Nat)) : Tbl Nat :=
  es.foldl (fun g e => tblPut zeroAt g e.1 (tblGet zeroAt g e.1 - min e.2 2047)) g

/-- R472. At a quiescent point (nothing unacknowledged, no credit in use) the pool of port p must balance. -/
def State.auditPort (s : State) (p : Nat) : State :=
  let w := s.reg (Reg.FLT_AUDIT p)
  if (s.port p).replay.isEmpty && (s.port p).used.isEmpty &&
      subMod 32 (Fld.FLT_AUDIT_ISSUED.get w) (Fld.FLT_AUDIT_RETURNED.get w) != 0 then
    s.report 0x05 3 { portCtx p [p] with fn := some (0x30 + p / 6) }
  else s

/-! ### Sending flits (R307-R313, R315-R317) -/

/-- R307. A CREDIT field. -/
def creditWord : Option (Nat × Nat × Nat) → Nat
  | some (vc, cls, n) => vc + cls * 8 + n * 16 + 2 ^ 15
  | none => 0

/-- R307. The content of a LINK flit. -/
def linkContent : LinkMsg → List Byte
  | .hello chip valid port => Config.linkContent 0 [chip, if valid then 1 else 0, port]
  | .keepWarm => Config.linkContent 1 []
  | .keepWarmExit => Config.linkContent 2 []
  | .lastSeq seq off => Config.linkContent 3 [seq, if off then 1 else 0]

/-- R307. The 256 bytes of a flit; payload bytes that hold nothing are zero (assumption 119). -/
def flitBytes (f : Flit) : List Byte :=
  let pay := match f.link with | some m => linkContent m | none => f.payload
  let b := leBytes 2 (f.seq % 4096 + f.type * 4096) ++
    leBytes 1 (f.vc % 8 + (if f.sop then 8 else 0) + (if f.eop then 16 else 0) + f.cls % 2 * 32) ++ leBytes 1 f.payload.length ++
    leBytes 2 (f.ackSeq % 4096 + (if f.ackValid then 2 ^ 12 else 0) + if f.nak then 2 ^ 13 else 0) ++
    leBytes 2 (creditWord f.credit0) ++ leBytes 2 (creditWord f.credit1) ++ leBytes 2 0 ++
    (pay ++ List.replicate (240 - pay.length) 0#8).take 240
  b ++ leBytes 4 (crc32c b)

/-- A flit of port p with its present acknowledgement. -/
def State.acked (s : State) (p : Nat) (f : Flit) : Flit := { f with ackSeq := ((s.port p).rxNext + 4095) % 4096, ackValid := true }

/-- A new flit of port p, with the acknowledgement and the credits that it may return. -/
def State.freshFlit (s : State) (p : Nat) (f : Flit) : Flit :=
  let cs := s.returnable p
  { s.acked p f with credit0 := (cs[0]?).map creditField, credit1 := (cs[1]?).map creditField }

/-- A flit leaves port p. -/
def State.emitFlit (s : State) (p : Nat) (g : Flit) : State :=
  (s.setPort p { s.port p with sinceAck := 0, lastAck := s.clk.now }).emit (.flit p g (flitBytes g))

/-- R307. A new flit leaves port p with acknowledgement and credits. -/
def State.putFlit (s : State) (p : Nat) (f : Flit) : State :=
  let pt := s.port p
  (s.setPort p { pt with giveBack := giveLess pt.giveBack (s.returnable p) }).emitFlit p (s.freshFlit p f)

/-- R453. The next packet of a pair: the one begun, else transit and local in turn. -/
def nextQueued (lastTr : Bool) (q : List Queued) : Option Queued :=
  match q.find? (·.begun) with
  | some x => some x
  | none => match q.find? (fun x => x.from_.isSome != lastTr) with
    | some x => some x
    | none => q.head?

/-- R311, R313. The pair of a channel that port p may send from, with its packet. -/
def State.pairReady (s : State) (p vc : Nat) : Option (Nat × Queued) :=
  let pt := s.port p
  let last := tblGet falseAt pt.lastTr vc
  let c (cls : Nat) : Option (Nat × Queued) :=
    if pt.usedOf (pairKey vc cls) < s.pairCredits p vc then
      (nextQueued last (tblGet noQueue pt.queue (pairKey vc cls))).map (fun q => (cls, q))
    else none
  match c 0, c 1 with
  | some a, some b => if a.2.begun || (!b.2.begun && a.2.from_.isSome != last) then some a else some b
  | some a, none => some a
  | none, b => b

/-- R313. The weight of a channel in force. -/
def State.vcWeight (s : State) (p vc : Nat) : Nat :=
  bitsOf (s.cfg (Reg.FAB_VC_WEIGHT (p / 6)) Fld.FAB_VC_WEIGHT_ALL) (4 * (vc - 1) + 3) (4 * (vc - 1))

/-- R312, R313. The channel that sends next: VC0 first, else weighted round robin over VC1 to VC6. -/
def State.nextVc (s : State) (p : Nat) : Option Nat :=
  let pt := s.port p
  let order := (if pt.wrrLeft > 0 then [pt.wrrVc] else []) ++ (List.range 6).map (fun i => (pt.wrrVc + i) % 6 + 1)
  if (s.pairReady p 0).isSome then some 0 else order.find? (fun vc => (s.pairReady p vc).isSome)

/-- R309, R311, R315, R453. The next 240 bytes of a packet leave as a DATA flit, which the replay buffer keeps as it was sent. -/
def State.sendData (s : State) (p vc cls : Nat) (q : Queued) : State :=
  let pt := s.port p
  let key := pairKey vc cls
  let rest := q.rest.drop 240
  let f : Flit := { type := 1, seq := pt.txSeq, vc := vc, cls := cls, sop := !q.begun, eop := rest.isEmpty, payload := q.rest.take 240 }
  let others := dropFirst (fun x => x == q) (tblGet noQueue pt.queue key)
  let g := s.freshFlit p f
  let pt1 := { pt with
    txSeq := (pt.txSeq + 1) % 4096
    replay := pt.replay ++ [g]
    sent0 := if vc = 0 && rest.isEmpty then pt.sent0 ++ [(pt.txSeq, q)] else pt.sent0
    used := tblPut zeroAt pt.used key (pt.usedOf key + 1)
    queue := tblPut noQueue pt.queue key (if rest.isEmpty then others else { q with rest := rest, begun := true } :: others)
    lastTr := if q.begun then pt.lastTr else tblPut falseAt pt.lastTr vc q.from_.isSome
    lastLink := false
    wrrVc := if vc = 0 then pt.wrrVc else vc
    wrrLeft := if vc = 0 then pt.wrrLeft else if vc = pt.wrrVc && pt.wrrLeft > 0 then pt.wrrLeft - 1 else s.vcWeight p vc - 1 }
  let s1 := (s.setPort p pt1).count (Reg.FLT_AUDIT p) Fld.FLT_AUDIT_ISSUED 1
  let s2 := s1.evCount (0x48 + p / 6) 0x60 1 q.pkt.layer q.pkt.op (fun m => bitOf m (8 + vc) && bitOf m (p % 6))
  (if pUnconf0 q then s2.evCount (0x48 + p / 6) 0x65 1 q.pkt.layer q.pkt.op else s2).putFlit p f
where
  /-- R434. The first flit of an UNCONFIRMED packet. -/
  pUnconf0 (q : Queued) : Bool := !q.begun && bitOf q.pkt.flags 0

/-- Queued flits of port p on channels lo to hi. -/
def Port.queued (pt : Port) (lo hi : Nat) : Nat :=
  ((pt.queue.filter (fun e => lo ≤ e.1 / 2 && e.1 / 2 ≤ hi)).map (fun e => ((e.2.map (fun q => ceilDiv q.rest.length 240)).sum))).sum

/-- The port is in Keep-warm (R341). -/
def State.inKeepWarm (s : State) (p : Nat) : Bool := s.fget (Reg.FAB_PORT_STATUS (p / 6) (p % 6)) Fld.FAB_PORT_STATUS_KW == 1

/-- R341. Port p enters Keep-warm when both ends have sent their request and nothing waits on VC2 to VC5. -/
def State.enterKeepWarm (s : State) (p : Nat) : State :=
  let pt := s.port p
  if s.portState p = pACTIVE && pt.kwAsked && pt.linkSent.contains .keepWarm && pt.kwPeer && pt.queued 2 5 = 0 then
    (s.setPort p { pt.dropLink (· == .keepWarm) with kwAsked := false, kwPeer := false, kwExit := false }).fput
      (Reg.FAB_PORT_STATUS (p / 6) (p % 6)) Fld.FAB_PORT_STATUS_KW 1
  else s

/-- R312, R313, R315, R317. Port p sends the DATA flit that is next, if it has one: a replay, else one of a channel with traffic and
credit while the replay buffer has room. -/
def State.dataTurn (s : State) (p : Nat) : Option State :=
  let pt := s.port p
  if s.portState p != pACTIVE then none
  else match pt.resend with
    | f :: fs => some ((s.setPort p { pt with resend := fs }).emitFlit p (s.acked p f))
    | [] =>
      if pt.replay.length ≥ 2048 then none
      else match s.nextVc p with
        | none => none
        | some vc => (s.pairReady p vc).map (fun x => s.sendData p vc x.1 x.2)

/-- R312. A VC0 flit is ready: one to be sent again, or one with credit. -/
def State.vc0Ready (s : State) (p : Nat) : Bool :=
  s.portState p == pACTIVE && ((s.port p).resend.any (·.vc == 0) || ((s.pairReady p 0).isSome && (s.port p).replay.length < 2048))

/-- R308. A LINK flit leaves, to be repeated until it is answered. -/
def State.sendLink (s : State) (p : Nat) (m : LinkMsg) : State :=
  let pt := s.port p
  (s.setPort p { pt with linkOut := pt.linkOut.drop 1 ++ [m], lastLink := true
                         linkSent := if pt.linkSent.contains m then pt.linkSent else pt.linkSent ++ [m] }).putFlit p { type := 2, link := some m }

/-- R308, R312, R313, R317. Port p sends its next flit: a LINK flit that awaits its answer, in turn with DATA and behind a VC0 flit that is
ready; a DATA flit; else IDLE. -/
def flitSend (s : State) (p : Nat) : State :=
  let s1 := match (s.port p).linkOut, (s.port p).lastLink || s.vc0Ready p with
    | m :: _, false => s.sendLink p m
    | _, _ =>
      let z := s.setPort p { s.port p with lastLink := false }
      match z.dataTurn p with
      | some t => t
      | none => z.putFlit p {}
  s1.enterKeepWarm p

/-- R473. The duplicate credit counters of port p differ: resolved by parity (`fatal` false) or not. -/
def State.parityFault (s : State) (p : Nat) (fatal : Bool) : State :=
  if fatal then s.report 0x05 4 { portCtx p [p] with fn := some (0x30 + p / 6) } else s.corrected (0x100 + p) 1

/-! ### Acknowledgements (R315-R317) -/

/-- R315. The flits up to an acknowledged SEQ leave a buffer; a SEQ that it does not hold changes nothing. -/
def ackList (seq : Nat) (l : List Flit) : List Flit :=
  if l.any (·.seq == seq) then (l.dropWhile (·.seq != seq)).drop 1 else l

/-- R315, R464. An acknowledgement of `seq` at port p. -/
def State.ackUpTo (s : State) (p seq : Nat) : State :=
  let pt := s.port p
  if pt.replay.any (·.seq == seq) then
    let r := ackList seq pt.replay
    let again := pt.resend.filter (fun f => r.contains f)
    let s1 := s.setPort p { pt with replay := r, resend := again, sent0 := pt.sent0.filter (fun x => r.any (·.seq == x.1)), nakRun := 0 }
    if again.isEmpty && s.portState p == pACTIVE then s1.closeHold p else s1
  else s

/-- R317. A NAK with the last good SEQ: everything after it is sent again, in its original order. -/
def State.nakAt (s : State) (p seq : Nat) : State :=
  let run := if (s.port p).nakRun > 0 && (s.port p).nakSeq = seq then (s.port p).nakRun + 1 else 1
  let s1 := s.ackUpTo p seq
  let pt := s1.port p
  let s2 := (s1.setPort p { pt with resend := pt.replay, nakSeq := seq, nakRun := run }).openHold p
  (s2.bump (Reg.FAB_PORT_ERR (p / 6) (p % 6)) Fld.FAB_PORT_ERR_REPLAYS 1).evCount (0x48 + p / 6) 0x62 1 0xFFFF 0xFFFF (fun m => bitOf m (p % 6))

/-- Ports that carry flits. -/
def State.carries (s : State) (p : Nat) : Bool := p < 48 && 2 ≤ s.portState p && s.portState p ≤ 5

/-- R317. The NAK_RECEIVE command. -/
def execNakReceive (p seq : Nat) (s : State) : Host.Outcome State Fault Refusal := .next (if s.carries p then s.nakAt p seq else s)

/-- R315. The ACK_RECEIVE command. -/
def execAckReceive (p seq : Nat) (s : State) : Host.Outcome State Fault Refusal := .next (if s.carries p then s.ackUpTo p seq else s)

/-- R316. ACK_TIMER: one microsecond after the last acknowledgement, another one leaves, in an IDLE flit. -/
def execAckTimer (p : Nat) (s : State) : Host.Outcome State Fault Refusal :=
  .next (if s.carries p then (s.reach ((s.port p).lastAck + 1000)).putFlit p {} else s)

/-- R307, R308. The acknowledgement and credits of a flit that arrives. -/
def State.flitHead (s : State) (p : Nat) (f : Flit) : State :=
  let s1 := if f.nak then s.nakAt p f.ackSeq else if f.ackValid then s.ackUpTo p f.ackSeq else s
  (s1.creditBack p f.credit0).creditBack p f.credit1

/-- R317. One NAK with the last good SEQ leaves, and DATA flits are discarded until the replay. -/
def State.sendNak (s : State) (p : Nat) : State := (s.setPort p { s.port p with discard := true }).putFlit p { nak := true }

/-- R317. A flit fails its CRC check, of whatever type: it is counted and NAKed, one that is replayed as well. -/
def State.crcFail (s : State) (p : Nat) : State :=
  ((s.bump (Reg.FAB_PORT_ERR (p / 6) (p % 6)) Fld.FAB_PORT_ERR_CRC_ERR 1).corrected (0x100 + p) 1).sendNak p

/-- R307, R317. A flit arrives that takes no SEQ: its acknowledgement and credits are taken, and it acts, unless it fails its CRC check. -/
def State.flitIn (s : State) (p : Nat) (f : Flit) (crcOk : Bool) (act : State → State) : State :=
  if crcOk then act (s.flitHead p f) else s.crcFail p

/-- R308. The IDLE_FLIT_RECEIVE command. -/
def execIdleFlitReceive (p : Nat) (f : Flit) (crcOk : Bool) (s : State) : Host.Outcome State Fault Refusal :=
  .next (if s.carries p && f.type = 0 then s.flitIn p f crcOk id else s)

/-! ### Receiving DATA flits (R309, R314, R316, R317) -/

/-- R317. A DATA flit arrives out of order: one NAK leaves, and none for those discarded while the replay is awaited. -/
def State.rejectFlit (s : State) (p : Nat) : State := if (s.port p).discard then s else s.sendNak p

/-- R309. The payload of an accepted flit joins its packet; a packet that is whole waits in the port's inbox with the slots that it
fills. -/
def State.takePayload (s : State) (p : Nat) (f : Flit) : State :=
  let pt := s.port p
  let key := pairKey f.vc f.cls
  let bytes := (if f.sop then [] else tblGet noBytes pt.asm key) ++ f.payload
  if f.eop then
    s.setPort p { pt with asm := tblPut noBytes pt.asm key [], inbox := pt.inbox ++ [({ packetOf bytes f.vc f.cls with port := p }, ceilDiv bytes.length 240)] }
  else s.setPort p { pt with asm := tblPut noBytes pt.asm key bytes }

/-- R316. An acknowledgement leaves after 64 accepted flits. -/
def State.ackDue (s : State) (p : Nat) : State := if (s.port p).sinceAck ≥ 64 then s.putFlit p {} else s

/-- R314, R316, R317. A DATA flit arrives at port p. -/
def dataFlit (s : State) (p : Nat) (f : Flit) (crcOk : Bool) : State :=
  let pt := s.port p
  if !crcOk then s.crcFail p
  else if f.seq != pt.rxNext then s.rejectFlit p
  else
    let s1 := (s.setPort p { pt with rxNext := (pt.rxNext + 1) % 4096, discard := false, sinceAck := pt.sinceAck + 1 }).flitHead p f
    let s2 := if f.vc = 7 then s1.bump (Reg.FAB_STATUS (p / 6)) Fld.FAB_STATUS_VC7_DROP 1
      else (s1.evCount (0x48 + p / 6) 0x61 1 0xFFFF 0xFFFF (fun m => bitOf m (8 + f.vc) && bitOf m (p % 6))).takePayload p f
    s2.ackDue p

/-- R316. The DATA_FLIT_RECEIVE command; only an ACTIVE port carries DATA flits (R318, R338). -/
def execDataFlitReceive (p : Nat) (f : Flit) (crcOk : Bool) (s : State) : Host.Outcome State Fault Refusal :=
  .next (if p < 48 && s.portState p = pACTIVE && f.type = 1 then dataFlit s p f crcOk else s)

/-! ### Training and the loss of a port (R318-R320, R338, R505) -/

/-- R320. Packets of a channel of a port that are not acknowledged: those whose last flit the replay buffer holds, and those queued. -/
def Port.unacked (pt : Port) (vc : Nat) : Nat :=
  (pt.replay.filter (fun f => f.vc == vc && f.eop)).length +
    ([0, 1].map (fun cls => (tblGet noQueue pt.queue (pairKey vc cls)).length)).sum

/-- R320. The VC0 packets of a port that are not acknowledged, in the order sent. -/
def Port.unacked0 (pt : Port) : List Queued :=
  pt.sent0.map (·.2) ++ [0, 1].flatMap (fun cls => tblGet noQueue pt.queue (pairKey 0 cls))

/-- A port's buffers are emptied. -/
def Port.emptied (pt : Port) : Port :=
  { pt with replay := [], resend := [], sent0 := [], queue := [], asm := [], used := [], nakRun := 0, discard := false }

/-- R320, R327. VC0 packets go out again on another port, ahead of new VC0 traffic and in the class of the new hop; without a route they
are discarded (R331). -/
def State.resendVc0 (s : State) (r : Nat) (qs : List Queued) : State :=
  qs.foldr (fun q s => match s.tryForward r { q.pkt with cls := q.inCls } q.from_ true with
    | some t => t
    | none => s.bump (Reg.FAB_STATUS r) Fld.FAB_STATUS_NO_ROUTE 1) s

/-- R320. Port p no longer carries traffic: VC0 packets are sent again, the others discarded, the credits return. The answer
tells how many packets were discarded. -/
def State.dropTraffic (s : State) (p : Nat) : State × Nat :=
  let pt := s.port p
  let n := ((List.range 6).map (fun i => pt.unacked (i + 1))).sum
  let s1 := (s.allCreditsBack p).closeHold p
  ((s1.setPort p (s1.port p).emptied).resendVc0 (p / 6) pt.unacked0, n)

/-- R319, R320, R337. Port p goes DOWN; a retry from DOWN that fails raises no further report. -/
def portDown (s : State) (p : Nat) : State :=
  let pt := s.port p
  let s1 := s.setPortState p pDOWN (pt.lost && s.planned p)
  let q := s1.dropTraffic p
  let s2 := q.1.setPort p { q.1.port p with trainAt := s.clk.now, lost := false, retry := false }
  if pt.retry then s2 else s2.report 0x06 2 (portCtx p [q.2])

/-- R318, R319. Port p retrains; with its third retrain within 60 s it goes DOWN. -/
def State.retrain (s : State) (p : Nat) : State :=
  let s1 := s.train p false
  if (s1.recentRetrains p).length ≥ 3 then portDown s1 p else s1

/-- R318. PORT_RETRAIN: the same ACK_SEQ has been NAKed eight times in a row. -/
def execPortRetrain (p : Nat) (s : State) : Host.Outcome State Fault Refusal :=
  .next (if p < 48 && s.portState p = pACTIVE && (s.port p).nakRun ≥ 8 then s.retrain p else s)

/-- R338. PORT_LINK_LOSS. -/
def execPortLinkLoss (p : Nat) (s : State) : Host.Outcome State Fault Refusal :=
  .next (if p < 48 && 3 ≤ s.portState p && s.portState p ≤ 5 then s.retrain p else s)

/-- R338. PORT_DOWN_RETRY: one second after it went DOWN, an enabled port trains again. -/
def execPortDownRetry (p : Nat) (s : State) : Host.Outcome State Fault Refusal :=
  .next (if p < 48 && s.portState p = pDOWN && s.portCfg p Fld.FAB_PORT_CFG_ENABLE = 1 then
      (s.reach ((s.port p).trainAt + 1000000000)).train p true
    else s)

/-- R319. PORT_TRAINING_TIMEOUT: 5 ms have passed in TRAINING. -/
def execPortTrainingTimeout (p : Nat) (s : State) : Host.Outcome State Fault Refusal :=
  .next (if p < 48 && s.portState p = pTRAINING then portDown (s.reach ((s.port p).trainAt + 5000000)) p else s)

/-- HELLO of port p (R335). -/
def State.helloMsg (s : State) (p : Nat) : LinkMsg :=
  .hello (s.fget Reg.MOD_CHIP_NUMBER ⟨15, 0⟩) s.chip.isSome p

/-- R318, R505. Port p finishes training, the two ends having exchanged their last accepted SEQ in LINK flits. After a crossing through
OFF of either end both discard their traffic; else the sender replays from the SEQ that the other end accepted last. HELLO follows. -/
def trained (s : State) (p lastSeq : Nat) (passedOff : Bool) : State :=
  let pt := s.port p
  let s1 :=
    if passedOff || pt.passedOff then
      let n := ((List.range 7).map pt.unacked).sum
      let a := (s.allCreditsBack p).bump (Reg.FAB_STATUS (p / 6)) Fld.FAB_STATUS_NO_ROUTE n
      a.setPort p { (a.port p).emptied with txSeq := 0, rxNext := 0, passedOff := false, giveBack := [] }
    else
      let a := s.ackUpTo p lastSeq
      a.setPort p { a.port p with resend := (a.port p).replay, discard := false }
  let a := (s1.setPort p { s1.port p with retry := false, linkOut := [s1.helloMsg p], linkSent := [], lastLink := false }).putFlit p
    { type := 2, link := some (.lastSeq (((s1.port p).rxNext + 4095) % 4096) pt.passedOff) }
  (a.setPortState p pDISCOVERING false).auditPort p

/-- R318. The PORT_TRAINING_COMPLETE command. -/
def execPortTrainingComplete (p lastSeq : Nat) (passedOff : Bool) (s : State) : Host.Outcome State Fault Refusal :=
  .next (if p < 48 && s.portState p = pTRAINING then trained s p lastSeq passedOff else s)

/-- R338, R505. Port p goes to OFF: at a reset, or when it is disabled. -/
def State.portOff (s : State) (p : Nat) : State :=
  if s.portState p = pOFF then s
  else
    let s1 := s.setPortState p pOFF false
    let q := s1.dropTraffic p
    (q.1.setPort p { q.1.port p with passedOff := true, linkOut := [], linkSent := [], lost := false, kwAsked := false, kwPeer := false, kwExit := false }).fput
      (Reg.FAB_PORT_STATUS (p / 6) (p % 6)) Fld.FAB_PORT_STATUS_KW 0

/-- R333, R338. RESTART of link die r: an enabled port leaves OFF, DORMANT and QUARANTINED for TRAINING, a disabled one goes to
OFF. -/
def State.applyPorts (s : State) (r : Nat) : State :=
  ((List.range 6).foldl (fun s i =>
    let p := 6 * r + i
    if s.portCfg p Fld.FAB_PORT_CFG_ENABLE = 1 then
      (if s.portState p = pOFF || s.portState p = pDORMANT || s.portState p = pQUARANTINED then s.train p false else s)
    else s.portOff p) s).countPlan false

/-! ### Discovery (R335-R337) -/

/-- A HELLO. -/
def isHello (m : LinkMsg) : Bool := match m with | .hello _ _ _ => true | _ => false

/-- R335. HELLO_TIMER: a HELLO for each port that is up, and the audit of R472. -/
def execHelloTimer (s : State) : Host.Outcome State Fault Refusal :=
  .next ((List.range 48).foldl (fun s p =>
    if 2 ≤ s.portState p && s.portState p ≤ 5 then
      (s.setPort p (((s.port p).dropLink isHello).addLink (s.helloMsg p))).auditPort p
    else s) s)

/-- R336, R338. A judged HELLO at port p, the first after training or a later one: the table of R336 decides the state each time
(assumption 119); a port leaves QUARANTINED and DORMANT only as R338 says. -/
def State.judgeHello (s : State) (p chip port : Nat) : State :=
  let st := s.portState p
  let s1 := (s.fput (Reg.FAB_PORT_STATUS (p / 6) (p % 6)) Fld.FAB_PORT_STATUS_NEIGH_CHIP chip).fput
    (Reg.FAB_PORT_STATUS (p / 6) (p % 6)) Fld.FAB_PORT_STATUS_NEIGH_PORT port
  let plan := s.portCfg p Fld.FAB_PORT_CFG_PLAN_PORT
  if st = pQUARANTINED then s1
  else if s.chip == some chip || (s.planned p && chip != s.portCfg p Fld.FAB_PORT_CFG_PLAN_CHIP) then s1.setPortState p pQUARANTINED false
  else if !s.planned p then (s1.setPortState p pDORMANT false).report 0x0A 0 (portCtx p [port])
  else if st = pDORMANT then s1
  else
    let s2 := (s1.setPort p { s1.port p with lost := false, reached := true }).setPortState p pACTIVE false
    let s3 := if (s2.port p).resend.isEmpty then s2.closeHold p else s2
    if port = plan then s3 else s3.report 0x0A 0 (portCtx p [plan, port])

/-- R308, R335. A HELLO answers the one that port p repeats, if that was sent; else it is answered with one. -/
def State.answerHello (s : State) (p : Nat) : State :=
  let pt := s.port p
  let z := s.setPort p (pt.dropLink isHello)
  if pt.linkSent.any isHello then z else z.putFlit p { type := 2, link := some (s.helloMsg p) }

/-- R335. A HELLO is answered, and judged when its VALID bit is set and discovery has started here. -/
def State.takeHello (s : State) (p chip : Nat) (valid : Bool) (port : Nat) : State :=
  let s1 := s.answerHello p
  if valid && s.chip.isSome then s1.judgeHello p chip port else s1

/-- R307, R336. The HELLO_RECEIVE command: a LINK flit with a HELLO arrives. -/
def execHelloReceive (p : Nat) (f : Flit) (crcOk : Bool) (s : State) : Host.Outcome State Fault Refusal :=
  .next (match f.link with
    | some (.hello chip valid port) => if s.carries p && f.type = 2 then s.flitIn p f crcOk (fun s => s.takeHello p chip valid port) else s
    | _ => s)

/-- R320, R337. DISCOVERY_TIMEOUT: ten seconds after discovery started, a planned port has not reached ACTIVE: it is DOWN. One that is
QUARANTINED stays so (assumption 119). -/
def execDiscoveryTimeout (p : Nat) (s : State) : Host.Outcome State Fault Refusal :=
  .next (match s.fab.discStart with
    | some t =>
      if p < 48 && s.planned p && !(s.port p).reached then
        let s1 := s.reach (t + 10000000000)
        if s.portState p ≤ pDISCOVERING then
          let s2 := ((s1.setPortState p pDOWN true).dropTraffic p).1
          s2.setPort p { s2.port p with trainAt := s1.clk.now, lost := false, retry := false }
        else s1.countPlan true
      else s
    | none => s)

/-! ### Keep-warm (R341-R343) -/

/-- The module is in DOZE (R721). -/
def State.dozing (s : State) : Bool := s.fget Reg.PWR_STATE Fld.PWR_STATE_STATE == 4

/-- R341. Port p of this module asks for Keep-warm. -/
def State.wantsKeepWarm (s : State) (p : Nat) : Bool :=
  (s.dozing && s.portCfg p Fld.FAB_PORT_CFG_KW_ALLOW == 1) || s.portCfg p Fld.FAB_PORT_CFG_KW_FORCE == 1

/-- R341. Port p, ACTIVE and at full rate, sends its own request; a port with KW_FORCE need not be in DOZE. -/
def State.askKeepWarm (s : State) (p : Nat) : State :=
  let pt := s.port p
  if s.portState p = pACTIVE && s.wantsKeepWarm p && !pt.kwAsked && !s.inKeepWarm p then
    s.setPort p { pt.addLink .keepWarm with kwAsked := true }
  else s

/-- R308, R341. The other end's request arrives; in Keep-warm already, it is one repeated for want of an answer, and is answered. -/
def State.kwAskedBy (s : State) (p : Nat) : State :=
  if s.inKeepWarm p then s.putFlit p { type := 2, link := some .keepWarm }
  else State.enterKeepWarm (s.setPort p { s.port p with kwPeer := true }) p

/-- R341. The KEEP_WARM_REQUEST command: this end asks, or the other end's request arrives in a LINK flit. -/
def execKeepWarmRequest (p : Nat) (rx : Option Flit) (crcOk : Bool) (s : State) : Host.Outcome State Fault Refusal :=
  .next (if s.carries p then
      match rx with
      | none => s.askKeepWarm p
      | some f => if f.type = 2 && f.link == some .keepWarm then s.flitIn p f crcOk (fun s => s.kwAskedBy p) else s
    else s)

/-- R303, R749. The laser of lane l emits: its link die is powered, its port enabled, and in Keep-warm it is the port's first lane. -/
def State.laneEmits (s : State) (l : Nat) : Bool :=
  s.blockUp (0x48 + l / 24) && s.portCfg (l / 4) Fld.FAB_PORT_CFG_ENABLE == 1 && (!s.inKeepWarm (l / 4) || l % 4 == 0)

/-- R343. Occasions on which this end asks to leave Keep-warm. -/
def State.leavesKeepWarm (s : State) (p : Nat) : Bool := !s.wantsKeepWarm p || (s.port p).queued 0 6 > 256

/-- R343. Port p of this module sends the exit request. -/
def State.askExit (s : State) (p : Nat) : State :=
  let pt := s.port p
  if s.inKeepWarm p && s.leavesKeepWarm p && !pt.kwExit then s.setPort p { pt.addLink .keepWarmExit with kwExit := true } else s

/-- R343. The KEEP_WARM_EXIT_REQUEST command: this end asks, or the other end's request arrives in a LINK flit. -/
def execKeepWarmExitRequest (p : Nat) (rx : Option Flit) (crcOk : Bool) (s : State) : Host.Outcome State Fault Refusal :=
  .next (if s.carries p then
      match rx with
      | none => s.askExit p
      | some f =>
        if f.type = 2 && f.link == some .keepWarmExit then
          s.flitIn p f crcOk (fun s => if s.inKeepWarm p then s.setPort p { s.port p with kwExit := true } else s)
        else s
    else s)

/-- R343. The KEEP_WARM_EXIT_COMPLETE command. -/
def execKeepWarmExitComplete (p : Nat) (s : State) : Host.Outcome State Fault Refusal :=
  .next (if s.carries p && (s.port p).kwExit then
      (s.setPort p { (s.port p).dropLink (· == .keepWarmExit) with kwExit := false, kwAsked := false, kwPeer := false }).fput
        (Reg.FAB_PORT_STATUS (p / 6) (p % 6)) Fld.FAB_PORT_STATUS_KW 0
    else s)

end Sys2Proof.Machine
end

