-- ==== Sys2Proof/Machine/Rope.lean ====
section
/-!
DEFINITION. The Rope tree (spec/07 R345-R355): JOB_START at its root, ARM, ADOPT, COMMIT and DISARM at the participants. The
layout of the packets' bodies is assumption 12.
-/
namespace Sys2Proof.Machine

open Sys2Proof

/-! ### The Rope table (R348) -/

def ropeChip (t : List Byte) (i : Nat) : Nat := leAt t (16 * i) 2
def ropeFirst (t : List Byte) (i : Nat) : Nat := leAt t (16 * i + 4) 4
def ropeCount (t : List Byte) (i : Nat) : Nat := leAt t (16 * i + 8) 2
def ropeAlt (t : List Byte) (i : Nat) : Nat := leAt t (16 * i + 12) 4

/-- The indices of the children of entry i. -/
def ropeKids (t : List Byte) (i : Nat) : List Nat := (List.range (ropeCount t i)).map (ropeFirst t i + ·)

/-- Entry j has entry i as its child. -/
def ropeHas (t : List Byte) (j i : Nat) : Bool := ropeFirst t j ≤ i && i < ropeFirst t j + ropeCount t j

/-- The parent of entry i. -/
def ropeParent (t : List Byte) (n i : Nat) : Option Nat := (List.range n).find? (fun j => ropeHas t j i)

/-- The depth of entry i; the fuel bounds the climb. -/
def ropeDepth (t : List Byte) (n : Nat) : Nat → Nat → Nat
  | 0, _ => 0
  | fuel + 1, i => if i = 0 then 0 else match ropeParent t n i with | some j => ropeDepth t n fuel j + 1 | none => 0

/-- The height of the tree, at most 16 where it is checked. -/
def ropeHeight (t : List Byte) (n : Nat) : Nat := (List.range n).foldl (fun h i => max h (ropeDepth t n 16 i)) 0

/-- Entries of a list are distinct. -/
def distinct : List Nat → Bool
  | [] => true
  | x :: t => !t.contains x && distinct t

/-- R348. The checks of the root. -/
def ropeOk (t : List Byte) (n own : Nat) : Bool :=
  ropeChip t 0 == own && distinct ((List.range n).map (ropeChip t)) &&
    (List.range n).all (fun i =>
      leAt t (16 * i + 2) 2 == 0 && leAt t (16 * i + 10) 2 == 0 && ropeCount t i ≤ 32 &&
        (ropeCount t i == 0 || (i < ropeFirst t i && ropeFirst t i + ropeCount t i ≤ n)) &&
        (ropeAlt t i == 0xFFFFFFFF || (ropeAlt t i < i && ropeParent t n i != some (ropeAlt t i))) &&
        (i == 0 || ((List.range n).filter (fun j => ropeHas t j i)).length == 1)) &&
    ropeHeight t n ≤ 15

/-! ### Packets -/

/-- A Rope packet of this module, sent by link die 0 on VC1; TAG names the entry it is sent to. -/
def State.rope (s : State) (dst kind index : Nat) (body : List Byte) : State :=
  s.send 0 { dst := dst, src := 0, kind := kind, gen := s.gen 0x30, tag := index, vc := 1, body := body }

def State.ownChip (s : State) : Nat := s.fget Reg.MOD_CHIP_NUMBER ⟨15, 0⟩

/-- ARM (KIND 0x40). -/
def armBody (job addr stat index depth height ring root : Nat) : List Byte :=
  leBytes 4 job ++ leBytes 8 addr ++ leBytes 8 stat ++ leBytes 4 index ++ leBytes 1 depth ++ leBytes 1 height ++ leBytes 1 ring ++
    leBytes 1 0 ++ leBytes 2 root ++ leBytes 2 0

/-- An acknowledgement (KIND 0x41 of ARM, 0x44 of COMMIT): the sender's index, two counts, whether it reports an adopted subtree, and the
indices that have not answered. -/
def ackBody (job index ok ref : Nat) (adopted : Bool) (silent : List Nat) : List Byte :=
  leBytes 4 job ++ leBytes 4 index ++ leBytes 4 ok ++ leBytes 4 ref ++ leBytes 1 (if adopted then 1 else 0) ++ leBytes 1 0 ++
    leBytes 2 silent.length ++ silent.flatMap (leBytes 4)

def ackSilent (k : Packet) : List Nat := (List.range (leAt k.body 18 2)).map (fun i => leAt k.body (20 + 4 * i) 4)

/-- COMMIT (KIND 0x43). -/
def commitBody (job index start root : Nat) : List Byte := leBytes 4 job ++ leBytes 4 index ++ leBytes 4 start ++ leBytes 2 root ++ leBytes 2 0

/-- ADOPT (KIND 0x42); `phase` 0 hands on ARM, 1 COMMIT. -/
def adoptBody (job addr stat height ring depth phase root start : Nat) (kids : List Nat) : List Byte :=
  leBytes 4 job ++ leBytes 8 addr ++ leBytes 8 stat ++ leBytes 1 height ++ leBytes 1 ring ++ leBytes 1 depth ++ leBytes 1 phase ++
    leBytes 2 root ++ leBytes 2 kids.length ++ leBytes 4 start ++ kids.flatMap (leBytes 4)

def adoptKids (k : Packet) : List Nat := (List.range (leAt k.body 26 2)).map (fun i => leAt k.body (32 + 4 * i) 4)

/-! ### Arming (R339, R346, R349, R350) -/

/-- R339. The state of the ports forbids a job. -/
def State.fabricRefuses (s : State) : Bool :=
  s.fget Reg.FAB_PLAN_STATUS Fld.FAB_PLAN_STATUS_QUARANTINED != 0 ||
    s.fget Reg.FAB_PLAN_STATUS Fld.FAB_PLAN_STATUS_DOWN > s.fget Reg.FAB_PLAN_STATUS Fld.FAB_PLAN_STATUS_ACCEPT_DOWN

/-- The node of a job. -/
def State.nodeOf (s : State) (job : Nat) : Option RopeNode := s.fab.nodes.find? (·.job == job)

def State.updNode (s : State) (job : Nat) (f : RopeNode → RopeNode) : State :=
  { s with fab := { s.fab with nodes := updFirst (fun n => n.job == job) f s.fab.nodes } }

/-- The module is armed for a job. -/
def State.armedFor (s : State) (job : Nat) : Bool := match s.nodeOf job with | some n => n.armed && !n.committed | none => false

/-- R349 steps 2 and 3. The status byte that the module arrives at. -/
def State.armVerdict (s : State) (job ring : Nat) : Nat :=
  if s.fabricRefuses then 0x10
  else if !s.fab.token && !s.armedFor job then 0x11
  else if s.fnState (sqFn ring) != fnRUN then 0x12
  else 0x01

/-- R346, R472. The start token is taken for a job, unless the module is armed for it already (R350). -/
def State.takeToken (s : State) (job : Nat) : State :=
  let s1 := if s.fab.token then ({ s with fab := { s.fab with token := false } } : State).count (Reg.FLT_AUDIT 146) Fld.FLT_AUDIT_ISSUED 1 else s
  s1.setReg Reg.FAB_ROPE_STATUS (Fld.FAB_ROPE_STATUS_ARMED.put (Fld.FAB_ROPE_STATUS_JOB_ID.put 0#64 job) 1)

/-- R346, R472. The start token comes back. -/
def State.returnToken (s : State) : State :=
  let s1 := if s.fab.token then s else ({ s with fab := { s.fab with token := true } } : State).count (Reg.FLT_AUDIT 146) Fld.FLT_AUDIT_RETURNED 1
  s1.setReg Reg.FAB_ROPE_STATUS 0#64

/-- The module disarms: its node goes, and the token with it when it held it. -/
def State.dropNode (s : State) (job : Nat) : State :=
  let held := match s.nodeOf job with | some n => n.armed | none => false
  let s1 : State := { s with fab := { s.fab with nodes := s.fab.nodes.filter (·.job != job) } }
  if held then s1.returnToken else s1

/-- R346, R499. Compute reset returns the token: the module is armed for no job, and no start event is due. The Rope service itself, in
link die 0, runs on. -/
def State.ropeDisarm (s : State) : State :=
  State.returnToken { s with fab := { s.fab with nodes := (s.fab.nodes.filter (!·.committed)).map (fun n => { n with armed := false }) } }

/-- R346. Module recovery and cold reset return the token, and the Rope service stops. -/
def State.ropeReset (s : State) : State := State.returnToken { s with fab := { s.fab with nodes := [], root := none } }

/-- The Rope service as a master (R345). -/
def ropeMaster : Master := .link 0 {}

/-- R349 step 3. A status byte of the root's table, written where the root is. -/
def State.putStatus (s : State) (root stat index code : Nat) : State :=
  if root = s.ownChip then s.gwrite ropeMaster 1 (ownAt (stat % 2 ^ 48 + index)) [BitVec.ofNat 8 code]
  else s.send 0 { dst := root, src := 0, kind := 0x03, gen := s.gen 0x30, addr := stat % 2 ^ 48 + index, vc := 1, body := [BitVec.ofNat 8 code] }

/-- ARM_WAIT in nanoseconds, ARM_HOLD and COMMIT_LEAD likewise (R357). -/
def State.armWait (s : State) : Nat := s.fget Reg.FAB_ROPE_CFG Fld.FAB_ROPE_CFG_ARM_WAIT * 1000
def State.armHold (s : State) : Nat := s.fget Reg.FAB_ROPE_CFG Fld.FAB_ROPE_CFG_ARM_HOLD * 1000000
def State.commitLead (s : State) : Nat := s.fget Reg.FAB_ROPE_CFG Fld.FAB_ROPE_CFG_COMMIT_LEAD * 1000000

/-- ARM goes to children (index, chip) of a node at a depth. -/
def State.armKids (s : State) (n : RopeNode) (depth : Nat) (kids : List (Nat × Nat)) : State :=
  kids.foldl (fun s k => s.rope k.2 0x40 k.1 (armBody n.job n.addr n.stat k.1 depth n.height n.ring n.root)) s

/-- R349 step 5. The acknowledgement of a node to its parent. -/
def State.armAnswer (s : State) (n : RopeNode) : State :=
  (s.rope n.parent 0x41 n.index (ackBody n.job n.index n.okCount n.refCount false (n.silent ++ n.waiting))).updNode n.job
    (fun x => { x with answered := true, silent := n.silent ++ n.waiting, waiting := [] })

/-- R349 step 5. A node answers once every child has. -/
def State.armAnswerIf (s : State) (job : Nat) : State :=
  match s.nodeOf job with
  | some n => if n.waiting.isEmpty && !n.answered then s.armAnswer n else s
  | none => s

/-- R349, R350. A module takes ARM: it arms or refuses, writes its status, forwards, and waits for its children. -/
def armNode (s : State) (n0 : RopeNode) : State :=
  let v := s.armVerdict n0.job n0.ring
  let s1 := if v = 0x01 then s.takeToken n0.job else s
  let old := s.nodeOf n0.job
  let n := { n0 with
    armed := v == 0x01 || (match old with | some m => m.armed | none => false)
    committed := match old with | some m => m.committed | none => false
    startAt := match old with | some m => m.startAt | none => none
    okCount := if v = 0x01 then 1 else 0
    refCount := if v = 0x01 then 0 else 1 }
  let s2 : State := { s1 with fab := { s1.fab with nodes := s1.fab.nodes.filter (·.job != n.job) ++ [n] } }
  ((s2.putStatus n.root n.stat n.index v).armKids n (n.depth + 1) n.kids).armAnswerIf n.job

/-- The node that an ARM packet describes, with the entries read from the root: its own, then its children's. -/
def State.nodeFor (s : State) (k : Packet) (entries : List Byte) : RopeNode :=
  let kids := (List.range (ropeCount entries 0)).map (fun i => (ropeFirst entries 0 + i, ropeChip entries (i + 1)))
  { job := leAt k.body 0 4, root := leAt k.body 28 2, addr := leAt k.body 4 8, stat := leAt k.body 12 8, index := leAt k.body 20 4,
    depth := leAt k.body 24 1, height := leAt k.body 25 1, ring := leAt k.body 26 1, parent := k.src, wait := s.armWait, hold := s.armHold,
    armed := false, armAt := s.clk.now, kids := kids, waiting := kids.map (·.1) }

/-- R349. The ARM command. -/
def execArm (pkt : Packet) (entries : List Byte) (s : State) : Host.Outcome State Fault Refusal :=
  .next (if pkt.kind = 0x40 then (match s.take pkt with | some s1 => armNode s1 (s1.nodeFor pkt entries) | none => s) else s)

/-! ### The root (R348, R351, R354, R355) -/

structure JobP where
  addr : Nat
  n    : Nat
  job  : Nat
  ring : Nat
  opts : Nat
  stat : Nat
  deriving DecidableEq, Repr

def jobP (p : List Byte) : JobP where
  addr := leAt p 0 8
  n := leAt p 8 4
  job := leAt p 12 4
  ring := leAt p 16 1
  opts := leAt p 17 1
  stat := leAt p 24 8

/-- R347. What completes a JOB_START with BAD_OPERAND before its table is read. -/
def State.jobBad (s : State) (p : List Byte) : Bool :=
  let x := jobP p
  p.length < 64 || x.addr % 64 != 0 || x.n == 0 || x.n > 32768 || x.job == 0 || x.opts / 2 != 0 || !zeroBytes p 18 23 || !zeroBytes p 32 63 ||
    !s.inOwnHbm x.addr (16 * x.n) || !s.inOwnHbm x.stat x.n

/-- The root's descriptor ends. -/
def State.endRoot (s : State) (r : RopeRoot) (d : Done) : State :=
  ({ s with fab := { s.fab with root := none } } : State).setDone r.ring r.seq { d with die := 0x48, unit := 0x25 }

def State.setRoot (s : State) (r : RopeRoot) : State := { s with fab := { s.fab with root := some r } }

/-- Entry j is entry i or a descendant of it. -/
def ropeUnder (t : List Byte) (n i : Nat) : Nat → Nat → Bool
  | 0, j => j == i
  | fuel + 1, j => j == i || (match ropeParent t n j with | some p => ropeUnder t n i fuel p | none => false)

/-- The counts of an acknowledgement include entry j. -/
def RopeAck.covers (a : RopeAck) (t : List Byte) (n j : Nat) : Bool :=
  ropeUnder t n a.index 16 j && !a.silent.any (fun i => ropeUnder t n i 16 j)

/-- R351, R352. The root takes an acknowledgement: one whose entry is counted already changes nothing, and one that counts entries whose
own acknowledgements came before stands for those. -/
def RopeRoot.takeAck (r : RopeRoot) (a : RopeAck) : RopeRoot :=
  if r.acks.any (·.covers r.entries r.n a.index) then r
  else { r with acks := r.acks.filter (fun b => !a.covers r.entries r.n b.index) ++ [a] }

/-- The ARMED (or committed) and REFUSED counts that the root has. -/
def RopeRoot.armed (r : RopeRoot) : Nat := r.okCount + (r.acks.map (·.ok)).sum
def RopeRoot.refused (r : RopeRoot) : Nat := r.refCount + (r.acks.map (·.ref)).sum
def RopeRoot.committed (r : RopeRoot) : Nat := r.cCount + (r.acks.map (·.ok)).sum

/-- R352. A node that is armed takes COMMIT from a parent: it keeps its token, and its start event is due at START_TIME, or at once when
that has passed (R353). -/
def State.commitNode (s : State) (n : RopeNode) (start parent : Nat) : State :=
  let late := s.reached start && s.timeNs != start
  let s1 := s.updNode n.job (fun x => { x with
    committed := true, startAt := if late then none else some start, cParent := parent, cAt := s.clk.now, cWaiting := x.kids.map (·.1), cCount := 1, cSilent := [], cAnswered := false })
  let s2 := (s1.fput Reg.FAB_ROPE_STATUS Fld.FAB_ROPE_STATUS_ARMED 0).fput Reg.FAB_ROPE_STATUS Fld.FAB_ROPE_STATUS_COMMITTED 1
  let s3 := if late then
      (s2.sendEvent n.ring false 0xFF).report 0x02 2 { die := 0x48, unit := 0x25, ring := n.ring, fn := some (sqFn n.ring), vals := [n.root] }
    else s2
  s3.putStatus n.root n.stat n.index 0x02

/-- COMMIT goes to children (index, chip). -/
def State.commitKids (s : State) (job start root : Nat) (kids : List (Nat × Nat)) : State :=
  kids.foldl (fun s k => s.rope k.2 0x43 k.1 (commitBody job k.1 start root)) s

/-- R354. The COMMIT phase is over. -/
def State.commitOver (s : State) (r : RopeRoot) : State :=
  if r.committed ≥ r.n then s.endRoot r { status := stSUCCESS, result := r.n }
  else s.endRoot r { status := stFAULTED, cls := 0x02, result := (r.n - r.committed) % 2 ^ 32 * 2 ^ 32 + r.committed % 2 ^ 32 }

/-- R352, R353. The root sends COMMIT, and is itself committed when it is still armed. -/
def State.rootCommit (s : State) (r : RopeRoot) : State :=
  let start := (s.timeNs + r.lead) % 2 ^ 32
  let kids := (ropeKids r.entries 0).map (fun i => (i, ropeChip r.entries i))
  let own := (s.nodeOf r.job).filter (·.armed)
  let s1 := match own with | some n => s.commitNode n start s.ownChip | none => s
  let r1 := { r with phase := 2, sentAt := s.clk.now, startTime := start, waiting := kids.map (·.1), silent := [], acks := [],
                     cCount := if own.isSome then 1 else 0, notArmed := if own.isSome then [] else [0] }
  let s2 := (s1.setRoot r1).commitKids r.job start s.ownChip (kids ++ r.adopted)
  if r.n = 1 then s2.commitOver r1 else s2

/-- R355. ARM has failed: DISARM goes down the tree, the root's adoptions included, and to the alternate parents, unless KEEP_ARMED. -/
def State.rootDisarm (s : State) (r : RopeRoot) : State :=
  if r.keep then s
  else
    let tgts := dedup (ropeKids r.entries 0 ++ r.adopted.map (·.1) ++ r.asked)
    (tgts.foldl (fun s i => s.rope (ropeChip r.entries i) 0x45 i (leBytes 4 r.job)) s).dropNode r.job

/-- R352, R354. The ARM phase is over with counts. -/
def State.armOver (s : State) (r : RopeRoot) (armed refused missing : Nat) : State :=
  if armed = r.n then s.rootCommit r
  else if refused != 0 && missing = 0 then
    (s.rootDisarm r).endRoot r { status := stREFUSED, result := armed % 2 ^ 32 }
  else (s.rootDisarm r).endRoot r { status := stFAULTED, cls := 0x02, result := missing % 2 ^ 32 * 2 ^ 32 + armed % 2 ^ 32 }

/-- An adoption: the alternate parent, the children's depth, and the children, all of one unanswered index. -/
structure Adoption where
  alt   : Nat
  depth : Nat
  kids  : List Nat
  deriving DecidableEq, Repr

/-- R351. The adoptions of the re-rope: for every unanswered index, its children go to the alternate parents that they name. -/
def RopeRoot.adoptions (r : RopeRoot) : List Adoption :=
  (dedup r.silent).flatMap (fun m =>
    let cs := (ropeKids r.entries m).filter (fun c => ropeAlt r.entries c != 0xFFFFFFFF && !r.silent.contains (ropeAlt r.entries c))
    (dedup (cs.map (ropeAlt r.entries))).map (fun a =>
      { alt := a, depth := ropeDepth r.entries r.n 16 m + 1, kids := cs.filter (fun c => ropeAlt r.entries c == a) }))

/-- R351. The root hands on ARM or COMMIT to children that it adopts itself. -/
def State.rootAdopts (s : State) (r : RopeRoot) (a : Adoption) : State :=
  let pairs := a.kids.map (fun c => (c, ropeChip r.entries c))
  if r.phase = 0 then
    pairs.foldl (fun s k => s.rope k.2 0x40 k.1 (armBody r.job r.addr r.stat k.1 a.depth r.height r.startRing s.ownChip)) s
  else s.commitKids r.job r.startTime s.ownChip pairs

/-- R351. The re-rope: ADOPT to every alternate parent; the root itself hands on ARM or COMMIT where it is one. -/
def State.reRope (s : State) (r : RopeRoot) : State :=
  let as := r.adoptions
  let own := (as.filter (·.alt == 0)).flatMap (·.kids)
  let r1 := { r with phase := r.phase + 1, sentAt := s.clk.now, waiting := []
                     asked := dedup (r.asked ++ (as.map (·.alt)).filter (· != 0))
                     adopted := r.adopted.filter (fun c => !own.contains c.1) ++ own.map (fun c => (c, ropeChip r.entries c)) }
  as.foldl (fun s a =>
    if a.alt = 0 then s.rootAdopts r a
    else s.rope (ropeChip r.entries a.alt) 0x42 a.alt
      (adoptBody r.job r.addr r.stat r.height r.startRing a.depth (if r.phase = 0 then 0 else 1) s.ownChip r.startTime a.kids)) (s.setRoot r1)

/-- R351, R352, R354. The root goes on when no child is left to wait for. -/
def State.rootNext (s : State) (r : RopeRoot) : State :=
  if r.phase < 2 then
    (if r.armed + r.refused = r.n then s.armOver r r.armed r.refused 0
     else if r.phase = 0 && r.waiting.isEmpty then s.reRope r else s.setRoot r)
  else if r.committed + r.notArmed.length ≥ r.n then s.commitOver r
  else if r.phase = 2 && r.waiting.isEmpty then s.reRope r else s.setRoot r

/-- R348, R349. JOB_START: the root reads its table, writes PENDING everywhere, arms itself, and sends ARM. -/
def jobStart (s : State) (d : Started) : State :=
  let x := jobP d.param
  let t := s.plainBytes x.addr (16 * x.n)
  let own := s.ownChip
  if s.chip.isNone || !ropeOk t x.n own then
    s.setDone d.ring d.seq { status := stBAD_OPERAND, die := 0x48, unit := 0x25 }
  else
    let h := ropeHeight t x.n
    let kids := (ropeKids t 0).map (fun i => (i, ropeChip t i))
    let s1 := s.gwrite (.link 0 (originOfDesc d.ring d.seq d.bytes)) 1 x.stat (List.replicate x.n 0#8)
    let node : RopeNode := { job := x.job, root := own, addr := x.addr, stat := x.stat, index := 0, depth := 0, height := h, ring := x.ring,
                             parent := own, wait := s.armWait, hold := s.armHold, armed := false, armAt := s.clk.now, kids := kids, waiting := [], answered := true }
    let s2 := armNode s1 node
    let ok := s1.armVerdict x.job x.ring == 0x01
    let r : RopeRoot := { ring := d.ring, seq := d.seq, job := x.job, n := x.n, addr := x.addr, stat := x.stat, height := h, startRing := x.ring,
                          keep := bitOf x.opts 0, wait := s.armWait, lead := s.commitLead, sentAt := s.clk.now, waiting := kids.map (·.1), entries := t,
                          okCount := if ok then 1 else 0, refCount := if ok then 0 else 1 }
    s2.rootNext r

/-- R221, R433. The root reads its table: it waits while a page of it is pending, and JOB_START fails where the read does. -/
def State.jobRead (s : State) (d : Started) : State :=
  let x := jobP d.param
  if s.pendingIn x.addr (16 * x.n) then s
  else match s.poisonCheck (ctxOf d.ring d.bytes 0x48 0x25) x.addr (16 * x.n) with
    | (s1, some c) => s1.setDone d.ring d.seq { status := stFAULTED, cls := c, die := 0x48, unit := 0x25 }
    | (s1, none) => jobStart (s1.updStarted d.ring d.seq (fun x => { x with begun := true })) d

/-- R348. The JOB_START command; the service runs one descriptor at a time (R345). -/
def execJobStart (n seq : Nat) (ecc : EccFinds) (z : State) : Host.Outcome State Fault Refusal :=
  let s := z.eccAll ecc
  .next (match s.findStarted n seq with
    | some d => if dOPCODE d.bytes = 0x3001 && !d.begun && d.done.isNone && s.fab.root.isNone then s.jobRead d else s
    | none => s)

/-- The JOB_ID operand of JOB_END, inline at byte 24. -/
def jobEndId (b : List Byte) : Nat := leAt b 24 4

/-- R346. JOB_END: the token of the held job returns, or the descriptor is refused. -/
def execJobEnd (n seq : Nat) (s : State) : Host.Outcome State Fault Refusal :=
  .next (match s.findStarted n seq with
    | some d =>
      if dOPCODE d.bytes = 0x3002 && d.done.isNone && s.fab.root.isNone then
        let job := jobEndId d.bytes
        if !s.fab.token && job = s.fget Reg.FAB_ROPE_STATUS Fld.FAB_ROPE_STATUS_JOB_ID then
          (s.dropNode job).setDone n seq { status := stSUCCESS, die := 0x48, unit := 0x25 }
        else s.setDone n seq { status := stREFUSED, die := 0x48, unit := 0x25 }
      else s
    | none => s)

/-- R351. ROOT_ARM_TIMEOUT: h × ARM_WAIT after ARM (or COMMIT) was sent, the root re-ropes the children that are silent. -/
def execRootArmTimeout (s : State) : Host.Outcome State Fault Refusal :=
  .next (match s.fab.root with
    | some r =>
      if r.phase = 0 || r.phase = 2 then
        (s.reach (r.sentAt + r.height * r.wait)).reRope { r with silent := r.silent ++ r.waiting, waiting := [] }
      else s
    | none => s)

/-- The status bytes of the root's table. -/
def State.statuses (s : State) (r : RopeRoot) : List Byte := s.plainBytes r.stat r.n

/-- R351, R354. MISSING_TIMEOUT: a further h × ARM_WAIT later, every status still PENDING becomes MISSING, and the job is decided; in
the COMMIT phase the modules that have not acknowledged are missing. -/
def execMissingTimeout (s : State) : Host.Outcome State Fault Refusal :=
  .next (match s.fab.root with
    | some r =>
      let s1 := s.reach (r.sentAt + r.height * r.wait)
      if r.phase = 1 then
        let s2 := (List.range r.n).foldl (fun s i =>
          if (s.statuses r).getD i 0#8 = 0#8 then s.putStatus s.ownChip r.stat i 0x20 else s) s1
        let st := s2.statuses r
        s2.armOver r (st.filter (· == 0x01#8)).length (st.filter (fun b => 0x10 ≤ b.toNat && b.toNat ≤ 0x12)).length (st.filter (· == 0x20#8)).length
      else if r.phase = 3 then s1.commitOver r
      else s
    | none => s)

/-! ### Acknowledgements (R349, R351, R354) -/

/-- The root takes an acknowledgement of ARM. -/
def State.rootArmAck (s : State) (r : RopeRoot) (k : Packet) : State :=
  let i := leAt k.body 4 4
  if r.phase < 2 then
    s.rootNext { r.takeAck { index := i, ok := leAt k.body 8 4, ref := leAt k.body 12 4, silent := ackSilent k } with
      silent := r.silent ++ ackSilent k, waiting := r.waiting.filter (· != i) }
  else s

/-- A participant takes an acknowledgement of ARM: of a child, or of an adopted child, which it hands on to the root. -/
def State.nodeArmAck (s : State) (n : RopeNode) (k : Packet) : State :=
  let i := leAt k.body 4 4
  if n.waiting.contains i then
    (s.updNode n.job (fun x => { x with
      okCount := x.okCount + leAt k.body 8 4, refCount := x.refCount + leAt k.body 12 4, silent := x.silent ++ ackSilent k,
      waiting := x.waiting.filter (· != i) })).armAnswerIf n.job
  else if n.adopted.any (·.1 == i) then
    s.rope n.root 0x41 i (ackBody n.job i (leAt k.body 8 4) (leAt k.body 12 4) true (ackSilent k))
  else s

/-- R349. The ARM_ACK_RECEIVE command. -/
def execArmAckReceive (pkt : Packet) (s : State) : Host.Outcome State Fault Refusal :=
  .next (if pkt.kind = 0x41 then
      (match s.take pkt with
      | none => s
      | some s1 =>
        let job := leAt pkt.body 0 4
        match s1.fab.root, s1.nodeOf job with
        | some r, n => if r.job = job then s1.rootArmAck r pkt else (match n with | some n => s1.nodeArmAck n pkt | none => s1)
        | none, some n => s1.nodeArmAck n pkt
        | none, none => s1)
    else s)

/-- R352. The acknowledgement of COMMIT of a node to the module that sent it COMMIT. -/
def State.commitAnswer (s : State) (n : RopeNode) : State :=
  (s.rope n.cParent 0x44 n.index (ackBody n.job n.index n.cCount 0 false (n.cSilent ++ n.cWaiting))).updNode n.job
    (fun x => { x with cAnswered := true, cSilent := n.cSilent ++ n.cWaiting, cWaiting := [] })

def State.commitAnswerIf (s : State) (job : Nat) : State :=
  match s.nodeOf job with
  | some n => if n.committed && n.cWaiting.isEmpty && !n.cAnswered && n.index != 0 then s.commitAnswer n else s
  | none => s

/-- R349, R352. ARM_WAIT_EXPIRE: a node whose children have not all answered acknowledges with those listed. -/
def execArmWaitExpire (job : Nat) (s : State) : Host.Outcome State Fault Refusal :=
  .next (match s.nodeOf job with
    | some n =>
      if !n.answered then (s.reach (n.armAt + (n.height - n.depth) * n.wait)).armAnswer n
      else if n.committed && !n.cAnswered && n.index != 0 then (s.reach (n.cAt + (n.height - n.depth) * n.wait)).commitAnswer n
      else s
    | none => s)

/-- R351. ADOPT: an alternate parent takes the children, hands on ARM or COMMIT to them, and reports their counts to the root. -/
def State.adopt (s : State) (k : Packet) (entries : List Byte) : State :=
  let job := leAt k.body 0 4
  match s.nodeOf job with
  | none => s
  | some n =>
    let ids := adoptKids k
    let pairs := (List.range ids.length).map (fun i => (ids.getD i 0, ropeChip entries i))
    let s1 := s.updNode job (fun x => { x with adopted := x.adopted.filter (fun a => !ids.contains a.1) ++ pairs })
    if leAt k.body 23 1 = 0 then s1.armKids n (leAt k.body 22 1) pairs
    else s1.commitKids job (leAt k.body 28 4) n.root pairs

/-- R351. The ADOPT command; `entries` are the adopted children's entries, read from the root. -/
def execAdopt (pkt : Packet) (entries : List Byte) (s : State) : Host.Outcome State Fault Refusal :=
  .next (if pkt.kind = 0x42 then (match s.take pkt with | some s1 => s1.adopt pkt entries | none => s) else s)

/-! ### COMMIT, DISARM (R350, R352, R353) -/

/-- R352, R353. A module takes COMMIT: it starts, forwards and acknowledges when it is armed for the job, and answers NOT_ARMED when
it is not. -/
def State.takeCommit (s : State) (k : Packet) : State :=
  let job := leAt k.body 0 4
  let i := leAt k.body 4 4
  let no := s.rope (leAt k.body 12 2) 0x46 i (leBytes 4 job ++ leBytes 4 i)
  match s.nodeOf job with
  | none => no
  | some n =>
    if n.committed then
      (if n.cAnswered then s.rope k.src 0x44 n.index (ackBody job n.index n.cCount 0 false n.cSilent)
       else s.updNode job (fun x => { x with cParent := k.src }))
    else if n.armed then
      ((s.commitNode n (leAt k.body 8 4) k.src).commitKids job (leAt k.body 8 4) n.root (n.kids ++ n.adopted)).commitAnswerIf job
    else no

/-- R352. The COMMIT command. -/
def execCommit (pkt : Packet) (s : State) : Host.Outcome State Fault Refusal :=
  .next (if pkt.kind = 0x43 then (match s.take pkt with | some s1 => s1.takeCommit pkt | none => s) else s)

/-- The root takes an acknowledgement of COMMIT, or a NOT_ARMED answer (R353). -/
def State.rootCommitAck (s : State) (r : RopeRoot) (k : Packet) : State :=
  if r.phase < 2 then s
  else
    let i := leAt k.body 4 4
    if k.kind = 0x46 then
      s.rootNext { r with notArmed := dedup (r.notArmed ++ [i]), silent := r.silent ++ [i], waiting := r.waiting.filter (· != i) }
    else
      s.rootNext { r.takeAck { index := i, ok := leAt k.body 8 4, ref := 0, silent := ackSilent k } with
        silent := r.silent ++ ackSilent k, waiting := r.waiting.filter (· != i) }

/-- A participant takes an acknowledgement of COMMIT. -/
def State.nodeCommitAck (s : State) (n : RopeNode) (k : Packet) : State :=
  let i := leAt k.body 4 4
  if n.cWaiting.contains i then
    (s.updNode n.job (fun x => { x with
      cCount := x.cCount + leAt k.body 8 4, cSilent := x.cSilent ++ ackSilent k, cWaiting := x.cWaiting.filter (· != i) })).commitAnswerIf n.job
  else if n.adopted.any (·.1 == i) then
    s.rope n.root 0x44 i (ackBody n.job i (leAt k.body 8 4) 0 true (ackSilent k))
  else s

/-- R353, R354. The COMMIT_ACK_RECEIVE command; NOT_ARMED answers reach the root in the same way. -/
def execCommitAckReceive (pkt : Packet) (s : State) : Host.Outcome State Fault Refusal :=
  .next (if pkt.kind = 0x44 || pkt.kind = 0x46 then
      (match s.take pkt with
      | none => s
      | some s1 =>
        let job := leAt pkt.body 0 4
        match s1.fab.root, s1.nodeOf job with
        | some r, n => if r.job = job then s1.rootCommitAck r pkt else (match n with | some n => s1.nodeCommitAck n pkt | none => s1)
        | none, some n => s1.nodeCommitAck n pkt
        | none, none => s1)
    else s)

/-- R352. START_TIME_REACHED: the start event goes to START_RING's bank. -/
def execStartTimeReached (s : State) : Host.Outcome State Fault Refusal :=
  .next (match s.fab.nodes.find? (fun n => n.committed && n.startAt.isSome) with
    | some n => match n.startAt with
      | some t => ((s.reachNs t).updNode n.job (fun x => { x with startAt := none })).sendEvent n.ring false 0xFF
      | none => s
    | none => s)

/-- R350, R355. DISARM: an armed module returns its token, and hands DISARM on. -/
def State.takeDisarm (s : State) (k : Packet) : State :=
  let job := leAt k.body 0 4
  match s.nodeOf job with
  | none => s
  | some n =>
    if n.committed then s
    else ((n.kids ++ n.adopted).foldl (fun s c => s.rope c.2 0x45 c.1 (leBytes 4 job)) s).dropNode job

/-- R350. The DISARM command. -/
def execDisarm (pkt : Packet) (s : State) : Host.Outcome State Fault Refusal :=
  .next (if pkt.kind = 0x45 then (match s.take pkt with | some s1 => s1.takeDisarm pkt | none => s) else s)

/-- R350. ARM_HOLD_EXPIRE: ARM_HOLD has passed since the latest ARM without COMMIT. -/
def execArmHoldExpire (s : State) : Host.Outcome State Fault Refusal :=
  .next (match s.fab.nodes.find? (fun n => n.armed && !n.committed) with
    | some n => (s.reach (n.armAt + n.hold)).dropNode n.job
    | none => s)

/-- R331. A Rope packet met no route: the entry it was sent to counts as unanswered. -/
def State.ropeUnanswered (s : State) (i : Nat) : State :=
  match s.fab.root with
  | some r =>
    if r.waiting.contains i then s.rootNext { r with silent := r.silent ++ [i], waiting := r.waiting.filter (· != i) } else s
  | none => match s.fab.nodes.find? (fun n => n.waiting.contains i || n.cWaiting.contains i) with
    | some n =>
      ((s.updNode n.job (fun x => { x with
          silent := if x.waiting.contains i then x.silent ++ [i] else x.silent, waiting := x.waiting.filter (· != i)
          cSilent := if x.cWaiting.contains i then x.cSilent ++ [i] else x.cSilent, cWaiting := x.cWaiting.filter (· != i) })).armAnswerIf n.job).commitAnswerIf n.job
    | none => s

end Sys2Proof.Machine
end

