-- ==== Sys2Proof/Machine/Halt.lean ====
section
/-!
DEFINITION. A started descriptor is halted at its abort point whichever unit runs it (spec/02 R92, R115), and deadlines
(R91, R92).
-/
namespace Sys2Proof.Machine

open Sys2Proof

/-- R119, R355. The Rope service leaves a JOB_START: DISARM goes out as when ARM fails. -/
def State.haltRope (s : State) (d : Started) : State :=
  match s.fab.root with
  | some r =>
    if r.ring = d.ring && r.seq = d.seq then
      let s1 := s.rootDisarm r
      { s1 with fab := { s1.fab with root := none } }
    else s
  | none => s

/-- A scan leaves its block: the mask bit is restored and the block leaves reset. -/
def State.haltScan (s : State) (d : Started) : State :=
  match s.scan with
  | some c => if c.ring = d.ring && c.seq = d.seq then (s.dieOn c.block).scanOver c else s
  | none => s

/-- R528. A CADDY_RECORD no longer waits for its copies. -/
def State.haltCaddy (s : State) (d : Started) : State :=
  match s.caddy with
  | some c => if c.ring = d.ring && c.seq = d.seq then { s with caddy := none } else s
  | none => s

/-- A started descriptor is stopped at its abort point, whichever unit runs it, and gets its outcome. -/
def State.haltDesc (s : State) (d : Started) (done : Done) : State :=
  (((s.haltRope d).haltScan d).haltCaddy d).stopDesc d done

/-- R90, R381. The laggard rank of a REDUCE, when its home is an engine of this module: the lowest rank whose EXP or CONTRIB is
missing. -/
def State.laggard (s : State) (d : Started) : Nat :=
  if dOPCODE d.bytes = 0x3010 then
    (match s.homes.find? (fun h => let x := redP d.bytes d.param; !h.final && s.ownChip == x.homeChip && h.isKey x.homeEng x.coll x.step x.bucket) with
    | some h => h.laggard
    | none => 0xFFFFFFFF)
  else 0xFFFFFFFF

/-- R90, R493. One microsecond after its deadline a descriptor without a completion is reported, with what it waits on. -/
def execDeadlineMiss (n seq : Nat) (s : State) : Host.Outcome State Fault Refusal :=
  .next (match (s.sqSt n).fetched.find? (·.seq == seq) with
    | some f => match f.deadline with
      | none => s
      | some t =>
        let s := s.reachTime (t + 1000)
        let w := s.waitedFor n f
        let fn := if w.ring = 0xFF then (s.targetFetched n f).getD (sqFn n) else sqFn w.ring
        let c := { ctxOf n f.bytes w.die w.unit with fn := some fn, vals := [w.ring, w.seq] }
        (s.report 0x02 2 c).declareHang n w.die 0 fn 0xFF seq (dLAYER f.bytes) (dOP f.bytes)
    | none => match s.findStarted n seq with
      | some d => match d.deadline with
        | some t =>
          let s := s.reachTime (t + 1000)
          let w := s.holding d
          let c := { ctxOf n d.bytes w.die w.unit with fn := some d.fn, eng := engOfFn d.fn, vals := [s.laggard d] }
          (s.report 0x02 2 c).declareHang n w.die 0 d.fn 0xFF seq (dLAYER d.bytes) (dOP d.bytes)
        | none => s
      | none => s)

/-- R91, R93. How an unstarted descriptor ends whose deadline has passed: the waited-on context. -/
def lateDone (w : Waited) : Done := { status := stDEADLINE, result := w.seq, die := w.die, unit := w.unit, cring := w.ring }

/-- R91. An unstarted descriptor whose deadline has passed completes with DEADLINE. -/
def State.deadlineFetched (s : State) (n : Nat) (f : Fetched) : State :=
  let w := s.waitedFor n f
  let s1 := (s.setSq n { s.sqSt n with fetched := (s.sqSt n).fetched.filter (·.seq != f.seq) }).forgetPrefetch n f.seq
  s1.completeFetched n f (lateDone w)

/-- R91, R92. The deadline of a descriptor passes: one that has not started completes with DEADLINE at once; one that runs
stops at its abort point, which every command leaves it at, with its own RING_SEQ as RESULT (assumption 115). -/
def execDeadlineExpire (n seq : Nat) (s : State) : Host.Outcome State Fault Refusal :=
  .next (match (s.sqSt n).fetched.find? (·.seq == seq) with
    | some f => match f.deadline with
      | none => s
      | some t => (s.reachTime t).deadlineFetched n f
    | none => match s.findStarted n seq with
      | some d => match d.deadline, d.done with
        | some t, none => 
            (s.reachTime t).haltDesc d { status := stDEADLINE, result := seq, die := (s.whereRuns d).1, unit := (s.whereRuns d).2 }
        | _, _ => s
      | none => s)

end Sys2Proof.Machine
end

