-- ==== Sys2Proof/WellFormed.lean ====
section
/-!
DEFINITION. The well-formed commands: every operand fits the place that the spec gives it (ring, port, die and cell numbers, register
offsets, header fields of packets and flits, lengths). The meanings are total and do not rest on it.
-/
namespace Sys2Proof

/-- R322. Every field of a packet fits its place in the header, and its body holds at most 4,096 bytes. -/
def Packet.wf (k : Packet) : Bool :=
  decide (k.dst < 2 ^ 16 ∧ k.src < 2 ^ 16 ∧ k.kind < 2 ^ 8 ∧ k.flags < 2 ^ 8 ∧ k.gen < 2 ^ 8 ∧ k.ttl < 2 ^ 8) &&
    decide (k.addr < 2 ^ 64 ∧ k.layer < 2 ^ 16 ∧ k.op < 2 ^ 16 ∧ k.tag < 2 ^ 32 ∧ k.err < 2 ^ 32) &&
    decide (k.vc < 7 ∧ k.cls < 2 ∧ k.body.length ≤ 4096)

/-- A credit return names a channel and a class. -/
def creditWf (c : Option (Nat × Nat × Nat)) : Bool := (c.map (fun x => decide (x.1 < 8 ∧ x.2.1 < 2 ∧ x.2.2 < 2048))).getD true

/-- R335. What a LINK flit carries fits. -/
def LinkMsg.wf : LinkMsg → Bool
  | .hello chip _ port => decide (chip < 2 ^ 16 ∧ port < 64)
  | .lastSeq seq _ => decide (seq < 4096)
  | .keepWarm | .keepWarmExit => true

/-- R307. Every field of a flit fits, and its payload holds at most 240 bytes. -/
def Flit.wf (f : Flit) : Bool :=
  decide (f.type < 3 ∧ f.seq < 4096 ∧ f.vc < 8 ∧ f.cls < 2 ∧ f.ackSeq < 4096 ∧ f.payload.length ≤ 240) &&
    creditWf f.credit0 && creditWf f.credit1 && f.link.all LinkMsg.wf

/-- A descriptor's ring (0x100 for none), RING_SEQ, LAYER_ID and OP_ID. -/
def Origin.wf (o : Origin) : Bool := decide (o.ring ≤ 256 ∧ o.seq < 2 ^ 32 ∧ o.layer < 2 ^ 16 ∧ o.op < 2 ^ 16)

/-- R46. The number of the master exists. -/
def Master.wf : Master → Bool
  | .host => true
  | .block b o => decide (b < 64) && o.wf
  | .ledger r o => decide (r < 8) && o.wf
  | .link r o => decide (r < 8) && o.wf
  | .service o => o.wf
  | .remote r chip vc _ tag layer op => decide (r < 8 ∧ chip < 2 ^ 16 ∧ vc < 7 ∧ tag < 2 ^ 32 ∧ layer < 2 ^ 16 ∧ op < 2 ^ 16)
  | .mgmtPort => true
  | .ring n => decide (n < 256)
  | .jtag => true
  | .tmp die src seq => decide (die < 2 ∧ src < 2 ^ 16 ∧ seq < 2 ^ 32)

/-- R702. The offset of a Configuration Request. -/
def CfgReq.wf : CfgReq → Bool
  | .read off => decide (off < 4096)
  | .msix _ _ => true
  | .write off value => decide (off < 4096 ∧ value < 2 ^ 32)

/-- R541. A piece has a position in its stripe, 64 KiB and sixteen CRCs. -/
def PieceRead.wf (p : PieceRead) : Bool := decide (p.piece < 10 ∧ p.data.length = 65536 ∧ p.crcs.length = 16)

/-- The burst is one of HBM (R220). -/
def eccWf (ecc : EccFinds) : Bool := ecc.all (fun e => decide (e.1 < 2 ^ 34))

/-- R9. The die number is one that the table assigns. -/
def dieAssigned (d : Nat) : Bool := decide (d < 0x54) || (decide (0x60 ≤ d) && decide (d < 0x70))

/-- Every operand of a command fits. -/
def Instr.wf : Instr → Bool
  | .memoryRead who _ addr len ecc => who.wf && decide (addr < 2 ^ 64) && decide (len < 2 ^ 32) && eccWf ecc
  | .memoryWrite who _ addr data => who.wf && decide (addr < 2 ^ 64) && decide (data.length < 2 ^ 32)
  | .registerWrite who off _ => who.wf && decide (off < 2 ^ 24)
  | .registerHolderTimeout who off _ => who.wf && decide (off < 2 ^ 24)
  | .bridgeRetryExhausted bridge => decide (bridge < 138)
  | .doorbell n _ => decide (n < 256)
  | .descriptorFetch n data param ecc => decide (n < 256) && decide (data.length < 2 ^ 32) && decide (param.length < 2 ^ 32) && eccWf ecc
  | .descriptorStart n param ecc => decide (n < 256) && decide (param.length < 2 ^ 32) && eccWf ecc
  | .deadlineExpire n seq => decide (n < 256) && decide (seq < 2 ^ 32)
  | .deadlineMiss n seq => decide (n < 256) && decide (seq < 2 ^ 32)
  | .descriptorComplete n seq => decide (n < 256) && decide (seq < 2 ^ 32)
  | .msixUnmask vector => (vector.map (fun x => decide (x < 256))).getD true
  | .cqHeadWrite m value => decide (m < 256) && decide (value < 2 ^ 64)
  | .cmdStop f => decide (f < 768)
  | .cmdChange f => decide (f < 768)
  | .cmdRestart f => decide (f < 768)
  | .cmdAbort f => decide (f < 768)
  | .drainComplete f => decide (f < 768)
  | .drainLimitExpire f => decide (f < 768)
  | .staleReplyDrop f gen => decide (f < 768) && decide (gen < 2 ^ 8)
  | .evrPop who i => who.wf && decide (i < 65536)
  | .sweep n seq pick ecc => decide (n < 256) && decide (seq < 2 ^ 32) && decide (pick < 2 ^ 64) && eccWf ecc
  | .interact n seq pick ecc => decide (n < 256) && decide (seq < 2 ^ 32) && decide (pick < 2 ^ 64) && eccWf ecc
  | .veOp n seq ecc => decide (n < 256) && decide (seq < 2 ^ 32) && eccWf ecc
  | .chunkApply cell bad corr ecc => decide (cell < 4096) && (bad.map (fun x => decide (x < 2 ^ 64))).getD true && decide (corr < 2 ^ 32) && eccWf ecc
  | .tileFold cell tile fault _ corr ecc => decide (cell < 4096) && decide (corr < 2 ^ 32) && decide (tile < 2 ^ 64) && fault.all (fun x => decide (x.1 < 4096 ∧ x.2 < 2 ^ 64)) && eccWf ecc
  | .prefetchStart => true
  | .fenceClearWrite block _ => (block.map (fun x => decide (x < 64))).getD true
  | .scrubRead st _ => decide (st < 16)
  | .cutTokenArrival r => decide (r < 8)
  | .cutTokenRelease r => decide (r < 8)
  | .gather n seq _ _ _ ecc => decide (n < 256) && decide (seq < 2 ^ 32) && eccWf ecc
  | .rowRequest r pkt ecc => decide (r < 8) && pkt.wf && eccWf ecc
  | .rowReply n seq pos pkt ecc => decide (n < 256) && decide (seq < 2 ^ 32) && decide (pos < 2 ^ 32) && (pkt.map Packet.wf).getD true && eccWf ecc
  | .gatherOpen pkt => pkt.wf
  | .updateDense n seq count bad ecc => decide (n < 256) && decide (seq < 2 ^ 32) && decide (count < 2 ^ 32) && (bad.map (fun x => decide (x < 2 ^ 64))).getD true && eccWf ecc
  | .updateRows n seq count bad ecc => decide (n < 256) && decide (seq < 2 ^ 32) && decide (count < 2 ^ 32) && (bad.map (fun x => decide (x < 2 ^ 64))).getD true && eccWf ecc
  | .setcoef n seq ecc => decide (n < 256) && decide (seq < 2 ^ 32) && eccWf ecc
  | .veTakeover r => decide (r < 8)
  | .tagSeal n seq ecc => decide (n < 256) && decide (seq < 2 ^ 32) && eccWf ecc
  | .tagVerify n seq ecc => decide (n < 256) && decide (seq < 2 ^ 32) && eccWf ecc
  | .flitSend p _ => decide (p < 48)
  | .dataFlitReceive p f _ => decide (p < 48) && f.wf
  | .idleFlitReceive p f _ => decide (p < 48) && f.wf
  | .nakReceive p seq => decide (p < 48) && decide (seq < 4096)
  | .ackReceive p seq => decide (p < 48) && decide (seq < 4096)
  | .ackTimer p => decide (p < 48)
  | .portRetrain p => decide (p < 48)
  | .portTrainingComplete p lastSeq _ => decide (p < 48) && decide (lastSeq < 4096)
  | .portTrainingTimeout p => decide (p < 48)
  | .portLinkLoss p => decide (p < 48)
  | .portDownRetry p => decide (p < 48)
  | .helloTimer => true
  | .helloReceive p f _ => decide (p < 48) && f.wf
  | .discoveryTimeout p => decide (p < 48)
  | .packetReceive r p pkt ecc => decide (r < 8) && (p.map (fun x => decide (x < 48))).getD true && pkt.wf && eccWf ecc
  | .errorReplyReceive pkt => pkt.wf
  | .keepWarmRequest p rx _ => decide (p < 48) && rx.all Flit.wf
  | .keepWarmExitRequest p rx _ => decide (p < 48) && rx.all Flit.wf
  | .keepWarmExitComplete p => decide (p < 48)
  | .jobStart n seq ecc => decide (n < 256) && decide (seq < 2 ^ 32) && eccWf ecc
  | .jobEnd n seq => decide (n < 256) && decide (seq < 2 ^ 32)
  | .arm pkt entries => pkt.wf && decide (entries.length < 2 ^ 32)
  | .armAckReceive pkt => pkt.wf
  | .armWaitExpire job => decide (job < 2 ^ 32)
  | .rootArmTimeout => true
  | .adopt pkt entries => pkt.wf && decide (entries.length < 2 ^ 32)
  | .missingTimeout => true
  | .commit pkt => pkt.wf
  | .commitAckReceive pkt => pkt.wf
  | .startTimeReached => true
  | .disarm pkt => pkt.wf
  | .armHoldExpire => true
  | .reduce n seq ecc => decide (n < 256) && decide (seq < 2 ^ 32) && eccWf ecc
  | .digestClose n seq ecc => decide (n < 256) && decide (seq < 2 ^ 32) && eccWf ecc
  | .exp pkt => pkt.wf
  | .busy pkt => pkt.wf
  | .expRetryTimer n seq => decide (n < 256) && decide (seq < 2 ^ 32)
  | .grantSend e coll step bucket => decide (e < 16) && decide (coll < 2 ^ 16) && decide (step < 2 ^ 32) && decide (bucket < 2 ^ 32)
  | .grant pkt ecc => pkt.wf && eccWf ecc
  | .contrib pkt => pkt.wf
  | .result pkt => pkt.wf
  | .abort pkt => pkt.wf
  | .homeDeadlineExpire e coll step bucket => decide (e < 16) && decide (coll < 2 ^ 16) && decide (step < 2 ^ 32) && decide (bucket < 2 ^ 32)
  | .confirm pkt => pkt.wf
  | .retract pkt => pkt.wf
  | .resultConfirm pkt => pkt.wf
  | .resultRetract pkt => pkt.wf
  | .journalSteepExpire e coll step bucket rank => decide (e < 16) && decide (coll < 2 ^ 16) && decide (step < 2 ^ 32) && decide (bucket < 2 ^ 32) && decide (rank < 2 ^ 32)
  | .resultSteepExpire n seq => decide (n < 256) && decide (seq < 2 ^ 32)
  | .tagCopyReadback r page chip dst crc _ => decide (r < 8) && decide (page < 2 ^ 29) && decide (chip < 2 ^ 16) && decide (dst < 2 ^ 28) && decide (crc < 2 ^ 32)
  | .strainerVerdict ticket tile _ => decide (ticket < 2 ^ 16) && decide (tile < 2 ^ 64)
  | .replayJudge ticket _ fault ecc => decide (ticket < 2 ^ 16) && fault.all (fun x => decide (x.1 < 4096 ∧ x.2 < 2 ^ 64)) && eccWf ecc
  | .lockstepMismatch block => decide (block < 64)
  | .ticketSettle => true
  | .fenceMessage r ticket => decide (r < 8) && decide (ticket < 2 ^ 16)
  | .steepFenceTimer ticket => decide (ticket < 2 ^ 16)
  | .unconfirmedWriteReceive r pkt => decide (r < 8) && pkt.wf
  | .writeConfirm r pkt => decide (r < 8) && pkt.wf
  | .writeRetract r pkt => decide (r < 8) && pkt.wf
  | .steepWindowExpire src item => decide (src < 65536) && decide (item < 2 ^ 16)
  | .earlyTokenExpire => true
  | .auditCompare n seq fault ecc => decide (n < 256) && decide (seq < 2 ^ 32) && fault.all (fun x => decide (x.1 < 4096 ∧ x.2 < 2 ^ 64)) && eccWf ecc
  | .auditThirdJudge n seq fault ecc => decide (n < 256) && decide (seq < 2 ^ 32) && fault.all (fun x => decide (x.1 < 4096 ∧ x.2 < 2 ^ 64)) && eccWf ecc
  | .scanBlock n seq => decide (n < 256) && decide (seq < 2 ^ 32)
  | .scanProceed => true
  | .scanFinish patterns fails first badSegment => decide (patterns < 2 ^ 64) && decide (fails < 2 ^ 64) && decide (first < 2 ^ 64) && (badSegment.map (fun x => decide (x < 2 ^ 16))).getD true
  | .congestionEpisode level die point tc => decide (level < 4) && dieAssigned die && decide (point < 2 ^ 16) && decide (tc < 2 ^ 8)
  | .congestionEpisodeEnd level die point tc => decide (level < 4) && dieAssigned die && decide (point < 2 ^ 16) && decide (tc < 2 ^ 8)
  | .ceRate subject => decide (subject < 8192)
  | .regionTimerExpire n seq die target _ _ => decide (n < 256) && decide (seq < 2 ^ 32) && dieAssigned die && dieAssigned target
  | .fabricTimerExpire tag _ => decide (tag < 2 ^ 32)
  | .moduleTimerExpire n seq => decide (n < 256) && decide (seq < 2 ^ 32)
  | .reclaim n seq => decide (n < 256) && decide (seq < 2 ^ 32)
  | .regionSwitchQuiescent r => decide (r < 8)
  | .faultReport cls sev die unit cell port ring seq layer op => decide (cls < 2 ^ 8) && decide (sev < 5) && dieAssigned die && decide (unit < 256) && decide (cell < 4096) && decide (port < 256) && decide (ring < 256) && decide (seq < 2 ^ 32) && decide (layer < 2 ^ 16) && decide (op < 2 ^ 16)
  | .waitforSample => true
  | .egressStall p vc cls => decide (p < 48) && decide (vc < 7) && decide (cls < 2)
  | .probeResendTimer p vc cls => decide (p < 48) && decide (vc < 7) && decide (cls < 2)
  | .hangProbe p pkt => decide (p < 48) && pkt.wf
  | .lanternBeat src => decide (src < 64 ∨ (0x50 ≤ src ∧ src < 0x54))
  | .lanternMissTimer src _ => decide (src < 64 ∨ (0x50 ≤ src ∧ src < 0x54))
  | .reset n seq => decide (n < 256) && decide (seq < 2 ^ 32)
  | .resetCmdCompute _ _ => true
  | .resetCmdModule _ _ => true
  | .resetCmdCold _ _ => true
  | .modResetAssert => true
  | .perstAssert => true
  | .perstDeassert => true
  | .blockBeatTimeout b => decide (b < 64)
  | .computeResetTimeout => true
  | .moduleRecoveryTimeout => true
  | .resetEnd => true
  | .summaryFlashCopy t => decide (t < 2)
  | .modResetDeassert => true
  | .cut n seq => decide (n < 256) && decide (seq < 2 ^ 32)
  | .sumpCopy r ecc => decide (r < 8) && eccWf ecc
  | .heldWriteRelease ecc => true && eccWf ecc
  | .manifestSeal views ecc => decide (views.length = 10 ∨ views = []) && eccWf ecc
  | .foldEnd views ecc => decide (views.length = 10 ∨ views = []) && eccWf ecc
  | .flowstoneDrainEnd bad ecc => bad.all (fun e => e.1 < 10 && e.2.2 < 16) && eccWf ecc
  | .restoreSelect n seq mods _ ecc => decide (n < 256) && decide (seq < 2 ^ 32) && decide (mods.length < 2 ^ 16) && eccWf ecc
  | .restore n seq ext ecc => decide (n < 256) && decide (seq < 2 ^ 32) && decide (ext.length < 2 ^ 32) && eccWf ecc
  | .caddyRecord n seq ecc => decide (n < 256) && decide (seq < 2 ^ 32) && eccWf ecc
  | .caddyCopy pkt => pkt.wf
  | .caddyAck pkt => pkt.wf
  | .buddyWaitExpire => true
  | .spreadApply n seq ecc => decide (n < 256) && decide (seq < 2 ^ 32) && eccWf ecc
  | .rebuild n seq views pieces ecc => decide (n < 256) && decide (seq < 2 ^ 32) && decide (views.length = 10 ∨ views = []) && pieces.all PieceRead.wf && eccWf ecc
  | .bootRom t => decide (t < 2)
  | .kcoreLockstep t => decide (t < 2)
  | .takeover => true
  | .journalEntry _ lag => decide (lag < 2 ^ 32)
  | .syncComplete => true
  | .swap _ _ => true
  | .swapHandover => true
  | .fuseSvnAdvance _ die svn => decide (die < 2) && decide (svn < 2 ^ 8)
  | .tmpRead t src dgram ecc => decide (t < 2) && decide (src < 65536) && decide (dgram.length < 2 ^ 16) && eccWf ecc
  | .tmpWrite t src dgram => decide (t < 2) && decide (src < 65536) && decide (dgram.length < 2 ^ 16)
  | .tmpStatus t src dgram => decide (t < 2) && decide (src < 65536) && decide (dgram.length < 2 ^ 16)
  | .flashWrite t src dgram => decide (t < 2) && decide (src < 65536) && decide (dgram.length < 2 ^ 16)
  | .noticeAck t src dgram => decide (t < 2) && decide (src < 65536) && decide (dgram.length < 2 ^ 16)
  | .noticeRepeat seq => decide (seq < 2 ^ 32)
  | .riskEvent subject kind => decide (subject < 65536) && decide (kind < 3)
  | .riskBucketBoundary => true
  | .evrFlashCopy t => decide (t < 2)
  | .clearFlash _ => true
  | .flashEraseDone => true
  | .evrFetch n seq => decide (n < 256) && decide (seq < 2 ^ 32)
  | .opHoursSave => true
  | .timeParamApply => true
  | .rateWrite _ _ => true
  | .adjWrite _ _ => true
  | .slewEnd => true
  | .ptpMessage _ => true
  | .announceTimeout => true
  | .syncInEdge => true
  | .refclkLost => true
  | .refclkReturn => true
  | .refclkSwitchback _ => true
  | .evtSelWrite who d n _ => who.wf && decide (d < 80) && decide (n < 48)
  | .filterWrite who d n _ => who.wf && decide (d < 80) && decide (n < 48)
  | .whistleWrite who _ => who.wf
  | .whistleSend who _ => who.wf
  | .whistlePacket pkt => pkt.wf
  | .dbgTrigInEdge => true
  | .whistleFire => true
  | .counterDump n seq => decide (n < 256) && decide (seq < 2 ^ 32)
  | .tracePostStop b => decide (b < 64)
  | .traceCfgWrite _ _ => true
  | .jtagBypass t => decide (t < 2)
  | .jtagIdcode t => decide (t < 2)
  | .jtagSamplePreload t pads shifted => decide (t < 2) && decide (pads < 2 ^ 64) && decide (shifted < 2 ^ 64)
  | .jtagExtest t pads shifted => decide (t < 2) && decide (pads < 2 ^ 64) && decide (shifted < 2 ^ 64)
  | .jtagIjtag t _ _ => decide (t < 2)
  | .jtagKtrace t => decide (t < 2)
  | .jtagMemacc t _ addr _ ecc => decide (t < 2) && decide (addr < 2 ^ 64) && eccWf ecc
  | .jtagKeyprog t key => decide (t < 2) && decide (key.length = 32)
  | .trstAssert => true
  | .feedInRange f volt => decide (f < 2) && decide (volt < 2 ^ 16)
  | .feedPrechargeStart f volt => decide (f < 2) && decide (volt < 2 ^ 16)
  | .feedPrechargeDone f => decide (f < 2)
  | .feedQualified f _ => decide (f < 2)
  | .feedOutOfRange f volt => decide (f < 2) && decide (volt < 2 ^ 16)
  | .feedbPowerupTimer => true
  | .feedTrip f volt _ => decide (f < 2) && decide (volt < 2 ^ 16)
  | .feedCurrentLimit curr => decide (curr < 2 ^ 32)
  | .powerUp => true
  | .startupReady failed _ settings rings => failed.all (fun x => decide (x < 64)) && settings.all (fun x => decide (x.1 < 2 ^ 24)) && rings.all (fun x => decide (x < 256))
  | .enumTokenReceive frame _ => decide (frame.length = 5)
  | .enumTokenSend => true
  | .enumWaitExpire => true
  | .assignWaitExpire => true
  | .lockWaitExpire => true
  | .chipAssignWrite _ _ => true
  | .startCfgWrite _ _ => true
  | .targetMhzWrite _ => true
  | .dvfsGlideStep => true
  | .arrayIdle => true
  | .power n seq silent => decide (n < 256) && decide (seq < 2 ^ 32) && silent.all (fun x => decide (x < 64))
  | .thermalWarn die temp => dieAssigned die && decide (temp < 2 ^ 8)
  | .capStep die temp => dieAssigned die && decide (temp < 2 ^ 8)
  | .thermalTrip die temp lost => dieAssigned die && decide (temp < 2 ^ 8) && lost.all (fun x => decide (x < 16))
  | .thermtripRelease => true
  | .coolantInletReading temp => decide (temp < 2 ^ 8)
  | .pcieConfigRequest req => req.wf
  | .pcieLinkUp => true

end Sys2Proof
end

