-- ==== Sys2Proof/Machine/Faults.lean ====
section
/-!
DEFINITION. Bridges (spec/01 R13-R19), congestion, corrected-error rates, request timers, audits and RECLAIM (spec/10 R453-R476).
-/
namespace Sys2Proof.Machine

open Sys2Proof

/-! ### Bridges (R13, R17-R19, R474) -/

/-- R474. The dies at the ends of a bridge. -/
def bridgeEnds (i : Nat) : Nat × Nat :=
  if i < 64 then (i, 0x40 + i / 8)
  else if i < 72 then (0x40 + (i - 64), 0x48 + (i - 64))
  else if i < 80 then (0x40 + (i - 72), 0x40 + ((i - 72) / 4 * 4 + ((i - 72) % 4 + 1) % 4))
  else if i < 88 then (0x40 + (i - 80) / 2, 0x44 + (i - 80) / 2)
  else if i = 88 then (0x50, 0x40)
  else (0x51, 0x47)

/-- R19. The torus is degraded: both y bridges of a column are down, or more than one x bridge. -/
def torusDegraded (down : List Nat) : Bool :=
  (down.filter (fun i => 72 ≤ i && i < 80)).length > 1 ||
    (List.range 4).any (fun c => down.contains (80 + 2 * c) && down.contains (81 + 2 * c))

/-- R13. The unit that reports for the end of a bridge on a die. -/
def bridgeUnit (die : Nat) : Nat := if die < 0x40 then 0x08 else if die < 0x48 then 0x18 else if die < 0x50 then 0x27 else 0x30

/-- R13. The report of one end of a bridge. -/
def State.bridgeReport (s : State) (i die other : Nat) : State :=
  s.report 0x06 2 { die := die, unit := bridgeUnit die, pool := some (48 + i), vals := [die, other] }

/-- R13, R19. A bridge has exhausted its retries: both ends report, and the torus may be degraded. -/
def bridgeDown (s : State) (i : Nat) : State :=
  let e := bridgeEnds i
  let s1 := (s.bridgeReport i e.1 e.2).bridgeReport i e.2 e.1
  let s2 : State := { s1 with flt := { s1.flt with bridges := if s1.flt.bridges.contains i then s1.flt.bridges else s1.flt.bridges ++ [i] } }
  if torusDegraded s2.flt.bridges && !s2.flt.degraded then
    State.report { s2 with flt := { s2.flt with degraded := true } } 0x06 3 { die := s2.trfDie, unit := 0x30, pool := some (48 + i) }
  else s2

/-- R13. The BRIDGE_RETRY_EXHAUSTED command. -/
def execBridgeRetryExhausted (bridge : Nat) (s : State) : Host.Outcome State Fault Refusal :=
  .next (if bridge < 90 then bridgeDown s bridge else s)

/-! ### Congestion (R456) -/

/-- The CONG_CNT field of a level. -/
def congField (level : Nat) : Fld :=
  if level = 0 then Fld.FLT_CONG_CNT_CELL else if level = 1 then Fld.FLT_CONG_CNT_BLOCK
  else if level = 2 then Fld.FLT_CONG_CNT_REGION else Fld.FLT_CONG_CNT_MODULE

/-- R9, R456. CONGESTION_EPISODE of a point of an assigned die: one episode is counted and recorded, until it ends. -/
def execCongestionEpisode (level die point tc : Nat) (s : State) : Host.Outcome State Fault Refusal :=
  .next (if level < 4 && dieAssigned die && !s.flt.congest.contains (level, die, point, tc) then
      ((State.bump { s with flt := { s.flt with congest := s.flt.congest ++ [(level, die, point, tc)] } } Reg.FLT_CONG_CNT (congField level) 1).event 0x0100
        { die := die, unit := point, port := tc })
    else s)

/-- R456. CONGESTION_EPISODE_END. -/
def execCongestionEpisodeEnd (level die point tc : Nat) (s : State) : Host.Outcome State Fault Refusal :=
  .next { s with flt := { s.flt with congest := s.flt.congest.filter (· != (level, die, point, tc)) } }

/-! ### Corrected errors (R462) -/

/-- The context of a CE_RATE report about a subject. -/
def ceCtx (x : Nat) : Ctx :=
  if x < 0x100 then { die := x, unit := 0xFF }
  else if x < 0x1000 then portCtx (x - 0x100) []
  else { die := (x - 0x1000) / 64, unit := 0x08, cell := (x - 0x1000) % 64, blk := some ((x - 0x1000) / 64) }

/-- R462. CE_RATE: more than CE_LIMIT corrected errors within an hour are reported once; a window that falls back to the limit may be
reported again. -/
def execCeRate (subject : Nat) (s : State) : Host.Outcome State Fault Refusal :=
  .next (
    let w := (tblGet (fun _ => []) s.flt.ceWin subject).filter (fun t => s.clk.now < t + 3600000000000)
    let s1 : State := { s with flt := { s.flt with ceWin := tblPut (fun _ => []) s.flt.ceWin subject w } }
    if w.length > s.cfg Reg.FLT_CFG Fld.FLT_CFG_CE_LIMIT then
      (if tblGet falseAt s.flt.ceDone subject then s1
       else State.report { s1 with flt := { s1.flt with ceDone := tblPut falseAt s1.flt.ceDone subject true } } 0x08 0 (ceCtx subject))
    else { s1 with flt := { s1.flt with ceDone := tblPut falseAt s1.flt.ceDone subject false } })

/-! ### Request timers (R464-R468) -/

/-- R464, R470. The instant at which a timer that started at `start` and allows `limit` expires, when HOLD has paused it for `held` so far
and, if asserted, stays asserted: HOLD pauses it for at most `cap` in all. -/
def heldUntil (start limit cap held : Nat) (asserted : Bool) : Nat := start + limit + (if asserted then cap else min cap held)

/-- R464. How long one of the lists of intervals has paused a timer since an instant; an open interval reaches to now. -/
def heldSince (now start : Nat) (xs : List (Nat × Option Nat)) : Nat :=
  (xs.map (fun x => (x.2.getD now) - max start x.1)).sum

/-- R464. The port that a request to a chip from link die r leaves through asserts HOLD to its fabric request timer while it retries: the
instant at which the timer expires. -/
def State.fabricTimer (s : State) (r chip start : Nat) : Nat :=
  let xs := match s.route r chip with
    | some (ps, _) => tblGet noHolds s.flt.holds (pickPort ps { dst := chip, src := s.fget Reg.MOD_CHIP_NUMBER ⟨15, 0⟩, kind := 1 })
    | none => []
  heldUntil start (s.cfg Reg.FLT_TIMER Fld.FLT_TIMER_FABRIC_MS * 1000000) (s.cfg Reg.FLT_HOLD_CAP Fld.FLT_HOLD_CAP_FABRIC_MS * 1000000)
    (heldSince s.clk.now start xs) (xs.any (·.2.isNone))

/-- The re-issued request of a descriptor from a die to a target. -/
def isTimed (kind n seq die target : Nat) (t : Timed) : Bool :=
  t.kind == kind && t.ring == n && t.seq == seq && t.die == die && t.target == target

/-- R467. The class of a request that has reached the end of R466. -/
def timeoutClass (lower : Bool) : Nat := if lower then 0x06 else 0x02

/-- R467. A request of a descriptor has failed: the descriptor completes with FAULTED, and the report names requester and target. -/
def State.timedOut (s : State) (d : Started) (die target : Nat) (lower : Bool) : State :=
  (s.haltDesc d { status := stFAULTED, cls := timeoutClass lower, die := die }).report (timeoutClass lower) 2
    { ctxOf d.ring d.bytes die 0xFF with fn := some d.fn, eng := engOfFn d.fn, vals := [die, target] }

/-- R466. A request has been issued again. -/
def State.addTimed (s : State) (x : Timed) : State := { s with flt := { s.flt with timed := s.flt.timed ++ [x] } }

/-- R466. A timer of a request of a started descriptor expires: a read is re-issued once under a new tag; a write, and a read for
the second time, fail. -/
def requestTimer (s : State) (d : Started) (kind die target : Nat) (write lower : Bool) : State :=
  match s.flt.timed.find? (isTimed kind d.ring d.seq die target) with
  | some t =>
    let s1 := if lower then s else s.reach (t.since + s.cfg Reg.FLT_TIMER Fld.FLT_TIMER_REGION_MS * 1000000)
    State.timedOut { s1 with flt := { s1.flt with timed := dropFirst (isTimed kind d.ring d.seq die target) s1.flt.timed } } d die target (lower || t.lower)
  | none =>
    if write then s.timedOut d die target lower
    else
      let t := s.newTag
      t.2.addTimed { kind := kind, ring := d.ring, seq := d.seq, die := die, target := target, tag := t.1, lower := lower, since := s.clk.now }

/-- R9, R465, R466. The REGION_TIMER_EXPIRE command, for a request between assigned dies. A bridge on its path that has exhausted its
retries (`lower`, or as the state shows it) makes the timer fire at once. -/
def execRegionTimerExpire (n seq die target : Nat) (write lower : Bool) (s : State) : Host.Outcome State Fault Refusal :=
  .next (match s.findStarted n seq with
    | some d =>
      if d.done.isNone && dieAssigned die && dieAssigned target then requestTimer s d 0 die target write (lower || s.pathDown die target) else s
    | none => s)

/-- A row request of a GATHER with a tag. -/
def State.rowOfTag (s : State) (tag : Nat) : Option (GatherRun × GPos) :=
  s.gathers.findSome? (fun g => (g.bags.flatten.find? (fun p => p.st == 2 && p.tag == tag && p.chip != 0xFFFF)).map (fun p => (g, p)))

/-- R466. A row request is sent again under a new tag; its position then waits for the new one. -/
def State.reissueRow (s : State) (g : GatherRun) (p : GPos) (d : Started) : State :=
  let q := s.sendRow g d.bytes p
  q.1.updGather g.ring g.seq (fun x => { x with bags := x.bags.map (fun b => b.map (fun y => if y.st == 2 && y.tag == p.tag then q.2 else y)) })

/-- R464, R466. The fabric timer of a row request; one that has lost its route is not sent again. -/
def rowTimer (s : State) (g : GatherRun) (p : GPos) (lower : Bool) : State :=
  match s.findStarted g.ring g.seq with
  | none => s
  | some d =>
    let chip := p.chip
    let s := if lower then s else s.reach (s.fabricTimer g.region chip p.since)
    let again := s.flt.timed.any (fun t => t.kind == 1 && t.tag == p.tag)
    if again || !s.hasRoute g.region chip then s.timedOut d (0x40 + g.region) chip lower
    else
      (s.reissueRow g p d).addTimed
        { kind := 1, ring := g.ring, seq := g.seq, die := 0x40 + g.region, target := chip, tag := s.fab.nextTag, lower := lower, since := s.clk.now }

/-- R466, R467. The fabric timer of a read of another module: re-issued once, then answered with poisoned zeros; a TMP WRITE is not
re-issued and ends with STATUS 2. -/
def readTimer (s : State) (x : RemRead) (lower : Bool) : State :=
  let r := s.entry x.who
  let s := if lower then s else s.reach (s.fabricTimer r (x.addr / 2 ^ 48) x.since)
  let drop : State := { s with fab := { s.fab with reads := s.fab.reads.filter (·.tag != x.tag) } }
  if !x.data.isEmpty || s.flt.timed.any (fun t => t.kind == 1 && t.tag == x.tag) then
    (drop.replyRead x.who x.addr { data := List.replicate x.len 0#8, poison := x.data.isEmpty }).report (timeoutClass lower) 2
      { die := 0x48 + r, unit := 0x24, region := some r, vals := [0x48 + r, x.addr / 2 ^ 48] }
  else
    let t := drop.newTag
    let s1 := (t.2.addRead { x with tag := t.1, since := s.clk.now }).addTimed
      { kind := 1, ring := 0xFF, seq := 0, die := 0x48 + r, target := x.addr / 2 ^ 48, tag := t.1, lower := lower, since := s.clk.now }
    s1.send r { dst := x.addr / 2 ^ 48, src := 0, kind := 0x01, addr := x.addr % 2 ^ 48, tag := t.1, body := leBytes 8 x.len,
                 vc := if mgmtOf x.who then 6 else 4, flags := if mgmtOf x.who then 2 else 0 }

/-- R465, R467. A port on the path of a request to a chip has exhausted its retries: no port to the chip is up. -/
def State.routeLost (s : State) (r chip : Nat) : Bool := !s.hasRoute r chip

/-- R465, R466. The FABRIC_TIMER_EXPIRE command. -/
def execFabricTimerExpire (tag : Nat) (lower : Bool) (s : State) : Host.Outcome State Fault Refusal :=
  .next (match s.rowOfTag tag, s.fab.reads.find? (·.tag == tag) with
    | some (g, p), _ => rowTimer s g p (lower || s.routeLost g.region p.chip)
    | none, some x => readTimer s x (lower || s.routeLost (s.entry x.who) (x.addr / 2 ^ 48))
    | none, none => s)

/-! ### Audits and RECLAIM (R472, R475, R476) -/

/-- The die whose sentinel reports for the pool of a bridge or of a region switch. -/
def poolDie (p : Nat) : Nat := if p < 138 then (bridgeEnds (p - 48)).1 else 0x40 + (p - 138) % 8

/-- R472. The pool of a bridge or of a region switch, whose audit register must show a number of holdings. -/
def State.auditPool (s : State) (p holdings : Nat) : State :=
  let w := s.reg (Reg.FLT_AUDIT p)
  if subMod 32 (Fld.FLT_AUDIT_ISSUED.get w) (Fld.FLT_AUDIT_RETURNED.get w) = holdings % 2 ^ 32 then s
  else s.report 0x05 3 { die := poolDie p, unit := bridgeUnit (poolDie p), pool := some p, vals := [p] }

/-- R472. The credits of bridge i. -/
def State.auditBridge (s : State) (i : Nat) : State := if s.flt.badPools.contains (48 + i) then s else s.auditPool (48 + i) 0

/-- R404. The token pool of reduce engine e must balance. -/
def State.auditRed (s : State) (e : Nat) : State :=
  let w := s.reg (Reg.RED_AUDIT e)
  if subMod 32 (Fld.RED_AUDIT_ISSUED.get w) (Fld.RED_AUDIT_RETURNED.get w) = s.grantsOut e % 2 ^ 32 then s
  else s.report 0x05 3 { die := 0x48 + e / 2, unit := 0x21 + e % 2, eng := some e, fn := some (0x40 + e) }

/-- R472. REGION_SWITCH_QUIESCENT: the buffer tokens of an empty switch must all be back. -/
def execRegionSwitchQuiescent (r : Nat) (s : State) : Host.Outcome State Fault Refusal :=
  .next (if r < 8 then s.auditPool (138 + r) 0 else s)

/-- The ports whose discovered neighbour is a chip; a port in training has one when it was ACTIVE before. -/
def State.portsTo (s : State) (chip : Nat) : List Nat :=
  (List.range 48).filter (fun p => s.portState p != pOFF && s.fget (Reg.FAB_PORT_STATUS (p / 6) (p % 6)) Fld.FAB_PORT_STATUS_NEIGH_CHIP == chip &&
    (3 ≤ s.portState p || (s.port p).reached))

/-- R475 step 1. A port is disabled. -/
def State.disablePort (s : State) (p : Nat) : State :=
  let off := Reg.FAB_PORT_CFG (p / 6) (p % 6)
  let s1 := s.fput off Fld.FAB_PORT_CFG_ENABLE 0
  let s2 : State := { s1 with inForce := tblPut regReset s1.inForce off (Fld.FAB_PORT_CFG_ENABLE.put (tblGet regReset s1.inForce off) 0) }
  (s2.portOff p).auditPort p

/-- R475 step 2. Packets to a chip that have not begun to leave are discarded. -/
def State.dropTo (s : State) (chip : Nat) : State :=
  (List.range 48).foldl (fun s p =>
    let pt := s.port p
    s.setPort p { pt with queue := pt.queue.map (fun e => (e.1, e.2.filter (fun q => q.begun || q.pkt.dst != chip))) }) s

/-- R475 step 4. The journal entries of a chip's ranks leave a bucket. -/
def State.reclaimHome (s : State) (chip : Nat) (h : HomeBucket) : State :=
  let rs := h.ranks.filter (fun r => r.chip == chip && h.jrnl.any (fun (j : JEntry) => j.rank == r.rank))
  let x := rs.foldl (fun (q : State × HomeBucket) r => q.1.retractVersion q.2 r) (s, h)
  if rs.isEmpty then s else x.1.putHome x.2

/-- Journal entries of the module. -/
def State.jrnlAll (s : State) : Nat := (s.homes.map (·.jrnl.length)).sum

/-- R475. RECLAIM: ports, packets, held items and journal entries of a lost chip. -/
def reclaimChip (s : State) (d : Started) : State :=
  if dPARAM d.bytes || !zeroBytes d.bytes 26 63 then s.setDone d.ring d.seq { status := stBAD_OPERAND, die := 0x50, unit := 0x31 }
  else
  let chip := leAt d.bytes 24 2
  let ps := s.portsTo chip
  let credits := (ps.map (fun p => ((s.port p).used.map (·.2)).sum)).sum
  let s1 := (ps.foldl (fun s p => s.disablePort p) s).dropTo chip
  let items := (s1.quar.items.filter (·.src == chip)).length
  let s2 : State := { s1 with quar := { s1.quar with items := s1.quar.items.filter (·.src != chip) } }
  let s3 := s2.homes.foldl (fun s h => s.reclaimHome chip h) s2
  let removed := items + (s2.jrnlAll - s3.jrnlAll)
  let engs := (List.range 16).filter (fun e => s2.homes.any (fun h => h.eng == e && h.ranks.any (·.chip == chip)))
  (engs.foldl State.auditRed s3).setDone d.ring d.seq { status := stSUCCESS, result := removed % 2 ^ 32 * 2 ^ 32 + credits % 2 ^ 32, die := 0x50, unit := 0x31 }

/-- R475. The RECLAIM command. -/
def execReclaim (n seq : Nat) (s : State) : Host.Outcome State Fault Refusal :=
  .next (match s.findStarted n seq with
    | some d => if dOPCODE d.bytes = 0x5020 && d.done.isNone then reclaimChip s d else s
    | none => s)

end Sys2Proof.Machine
end

