-- ==== Sys2Proof/Machine/Fn.lean ====
section
/-!
DEFINITION. Functions and their states (spec/02 R103-R121, R775): the commands STOP, CHANGE, RESTART and ABORT, the end of
DRAIN, and the checks of RESTART (R111, and the rules of the chapters that name a setting).
-/
namespace Sys2Proof.Machine

open Sys2Proof

/-! ### Configuration registers of a function (R109, R111) -/

/-- The offsets of a row's registers that function f owns. -/
def RegRow.offsOf (r : RegRow) (f : Nat) : List Nat :=
  match r.owner with
  | none => []
  | some (b, k) => (List.range r.countA).flatMap (fun a =>
      if b + k * a = f then (List.range r.countB).map (fun j => r.base + r.strideA * a + r.strideB * j) else [])

/-- The offsets of the configuration registers of function f. -/
def cfgOffs (f : Nat) : List Nat := ((List.range 16).flatMap regBlock).flatMap (fun r => r.offsOf f)

/-- R111. The settings of function f come into force together. -/
def State.takeSettings (s : State) (f : Nat) : State :=
  { s with inForce := (cfgOffs f).foldl (fun m o => tblPut regReset m o (s.reg o)) s.inForce }

/-! ### What fails RESTART -/

/-- A setting: its register's offset and whether it is valid. -/
abbrev Setting := Nat × Bool

/-- R188, R189. The array. -/
def State.arrSettings (s : State) : List Setting :=
  let g := s.fget Reg.ARR_TILER_CFG
  let mib := g Fld.ARR_TILER_CFG_TILER_MIB
  [(Reg.ARR_TILER_CFG, g Fld.ARR_TILER_CFG_PREFETCH_CHUNKS != 0 && 16 ≤ mib && mib ≤ 80 && mib % 2 == 0)]

/-- R228. The error memory of region r lies in one of the region's two stacks; an empty one lies anywhere. -/
def State.errMemOk (s : State) (r : Nat) : Bool :=
  let n := s.fget (Reg.LDG_ERRMEM_SIZE r) Fld.LDG_ERRMEM_SIZE_PAGES
  let p := s.fget (Reg.LDG_ERRMEM_BASE r) Fld.LDG_ERRMEM_BASE_BASE
  n == 0 || (0x10000000 ≤ p && (p - 0x10000000) / 2 ^ 24 == (p - 0x10000000 + n - 1) / 2 ^ 24 && (p - 0x10000000) / 2 ^ 25 == r)

/-- R356, R228. Link die r: the division of its receive slots, its weights, and the error memory. -/
def State.linkSettings (s : State) (r : Nat) : List Setting :=
  let c := s.fget (Reg.FAB_VC_CREDITS r) Fld.FAB_VC_CREDITS_ALL
  let v (n : Nat) : Nat := bitsOf c (8 * n + 7) (8 * n)
  let w := s.fget (Reg.FAB_VC_WEIGHT r) Fld.FAB_VC_WEIGHT_ALL
  [(Reg.LDG_ERRMEM_BASE r, s.errMemOk r),
   (Reg.FAB_VC_CREDITS r, ((List.range 8).map v).sum == 128 && 2 ≤ v 0 && v 7 == 0),
   (Reg.FAB_VC_WEIGHT r, (List.range 6).all (fun i => bitsOf w (4 * i + 3) (4 * i) != 0))] ++
  (List.range 6).map (fun q => (Reg.FAB_PORT_CFG r q, decide (s.fget (Reg.FAB_PORT_CFG r q) Fld.FAB_PORT_CFG_PLAN_PORT < 48)))

/-- The pages of this module that a range of global addresses touches lie in stacks 2r and 2r + 1. -/
def State.inRegion (s : State) (r addr n : Nat) : Bool :=
  (piecesOf addr n).all (fun p => match s.hbmOf p.1 with | some a => regionOfPage (a / 4096) == r | none => false)

/-- R405. Reduce engine e. -/
def State.redSettings (s : State) (e : Nat) : List Setting :=
  let r := e / 2
  let base := s.fget (Reg.RED_BUF_BASE e) Fld.RED_BUF_BASE_BASE * 4096
  let n := s.fget (Reg.RED_BUF_SIZE e) Fld.RED_BUF_SIZE_PAGES
  let emPage := s.fget (Reg.LDG_ERRMEM_BASE r) Fld.LDG_ERRMEM_BASE_BASE - 0x10000000
  let emN := s.fget (Reg.LDG_ERRMEM_SIZE r) Fld.LDG_ERRMEM_SIZE_PAGES
  let j := s.fget (Reg.RED_JRNL_CFG e) Fld.RED_JRNL_CFG_ENTRIES
  let l := s.fget (Reg.RED_DLOG_CFG e) Fld.RED_DLOG_CFG_LOG2_STEPS
  [(Reg.RED_BUF_BASE e, s.inRegion r base (n * 4096) && !(s.gpages base (n * 4096)).any (fun p => emPage ≤ p && p < emPage + emN)),
   (Reg.RED_BUF_SIZE e, 65536 ≤ n),
   (Reg.RED_JRNL_CFG e, 1 ≤ j && j ≤ 4096),
   (Reg.RED_DLOG_BASE e, s.inOwnMem (s.fget (Reg.RED_DLOG_BASE e) Fld.RED_DLOG_BASE_BASE * 4096) (2 ^ l * 0x200000)),
   (Reg.RED_DLOG_CFG e, 1 ≤ l && l ≤ 8)]

/-- R302. The rule table of an Update engine, a header and 64 pairs of slots, lies in this module's HBM. -/
def State.updSettings (s : State) (r : Nat) : List Setting :=
  [(Reg.UPD_RULE_BASE r, s.inOwnHbm (s.fget (Reg.UPD_RULE_BASE r) Fld.UPD_RULE_BASE_BASE * 4096) 0x4100)]

/-- R261. A Gather engine. -/
def State.gatherSettings (s : State) (r : Nat) : List Setting :=
  [(Reg.LDG_TBL_DIR_CFG r, s.fget (Reg.LDG_TBL_DIR_CFG r) Fld.LDG_TBL_DIR_CFG_COUNT ≤ 4096)]

/-- The protected ranges as they stand in the registers, with KIND 3 counted as in use (R553). -/
def State.newProts (s : State) : List Prot :=
  (List.range 32).filterMap (fun i => protOf i (s.reg (Reg.CKP_RANGE_A i)) (s.reg (Reg.CKP_RANGE_B i)))

/-- R570. Pages that the Sump takes in each stack, and its first page there. -/
def State.newSump (s : State) : Nat × Nat :=
  (s.fget Reg.CKP_SUMP_BASE Fld.CKP_SUMP_BASE_BASE,
   (s.fget Reg.CKP_SUMP_CFG Fld.CKP_SUMP_CFG_SHADOW_MIB + s.fget Reg.CKP_SUMP_CFG Fld.CKP_SUMP_CFG_DELTA_MIB) * 256)

/-- R517. The pages of the Caddy ring. -/
def State.newCaddy (s : State) : List Nat :=
  if s.fget Reg.CONT_CADDY_BASE Fld.CONT_CADDY_BASE_BASE = 0 then [] else s.gpages (s.fget Reg.CONT_CADDY_BASE Fld.CONT_CADDY_BASE_BASE * 4096) 0x10000000

/-- Two page ranges overlap. -/
def pagesMeet (a n b m : Nat) : Bool := decide (a < b + m) && decide (b < a + n)

/-- R408, R39. A page range within a stack meets its tag area or, in stacks 0 and 1, its crash-dump area. -/
def meetsFixed (page n : Nat) : Bool :=
  n != 0 && pagesMeet (page % 2 ^ 24) n 0xFE8000 (if page / 2 ^ 24 < 2 then 0x18000 else 0x8000)

/-- R553-R555. A protected range is well placed among the others, the Sump and the Caddy ring. -/
def State.rangeOk (s : State) (caddy : List Nat) (r : Prot) : Bool :=
  let a := s.reg (Reg.CKP_RANGE_A r.index)
  let su := s.newSump
  r.kind < 3 && 0x10000000 ≤ Fld.CKP_RANGE_A_BASE.get a && r.page0 < 2 ^ 28 &&
    (r.pages == 0 || r.page0 / 2 ^ 24 == (r.page0 + r.pages - 1) / 2 ^ 24) &&
    (!r.narrow || r.pages % 5 == 0) && !meetsFixed r.page0 r.pages &&
    !pagesMeet (r.page0 % 2 ^ 24) r.pages su.1 su.2 &&
    !caddy.any (fun p => r.page0 ≤ p && p < r.page0 + r.pages) &&
    s.newProts.all (fun q => q.index == r.index || !pagesMeet q.page0 q.pages r.page0 r.pages)

/-- R570. The share of the image of some stack exceeds the shadow. -/
def State.shadowSmall (s : State) : Bool :=
  (List.range 16).any (fun st => ((s.newProts.filter (fun r => r.stack == st)).map Prot.imagePages).sum >
    s.fget Reg.CKP_SUMP_CFG Fld.CKP_SUMP_CFG_SHADOW_MIB * 256)

/-- The Trelfort continuity service: R514, R452, R469, R517, spec/12 and spec/13 registers, spec/14, R664, spec/17. -/
def State.contSettings (s : State) : List Setting :=
  let stall := s.fget Reg.MOD_HANG_CFG Fld.MOD_HANG_CFG_STALL_MS
  let w := s.fget Reg.INTG_STEEP Fld.INTG_STEEP_WINDOW_NS
  let t := s.fget Reg.FLT_TIMER
  let cb := s.fget Reg.CONT_CADDY_BASE Fld.CONT_CADDY_BASE_BASE * 4096
  let caddy := s.newCaddy
  let su := s.newSump
  let rate := s.fget Reg.CKP_CFG Fld.CKP_CFG_RATE_PCT
  let bm := s.fget Reg.TRF_RISK_CFG Fld.TRF_RISK_CFG_BUCKET_MIN
  let th := s.fget Reg.TRF_RISK_THRESH
  let wc := s.fget Reg.PWR_THERM_CFG Fld.PWR_THERM_CFG_WARN_C
  [(Reg.MOD_HANG_CFG, 1 ≤ stall && stall ≤ 1000),
   (Reg.INTG_STEEP, 10000 ≤ w && w ≤ 200000),
   (Reg.FLT_TIMER, 5 ≤ t Fld.FLT_TIMER_REGION_MS && 17 ≤ t Fld.FLT_TIMER_FABRIC_MS && 41 ≤ t Fld.FLT_TIMER_MODULE_MS &&
     10 ≤ t Fld.FLT_TIMER_CONG_US && t Fld.FLT_TIMER_CONG_US ≤ 10000),
   (Reg.CONT_CADDY_BASE, cb == 0 || (s.inOwnHbm cb 0x10000000 && !caddy.any alwaysOpen)),
   (Reg.CONT_CADDY_CFG, s.fget Reg.CONT_CADDY_CFG Fld.CONT_CADDY_CFG_COPIES < 3 && 10 ≤ s.fget Reg.CONT_CADDY_CFG Fld.CONT_CADDY_CFG_BUDDY_WAIT_US),
   (Reg.CONT_SPREAD_CFG, s.fget Reg.CONT_SPREAD_CFG Fld.CONT_SPREAD_CFG_PLANS ≤ 32768),
   (Reg.CKP_CFG, 1 ≤ rate && rate ≤ 5),
   (Reg.CKP_SUMP_BASE, (su.1 + su.2 ≤ 2 ^ 24 || su.2 == 0) && !meetsFixed su.1 su.2),
   (Reg.CKP_SUMP_CFG, !s.shadowSmall)] ++
  s.newProts.map (fun r => (Reg.CKP_RANGE_A r.index, s.rangeOk caddy r)) ++
  [(Reg.TRF_RISK_CFG, 1 ≤ bm && bm ≤ 60),
   (Reg.TRF_RISK_THRESH, th Fld.TRF_RISK_THRESH_WATCH < th Fld.TRF_RISK_THRESH_WARN && th Fld.TRF_RISK_THRESH_WARN < th Fld.TRF_RISK_THRESH_RETIRE),
   (Reg.TIME_CFG, s.fget Reg.TIME_CFG Fld.TIME_CFG_LOCK_NS != 0),
   (Reg.PWR_THERM_CFG, 80 ≤ wc && wc ≤ 105)]

/-- R123, R112. Submission ring n and completion ring m. -/
def State.sqSettings (s : State) (n : Nat) : List Setting :=
  let l := s.fget (Reg.RING_SQ_CFG n) Fld.RING_SQ_CFG_LOG2_SIZE
  [(Reg.RING_SQ_CFG n, 6 ≤ l && l ≤ 16 && s.fnState (cqFn (s.fget (Reg.RING_SQ_CFG n) Fld.RING_SQ_CFG_CQ)) == fnRUN)]
def State.cqSettings (s : State) (m : Nat) : List Setting :=
  let l := s.fget (Reg.RING_CQ_CFG m) Fld.RING_CQ_CFG_LOG2_SIZE
  [(Reg.RING_CQ_CFG m, 6 ≤ l && l ≤ 16)]

/-- The settings that function f checks, in offset order. -/
def State.settings (s : State) (f : Nat) : List Setting :=
  if f = 0 then s.arrSettings
  else if 0x10 ≤ f && f < 0x30 then
    (if f % 4 = 0 then s.gatherSettings ((f - 0x10) / 4) else if f % 4 = 1 then s.updSettings ((f - 0x10) / 4) else [])
  else if 0x30 ≤ f && f < 0x38 then s.linkSettings (f - 0x30)
  else if 0x40 ≤ f && f < 0x50 then s.redSettings (f - 0x40)
  else if f = 0x50 then s.contSettings
  else if 0x100 ≤ f && f < 0x200 then s.sqSettings (f - 0x100)
  else if 0x200 ≤ f && f < 0x300 then s.cqSettings (f - 0x200)
  else []

/-- R111. The first invalid register of function f in offset order. -/
def State.badSetting (s : State) (f : Nat) : Option Nat := ((s.settings f).find? (fun c => !c.2)).map (·.1)

/-! ### What RESTART sets (R124, R166, R302, R340, R405, R452, R472, R575) -/

/-- Zero whole registers. -/
def State.zeroRegs (s : State) (offs : List Nat) : State := offs.foldl (fun s o => s.setReg o 0#64) s

/-- R472. A pool is reloaded: what it issued stands for what is held. -/
def State.reloadPort (s : State) (p : Nat) : State :=
  (s.setReg (Reg.FLT_AUDIT p) 0#64).fput (Reg.FLT_AUDIT p) Fld.FLT_AUDIT_ISSUED (((s.port p).used.map (·.2)).sum)

/-- R166, R452. The array's counters return to zero. -/
def State.restartArray (s : State) : State :=
  let s1 := s.zeroRegs [Reg.ARR_ARITH_CNT, Reg.INTG_CHECK_CNT, Reg.INTG_AUDIT_CNT, Reg.INTG_TAG_CNT, Reg.INTG_STEEP_CNT]
  (s1.fput Reg.INTG_SCAN_STATUS Fld.INTG_SCAN_STATUS_FAILED 0).fput Reg.INTG_SCAN_STATUS Fld.INTG_SCAN_STATUS_PASSED 0

/-- R340, R333, R472. Link die r applies its port settings and reloads its pools, and ACCEPT_DOWN returns to zero. -/
def State.restartLink (s : State) (r : Nat) : State :=
  let s0 : State := { s with flt := { s.flt with badPools := s.flt.badPools.filter (fun p => p / 6 != r) } }
  (((List.range 6).foldl (fun s i => s.reloadPort (6 * r + i)) s0).fput Reg.FAB_PLAN_STATUS Fld.FAB_PLAN_STATUS_ACCEPT_DOWN 0).applyPorts r

/-- R302. The counters of an Update engine. -/
def State.restartUpd (s : State) (r : Nat) : State :=
  ((s.fput (Reg.UPD_STATUS r) Fld.UPD_STATUS_SINGULAR 0).fput (Reg.UPD_STATUS r) Fld.UPD_STATUS_NONFINITE 0).fput
    (Reg.UPD_STATUS r) Fld.UPD_STATUS_HANDED 0

/-- R405, R472. The counters and the pool of reduce engine e. -/
def State.restartRed (s : State) (e : Nat) : State :=
  (s.zeroRegs [Reg.RED_CNT_A e, Reg.RED_CNT_B e, Reg.RED_AUDIT e]).fput (Reg.RED_AUDIT e) Fld.RED_AUDIT_ISSUED (s.grantsOut e)

/-- R124. A submission ring starts again at RING_SEQ 0. -/
def State.restartSq (s : State) (n : Nat) : State :=
  ((s.setSq n {}).zeroRegs [Reg.RING_SQ_HEAD n, Reg.RING_SQ_TAIL n, Reg.RING_EVT_BANK n]).putBit (Reg.RING_SQ_STATUS n) 0 false

/-- R124, R123. A completion ring starts again at slot 0 with PHASE 1. -/
def State.restartCq (s : State) (m : Nat) : State :=
  (s.zeroRegs [Reg.RING_CQ_HEAD m, Reg.RING_CQ_TAIL m]).fput (Reg.RING_CQ_STATUS m) Fld.RING_CQ_STATUS_DROPPED 0

/-- R104, R111. Function f has valid settings: they come into force and it enters RUN. -/
def State.passRestart (s : State) (f : Nat) : State :=
  let s1 := (s.takeSettings f).setFn f fnRUN
  if f = 0 then s1.restartArray
  else if 0x10 ≤ f && f < 0x30 && f % 4 = 1 then s1.restartUpd ((f - 0x10) / 4)
  else if 0x30 ≤ f && f < 0x38 then s1.restartLink (f - 0x30)
  else if 0x40 ≤ f && f < 0x50 then s1.restartRed (f - 0x40)
  else if f = 0x50 then State.ptpApplied { s1 with sump := { s1.sump with ordinal := 0 } }
  else if 0x100 ≤ f && f < 0x200 then s1.restartSq (f - 0x100)
  else if 0x200 ≤ f && f < 0x300 then s1.restartCq (f - 0x200)
  else s1

/-- R111. Function f in CHANGE passes RESTART, or stays in CHANGE with CONFIG_REJECTED naming the first invalid register. -/
def State.restartFn (s : State) (f : Nat) : State :=
  match s.badSetting f with
  | some off => s.rejected off (s.reg off).toNat (some f)
  | none => s.passRestart f

/-! ### The end of DRAIN (R115, R119, R121, R775) -/

/-- R346, R472. The start token. -/
def State.auditToken (s : State) : State :=
  let w := s.reg (Reg.FLT_AUDIT 146)
  if subMod 32 (Fld.FLT_AUDIT_ISSUED.get w) (Fld.FLT_AUDIT_RETURNED.get w) = (if s.fab.token then 0 else 1) then s
  else s.report 0x05 3 { die := 0x48, unit := 0x25, pool := some 146 }

/-- R95, R96, R472. The slots of completion ring m that are held: those of UNCONFIRMED completions that have not settled, and of the
fetched and the started descriptors of its submission rings. -/
def State.slotsHeld (s : State) (m : Nat) : Nat :=
  (s.unconf.filter (fun u => u.cq == m && u.kept)).length +
    ((s.started.filter (fun d => s.cqOf d.ring == m && d.rgen == s.gen (sqFn d.ring))).map (·.slots)).sum +
    ((List.range 256).map (fun n => if s.cqOf n = m then ((s.sqSt n).fetched.map (·.slots)).sum else 0)).sum

/-- R472. The slots of completion ring m. -/
def State.auditCq (s : State) (m : Nat) : State :=
  if s.fget (Reg.RING_CQ_STATUS m) Fld.RING_CQ_STATUS_RESERVED = s.slotsHeld m then s
  else s.report 0x05 3 { die := 0x48, unit := 0x26, fn := some (cqFn m) }

/-- A function runs on a die. -/
def fnOnDie (f die : Nat) : Bool :=
  if f = 0 then die < 64
  else if f = 0x50 || f = 0x51 then die == 0x50 || die == 0x51
  else f < 0x100 && die == dieOfFn f

/-- R472. The bridges with an end at a die of function f. -/
def bridgesOf (f : Nat) : List Nat := (List.range 90).filter (fun i => fnOnDie f (bridgeEnds i).1 || fnOnDie f (bridgeEnds i).2)

/-- R119, R472. The pools of function f are audited; a pool that a fatal disagreement took out is not (R473, R507). -/
def State.auditFn (s : State) (f : Nat) : State :=
  let s0 := (bridgesOf f).foldl State.auditBridge s
  if 0x30 ≤ f && f < 0x38 then
    let s1 := (List.range 6).foldl (fun s i => if s.flt.badPools.contains (6 * (f - 0x30) + i) then s else s.auditPort (6 * (f - 0x30) + i)) s0
    if f = 0x30 then s1.auditToken else s1
  else if 0x40 ≤ f && f < 0x50 then s0.auditRed (f - 0x40)
  else if 0x200 ≤ f && f < 0x300 then s0.auditCq (f - 0x200)
  else s0

/-- R119. The completion rings that the aborted descriptors of function f, or submission ring n's, held slots of. -/
def State.cqsOf (s : State) (f : Nat) : List Nat :=
  if 0x100 ≤ f && f < 0x200 then [s.cqOf (f - 0x100)] else dedup ((s.started.filter (·.fn == f)).map (fun d => s.cqOf d.ring))

/-- R104. Function f enters STOPPED. -/
def State.enterStopped (s : State) (f : Nat) : State :=
  ({ s with drainAt := tblPut zeroAt s.drainAt f 0 } : State).setFn f fnSTOPPED

/-- Submission ring n's started descriptors that it has not disowned. -/
def State.ownStarted (s : State) (n : Nat) : List Started := s.started.filter (fun d => d.ring == n && d.rgen == s.gen (sqFn n))

/-- R115 step 4, R121, R385, R775. Function f holds no started work. -/
def State.drained (s : State) (f : Nat) : Bool :=
  if 0x100 ≤ f && f < 0x200 then (s.ownStarted (f - 0x100)).isEmpty
  else if 0x200 ≤ f && f < 0x300 then s.fget (Reg.RING_CQ_STATUS (f - 0x200)) Fld.RING_CQ_STATUS_RESERVED == 0
  else !(s.started.any (·.fn == f)) && (!(0x40 ≤ f && f < 0x50) || (s.homesOf (f - 0x40)).isEmpty)

/-- R116. A started descriptor is aborted: its record, with ABORTED, is written at once. -/
def State.abortDesc (s : State) (d : Started) : State :=
  let w := s.whereRuns d
  let s1 := (s.updStarted d.ring d.seq (fun x => { x with done := none })).haltDesc d { status := stABORTED, die := w.1, unit := w.2 }
  match s1.findStarted d.ring d.seq with
  | some x => completeStarted s1 { x with ticket := none } (x.done.getD { status := stABORTED }) (fun s => traceEnd s x)
  | none => s1

/-- R121. Submission ring n disowns what it has outstanding, and bumps its GEN. -/
def State.disown (s : State) (n : Nat) : State :=
  let ds := s.ownStarted n
  ((s.release (s.cqOf n) ((ds.map (·.slots)).sum)).bump (Reg.RING_SQ_STATUS n) Fld.RING_SQ_STATUS_DISOWNED ds.length).bumpGen (sqFn n)

/-- R775. Completion ring m releases every slot still reserved; a record that becomes ready later is dropped. -/
def State.releaseAll (s : State) (m : Nat) : State :=
  let s1 := s.fput (Reg.RING_CQ_STATUS m) Fld.RING_CQ_STATUS_RESERVED 0
  { s1 with
    unconf := s1.unconf.map (fun u => if u.cq = m then { u with kept := false } else u)
    started := s1.started.map (fun d => if s.cqOf d.ring = m then { d with slots := 0 } else d) }

/-- R115 step 5, R119, R120, R385, R427, R775. Function f aborts every started descriptor; GEN is bumped, and the pools are audited. -/
def State.abortFn (s : State) (f : Nat) : State :=
  let cqs := s.cqsOf f
  let s1 :=
    if 0x100 ≤ f && f < 0x200 then s.disown (f - 0x100)
    else if 0x200 ≤ f && f < 0x300 then (s.releaseAll (f - 0x200)).bumpGen f
    else
      let s0 := if f = 0 then s.withdrawDisagreements else s
      let s1 := (s0.started.filter (·.fn == f)).foldl (fun s d => s.abortDesc d) s0
      (if 0x40 ≤ f && f < 0x50 then s1.refuseHomes (f - 0x40) else s1).bumpGen f
  (cqs.foldl State.auditCq (s1.auditFn f)).enterStopped f

/-- R105, R495. Function f leaves RUN with a DRAIN_LIMIT of zero: it aborts at once what it has started. -/
def State.drainNow (s : State) (f : Nat) : State :=
  let s1 := s.enterDrain f
  if s1.fnState f = fnDRAIN then (if s1.drained f then (s1.enterStopped f).auditFn f else s1.abortFn f) else s1

/-! ### Commands (R106-R108, R112, R498) -/

/-- R498. A reset in progress covers function f. -/
def State.resetCovers (s : State) (f : Nat) : Bool :=
  match s.hang.reset with
  | none => false
  | some r => if r.level = 1 then f == 0 else if r.level = 2 then f != 0x50 && f != 0x51 else true

/-- R107, R498. A command reaches an assigned function that no reset covers, or is discarded with CONFIG_REJECTED. -/
def State.fnCmd (s : State) (f cmd : Nat) (act : State → State) : State :=
  if !fnAssigned f then s.rejected (Reg.MOD_FN f) (cmd * 2 ^ 16) none
  else if s.resetCovers f then s.rejected (Reg.MOD_FN f) (cmd * 2 ^ 16) (some f)
  else act s

/-- R108. A command that is not valid for the present state. -/
def State.badCmd (s : State) (f cmd : Nat) : State := s.rejected (Reg.MOD_FN f) (cmd * 2 ^ 16) (some f)

/-- R112. Every submission ring bound to completion ring m is in STOPPED or CHANGE. -/
def State.cqFree (s : State) (m : Nat) : Bool :=
  (List.range 256).all (fun n => s.cqOf n != m || s.fnState (sqFn n) == fnSTOPPED || s.fnState (sqFn n) == fnCHANGE)

/-- R104, R105, R115. A function is taken into DRAIN; a DRAIN_LIMIT of 0 aborts its started work as it enters. -/
def State.leaveRun (s : State) (f : Nat) : State :=
  let s1 := s.enterDrain f
  if s1.fnState f = fnDRAIN && s1.fget (Reg.MOD_FN f) Fld.MOD_FN_DRAIN_LIMIT = 0 && !s1.drained f then s1.abortFn f else s1

def cmdStop (f : Nat) (s : State) : State :=
  let st := s.fnState f
  if st = fnRUN then
    (if 0x200 ≤ f && f < 0x300 && !s.cqFree (f - 0x200) then s.badCmd f 1 else s.leaveRun f)
  else if st = fnCHANGE || st = fnRESTART then s.badCmd f 1
  else s

def cmdChange (f : Nat) (s : State) : State :=
  let st := s.fnState f
  if st = fnSTOPPED then s.setFn f fnCHANGE
  else if st = fnCHANGE then s
  else s.badCmd f 2

def cmdRestart (f : Nat) (s : State) : State :=
  let st := s.fnState f
  if st = fnCHANGE then s.restartFn f
  else if st = fnRESTART then s
  else s.badCmd f 3

def cmdAbort (f : Nat) (s : State) : State :=
  let st := s.fnState f
  if st = fnRUN then (s.enterDrain f).abortFn f
  else if st = fnDRAIN then s.abortFn f
  else if st = fnSTOPPED then s
  else s.badCmd f 4

/-- R464, R468. The module operation timer of a started descriptor runs from its start; re-issued requests pause it. -/
def State.moduleTimer (s : State) (d : Started) : Nat :=
  let open_ := s.flt.timed.find? (fun t => t.ring == d.ring && t.seq == d.seq)
  heldUntil d.startAt (s.cfg Reg.FLT_TIMER Fld.FLT_TIMER_MODULE_MS * 1000000) (s.cfg Reg.FLT_HOLD_CAP Fld.FLT_HOLD_CAP_MODULE_MS * 1000000)
    d.held open_.isSome

/-- R105, R468. MODULE_TIMER_EXPIRE: the function of a started descriptor leaves RUN as a fault transition; the report carries the class
of a request of the descriptor that had exhausted retries below it, else DEADLINE_MISS. -/
def execModuleTimerExpire (n seq : Nat) (s : State) : Host.Outcome State Fault Refusal :=
  .next (match s.findStarted n seq with
    | some d =>
      if d.done.isNone then
        let lower := s.flt.timed.any (fun t => t.ring == n && t.seq == seq && t.lower)
        let w := s.whereRuns d
        let s1 := if lower then s else s.reach (s.moduleTimer d)
        ((s1.engineFault d (timeoutClass lower)).report (timeoutClass lower) 2 { ctxOf n d.bytes w.1 w.2 with fn := some d.fn, eng := engOfFn d.fn }).leaveRun d.fn
      else s
    | none => s)

/-- R108. CMD STOP. -/
def execCmdStop (f : Nat) (s : State) : Host.Outcome State Fault Refusal := .next (s.fnCmd f 1 (cmdStop f))

/-- R108. CMD CHANGE. -/
def execCmdChange (f : Nat) (s : State) : Host.Outcome State Fault Refusal := .next (s.fnCmd f 2 (cmdChange f))

/-- R111, R112. CMD RESTART. -/
def execCmdRestart (f : Nat) (s : State) : Host.Outcome State Fault Refusal := .next (s.fnCmd f 3 (cmdRestart f))

/-- R108. CMD ABORT. -/
def execCmdAbort (f : Nat) (s : State) : Host.Outcome State Fault Refusal := .next (s.fnCmd f 4 (cmdAbort f))

/-- R115 step 4. DRAIN_COMPLETE. -/
def execDrainComplete (f : Nat) (s : State) : Host.Outcome State Fault Refusal :=
  .next (if s.fnState f = fnDRAIN && s.drained f then (s.enterStopped f).auditFn f else s)

/-- R115 step 5. DRAIN_LIMIT_EXPIRE: DRAIN_LIMIT milliseconds after the function entered DRAIN. -/
def execDrainLimitExpire (f : Nat) (s : State) : Host.Outcome State Fault Refusal :=
  .next (if s.fnState f = fnDRAIN && !s.drained f then
      (s.reach (tblGet zeroAt s.drainAt f + s.fget (Reg.MOD_FN f) Fld.MOD_FN_DRAIN_LIMIT * 1000000)).abortFn f
    else s)

/-- A reply or late write to function f, which carries its GEN. -/
def lateFor (f : Nat) (k : Packet) : Bool :=
  if 0x10 ≤ f && f < 0x30 && f % 4 = 0 then [0x11, 0x12, 0x14, 0x15].contains k.kind
  else if 0x30 ≤ f && f < 0x38 then [0x41, 0x44, 0x46].contains k.kind
  else if 0x40 ≤ f && f < 0x50 then [0x21, 0x23, 0x24, 0x25, 0x32, 0x33].contains k.kind && k.addr + 0x40 == f
  else if f = 0x50 then k.kind == 0x3D
  else k.kind == 0x02 || k.kind == 0x05

/-- R118. The packet that is dropped is one that waits here, if one does. -/
def State.dropLate (s : State) (f gen : Nat) : State :=
  { s with fab := { s.fab with delivered := dropFirst (fun k => k.gen == gen && lateFor f k) s.fab.delivered } }

/-- R118, R465. STALE_REPLY_DROP: a reply or late write that carries an earlier GEN of the function is dropped and counted; for a
submission ring it is the late record of a disowned descriptor (R121). -/
def execStaleReplyDrop (f gen : Nat) (s : State) : Host.Outcome State Fault Refusal :=
  .next (if fnAssigned f && gen != s.gen f then
      (if 0x100 ≤ f && f < 0x200 then
        (match s.started.find? (fun d => d.ring == f - 0x100 && d.rgen == gen && d.done.isSome) with
        | some d => dropDisowned (traceEnd s d) d
        | none => s.dropStale f)
      else (s.dropLate f gen).dropStale f)
    else s)

end Sys2Proof.Machine
end

