-- ==== Sys2Proof/Machine/Hang.lean ====
section
/-!
DEFINITION. The wait-for detector, the fabric stall probes and the naming of hangs (spec/11 R485-R490, R493, R494).
-/
namespace Sys2Proof.Machine

open Sys2Proof

/-! ### The wait graph (R485) -/

/-- An edge: the waiter, what it waits on, and the ring and RING_SEQ of the blocked descriptor. -/
abbrev Wait := Nat × Nat × Nat × Nat

/-- R485, first row. What ring n's next descriptor waits on when it lacks events. -/
def State.eventWaits (s : State) (n : Nat) (f : Fetched) : List Wait :=
  if s.fget (Reg.RING_EVT_BANK n) Fld.RING_EVT_BANK_COUNT < dWAIT f.bytes then
    ((List.range 256).filter (fun m => (s.sqSt m).fetched.any (fun x => dSIGNAL x.bytes && dSIG_RING x.bytes == n))).map
        (fun m => (sqFn n, sqFn m, n, f.seq)) ++
      (s.started.filter (fun d => d.done.isNone && dSIGNAL d.bytes && dSIG_RING d.bytes == n)).map (fun d => (sqFn n, d.fn, n, f.seq))
  else []

/-- R485, second row. What ring n's next descriptor waits on under FLAGS.SERIAL. -/
def State.serialWaits (s : State) (n : Nat) (f : Fetched) : List Wait :=
  if dSERIAL f.bytes then (s.started.filter (fun d => d.ring == n && d.done.isNone)).map (fun d => (sqFn n, d.fn, n, f.seq)) else []

/-- R485, third row, for a GATHER: rows outstanding at another Gather engine of this module. -/
def State.rowWaits (s : State) (g : GatherRun) : List Wait :=
  ((List.range 8).filter (fun r => r != g.region && g.bags.any (fun b => b.any (fun p => p.st == 2 && p.chip == 0xFFFF &&
      (match s.hbmOf p.addr with | some a => regionOfPage (a / 4096) == r | none => false))))).map
    (fun r => (0x10 + 4 * g.region, 0x10 + 4 * r, g.ring, g.seq))

/-- R485, third row, for a REDUCE: a bucket whose exponent is fixed at another engine of this module, which owes the rank its
GRANT or its RESULT. -/
def State.tokenWaits (s : State) (k : RankRun) : List Wait :=
  if k.closed then []
  else (s.homes.filter (fun h => !h.final && h.eng != k.eng && h.e.isSome && h.ranks.any (fun r => some r.chip == s.chip && r.eng == k.eng &&
      dSTEP k.bytes == h.step))).map (fun h => (0x40 + k.eng, 0x40 + h.eng, k.ring, k.seq))

/-- R485, fourth row. Fallback work of an Update engine waits on the array. -/
def State.fallbackWaits (s : State) : List Wait :=
  s.upd.filterMap (fun e => match e.2 with
    | some u => if u.ve.isSome then some (0x11 + 4 * e.1, 0, u.ring, u.seq) else none
    | none => none)

/-- R485. The wait graph. -/
def State.waits (s : State) : List Wait :=
  (List.range 256).flatMap (fun n => match (s.sqSt n).fetched with
    | f :: _ => s.eventWaits n f ++ s.serialWaits n f
    | [] => []) ++
  s.gathers.flatMap s.rowWaits ++ s.ranks.flatMap s.tokenWaits ++ s.fallbackWaits

/-- A way along edges from `cur` back to `start`, as the edges taken; the fuel bounds its length. -/
def cycleFrom (es : List Wait) : Nat → Nat → Nat → List Nat → Option (List Wait)
  | 0, _, _, _ => none
  | fuel + 1, start, cur, seen =>
    (es.filter (fun e => e.1 == cur)).findSome? (fun e =>
      if e.2.1 = start then some [e]
      else if seen.contains e.2.1 then none
      else (cycleFrom es fuel start e.2.1 (e.2.1 :: seen)).map (e :: ·))

/-- A cycle of the graph, if it has one. -/
def findCycle (es : List Wait) : Option (List Wait) := (dedup (es.map (·.1))).findSome? (fun v => cycleFrom es es.length v v [v])

/-! ### Declaring a cycle (R486, R487, R493) -/

/-- The module time of the first doorbell that covered the descriptor that an edge leaves from. -/
def State.bellOf (s : State) (e : Wait) : Int :=
  match (s.sqSt e.2.2.1).fetched.find? (·.seq == e.2.2.2) with | some f => f.bellAt | none => 0

/-- An edge that leaves a submission ring. -/
def isRingEdge (e : Wait) : Bool := 0x100 ≤ e.1 && e.1 < 0x200

/-- R487. The edge of the victim. -/
def State.victim (s : State) (c : List Wait) : Option Wait :=
  match c.filter isRingEdge with
  | e :: t => some (t.foldl (fun a x => if s.bellOf a < s.bellOf x then x else a) e)
  | [] => match c with
    | e :: t => some (t.foldl (fun a x => if x.1 < a.1 then x else a) e)
    | [] => none

/-- The functions of a cycle, from the victim on. -/
def cycleFns (c : List Wait) (v : Wait) : List Nat := (c.dropWhile (· != v) ++ c.takeWhile (· != v)).map (·.1)

/-- The bytes of a fetched or started descriptor. -/
def State.descBytes (s : State) (n seq : Nat) : List Byte :=
  match (s.sqSt n).fetched.find? (·.seq == seq), s.findStarted n seq with
  | some f, _ => f.bytes
  | none, some d => d.bytes
  | none, none => []

/-- R487, R295. The blocked descriptor of a ring completes with CANCELLED and class 0x03; a started one carries the class at its end, or
goes on at a vector engine where its engine has one for a substitute. -/
def State.breakAt (s : State) (v : Wait) : State :=
  let n := v.2.2.1
  match (s.sqSt n).fetched.find? (·.seq == v.2.2.2) with
  | some f =>
    if isRingEdge v then
      (((s.setSq n { s.sqSt n with fetched := (s.sqSt n).fetched.filter (·.seq != f.seq) }).forgetPrefetch n f.seq).setFn v.1 fnDRAIN).completeFetched n f
        { status := stCANCELLED, cls := 0x03 }
    else s
  | none => match s.findStarted n v.2.2.2 with
    | some d => (s.engineFault d 0x03).updStarted n v.2.2.2 (fun x => { x with hang := true })
    | none => s

/-- R104, R487. The victim leaves RUN as a fault transition, and its blocked descriptor completes. -/
def State.breakCycle (s : State) (v : Wait) : State :=
  if s.fnState v.1 = fnRUN then
    let s1 := s.breakAt v
    (s1.setFn v.1 fnRUN).leaveRun v.1
  else s

/-- R486, R487, R493. HANG_CYCLE is declared for a cycle. -/
def State.declareCycle (s : State) (c : List Wait) (v : Wait) : State :=
  let n := v.2.2.1
  let b := s.descBytes n v.2.2.2
  let die := if isRingEdge v then 0xFF else s.fnDie v.1
  let s1 := s.report 0x03 3 { die := die, ring := n, seq := v.2.2.2 % 2 ^ 24, layer := dLAYER b, op := dOP b, fns := cycleFns c v, fn := some v.1 }
  (s1.declareHang n die c.length v.1 0xFF v.2.2.2 (dLAYER b) (dOP b)).breakCycle v

/-- R484, R486. The sample: a cycle whose every edge, with its blocked descriptor, stood in the last sample as well is declared. -/
def waitforSample (s : State) : State :=
  let es := s.waits
  let s1 : State := { s with hang := { s.hang with edges := es } }
  match findCycle (es.filter (fun e => s.hang.edges.contains e)) with
  | none => s1
  | some c => match s1.victim c with
    | some v => s1.declareCycle c v
    | none => s1

/-- R484. Detector and probes are on. -/
def State.wfOn (s : State) : Bool := s.service && s.cfg Reg.MOD_HANG_CFG Fld.MOD_HANG_CFG_WF_EN == 1

/-- R486. The WAITFOR_SAMPLE command. -/
def execWaitforSample (s : State) : Host.Outcome State Fault Refusal := .next (if s.wfOn then waitforSample s else s)

/-! ### Stall probes (R488-R490) -/

/-- STALL_MS in force, in nanoseconds. -/
def State.stallNs (s : State) : Nat := s.cfg Reg.MOD_HANG_CFG Fld.MOD_HANG_CFG_STALL_MS * 1000000

/-- R488. The head packet of an egress queue on an ACTIVE port that has no credit; VC0 never stalls. -/
def State.blockedHead (s : State) (p vc cls : Nat) : Option Queued :=
  if p < 48 && 1 ≤ vc && vc ≤ 6 && cls < 2 && s.portState p = pACTIVE && s.pairCredits p vc ≤ (s.port p).usedOf (pairKey vc cls) then
    (tblGet noQueue (s.port p).queue (pairKey vc cls)).head?
  else none

/-- R488. The queue is stalled now. -/
def State.stalledHead (s : State) (p vc cls : Nat) : Option Queued :=
  match s.blockedHead p vc cls with
  | some q => if q.since + s.stallNs ≤ s.clk.now then some q else none
  | none => none

/-- R488. The body of a probe. -/
def probeBody (origin port vc cls hops id : Nat) : List Byte :=
  leBytes 2 origin ++ leBytes 1 port ++ leBytes 1 (vc + 8 * cls) ++ leBytes 1 hops ++ leBytes 3 0 ++ leBytes 4 id ++ leBytes 4 0

/-- A probe leaves through port p, for the neighbour there. -/
def State.sendProbe (s : State) (p : Nat) (body : List Byte) : State :=
  let own := s.fget Reg.MOD_CHIP_NUMBER ⟨15, 0⟩
  s.enqueue p { dst := s.fget (Reg.FAB_PORT_STATUS (p / 6) (p % 6)) Fld.FAB_PORT_STATUS_NEIGH_CHIP, src := own, kind := 0x3A, body := body, vc := 0 } none 0 false

def Probe.isFor (p vc cls : Nat) (x : Probe) : Bool := x.port == p && x.vc == vc && x.cls == cls

/-- R488. A stalled queue sends its probe, under a new PROBE_ID when another packet is at its head. -/
def State.probeQueue (s : State) (p vc cls : Nat) (q : Queued) : State :=
  let own := s.fget Reg.MOD_CHIP_NUMBER ⟨15, 0⟩
  let old := s.hang.probes.find? (fun x => x.isFor p vc cls && x.pkt == q.pkt && x.since == q.since)
  let id := match old with | some x => x.id | none => s.hang.probeNo
  let x : Probe := { port := p, vc := vc, cls := cls, id := id, pkt := q.pkt, since := q.since, sent := s.clk.now }
  let s1 : State := { s with hang := { s.hang with
      probes := s.hang.probes.filter (fun y => !(y.isFor p vc cls)) ++ [x]
      probeNo := if old.isSome then s.hang.probeNo else (s.hang.probeNo + 1) % 2 ^ 32 } }
  s1.sendProbe p (probeBody own p vc cls 0 id)

/-- R488. The EGRESS_STALL command. -/
def execEgressStall (p vc cls : Nat) (s : State) : Host.Outcome State Fault Refusal :=
  .next (if s.wfOn then (match s.blockedHead p vc cls with
    | some q => (s.reach (q.since + s.stallNs)).probeQueue p vc cls q
    | none => s) else s)

/-- R488. The PROBE_RESEND_TIMER command. -/
def execProbeResendTimer (p vc cls : Nat) (s : State) : Host.Outcome State Fault Refusal :=
  .next (if s.wfOn then (match s.blockedHead p vc cls, s.hang.probes.find? (fun x => x.isFor p vc cls) with
    | some q, some x => if x.pkt == q.pkt && x.since == q.since then (s.reach (x.sent + s.stallNs / 2)).probeQueue p vc cls q else s
    | _, _ => s) else s)

/-- R330. A packet received whole at port p, the oldest there of its (SRC, DST, VC), is taken; its receive slots are returned to the
other end. -/
def State.takeInbox (s : State) (p : Nat) (k : Packet) : Option State :=
  let pt := s.port p
  match pt.inbox.find? (fun x => x.1.sameFlow k) with
  | none => none
  | some x => if x.1 != k then none else
    let key := pairKey k.vc k.cls
    some (s.setPort p { pt with
      inbox := dropFirst (fun y => y.1 == k) pt.inbox
      giveBack := tblPut zeroAt pt.giveBack key (tblGet zeroAt pt.giveBack key + x.2) })

/-- R490. The head packet of the origin queue is discarded, and the credits of what was sent of it return. -/
def State.dropHead (s : State) (p vc cls : Nat) (q : Queued) : State :=
  let pt := s.port p
  let key := pairKey vc cls
  let sent := ((packetBytes q.pkt).length - q.rest.length) / 240
  let s1 := s.setPort p { pt with queue := tblPut noQueue pt.queue key ((tblGet noQueue pt.queue key).drop 1) }
  s1.creditBack p (some (vc, cls, sent))

/-- R490, R493. The link die of the origin port declares a fabric cycle. -/
def State.fabricCycle (s : State) (p vc cls : Nat) (q : Queued) : State :=
  let die := 0x48 + p / 6
  let s1 := s.report 0x03 3 { portCtx p [] with die := die, fn := some (0x30 + p / 6) }
  (s1.declareHang 0xFF die 0 (0x30 + p / 6) p 0xFFFFFFFF 0xFFFF 0xFFFF).dropHead p vc cls q

/-- R489. The egress queues along which a probe goes on: stalled, on the probe's channel, and with a head packet that came in
through port p. -/
def State.onward (s : State) (p vc : Nat) : List Nat :=
  (List.range 48).flatMap (fun q => (List.range 2).filterMap (fun cls => match s.stalledHead q vc cls with
    | some x => if x.from_ = some p then some q else none
    | none => none))

/-- R489, R490. A probe that came in through port p. -/
def hangProbe (s : State) (p : Nat) (k : Packet) : State :=
  let origin := leAt k.body 0 2
  let oport := leAt k.body 2 1
  let vc := leAt k.body 3 1 % 8
  let cls := leAt k.body 3 1 / 8 % 2
  let hops := leAt k.body 4 1
  let id := leAt k.body 8 4
  if s.chip = some origin then
    match s.blockedHead oport vc cls, s.hang.probes.find? (fun x => x.isFor oport vc cls && x.id == id) with
    | some q, some x => if x.pkt == q.pkt && x.since == q.since then s.fabricCycle oport vc cls q else s
    | _, _ => s
  else if hops ≥ 15 then s
  else (s.onward p vc).foldl (fun s q => s.sendProbe q (probeBody origin oport vc cls (hops + 1) id)) s

/-- R323. FLAGS.MGMT of a packet that did not arrive on VC6 is cleared and counted. -/
def State.clearMgmt (s : State) (r : Nat) (k : Packet) : State × Packet :=
  if bitOf k.flags 1 && k.vc != 6 then (s.bump (Reg.FAB_STATUS r) Fld.FAB_STATUS_MGMT_CLEARED 1, { k with flags := k.flags - 2 }) else (s, k)

/-- R323, R489. The HANG_PROBE command: the probe is taken from port p. -/
def execHangProbe (p : Nat) (pkt : Packet) (s : State) : Host.Outcome State Fault Refusal :=
  .next (if p < 48 && pkt.kind = 0x3A then (match s.takeInbox p pkt with
    | some s1 =>
      let x := s1.clearMgmt (p / 6) pkt
      if s1.wfOn then hangProbe x.1 p x.2 else x.1
    | none => s) else s)

end Sys2Proof.Machine
end

