-- ==== Sys2Proof/Machine/Dump.lean ====
section
/-!
DEFINITION. The crash dump and its summary (spec/11 R509-R513).
-/
namespace Sys2Proof.Machine

open Sys2Proof

/-- What a dump is written for: the level and CAUSE of the reset, the class and severity of a FATAL report, the SEQ of the record of
the cause, and the captured blocks (R511, R512). -/
structure DumpFor where
  level  : Nat
  cause  : Nat
  cls    : Nat
  sev    : Nat
  evrSeq : Nat
  blocks : List Nat
  deriving DecidableEq, Repr

/-- The offsets of a row's registers. -/
def RegRow.offs (r : RegRow) : List Nat :=
  (List.range r.countA).flatMap (fun a => (List.range r.countB).map (fun j => r.base + r.strideA * a + r.strideB * j))

/-- The registers of a register snapshot: all but EVR.POP, whose read is an act, in the order of the register list. -/
def dumpOffs : List Nat := (((List.range 16).flatMap regBlock).filter (fun r => r.base != Reg.EVR_POP 0)).flatMap RegRow.offs

/-- R511. The first n pairs of the register snapshot. -/
def State.dumpPairs (s : State) (n : Nat) : List Byte := (dumpOffs.take n).flatMap (fun o => leBytes 8 o ++ leBytes 8 (s.regPeek true o).toNat)

/-- R512. The header. -/
def State.dumpHeader (s : State) (x : DumpFor) (no : Nat) : List Byte :=
  let life := s.reg Reg.EVR_LIFE
  let b := leBytes 4 no ++ leBytes 4 s.era ++ leBytes 4 s.timeNs ++ leBytes 1 x.level ++ leBytes 1 x.cause ++ leBytes 1 x.cls ++
    leBytes 1 x.sev ++ leBytes 4 x.evrSeq ++ leBytes 4 (Fld.EVR_LIFE_OP_HOURS.get life) ++ leBytes 4 (Fld.EVR_LIFE_POWER_CYCLES.get life) ++
    leBytes 2 (s.fget Reg.MOD_CHIP_NUMBER ⟨15, 0⟩) ++ leBytes 2 0 ++ leBytes 8 (s.reg Reg.MOD_HANG_STATUS).toNat ++
    leBytes 8 (s.reg Reg.MOD_HANG_SEQ).toNat ++ leBytes 1 (x.blocks.getD 0 0xFF) ++ leBytes 1 (x.blocks.getD 1 0xFF)
  b ++ List.replicate (4092 - b.length) 0#8 ++ leBytes 4 cairn

/-- Exactly n bytes: cut, or filled with zeros. -/
def exactly (n : Nat) (d : List Byte) : List Byte := (d ++ List.replicate (n - d.length) 0#8).take n

/-- Bytes as entries from a key on. -/
def cellsAt (a : Nat) (d : List Byte) : List Host.Cell := d.zipIdx.map (fun e => (a + e.2, e.1))

/-- R511. The 64 bytes of a ring's registers. -/
def State.ringBytes (s : State) (base : Nat) : List Byte := (List.range 8).flatMap (fun i => leBytes 8 (s.regPeek true (base + 8 * i)).toNat)

/-- R511. Ring registers, then the fetched descriptors of every submission ring. -/
def State.dumpRings (s : State) : List Byte :=
  (List.range 256).flatMap (fun n => s.ringBytes (Reg.RING_SQ_BASE n)) ++ (List.range 256).flatMap (fun m => s.ringBytes (Reg.RING_CQ_BASE m)) ++
    (List.range 256).flatMap (fun n => exactly 4096 ((s.sqSt n).fetched.flatMap (fun f => exactly 64 f.bytes)))

/-- R511. The entries of a copy by their offsets; an offset that has none holds zero. The Ferua state of the dies is free (assumption 4). -/
def State.dumpCells (s : State) (x : DumpFor) (no : Nat) : List Host.Cell :=
  cellsAt 0 (s.dumpHeader x no) ++ cellsAt 0x1000 (exactly 0xFF000 (s.dumpPairs 65279 ++ List.replicate 8 0xFF#8)) ++
    cellsAt 0x100000 (freeBytes s 0x500000) ++ tblMoved s.obs.trBuf 0 0x1000000 0x600000 ++
    tblMoved s.mem.trf 0 0x400000 0x1600000 ++ tblMoved s.mem.trf 0x800000 0x400000 0x1A00000 ++
    tblMoved s.mem.trf 0x400000 0x200000 0x1E00000 ++ tblMoved s.mem.trf 0xC00000 0x200000 0x2000000 ++
    cellsAt 0x2200000 s.dumpRings ++
    (x.blocks.take 2).zipIdx.flatMap (fun b => tblMoved s.mem.staging (b.1 * 0x8000000) 0x6000000 (0x2400000 + 0x6000000 * b.2))

/-- R510. One copy, in the crash-dump area of a stack; every place of the area is written. -/
def Mem.putDump (m : Mem) (stack : Nat) (cells : List Host.Cell) : Mem :=
  let a := stack * 2 ^ 36 + 0xFF0000000
  ({ m with hbm := tblReplace hbmDefault m.hbm a 0x10000000 (tblMoved cells 0 0x10000000 a) } : Mem).cleanse a 0x10000000

/-- R225. A copy sets the dirty bit of every page of the area in the active bank of its stack. -/
def Mem.dumpDirty (m : Mem) (stack bank : Nat) : Mem :=
  let bits := (List.range 0x10000).map (fun i => (dirtyKey stack bank (0xFF0000 + i), true))
  { m with dirty := tblReplace falseAt m.dirty (dirtyKey stack bank 0xFF0000) 0x10000 bits }

/-- R513. The summary: the header, the 256 records up to that of the cause, and the first 1,792 pairs. -/
def State.summary (s : State) (x : DumpFor) (no : Nat) : List Byte :=
  let die := s.primary.getD 0
  s.dumpHeader x no ++
    (List.range 256).flatMap (fun i => rdTbl s.mem.trf (trfBase die + 0x400000 + 128 * (subMod 32 (x.evrSeq + i) 255 % 16384)) 128) ++
    s.dumpPairs 1792

/-- The summary in the SRAM of a Trelfort. -/
def putSummary (m : List Host.Cell) (a : Nat) (sum : List Byte) : List Host.Cell := tblReplace zeroByte m a 0x10000 (cellsAt a sum)

/-- R509-R513. The crash dump is written, both copies, and the summary beside it. -/
def State.crashDump (s : State) (x : DumpFor) : State :=
  let no := (s.fget Reg.MOD_DUMP_STATUS Fld.MOD_DUMP_STATUS_DUMP_SEQ + 1) % 2 ^ 32
  let sum := s.summary x no
  let cells := s.dumpCells x no
  let m := (((s.mem.putDump 0 cells).putDump 1 cells).dumpDirty 0 (s.activeBank 0)).dumpDirty 1 (s.activeBank 0)
  let s1 : State := { s.drew 0x500000 with mem := { m with trf := putSummary (putSummary m.trf 0x2F0000 sum) 0xAF0000 sum } }
  let w := (List.foldl (fun w (e : Fld × Nat) => e.1.put w e.2) (0#64)
    [(Fld.MOD_DUMP_STATUS_DUMP_SEQ, no), (Fld.MOD_DUMP_STATUS_LEVEL, x.level), (Fld.MOD_DUMP_STATUS_CAUSE, x.cause),
     (Fld.MOD_DUMP_STATUS_COPY1_VALID, 1), (Fld.MOD_DUMP_STATUS_COPY0_VALID, 1)])
  let s2 := s1.setReg Reg.MOD_DUMP_STATUS w
  { s2 with hang := { s2.hang with dumped := true } }

/-- Flash of a Trelfort, and bytes written into it. -/
def State.flash (s : State) (t : Nat) : List Host.Cell := if t = 0 then s.mem.flash0 else s.mem.flash1
def State.flashWrite (s : State) (t a : Nat) (d : List Byte) : State :=
  if t = 0 then { s with mem := { s.mem with flash0 := wrFlash s.mem.flash0 a d } }
  else { s with mem := { s.mem with flash1 := wrFlash s.mem.flash1 a d } }

/-- R513. The oldest summary slot: the one with the lowest DUMP_SEQ, an empty one before any other. -/
def oldestSlot (f : List Host.Cell) : Nat :=
  let q (i : Nat) : Nat :=
    if leNat (rdFlash f (0x1900000 + 0x10000 * i + 4092) 4) = cairn then leNat (rdFlash f (0x1900000 + 0x10000 * i) 4) + 1 else 0
  [1, 2, 3].foldl (fun a i => if q i < q a then i else a) 0

/-- R513. SUMMARY_FLASH_COPY: a Trelfort copies the summary into its oldest flash slot. -/
def execSummaryFlashCopy (t : Nat) (s : State) : Host.Outcome State Fault Refusal :=
  .next (if s.hang.toFlash.contains t then
      ({ s with hang := { s.hang with toFlash := s.hang.toFlash.filter (· != t) } } : State).flashWrite t
        (0x1900000 + 0x10000 * oldestSlot (s.flash t)) (rdTbl s.mem.trf (trfBase t + 0x2F0000) 0x10000)
    else s)

end Sys2Proof.Machine
end

