-- ==== Sys2Proof/Machine/Reset.lean ====
section
/-!
DEFINITION. The three levels of reset, what a lost Lantern does, MOD_RESET# and PERST# (spec/11 R483, R491, R492, R495-R508).
-/
namespace Sys2Proof.Machine

open Sys2Proof

/-! ### Steps that resets share -/

/-- R435, R499 step 1. A ticket is fenced and settles WITHDRAWN. -/
def State.withdrawTicket (s : State) (t : Nat) : State :=
  let s1 := (List.range 8).foldl (fun s r => fenceArrives s r t) (s.fenceTicket t)
  match s1.ticketOf t with
  | none => s1
  | some k =>
    let k' : TicketSt := { k with ended := true, withdrawn := some (k.withdrawn.getD 0x01), tiles := k.tiles.map (fun f => { f with standing := 3 }) }
    (s1.updTicket t (fun _ => k')).settle k'

/-- R499 step 1. Every unsettled ticket. -/
def State.withdrawAll (s : State) : State := (s.arr.tickets.map (·.num)).foldl (fun s t => s.withdrawTicket t) s

/-- R499 step 2, R502 step 2, R506. Function f leaves RUN or DRAIN with its started work aborted, and its GEN is bumped once; a
function in another state becomes STOPPED. -/
def State.forceStop (s : State) (f : Nat) : State :=
  let g := s.gen f
  let s1 := if s.fnState f = fnRUN || s.fnState f = fnDRAIN then (s.enterDrain f).abortFn f else s.enterStopped f
  if s1.gen f = g then s1.bumpGen f else s1

/-- The functions that a module recovery covers, rings last (R502). -/
def recoveryFns : List Nat := allFns.filter (fun f => f != 0x50 && f != 0x51)

/-- R500. Fallback update work on vector engines is aborted. -/
def State.abortFallback (s : State) : State :=
  (List.range 8).foldl (fun s r => match s.updRun r with
    | some u => if u.ve.isSome then s.endUpd r { status := stABORTED } else s
    | none => s) s

/-- R500. A started descriptor has begun to write staging SRAM that is now unmapped: a GATHER's output. -/
def usesStaging (d : Started) : Bool :=
  dOPCODE d.bytes == 0x2001 && d.begun && d.done.isNone && (stagingOf (leAt d.bytes 56 8)).isSome

/-- R499 step 4, R669, R687, R722. The compute dies lose their state: staging SRAM is unmapped and zeroed, its tags are OPEN, and the
counters, trace buffers and Lanterns of the dies start again. -/
def State.holdDies (s : State) : State :=
  let s1 := (List.range 64).foldl (fun s b => s.blockOff b) s.abortFallback
  { s1 with
    arr := { s1.arr with audits := [], pre := [], half := 0, tilerHits := [] }
    obs := { s1.obs with
      counters := tblClear s1.obs.counters 0 (64 * 48), trBuf := tblClear s1.obs.trBuf 0 (64 * 2 ^ 18), trLost := tblClear s1.obs.trLost 0 64 }
    hang := { s1.hang with beatAt := tblClear s1.hang.beatAt 0 64, misses := tblClear s1.hang.misses 0 64 } }

/-- R499 step 4, R500, R508. The compute dies are held in reset, and every fence bit is cleared. -/
def State.holdCompute (s : State) : State :=
  let s2 := s.holdDies.zeroRegs (Reg.ARR_FENCE_BLOCK :: (List.range 64).map Reg.ARR_FENCE_CELL)
  let s3 : State := { s2 with arr := { s2.arr with clearBlock := 0, clearCell := [] } }
  (s3.started.filter usesStaging).foldl (fun s d => s.haltDesc d { status := stFAULTED, cls := 0x14, die := dieOfFn d.fn, unit := unitOfFn d.fn }) s3

/-- Every HBM tag is OPEN (R410, R502 step 5, R697 step 7). -/
def Mem.openTags (m : Mem) : Mem :=
  { m with hbm := tblDrop (fun a => 0xFE8000000 ≤ a % 2 ^ 36 && a % 2 ^ 36 < 0xFF0000000) m.hbm }

/-- R472, R502 steps 5 to 7. Stacks, bridges and enabled ports retrain, and the bridges' credits are audited. -/
def State.retrainAll (s : State) : State :=
  let s1 : State := { s with
    mem := s.mem.openTags
    flt := { s.flt with bridges := [], degraded := false, timed := [] } }
  (List.range 48).foldl (fun s p => if s.portCfg p Fld.FAB_PORT_CFG_ENABLE = 1 && s.portState p != pOFF then s.train p false else s)
    ((List.range 90).foldl State.auditBridge s1)

/-- R723. A reset requested in DOZE leaves it. -/
def State.leaveDoze (s : State) : State :=
  if s.pwr.doze then ({ s with pwr := { s.pwr with doze := false } } : State).setEff else s

/-- The counter of RESET_STATUS for a level. -/
def resetField (level : Nat) : Fld :=
  if level = 1 then Fld.MOD_RESET_STATUS_COMPUTE else if level = 2 then Fld.MOD_RESET_STATUS_MODULE else Fld.MOD_RESET_STATUS_COLD

/-- R483, R507, R512, R514. The first step of a reset: the phase, the counters, the RESET_BEGIN record; the start token returns and
a scan stops. -/
def State.markReset (s : State) (level cause : Nat) : State :=
  let s1 := ((((s.fput Reg.MOD_RESET_STATUS Fld.MOD_RESET_STATUS_PHASE 0).fput Reg.MOD_RESET_STATUS Fld.MOD_RESET_STATUS_IN_PROGRESS level).fput
    Reg.MOD_RESET_STATUS Fld.MOD_RESET_STATUS_LAST_CAUSE cause).bump Reg.MOD_RESET_STATUS (resetField level) 1).event 0x0105 { die := s.trfDie, unit := 0x30 }
  let s2 : State := { s1 with flt := { s1.flt with fatal := false }, hang := { s1.hang with dumped := false } }
  (if level = 1 then s2.ropeDisarm else s2.ropeReset).scanStop

/-- R512. What the dump of a reset is written for. `before` is the SEQ of the next record before the reset was recorded. -/
def State.dumpFor (s : State) (level cause before : Nat) : DumpFor :=
  if cause = 3 then
    { level := level, cause := cause, cls := s.flt.fatalCls, sev := 4, evrSeq := subMod 32 before 1,
      blocks := if s.flt.fatalDie < 64 then [s.flt.fatalDie] else [] }
  else { level := level, cause := cause, cls := 0, sev := 0, evrSeq := before, blocks := [] }

/-- R509. A dump of this reset is enabled. -/
def State.dumpOn (s : State) (level : Nat) (flag : Bool) : Bool :=
  flag || s.cfg Reg.MOD_RESET_CFG ⟨level - 1, level - 1⟩ == 1

/-! ### Compute reset and module recovery (R499, R502) -/

/-- R499 steps 1 to 4, R502 steps 1 to 7. -/
def State.startReset (s : State) (level cause : Nat) (flag : Bool) (descs : List (Nat × Nat)) : State :=
  let before := s.fget Reg.EVR_HEAD_SEQ Fld.EVR_HEAD_SEQ_SEQ
  let s1 := (s.leaveDoze.markReset level cause).withdrawAll
  let s2 := (if level = 1 then [0] else recoveryFns).foldl (fun s f => s.forceStop f) s1
  let s3 := if s2.dumpOn level flag then s2.crashDump (s2.dumpFor level cause before) else s2
  let s4 := if level = 1 then s3.holdCompute else s3.holdCompute.retrainAll.stopDrain
  { s4 with hang := { s4.hang with reset := some { level := level, start := s.clk.now, descs := descs, cause := cause } } }

/-! ### Cold reset (R504, R505, R508, R764) -/

/-- R764. The registers that keep their contents. -/
def keptRegs : List Nat :=
  [Reg.MOD_RESET_STATUS, Reg.MOD_DUMP_STATUS, Reg.EVR_HEAD_SEQ, Reg.EVR_TAIL_SEQ, Reg.EVR_DROPPED, Reg.EVR_FLASH_STATUS, Reg.EVR_LIFE,
   Reg.PWR_FEED_STATUS, Reg.PWR_FEED_CHECK, Reg.PWR_THERM_STATUS, Reg.OBS_SNAP_INFO, Reg.PWR_START_CFG]

/-- R508. A place of Trelfort SRAM that a reset keeps: the Event Recorder SRAM and the summary. -/
def trfKept (a : Nat) : Bool :=
  (0x400000 ≤ a % 0x800000 && a % 0x800000 < 0x600000) || (0x2F0000 ≤ a % 0x800000 && a % 0x800000 < 0x300000)

/-- R508. The memories after a cold reset: HBM contents and flash stay; its tags are written OPEN at step 7. -/
def Mem.cold (m : Mem) : Mem :=
  { hbm := m.hbm, hostW := m.hostW, flash0 := m.flash0, flash1 := m.flash1, poison := m.poison, trf := tblDrop (fun a => !trfKept a) m.trf }

/-- R504. What a cold reset leaves of the module: every function STOPPED with GEN 0x01, every register at its reset value but those of
R764, every die held. -/
def State.coldState (s : State) (held : Bool) (cause : Nat) : State :=
  { pending := s.pending
    regs := s.regs.filter (fun e => keptRegs.contains e.1)
    mem := s.mem.cold
    clk := { now := s.clk.now, start := s.clk.now }
    pcie := { perst := s.pcie.perst }
    flt := { waiting := s.flt.waiting }
    evr := s.evr
    freeCtr := s.freeCtr
    out := s.out
    obs := { ir0 := s.obs.ir0, ir1 := s.obs.ir1, bsr := s.obs.bsr, pads := s.obs.pads, extest := s.obs.extest,
             macKey0 := s.obs.macKey0, macKey1 := s.obs.macKey1 }
    hang := { reset := some { level := 3, start := s.clk.now, held := held, cause := cause }, dumped := s.hang.dumped }
    trelfort := { fuse0 := s.trelfort.fuse0, fuse1 := s.trelfort.fuse1 }
    risk := { since := s.clk.now }
    pwr := { good := true, feedA := s.pwr.feedA, feedB := s.pwr.feedB, startAt := s.clk.now, colds := s.pwr.colds } }

/-- R697. A step of start-up begins. -/
def State.atStep (s : State) (n : Nat) : State := s.fput Reg.PWR_START_STATUS Fld.PWR_START_STATUS_STEP n

/-- STEP of START_STATUS. -/
def State.stepNo (s : State) : Nat := s.fget Reg.PWR_START_STATUS Fld.PWR_START_STATUS_STEP

/-- Step 2 ends once a Trelfort is PRIMARY and the other holds its copy or does not run. -/
def State.bootDone (s : State) : Bool :=
  match s.primary with
  | some d => [rSTANDBY, rHALTED, rRECOVERY].contains (s.role (1 - d))
  | none => false

/-- Start-up passes the end of step 2 once the Trelforts run, of step 3 once the chip number is valid, and of step 4 once time is locked or
PTP is off (R662, R697). -/
def State.advance (s : State) : State :=
  let s0 : State := if s.stepNo = 2 && s.bootDone then
    State.atStep { s with pwr := { s.pwr with step3At := s.clk.now, enumMove := false, enumOk := false } } 3 else s
  let s1 : State := if s0.stepNo = 3 && s0.chip.isSome then State.atStep { s0 with pwr := { s0.pwr with step4At := s0.clk.now } } 4 else s0
  if s1.stepNo = 4 && (s1.timeState == tLOCKED || s1.cfg Reg.TIME_CFG Fld.TIME_CFG_PTP_EN == 0) then s1.atStep 5 else s1

/-- Pins that a cold reset releases: ALERT# with the report that held it, READY, and PWR_GOOD when power comes back. -/
def State.coldPins (s : State) : State :=
  let s1 := if s.flt.alert then s.emit (.pin 0 false) else s
  let s2 := if s.fget Reg.PWR_START_STATUS Fld.PWR_START_STATUS_READY = 1 then s1.emit (.pin 3 false) else s1
  if s.pwr.good then s2 else s2.emit (.pin 1 true)

/-- R504, R505, R509. A cold reset: the dump, where a Trelfort starts it; the ports go to OFF; then the module is as after power-up
but for what R508 keeps, and start-up begins at step 2 unless MOD_RESET# holds it. -/
def State.coldReset (s : State) (cause : Nat) (flag held : Bool) : State :=
  let before := s.fget Reg.EVR_HEAD_SEQ Fld.EVR_HEAD_SEQ_SEQ
  let s1 := s.markReset 3 cause
  let s2 := if s.pwr.good && cause != 1 && cause != 2 && s1.dumpOn 3 flag then s1.crashDump (s1.dumpFor 3 cause before) else s1
  let s3 := (List.range 48).foldl (fun s p => s.portOff p) s2
  let s4 := s3.coldPins.coldState held cause
  if held then s4 else s4.atStep 2

/-! ### Requests (R495-R497, R726) -/

/-- R496. LEVEL 1 RESET descriptors of a reset that ends, or that escalates and is superseded. -/
def State.endResetDescs (s : State) (ok : Bool) : State :=
  match s.hang.reset with
  | none => s
  | some r => r.descs.foldl (fun s d =>
      if ok then s.setDone d.1 d.2 { status := stSUCCESS, die := 0x50, unit := 0x31 }
      else (s.drew 1).setDone d.1 d.2 { status := stFAULTED, cls := (Config.freeByte s.freeCtr).toNat, die := 0x50, unit := 0x31 }) s

/-- The level of the running reset; 0 for none. -/
def State.resetLevel (s : State) : Nat := match s.hang.reset with | some r => r.level | none => 0

/-- A feed carries the module. -/
def State.fed (s : State) : Bool :=
  s.fget Reg.PWR_FEED_STATUS Fld.PWR_FEED_STATUS_STATE_A == 3 || s.fget Reg.PWR_FEED_STATUS Fld.PWR_FEED_STATUS_STATE_B == 3

/-- R495, R497, R726. A reset is requested: it starts, supersedes a lower running one, or is merged into it. -/
def State.requestReset (s : State) (level cause : Nat) (flag held : Bool) (desc : Option (Nat × Nat)) : State :=
  if s.pwr.tripAt.isSome || !s.fed || (!s.pwr.good && level != 3) then s
  else if s.resetLevel ≥ level then
    (if level = 1 then
      { s with hang := { s.hang with reset := s.hang.reset.map (fun r => { r with descs := r.descs ++ desc.toList }) } }
     else s)
  else
    let s1 := s.endResetDescs false
    if level = 3 then s1.coldReset cause flag held
    else s1.startReset level cause flag (if level = 1 then desc.toList else [])

/-- R495. A FATAL report that is neither THERMAL nor FEED_SWITCH starts a module recovery. -/
def State.fatalReset (s : State) : State :=
  if s.flt.fatal then State.requestReset { s with flt := { s.flt with fatal := false } } 2 3 false false none else s

/-- R9, R459. FAULT_REPORT: a report of a unit of an assigned die reaches the primary Trelfort. -/
def execFaultReport (cls sev die unit cell port ring seq layer op : Nat) (s : State) : Host.Outcome State Fault Refusal :=
  .next (if 1 ≤ cls && cls ≤ 0x15 && sev ≤ 4 && dieAssigned die then
      (s.report cls sev { die := die, unit := unit, cell := cell, port := port, ring := ring, seq := seq, layer := layer, op := op }).fatalReset
    else s)

/-- R313. The FLIT_SEND command; flits leave only a port that has finished training. `parity` says that the duplicate credit
counters differ, resolved by parity (`some false`) or not (R473). -/
def execFlitSend (p : Nat) (parity : Option Bool) (s : State) : Host.Outcome State Fault Refusal :=
  .next (if p < 48 && 2 ≤ s.portState p && s.portState p ≤ 5 then
      match parity with
      | none => flitSend s p
      | some false => flitSend (s.parityFault p false) p
      | some true =>
        State.fatalReset { (s.parityFault p true) with flt := { (s.parityFault p true).flt with badPools := (s.parityFault p true).flt.badPools ++ [p] } }
    else s)

/-- R496. RESET of a started descriptor: levels 2 and 3 complete before the reset begins, their record written. -/
def resetDesc (s : State) (d : Started) : State :=
  let level := leAt d.bytes 24 1
  let flag := bitOf (leAt d.bytes 25 1) 0
  if dPARAM d.bytes || level = 0 || 3 < level || bitsOf (leAt d.bytes 25 1) 7 1 != 0 || !zeroBytes d.bytes 26 63 then
    s.setDone d.ring d.seq { status := stBAD_OPERAND, die := 0x50, unit := 0x31 }
  else if level = 1 then
    (s.updStarted d.ring d.seq (fun x => { x with begun := true })).requestReset 1 0 flag false (some (d.ring, d.seq))
  else
    (completeStarted s d { status := stSUCCESS, die := 0x50, unit := 0x31 } (fun s => traceEnd s d)).requestReset level 0 flag false none

/-- R496. The RESET command. -/
def execReset (n seq : Nat) (s : State) : Host.Outcome State Fault Refusal :=
  .next (match s.findStarted n seq with
    | some d => if dOPCODE d.bytes = 0x5030 && !d.begun && d.done.isNone then resetDesc s d else s
    | none => s)

/-- R514. A write of RESET_CMD. -/
def resetCmd (s : State) (level : Nat) (mgmt dump : Bool) : State :=
  if mgmt then s.requestReset level 0 dump false none
  else s.rejected Reg.MOD_RESET_CMD (level + if dump then 0x80 else 0) none

/-- R514. RESET_CMD_COMPUTE. -/
def execResetCmdCompute (mgmt dump : Bool) (s : State) : Host.Outcome State Fault Refusal := .next (resetCmd s 1 mgmt dump)

/-- R514. RESET_CMD_MODULE. -/
def execResetCmdModule (mgmt dump : Bool) (s : State) : Host.Outcome State Fault Refusal := .next (resetCmd s 2 mgmt dump)

/-- R514. RESET_CMD_COLD. -/
def execResetCmdCold (mgmt dump : Bool) (s : State) : Host.Outcome State Fault Refusal := .next (resetCmd s 3 mgmt dump)

/-- R495, R497. MOD_RESET_ASSERT: a cold reset without a dump, held while the pin is asserted; a cold reset that runs is held. -/
def execModResetAssert (s : State) : Host.Outcome State Fault Refusal :=
  .next (if s.resetLevel = 3 then
      { s with hang := { s.hang with reset := s.hang.reset.map (fun r => { r with held := true }) } }
    else s.requestReset 3 1 false true none)

/-- R495. MOD_RESET_DEASSERT: a held cold reset goes on through start-up. -/
def execModResetDeassert (s : State) : Host.Outcome State Fault Refusal :=
  .next (match s.hang.reset with
    | some r =>
      if r.held then
        let s1 : State := { s with hang := { s.hang with reset := some { r with held := false } } }
        if s1.fget Reg.PWR_START_STATUS Fld.PWR_START_STATUS_STEP = 0 then
          State.atStep { s1 with pwr := { s1.pwr with startAt := s1.clk.now } } 2
        else s1
      else s
    | none => s)

/-! ### The course of a reset (R483, R495, R499, R502) -/

/-- A block has beaten, or has been given up. -/
def ResetRun.beat (r : ResetRun) (b : Nat) : ResetRun := if r.beaten.contains b then r else { r with beaten := r.beaten ++ [b] }

/-- R499 step 6. BLOCK_BEAT_TIMEOUT: a block released without a beat within 10 ms is fenced. -/
def execBlockBeatTimeout (b : Nat) (s : State) : Host.Outcome State Fault Refusal :=
  .next (match s.hang.reset with
    | some r =>
      if b < 64 && r.level ≤ 2 && !r.beaten.contains b then
        let s1 := s.reach (r.start + 10000000)
        (({ s1 with hang := { s1.hang with reset := some (r.beat b) } } : State).dieOn b).putBit Reg.ARR_FENCE_BLOCK b true
      else s
    | none => s)

/-- R495. COMPUTE_RESET_TIMEOUT. -/
def execComputeResetTimeout (s : State) : Host.Outcome State Fault Refusal :=
  .next (match s.hang.reset with
    | some r => if r.level = 1 then (s.reach (r.start + 40000000)).requestReset 2 4 false false none else s
    | none => s)

/-- R495. MODULE_RECOVERY_TIMEOUT. -/
def execModuleRecoveryTimeout (s : State) : Host.Outcome State Fault Refusal :=
  .next (match s.hang.reset with
    | some r => if r.level = 2 then (s.reach (r.start + 6000000000)).requestReset 3 4 false false none else s
    | none => s)

/-- R499 step 7, R502 step 8. A stopped function is taken through CHANGE and RESTART. -/
def State.autoRestart (s : State) (f : Nat) : State := if s.fnState f = fnSTOPPED then (s.setFn f fnCHANGE).restartFn f else s

/-- R483. A compute reset or module recovery has completed its last step. -/
def endReset (s : State) (r : ResetRun) : State :=
  let fs := if s.cfg Reg.MOD_RESET_CFG Fld.MOD_RESET_CFG_AUTO_RESTART = 0 then [] else if r.level = 1 then [0] else recoveryFns.filter (· < 0x100)
  let s1 := fs.foldl (fun s f => s.autoRestart f) s
  let s2 := s1.endResetDescs true
  let s3 := ((s2.fput Reg.MOD_RESET_STATUS Fld.MOD_RESET_STATUS_IN_PROGRESS 0).fput Reg.MOD_RESET_STATUS Fld.MOD_RESET_STATUS_PHASE 1).event 0x0106
    { die := s.trfDie, unit := 0x30 }
  { s3 with hang := { s3.hang with reset := none, toFlash := if s3.hang.dumped then [0, 1] else s3.hang.toFlash, dumped := false } }

/-- R483. The RESET_END command: every block has beaten or been given up, and after a module recovery no enabled port still trains. A
cold reset ends with READY. -/
def execResetEnd (s : State) : Host.Outcome State Fault Refusal :=
  .next (match s.hang.reset with
    | some r =>
      if r.level ≤ 2 && (List.range 64).all (fun b => r.beaten.contains b) &&
          (r.level == 1 || !(List.range 48).any (fun p => s.portCfg p Fld.FAB_PORT_CFG_ENABLE == 1 && s.portState p == pTRAINING)) then endReset s r
      else s
    | none => s)

/-! ### What is done about a lost Lantern (R492, R612) -/

/-- LANTERN_LOST stands for Trelfort d: three misses, a halt, or no firmware at all. -/
def State.trfLost (s : State) (d : Nat) : Bool :=
  tblGet zeroAt s.hang.misses (0x50 + d) ≥ 3 || s.role d == rHALTED || s.role d == rRECOVERY

/-- R612. P0 has started three cold resets in a row without READY: it holds every other die in reset. -/
def State.giveUp (s : State) : State :=
  let s1 := s.coldState true 2
  { s1 with regs := s.regs.filter (fun e => keptRegs.contains e.1), hang := { s1.hang with reset := none }, pwr := { s1.pwr with stopped := true } }

/-- R492, R612. Both Trelfort dies are lost: P0 starts a cold reset, which is recorded after the reboot. -/
def State.bothLost (s : State) : State :=
  let s1 : State := { s with flt := { s.flt with
    waiting := s.flt.waiting ++ [{ code := 0x04, cls := 0x04, sev := 3, time := s.timeNs, ctx := { die := 0x50, unit := 0x31 } }] } }
  if s.pwr.colds ≥ 3 then s1.giveUp
  else State.requestReset { s1 with pwr := { s1.pwr with colds := s1.pwr.colds + 1 } } 3 2 false false none

/-- R612. The primary has no standby: LANTERN_LOST is reported once. -/
def State.noStandby (s : State) (d : Nat) : State :=
  if s.trelfort.noStandby then s
  else State.report { s with trelfort := { s.trelfort with noStandby := true } } 0x04 3 { die := 0x50 + d, unit := 0x31 }

/-- A P die resets Trelfort d, which waits in BOOT for its boot ROM (R492, R605, R607). -/
def State.trfReset (s : State) (d : Nat) : State :=
  let s1 := s.changeRole d rBOOT
  { s1 with
    journal := []
    trelfort := if d = 0 then { s1.trelfort with ran0 := false, halted0 := none } else { s1.trelfort with ran1 := false, halted1 := none }
    hang := { s1.hang with misses := tblPut zeroAt s1.hang.misses (0x50 + d) 0 } }

/-- R492. LANTERN_LOST of Trelfort d: the standby is reset; the loss of the primary is the standby's affair (TAKEOVER); with both lost
P0 acts. -/
def State.trfMissed (s : State) (d : Nat) : State :=
  if s.trfLost (1 - d) then s.bothLost
  else if s.primary = some d then s
  else (s.trfReset d).noStandby d

/-- R492. LANTERN_LOST of block b in bring-up. -/
def State.blockLost (s : State) (b : Nat) : State :=
  let s1 := ((s.fenceBlock b 0x04).blockOff b).putBit Reg.MOD_LANTERN_MISS b true
  ({ s1 with hang := { s1.hang with reset := s1.hang.reset.map (fun r => r.beat b) } } : State).report 0x04 3 { die := b, unit := 0x08, blk := some b }

/-! ### PERST# (R495, R702) -/

/-- R495. PERST_ASSERT: the PCIe core is reset, and every ring in host memory drains with a limit of zero. -/
def execPerstAssert (s : State) : Host.Outcome State Fault Refusal :=
  .next (
    let s1 : State := { s with pcie := { perst := true } }
    let sqs := (List.range 256).filter (fun n => s.cfg (Reg.RING_SQ_BASE n) Fld.RING_SQ_BASE_LOC == 0)
    let cqs := (List.range 256).filter (fun m => s.cfg (Reg.RING_CQ_BASE m) Fld.RING_CQ_BASE_LOC == 0)
    let s2 := sqs.foldl (fun s n => s.drainNow (sqFn n)) s1
    cqs.foldl (fun s m => s.drainNow (cqFn m)) s2)

/-- R702. PERST_DEASSERT: the core may train its link. -/
def execPerstDeassert (s : State) : Host.Outcome State Fault Refusal := .next { s with pcie := { s.pcie with perst := false } }

end Sys2Proof.Machine
end

