-- ==== Sys2Proof/Machine/Evr.lean ====
section
/-!
DEFINITION. The flash copy of the Event Recorder, EVR_FETCH, and operating hours (spec/15 R646-R649).
-/
namespace Sys2Proof.Machine

open Sys2Proof

/-- The SEQ of the next record that die t copies, and how many its flash copy holds. -/
def State.evrNext (s : State) (t : Nat) : Nat := if t = 0 then s.evr.next0 else s.evr.next1
def State.evrN (s : State) (t : Nat) : Nat := if t = 0 then s.evr.n0 else s.evr.n1
def State.setEvr (s : State) (t next n : Nat) : State :=
  if t = 0 then { s with evr := { s.evr with next0 := next, n0 := n } } else { s with evr := { s.evr with next1 := next, n1 := n } }

/-- Where the record of a SEQ lies in a Trelfort's SRAM. -/
def evrSlot (seq : Nat) : Nat := 0x400000 + 128 * (seq % 16384)

/-- The SEQ of the next record to be recorded. -/
def State.evrHead (s : State) : Nat := s.fget Reg.EVR_HEAD_SEQ Fld.EVR_HEAD_SEQ_SEQ

/-- FLASH_STATUS.COUNT shows the primary's copy. -/
def State.showFlash (s : State) : State :=
  s.fput Reg.EVR_FLASH_STATUS Fld.EVR_FLASH_STATUS_COUNT (s.evrN (s.primary.getD 0))

/-- R646. A record that die t's full copy does not take: the primary counts it, and the first time records FLASH_FULL. -/
def State.flashDrop (s : State) (t : Nat) : State :=
  if s.primary != some t then s
  else if !s.evr.full then
    ((State.bump { s with evr := { s.evr with full := true, seen := (s.evrNext t + 1) % 2 ^ 32 } } Reg.EVR_DROPPED Fld.EVR_DROPPED_FLASH 1).fput
      Reg.EVR_FLASH_STATUS Fld.EVR_FLASH_STATUS_FULL 1).event 0x010A { die := 0x50 + t, unit := 0x31 }
  else if s.evr.seen != s.evrHead then
    State.bump { s with evr := { s.evr with seen := (s.evr.seen + 1) % 2 ^ 32 } } Reg.EVR_DROPPED Fld.EVR_DROPPED_FLASH 1
  else s

/-- R646. Die t copies the next record to its flash, CAIRN last. -/
def flashCopy (s : State) (t : Nat) : State :=
  let seq := s.evrNext t
  if s.evr.eraseAt.isSome || seq = s.evrHead then s
  else if s.evrN t ≥ 65536 then s.flashDrop t
  else if s.primary != some t && s.journal.any (fun e => e.1 == evrSlot seq) then s
  else
    let d := rdTbl s.mem.trf (trfBase t + evrSlot seq) 128
    ((s.flashWrite t (0x1100000 + 128 * s.evrN t) d).setEvr t ((seq + 1) % 2 ^ 32) (s.evrN t + 1)).showFlash

/-- R646. EVR_FLASH_COPY by a Trelfort that runs its firmware as primary or standby. -/
def execEvrFlashCopy (t : Nat) (s : State) : Host.Outcome State Fault Refusal :=
  .next (if t < 2 && (s.role t = rPRIMARY || s.role t = rSTANDBY) then flashCopy s t else s)

/-- R629, R646. Every record up to now reaches the primary's flash, as far as it takes them. -/
def State.flushFlash (s : State) : State :=
  match s.primary with
  | none => s
  | some t => (List.range (subMod 32 s.evrHead (s.evrNext t))).foldl (fun s _ => flashCopy s t) s

/-- R647. A write of EVR.CTL: the erase of both flash copies begins, or the write is rejected. -/
def ctlWrite (s : State) (mgmt : Bool) (v : Nat) : State :=
  if mgmt && v % 2 = 1 then
    State.fput { s with evr := { s.evr with eraseAt := some s.clk.now } } Reg.EVR_FLASH_STATUS Fld.EVR_FLASH_STATUS_ERASING 1
  else s.rejected Reg.EVR_CTL v none

/-- R647. The CLEAR_FLASH command. -/
def execClearFlash (mgmt : Bool) (s : State) : Host.Outcome State Fault Refusal := .next (ctlWrite s mgmt 1)

/-- R647. The oldest held record that die t has not copied. -/
def State.firstUncopied (s : State) (t : Nat) : Nat :=
  let tail := s.fget Reg.EVR_TAIL_SEQ Fld.EVR_TAIL_SEQ_SEQ
  if subMod 32 (s.evrNext t) tail ≤ s.evrHeld then s.evrNext t else tail

/-- R647. FLASH_ERASE_DONE: copying starts again at flash slot 0. -/
def execFlashEraseDone (s : State) : Host.Outcome State Fault Refusal :=
  .next (match s.evr.eraseAt with
    | none => s
    | some _ =>
      let s1 : State := { s with
        mem := { s.mem with flash0 := tblClear s.mem.flash0 0x1100000 0x1900000, flash1 := tblClear s.mem.flash1 0x1100000 0x1900000 } }
      let s2 := (s1.setEvr 0 (s.firstUncopied 0) 0).setEvr 1 (s.firstUncopied 1) 0
      let s3 : State := { s2 with evr := { s2.evr with full := false, eraseAt := none } }
      ((s3.fput Reg.EVR_FLASH_STATUS Fld.EVR_FLASH_STATUS_ERASING 0).fput Reg.EVR_FLASH_STATUS Fld.EVR_FLASH_STATUS_FULL 0).showFlash.fput
        Reg.EVR_DROPPED Fld.EVR_DROPPED_FLASH 0)

/-- R648. EVR_FETCH of a started descriptor: flash slots go to HBM as stored. -/
def evrFetch (s : State) (d : Started) : State :=
  let b := d.bytes
  let die := leAt b 24 1
  let first := leAt b 28 4
  let count := leAt b 32 4
  let dst := leAt b 40 8
  if dPARAM b || 1 < die || count = 0 || 65536 < first + count || dst % 128 != 0 || !(s.inOwnHbm dst (128 * count)) ||
      !(zeroBytes b 25 27 && zeroBytes b 36 39 && zeroBytes b 48 63) then
    s.setDone d.ring d.seq { status := stBAD_OPERAND, die := 0x50, unit := 0x31 }
  else
    let data := rdFlash (s.flash die) (0x1100000 + 128 * first) (128 * count)
    let ok := ((chunksOf 128 count data).filter (fun r => leAt r 124 4 == cairn)).length
    (s.gwrite (.service (originOfDesc d.ring d.seq b)) 1 dst data).setDone d.ring d.seq { status := stSUCCESS, result := ok, die := 0x50, unit := 0x31 }

/-- R648. The EVR_FETCH command. -/
def execEvrFetch (n seq : Nat) (s : State) : Host.Outcome State Fault Refusal :=
  .next (match s.findStarted n seq with
    | some d => if dOPCODE d.bytes = 0x5040 && d.done.isNone then evrFetch s d else s
    | none => s)

/-- R649. OP_HOURS_SAVE: another 1/256 h with PWR_GOOD asserted is counted and saved. -/
def execOpHoursSave (s : State) : Host.Outcome State Fault Refusal :=
  .next (if s.pwr.good && s.primary.isSome then
      let s1 := s.reach (s.evr.savedAt + 14062500000)
      State.count { s1 with evr := { s1.evr with savedAt := s1.clk.now } } Reg.EVR_LIFE Fld.EVR_LIFE_OP_HOURS 1
    else s)

end Sys2Proof.Machine
end

