-- ==== Sys2Proof/Machine/Trf.lean ====
section
/-!
DEFINITION. The Trelfort controllers (spec/14): boot, roles, takeover, the state journal, swap, the fuse counters, the datagrams of
the management port, and the risk scorer.
-/
namespace Sys2Proof.Machine

open Sys2Proof

/-! ### Signed boot (R602-R606) -/

/-- The header of an image slot. -/
def State.slotHdr (s : State) (t k : Nat) : List Byte := rdFlash (s.flash t) (0x100000 + 0x800000 * k) 4096

/-- The body of an image slot. -/
def State.slotBody (s : State) (t k : Nat) : List Byte :=
  rdFlash (s.flash t) (0x101000 + 0x800000 * k) (leAt (s.slotHdr t k) 16 4)

/-- R603. The fuse counter of die t. -/
def State.fuse (s : State) (t : Nat) : Nat := if t = 0 then s.trelfort.fuse0 else s.trelfort.fuse1

/-- R602, R603. MAGIC, the ranges of SVN and BODY_LEN, and the RSVD bytes of a header. -/
def hdrShape (h : List Byte) : Bool :=
  leAt h 0 4 == 0x54464C54 && leAt h 8 1 ≤ 64 && 4 ≤ leAt h 16 4 && leAt h 16 4 ≤ 3080192 &&
    zeroBytes h 9 15 && zeroBytes h 20 63 && zeroBytes h 112 255 && zeroBytes h 353 383 && zeroBytes h 480 4095

/-- R603. SIG verifies over bytes 0 to 383 with KEY (assumption 30). -/
def hdrSigned (h : List Byte) : Bool :=
  leAt h 256 1 == 4 &&
    ecdsaVerify (beNat ((h.drop 257).take 48), beNat ((h.drop 305).take 48)) (sha384 (h.take 384))
      (beNat ((h.drop 384).take 48)) (beNat ((h.drop 432).take 48))

/-- R603. Slot k of die t verifies. -/
def State.verifies (s : State) (t k : Nat) : Bool :=
  let h := s.slotHdr t k
  hdrShape h && s.fuse t ≤ leAt h 8 1 && sha384 ((h.drop 256).take 97) == Config.keyDigest t && hdrSigned h &&
    sha384 (s.slotBody t k) == (h.drop 64).take 48

/-- R604. The slot that the boot ROM tries first: the higher VERSION, slot 0 on a tie. -/
def State.firstSlot (s : State) (t : Nat) : Nat := if leAt (s.slotHdr t 0) 4 4 < leAt (s.slotHdr t 1) 4 4 then 1 else 0

/-- R604. The slot that die t starts, if one verifies. -/
def State.bootSlot (s : State) (t : Nat) : Option Nat :=
  let k := s.firstSlot t
  if s.verifies t k then some k else if s.verifies t (1 - k) then some (1 - k) else none

/-- Whether the firmware of Trelfort t runs, and since when t is halted. -/
def State.ran (s : State) (t : Nat) : Bool := if t = 0 then s.trelfort.ran0 else s.trelfort.ran1
def State.setRan (s : State) (t : Nat) (v : Bool) : State :=
  { s with trelfort := if t = 0 then { s.trelfort with ran0 := v } else { s.trelfort with ran1 := v } }
def State.halted (s : State) (t : Nat) : Option Nat := if t = 0 then s.trelfort.halted0 else s.trelfort.halted1
def State.setHalted (s : State) (t : Nat) (v : Option Nat) : State :=
  { s with trelfort := if t = 0 then { s.trelfort with halted0 := v } else { s.trelfort with halted1 := v } }

/-- R632. BOOT_T* after the boot ROM has started slot k. -/
def State.showBoot (s : State) (t k : Nat) : State :=
  let h := s.slotHdr t k
  s.setReg (Reg.TRF_BOOT t) (List.foldl (fun w (e : Fld × Nat) => e.1.put w e.2) (0#64)
    [(Fld.TRF_BOOT_VERSION, leAt h 4 4), (Fld.TRF_BOOT_SVN, leAt h 8 1), (Fld.TRF_BOOT_FUSE_SVN, s.fuse t), (Fld.TRF_BOOT_SLOT, k),
     (Fld.TRF_BOOT_BOOT_ALT, if k = s.firstSlot t then 0 else 1)])

/-- R640. Die d is PRIMARY: what had no recorder is recorded. -/
def State.recordWaiting (s : State) : State :=
  s.flt.waiting.foldl (fun s w => s.record w.code w.cls w.sev w.time w.ctx) { s with flt := { s.flt with waiting := [] } }

/-- R607. Die d becomes PRIMARY. -/
def State.becomePrimary (s : State) (d : Nat) : State :=
  ((s.fput Reg.TRF_ROLE Fld.TRF_ROLE_PRIMARY d).changeRole d rPRIMARY).recordWaiting

/-- R607. A die whose boot has ended: T0 becomes PRIMARY in step 2 of a start-up; a die beside a PRIMARY syncs; another waits in BOOT. -/
def State.bootRole (s : State) (t : Nat) : State :=
  match s.primary with
  | some _ => s.changeRole t rSYNCING
  | none =>
    if t = 0 && s.stepNo = 2 then
      let s1 := s.becomePrimary 0
      if s1.ran 1 && s1.role 1 == rBOOT then s1.changeRole 1 rSYNCING else s1
    else s

/-- R604, R605, R612. The boot ROM of die t. -/
def bootRom (s : State) (t : Nat) : State :=
  let lostStandby := s.role t == rSTANDBY
  let s1 := s.trfReset t
  match s1.bootSlot t with
  | none =>
    let s2 := ((s1.fput (Reg.TRF_BOOT t) Fld.TRF_BOOT_BOOT_ALT 1).changeRole t rRECOVERY).advance
    if lostStandby then s2.noStandby t else s2
  | some k =>
    if s1.pwr.stopped then s1
    else
      let s2 : State := { s1 with
        mem := { s1.mem with trf := wrTbl s1.mem.trf (trfBase t) (s1.slotBody t k) }
        hang := { s1.hang with beatAt := tblPut zeroAt s1.hang.beatAt (0x50 + t) s1.clk.now } }
      let s3 := (((s2.showBoot t k).setRan t true).bootRole t).advance
      if lostStandby then s3.noStandby t else s3

/-- A Trelfort has power and MOD_RESET# does not hold it. -/
def State.trfUp (s : State) : Bool := (s.pwr.good || s.pwr.tripped) && (match s.hang.reset with | some r => !r.held | none => true)

/-- R604, R610. The reset of die t can be released: the die is not PRIMARY; one that has halted is reset for the other, which is PRIMARY,
after 10 ms. -/
def State.mayBoot (s : State) (t : Nat) : Bool :=
  t < 2 && s.trfUp && s.role t != rPRIMARY && (s.role t != rHALTED || s.primary == some (1 - t))

/-- R604. The BOOT_ROM command. -/
def execBootRom (t : Nat) (s : State) : Host.Outcome State Fault Refusal :=
  .next (if s.mayBoot t then bootRom (match s.halted t with | some h => s.reach (h + 10000000) | none => s) t else s)

/-- R606. The FUSE_SVN_ADVANCE command: a write of ARB. -/
def arbWrite (s : State) (mgmt : Bool) (die svn : Nat) : State :=
  if mgmt && die < 2 then
    let v := max (s.fuse die) (min svn (s.fget (Reg.TRF_BOOT die) Fld.TRF_BOOT_SVN))
    ({ s with trelfort := if die = 0 then { s.trelfort with fuse0 := v } else { s.trelfort with fuse1 := v } } : State).fput
      (Reg.TRF_BOOT die) Fld.TRF_BOOT_FUSE_SVN v
  else s.rejected Reg.TRF_ARB (die * 256 + svn % 256) none

/-- R606. FUSE_SVN_ADVANCE. -/
def execFuseSvnAdvance (mgmt : Bool) (die svn : Nat) (s : State) : Host.Outcome State Fault Refusal := .next (arbWrite s mgmt die svn)

/-! ### Roles (R607-R613) -/

/-- R608, R612. A die halts: with the other lost as well P0 acts; a halted standby is reported. -/
def kcoreHalt (s : State) (t : Nat) : State :=
  let primary := s.primary == some t
  let s1 := ((s.setRan t false).setHalted t (some s.clk.now)).changeRole t rHALTED
  if s1.trfLost (1 - t) then s1.bothLost
  else if primary || s.primary.isNone then s1
  else (State.noStandby { s1 with journal := [] } t).advance

/-- R608. The KCORE_LOCKSTEP command. -/
def execKcoreLockstep (t : Nat) (s : State) : Host.Outcome State Fault Refusal :=
  .next (if t < 2 && s.trfUp && s.role t != rHALTED then kcoreHalt s t else s)

/-- R610, R613. What functions 0x050 and 0x051 run is aborted, and their GENs advance. -/
def State.abortServices (s : State) : State :=
  let s1 := (s.started.filter (fun d => d.fn == 0x50 || d.fn == 0x51)).foldl (fun s d => s.abortDesc d) s
  (((s1.bumpGen 0x50).bumpGen 0x51).auditFn 0x50).auditFn 0x51

/-- R611. The journal entries that the standby has received are applied to its SRAM. -/
def State.applyJournal (s : State) (d : Nat) : State :=
  { s with
    mem := { s.mem with trf := s.journal.foldl (fun m e => wrTbl m (trfBase d + e.1) e.2) s.mem.trf }
    journal := [] }

/-- R607, R609. Die d can take over: the other is lost, and d is STANDBY, or has booted beside no PRIMARY. -/
def State.mayTakeOver (s : State) (d : Nat) : Bool :=
  s.trfLost (1 - d) && !s.trfLost d && (s.role d == rSTANDBY || (s.role d == rBOOT && s.ran d && s.primary.isNone))

/-- R609. Die o is lost: it runs no more, unless it is in RECOVERY already. -/
def State.loseDie (s : State) (o : Nat) : State :=
  if s.role o = rRECOVERY then s else ((s.setRan o false).setHalted o (some ((s.halted o).getD s.clk.now))).setRole o rHALTED

/-- R610. The primary has no standby, and no exchange of roles is under way. -/
def State.alone (s : State) : State := { s with trelfort := { s.trelfort with noStandby := true, swapAt := none } }

/-- R657. Time holds over where it was disciplined by the lost die. -/
def State.holdOver (s : State) : State := if s.timeState = tLOCKED || s.timeState = tLOCKING then s.setTime tHOLDOVER else s

/-- R610, R640, R657. Die d takes over from the other. -/
def takeover (s : State) (d : Nat) : State :=
  let s1 := ((s.applyJournal d).fput Reg.TRF_ROLE Fld.TRF_ROLE_LAG_US 0).loseDie (1 - d)
  let s2 := ((s1.becomePrimary d).abortServices).bump Reg.TRF_ROLE Fld.TRF_ROLE_FAILOVERS 1
  ((s2.alone.report 0x04 3 { die := 0x50 + (1 - d), unit := 0x31 }).holdOver).advance

/-- R609. The TAKEOVER command. -/
def execTakeover (s : State) : Host.Outcome State Fault Refusal :=
  .next (match [0, 1].find? s.mayTakeOver with | some d => takeover s d | none => s)

/-- R611. The die that holds or makes a copy of the primary. -/
def State.follower (s : State) : Option Nat :=
  match s.primary with
  | some d => if s.role (1 - d) == rSYNCING || s.role (1 - d) == rSTANDBY then some (1 - d) else none
  | none => none

/-- R611, R612. JOURNAL_ENTRY: the oldest entry is applied, or its loss breaks the journal. -/
def execJournalEntry (lost : Bool) (lag : Nat) (s : State) : Host.Outcome State Fault Refusal :=
  .next (match s.follower, s.journal with
    | some d, e :: t =>
      if lost then
        (State.noStandby ({ s with journal := [] } : State) d).changeRole d rSYNCING
      else
        State.fput { s with mem := { s.mem with trf := wrTbl s.mem.trf (trfBase d + e.1) e.2 }, journal := t }
          Reg.TRF_ROLE Fld.TRF_ROLE_LAG_US (if t.isEmpty then 0 else min lag 50)
    | _, _ => s)

/-- The SRAM of die d becomes a copy of the other's (R611). -/
def copySram (m : List Host.Cell) (d : Nat) : List Host.Cell :=
  let o := trfBase (1 - d)
  (m.filter (fun e => o ≤ e.1 && e.1 < o + 0x600000)).foldl (fun m e => tblPut zeroByte m (trfBase d + (e.1 - o)) e.2)
    (tblClear m (trfBase d) (trfBase d + 0x600000))

/-- R611. SYNC_COMPLETE. -/
def execSyncComplete (s : State) : Host.Outcome State Fault Refusal :=
  .next (match s.follower with
    | some d =>
      if s.role d == rSYNCING then
        let s1 : State := { s with
          mem := { s.mem with trf := copySram s.mem.trf d }, journal := [], trelfort := { s.trelfort with noStandby := false } }
        ((s1.fput Reg.TRF_ROLE Fld.TRF_ROLE_LAG_US 0).changeRole d rSTANDBY).advance
      else s
    | none => s)

/-- R613. A write of ROLE_CMD. -/
def roleCmd (s : State) (mgmt swap : Bool) : State :=
  match s.primary with
  | some d =>
    if mgmt && swap && s.role (1 - d) == rSTANDBY && s.fget Reg.TRF_ROLE Fld.TRF_ROLE_LAG_US == 0 && s.journal.isEmpty && s.trelfort.swapAt.isNone then
      { s with trelfort := { s.trelfort with swapAt := some s.clk.now } }
    else s.rejected Reg.TRF_ROLE_CMD (if swap then 1 else 0) none
  | none => s.rejected Reg.TRF_ROLE_CMD (if swap then 1 else 0) none

/-- R613. SWAP. -/
def execSwap (mgmt swap : Bool) (s : State) : Host.Outcome State Fault Refusal := .next (roleCmd s mgmt swap)

/-- R613. The roles change places; what still runs after 100 ms is aborted. -/
def handOver (s : State) (d since : Nat) : State :=
  let busy := s.started.any (fun x => x.fn == 0x50 || x.fn == 0x51)
  let s1 := if busy then (s.reach (since + 100000000)).abortServices else s
  let s2 := State.applyJournal { s1 with trelfort := { s1.trelfort with swapAt := none } } (1 - d)
  (((s2.setRole d rSTANDBY).setRole (1 - d) rPRIMARY).fput Reg.TRF_ROLE Fld.TRF_ROLE_PRIMARY (1 - d)).event 0x0103
    { die := 0x50 + (1 - d), unit := 0x31 }

/-- R613. SWAP_HANDOVER. -/
def execSwapHandover (s : State) : Host.Outcome State Fault Refusal :=
  .next (match s.primary, s.trelfort.swapAt with
    | some d, some t =>
      if s.role (1 - d) == rSTANDBY then handOver s d t
      else { s with trelfort := { s.trelfort with swapAt := none } }
    | _, _ => s)

/-! ### The management port (R614-R621) -/

/-- R614. Fields of a datagram. -/
def tmpType (g : List Byte) : Nat := leAt g 1 1
def tmpSeq (g : List Byte) : Nat := leAt g 4 4
def tmpBody (g : List Byte) : List Byte := g.drop 32

/-- R614. The datagram is well formed and addresses this module. -/
def State.tmpForMe (s : State) (g : List Byte) : Bool :=
  leAt g 0 1 == 1 && 32 ≤ g.length && g.length == 32 + leAt g 10 2 && leAt g 10 2 ≤ 1168 &&
    (leAt g 8 2 == 0xFFFF || s.chip == some (leAt g 8 2))

/-- R616. The MAC key in the fuses of die t; fuses not yet programmed read as zero. -/
def State.macKey (s : State) (t : Nat) : List Byte := ((if t = 0 then s.obs.macKey0 else s.obs.macKey1).getD (List.replicate 32 0#8))

/-- R614. The MAC of a datagram under a key. -/
def tmpMac (key g : List Byte) : List Byte := (hmac256 key (g.take 16 ++ List.replicate 16 0#8 ++ g.drop 32)).take 16

/-- R616. The MAC of a datagram holds, or none is asked for. -/
def State.macOk (s : State) (t : Nat) (g : List Byte) : Bool :=
  s.cfg Reg.TRF_MGMT_CFG Fld.TRF_MGMT_CFG_MAC_EN == 0 || tmpMac (s.macKey t) g == (g.drop 16).take 16

/-- R614-R619. A datagram of a type reaches die t from a source: dropped when it is malformed, not for this module, or fails its
MAC; answered again when its SEQ has an answer; else acted on. -/
def State.tmpIn (s : State) (t src type : Nat) (g : List Byte) (act : State → State) : State :=
  if !(t < 2 && s.trfUp && s.tmpForMe g && tmpType g == type) then s
  else if !s.macOk t g then s.bump Reg.TRF_TMP_STATUS Fld.TRF_TMP_STATUS_MAC_FAIL 1
  else match s.trelfort.replies.find? (fun r => r.1 == 2 * src + t && r.2.1 == tmpSeq g) with
    | some r => s.emit (.tmp src r.2.2.1 r.2.1 r.2.2.2)
    | none => act s

/-- A request is performed (R632). -/
def State.tmpDone (s : State) : State := s.bump Reg.TRF_TMP_STATUS Fld.TRF_TMP_STATUS_REQUESTS 1

/-- R619. Die t acts on a request as the primary; a follower names the primary; any other die does not answer. -/
def State.asPrimary (s : State) (t src : Nat) (g : List Byte) (act : State → State) : State :=
  if s.primary = some t then act s
  else if s.role t == rSYNCING || s.role t == rSTANDBY then s.tmpReply t src (tmpSeq g) 1 []
  else s

/-- R615. A count of bytes that READ and WRITE take. -/
def tmpCount (n : Nat) : Bool := 8 ≤ n && n ≤ 1024 && n % 8 == 0

/-- R618. The READ of this source and SEQ still waits for its data. -/
def State.tmpAwaited (s : State) (t src seq : Nat) : Bool :=
  s.fab.reads.any (fun r => r.who == .tmp t src seq) || s.waitRd.any (fun r => r.who == .tmp t src seq)

/-- R615, R617. READ. -/
def tmpRead (s : State) (t src : Nat) (g : List Byte) (ecc : EccFinds) : State :=
  let b := tmpBody g
  let n := leAt b 8 4
  if b.length < 12 || !tmpCount n then s.tmpReply t src (tmpSeq g) 3 []
  else if s.tmpAwaited t src (tmpSeq g) then s
  else memoryRead s.tmpDone (.tmp t src (tmpSeq g)) .global (leAt b 0 8) n ecc

/-- R617. TMP_READ. -/
def execTmpRead (t src : Nat) (dgram : List Byte) (ecc : EccFinds) (s : State) : Host.Outcome State Fault Refusal :=
  .next (s.tmpIn t src 0x01 dgram (fun s => s.asPrimary t src dgram (fun s => tmpRead s t src dgram ecc)))

/-- R615. The body of a STATUS reply. -/
def State.statusBody (s : State) : List Byte :=
  leBytes 8 (s.regPeek true Reg.TRF_ROLE).toNat ++ leBytes 8 (s.regPeek true Reg.MOD_CHIP_NUMBER).toNat ++
    leBytes 8 (s.regPeek true Reg.MOD_RESET_STATUS).toNat

/-- R605, R619. TMP_STATUS: the primary, a follower and a die in RECOVERY answer. -/
def execTmpStatus (t src : Nat) (dgram : List Byte) (s : State) : Host.Outcome State Fault Refusal :=
  .next (s.tmpIn t src 0x20 dgram (fun s =>
    if s.primary = some t || s.role t == rSYNCING || s.role t == rSTANDBY || s.role t == rRECOVERY then
      s.tmpDone.tmpKeep t src 0x20 (tmpSeq dgram) s.statusBody
    else s))

/-- R620. The range lies in an image slot of die d that may be programmed: the one it did not boot from, or either one in RECOVERY. -/
def State.flashOpen (s : State) (d off n : Nat) : Bool :=
  let inSlot (k : Nat) : Bool := 0x100000 + 0x800000 * k ≤ off && off + n ≤ 0x900000 + 0x800000 * k
  d < 2 && (if s.role d == rRECOVERY then inSlot 0 || inSlot 1
    else (s.role d != rBOOT || s.ran d) && inSlot (1 - s.fget (Reg.TRF_BOOT d) Fld.TRF_BOOT_SLOT))

/-- R615, R620. FLASH_WRITE. -/
def tmpFlash (s : State) (t src : Nat) (g : List Byte) : State :=
  let b := tmpBody g
  let off := leAt b 0 4
  let n := leAt b 4 4
  let d := leAt b 8 1
  if 256 ≤ n && n ≤ 1024 && n % 256 == 0 && off % 256 == 0 && b.length == 16 + n && s.flashOpen d off n then
    ((s.flashWrite d off (b.drop 16)).tmpDone).tmpReply t src (tmpSeq g) 0 []
  else s.tmpReply t src (tmpSeq g) 3 []

/-- R605, R619, R620. FLASH_WRITE: the primary acts; a follower and a die in RECOVERY act for their own flash. -/
def execFlashWrite (t src : Nat) (dgram : List Byte) (s : State) : Host.Outcome State Fault Refusal :=
  .next (s.tmpIn t src 0x30 dgram (fun s =>
    if s.role t == rRECOVERY || ((s.role t == rSYNCING || s.role t == rSTANDBY) && leAt (tmpBody dgram) 8 1 == t) then
      (if leAt (tmpBody dgram) 8 1 == t then tmpFlash s t src dgram else s.tmpReply t src (tmpSeq dgram) 3 [])
    else s.asPrimary t src dgram (fun s => tmpFlash s t src dgram)))

/-- R621. NOTICE_ACK: the notice is not sent again. -/
def execNoticeAck (t src : Nat) (dgram : List Byte) (s : State) : Host.Outcome State Fault Refusal :=
  .next (s.tmpIn t src 0x11 dgram (fun s =>
    if s.primary = some t || s.role t == rSTANDBY then
      { s with notices := s.notices.filter (·.seq != leAt (tmpBody dgram) 0 4) }
    else s))

/-- R621. A notice is sent again, or given up after 60 s. -/
def noticeRepeat (s : State) (n : Notice) : State :=
  let s1 := s.reach (n.sent + 100000000)
  if n.since + 60000000000 ≤ s1.clk.now then
    State.bump { s1 with notices := s1.notices.filter (·.seq != n.seq) } Reg.TRF_TMP_STATUS Fld.TRF_TMP_STATUS_UNACKED 1
  else
    ({ s1 with notices := updFirst (·.seq == n.seq) (fun x => { x with sent := s1.clk.now }) s1.notices } : State).emit
      (.notice n.seq n.kind n.cut n.record)

/-- R621. NOTICE_REPEAT. -/
def execNoticeRepeat (seq : Nat) (s : State) : Host.Outcome State Fault Refusal :=
  .next (match s.notices.find? (·.seq == seq) with
    | some n => if s.primary.isSome then noticeRepeat s n else s
    | none => s)

/-! ### The risk scorer (R622-R624) -/

/-- The buckets of a subject before its first event. -/
def noBuckets (_ : Nat) : List Nat := List.replicate 24 0

/-- R624. The threshold in force of a level. -/
def State.riskThresh (s : State) (level : Nat) : Nat :=
  s.cfg Reg.TRF_RISK_THRESH (if level = 1 then Fld.TRF_RISK_THRESH_WATCH else if level = 2 then Fld.TRF_RISK_THRESH_WARN else Fld.TRF_RISK_THRESH_RETIRE)

/-- SCORE and LEVEL of a subject. -/
def State.riskLevel (s : State) (i : Nat) : Nat := s.fget (Reg.TRF_RISK_SCORE i) Fld.TRF_RISK_SCORE_LEVEL
def State.riskScore (s : State) (i : Nat) : Nat := s.fget (Reg.TRF_RISK_SCORE i) Fld.TRF_RISK_SCORE_SCORE

/-- R623. The score: the sum of the buckets, saturating. -/
def riskSum (b : List Nat) : Nat := min (2 ^ 32 - 1) b.sum

/-- R632. RISK_STATUS counts the subjects at each level. -/
def State.showRisk (s : State) : State :=
  let at_ (l : Nat) : Nat := ((List.range 144).filter (fun i => s.riskLevel i == l)).length
  s.setReg Reg.TRF_RISK_STATUS (Fld.TRF_RISK_STATUS_RETIRE.put (Fld.TRF_RISK_STATUS_WARN.put (Fld.TRF_RISK_STATUS_WATCH.put 0#64 (at_ 1)) (at_ 2)) (at_ 3))

/-- R586. The step that a RISK_WARN proposes for a cut. -/
def State.proposedCut (s : State) : Nat :=
  (s.fget Reg.CONT_CADDY_STATUS Fld.CONT_CADDY_STATUS_LAST_STEP + s.cfg Reg.CKP_CFG Fld.CKP_CFG_EARLY_LEAD) % 2 ^ 32

/-- R624. The level of subject i rises to l, and is recorded; RISK_WARN and RETIRE are reported, with a notice. -/
def State.riskRise (s : State) (i l : Nat) : State :=
  let s1 := (s.fput (Reg.TRF_RISK_SCORE i) Fld.TRF_RISK_SCORE_LEVEL l).showRisk
  let c : Ctx := { die := s.trfDie, unit := 0x33, subj := some i }
  if l = 1 then s1.event 0x0102 c
  else
    let s2 := s1.report 0x15 0 c
    s2.notice (l - 1) (if l = 2 then s2.proposedCut else 0)
      (s2.recordBytes (subMod 32 (s2.fget Reg.EVR_HEAD_SEQ Fld.EVR_HEAD_SEQ_SEQ) 1) 0x15 0x15 0 s2.timeNs c)

/-- R624. Level l is reached next if the subject stands below it and its score has reached the threshold. -/
def State.riskStep (s : State) (i l : Nat) : State :=
  if s.riskLevel i + 1 = l && s.riskThresh l ≤ s.riskScore i then s.riskRise i l else s

/-- R623. The weight of a kind. -/
def State.riskWeight (s : State) (kind : Nat) : Nat :=
  s.cfg Reg.TRF_RISK_WEIGHT (if kind = 0 then Fld.TRF_RISK_WEIGHT_CE else if kind = 1 then Fld.TRF_RISK_WEIGHT_RETRY else Fld.TRF_RISK_WEIGHT_RETRAIN)

/-- R623, R624. An event of a subject. -/
def riskEvent (s : State) (i kind : Nat) : State :=
  let b := match tblGet noBuckets s.risk.buckets i with
    | [] => [s.riskWeight kind]
    | x :: t => (x + s.riskWeight kind) :: t
  let s1 := State.fput { s with risk := { s.risk with buckets := tblPut noBuckets s.risk.buckets i b } } (Reg.TRF_RISK_SCORE i) Fld.TRF_RISK_SCORE_SCORE (riskSum b)
  [1, 2, 3].foldl (fun s l => s.riskStep i l) s1

/-- R623. RISK_EVENT. -/
def execRiskEvent (subject kind : Nat) (s : State) : Host.Outcome State Fault Refusal :=
  .next (if subject < 144 && kind < 3 && s.primary.isSome then riskEvent s subject kind else s)

/-- R624. The level falls from l while the score is below half its threshold. -/
def State.riskFall (s : State) (i l : Nat) : State :=
  if s.riskLevel i = l && 2 * s.riskScore i < s.riskThresh l then s.fput (Reg.TRF_RISK_SCORE i) Fld.TRF_RISK_SCORE_LEVEL (l - 1) else s

/-- R623, R624. The boundary at subject i. -/
def State.riskRoll (s : State) (i : Nat) : State :=
  let b := (0 :: tblGet noBuckets s.risk.buckets i).take 24
  let s1 := State.fput { s with risk := { s.risk with buckets := tblPut noBuckets s.risk.buckets i b } } (Reg.TRF_RISK_SCORE i) Fld.TRF_RISK_SCORE_SCORE (riskSum b)
  [3, 2, 1].foldl (fun s l => s.riskFall i l) s1

/-- R623, R624. RISK_BUCKET_BOUNDARY. -/
def execRiskBucketBoundary (s : State) : Host.Outcome State Fault Refusal :=
  .next (if s.primary.isSome then
      let s1 := s.reach (s.risk.since + s.cfg Reg.TRF_RISK_CFG Fld.TRF_RISK_CFG_BUCKET_MIN * 60000000000)
      let s2 := (List.range 144).foldl (fun s i => s.riskRoll i) { s1 with risk := { s1.risk with since := s1.clk.now } }
      s2.showRisk
    else s)

end Sys2Proof.Machine
end

