-- ==== Sys2Proof/Machine/Power.lean ====
section
/-!
DEFINITION. The feeds (spec/14 R625-R631, spec/18 R738-R740), Lantern beats (R491, R600, R630), clock and power states (spec/17 R715-R723), and temperature
(R724-R726).
-/
namespace Sys2Proof.Machine

open Sys2Proof

/-! ### Feeds (R625-R631, R739, R740) -/

/-- Feed states (R625). -/
def fABSENT : Nat := 0
def fQUALIFYING : Nat := 1
def fSTANDBY : Nat := 2
def fACTIVE : Nat := 3
def fFAILED : Nat := 4

/-- Fields of feed f. -/
def feedStateFld (f : Nat) : Fld := if f = 0 then Fld.PWR_FEED_STATUS_STATE_A else Fld.PWR_FEED_STATUS_STATE_B
def feedVoltFld (f : Nat) : Fld := if f = 0 then Fld.PWR_FEED_MEAS_VOLT_A else Fld.PWR_FEED_MEAS_VOLT_B
def feedCurrFld (f : Nat) : Fld := if f = 0 then Fld.PWR_FEED_MEAS_CURR_A else Fld.PWR_FEED_MEAS_CURR_B
def feedTestFld (f : Nat) : Fld := if f = 0 then Fld.PWR_FEED_CHECK_SELFTEST_A else Fld.PWR_FEED_CHECK_SELFTEST_B

def State.feed (s : State) (f : Nat) : Feed := if f = 0 then s.pwr.feedA else s.pwr.feedB
def State.setFeed (s : State) (f : Nat) (v : Feed) : State :=
  { s with pwr := if f = 0 then { s.pwr with feedA := v } else { s.pwr with feedB := v } }

/-- The state of feed f. -/
def State.feedState (s : State) (f : Nat) : Nat := s.fget Reg.PWR_FEED_STATUS (feedStateFld f)

/-- R625, R636. Feed f changes state; its P die reports it. -/
def State.toFeed (s : State) (f st : Nat) : State :=
  if s.feedState f = st then s
  else (s.fput Reg.PWR_FEED_STATUS (feedStateFld f) st).event 0x0104 { die := 0x52 + f, unit := 0x40 }

/-- FEED_MEAS shows the voltage of feed f. -/
def State.feedVolt (s : State) (f volt : Nat) : State := s.fput Reg.PWR_FEED_MEAS (feedVoltFld f) volt

/-- The voltage lies in 700 to 900 V. -/
def voltIn (volt : Nat) : Bool := 7000 ≤ volt && volt ≤ 9000

/-- R625. FEED_IN_RANGE. -/
def execFeedInRange (f volt : Nat) (s : State) : Host.Outcome State Fault Refusal :=
  .next (if f < 2 && voltIn volt then
      let x := s.feed f
      let s1 := (s.setFeed f { x with inRange := true, since := if x.charged then some s.clk.now else none }).feedVolt f volt
      if s1.feedState f = fABSENT || s1.feedState f = fFAILED then s1.toFeed f fQUALIFYING else s1
    else s)

/-- R740. FEED_PRECHARGE_START. -/
def execFeedPrechargeStart (f volt : Nat) (s : State) : Host.Outcome State Fault Refusal :=
  .next (if f < 2 && 1000 < volt then
      let x := s.feed f
      (if x.charged then s else s.setFeed f { x with charging := true }).feedVolt f volt
    else s)

/-- R740. FEED_PRECHARGE_DONE: the qualification of a feed in range begins to count. -/
def execFeedPrechargeDone (f : Nat) (s : State) : Host.Outcome State Fault Refusal :=
  .next (if f < 2 && (s.feed f).charging then
      s.setFeed f { s.feed f with charging := false, charged := true, since := if (s.feed f).inRange then some s.clk.now else none }
    else s)

/-- The bit of FEED_STATUS that names the ACTIVE feed, and the feed ACTIVE. -/
def State.feedActive (s : State) (f : Nat) : State := (s.fput Reg.PWR_FEED_STATUS Fld.PWR_FEED_STATUS_ACTIVE f).toFeed f fACTIVE

/-- The module is off for want of a feed, and a feed that qualifies may start it (R626). -/
def State.awaitsFeed (s : State) : Bool := !s.pwr.good && !s.pwr.tripped && !s.fed

/-- R625, R626. FEED_QUALIFIED: a passed self-test ends qualification; a failed one starts it again. -/
def execFeedQualified (f : Nat) (selftest : Bool) (s : State) : Host.Outcome State Fault Refusal :=
  .next (match (s.feed f).since with
    | some t =>
      if f < 2 && s.feedState f = fQUALIFYING then
        let s1 := (s.reach (t + 10000000000)).fput Reg.PWR_FEED_CHECK (feedTestFld f) (if selftest then 1 else 0)
        if selftest then
          let s2 := s1.setFeed f { s1.feed f with qualAt := s1.clk.now }
          if f = 0 && s2.awaitsFeed then s2.feedActive 0 else s2.toFeed f fSTANDBY
        else
          (s1.setFeed f { s1.feed f with since := some s1.clk.now }).bump Reg.PWR_FEED_CHECK Fld.PWR_FEED_CHECK_QUAL_FAILS 1
      else s
    | none => s)

/-- R625, R740. FEED_OUT_OF_RANGE: below 100 V the input capacitance is charged anew. -/
def execFeedOutOfRange (f volt : Nat) (s : State) : Host.Outcome State Fault Refusal :=
  .next (if f < 2 && !voltIn volt then
      let x := s.feed f
      let s1 := (s.setFeed f { x with inRange := false, since := none, charged := x.charged && 1000 < volt, charging := x.charging && 1000 < volt }).feedVolt f volt
      if s1.feedState f = fQUALIFYING || s1.feedState f = fSTANDBY then s1.toFeed f fABSENT else s1
    else s)

/-- R626. FEEDB_POWERUP_TIMER. -/
def execFeedbPowerupTimer (s : State) : Host.Outcome State Fault Refusal :=
  .next (if s.awaitsFeed && s.feedState 1 = fSTANDBY && s.feedState 0 != fSTANDBY then
      (s.reach (s.pwr.feedB.qualAt + 30000000000)).feedActive 1
    else s)

/-- R629, R698. The P dies shut the module down; nothing runs until a power-up. -/
def State.shutDown (s : State) : State :=
  let s1 := if s.pwr.good then s.emit (.pin 1 false) else s
  let s2 := if s1.pwr.tripAt.isSome then s1.emit (.pin 2 false) else s1
  let s3 := (s2.setRole 0 rBOOT).setRole 1 rBOOT
  { s3 with
    dark := List.range 0x50
    hang := { s3.hang with reset := none }
    pwr := { s3.pwr with good := false, tripped := false, tripAt := none } }

/-- R627, R629. Feed f trips. -/
def feedTrip (s : State) (f volt : Nat) (pickup : Bool) : State :=
  let o := 1 - f
  let s1 := ((s.setFeed f { s.feed f with inRange := false, since := none }).feedVolt f volt).toFeed f fFAILED
  if s1.feedState o = fSTANDBY && pickup then
    let s2 := (s1.feedActive o).bump Reg.PWR_FEED_STATUS Fld.PWR_FEED_STATUS_SWITCHES 1
    (s2.fput Reg.PWR_FEED_STATUS Fld.PWR_FEED_STATUS_LAST_SWITCH_NS s2.timeNs).report 0x0B 0 { die := 0x52 + f, unit := 0x40 }
  else
    let s2 := if s1.feedState o = fSTANDBY then s1.toFeed o fFAILED else s1
    ((s2.report 0x0B 4 { die := 0x52 + f, unit := 0x40 }).flushFlash).shutDown

/-- R627. FEED_TRIP. -/
def execFeedTrip (f volt : Nat) (pickup : Bool) (s : State) : Host.Outcome State Fault Refusal :=
  .next (if f < 2 && s.feedState f = fACTIVE then feedTrip s f volt pickup else s)

/-! ### Lantern beats (R491, R492, R600, R630) -/

/-- R484, R491. A source is watched. -/
def State.watched (s : State) (src : Nat) : Bool :=
  if src < 64 then !s.service && s.blockUp src && !(match s.scan with | some c => c.block == src | none => false)
  else if src = 0x50 || src = 0x51 then s.role (src - 0x50) != rBOOT && s.role (src - 0x50) != rRECOVERY
  else src == 0x52 || src == 0x53

/-- R491. LANTERN_BEAT: a beat of a block, its first one after a reset among them, of a Trelfort, or of a P die (R600). -/
def execLanternBeat (src : Nat) (s : State) : Host.Outcome State Fault Refusal :=
  .next (if src < 64 || (0x50 ≤ src && src ≤ 0x53) then
      let s1 : State := { s with hang := { s.hang with
        beatAt := tblPut zeroAt s.hang.beatAt src s.clk.now, misses := tblPut zeroAt s.hang.misses src 0 } }
      match s.hang.reset with
      | some r =>
        if src < 64 && r.level ≤ 2 && !r.beaten.contains src then
          State.dieOn { s1 with hang := { s1.hang with reset := some (r.beat src) } } src
        else s1
      | none => s1
    else s)

/-- R630. The P die of feed f has stopped its beats: an ACTIVE feed trips, and `pickup` says whether the other feed carries the load in
time; a STANDBY feed is ABSENT. -/
def State.powerDieLost (s : State) (f : Nat) (pickup : Bool) : State :=
  if s.feedState f = fACTIVE then feedTrip s f (s.fget Reg.PWR_FEED_MEAS (feedVoltFld f)) pickup
  else if s.feedState f = fSTANDBY then s.toFeed f fABSENT
  else s

/-- R491, R492, R630. LANTERN_MISS_TIMER: an interval without a beat is counted; the third in a row is a loss. -/
def execLanternMissTimer (src : Nat) (pickup : Bool) (s : State) : Host.Outcome State Fault Refusal :=
  .next (if s.watched src then
      let s0 := s.reach (tblGet zeroAt s.hang.beatAt src + 10000000)
      let n := tblGet zeroAt s.hang.misses src + 1
      let s1 : State := { s0 with hang := { s0.hang with
        beatAt := tblPut zeroAt s0.hang.beatAt src s0.clk.now, misses := tblPut zeroAt s0.hang.misses src n } }
      if n = 3 then (if src < 64 then s1.blockLost src else if src < 0x52 then s1.trfMissed (src - 0x50) else s1.powerDieLost (src - 0x52) pickup) else s1
    else s)

/-! ### The ACLK setting (R716-R718, R724, R739) -/

/-- CAP_MHZ, from 600 to the thermal cap. -/
def State.capMhz (s : State) : Nat := s.fget Reg.PWR_DVFS Fld.PWR_DVFS_CAP_MHZ
def State.setCap (s : State) (v : Nat) : State := (s.fput Reg.PWR_DVFS Fld.PWR_DVFS_CAP_MHZ (max 600 (min v s.pwr.thermCap))).setEff

/-- R739. FEED_CURRENT_LIMIT: the current crosses 10 A or 9.5 A, and the cap takes its first step. -/
def execFeedCurrentLimit (curr : Nat) (s : State) : Host.Outcome State Fault Refusal :=
  .next (if s.primary.isSome && s.pwr.good then
      let s1 := s.fput Reg.PWR_FEED_MEAS (feedCurrFld (s.fget Reg.PWR_FEED_STATUS Fld.PWR_FEED_STATUS_ACTIVE)) curr
      if 1000 < curr && !s1.pwr.overCur then
        State.setCap { s1 with pwr := { s1.pwr with overCur := true, capAt := s1.clk.now } } (s1.capMhz - 50)
      else if curr < 950 && s1.pwr.overCur then
        State.setCap { s1 with pwr := { s1.pwr with overCur := false, capAt := s1.clk.now } } (s1.capMhz + 50)
      else s1
    else s)

/-- R716. A write of DVFS by any master. -/
def dvfsWrite (s : State) (value : Word) : State :=
  let v := Fld.PWR_DVFS_TARGET_MHZ.get value
  if 600 ≤ v && v ≤ 1000 && v % 50 = 0 then (s.fput Reg.PWR_DVFS Fld.PWR_DVFS_TARGET_MHZ v).setEff
  else s.rejected Reg.PWR_DVFS value.toNat none

/-- R716. TARGET_MHZ_WRITE. -/
def execTargetMhzWrite (value : Word) (s : State) : Host.Outcome State Fault Refusal := .next (dvfsWrite s value)

/-- R717, R718. DVFS_GLIDE_STEP: every PLL takes 50 MHz towards EFF_MHZ. -/
def execDvfsGlideStep (s : State) : Host.Outcome State Fault Refusal :=
  .next (
    let eff := s.fget Reg.PWR_DVFS Fld.PWR_DVFS_EFF_MHZ
    if s.pwr.doze || s.pwr.mhz = eff then s
    else State.showPower { s with pwr := { s.pwr with mhz := if s.pwr.mhz < eff then min eff (s.pwr.mhz + 50) else max eff (s.pwr.mhz - 50) } })

/-- R720. ARRAY_IDLE. -/
def execArrayIdle (s : State) : Host.Outcome State Fault Refusal :=
  .next (if s.service && !s.pwr.doze && !(s.started.any (·.fn == 0)) && s.arr.prefetch.isNone then
      let s1 := s.reach (s.arr.busyAt + 1000)
      State.showPower { s1 with pwr := { s1.pwr with gated := true } }
    else s)

/-! ### DOZE (R721-R723) -/

/-- R721. Functions that keep the module out of DOZE while they are not in STOPPED or CHANGE. -/
def dozeFns : List Nat :=
  0 :: ((List.range 8).flatMap (fun r => [0x10 + 4 * r, 0x11 + 4 * r, 0x12 + 4 * r])) ++ (List.range 16).map (0x40 + ·)

/-- R721. An entry is refused. -/
def State.dozeRefused (s : State) : Bool :=
  dozeFns.any (fun f => s.fnState f != fnSTOPPED && s.fnState f != fnCHANGE) || s.hang.reset.isSome || s.scan.isSome ||
    s.started.any (fun d => dOPCODE d.bytes == 0x4050 && d.done.isNone) || s.pwr.doze

/-- R341, R721, R722. The module enters DOZE. -/
def State.enterDoze (s : State) : State :=
  let s1 := s.holdDies
  let s2 := State.showPower { s1 with pwr := { s1.pwr with doze := true } }
  (List.range 48).foldl (fun s p => s.askKeepWarm p) s2

/-- R343, R499 step 6, R723. The module leaves DOZE: the dies are released, and blocks that stay silent are fenced. -/
def State.exitDoze (s : State) (silent : List Nat) : State :=
  let s1 := (List.range 64).foldl (fun s b => s.dieOn b) s.leaveDoze
  let s2 := (silent.filter (· < 64)).foldl (fun s b => s.putBit Reg.ARR_FENCE_BLOCK b true) s1
  (List.range 48).foldl (fun s p => s.askExit p) s2

/-- R721. POWER of a started descriptor. -/
def powerDesc (s : State) (d : Started) (silent : List Nat) : State :=
  let act := leAt d.bytes 24 1
  let ok : Done := { status := stSUCCESS, die := 0x50, unit := 0x31 }
  if dPARAM d.bytes || 1 < act || !zeroBytes d.bytes 25 63 then s.setDone d.ring d.seq { status := stBAD_OPERAND, die := 0x50, unit := 0x31 }
  else if act = 1 then
    (if s.dozeRefused then s.setDone d.ring d.seq { status := stREFUSED, die := 0x50, unit := 0x31 } else s.enterDoze.setDone d.ring d.seq ok)
  else (if s.pwr.doze then s.exitDoze silent else s).setDone d.ring d.seq ok

/-- R721. The POWER command. -/
def execPower (n seq : Nat) (silent : List Nat) (s : State) : Host.Outcome State Fault Refusal :=
  .next (match s.findStarted n seq with
    | some d => if dOPCODE d.bytes = 0x5060 && !d.begun && d.done.isNone then
        powerDesc (s.updStarted n seq (fun x => { x with begun := true })) d silent else s
    | none => s)

/-! ### Temperature (R724-R726, R744) -/

/-- R724. WARN_C in force. -/
def State.warnC (s : State) : Nat := s.cfg Reg.PWR_THERM_CFG Fld.PWR_THERM_CFG_WARN_C

/-- MAX_C and HOT_DIE. -/
def State.showHot (s : State) (die temp : Nat) : State :=
  (s.fput Reg.PWR_THERM_STATUS Fld.PWR_THERM_STATUS_MAX_C temp).fput Reg.PWR_THERM_STATUS Fld.PWR_THERM_STATUS_HOT_DIE die

/-- R724. The first lowering of an episode. -/
def State.warm (s : State) (die temp : Nat) : State :=
  let s1 := (s.showHot die temp).bump Reg.PWR_THERM_STATUS Fld.PWR_THERM_STATUS_WARNS 1
  (State.setCap { s1 with pwr := { s1.pwr with hot := true, capAt := s1.clk.now, thermCap := max 600 (s1.pwr.thermCap - 50) } }
    (s1.capMhz - 50)).report 0x0C 0 { die := die, unit := 0x41 }

/-- R724. THERMAL_WARN. -/
def execThermalWarn (die temp : Nat) (s : State) : Host.Outcome State Fault Refusal :=
  .next (if s.primary.isSome && s.pwr.good && s.warnC ≤ temp then
      (if s.pwr.hot then s.showHot die temp else s.warm die temp)
    else s)

/-- R724, R739. The thermal cap after a step; the temperature between the two limits leaves it. -/
def State.nextThermCap (s : State) (temp : Nat) : Nat :=
  if s.warnC ≤ temp then max 600 (s.pwr.thermCap - 50)
  else if temp + 5 < s.warnC && !s.pwr.overCur then min 1000 (s.pwr.thermCap + 50) else s.pwr.thermCap

/-- R724, R739. A step of the cap: 10 ms after the last one when it falls, 100 ms when it rises. -/
def capStep (s : State) (die temp : Nat) : State :=
  let down := s.warnC ≤ temp || s.pwr.overCur
  let s1 := (s.reach (s.pwr.capAt + (if down then 10000000 else 100000000))).showHot die temp
  let s2 : State := { s1 with pwr := { s1.pwr with
    capAt := s1.clk.now, thermCap := s1.nextThermCap temp, hot := s1.pwr.hot && s1.warnC ≤ temp + 5 } }
  s2.setCap (if down then s2.capMhz - 50 else s2.capMhz + 50)

/-- R724. CAP_STEP. -/
def execCapStep (die temp : Nat) (s : State) : Host.Outcome State Fault Refusal :=
  .next (if s.primary.isSome && s.pwr.good then
      (if s.warnC ≤ temp && !s.pwr.hot then s.warm die temp else capStep s die temp)
    else s)

/-- R725. A trip: the record reaches flash, and the compute, Ledger and link dies lose power. -/
def thermalTrip (s : State) (die temp : Nat) (lost : List Nat) : State :=
  let s1 := ((s.showHot die temp).bump Reg.PWR_THERM_STATUS Fld.PWR_THERM_STATUS_TRIPS 1).emit (.pin 2 true)
  let mask := s1.fget Reg.PWR_THERM_STATUS Fld.PWR_THERM_STATUS_LOST_STACKS ||| ((lost.filter (· < 16)).foldl (fun m k => m ||| 2 ^ k) 0)
  let s2 := (((s1.fput Reg.PWR_THERM_STATUS Fld.PWR_THERM_STATUS_LOST_STACKS mask).report 0x0C 4 { die := die, unit := 0x41 }).flushFlash).emit (.pin 1 false)
  { s2 with
    dark := List.range 0x50
    hang := { s2.hang with reset := none }
    pwr := { s2.pwr with good := false, tripAt := some s2.clk.now, tripped := true } }

/-- R725. THERMAL_TRIP. -/
def execThermalTrip (die temp : Nat) (lost : List Nat) (s : State) : Host.Outcome State Fault Refusal :=
  .next (if s.pwr.good && 110 ≤ temp then thermalTrip s die temp lost else s)

/-- R726. THERMTRIP_RELEASE. -/
def execThermtripRelease (s : State) : Host.Outcome State Fault Refusal :=
  .next (match s.pwr.tripAt with
    | some t =>
      if s.fget Reg.PWR_THERM_STATUS Fld.PWR_THERM_STATUS_COOLANT_C ≤ 40 then
        let s1 := s.reach (t + 60000000000)
        State.emit { s1 with pwr := { s1.pwr with tripAt := none } } (.pin 2 false)
      else s
    | none => s)

/-- R724, R744. COOLANT_INLET_READING. -/
def execCoolantInletReading (temp : Nat) (s : State) : Host.Outcome State Fault Refusal :=
  .next (if s.primary.isSome && temp ≤ 0xFF then
      let s1 := s.fput Reg.PWR_THERM_STATUS Fld.PWR_THERM_STATUS_COOLANT_C temp
      if temp = 0xFF then s1
      else if 40 < temp then
        (if s1.pwr.inletHot then s1
         else State.report { s1 with pwr := { s1.pwr with inletHot := true } } 0x0C 0 { die := s1.trfDie, unit := 0x31 })
      else { s1 with pwr := { s1.pwr with inletHot := false } }
    else s)

end Sys2Proof.Machine
end

