-- ==== Sys2Proof/Machine/Startup.lean ====
section
/-!
DEFINITION. Start-up (spec/17 R697-R706), chain enumeration (R707-R711, R714), chip-number assignment (R712, R713), and the PCIe
endpoint's opening (R702).
-/
namespace Sys2Proof.Machine

open Sys2Proof

/-! ### Power-up (R508, R649, R697, R698) -/

/-- R508, R649, R777. What a power-up leaves: flash, fuses, feeds, the counts kept in flash, what P dies still have to report. -/
def State.poweredUp (s : State) : State :=
  let life := s.reg Reg.EVR_LIFE
  let cycles := satAdd (2 ^ 32 - 1) (Fld.EVR_LIFE_POWER_CYCLES.get life) 1
  let fs := Fld.PWR_FEED_STATUS_LAST_SWITCH_NS.put (Fld.PWR_FEED_STATUS_SWITCHES.put (s.reg Reg.PWR_FEED_STATUS) 0) 0
  let t : State :=
    { pending := s.pending
      mem := { hostW := s.mem.hostW, flash0 := s.mem.flash0, flash1 := s.mem.flash1 }
      clk := { now := s.clk.now, start := s.clk.now }
      pcie := { perst := s.pcie.perst }
      flt := { waiting := s.flt.waiting }
      evr := { s.evr with next0 := 0, next1 := 0, seen := 0, savedAt := s.clk.now }
      freeCtr := s.freeCtr
      out := s.out
      obs := { macKey0 := s.obs.macKey0, macKey1 := s.obs.macKey1 }
      trelfort := { fuse0 := s.trelfort.fuse0, fuse1 := s.trelfort.fuse1 }
      risk := { since := s.clk.now }
      pwr := { good := true, feedA := s.pwr.feedA, feedB := s.pwr.feedB, startAt := s.clk.now } }
  let u := ((((t.setReg Reg.EVR_LIFE (Fld.EVR_LIFE_POWER_CYCLES.put life cycles)).setReg Reg.PWR_FEED_STATUS fs).setReg Reg.PWR_FEED_MEAS
    (s.reg Reg.PWR_FEED_MEAS)).setReg Reg.PWR_FEED_CHECK (s.reg Reg.PWR_FEED_CHECK)).setReg Reg.PWR_START_CFG (s.reg Reg.PWR_START_CFG)
  (u.fput Reg.EVR_FLASH_STATUS Fld.EVR_FLASH_STATUS_FULL (if s.evr.full then 1 else 0)).showFlash

/-- R697, R698. POWER_UP: a feed is ACTIVE, and no trip is held. PWR_GOOD is asserted and start-up begins at step 2. -/
def execPowerUp (s : State) : Host.Outcome State Fault Refusal :=
  .next (if s.fed && !s.pwr.good && !s.pwr.tripped then (s.poweredUp.emit (.pin 1 true)).atStep 2 else s)

/-! ### Chain enumeration (R707-R711, R714) -/

/-- R707. CRC-8, polynomial 0x07, initial value 0: the steps of one byte. -/
def crc8Bits : Nat → Nat → Nat
  | 0, c => c
  | n + 1, c => crc8Bits n (if c ≥ 128 then (c * 2 ^^^ 0x107) % 256 else c * 2)
def crc8 (d : List Byte) : Nat := d.foldl (fun c b => crc8Bits 8 (c ^^^ b.toNat)) 0

/-- R707. A valid token. -/
def tokenOk (f : List Byte) (coded : Bool) : Bool :=
  coded && f.length == 5 && leAt f 0 1 == 0xD5 && leAt f 1 1 == 1 && leAt f 4 1 == crc8 ((f.drop 1).take 3)

/-- Fields of CHIP_ASSIGN. -/
def State.assign (s : State) (f : Fld) : Nat := s.fget Reg.MOD_CHIP_ASSIGN f

/-- R713, R714. The slot that the module holds. -/
def State.slot (s : State) : Option Nat :=
  if s.assign Fld.MOD_CHIP_ASSIGN_SLOT_OVR_EN = 1 then some (s.assign Fld.MOD_CHIP_ASSIGN_SLOT_OVR)
  else if s.fget Reg.MOD_ENUM_STATUS Fld.MOD_ENUM_STATUS_SLOT_VALID = 1 then some (s.fget Reg.MOD_ENUM_STATUS Fld.MOD_ENUM_STATUS_SLOT)
  else none

/-- R708, R709. The SLOT of the token that the module sends, if it sends one; 0xFF goes with OVER = 1. -/
def State.tokenOut (s : State) : Option Nat :=
  match s.slot with
  | some k => some (if k < 15 then k + 1 else 0xFF)
  | none => if s.fget Reg.MOD_ENUM_STATUS Fld.MOD_ENUM_STATUS_OVER = 1 then some 0xFF else none

/-- R708. The module sends its token. -/
def State.sendToken (s : State) : State :=
  match s.tokenOut with
  | some k => State.emit { s with pwr := { s.pwr with tokenAt := s.clk.now } } (.enumToken k)
  | none => s

/-- R335, R700. Discovery starts once a chip number is valid and start-up has trained the ports. -/
def State.beginDiscovery (s : State) : State :=
  if s.chip.isSome && s.fab.discStart.isNone && s.fget Reg.PWR_START_STATUS Fld.PWR_START_STATUS_READY = 1 then
    { s with fab := { s.fab with discStart := some s.clk.now } }
  else s

/-- R713. CHIP_NUMBER follows CHIP_ASSIGN and the slot. -/
def State.followChip (s : State) : State :=
  let k := s.slot
  let w := Fld.MOD_CHIP_NUMBER_GROUP.put
    (Fld.MOD_CHIP_NUMBER_MEMBER.put 0#64 (16 * s.assign Fld.MOD_CHIP_ASSIGN_RACK + k.getD 0)) (s.assign Fld.MOD_CHIP_ASSIGN_GROUP)
  let v := if s.assign Fld.MOD_CHIP_ASSIGN_VALID = 1 && k.isSome then 1 else 0
  ((s.setReg Reg.MOD_CHIP_NUMBER (Fld.MOD_CHIP_NUMBER_VALID.put w v)).beginDiscovery).advance

/-- R708. The primary reads ENUM_IN from step 3 on. -/
def State.enumerates (s : State) : Bool :=
  s.pwr.good && s.primary.isSome && (3 ≤ s.stepNo || s.fget Reg.PWR_START_STATUS Fld.PWR_START_STATUS_READY == 1)

/-- R708, R709. A token reaches a module that holds no slot. -/
def State.takeSlot (s : State) (slot : Nat) (beyond : Bool) : State :=
  if !beyond && slot ≤ 15 then
    (((s.fput Reg.MOD_ENUM_STATUS Fld.MOD_ENUM_STATUS_SLOT slot).fput Reg.MOD_ENUM_STATUS Fld.MOD_ENUM_STATUS_SLOT_VALID 1).followChip).sendToken
  else (s.fput Reg.MOD_ENUM_STATUS Fld.MOD_ENUM_STATUS_OVER 1).sendToken

/-- R711, R714. A token reaches a module that holds slot k. -/
def State.compareSlot (s : State) (k slot : Nat) : State :=
  if slot = k then s
  else ((s.fput Reg.MOD_ENUM_STATUS Fld.MOD_ENUM_STATUS_SLOT_CHANGED 1).bump Reg.MOD_ENUM_STATUS Fld.MOD_ENUM_STATUS_CHANGES 1).fput
    Reg.MOD_ENUM_STATUS Fld.MOD_ENUM_STATUS_LAST_RX slot

/-- R707-R711. A token on ENUM_IN. -/
def enumToken (s : State) (f : List Byte) (coded : Bool) : State :=
  let s1 : State := { s with pwr := { s.pwr with enumMove := true } }
  if tokenOk f coded then
    let s2 : State := { s1 with pwr := { s1.pwr with enumOk := true } }
    match s2.slot with
    | some k => s2.compareSlot k (leAt f 2 1)
    | none => s2.takeSlot (leAt f 2 1) (bitOf (leAt f 3 1) 0)
  else s1.bump Reg.MOD_ENUM_STATUS Fld.MOD_ENUM_STATUS_BAD_FRAMES 1

/-- R708. ENUM_TOKEN_RECEIVE. -/
def execEnumTokenReceive (frame : List Byte) (coded : Bool) (s : State) : Host.Outcome State Fault Refusal :=
  .next (if s.enumerates then enumToken s frame coded else s)

/-- R708. ENUM_TOKEN_SEND. -/
def execEnumTokenSend (s : State) : Host.Outcome State Fault Refusal :=
  .next (if s.enumerates && s.tokenOut.isSome then (s.reach (s.pwr.tokenAt + 10000000)).sendToken else s)

/-- A wait of START_CFG, in ns. -/
def State.waitNs (s : State) (f : Fld) : Nat := s.fget Reg.PWR_START_CFG f * 1000000000

/-- R710. ENUM_WAIT_EXPIRE. -/
def execEnumWaitExpire (s : State) : Host.Outcome State Fault Refusal :=
  .next (if s.stepNo = 3 && !s.pwr.enumOk then
      (s.reach (s.pwr.step3At + s.waitNs Fld.PWR_START_CFG_ENUM_WAIT_S)).fput Reg.MOD_ENUM_STATUS Fld.MOD_ENUM_STATUS_STUCK
        (if s.pwr.enumMove then 0 else 1)
    else s)

/-- R699. ASSIGN_WAIT_EXPIRE: both waits of step 3 have passed without a valid chip number. -/
def execAssignWaitExpire (s : State) : Host.Outcome State Fault Refusal :=
  .next (if s.stepNo = 3 && s.chip.isNone then
      let s1 := (s.reach (s.pwr.step3At + max (s.waitNs Fld.PWR_START_CFG_ENUM_WAIT_S) (s.waitNs Fld.PWR_START_CFG_ASSIGN_WAIT_S))).putBit
        Reg.PWR_START_STATUS 6 true
      State.advance (State.atStep { s1 with pwr := { s1.pwr with step4At := s1.clk.now } } 4)
    else s)

/-- R662, R699. LOCK_WAIT_EXPIRE: the primary's firmware turns PTP off. -/
def execLockWaitExpire (s : State) : Host.Outcome State Fault Refusal :=
  .next (if s.stepNo = 4 then
      let s1 := (s.reach (s.pwr.step4At + s.waitNs Fld.PWR_START_CFG_LOCK_WAIT_S)).putBit Reg.PWR_START_STATUS 5 true
      let s2 := s1.fput Reg.TIME_CFG Fld.TIME_CFG_PTP_EN 0
      let w := Fld.TIME_CFG_PTP_EN.put (tblGet regReset s2.inForce Reg.TIME_CFG) 0
      let s3 : State := { s2 with inForce := tblPut regReset s2.inForce Reg.TIME_CFG w }
      s3.ptpApplied.advance
    else s)

/-! ### Assignment and START_CFG (R701, R712-R714) -/

/-- The defined bits of a register, of a value written to it. -/
def definedBits (off : Nat) (v : Word) : Word :=
  match findReg off with
  | some (r, _, _) => r.fields.foldl (fun m fa => m ||| fa.1.mask) 0#64 &&& v
  | none => 0#64

/-- R712. A write of CHIP_ASSIGN would be accepted now. -/
def State.assignOpen (s : State) : Bool :=
  (1 ≤ s.stepNo && s.stepNo < 8) ||
    (List.range 8).all (fun r => s.fnState (0x30 + r) == fnSTOPPED || s.fnState (0x30 + r) == fnCHANGE)

/-- R712-R714. A write of CHIP_ASSIGN. -/
def chipAssign (s : State) (mgmt : Bool) (value : Word) : State :=
  if mgmt && s.assignOpen && Fld.MOD_CHIP_ASSIGN_GROUP.get value < 64 then
    let s1 := (s.setReg Reg.MOD_CHIP_ASSIGN (definedBits Reg.MOD_CHIP_ASSIGN value)).followChip
    if Fld.MOD_CHIP_ASSIGN_SLOT_OVR_EN.get value = 1 then s1.sendToken else s1
  else s.rejected Reg.MOD_CHIP_ASSIGN value.toNat none

/-- R713. CHIP_ASSIGN_WRITE. -/
def execChipAssignWrite (mgmt : Bool) (value : Word) (s : State) : Host.Outcome State Fault Refusal := .next (chipAssign s mgmt value)

/-- R701. A write of START_CFG. -/
def startCfg (s : State) (mgmt : Bool) (value : Word) : State :=
  if mgmt then s.setReg Reg.PWR_START_CFG (definedBits Reg.PWR_START_CFG value) else s.rejected Reg.PWR_START_CFG value.toNat none

/-- R701. START_CFG_WRITE. -/
def execStartCfgWrite (mgmt : Bool) (value : Word) (s : State) : Host.Outcome State Fault Refusal := .next (startCfg s mgmt value)

/-! ### Steps 5 to 10 (R697, R700-R706) -/

/-- R704-R706. Steps 5 and 6: the dies are released; a block that failed the scan stays in reset, fenced and reported. -/
def State.releaseDies (s : State) (failed : List Nat) (noScan : Bool) : State :=
  let s1 : State := { s with dark := failed }
  let s2 := failed.foldl (fun s b => (s.putBit Reg.ARR_FENCE_BLOCK b true).report 0x01 2 { die := b, unit := 0x08, blk := some b }) s1
  let s3 := s2.fput Reg.PWR_START_STATUS Fld.PWR_START_STATUS_SCAN_FAILED failed.length
  if noScan then (s3.putBit Reg.PWR_START_STATUS 4 true).report 0x04 0 { die := s3.trfDie, unit := 0x34 } else s3

/-- R410, R725. Step 7: stacks train; the stacks that a trip lost hold nothing, and every tag is OPEN. -/
def State.trainStacks (s : State) : State :=
  let lost := s.fget Reg.PWR_THERM_STATUS Fld.PWR_THERM_STATUS_LOST_STACKS
  { s with mem := ({ s.mem with
      hbm := tblDrop (fun a => bitOf lost (a / 2 ^ 36)) s.mem.hbm
      poison := s.mem.poison.filter (fun b => !bitOf lost (b / 2 ^ 30)) } : Mem).openTags }

/-- R702. Step 9: the BARs open, unless PERST# is asserted. -/
def State.openHost (s : State) : State :=
  if s.pcie.perst then s.putBit Reg.PWR_START_STATUS 3 true else { s with pcie := { s.pcie with bars := true } }

/-- R703. Persistent settings go into the configuration registers of functions 0x050 and 0x051 and of the MGMT rings. -/
def State.putSettings (s : State) (settings : List (Nat × Word)) (rings : List Nat) : State :=
  let offs := cfgOffs 0x50 ++ cfgOffs 0x51 ++ rings.flatMap (fun n => cfgOffs (sqFn n) ++ cfgOffs (cqFn n))
  settings.foldl (fun s e => if offs.contains e.1 then s.setReg e.1 (definedBits e.1 e.2) else s) s

/-- R703. A function is taken through CHANGE and RESTART. -/
def State.bringUp (s : State) (f : Nat) : State := (s.setFn f fnCHANGE).restartFn f

/-- R703. Step 10. -/
def State.services (s : State) (settings : List (Nat × Word)) (rings : List Nat) : State :=
  let s1 := ((s.putSettings settings rings).bringUp 0x50).bringUp 0x51
  rings.foldl (fun s n => (s.bringUp (cqFn (s.fget (Reg.RING_SQ_CFG n) Fld.RING_SQ_CFG_CQ))).bringUp (sqFn n)) s1

/-- R483, R612, R697, R703, R777. READY. -/
def State.ready (s : State) : State :=
  let s1 := ((((s.event 0x0107 { die := s.trfDie, unit := 0x30 }).fput Reg.MOD_RESET_STATUS Fld.MOD_RESET_STATUS_PHASE 1).putBit
    Reg.PWR_START_STATUS 7 true).atStep 0).fput Reg.PWR_START_STATUS Fld.PWR_START_STATUS_ELAPSED_MS ((s.clk.now - s.pwr.startAt) / 1000000)
  let s2 : State := match s1.hang.reset with
    | some _ =>
      let v := s1.fput Reg.MOD_RESET_STATUS Fld.MOD_RESET_STATUS_IN_PROGRESS 0
      let h : Hang := { v.hang with
        reset := none, toFlash := if v.hang.dumped then [0, 1] else [], dumped := false }
      State.event { v with hang := h } 0x0106 { die := s1.trfDie, unit := 0x30 }
    | none => s1
  let s3 := (State.emit { s2 with pwr := { s2.pwr with colds := 0 } } (.pin 3 true)).beginDiscovery
  let o := 1 - s3.primary.getD 0
  if s3.role o = rSTANDBY then s3 else s3.noStandby o

/-- R697, R703. STARTUP_READY: steps 5 to 10. -/
def execStartupReady (failed : List Nat) (noScan : Bool) (settings : List (Nat × Word)) (rings : List Nat) (s : State) :
    Host.Outcome State Fault Refusal :=
  .next (if s.stepNo = 5 && s.primary.isSome && s.pwr.good then
      let scan := s.fget Reg.PWR_START_CFG Fld.PWR_START_CFG_SCAN == 1
      let s1 := (s.releaseDies (if scan then dedup (failed.filter (· < 64)) else []) (scan && noScan)).trainStacks.openHost
      (s1.services settings (dedup (rings.filter (fun n => 224 ≤ n && n < 256)))).ready
    else s)

/-! ### The PCIe endpoint (R702) -/

/-- Step 2 has ended: the PCIe core is out of reset; and READY: step 9 has ended. -/
def State.pcieOut (s : State) : Bool := s.pwr.good && (3 ≤ s.stepNo || s.fget Reg.PWR_START_STATUS Fld.PWR_START_STATUS_READY == 1)

/-- R702. PCIE_CONFIG_REQUEST: Retry Status until step 9 ends; then a write of MSI-X Control takes effect, and a read returns what the
spec does not state (assumption 4). -/
def execPcieConfigRequest (req : CfgReq) (s : State) : Host.Outcome State Fault Refusal :=
  .next (if !(s.pcieOut && s.pcie.linkUp) then s
    else if s.fget Reg.PWR_START_STATUS Fld.PWR_START_STATUS_READY = 0 then s.emit (.cfgReply true 0)
    else match req with
      | .read _ => (s.drew 4).emit (.cfgReply false (leNat (freeBytes s 4)))
      | .msix enable fmask =>
        let s1 : State := { s with pcie := { s.pcie with msixEn := enable, fnMask := fmask } }
        let go := s1.pcie.pend.filter (fun v => enable && !fmask && !s1.pcie.vecMask.contains v)
        (go.foldl (fun s v => s.emit (.msix v)) ({ s1 with pcie := { s1.pcie with pend := s1.pcie.pend.filter (fun v => !go.contains v) } } : State)).emit
          (.cfgReply false 0)
      | .write _ _ => s.emit (.cfgReply false 0))

/-- R702. PCIE_LINK_UP: after step 9 the BARs open. -/
def execPcieLinkUp (s : State) : Host.Outcome State Fault Refusal :=
  .next (if s.pcieOut && !s.pcie.perst then
      let s1 : State := { s with pcie := { s.pcie with linkUp := true } }
      if s1.fget Reg.PWR_START_STATUS Fld.PWR_START_STATUS_READY = 1 then
        State.putBit { s1 with pcie := { s1.pcie with bars := true } } Reg.PWR_START_STATUS 3 false
      else s1
    else s)

end Sys2Proof.Machine
end

