-- ==== Sys2Proof/Machine/Cut.lean ====
section
/-!
DEFINITION. Cuts, their copy, manifest, fold and drain, and restoring (spec/13 R561-R596), with the piece store of the holders
(spec/12 R538, R539).
-/
namespace Sys2Proof.Machine

open Sys2Proof

/-! ### Taking a cut (R561-R568) -/

/-- The started descriptor (n, seq) has the opcode, has not begun and has no outcome. -/
def State.unbegun (s : State) (n seq op : Nat) : Option Started :=
  match s.findStarted n seq with
  | some d => if dOPCODE d.bytes = op && !d.begun && d.done.isNone then some d else none
  | none => none

/-- The descriptor is the first started one of the opcodes that has no outcome: its function runs them one at a time (R515, R561). -/
def State.inTurn (s : State) (ops : List Nat) (d : Started) : Bool :=
  match s.started.find? (fun x => x.fn == d.fn && ops.contains (dOPCODE x.bytes) && x.done.isNone) with
  | some x => x.ring == d.ring && x.seq == d.seq
  | none => false

/-- Every Sump copy engine is in RUN. -/
def State.sumpRuns (s : State) : Bool := (List.range 8).all (fun r => s.fnState (0x12 + 4 * r) == fnRUN)

/-- A RESTORE is running. -/
def State.restoring (s : State) : Bool := s.started.any (fun d => dOPCODE d.bytes == 0x4050 && d.done.isNone)

/-- R561, R562. OPTS of a CUT. -/
def cutOpt (b : List Byte) (i : Nat) : Bool := bitOf (leAt b 28 1) i

/-- R563. A CUT is refused. -/
def State.cutRefused (s : State) (b : List Byte) : Bool :=
  !s.sumpRuns || s.restoring || leAt b 24 4 == 0 || bitsOf (leAt b 28 1) 7 3 != 0 || !zeroBytes b 30 63

/-- R562. A conditional CUT is not due. -/
def State.cutNotDue (s : State) (b : List Byte) : Bool :=
  cutOpt b 2 && !(s.fget Reg.CKP_CUT_AT Fld.CKP_CUT_AT_VALID == 1 && s.fget Reg.CKP_CUT_AT Fld.CKP_CUT_AT_STEP == dSTEP b)

/-- R562, R565, R574, R578. The cut is taken: the tokens go out. -/
def State.takeCut (s : State) (d : Started) : State :=
  let b := d.bytes
  let valid := s.fget Reg.CKP_STATUS Fld.CKP_STATUS_SHADOW_VALID == 1
  let full := !valid || s.fget Reg.CKP_STATUS Fld.CKP_STATUS_FULL_NEXT == 1
  let c : Cut :=
    { ring := d.ring, seq := d.seq, step := dSTEP b, jobId := leAt b 24 4, trigger := leAt b 29 1, waitSeal := cutOpt b 0,
      waitDrain := cutOpt b 1, full := full, direct := !valid }
  let s1 := if cutOpt b 2 then s.fput Reg.CKP_CUT_AT Fld.CKP_CUT_AT_VALID 0 else s
  let s2 := if full then s1.bump Reg.CKP_STATUS Fld.CKP_STATUS_FULL_CUTS 1 else s1
  State.updStarted { s2 with sump := { s2.sump with cut := some c, tokens := List.range 8, held := [], delta := [] } } d.ring d.seq
    (fun x => { x with begun := true })

/-- R561-R565. CUT; FLAGS.PARAM set is a bad operand. A previous cut that still copies, folds or drains makes it wait (R564). -/
def cutDesc (s : State) (d : Started) : State :=
  if dPARAM d.bytes then s.setDone d.ring d.seq { status := stBAD_OPERAND, die := 0x50, unit := 0x30 }
  else if s.cutNotDue d.bytes then s.setDone d.ring d.seq { status := stSUCCESS, die := 0x50, unit := 0x30 }
  else if s.cutRefused d.bytes then s.setDone d.ring d.seq { status := stREFUSED, die := 0x50, unit := 0x30 }
  else if s.sump.cut.isSome || s.sump.sealed.isSome then s
  else s.takeCut d

/-- R565. The CUT command. -/
def execCut (n seq : Nat) (s : State) : Host.Outcome State Fault Refusal :=
  .next (match s.unbegun n seq 0x4030 with | some d => cutDesc s d | none => s)

/-- R433, R567. A Sump copy engine takes its next page: outside every range its bit is cleared, a pending page makes it wait, and its page
or unit is copied; with no page left the engine has finished. -/
def sumpCopy (s : State) (r : Nat) (c : Cut) : State :=
  match s.inactivePages r with
  | [] =>
    let s1 : State := { s with sump := { s.sump with cut := some { c with finished := c.finished ++ [r] } } }
    s1.sumpPhase r 0
  | page :: _ =>
    match s.protOfPage page with
    | none => (s.clearInactive page).countInactive r
    | some p => if (unitOf p page).any s.isPending then s else s.copyUnit p page

/-- R567. SUMP_COPY. -/
def execSumpCopy (r : Nat) (ecc : EccFinds) (z : State) : Host.Outcome State Fault Refusal :=
  let s := z.eccAll ecc
  .next (match s.sump.cut with
    | some c =>
      if c.swapped.contains r && !c.finished.contains r && s.fnState (0x12 + 4 * r) = fnRUN then sumpCopy s r c else s
    | none => s)

/-- R224, R568. Held write i may be admitted next: no page that it waits for is pending, no older read of its master waits for one of its
bursts, and no earlier held write shares a page. -/
def State.heldReady (s : State) (i : Nat) (w : HeldWrite) : Bool :=
  let ps := pagesOf w.key w.data.length
  !ps.any (fun p => match s.uncopied p with | some r => (unitOf r p).any s.isPending | none => false) &&
    !s.behindRead w.who w.stamp (burstsOf w.key w.data.length) && !(s.heldWr.take i).any (fun v => (pagesOf v.key v.data.length).any ps.contains)

/-- R568. HELD_WRITE_RELEASE: the pages that the write waits for are copied, and it is admitted. -/
def execHeldWriteRelease (ecc : EccFinds) (z : State) : Host.Outcome State Fault Refusal :=
  let s := z.eccAll ecc
  .next (match s.heldWr.zipIdx.find? (fun e => s.heldReady e.2 e.1) with
    | some (w, i) =>
      let s1 := (pagesOf w.key w.data.length).foldl (fun s p => match s.uncopied p with | some r => s.copyUnit r p | none => s) s
      (State.writePlain { s1 with heldWr := s1.heldWr.take i ++ s1.heldWr.drop (i + 1) } w.key w.data).serveWaiting
    | none => s)

/-! ### Holders and stripes (spec/12 R538, R539) -/

/-- Chip h of CONT.HOLDERS. -/
def State.holder (s : State) (h : Nat) : Nat :=
  let w := if h < 4 then s.cfg Reg.CONT_HOLDERS_LO Fld.CONT_HOLDERS_LO_H else if h < 8 then s.cfg Reg.CONT_HOLDERS_MID Fld.CONT_HOLDERS_MID_H
    else s.cfg Reg.CONT_HOLDERS_HI Fld.CONT_HOLDERS_HI_H
  bitsOf w (16 * (h % 4) + 15) (16 * (h % 4))

/-- R539. The area that serves an owner. -/
def holderArea (v : HolderView) (owner : Nat) : Option Nat :=
  (List.range 16).find? (fun a => match v.owners[a]? with
    | some w => Fld.CONT_PIECE_OWNER_VALID.get w == 1 && Fld.CONT_PIECE_OWNER_CHIP.get w == owner
    | none => false)

/-- R539. Bytes of a set, and where set j of area a begins. -/
def holderSetBytes (v : HolderView) : Nat := v.area * 2 ^ 19
def holderSetBase (v : HolderView) (a j : Nat) : Nat := v.base + a * v.area * 2 ^ 20 + j * holderSetBytes v

/-- The index bytes of set j. -/
def holderIndex (v : HolderView) (j : Nat) : List Byte := if j = 0 then v.index0 else v.index1

/-- R539, R581. The CUT_STEP of a set with a Cairn. -/
def holderCut (v : HolderView) (j : Nat) : Option Nat :=
  if leAt (holderIndex v j) 60 4 = cairn then some (leAt (holderIndex v j) 4 4) else none

/-- R539. The set that is valid for a cut of an owner. -/
def holderValidSet (v : HolderView) (owner step : Nat) : Option Nat :=
  [0, 1].find? (fun j => holderCut v j == some step && leAt (holderIndex v j) 0 2 == owner)

/-- What this module itself holds for an owner. -/
def State.ownView (s : State) (owner : Nat) : HolderView :=
  let v : HolderView :=
    { base := s.fget Reg.CONT_PIECE_BASE Fld.CONT_PIECE_BASE_BASE * 65536, area := s.fget Reg.CONT_PIECE_CFG Fld.CONT_PIECE_CFG_AREA_MIB,
      owners := (List.range 16).map (fun a => s.reg (Reg.CONT_PIECE_OWNER a)), index0 := [], index1 := [] }
  match holderArea v owner with
  | some a => { v with index0 := s.plainBytes (holderSetBase v a 0) 64, index1 := s.plainBytes (holderSetBase v a 1) 64 }
  | none => v

/-- What a chip shows as a holder: this module from its own memory, another through its mirror when there is a route. -/
def State.viewOf (s : State) (chip owner : Nat) (read : Option HolderView) : Option HolderView :=
  if s.chip = some chip then some (s.ownView owner) else if s.hasRoute 0 chip then read else none

/-- R580. The image bytes of image page ip, as the shadow holds them; zero past the image. -/
def State.imagePage (s : State) (ip : Nat) : List Byte :=
  match s.shadowOf ip with | some pl => s.mem.read pl 4096 | none => List.replicate 4096 0#8

/-- R538. Stripes of an image of n pages. -/
def stripesOf (n : Nat) : Nat := ceilDiv n 128

/-- R538. Multiplication by 2 in GF(2^8). -/
def gfDouble (c : Nat) : Nat := if c ≥ 128 then (c * 2) ^^^ 0x11D else c * 2

/-- R538. Sums of byte strings of one length, and P and Q of data pieces in order. -/
def xorBytes (a b : List Byte) : List Byte := List.zipWith (· ^^^ ·) a b
def parityP (ds : List (List Byte)) : List Byte := match ds with | [] => [] | d :: t => t.foldl xorBytes d
def parityQ (ds : List (List Byte)) : List Byte :=
  match ds.reverse with
  | [] => []
  | d :: t => t.foldl (fun q x => xorBytes (q.map (fun b => BitVec.ofNat 8 (gfDouble b.toNat))) x) d

/-! ### The Flowstone drain (R580-R585) -/

/-- Bytes of 64 KiB. -/
def pieceLen : Nat := 65536

/-- R581, R582. The set that the drain writes at a holder: the one with the lower CUT_STEP, where the holder has room. -/
def holderTarget (v : HolderView) (owner pages : Nat) : Option Nat :=
  match holderArea v owner with
  | none => none
  | some a =>
    if v.area = 0 || holderSetBytes v < pieceLen * (stripesOf pages + 1) then none
    else
      let key (j : Nat) : Nat := match holderCut v j with | some t => t + 1 | none => 0
      some (holderSetBase v a (if key 1 < key 0 then 1 else 0))

/-- A write of the drain to a holder on VC5, or to this module. -/
def State.pieceOut (s : State) (r chip addr : Nat) (d : List Byte) : State :=
  if s.chip = some chip then s.gwrite (.ledger r {}) 5 (ownAt (addr % 2 ^ 48)) d
  else s.send r { dst := chip, src := 0, kind := 0x03, gen := s.gen (0x12 + 4 * r), addr := addr % 2 ^ 48, body := d, vc := 5 }

/-- R544, R580. The Sump copy engine of die r reads a range of another module on VC5. -/
def State.askRead (s : State) (r : Nat) (who : Master) (chip off n : Nat) : State :=
  let t := s.newTag
  let s1 := t.2.addRead { tag := t.1, who := who, addr := chip * 2 ^ 48 + off, len := n, since := t.2.clk.now }
  s1.send r { readPacket who chip off n t.1 with vc := 5 }

/-- R416 steps 2 to 4. A whole page goes to a holder, and the CRC in the holder's tag area, at `tag`, is read back. -/
def State.pageSent (s : State) (r chip addr tag : Nat) (d : List Byte) : State :=
  let s1 := s.pieceOut r chip addr d
  if s1.chip = some chip then s1 else s1.askRead r (.ledger r {}) chip tag 4

/-- R416. A whole page with its tag to a holder. Where the CRC that is read back `differs` both times, the page goes twice, the tag does
not, and the page is reported (R412). -/
def State.pageOut (s : State) (r chip addr : Nat) (d : List Byte) (tag : Nat) (differs : Bool) : State :=
  match s.locOf (addr % 2 ^ 48) with
  | .hbm a =>
    let place := 0x010000000000 + tagPlace (a / 4096)
    let s1 := s.pageSent r chip addr place d
    if differs then
      ((s1.pageSent r chip addr place d).bump Reg.INTG_TAG_CNT Fld.INTG_TAG_CNT_MISMATCH 1).report 0x09 2
        { die := 0x40 + r, unit := 0x15, region := some r, vals := [chip, addr % 2 ^ 48] }
    else s1.pieceOut r chip place (leBytes 8 tag)
  | _ => s.pieceOut r chip addr d

/-- R581, R582. The drain starts: it chooses a set at each holder and clears its Cairn, or counts and reports the holder. -/
def State.startDrain (s : State) (c : Cut) (views : List (Option HolderView)) : State :=
  let own := s.fget Reg.MOD_CHIP_NUMBER ⟨15, 0⟩
  let pages := s.imageSize
  let ts := (List.range 10).map (fun h => if s.chip.isSome then (s.viewOf (s.holder h) own ((views[h]?).getD none)).bind (fun v => holderTarget v own pages) else none)
  let s1 := ((s.ckpPhase 3).fput Reg.CKP_DRAIN_STATUS Fld.CKP_DRAIN_STATUS_STRIPES 0)
  let s2 := ts.zipIdx.foldl (fun s e => match e.1 with
    | some b => s.pieceOut 0 (s.holder e.2) (b + 60) (leBytes 4 0)
    | none => (s.bump Reg.CKP_DRAIN_STATUS Fld.CKP_DRAIN_STATUS_MISSED 1).report 0x02 0 { die := s.trfDie, unit := 0x30, vals := [s.holder e.2] }) s1
  { s2 with sump := { s2.sump with sealed := some c, targets := ts } }

/-- R567, R580. A page of the shadow as the drain reads it, with its tag; none where its check fails (R412). -/
def State.drainPage (s : State) (step ip : Nat) : State × List Byte × Option Nat :=
  match s.shadowOf ip with
  | none => (s, List.replicate 4096 0#8, some (mkTag 0x30 step ip (crc32c (List.replicate 4096 0#8))))
  | some pl =>
    let x := s.sumpCheck (sumpCtx (pl / 2 ^ 36)) (pl / 4096)
    (x.1, s.mem.read pl 4096, match x.2 with | none => some (s.tag (pl / 4096)) | some _ => none)

/-- R580. A piece goes to its holder: its sixteen pages, each with its tag. `bad` are the pages, as holder, stripe and page of the
piece, whose CRCs differ (R416). -/
def State.drainPiece (s : State) (bad : List (Nat × Nat × Nat)) (r q h : Nat) (pages : List (List Byte × Option Nat)) : State :=
  match (s.sump.targets[h]?).getD none with
  | none => s
  | some b => pages.zipIdx.foldl (fun s e => match e.1.2 with
      | some t => s.pageOut r (s.holder h) (b + (q + 1) * pieceLen + 4096 * e.2) e.1.1 t (bad.contains (h, q, e.2))
      | none => s) s

/-- R580. Stripe q is drained by the engine whose stacks hold its first image byte. -/
def State.drainStripe (s : State) (bad : List (Nat × Nat × Nat)) (step q : Nat) : State :=
  let r := match s.shadowOf (128 * q) with | some pl => pl / 2 ^ 36 / 2 | none => 0
  let got := (List.range 128).foldl (fun (a : State × List (List Byte × Option Nat)) i =>
    let x := a.1.drainPage step (128 * q + i); (x.1, a.2 ++ [x.2])) (s, [])
  let data := chunksOf 16 8 got.2
  let ds := data.map (fun p => p.flatMap (·.1))
  let par (x : List Byte) : List (List Byte × Option Nat) :=
    (chunksOf 4096 16 x).map (fun d => (d, some (mkTag 0x31 step q (crc32c d))))
  let s1 := (data ++ [par (parityP ds), par (parityQ ds)]).zipIdx.foldl (fun s e => s.drainPiece bad r q e.2 e.1) got.1
  s1.bump Reg.CKP_DRAIN_STATUS Fld.CKP_DRAIN_STATUS_STRIPES 1

/-- R539, R581. The index page of a set, its Cairn last. -/
def State.drainIndex (s : State) (c : Cut) (h : Nat) : State :=
  match (s.sump.targets[h]?).getD none with
  | none => s
  | some b =>
    let d := leBytes 2 (s.fget Reg.MOD_CHIP_NUMBER ⟨15, 0⟩) ++ leBytes 1 h ++ leBytes 1 0 ++ leBytes 4 c.step ++ leBytes 4 (stripesOf s.imageSize) ++ leBytes 4 0 ++
      leBytes 8 (s.imageSize * 4096) ++ List.replicate 36 0#8
    (s.pieceOut 0 (s.holder h) b d).pieceOut 0 (s.holder h) (b + 60) (leBytes 4 cairn)

/-- R575. The address of the manifest of cut k. -/
def State.manifestAddr (s : State) (k : Nat) : Nat := s.cfg Reg.CKP_MANIFEST_BASE Fld.CKP_MANIFEST_BASE_BASE * 4096 + k % 8 * 4096

/-- R583. The image goes to host slot k mod 2, the manifest after it, its Cairn last. -/
def State.drainHost (s : State) : State :=
  if s.cfg Reg.CKP_HOST_CFG Fld.CKP_HOST_CFG_EN = 0 then s
  else
    let k := s.sump.ordinal
    let slot := s.cfg Reg.CKP_HOST_CFG Fld.CKP_HOST_CFG_SLOT_MIB * 2 ^ 20
    let base := s.cfg Reg.CKP_HOST_BASE Fld.CKP_HOST_BASE_BASE * 4096 + k % 2 * slot
    let loc := s.cfg Reg.CKP_HOST_CFG Fld.CKP_HOST_CFG_LOC == 1
    if slot < 4096 + s.imageSize * 4096 then s.bump Reg.CKP_DRAIN_STATUS Fld.CKP_DRAIN_STATUS_HOST_SKIPPED 1
    else
      let m := s.plainBytes (s.manifestAddr k) 4096
      let s1 := (List.range s.imageSize).foldl (fun s ip => s.ringWrite trfMaster loc (base + 4096 * (ip + 1)) (s.imagePage ip)) s
      (s1.ringWrite trfMaster loc base (m.take 4092)).ringWrite trfMaster loc (base + 4092) (m.drop 4092)

/-- R565. RESULT of a CUT that waited. -/
def cutResult (c : Cut) : Done := { status := stSUCCESS, result := c.copied % 2 ^ 32 * 2 ^ 32 + 1, die := 0x50, unit := 0x30 }

/-- R412. The class with which the drain fails: that of the first shadow page that fails its check, or of a page whose copy differs. -/
def State.drainFails (s : State) (bad : List (Nat × Nat × Nat)) : Option Nat :=
  match (List.range s.imageSize).findSome? (fun ip => match s.shadowOf ip with
      | some pl => (s.sumpCheck (sumpCtx (pl / 2 ^ 36)) (pl / 4096)).2
      | none => none) with
  | some cls => some cls
  | none => if bad.any (fun e => ((s.sump.targets[e.1]?).getD none).isSome) then some 0x09 else none

/-- R580-R583. The drain writes every stripe, the index pages and the host slot. A holder whose copy of a page differs gets no index, and
with a shadow page that fails its check the host gets no image. -/
def drainEnd (s : State) (c : Cut) (bad : List (Nat × Nat × Nat)) : State :=
  let s1 := (List.range (stripesOf s.imageSize)).foldl (fun s q => s.drainStripe bad c.step q) s
  let s2 := ((List.range 10).filter (fun h => !bad.any (·.1 == h))).foldl (fun s h => s.drainIndex c h) s1
  let s3 := (if (s.drainFails []).isSome then s2 else s2.drainHost).endDrain
  if c.waitDrain then s3.setDone c.ring c.seq (match s.drainFails bad with
    | some cls => { cutResult c with status := stFAULTED, cls := cls }
    | none => cutResult c) else s3

/-- R581. FLOWSTONE_DRAIN_END; `bad` are the pages whose copies differ (R416). -/
def execFlowstoneDrainEnd (bad : List (Nat × Nat × Nat)) (ecc : EccFinds) (z : State) : Host.Outcome State Fault Refusal :=
  let s := z.eccAll ecc
  .next (match s.sump.sealed with
    | some c => if s.fget Reg.CKP_STATUS Fld.CKP_STATUS_PHASE = 3 && s.sumpRuns then drainEnd s c bad else s
    | none => s)

/-! ### The manifest and the fold (R573-R577) -/

/-- R575. Bytes 0 to 4,091 of the manifest. -/
def State.manifestBytes (s : State) (c : Cut) : List Byte :=
  let inForce (o : Nat) : Nat := (tblGet regReset s.inForce o).toNat
  let b := leBytes 4 c.step ++ leBytes 4 c.jobId ++ leBytes 2 (s.fget Reg.MOD_CHIP_NUMBER ⟨15, 0⟩) ++ leBytes 1 c.trigger ++
    leBytes 1 (if c.full then 1 else 0) ++ leBytes 4 c.ruleVer ++ leBytes 8 (s.imageSize * 4096) ++ leBytes 4 c.copied ++
    leBytes 4 s.era ++ leBytes 4 s.timeNs ++ List.replicate 28 0#8 ++
    (List.range 32).flatMap (fun i => leBytes 8 (inForce (Reg.CKP_RANGE_A i)) ++ leBytes 8 (inForce (Reg.CKP_RANGE_B i)))
  let b4088 := b ++ List.replicate (4088 - b.length) 0#8
  b4088 ++ leBytes 4 (crc32c b4088)

/-- R576. The manifest of the cut is written, its Cairn last, and the cut is sealed. -/
def manifestSeal (s : State) (c : Cut) (views : List (Option HolderView)) : State :=
  let k := s.sump.ordinal + 1
  let a := s.manifestAddr k
  let w := ((s.gwrite trfMaster 1 (a + 4092) (leBytes 4 0)).gwrite trfMaster 1 a (s.manifestBytes c)).gwrite trfMaster 1 (a + 4092) (leBytes 4 cairn)
  let s1 : State := { w with sump := { w.sump with cut := none, ordinal := k } }
  let s2 := if c.direct then s1.fput Reg.CKP_STEPS Fld.CKP_STEPS_SHADOW_STEP c.step else s1.fput Reg.CKP_STEPS Fld.CKP_STEPS_DELTA_STEP c.step
  let s3 := (s2.fput Reg.CKP_STATUS Fld.CKP_STATUS_LAST_CUT c.step).fput Reg.CKP_STATUS Fld.CKP_STATUS_SHADOW_VALID 1
  let s4 := if c.full then s3.fput Reg.CKP_STATUS Fld.CKP_STATUS_FULL_NEXT 0 else s3
  let s5 := s4.event 0x0109 { die := s4.trfDie, unit := 0x30 }
  let s6 := if c.waitSeal && !c.waitDrain then s5.setDone c.ring c.seq (cutResult c) else s5
  if c.direct then s6.startDrain c views
  else
    let s7 := s6.ckpPhase 2
    { s7 with sump := { s7.sump with sealed := some c } }

/-- R576. MANIFEST_SEAL: every engine has finished its copy. -/
def execManifestSeal (views : List (Option HolderView)) (ecc : EccFinds) (z : State) : Host.Outcome State Fault Refusal :=
  let s := z.eccAll ecc
  .next (match s.sump.cut with
    | some c => if c.finished.length = 8 && s.primary.isSome then manifestSeal s c views else s
    | none => s)

/-- R573. The shadow holds the cut whose delta was folded. With a delta page that fails its check (R412) it holds no cut, and the next is
full. -/
def State.folded (s : State) (t : Nat) : State × Option Nat :=
  match s.foldAll t with
  | (s1, none) => ((s1.fput Reg.CKP_STEPS Fld.CKP_STEPS_SHADOW_STEP t).fput Reg.CKP_STEPS Fld.CKP_STEPS_DELTA_STEP 0xFFFFFFFF, none)
  | (s1, some cls) =>
    ((s1.clearDeltas.fput Reg.CKP_STATUS Fld.CKP_STATUS_SHADOW_VALID 0).fput Reg.CKP_STEPS Fld.CKP_STEPS_DELTA_STEP 0xFFFFFFFF, some cls)

/-- R573, R580. The fold of a cut ends, and the drain begins; a fold that failed ends the cut. -/
def State.foldEnd (s : State) (c : Cut) (views : List (Option HolderView)) : State :=
  match s.folded c.step with
  | (s1, none) => s1.startDrain c views
  | (s1, some cls) => if c.waitDrain then s1.endDrain.setDone c.ring c.seq { cutResult c with status := stFAULTED, cls := cls } else s1.endDrain

/-- R573, R580, R597. FOLD_END: the fold ends with the engines in RUN, and the drain begins. -/
def execFoldEnd (views : List (Option HolderView)) (ecc : EccFinds) (z : State) : Host.Outcome State Fault Refusal :=
  let s := z.eccAll ecc
  .next (match s.sump.sealed with
    | some c => if s.fget Reg.CKP_STATUS Fld.CKP_STATUS_PHASE = 2 && s.sumpRuns then s.foldEnd c views else s
    | none => s)

/-! ### RESTORE_SELECT (R588-R591) -/

/-- R577. A manifest is valid, and carries a step and a job. -/
def manifestOf (m : List Byte) (step job : Nat) : Bool :=
  leAt m 4092 4 == cairn && leAt m 4088 4 == crc32c (m.take 4088) && leAt m 0 4 == step && leAt m 4 4 == job

/-- R589. What this module shows of itself. -/
def State.ownMod (s : State) (views : List (Option HolderView)) : ModView :=
  { steps := s.reg Reg.CKP_STEPS, status := s.reg Reg.CKP_STATUS, manifests := (List.range 8).map (fun i => s.plainBytes (s.manifestAddr i) 4096),
    holders := (List.range 10).map s.holder, views := views }

/-- R589. Steps of a module's Sump with a valid manifest of the job. -/
def modLocalSteps (m : ModView) (job : Nat) : List Nat :=
  let sh := if Fld.CKP_STATUS_SHADOW_VALID.get m.status = 1 then [Fld.CKP_STEPS_SHADOW_STEP.get m.steps] else []
  let de := if Fld.CKP_STEPS_DELTA_STEP.get m.steps = 0xFFFFFFFF then [] else [Fld.CKP_STEPS_DELTA_STEP.get m.steps]
  (sh ++ de).filter (fun t => m.manifests.any (fun x => manifestOf x t job))

/-- Insert a step, newest first, without repetition. -/
def insertStep (t : Nat) : List Nat → List Nat
  | [] => [t]
  | u :: l => if t = u then u :: l else if t > u then t :: u :: l else u :: insertStep t l

/-- R589. Steps for which at least eight holders of a module hold a valid set. -/
def State.heldSteps (s : State) (owner : Nat) (m : ModView) : List Nat :=
  let vs := (List.range 10).filterMap (fun h => s.viewOf (m.holders.getD h 0) owner ((m.views[h]?).getD none))
  let ok (v : HolderView) (t : Nat) : Bool := (holderArea v owner).isSome && (holderValidSet v owner t).isSome
  let all := vs.flatMap (fun v => [0, 1].filterMap (holderCut v))
  (dedup all).filter (fun t => 8 ≤ (vs.filter (fun v => ok v t)).length)

/-- A module of the list: its chip, whether it is LOST, its available steps newest first, and those of its Sump. -/
structure Avail where
  chip  : Nat
  steps : List Nat
  local_ : List Nat
  deriving DecidableEq, Repr

/-- R588, R589. Entry i of the list. -/
def State.availOf (s : State) (job i : Nat) (b : List Byte) (m : ModView) : Avail :=
  let e := (b.drop (24 * i)).take 24
  let chip := leAt e 0 2
  let lost := bitOf (leAt e 2 2) 0
  let x : ModView := if lost then { m with holders := chunksOf 2 10 (e.drop 4) |>.map leNat } else if s.chip = some chip then s.ownMod m.views else m
  let own := if lost then [] else modLocalSteps x job
  { chip := chip, steps := (own ++ s.heldSteps chip x).foldl (fun l t => insertStep t l) [], local_ := own }

/-- R590. The newest step that every module has. -/
def commonStep (l : List Avail) : Option Nat :=
  match l with
  | [] => none
  | a :: t => a.steps.find? (fun k => t.all (fun x => x.steps.contains k))

/-- R590. Every module has the same newest step. -/
def sameNewest (l : List Avail) : Bool := match l with | [] => false | a :: t => a.steps.head?.isSome && t.all (fun x => x.steps.head? == a.steps.head?)

/-- R591. The entry of a module. -/
def availEntry (a : Avail) (t : Option Nat) : List Byte :=
  let top := a.steps.take 15
  let loc := match t with | some k => a.local_.contains k | none => false
  leBytes 2 a.chip ++ leBytes 1 top.length ++ leBytes 1 (if loc then 1 else 0) ++ top.flatMap (leBytes 4) ++ List.replicate (60 - 4 * top.length) 0#8

/-- R588. RESTORE_SELECT has bad operands. -/
def selectBad (b : List Byte) : Bool :=
  dPARAM b || leAt b 28 4 == 0 || 32768 < leAt b 28 4 || leAt b 32 8 % 8 != 0 || leAt b 40 8 % 64 != 0 || !zeroBytes b 48 63

/-- R588-R591. RESTORE_SELECT; `ext` are the bytes of a list that lies in another module. -/
def selectDesc (s0 : State) (d : Started) (mods : List ModView) (ext : List Byte) : State :=
  let b := d.bytes
  let who : Master := .service (originOfDesc d.ring d.seq b)
  let q := s0.extRead who true (leAt b 32 8) (24 * leAt b 28 4) ext
  let s := q.1
  let fin (s : State) (x : Done) : State := s.setDone d.ring d.seq { x with die := 0x50, unit := 0x30 }
  if selectBad b then fin s0 { status := stBAD_OPERAND }
  else
    let n := leAt b 28 4
    let list := q.2
    let av := (List.range n).map (fun i => s.availOf (leAt b 24 4) i list (mods.getD i { steps := 0#64, status := 0#64, manifests := [], holders := [], views := [] }))
    let t := commonStep av
    let s1 := s.gwrite who 1 (leAt b 40 8) (av.flatMap (fun a => availEntry a t))
    let mixed := !sameNewest av
    let s2 := if mixed then
        (s1.bump Reg.CKP_RESTORE_STATUS Fld.CKP_RESTORE_STATUS_MIXED 1).report 0x10 0
          { ctxOf d.ring b s1.trfDie 0x30 with vals := [t.getD 0] } else s1
    match t with
    | some k => fin (s2.fput Reg.CKP_RESTORE_STATUS Fld.CKP_RESTORE_STATUS_STEP k)
        { status := stSUCCESS, result := k + if mixed then 2 ^ 32 else 0 }
    | none => fin s2 { status := stFAULTED, cls := 0x10 }

/-- R590. The RESTORE_SELECT command. -/
def execRestoreSelect (n seq : Nat) (mods : List ModView) (list : List Byte) (ecc : EccFinds) (z : State) : Host.Outcome State Fault Refusal :=
  let s := z.eccAll ecc
  .next (match s.unbegun n seq 0x4058 with | some d => selectDesc s d mods list | none => s)

/-! ### RESTORE (R592-R596) -/

/-- R592. Operands of a RESTORE. -/
structure RestoreP where
  source : Nat
  step   : Nat
  addr   : Nat
  off    : Nat
  len    : Nat
  deriving DecidableEq, Repr

def State.restoreP (s : State) (b : List Byte) : RestoreP where
  source := leAt b 24 1
  step := leAt b 28 4
  addr := leAt b 32 8
  off := leAt b 40 8
  len := if leAt b 48 8 = 0 then s.imageSize * 4096 - leAt b 40 8 else leAt b 48 8

/-- R592. An image offset at which a RESTORE may begin or end: a page, and a unit within a NARROW range. -/
def State.restoreEdge (s : State) (off : Nat) : Bool :=
  off % 4096 == 0 && s.prots.all (fun r => !r.narrow || off < s.imageBase r * 4096 || (s.imageBase r + r.imagePages) * 4096 ≤ off ||
    (off - s.imageBase r * 4096) % 16384 == 0)

/-- R592. RESTORE has bad operands. -/
def State.restoreBad (s : State) (b : List Byte) : Bool :=
  let p := s.restoreP b
  dPARAM b || 1 < p.source || !zeroBytes b 25 27 || !zeroBytes b 56 63 || (p.source == 0 && p.addr != 0) || p.addr % 4096 != 0 ||
    s.imageSize * 4096 < p.off + p.len || !s.restoreEdge p.off || !s.restoreEdge (p.off + p.len)

/-- R593. Functions that must be in STOPPED or CHANGE. -/
def restoreFns : List Nat := 0 :: ((List.range 8).flatMap (fun r => [0x10 + 4 * r, 0x11 + 4 * r])) ++ (List.range 16).map (0x40 + ·)

/-- R593. RESTORE is refused: some function runs, or the Sump does not hold the cut. -/
def State.restoreRefused (s : State) (p : RestoreP) : Option Done :=
  if restoreFns.any (fun f => s.fnState f != fnSTOPPED && s.fnState f != fnCHANGE) then some { status := stREFUSED }
  else if p.source = 0 && (s.fget Reg.CKP_STATUS Fld.CKP_STATUS_SHADOW_VALID = 0 ||
      (s.fget Reg.CKP_STEPS Fld.CKP_STEPS_SHADOW_STEP != p.step && s.fget Reg.CKP_STEPS Fld.CKP_STEPS_DELTA_STEP != p.step)) then
    some { status := stREFUSED, result := s.fget Reg.CKP_STEPS Fld.CKP_STEPS_SHADOW_STEP }
  else none

/-- R594. An image page as RESTORE reads it: a tag check on this module, the bytes given where the image lies in another. -/
def State.restoreRead (s : State) (p : RestoreP) (ext : List Byte) (ip : Nat) : State × Option Nat × List Byte :=
  let place := if p.source = 0 then s.shadowOf ip else s.placeOf (p.addr + 4096 * ip)
  match place with
  | some pl =>
    let y := s.sumpCheck (sumpCtx (pl / 2 ^ 36)) (pl / 4096)
    (y.1, y.2, s.mem.read pl 4096)
  | none => (s, none, (ext.drop (4096 * ip - p.off) ++ List.replicate 4096 0#8).take 4096)

/-- R594. Source pages written and sealed with the fields of their range. -/
def State.restorePages (s : State) (r : Prot) (step j : Nat) (d : List Byte) : State :=
  (chunksOf 4096 (d.length / 4096) d).zipIdx.foldl (fun s e =>
    (s.writeSump ((r.page0 + j + e.2) * 4096) e.1).sealSump (r.page0 + j + e.2) r.fmt step (r.idBase + j + e.2)) s

/-- R594. One page, or one unit of a NARROW range, from image page ip on; the class of a failed check stops the RESTORE. -/
def State.restoreUnit (s : State) (p : RestoreP) (step : Nat) (ext : List Byte) (r : Prot) (k : Nat) : State × Option Nat :=
  let ips := if r.narrow then (List.range 4).map (s.imageBase r + 4 * k + ·) else [s.imageBase r + k]
  let got := ips.foldl (fun (a : State × Option Nat × List Byte) ip => match a.2.1 with
    | some _ => a
    | none => let x := a.1.restoreRead p ext ip; (x.1, x.2.1, a.2.2 ++ x.2.2)) (s, none, [])
  match got.2.1 with
  | some c => (got.1, some c)
  | none => (if r.narrow then got.1.restorePages r step (5 * k) (widenUnit got.2.2) else got.1.restorePages r step k got.2.2, none)

/-- R592. The pages or units of a range that the image range covers. -/
def State.restoreSet (s : State) (p : RestoreP) (r : Prot) : List Nat :=
  let w := if r.narrow then 4 else 1
  (List.range (r.imagePages / w)).filter (fun k =>
    p.off ≤ (s.imageBase r + w * k) * 4096 && (s.imageBase r + w * k + w) * 4096 ≤ p.off + p.len)

/-- Source pages that a RESTORE writes. -/
def State.restoreCount (s : State) (p : RestoreP) : Nat :=
  (s.prots.map (fun r => (s.restoreSet p r).length * (if r.narrow then 5 else 1))).sum

/-- R595. The whole image. -/
def State.restoreWhole (s : State) (p : RestoreP) : Bool := p.off == 0 && p.len == s.imageSize * 4096

/-- R595. A finished RESTORE: the dirty banks after a whole one, and SHADOW_VALID. -/
def State.restoreOver (s : State) (p : RestoreP) : State :=
  let s1 : State := if s.restoreWhole p then
      (List.range 8).foldl (fun s r => s.countInactive r) { s with mem := { s.mem with dirty := [] } } else s
  if s.restoreWhole p && p.source = 0 then s1 else s1.fput Reg.CKP_STATUS Fld.CKP_STATUS_SHADOW_VALID 0

/-- R593. What a RESTORE stops or finishes first: an unsealed copy, a drain, and the fold of the cut that it takes from the delta. -/
def State.restoreBegin (s : State) (p : RestoreP) : State × Option Nat :=
  let s1 := s.stopCut.stopDrain
  if p.source = 0 && s1.fget Reg.CKP_STEPS Fld.CKP_STEPS_DELTA_STEP = p.step then
    let q := s1.folded p.step
    ({ q.1 with sump := { q.1.sump with sealed := none } }, q.2)
  else (s1, none)

/-- R594. The units that a RESTORE covers, in order, and the source pages of one. -/
def State.restoreUnits (s : State) (p : RestoreP) : List (Prot × Nat) := s.prots.flatMap (fun r => (s.restoreSet p r).map (fun k => (r, k)))
def restoreInto (u : Prot × Nat) : List Nat := if u.1.narrow then (List.range 5).map (u.1.page0 + 5 * u.2 + ·) else [u.1.page0 + u.2]

/-- R596. A RESTORE that is stopped leaves its range indeterminate. -/
def State.restoreLoose (s : State) (us : List (Prot × Nat)) : State :=
  (us.flatMap restoreInto).foldl (fun s g => s.looseAt (g * 4096) 4096) s

/-- R592-R596. RESTORE; it waits for a running fold (R593) and for pending pages of its image (R433). -/
def restoreDesc (s : State) (d : Started) (ext : List Byte) : State :=
  let b := d.bytes
  let p := s.restoreP b
  let fin (s : State) (x : Done) : State := s.setDone d.ring d.seq { x with die := 0x50, unit := 0x30 }
  if s.restoreBad b then fin s { status := stBAD_OPERAND }
  else match s.restoreRefused p with
    | some x => fin s x
    | none =>
      if s.sump.sealed.isSome && s.fget Reg.CKP_STATUS Fld.CKP_STATUS_PHASE = 2 && s.sumpRuns then s
      else if p.source = 1 && s.pendingIn (p.addr + p.off) p.len then s
      else match s.restoreBegin p with
        | (s1, some c) => fin (s1.ckpPhase 0) { status := stFAULTED, cls := c }
        | (s1, none) =>
          let q := foldChecks s1 (fun s (u : Prot × Nat) => s.restoreUnit p (dSTEP b) ext u.1 u.2) (s1.restoreUnits p)
          match q.2 with
          | some c => fin ((q.1.restoreLoose (s1.restoreUnits p)).ckpPhase 0) { status := stFAULTED, cls := c }
          | none => fin (((q.1.restoreOver p).ckpPhase 0).bump Reg.CKP_RESTORE_STATUS Fld.CKP_RESTORE_STATUS_RESTORES 1)
              { status := stSUCCESS, result := s1.restoreCount p % 2 ^ 32 }

/-- R594. The RESTORE command. -/
def execRestore (n seq : Nat) (ext : List Byte) (ecc : EccFinds) (z : State) : Host.Outcome State Fault Refusal :=
  let s := z.eccAll ecc
  .next (match s.unbegun n seq 0x4050 with | some d => restoreDesc s d ext | none => s)

end Sys2Proof.Machine
end

