-- ==== Sys2Proof/Machine/Cont.lean ====
section
/-!
DEFINITION. Job continuity: the Caddy log and its buddies, the spread map, and rebuilding from pieces (spec/12 R515-R544).
-/
namespace Sys2Proof.Machine

open Sys2Proof

/-! ### Caddy records (R516-R518) -/

/-- R517, R526. The slot of a step in the Caddy ring, and in half k of the buddy area. -/
def State.caddySlot (s : State) (t : Nat) : Nat := s.cfg Reg.CONT_CADDY_BASE Fld.CONT_CADDY_BASE_BASE * 4096 + t % 65536 * 4096
def State.buddySlot (s : State) (k t : Nat) : Nat :=
  s.cfg Reg.CONT_BUDDY_BASE Fld.CONT_BUDDY_BASE_BASE * 4096 + k * 2 ^ 28 + t % 65536 * 4096

/-- R518. A record is valid for a step and a job. -/
def caddyValid (m : List Byte) (t j : Nat) : Bool :=
  leAt m 4092 4 == cairn && leAt m 4088 4 == crc32c (m.take 4088) && leAt m 0 4 == t && leAt m 4 4 == j

/-- R516. LOSS_DIGEST and GLOBAL_LOSS of a record. -/
def caddyDigest (m : List Byte) : Nat := leAt m 24 8
def caddyGlobal (m : List Byte) : Bool := bitOf (leAt m 56 1) 0

/-- R516, R519. Fields of a record image that software leaves zero. -/
def caddyImageZero (p : List Byte) : Bool :=
  zeroBytes p 0 3 && zeroBytes p 8 9 && zeroBytes p 12 31 && zeroBytes p 48 63 && zeroBytes p 4080 4095

/-- R519. CADDY_RECORD has bad operands. -/
def State.caddyBad (s : State) (d : Started) : Bool :=
  let b := d.bytes
  let p := d.param
  !dPARAM b || p.length != 4096 || bitsOf (leAt b 36 1) 7 1 != 0 || !zeroBytes b 37 39 || leAt b 40 4 == 0 || 16777216 < leAt b 40 4 ||
    !zeroBytes b 44 47 || leAt b 48 8 % 64 != 0 || !s.inOwnMem (leAt b 48 8) (leAt b 40 4) || !zeroBytes b 56 63 ||
    251 < leAt p 10 2 || leAt p 4 4 == 0 || !caddyImageZero p

/-- R516, R523. The record of a descriptor, with what the module fills in. -/
def State.caddyBytes (s : State) (d : Started) (digest : Nat) : List Byte :=
  let p := d.param
  let spread := s.fget Reg.CONT_SPREAD_STATUS Fld.CONT_SPREAD_STATUS_APPLIED + s.cfg Reg.CONT_SPREAD_CFG Fld.CONT_SPREAD_CFG_VERSION * 65536
  let r := leBytes 4 (dSTEP d.bytes) ++ (p.drop 4).take 4 ++ leBytes 2 s.ownChip ++ (p.drop 10).take 2 ++ leBytes 4 s.ruleVer ++
    leBytes 4 spread ++ leBytes 4 (s.fget Reg.CKP_STATUS Fld.CKP_STATUS_LAST_CUT) ++ leBytes 8 digest ++ (p.drop 32).take 16 ++
    leBytes 4 s.era ++ leBytes 4 s.timeNs ++ leBytes 1 (leAt d.bytes 36 1 % 2) ++ (p.drop 57).take 4031
  r ++ leBytes 4 (crc32c r) ++ leBytes 4 cairn

/-- R523. A record is written in three ordered writes. -/
def State.putCaddy (s : State) (a : Nat) (m : List Byte) : State :=
  ((s.gwrite trfMaster 1 (a + 4092) (leBytes 4 0)).gwrite trfMaster 1 a (m.take 4092)).gwrite trfMaster 1 (a + 4092) (leBytes 4 cairn)

/-- R524, R527. A difference is counted and reported, naming the step and the other chip. -/
def State.caddyMismatch (s : State) (c : Ctx) (vals : List Nat) : State :=
  (s.bump Reg.CONT_CADDY_STATUS Fld.CONT_CADDY_STATUS_MISMATCH 1).report 0x0F 2 { c with vals := vals }

/-- R527. Two records of a step and a job, both with GLOBAL_LOSS, differ. -/
def caddyDiffer (m other : List Byte) : Bool :=
  caddyValid other (leAt m 0 4) (leAt m 4 4) && caddyGlobal m && caddyGlobal other && caddyDigest m != caddyDigest other

/-! ### The buddies (R525-R528) -/

/-- R525, R526. The chip of buddy k, and the sender accepted into half k. -/
def State.buddy (s : State) (k : Nat) : Nat :=
  if k = 0 then s.cfg Reg.CONT_BUDDY Fld.CONT_BUDDY_BUDDY0 else s.cfg Reg.CONT_BUDDY Fld.CONT_BUDDY_BUDDY1
def State.buddySrc (s : State) (k : Nat) : Nat :=
  if k = 0 then s.cfg Reg.CONT_BUDDY Fld.CONT_BUDDY_SRC0 else s.cfg Reg.CONT_BUDDY Fld.CONT_BUDDY_SRC1

/-- R528. A copy that was not written is counted and reported. -/
def State.buddyMiss (s : State) (k : Nat) : State :=
  (s.bump Reg.CONT_CADDY_STATUS Fld.CONT_CADDY_STATUS_BUDDY_MISS 1).report 0x02 0 { die := s.trfDie, unit := 0x30, vals := [s.buddy k] }

/-- A copy was written: OUTCOME 0 or 1. -/
def caddyWritten : Option Nat → Bool
  | some o => o ≤ 1
  | none => false

/-- R528. A write-mode CADDY_RECORD completes. -/
def State.caddyOver (s : State) (c : CaddyRun) : State :=
  let missed := (List.range c.acks.length).filter (fun k => !caddyWritten ((c.acks[k]?).getD none))
  let s1 := missed.foldl State.buddyMiss s
  let fin : Done := { status := stSUCCESS, result := c.digest, die := 0x50, unit := 0x30 }
  let x : Done := if c.differs || c.acks.contains (some 1) then { fin with status := stFAULTED, cls := 0x0F }
    else if !c.acks.isEmpty && missed.length == c.acks.length then { fin with status := stFAULTED, cls := 0x02 } else fin
  State.setDone { s1 with caddy := none } c.ring c.seq x

/-- R528. The record waits for its copies. -/
def State.caddyAwait (s : State) (c : CaddyRun) : State :=
  if c.acks.all (·.isSome) then s.caddyOver c else { s with caddy := some c }

/-- R523, R525, R527. The record is written, compared with the copies held, and sent to the buddies. -/
def State.caddyWrite (s : State) (d : Started) (digest : Nat) : State :=
  let t := dSTEP d.bytes
  let m := s.caddyBytes d digest
  let s1 := (s.putCaddy (s.caddySlot t) m).fput Reg.CONT_CADDY_STATUS Fld.CONT_CADDY_STATUS_LAST_STEP t
  let bad := [0, 1].filter (fun k => caddyDiffer m (s1.plainBytes (s1.buddySlot k t) 4096))
  let s2 := bad.foldl (fun s k => s.caddyMismatch (ctxOf d.ring d.bytes s.trfDie 0x30) [t, s.buddySrc k]) s1
  let n := s2.cfg Reg.CONT_CADDY_CFG Fld.CONT_CADDY_CFG_COPIES
  let s3 := (List.range n).foldl (fun s k => s.send 0 { dst := s.buddy k, src := 0, kind := 0x3C, gen := s.gen 0x50, addr := k, body := m, vc := 1 }) s2
  let s4 := s3.updStarted d.ring d.seq (fun x => { x with begun := true })
  s4.caddyAwait { ring := d.ring, seq := d.seq, step := t, digest := digest, sentAt := s4.clk.now, acks := List.replicate n none, differs := !bad.isEmpty }

/-- R524. The new record is compared with the logged one. -/
def State.caddyCompare (s : State) (d : Started) (digest : Nat) (old : List Byte) : State :=
  let t := dSTEP d.bytes
  let s1 := s.fput Reg.CONT_CADDY_STATUS Fld.CONT_CADDY_STATUS_LAST_STEP t
  let fin : Done := { status := stSUCCESS, result := digest, die := 0x50, unit := 0x30 }
  if (d.param.drop 32).take 16 != (old.drop 32).take 16 || leAt old 12 4 != s.ruleVer then
    (s1.bump Reg.CONT_CADDY_STATUS Fld.CONT_CADDY_STATUS_MISMATCH 1).setDone d.ring d.seq { fin with status := stBAD_OPERAND }
  else if caddyDigest old != digest then
    (s1.caddyMismatch (ctxOf d.ring d.bytes s1.trfDie 0x30) [t]).setDone d.ring d.seq { fin with status := stFAULTED, cls := 0x0F }
  else s1.setDone d.ring d.seq fin

/-- R519-R524. CADDY_RECORD: it reads the loss buffer with tag checks (R520), and waits while a page of it is pending. -/
def caddyDesc (s : State) (d : Started) : State :=
  let b := d.bytes
  if s.caddyBad d then s.setDone d.ring d.seq { status := stBAD_OPERAND, die := 0x50, unit := 0x30 }
  else if s.pendingIn (leAt b 48 8) (leAt b 40 4) then s
  else match s.awareCheck (ctxOf d.ring b s.trfDie 0x30) (leAt b 48 8) (leAt b 40 4) none none with
    | (s1, some c) => s1.setDone d.ring d.seq { status := stFAULTED, cls := c, die := 0x50, unit := 0x30 }
    | (s1, none) =>
      let digest := crc64 (s1.gread (leAt b 48 8) (leAt b 40 4))
      let old := s1.plainBytes (s1.caddySlot (dSTEP b)) 4096
      if caddyValid old (dSTEP b) (leAt d.param 4 4) then s1.caddyCompare d digest old else s1.caddyWrite d digest

/-- R515. The CONT operations run one at a time, in order. -/
def caddyOps : List Nat := [0x4001, 0x4010]

/-- R522. The CADDY_RECORD command. -/
def execCaddyRecord (n seq : Nat) (ecc : EccFinds) (z : State) : Host.Outcome State Fault Refusal :=
  let s := z.eccAll ecc
  .next (match s.unbegun n seq 0x4001 with | some d => if s.inTurn caddyOps d then caddyDesc s d else s | none => s)

/-- R525. The body of a CADDY_ACK. -/
def caddyAckBody (step k outcome : Nat) : List Byte := leBytes 4 step ++ leBytes 1 k ++ leBytes 1 outcome ++ List.replicate 10 0#8

/-- R528. A comparison with the record of step t found a difference before its CADDY_RECORD completes. -/
def State.caddyDiffers (s : State) (t : Nat) : State :=
  match s.caddy with
  | some c => if c.step = t then { s with caddy := some { c with differs := true } } else s
  | none => s

/-- R526, R527. A copy arrives: it is written and compared, or dropped. -/
def caddyTake (s : State) (k : Packet) : State :=
  let t := leAt k.body 0 4
  let say (s : State) (o : Nat) : State := s.answer 0 k 0x3D 0 (caddyAckBody t k.addr o)
  if 1 < k.addr || k.src != s.buddySrc k.addr then say s 2
  else
    let s1 := s.putCaddy (s.buddySlot k.addr t) k.body
    let own := s1.plainBytes (s1.caddySlot t) 4096
    if caddyDiffer k.body own then say ((s1.caddyMismatch { die := s1.trfDie, unit := 0x30 } [t, k.src]).caddyDiffers t) 1 else say s1 0

/-- R526. CADDY_COPY. -/
def execCaddyCopy (pkt : Packet) (s : State) : Host.Outcome State Fault Refusal :=
  .next (if pkt.kind = 0x3C then (match s.take pkt with | some s1 => caddyTake s1 pkt | none => s) else s)

/-- R528. The answer to copy k of the record of a step. -/
def State.caddyAnswered (s : State) (step k outcome : Nat) : State :=
  match s.caddy with
  | some c => if c.step = step && k < c.acks.length && c.acks[k]? == some none then s.caddyAwait { c with acks := listSet c.acks k (some outcome) } else s
  | none => s

/-- R528. CADDY_ACK. -/
def execCaddyAck (pkt : Packet) (s : State) : Host.Outcome State Fault Refusal :=
  .next (if pkt.kind = 0x3D then (match s.take pkt with
    | some s1 => if pkt.src = s1.buddy (leAt pkt.body 4 1) then s1.caddyAnswered (leAt pkt.body 0 4) (leAt pkt.body 4 1) (leAt pkt.body 5 1) else s1
    | none => s) else s)

/-- R528. BUDDY_WAIT_EXPIRE. -/
def execBuddyWaitExpire (s : State) : Host.Outcome State Fault Refusal :=
  .next (match s.caddy with
    | some c => (s.reach (c.sentAt + s.cfg Reg.CONT_CADDY_CFG Fld.CONT_CADDY_CFG_BUDDY_WAIT_US * 1000)).caddyOver c
    | none => s)

/-! ### The spread map (R529-R534) -/

/-- A survivor of a plan (R529). -/
structure Survivor where
  chip   : Nat
  weight : Nat
  slot   : Nat
  count  : Nat
  deriving DecidableEq, Repr

/-- R529. Plan p of the spread map. -/
def State.planAt (s : State) (p : Nat) : List Byte := s.plainBytes (s.cfg Reg.CONT_SPREAD_BASE Fld.CONT_SPREAD_BASE_BASE * 4096 + 512 * p) 512

/-- R530. The first plan that covers a chip. -/
def State.planFor (s : State) (lost : Nat) : Option (List Byte) :=
  ((List.range (s.cfg Reg.CONT_SPREAD_CFG Fld.CONT_SPREAD_CFG_PLANS)).find? (fun p => leAt (s.planAt p) 0 2 == lost)).map s.planAt

/-- R529. The survivors of a plan. -/
def survivorsOf (p : List Byte) : List Survivor :=
  (List.range (leAt p 2 1)).map (fun i => { chip := leAt p (16 + 8 * i) 2, weight := leAt p (18 + 8 * i) 2, slot := leAt p (20 + 8 * i) 2,
                                            count := leAt p (22 + 8 * i) 2 })

/-- R530. A plan that cannot be applied. -/
def planBad (p : List Byte) (lost : Nat) : Bool :=
  let sv := survivorsOf p
  sv.isEmpty || 60 < sv.length || sv.any (fun x => x.weight == 0 || x.chip == lost) || !distinct (sv.map (·.chip))

/-- R532. The survivor with pre_i ≤ v < pre_i + WEIGHT_i. -/
def survivorFor : List Survivor → Nat → Nat
  | [], _ => 0
  | x :: t, v => if v < x.weight then 0 else survivorFor t (v - x.weight) + 1

/-- The map of a table, as pairs of chip and slot (R236). -/
def State.mapOf (s : State) (e : TblEntry) : List (Nat × Nat) :=
  (chunksOf 4 (2 ^ e.shard) (s.plainBytes e.map (4 * 2 ^ e.shard))).map (fun x => (leAt x 0 2, leAt x 2 2))

/-- The change of a table: the new map entries, the buckets each survivor receives, and the new SLOTS_HELD. -/
structure TblChange where
  index : Nat
  entry : TblEntry
  sets  : List (Nat × Nat × Nat)
  given : List Nat
  slots : Nat
  deriving DecidableEq, Repr

/-- R532. APPLY computes the change of a table. -/
def State.applyChange (s : State) (i : Nat) (e : TblEntry) (lost : Nat) (sv : List Survivor) : TblChange :=
  let bs := ((s.mapOf e).zipIdx.filter (fun x => x.1.1 == lost)).map (·.2)
  let w := (sv.map (·.weight)).sum
  let r := bs.zipIdx.foldl (fun (a : List (Nat × Nat × Nat) × List Nat) x =>
    let i := survivorFor sv (x.2 * w / bs.length)
    let n := a.2.getD i 0
    match sv[i]? with
    | some v => (a.1 ++ [(x.1, v.chip, v.slot + n)], listSet a.2 i (n + 1))
    | none => a) ([], sv.map (fun _ => 0))
  let slots := match sv.findIdx? (fun x => s.chip == some x.chip), bs with
    | some j, _ :: _ => max e.slots (((sv[j]?).map (·.slot)).getD 0 + r.2.getD j 0)
    | _, _ => e.slots
  { index := i, entry := e, sets := r.1, given := r.2, slots := slots }

/-- R533. RETURN computes the change of a table. -/
def State.returnChange (s : State) (i : Nat) (e : TblEntry) (lost : Nat) (sv : List Survivor) : TblChange :=
  let bs := ((s.mapOf e).zipIdx.filter (fun x => sv.any (fun v => v.chip == x.1.1 && v.slot ≤ x.1.2 && x.1.2 < v.slot + v.count))).map (·.2)
  { index := i, entry := e, sets := bs.zipIdx.map (fun x => (x.1, lost, x.2)), given := [],
    slots := if s.chip == some lost && !bs.isEmpty then bs.length else e.slots }

/-- R532-R534. A table changes as a whole. -/
def State.changeTable (s : State) (c : TblChange) : State :=
  if c.sets.isEmpty then s
  else
    let s1 := c.sets.foldl (fun s x => s.gwrite trfMaster 1 (c.entry.map + 4 * x.1) (leBytes 2 x.2.1 ++ leBytes 2 x.2.2)) s
    let a := s1.entryAddr 0 c.index
    (s1.gwrite trfMaster 1 (a + 32) (leBytes 4 (c.entry.mapVer + 1))).gwrite trfMaster 1 (a + 40) (leBytes 4 c.slots)

/-- The chips of CONT.LOST, as (entry, chip). -/
def State.lostList (s : State) : List (Nat × Nat) :=
  ((List.range 8).filter (fun i => s.fget (Reg.CONT_LOST i) Fld.CONT_LOST_VALID == 1)).map (fun i => (i, s.fget (Reg.CONT_LOST i) Fld.CONT_LOST_CHIP))
def State.isLost (s : State) (chip : Nat) : Bool := s.lostList.any (·.2 == chip)

/-- LOST_COUNT follows the list. -/
def State.countLost (s : State) : State := s.fput Reg.CONT_SPREAD_STATUS Fld.CONT_SPREAD_STATUS_LOST_COUNT s.lostList.length

/-- R532, R533. A chip is listed, or taken off the list. -/
def State.listLost (s : State) (chip : Nat) : State :=
  if s.isLost chip then s
  else match (List.range 8).find? (fun i => s.fget (Reg.CONT_LOST i) Fld.CONT_LOST_VALID == 0) with
    | some i => ((s.fput (Reg.CONT_LOST i) Fld.CONT_LOST_CHIP chip).fput (Reg.CONT_LOST i) Fld.CONT_LOST_VALID 1).countLost
    | none => s
def State.unlistLost (s : State) (chip : Nat) : State :=
  ((s.lostList.filter (·.2 == chip)).foldl (fun s x => s.setReg (Reg.CONT_LOST x.1) 0#64) s).countLost

/-- R531. The eight Ledger dies name one directory. -/
def State.oneDirectory (s : State) : Bool :=
  (List.range 8).all (fun r => s.cfg (Reg.LDG_TBL_DIR_BASE r) Fld.LDG_TBL_DIR_BASE_BASE == s.cfg (Reg.LDG_TBL_DIR_BASE 0) Fld.LDG_TBL_DIR_BASE_BASE &&
    s.cfg (Reg.LDG_TBL_DIR_CFG r) Fld.LDG_TBL_DIR_CFG_COUNT == s.cfg (Reg.LDG_TBL_DIR_CFG 0) Fld.LDG_TBL_DIR_CFG_COUNT)

/-- R531. SPREAD_APPLY is refused, with the RESULT. -/
def State.spreadRefused (s : State) (lost mode : Nat) (sv : List Survivor) (cs : List TblChange) : Option Nat :=
  if !(List.range 8).all (fun r => s.fnState (0x10 + 4 * r) == fnCHANGE) then some 0
  else if !(List.range 8).all (fun r => s.fnState (0x11 + 4 * r) == fnSTOPPED || s.fnState (0x11 + 4 * r) == fnCHANGE) then some 0
  else if !s.oneDirectory then some 0
  else if mode = 0 then
    match sv.find? (fun x => s.isLost x.chip) with
    | some x => some x.chip
    | none =>
      if (!s.isLost lost && s.lostList.length == 8) || cs.any (fun c => (List.zip c.given sv).any (fun x => x.2.count < x.1)) then some 0 else none
  else none

/-- The tables of the directory, with their indices. -/
def State.tables (s : State) : List (Nat × TblEntry) :=
  (List.range (s.cfg (Reg.LDG_TBL_DIR_CFG 0) Fld.LDG_TBL_DIR_CFG_COUNT)).filterMap (fun i => (s.tableOf 0 i).map (fun e => (i, tblEntry e)))

/-- R530, R532. What SPREAD_APPLY reads: the plans, the directory, and the maps. -/
def State.spreadReads (s : State) : List (Nat × Nat) :=
  (s.cfg Reg.CONT_SPREAD_BASE Fld.CONT_SPREAD_BASE_BASE * 4096, 512 * s.cfg Reg.CONT_SPREAD_CFG Fld.CONT_SPREAD_CFG_PLANS) ::
    (s.entryAddr 0 0, 64 * s.cfg (Reg.LDG_TBL_DIR_CFG 0) Fld.LDG_TBL_DIR_CFG_COUNT) :: s.tables.map (fun t => (t.2.map, 4 * 2 ^ t.2.shard))

/-- R530-R534. SPREAD_APPLY, once what it reads is in order. -/
def spreadDesc (s : State) (d : Started) : State :=
  let b := d.bytes
  let lost := leAt b 24 2
  let mode := leAt b 26 1
  let fin (s : State) (x : Done) : State := s.setDone d.ring d.seq { x with die := 0x50, unit := 0x30 }
  if dPARAM b || 1 < mode || !zeroBytes b 27 63 then fin s { status := stBAD_OPERAND }
  else match s.planFor lost with
    | none => fin s { status := stBAD_OPERAND }
    | some p =>
      if planBad p lost then fin s { status := stBAD_OPERAND }
      else
        let sv := survivorsOf p
        let tables := s.tables
        let cs := tables.map (fun t => if mode = 0 then s.applyChange t.1 t.2 lost sv else s.returnChange t.1 t.2 lost sv)
        match s.spreadRefused lost mode sv cs with
        | some r => fin s { status := stREFUSED, result := r }
        | none =>
          let s1 := cs.foldl State.changeTable s
          let s2 := if mode = 0 then s1.listLost lost else s1.unlistLost lost
          let n := (cs.filter (fun c => !c.sets.isEmpty)).length
          fin (if n = 0 then s2 else s2.bump Reg.CONT_SPREAD_STATUS Fld.CONT_SPREAD_STATUS_APPLIED 1) { status := stSUCCESS, result := n * 2 ^ 32 }

/-- R221, R433. SPREAD_APPLY waits while a page that it reads is pending, and fails where a read does. -/
def State.spreadRead (s : State) (d : Started) : State :=
  if s.spreadReads.any (fun r => s.pendingIn r.1 r.2) then s
  else match foldChecks s (fun s r => s.poisonCheck (ctxOf d.ring d.bytes s.trfDie 0x30) r.1 r.2) s.spreadReads with
    | (s1, some c) => s1.setDone d.ring d.seq { status := stFAULTED, cls := c, die := 0x50, unit := 0x30 }
    | (s1, none) => spreadDesc s1 d

/-- R532. The SPREAD_APPLY command. -/
def execSpreadApply (n seq : Nat) (ecc : EccFinds) (z : State) : Host.Outcome State Fault Refusal :=
  let s := z.eccAll ecc
  .next (match s.unbegun n seq 0x4010 with | some d => if s.inTurn caddyOps d then s.spreadRead d else s | none => s)

/-! ### REBUILD (R538-R544) -/

/-- R538. The product of two elements of GF(2^8). -/
def gfMulN : Nat → Nat → Nat → Nat
  | 0, _, _ => 0
  | n + 1, a, b => (if b % 2 = 1 then a else 0) ^^^ gfMulN n (gfDouble a) (b / 2)
def gfMul (a b : Nat) : Nat := gfMulN 8 a b

/-- The inverse of a non-zero element, and 2^h. -/
def gfInv (a : Nat) : Nat := ((List.range 256).find? (fun x => gfMul a x == 1)).getD 0
def gfPow2 : Nat → Nat
  | 0 => 1
  | h + 1 => gfDouble (gfPow2 h)

/-- A byte string times an element. -/
def gfScale (c : Nat) (d : List Byte) : List Byte := d.map (fun b => BitVec.ofNat 8 (gfMul c b.toNat))

/-- The pieces of a stripe that are held. -/
abbrev Pieces := List (Option (List Byte))

/-- Zero bytes of a piece. -/
def zeroPiece : List Byte := List.replicate pieceLen 0#8

/-- R542. The data pieces that agree with the pieces held; none when more than two are erased. -/
def solveStripe (data : Pieces) (p q : Option (List Byte)) : Option (List (List Byte)) :=
  let gone := (List.range 8).filter (fun h => ((data[h]?).getD none).isNone)
  let got (h : Nat) : List Byte := ((data[h]?).getD none).getD zeroPiece
  let sum := (List.range 8).foldl (fun a h => xorBytes a (got h)) zeroPiece
  let wsum := (List.range 8).foldl (fun a h => xorBytes a (gfScale (gfPow2 h) (got h))) zeroPiece
  let fill (f : Nat → Option (List Byte)) : List (List Byte) := (List.range 8).map (fun h => (f h).getD (got h))
  match gone with
  | [] => some (fill (fun _ => none))
  | [i] => match p, q with
    | some p, _ => some (fill (fun h => if h = i then some (xorBytes p sum) else none))
    | none, some q => some (fill (fun h => if h = i then some (gfScale (gfInv (gfPow2 i)) (xorBytes q wsum)) else none))
    | none, none => none
  | [i, j] => match p, q with
    | some p, some q =>
      let a := xorBytes p sum
      let b := xorBytes q wsum
      let dj := gfScale (gfInv (gfPow2 i ^^^ gfPow2 j)) (xorBytes b (gfScale (gfPow2 i) a))
      some (fill (fun h => if h = i then some (xorBytes a dj) else if h = j then some dj else none))
    | _, _ => none
  | _ => none

/-- R540. Operands of a REBUILD. -/
structure RebuildP where
  owner  : Nat
  region : Nat
  fmt    : Nat
  step   : Nat
  off    : Nat
  len    : Nat
  dst    : Nat
  chips  : List Nat
  bid    : Nat
  deriving DecidableEq, Repr

def rebuildP (p : List Byte) : RebuildP where
  owner := leAt p 0 2
  region := leAt p 2 1
  fmt := leAt p 3 1
  step := leAt p 4 4
  off := leAt p 8 8
  len := leAt p 16 8
  dst := leAt p 24 8
  chips := (List.range 10).map (fun h => leAt p (32 + 2 * h) 2)
  bid := leAt p 52 2

/-- R540. REBUILD has bad operands. -/
def State.rebuildBad (s : State) (b p : List Byte) : Bool :=
  let x := rebuildP p
  !dPARAM b || p.length != 64 || !zeroBytes b 36 63 || 7 < x.region || x.off % 4096 != 0 || x.len % 4096 != 0 || x.len == 0 || 2 ^ 40 < x.len ||
    x.dst % 4096 != 0 || !s.inOwnHbm x.dst x.len || !zeroBytes p 54 63

/-- R541. The base of the set of a holder that serves the rebuild; none when it is erased. -/
def State.rebuildSet (s : State) (x : RebuildP) (h : Nat) (v : Option HolderView) : Option Nat :=
  match s.viewOf (x.chips.getD h 0) x.owner v with
  | none => none
  | some v => match holderArea v x.owner, holderValidSet v x.owner x.step with
    | some a, some j => some (holderSetBase v a j)
    | _, _ => none

/-- R541. A piece of stripe q as it is read of holder h, with its page CRCs checked; none when it is erased. -/
def State.rebuildPiece (s : State) (x : RebuildP) (sets : List (Option Nat)) (ps : List PieceRead) (q h : Nat) : Option (List Byte) :=
  match (sets[h]?).getD none with
  | none => none
  | some b =>
    let r : Option (List Byte × List Nat) :=
      if s.chip = some (x.chips.getD h 0) then
        let a := ownAt ((b + (q + 1) * pieceLen) % 2 ^ 48)
        if s.gpoisoned a pieceLen then none else some (s.plainBytes a pieceLen, (s.gpages a pieceLen).map (fun p => tagCrc (s.tag p)))
      else (ps.find? (fun p => p.stripe == q && p.piece == h)).map (fun p => (p.data, p.crcs))
    match r with
    | none => none
    | some (d, cs) => if (chunksOf 4096 16 d).map crc32c == cs then some d else none

/-- R542, R543. Stripe q is read, and rebuilt where pieces are erased; whether it needed parity. -/
def State.rebuildStripe (s : State) (x : RebuildP) (sets : List (Option Nat)) (ps : List PieceRead) (q : Nat) : Option (List Byte × Bool) :=
  let data := (List.range 8).map (s.rebuildPiece x sets ps q)
  let parity := data.any (·.isNone)
  (solveStripe data (if parity then s.rebuildPiece x sets ps q 8 else none) (if parity then s.rebuildPiece x sets ps q 9 else none)).map
    (fun ds => (ds.flatten, parity))

/-- R543. The pages of the range that a stripe holds are written and sealed. -/
def State.rebuildWrite (s : State) (x : RebuildP) (step q : Nat) (d : List Byte) : State :=
  (chunksOf 4096 128 d).zipIdx.foldl (fun s e =>
    let off := q * 524288 + 4096 * e.2
    if x.off ≤ off && off < x.off + x.len then
      match s.placeOf (x.dst + (off - x.off)) with
      | some pl => ((s.sumpGuard (pl / 4096)).writeSump pl e.1).sealSump (pl / 4096) x.fmt step ((x.bid + (off - x.off) / 4096) % 65536)
      | none => s
    else s) s

/-- R542. The pieces of stripe q that REBUILD reads: the data pieces, and P and Q when one of those is erased. -/
def State.piecesRead (s : State) (x : RebuildP) (sets : List (Option Nat)) (ps : List PieceRead) (q : Nat) : List Nat :=
  if (List.range 8).any (fun h => (s.rebuildPiece x sets ps q h).isNone) then List.range 10 else List.range 8

/-- R544. The pages of a piece of stripe q, in the set at offset b of another module, are read on VC5. -/
def State.askPiece (s : State) (x : RebuildP) (who : Master) (q chip b : Nat) : State :=
  if s.chip = some chip then s
  else (List.range 16).foldl (fun s i => s.askRead x.region who chip ((b + (q + 1) * pieceLen + 4096 * i) % 2 ^ 48) 4096) s

/-- R541, R544. The reads of stripe q, of the holders that are not erased. -/
def State.askStripe (s : State) (x : RebuildP) (who : Master) (sets : List (Option Nat)) (ps : List PieceRead) (q : Nat) : State :=
  (s.piecesRead x sets ps q).foldl (fun s h => match (sets[h]?).getD none with
    | some b => s.askPiece x who q (x.chips.getD h 0) b
    | none => s) s

/-- R542-R544. Stripes in order; the number of the first that cannot be rebuilt, and how many needed parity. What the reads return are
operands of the command (assumption 34). -/
def rebuildAll (x : RebuildP) (who : Master) (step : Nat) (sets : List (Option Nat)) (ps : List PieceRead) (s : State) (n : Nat) :
    List Nat → State × Option Nat × Nat
  | [] => (s, none, n)
  | q :: t =>
    let s0 := s.askStripe x who sets ps q
    match s.rebuildStripe x sets ps q with
    | none => (s0, some q, n)
    | some r =>
      let s1 := (s0.rebuildWrite x step q r.1).bump Reg.CONT_REBUILD_STATUS Fld.CONT_REBUILD_STATUS_STRIPES 1
      if r.2 then rebuildAll x who step sets ps (s1.bump Reg.CONT_REBUILD_STATUS Fld.CONT_REBUILD_STATUS_RECONSTRUCTED 1) (n + 1) t
      else rebuildAll x who step sets ps s1 n t

/-- R543. The pages of stripes q and later that REBUILD has not completed are indeterminate. -/
def State.rebuildLoose (s : State) (x : RebuildP) (q : Nat) : State :=
  (List.range (x.len / 4096)).foldl (fun s i =>
    if x.off + 4096 * i < q * 524288 then s
    else match s.placeOf (x.dst + 4096 * i) with
      | some pl => s.looseAt pl 4096
      | none => s) s

/-- R540-R543. REBUILD. -/
def rebuildDesc (s : State) (d : Started) (views : List (Option HolderView)) (ps : List PieceRead) : State :=
  let x := rebuildP d.param
  let die := dieOfFn d.fn
  if s.rebuildBad d.bytes d.param then s.setDone d.ring d.seq { status := stBAD_OPERAND, die := die, unit := 0x15 }
  else
    let sets := (List.range 10).map (fun h => s.rebuildSet x h ((views[h]?).getD none))
    let q0 := x.off / 524288
    let n := (x.off + x.len - 1) / 524288 + 1 - q0
    match rebuildAll x (.ledger x.region (originOfDesc d.ring d.seq d.bytes)) (dSTEP d.bytes) sets ps s 0 ((List.range n).map (q0 + ·)) with
    | (s1, some q, _) =>
      ((s1.rebuildLoose x q).report 0x07 2 { ctxOf d.ring d.bytes die 0x15 with vals := [x.owner, x.step, q] }).setDone d.ring d.seq
        { status := stFAULTED, cls := 0x07, result := q, die := die, unit := 0x15 }
    | (s1, none, m) => s1.setDone d.ring d.seq { status := stSUCCESS, result := n * 2 ^ 32 + m, die := die, unit := 0x15 }

/-- R542. The REBUILD command. -/
def execRebuild (n seq : Nat) (views : List (Option HolderView)) (pieces : List PieceRead) (ecc : EccFinds) (z : State) : Host.Outcome State Fault Refusal :=
  let s := z.eccAll ecc
  .next (match s.unbegun n seq 0x4020 with | some d => if s.inTurn [0x4020] d then rebuildDesc s d views pieces else s | none => s)

end Sys2Proof.Machine
end

