-- ==== Sys2Proof/Machine/Observe.lean ====
section
/-!
DEFINITION. Counters, the Whistle, trace commands, the test multiplexer and the TAPs (spec/16 R665-R696).
-/
namespace Sys2Proof.Machine

open Sys2Proof

/-! ### RW fields -/

/-- Bits of a row's fields of an access code. -/
def accMask (r : RegRow) (a : Acc) : Word := (r.fields.filter (fun f => f.2 == a)).foldl (fun m f => m ||| f.1.mask) 0#64

/-- R755, R758. A write replaces the RW fields of the register at an offset. -/
def State.putRW (s : State) (off : Nat) (v : Word) : State :=
  match findReg off with
  | some (r, _, _) => let m := accMask r .rw; s.setReg off ((s.reg off &&& ~~~m) ||| (v &&& m))
  | none => s

/-! ### Event selection (R665-R670) -/

/-- R666. The QUAL bits that an event uses. -/
def qualMask (ev : Nat) : Nat :=
  if ev = 0x46 || ev = 0x47 then 0x3
  else if ev = 0x4B then 0xFF00
  else if ev = 0x60 || ev = 0x61 || ev = 0x66 then 0xFF3F
  else if ev = 0x62 then 0x3F
  else 0

/-- R670. A value of EVT_SEL names an event of the die's type and uses only its QUAL bits. -/
def evtOk (d : Nat) (v : Word) : Bool :=
  let ev := Fld.OBS_EVT_SEL_EVENT.get v
  (ev == 0 || (eventCodes d).contains ev) && Fld.OBS_EVT_SEL_QUAL.get v &&& qualMask ev == Fld.OBS_EVT_SEL_QUAL.get v

/-- A counter of a die returns to zero. -/
def State.zeroCounter (s : State) (d n : Nat) : State := { s with obs := { s.obs with counters := tblPut zeroAt s.obs.counters (d * 48 + n) 0 } }

/-- R670. A write of EVT_SEL. -/
def evtSelWrite (s : State) (mgmt : Bool) (d n : Nat) (v : Word) : State :=
  if 79 < d || 47 < n then s
  else if mgmt && evtOk d v then (s.putRW (Reg.OBS_EVT_SEL d n) v).zeroCounter d n
  else s.rejected (Reg.OBS_EVT_SEL d n) v.toNat none

/-- R670. EVT_SEL_WRITE. -/
def execEvtSelWrite (who : Master) (d n : Nat) (value : Word) (s : State) : Host.Outcome State Fault Refusal := .next (evtSelWrite s (mgmtOf who) d n value)

/-- R670. A write of FILTER. -/
def filterWrite (s : State) (mgmt : Bool) (d n : Nat) (v : Word) : State :=
  if 79 < d || 47 < n then s
  else if mgmt then (s.putRW (Reg.OBS_FILTER d n) v).zeroCounter d n
  else s.rejected (Reg.OBS_FILTER d n) v.toNat none

/-- R670. FILTER_WRITE. -/
def execFilterWrite (who : Master) (d n : Nat) (value : Word) (s : State) : Host.Outcome State Fault Refusal := .next (filterWrite s (mgmtOf who) d n value)

/-! ### The Whistle (R671-R678) -/

/-- R671, R672. A Whistle of a source is armed, or its ACTION discarded. -/
def State.whistle (s : State) (off value at_ action : Nat) : State := if badAction action then s.rejected off value none else s.armWhistle at_ action

/-- R672. A write of OBS.WHISTLE. -/
def whistleWrite (s : State) (mgmt : Bool) (v : Word) : State :=
  if mgmt then
    s.whistle Reg.OBS_WHISTLE v.toNat (if Fld.OBS_WHISTLE_IMMEDIATE.get v = 1 then s.timeNs + 2000 else Fld.OBS_WHISTLE_AT.get v) (Fld.OBS_WHISTLE_ACTION.get v)
  else s.rejected Reg.OBS_WHISTLE v.toNat none

/-- R672. WHISTLE_WRITE. -/
def execWhistleWrite (who : Master) (value : Word) (s : State) : Host.Outcome State Fault Refusal := .next (whistleWrite s (mgmtOf who) value)

/-- R676. A write of OBS.WHISTLE_SEND sends a packet. -/
def whistleSend (s : State) (mgmt : Bool) (v : Word) : State :=
  if mgmt then
    let body := leBytes 4 (Fld.OBS_WHISTLE_SEND_AT.get v) ++ leBytes 1 (Fld.OBS_WHISTLE_SEND_ACTION.get v) ++ leBytes 1 0 ++ leBytes 2 s.obs.sendId ++ leBytes 8 0
    State.send { s with obs := { s.obs with sendId := (s.obs.sendId + 1) % 65536 } } 0
      { dst := Fld.OBS_WHISTLE_SEND_DST.get v, src := 0, kind := 0x38, body := body, vc := 0 }
  else s.rejected Reg.OBS_WHISTLE_SEND v.toNat none

/-- R676. WHISTLE_SEND. -/
def execWhistleSend (who : Master) (value : Word) (s : State) : Host.Outcome State Fault Refusal := .next (whistleSend s (mgmtOf who) value)

/-- R321, R676. The pair is noted; pairs of the sender more than 2^15 behind are forgotten. -/
def State.hear (s : State) (src id : Nat) : State :=
  { s with obs := { s.obs with heard := s.obs.heard.filter (fun e => e.1 != src || subMod 16 id e.2 < 32768) ++ [(src, id)] } }

/-- R676. A WHISTLE packet at its receiver. -/
def whistleTake (s : State) (k : Packet) : State :=
  if s.fget Reg.OBS_WHISTLE_CFG Fld.OBS_WHISTLE_CFG_REMOTE_EN = 0 then s.bump Reg.OBS_WHISTLE_STATUS Fld.OBS_WHISTLE_STATUS_REMOTE_DROPPED 1
  else if s.obs.heard.contains (k.src, leAt k.body 6 2) then s
  else (s.hear k.src (leAt k.body 6 2)).whistle Reg.OBS_WHISTLE (leAt k.body 0 8) (leAt k.body 0 4) (leAt k.body 4 1)

/-- R676. WHISTLE_PACKET. -/
def execWhistlePacket (pkt : Packet) (s : State) : Host.Outcome State Fault Refusal :=
  .next (if pkt.kind = 0x38 then (match s.take pkt with | some s1 => whistleTake s1 pkt | none => s) else s)

/-- R672, R685. DBG_TRIG_IN_EDGE. -/
def execDbgTrigInEdge (s : State) : Host.Outcome State Fault Refusal :=
  .next (
    let a := s.fget Reg.OBS_WHISTLE_CFG Fld.OBS_WHISTLE_CFG_PIN_ACTION
    let s1 := if s.fget Reg.OBS_WHISTLE_CFG Fld.OBS_WHISTLE_CFG_PIN_EN = 1 then s.whistle Reg.OBS_WHISTLE_CFG a (s.timeNs + 2000) a else s
    if Fld.OBS_TRACE_CFG_TRIG_PIN.get s1.obs.trCfg = 1 then ((List.range 64).filter s1.blockUp).foldl State.traceTrigger s1 else s1)

/-- R665. Events that happen with the clocks and in numbers that the commands do not carry: a capture of them is a free value. -/
def timeEvents : List Nat := [0x28, 0x29, 0x2A, 0x30, 0x46, 0x47, 0x4B, 0x4C, 0x66, 0x68]

/-- R675. What the slot of a counter captures. -/
def State.captured (s : State) (d n : Nat) : Nat :=
  if !s.blockUp d then 0
  else if timeEvents.contains (Fld.OBS_EVT_SEL_EVENT.get (s.reg (Reg.OBS_EVT_SEL d n))) then
    leNat ((List.range 8).map (fun i => Config.freeByte (s.freeCtr + 8 * (48 * d + n) + i)))
  else tblGet zeroAt s.obs.counters (d * 48 + n)

/-- R675, R677, R678. A capture fills the snapshot. -/
def State.capture (s : State) (action : Nat) : State :=
  let slots := (List.range 80).flatMap (fun d => (List.range 48).map (fun n => (Reg.OBS_SNAP d n, s.captured d n)))
  let s1 := slots.foldl (fun a e => a.setReg e.1 (BitVec.ofNat 64 e.2)) s
  let miss (lo n : Nat) : Nat := ((List.range n).filter (fun i => !s.blockUp (lo + i))).foldl (fun a i => a + 2 ^ i) 0
  let s2 := (s1.fput Reg.OBS_SNAP_MISS_LO Fld.OBS_SNAP_MISS_LO_DIES (miss 0 64)).fput Reg.OBS_SNAP_MISS_HI Fld.OBS_SNAP_MISS_HI_DIES (miss 64 16)
  let s3 := (s2.count Reg.OBS_SNAP_INFO Fld.OBS_SNAP_INFO_SEQ 1).fput Reg.OBS_SNAP_INFO Fld.OBS_SNAP_INFO_TIME_NS s.timeNs
  ((s3.fput Reg.OBS_SNAP_ERA Fld.OBS_SNAP_ERA_ERA s.era).fput Reg.OBS_SNAP_ERA Fld.OBS_SNAP_ERA_ACTION action).drew (8 * 48 * 80)

/-- R671, R674. Every counter acts on the combined ACTION. -/
def State.whistleActs (s : State) (a : Nat) : State :=
  let s1 := if bitOf a 0 then s.capture a else s.fput Reg.OBS_SNAP_ERA Fld.OBS_SNAP_ERA_ACTION a
  let s2 : State := if bitOf a 1 then { s1 with obs := { s1.obs with counters := [] } } else s1
  let s3 := if bitOf a 2 then s2.fput Reg.OBS_WHISTLE_STATUS Fld.OBS_WHISTLE_STATUS_HELD 1
    else if bitOf a 3 then s2.fput Reg.OBS_WHISTLE_STATUS Fld.OBS_WHISTLE_STATUS_HELD 0 else s2
  if s3.rbit Reg.OBS_DBG_CFG 48 then s3.emit .trigOut else s3

/-- The pending Whistle whose time comes first. -/
def State.firstWhistle (s : State) : Option Nat :=
  let ahead (v : Nat) : Nat := if s.reached v then 0 else subMod 32 v s.timeNs
  s.obs.whistles.foldl (fun (a : Option Nat) w => match a with
    | some v => if ahead w.1 < ahead v then some w.1 else some v
    | none => some w.1) none

/-- R672, R674. Time reaches a Whistle: all whose time has come act as one. -/
def whistleFire (s : State) (v : Nat) : State :=
  let s1 := s.reachNs v
  let due := s1.obs.whistles.filter (fun w => s1.reached w.1)
  let rest := s1.obs.whistles.filter (fun w => !s1.reached w.1)
  let s2 : State := { s1 with obs := { s1.obs with whistles := rest } }
  (s2.fput Reg.OBS_WHISTLE_STATUS Fld.OBS_WHISTLE_STATUS_PENDING rest.length).whistleActs (due.foldl (fun a w => a ||| w.2) 0)

/-- R674. WHISTLE_FIRE. -/
def execWhistleFire (s : State) : Host.Outcome State Fault Refusal :=
  .next (match s.firstWhistle with | some v => whistleFire s v | none => s)

/-! ### COUNTER_DUMP (R679) -/

/-- R679. The 30,784 bytes of a dump. -/
def State.dumpBytes (s : State) : List Byte :=
  [Reg.OBS_SNAP_INFO, Reg.OBS_SNAP_ERA, Reg.OBS_SNAP_MISS_LO, Reg.OBS_SNAP_MISS_HI].flatMap (fun o => leBytes 8 (s.reg o).toNat) ++ List.replicate 32 0#8 ++
    (List.range 80).flatMap (fun d => (List.range 48).flatMap (fun n => leBytes 8 (s.reg (Reg.OBS_SNAP d n)).toNat))

/-- R679. COUNTER_DUMP has bad operands. -/
def dumpBad (b : List Byte) : Bool := dPARAM b || leAt b 40 8 % 64 != 0 || !zeroBytes b 24 39 || !zeroBytes b 48 63

/-- R679. COUNTER_DUMP: a command is one instant, so its first try is consistent. -/
def dumpDesc (s : State) (d : Started) : State :=
  if dumpBad d.bytes then s.setDone d.ring d.seq { status := stBAD_OPERAND, die := 0x50, unit := 0x31 }
  else (s.gwrite (.service (originOfDesc d.ring d.seq d.bytes)) 1 (leAt d.bytes 40 8) s.dumpBytes).setDone d.ring d.seq
    { status := stSUCCESS, result := s.fget Reg.OBS_SNAP_INFO Fld.OBS_SNAP_INFO_SEQ, die := 0x50, unit := 0x31 }

/-- R679. The COUNTER_DUMP command. -/
def execCounterDump (n seq : Nat) (s : State) : Host.Outcome State Fault Refusal :=
  .next (match s.unbegun n seq 0x5050 with | some d => dumpDesc s d | none => s)

/-! ### Trace commands (R685, R686) -/

/-- R685. The packets that run out, free values: k more of them. -/
def State.traceRun (s : State) (b : Nat) : Nat → State
  | 0 => s
  | k + 1 => State.traceRun ((s.drew 16).tracePut b (freeBytes s 16)) b k

/-- R685. TRACE_POST_STOP. -/
def execTracePostStop (b : Nat) (s : State) : Host.Outcome State Fault Refusal :=
  .next (if b < 64 && Fld.OBS_TRACE_CFG_SINK.get s.obs.trCfg = 0 then s.traceRun b (tblGet zeroAt s.obs.trPost b) else s)

/-- R686. A write of TRACE_CFG or TRACE_BASE. -/
def traceCfgWrite (s : State) (base : Bool) (v : Word) : State :=
  let s1 := s.putRW (if base then Reg.OBS_TRACE_BASE else Reg.OBS_TRACE_CFG) v
  { s1 with obs := { s1.obs with trDirty := true } }

/-- R686. TRACE_CFG_WRITE. -/
def execTraceCfgWrite (base : Bool) (value : Word) (s : State) : Host.Outcome State Fault Refusal := .next (traceCfgWrite s base value)

/-! ### The test multiplexer (R689, R690) -/

/-- R689, R690. What DBG_OBS shows in mode 1: the TIME_NS of a die, its Ferua status word, or a signal group of the catalog that
the spec does not carry (a free value). -/
def State.dbgObs (s : State) : Nat :=
  let die := s.fget Reg.OBS_DBG_CFG Fld.OBS_DBG_CFG_DIE
  let group := s.fget Reg.OBS_DBG_CFG Fld.OBS_DBG_CFG_GROUP
  if s.fget Reg.OBS_DBG_CFG Fld.OBS_DBG_CFG_MODE != 1 || !s.blockUp die then 0
  else if group = 0 then s.timeNs
  else if group = 1 then die + tblGet zeroAt s.flt.latest die % 256 * 2 ^ 8 + tblGet zeroAt s.flt.latest die / 256 * 2 ^ 16
  else leNat (freeBytes s 4)

/-! ### The TAPs (R692-R695) -/

/-- The instruction register of a TAP; leaving EXTEST and IJTAG ends what they hold. -/
def State.setIr (s : State) (t op : Nat) : State :=
  let o := s.obs
  let o1 : Obs := if t = 0 then { o with ir0 := op } else { o with ir1 := op }
  { s with obs := { o1 with extest := o1.extest && (o1.ir0 == 0 || o1.ir1 == 0), ijtag := if o1.ijtag = some t then none else o1.ijtag } }

/-- R694. An instruction that needs UNLOCK acts. -/
def State.unlocked (s : State) : Bool := s.fget Reg.OBS_JTAG_CFG Fld.OBS_JTAG_CFG_UNLOCK == 1

/-- R693. The one bit of BYPASS. -/
def State.bypass (s : State) (t op : Nat) : State := (s.setIr t op).emit (.tdo t 0)

/-- R693. JTAG_BYPASS. -/
def execJtagBypass (t : Nat) (s : State) : Host.Outcome State Fault Refusal := .next (if t < 2 then s.bypass t 0xFF else s)

/-- R692. JTAG_IDCODE. -/
def execJtagIdcode (t : Nat) (s : State) : Host.Outcome State Fault Refusal :=
  .next (if t < 2 then (s.setIr t 0x01).emit (.tdo t (if t = 0 then 0x1C160B47 else 0x1C161B47)) else s)

/-- R693. JTAG_SAMPLE_PRELOAD: the pads are captured, and the register is loaded. -/
def execJtagSamplePreload (t pads shifted : Nat) (s : State) : Host.Outcome State Fault Refusal :=
  .next (if t < 2 then
      let s1 := s.setIr t 0x02
      State.emit { s1 with obs := { s1.obs with bsr := shifted } } (.tdo t pads)
    else s)

/-- R693. JTAG_EXTEST: the pads are captured, the register is loaded and drives the pads. -/
def execJtagExtest (t pads shifted : Nat) (s : State) : Host.Outcome State Fault Refusal :=
  .next (if t < 2 then
      let s1 := s.setIr t 0x00
      State.emit { s1 with obs := { s1.obs with bsr := shifted, pads := shifted, extest := true } } (.tdo t pads)
    else s)

/-- R693, R695. JTAG_IJTAG: all ones while the Trelfort scans; else a network whose contents the spec does not give. -/
def execJtagIjtag (t bits : Nat) (held : Bool) (s : State) : Host.Outcome State Fault Refusal :=
  .next (if t < 2 then
      if !s.unlocked then s.bypass t 0x10
      else
        let s1 := s.setIr t 0x10
        if (match s1.scan with | some c => s1.trfOf c.trf == t | none => false) then s1.emit (.tdo t (2 ^ bits - 1))
        else
          let n := (bits + 7) / 8
          State.emit (State.drew { s1 with obs := { s1.obs with ijtag := if held then some t else s1.obs.ijtag } } n) (.tdo t (leNat (freeBytes s n) % 2 ^ bits))
    else s)

/-- R688. Places in the K-core trace buffer of Trelfort t. -/
def kPlace (t w : Nat) : Nat := (0x50 + t) * 2 ^ 18 + w % 65536

/-- R688. The K-core of Trelfort t traces a packet, whose bytes are free values: its program is not in the spec. -/
def State.kTrace (s : State) (t : Nat) : State :=
  if Fld.OBS_TRACE_CFG_KCORE.get s.obs.trCfg = 1 then
    let w := tblGet zeroAt s.obs.kWrite t
    let o : Obs := { s.obs with trBuf := tblPutList zeroByte s.obs.trBuf (kPlace t w) (freeBytes s 16), kWrite := tblPut zeroAt s.obs.kWrite t (w + 16) }
    State.drew { s with obs := o } 16
  else s

/-- R693. JTAG_KTRACE: the next packet of the K-core trace, zeros when there is none. -/
def execJtagKtrace (t : Nat) (s : State) : Host.Outcome State Fault Refusal :=
  .next (if t < 2 then
      if !s.unlocked then s.bypass t 0x11
      else
        let s1 := (s.setIr t 0x11).kTrace t
        let r := tblGet zeroAt s1.obs.kRead t
        if r < tblGet zeroAt s1.obs.kWrite t then
          State.emit { s1 with obs := { s1.obs with kRead := tblPut zeroAt s1.obs.kRead t (r + 16) } }
            (.tdo t (leNat (tblGetList zeroByte s1.obs.trBuf (kPlace t r) 16)))
        else s1.emit (.tdo t 0)
    else s)

/-- R693. JTAG_KEYPROG: the key is programmed while its fuses are blank. -/
def execJtagKeyprog (t : Nat) (key : List Byte) (s : State) : Host.Outcome State Fault Refusal :=
  .next (if t < 2 then
      if !s.unlocked then s.bypass t 0x20
      else
        let s1 := s.setIr t 0x20
        if t = 0 then
          (if s1.obs.macKey0.isNone then { s1 with obs := { s1.obs with macKey0 := some ((key ++ List.replicate 32 0#8).take 32) } } else s1)
        else if s1.obs.macKey1.isNone then { s1 with obs := { s1.obs with macKey1 := some ((key ++ List.replicate 32 0#8).take 32) } } else s1
    else s)

/-- R692. TRST_ASSERT: both TAPs return to Test-Logic-Reset, which selects IDCODE. -/
def execTrstAssert (s : State) : Host.Outcome State Fault Refusal :=
  .next { s with obs := { s.obs with ir0 := 0x01, ir1 := 0x01, extest := false, ijtag := none } }

end Sys2Proof.Machine
end

