-- ==== Sys2Proof/Machine/Time.lean ====
section
/-!
DEFINITION. Module time (spec/15 R650-R662): parameter changes, slews, PTP, SYNC_IN and REFCLK.
-/
namespace Sys2Proof.Machine

open Sys2Proof

/-- R652. A change of the time parameters is broadcast: it applies 2 µs later, at the same count everywhere. -/
def State.broadcast (s : State) (c : TimeChange) : State :=
  { s with clk := { s.clk with changes := s.clk.changes ++ [(s.clk.count + 2000, c)] } }

/-- R651, R653. A change applies at the present count. -/
def Clock.apply (c : Clock) (x : TimeChange) : Clock :=
  match x with
  | .offset d => { c with offset := c.offset + d }
  | .rate ppb => { c with acc := c.acc + (((c.count : Int) - c.base) * c.rate) / 1000000000, base := c.count, rate := ppb }
  | .slew d => { c with offset := c.offset + c.slewPart, slewD := d, slewAt := c.count, slewing := true }

/-- R652. TIME_PARAM_APPLY: the earliest broadcast change applies at its count. -/
def execTimeParamApply (s : State) : Host.Outcome State Fault Refusal :=
  .next (match s.clk.changes with
    | [] => s
    | x :: t =>
      let s1 := s.reach (s.clk.start + x.1)
      { s1 with clk := Clock.apply { s1.clk with changes := t } x.2 })

/-- R653. RATE_PPB is clamped. -/
def clampPpb (v : Int) : Int := max (-500000) (min 500000 v)

/-- R653. A write of TIME.RATE, by management or the primary's firmware (`allowed`), or by anyone else. -/
def rateWrite (s : State) (allowed : Bool) (value : Word) : State :=
  if allowed then s.broadcast (.rate (clampPpb (sext 32 value.toNat))) else s.rejected Reg.TIME_RATE value.toNat none

/-- R653. The RATE_WRITE command. -/
def execRateWrite (allowed : Bool) (value : Word) (s : State) : Host.Outcome State Fault Refusal := .next (rateWrite s allowed value)

/-- R653. A write of TIME.ADJ: a step in BRINGUP, a slew in SERVICE. -/
def adjWrite (s : State) (allowed : Bool) (value : Word) : State :=
  if allowed then
    (if s.service then s.broadcast (.slew (sext 64 value.toNat)) else s.broadcast (.offset (sext 64 value.toNat)))
  else s.rejected Reg.TIME_ADJ value.toNat none

/-- R653. The ADJ_WRITE command. -/
def execAdjWrite (allowed : Bool) (value : Word) (s : State) : Host.Outcome State Fault Refusal := .next (adjWrite s allowed value)

/-- R653. SLEW_END: the slew has run at 500 ppm for its whole amount, which goes into OFFSET. -/
def execSlewEnd (s : State) : Host.Outcome State Fault Refusal :=
  .next (if s.clk.slewing then
      let s1 := s.reach (s.clk.start + s.clk.slewAt + s.clk.slewD.natAbs * 2000)
      { s1 with clk := { s1.clk with offset := s1.clk.offset + s1.clk.slewD, slewD := 0, slewing := false } }
    else s)

/-! ### States of the time unit (R656-R662) -/

/-- R656. PTP runs. -/
def State.ptpOn (s : State) : Bool := s.primary.isSome && s.cfg Reg.TIME_CFG Fld.TIME_CFG_PTP_EN == 1

/-- R656, R660, R661. An Announce of grandmaster gm with an announce interval arrives; `best` says that the best master clock algorithm
selects it. -/
def announce (s : State) (gm ivl : Nat) (best : Bool) : State :=
  let st := s.timeState
  if st = tFREE || st = tHOLDOVER then
    (if best && !(s.rbit Reg.TIME_STATUS 5) then
      State.setTime { s with clk := { s.clk with gm := gm, good := 0, annAt := s.clk.now, annIvl := ivl } } tLOCKING
     else s)
  else if gm = s.clk.gm then { s with clk := { s.clk with annAt := s.clk.now, annIvl := ivl } }
  else if best then s.setTime tHOLDOVER
  else s

/-- R656, R660, R662. An exchange gives an offset in nanoseconds. -/
def exchange (s : State) (d : Int) : State :=
  let st := s.timeState
  if st = tLOCKING || st = tLOCKED then
    let s1 := s.fput Reg.TIME_STATUS Fld.TIME_STATUS_LAST_OFFSET (tc 32 d)
    if st = tLOCKED then s1
    else if d.natAbs ≤ s.cfg Reg.TIME_CFG Fld.TIME_CFG_LOCK_NS then
      (if s.clk.good + 1 ≥ 16 then
        (State.setTime { s1 with clk := { s1.clk with good := 0 } } tLOCKED).advance
       else { s1 with clk := { s1.clk with good := s.clk.good + 1 } })
    else { s1 with clk := { s1.clk with good := 0 } }
  else s

/-- R656. The PTP_MESSAGE command. -/
def execPtpMessage (msg : PtpMsg) (s : State) : Host.Outcome State Fault Refusal :=
  .next (if s.ptpOn then (match msg with
      | .announce gm ivl best => announce s gm ivl best
      | .exchange d => exchange s d
      | .other => s)
    else s)

/-- R661. ANNOUNCE_TIMEOUT: three announce intervals without an Announce of the master. -/
def execAnnounceTimeout (s : State) : Host.Outcome State Fault Refusal :=
  .next (if s.ptpOn && (s.timeState = tLOCKING || s.timeState = tLOCKED) then (s.reach (s.clk.annAt + 3 * s.clk.annIvl)).setTime tHOLDOVER else s)

/-- R658. The distance of module time from a whole second. -/
def fromSecond (t : Int) : Nat :=
  let r := (t % 1000000000).toNat
  min r (1000000000 - r)

/-- R658. SYNC_IN_EDGE: the edge is stamped, and judged while the unit is LOCKED. -/
def execSyncInEdge (s : State) : Host.Outcome State Fault Refusal :=
  .next (
    let s1 := s.setReg Reg.TIME_SYNC_STAMP (BitVec.ofNat 64 (s.era * 2 ^ 32 + s.timeNs))
    if s.cfg Reg.TIME_CFG Fld.TIME_CFG_SYNC_EN = 1 && s.timeState = tLOCKED then
      (if fromSecond s.time > s.cfg Reg.TIME_CFG Fld.TIME_CFG_SYNC_TOL_NS then
        (s1.putBit Reg.TIME_STATUS 6 true).event 0x0108 { die := s.trfDie, unit := 0x32 }
       else s1.putBit Reg.TIME_STATUS 6 false)
    else s1)

/-- R659. REFCLK_LOST: the PLLs run from the Trelfort crystal, and the unit holds over. -/
def execRefclkLost (s : State) : Host.Outcome State Fault Refusal :=
  .next ((State.putBit { s with clk := { s.clk with refBack := none } } Reg.TIME_STATUS 5 true).setTime tHOLDOVER)

/-- R659. REFCLK_RETURN: the PLLs wait for a SYNC edge, or 1 s. -/
def execRefclkReturn (s : State) : Host.Outcome State Fault Refusal :=
  .next (if s.rbit Reg.TIME_STATUS 5 then { s with clk := { s.clk with refBack := some s.clk.now } } else s)

/-- R659. REFCLK_SWITCHBACK: at a SYNC edge (`sync`) or after 1 s the PLLs change back. -/
def execRefclkSwitchback (sync : Bool) (s : State) : Host.Outcome State Fault Refusal :=
  .next (match s.clk.refBack with
    | none => s
    | some t =>
      let s1 := if sync then s else s.reach (t + 1000000000)
      State.putBit { s1 with clk := { s1.clk with refBack := none } } Reg.TIME_STATUS 5 false)

end Sys2Proof.Machine
end

