-- ==== Sys2Proof/Machine/Write.lean ====
section
/-!
DEFINITION. Writes of registers and memory by any master (spec/01 R31-R60, spec/02 R105-R110, spec/19 R754-R759), TMP WRITE (spec/14
R617) and MEMACC (spec/16 R694).
-/
namespace Sys2Proof.Machine

open Sys2Proof

/-! ### Registers with a step of their own -/

/-- R107. A write of MOD.FN[f]: a command, or a new DRAIN_LIMIT. -/
def fnWrite (s : State) (f : Nat) (v : Word) : State :=
  match Fld.MOD_FN_CMD.get v with
  | 0 =>
    if fnAssigned f && s.fnState f == fnCHANGE then s.fput (Reg.MOD_FN f) Fld.MOD_FN_DRAIN_LIMIT (Fld.MOD_FN_DRAIN_LIMIT.get v)
    else s.rejected (Reg.MOD_FN f) v.toNat (some f)
  | 1 => s.fnCmd f 1 (cmdStop f)
  | 2 => s.fnCmd f 2 (cmdChange f)
  | 3 => s.fnCmd f 3 (cmdRestart f)
  | 4 => s.fnCmd f 4 (cmdAbort f)
  | c => s.badCmd f c

/-- R514. A write of RESET_CMD. -/
def resetWrite (s : State) (mgmt : Bool) (v : Word) : State :=
  let level := Fld.MOD_RESET_CMD_LEVEL.get v
  if level = 0 then s.rejected Reg.MOD_RESET_CMD v.toNat none else resetCmd s level mgmt (Fld.MOD_RESET_CMD_DUMP.get v == 1)

/-- R198. A write of FENCE_BLOCK or FENCE_CELL[b] clears bits at the next descriptor start. -/
def fenceWrite (s : State) (block : Option Nat) (v : Word) : State :=
  match block with
  | none => { s with arr := { s.arr with clearBlock := s.arr.clearBlock ||| (s.reg Reg.ARR_FENCE_BLOCK &&& v).toNat } }
  | some b =>
    { s with arr := { s.arr with
      clearCell := tblPut zeroAt s.arr.clearCell b (tblGet zeroAt s.arr.clearCell b ||| (s.reg (Reg.ARR_FENCE_CELL b) &&& v).toNat) } }

/-- R482. A write of SEV_CNT clears whole fields, and ALERT# deasserts when both are zero. -/
def sevWrite (s : State) (v : Word) : State :=
  let s1 := if Fld.FLT_SEV_CNT_FATAL.get v = 0 then s else s.fput Reg.FLT_SEV_CNT Fld.FLT_SEV_CNT_FATAL 0
  let s2 := if Fld.FLT_SEV_CNT_UNCONTAINED.get v = 0 then s1 else s1.fput Reg.FLT_SEV_CNT Fld.FLT_SEV_CNT_UNCONTAINED 0
  if s2.flt.alert && s2.fget Reg.FLT_SEV_CNT Fld.FLT_SEV_CNT_FATAL == 0 && s2.fget Reg.FLT_SEV_CNT Fld.FLT_SEV_CNT_UNCONTAINED == 0 then
    State.emit { s2 with flt := { s2.flt with alert := false } } (.pin 0 false)
  else s2

/-- R494. A write of HANG_STATUS clears VALID; COUNT counts from then. -/
def hangWrite (s : State) (v : Word) : State :=
  if Fld.MOD_HANG_STATUS_VALID.get v = 1 then
    (s.fput Reg.MOD_HANG_STATUS Fld.MOD_HANG_STATUS_VALID 0).fput Reg.MOD_HANG_STATUS Fld.MOD_HANG_STATUS_COUNT 0
  else s

/-- R696. A FAULT_SEV other than 0, 2, 3 and 4 is rejected. -/
def whistleCfgWrite (s : State) (v : Word) : State :=
  if [0, 2, 3, 4].contains (Fld.OBS_WHISTLE_CFG_FAULT_SEV.get v) then s.putRW Reg.OBS_WHISTLE_CFG v else s.rejected Reg.OBS_WHISTLE_CFG v.toNat none

/-- R689, R696. A DIV below 5 is rejected. -/
def dbgWrite (s : State) (v : Word) : State :=
  if 5 ≤ Fld.OBS_DBG_CFG_DIV.get v then s.putRW Reg.OBS_DBG_CFG v else s.rejected Reg.OBS_DBG_CFG v.toNat none

/-! ### Every register (R755-R758) -/

/-- R755. Each 1 bit of the RW1C fields of a row clears its bit. -/
def State.clearW1c (s : State) (r : RegRow) (off : Nat) (v : Word) : State := s.setReg off (s.reg off &&& ~~~(v &&& accMask r .rw1c))

/-- R109, R755, R774. A write of a register of row r, of A index a, that has no step of its own. -/
def State.plainReg (s : State) (r : RegRow) (a off : Nat) (v : Word) : State :=
  match r.owner with
  | some (base, step) =>
    if s.fnState (base + step * a) = fnCHANGE then s.putRW off v else s.rejected off v.toNat (some (base + step * a))
  | none => (s.putRW off v).clearW1c r off v

/-- The registers of MOD, RING and ARR that act on a write. -/
def State.regAct1 (s : State) (mgmt : Bool) (r : RegRow) (a off : Nat) (v : Word) : State :=
  if r.base = 0x1000 then fnWrite s a v
  else if off = Reg.MOD_RESET_CMD then resetWrite s mgmt v
  else if off = Reg.MOD_CHIP_ASSIGN then chipAssign s mgmt v
  else if off = Reg.MOD_HANG_STATUS then hangWrite s v
  else if r.base = 0x108000 then doorbell s a v
  else if r.base = 0x104018 then cqHeadWrite s a (v.toNat % 2 ^ 32)
  else if off = Reg.ARR_FENCE_BLOCK then fenceWrite s none v
  else if r.base = 0x201200 then fenceWrite s (some a) v
  else s.plainReg r a off v

/-- The registers of the blocks from FLT on that act on a write; those marked (M) are judged before. -/
def State.regAct2 (s : State) (mgmt : Bool) (r : RegRow) (a b off : Nat) (v : Word) : State :=
  if off = Reg.FLT_SEV_CNT then sevWrite s v
  else if r.base = 0x900040 then (s.plainReg r a off v).countLost
  else if off = Reg.TRF_ROLE_CMD then roleCmd s mgmt (Fld.TRF_ROLE_CMD_SWAP.get v == 1)
  else if off = Reg.TRF_ARB then arbWrite s mgmt (Fld.TRF_ARB_DIE.get v) (Fld.TRF_ARB_SVN.get v)
  else if off = Reg.EVR_CTL then ctlWrite s mgmt v.toNat
  else if off = Reg.TIME_RATE then rateWrite s mgmt v
  else if off = Reg.TIME_ADJ then adjWrite s mgmt v
  else if off = Reg.OBS_WHISTLE_CFG then whistleCfgWrite s v
  else if off = Reg.OBS_WHISTLE then whistleWrite s mgmt v
  else if off = Reg.OBS_WHISTLE_SEND then whistleSend s mgmt v
  else if off = Reg.OBS_TRACE_CFG then traceCfgWrite s false v
  else if off = Reg.OBS_TRACE_BASE then traceCfgWrite s true v
  else if off = Reg.OBS_DBG_CFG then dbgWrite s v
  else if r.base = 0xE10000 then evtSelWrite s mgmt a b v
  else if r.base = 0xE10008 then filterWrite s mgmt a b v
  else if off = Reg.PWR_DVFS then dvfsWrite s v
  else if off = Reg.PWR_START_CFG then startCfg s mgmt v
  else s.plainReg r a off v

/-- A field of the row takes writes. -/
def RegRow.writable (r : RegRow) : Bool := r.fields.any (fun f => f.2 != .ro)

/-- R46, R687, R756, R759. A 64-bit write by a master of the register at a BAR0 offset. -/
def State.regWrite (s : State) (who : Master) (off : Nat) (v : Word) : State :=
  if !s.answers off then s.noAnswer off
  else if 0xE80000 ≤ off && off < 0xEC0000 then s.unmapped (ownAt (0x030000000000 + off)) (s.whoCtx who)
  else match findReg off with
    | none => s.rejected off v.toNat none
    | some (r, a, b) =>
      if !r.writable || (r.mgmt && !(mgmtOf who)) then s.rejected off v.toNat none
      else if off < 0x800000 then s.regAct1 (mgmtOf who) r a off v
      else s.regAct2 (mgmtOf who) r a b off v

/-- R755. REGISTER_WRITE. -/
def execRegisterWrite (who : Master) (off : Nat) (value : Word) (s : State) : Host.Outcome State Fault Refusal := .next (s.regWrite who off value)

/-- R3, R4. A write of register space: whole registers, or a narrower or misaligned access that is discarded. -/
def State.regWrites (s : State) (who : Master) (off : Nat) (d : List Byte) : State :=
  if d.length % 8 = 0 && off % 8 = 0 then
    (chunksOf 8 (d.length / 8) d).zipIdx.foldl (fun s e => s.regWrite who (off + 8 * e.2) (BitVec.ofNat 64 (leNat e.1))) s
  else s.rejected off (leNat d) none

/-! ### Memory (R31, R34, R36, R53) -/

/-- One piece of a write that this module serves. -/
def State.servePiece (s0 : State) (who : Master) (addr : Nat) (d : List Byte) : State :=
  let s := match s0.gloc addr with | .own l => s0.crossTo (s0.entry who) d.length l | _ => s0
  match s.gloc addr with
  | .own (.hbm a) => s.plainWrite who a d
  | .own (.staging a) => s.plainWrite who (2 ^ 40 + a) d
  | .own (.trf o) => if trfWritable o then { s with mem := { s.mem with trf := wrTbl s.mem.trf o d } } else s.unmapped addr (s.whoCtx who)
  | .own (.reg off) => s.regWrites who off d
  | _ => s.unmapped addr (s.whoCtx who)

/-- R50, R51. A write that this module serves. -/
def State.serveWrite (s : State) (who : Master) (addr : Nat) (d : List Byte) : State := (dataPieces addr d).foldl (fun s p => s.servePiece who p.1 p.2) s

/-- A write by a master to a global address: served here, or sent to the module that it names as posted writes. -/
def State.globalWrite (s : State) (who : Master) (a : Nat) (d : List Byte) : State :=
  match s.gloc a with
  | .remote c off =>
    if s.hasRoute (s.entry who) c then
      (bodies off d.length).foldl (fun s p => s.send (s.entry who) (s.writePacket who c p.1 4 ((d.drop (p.1 - off)).take p.2))) s
    else s.unmapped a (s.whoCtx who)
  | _ => s.serveWrite who a d

/-- R54-R57, R60, R702. A write by a master; before the BARs are open the endpoint takes no request of the host. -/
def memoryWrite (s : State) (who : Master) (sp : Space) (addr : Nat) (d : List Byte) : State :=
  if who == .host && !s.pcie.bars then s
  else
    (spaceParts sp addr d.length).foldl (fun s p =>
      match s.spaceAddr sp p.1 with
      | none => s.unmapped p.1 (s.whoCtx who)
      | some a => s.globalWrite who a ((d.drop (p.1 - addr)).take p.2)) s

/-- R53. The MEMORY_WRITE command. -/
def execMemoryWrite (who : Master) (sp : Space) (addr : Nat) (data : List Byte) (s : State) : Host.Outcome State Fault Refusal :=
  .next (memoryWrite s who sp addr data)

/-! ### TMP WRITE (R615, R617) -/

/-- R617, R759. Some place of a write that comes in at region r does not exist, or its holder does not answer. -/
def State.writeGone (s : State) (r addr n : Nat) : Bool :=
  (piecesOf addr n).any (fun p => match s.gloc p.1 with
    | .own (.reg off) => !s.answers off || (0xE80000 ≤ off && off < 0xEC0000)
    | .own (.trf o) => !trfWritable o
    | _ => s.isUnmapped r p.1)

/-- R617. A WRITE is performed with the management-plane attribute, and answered when it is accepted at its target. -/
def tmpWrite (s : State) (t src : Nat) (g : List Byte) : State :=
  let b := tmpBody g
  let a := leAt b 0 8
  let n := leAt b 8 4
  if !tmpCount n || b.length != 16 + n then s.tmpReply t src (tmpSeq g) 3 []
  else if s.tmpAwaited t src (tmpSeq g) then s
  else
    let who : Master := .tmp t src (tmpSeq g)
    let gone := s.writeGone (s.entry who) a n
    match s.gloc a, gone with
    | .remote c off, false =>
      let k := s.tmpDone.newTag
      let s1 := k.2.addRead { tag := k.1, who := who, addr := a, len := 0, data := b.drop 16, since := k.2.clk.now }
      s1.send (s.entry who) { dst := c, src := 0, kind := 0x04, addr := off, tag := k.1, body := b.drop 16, vc := 6, flags := 2 }
    | _, _ => (s.tmpDone.serveWrite who a (b.drop 16)).tmpReply t src (tmpSeq g) (if gone then 2 else 0) []

/-- R617. TMP_WRITE. -/
def execTmpWrite (t src : Nat) (dgram : List Byte) (s : State) : Host.Outcome State Fault Refusal :=
  .next (s.tmpIn t src 0x02 dgram (fun s => s.asPrimary t src dgram (fun s => tmpWrite s t src dgram)))

/-! ### MEMACC (R694) -/

/-- R694. What Capture-DR returns: DATA, ADDRESS, WRITE, DONE and ERROR as R693 places them. -/
def memaccBits (data addr : Nat) (done error : Bool) : Nat :=
  data % 2 ^ 64 + addr % 2 ^ 64 * 2 ^ 64 + (if done then 2 ^ 128 else 0) + (if error then 2 ^ 129 else 0)

/-- R694. A MEMACC access through the primary: a read of this module that need not wait is answered at once. An ADDRESS that is no
multiple of 8 is answered as an unmapped one (assumption 112). -/
def memacc (s : State) (t : Nat) (write : Bool) (addr : Nat) (data : Word) : State :=
  if s.primary.isNone then s.emit (.tdo t (memaccBits 0 addr true true))
  else if addr % 8 != 0 || s.isUnmapped (s.entry .jtag) addr then
    (s.unmapped addr (s.whoCtx .jtag)).emit (.tdo t (memaccBits 0 addr true true))
  else if write then
    (s.globalWrite .jtag addr (leBytes 8 data.toNat)).emit (.tdo t (memaccBits data.toNat addr true (s.writeGone (s.entry .jtag) addr 8)))
  else match s.gloc addr with
    | .own _ =>
      if s.readWaits .jtag s.order addr 8 then (s.serveRead .jtag addr 8).emit (.tdo t (memaccBits 0 addr false false))
      else
        let r := s.readAll .jtag addr 8
        r.1.emit (.tdo t (memaccBits (leNat r.2.data) addr true (r.2.poison || !r.2.mapped)))
    | _ => (memoryRead s .jtag .global addr 8 []).emit (.tdo t (memaccBits 0 addr false false))

/-- R694. JTAG_MEMACC. -/
def execJtagMemacc (t : Nat) (write : Bool) (addr : Nat) (data : Word) (ecc : EccFinds) (z : State) : Host.Outcome State Fault Refusal :=
  let s := z.eccAll ecc
  .next (if t < 2 then
      (if s.unlocked then memacc (s.setIr t 0x12) t write (addr % 2 ^ 64) data else s.bypass t 0x12)
    else s)

end Sys2Proof.Machine
end

