-- ==== Sys2Proof/Machine/Start.lean ====
section
/-!
DEFINITION. A descriptor is judged in the fixed order of R776, and starts or completes (spec/02 R80-R88, R776).
-/
namespace Sys2Proof.Machine

open Sys2Proof

/-! ### The parameter block (R67) -/

/-- R67. The parameter block of a fetched descriptor of ring n: read of this module, or what the read of outside memory returned. -/
def State.paramOf (s : State) (n : Nat) (f : Fetched) (ext : List Byte) : State × List Byte :=
  if dPARAM f.bytes && dParamOk f.bytes then
    s.extRead (ringMaster n f.seq f.bytes) (s.cfg (Reg.RING_SQ_BASE n) Fld.RING_SQ_BASE_LOC == 1) (dParamAddr f.bytes) (dParamLen f.bytes) ext
  else (s, [])

/-- R221. A burst of the parameter block in this module is poisoned. -/
def State.paramPoisoned (s : State) (n : Nat) (b : List Byte) : Bool :=
  dPARAM b && dParamOk b && s.cfg (Reg.RING_SQ_BASE n) Fld.RING_SQ_BASE_LOC == 1 && s.gpoisoned (dParamAddr b) (dParamLen b)

/-- R221. The report of a poisoned burst of the parameter block. -/
def State.paramReport (s : State) (n : Nat) (f : Fetched) : State :=
  (s.poisonCheck (ctxOf n f.bytes 0x48 0x26) (dParamAddr f.bytes) (dParamLen f.bytes)).1

/-- The operations whose operands lie in a parameter block. -/
def paramOps : List Nat := [0x1001, 0x3001, 0x3010, 0x4001, 0x4020]

/-- R67. FLAGS.PARAM is not what the operation asks for, or the reference is malformed. -/
def paramBad (b : List Byte) : Bool := dPARAM b != paramOps.contains (dOPCODE b) || (dPARAM b && !dParamOk b)

/-! ### Checks 4 to 9 -/

/-- R66. FLAGS.SERIAL lets the next descriptor of ring n start. -/
def State.serialOk (s : State) (n : Nat) (b : List Byte) : Bool :=
  !dSERIAL b || !s.started.any (fun d => d.ring == n && d.rgen == s.gen (sqFn n))

/-- R91, check 4. A deadline has passed. -/
def State.late (s : State) (f : Fetched) : Bool := match f.deadline with | some t => decide (t ≤ s.time) | none => false

/-- R84. The events that the descriptor takes carry POISON. -/
def State.takesPoison (s : State) (n : Nat) (f : Fetched) : Bool :=
  dWAIT f.bytes != 0 && s.fget (Reg.RING_EVT_BANK n) Fld.RING_EVT_BANK_POISON == 1

/-- Check 7. A field that names the target function, or its substitute, is out of range. -/
def rangeBad (b p : List Byte) : Bool :=
  let o := dOPCODE b
  if o / 0x1000 = 2 then (7 < leAt b 24 1 && !(o == 0x2018 && leAt b 24 1 == 0xFF)) || ((o == 0x2010 || o == 0x2011) && leAt b 27 1 / 8 != leAt b 24 1)
  else if o = 0x3010 then 15 < leAt b 36 1
  else if o = 0x3018 then 15 < leAt b 24 1
  else o == 0x4020 && 7 < leAt p 2 1

/-- Check 8, R87, R264, R297. The target is not in RUN and no substitute takes the descriptor. -/
def State.cancels (s : State) (f : Nat) (b : List Byte) : Bool :=
  if hasSubstitute f then s.needsVe f b && (s.veBlock (ownerBlock b)).isNone else s.fnState f != fnRUN

/-- Check 9, R88. -/
def State.genStale? (s : State) (f : Nat) (b : List Byte) : Bool := dGEN b != 0 && dGEN b != s.gen f

/-! ### Checks 10 and 11 -/

/-- R362. A descriptor of the same rank, bucket and step already runs on the engine. -/
def State.rankTwice (s : State) (b p : List Byte) : Bool :=
  let x := redP b p
  s.ranks.any (fun k => !k.closed && k.eng == leAt b 36 1 &&
    (let y := redP k.bytes k.param; y.coll == x.coll && y.step == x.step && y.bucket == x.bucket && y.rank == x.rank))

/-- Check 10. The operand checks of the chapters whose commands do not judge for themselves. -/
def State.operandsBad (s : State) (b p : List Byte) : Bool :=
  let o := dOPCODE b
  paramBad b ||
    (if o = 0x1001 then s.sweepBad b p else if o = 0x1003 then s.interBad b else if o = 0x1020 then s.veBad b
     else if o = 0x2001 then gatherBad b else if o = 0x2010 then s.denseBad b else if o = 0x2011 then s.rowsBad b
     else if o = 0x2018 then s.setcoefBad b else if o = 0x2020 || o = 0x2021 then s.tagOpBad b
     else if o = 0x3001 then s.jobBad p else if o = 0x3010 then s.reduceBad b p || s.rankTwice b p
     else if o = 0x3018 then digestBad b else false)

/-- Check 11. The REFUSED conditions judged before a start: R153 and then R181 for the array, R276 for an update. -/
def State.startRefused (s : State) (b p : List Byte) : Bool :=
  let o := dOPCODE b
  if o / 0x1000 = 1 then noTile b p || s.clearFences.activeSet.isEmpty
  else if o = 0x2010 || o = 0x2011 then s.updRefused b
  else false

/-- The unit that completes a descriptor of a function that fails checks 10 or 11. -/
def startDone (f status : Nat) : Done := { status := status, die := dieOfFn f, unit := unitOfFn f }

/-! ### Room in the target function -/

/-- R193. An array descriptor waits for the records of descriptors it must not overtake: all, when it is SERIAL, else those whose output
overlaps an input of it. -/
def State.arrayBehind (s : State) (b p : List Byte) : Bool :=
  s.started.any (fun d => d.fn == 0 && (dSERIAL b ||
    (arrIns b p).any (fun i => (arrOuts d.bytes d.param []).any (fun o => s.overlap i (o.2.1, o.2.2)))))

/-- The function has room for one more descriptor: R169, R192 for the array, R240 for Gather, R300 for Update, R358 for a rank; the
Trelfort services start none while a SWAP is pending (R613). -/
def State.hasRoom (s : State) (f n seq : Nat) (b p : List Byte) : Bool :=
  if f = 0 then s.arr.run.isNone && (s.arr.prefetch.isNone || s.arr.prefetch == some (n, seq)) && !s.arrayBehind b p
  else if f < 0x30 && f % 4 = 0 then (s.runningOn f).length < 4
  else if hasSubstitute f then (s.updRun (updDie f)).isNone
  else if 0x40 ≤ f && f < 0x50 then dOPCODE b != 0x3010 || ((s.runningOn f).filter (fun d => dOPCODE d.bytes == 0x3010)).length < 16
  else if f = 0x50 || f = 0x51 then s.trelfort.swapAt.isNone
  else true

/-- A ticket of the array is left (R430). -/
def State.ticketLeft (s : State) (f : Nat) : Bool :=
  f != 0 || subMod 16 (s.fget Reg.INTG_TICKET Fld.INTG_TICKET_NEXT) (s.fget Reg.INTG_TICKET Fld.INTG_TICKET_SETTLED) < 65535

/-- R86. Ring m, which feeds function f, has a descriptor ready to start. -/
def State.readyOn (s : State) (f m : Nat) : Bool :=
  match (s.sqSt m).fetched with
  | [] => false
  | x :: _ => s.targetFetched m x == some f && s.fnState (sqFn m) == fnRUN && s.serialOk m x.bytes && !s.late x && s.hasEvents m x &&
      !s.takesPoison m x && (dOPCODE x.bytes / 0x1000 != 1 || !s.arrayBehind x.bytes (s.peekParam m x))

/-- R86. It is the turn of ring n among the rings that feed function f. -/
def State.turnOf (s : State) (f n : Nat) : Bool :=
  let last := tblGet (fun _ => 31) s.rrLast f
  (f == 0 && (match s.arr.prefetch with | some q => q.1 == n | none => false)) ||
    !((List.range (subMod 8 n (last + 1))).any (fun i => s.readyOn f ((last + 1 + i) % 256)))

/-! ### The start -/

/-- The head of ring n leaves the fetched list. -/
def State.dropFetched (s : State) (n : Nat) : State := s.setSq n { s.sqSt n with fetched := (s.sqSt n).fetched.drop 1 }

/-- The head of ring n completes without starting. -/
def State.endHead (s : State) (n : Nat) (f : Fetched) (d : Done) : State := ((s.dropFetched n).forgetPrefetch n f.seq).completeFetched n f (s.doneDie d)

/-- R83. The head of ring n takes its events. -/
def State.takeEvents (s : State) (n : Nat) (f : Fetched) : State := s.lower (Reg.RING_EVT_BANK n) Fld.RING_EVT_BANK_COUNT (dWAIT f.bytes)

/-- A descriptor that passes every check starts on its function or on its substitute. -/
def State.startOn (s : State) (n : Nat) (f : Fetched) (fn : Nat) (p : List Byte) : State :=
  let d : Started := { ring := n, seq := f.seq, bytes := f.bytes, param := p, fn := fn, gen := s.gen fn, deadline := f.deadline, slots := f.slots,
                       startAt := s.clk.now, rgen := s.gen (sqFn n) }
  let s0 := s.dropFetched n
  let s1 : State := { s0 with rrLast := tblPut (fun _ => 31) s0.rrLast fn n }
  if fn = 0 then State.startArray { s1 with started := s1.started ++ [d] } d
  else if hasSubstitute fn then
    let ve := if s1.needsVe fn f.bytes then s1.veBlock (ownerBlock f.bytes) else none
    let d1 := { d with fallback := ve.isSome }
    State.startUpd { s1 with started := s1.started ++ [d1] } d1 ve
  else { s1 with started := s1.started ++ [d] }

/-- Checks 7 to 11 of a descriptor that is about to start, and its start; `wait` is the state where its function has no room for it or it
is not its turn, when it is not about to start (R192) and takes no events. -/
def State.aboutToStart (s0 wait : State) (n : Nat) (f : Fetched) (ext : List Byte) : State :=
  let b := f.bytes
  let q := s0.paramOf n f ext
  let s := q.1
  let p := q.2
  if dOPCODE b = 0 then s.endHead n f { status := stSUCCESS }
  else if rangeBad b p then s.endHead n f { status := stBAD_OPERAND }
  else match targetOf b p with
    | none => s.endHead n f { status := stBAD_OPERAND }
    | some fn =>
      if s.cancels fn b then s.endHead n f { status := stCANCELLED }
      else if s.genStale? fn b then
        (s.report 0x12 0 { ctxOf n b (s.fnDie fn) (unitOfFn fn) with fn := some fn }).endHead n f { status := stGEN_STALE }
      else if s.paramPoisoned n b then (s.paramReport n f).endHead n f { status := stFAULTED, cls := 0x07 }
      else if s.operandsBad b p then s.endHead n f (startDone fn stBAD_OPERAND)
      else if !s.hasRoom fn n f.seq b p || !s.ticketLeft fn || !s.turnOf fn n then wait
      else if s.startRefused b p then s.endHead n f (startDone fn stREFUSED)
      else s.startOn n f fn p

/-- R776. Checks 4 to 6 of the next descriptor of ring n, and what follows. -/
def startNext (s : State) (n : Nat) (f : Fetched) (ext : List Byte) : State :=
  if !s.serialOk n f.bytes then s
  else if s.late f then s.endHead n f (lateDone (s.waitedFor n f))
  else if !s.hasEvents n f then s
  else
    let s1 := s.takeEvents n f
    if s.takesPoison n f then
      (s1.fput (Reg.RING_EVT_BANK n) Fld.RING_EVT_BANK_POISON 0).endHead n f { status := stCANCELLED, cring := (s.sqSt n).poisonBy }
    else s1.aboutToStart s n f ext

/-- R776. The DESCRIPTOR_START command. -/
def execDescriptorStart (n : Nat) (param : List Byte) (ecc : EccFinds) (z : State) : Host.Outcome State Fault Refusal :=
  let s := z.eccAll ecc
  .next (match (s.sqSt n).fetched with
    | f :: _ => if n < 256 && s.fnState (sqFn n) == fnRUN then startNext s n f param else s
    | [] => s)

end Sys2Proof.Machine
end

