-- ==== Sys2Proof/Machine/Receive.lean ====
section
/-!
DEFINITION. Packets that reach the module: delivered or forwarded (spec/07 R323-R331), the requests and replies of the fabric served
(spec/01 R31, spec/09 R433), output rows (spec/05 R249), and error replies (R331).
-/
namespace Sys2Proof.Machine

open Sys2Proof

/-! ### Packets served at once (R322) -/

/-- The master that a packet of another module stands for (R46, R48). -/
def pktWho (k : Packet) : Master := .remote (if k.port < 48 then k.port / 6 else 0) k.src k.vc (bitOf k.flags 1) k.tag k.layer k.op

/-- R331. An error reply of this module to a request. -/
def State.refuse (s : State) (r : Nat) (k : Packet) (err : Nat) : State := s.send r { errorReply k 0 err with flags := k.flags &&& 2 }

/-- R31. A write request: performed, and acknowledged or refused. -/
def State.writeRequest (s : State) (r : Nat) (k : Packet) : State :=
  let a := ownAt k.addr
  let s1 := s.serveWrite (pktWho k) a k.body
  if s.writeGone r a k.body.length then s1.refuse r k 2
  else s1.send r { dst := k.src, src := 0, kind := 0x05, gen := k.gen, addr := k.addr, layer := k.layer, op := k.op, tag := k.tag, vc := k.vc,
                   flags := k.flags &&& 2 }

/-- A reply ends the wait for a tag: the read, and what was noted of its timer. -/
def State.takeRead (s : State) (tag : Nat) : Option (RemRead × State) :=
  match s.fab.reads.find? (·.tag == tag) with
  | some x => some (x, { s with
      fab := { s.fab with reads := s.fab.reads.filter (·.tag != tag) }
      flt := { s.flt with timed := s.flt.timed.filter (fun t => !(t.kind == 1 && t.ring == 0xFF && t.tag == tag)) } })
  | none => none

/-- R465. A read reply or a write acknowledgement reaches who waits for it; one for no waiting tag is dropped and counted as stale at
link die 0. -/
def State.readAnswered (s : State) (k : Packet) : State :=
  match s.takeRead k.tag with
  | some (x, s1) => s1.replyRead x.who x.addr { data := k.body, mapped := true }
  | none => s.dropStale 0x30

/-- Put a range into a list of ranges that rises by place. -/
def insRange (x : Nat × Nat) : List (Nat × Nat) → List (Nat × Nat)
  | [] => [x]
  | y :: t => if x.1 < y.1 then x :: y :: t else if x.1 = y.1 then x :: t else y :: insRange x t

/-- R249. The pages that a row, at some places, makes whole with the rows of its GATHER that came before are sealed with FMT OUT_FMT. -/
def State.sealWhole (s : State) (k : Packet) (ps : List (Nat × Nat)) : State :=
  match s.rowsIn.find? (fun x => x.src == k.src && x.tag == k.tag) with
  | none => s
  | some x =>
    let done := ps.foldl (fun l p => insRange p l) x.done
    let s1 : State := { s with rowsIn := updFirst (fun y => y.src == k.src && y.tag == k.tag) (fun y => { y with done := done }) s.rowsIn }
    let old := joinRanges x.done
    let new := joinRanges done
    (dedup (ps.flatMap (fun p => pagesOf p.1 p.2))).foldl (fun s p =>
      if coversPage new p && !coversPage old p then s.sealPage p (leAt k.body 0 1) (leAt k.body 1 1) (defaultId p) else s) s1

/-- R249, R413. An output row of a GATHER of another module is written with tags. -/
def State.rowWrite (s : State) (r : Nat) (k : Packet) : State :=
  let w := [(ownAt k.addr, k.body.drop 2)]
  let ps := (s.placed w).map (fun p => (p.1, p.2.length))
  (s.awareWrites { die := 0x40 + r, unit := 0x13, region := some r, layer := k.layer, op := k.op } (leAt k.body 0 1) (leAt k.body 1 1) defaultId w).1.sealWhole k ps

/-- The packets that no command of their own takes. -/
def servedKind (k : Packet) : Bool := [0x01, 0x02, 0x04, 0x05, 0x16].contains k.kind || (k.kind == 0x03 && !pUnconf k)

/-- A packet of region r for this module is served. -/
def State.servePacket (s : State) (r : Nat) (k : Packet) : State :=
  if k.kind = 0x01 then (if leAt k.body 0 8 ≤ 4096 then s.serveRead (pktWho k) (ownAt k.addr) (leAt k.body 0 8) else s)
  else if k.kind = 0x03 then s.serveWrite (pktWho k) (ownAt k.addr) k.body
  else if k.kind = 0x04 then s.writeRequest r k
  else if k.kind = 0x16 then s.rowWrite r k
  else s.readAnswered k

/-! ### Delivery and forwarding (R323, R324, R331) -/

/-- R324, R331. A packet that came in through port q goes to this module, on to the next hop, or is discarded. -/
def State.ingress (s : State) (r q : Nat) (k : Packet) : State :=
  if k.dst = 0xFFFF || (s.chip.isSome && k.dst = s.fget Reg.MOD_CHIP_NUMBER ⟨15, 0⟩) then
    if servedKind k then s.servePacket r k else s.deliver k
  else if k.ttl ≤ 1 then s.discardPacket r k
  else s.forward r { k with ttl := k.ttl - 1 } (some q)

/-- R324. PACKET_RECEIVE: a packet whose flits have come in through port p, or one that was delivered to this module. -/
def execPacketReceive (r : Nat) (p : Option Nat) (pkt : Packet) (ecc : EccFinds) (z : State) : Host.Outcome State Fault Refusal :=
  let s := z.eccAll ecc
  .next (match p with
    | some q =>
      if q < 48 && q / 6 = r && pkt.kind != 0x3A then
        (match s.takeInbox q pkt with
        | some s1 => let x := s1.clearMgmt r pkt; x.1.ingress r q x.2
        | none => s)
      else s
    | none =>
      if r < 8 && servedKind pkt then (match s.take pkt with | some s1 => s1.servePacket r pkt | none => s) else s)

/-! ### Error replies (R331) -/

/-- R255. A row request or an OPEN message came back: the GATHER fails. -/
def State.gatherError (s : State) (k : Packet) : State :=
  match s.gathers.find? (fun g => (g.openTag == k.tag && !g.opened) || g.bags.any (fun b => b.any (fun q => q.st == 2 && q.tag == k.tag))) with
  | none => s
  | some g =>
    match s.findStarted g.ring g.seq with
    | none => s
    | some d =>
      if k.gen != d.gen then s.dropStale (0x10 + 4 * g.region)
      else
        (s.unmapped k.addr { ctxOf g.ring d.bytes (0x40 + g.region) 0x13 with region := some g.region }).endGather g.ring g.seq
          { status := stFAULTED, cls := 0x14, die := 0x40 + g.region, unit := 0x13 }

/-- An EXP or a CONTRIB came back: the rank fails. LAYER, OP and ADDR, the home engine, name it. -/
def State.rankError (s : State) (k : Packet) : State :=
  match s.ranks.find? (fun q => !q.closed && dLAYER q.bytes == k.layer && dOP q.bytes == k.op && (redP q.bytes q.param).homeEng == k.addr) with
  | none => s
  | some q =>
    if k.gen != s.gen (0x40 + q.eng) then s.dropStale (0x40 + q.eng)
    else (s.unmapped k.addr (rankCtx q.ring q.eng q.bytes)).finishRank q { status := stFAULTED, cls := 0x14 }

/-- R331, R349, R351, R528. A Rope packet, which carries the index of its entry in TAG, or a CADDY_COPY came back. -/
def State.treeError (s : State) (k : Packet) : State :=
  if k.tag != 0 then s.ropeUnanswered k.tag
  else match s.caddy with
    | some c => s.caddyAnswered c.step k.addr 2
    | none => s

/-- R31, R433. A read or a write request came back: zero, poisoned where the page was withdrawn. -/
def State.readError (s : State) (k : Packet) : State :=
  match s.takeRead k.tag with
  | some (x, s1) =>
    let s2 := if k.err = 3 then s1 else s1.unmapped x.addr (s1.whoCtx x.who)
    s2.replyRead x.who x.addr { data := List.replicate x.len 0#8, poison := k.err == 3 }
  | none => s.dropStale 0x30

/-- R331. ERROR_REPLY_RECEIVE: the channel tells which units send requests on it. -/
def execErrorReplyReceive (pkt : Packet) (s : State) : Host.Outcome State Fault Refusal :=
  .next (if pkt.kind = 0x06 then
      (match s.take pkt with
      | some s1 =>
        if pkt.vc = 3 then s1.gatherError pkt
        else if pkt.vc = 2 then s1.rankError pkt
        else if pkt.vc = 1 then s1.treeError pkt
        else s1.readError pkt
      | none => s)
    else s)

end Sys2Proof.Machine
end

