-- ==== Sys2Proof/Machine/VeOp.lean ====
section
/-!
DEFINITION. VE_OP (spec/04 R203-R207): the operations of the vector engines.
-/
namespace Sys2Proof.Machine

open Sys2Proof

/-- R203. n input elements of a format in rows of len, widened to binary32, with their block scales applied. -/
def State.veIn (s : State) (f addr n len : Nat) : List FVal :=
  let w := elemBits f / 8
  let d := s.gread addr (elemBytes f n)
  let sc := if blockScaled f then s.gread (scalesAt addr f n) (scaleCount n len) else []
  (List.range n).map (fun i =>
    let v := elemVal f (leAt d (w * i) w)
    if blockScaled f then (scaled (leAt sc (i / len * ceilDiv len 32 + i % len / 32) 1) v).round fA32 else v)

/-- R206 MAX and MIN: `up` chooses the larger. Which zero results from two zeros of different signs is open. -/
def veMax (up : Bool) (x y : FVal) : FVal :=
  if x.isNan || y.isNan then .nan
  else if FVal.lt x y then (if up then y else x)
  else if FVal.lt y x then (if up then x else y)
  else if x.isZero && y.isZero && x.isNeg != y.isNeg then
    .fin (bitOf (Config.veOpen (if up then 4 else 5) (BitVec.ofNat 32 (toF32 x))).toNat 31) 0 0
  else x

/-- R206. An element-wise operation. -/
def veElem (sub : Nat) (alpha x y : FVal) : FVal :=
  if sub = 1 then a32 x y
  else if sub = 2 then m32 x y
  else if sub = 3 then ((alpha.mul x).add y).round fA32
  else if sub = 4 then veMax true x y
  else if sub = 5 then veMax false x y
  else if sub = 6 then veExp x
  else if sub = 7 then veLog x
  else if sub = 8 then veRsqrt x
  else x

/-- R206. A row operation on one row; n is ROWLEN and y the gain. -/
def veRow (sub n : Nat) (alpha : FVal) (y x : List FVal) : List FVal :=
  let nf : FVal := .fin false n 0
  if sub = 0x10 then
    let r := veRsqrt (a32 (fdiv fA32 (veSum (x.map (fun v => m32 v v))) nf) alpha)
    List.zipWith (fun v g => m32 (m32 v g) r) x y
  else if sub = 0x11 then
    let mu := fdiv fA32 (veSum x) nf
    let c := x.map (fun v => s32 v mu)
    let r := veRsqrt (a32 (fdiv fA32 (veSum (c.map (fun v => m32 v v))) nf) alpha)
    List.zipWith (fun v g => m32 (m32 v g) r) c y
  else if sub = 0x12 then
    let m := x.foldl (veMax true) (x.headD .nan)
    let e := x.map (fun v => veExp (s32 v m))
    let t := veSum e
    e.map (fun v => fdiv fA32 v t)
  else [veSum x]

/-- The results of a VE_OP but for TOPK_MERGE, in rows. -/
def State.veResult (s : State) (v : VeP) : List (List FVal) :=
  let x := s.veIn v.inF v.x v.count v.inRow
  let al := ofF32 v.alpha
  if v.rowOp then
    let y := if v.gain then s.veIn v.inF v.y v.rowlen v.rowlen else []
    (chunksOf v.rowlen x.length x).map (veRow v.sub v.rowlen al y)
  else
    let y := if v.two then s.veIn v.inF v.y v.count v.count else x
    [List.zipWith (veElem v.sub al) x y]

/-- Rows of values as element bytes and scale bytes of a format (R126, R157, R158, R205). -/
def packRows (f : Nat) (rows : List (List FVal)) : List Byte × List Byte :=
  if blockScaled f then
    let bs := rows.flatMap (fun r => (chunksOf 32 r.length r).map (convBlock f false))
    (packElems f (bs.flatMap (·.2.1)), bs.map (fun b => BitVec.ofNat 8 b.1))
  else (packElems f (rows.flatten.map (fun v => (convElem f v).1)), [])

/-- R206 TOPK_MERGE. The k entries that rank highest in COUNT lists of k. -/
def State.veMerge (s : State) (v : VeP) : List Byte :=
  let d := s.gread v.x (16 * v.rowlen * v.count)
  let es := (List.range (v.rowlen * v.count)).map (fun i =>
    (elemVal v.inF (leAt d (16 * i) (elemBits v.inF / 8)), leAt d (16 * i + 8) 8))
  (topkBytes v.outF v.rowlen (rankMerge v.rowlen [] es)).1

/-- What a VE_OP writes: elements, then scales. The binary32 sums of ROWSUM, too, are converted to OUT_FMT (R203, R205, assumption 116). -/
def State.veWrites (s : State) (v : VeP) : List Byte × List Byte :=
  if v.merge then (s.veMerge v, [])
  else
    let rs := s.veResult v
    packRows v.outF (if v.sub = 0x18 then [rs.flatten] else rs)

/-- R666. The lane operations that one row of n elements takes, as the formulas of R206 are computed, and its elementary functions
(assumption 90). -/
def veRowOps (sub n : Nat) : Nat × Nat :=
  if sub = 0x10 then (4 * n, 1)
  else if sub = 0x11 then (6 * n - 1, 1)
  else if sub = 0x12 then (3 * n - 2, n)
  else (n - 1, 0)

/-- R666. The lane operations and elementary functions of n elements of an element-wise operation. -/
def veElemOps (sub n : Nat) : Nat × Nat :=
  if 6 ≤ sub && sub ≤ 8 then (0, n) else if sub = 9 then (0, 0) else (n, 0)

/-- R207. The pieces of a VE_OP: 2,048 elements each, or a row each; TOPK_MERGE is one. Each with its events. -/
def VeP.pieces (v : VeP) : List (List (Nat × Nat)) :=
  let ev (q : Nat × Nat) : List (Nat × Nat) := [(0x08, q.1), (0x09, q.2)]
  if v.merge then [[(0x0B, v.rowlen)]]
  else if v.rowOp then (List.range v.rows).map (fun i => ev (veRowOps v.sub (min v.rowlen (v.count - i * v.rowlen))))
  else (List.range (ceilDiv v.count 2048)).map (fun i => ev (veElemOps v.sub (min 2048 (v.count - i * 2048))))

/-- R207, R215. The active blocks count the events of the pieces that are dealt to them in ascending order, wrapping round. -/
def State.veEvents (s : State) (b : List Byte) (v : VeP) (blocks : List Nat) : State :=
  v.pieces.zipIdx.foldl (fun s p => s.arrEvents b (blocks.getD (p.2 % max 1 blocks.length) 0) p.1) s

/-- R411, R413, R414. A VE_OP reads its inputs, computes, and writes its output with tags; the class of a failure. -/
def State.veRun (s : State) (c : Ctx) (v : VeP) (step : Nat) : State × Option Nat :=
  let q := s.awareChecks c v.ins
  match q.2 with
  | some cls => (q.1, some cls)
  | none =>
    let w := q.1.veWrites v
    let a := q.1.awareWrites c (if v.merge then 0 else v.outF) step defaultId [(v.z, w.1)]
    if w.2.isEmpty then a
    else
      let b := a.1.awareWrites c 0x07 step defaultId [(scalesAt v.z v.outF v.count, w.2)]
      (b.1, if a.2.isSome then a.2 else b.2)

/-- R206, R207, R430. A VE_OP runs to its end, and its ticket settles with it when it is the earliest. -/
def veOp (s : State) (r : ArrRun) (d : Started) : State :=
  let v := veP d.bytes
  let b := r.active.headD 0 / 64
  let q := s.veRun { arrCtx r.ring d.bytes (b * 64) with unit := 0x04, cell := 0xFF } v (dSTEP d.bytes)
  let o : Done := match q.2 with
    | some cls => { status := stFAULTED, cls := cls, die := b, unit := 0x04 }
    | none => { status := stSUCCESS, die := b, unit := 0x04 }
  let q1 := if q.2.isNone then q.1.veEvents d.bytes v (dedup (r.active.map (· / 64))) else q.1
  let s1 := (q1.setDone r.ring r.seq o).endRun
  match s1.ripeTicket with
  | some k => if k.num = r.ticket then s1.settle k else s1
  | none => s1

/-- R206. The VE_OP command; it waits while a page that it touches is pending (R433). -/
def execVeOp (n seq : Nat) (ecc : EccFinds) (z : State) : Host.Outcome State Fault Refusal :=
  let s := z.eccAll ecc
  .next (match s.runOf n seq with
    | some (r, d) =>
      if r.op = 0x1020 && !((veP d.bytes).ins ++ (veP d.bytes).outs).any (fun q => s.pendingIn q.1 q.2) then veOp s r d else s
    | none => s)

end Sys2Proof.Machine
end

