-- ==== Sys2Proof/Machine/Dispatch.lean ====
section
/-!
DEFINITION. One arm per command: the call of its meaning.
-/
namespace Sys2Proof.Machine

open Sys2Proof

/-- What a command does to everything but the queue of commands. -/
def exec (i : Instr) (s : State) : Host.Outcome State Fault Refusal :=
  match i with
  | .memoryRead who sp addr len ecc => Sys2Proof.Machine.execMemoryRead who sp addr len ecc s
  | .memoryWrite who sp addr data => Sys2Proof.Machine.execMemoryWrite who sp addr data s
  | .registerWrite who off value => Sys2Proof.Machine.execRegisterWrite who off value s
  | .registerHolderTimeout who off write => Sys2Proof.Machine.execRegisterHolderTimeout who off write s
  | .bridgeRetryExhausted bridge => Sys2Proof.Machine.execBridgeRetryExhausted bridge s
  | .doorbell n value => Sys2Proof.Machine.execDoorbell n value s
  | .descriptorFetch n data param ecc => Sys2Proof.Machine.execDescriptorFetch n data param ecc s
  | .descriptorStart n param ecc => Sys2Proof.Machine.execDescriptorStart n param ecc s
  | .deadlineExpire n seq => Sys2Proof.Machine.execDeadlineExpire n seq s
  | .deadlineMiss n seq => Sys2Proof.Machine.execDeadlineMiss n seq s
  | .descriptorComplete n seq => Sys2Proof.Machine.execDescriptorComplete n seq s
  | .msixUnmask vector => Sys2Proof.Machine.execMsixUnmask vector s
  | .cqHeadWrite m value => Sys2Proof.Machine.execCqHeadWrite m value s
  | .cmdStop f => Sys2Proof.Machine.execCmdStop f s
  | .cmdChange f => Sys2Proof.Machine.execCmdChange f s
  | .cmdRestart f => Sys2Proof.Machine.execCmdRestart f s
  | .cmdAbort f => Sys2Proof.Machine.execCmdAbort f s
  | .drainComplete f => Sys2Proof.Machine.execDrainComplete f s
  | .drainLimitExpire f => Sys2Proof.Machine.execDrainLimitExpire f s
  | .staleReplyDrop f gen => Sys2Proof.Machine.execStaleReplyDrop f gen s
  | .sweep n seq pick ecc => Sys2Proof.Machine.execSweep n seq pick ecc s
  | .interact n seq pick ecc => Sys2Proof.Machine.execInteract n seq pick ecc s
  | .veOp n seq ecc => Sys2Proof.Machine.execVeOp n seq ecc s
  | .chunkApply cell bad corr ecc => Sys2Proof.Machine.execChunkApply cell bad corr ecc s
  | .tileFold cell tile fault bad corr ecc => Sys2Proof.Machine.execTileFold cell tile fault bad corr ecc s
  | .prefetchStart => Sys2Proof.Machine.execPrefetchStart s
  | .fenceClearWrite block value => Sys2Proof.Machine.execFenceClearWrite block value s
  | .scrubRead st ecc => Sys2Proof.Machine.execScrubRead st ecc s
  | .cutTokenArrival r => Sys2Proof.Machine.execCutTokenArrival r s
  | .cutTokenRelease r => Sys2Proof.Machine.execCutTokenRelease r s
  | .gather n seq ofs idx wts ecc => Sys2Proof.Machine.execGather n seq ofs idx wts ecc s
  | .rowRequest r pkt ecc => Sys2Proof.Machine.execRowRequest r pkt ecc s
  | .rowReply n seq pos pkt ecc => Sys2Proof.Machine.execRowReply n seq pos pkt ecc s
  | .gatherOpen pkt => Sys2Proof.Machine.execGatherOpen pkt s
  | .updateDense n seq count bad ecc => Sys2Proof.Machine.execUpdateDense n seq count bad ecc s
  | .updateRows n seq count bad ecc => Sys2Proof.Machine.execUpdateRows n seq count bad ecc s
  | .setcoef n seq ecc => Sys2Proof.Machine.execSetcoef n seq ecc s
  | .veTakeover r => Sys2Proof.Machine.execVeTakeover r s
  | .flitSend p parity => Sys2Proof.Machine.execFlitSend p parity s
  | .dataFlitReceive p f crcOk => Sys2Proof.Machine.execDataFlitReceive p f crcOk s
  | .idleFlitReceive p f crcOk => Sys2Proof.Machine.execIdleFlitReceive p f crcOk s
  | .nakReceive p seq => Sys2Proof.Machine.execNakReceive p seq s
  | .ackReceive p seq => Sys2Proof.Machine.execAckReceive p seq s
  | .ackTimer p => Sys2Proof.Machine.execAckTimer p s
  | .portRetrain p => Sys2Proof.Machine.execPortRetrain p s
  | .portTrainingComplete p lastSeq passedOff => Sys2Proof.Machine.execPortTrainingComplete p lastSeq passedOff s
  | .portTrainingTimeout p => Sys2Proof.Machine.execPortTrainingTimeout p s
  | .portLinkLoss p => Sys2Proof.Machine.execPortLinkLoss p s
  | .portDownRetry p => Sys2Proof.Machine.execPortDownRetry p s
  | .helloTimer => Sys2Proof.Machine.execHelloTimer s
  | .helloReceive p f crcOk => Sys2Proof.Machine.execHelloReceive p f crcOk s
  | .discoveryTimeout p => Sys2Proof.Machine.execDiscoveryTimeout p s
  | .packetReceive r p pkt ecc => Sys2Proof.Machine.execPacketReceive r p pkt ecc s
  | .errorReplyReceive pkt => Sys2Proof.Machine.execErrorReplyReceive pkt s
  | .keepWarmRequest p rx crcOk => Sys2Proof.Machine.execKeepWarmRequest p rx crcOk s
  | .keepWarmExitRequest p rx crcOk => Sys2Proof.Machine.execKeepWarmExitRequest p rx crcOk s
  | .keepWarmExitComplete p => Sys2Proof.Machine.execKeepWarmExitComplete p s
  | .jobStart n seq ecc => Sys2Proof.Machine.execJobStart n seq ecc s
  | .jobEnd n seq => Sys2Proof.Machine.execJobEnd n seq s
  | .arm pkt entries => Sys2Proof.Machine.execArm pkt entries s
  | .armAckReceive pkt => Sys2Proof.Machine.execArmAckReceive pkt s
  | .armWaitExpire job => Sys2Proof.Machine.execArmWaitExpire job s
  | .rootArmTimeout => Sys2Proof.Machine.execRootArmTimeout s
  | .adopt pkt entries => Sys2Proof.Machine.execAdopt pkt entries s
  | .missingTimeout => Sys2Proof.Machine.execMissingTimeout s
  | .commit pkt => Sys2Proof.Machine.execCommit pkt s
  | .commitAckReceive pkt => Sys2Proof.Machine.execCommitAckReceive pkt s
  | .startTimeReached => Sys2Proof.Machine.execStartTimeReached s
  | .disarm pkt => Sys2Proof.Machine.execDisarm pkt s
  | .armHoldExpire => Sys2Proof.Machine.execArmHoldExpire s
  | .reduce n seq ecc => Sys2Proof.Machine.execReduce n seq ecc s
  | .digestClose n seq ecc => Sys2Proof.Machine.execDigestClose n seq ecc s
  | .exp pkt => Sys2Proof.Machine.execExp pkt s
  | .busy pkt => Sys2Proof.Machine.execBusy pkt s
  | .expRetryTimer n seq => Sys2Proof.Machine.execExpRetryTimer n seq s
  | .grantSend e coll step bucket => Sys2Proof.Machine.execGrantSend e coll step bucket s
  | .grant pkt ecc => Sys2Proof.Machine.execGrant pkt ecc s
  | .contrib pkt => Sys2Proof.Machine.execContrib pkt s
  | .result pkt => Sys2Proof.Machine.execResult pkt s
  | .abort pkt => Sys2Proof.Machine.execAbort pkt s
  | .homeDeadlineExpire e coll step bucket => Sys2Proof.Machine.execHomeDeadlineExpire e coll step bucket s
  | .confirm pkt => Sys2Proof.Machine.execConfirm pkt s
  | .retract pkt => Sys2Proof.Machine.execRetract pkt s
  | .resultConfirm pkt => Sys2Proof.Machine.execResultConfirm pkt s
  | .resultRetract pkt => Sys2Proof.Machine.execResultRetract pkt s
  | .journalSteepExpire e coll step bucket rank => Sys2Proof.Machine.execJournalSteepExpire e coll step bucket rank s
  | .resultSteepExpire n seq => Sys2Proof.Machine.execResultSteepExpire n seq s
  | .tagSeal n seq ecc => Sys2Proof.Machine.execTagSeal n seq ecc s
  | .tagVerify n seq ecc => Sys2Proof.Machine.execTagVerify n seq ecc s
  | .tagCopyReadback r page chip dst crc again => Sys2Proof.Machine.execTagCopyReadback r page chip dst crc again s
  | .strainerVerdict ticket tile forced => Sys2Proof.Machine.execStrainerVerdict ticket tile forced s
  | .replayJudge ticket forced fault ecc => Sys2Proof.Machine.execReplayJudge ticket forced fault ecc s
  | .lockstepMismatch block => Sys2Proof.Machine.execLockstepMismatch block s
  | .ticketSettle => Sys2Proof.Machine.execTicketSettle s
  | .fenceMessage r ticket => Sys2Proof.Machine.execFenceMessage r ticket s
  | .steepFenceTimer ticket => Sys2Proof.Machine.execSteepFenceTimer ticket s
  | .unconfirmedWriteReceive r pkt => Sys2Proof.Machine.execUnconfirmedWriteReceive r pkt s
  | .writeConfirm r pkt => Sys2Proof.Machine.execWriteConfirm r pkt s
  | .writeRetract r pkt => Sys2Proof.Machine.execWriteRetract r pkt s
  | .steepWindowExpire src item => Sys2Proof.Machine.execSteepWindowExpire src item s
  | .earlyTokenExpire => Sys2Proof.Machine.execEarlyTokenExpire s
  | .auditCompare n seq fault ecc => Sys2Proof.Machine.execAuditCompare n seq fault ecc s
  | .auditThirdJudge n seq fault ecc => Sys2Proof.Machine.execAuditThirdJudge n seq fault ecc s
  | .scanBlock n seq => Sys2Proof.Machine.execScanBlock n seq s
  | .scanProceed => Sys2Proof.Machine.execScanProceed s
  | .scanFinish patterns fails first badSegment => Sys2Proof.Machine.execScanFinish patterns fails first badSegment s
  | .congestionEpisode level die point tc => Sys2Proof.Machine.execCongestionEpisode level die point tc s
  | .faultReport cls sev die unit cell port ring seq layer op => Sys2Proof.Machine.execFaultReport cls sev die unit cell port ring seq layer op s
  | .ceRate subject => Sys2Proof.Machine.execCeRate subject s
  | .regionTimerExpire n seq die target write lower => Sys2Proof.Machine.execRegionTimerExpire n seq die target write lower s
  | .fabricTimerExpire tag lower => Sys2Proof.Machine.execFabricTimerExpire tag lower s
  | .moduleTimerExpire n seq => Sys2Proof.Machine.execModuleTimerExpire n seq s
  | .reclaim n seq => Sys2Proof.Machine.execReclaim n seq s
  | .waitforSample => Sys2Proof.Machine.execWaitforSample s
  | .egressStall p vc cls => Sys2Proof.Machine.execEgressStall p vc cls s
  | .probeResendTimer p vc cls => Sys2Proof.Machine.execProbeResendTimer p vc cls s
  | .hangProbe p pkt => Sys2Proof.Machine.execHangProbe p pkt s
  | .lanternBeat src => Sys2Proof.Machine.execLanternBeat src s
  | .lanternMissTimer src pickup => Sys2Proof.Machine.execLanternMissTimer src pickup s
  | .reset n seq => Sys2Proof.Machine.execReset n seq s
  | .resetCmdCompute mgmt dump => Sys2Proof.Machine.execResetCmdCompute mgmt dump s
  | .resetCmdModule mgmt dump => Sys2Proof.Machine.execResetCmdModule mgmt dump s
  | .resetCmdCold mgmt dump => Sys2Proof.Machine.execResetCmdCold mgmt dump s
  | .modResetAssert => Sys2Proof.Machine.execModResetAssert s
  | .perstAssert => Sys2Proof.Machine.execPerstAssert s
  | .perstDeassert => Sys2Proof.Machine.execPerstDeassert s
  | .blockBeatTimeout b => Sys2Proof.Machine.execBlockBeatTimeout b s
  | .computeResetTimeout => Sys2Proof.Machine.execComputeResetTimeout s
  | .moduleRecoveryTimeout => Sys2Proof.Machine.execModuleRecoveryTimeout s
  | .resetEnd => Sys2Proof.Machine.execResetEnd s
  | .summaryFlashCopy t => Sys2Proof.Machine.execSummaryFlashCopy t s
  | .caddyRecord n seq ecc => Sys2Proof.Machine.execCaddyRecord n seq ecc s
  | .caddyCopy pkt => Sys2Proof.Machine.execCaddyCopy pkt s
  | .caddyAck pkt => Sys2Proof.Machine.execCaddyAck pkt s
  | .buddyWaitExpire => Sys2Proof.Machine.execBuddyWaitExpire s
  | .spreadApply n seq ecc => Sys2Proof.Machine.execSpreadApply n seq ecc s
  | .rebuild n seq views pieces ecc => Sys2Proof.Machine.execRebuild n seq views pieces ecc s
  | .cut n seq => Sys2Proof.Machine.execCut n seq s
  | .sumpCopy r ecc => Sys2Proof.Machine.execSumpCopy r ecc s
  | .heldWriteRelease ecc => Sys2Proof.Machine.execHeldWriteRelease ecc s
  | .manifestSeal views ecc => Sys2Proof.Machine.execManifestSeal views ecc s
  | .foldEnd views ecc => Sys2Proof.Machine.execFoldEnd views ecc s
  | .flowstoneDrainEnd bad ecc => Sys2Proof.Machine.execFlowstoneDrainEnd bad ecc s
  | .restoreSelect n seq mods list ecc => Sys2Proof.Machine.execRestoreSelect n seq mods list ecc s
  | .restore n seq ext ecc => Sys2Proof.Machine.execRestore n seq ext ecc s
  | .bootRom t => Sys2Proof.Machine.execBootRom t s
  | .kcoreLockstep t => Sys2Proof.Machine.execKcoreLockstep t s
  | .takeover => Sys2Proof.Machine.execTakeover s
  | .journalEntry lost lag => Sys2Proof.Machine.execJournalEntry lost lag s
  | .syncComplete => Sys2Proof.Machine.execSyncComplete s
  | .swap mgmt swap => Sys2Proof.Machine.execSwap mgmt swap s
  | .swapHandover => Sys2Proof.Machine.execSwapHandover s
  | .fuseSvnAdvance mgmt die svn => Sys2Proof.Machine.execFuseSvnAdvance mgmt die svn s
  | .tmpRead t src dgram ecc => Sys2Proof.Machine.execTmpRead t src dgram ecc s
  | .tmpWrite t src dgram => Sys2Proof.Machine.execTmpWrite t src dgram s
  | .tmpStatus t src dgram => Sys2Proof.Machine.execTmpStatus t src dgram s
  | .flashWrite t src dgram => Sys2Proof.Machine.execFlashWrite t src dgram s
  | .noticeAck t src dgram => Sys2Proof.Machine.execNoticeAck t src dgram s
  | .noticeRepeat seq => Sys2Proof.Machine.execNoticeRepeat seq s
  | .riskEvent subject kind => Sys2Proof.Machine.execRiskEvent subject kind s
  | .riskBucketBoundary => Sys2Proof.Machine.execRiskBucketBoundary s
  | .feedInRange f volt => Sys2Proof.Machine.execFeedInRange f volt s
  | .feedPrechargeDone f => Sys2Proof.Machine.execFeedPrechargeDone f s
  | .feedQualified f selftest => Sys2Proof.Machine.execFeedQualified f selftest s
  | .feedOutOfRange f volt => Sys2Proof.Machine.execFeedOutOfRange f volt s
  | .feedbPowerupTimer => Sys2Proof.Machine.execFeedbPowerupTimer s
  | .feedTrip f volt pickup => Sys2Proof.Machine.execFeedTrip f volt pickup s
  | .feedCurrentLimit curr => Sys2Proof.Machine.execFeedCurrentLimit curr s
  | .evrFlashCopy t => Sys2Proof.Machine.execEvrFlashCopy t s
  | .evrPop who idx => Sys2Proof.Machine.execEvrPop who idx s
  | .clearFlash mgmt => Sys2Proof.Machine.execClearFlash mgmt s
  | .flashEraseDone => Sys2Proof.Machine.execFlashEraseDone s
  | .evrFetch n seq => Sys2Proof.Machine.execEvrFetch n seq s
  | .opHoursSave => Sys2Proof.Machine.execOpHoursSave s
  | .timeParamApply => Sys2Proof.Machine.execTimeParamApply s
  | .rateWrite allowed value => Sys2Proof.Machine.execRateWrite allowed value s
  | .adjWrite allowed value => Sys2Proof.Machine.execAdjWrite allowed value s
  | .slewEnd => Sys2Proof.Machine.execSlewEnd s
  | .ptpMessage msg => Sys2Proof.Machine.execPtpMessage msg s
  | .announceTimeout => Sys2Proof.Machine.execAnnounceTimeout s
  | .syncInEdge => Sys2Proof.Machine.execSyncInEdge s
  | .refclkLost => Sys2Proof.Machine.execRefclkLost s
  | .refclkReturn => Sys2Proof.Machine.execRefclkReturn s
  | .refclkSwitchback sync => Sys2Proof.Machine.execRefclkSwitchback sync s
  | .evtSelWrite who d n value => Sys2Proof.Machine.execEvtSelWrite who d n value s
  | .filterWrite who d n value => Sys2Proof.Machine.execFilterWrite who d n value s
  | .whistleWrite who value => Sys2Proof.Machine.execWhistleWrite who value s
  | .whistleSend who value => Sys2Proof.Machine.execWhistleSend who value s
  | .whistlePacket pkt => Sys2Proof.Machine.execWhistlePacket pkt s
  | .dbgTrigInEdge => Sys2Proof.Machine.execDbgTrigInEdge s
  | .whistleFire => Sys2Proof.Machine.execWhistleFire s
  | .counterDump n seq => Sys2Proof.Machine.execCounterDump n seq s
  | .tracePostStop b => Sys2Proof.Machine.execTracePostStop b s
  | .traceCfgWrite base value => Sys2Proof.Machine.execTraceCfgWrite base value s
  | .jtagBypass t => Sys2Proof.Machine.execJtagBypass t s
  | .jtagIdcode t => Sys2Proof.Machine.execJtagIdcode t s
  | .jtagSamplePreload t pads shifted => Sys2Proof.Machine.execJtagSamplePreload t pads shifted s
  | .jtagExtest t pads shifted => Sys2Proof.Machine.execJtagExtest t pads shifted s
  | .jtagIjtag t bits held => Sys2Proof.Machine.execJtagIjtag t bits held s
  | .jtagKtrace t => Sys2Proof.Machine.execJtagKtrace t s
  | .jtagMemacc t write addr data ecc => Sys2Proof.Machine.execJtagMemacc t write addr data ecc s
  | .jtagKeyprog t key => Sys2Proof.Machine.execJtagKeyprog t key s
  | .trstAssert => Sys2Proof.Machine.execTrstAssert s
  | .powerUp => Sys2Proof.Machine.execPowerUp s
  | .startupReady failed noScan settings rings => Sys2Proof.Machine.execStartupReady failed noScan settings rings s
  | .enumTokenReceive frame coded => Sys2Proof.Machine.execEnumTokenReceive frame coded s
  | .enumTokenSend => Sys2Proof.Machine.execEnumTokenSend s
  | .enumWaitExpire => Sys2Proof.Machine.execEnumWaitExpire s
  | .assignWaitExpire => Sys2Proof.Machine.execAssignWaitExpire s
  | .lockWaitExpire => Sys2Proof.Machine.execLockWaitExpire s
  | .chipAssignWrite mgmt value => Sys2Proof.Machine.execChipAssignWrite mgmt value s
  | .startCfgWrite mgmt value => Sys2Proof.Machine.execStartCfgWrite mgmt value s
  | .targetMhzWrite value => Sys2Proof.Machine.execTargetMhzWrite value s
  | .dvfsGlideStep => Sys2Proof.Machine.execDvfsGlideStep s
  | .arrayIdle => Sys2Proof.Machine.execArrayIdle s
  | .power n seq silent => Sys2Proof.Machine.execPower n seq silent s
  | .thermalWarn die temp => Sys2Proof.Machine.execThermalWarn die temp s
  | .capStep die temp => Sys2Proof.Machine.execCapStep die temp s
  | .thermalTrip die temp lost => Sys2Proof.Machine.execThermalTrip die temp lost s
  | .thermtripRelease => Sys2Proof.Machine.execThermtripRelease s
  | .modResetDeassert => Sys2Proof.Machine.execModResetDeassert s
  | .coolantInletReading temp => Sys2Proof.Machine.execCoolantInletReading temp s
  | .congestionEpisodeEnd level die point tc => Sys2Proof.Machine.execCongestionEpisodeEnd level die point tc s
  | .regionSwitchQuiescent r => Sys2Proof.Machine.execRegionSwitchQuiescent r s
  | .feedPrechargeStart f volt => Sys2Proof.Machine.execFeedPrechargeStart f volt s
  | .pcieConfigRequest req => Sys2Proof.Machine.execPcieConfigRequest req s
  | .pcieLinkUp => Sys2Proof.Machine.execPcieLinkUp s

end Sys2Proof.Machine
end

