-- ==== Sys2Proof/Safety.lean ====
section
/-!
DEFINITION. What counts as a safe step, in the terms that the statements use: the canonical form of the tables, and what no command
may do to the queue, the clock, the free values and what has left the module.
-/
namespace Sys2Proof.Machine

open Sys2Proof

/-- The memories, the tags of staging SRAM and the dirty bits have the one canonical form that equal contents have. -/
def Mem.canon (m : Mem) : Bool := m.wf && tblWf openAt m.stagTag && tblWf falseAt m.dirty

/-- So have the registers and the settings in force. -/
def State.canon (s : State) : Bool := tblWf regReset s.regs && tblWf regReset s.inForce && s.mem.canon

/-- What holds between a state and one that a command leads to: the queue is untouched, time does not go back, free values are not drawn
twice, nothing that has left the module is taken back, and the canonical form is kept. -/
structure Keeps (s t : State) : Prop where
  queue : t.pending = s.pending
  clock : s.clk.now ≤ t.clk.now
  free  : s.freeCtr ≤ t.freeCtr
  out   : s.out <+: t.out
  canon : s.canon = true → t.canon = true

/-! ### Registers that other work changes on its way -/

/-- The registers that a report of a class may change (R458-R461, R639-R642, R672); a Whistle ACTION that it discards is reported too
(R671). -/
def reportRegs (cls : Nat) : List Nat :=
  [Reg.FLT_CLASS_CNT cls, Reg.FLT_SEV_CNT, Reg.FLT_SUPPRESSED, Reg.EVR_HEAD_SEQ, Reg.EVR_DROPPED, Reg.OBS_WHISTLE_STATUS,
   Reg.FLT_CLASS_CNT 0x11]

/-- The registers that reports, records, held writes and packets without a route may change on their way: the counters of spec/10, the
recorder's SEQ and drop counts, WHISTLE_STATUS, SUMP_STATUS and the NO_ROUTE counts. -/
def sideReg (off : Nat) : Bool :=
  (0x800018 ≤ off && off < 0x801000) || (0xC00000 ≤ off && off < 0xC00018) || off == Reg.OBS_WHISTLE_STATUS ||
    (0x380000 ≤ off && off < 0x3A0000) || (0x500000 ≤ off && off < 0x580000 && off % 0x10000 == 0xA0)

/-- The registers of the rings. -/
def ringReg (off : Nat) : Bool := 0x100000 ≤ off && off < 0x108000

/-! ### Words of the statements -/

/-- A counting field rose by n, up to its largest value. -/
def Rose (s t : State) (off : Nat) (f : Fld) (n : Nat) : Prop := t.fget off f = min f.max (s.fget off f + n)

/-- A report of a class was counted once (R459). -/
def Counted (s t : State) (cls : Nat) : Prop := Rose s t (Reg.FLT_CLASS_CNT cls) Fld.FLT_CLASS_CNT_COUNT 1

/-- Every register outside a list is as before. -/
def SameRegs (s t : State) (l : List Nat) : Prop := ∀ off, off ∉ l → t.reg off = s.reg off

/-- The STATUS of the outcome of a started descriptor, once it has one. -/
def State.endOf (s : State) (n seq : Nat) : Option Nat := ((s.findStarted n seq).bind (·.done)).map (·.status)

/-- A delivered packet of a KIND reaches a rank that runs (R387). -/
def State.rankHears (s : State) (kind : Nat) (k : Packet) (q : RankRun) : Prop :=
  (s.take k).isSome = true ∧ k.kind = kind ∧ k.addr ≤ 15 ∧ k.gen = s.gen (0x40 + k.addr) ∧ s.ranks.find? (rankOf k) = some q ∧
    q.closed = false ∧ s.findRank q.ring q.seq = some q

/-- A delivered packet of a KIND reaches a bucket of its home that knows the rank. -/
def State.homeHears (s : State) (kind : Nat) (k : Packet) (h : HomeBucket) (r : HomeRank) : Prop :=
  (s.take k).isSome = true ∧ k.kind = kind ∧ k.addr ≤ 15 ∧ s.homeOf k = some h ∧ h.rankAt (rRank k) = some r

/-- A reset may begin: a feed carries the module and no thermal trip holds it (R495, R726). -/
def State.mayReset (s : State) : Prop := s.pwr.tripAt = none ∧ s.fed = true ∧ s.pwr.good = true

/-- A reset of a level has begun: it runs, and RESET_STATUS shows it, its CAUSE and one more of its level (R483, R512, R514). -/
def ResetBegun (s t : State) (level cause : Nat) : Prop :=
  t.resetLevel = level ∧ t.fget Reg.MOD_RESET_STATUS Fld.MOD_RESET_STATUS_PHASE = 0 ∧
    t.fget Reg.MOD_RESET_STATUS Fld.MOD_RESET_STATUS_IN_PROGRESS = level ∧ t.fget Reg.MOD_RESET_STATUS Fld.MOD_RESET_STATUS_LAST_CAUSE = cause ∧
    Rose s t Reg.MOD_RESET_STATUS (resetField level) 1

/-- A datagram of a type is well formed, for this module, genuine and new at die t (R614-R619). -/
def State.tmpFresh (s : State) (t src type : Nat) (g : List Byte) : Prop :=
  t < 2 ∧ s.trfUp = true ∧ s.tmpForMe g = true ∧ tmpType g = type ∧ s.macOk t g = true ∧
    s.trelfort.replies.find? (fun r => r.1 == 2 * src + t && r.2.1 == tmpSeq g) = none

/-- A REPLY with a STATUS and data has left Trelfort t (R615). -/
def Replied (s t : State) (die src seq status : Nat) (data : List Byte) : Prop :=
  t.out = s.out ++ [.tmp src 0x03 seq (leBytes 2 status ++ leBytes 1 (s.primary.getD 0) ++ List.replicate 13 0#8 ++ data)] ∧
    (2 * src + die, seq, 0x03, leBytes 2 status ++ leBytes 1 (s.primary.getD 0) ++ List.replicate 13 0#8 ++ data) ∈ t.trelfort.replies

/-! ### The parts of the state that a command may change -/

/-- Parts of `State`; those of `mem` stand by themselves, both flash memories are one part, and so are the errors held in HBM with what
scrubbing knows of them, and the notices and their number. The queue is no part: no command changes it. -/
structure Parts where
  (regs inForce genStale drainAt rrLast hbm staging trf hostW flash stagTag poison dirty clk sq started unconf pcie flt evr notices
    pages heldWr waitRd order fab tor freeCtr out dark obs journal arr sump gathers rowsIn upd scrub ranks homes quar scan hang
    trelfort risk pwr caddy : Bool := false)
  deriving DecidableEq, Repr

/-- The parts of p and those of q. -/
def Parts.or (p q : Parts) : Parts :=
  { regs := p.regs || q.regs, inForce := p.inForce || q.inForce, genStale := p.genStale || q.genStale,
    drainAt := p.drainAt || q.drainAt, rrLast := p.rrLast || q.rrLast, hbm := p.hbm || q.hbm, staging := p.staging || q.staging,
    trf := p.trf || q.trf, hostW := p.hostW || q.hostW, flash := p.flash || q.flash, stagTag := p.stagTag || q.stagTag,
    poison := p.poison || q.poison, dirty := p.dirty || q.dirty, clk := p.clk || q.clk, sq := p.sq || q.sq,
    started := p.started || q.started, unconf := p.unconf || q.unconf, pcie := p.pcie || q.pcie, flt := p.flt || q.flt,
    evr := p.evr || q.evr, notices := p.notices || q.notices, pages := p.pages || q.pages, heldWr := p.heldWr || q.heldWr,
    waitRd := p.waitRd || q.waitRd, order := p.order || q.order, fab := p.fab || q.fab, tor := p.tor || q.tor,
    freeCtr := p.freeCtr || q.freeCtr, out := p.out || q.out, dark := p.dark || q.dark, obs := p.obs || q.obs,
    journal := p.journal || q.journal, arr := p.arr || q.arr, sump := p.sump || q.sump, gathers := p.gathers || q.gathers,
    rowsIn := p.rowsIn || q.rowsIn, upd := p.upd || q.upd, scrub := p.scrub || q.scrub, ranks := p.ranks || q.ranks,
    homes := p.homes || q.homes, quar := p.quar || q.quar, scan := p.scan || q.scan, hang := p.hang || q.hang,
    trelfort := p.trelfort || q.trelfort, risk := p.risk || q.risk, pwr := p.pwr || q.pwr, caddy := p.caddy || q.caddy }

/-- Every part of p is one of q. -/
def Parts.le (p q : Parts) : Bool :=
  (!p.regs || q.regs) && (!p.inForce || q.inForce) && (!p.genStale || q.genStale) && (!p.drainAt || q.drainAt) &&
  (!p.rrLast || q.rrLast) && (!p.hbm || q.hbm) && (!p.staging || q.staging) && (!p.trf || q.trf) && (!p.hostW || q.hostW) &&
  (!p.flash || q.flash) && (!p.stagTag || q.stagTag) && (!p.poison || q.poison) && (!p.dirty || q.dirty) && (!p.clk || q.clk) &&
  (!p.sq || q.sq) && (!p.started || q.started) && (!p.unconf || q.unconf) && (!p.pcie || q.pcie) && (!p.flt || q.flt) &&
  (!p.evr || q.evr) && (!p.notices || q.notices) && (!p.pages || q.pages) && (!p.heldWr || q.heldWr) && (!p.waitRd || q.waitRd) &&
  (!p.order || q.order) && (!p.fab || q.fab) && (!p.tor || q.tor) && (!p.freeCtr || q.freeCtr) && (!p.out || q.out) &&
  (!p.dark || q.dark) && (!p.obs || q.obs) && (!p.journal || q.journal) && (!p.arr || q.arr) && (!p.sump || q.sump) &&
  (!p.gathers || q.gathers) && (!p.rowsIn || q.rowsIn) && (!p.upd || q.upd) && (!p.scrub || q.scrub) && (!p.ranks || q.ranks) &&
  (!p.homes || q.homes) && (!p.quar || q.quar) && (!p.scan || q.scan) && (!p.hang || q.hang) && (!p.trelfort || q.trelfort) &&
  (!p.risk || q.risk) && (!p.pwr || q.pwr) && (!p.caddy || q.caddy)

/-- What a report with all that it causes may change (R458-R461). -/
def Parts.report : Parts := { regs := true, trf := true, flt := true, notices := true, out := true, obs := true, journal := true }

/-- HBM, staging SRAM, their tags, the dirty bits and the errors held in HBM. -/
def Parts.memory : Parts := { hbm := true, staging := true, stagTag := true, poison := true, dirty := true }

/-- What a reset of the module may change (R500-R508): everything but the recorder's own place, flash and settings held elsewhere. -/
def Parts.most : Parts :=
  { regs := true, inForce := true, genStale := true, drainAt := true, rrLast := true, hbm := true, staging := true, trf := true,
    hostW := true, stagTag := true, poison := true, dirty := true, clk := true, sq := true, started := true, unconf := true,
    pcie := true, flt := true, notices := true, pages := true, heldWr := true, waitRd := true, order := true, fab := true, tor := true,
    freeCtr := true, out := true, dark := true, obs := true, journal := true, arr := true, sump := true, gathers := true,
    rowsIn := true, upd := true, scrub := true, ranks := true, homes := true, quar := true, scan := true, hang := true,
    trelfort := true, risk := true, pwr := true, caddy := true }

/-- The memories with the parts p blanked. -/
def Parts.restMem (p : Parts) (m : Mem) : Mem :=
  { hbm := bif p.hbm then [] else m.hbm, staging := bif p.staging then [] else m.staging, trf := bif p.trf then [] else m.trf,
    hostW := bif p.hostW then [] else m.hostW, flash0 := bif p.flash then [] else m.flash0,
    flash1 := bif p.flash then [] else m.flash1, stagTag := bif p.stagTag then [] else m.stagTag,
    poison := bif p.poison then [] else m.poison, scrubbed := bif p.poison then [] else m.scrubbed,
    replaced := bif p.poison then 0 else m.replaced, dirty := bif p.dirty then [] else m.dirty }

/-- The state with the parts p blanked. -/
def Parts.rest (p : Parts) (s : State) : State :=
  { s with
    mem := p.restMem s.mem
    regs := bif p.regs then [] else s.regs
    inForce := bif p.inForce then [] else s.inForce
    genStale := bif p.genStale then [] else s.genStale
    drainAt := bif p.drainAt then [] else s.drainAt
    rrLast := bif p.rrLast then [] else s.rrLast
    clk := bif p.clk then {} else s.clk
    sq := bif p.sq then [] else s.sq
    started := bif p.started then [] else s.started
    unconf := bif p.unconf then [] else s.unconf
    pcie := bif p.pcie then {} else s.pcie
    flt := bif p.flt then {} else s.flt
    evr := bif p.evr then {} else s.evr
    pages := bif p.pages then [] else s.pages
    heldWr := bif p.heldWr then [] else s.heldWr
    waitRd := bif p.waitRd then [] else s.waitRd
    order := bif p.order then 0 else s.order
    fab := bif p.fab then {} else s.fab
    tor := bif p.tor then {} else s.tor
    freeCtr := bif p.freeCtr then 0 else s.freeCtr
    out := bif p.out then [] else s.out
    dark := bif p.dark then [] else s.dark
    obs := bif p.obs then {} else s.obs
    journal := bif p.journal then [] else s.journal
    arr := bif p.arr then {} else s.arr
    sump := bif p.sump then {} else s.sump
    gathers := bif p.gathers then [] else s.gathers
    rowsIn := bif p.rowsIn then [] else s.rowsIn
    upd := bif p.upd then [] else s.upd
    scrub := bif p.scrub then [] else s.scrub
    ranks := bif p.ranks then [] else s.ranks
    homes := bif p.homes then [] else s.homes
    quar := bif p.quar then {} else s.quar
    scan := bif p.scan then none else s.scan
    hang := bif p.hang then {} else s.hang
    trelfort := bif p.trelfort then {} else s.trelfort
    risk := bif p.risk then {} else s.risk
    pwr := bif p.pwr then {} else s.pwr
    caddy := bif p.caddy then none else s.caddy
    notices := bif p.notices then [] else s.notices
    noticeNo := bif p.notices then 0 else s.noticeNo }

/-- States that agree on everything but the parts p. -/
def Only (p : Parts) (s t : State) : Prop := p.rest t = p.rest s

/-- The parts of the state that a command may change: its frame. The queue, and every part that is not named, are left as they were. -/
def Instr.parts : Instr → Parts
  | .memoryRead .. => Parts.report.or { poison := true, waitRd := true, order := true, fab := true, tor := true, trelfort := true }
  | .memoryWrite .. => Parts.most.or { evr := true }
  | .registerWrite .. => Parts.most.or { evr := true }
  | .registerHolderTimeout .. => Parts.report
  | .bridgeRetryExhausted .. => Parts.report
  | .doorbell .. => { regs := true, sq := true }
  | .descriptorFetch .. =>
    (Parts.report.or Parts.memory).or
      { hostW := true, sq := true, pcie := true, heldWr := true, order := true, fab := true, tor := true, arr := true }
  | .descriptorStart .. =>
    (Parts.report.or Parts.memory).or
      { rrLast := true, hostW := true, sq := true, started := true, pcie := true, heldWr := true, order := true, fab := true, tor := true,
        freeCtr := true, arr := true, upd := true, pwr := true }
  | .deadlineExpire .. =>
    (Parts.report.or Parts.memory).or
      { hostW := true, clk := true, sq := true, started := true, pcie := true, heldWr := true, order := true, fab := true, tor := true,
        freeCtr := true, dark := true, arr := true, sump := true, gathers := true, upd := true, ranks := true, scan := true,
        caddy := true }
  | .deadlineMiss .. => Parts.report.or { clk := true }
  | .descriptorComplete .. =>
    (Parts.report.or Parts.memory).or
      { genStale := true, hostW := true, sq := true, started := true, unconf := true, pcie := true, heldWr := true, order := true,
        fab := true, tor := true, freeCtr := true, arr := true }
  | .msixUnmask .. => { pcie := true, out := true }
  | .cqHeadWrite .. => Parts.report
  | .cmdStop .. =>
    (Parts.report.or Parts.memory).or
      { genStale := true, drainAt := true, hostW := true, sq := true, started := true, unconf := true, pcie := true, pages := true,
        heldWr := true, order := true, fab := true, tor := true, freeCtr := true, dark := true, arr := true, sump := true, gathers := true,
        upd := true, ranks := true, homes := true, scan := true, caddy := true }
  | .cmdChange .. => Parts.report
  | .cmdRestart .. => Parts.report.or { inForce := true, sq := true, fab := true, tor := true, sump := true }
  | .cmdAbort .. =>
    (Parts.report.or Parts.memory).or
      { genStale := true, drainAt := true, hostW := true, sq := true, started := true, unconf := true, pcie := true, pages := true,
        heldWr := true, order := true, fab := true, tor := true, freeCtr := true, dark := true, arr := true, sump := true, gathers := true,
        upd := true, ranks := true, homes := true, scan := true, caddy := true }
  | .drainComplete .. => Parts.report.or { drainAt := true }
  | .drainLimitExpire .. =>
    (Parts.report.or Parts.memory).or
      { genStale := true, drainAt := true, hostW := true, clk := true, sq := true, started := true, unconf := true, pcie := true,
        pages := true, heldWr := true, order := true, fab := true, tor := true, freeCtr := true, dark := true, arr := true, sump := true,
        gathers := true, upd := true, ranks := true, homes := true, scan := true, caddy := true }
  | .staleReplyDrop .. =>
    (Parts.report.or Parts.memory).or
      { genStale := true, started := true, heldWr := true, order := true, fab := true, tor := true, freeCtr := true, arr := true }
  | .sweep .. => Parts.report.or { poison := true, started := true, arr := true }
  | .interact .. => Parts.report.or { poison := true, started := true, arr := true }
  | .veOp .. =>
    (Parts.report.or Parts.memory).or
      { hostW := true, started := true, unconf := true, pcie := true, pages := true, heldWr := true, waitRd := true, order := true,
        fab := true, tor := true, arr := true, sump := true, ranks := true, quar := true, trelfort := true }
  | .chunkApply .. => Parts.report.or { poison := true, started := true, freeCtr := true, arr := true }
  | .tileFold .. => (Parts.report.or Parts.memory).or { started := true, pages := true, heldWr := true, arr := true, sump := true }
  | .prefetchStart => { regs := true, rrLast := true, arr := true, pwr := true }
  | .fenceClearWrite .. => { arr := true }
  | .scrubRead .. => (Parts.report.or Parts.memory).or { scrub := true }
  | .cutTokenArrival .. => { regs := true, dirty := true, started := true, sump := true }
  | .cutTokenRelease .. => { regs := true, dirty := true, started := true, sump := true }
  | .gather .. => Parts.report.or { poison := true, started := true, fab := true, tor := true, gathers := true }
  | .rowRequest .. => Parts.report.or { poison := true, fab := true, tor := true }
  | .rowReply .. =>
    (Parts.report.or Parts.memory).or
      { genStale := true, started := true, heldWr := true, fab := true, tor := true, arr := true, sump := true, gathers := true }
  | .gatherOpen .. =>
    (Parts.report.or Parts.memory).or
      { genStale := true, started := true, heldWr := true, fab := true, tor := true, arr := true, sump := true, gathers := true,
        rowsIn := true }
  | .updateDense .. =>
    (Parts.report.or Parts.memory).or
      { drainAt := true, hostW := true, sq := true, started := true, pcie := true, heldWr := true, order := true, fab := true, tor := true,
        arr := true, sump := true, upd := true }
  | .updateRows .. =>
    (Parts.report.or Parts.memory).or
      { drainAt := true, hostW := true, sq := true, started := true, pcie := true, heldWr := true, order := true, fab := true, tor := true,
        arr := true, sump := true, upd := true }
  | .setcoef .. => (Parts.report.or Parts.memory).or { started := true, heldWr := true, arr := true, sump := true, upd := true }
  | .veTakeover .. => { regs := true, started := true, upd := true }
  | .flitSend .. => Parts.most
  | .dataFlitReceive .. => { regs := true, flt := true, fab := true, out := true, obs := true }
  | .idleFlitReceive .. => { regs := true, flt := true, fab := true, out := true, obs := true }
  | .nakReceive .. => { regs := true, flt := true, fab := true, obs := true }
  | .ackReceive .. => { flt := true, fab := true }
  | .ackTimer .. => { clk := true, fab := true, out := true }
  | .portRetrain .. => Parts.report.or { fab := true, tor := true }
  | .portTrainingComplete .. => Parts.report.or { fab := true }
  | .portTrainingTimeout .. => Parts.report.or { clk := true, fab := true, tor := true }
  | .portLinkLoss .. => Parts.report.or { fab := true, tor := true }
  | .portDownRetry .. => { regs := true, trf := true, clk := true, flt := true, fab := true, journal := true }
  | .helloTimer => Parts.report.or { fab := true }
  | .helloReceive .. => Parts.report.or { fab := true }
  | .discoveryTimeout .. => { regs := true, trf := true, clk := true, flt := true, fab := true, tor := true, journal := true }
  | .packetReceive .. => Parts.most.or { evr := true }
  | .errorReplyReceive .. =>
    (Parts.report.or Parts.memory).or
      { genStale := true, sq := true, started := true, heldWr := true, order := true, fab := true, tor := true, arr := true,
        gathers := true, ranks := true, trelfort := true, caddy := true }
  | .keepWarmRequest .. => { regs := true, flt := true, fab := true, out := true, obs := true }
  | .keepWarmExitRequest .. => { regs := true, flt := true, fab := true, out := true, obs := true }
  | .keepWarmExitComplete .. => { regs := true, fab := true }
  | .jobStart .. =>
    (Parts.report.or Parts.memory).or
      { sq := true, started := true, heldWr := true, order := true, fab := true, tor := true, arr := true }
  | .jobEnd .. => { regs := true, started := true, fab := true }
  | .arm .. => (Parts.report.or Parts.memory).or { heldWr := true, order := true, fab := true, tor := true, arr := true }
  | .armAckReceive .. =>
    (Parts.report.or Parts.memory).or
      { sq := true, started := true, heldWr := true, order := true, fab := true, tor := true, arr := true }
  | .armWaitExpire .. => { regs := true, clk := true, fab := true, tor := true }
  | .rootArmTimeout => { regs := true, clk := true, fab := true, tor := true }
  | .adopt .. => { regs := true, fab := true, tor := true }
  | .missingTimeout =>
    (Parts.report.or Parts.memory).or
      { clk := true, sq := true, started := true, heldWr := true, order := true, fab := true, tor := true, arr := true }
  | .commit .. => (Parts.report.or Parts.memory).or { sq := true, heldWr := true, order := true, fab := true, tor := true, arr := true }
  | .commitAckReceive .. =>
    (Parts.report.or Parts.memory).or
      { sq := true, started := true, heldWr := true, order := true, fab := true, tor := true, arr := true }
  | .startTimeReached => { regs := true, clk := true, sq := true, fab := true }
  | .disarm .. => { regs := true, fab := true, tor := true }
  | .armHoldExpire => { regs := true, clk := true, fab := true }
  | .reduce .. => Parts.report.or { poison := true, started := true, fab := true, tor := true, arr := true, ranks := true }
  | .digestClose .. =>
    (Parts.report.or Parts.memory).or
      { started := true, heldWr := true, order := true, fab := true, tor := true, arr := true, sump := true }
  | .exp .. => Parts.report.or { fab := true, tor := true, homes := true }
  | .busy .. => Parts.report.or { genStale := true, fab := true, ranks := true }
  | .expRetryTimer .. => { regs := true, clk := true, fab := true, tor := true, arr := true, ranks := true }
  | .grantSend .. => { regs := true, fab := true, tor := true, homes := true }
  | .grant .. =>
    (Parts.report.or Parts.memory).or
      { genStale := true, started := true, heldWr := true, fab := true, tor := true, arr := true, sump := true, ranks := true }
  | .contrib .. => Parts.report.or { genStale := true, fab := true, tor := true, homes := true }
  | .result .. =>
    (Parts.report.or Parts.memory).or
      { genStale := true, started := true, heldWr := true, fab := true, arr := true, sump := true, ranks := true }
  | .abort .. => Parts.report.or { genStale := true, started := true, fab := true, ranks := true }
  | .homeDeadlineExpire .. => Parts.report.or { clk := true, fab := true, tor := true, homes := true }
  | .confirm .. => Parts.report.or { genStale := true, fab := true, tor := true, homes := true, quar := true }
  | .retract .. => Parts.report.or { genStale := true, fab := true, tor := true, homes := true, quar := true }
  | .resultConfirm .. =>
    (Parts.report.or Parts.memory).or
      { genStale := true, started := true, heldWr := true, fab := true, arr := true, sump := true, ranks := true }
  | .resultRetract .. => Parts.report.or { genStale := true, fab := true, ranks := true }
  | .journalSteepExpire .. => Parts.report.or { clk := true, fab := true, tor := true, homes := true }
  | .resultSteepExpire .. => Parts.report.or { clk := true, started := true, ranks := true }
  | .tagSeal .. => (Parts.report.or Parts.memory).or { started := true }
  | .tagVerify .. => Parts.report.or { poison := true, started := true }
  | .tagCopyReadback .. => Parts.report.or { fab := true, tor := true }
  | .strainerVerdict .. =>
    (Parts.report.or Parts.memory).or
      { pages := true, waitRd := true, fab := true, tor := true, arr := true, ranks := true, quar := true, trelfort := true }
  | .replayJudge .. =>
    (Parts.report.or Parts.memory).or
      { started := true, pages := true, heldWr := true, waitRd := true, fab := true, tor := true, arr := true, sump := true, ranks := true,
        trelfort := true }
  | .lockstepMismatch .. =>
    Parts.report.or
      { hbm := true, staging := true, stagTag := true, dirty := true, started := true, pages := true, arr := true, quar := true }
  | .ticketSettle =>
    (Parts.report.or Parts.memory).or
      { hostW := true, started := true, unconf := true, pcie := true, pages := true, heldWr := true, waitRd := true, order := true,
        fab := true, tor := true, arr := true, ranks := true, quar := true, trelfort := true }
  | .fenceMessage .. => { regs := true, fab := true, tor := true, ranks := true, quar := true }
  | .steepFenceTimer .. => { regs := true, clk := true, arr := true, quar := true }
  | .unconfirmedWriteReceive .. =>
    (Parts.report.or Parts.memory).or
      { heldWr := true, order := true, fab := true, tor := true, arr := true, quar := true }
  | .writeConfirm .. =>
    (Parts.report.or Parts.memory).or
      { heldWr := true, order := true, fab := true, tor := true, arr := true, quar := true }
  | .writeRetract .. => Parts.report.or { fab := true, quar := true }
  | .steepWindowExpire .. => Parts.report.or { clk := true, quar := true }
  | .earlyTokenExpire => { clk := true, quar := true }
  | .auditCompare .. => { regs := true, poison := true, flt := true, obs := true, arr := true }
  | .auditThirdJudge .. => Parts.report.or { poison := true, started := true, arr := true }
  | .scanBlock .. => { regs := true, started := true, scan := true }
  | .scanProceed => { staging := true, stagTag := true, dark := true, scan := true }
  | .scanFinish .. => Parts.report.or { started := true, dark := true, arr := true, scan := true }
  | .congestionEpisode .. => { regs := true, trf := true, flt := true, journal := true }
  | .faultReport .. => Parts.most
  | .ceRate .. => Parts.report
  | .regionTimerExpire .. =>
    (Parts.report.or Parts.memory).or
      { clk := true, started := true, heldWr := true, fab := true, tor := true, freeCtr := true, dark := true, arr := true, sump := true,
        gathers := true, upd := true, ranks := true, scan := true, caddy := true }
  | .fabricTimerExpire .. =>
    (Parts.report.or Parts.memory).or
      { clk := true, started := true, heldWr := true, fab := true, tor := true, freeCtr := true, dark := true, arr := true, sump := true,
        gathers := true, upd := true, ranks := true, scan := true, trelfort := true, caddy := true }
  | .moduleTimerExpire .. =>
    (Parts.report.or Parts.memory).or
      { genStale := true, drainAt := true, hostW := true, clk := true, sq := true, started := true, unconf := true, pcie := true,
        pages := true, heldWr := true, order := true, fab := true, tor := true, freeCtr := true, dark := true, arr := true, sump := true,
        gathers := true, upd := true, ranks := true, homes := true, scan := true, caddy := true }
  | .reclaim .. => Parts.report.or { inForce := true, started := true, fab := true, tor := true, homes := true, quar := true }
  | .waitforSample =>
    (Parts.report.or Parts.memory).or
      { genStale := true, drainAt := true, hostW := true, sq := true, started := true, unconf := true, pcie := true, pages := true,
        heldWr := true, order := true, fab := true, tor := true, freeCtr := true, dark := true, arr := true, sump := true, gathers := true,
        upd := true, ranks := true, homes := true, scan := true, hang := true, caddy := true }
  | .egressStall .. => { clk := true, fab := true, hang := true }
  | .probeResendTimer .. => { clk := true, fab := true, hang := true }
  | .hangProbe .. => Parts.report.or { fab := true }
  | .lanternBeat .. => { dark := true, hang := true }
  | .lanternMissTimer .. => Parts.most.or { flash := true, evr := true }
  | .reset .. => Parts.most
  | .resetCmdCompute .. => Parts.most
  | .resetCmdModule .. => Parts.most
  | .resetCmdCold .. => Parts.most
  | .modResetAssert => Parts.most
  | .perstAssert =>
    (Parts.report.or Parts.memory).or
      { genStale := true, drainAt := true, hostW := true, sq := true, started := true, unconf := true, pcie := true, pages := true,
        heldWr := true, order := true, fab := true, tor := true, freeCtr := true, dark := true, arr := true, sump := true, gathers := true,
        upd := true, ranks := true, homes := true, scan := true, caddy := true }
  | .perstDeassert => { pcie := true }
  | .blockBeatTimeout .. => { regs := true, clk := true, dark := true, hang := true }
  | .computeResetTimeout => Parts.most
  | .moduleRecoveryTimeout => Parts.most
  | .resetEnd =>
    Parts.report.or
      { inForce := true, sq := true, started := true, fab := true, tor := true, freeCtr := true, sump := true, hang := true }
  | .summaryFlashCopy .. => { flash := true, hang := true }
  | .caddyRecord .. =>
    (Parts.report.or Parts.memory).or
      { started := true, heldWr := true, order := true, fab := true, tor := true, arr := true, caddy := true }
  | .caddyCopy .. =>
    (Parts.report.or Parts.memory).or
      { heldWr := true, order := true, fab := true, tor := true, arr := true, caddy := true }
  | .caddyAck .. => Parts.report.or { started := true, fab := true, caddy := true }
  | .buddyWaitExpire => Parts.report.or { clk := true, started := true, caddy := true }
  | .spreadApply .. =>
    (Parts.report.or Parts.memory).or
      { started := true, heldWr := true, order := true, fab := true, tor := true, arr := true }
  | .rebuild .. => (Parts.report.or Parts.memory).or { started := true, fab := true, tor := true, freeCtr := true, sump := true }
  | .cut .. => { regs := true, started := true, sump := true }
  | .sumpCopy .. => (Parts.report.or Parts.memory).or { started := true, sump := true }
  | .heldWriteRelease .. =>
    (Parts.report.or Parts.memory).or
      { started := true, heldWr := true, waitRd := true, fab := true, tor := true, arr := true, sump := true, trelfort := true }
  | .manifestSeal .. =>
    (Parts.report.or Parts.memory).or
      { started := true, heldWr := true, order := true, fab := true, tor := true, arr := true, sump := true }
  | .foldEnd .. =>
    (Parts.report.or Parts.memory).or
      { started := true, heldWr := true, order := true, fab := true, tor := true, arr := true, sump := true }
  | .flowstoneDrainEnd .. =>
    (Parts.report.or Parts.memory).or
      { hostW := true, started := true, heldWr := true, order := true, fab := true, tor := true, arr := true, sump := true }
  | .restoreSelect .. =>
    (Parts.report.or Parts.memory).or
      { started := true, heldWr := true, order := true, fab := true, tor := true, arr := true }
  | .restore .. => (Parts.report.or Parts.memory).or { started := true, freeCtr := true, sump := true }
  | .bootRom .. => Parts.report.or { clk := true, hang := true, trelfort := true, pwr := true }
  | .kcoreLockstep .. => Parts.most
  | .takeover =>
    (Parts.report.or Parts.memory).or
      { genStale := true, hostW := true, sq := true, started := true, unconf := true, pcie := true, heldWr := true, order := true,
        fab := true, tor := true, freeCtr := true, dark := true, arr := true, sump := true, gathers := true, upd := true, ranks := true,
        scan := true, trelfort := true, pwr := true, caddy := true }
  | .journalEntry .. => Parts.report.or { trelfort := true }
  | .syncComplete => { regs := true, trf := true, flt := true, journal := true, trelfort := true, pwr := true }
  | .swap .. => Parts.report.or { trelfort := true }
  | .swapHandover =>
    (Parts.report.or Parts.memory).or
      { genStale := true, hostW := true, clk := true, sq := true, started := true, unconf := true, pcie := true, heldWr := true,
        order := true, fab := true, tor := true, freeCtr := true, dark := true, arr := true, sump := true, gathers := true, upd := true,
        ranks := true, scan := true, trelfort := true, caddy := true }
  | .fuseSvnAdvance .. => Parts.report.or { trelfort := true }
  | .tmpRead .. => Parts.report.or { poison := true, waitRd := true, order := true, fab := true, tor := true, trelfort := true }
  | .tmpWrite .. => Parts.most.or { evr := true }
  | .tmpStatus .. => { regs := true, out := true, trelfort := true }
  | .flashWrite .. => { regs := true, flash := true, out := true, trelfort := true }
  | .noticeAck .. => { regs := true, notices := true, out := true }
  | .noticeRepeat .. => { regs := true, clk := true, notices := true, out := true }
  | .riskEvent .. => Parts.report.or { risk := true }
  | .riskBucketBoundary => { regs := true, clk := true, risk := true }
  | .feedInRange .. => { regs := true, trf := true, flt := true, journal := true, pwr := true }
  | .feedPrechargeDone .. => { pwr := true }
  | .feedQualified .. => { regs := true, trf := true, clk := true, flt := true, journal := true, pwr := true }
  | .feedOutOfRange .. => { regs := true, trf := true, flt := true, journal := true, pwr := true }
  | .feedbPowerupTimer => { regs := true, trf := true, clk := true, flt := true, journal := true }
  | .feedTrip .. => Parts.report.or { flash := true, evr := true, dark := true, hang := true, pwr := true }
  | .feedCurrentLimit .. => { regs := true, pwr := true }
  | .evrFlashCopy .. => { regs := true, trf := true, flash := true, flt := true, evr := true, journal := true }
  | .evrPop .. => { regs := true, out := true }
  | .clearFlash .. => Parts.report.or { evr := true }
  | .flashEraseDone => { regs := true, flash := true, evr := true }
  | .evrFetch .. =>
    (Parts.report.or Parts.memory).or
      { started := true, heldWr := true, order := true, fab := true, tor := true, arr := true }
  | .opHoursSave => { regs := true, clk := true, evr := true }
  | .timeParamApply => { clk := true }
  | .rateWrite .. => Parts.report.or { clk := true }
  | .adjWrite .. => Parts.report.or { clk := true }
  | .slewEnd => { clk := true }
  | .ptpMessage .. => { regs := true, trf := true, clk := true, flt := true, journal := true, pwr := true }
  | .announceTimeout => { regs := true, trf := true, clk := true, flt := true, journal := true }
  | .syncInEdge => { regs := true, trf := true, flt := true, journal := true }
  | .refclkLost => { regs := true, trf := true, clk := true, flt := true, journal := true }
  | .refclkReturn => { clk := true }
  | .refclkSwitchback .. => { regs := true, clk := true }
  | .evtSelWrite .. => Parts.report
  | .filterWrite .. => Parts.report
  | .whistleWrite .. => Parts.report
  | .whistleSend .. => Parts.report.or { fab := true, tor := true }
  | .whistlePacket .. => Parts.report.or { fab := true }
  | .dbgTrigInEdge => Parts.report
  | .whistleFire => { regs := true, clk := true, freeCtr := true, out := true, obs := true }
  | .counterDump .. =>
    (Parts.report.or Parts.memory).or
      { started := true, heldWr := true, order := true, fab := true, tor := true, arr := true }
  | .tracePostStop .. =>
    (Parts.report.or Parts.memory).or
      { heldWr := true, order := true, fab := true, tor := true, freeCtr := true, arr := true }
  | .traceCfgWrite .. => { regs := true, obs := true }
  | .jtagBypass .. => { out := true, obs := true }
  | .jtagIdcode .. => { out := true, obs := true }
  | .jtagSamplePreload .. => { out := true, obs := true }
  | .jtagExtest .. => { out := true, obs := true }
  | .jtagIjtag .. => { freeCtr := true, out := true, obs := true }
  | .jtagKtrace .. => { freeCtr := true, out := true, obs := true }
  | .jtagMemacc .. => Parts.most.or { evr := true }
  | .jtagKeyprog .. => { out := true, obs := true }
  | .trstAssert => { obs := true }
  | .powerUp =>
    (Parts.report.or Parts.memory).or
      { inForce := true, genStale := true, drainAt := true, rrLast := true, clk := true, sq := true, started := true, unconf := true,
        pcie := true, evr := true, pages := true, heldWr := true, waitRd := true, order := true, fab := true, tor := true, dark := true,
        arr := true, sump := true, gathers := true, rowsIn := true, upd := true, scrub := true, ranks := true, homes := true, quar := true,
        scan := true, hang := true, trelfort := true, risk := true, pwr := true, caddy := true }
  | .startupReady .. =>
    Parts.report.or
      { inForce := true, hbm := true, poison := true, sq := true, pcie := true, fab := true, tor := true, dark := true, sump := true,
        hang := true, trelfort := true, pwr := true }
  | .enumTokenReceive .. => { regs := true, fab := true, out := true, pwr := true }
  | .enumTokenSend => { clk := true, out := true, pwr := true }
  | .enumWaitExpire => { regs := true, clk := true }
  | .assignWaitExpire => { regs := true, clk := true, pwr := true }
  | .lockWaitExpire => { regs := true, inForce := true, trf := true, clk := true, flt := true, journal := true, pwr := true }
  | .chipAssignWrite .. => Parts.report.or { fab := true, pwr := true }
  | .startCfgWrite .. => Parts.report
  | .targetMhzWrite .. => Parts.report
  | .dvfsGlideStep => { regs := true, pwr := true }
  | .arrayIdle => { regs := true, clk := true, pwr := true }
  | .power .. =>
    { regs := true, staging := true, stagTag := true, started := true, fab := true, dark := true, obs := true, arr := true, upd := true,
        hang := true, pwr := true }
  | .thermalWarn .. => Parts.report.or { pwr := true }
  | .capStep .. => Parts.report.or { clk := true, pwr := true }
  | .thermalTrip .. => Parts.report.or { flash := true, evr := true, dark := true, hang := true, pwr := true }
  | .thermtripRelease => { clk := true, out := true, pwr := true }
  | .modResetDeassert => { regs := true, hang := true, pwr := true }
  | .coolantInletReading .. => Parts.report.or { pwr := true }
  | .congestionEpisodeEnd .. => { flt := true }
  | .regionSwitchQuiescent .. => Parts.report
  | .feedPrechargeStart .. => { regs := true, pwr := true }
  | .pcieConfigRequest .. => { pcie := true, freeCtr := true, out := true }
  | .pcieLinkUp => { regs := true, pcie := true }

/-- A step that ends in a next state, and keeps what every command keeps. -/
def Safe (s : State) (o : Host.Outcome State Fault Refusal) : Prop := ∃ t, o = .next t ∧ Keeps s t

end Sys2Proof.Machine
end

