-- ==== Sys2Proof/Certificates/Slice0/Obligations.lean ====
section
/-!
DEFINITION. The statements for the provers. Every clause about a command has as its conclusion that exec answers a next state, under
hypotheses on the state and the operands alone, and says what that state holds.
-/
open Sys2Proof Sys2Proof.Machine

/-- A step takes the command at the front of the queue and answers what exec answers for it on the state with the rest of the queue: the
queue discipline is the model's. -/
def Obligations.StepRunsFrontCommand : Prop :=
  ∀ (s : State) (c : Instr) (rest : List Instr), s.pending = c :: rest → step s = exec c { s with pending := rest }

/-- With an empty queue a step lets one TCLK cycle of one nanosecond pass: the TCLK count rises by one and nothing else of the state
changes. That a step on an empty queue is a tick is the model's choice (assumption 2). -/
def Obligations.IdleStepIsOneTick : Prop :=
  ∀ s : State, s.pending = [] → step s = .next { s with clk := { s.clk with now := s.clk.now + 1 } }

/-- Every command, in every state and with any operands, ends in a next state. No rule stops the block: a failure of the hardware is a
report or a record (spec/10). -/
def Obligations.EveryCommandAnswersNext : Prop := ∀ (c : Instr) (s : State), ∃ t, exec c s = .next t

/-- Whatever a command does, the queue of waiting commands is untouched, the clock does not go back, free values are drawn forwards, what
has left the module stays left (the old list is a prefix of the new one), and a canonical state stays canonical. -/
def Obligations.ExecKeeps : Prop := ∀ (c : Instr) (s t : State), exec c s = .next t → Keeps s t

/-- The frame. For every command, every part of the state that `Instr.parts` does not list for it (registers, settings in force, HBM,
staging SRAM, Trelfort memory, host memory, flash, tags, dirty bits, clock, rings, started descriptors, ports, counters, tickets,
reduce ranks and homes, quarantine, resets, power and the rest) is exactly as before. -/
def Obligations.ExecTouchesOnlyItsParts : Prop := ∀ (c : Instr) (s t : State), exec c s = .next t → Only (Instr.parts c) s t

/-- From every state whose registers, settings in force, memories, staging tags and dirty bits are in canonical form, a step leads to such
a state, and time does not go back. -/
def Obligations.StepKeepsCanonicalForm : Prop :=
  ∀ s t : State, s.canon = true → step s = .next t → t.canon = true ∧ s.clk.now ≤ t.clk.now ∧ s.out <+: t.out

/-- At power-up the state is canonical and no command waits; each register reads as its Reset column: no chip number is valid, PHASE is BRINGUP,
every assigned function is STOPPED with GEN 0x01, and no memory lists a byte. -/
def Obligations.ResetStateIsCanonical : Prop :=
  State.reset.canon = true ∧ State.reset.pending = [] ∧ State.reset.chip = none ∧
    State.reset.fget Reg.MOD_RESET_STATUS Fld.MOD_RESET_STATUS_PHASE = 0 ∧
    (∀ off, State.reset.reg off = regReset off) ∧
    (∀ f, f < 0x300 → fnAssigned f = true → State.reset.fnState f = fnSTOPPED ∧ State.reset.gen f = 1) ∧
    State.reset.mem = {}

/-- DOORBELL of ring n with TAIL = the low 32 bits of the value (R72, R73). When TAIL lies between 1 and the size in force ahead of SQ_TAIL
and of SQ_HEAD, it replaces SQ_TAIL, the module remembers it with the present module time (R89), and every other register and every other
part is as before. When it does not (a ring without a size in force included), DB_REJECT rises by one, up to its largest value, and
nothing else changes. -/
def Obligations.DoorbellMovesTailOrIsRejected : Prop :=
  ∀ (s : State) (n : Nat) (v : Word), s.canon = true → n < 256 →
    let tail := v.toNat % 2 ^ 32
    let size := s.sqSize n
    let d1 := subMod 32 tail (s.fget (Reg.RING_SQ_TAIL n) Fld.RING_SQ_TAIL_TAIL)
    let d2 := subMod 32 tail (s.fget (Reg.RING_SQ_HEAD n) Fld.RING_SQ_HEAD_HEAD)
    ((1 ≤ d1 ∧ d1 ≤ size ∧ 1 ≤ d2 ∧ d2 ≤ size) →
      ∃ t, exec (.doorbell n v) s = .next t ∧ t.fget (Reg.RING_SQ_TAIL n) Fld.RING_SQ_TAIL_TAIL = tail ∧
        (∀ off, off ≠ Reg.RING_SQ_TAIL n → t.reg off = s.reg off) ∧
        t.sq = tblPut noSq s.sq n { s.sqSt n with bells := (s.sqSt n).bells ++ [(tail, s.time)] } ∧
        Only { regs := true, sq := true } s t) ∧
    (¬(1 ≤ d1 ∧ d1 ≤ size ∧ 1 ≤ d2 ∧ d2 ≤ size) →
      ∃ t, exec (.doorbell n v) s = .next t ∧
        t.fget (Reg.RING_SQ_STATUS n) Fld.RING_SQ_STATUS_DB_REJECT =
          min (2 ^ 31 - 1) (s.fget (Reg.RING_SQ_STATUS n) Fld.RING_SQ_STATUS_DB_REJECT + 1) ∧
        t.fget (Reg.RING_SQ_STATUS n) Fld.RING_SQ_STATUS_HALTED = s.fget (Reg.RING_SQ_STATUS n) Fld.RING_SQ_STATUS_HALTED ∧
        t.fget (Reg.RING_SQ_STATUS n) Fld.RING_SQ_STATUS_DISOWNED = s.fget (Reg.RING_SQ_STATUS n) Fld.RING_SQ_STATUS_DISOWNED ∧
        (∀ off, off ≠ Reg.RING_SQ_STATUS n → t.reg off = s.reg off) ∧ Only { regs := true } s t)

/-- CQ_HEAD_WRITE (R102): a head from the present one up to CQ_TAIL replaces it and changes no other register; any other leaves CQ_HEAD
alone and reports CONFIG_REJECTED (class 0x11, INFO), which is counted. DESCRIPTOR_FETCH (R76, R77): a ring that may fetch takes the next
descriptor; when it passes the checks of its fetch it joins the fetched list with its RING_SEQ and bytes, and SQ_HEAD advances; when its
RING_SEQ is another one, the ring is HALTED. MSIX_UNMASK (R100): a pending vector that is no longer masked is sent and leaves the Pending
Bits, and those still masked stay. -/
def Obligations.RingHeadsFetchesAndUnmasks : Prop :=
  (∀ (s : State) (m v : Nat), s.canon = true → m < 256 →
    subMod 32 v (s.fget (Reg.RING_CQ_HEAD m) Fld.RING_CQ_HEAD_HEAD) ≤
      subMod 32 (s.fget (Reg.RING_CQ_TAIL m) Fld.RING_CQ_TAIL_TAIL) (s.fget (Reg.RING_CQ_HEAD m) Fld.RING_CQ_HEAD_HEAD) →
    ∃ t, exec (.cqHeadWrite m v) s = .next t ∧ t.fget (Reg.RING_CQ_HEAD m) Fld.RING_CQ_HEAD_HEAD = v % 2 ^ 32 ∧
      (∀ off, off ≠ Reg.RING_CQ_HEAD m → t.reg off = s.reg off) ∧ Only { regs := true } s t) ∧
  (∀ (s : State) (m v : Nat), s.canon = true → m < 256 →
    subMod 32 (s.fget (Reg.RING_CQ_TAIL m) Fld.RING_CQ_TAIL_TAIL) (s.fget (Reg.RING_CQ_HEAD m) Fld.RING_CQ_HEAD_HEAD) <
      subMod 32 v (s.fget (Reg.RING_CQ_HEAD m) Fld.RING_CQ_HEAD_HEAD) →
    ∃ t, exec (.cqHeadWrite m v) s = .next t ∧
      t.fget (Reg.FLT_CLASS_CNT 0x11) Fld.FLT_CLASS_CNT_COUNT =
        min (2 ^ 32 - 1) (s.fget (Reg.FLT_CLASS_CNT 0x11) Fld.FLT_CLASS_CNT_COUNT + 1) ∧
      (∀ off, off ∉ reportRegs 0x11 → t.reg off = s.reg off) ∧ Only Parts.report s t) ∧
  (∀ (z : State) (n : Nat) (data param : List Byte) (ecc : EccFinds), z.canon = true → tblWf noSq z.sq = true → n < 256 →
    let s := z.eccAll ecc
    s.mayFetch n = true →
    let seq := s.fget (Reg.RING_SQ_HEAD n) Fld.RING_SQ_HEAD_HEAD
    let loc := s.cfg (Reg.RING_SQ_BASE n) Fld.RING_SQ_BASE_LOC == 1
    let addr := s.cfg (Reg.RING_SQ_BASE n) Fld.RING_SQ_BASE_BASE * 4096 + 64 * (seq % s.sqSize n)
    let who : Master := .link 0 { ring := n, seq := seq }
    let q := s.extRead who loc addr 64 data
    let r := if loc then q.1.poisonCheck { s.whoCtx who with die := 0x48, unit := 0x26 } addr 64 else (q.1, none)
    let bell := bellTime (r.1.sqSize n) seq (r.1.sqSt n).bells
    let x : Fetched := { seq := seq, bytes := q.2, ext := param, deadline := if dDEADLINE q.2 = 0 then none else bell.map (fun t => t + (dDEADLINE q.2 : Int)),
                         slots := r.1.slotsNeeded n, bellAt := bell.getD 0 }
    ∃ t, exec (.descriptorFetch n data param ecc) z = .next t ∧
      (r.1.fetchVerdict n x r.2.isSome = none →
        t.fget (Reg.RING_SQ_HEAD n) Fld.RING_SQ_HEAD_HEAD = (r.1.fget (Reg.RING_SQ_HEAD n) Fld.RING_SQ_HEAD_HEAD + 1) % 2 ^ 32 ∧
        t.fget (Reg.RING_CQ_STATUS (r.1.cqOf n)) Fld.RING_CQ_STATUS_RESERVED =
          min (2 ^ 32 - 1) (r.1.fget (Reg.RING_CQ_STATUS (r.1.cqOf n)) Fld.RING_CQ_STATUS_RESERVED + r.1.slotsNeeded n) ∧
        (t.sqSt n).fetched = (r.1.sqSt n).fetched ++ [x] ∧ Only { regs := true, sq := true } r.1 t) ∧
      (∀ d, r.1.fetchVerdict n x r.2.isSome = some d → d.status = stBAD_SEQ →
        t.fget (Reg.RING_SQ_STATUS n) Fld.RING_SQ_STATUS_HALTED = 1 ∧ (t.sqSt n).fetched = (r.1.sqSt n).fetched)) ∧
  (∀ (s : State) (v : Nat), v ∈ s.pcie.pend → s.pcie.fnMask = false →
    ∃ t, exec (.msixUnmask (some v)) s = .next t ∧ Out.msix v ∈ t.out ∧ v ∉ t.pcie.pend ∧ v ∉ t.pcie.vecMask ∧
      (∀ w, w ∈ s.pcie.pend → w ≠ v → w ∈ s.pcie.vecMask → w ∈ t.pcie.pend) ∧ Only { pcie := true, out := true } s t)

/-- DESCRIPTOR_START (R776), for every finding of the codes: the head of a ring in RUN that is not late, has its events without POISON and
passes every check, whose target function has room and a ticket and whose turn it is, takes its events, leaves the fetched list and is a
started descriptor of that function with the function's GEN; on the array it is the descriptor that runs. NOP completes at once: it takes
its events and leaves the list, and nothing starts. -/
def Obligations.DescriptorsStartOnTheirFunction : Prop :=
  (∀ (z : State) (n fn : Nat) (f : Fetched) (rest : List Fetched) (ext : List Byte) (ecc : EccFinds),
    let s := z.eccAll ecc
    (s.sqSt n).fetched = f :: rest → n < 256 → s.fnState (sqFn n) = fnRUN → s.serialOk n f.bytes = true → s.late f = false →
    s.hasEvents n f = true → s.takesPoison n f = false →
    let q := (s.takeEvents n f).paramOf n f ext
    let s1 := q.1
    let p := q.2
    dOPCODE f.bytes ≠ 0 → rangeBad f.bytes p = false → targetOf f.bytes p = some fn → s1.cancels fn f.bytes = false →
    s1.genStale? fn f.bytes = false → s1.paramPoisoned n f.bytes = false → s1.operandsBad f.bytes p = false →
    s1.hasRoom fn n f.seq f.bytes p = true → s1.ticketLeft fn = true → s1.turnOf fn n = true → s1.startRefused f.bytes p = false →
    ∃ t, exec (.descriptorStart n ext ecc) z = .next t ∧
      (∃ x, x ∈ t.started ∧ x.ring = n ∧ x.seq = f.seq ∧ x.bytes = f.bytes ∧ x.param = p ∧ x.fn = fn ∧ x.gen = s1.gen fn ∧
        x.deadline = f.deadline ∧ x.slots = f.slots ∧ x.begun = false ∧ x.done = none) ∧
      t.sq = tblPut noSq s1.sq n { s1.sqSt n with fetched := (s1.sqSt n).fetched.drop 1 } ∧
      (fn = 0 → ∃ r, t.arr.run = some r ∧ r.ring = n ∧ r.seq = f.seq ∧ r.op = dOPCODE f.bytes ∧ r.begun = false) ∧
      (fn ≠ 0 → hasSubstitute fn = false → ∀ off, t.reg off = s1.reg off)) ∧
  (∀ (z : State) (n : Nat) (f : Fetched) (rest : List Fetched) (ext : List Byte) (ecc : EccFinds), z.canon = true → tblWf noSq z.sq = true →
    let s := z.eccAll ecc
    (s.sqSt n).fetched = f :: rest → n < 256 → s.fnState (sqFn n) = fnRUN → s.serialOk n f.bytes = true → s.late f = false →
    s.hasEvents n f = true → s.takesPoison n f = false → dOPCODE f.bytes = 0 →
    ∃ t, exec (.descriptorStart n ext ecc) z = .next t ∧ (t.sqSt n).fetched = rest ∧ t.started = z.started ∧
      (dSIGNAL f.bytes = false → t.fget (Reg.RING_EVT_BANK n) Fld.RING_EVT_BANK_COUNT =
        s.fget (Reg.RING_EVT_BANK n) Fld.RING_EVT_BANK_COUNT - dWAIT f.bytes))

/-- DEADLINE_EXPIRE (R91, R92): when the clock has reached the deadline, an unstarted descriptor leaves the fetched list and its record
takes a slot of its completion ring; a running one without an outcome ends with STATUS DEADLINE, and its own RING_SEQ in RESULT (the
model's choice, assumption 115). DEADLINE_MISS (R90): 1 µs after the deadline the miss of an unstarted or a running descriptor is counted
under class 0x02 and declared in HANG_STATUS. DESCRIPTOR_COMPLETE (R97, R98): a started descriptor with its outcome, of the ring's
present GEN, that took no ticket and whose result writes have landed, leaves the started descriptors, and its record takes a slot. -/
def Obligations.DescriptorsStartAndEnd : Prop :=
  (∀ (s : State) (n seq : Nat) (f : Fetched) (d : Int), s.canon = true → tblWf noSq s.sq = true →
    (s.sqSt n).fetched.find? (·.seq == seq) = some f → f.deadline = some d → s.cqWrites (s.cqOf n) = true →
    ∃ t, exec (.deadlineExpire n seq) s = .next t ∧ t.clk.now = (s.reachTime d).clk.now ∧ t.started = s.started ∧
      (t.sqSt n).fetched = (s.sqSt n).fetched.filter (·.seq != f.seq) ∧
      t.fget (Reg.RING_CQ_TAIL (s.cqOf n)) Fld.RING_CQ_TAIL_TAIL = (s.fget (Reg.RING_CQ_TAIL (s.cqOf n)) Fld.RING_CQ_TAIL_TAIL + 1) % 2 ^ 32) ∧
  (∀ (s : State) (n seq : Nat) (x : Started) (d : Int), (s.sqSt n).fetched.find? (·.seq == seq) = none → s.findStarted n seq = some x →
    x.deadline = some d → x.done = none →
    ∃ t y o, exec (.deadlineExpire n seq) s = .next t ∧ t.findStarted n seq = some y ∧ y.done = some o ∧ o.status = stDEADLINE ∧
      o.result = (if dOPCODE x.bytes = 0x3010 then leAt x.bytes 56 2 * 2 ^ 32 + 0xFFFFFFFF else seq)) ∧
  (∀ (s : State) (n seq : Nat) (f : Fetched) (d : Int), s.canon = true → (s.sqSt n).fetched.find? (·.seq == seq) = some f → f.deadline = some d →
    ∃ t, exec (.deadlineMiss n seq) s = .next t ∧ d + 1000 ≤ t.time ∧
      t.fget (Reg.FLT_CLASS_CNT 0x02) Fld.FLT_CLASS_CNT_COUNT =
        min (2 ^ 32 - 1) (s.fget (Reg.FLT_CLASS_CNT 0x02) Fld.FLT_CLASS_CNT_COUNT + 1) ∧
      t.fget Reg.MOD_HANG_STATUS Fld.MOD_HANG_STATUS_VALID = 1 ∧ t.sq = s.sq ∧ t.started = s.started) ∧
  (∀ (s : State) (n seq : Nat) (x : Started) (d : Int), s.canon = true → (s.sqSt n).fetched.find? (·.seq == seq) = none →
    s.findStarted n seq = some x → x.deadline = some d →
    ∃ t, exec (.deadlineMiss n seq) s = .next t ∧ d + 1000 ≤ t.time ∧
      t.fget (Reg.FLT_CLASS_CNT 0x02) Fld.FLT_CLASS_CNT_COUNT =
        min (2 ^ 32 - 1) (s.fget (Reg.FLT_CLASS_CNT 0x02) Fld.FLT_CLASS_CNT_COUNT + 1) ∧
      t.fget Reg.MOD_HANG_STATUS Fld.MOD_HANG_STATUS_VALID = 1 ∧ t.sq = s.sq ∧ t.started = s.started) ∧
  (∀ (s : State) (n seq : Nat) (x : Started) (o : Done), s.canon = true → s.findStarted n seq = some x → x.done = some o → x.ticket = none →
    x.rgen = s.gen (sqFn n) → s.resultsLanded x = true → s.cqWrites (s.cqOf n) = true →
    ∃ t, exec (.descriptorComplete n seq) s = .next t ∧
      t.started = dropFirst (fun y => y.ring == x.ring && y.seq == x.seq) s.started ∧ t.unconf = s.unconf ∧
      t.fget (Reg.RING_CQ_TAIL (s.cqOf n)) Fld.RING_CQ_TAIL_TAIL = (s.fget (Reg.RING_CQ_TAIL (s.cqOf n)) Fld.RING_CQ_TAIL_TAIL + 1) % 2 ^ 32)

/-- The commands of an assigned function that no reset covers (R104-R118). STOP in RUN with a DRAIN_LIMIT that is
not zero leads to DRAIN, GEN and the started descriptors as they were. CHANGE in STOPPED leads to CHANGE. RESTART in CHANGE with no invalid setting leads to RUN with the settings
in force; with one it stays in CHANGE and CONFIG_REJECTED is counted. ABORT in RUN or DRAIN, and DRAIN_LIMIT_EXPIRE, lead to
STOPPED; the GEN of the function has become GEN + 1, or 0x01 after 0xFF (R117).
DRAIN_COMPLETE with no started work left leads to STOPPED. STALE_REPLY_DROP counts the function's dropped reply; for a submission ring that
holds such a disowned descriptor it drops that one's late record, and DISOWNED falls by one (R121). -/
def Obligations.FunctionsMoveThroughTheirStates : Prop :=
  (∀ (s : State) (f : Nat), s.canon = true → fnAssigned f = true → s.resetCovers f = false → s.fnState f = fnRUN →
    (∀ m, f = 0x200 + m → s.cqFree m = true) → s.fget (Reg.MOD_FN f) Fld.MOD_FN_DRAIN_LIMIT ≠ 0 →
    ∃ t, exec (.cmdStop f) s = .next t ∧ t.fnState f = fnDRAIN ∧ t.gen f = s.gen f ∧ t.started = s.started ∧
      t.drainAt = tblPut zeroAt s.drainAt f s.clk.now) ∧
  (∀ (s : State) (f : Nat), s.canon = true → fnAssigned f = true → s.resetCovers f = false → s.fnState f = fnSTOPPED →
    ∃ t, exec (.cmdChange f) s = .next t ∧ t.fnState f = fnCHANGE ∧ t.gen f = s.gen f ∧
      (∀ off, off ≠ Reg.MOD_FN f → t.reg off = s.reg off) ∧ Only { regs := true } s t) ∧
  (∀ (s : State) (f : Nat), s.canon = true → fnAssigned f = true → s.resetCovers f = false → s.fnState f = fnCHANGE → s.badSetting f = none →
    ∃ t, exec (.cmdRestart f) s = .next t ∧ t.fnState f = fnRUN ∧ (∀ off, off ∈ cfgOffs f → tblGet regReset t.inForce off = s.reg off)) ∧
  (∀ (s : State) (f off : Nat), s.canon = true → fnAssigned f = true → s.resetCovers f = false → s.fnState f = fnCHANGE →
    s.badSetting f = some off →
    ∃ t, exec (.cmdRestart f) s = .next t ∧ t.fnState f = fnCHANGE ∧ t.inForce = s.inForce ∧
      t.fget (Reg.FLT_CLASS_CNT 0x11) Fld.FLT_CLASS_CNT_COUNT =
        min (2 ^ 32 - 1) (s.fget (Reg.FLT_CLASS_CNT 0x11) Fld.FLT_CLASS_CNT_COUNT + 1)) ∧
  (∀ (s : State) (f : Nat), s.canon = true → fnAssigned f = true → s.resetCovers f = false → s.fnState f = fnRUN ∨ s.fnState f = fnDRAIN →
    ∃ t, exec (.cmdAbort f) s = .next t ∧ t.fnState f = fnSTOPPED ∧
      (t.gen f = if s.gen f = 0xFF then 1 else s.gen f + 1)) ∧
  (∀ (s : State) (f : Nat), s.canon = true → s.fnState f = fnDRAIN → s.drained f = true →
    ∃ t, exec (.drainComplete f) s = .next t ∧ t.fnState f = fnSTOPPED ∧ t.gen f = s.gen f) ∧
  (∀ (s : State) (f : Nat), s.canon = true → fnAssigned f = true → s.fnState f = fnDRAIN → s.drained f = false →
    ∃ t, exec (.drainLimitExpire f) s = .next t ∧ t.fnState f = fnSTOPPED ∧
      (t.gen f = if s.gen f = 0xFF then 1 else s.gen f + 1) ∧
      tblGet zeroAt s.drainAt f + s.fget (Reg.MOD_FN f) Fld.MOD_FN_DRAIN_LIMIT * 1000000 ≤ t.clk.now) ∧
  (∀ (s : State) (n g : Nat) (d : Started), s.canon = true → tblWf zeroAt s.genStale = true → n < 256 → g ≠ s.gen (sqFn n) →
    s.started.find? (fun d => d.ring == n && d.rgen == g && d.done.isSome) = some d →
    ∃ t, exec (.staleReplyDrop (sqFn n) g) s = .next t ∧ t.fget (Reg.RING_SQ_STATUS n) Fld.RING_SQ_STATUS_DISOWNED =
        s.fget (Reg.RING_SQ_STATUS n) Fld.RING_SQ_STATUS_DISOWNED - 1 ∧
      t.started = dropFirst (fun x => x.ring == d.ring && x.seq == d.seq && x.rgen == d.rgen) s.started ∧
      tblGet zeroAt t.genStale (sqFn n) = tblGet zeroAt s.genStale (sqFn n) + 1 ∧ Counted s t 0x12) ∧
  (∀ (s : State) (f g : Nat), s.canon = true → fnAssigned f = true → g ≠ s.gen f →
    (0x100 ≤ f → f < 0x200 → s.started.find? (fun d => d.ring == f - 0x100 && d.rgen == g && d.done.isSome) = none) →
    ∃ t, exec (.staleReplyDrop f g) s = .next t ∧ t.genStale = tblPut zeroAt s.genStale f (tblGet zeroAt s.genStale f + 1) ∧
      t.fget (Reg.FLT_CLASS_CNT 0x12) Fld.FLT_CLASS_CNT_COUNT =
        min (2 ^ 32 - 1) (s.fget (Reg.FLT_CLASS_CNT 0x12) Fld.FLT_CLASS_CNT_COUNT + 1) ∧
      (∀ off, off ∉ reportRegs 0x12 → t.reg off = s.reg off) ∧ Only (Parts.report.or { genStale := true, fab := true }) s t)

/-- MEMORY_READ of a range within one 4 KiB piece of this module's HBM by a master of this module or the open host, whatever the codes find
on its bursts (R220): with no pending or withdrawn page and no poisoned burst in it, and no older write of the same master to its bursts
that is held, the reply carries exactly the bytes there; with a pending page it waits (R433); at an address that names no place it is
answered with zeros and ADDR_UNMAPPED (class 0x14) is counted (R35). MEMORY_WRITE of such a range that no Sump copy, no held write and no
older read of the same master holds up: the bytes are stored, every other byte of HBM outside the page's tag is as before, and the page is
OPEN (R415); one that is held up joins the held writes and changes no memory (R53, R224, R568). -/
def Obligations.MemoryReadsAndWrites : Prop :=
  (∀ (z : State) (who : Master) (addr n a : Nat) (ecc : EccFinds), (who = .host → z.pcie.bars = true) →
    (match who with | .remote .. => False | .tmp .. => False | _ => True) → 0 < n → addr % 4096 + n ≤ 4096 →
    let s := z.eccIn addr n ecc
    s.gloc addr = .own (.hbm a) → s.pendingIn addr n = false → s.behindWrite who s.order (s.gbursts addr n) = false →
    (pagesOf a n).any s.isWithdrawn = false → s.poisonedAt a n = false →
    ∃ t, exec (.memoryRead who .global addr n ecc) z = .next t ∧ t.out = s.out ++ [.readReply who addr (s.mem.read a n) false] ∧
      Only { out := true, tor := true } s t) ∧
  (∀ (z : State) (who : Master) (addr n a : Nat) (ecc : EccFinds), (who = .host → z.pcie.bars = true) → n ≤ 4096 →
    let s := z.eccIn addr n ecc
    s.gloc addr = .own (.hbm a) → s.pendingIn addr n = true →
    ∃ t, exec (.memoryRead who .global addr n ecc) z = .next t ∧
      t.waitRd = s.waitRd ++ [{ who := who, stamp := s.order, addr := addr, len := n }] ∧ Only { waitRd := true, order := true } s t) ∧
  (∀ (s : State) (who : Master) (addr n : Nat) (ecc : EccFinds), s.canon = true → (who = .host → s.pcie.bars = true) →
    (match who with | .remote .. => False | .tmp .. => False | _ => True) → 0 < n → addr % 4096 + n ≤ 4096 →
    s.gloc addr = .own .unmapped →
    ∃ t, exec (.memoryRead who .global addr n ecc) s = .next t ∧ Out.readReply who addr (List.replicate n 0#8) false ∈ t.out ∧
      Counted s t 0x14 ∧ SameRegs s t (reportRegs 0x14) ∧ Only Parts.report s t) ∧
  (∀ (s : State) (who : Master) (addr a : Nat) (d : List Byte), s.canon = true → (who = .host → s.pcie.bars = true) → d ≠ [] →
    addr % 4096 + d.length ≤ 4096 → s.gloc addr = .own (.hbm a) → s.sumpHolds a d.length = false → s.behindHeld a d.length = false →
    s.behindRead who s.order (burstsOf a d.length) = false →
    ∃ t, exec (.memoryWrite who .global addr d) s = .next t ∧ t.mem.read a d.length = d ∧
      (∀ x, ¬(a ≤ x ∧ x < a + d.length) → ¬(tagPlace (a / 4096) ≤ x ∧ x < tagPlace (a / 4096) + 8) → t.mem.byte x = s.mem.byte x) ∧
      t.isOpen (a / 4096) = true ∧ Only (Parts.memory.or { tor := true, arr := true }) s t) ∧
  (∀ (s : State) (who : Master) (addr a : Nat) (d : List Byte), s.canon = true → (who = .host → s.pcie.bars = true) → d ≠ [] →
    addr % 4096 + d.length ≤ 4096 → s.gloc addr = .own (.hbm a) →
    (s.sumpHolds a d.length = true ∨ s.behindHeld a d.length = true ∨ s.behindRead who s.order (burstsOf a d.length) = true) →
    ∃ t, exec (.memoryWrite who .global addr d) s = .next t ∧
      t.heldWr = s.heldWr ++ [{ who := who, stamp := s.order, key := a, data := d }] ∧
      Only { regs := true, heldWr := true, order := true, tor := true } s t)

/-- REGISTER_WRITE. A write of a register that takes no write, or that does not exist, is discarded and CONFIG_REJECTED is counted; a
configuration register below the FLT block whose function is not in CHANGE keeps its word, and CONFIG_REJECTED is counted (R109); the Tiler
settings, with the array in CHANGE, take the written fields (R755). REGISTER_HOLDER_TIMEOUT: ADDR_UNMAPPED is counted, and a read is
answered with eight zero bytes (R759). EVR_POP of POP[i]: TAIL_SEQ advances by the records that R645 releases, and the reply carries
their number in its upper half. -/
def Obligations.RegisterAccesses : Prop :=
  (∀ (s : State) (who : Master) (off : Nat) (v : Word), s.canon = true → s.answers off = true → ¬(0xE80000 ≤ off ∧ off < 0xEC0000) →
    (∀ r a b, findReg off = some (r, a, b) → r.writable = false ∨ (r.mgmt = true ∧ mgmtOf who = false)) →
    ∃ t, exec (.registerWrite who off v) s = .next t ∧
      Counted s t 0x11 ∧ SameRegs s t (reportRegs 0x11) ∧ Only Parts.report s t) ∧
  (∀ (s : State) (who : Master) (off a b base step : Nat) (r : RegRow) (v : Word), s.canon = true → s.answers off = true → off < 0x800000 →
    findReg off = some (r, a, b) → r.writable = true → (r.mgmt = true → mgmtOf who = true) → r.owner = some (base, step) →
    r.base ∉ [0x1000, 0x104018, 0x108000, 0x201200] →
    off ∉ [Reg.MOD_RESET_CMD, Reg.MOD_CHIP_ASSIGN, Reg.MOD_HANG_STATUS, Reg.ARR_FENCE_BLOCK] → s.fnState (base + step * a) ≠ fnCHANGE →
    ∃ t, exec (.registerWrite who off v) s = .next t ∧
      Counted s t 0x11 ∧ SameRegs s t (reportRegs 0x11) ∧ Only Parts.report s t) ∧
  (∀ (s : State) (who : Master) (v : Word), s.canon = true → s.answers Reg.ARR_TILER_CFG = true → s.fnState 0 = fnCHANGE →
    ∃ t, exec (.registerWrite who Reg.ARR_TILER_CFG v) s = .next t ∧
      (∀ g ∈ [Fld.ARR_TILER_CFG_PREFETCH_CHUNKS, Fld.ARR_TILER_CFG_TILER_MIB, Fld.ARR_TILER_CFG_OVERLAP],
        t.fget Reg.ARR_TILER_CFG g = g.get v) ∧
      (∀ o, o ≠ Reg.ARR_TILER_CFG → t.reg o = s.reg o) ∧ t.inForce = s.inForce ∧ Only { regs := true } s t) ∧
  (∀ (s : State) (who : Master) (off : Nat) (w : Bool), s.canon = true →
    ∃ t, exec (.registerHolderTimeout who off w) s = .next t ∧
      Counted s t 0x14 ∧
      (w = false → Out.readReply who (ownAt (0x030000000000 + off)) (List.replicate 8 0#8) false ∈ t.out) ∧
      SameRegs s t (reportRegs 0x14) ∧ Only Parts.report s t) ∧
  (∀ (s : State) (who : Master) (i : Nat), s.canon = true → i < 65536 →
    let tail := s.fget Reg.EVR_TAIL_SEQ Fld.EVR_TAIL_SEQ_SEQ
    ∃ t, exec (.evrPop who i) s = .next t ∧ t.fget Reg.EVR_TAIL_SEQ Fld.EVR_TAIL_SEQ_SEQ = (tail + s.popCount i) % 2 ^ 32 ∧
      t.out = s.out ++ [.readReply who (ownAt (0x030000C80000 + 8 * i))
        (leBytes 8 (BitVec.ofNat 64 (s.popCount i * 2 ^ 32 + (tail + s.popCount i) % 2 ^ 32)).toNat) false] ∧
      (∀ o, o ≠ Reg.EVR_TAIL_SEQ → t.reg o = s.reg o) ∧ Only { regs := true, out := true } s t)

/-- SWEEP and INTERACT (R169, R182, R210, R411), whatever the codes find on what they read: the running descriptor that has not begun and
reads no pending page checks its operands' tags; when they hold, it has begun, with the tiles that were dealt to the active cells at its
start; one without a tile ends at once; when a check fails, the descriptor ends FAULTED and the array is free. CHUNK_APPLY (R183, R155): the
cell's tiles take their next chunk; a tile whose store word has an uncorrected error restarts on another cell. TILE_FOLD (R141, R155): a tile
with all its chunks, not the last one, that need not wait for a page leaves the running descriptor and stands, folded, in the ticket; the
last one frees the array, and the descriptor ends SUCCESS or FAULTED; one with an uncorrected error restarts on another cell. VE_OP (R206):
its descriptor ends FAULTED when its operands or pages fail and SUCCESS otherwise (a cut that stops in its writes apart), the array is free,
and its ticket settles with it when it is the next to settle. -/
def Obligations.ArrayDealsAppliesAndFolds : Prop :=
  (∀ (z : State) (n seq pick : Nat) (ecc : EccFinds) (r : ArrRun) (d : Started),
    let s := z.eccAll ecc
    s.runOf n seq = some (r, d) → r.op = 0x1001 → r.begun = false →
    (sweepReads r d.bytes d.param).any (fun q => s.pendingIn q.1 q.2) = false →
    ∃ t, exec (.sweep n seq pick ecc) z = .next t ∧ Only (Parts.report.or { poison := true, started := true, arr := true }) s t ∧
      ((s.awareChecks (arrCtx r.ring d.bytes (r.active.headD 0)) (sweepReads r d.bytes d.param)).2 = none → r.tiles ≠ [] →
        t.arr.run = some { r with begun := true } ∧ t.started = s.started) ∧
      ((s.awareChecks (arrCtx r.ring d.bytes (r.active.headD 0)) (sweepReads r d.bytes d.param)).2 = none → r.tiles = [] →
        t.arr.run = none ∧ (t.endOf n seq = some stSUCCESS ∨ t.endOf n seq = some stFAULTED)) ∧
      ((s.awareChecks (arrCtx r.ring d.bytes (r.active.headD 0)) (sweepReads r d.bytes d.param)).2 ≠ none →
        t.arr.run = none ∧ t.endOf n seq = some stFAULTED)) ∧
  (∀ (z : State) (n seq pick : Nat) (ecc : EccFinds) (r : ArrRun) (d : Started),
    let s := z.eccAll ecc
    s.runOf n seq = some (r, d) → r.op = 0x1003 → r.begun = false →
    (sweepReads r d.bytes d.param).any (fun q => s.pendingIn q.1 q.2) = false →
    ∃ t, exec (.interact n seq pick ecc) z = .next t ∧ Only (Parts.report.or { poison := true, started := true, arr := true }) s t ∧
      ((s.awareChecks (arrCtx r.ring d.bytes (r.active.headD 0)) (sweepReads r d.bytes d.param)).2 = none → r.tiles ≠ [] →
        t.arr.run = some { r with begun := true } ∧ t.started = s.started) ∧
      ((s.awareChecks (arrCtx r.ring d.bytes (r.active.headD 0)) (sweepReads r d.bytes d.param)).2 = none → r.tiles = [] →
        t.arr.run = none ∧ (t.endOf n seq = some stSUCCESS ∨ t.endOf n seq = some stFAULTED)) ∧
      ((s.awareChecks (arrCtx r.ring d.bytes (r.active.headD 0)) (sweepReads r d.bytes d.param)).2 ≠ none →
        t.arr.run = none ∧ t.endOf n seq = some stFAULTED)) ∧
  (∀ (z : State) (cell corr : Nat) (ecc : EccFinds) (r : ArrRun) (d : Started),
    let s := z.eccAll ecc
    s.arr.run = some r → s.runOf r.ring r.seq = some (r, d) → r.begun = true → cell < 4096 →
    let q := s.chunkStep r (tileP d.bytes d.param) cell
    (∃ t, exec (.chunkApply cell none corr ecc) z = .next t ∧ t.arr.run = some q.1 ∧
      t.started = s.started ∧ t.arr.tickets = s.arr.tickets ∧ t.mem = { s.mem with trf := t.mem.trf }) ∧
    (∀ (num to_ : Nat) (u : Tile), (groupOf q.1 cell).find? (fun t => t.num == num && t.tag.isSome) = some u →
      moveTarget (q.1.active.filter (· != cell)) cell = some to_ →
      ∃ t, exec (.chunkApply cell (some num) corr ecc) z = .next t ∧ t.arr.run = some (moveTile q.1 num to_) ∧ t.started = s.started)) ∧
  (∀ (z : State) (cell corr : Nat) (fault : List (Nat × Nat)) (ecc : EccFinds) (r : ArrRun) (d : Started) (tk : TicketSt) (u : Tile),
    let s := z.eccAll ecc
    s.arr.run = some r → s.runOf r.ring r.seq = some (r, d) → s.arr.tickets.find? (·.num == r.ticket) = some tk →
    (groupOf r cell).find? (·.num == u.num) = some u → r.begun = true →
    let x := tileP d.bytes d.param
    u.next = x.chunks →
    let f := foldOf x u fault
    let o := s.outOf x (tk.tiles ++ [f]) f (r.left = 1)
    (s.foldWaits tk (arrOuts d.bytes d.param r.gone) (s.pagesOfWrites (o.data ++ o.scales)) = false → r.left ≠ 1 →
      ∃ t, exec (.tileFold cell u.num fault false corr ecc) z = .next t ∧
        (∃ r', t.arr.run = some r' ∧ r'.left = r.left - 1 ∧ r'.tiles = r.tiles.filter (·.num != u.num) ∧ r'.active = r.active) ∧
        (∃ k, k ∈ t.arr.tickets ∧ k.num = tk.num ∧ ∃ g, g ∈ k.tiles ∧ g.num = u.num ∧ g.vals = f.vals ∧ g.standing = 0)) ∧
    (s.foldWaits tk (arrOuts d.bytes d.param r.gone) (s.pagesOfWrites (o.data ++ o.scales)) = false → r.left = 1 →
      ∃ t, exec (.tileFold cell u.num fault false corr ecc) z = .next t ∧ t.arr.run = none ∧
        (t.endOf r.ring r.seq = some stSUCCESS ∨ t.endOf r.ring r.seq = some stFAULTED)) ∧
    (∀ to_, u.tag.isSome = true → moveTarget (r.active.filter (· != cell)) cell = some to_ →
      ∃ t, exec (.tileFold cell u.num fault true corr ecc) z = .next t ∧ t.arr.run = some (moveTile r u.num to_) ∧
        t.arr.tickets = s.arr.tickets ∧ t.mem = { s.mem with trf := t.mem.trf })) ∧
  (∀ (z : State) (n seq : Nat) (ecc : EccFinds) (r : ArrRun) (d : Started),
    let s := z.eccAll ecc
    s.runOf n seq = some (r, d) → r.op = 0x1020 →
    ((veP d.bytes).ins ++ (veP d.bytes).outs).any (fun q => s.pendingIn q.1 q.2) = false →
    let b := r.active.headD 0 / 64
    let q := s.veRun { arrCtx r.ring d.bytes (b * 64) with unit := 0x04, cell := 0xFF } (veP d.bytes) (dSTEP d.bytes)
    let next := s.fget Reg.INTG_TICKET Fld.INTG_TICKET_SETTLED
    ∃ t, exec (.veOp n seq ecc) z = .next t ∧ t.arr.run = none ∧ (r.ticket ≠ next → t.mem = { q.1.mem with trf := t.mem.trf }) ∧
      (t.endOf n seq = some stSUCCESS ∨ t.endOf n seq = some stFAULTED) ∧ (q.2 ≠ none → t.endOf n seq = some stFAULTED) ∧
      (q.2 = none → s.sump.cut = none → t.endOf n seq = some stSUCCESS) ∧
      (∀ k, s.canon = true → s.arr.tickets.find? (·.num == r.ticket) = some k → k.tiles = [] → r.ticket = next → s.sump.cut = none →
        t.fget Reg.INTG_TICKET Fld.INTG_TICKET_SETTLED = (next + 1) % 65536))

/-- PREFETCH_START (R191-R194): while a descriptor runs, overlap is on and nothing is prefetched, the first ring in the round-robin order
whose head is eligible is chosen, its turn is noted, the first chunks of a SWEEP are fetched ahead, and the running descriptor, every started descriptor and every memory are as before.
FENCE_CLEAR_WRITE (R198): exactly the fence bits that are set and that the write holds as 1 are added to those that clear at the next
descriptor start; the fences themselves stay. -/
def Obligations.PrefetchAndFenceClearing : Prop :=
  (∀ (s : State) (r : ArrRun) (d : Started) (n : Nat) (f : Fetched) (before after : List Nat), s.arr.run = some r →
    s.findStarted r.ring r.seq = some d → s.cfg Reg.ARR_TILER_CFG Fld.ARR_TILER_CFG_OVERLAP = 1 → s.arr.prefetch = none →
    s.arrayOrder = before ++ n :: after →
    (∀ m, m ∈ before → ∀ g, (s.sqSt m).fetched.head? = some g → s.eligible d m g = false) →
    (s.sqSt n).fetched.head? = some f → s.eligible d n f = true →
    ∃ t, exec .prefetchStart s = .next t ∧ t.arr.prefetch = some (n, f.seq) ∧ t.arr.run = s.arr.run ∧
      t.arr.preCells = (if dOPCODE f.bytes = 0x1001 then s.activeSet else []) ∧
      t.arr.pre = (if dOPCODE f.bytes = 0x1001 then s.fetchAhead (tileP f.bytes (s.peekParam n f)) s.activeSet else []) ∧ t.rrLast = tblPut (fun _ => 31) s.rrLast 0 n ∧
      Only { regs := true, rrLast := true, arr := true, pwr := true } s t) ∧
  (∀ (s : State) (value : Word),
    ∃ t, exec (.fenceClearWrite none value) s = .next t ∧
      (∀ i, i < 64 → t.arr.clearBlock.testBit i =
        (s.arr.clearBlock.testBit i || ((s.reg Reg.ARR_FENCE_BLOCK).getLsbD i && value.getLsbD i))) ∧
      t.arr.clearCell = s.arr.clearCell ∧ t.arr.run = s.arr.run ∧ Only { arr := true } s t) ∧
  (∀ (s : State) (b : Nat) (value : Word), b < 64 →
    ∃ t, exec (.fenceClearWrite (some b) value) s = .next t ∧ t.arr.clearBlock = s.arr.clearBlock ∧
      t.arr.clearCell = tblPut zeroAt s.arr.clearCell b
        (tblGet zeroAt s.arr.clearCell b ||| (s.reg (Reg.ARR_FENCE_CELL b) &&& value).toNat) ∧ t.arr.run = s.arr.run ∧
      Only { arr := true } s t)

/-- SCRUB_READ of a stack whose scrubber runs (R220, R223, R417): the scrubber moves to the next burst; a burst that is read clean changes
nothing else, and one that is corrected raises CE_COUNT, unless it ends a page that is neither OPEN nor WITHDRAWN and whose CRC fails: that
page is then WITHDRAWN. An uncorrectable or poisoned burst is counted under class 0x07, and is poisoned. CUT_TOKEN_ARRIVAL (R226): with the
inactive bank clear, the region's active bank is the other one and the cut has it among its swapped
regions; else the token is held and HELD_CUTS rises (R227). CUT_TOKEN_RELEASE: a held token is acted on once the inactive bank is clear. -/
def Obligations.ScrubbingAndCutTokens : Prop :=
  (∀ (s : State) (st : Nat), st < 16 → s.fget (Reg.LDG_SCRUB_CFG (st / 2)) Fld.LDG_SCRUB_CFG_PERIOD_H ≠ 0 → s.blockUp (0x40 + st / 2) = true →
    let n := tblGet zeroAt s.scrub st
    let page := (st * 2 ^ 30 + n) / 64
    s.mem.poison.contains (st * 2 ^ 30 + n) = false →
    (n % 64 ≠ 63 ∨ s.isOpen page = true ∨ s.isWithdrawn page = true ∨ s.crcGood page = true) →
    (∃ t, exec (.scrubRead st .clean) s = .next t ∧ t.scrub = tblPut zeroAt s.scrub st ((n + 1) % 2 ^ 30) ∧ Only { scrub := true } s t) ∧
    (∀ e, e = .onDie ∨ e = .corrected → s.canon = true →
      ∃ t, exec (.scrubRead st e) s = .next t ∧ t.scrub = tblPut zeroAt s.scrub st ((n + 1) % 2 ^ 30) ∧
        Rose s t (Reg.LDG_ECC_STATUS (st / 2) (st % 2)) Fld.LDG_ECC_STATUS_CE_COUNT 1 ∧ t.mem.hbm = s.mem.hbm)) ∧
  (∀ (s : State) (st : Nat), s.canon = true → st < 16 → s.fget (Reg.LDG_SCRUB_CFG (st / 2)) Fld.LDG_SCRUB_CFG_PERIOD_H ≠ 0 →
    s.blockUp (0x40 + st / 2) = true →
    let n := tblGet zeroAt s.scrub st
    let page := (st * 2 ^ 30 + n) / 64
    n < 2 ^ 30 → s.mem.poison.contains (st * 2 ^ 30 + n) = false →
    n % 64 = 63 → s.isOpen page = false → s.isWithdrawn page = false → s.crcGood page = false →
    ∃ t, exec (.scrubRead st .clean) s = .next t ∧ t.scrub = tblPut zeroAt s.scrub st ((n + 1) % 2 ^ 30) ∧ t.isWithdrawn page = true ∧
      Counted s t 0x09 ∧ (∀ a, ¬(tagPlace page ≤ a ∧ a < tagPlace page + 8) → t.mem.byte a = s.mem.byte a)) ∧
  (∀ (s : State) (st : Nat) (e : Ecc), s.canon = true → st < 16 → s.fget (Reg.LDG_SCRUB_CFG (st / 2)) Fld.LDG_SCRUB_CFG_PERIOD_H ≠ 0 →
    s.blockUp (0x40 + st / 2) = true →
    let n := tblGet zeroAt s.scrub st
    n < 2 ^ 30 → s.mem.poison.contains (st * 2 ^ 30 + n) = true ∨ e = .uncorrectable → n % 64 ≠ 63 →
    ∃ t, exec (.scrubRead st e) s = .next t ∧ t.scrub = tblPut zeroAt s.scrub st ((n + 1) % 2 ^ 30) ∧ Counted s t 0x07 ∧
      t.mem.poison.contains (st * 2 ^ 30 + n) = true ∧ t.mem.hbm = s.mem.hbm) ∧
  (∀ (s : State) (r : Nat), s.canon = true → r < 8 → s.sump.tokens.contains r = true → s.inactivePages r = [] →
    ∃ t, exec (.cutTokenArrival r) s = .next t ∧ t.activeBank r = 1 - s.activeBank r ∧ r ∉ t.sump.tokens ∧
      (∀ c, s.sump.cut = some c → ∃ c', t.sump.cut = some c' ∧ c'.swapped = c.swapped ++ [r] ∧ c'.ring = c.ring ∧ c'.seq = c.seq) ∧
      Only { regs := true, dirty := true, started := true, sump := true } s t) ∧
  (∀ (s : State) (r : Nat), s.canon = true → r < 8 → s.sump.tokens.contains r = true → s.inactivePages r ≠ [] →
    ∃ t, exec (.cutTokenArrival r) s = .next t ∧ t.activeBank r = s.activeBank r ∧ r ∉ t.sump.tokens ∧ r ∈ t.sump.held ∧
      t.sump.cut = s.sump.cut ∧ Rose s t (Reg.LDG_DIRTY_CTL r) Fld.LDG_DIRTY_CTL_HELD_CUTS 1 ∧
      SameRegs s t [Reg.LDG_DIRTY_CTL r] ∧ Only { regs := true, sump := true } s t) ∧
  (∀ (s : State) (r : Nat), s.canon = true → r < 8 → s.sump.held.contains r = true → s.inactivePages r = [] →
    ∃ t, exec (.cutTokenRelease r) s = .next t ∧ t.activeBank r = 1 - s.activeBank r ∧ r ∉ t.sump.held ∧
      (∀ c, s.sump.cut = some c → ∃ c', t.sump.cut = some c' ∧ c'.swapped = c.swapped ++ [r]) ∧
      Only { regs := true, dirty := true, started := true, sump := true } s t)

/-- GATHER of a started descriptor with a valid directory entry, whose lists no pending page holds up and pass their checks, and each of whose
indices names a readable shard-map entry of a chip that is this module or has a route: it has begun, its range is not open yet, the indices
outside the table are counted, and it has no outcome; one without a valid entry ends BAD_OPERAND (R243). ROW_REQUEST, at the die whose link die received it: an unknown table is refused
with MAP_VERSION 0, and a row that is readable is sent back (R252). ROW_REPLY: a row of this module that was asked for is at its position
(with no position left to ask for and the range not open), and a refusal by the owner's map ends the descriptor REFUSED (R254).
GATHER_OPEN (R257): the target answers 0x14 or 0x15; 0x14 opens the range of the engine that asked, with no bag ready; 0x15 ends the
descriptor BAD_OPERAND. -/
def Obligations.GatherReadsRows : Prop :=
  (∀ (z : State) (n seq : Nat) (ofs idx wts : List Byte) (ecc : EccFinds) (d : Started) (eb : List Byte),
    let s := z.eccAll ecc
    s.findStarted n seq = some d → dOPCODE d.bytes = 0x2001 → d.begun = false → d.done = none → s.findGather n seq = none →
    let p := gatherP d.bytes
    let e := tblEntry eb
    let c := gatherCtx d.ring p.region d.bytes
    let who := masterOf (0x40 + p.region) (originOfDesc d.ring d.seq d.bytes)
    s.pendingIn (s.entryAddr p.region p.table) 64 = false → s.pendingIn p.ofs p.ofsLen = false →
    let q := s.awareChecks c [(s.entryAddr p.region p.table, 64), (p.ofs, p.ofsLen)]
    q.2 = none → q.1.tableOf p.region p.table = some eb →
    let x := q.1.extRead who true p.ofs p.ofsLen ofs
    let os := gatherOfs p x.2
    let cnt := os.getLastD 0
    let wLen := if p.pool = 4 then 4 * cnt else 0
    p.entryBad e = false → ofsGood p.pool os = true → x.1.pendingIn p.idx (8 * cnt) = false → x.1.pendingIn p.weights wLen = false →
    (x.1.awareChecks c [(p.idx, 8 * cnt), (p.weights, wLen)]).2 = none →
    let y := (x.1.awareChecks c [(p.idx, 8 * cnt), (p.weights, wLen)]).1.extRead who true p.idx (8 * cnt) idx
    let s1 := (y.1.extRead who true p.weights wLen wts).1
    let idxs := (chunksOf 8 cnt y.2).map leNat
    s1.ownAddr p.out = true ∨ s1.hasRoute p.region (p.out / 2 ^ 48) = true →
    (∀ i, i ∈ idxs → 2 ^ e.w ≤ i ∨
      ((∃ a, s1.placeOf (e.mapAddr i) = some a) ∧ (s1.awareCheck c (e.mapAddr i) 4 none none).2 = none ∧
        (s1.ownAddr ((s1.placeRow e i).1 * 2 ^ 48) = true ∨ s1.hasRoute p.region (s1.placeRow e i).1 = true))) →
    ∃ t, exec (.gather n seq ofs idx wts ecc) z = .next t ∧ t.endOf n seq = none ∧ (∃ y, t.findStarted n seq = some y ∧ y.begun = true) ∧
      (∃ g, t.findGather n seq = some g ∧ g.entry = eb ∧ g.region = p.region ∧ g.opened = false ∧ g.written = [] ∧
        g.badIdx = (idxs.filter (fun i => i != 2 ^ 64 - 1 && i ≥ 2 ^ e.w)).length)) ∧
  (∀ (z : State) (n seq : Nat) (ofs idx wts : List Byte) (ecc : EccFinds) (d : Started),
    let s := z.eccAll ecc
    s.findStarted n seq = some d → dOPCODE d.bytes = 0x2001 → d.begun = false → d.done = none →
    let p := gatherP d.bytes
    s.pendingIn (s.entryAddr p.region p.table) 64 = false → s.pendingIn p.ofs p.ofsLen = false →
    let q := s.awareChecks (gatherCtx d.ring p.region d.bytes) [(s.entryAddr p.region p.table, 64), (p.ofs, p.ofsLen)]
    q.2 = none → q.1.tableOf p.region p.table = none →
    ∃ t, exec (.gather n seq ofs idx wts ecc) z = .next t ∧ t.endOf n seq = some stBAD_OPERAND ∧ t.gathers = s.gathers) ∧
  (∀ (z s1 : State) (r : Nat) (pkt : Packet) (ecc : EccFinds), (z.eccAll ecc).take pkt = some s1 → pkt.kind = 0x10 → pkt.port < 48 → pkt.port / 6 = r →
    s1.cfg (Reg.LDG_TBL_DIR_CFG r) Fld.LDG_TBL_DIR_CFG_COUNT ≤ leAt pkt.body 0 2 →
    ∃ t, exec (.rowRequest r pkt ecc) z = .next t ∧ t = s1.answer r pkt 0x12 0 (leBytes 4 0 ++ leBytes 1 0)) ∧
  (∀ (z s1 : State) (r : Nat) (pkt : Packet) (ecc : EccFinds) (eb : List Byte), (z.eccAll ecc).take pkt = some s1 → pkt.kind = 0x10 →
    pkt.port < 48 → pkt.port / 6 = r →
    let c : Ctx := { die := 0x40 + r, unit := 0x13, region := some r, layer := pkt.layer, op := pkt.op }
    let dir := s1.entryAddr r (leAt pkt.body 0 2)
    s1.pendingIn dir 64 = false → (s1.awareCheck c dir 64 none none).2 = none →
    let s2 := (s1.awareCheck c dir 64 none none).1
    s2.tableOf r (leAt pkt.body 0 2) = some eb →
    let e := tblEntry eb
    let addr := e.rowAddr (leAt pkt.body 8 4) (leAt pkt.body 12 8)
    e.mapVer = leAt pkt.body 4 4 → leAt pkt.body 8 4 < e.slots →
    s2.fnState (0x10 + 4 * r) = fnRUN ∨ s2.fnState (0x10 + 4 * r) = fnDRAIN ∨ s2.fnState (0x10 + 4 * r) = fnSTOPPED →
    s2.pendingIn addr e.payload = false → (s2.readRow c e addr).2 = none →
    let s3 := (s2.readRow c e addr).1
    ∃ t, exec (.rowRequest r pkt ecc) z = .next t ∧
      t = (s3.evCount (0x40 + r) 0x42 1 pkt.layer pkt.op).answer r pkt 0x11 0 (s3.gread addr e.payload) ∧ t.started = z.started) ∧
  (∀ (z : State) (n seq pos : Nat) (ecc : EccFinds) (g : GatherRun) (d : Started) (q : GPos),
    let s := z.eccAll ecc
    s.findGather n seq = some g → s.findStarted n seq = some d → g.opened = false →
    (∀ x, x ∈ s.gathers → x.region = g.region → ∀ b, b ∈ x.bags → ∀ y, y ∈ b → y.st ≠ 1) → posAt g pos = some q → q.st = 2 → q.chip = 0xFFFF →
    let e := tblEntry g.entry
    s.pendingIn q.addr e.payload = false → (s.readRow (gatherCtx n g.region d.bytes) e q.addr).2 = none →
    ∃ t, exec (.rowReply n seq pos none ecc) z = .next t ∧
      (∃ g', t.findGather n seq = some g' ∧
        posAt g' pos = some { q with st := 3, data := (s.readRow (gatherCtx n g.region d.bytes) e q.addr).1.gread q.addr e.payload } ∧
        ∀ i, i ≠ pos → posAt g' i = posAt g i) ∧ t.started = s.started ∧ t.mem = { s.mem with trf := t.mem.trf }) ∧
  (∀ (z s1 : State) (n seq pos : Nat) (ecc : EccFinds) (g : GatherRun) (d : Started) (k : Packet), (z.eccAll ecc).findGather n seq = some g →
    (z.eccAll ecc).findStarted n seq = some d → d.done = none → (z.eccAll ecc).take k = some s1 → k.kind = 0x12 → k.gen = d.gen →
    waitsTag k.tag g = true →
    ∃ t, exec (.rowReply n seq pos (some k) ecc) z = .next t ∧ t.endOf n seq = some (if leAt k.body 4 1 = 0 then stREFUSED else stFAULTED)) ∧
  (∀ (s s1 : State) (pkt : Packet), s.take pkt = some s1 → pkt.kind = 0x13 →
    let ok := s1.openOk pkt.addr (leAt pkt.body 0 8)
    let r := match stagingOf pkt.addr with | some (b, _) => b / 8 | none => 0
    ∃ t, exec (.gatherOpen pkt) s = .next t ∧
      t = (if ok then s1.noteOpen pkt else s1).answer r pkt (if ok then 0x14 else 0x15) 0 (leBytes 1 (leAt pkt.body 12 1)) ∧
      t.rowsIn = (if ok then (s1.noteOpen pkt).rowsIn else s.rowsIn) ∧
      (pkt.src = 0xFFFF → ∃ k, k ∈ t.fab.delivered ∧ k.tag = pkt.tag ∧ k.kind = if ok then 0x14 else 0x15)) ∧
  (∀ (s s1 : State) (n seq : Nat) (pkt : Packet) (g : GatherRun), s.take pkt = some s1 → pkt.kind = 0x14 → s.findGather n seq = some g →
    s.gathers.find? (fun x => x.openTag == pkt.tag && !x.opened) = some g → (∀ b, b ∈ g.bags → bagReady b = false) → g.bags ≠ [] → g.written = [] →
    (∀ x, x ∈ s.gathers → x.region = g.region → ∀ b, b ∈ x.bags → ∀ y, y ∈ b → y.st ≠ 1) →
    ∃ t, exec (.gatherOpen pkt) s = .next t ∧ t.findGather n seq = some { g with opened := true } ∧ t.started = s.started ∧
      Only { fab := true, gathers := true } s t) ∧
  (∀ (s s1 : State) (n seq : Nat) (pkt : Packet) (g : GatherRun) (d : Started), s.take pkt = some s1 → pkt.kind = 0x15 → s.findStarted n seq = some d →
    d.done = none → s.gathers.find? (fun x => x.openTag == pkt.tag && !x.opened) = some g → g.ring = n → g.seq = seq →
    ∃ t, exec (.gatherOpen pkt) s = .next t ∧ t.endOf n seq = some stBAD_OPERAND)

/-- TAG_SEAL and TAG_VERIFY of a started descriptor with no pending page in its range (R418). With no poisoned burst in the pages that it
reads, TAG_SEAL ends SUCCESS with the number of pages and of WITHDRAWN ones in RESULT; each page outside the tag and crash-dump areas that was
not WITHDRAWN has the descriptor's FMT and a CRC that covers its contents, and no byte outside the tags changes. TAG_VERIFY ends SUCCESS with
the number of pages and of those that fail, and changes no memory of HBM or staging. A poisoned burst ends either one FAULTED (R221). -/
def Obligations.TagsSealAndVerify : Prop :=
  (∀ (z : State) (n seq : Nat) (ecc : EccFinds) (d : Started), z.canon = true →
    let s := z.eccAll ecc
    s.findStarted n seq = some d → s.tagOpReady d 0x2020 = true →
    let ps := s.tagOpPages d.bytes
    (ps.findSome? s.pagePoison = none →
      ∃ t, exec (.tagSeal n seq ecc) z = .next t ∧
        (∃ y o, t.findStarted n seq = some y ∧ y.done = some o ∧ o.status = stSUCCESS ∧
          o.result = ps.length * 2 ^ 32 + (ps.filter s.isWithdrawn).length) ∧
        (∀ p, p ∈ ps → alwaysOpen p = false → s.isWithdrawn p = false → tagFmt (t.tag p) = leAt d.bytes 25 1 ∧ t.crcGood p = true) ∧
        (∀ a, (∀ p, p ∈ ps → ¬(tagPlace p ≤ a ∧ a < tagPlace p + 8)) → t.mem.byte a = s.mem.byte a) ∧
        Only (Parts.memory.or { started := true }) s t) ∧
    (ps.findSome? s.pagePoison ≠ none →
      ∃ t, exec (.tagSeal n seq ecc) z = .next t ∧ t.endOf n seq = some stFAULTED ∧ Counted s t 0x07)) ∧
  (∀ (z : State) (n seq : Nat) (ecc : EccFinds) (d : Started), z.canon = true →
    let s := z.eccAll ecc
    s.findStarted n seq = some d → s.tagOpReady d 0x2021 = true →
    let ps := s.tagOpPages d.bytes
    let b := d.bytes
    let bad := (ps.zip (List.range ps.length)).filter (fun p => !s.verifyPage (leAt b 25 1) (bitOf (leAt b 40 1) 0) (leAt b 26 2 + p.2) p.1)
    (ps.findSome? s.pagePoison = none →
      ∃ t, exec (.tagVerify n seq ecc) z = .next t ∧
        (∃ y o, t.findStarted n seq = some y ∧ y.done = some o ∧ o.status = stSUCCESS ∧ o.result = ps.length * 2 ^ 32 + bad.length) ∧
        (bad = [] → Only { started := true } s t) ∧
        (bad ≠ [] → Counted s t 0x09 ∧ Rose s t Reg.INTG_TAG_CNT Fld.INTG_TAG_CNT_MISMATCH 1) ∧
        Only (Parts.report.or { started := true }) s t) ∧
    (ps.findSome? s.pagePoison ≠ none →
      ∃ t, exec (.tagVerify n seq ecc) z = .next t ∧ t.endOf n seq = some stFAULTED ∧ Counted s t 0x07))

/-- UPDATE_DENSE and UPDATE_ROWS (R275, R287, R290, R292): the update of a region that has not begun begins once its slots pass their checks
and a pending effective slot is promoted, and ends FAULTED when they fail; one that has begun, whose next unit reads no pending page and
passes its checks and whose writes succeed, moves PROGRESS.NEXT past that unit; with its last one it ends SUCCESS (or FAULTED, when a
cut of the same name stops in its writes) and the engine is free; one on whose next unit the datapaths disagree stands there with its
fault (R293). SETCOEF (R278): coefficients that may not be are BAD_OPERAND; a pending slot for another step refuses it; else it
ends SUCCESS with the new ENTRY_VER and TABLE_VER in RESULT. VE_TAKEOVER (R299): the block that stands in runs the update on at the same
place, marked fallback; with no such block the descriptor ends FAULTED. -/
def Obligations.UpdatesRunAndHandOver : Prop :=
  (∀ (z : State) (n seq : Nat) (ecc : EccFinds) (d : Started) (u : UpdRun), z.canon = true → tblWf noUpd z.upd = true →
    let s := z.eccAll ecc
    s.findStarted n seq = some d → d.done = none →
    let r := updDie d.fn
    let b := d.bytes
    let i := s.fget (Reg.UPD_PROGRESS r) Fld.UPD_PROGRESS_NEXT
    r < 8 → s.updRun r = some u → u.ring = n → u.seq = seq → u.fault = none → u.begun = true → i < updTotal u b →
    (s.updReads u b i).any (fun x => s.pendingIn x.1 x.2.1) = false →
    let q := foldChecks s (fun s x => s.updCheck (updCtx u r b) (s.updWhole u b) x) (s.updReads u b i)
    let w := q.1.updUnit u b i
    let x := q.1.updPut r b u w.1
    q.2 = none → x.2 = none →
    let good (t : State) : Prop :=
      (i + 1 ≠ updTotal u b → t.fget (Reg.UPD_PROGRESS r) Fld.UPD_PROGRESS_NEXT = (i + 1) % 2 ^ 32 ∧ t.updRun r = some w.2 ∧
        t.mem = { x.1.mem with trf := t.mem.trf } ∧ (s.sump.cut = none → w.2.diag = false → t.started = s.started) ∧
        (w.2.diag = true → ∃ y, t.findStarted n seq = some y ∧ y.fallback = true)) ∧
      (i + 1 = updTotal u b → t.updRun r = none ∧ (t.endOf n seq = some stSUCCESS ∨ t.endOf n seq = some stFAULTED) ∧
        (s.sump.cut = none → t.endOf n seq = some stSUCCESS))
    (dOPCODE b = 0x2010 → ∃ t, exec (.updateDense n seq 1 none ecc) z = .next t ∧ good t) ∧
    (dOPCODE b = 0x2011 → ∃ t, exec (.updateRows n seq 1 none ecc) z = .next t ∧ good t) ∧
    (u.ve = none → dOPCODE b = 0x2010 → ∃ t, exec (.updateDense n seq 1 (some 0) ecc) z = .next t ∧ t.updRun r = some { u with fault := some 0x01 }) ∧
    (u.ve = none → dOPCODE b = 0x2011 → ∃ t, exec (.updateRows n seq 1 (some 0) ecc) z = .next t ∧ t.updRun r = some { u with fault := some 0x01 })) ∧
  (∀ (z : State) (n seq : Nat) (ecc : EccFinds) (d : Started) (u : UpdRun), tblWf noUpd z.upd = true →
    let s := z.eccAll ecc
    s.findStarted n seq = some d → d.done = none →
    let r := updDie d.fn
    s.updRun r = some u → u.ring = n → u.seq = seq → u.fault = none → u.begun = false →
    s.pendingIn (s.activeSlot r (leAt d.bytes 25 1)) 256 = false →
    let good (t : State) : Prop :=
      ((s.beginUpd r u d.bytes).2 = none → t.updRun r = some { u with begun := true }) ∧
      ((s.beginUpd r u d.bytes).2 ≠ none → t.updRun r = none ∧ (s.sump.cut = none → t.endOf n seq = some stFAULTED))
    (dOPCODE d.bytes = 0x2010 → ∃ t, exec (.updateDense n seq 0 none ecc) z = .next t ∧ good t) ∧
    (dOPCODE d.bytes = 0x2011 → ∃ t, exec (.updateRows n seq 0 none ecc) z = .next t ∧ good t)) ∧
  (∀ (z : State) (n seq : Nat) (ecc : EccFinds) (d : Started) (u : UpdRun), tblWf noUpd z.upd = true →
    let s := z.eccAll ecc
    s.findStarted n seq = some d → d.done = none → dOPCODE d.bytes = 0x2018 →
    let r := updDie d.fn
    let b := d.bytes
    let c := updCtx u r b
    let g := updRegion b
    s.updRun r = some u → u.ring = n → u.seq = seq → g ≠ 0xFF → s.pendingIn (leAt b 32 8) 64 = false →
    s.pendingIn (s.pendingSlot g (leAt b 25 1)) 128 = false → (s.awareCheck c (leAt b 32 8) 64 none none).2 = none → s.sump.cut = none →
    let s1 := (s.awareCheck c (leAt b 32 8) 64 none none).1
    let rd := s1.awareChecks c [(s1.ruleBase g, 4), (s1.activeSlot g (leAt b 25 1), 256)]
    let old := rd.1.gread (rd.1.pendingSlot g (leAt b 25 1)) 128
    let bad := coefsBad (leAt b 26 1) (slotCoefs (s1.gread (leAt b 32 8) 64))
    (bad = true → ∃ t, exec (.setcoef n seq ecc) z = .next t ∧ t.updRun r = none ∧ t.endOf n seq = some stBAD_OPERAND) ∧
    (bad = false → rd.2 = none → slotType old ≠ 0 → slotEff old ≠ leAt b 28 4 →
      ∃ t, exec (.setcoef n seq ecc) z = .next t ∧ t.updRun r = none ∧ t.endOf n seq = some stREFUSED ∧ t.mem = { s.mem with trf := t.mem.trf }) ∧
    (∀ v, bad = false → (s1.setcoefOne c b g).2 = (some v, none) →
      ∃ t, exec (.setcoef n seq ecc) z = .next t ∧ t.updRun r = none ∧
        (∃ y o, t.findStarted n seq = some y ∧ y.done = some o ∧ o.status = stSUCCESS ∧ o.result = v.1 * 2 ^ 48 + v.2))) ∧
  (∀ (s : State) (r cls blk : Nat) (u : UpdRun) (d : Started), s.canon = true → tblWf noUpd s.upd = true → r < 8 → s.updRun r = some u →
    u.fault = some cls → s.findStarted u.ring u.seq = some d → s.veBlock (ownerBlock d.bytes) = some blk →
    ∃ t, exec (.veTakeover r) s = .next t ∧ t.updRun r = some { u with ve := some blk, fault := none } ∧
      t.findStarted u.ring u.seq = some { d with fallback := true } ∧ t.fget (Reg.UPD_STATUS r) Fld.UPD_STATUS_VE_BUSY = 1 ∧
      Rose s t (Reg.UPD_STATUS r) Fld.UPD_STATUS_HANDED 1 ∧ SameRegs s t [Reg.UPD_STATUS r] ∧
      Only { regs := true, started := true, upd := true } s t) ∧
  (∀ (s : State) (r cls : Nat) (u : UpdRun) (d : Started), tblWf noUpd s.upd = true → r < 8 → s.updRun r = some u → u.fault = some cls →
    s.findStarted u.ring u.seq = some d → d.done = none → s.veBlock (ownerBlock d.bytes) = none →
    ∃ t, exec (.veTakeover r) s = .next t ∧ t.updRun r = none ∧ t.endOf u.ring u.seq = some stFAULTED ∧
      Only { regs := true, started := true, upd := true } s t)

/-- The flits of a port that carries them. ACK_RECEIVE (R315): the flits up to a held SEQ leave the replay buffer. NAK_RECEIVE (R317):
everything after it is sent again and REPLAYS rises. ACK_TIMER (R316): an IDLE flit with the last good SEQ leaves. IDLE_FLIT_RECEIVE (R311):
the credits that it returns are free again. DATA_FLIT_RECEIVE: the flit expected next on VC0 to VC6 is accepted, and a whole packet joins the
inbox; one out of order, and any flit whose CRC fails, is answered with a NAK. FLIT_SEND (R312): a waiting LINK flit goes in turn with DATA and
behind VC0, an idle port that is not ACTIVE sends IDLE, and an ACTIVE one sends its replay before the next 240 bytes of the channel whose turn it is. -/
def Obligations.PortsExchangeFlits : Prop :=
  (∀ (s : State) (p seq : Nat), tblWf portDefault s.fab.ports = true → s.carries p = true → (s.port p).replay.any (·.seq == seq) = true →
    ∃ t, exec (.ackReceive p seq) s = .next t ∧ (t.port p).replay = ackList seq (s.port p).replay ∧
      (t.port p).nakRun = 0 ∧ (∀ q, q ≠ p → t.port q = s.port q) ∧ Only { flt := true, fab := true } s t) ∧
  (∀ (s : State) (p seq : Nat), s.canon = true → tblWf portDefault s.fab.ports = true → s.carries p = true →
    ∃ t, exec (.nakReceive p seq) s = .next t ∧ (t.port p).resend = (t.port p).replay ∧ (t.port p).nakSeq = seq ∧
      (t.port p).replay = ackList seq (s.port p).replay ∧
      Rose s t (Reg.FAB_PORT_ERR (p / 6) (p % 6)) Fld.FAB_PORT_ERR_REPLAYS 1 ∧ SameRegs s t [Reg.FAB_PORT_ERR (p / 6) (p % 6)] ∧
      Only { regs := true, flt := true, fab := true, obs := true } s t) ∧
  (∀ (s : State) (p : Nat), tblWf portDefault s.fab.ports = true → s.carries p = true →
    ∃ t g, exec (.ackTimer p) s = .next t ∧ t.out = s.out ++ [.flit p g (flitBytes g)] ∧ g.type = 0 ∧ g.ackValid = true ∧
      g.ackSeq = ((s.port p).rxNext + 4095) % 4096 ∧ (t.port p).sinceAck = 0 ∧ (t.port p).lastAck = t.clk.now ∧
      (s.port p).lastAck + 1000 ≤ t.clk.now ∧ Only { clk := true, fab := true, out := true } s t) ∧
  (∀ (s : State) (p vc cls n : Nat) (f : Flit), s.canon = true → tblWf portDefault s.fab.ports = true → s.carries p = true → f.type = 0 →
    (f.nak = false → f.ackValid = false → f.credit0 = some (vc, cls, n) → f.credit1 = none →
      ∃ t, exec (.idleFlitReceive p f true) s = .next t ∧
        t.port p = { s.port p with used := tblPut zeroAt (s.port p).used (pairKey vc cls) ((s.port p).usedOf (pairKey vc cls) - n) } ∧
        t.fget (Reg.FLT_AUDIT p) Fld.FLT_AUDIT_RETURNED = (s.fget (Reg.FLT_AUDIT p) Fld.FLT_AUDIT_RETURNED + n) % 2 ^ 32 ∧
        SameRegs s t [Reg.FLT_AUDIT p]) ∧
    (∃ t g, exec (.idleFlitReceive p f false) s = .next t ∧ t.out = s.out ++ [.flit p g (flitBytes g)] ∧ g.nak = true ∧
      Rose s t (Reg.FAB_PORT_ERR (p / 6) (p % 6)) Fld.FAB_PORT_ERR_CRC_ERR 1)) ∧
  (∀ (s : State) (p : Nat) (f : Flit), tblWf portDefault s.fab.ports = true → p < 48 → s.portState p = pACTIVE → f.type = 1 →
    f.seq = (s.port p).rxNext → f.vc < 7 →
    let bytes := (if f.sop then [] else tblGet noBytes (s.port p).asm (pairKey f.vc f.cls)) ++ f.payload
    ∃ t, exec (.dataFlitReceive p f true) s = .next t ∧ (t.port p).rxNext = ((s.port p).rxNext + 1) % 4096 ∧ (t.port p).discard = false ∧
      (t.port p).inbox = (s.port p).inbox ++
        (if f.eop then [({ packetOf bytes f.vc f.cls with port := p }, ceilDiv bytes.length 240)] else [])) ∧
  (∀ (s : State) (p : Nat) (f : Flit) (crcOk : Bool), s.canon = true → tblWf portDefault s.fab.ports = true → p < 48 → s.portState p = pACTIVE →
    f.type = 1 → crcOk = false ∨ (f.seq ≠ (s.port p).rxNext ∧ (s.port p).discard = false) →
    ∃ t g, exec (.dataFlitReceive p f crcOk) s = .next t ∧ t.out = s.out ++ [.flit p g (flitBytes g)] ∧ g.nak = true ∧
      g.ackSeq = ((s.port p).rxNext + 4095) % 4096 ∧ (t.port p).rxNext = (s.port p).rxNext ∧ (t.port p).discard = true ∧
      (t.port p).inbox = (s.port p).inbox ∧ (crcOk = false → Rose s t (Reg.FAB_PORT_ERR (p / 6) (p % 6)) Fld.FAB_PORT_ERR_CRC_ERR 1)) ∧
  (∀ (s : State) (p : Nat) (m : LinkMsg) (ms : List LinkMsg), tblWf portDefault s.fab.ports = true → s.carries p = true →
    (s.port p).linkOut = m :: ms → (s.port p).lastLink = false → s.vc0Ready p = false →
    ∃ t g, exec (.flitSend p none) s = .next t ∧ t.out = s.out ++ [.flit p g (flitBytes g)] ∧ g.type = 2 ∧ g.link = some m ∧
      (t.port p).lastLink = true ∧ ((s.port p).kwPeer = false → (t.port p).linkOut = ms ++ [m] ∧ m ∈ (t.port p).linkSent)) ∧
  (∀ (s : State) (p : Nat), tblWf portDefault s.fab.ports = true → s.carries p = true → (s.port p).linkOut = [] ∨ (s.port p).lastLink = true →
    s.portState p ≠ pACTIVE →
    ∃ t g, exec (.flitSend p none) s = .next t ∧ t.out = s.out ++ [.flit p g (flitBytes g)] ∧ g.type = 0 ∧ (t.port p).txSeq = (s.port p).txSeq) ∧
  (∀ (s : State) (p : Nat) (f : Flit) (fs : List Flit), tblWf portDefault s.fab.ports = true → p < 48 →
    (s.port p).linkOut = [] ∨ (s.port p).lastLink = true ∨ s.vc0Ready p = true → s.portState p = pACTIVE → (s.port p).resend = f :: fs →
    ∃ t g, exec (.flitSend p none) s = .next t ∧ t.out = s.out ++ [.flit p g (flitBytes g)] ∧ g.type = f.type ∧ g.seq = f.seq ∧
      g.payload = f.payload ∧ (t.port p).resend = fs ∧ (t.port p).replay = (s.port p).replay) ∧
  (∀ (s : State) (p vc cls : Nat) (q : Queued), tblWf portDefault s.fab.ports = true → p < 48 →
    (s.port p).linkOut = [] ∨ (s.port p).lastLink = true ∨ s.vc0Ready p = true →
    s.portState p = pACTIVE → (s.port p).resend = [] → (s.port p).replay.length < 2048 → s.nextVc p = some vc → s.pairReady p vc = some (cls, q) →
    ∃ t g, exec (.flitSend p none) s = .next t ∧ t.out = s.out ++ [.flit p g (flitBytes g)] ∧ g.type = 1 ∧ g.seq = (s.port p).txSeq ∧ g.vc = vc ∧
      g.cls = cls ∧ g.payload = q.rest.take 240 ∧ g.eop = (q.rest.drop 240).isEmpty ∧ (t.port p).txSeq = ((s.port p).txSeq + 1) % 4096 ∧
      (∃ f, (t.port p).replay = (s.port p).replay ++ [f] ∧ f.seq = g.seq ∧ f.payload = g.payload))

/-- The states of a port (R318, R319, R336-R338). Eight NAKs in a row and a lost link lead to TRAINING, or DOWN when that is the third retrain
within 60 s; an enabled DOWN port trains again one second later. Training ends in DISCOVERING, with a replay when neither end crossed OFF, and
in DOWN after 5 ms, reported unless it was a retry. A HELLO in a LINK flit that names the planned chip makes a port ACTIVE, one that names another chip or this module
quarantines it, and an unplanned port becomes DORMANT. HELLO_TIMER queues a HELLO for every port that is up and leaves the others.
DISCOVERY_TIMEOUT takes a planned port that was never ACTIVE DOWN and marks the plan degraded. Keep-warm starts when both ends have asked, is
asked for once, is left on request, and ends with the exit. -/
def Obligations.PortsMoveThroughTheirStates : Prop :=
  (∀ (s : State) (p : Nat), s.canon = true → tblWf portDefault s.fab.ports = true → p < 48 →
    let n := (s.recentRetrains p).length
    let trains (t : State) : Prop := t.portState p = pTRAINING ∧ (t.port p).trainAt = s.clk.now ∧ (t.port p).nakRun = 0 ∧
      (∀ q, q ≠ p → t.port q = s.port q)
    let down (t : State) : Prop := t.portState p = pDOWN ∧ Counted s t 0x06
    (s.portState p = pACTIVE → 8 ≤ (s.port p).nakRun → ∃ t, exec (.portRetrain p) s = .next t ∧ (n < 2 → trains t) ∧ (2 ≤ n → down t)) ∧
    (s.portState p = pACTIVE → ∃ t, exec (.portLinkLoss p) s = .next t ∧ (n < 2 → trains t) ∧ (2 ≤ n → down t)) ∧
    (s.portState p = pDORMANT ∨ s.portState p = pQUARANTINED → ∃ t, exec (.portLinkLoss p) s = .next t ∧ (n < 3 → trains t) ∧ (3 ≤ n → down t)) ∧
    (s.portState p = pDOWN → s.portCfg p Fld.FAB_PORT_CFG_ENABLE = 1 → ∃ t, exec (.portDownRetry p) s = .next t ∧ t.portState p = pTRAINING ∧
      (t.port p).retry = true ∧ (t.port p).trainAt = t.clk.now ∧ (s.port p).trainAt + 1000000000 ≤ t.clk.now)) ∧
  (∀ (s : State) (p : Nat), s.canon = true → tblWf portDefault s.fab.ports = true → p < 48 → s.portState p = pTRAINING →
    ∃ t, exec (.portTrainingTimeout p) s = .next t ∧ t.portState p = pDOWN ∧ ((s.port p).retry = false → Counted s t 0x06) ∧
      (s.port p).trainAt + 5000000 ≤ t.clk.now) ∧
  (∀ (s : State) (p lastSeq : Nat) (off : Bool), s.canon = true → tblWf portDefault s.fab.ports = true → p < 48 → s.portState p = pTRAINING →
    ∃ t, exec (.portTrainingComplete p lastSeq off) s = .next t ∧ t.portState p = pDISCOVERING ∧ s.helloMsg p ∈ (t.port p).linkOut ∧
      (off = false → (s.port p).passedOff = false → (t.port p).resend = (t.port p).replay ∧ (t.port p).queue = (s.port p).queue) ∧
      (off = true ∨ (s.port p).passedOff = true → (t.port p).replay = [] ∧ (t.port p).queue = [] ∧ (t.port p).txSeq = 0 ∧ (t.port p).rxNext = 0 ∧
        (t.port p).passedOff = false)) ∧
  (∀ s : State, s.canon = true → tblWf portDefault s.fab.ports = true → ∃ t, exec .helloTimer s = .next t ∧
    (∀ p, p < 48 → 2 ≤ s.portState p → s.portState p ≤ 5 → s.helloMsg p ∈ (t.port p).linkOut) ∧
    (∀ p, p < 48 → s.portState p < 2 ∨ 5 < s.portState p → t.port p = s.port p) ∧ Only (Parts.report.or { fab := true }) s t) ∧
  (∀ (s : State) (p chip port : Nat) (f : Flit), s.canon = true → s.carries p = true → s.chip.isSome = true → chip < 65536 → port < 64 →
    f.type = 2 → f.link = some (.hello chip true port) →
    let own := s.chip = some chip ∨ (s.planned p = true ∧ chip ≠ s.portCfg p Fld.FAB_PORT_CFG_PLAN_CHIP)
    ∃ t, exec (.helloReceive p f true) s = .next t ∧
      t.fget (Reg.FAB_PORT_STATUS (p / 6) (p % 6)) Fld.FAB_PORT_STATUS_NEIGH_CHIP = chip ∧
      (s.portState p = pQUARANTINED ∨ own → t.portState p = pQUARANTINED) ∧
      (s.portState p ≠ pQUARANTINED → s.chip ≠ some chip → s.planned p = false → t.portState p = pDORMANT ∧ Counted s t 0x0A) ∧
      (s.portState p = pDISCOVERING ∨ s.portState p = pACTIVE → ¬own → s.planned p = true → t.portState p = pACTIVE ∧
        (port ≠ s.portCfg p Fld.FAB_PORT_CFG_PLAN_PORT → Counted s t 0x0A))) ∧
  (∀ (s : State) (p chip port : Nat) (f : Flit), s.canon = true → tblWf portDefault s.fab.ports = true → s.carries p = true → f.type = 2 →
    (f.link = some (.hello chip false port) → ∃ t, exec (.helloReceive p f true) s = .next t ∧ t.portState p = s.portState p ∧
      ((s.port p).linkSent.any isHello = false → ∃ g b, Out.flit p g b ∈ t.out ∧ g.link = some (s.helloMsg p))) ∧
    (f.link = some (.hello chip false port) → ∃ t g, exec (.helloReceive p f false) s = .next t ∧ t.out = s.out ++ [.flit p g (flitBytes g)] ∧
      g.nak = true ∧ Rose s t (Reg.FAB_PORT_ERR (p / 6) (p % 6)) Fld.FAB_PORT_ERR_CRC_ERR 1)) ∧
  (∀ (s : State) (p t0 : Nat), s.canon = true → p < 48 → s.fab.discStart = some t0 → s.planned p = true → (s.port p).reached = false →
    s.portState p ≤ pDISCOVERING →
    ∃ t, exec (.discoveryTimeout p) s = .next t ∧ t.portState p = pDOWN ∧ t.fget Reg.FAB_PLAN_STATUS Fld.FAB_PLAN_STATUS_DEGRADED = 1 ∧
      t0 + 10000000000 ≤ t.clk.now) ∧
  (∀ (s : State) (p : Nat), s.canon = true → tblWf portDefault s.fab.ports = true → s.carries p = true → s.portState p = pACTIVE →
    s.fget (Reg.FAB_PORT_STATUS (p / 6) (p % 6)) Fld.FAB_PORT_STATUS_KW = 0 →
    (∀ f : Flit, f.type = 2 → f.link = some .keepWarm → (s.port p).kwAsked = true → (s.port p).linkSent.contains .keepWarm = true →
      (s.port p).queued 2 5 = 0 → ∃ t, exec (.keepWarmRequest p (some f) true) s = .next t ∧
        t.fget (Reg.FAB_PORT_STATUS (p / 6) (p % 6)) Fld.FAB_PORT_STATUS_KW = 1 ∧ LinkMsg.keepWarm ∉ (t.port p).linkOut) ∧
    ((s.port p).kwAsked = false → s.wantsKeepWarm p = true → ∃ t, exec (.keepWarmRequest p none true) s = .next t ∧
      (t.port p).kwAsked = true ∧ LinkMsg.keepWarm ∈ (t.port p).linkOut ∧ Only { fab := true } s t)) ∧
  (∀ (s : State) (p : Nat), s.canon = true → tblWf portDefault s.fab.ports = true → s.carries p = true →
    s.fget (Reg.FAB_PORT_STATUS (p / 6) (p % 6)) Fld.FAB_PORT_STATUS_KW = 1 →
    (∀ f : Flit, f.type = 2 → f.link = some .keepWarmExit → ∃ t, exec (.keepWarmExitRequest p (some f) true) s = .next t ∧ (t.port p).kwExit = true) ∧
    (s.leavesKeepWarm p = true → (s.port p).kwExit = false → ∃ t, exec (.keepWarmExitRequest p none true) s = .next t ∧ (t.port p).kwExit = true ∧
      LinkMsg.keepWarmExit ∈ (t.port p).linkOut ∧ Only { fab := true } s t)) ∧
  (∀ (s : State) (p : Nat), s.canon = true → tblWf portDefault s.fab.ports = true → s.carries p = true → (s.port p).kwExit = true →
    ∃ t, exec (.keepWarmExitComplete p) s = .next t ∧ t.fget (Reg.FAB_PORT_STATUS (p / 6) (p % 6)) Fld.FAB_PORT_STATUS_KW = 0 ∧
      (t.port p).kwExit = false ∧ SameRegs s t [Reg.FAB_PORT_STATUS (p / 6) (p % 6)] ∧ Only { regs := true, fab := true } s t)

/-- PACKET_RECEIVE at an ingress port, of the oldest packet there of its (SRC, DST, VC) (R330): a packet of this module that other commands
take joins the delivered packets, with FLAGS.MGMT cleared and counted when it did not come on VC6 (R323); one for another chip with a route
and a TTL above 1 joins the egress queue of the chosen port with TTL one less and CLASS by the dateline
(R324, R327); one with no TTL left that is no request is discarded and NO_ROUTE rises (R331). A delivered reply, or an acknowledgement, ends the
read of a master of this module that waits for its tag. ERROR_REPLY_RECEIVE (R331): that read gets zeros (poisoned under ERR 3, reported as
ADDR_UNMAPPED else); on VC3 a GATHER ends FAULTED, on VC2 a REDUCE does, both reported as ADDR_UNMAPPED. -/
def Obligations.PacketsAreDeliveredForwardedOrDiscarded : Prop :=
  (∀ (z s1 : State) (r q : Nat) (pkt : Packet) (ecc : EccFinds),
    let s := z.eccAll ecc
    q < 48 → q / 6 = r → pkt.kind ≠ 0x3A → s.takeInbox q pkt = some s1 →
    (s.canon = true → bitOf pkt.flags 1 = true → pkt.vc ≠ 6 → pkt.dst = 0xFFFF → servedKind { pkt with flags := pkt.flags - 2 } = false →
      knownKind pkt.kind = true → ∃ t, exec (.packetReceive r (some q) pkt ecc) z = .next t ∧
        t.fab.delivered = s.fab.delivered ++ [{ pkt with flags := pkt.flags - 2 }] ∧ Rose s t (Reg.FAB_STATUS r) Fld.FAB_STATUS_MGMT_CLEARED 1) ∧
    (bitOf pkt.flags 1 = false ∨ pkt.vc = 6 → pkt.dst = 0xFFFF → servedKind pkt = false → knownKind pkt.kind = true →
      ∃ t, exec (.packetReceive r (some q) pkt ecc) z = .next t ∧ t.fab.delivered = s.fab.delivered ++ [pkt] ∧ Only { fab := true } s t) ∧
    (∀ ps dateline, bitOf pkt.flags 1 = false ∨ pkt.vc = 6 → pkt.dst ≠ 0xFFFF →
      (s.chip.isSome && pkt.dst = s.fget Reg.MOD_CHIP_NUMBER ⟨15, 0⟩) = false → 1 < pkt.ttl →
      s.route r pkt.dst = some (ps, dateline) → tblWf portDefault s.fab.ports = true →
      let k := { pkt with ttl := pkt.ttl - 1, cls := if pkt.cls == 1 || dateline then 1 else 0 }
      ∃ t, exec (.packetReceive r (some q) pkt ecc) z = .next t ∧ t.fab.delivered = s.fab.delivered ∧
        (∃ e : Queued, e.pkt = k ∧ e.rest = packetBytes k ∧ e.from_ = some q ∧ e.begun = false ∧ (t.port (pickPort ps k)).queue =
          tblPut noQueue (s.port (pickPort ps k)).queue (pairKey k.vc k.cls)
            (tblGet noQueue (s.port (pickPort ps k)).queue (pairKey k.vc k.cls) ++ [e])) ∧ Only { fab := true, tor := true } s t) ∧
    (s.canon = true → bitOf pkt.flags 1 = false ∨ pkt.vc = 6 → pkt.dst ≠ 0xFFFF →
      (s.chip.isSome && pkt.dst = s.fget Reg.MOD_CHIP_NUMBER ⟨15, 0⟩) = false → pkt.ttl ≤ 1 →
      isRequest pkt.kind = false → ∃ t, exec (.packetReceive r (some q) pkt ecc) z = .next t ∧ t.fab.delivered = s.fab.delivered ∧
        Rose s t (Reg.FAB_STATUS r) Fld.FAB_STATUS_NO_ROUTE 1 ∧ SameRegs s t [Reg.FAB_STATUS r] ∧ Only { regs := true, fab := true } s t)) ∧
  (∀ (z s1 : State) (r : Nat) (pkt : Packet) (ecc : EccFinds) (x : RemRead),
    let s := z.eccAll ecc
    r < 8 → s.take pkt = some s1 → pkt.kind = 0x02 ∨ pkt.kind = 0x05 →
    s.fab.reads.find? (·.tag == pkt.tag) = some x → (match x.who with | .remote .. => False | .tmp .. => False | _ => True) →
    ∃ t, exec (.packetReceive r none pkt ecc) z = .next t ∧ t.out = s.out ++ [.readReply x.who x.addr pkt.body false] ∧
      (∀ y, y ∈ t.fab.reads → y.tag ≠ pkt.tag) ∧ Only { fab := true, flt := true, out := true } s t) ∧
  (∀ (s s1 : State) (pkt : Packet) (x : RemRead), s.canon = true → s.take pkt = some s1 → pkt.kind = 0x06 → pkt.vc ≠ 1 → pkt.vc ≠ 2 → pkt.vc ≠ 3 →
    s.fab.reads.find? (·.tag == pkt.tag) = some x → (match x.who with | .remote .. => False | .tmp .. => False | _ => True) →
    ∃ t, exec (.errorReplyReceive pkt) s = .next t ∧ Out.readReply x.who x.addr (List.replicate x.len 0#8) (pkt.err == 3) ∈ t.out ∧
      (∀ y, y ∈ t.fab.reads → y.tag ≠ pkt.tag) ∧ (pkt.err ≠ 3 → Counted s t 0x14)) ∧
  (∀ (s s1 : State) (pkt : Packet) (g : GatherRun) (d : Started), s.canon = true → s.take pkt = some s1 → pkt.kind = 0x06 → pkt.vc = 3 →
    s.gathers.find? (fun g => (g.openTag == pkt.tag && !g.opened) || g.bags.any (fun b => b.any (fun q => q.st == 2 && q.tag == pkt.tag))) = some g →
    s.findStarted g.ring g.seq = some d → d.done = none →
    (pkt.gen = d.gen → ∃ t, exec (.errorReplyReceive pkt) s = .next t ∧ t.endOf g.ring g.seq = some stFAULTED ∧ Counted s t 0x14) ∧
    (pkt.gen ≠ d.gen → ∃ t, exec (.errorReplyReceive pkt) s = .next t ∧ t.endOf g.ring g.seq = none ∧ Counted s t 0x12)) ∧
  (∀ (s s1 : State) (pkt : Packet) (q : RankRun) (d : Started), s.canon = true → s.take pkt = some s1 → pkt.kind = 0x06 → pkt.vc = 2 →
    s.ranks.find? (fun q => !q.closed && dLAYER q.bytes == pkt.layer && dOP q.bytes == pkt.op && (redP q.bytes q.param).homeEng == pkt.addr) = some q →
    s.findStarted q.ring q.seq = some d → d.done = none → pkt.gen = s.gen (0x40 + q.eng) →
    ∃ t, exec (.errorReplyReceive pkt) s = .next t ∧ t.endOf q.ring q.seq = some stFAULTED ∧ Counted s t 0x14)

/-- The root (R345-R355). JOB_START with a table that cannot be read ends FAULTED, with one that fails a check BAD_OPERAND; with a good table of more than one entry whose root arms,
the root waits for its children with one module armed. ROOT_ARM_TIMEOUT: after height times ARM_WAIT the silent children are noted and the next phase
begins. MISSING_TIMEOUT: in the ARM phase the job goes on to COMMIT or is over, in the COMMIT phase it ends SUCCESS when all have started and
FAULTED else; a NOT_ARMED answer is noted (R353). JOB_END of the job that the module holds returns the token and ends SUCCESS, any other is refused. Acknowledgements of ARM are
added to the root's counts, each entry once. -/
def Obligations.JobsAreStartedAndEnded : Prop :=
  (∀ (z : State) (n seq : Nat) (ecc : EccFinds) (d : Started),
    let s := z.eccAll ecc
    s.findStarted n seq = some d → dOPCODE d.bytes = 0x3001 → d.begun = false → d.done = none → s.fab.root = none →
    let x := jobP d.param
    let table := s.plainBytes x.addr (16 * x.n)
    let sound := (s.poisonCheck (ctxOf d.ring d.bytes 0x48 0x25) x.addr (16 * x.n)).2
    s.pendingIn x.addr (16 * x.n) = false →
    (sound ≠ none → ∃ t, exec (.jobStart n seq ecc) z = .next t ∧ t.endOf n seq = some stFAULTED ∧ t.fab = s.fab) ∧
    (sound = none → s.chip = none ∨ ropeOk table x.n s.ownChip = false → ∃ t, exec (.jobStart n seq ecc) z = .next t ∧
      t.endOf n seq = some stBAD_OPERAND ∧ t.fab = s.fab ∧ Only { started := true } s t) ∧
    (sound = none → s.canon = true → s.chip ≠ none → ropeOk table x.n s.ownChip = true → 1 < x.n → ropeKids table 0 ≠ [] →
      s.fabricRefuses = false → s.fab.token = true → s.nodeOf x.job = none → s.fnState (sqFn x.ring) = fnRUN →
      ∃ t, exec (.jobStart n seq ecc) z = .next t ∧ t.endOf n seq = none ∧ t.fab.token = false ∧
        (∃ r, t.fab.root = some r ∧ r.ring = n ∧ r.seq = seq ∧ r.job = x.job ∧ r.n = x.n ∧ r.phase = 0 ∧ r.okCount = 1 ∧ r.refCount = 0 ∧
          r.acks = [] ∧ r.waiting = ropeKids table 0 ∧ r.sentAt = s.clk.now))) ∧
  (∀ (s : State) (r : RopeRoot), s.fab.root = some r → r.phase = 0 ∨ r.phase = 2 →
    ∃ t, exec .rootArmTimeout s = .next t ∧ r.sentAt + r.height * r.wait ≤ t.clk.now ∧
      (∃ r', t.fab.root = some r' ∧ r'.phase = r.phase + 1 ∧ r'.silent = r.silent ++ r.waiting ∧ r'.waiting = [] ∧ r'.sentAt = t.clk.now ∧
        r'.okCount = r.okCount ∧ r'.acks = r.acks) ∧ Only { regs := true, clk := true, fab := true, tor := true } s t) ∧
  (∀ (s : State) (r : RopeRoot), s.fab.root = some r → r.phase = 1 →
    ∃ t, exec .missingTimeout s = .next t ∧ r.sentAt + r.height * r.wait ≤ t.clk.now ∧
      (t.fab.root = none ∨ ∃ r', t.fab.root = some r' ∧ r'.phase = 2 ∧ r'.cCount = if (s.nodeOf r.job).any (·.armed) then 1 else 0)) ∧
  (∀ (s : State) (r : RopeRoot) (d : Started), s.fab.root = some r → r.phase = 3 → s.findStarted r.ring r.seq = some d → d.done = none →
    ∃ t, exec .missingTimeout s = .next t ∧ r.sentAt + r.height * r.wait ≤ t.clk.now ∧ t.fab.root = none ∧
      t.endOf r.ring r.seq = some (if r.n ≤ r.committed then stSUCCESS else stFAULTED) ∧ Only { clk := true, fab := true, started := true } s t) ∧
  (∀ (s : State) (n seq : Nat) (d : Started) (m : RopeNode), s.findStarted n seq = some d → dOPCODE d.bytes = 0x3002 → d.done = none →
    s.fab.root = none → s.nodeOf (jobEndId d.bytes) = some m → m.armed = true → s.fab.token = false →
    jobEndId d.bytes = s.fget Reg.FAB_ROPE_STATUS Fld.FAB_ROPE_STATUS_JOB_ID →
    ∃ t, exec (.jobEnd n seq) s = .next t ∧ t.endOf n seq = some stSUCCESS ∧ t.fab.token = true ∧ t.nodeOf (jobEndId d.bytes) = none ∧
      Only { regs := true, started := true, fab := true } s t) ∧
  (∀ (s : State) (n seq : Nat) (d : Started), s.findStarted n seq = some d → dOPCODE d.bytes = 0x3002 → d.done = none → s.fab.root = none →
    s.fab.token = true ∨ jobEndId d.bytes ≠ s.fget Reg.FAB_ROPE_STATUS Fld.FAB_ROPE_STATUS_JOB_ID →
    ∃ t, exec (.jobEnd n seq) s = .next t ∧ t.endOf n seq = some stREFUSED ∧ Only { started := true } s t) ∧
  (∀ (s s1 : State) (pkt : Packet) (r : RopeRoot), s.take pkt = some s1 → pkt.kind = 0x41 → s.fab.root = some r → r.job = leAt pkt.body 0 4 →
    let i := leAt pkt.body 4 4
    let r' := { r.takeAck { index := i, ok := leAt pkt.body 8 4, ref := leAt pkt.body 12 4, silent := ackSilent pkt } with
      silent := r.silent ++ ackSilent pkt, waiting := r.waiting.filter (· != i) }
    r.phase = 0 → r'.waiting ≠ [] → r'.armed + r'.refused ≠ r.n →
    ∃ t, exec (.armAckReceive pkt) s = .next t ∧ t.fab.root = some r' ∧
      (r.acks = [] → t.fab.root.map (·.armed) = some (r.okCount + leAt pkt.body 8 4)) ∧ Only { fab := true } s t) ∧
  (∀ (s s1 : State) (pkt : Packet) (r : RopeRoot), s.take pkt = some s1 → pkt.kind = 0x44 → s.fab.root = some r → r.job = leAt pkt.body 0 4 →
    let i := leAt pkt.body 4 4
    let r' := { r.takeAck { index := i, ok := leAt pkt.body 8 4, ref := 0, silent := ackSilent pkt } with
      silent := r.silent ++ ackSilent pkt, waiting := r.waiting.filter (· != i) }
    (r.phase = 2 → r'.waiting ≠ [] → r'.committed + r.notArmed.length < r.n →
      ∃ t, exec (.commitAckReceive pkt) s = .next t ∧ t.fab.root = some r' ∧ Only { fab := true } s t) ∧
    (∀ d, 2 ≤ r.phase → s.findStarted r.ring r.seq = some d → d.done = none → r.n ≤ r'.committed →
      ∃ t, exec (.commitAckReceive pkt) s = .next t ∧ t.fab.root = none ∧ t.endOf r.ring r.seq = some stSUCCESS ∧
        Only { fab := true, started := true } s t)) ∧
  (∀ (s s1 : State) (pkt : Packet) (r : RopeRoot), s.take pkt = some s1 → pkt.kind = 0x46 → s.fab.root = some r → r.job = leAt pkt.body 0 4 →
    let i := leAt pkt.body 4 4
    let r' := { r with notArmed := dedup (r.notArmed ++ [i]), silent := r.silent ++ [i], waiting := r.waiting.filter (· != i) }
    r.phase = 2 → r'.waiting ≠ [] → r.committed + r'.notArmed.length < r.n →
    ∃ t, exec (.commitAckReceive pkt) s = .next t ∧ t.fab.root = some r' ∧ Only { fab := true } s t)

/-- A participant of a job (R349-R352). ARM: a module that may arm takes the token and is armed, one that may not keeps what it had.
ARM_ACK_RECEIVE: a child's counts are added, and the last one sends the answer. ARM_WAIT_EXPIRE: a node that waited (height - depth) times
ARM_WAIT answers with the silent children listed. ADOPT: the children handed over are the node's. COMMIT: an armed node is committed and its
start is due at START_TIME. START_TIME_REACHED: one event is counted in the start ring's bank. DISARM and ARM_HOLD_EXPIRE: a node that is
not committed goes, and an armed one returns the token. -/
def Obligations.ParticipantsArmCommitAndDisarm : Prop :=
  (∀ (s s1 : State) (pkt : Packet) (entries : List Byte), s.canon = true → s.take pkt = some s1 → pkt.kind = 0x40 →
    let job := leAt pkt.body 0 4
    let v := s.armVerdict job (leAt pkt.body 26 1)
    (v = 0x01 → ∃ t m, exec (.arm pkt entries) s = .next t ∧ t.nodeOf job = some m ∧ m.armed = true ∧ m.okCount = 1 ∧
      m.kids = (List.range (ropeCount entries 0)).map (fun i => (ropeFirst entries 0 + i, ropeChip entries (i + 1))) ∧ m.parent = pkt.src ∧
      t.fab.token = false ∧ t.fget Reg.FAB_ROPE_STATUS Fld.FAB_ROPE_STATUS_ARMED = 1 ∧ t.fget Reg.FAB_ROPE_STATUS Fld.FAB_ROPE_STATUS_JOB_ID = job) ∧
    (v ≠ 0x01 → ∃ t m, exec (.arm pkt entries) s = .next t ∧ t.nodeOf job = some m ∧ m.armed = (s.nodeOf job).any (·.armed) ∧ m.refCount = 1 ∧
      t.fab.token = s.fab.token)) ∧
  (∀ (s s1 : State) (pkt : Packet) (n : RopeNode), s.take pkt = some s1 → pkt.kind = 0x41 → s.fab.root = none →
    s.nodeOf (leAt pkt.body 0 4) = some n → n.waiting.contains (leAt pkt.body 4 4) = true → n.answered = false →
    ∃ t m, exec (.armAckReceive pkt) s = .next t ∧ t.nodeOf (leAt pkt.body 0 4) = some m ∧ m.okCount = n.okCount + leAt pkt.body 8 4 ∧
      m.refCount = n.refCount + leAt pkt.body 12 4 ∧ m.waiting = n.waiting.filter (· != leAt pkt.body 4 4) ∧
      m.answered = (n.waiting.filter (· != leAt pkt.body 4 4)).isEmpty ∧ Only { regs := true, fab := true, tor := true } s t) ∧
  (∀ (s : State) (job : Nat) (n : RopeNode), s.nodeOf job = some n → n.answered = false →
    ∃ t m, exec (.armWaitExpire job) s = .next t ∧ t.nodeOf job = some m ∧ m.answered = true ∧ m.silent = n.silent ++ n.waiting ∧ m.waiting = [] ∧
      n.armAt + (n.height - n.depth) * n.wait ≤ t.clk.now ∧ Only { regs := true, clk := true, fab := true, tor := true } s t) ∧
  (∀ (s : State) (job : Nat) (n : RopeNode), s.nodeOf job = some n → n.answered = true → n.committed = true → n.cAnswered = false → n.index ≠ 0 →
    ∃ t m, exec (.armWaitExpire job) s = .next t ∧ t.nodeOf job = some m ∧ m.cAnswered = true ∧ m.cSilent = n.cSilent ++ n.cWaiting ∧
      n.cAt + (n.height - n.depth) * n.wait ≤ t.clk.now) ∧
  (∀ (s s1 : State) (pkt : Packet) (entries : List Byte) (n : RopeNode), s.take pkt = some s1 → pkt.kind = 0x42 →
    s.nodeOf (leAt pkt.body 0 4) = some n →
    ∃ t m, exec (.adopt pkt entries) s = .next t ∧ t.nodeOf (leAt pkt.body 0 4) = some m ∧
      m.adopted = n.adopted.filter (fun a => !(adoptKids pkt).contains a.1) ++
        (List.range (adoptKids pkt).length).map (fun i => ((adoptKids pkt).getD i 0, ropeChip entries i)) ∧ m.armed = n.armed ∧
      Only { regs := true, fab := true, tor := true } s t) ∧
  (∀ (s s1 : State) (pkt : Packet) (n : RopeNode), s.canon = true → s.take pkt = some s1 → pkt.kind = 0x43 → s.nodeOf (leAt pkt.body 0 4) = some n →
    n.armed = true → n.committed = false → s.reached (leAt pkt.body 8 4) = false →
    ∃ t m, exec (.commit pkt) s = .next t ∧ t.nodeOf (leAt pkt.body 0 4) = some m ∧ m.committed = true ∧ m.startAt = some (leAt pkt.body 8 4) ∧ m.cParent = pkt.src ∧
      t.fget Reg.FAB_ROPE_STATUS Fld.FAB_ROPE_STATUS_COMMITTED = 1 ∧ t.fget Reg.FAB_ROPE_STATUS Fld.FAB_ROPE_STATUS_ARMED = 0) ∧
  (∀ (s s1 : State) (pkt : Packet) (n : RopeNode), s.take pkt = some s1 → pkt.kind = 0x44 → s.fab.root = none →
    s.nodeOf (leAt pkt.body 0 4) = some n → n.cWaiting.contains (leAt pkt.body 4 4) = true →
    ∃ t m, exec (.commitAckReceive pkt) s = .next t ∧ t.nodeOf (leAt pkt.body 0 4) = some m ∧ m.cCount = n.cCount + leAt pkt.body 8 4 ∧
      m.cWaiting = n.cWaiting.filter (· != leAt pkt.body 4 4) ∧ Only { regs := true, fab := true, tor := true } s t) ∧
  (∀ (s : State) (n : RopeNode) (st : Nat), s.canon = true → s.fab.nodes.find? (fun n => n.committed && n.startAt.isSome) = some n →
    n.startAt = some st → n.ring < 256 → s.fget (Reg.RING_EVT_BANK n.ring) Fld.RING_EVT_BANK_COUNT < 2 ^ 32 - 1 →
    ∃ t, exec .startTimeReached s = .next t ∧ s.clk.now ≤ t.clk.now ∧
      t.fget (Reg.RING_EVT_BANK n.ring) Fld.RING_EVT_BANK_COUNT = s.fget (Reg.RING_EVT_BANK n.ring) Fld.RING_EVT_BANK_COUNT + 1 ∧
      SameRegs s t [Reg.RING_EVT_BANK n.ring] ∧ (s.reached st = true → t.clk = s.clk)) ∧
  (∀ (s s1 : State) (pkt : Packet) (n : RopeNode), s.take pkt = some s1 → pkt.kind = 0x45 → s.nodeOf (leAt pkt.body 0 4) = some n →
    n.committed = false → ∃ t, exec (.disarm pkt) s = .next t ∧ t.nodeOf (leAt pkt.body 0 4) = none ∧ (n.armed = true → t.fab.token = true) ∧
      (n.armed = false → t.fab.token = s.fab.token) ∧ Only { regs := true, fab := true, tor := true } s t) ∧
  (∀ (s : State) (n : RopeNode), s.fab.nodes.find? (fun n => n.armed && !n.committed) = some n → s.nodeOf n.job = some n →
    ∃ t, exec .armHoldExpire s = .next t ∧ n.armAt + n.hold ≤ t.clk.now ∧ t.nodeOf n.job = none ∧ t.fab.token = true ∧
      Only { regs := true, clk := true, fab := true } s t)

/-- The ranks (R363-R402). REDUCE: the descriptor begins; with a readable gradient the rank holds x and its statistic and has no outcome. BUSY is
noted, and EXP_RETRY_TIMER ends that 2 microseconds later. GRANT for the rank's version, without residual memory, gives it the epoch and the
item CRC of its quantised contribution; one for an earlier version only counts as stale. RESULT: a lane segment of an UNCONFIRMED result is held; one that is whole and final
ends the rank. ABORT ends it with the STATUS of its reason. RESULT_CONFIRM of a whole held result ends the rank, of another is noted.
RESULT_RETRACT drops the result. RESULT_STEEP_EXPIRE ends it FAULTED and counts EXPIRED. DIGEST_CLOSE with readable entries and a target page that takes
the record ends SUCCESS with RECV in RESULT, and FAULTED when the log is not readable. -/
def Obligations.RanksFollowTheirHome : Prop :=
  (∀ (z : State) (n seq : Nat) (ecc : EccFinds) (d : Started), let s := z.eccAll ecc
    s.findStarted n seq = some d → dOPCODE d.bytes = 0x3010 → d.begun = false → d.done = none →
    s.findRank n seq = none →
    let x := redP d.bytes d.param
    let k : RankRun := { ring := n, seq := seq, eng := leAt d.bytes 36 1, bytes := d.bytes, param := d.param }
    let old (q : RankRun) : Bool := q.closed && q.eng == k.eng &&
      (let y := redP q.bytes q.param; y.coll == x.coll && y.step == x.step && y.bucket == x.bucket && y.rank == x.rank)
    let s0 := State.updStarted { s with ranks := s.ranks.filter (fun q => !old q) ++ [k] } n seq (fun x => { x with begun := true })
    ((s0.redReads (rankCtx n k.eng d.bytes) x).2 = none → ∃ t, exec (.reduce n seq ecc) z = .next t ∧ t.endOf n seq = none ∧
      (∃ y, t.findStarted n seq = some y ∧ y.begun = true) ∧
      (∃ q, t.findRank n seq = some q ∧ q.xs = s0.redXs x ∧ q.stat = redStat x.mode x.count (s0.redXs x) ∧ q.ver = 0 ∧ q.closed = false)) ∧
    ((s0.redReads (rankCtx n k.eng d.bytes) x).2 ≠ none → ∃ t, exec (.reduce n seq ecc) z = .next t ∧ t.endOf n seq = some stFAULTED ∧
      (∃ q, t.findRank n seq = some q ∧ q.closed = true))) ∧
  (∀ (s : State) (pkt : Packet) (q : RankRun), s.rankHears 0x25 pkt q →
    ∃ t, exec (.busy pkt) s = .next t ∧ t.findRank q.ring q.seq = some { q with busyAt := some s.clk.now } ∧ Only { fab := true, ranks := true } s t) ∧
  (∀ (s : State) (n seq at_ : Nat) (q : RankRun) (d : Started), s.findRank n seq = some q → s.findStarted n seq = some d → q.busyAt = some at_ →
    q.deps = [] →
    let x := redP q.bytes q.param
    ∃ t, exec (.expRetryTimer n seq) s = .next t ∧ t.findRank n seq = some { q with busyAt := none } ∧ at_ + 2000 ≤ t.clk.now ∧
      (s.chip = some x.homeChip → ∃ k, k ∈ t.fab.delivered ∧ k.kind = 0x20 ∧ k.addr = x.homeEng ∧ k.vc = 2) ∧
      Only { regs := true, clk := true, fab := true, tor := true, arr := true, ranks := true } s t) ∧
  (∀ (z : State) (pkt : Packet) (ecc : EccFinds) (q : RankRun), let s := z.eccAll ecc
    s.rankHears 0x21 pkt q → rVer pkt = q.ver → q.epoch ≤ rEpoch pkt → q.lost = none →
    let x := redP q.bytes q.param
    let E := sext 16 (leAt pkt.body 16 2)
    let pay := packQ x.mode ((List.range q.xs.length).map (fun i =>
      (quantise x.mode E (redRnd x.seedLo x.seedHi x.rank x.bucket i) (q.xs.getD i .nan)).1))
    x.em = false →
    ∃ t, exec (.grant pkt ecc) z = .next t ∧ (∃ q', t.findRank q.ring q.seq = some q' ∧ q'.epoch = rEpoch pkt ∧ q'.ver = q.ver ∧
      q'.c = itemCrc x.rank x.step x.bucket x.mode E pay) ∧ t.mem = { s.mem with trf := t.mem.trf } ∧ t.started = s.started) ∧
  (∀ (z : State) (pkt : Packet) (ecc : EccFinds) (q : RankRun), let s := z.eccAll ecc
    s.canon = true → s.rankHears 0x21 pkt q → rVer pkt < q.ver →
    ∃ t, exec (.grant pkt ecc) z = .next t ∧ t.ranks = s.ranks ∧ Rose s t (Reg.RED_CNT_B q.eng) Fld.RED_CNT_B_STALE 1 ∧
      SameRegs s t [Reg.RED_CNT_B q.eng] ∧ Only { regs := true, fab := true } s t) ∧
  (∀ (s : State) (pkt : Packet) (q : RankRun), s.rankHears 0x23 pkt q → q.gone.contains (rVer pkt) = false → q.sure.contains (rVer pkt) = false →
    q.res = none → pUnconf pkt = true →
    ∃ t, exec (.result pkt) s = .next t ∧ (∃ h, t.findRank q.ring q.seq = some { q with res := some h } ∧ h.seq = rVer pkt ∧ h.final = false ∧
      h.segs = [(leAt pkt.body 28 4, pkt.body.drop 32)] ∧ h.h = leAt pkt.body 20 8 ∧ h.e = sext 16 (leAt pkt.body 16 2)) ∧
      Only { fab := true, ranks := true } s t) ∧
  (∀ (s : State) (pkt : Packet) (q : RankRun) (d : Started), s.rankHears 0x23 pkt q → q.gone.contains (rVer pkt) = false → q.res = none →
    pUnconf pkt = false → (redP q.bytes q.param).count * leAt pkt.body 18 1 ≤ (pkt.body.drop 32).length → s.findStarted q.ring q.seq = some d →
    d.done = none → ∃ t, exec (.result pkt) s = .next t ∧ (t.endOf q.ring q.seq = some stSUCCESS ∨ t.endOf q.ring q.seq = some stFAULTED) ∧
      (∃ q', t.findRank q.ring q.seq = some q' ∧ q'.closed = true)) ∧
  (∀ (s : State) (pkt : Packet) (q : RankRun) (d : Started), s.rankHears 0x24 pkt q → s.findStarted q.ring q.seq = some d → d.done = none →
    1 ≤ leAt pkt.body 16 2 → leAt pkt.body 16 2 ≤ 3 →
    ∃ t, exec (.abort pkt) s = .next t ∧ t.endOf q.ring q.seq = some
        (if leAt pkt.body 16 2 = 1 then stDEADLINE else if leAt pkt.body 16 2 = 2 then stREFUSED else stBAD_OPERAND) ∧
      (∃ q', t.findRank q.ring q.seq = some q' ∧ q'.closed = true) ∧ Only { fab := true, started := true, ranks := true } s t) ∧
  (∀ (s : State) (pkt : Packet) (q : RankRun), s.rankHears 0x32 pkt q → q.gone.contains (rVer pkt) = false → q.sure.contains (rVer pkt) = false →
    q.res = none → ∃ t, exec (.resultConfirm pkt) s = .next t ∧ t.findRank q.ring q.seq = some { q with sure := q.sure ++ [rVer pkt] } ∧
      Only { fab := true, ranks := true } s t) ∧
  (∀ (s : State) (pkt : Packet) (q : RankRun) (h : HeldRes) (d : Started), s.rankHears 0x32 pkt q → q.gone.contains (rVer pkt) = false →
    q.sure.contains (rVer pkt) = false → q.res = some h → h.seq = rVer pkt → h.whole (redP q.bytes q.param).count = true →
    s.findStarted q.ring q.seq = some d → d.done = none →
    ∃ t, exec (.resultConfirm pkt) s = .next t ∧ (t.endOf q.ring q.seq = some stSUCCESS ∨ t.endOf q.ring q.seq = some stFAULTED)) ∧
  (∀ (s : State) (pkt : Packet) (q : RankRun) (h : HeldRes), s.rankHears 0x33 pkt q → q.gone.contains (rVer pkt) = false → q.res = some h →
    ∃ t, exec (.resultRetract pkt) s = .next t ∧
      t.findRank q.ring q.seq = some { q with gone := q.gone ++ [rVer pkt], res := if h.seq = rVer pkt then none else some h } ∧
      Only { fab := true, ranks := true } s t) ∧
  (∀ (s : State) (n seq : Nat) (q : RankRun) (h : HeldRes) (d : Started), s.canon = true → s.findRank n seq = some q → q.res = some h →
    h.final = false → q.closed = false → s.findStarted n seq = some d → d.done = none →
    ∃ t, exec (.resultSteepExpire n seq) s = .next t ∧ t.endOf n seq = some stFAULTED ∧ Counted s t 0x02 ∧
      Rose s t Reg.INTG_STEEP_CNT Fld.INTG_STEEP_CNT_EXPIRED 1 ∧ h.since + s.cfg Reg.INTG_STEEP Fld.INTG_STEEP_WINDOW_NS ≤ t.clk.now) ∧
  (∀ (z : State) (n seq : Nat) (ecc : EccFinds) (d : Started), let s := z.eccAll ecc
    s.findStarted n seq = some d → dOPCODE d.bytes = 0x3018 → d.done = none →
    let b := d.bytes
    let e := leAt b 24 1
    let step := leAt b 28 4
    let cnt := leAt b 32 4
    let r := s.rankRead (rankCtx n e b) (s.dlogAddr e step 0) (32 * cnt)
    let g := digests (s.gread (s.dlogAddr e step 0) (32 * cnt)) step cnt
    let data := leBytes 4 step ++ leBytes 4 g.2.2 ++ leBytes 8 g.1 ++ leBytes 8 g.2.1 ++ leBytes 4 (cnt - g.2.2) ++ List.replicate 36 0#8
    (r.2 ≠ none → ∃ t, exec (.digestClose n seq ecc) z = .next t ∧ t.endOf n seq = some stFAULTED) ∧
    (∀ a, r.2 = none → s.gloc (leAt b 40 8) = .own (.hbm a) → s.sump.cut = none →
      (r.1.awareWrites (rankCtx n e b) 0 (dSTEP b) defaultId [(leAt b 40 8, data)]).2 = none →
      ∃ t, exec (.digestClose n seq ecc) z = .next t ∧
        (∃ y o, t.findStarted n seq = some y ∧ y.done = some o ∧ o.status = stSUCCESS ∧ o.result = g.2.1)))

/-- The homes (R363-R402). EXP for a key that is not held opens a bucket with the rank's statistic, or is answered BUSY and counted when 64 are
open; one that disagrees with the bucket aborts it (R386). GRANT_SEND marks the first rank that may send as granted and issues a token. CONTRIB: a whole, correct contribution of
the rank that is NEXT is added to the lanes and the rank is consumed; one whose item CRC fails is dropped and reported; one of an earlier
epoch is stale. HOME_DEADLINE_EXPIRE drops the bucket and reports 0x02. CONFIRM takes the version out of the journal and is noted, a token without
a bucket is kept. RETRACT of a version not consumed takes its statistic back; of a journaled one subtracts it from the lanes exactly.
JOURNAL_STEEP_EXPIRE counts EXPIRED and retracts the entry. -/
def Obligations.HomesReduceExactly : Prop :=
  (∀ (s : State) (pkt : Packet), (s.take pkt).isSome = true → pkt.kind = 0x20 → pkt.addr ≤ 15 → s.homeOf pkt = none →
    s.fnState (0x40 + pkt.addr) = fnRUN →
    ((s.homesOf pkt.addr).length < 64 → s.earlyFor pkt = [] → leAt pkt.body 20 4 ≠ 0 → ∃ t, exec (.exp pkt) s = .next t ∧
      (∃ h, t.homeOf pkt = some h ∧ h.n = leAt pkt.body 20 4 ∧ h.mode = leAt pkt.body 18 1 ∧ h.count = leAt pkt.body 24 4 ∧
        h.lanes = List.replicate (leAt pkt.body 24 4) 0 ∧ h.rankAt (rRank pkt) = some (expRank pkt) ∧
        h.e = (if leAt pkt.body 20 4 = 1 then some (max (-32768) (sext 16 (leAt pkt.body 16 2))) else none)) ∧
      Only { fab := true, homes := true } s t) ∧
    (s.canon = true → 64 ≤ (s.homesOf pkt.addr).length → ∃ t, exec (.exp pkt) s = .next t ∧ t.homes = s.homes ∧
      Rose s t (Reg.RED_CNT_B pkt.addr) Fld.RED_CNT_B_BUSY 1)) ∧
  (∀ (s : State) (pkt : Packet) (h : HomeBucket), s.canon = true → (s.take pkt).isSome = true → pkt.kind = 0x20 → pkt.addr ≤ 15 →
    s.homeOf pkt = some h → h.final = false → s.fnState (0x40 + pkt.addr) = fnRUN →
    h.n ≠ leAt pkt.body 20 4 ∨ h.mode ≠ leAt pkt.body 18 1 ∨ h.count ≠ leAt pkt.body 24 4 →
    ∃ t, exec (.exp pkt) s = .next t ∧ t.homes = dropFirst (·.isKey pkt.addr (rColl pkt) (rStep pkt) (rBucket pkt)) s.homes ∧ Counted s t 0x0F) ∧
  (∀ (s : State) (e coll step bucket : Nat) (h : HomeBucket) (r : HomeRank), s.canon = true → e ≤ 15 →
    s.homes.find? (·.isKey e coll step bucket) = some h → s.grantable h = some r →
    ∃ t, exec (.grantSend e coll step bucket) s = .next t ∧
      (∃ h', t.homes.find? (·.isKey e coll step bucket) = some h' ∧ h'.rankAt r.rank = some { r with granted := true } ∧ h'.e = h.e ∧
        h'.lanes = h.lanes) ∧
      t.fget (Reg.RED_AUDIT e) Fld.RED_AUDIT_ISSUED = (s.fget (Reg.RED_AUDIT e) Fld.RED_AUDIT_ISSUED + 1) % 2 ^ 32 ∧
      Only { regs := true, fab := true, tor := true, homes := true } s t) ∧
  (∀ (s : State) (pkt : Packet) (h : HomeBucket) (r : HomeRank), s.homeHears 0x22 pkt h r → h.epoch ≤ rEpoch pkt → rVer pkt = r.ver →
    h.final = false → r.tokens.contains (0x31, r.ver) = false → r.eaten = false → r.got = none → r.granted = true →
    let segs := addSeg r.segs (leAt pkt.body 24 4) (pkt.body.drop 32)
    let pay := segBytes segs
    payloadLen h.mode h.count ≤ pay.length →
    (itemCrc r.rank h.step h.bucket h.mode (h.e.getD 0) pay = leAt pkt.body 16 8 → h.next = r.rank →
      (∀ q, q ∈ h.ranks → q.rank ≠ r.rank → q.got = none) → (h.ranks.filter (·.eaten)).length + 1 ≠ h.n →
      ∃ t, exec (.contrib pkt) s = .next t ∧ (∃ h' r', t.homeOf pkt = some h' ∧ h'.lanes = List.zipWith (· + ·) h.lanes (unpackQ h.mode h.count pay) ∧
        h'.rankAt r.rank = some r' ∧ r'.eaten = true ∧ r'.granted = false ∧ r'.c = leAt pkt.body 16 8 ∧ h'.epoch = h.epoch)) ∧
    (s.canon = true → itemCrc r.rank h.step h.bucket h.mode (h.e.getD 0) pay ≠ leAt pkt.body 16 8 → ∃ t, exec (.contrib pkt) s = .next t ∧
      Counted s t 0x0F ∧ (∃ h', t.homeOf pkt = some h' ∧ h'.rankAt r.rank = some { r with segs := [] } ∧ h'.lanes = h.lanes))) ∧
  (∀ (s : State) (pkt : Packet) (h : HomeBucket) (r : HomeRank), s.canon = true → s.homeHears 0x22 pkt h r → rEpoch pkt < h.epoch →
    ∃ t, exec (.contrib pkt) s = .next t ∧ t.homes = s.homes ∧ Rose s t (Reg.RED_CNT_B pkt.addr) Fld.RED_CNT_B_STALE 1) ∧
  (∀ (s : State) (e coll step bucket : Nat) (h : HomeBucket), s.canon = true → e ≤ 15 → s.homes.find? (·.isKey e coll step bucket) = some h →
    h.final = false → h.ranks.filter (·.dead != 0) ≠ [] →
    ∃ t, exec (.homeDeadlineExpire e coll step bucket) s = .next t ∧ t.homes = dropFirst (·.isKey e coll step bucket) s.homes ∧
      Counted s t 0x02 ∧ s.clk.now ≤ t.clk.now) ∧
  (∀ (s : State) (pkt : Packet), (s.take pkt).isSome = true → pkt.addr ≤ 15 → s.homeOf pkt = none →
    (pkt.kind = 0x30 → ∃ t, exec (.confirm pkt) s = .next t ∧ t.quar.early = s.quar.early ++ [(pkt, s.clk.now)] ∧ Only { fab := true, quar := true } s t) ∧
    (pkt.kind = 0x31 → ∃ t, exec (.retract pkt) s = .next t ∧ t.quar.early = s.quar.early ++ [(pkt, s.clk.now)] ∧ Only { fab := true, quar := true } s t)) ∧
  (∀ (s : State) (pkt : Packet) (h : HomeBucket) (r : HomeRank), s.homeHears 0x30 pkt h r → r.ver ≤ rVer pkt → h.final = false →
    r.tokens.contains (0x30, rVer pkt) = false → r.tokens.contains (0x31, rVer pkt) = false → h.full = false →
    ∃ t, exec (.confirm pkt) s = .next t ∧ (∃ h', t.homeOf pkt = some h' ∧ h'.rankAt r.rank = some { r with tokens := r.tokens ++ [(0x30, rVer pkt)] } ∧
      h'.jrnl = h.jrnl.filter (fun j => !(j.rank == r.rank && j.ver == rVer pkt)) ∧ h'.lanes = h.lanes) ∧ Only { fab := true, homes := true } s t) ∧
  (∀ (s : State) (pkt : Packet) (h : HomeBucket) (r : HomeRank), s.canon = true → s.homeHears 0x31 pkt h r → r.ver = rVer pkt → h.final = false →
    r.tokens.contains (0x30, rVer pkt) = false → r.tokens.contains (0x31, rVer pkt) = false →
    (r.eaten = false → ∃ t, exec (.retract pkt) s = .next t ∧ Rose s t (Reg.RED_CNT_A h.eng) Fld.RED_CNT_A_RETRACTED 1 ∧
      (∃ h' r', t.homeOf pkt = some h' ∧ h'.rankAt r.rank = some r' ∧ r'.stat = none ∧ r'.old = r.stat ∧ r'.granted = false ∧ h'.lanes = h.lanes)) ∧
    (∀ j, r.eaten = true → h.jrnl.find? (fun (j : JEntry) => j.rank == r.rank) = some j → ∃ t, exec (.retract pkt) s = .next t ∧
      (∃ h' r', t.homeOf pkt = some h' ∧ h'.lanes = List.zipWith (· - ·) h.lanes (unpackQ h.mode h.count j.payload) ∧
        h'.rankAt r.rank = some r' ∧ r'.eaten = false ∧ h'.jrnl = h.jrnl.filter (fun (j : JEntry) => j.rank != r.rank)))) ∧
  (∀ (s : State) (e coll step bucket rank : Nat) (h : HomeBucket) (j : JEntry) (r : HomeRank), s.canon = true → e ≤ 15 →
    s.homes.find? (·.isKey e coll step bucket) = some h → h.jrnl.find? (·.rank == rank) = some j → h.rankAt rank = some r → r.eaten = true →
    ∃ t, exec (.journalSteepExpire e coll step bucket rank) s = .next t ∧ Counted s t 0x02 ∧
      Rose s t Reg.INTG_STEEP_CNT Fld.INTG_STEEP_CNT_EXPIRED 1 ∧ j.since + s.cfg Reg.INTG_STEEP Fld.INTG_STEEP_WINDOW_NS ≤ t.clk.now ∧
      (∃ h', t.homes.find? (·.isKey e coll step bucket) = some h' ∧ h'.jrnl = h.jrnl.filter (fun (j : JEntry) => j.rank != rank) ∧
        h'.lanes = List.zipWith (· - ·) h.lanes (unpackQ h.mode h.count j.payload)))

/-- Tickets (R421-R437, R477, R478). STRAINER_VERDICT: a passing tile stands as passed, and with its descriptor ended no page that has passed stays
pending; a failing one stands as failed and its ticket is fenced. REPLAY_JUDGE: with no replay cell both are suspect, the block is fenced and the ticket withdrawn; an
equal passing replay flags the Strainer; another passing one fences the cell and takes the tile's place. LOCKSTEP_MISMATCH fences the block;
the descriptor runs again on the cells left, or ends FAULTED at the third. TICKET_SETTLE ends the next ticket with its pages and its unconfirmed
completions. FENCE_MESSAGE takes its entry; STEEP_FENCE_TIMER fences a ticket 8 microseconds before its window ends. -/
def Obligations.TicketsAreJudgedAndSettled : Prop :=
  (∀ (s : State) (ticket tile : Nat) (forced : Bool) (k : TicketSt) (f : Folded), s.canon = true → s.ticketOf ticket = some k →
    k.tiles.find? (fun f => f.num == tile && f.standing == 0) = some f →
    let stand (st : Nat) := k.tiles.map (fun g => if g.num == f.num then { g with standing := st } else g)
    (tilePasses (tileP k.bytes k.param) f = true → forced = false → k.ended = false → ∃ t, exec (.strainerVerdict ticket tile forced) s = .next t ∧
      t.ticketOf ticket = some { k with tiles := stand 1 } ∧ t.pages = s.pages ∧ t.mem = s.mem) ∧
    (tilePasses (tileP k.bytes k.param) f = true → forced = false → k.ended = true → ∃ t, exec (.strainerVerdict ticket tile forced) s = .next t ∧
      (∀ e, e ∈ t.pages → e.ticket = k.num → ({ k with tiles := stand 1 } : TicketSt).pagePassed e.page = false)) ∧
    (tilePasses (tileP k.bytes k.param) f = false ∨ forced = true → ∃ t, exec (.strainerVerdict ticket tile forced) s = .next t ∧
      t.ticketOf ticket = some { k with tiles := stand 2, fenced := true } ∧ t.pages = s.pages ∧ t.mem = s.mem ∧
      (k.fenced = false → Rose s t Reg.INTG_STEEP_CNT Fld.INTG_STEEP_CNT_FENCED 1))) ∧
  (∀ (z : State) (ticket : Nat) (forced : Bool) (fault : List (Nat × Nat)) (ecc : EccFinds) (k : TicketSt) (f : Folded),
    let s := z.eccAll ecc
    s.canon = true → s.ticketOf ticket = some k → k.failed = some f → f.cell < 4096 →
    (replayCell s.mayReplay f.cell = none → ∃ t, exec (.replayJudge ticket forced fault ecc) z = .next t ∧ Counted s t 0x01 ∧
      Rose s t Reg.INTG_CHECK_CNT Fld.INTG_CHECK_CNT_BOTH 1 ∧ t.rbit Reg.ARR_FENCE_BLOCK (f.cell / 64) = true ∧
      (∃ k', t.ticketOf ticket = some k' ∧ k'.withdrawn.isSome = true ∧ ∀ g, g ∈ k'.tiles → g.num = f.num → g.standing = 3)) ∧
    (∀ c, replayCell s.mayReplay f.cell = some c → (s.awareChecks (arrCtx k.ring k.bytes c) ((tileP k.bytes k.param).reads f.num)).2 = none →
      let x := tileP k.bytes k.param
      let g := foldOf x (s.runTile x f.num c) fault
      forced = false → tilePasses x g = true →
      (g.words = f.words → s.rbit (Reg.INTG_STRAINER_FLAG (f.cell / 64)) (f.cell % 64) = false → k.ended = false →
        ∃ t, exec (.replayJudge ticket forced fault ecc) z = .next t ∧ Rose s t Reg.INTG_CHECK_CNT Fld.INTG_CHECK_CNT_STRAINER_AT_FAULT 1 ∧
          t.rbit (Reg.INTG_STRAINER_FLAG (f.cell / 64)) (f.cell % 64) = true ∧ Counted s t 0x01 ∧
          t.ticketOf ticket = some { k with tiles := k.tiles.map (fun h => if h.num == f.num then { h with standing := 1 } else h) }) ∧
      (g.words ≠ f.words → k.ended = false → s.arr.run = none →
        ∃ t, exec (.replayJudge ticket forced fault ecc) z = .next t ∧ Rose s t Reg.INTG_CHECK_CNT Fld.INTG_CHECK_CNT_RESULT_AT_FAULT 1 ∧
          t.rbit (Reg.ARR_FENCE_CELL (f.cell / 64)) (f.cell % 64) = true ∧ Counted s t 0x01 ∧
          t.ticketOf ticket = some { k with tiles := k.tiles.map (fun h => if h.num == f.num then { g with pages := f.pages, standing := 1 } else h) }))) ∧
  (∀ (s : State) (b : Nat), s.canon = true → b < 64 → s.blockUp b = true →
    (s.arr.run = none → ∃ t, exec (.lockstepMismatch b) s = .next t ∧ t.rbit Reg.ARR_FENCE_BLOCK b = true ∧ Counted s t 0x13 ∧
      t.started = s.started ∧ t.arr = s.arr) ∧
    (∀ r d, s.arr.run = some r → s.findStarted r.ring r.seq = some d → d.done = none →
      (2 ≤ r.hits → ∃ t, exec (.lockstepMismatch b) s = .next t ∧ t.rbit Reg.ARR_FENCE_BLOCK b = true ∧ Counted s t 0x13 ∧ t.arr.run = none ∧
        t.endOf r.ring r.seq = some stFAULTED ∧ (∀ e, e ∈ t.pages → e.ticket ≠ r.ticket)) ∧
      (r.hits < 2 → r.active.filter (fun c => c / 64 != b) ≠ [] → ∃ t r', exec (.lockstepMismatch b) s = .next t ∧
        t.rbit Reg.ARR_FENCE_BLOCK b = true ∧ Counted s t 0x13 ∧ t.arr.run = some r' ∧ r'.hits = r.hits + 1 ∧
        r'.active = r.active.filter (fun c => c / 64 != b) ∧ r'.left = r'.tiles.length ∧ t.started = s.started))) ∧
  (∀ (s : State) (k : TicketSt), s.canon = true → s.ripeTicket = some k →
    ∃ t, exec .ticketSettle s = .next t ∧ (∀ x, x ∈ t.arr.tickets → x.num ≠ k.num) ∧ (∀ e, e ∈ t.pages → e.ticket ≠ k.num) ∧
      t.unconf = s.unconf.filter (·.ticket != k.num) ∧
      t.fget Reg.INTG_TICKET Fld.INTG_TICKET_SETTLED = (s.fget Reg.INTG_TICKET Fld.INTG_TICKET_SETTLED + 1) % 2 ^ 16) ∧
  (∀ (s : State) (r ticket : Nat), s.quar.msgs.contains (r, ticket) = true →
    let l := tblGet (fun _ => []) s.quar.fenced r
    ∃ t, exec (.fenceMessage r ticket) s = .next t ∧ t.quar.msgs = dropFirst (· == (r, ticket)) s.quar.msgs ∧
      t.quar.fenced = (if l.contains ticket || 64 ≤ l.length then s.quar.fenced else tblPut (fun _ => []) s.quar.fenced r (l ++ [ticket])) ∧
      Only { regs := true, fab := true, tor := true, ranks := true, quar := true } s t) ∧
  (∀ (s : State) (ticket r0 t0 : Nat) (k : TicketSt), s.canon = true → s.ticketOf ticket = some k → k.firstSend = some (r0, t0) → k.fenced = false →
    ∃ t, exec (.steepFenceTimer ticket) s = .next t ∧ t.ticketOf ticket = some { k with fenced := true } ∧
      t.quar.msgs = s.quar.msgs ++ (List.range 8).map (fun r => (r, ticket)) ∧ Rose s t Reg.INTG_STEEP_CNT Fld.INTG_STEEP_CNT_FENCED 1 ∧
      t0 + s.steepWindow - 8000 ≤ t.clk.now ∧ SameRegs s t [Reg.INTG_STEEP_CNT] ∧ Only { regs := true, clk := true, arr := true, quar := true } s t)

/-- Quarantined writes (R438-R442) and copied tags (R416). UNCONFIRMED_WRITE_RECEIVE, while the buffer has room: the first packet of an item opens it, a later one joins it.
WRITE_CONFIRM of a held item of one write within an HBM page that no Sump copy holds up stores it and drops the item; a token without its item is
kept. WRITE_RETRACT drops the item and stores nothing; of an item that was confirmed it is reported (class 0x01). STEEP_WINDOW_EXPIRE drops
the item, counts EXPIRED and reports 0x02. EARLY_TOKEN_EXPIRE ends the oldest kept token one window later. TAG_COPY_READBACK: a copy whose
CRC differs for the second time is a tag mismatch, one whose CRC agrees gets the source's tag. -/
def Obligations.QuarantinedWritesWaitForTheirToken : Prop :=
  (∀ (s : State) (r : Nat) (pkt : Packet), (s.take pkt).isSome = true → pkt.kind = 0x03 → pUnconf pkt = true → r < 8 →
    48 ≤ pkt.port ∨ pkt.port / 6 = r → s.quarUse r + pkt.body.length ≤ 2 ^ 22 → s.earlyWrite pkt.src (pItem pkt) = none →
    (s.quar.items.any (fun i => i.src == pkt.src && i.item == pItem pkt) = false → ∃ t, exec (.unconfirmedWriteReceive r pkt) s = .next t ∧
      (∃ i : QItem, t.quar.items = s.quar.items ++ [i] ∧ i.src = pkt.src ∧ i.item = pItem pkt ∧ i.die = r ∧ i.data = [(pkt.addr, pkt.body)] ∧
        i.since = s.clk.now) ∧ Only { fab := true, quar := true } s t) ∧
    (∀ i, s.quar.items.find? (fun i => i.src == pkt.src && i.item == pItem pkt) = some i → ∃ t, exec (.unconfirmedWriteReceive r pkt) s = .next t ∧
      t.quar.items.find? (fun i => i.src == pkt.src && i.item == pItem pkt) = some { i with data := i.data ++ [(pkt.addr, pkt.body)] } ∧
      Only { fab := true, quar := true } s t)) ∧
  (∀ (s : State) (r a off : Nat) (pkt : Packet) (i : QItem) (d : List Byte), s.canon = true → (s.take pkt).isSome = true → pkt.kind = 0x34 → r < 8 →
    s.quar.items.find? (fun i => i.src == pkt.src && i.item == leAt pkt.body 0 2) = some i → i.data = [(off, d)] → d ≠ [] →
    ownAt off % 4096 + d.length ≤ 4096 → s.gloc (ownAt off) = .own (.hbm a) → s.sumpHolds a d.length = false → s.behindHeld a d.length = false →
    s.behindRead (.remote i.die i.src 4 false 0 0xFFFF 0xFFFF) s.order (burstsOf a d.length) = false →
    ∃ t, exec (.writeConfirm r pkt) s = .next t ∧ t.mem.read a d.length = d ∧
      t.quar.items = dropFirst (fun x => x.src == i.src && x.item == i.item) s.quar.items ∧ t.quar.early = s.quar.early ++ [(pkt, s.clk.now)]) ∧
  (∀ (s : State) (r : Nat) (pkt : Packet), (s.take pkt).isSome = true → r < 8 →
    s.quar.items.find? (fun i => i.src == pkt.src && i.item == leAt pkt.body 0 2) = none →
    s.quar.done.any (fun d => d.1 == pkt.src && d.2.1 == leAt pkt.body 0 2) = false →
    (pkt.kind = 0x34 → ∃ t, exec (.writeConfirm r pkt) s = .next t ∧ t.quar.early = s.quar.early ++ [(pkt, s.clk.now)] ∧
      Only { fab := true, quar := true } s t) ∧
    (pkt.kind = 0x35 → ∃ t, exec (.writeRetract r pkt) s = .next t ∧ t.quar.early = s.quar.early ++ [(pkt, s.clk.now)] ∧
      Only { fab := true, quar := true } s t)) ∧
  (∀ (s : State) (r : Nat) (pkt : Packet), s.canon = true → (s.take pkt).isSome = true → pkt.kind = 0x35 → r < 8 →
    (∀ i, s.quar.items.find? (fun i => i.src == pkt.src && i.item == leAt pkt.body 0 2) = some i → ∃ t, exec (.writeRetract r pkt) s = .next t ∧
      t.quar.items = dropFirst (fun x => x.src == i.src && x.item == i.item) s.quar.items ∧ Only { fab := true, quar := true } s t) ∧
    (s.quar.items.find? (fun i => i.src == pkt.src && i.item == leAt pkt.body 0 2) = none →
      s.quar.done.contains (pkt.src, leAt pkt.body 0 2, 0x34) = true → ∃ t, exec (.writeRetract r pkt) s = .next t ∧ Counted s t 0x01 ∧
      t.quar = s.quar ∧ SameRegs s t (reportRegs 0x01) ∧ Only (Parts.report.or { fab := true }) s t)) ∧
  (∀ (s : State) (src item : Nat) (i : QItem), s.canon = true → s.quar.items.find? (fun i => i.src == src && i.item == item) = some i →
    ∃ t, exec (.steepWindowExpire src item) s = .next t ∧ t.quar.items = dropFirst (fun x => x.src == src && x.item == item) s.quar.items ∧
      Counted s t 0x02 ∧ Rose s t Reg.INTG_STEEP_CNT Fld.INTG_STEEP_CNT_EXPIRED 1 ∧ i.since + s.steepWindow ≤ t.clk.now ∧ t.mem.hbm = s.mem.hbm) ∧
  (∀ (s : State) (e : Packet × Nat) (rest : List (Packet × Nat)), s.quar.early = e :: rest →
    ∃ t, exec .earlyTokenExpire s = .next t ∧ t.quar.early = rest ∧ t.quar.items = s.quar.items ∧ e.2 + s.steepWindow ≤ t.clk.now ∧
      Only { clk := true, quar := true } s t) ∧
  (∀ (s : State) (r page chip dst crc : Nat) (again : Bool), s.canon = true → r < 8 → dst < 2 ^ 28 → s.isPending page = false →
    (crc ≠ tagCrc (s.tag page) → again = true → ∃ t, exec (.tagCopyReadback r page chip dst crc again) s = .next t ∧ Counted s t 0x09 ∧
      Rose s t Reg.INTG_TAG_CNT Fld.INTG_TAG_CNT_MISMATCH 1 ∧ t.fab = s.fab) ∧
    (crc = tagCrc (s.tag page) → s.chip = some chip → ∃ t, exec (.tagCopyReadback r page chip dst crc again) s = .next t ∧
      (∃ k, t.fab.delivered = s.fab.delivered ++ [k] ∧ k.kind = 0x03 ∧ k.body = leBytes 8 (s.tag page) ∧
        k.addr = 0x010000000000 + tagPlace dst) ∧ Only { obs := true, fab := true } s t))

/-- Audit tiles (R444) and the scan test (R447-R450). AUDIT_COMPARE: an equal result counts RUN and ends the audit, another counts MISMATCH and is
kept. AUDIT_THIRD_JUDGE: a third cell that agrees with the audit fences the first cell, one that agrees with the original fences the audit
cell, else the block is fenced; each is reported under class 0x01. SCAN_BLOCK: bad operands end it; else the block is masked and SCAN_STATUS shows it. SCAN_PROCEED
takes the block off, its staging SRAM reading zero. SCAN_FINISH ends the descriptor by its result, counts it, and restores the mask bit. -/
def Obligations.AuditsAndScanTests : Prop :=
  (∀ (z : State) (n seq : Nat) (fault : List (Nat × Nat)) (ecc : EccFinds) (a : Audit) (o : List Nat), let s := z.eccAll ecc
    s.canon = true → s.auditOf n seq = some a → a.orig = some o →
    a.again = none →
    (auditVals a fault = o → ∃ t, exec (.auditCompare n seq fault ecc) z = .next t ∧
      t.arr.audits = dropFirst (fun b => b.ring == n && b.seq == seq) s.arr.audits ∧ Rose s t Reg.INTG_AUDIT_CNT Fld.INTG_AUDIT_CNT_RUN 1 ∧
      SameRegs s t [Reg.INTG_AUDIT_CNT] ∧ Only { regs := true, arr := true } s t) ∧
    (auditVals a fault ≠ o → ∃ t, exec (.auditCompare n seq fault ecc) z = .next t ∧
      t.auditOf n seq = some { a with again := some (auditVals a fault) } ∧ Rose s t Reg.INTG_AUDIT_CNT Fld.INTG_AUDIT_CNT_MISMATCH 1 ∧
      SameRegs s t [Reg.INTG_AUDIT_CNT] ∧ Only { regs := true, arr := true } s t)) ∧
  (∀ (z : State) (n seq : Nat) (fault : List (Nat × Nat)) (ecc : EccFinds) (a : Audit) (o v : List Nat), let s := z.eccAll ecc
    s.canon = true → s.auditOf n seq = some a →
    a.orig = some o → a.again = some v → a.cell < 4096 → a.auditCell < 4096 →
    let cell := replayCell (fun c => s.mayReplay c && c != a.cell && c != a.auditCell) a.auditCell
    ∃ t, exec (.auditThirdJudge n seq fault ecc) z = .next t ∧ Counted s t 0x01 ∧
      (cell ≠ none → auditVals a fault = v → t.rbit (Reg.ARR_FENCE_CELL (a.cell / 64)) (a.cell % 64) = true) ∧
      (cell ≠ none → auditVals a fault ≠ v → auditVals a fault = o →
        t.rbit (Reg.ARR_FENCE_CELL (a.auditCell / 64)) (a.auditCell % 64) = true) ∧
      (cell = none ∨ (auditVals a fault ≠ v ∧ auditVals a fault ≠ o) →
        t.rbit Reg.ARR_FENCE_BLOCK (a.cell / 64) = true)) ∧
  (∀ (s : State) (n seq : Nat) (d : Started), s.canon = true → s.findStarted n seq = some d → dOPCODE d.bytes = 0x5010 → d.begun = false → d.done = none →
    (scanBad d.bytes = true → ∃ t, exec (.scanBlock n seq) s = .next t ∧ t.endOf n seq = some stBAD_OPERAND ∧ Only { started := true } s t) ∧
    (scanBad d.bytes = false → s.scan = none → s.obs.ijtag ≠ some (s.trfOf (leAt d.bytes 25 1)) → ∃ t c, exec (.scanBlock n seq) s = .next t ∧
      t.scan = some c ∧ c.ring = n ∧ c.seq = seq ∧ c.block = leAt d.bytes 24 1 ∧ c.held = false ∧ c.mask = s.rbit Reg.ARR_BLOCK_MASK c.block ∧
      t.rbit Reg.ARR_BLOCK_MASK c.block = false ∧ t.fget Reg.INTG_SCAN_STATUS Fld.INTG_SCAN_STATUS_RUNNING = 1 ∧
      t.fget Reg.INTG_SCAN_STATUS Fld.INTG_SCAN_STATUS_BLOCK = c.block ∧ SameRegs s t [Reg.ARR_BLOCK_MASK, Reg.INTG_SCAN_STATUS])) ∧
  (∀ (s : State) (c : Scan), s.canon = true → s.scan = some c → c.held = false → s.scanReady c = true →
    ∃ t, exec .scanProceed s = .next t ∧ t.scan = some { c with held := true } ∧ c.block ∈ t.dark ∧
      (∀ a, c.block * 0x8000000 ≤ a → a < (c.block + 1) * 0x8000000 → t.mem.byte (2 ^ 40 + a) = 0#8) ∧
      (∀ a, ¬(c.block * 0x8000000 ≤ a ∧ a < (c.block + 1) * 0x8000000) → t.mem.byte (2 ^ 40 + a) = s.mem.byte (2 ^ 40 + a)) ∧
      t.mem.hbm = s.mem.hbm ∧ Only { staging := true, stagTag := true, dark := true, scan := true } s t) ∧
  (∀ (s : State) (patterns fails first : Nat) (bad : Option Nat) (c : Scan) (d : Started), s.canon = true → s.scan = some c → c.held = true →
    c.block < 64 → s.findStarted c.ring c.seq = some d → d.done = none →
    ∃ t, exec (.scanFinish patterns fails first bad) s = .next t ∧ t.scan = none ∧ c.block ∉ t.dark ∧ t.rbit Reg.ARR_BLOCK_MASK c.block = c.mask ∧
      t.endOf c.ring c.seq = some (if bad = none ∧ fails = 0 then stSUCCESS else stFAULTED) ∧
      (bad = none → fails = 0 → Rose s t Reg.INTG_SCAN_STATUS Fld.INTG_SCAN_STATUS_PASSED 1) ∧
      (bad = none → fails ≠ 0 → Rose s t Reg.INTG_SCAN_STATUS Fld.INTG_SCAN_STATUS_FAILED 1 ∧ Counted s t 0x01 ∧
        t.rbit Reg.ARR_FENCE_BLOCK c.block = true))

/-- Links, audits and counts (spec/10). BRIDGE_RETRY_EXHAUSTED: both ends report class 0x06, and a torus that becomes degraded is reported a third time
(R13, R19). CONGESTION_EPISODE: one episode of a point is counted until it ends (R456). CE_RATE: a window above CE_LIMIT is reported once, and may be
again after it has fallen back (R462). FAULT_REPORT: counted by class and severity (R459). REGION_SWITCH_QUIESCENT: a pool that balances changes nothing,
any other is reported as 0x05 (R472). RECLAIM: bad operands end it; else every port to the chip is off and disabled, its held items are
dropped, and RESULT has the credits in its low half (R475). -/
def Obligations.LossesAreCountedAndReclaimed : Prop :=
  (∀ (s : State) (i : Nat), s.canon = true → i < 90 →
    let b := if s.flt.bridges.contains i then s.flt.bridges else s.flt.bridges ++ [i]
    ∃ t, exec (.bridgeRetryExhausted i) s = .next t ∧ t.flt.bridges = b ∧ t.flt.degraded = (s.flt.degraded || torusDegraded b) ∧
      Rose s t (Reg.FLT_CLASS_CNT 0x06) Fld.FLT_CLASS_CNT_COUNT (if torusDegraded b && !s.flt.degraded then 3 else 2) ∧
      SameRegs s t (reportRegs 0x06) ∧ Only Parts.report s t) ∧
  (∀ (s : State) (level die point tc : Nat), s.canon = true → level < 4 → dieAssigned die = true →
    (s.flt.congest.contains (level, die, point, tc) = false → ∃ t, exec (.congestionEpisode level die point tc) s = .next t ∧
      t.flt.congest = s.flt.congest ++ [(level, die, point, tc)] ∧ Rose s t Reg.FLT_CONG_CNT (congField level) 1 ∧
      SameRegs s t [Reg.FLT_CONG_CNT, Reg.EVR_HEAD_SEQ, Reg.EVR_DROPPED] ∧ Only { regs := true, trf := true, flt := true, journal := true } s t) ∧
    (s.flt.congest.contains (level, die, point, tc) = true → exec (.congestionEpisode level die point tc) s = .next s)) ∧
  (∀ (s : State) (level die point tc : Nat),
    ∃ t, exec (.congestionEpisodeEnd level die point tc) s = .next t ∧ (level, die, point, tc) ∉ t.flt.congest ∧
      (∀ e, e ≠ (level, die, point, tc) → (e ∈ t.flt.congest ↔ e ∈ s.flt.congest)) ∧ Only { flt := true } s t) ∧
  (∀ (s : State) (x : Nat), s.canon = true →
    let w := (tblGet (fun _ => []) s.flt.ceWin x).filter (fun t => s.clk.now < t + 3600000000000)
    let lim := s.cfg Reg.FLT_CFG Fld.FLT_CFG_CE_LIMIT
    (lim < w.length → tblGet falseAt s.flt.ceDone x = false → ∃ t, exec (.ceRate x) s = .next t ∧ Counted s t 0x08 ∧
      t.flt.ceDone = tblPut falseAt s.flt.ceDone x true ∧ SameRegs s t (reportRegs 0x08) ∧ Only Parts.report s t) ∧
    (lim < w.length → tblGet falseAt s.flt.ceDone x = true → ∃ t, exec (.ceRate x) s = .next t ∧ t.flt.ceDone = s.flt.ceDone ∧ Only { flt := true } s t) ∧
    (w.length ≤ lim → ∃ t, exec (.ceRate x) s = .next t ∧ t.flt.ceDone = tblPut falseAt s.flt.ceDone x false ∧ Only { flt := true } s t)) ∧
  (∀ (s : State) (cls sev die unit cell port ring seq layer op : Nat), s.canon = true → 1 ≤ cls → cls ≤ 0x15 → sev < 4 →
    dieAssigned die = true → s.flt.fatal = false →
    ∃ t, exec (.faultReport cls sev die unit cell port ring seq layer op) s = .next t ∧ Counted s t cls ∧
      (sev = 1 → Rose s t Reg.FLT_SEV_CNT Fld.FLT_SEV_CNT_CORRECTED 1) ∧ (sev = 2 → Rose s t Reg.FLT_SEV_CNT Fld.FLT_SEV_CNT_CONTAINED 1) ∧
      (sev = 3 → Rose s t Reg.FLT_SEV_CNT Fld.FLT_SEV_CNT_UNCONTAINED 1 ∧ t.flt.alert = true) ∧
      SameRegs s t (reportRegs cls) ∧ Only Parts.report s t) ∧
  (∀ (s : State) (r : Nat), s.canon = true → r < 8 →
    let w := s.reg (Reg.FLT_AUDIT (138 + r))
    (subMod 32 (Fld.FLT_AUDIT_ISSUED.get w) (Fld.FLT_AUDIT_RETURNED.get w) = 0 → exec (.regionSwitchQuiescent r) s = .next s) ∧
    (subMod 32 (Fld.FLT_AUDIT_ISSUED.get w) (Fld.FLT_AUDIT_RETURNED.get w) ≠ 0 → ∃ t, exec (.regionSwitchQuiescent r) s = .next t ∧ Counted s t 0x05 ∧
      SameRegs s t (reportRegs 0x05) ∧ Only Parts.report s t)) ∧
  (∀ (s : State) (n seq : Nat) (d : Started), s.findStarted n seq = some d → dOPCODE d.bytes = 0x5020 → d.done = none →
    (dPARAM d.bytes || !zeroBytes d.bytes 26 63) = true → ∃ t, exec (.reclaim n seq) s = .next t ∧ t.endOf n seq = some stBAD_OPERAND ∧
      Only { started := true } s t) ∧
  (∀ (s : State) (n seq : Nat) (d : Started), s.canon = true → s.findStarted n seq = some d → dOPCODE d.bytes = 0x5020 → d.done = none →
    dPARAM d.bytes = false → zeroBytes d.bytes 26 63 = true →
    let chip := leAt d.bytes 24 2
    let ps := s.portsTo chip
    ∃ t, exec (.reclaim n seq) s = .next t ∧ t.quar.items = s.quar.items.filter (·.src != chip) ∧
      (∀ p, p ∈ ps → t.portState p = pOFF ∧ t.portCfg p Fld.FAB_PORT_CFG_ENABLE = 0) ∧
      (∃ y o, t.findStarted n seq = some y ∧ y.done = some o ∧ o.status = stSUCCESS ∧
        o.result % 2 ^ 32 = (ps.map (fun p => ((s.port p).used.map (·.2)).sum)).sum % 2 ^ 32))

/-- Request timers (R465-R468). A region timer that first expires on a read re-issues it under a new tag; on a write, or for the second time, the descriptor ends
FAULTED and class 0x06 or 0x02 is reported. A fabric timer on a row request of a GATHER does the same; on a read of another module it is
re-issued under a new tag, and a second expiry, or one on a write, drops it, reports it, and a master of this module gets zeros, poisoned for a read. A module timer takes
the function of a started descriptor from RUN to DRAIN, or to STOPPED when its DRAIN_LIMIT is 0, and reports it. -/
def Obligations.RequestTimersReissueOnce : Prop :=
  (∀ (s : State) (n seq die target : Nat) (lower : Bool) (d : Started), s.findStarted n seq = some d → d.done = none →
    dieAssigned die = true → dieAssigned target = true → s.flt.timed.find? (isTimed 0 n seq die target) = none →
    ∃ t, exec (.regionTimerExpire n seq die target false lower) s = .next t ∧
      t.flt.timed = s.flt.timed ++
        [{ kind := 0, ring := n, seq := seq, die := die, target := target, tag := s.fab.nextTag, lower := lower || s.pathDown die target,
           since := s.clk.now }] ∧
      t.fab.nextTag = (s.fab.nextTag + 1) % 2 ^ 32 ∧ Only { fab := true, flt := true } s t) ∧
  (∀ (s : State) (n seq die target : Nat) (write lower : Bool) (d : Started), s.canon = true → s.findStarted n seq = some d → d.done = none →
    dieAssigned die = true → dieAssigned target = true →
    let low := lower || s.pathDown die target
    (s.flt.timed.find? (isTimed 0 n seq die target) = none → write = true →
      ∃ t, exec (.regionTimerExpire n seq die target write lower) s = .next t ∧ t.endOf n seq = some stFAULTED ∧ Counted s t (timeoutClass low)) ∧
    (∀ x, s.flt.timed.find? (isTimed 0 n seq die target) = some x →
      ∃ t, exec (.regionTimerExpire n seq die target write lower) s = .next t ∧ t.endOf n seq = some stFAULTED ∧
        Counted s t (timeoutClass (low || x.lower)))) ∧
  (∀ (s : State) (tag : Nat) (lower : Bool) (g : GatherRun) (p : GPos) (d : Started), s.canon = true → s.rowOfTag tag = some (g, p) →
    s.findStarted g.ring g.seq = some d → d.done = none →
    let low := lower || s.routeLost g.region p.chip
    (s.flt.timed.any (fun t => t.kind == 1 && t.tag == p.tag) = true → ∃ t, exec (.fabricTimerExpire tag lower) s = .next t ∧
      t.endOf g.ring g.seq = some stFAULTED ∧ Counted s t (timeoutClass low)) ∧
    (s.flt.timed.any (fun t => t.kind == 1 && t.tag == p.tag) = false → s.hasRoute g.region p.chip = true →
      ∃ t, exec (.fabricTimerExpire tag lower) s = .next t ∧
      (∃ x : Timed, t.flt.timed = s.flt.timed ++ [x] ∧ x.kind = 1 ∧ x.ring = g.ring ∧ x.seq = g.seq ∧ x.tag = s.fab.nextTag ∧ x.lower = lower) ∧
      t.started = s.started)) ∧
  (∀ (s : State) (tag : Nat) (lower : Bool) (x : RemRead), s.canon = true → s.rowOfTag tag = none → s.fab.reads.find? (·.tag == tag) = some x →
    let low := lower || s.routeLost (s.entry x.who) (x.addr / 2 ^ 48)
    (x.data = [] → s.flt.timed.any (fun t => t.kind == 1 && t.tag == tag) = false → ∃ t, exec (.fabricTimerExpire tag lower) s = .next t ∧
      t.fab.reads = s.fab.reads.filter (·.tag != tag) ++ [{ x with tag := s.fab.nextTag, since := t.clk.now }] ∧
      (∃ y : Timed, t.flt.timed = s.flt.timed ++ [y] ∧ y.kind = 1 ∧ y.tag = s.fab.nextTag ∧ y.lower = low) ∧
      Only { regs := true, clk := true, fab := true, tor := true, flt := true } s t) ∧
    (x.data ≠ [] ∨ s.flt.timed.any (fun t => t.kind == 1 && t.tag == tag) = true →
      (match x.who with | .remote .. => False | .tmp .. => False | _ => True) → ∃ t, exec (.fabricTimerExpire tag lower) s = .next t ∧
      t.fab.reads = s.fab.reads.filter (·.tag != tag) ∧ Out.readReply x.who x.addr (List.replicate x.len 0#8) x.data.isEmpty ∈ t.out ∧
      Counted s t (timeoutClass low) ∧ SameRegs s t (reportRegs (timeoutClass low)))) ∧
  (∀ (s : State) (n seq : Nat) (d : Started), s.canon = true → s.findStarted n seq = some d → d.done = none → d.fn < 0x100 →
    let lim := s.fget (Reg.MOD_FN d.fn) Fld.MOD_FN_DRAIN_LIMIT
    ∃ t, exec (.moduleTimerExpire n seq) s = .next t ∧
      (s.fnState d.fn = fnRUN ∨ s.fnState d.fn = fnDRAIN → t.fnState d.fn = if lim = 0 then fnSTOPPED else fnDRAIN) ∧
      (s.fnState d.fn ≠ fnRUN → s.fnState d.fn ≠ fnDRAIN → t.fnState d.fn = s.fnState d.fn) ∧
      (lim ≠ 0 → Counted s t (timeoutClass (s.flt.timed.any (fun t => t.ring == n && t.seq == seq && t.lower)))))

/-- The hang detector (R484-R494). WAITFOR_SAMPLE keeps the edges of the graph; a cycle all of whose edges stood in the last sample is reported as class
0x03 and named in HANG_STATUS and HANG_SEQ, which keep a first declaration and count later ones; its victim leaves RUN, and a victim ring no
longer holds its blocked descriptor. EGRESS_STALL and PROBE_RESEND_TIMER send the probe of a queue whose head has no credit, again under the same
PROBE_ID. HANG_PROBE: at its origin with the same head still blocked, the cycle is declared and the head discarded; elsewhere it goes on through every
stalled queue fed by that port, with HOPS one more, up to HOPS 15. -/
def Obligations.HangsAreFoundNamedAndBroken : Prop :=
  (∀ (s : State), s.wfOn = true → findCycle (s.waits.filter (fun e => s.hang.edges.contains e)) = none →
    ∃ t, exec .waitforSample s = .next t ∧ t.hang = { s.hang with edges := s.waits } ∧ Only { hang := true } s t) ∧
  (∀ (s : State) (c : List Wait) (v : Wait), s.canon = true → s.wfOn = true →
    findCycle (s.waits.filter (fun e => s.hang.edges.contains e)) = some c → s.victim c = some v → v.1 < 0x300 → v.2.2.1 < 256 →
    ∃ t, exec .waitforSample s = .next t ∧ t.hang.edges = s.waits ∧ Counted s t 0x03 ∧ t.fget Reg.MOD_HANG_STATUS Fld.MOD_HANG_STATUS_VALID = 1 ∧
      t.fnState v.1 ≠ fnRUN ∧
      (s.fnState v.1 = fnRUN → isRingEdge v = true → v.1 = sqFn v.2.2.1 → (t.sqSt v.2.2.1).fetched.any (·.seq == v.2.2.2) = false) ∧
      (s.fget Reg.MOD_HANG_STATUS Fld.MOD_HANG_STATUS_VALID = 0 → t.fget Reg.MOD_HANG_STATUS Fld.MOD_HANG_STATUS_COUNT = 1 ∧
        t.fget Reg.MOD_HANG_STATUS Fld.MOD_HANG_STATUS_FUNCTION = v.1 ∧ t.fget Reg.MOD_HANG_STATUS Fld.MOD_HANG_STATUS_LEN = min c.length 15 ∧
        t.fget Reg.MOD_HANG_STATUS Fld.MOD_HANG_STATUS_RING = v.2.2.1 ∧ t.fget Reg.MOD_HANG_SEQ Fld.MOD_HANG_SEQ_RING_SEQ = v.2.2.2 % 2 ^ 32) ∧
      (s.fget Reg.MOD_HANG_STATUS Fld.MOD_HANG_STATUS_VALID = 1 → Rose s t Reg.MOD_HANG_STATUS Fld.MOD_HANG_STATUS_COUNT 1 ∧
        t.reg Reg.MOD_HANG_SEQ = s.reg Reg.MOD_HANG_SEQ)) ∧
  (∀ (s : State) (p vc cls : Nat) (q : Queued), tblWf portDefault s.fab.ports = true → s.wfOn = true → s.blockedHead p vc cls = some q →
    let old := s.hang.probes.find? (fun x => x.isFor p vc cls && x.pkt == q.pkt && x.since == q.since)
    let id := (old.map (·.id)).getD s.hang.probeNo
    ∃ t e, exec (.egressStall p vc cls) s = .next t ∧ q.since + s.stallNs ≤ t.clk.now ∧
      (t.port p).queue = tblPut noQueue (s.port p).queue (pairKey 0 0) (tblGet noQueue (s.port p).queue (pairKey 0 0) ++ [e]) ∧ e.pkt.kind = 0x3A ∧
      e.pkt.body = probeBody (s.fget Reg.MOD_CHIP_NUMBER ⟨15, 0⟩) p vc cls 0 id ∧
      t.hang.probes = s.hang.probes.filter (fun y => !(y.isFor p vc cls)) ++
        [{ port := p, vc := vc, cls := cls, id := id, pkt := q.pkt, since := q.since, sent := t.clk.now }] ∧
      t.hang.probeNo = (if old.isSome then s.hang.probeNo else (s.hang.probeNo + 1) % 2 ^ 32) ∧ Only { clk := true, fab := true, hang := true } s t) ∧
  (∀ (s : State) (p vc cls : Nat) (q : Queued) (x : Probe), tblWf portDefault s.fab.ports = true → s.wfOn = true → s.blockedHead p vc cls = some q →
    s.hang.probes.find? (fun x => x.isFor p vc cls) = some x →
    (x.pkt = q.pkt ∧ x.since = q.since → ∃ t e, exec (.probeResendTimer p vc cls) s = .next t ∧ x.sent + s.stallNs / 2 ≤ t.clk.now ∧
      (t.port p).queue = tblPut noQueue (s.port p).queue (pairKey 0 0) (tblGet noQueue (s.port p).queue (pairKey 0 0) ++ [e]) ∧ e.pkt.kind = 0x3A ∧
      e.pkt.body = probeBody (s.fget Reg.MOD_CHIP_NUMBER ⟨15, 0⟩) p vc cls 0 x.id ∧ t.hang.probeNo = s.hang.probeNo ∧
      Only { clk := true, fab := true, hang := true } s t) ∧
    (¬(x.pkt = q.pkt ∧ x.since = q.since) → exec (.probeResendTimer p vc cls) s = .next s)) ∧
  (∀ (s s1 : State) (p : Nat) (k : Packet), p < 48 → k.kind = 0x3A → tblWf portDefault s.fab.ports = true → s.takeInbox p k = some s1 → s1.wfOn = true →
    s1.chip ≠ some (leAt k.body 0 2) →
    let s2 := (s1.clearMgmt (p / 6) k).1
    (15 ≤ leAt k.body 4 1 → exec (.hangProbe p k) s = .next s2) ∧
    (leAt k.body 4 1 < 15 → ∃ t, exec (.hangProbe p k) s = .next t ∧ Only { regs := true, fab := true } s t ∧
      (∀ q, q ∈ s2.onward p (leAt k.body 3 1 % 8) → tblWf noQueue (s1.port q).queue = true → ∃ e, e ∈ tblGet noQueue (t.port q).queue (pairKey 0 0) ∧ e.pkt.kind = 0x3A ∧
        e.pkt.body = probeBody (leAt k.body 0 2) (leAt k.body 2 1) (leAt k.body 3 1 % 8) (leAt k.body 3 1 / 8 % 2) (leAt k.body 4 1 + 1)
          (leAt k.body 8 4)) ∧
      (∀ q, q ∉ s2.onward p (leAt k.body 3 1 % 8) → t.port q = s1.port q))) ∧
  (∀ (s s1 : State) (p : Nat) (k : Packet) (q : Queued) (x : Probe), s.canon = true → p < 48 → k.kind = 0x3A → tblWf portDefault s.fab.ports = true →
    s.takeInbox p k = some s1 → s1.wfOn = true → s1.chip = some (leAt k.body 0 2) →
    let o := leAt k.body 2 1
    let vc := leAt k.body 3 1 % 8
    let cls := leAt k.body 3 1 / 8 % 2
    s1.blockedHead o vc cls = some q → s1.hang.probes.find? (fun x => x.isFor o vc cls && x.id == leAt k.body 8 4) = some x →
    (x.pkt = q.pkt ∧ x.since = q.since → ∃ t, exec (.hangProbe p k) s = .next t ∧ Counted s t 0x03 ∧
      (t.port o).queue = tblPut noQueue (s1.port o).queue (pairKey vc cls) ((tblGet noQueue (s1.port o).queue (pairKey vc cls)).drop 1) ∧
      t.fget Reg.MOD_HANG_STATUS Fld.MOD_HANG_STATUS_VALID = 1 ∧
      (s.fget Reg.MOD_HANG_STATUS Fld.MOD_HANG_STATUS_VALID = 0 → t.fget Reg.MOD_HANG_STATUS Fld.MOD_HANG_STATUS_PORT = o ∧
        t.fget Reg.MOD_HANG_STATUS Fld.MOD_HANG_STATUS_RING = 0xFF ∧ t.fget Reg.MOD_HANG_STATUS Fld.MOD_HANG_STATUS_FUNCTION = 0x30 + o / 6) ∧
      Only (Parts.report.or { fab := true }) s t) ∧
    (¬(x.pkt = q.pkt ∧ x.since = q.since) → exec (.hangProbe p k) s = .next (s1.clearMgmt (p / 6) k).1))

/-- What starts a reset (R495-R505, R514). A RESET descriptor: bad operands end it; LEVEL 1 runs until the reset ends; LEVEL 2 and 3 complete before. A RESET_CMD
without the management attribute is rejected; with it, its level starts unless that level or a higher one runs. A FATAL report starts a module recovery. The
time limits start the next level, ending the LEVEL 1 descriptors FAULTED. A compute reset stops the array function with a new GEN, clears the fences and
holds the dies; a module recovery stops every function but 0x50 and 0x51 and opens every HBM tag. A cold reset leaves every register but those
of R764 at its reset value and goes to step 2; MOD_RESET# holds it until it is released. -/
def Obligations.ResetsStartByTheirTriggers : Prop :=
  (∀ (s : State) (n seq : Nat) (d : Started), s.findStarted n seq = some d → dOPCODE d.bytes = 0x5030 → d.begun = false → d.done = none →
    let level := leAt d.bytes 24 1
    let bad := dPARAM d.bytes || level == 0 || decide (3 < level) || bitsOf (leAt d.bytes 25 1) 7 1 != 0 || !zeroBytes d.bytes 26 63
    (bad = true → ∃ t, exec (.reset n seq) s = .next t ∧ t.endOf n seq = some stBAD_OPERAND ∧ Only { started := true } s t) ∧
    (bad = false → s.canon = true → s.mayReset → s.resetLevel < level → ∃ t, exec (.reset n seq) s = .next t ∧ ResetBegun s t level 0) ∧
    (bad = false → level = 1 → s.canon = true → s.mayReset → s.hang.reset = none → ∃ t r, exec (.reset n seq) s = .next t ∧
      t.hang.reset = some r ∧ r.descs = [(n, seq)])) ∧
  (∀ (s : State) (dump : Bool), s.canon = true →
    (∃ t, exec (.resetCmdCompute false dump) s = .next t ∧ Counted s t 0x11 ∧ Only Parts.report s t) ∧
    (∃ t, exec (.resetCmdModule false dump) s = .next t ∧ Counted s t 0x11 ∧ Only Parts.report s t) ∧
    (∃ t, exec (.resetCmdCold false dump) s = .next t ∧ Counted s t 0x11 ∧ Only Parts.report s t) ∧
    (s.mayReset →
      (s.resetLevel < 1 → ∃ t, exec (.resetCmdCompute true dump) s = .next t ∧ ResetBegun s t 1 0) ∧
      (s.resetLevel < 2 → ∃ t, exec (.resetCmdModule true dump) s = .next t ∧ ResetBegun s t 2 0) ∧
      (s.resetLevel < 3 → ∃ t, exec (.resetCmdCold true dump) s = .next t ∧ ResetBegun s t 3 0) ∧
      (1 ≤ s.resetLevel → exec (.resetCmdCompute true dump) s = .next s) ∧ (2 ≤ s.resetLevel → exec (.resetCmdModule true dump) s = .next s) ∧ (3 ≤ s.resetLevel → exec (.resetCmdCold true dump) s = .next s))) ∧
  (∀ (s : State) (cls die unit cell port ring seq layer op : Nat), s.canon = true → s.mayReset → s.resetLevel < 2 → 1 ≤ cls → cls ≤ 0x15 →
    cls ≠ 0x0B → cls ≠ 0x0C → dieAssigned die = true → ∃ t, exec (.faultReport cls 4 die unit cell port ring seq layer op) s = .next t ∧ ResetBegun s t 2 3) ∧
  (∀ (s : State) (r : ResetRun), s.canon = true → s.mayReset → s.hang.reset = some r →
    (r.level = 1 → ∃ t, exec .computeResetTimeout s = .next t ∧ r.start + 40000000 ≤ t.clk.now ∧ ResetBegun s t 2 4) ∧
    (r.level = 2 → ∃ t, exec .moduleRecoveryTimeout s = .next t ∧ r.start + 6000000000 ≤ t.clk.now ∧ ResetBegun s t 3 4) ∧
    (∀ d x, r.level = 1 → d ∈ r.descs → s.findStarted d.1 d.2 = some x → (∀ y, y ∈ s.started → y.ring = d.1 → y.seq = d.2 → y = x) → x.fn = 0x51 →
      x.done = none → dOPCODE x.bytes = 0x5030 → ∃ t, exec .computeResetTimeout s = .next t ∧ t.endOf d.1 d.2 = some stFAULTED)) ∧
  (∀ (s : State) (dump : Bool), s.canon = true → s.mayReset → s.hang.reset = none →
    ∃ t r, exec (.resetCmdCompute true dump) s = .next t ∧ t.hang.reset = some r ∧ r.level = 1 ∧ r.start = s.clk.now ∧ t.fnState 0 = fnSTOPPED ∧
      t.gen 0 ≠ s.gen 0 ∧ t.reg Reg.ARR_FENCE_BLOCK = 0#64 ∧ (∀ b, b < 64 → b ∈ t.dark) ∧
      (∀ a, a < 64 * 0x8000000 → t.mem.byte (2 ^ 40 + a) = 0#8)) ∧
  (∀ (s : State) (dump : Bool), s.canon = true → s.mayReset → s.resetLevel < 2 →
    ∃ t r, exec (.resetCmdModule true dump) s = .next t ∧ t.hang.reset = some r ∧ r.level = 2 ∧ r.start = s.clk.now ∧
      (∀ f, f ∈ recoveryFns → t.fnState f = fnSTOPPED) ∧ t.fnState 0x51 = s.fnState 0x51 ∧ (∀ b, b < 64 → b ∈ t.dark) ∧
      (∀ e, e ∈ t.mem.hbm → ¬(0xFE8000000 ≤ e.1 % 2 ^ 36 ∧ e.1 % 2 ^ 36 < 0xFF0000000)) ∧
      (∀ p, p < 48 → s.portCfg p Fld.FAB_PORT_CFG_ENABLE = 1 → s.portState p ≠ pOFF → t.portState p = pTRAINING)) ∧
  (∀ (s : State) (dump : Bool), s.canon = true → s.mayReset → s.resetLevel < 3 →
    ∃ t, exec (.resetCmdCold true dump) s = .next t ∧ t.stepNo = 2 ∧ t.started = [] ∧ t.inForce = [] ∧ t.pending = s.pending ∧
      (∀ off, off ∉ keptRegs → off ≠ Reg.PWR_START_STATUS → t.reg off = regReset off) ∧
      (s.dumpOn 3 dump = false → t.mem.hbm = s.mem.hbm)) ∧
  (∀ (s : State), s.canon = true →
    (s.pwr.tripAt = none → s.fed = true → s.resetLevel < 3 → ∃ t r, exec .modResetAssert s = .next t ∧ ResetBegun s t 3 1 ∧
      t.hang.reset = some r ∧ r.held = true ∧ t.stepNo = 0 ∧ t.mem.hbm = s.mem.hbm) ∧
    (∀ r, s.hang.reset = some r → r.level = 3 → ∃ t, exec .modResetAssert s = .next t ∧ t.hang.reset = some { r with held := true } ∧
      Only { hang := true } s t) ∧
    (∀ r, s.hang.reset = some r → r.held = true → ∃ t, exec .modResetDeassert s = .next t ∧ t.hang.reset = some { r with held := false } ∧
      t.stepNo = (if s.stepNo = 0 then 2 else s.stepNo) ∧ Only { regs := true, hang := true, pwr := true } s t))

/-- The course of a reset (R483, R491-R513). LANTERN_BEAT: the first beat after a reset releases its block; BLOCK_BEAT_TIMEOUT fences one that gave none. LANTERN_MISS_TIMER
counts a miss at the end of its interval; the third loses a block, which is fenced, held and reported; a lost standby is reset and reported; the feed of a lost P die trips when ACTIVE and
is ABSENT when STANDBY (R630); with both
Trelforts lost P0 starts a cold reset. RESET_END: with every block heard and no enabled port in training, the module is in SERVICE, the LEVEL 1
descriptors end SUCCESS, and AUTO_RESTART takes the array function back to RUN. SUMMARY_FLASH_COPY copies the summary into the oldest flash slot.
PERST_ASSERT resets the PCIe core and stops every ring in host memory. -/
def Obligations.ResetsRunToTheirEnd : Prop :=
  (∀ (s : State) (src : Nat), (src < 64 ∨ (0x50 ≤ src ∧ src ≤ 0x53)) →
    (s.hang.reset = none → ∃ t, exec (.lanternBeat src) s = .next t ∧ t.hang =
      { s.hang with beatAt := tblPut zeroAt s.hang.beatAt src s.clk.now, misses := tblPut zeroAt s.hang.misses src 0 } ∧ Only { hang := true } s t) ∧
    (∀ r, s.hang.reset = some r → src < 64 → r.level ≤ 2 → r.beaten.contains src = false → ∃ t, exec (.lanternBeat src) s = .next t ∧
      t.hang.reset = some { r with beaten := r.beaten ++ [src] } ∧ src ∉ t.dark ∧ Only { dark := true, hang := true } s t)) ∧
  (∀ (s : State) (b : Nat) (r : ResetRun), s.canon = true → s.hang.reset = some r → r.level ≤ 2 → b < 64 → r.beaten.contains b = false →
    ∃ t, exec (.blockBeatTimeout b) s = .next t ∧ t.hang.reset = some { r with beaten := r.beaten ++ [b] } ∧ b ∉ t.dark ∧
      t.rbit Reg.ARR_FENCE_BLOCK b = true ∧ SameRegs s t [Reg.ARR_FENCE_BLOCK] ∧ Only { regs := true, dark := true, hang := true } s t) ∧
  (∀ (s : State) (src : Nat) (pickup : Bool), s.canon = true → s.watched src = true →
    let n := tblGet zeroAt s.hang.misses src + 1
    (n ≠ 3 → ∃ t, exec (.lanternMissTimer src pickup) s = .next t ∧ t.hang.misses = tblPut zeroAt s.hang.misses src n ∧
      tblGet zeroAt s.hang.beatAt src + 10000000 ≤ t.clk.now ∧ Only { clk := true, hang := true } s t) ∧
    (n = 3 → src < 64 → ∃ t, exec (.lanternMissTimer src pickup) s = .next t ∧ t.rbit Reg.ARR_FENCE_BLOCK src = true ∧ t.rbit Reg.MOD_LANTERN_MISS src = true ∧
      src ∈ t.dark ∧ Counted s t 0x04) ∧
    (n = 3 → src = 0x50 ∨ src = 0x51 → s.trfLost (1 - (src - 0x50)) = true → tblWf zeroAt s.hang.misses = true → s.pwr.tripAt = none → s.fed = true →
      s.resetLevel < 3 → s.pwr.colds < 3 → ∃ t, exec (.lanternMissTimer src pickup) s = .next t ∧ ResetBegun s t 3 2 ∧ t.pwr.colds = s.pwr.colds + 1) ∧
    (n = 3 → src = 0x50 ∨ src = 0x51 → s.trfLost (1 - (src - 0x50)) = false → tblWf zeroAt s.hang.misses = true → s.primary ≠ some (src - 0x50) →
      s.trelfort.noStandby = false → ∃ t, exec (.lanternMissTimer src pickup) s = .next t ∧ t.role (src - 0x50) = rBOOT ∧ Counted s t 0x04) ∧
    (∀ f, n = 3 → f < 2 → src = 0x52 + f →
      (s.feedState f = fSTANDBY → ∃ t, exec (.lanternMissTimer src pickup) s = .next t ∧ t.feedState f = fABSENT ∧
        t.feedState (1 - f) = s.feedState (1 - f)) ∧
      (s.feedState f = fACTIVE → s.feedState (1 - f) = fSTANDBY → pickup = true → ∃ t, exec (.lanternMissTimer src pickup) s = .next t ∧
        t.feedState f = fFAILED ∧ t.feedState (1 - f) = fACTIVE ∧ Counted s t 0x0B) ∧
      (s.feedState f ≠ fACTIVE → s.feedState f ≠ fSTANDBY → ∃ t, exec (.lanternMissTimer src pickup) s = .next t ∧
        t.hang.misses = tblPut zeroAt s.hang.misses src n ∧ Only { clk := true, hang := true } s t))) ∧
  (∀ (s : State) (r : ResetRun), s.canon = true → s.hang.reset = some r → r.level = 1 ∨ r.level = 2 → (∀ b, b < 64 → r.beaten.contains b = true) →
    (r.level = 2 → ∀ p, p < 48 → s.portCfg p Fld.FAB_PORT_CFG_ENABLE = 1 → s.portState p ≠ pTRAINING) →
    ∃ t, exec .resetEnd s = .next t ∧ t.hang.reset = none ∧ t.fget Reg.MOD_RESET_STATUS Fld.MOD_RESET_STATUS_PHASE = 1 ∧
      t.fget Reg.MOD_RESET_STATUS Fld.MOD_RESET_STATUS_IN_PROGRESS = 0 ∧
      (∀ d x, d ∈ r.descs → s.findStarted d.1 d.2 = some x → x.done = none → t.endOf d.1 d.2 = some stSUCCESS) ∧
      (s.cfg Reg.MOD_RESET_CFG Fld.MOD_RESET_CFG_AUTO_RESTART = 0 → ∀ f, f < 0x300 → t.fnState f = s.fnState f) ∧
      (s.cfg Reg.MOD_RESET_CFG Fld.MOD_RESET_CFG_AUTO_RESTART ≠ 0 → r.level = 1 → s.fnState 0 = fnSTOPPED →
        (s.setFn 0 fnCHANGE).badSetting 0 = none → t.fnState 0 = fnRUN)) ∧
  (∀ (s : State) (k : Nat), s.canon = true → k < 2 → s.hang.toFlash.contains k = true →
    ∃ t, exec (.summaryFlashCopy k) s = .next t ∧ t.hang.toFlash = s.hang.toFlash.filter (· != k) ∧
      rdFlash (t.flash k) (0x1900000 + 0x10000 * oldestSlot (s.flash k)) 0x10000 = rdTbl s.mem.trf (trfBase k + 0x2F0000) 0x10000 ∧
      t.flash (1 - k) = s.flash (1 - k) ∧ Only { flash := true, hang := true } s t) ∧
  (∀ (s : State), s.canon = true → ∃ t, exec .perstAssert s = .next t ∧ t.pcie = { perst := true } ∧
    (∀ n, n < 256 → s.cfg (Reg.RING_SQ_BASE n) Fld.RING_SQ_BASE_LOC = 0 → s.fnState (sqFn n) = fnRUN ∨ s.fnState (sqFn n) = fnDRAIN →
      t.fnState (sqFn n) = fnSTOPPED) ∧
    (∀ m, m < 256 → s.cfg (Reg.RING_CQ_BASE m) Fld.RING_CQ_BASE_LOC = 0 → s.fnState (cqFn m) = fnRUN ∨ s.fnState (cqFn m) = fnDRAIN →
      t.fnState (cqFn m) = fnSTOPPED)) ∧
  (∀ (s : State), ∃ t, exec .perstDeassert s = .next t ∧ t.pcie = { s.pcie with perst := false } ∧ Only { pcie := true } s t)

/-- The Caddy log (R515-R528). CADDY_RECORD: bad operands end it, a pending page of the loss buffer makes it wait, a failed check ends it FAULTED. A step that is not
logged is written to its slot and becomes LAST_STEP; with copies it waits for them. A logged step is compared: other fields are BAD_OPERAND, another digest is FAULTED and
reported as class 0x0F, both counted in MISMATCH; an equal one ends SUCCESS with the digest. CADDY_COPY from another sender is answered with
OUTCOME 2; from the sender of its half it is stored in the buddy area. CADDY_ACK notes an answer; BUDDY_WAIT_EXPIRE and the last answer end the record:
FAULTED when it differs or no copy was written, else SUCCESS, each copy missed counted. -/
def Obligations.CaddyRecordsAreLoggedAndCopied : Prop :=
  (∀ (z : State) (n seq : Nat) (ecc : EccFinds) (d : Started), let s := z.eccAll ecc
    s.canon = true → s.unbegun n seq 0x4001 = some d → s.inTurn caddyOps d = true →
    (s.caddyBad d = true → ∃ t, exec (.caddyRecord n seq ecc) z = .next t ∧ t.endOf n seq = some stBAD_OPERAND ∧ Only { started := true } s t) ∧
    (s.caddyBad d = false → s.pendingIn (leAt d.bytes 48 8) (leAt d.bytes 40 4) = true → exec (.caddyRecord n seq ecc) z = .next s) ∧
    (∀ s1, s.caddyBad d = false → s.pendingIn (leAt d.bytes 48 8) (leAt d.bytes 40 4) = false →
      s.awareCheck (ctxOf d.ring d.bytes s.trfDie 0x30) (leAt d.bytes 48 8) (leAt d.bytes 40 4) none none = (s1, none) →
      let t := dSTEP d.bytes
      let g := crc64 (s1.gread (leAt d.bytes 48 8) (leAt d.bytes 40 4))
      let old := s1.gread (s1.caddySlot t) 4096
      let same := (d.param.drop 32).take 16 == (old.drop 32).take 16 && leAt old 12 4 == s1.ruleVer
      (caddyValid old t (leAt d.param 4 4) = true → ∃ t1, exec (.caddyRecord n seq ecc) z = .next t1 ∧
        t1.fget Reg.CONT_CADDY_STATUS Fld.CONT_CADDY_STATUS_LAST_STEP = t % 2 ^ 32 ∧ t1.mem.hbm = s1.mem.hbm ∧ t1.fab = s1.fab ∧
        (same = false → t1.endOf n seq = some stBAD_OPERAND ∧ Rose s1 t1 Reg.CONT_CADDY_STATUS Fld.CONT_CADDY_STATUS_MISMATCH 1) ∧
        (same = true → caddyDigest old ≠ g → t1.endOf n seq = some stFAULTED ∧ Counted s1 t1 0x0F ∧
          Rose s1 t1 Reg.CONT_CADDY_STATUS Fld.CONT_CADDY_STATUS_MISMATCH 1) ∧
        (same = true → caddyDigest old = g → ∃ y o, t1.findStarted n seq = some y ∧ y.done = some o ∧ o.status = stSUCCESS ∧ o.result = g)) ∧
      (∀ a, caddyValid old t (leAt d.param 4 4) = false → s1.gloc (s1.caddySlot t) = .own (.hbm a) → s1.sumpHolds a 4096 = false →
        s1.behindHeld a 4096 = false → s1.behindRead trfMaster s1.order (burstsOf a 4096) = false → ∃ t1, exec (.caddyRecord n seq ecc) z = .next t1 ∧ t1.mem.read a 4096 = s1.caddyBytes d g ∧
        t1.fget Reg.CONT_CADDY_STATUS Fld.CONT_CADDY_STATUS_LAST_STEP = t % 2 ^ 32 ∧
        (s1.cfg Reg.CONT_CADDY_CFG Fld.CONT_CADDY_CFG_COPIES = 0 → t1.endOf n seq ≠ none ∧ t1.caddy = none) ∧
        (s1.cfg Reg.CONT_CADDY_CFG Fld.CONT_CADDY_CFG_COPIES ≠ 0 → t1.endOf n seq = none ∧ ∃ c, t1.caddy = some c ∧ c.ring = n ∧ c.seq = seq ∧
          c.step = t ∧ c.digest = g ∧ c.acks = List.replicate (s1.cfg Reg.CONT_CADDY_CFG Fld.CONT_CADDY_CFG_COPIES) none)))) ∧
  (∀ (s s1 : State) (k : Packet), s.canon = true → k.kind = 0x3C → s.take k = some s1 →
    (1 < k.addr ∨ k.src ≠ s1.buddySrc k.addr → exec (.caddyCopy k) s = .next (s1.answer 0 k 0x3D 0 (caddyAckBody (leAt k.body 0 4) k.addr 2))) ∧
    (∀ a, k.addr ≤ 1 → k.src = s1.buddySrc k.addr → k.body.length = 4096 → leAt k.body 4092 4 = cairn →
      s1.gloc (s1.buddySlot k.addr (leAt k.body 0 4)) = .own (.hbm a) → s1.sumpHolds a 4096 = false → s1.behindHeld a 4096 = false →
      s1.behindRead trfMaster s1.order (burstsOf a 4096) = false → ∃ t, exec (.caddyCopy k) s = .next t ∧ t.mem.read a 4096 = k.body)) ∧
  (∀ (s s1 : State) (k : Packet) (c : CaddyRun), k.kind = 0x3D → s.take k = some s1 → s.caddy = some c → c.step = leAt k.body 0 4 →
    k.src = s1.buddy (leAt k.body 4 1) → c.acks[leAt k.body 4 1]? = some none →
    let acks := listSet c.acks (leAt k.body 4 1) (some (leAt k.body 5 1))
    acks.all (·.isSome) = false → ∃ t, exec (.caddyAck k) s = .next t ∧ t.caddy = some { c with acks := acks } ∧ Only { fab := true, caddy := true } s t) ∧
  (∀ (s : State) (c : CaddyRun) (d : Started), s.canon = true → s.caddy = some c → s.findStarted c.ring c.seq = some d → d.done = none →
    let missed := (List.range c.acks.length).filter (fun k => !caddyWritten ((c.acks[k]?).getD none))
    ∃ t, exec .buddyWaitExpire s = .next t ∧ t.caddy = none ∧
      c.sentAt + s.cfg Reg.CONT_CADDY_CFG Fld.CONT_CADDY_CFG_BUDDY_WAIT_US * 1000 ≤ t.clk.now ∧
      Rose s t Reg.CONT_CADDY_STATUS Fld.CONT_CADDY_STATUS_BUDDY_MISS missed.length ∧
      t.endOf c.ring c.seq = some (if c.differs || c.acks.contains (some 1) || (!c.acks.isEmpty && missed.length == c.acks.length) then stFAULTED
        else stSUCCESS)) ∧
  (∀ (s s1 : State) (k : Packet) (c : CaddyRun) (d : Started), k.kind = 0x3D → s.take k = some s1 → s.caddy = some c → c.step = leAt k.body 0 4 →
    k.src = s1.buddy (leAt k.body 4 1) → c.acks[leAt k.body 4 1]? = some none → s.findStarted c.ring c.seq = some d → d.done = none →
    let acks := listSet c.acks (leAt k.body 4 1) (some (leAt k.body 5 1))
    acks.all (·.isSome) = true → c.differs = false → (∀ x, x ∈ acks → x = some 0) →
    ∃ t, exec (.caddyAck k) s = .next t ∧ t.caddy = none ∧ t.endOf c.ring c.seq = some stSUCCESS)

/-- SPREAD_APPLY (R530-R534), with nothing that it reads pending: a read that fails ends it FAULTED; bad operands, a chip without a plan and a plan that cannot be applied end BAD_OPERAND; a refusal changes nothing and carries its RESULT; else
the descriptor ends SUCCESS with the number of changed tables, APPLIED rises when one changed, and the lost chip is on the list after APPLY and off it
after RETURN. REBUILD (R540-R543): bad operands end it; with every stripe of the range rebuilt it ends SUCCESS with the counts of stripes and of
those that needed parity; a stripe that cannot be rebuilt ends it FAULTED with the stripe's number, reported as class 0x07; the pages not rebuilt are then indeterminate. -/
def Obligations.SpreadMapsAndRebuilds : Prop :=
  (∀ (z : State) (n seq : Nat) (ecc : EccFinds) (d : Started), let s := z.eccAll ecc
    s.canon = true → s.unbegun n seq 0x4010 = some d → s.inTurn caddyOps d = true → s.spreadReads.any (fun r => s.pendingIn r.1 r.2) = false →
    let sound := (foldChecks s (fun s r => s.poisonCheck (ctxOf d.ring d.bytes s.trfDie 0x30) r.1 r.2) s.spreadReads).2
    let lost := leAt d.bytes 24 2
    let mode := leAt d.bytes 26 1
    let bad := dPARAM d.bytes || decide (1 < mode) || !zeroBytes d.bytes 27 63
    (sound ≠ none → ∃ t, exec (.spreadApply n seq ecc) z = .next t ∧ t.endOf n seq = some stFAULTED) ∧
    (sound = none → bad = true ∨ s.planFor lost = none ∨ (∃ p, s.planFor lost = some p ∧ planBad p lost = true) →
      ∃ t, exec (.spreadApply n seq ecc) z = .next t ∧ t.endOf n seq = some stBAD_OPERAND ∧ Only { started := true } s t) ∧
    (∀ p, sound = none → bad = false → s.planFor lost = some p → planBad p lost = false →
      let sv := survivorsOf p
      let cs := s.tables.map (fun t => if mode = 0 then s.applyChange t.1 t.2 lost sv else s.returnChange t.1 t.2 lost sv)
      let m := (cs.filter (fun c => !c.sets.isEmpty)).length
      (∀ r, s.spreadRefused lost mode sv cs = some r → ∃ t y o, exec (.spreadApply n seq ecc) z = .next t ∧ t.findStarted n seq = some y ∧
        y.done = some o ∧ o.status = stREFUSED ∧ o.result = r ∧ Only { started := true } s t) ∧
      (s.spreadRefused lost mode sv cs = none → ∃ t y o, exec (.spreadApply n seq ecc) z = .next t ∧ t.findStarted n seq = some y ∧
        y.done = some o ∧ o.status = stSUCCESS ∧ o.result = m * 2 ^ 32 ∧ t.isLost lost = (mode == 0) ∧
        Rose s t Reg.CONT_SPREAD_STATUS Fld.CONT_SPREAD_STATUS_APPLIED (if m = 0 then 0 else 1)))) ∧
  (∀ (z : State) (n seq : Nat) (views : List (Option HolderView)) (ps : List PieceRead) (ecc : EccFinds) (d : Started), let s := z.eccAll ecc
    s.canon = true → s.unbegun n seq 0x4020 = some d →
    s.inTurn [0x4020] d = true → s.sump.cut = none →
    (s.rebuildBad d.bytes d.param = true → ∃ t, exec (.rebuild n seq views ps ecc) z = .next t ∧ t.endOf n seq = some stBAD_OPERAND ∧
      Only { started := true } s t) ∧
    (s.rebuildBad d.bytes d.param = false →
      let x := rebuildP d.param
      let sets := (List.range 10).map (fun h => s.rebuildSet x h ((views[h]?).getD none))
      let who : Master := .ledger x.region (originOfDesc d.ring d.seq d.bytes)
      let q0 := x.off / 524288
      let k := (x.off + x.len - 1) / 524288 + 1 - q0
      (∀ s1 m, rebuildAll x who (dSTEP d.bytes) sets ps s 0 ((List.range k).map (q0 + ·)) = (s1, none, m) →
        ∃ t y o, exec (.rebuild n seq views ps ecc) z = .next t ∧ t.findStarted n seq = some y ∧ y.done = some o ∧ o.status = stSUCCESS ∧
          o.result = k * 2 ^ 32 + m ∧ t.mem = s1.mem ∧ Rose s t Reg.CONT_REBUILD_STATUS Fld.CONT_REBUILD_STATUS_STRIPES k) ∧
      (∀ s1 q m, rebuildAll x who (dSTEP d.bytes) sets ps s 0 ((List.range k).map (q0 + ·)) = (s1, some q, m) →
        ∃ t y o, exec (.rebuild n seq views ps ecc) z = .next t ∧ t.findStarted n seq = some y ∧ y.done = some o ∧ o.status = stFAULTED ∧ o.result = q ∧
          Counted (s1.rebuildLoose x q) t 0x07 ∧ t.mem.hbm = (s1.rebuildLoose x q).mem.hbm)))

/-- The two erasures that REBUILD can bear (R538, R542): of eight data pieces of 65,536 bytes and their sums P and Q over GF(2^8), any two of the ten may be gone, and
solving the stripe from the others gives the eight data pieces again, byte for byte. -/
def Obligations.AnyTwoErasedPiecesComeBack : Prop :=
  ∀ (ds : List (List Byte)) (gone : List Nat), ds.length = 8 → (∀ d, d ∈ ds → d.length = pieceLen) →
    ((List.range 10).filter gone.contains).length ≤ 2 →
    solveStripe ((List.range 8).map (fun h => if gone.contains h then none else ds[h]?))
      (if gone.contains 8 then none else some (parityP ds)) (if gone.contains 9 then none else some (parityQ ds)) = some ds

/-- Cuts (R561-R576). CUT: bad operands end it, a conditional one that is not due ends SUCCESS, one that may not run ends REFUSED, one behind another waits, any other is taken with its eight
tokens. SUMP_COPY: an engine with no page left has finished; a page outside every range only loses its bit; a pending page waits; a page of a plain range that
passes its check is written to the delta area with its index entry; one that fails ends the cut. HELD_WRITE_RELEASE stores a held write. MANIFEST_SEAL
numbers and seals the cut, shows it in STATUS and STEPS, and the fold or the drain begins. FOLD_END leaves the cut in SHADOW_STEP and starts the drain, with each
holder that it misses counted; a delta page that fails its check ends the cut, and the Sump then holds none. FLOWSTONE_DRAIN_END ends it with every stripe
counted, FAULTED where a page failed. -/
def Obligations.CutsAreCopiedSealedAndFolded : Prop :=
  (∀ (s : State) (n seq : Nat) (d : Started), s.canon = true → s.unbegun n seq 0x4030 = some d →
    (dPARAM d.bytes = true → ∃ t, exec (.cut n seq) s = .next t ∧ t.endOf n seq = some stBAD_OPERAND ∧ Only { started := true } s t) ∧
    (dPARAM d.bytes = false → s.cutNotDue d.bytes = true → ∃ t, exec (.cut n seq) s = .next t ∧ t.endOf n seq = some stSUCCESS ∧ Only { started := true } s t) ∧
    (dPARAM d.bytes = false → s.cutNotDue d.bytes = false → s.cutRefused d.bytes = true → ∃ t, exec (.cut n seq) s = .next t ∧ t.endOf n seq = some stREFUSED ∧
      Only { started := true } s t) ∧
    (dPARAM d.bytes = false → s.cutNotDue d.bytes = false → s.cutRefused d.bytes = false → (s.sump.cut.isSome || s.sump.sealed.isSome) = true → exec (.cut n seq) s = .next s) ∧
    (dPARAM d.bytes = false → s.cutNotDue d.bytes = false → s.cutRefused d.bytes = false → s.sump.cut = none → s.sump.sealed = none →
      let full := s.fget Reg.CKP_STATUS Fld.CKP_STATUS_SHADOW_VALID == 0 || s.fget Reg.CKP_STATUS Fld.CKP_STATUS_FULL_NEXT == 1
      ∃ t c, exec (.cut n seq) s = .next t ∧ t.sump.cut = some c ∧ c.ring = n ∧ c.seq = seq ∧ c.step = dSTEP d.bytes ∧ c.jobId = leAt d.bytes 24 4 ∧
        c.full = full ∧ c.direct = (s.fget Reg.CKP_STATUS Fld.CKP_STATUS_SHADOW_VALID == 0) ∧ c.swapped = [] ∧ c.copied = 0 ∧
        t.sump.tokens = List.range 8 ∧ t.endOf n seq = none ∧
        Rose s t Reg.CKP_STATUS Fld.CKP_STATUS_FULL_CUTS (if full then 1 else 0) ∧ Only { regs := true, started := true, sump := true } s t)) ∧
  (∀ (z : State) (r : Nat) (ecc : EccFinds) (c : Cut), let s := z.eccAll ecc
    s.canon = true → r < 8 → s.sump.cut = some c → c.swapped.contains r = true → c.finished.contains r = false →
    s.fnState (0x12 + 4 * r) = fnRUN →
    (s.inactivePages r = [] → ∃ t, exec (.sumpCopy r ecc) z = .next t ∧ t.sump.cut = some { c with finished := c.finished ++ [r] } ∧
      t.fget (Reg.LDG_SUMP_STATUS r) Fld.LDG_SUMP_STATUS_PHASE = 0 ∧ Only { regs := true, sump := true } s t) ∧
    (∀ page ps, s.inactivePages r = page :: ps → s.protOfPage page = none → ∃ t, exec (.sumpCopy r ecc) z = .next t ∧ t.inactivePages r = ps ∧
      t.mem.hbm = s.mem.hbm ∧ Only { regs := true, dirty := true } s t) ∧
    (∀ page ps p, s.inactivePages r = page :: ps → s.protOfPage page = some p → (unitOf p page).any s.isPending = true →
      exec (.sumpCopy r ecc) z = .next s) ∧
    (∀ page ps p s1, s.inactivePages r = page :: ps → s.protOfPage page = some p → p.narrow = false → s.isPending page = false →
      let stack := page / 2 ^ 24
      let e := tblGet zeroAt s.sump.delta stack
      let ip := s.imageBase p + (page - p.page0)
      s.sumpCheck (sumpCtx stack) page = (s1, none) → c.direct = false → e < s.deltaRoom → ip < 2 ^ 64 →
      (s.deltaPage stack e + 4096) % 2 ^ 36 ≤ 0xFE8000000 → (s.deltaIndex stack e + 8) % 2 ^ 36 ≤ 0xFE8000000 → s.deltaPage stack e + 4096 ≤ 2 ^ 40 →
      ∃ t, exec (.sumpCopy r ecc) z = .next t ∧ t.mem.read (s.deltaPage stack e) 4096 = s.pageBytes page ∧
        leNat (t.mem.read (s.deltaIndex stack e) 8) = ip ∧ t.sump.delta = tblPut zeroAt s.sump.delta stack (e + 1) ∧
        t.sump.cut = some { c with copied := c.copied + 1 } ∧ t.started = s.started) ∧
    (∀ page ps p s1 cls, s.inactivePages r = page :: ps → s.protOfPage page = some p → p.narrow = false → s.isPending page = false →
      s.sumpCheck (sumpCtx (page / 2 ^ 24)) page = (s1, some cls) →
      ∃ t, exec (.sumpCopy r ecc) z = .next t ∧ t.sump.cut = none ∧ t.fget Reg.CKP_STATUS Fld.CKP_STATUS_FULL_NEXT = 1 ∧
        (∀ d, s.findStarted c.ring c.seq = some d → d.done = none → t.endOf c.ring c.seq = some stFAULTED))) ∧
  (∀ (z : State) (ecc : EccFinds) (w : HeldWrite) (i : Nat), let s := z.eccAll ecc
    s.canon = true → s.heldWr.zipIdx.find? (fun e => s.heldReady e.2 e.1) = some (w, i) → s.sump.cut = none → s.waitRd = [] →
    ∃ t, exec (.heldWriteRelease ecc) z = .next t ∧ t.heldWr = s.heldWr.take i ++ s.heldWr.drop (i + 1) ∧
      (w.data ≠ [] → w.key % 4096 + w.data.length ≤ 4096 → w.key < 2 ^ 40 → t.mem.read w.key w.data.length = w.data) ∧
      Only (Parts.memory.or { heldWr := true, arr := true }) s t) ∧
  (∀ (z : State) (views : List (Option HolderView)) (ecc : EccFinds) (c : Cut), let s := z.eccAll ecc
    s.canon = true → s.sump.cut = some c → c.finished.length = 8 → s.primary.isSome = true →
    ∃ t, exec (.manifestSeal views ecc) z = .next t ∧ t.sump.cut = none ∧ t.sump.sealed = some c ∧ t.sump.ordinal = s.sump.ordinal + 1 ∧
      t.fget Reg.CKP_STATUS Fld.CKP_STATUS_LAST_CUT = c.step % 2 ^ 32 ∧ t.fget Reg.CKP_STATUS Fld.CKP_STATUS_SHADOW_VALID = 1 ∧
      (c.full = true → t.fget Reg.CKP_STATUS Fld.CKP_STATUS_FULL_NEXT = 0) ∧
      t.fget Reg.CKP_STATUS Fld.CKP_STATUS_PHASE = (if c.direct then 3 else 2) ∧
      (c.direct = true → t.fget Reg.CKP_STEPS Fld.CKP_STEPS_SHADOW_STEP = c.step % 2 ^ 32) ∧
      (c.direct = false → t.fget Reg.CKP_STEPS Fld.CKP_STEPS_DELTA_STEP = c.step % 2 ^ 32) ∧
      (∀ a, c.direct = false → s.gloc (s.manifestAddr (s.sump.ordinal + 1)) = .own (.hbm a) → s.sumpHolds a 4096 = false → s.behindHeld a 4096 = false →
        s.behindRead trfMaster s.order (burstsOf a 4096) = false → t.mem.read a 4096 = s.manifestBytes c ++ leBytes 4 cairn) ∧
      (∀ d, c.waitSeal = true → c.waitDrain = false → s.findStarted c.ring c.seq = some d → d.done = none → t.endOf c.ring c.seq = some stSUCCESS)) ∧
  (∀ (z : State) (views : List (Option HolderView)) (ecc : EccFinds) (c : Cut), let s := z.eccAll ecc
    s.canon = true → s.sump.sealed = some c → s.sumpRuns = true → s.fget Reg.CKP_STATUS Fld.CKP_STATUS_PHASE = 2 →
    ((s.foldAll c.step).2 = none → ∃ t, exec (.foldEnd views ecc) z = .next t ∧ t.fget Reg.CKP_STATUS Fld.CKP_STATUS_PHASE = 3 ∧
      t.fget Reg.CKP_STEPS Fld.CKP_STEPS_SHADOW_STEP = c.step % 2 ^ 32 ∧ t.fget Reg.CKP_STEPS Fld.CKP_STEPS_DELTA_STEP = 2 ^ 32 - 1 ∧
      t.sump.sealed = some c ∧ t.sump.targets.length = 10 ∧
      Rose s t Reg.CKP_DRAIN_STATUS Fld.CKP_DRAIN_STATUS_MISSED (t.sump.targets.filter (·.isNone)).length ∧
      (tblWf zeroAt s.sump.delta = true → ∀ k, k < 16 → tblGet zeroAt t.sump.delta k = 0)) ∧
    ((s.foldAll c.step).2 ≠ none → ∃ t, exec (.foldEnd views ecc) z = .next t ∧ t.fget Reg.CKP_STATUS Fld.CKP_STATUS_PHASE = 0 ∧
      t.fget Reg.CKP_STATUS Fld.CKP_STATUS_SHADOW_VALID = 0 ∧ t.sump.sealed = none ∧
      (∀ d, c.waitDrain = true → s.findStarted c.ring c.seq = some d → d.done = none → t.endOf c.ring c.seq = some stFAULTED))) ∧
  (∀ (z : State) (bad : List (Nat × Nat × Nat)) (ecc : EccFinds) (c : Cut), let s := z.eccAll ecc
    s.canon = true → s.sump.sealed = some c → s.sumpRuns = true → s.fget Reg.CKP_STATUS Fld.CKP_STATUS_PHASE = 3 →
    ∃ t, exec (.flowstoneDrainEnd bad ecc) z = .next t ∧ t.fget Reg.CKP_STATUS Fld.CKP_STATUS_PHASE = 0 ∧ t.sump.sealed = none ∧ t.sump.targets = [] ∧
      Rose s t Reg.CKP_DRAIN_STATUS Fld.CKP_DRAIN_STATUS_STRIPES (stripesOf s.imageSize) ∧
      (∀ d, c.waitDrain = true → s.findStarted c.ring c.seq = some d → d.done = none →
        t.endOf c.ring c.seq = some (if s.drainFails bad = none then stSUCCESS else stFAULTED)))

/-- Restoring (R588-R596). RESTORE_SELECT: bad operands end it; the newest step that every module of the list has is its RESULT and STEP, with MIXED counted and reported
when their newest steps differ; with no such step it ends FAULTED. RESTORE: bad operands end it, a refusal carries the reason and changes nothing, a running fold is
waited for, and so is a pending page of its image; a page that fails its check ends it FAULTED with its range indeterminate; else it ends SUCCESS with the pages that it wrote, RESTORES rises, a whole image clears every dirty
bit, and SHADOW_VALID falls unless the whole image came from the Sump. -/
def Obligations.CutsAreSelectedAndRestored : Prop :=
  (∀ (z : State) (n seq : Nat) (mods : List ModView) (ext : List Byte) (ecc : EccFinds) (d : Started), let s := z.eccAll ecc
    s.canon = true → s.unbegun n seq 0x4058 = some d →
    (selectBad d.bytes = true → ∃ t, exec (.restoreSelect n seq mods ext ecc) z = .next t ∧ t.endOf n seq = some stBAD_OPERAND ∧ Only { started := true } s t) ∧
    (selectBad d.bytes = false →
      let q := s.extRead (.service (originOfDesc d.ring d.seq d.bytes)) true (leAt d.bytes 32 8) (24 * leAt d.bytes 28 4) ext
      let av := (List.range (leAt d.bytes 28 4)).map (fun i => q.1.availOf (leAt d.bytes 24 4) i q.2
        (mods.getD i { steps := 0#64, status := 0#64, manifests := [], holders := [], views := [] }))
      ∃ t y o, exec (.restoreSelect n seq mods ext ecc) z = .next t ∧ t.findStarted n seq = some y ∧ y.done = some o ∧
        (∀ k, commonStep av = some k → o.status = stSUCCESS ∧ o.result = k + (if sameNewest av then 0 else 2 ^ 32) ∧
          t.fget Reg.CKP_RESTORE_STATUS Fld.CKP_RESTORE_STATUS_STEP = k % 2 ^ 32) ∧
        (commonStep av = none → o.status = stFAULTED) ∧
        (sameNewest av = false → Rose s t Reg.CKP_RESTORE_STATUS Fld.CKP_RESTORE_STATUS_MIXED 1 ∧ Counted s t 0x10))) ∧
  (∀ (z : State) (n seq : Nat) (ext : List Byte) (ecc : EccFinds) (d : Started), let s := z.eccAll ecc
    s.canon = true → s.unbegun n seq 0x4050 = some d →
    let p := s.restoreP d.bytes
    (s.restoreBad d.bytes = true → ∃ t, exec (.restore n seq ext ecc) z = .next t ∧ t.endOf n seq = some stBAD_OPERAND ∧ Only { started := true } s t) ∧
    (∀ x, s.restoreBad d.bytes = false → s.restoreRefused p = some x → ∃ t y o, exec (.restore n seq ext ecc) z = .next t ∧ t.findStarted n seq = some y ∧
      y.done = some o ∧ o.status = stREFUSED ∧ o.result = x.result ∧ Only { started := true } s t) ∧
    (s.restoreBad d.bytes = false → s.restoreRefused p = none → s.sump.sealed.isSome = true → s.fget Reg.CKP_STATUS Fld.CKP_STATUS_PHASE = 2 →
      s.sumpRuns = true → exec (.restore n seq ext ecc) z = .next s) ∧
    (s.restoreBad d.bytes = false → s.restoreRefused p = none → s.fget Reg.CKP_STATUS Fld.CKP_STATUS_PHASE ≠ 2 ∨ s.sump.sealed = none ∨ s.sumpRuns = false →
      (p.source = 1 → s.pendingIn (p.addr + p.off) p.len = true → exec (.restore n seq ext ecc) z = .next s)) ∧
    (s.restoreBad d.bytes = false → s.restoreRefused p = none → s.fget Reg.CKP_STATUS Fld.CKP_STATUS_PHASE ≠ 2 ∨ s.sump.sealed = none ∨ s.sumpRuns = false →
      p.source ≠ 1 ∨ s.pendingIn (p.addr + p.off) p.len = false →
      let s1 := (s.restoreBegin p).1
      let failed := (s.restoreBegin p).2
      let units := s1.restoreUnits p
      (failed ≠ none → ∃ t, exec (.restore n seq ext ecc) z = .next t ∧ t.endOf n seq = some stFAULTED ∧
        t.fget Reg.CKP_STATUS Fld.CKP_STATUS_PHASE = 0 ∧ t.mem = s1.mem) ∧
      (∀ s2 c, failed = none → foldChecks s1 (fun s (u : Prot × Nat) => s.restoreUnit p (dSTEP d.bytes) ext u.1 u.2) units = (s2, some c) →
        ∃ t, exec (.restore n seq ext ecc) z = .next t ∧ t.endOf n seq = some stFAULTED ∧ t.fget Reg.CKP_STATUS Fld.CKP_STATUS_PHASE = 0 ∧ t.mem = (s2.restoreLoose units).mem) ∧
      (∀ s2, failed = none → foldChecks s1 (fun s (u : Prot × Nat) => s.restoreUnit p (dSTEP d.bytes) ext u.1 u.2) units = (s2, none) →
        ∃ t y o, exec (.restore n seq ext ecc) z = .next t ∧ t.findStarted n seq = some y ∧ y.done = some o ∧ o.status = stSUCCESS ∧
          o.result = s1.restoreCount p % 2 ^ 32 ∧ t.mem.hbm = s2.mem.hbm ∧
          Rose s t Reg.CKP_RESTORE_STATUS Fld.CKP_RESTORE_STATUS_RESTORES 1 ∧
          (s2.restoreWhole p = true → t.mem.dirty = []) ∧
          (p.source ≠ 0 ∨ s2.restoreWhole p = false → t.fget Reg.CKP_STATUS Fld.CKP_STATUS_SHADOW_VALID = 0))))

/-- The Trelforts (R602-R613). BOOT_ROM loads the slot that verifies into SRAM and runs it, syncing beside a PRIMARY, or enters RECOVERY. FUSE_SVN_ADVANCE raises a fuse counter to
SVN at most, or is rejected. KCORE_LOCKSTEP halts the die; a halted standby is reported; with both lost P0 starts a cold reset. TAKEOVER makes
the standby PRIMARY, counts it, reports the lost die and leaves LOCKED time for HOLDOVER. JOURNAL_ENTRY applies the oldest entry, or its loss
makes the standby sync again. SYNC_COMPLETE makes the copy whole and the die STANDBY. SWAP waits for the services, or is rejected, and SWAP_HANDOVER
exchanges the roles. -/
def Obligations.TrelfortsBootFollowAndTakeOver : Prop :=
  (∀ (s : State) (k : Nat), s.canon = true → s.mayBoot k = true → s.pwr.stopped = false →
    ∃ t, exec (.bootRom k) s = .next t ∧
      (s.bootSlot k = none → t.role k = rRECOVERY ∧ t.fget (Reg.TRF_BOOT k) Fld.TRF_BOOT_BOOT_ALT = 1 ∧ t.ran k = false) ∧
      (∀ j, s.bootSlot k = some j → t.ran k = true ∧ rdTbl t.mem.trf (trfBase k) (s.slotBody k j).length = s.slotBody k j ∧
        t.fget (Reg.TRF_BOOT k) Fld.TRF_BOOT_SLOT = j ∧ t.fget (Reg.TRF_BOOT k) Fld.TRF_BOOT_VERSION = leAt (s.slotHdr k j) 4 4 ∧
        (s.primary = some (1 - k) → t.role k = rSYNCING)) ∧
      (∀ h, s.halted k = some h → h + 10000000 ≤ t.clk.now)) ∧
  (∀ (s : State) (mgmt : Bool) (die svn : Nat), s.canon = true →
    (mgmt = true → die < 2 → ∃ t, exec (.fuseSvnAdvance mgmt die svn) s = .next t ∧
      t.fuse die = max (s.fuse die) (min svn (s.fget (Reg.TRF_BOOT die) Fld.TRF_BOOT_SVN)) ∧ t.fuse (1 - die) = s.fuse (1 - die) ∧
      SameRegs s t [Reg.TRF_BOOT die]) ∧
    (mgmt = false ∨ 2 ≤ die → ∃ t, exec (.fuseSvnAdvance mgmt die svn) s = .next t ∧ Counted s t 0x11 ∧ t.trelfort = s.trelfort ∧
      Only Parts.report s t)) ∧
  (∀ (s : State) (k : Nat), s.canon = true → k < 2 → s.trfUp = true → s.role k ≠ rHALTED →
    (s.trfLost (1 - k) = false → ∃ t, exec (.kcoreLockstep k) s = .next t ∧ t.role k = rHALTED ∧ t.ran k = false ∧ t.halted k = some s.clk.now ∧
      (s.primary = some (1 - k) → s.trelfort.noStandby = false → Counted s t 0x04)) ∧
    (s.trfLost (1 - k) = true → s.pwr.tripAt = none → s.fed = true → s.resetLevel < 3 → s.pwr.colds < 3 →
      ∃ t, exec (.kcoreLockstep k) s = .next t ∧ ResetBegun s t 3 2)) ∧
  (∀ (s : State) (d : Nat), s.canon = true → [0, 1].find? s.mayTakeOver = some d →
    ∃ t, exec .takeover s = .next t ∧ t.primary = some d ∧ t.role d = rPRIMARY ∧
      t.role (1 - d) = (if s.role (1 - d) = rRECOVERY then rRECOVERY else rHALTED) ∧
      Rose s t Reg.TRF_ROLE Fld.TRF_ROLE_FAILOVERS 1 ∧ Counted s t 0x04 ∧ t.journal = [] ∧ t.trelfort.swapAt = none ∧ t.trelfort.noStandby = true ∧
      t.timeState = (if s.timeState = tLOCKED ∨ s.timeState = tLOCKING then tHOLDOVER else s.timeState)) ∧
  (∀ (s : State) (lag d : Nat) (e : Nat × List Byte) (rest : List (Nat × List Byte)), s.canon = true → s.follower = some d → s.journal = e :: rest →
    (∃ t, exec (.journalEntry false lag) s = .next t ∧ t.journal = rest ∧ rdTbl t.mem.trf (trfBase d + e.1) e.2.length = e.2 ∧
      t.fget Reg.TRF_ROLE Fld.TRF_ROLE_LAG_US = (if rest = [] then 0 else min lag 50) ∧ SameRegs s t [Reg.TRF_ROLE] ∧
      Only { regs := true, trf := true, journal := true } s t) ∧
    (∃ t, exec (.journalEntry true lag) s = .next t ∧ t.role d = rSYNCING ∧ (s.trelfort.noStandby = false → Counted s t 0x04))) ∧
  (∀ (s : State) (d : Nat), s.canon = true → s.follower = some d → s.role d = rSYNCING →
    ∃ t, exec .syncComplete s = .next t ∧ t.role d = rSTANDBY ∧ t.fget Reg.TRF_ROLE Fld.TRF_ROLE_LAG_US = 0 ∧ t.trelfort.noStandby = false ∧
      (∀ o, o < 0x600000 → tblGet zeroByte t.mem.trf (trfBase d + o) = tblGet zeroByte s.mem.trf (trfBase (1 - d) + o))) ∧
  (∀ (s : State) (mgmt swap : Bool) (d : Nat), s.canon = true → s.primary = some d →
    let may := mgmt && swap && s.role (1 - d) == rSTANDBY && s.fget Reg.TRF_ROLE Fld.TRF_ROLE_LAG_US == 0 && s.journal.isEmpty && s.trelfort.swapAt.isNone
    (may = true → ∃ t, exec (.swap mgmt swap) s = .next t ∧ t.trelfort.swapAt = some s.clk.now ∧ Only { trelfort := true } s t) ∧
    (may = false → ∃ t, exec (.swap mgmt swap) s = .next t ∧ Counted s t 0x11 ∧ t.trelfort = s.trelfort ∧ Only Parts.report s t)) ∧
  (∀ (s : State) (d at_ : Nat), s.canon = true → s.primary = some d → s.trelfort.swapAt = some at_ →
    (s.role (1 - d) = rSTANDBY → ∃ t, exec .swapHandover s = .next t ∧ t.primary = some (1 - d) ∧ t.role d = rSTANDBY ∧ t.role (1 - d) = rPRIMARY ∧
      t.trelfort.swapAt = none ∧
      (s.started.any (fun x => x.fn == 0x50 || x.fn == 0x51) = true → at_ + 100000000 ≤ t.clk.now) ∧
      (s.started.any (fun x => x.fn == 0x50 || x.fn == 0x51) = false → t.clk = s.clk ∧ t.started = s.started)) ∧
    (s.role (1 - d) ≠ rSTANDBY → ∃ t, exec .swapHandover s = .next t ∧ t.trelfort.swapAt = none ∧ Only { trelfort := true } s t))

/-- The management port (R614-R621). A datagram whose MAC fails is counted and dropped; one whose SEQ has an answer gets that answer again. TMP_READ of HBM replies STATUS 0 with the
bytes, once nothing that it reads is pending, and TMP_WRITE stores them, each counted as a request; a wrong format is STATUS 3 and a follower answers STATUS 1. TMP_STATUS replies the three
status registers. FLASH_WRITE into a slot that may be programmed stores its bytes, any other is STATUS 3. NOTICE_ACK removes its notice; NOTICE_REPEAT
sends one again 100 ms after the last time, and gives it up and counts it after 60 s. -/
def Obligations.TheManagementPortAnswers : Prop :=
  (∀ (s : State) (t0 src : Nat) (g : List Byte) (ecc : EccFinds) (p : Nat × Instr), s.canon = true → t0 < 2 → s.trfUp = true → s.tmpForMe g = true →
    p ∈ [(0x01, Instr.tmpRead t0 src g ecc), (0x02, .tmpWrite t0 src g), (0x20, .tmpStatus t0 src g), (0x30, .flashWrite t0 src g),
      (0x11, .noticeAck t0 src g)] → tmpType g = p.1 →
    (s.macOk t0 g = false → ∃ t, exec p.2 s = .next t ∧ Rose s t Reg.TRF_TMP_STATUS Fld.TRF_TMP_STATUS_MAC_FAIL 1 ∧
      SameRegs s t [Reg.TRF_TMP_STATUS] ∧ Only { regs := true } s t) ∧
    (∀ r, s.macOk t0 g = true → s.trelfort.replies.find? (fun r => r.1 == 2 * src + t0 && r.2.1 == tmpSeq g) = some r →
      ∃ t, exec p.2 s = .next t ∧ t.out = s.out ++ [.tmp src r.2.2.1 r.2.1 r.2.2.2] ∧ Only { out := true } s t)) ∧
  (∀ (s : State) (t0 src : Nat) (g : List Byte) (ecc : EccFinds), s.canon = true → s.tmpFresh t0 src 0x01 g →
    let b := tmpBody g
    let addr := leAt b 0 8
    let n := leAt b 8 4
    (s.primary ≠ some t0 → s.role t0 = rSYNCING ∨ s.role t0 = rSTANDBY → ∃ t, exec (.tmpRead t0 src g ecc) s = .next t ∧
      Replied s t t0 src (tmpSeq g) 1 [] ∧ Only { out := true, trelfort := true } s t) ∧
    (s.primary = some t0 → b.length < 12 ∨ tmpCount n = false → ∃ t, exec (.tmpRead t0 src g ecc) s = .next t ∧
      Replied s t t0 src (tmpSeq g) 3 [] ∧ Only { out := true, trelfort := true } s t) ∧
    (s.primary = some t0 → 12 ≤ b.length → tmpCount n = true → s.tmpAwaited t0 src (tmpSeq g) = true →
      exec (.tmpRead t0 src g ecc) s = .next s) ∧
    (∀ a, s.primary = some t0 → 12 ≤ b.length → tmpCount n = true → s.tmpAwaited t0 src (tmpSeq g) = false → addr % 4096 + n ≤ 4096 →
      s.gloc addr = .own (.hbm a) →
      let e := s.tmpDone.eccIn addr n ecc
      e.readWaits (.tmp t0 src (tmpSeq g)) e.order addr n = false → (pagesOf a n).any e.isWithdrawn = false → e.poisonedAt a n = false →
      ∃ t, exec (.tmpRead t0 src g ecc) s = .next t ∧ Replied e t t0 src (tmpSeq g) 0 (e.mem.read a n) ∧
        Rose s t Reg.TRF_TMP_STATUS Fld.TRF_TMP_STATUS_REQUESTS 1 ∧ Only (Parts.report.or { poison := true, tor := true, trelfort := true }) s t)) ∧
  (∀ (s : State) (t0 src a : Nat) (g : List Byte), s.canon = true → s.tmpFresh t0 src 0x02 g → s.primary = some t0 →
    let b := tmpBody g
    let addr := leAt b 0 8
    let n := leAt b 8 4
    tmpCount n = true → b.length = 16 + n → s.tmpAwaited t0 src (tmpSeq g) = false → addr % 4096 + n ≤ 4096 → s.gloc addr = .own (.hbm a) →
    s.sumpHolds a n = false → s.behindHeld a n = false → s.behindRead (.tmp t0 src (tmpSeq g)) s.order (burstsOf a n) = false →
    ∃ t, exec (.tmpWrite t0 src g) s = .next t ∧ t.mem.read a n = b.drop 16 ∧ Replied s t t0 src (tmpSeq g) 0 [] ∧
      Rose s t Reg.TRF_TMP_STATUS Fld.TRF_TMP_STATUS_REQUESTS 1 ∧ t.isOpen (a / 4096) = true) ∧
  (∀ (s : State) (t0 src : Nat) (g : List Byte), s.canon = true → s.tmpFresh t0 src 0x20 g →
    (s.primary = some t0 ∨ s.role t0 = rSYNCING ∨ s.role t0 = rSTANDBY ∨ s.role t0 = rRECOVERY) →
    ∃ t, exec (.tmpStatus t0 src g) s = .next t ∧ t.out = s.out ++ [.tmp src 0x20 (tmpSeq g) s.statusBody] ∧
      Rose s t Reg.TRF_TMP_STATUS Fld.TRF_TMP_STATUS_REQUESTS 1 ∧ Only { regs := true, out := true, trelfort := true } s t) ∧
  (∀ (s : State) (t0 src : Nat) (g : List Byte), s.canon = true → s.tmpFresh t0 src 0x30 g → s.primary = some t0 →
    let b := tmpBody g
    let off := leAt b 0 4
    let n := leAt b 4 4
    let d := leAt b 8 1
    let good := decide (256 ≤ n) && decide (n ≤ 1024) && n % 256 == 0 && off % 256 == 0 && b.length == 16 + n && s.flashOpen d off n
    (good = true → ∃ t, exec (.flashWrite t0 src g) s = .next t ∧ rdFlash (t.flash d) off n = b.drop 16 ∧ t.flash (1 - d) = s.flash (1 - d) ∧
      Replied s t t0 src (tmpSeq g) 0 [] ∧ Rose s t Reg.TRF_TMP_STATUS Fld.TRF_TMP_STATUS_REQUESTS 1) ∧
    (good = false → ∃ t, exec (.flashWrite t0 src g) s = .next t ∧ t.mem = s.mem ∧ Replied s t t0 src (tmpSeq g) 3 [])) ∧
  (∀ (s : State) (t0 src : Nat) (g : List Byte), s.tmpFresh t0 src 0x11 g → s.primary = some t0 ∨ s.role t0 = rSTANDBY →
    ∃ t, exec (.noticeAck t0 src g) s = .next t ∧ t.notices = s.notices.filter (·.seq != leAt (tmpBody g) 0 4) ∧ Only { notices := true } s t) ∧
  (∀ (s : State) (seq : Nat) (n : Notice), s.canon = true → s.notices.find? (·.seq == seq) = some n → s.primary.isSome = true →
    let now := max s.clk.now (n.sent + 100000000)
    (now < n.since + 60000000000 → ∃ t, exec (.noticeRepeat seq) s = .next t ∧ t.out = s.out ++ [.notice n.seq n.kind n.cut n.record] ∧
      t.notices.find? (·.seq == seq) = some { n with sent := now } ∧ t.clk.now = now ∧ Only { clk := true, notices := true, out := true } s t) ∧
    (n.since + 60000000000 ≤ now → ∃ t, exec (.noticeRepeat seq) s = .next t ∧ (∀ x, x ∈ t.notices → x.seq ≠ seq) ∧
      Rose s t Reg.TRF_TMP_STATUS Fld.TRF_TMP_STATUS_UNACKED 1 ∧ t.clk.now = now))

/-- The risk scorer (R622-R624). RISK_EVENT adds the weight of its kind to the newest bucket; the score is the saturating sum of the buckets, and the level rises through every level
whose threshold it has reached, a WARN or RETIRE reported as class 0x15 with a notice. RISK_BUCKET_BOUNDARY, BUCKET_MIN minutes after the last one, drops
the oldest of the 24 buckets of every subject, sums again, lowers each level whose score is below half its threshold, and RISK_STATUS counts the
subjects at each level. -/
def Obligations.RiskScoresFollowEvents : Prop :=
  (∀ (s : State) (i kind : Nat), s.canon = true → i < 144 → kind < 3 → s.primary.isSome = true →
    let old := tblGet noBuckets s.risk.buckets i
    let b := match old with | [] => [s.riskWeight kind] | x :: r => (x + s.riskWeight kind) :: r
    let up := [1, 2, 3].foldl (fun lv l => if lv + 1 = l && s.riskThresh l ≤ riskSum b then l else lv) (s.riskLevel i)
    ∃ t, exec (.riskEvent i kind) s = .next t ∧ t.risk.buckets = tblPut noBuckets s.risk.buckets i b ∧ t.riskScore i = riskSum b ∧
      t.riskLevel i = up ∧ (∀ j, j < 144 → j ≠ i → t.reg (Reg.TRF_RISK_SCORE j) = s.reg (Reg.TRF_RISK_SCORE j)) ∧
      (up = s.riskLevel i → Only { regs := true, risk := true } s t) ∧
      (s.riskLevel i < up → (up = 1 → Rose s t (Reg.FLT_CLASS_CNT 0x15) Fld.FLT_CLASS_CNT_COUNT 0) ∧
        (2 ≤ up → ∃ x, x ∈ t.notices ∧ x.kind = up - 1) ∧
        t.fget Reg.TRF_RISK_STATUS Fld.TRF_RISK_STATUS_RETIRE = ((List.range 144).filter (fun j => t.riskLevel j == 3)).length)) ∧
  (∀ (s : State), s.canon = true → s.primary.isSome = true → tblWf noBuckets s.risk.buckets = true →
    ∃ t, exec .riskBucketBoundary s = .next t ∧ t.risk.since = t.clk.now ∧
      s.risk.since + s.cfg Reg.TRF_RISK_CFG Fld.TRF_RISK_CFG_BUCKET_MIN * 60000000000 ≤ t.clk.now ∧
      (∀ i, i < 144 → tblGet noBuckets t.risk.buckets i = (0 :: tblGet noBuckets s.risk.buckets i).take 24 ∧
        t.riskScore i = riskSum ((0 :: tblGet noBuckets s.risk.buckets i).take 24) ∧
        t.riskLevel i = [3, 2, 1].foldl (fun lv l => if lv = l && 2 * t.riskScore i < s.riskThresh l then l - 1 else lv) (s.riskLevel i)) ∧
      t.fget Reg.TRF_RISK_STATUS Fld.TRF_RISK_STATUS_WARN = ((List.range 144).filter (fun j => t.riskLevel j == 2)).length ∧
      Only { regs := true, clk := true, risk := true } s t)

/-- The flash copy of the recorder (R646-R649). EVR_FLASH_COPY by the primary stores the next record in the next slot and COUNT follows; on a full copy the record is counted as
dropped, and the first time FULL is set and recorded; while an erase runs, or with nothing left, nothing changes. CLEAR_FLASH needs the management
attribute. FLASH_ERASE_DONE leaves both copies erased and empty. EVR_FETCH with bad operands ends so; of slots within one HBM page it stores them as they are
and its RESULT counts the whole records. OP_HOURS_SAVE counts another 1/256 hour. -/
def Obligations.RecordsGoToFlashAndBack : Prop :=
  (∀ (s : State) (k : Nat), s.canon = true → k < 2 → s.primary = some k →
    (s.evr.eraseAt ≠ none ∨ s.evrNext k = s.evrHead → exec (.evrFlashCopy k) s = .next s) ∧
    (s.evr.eraseAt = none → s.evrNext k ≠ s.evrHead → s.evrN k < 65536 → ∃ t, exec (.evrFlashCopy k) s = .next t ∧
      rdFlash (t.flash k) (0x1100000 + 128 * s.evrN k) 128 = rdTbl s.mem.trf (trfBase k + evrSlot (s.evrNext k)) 128 ∧
      t.flash (1 - k) = s.flash (1 - k) ∧ t.evrNext k = (s.evrNext k + 1) % 2 ^ 32 ∧ t.evrN k = s.evrN k + 1 ∧
      t.fget Reg.EVR_FLASH_STATUS Fld.EVR_FLASH_STATUS_COUNT = s.evrN k + 1 ∧ SameRegs s t [Reg.EVR_FLASH_STATUS] ∧
      Only { regs := true, flash := true, evr := true } s t) ∧
    (s.evr.eraseAt = none → s.evrNext k ≠ s.evrHead → 65536 ≤ s.evrN k → s.evr.full = false → ∃ t, exec (.evrFlashCopy k) s = .next t ∧
      t.evr.full = true ∧ t.fget Reg.EVR_FLASH_STATUS Fld.EVR_FLASH_STATUS_FULL = 1 ∧ Rose s t Reg.EVR_DROPPED Fld.EVR_DROPPED_FLASH 1 ∧
      (s.evrHeld < 16320 → t.evrHead = (s.evrHead + 1) % 2 ^ 32) ∧ t.flash k = s.flash k) ∧
    (s.evr.eraseAt = none → s.evrNext k ≠ s.evrHead → 65536 ≤ s.evrN k → s.evr.full = true → s.evr.seen ≠ s.evrHead →
      ∃ t, exec (.evrFlashCopy k) s = .next t ∧ Rose s t Reg.EVR_DROPPED Fld.EVR_DROPPED_FLASH 1 ∧ t.evr.seen = (s.evr.seen + 1) % 2 ^ 32 ∧
      SameRegs s t [Reg.EVR_DROPPED] ∧ Only { regs := true, evr := true } s t)) ∧
  (∀ (s : State), s.canon = true →
    (∃ t, exec (.clearFlash true) s = .next t ∧ t.evr.eraseAt = some s.clk.now ∧ t.fget Reg.EVR_FLASH_STATUS Fld.EVR_FLASH_STATUS_ERASING = 1 ∧
      SameRegs s t [Reg.EVR_FLASH_STATUS] ∧ Only { regs := true, evr := true } s t) ∧
    (∃ t, exec (.clearFlash false) s = .next t ∧ Counted s t 0x11 ∧ Only Parts.report s t)) ∧
  (∀ (s : State), s.canon = true → s.evr.eraseAt ≠ none →
    ∃ t, exec .flashEraseDone s = .next t ∧ (∀ k o, o < 0x800000 → tblGet erasedByte (t.flash k) (0x1100000 + o) = 0xFF#8) ∧
      (∀ k, t.evrN k = 0) ∧ t.evr.full = false ∧ t.evr.eraseAt = none ∧ t.fget Reg.EVR_FLASH_STATUS Fld.EVR_FLASH_STATUS_ERASING = 0 ∧
      t.fget Reg.EVR_FLASH_STATUS Fld.EVR_FLASH_STATUS_FULL = 0 ∧ t.fget Reg.EVR_FLASH_STATUS Fld.EVR_FLASH_STATUS_COUNT = 0 ∧
      t.fget Reg.EVR_DROPPED Fld.EVR_DROPPED_FLASH = 0 ∧ Only { regs := true, flash := true, evr := true } s t) ∧
  (∀ (s : State) (n seq : Nat) (d : Started), s.canon = true → s.findStarted n seq = some d → dOPCODE d.bytes = 0x5040 → d.done = none →
    let b := d.bytes
    let die := leAt b 24 1
    let first := leAt b 28 4
    let count := leAt b 32 4
    let dst := leAt b 40 8
    let bad := dPARAM b || decide (1 < die) || count == 0 || decide (65536 < first + count) || dst % 128 != 0 || !(s.inOwnHbm dst (128 * count)) ||
      !(zeroBytes b 25 27 && zeroBytes b 36 39 && zeroBytes b 48 63)
    let data := rdFlash (s.flash die) (0x1100000 + 128 * first) (128 * count)
    (bad = true → ∃ t, exec (.evrFetch n seq) s = .next t ∧ t.endOf n seq = some stBAD_OPERAND ∧ Only { started := true } s t) ∧
    (∀ a, bad = false → dst % 4096 + 128 * count ≤ 4096 → s.gloc dst = .own (.hbm a) → s.sumpHolds a (128 * count) = false →
      s.behindHeld a (128 * count) = false →
      s.behindRead (.service (originOfDesc d.ring d.seq b)) s.order (burstsOf a (128 * count)) = false → ∃ t y o, exec (.evrFetch n seq) s = .next t ∧ t.mem.read a (128 * count) = data ∧
      t.findStarted n seq = some y ∧ y.done = some o ∧ o.status = stSUCCESS ∧
      o.result = ((chunksOf 128 count data).filter (fun r => leAt r 124 4 == cairn)).length ∧ Only (Parts.memory.or { started := true, tor := true, arr := true }) s t)) ∧
  (∀ (s : State), s.canon = true → s.pwr.good = true → s.primary.isSome = true →
    ∃ t, exec .opHoursSave s = .next t ∧ t.evr.savedAt = t.clk.now ∧ s.evr.savedAt + 14062500000 ≤ t.clk.now ∧
      t.fget Reg.EVR_LIFE Fld.EVR_LIFE_OP_HOURS = (s.fget Reg.EVR_LIFE Fld.EVR_LIFE_OP_HOURS + 1) % 2 ^ 32 ∧ SameRegs s t [Reg.EVR_LIFE] ∧
      Only { regs := true, clk := true, evr := true } s t)

/-- Module time (R651-R662). RATE_WRITE and ADJ_WRITE broadcast a change for 2 microseconds later, or are rejected; TIME_PARAM_APPLY applies the earliest one: an offset steps time by its amount,
a new rate and a slew start without a jump; SLEW_END puts a whole slew into OFFSET. PTP_MESSAGE: an Announce that wins starts LOCKING, the
sixteenth good exchange in a row locks and shows GM_ID, a bad one starts again, a better master holds over. ANNOUNCE_TIMEOUT and REFCLK_LOST hold over. SYNC_IN_EDGE is
stamped and judged while LOCKED. REFCLK_RETURN and REFCLK_SWITCHBACK take the PLLs back. -/
def Obligations.ModuleTimeFollowsItsRules : Prop :=
  (∀ (s : State) (v : Word), s.canon = true →
    (∃ t, exec (.rateWrite true v) s = .next t ∧ t.clk.changes = s.clk.changes ++ [(s.clk.count + 2000, .rate (clampPpb (sext 32 v.toNat)))] ∧
      t.time = s.time ∧ Only { clk := true } s t) ∧
    (∃ t, exec (.rateWrite false v) s = .next t ∧ Counted s t 0x11 ∧ Only Parts.report s t) ∧
    (∃ t, exec (.adjWrite true v) s = .next t ∧ t.clk.changes = s.clk.changes ++ [(s.clk.count + 2000,
        if s.service then TimeChange.slew (sext 64 v.toNat) else .offset (sext 64 v.toNat))] ∧ t.time = s.time ∧ Only { clk := true } s t) ∧
    (∃ t, exec (.adjWrite false v) s = .next t ∧ Counted s t 0x11 ∧ Only Parts.report s t)) ∧
  (∀ (s : State) (n : Nat) (x : TimeChange) (rest : List (Nat × TimeChange)), s.clk.changes = (n, x) :: rest →
    let u := s.reach (s.clk.start + n)
    ∃ t, exec .timeParamApply s = .next t ∧ t.clk.now = u.clk.now ∧ s.clk.start + n ≤ t.clk.now ∧ t.clk.changes = rest ∧ Only { clk := true } s t ∧
      (∀ d, x = .offset d → t.time = u.time + d) ∧ (∀ p, x = .rate p → t.time = u.time ∧ t.clk.rate = p) ∧
      (∀ d, x = .slew d → t.time = u.time ∧ t.clk.slewD = d ∧ t.clk.slewing = true)) ∧
  (∀ (s : State), (s.clk.slewing = true → ∃ t, exec .slewEnd s = .next t ∧ t.clk.offset = s.clk.offset + s.clk.slewD ∧ t.clk.slewing = false ∧
      s.clk.start + s.clk.slewAt + s.clk.slewD.natAbs * 2000 ≤ t.clk.now ∧ Only { clk := true } s t) ∧
    (s.clk.slewing = false → exec .slewEnd s = .next s)) ∧
  (∀ (s : State) (gm ivl : Nat) (best : Bool), s.canon = true → s.ptpOn = true →
    (s.timeState = tFREE ∨ s.timeState = tHOLDOVER → best = true → s.rbit Reg.TIME_STATUS 5 = false →
      ∃ t, exec (.ptpMessage (.announce gm ivl best)) s = .next t ∧ t.timeState = tLOCKING ∧ t.clk.gm = gm ∧ t.clk.good = 0 ∧
        t.clk.annAt = s.clk.now ∧ t.clk.annIvl = ivl) ∧
    (s.timeState = tLOCKING ∨ s.timeState = tLOCKED → gm = s.clk.gm → ∃ t, exec (.ptpMessage (.announce gm ivl best)) s = .next t ∧
      t.clk = { s.clk with annAt := s.clk.now, annIvl := ivl } ∧ Only { clk := true } s t) ∧
    (s.timeState = tLOCKING ∨ s.timeState = tLOCKED → gm ≠ s.clk.gm → best = true →
      ∃ t, exec (.ptpMessage (.announce gm ivl best)) s = .next t ∧ t.timeState = tHOLDOVER ∧
        Rose s t Reg.TIME_STATUS Fld.TIME_STATUS_HOLDOVERS 1)) ∧
  (∀ (s : State) (d : Int), s.canon = true → s.ptpOn = true →
    let lock := s.cfg Reg.TIME_CFG Fld.TIME_CFG_LOCK_NS
    (s.timeState = tLOCKED → ∃ t, exec (.ptpMessage (.exchange d)) s = .next t ∧ t.fget Reg.TIME_STATUS Fld.TIME_STATUS_LAST_OFFSET = tc 32 d ∧
      SameRegs s t [Reg.TIME_STATUS] ∧ Only { regs := true } s t) ∧
    (s.timeState = tLOCKING → d.natAbs ≤ lock → s.clk.good < 15 → ∃ t, exec (.ptpMessage (.exchange d)) s = .next t ∧ t.timeState = tLOCKING ∧
      t.clk.good = s.clk.good + 1) ∧
    (s.timeState = tLOCKING → d.natAbs ≤ lock → 15 ≤ s.clk.good → ∃ t, exec (.ptpMessage (.exchange d)) s = .next t ∧ t.timeState = tLOCKED ∧
      t.reg Reg.TIME_GM_ID = BitVec.ofNat 64 s.clk.gm) ∧
    (s.timeState = tLOCKING → lock < d.natAbs → ∃ t, exec (.ptpMessage (.exchange d)) s = .next t ∧ t.timeState = tLOCKING ∧ t.clk.good = 0)) ∧
  (∀ (s : State), s.canon = true → s.ptpOn = true → s.timeState = tLOCKING ∨ s.timeState = tLOCKED →
    ∃ t, exec .announceTimeout s = .next t ∧ t.timeState = tHOLDOVER ∧ s.clk.annAt + 3 * s.clk.annIvl ≤ t.clk.now ∧
      Rose s t Reg.TIME_STATUS Fld.TIME_STATUS_HOLDOVERS 1) ∧
  (∀ (s : State), s.canon = true →
    ∃ t, exec .syncInEdge s = .next t ∧ t.reg Reg.TIME_SYNC_STAMP = BitVec.ofNat 64 (s.era * 2 ^ 32 + s.timeNs) ∧ t.timeState = s.timeState ∧
      (s.cfg Reg.TIME_CFG Fld.TIME_CFG_SYNC_EN = 1 → s.timeState = tLOCKED →
        t.rbit Reg.TIME_STATUS 6 = decide (s.cfg Reg.TIME_CFG Fld.TIME_CFG_SYNC_TOL_NS < fromSecond s.time)) ∧
      (s.cfg Reg.TIME_CFG Fld.TIME_CFG_SYNC_EN ≠ 1 ∨ s.timeState ≠ tLOCKED → SameRegs s t [Reg.TIME_SYNC_STAMP] ∧ Only { regs := true } s t)) ∧
  (∀ (s : State), s.canon = true →
    (∃ t, exec .refclkLost s = .next t ∧ t.timeState = tHOLDOVER ∧ t.rbit Reg.TIME_STATUS 5 = true ∧ t.clk.refBack = none ∧
      Rose s t Reg.TIME_STATUS Fld.TIME_STATUS_HOLDOVERS (if s.timeState = tHOLDOVER then 0 else 1)) ∧
    (s.rbit Reg.TIME_STATUS 5 = true → ∃ t, exec .refclkReturn s = .next t ∧ t.clk.refBack = some s.clk.now ∧ Only { clk := true } s t) ∧
    (s.rbit Reg.TIME_STATUS 5 = false → exec .refclkReturn s = .next s) ∧
    (∀ (at_ : Nat) (sync : Bool), s.clk.refBack = some at_ → ∃ t, exec (.refclkSwitchback sync) s = .next t ∧ t.clk.refBack = none ∧
      t.rbit Reg.TIME_STATUS 5 = false ∧ (sync = true → t.clk.now = s.clk.now) ∧ (sync = false → at_ + 1000000000 ≤ t.clk.now) ∧
      t.timeState = s.timeState ∧ Only { regs := true, clk := true } s t))

/-- Counters and the Whistle (R665-R679). EVT_SEL_WRITE and FILTER_WRITE by management set their fields and zero the counter; any other is rejected. WHISTLE_WRITE, WHISTLE_PACKET and
DBG_TRIG_IN_EDGE arm a pending Whistle, refused when four are pending; a bad ACTION or a missing attribute is rejected; a packet is dropped and counted with
REMOTE_EN 0 and acts once per sender and ID. WHISTLE_SEND sends KIND 0x38 with the next ID. WHISTLE_FIRE: all Whistles whose time has come
act as one: capture of the counters with one more SEQ, then clear, then hold before thaw. COUNTER_DUMP ends with SEQ as its RESULT. -/
def Obligations.WhistlesAreArmedAndFire : Prop :=
  (∀ (s : State) (who : Master) (d n : Nat) (v : Word), s.canon = true → d < 80 → n < 48 →
    (mgmtOf who = true → evtOk d v = true → ∃ t, exec (.evtSelWrite who d n v) s = .next t ∧
      t.fget (Reg.OBS_EVT_SEL d n) Fld.OBS_EVT_SEL_EVENT = Fld.OBS_EVT_SEL_EVENT.get v ∧
      t.fget (Reg.OBS_EVT_SEL d n) Fld.OBS_EVT_SEL_QUAL = Fld.OBS_EVT_SEL_QUAL.get v ∧
      t.obs.counters = tblPut zeroAt s.obs.counters (d * 48 + n) 0 ∧ SameRegs s t [Reg.OBS_EVT_SEL d n] ∧ Only { regs := true, obs := true } s t) ∧
    (mgmtOf who = false ∨ evtOk d v = false → ∃ t, exec (.evtSelWrite who d n v) s = .next t ∧ Counted s t 0x11 ∧
      t.reg (Reg.OBS_EVT_SEL d n) = s.reg (Reg.OBS_EVT_SEL d n) ∧ t.obs.counters = s.obs.counters ∧ Only Parts.report s t) ∧
    (mgmtOf who = true → ∃ t, exec (.filterWrite who d n v) s = .next t ∧ t.reg (Reg.OBS_FILTER d n) = v ∧
      t.obs.counters = tblPut zeroAt s.obs.counters (d * 48 + n) 0 ∧ SameRegs s t [Reg.OBS_FILTER d n] ∧ Only { regs := true, obs := true } s t) ∧
    (mgmtOf who = false → ∃ t, exec (.filterWrite who d n v) s = .next t ∧ Counted s t 0x11 ∧ t.obs.counters = s.obs.counters ∧
      Only Parts.report s t)) ∧
  (∀ (s : State) (who : Master) (v : Word), s.canon = true →
    let a := Fld.OBS_WHISTLE_ACTION.get v
    let at_ := if Fld.OBS_WHISTLE_IMMEDIATE.get v = 1 then s.timeNs + 2000 else Fld.OBS_WHISTLE_AT.get v
    (mgmtOf who = false ∨ badAction a = true → ∃ t, exec (.whistleWrite who v) s = .next t ∧ Counted s t 0x11 ∧ Only Parts.report s t) ∧
    (mgmtOf who = true → badAction a = false → s.obs.whistles.length < 4 → ∃ t, exec (.whistleWrite who v) s = .next t ∧
      t.obs.whistles = s.obs.whistles ++ [(at_ % 2 ^ 32, a)] ∧
      t.fget Reg.OBS_WHISTLE_STATUS Fld.OBS_WHISTLE_STATUS_PENDING = s.obs.whistles.length + 1 ∧ Only { regs := true, obs := true } s t) ∧
    (mgmtOf who = true → badAction a = false → 4 ≤ s.obs.whistles.length → ∃ t, exec (.whistleWrite who v) s = .next t ∧
      t.obs = s.obs ∧ Rose s t Reg.OBS_WHISTLE_STATUS Fld.OBS_WHISTLE_STATUS_REFUSED 1 ∧ Only { regs := true } s t)) ∧
  (∀ (s : State) (who : Master) (v : Word), s.canon = true →
    (mgmtOf who = false → ∃ t, exec (.whistleSend who v) s = .next t ∧ Counted s t 0x11 ∧ t.fab = s.fab ∧ Only Parts.report s t) ∧
    (mgmtOf who = true → ∃ t, exec (.whistleSend who v) s = .next t ∧ t.obs.sendId = (s.obs.sendId + 1) % 65536 ∧
      (s.chip = some (Fld.OBS_WHISTLE_SEND_DST.get v) → ∃ k, t.fab.delivered = s.fab.delivered ++ [k] ∧ k.kind = 0x38 ∧ k.vc = 0 ∧
        k.body = leBytes 4 (Fld.OBS_WHISTLE_SEND_AT.get v) ++ leBytes 1 (Fld.OBS_WHISTLE_SEND_ACTION.get v) ++ leBytes 1 0 ++
          leBytes 2 s.obs.sendId ++ leBytes 8 0) ∧ Only (Parts.report.or { fab := true, tor := true }) s t)) ∧
  (∀ (s s1 : State) (k : Packet), s.canon = true → k.kind = 0x38 → s.take k = some s1 →
    let on := s.fget Reg.OBS_WHISTLE_CFG Fld.OBS_WHISTLE_CFG_REMOTE_EN
    let a := leAt k.body 4 1
    (on = 0 → ∃ t, exec (.whistlePacket k) s = .next t ∧ Rose s t Reg.OBS_WHISTLE_STATUS Fld.OBS_WHISTLE_STATUS_REMOTE_DROPPED 1 ∧
      t.obs = s.obs ∧ Only { regs := true, fab := true } s t) ∧
    (on ≠ 0 → s.obs.heard.contains (k.src, leAt k.body 6 2) = true → exec (.whistlePacket k) s = .next s1) ∧
    (on ≠ 0 → s.obs.heard.contains (k.src, leAt k.body 6 2) = false → badAction a = false → s.obs.whistles.length < 4 →
      ∃ t, exec (.whistlePacket k) s = .next t ∧ t.obs.whistles = s.obs.whistles ++ [(leAt k.body 0 4 % 2 ^ 32, a)] ∧
        t.obs.heard.contains (k.src, leAt k.body 6 2) = true ∧ Only { regs := true, fab := true, obs := true } s t)) ∧
  (∀ (s : State), s.canon = true → Fld.OBS_TRACE_CFG_TRIG_PIN.get s.obs.trCfg = 0 →
    let a := s.fget Reg.OBS_WHISTLE_CFG Fld.OBS_WHISTLE_CFG_PIN_ACTION
    (s.fget Reg.OBS_WHISTLE_CFG Fld.OBS_WHISTLE_CFG_PIN_EN = 0 → exec .dbgTrigInEdge s = .next s) ∧
    (s.fget Reg.OBS_WHISTLE_CFG Fld.OBS_WHISTLE_CFG_PIN_EN = 1 → badAction a = false → s.obs.whistles.length < 4 →
      ∃ t, exec .dbgTrigInEdge s = .next t ∧ t.obs.whistles = s.obs.whistles ++ [((s.timeNs + 2000) % 2 ^ 32, a)] ∧
        Only { regs := true, obs := true } s t)) ∧
  (∀ (s : State) (v : Nat), s.canon = true → s.firstWhistle = some v →
    let u := s.reachNs v
    let due := s.obs.whistles.filter (fun w => u.reached w.1)
    let a := due.foldl (fun a w => a ||| w.2) 0
    ∃ t, exec .whistleFire s = .next t ∧ t.clk = u.clk ∧ t.obs.whistles = s.obs.whistles.filter (fun w => !u.reached w.1) ∧
      (bitOf a 0 = true → t.fget Reg.OBS_SNAP_INFO Fld.OBS_SNAP_INFO_SEQ = (s.fget Reg.OBS_SNAP_INFO Fld.OBS_SNAP_INFO_SEQ + 1) % 2 ^ 32 ∧
        t.fget Reg.OBS_SNAP_INFO Fld.OBS_SNAP_INFO_TIME_NS = u.timeNs ∧
        (∀ d n, d < 80 → n < 48 → s.blockUp d = true →
          timeEvents.contains (Fld.OBS_EVT_SEL_EVENT.get (s.reg (Reg.OBS_EVT_SEL d n))) = false →
          t.reg (Reg.OBS_SNAP d n) = BitVec.ofNat 64 (tblGet zeroAt s.obs.counters (d * 48 + n)))) ∧
      (bitOf a 0 = false → ∀ d n, d < 80 → n < 48 → t.reg (Reg.OBS_SNAP d n) = s.reg (Reg.OBS_SNAP d n)) ∧
      t.obs.counters = (if bitOf a 1 then [] else s.obs.counters) ∧
      t.fget Reg.OBS_WHISTLE_STATUS Fld.OBS_WHISTLE_STATUS_HELD =
        (if bitOf a 2 then 1 else if bitOf a 3 then 0 else s.fget Reg.OBS_WHISTLE_STATUS Fld.OBS_WHISTLE_STATUS_HELD)) ∧
  (∀ (s : State) (n seq : Nat) (d : Started), s.unbegun n seq 0x5050 = some d →
    (dumpBad d.bytes = true → ∃ t, exec (.counterDump n seq) s = .next t ∧ t.endOf n seq = some stBAD_OPERAND ∧ Only { started := true } s t) ∧
    (dumpBad d.bytes = false → ∃ t y o, exec (.counterDump n seq) s = .next t ∧ t.findStarted n seq = some y ∧ y.done = some o ∧
      o.status = stSUCCESS ∧ o.result = s.fget Reg.OBS_SNAP_INFO Fld.OBS_SNAP_INFO_SEQ ∧
      t.mem = (s.gwrite (.service (originOfDesc d.ring d.seq d.bytes)) 1 (leAt d.bytes 40 8) s.dumpBytes).mem))

/-- R675. When WHISTLE_FIRE captures, every snapshot slot of a die that is held in reset or power-gated is zero and its bit of SNAP_MISS_LO (dies 0 to 63) or SNAP_MISS_HI (dies 64 to
79) is set; the bit of every other die is clear. -/
def Obligations.CapturesMarkTheDiesThatMiss : Prop :=
  ∀ (s : State) (v : Nat), s.canon = true → s.firstWhistle = some v →
    bitOf ((s.obs.whistles.filter (fun w => (s.reachNs v).reached w.1)).foldl (fun a w => a ||| w.2) 0) 0 = true →
    ∃ t, exec .whistleFire s = .next t ∧
      (∀ d, d < 80 → s.blockUp d = false → ∀ n, n < 48 → t.reg (Reg.OBS_SNAP d n) = 0#64) ∧
      (∀ d, d < 64 → t.rbit Reg.OBS_SNAP_MISS_LO d = !(s.blockUp d)) ∧
      (∀ d, 64 ≤ d → d < 80 → t.rbit Reg.OBS_SNAP_MISS_HI (d - 64) = !(s.blockUp d))

/-- Trace and the TAPs (R683-R695). TRACE_CFG_WRITE keeps the new word beside the settings in force until they are applied. TRACE_POST_STOP: the packets after a trigger run out and the
buffer of the block stops, with none to run nothing changes. IDCODE, BYPASS, SAMPLE/PRELOAD and EXTEST shift out what R692 and R693 say; the four instructions that need UNLOCK act
as BYPASS without it; unlocked, IJTAG of a Trelfort that scans is all ones, KTRACE without a packet is zero, KEYPROG programs a blank key once, and
MEMACC writes eight bytes of HBM with DONE, reads them with DONE or is not done while the read waits, and reports ERROR for an address that leads
nowhere, or that is no multiple of 8 (the model's choice, assumption 112); `ecc` says what the codes find first. TRST# selects IDCODE in both TAPs. -/
def Obligations.TraceAndTapsAct : Prop :=
  (∀ (s : State) (v : Word), s.canon = true →
    (∃ t, exec (.traceCfgWrite false v) s = .next t ∧ t.fget Reg.OBS_TRACE_CFG Fld.OBS_TRACE_CFG_POST = Fld.OBS_TRACE_CFG_POST.get v ∧
      t.fget Reg.OBS_TRACE_CFG Fld.OBS_TRACE_CFG_MODE = Fld.OBS_TRACE_CFG_MODE.get v ∧ t.obs = { s.obs with trDirty := true } ∧
      SameRegs s t [Reg.OBS_TRACE_CFG] ∧ Only { regs := true, obs := true } s t) ∧
    (∃ t, exec (.traceCfgWrite true v) s = .next t ∧ t.fget Reg.OBS_TRACE_BASE Fld.OBS_TRACE_BASE_BASE = Fld.OBS_TRACE_BASE_BASE.get v ∧
      t.obs = { s.obs with trDirty := true } ∧ SameRegs s t [Reg.OBS_TRACE_BASE] ∧ Only { regs := true, obs := true } s t)) ∧
  (∀ (s : State) (b : Nat), s.canon = true → tblWf zeroAt s.obs.trPost = true → b < 64 → Fld.OBS_TRACE_CFG_SINK.get s.obs.trCfg = 0 →
    (tblGet zeroAt s.obs.trPost b = 0 → exec (.tracePostStop b) s = .next s) ∧
    (0 < tblGet zeroAt s.obs.trPost b → s.fget (Reg.OBS_TRACE_PTR b) Fld.OBS_TRACE_PTR_STOPPED = 0 → ∃ t, exec (.tracePostStop b) s = .next t ∧
      t.fget (Reg.OBS_TRACE_PTR b) Fld.OBS_TRACE_PTR_STOPPED = 1 ∧ tblGet zeroAt t.obs.trPost b = 0 ∧ SameRegs s t [Reg.OBS_TRACE_PTR b] ∧
      Only { regs := true, obs := true, freeCtr := true } s t)) ∧
  (∀ (s : State) (k : Nat), k < 2 →
    (∃ t, exec (.jtagBypass k) s = .next t ∧ t.out = s.out ++ [.tdo k 0] ∧ (if k = 0 then t.obs.ir0 else t.obs.ir1) = 0xFF ∧
      Only { out := true, obs := true } s t) ∧
    (∃ t, exec (.jtagIdcode k) s = .next t ∧ t.out = s.out ++ [.tdo k (if k = 0 then 0x1C160B47 else 0x1C161B47)] ∧
      (if k = 0 then t.obs.ir0 else t.obs.ir1) = 0x01 ∧ Only { out := true, obs := true } s t) ∧
    (∀ pads x, ∃ t, exec (.jtagSamplePreload k pads x) s = .next t ∧ t.out = s.out ++ [.tdo k pads] ∧ t.obs.bsr = x ∧ t.obs.pads = s.obs.pads ∧
      Only { out := true, obs := true } s t) ∧
    (∀ pads x, ∃ t, exec (.jtagExtest k pads x) s = .next t ∧ t.out = s.out ++ [.tdo k pads] ∧ t.obs.bsr = x ∧ t.obs.pads = x ∧
      t.obs.extest = true ∧ Only { out := true, obs := true } s t)) ∧
  (∀ (s : State) (k : Nat) (c : Instr), k < 2 → s.unlocked = false →
    (∃ n h, c = .jtagIjtag k n h) ∨ c = .jtagKtrace k ∨ (∃ key, c = .jtagKeyprog k key) →
    ∃ t, exec c s = .next t ∧ t.out = s.out ++ [.tdo k 0] ∧ t.mem = s.mem ∧ t.regs = s.regs ∧ Only { out := true, obs := true } s t) ∧
  (∀ (z : State) (k addr : Nat) (w : Bool) (v : Word) (ecc : EccFinds), k < 2 →
    let s := z.eccAll ecc
    s.unlocked = false → ∃ t, exec (.jtagMemacc k w addr v ecc) z = .next t ∧ t.out = s.out ++ [.tdo k 0] ∧ t.mem = s.mem ∧ t.regs = s.regs ∧
      Only { out := true, obs := true } s t) ∧
  (∀ (s : State) (k : Nat), k < 2 → s.unlocked = true →
    (∀ n h c, s.scan = some c → s.trfOf c.trf = k → ∃ t, exec (.jtagIjtag k n h) s = .next t ∧ t.out = s.out ++ [.tdo k (2 ^ n - 1)] ∧
      Only { out := true, obs := true } s t) ∧
    (Fld.OBS_TRACE_CFG_KCORE.get s.obs.trCfg = 0 → tblGet zeroAt s.obs.kWrite k ≤ tblGet zeroAt s.obs.kRead k →
      ∃ t, exec (.jtagKtrace k) s = .next t ∧ t.out = s.out ++ [.tdo k 0] ∧ Only { out := true, obs := true } s t) ∧
    (∀ key, key.length = 32 → ∃ t, exec (.jtagKeyprog k key) s = .next t ∧
      (if k = 0 then t.obs.macKey0 = some (s.obs.macKey0.getD key) ∧ t.obs.macKey1 = s.obs.macKey1
        else t.obs.macKey1 = some (s.obs.macKey1.getD key) ∧ t.obs.macKey0 = s.obs.macKey0) ∧ Only { obs := true } s t)) ∧
  (∀ (z : State) (k addr : Nat) (v : Word) (ecc : EccFinds), z.canon = true → k < 2 → addr < 2 ^ 64 →
    let s := z.eccAll ecc
    s.unlocked = true → s.primary.isSome = true →
    (∀ a, addr % 8 = 0 → s.gloc addr = .own (.hbm a) → s.sumpHolds a 8 = false → s.behindHeld a 8 = false →
      s.behindRead .jtag s.order (burstsOf a 8) = false → ∃ t, exec (.jtagMemacc k true addr v ecc) z = .next t ∧ t.mem.read a 8 = leBytes 8 v.toNat ∧
        t.out = s.out ++ [.tdo k (v.toNat + addr * 2 ^ 64 + 2 ^ 128)]) ∧
    (∀ a, addr % 8 = 0 → s.gloc addr = .own (.hbm a) → s.readWaits .jtag s.order addr 8 = false → (pagesOf a 8).any s.isWithdrawn = false →
      s.poisonedAt a 8 = false → ∃ t, exec (.jtagMemacc k false addr v ecc) z = .next t ∧
        t.out = s.out ++ [.tdo k (leNat (s.mem.read a 8) + addr * 2 ^ 64 + 2 ^ 128)] ∧ Only { tor := true, out := true, obs := true } s t) ∧
    (∀ a, addr % 8 = 0 → s.gloc addr = .own (.hbm a) → s.readWaits .jtag s.order addr 8 = true → ∃ t, exec (.jtagMemacc k false addr v ecc) z = .next t ∧
      t.out = s.out ++ [.tdo k (addr * 2 ^ 64)] ∧ t.waitRd = s.waitRd ++ [{ who := .jtag, stamp := s.order, addr := addr, len := 8 }] ∧
      Only { waitRd := true, order := true, out := true, obs := true } s t) ∧
    (∀ w, addr % 8 ≠ 0 ∨ s.isUnmapped (s.entry .jtag) addr = true → ∃ t, exec (.jtagMemacc k w addr v ecc) z = .next t ∧ Counted s t 0x14 ∧
      Out.tdo k (addr * 2 ^ 64 + 2 ^ 128 + 2 ^ 129) ∈ t.out)) ∧
  (∀ (s : State), ∃ t, exec .trstAssert s = .next t ∧ t.obs.ir0 = 0x01 ∧ t.obs.ir1 = 0x01 ∧ t.obs.extest = false ∧ t.obs.ijtag = none ∧
    Only { obs := true } s t)

/-- The feeds (R625-R629, R739, R740). FEED_IN_RANGE brings an ABSENT or FAILED feed to QUALIFYING; FEED_PRECHARGE_START and _DONE charge it, after which its qualification
counts; FEED_QUALIFIED ends qualification in STANDBY, or in ACTIVE for FEED_A of a module that waits for a feed, and a failed self-test starts it again;
FEED_OUT_OF_RANGE returns a QUALIFYING or STANDBY feed to ABSENT; FEEDB_POWERUP_TIMER makes FEED_B ACTIVE 30 s after it qualified; FEED_TRIP makes the
feed FAILED and the other one ACTIVE when it picks up, else the module is without power. FEED_CURRENT_LIMIT steps CAP_MHZ by 50. -/
def Obligations.FeedsFollowTheirRules : Prop :=
  (∀ (s : State) (f volt : Nat), s.canon = true → f < 2 → volt < 65536 →
    (voltIn volt = true → ∃ t, exec (.feedInRange f volt) s = .next t ∧ t.fget Reg.PWR_FEED_MEAS (feedVoltFld f) = volt ∧
      t.feed f = { s.feed f with inRange := true, since := if (s.feed f).charged then some s.clk.now else none } ∧
      t.feedState f = (if s.feedState f = fABSENT ∨ s.feedState f = fFAILED then fQUALIFYING else s.feedState f) ∧
      t.feed (1 - f) = s.feed (1 - f) ∧ t.feedState (1 - f) = s.feedState (1 - f) ∧
      Only { regs := true, trf := true, flt := true, journal := true, pwr := true } s t) ∧
    (voltIn volt = false → ∃ t, exec (.feedOutOfRange f volt) s = .next t ∧ t.fget Reg.PWR_FEED_MEAS (feedVoltFld f) = volt ∧
      (t.feed f).inRange = false ∧ (t.feed f).since = none ∧ (t.feed f).charged = ((s.feed f).charged && 1000 < volt) ∧
      t.feedState f = (if s.feedState f = fQUALIFYING ∨ s.feedState f = fSTANDBY then fABSENT else s.feedState f) ∧
      t.feed (1 - f) = s.feed (1 - f) ∧ t.feedState (1 - f) = s.feedState (1 - f)) ∧
    (1000 < volt → ∃ t, exec (.feedPrechargeStart f volt) s = .next t ∧ t.fget Reg.PWR_FEED_MEAS (feedVoltFld f) = volt ∧
      t.feed f = (if (s.feed f).charged then s.feed f else { s.feed f with charging := true }) ∧ SameRegs s t [Reg.PWR_FEED_MEAS] ∧
      Only { regs := true, pwr := true } s t) ∧
    ((s.feed f).charging = true → ∃ t, exec (.feedPrechargeDone f) s = .next t ∧
      t.feed f = { s.feed f with charging := false, charged := true, since := if (s.feed f).inRange then some s.clk.now else none } ∧
      t.feed (1 - f) = s.feed (1 - f) ∧ Only { pwr := true } s t) ∧
    ((s.feed f).charging = false → exec (.feedPrechargeDone f) s = .next s)) ∧
  (∀ (s : State) (f τ : Nat), s.canon = true → f < 2 → (s.feed f).since = some τ → s.feedState f = fQUALIFYING →
    (∃ t, exec (.feedQualified f true) s = .next t ∧ t.clk.now = max s.clk.now (τ + 10000000000) ∧ (t.feed f).qualAt = t.clk.now ∧
      t.fget Reg.PWR_FEED_CHECK (feedTestFld f) = 1 ∧ t.feedState f = (if f = 0 ∧ s.awaitsFeed = true then fACTIVE else fSTANDBY)) ∧
    (∃ t, exec (.feedQualified f false) s = .next t ∧ t.clk.now = max s.clk.now (τ + 10000000000) ∧ (t.feed f).since = some t.clk.now ∧
      t.fget Reg.PWR_FEED_CHECK (feedTestFld f) = 0 ∧ t.feedState f = fQUALIFYING ∧
      Rose s t Reg.PWR_FEED_CHECK Fld.PWR_FEED_CHECK_QUAL_FAILS 1 ∧ SameRegs s t [Reg.PWR_FEED_CHECK])) ∧
  (∀ (s : State), s.canon = true → s.awaitsFeed = true → s.feedState 1 = fSTANDBY → s.feedState 0 ≠ fSTANDBY →
    ∃ t, exec .feedbPowerupTimer s = .next t ∧ s.pwr.feedB.qualAt + 30000000000 ≤ t.clk.now ∧ t.feedState 1 = fACTIVE ∧
      t.fget Reg.PWR_FEED_STATUS Fld.PWR_FEED_STATUS_ACTIVE = 1 ∧ t.fed = true) ∧
  (∀ (s : State) (f volt : Nat) (pickup : Bool), s.canon = true → f < 2 → volt < 65536 → s.feedState f = fACTIVE →
    s.feedState (1 - f) ≠ fACTIVE →
    (s.feedState (1 - f) = fSTANDBY → pickup = true → ∃ t, exec (.feedTrip f volt pickup) s = .next t ∧ t.feedState f = fFAILED ∧
      t.feedState (1 - f) = fACTIVE ∧ t.fget Reg.PWR_FEED_STATUS Fld.PWR_FEED_STATUS_ACTIVE = 1 - f ∧
      Rose s t Reg.PWR_FEED_STATUS Fld.PWR_FEED_STATUS_SWITCHES 1 ∧ Counted s t 0x0B ∧ t.pwr.good = s.pwr.good ∧ t.dark = s.dark) ∧
    (s.feedState (1 - f) ≠ fSTANDBY ∨ pickup = false → ∃ t, exec (.feedTrip f volt pickup) s = .next t ∧ t.feedState f = fFAILED ∧
      t.fed = false ∧ t.pwr.good = false ∧ Counted s t 0x0B ∧ (∀ d, d < 0x50 → t.dark.contains d = true))) ∧
  (∀ (s : State) (f volt : Nat) (pickup : Bool), s.feedState f ≠ fACTIVE → exec (.feedTrip f volt pickup) s = .next s) ∧
  (∀ (s : State) (curr : Nat), s.canon = true → s.primary.isSome = true → s.pwr.good = true → s.pwr.thermCap ≤ 1000 →
    (1000 < curr → s.pwr.overCur = false → ∃ t, exec (.feedCurrentLimit curr) s = .next t ∧ t.pwr.overCur = true ∧
      t.capMhz = max 600 (min (s.capMhz - 50) s.pwr.thermCap) ∧ Only { regs := true, pwr := true } s t) ∧
    (curr < 950 → s.pwr.overCur = true → ∃ t, exec (.feedCurrentLimit curr) s = .next t ∧ t.pwr.overCur = false ∧
      t.capMhz = max 600 (min (s.capMhz + 50) s.pwr.thermCap) ∧ Only { regs := true, pwr := true } s t))

/-- Clock and power states (R715-R723). TARGET_MHZ_WRITE of a valid value sets EFF_MHZ to the smaller of it and CAP_MHZ, in DOZE at the exit; another is rejected.
DVFS_GLIDE_STEP moves the PLLs at most 50 MHz towards EFF_MHZ. ARRAY_IDLE gates the cells and STATE is IDLE. POWER with bad operands is BAD_OPERAND; an entry
in one of the cases of R721 is REFUSED and changes nothing else; else the module is in DOZE, its blocks are off and their counters zero; the exit
brings the blocks back, fences the silent ones, and with ACTION 0 outside DOZE nothing else changes. -/
def Obligations.ClockAndDozeFollowTheirRules : Prop :=
  (∀ (s : State) (v : Word), s.canon = true →
    let n := Fld.PWR_DVFS_TARGET_MHZ.get v
    (600 ≤ n ∧ n ≤ 1000 ∧ n % 50 = 0 → ∃ t, exec (.targetMhzWrite v) s = .next t ∧ t.fget Reg.PWR_DVFS Fld.PWR_DVFS_TARGET_MHZ = n ∧
      t.fget Reg.PWR_DVFS Fld.PWR_DVFS_EFF_MHZ = (if s.pwr.doze then s.fget Reg.PWR_DVFS Fld.PWR_DVFS_EFF_MHZ else min n s.capMhz) ∧
      t.capMhz = s.capMhz ∧ SameRegs s t [Reg.PWR_DVFS, Reg.PWR_STATE] ∧ Only { regs := true } s t) ∧
    (¬(600 ≤ n ∧ n ≤ 1000 ∧ n % 50 = 0) → ∃ t, exec (.targetMhzWrite v) s = .next t ∧ t.reg Reg.PWR_DVFS = s.reg Reg.PWR_DVFS ∧
      Counted s t 0x11 ∧ Only Parts.report s t)) ∧
  (∀ (s : State), s.canon = true →
    let e := s.fget Reg.PWR_DVFS Fld.PWR_DVFS_EFF_MHZ
    (s.pwr.doze = false → s.pwr.mhz ≠ e → ∃ t, exec .dvfsGlideStep s = .next t ∧
      t.pwr.mhz = (if s.pwr.mhz < e then min e (s.pwr.mhz + 50) else max e (s.pwr.mhz - 50)) ∧ SameRegs s t [Reg.PWR_STATE] ∧
      Only { regs := true, pwr := true } s t) ∧
    (s.pwr.doze = true ∨ s.pwr.mhz = e → exec .dvfsGlideStep s = .next s)) ∧
  (∀ (s : State), s.canon = true → s.service = true → s.pwr.doze = false → (∀ d, d ∈ s.started → d.fn ≠ 0) → s.arr.prefetch = none →
    ∃ t, exec .arrayIdle s = .next t ∧ s.arr.busyAt + 1000 ≤ t.clk.now ∧ t.pwr.gated = true ∧
      t.fget Reg.PWR_STATE Fld.PWR_STATE_STATE = 3 ∧ SameRegs s t [Reg.PWR_STATE] ∧ Only { regs := true, clk := true, pwr := true } s t) ∧
  (∀ (s : State) (n seq : Nat) (d : Started) (silent : List Nat), s.canon = true → s.unbegun n seq 0x5060 = some d →
    let act := leAt d.bytes 24 1
    let bad := dPARAM d.bytes = true ∨ 1 < act ∨ zeroBytes d.bytes 25 63 = false
    (bad → ∃ t, exec (.power n seq silent) s = .next t ∧ t.endOf n seq = some stBAD_OPERAND ∧ Only { started := true } s t) ∧
    (¬bad → act = 1 → s.dozeRefused = true → ∃ t, exec (.power n seq silent) s = .next t ∧ t.endOf n seq = some stREFUSED ∧
      Only { started := true } s t) ∧
    (¬bad → act = 1 → s.dozeRefused = false → (∀ r u, s.updRun r = some u → ¬(u.ring = n ∧ u.seq = seq)) →
      ∃ t, exec (.power n seq silent) s = .next t ∧ t.endOf n seq = some stSUCCESS ∧ t.pwr.doze = true ∧
        t.fget Reg.PWR_STATE Fld.PWR_STATE_STATE = 4 ∧ (∀ b, b < 64 → t.blockUp b = false) ∧
        (∀ b k, b < 64 → k < 48 → tblGet zeroAt t.obs.counters (b * 48 + k) = 0)) ∧
    (¬bad → act = 0 → s.pwr.doze = true → ∃ t, exec (.power n seq silent) s = .next t ∧ t.endOf n seq = some stSUCCESS ∧
      t.pwr.doze = false ∧ t.fget Reg.PWR_DVFS Fld.PWR_DVFS_EFF_MHZ = min (s.fget Reg.PWR_DVFS Fld.PWR_DVFS_TARGET_MHZ) s.capMhz ∧
      (∀ b, b < 64 → t.blockUp b = true) ∧ (∀ b, b < 64 → b ∈ silent → t.rbit Reg.ARR_FENCE_BLOCK b = true)) ∧
    (¬bad → act = 0 → s.pwr.doze = false → ∃ t, exec (.power n seq silent) s = .next t ∧ t.endOf n seq = some stSUCCESS ∧
      Only { started := true } s t))

/-- Temperature (R724-R726). THERMAL_WARN and CAP_STEP: the first lowering of an episode is counted in WARNS and reported; each step moves the cap by 50 MHz, within 600 and
the thermal cap, 10 ms after the last one when it falls and 100 ms when it rises. THERMAL_TRIP: PWR_GOOD is gone, every compute, Ledger and link die is without
power, the lost stacks are marked and THERMAL is counted. THERMTRIP_RELEASE: 60 s after the trip, with the inlet at 40 °C or below, THERMTRIP# is let go. A
COOLANT_INLET_READING above 40 °C is reported once. -/
def Obligations.TemperatureFollowsItsRules : Prop :=
  (∀ (s : State) (die temp : Nat), s.canon = true → s.primary.isSome = true → s.pwr.good = true → die < 256 → temp < 256 → s.pwr.thermCap ≤ 1000 →
    (s.warnC ≤ temp → s.pwr.hot = true → ∃ t, exec (.thermalWarn die temp) s = .next t ∧
      t.fget Reg.PWR_THERM_STATUS Fld.PWR_THERM_STATUS_MAX_C = temp ∧ t.fget Reg.PWR_THERM_STATUS Fld.PWR_THERM_STATUS_HOT_DIE = die ∧
      SameRegs s t [Reg.PWR_THERM_STATUS] ∧ Only { regs := true } s t) ∧
    (∀ c, c = .thermalWarn die temp ∨ c = .capStep die temp → s.warnC ≤ temp → s.pwr.hot = false → ∃ t, exec c s = .next t ∧ t.pwr.hot = true ∧
      Rose s t Reg.PWR_THERM_STATUS Fld.PWR_THERM_STATUS_WARNS 1 ∧ Counted s t 0x0C ∧ t.pwr.thermCap = max 600 (s.pwr.thermCap - 50) ∧
      t.capMhz = max 600 (min (s.capMhz - 50) t.pwr.thermCap) ∧ Only (Parts.report.or { pwr := true }) s t) ∧
    (s.warnC ≤ temp → s.pwr.hot = true → ∃ t, exec (.capStep die temp) s = .next t ∧ s.pwr.capAt + 10000000 ≤ t.clk.now ∧
      t.pwr.thermCap = max 600 (s.pwr.thermCap - 50) ∧ t.capMhz = max 600 (min (s.capMhz - 50) t.pwr.thermCap)) ∧
    (temp + 5 < s.warnC → s.pwr.overCur = false → ∃ t, exec (.capStep die temp) s = .next t ∧ s.pwr.capAt + 100000000 ≤ t.clk.now ∧
      t.pwr.thermCap = min 1000 (s.pwr.thermCap + 50) ∧ t.capMhz = max 600 (min (s.capMhz + 50) t.pwr.thermCap) ∧ t.pwr.hot = false)) ∧
  (∀ (s : State) (die temp : Nat) (lost : List Nat), s.canon = true → s.pwr.good = true → 110 ≤ temp → temp < 256 → die < 256 →
    ∃ t, exec (.thermalTrip die temp lost) s = .next t ∧ t.pwr.good = false ∧ t.pwr.tripped = true ∧ t.pwr.tripAt = some s.clk.now ∧
      Rose s t Reg.PWR_THERM_STATUS Fld.PWR_THERM_STATUS_TRIPS 1 ∧ Counted s t 0x0C ∧ (∀ d, d < 0x50 → t.dark.contains d = true) ∧
      (∀ k, k < 16 → t.rbit Reg.PWR_THERM_STATUS k = (s.rbit Reg.PWR_THERM_STATUS k || lost.contains k)) ∧
      Out.pin 2 true ∈ t.out ∧ Out.pin 1 false ∈ t.out ∧ t.mem.hbm = s.mem.hbm) ∧
  (∀ (s : State) (τ : Nat), s.pwr.tripAt = some τ →
    (s.fget Reg.PWR_THERM_STATUS Fld.PWR_THERM_STATUS_COOLANT_C ≤ 40 → ∃ t, exec .thermtripRelease s = .next t ∧
      t.clk.now = max s.clk.now (τ + 60000000000) ∧ t.pwr = { s.pwr with tripAt := none } ∧ t.out = s.out ++ [.pin 2 false] ∧
      Only { clk := true, pwr := true, out := true } s t) ∧
    (40 < s.fget Reg.PWR_THERM_STATUS Fld.PWR_THERM_STATUS_COOLANT_C → exec .thermtripRelease s = .next s)) ∧
  (∀ (s : State) (temp : Nat), s.canon = true → s.primary.isSome = true → temp ≤ 0xFF →
    (40 < temp → temp < 0xFF → s.pwr.inletHot = false → ∃ t, exec (.coolantInletReading temp) s = .next t ∧
      t.fget Reg.PWR_THERM_STATUS Fld.PWR_THERM_STATUS_COOLANT_C = temp ∧ t.pwr = { s.pwr with inletHot := true } ∧ Counted s t 0x0C ∧
      Only (Parts.report.or { pwr := true }) s t) ∧
    (40 < temp → s.pwr.inletHot = true → ∃ t, exec (.coolantInletReading temp) s = .next t ∧
      t.fget Reg.PWR_THERM_STATUS Fld.PWR_THERM_STATUS_COOLANT_C = temp ∧ SameRegs s t [Reg.PWR_THERM_STATUS] ∧ Only { regs := true } s t) ∧
    (temp ≤ 40 → ∃ t, exec (.coolantInletReading temp) s = .next t ∧ t.fget Reg.PWR_THERM_STATUS Fld.PWR_THERM_STATUS_COOLANT_C = temp ∧
      t.pwr = { s.pwr with inletHot := false } ∧ SameRegs s t [Reg.PWR_THERM_STATUS] ∧ Only { regs := true, pwr := true } s t))

/-- R744. A COOLANT_INLET_READING of 0xFF, the sensor not answering: COOLANT_C reads 0xFF and nothing else changes, so nothing is reported. -/
def Obligations.SilentCoolantSensorReadsFF : Prop :=
  ∀ (s : State), s.canon = true → s.primary.isSome = true → ∃ t, exec (.coolantInletReading 0xFF) s = .next t ∧
    t.fget Reg.PWR_THERM_STATUS Fld.PWR_THERM_STATUS_COOLANT_C = 0xFF ∧ SameRegs s t [Reg.PWR_THERM_STATUS] ∧ Only { regs := true } s t

/-- Chain enumeration and assignment (R707-R714). ENUM_TOKEN_RECEIVE: a frame that fails START, TYPE, CRC or coding is counted in BAD_FRAMES; the first valid token with SLOT 0 to 15 gives a
module without a slot that slot, and the module sends SLOT + 1 (OVER for 15); a token with another SLOT than the held one is counted and kept in LAST_RX, and
the slot stays. ENUM_TOKEN_SEND sends again after 10 ms. ENUM_WAIT_EXPIRE sets STUCK when nothing moved. CHIP_ASSIGN_WRITE by management, before step 8
or with every link function stopped, sets CHIP_ASSIGN, and CHIP_NUMBER follows; any other is rejected. -/
def Obligations.SlotsAndChipNumbersFollowTheirRules : Prop :=
  (∀ (s : State) (f : List Byte) (coded : Bool), s.canon = true → s.enumerates = true →
    (tokenOk f coded = false → ∃ t, exec (.enumTokenReceive f coded) s = .next t ∧ t.slot = s.slot ∧ t.pwr.enumMove = true ∧
      Rose s t Reg.MOD_ENUM_STATUS Fld.MOD_ENUM_STATUS_BAD_FRAMES 1 ∧ SameRegs s t [Reg.MOD_ENUM_STATUS] ∧ Only { regs := true, pwr := true } s t) ∧
    (tokenOk f coded = true → s.slot = none → bitOf (leAt f 3 1) 0 = false → leAt f 2 1 ≤ 15 →
      ∃ t, exec (.enumTokenReceive f coded) s = .next t ∧ t.slot = some (leAt f 2 1) ∧
        t.fget Reg.MOD_ENUM_STATUS Fld.MOD_ENUM_STATUS_SLOT_VALID = 1 ∧
        t.out = s.out ++ [.enumToken (if leAt f 2 1 < 15 then leAt f 2 1 + 1 else 0xFF)] ∧
        t.fget Reg.MOD_CHIP_NUMBER Fld.MOD_CHIP_NUMBER_MEMBER = 16 * s.assign Fld.MOD_CHIP_ASSIGN_RACK + leAt f 2 1 ∧
        (t.chip.isSome = (s.assign Fld.MOD_CHIP_ASSIGN_VALID == 1))) ∧
    (∀ k, tokenOk f coded = true → s.slot = some k → leAt f 2 1 = k → ∃ t, exec (.enumTokenReceive f coded) s = .next t ∧ t.regs = s.regs ∧
      Only { pwr := true } s t) ∧
    (∀ k, tokenOk f coded = true → s.slot = some k → leAt f 2 1 ≠ k → ∃ t, exec (.enumTokenReceive f coded) s = .next t ∧ t.slot = some k ∧
      t.fget Reg.MOD_ENUM_STATUS Fld.MOD_ENUM_STATUS_SLOT_CHANGED = 1 ∧ t.fget Reg.MOD_ENUM_STATUS Fld.MOD_ENUM_STATUS_LAST_RX = leAt f 2 1 ∧
      Rose s t Reg.MOD_ENUM_STATUS Fld.MOD_ENUM_STATUS_CHANGES 1 ∧ SameRegs s t [Reg.MOD_ENUM_STATUS] ∧ Only { regs := true, pwr := true } s t)) ∧
  (∀ (s : State), s.enumerates = true →
    (∀ k, s.slot = some k → ∃ t, exec .enumTokenSend s = .next t ∧ s.pwr.tokenAt + 10000000 ≤ t.clk.now ∧ t.pwr.tokenAt = t.clk.now ∧
      t.out = s.out ++ [.enumToken (if k < 15 then k + 1 else 0xFF)] ∧ Only { clk := true, out := true, pwr := true } s t) ∧
    (s.slot = none → s.fget Reg.MOD_ENUM_STATUS Fld.MOD_ENUM_STATUS_OVER = 0 → exec .enumTokenSend s = .next s)) ∧
  (∀ (s : State), s.canon = true → s.stepNo = 3 → s.pwr.enumOk = false → ∃ t, exec .enumWaitExpire s = .next t ∧
    s.pwr.step3At + 1000000000 * s.fget Reg.PWR_START_CFG Fld.PWR_START_CFG_ENUM_WAIT_S ≤ t.clk.now ∧
    t.fget Reg.MOD_ENUM_STATUS Fld.MOD_ENUM_STATUS_STUCK = (if s.pwr.enumMove then 0 else 1) ∧ SameRegs s t [Reg.MOD_ENUM_STATUS] ∧
    Only { regs := true, clk := true } s t) ∧
  (∀ (s : State) (mgmt : Bool) (v : Word), s.canon = true →
    (mgmt = true → s.assignOpen = true → Fld.MOD_CHIP_ASSIGN_GROUP.get v < 64 → ∃ t, exec (.chipAssignWrite mgmt v) s = .next t ∧
      t.assign Fld.MOD_CHIP_ASSIGN_GROUP = Fld.MOD_CHIP_ASSIGN_GROUP.get v ∧ t.assign Fld.MOD_CHIP_ASSIGN_RACK = Fld.MOD_CHIP_ASSIGN_RACK.get v ∧
      t.assign Fld.MOD_CHIP_ASSIGN_SLOT_OVR_EN = Fld.MOD_CHIP_ASSIGN_SLOT_OVR_EN.get v ∧
      (Fld.MOD_CHIP_ASSIGN_SLOT_OVR_EN.get v = 1 → t.slot = some (Fld.MOD_CHIP_ASSIGN_SLOT_OVR.get v) ∧ t.pwr.tokenAt = s.clk.now) ∧
      t.fget Reg.MOD_CHIP_NUMBER Fld.MOD_CHIP_NUMBER_GROUP = Fld.MOD_CHIP_ASSIGN_GROUP.get v ∧
      t.fget Reg.MOD_CHIP_NUMBER Fld.MOD_CHIP_NUMBER_MEMBER = 16 * Fld.MOD_CHIP_ASSIGN_RACK.get v + t.slot.getD 0 ∧
      (t.chip.isSome = (Fld.MOD_CHIP_ASSIGN_VALID.get v == 1 && t.slot.isSome))) ∧
    (mgmt = false ∨ s.assignOpen = false ∨ 64 ≤ Fld.MOD_CHIP_ASSIGN_GROUP.get v → ∃ t, exec (.chipAssignWrite mgmt v) s = .next t ∧
      t.reg Reg.MOD_CHIP_ASSIGN = s.reg Reg.MOD_CHIP_ASSIGN ∧ t.reg Reg.MOD_CHIP_NUMBER = s.reg Reg.MOD_CHIP_NUMBER ∧ Counted s t 0x11 ∧
      Only Parts.report s t))

/-- R709. A valid token with OVER = 1, or SLOT above 15, at a module that holds no slot: it takes none, OVER is set, and the module sends a token with OVER = 1 and
SLOT 0xFF; ENUM_TOKEN_SEND sends such a token again. -/
def Obligations.TokensPastTheEndGiveNoSlot : Prop :=
  ∀ (s : State) (f : List Byte), s.canon = true → s.enumerates = true → tokenOk f true = true → s.slot = none →
    (bitOf (leAt f 3 1) 0 = true ∨ 15 < leAt f 2 1) →
    ∃ t u, exec (.enumTokenReceive f true) s = .next t ∧ t.slot = none ∧ t.fget Reg.MOD_ENUM_STATUS Fld.MOD_ENUM_STATUS_OVER = 1 ∧
      t.out = s.out ++ [.enumToken 0xFF] ∧ exec .enumTokenSend t = .next u ∧ u.out = t.out ++ [.enumToken 0xFF]

/-- Start-up (R697-R706). POWER_UP with a feed ACTIVE and no trip held: PWR_GOOD, step 2, no memory but flash. ASSIGN_WAIT_EXPIRE ends step 3 with NO_CHIP, LOCK_WAIT_EXPIRE ends step 4 with NO_TIME and
PTP off. START_CFG_WRITE by management is taken, any other is rejected. STARTUP_READY: blocks that failed the scan stay in reset, fenced and counted; every other die
runs; stacks lost in a trip read as after power-up; the BARs open or PCIE_DOWN is set; functions 0x050 and 0x051 that pass their checks are in RUN; READY, SERVICE and
ELAPSED_MS. The endpoint answers configuration requests with Retry Status until then, and a link that comes up later opens the BARs. -/
def Obligations.StartupRunsToReady : Prop :=
  (∀ (s : State), s.fed = true → s.pwr.good = false →
    (s.pwr.tripped = false → ∃ t, exec .powerUp s = .next t ∧ t.pwr.good = true ∧ t.stepNo = 2 ∧ t.clk.start = s.clk.now ∧ t.out = s.out ++ [.pin 1 true] ∧
      t.mem = { hostW := s.mem.hostW, flash0 := s.mem.flash0, flash1 := s.mem.flash1 } ∧ t.started = [] ∧ t.reg Reg.PWR_START_CFG = s.reg Reg.PWR_START_CFG ∧
      (∀ f, f < 0x300 → fnAssigned f = true → t.fnState f = fnSTOPPED) ∧
      t.fget Reg.EVR_LIFE Fld.EVR_LIFE_POWER_CYCLES = min (2 ^ 32 - 1) (s.fget Reg.EVR_LIFE Fld.EVR_LIFE_POWER_CYCLES + 1)) ∧
    (s.pwr.tripped = true → exec .powerUp s = .next s)) ∧
  (∀ (s : State), s.canon = true → s.stepNo = 3 → s.chip = none →
    ∃ t, exec .assignWaitExpire s = .next t ∧ s.pwr.step3At + 1000000000 * s.fget Reg.PWR_START_CFG Fld.PWR_START_CFG_ASSIGN_WAIT_S ≤ t.clk.now ∧
      s.pwr.step3At + 1000000000 * s.fget Reg.PWR_START_CFG Fld.PWR_START_CFG_ENUM_WAIT_S ≤ t.clk.now ∧ t.rbit Reg.PWR_START_STATUS 6 = true ∧
      (t.stepNo = 4 ∨ t.stepNo = 5) ∧ SameRegs s t [Reg.PWR_START_STATUS] ∧ Only { regs := true, clk := true, pwr := true } s t) ∧
  (∀ (s : State), s.canon = true → s.stepNo = 4 →
    ∃ t, exec .lockWaitExpire s = .next t ∧ s.pwr.step4At + 1000000000 * s.fget Reg.PWR_START_CFG Fld.PWR_START_CFG_LOCK_WAIT_S ≤ t.clk.now ∧
      t.rbit Reg.PWR_START_STATUS 5 = true ∧ t.fget Reg.TIME_CFG Fld.TIME_CFG_PTP_EN = 0 ∧ t.timeState = tFREE ∧ t.stepNo = 5) ∧
  (∀ (s : State) (v : Word), s.canon = true →
    (∃ t, exec (.startCfgWrite true v) s = .next t ∧ t.fget Reg.PWR_START_CFG Fld.PWR_START_CFG_SCAN = Fld.PWR_START_CFG_SCAN.get v ∧
      t.fget Reg.PWR_START_CFG Fld.PWR_START_CFG_LOCK_WAIT_S = Fld.PWR_START_CFG_LOCK_WAIT_S.get v ∧
      t.fget Reg.PWR_START_CFG Fld.PWR_START_CFG_ASSIGN_WAIT_S = Fld.PWR_START_CFG_ASSIGN_WAIT_S.get v ∧
      t.fget Reg.PWR_START_CFG Fld.PWR_START_CFG_ENUM_WAIT_S = Fld.PWR_START_CFG_ENUM_WAIT_S.get v ∧ SameRegs s t [Reg.PWR_START_CFG] ∧
      Only { regs := true } s t) ∧
    (∃ t, exec (.startCfgWrite false v) s = .next t ∧ t.reg Reg.PWR_START_CFG = s.reg Reg.PWR_START_CFG ∧ Counted s t 0x11 ∧ Only Parts.report s t)) ∧
  (∀ (s : State) (failed : List Nat) (noScan : Bool) (settings : List (Nat × Word)) (rings : List Nat), s.canon = true → s.stepNo = 5 →
    s.primary.isSome = true → s.pwr.good = true →
    let scan := s.fget Reg.PWR_START_CFG Fld.PWR_START_CFG_SCAN
    ∃ t, exec (.startupReady failed noScan settings rings) s = .next t ∧ t.fget Reg.PWR_START_STATUS Fld.PWR_START_STATUS_READY = 1 ∧ t.stepNo = 0 ∧
      t.fget Reg.MOD_RESET_STATUS Fld.MOD_RESET_STATUS_PHASE = 1 ∧ t.hang.reset = none ∧
      t.fget Reg.PWR_START_STATUS Fld.PWR_START_STATUS_ELAPSED_MS = (s.clk.now - s.pwr.startAt) / 1000000 % 2 ^ 32 ∧
      (∀ b, b < 64 → (t.blockUp b = false ↔ scan = 1 ∧ b ∈ failed)) ∧ (∀ b, b < 64 → scan = 1 → b ∈ failed → t.rbit Reg.ARR_FENCE_BLOCK b = true) ∧
      (scan = 1 → noScan = true → t.rbit Reg.PWR_START_STATUS 4 = true) ∧ (scan = 0 → t.fget Reg.PWR_START_STATUS Fld.PWR_START_STATUS_SCAN_FAILED = 0) ∧
      (∀ a, a < 2 ^ 40 → bitOf (s.fget Reg.PWR_THERM_STATUS Fld.PWR_THERM_STATUS_LOST_STACKS) (a / 2 ^ 36) = true → t.mem.byte a = hbmDefault a) ∧
      (s.pcie.perst = false → t.pcie.bars = true) ∧ (s.pcie.perst = true → t.rbit Reg.PWR_START_STATUS 3 = true) ∧ Out.pin 3 true ∈ t.out ∧
      t.fnState 0x51 = fnRUN ∧ (settings = [] → s.badSetting 0x50 = none → t.fnState 0x50 = fnRUN)) ∧
  (∀ (s : State), s.pcieOut = true → s.pcie.linkUp = true →
    (∀ q, s.fget Reg.PWR_START_STATUS Fld.PWR_START_STATUS_READY = 0 → exec (.pcieConfigRequest q) s = .next (s.emit (.cfgReply true 0))) ∧
    (s.fget Reg.PWR_START_STATUS Fld.PWR_START_STATUS_READY = 1 →
      (∀ off, ∃ t x, exec (.pcieConfigRequest (.read off)) s = .next t ∧ t.out = s.out ++ [.cfgReply false x] ∧ Only { freeCtr := true, out := true } s t) ∧
      (∀ off x, exec (.pcieConfigRequest (.write off x)) s = .next (s.emit (.cfgReply false 0))) ∧
      (∀ en fm, ∃ t, exec (.pcieConfigRequest (.msix en fm)) s = .next t ∧ t.pcie.msixEn = en ∧ t.pcie.fnMask = fm ∧
        (∀ v, v ∈ s.pcie.pend → en = true → fm = false → v ∉ s.pcie.vecMask → Out.msix v ∈ t.out ∧ v ∉ t.pcie.pend) ∧
        (en = false ∨ fm = true → t.pcie.pend = s.pcie.pend ∧ t.out = s.out ++ [.cfgReply false 0]) ∧ Only { pcie := true, out := true } s t))) ∧
  (∀ (s : State), s.canon = true → s.pcieOut = true → s.pcie.perst = false →
    (s.fget Reg.PWR_START_STATUS Fld.PWR_START_STATUS_READY = 1 → ∃ t, exec .pcieLinkUp s = .next t ∧ t.pcie = { s.pcie with linkUp := true, bars := true } ∧
      t.rbit Reg.PWR_START_STATUS 3 = false ∧ SameRegs s t [Reg.PWR_START_STATUS] ∧ Only { regs := true, pcie := true } s t) ∧
    (s.fget Reg.PWR_START_STATUS Fld.PWR_START_STATUS_READY = 0 → ∃ t, exec .pcieLinkUp s = .next t ∧ t.pcie = { s.pcie with linkUp := true } ∧
      Only { pcie := true } s t))
end

