-- ==== Sys2Proof/Laws/Tbl.lean ====
section
/-!
SUPPORT. What a sparse table answers after a write, and that every operation keeps its canonical form.
-/
namespace Sys2Proof.Machine

open Sys2Proof

variable {α : Type}

/-- Every key of a table that rises from b lies above b. -/
theorem tblSortedFrom_lt {b : Nat} {t : Tbl α} (h : tblSortedFrom (some b) t = true) : ∀ e ∈ t, b < e.1 := by
  induction t generalizing b with
  | nil => simp
  | cons x t ih =>
    obtain ⟨j, v⟩ := x
    simp only [tblSortedFrom, Bool.and_eq_true, decide_eq_true_eq] at h
    intro e he
    rcases List.mem_cons.mp he with rfl | he
    · exact h.1
    · exact Nat.lt_trans h.1 (ih h.2 e he)

theorem tblSortedFrom_mono {b c : Nat} {t : Tbl α} (hbc : b ≤ c) (h : tblSortedFrom (some c) t = true) : tblSortedFrom (some b) t = true := by
  cases t with
  | nil => rfl
  | cons x t =>
    obtain ⟨j, v⟩ := x
    simp only [tblSortedFrom, Bool.and_eq_true, decide_eq_true_eq] at h ⊢
    exact ⟨Nat.lt_of_le_of_lt hbc h.1, h.2⟩

theorem tblSortedFrom_tail {b : Option Nat} {x : Nat × α} {t : Tbl α} (h : tblSortedFrom b (x :: t) = true) :
    tblSortedFrom (some x.1) t = true := by
  obtain ⟨j, v⟩ := x
  cases b <;> simp_all [tblSortedFrom]

theorem tblSortedFrom_none {b : Nat} {t : Tbl α} (h : tblSortedFrom (some b) t = true) : tblSortedFrom none t = true := by
  cases t with
  | nil => rfl
  | cons x t => obtain ⟨j, v⟩ := x; simp_all [tblSortedFrom]

theorem tblSortedFrom_put [DecidableEq α] (d : Nat → α) {b : Option Nat} {t : Tbl α} {k : Nat} {v : α} (h : tblSortedFrom b t = true) (hk : ∀ c, b = some c → c < k) :
    tblSortedFrom b (tblPut d t k v) = true := by
  induction t generalizing b with
  | nil => cases b <;> simp [tblPut] <;> split <;> simp_all [tblSortedFrom]
  | cons x t ih =>
    obtain ⟨j, u⟩ := x
    have ht := tblSortedFrom_tail h
    simp only [tblPut]
    split
    · subst k
      split
      · cases b with
        | none => cases t with
          | nil => rfl
          | cons y t => exact tblSortedFrom_tail (b := some j) (x := y) ht |> fun h' => by obtain ⟨a, c⟩ := y; simpa [tblSortedFrom] using h'
        | some c => exact tblSortedFrom_mono (Nat.le_of_lt (hk c rfl)) ht
      · cases b <;> simp_all [tblSortedFrom]
    · split
      · split
        · exact h
        · cases b <;> simp_all [tblSortedFrom]
      · have hj : j < k := by omega
        have := ih ht (fun c hc => by cases hc; exact hj)
        cases b <;> simp_all [tblSortedFrom]

theorem tblPut_ne [DecidableEq α] (d : Nat → α) {t : Tbl α} {k : Nat} {v : α} (h : ∀ e ∈ t, e.2 ≠ d e.1) : ∀ e ∈ tblPut d t k v, e.2 ≠ d e.1 := by
  induction t with
  | nil => intro e; simp only [tblPut]; split <;> simp_all
  | cons x t ih =>
    obtain ⟨j, u⟩ := x
    have ht : ∀ e ∈ t, e.2 ≠ d e.1 := fun e he => h e (List.mem_cons_of_mem _ he)
    intro e
    simp only [tblPut]
    split
    · subst k
      split
      · exact ht e
      · intro he
        rcases List.mem_cons.mp he with rfl | he
        · assumption
        · exact ht e he
    · split
      · split
        · exact h e
        · intro he
          rcases List.mem_cons.mp he with rfl | he
          · assumption
          · exact h e he
      · intro he
        rcases List.mem_cons.mp he with rfl | he
        · exact h _ (List.mem_cons_self ..)
        · exact ih ht e he

theorem tblWf_iff [DecidableEq α] (d : Nat → α) {t : Tbl α} : tblWf d t = true ↔ tblSortedFrom none t = true ∧ ∀ e ∈ t, e.2 ≠ d e.1 := by
  simp [tblWf]

/-- A write keeps the canonical form. -/
theorem tblWf_put [DecidableEq α] (d : Nat → α) {t : Tbl α} {k : Nat} {v : α} (h : tblWf d t = true) : tblWf d (tblPut d t k v) = true := by
  rw [tblWf_iff] at h ⊢
  exact ⟨tblSortedFrom_put d h.1 (by simp), tblPut_ne d h.2⟩

theorem tblWf_nil [DecidableEq α] (d : Nat → α) : tblWf d ([] : Tbl α) = true := rfl

/-- Writes at consecutive keys keep the canonical form. -/
theorem tblWf_putList [DecidableEq α] (d : Nat → α) {t : Tbl α} {k : Nat} {l : List α} (h : tblWf d t = true) : tblWf d (tblPutList d t k l) = true := by
  induction l generalizing t k with
  | nil => exact h
  | cons v l ih => exact ih (tblWf_put d h)

theorem tblSortedFrom_filter {b : Option Nat} {t : Tbl α} {p : Nat × α → Bool} (h : tblSortedFrom b t = true) : tblSortedFrom b (t.filter p) = true := by
  induction t generalizing b with
  | nil => exact h
  | cons x t ih =>
    have ht := tblSortedFrom_tail h
    rw [List.filter_cons]
    obtain ⟨j, v⟩ := x
    split
    · have := ih ht
      cases b <;> simp_all [tblSortedFrom]
    · cases b with
      | none =>
        have := ih ht
        cases hf : t.filter p with
        | nil => rfl
        | cons y l => rw [hf] at this; obtain ⟨a, c⟩ := y; simp_all [tblSortedFrom]
      | some c =>
        have hc : c < j := by simp_all [tblSortedFrom]
        exact tblSortedFrom_mono (Nat.le_of_lt hc) (ih ht)

/-- Dropping entries keeps the canonical form. -/
theorem tblWf_filter [DecidableEq α] (d : Nat → α) {t : Tbl α} {p : Nat × α → Bool} (h : tblWf d t = true) : tblWf d (t.filter p) = true := by
  rw [tblWf_iff] at h ⊢
  exact ⟨tblSortedFrom_filter h.1, fun e he => h.2 e (List.mem_filter.mp he).1⟩

/-- Writing a list of entries, or replacing a range, keeps the canonical form. -/
theorem tblWf_putAll [DecidableEq α] (d : Nat → α) {t es : Tbl α} (h : tblWf d t = true) : tblWf d (tblPutAll d t es) = true := by
  induction es with
  | nil => exact h
  | cons e es ih => exact tblWf_put d ih

theorem tblWf_replace [DecidableEq α] (d : Nat → α) {t es : Tbl α} {lo n : Nat} (h : tblWf d t = true) : tblWf d (tblReplace d t lo n es) = true :=
  tblWf_putAll d (tblWf_filter d h)

/-- A read below every key of a table finds the default. -/
theorem tblGet_below (d : Nat → α) {t : Tbl α} {b k : Nat} (h : tblSortedFrom (some b) t = true) (hk : k ≤ b) : tblGet d t k = d k := by
  cases t with
  | nil => rfl
  | cons x t =>
    obtain ⟨j, v⟩ := x
    simp only [tblSortedFrom, Bool.and_eq_true, decide_eq_true_eq] at h
    have : k < j := by omega
    simp only [tblGet]
    rw [if_neg (by omega), if_pos this]

/-- A read after a write: the key written holds the value, every other key what it held. -/
theorem tblGet_put [DecidableEq α] (d : Nat → α) {t : Tbl α} {k j : Nat} {v : α} (h : tblSortedFrom none t = true) :
    tblGet d (tblPut d t k v) j = if j = k then v else tblGet d t j := by
  suffices H : ∀ b : Option Nat, tblSortedFrom b t = true → tblGet d (tblPut d t k v) j = if j = k then v else tblGet d t j from H none h
  intro b hb
  induction t generalizing b with
  | nil =>
    simp only [tblPut]
    split <;> simp only [tblGet] <;> split <;> simp_all
  | cons x t ih =>
    obtain ⟨i, u⟩ := x
    have ht := tblSortedFrom_tail hb
    simp only [tblPut]
    split
    · subst k
      split
      · rename_i hv
        by_cases hj : j = i
        · subst hj; rw [if_pos rfl, hv]; exact tblGet_below d ht (Nat.le_refl _)
        · rw [if_neg hj]
          simp only [tblGet, if_neg hj]
          split
          · exact tblGet_below d ht (by show j ≤ i; omega)
          · rfl
      · simp only [tblGet]
        by_cases hj : j = i <;> simp [hj]
    · split
      · rename_i hne hlt
        split
        · rename_i hv
          by_cases hj : j = k
          · subst hj; simp [tblGet, hne, hlt, hv]
          · rw [if_neg hj]
        · by_cases hj : j = k
          · subst hj; simp [tblGet]
          · rw [if_neg hj]
            simp only [tblGet, if_neg hj]
            by_cases h1 : j < k
            · rw [if_pos h1]
              rw [if_neg (by omega), if_pos (by omega)]
            · rw [if_neg h1]
      · rename_i hne hnlt
        simp only [tblGet]
        by_cases hj : j = i
        · subst hj; rw [if_pos rfl, if_pos rfl, if_neg (by omega)]
        · rw [if_neg hj, if_neg hj]
          by_cases h1 : j < i
          · rw [if_pos h1, if_pos h1, if_neg (by omega)]
          · rw [if_neg h1, if_neg h1]
            exact ih (tblSortedFrom_none ht) _ ht

end Sys2Proof.Machine
end

