-- ==== Sys2Proof/Laws/Keeps.lean ====
section
/-!
SUPPORT. What the basic operations keep (Safety.lean): the relation `Keeps` is reflexive and transitive, holds across an update of any other
field, and is kept by the operations that write registers, memories, the clock and the outputs.
-/
namespace Sys2Proof.Machine

open Sys2Proof

theorem Keeps.refl (s : State) : Keeps s s := ⟨rfl, Nat.le_refl _, Nat.le_refl _, List.prefix_refl _, id⟩

theorem Keeps.trans {s t u : State} (h : Keeps s t) (k : Keeps t u) : Keeps s u :=
  ⟨k.queue.trans h.queue, Nat.le_trans h.clock k.clock, Nat.le_trans h.free k.free, h.out.trans k.out, k.canon ∘ h.canon⟩

variable {s t u : State}

/-- A change of the fields that `Keeps` does not speak of. -/
theorem Keeps.rest_iff {a1 a2 a3 a4 a5 a6 a7 a8 a9 a10 a11 a12 a13 a14 a15 a16 a17 a18
      a19 a20 a21 a22 a23 a24 a25 a26 a27 a28 a29 a30 a31 a32 a33 a34 a35} :
    Keeps s ⟨t.pending, t.regs, t.inForce, a1, a2, a3, t.mem, t.clk, a4, a5, a6, a7, a8, a9, a10, a11, a12, a13, a14, a15, a16, a17,
      t.freeCtr, t.out, a18, a19, a20, a21, a22, a23, a24, a25, a26, a27, a28, a29, a30, a31, a32, a33, a34, a35⟩ ↔ Keeps s t :=
  ⟨fun h => ⟨h.queue, h.clock, h.free, h.out, h.canon⟩, fun h => ⟨h.queue, h.clock, h.free, h.out, h.canon⟩⟩

/-- A change of the clock that leaves the instant alone. -/
theorem Keeps.clk_iff {c a1 a2 a3 a4 a5 a6 a7 a8 a9 a10 a11 a12 a13 a14 a15 a16 a17 a18
      a19 a20 a21 a22 a23 a24 a25 a26 a27 a28 a29 a30 a31 a32 a33 a34 a35} (hc : c.now = t.clk.now) :
    Keeps s ⟨t.pending, t.regs, t.inForce, a1, a2, a3, t.mem, c, a4, a5, a6, a7, a8, a9, a10, a11, a12, a13, a14, a15, a16, a17, t.freeCtr,
      t.out, a18, a19, a20, a21, a22, a23, a24, a25, a26, a27, a28, a29, a30, a31, a32, a33, a34, a35⟩ ↔ Keeps s t :=
  ⟨fun h => ⟨h.queue, hc ▸ h.clock, h.free, h.out, h.canon⟩, fun h => ⟨h.queue, hc ▸ h.clock, h.free, h.out, h.canon⟩⟩

theorem Keeps.clk {c a1 a2 a3 a4 a5 a6 a7 a8 a9 a10 a11 a12 a13 a14 a15 a16 a17 a18
      a19 a20 a21 a22 a23 a24 a25 a26 a27 a28 a29 a30 a31 a32 a33 a34 a35} (hc : c.now = t.clk.now) (h : Keeps s t) :
    Keeps s ⟨t.pending, t.regs, t.inForce, a1, a2, a3, t.mem, c, a4, a5, a6, a7, a8, a9, a10, a11, a12, a13, a14, a15, a16, a17, t.freeCtr,
      t.out, a18, a19, a20, a21, a22, a23, a24, a25, a26, a27, a28, a29, a30, a31, a32, a33, a34, a35⟩ := (Keeps.clk_iff hc).mpr h

theorem canon_iff : s.canon = true ↔ tblWf regReset s.regs = true ∧ tblWf regReset s.inForce = true ∧ s.mem.canon = true := by
  simp [State.canon, and_assoc]

/-- A change of the memories that keeps their canonical form. -/
theorem Keeps.mem (h : Keeps s t) {m a1 a2 a3 a4 a5 a6 a7 a8 a9 a10 a11 a12 a13 a14 a15 a16 a17 a18
      a19 a20 a21 a22 a23 a24 a25 a26 a27 a28 a29 a30 a31 a32 a33 a34 a35} (hm : t.mem.canon = true → m.canon = true) :
    Keeps s ⟨t.pending, t.regs, t.inForce, a1, a2, a3, m, t.clk, a4, a5, a6, a7, a8, a9, a10, a11, a12, a13, a14, a15, a16, a17, t.freeCtr,
      t.out, a18, a19, a20, a21, a22, a23, a24, a25, a26, a27, a28, a29, a30, a31, a32, a33, a34, a35⟩ :=
  ⟨h.queue, h.clock, h.free, h.out, fun hs => by
    have := canon_iff.mp (h.canon hs)
    exact canon_iff.mpr ⟨this.1, this.2.1, hm this.2.2⟩⟩

/-- A change of the settings in force that keeps their canonical form. -/
theorem Keeps.inForce (h : Keeps s t) {i a1 a2 a3 a4 a5 a6 a7 a8 a9 a10 a11 a12 a13 a14 a15 a16 a17 a18
      a19 a20 a21 a22 a23 a24 a25 a26 a27 a28 a29 a30 a31 a32 a33 a34 a35} (hi : tblWf regReset t.inForce = true → tblWf regReset i = true) :
    Keeps s ⟨t.pending, t.regs, i, a1, a2, a3, t.mem, t.clk, a4, a5, a6, a7, a8, a9, a10, a11, a12, a13, a14, a15, a16, a17, t.freeCtr,
      t.out, a18, a19, a20, a21, a22, a23, a24, a25, a26, a27, a28, a29, a30, a31, a32, a33, a34, a35⟩ :=
  ⟨h.queue, h.clock, h.free, h.out, fun hs => by
    have := canon_iff.mp (h.canon hs)
    exact canon_iff.mpr ⟨this.1, hi this.2.1, this.2.2⟩⟩

/-- A change of the registers that keeps their canonical form. -/
theorem Keeps.regs (h : Keeps s t) {r a1 a2 a3 a4 a5 a6 a7 a8 a9 a10 a11 a12 a13 a14 a15 a16 a17 a18
      a19 a20 a21 a22 a23 a24 a25 a26 a27 a28 a29 a30 a31 a32 a33 a34 a35} (hr : tblWf regReset t.regs = true → tblWf regReset r = true) :
    Keeps s ⟨t.pending, r, t.inForce, a1, a2, a3, t.mem, t.clk, a4, a5, a6, a7, a8, a9, a10, a11, a12, a13, a14, a15, a16, a17, t.freeCtr,
      t.out, a18, a19, a20, a21, a22, a23, a24, a25, a26, a27, a28, a29, a30, a31, a32, a33, a34, a35⟩ :=
  ⟨h.queue, h.clock, h.free, h.out, fun hs => by
    have := canon_iff.mp (h.canon hs)
    exact canon_iff.mpr ⟨hr this.1, this.2.1, this.2.2⟩⟩

/-- More outputs. -/
theorem Keeps.emitted (h : Keeps s t) {o a1 a2 a3 a4 a5 a6 a7 a8 a9 a10 a11 a12 a13 a14 a15 a16 a17 a18
      a19 a20 a21 a22 a23 a24 a25 a26 a27 a28 a29 a30 a31 a32 a33 a34 a35} :
    Keeps s ⟨t.pending, t.regs, t.inForce, a1, a2, a3, t.mem, t.clk, a4, a5, a6, a7, a8, a9, a10, a11, a12, a13, a14, a15, a16, a17,
      t.freeCtr, t.out ++ o, a18, a19, a20, a21, a22, a23, a24, a25, a26, a27, a28, a29, a30, a31, a32, a33, a34, a35⟩ :=
  ⟨h.queue, h.clock, h.free, h.out.trans (List.prefix_append ..), h.canon⟩

/-! ### Folds, tuples, local definitions -/

/-- A fold over states keeps what its step keeps. -/
theorem Keeps.foldl {α : Type} {f : State → α → State} {l : List α} (h : Keeps s t) (hf : ∀ x a, Keeps s x → Keeps s (f x a)) :
    Keeps s (l.foldl f t) := by
  induction l generalizing t with
  | nil => exact h
  | cons a l ih => exact ih (hf _ _ h)

theorem Keeps.foldr {α : Type} {f : α → State → State} {l : List α} (h : Keeps s t) (hf : ∀ a x, Keeps s x → Keeps s (f a x)) :
    Keeps s (l.foldr f t) := by
  induction l with
  | nil => exact h
  | cons a l ih => exact hf _ _ ih

theorem Keeps.foldl_fst {α β : Type} {f : State × β → α → State × β} {l : List α} {p : State × β} (h : Keeps s p.1)
    (hf : ∀ x a, Keeps s x.1 → Keeps s (f x a).1) : Keeps s (l.foldl f p).1 := by
  induction l generalizing p with
  | nil => exact h
  | cons a l ih => exact ih (hf _ _ h)

theorem Keeps.ite {c : Prop} [Decidable c] {a b : State} (ha : Keeps s a) (hb : Keeps s b) : Keeps s (if c then a else b) := by
  split
  · exact ha
  · exact hb

theorem Keeps.cut {x : State} {P : Prop} (k : Keeps s x → P) (h : Keeps s x) : P := k h
theorem Keeps.cut1 {β : Type} {x : State × β} {P : Prop} (k : Keeps s x.1 → P) (h : Keeps s x.1) : P := k h
theorem Keeps.cut2 {β : Type} {x : β × State} {P : Prop} (k : Keeps s x.2 → P) (h : Keeps s x.2) : P := k h
theorem ite_some {α : Type} {c : Prop} [Decidable c] {x : Option α} {u : α} (e : (if c then x else none) = some u) : x = some u := by
  split at e
  · exact e
  · contradiction
theorem Keeps.of_fst {β : Type} {r : State × β} {b : β} (e : r = (t, b)) (h : Keeps s r.1) : Keeps s t := by subst e; exact h
theorem Keeps.of_snd {β : Type} {r : β × State} {b : β} (e : r = (b, t)) (h : Keeps s r.2) : Keeps s t := by subst e; exact h
theorem Keeps.of_eq (e : t = u) (h : Keeps s t) : Keeps s u := e ▸ h


theorem Keeps.foldChecks {α : Type} {f : State → α → State × Option Nat} {l : List α} (h : Keeps s t)
    (hf : ∀ x a, Keeps s x → Keeps s (f x a).1) : Keeps s (foldChecks t f l).1 := by
  induction l generalizing t with
  | nil => exact h
  | cons a l ih =>
    have ha := hf t a h
    rw [Sys2Proof.Machine.foldChecks]
    split
    · rename_i s' e; rw [e] at ha; exact ih ha
    · exact ha

/-! ### Memories -/

theorem memCanon_iff {m : Mem} : m.canon = true ↔ tblWf hbmDefault m.hbm = true ∧ tblWf zeroByte m.staging = true ∧ tblWf zeroByte m.trf = true ∧
    tblWf zeroByte m.hostW = true ∧ tblWf erasedByte m.flash0 = true ∧ tblWf erasedByte m.flash1 = true ∧ tblWf openAt m.stagTag = true ∧
    tblWf falseAt m.dirty = true := by
  simp [Mem.canon, Mem.wf, and_assoc]

theorem memCanon_setByte {m : Mem} {a : Nat} {b : Byte} (h : m.canon = true) : (m.setByte a b).canon = true := by
  have h := memCanon_iff.mp h
  rw [memCanon_iff, Mem.setByte]
  split
  · exact ⟨tblWf_put _ h.1, h.2⟩
  · exact ⟨h.1, tblWf_put _ h.2.1, h.2.2⟩

theorem memCanon_write {m : Mem} {a : Nat} {l : List Byte} (h : m.canon = true) : (m.write a l).canon = true := by
  induction l generalizing m a with
  | nil => exact h
  | cons b l ih => exact ih (memCanon_setByte h)

theorem wrTbl_wf {m : List Host.Cell} {a : Nat} {l : List Byte} (h : tblWf zeroByte m = true) : tblWf zeroByte (wrTbl m a l) = true := tblWf_putList _ h
theorem wrFlash_wf {m : List Host.Cell} {a : Nat} {l : List Byte} (h : tblWf erasedByte m = true) : tblWf erasedByte (wrFlash m a l) = true :=
  tblWf_putList _ h

theorem memCanon_trf {m : Mem} {x : List Host.Cell} (h : m.canon = true) (hx : tblWf zeroByte m.trf = true → tblWf zeroByte x = true) :
    Mem.canon { m with trf := x } = true := by
  rw [memCanon_iff] at h ⊢
  exact ⟨h.1, h.2.1, hx h.2.2.1, h.2.2.2⟩

theorem memCanon_hostW {m : Mem} {x : List Host.Cell} (h : m.canon = true) (hx : tblWf zeroByte m.hostW = true → tblWf zeroByte x = true) :
    Mem.canon { m with hostW := x } = true := by
  rw [memCanon_iff] at h ⊢
  exact ⟨h.1, h.2.1, h.2.2.1, hx h.2.2.2.1, h.2.2.2.2⟩

theorem memCanon_flash0 {m : Mem} {x : List Host.Cell} (h : m.canon = true) (hx : tblWf erasedByte m.flash0 = true → tblWf erasedByte x = true) :
    Mem.canon { m with flash0 := x } = true := by
  rw [memCanon_iff] at h ⊢
  exact ⟨h.1, h.2.1, h.2.2.1, h.2.2.2.1, hx h.2.2.2.2.1, h.2.2.2.2.2⟩

theorem memCanon_flash1 {m : Mem} {x : List Host.Cell} (h : m.canon = true) (hx : tblWf erasedByte m.flash1 = true → tblWf erasedByte x = true) :
    Mem.canon { m with flash1 := x } = true := by
  rw [memCanon_iff] at h ⊢
  exact ⟨h.1, h.2.1, h.2.2.1, h.2.2.2.1, h.2.2.2.2.1, hx h.2.2.2.2.2.1, h.2.2.2.2.2.2⟩

theorem memCanon_dirty {m : Mem} {x : Tbl Bool} (h : m.canon = true) (hx : tblWf falseAt m.dirty = true → tblWf falseAt x = true) :
    Mem.canon { m with dirty := x } = true := by
  rw [memCanon_iff] at h ⊢
  exact ⟨h.1, h.2.1, h.2.2.1, h.2.2.2.1, h.2.2.2.2.1, h.2.2.2.2.2.1, h.2.2.2.2.2.2.1, hx h.2.2.2.2.2.2.2⟩

theorem memCanon_hbm {m : Mem} {x : List Host.Cell} {y : List Nat} (h : m.canon = true) (hx : tblWf hbmDefault m.hbm = true → tblWf hbmDefault x = true) :
    Mem.canon { m with hbm := x, poison := y } = true := by
  rw [memCanon_iff] at h ⊢
  exact ⟨hx h.1, h.2⟩

theorem memCanon_cleanse {m : Mem} {a n : Nat} (h : m.canon = true) : (m.cleanse a n).canon = true := h

end Sys2Proof.Machine
end

