-- ==== Sys2Proof/Laws/KeepsOps.lean ====
section
/-!
SUPPORT. What the operations of Machine/Ops.lean keep (Safety.lean).
-/
namespace Sys2Proof.Machine

open Sys2Proof

theorem State.setReg_keeps {s t : State} {off : Nat} {w : Word} (h : Keeps s t) : Keeps s (State.setReg t off w) :=
  Keeps.regs h (tblWf_put _)

theorem State.fput_keeps {s t : State} {off : Nat} {f : Fld} {v : Nat} (h : Keeps s t) : Keeps s (State.fput t off f v) := by
  unfold State.fput
  repeat' first
    | with_reducible assumption
    | with_reducible apply State.setReg_keeps

theorem State.bump_keeps {s t : State} {off : Nat} {f : Fld} {n : Nat} (h : Keeps s t) : Keeps s (State.bump t off f n) := by
  unfold State.bump
  repeat' first
    | with_reducible assumption
    | with_reducible apply State.fput_keeps

theorem State.count_keeps {s t : State} {off : Nat} {f : Fld} {n : Nat} (h : Keeps s t) : Keeps s (State.count t off f n) := by
  unfold State.count
  repeat' first
    | with_reducible assumption
    | with_reducible apply State.fput_keeps

theorem State.lower_keeps {s t : State} {off : Nat} {f : Fld} {n : Nat} (h : Keeps s t) : Keeps s (State.lower t off f n) := by
  unfold State.lower
  repeat' first
    | with_reducible assumption
    | with_reducible apply State.fput_keeps

theorem State.putBit_keeps {s t : State} {off : Nat} {b : Nat} {v : Bool} (h : Keeps s t) : Keeps s (State.putBit t off b v) := by
  unfold State.putBit
  repeat' first
    | with_reducible assumption
    | with_reducible apply State.fput_keeps

theorem State.emit_keeps {s t : State} {o : Out} (h : Keeps s t) : Keeps s (State.emit t o) := Keeps.emitted h

theorem State.drew_keeps {s t : State} {n : Nat} (h : Keeps s t) : Keeps s (State.drew t n) :=
  ⟨h.queue, h.clock, Nat.le_trans h.free (Nat.le_add_right ..), h.out, h.canon⟩

theorem State.evCount_keeps {s t : State} {die : Nat} {ev : Nat} {n : Nat} {layer : Nat} {op : Nat} {qual : optParam (Nat → Bool) fun x => true} {check : optParam Bool false} (h : Keeps s t) : Keeps s (State.evCount t die ev n layer op qual check) := by
  unfold State.evCount
  repeat' first
    | with_reducible assumption
    | with_reducible rfl
    | simp only [Keeps.rest_iff, Keeps.clk_iff]
    | split

theorem State.setFn_keeps {s t : State} {f : Nat} {st : Nat} (h : Keeps s t) : Keeps s (State.setFn t f st) := by
  unfold State.setFn
  repeat' first
    | with_reducible assumption
    | with_reducible apply State.fput_keeps

theorem State.bumpGen_keeps {s t : State} {f : Nat} (h : Keeps s t) : Keeps s (State.bumpGen t f) := by
  unfold State.bumpGen
  repeat' first
    | with_reducible assumption
    | with_reducible apply State.fput_keeps

theorem State.reach_keeps {s t : State} {n : Nat} (h : Keeps s t) : Keeps s (State.reach t n) :=
  ⟨h.queue, Nat.le_trans h.clock (Nat.le_max_left ..), h.free, h.out, h.canon⟩

theorem State.reachTime_keeps {s t : State} {x1 : Int} (h : Keeps s t) : Keeps s (State.reachTime t x1) := by
  unfold State.reachTime
  repeat' first
    | with_reducible assumption
    | with_reducible apply State.reach_keeps
    | split

theorem State.reachNs_keeps {s t : State} {v : Nat} (h : Keeps s t) : Keeps s (State.reachNs t v) := by
  unfold State.reachNs
  repeat' first
    | with_reducible assumption
    | with_reducible apply State.reach_keeps
    | split

theorem State.setDirty_keeps {s t : State} {page : Nat} (h : Keeps s t) : Keeps s (State.setDirty t page) := by
  unfold State.setDirty
  split
  · exact Keeps.mem h (fun hm => by rw [memCanon_iff] at hm ⊢; exact ⟨hm.1, hm.2.1, hm.2.2.1, hm.2.2.2.1, hm.2.2.2.2.1, hm.2.2.2.2.2.1, hm.2.2.2.2.2.2.1, tblWf_put _ hm.2.2.2.2.2.2.2⟩)
  · exact h

theorem State.putTag_keeps {s t : State} {page : Nat} {v : Nat} (h : Keeps s t) : Keeps s (State.putTag t page v) := by
  unfold State.putTag
  split
  · exact Keeps.mem h memCanon_write
  · exact Keeps.mem h (fun hm => by rw [memCanon_iff] at hm ⊢; exact ⟨hm.1, hm.2.1, hm.2.2.1, hm.2.2.2.1, hm.2.2.2.2.1, hm.2.2.2.2.2.1, tblWf_put _ hm.2.2.2.2.2.2.1, hm.2.2.2.2.2.2.2⟩)

theorem State.setTag_keeps {s t : State} {page : Nat} {x2 : Nat} (h : Keeps s t) : Keeps s (State.setTag t page x2) := by
  unfold State.setTag
  try dsimp -zeta only
  repeat' first
    | with_reducible assumption
    | with_reducible exact Keeps.refl _
    | with_reducible rfl
    | with_reducible apply State.setDirty_keeps
    | with_reducible apply State.putTag_keeps
    | (extract_lets +onlyGivenNames x; first
        | (refine Keeps.cut (s := s) (x := x) (fun hx => ?_) ?_; clear_value x; revert x; intro y hy; rotate_left; unfold x; clear x)
        | (refine Keeps.cut1 (s := s) (x := x) (fun hx => ?_) ?_; clear_value x; revert x; intro y hy; rotate_left; unfold x; clear x)
        | (refine Keeps.cut2 (s := s) (x := x) (fun hx => ?_) ?_; clear_value x; revert x; intro y hy; rotate_left; unfold x; clear x)
        | (revert x; intro y))
    | simp only [Keeps.rest_iff, Keeps.clk_iff]
    | with_reducible apply Keeps.foldl
    | with_reducible apply Keeps.foldl_fst
    | (refine Keeps.of_fst ‹_ = _› ?_)
    | (refine Keeps.of_snd ‹_ = _› ?_)
    | split
    | (intro)

theorem State.openPage_keeps {s t : State} {page : Nat} (h : Keeps s t) : Keeps s (State.openPage t page) := by
  unfold State.openPage
  repeat' first
    | with_reducible assumption
    | with_reducible apply State.setTag_keeps
    | split

theorem State.withdrawPage_keeps {s t : State} {page : Nat} (h : Keeps s t) : Keeps s (State.withdrawPage t page) := by
  unfold State.withdrawPage
  repeat' first
    | with_reducible assumption
    | with_reducible apply State.setTag_keeps
    | split

theorem State.sealPage_keeps {s t : State} {page : Nat} {fmt : Nat} {step : Nat} {bid : Nat} (h : Keeps s t) : Keeps s (State.sealPage t page fmt step bid) := by
  unfold State.sealPage
  repeat' first
    | with_reducible assumption
    | with_reducible apply State.setTag_keeps

theorem State.sealSump_keeps {s t : State} {page : Nat} {fmt : Nat} {step : Nat} {bid : Nat} (h : Keeps s t) : Keeps s (State.sealSump t page fmt step bid) := by
  unfold State.sealSump
  try dsimp -zeta only
  repeat' first
    | with_reducible assumption
    | with_reducible exact Keeps.refl _
    | with_reducible rfl
    | with_reducible apply State.putTag_keeps
    | (extract_lets +onlyGivenNames x; first
        | (refine Keeps.cut (s := s) (x := x) (fun hx => ?_) ?_; clear_value x; revert x; intro y hy; rotate_left; unfold x; clear x)
        | (refine Keeps.cut1 (s := s) (x := x) (fun hx => ?_) ?_; clear_value x; revert x; intro y hy; rotate_left; unfold x; clear x)
        | (refine Keeps.cut2 (s := s) (x := x) (fun hx => ?_) ?_; clear_value x; revert x; intro y hy; rotate_left; unfold x; clear x)
        | (revert x; intro y))
    | simp only [Keeps.rest_iff, Keeps.clk_iff]
    | with_reducible apply Keeps.foldl
    | with_reducible apply Keeps.foldl_fst
    | (refine Keeps.of_fst ‹_ = _› ?_)
    | (refine Keeps.of_snd ‹_ = _› ?_)
    | split
    | (intro)

theorem State.write_keeps {s t : State} {a : Nat} {d : List Byte} (h : Keeps s t) : Keeps s (State.write t a d) := by
  unfold State.write
  exact Keeps.foldl (Keeps.mem h memCanon_write) (fun _ _ hx => State.setDirty_keeps hx)

theorem State.tilerWritten_keeps {s t : State} {a : Nat} {n : Nat} (h : Keeps s t) : Keeps s (State.tilerWritten t a n) := by
  unfold State.tilerWritten
  try dsimp -zeta only
  repeat' first
    | with_reducible assumption
    | with_reducible exact Keeps.refl _
    | with_reducible rfl
    | (extract_lets +onlyGivenNames x; first
        | (refine Keeps.cut (s := s) (x := x) (fun hx => ?_) ?_; clear_value x; revert x; intro y hy; rotate_left; unfold x; clear x)
        | (refine Keeps.cut1 (s := s) (x := x) (fun hx => ?_) ?_; clear_value x; revert x; intro y hy; rotate_left; unfold x; clear x)
        | (refine Keeps.cut2 (s := s) (x := x) (fun hx => ?_) ?_; clear_value x; revert x; intro y hy; rotate_left; unfold x; clear x)
        | (revert x; intro y))
    | simp only [Keeps.rest_iff, Keeps.clk_iff]
    | with_reducible apply Keeps.foldl
    | with_reducible apply Keeps.foldl_fst
    | (refine Keeps.of_fst ‹_ = _› ?_)
    | (refine Keeps.of_snd ‹_ = _› ?_)
    | split
    | (intro)

theorem State.writePlain_keeps {s t : State} {a : Nat} {d : List Byte} (h : Keeps s t) : Keeps s (State.writePlain t a d) := by
  unfold State.writePlain
  try dsimp -zeta only
  repeat' first
    | with_reducible assumption
    | with_reducible exact Keeps.refl _
    | with_reducible rfl
    | with_reducible apply State.openPage_keeps
    | with_reducible apply State.tilerWritten_keeps
    | with_reducible apply State.write_keeps
    | (extract_lets +onlyGivenNames x; first
        | (refine Keeps.cut (s := s) (x := x) (fun hx => ?_) ?_; clear_value x; revert x; intro y hy; rotate_left; unfold x; clear x)
        | (refine Keeps.cut1 (s := s) (x := x) (fun hx => ?_) ?_; clear_value x; revert x; intro y hy; rotate_left; unfold x; clear x)
        | (refine Keeps.cut2 (s := s) (x := x) (fun hx => ?_) ?_; clear_value x; revert x; intro y hy; rotate_left; unfold x; clear x)
        | (revert x; intro y))
    | simp only [Keeps.rest_iff, Keeps.clk_iff]
    | with_reducible apply Keeps.foldl
    | with_reducible apply Keeps.foldl_fst
    | (refine Keeps.of_fst ‹_ = _› ?_)
    | (refine Keeps.of_snd ‹_ = _› ?_)
    | split
    | (intro)

theorem State.writeSump_keeps {s t : State} {a : Nat} {d : List Byte} (h : Keeps s t) : Keeps s (State.writeSump t a d) := by
  exact Keeps.mem h memCanon_write

theorem State.looseAt_keeps {s t : State} {a : Nat} {n : Nat} (h : Keeps s t) : Keeps s (State.looseAt t a n) := by
  unfold State.looseAt
  try dsimp -zeta only
  repeat' first
    | with_reducible assumption
    | with_reducible exact Keeps.refl _
    | with_reducible rfl
    | with_reducible apply State.writeSump_keeps
    | with_reducible apply State.drew_keeps
    | (extract_lets +onlyGivenNames x; first
        | (refine Keeps.cut (s := s) (x := x) (fun hx => ?_) ?_; clear_value x; revert x; intro y hy; rotate_left; unfold x; clear x)
        | (refine Keeps.cut1 (s := s) (x := x) (fun hx => ?_) ?_; clear_value x; revert x; intro y hy; rotate_left; unfold x; clear x)
        | (refine Keeps.cut2 (s := s) (x := x) (fun hx => ?_) ?_; clear_value x; revert x; intro y hy; rotate_left; unfold x; clear x)
        | (revert x; intro y))
    | simp only [Keeps.rest_iff, Keeps.clk_iff]
    | with_reducible apply Keeps.foldl
    | with_reducible apply Keeps.foldl_fst
    | (refine Keeps.of_fst ‹_ = _› ?_)
    | (refine Keeps.of_snd ‹_ = _› ?_)
    | split
    | (intro)

end Sys2Proof.Machine
end

