-- ==== Sys2Proof/Laws/KeepsRecord.lean ====
section
/-!
SUPPORT. What the operations of Machine/Record.lean keep (Safety.lean).
-/
namespace Sys2Proof.Machine

open Sys2Proof

theorem State.trfStore_keeps {s t : State} {die : Nat} {off : Nat} {d : List Byte} (h : Keeps s t) : Keeps s (State.trfStore t die off d) := by
  unfold State.trfStore
  repeat' first
    | with_reducible assumption
    | exact fun hm => memCanon_trf hm wrTbl_wf
    | simp only [Keeps.rest_iff, Keeps.clk_iff]
    | split
    | with_reducible apply Keeps.mem

theorem State.record_keeps {s t : State} {code : Nat} {cls : Nat} {sev : Nat} {time : Nat} {c : Ctx} (h : Keeps s t) : Keeps s (State.record t code cls sev time c) := by
  unfold State.record
  repeat' first
    | with_reducible assumption
    | with_reducible apply State.count_keeps
    | with_reducible apply State.trfStore_keeps
    | with_reducible apply State.bump_keeps
    | simp only [Keeps.rest_iff, Keeps.clk_iff]
    | split

theorem State.event_keeps {s t : State} {code : Nat} {c : Ctx} (h : Keeps s t) : Keeps s (State.event t code c) := by
  unfold State.event
  repeat' first
    | with_reducible assumption
    | with_reducible apply State.record_keeps

theorem State.armWhistle_keeps {s t : State} {at_ : Nat} {action : Nat} (h : Keeps s t) : Keeps s (State.armWhistle t at_ action) := by
  unfold State.armWhistle
  repeat' first
    | with_reducible assumption
    | with_reducible apply State.bump_keeps
    | with_reducible apply State.fput_keeps
    | simp only [Keeps.rest_iff, Keeps.clk_iff]
    | split

theorem State.traceTrigger_keeps {s t : State} {b : Nat} (h : Keeps s t) : Keeps s (State.traceTrigger t b) := by
  unfold State.traceTrigger
  repeat' first
    | with_reducible assumption
    | with_reducible apply State.emit_keeps
    | simp only [Keeps.rest_iff, Keeps.clk_iff]
    | split

theorem State.notice_keeps {s t : State} {kind : Nat} {cut : Nat} {record : List Byte} (h : Keeps s t) : Keeps s (State.notice t kind cut record) := by
  unfold State.notice
  repeat' first
    | with_reducible assumption
    | with_reducible apply State.emit_keeps
    | simp only [Keeps.rest_iff, Keeps.clk_iff]

theorem State.limiterStart_keeps {s t : State} {die : Nat} {cls : Nat} (h : Keeps s t) : Keeps s (State.limiterStart t die cls) := by
  unfold State.limiterStart
  try dsimp -zeta only
  repeat' first
    | with_reducible assumption
    | with_reducible exact Keeps.refl _
    | with_reducible rfl
    | (extract_lets +onlyGivenNames x; first
        | (refine Keeps.cut (s := s) (x := x) (fun hx => ?_) ?_; clear_value x; revert x; intro y hy; rotate_left; unfold x; clear x)
        | (refine Keeps.cut1 (s := s) (x := x) (fun hx => ?_) ?_; clear_value x; revert x; intro y hy; rotate_left; unfold x; clear x)
        | (refine Keeps.cut2 (s := s) (x := x) (fun hx => ?_) ?_; clear_value x; revert x; intro y hy; rotate_left; unfold x; clear x)
        | (revert x; intro y))
    | simp only [Keeps.rest_iff, Keeps.clk_iff]
    | with_reducible apply Keeps.foldl
    | with_reducible apply Keeps.foldl_fst
    | (refine Keeps.of_fst ‹_ = _› ?_)
    | (refine Keeps.of_snd ‹_ = _› ?_)
    | split
    | (intro)

theorem State.reportLatest_keeps {s t : State} {cls : Nat} {sev : Nat} {c : Ctx} (h : Keeps s t) : Keeps s (State.reportLatest t cls sev c) := by
  unfold State.reportLatest
  try dsimp -zeta only
  repeat' first
    | with_reducible assumption
    | with_reducible exact Keeps.refl _
    | with_reducible rfl
    | (extract_lets +onlyGivenNames x; first
        | (refine Keeps.cut (s := s) (x := x) (fun hx => ?_) ?_; clear_value x; revert x; intro y hy; rotate_left; unfold x; clear x)
        | (refine Keeps.cut1 (s := s) (x := x) (fun hx => ?_) ?_; clear_value x; revert x; intro y hy; rotate_left; unfold x; clear x)
        | (refine Keeps.cut2 (s := s) (x := x) (fun hx => ?_) ?_; clear_value x; revert x; intro y hy; rotate_left; unfold x; clear x)
        | (revert x; intro y))
    | simp only [Keeps.rest_iff, Keeps.clk_iff]
    | with_reducible apply Keeps.foldl
    | with_reducible apply Keeps.foldl_fst
    | (refine Keeps.of_fst ‹_ = _› ?_)
    | (refine Keeps.of_snd ‹_ = _› ?_)
    | split
    | (intro)

theorem State.logReport_keeps {s t : State} {acts : State → State} {cls : Nat} {sev : Nat} {c : Ctx} (h : Keeps s t) (hacts : ∀ z, Keeps s z → Keeps s (acts z)) : Keeps s (State.logReport acts t cls sev c) := by
  unfold State.logReport
  try dsimp -zeta only
  repeat' first
    | with_reducible assumption
    | with_reducible exact Keeps.refl _
    | with_reducible rfl
    | apply hacts
    | with_reducible apply State.fput_keeps
    | with_reducible apply State.bump_keeps
    | with_reducible apply State.reportLatest_keeps
    | with_reducible apply State.limiterStart_keeps
    | with_reducible apply State.record_keeps
    | (extract_lets +onlyGivenNames x; first
        | (refine Keeps.cut (s := s) (x := x) (fun hx => ?_) ?_; clear_value x; revert x; intro y hy; rotate_left; unfold x; clear x)
        | (refine Keeps.cut1 (s := s) (x := x) (fun hx => ?_) ?_; clear_value x; revert x; intro y hy; rotate_left; unfold x; clear x)
        | (refine Keeps.cut2 (s := s) (x := x) (fun hx => ?_) ?_; clear_value x; revert x; intro y hy; rotate_left; unfold x; clear x)
        | (revert x; intro y))
    | simp only [Keeps.rest_iff, Keeps.clk_iff]
    | with_reducible apply Keeps.foldl
    | with_reducible apply Keeps.foldl_fst
    | (refine Keeps.of_fst ‹_ = _› ?_)
    | (refine Keeps.of_snd ‹_ = _› ?_)
    | split
    | (intro)

theorem State.faultWhistle_keeps {s t : State} {sev : Nat} (h : Keeps s t) : Keeps s (State.faultWhistle t sev) := by
  unfold State.faultWhistle
  try dsimp -zeta only
  repeat' first
    | with_reducible assumption
    | with_reducible exact Keeps.refl _
    | with_reducible rfl
    | exact ‹_›
    | simp only [id_eq]
    | with_reducible apply State.logReport_keeps
    | with_reducible apply State.armWhistle_keeps
    | (extract_lets +onlyGivenNames x; first
        | (refine Keeps.cut (s := s) (x := x) (fun hx => ?_) ?_; clear_value x; revert x; intro y hy; rotate_left; unfold x; clear x)
        | (refine Keeps.cut1 (s := s) (x := x) (fun hx => ?_) ?_; clear_value x; revert x; intro y hy; rotate_left; unfold x; clear x)
        | (refine Keeps.cut2 (s := s) (x := x) (fun hx => ?_) ?_; clear_value x; revert x; intro y hy; rotate_left; unfold x; clear x)
        | (revert x; intro y))
    | simp only [Keeps.rest_iff, Keeps.clk_iff]
    | with_reducible apply Keeps.foldl
    | with_reducible apply Keeps.foldl_fst
    | (refine Keeps.of_fst ‹_ = _› ?_)
    | (refine Keeps.of_snd ‹_ = _› ?_)
    | split
    | (intro)

theorem State.sevActions_keeps {s t : State} {cls : Nat} {sev : Nat} {time : Nat} {c : Ctx} (h : Keeps s t) : Keeps s (State.sevActions t cls sev time c) := by
  unfold State.sevActions
  try dsimp -zeta only
  repeat' first
    | with_reducible assumption
    | with_reducible exact Keeps.refl _
    | with_reducible rfl
    | with_reducible apply State.notice_keeps
    | with_reducible apply State.emit_keeps
    | with_reducible apply State.faultWhistle_keeps
    | with_reducible apply State.traceTrigger_keeps
    | (extract_lets +onlyGivenNames x; first
        | (refine Keeps.cut (s := s) (x := x) (fun hx => ?_) ?_; clear_value x; revert x; intro y hy; rotate_left; unfold x; clear x)
        | (refine Keeps.cut1 (s := s) (x := x) (fun hx => ?_) ?_; clear_value x; revert x; intro y hy; rotate_left; unfold x; clear x)
        | (refine Keeps.cut2 (s := s) (x := x) (fun hx => ?_) ?_; clear_value x; revert x; intro y hy; rotate_left; unfold x; clear x)
        | (revert x; intro y))
    | simp only [Keeps.rest_iff, Keeps.clk_iff]
    | with_reducible apply Keeps.foldl
    | with_reducible apply Keeps.foldl_fst
    | (refine Keeps.of_fst ‹_ = _› ?_)
    | (refine Keeps.of_snd ‹_ = _› ?_)
    | split
    | (intro)

theorem State.report_keeps {s t : State} {cls : Nat} {sev : Nat} {c : Ctx} (h : Keeps s t) : Keeps s (State.report t cls sev c) := by
  unfold State.report
  try dsimp -zeta only
  repeat' first
    | with_reducible assumption
    | with_reducible exact Keeps.refl _
    | with_reducible rfl
    | with_reducible apply State.logReport_keeps
    | with_reducible apply State.sevActions_keeps
    | (extract_lets +onlyGivenNames x; first
        | (refine Keeps.cut (s := s) (x := x) (fun hx => ?_) ?_; clear_value x; revert x; intro y hy; rotate_left; unfold x; clear x)
        | (refine Keeps.cut1 (s := s) (x := x) (fun hx => ?_) ?_; clear_value x; revert x; intro y hy; rotate_left; unfold x; clear x)
        | (refine Keeps.cut2 (s := s) (x := x) (fun hx => ?_) ?_; clear_value x; revert x; intro y hy; rotate_left; unfold x; clear x)
        | (revert x; intro y))
    | simp only [Keeps.rest_iff, Keeps.clk_iff]
    | with_reducible apply Keeps.foldl
    | with_reducible apply Keeps.foldl_fst
    | (refine Keeps.of_fst ‹_ = _› ?_)
    | (refine Keeps.of_snd ‹_ = _› ?_)
    | split
    | (intro)

theorem State.rejected_keeps {s t : State} {off : Nat} {value : Nat} {fn : Option Nat} (h : Keeps s t) : Keeps s (State.rejected t off value fn) := by
  unfold State.rejected
  repeat' first
    | with_reducible assumption
    | with_reducible apply State.report_keeps

theorem State.unmapped_keeps {s t : State} {addr : Nat} {c : Ctx} (h : Keeps s t) : Keeps s (State.unmapped t addr c) := by
  unfold State.unmapped
  repeat' first
    | with_reducible assumption
    | with_reducible apply State.report_keeps

theorem State.corrected_keeps {s t : State} {subject : Nat} {n : Nat} (h : Keeps s t) : Keeps s (State.corrected t subject n) := by
  unfold State.corrected
  try dsimp -zeta only
  repeat' first
    | with_reducible assumption
    | with_reducible exact Keeps.refl _
    | with_reducible rfl
    | (extract_lets +onlyGivenNames x; first
        | (refine Keeps.cut (s := s) (x := x) (fun hx => ?_) ?_; clear_value x; revert x; intro y hy; rotate_left; unfold x; clear x)
        | (refine Keeps.cut1 (s := s) (x := x) (fun hx => ?_) ?_; clear_value x; revert x; intro y hy; rotate_left; unfold x; clear x)
        | (refine Keeps.cut2 (s := s) (x := x) (fun hx => ?_) ?_; clear_value x; revert x; intro y hy; rotate_left; unfold x; clear x)
        | (revert x; intro y))
    | simp only [Keeps.rest_iff, Keeps.clk_iff]
    | with_reducible apply Keeps.foldl
    | with_reducible apply Keeps.foldl_fst
    | (refine Keeps.of_fst ‹_ = _› ?_)
    | (refine Keeps.of_snd ‹_ = _› ?_)
    | split
    | (intro)

theorem State.burstCorrected_keeps {s t : State} {stack : Nat} (h : Keeps s t) : Keeps s (State.burstCorrected t stack) := by
  unfold State.burstCorrected
  try dsimp -zeta only
  repeat' first
    | with_reducible assumption
    | with_reducible exact Keeps.refl _
    | with_reducible rfl
    | with_reducible apply State.corrected_keeps
    | with_reducible apply State.evCount_keeps
    | with_reducible apply State.bump_keeps
    | (extract_lets +onlyGivenNames x; first
        | (refine Keeps.cut (s := s) (x := x) (fun hx => ?_) ?_; clear_value x; revert x; intro y hy; rotate_left; unfold x; clear x)
        | (refine Keeps.cut1 (s := s) (x := x) (fun hx => ?_) ?_; clear_value x; revert x; intro y hy; rotate_left; unfold x; clear x)
        | (refine Keeps.cut2 (s := s) (x := x) (fun hx => ?_) ?_; clear_value x; revert x; intro y hy; rotate_left; unfold x; clear x)
        | (revert x; intro y))
    | simp only [Keeps.rest_iff, Keeps.clk_iff]
    | with_reducible apply Keeps.foldl
    | with_reducible apply Keeps.foldl_fst
    | (refine Keeps.of_fst ‹_ = _› ?_)
    | (refine Keeps.of_snd ‹_ = _› ?_)
    | split
    | (intro)

theorem State.eccRead_keeps {s t : State} {burst : Nat} {x2 : Ecc} (h : Keeps s t) : Keeps s (State.eccRead t burst x2) := by
  unfold State.eccRead
  try dsimp -zeta only
  repeat' first
    | with_reducible assumption
    | with_reducible exact Keeps.refl _
    | with_reducible rfl
    | exact fun hm => hm
    | with_reducible apply State.burstCorrected_keeps
    | (extract_lets +onlyGivenNames x; first
        | (refine Keeps.cut (s := s) (x := x) (fun hx => ?_) ?_; clear_value x; revert x; intro y hy; rotate_left; unfold x; clear x)
        | (refine Keeps.cut1 (s := s) (x := x) (fun hx => ?_) ?_; clear_value x; revert x; intro y hy; rotate_left; unfold x; clear x)
        | (refine Keeps.cut2 (s := s) (x := x) (fun hx => ?_) ?_; clear_value x; revert x; intro y hy; rotate_left; unfold x; clear x)
        | (revert x; intro y))
    | simp only [Keeps.rest_iff, Keeps.clk_iff]
    | with_reducible apply Keeps.foldl
    | with_reducible apply Keeps.foldl_fst
    | (refine Keeps.of_fst ‹_ = _› ?_)
    | (refine Keeps.of_snd ‹_ = _› ?_)
    | split
    | (intro)
    | exact id
    | with_reducible apply Keeps.mem

theorem State.eccAll_keeps {s t : State} {ecc : EccFinds} (h : Keeps s t) : Keeps s (State.eccAll t ecc) := by
  unfold State.eccAll
  try dsimp -zeta only
  repeat' first
    | with_reducible assumption
    | with_reducible exact Keeps.refl _
    | with_reducible rfl
    | with_reducible apply State.eccRead_keeps
    | (extract_lets +onlyGivenNames x; first
        | (refine Keeps.cut (s := s) (x := x) (fun hx => ?_) ?_; clear_value x; revert x; intro y hy; rotate_left; unfold x; clear x)
        | (refine Keeps.cut1 (s := s) (x := x) (fun hx => ?_) ?_; clear_value x; revert x; intro y hy; rotate_left; unfold x; clear x)
        | (refine Keeps.cut2 (s := s) (x := x) (fun hx => ?_) ?_; clear_value x; revert x; intro y hy; rotate_left; unfold x; clear x)
        | (revert x; intro y))
    | simp only [Keeps.rest_iff, Keeps.clk_iff]
    | with_reducible apply Keeps.foldl
    | with_reducible apply Keeps.foldl_fst
    | (refine Keeps.of_fst ‹_ = _› ?_)
    | (refine Keeps.of_snd ‹_ = _› ?_)
    | split
    | (intro)

theorem State.setRole_keeps {s t : State} {d : Nat} {r : Nat} (h : Keeps s t) : Keeps s (State.setRole t d r) := by
  unfold State.setRole
  repeat' first
    | with_reducible assumption
    | with_reducible apply State.fput_keeps

theorem State.changeRole_keeps {s t : State} {d : Nat} {r : Nat} (h : Keeps s t) : Keeps s (State.changeRole t d r) := by
  unfold State.changeRole
  repeat' first
    | with_reducible assumption
    | with_reducible apply State.event_keeps
    | with_reducible apply State.setRole_keeps
    | split

theorem State.showPower_keeps {s t : State}  (h : Keeps s t) : Keeps s (State.showPower t) := by
  unfold State.showPower
  repeat' first
    | with_reducible assumption
    | with_reducible apply State.fput_keeps

theorem State.setEff_keeps {s t : State}  (h : Keeps s t) : Keeps s (State.setEff t) := by
  unfold State.setEff
  repeat' first
    | with_reducible assumption
    | with_reducible apply State.showPower_keeps
    | with_reducible apply State.fput_keeps
    | split

theorem State.clockCells_keeps {s t : State}  (h : Keeps s t) : Keeps s (State.clockCells t) := by
  unfold State.clockCells
  repeat' first
    | with_reducible assumption
    | with_reducible apply State.showPower_keeps
    | simp only [Keeps.rest_iff, Keeps.clk_iff]
    | split

theorem State.setTime_keeps {s t : State} {st : Nat} (h : Keeps s t) : Keeps s (State.setTime t st) := by
  unfold State.setTime
  try dsimp -zeta only
  repeat' first
    | with_reducible assumption
    | with_reducible exact Keeps.refl _
    | with_reducible rfl
    | with_reducible apply State.setReg_keeps
    | with_reducible apply State.fput_keeps
    | with_reducible apply State.bump_keeps
    | with_reducible apply State.event_keeps
    | (extract_lets +onlyGivenNames x; first
        | (refine Keeps.cut (s := s) (x := x) (fun hx => ?_) ?_; clear_value x; revert x; intro y hy; rotate_left; unfold x; clear x)
        | (refine Keeps.cut1 (s := s) (x := x) (fun hx => ?_) ?_; clear_value x; revert x; intro y hy; rotate_left; unfold x; clear x)
        | (refine Keeps.cut2 (s := s) (x := x) (fun hx => ?_) ?_; clear_value x; revert x; intro y hy; rotate_left; unfold x; clear x)
        | (revert x; intro y))
    | simp only [Keeps.rest_iff, Keeps.clk_iff]
    | with_reducible apply Keeps.foldl
    | with_reducible apply Keeps.foldl_fst
    | (refine Keeps.of_fst ‹_ = _› ?_)
    | (refine Keeps.of_snd ‹_ = _› ?_)
    | split
    | (intro)

theorem State.ptpApplied_keeps {s t : State}  (h : Keeps s t) : Keeps s (State.ptpApplied t) := by
  unfold State.ptpApplied
  repeat' first
    | with_reducible assumption
    | with_reducible apply State.setTime_keeps
    | split

end Sys2Proof.Machine
end

