-- ==== Sys2Proof/Laws/KeepsTorus.lean ====
section
/-!
SUPPORT. What the operations of Machine/Torus.lean keep (Safety.lean).
-/
namespace Sys2Proof.Machine

open Sys2Proof

theorem State.bridgeCarries_keeps {s t : State} {n : Nat} {i : Nat} (h : Keeps s t) : Keeps s (State.bridgeCarries t n i) := by
  unfold State.bridgeCarries
  try dsimp -zeta only
  repeat' first
    | with_reducible assumption
    | with_reducible exact Keeps.refl _
    | with_reducible rfl
    | (extract_lets +onlyGivenNames x; first
        | (refine Keeps.cut (s := s) (x := x) (fun hx => ?_) ?_; clear_value x; revert x; intro y hy; rotate_left; unfold x; clear x)
        | (refine Keeps.cut1 (s := s) (x := x) (fun hx => ?_) ?_; clear_value x; revert x; intro y hy; rotate_left; unfold x; clear x)
        | (refine Keeps.cut2 (s := s) (x := x) (fun hx => ?_) ?_; clear_value x; revert x; intro y hy; rotate_left; unfold x; clear x)
        | (revert x; intro y))
    | simp only [Keeps.rest_iff, Keeps.clk_iff]
    | with_reducible apply Keeps.foldl
    | with_reducible apply Keeps.foldl_fst
    | (refine Keeps.of_fst ‹_ = _› ?_)
    | (refine Keeps.of_snd ‹_ = _› ?_)
    | split
    | (intro)

theorem State.switchPasses_keeps {s t : State} {r : Nat} (h : Keeps s t) : Keeps s (State.switchPasses t r) := by
  unfold State.switchPasses
  try dsimp -zeta only
  repeat' first
    | with_reducible assumption
    | with_reducible exact Keeps.refl _
    | with_reducible rfl
    | (extract_lets +onlyGivenNames x; first
        | (refine Keeps.cut (s := s) (x := x) (fun hx => ?_) ?_; clear_value x; revert x; intro y hy; rotate_left; unfold x; clear x)
        | (refine Keeps.cut1 (s := s) (x := x) (fun hx => ?_) ?_; clear_value x; revert x; intro y hy; rotate_left; unfold x; clear x)
        | (refine Keeps.cut2 (s := s) (x := x) (fun hx => ?_) ?_; clear_value x; revert x; intro y hy; rotate_left; unfold x; clear x)
        | (revert x; intro y))
    | simp only [Keeps.rest_iff, Keeps.clk_iff]
    | with_reducible apply Keeps.foldl
    | with_reducible apply Keeps.foldl_fst
    | (refine Keeps.of_fst ‹_ = _› ?_)
    | (refine Keeps.of_snd ‹_ = _› ?_)
    | split
    | (intro)

theorem State.cross_keeps {s t : State} {a : Nat} {b : Nat} {n : Nat} (h : Keeps s t) : Keeps s (State.cross t a b n) := by
  unfold State.cross
  try dsimp -zeta only
  repeat' first
    | with_reducible assumption
    | with_reducible exact Keeps.refl _
    | with_reducible rfl
    | with_reducible apply State.bridgeCarries_keeps
    | with_reducible apply State.switchPasses_keeps
    | (extract_lets +onlyGivenNames x; first
        | (refine Keeps.cut (s := s) (x := x) (fun hx => ?_) ?_; clear_value x; revert x; intro y hy; rotate_left; unfold x; clear x)
        | (refine Keeps.cut1 (s := s) (x := x) (fun hx => ?_) ?_; clear_value x; revert x; intro y hy; rotate_left; unfold x; clear x)
        | (refine Keeps.cut2 (s := s) (x := x) (fun hx => ?_) ?_; clear_value x; revert x; intro y hy; rotate_left; unfold x; clear x)
        | (revert x; intro y))
    | simp only [Keeps.rest_iff, Keeps.clk_iff]
    | with_reducible apply Keeps.foldl
    | with_reducible apply Keeps.foldl_fst
    | (refine Keeps.of_fst ‹_ = _› ?_)
    | (refine Keeps.of_snd ‹_ = _› ?_)
    | split
    | (intro)

theorem State.crossTo_keeps {s t : State} {a : Nat} {n : Nat} {x3 : Loc} (h : Keeps s t) : Keeps s (State.crossTo t a n x3) := by
  unfold State.crossTo
  try dsimp -zeta only
  repeat' first
    | with_reducible assumption
    | with_reducible exact Keeps.refl _
    | with_reducible rfl
    | with_reducible apply State.cross_keeps
    | with_reducible apply State.bridgeCarries_keeps
    | (extract_lets +onlyGivenNames x; first
        | (refine Keeps.cut (s := s) (x := x) (fun hx => ?_) ?_; clear_value x; revert x; intro y hy; rotate_left; unfold x; clear x)
        | (refine Keeps.cut1 (s := s) (x := x) (fun hx => ?_) ?_; clear_value x; revert x; intro y hy; rotate_left; unfold x; clear x)
        | (refine Keeps.cut2 (s := s) (x := x) (fun hx => ?_) ?_; clear_value x; revert x; intro y hy; rotate_left; unfold x; clear x)
        | (revert x; intro y))
    | simp only [Keeps.rest_iff, Keeps.clk_iff]
    | with_reducible apply Keeps.foldl
    | with_reducible apply Keeps.foldl_fst
    | (refine Keeps.of_fst ‹_ = _› ?_)
    | (refine Keeps.of_snd ‹_ = _› ?_)
    | split
    | (intro)

end Sys2Proof.Machine
end

