-- ==== Sys2Proof/Laws/KeepsRoute.lean ====
section
/-!
SUPPORT. What the operations of Machine/Route.lean keep (Safety.lean).
-/
namespace Sys2Proof.Machine

open Sys2Proof

theorem State.setPort_keeps {s t : State} {p : Nat} {v : Port} (h : Keeps s t) : Keeps s (State.setPort t p v) := by
  unfold State.setPort
  repeat' first
    | with_reducible assumption
    | with_reducible rfl
    | simp only [Keeps.rest_iff, Keeps.clk_iff]

theorem State.enqueue_keeps {s t : State} {p : Nat} {k : Packet} {from_ : Option Nat} {inCls : Nat} {ahead : Bool} (h : Keeps s t) : Keeps s (State.enqueue t p k from_ inCls ahead) := by
  unfold State.enqueue
  try dsimp -zeta only
  repeat' first
    | with_reducible assumption
    | with_reducible exact Keeps.refl _
    | with_reducible rfl
    | with_reducible apply State.setPort_keeps
    | (extract_lets +onlyGivenNames x; first
        | (refine Keeps.cut (s := s) (x := x) (fun hx => ?_) ?_; clear_value x; revert x; intro y hy; rotate_left; unfold x; clear x)
        | (refine Keeps.cut1 (s := s) (x := x) (fun hx => ?_) ?_; clear_value x; revert x; intro y hy; rotate_left; unfold x; clear x)
        | (refine Keeps.cut2 (s := s) (x := x) (fun hx => ?_) ?_; clear_value x; revert x; intro y hy; rotate_left; unfold x; clear x)
        | (revert x; intro y))
    | simp only [Keeps.rest_iff, Keeps.clk_iff]
    | with_reducible apply Keeps.foldl
    | with_reducible apply Keeps.foldl_fst
    | (refine Keeps.of_fst ‹_ = _› ?_)
    | (refine Keeps.of_snd ‹_ = _› ?_)
    | split
    | (intro)

theorem State.deliver_keeps {s t : State} {k : Packet} (h : Keeps s t) : Keeps s (State.deliver t k) := by
  unfold State.deliver
  try dsimp -zeta only
  repeat' first
    | with_reducible assumption
    | with_reducible exact Keeps.refl _
    | with_reducible rfl
    | (extract_lets +onlyGivenNames x; first
        | (refine Keeps.cut (s := s) (x := x) (fun hx => ?_) ?_; clear_value x; revert x; intro y hy; rotate_left; unfold x; clear x)
        | (refine Keeps.cut1 (s := s) (x := x) (fun hx => ?_) ?_; clear_value x; revert x; intro y hy; rotate_left; unfold x; clear x)
        | (refine Keeps.cut2 (s := s) (x := x) (fun hx => ?_) ?_; clear_value x; revert x; intro y hy; rotate_left; unfold x; clear x)
        | (revert x; intro y))
    | simp only [Keeps.rest_iff, Keeps.clk_iff]
    | with_reducible apply Keeps.foldl
    | with_reducible apply Keeps.foldl_fst
    | (refine Keeps.of_fst ‹_ = _› ?_)
    | (refine Keeps.of_snd ‹_ = _› ?_)
    | split
    | (intro)

theorem State.toPort_keeps {s t : State} {r : Nat} {p : Nat} {n : Nat} {starts : Bool} (h : Keeps s t) : Keeps s (State.toPort t r p n starts) := by
  unfold State.toPort
  try dsimp -zeta only
  repeat' first
    | with_reducible assumption
    | with_reducible exact Keeps.refl _
    | with_reducible rfl
    | with_reducible apply State.bridgeCarries_keeps
    | with_reducible apply State.cross_keeps
    | (extract_lets +onlyGivenNames x; first
        | (refine Keeps.cut (s := s) (x := x) (fun hx => ?_) ?_; clear_value x; revert x; intro y hy; rotate_left; unfold x; clear x)
        | (refine Keeps.cut1 (s := s) (x := x) (fun hx => ?_) ?_; clear_value x; revert x; intro y hy; rotate_left; unfold x; clear x)
        | (refine Keeps.cut2 (s := s) (x := x) (fun hx => ?_) ?_; clear_value x; revert x; intro y hy; rotate_left; unfold x; clear x)
        | (revert x; intro y))
    | simp only [Keeps.rest_iff, Keeps.clk_iff]
    | with_reducible apply Keeps.foldl
    | with_reducible apply Keeps.foldl_fst
    | (refine Keeps.of_fst ‹_ = _› ?_)
    | (refine Keeps.of_snd ‹_ = _› ?_)
    | split
    | (intro)

theorem State.tryForward_keeps {s t u : State} {r : Nat} {k : Packet} {from_ : Option Nat} {ahead : optParam Bool false} (h : Keeps s t) (e : State.tryForward t r k from_ ahead = some u) : Keeps s u := by
  unfold State.tryForward at e
  split at e <;> first | contradiction | (injection e with e; subst e)
  try dsimp -zeta only
  repeat' first
    | with_reducible assumption
    | with_reducible exact Keeps.refl _
    | with_reducible rfl
    | with_reducible apply State.enqueue_keeps
    | with_reducible apply State.toPort_keeps
    | (extract_lets +onlyGivenNames x; first
        | (refine Keeps.cut (s := s) (x := x) (fun hx => ?_) ?_; clear_value x; revert x; intro y hy; rotate_left; unfold x; clear x)
        | (refine Keeps.cut1 (s := s) (x := x) (fun hx => ?_) ?_; clear_value x; revert x; intro y hy; rotate_left; unfold x; clear x)
        | (refine Keeps.cut2 (s := s) (x := x) (fun hx => ?_) ?_; clear_value x; revert x; intro y hy; rotate_left; unfold x; clear x)
        | (revert x; intro y))
    | simp only [Keeps.rest_iff, Keeps.clk_iff]
    | with_reducible apply Keeps.foldl
    | with_reducible apply Keeps.foldl_fst
    | (refine Keeps.of_fst ‹_ = _› ?_)
    | (refine Keeps.of_snd ‹_ = _› ?_)
    | split
    | (intro)

theorem State.discardPacket_keeps {s t : State} {r : Nat} {k : Packet} (h : Keeps s t) : Keeps s (State.discardPacket t r k) := by
  unfold State.discardPacket
  repeat' first
    | with_reducible assumption
    | with_reducible apply State.bump_keeps
    | with_reducible apply State.deliver_keeps
    | refine State.tryForward_keeps ?_ ‹_›
    | (extract_lets +onlyGivenNames x; first
        | (revert x; intro y))
    | split

theorem State.forward_keeps {s t : State} {r : Nat} {k : Packet} {from_ : Option Nat} (h : Keeps s t) : Keeps s (State.forward t r k from_) := by
  unfold State.forward
  repeat' first
    | with_reducible assumption
    | refine State.tryForward_keeps ?_ ‹_›
    | with_reducible apply State.discardPacket_keeps
    | split

theorem State.send_keeps {s t : State} {r : Nat} {k : Packet} (h : Keeps s t) : Keeps s (State.send t r k) := by
  unfold State.send
  repeat' first
    | with_reducible assumption
    | with_reducible apply State.deliver_keeps
    | with_reducible apply State.forward_keeps
    | (extract_lets +onlyGivenNames x; first
        | (revert x; intro y))
    | split

theorem State.newTag_keeps {s t : State}  (h : Keeps s t) : Keeps s (State.newTag t).2 := by
  unfold State.newTag
  repeat' first
    | with_reducible assumption
    | with_reducible rfl
    | simp only [Keeps.rest_iff, Keeps.clk_iff]

theorem State.addRead_keeps {s t : State} {x : RemRead} (h : Keeps s t) : Keeps s (State.addRead t x) := by
  unfold State.addRead
  try dsimp -zeta only
  repeat' first
    | with_reducible assumption
    | with_reducible exact Keeps.refl _
    | with_reducible rfl
    | (extract_lets +onlyGivenNames x; first
        | (refine Keeps.cut (s := s) (x := x) (fun hx => ?_) ?_; clear_value x; revert x; intro y hy; rotate_left; unfold x; clear x)
        | (refine Keeps.cut1 (s := s) (x := x) (fun hx => ?_) ?_; clear_value x; revert x; intro y hy; rotate_left; unfold x; clear x)
        | (refine Keeps.cut2 (s := s) (x := x) (fun hx => ?_) ?_; clear_value x; revert x; intro y hy; rotate_left; unfold x; clear x)
        | (revert x; intro y))
    | simp only [Keeps.rest_iff, Keeps.clk_iff]
    | with_reducible apply Keeps.foldl
    | with_reducible apply Keeps.foldl_fst
    | (refine Keeps.of_fst ‹_ = _› ?_)
    | (refine Keeps.of_snd ‹_ = _› ?_)
    | split
    | (intro)

end Sys2Proof.Machine
end

