-- ==== Sys2Proof/Laws/KeepsGMem.lean ====
section
/-!
SUPPORT. What the operations of Machine/GMem.lean keep (Safety.lean).
-/
namespace Sys2Proof.Machine

open Sys2Proof

theorem State.noAnswer_keeps {s t : State} {off : Nat} (h : Keeps s t) : Keeps s (State.noAnswer t off) := by
  unfold State.noAnswer
  repeat' first
    | with_reducible assumption
    | with_reducible apply State.unmapped_keeps

theorem State.evrPop_keeps {s t : State} {i : Nat} (h : Keeps s t) : Keeps s (State.evrPop t i).1 := by
  unfold State.evrPop
  repeat' first
    | with_reducible assumption
    | with_reducible apply State.count_keeps

theorem State.regRead_keeps {s t : State} {who : Master} {off : Nat} (h : Keeps s t) : Keeps s (State.regRead t who off).1 := by
  unfold State.regRead
  repeat' first
    | with_reducible assumption
    | with_reducible apply State.noAnswer_keeps
    | with_reducible apply State.unmapped_keeps
    | with_reducible apply State.evrPop_keeps
    | split

theorem State.regBytes_keeps {s t : State} {who : Master} {off : Nat} {n : Nat} (h : Keeps s t) : Keeps s (State.regBytes t who off n).1 := by
  unfold State.regBytes
  repeat' first
    | with_reducible assumption
    | with_reducible apply State.regRead_keeps
    | with_reducible apply State.rejected_keeps
    | with_reducible apply Keeps.foldl_fst
    | split
    | (intro)

theorem State.fetchPiece_keeps {s t : State} {who : Master} {p : Nat × Nat} (h : Keeps s t) : Keeps s (State.fetchPiece t who p).1 := by
  unfold State.fetchPiece
  try dsimp -zeta only
  repeat' first
    | with_reducible assumption
    | with_reducible exact Keeps.refl _
    | with_reducible rfl
    | with_reducible apply State.regBytes_keeps
    | with_reducible apply State.unmapped_keeps
    | with_reducible apply State.crossTo_keeps
    | (extract_lets +onlyGivenNames x; first
        | (refine Keeps.cut (s := s) (x := x) (fun hx => ?_) ?_; clear_value x; revert x; intro y hy; rotate_left; unfold x; clear x)
        | (refine Keeps.cut1 (s := s) (x := x) (fun hx => ?_) ?_; clear_value x; revert x; intro y hy; rotate_left; unfold x; clear x)
        | (refine Keeps.cut2 (s := s) (x := x) (fun hx => ?_) ?_; clear_value x; revert x; intro y hy; rotate_left; unfold x; clear x)
        | (revert x; intro y))
    | simp only [Keeps.rest_iff, Keeps.clk_iff]
    | with_reducible apply Keeps.foldl
    | with_reducible apply Keeps.foldl_fst
    | (refine Keeps.of_fst ‹_ = _› ?_)
    | (refine Keeps.of_snd ‹_ = _› ?_)
    | split
    | (intro)

theorem State.fetchBytes_keeps {s t : State} {who : Master} {addr : Nat} {n : Nat} (h : Keeps s t) : Keeps s (State.fetchBytes t who addr n).1 := by
  unfold State.fetchBytes
  try dsimp -zeta only
  repeat' first
    | with_reducible assumption
    | with_reducible exact Keeps.refl _
    | with_reducible rfl
    | with_reducible apply State.fetchPiece_keeps
    | (extract_lets +onlyGivenNames x; first
        | (refine Keeps.cut (s := s) (x := x) (fun hx => ?_) ?_; clear_value x; revert x; intro y hy; rotate_left; unfold x; clear x)
        | (refine Keeps.cut1 (s := s) (x := x) (fun hx => ?_) ?_; clear_value x; revert x; intro y hy; rotate_left; unfold x; clear x)
        | (refine Keeps.cut2 (s := s) (x := x) (fun hx => ?_) ?_; clear_value x; revert x; intro y hy; rotate_left; unfold x; clear x)
        | (revert x; intro y))
    | simp only [Keeps.rest_iff, Keeps.clk_iff]
    | with_reducible apply Keeps.foldl
    | with_reducible apply Keeps.foldl_fst
    | (refine Keeps.of_fst ‹_ = _› ?_)
    | (refine Keeps.of_snd ‹_ = _› ?_)
    | split
    | (intro)

theorem State.plainWrite_keeps {s t : State} {who : Master} {a : Nat} {d : List Byte} (h : Keeps s t) : Keeps s (State.plainWrite t who a d) := by
  unfold State.plainWrite
  try dsimp -zeta only
  repeat' first
    | with_reducible assumption
    | with_reducible exact Keeps.refl _
    | with_reducible rfl
    | with_reducible apply State.bump_keeps
    | with_reducible apply State.writePlain_keeps
    | (extract_lets +onlyGivenNames x; first
        | (refine Keeps.cut (s := s) (x := x) (fun hx => ?_) ?_; clear_value x; revert x; intro y hy; rotate_left; unfold x; clear x)
        | (refine Keeps.cut1 (s := s) (x := x) (fun hx => ?_) ?_; clear_value x; revert x; intro y hy; rotate_left; unfold x; clear x)
        | (refine Keeps.cut2 (s := s) (x := x) (fun hx => ?_) ?_; clear_value x; revert x; intro y hy; rotate_left; unfold x; clear x)
        | (revert x; intro y))
    | simp only [Keeps.rest_iff, Keeps.clk_iff]
    | with_reducible apply Keeps.foldl
    | with_reducible apply Keeps.foldl_fst
    | (refine Keeps.of_fst ‹_ = _› ?_)
    | (refine Keeps.of_snd ‹_ = _› ?_)
    | split
    | (intro)

theorem State.pieceWrite_keeps {s t : State} {who : Master} {vc : Nat} {addr : Nat} {d : List Byte} (h : Keeps s t) : Keeps s (State.pieceWrite t who vc addr d) := by
  unfold State.pieceWrite
  try dsimp -zeta only
  repeat' first
    | with_reducible assumption
    | with_reducible exact Keeps.refl _
    | with_reducible rfl
    | exact fun hm => memCanon_trf hm wrTbl_wf
    | with_reducible apply State.plainWrite_keeps
    | with_reducible apply State.crossTo_keeps
    | with_reducible apply State.unmapped_keeps
    | with_reducible apply State.deliver_keeps
    | with_reducible apply State.send_keeps
    | (extract_lets +onlyGivenNames x; first
        | (refine Keeps.cut (s := s) (x := x) (fun hx => ?_) ?_; clear_value x; revert x; intro y hy; rotate_left; unfold x; clear x)
        | (refine Keeps.cut1 (s := s) (x := x) (fun hx => ?_) ?_; clear_value x; revert x; intro y hy; rotate_left; unfold x; clear x)
        | (refine Keeps.cut2 (s := s) (x := x) (fun hx => ?_) ?_; clear_value x; revert x; intro y hy; rotate_left; unfold x; clear x)
        | (revert x; intro y))
    | simp only [Keeps.rest_iff, Keeps.clk_iff]
    | with_reducible apply Keeps.foldl
    | with_reducible apply Keeps.foldl_fst
    | (refine Keeps.of_fst ‹_ = _› ?_)
    | (refine Keeps.of_snd ‹_ = _› ?_)
    | split
    | (intro)
    | exact id
    | with_reducible apply Keeps.mem

theorem State.gwrite_keeps {s t : State} {who : Master} {vc : Nat} {addr : Nat} {d : List Byte} (h : Keeps s t) : Keeps s (State.gwrite t who vc addr d) := by
  unfold State.gwrite
  try dsimp -zeta only
  repeat' first
    | with_reducible assumption
    | with_reducible exact Keeps.refl _
    | with_reducible rfl
    | with_reducible apply State.pieceWrite_keeps
    | (extract_lets +onlyGivenNames x; first
        | (refine Keeps.cut (s := s) (x := x) (fun hx => ?_) ?_; clear_value x; revert x; intro y hy; rotate_left; unfold x; clear x)
        | (refine Keeps.cut1 (s := s) (x := x) (fun hx => ?_) ?_; clear_value x; revert x; intro y hy; rotate_left; unfold x; clear x)
        | (refine Keeps.cut2 (s := s) (x := x) (fun hx => ?_) ?_; clear_value x; revert x; intro y hy; rotate_left; unfold x; clear x)
        | (revert x; intro y))
    | simp only [Keeps.rest_iff, Keeps.clk_iff]
    | with_reducible apply Keeps.foldl
    | with_reducible apply Keeps.foldl_fst
    | (refine Keeps.of_fst ‹_ = _› ?_)
    | (refine Keeps.of_snd ‹_ = _› ?_)
    | split
    | (intro)

theorem State.hostWrite_keeps {s t : State} {addr : Nat} {d : List Byte} (h : Keeps s t) : Keeps s (State.hostWrite t addr d) := by
  unfold State.hostWrite
  try dsimp -zeta only
  repeat' first
    | with_reducible assumption
    | with_reducible exact Keeps.refl _
    | with_reducible rfl
    | exact fun hm => memCanon_hostW hm wrTbl_wf
    | (extract_lets +onlyGivenNames x; first
        | (refine Keeps.cut (s := s) (x := x) (fun hx => ?_) ?_; clear_value x; revert x; intro y hy; rotate_left; unfold x; clear x)
        | (refine Keeps.cut1 (s := s) (x := x) (fun hx => ?_) ?_; clear_value x; revert x; intro y hy; rotate_left; unfold x; clear x)
        | (refine Keeps.cut2 (s := s) (x := x) (fun hx => ?_) ?_; clear_value x; revert x; intro y hy; rotate_left; unfold x; clear x)
        | (revert x; intro y))
    | simp only [Keeps.rest_iff, Keeps.clk_iff]
    | with_reducible apply Keeps.foldl
    | with_reducible apply Keeps.foldl_fst
    | (refine Keeps.of_fst ‹_ = _› ?_)
    | (refine Keeps.of_snd ‹_ = _› ?_)
    | split
    | (intro)
    | exact id
    | with_reducible apply Keeps.mem

end Sys2Proof.Machine
end

