-- ==== Sys2Proof/Laws/KeepsComplete.lean ====
section
/-!
SUPPORT. What the operations of Machine/Complete.lean keep (Safety.lean).
-/
namespace Sys2Proof.Machine

open Sys2Proof

theorem State.setSq_keeps {s t : State} {n : Nat} {v : SqSt} (h : Keeps s t) : Keeps s (State.setSq t n v) := by
  unfold State.setSq
  repeat' first
    | with_reducible assumption
    | with_reducible rfl
    | simp only [Keeps.rest_iff, Keeps.clk_iff]

theorem State.ringWrite_keeps {s t : State} {who : Master} {loc : Bool} {addr : Nat} {d : List Byte} (h : Keeps s t) : Keeps s (State.ringWrite t who loc addr d) := by
  unfold State.ringWrite
  try dsimp -zeta only
  repeat' first
    | with_reducible assumption
    | with_reducible exact Keeps.refl _
    | with_reducible rfl
    | with_reducible apply State.gwrite_keeps
    | with_reducible apply State.hostWrite_keeps
    | (extract_lets +onlyGivenNames x; first
        | (refine Keeps.cut (s := s) (x := x) (fun hx => ?_) ?_; clear_value x; revert x; intro y hy; rotate_left; unfold x; clear x)
        | (refine Keeps.cut1 (s := s) (x := x) (fun hx => ?_) ?_; clear_value x; revert x; intro y hy; rotate_left; unfold x; clear x)
        | (refine Keeps.cut2 (s := s) (x := x) (fun hx => ?_) ?_; clear_value x; revert x; intro y hy; rotate_left; unfold x; clear x)
        | (revert x; intro y))
    | simp only [Keeps.rest_iff, Keeps.clk_iff]
    | with_reducible apply Keeps.foldl
    | with_reducible apply Keeps.foldl_fst
    | (refine Keeps.of_fst ‹_ = _› ?_)
    | (refine Keeps.of_snd ‹_ = _› ?_)
    | split
    | (intro)

theorem State.msixSend_keeps {s t : State} {v : Nat} (h : Keeps s t) : Keeps s (State.msixSend t v) := by
  unfold State.msixSend
  repeat' first
    | with_reducible assumption
    | with_reducible apply State.emit_keeps
    | simp only [Keeps.rest_iff, Keeps.clk_iff]
    | split

theorem State.putRecord_keeps {s t : State} {who : Master} {m : Nat} {seq : Nat} {step : Nat} {d : Done} {irq : Bool} (h : Keeps s t) : Keeps s (State.putRecord t who m seq step d irq) := by
  unfold State.putRecord
  try dsimp -zeta only
  repeat' first
    | with_reducible assumption
    | with_reducible exact Keeps.refl _
    | with_reducible rfl
    | with_reducible apply State.ringWrite_keeps
    | with_reducible apply State.count_keeps
    | with_reducible apply State.msixSend_keeps
    | with_reducible apply State.bump_keeps
    | (extract_lets +onlyGivenNames x; first
        | (refine Keeps.cut (s := s) (x := x) (fun hx => ?_) ?_; clear_value x; revert x; intro y hy; rotate_left; unfold x; clear x)
        | (refine Keeps.cut1 (s := s) (x := x) (fun hx => ?_) ?_; clear_value x; revert x; intro y hy; rotate_left; unfold x; clear x)
        | (refine Keeps.cut2 (s := s) (x := x) (fun hx => ?_) ?_; clear_value x; revert x; intro y hy; rotate_left; unfold x; clear x)
        | (revert x; intro y))
    | simp only [Keeps.rest_iff, Keeps.clk_iff]
    | with_reducible apply Keeps.foldl
    | with_reducible apply Keeps.foldl_fst
    | (refine Keeps.of_fst ‹_ = _› ?_)
    | (refine Keeps.of_snd ‹_ = _› ?_)
    | split
    | (intro)

theorem State.sendEvent_keeps {s t : State} {n : Nat} {poison : Bool} {by_ : Nat} (h : Keeps s t) : Keeps s (State.sendEvent t n poison by_) := by
  unfold State.sendEvent
  repeat' first
    | with_reducible assumption
    | with_reducible apply State.fput_keeps
    | with_reducible apply State.setSq_keeps
    | (extract_lets +onlyGivenNames x; first
        | (refine Keeps.cut (s := s) (x := x) (fun hx => ?_) ?_; clear_value x; revert x; intro y hy; rotate_left; unfold x; clear x)
        | (revert x; intro y))
    | split

theorem State.reserve_keeps {s t : State} {m : Nat} {k : Nat} (h : Keeps s t) : Keeps s (State.reserve t m k) := by
  unfold State.reserve
  repeat' first
    | with_reducible assumption
    | with_reducible apply State.bump_keeps

theorem State.release_keeps {s t : State} {m : Nat} {k : Nat} (h : Keeps s t) : Keeps s (State.release t m k) := by
  unfold State.release
  repeat' first
    | with_reducible assumption
    | with_reducible apply State.lower_keeps

theorem State.complete_keeps {s t : State} {n : Nat} {bytes : List Byte} {seq : Nat} {slots : Nat} {keep : Nat} {d : Done} (h : Keeps s t) : Keeps s (State.complete t n bytes seq slots keep d) := by
  unfold State.complete
  repeat' first
    | with_reducible assumption
    | with_reducible apply State.putRecord_keeps
    | with_reducible apply State.release_keeps
    | with_reducible apply State.sendEvent_keeps
    | split

theorem State.completeFetched_keeps {s t : State} {n : Nat} {f : Fetched} {d : Done} (h : Keeps s t) : Keeps s (State.completeFetched t n f d) := by
  unfold State.completeFetched
  repeat' first
    | with_reducible assumption
    | with_reducible apply State.complete_keeps

theorem State.updStarted_keeps {s t : State} {n : Nat} {seq : Nat} {f : Started → Started} (h : Keeps s t) : Keeps s (State.updStarted t n seq f) := by
  unfold State.updStarted
  repeat' first
    | with_reducible assumption
    | with_reducible rfl
    | simp only [Keeps.rest_iff, Keeps.clk_iff]

theorem State.answeredTimed_keeps {s t : State} {tag : Nat} (h : Keeps s t) : Keeps s (State.answeredTimed t tag) := by
  unfold State.answeredTimed
  try dsimp -zeta only
  repeat' first
    | with_reducible assumption
    | with_reducible exact Keeps.refl _
    | with_reducible rfl
    | with_reducible apply State.updStarted_keeps
    | (extract_lets +onlyGivenNames x; first
        | (refine Keeps.cut (s := s) (x := x) (fun hx => ?_) ?_; clear_value x; revert x; intro y hy; rotate_left; unfold x; clear x)
        | (refine Keeps.cut1 (s := s) (x := x) (fun hx => ?_) ?_; clear_value x; revert x; intro y hy; rotate_left; unfold x; clear x)
        | (refine Keeps.cut2 (s := s) (x := x) (fun hx => ?_) ?_; clear_value x; revert x; intro y hy; rotate_left; unfold x; clear x)
        | (revert x; intro y))
    | simp only [Keeps.rest_iff, Keeps.clk_iff]
    | with_reducible apply Keeps.foldl
    | with_reducible apply Keeps.foldl_fst
    | (refine Keeps.of_fst ‹_ = _› ?_)
    | (refine Keeps.of_snd ‹_ = _› ?_)
    | split
    | (intro)

theorem State.setDone_keeps {s t : State} {n : Nat} {seq : Nat} {d : Done} (h : Keeps s t) : Keeps s (State.setDone t n seq d) := by
  unfold State.setDone
  repeat' first
    | with_reducible assumption
    | with_reducible apply State.updStarted_keeps

end Sys2Proof.Machine
end

