-- ==== Sys2Proof/Laws/KeepsAccess.lean ====
section
/-!
SUPPORT. What the operations of Machine/Access.lean keep (Safety.lean).
-/
namespace Sys2Proof.Machine

open Sys2Proof

theorem State.readPiece_keeps {s t : State} {who : Master} {addr : Nat} {n : Nat} {acc : ReadAcc} (h : Keeps s t) : Keeps s (State.readPiece t who addr n acc).1 := by
  unfold State.readPiece
  try dsimp -zeta only
  repeat' first
    | with_reducible assumption
    | with_reducible exact Keeps.refl _
    | with_reducible rfl
    | with_reducible apply State.crossTo_keeps
    | with_reducible apply State.regBytes_keeps
    | with_reducible apply State.unmapped_keeps
    | with_reducible apply State.ueReport_keeps
    | (extract_lets +onlyGivenNames x; first
        | (refine Keeps.cut (s := s) (x := x) (fun hx => ?_) ?_; clear_value x; revert x; intro y hy; rotate_left; unfold x; clear x)
        | (refine Keeps.cut1 (s := s) (x := x) (fun hx => ?_) ?_; clear_value x; revert x; intro y hy; rotate_left; unfold x; clear x)
        | (refine Keeps.cut2 (s := s) (x := x) (fun hx => ?_) ?_; clear_value x; revert x; intro y hy; rotate_left; unfold x; clear x)
        | (revert x; intro y))
    | simp only [Keeps.rest_iff, Keeps.clk_iff]
    | with_reducible apply Keeps.foldl
    | with_reducible apply Keeps.foldl_fst
    | (refine Keeps.of_fst ‹_ = _› ?_)
    | (refine Keeps.of_snd ‹_ = _› ?_)
    | split
    | (intro)

theorem State.readAll_keeps {s t : State} {who : Master} {addr : Nat} {n : Nat} (h : Keeps s t) : Keeps s (State.readAll t who addr n).1 := by
  unfold State.readAll
  repeat' first
    | with_reducible assumption
    | with_reducible apply State.readPiece_keeps
    | with_reducible apply Keeps.foldl_fst
    | (intro)

theorem State.tmpKeep_keeps {s t : State} {die : Nat} {src : Nat} {type : Nat} {seq : Nat} {body : List Byte} (h : Keeps s t) : Keeps s (State.tmpKeep t die src type seq body) := by
  unfold State.tmpKeep
  repeat' first
    | with_reducible assumption
    | with_reducible apply State.emit_keeps
    | simp only [Keeps.rest_iff, Keeps.clk_iff]

theorem State.tmpReply_keeps {s t : State} {die : Nat} {src : Nat} {seq : Nat} {status : Nat} {data : List Byte} (h : Keeps s t) : Keeps s (State.tmpReply t die src seq status data) := by
  unfold State.tmpReply
  repeat' first
    | with_reducible assumption
    | with_reducible apply State.tmpKeep_keeps

theorem State.replyRead_keeps {s t : State} {who : Master} {addr : Nat} {acc : ReadAcc} (h : Keeps s t) : Keeps s (State.replyRead t who addr acc) := by
  unfold State.replyRead
  repeat' first
    | with_reducible assumption
    | with_reducible apply State.send_keeps
    | with_reducible apply State.tmpReply_keeps
    | with_reducible apply State.emit_keeps
    | split

theorem State.serveRead_keeps {s t : State} {who : Master} {addr : Nat} {n : Nat} (h : Keeps s t) : Keeps s (State.serveRead t who addr n) := by
  unfold State.serveRead
  repeat' first
    | with_reducible assumption
    | with_reducible apply State.readAll_keeps
    | with_reducible apply State.replyRead_keeps
    | simp only [Keeps.rest_iff, Keeps.clk_iff]
    | split

theorem State.serveWaiting_keeps {s t : State}  (h : Keeps s t) : Keeps s (State.serveWaiting t) := by
  unfold State.serveWaiting
  repeat' first
    | with_reducible assumption
    | with_reducible apply State.readAll_keeps
    | with_reducible apply State.replyRead_keeps
    | simp only [Keeps.rest_iff, Keeps.clk_iff]
    | with_reducible apply Keeps.foldl
    | (intro)

theorem State.eccIn_keeps {s t : State} {addr : Nat} {n : Nat} {ecc : EccFinds} (h : Keeps s t) : Keeps s (State.eccIn t addr n ecc) := by
  unfold State.eccIn
  try dsimp -zeta only
  repeat' first
    | with_reducible assumption
    | with_reducible exact Keeps.refl _
    | with_reducible rfl
    | with_reducible apply State.eccAll_keeps
    | (extract_lets +onlyGivenNames x; first
        | (refine Keeps.cut (s := s) (x := x) (fun hx => ?_) ?_; clear_value x; revert x; intro y hy; rotate_left; unfold x; clear x)
        | (refine Keeps.cut1 (s := s) (x := x) (fun hx => ?_) ?_; clear_value x; revert x; intro y hy; rotate_left; unfold x; clear x)
        | (refine Keeps.cut2 (s := s) (x := x) (fun hx => ?_) ?_; clear_value x; revert x; intro y hy; rotate_left; unfold x; clear x)
        | (revert x; intro y))
    | simp only [Keeps.rest_iff, Keeps.clk_iff]
    | with_reducible apply Keeps.foldl
    | with_reducible apply Keeps.foldl_fst
    | (refine Keeps.of_fst ‹_ = _› ?_)
    | (refine Keeps.of_snd ‹_ = _› ?_)
    | split
    | (intro)

theorem State.readPart_keeps {s t : State} {who : Master} {sp : Space} {addr : Nat} {n : Nat} {ecc : EccFinds} (h : Keeps s t) : Keeps s (State.readPart t who sp addr n ecc) := by
  unfold State.readPart
  try dsimp -zeta only
  repeat' first
    | with_reducible assumption
    | with_reducible exact Keeps.refl _
    | with_reducible rfl
    | with_reducible apply State.replyRead_keeps
    | with_reducible apply State.unmapped_keeps
    | with_reducible apply State.newTag_keeps
    | with_reducible apply State.addRead_keeps
    | with_reducible apply State.send_keeps
    | with_reducible apply State.serveRead_keeps
    | with_reducible apply State.eccIn_keeps
    | (extract_lets +onlyGivenNames x; first
        | (refine Keeps.cut (s := s) (x := x) (fun hx => ?_) ?_; clear_value x; revert x; intro y hy; rotate_left; unfold x; clear x)
        | (refine Keeps.cut1 (s := s) (x := x) (fun hx => ?_) ?_; clear_value x; revert x; intro y hy; rotate_left; unfold x; clear x)
        | (refine Keeps.cut2 (s := s) (x := x) (fun hx => ?_) ?_; clear_value x; revert x; intro y hy; rotate_left; unfold x; clear x)
        | (revert x; intro y))
    | simp only [Keeps.rest_iff, Keeps.clk_iff]
    | with_reducible apply Keeps.foldl
    | with_reducible apply Keeps.foldl_fst
    | (refine Keeps.of_fst ‹_ = _› ?_)
    | (refine Keeps.of_snd ‹_ = _› ?_)
    | split
    | (intro)

theorem memoryRead_keeps {s t : State} {who : Master} {sp : Space} {addr : Nat} {n : Nat} {ecc : EccFinds} (h : Keeps s t) : Keeps s (memoryRead t who sp addr n ecc) := by
  unfold memoryRead
  try dsimp -zeta only
  repeat' first
    | with_reducible assumption
    | with_reducible exact Keeps.refl _
    | with_reducible rfl
    | with_reducible apply State.readPart_keeps
    | (extract_lets +onlyGivenNames x; first
        | (refine Keeps.cut (s := s) (x := x) (fun hx => ?_) ?_; clear_value x; revert x; intro y hy; rotate_left; unfold x; clear x)
        | (refine Keeps.cut1 (s := s) (x := x) (fun hx => ?_) ?_; clear_value x; revert x; intro y hy; rotate_left; unfold x; clear x)
        | (refine Keeps.cut2 (s := s) (x := x) (fun hx => ?_) ?_; clear_value x; revert x; intro y hy; rotate_left; unfold x; clear x)
        | (revert x; intro y))
    | simp only [Keeps.rest_iff, Keeps.clk_iff]
    | with_reducible apply Keeps.foldl
    | with_reducible apply Keeps.foldl_fst
    | (refine Keeps.of_fst ‹_ = _› ?_)
    | (refine Keeps.of_snd ‹_ = _› ?_)
    | split
    | (intro)

theorem execMemoryRead_keeps {s u : State} {who : Master} {sp : Space} {addr : Nat} {len : Nat} {ecc : EccFinds} (e : execMemoryRead who sp addr len ecc s = .next u) : Keeps s u := by
  unfold execMemoryRead at e
  injection e with e
  subst e
  try dsimp -zeta only
  repeat' first
    | with_reducible assumption
    | with_reducible exact Keeps.refl _
    | with_reducible rfl
    | with_reducible apply memoryRead_keeps
    | (extract_lets +onlyGivenNames x; first
        | (refine Keeps.cut (s := s) (x := x) (fun hx => ?_) ?_; clear_value x; revert x; intro y hy; rotate_left; unfold x; clear x)
        | (refine Keeps.cut1 (s := s) (x := x) (fun hx => ?_) ?_; clear_value x; revert x; intro y hy; rotate_left; unfold x; clear x)
        | (refine Keeps.cut2 (s := s) (x := x) (fun hx => ?_) ?_; clear_value x; revert x; intro y hy; rotate_left; unfold x; clear x)
        | (revert x; intro y))
    | simp only [Keeps.rest_iff, Keeps.clk_iff]
    | with_reducible apply Keeps.foldl
    | with_reducible apply Keeps.foldl_fst
    | (refine Keeps.of_fst ‹_ = _› ?_)
    | (refine Keeps.of_snd ‹_ = _› ?_)
    | split
    | (intro)

theorem execRegisterHolderTimeout_keeps {s u : State} {who : Master} {off : Nat} {write : Bool} (e : execRegisterHolderTimeout who off write s = .next u) : Keeps s u := by
  unfold execRegisterHolderTimeout at e
  injection e with e
  subst e
  repeat' first
    | with_reducible exact Keeps.refl _
    | with_reducible apply State.noAnswer_keeps
    | with_reducible apply State.emit_keeps
    | split

theorem execEvrPop_keeps {s u : State} {who : Master} {i : Nat} (e : execEvrPop who i s = .next u) : Keeps s u := by
  unfold execEvrPop at e
  injection e with e
  subst e
  repeat' first
    | with_reducible exact Keeps.refl _
    | with_reducible apply State.evrPop_keeps
    | with_reducible apply State.emit_keeps
    | split

end Sys2Proof.Machine
end

