-- ==== Sys2Proof/Laws/KeepsTrace.lean ====
section
/-!
SUPPORT. What the operations of Machine/Trace.lean keep (Safety.lean).
-/
namespace Sys2Proof.Machine

open Sys2Proof

theorem State.applyTrace_keeps {s t : State}  (h : Keeps s t) : Keeps s (State.applyTrace t) := by
  unfold State.applyTrace
  repeat' first
    | with_reducible assumption
    | with_reducible apply State.setReg_keeps
    | simp only [Keeps.rest_iff, Keeps.clk_iff]
    | with_reducible apply Keeps.foldl
    | split
    | (intro)

theorem State.traceStep_keeps {s t : State} {b : Nat} {size : Nat} {wrap : State → State} (h : Keeps s t) (hwrap : ∀ z, Keeps s z → Keeps s (wrap z)) : Keeps s (State.traceStep t b size wrap) := by
  unfold State.traceStep
  repeat' first
    | with_reducible assumption
    | apply hwrap
    | with_reducible apply State.fput_keeps
    | (extract_lets +onlyGivenNames x; first
        | (revert x; intro y))
    | split

theorem State.traceStopped_keeps {s t : State} {b : Nat} (h : Keeps s t) : Keeps s (State.traceStopped t b) := by
  unfold State.traceStopped
  repeat' first
    | with_reducible assumption
    | with_reducible apply State.fput_keeps

theorem State.tracePost_keeps {s t : State} {b : Nat} (h : Keeps s t) : Keeps s (State.tracePost t b) := by
  unfold State.tracePost
  repeat' first
    | with_reducible assumption
    | with_reducible apply State.traceStopped_keeps
    | simp only [Keeps.rest_iff, Keeps.clk_iff]
    | split

theorem State.tracePut_keeps {s t : State} {b : Nat} {p : List Byte} (h : Keeps s t) : Keeps s (State.tracePut t b p) := by
  unfold State.tracePut
  repeat' first
    | with_reducible assumption
    | with_reducible apply State.emit_keeps
    | with_reducible apply State.traceStep_keeps
    | with_reducible apply State.gwrite_keeps
    | with_reducible apply State.fput_keeps
    | with_reducible apply State.traceStopped_keeps
    | with_reducible apply State.tracePost_keeps
    | simp only [Keeps.rest_iff, Keeps.clk_iff]
    | split
    | (intro)

theorem State.traceDiscard_keeps {s t : State} {b : Nat} (h : Keeps s t) : Keeps s (State.traceDiscard t b) := by
  unfold State.traceDiscard
  try dsimp -zeta only
  repeat' first
    | with_reducible assumption
    | with_reducible exact Keeps.refl _
    | with_reducible rfl
    | with_reducible apply State.bump_keeps
    | (extract_lets +onlyGivenNames x; first
        | (refine Keeps.cut (s := s) (x := x) (fun hx => ?_) ?_; clear_value x; revert x; intro y hy; rotate_left; unfold x; clear x)
        | (refine Keeps.cut1 (s := s) (x := x) (fun hx => ?_) ?_; clear_value x; revert x; intro y hy; rotate_left; unfold x; clear x)
        | (refine Keeps.cut2 (s := s) (x := x) (fun hx => ?_) ?_; clear_value x; revert x; intro y hy; rotate_left; unfold x; clear x)
        | (revert x; intro y))
    | simp only [Keeps.rest_iff, Keeps.clk_iff]
    | with_reducible apply Keeps.foldl
    | with_reducible apply Keeps.foldl_fst
    | (refine Keeps.of_fst ‹_ = _› ?_)
    | (refine Keeps.of_snd ‹_ = _› ?_)
    | split
    | (intro)

theorem State.traceLost_keeps {s t : State} {b : Nat} {ring : Nat} {seq : Nat} (h : Keeps s t) : Keeps s (State.traceLost t b ring seq) := by
  unfold State.traceLost
  try dsimp -zeta only
  repeat' first
    | with_reducible assumption
    | with_reducible exact Keeps.refl _
    | with_reducible rfl
    | with_reducible apply State.tracePut_keeps
    | with_reducible apply State.drew_keeps
    | (extract_lets +onlyGivenNames x; first
        | (refine Keeps.cut (s := s) (x := x) (fun hx => ?_) ?_; clear_value x; revert x; intro y hy; rotate_left; unfold x; clear x)
        | (refine Keeps.cut1 (s := s) (x := x) (fun hx => ?_) ?_; clear_value x; revert x; intro y hy; rotate_left; unfold x; clear x)
        | (refine Keeps.cut2 (s := s) (x := x) (fun hx => ?_) ?_; clear_value x; revert x; intro y hy; rotate_left; unfold x; clear x)
        | (revert x; intro y))
    | simp only [Keeps.rest_iff, Keeps.clk_iff]
    | with_reducible apply Keeps.foldl
    | with_reducible apply Keeps.foldl_fst
    | (refine Keeps.of_fst ‹_ = _› ?_)
    | (refine Keeps.of_snd ‹_ = _› ?_)
    | split
    | (intro)

theorem State.traceOffer_keeps {s t : State} {b : Nat} {ring : Nat} {seq : Nat} {p : List Byte} (h : Keeps s t) : Keeps s (State.traceOffer t b ring seq p) := by
  unfold State.traceOffer
  try dsimp -zeta only
  repeat' first
    | with_reducible assumption
    | with_reducible exact Keeps.refl _
    | with_reducible rfl
    | with_reducible apply State.drew_keeps
    | with_reducible apply State.traceDiscard_keeps
    | with_reducible apply State.tracePut_keeps
    | with_reducible apply State.traceLost_keeps
    | (extract_lets +onlyGivenNames x; first
        | (refine Keeps.cut (s := s) (x := x) (fun hx => ?_) ?_; clear_value x; revert x; intro y hy; rotate_left; unfold x; clear x)
        | (refine Keeps.cut1 (s := s) (x := x) (fun hx => ?_) ?_; clear_value x; revert x; intro y hy; rotate_left; unfold x; clear x)
        | (refine Keeps.cut2 (s := s) (x := x) (fun hx => ?_) ?_; clear_value x; revert x; intro y hy; rotate_left; unfold x; clear x)
        | (revert x; intro y))
    | simp only [Keeps.rest_iff, Keeps.clk_iff]
    | with_reducible apply Keeps.foldl
    | with_reducible apply Keeps.foldl_fst
    | (refine Keeps.of_fst ‹_ = _› ?_)
    | (refine Keeps.of_snd ‹_ = _› ?_)
    | split
    | (intro)

theorem State.traceSync_keeps {s t : State} {b : Nat} {ring : Nat} {seq : Nat} (h : Keeps s t) : Keeps s (State.traceSync t b ring seq) := by
  unfold State.traceSync
  try dsimp -zeta only
  repeat' first
    | with_reducible assumption
    | with_reducible exact Keeps.refl _
    | with_reducible rfl
    | with_reducible apply State.traceOffer_keeps
    | with_reducible apply State.drew_keeps
    | (extract_lets +onlyGivenNames x; first
        | (refine Keeps.cut (s := s) (x := x) (fun hx => ?_) ?_; clear_value x; revert x; intro y hy; rotate_left; unfold x; clear x)
        | (refine Keeps.cut1 (s := s) (x := x) (fun hx => ?_) ?_; clear_value x; revert x; intro y hy; rotate_left; unfold x; clear x)
        | (refine Keeps.cut2 (s := s) (x := x) (fun hx => ?_) ?_; clear_value x; revert x; intro y hy; rotate_left; unfold x; clear x)
        | (revert x; intro y))
    | simp only [Keeps.rest_iff, Keeps.clk_iff]
    | with_reducible apply Keeps.foldl
    | with_reducible apply Keeps.foldl_fst
    | (refine Keeps.of_fst ‹_ = _› ?_)
    | (refine Keeps.of_snd ‹_ = _› ?_)
    | split
    | (intro)

theorem State.tracePacket_keeps {s t : State} {b : Nat} {ring : Nat} {seq : Nat} {p : List Byte} (h : Keeps s t) : Keeps s (State.tracePacket t b ring seq p) := by
  unfold State.tracePacket
  try dsimp -zeta only
  repeat' first
    | with_reducible assumption
    | with_reducible exact Keeps.refl _
    | with_reducible rfl
    | with_reducible apply State.traceSync_keeps
    | with_reducible apply State.traceOffer_keeps
    | (extract_lets +onlyGivenNames x; first
        | (refine Keeps.cut (s := s) (x := x) (fun hx => ?_) ?_; clear_value x; revert x; intro y hy; rotate_left; unfold x; clear x)
        | (refine Keeps.cut1 (s := s) (x := x) (fun hx => ?_) ?_; clear_value x; revert x; intro y hy; rotate_left; unfold x; clear x)
        | (refine Keeps.cut2 (s := s) (x := x) (fun hx => ?_) ?_; clear_value x; revert x; intro y hy; rotate_left; unfold x; clear x)
        | (revert x; intro y))
    | simp only [Keeps.rest_iff, Keeps.clk_iff]
    | with_reducible apply Keeps.foldl
    | with_reducible apply Keeps.foldl_fst
    | (refine Keeps.of_fst ‹_ = _› ?_)
    | (refine Keeps.of_snd ‹_ = _› ?_)
    | split
    | (intro)

theorem State.traceTags_keeps {s t : State} {b : Nat} {d : Started} (h : Keeps s t) : Keeps s (State.traceTags t b d) := by
  unfold State.traceTags
  repeat' first
    | with_reducible assumption
    | with_reducible apply State.tracePacket_keeps

theorem State.traceEndPacket_keeps {s t : State} {b : Nat} {d : Started} (h : Keeps s t) : Keeps s (State.traceEndPacket t b d) := by
  unfold State.traceEndPacket
  repeat' first
    | with_reducible assumption
    | with_reducible apply State.tracePacket_keeps
    | with_reducible apply State.drew_keeps

theorem State.traceStart_keeps {s t : State} {d : Started} {blocks : List Nat} (h : Keeps s t) : Keeps s (State.traceStart t d blocks) := by
  unfold State.traceStart
  repeat' first
    | with_reducible assumption
    | with_reducible apply State.traceTags_keeps
    | with_reducible apply State.traceSync_keeps
    | simp only [Keeps.rest_iff, Keeps.clk_iff]
    | with_reducible apply Keeps.foldl
    | split
    | (intro)

theorem traceEnd_keeps {s t : State} {d : Started} (h : Keeps s t) : Keeps s (traceEnd t d) := by
  unfold traceEnd
  repeat' first
    | with_reducible assumption
    | with_reducible apply State.traceEndPacket_keeps
    | with_reducible apply State.tracePacket_keeps
    | with_reducible apply State.drew_keeps
    | simp only [Keeps.rest_iff, Keeps.clk_iff]
    | with_reducible apply Keeps.foldl
    | split
    | (intro)

end Sys2Proof.Machine
end

