-- ==== Sys2Proof/Laws/KeepsStop.lean ====
section
/-!
SUPPORT. What the operations of Machine/Stop.lean keep (Safety.lean).
-/
namespace Sys2Proof.Machine

open Sys2Proof

theorem State.updTicket_keeps {s t : State} {x1 : Nat} {f : TicketSt → TicketSt} (h : Keeps s t) : Keeps s (State.updTicket t x1 f) := by
  unfold State.updTicket
  repeat' first
    | with_reducible assumption
    | with_reducible rfl
    | simp only [Keeps.rest_iff, Keeps.clk_iff]

theorem State.endRun_keeps {s t : State}  (h : Keeps s t) : Keeps s (State.endRun t) := by
  unfold State.endRun
  try dsimp -zeta only
  repeat' first
    | with_reducible assumption
    | with_reducible exact Keeps.refl _
    | with_reducible rfl
    | with_reducible apply State.bump_keeps
    | with_reducible apply State.updTicket_keeps
    | with_reducible apply State.setReg_keeps
    | (extract_lets +onlyGivenNames x; first
        | (refine Keeps.cut (s := s) (x := x) (fun hx => ?_) ?_; clear_value x; revert x; intro y hy; rotate_left; unfold x; clear x)
        | (refine Keeps.cut1 (s := s) (x := x) (fun hx => ?_) ?_; clear_value x; revert x; intro y hy; rotate_left; unfold x; clear x)
        | (refine Keeps.cut2 (s := s) (x := x) (fun hx => ?_) ?_; clear_value x; revert x; intro y hy; rotate_left; unfold x; clear x)
        | (revert x; intro y))
    | simp only [Keeps.rest_iff, Keeps.clk_iff]
    | with_reducible apply Keeps.foldl
    | with_reducible apply Keeps.foldl_fst
    | (refine Keeps.of_fst ‹_ = _› ?_)
    | (refine Keeps.of_snd ‹_ = _› ?_)
    | split
    | (intro)

theorem State.stopArray_keeps {s t : State} {d : Started} (h : Keeps s t) : Keeps s (State.stopArray t d) := by
  unfold State.stopArray
  repeat' first
    | with_reducible assumption
    | with_reducible apply State.endRun_keeps
    | split

theorem State.endRank_keeps {s t : State} {n : Nat} {seq : Nat} (h : Keeps s t) : Keeps s (State.endRank t n seq) := by
  unfold State.endRank
  repeat' first
    | with_reducible assumption
    | with_reducible rfl
    | simp only [Keeps.rest_iff, Keeps.clk_iff]

end Sys2Proof.Machine
end

