-- ==== Sys2Proof/Laws/KeepsRings.lean ====
section
/-!
SUPPORT. What the operations of Machine/Rings.lean keep (Safety.lean).
-/
namespace Sys2Proof.Machine

open Sys2Proof

theorem doorbell_keeps {s t : State} {n : Nat} {value : Word} (h : Keeps s t) : Keeps s (doorbell t n value) := by
  unfold doorbell
  repeat' first
    | with_reducible assumption
    | with_reducible apply State.fput_keeps
    | with_reducible apply State.setSq_keeps
    | with_reducible apply State.bump_keeps
    | (extract_lets +onlyGivenNames x; first
        | (revert x; intro y))
    | split

theorem execDoorbell_keeps {s u : State} {n : Nat} {value : Word} (e : execDoorbell n value s = .next u) : Keeps s u := by
  unfold execDoorbell at e
  injection e with e
  subst e
  repeat' first
    | with_reducible exact Keeps.refl _
    | with_reducible apply doorbell_keeps
    | split

theorem State.extRead_keeps {s t : State} {who : Master} {loc : Bool} {addr : Nat} {n : Nat} {ext : List Byte} (h : Keeps s t) : Keeps s (State.extRead t who loc addr n ext).1 := by
  unfold State.extRead
  try dsimp -zeta only
  repeat' first
    | with_reducible assumption
    | with_reducible exact Keeps.refl _
    | with_reducible rfl
    | with_reducible apply State.unmapped_keeps
    | with_reducible apply State.fetchBytes_keeps
    | (extract_lets +onlyGivenNames x; first
        | (refine Keeps.cut (s := s) (x := x) (fun hx => ?_) ?_; clear_value x; revert x; intro y hy; rotate_left; unfold x; clear x)
        | (refine Keeps.cut1 (s := s) (x := x) (fun hx => ?_) ?_; clear_value x; revert x; intro y hy; rotate_left; unfold x; clear x)
        | (refine Keeps.cut2 (s := s) (x := x) (fun hx => ?_) ?_; clear_value x; revert x; intro y hy; rotate_left; unfold x; clear x)
        | (revert x; intro y))
    | simp only [Keeps.rest_iff, Keeps.clk_iff]
    | with_reducible apply Keeps.foldl
    | with_reducible apply Keeps.foldl_fst
    | (refine Keeps.of_fst ‹_ = _› ?_)
    | (refine Keeps.of_snd ‹_ = _› ?_)
    | split
    | (intro)

theorem fetch_keeps {s t : State} {n : Nat} {data : List Byte} {param : List Byte} (h : Keeps s t) : Keeps s (fetch t n data param) := by
  unfold fetch
  try dsimp -zeta only
  repeat' first
    | with_reducible assumption
    | with_reducible exact Keeps.refl _
    | with_reducible rfl
    | with_reducible apply State.extRead_keeps
    | with_reducible apply State.poisonCheck_keeps
    | with_reducible apply State.count_keeps
    | with_reducible apply State.reserve_keeps
    | with_reducible apply State.setSq_keeps
    | with_reducible apply State.complete_keeps
    | with_reducible apply State.putBit_keeps
    | (extract_lets +onlyGivenNames x; first
        | (refine Keeps.cut (s := s) (x := x) (fun hx => ?_) ?_; clear_value x; revert x; intro y hy; rotate_left; unfold x; clear x)
        | (refine Keeps.cut1 (s := s) (x := x) (fun hx => ?_) ?_; clear_value x; revert x; intro y hy; rotate_left; unfold x; clear x)
        | (refine Keeps.cut2 (s := s) (x := x) (fun hx => ?_) ?_; clear_value x; revert x; intro y hy; rotate_left; unfold x; clear x)
        | (revert x; intro y))
    | simp only [Keeps.rest_iff, Keeps.clk_iff]
    | with_reducible apply Keeps.foldl
    | with_reducible apply Keeps.foldl_fst
    | (refine Keeps.of_fst ‹_ = _› ?_)
    | (refine Keeps.of_snd ‹_ = _› ?_)
    | split
    | (intro)

theorem execDescriptorFetch_keeps {s u : State} {n : Nat} {data : List Byte} {param : List Byte} {ecc : EccFinds} (e : execDescriptorFetch n data param ecc s = .next u) : Keeps s u := by
  unfold execDescriptorFetch at e
  injection e with e
  subst e
  try dsimp -zeta only
  repeat' first
    | with_reducible assumption
    | with_reducible exact Keeps.refl _
    | with_reducible rfl
    | with_reducible apply State.eccAll_keeps
    | with_reducible apply fetch_keeps
    | (extract_lets +onlyGivenNames x; first
        | (refine Keeps.cut (s := s) (x := x) (fun hx => ?_) ?_; clear_value x; revert x; intro y hy; rotate_left; unfold x; clear x)
        | (refine Keeps.cut1 (s := s) (x := x) (fun hx => ?_) ?_; clear_value x; revert x; intro y hy; rotate_left; unfold x; clear x)
        | (refine Keeps.cut2 (s := s) (x := x) (fun hx => ?_) ?_; clear_value x; revert x; intro y hy; rotate_left; unfold x; clear x)
        | (revert x; intro y))
    | simp only [Keeps.rest_iff, Keeps.clk_iff]
    | with_reducible apply Keeps.foldl
    | with_reducible apply Keeps.foldl_fst
    | (refine Keeps.of_fst ‹_ = _› ?_)
    | (refine Keeps.of_snd ‹_ = _› ?_)
    | split
    | (intro)

theorem State.declareHang_keeps {s t : State} {ring : Nat} {die : Nat} {len : Nat} {fn : Nat} {port : Nat} {seq : Nat} {layer : Nat} {op : Nat} (h : Keeps s t) : Keeps s (State.declareHang t ring die len fn port seq layer op) := by
  unfold State.declareHang
  repeat' first
    | with_reducible assumption
    | with_reducible apply State.bump_keeps
    | with_reducible apply State.setReg_keeps
    | split

theorem dropDisowned_keeps {s t : State} {d : Started} (h : Keeps s t) : Keeps s (dropDisowned t d) := by
  unfold dropDisowned
  try dsimp -zeta only
  repeat' first
    | with_reducible assumption
    | with_reducible exact Keeps.refl _
    | with_reducible rfl
    | with_reducible apply State.lower_keeps
    | with_reducible apply State.report_keeps
    | (extract_lets +onlyGivenNames x; first
        | (refine Keeps.cut (s := s) (x := x) (fun hx => ?_) ?_; clear_value x; revert x; intro y hy; rotate_left; unfold x; clear x)
        | (refine Keeps.cut1 (s := s) (x := x) (fun hx => ?_) ?_; clear_value x; revert x; intro y hy; rotate_left; unfold x; clear x)
        | (refine Keeps.cut2 (s := s) (x := x) (fun hx => ?_) ?_; clear_value x; revert x; intro y hy; rotate_left; unfold x; clear x)
        | (revert x; intro y))
    | simp only [Keeps.rest_iff, Keeps.clk_iff]
    | with_reducible apply Keeps.foldl
    | with_reducible apply Keeps.foldl_fst
    | (refine Keeps.of_fst ‹_ = _› ?_)
    | (refine Keeps.of_snd ‹_ = _› ?_)
    | split
    | (intro)

theorem State.dropStarted_keeps {s t : State} {d : Started} (h : Keeps s t) : Keeps s (State.dropStarted t d) := by
  unfold State.dropStarted
  try dsimp -zeta only
  repeat' first
    | with_reducible assumption
    | with_reducible exact Keeps.refl _
    | with_reducible rfl
    | (extract_lets +onlyGivenNames x; first
        | (refine Keeps.cut (s := s) (x := x) (fun hx => ?_) ?_; clear_value x; revert x; intro y hy; rotate_left; unfold x; clear x)
        | (refine Keeps.cut1 (s := s) (x := x) (fun hx => ?_) ?_; clear_value x; revert x; intro y hy; rotate_left; unfold x; clear x)
        | (refine Keeps.cut2 (s := s) (x := x) (fun hx => ?_) ?_; clear_value x; revert x; intro y hy; rotate_left; unfold x; clear x)
        | (revert x; intro y))
    | simp only [Keeps.rest_iff, Keeps.clk_iff]
    | with_reducible apply Keeps.foldl
    | with_reducible apply Keeps.foldl_fst
    | (refine Keeps.of_fst ‹_ = _› ?_)
    | (refine Keeps.of_snd ‹_ = _› ?_)
    | split
    | (intro)

theorem State.addUnconf_keeps {s t : State} {x1 : Unconf} (h : Keeps s t) : Keeps s (State.addUnconf t x1) := by
  unfold State.addUnconf
  try dsimp -zeta only
  repeat' first
    | with_reducible assumption
    | with_reducible exact Keeps.refl _
    | with_reducible rfl
    | (extract_lets +onlyGivenNames x; first
        | (refine Keeps.cut (s := s) (x := x) (fun hx => ?_) ?_; clear_value x; revert x; intro y hy; rotate_left; unfold x; clear x)
        | (refine Keeps.cut1 (s := s) (x := x) (fun hx => ?_) ?_; clear_value x; revert x; intro y hy; rotate_left; unfold x; clear x)
        | (refine Keeps.cut2 (s := s) (x := x) (fun hx => ?_) ?_; clear_value x; revert x; intro y hy; rotate_left; unfold x; clear x)
        | (revert x; intro y))
    | simp only [Keeps.rest_iff, Keeps.clk_iff]
    | with_reducible apply Keeps.foldl
    | with_reducible apply Keeps.foldl_fst
    | (refine Keeps.of_fst ‹_ = _› ?_)
    | (refine Keeps.of_snd ‹_ = _› ?_)
    | split
    | (intro)

theorem completeStarted_keeps {s t : State} {d : Started} {out : Done} {end_ : State → State} (h : Keeps s t) (hend_ : ∀ z, Keeps s z → Keeps s (end_ z)) : Keeps s (completeStarted t d out end_) := by
  unfold completeStarted
  try dsimp -zeta only
  repeat' first
    | with_reducible assumption
    | with_reducible exact Keeps.refl _
    | with_reducible rfl
    | apply hend_
    | with_reducible apply dropDisowned_keeps
    | with_reducible apply State.complete_keeps
    | with_reducible apply State.dropStarted_keeps
    | with_reducible apply State.addUnconf_keeps
    | (extract_lets +onlyGivenNames x; first
        | (refine Keeps.cut (s := s) (x := x) (fun hx => ?_) ?_; clear_value x; revert x; intro y hy; rotate_left; unfold x; clear x)
        | (refine Keeps.cut1 (s := s) (x := x) (fun hx => ?_) ?_; clear_value x; revert x; intro y hy; rotate_left; unfold x; clear x)
        | (refine Keeps.cut2 (s := s) (x := x) (fun hx => ?_) ?_; clear_value x; revert x; intro y hy; rotate_left; unfold x; clear x)
        | (revert x; intro y))
    | simp only [Keeps.rest_iff, Keeps.clk_iff]
    | with_reducible apply Keeps.foldl
    | with_reducible apply Keeps.foldl_fst
    | (refine Keeps.of_fst ‹_ = _› ?_)
    | (refine Keeps.of_snd ‹_ = _› ?_)
    | split
    | (intro)

theorem execDescriptorComplete_keeps {s u : State} {n : Nat} {seq : Nat} (e : execDescriptorComplete n seq s = .next u) : Keeps s u := by
  unfold execDescriptorComplete at e
  injection e with e
  subst e
  try dsimp -zeta only
  repeat' first
    | with_reducible assumption
    | with_reducible exact Keeps.refl _
    | with_reducible rfl
    | with_reducible apply completeStarted_keeps
    | with_reducible apply traceEnd_keeps
    | (extract_lets +onlyGivenNames x; first
        | (refine Keeps.cut (s := s) (x := x) (fun hx => ?_) ?_; clear_value x; revert x; intro y hy; rotate_left; unfold x; clear x)
        | (refine Keeps.cut1 (s := s) (x := x) (fun hx => ?_) ?_; clear_value x; revert x; intro y hy; rotate_left; unfold x; clear x)
        | (refine Keeps.cut2 (s := s) (x := x) (fun hx => ?_) ?_; clear_value x; revert x; intro y hy; rotate_left; unfold x; clear x)
        | (revert x; intro y))
    | simp only [Keeps.rest_iff, Keeps.clk_iff]
    | with_reducible apply Keeps.foldl
    | with_reducible apply Keeps.foldl_fst
    | (refine Keeps.of_fst ‹_ = _› ?_)
    | (refine Keeps.of_snd ‹_ = _› ?_)
    | split
    | (intro)

theorem execMsixUnmask_keeps {s u : State} {vector : Option Nat} (e : execMsixUnmask vector s = .next u) : Keeps s u := by
  unfold execMsixUnmask at e
  injection e with e
  subst e
  repeat' first
    | with_reducible exact Keeps.refl _
    | with_reducible apply State.emit_keeps
    | simp only [Keeps.rest_iff, Keeps.clk_iff]
    | with_reducible apply Keeps.foldl
    | (intro)

theorem cqHeadWrite_keeps {s t : State} {m : Nat} {value : Nat} (h : Keeps s t) : Keeps s (cqHeadWrite t m value) := by
  unfold cqHeadWrite
  repeat' first
    | with_reducible assumption
    | with_reducible apply State.fput_keeps
    | with_reducible apply State.rejected_keeps
    | (extract_lets +onlyGivenNames x; first
        | (revert x; intro y))
    | split

theorem execCqHeadWrite_keeps {s u : State} {m : Nat} {value : Nat} (e : execCqHeadWrite m value s = .next u) : Keeps s u := by
  unfold execCqHeadWrite at e
  injection e with e
  subst e
  repeat' first
    | with_reducible exact Keeps.refl _
    | with_reducible apply cqHeadWrite_keeps
    | split

end Sys2Proof.Machine
end

