-- ==== Sys2Proof/Laws/KeepsDrain.lean ====
section
/-!
SUPPORT. What the operations of Machine/Drain.lean keep (Safety.lean).
-/
namespace Sys2Proof.Machine

open Sys2Proof

theorem State.dropPrefetch_keeps {s t : State}  (h : Keeps s t) : Keeps s (State.dropPrefetch t) := by
  unfold State.dropPrefetch
  repeat' first
    | with_reducible assumption
    | with_reducible rfl
    | simp only [Keeps.rest_iff, Keeps.clk_iff]

theorem State.forgetPrefetch_keeps {s t : State} {n : Nat} {seq : Nat} (h : Keeps s t) : Keeps s (State.forgetPrefetch t n seq) := by
  unfold State.forgetPrefetch
  repeat' first
    | with_reducible assumption
    | with_reducible apply State.dropPrefetch_keeps
    | split

theorem State.cancelRing_keeps {s t : State} {f : Nat} {n : Nat} (h : Keeps s t) : Keeps s (State.cancelRing t f n) := by
  unfold State.cancelRing
  try dsimp -zeta only
  repeat' first
    | with_reducible assumption
    | with_reducible exact Keeps.refl _
    | with_reducible rfl
    | with_reducible apply State.setSq_keeps
    | with_reducible apply State.completeFetched_keeps
    | with_reducible apply State.forgetPrefetch_keeps
    | (extract_lets +onlyGivenNames x; first
        | (refine Keeps.cut (s := s) (x := x) (fun hx => ?_) ?_; clear_value x; revert x; intro y hy; rotate_left; unfold x; clear x)
        | (refine Keeps.cut1 (s := s) (x := x) (fun hx => ?_) ?_; clear_value x; revert x; intro y hy; rotate_left; unfold x; clear x)
        | (refine Keeps.cut2 (s := s) (x := x) (fun hx => ?_) ?_; clear_value x; revert x; intro y hy; rotate_left; unfold x; clear x)
        | (revert x; intro y))
    | simp only [Keeps.rest_iff, Keeps.clk_iff]
    | with_reducible apply Keeps.foldl
    | with_reducible apply Keeps.foldl_fst
    | (refine Keeps.of_fst ‹_ = _› ?_)
    | (refine Keeps.of_snd ‹_ = _› ?_)
    | split
    | (intro)

theorem State.dropStale_keeps {s t : State} {f : Nat} (h : Keeps s t) : Keeps s (State.dropStale t f) := by
  unfold State.dropStale
  repeat' first
    | with_reducible assumption
    | with_reducible apply State.report_keeps
    | simp only [Keeps.rest_iff, Keeps.clk_iff]

theorem State.enterDrain_keeps {s t : State} {f : Nat} (h : Keeps s t) : Keeps s (State.enterDrain t f) := by
  unfold State.enterDrain
  repeat' first
    | with_reducible assumption
    | with_reducible apply State.setFn_keeps
    | with_reducible apply State.dropPrefetch_keeps
    | with_reducible apply State.cancelRing_keeps
    | with_reducible apply State.stopCut_keeps
    | simp only [Keeps.rest_iff, Keeps.clk_iff]
    | with_reducible apply Keeps.foldl
    | split
    | (intro)

end Sys2Proof.Machine
end

