-- ==== Sys2Proof/Laws/KeepsLedger.lean ====
section
/-!
SUPPORT. What the operations of Machine/Ledger.lean keep (Safety.lean).
-/
namespace Sys2Proof.Machine

open Sys2Proof

theorem scrubRead_keeps {s t : State} {st : Nat} {ecc : Ecc} (h : Keeps s t) : Keeps s (scrubRead t st ecc) := by
  unfold scrubRead
  repeat' first
    | with_reducible assumption
    | with_reducible apply State.eccRead_keeps
    | with_reducible apply State.ueReport_keeps
    | with_reducible apply State.withdrawPage_keeps
    | with_reducible apply State.tagMismatch_keeps
    | simp only [Keeps.rest_iff, Keeps.clk_iff]
    | split

theorem execScrubRead_keeps {s u : State} {st : Nat} {ecc : Ecc} (e : execScrubRead st ecc s = .next u) : Keeps s u := by
  unfold execScrubRead at e
  injection e with e
  subst e
  repeat' first
    | with_reducible exact Keeps.refl _
    | with_reducible apply scrubRead_keeps
    | split

theorem State.swapBanks_keeps {s t : State} {r : Nat} (h : Keeps s t) : Keeps s (State.swapBanks t r) := by
  unfold State.swapBanks
  repeat' first
    | with_reducible assumption
    | exact fun hm => memCanon_dirty hm (tblWf_put _)
    | with_reducible apply State.fput_keeps
    | with_reducible apply State.countInactive_keeps
    | with_reducible apply State.setDone_keeps
    | (extract_lets +onlyGivenNames x; first
        | (refine Keeps.cut (s := s) (x := x) (fun hx => ?_) ?_; clear_value x; revert x; intro y hy; rotate_left; unfold x; clear x)
        | (revert x; intro y))
    | with_reducible apply Keeps.foldl
    | split
    | (intro)
    | with_reducible apply Keeps.mem

theorem execCutTokenArrival_keeps {s u : State} {r : Nat} (e : execCutTokenArrival r s = .next u) : Keeps s u := by
  unfold execCutTokenArrival at e
  injection e with e
  subst e
  repeat' first
    | with_reducible exact Keeps.refl _
    | with_reducible rfl
    | with_reducible apply State.swapBanks_keeps
    | with_reducible apply State.bump_keeps
    | simp only [Keeps.rest_iff, Keeps.clk_iff]
    | split

theorem execCutTokenRelease_keeps {s u : State} {r : Nat} (e : execCutTokenRelease r s = .next u) : Keeps s u := by
  unfold execCutTokenRelease at e
  injection e with e
  subst e
  repeat' first
    | with_reducible assumption
    | with_reducible exact Keeps.refl _
    | with_reducible rfl
    | with_reducible apply State.swapBanks_keeps
    | simp only [Keeps.rest_iff, Keeps.clk_iff]
    | split

theorem State.updGather_keeps {s t : State} {n : Nat} {seq : Nat} {f : GatherRun → GatherRun} (h : Keeps s t) : Keeps s (State.updGather t n seq f) := by
  unfold State.updGather
  repeat' first
    | with_reducible assumption
    | with_reducible rfl
    | simp only [Keeps.rest_iff, Keeps.clk_iff]

theorem State.endGather_keeps {s t : State} {n : Nat} {seq : Nat} {d : Done} (h : Keeps s t) : Keeps s (State.endGather t n seq d) := by
  unfold State.endGather
  repeat' first
    | with_reducible assumption
    | with_reducible apply State.setDone_keeps
    | simp only [Keeps.rest_iff, Keeps.clk_iff]

theorem State.addGather_keeps {s t : State} {g : GatherRun} (h : Keeps s t) : Keeps s (State.addGather t g) := by
  unfold State.addGather
  try dsimp -zeta only
  repeat' first
    | with_reducible assumption
    | with_reducible exact Keeps.refl _
    | with_reducible rfl
    | (extract_lets +onlyGivenNames x; first
        | (refine Keeps.cut (s := s) (x := x) (fun hx => ?_) ?_; clear_value x; revert x; intro y hy; rotate_left; unfold x; clear x)
        | (refine Keeps.cut1 (s := s) (x := x) (fun hx => ?_) ?_; clear_value x; revert x; intro y hy; rotate_left; unfold x; clear x)
        | (refine Keeps.cut2 (s := s) (x := x) (fun hx => ?_) ?_; clear_value x; revert x; intro y hy; rotate_left; unfold x; clear x)
        | (revert x; intro y))
    | simp only [Keeps.rest_iff, Keeps.clk_iff]
    | with_reducible apply Keeps.foldl
    | with_reducible apply Keeps.foldl_fst
    | (refine Keeps.of_fst ‹_ = _› ?_)
    | (refine Keeps.of_snd ‹_ = _› ?_)
    | split
    | (intro)

theorem State.sendRow_keeps {s t : State} {g : GatherRun} {b : List Byte} {q : GPos} (h : Keeps s t) : Keeps s (State.sendRow t g b q).1 := by
  unfold State.sendRow
  try dsimp -zeta only
  repeat' first
    | with_reducible assumption
    | with_reducible exact Keeps.refl _
    | with_reducible rfl
    | with_reducible apply State.newTag_keeps
    | with_reducible apply State.send_keeps
    | (extract_lets +onlyGivenNames x; first
        | (refine Keeps.cut (s := s) (x := x) (fun hx => ?_) ?_; clear_value x; revert x; intro y hy; rotate_left; unfold x; clear x)
        | (refine Keeps.cut1 (s := s) (x := x) (fun hx => ?_) ?_; clear_value x; revert x; intro y hy; rotate_left; unfold x; clear x)
        | (refine Keeps.cut2 (s := s) (x := x) (fun hx => ?_) ?_; clear_value x; revert x; intro y hy; rotate_left; unfold x; clear x)
        | (revert x; intro y))
    | simp only [Keeps.rest_iff, Keeps.clk_iff]
    | with_reducible apply Keeps.foldl
    | with_reducible apply Keeps.foldl_fst
    | (refine Keeps.of_fst ‹_ = _› ?_)
    | (refine Keeps.of_snd ‹_ = _› ?_)
    | split
    | (intro)

theorem State.issueRow_keeps {s t : State} {g : GatherRun} {b : List Byte} {p : GPos} (h : Keeps s t) : Keeps s (State.issueRow t g b p).1 := by
  unfold State.issueRow
  extract_lets e c
  have k := State.awareCheck_keeps (c := c) (addr := e.mapAddr p.idx) (n := 4) (fmt := none) (bid := none) h
  generalize t.awareCheck c (e.mapAddr p.idx) 4 none none = x at *
  obtain ⟨s1, _ | cls⟩ := x
  · dsimp only
    split
    · exact h
    · split
      · exact k
      · split
        · exact State.sendRow_keeps (State.evCount_keeps k)
        · exact State.unmapped_keeps k
  · dsimp only
    split
    · exact h
    · exact k

theorem issueList_keeps {s t : State} {f : State → GPos → State × GPos × Option Nat} {n : Nat} {l : List GPos} (h : Keeps s t)
    (hf : ∀ x p, Keeps s x → ∀ y o, f x p = (y, o) → Keeps s y) : Keeps s (issueList f t n l).1 := by
  induction l generalizing t n with
  | nil => exact h
  | cons p l ih =>
    rw [issueList]
    split
    · rcases hx : f t p with ⟨s1, q, _ | cls⟩
      · exact ih (hf t p h _ _ hx)
      · exact hf t p h _ _ hx
    · exact ih h

theorem State.issueBag_keeps {s t : State} {g : GatherRun} {b : List Byte} {n : Nat} {l : List GPos} (h : Keeps s t) :
    Keeps s (State.issueBag t g b n l).1 :=
  issueList_keeps h (fun x p hx _ _ e => by
    have k := State.issueRow_keeps (g := g) (b := b) (p := p) hx
    rw [e] at k
    exact k)

theorem State.issueBags_keeps {s t : State} {g : GatherRun} {b : List Byte} {n : Nat} {l : List (List GPos)} (h : Keeps s t) :
    Keeps s (State.issueBags t g b n l).1 := by
  induction l generalizing t n with
  | nil => exact h
  | cons p l ih =>
    rw [State.issueBags]
    have k := State.issueBag_keeps (g := g) (b := b) (n := n) (l := p) h
    generalize t.issueBag g b n p = x at *
    obtain ⟨s1, y, r, _ | cls⟩ := x
    · exact ih k
    · exact k

theorem State.issueGather_keeps {s t : State} {g : GatherRun} {b : List Byte} (h : Keeps s t) : Keeps s (State.issueGather t g b) := by
  unfold State.issueGather
  try dsimp -zeta only
  repeat' first
    | with_reducible assumption
    | with_reducible exact Keeps.refl _
    | with_reducible rfl
    | with_reducible apply State.issueBags_keeps
    | with_reducible apply State.endGather_keeps
    | with_reducible apply State.updGather_keeps
    | (extract_lets +onlyGivenNames x; first
        | (refine Keeps.cut (s := s) (x := x) (fun hx => ?_) ?_; clear_value x; revert x; intro y hy; rotate_left; unfold x; clear x)
        | (refine Keeps.cut1 (s := s) (x := x) (fun hx => ?_) ?_; clear_value x; revert x; intro y hy; rotate_left; unfold x; clear x)
        | (refine Keeps.cut2 (s := s) (x := x) (fun hx => ?_) ?_; clear_value x; revert x; intro y hy; rotate_left; unfold x; clear x)
        | (revert x; intro y))
    | simp only [Keeps.rest_iff, Keeps.clk_iff]
    | with_reducible apply Keeps.foldl
    | with_reducible apply Keeps.foldl_fst
    | (refine Keeps.of_fst ‹_ = _› ?_)
    | (refine Keeps.of_snd ‹_ = _› ?_)
    | split
    | (intro)

theorem State.issueAll_keeps {s t : State} {r : Nat} (h : Keeps s t) : Keeps s (State.issueAll t r) := by
  unfold State.issueAll
  try dsimp -zeta only
  repeat' first
    | with_reducible assumption
    | with_reducible exact Keeps.refl _
    | with_reducible rfl
    | with_reducible apply State.issueGather_keeps
    | (extract_lets +onlyGivenNames x; first
        | (refine Keeps.cut (s := s) (x := x) (fun hx => ?_) ?_; clear_value x; revert x; intro y hy; rotate_left; unfold x; clear x)
        | (refine Keeps.cut1 (s := s) (x := x) (fun hx => ?_) ?_; clear_value x; revert x; intro y hy; rotate_left; unfold x; clear x)
        | (refine Keeps.cut2 (s := s) (x := x) (fun hx => ?_) ?_; clear_value x; revert x; intro y hy; rotate_left; unfold x; clear x)
        | (revert x; intro y))
    | simp only [Keeps.rest_iff, Keeps.clk_iff]
    | with_reducible apply Keeps.foldl
    | with_reducible apply Keeps.foldl_fst
    | (refine Keeps.of_fst ‹_ = _› ?_)
    | (refine Keeps.of_snd ‹_ = _› ?_)
    | split
    | (intro)

theorem State.writeRow_keeps {s t : State} {g : GatherRun} {b : List Byte} {addr : Nat} {d : List Byte} (h : Keeps s t) : Keeps s (State.writeRow t g b addr d).1 := by
  unfold State.writeRow
  repeat' first
    | with_reducible assumption
    | with_reducible apply State.send_keeps
    | with_reducible apply State.awareWrites_keeps
    | split

theorem State.sealRows_keeps {s t : State} {b : List Byte} (h : Keeps s t) : Keeps s (State.sealRows t b) := by
  unfold State.sealRows
  repeat' first
    | with_reducible assumption
    | with_reducible apply State.sealPage_keeps
    | (extract_lets +onlyGivenNames x; first
        | (revert x; intro y))
    | with_reducible apply Keeps.foldl
    | split
    | (intro)

theorem State.advanceGather_keeps {s t : State} {n : Nat} {seq : Nat} (h : Keeps s t) : Keeps s (State.advanceGather t n seq) := by
  unfold State.advanceGather
  repeat' first
    | with_reducible assumption
    | with_reducible apply Keeps.foldChecks
    | with_reducible apply State.writeRow_keeps
    | with_reducible apply State.endGather_keeps
    | with_reducible apply State.updGather_keeps
    | with_reducible apply State.sealRows_keeps
    | (extract_lets +onlyGivenNames x; first
        | (revert x; intro y))
    | split
    | (intro)

theorem State.openGather_keeps {s t : State} {d : Started} {p : GatherP} {eb : List Byte} {os : List Nat} {idxs : List Nat} {wts : List Nat} (h : Keeps s t) : Keeps s (State.openGather t d p eb os idxs wts) := by
  unfold State.openGather
  try dsimp -zeta only
  repeat' first
    | with_reducible assumption
    | with_reducible exact Keeps.refl _
    | with_reducible rfl
    | with_reducible apply State.unmapped_keeps
    | with_reducible apply State.newTag_keeps
    | with_reducible apply State.updStarted_keeps
    | with_reducible apply State.addGather_keeps
    | with_reducible apply State.endGather_keeps
    | with_reducible apply State.issueGather_keeps
    | with_reducible apply State.send_keeps
    | (extract_lets +onlyGivenNames x; first
        | (refine Keeps.cut (s := s) (x := x) (fun hx => ?_) ?_; clear_value x; revert x; intro y hy; rotate_left; unfold x; clear x)
        | (refine Keeps.cut1 (s := s) (x := x) (fun hx => ?_) ?_; clear_value x; revert x; intro y hy; rotate_left; unfold x; clear x)
        | (refine Keeps.cut2 (s := s) (x := x) (fun hx => ?_) ?_; clear_value x; revert x; intro y hy; rotate_left; unfold x; clear x)
        | (revert x; intro y))
    | simp only [Keeps.rest_iff, Keeps.clk_iff]
    | with_reducible apply Keeps.foldl
    | with_reducible apply Keeps.foldl_fst
    | (refine Keeps.of_fst ‹_ = _› ?_)
    | (refine Keeps.of_snd ‹_ = _› ?_)
    | split
    | (intro)

theorem State.readLists_keeps {s t : State} {t2 : State} {d : Started} {p : GatherP} {eb : List Byte} {ofs : List Byte} {idx : List Byte} {wts : List Byte} (h : Keeps s t) (h2 : Keeps s t2) : Keeps s (State.readLists t t2 d p eb ofs idx wts) := by
  unfold State.readLists
  try dsimp -zeta only
  repeat' first
    | with_reducible assumption
    | with_reducible exact Keeps.refl _
    | with_reducible rfl
    | with_reducible apply State.extRead_keeps
    | with_reducible apply State.setDone_keeps
    | with_reducible apply State.awareChecks_keeps
    | with_reducible apply State.openGather_keeps
    | (extract_lets +onlyGivenNames x; first
        | (refine Keeps.cut (s := s) (x := x) (fun hx => ?_) ?_; clear_value x; revert x; intro y hy; rotate_left; unfold x; clear x)
        | (refine Keeps.cut1 (s := s) (x := x) (fun hx => ?_) ?_; clear_value x; revert x; intro y hy; rotate_left; unfold x; clear x)
        | (refine Keeps.cut2 (s := s) (x := x) (fun hx => ?_) ?_; clear_value x; revert x; intro y hy; rotate_left; unfold x; clear x)
        | (revert x; intro y))
    | simp only [Keeps.rest_iff, Keeps.clk_iff]
    | with_reducible apply Keeps.foldl
    | with_reducible apply Keeps.foldl_fst
    | (refine Keeps.of_fst ‹_ = _› ?_)
    | (refine Keeps.of_snd ‹_ = _› ?_)
    | split
    | (intro)

theorem beginGather_keeps {s t : State} {d : Started} {ofs : List Byte} {idx : List Byte} {wts : List Byte} (h : Keeps s t) : Keeps s (beginGather t d ofs idx wts) := by
  unfold beginGather
  try dsimp -zeta only
  repeat' first
    | with_reducible assumption
    | with_reducible exact Keeps.refl _
    | with_reducible rfl
    | with_reducible apply State.awareChecks_keeps
    | with_reducible apply State.setDone_keeps
    | with_reducible apply State.readLists_keeps
    | (extract_lets +onlyGivenNames x; first
        | (refine Keeps.cut (s := s) (x := x) (fun hx => ?_) ?_; clear_value x; revert x; intro y hy; rotate_left; unfold x; clear x)
        | (refine Keeps.cut1 (s := s) (x := x) (fun hx => ?_) ?_; clear_value x; revert x; intro y hy; rotate_left; unfold x; clear x)
        | (refine Keeps.cut2 (s := s) (x := x) (fun hx => ?_) ?_; clear_value x; revert x; intro y hy; rotate_left; unfold x; clear x)
        | (revert x; intro y))
    | simp only [Keeps.rest_iff, Keeps.clk_iff]
    | with_reducible apply Keeps.foldl
    | with_reducible apply Keeps.foldl_fst
    | (refine Keeps.of_fst ‹_ = _› ?_)
    | (refine Keeps.of_snd ‹_ = _› ?_)
    | split
    | (intro)

theorem execGather_keeps {s u : State} {n : Nat} {seq : Nat} {ofs : List Byte} {idx : List Byte} {wts : List Byte} {ecc : EccFinds} (e : execGather n seq ofs idx wts ecc s = .next u) : Keeps s u := by
  unfold execGather at e
  injection e with e
  subst e
  try dsimp -zeta only
  repeat' first
    | with_reducible assumption
    | with_reducible exact Keeps.refl _
    | with_reducible rfl
    | with_reducible apply State.eccAll_keeps
    | with_reducible apply State.issueGather_keeps
    | with_reducible apply beginGather_keeps
    | (extract_lets +onlyGivenNames x; first
        | (refine Keeps.cut (s := s) (x := x) (fun hx => ?_) ?_; clear_value x; revert x; intro y hy; rotate_left; unfold x; clear x)
        | (refine Keeps.cut1 (s := s) (x := x) (fun hx => ?_) ?_; clear_value x; revert x; intro y hy; rotate_left; unfold x; clear x)
        | (refine Keeps.cut2 (s := s) (x := x) (fun hx => ?_) ?_; clear_value x; revert x; intro y hy; rotate_left; unfold x; clear x)
        | (revert x; intro y))
    | simp only [Keeps.rest_iff, Keeps.clk_iff]
    | with_reducible apply Keeps.foldl
    | with_reducible apply Keeps.foldl_fst
    | (refine Keeps.of_fst ‹_ = _› ?_)
    | (refine Keeps.of_snd ‹_ = _› ?_)
    | split
    | (intro)

theorem State.take_keeps {s t u : State} {k : Packet} (h : Keeps s t) (e : State.take t k = some u) : Keeps s u := by
  unfold State.take at e
  split at e <;> first | contradiction | (injection e with e; subst e)
  repeat' first
    | with_reducible assumption
    | with_reducible rfl
    | simp only [Keeps.rest_iff, Keeps.clk_iff]

theorem State.answer_keeps {s t : State} {r : Nat} {k : Packet} {kind : Nat} {err : Nat} {body : List Byte} (h : Keeps s t) : Keeps s (State.answer t r k kind err body) := by
  unfold State.answer
  repeat' first
    | with_reducible assumption
    | with_reducible apply State.send_keeps

theorem State.noteOpen_keeps {s t : State} {k : Packet} (h : Keeps s t) : Keeps s (State.noteOpen t k) := by
  unfold State.noteOpen
  try dsimp -zeta only
  repeat' first
    | with_reducible assumption
    | with_reducible exact Keeps.refl _
    | with_reducible rfl
    | (extract_lets +onlyGivenNames x; first
        | (refine Keeps.cut (s := s) (x := x) (fun hx => ?_) ?_; clear_value x; revert x; intro y hy; rotate_left; unfold x; clear x)
        | (refine Keeps.cut1 (s := s) (x := x) (fun hx => ?_) ?_; clear_value x; revert x; intro y hy; rotate_left; unfold x; clear x)
        | (refine Keeps.cut2 (s := s) (x := x) (fun hx => ?_) ?_; clear_value x; revert x; intro y hy; rotate_left; unfold x; clear x)
        | (revert x; intro y))
    | simp only [Keeps.rest_iff, Keeps.clk_iff]
    | with_reducible apply Keeps.foldl
    | with_reducible apply Keeps.foldl_fst
    | (refine Keeps.of_fst ‹_ = _› ?_)
    | (refine Keeps.of_snd ‹_ = _› ?_)
    | split
    | (intro)

theorem execGatherOpen_keeps {s u : State} {pkt : Packet} (e : execGatherOpen pkt s = .next u) : Keeps s u := by
  unfold execGatherOpen at e
  injection e with e
  subst e
  try dsimp -zeta only
  repeat' first
    | with_reducible assumption
    | with_reducible exact Keeps.refl _
    | with_reducible rfl
    | refine State.take_keeps ?_ ‹_›
    | refine State.take_keeps ?_ (ite_some ‹_›)
    | with_reducible apply State.answer_keeps
    | with_reducible apply State.noteOpen_keeps
    | with_reducible apply State.dropStale_keeps
    | with_reducible apply State.issueAll_keeps
    | with_reducible apply State.advanceGather_keeps
    | with_reducible apply State.updGather_keeps
    | with_reducible apply State.endGather_keeps
    | (extract_lets +onlyGivenNames x; first
        | (refine Keeps.cut (s := s) (x := x) (fun hx => ?_) ?_; clear_value x; revert x; intro y hy; rotate_left; unfold x; clear x)
        | (refine Keeps.cut1 (s := s) (x := x) (fun hx => ?_) ?_; clear_value x; revert x; intro y hy; rotate_left; unfold x; clear x)
        | (refine Keeps.cut2 (s := s) (x := x) (fun hx => ?_) ?_; clear_value x; revert x; intro y hy; rotate_left; unfold x; clear x)
        | (revert x; intro y))
    | simp only [Keeps.rest_iff, Keeps.clk_iff]
    | with_reducible apply Keeps.foldl
    | with_reducible apply Keeps.foldl_fst
    | (refine Keeps.of_fst ‹_ = _› ?_)
    | (refine Keeps.of_snd ‹_ = _› ?_)
    | split
    | (intro)

theorem State.readRow_keeps {s t : State} {c : Ctx} {x2 : TblEntry} {addr : Nat} (h : Keeps s t) : Keeps s (State.readRow t c x2 addr).1 := by
  unfold State.readRow
  try dsimp -zeta only
  repeat' first
    | with_reducible assumption
    | with_reducible exact Keeps.refl _
    | with_reducible rfl
    | with_reducible apply State.unmapped_keeps
    | with_reducible apply State.tagReadPage_keeps
    | with_reducible apply State.poisonCheck_keeps
    | (extract_lets +onlyGivenNames x; first
        | (refine Keeps.cut (s := s) (x := x) (fun hx => ?_) ?_; clear_value x; revert x; intro y hy; rotate_left; unfold x; clear x)
        | (refine Keeps.cut1 (s := s) (x := x) (fun hx => ?_) ?_; clear_value x; revert x; intro y hy; rotate_left; unfold x; clear x)
        | (refine Keeps.cut2 (s := s) (x := x) (fun hx => ?_) ?_; clear_value x; revert x; intro y hy; rotate_left; unfold x; clear x)
        | (revert x; intro y))
    | simp only [Keeps.rest_iff, Keeps.clk_iff]
    | with_reducible apply Keeps.foldl
    | with_reducible apply Keeps.foldl_fst
    | (refine Keeps.of_fst ‹_ = _› ?_)
    | (refine Keeps.of_snd ‹_ = _› ?_)
    | split
    | (intro)

theorem State.refuseRow_keeps {s t : State} {r : Nat} {k : Packet} {ver : Nat} {cls : Nat} (h : Keeps s t) : Keeps s (State.refuseRow t r k ver cls) := by
  unfold State.refuseRow
  try dsimp -zeta only
  repeat' first
    | with_reducible assumption
    | with_reducible exact Keeps.refl _
    | with_reducible rfl
    | with_reducible apply State.answer_keeps
    | (extract_lets +onlyGivenNames x; first
        | (refine Keeps.cut (s := s) (x := x) (fun hx => ?_) ?_; clear_value x; revert x; intro y hy; rotate_left; unfold x; clear x)
        | (refine Keeps.cut1 (s := s) (x := x) (fun hx => ?_) ?_; clear_value x; revert x; intro y hy; rotate_left; unfold x; clear x)
        | (refine Keeps.cut2 (s := s) (x := x) (fun hx => ?_) ?_; clear_value x; revert x; intro y hy; rotate_left; unfold x; clear x)
        | (revert x; intro y))
    | simp only [Keeps.rest_iff, Keeps.clk_iff]
    | with_reducible apply Keeps.foldl
    | with_reducible apply Keeps.foldl_fst
    | (refine Keeps.of_fst ‹_ = _› ?_)
    | (refine Keeps.of_snd ‹_ = _› ?_)
    | split
    | (intro)

theorem State.giveRow_keeps {s t : State} {t2 : State} {r : Nat} {k : Packet} {c : Ctx} {x5 : TblEntry} (h : Keeps s t) (h2 : Keeps s t2) : Keeps s (State.giveRow t t2 r k c x5) := by
  unfold State.giveRow
  try dsimp -zeta only
  repeat' first
    | with_reducible assumption
    | with_reducible exact Keeps.refl _
    | with_reducible rfl
    | with_reducible apply State.refuseRow_keeps
    | with_reducible apply State.readRow_keeps
    | with_reducible apply State.answer_keeps
    | with_reducible apply State.evCount_keeps
    | (extract_lets +onlyGivenNames x; first
        | (refine Keeps.cut (s := s) (x := x) (fun hx => ?_) ?_; clear_value x; revert x; intro y hy; rotate_left; unfold x; clear x)
        | (refine Keeps.cut1 (s := s) (x := x) (fun hx => ?_) ?_; clear_value x; revert x; intro y hy; rotate_left; unfold x; clear x)
        | (refine Keeps.cut2 (s := s) (x := x) (fun hx => ?_) ?_; clear_value x; revert x; intro y hy; rotate_left; unfold x; clear x)
        | (revert x; intro y))
    | simp only [Keeps.rest_iff, Keeps.clk_iff]
    | with_reducible apply Keeps.foldl
    | with_reducible apply Keeps.foldl_fst
    | (refine Keeps.of_fst ‹_ = _› ?_)
    | (refine Keeps.of_snd ‹_ = _› ?_)
    | split
    | (intro)

theorem State.serveRow_keeps {s t : State} {t2 : State} {r : Nat} {k : Packet} (h : Keeps s t) (h2 : Keeps s t2) : Keeps s (State.serveRow t t2 r k) := by
  unfold State.serveRow
  try dsimp -zeta only
  repeat' first
    | with_reducible assumption
    | with_reducible exact Keeps.refl _
    | with_reducible rfl
    | with_reducible apply State.refuseRow_keeps
    | with_reducible apply State.awareCheck_keeps
    | with_reducible apply State.giveRow_keeps
    | (extract_lets +onlyGivenNames x; first
        | (refine Keeps.cut (s := s) (x := x) (fun hx => ?_) ?_; clear_value x; revert x; intro y hy; rotate_left; unfold x; clear x)
        | (refine Keeps.cut1 (s := s) (x := x) (fun hx => ?_) ?_; clear_value x; revert x; intro y hy; rotate_left; unfold x; clear x)
        | (refine Keeps.cut2 (s := s) (x := x) (fun hx => ?_) ?_; clear_value x; revert x; intro y hy; rotate_left; unfold x; clear x)
        | (revert x; intro y))
    | simp only [Keeps.rest_iff, Keeps.clk_iff]
    | with_reducible apply Keeps.foldl
    | with_reducible apply Keeps.foldl_fst
    | (refine Keeps.of_fst ‹_ = _› ?_)
    | (refine Keeps.of_snd ‹_ = _› ?_)
    | split
    | (intro)

theorem execRowRequest_keeps {s u : State} {r : Nat} {pkt : Packet} {ecc : EccFinds} (e : execRowRequest r pkt ecc s = .next u) : Keeps s u := by
  unfold execRowRequest at e
  injection e with e
  subst e
  try dsimp -zeta only
  repeat' first
    | with_reducible assumption
    | with_reducible exact Keeps.refl _
    | with_reducible rfl
    | with_reducible apply State.eccAll_keeps
    | refine State.take_keeps ?_ ‹_›
    | refine State.take_keeps ?_ (ite_some ‹_›)
    | with_reducible apply State.serveRow_keeps
    | (extract_lets +onlyGivenNames x; first
        | (refine Keeps.cut (s := s) (x := x) (fun hx => ?_) ?_; clear_value x; revert x; intro y hy; rotate_left; unfold x; clear x)
        | (refine Keeps.cut1 (s := s) (x := x) (fun hx => ?_) ?_; clear_value x; revert x; intro y hy; rotate_left; unfold x; clear x)
        | (refine Keeps.cut2 (s := s) (x := x) (fun hx => ?_) ?_; clear_value x; revert x; intro y hy; rotate_left; unfold x; clear x)
        | (revert x; intro y))
    | simp only [Keeps.rest_iff, Keeps.clk_iff]
    | with_reducible apply Keeps.foldl
    | with_reducible apply Keeps.foldl_fst
    | (refine Keeps.of_fst ‹_ = _› ?_)
    | (refine Keeps.of_snd ‹_ = _› ?_)
    | split
    | (intro)

theorem State.rowArrived_keeps {s t : State} {g : GatherRun} {p : GPos → Bool} {d : List Byte} (h : Keeps s t) : Keeps s (State.rowArrived t g p d) := by
  unfold State.rowArrived
  repeat' first
    | with_reducible assumption
    | with_reducible apply State.updGather_keeps

theorem State.rowArrivedAt_keeps {s t : State} {g : GatherRun} {pos : Nat} {d : List Byte} (h : Keeps s t) : Keeps s (State.rowArrivedAt t g pos d) := by
  unfold State.rowArrivedAt
  repeat' first
    | with_reducible assumption
    | with_reducible apply State.updGather_keeps

theorem State.afterRow_keeps {s t : State} {n : Nat} {seq : Nat} {region : Nat} (h : Keeps s t) : Keeps s (State.afterRow t n seq region) := by
  unfold State.afterRow
  try dsimp -zeta only
  repeat' first
    | with_reducible assumption
    | with_reducible exact Keeps.refl _
    | with_reducible rfl
    | with_reducible apply State.issueAll_keeps
    | with_reducible apply State.advanceGather_keeps
    | (extract_lets +onlyGivenNames x; first
        | (refine Keeps.cut (s := s) (x := x) (fun hx => ?_) ?_; clear_value x; revert x; intro y hy; rotate_left; unfold x; clear x)
        | (refine Keeps.cut1 (s := s) (x := x) (fun hx => ?_) ?_; clear_value x; revert x; intro y hy; rotate_left; unfold x; clear x)
        | (refine Keeps.cut2 (s := s) (x := x) (fun hx => ?_) ?_; clear_value x; revert x; intro y hy; rotate_left; unfold x; clear x)
        | (revert x; intro y))
    | simp only [Keeps.rest_iff, Keeps.clk_iff]
    | with_reducible apply Keeps.foldl
    | with_reducible apply Keeps.foldl_fst
    | (refine Keeps.of_fst ‹_ = _› ?_)
    | (refine Keeps.of_snd ‹_ = _› ?_)
    | split
    | (intro)

theorem State.dropRowReply_keeps {s t : State} {k : Packet} (h : Keeps s t) : Keeps s (State.dropRowReply t k) := by
  unfold State.dropRowReply
  try dsimp -zeta only
  repeat' first
    | with_reducible assumption
    | with_reducible exact Keeps.refl _
    | with_reducible rfl
    | refine State.take_keeps ?_ ‹_›
    | refine State.take_keeps ?_ (ite_some ‹_›)
    | with_reducible apply State.dropStale_keeps
    | (extract_lets +onlyGivenNames x; first
        | (refine Keeps.cut (s := s) (x := x) (fun hx => ?_) ?_; clear_value x; revert x; intro y hy; rotate_left; unfold x; clear x)
        | (refine Keeps.cut1 (s := s) (x := x) (fun hx => ?_) ?_; clear_value x; revert x; intro y hy; rotate_left; unfold x; clear x)
        | (refine Keeps.cut2 (s := s) (x := x) (fun hx => ?_) ?_; clear_value x; revert x; intro y hy; rotate_left; unfold x; clear x)
        | (revert x; intro y))
    | simp only [Keeps.rest_iff, Keeps.clk_iff]
    | with_reducible apply Keeps.foldl
    | with_reducible apply Keeps.foldl_fst
    | (refine Keeps.of_fst ‹_ = _› ?_)
    | (refine Keeps.of_snd ‹_ = _› ?_)
    | split
    | (intro)

theorem execRowReply_keeps {s u : State} {n : Nat} {seq : Nat} {pos : Nat} {pkt : Option Packet} {ecc : EccFinds} (e : execRowReply n seq pos pkt ecc s = .next u) : Keeps s u := by
  unfold execRowReply at e
  injection e with e
  subst e
  try dsimp only
  repeat' first
    | with_reducible assumption
    | with_reducible exact Keeps.refl _
    | with_reducible rfl
    | with_reducible apply State.eccAll_keeps
    | with_reducible apply State.issueAll_keeps
    | with_reducible apply State.endGather_keeps
    | with_reducible apply State.readRow_keeps
    | with_reducible apply State.afterRow_keeps
    | with_reducible apply State.rowArrivedAt_keeps
    | with_reducible apply State.evCount_keeps
    | with_reducible apply State.dropRowReply_keeps
    | refine State.take_keeps ?_ ‹_›
    | refine State.take_keeps ?_ (ite_some ‹_›)
    | with_reducible apply State.dropStale_keeps
    | with_reducible apply State.answeredTimed_keeps
    | with_reducible apply State.rowArrived_keeps
    | (extract_lets +onlyGivenNames x; first
        | (refine Keeps.cut (s := s) (x := x) (fun hx => ?_) ?_; clear_value x; revert x; intro y hy; rotate_left; unfold x; clear x)
        | (refine Keeps.cut1 (s := s) (x := x) (fun hx => ?_) ?_; clear_value x; revert x; intro y hy; rotate_left; unfold x; clear x)
        | (refine Keeps.cut2 (s := s) (x := x) (fun hx => ?_) ?_; clear_value x; revert x; intro y hy; rotate_left; unfold x; clear x)
        | (revert x; intro y))
    | simp only [Keeps.rest_iff, Keeps.clk_iff]
    | with_reducible apply Keeps.foldl
    | with_reducible apply Keeps.foldl_fst
    | (refine Keeps.of_fst ‹_ = _› ?_)
    | (refine Keeps.of_snd ‹_ = _› ?_)
    | split
    | (intro)

theorem State.looseRows_keeps {s t : State} {g : GatherRun} {b : List Byte} (h : Keeps s t) : Keeps s (State.looseRows t g b) := by
  unfold State.looseRows
  try dsimp -zeta only
  repeat' first
    | with_reducible assumption
    | with_reducible exact Keeps.refl _
    | with_reducible rfl
    | with_reducible apply State.writeRow_keeps
    | with_reducible apply State.drew_keeps
    | (extract_lets +onlyGivenNames x; first
        | (refine Keeps.cut (s := s) (x := x) (fun hx => ?_) ?_; clear_value x; revert x; intro y hy; rotate_left; unfold x; clear x)
        | (refine Keeps.cut1 (s := s) (x := x) (fun hx => ?_) ?_; clear_value x; revert x; intro y hy; rotate_left; unfold x; clear x)
        | (refine Keeps.cut2 (s := s) (x := x) (fun hx => ?_) ?_; clear_value x; revert x; intro y hy; rotate_left; unfold x; clear x)
        | (revert x; intro y))
    | simp only [Keeps.rest_iff, Keeps.clk_iff]
    | with_reducible apply Keeps.foldl
    | with_reducible apply Keeps.foldl_fst
    | (refine Keeps.of_fst ‹_ = _› ?_)
    | (refine Keeps.of_snd ‹_ = _› ?_)
    | split
    | (intro)

theorem State.stopGather_keeps {s t : State} {d : Started} (h : Keeps s t) : Keeps s (State.stopGather t d) := by
  unfold State.stopGather
  try dsimp -zeta only
  repeat' first
    | with_reducible assumption
    | with_reducible exact Keeps.refl _
    | with_reducible rfl
    | with_reducible apply State.looseRows_keeps
    | (extract_lets +onlyGivenNames x; first
        | (refine Keeps.cut (s := s) (x := x) (fun hx => ?_) ?_; clear_value x; revert x; intro y hy; rotate_left; unfold x; clear x)
        | (refine Keeps.cut1 (s := s) (x := x) (fun hx => ?_) ?_; clear_value x; revert x; intro y hy; rotate_left; unfold x; clear x)
        | (refine Keeps.cut2 (s := s) (x := x) (fun hx => ?_) ?_; clear_value x; revert x; intro y hy; rotate_left; unfold x; clear x)
        | (revert x; intro y))
    | simp only [Keeps.rest_iff, Keeps.clk_iff]
    | with_reducible apply Keeps.foldl
    | with_reducible apply Keeps.foldl_fst
    | (refine Keeps.of_fst ‹_ = _› ?_)
    | (refine Keeps.of_snd ‹_ = _› ?_)
    | split
    | (intro)

theorem State.stopUpdate_keeps {s t : State} {d : Started} (h : Keeps s t) : Keeps s (State.stopUpdate t d) := by
  unfold State.stopUpdate
  try dsimp -zeta only
  repeat' first
    | with_reducible assumption
    | with_reducible exact Keeps.refl _
    | with_reducible rfl
    | with_reducible apply State.setReg_keeps
    | with_reducible apply State.fput_keeps
    | (extract_lets +onlyGivenNames x; first
        | (refine Keeps.cut (s := s) (x := x) (fun hx => ?_) ?_; clear_value x; revert x; intro y hy; rotate_left; unfold x; clear x)
        | (refine Keeps.cut1 (s := s) (x := x) (fun hx => ?_) ?_; clear_value x; revert x; intro y hy; rotate_left; unfold x; clear x)
        | (refine Keeps.cut2 (s := s) (x := x) (fun hx => ?_) ?_; clear_value x; revert x; intro y hy; rotate_left; unfold x; clear x)
        | (revert x; intro y))
    | simp only [Keeps.rest_iff, Keeps.clk_iff]
    | with_reducible apply Keeps.foldl
    | with_reducible apply Keeps.foldl_fst
    | (refine Keeps.of_fst ‹_ = _› ?_)
    | (refine Keeps.of_snd ‹_ = _› ?_)
    | split
    | (intro)

theorem State.stopDesc_keeps {s t : State} {d : Started} {done : Done} (h : Keeps s t) : Keeps s (State.stopDesc t d done) := by
  unfold State.stopDesc
  try dsimp -zeta only
  repeat' first
    | with_reducible assumption
    | with_reducible exact Keeps.refl _
    | with_reducible rfl
    | with_reducible apply State.setDone_keeps
    | with_reducible apply State.endRank_keeps
    | with_reducible apply State.stopUpdate_keeps
    | with_reducible apply State.stopGather_keeps
    | with_reducible apply State.stopArray_keeps
    | (extract_lets +onlyGivenNames x; first
        | (refine Keeps.cut (s := s) (x := x) (fun hx => ?_) ?_; clear_value x; revert x; intro y hy; rotate_left; unfold x; clear x)
        | (refine Keeps.cut1 (s := s) (x := x) (fun hx => ?_) ?_; clear_value x; revert x; intro y hy; rotate_left; unfold x; clear x)
        | (refine Keeps.cut2 (s := s) (x := x) (fun hx => ?_) ?_; clear_value x; revert x; intro y hy; rotate_left; unfold x; clear x)
        | (revert x; intro y))
    | simp only [Keeps.rest_iff, Keeps.clk_iff]
    | with_reducible apply Keeps.foldl
    | with_reducible apply Keeps.foldl_fst
    | (refine Keeps.of_fst ‹_ = _› ?_)
    | (refine Keeps.of_snd ‹_ = _› ?_)
    | split
    | (intro)

theorem State.tagOpFails_keeps {s t : State} {d : Started} {burst : Nat} (h : Keeps s t) : Keeps s (State.tagOpFails t d burst) := by
  unfold State.tagOpFails
  try dsimp -zeta only
  repeat' first
    | with_reducible assumption
    | with_reducible exact Keeps.refl _
    | with_reducible rfl
    | with_reducible apply State.setDone_keeps
    | with_reducible apply State.ueReport_keeps
    | (extract_lets +onlyGivenNames x; first
        | (refine Keeps.cut (s := s) (x := x) (fun hx => ?_) ?_; clear_value x; revert x; intro y hy; rotate_left; unfold x; clear x)
        | (refine Keeps.cut1 (s := s) (x := x) (fun hx => ?_) ?_; clear_value x; revert x; intro y hy; rotate_left; unfold x; clear x)
        | (refine Keeps.cut2 (s := s) (x := x) (fun hx => ?_) ?_; clear_value x; revert x; intro y hy; rotate_left; unfold x; clear x)
        | (revert x; intro y))
    | simp only [Keeps.rest_iff, Keeps.clk_iff]
    | with_reducible apply Keeps.foldl
    | with_reducible apply Keeps.foldl_fst
    | (refine Keeps.of_fst ‹_ = _› ?_)
    | (refine Keeps.of_snd ‹_ = _› ?_)
    | split
    | (intro)

theorem tagSeal_keeps {s t : State} {d : Started} (h : Keeps s t) : Keeps s (tagSeal t d) := by
  unfold tagSeal
  try dsimp -zeta only
  repeat' first
    | with_reducible assumption
    | with_reducible exact Keeps.refl _
    | with_reducible rfl
    | with_reducible apply State.sealPage_keeps
    | with_reducible apply State.tagOpFails_keeps
    | with_reducible apply State.setDone_keeps
    | (extract_lets +onlyGivenNames x; first
        | (refine Keeps.cut (s := s) (x := x) (fun hx => ?_) ?_; clear_value x; revert x; intro y hy; rotate_left; unfold x; clear x)
        | (refine Keeps.cut1 (s := s) (x := x) (fun hx => ?_) ?_; clear_value x; revert x; intro y hy; rotate_left; unfold x; clear x)
        | (refine Keeps.cut2 (s := s) (x := x) (fun hx => ?_) ?_; clear_value x; revert x; intro y hy; rotate_left; unfold x; clear x)
        | (revert x; intro y))
    | simp only [Keeps.rest_iff, Keeps.clk_iff]
    | with_reducible apply Keeps.foldl
    | with_reducible apply Keeps.foldl_fst
    | (refine Keeps.of_fst ‹_ = _› ?_)
    | (refine Keeps.of_snd ‹_ = _› ?_)
    | split
    | (intro)

theorem tagVerify_keeps {s t : State} {d : Started} (h : Keeps s t) : Keeps s (tagVerify t d) := by
  unfold tagVerify
  try dsimp only
  repeat' first
    | with_reducible assumption
    | with_reducible exact Keeps.refl _
    | with_reducible rfl
    | with_reducible apply State.report_keeps
    | with_reducible apply State.bump_keeps
    | with_reducible apply State.tagOpFails_keeps
    | with_reducible apply State.setDone_keeps
    | (extract_lets +onlyGivenNames x; first
        | (refine Keeps.cut (s := s) (x := x) (fun hx => ?_) ?_; clear_value x; revert x; intro y hy; rotate_left; unfold x; clear x)
        | (refine Keeps.cut1 (s := s) (x := x) (fun hx => ?_) ?_; clear_value x; revert x; intro y hy; rotate_left; unfold x; clear x)
        | (refine Keeps.cut2 (s := s) (x := x) (fun hx => ?_) ?_; clear_value x; revert x; intro y hy; rotate_left; unfold x; clear x)
        | (revert x; intro y))
    | simp only [Keeps.rest_iff, Keeps.clk_iff]
    | with_reducible apply Keeps.foldl
    | with_reducible apply Keeps.foldl_fst
    | (refine Keeps.of_fst ‹_ = _› ?_)
    | (refine Keeps.of_snd ‹_ = _› ?_)
    | split
    | (intro)

theorem execTagSeal_keeps {s u : State} {n : Nat} {seq : Nat} {ecc : EccFinds} (e : execTagSeal n seq ecc s = .next u) : Keeps s u := by
  unfold execTagSeal at e
  injection e with e
  subst e
  try dsimp -zeta only
  repeat' first
    | with_reducible assumption
    | with_reducible exact Keeps.refl _
    | with_reducible rfl
    | with_reducible apply State.eccAll_keeps
    | with_reducible apply tagSeal_keeps
    | (extract_lets +onlyGivenNames x; first
        | (refine Keeps.cut (s := s) (x := x) (fun hx => ?_) ?_; clear_value x; revert x; intro y hy; rotate_left; unfold x; clear x)
        | (refine Keeps.cut1 (s := s) (x := x) (fun hx => ?_) ?_; clear_value x; revert x; intro y hy; rotate_left; unfold x; clear x)
        | (refine Keeps.cut2 (s := s) (x := x) (fun hx => ?_) ?_; clear_value x; revert x; intro y hy; rotate_left; unfold x; clear x)
        | (revert x; intro y))
    | simp only [Keeps.rest_iff, Keeps.clk_iff]
    | with_reducible apply Keeps.foldl
    | with_reducible apply Keeps.foldl_fst
    | (refine Keeps.of_fst ‹_ = _› ?_)
    | (refine Keeps.of_snd ‹_ = _› ?_)
    | split
    | (intro)

theorem execTagVerify_keeps {s u : State} {n : Nat} {seq : Nat} {ecc : EccFinds} (e : execTagVerify n seq ecc s = .next u) : Keeps s u := by
  unfold execTagVerify at e
  injection e with e
  subst e
  try dsimp -zeta only
  repeat' first
    | with_reducible assumption
    | with_reducible exact Keeps.refl _
    | with_reducible rfl
    | with_reducible apply State.eccAll_keeps
    | with_reducible apply tagVerify_keeps
    | (extract_lets +onlyGivenNames x; first
        | (refine Keeps.cut (s := s) (x := x) (fun hx => ?_) ?_; clear_value x; revert x; intro y hy; rotate_left; unfold x; clear x)
        | (refine Keeps.cut1 (s := s) (x := x) (fun hx => ?_) ?_; clear_value x; revert x; intro y hy; rotate_left; unfold x; clear x)
        | (refine Keeps.cut2 (s := s) (x := x) (fun hx => ?_) ?_; clear_value x; revert x; intro y hy; rotate_left; unfold x; clear x)
        | (revert x; intro y))
    | simp only [Keeps.rest_iff, Keeps.clk_iff]
    | with_reducible apply Keeps.foldl
    | with_reducible apply Keeps.foldl_fst
    | (refine Keeps.of_fst ‹_ = _› ?_)
    | (refine Keeps.of_snd ‹_ = _› ?_)
    | split
    | (intro)

end Sys2Proof.Machine
end

