-- ==== Sys2Proof/Laws/KeepsUpdate.lean ====
section
/-!
SUPPORT. What the operations of Machine/Update.lean keep (Safety.lean).
-/
namespace Sys2Proof.Machine

open Sys2Proof

theorem State.setUpd_keeps {s t : State} {r : Nat} {x2 : Option UpdRun} (h : Keeps s t) : Keeps s (State.setUpd t r x2) := by
  unfold State.setUpd
  repeat' first
    | with_reducible assumption
    | with_reducible rfl
    | simp only [Keeps.rest_iff, Keeps.clk_iff]

theorem State.startUpd_keeps {s t : State} {d : Started} {ve : Option Nat} (h : Keeps s t) : Keeps s (State.startUpd t d ve) := by
  unfold State.startUpd
  repeat' first
    | with_reducible assumption
    | with_reducible apply State.setUpd_keeps
    | with_reducible apply State.fput_keeps
    | with_reducible apply State.bump_keeps
    | split

theorem State.endUpd_keeps {s t : State} {r : Nat} {d : Done} (h : Keeps s t) : Keeps s (State.endUpd t r d) := by
  unfold State.endUpd
  repeat' first
    | with_reducible assumption
    | with_reducible apply State.fput_keeps
    | with_reducible apply State.setUpd_keeps
    | with_reducible apply State.setDone_keeps
    | with_reducible apply State.setReg_keeps
    | split

theorem State.promote_keeps {s t : State} {r : Nat} {x2 : UpdRun} {b : List Byte} (h : Keeps s t) : Keeps s (State.promote t r x2 b).1 := by
  unfold State.promote
  repeat' first
    | with_reducible assumption
    | with_reducible apply State.awareWrites_keeps
    | (extract_lets +onlyGivenNames x; first
        | (refine Keeps.cut (s := s) (x := x) (fun hx => ?_) ?_; clear_value x; revert x; intro y hy; rotate_left; unfold x; clear x)
        | (revert x; intro y))
    | split

theorem State.engineFault_keeps {s t : State} {d : Started} {cls : Nat} (h : Keeps s t) : Keeps s (State.engineFault t d cls) := by
  unfold State.engineFault
  try dsimp -zeta only
  repeat' first
    | with_reducible assumption
    | with_reducible exact Keeps.refl _
    | with_reducible rfl
    | with_reducible apply State.setUpd_keeps
    | (extract_lets +onlyGivenNames x; first
        | (refine Keeps.cut (s := s) (x := x) (fun hx => ?_) ?_; clear_value x; revert x; intro y hy; rotate_left; unfold x; clear x)
        | (refine Keeps.cut1 (s := s) (x := x) (fun hx => ?_) ?_; clear_value x; revert x; intro y hy; rotate_left; unfold x; clear x)
        | (refine Keeps.cut2 (s := s) (x := x) (fun hx => ?_) ?_; clear_value x; revert x; intro y hy; rotate_left; unfold x; clear x)
        | (revert x; intro y))
    | simp only [Keeps.rest_iff, Keeps.clk_iff]
    | with_reducible apply Keeps.foldl
    | with_reducible apply Keeps.foldl_fst
    | (refine Keeps.of_fst ‹_ = _› ?_)
    | (refine Keeps.of_snd ‹_ = _› ?_)
    | split
    | (intro)

theorem State.updCheck_keeps {s t : State} {c : Ctx} {rs : List (Nat × Nat)} {x : Nat × Nat × Option Nat × Option Nat} (h : Keeps s t) : Keeps s (State.updCheck t c rs x).1 := by
  unfold State.updCheck
  try dsimp -zeta only
  repeat' first
    | with_reducible assumption
    | with_reducible exact Keeps.refl _
    | with_reducible rfl
    | with_reducible apply Keeps.foldChecks
    | with_reducible apply State.tagReadPage_keeps
    | with_reducible apply State.poisonCheck_keeps
    | (extract_lets +onlyGivenNames x; first
        | (refine Keeps.cut (s := s) (x := x) (fun hx => ?_) ?_; clear_value x; revert x; intro y hy; rotate_left; unfold x; clear x)
        | (refine Keeps.cut1 (s := s) (x := x) (fun hx => ?_) ?_; clear_value x; revert x; intro y hy; rotate_left; unfold x; clear x)
        | (refine Keeps.cut2 (s := s) (x := x) (fun hx => ?_) ?_; clear_value x; revert x; intro y hy; rotate_left; unfold x; clear x)
        | (revert x; intro y))
    | simp only [Keeps.rest_iff, Keeps.clk_iff]
    | with_reducible apply Keeps.foldl
    | with_reducible apply Keeps.foldl_fst
    | (refine Keeps.of_fst ‹_ = _› ?_)
    | (refine Keeps.of_snd ‹_ = _› ?_)
    | split
    | (intro)

theorem State.updMismatch_keeps {s t : State} {r : Nat} {x2 : UpdRun} {b : List Byte} (h : Keeps s t) : Keeps s (State.updMismatch t r x2 b) := by
  unfold State.updMismatch
  repeat' first
    | with_reducible assumption
    | with_reducible apply State.report_keeps
    | with_reducible apply State.enterDrain_keeps
    | with_reducible apply State.setUpd_keeps

theorem State.sealRange_keeps {s t : State} {addr : Nat} {n : Nat} {fmt : Nat} {step : Nat} {bid : Nat → Nat} (h : Keeps s t) : Keeps s (State.sealRange t addr n fmt step bid) := by
  unfold State.sealRange
  try dsimp -zeta only
  repeat' first
    | with_reducible assumption
    | with_reducible exact Keeps.refl _
    | with_reducible rfl
    | with_reducible apply State.sealPage_keeps
    | (extract_lets +onlyGivenNames x; first
        | (refine Keeps.cut (s := s) (x := x) (fun hx => ?_) ?_; clear_value x; revert x; intro y hy; rotate_left; unfold x; clear x)
        | (refine Keeps.cut1 (s := s) (x := x) (fun hx => ?_) ?_; clear_value x; revert x; intro y hy; rotate_left; unfold x; clear x)
        | (refine Keeps.cut2 (s := s) (x := x) (fun hx => ?_) ?_; clear_value x; revert x; intro y hy; rotate_left; unfold x; clear x)
        | (revert x; intro y))
    | simp only [Keeps.rest_iff, Keeps.clk_iff]
    | with_reducible apply Keeps.foldl
    | with_reducible apply Keeps.foldl_fst
    | (refine Keeps.of_fst ‹_ = _› ?_)
    | (refine Keeps.of_snd ‹_ = _› ?_)
    | split
    | (intro)

theorem State.sealDense_keeps {s t : State} {x1 : UpdRun} {b : List Byte} (h : Keeps s t) : Keeps s (State.sealDense t x1 b) := by
  unfold State.sealDense
  try dsimp -zeta only
  repeat' first
    | with_reducible assumption
    | with_reducible exact Keeps.refl _
    | with_reducible rfl
    | with_reducible apply State.sealRange_keeps
    | (extract_lets +onlyGivenNames x; first
        | (refine Keeps.cut (s := s) (x := x) (fun hx => ?_) ?_; clear_value x; revert x; intro y hy; rotate_left; unfold x; clear x)
        | (refine Keeps.cut1 (s := s) (x := x) (fun hx => ?_) ?_; clear_value x; revert x; intro y hy; rotate_left; unfold x; clear x)
        | (refine Keeps.cut2 (s := s) (x := x) (fun hx => ?_) ?_; clear_value x; revert x; intro y hy; rotate_left; unfold x; clear x)
        | (revert x; intro y))
    | simp only [Keeps.rest_iff, Keeps.clk_iff]
    | with_reducible apply Keeps.foldl
    | with_reducible apply Keeps.foldl_fst
    | (refine Keeps.of_fst ‹_ = _› ?_)
    | (refine Keeps.of_snd ‹_ = _› ?_)
    | split
    | (intro)

theorem State.updEvents_keeps {s t : State} {r : Nat} {x2 : UpdRun} {b : List Byte} {i : Nat} (h : Keeps s t) : Keeps s (State.updEvents t r x2 b i) := by
  unfold State.updEvents
  repeat' first
    | with_reducible assumption
    | with_reducible apply State.evCount_keeps
    | split

theorem State.updPut_keeps {s t : State} {r : Nat} {b : List Byte} {x3 : UpdRun} {ws : List (Nat × Nat × List Byte)} (h : Keeps s t) : Keeps s (State.updPut t r b x3 ws).1 := by
  unfold State.updPut
  try dsimp -zeta only
  repeat' first
    | with_reducible assumption
    | with_reducible exact Keeps.refl _
    | with_reducible rfl
    | with_reducible apply Keeps.foldChecks
    | with_reducible apply State.awareWrites_keeps
    | with_reducible apply State.tagMismatch_keeps
    | (extract_lets +onlyGivenNames x; first
        | (refine Keeps.cut (s := s) (x := x) (fun hx => ?_) ?_; clear_value x; revert x; intro y hy; rotate_left; unfold x; clear x)
        | (refine Keeps.cut1 (s := s) (x := x) (fun hx => ?_) ?_; clear_value x; revert x; intro y hy; rotate_left; unfold x; clear x)
        | (refine Keeps.cut2 (s := s) (x := x) (fun hx => ?_) ?_; clear_value x; revert x; intro y hy; rotate_left; unfold x; clear x)
        | (revert x; intro y))
    | simp only [Keeps.rest_iff, Keeps.clk_iff]
    | with_reducible apply Keeps.foldl
    | with_reducible apply Keeps.foldl_fst
    | (refine Keeps.of_fst ‹_ = _› ?_)
    | (refine Keeps.of_snd ‹_ = _› ?_)
    | split
    | (intro)

theorem State.updDid_keeps {s t : State} {r : Nat} {b : List Byte} {i : Nat} {x4 : UpdRun} {v : UpdRun} (h : Keeps s t) : Keeps s (State.updDid t r b i x4 v) := by
  unfold State.updDid
  try dsimp -zeta only
  repeat' first
    | with_reducible assumption
    | with_reducible exact Keeps.refl _
    | with_reducible rfl
    | with_reducible apply State.updStarted_keeps
    | with_reducible apply State.fput_keeps
    | with_reducible apply State.setUpd_keeps
    | with_reducible apply State.updEvents_keeps
    | with_reducible apply State.bump_keeps
    | with_reducible apply State.report_keeps
    | (extract_lets +onlyGivenNames x; first
        | (refine Keeps.cut (s := s) (x := x) (fun hx => ?_) ?_; clear_value x; revert x; intro y hy; rotate_left; unfold x; clear x)
        | (refine Keeps.cut1 (s := s) (x := x) (fun hx => ?_) ?_; clear_value x; revert x; intro y hy; rotate_left; unfold x; clear x)
        | (refine Keeps.cut2 (s := s) (x := x) (fun hx => ?_) ?_; clear_value x; revert x; intro y hy; rotate_left; unfold x; clear x)
        | (revert x; intro y))
    | simp only [Keeps.rest_iff, Keeps.clk_iff]
    | with_reducible apply Keeps.foldl
    | with_reducible apply Keeps.foldl_fst
    | (refine Keeps.of_fst ‹_ = _› ?_)
    | (refine Keeps.of_snd ‹_ = _› ?_)
    | split
    | (intro)

theorem State.updOne_keeps {s t : State} {r : Nat} {b : List Byte} {x3 : UpdRun} {i : Nat} {bad : Bool} (h : Keeps s t) : Keeps s (State.updOne t r b x3 i bad).1 := by
  unfold State.updOne
  try dsimp -zeta only
  repeat' first
    | with_reducible assumption
    | with_reducible exact Keeps.refl _
    | with_reducible rfl
    | with_reducible apply Keeps.foldChecks
    | with_reducible apply State.updCheck_keeps
    | with_reducible apply State.endUpd_keeps
    | with_reducible apply State.updMismatch_keeps
    | with_reducible apply State.updPut_keeps
    | with_reducible apply State.updDid_keeps
    | with_reducible apply State.sealDense_keeps
    | (extract_lets +onlyGivenNames x; first
        | (refine Keeps.cut (s := s) (x := x) (fun hx => ?_) ?_; clear_value x; revert x; intro y hy; rotate_left; unfold x; clear x)
        | (refine Keeps.cut1 (s := s) (x := x) (fun hx => ?_) ?_; clear_value x; revert x; intro y hy; rotate_left; unfold x; clear x)
        | (refine Keeps.cut2 (s := s) (x := x) (fun hx => ?_) ?_; clear_value x; revert x; intro y hy; rotate_left; unfold x; clear x)
        | (revert x; intro y))
    | simp only [Keeps.rest_iff, Keeps.clk_iff]
    | with_reducible apply Keeps.foldl
    | with_reducible apply Keeps.foldl_fst
    | (refine Keeps.of_fst ‹_ = _› ?_)
    | (refine Keeps.of_snd ‹_ = _› ?_)
    | split
    | (intro)

theorem State.updSteps_keeps {s t : State} {r : Nat} {b : List Byte} {x3 : Nat} {x4 : Option Nat} (h : Keeps s t) : Keeps s (State.updSteps t r b x3 x4) := by
  induction x3 generalizing t x4 with
  | zero =>
    unfold State.updSteps
    try dsimp -zeta only
    repeat' first
      | apply ih
      | with_reducible assumption
      | with_reducible exact Keeps.refl _
      | with_reducible rfl
      | with_reducible apply State.updOne_keeps
      | (extract_lets +onlyGivenNames x; first
          | (refine Keeps.cut (s := s) (x := x) (fun hx => ?_) ?_; clear_value x; revert x; intro y hy; rotate_left; unfold x; clear x)
          | (refine Keeps.cut1 (s := s) (x := x) (fun hx => ?_) ?_; clear_value x; revert x; intro y hy; rotate_left; unfold x; clear x)
          | (refine Keeps.cut2 (s := s) (x := x) (fun hx => ?_) ?_; clear_value x; revert x; intro y hy; rotate_left; unfold x; clear x)
          | (revert x; intro y))
      | simp only [Keeps.rest_iff, Keeps.clk_iff]
      | with_reducible apply Keeps.foldl
      | with_reducible apply Keeps.foldl_fst
      | (refine Keeps.of_fst ‹_ = _› ?_)
      | (refine Keeps.of_snd ‹_ = _› ?_)
      | split
      | (intro)
  
  | succ n ih =>
    unfold State.updSteps
    try dsimp -zeta only
    repeat' first
      | apply ih
      | with_reducible assumption
      | with_reducible exact Keeps.refl _
      | with_reducible rfl
      | with_reducible apply State.updOne_keeps
      | (extract_lets +onlyGivenNames x; first
          | (refine Keeps.cut (s := s) (x := x) (fun hx => ?_) ?_; clear_value x; revert x; intro y hy; rotate_left; unfold x; clear x)
          | (refine Keeps.cut1 (s := s) (x := x) (fun hx => ?_) ?_; clear_value x; revert x; intro y hy; rotate_left; unfold x; clear x)
          | (refine Keeps.cut2 (s := s) (x := x) (fun hx => ?_) ?_; clear_value x; revert x; intro y hy; rotate_left; unfold x; clear x)
          | (revert x; intro y))
      | simp only [Keeps.rest_iff, Keeps.clk_iff]
      | with_reducible apply Keeps.foldl
      | with_reducible apply Keeps.foldl_fst
      | (refine Keeps.of_fst ‹_ = _› ?_)
      | (refine Keeps.of_snd ‹_ = _› ?_)
      | split
      | (intro)
  

theorem State.beginUpd_keeps {s t : State} {r : Nat} {x2 : UpdRun} {b : List Byte} (h : Keeps s t) : Keeps s (State.beginUpd t r x2 b).1 := by
  unfold State.beginUpd
  try dsimp -zeta only
  repeat' first
    | with_reducible assumption
    | with_reducible exact Keeps.refl _
    | with_reducible rfl
    | with_reducible apply State.awareChecks_keeps
    | with_reducible apply State.promote_keeps
    | with_reducible apply State.setUpd_keeps
    | (extract_lets +onlyGivenNames x; first
        | (refine Keeps.cut (s := s) (x := x) (fun hx => ?_) ?_; clear_value x; revert x; intro y hy; rotate_left; unfold x; clear x)
        | (refine Keeps.cut1 (s := s) (x := x) (fun hx => ?_) ?_; clear_value x; revert x; intro y hy; rotate_left; unfold x; clear x)
        | (refine Keeps.cut2 (s := s) (x := x) (fun hx => ?_) ?_; clear_value x; revert x; intro y hy; rotate_left; unfold x; clear x)
        | (revert x; intro y))
    | simp only [Keeps.rest_iff, Keeps.clk_iff]
    | with_reducible apply Keeps.foldl
    | with_reducible apply Keeps.foldl_fst
    | (refine Keeps.of_fst ‹_ = _› ?_)
    | (refine Keeps.of_snd ‹_ = _› ?_)
    | split
    | (intro)

theorem updateStep_keeps {s t : State} {d : Started} {count : Nat} {bad : Option Nat} (h : Keeps s t) : Keeps s (updateStep t d count bad) := by
  unfold updateStep
  repeat' first
    | with_reducible assumption
    | with_reducible apply State.beginUpd_keeps
    | with_reducible apply State.endUpd_keeps
    | with_reducible apply State.updSteps_keeps
    | (extract_lets +onlyGivenNames x; first
        | (revert x; intro y))
    | split

theorem execUpdateDense_keeps {s u : State} {n : Nat} {seq : Nat} {count : Nat} {bad : Option Nat} {ecc : EccFinds} (e : execUpdateDense n seq count bad ecc s = .next u) : Keeps s u := by
  unfold execUpdateDense at e
  injection e with e
  subst e
  try dsimp -zeta only
  repeat' first
    | with_reducible assumption
    | with_reducible exact Keeps.refl _
    | with_reducible rfl
    | with_reducible apply State.eccAll_keeps
    | with_reducible apply updateStep_keeps
    | (extract_lets +onlyGivenNames x; first
        | (refine Keeps.cut (s := s) (x := x) (fun hx => ?_) ?_; clear_value x; revert x; intro y hy; rotate_left; unfold x; clear x)
        | (refine Keeps.cut1 (s := s) (x := x) (fun hx => ?_) ?_; clear_value x; revert x; intro y hy; rotate_left; unfold x; clear x)
        | (refine Keeps.cut2 (s := s) (x := x) (fun hx => ?_) ?_; clear_value x; revert x; intro y hy; rotate_left; unfold x; clear x)
        | (revert x; intro y))
    | simp only [Keeps.rest_iff, Keeps.clk_iff]
    | with_reducible apply Keeps.foldl
    | with_reducible apply Keeps.foldl_fst
    | (refine Keeps.of_fst ‹_ = _› ?_)
    | (refine Keeps.of_snd ‹_ = _› ?_)
    | split
    | (intro)

theorem execUpdateRows_keeps {s u : State} {n : Nat} {seq : Nat} {count : Nat} {bad : Option Nat} {ecc : EccFinds} (e : execUpdateRows n seq count bad ecc s = .next u) : Keeps s u := by
  unfold execUpdateRows at e
  injection e with e
  subst e
  try dsimp -zeta only
  repeat' first
    | with_reducible assumption
    | with_reducible exact Keeps.refl _
    | with_reducible rfl
    | with_reducible apply State.eccAll_keeps
    | with_reducible apply updateStep_keeps
    | (extract_lets +onlyGivenNames x; first
        | (refine Keeps.cut (s := s) (x := x) (fun hx => ?_) ?_; clear_value x; revert x; intro y hy; rotate_left; unfold x; clear x)
        | (refine Keeps.cut1 (s := s) (x := x) (fun hx => ?_) ?_; clear_value x; revert x; intro y hy; rotate_left; unfold x; clear x)
        | (refine Keeps.cut2 (s := s) (x := x) (fun hx => ?_) ?_; clear_value x; revert x; intro y hy; rotate_left; unfold x; clear x)
        | (revert x; intro y))
    | simp only [Keeps.rest_iff, Keeps.clk_iff]
    | with_reducible apply Keeps.foldl
    | with_reducible apply Keeps.foldl_fst
    | (refine Keeps.of_fst ‹_ = _› ?_)
    | (refine Keeps.of_snd ‹_ = _› ?_)
    | split
    | (intro)

theorem State.setcoefOne_keeps {s t : State} {c : Ctx} {b : List Byte} {r : Nat} (h : Keeps s t) : Keeps s (State.setcoefOne t c b r).1 := by
  unfold State.setcoefOne
  try dsimp -zeta only
  repeat' first
    | with_reducible assumption
    | with_reducible exact Keeps.refl _
    | with_reducible rfl
    | with_reducible apply State.awareChecks_keeps
    | with_reducible apply State.awareWrites_keeps
    | (extract_lets +onlyGivenNames x; first
        | (refine Keeps.cut (s := s) (x := x) (fun hx => ?_) ?_; clear_value x; revert x; intro y hy; rotate_left; unfold x; clear x)
        | (refine Keeps.cut1 (s := s) (x := x) (fun hx => ?_) ?_; clear_value x; revert x; intro y hy; rotate_left; unfold x; clear x)
        | (refine Keeps.cut2 (s := s) (x := x) (fun hx => ?_) ?_; clear_value x; revert x; intro y hy; rotate_left; unfold x; clear x)
        | (revert x; intro y))
    | simp only [Keeps.rest_iff, Keeps.clk_iff]
    | with_reducible apply Keeps.foldl
    | with_reducible apply Keeps.foldl_fst
    | (refine Keeps.of_fst ‹_ = _› ?_)
    | (refine Keeps.of_snd ‹_ = _› ?_)
    | split
    | (intro)

theorem State.setcoefAll_keeps {s t : State} {c : Ctx} {b : List Byte} {x3 : List Nat} {x4 : List (Nat × Nat)} (h : Keeps s t) : Keeps s (State.setcoefAll t c b x3 x4).1 := by
  induction x3 generalizing t x4 with
  | nil =>
    unfold State.setcoefAll
    repeat' first
      | with_reducible assumption
      | with_reducible apply State.setcoefOne_keeps
  
  | cons a l ih =>
    unfold State.setcoefAll
    repeat' first
      | apply ih
      | with_reducible assumption
      | with_reducible apply State.setcoefOne_keeps
      | (extract_lets +onlyGivenNames x; first
          | (refine Keeps.cut1 (s := s) (x := x) (fun hx => ?_) ?_; clear_value x; revert x; intro y hy; rotate_left; unfold x; clear x))
      | split

theorem setcoef_keeps {s t : State} {d : Started} (h : Keeps s t) : Keeps s (setcoef t d) := by
  unfold setcoef
  repeat' first
    | with_reducible assumption
    | with_reducible apply State.awareCheck_keeps
    | with_reducible apply State.endUpd_keeps
    | with_reducible apply State.setcoefAll_keeps
    | (extract_lets +onlyGivenNames x; first
        | (revert x; intro y))
    | split

theorem execSetcoef_keeps {s u : State} {n : Nat} {seq : Nat} {ecc : EccFinds} (e : execSetcoef n seq ecc s = .next u) : Keeps s u := by
  unfold execSetcoef at e
  injection e with e
  subst e
  try dsimp -zeta only
  repeat' first
    | with_reducible assumption
    | with_reducible exact Keeps.refl _
    | with_reducible rfl
    | with_reducible apply State.eccAll_keeps
    | with_reducible apply setcoef_keeps
    | (extract_lets +onlyGivenNames x; first
        | (refine Keeps.cut (s := s) (x := x) (fun hx => ?_) ?_; clear_value x; revert x; intro y hy; rotate_left; unfold x; clear x)
        | (refine Keeps.cut1 (s := s) (x := x) (fun hx => ?_) ?_; clear_value x; revert x; intro y hy; rotate_left; unfold x; clear x)
        | (refine Keeps.cut2 (s := s) (x := x) (fun hx => ?_) ?_; clear_value x; revert x; intro y hy; rotate_left; unfold x; clear x)
        | (revert x; intro y))
    | simp only [Keeps.rest_iff, Keeps.clk_iff]
    | with_reducible apply Keeps.foldl
    | with_reducible apply Keeps.foldl_fst
    | (refine Keeps.of_fst ‹_ = _› ?_)
    | (refine Keeps.of_snd ‹_ = _› ?_)
    | split
    | (intro)

theorem veTakeover_keeps {s t : State} {r : Nat} (h : Keeps s t) : Keeps s (veTakeover t r) := by
  unfold veTakeover
  repeat' first
    | with_reducible assumption
    | with_reducible apply State.setUpd_keeps
    | with_reducible apply State.updStarted_keeps
    | with_reducible apply State.bump_keeps
    | with_reducible apply State.fput_keeps
    | with_reducible apply State.endUpd_keeps
    | split

theorem execVeTakeover_keeps {s u : State} {r : Nat} (e : execVeTakeover r s = .next u) : Keeps s u := by
  unfold execVeTakeover at e
  injection e with e
  subst e
  repeat' first
    | with_reducible exact Keeps.refl _
    | with_reducible apply veTakeover_keeps
    | split

end Sys2Proof.Machine
end

