-- ==== Sys2Proof/Laws/KeepsArray.lean ====
section
/-!
SUPPORT. What the operations of Machine/Array.lean keep (Safety.lean).
-/
namespace Sys2Proof.Machine

open Sys2Proof

theorem State.arrEvent_keeps {s t : State} {b : List Byte} {die : Nat} {x3 : Nat × Nat} (h : Keeps s t) : Keeps s (State.arrEvent t b die x3) := by
  unfold State.arrEvent
  repeat' first
    | with_reducible assumption
    | with_reducible apply State.evCount_keeps
    | simp only [Keeps.rest_iff, Keeps.clk_iff]

theorem State.arrEvents_keeps {s t : State} {b : List Byte} {die : Nat} {es : List (Nat × Nat)} (h : Keeps s t) : Keeps s (State.arrEvents t b die es) := by
  unfold State.arrEvents
  repeat' first
    | with_reducible assumption
    | with_reducible apply State.arrEvent_keeps
    | with_reducible apply Keeps.foldl
    | (intro)

theorem State.takeBack_keeps {s t : State} {die : Nat} {c : Nat} {n : Nat} (h : Keeps s t) : Keeps s (State.takeBack t die c n) := by
  unfold State.takeBack
  repeat' first
    | with_reducible assumption
    | with_reducible rfl
    | simp only [Keeps.rest_iff, Keeps.clk_iff]

theorem State.uncount_keeps {s t : State} {b : List Byte} (h : Keeps s t) : Keeps s (State.uncount t b) := by
  unfold State.uncount
  repeat' first
    | with_reducible assumption
    | with_reducible apply State.takeBack_keeps
    | simp only [Keeps.rest_iff, Keeps.clk_iff]
    | with_reducible apply Keeps.foldl
    | (intro)

theorem State.recomputed_keeps {s t : State} {b : List Byte} {p : List Byte} {num : Nat} {cell : Nat} (h : Keeps s t) : Keeps s (State.recomputed t b p num cell) := by
  unfold State.recomputed
  repeat' first
    | with_reducible assumption
    | with_reducible apply State.evCount_keeps
    | with_reducible apply Keeps.foldl
    | (intro)

theorem State.clearFences_keeps {s t : State}  (h : Keeps s t) : Keeps s (State.clearFences t) := by
  unfold State.clearFences
  repeat' first
    | with_reducible assumption
    | with_reducible apply State.setReg_keeps
    | simp only [Keeps.rest_iff, Keeps.clk_iff]
    | with_reducible apply Keeps.foldl
    | (intro)

theorem State.startArray_keeps {s t : State} {d : Started} (h : Keeps s t) : Keeps s (State.startArray t d) := by
  unfold State.startArray
  repeat' first
    | with_reducible assumption
    | with_reducible apply State.clockCells_keeps
    | with_reducible apply State.applyTrace_keeps
    | with_reducible apply State.clearFences_keeps
    | with_reducible apply State.fput_keeps
    | with_reducible apply State.setReg_keeps
    | with_reducible apply State.updStarted_keeps
    | with_reducible apply State.traceStart_keeps
    | simp only [Keeps.rest_iff, Keeps.clk_iff]

theorem State.setRun_keeps {s t : State} {r : ArrRun} (h : Keeps s t) : Keeps s (State.setRun t r) := by
  unfold State.setRun
  repeat' first
    | with_reducible assumption
    | with_reducible apply State.setReg_keeps
    | simp only [Keeps.rest_iff, Keeps.clk_iff]

theorem State.failRun_keeps {s t : State} {r : ArrRun} {cls : Nat} {cell : Nat} (h : Keeps s t) : Keeps s (State.failRun t r cls cell) := by
  unfold State.failRun
  repeat' first
    | with_reducible assumption
    | with_reducible apply State.endRun_keeps
    | with_reducible apply State.setDone_keeps

theorem State.finishRun_keeps {s t : State} {r : ArrRun} {d : Started} (h : Keeps s t) : Keeps s (State.finishRun t r d) := by
  unfold State.finishRun
  repeat' first
    | with_reducible assumption
    | with_reducible apply State.report_keeps
    | with_reducible apply State.bump_keeps
    | with_reducible apply State.endRun_keeps
    | with_reducible apply State.setDone_keeps
    | split

theorem State.startAudit_keeps {s t : State} {r : ArrRun} {d : Started} {tiles : List Tile} {pick : Nat} (h : Keeps s t) : Keeps s (State.startAudit t r d tiles pick) := by
  unfold State.startAudit
  repeat' first
    | with_reducible assumption
    | with_reducible apply State.recomputed_keeps
    | simp only [Keeps.rest_iff, Keeps.clk_iff]
    | split

theorem State.beginRun_keeps {s t : State} {r : ArrRun} {d : Started} {pick : Nat} (h : Keeps s t) : Keeps s (State.beginRun t r d pick) := by
  unfold State.beginRun
  repeat' first
    | with_reducible assumption
    | with_reducible apply State.awareChecks_keeps
    | with_reducible apply State.failRun_keeps
    | with_reducible apply State.startAudit_keeps
    | with_reducible apply State.setRun_keeps
    | with_reducible apply State.finishRun_keeps
    | (extract_lets +onlyGivenNames x; first
        | (revert x; intro y))
    | split

theorem execSweep_keeps {s u : State} {n : Nat} {seq : Nat} {pick : Nat} {ecc : EccFinds} (e : execSweep n seq pick ecc s = .next u) : Keeps s u := by
  unfold execSweep at e
  injection e with e
  subst e
  try dsimp -zeta only
  repeat' first
    | with_reducible assumption
    | with_reducible exact Keeps.refl _
    | with_reducible rfl
    | with_reducible apply State.eccAll_keeps
    | with_reducible apply State.beginRun_keeps
    | (extract_lets +onlyGivenNames x; first
        | (refine Keeps.cut (s := s) (x := x) (fun hx => ?_) ?_; clear_value x; revert x; intro y hy; rotate_left; unfold x; clear x)
        | (refine Keeps.cut1 (s := s) (x := x) (fun hx => ?_) ?_; clear_value x; revert x; intro y hy; rotate_left; unfold x; clear x)
        | (refine Keeps.cut2 (s := s) (x := x) (fun hx => ?_) ?_; clear_value x; revert x; intro y hy; rotate_left; unfold x; clear x)
        | (revert x; intro y))
    | simp only [Keeps.rest_iff, Keeps.clk_iff]
    | with_reducible apply Keeps.foldl
    | with_reducible apply Keeps.foldl_fst
    | (refine Keeps.of_fst ‹_ = _› ?_)
    | (refine Keeps.of_snd ‹_ = _› ?_)
    | split
    | (intro)

theorem execInteract_keeps {s u : State} {n : Nat} {seq : Nat} {pick : Nat} {ecc : EccFinds} (e : execInteract n seq pick ecc s = .next u) : Keeps s u := by
  unfold execInteract at e
  injection e with e
  subst e
  try dsimp -zeta only
  repeat' first
    | with_reducible assumption
    | with_reducible exact Keeps.refl _
    | with_reducible rfl
    | with_reducible apply State.eccAll_keeps
    | with_reducible apply State.beginRun_keeps
    | (extract_lets +onlyGivenNames x; first
        | (refine Keeps.cut (s := s) (x := x) (fun hx => ?_) ?_; clear_value x; revert x; intro y hy; rotate_left; unfold x; clear x)
        | (refine Keeps.cut1 (s := s) (x := x) (fun hx => ?_) ?_; clear_value x; revert x; intro y hy; rotate_left; unfold x; clear x)
        | (refine Keeps.cut2 (s := s) (x := x) (fun hx => ?_) ?_; clear_value x; revert x; intro y hy; rotate_left; unfold x; clear x)
        | (revert x; intro y))
    | simp only [Keeps.rest_iff, Keeps.clk_iff]
    | with_reducible apply Keeps.foldl
    | with_reducible apply Keeps.foldl_fst
    | (refine Keeps.of_fst ‹_ = _› ?_)
    | (refine Keeps.of_snd ‹_ = _› ?_)
    | split
    | (intro)

theorem State.loseCells_keeps {s t : State} {gone : List Nat} {cls : Nat} (h : Keeps s t) : Keeps s (State.loseCells t gone cls) := by
  unfold State.loseCells
  repeat' first
    | with_reducible assumption
    | with_reducible apply State.setRun_keeps
    | with_reducible apply State.failRun_keeps
    | split

theorem State.fenceCell_keeps {s t : State} {cell : Nat} {cls : Nat} (h : Keeps s t) : Keeps s (State.fenceCell t cell cls) := by
  unfold State.fenceCell
  repeat' first
    | with_reducible assumption
    | with_reducible apply State.loseCells_keeps
    | with_reducible apply State.putBit_keeps

theorem State.fenceBlock_keeps {s t : State} {b : Nat} {cls : Nat} (h : Keeps s t) : Keeps s (State.fenceBlock t b cls) := by
  unfold State.fenceBlock
  repeat' first
    | with_reducible assumption
    | with_reducible apply State.loseCells_keeps
    | with_reducible apply State.putBit_keeps

theorem State.chunkStep_keeps {s t : State} {r : ArrRun} {x : TileP} {cell : Nat} (h : Keeps s t) : Keeps s (State.chunkStep t r x cell).2.2 :=
  List.foldlRecOn (motive := fun (q : ArrRun × List (Nat × Nat) × State) => Keeps s q.2.2) _ _ h (fun q hq a _ => Keeps.ite (State.drew_keeps hq) hq)

theorem State.storeError_keeps {s t : State} {r : ArrRun} {d : Started} {cell : Nat} {num : Nat} (h : Keeps s t) : Keeps s (State.storeError t r d cell num) := by
  unfold State.storeError
  repeat' first
    | with_reducible assumption
    | with_reducible apply State.report_keeps
    | with_reducible apply State.setRun_keeps
    | with_reducible apply State.failRun_keeps
    | split

theorem execChunkApply_keeps {s u : State} {cell : Nat} {bad : Option Nat} {corr : Nat} {ecc : EccFinds} (e : execChunkApply cell bad corr ecc s = .next u) : Keeps s u := by
  unfold execChunkApply at e
  injection e with e
  subst e
  try dsimp -zeta only
  repeat' first
    | with_reducible assumption
    | with_reducible exact Keeps.refl _
    | with_reducible rfl
    | with_reducible apply State.eccAll_keeps
    | with_reducible apply State.chunkStep_keeps
    | with_reducible apply State.corrected_keeps
    | with_reducible apply State.arrEvents_keeps
    | with_reducible apply State.setRun_keeps
    | with_reducible apply State.storeError_keeps
    | (extract_lets +onlyGivenNames x; first
        | (refine Keeps.cut (s := s) (x := x) (fun hx => ?_) ?_; clear_value x; revert x; intro y hy; rotate_left; unfold x; clear x)
        | (refine Keeps.cut1 (s := s) (x := x) (fun hx => ?_) ?_; clear_value x; revert x; intro y hy; rotate_left; unfold x; clear x)
        | (refine Keeps.cut2 (s := s) (x := x) (fun hx => ?_) ?_; clear_value x; revert x; intro y hy; rotate_left; unfold x; clear x)
        | (revert x; intro y))
    | simp only [Keeps.rest_iff, Keeps.clk_iff]
    | with_reducible apply Keeps.foldl
    | with_reducible apply Keeps.foldl_fst
    | (refine Keeps.of_fst ‹_ = _› ?_)
    | (refine Keeps.of_snd ‹_ = _› ?_)
    | split
    | (intro)

theorem State.judgePages_keeps {s t : State} {c : Ctx} {x2 : TicketSt} {outs : List (Nat × Nat × Nat)} {pages : List Nat} (h : Keeps s t) : Keeps s (State.judgePages t c x2 outs pages).1 := by
  unfold State.judgePages
  repeat' first
    | with_reducible assumption
    | with_reducible apply State.tagMismatch_keeps
    | with_reducible apply Keeps.foldl_fst
    | split
    | (intro)

theorem State.writeOut_keeps {s t : State} {c : Ctx} {x2 : TicketSt} {outs : List (Nat × Nat × Nat)} {tile : Nat} {ws : List (Nat × List Byte)} (h : Keeps s t) : Keeps s (State.writeOut t c x2 outs tile ws).1 := by
  unfold State.writeOut
  repeat' first
    | with_reducible assumption
    | with_reducible apply State.judgePages_keeps
    | with_reducible apply State.engWrite_keeps
    | with_reducible apply State.makePending_keeps
    | with_reducible apply State.updTicket_keeps
    | with_reducible apply Keeps.foldl
    | (intro)

theorem State.foldStep_keeps {s t : State} {r : ArrRun} {d : Started} {tk : TicketSt} {x4 : Tile} {fault : List (Nat × Nat)} (h : Keeps s t) : Keeps s (State.foldStep t r d tk x4 fault) := by
  unfold State.foldStep
  repeat' first
    | with_reducible assumption
    | with_reducible apply State.writeOut_keeps
    | with_reducible apply State.updTicket_keeps
    | with_reducible apply State.arrEvents_keeps
    | with_reducible apply State.setRun_keeps
    | with_reducible apply State.finishRun_keeps
    | simp only [Keeps.rest_iff, Keeps.clk_iff]
    | split

theorem execTileFold_keeps {s u : State} {cell : Nat} {tile : Nat} {fault : List (Nat × Nat)} {bad : Bool} {corr : Nat} {ecc : EccFinds} (e : execTileFold cell tile fault bad corr ecc s = .next u) : Keeps s u := by
  unfold execTileFold at e
  injection e with e
  subst e
  try dsimp -zeta only
  repeat' first
    | with_reducible assumption
    | with_reducible exact Keeps.refl _
    | with_reducible rfl
    | with_reducible apply State.eccAll_keeps
    | with_reducible apply State.corrected_keeps
    | with_reducible apply State.storeError_keeps
    | with_reducible apply State.foldStep_keeps
    | (extract_lets +onlyGivenNames x; first
        | (refine Keeps.cut (s := s) (x := x) (fun hx => ?_) ?_; clear_value x; revert x; intro y hy; rotate_left; unfold x; clear x)
        | (refine Keeps.cut1 (s := s) (x := x) (fun hx => ?_) ?_; clear_value x; revert x; intro y hy; rotate_left; unfold x; clear x)
        | (refine Keeps.cut2 (s := s) (x := x) (fun hx => ?_) ?_; clear_value x; revert x; intro y hy; rotate_left; unfold x; clear x)
        | (revert x; intro y))
    | simp only [Keeps.rest_iff, Keeps.clk_iff]
    | with_reducible apply Keeps.foldl
    | with_reducible apply Keeps.foldl_fst
    | (refine Keeps.of_fst ‹_ = _› ?_)
    | (refine Keeps.of_snd ‹_ = _› ?_)
    | split
    | (intro)

theorem execPrefetchStart_keeps {s u : State}  (e : execPrefetchStart s = .next u) : Keeps s u := by
  unfold execPrefetchStart at e
  injection e with e
  subst e
  repeat' first
    | with_reducible exact Keeps.refl _
    | with_reducible apply State.clockCells_keeps
    | simp only [Keeps.rest_iff, Keeps.clk_iff]
    | split

theorem execFenceClearWrite_keeps {s u : State} {block : Option Nat} {value : Word} (e : execFenceClearWrite block value s = .next u) : Keeps s u := by
  unfold execFenceClearWrite at e
  injection e with e
  subst e
  repeat' first
    | with_reducible exact Keeps.refl _
    | with_reducible rfl
    | simp only [Keeps.rest_iff, Keeps.clk_iff]
    | split

end Sys2Proof.Machine
end

