-- ==== Sys2Proof/Laws/KeepsReduce.lean ====
section
/-!
SUPPORT. What the operations of Machine/Reduce.lean keep (Safety.lean).
-/
namespace Sys2Proof.Machine

open Sys2Proof

theorem State.rankRead_keeps {s t : State} {c : Ctx} {addr : Nat} {n : Nat} (h : Keeps s t) : Keeps s (State.rankRead t c addr n).1 := by
  unfold State.rankRead
  repeat' first
    | with_reducible assumption
    | with_reducible apply State.unmapped_keeps
    | with_reducible apply Keeps.foldChecks
    | with_reducible apply State.tagReadPage_keeps
    | with_reducible apply State.poisonCheck_keeps
    | (refine Keeps.of_fst ‹_ = _› ?_)
    | split
    | (intro)

theorem State.redReads_keeps {s t : State} {c : Ctx} {x : RedP} (h : Keeps s t) : Keeps s (State.redReads t c x).1 := by
  unfold State.redReads
  repeat' first
    | with_reducible assumption
    | with_reducible apply State.rankRead_keeps
    | (refine Keeps.of_fst ‹_ = _› ?_)
    | split
    | (intro)

theorem State.updRank_keeps {s t : State} {n : Nat} {seq : Nat} {f : RankRun → RankRun} (h : Keeps s t) : Keeps s (State.updRank t n seq f) := by
  unfold State.updRank
  repeat' first
    | with_reducible assumption
    | with_reducible rfl
    | simp only [Keeps.rest_iff, Keeps.clk_iff]

theorem State.toHome_keeps {s t : State} {k : RankRun} {kind : Nat} {vc : Nat} {rest : List Byte} (h : Keeps s t) : Keeps s (State.toHome t k kind vc rest) := by
  unfold State.toHome
  repeat' first
    | with_reducible assumption
    | with_reducible apply State.send_keeps

theorem State.noteSend_keeps {s t : State} {r : Nat} {ts : List Nat} (h : Keeps s t) : Keeps s (State.noteSend t r ts) := by
  unfold State.noteSend
  repeat' first
    | with_reducible assumption
    | with_reducible apply State.updTicket_keeps
    | with_reducible apply Keeps.foldl
    | (intro)

theorem State.rankRetract_keeps {s t : State} {k : RankRun} {x2 : Nat} (h : Keeps s t) : Keeps s (State.rankRetract t k x2) := by
  unfold State.rankRetract
  repeat' first
    | with_reducible assumption
    | with_reducible apply State.updRank_keeps
    | with_reducible apply State.toHome_keeps

theorem State.sendExp_keeps {s t : State} {k : RankRun} {dead : Option Int} (h : Keeps s t) : Keeps s (State.sendExp t k dead) := by
  unfold State.sendExp
  repeat' first
    | with_reducible assumption
    | with_reducible apply State.rankRetract_keeps
    | with_reducible apply State.toHome_keeps
    | with_reducible apply State.noteSend_keeps
    | (extract_lets +onlyGivenNames x; first
        | (revert x; intro y))
    | split

theorem State.finishRank_keeps {s t : State} {k : RankRun} {d : Done} (h : Keeps s t) : Keeps s (State.finishRank t k d) := by
  unfold State.finishRank
  repeat' first
    | with_reducible assumption
    | with_reducible apply State.setDone_keeps
    | with_reducible apply State.endRank_keeps

theorem State.rankRead1_keeps {s t : State} {k : RankRun} {dead : Option Int} (h : Keeps s t) : Keeps s (State.rankRead1 t k dead) := by
  unfold State.rankRead1
  repeat' first
    | with_reducible assumption
    | with_reducible apply State.redReads_keeps
    | with_reducible apply State.finishRank_keeps
    | with_reducible apply State.bump_keeps
    | with_reducible apply State.updRank_keeps
    | with_reducible apply State.sendExp_keeps
    | (extract_lets +onlyGivenNames x; first
        | (revert x; intro y))
    | split

theorem execReduce_keeps {s u : State} {n : Nat} {seq : Nat} {ecc : EccFinds} (e : execReduce n seq ecc s = .next u) : Keeps s u := by
  unfold execReduce at e
  injection e with e
  subst e
  try dsimp -zeta only
  repeat' first
    | with_reducible assumption
    | with_reducible exact Keeps.refl _
    | with_reducible rfl
    | with_reducible apply State.eccAll_keeps
    | with_reducible apply State.rankRead1_keeps
    | with_reducible apply State.updStarted_keeps
    | (extract_lets +onlyGivenNames x; first
        | (refine Keeps.cut (s := s) (x := x) (fun hx => ?_) ?_; clear_value x; revert x; intro y hy; rotate_left; unfold x; clear x)
        | (refine Keeps.cut1 (s := s) (x := x) (fun hx => ?_) ?_; clear_value x; revert x; intro y hy; rotate_left; unfold x; clear x)
        | (refine Keeps.cut2 (s := s) (x := x) (fun hx => ?_) ?_; clear_value x; revert x; intro y hy; rotate_left; unfold x; clear x)
        | (revert x; intro y))
    | simp only [Keeps.rest_iff, Keeps.clk_iff]
    | with_reducible apply Keeps.foldl
    | with_reducible apply Keeps.foldl_fst
    | (refine Keeps.of_fst ‹_ = _› ?_)
    | (refine Keeps.of_snd ‹_ = _› ?_)
    | split
    | (intro)

theorem State.staleRed_keeps {s t : State} {x1 : Nat} (h : Keeps s t) : Keeps s (State.staleRed t x1) := by
  unfold State.staleRed
  repeat' first
    | with_reducible assumption
    | with_reducible apply State.bump_keeps

theorem State.atRank_keeps {s t : State} {kind : Nat} {k : Packet} {f : State → RankRun → State} {ended : State → RankRun → State} (h : Keeps s t) (hf : ∀ z y0, Keeps s z → Keeps s (f z y0)) (hended : ∀ z y0, Keeps s z → Keeps s (ended z y0)) : Keeps s (State.atRank t kind k f ended) := by
  unfold State.atRank
  repeat' first
    | with_reducible assumption
    | apply hf
    | apply hended
    | refine State.take_keeps ?_ ‹_›
    | with_reducible apply State.dropStale_keeps
    | with_reducible apply State.staleRed_keeps
    | split

theorem lateRank_keeps {s t : State} {q : RankRun} (h : Keeps s t) : Keeps s (lateRank t q) := by
  unfold lateRank
  repeat' first
    | with_reducible assumption
    | with_reducible apply State.staleRed_keeps

theorem execBusy_keeps {s u : State} {pkt : Packet} (e : execBusy pkt s = .next u) : Keeps s u := by
  unfold execBusy at e
  injection e with e
  subst e
  repeat' first
    | with_reducible exact Keeps.refl _
    | with_reducible apply State.atRank_keeps
    | with_reducible apply State.updRank_keeps
    | with_reducible apply lateRank_keeps
    | (intro)

theorem execExpRetryTimer_keeps {s u : State} {n : Nat} {seq : Nat} (e : execExpRetryTimer n seq s = .next u) : Keeps s u := by
  unfold execExpRetryTimer at e
  injection e with e
  subst e
  try dsimp -zeta only
  repeat' first
    | with_reducible assumption
    | with_reducible exact Keeps.refl _
    | with_reducible rfl
    | with_reducible apply State.updRank_keeps
    | with_reducible apply State.reach_keeps
    | with_reducible apply State.sendExp_keeps
    | (extract_lets +onlyGivenNames x; first
        | (refine Keeps.cut (s := s) (x := x) (fun hx => ?_) ?_; clear_value x; revert x; intro y hy; rotate_left; unfold x; clear x)
        | (refine Keeps.cut1 (s := s) (x := x) (fun hx => ?_) ?_; clear_value x; revert x; intro y hy; rotate_left; unfold x; clear x)
        | (refine Keeps.cut2 (s := s) (x := x) (fun hx => ?_) ?_; clear_value x; revert x; intro y hy; rotate_left; unfold x; clear x)
        | (revert x; intro y))
    | simp only [Keeps.rest_iff, Keeps.clk_iff]
    | with_reducible apply Keeps.foldl
    | with_reducible apply Keeps.foldl_fst
    | (refine Keeps.of_fst ‹_ = _› ?_)
    | (refine Keeps.of_snd ‹_ = _› ?_)
    | split
    | (intro)

theorem State.contribute_keeps {s t : State} {q : RankRun} {E : Int} (h : Keeps s t) : Keeps s (State.contribute t q E) := by
  unfold State.contribute
  repeat' first
    | with_reducible assumption
    | with_reducible apply State.awareWrites_keeps
    | with_reducible apply State.finishRank_keeps
    | with_reducible apply State.noteSend_keeps
    | with_reducible apply State.updRank_keeps
    | with_reducible apply State.evCount_keeps
    | with_reducible apply State.rankRetract_keeps
    | with_reducible apply State.toHome_keeps
    | (extract_lets +onlyGivenNames x; first
        | (refine Keeps.cut1 (s := s) (x := x) (fun hx => ?_) ?_; clear_value x; revert x; intro y hy; rotate_left; unfold x; clear x)
        | (revert x; intro y))
    | with_reducible apply Keeps.foldl
    | split
    | (intro)

theorem execGrant_keeps {s u : State} {pkt : Packet} {ecc : EccFinds} (e : execGrant pkt ecc s = .next u) : Keeps s u := by
  unfold execGrant at e
  injection e with e
  subst e
  try dsimp -zeta only
  repeat' first
    | with_reducible assumption
    | with_reducible exact Keeps.refl _
    | with_reducible rfl
    | with_reducible apply State.eccAll_keeps
    | with_reducible apply State.atRank_keeps
    | with_reducible apply State.staleRed_keeps
    | with_reducible apply State.bump_keeps
    | with_reducible apply State.contribute_keeps
    | with_reducible apply State.updRank_keeps
    | with_reducible apply lateRank_keeps
    | (extract_lets +onlyGivenNames x; first
        | (refine Keeps.cut (s := s) (x := x) (fun hx => ?_) ?_; clear_value x; revert x; intro y hy; rotate_left; unfold x; clear x)
        | (refine Keeps.cut1 (s := s) (x := x) (fun hx => ?_) ?_; clear_value x; revert x; intro y hy; rotate_left; unfold x; clear x)
        | (refine Keeps.cut2 (s := s) (x := x) (fun hx => ?_) ?_; clear_value x; revert x; intro y hy; rotate_left; unfold x; clear x)
        | (revert x; intro y))
    | simp only [Keeps.rest_iff, Keeps.clk_iff]
    | with_reducible apply Keeps.foldl
    | with_reducible apply Keeps.foldl_fst
    | (refine Keeps.of_fst ‹_ = _› ?_)
    | (refine Keeps.of_snd ‹_ = _› ?_)
    | split
    | (intro)

theorem State.finalResult_keeps {s t : State} {q : RankRun} {x2 : HeldRes} (h : Keeps s t) : Keeps s (State.finalResult t q x2) := by
  unfold State.finalResult
  repeat' first
    | with_reducible assumption
    | with_reducible apply Keeps.foldChecks
    | with_reducible apply State.awareWrites_keeps
    | with_reducible apply State.finishRank_keeps
    | with_reducible apply State.updRank_keeps
    | (extract_lets +onlyGivenNames x; first
        | (revert x; intro y))
    | split
    | (intro)

theorem execResult_keeps {s u : State} {pkt : Packet} (e : execResult pkt s = .next u) : Keeps s u := by
  unfold execResult at e
  injection e with e
  subst e
  try dsimp -zeta only
  repeat' first
    | with_reducible assumption
    | with_reducible exact Keeps.refl _
    | with_reducible rfl
    | with_reducible apply State.atRank_keeps
    | with_reducible apply State.staleRed_keeps
    | with_reducible apply State.updRank_keeps
    | with_reducible apply State.finalResult_keeps
    | with_reducible apply lateRank_keeps
    | (extract_lets +onlyGivenNames x; first
        | (refine Keeps.cut (s := s) (x := x) (fun hx => ?_) ?_; clear_value x; revert x; intro y hy; rotate_left; unfold x; clear x)
        | (refine Keeps.cut1 (s := s) (x := x) (fun hx => ?_) ?_; clear_value x; revert x; intro y hy; rotate_left; unfold x; clear x)
        | (refine Keeps.cut2 (s := s) (x := x) (fun hx => ?_) ?_; clear_value x; revert x; intro y hy; rotate_left; unfold x; clear x)
        | (revert x; intro y))
    | simp only [Keeps.rest_iff, Keeps.clk_iff]
    | with_reducible apply Keeps.foldl
    | with_reducible apply Keeps.foldl_fst
    | (refine Keeps.of_fst ‹_ = _› ?_)
    | (refine Keeps.of_snd ‹_ = _› ?_)
    | split
    | (intro)

theorem execAbort_keeps {s u : State} {pkt : Packet} (e : execAbort pkt s = .next u) : Keeps s u := by
  unfold execAbort at e
  injection e with e
  subst e
  repeat' first
    | with_reducible assumption
    | with_reducible exact Keeps.refl _
    | with_reducible apply State.atRank_keeps
    | with_reducible apply State.finishRank_keeps
    | with_reducible apply lateRank_keeps
    | (extract_lets +onlyGivenNames x; first
        | (revert x; intro y))
    | split
    | (intro)

theorem execResultConfirm_keeps {s u : State} {pkt : Packet} (e : execResultConfirm pkt s = .next u) : Keeps s u := by
  unfold execResultConfirm at e
  injection e with e
  subst e
  repeat' first
    | with_reducible exact Keeps.refl _
    | with_reducible apply State.atRank_keeps
    | with_reducible apply State.staleRed_keeps
    | with_reducible apply State.finalResult_keeps
    | with_reducible apply State.updRank_keeps
    | with_reducible apply lateRank_keeps
    | split
    | (intro)

theorem execResultRetract_keeps {s u : State} {pkt : Packet} (e : execResultRetract pkt s = .next u) : Keeps s u := by
  unfold execResultRetract at e
  injection e with e
  subst e
  repeat' first
    | with_reducible exact Keeps.refl _
    | with_reducible apply State.atRank_keeps
    | with_reducible apply State.staleRed_keeps
    | with_reducible apply State.updRank_keeps
    | with_reducible apply State.report_keeps
    | split
    | (intro)

theorem execResultSteepExpire_keeps {s u : State} {n : Nat} {seq : Nat} (e : execResultSteepExpire n seq s = .next u) : Keeps s u := by
  unfold execResultSteepExpire at e
  injection e with e
  subst e
  repeat' first
    | with_reducible exact Keeps.refl _
    | with_reducible apply State.reach_keeps
    | with_reducible apply State.bump_keeps
    | with_reducible apply State.report_keeps
    | with_reducible apply State.finishRank_keeps
    | split

theorem State.rankPageConfirmed_keeps {s t : State} {page : Nat} {x2 : Nat} (h : Keeps s t) : Keeps s (State.rankPageConfirmed t page x2) := by
  unfold State.rankPageConfirmed
  repeat' first
    | with_reducible assumption
    | with_reducible apply State.updRank_keeps
    | with_reducible apply State.toHome_keeps
    | simp only [Keeps.rest_iff, Keeps.clk_iff]
    | with_reducible apply Keeps.foldl
    | split
    | (intro)

theorem State.rankFence_keeps {s t : State} {r : Nat} {x2 : Nat} (h : Keeps s t) : Keeps s (State.rankFence t r x2) := by
  unfold State.rankFence
  repeat' first
    | with_reducible assumption
    | with_reducible apply State.rankRetract_keeps
    | with_reducible apply Keeps.foldl
    | split
    | (intro)

theorem State.rankSettled_keeps {s t : State} {x1 : Nat} (h : Keeps s t) : Keeps s (State.rankSettled t x1) := by
  unfold State.rankSettled
  repeat' first
    | with_reducible assumption
    | with_reducible apply State.rankRead1_keeps
    | with_reducible apply Keeps.foldl
    | split
    | (intro)

theorem digestClose_keeps {s t : State} {d : Started} (h : Keeps s t) : Keeps s (digestClose t d) := by
  unfold digestClose
  repeat' first
    | with_reducible assumption
    | with_reducible apply State.rankRead_keeps
    | with_reducible apply State.setDone_keeps
    | with_reducible apply State.gwrite_keeps
    | with_reducible apply State.awareWrites_keeps
    | (extract_lets +onlyGivenNames x; first
        | (refine Keeps.cut1 (s := s) (x := x) (fun hx => ?_) ?_; clear_value x; revert x; intro y hy; rotate_left; unfold x; clear x)
        | (revert x; intro y))
    | split

theorem execDigestClose_keeps {s u : State} {n : Nat} {seq : Nat} {ecc : EccFinds} (e : execDigestClose n seq ecc s = .next u) : Keeps s u := by
  unfold execDigestClose at e
  injection e with e
  subst e
  try dsimp -zeta only
  repeat' first
    | with_reducible assumption
    | with_reducible exact Keeps.refl _
    | with_reducible rfl
    | with_reducible apply State.eccAll_keeps
    | with_reducible apply digestClose_keeps
    | (extract_lets +onlyGivenNames x; first
        | (refine Keeps.cut (s := s) (x := x) (fun hx => ?_) ?_; clear_value x; revert x; intro y hy; rotate_left; unfold x; clear x)
        | (refine Keeps.cut1 (s := s) (x := x) (fun hx => ?_) ?_; clear_value x; revert x; intro y hy; rotate_left; unfold x; clear x)
        | (refine Keeps.cut2 (s := s) (x := x) (fun hx => ?_) ?_; clear_value x; revert x; intro y hy; rotate_left; unfold x; clear x)
        | (revert x; intro y))
    | simp only [Keeps.rest_iff, Keeps.clk_iff]
    | with_reducible apply Keeps.foldl
    | with_reducible apply Keeps.foldl_fst
    | (refine Keeps.of_fst ‹_ = _› ?_)
    | (refine Keeps.of_snd ‹_ = _› ?_)
    | split
    | (intro)

end Sys2Proof.Machine
end

