-- ==== Sys2Proof/Laws/KeepsReduceHome.lean ====
section
/-!
SUPPORT. What the operations of Machine/ReduceHome.lean keep (Safety.lean).
-/
namespace Sys2Proof.Machine

open Sys2Proof

theorem State.putHome_keeps {s t : State} {x1 : HomeBucket} (h : Keeps s t) : Keeps s (State.putHome t x1) := by
  unfold State.putHome
  repeat' first
    | with_reducible assumption
    | with_reducible rfl
    | simp only [Keeps.rest_iff, Keeps.clk_iff]

theorem State.dropHome_keeps {s t : State} {x1 : HomeBucket} (h : Keeps s t) : Keeps s (State.dropHome t x1) := by
  unfold State.dropHome
  repeat' first
    | with_reducible assumption
    | with_reducible rfl
    | simp only [Keeps.rest_iff, Keeps.clk_iff]

theorem State.issueTok_keeps {s t : State} {x1 : Nat} {n : Nat} (h : Keeps s t) : Keeps s (State.issueTok t x1 n) := by
  unfold State.issueTok
  repeat' first
    | with_reducible assumption
    | with_reducible apply State.count_keeps

theorem State.returnTok_keeps {s t : State} {x1 : Nat} {n : Nat} (h : Keeps s t) : Keeps s (State.returnTok t x1 n) := by
  unfold State.returnTok
  repeat' first
    | with_reducible assumption
    | with_reducible apply State.count_keeps

theorem State.toRank_keeps {s t : State} {x1 : HomeBucket} {r : HomeRank} {kind : Nat} {vc : Nat} {ver : Nat} {flags : Nat} {rest : List Byte} (h : Keeps s t) : Keeps s (State.toRank t x1 r kind vc ver flags rest) := by
  unfold State.toRank
  repeat' first
    | with_reducible assumption
    | with_reducible apply State.send_keeps

theorem State.toRanks_keeps {s t : State} {x1 : HomeBucket} {kind : Nat} {vc : Nat} {ver : Nat} {flags : Nat} {rest : List Byte} (h : Keeps s t) : Keeps s (State.toRanks t x1 kind vc ver flags rest) := by
  unfold State.toRanks
  repeat' first
    | with_reducible assumption
    | with_reducible apply State.toRank_keeps
    | with_reducible apply Keeps.foldl
    | (intro)

theorem State.abortHome_keeps {s t : State} {x1 : HomeBucket} {reason : Nat} {laggard : Nat} (h : Keeps s t) : Keeps s (State.abortHome t x1 reason laggard) := by
  unfold State.abortHome
  repeat' first
    | with_reducible assumption
    | with_reducible apply State.dropHome_keeps
    | with_reducible apply State.returnTok_keeps
    | with_reducible apply State.toRanks_keeps

theorem State.sendResult_keeps {s t : State} {x1 : HomeBucket} {unconf : Bool} (h : Keeps s t) : Keeps s (State.sendResult t x1 unconf) := by
  unfold State.sendResult
  repeat' first
    | with_reducible assumption
    | with_reducible apply State.toRanks_keeps
    | with_reducible apply Keeps.foldl
    | (intro)

theorem State.concludeHome_keeps {s t : State} {x1 : HomeBucket} (h : Keeps s t) : Keeps s (State.concludeHome t x1) := by
  unfold State.concludeHome
  repeat' first
    | with_reducible assumption
    | with_reducible apply State.putHome_keeps
    | with_reducible apply State.toRanks_keeps
    | with_reducible apply State.report_keeps
    | with_reducible apply State.bump_keeps
    | with_reducible apply State.sendResult_keeps
    | split

theorem State.consume_keeps {s t : State} {x1 : HomeBucket} {r : HomeRank} {c : Nat} {pay : List Byte} (h : Keeps s t) : Keeps s (State.consume t x1 r c pay).1 := by
  unfold State.consume
  repeat' first
    | with_reducible assumption
    | with_reducible apply State.evCount_keeps
    | with_reducible apply State.returnTok_keeps

theorem State.consumeAll_keeps {s t : State} {x1 : HomeBucket} {x2 : Nat} (h : Keeps s t) : Keeps s (State.consumeAll t x1 x2).1 := by
  induction x2 generalizing t x1 with
  | zero =>
    unfold State.consumeAll
    repeat' first
      | with_reducible assumption
      | with_reducible apply State.consume_keeps
  
  | succ n ih =>
    unfold State.consumeAll
    repeat' first
      | apply ih
      | with_reducible assumption
      | with_reducible apply State.consume_keeps
      | split

theorem State.retractVersion_keeps {s t : State} {x1 : HomeBucket} {r : HomeRank} (h : Keeps s t) : Keeps s (State.retractVersion t x1 r).1 := by
  unfold State.retractVersion
  repeat' first
    | with_reducible assumption
    | with_reducible apply State.bump_keeps
    | with_reducible apply State.toRanks_keeps
    | with_reducible apply State.returnTok_keeps
    | split

theorem State.restartHome_keeps {s t : State} {x1 : HomeBucket} (h : Keeps s t) : Keeps s (State.restartHome t x1).1 := by
  unfold State.restartHome
  repeat' first
    | with_reducible assumption
    | with_reducible apply State.returnTok_keeps

theorem State.atHome_keeps {s t : State} {kind : Nat} {k : Packet} {f : State → State} (h : Keeps s t) (hf : ∀ z, Keeps s z → Keeps s (f z)) : Keeps s (State.atHome t kind k f) := by
  unfold State.atHome
  repeat' first
    | with_reducible assumption
    | apply hf
    | refine State.take_keeps ?_ ‹_›
    | refine State.take_keeps ?_ (ite_some ‹_›)
    | split

theorem State.forRank_keeps {s t : State} {k : Packet} {absent : State → State} {f : State → HomeBucket → HomeRank → State} (h : Keeps s t) (habsent : ∀ z, Keeps s z → Keeps s (absent z)) (hf : ∀ z y0 y1, Keeps s z → Keeps s (f z y0 y1)) : Keeps s (State.forRank t k absent f) := by
  unfold State.forRank
  try dsimp -zeta only
  repeat' first
    | with_reducible assumption
    | with_reducible exact Keeps.refl _
    | with_reducible rfl
    | apply habsent
    | apply hf
    | with_reducible apply State.dropStale_keeps
    | (extract_lets +onlyGivenNames x; first
        | (refine Keeps.cut (s := s) (x := x) (fun hx => ?_) ?_; clear_value x; revert x; intro y hy; rotate_left; unfold x; clear x)
        | (refine Keeps.cut1 (s := s) (x := x) (fun hx => ?_) ?_; clear_value x; revert x; intro y hy; rotate_left; unfold x; clear x)
        | (refine Keeps.cut2 (s := s) (x := x) (fun hx => ?_) ?_; clear_value x; revert x; intro y hy; rotate_left; unfold x; clear x)
        | (revert x; intro y))
    | simp only [Keeps.rest_iff, Keeps.clk_iff]
    | with_reducible apply Keeps.foldl
    | with_reducible apply Keeps.foldl_fst
    | (refine Keeps.of_fst ‹_ = _› ?_)
    | (refine Keeps.of_snd ‹_ = _› ?_)
    | split
    | (intro)

theorem State.takeEarly_keeps {s t : State} {x1 : HomeBucket} {k : Packet} (h : Keeps s t) : Keeps s (State.takeEarly t x1 k).1 := by
  unfold State.takeEarly
  try dsimp -zeta only
  repeat' first
    | with_reducible assumption
    | with_reducible exact Keeps.refl _
    | with_reducible rfl
    | with_reducible apply State.bump_keeps
    | (extract_lets +onlyGivenNames x; first
        | (refine Keeps.cut (s := s) (x := x) (fun hx => ?_) ?_; clear_value x; revert x; intro y hy; rotate_left; unfold x; clear x)
        | (refine Keeps.cut1 (s := s) (x := x) (fun hx => ?_) ?_; clear_value x; revert x; intro y hy; rotate_left; unfold x; clear x)
        | (refine Keeps.cut2 (s := s) (x := x) (fun hx => ?_) ?_; clear_value x; revert x; intro y hy; rotate_left; unfold x; clear x)
        | (revert x; intro y))
    | simp only [Keeps.rest_iff, Keeps.clk_iff]
    | with_reducible apply Keeps.foldl
    | with_reducible apply Keeps.foldl_fst
    | (refine Keeps.of_fst ‹_ = _› ?_)
    | (refine Keeps.of_snd ‹_ = _› ?_)
    | split
    | (intro)

theorem State.recordExp_keeps {s t : State} {x1 : HomeBucket} {k : Packet} (h : Keeps s t) : Keeps s (State.recordExp t x1 k) := by
  unfold State.recordExp
  try dsimp -zeta only
  repeat' first
    | with_reducible assumption
    | with_reducible exact Keeps.refl _
    | with_reducible rfl
    | with_reducible apply State.takeEarly_keeps
    | with_reducible apply State.concludeHome_keeps
    | with_reducible apply State.staleRed_keeps
    | with_reducible apply State.retractVersion_keeps
    | with_reducible apply State.restartHome_keeps
    | with_reducible apply State.putHome_keeps
    | (extract_lets +onlyGivenNames x; first
        | (refine Keeps.cut (s := s) (x := x) (fun hx => ?_) ?_; clear_value x; revert x; intro y hy; rotate_left; unfold x; clear x)
        | (refine Keeps.cut1 (s := s) (x := x) (fun hx => ?_) ?_; clear_value x; revert x; intro y hy; rotate_left; unfold x; clear x)
        | (refine Keeps.cut2 (s := s) (x := x) (fun hx => ?_) ?_; clear_value x; revert x; intro y hy; rotate_left; unfold x; clear x)
        | (revert x; intro y))
    | simp only [Keeps.rest_iff, Keeps.clk_iff]
    | with_reducible apply Keeps.foldl
    | with_reducible apply Keeps.foldl_fst
    | (refine Keeps.of_fst ‹_ = _› ?_)
    | (refine Keeps.of_snd ‹_ = _› ?_)
    | split
    | (intro)

theorem execExp_keeps {s u : State} {pkt : Packet} (e : execExp pkt s = .next u) : Keeps s u := by
  unfold execExp at e
  injection e with e
  subst e
  repeat' first
    | with_reducible assumption
    | with_reducible exact Keeps.refl _
    | with_reducible apply State.atHome_keeps
    | with_reducible apply State.toRank_keeps
    | with_reducible apply State.report_keeps
    | with_reducible apply State.abortHome_keeps
    | with_reducible apply State.recordExp_keeps
    | with_reducible apply State.bump_keeps
    | simp only [Keeps.rest_iff, Keeps.clk_iff]
    | split
    | (intro)

theorem execGrantSend_keeps {s u : State} {x0 : Nat} {coll : Nat} {step : Nat} {bucket : Nat} (e : execGrantSend x0 coll step bucket s = .next u) : Keeps s u := by
  unfold execGrantSend at e
  injection e with e
  subst e
  repeat' first
    | with_reducible exact Keeps.refl _
    | with_reducible apply State.toRank_keeps
    | with_reducible apply State.issueTok_keeps
    | with_reducible apply State.putHome_keeps
    | split

theorem execContrib_keeps {s u : State} {pkt : Packet} (e : execContrib pkt s = .next u) : Keeps s u := by
  unfold execContrib at e
  injection e with e
  subst e
  try dsimp -zeta only
  repeat' first
    | with_reducible assumption
    | with_reducible exact Keeps.refl _
    | with_reducible rfl
    | with_reducible apply State.atHome_keeps
    | with_reducible apply State.forRank_keeps
    | with_reducible apply State.staleRed_keeps
    | with_reducible apply State.putHome_keeps
    | with_reducible apply State.report_keeps
    | with_reducible apply State.consumeAll_keeps
    | with_reducible apply State.concludeHome_keeps
    | (extract_lets +onlyGivenNames x; first
        | (refine Keeps.cut (s := s) (x := x) (fun hx => ?_) ?_; clear_value x; revert x; intro y hy; rotate_left; unfold x; clear x)
        | (refine Keeps.cut1 (s := s) (x := x) (fun hx => ?_) ?_; clear_value x; revert x; intro y hy; rotate_left; unfold x; clear x)
        | (refine Keeps.cut2 (s := s) (x := x) (fun hx => ?_) ?_; clear_value x; revert x; intro y hy; rotate_left; unfold x; clear x)
        | (revert x; intro y))
    | simp only [Keeps.rest_iff, Keeps.clk_iff]
    | with_reducible apply Keeps.foldl
    | with_reducible apply Keeps.foldl_fst
    | (refine Keeps.of_fst ‹_ = _› ?_)
    | (refine Keeps.of_snd ‹_ = _› ?_)
    | split
    | (intro)

theorem execHomeDeadlineExpire_keeps {s u : State} {x0 : Nat} {coll : Nat} {step : Nat} {bucket : Nat} (e : execHomeDeadlineExpire x0 coll step bucket s = .next u) : Keeps s u := by
  unfold execHomeDeadlineExpire at e
  injection e with e
  subst e
  repeat' first
    | with_reducible exact Keeps.refl _
    | with_reducible apply State.reachNs_keeps
    | with_reducible apply State.report_keeps
    | with_reducible apply State.abortHome_keeps
    | (extract_lets +onlyGivenNames x; first
        | (revert x; intro y))
    | split

theorem State.keepEarly_keeps {s t : State} {k : Packet} (h : Keeps s t) : Keeps s (State.keepEarly t k) := by
  unfold State.keepEarly
  repeat' first
    | with_reducible assumption
    | with_reducible rfl
    | simp only [Keeps.rest_iff, Keeps.clk_iff]

theorem execConfirm_keeps {s u : State} {pkt : Packet} (e : execConfirm pkt s = .next u) : Keeps s u := by
  unfold execConfirm at e
  injection e with e
  subst e
  try dsimp -zeta only
  repeat' first
    | with_reducible assumption
    | with_reducible exact Keeps.refl _
    | with_reducible rfl
    | with_reducible apply State.atHome_keeps
    | with_reducible apply State.forRank_keeps
    | with_reducible apply State.keepEarly_keeps
    | with_reducible apply State.staleRed_keeps
    | with_reducible apply State.concludeHome_keeps
    | (extract_lets +onlyGivenNames x; first
        | (refine Keeps.cut (s := s) (x := x) (fun hx => ?_) ?_; clear_value x; revert x; intro y hy; rotate_left; unfold x; clear x)
        | (refine Keeps.cut1 (s := s) (x := x) (fun hx => ?_) ?_; clear_value x; revert x; intro y hy; rotate_left; unfold x; clear x)
        | (refine Keeps.cut2 (s := s) (x := x) (fun hx => ?_) ?_; clear_value x; revert x; intro y hy; rotate_left; unfold x; clear x)
        | (revert x; intro y))
    | simp only [Keeps.rest_iff, Keeps.clk_iff]
    | with_reducible apply Keeps.foldl
    | with_reducible apply Keeps.foldl_fst
    | (refine Keeps.of_fst ‹_ = _› ?_)
    | (refine Keeps.of_snd ‹_ = _› ?_)
    | split
    | (intro)

theorem execRetract_keeps {s u : State} {pkt : Packet} (e : execRetract pkt s = .next u) : Keeps s u := by
  unfold execRetract at e
  injection e with e
  subst e
  try dsimp -zeta only
  repeat' first
    | with_reducible assumption
    | with_reducible exact Keeps.refl _
    | with_reducible rfl
    | with_reducible apply State.atHome_keeps
    | with_reducible apply State.forRank_keeps
    | with_reducible apply State.keepEarly_keeps
    | with_reducible apply State.staleRed_keeps
    | with_reducible apply State.report_keeps
    | with_reducible apply State.retractVersion_keeps
    | with_reducible apply State.putHome_keeps
    | (extract_lets +onlyGivenNames x; first
        | (refine Keeps.cut (s := s) (x := x) (fun hx => ?_) ?_; clear_value x; revert x; intro y hy; rotate_left; unfold x; clear x)
        | (refine Keeps.cut1 (s := s) (x := x) (fun hx => ?_) ?_; clear_value x; revert x; intro y hy; rotate_left; unfold x; clear x)
        | (refine Keeps.cut2 (s := s) (x := x) (fun hx => ?_) ?_; clear_value x; revert x; intro y hy; rotate_left; unfold x; clear x)
        | (revert x; intro y))
    | simp only [Keeps.rest_iff, Keeps.clk_iff]
    | with_reducible apply Keeps.foldl
    | with_reducible apply Keeps.foldl_fst
    | (refine Keeps.of_fst ‹_ = _› ?_)
    | (refine Keeps.of_snd ‹_ = _› ?_)
    | split
    | (intro)

theorem execJournalSteepExpire_keeps {s u : State} {x0 : Nat} {coll : Nat} {step : Nat} {bucket : Nat} {rank : Nat} (e : execJournalSteepExpire x0 coll step bucket rank s = .next u) : Keeps s u := by
  unfold execJournalSteepExpire at e
  injection e with e
  subst e
  repeat' first
    | with_reducible exact Keeps.refl _
    | with_reducible apply State.reach_keeps
    | with_reducible apply State.retractVersion_keeps
    | with_reducible apply State.bump_keeps
    | with_reducible apply State.report_keeps
    | with_reducible apply State.putHome_keeps
    | split

theorem State.refuseHomes_keeps {s t : State} {x1 : Nat} (h : Keeps s t) : Keeps s (State.refuseHomes t x1) := by
  unfold State.refuseHomes
  repeat' first
    | with_reducible assumption
    | with_reducible apply State.abortHome_keeps
    | with_reducible apply Keeps.foldl
    | (intro)

end Sys2Proof.Machine
end

