-- ==== Sys2Proof/Laws/KeepsIntegrity.lean ====
section
/-!
SUPPORT. What the operations of Machine/Integrity.lean keep (Safety.lean).
-/
namespace Sys2Proof.Machine

open Sys2Proof

theorem State.fenceTicket_keeps {s t : State} {x1 : Nat} (h : Keeps s t) : Keeps s (State.fenceTicket t x1) := by
  unfold State.fenceTicket
  repeat' first
    | with_reducible assumption
    | with_reducible apply State.updTicket_keeps
    | with_reducible apply State.bump_keeps
    | simp only [Keeps.rest_iff, Keeps.clk_iff]
    | split

theorem State.dropFenced_keeps {s t : State} {r : Nat} {x2 : Nat} (h : Keeps s t) : Keeps s (State.dropFenced t r x2) := by
  unfold State.dropFenced
  repeat' first
    | with_reducible assumption
    | with_reducible apply State.setPort_keeps
    | with_reducible apply Keeps.foldl
    | (intro)

theorem fenceArrives_keeps {s t : State} {r : Nat} {x2 : Nat} (h : Keeps s t) : Keeps s (fenceArrives t r x2) := by
  unfold fenceArrives
  repeat' first
    | with_reducible assumption
    | with_reducible apply State.rankFence_keeps
    | with_reducible apply State.dropFenced_keeps
    | simp only [Keeps.rest_iff, Keeps.clk_iff]

theorem execFenceMessage_keeps {s u : State} {r : Nat} {ticket : Nat} (e : execFenceMessage r ticket s = .next u) : Keeps s u := by
  unfold execFenceMessage at e
  injection e with e
  subst e
  repeat' first
    | with_reducible exact Keeps.refl _
    | with_reducible apply fenceArrives_keeps
    | split

theorem execSteepFenceTimer_keeps {s u : State} {ticket : Nat} (e : execSteepFenceTimer ticket s = .next u) : Keeps s u := by
  unfold execSteepFenceTimer at e
  injection e with e
  subst e
  repeat' first
    | with_reducible exact Keeps.refl _
    | with_reducible apply State.fenceTicket_keeps
    | with_reducible apply State.reach_keeps
    | split

theorem State.sealOut_keeps {s t : State} {k : TicketSt} {page : Nat} (h : Keeps s t) : Keeps s (State.sealOut t k page) := by
  unfold State.sealOut
  repeat' first
    | with_reducible assumption
    | with_reducible apply State.sealPage_keeps
    | split

theorem State.releasePages_keeps {s t : State} {x1 : Nat} (h : Keeps s t) : Keeps s (State.releasePages t x1) := by
  unfold State.releasePages
  repeat' first
    | with_reducible assumption
    | with_reducible apply State.serveWaiting_keeps
    | with_reducible apply State.rankPageConfirmed_keeps
    | with_reducible apply State.dropPending_keeps
    | with_reducible apply State.sealOut_keeps
    | with_reducible apply Keeps.foldl
    | split
    | (intro)

theorem State.failDesc_keeps {s t : State} {n : Nat} {seq : Nat} {d : Done} (h : Keeps s t) : Keeps s (State.failDesc t n seq d) := by
  unfold State.failDesc
  repeat' first
    | with_reducible assumption
    | with_reducible apply State.updStarted_keeps

theorem State.withdrawTile_keeps {s t : State} {k : TicketSt} {f : Folded} {cls : Nat} (h : Keeps s t) : Keeps s (State.withdrawTile t k f cls) := by
  unfold State.withdrawTile
  repeat' first
    | with_reducible assumption
    | with_reducible apply State.withdrawPage_keeps
    | with_reducible apply State.updTicket_keeps
    | with_reducible apply State.dropPending_keeps
    | with_reducible apply State.failDesc_keeps
    | with_reducible apply State.endRun_keeps
    | (extract_lets +onlyGivenNames x; first
        | (refine Keeps.cut (s := s) (x := x) (fun hx => ?_) ?_; clear_value x; revert x; intro y hy; rotate_left; unfold x; clear x))
    | with_reducible apply Keeps.foldl
    | split

theorem State.standTile_keeps {s t : State} {x1 : Nat} {num : Nat} {st : Nat} (h : Keeps s t) : Keeps s (State.standTile t x1 num st) := by
  unfold State.standTile
  repeat' first
    | with_reducible assumption
    | with_reducible apply State.updTicket_keeps

theorem State.strained_keeps {s t : State} {b : List Byte} {p : List Byte} {f : Folded} {failed : Bool} {check : Bool} (h : Keeps s t) : Keeps s (State.strained t b p f failed check) := by
  unfold State.strained
  repeat' first
    | with_reducible assumption
    | with_reducible apply State.evCount_keeps
    | with_reducible apply Keeps.foldl
    | (intro)

theorem verdict_keeps {s t : State} {k : TicketSt} {f : Folded} {forced : Bool} (h : Keeps s t) : Keeps s (verdict t k f forced) := by
  unfold verdict
  repeat' first
    | with_reducible assumption
    | with_reducible apply State.bump_keeps
    | with_reducible apply State.strained_keeps
    | with_reducible apply State.releasePages_keeps
    | with_reducible apply State.standTile_keeps
    | with_reducible apply State.fenceTicket_keeps
    | (extract_lets +onlyGivenNames x; first
        | (revert x; intro y))
    | split

theorem execStrainerVerdict_keeps {s u : State} {ticket : Nat} {tile : Nat} {forced : Bool} (e : execStrainerVerdict ticket tile forced s = .next u) : Keeps s u := by
  unfold execStrainerVerdict at e
  injection e with e
  subst e
  repeat' first
    | with_reducible exact Keeps.refl _
    | with_reducible apply verdict_keeps
    | split

theorem bothSuspect_keeps {s t : State} {k : TicketSt} {f : Folded} {replay : Option Nat} (h : Keeps s t) : Keeps s (bothSuspect t k f replay) := by
  unfold bothSuspect
  repeat' first
    | with_reducible assumption
    | with_reducible apply State.withdrawTile_keeps
    | with_reducible apply State.fenceBlock_keeps
    | with_reducible apply State.report_keeps
    | with_reducible apply State.bump_keeps

theorem strainerAtFault_keeps {s t : State} {k : TicketSt} {f : Folded} {replay : Option Nat} (h : Keeps s t) : Keeps s (strainerAtFault t k f replay) := by
  unfold strainerAtFault
  repeat' first
    | with_reducible assumption
    | with_reducible apply State.report_keeps
    | with_reducible apply State.bump_keeps
    | with_reducible apply State.fenceCell_keeps
    | with_reducible apply State.putBit_keeps
    | with_reducible apply State.releasePages_keeps
    | with_reducible apply State.standTile_keeps
    | split

theorem State.rewriteTile_keeps {s t : State} {k : TicketSt} {x : TileP} {g : Folded} (h : Keeps s t) : Keeps s (State.rewriteTile t k x g) := by
  unfold State.rewriteTile
  repeat' first
    | with_reducible assumption
    | with_reducible apply State.engWrite_keeps
    | with_reducible apply Keeps.foldl
    | (intro)

theorem resultAtFault_keeps {s t : State} {k : TicketSt} {f : Folded} {g : Folded} {replay : Option Nat} (h : Keeps s t) : Keeps s (resultAtFault t k f g replay) := by
  unfold resultAtFault
  repeat' first
    | with_reducible assumption
    | with_reducible apply State.rewriteTile_keeps
    | with_reducible apply State.updTicket_keeps
    | with_reducible apply State.bump_keeps
    | with_reducible apply State.fenceCell_keeps
    | with_reducible apply State.releasePages_keeps
    | with_reducible apply State.report_keeps

theorem replay_keeps {s t : State} {k : TicketSt} {f : Folded} {forced : Bool} {fault : List (Nat × Nat)} (h : Keeps s t) : Keeps s (replay t k f forced fault) := by
  unfold replay
  split
  · exact bothSuspect_keeps h
  · rename_i c _
    extract_lets q
    have hq : Keeps s q.1 := State.awareChecks_keeps h
    split
    · exact State.withdrawTile_keeps hq
    · rename_i x g bad s1 _ _
      have h1 : Keeps s s1 := State.strained_keeps (State.recomputed_keeps hq)
      exact Keeps.ite (bothSuspect_keeps h1) (Keeps.ite (strainerAtFault_keeps h1) (resultAtFault_keeps h1))

theorem execReplayJudge_keeps {s u : State} {ticket : Nat} {forced : Bool} {fault : List (Nat × Nat)} {ecc : EccFinds} (e : execReplayJudge ticket forced fault ecc s = .next u) : Keeps s u := by
  unfold execReplayJudge at e
  injection e with e
  subst e
  try dsimp -zeta only
  repeat' first
    | with_reducible assumption
    | with_reducible exact Keeps.refl _
    | with_reducible rfl
    | with_reducible apply State.eccAll_keeps
    | with_reducible apply replay_keeps
    | (extract_lets +onlyGivenNames x; first
        | (refine Keeps.cut (s := s) (x := x) (fun hx => ?_) ?_; clear_value x; revert x; intro y hy; rotate_left; unfold x; clear x)
        | (refine Keeps.cut1 (s := s) (x := x) (fun hx => ?_) ?_; clear_value x; revert x; intro y hy; rotate_left; unfold x; clear x)
        | (refine Keeps.cut2 (s := s) (x := x) (fun hx => ?_) ?_; clear_value x; revert x; intro y hy; rotate_left; unfold x; clear x)
        | (revert x; intro y))
    | simp only [Keeps.rest_iff, Keeps.clk_iff]
    | with_reducible apply Keeps.foldl
    | with_reducible apply Keeps.foldl_fst
    | (refine Keeps.of_fst ‹_ = _› ?_)
    | (refine Keeps.of_snd ‹_ = _› ?_)
    | split
    | (intro)

theorem State.withdrawDisagreements_keeps {s t : State}  (h : Keeps s t) : Keeps s (State.withdrawDisagreements t) := by
  unfold State.withdrawDisagreements
  repeat' first
    | with_reducible assumption
    | with_reducible apply State.withdrawTile_keeps
    | with_reducible apply Keeps.foldl
    | (intro)

theorem State.rerun_keeps {s t : State} {r : ArrRun} {d : Started} {active : List Nat} (h : Keeps s t) : Keeps s (State.rerun t r d active) := by
  unfold State.rerun
  repeat' first
    | with_reducible assumption
    | with_reducible apply State.updTicket_keeps
    | with_reducible apply State.uncount_keeps
    | with_reducible apply State.setRun_keeps
    | simp only [Keeps.rest_iff, Keeps.clk_iff]

theorem State.thirdMismatch_keeps {s t : State} {r : ArrRun} {d : Started} {block : Nat} (h : Keeps s t) : Keeps s (State.thirdMismatch t r d block) := by
  unfold State.thirdMismatch
  try dsimp -zeta only
  repeat' first
    | with_reducible assumption
    | with_reducible exact Keeps.refl _
    | with_reducible rfl
    | with_reducible apply State.dropPending_keeps
    | with_reducible apply State.withdrawPage_keeps
    | with_reducible apply State.updTicket_keeps
    | with_reducible apply State.endRun_keeps
    | with_reducible apply State.setDone_keeps
    | (extract_lets +onlyGivenNames x; first
        | (refine Keeps.cut (s := s) (x := x) (fun hx => ?_) ?_; clear_value x; revert x; intro y hy; rotate_left; unfold x; clear x)
        | (refine Keeps.cut1 (s := s) (x := x) (fun hx => ?_) ?_; clear_value x; revert x; intro y hy; rotate_left; unfold x; clear x)
        | (refine Keeps.cut2 (s := s) (x := x) (fun hx => ?_) ?_; clear_value x; revert x; intro y hy; rotate_left; unfold x; clear x)
        | (revert x; intro y))
    | simp only [Keeps.rest_iff, Keeps.clk_iff]
    | with_reducible apply Keeps.foldl
    | with_reducible apply Keeps.foldl_fst
    | (refine Keeps.of_fst ‹_ = _› ?_)
    | (refine Keeps.of_snd ‹_ = _› ?_)
    | split
    | (intro)

theorem lockstep_keeps {s t : State} {b : Nat} (h : Keeps s t) : Keeps s (lockstep t b) := by
  unfold lockstep
  repeat' first
    | with_reducible assumption
    | with_reducible apply State.putBit_keeps
    | with_reducible apply State.report_keeps
    | with_reducible apply State.fenceTicket_keeps
    | with_reducible apply State.thirdMismatch_keeps
    | with_reducible apply State.failRun_keeps
    | with_reducible apply State.rerun_keeps
    | (extract_lets +onlyGivenNames x; first
        | (revert x; intro y))
    | split

theorem execLockstepMismatch_keeps {s u : State} {block : Nat} (e : execLockstepMismatch block s = .next u) : Keeps s u := by
  unfold execLockstepMismatch at e
  injection e with e
  subst e
  repeat' first
    | with_reducible exact Keeps.refl _
    | with_reducible apply lockstep_keeps
    | split

theorem State.settleUnconf_keeps {s t : State} {k : TicketSt} {x2 : Unconf} (h : Keeps s t) : Keeps s (State.settleUnconf t k x2) := by
  unfold State.settleUnconf
  repeat' first
    | with_reducible assumption
    | with_reducible apply State.release_keeps
    | with_reducible apply State.putRecord_keeps
    | split

theorem State.settle_keeps {s t : State} {k : TicketSt} (h : Keeps s t) : Keeps s (State.settle t k) := by
  unfold State.settle
  repeat' first
    | with_reducible assumption
    | with_reducible apply State.releasePages_keeps
    | with_reducible apply State.dropPending_keeps
    | with_reducible apply State.withdrawPage_keeps
    | with_reducible apply State.count_keeps
    | with_reducible apply State.settleUnconf_keeps
    | with_reducible apply State.serveWaiting_keeps
    | with_reducible apply State.rankSettled_keeps
    | simp only [Keeps.rest_iff, Keeps.clk_iff]
    | with_reducible apply Keeps.foldl
    | (intro)

theorem execTicketSettle_keeps {s u : State}  (e : execTicketSettle s = .next u) : Keeps s u := by
  unfold execTicketSettle at e
  injection e with e
  subst e
  repeat' first
    | with_reducible exact Keeps.refl _
    | with_reducible apply State.settle_keeps
    | split

theorem State.writeItem_keeps {s t : State} {r : Nat} {src : Nat} {data : List (Nat × List Byte)} (h : Keeps s t) : Keeps s (State.writeItem t r src data) := by
  unfold State.writeItem
  try dsimp -zeta only
  repeat' first
    | with_reducible assumption
    | with_reducible exact Keeps.refl _
    | with_reducible rfl
    | with_reducible apply State.gwrite_keeps
    | (extract_lets +onlyGivenNames x; first
        | (refine Keeps.cut (s := s) (x := x) (fun hx => ?_) ?_; clear_value x; revert x; intro y hy; rotate_left; unfold x; clear x)
        | (refine Keeps.cut1 (s := s) (x := x) (fun hx => ?_) ?_; clear_value x; revert x; intro y hy; rotate_left; unfold x; clear x)
        | (refine Keeps.cut2 (s := s) (x := x) (fun hx => ?_) ?_; clear_value x; revert x; intro y hy; rotate_left; unfold x; clear x)
        | (revert x; intro y))
    | simp only [Keeps.rest_iff, Keeps.clk_iff]
    | with_reducible apply Keeps.foldl
    | with_reducible apply Keeps.foldl_fst
    | (refine Keeps.of_fst ‹_ = _› ?_)
    | (refine Keeps.of_snd ‹_ = _› ?_)
    | split
    | (intro)

theorem quarantine_keeps {s t : State} {r : Nat} {k : Packet} (h : Keeps s t) : Keeps s (quarantine t r k) := by
  unfold quarantine
  repeat' first
    | with_reducible assumption
    | with_reducible apply State.writeItem_keeps
    | simp only [Keeps.rest_iff, Keeps.clk_iff]
    | split

theorem execUnconfirmedWriteReceive_keeps {s u : State} {r : Nat} {pkt : Packet} (e : execUnconfirmedWriteReceive r pkt s = .next u) : Keeps s u := by
  unfold execUnconfirmedWriteReceive at e
  injection e with e
  subst e
  repeat' first
    | with_reducible exact Keeps.refl _
    | refine State.take_keeps ?_ ‹_›
    | with_reducible apply quarantine_keeps
    | split

theorem State.dropItem_keeps {s t : State} {i : QItem} {kind : Nat} (h : Keeps s t) : Keeps s (State.dropItem t i kind) := by
  unfold State.dropItem
  repeat' first
    | with_reducible assumption
    | with_reducible rfl
    | simp only [Keeps.rest_iff, Keeps.clk_iff]

theorem writeConfirmed_keeps {s t : State} {k : Packet} (h : Keeps s t) : Keeps s (writeConfirmed t k) := by
  unfold writeConfirmed
  repeat' first
    | with_reducible assumption
    | with_reducible apply State.keepEarly_keeps
    | with_reducible apply State.writeItem_keeps
    | with_reducible apply State.dropItem_keeps
    | (extract_lets +onlyGivenNames x; first
        | (revert x; intro y))
    | split

theorem execWriteConfirm_keeps {s u : State} {r : Nat} {pkt : Packet} (e : execWriteConfirm r pkt s = .next u) : Keeps s u := by
  unfold execWriteConfirm at e
  injection e with e
  subst e
  repeat' first
    | with_reducible exact Keeps.refl _
    | refine State.take_keeps ?_ ‹_›
    | with_reducible apply writeConfirmed_keeps
    | split

theorem writeRetracted_keeps {s t : State} {r : Nat} {k : Packet} (h : Keeps s t) : Keeps s (writeRetracted t r k) := by
  unfold writeRetracted
  repeat' first
    | with_reducible assumption
    | with_reducible apply State.keepEarly_keeps
    | with_reducible apply State.dropItem_keeps
    | with_reducible apply State.report_keeps
    | (extract_lets +onlyGivenNames x; first
        | (revert x; intro y))
    | split

theorem execWriteRetract_keeps {s u : State} {r : Nat} {pkt : Packet} (e : execWriteRetract r pkt s = .next u) : Keeps s u := by
  unfold execWriteRetract at e
  injection e with e
  subst e
  repeat' first
    | with_reducible exact Keeps.refl _
    | refine State.take_keeps ?_ ‹_›
    | with_reducible apply writeRetracted_keeps
    | split

theorem execSteepWindowExpire_keeps {s u : State} {src : Nat} {item : Nat} (e : execSteepWindowExpire src item s = .next u) : Keeps s u := by
  unfold execSteepWindowExpire at e
  injection e with e
  subst e
  repeat' first
    | with_reducible exact Keeps.refl _
    | with_reducible apply State.report_keeps
    | with_reducible apply State.bump_keeps
    | with_reducible apply State.dropItem_keeps
    | with_reducible apply State.reach_keeps
    | split

theorem execEarlyTokenExpire_keeps {s u : State}  (e : execEarlyTokenExpire s = .next u) : Keeps s u := by
  unfold execEarlyTokenExpire at e
  injection e with e
  subst e
  repeat' first
    | with_reducible exact Keeps.refl _
    | with_reducible apply State.reach_keeps
    | simp only [Keeps.rest_iff, Keeps.clk_iff]
    | split

theorem tagReadback_keeps {s t : State} {r : Nat} {page : Nat} {chip : Nat} {dst : Nat} {crc : Nat} {again : Bool} (h : Keeps s t) : Keeps s (tagReadback t r page chip dst crc again) := by
  unfold tagReadback
  repeat' first
    | with_reducible assumption
    | with_reducible apply State.send_keeps
    | with_reducible apply State.tagMismatch_keeps
    | split

theorem execTagCopyReadback_keeps {s u : State} {r : Nat} {page : Nat} {chip : Nat} {dst : Nat} {crc : Nat} {again : Bool} (e : execTagCopyReadback r page chip dst crc again s = .next u) : Keeps s u := by
  unfold execTagCopyReadback at e
  injection e with e
  subst e
  repeat' first
    | with_reducible exact Keeps.refl _
    | with_reducible apply tagReadback_keeps
    | with_reducible apply State.evCount_keeps
    | split

theorem State.dropAudit_keeps {s t : State} {a : Audit} (h : Keeps s t) : Keeps s (State.dropAudit t a) := by
  unfold State.dropAudit
  repeat' first
    | with_reducible assumption
    | with_reducible rfl
    | simp only [Keeps.rest_iff, Keeps.clk_iff]

theorem execAuditCompare_keeps {s u : State} {n : Nat} {seq : Nat} {fault : List (Nat × Nat)} {ecc : EccFinds} (e : execAuditCompare n seq fault ecc s = .next u) : Keeps s u := by
  unfold execAuditCompare at e
  injection e with e
  subst e
  try dsimp -zeta only
  repeat' first
    | with_reducible assumption
    | with_reducible exact Keeps.refl _
    | with_reducible rfl
    | with_reducible apply State.eccAll_keeps
    | with_reducible apply State.bump_keeps
    | with_reducible apply State.dropAudit_keeps
    | (extract_lets +onlyGivenNames x; first
        | (refine Keeps.cut (s := s) (x := x) (fun hx => ?_) ?_; clear_value x; revert x; intro y hy; rotate_left; unfold x; clear x)
        | (refine Keeps.cut1 (s := s) (x := x) (fun hx => ?_) ?_; clear_value x; revert x; intro y hy; rotate_left; unfold x; clear x)
        | (refine Keeps.cut2 (s := s) (x := x) (fun hx => ?_) ?_; clear_value x; revert x; intro y hy; rotate_left; unfold x; clear x)
        | (revert x; intro y))
    | simp only [Keeps.rest_iff, Keeps.clk_iff]
    | with_reducible apply Keeps.foldl
    | with_reducible apply Keeps.foldl_fst
    | (refine Keeps.of_fst ‹_ = _› ?_)
    | (refine Keeps.of_snd ‹_ = _› ?_)
    | split
    | (intro)

theorem thirdJudge_keeps {s t : State} {a : Audit} {o : List Nat} {v : List Nat} {third : List Nat} {cell : Option Nat} (h : Keeps s t) : Keeps s (thirdJudge t a o v third cell) := by
  unfold thirdJudge
  try dsimp -zeta only
  repeat' first
    | with_reducible assumption
    | with_reducible exact Keeps.refl _
    | with_reducible rfl
    | with_reducible apply State.report_keeps
    | with_reducible apply State.fenceCell_keeps
    | with_reducible apply State.fenceBlock_keeps
    | (extract_lets +onlyGivenNames x; first
        | (refine Keeps.cut (s := s) (x := x) (fun hx => ?_) ?_; clear_value x; revert x; intro y hy; rotate_left; unfold x; clear x)
        | (refine Keeps.cut1 (s := s) (x := x) (fun hx => ?_) ?_; clear_value x; revert x; intro y hy; rotate_left; unfold x; clear x)
        | (refine Keeps.cut2 (s := s) (x := x) (fun hx => ?_) ?_; clear_value x; revert x; intro y hy; rotate_left; unfold x; clear x)
        | (revert x; intro y))
    | simp only [Keeps.rest_iff, Keeps.clk_iff]
    | with_reducible apply Keeps.foldl
    | with_reducible apply Keeps.foldl_fst
    | (refine Keeps.of_fst ‹_ = _› ?_)
    | (refine Keeps.of_snd ‹_ = _› ?_)
    | split
    | (intro)

theorem execAuditThirdJudge_keeps {s u : State} {n : Nat} {seq : Nat} {fault : List (Nat × Nat)} {ecc : EccFinds} (e : execAuditThirdJudge n seq fault ecc s = .next u) : Keeps s u := by
  unfold execAuditThirdJudge at e
  injection e with e
  subst e
  try dsimp -zeta only
  repeat' first
    | with_reducible assumption
    | with_reducible exact Keeps.refl _
    | with_reducible rfl
    | with_reducible apply State.eccAll_keeps
    | with_reducible apply State.recomputed_keeps
    | with_reducible apply thirdJudge_keeps
    | with_reducible apply State.dropAudit_keeps
    | (extract_lets +onlyGivenNames x; first
        | (refine Keeps.cut (s := s) (x := x) (fun hx => ?_) ?_; clear_value x; revert x; intro y hy; rotate_left; unfold x; clear x)
        | (refine Keeps.cut1 (s := s) (x := x) (fun hx => ?_) ?_; clear_value x; revert x; intro y hy; rotate_left; unfold x; clear x)
        | (refine Keeps.cut2 (s := s) (x := x) (fun hx => ?_) ?_; clear_value x; revert x; intro y hy; rotate_left; unfold x; clear x)
        | (revert x; intro y))
    | simp only [Keeps.rest_iff, Keeps.clk_iff]
    | with_reducible apply Keeps.foldl
    | with_reducible apply Keeps.foldl_fst
    | (refine Keeps.of_fst ‹_ = _› ?_)
    | (refine Keeps.of_snd ‹_ = _› ?_)
    | split
    | (intro)

theorem State.blockOff_keeps {s t : State} {b : Nat} (h : Keeps s t) : Keeps s (State.blockOff t b) :=
  Keeps.mem h (fun hm => by
    rw [memCanon_iff] at hm ⊢
    exact ⟨hm.1, tblWf_filter _ hm.2.1, hm.2.2.1, hm.2.2.2.1, hm.2.2.2.2.1, hm.2.2.2.2.2.1, tblWf_filter _ hm.2.2.2.2.2.2.1, hm.2.2.2.2.2.2.2⟩)

theorem State.dieOn_keeps {s t : State} {d : Nat} (h : Keeps s t) : Keeps s (State.dieOn t d) := by
  unfold State.dieOn
  repeat' first
    | with_reducible assumption
    | with_reducible rfl
    | simp only [Keeps.rest_iff, Keeps.clk_iff]

theorem State.scanShow_keeps {s t : State} {b : Option Nat} (h : Keeps s t) : Keeps s (State.scanShow t b) := by
  unfold State.scanShow
  repeat' first
    | with_reducible assumption
    | with_reducible apply State.fput_keeps

theorem scanStart_keeps {s t : State} {d : Started} (h : Keeps s t) : Keeps s (scanStart t d) := by
  unfold scanStart
  repeat' first
    | with_reducible assumption
    | with_reducible apply State.scanShow_keeps
    | with_reducible apply State.putBit_keeps
    | simp only [Keeps.rest_iff, Keeps.clk_iff]

theorem scanDesc_keeps {s t : State} {d : Started} (h : Keeps s t) : Keeps s (scanDesc t d) := by
  unfold scanDesc
  repeat' first
    | with_reducible assumption
    | with_reducible apply State.setDone_keeps
    | with_reducible apply scanStart_keeps
    | with_reducible apply State.updStarted_keeps
    | split

theorem execScanBlock_keeps {s u : State} {n : Nat} {seq : Nat} (e : execScanBlock n seq s = .next u) : Keeps s u := by
  unfold execScanBlock at e
  injection e with e
  subst e
  repeat' first
    | with_reducible exact Keeps.refl _
    | with_reducible apply scanDesc_keeps
    | split

theorem execScanProceed_keeps {s u : State}  (e : execScanProceed s = .next u) : Keeps s u := by
  unfold execScanProceed at e
  injection e with e
  subst e
  repeat' first
    | with_reducible exact Keeps.refl _
    | with_reducible apply State.blockOff_keeps
    | simp only [Keeps.rest_iff, Keeps.clk_iff]
    | split

theorem State.scanOver_keeps {s t : State} {c : Scan} (h : Keeps s t) : Keeps s (State.scanOver t c) := by
  unfold State.scanOver
  repeat' first
    | with_reducible assumption
    | with_reducible apply State.scanShow_keeps
    | with_reducible apply State.putBit_keeps
    | simp only [Keeps.rest_iff, Keeps.clk_iff]

theorem scanFinish_keeps {s t : State} {c : Scan} {patterns : Nat} {fails : Nat} {first : Nat} {bad : Option Nat} (h : Keeps s t) : Keeps s (scanFinish t c patterns fails first bad) := by
  unfold scanFinish
  repeat' first
    | with_reducible assumption
    | with_reducible apply State.setDone_keeps
    | with_reducible apply State.scanOver_keeps
    | with_reducible apply State.dieOn_keeps
    | with_reducible apply State.bump_keeps
    | with_reducible apply State.fenceBlock_keeps
    | with_reducible apply State.report_keeps
    | split

theorem execScanFinish_keeps {s u : State} {patterns : Nat} {fails : Nat} {first : Nat} {badSegment : Option Nat} (e : execScanFinish patterns fails first badSegment s = .next u) : Keeps s u := by
  unfold execScanFinish at e
  injection e with e
  subst e
  repeat' first
    | with_reducible exact Keeps.refl _
    | with_reducible apply scanFinish_keeps
    | split

theorem State.scanStop_keeps {s t : State}  (h : Keeps s t) : Keeps s (State.scanStop t) := by
  unfold State.scanStop
  repeat' first
    | with_reducible assumption
    | with_reducible apply State.setDone_keeps
    | with_reducible apply State.scanOver_keeps
    | split

end Sys2Proof.Machine
end

