-- ==== Sys2Proof/Laws/KeepsLink.lean ====
section
/-!
SUPPORT. What the operations of Machine/Link.lean keep (Safety.lean).
-/
namespace Sys2Proof.Machine

open Sys2Proof

theorem State.countPlan_keeps {s t : State} {lost : Bool} (h : Keeps s t) : Keeps s (State.countPlan t lost) := by
  unfold State.countPlan
  repeat' first
    | with_reducible assumption
    | with_reducible apply State.setReg_keeps

theorem State.setPortState_keeps {s t : State} {p : Nat} {st : Nat} {lost : Bool} (h : Keeps s t) : Keeps s (State.setPortState t p st lost) := by
  unfold State.setPortState
  repeat' first
    | with_reducible assumption
    | with_reducible apply State.countPlan_keeps
    | with_reducible apply State.event_keeps
    | with_reducible apply State.fput_keeps
    | split

theorem State.openHold_keeps {s t : State} {p : Nat} (h : Keeps s t) : Keeps s (State.openHold t p) := by
  unfold State.openHold
  try dsimp -zeta only
  repeat' first
    | with_reducible assumption
    | with_reducible exact Keeps.refl _
    | with_reducible rfl
    | (extract_lets +onlyGivenNames x; first
        | (refine Keeps.cut (s := s) (x := x) (fun hx => ?_) ?_; clear_value x; revert x; intro y hy; rotate_left; unfold x; clear x)
        | (refine Keeps.cut1 (s := s) (x := x) (fun hx => ?_) ?_; clear_value x; revert x; intro y hy; rotate_left; unfold x; clear x)
        | (refine Keeps.cut2 (s := s) (x := x) (fun hx => ?_) ?_; clear_value x; revert x; intro y hy; rotate_left; unfold x; clear x)
        | (revert x; intro y))
    | simp only [Keeps.rest_iff, Keeps.clk_iff]
    | with_reducible apply Keeps.foldl
    | with_reducible apply Keeps.foldl_fst
    | (refine Keeps.of_fst ‹_ = _› ?_)
    | (refine Keeps.of_snd ‹_ = _› ?_)
    | split
    | (intro)

theorem State.closeHold_keeps {s t : State} {p : Nat} (h : Keeps s t) : Keeps s (State.closeHold t p) := by
  unfold State.closeHold
  try dsimp -zeta only
  repeat' first
    | with_reducible assumption
    | with_reducible exact Keeps.refl _
    | with_reducible rfl
    | (extract_lets +onlyGivenNames x; first
        | (refine Keeps.cut (s := s) (x := x) (fun hx => ?_) ?_; clear_value x; revert x; intro y hy; rotate_left; unfold x; clear x)
        | (refine Keeps.cut1 (s := s) (x := x) (fun hx => ?_) ?_; clear_value x; revert x; intro y hy; rotate_left; unfold x; clear x)
        | (refine Keeps.cut2 (s := s) (x := x) (fun hx => ?_) ?_; clear_value x; revert x; intro y hy; rotate_left; unfold x; clear x)
        | (revert x; intro y))
    | simp only [Keeps.rest_iff, Keeps.clk_iff]
    | with_reducible apply Keeps.foldl
    | with_reducible apply Keeps.foldl_fst
    | (refine Keeps.of_fst ‹_ = _› ?_)
    | (refine Keeps.of_snd ‹_ = _› ?_)
    | split
    | (intro)

theorem State.train_keeps {s t : State} {p : Nat} {retry : Bool} (h : Keeps s t) : Keeps s (State.train t p retry) := by
  unfold State.train
  try dsimp -zeta only
  repeat' first
    | with_reducible assumption
    | with_reducible exact Keeps.refl _
    | with_reducible rfl
    | with_reducible apply State.setPort_keeps
    | with_reducible apply State.openHold_keeps
    | with_reducible apply State.setPortState_keeps
    | with_reducible apply State.fput_keeps
    | (extract_lets +onlyGivenNames x; first
        | (refine Keeps.cut (s := s) (x := x) (fun hx => ?_) ?_; clear_value x; revert x; intro y hy; rotate_left; unfold x; clear x)
        | (refine Keeps.cut1 (s := s) (x := x) (fun hx => ?_) ?_; clear_value x; revert x; intro y hy; rotate_left; unfold x; clear x)
        | (refine Keeps.cut2 (s := s) (x := x) (fun hx => ?_) ?_; clear_value x; revert x; intro y hy; rotate_left; unfold x; clear x)
        | (revert x; intro y))
    | simp only [Keeps.rest_iff, Keeps.clk_iff]
    | with_reducible apply Keeps.foldl
    | with_reducible apply Keeps.foldl_fst
    | (refine Keeps.of_fst ‹_ = _› ?_)
    | (refine Keeps.of_snd ‹_ = _› ?_)
    | split
    | (intro)

theorem State.creditBack_keeps {s t : State} {p : Nat} {c : Option (Nat × Nat × Nat)} (h : Keeps s t) : Keeps s (State.creditBack t p c) := by
  unfold State.creditBack
  repeat' first
    | with_reducible assumption
    | with_reducible apply State.count_keeps
    | with_reducible apply State.setPort_keeps
    | split

theorem State.allCreditsBack_keeps {s t : State} {p : Nat} (h : Keeps s t) : Keeps s (State.allCreditsBack t p) := by
  unfold State.allCreditsBack
  repeat' first
    | with_reducible assumption
    | with_reducible apply State.count_keeps
    | with_reducible apply State.setPort_keeps

theorem State.auditPort_keeps {s t : State} {p : Nat} (h : Keeps s t) : Keeps s (State.auditPort t p) := by
  unfold State.auditPort
  repeat' first
    | with_reducible assumption
    | with_reducible apply State.report_keeps
    | (extract_lets +onlyGivenNames x; first
        | (revert x; intro y))
    | split

theorem State.emitFlit_keeps {s t : State} {p : Nat} {g : Flit} (h : Keeps s t) : Keeps s (State.emitFlit t p g) := by
  unfold State.emitFlit
  try dsimp -zeta only
  repeat' first
    | with_reducible assumption
    | with_reducible exact Keeps.refl _
    | with_reducible rfl
    | with_reducible apply State.emit_keeps
    | with_reducible apply State.setPort_keeps
    | (extract_lets +onlyGivenNames x; first
        | (refine Keeps.cut (s := s) (x := x) (fun hx => ?_) ?_; clear_value x; revert x; intro y hy; rotate_left; unfold x; clear x)
        | (refine Keeps.cut1 (s := s) (x := x) (fun hx => ?_) ?_; clear_value x; revert x; intro y hy; rotate_left; unfold x; clear x)
        | (refine Keeps.cut2 (s := s) (x := x) (fun hx => ?_) ?_; clear_value x; revert x; intro y hy; rotate_left; unfold x; clear x)
        | (revert x; intro y))
    | simp only [Keeps.rest_iff, Keeps.clk_iff]
    | with_reducible apply Keeps.foldl
    | with_reducible apply Keeps.foldl_fst
    | (refine Keeps.of_fst ‹_ = _› ?_)
    | (refine Keeps.of_snd ‹_ = _› ?_)
    | split
    | (intro)

theorem State.putFlit_keeps {s t : State} {p : Nat} {f : Flit} (h : Keeps s t) : Keeps s (State.putFlit t p f) := by
  unfold State.putFlit
  try dsimp -zeta only
  repeat' first
    | with_reducible assumption
    | with_reducible exact Keeps.refl _
    | with_reducible rfl
    | with_reducible apply State.emitFlit_keeps
    | with_reducible apply State.setPort_keeps
    | (extract_lets +onlyGivenNames x; first
        | (refine Keeps.cut (s := s) (x := x) (fun hx => ?_) ?_; clear_value x; revert x; intro y hy; rotate_left; unfold x; clear x)
        | (refine Keeps.cut1 (s := s) (x := x) (fun hx => ?_) ?_; clear_value x; revert x; intro y hy; rotate_left; unfold x; clear x)
        | (refine Keeps.cut2 (s := s) (x := x) (fun hx => ?_) ?_; clear_value x; revert x; intro y hy; rotate_left; unfold x; clear x)
        | (revert x; intro y))
    | simp only [Keeps.rest_iff, Keeps.clk_iff]
    | with_reducible apply Keeps.foldl
    | with_reducible apply Keeps.foldl_fst
    | (refine Keeps.of_fst ‹_ = _› ?_)
    | (refine Keeps.of_snd ‹_ = _› ?_)
    | split
    | (intro)

theorem State.sendData_keeps {s t : State} {p : Nat} {vc : Nat} {cls : Nat} {q : Queued} (h : Keeps s t) : Keeps s (State.sendData t p vc cls q) := by
  unfold State.sendData
  repeat' first
    | with_reducible assumption
    | with_reducible apply State.count_keeps
    | with_reducible apply State.setPort_keeps
    | with_reducible apply State.evCount_keeps
    | with_reducible apply State.putFlit_keeps
    | split

theorem State.enterKeepWarm_keeps {s t : State} {p : Nat} (h : Keeps s t) : Keeps s (State.enterKeepWarm t p) := by
  unfold State.enterKeepWarm
  repeat' first
    | with_reducible assumption
    | with_reducible apply State.fput_keeps
    | with_reducible apply State.setPort_keeps
    | (extract_lets +onlyGivenNames x; first
        | (revert x; intro y))
    | split

theorem State.dataTurn_keeps {s t u : State} {p : Nat} (h : Keeps s t) (e : State.dataTurn t p = some u) : Keeps s u := by
  unfold State.dataTurn at e
  dsimp only at e
  split at e
  · contradiction
  · split at e
    · injection e with e; subst e
      exact State.emitFlit_keeps (State.setPort_keeps h)
    · split at e
      · contradiction
      · split at e
        · contradiction
        · obtain ⟨x, _, rfl⟩ := Option.map_eq_some_iff.mp e
          exact State.sendData_keeps h

theorem State.sendLink_keeps {s t : State} {p : Nat} {m : LinkMsg} (h : Keeps s t) : Keeps s (State.sendLink t p m) := by
  unfold State.sendLink
  try dsimp -zeta only
  repeat' first
    | with_reducible assumption
    | with_reducible exact Keeps.refl _
    | with_reducible rfl
    | with_reducible apply State.putFlit_keeps
    | with_reducible apply State.setPort_keeps
    | (extract_lets +onlyGivenNames x; first
        | (refine Keeps.cut (s := s) (x := x) (fun hx => ?_) ?_; clear_value x; revert x; intro y hy; rotate_left; unfold x; clear x)
        | (refine Keeps.cut1 (s := s) (x := x) (fun hx => ?_) ?_; clear_value x; revert x; intro y hy; rotate_left; unfold x; clear x)
        | (refine Keeps.cut2 (s := s) (x := x) (fun hx => ?_) ?_; clear_value x; revert x; intro y hy; rotate_left; unfold x; clear x)
        | (revert x; intro y))
    | simp only [Keeps.rest_iff, Keeps.clk_iff]
    | with_reducible apply Keeps.foldl
    | with_reducible apply Keeps.foldl_fst
    | (refine Keeps.of_fst ‹_ = _› ?_)
    | (refine Keeps.of_snd ‹_ = _› ?_)
    | split
    | (intro)

theorem flitSend_keeps {s t : State} {p : Nat} (h : Keeps s t) : Keeps s (flitSend t p) := by
  unfold flitSend
  try dsimp -zeta only
  repeat' first
    | with_reducible assumption
    | with_reducible exact Keeps.refl _
    | with_reducible rfl
    | with_reducible apply State.sendLink_keeps
    | with_reducible apply State.setPort_keeps
    | refine State.dataTurn_keeps ?_ ‹_›
    | refine State.dataTurn_keeps ?_ (ite_some ‹_›)
    | with_reducible apply State.putFlit_keeps
    | with_reducible apply State.enterKeepWarm_keeps
    | (extract_lets +onlyGivenNames x; first
        | (refine Keeps.cut (s := s) (x := x) (fun hx => ?_) ?_; clear_value x; revert x; intro y hy; rotate_left; unfold x; clear x)
        | (refine Keeps.cut1 (s := s) (x := x) (fun hx => ?_) ?_; clear_value x; revert x; intro y hy; rotate_left; unfold x; clear x)
        | (refine Keeps.cut2 (s := s) (x := x) (fun hx => ?_) ?_; clear_value x; revert x; intro y hy; rotate_left; unfold x; clear x)
        | (revert x; intro y))
    | simp only [Keeps.rest_iff, Keeps.clk_iff]
    | with_reducible apply Keeps.foldl
    | with_reducible apply Keeps.foldl_fst
    | (refine Keeps.of_fst ‹_ = _› ?_)
    | (refine Keeps.of_snd ‹_ = _› ?_)
    | split
    | (intro)

theorem State.parityFault_keeps {s t : State} {p : Nat} {fatal : Bool} (h : Keeps s t) : Keeps s (State.parityFault t p fatal) := by
  unfold State.parityFault
  repeat' first
    | with_reducible assumption
    | with_reducible apply State.report_keeps
    | with_reducible apply State.corrected_keeps
    | split

theorem State.ackUpTo_keeps {s t : State} {p : Nat} {seq : Nat} (h : Keeps s t) : Keeps s (State.ackUpTo t p seq) := by
  unfold State.ackUpTo
  try dsimp -zeta only
  repeat' first
    | with_reducible assumption
    | with_reducible exact Keeps.refl _
    | with_reducible rfl
    | with_reducible apply State.setPort_keeps
    | with_reducible apply State.closeHold_keeps
    | (extract_lets +onlyGivenNames x; first
        | (refine Keeps.cut (s := s) (x := x) (fun hx => ?_) ?_; clear_value x; revert x; intro y hy; rotate_left; unfold x; clear x)
        | (refine Keeps.cut1 (s := s) (x := x) (fun hx => ?_) ?_; clear_value x; revert x; intro y hy; rotate_left; unfold x; clear x)
        | (refine Keeps.cut2 (s := s) (x := x) (fun hx => ?_) ?_; clear_value x; revert x; intro y hy; rotate_left; unfold x; clear x)
        | (revert x; intro y))
    | simp only [Keeps.rest_iff, Keeps.clk_iff]
    | with_reducible apply Keeps.foldl
    | with_reducible apply Keeps.foldl_fst
    | (refine Keeps.of_fst ‹_ = _› ?_)
    | (refine Keeps.of_snd ‹_ = _› ?_)
    | split
    | (intro)

theorem State.nakAt_keeps {s t : State} {p : Nat} {seq : Nat} (h : Keeps s t) : Keeps s (State.nakAt t p seq) := by
  unfold State.nakAt
  try dsimp -zeta only
  repeat' first
    | with_reducible assumption
    | with_reducible exact Keeps.refl _
    | with_reducible rfl
    | with_reducible apply State.ackUpTo_keeps
    | with_reducible apply State.openHold_keeps
    | with_reducible apply State.setPort_keeps
    | with_reducible apply State.evCount_keeps
    | with_reducible apply State.bump_keeps
    | (extract_lets +onlyGivenNames x; first
        | (refine Keeps.cut (s := s) (x := x) (fun hx => ?_) ?_; clear_value x; revert x; intro y hy; rotate_left; unfold x; clear x)
        | (refine Keeps.cut1 (s := s) (x := x) (fun hx => ?_) ?_; clear_value x; revert x; intro y hy; rotate_left; unfold x; clear x)
        | (refine Keeps.cut2 (s := s) (x := x) (fun hx => ?_) ?_; clear_value x; revert x; intro y hy; rotate_left; unfold x; clear x)
        | (revert x; intro y))
    | simp only [Keeps.rest_iff, Keeps.clk_iff]
    | with_reducible apply Keeps.foldl
    | with_reducible apply Keeps.foldl_fst
    | (refine Keeps.of_fst ‹_ = _› ?_)
    | (refine Keeps.of_snd ‹_ = _› ?_)
    | split
    | (intro)

theorem execNakReceive_keeps {s u : State} {p : Nat} {seq : Nat} (e : execNakReceive p seq s = .next u) : Keeps s u := by
  unfold execNakReceive at e
  injection e with e
  subst e
  repeat' first
    | with_reducible exact Keeps.refl _
    | with_reducible apply State.nakAt_keeps
    | split

theorem execAckReceive_keeps {s u : State} {p : Nat} {seq : Nat} (e : execAckReceive p seq s = .next u) : Keeps s u := by
  unfold execAckReceive at e
  injection e with e
  subst e
  repeat' first
    | with_reducible exact Keeps.refl _
    | with_reducible apply State.ackUpTo_keeps
    | split

theorem execAckTimer_keeps {s u : State} {p : Nat} (e : execAckTimer p s = .next u) : Keeps s u := by
  unfold execAckTimer at e
  injection e with e
  subst e
  repeat' first
    | with_reducible exact Keeps.refl _
    | with_reducible apply State.putFlit_keeps
    | with_reducible apply State.reach_keeps
    | split

theorem State.flitHead_keeps {s t : State} {p : Nat} {f : Flit} (h : Keeps s t) : Keeps s (State.flitHead t p f) := by
  unfold State.flitHead
  repeat' first
    | with_reducible assumption
    | with_reducible apply State.nakAt_keeps
    | with_reducible apply State.ackUpTo_keeps
    | with_reducible apply State.creditBack_keeps
    | split

theorem State.sendNak_keeps {s t : State} {p : Nat} (h : Keeps s t) : Keeps s (State.sendNak t p) := by
  unfold State.sendNak
  try dsimp -zeta only
  repeat' first
    | with_reducible assumption
    | with_reducible exact Keeps.refl _
    | with_reducible rfl
    | with_reducible apply State.putFlit_keeps
    | with_reducible apply State.setPort_keeps
    | (extract_lets +onlyGivenNames x; first
        | (refine Keeps.cut (s := s) (x := x) (fun hx => ?_) ?_; clear_value x; revert x; intro y hy; rotate_left; unfold x; clear x)
        | (refine Keeps.cut1 (s := s) (x := x) (fun hx => ?_) ?_; clear_value x; revert x; intro y hy; rotate_left; unfold x; clear x)
        | (refine Keeps.cut2 (s := s) (x := x) (fun hx => ?_) ?_; clear_value x; revert x; intro y hy; rotate_left; unfold x; clear x)
        | (revert x; intro y))
    | simp only [Keeps.rest_iff, Keeps.clk_iff]
    | with_reducible apply Keeps.foldl
    | with_reducible apply Keeps.foldl_fst
    | (refine Keeps.of_fst ‹_ = _› ?_)
    | (refine Keeps.of_snd ‹_ = _› ?_)
    | split
    | (intro)

theorem State.crcFail_keeps {s t : State} {p : Nat} (h : Keeps s t) : Keeps s (State.crcFail t p) := by
  unfold State.crcFail
  try dsimp -zeta only
  repeat' first
    | with_reducible assumption
    | with_reducible exact Keeps.refl _
    | with_reducible rfl
    | with_reducible apply State.sendNak_keeps
    | with_reducible apply State.corrected_keeps
    | with_reducible apply State.bump_keeps
    | (extract_lets +onlyGivenNames x; first
        | (refine Keeps.cut (s := s) (x := x) (fun hx => ?_) ?_; clear_value x; revert x; intro y hy; rotate_left; unfold x; clear x)
        | (refine Keeps.cut1 (s := s) (x := x) (fun hx => ?_) ?_; clear_value x; revert x; intro y hy; rotate_left; unfold x; clear x)
        | (refine Keeps.cut2 (s := s) (x := x) (fun hx => ?_) ?_; clear_value x; revert x; intro y hy; rotate_left; unfold x; clear x)
        | (revert x; intro y))
    | simp only [Keeps.rest_iff, Keeps.clk_iff]
    | with_reducible apply Keeps.foldl
    | with_reducible apply Keeps.foldl_fst
    | (refine Keeps.of_fst ‹_ = _› ?_)
    | (refine Keeps.of_snd ‹_ = _› ?_)
    | split
    | (intro)

theorem State.flitIn_keeps {s t : State} {p : Nat} {f : Flit} {crcOk : Bool} {act : State → State} (h : Keeps s t) (hact : ∀ z, Keeps s z → Keeps s (act z)) : Keeps s (State.flitIn t p f crcOk act) := by
  unfold State.flitIn
  try dsimp -zeta only
  repeat' first
    | with_reducible assumption
    | with_reducible exact Keeps.refl _
    | with_reducible rfl
    | apply hact
    | with_reducible apply State.flitHead_keeps
    | with_reducible apply State.crcFail_keeps
    | (extract_lets +onlyGivenNames x; first
        | (refine Keeps.cut (s := s) (x := x) (fun hx => ?_) ?_; clear_value x; revert x; intro y hy; rotate_left; unfold x; clear x)
        | (refine Keeps.cut1 (s := s) (x := x) (fun hx => ?_) ?_; clear_value x; revert x; intro y hy; rotate_left; unfold x; clear x)
        | (refine Keeps.cut2 (s := s) (x := x) (fun hx => ?_) ?_; clear_value x; revert x; intro y hy; rotate_left; unfold x; clear x)
        | (revert x; intro y))
    | simp only [Keeps.rest_iff, Keeps.clk_iff]
    | with_reducible apply Keeps.foldl
    | with_reducible apply Keeps.foldl_fst
    | (refine Keeps.of_fst ‹_ = _› ?_)
    | (refine Keeps.of_snd ‹_ = _› ?_)
    | split
    | (intro)

theorem execIdleFlitReceive_keeps {s u : State} {p : Nat} {f : Flit} {crcOk : Bool} (e : execIdleFlitReceive p f crcOk s = .next u) : Keeps s u := by
  unfold execIdleFlitReceive at e
  injection e with e
  subst e
  try dsimp -zeta only
  repeat' first
    | with_reducible assumption
    | with_reducible exact Keeps.refl _
    | with_reducible rfl
    | simp only [id_eq]
    | with_reducible apply State.flitIn_keeps
    | (extract_lets +onlyGivenNames x; first
        | (refine Keeps.cut (s := s) (x := x) (fun hx => ?_) ?_; clear_value x; revert x; intro y hy; rotate_left; unfold x; clear x)
        | (refine Keeps.cut1 (s := s) (x := x) (fun hx => ?_) ?_; clear_value x; revert x; intro y hy; rotate_left; unfold x; clear x)
        | (refine Keeps.cut2 (s := s) (x := x) (fun hx => ?_) ?_; clear_value x; revert x; intro y hy; rotate_left; unfold x; clear x)
        | (revert x; intro y))
    | simp only [Keeps.rest_iff, Keeps.clk_iff]
    | with_reducible apply Keeps.foldl
    | with_reducible apply Keeps.foldl_fst
    | (refine Keeps.of_fst ‹_ = _› ?_)
    | (refine Keeps.of_snd ‹_ = _› ?_)
    | split
    | (intro)

theorem State.rejectFlit_keeps {s t : State} {p : Nat} (h : Keeps s t) : Keeps s (State.rejectFlit t p) := by
  unfold State.rejectFlit
  try dsimp -zeta only
  repeat' first
    | with_reducible assumption
    | with_reducible exact Keeps.refl _
    | with_reducible rfl
    | with_reducible apply State.sendNak_keeps
    | (extract_lets +onlyGivenNames x; first
        | (refine Keeps.cut (s := s) (x := x) (fun hx => ?_) ?_; clear_value x; revert x; intro y hy; rotate_left; unfold x; clear x)
        | (refine Keeps.cut1 (s := s) (x := x) (fun hx => ?_) ?_; clear_value x; revert x; intro y hy; rotate_left; unfold x; clear x)
        | (refine Keeps.cut2 (s := s) (x := x) (fun hx => ?_) ?_; clear_value x; revert x; intro y hy; rotate_left; unfold x; clear x)
        | (revert x; intro y))
    | simp only [Keeps.rest_iff, Keeps.clk_iff]
    | with_reducible apply Keeps.foldl
    | with_reducible apply Keeps.foldl_fst
    | (refine Keeps.of_fst ‹_ = _› ?_)
    | (refine Keeps.of_snd ‹_ = _› ?_)
    | split
    | (intro)

theorem State.takePayload_keeps {s t : State} {p : Nat} {f : Flit} (h : Keeps s t) : Keeps s (State.takePayload t p f) := by
  unfold State.takePayload
  repeat' first
    | with_reducible assumption
    | with_reducible apply State.setPort_keeps
    | split

theorem State.ackDue_keeps {s t : State} {p : Nat} (h : Keeps s t) : Keeps s (State.ackDue t p) := by
  unfold State.ackDue
  repeat' first
    | with_reducible assumption
    | with_reducible apply State.putFlit_keeps
    | split

theorem dataFlit_keeps {s t : State} {p : Nat} {f : Flit} {crcOk : Bool} (h : Keeps s t) : Keeps s (dataFlit t p f crcOk) := by
  unfold dataFlit
  try dsimp -zeta only
  repeat' first
    | with_reducible assumption
    | with_reducible exact Keeps.refl _
    | with_reducible rfl
    | with_reducible apply State.crcFail_keeps
    | with_reducible apply State.rejectFlit_keeps
    | with_reducible apply State.flitHead_keeps
    | with_reducible apply State.setPort_keeps
    | with_reducible apply State.bump_keeps
    | with_reducible apply State.takePayload_keeps
    | with_reducible apply State.evCount_keeps
    | with_reducible apply State.ackDue_keeps
    | (extract_lets +onlyGivenNames x; first
        | (refine Keeps.cut (s := s) (x := x) (fun hx => ?_) ?_; clear_value x; revert x; intro y hy; rotate_left; unfold x; clear x)
        | (refine Keeps.cut1 (s := s) (x := x) (fun hx => ?_) ?_; clear_value x; revert x; intro y hy; rotate_left; unfold x; clear x)
        | (refine Keeps.cut2 (s := s) (x := x) (fun hx => ?_) ?_; clear_value x; revert x; intro y hy; rotate_left; unfold x; clear x)
        | (revert x; intro y))
    | simp only [Keeps.rest_iff, Keeps.clk_iff]
    | with_reducible apply Keeps.foldl
    | with_reducible apply Keeps.foldl_fst
    | (refine Keeps.of_fst ‹_ = _› ?_)
    | (refine Keeps.of_snd ‹_ = _› ?_)
    | split
    | (intro)

theorem execDataFlitReceive_keeps {s u : State} {p : Nat} {f : Flit} {crcOk : Bool} (e : execDataFlitReceive p f crcOk s = .next u) : Keeps s u := by
  unfold execDataFlitReceive at e
  injection e with e
  subst e
  repeat' first
    | with_reducible exact Keeps.refl _
    | with_reducible apply dataFlit_keeps
    | split

theorem State.resendVc0_keeps {s t : State} {r : Nat} {qs : List Queued} (h : Keeps s t) : Keeps s (State.resendVc0 t r qs) := by
  unfold State.resendVc0
  try dsimp -zeta only
  repeat' first
    | with_reducible assumption
    | with_reducible exact Keeps.refl _
    | with_reducible rfl
    | refine State.tryForward_keeps ?_ ‹_›
    | refine State.tryForward_keeps ?_ (ite_some ‹_›)
    | with_reducible apply State.bump_keeps
    | (extract_lets +onlyGivenNames x; first
        | (refine Keeps.cut (s := s) (x := x) (fun hx => ?_) ?_; clear_value x; revert x; intro y hy; rotate_left; unfold x; clear x)
        | (refine Keeps.cut1 (s := s) (x := x) (fun hx => ?_) ?_; clear_value x; revert x; intro y hy; rotate_left; unfold x; clear x)
        | (refine Keeps.cut2 (s := s) (x := x) (fun hx => ?_) ?_; clear_value x; revert x; intro y hy; rotate_left; unfold x; clear x)
        | (revert x; intro y))
    | simp only [Keeps.rest_iff, Keeps.clk_iff]
    | with_reducible apply Keeps.foldl
    | with_reducible apply Keeps.foldr
    | with_reducible apply Keeps.foldl_fst
    | (refine Keeps.of_fst ‹_ = _› ?_)
    | (refine Keeps.of_snd ‹_ = _› ?_)
    | split
    | (intro)

theorem State.dropTraffic_keeps {s t : State} {p : Nat} (h : Keeps s t) : Keeps s (State.dropTraffic t p).1 := by
  unfold State.dropTraffic
  try dsimp -zeta only
  repeat' first
    | with_reducible assumption
    | with_reducible exact Keeps.refl _
    | with_reducible rfl
    | with_reducible apply State.closeHold_keeps
    | with_reducible apply State.allCreditsBack_keeps
    | with_reducible apply State.resendVc0_keeps
    | with_reducible apply State.setPort_keeps
    | (extract_lets +onlyGivenNames x; first
        | (refine Keeps.cut (s := s) (x := x) (fun hx => ?_) ?_; clear_value x; revert x; intro y hy; rotate_left; unfold x; clear x)
        | (refine Keeps.cut1 (s := s) (x := x) (fun hx => ?_) ?_; clear_value x; revert x; intro y hy; rotate_left; unfold x; clear x)
        | (refine Keeps.cut2 (s := s) (x := x) (fun hx => ?_) ?_; clear_value x; revert x; intro y hy; rotate_left; unfold x; clear x)
        | (revert x; intro y))
    | simp only [Keeps.rest_iff, Keeps.clk_iff]
    | with_reducible apply Keeps.foldl
    | with_reducible apply Keeps.foldl_fst
    | (refine Keeps.of_fst ‹_ = _› ?_)
    | (refine Keeps.of_snd ‹_ = _› ?_)
    | split
    | (intro)

theorem portDown_keeps {s t : State} {p : Nat} (h : Keeps s t) : Keeps s (portDown t p) := by
  unfold portDown
  repeat' first
    | with_reducible assumption
    | with_reducible apply State.setPortState_keeps
    | with_reducible apply State.dropTraffic_keeps
    | with_reducible apply State.setPort_keeps
    | with_reducible apply State.report_keeps
    | (extract_lets +onlyGivenNames x; first
        | (revert x; intro y))
    | split

theorem State.retrain_keeps {s t : State} {p : Nat} (h : Keeps s t) : Keeps s (State.retrain t p) := by
  unfold State.retrain
  try dsimp -zeta only
  repeat' first
    | with_reducible assumption
    | with_reducible exact Keeps.refl _
    | with_reducible rfl
    | with_reducible apply State.train_keeps
    | with_reducible apply portDown_keeps
    | (extract_lets +onlyGivenNames x; first
        | (refine Keeps.cut (s := s) (x := x) (fun hx => ?_) ?_; clear_value x; revert x; intro y hy; rotate_left; unfold x; clear x)
        | (refine Keeps.cut1 (s := s) (x := x) (fun hx => ?_) ?_; clear_value x; revert x; intro y hy; rotate_left; unfold x; clear x)
        | (refine Keeps.cut2 (s := s) (x := x) (fun hx => ?_) ?_; clear_value x; revert x; intro y hy; rotate_left; unfold x; clear x)
        | (revert x; intro y))
    | simp only [Keeps.rest_iff, Keeps.clk_iff]
    | with_reducible apply Keeps.foldl
    | with_reducible apply Keeps.foldl_fst
    | (refine Keeps.of_fst ‹_ = _› ?_)
    | (refine Keeps.of_snd ‹_ = _› ?_)
    | split
    | (intro)

theorem execPortRetrain_keeps {s u : State} {p : Nat} (e : execPortRetrain p s = .next u) : Keeps s u := by
  unfold execPortRetrain at e
  injection e with e
  subst e
  try dsimp -zeta only
  repeat' first
    | with_reducible assumption
    | with_reducible exact Keeps.refl _
    | with_reducible rfl
    | with_reducible apply State.retrain_keeps
    | (extract_lets +onlyGivenNames x; first
        | (refine Keeps.cut (s := s) (x := x) (fun hx => ?_) ?_; clear_value x; revert x; intro y hy; rotate_left; unfold x; clear x)
        | (refine Keeps.cut1 (s := s) (x := x) (fun hx => ?_) ?_; clear_value x; revert x; intro y hy; rotate_left; unfold x; clear x)
        | (refine Keeps.cut2 (s := s) (x := x) (fun hx => ?_) ?_; clear_value x; revert x; intro y hy; rotate_left; unfold x; clear x)
        | (revert x; intro y))
    | simp only [Keeps.rest_iff, Keeps.clk_iff]
    | with_reducible apply Keeps.foldl
    | with_reducible apply Keeps.foldl_fst
    | (refine Keeps.of_fst ‹_ = _› ?_)
    | (refine Keeps.of_snd ‹_ = _› ?_)
    | split
    | (intro)

theorem execPortLinkLoss_keeps {s u : State} {p : Nat} (e : execPortLinkLoss p s = .next u) : Keeps s u := by
  unfold execPortLinkLoss at e
  injection e with e
  subst e
  try dsimp -zeta only
  repeat' first
    | with_reducible assumption
    | with_reducible exact Keeps.refl _
    | with_reducible rfl
    | with_reducible apply State.retrain_keeps
    | (extract_lets +onlyGivenNames x; first
        | (refine Keeps.cut (s := s) (x := x) (fun hx => ?_) ?_; clear_value x; revert x; intro y hy; rotate_left; unfold x; clear x)
        | (refine Keeps.cut1 (s := s) (x := x) (fun hx => ?_) ?_; clear_value x; revert x; intro y hy; rotate_left; unfold x; clear x)
        | (refine Keeps.cut2 (s := s) (x := x) (fun hx => ?_) ?_; clear_value x; revert x; intro y hy; rotate_left; unfold x; clear x)
        | (revert x; intro y))
    | simp only [Keeps.rest_iff, Keeps.clk_iff]
    | with_reducible apply Keeps.foldl
    | with_reducible apply Keeps.foldl_fst
    | (refine Keeps.of_fst ‹_ = _› ?_)
    | (refine Keeps.of_snd ‹_ = _› ?_)
    | split
    | (intro)

theorem execPortDownRetry_keeps {s u : State} {p : Nat} (e : execPortDownRetry p s = .next u) : Keeps s u := by
  unfold execPortDownRetry at e
  injection e with e
  subst e
  repeat' first
    | with_reducible exact Keeps.refl _
    | with_reducible apply State.train_keeps
    | with_reducible apply State.reach_keeps
    | split

theorem execPortTrainingTimeout_keeps {s u : State} {p : Nat} (e : execPortTrainingTimeout p s = .next u) : Keeps s u := by
  unfold execPortTrainingTimeout at e
  injection e with e
  subst e
  repeat' first
    | with_reducible exact Keeps.refl _
    | with_reducible apply portDown_keeps
    | with_reducible apply State.reach_keeps
    | split

theorem trained_keeps {s t : State} {p : Nat} {lastSeq : Nat} {passedOff : Bool} (h : Keeps s t) : Keeps s (trained t p lastSeq passedOff) := by
  unfold trained
  try dsimp -zeta only
  repeat' first
    | with_reducible assumption
    | with_reducible exact Keeps.refl _
    | with_reducible rfl
    | with_reducible apply State.bump_keeps
    | with_reducible apply State.allCreditsBack_keeps
    | with_reducible apply State.setPort_keeps
    | with_reducible apply State.ackUpTo_keeps
    | with_reducible apply State.putFlit_keeps
    | with_reducible apply State.auditPort_keeps
    | with_reducible apply State.setPortState_keeps
    | (extract_lets +onlyGivenNames x; first
        | (refine Keeps.cut (s := s) (x := x) (fun hx => ?_) ?_; clear_value x; revert x; intro y hy; rotate_left; unfold x; clear x)
        | (refine Keeps.cut1 (s := s) (x := x) (fun hx => ?_) ?_; clear_value x; revert x; intro y hy; rotate_left; unfold x; clear x)
        | (refine Keeps.cut2 (s := s) (x := x) (fun hx => ?_) ?_; clear_value x; revert x; intro y hy; rotate_left; unfold x; clear x)
        | (revert x; intro y))
    | simp only [Keeps.rest_iff, Keeps.clk_iff]
    | with_reducible apply Keeps.foldl
    | with_reducible apply Keeps.foldl_fst
    | (refine Keeps.of_fst ‹_ = _› ?_)
    | (refine Keeps.of_snd ‹_ = _› ?_)
    | split
    | (intro)

theorem execPortTrainingComplete_keeps {s u : State} {p : Nat} {lastSeq : Nat} {passedOff : Bool} (e : execPortTrainingComplete p lastSeq passedOff s = .next u) : Keeps s u := by
  unfold execPortTrainingComplete at e
  injection e with e
  subst e
  repeat' first
    | with_reducible exact Keeps.refl _
    | with_reducible apply trained_keeps
    | split

theorem State.portOff_keeps {s t : State} {p : Nat} (h : Keeps s t) : Keeps s (State.portOff t p) := by
  unfold State.portOff
  repeat' first
    | with_reducible assumption
    | with_reducible apply State.setPortState_keeps
    | with_reducible apply State.dropTraffic_keeps
    | with_reducible apply State.fput_keeps
    | with_reducible apply State.setPort_keeps
    | split

theorem State.applyPorts_keeps {s t : State} {r : Nat} (h : Keeps s t) : Keeps s (State.applyPorts t r) := by
  unfold State.applyPorts
  repeat' first
    | with_reducible assumption
    | with_reducible apply State.countPlan_keeps
    | with_reducible apply State.train_keeps
    | with_reducible apply State.portOff_keeps
    | (extract_lets +onlyGivenNames x; first
        | (revert x; intro y))
    | with_reducible apply Keeps.foldl
    | split
    | (intro)

theorem execHelloTimer_keeps {s u : State}  (e : execHelloTimer s = .next u) : Keeps s u := by
  unfold execHelloTimer at e
  injection e with e
  subst e
  repeat' first
    | with_reducible assumption
    | with_reducible exact Keeps.refl _
    | with_reducible apply State.auditPort_keeps
    | with_reducible apply State.setPort_keeps
    | with_reducible apply Keeps.foldl
    | split
    | (intro)

theorem State.judgeHello_keeps {s t : State} {p : Nat} {chip : Nat} {port : Nat} (h : Keeps s t) : Keeps s (State.judgeHello t p chip port) := by
  unfold State.judgeHello
  try dsimp -zeta only
  repeat' first
    | with_reducible assumption
    | with_reducible exact Keeps.refl _
    | with_reducible rfl
    | with_reducible apply State.fput_keeps
    | with_reducible apply State.setPortState_keeps
    | with_reducible apply State.report_keeps
    | with_reducible apply State.setPort_keeps
    | with_reducible apply State.closeHold_keeps
    | (extract_lets +onlyGivenNames x; first
        | (refine Keeps.cut (s := s) (x := x) (fun hx => ?_) ?_; clear_value x; revert x; intro y hy; rotate_left; unfold x; clear x)
        | (refine Keeps.cut1 (s := s) (x := x) (fun hx => ?_) ?_; clear_value x; revert x; intro y hy; rotate_left; unfold x; clear x)
        | (refine Keeps.cut2 (s := s) (x := x) (fun hx => ?_) ?_; clear_value x; revert x; intro y hy; rotate_left; unfold x; clear x)
        | (revert x; intro y))
    | simp only [Keeps.rest_iff, Keeps.clk_iff]
    | with_reducible apply Keeps.foldl
    | with_reducible apply Keeps.foldl_fst
    | (refine Keeps.of_fst ‹_ = _› ?_)
    | (refine Keeps.of_snd ‹_ = _› ?_)
    | split
    | (intro)

theorem State.answerHello_keeps {s t : State} {p : Nat} (h : Keeps s t) : Keeps s (State.answerHello t p) := by
  unfold State.answerHello
  repeat' first
    | with_reducible assumption
    | with_reducible apply State.setPort_keeps
    | with_reducible apply State.putFlit_keeps
    | (extract_lets +onlyGivenNames x; first
        | (revert x; intro y))
    | split

theorem State.takeHello_keeps {s t : State} {p : Nat} {chip : Nat} {valid : Bool} {port : Nat} (h : Keeps s t) : Keeps s (State.takeHello t p chip valid port) := by
  unfold State.takeHello
  try dsimp -zeta only
  repeat' first
    | with_reducible assumption
    | with_reducible exact Keeps.refl _
    | with_reducible rfl
    | with_reducible apply State.answerHello_keeps
    | with_reducible apply State.judgeHello_keeps
    | (extract_lets +onlyGivenNames x; first
        | (refine Keeps.cut (s := s) (x := x) (fun hx => ?_) ?_; clear_value x; revert x; intro y hy; rotate_left; unfold x; clear x)
        | (refine Keeps.cut1 (s := s) (x := x) (fun hx => ?_) ?_; clear_value x; revert x; intro y hy; rotate_left; unfold x; clear x)
        | (refine Keeps.cut2 (s := s) (x := x) (fun hx => ?_) ?_; clear_value x; revert x; intro y hy; rotate_left; unfold x; clear x)
        | (revert x; intro y))
    | simp only [Keeps.rest_iff, Keeps.clk_iff]
    | with_reducible apply Keeps.foldl
    | with_reducible apply Keeps.foldl_fst
    | (refine Keeps.of_fst ‹_ = _› ?_)
    | (refine Keeps.of_snd ‹_ = _› ?_)
    | split
    | (intro)

theorem execHelloReceive_keeps {s u : State} {p : Nat} {f : Flit} {crcOk : Bool} (e : execHelloReceive p f crcOk s = .next u) : Keeps s u := by
  unfold execHelloReceive at e
  injection e with e
  subst e
  try dsimp -zeta only
  repeat' first
    | with_reducible assumption
    | with_reducible exact Keeps.refl _
    | with_reducible rfl
    | with_reducible apply State.flitIn_keeps
    | with_reducible apply State.takeHello_keeps
    | (extract_lets +onlyGivenNames x; first
        | (refine Keeps.cut (s := s) (x := x) (fun hx => ?_) ?_; clear_value x; revert x; intro y hy; rotate_left; unfold x; clear x)
        | (refine Keeps.cut1 (s := s) (x := x) (fun hx => ?_) ?_; clear_value x; revert x; intro y hy; rotate_left; unfold x; clear x)
        | (refine Keeps.cut2 (s := s) (x := x) (fun hx => ?_) ?_; clear_value x; revert x; intro y hy; rotate_left; unfold x; clear x)
        | (revert x; intro y))
    | simp only [Keeps.rest_iff, Keeps.clk_iff]
    | with_reducible apply Keeps.foldl
    | with_reducible apply Keeps.foldl_fst
    | (refine Keeps.of_fst ‹_ = _› ?_)
    | (refine Keeps.of_snd ‹_ = _› ?_)
    | split
    | (intro)

theorem execDiscoveryTimeout_keeps {s u : State} {p : Nat} (e : execDiscoveryTimeout p s = .next u) : Keeps s u := by
  unfold execDiscoveryTimeout at e
  injection e with e
  subst e
  try dsimp -zeta only
  repeat' first
    | with_reducible assumption
    | with_reducible exact Keeps.refl _
    | with_reducible rfl
    | with_reducible apply State.reach_keeps
    | with_reducible apply State.dropTraffic_keeps
    | with_reducible apply State.setPortState_keeps
    | with_reducible apply State.setPort_keeps
    | with_reducible apply State.countPlan_keeps
    | (extract_lets +onlyGivenNames x; first
        | (refine Keeps.cut (s := s) (x := x) (fun hx => ?_) ?_; clear_value x; revert x; intro y hy; rotate_left; unfold x; clear x)
        | (refine Keeps.cut1 (s := s) (x := x) (fun hx => ?_) ?_; clear_value x; revert x; intro y hy; rotate_left; unfold x; clear x)
        | (refine Keeps.cut2 (s := s) (x := x) (fun hx => ?_) ?_; clear_value x; revert x; intro y hy; rotate_left; unfold x; clear x)
        | (revert x; intro y))
    | simp only [Keeps.rest_iff, Keeps.clk_iff]
    | with_reducible apply Keeps.foldl
    | with_reducible apply Keeps.foldl_fst
    | (refine Keeps.of_fst ‹_ = _› ?_)
    | (refine Keeps.of_snd ‹_ = _› ?_)
    | split
    | (intro)

theorem State.askKeepWarm_keeps {s t : State} {p : Nat} (h : Keeps s t) : Keeps s (State.askKeepWarm t p) := by
  unfold State.askKeepWarm
  repeat' first
    | with_reducible assumption
    | with_reducible apply State.setPort_keeps
    | (extract_lets +onlyGivenNames x; first
        | (revert x; intro y))
    | split

theorem State.kwAskedBy_keeps {s t : State} {p : Nat} (h : Keeps s t) : Keeps s (State.kwAskedBy t p) := by
  unfold State.kwAskedBy
  try dsimp -zeta only
  repeat' first
    | with_reducible assumption
    | with_reducible exact Keeps.refl _
    | with_reducible rfl
    | with_reducible apply State.putFlit_keeps
    | with_reducible apply State.enterKeepWarm_keeps
    | with_reducible apply State.setPort_keeps
    | (extract_lets +onlyGivenNames x; first
        | (refine Keeps.cut (s := s) (x := x) (fun hx => ?_) ?_; clear_value x; revert x; intro y hy; rotate_left; unfold x; clear x)
        | (refine Keeps.cut1 (s := s) (x := x) (fun hx => ?_) ?_; clear_value x; revert x; intro y hy; rotate_left; unfold x; clear x)
        | (refine Keeps.cut2 (s := s) (x := x) (fun hx => ?_) ?_; clear_value x; revert x; intro y hy; rotate_left; unfold x; clear x)
        | (revert x; intro y))
    | simp only [Keeps.rest_iff, Keeps.clk_iff]
    | with_reducible apply Keeps.foldl
    | with_reducible apply Keeps.foldl_fst
    | (refine Keeps.of_fst ‹_ = _› ?_)
    | (refine Keeps.of_snd ‹_ = _› ?_)
    | split
    | (intro)

theorem execKeepWarmRequest_keeps {s u : State} {p : Nat} {rx : Option Flit} {crcOk : Bool} (e : execKeepWarmRequest p rx crcOk s = .next u) : Keeps s u := by
  unfold execKeepWarmRequest at e
  injection e with e
  subst e
  try dsimp -zeta only
  repeat' first
    | with_reducible assumption
    | with_reducible exact Keeps.refl _
    | with_reducible rfl
    | with_reducible apply State.askKeepWarm_keeps
    | with_reducible apply State.flitIn_keeps
    | with_reducible apply State.kwAskedBy_keeps
    | (extract_lets +onlyGivenNames x; first
        | (refine Keeps.cut (s := s) (x := x) (fun hx => ?_) ?_; clear_value x; revert x; intro y hy; rotate_left; unfold x; clear x)
        | (refine Keeps.cut1 (s := s) (x := x) (fun hx => ?_) ?_; clear_value x; revert x; intro y hy; rotate_left; unfold x; clear x)
        | (refine Keeps.cut2 (s := s) (x := x) (fun hx => ?_) ?_; clear_value x; revert x; intro y hy; rotate_left; unfold x; clear x)
        | (revert x; intro y))
    | simp only [Keeps.rest_iff, Keeps.clk_iff]
    | with_reducible apply Keeps.foldl
    | with_reducible apply Keeps.foldl_fst
    | (refine Keeps.of_fst ‹_ = _› ?_)
    | (refine Keeps.of_snd ‹_ = _› ?_)
    | split
    | (intro)

theorem State.askExit_keeps {s t : State} {p : Nat} (h : Keeps s t) : Keeps s (State.askExit t p) := by
  unfold State.askExit
  repeat' first
    | with_reducible assumption
    | with_reducible apply State.setPort_keeps
    | (extract_lets +onlyGivenNames x; first
        | (revert x; intro y))
    | split

theorem execKeepWarmExitRequest_keeps {s u : State} {p : Nat} {rx : Option Flit} {crcOk : Bool} (e : execKeepWarmExitRequest p rx crcOk s = .next u) : Keeps s u := by
  unfold execKeepWarmExitRequest at e
  injection e with e
  subst e
  try dsimp -zeta only
  repeat' first
    | with_reducible assumption
    | with_reducible exact Keeps.refl _
    | with_reducible rfl
    | with_reducible apply State.askExit_keeps
    | with_reducible apply State.flitIn_keeps
    | with_reducible apply State.setPort_keeps
    | (extract_lets +onlyGivenNames x; first
        | (refine Keeps.cut (s := s) (x := x) (fun hx => ?_) ?_; clear_value x; revert x; intro y hy; rotate_left; unfold x; clear x)
        | (refine Keeps.cut1 (s := s) (x := x) (fun hx => ?_) ?_; clear_value x; revert x; intro y hy; rotate_left; unfold x; clear x)
        | (refine Keeps.cut2 (s := s) (x := x) (fun hx => ?_) ?_; clear_value x; revert x; intro y hy; rotate_left; unfold x; clear x)
        | (revert x; intro y))
    | simp only [Keeps.rest_iff, Keeps.clk_iff]
    | with_reducible apply Keeps.foldl
    | with_reducible apply Keeps.foldl_fst
    | (refine Keeps.of_fst ‹_ = _› ?_)
    | (refine Keeps.of_snd ‹_ = _› ?_)
    | split
    | (intro)

theorem execKeepWarmExitComplete_keeps {s u : State} {p : Nat} (e : execKeepWarmExitComplete p s = .next u) : Keeps s u := by
  unfold execKeepWarmExitComplete at e
  injection e with e
  subst e
  repeat' first
    | with_reducible exact Keeps.refl _
    | with_reducible apply State.fput_keeps
    | with_reducible apply State.setPort_keeps
    | split

end Sys2Proof.Machine
end

