-- ==== Sys2Proof/Laws/KeepsRope.lean ====
section
/-!
SUPPORT. What the operations of Machine/Rope.lean keep (Safety.lean).
-/
namespace Sys2Proof.Machine

open Sys2Proof

theorem State.rope_keeps {s t : State} {dst : Nat} {kind : Nat} {index : Nat} {body : List Byte} (h : Keeps s t) : Keeps s (State.rope t dst kind index body) := by
  unfold State.rope
  repeat' first
    | with_reducible assumption
    | with_reducible apply State.send_keeps

theorem State.updNode_keeps {s t : State} {job : Nat} {f : RopeNode → RopeNode} (h : Keeps s t) : Keeps s (State.updNode t job f) := by
  unfold State.updNode
  repeat' first
    | with_reducible assumption
    | with_reducible rfl
    | simp only [Keeps.rest_iff, Keeps.clk_iff]

theorem State.takeToken_keeps {s t : State} {job : Nat} (h : Keeps s t) : Keeps s (State.takeToken t job) := by
  unfold State.takeToken
  repeat' first
    | with_reducible assumption
    | with_reducible apply State.count_keeps
    | with_reducible apply State.setReg_keeps
    | simp only [Keeps.rest_iff, Keeps.clk_iff]
    | split

theorem State.returnToken_keeps {s t : State}  (h : Keeps s t) : Keeps s (State.returnToken t) := by
  unfold State.returnToken
  repeat' first
    | with_reducible assumption
    | with_reducible apply State.count_keeps
    | with_reducible apply State.setReg_keeps
    | simp only [Keeps.rest_iff, Keeps.clk_iff]
    | split

theorem State.dropNode_keeps {s t : State} {job : Nat} (h : Keeps s t) : Keeps s (State.dropNode t job) := by
  unfold State.dropNode
  repeat' first
    | with_reducible assumption
    | with_reducible apply State.returnToken_keeps
    | simp only [Keeps.rest_iff, Keeps.clk_iff]
    | split

theorem State.ropeDisarm_keeps {s t : State}  (h : Keeps s t) : Keeps s (State.ropeDisarm t) := by
  unfold State.ropeDisarm
  try dsimp -zeta only
  repeat' first
    | with_reducible assumption
    | with_reducible exact Keeps.refl _
    | with_reducible rfl
    | with_reducible apply State.returnToken_keeps
    | (extract_lets +onlyGivenNames x; first
        | (refine Keeps.cut (s := s) (x := x) (fun hx => ?_) ?_; clear_value x; revert x; intro y hy; rotate_left; unfold x; clear x)
        | (refine Keeps.cut1 (s := s) (x := x) (fun hx => ?_) ?_; clear_value x; revert x; intro y hy; rotate_left; unfold x; clear x)
        | (refine Keeps.cut2 (s := s) (x := x) (fun hx => ?_) ?_; clear_value x; revert x; intro y hy; rotate_left; unfold x; clear x)
        | (revert x; intro y))
    | simp only [Keeps.rest_iff, Keeps.clk_iff]
    | with_reducible apply Keeps.foldl
    | with_reducible apply Keeps.foldl_fst
    | (refine Keeps.of_fst ‹_ = _› ?_)
    | (refine Keeps.of_snd ‹_ = _› ?_)
    | split
    | (intro)

theorem State.ropeReset_keeps {s t : State}  (h : Keeps s t) : Keeps s (State.ropeReset t) := by
  unfold State.ropeReset
  repeat' first
    | with_reducible assumption
    | with_reducible apply State.returnToken_keeps
    | simp only [Keeps.rest_iff, Keeps.clk_iff]

theorem State.putStatus_keeps {s t : State} {root : Nat} {stat : Nat} {index : Nat} {code : Nat} (h : Keeps s t) : Keeps s (State.putStatus t root stat index code) := by
  unfold State.putStatus
  repeat' first
    | with_reducible assumption
    | with_reducible apply State.gwrite_keeps
    | with_reducible apply State.send_keeps
    | split

theorem State.armKids_keeps {s t : State} {n : RopeNode} {depth : Nat} {kids : List (Nat × Nat)} (h : Keeps s t) : Keeps s (State.armKids t n depth kids) := by
  unfold State.armKids
  repeat' first
    | with_reducible assumption
    | with_reducible apply State.rope_keeps
    | with_reducible apply Keeps.foldl
    | (intro)

theorem State.armAnswer_keeps {s t : State} {n : RopeNode} (h : Keeps s t) : Keeps s (State.armAnswer t n) := by
  unfold State.armAnswer
  repeat' first
    | with_reducible assumption
    | with_reducible apply State.updNode_keeps
    | with_reducible apply State.rope_keeps

theorem State.armAnswerIf_keeps {s t : State} {job : Nat} (h : Keeps s t) : Keeps s (State.armAnswerIf t job) := by
  unfold State.armAnswerIf
  repeat' first
    | with_reducible assumption
    | with_reducible apply State.armAnswer_keeps
    | split

theorem armNode_keeps {s t : State} {n0 : RopeNode} (h : Keeps s t) : Keeps s (armNode t n0) := by
  unfold armNode
  repeat' first
    | with_reducible assumption
    | with_reducible apply State.takeToken_keeps
    | with_reducible apply State.armAnswerIf_keeps
    | with_reducible apply State.armKids_keeps
    | with_reducible apply State.putStatus_keeps
    | simp only [Keeps.rest_iff, Keeps.clk_iff]
    | split

theorem execArm_keeps {s u : State} {pkt : Packet} {entries : List Byte} (e : execArm pkt entries s = .next u) : Keeps s u := by
  unfold execArm at e
  injection e with e
  subst e
  repeat' first
    | with_reducible exact Keeps.refl _
    | refine State.take_keeps ?_ ‹_›
    | with_reducible apply armNode_keeps
    | split

theorem State.endRoot_keeps {s t : State} {r : RopeRoot} {d : Done} (h : Keeps s t) : Keeps s (State.endRoot t r d) := by
  unfold State.endRoot
  repeat' first
    | with_reducible assumption
    | with_reducible apply State.setDone_keeps
    | simp only [Keeps.rest_iff, Keeps.clk_iff]

theorem State.setRoot_keeps {s t : State} {r : RopeRoot} (h : Keeps s t) : Keeps s (State.setRoot t r) := by
  unfold State.setRoot
  repeat' first
    | with_reducible assumption
    | with_reducible rfl
    | simp only [Keeps.rest_iff, Keeps.clk_iff]

theorem State.commitNode_keeps {s t : State} {n : RopeNode} {start : Nat} {parent : Nat} (h : Keeps s t) : Keeps s (State.commitNode t n start parent) := by
  unfold State.commitNode
  try dsimp -zeta only
  repeat' first
    | with_reducible assumption
    | with_reducible exact Keeps.refl _
    | with_reducible rfl
    | with_reducible apply State.updNode_keeps
    | with_reducible apply State.fput_keeps
    | with_reducible apply State.report_keeps
    | with_reducible apply State.sendEvent_keeps
    | with_reducible apply State.putStatus_keeps
    | (extract_lets +onlyGivenNames x; first
        | (refine Keeps.cut (s := s) (x := x) (fun hx => ?_) ?_; clear_value x; revert x; intro y hy; rotate_left; unfold x; clear x)
        | (refine Keeps.cut1 (s := s) (x := x) (fun hx => ?_) ?_; clear_value x; revert x; intro y hy; rotate_left; unfold x; clear x)
        | (refine Keeps.cut2 (s := s) (x := x) (fun hx => ?_) ?_; clear_value x; revert x; intro y hy; rotate_left; unfold x; clear x)
        | (revert x; intro y))
    | simp only [Keeps.rest_iff, Keeps.clk_iff]
    | with_reducible apply Keeps.foldl
    | with_reducible apply Keeps.foldl_fst
    | (refine Keeps.of_fst ‹_ = _› ?_)
    | (refine Keeps.of_snd ‹_ = _› ?_)
    | split
    | (intro)

theorem State.commitKids_keeps {s t : State} {job : Nat} {start : Nat} {root : Nat} {kids : List (Nat × Nat)} (h : Keeps s t) : Keeps s (State.commitKids t job start root kids) := by
  unfold State.commitKids
  repeat' first
    | with_reducible assumption
    | with_reducible apply State.rope_keeps
    | with_reducible apply Keeps.foldl
    | (intro)

theorem State.commitOver_keeps {s t : State} {r : RopeRoot} (h : Keeps s t) : Keeps s (State.commitOver t r) := by
  unfold State.commitOver
  repeat' first
    | with_reducible assumption
    | with_reducible apply State.endRoot_keeps
    | split

theorem State.rootCommit_keeps {s t : State} {r : RopeRoot} (h : Keeps s t) : Keeps s (State.rootCommit t r) := by
  unfold State.rootCommit
  try dsimp only
  repeat' first
    | with_reducible assumption
    | with_reducible exact Keeps.refl _
    | with_reducible rfl
    | with_reducible apply State.commitNode_keeps
    | with_reducible apply State.commitKids_keeps
    | with_reducible apply State.setRoot_keeps
    | with_reducible apply State.commitOver_keeps
    | (extract_lets +onlyGivenNames x; first
        | (refine Keeps.cut (s := s) (x := x) (fun hx => ?_) ?_; clear_value x; revert x; intro y hy; rotate_left; unfold x; clear x)
        | (refine Keeps.cut1 (s := s) (x := x) (fun hx => ?_) ?_; clear_value x; revert x; intro y hy; rotate_left; unfold x; clear x)
        | (refine Keeps.cut2 (s := s) (x := x) (fun hx => ?_) ?_; clear_value x; revert x; intro y hy; rotate_left; unfold x; clear x)
        | (revert x; intro y))
    | simp only [Keeps.rest_iff, Keeps.clk_iff]
    | with_reducible apply Keeps.foldl
    | with_reducible apply Keeps.foldl_fst
    | (refine Keeps.of_fst ‹_ = _› ?_)
    | (refine Keeps.of_snd ‹_ = _› ?_)
    | split
    | (intro)

theorem State.rootDisarm_keeps {s t : State} {r : RopeRoot} (h : Keeps s t) : Keeps s (State.rootDisarm t r) := by
  unfold State.rootDisarm
  repeat' first
    | with_reducible assumption
    | with_reducible apply State.dropNode_keeps
    | with_reducible apply State.rope_keeps
    | with_reducible apply Keeps.foldl
    | split
    | (intro)

theorem State.armOver_keeps {s t : State} {r : RopeRoot} {armed : Nat} {refused : Nat} {missing : Nat} (h : Keeps s t) : Keeps s (State.armOver t r armed refused missing) := by
  unfold State.armOver
  repeat' first
    | with_reducible assumption
    | with_reducible apply State.rootCommit_keeps
    | with_reducible apply State.endRoot_keeps
    | with_reducible apply State.rootDisarm_keeps
    | split

theorem State.rootAdopts_keeps {s t : State} {r : RopeRoot} {a : Adoption} (h : Keeps s t) : Keeps s (State.rootAdopts t r a) := by
  unfold State.rootAdopts
  try dsimp -zeta only
  repeat' first
    | with_reducible assumption
    | with_reducible exact Keeps.refl _
    | with_reducible rfl
    | with_reducible apply State.rope_keeps
    | with_reducible apply State.commitKids_keeps
    | (extract_lets +onlyGivenNames x; first
        | (refine Keeps.cut (s := s) (x := x) (fun hx => ?_) ?_; clear_value x; revert x; intro y hy; rotate_left; unfold x; clear x)
        | (refine Keeps.cut1 (s := s) (x := x) (fun hx => ?_) ?_; clear_value x; revert x; intro y hy; rotate_left; unfold x; clear x)
        | (refine Keeps.cut2 (s := s) (x := x) (fun hx => ?_) ?_; clear_value x; revert x; intro y hy; rotate_left; unfold x; clear x)
        | (revert x; intro y))
    | simp only [Keeps.rest_iff, Keeps.clk_iff]
    | with_reducible apply Keeps.foldl
    | with_reducible apply Keeps.foldl_fst
    | (refine Keeps.of_fst ‹_ = _› ?_)
    | (refine Keeps.of_snd ‹_ = _› ?_)
    | split
    | (intro)

theorem State.reRope_keeps {s t : State} {r : RopeRoot} (h : Keeps s t) : Keeps s (State.reRope t r) := by
  unfold State.reRope
  try dsimp -zeta only
  repeat' first
    | with_reducible assumption
    | with_reducible exact Keeps.refl _
    | with_reducible rfl
    | with_reducible apply State.rootAdopts_keeps
    | with_reducible apply State.rope_keeps
    | with_reducible apply State.setRoot_keeps
    | (extract_lets +onlyGivenNames x; first
        | (refine Keeps.cut (s := s) (x := x) (fun hx => ?_) ?_; clear_value x; revert x; intro y hy; rotate_left; unfold x; clear x)
        | (refine Keeps.cut1 (s := s) (x := x) (fun hx => ?_) ?_; clear_value x; revert x; intro y hy; rotate_left; unfold x; clear x)
        | (refine Keeps.cut2 (s := s) (x := x) (fun hx => ?_) ?_; clear_value x; revert x; intro y hy; rotate_left; unfold x; clear x)
        | (revert x; intro y))
    | simp only [Keeps.rest_iff, Keeps.clk_iff]
    | with_reducible apply Keeps.foldl
    | with_reducible apply Keeps.foldl_fst
    | (refine Keeps.of_fst ‹_ = _› ?_)
    | (refine Keeps.of_snd ‹_ = _› ?_)
    | split
    | (intro)

theorem State.rootNext_keeps {s t : State} {r : RopeRoot} (h : Keeps s t) : Keeps s (State.rootNext t r) := by
  unfold State.rootNext
  repeat' first
    | with_reducible assumption
    | with_reducible apply State.armOver_keeps
    | with_reducible apply State.reRope_keeps
    | with_reducible apply State.setRoot_keeps
    | with_reducible apply State.commitOver_keeps
    | split

theorem jobStart_keeps {s t : State} {d : Started} (h : Keeps s t) : Keeps s (jobStart t d) := by
  unfold jobStart
  repeat' first
    | with_reducible assumption
    | with_reducible apply State.setDone_keeps
    | with_reducible apply State.gwrite_keeps
    | with_reducible apply armNode_keeps
    | with_reducible apply State.rootNext_keeps
    | (extract_lets +onlyGivenNames x; first
        | (revert x; intro y))
    | split

theorem State.jobRead_keeps {s t : State} {d : Started} (h : Keeps s t) : Keeps s (State.jobRead t d) := by
  unfold State.jobRead
  try dsimp -zeta only
  repeat' first
    | with_reducible assumption
    | with_reducible exact Keeps.refl _
    | with_reducible rfl
    | with_reducible apply State.poisonCheck_keeps
    | with_reducible apply State.setDone_keeps
    | with_reducible apply jobStart_keeps
    | with_reducible apply State.updStarted_keeps
    | (extract_lets +onlyGivenNames x; first
        | (refine Keeps.cut (s := s) (x := x) (fun hx => ?_) ?_; clear_value x; revert x; intro y hy; rotate_left; unfold x; clear x)
        | (refine Keeps.cut1 (s := s) (x := x) (fun hx => ?_) ?_; clear_value x; revert x; intro y hy; rotate_left; unfold x; clear x)
        | (refine Keeps.cut2 (s := s) (x := x) (fun hx => ?_) ?_; clear_value x; revert x; intro y hy; rotate_left; unfold x; clear x)
        | (revert x; intro y))
    | simp only [Keeps.rest_iff, Keeps.clk_iff]
    | with_reducible apply Keeps.foldl
    | with_reducible apply Keeps.foldl_fst
    | (refine Keeps.of_fst ‹_ = _› ?_)
    | (refine Keeps.of_snd ‹_ = _› ?_)
    | split
    | (intro)

theorem execJobStart_keeps {s u : State} {n : Nat} {seq : Nat} {ecc : EccFinds} (e : execJobStart n seq ecc s = .next u) : Keeps s u := by
  unfold execJobStart at e
  injection e with e
  subst e
  try dsimp -zeta only
  repeat' first
    | with_reducible assumption
    | with_reducible exact Keeps.refl _
    | with_reducible rfl
    | with_reducible apply State.eccAll_keeps
    | with_reducible apply State.jobRead_keeps
    | (extract_lets +onlyGivenNames x; first
        | (refine Keeps.cut (s := s) (x := x) (fun hx => ?_) ?_; clear_value x; revert x; intro y hy; rotate_left; unfold x; clear x)
        | (refine Keeps.cut1 (s := s) (x := x) (fun hx => ?_) ?_; clear_value x; revert x; intro y hy; rotate_left; unfold x; clear x)
        | (refine Keeps.cut2 (s := s) (x := x) (fun hx => ?_) ?_; clear_value x; revert x; intro y hy; rotate_left; unfold x; clear x)
        | (revert x; intro y))
    | simp only [Keeps.rest_iff, Keeps.clk_iff]
    | with_reducible apply Keeps.foldl
    | with_reducible apply Keeps.foldl_fst
    | (refine Keeps.of_fst ‹_ = _› ?_)
    | (refine Keeps.of_snd ‹_ = _› ?_)
    | split
    | (intro)

theorem execJobEnd_keeps {s u : State} {n : Nat} {seq : Nat} (e : execJobEnd n seq s = .next u) : Keeps s u := by
  unfold execJobEnd at e
  injection e with e
  subst e
  repeat' first
    | with_reducible exact Keeps.refl _
    | with_reducible apply State.setDone_keeps
    | with_reducible apply State.dropNode_keeps
    | (extract_lets +onlyGivenNames x; first
        | (revert x; intro y))
    | split

theorem execRootArmTimeout_keeps {s u : State}  (e : execRootArmTimeout s = .next u) : Keeps s u := by
  unfold execRootArmTimeout at e
  injection e with e
  subst e
  repeat' first
    | with_reducible exact Keeps.refl _
    | with_reducible apply State.reRope_keeps
    | with_reducible apply State.reach_keeps
    | split

theorem execMissingTimeout_keeps {s u : State}  (e : execMissingTimeout s = .next u) : Keeps s u := by
  unfold execMissingTimeout at e
  injection e with e
  subst e
  repeat' first
    | with_reducible assumption
    | with_reducible exact Keeps.refl _
    | with_reducible apply State.reach_keeps
    | with_reducible apply State.putStatus_keeps
    | with_reducible apply State.armOver_keeps
    | with_reducible apply State.commitOver_keeps
    | with_reducible apply Keeps.foldl
    | split
    | (intro)

theorem State.rootArmAck_keeps {s t : State} {r : RopeRoot} {k : Packet} (h : Keeps s t) : Keeps s (State.rootArmAck t r k) := by
  unfold State.rootArmAck
  repeat' first
    | with_reducible assumption
    | with_reducible apply State.rootNext_keeps
    | (extract_lets +onlyGivenNames x; first
        | (revert x; intro y))
    | split

theorem State.nodeArmAck_keeps {s t : State} {n : RopeNode} {k : Packet} (h : Keeps s t) : Keeps s (State.nodeArmAck t n k) := by
  unfold State.nodeArmAck
  repeat' first
    | with_reducible assumption
    | with_reducible apply State.armAnswerIf_keeps
    | with_reducible apply State.updNode_keeps
    | with_reducible apply State.rope_keeps
    | (extract_lets +onlyGivenNames x; first
        | (revert x; intro y))
    | split

theorem execArmAckReceive_keeps {s u : State} {pkt : Packet} (e : execArmAckReceive pkt s = .next u) : Keeps s u := by
  unfold execArmAckReceive at e
  injection e with e
  subst e
  repeat' first
    | with_reducible exact Keeps.refl _
    | refine State.take_keeps ?_ ‹_›
    | with_reducible apply State.rootArmAck_keeps
    | with_reducible apply State.nodeArmAck_keeps
    | (extract_lets +onlyGivenNames x; first
        | (revert x; intro y))
    | split

theorem State.commitAnswer_keeps {s t : State} {n : RopeNode} (h : Keeps s t) : Keeps s (State.commitAnswer t n) := by
  unfold State.commitAnswer
  repeat' first
    | with_reducible assumption
    | with_reducible apply State.updNode_keeps
    | with_reducible apply State.rope_keeps

theorem State.commitAnswerIf_keeps {s t : State} {job : Nat} (h : Keeps s t) : Keeps s (State.commitAnswerIf t job) := by
  unfold State.commitAnswerIf
  repeat' first
    | with_reducible assumption
    | with_reducible apply State.commitAnswer_keeps
    | split

theorem execArmWaitExpire_keeps {s u : State} {job : Nat} (e : execArmWaitExpire job s = .next u) : Keeps s u := by
  unfold execArmWaitExpire at e
  injection e with e
  subst e
  repeat' first
    | with_reducible exact Keeps.refl _
    | with_reducible apply State.armAnswer_keeps
    | with_reducible apply State.reach_keeps
    | with_reducible apply State.commitAnswer_keeps
    | split

theorem State.adopt_keeps {s t : State} {k : Packet} {entries : List Byte} (h : Keeps s t) : Keeps s (State.adopt t k entries) := by
  unfold State.adopt
  repeat' first
    | with_reducible assumption
    | with_reducible apply State.updNode_keeps
    | with_reducible apply State.armKids_keeps
    | with_reducible apply State.commitKids_keeps
    | (extract_lets +onlyGivenNames x; first
        | (revert x; intro y))
    | split

theorem execAdopt_keeps {s u : State} {pkt : Packet} {entries : List Byte} (e : execAdopt pkt entries s = .next u) : Keeps s u := by
  unfold execAdopt at e
  injection e with e
  subst e
  repeat' first
    | with_reducible exact Keeps.refl _
    | refine State.take_keeps ?_ ‹_›
    | with_reducible apply State.adopt_keeps
    | split

theorem State.takeCommit_keeps {s t : State} {k : Packet} (h : Keeps s t) : Keeps s (State.takeCommit t k) := by
  unfold State.takeCommit
  try dsimp only
  repeat' first
    | with_reducible assumption
    | with_reducible exact Keeps.refl _
    | with_reducible rfl
    | with_reducible apply State.rope_keeps
    | with_reducible apply State.updNode_keeps
    | with_reducible apply State.commitAnswerIf_keeps
    | with_reducible apply State.commitKids_keeps
    | with_reducible apply State.commitNode_keeps
    | (extract_lets +onlyGivenNames x; first
        | (refine Keeps.cut (s := s) (x := x) (fun hx => ?_) ?_; clear_value x; revert x; intro y hy; rotate_left; unfold x; clear x)
        | (refine Keeps.cut1 (s := s) (x := x) (fun hx => ?_) ?_; clear_value x; revert x; intro y hy; rotate_left; unfold x; clear x)
        | (refine Keeps.cut2 (s := s) (x := x) (fun hx => ?_) ?_; clear_value x; revert x; intro y hy; rotate_left; unfold x; clear x)
        | (revert x; intro y))
    | simp only [Keeps.rest_iff, Keeps.clk_iff]
    | with_reducible apply Keeps.foldl
    | with_reducible apply Keeps.foldl_fst
    | (refine Keeps.of_fst ‹_ = _› ?_)
    | (refine Keeps.of_snd ‹_ = _› ?_)
    | split
    | (intro)

theorem execCommit_keeps {s u : State} {pkt : Packet} (e : execCommit pkt s = .next u) : Keeps s u := by
  unfold execCommit at e
  injection e with e
  subst e
  repeat' first
    | with_reducible exact Keeps.refl _
    | refine State.take_keeps ?_ ‹_›
    | with_reducible apply State.takeCommit_keeps
    | split

theorem State.rootCommitAck_keeps {s t : State} {r : RopeRoot} {k : Packet} (h : Keeps s t) : Keeps s (State.rootCommitAck t r k) := by
  unfold State.rootCommitAck
  repeat' first
    | with_reducible assumption
    | with_reducible apply State.rootNext_keeps
    | split

theorem State.nodeCommitAck_keeps {s t : State} {n : RopeNode} {k : Packet} (h : Keeps s t) : Keeps s (State.nodeCommitAck t n k) := by
  unfold State.nodeCommitAck
  repeat' first
    | with_reducible assumption
    | with_reducible apply State.commitAnswerIf_keeps
    | with_reducible apply State.updNode_keeps
    | with_reducible apply State.rope_keeps
    | (extract_lets +onlyGivenNames x; first
        | (revert x; intro y))
    | split

theorem execCommitAckReceive_keeps {s u : State} {pkt : Packet} (e : execCommitAckReceive pkt s = .next u) : Keeps s u := by
  unfold execCommitAckReceive at e
  injection e with e
  subst e
  repeat' first
    | with_reducible exact Keeps.refl _
    | refine State.take_keeps ?_ ‹_›
    | with_reducible apply State.rootCommitAck_keeps
    | with_reducible apply State.nodeCommitAck_keeps
    | (extract_lets +onlyGivenNames x; first
        | (revert x; intro y))
    | split

theorem execStartTimeReached_keeps {s u : State}  (e : execStartTimeReached s = .next u) : Keeps s u := by
  unfold execStartTimeReached at e
  injection e with e
  subst e
  repeat' first
    | with_reducible exact Keeps.refl _
    | with_reducible apply State.sendEvent_keeps
    | with_reducible apply State.updNode_keeps
    | with_reducible apply State.reachNs_keeps
    | split

theorem State.takeDisarm_keeps {s t : State} {k : Packet} (h : Keeps s t) : Keeps s (State.takeDisarm t k) := by
  unfold State.takeDisarm
  repeat' first
    | with_reducible assumption
    | with_reducible apply State.dropNode_keeps
    | with_reducible apply State.rope_keeps
    | (extract_lets +onlyGivenNames x; first
        | (revert x; intro y))
    | with_reducible apply Keeps.foldl
    | split
    | (intro)

theorem execDisarm_keeps {s u : State} {pkt : Packet} (e : execDisarm pkt s = .next u) : Keeps s u := by
  unfold execDisarm at e
  injection e with e
  subst e
  repeat' first
    | with_reducible exact Keeps.refl _
    | refine State.take_keeps ?_ ‹_›
    | with_reducible apply State.takeDisarm_keeps
    | split

theorem execArmHoldExpire_keeps {s u : State}  (e : execArmHoldExpire s = .next u) : Keeps s u := by
  unfold execArmHoldExpire at e
  injection e with e
  subst e
  repeat' first
    | with_reducible exact Keeps.refl _
    | with_reducible apply State.dropNode_keeps
    | with_reducible apply State.reach_keeps
    | split

theorem State.ropeUnanswered_keeps {s t : State} {i : Nat} (h : Keeps s t) : Keeps s (State.ropeUnanswered t i) := by
  unfold State.ropeUnanswered
  repeat' first
    | with_reducible assumption
    | with_reducible apply State.rootNext_keeps
    | with_reducible apply State.commitAnswerIf_keeps
    | with_reducible apply State.armAnswerIf_keeps
    | with_reducible apply State.updNode_keeps
    | split

end Sys2Proof.Machine
end

