-- ==== Sys2Proof/Laws/KeepsHalt.lean ====
section
/-!
SUPPORT. What the operations of Machine/Halt.lean keep (Safety.lean).
-/
namespace Sys2Proof.Machine

open Sys2Proof

theorem State.haltRope_keeps {s t : State} {d : Started} (h : Keeps s t) : Keeps s (State.haltRope t d) := by
  unfold State.haltRope
  repeat' first
    | with_reducible assumption
    | with_reducible apply State.rootDisarm_keeps
    | simp only [Keeps.rest_iff, Keeps.clk_iff]
    | split

theorem State.haltScan_keeps {s t : State} {d : Started} (h : Keeps s t) : Keeps s (State.haltScan t d) := by
  unfold State.haltScan
  repeat' first
    | with_reducible assumption
    | with_reducible apply State.scanOver_keeps
    | with_reducible apply State.dieOn_keeps
    | split

theorem State.haltCaddy_keeps {s t : State} {d : Started} (h : Keeps s t) : Keeps s (State.haltCaddy t d) := by
  unfold State.haltCaddy
  repeat' first
    | with_reducible assumption
    | with_reducible rfl
    | simp only [Keeps.rest_iff, Keeps.clk_iff]
    | split

theorem State.haltDesc_keeps {s t : State} {d : Started} {done : Done} (h : Keeps s t) : Keeps s (State.haltDesc t d done) := by
  unfold State.haltDesc
  repeat' first
    | with_reducible assumption
    | with_reducible apply State.stopDesc_keeps
    | with_reducible apply State.haltCaddy_keeps
    | with_reducible apply State.haltScan_keeps
    | with_reducible apply State.haltRope_keeps

theorem execDeadlineMiss_keeps {s u : State} {n : Nat} {seq : Nat} (e : execDeadlineMiss n seq s = .next u) : Keeps s u := by
  unfold execDeadlineMiss at e
  injection e with e
  subst e
  repeat' first
    | with_reducible exact Keeps.refl _
    | with_reducible apply State.reachTime_keeps
    | with_reducible apply State.declareHang_keeps
    | with_reducible apply State.report_keeps
    | split

theorem State.deadlineFetched_keeps {s t : State} {n : Nat} {f : Fetched} (h : Keeps s t) : Keeps s (State.deadlineFetched t n f) := by
  unfold State.deadlineFetched
  repeat' first
    | with_reducible assumption
    | with_reducible apply State.forgetPrefetch_keeps
    | with_reducible apply State.setSq_keeps
    | with_reducible apply State.completeFetched_keeps

theorem execDeadlineExpire_keeps {s u : State} {n : Nat} {seq : Nat} (e : execDeadlineExpire n seq s = .next u) : Keeps s u := by
  unfold execDeadlineExpire at e
  injection e with e
  subst e
  repeat' first
    | with_reducible exact Keeps.refl _
    | with_reducible apply State.deadlineFetched_keeps
    | with_reducible apply State.reachTime_keeps
    | with_reducible apply State.haltDesc_keeps
    | split

end Sys2Proof.Machine
end

