-- ==== Sys2Proof/Laws/KeepsFaults.lean ====
section
/-!
SUPPORT. What the operations of Machine/Faults.lean keep (Safety.lean).
-/
namespace Sys2Proof.Machine

open Sys2Proof

theorem State.bridgeReport_keeps {s t : State} {i : Nat} {die : Nat} {other : Nat} (h : Keeps s t) : Keeps s (State.bridgeReport t i die other) := by
  unfold State.bridgeReport
  repeat' first
    | with_reducible assumption
    | with_reducible apply State.report_keeps

theorem bridgeDown_keeps {s t : State} {i : Nat} (h : Keeps s t) : Keeps s (bridgeDown t i) := by
  unfold bridgeDown
  repeat' first
    | with_reducible assumption
    | with_reducible apply State.bridgeReport_keeps
    | with_reducible apply State.report_keeps
    | simp only [Keeps.rest_iff, Keeps.clk_iff]
    | split

theorem execBridgeRetryExhausted_keeps {s u : State} {bridge : Nat} (e : execBridgeRetryExhausted bridge s = .next u) : Keeps s u := by
  unfold execBridgeRetryExhausted at e
  injection e with e
  subst e
  repeat' first
    | with_reducible exact Keeps.refl _
    | with_reducible apply bridgeDown_keeps
    | split

theorem execCongestionEpisode_keeps {s u : State} {level : Nat} {die : Nat} {point : Nat} {tc : Nat} (e : execCongestionEpisode level die point tc s = .next u) : Keeps s u := by
  unfold execCongestionEpisode at e
  injection e with e
  subst e
  repeat' first
    | with_reducible exact Keeps.refl _
    | with_reducible apply State.event_keeps
    | with_reducible apply State.bump_keeps
    | simp only [Keeps.rest_iff, Keeps.clk_iff]
    | split

theorem execCongestionEpisodeEnd_keeps {s u : State} {level : Nat} {die : Nat} {point : Nat} {tc : Nat} (e : execCongestionEpisodeEnd level die point tc s = .next u) : Keeps s u := by
  unfold execCongestionEpisodeEnd at e
  injection e with e
  subst e
  repeat' first
    | with_reducible exact Keeps.refl _
    | with_reducible rfl
    | simp only [Keeps.rest_iff, Keeps.clk_iff]

theorem execCeRate_keeps {s u : State} {subject : Nat} (e : execCeRate subject s = .next u) : Keeps s u := by
  unfold execCeRate at e
  injection e with e
  subst e
  repeat' first
    | with_reducible exact Keeps.refl _
    | with_reducible apply State.report_keeps
    | simp only [Keeps.rest_iff, Keeps.clk_iff]
    | split

theorem State.timedOut_keeps {s t : State} {d : Started} {die : Nat} {target : Nat} {lower : Bool} (h : Keeps s t) : Keeps s (State.timedOut t d die target lower) := by
  unfold State.timedOut
  repeat' first
    | with_reducible assumption
    | with_reducible apply State.report_keeps
    | with_reducible apply State.haltDesc_keeps

theorem State.addTimed_keeps {s t : State} {x : Timed} (h : Keeps s t) : Keeps s (State.addTimed t x) := by
  unfold State.addTimed
  try dsimp -zeta only
  repeat' first
    | with_reducible assumption
    | with_reducible exact Keeps.refl _
    | with_reducible rfl
    | (extract_lets +onlyGivenNames x; first
        | (refine Keeps.cut (s := s) (x := x) (fun hx => ?_) ?_; clear_value x; revert x; intro y hy; rotate_left; unfold x; clear x)
        | (refine Keeps.cut1 (s := s) (x := x) (fun hx => ?_) ?_; clear_value x; revert x; intro y hy; rotate_left; unfold x; clear x)
        | (refine Keeps.cut2 (s := s) (x := x) (fun hx => ?_) ?_; clear_value x; revert x; intro y hy; rotate_left; unfold x; clear x)
        | (revert x; intro y))
    | simp only [Keeps.rest_iff, Keeps.clk_iff]
    | with_reducible apply Keeps.foldl
    | with_reducible apply Keeps.foldl_fst
    | (refine Keeps.of_fst ‹_ = _› ?_)
    | (refine Keeps.of_snd ‹_ = _› ?_)
    | split
    | (intro)

theorem requestTimer_keeps {s t : State} {d : Started} {kind : Nat} {die : Nat} {target : Nat} {write : Bool} {lower : Bool} (h : Keeps s t) : Keeps s (requestTimer t d kind die target write lower) := by
  unfold requestTimer
  try dsimp -zeta only
  repeat' first
    | with_reducible assumption
    | with_reducible exact Keeps.refl _
    | with_reducible rfl
    | with_reducible apply State.reach_keeps
    | with_reducible apply State.timedOut_keeps
    | with_reducible apply State.newTag_keeps
    | with_reducible apply State.addTimed_keeps
    | (extract_lets +onlyGivenNames x; first
        | (refine Keeps.cut (s := s) (x := x) (fun hx => ?_) ?_; clear_value x; revert x; intro y hy; rotate_left; unfold x; clear x)
        | (refine Keeps.cut1 (s := s) (x := x) (fun hx => ?_) ?_; clear_value x; revert x; intro y hy; rotate_left; unfold x; clear x)
        | (refine Keeps.cut2 (s := s) (x := x) (fun hx => ?_) ?_; clear_value x; revert x; intro y hy; rotate_left; unfold x; clear x)
        | (revert x; intro y))
    | simp only [Keeps.rest_iff, Keeps.clk_iff]
    | with_reducible apply Keeps.foldl
    | with_reducible apply Keeps.foldl_fst
    | (refine Keeps.of_fst ‹_ = _› ?_)
    | (refine Keeps.of_snd ‹_ = _› ?_)
    | split
    | (intro)

theorem execRegionTimerExpire_keeps {s u : State} {n : Nat} {seq : Nat} {die : Nat} {target : Nat} {write : Bool} {lower : Bool} (e : execRegionTimerExpire n seq die target write lower s = .next u) : Keeps s u := by
  unfold execRegionTimerExpire at e
  injection e with e
  subst e
  repeat' first
    | with_reducible exact Keeps.refl _
    | with_reducible apply requestTimer_keeps
    | split

theorem State.reissueRow_keeps {s t : State} {g : GatherRun} {p : GPos} {d : Started} (h : Keeps s t) : Keeps s (State.reissueRow t g p d) := by
  unfold State.reissueRow
  try dsimp -zeta only
  repeat' first
    | with_reducible assumption
    | with_reducible exact Keeps.refl _
    | with_reducible rfl
    | with_reducible apply State.sendRow_keeps
    | with_reducible apply State.updGather_keeps
    | (extract_lets +onlyGivenNames x; first
        | (refine Keeps.cut (s := s) (x := x) (fun hx => ?_) ?_; clear_value x; revert x; intro y hy; rotate_left; unfold x; clear x)
        | (refine Keeps.cut1 (s := s) (x := x) (fun hx => ?_) ?_; clear_value x; revert x; intro y hy; rotate_left; unfold x; clear x)
        | (refine Keeps.cut2 (s := s) (x := x) (fun hx => ?_) ?_; clear_value x; revert x; intro y hy; rotate_left; unfold x; clear x)
        | (revert x; intro y))
    | simp only [Keeps.rest_iff, Keeps.clk_iff]
    | with_reducible apply Keeps.foldl
    | with_reducible apply Keeps.foldl_fst
    | (refine Keeps.of_fst ‹_ = _› ?_)
    | (refine Keeps.of_snd ‹_ = _› ?_)
    | split
    | (intro)

theorem rowTimer_keeps {s t : State} {g : GatherRun} {p : GPos} {lower : Bool} (h : Keeps s t) : Keeps s (rowTimer t g p lower) := by
  unfold rowTimer
  try dsimp -zeta only
  repeat' first
    | with_reducible assumption
    | with_reducible exact Keeps.refl _
    | with_reducible rfl
    | with_reducible apply State.reach_keeps
    | with_reducible apply State.timedOut_keeps
    | with_reducible apply State.addTimed_keeps
    | with_reducible apply State.reissueRow_keeps
    | (extract_lets +onlyGivenNames x; first
        | (refine Keeps.cut (s := s) (x := x) (fun hx => ?_) ?_; clear_value x; revert x; intro y hy; rotate_left; unfold x; clear x)
        | (refine Keeps.cut1 (s := s) (x := x) (fun hx => ?_) ?_; clear_value x; revert x; intro y hy; rotate_left; unfold x; clear x)
        | (refine Keeps.cut2 (s := s) (x := x) (fun hx => ?_) ?_; clear_value x; revert x; intro y hy; rotate_left; unfold x; clear x)
        | (revert x; intro y))
    | simp only [Keeps.rest_iff, Keeps.clk_iff]
    | with_reducible apply Keeps.foldl
    | with_reducible apply Keeps.foldl_fst
    | (refine Keeps.of_fst ‹_ = _› ?_)
    | (refine Keeps.of_snd ‹_ = _› ?_)
    | split
    | (intro)

theorem readTimer_keeps {s t : State} {x : RemRead} {lower : Bool} (h : Keeps s t) : Keeps s (readTimer t x lower) := by
  unfold readTimer
  try dsimp -zeta only
  repeat' first
    | with_reducible assumption
    | with_reducible exact Keeps.refl _
    | with_reducible rfl
    | with_reducible apply State.reach_keeps
    | with_reducible apply State.report_keeps
    | with_reducible apply State.replyRead_keeps
    | with_reducible apply State.newTag_keeps
    | with_reducible apply State.addTimed_keeps
    | with_reducible apply State.addRead_keeps
    | with_reducible apply State.send_keeps
    | (extract_lets +onlyGivenNames x; first
        | (refine Keeps.cut (s := s) (x := x) (fun hx => ?_) ?_; clear_value x; revert x; intro y hy; rotate_left; unfold x; clear x)
        | (refine Keeps.cut1 (s := s) (x := x) (fun hx => ?_) ?_; clear_value x; revert x; intro y hy; rotate_left; unfold x; clear x)
        | (refine Keeps.cut2 (s := s) (x := x) (fun hx => ?_) ?_; clear_value x; revert x; intro y hy; rotate_left; unfold x; clear x)
        | (revert x; intro y))
    | simp only [Keeps.rest_iff, Keeps.clk_iff]
    | with_reducible apply Keeps.foldl
    | with_reducible apply Keeps.foldl_fst
    | (refine Keeps.of_fst ‹_ = _› ?_)
    | (refine Keeps.of_snd ‹_ = _› ?_)
    | split
    | (intro)

theorem execFabricTimerExpire_keeps {s u : State} {tag : Nat} {lower : Bool} (e : execFabricTimerExpire tag lower s = .next u) : Keeps s u := by
  unfold execFabricTimerExpire at e
  injection e with e
  subst e
  repeat' first
    | with_reducible exact Keeps.refl _
    | with_reducible apply rowTimer_keeps
    | with_reducible apply readTimer_keeps
    | split

theorem State.auditPool_keeps {s t : State} {p : Nat} {holdings : Nat} (h : Keeps s t) : Keeps s (State.auditPool t p holdings) := by
  unfold State.auditPool
  repeat' first
    | with_reducible assumption
    | with_reducible apply State.report_keeps
    | (extract_lets +onlyGivenNames x; first
        | (revert x; intro y))
    | split

theorem State.auditBridge_keeps {s t : State} {i : Nat} (h : Keeps s t) : Keeps s (State.auditBridge t i) := by
  unfold State.auditBridge
  try dsimp -zeta only
  repeat' first
    | with_reducible assumption
    | with_reducible exact Keeps.refl _
    | with_reducible rfl
    | with_reducible apply State.auditPool_keeps
    | (extract_lets +onlyGivenNames x; first
        | (refine Keeps.cut (s := s) (x := x) (fun hx => ?_) ?_; clear_value x; revert x; intro y hy; rotate_left; unfold x; clear x)
        | (refine Keeps.cut1 (s := s) (x := x) (fun hx => ?_) ?_; clear_value x; revert x; intro y hy; rotate_left; unfold x; clear x)
        | (refine Keeps.cut2 (s := s) (x := x) (fun hx => ?_) ?_; clear_value x; revert x; intro y hy; rotate_left; unfold x; clear x)
        | (revert x; intro y))
    | simp only [Keeps.rest_iff, Keeps.clk_iff]
    | with_reducible apply Keeps.foldl
    | with_reducible apply Keeps.foldl_fst
    | (refine Keeps.of_fst ‹_ = _› ?_)
    | (refine Keeps.of_snd ‹_ = _› ?_)
    | split
    | (intro)

theorem State.auditRed_keeps {s t : State} {x1 : Nat} (h : Keeps s t) : Keeps s (State.auditRed t x1) := by
  unfold State.auditRed
  repeat' first
    | with_reducible assumption
    | with_reducible apply State.report_keeps
    | (extract_lets +onlyGivenNames x; first
        | (revert x; intro y))
    | split

theorem execRegionSwitchQuiescent_keeps {s u : State} {r : Nat} (e : execRegionSwitchQuiescent r s = .next u) : Keeps s u := by
  unfold execRegionSwitchQuiescent at e
  injection e with e
  subst e
  repeat' first
    | with_reducible exact Keeps.refl _
    | with_reducible apply State.auditPool_keeps
    | split

theorem State.disablePort_keeps {s t : State} {p : Nat} (h : Keeps s t) : Keeps s (State.disablePort t p) :=
  State.auditPort_keeps (State.portOff_keeps (Keeps.inForce (State.fput_keeps h) (tblWf_put _)))

theorem State.dropTo_keeps {s t : State} {chip : Nat} (h : Keeps s t) : Keeps s (State.dropTo t chip) := by
  unfold State.dropTo
  repeat' first
    | with_reducible assumption
    | with_reducible apply State.setPort_keeps
    | with_reducible apply Keeps.foldl
    | (intro)

theorem State.reclaimHome_keeps {s t : State} {chip : Nat} {x2 : HomeBucket} (h : Keeps s t) : Keeps s (State.reclaimHome t chip x2) := by
  unfold State.reclaimHome
  repeat' first
    | with_reducible assumption
    | with_reducible apply State.retractVersion_keeps
    | with_reducible apply State.putHome_keeps
    | (extract_lets +onlyGivenNames x; first
        | (revert x; intro y))
    | with_reducible apply Keeps.foldl_fst
    | split
    | (intro)

theorem reclaimChip_keeps {s t : State} {d : Started} (h : Keeps s t) : Keeps s (reclaimChip t d) := by
  unfold reclaimChip
  try dsimp -zeta only
  repeat' first
    | with_reducible assumption
    | with_reducible exact Keeps.refl _
    | with_reducible rfl
    | with_reducible apply State.setDone_keeps
    | with_reducible apply State.dropTo_keeps
    | with_reducible apply State.disablePort_keeps
    | with_reducible apply State.reclaimHome_keeps
    | with_reducible apply State.auditRed_keeps
    | (extract_lets +onlyGivenNames x; first
        | (refine Keeps.cut (s := s) (x := x) (fun hx => ?_) ?_; clear_value x; revert x; intro y hy; rotate_left; unfold x; clear x)
        | (refine Keeps.cut1 (s := s) (x := x) (fun hx => ?_) ?_; clear_value x; revert x; intro y hy; rotate_left; unfold x; clear x)
        | (refine Keeps.cut2 (s := s) (x := x) (fun hx => ?_) ?_; clear_value x; revert x; intro y hy; rotate_left; unfold x; clear x)
        | (revert x; intro y))
    | simp only [Keeps.rest_iff, Keeps.clk_iff]
    | with_reducible apply Keeps.foldl
    | with_reducible apply Keeps.foldl_fst
    | (refine Keeps.of_fst ‹_ = _› ?_)
    | (refine Keeps.of_snd ‹_ = _› ?_)
    | split
    | (intro)

theorem execReclaim_keeps {s u : State} {n : Nat} {seq : Nat} (e : execReclaim n seq s = .next u) : Keeps s u := by
  unfold execReclaim at e
  injection e with e
  subst e
  repeat' first
    | with_reducible exact Keeps.refl _
    | with_reducible apply reclaimChip_keeps
    | split

end Sys2Proof.Machine
end

