-- ==== Sys2Proof/Laws/KeepsFn.lean ====
section
/-!
SUPPORT. What the operations of Machine/Fn.lean keep (Safety.lean).
-/
namespace Sys2Proof.Machine

open Sys2Proof

theorem State.takeSettings_keeps {s t : State} {f : Nat} (h : Keeps s t) : Keeps s (State.takeSettings t f) := by
  refine Keeps.inForce h (fun hi => ?_)
  generalize cfgOffs f = l
  generalize t.inForce = m at hi ⊢
  induction l generalizing m with
  | nil => exact hi
  | cons o l ih => exact ih _ (tblWf_put _ hi)

theorem State.zeroRegs_keeps {s t : State} {offs : List Nat} (h : Keeps s t) : Keeps s (State.zeroRegs t offs) := by
  unfold State.zeroRegs
  repeat' first
    | with_reducible assumption
    | with_reducible apply State.setReg_keeps
    | with_reducible apply Keeps.foldl
    | (intro)

theorem State.reloadPort_keeps {s t : State} {p : Nat} (h : Keeps s t) : Keeps s (State.reloadPort t p) := by
  unfold State.reloadPort
  repeat' first
    | with_reducible assumption
    | with_reducible apply State.fput_keeps
    | with_reducible apply State.setReg_keeps

theorem State.restartArray_keeps {s t : State}  (h : Keeps s t) : Keeps s (State.restartArray t) := by
  unfold State.restartArray
  repeat' first
    | with_reducible assumption
    | with_reducible apply State.zeroRegs_keeps
    | with_reducible apply State.fput_keeps

theorem State.restartLink_keeps {s t : State} {r : Nat} (h : Keeps s t) : Keeps s (State.restartLink t r) := by
  unfold State.restartLink
  repeat' first
    | with_reducible assumption
    | with_reducible apply State.applyPorts_keeps
    | with_reducible apply State.fput_keeps
    | with_reducible apply State.reloadPort_keeps
    | simp only [Keeps.rest_iff, Keeps.clk_iff]
    | with_reducible apply Keeps.foldl
    | (intro)

theorem State.restartUpd_keeps {s t : State} {r : Nat} (h : Keeps s t) : Keeps s (State.restartUpd t r) := by
  unfold State.restartUpd
  repeat' first
    | with_reducible assumption
    | with_reducible apply State.fput_keeps

theorem State.restartRed_keeps {s t : State} {x1 : Nat} (h : Keeps s t) : Keeps s (State.restartRed t x1) := by
  unfold State.restartRed
  repeat' first
    | with_reducible assumption
    | with_reducible apply State.fput_keeps
    | with_reducible apply State.zeroRegs_keeps

theorem State.restartSq_keeps {s t : State} {n : Nat} (h : Keeps s t) : Keeps s (State.restartSq t n) := by
  unfold State.restartSq
  repeat' first
    | with_reducible assumption
    | with_reducible apply State.putBit_keeps
    | with_reducible apply State.zeroRegs_keeps
    | with_reducible apply State.setSq_keeps

theorem State.restartCq_keeps {s t : State} {m : Nat} (h : Keeps s t) : Keeps s (State.restartCq t m) := by
  unfold State.restartCq
  repeat' first
    | with_reducible assumption
    | with_reducible apply State.fput_keeps
    | with_reducible apply State.zeroRegs_keeps

theorem State.passRestart_keeps {s t : State} {f : Nat} (h : Keeps s t) : Keeps s (State.passRestart t f) := by
  unfold State.passRestart
  repeat' first
    | with_reducible assumption
    | with_reducible apply State.setFn_keeps
    | with_reducible apply State.takeSettings_keeps
    | with_reducible apply State.restartArray_keeps
    | with_reducible apply State.restartUpd_keeps
    | with_reducible apply State.restartLink_keeps
    | with_reducible apply State.restartRed_keeps
    | with_reducible apply State.ptpApplied_keeps
    | with_reducible apply State.restartSq_keeps
    | with_reducible apply State.restartCq_keeps
    | simp only [Keeps.rest_iff, Keeps.clk_iff]
    | split

theorem State.restartFn_keeps {s t : State} {f : Nat} (h : Keeps s t) : Keeps s (State.restartFn t f) := by
  unfold State.restartFn
  repeat' first
    | with_reducible assumption
    | with_reducible apply State.rejected_keeps
    | with_reducible apply State.passRestart_keeps
    | split

theorem State.auditToken_keeps {s t : State}  (h : Keeps s t) : Keeps s (State.auditToken t) := by
  unfold State.auditToken
  repeat' first
    | with_reducible assumption
    | with_reducible apply State.report_keeps
    | (extract_lets +onlyGivenNames x; first
        | (revert x; intro y))
    | split

theorem State.auditCq_keeps {s t : State} {m : Nat} (h : Keeps s t) : Keeps s (State.auditCq t m) := by
  unfold State.auditCq
  repeat' first
    | with_reducible assumption
    | with_reducible apply State.report_keeps
    | split

theorem State.auditFn_keeps {s t : State} {f : Nat} (h : Keeps s t) : Keeps s (State.auditFn t f) := by
  unfold State.auditFn
  try dsimp -zeta only
  repeat' first
    | with_reducible assumption
    | with_reducible exact Keeps.refl _
    | with_reducible rfl
    | with_reducible apply State.auditBridge_keeps
    | with_reducible apply State.auditPort_keeps
    | with_reducible apply State.auditToken_keeps
    | with_reducible apply State.auditRed_keeps
    | with_reducible apply State.auditCq_keeps
    | (extract_lets +onlyGivenNames x; first
        | (refine Keeps.cut (s := s) (x := x) (fun hx => ?_) ?_; clear_value x; revert x; intro y hy; rotate_left; unfold x; clear x)
        | (refine Keeps.cut1 (s := s) (x := x) (fun hx => ?_) ?_; clear_value x; revert x; intro y hy; rotate_left; unfold x; clear x)
        | (refine Keeps.cut2 (s := s) (x := x) (fun hx => ?_) ?_; clear_value x; revert x; intro y hy; rotate_left; unfold x; clear x)
        | (revert x; intro y))
    | simp only [Keeps.rest_iff, Keeps.clk_iff]
    | with_reducible apply Keeps.foldl
    | with_reducible apply Keeps.foldl_fst
    | (refine Keeps.of_fst ‹_ = _› ?_)
    | (refine Keeps.of_snd ‹_ = _› ?_)
    | split
    | (intro)

theorem State.enterStopped_keeps {s t : State} {f : Nat} (h : Keeps s t) : Keeps s (State.enterStopped t f) := by
  unfold State.enterStopped
  repeat' first
    | with_reducible assumption
    | with_reducible apply State.setFn_keeps
    | simp only [Keeps.rest_iff, Keeps.clk_iff]

theorem State.abortDesc_keeps {s t : State} {d : Started} (h : Keeps s t) : Keeps s (State.abortDesc t d) := by
  unfold State.abortDesc
  try dsimp -zeta only
  repeat' first
    | with_reducible assumption
    | with_reducible exact Keeps.refl _
    | with_reducible rfl
    | with_reducible apply State.haltDesc_keeps
    | with_reducible apply State.updStarted_keeps
    | with_reducible apply completeStarted_keeps
    | with_reducible apply traceEnd_keeps
    | (extract_lets +onlyGivenNames x; first
        | (refine Keeps.cut (s := s) (x := x) (fun hx => ?_) ?_; clear_value x; revert x; intro y hy; rotate_left; unfold x; clear x)
        | (refine Keeps.cut1 (s := s) (x := x) (fun hx => ?_) ?_; clear_value x; revert x; intro y hy; rotate_left; unfold x; clear x)
        | (refine Keeps.cut2 (s := s) (x := x) (fun hx => ?_) ?_; clear_value x; revert x; intro y hy; rotate_left; unfold x; clear x)
        | (revert x; intro y))
    | simp only [Keeps.rest_iff, Keeps.clk_iff]
    | with_reducible apply Keeps.foldl
    | with_reducible apply Keeps.foldl_fst
    | (refine Keeps.of_fst ‹_ = _› ?_)
    | (refine Keeps.of_snd ‹_ = _› ?_)
    | split
    | (intro)

theorem State.disown_keeps {s t : State} {n : Nat} (h : Keeps s t) : Keeps s (State.disown t n) := by
  unfold State.disown
  repeat' first
    | with_reducible assumption
    | with_reducible apply State.bumpGen_keeps
    | with_reducible apply State.bump_keeps
    | with_reducible apply State.release_keeps
    | (extract_lets +onlyGivenNames x; first
        | (revert x; intro y))
    | split

theorem State.releaseAll_keeps {s t : State} {m : Nat} (h : Keeps s t) : Keeps s (State.releaseAll t m) := by
  unfold State.releaseAll
  repeat' first
    | with_reducible assumption
    | with_reducible apply State.fput_keeps
    | simp only [Keeps.rest_iff, Keeps.clk_iff]

theorem State.abortFn_keeps {s t : State} {f : Nat} (h : Keeps s t) : Keeps s (State.abortFn t f) := by
  unfold State.abortFn
  try dsimp -zeta only
  repeat' first
    | with_reducible assumption
    | with_reducible exact Keeps.refl _
    | with_reducible rfl
    | with_reducible apply State.disown_keeps
    | with_reducible apply State.bumpGen_keeps
    | with_reducible apply State.releaseAll_keeps
    | with_reducible apply State.withdrawDisagreements_keeps
    | with_reducible apply State.abortDesc_keeps
    | with_reducible apply State.refuseHomes_keeps
    | with_reducible apply State.enterStopped_keeps
    | with_reducible apply State.auditCq_keeps
    | with_reducible apply State.auditFn_keeps
    | (extract_lets +onlyGivenNames x; first
        | (refine Keeps.cut (s := s) (x := x) (fun hx => ?_) ?_; clear_value x; revert x; intro y hy; rotate_left; unfold x; clear x)
        | (refine Keeps.cut1 (s := s) (x := x) (fun hx => ?_) ?_; clear_value x; revert x; intro y hy; rotate_left; unfold x; clear x)
        | (refine Keeps.cut2 (s := s) (x := x) (fun hx => ?_) ?_; clear_value x; revert x; intro y hy; rotate_left; unfold x; clear x)
        | (revert x; intro y))
    | simp only [Keeps.rest_iff, Keeps.clk_iff]
    | with_reducible apply Keeps.foldl
    | with_reducible apply Keeps.foldl_fst
    | (refine Keeps.of_fst ‹_ = _› ?_)
    | (refine Keeps.of_snd ‹_ = _› ?_)
    | split
    | (intro)

theorem State.drainNow_keeps {s t : State} {f : Nat} (h : Keeps s t) : Keeps s (State.drainNow t f) := by
  unfold State.drainNow
  repeat' first
    | with_reducible assumption
    | with_reducible apply State.enterDrain_keeps
    | with_reducible apply State.auditFn_keeps
    | with_reducible apply State.enterStopped_keeps
    | with_reducible apply State.abortFn_keeps
    | (extract_lets +onlyGivenNames x; first
        | (refine Keeps.cut (s := s) (x := x) (fun hx => ?_) ?_; clear_value x; revert x; intro y hy; rotate_left; unfold x; clear x))
    | split

theorem State.fnCmd_keeps {s t : State} {f : Nat} {cmd : Nat} {act : State → State} (h : Keeps s t) (hact : ∀ z, Keeps s z → Keeps s (act z)) : Keeps s (State.fnCmd t f cmd act) := by
  unfold State.fnCmd
  repeat' first
    | with_reducible assumption
    | apply hact
    | with_reducible apply State.rejected_keeps
    | split

theorem State.badCmd_keeps {s t : State} {f : Nat} {cmd : Nat} (h : Keeps s t) : Keeps s (State.badCmd t f cmd) := by
  unfold State.badCmd
  repeat' first
    | with_reducible assumption
    | with_reducible apply State.rejected_keeps

theorem State.leaveRun_keeps {s t : State} {f : Nat} (h : Keeps s t) : Keeps s (State.leaveRun t f) := by
  unfold State.leaveRun
  repeat' first
    | with_reducible assumption
    | with_reducible apply State.enterDrain_keeps
    | with_reducible apply State.abortFn_keeps
    | (extract_lets +onlyGivenNames x; first
        | (refine Keeps.cut (s := s) (x := x) (fun hx => ?_) ?_; clear_value x; revert x; intro y hy; rotate_left; unfold x; clear x))
    | split

theorem cmdStop_keeps {s t : State} {f : Nat} (h : Keeps s t) : Keeps s (cmdStop f t) := by
  unfold cmdStop
  repeat' first
    | with_reducible assumption
    | with_reducible apply State.badCmd_keeps
    | with_reducible apply State.leaveRun_keeps
    | (extract_lets +onlyGivenNames x; first
        | (revert x; intro y))
    | split

theorem cmdChange_keeps {s t : State} {f : Nat} (h : Keeps s t) : Keeps s (cmdChange f t) := by
  unfold cmdChange
  repeat' first
    | with_reducible assumption
    | with_reducible apply State.setFn_keeps
    | with_reducible apply State.badCmd_keeps
    | (extract_lets +onlyGivenNames x; first
        | (revert x; intro y))
    | split

theorem cmdRestart_keeps {s t : State} {f : Nat} (h : Keeps s t) : Keeps s (cmdRestart f t) := by
  unfold cmdRestart
  repeat' first
    | with_reducible assumption
    | with_reducible apply State.restartFn_keeps
    | with_reducible apply State.badCmd_keeps
    | (extract_lets +onlyGivenNames x; first
        | (revert x; intro y))
    | split

theorem cmdAbort_keeps {s t : State} {f : Nat} (h : Keeps s t) : Keeps s (cmdAbort f t) := by
  unfold cmdAbort
  repeat' first
    | with_reducible assumption
    | with_reducible apply State.abortFn_keeps
    | with_reducible apply State.enterDrain_keeps
    | with_reducible apply State.badCmd_keeps
    | (extract_lets +onlyGivenNames x; first
        | (revert x; intro y))
    | split

theorem execModuleTimerExpire_keeps {s u : State} {n : Nat} {seq : Nat} (e : execModuleTimerExpire n seq s = .next u) : Keeps s u := by
  unfold execModuleTimerExpire at e
  injection e with e
  subst e
  try dsimp -zeta only
  repeat' first
    | with_reducible assumption
    | with_reducible exact Keeps.refl _
    | with_reducible rfl
    | with_reducible apply State.reach_keeps
    | with_reducible apply State.leaveRun_keeps
    | with_reducible apply State.report_keeps
    | with_reducible apply State.engineFault_keeps
    | (extract_lets +onlyGivenNames x; first
        | (refine Keeps.cut (s := s) (x := x) (fun hx => ?_) ?_; clear_value x; revert x; intro y hy; rotate_left; unfold x; clear x)
        | (refine Keeps.cut1 (s := s) (x := x) (fun hx => ?_) ?_; clear_value x; revert x; intro y hy; rotate_left; unfold x; clear x)
        | (refine Keeps.cut2 (s := s) (x := x) (fun hx => ?_) ?_; clear_value x; revert x; intro y hy; rotate_left; unfold x; clear x)
        | (revert x; intro y))
    | simp only [Keeps.rest_iff, Keeps.clk_iff]
    | with_reducible apply Keeps.foldl
    | with_reducible apply Keeps.foldl_fst
    | (refine Keeps.of_fst ‹_ = _› ?_)
    | (refine Keeps.of_snd ‹_ = _› ?_)
    | split
    | (intro)

theorem execCmdStop_keeps {s u : State} {f : Nat} (e : execCmdStop f s = .next u) : Keeps s u := by
  unfold execCmdStop at e
  injection e with e
  subst e
  repeat' first
    | with_reducible exact Keeps.refl _
    | with_reducible apply State.fnCmd_keeps
    | with_reducible apply cmdStop_keeps
    | (intro)

theorem execCmdChange_keeps {s u : State} {f : Nat} (e : execCmdChange f s = .next u) : Keeps s u := by
  unfold execCmdChange at e
  injection e with e
  subst e
  repeat' first
    | with_reducible exact Keeps.refl _
    | with_reducible apply State.fnCmd_keeps
    | with_reducible apply cmdChange_keeps
    | (intro)

theorem execCmdRestart_keeps {s u : State} {f : Nat} (e : execCmdRestart f s = .next u) : Keeps s u := by
  unfold execCmdRestart at e
  injection e with e
  subst e
  repeat' first
    | with_reducible exact Keeps.refl _
    | with_reducible apply State.fnCmd_keeps
    | with_reducible apply cmdRestart_keeps
    | (intro)

theorem execCmdAbort_keeps {s u : State} {f : Nat} (e : execCmdAbort f s = .next u) : Keeps s u := by
  unfold execCmdAbort at e
  injection e with e
  subst e
  repeat' first
    | with_reducible exact Keeps.refl _
    | with_reducible apply State.fnCmd_keeps
    | with_reducible apply cmdAbort_keeps
    | (intro)

theorem execDrainComplete_keeps {s u : State} {f : Nat} (e : execDrainComplete f s = .next u) : Keeps s u := by
  unfold execDrainComplete at e
  injection e with e
  subst e
  repeat' first
    | with_reducible exact Keeps.refl _
    | with_reducible apply State.auditFn_keeps
    | with_reducible apply State.enterStopped_keeps
    | split

theorem execDrainLimitExpire_keeps {s u : State} {f : Nat} (e : execDrainLimitExpire f s = .next u) : Keeps s u := by
  unfold execDrainLimitExpire at e
  injection e with e
  subst e
  repeat' first
    | with_reducible exact Keeps.refl _
    | with_reducible apply State.abortFn_keeps
    | with_reducible apply State.reach_keeps
    | split

theorem State.dropLate_keeps {s t : State} {f : Nat} {gen : Nat} (h : Keeps s t) : Keeps s (State.dropLate t f gen) := by
  unfold State.dropLate
  try dsimp -zeta only
  repeat' first
    | with_reducible assumption
    | with_reducible exact Keeps.refl _
    | with_reducible rfl
    | (extract_lets +onlyGivenNames x; first
        | (refine Keeps.cut (s := s) (x := x) (fun hx => ?_) ?_; clear_value x; revert x; intro y hy; rotate_left; unfold x; clear x)
        | (refine Keeps.cut1 (s := s) (x := x) (fun hx => ?_) ?_; clear_value x; revert x; intro y hy; rotate_left; unfold x; clear x)
        | (refine Keeps.cut2 (s := s) (x := x) (fun hx => ?_) ?_; clear_value x; revert x; intro y hy; rotate_left; unfold x; clear x)
        | (revert x; intro y))
    | simp only [Keeps.rest_iff, Keeps.clk_iff]
    | with_reducible apply Keeps.foldl
    | with_reducible apply Keeps.foldl_fst
    | (refine Keeps.of_fst ‹_ = _› ?_)
    | (refine Keeps.of_snd ‹_ = _› ?_)
    | split
    | (intro)

theorem execStaleReplyDrop_keeps {s u : State} {f : Nat} {gen : Nat} (e : execStaleReplyDrop f gen s = .next u) : Keeps s u := by
  unfold execStaleReplyDrop at e
  injection e with e
  subst e
  try dsimp -zeta only
  repeat' first
    | with_reducible assumption
    | with_reducible exact Keeps.refl _
    | with_reducible rfl
    | with_reducible apply dropDisowned_keeps
    | with_reducible apply traceEnd_keeps
    | with_reducible apply State.dropStale_keeps
    | with_reducible apply State.dropLate_keeps
    | (extract_lets +onlyGivenNames x; first
        | (refine Keeps.cut (s := s) (x := x) (fun hx => ?_) ?_; clear_value x; revert x; intro y hy; rotate_left; unfold x; clear x)
        | (refine Keeps.cut1 (s := s) (x := x) (fun hx => ?_) ?_; clear_value x; revert x; intro y hy; rotate_left; unfold x; clear x)
        | (refine Keeps.cut2 (s := s) (x := x) (fun hx => ?_) ?_; clear_value x; revert x; intro y hy; rotate_left; unfold x; clear x)
        | (revert x; intro y))
    | simp only [Keeps.rest_iff, Keeps.clk_iff]
    | with_reducible apply Keeps.foldl
    | with_reducible apply Keeps.foldl_fst
    | (refine Keeps.of_fst ‹_ = _› ?_)
    | (refine Keeps.of_snd ‹_ = _› ?_)
    | split
    | (intro)

end Sys2Proof.Machine
end

