-- ==== Sys2Proof/Laws/KeepsHang.lean ====
section
/-!
SUPPORT. What the operations of Machine/Hang.lean keep (Safety.lean).
-/
namespace Sys2Proof.Machine

open Sys2Proof

theorem State.breakAt_keeps {s t : State} {v : Wait} (h : Keeps s t) : Keeps s (State.breakAt t v) := by
  unfold State.breakAt
  try dsimp -zeta only
  repeat' first
    | with_reducible assumption
    | with_reducible exact Keeps.refl _
    | with_reducible rfl
    | with_reducible apply State.completeFetched_keeps
    | with_reducible apply State.setFn_keeps
    | with_reducible apply State.forgetPrefetch_keeps
    | with_reducible apply State.setSq_keeps
    | with_reducible apply State.updStarted_keeps
    | with_reducible apply State.engineFault_keeps
    | (extract_lets +onlyGivenNames x; first
        | (refine Keeps.cut (s := s) (x := x) (fun hx => ?_) ?_; clear_value x; revert x; intro y hy; rotate_left; unfold x; clear x)
        | (refine Keeps.cut1 (s := s) (x := x) (fun hx => ?_) ?_; clear_value x; revert x; intro y hy; rotate_left; unfold x; clear x)
        | (refine Keeps.cut2 (s := s) (x := x) (fun hx => ?_) ?_; clear_value x; revert x; intro y hy; rotate_left; unfold x; clear x)
        | (revert x; intro y))
    | simp only [Keeps.rest_iff, Keeps.clk_iff]
    | with_reducible apply Keeps.foldl
    | with_reducible apply Keeps.foldl_fst
    | (refine Keeps.of_fst ‹_ = _› ?_)
    | (refine Keeps.of_snd ‹_ = _› ?_)
    | split
    | (intro)

theorem State.breakCycle_keeps {s t : State} {v : Wait} (h : Keeps s t) : Keeps s (State.breakCycle t v) := by
  unfold State.breakCycle
  repeat' first
    | with_reducible assumption
    | with_reducible apply State.breakAt_keeps
    | with_reducible apply State.leaveRun_keeps
    | with_reducible apply State.setFn_keeps
    | split

theorem State.declareCycle_keeps {s t : State} {c : List Wait} {v : Wait} (h : Keeps s t) : Keeps s (State.declareCycle t c v) := by
  unfold State.declareCycle
  repeat' first
    | with_reducible assumption
    | with_reducible apply State.report_keeps
    | with_reducible apply State.breakCycle_keeps
    | with_reducible apply State.declareHang_keeps

theorem waitforSample_keeps {s t : State}  (h : Keeps s t) : Keeps s (waitforSample t) := by
  unfold waitforSample
  repeat' first
    | with_reducible assumption
    | with_reducible apply State.declareCycle_keeps
    | simp only [Keeps.rest_iff, Keeps.clk_iff]
    | split

theorem execWaitforSample_keeps {s u : State}  (e : execWaitforSample s = .next u) : Keeps s u := by
  unfold execWaitforSample at e
  injection e with e
  subst e
  repeat' first
    | with_reducible exact Keeps.refl _
    | with_reducible apply waitforSample_keeps
    | split

theorem State.sendProbe_keeps {s t : State} {p : Nat} {body : List Byte} (h : Keeps s t) : Keeps s (State.sendProbe t p body) := by
  unfold State.sendProbe
  repeat' first
    | with_reducible assumption
    | with_reducible apply State.enqueue_keeps

theorem State.probeQueue_keeps {s t : State} {p : Nat} {vc : Nat} {cls : Nat} {q : Queued} (h : Keeps s t) : Keeps s (State.probeQueue t p vc cls q) := by
  unfold State.probeQueue
  try dsimp -zeta only
  repeat' first
    | with_reducible assumption
    | with_reducible exact Keeps.refl _
    | with_reducible rfl
    | simp only [id_eq]
    | with_reducible apply State.sendProbe_keeps
    | (extract_lets +onlyGivenNames x; first
        | (refine Keeps.cut (s := s) (x := x) (fun hx => ?_) ?_; clear_value x; revert x; intro y hy; rotate_left; unfold x; clear x)
        | (refine Keeps.cut1 (s := s) (x := x) (fun hx => ?_) ?_; clear_value x; revert x; intro y hy; rotate_left; unfold x; clear x)
        | (refine Keeps.cut2 (s := s) (x := x) (fun hx => ?_) ?_; clear_value x; revert x; intro y hy; rotate_left; unfold x; clear x)
        | (revert x; intro y))
    | simp only [Keeps.rest_iff, Keeps.clk_iff]
    | with_reducible apply Keeps.foldl
    | with_reducible apply Keeps.foldl_fst
    | (refine Keeps.of_fst ‹_ = _› ?_)
    | (refine Keeps.of_snd ‹_ = _› ?_)
    | split
    | (intro)

theorem execEgressStall_keeps {s u : State} {p : Nat} {vc : Nat} {cls : Nat} (e : execEgressStall p vc cls s = .next u) : Keeps s u := by
  unfold execEgressStall at e
  injection e with e
  subst e
  repeat' first
    | with_reducible exact Keeps.refl _
    | with_reducible apply State.probeQueue_keeps
    | with_reducible apply State.reach_keeps
    | split

theorem execProbeResendTimer_keeps {s u : State} {p : Nat} {vc : Nat} {cls : Nat} (e : execProbeResendTimer p vc cls s = .next u) : Keeps s u := by
  unfold execProbeResendTimer at e
  injection e with e
  subst e
  repeat' first
    | with_reducible exact Keeps.refl _
    | with_reducible apply State.probeQueue_keeps
    | with_reducible apply State.reach_keeps
    | split

theorem State.takeInbox_keeps {s t u : State} {p : Nat} {k : Packet} (h : Keeps s t) (e : State.takeInbox t p k = some u) : Keeps s u := by
  unfold State.takeInbox at e
  dsimp only at e
  split at e
  · contradiction
  · split at e
    · contradiction
    · injection e with e
      subst e
      exact State.setPort_keeps h

theorem State.dropHead_keeps {s t : State} {p : Nat} {vc : Nat} {cls : Nat} {q : Queued} (h : Keeps s t) : Keeps s (State.dropHead t p vc cls q) := by
  unfold State.dropHead
  repeat' first
    | with_reducible assumption
    | with_reducible apply State.setPort_keeps
    | with_reducible apply State.creditBack_keeps

theorem State.fabricCycle_keeps {s t : State} {p : Nat} {vc : Nat} {cls : Nat} {q : Queued} (h : Keeps s t) : Keeps s (State.fabricCycle t p vc cls q) := by
  unfold State.fabricCycle
  repeat' first
    | with_reducible assumption
    | with_reducible apply State.report_keeps
    | with_reducible apply State.dropHead_keeps
    | with_reducible apply State.declareHang_keeps

theorem hangProbe_keeps {s t : State} {p : Nat} {k : Packet} (h : Keeps s t) : Keeps s (hangProbe t p k) := by
  unfold hangProbe
  try dsimp -zeta only
  repeat' first
    | with_reducible assumption
    | with_reducible exact Keeps.refl _
    | with_reducible rfl
    | simp only [id_eq]
    | with_reducible apply State.fabricCycle_keeps
    | with_reducible apply State.sendProbe_keeps
    | (extract_lets +onlyGivenNames x; first
        | (refine Keeps.cut (s := s) (x := x) (fun hx => ?_) ?_; clear_value x; revert x; intro y hy; rotate_left; unfold x; clear x)
        | (refine Keeps.cut1 (s := s) (x := x) (fun hx => ?_) ?_; clear_value x; revert x; intro y hy; rotate_left; unfold x; clear x)
        | (refine Keeps.cut2 (s := s) (x := x) (fun hx => ?_) ?_; clear_value x; revert x; intro y hy; rotate_left; unfold x; clear x)
        | (revert x; intro y))
    | simp only [Keeps.rest_iff, Keeps.clk_iff]
    | with_reducible apply Keeps.foldl
    | with_reducible apply Keeps.foldl_fst
    | (refine Keeps.of_fst ‹_ = _› ?_)
    | (refine Keeps.of_snd ‹_ = _› ?_)
    | split
    | (intro)

theorem State.clearMgmt_keeps {s t : State} {r : Nat} {k : Packet} (h : Keeps s t) : Keeps s (State.clearMgmt t r k).1 := by
  unfold State.clearMgmt
  repeat' first
    | with_reducible assumption
    | with_reducible apply State.bump_keeps
    | split

theorem execHangProbe_keeps {s u : State} {p : Nat} {pkt : Packet} (e : execHangProbe p pkt s = .next u) : Keeps s u := by
  unfold execHangProbe at e
  injection e with e
  subst e
  try dsimp -zeta only
  repeat' first
    | with_reducible assumption
    | with_reducible exact Keeps.refl _
    | with_reducible rfl
    | refine State.takeInbox_keeps ?_ ‹_›
    | refine State.takeInbox_keeps ?_ (ite_some ‹_›)
    | with_reducible apply State.clearMgmt_keeps
    | with_reducible apply hangProbe_keeps
    | (extract_lets +onlyGivenNames x; first
        | (refine Keeps.cut (s := s) (x := x) (fun hx => ?_) ?_; clear_value x; revert x; intro y hy; rotate_left; unfold x; clear x)
        | (refine Keeps.cut1 (s := s) (x := x) (fun hx => ?_) ?_; clear_value x; revert x; intro y hy; rotate_left; unfold x; clear x)
        | (refine Keeps.cut2 (s := s) (x := x) (fun hx => ?_) ?_; clear_value x; revert x; intro y hy; rotate_left; unfold x; clear x)
        | (revert x; intro y))
    | simp only [Keeps.rest_iff, Keeps.clk_iff]
    | with_reducible apply Keeps.foldl
    | with_reducible apply Keeps.foldl_fst
    | (refine Keeps.of_fst ‹_ = _› ?_)
    | (refine Keeps.of_snd ‹_ = _› ?_)
    | split
    | (intro)

end Sys2Proof.Machine
end

