-- ==== Sys2Proof/Laws/KeepsDump.lean ====
section
/-!
SUPPORT. What the operations of Machine/Dump.lean keep (Safety.lean).
-/
namespace Sys2Proof.Machine

open Sys2Proof

theorem Mem.putDump_canon {m : Mem} {k : Nat} {l : List Host.Cell} (h : m.canon = true) : (m.putDump k l).canon = true :=
  memCanon_cleanse (memCanon_hbm h (fun hx => tblWf_replace _ hx))

theorem Mem.dumpDirty_canon {m : Mem} {k b : Nat} (h : m.canon = true) : (m.dumpDirty k b).canon = true :=
  memCanon_dirty h (fun hx => tblWf_replace _ hx)

theorem State.crashDump_keeps {s t : State} {x : DumpFor} (h : Keeps s t) : Keeps s (State.crashDump t x) := by
  unfold State.crashDump
  extract_lets no sum cells m s0 s1 w s2
  have h0 : Keeps s s0 := State.drew_keeps h
  have hm : s0.mem.canon = true → m.canon = true :=
    fun hm => Mem.dumpDirty_canon (Mem.dumpDirty_canon (Mem.putDump_canon (Mem.putDump_canon hm)))
  clear_value m s0
  have h1 : Keeps s s1 := Keeps.mem h0 (fun hc => memCanon_trf (hm hc) (fun hx => tblWf_replace _ (tblWf_replace _ hx)))
  exact Keeps.rest_iff.mpr (State.setReg_keeps h1)

theorem State.flashWrite_keeps {s t : State} {x1 : Nat} {a : Nat} {d : List Byte} (h : Keeps s t) : Keeps s (State.flashWrite t x1 a d) := by
  unfold State.flashWrite
  try dsimp -zeta only
  repeat' first
    | with_reducible assumption
    | with_reducible exact Keeps.refl _
    | with_reducible rfl
    | exact fun hm => memCanon_flash0 hm wrFlash_wf
    | exact fun hm => memCanon_flash1 hm wrFlash_wf
    | (extract_lets +onlyGivenNames x; first
        | (refine Keeps.cut (s := s) (x := x) (fun hx => ?_) ?_; clear_value x; revert x; intro y hy; rotate_left; unfold x; clear x)
        | (refine Keeps.cut1 (s := s) (x := x) (fun hx => ?_) ?_; clear_value x; revert x; intro y hy; rotate_left; unfold x; clear x)
        | (refine Keeps.cut2 (s := s) (x := x) (fun hx => ?_) ?_; clear_value x; revert x; intro y hy; rotate_left; unfold x; clear x)
        | (revert x; intro y))
    | simp only [Keeps.rest_iff, Keeps.clk_iff]
    | with_reducible apply Keeps.foldl
    | with_reducible apply Keeps.foldl_fst
    | (refine Keeps.of_fst ‹_ = _› ?_)
    | (refine Keeps.of_snd ‹_ = _› ?_)
    | split
    | (intro)
    | exact id
    | with_reducible apply Keeps.mem

theorem execSummaryFlashCopy_keeps {s u : State} {x0 : Nat} (e : execSummaryFlashCopy x0 s = .next u) : Keeps s u := by
  unfold execSummaryFlashCopy at e
  injection e with e
  subst e
  try dsimp -zeta only
  repeat' first
    | with_reducible assumption
    | with_reducible exact Keeps.refl _
    | with_reducible rfl
    | with_reducible apply State.flashWrite_keeps
    | (extract_lets +onlyGivenNames x; first
        | (refine Keeps.cut (s := s) (x := x) (fun hx => ?_) ?_; clear_value x; revert x; intro y hy; rotate_left; unfold x; clear x)
        | (refine Keeps.cut1 (s := s) (x := x) (fun hx => ?_) ?_; clear_value x; revert x; intro y hy; rotate_left; unfold x; clear x)
        | (refine Keeps.cut2 (s := s) (x := x) (fun hx => ?_) ?_; clear_value x; revert x; intro y hy; rotate_left; unfold x; clear x)
        | (revert x; intro y))
    | simp only [Keeps.rest_iff, Keeps.clk_iff]
    | with_reducible apply Keeps.foldl
    | with_reducible apply Keeps.foldl_fst
    | (refine Keeps.of_fst ‹_ = _› ?_)
    | (refine Keeps.of_snd ‹_ = _› ?_)
    | split
    | (intro)

end Sys2Proof.Machine
end

