-- ==== Sys2Proof/Laws/KeepsReset.lean ====
section
/-!
SUPPORT. What the operations of Machine/Reset.lean keep (Safety.lean).
-/
namespace Sys2Proof.Machine

open Sys2Proof

theorem State.withdrawTicket_keeps {s t : State} {x1 : Nat} (h : Keeps s t) : Keeps s (State.withdrawTicket t x1) := by
  unfold State.withdrawTicket
  repeat' first
    | with_reducible assumption
    | with_reducible apply fenceArrives_keeps
    | with_reducible apply State.fenceTicket_keeps
    | with_reducible apply State.settle_keeps
    | with_reducible apply State.updTicket_keeps
    | (extract_lets +onlyGivenNames x; first
        | (refine Keeps.cut (s := s) (x := x) (fun hx => ?_) ?_; clear_value x; revert x; intro y hy; rotate_left; unfold x; clear x))
    | with_reducible apply Keeps.foldl
    | split
    | (intro)

theorem State.withdrawAll_keeps {s t : State}  (h : Keeps s t) : Keeps s (State.withdrawAll t) := by
  unfold State.withdrawAll
  repeat' first
    | with_reducible assumption
    | with_reducible apply State.withdrawTicket_keeps
    | with_reducible apply Keeps.foldl

theorem State.forceStop_keeps {s t : State} {f : Nat} (h : Keeps s t) : Keeps s (State.forceStop t f) := by
  unfold State.forceStop
  repeat' first
    | with_reducible assumption
    | with_reducible apply State.abortFn_keeps
    | with_reducible apply State.enterDrain_keeps
    | with_reducible apply State.enterStopped_keeps
    | with_reducible apply State.bumpGen_keeps
    | (extract_lets +onlyGivenNames x; first
        | (refine Keeps.cut (s := s) (x := x) (fun hx => ?_) ?_; clear_value x; revert x; intro y hy; rotate_left; unfold x; clear x)
        | (revert x; intro y))
    | split

theorem State.abortFallback_keeps {s t : State}  (h : Keeps s t) : Keeps s (State.abortFallback t) := by
  unfold State.abortFallback
  repeat' first
    | with_reducible assumption
    | with_reducible apply State.endUpd_keeps
    | with_reducible apply Keeps.foldl
    | split
    | (intro)

theorem State.holdDies_keeps {s t : State}  (h : Keeps s t) : Keeps s (State.holdDies t) := by
  unfold State.holdDies
  repeat' first
    | with_reducible assumption
    | with_reducible apply State.blockOff_keeps
    | with_reducible apply State.abortFallback_keeps
    | simp only [Keeps.rest_iff, Keeps.clk_iff]
    | with_reducible apply Keeps.foldl

theorem State.holdCompute_keeps {s t : State}  (h : Keeps s t) : Keeps s (State.holdCompute t) := by
  unfold State.holdCompute
  repeat' first
    | with_reducible assumption
    | with_reducible apply State.zeroRegs_keeps
    | with_reducible apply State.holdDies_keeps
    | with_reducible apply State.haltDesc_keeps
    | simp only [Keeps.rest_iff, Keeps.clk_iff]
    | with_reducible apply Keeps.foldl
    | (intro)

theorem memCanon_openTags {m : Mem} (h : m.canon = true) : m.openTags.canon = true := memCanon_hbm h (tblWf_filter _)

theorem State.retrainAll_keeps {s t : State} (h : Keeps s t) : Keeps s (State.retrainAll t) := by
  unfold State.retrainAll
  extract_lets f s1
  have h1 : Keeps s s1 := Keeps.mem h memCanon_openTags
  clear_value s1
  refine Keeps.foldl (Keeps.foldl h1 (fun _ _ hx => State.auditBridge_keeps hx)) (fun x a hx => ?_)
  split
  · exact State.train_keeps hx
  · exact hx

theorem State.leaveDoze_keeps {s t : State}  (h : Keeps s t) : Keeps s (State.leaveDoze t) := by
  unfold State.leaveDoze
  repeat' first
    | with_reducible assumption
    | with_reducible apply State.setEff_keeps
    | simp only [Keeps.rest_iff, Keeps.clk_iff]
    | split

theorem State.markReset_keeps {s t : State} {level : Nat} {cause : Nat} (h : Keeps s t) : Keeps s (State.markReset t level cause) := by
  unfold State.markReset
  try dsimp -zeta only
  repeat' first
    | with_reducible assumption
    | with_reducible exact Keeps.refl _
    | with_reducible rfl
    | with_reducible apply State.event_keeps
    | with_reducible apply State.bump_keeps
    | with_reducible apply State.fput_keeps
    | with_reducible apply State.scanStop_keeps
    | with_reducible apply State.ropeDisarm_keeps
    | with_reducible apply State.ropeReset_keeps
    | (extract_lets +onlyGivenNames x; first
        | (refine Keeps.cut (s := s) (x := x) (fun hx => ?_) ?_; clear_value x; revert x; intro y hy; rotate_left; unfold x; clear x)
        | (refine Keeps.cut1 (s := s) (x := x) (fun hx => ?_) ?_; clear_value x; revert x; intro y hy; rotate_left; unfold x; clear x)
        | (refine Keeps.cut2 (s := s) (x := x) (fun hx => ?_) ?_; clear_value x; revert x; intro y hy; rotate_left; unfold x; clear x)
        | (revert x; intro y))
    | simp only [Keeps.rest_iff, Keeps.clk_iff]
    | with_reducible apply Keeps.foldl
    | with_reducible apply Keeps.foldl_fst
    | (refine Keeps.of_fst ‹_ = _› ?_)
    | (refine Keeps.of_snd ‹_ = _› ?_)
    | split
    | (intro)

theorem State.startReset_keeps {s t : State} {level : Nat} {cause : Nat} {flag : Bool} {descs : List (Nat × Nat)} (h : Keeps s t) : Keeps s (State.startReset t level cause flag descs) := by
  unfold State.startReset
  repeat' first
    | with_reducible assumption
    | with_reducible apply State.withdrawAll_keeps
    | with_reducible apply State.markReset_keeps
    | with_reducible apply State.leaveDoze_keeps
    | with_reducible apply State.forceStop_keeps
    | with_reducible apply State.crashDump_keeps
    | with_reducible apply State.holdCompute_keeps
    | with_reducible apply State.stopDrain_keeps
    | with_reducible apply State.retrainAll_keeps
    | simp only [Keeps.rest_iff, Keeps.clk_iff]
    | with_reducible apply Keeps.foldl
    | split

theorem Mem.cold_canon {m : Mem} (h : m.canon = true) : m.cold.canon = true := by
  rw [memCanon_iff] at h ⊢
  exact ⟨h.1, rfl, tblWf_filter _ h.2.2.1, h.2.2.2.1, h.2.2.2.2.1, h.2.2.2.2.2.1, rfl, rfl⟩

theorem State.coldState_keeps {s t : State} {held : Bool} {cause : Nat} (h : Keeps s t) : Keeps s (State.coldState t held cause) :=
  ⟨h.queue, h.clock, h.free, h.out, fun hs => by
    have := canon_iff.mp (h.canon hs)
    exact canon_iff.mpr ⟨tblWf_filter _ this.1, rfl, Mem.cold_canon this.2.2⟩⟩

theorem State.atStep_keeps {s t : State} {n : Nat} (h : Keeps s t) : Keeps s (State.atStep t n) := by
  unfold State.atStep
  repeat' first
    | with_reducible assumption
    | with_reducible apply State.fput_keeps

theorem State.advance_keeps {s t : State}  (h : Keeps s t) : Keeps s (State.advance t) := by
  unfold State.advance
  repeat' first
    | with_reducible assumption
    | with_reducible apply State.atStep_keeps
    | simp only [Keeps.rest_iff, Keeps.clk_iff]
    | split

theorem State.coldPins_keeps {s t : State}  (h : Keeps s t) : Keeps s (State.coldPins t) := by
  unfold State.coldPins
  repeat' first
    | with_reducible assumption
    | with_reducible apply State.emit_keeps
    | split

theorem State.coldReset_keeps {s t : State} {cause : Nat} {flag : Bool} {held : Bool} (h : Keeps s t) : Keeps s (State.coldReset t cause flag held) := by
  unfold State.coldReset
  repeat' first
    | with_reducible assumption
    | with_reducible apply State.markReset_keeps
    | with_reducible apply State.crashDump_keeps
    | with_reducible apply State.portOff_keeps
    | with_reducible apply State.coldState_keeps
    | with_reducible apply State.coldPins_keeps
    | with_reducible apply State.atStep_keeps
    | with_reducible apply Keeps.foldl
    | split

theorem State.endResetDescs_keeps {s t : State} {ok : Bool} (h : Keeps s t) : Keeps s (State.endResetDescs t ok) := by
  unfold State.endResetDescs
  repeat' first
    | with_reducible assumption
    | with_reducible apply State.setDone_keeps
    | with_reducible apply State.drew_keeps
    | with_reducible apply Keeps.foldl
    | split
    | (intro)

theorem State.requestReset_keeps {s t : State} {level : Nat} {cause : Nat} {flag : Bool} {held : Bool} {desc : Option (Nat × Nat)} (h : Keeps s t) : Keeps s (State.requestReset t level cause flag held desc) := by
  unfold State.requestReset
  repeat' first
    | with_reducible assumption
    | with_reducible apply State.endResetDescs_keeps
    | with_reducible apply State.coldReset_keeps
    | with_reducible apply State.startReset_keeps
    | simp only [Keeps.rest_iff, Keeps.clk_iff]
    | split

theorem State.fatalReset_keeps {s t : State}  (h : Keeps s t) : Keeps s (State.fatalReset t) := by
  unfold State.fatalReset
  repeat' first
    | with_reducible assumption
    | with_reducible apply State.requestReset_keeps
    | simp only [Keeps.rest_iff, Keeps.clk_iff]
    | split

theorem execFaultReport_keeps {s u : State} {cls : Nat} {sev : Nat} {die : Nat} {unit : Nat} {cell : Nat} {port : Nat} {ring : Nat} {seq : Nat} {layer : Nat} {op : Nat} (e : execFaultReport cls sev die unit cell port ring seq layer op s = .next u) : Keeps s u := by
  unfold execFaultReport at e
  injection e with e
  subst e
  repeat' first
    | with_reducible exact Keeps.refl _
    | with_reducible apply State.fatalReset_keeps
    | with_reducible apply State.report_keeps
    | split

theorem execFlitSend_keeps {s u : State} {p : Nat} {parity : Option Bool} (e : execFlitSend p parity s = .next u) : Keeps s u := by
  unfold execFlitSend at e
  injection e with e
  subst e
  repeat' first
    | with_reducible exact Keeps.refl _
    | with_reducible apply flitSend_keeps
    | with_reducible apply State.parityFault_keeps
    | with_reducible apply State.fatalReset_keeps
    | simp only [Keeps.rest_iff, Keeps.clk_iff]
    | split

theorem resetDesc_keeps {s t : State} {d : Started} (h : Keeps s t) : Keeps s (resetDesc t d) := by
  unfold resetDesc
  try dsimp -zeta only
  repeat' first
    | with_reducible assumption
    | with_reducible exact Keeps.refl _
    | with_reducible rfl
    | with_reducible apply State.setDone_keeps
    | with_reducible apply State.requestReset_keeps
    | with_reducible apply State.updStarted_keeps
    | with_reducible apply completeStarted_keeps
    | with_reducible apply traceEnd_keeps
    | (extract_lets +onlyGivenNames x; first
        | (refine Keeps.cut (s := s) (x := x) (fun hx => ?_) ?_; clear_value x; revert x; intro y hy; rotate_left; unfold x; clear x)
        | (refine Keeps.cut1 (s := s) (x := x) (fun hx => ?_) ?_; clear_value x; revert x; intro y hy; rotate_left; unfold x; clear x)
        | (refine Keeps.cut2 (s := s) (x := x) (fun hx => ?_) ?_; clear_value x; revert x; intro y hy; rotate_left; unfold x; clear x)
        | (revert x; intro y))
    | simp only [Keeps.rest_iff, Keeps.clk_iff]
    | with_reducible apply Keeps.foldl
    | with_reducible apply Keeps.foldl_fst
    | (refine Keeps.of_fst ‹_ = _› ?_)
    | (refine Keeps.of_snd ‹_ = _› ?_)
    | split
    | (intro)

theorem execReset_keeps {s u : State} {n : Nat} {seq : Nat} (e : execReset n seq s = .next u) : Keeps s u := by
  unfold execReset at e
  injection e with e
  subst e
  repeat' first
    | with_reducible exact Keeps.refl _
    | with_reducible apply resetDesc_keeps
    | split

theorem resetCmd_keeps {s t : State} {level : Nat} {mgmt : Bool} {dump : Bool} (h : Keeps s t) : Keeps s (resetCmd t level mgmt dump) := by
  unfold resetCmd
  repeat' first
    | with_reducible assumption
    | with_reducible apply State.requestReset_keeps
    | with_reducible apply State.rejected_keeps
    | split

theorem execResetCmdCompute_keeps {s u : State} {mgmt : Bool} {dump : Bool} (e : execResetCmdCompute mgmt dump s = .next u) : Keeps s u := by
  unfold execResetCmdCompute at e
  injection e with e
  subst e
  repeat' first
    | with_reducible exact Keeps.refl _
    | with_reducible apply resetCmd_keeps

theorem execResetCmdModule_keeps {s u : State} {mgmt : Bool} {dump : Bool} (e : execResetCmdModule mgmt dump s = .next u) : Keeps s u := by
  unfold execResetCmdModule at e
  injection e with e
  subst e
  repeat' first
    | with_reducible exact Keeps.refl _
    | with_reducible apply resetCmd_keeps

theorem execResetCmdCold_keeps {s u : State} {mgmt : Bool} {dump : Bool} (e : execResetCmdCold mgmt dump s = .next u) : Keeps s u := by
  unfold execResetCmdCold at e
  injection e with e
  subst e
  repeat' first
    | with_reducible exact Keeps.refl _
    | with_reducible apply resetCmd_keeps

theorem execModResetAssert_keeps {s u : State}  (e : execModResetAssert s = .next u) : Keeps s u := by
  unfold execModResetAssert at e
  injection e with e
  subst e
  repeat' first
    | with_reducible exact Keeps.refl _
    | with_reducible apply State.requestReset_keeps
    | simp only [Keeps.rest_iff, Keeps.clk_iff]
    | split

theorem execModResetDeassert_keeps {s u : State}  (e : execModResetDeassert s = .next u) : Keeps s u := by
  unfold execModResetDeassert at e
  injection e with e
  subst e
  repeat' first
    | with_reducible exact Keeps.refl _
    | with_reducible apply State.atStep_keeps
    | simp only [Keeps.rest_iff, Keeps.clk_iff]
    | split

theorem execBlockBeatTimeout_keeps {s u : State} {b : Nat} (e : execBlockBeatTimeout b s = .next u) : Keeps s u := by
  unfold execBlockBeatTimeout at e
  injection e with e
  subst e
  try dsimp -zeta only
  repeat' first
    | with_reducible assumption
    | with_reducible exact Keeps.refl _
    | with_reducible rfl
    | with_reducible apply State.reach_keeps
    | with_reducible apply State.putBit_keeps
    | with_reducible apply State.dieOn_keeps
    | (extract_lets +onlyGivenNames x; first
        | (refine Keeps.cut (s := s) (x := x) (fun hx => ?_) ?_; clear_value x; revert x; intro y hy; rotate_left; unfold x; clear x)
        | (refine Keeps.cut1 (s := s) (x := x) (fun hx => ?_) ?_; clear_value x; revert x; intro y hy; rotate_left; unfold x; clear x)
        | (refine Keeps.cut2 (s := s) (x := x) (fun hx => ?_) ?_; clear_value x; revert x; intro y hy; rotate_left; unfold x; clear x)
        | (revert x; intro y))
    | simp only [Keeps.rest_iff, Keeps.clk_iff]
    | with_reducible apply Keeps.foldl
    | with_reducible apply Keeps.foldl_fst
    | (refine Keeps.of_fst ‹_ = _› ?_)
    | (refine Keeps.of_snd ‹_ = _› ?_)
    | split
    | (intro)

theorem execComputeResetTimeout_keeps {s u : State}  (e : execComputeResetTimeout s = .next u) : Keeps s u := by
  unfold execComputeResetTimeout at e
  injection e with e
  subst e
  repeat' first
    | with_reducible exact Keeps.refl _
    | with_reducible apply State.requestReset_keeps
    | with_reducible apply State.reach_keeps
    | split

theorem execModuleRecoveryTimeout_keeps {s u : State}  (e : execModuleRecoveryTimeout s = .next u) : Keeps s u := by
  unfold execModuleRecoveryTimeout at e
  injection e with e
  subst e
  repeat' first
    | with_reducible exact Keeps.refl _
    | with_reducible apply State.requestReset_keeps
    | with_reducible apply State.reach_keeps
    | split

theorem State.autoRestart_keeps {s t : State} {f : Nat} (h : Keeps s t) : Keeps s (State.autoRestart t f) := by
  unfold State.autoRestart
  repeat' first
    | with_reducible assumption
    | with_reducible apply State.restartFn_keeps
    | with_reducible apply State.setFn_keeps
    | split

theorem endReset_keeps {s t : State} {r : ResetRun} (h : Keeps s t) : Keeps s (endReset t r) := by
  unfold endReset
  repeat' first
    | with_reducible assumption
    | with_reducible apply State.autoRestart_keeps
    | with_reducible apply State.endResetDescs_keeps
    | with_reducible apply State.event_keeps
    | with_reducible apply State.fput_keeps
    | simp only [Keeps.rest_iff, Keeps.clk_iff]
    | with_reducible apply Keeps.foldl

theorem execResetEnd_keeps {s u : State}  (e : execResetEnd s = .next u) : Keeps s u := by
  unfold execResetEnd at e
  injection e with e
  subst e
  repeat' first
    | with_reducible exact Keeps.refl _
    | with_reducible apply endReset_keeps
    | split

theorem State.giveUp_keeps {s t : State} (h : Keeps s t) : Keeps s (State.giveUp t) := by
  unfold State.giveUp
  exact Keeps.regs (t := t.coldState true 2) (State.coldState_keeps h) (fun hs => hs)

theorem State.bothLost_keeps {s t : State}  (h : Keeps s t) : Keeps s (State.bothLost t) := by
  unfold State.bothLost
  repeat' first
    | with_reducible assumption
    | with_reducible apply State.giveUp_keeps
    | with_reducible apply State.requestReset_keeps
    | simp only [Keeps.rest_iff, Keeps.clk_iff]
    | split

theorem State.noStandby_keeps {s t : State} {d : Nat} (h : Keeps s t) : Keeps s (State.noStandby t d) := by
  unfold State.noStandby
  repeat' first
    | with_reducible assumption
    | with_reducible apply State.report_keeps
    | simp only [Keeps.rest_iff, Keeps.clk_iff]
    | split

theorem State.trfReset_keeps {s t : State} {d : Nat} (h : Keeps s t) : Keeps s (State.trfReset t d) := by
  unfold State.trfReset
  repeat' first
    | with_reducible assumption
    | with_reducible apply State.changeRole_keeps
    | simp only [Keeps.rest_iff, Keeps.clk_iff]

theorem State.trfMissed_keeps {s t : State} {d : Nat} (h : Keeps s t) : Keeps s (State.trfMissed t d) := by
  unfold State.trfMissed
  repeat' first
    | with_reducible assumption
    | with_reducible apply State.bothLost_keeps
    | with_reducible apply State.noStandby_keeps
    | with_reducible apply State.trfReset_keeps
    | split

theorem State.blockLost_keeps {s t : State} {b : Nat} (h : Keeps s t) : Keeps s (State.blockLost t b) := by
  unfold State.blockLost
  repeat' first
    | with_reducible assumption
    | with_reducible apply State.putBit_keeps
    | with_reducible apply State.blockOff_keeps
    | with_reducible apply State.fenceBlock_keeps
    | with_reducible apply State.report_keeps
    | simp only [Keeps.rest_iff, Keeps.clk_iff]

theorem execPerstAssert_keeps {s u : State}  (e : execPerstAssert s = .next u) : Keeps s u := by
  unfold execPerstAssert at e
  injection e with e
  subst e
  repeat' first
    | with_reducible exact Keeps.refl _
    | with_reducible apply State.drainNow_keeps
    | simp only [Keeps.rest_iff, Keeps.clk_iff]
    | with_reducible apply Keeps.foldl
    | (intro)

theorem execPerstDeassert_keeps {s u : State}  (e : execPerstDeassert s = .next u) : Keeps s u := by
  unfold execPerstDeassert at e
  injection e with e
  subst e
  repeat' first
    | with_reducible exact Keeps.refl _
    | with_reducible rfl
    | simp only [Keeps.rest_iff, Keeps.clk_iff]

end Sys2Proof.Machine
end

