-- ==== Sys2Proof/Laws/KeepsEvr.lean ====
section
/-!
SUPPORT. What the operations of Machine/Evr.lean keep (Safety.lean).
-/
namespace Sys2Proof.Machine

open Sys2Proof

theorem State.setEvr_keeps {s t : State} {x1 : Nat} {next : Nat} {n : Nat} (h : Keeps s t) : Keeps s (State.setEvr t x1 next n) := by
  unfold State.setEvr
  repeat' first
    | with_reducible assumption
    | with_reducible rfl
    | simp only [Keeps.rest_iff, Keeps.clk_iff]
    | split

theorem State.showFlash_keeps {s t : State}  (h : Keeps s t) : Keeps s (State.showFlash t) := by
  unfold State.showFlash
  repeat' first
    | with_reducible assumption
    | with_reducible apply State.fput_keeps

theorem State.flashDrop_keeps {s t : State} {x1 : Nat} (h : Keeps s t) : Keeps s (State.flashDrop t x1) := by
  unfold State.flashDrop
  repeat' first
    | with_reducible assumption
    | with_reducible apply State.event_keeps
    | with_reducible apply State.fput_keeps
    | with_reducible apply State.bump_keeps
    | simp only [Keeps.rest_iff, Keeps.clk_iff]
    | split

theorem flashCopy_keeps {s t : State} {x1 : Nat} (h : Keeps s t) : Keeps s (flashCopy t x1) := by
  unfold flashCopy
  repeat' first
    | with_reducible assumption
    | with_reducible apply State.flashDrop_keeps
    | with_reducible apply State.showFlash_keeps
    | with_reducible apply State.setEvr_keeps
    | with_reducible apply State.flashWrite_keeps
    | (extract_lets +onlyGivenNames x; first
        | (revert x; intro y))
    | split

theorem execEvrFlashCopy_keeps {s u : State} {x0 : Nat} (e : execEvrFlashCopy x0 s = .next u) : Keeps s u := by
  unfold execEvrFlashCopy at e
  injection e with e
  subst e
  repeat' first
    | with_reducible exact Keeps.refl _
    | with_reducible apply flashCopy_keeps
    | split

theorem State.flushFlash_keeps {s t : State}  (h : Keeps s t) : Keeps s (State.flushFlash t) := by
  unfold State.flushFlash
  repeat' first
    | with_reducible assumption
    | with_reducible apply flashCopy_keeps
    | with_reducible apply Keeps.foldl
    | split
    | (intro)

theorem ctlWrite_keeps {s t : State} {mgmt : Bool} {v : Nat} (h : Keeps s t) : Keeps s (ctlWrite t mgmt v) := by
  unfold ctlWrite
  repeat' first
    | with_reducible assumption
    | with_reducible apply State.fput_keeps
    | with_reducible apply State.rejected_keeps
    | simp only [Keeps.rest_iff, Keeps.clk_iff]
    | split

theorem execClearFlash_keeps {s u : State} {mgmt : Bool} (e : execClearFlash mgmt s = .next u) : Keeps s u := by
  unfold execClearFlash at e
  injection e with e
  subst e
  repeat' first
    | with_reducible exact Keeps.refl _
    | with_reducible apply ctlWrite_keeps

theorem execFlashEraseDone_keeps {s u : State}  (e : execFlashEraseDone s = .next u) : Keeps s u := by
  unfold execFlashEraseDone at e
  injection e with e
  subst e
  try dsimp -zeta only
  repeat' first
    | with_reducible assumption
    | with_reducible exact Keeps.refl _
    | with_reducible rfl
    | exact fun hm => memCanon_flash1 (m := Mem.mk _ _ _ _ _ _ _ _ _ _ _) (memCanon_flash0 hm (tblWf_filter _)) (tblWf_filter _)
    | with_reducible apply State.setEvr_keeps
    | with_reducible apply State.fput_keeps
    | with_reducible apply State.showFlash_keeps
    | (extract_lets +onlyGivenNames x; first
        | (refine Keeps.cut (s := s) (x := x) (fun hx => ?_) ?_; clear_value x; revert x; intro y hy; rotate_left; unfold x; clear x)
        | (refine Keeps.cut1 (s := s) (x := x) (fun hx => ?_) ?_; clear_value x; revert x; intro y hy; rotate_left; unfold x; clear x)
        | (refine Keeps.cut2 (s := s) (x := x) (fun hx => ?_) ?_; clear_value x; revert x; intro y hy; rotate_left; unfold x; clear x)
        | (revert x; intro y))
    | simp only [Keeps.rest_iff, Keeps.clk_iff]
    | with_reducible apply Keeps.foldl
    | with_reducible apply Keeps.foldl_fst
    | (refine Keeps.of_fst ‹_ = _› ?_)
    | (refine Keeps.of_snd ‹_ = _› ?_)
    | split
    | (intro)
    | exact id
    | with_reducible apply Keeps.mem

theorem evrFetch_keeps {s t : State} {d : Started} (h : Keeps s t) : Keeps s (evrFetch t d) := by
  unfold evrFetch
  repeat' first
    | with_reducible assumption
    | with_reducible apply State.setDone_keeps
    | with_reducible apply State.gwrite_keeps
    | (extract_lets +onlyGivenNames x; first
        | (revert x; intro y))
    | split

theorem execEvrFetch_keeps {s u : State} {n : Nat} {seq : Nat} (e : execEvrFetch n seq s = .next u) : Keeps s u := by
  unfold execEvrFetch at e
  injection e with e
  subst e
  repeat' first
    | with_reducible exact Keeps.refl _
    | with_reducible apply evrFetch_keeps
    | split

theorem execOpHoursSave_keeps {s u : State}  (e : execOpHoursSave s = .next u) : Keeps s u := by
  unfold execOpHoursSave at e
  injection e with e
  subst e
  repeat' first
    | with_reducible exact Keeps.refl _
    | with_reducible apply State.reach_keeps
    | with_reducible apply State.count_keeps
    | simp only [Keeps.rest_iff, Keeps.clk_iff]
    | split

end Sys2Proof.Machine
end

