-- ==== Sys2Proof/Laws/KeepsPower.lean ====
section
/-!
SUPPORT. What the operations of Machine/Power.lean keep (Safety.lean).
-/
namespace Sys2Proof.Machine

open Sys2Proof

theorem State.setFeed_keeps {s t : State} {f : Nat} {v : Feed} (h : Keeps s t) : Keeps s (State.setFeed t f v) := by
  unfold State.setFeed
  repeat' first
    | with_reducible assumption
    | with_reducible rfl
    | simp only [Keeps.rest_iff, Keeps.clk_iff]

theorem State.toFeed_keeps {s t : State} {f : Nat} {st : Nat} (h : Keeps s t) : Keeps s (State.toFeed t f st) := by
  unfold State.toFeed
  repeat' first
    | with_reducible assumption
    | with_reducible apply State.event_keeps
    | with_reducible apply State.fput_keeps
    | split

theorem State.feedVolt_keeps {s t : State} {f : Nat} {volt : Nat} (h : Keeps s t) : Keeps s (State.feedVolt t f volt) := by
  unfold State.feedVolt
  repeat' first
    | with_reducible assumption
    | with_reducible apply State.fput_keeps

theorem execFeedInRange_keeps {s u : State} {f : Nat} {volt : Nat} (e : execFeedInRange f volt s = .next u) : Keeps s u := by
  unfold execFeedInRange at e
  injection e with e
  subst e
  repeat' first
    | with_reducible exact Keeps.refl _
    | with_reducible apply State.feedVolt_keeps
    | with_reducible apply State.setFeed_keeps
    | with_reducible apply State.toFeed_keeps
    | (extract_lets +onlyGivenNames x; first
        | (revert x; intro y))
    | split

theorem execFeedPrechargeStart_keeps {s u : State} {f : Nat} {volt : Nat} (e : execFeedPrechargeStart f volt s = .next u) : Keeps s u := by
  unfold execFeedPrechargeStart at e
  injection e with e
  subst e
  repeat' first
    | with_reducible exact Keeps.refl _
    | with_reducible apply State.feedVolt_keeps
    | with_reducible apply State.setFeed_keeps
    | split

theorem execFeedPrechargeDone_keeps {s u : State} {f : Nat} (e : execFeedPrechargeDone f s = .next u) : Keeps s u := by
  unfold execFeedPrechargeDone at e
  injection e with e
  subst e
  repeat' first
    | with_reducible exact Keeps.refl _
    | with_reducible apply State.setFeed_keeps
    | split

theorem State.feedActive_keeps {s t : State} {f : Nat} (h : Keeps s t) : Keeps s (State.feedActive t f) := by
  unfold State.feedActive
  repeat' first
    | with_reducible assumption
    | with_reducible apply State.toFeed_keeps
    | with_reducible apply State.fput_keeps

theorem execFeedQualified_keeps {s u : State} {f : Nat} {selftest : Bool} (e : execFeedQualified f selftest s = .next u) : Keeps s u := by
  unfold execFeedQualified at e
  injection e with e
  subst e
  repeat' first
    | with_reducible exact Keeps.refl _
    | with_reducible apply State.fput_keeps
    | with_reducible apply State.reach_keeps
    | with_reducible apply State.setFeed_keeps
    | with_reducible apply State.feedActive_keeps
    | with_reducible apply State.toFeed_keeps
    | with_reducible apply State.bump_keeps
    | (extract_lets +onlyGivenNames x; first
        | (revert x; intro y))
    | split

theorem execFeedOutOfRange_keeps {s u : State} {f : Nat} {volt : Nat} (e : execFeedOutOfRange f volt s = .next u) : Keeps s u := by
  unfold execFeedOutOfRange at e
  injection e with e
  subst e
  repeat' first
    | with_reducible exact Keeps.refl _
    | with_reducible apply State.feedVolt_keeps
    | with_reducible apply State.setFeed_keeps
    | with_reducible apply State.toFeed_keeps
    | (extract_lets +onlyGivenNames x; first
        | (revert x; intro y))
    | split

theorem execFeedbPowerupTimer_keeps {s u : State}  (e : execFeedbPowerupTimer s = .next u) : Keeps s u := by
  unfold execFeedbPowerupTimer at e
  injection e with e
  subst e
  repeat' first
    | with_reducible exact Keeps.refl _
    | with_reducible apply State.feedActive_keeps
    | with_reducible apply State.reach_keeps
    | split

theorem State.shutDown_keeps {s t : State}  (h : Keeps s t) : Keeps s (State.shutDown t) := by
  unfold State.shutDown
  repeat' first
    | with_reducible assumption
    | with_reducible apply State.emit_keeps
    | with_reducible apply State.setRole_keeps
    | simp only [Keeps.rest_iff, Keeps.clk_iff]
    | split

theorem feedTrip_keeps {s t : State} {f : Nat} {volt : Nat} {pickup : Bool} (h : Keeps s t) : Keeps s (feedTrip t f volt pickup) := by
  unfold feedTrip
  repeat' first
    | with_reducible assumption
    | with_reducible apply State.toFeed_keeps
    | with_reducible apply State.feedVolt_keeps
    | with_reducible apply State.setFeed_keeps
    | with_reducible apply State.bump_keeps
    | with_reducible apply State.feedActive_keeps
    | with_reducible apply State.report_keeps
    | with_reducible apply State.fput_keeps
    | with_reducible apply State.shutDown_keeps
    | with_reducible apply State.flushFlash_keeps
    | (extract_lets +onlyGivenNames x; first
        | (refine Keeps.cut (s := s) (x := x) (fun hx => ?_) ?_; clear_value x; revert x; intro y hy; rotate_left; unfold x; clear x)
        | (revert x; intro y))
    | split

theorem execFeedTrip_keeps {s u : State} {f : Nat} {volt : Nat} {pickup : Bool} (e : execFeedTrip f volt pickup s = .next u) : Keeps s u := by
  unfold execFeedTrip at e
  injection e with e
  subst e
  repeat' first
    | with_reducible exact Keeps.refl _
    | with_reducible apply feedTrip_keeps
    | split

theorem execLanternBeat_keeps {s u : State} {src : Nat} (e : execLanternBeat src s = .next u) : Keeps s u := by
  unfold execLanternBeat at e
  injection e with e
  subst e
  repeat' first
    | with_reducible exact Keeps.refl _
    | with_reducible apply State.dieOn_keeps
    | simp only [Keeps.rest_iff, Keeps.clk_iff]
    | split

theorem State.powerDieLost_keeps {s t : State} {f : Nat} {pickup : Bool} (h : Keeps s t) : Keeps s (State.powerDieLost t f pickup) := by
  unfold State.powerDieLost
  try dsimp -zeta only
  repeat' first
    | with_reducible assumption
    | with_reducible exact Keeps.refl _
    | with_reducible rfl
    | with_reducible apply feedTrip_keeps
    | with_reducible apply State.toFeed_keeps
    | (extract_lets +onlyGivenNames x; first
        | (refine Keeps.cut (s := s) (x := x) (fun hx => ?_) ?_; clear_value x; revert x; intro y hy; rotate_left; unfold x; clear x)
        | (refine Keeps.cut1 (s := s) (x := x) (fun hx => ?_) ?_; clear_value x; revert x; intro y hy; rotate_left; unfold x; clear x)
        | (refine Keeps.cut2 (s := s) (x := x) (fun hx => ?_) ?_; clear_value x; revert x; intro y hy; rotate_left; unfold x; clear x)
        | (revert x; intro y))
    | simp only [Keeps.rest_iff, Keeps.clk_iff]
    | with_reducible apply Keeps.foldl
    | with_reducible apply Keeps.foldl_fst
    | (refine Keeps.of_fst ‹_ = _› ?_)
    | (refine Keeps.of_snd ‹_ = _› ?_)
    | split
    | (intro)

theorem execLanternMissTimer_keeps {s u : State} {src : Nat} {pickup : Bool} (e : execLanternMissTimer src pickup s = .next u) : Keeps s u := by
  unfold execLanternMissTimer at e
  injection e with e
  subst e
  try dsimp -zeta only
  repeat' first
    | with_reducible assumption
    | with_reducible exact Keeps.refl _
    | with_reducible rfl
    | with_reducible apply State.reach_keeps
    | with_reducible apply State.blockLost_keeps
    | with_reducible apply State.trfMissed_keeps
    | with_reducible apply State.powerDieLost_keeps
    | (extract_lets +onlyGivenNames x; first
        | (refine Keeps.cut (s := s) (x := x) (fun hx => ?_) ?_; clear_value x; revert x; intro y hy; rotate_left; unfold x; clear x)
        | (refine Keeps.cut1 (s := s) (x := x) (fun hx => ?_) ?_; clear_value x; revert x; intro y hy; rotate_left; unfold x; clear x)
        | (refine Keeps.cut2 (s := s) (x := x) (fun hx => ?_) ?_; clear_value x; revert x; intro y hy; rotate_left; unfold x; clear x)
        | (revert x; intro y))
    | simp only [Keeps.rest_iff, Keeps.clk_iff]
    | with_reducible apply Keeps.foldl
    | with_reducible apply Keeps.foldl_fst
    | (refine Keeps.of_fst ‹_ = _› ?_)
    | (refine Keeps.of_snd ‹_ = _› ?_)
    | split
    | (intro)

theorem State.setCap_keeps {s t : State} {v : Nat} (h : Keeps s t) : Keeps s (State.setCap t v) := by
  unfold State.setCap
  repeat' first
    | with_reducible assumption
    | with_reducible apply State.setEff_keeps
    | with_reducible apply State.fput_keeps

theorem execFeedCurrentLimit_keeps {s u : State} {curr : Nat} (e : execFeedCurrentLimit curr s = .next u) : Keeps s u := by
  unfold execFeedCurrentLimit at e
  injection e with e
  subst e
  repeat' first
    | with_reducible exact Keeps.refl _
    | with_reducible apply State.fput_keeps
    | with_reducible apply State.setCap_keeps
    | simp only [Keeps.rest_iff, Keeps.clk_iff]
    | split

theorem dvfsWrite_keeps {s t : State} {value : Word} (h : Keeps s t) : Keeps s (dvfsWrite t value) := by
  unfold dvfsWrite
  repeat' first
    | with_reducible assumption
    | with_reducible apply State.setEff_keeps
    | with_reducible apply State.fput_keeps
    | with_reducible apply State.rejected_keeps
    | (extract_lets +onlyGivenNames x; first
        | (revert x; intro y))
    | split

theorem execTargetMhzWrite_keeps {s u : State} {value : Word} (e : execTargetMhzWrite value s = .next u) : Keeps s u := by
  unfold execTargetMhzWrite at e
  injection e with e
  subst e
  repeat' first
    | with_reducible exact Keeps.refl _
    | with_reducible apply dvfsWrite_keeps

theorem execDvfsGlideStep_keeps {s u : State}  (e : execDvfsGlideStep s = .next u) : Keeps s u := by
  unfold execDvfsGlideStep at e
  injection e with e
  subst e
  repeat' first
    | with_reducible exact Keeps.refl _
    | with_reducible apply State.showPower_keeps
    | simp only [Keeps.rest_iff, Keeps.clk_iff]
    | split

theorem execArrayIdle_keeps {s u : State}  (e : execArrayIdle s = .next u) : Keeps s u := by
  unfold execArrayIdle at e
  injection e with e
  subst e
  repeat' first
    | with_reducible exact Keeps.refl _
    | with_reducible apply State.reach_keeps
    | with_reducible apply State.showPower_keeps
    | simp only [Keeps.rest_iff, Keeps.clk_iff]
    | split

theorem State.enterDoze_keeps {s t : State}  (h : Keeps s t) : Keeps s (State.enterDoze t) := by
  unfold State.enterDoze
  repeat' first
    | with_reducible assumption
    | with_reducible apply State.holdDies_keeps
    | with_reducible apply State.showPower_keeps
    | with_reducible apply State.askKeepWarm_keeps
    | simp only [Keeps.rest_iff, Keeps.clk_iff]
    | with_reducible apply Keeps.foldl

theorem State.exitDoze_keeps {s t : State} {silent : List Nat} (h : Keeps s t) : Keeps s (State.exitDoze t silent) := by
  unfold State.exitDoze
  repeat' first
    | with_reducible assumption
    | with_reducible apply State.dieOn_keeps
    | with_reducible apply State.leaveDoze_keeps
    | with_reducible apply State.putBit_keeps
    | with_reducible apply State.askExit_keeps
    | with_reducible apply Keeps.foldl
    | (intro)

theorem powerDesc_keeps {s t : State} {d : Started} {silent : List Nat} (h : Keeps s t) : Keeps s (powerDesc t d silent) := by
  unfold powerDesc
  repeat' first
    | with_reducible assumption
    | with_reducible apply State.setDone_keeps
    | with_reducible apply State.enterDoze_keeps
    | with_reducible apply State.exitDoze_keeps
    | (extract_lets +onlyGivenNames x; first
        | (revert x; intro y))
    | split

theorem execPower_keeps {s u : State} {n : Nat} {seq : Nat} {silent : List Nat} (e : execPower n seq silent s = .next u) : Keeps s u := by
  unfold execPower at e
  injection e with e
  subst e
  repeat' first
    | with_reducible exact Keeps.refl _
    | with_reducible apply powerDesc_keeps
    | with_reducible apply State.updStarted_keeps
    | split

theorem State.showHot_keeps {s t : State} {die : Nat} {temp : Nat} (h : Keeps s t) : Keeps s (State.showHot t die temp) := by
  unfold State.showHot
  repeat' first
    | with_reducible assumption
    | with_reducible apply State.fput_keeps

theorem State.warm_keeps {s t : State} {die : Nat} {temp : Nat} (h : Keeps s t) : Keeps s (State.warm t die temp) := by
  unfold State.warm
  repeat' first
    | with_reducible assumption
    | with_reducible apply State.bump_keeps
    | with_reducible apply State.showHot_keeps
    | with_reducible apply State.report_keeps
    | with_reducible apply State.setCap_keeps
    | simp only [Keeps.rest_iff, Keeps.clk_iff]

theorem execThermalWarn_keeps {s u : State} {die : Nat} {temp : Nat} (e : execThermalWarn die temp s = .next u) : Keeps s u := by
  unfold execThermalWarn at e
  injection e with e
  subst e
  repeat' first
    | with_reducible exact Keeps.refl _
    | with_reducible apply State.showHot_keeps
    | with_reducible apply State.warm_keeps
    | split

theorem capStep_keeps {s t : State} {die : Nat} {temp : Nat} (h : Keeps s t) : Keeps s (capStep t die temp) := by
  unfold capStep
  repeat' first
    | with_reducible assumption
    | with_reducible apply State.showHot_keeps
    | with_reducible apply State.reach_keeps
    | with_reducible apply State.setCap_keeps
    | simp only [Keeps.rest_iff, Keeps.clk_iff]

theorem execCapStep_keeps {s u : State} {die : Nat} {temp : Nat} (e : execCapStep die temp s = .next u) : Keeps s u := by
  unfold execCapStep at e
  injection e with e
  subst e
  repeat' first
    | with_reducible exact Keeps.refl _
    | with_reducible apply State.warm_keeps
    | with_reducible apply capStep_keeps
    | split

theorem thermalTrip_keeps {s t : State} {die : Nat} {temp : Nat} {lost : List Nat} (h : Keeps s t) : Keeps s (thermalTrip t die temp lost) := by
  unfold thermalTrip
  repeat' first
    | with_reducible assumption
    | with_reducible apply State.emit_keeps
    | with_reducible apply State.bump_keeps
    | with_reducible apply State.showHot_keeps
    | with_reducible apply State.flushFlash_keeps
    | with_reducible apply State.report_keeps
    | with_reducible apply State.fput_keeps
    | simp only [Keeps.rest_iff, Keeps.clk_iff]

theorem execThermalTrip_keeps {s u : State} {die : Nat} {temp : Nat} {lost : List Nat} (e : execThermalTrip die temp lost s = .next u) : Keeps s u := by
  unfold execThermalTrip at e
  injection e with e
  subst e
  repeat' first
    | with_reducible exact Keeps.refl _
    | with_reducible apply thermalTrip_keeps
    | split

theorem execThermtripRelease_keeps {s u : State}  (e : execThermtripRelease s = .next u) : Keeps s u := by
  unfold execThermtripRelease at e
  injection e with e
  subst e
  repeat' first
    | with_reducible exact Keeps.refl _
    | with_reducible apply State.reach_keeps
    | with_reducible apply State.emit_keeps
    | simp only [Keeps.rest_iff, Keeps.clk_iff]
    | split

theorem execCoolantInletReading_keeps {s u : State} {temp : Nat} (e : execCoolantInletReading temp s = .next u) : Keeps s u := by
  unfold execCoolantInletReading at e
  injection e with e
  subst e
  repeat' first
    | with_reducible exact Keeps.refl _
    | with_reducible apply State.fput_keeps
    | with_reducible apply State.report_keeps
    | simp only [Keeps.rest_iff, Keeps.clk_iff]
    | split

end Sys2Proof.Machine
end

