-- ==== Sys2Proof/Laws/KeepsStartup.lean ====
section
/-!
SUPPORT. What the operations of Machine/Startup.lean keep (Safety.lean).
-/
namespace Sys2Proof.Machine

open Sys2Proof

theorem State.poweredUp_keeps {s t : State} (h : Keeps s t) : Keeps s (State.poweredUp t) := by
  unfold State.poweredUp
  extract_lets life cycles fs e1 t1 u
  have h1 : Keeps s t1 := ⟨h.queue, h.clock, h.free, h.out, fun hs => by
    have hc := memCanon_iff.mp (canon_iff.mp (h.canon hs)).2.2
    exact canon_iff.mpr ⟨rfl, rfl, memCanon_iff.mpr ⟨rfl, rfl, rfl, hc.2.2.2.1, hc.2.2.2.2.1, hc.2.2.2.2.2.1, rfl, rfl⟩⟩⟩
  exact State.showFlash_keeps (State.fput_keeps (State.setReg_keeps (State.setReg_keeps (State.setReg_keeps (State.setReg_keeps
    (State.setReg_keeps h1))))))

theorem execPowerUp_keeps {s u : State}  (e : execPowerUp s = .next u) : Keeps s u := by
  unfold execPowerUp at e
  injection e with e
  subst e
  repeat' first
    | with_reducible exact Keeps.refl _
    | with_reducible apply State.atStep_keeps
    | with_reducible apply State.emit_keeps
    | with_reducible apply State.poweredUp_keeps
    | split

theorem State.sendToken_keeps {s t : State}  (h : Keeps s t) : Keeps s (State.sendToken t) := by
  unfold State.sendToken
  repeat' first
    | with_reducible assumption
    | with_reducible apply State.emit_keeps
    | simp only [Keeps.rest_iff, Keeps.clk_iff]
    | split

theorem State.beginDiscovery_keeps {s t : State}  (h : Keeps s t) : Keeps s (State.beginDiscovery t) := by
  unfold State.beginDiscovery
  repeat' first
    | with_reducible assumption
    | with_reducible rfl
    | simp only [Keeps.rest_iff, Keeps.clk_iff]
    | split

theorem State.followChip_keeps {s t : State}  (h : Keeps s t) : Keeps s (State.followChip t) := by
  unfold State.followChip
  repeat' first
    | with_reducible assumption
    | with_reducible apply State.advance_keeps
    | with_reducible apply State.beginDiscovery_keeps
    | with_reducible apply State.setReg_keeps

theorem State.takeSlot_keeps {s t : State} {slot : Nat} {beyond : Bool} (h : Keeps s t) : Keeps s (State.takeSlot t slot beyond) := by
  unfold State.takeSlot
  try dsimp -zeta only
  repeat' first
    | with_reducible assumption
    | with_reducible exact Keeps.refl _
    | with_reducible rfl
    | with_reducible apply State.sendToken_keeps
    | with_reducible apply State.followChip_keeps
    | with_reducible apply State.fput_keeps
    | (extract_lets +onlyGivenNames x; first
        | (refine Keeps.cut (s := s) (x := x) (fun hx => ?_) ?_; clear_value x; revert x; intro y hy; rotate_left; unfold x; clear x)
        | (refine Keeps.cut1 (s := s) (x := x) (fun hx => ?_) ?_; clear_value x; revert x; intro y hy; rotate_left; unfold x; clear x)
        | (refine Keeps.cut2 (s := s) (x := x) (fun hx => ?_) ?_; clear_value x; revert x; intro y hy; rotate_left; unfold x; clear x)
        | (revert x; intro y))
    | simp only [Keeps.rest_iff, Keeps.clk_iff]
    | with_reducible apply Keeps.foldl
    | with_reducible apply Keeps.foldl_fst
    | (refine Keeps.of_fst ‹_ = _› ?_)
    | (refine Keeps.of_snd ‹_ = _› ?_)
    | split
    | (intro)

theorem State.compareSlot_keeps {s t : State} {k : Nat} {slot : Nat} (h : Keeps s t) : Keeps s (State.compareSlot t k slot) := by
  unfold State.compareSlot
  repeat' first
    | with_reducible assumption
    | with_reducible apply State.fput_keeps
    | with_reducible apply State.bump_keeps
    | split

theorem enumToken_keeps {s t : State} {f : List Byte} {coded : Bool} (h : Keeps s t) : Keeps s (enumToken t f coded) := by
  unfold enumToken
  repeat' first
    | with_reducible assumption
    | with_reducible apply State.compareSlot_keeps
    | with_reducible apply State.takeSlot_keeps
    | with_reducible apply State.bump_keeps
    | simp only [Keeps.rest_iff, Keeps.clk_iff]
    | split

theorem execEnumTokenReceive_keeps {s u : State} {frame : List Byte} {coded : Bool} (e : execEnumTokenReceive frame coded s = .next u) : Keeps s u := by
  unfold execEnumTokenReceive at e
  injection e with e
  subst e
  repeat' first
    | with_reducible exact Keeps.refl _
    | with_reducible apply enumToken_keeps
    | split

theorem execEnumTokenSend_keeps {s u : State}  (e : execEnumTokenSend s = .next u) : Keeps s u := by
  unfold execEnumTokenSend at e
  injection e with e
  subst e
  repeat' first
    | with_reducible exact Keeps.refl _
    | with_reducible apply State.sendToken_keeps
    | with_reducible apply State.reach_keeps
    | split

theorem execEnumWaitExpire_keeps {s u : State}  (e : execEnumWaitExpire s = .next u) : Keeps s u := by
  unfold execEnumWaitExpire at e
  injection e with e
  subst e
  repeat' first
    | with_reducible exact Keeps.refl _
    | with_reducible apply State.fput_keeps
    | with_reducible apply State.reach_keeps
    | split

theorem execAssignWaitExpire_keeps {s u : State}  (e : execAssignWaitExpire s = .next u) : Keeps s u := by
  unfold execAssignWaitExpire at e
  injection e with e
  subst e
  repeat' first
    | with_reducible exact Keeps.refl _
    | with_reducible apply State.putBit_keeps
    | with_reducible apply State.reach_keeps
    | with_reducible apply State.advance_keeps
    | with_reducible apply State.atStep_keeps
    | simp only [Keeps.rest_iff, Keeps.clk_iff]
    | split

theorem execLockWaitExpire_keeps {s u : State} (e : execLockWaitExpire s = .next u) : Keeps s u := by
  unfold execLockWaitExpire at e
  injection e with e
  subst e
  split
  · exact State.advance_keeps (State.ptpApplied_keeps (Keeps.inForce (State.fput_keeps (State.putBit_keeps (State.reach_keeps (Keeps.refl _)))) (tblWf_put _)))
  · exact Keeps.refl _

theorem chipAssign_keeps {s t : State} {mgmt : Bool} {value : Word} (h : Keeps s t) : Keeps s (chipAssign t mgmt value) := by
  unfold chipAssign
  repeat' first
    | with_reducible assumption
    | with_reducible apply State.followChip_keeps
    | with_reducible apply State.setReg_keeps
    | with_reducible apply State.sendToken_keeps
    | with_reducible apply State.rejected_keeps
    | split

theorem execChipAssignWrite_keeps {s u : State} {mgmt : Bool} {value : Word} (e : execChipAssignWrite mgmt value s = .next u) : Keeps s u := by
  unfold execChipAssignWrite at e
  injection e with e
  subst e
  repeat' first
    | with_reducible exact Keeps.refl _
    | with_reducible apply chipAssign_keeps

theorem startCfg_keeps {s t : State} {mgmt : Bool} {value : Word} (h : Keeps s t) : Keeps s (startCfg t mgmt value) := by
  unfold startCfg
  repeat' first
    | with_reducible assumption
    | with_reducible apply State.setReg_keeps
    | with_reducible apply State.rejected_keeps
    | split

theorem execStartCfgWrite_keeps {s u : State} {mgmt : Bool} {value : Word} (e : execStartCfgWrite mgmt value s = .next u) : Keeps s u := by
  unfold execStartCfgWrite at e
  injection e with e
  subst e
  repeat' first
    | with_reducible exact Keeps.refl _
    | with_reducible apply startCfg_keeps

theorem State.releaseDies_keeps {s t : State} {failed : List Nat} {noScan : Bool} (h : Keeps s t) : Keeps s (State.releaseDies t failed noScan) := by
  unfold State.releaseDies
  repeat' first
    | with_reducible assumption
    | with_reducible apply State.report_keeps
    | with_reducible apply State.putBit_keeps
    | with_reducible apply State.fput_keeps
    | simp only [Keeps.rest_iff, Keeps.clk_iff]
    | with_reducible apply Keeps.foldl
    | split
    | (intro)

theorem State.trainStacks_keeps {s t : State} (h : Keeps s t) : Keeps s (State.trainStacks t) :=
  Keeps.mem h (fun hm => memCanon_openTags (memCanon_hbm hm (tblWf_filter _)))

theorem State.openHost_keeps {s t : State}  (h : Keeps s t) : Keeps s (State.openHost t) := by
  unfold State.openHost
  repeat' first
    | with_reducible assumption
    | with_reducible apply State.putBit_keeps
    | simp only [Keeps.rest_iff, Keeps.clk_iff]
    | split

theorem State.putSettings_keeps {s t : State} {settings : List (Nat × Word)} {rings : List Nat} (h : Keeps s t) : Keeps s (State.putSettings t settings rings) := by
  unfold State.putSettings
  repeat' first
    | with_reducible assumption
    | with_reducible apply State.setReg_keeps
    | with_reducible apply Keeps.foldl
    | split
    | (intro)

theorem State.bringUp_keeps {s t : State} {f : Nat} (h : Keeps s t) : Keeps s (State.bringUp t f) := by
  unfold State.bringUp
  repeat' first
    | with_reducible assumption
    | with_reducible apply State.restartFn_keeps
    | with_reducible apply State.setFn_keeps

theorem State.services_keeps {s t : State} {settings : List (Nat × Word)} {rings : List Nat} (h : Keeps s t) : Keeps s (State.services t settings rings) := by
  unfold State.services
  repeat' first
    | with_reducible assumption
    | with_reducible apply State.bringUp_keeps
    | with_reducible apply State.putSettings_keeps
    | with_reducible apply Keeps.foldl
    | (intro)

theorem State.ready_keeps {s t : State}  (h : Keeps s t) : Keeps s (State.ready t) := by
  unfold State.ready
  repeat' first
    | with_reducible assumption
    | with_reducible apply State.fput_keeps
    | with_reducible apply State.atStep_keeps
    | with_reducible apply State.putBit_keeps
    | with_reducible apply State.event_keeps
    | with_reducible apply State.beginDiscovery_keeps
    | with_reducible apply State.emit_keeps
    | with_reducible apply State.noStandby_keeps
    | simp only [Keeps.rest_iff, Keeps.clk_iff]
    | split

theorem execStartupReady_keeps {s u : State} {failed : List Nat} {noScan : Bool} {settings : List (Nat × Word)} {rings : List Nat} (e : execStartupReady failed noScan settings rings s = .next u) : Keeps s u := by
  unfold execStartupReady at e
  injection e with e
  subst e
  repeat' first
    | with_reducible exact Keeps.refl _
    | with_reducible apply State.openHost_keeps
    | with_reducible apply State.trainStacks_keeps
    | with_reducible apply State.releaseDies_keeps
    | with_reducible apply State.ready_keeps
    | with_reducible apply State.services_keeps
    | split

theorem execPcieConfigRequest_keeps {s u : State} {req : CfgReq} (e : execPcieConfigRequest req s = .next u) : Keeps s u := by
  unfold execPcieConfigRequest at e
  injection e with e
  subst e
  repeat' first
    | with_reducible exact Keeps.refl _
    | with_reducible apply State.emit_keeps
    | with_reducible apply State.drew_keeps
    | simp only [Keeps.rest_iff, Keeps.clk_iff]
    | with_reducible apply Keeps.foldl
    | split
    | (intro)

theorem execPcieLinkUp_keeps {s u : State}  (e : execPcieLinkUp s = .next u) : Keeps s u := by
  unfold execPcieLinkUp at e
  injection e with e
  subst e
  repeat' first
    | with_reducible exact Keeps.refl _
    | with_reducible apply State.putBit_keeps
    | simp only [Keeps.rest_iff, Keeps.clk_iff]
    | split

end Sys2Proof.Machine
end

