-- ==== Sys2Proof/Laws/KeepsCut.lean ====
section
/-!
SUPPORT. What the operations of Machine/Cut.lean keep (Safety.lean).
-/
namespace Sys2Proof.Machine

open Sys2Proof

theorem State.takeCut_keeps {s t : State} {d : Started} (h : Keeps s t) : Keeps s (State.takeCut t d) := by
  unfold State.takeCut
  repeat' first
    | with_reducible assumption
    | with_reducible apply State.fput_keeps
    | with_reducible apply State.bump_keeps
    | with_reducible apply State.updStarted_keeps
    | simp only [Keeps.rest_iff, Keeps.clk_iff]
    | split

theorem cutDesc_keeps {s t : State} {d : Started} (h : Keeps s t) : Keeps s (cutDesc t d) := by
  unfold cutDesc
  repeat' first
    | with_reducible assumption
    | with_reducible apply State.setDone_keeps
    | with_reducible apply State.takeCut_keeps
    | split

theorem execCut_keeps {s u : State} {n : Nat} {seq : Nat} (e : execCut n seq s = .next u) : Keeps s u := by
  unfold execCut at e
  injection e with e
  subst e
  repeat' first
    | with_reducible exact Keeps.refl _
    | with_reducible apply cutDesc_keeps
    | split

theorem sumpCopy_keeps {s t : State} {r : Nat} {c : Cut} (h : Keeps s t) : Keeps s (sumpCopy t r c) := by
  unfold sumpCopy
  repeat' first
    | with_reducible assumption
    | with_reducible apply State.sumpPhase_keeps
    | with_reducible apply State.countInactive_keeps
    | with_reducible apply State.clearInactive_keeps
    | with_reducible apply State.copyUnit_keeps
    | simp only [Keeps.rest_iff, Keeps.clk_iff]
    | split

theorem execSumpCopy_keeps {s u : State} {r : Nat} {ecc : EccFinds} (e : execSumpCopy r ecc s = .next u) : Keeps s u := by
  unfold execSumpCopy at e
  injection e with e
  subst e
  try dsimp -zeta only
  repeat' first
    | with_reducible assumption
    | with_reducible exact Keeps.refl _
    | with_reducible rfl
    | with_reducible apply State.eccAll_keeps
    | with_reducible apply sumpCopy_keeps
    | (extract_lets +onlyGivenNames x; first
        | (refine Keeps.cut (s := s) (x := x) (fun hx => ?_) ?_; clear_value x; revert x; intro y hy; rotate_left; unfold x; clear x)
        | (refine Keeps.cut1 (s := s) (x := x) (fun hx => ?_) ?_; clear_value x; revert x; intro y hy; rotate_left; unfold x; clear x)
        | (refine Keeps.cut2 (s := s) (x := x) (fun hx => ?_) ?_; clear_value x; revert x; intro y hy; rotate_left; unfold x; clear x)
        | (revert x; intro y))
    | simp only [Keeps.rest_iff, Keeps.clk_iff]
    | with_reducible apply Keeps.foldl
    | with_reducible apply Keeps.foldl_fst
    | (refine Keeps.of_fst ‹_ = _› ?_)
    | (refine Keeps.of_snd ‹_ = _› ?_)
    | split
    | (intro)

theorem execHeldWriteRelease_keeps {s u : State} {ecc : EccFinds} (e : execHeldWriteRelease ecc s = .next u) : Keeps s u := by
  unfold execHeldWriteRelease at e
  injection e with e
  subst e
  try dsimp -zeta only
  repeat' first
    | with_reducible assumption
    | with_reducible exact Keeps.refl _
    | with_reducible rfl
    | with_reducible apply State.eccAll_keeps
    | with_reducible apply State.copyUnit_keeps
    | with_reducible apply State.serveWaiting_keeps
    | with_reducible apply State.writePlain_keeps
    | (extract_lets +onlyGivenNames x; first
        | (refine Keeps.cut (s := s) (x := x) (fun hx => ?_) ?_; clear_value x; revert x; intro y hy; rotate_left; unfold x; clear x)
        | (refine Keeps.cut1 (s := s) (x := x) (fun hx => ?_) ?_; clear_value x; revert x; intro y hy; rotate_left; unfold x; clear x)
        | (refine Keeps.cut2 (s := s) (x := x) (fun hx => ?_) ?_; clear_value x; revert x; intro y hy; rotate_left; unfold x; clear x)
        | (revert x; intro y))
    | simp only [Keeps.rest_iff, Keeps.clk_iff]
    | with_reducible apply Keeps.foldl
    | with_reducible apply Keeps.foldl_fst
    | (refine Keeps.of_fst ‹_ = _› ?_)
    | (refine Keeps.of_snd ‹_ = _› ?_)
    | split
    | (intro)

theorem State.pieceOut_keeps {s t : State} {r : Nat} {chip : Nat} {addr : Nat} {d : List Byte} (h : Keeps s t) : Keeps s (State.pieceOut t r chip addr d) := by
  unfold State.pieceOut
  repeat' first
    | with_reducible assumption
    | with_reducible apply State.gwrite_keeps
    | with_reducible apply State.send_keeps
    | split

theorem State.askRead_keeps {s t : State} {r : Nat} {who : Master} {chip : Nat} {off : Nat} {n : Nat} (h : Keeps s t) : Keeps s (State.askRead t r who chip off n) := by
  unfold State.askRead
  try dsimp -zeta only
  repeat' first
    | with_reducible assumption
    | with_reducible exact Keeps.refl _
    | with_reducible rfl
    | with_reducible apply State.newTag_keeps
    | with_reducible apply State.addRead_keeps
    | with_reducible apply State.send_keeps
    | (extract_lets +onlyGivenNames x; first
        | (refine Keeps.cut (s := s) (x := x) (fun hx => ?_) ?_; clear_value x; revert x; intro y hy; rotate_left; unfold x; clear x)
        | (refine Keeps.cut1 (s := s) (x := x) (fun hx => ?_) ?_; clear_value x; revert x; intro y hy; rotate_left; unfold x; clear x)
        | (refine Keeps.cut2 (s := s) (x := x) (fun hx => ?_) ?_; clear_value x; revert x; intro y hy; rotate_left; unfold x; clear x)
        | (revert x; intro y))
    | simp only [Keeps.rest_iff, Keeps.clk_iff]
    | with_reducible apply Keeps.foldl
    | with_reducible apply Keeps.foldl_fst
    | (refine Keeps.of_fst ‹_ = _› ?_)
    | (refine Keeps.of_snd ‹_ = _› ?_)
    | split
    | (intro)

theorem State.pageSent_keeps {s t : State} {r : Nat} {chip : Nat} {addr : Nat} {tag : Nat} {d : List Byte} (h : Keeps s t) : Keeps s (State.pageSent t r chip addr tag d) := by
  unfold State.pageSent
  try dsimp -zeta only
  repeat' first
    | with_reducible assumption
    | with_reducible exact Keeps.refl _
    | with_reducible rfl
    | with_reducible apply State.pieceOut_keeps
    | with_reducible apply State.askRead_keeps
    | (extract_lets +onlyGivenNames x; first
        | (refine Keeps.cut (s := s) (x := x) (fun hx => ?_) ?_; clear_value x; revert x; intro y hy; rotate_left; unfold x; clear x)
        | (refine Keeps.cut1 (s := s) (x := x) (fun hx => ?_) ?_; clear_value x; revert x; intro y hy; rotate_left; unfold x; clear x)
        | (refine Keeps.cut2 (s := s) (x := x) (fun hx => ?_) ?_; clear_value x; revert x; intro y hy; rotate_left; unfold x; clear x)
        | (revert x; intro y))
    | simp only [Keeps.rest_iff, Keeps.clk_iff]
    | with_reducible apply Keeps.foldl
    | with_reducible apply Keeps.foldl_fst
    | (refine Keeps.of_fst ‹_ = _› ?_)
    | (refine Keeps.of_snd ‹_ = _› ?_)
    | split
    | (intro)

theorem State.pageOut_keeps {s t : State} {r : Nat} {chip : Nat} {addr : Nat} {d : List Byte} {tag : Nat} {differs : Bool} (h : Keeps s t) : Keeps s (State.pageOut t r chip addr d tag differs) := by
  unfold State.pageOut
  try dsimp -zeta only
  repeat' first
    | with_reducible assumption
    | with_reducible exact Keeps.refl _
    | with_reducible rfl
    | with_reducible apply State.pageSent_keeps
    | with_reducible apply State.report_keeps
    | with_reducible apply State.bump_keeps
    | with_reducible apply State.pieceOut_keeps
    | (extract_lets +onlyGivenNames x; first
        | (refine Keeps.cut (s := s) (x := x) (fun hx => ?_) ?_; clear_value x; revert x; intro y hy; rotate_left; unfold x; clear x)
        | (refine Keeps.cut1 (s := s) (x := x) (fun hx => ?_) ?_; clear_value x; revert x; intro y hy; rotate_left; unfold x; clear x)
        | (refine Keeps.cut2 (s := s) (x := x) (fun hx => ?_) ?_; clear_value x; revert x; intro y hy; rotate_left; unfold x; clear x)
        | (revert x; intro y))
    | simp only [Keeps.rest_iff, Keeps.clk_iff]
    | with_reducible apply Keeps.foldl
    | with_reducible apply Keeps.foldl_fst
    | (refine Keeps.of_fst ‹_ = _› ?_)
    | (refine Keeps.of_snd ‹_ = _› ?_)
    | split
    | (intro)

theorem State.startDrain_keeps {s t : State} {c : Cut} {views : List (Option HolderView)} (h : Keeps s t) : Keeps s (State.startDrain t c views) := by
  unfold State.startDrain
  repeat' first
    | with_reducible assumption
    | with_reducible apply State.fput_keeps
    | with_reducible apply State.ckpPhase_keeps
    | with_reducible apply State.pieceOut_keeps
    | with_reducible apply State.report_keeps
    | with_reducible apply State.bump_keeps
    | simp only [Keeps.rest_iff, Keeps.clk_iff]
    | with_reducible apply Keeps.foldl
    | split
    | (intro)

theorem State.drainPage_keeps {s t : State} {step : Nat} {ip : Nat} (h : Keeps s t) : Keeps s (State.drainPage t step ip).1 := by
  unfold State.drainPage
  repeat' first
    | with_reducible assumption
    | with_reducible apply State.sumpCheck_keeps
    | split

theorem State.drainPiece_keeps {s t : State} {bad : List (Nat × Nat × Nat)} {r : Nat} {q : Nat} {x4 : Nat} {pages : List (List Byte × Option Nat)} (h : Keeps s t) : Keeps s (State.drainPiece t bad r q x4 pages) := by
  unfold State.drainPiece
  try dsimp -zeta only
  repeat' first
    | with_reducible assumption
    | with_reducible exact Keeps.refl _
    | with_reducible rfl
    | with_reducible apply State.pageOut_keeps
    | (extract_lets +onlyGivenNames x; first
        | (refine Keeps.cut (s := s) (x := x) (fun hx => ?_) ?_; clear_value x; revert x; intro y hy; rotate_left; unfold x; clear x)
        | (refine Keeps.cut1 (s := s) (x := x) (fun hx => ?_) ?_; clear_value x; revert x; intro y hy; rotate_left; unfold x; clear x)
        | (refine Keeps.cut2 (s := s) (x := x) (fun hx => ?_) ?_; clear_value x; revert x; intro y hy; rotate_left; unfold x; clear x)
        | (revert x; intro y))
    | simp only [Keeps.rest_iff, Keeps.clk_iff]
    | with_reducible apply Keeps.foldl
    | with_reducible apply Keeps.foldl_fst
    | (refine Keeps.of_fst ‹_ = _› ?_)
    | (refine Keeps.of_snd ‹_ = _› ?_)
    | split
    | (intro)

theorem State.drainStripe_keeps {s t : State} {bad : List (Nat × Nat × Nat)} {step : Nat} {q : Nat} (h : Keeps s t) : Keeps s (State.drainStripe t bad step q) := by
  unfold State.drainStripe
  try dsimp -zeta only
  repeat' first
    | with_reducible assumption
    | with_reducible exact Keeps.refl _
    | with_reducible rfl
    | with_reducible apply State.drainPage_keeps
    | with_reducible apply State.drainPiece_keeps
    | with_reducible apply State.bump_keeps
    | (extract_lets +onlyGivenNames x; first
        | (refine Keeps.cut (s := s) (x := x) (fun hx => ?_) ?_; clear_value x; revert x; intro y hy; rotate_left; unfold x; clear x)
        | (refine Keeps.cut1 (s := s) (x := x) (fun hx => ?_) ?_; clear_value x; revert x; intro y hy; rotate_left; unfold x; clear x)
        | (refine Keeps.cut2 (s := s) (x := x) (fun hx => ?_) ?_; clear_value x; revert x; intro y hy; rotate_left; unfold x; clear x)
        | (revert x; intro y))
    | simp only [Keeps.rest_iff, Keeps.clk_iff]
    | with_reducible apply Keeps.foldl
    | with_reducible apply Keeps.foldl_fst
    | (refine Keeps.of_fst ‹_ = _› ?_)
    | (refine Keeps.of_snd ‹_ = _› ?_)
    | split
    | (intro)

theorem State.drainIndex_keeps {s t : State} {c : Cut} {x2 : Nat} (h : Keeps s t) : Keeps s (State.drainIndex t c x2) := by
  unfold State.drainIndex
  repeat' first
    | with_reducible assumption
    | with_reducible apply State.pieceOut_keeps
    | split

theorem State.drainHost_keeps {s t : State}  (h : Keeps s t) : Keeps s (State.drainHost t) := by
  unfold State.drainHost
  repeat' first
    | with_reducible assumption
    | with_reducible apply State.bump_keeps
    | with_reducible apply State.ringWrite_keeps
    | (extract_lets +onlyGivenNames x; first
        | (revert x; intro y))
    | with_reducible apply Keeps.foldl
    | split
    | (intro)

theorem drainEnd_keeps {s t : State} {c : Cut} {bad : List (Nat × Nat × Nat)} (h : Keeps s t) : Keeps s (drainEnd t c bad) := by
  unfold drainEnd
  try dsimp -zeta only
  repeat' first
    | with_reducible assumption
    | with_reducible exact Keeps.refl _
    | with_reducible rfl
    | with_reducible apply State.drainStripe_keeps
    | with_reducible apply State.drainIndex_keeps
    | with_reducible apply State.endDrain_keeps
    | with_reducible apply State.drainHost_keeps
    | with_reducible apply State.setDone_keeps
    | (extract_lets +onlyGivenNames x; first
        | (refine Keeps.cut (s := s) (x := x) (fun hx => ?_) ?_; clear_value x; revert x; intro y hy; rotate_left; unfold x; clear x)
        | (refine Keeps.cut1 (s := s) (x := x) (fun hx => ?_) ?_; clear_value x; revert x; intro y hy; rotate_left; unfold x; clear x)
        | (refine Keeps.cut2 (s := s) (x := x) (fun hx => ?_) ?_; clear_value x; revert x; intro y hy; rotate_left; unfold x; clear x)
        | (revert x; intro y))
    | simp only [Keeps.rest_iff, Keeps.clk_iff]
    | with_reducible apply Keeps.foldl
    | with_reducible apply Keeps.foldl_fst
    | (refine Keeps.of_fst ‹_ = _› ?_)
    | (refine Keeps.of_snd ‹_ = _› ?_)
    | split
    | (intro)

theorem execFlowstoneDrainEnd_keeps {s u : State} {bad : List (Nat × Nat × Nat)} {ecc : EccFinds} (e : execFlowstoneDrainEnd bad ecc s = .next u) : Keeps s u := by
  unfold execFlowstoneDrainEnd at e
  injection e with e
  subst e
  try dsimp -zeta only
  repeat' first
    | with_reducible assumption
    | with_reducible exact Keeps.refl _
    | with_reducible rfl
    | with_reducible apply State.eccAll_keeps
    | with_reducible apply drainEnd_keeps
    | (extract_lets +onlyGivenNames x; first
        | (refine Keeps.cut (s := s) (x := x) (fun hx => ?_) ?_; clear_value x; revert x; intro y hy; rotate_left; unfold x; clear x)
        | (refine Keeps.cut1 (s := s) (x := x) (fun hx => ?_) ?_; clear_value x; revert x; intro y hy; rotate_left; unfold x; clear x)
        | (refine Keeps.cut2 (s := s) (x := x) (fun hx => ?_) ?_; clear_value x; revert x; intro y hy; rotate_left; unfold x; clear x)
        | (revert x; intro y))
    | simp only [Keeps.rest_iff, Keeps.clk_iff]
    | with_reducible apply Keeps.foldl
    | with_reducible apply Keeps.foldl_fst
    | (refine Keeps.of_fst ‹_ = _› ?_)
    | (refine Keeps.of_snd ‹_ = _› ?_)
    | split
    | (intro)

theorem manifestSeal_keeps {s t : State} {c : Cut} {views : List (Option HolderView)} (h : Keeps s t) : Keeps s (manifestSeal t c views) := by
  unfold manifestSeal
  repeat' first
    | with_reducible assumption
    | with_reducible apply State.gwrite_keeps
    | with_reducible apply State.fput_keeps
    | with_reducible apply State.event_keeps
    | with_reducible apply State.setDone_keeps
    | with_reducible apply State.startDrain_keeps
    | with_reducible apply State.ckpPhase_keeps
    | simp only [Keeps.rest_iff, Keeps.clk_iff]
    | split

theorem execManifestSeal_keeps {s u : State} {views : List (Option HolderView)} {ecc : EccFinds} (e : execManifestSeal views ecc s = .next u) : Keeps s u := by
  unfold execManifestSeal at e
  injection e with e
  subst e
  try dsimp -zeta only
  repeat' first
    | with_reducible assumption
    | with_reducible exact Keeps.refl _
    | with_reducible rfl
    | with_reducible apply State.eccAll_keeps
    | with_reducible apply manifestSeal_keeps
    | (extract_lets +onlyGivenNames x; first
        | (refine Keeps.cut (s := s) (x := x) (fun hx => ?_) ?_; clear_value x; revert x; intro y hy; rotate_left; unfold x; clear x)
        | (refine Keeps.cut1 (s := s) (x := x) (fun hx => ?_) ?_; clear_value x; revert x; intro y hy; rotate_left; unfold x; clear x)
        | (refine Keeps.cut2 (s := s) (x := x) (fun hx => ?_) ?_; clear_value x; revert x; intro y hy; rotate_left; unfold x; clear x)
        | (revert x; intro y))
    | simp only [Keeps.rest_iff, Keeps.clk_iff]
    | with_reducible apply Keeps.foldl
    | with_reducible apply Keeps.foldl_fst
    | (refine Keeps.of_fst ‹_ = _› ?_)
    | (refine Keeps.of_snd ‹_ = _› ?_)
    | split
    | (intro)

theorem State.folded_keeps {s t : State} {x1 : Nat} (h : Keeps s t) : Keeps s (State.folded t x1).1 := by
  unfold State.folded
  try dsimp -zeta only
  repeat' first
    | with_reducible assumption
    | with_reducible exact Keeps.refl _
    | with_reducible rfl
    | with_reducible apply State.foldAll_keeps
    | with_reducible apply State.fput_keeps
    | with_reducible apply State.clearDeltas_keeps
    | (extract_lets +onlyGivenNames x; first
        | (refine Keeps.cut (s := s) (x := x) (fun hx => ?_) ?_; clear_value x; revert x; intro y hy; rotate_left; unfold x; clear x)
        | (refine Keeps.cut1 (s := s) (x := x) (fun hx => ?_) ?_; clear_value x; revert x; intro y hy; rotate_left; unfold x; clear x)
        | (refine Keeps.cut2 (s := s) (x := x) (fun hx => ?_) ?_; clear_value x; revert x; intro y hy; rotate_left; unfold x; clear x)
        | (revert x; intro y))
    | simp only [Keeps.rest_iff, Keeps.clk_iff]
    | with_reducible apply Keeps.foldl
    | with_reducible apply Keeps.foldl_fst
    | (refine Keeps.of_fst ‹_ = _› ?_)
    | (refine Keeps.of_snd ‹_ = _› ?_)
    | split
    | (intro)

theorem State.foldEnd_keeps {s t : State} {c : Cut} {views : List (Option HolderView)} (h : Keeps s t) : Keeps s (State.foldEnd t c views) := by
  unfold State.foldEnd
  try dsimp -zeta only
  repeat' first
    | with_reducible assumption
    | with_reducible exact Keeps.refl _
    | with_reducible rfl
    | with_reducible apply State.folded_keeps
    | with_reducible apply State.startDrain_keeps
    | with_reducible apply State.setDone_keeps
    | with_reducible apply State.endDrain_keeps
    | (extract_lets +onlyGivenNames x; first
        | (refine Keeps.cut (s := s) (x := x) (fun hx => ?_) ?_; clear_value x; revert x; intro y hy; rotate_left; unfold x; clear x)
        | (refine Keeps.cut1 (s := s) (x := x) (fun hx => ?_) ?_; clear_value x; revert x; intro y hy; rotate_left; unfold x; clear x)
        | (refine Keeps.cut2 (s := s) (x := x) (fun hx => ?_) ?_; clear_value x; revert x; intro y hy; rotate_left; unfold x; clear x)
        | (revert x; intro y))
    | simp only [Keeps.rest_iff, Keeps.clk_iff]
    | with_reducible apply Keeps.foldl
    | with_reducible apply Keeps.foldl_fst
    | (refine Keeps.of_fst ‹_ = _› ?_)
    | (refine Keeps.of_snd ‹_ = _› ?_)
    | split
    | (intro)

theorem execFoldEnd_keeps {s u : State} {views : List (Option HolderView)} {ecc : EccFinds} (e : execFoldEnd views ecc s = .next u) : Keeps s u := by
  unfold execFoldEnd at e
  injection e with e
  subst e
  try dsimp -zeta only
  repeat' first
    | with_reducible assumption
    | with_reducible exact Keeps.refl _
    | with_reducible rfl
    | with_reducible apply State.eccAll_keeps
    | with_reducible apply State.foldEnd_keeps
    | (extract_lets +onlyGivenNames x; first
        | (refine Keeps.cut (s := s) (x := x) (fun hx => ?_) ?_; clear_value x; revert x; intro y hy; rotate_left; unfold x; clear x)
        | (refine Keeps.cut1 (s := s) (x := x) (fun hx => ?_) ?_; clear_value x; revert x; intro y hy; rotate_left; unfold x; clear x)
        | (refine Keeps.cut2 (s := s) (x := x) (fun hx => ?_) ?_; clear_value x; revert x; intro y hy; rotate_left; unfold x; clear x)
        | (revert x; intro y))
    | simp only [Keeps.rest_iff, Keeps.clk_iff]
    | with_reducible apply Keeps.foldl
    | with_reducible apply Keeps.foldl_fst
    | (refine Keeps.of_fst ‹_ = _› ?_)
    | (refine Keeps.of_snd ‹_ = _› ?_)
    | split
    | (intro)

theorem selectDesc_keeps {s t : State} {d : Started} {mods : List ModView} {ext : List Byte} (h : Keeps s t) : Keeps s (selectDesc t d mods ext) := by
  unfold selectDesc
  try dsimp only
  repeat' first
    | with_reducible assumption
    | with_reducible exact Keeps.refl _
    | with_reducible rfl
    | with_reducible apply State.extRead_keeps
    | with_reducible apply State.setDone_keeps
    | with_reducible apply State.gwrite_keeps
    | with_reducible apply State.report_keeps
    | with_reducible apply State.bump_keeps
    | with_reducible apply State.fput_keeps
    | (extract_lets +onlyGivenNames x; first
        | (refine Keeps.cut (s := s) (x := x) (fun hx => ?_) ?_; clear_value x; revert x; intro y hy; rotate_left; unfold x; clear x)
        | (refine Keeps.cut1 (s := s) (x := x) (fun hx => ?_) ?_; clear_value x; revert x; intro y hy; rotate_left; unfold x; clear x)
        | (refine Keeps.cut2 (s := s) (x := x) (fun hx => ?_) ?_; clear_value x; revert x; intro y hy; rotate_left; unfold x; clear x)
        | (revert x; intro y))
    | simp only [Keeps.rest_iff, Keeps.clk_iff]
    | with_reducible apply Keeps.foldl
    | with_reducible apply Keeps.foldl_fst
    | (refine Keeps.of_fst ‹_ = _› ?_)
    | (refine Keeps.of_snd ‹_ = _› ?_)
    | split
    | (intro)

theorem execRestoreSelect_keeps {s u : State} {n : Nat} {seq : Nat} {mods : List ModView} {list : List Byte} {ecc : EccFinds} (e : execRestoreSelect n seq mods list ecc s = .next u) : Keeps s u := by
  unfold execRestoreSelect at e
  injection e with e
  subst e
  try dsimp -zeta only
  repeat' first
    | with_reducible assumption
    | with_reducible exact Keeps.refl _
    | with_reducible rfl
    | with_reducible apply State.eccAll_keeps
    | with_reducible apply selectDesc_keeps
    | (extract_lets +onlyGivenNames x; first
        | (refine Keeps.cut (s := s) (x := x) (fun hx => ?_) ?_; clear_value x; revert x; intro y hy; rotate_left; unfold x; clear x)
        | (refine Keeps.cut1 (s := s) (x := x) (fun hx => ?_) ?_; clear_value x; revert x; intro y hy; rotate_left; unfold x; clear x)
        | (refine Keeps.cut2 (s := s) (x := x) (fun hx => ?_) ?_; clear_value x; revert x; intro y hy; rotate_left; unfold x; clear x)
        | (revert x; intro y))
    | simp only [Keeps.rest_iff, Keeps.clk_iff]
    | with_reducible apply Keeps.foldl
    | with_reducible apply Keeps.foldl_fst
    | (refine Keeps.of_fst ‹_ = _› ?_)
    | (refine Keeps.of_snd ‹_ = _› ?_)
    | split
    | (intro)

theorem State.restoreRead_keeps {s t : State} {p : RestoreP} {ext : List Byte} {ip : Nat} (h : Keeps s t) : Keeps s (State.restoreRead t p ext ip).1 := by
  unfold State.restoreRead
  try dsimp only
  repeat' first
    | with_reducible assumption
    | with_reducible apply State.sumpCheck_keeps
    | split

theorem State.restorePages_keeps {s t : State} {r : Prot} {step : Nat} {j : Nat} {d : List Byte} (h : Keeps s t) : Keeps s (State.restorePages t r step j d) := by
  unfold State.restorePages
  try dsimp -zeta only
  repeat' first
    | with_reducible assumption
    | with_reducible exact Keeps.refl _
    | with_reducible rfl
    | with_reducible apply State.sealSump_keeps
    | with_reducible apply State.writeSump_keeps
    | (extract_lets +onlyGivenNames x; first
        | (refine Keeps.cut (s := s) (x := x) (fun hx => ?_) ?_; clear_value x; revert x; intro y hy; rotate_left; unfold x; clear x)
        | (refine Keeps.cut1 (s := s) (x := x) (fun hx => ?_) ?_; clear_value x; revert x; intro y hy; rotate_left; unfold x; clear x)
        | (refine Keeps.cut2 (s := s) (x := x) (fun hx => ?_) ?_; clear_value x; revert x; intro y hy; rotate_left; unfold x; clear x)
        | (revert x; intro y))
    | simp only [Keeps.rest_iff, Keeps.clk_iff]
    | with_reducible apply Keeps.foldl
    | with_reducible apply Keeps.foldl_fst
    | (refine Keeps.of_fst ‹_ = _› ?_)
    | (refine Keeps.of_snd ‹_ = _› ?_)
    | split
    | (intro)

theorem State.restoreUnit_keeps {s t : State} {p : RestoreP} {step : Nat} {ext : List Byte} {r : Prot} {k : Nat} (h : Keeps s t) : Keeps s (State.restoreUnit t p step ext r k).1 := by
  unfold State.restoreUnit
  repeat' first
    | with_reducible assumption
    | with_reducible apply State.restoreRead_keeps
    | with_reducible apply State.restorePages_keeps
    | (extract_lets +onlyGivenNames x; first
        | (revert x; intro y))
    | with_reducible apply Keeps.foldl_fst
    | split
    | (intro)

theorem State.restoreOver_keeps {s t : State} {p : RestoreP} (h : Keeps s t) : Keeps s (State.restoreOver t p) := by
  unfold State.restoreOver
  repeat' first
    | with_reducible assumption
    | exact fun hm => memCanon_dirty hm (fun _ => rfl)
    | with_reducible apply State.countInactive_keeps
    | with_reducible apply State.fput_keeps
    | with_reducible apply Keeps.foldl
    | split
    | with_reducible apply Keeps.mem

theorem State.restoreBegin_keeps {s t : State} {p : RestoreP} (h : Keeps s t) : Keeps s (State.restoreBegin t p).1 := by
  unfold State.restoreBegin
  try dsimp -zeta only
  repeat' first
    | with_reducible assumption
    | with_reducible exact Keeps.refl _
    | with_reducible rfl
    | with_reducible apply State.stopDrain_keeps
    | with_reducible apply State.stopCut_keeps
    | with_reducible apply State.folded_keeps
    | (extract_lets +onlyGivenNames x; first
        | (refine Keeps.cut (s := s) (x := x) (fun hx => ?_) ?_; clear_value x; revert x; intro y hy; rotate_left; unfold x; clear x)
        | (refine Keeps.cut1 (s := s) (x := x) (fun hx => ?_) ?_; clear_value x; revert x; intro y hy; rotate_left; unfold x; clear x)
        | (refine Keeps.cut2 (s := s) (x := x) (fun hx => ?_) ?_; clear_value x; revert x; intro y hy; rotate_left; unfold x; clear x)
        | (revert x; intro y))
    | simp only [Keeps.rest_iff, Keeps.clk_iff]
    | with_reducible apply Keeps.foldl
    | with_reducible apply Keeps.foldl_fst
    | (refine Keeps.of_fst ‹_ = _› ?_)
    | (refine Keeps.of_snd ‹_ = _› ?_)
    | split
    | (intro)

theorem State.restoreLoose_keeps {s t : State} {us : List (Prot × Nat)} (h : Keeps s t) : Keeps s (State.restoreLoose t us) := by
  unfold State.restoreLoose
  try dsimp -zeta only
  repeat' first
    | with_reducible assumption
    | with_reducible exact Keeps.refl _
    | with_reducible rfl
    | with_reducible apply State.looseAt_keeps
    | (extract_lets +onlyGivenNames x; first
        | (refine Keeps.cut (s := s) (x := x) (fun hx => ?_) ?_; clear_value x; revert x; intro y hy; rotate_left; unfold x; clear x)
        | (refine Keeps.cut1 (s := s) (x := x) (fun hx => ?_) ?_; clear_value x; revert x; intro y hy; rotate_left; unfold x; clear x)
        | (refine Keeps.cut2 (s := s) (x := x) (fun hx => ?_) ?_; clear_value x; revert x; intro y hy; rotate_left; unfold x; clear x)
        | (revert x; intro y))
    | simp only [Keeps.rest_iff, Keeps.clk_iff]
    | with_reducible apply Keeps.foldl
    | with_reducible apply Keeps.foldl_fst
    | (refine Keeps.of_fst ‹_ = _› ?_)
    | (refine Keeps.of_snd ‹_ = _› ?_)
    | split
    | (intro)

theorem restoreDesc_keeps {s t : State} {d : Started} {ext : List Byte} (h : Keeps s t) : Keeps s (restoreDesc t d ext) := by
  unfold restoreDesc
  try dsimp -zeta only
  repeat' first
    | with_reducible assumption
    | with_reducible exact Keeps.refl _
    | with_reducible rfl
    | with_reducible apply State.setDone_keeps
    | with_reducible apply State.restoreBegin_keeps
    | with_reducible apply State.ckpPhase_keeps
    | with_reducible apply Keeps.foldChecks
    | with_reducible apply State.restoreUnit_keeps
    | with_reducible apply State.restoreLoose_keeps
    | with_reducible apply State.bump_keeps
    | with_reducible apply State.restoreOver_keeps
    | (extract_lets +onlyGivenNames x; first
        | (refine Keeps.cut (s := s) (x := x) (fun hx => ?_) ?_; clear_value x; revert x; intro y hy; rotate_left; unfold x; clear x)
        | (refine Keeps.cut1 (s := s) (x := x) (fun hx => ?_) ?_; clear_value x; revert x; intro y hy; rotate_left; unfold x; clear x)
        | (refine Keeps.cut2 (s := s) (x := x) (fun hx => ?_) ?_; clear_value x; revert x; intro y hy; rotate_left; unfold x; clear x)
        | (revert x; intro y))
    | simp only [Keeps.rest_iff, Keeps.clk_iff]
    | with_reducible apply Keeps.foldl
    | with_reducible apply Keeps.foldl_fst
    | (refine Keeps.of_fst ‹_ = _› ?_)
    | (refine Keeps.of_snd ‹_ = _› ?_)
    | split
    | (intro)

theorem execRestore_keeps {s u : State} {n : Nat} {seq : Nat} {ext : List Byte} {ecc : EccFinds} (e : execRestore n seq ext ecc s = .next u) : Keeps s u := by
  unfold execRestore at e
  injection e with e
  subst e
  try dsimp -zeta only
  repeat' first
    | with_reducible assumption
    | with_reducible exact Keeps.refl _
    | with_reducible rfl
    | with_reducible apply State.eccAll_keeps
    | with_reducible apply restoreDesc_keeps
    | (extract_lets +onlyGivenNames x; first
        | (refine Keeps.cut (s := s) (x := x) (fun hx => ?_) ?_; clear_value x; revert x; intro y hy; rotate_left; unfold x; clear x)
        | (refine Keeps.cut1 (s := s) (x := x) (fun hx => ?_) ?_; clear_value x; revert x; intro y hy; rotate_left; unfold x; clear x)
        | (refine Keeps.cut2 (s := s) (x := x) (fun hx => ?_) ?_; clear_value x; revert x; intro y hy; rotate_left; unfold x; clear x)
        | (revert x; intro y))
    | simp only [Keeps.rest_iff, Keeps.clk_iff]
    | with_reducible apply Keeps.foldl
    | with_reducible apply Keeps.foldl_fst
    | (refine Keeps.of_fst ‹_ = _› ?_)
    | (refine Keeps.of_snd ‹_ = _› ?_)
    | split
    | (intro)

end Sys2Proof.Machine
end

