-- ==== Sys2Proof/Laws/KeepsCont.lean ====
section
/-!
SUPPORT. What the operations of Machine/Cont.lean keep (Safety.lean).
-/
namespace Sys2Proof.Machine

open Sys2Proof

theorem State.putCaddy_keeps {s t : State} {a : Nat} {m : List Byte} (h : Keeps s t) : Keeps s (State.putCaddy t a m) := by
  unfold State.putCaddy
  repeat' first
    | with_reducible assumption
    | with_reducible apply State.gwrite_keeps

theorem State.caddyMismatch_keeps {s t : State} {c : Ctx} {vals : List Nat} (h : Keeps s t) : Keeps s (State.caddyMismatch t c vals) := by
  unfold State.caddyMismatch
  repeat' first
    | with_reducible assumption
    | with_reducible apply State.report_keeps
    | with_reducible apply State.bump_keeps

theorem State.buddyMiss_keeps {s t : State} {k : Nat} (h : Keeps s t) : Keeps s (State.buddyMiss t k) := by
  unfold State.buddyMiss
  repeat' first
    | with_reducible assumption
    | with_reducible apply State.report_keeps
    | with_reducible apply State.bump_keeps

theorem State.caddyOver_keeps {s t : State} {c : CaddyRun} (h : Keeps s t) : Keeps s (State.caddyOver t c) := by
  unfold State.caddyOver
  repeat' first
    | with_reducible assumption
    | with_reducible apply State.buddyMiss_keeps
    | with_reducible apply State.setDone_keeps
    | simp only [Keeps.rest_iff, Keeps.clk_iff]
    | with_reducible apply Keeps.foldl

theorem State.caddyAwait_keeps {s t : State} {c : CaddyRun} (h : Keeps s t) : Keeps s (State.caddyAwait t c) := by
  unfold State.caddyAwait
  repeat' first
    | with_reducible assumption
    | with_reducible apply State.caddyOver_keeps
    | simp only [Keeps.rest_iff, Keeps.clk_iff]
    | split

theorem State.caddyWrite_keeps {s t : State} {d : Started} {digest : Nat} (h : Keeps s t) : Keeps s (State.caddyWrite t d digest) := by
  unfold State.caddyWrite
  repeat' first
    | with_reducible assumption
    | with_reducible apply State.fput_keeps
    | with_reducible apply State.putCaddy_keeps
    | with_reducible apply State.caddyMismatch_keeps
    | with_reducible apply State.send_keeps
    | with_reducible apply State.updStarted_keeps
    | with_reducible apply State.caddyAwait_keeps
    | with_reducible apply Keeps.foldl
    | (intro)

theorem State.caddyCompare_keeps {s t : State} {d : Started} {digest : Nat} {old : List Byte} (h : Keeps s t) : Keeps s (State.caddyCompare t d digest old) := by
  unfold State.caddyCompare
  repeat' first
    | with_reducible assumption
    | with_reducible apply State.fput_keeps
    | with_reducible apply State.setDone_keeps
    | with_reducible apply State.bump_keeps
    | with_reducible apply State.caddyMismatch_keeps
    | split

theorem caddyDesc_keeps {s t : State} {d : Started} (h : Keeps s t) : Keeps s (caddyDesc t d) := by
  unfold caddyDesc
  repeat' first
    | with_reducible assumption
    | with_reducible apply State.setDone_keeps
    | with_reducible apply State.awareCheck_keeps
    | with_reducible apply State.caddyCompare_keeps
    | with_reducible apply State.caddyWrite_keeps
    | (extract_lets +onlyGivenNames x; first
        | (revert x; intro y))
    | (refine Keeps.of_fst ‹_ = _› ?_)
    | split

theorem execCaddyRecord_keeps {s u : State} {n : Nat} {seq : Nat} {ecc : EccFinds} (e : execCaddyRecord n seq ecc s = .next u) : Keeps s u := by
  unfold execCaddyRecord at e
  injection e with e
  subst e
  try dsimp -zeta only
  repeat' first
    | with_reducible assumption
    | with_reducible exact Keeps.refl _
    | with_reducible rfl
    | with_reducible apply State.eccAll_keeps
    | with_reducible apply caddyDesc_keeps
    | (extract_lets +onlyGivenNames x; first
        | (refine Keeps.cut (s := s) (x := x) (fun hx => ?_) ?_; clear_value x; revert x; intro y hy; rotate_left; unfold x; clear x)
        | (refine Keeps.cut1 (s := s) (x := x) (fun hx => ?_) ?_; clear_value x; revert x; intro y hy; rotate_left; unfold x; clear x)
        | (refine Keeps.cut2 (s := s) (x := x) (fun hx => ?_) ?_; clear_value x; revert x; intro y hy; rotate_left; unfold x; clear x)
        | (revert x; intro y))
    | simp only [Keeps.rest_iff, Keeps.clk_iff]
    | with_reducible apply Keeps.foldl
    | with_reducible apply Keeps.foldl_fst
    | (refine Keeps.of_fst ‹_ = _› ?_)
    | (refine Keeps.of_snd ‹_ = _› ?_)
    | split
    | (intro)

theorem State.caddyDiffers_keeps {s t : State} {x1 : Nat} (h : Keeps s t) : Keeps s (State.caddyDiffers t x1) := by
  unfold State.caddyDiffers
  try dsimp -zeta only
  repeat' first
    | with_reducible assumption
    | with_reducible exact Keeps.refl _
    | with_reducible rfl
    | (extract_lets +onlyGivenNames x; first
        | (refine Keeps.cut (s := s) (x := x) (fun hx => ?_) ?_; clear_value x; revert x; intro y hy; rotate_left; unfold x; clear x)
        | (refine Keeps.cut1 (s := s) (x := x) (fun hx => ?_) ?_; clear_value x; revert x; intro y hy; rotate_left; unfold x; clear x)
        | (refine Keeps.cut2 (s := s) (x := x) (fun hx => ?_) ?_; clear_value x; revert x; intro y hy; rotate_left; unfold x; clear x)
        | (revert x; intro y))
    | simp only [Keeps.rest_iff, Keeps.clk_iff]
    | with_reducible apply Keeps.foldl
    | with_reducible apply Keeps.foldl_fst
    | (refine Keeps.of_fst ‹_ = _› ?_)
    | (refine Keeps.of_snd ‹_ = _› ?_)
    | split
    | (intro)

theorem caddyTake_keeps {s t : State} {k : Packet} (h : Keeps s t) : Keeps s (caddyTake t k) := by
  unfold caddyTake
  try dsimp only
  repeat' first
    | with_reducible assumption
    | with_reducible exact Keeps.refl _
    | with_reducible rfl
    | with_reducible apply State.answer_keeps
    | with_reducible apply State.putCaddy_keeps
    | with_reducible apply State.caddyDiffers_keeps
    | with_reducible apply State.caddyMismatch_keeps
    | (extract_lets +onlyGivenNames x; first
        | (refine Keeps.cut (s := s) (x := x) (fun hx => ?_) ?_; clear_value x; revert x; intro y hy; rotate_left; unfold x; clear x)
        | (refine Keeps.cut1 (s := s) (x := x) (fun hx => ?_) ?_; clear_value x; revert x; intro y hy; rotate_left; unfold x; clear x)
        | (refine Keeps.cut2 (s := s) (x := x) (fun hx => ?_) ?_; clear_value x; revert x; intro y hy; rotate_left; unfold x; clear x)
        | (revert x; intro y))
    | simp only [Keeps.rest_iff, Keeps.clk_iff]
    | with_reducible apply Keeps.foldl
    | with_reducible apply Keeps.foldl_fst
    | (refine Keeps.of_fst ‹_ = _› ?_)
    | (refine Keeps.of_snd ‹_ = _› ?_)
    | split
    | (intro)

theorem execCaddyCopy_keeps {s u : State} {pkt : Packet} (e : execCaddyCopy pkt s = .next u) : Keeps s u := by
  unfold execCaddyCopy at e
  injection e with e
  subst e
  repeat' first
    | with_reducible exact Keeps.refl _
    | refine State.take_keeps ?_ ‹_›
    | with_reducible apply caddyTake_keeps
    | split

theorem State.caddyAnswered_keeps {s t : State} {step : Nat} {k : Nat} {outcome : Nat} (h : Keeps s t) : Keeps s (State.caddyAnswered t step k outcome) := by
  unfold State.caddyAnswered
  repeat' first
    | with_reducible assumption
    | with_reducible apply State.caddyAwait_keeps
    | split

theorem execCaddyAck_keeps {s u : State} {pkt : Packet} (e : execCaddyAck pkt s = .next u) : Keeps s u := by
  unfold execCaddyAck at e
  injection e with e
  subst e
  repeat' first
    | with_reducible exact Keeps.refl _
    | refine State.take_keeps ?_ ‹_›
    | with_reducible apply State.caddyAnswered_keeps
    | split

theorem execBuddyWaitExpire_keeps {s u : State}  (e : execBuddyWaitExpire s = .next u) : Keeps s u := by
  unfold execBuddyWaitExpire at e
  injection e with e
  subst e
  repeat' first
    | with_reducible exact Keeps.refl _
    | with_reducible apply State.caddyOver_keeps
    | with_reducible apply State.reach_keeps
    | split

theorem State.changeTable_keeps {s t : State} {c : TblChange} (h : Keeps s t) : Keeps s (State.changeTable t c) := by
  unfold State.changeTable
  repeat' first
    | with_reducible assumption
    | with_reducible apply State.gwrite_keeps
    | with_reducible apply Keeps.foldl
    | split
    | (intro)

theorem State.countLost_keeps {s t : State}  (h : Keeps s t) : Keeps s (State.countLost t) := by
  unfold State.countLost
  repeat' first
    | with_reducible assumption
    | with_reducible apply State.fput_keeps

theorem State.listLost_keeps {s t : State} {chip : Nat} (h : Keeps s t) : Keeps s (State.listLost t chip) := by
  unfold State.listLost
  repeat' first
    | with_reducible assumption
    | with_reducible apply State.countLost_keeps
    | with_reducible apply State.fput_keeps
    | split

theorem State.unlistLost_keeps {s t : State} {chip : Nat} (h : Keeps s t) : Keeps s (State.unlistLost t chip) := by
  unfold State.unlistLost
  repeat' first
    | with_reducible assumption
    | with_reducible apply State.countLost_keeps
    | with_reducible apply State.setReg_keeps
    | with_reducible apply Keeps.foldl
    | (intro)

theorem spreadDesc_keeps {s t : State} {d : Started} (h : Keeps s t) : Keeps s (spreadDesc t d) := by
  unfold spreadDesc
  repeat' first
    | with_reducible assumption
    | with_reducible apply State.setDone_keeps
    | with_reducible apply State.changeTable_keeps
    | with_reducible apply State.listLost_keeps
    | with_reducible apply State.unlistLost_keeps
    | with_reducible apply State.bump_keeps
    | (extract_lets +onlyGivenNames x; first
        | (refine Keeps.cut (s := s) (x := x) (fun hx => ?_) ?_; clear_value x; revert x; intro y hy; rotate_left; unfold x; clear x)
        | (revert x; intro y))
    | with_reducible apply Keeps.foldl
    | split

theorem State.spreadRead_keeps {s t : State} {d : Started} (h : Keeps s t) : Keeps s (State.spreadRead t d) := by
  unfold State.spreadRead
  try dsimp -zeta only
  repeat' first
    | with_reducible assumption
    | with_reducible exact Keeps.refl _
    | with_reducible rfl
    | with_reducible apply Keeps.foldChecks
    | with_reducible apply State.poisonCheck_keeps
    | with_reducible apply State.setDone_keeps
    | with_reducible apply spreadDesc_keeps
    | (extract_lets +onlyGivenNames x; first
        | (refine Keeps.cut (s := s) (x := x) (fun hx => ?_) ?_; clear_value x; revert x; intro y hy; rotate_left; unfold x; clear x)
        | (refine Keeps.cut1 (s := s) (x := x) (fun hx => ?_) ?_; clear_value x; revert x; intro y hy; rotate_left; unfold x; clear x)
        | (refine Keeps.cut2 (s := s) (x := x) (fun hx => ?_) ?_; clear_value x; revert x; intro y hy; rotate_left; unfold x; clear x)
        | (revert x; intro y))
    | simp only [Keeps.rest_iff, Keeps.clk_iff]
    | with_reducible apply Keeps.foldl
    | with_reducible apply Keeps.foldl_fst
    | (refine Keeps.of_fst ‹_ = _› ?_)
    | (refine Keeps.of_snd ‹_ = _› ?_)
    | split
    | (intro)

theorem execSpreadApply_keeps {s u : State} {n : Nat} {seq : Nat} {ecc : EccFinds} (e : execSpreadApply n seq ecc s = .next u) : Keeps s u := by
  unfold execSpreadApply at e
  injection e with e
  subst e
  try dsimp -zeta only
  repeat' first
    | with_reducible assumption
    | with_reducible exact Keeps.refl _
    | with_reducible rfl
    | with_reducible apply State.eccAll_keeps
    | with_reducible apply State.spreadRead_keeps
    | (extract_lets +onlyGivenNames x; first
        | (refine Keeps.cut (s := s) (x := x) (fun hx => ?_) ?_; clear_value x; revert x; intro y hy; rotate_left; unfold x; clear x)
        | (refine Keeps.cut1 (s := s) (x := x) (fun hx => ?_) ?_; clear_value x; revert x; intro y hy; rotate_left; unfold x; clear x)
        | (refine Keeps.cut2 (s := s) (x := x) (fun hx => ?_) ?_; clear_value x; revert x; intro y hy; rotate_left; unfold x; clear x)
        | (revert x; intro y))
    | simp only [Keeps.rest_iff, Keeps.clk_iff]
    | with_reducible apply Keeps.foldl
    | with_reducible apply Keeps.foldl_fst
    | (refine Keeps.of_fst ‹_ = _› ?_)
    | (refine Keeps.of_snd ‹_ = _› ?_)
    | split
    | (intro)

theorem State.rebuildWrite_keeps {s t : State} {x : RebuildP} {step : Nat} {q : Nat} {d : List Byte} (h : Keeps s t) : Keeps s (State.rebuildWrite t x step q d) := by
  unfold State.rebuildWrite
  try dsimp -zeta only
  repeat' first
    | with_reducible assumption
    | with_reducible exact Keeps.refl _
    | with_reducible rfl
    | with_reducible apply State.sealSump_keeps
    | with_reducible apply State.writeSump_keeps
    | with_reducible apply State.sumpGuard_keeps
    | (extract_lets +onlyGivenNames x; first
        | (refine Keeps.cut (s := s) (x := x) (fun hx => ?_) ?_; clear_value x; revert x; intro y hy; rotate_left; unfold x; clear x)
        | (refine Keeps.cut1 (s := s) (x := x) (fun hx => ?_) ?_; clear_value x; revert x; intro y hy; rotate_left; unfold x; clear x)
        | (refine Keeps.cut2 (s := s) (x := x) (fun hx => ?_) ?_; clear_value x; revert x; intro y hy; rotate_left; unfold x; clear x)
        | (revert x; intro y))
    | simp only [Keeps.rest_iff, Keeps.clk_iff]
    | with_reducible apply Keeps.foldl
    | with_reducible apply Keeps.foldl_fst
    | (refine Keeps.of_fst ‹_ = _› ?_)
    | (refine Keeps.of_snd ‹_ = _› ?_)
    | split
    | (intro)

theorem State.askPiece_keeps {s t : State} {x : RebuildP} {who : Master} {q : Nat} {chip : Nat} {b : Nat} (h : Keeps s t) : Keeps s (State.askPiece t x who q chip b) := by
  unfold State.askPiece
  try dsimp -zeta only
  repeat' first
    | with_reducible assumption
    | with_reducible exact Keeps.refl _
    | with_reducible rfl
    | with_reducible apply State.askRead_keeps
    | (extract_lets +onlyGivenNames x; first
        | (refine Keeps.cut (s := s) (x := x) (fun hx => ?_) ?_; clear_value x; revert x; intro y hy; rotate_left; unfold x; clear x)
        | (refine Keeps.cut1 (s := s) (x := x) (fun hx => ?_) ?_; clear_value x; revert x; intro y hy; rotate_left; unfold x; clear x)
        | (refine Keeps.cut2 (s := s) (x := x) (fun hx => ?_) ?_; clear_value x; revert x; intro y hy; rotate_left; unfold x; clear x)
        | (revert x; intro y))
    | simp only [Keeps.rest_iff, Keeps.clk_iff]
    | with_reducible apply Keeps.foldl
    | with_reducible apply Keeps.foldl_fst
    | (refine Keeps.of_fst ‹_ = _› ?_)
    | (refine Keeps.of_snd ‹_ = _› ?_)
    | split
    | (intro)

theorem State.askStripe_keeps {s t : State} {x : RebuildP} {who : Master} {sets : List (Option Nat)} {ps : List PieceRead} {q : Nat} (h : Keeps s t) : Keeps s (State.askStripe t x who sets ps q) := by
  unfold State.askStripe
  try dsimp -zeta only
  repeat' first
    | with_reducible assumption
    | with_reducible exact Keeps.refl _
    | with_reducible rfl
    | with_reducible apply State.askPiece_keeps
    | (extract_lets +onlyGivenNames x; first
        | (refine Keeps.cut (s := s) (x := x) (fun hx => ?_) ?_; clear_value x; revert x; intro y hy; rotate_left; unfold x; clear x)
        | (refine Keeps.cut1 (s := s) (x := x) (fun hx => ?_) ?_; clear_value x; revert x; intro y hy; rotate_left; unfold x; clear x)
        | (refine Keeps.cut2 (s := s) (x := x) (fun hx => ?_) ?_; clear_value x; revert x; intro y hy; rotate_left; unfold x; clear x)
        | (revert x; intro y))
    | simp only [Keeps.rest_iff, Keeps.clk_iff]
    | with_reducible apply Keeps.foldl
    | with_reducible apply Keeps.foldl_fst
    | (refine Keeps.of_fst ‹_ = _› ?_)
    | (refine Keeps.of_snd ‹_ = _› ?_)
    | split
    | (intro)

theorem rebuildAll_keeps {s t : State} {x : RebuildP} {who : Master} {step : Nat} {sets : List (Option Nat)} {ps : List PieceRead} {n : Nat} {x7 : List Nat} (h : Keeps s t) : Keeps s (rebuildAll x who step sets ps t n x7).1 := by
  induction x7 generalizing t n with
  | nil =>
    unfold rebuildAll
    try dsimp -zeta only
    repeat' first
      | apply ih
      | with_reducible assumption
      | with_reducible exact Keeps.refl _
      | with_reducible rfl
      | with_reducible apply State.askStripe_keeps
      | with_reducible apply State.bump_keeps
      | with_reducible apply State.rebuildWrite_keeps
      | (extract_lets +onlyGivenNames x; first
          | (refine Keeps.cut (s := s) (x := x) (fun hx => ?_) ?_; clear_value x; revert x; intro y hy; rotate_left; unfold x; clear x)
          | (refine Keeps.cut1 (s := s) (x := x) (fun hx => ?_) ?_; clear_value x; revert x; intro y hy; rotate_left; unfold x; clear x)
          | (refine Keeps.cut2 (s := s) (x := x) (fun hx => ?_) ?_; clear_value x; revert x; intro y hy; rotate_left; unfold x; clear x)
          | (revert x; intro y))
      | simp only [Keeps.rest_iff, Keeps.clk_iff]
      | with_reducible apply Keeps.foldl
      | with_reducible apply Keeps.foldl_fst
      | (refine Keeps.of_fst ‹_ = _› ?_)
      | (refine Keeps.of_snd ‹_ = _› ?_)
      | split
      | (intro)
  
  | cons a l ih =>
    unfold rebuildAll
    try dsimp -zeta only
    repeat' first
      | apply ih
      | with_reducible assumption
      | with_reducible exact Keeps.refl _
      | with_reducible rfl
      | with_reducible apply State.askStripe_keeps
      | with_reducible apply State.bump_keeps
      | with_reducible apply State.rebuildWrite_keeps
      | (extract_lets +onlyGivenNames x; first
          | (refine Keeps.cut (s := s) (x := x) (fun hx => ?_) ?_; clear_value x; revert x; intro y hy; rotate_left; unfold x; clear x)
          | (refine Keeps.cut1 (s := s) (x := x) (fun hx => ?_) ?_; clear_value x; revert x; intro y hy; rotate_left; unfold x; clear x)
          | (refine Keeps.cut2 (s := s) (x := x) (fun hx => ?_) ?_; clear_value x; revert x; intro y hy; rotate_left; unfold x; clear x)
          | (revert x; intro y))
      | simp only [Keeps.rest_iff, Keeps.clk_iff]
      | with_reducible apply Keeps.foldl
      | with_reducible apply Keeps.foldl_fst
      | (refine Keeps.of_fst ‹_ = _› ?_)
      | (refine Keeps.of_snd ‹_ = _› ?_)
      | split
      | (intro)
  

theorem State.rebuildLoose_keeps {s t : State} {x : RebuildP} {q : Nat} (h : Keeps s t) : Keeps s (State.rebuildLoose t x q) := by
  unfold State.rebuildLoose
  try dsimp -zeta only
  repeat' first
    | with_reducible assumption
    | with_reducible exact Keeps.refl _
    | with_reducible rfl
    | with_reducible apply State.looseAt_keeps
    | (extract_lets +onlyGivenNames x; first
        | (refine Keeps.cut (s := s) (x := x) (fun hx => ?_) ?_; clear_value x; revert x; intro y hy; rotate_left; unfold x; clear x)
        | (refine Keeps.cut1 (s := s) (x := x) (fun hx => ?_) ?_; clear_value x; revert x; intro y hy; rotate_left; unfold x; clear x)
        | (refine Keeps.cut2 (s := s) (x := x) (fun hx => ?_) ?_; clear_value x; revert x; intro y hy; rotate_left; unfold x; clear x)
        | (revert x; intro y))
    | simp only [Keeps.rest_iff, Keeps.clk_iff]
    | with_reducible apply Keeps.foldl
    | with_reducible apply Keeps.foldl_fst
    | (refine Keeps.of_fst ‹_ = _› ?_)
    | (refine Keeps.of_snd ‹_ = _› ?_)
    | split
    | (intro)

theorem rebuildDesc_keeps {s t : State} {d : Started} {views : List (Option HolderView)} {ps : List PieceRead} (h : Keeps s t) : Keeps s (rebuildDesc t d views ps) := by
  unfold rebuildDesc
  try dsimp -zeta only
  repeat' first
    | with_reducible assumption
    | with_reducible exact Keeps.refl _
    | with_reducible rfl
    | with_reducible apply State.setDone_keeps
    | with_reducible apply rebuildAll_keeps
    | with_reducible apply State.report_keeps
    | with_reducible apply State.rebuildLoose_keeps
    | (extract_lets +onlyGivenNames x; first
        | (refine Keeps.cut (s := s) (x := x) (fun hx => ?_) ?_; clear_value x; revert x; intro y hy; rotate_left; unfold x; clear x)
        | (refine Keeps.cut1 (s := s) (x := x) (fun hx => ?_) ?_; clear_value x; revert x; intro y hy; rotate_left; unfold x; clear x)
        | (refine Keeps.cut2 (s := s) (x := x) (fun hx => ?_) ?_; clear_value x; revert x; intro y hy; rotate_left; unfold x; clear x)
        | (revert x; intro y))
    | simp only [Keeps.rest_iff, Keeps.clk_iff]
    | with_reducible apply Keeps.foldl
    | with_reducible apply Keeps.foldl_fst
    | (refine Keeps.of_fst ‹_ = _› ?_)
    | (refine Keeps.of_snd ‹_ = _› ?_)
    | split
    | (intro)

theorem execRebuild_keeps {s u : State} {n : Nat} {seq : Nat} {views : List (Option HolderView)} {pieces : List PieceRead} {ecc : EccFinds} (e : execRebuild n seq views pieces ecc s = .next u) : Keeps s u := by
  unfold execRebuild at e
  injection e with e
  subst e
  try dsimp -zeta only
  repeat' first
    | with_reducible assumption
    | with_reducible exact Keeps.refl _
    | with_reducible rfl
    | with_reducible apply State.eccAll_keeps
    | with_reducible apply rebuildDesc_keeps
    | (extract_lets +onlyGivenNames x; first
        | (refine Keeps.cut (s := s) (x := x) (fun hx => ?_) ?_; clear_value x; revert x; intro y hy; rotate_left; unfold x; clear x)
        | (refine Keeps.cut1 (s := s) (x := x) (fun hx => ?_) ?_; clear_value x; revert x; intro y hy; rotate_left; unfold x; clear x)
        | (refine Keeps.cut2 (s := s) (x := x) (fun hx => ?_) ?_; clear_value x; revert x; intro y hy; rotate_left; unfold x; clear x)
        | (revert x; intro y))
    | simp only [Keeps.rest_iff, Keeps.clk_iff]
    | with_reducible apply Keeps.foldl
    | with_reducible apply Keeps.foldl_fst
    | (refine Keeps.of_fst ‹_ = _› ?_)
    | (refine Keeps.of_snd ‹_ = _› ?_)
    | split
    | (intro)

end Sys2Proof.Machine
end

