-- ==== Sys2Proof/Laws/KeepsObserve.lean ====
section
/-!
SUPPORT. What the operations of Machine/Observe.lean keep (Safety.lean).
-/
namespace Sys2Proof.Machine

open Sys2Proof

theorem State.putRW_keeps {s t : State} {off : Nat} {v : Word} (h : Keeps s t) : Keeps s (State.putRW t off v) := by
  unfold State.putRW
  repeat' first
    | with_reducible assumption
    | with_reducible apply State.setReg_keeps
    | split

theorem State.zeroCounter_keeps {s t : State} {d : Nat} {n : Nat} (h : Keeps s t) : Keeps s (State.zeroCounter t d n) := by
  unfold State.zeroCounter
  repeat' first
    | with_reducible assumption
    | with_reducible rfl
    | simp only [Keeps.rest_iff, Keeps.clk_iff]

theorem evtSelWrite_keeps {s t : State} {mgmt : Bool} {d : Nat} {n : Nat} {v : Word} (h : Keeps s t) : Keeps s (evtSelWrite t mgmt d n v) := by
  unfold evtSelWrite
  repeat' first
    | with_reducible assumption
    | with_reducible apply State.zeroCounter_keeps
    | with_reducible apply State.putRW_keeps
    | with_reducible apply State.rejected_keeps
    | split

theorem execEvtSelWrite_keeps {s u : State} {who : Master} {d : Nat} {n : Nat} {value : Word} (e : execEvtSelWrite who d n value s = .next u) : Keeps s u := by
  unfold execEvtSelWrite at e
  injection e with e
  subst e
  repeat' first
    | with_reducible exact Keeps.refl _
    | with_reducible apply evtSelWrite_keeps

theorem filterWrite_keeps {s t : State} {mgmt : Bool} {d : Nat} {n : Nat} {v : Word} (h : Keeps s t) : Keeps s (filterWrite t mgmt d n v) := by
  unfold filterWrite
  repeat' first
    | with_reducible assumption
    | with_reducible apply State.zeroCounter_keeps
    | with_reducible apply State.putRW_keeps
    | with_reducible apply State.rejected_keeps
    | split

theorem execFilterWrite_keeps {s u : State} {who : Master} {d : Nat} {n : Nat} {value : Word} (e : execFilterWrite who d n value s = .next u) : Keeps s u := by
  unfold execFilterWrite at e
  injection e with e
  subst e
  repeat' first
    | with_reducible exact Keeps.refl _
    | with_reducible apply filterWrite_keeps

theorem State.whistle_keeps {s t : State} {off : Nat} {value : Nat} {at_ : Nat} {action : Nat} (h : Keeps s t) : Keeps s (State.whistle t off value at_ action) := by
  unfold State.whistle
  repeat' first
    | with_reducible assumption
    | with_reducible apply State.rejected_keeps
    | with_reducible apply State.armWhistle_keeps
    | split

theorem whistleWrite_keeps {s t : State} {mgmt : Bool} {v : Word} (h : Keeps s t) : Keeps s (whistleWrite t mgmt v) := by
  unfold whistleWrite
  repeat' first
    | with_reducible assumption
    | with_reducible apply State.whistle_keeps
    | with_reducible apply State.rejected_keeps
    | split

theorem execWhistleWrite_keeps {s u : State} {who : Master} {value : Word} (e : execWhistleWrite who value s = .next u) : Keeps s u := by
  unfold execWhistleWrite at e
  injection e with e
  subst e
  repeat' first
    | with_reducible exact Keeps.refl _
    | with_reducible apply whistleWrite_keeps

theorem whistleSend_keeps {s t : State} {mgmt : Bool} {v : Word} (h : Keeps s t) : Keeps s (whistleSend t mgmt v) := by
  unfold whistleSend
  repeat' first
    | with_reducible assumption
    | with_reducible apply State.send_keeps
    | with_reducible apply State.rejected_keeps
    | simp only [Keeps.rest_iff, Keeps.clk_iff]
    | split

theorem execWhistleSend_keeps {s u : State} {who : Master} {value : Word} (e : execWhistleSend who value s = .next u) : Keeps s u := by
  unfold execWhistleSend at e
  injection e with e
  subst e
  repeat' first
    | with_reducible exact Keeps.refl _
    | with_reducible apply whistleSend_keeps

theorem State.hear_keeps {s t : State} {src : Nat} {id : Nat} (h : Keeps s t) : Keeps s (State.hear t src id) := by
  unfold State.hear
  try dsimp -zeta only
  repeat' first
    | with_reducible assumption
    | with_reducible exact Keeps.refl _
    | with_reducible rfl
    | simp only [id_eq]
    | (extract_lets +onlyGivenNames x; first
        | (refine Keeps.cut (s := s) (x := x) (fun hx => ?_) ?_; clear_value x; revert x; intro y hy; rotate_left; unfold x; clear x)
        | (refine Keeps.cut1 (s := s) (x := x) (fun hx => ?_) ?_; clear_value x; revert x; intro y hy; rotate_left; unfold x; clear x)
        | (refine Keeps.cut2 (s := s) (x := x) (fun hx => ?_) ?_; clear_value x; revert x; intro y hy; rotate_left; unfold x; clear x)
        | (revert x; intro y))
    | simp only [Keeps.rest_iff, Keeps.clk_iff]
    | with_reducible apply Keeps.foldl
    | with_reducible apply Keeps.foldl_fst
    | (refine Keeps.of_fst ‹_ = _› ?_)
    | (refine Keeps.of_snd ‹_ = _› ?_)
    | split
    | (intro)

theorem whistleTake_keeps {s t : State} {k : Packet} (h : Keeps s t) : Keeps s (whistleTake t k) := by
  unfold whistleTake
  repeat' first
    | with_reducible assumption
    | with_reducible apply State.bump_keeps
    | with_reducible apply State.whistle_keeps
    | with_reducible apply State.hear_keeps
    | split

theorem execWhistlePacket_keeps {s u : State} {pkt : Packet} (e : execWhistlePacket pkt s = .next u) : Keeps s u := by
  unfold execWhistlePacket at e
  injection e with e
  subst e
  repeat' first
    | with_reducible exact Keeps.refl _
    | refine State.take_keeps ?_ ‹_›
    | with_reducible apply whistleTake_keeps
    | split

theorem execDbgTrigInEdge_keeps {s u : State}  (e : execDbgTrigInEdge s = .next u) : Keeps s u := by
  unfold execDbgTrigInEdge at e
  injection e with e
  subst e
  repeat' first
    | with_reducible assumption
    | with_reducible exact Keeps.refl _
    | with_reducible apply State.whistle_keeps
    | with_reducible apply State.traceTrigger_keeps
    | (extract_lets +onlyGivenNames x; first
        | (refine Keeps.cut (s := s) (x := x) (fun hx => ?_) ?_; clear_value x; revert x; intro y hy; rotate_left; unfold x; clear x)
        | (revert x; intro y))
    | with_reducible apply Keeps.foldl
    | split

theorem State.capture_keeps {s t : State} {action : Nat} (h : Keeps s t) : Keeps s (State.capture t action) := by
  unfold State.capture
  repeat' first
    | with_reducible assumption
    | with_reducible apply State.setReg_keeps
    | with_reducible apply State.fput_keeps
    | with_reducible apply State.count_keeps
    | with_reducible apply State.drew_keeps
    | with_reducible apply Keeps.foldl
    | (intro)

theorem State.whistleActs_keeps {s t : State} {a : Nat} (h : Keeps s t) : Keeps s (State.whistleActs t a) := by
  unfold State.whistleActs
  repeat' first
    | with_reducible assumption
    | with_reducible apply State.capture_keeps
    | with_reducible apply State.fput_keeps
    | with_reducible apply State.emit_keeps
    | simp only [Keeps.rest_iff, Keeps.clk_iff]
    | split

theorem whistleFire_keeps {s t : State} {v : Nat} (h : Keeps s t) : Keeps s (whistleFire t v) := by
  unfold whistleFire
  repeat' first
    | with_reducible assumption
    | with_reducible apply State.reachNs_keeps
    | with_reducible apply State.whistleActs_keeps
    | with_reducible apply State.fput_keeps
    | simp only [Keeps.rest_iff, Keeps.clk_iff]

theorem execWhistleFire_keeps {s u : State}  (e : execWhistleFire s = .next u) : Keeps s u := by
  unfold execWhistleFire at e
  injection e with e
  subst e
  repeat' first
    | with_reducible exact Keeps.refl _
    | with_reducible apply whistleFire_keeps
    | split

theorem dumpDesc_keeps {s t : State} {d : Started} (h : Keeps s t) : Keeps s (dumpDesc t d) := by
  unfold dumpDesc
  repeat' first
    | with_reducible assumption
    | with_reducible apply State.setDone_keeps
    | with_reducible apply State.gwrite_keeps
    | split

theorem execCounterDump_keeps {s u : State} {n : Nat} {seq : Nat} (e : execCounterDump n seq s = .next u) : Keeps s u := by
  unfold execCounterDump at e
  injection e with e
  subst e
  repeat' first
    | with_reducible exact Keeps.refl _
    | with_reducible apply dumpDesc_keeps
    | split

theorem State.traceRun_keeps {s t : State} {b : Nat} {x2 : Nat} (h : Keeps s t) : Keeps s (State.traceRun t b x2) := by
  induction x2 generalizing t with
  | zero =>
    unfold State.traceRun
    repeat' first
      | with_reducible assumption
      | with_reducible apply State.drew_keeps
  
  | succ n ih =>
    unfold State.traceRun
    repeat' first
      | apply ih
      | with_reducible assumption
      | with_reducible apply State.tracePut_keeps
      | with_reducible apply State.drew_keeps

theorem execTracePostStop_keeps {s u : State} {b : Nat} (e : execTracePostStop b s = .next u) : Keeps s u := by
  unfold execTracePostStop at e
  injection e with e
  subst e
  repeat' first
    | with_reducible exact Keeps.refl _
    | with_reducible apply State.traceRun_keeps
    | split

theorem traceCfgWrite_keeps {s t : State} {base : Bool} {v : Word} (h : Keeps s t) : Keeps s (traceCfgWrite t base v) := by
  unfold traceCfgWrite
  repeat' first
    | with_reducible assumption
    | with_reducible apply State.putRW_keeps
    | simp only [Keeps.rest_iff, Keeps.clk_iff]

theorem execTraceCfgWrite_keeps {s u : State} {base : Bool} {value : Word} (e : execTraceCfgWrite base value s = .next u) : Keeps s u := by
  unfold execTraceCfgWrite at e
  injection e with e
  subst e
  repeat' first
    | with_reducible exact Keeps.refl _
    | with_reducible apply traceCfgWrite_keeps

theorem State.setIr_keeps {s t : State} {x1 : Nat} {op : Nat} (h : Keeps s t) : Keeps s (State.setIr t x1 op) := by
  unfold State.setIr
  repeat' first
    | with_reducible assumption
    | with_reducible rfl
    | simp only [Keeps.rest_iff, Keeps.clk_iff]

theorem State.bypass_keeps {s t : State} {x1 : Nat} {op : Nat} (h : Keeps s t) : Keeps s (State.bypass t x1 op) := by
  unfold State.bypass
  repeat' first
    | with_reducible assumption
    | with_reducible apply State.emit_keeps
    | with_reducible apply State.setIr_keeps

theorem execJtagBypass_keeps {s u : State} {x0 : Nat} (e : execJtagBypass x0 s = .next u) : Keeps s u := by
  unfold execJtagBypass at e
  injection e with e
  subst e
  repeat' first
    | with_reducible exact Keeps.refl _
    | with_reducible apply State.bypass_keeps
    | split

theorem execJtagIdcode_keeps {s u : State} {x0 : Nat} (e : execJtagIdcode x0 s = .next u) : Keeps s u := by
  unfold execJtagIdcode at e
  injection e with e
  subst e
  repeat' first
    | with_reducible exact Keeps.refl _
    | with_reducible apply State.emit_keeps
    | with_reducible apply State.setIr_keeps
    | split

theorem execJtagSamplePreload_keeps {s u : State} {x0 : Nat} {pads : Nat} {shifted : Nat} (e : execJtagSamplePreload x0 pads shifted s = .next u) : Keeps s u := by
  unfold execJtagSamplePreload at e
  injection e with e
  subst e
  repeat' first
    | with_reducible exact Keeps.refl _
    | with_reducible apply State.setIr_keeps
    | with_reducible apply State.emit_keeps
    | simp only [Keeps.rest_iff, Keeps.clk_iff]
    | split

theorem execJtagExtest_keeps {s u : State} {x0 : Nat} {pads : Nat} {shifted : Nat} (e : execJtagExtest x0 pads shifted s = .next u) : Keeps s u := by
  unfold execJtagExtest at e
  injection e with e
  subst e
  repeat' first
    | with_reducible exact Keeps.refl _
    | with_reducible apply State.setIr_keeps
    | with_reducible apply State.emit_keeps
    | simp only [Keeps.rest_iff, Keeps.clk_iff]
    | split

theorem execJtagIjtag_keeps {s u : State} {x0 : Nat} {bits : Nat} {held : Bool} (e : execJtagIjtag x0 bits held s = .next u) : Keeps s u := by
  unfold execJtagIjtag at e
  injection e with e
  subst e
  repeat' first
    | with_reducible exact Keeps.refl _
    | with_reducible apply State.bypass_keeps
    | with_reducible apply State.setIr_keeps
    | with_reducible apply State.emit_keeps
    | with_reducible apply State.drew_keeps
    | simp only [Keeps.rest_iff, Keeps.clk_iff]
    | split

theorem State.kTrace_keeps {s t : State} {x1 : Nat} (h : Keeps s t) : Keeps s (State.kTrace t x1) := by
  unfold State.kTrace
  repeat' first
    | with_reducible assumption
    | with_reducible apply State.drew_keeps
    | simp only [Keeps.rest_iff, Keeps.clk_iff]
    | split

theorem execJtagKtrace_keeps {s u : State} {x0 : Nat} (e : execJtagKtrace x0 s = .next u) : Keeps s u := by
  unfold execJtagKtrace at e
  injection e with e
  subst e
  repeat' first
    | with_reducible exact Keeps.refl _
    | with_reducible apply State.bypass_keeps
    | with_reducible apply State.kTrace_keeps
    | with_reducible apply State.setIr_keeps
    | with_reducible apply State.emit_keeps
    | simp only [Keeps.rest_iff, Keeps.clk_iff]
    | split

theorem execJtagKeyprog_keeps {s u : State} {x0 : Nat} {key : List Byte} (e : execJtagKeyprog x0 key s = .next u) : Keeps s u := by
  unfold execJtagKeyprog at e
  injection e with e
  subst e
  repeat' first
    | with_reducible exact Keeps.refl _
    | with_reducible apply State.bypass_keeps
    | with_reducible apply State.setIr_keeps
    | simp only [Keeps.rest_iff, Keeps.clk_iff]
    | split

theorem execTrstAssert_keeps {s u : State}  (e : execTrstAssert s = .next u) : Keeps s u := by
  unfold execTrstAssert at e
  injection e with e
  subst e
  repeat' first
    | with_reducible exact Keeps.refl _
    | with_reducible rfl
    | simp only [Keeps.rest_iff, Keeps.clk_iff]

end Sys2Proof.Machine
end

