-- ==== Sys2Proof/Laws/KeepsTime.lean ====
section
/-!
SUPPORT. What the operations of Machine/Time.lean keep (Safety.lean).
-/
namespace Sys2Proof.Machine

open Sys2Proof

theorem State.broadcast_keeps {s t : State} {c : TimeChange} (h : Keeps s t) : Keeps s (State.broadcast t c) := by
  unfold State.broadcast
  repeat' first
    | exact Keeps.clk rfl ‹_›
    | exact Keeps.clk rfl (Keeps.refl _)

theorem Clock.apply_now {c : Clock} {x : TimeChange} : (c.apply x).now = c.now := by
  cases x <;> rfl

theorem execTimeParamApply_keeps {s u : State} (e : execTimeParamApply s = .next u) : Keeps s u := by
  unfold execTimeParamApply at e
  injection e with e
  subst e
  split
  · exact Keeps.refl _
  · exact Keeps.clk Clock.apply_now (State.reach_keeps (Keeps.refl _))

theorem rateWrite_keeps {s t : State} {allowed : Bool} {value : Word} (h : Keeps s t) : Keeps s (rateWrite t allowed value) := by
  unfold rateWrite
  repeat' first
    | with_reducible assumption
    | with_reducible apply State.broadcast_keeps
    | with_reducible apply State.rejected_keeps
    | split

theorem execRateWrite_keeps {s u : State} {allowed : Bool} {value : Word} (e : execRateWrite allowed value s = .next u) : Keeps s u := by
  unfold execRateWrite at e
  injection e with e
  subst e
  repeat' first
    | with_reducible exact Keeps.refl _
    | with_reducible apply rateWrite_keeps

theorem adjWrite_keeps {s t : State} {allowed : Bool} {value : Word} (h : Keeps s t) : Keeps s (adjWrite t allowed value) := by
  unfold adjWrite
  repeat' first
    | with_reducible assumption
    | with_reducible apply State.broadcast_keeps
    | with_reducible apply State.rejected_keeps
    | split

theorem execAdjWrite_keeps {s u : State} {allowed : Bool} {value : Word} (e : execAdjWrite allowed value s = .next u) : Keeps s u := by
  unfold execAdjWrite at e
  injection e with e
  subst e
  repeat' first
    | with_reducible exact Keeps.refl _
    | with_reducible apply adjWrite_keeps

theorem execSlewEnd_keeps {s u : State}  (e : execSlewEnd s = .next u) : Keeps s u := by
  unfold execSlewEnd at e
  injection e with e
  subst e
  repeat' first
    | with_reducible exact Keeps.refl _
    | exact Keeps.clk rfl ‹_›
    | with_reducible apply State.reach_keeps
    | (extract_lets +onlyGivenNames x; first
        | (refine Keeps.cut (s := s) (x := x) (fun hx => ?_) ?_; clear_value x; revert x; intro y hy; rotate_left; unfold x; clear x))
    | split

theorem announce_keeps {s t : State} {gm : Nat} {ivl : Nat} {best : Bool} (h : Keeps s t) : Keeps s (announce t gm ivl best) := by
  unfold announce
  repeat' first
    | exact Keeps.clk rfl ‹_›
    | with_reducible apply State.setTime_keeps
    | (extract_lets +onlyGivenNames x; first
        | (revert x; intro y))
    | split

theorem exchange_keeps {s t : State} {d : Int} (h : Keeps s t) : Keeps s (exchange t d) := by
  unfold exchange
  try dsimp -zeta only
  repeat' first
    | with_reducible assumption
    | with_reducible exact Keeps.refl _
    | with_reducible rfl
    | exact Keeps.clk rfl ‹_›
    | exact Keeps.clk rfl (Keeps.refl _)
    | with_reducible apply State.fput_keeps
    | with_reducible apply State.advance_keeps
    | with_reducible apply State.setTime_keeps
    | (extract_lets +onlyGivenNames x; first
        | (refine Keeps.cut (s := s) (x := x) (fun hx => ?_) ?_; clear_value x; revert x; intro y hy; rotate_left; unfold x; clear x)
        | (refine Keeps.cut1 (s := s) (x := x) (fun hx => ?_) ?_; clear_value x; revert x; intro y hy; rotate_left; unfold x; clear x)
        | (refine Keeps.cut2 (s := s) (x := x) (fun hx => ?_) ?_; clear_value x; revert x; intro y hy; rotate_left; unfold x; clear x)
        | (revert x; intro y))
    | simp only [Keeps.rest_iff, Keeps.clk_iff]
    | with_reducible apply Keeps.foldl
    | with_reducible apply Keeps.foldl_fst
    | (refine Keeps.of_fst ‹_ = _› ?_)
    | (refine Keeps.of_snd ‹_ = _› ?_)
    | split
    | (intro)

theorem execPtpMessage_keeps {s u : State} {msg : PtpMsg} (e : execPtpMessage msg s = .next u) : Keeps s u := by
  unfold execPtpMessage at e
  injection e with e
  subst e
  repeat' first
    | with_reducible exact Keeps.refl _
    | with_reducible apply announce_keeps
    | with_reducible apply exchange_keeps
    | split

theorem execAnnounceTimeout_keeps {s u : State}  (e : execAnnounceTimeout s = .next u) : Keeps s u := by
  unfold execAnnounceTimeout at e
  injection e with e
  subst e
  repeat' first
    | with_reducible exact Keeps.refl _
    | with_reducible apply State.setTime_keeps
    | with_reducible apply State.reach_keeps
    | split

theorem execSyncInEdge_keeps {s u : State}  (e : execSyncInEdge s = .next u) : Keeps s u := by
  unfold execSyncInEdge at e
  injection e with e
  subst e
  repeat' first
    | with_reducible exact Keeps.refl _
    | with_reducible apply State.setReg_keeps
    | with_reducible apply State.event_keeps
    | with_reducible apply State.putBit_keeps
    | split

theorem execRefclkLost_keeps {s u : State}  (e : execRefclkLost s = .next u) : Keeps s u := by
  unfold execRefclkLost at e
  injection e with e
  subst e
  repeat' first
    | exact Keeps.clk rfl (Keeps.refl _)
    | with_reducible apply State.setTime_keeps
    | with_reducible apply State.putBit_keeps

theorem execRefclkReturn_keeps {s u : State}  (e : execRefclkReturn s = .next u) : Keeps s u := by
  unfold execRefclkReturn at e
  injection e with e
  subst e
  repeat' first
    | exact Keeps.clk rfl (Keeps.refl _)
    | split

theorem execRefclkSwitchback_keeps {s u : State} {sync : Bool} (e : execRefclkSwitchback sync s = .next u) : Keeps s u := by
  unfold execRefclkSwitchback at e
  injection e with e
  subst e
  repeat' first
    | with_reducible exact Keeps.refl _
    | with_reducible apply State.reach_keeps
    | with_reducible apply State.putBit_keeps
    | simp only [Keeps.rest_iff, Keeps.clk_iff]
    | split

end Sys2Proof.Machine
end

