-- ==== Sys2Proof/Laws/KeepsReceive.lean ====
section
/-!
SUPPORT. What the operations of Machine/Receive.lean keep (Safety.lean).
-/
namespace Sys2Proof.Machine

open Sys2Proof

theorem State.refuse_keeps {s t : State} {r : Nat} {k : Packet} {err : Nat} (h : Keeps s t) : Keeps s (State.refuse t r k err) := by
  unfold State.refuse
  repeat' first
    | with_reducible assumption
    | with_reducible apply State.send_keeps

theorem State.writeRequest_keeps {s t : State} {r : Nat} {k : Packet} (h : Keeps s t) : Keeps s (State.writeRequest t r k) := by
  unfold State.writeRequest
  repeat' first
    | with_reducible assumption
    | with_reducible apply State.serveWrite_keeps
    | with_reducible apply State.refuse_keeps
    | with_reducible apply State.send_keeps
    | (extract_lets +onlyGivenNames x; first
        | (revert x; intro y))
    | split

theorem State.takeRead_keeps {s t u : State} {tag : Nat} {x : RemRead} (h : Keeps s t) (e : State.takeRead t tag = some (x, u)) : Keeps s u := by
  unfold State.takeRead at e
  split at e
  · injection e with e
    injection e with e1 e2
    subst e2
    exact ⟨h.queue, h.clock, h.free, h.out, h.canon⟩
  · contradiction

theorem State.readAnswered_keeps {s t : State} {k : Packet} (h : Keeps s t) : Keeps s (State.readAnswered t k) := by
  unfold State.readAnswered
  try dsimp -zeta only
  repeat' first
    | with_reducible assumption
    | with_reducible exact Keeps.refl _
    | with_reducible rfl
    | refine State.takeRead_keeps ?_ ‹_›
    | refine State.takeRead_keeps ?_ (ite_some ‹_›)
    | with_reducible apply State.replyRead_keeps
    | with_reducible apply State.dropStale_keeps
    | (extract_lets +onlyGivenNames x; first
        | (refine Keeps.cut (s := s) (x := x) (fun hx => ?_) ?_; clear_value x; revert x; intro y hy; rotate_left; unfold x; clear x)
        | (refine Keeps.cut1 (s := s) (x := x) (fun hx => ?_) ?_; clear_value x; revert x; intro y hy; rotate_left; unfold x; clear x)
        | (refine Keeps.cut2 (s := s) (x := x) (fun hx => ?_) ?_; clear_value x; revert x; intro y hy; rotate_left; unfold x; clear x)
        | (revert x; intro y))
    | simp only [Keeps.rest_iff, Keeps.clk_iff]
    | with_reducible apply Keeps.foldl
    | with_reducible apply Keeps.foldl_fst
    | (refine Keeps.of_fst ‹_ = _› ?_)
    | (refine Keeps.of_snd ‹_ = _› ?_)
    | split
    | (intro)

theorem State.sealWhole_keeps {s t : State} {k : Packet} {ps : List (Nat × Nat)} (h : Keeps s t) : Keeps s (State.sealWhole t k ps) := by
  unfold State.sealWhole
  try dsimp -zeta only
  repeat' first
    | with_reducible assumption
    | with_reducible exact Keeps.refl _
    | with_reducible rfl
    | with_reducible apply State.sealPage_keeps
    | (extract_lets +onlyGivenNames x; first
        | (refine Keeps.cut (s := s) (x := x) (fun hx => ?_) ?_; clear_value x; revert x; intro y hy; rotate_left; unfold x; clear x)
        | (refine Keeps.cut1 (s := s) (x := x) (fun hx => ?_) ?_; clear_value x; revert x; intro y hy; rotate_left; unfold x; clear x)
        | (refine Keeps.cut2 (s := s) (x := x) (fun hx => ?_) ?_; clear_value x; revert x; intro y hy; rotate_left; unfold x; clear x)
        | (revert x; intro y))
    | simp only [Keeps.rest_iff, Keeps.clk_iff]
    | with_reducible apply Keeps.foldl
    | with_reducible apply Keeps.foldl_fst
    | (refine Keeps.of_fst ‹_ = _› ?_)
    | (refine Keeps.of_snd ‹_ = _› ?_)
    | split
    | (intro)

theorem State.rowWrite_keeps {s t : State} {r : Nat} {k : Packet} (h : Keeps s t) : Keeps s (State.rowWrite t r k) := by
  unfold State.rowWrite
  try dsimp -zeta only
  repeat' first
    | with_reducible assumption
    | with_reducible exact Keeps.refl _
    | with_reducible rfl
    | with_reducible apply State.sealWhole_keeps
    | with_reducible apply State.awareWrites_keeps
    | (extract_lets +onlyGivenNames x; first
        | (refine Keeps.cut (s := s) (x := x) (fun hx => ?_) ?_; clear_value x; revert x; intro y hy; rotate_left; unfold x; clear x)
        | (refine Keeps.cut1 (s := s) (x := x) (fun hx => ?_) ?_; clear_value x; revert x; intro y hy; rotate_left; unfold x; clear x)
        | (refine Keeps.cut2 (s := s) (x := x) (fun hx => ?_) ?_; clear_value x; revert x; intro y hy; rotate_left; unfold x; clear x)
        | (revert x; intro y))
    | simp only [Keeps.rest_iff, Keeps.clk_iff]
    | with_reducible apply Keeps.foldl
    | with_reducible apply Keeps.foldl_fst
    | (refine Keeps.of_fst ‹_ = _› ?_)
    | (refine Keeps.of_snd ‹_ = _› ?_)
    | split
    | (intro)

theorem State.servePacket_keeps {s t : State} {r : Nat} {k : Packet} (h : Keeps s t) : Keeps s (State.servePacket t r k) := by
  unfold State.servePacket
  repeat' first
    | with_reducible assumption
    | with_reducible apply State.serveRead_keeps
    | with_reducible apply State.serveWrite_keeps
    | with_reducible apply State.writeRequest_keeps
    | with_reducible apply State.rowWrite_keeps
    | with_reducible apply State.readAnswered_keeps
    | split

theorem State.ingress_keeps {s t : State} {r : Nat} {q : Nat} {k : Packet} (h : Keeps s t) : Keeps s (State.ingress t r q k) := by
  unfold State.ingress
  repeat' first
    | with_reducible assumption
    | with_reducible apply State.servePacket_keeps
    | with_reducible apply State.deliver_keeps
    | with_reducible apply State.discardPacket_keeps
    | with_reducible apply State.forward_keeps
    | split

theorem execPacketReceive_keeps {s u : State} {r : Nat} {p : Option Nat} {pkt : Packet} {ecc : EccFinds} (e : execPacketReceive r p pkt ecc s = .next u) : Keeps s u := by
  unfold execPacketReceive at e
  injection e with e
  subst e
  try dsimp -zeta only
  repeat' first
    | with_reducible assumption
    | with_reducible exact Keeps.refl _
    | with_reducible rfl
    | with_reducible apply State.eccAll_keeps
    | refine State.takeInbox_keeps ?_ ‹_›
    | refine State.takeInbox_keeps ?_ (ite_some ‹_›)
    | with_reducible apply State.clearMgmt_keeps
    | with_reducible apply State.ingress_keeps
    | refine State.take_keeps ?_ ‹_›
    | refine State.take_keeps ?_ (ite_some ‹_›)
    | with_reducible apply State.servePacket_keeps
    | (extract_lets +onlyGivenNames x; first
        | (refine Keeps.cut (s := s) (x := x) (fun hx => ?_) ?_; clear_value x; revert x; intro y hy; rotate_left; unfold x; clear x)
        | (refine Keeps.cut1 (s := s) (x := x) (fun hx => ?_) ?_; clear_value x; revert x; intro y hy; rotate_left; unfold x; clear x)
        | (refine Keeps.cut2 (s := s) (x := x) (fun hx => ?_) ?_; clear_value x; revert x; intro y hy; rotate_left; unfold x; clear x)
        | (revert x; intro y))
    | simp only [Keeps.rest_iff, Keeps.clk_iff]
    | with_reducible apply Keeps.foldl
    | with_reducible apply Keeps.foldl_fst
    | (refine Keeps.of_fst ‹_ = _› ?_)
    | (refine Keeps.of_snd ‹_ = _› ?_)
    | split
    | (intro)

theorem State.gatherError_keeps {s t : State} {k : Packet} (h : Keeps s t) : Keeps s (State.gatherError t k) := by
  unfold State.gatherError
  repeat' first
    | with_reducible assumption
    | with_reducible apply State.dropStale_keeps
    | with_reducible apply State.endGather_keeps
    | with_reducible apply State.unmapped_keeps
    | split

theorem State.rankError_keeps {s t : State} {k : Packet} (h : Keeps s t) : Keeps s (State.rankError t k) := by
  unfold State.rankError
  repeat' first
    | with_reducible assumption
    | with_reducible apply State.dropStale_keeps
    | with_reducible apply State.finishRank_keeps
    | with_reducible apply State.unmapped_keeps
    | split

theorem State.treeError_keeps {s t : State} {k : Packet} (h : Keeps s t) : Keeps s (State.treeError t k) := by
  unfold State.treeError
  repeat' first
    | with_reducible assumption
    | with_reducible apply State.ropeUnanswered_keeps
    | with_reducible apply State.caddyAnswered_keeps
    | split

theorem State.readError_keeps {s t : State} {k : Packet} (h : Keeps s t) : Keeps s (State.readError t k) := by
  unfold State.readError
  try dsimp -zeta only
  repeat' first
    | with_reducible assumption
    | with_reducible exact Keeps.refl _
    | with_reducible rfl
    | refine State.takeRead_keeps ?_ ‹_›
    | refine State.takeRead_keeps ?_ (ite_some ‹_›)
    | with_reducible apply State.unmapped_keeps
    | with_reducible apply State.replyRead_keeps
    | with_reducible apply State.dropStale_keeps
    | (extract_lets +onlyGivenNames x; first
        | (refine Keeps.cut (s := s) (x := x) (fun hx => ?_) ?_; clear_value x; revert x; intro y hy; rotate_left; unfold x; clear x)
        | (refine Keeps.cut1 (s := s) (x := x) (fun hx => ?_) ?_; clear_value x; revert x; intro y hy; rotate_left; unfold x; clear x)
        | (refine Keeps.cut2 (s := s) (x := x) (fun hx => ?_) ?_; clear_value x; revert x; intro y hy; rotate_left; unfold x; clear x)
        | (revert x; intro y))
    | simp only [Keeps.rest_iff, Keeps.clk_iff]
    | with_reducible apply Keeps.foldl
    | with_reducible apply Keeps.foldl_fst
    | (refine Keeps.of_fst ‹_ = _› ?_)
    | (refine Keeps.of_snd ‹_ = _› ?_)
    | split
    | (intro)

theorem execErrorReplyReceive_keeps {s u : State} {pkt : Packet} (e : execErrorReplyReceive pkt s = .next u) : Keeps s u := by
  unfold execErrorReplyReceive at e
  injection e with e
  subst e
  repeat' first
    | with_reducible exact Keeps.refl _
    | refine State.take_keeps ?_ ‹_›
    | with_reducible apply State.gatherError_keeps
    | with_reducible apply State.rankError_keeps
    | with_reducible apply State.treeError_keeps
    | with_reducible apply State.readError_keeps
    | split

end Sys2Proof.Machine
end

