-- ==== Sys2Proof/Laws/State.lean ====
section
/-!
SUPPORT. The fields of the state after an update of another part, one lemma per field and update, and what the updates of one part do to it.
-/
namespace Sys2Proof.Machine

open Sys2Proof

variable {s : State}

@[simp] theorem State.setReg_pending (o : Nat) (w : Word) : (s.setReg o w).pending = s.pending := rfl
@[simp] theorem State.setReg_inForce (o : Nat) (w : Word) : (s.setReg o w).inForce = s.inForce := rfl
@[simp] theorem State.setReg_genStale (o : Nat) (w : Word) : (s.setReg o w).genStale = s.genStale := rfl
@[simp] theorem State.setReg_drainAt (o : Nat) (w : Word) : (s.setReg o w).drainAt = s.drainAt := rfl
@[simp] theorem State.setReg_rrLast (o : Nat) (w : Word) : (s.setReg o w).rrLast = s.rrLast := rfl
@[simp] theorem State.setReg_mem (o : Nat) (w : Word) : (s.setReg o w).mem = s.mem := rfl
@[simp] theorem State.setReg_clk (o : Nat) (w : Word) : (s.setReg o w).clk = s.clk := rfl
@[simp] theorem State.setReg_sq (o : Nat) (w : Word) : (s.setReg o w).sq = s.sq := rfl
@[simp] theorem State.setReg_started (o : Nat) (w : Word) : (s.setReg o w).started = s.started := rfl
@[simp] theorem State.setReg_unconf (o : Nat) (w : Word) : (s.setReg o w).unconf = s.unconf := rfl
@[simp] theorem State.setReg_pcie (o : Nat) (w : Word) : (s.setReg o w).pcie = s.pcie := rfl
@[simp] theorem State.setReg_flt (o : Nat) (w : Word) : (s.setReg o w).flt = s.flt := rfl
@[simp] theorem State.setReg_evr (o : Nat) (w : Word) : (s.setReg o w).evr = s.evr := rfl
@[simp] theorem State.setReg_notices (o : Nat) (w : Word) : (s.setReg o w).notices = s.notices := rfl
@[simp] theorem State.setReg_noticeNo (o : Nat) (w : Word) : (s.setReg o w).noticeNo = s.noticeNo := rfl
@[simp] theorem State.setReg_pages (o : Nat) (w : Word) : (s.setReg o w).pages = s.pages := rfl
@[simp] theorem State.setReg_heldWr (o : Nat) (w : Word) : (s.setReg o w).heldWr = s.heldWr := rfl
@[simp] theorem State.setReg_waitRd (o : Nat) (w : Word) : (s.setReg o w).waitRd = s.waitRd := rfl
@[simp] theorem State.setReg_order (o : Nat) (w : Word) : (s.setReg o w).order = s.order := rfl
@[simp] theorem State.setReg_fab (o : Nat) (w : Word) : (s.setReg o w).fab = s.fab := rfl
@[simp] theorem State.setReg_tor (o : Nat) (w : Word) : (s.setReg o w).tor = s.tor := rfl
@[simp] theorem State.setReg_freeCtr (o : Nat) (w : Word) : (s.setReg o w).freeCtr = s.freeCtr := rfl
@[simp] theorem State.setReg_out (o : Nat) (w : Word) : (s.setReg o w).out = s.out := rfl
@[simp] theorem State.setReg_dark (o : Nat) (w : Word) : (s.setReg o w).dark = s.dark := rfl
@[simp] theorem State.setReg_obs (o : Nat) (w : Word) : (s.setReg o w).obs = s.obs := rfl
@[simp] theorem State.setReg_journal (o : Nat) (w : Word) : (s.setReg o w).journal = s.journal := rfl
@[simp] theorem State.setReg_arr (o : Nat) (w : Word) : (s.setReg o w).arr = s.arr := rfl
@[simp] theorem State.setReg_sump (o : Nat) (w : Word) : (s.setReg o w).sump = s.sump := rfl
@[simp] theorem State.setReg_gathers (o : Nat) (w : Word) : (s.setReg o w).gathers = s.gathers := rfl
@[simp] theorem State.setReg_rowsIn (o : Nat) (w : Word) : (s.setReg o w).rowsIn = s.rowsIn := rfl
@[simp] theorem State.setReg_upd (o : Nat) (w : Word) : (s.setReg o w).upd = s.upd := rfl
@[simp] theorem State.setReg_scrub (o : Nat) (w : Word) : (s.setReg o w).scrub = s.scrub := rfl
@[simp] theorem State.setReg_ranks (o : Nat) (w : Word) : (s.setReg o w).ranks = s.ranks := rfl
@[simp] theorem State.setReg_homes (o : Nat) (w : Word) : (s.setReg o w).homes = s.homes := rfl
@[simp] theorem State.setReg_quar (o : Nat) (w : Word) : (s.setReg o w).quar = s.quar := rfl
@[simp] theorem State.setReg_scan (o : Nat) (w : Word) : (s.setReg o w).scan = s.scan := rfl
@[simp] theorem State.setReg_hang (o : Nat) (w : Word) : (s.setReg o w).hang = s.hang := rfl
@[simp] theorem State.setReg_trelfort (o : Nat) (w : Word) : (s.setReg o w).trelfort = s.trelfort := rfl
@[simp] theorem State.setReg_risk (o : Nat) (w : Word) : (s.setReg o w).risk = s.risk := rfl
@[simp] theorem State.setReg_pwr (o : Nat) (w : Word) : (s.setReg o w).pwr = s.pwr := rfl
@[simp] theorem State.setReg_caddy (o : Nat) (w : Word) : (s.setReg o w).caddy = s.caddy := rfl

@[simp] theorem State.fput_pending (o : Nat) (f : Fld) (v : Nat) : (s.fput o f v).pending = s.pending := rfl
@[simp] theorem State.fput_inForce (o : Nat) (f : Fld) (v : Nat) : (s.fput o f v).inForce = s.inForce := rfl
@[simp] theorem State.fput_genStale (o : Nat) (f : Fld) (v : Nat) : (s.fput o f v).genStale = s.genStale := rfl
@[simp] theorem State.fput_drainAt (o : Nat) (f : Fld) (v : Nat) : (s.fput o f v).drainAt = s.drainAt := rfl
@[simp] theorem State.fput_rrLast (o : Nat) (f : Fld) (v : Nat) : (s.fput o f v).rrLast = s.rrLast := rfl
@[simp] theorem State.fput_mem (o : Nat) (f : Fld) (v : Nat) : (s.fput o f v).mem = s.mem := rfl
@[simp] theorem State.fput_clk (o : Nat) (f : Fld) (v : Nat) : (s.fput o f v).clk = s.clk := rfl
@[simp] theorem State.fput_sq (o : Nat) (f : Fld) (v : Nat) : (s.fput o f v).sq = s.sq := rfl
@[simp] theorem State.fput_started (o : Nat) (f : Fld) (v : Nat) : (s.fput o f v).started = s.started := rfl
@[simp] theorem State.fput_unconf (o : Nat) (f : Fld) (v : Nat) : (s.fput o f v).unconf = s.unconf := rfl
@[simp] theorem State.fput_pcie (o : Nat) (f : Fld) (v : Nat) : (s.fput o f v).pcie = s.pcie := rfl
@[simp] theorem State.fput_flt (o : Nat) (f : Fld) (v : Nat) : (s.fput o f v).flt = s.flt := rfl
@[simp] theorem State.fput_evr (o : Nat) (f : Fld) (v : Nat) : (s.fput o f v).evr = s.evr := rfl
@[simp] theorem State.fput_notices (o : Nat) (f : Fld) (v : Nat) : (s.fput o f v).notices = s.notices := rfl
@[simp] theorem State.fput_noticeNo (o : Nat) (f : Fld) (v : Nat) : (s.fput o f v).noticeNo = s.noticeNo := rfl
@[simp] theorem State.fput_pages (o : Nat) (f : Fld) (v : Nat) : (s.fput o f v).pages = s.pages := rfl
@[simp] theorem State.fput_heldWr (o : Nat) (f : Fld) (v : Nat) : (s.fput o f v).heldWr = s.heldWr := rfl
@[simp] theorem State.fput_waitRd (o : Nat) (f : Fld) (v : Nat) : (s.fput o f v).waitRd = s.waitRd := rfl
@[simp] theorem State.fput_order (o : Nat) (f : Fld) (v : Nat) : (s.fput o f v).order = s.order := rfl
@[simp] theorem State.fput_fab (o : Nat) (f : Fld) (v : Nat) : (s.fput o f v).fab = s.fab := rfl
@[simp] theorem State.fput_tor (o : Nat) (f : Fld) (v : Nat) : (s.fput o f v).tor = s.tor := rfl
@[simp] theorem State.fput_freeCtr (o : Nat) (f : Fld) (v : Nat) : (s.fput o f v).freeCtr = s.freeCtr := rfl
@[simp] theorem State.fput_out (o : Nat) (f : Fld) (v : Nat) : (s.fput o f v).out = s.out := rfl
@[simp] theorem State.fput_dark (o : Nat) (f : Fld) (v : Nat) : (s.fput o f v).dark = s.dark := rfl
@[simp] theorem State.fput_obs (o : Nat) (f : Fld) (v : Nat) : (s.fput o f v).obs = s.obs := rfl
@[simp] theorem State.fput_journal (o : Nat) (f : Fld) (v : Nat) : (s.fput o f v).journal = s.journal := rfl
@[simp] theorem State.fput_arr (o : Nat) (f : Fld) (v : Nat) : (s.fput o f v).arr = s.arr := rfl
@[simp] theorem State.fput_sump (o : Nat) (f : Fld) (v : Nat) : (s.fput o f v).sump = s.sump := rfl
@[simp] theorem State.fput_gathers (o : Nat) (f : Fld) (v : Nat) : (s.fput o f v).gathers = s.gathers := rfl
@[simp] theorem State.fput_rowsIn (o : Nat) (f : Fld) (v : Nat) : (s.fput o f v).rowsIn = s.rowsIn := rfl
@[simp] theorem State.fput_upd (o : Nat) (f : Fld) (v : Nat) : (s.fput o f v).upd = s.upd := rfl
@[simp] theorem State.fput_scrub (o : Nat) (f : Fld) (v : Nat) : (s.fput o f v).scrub = s.scrub := rfl
@[simp] theorem State.fput_ranks (o : Nat) (f : Fld) (v : Nat) : (s.fput o f v).ranks = s.ranks := rfl
@[simp] theorem State.fput_homes (o : Nat) (f : Fld) (v : Nat) : (s.fput o f v).homes = s.homes := rfl
@[simp] theorem State.fput_quar (o : Nat) (f : Fld) (v : Nat) : (s.fput o f v).quar = s.quar := rfl
@[simp] theorem State.fput_scan (o : Nat) (f : Fld) (v : Nat) : (s.fput o f v).scan = s.scan := rfl
@[simp] theorem State.fput_hang (o : Nat) (f : Fld) (v : Nat) : (s.fput o f v).hang = s.hang := rfl
@[simp] theorem State.fput_trelfort (o : Nat) (f : Fld) (v : Nat) : (s.fput o f v).trelfort = s.trelfort := rfl
@[simp] theorem State.fput_risk (o : Nat) (f : Fld) (v : Nat) : (s.fput o f v).risk = s.risk := rfl
@[simp] theorem State.fput_pwr (o : Nat) (f : Fld) (v : Nat) : (s.fput o f v).pwr = s.pwr := rfl
@[simp] theorem State.fput_caddy (o : Nat) (f : Fld) (v : Nat) : (s.fput o f v).caddy = s.caddy := rfl

@[simp] theorem State.bump_pending (o : Nat) (f : Fld) (v : Nat) : (s.bump o f v).pending = s.pending := rfl
@[simp] theorem State.bump_inForce (o : Nat) (f : Fld) (v : Nat) : (s.bump o f v).inForce = s.inForce := rfl
@[simp] theorem State.bump_genStale (o : Nat) (f : Fld) (v : Nat) : (s.bump o f v).genStale = s.genStale := rfl
@[simp] theorem State.bump_drainAt (o : Nat) (f : Fld) (v : Nat) : (s.bump o f v).drainAt = s.drainAt := rfl
@[simp] theorem State.bump_rrLast (o : Nat) (f : Fld) (v : Nat) : (s.bump o f v).rrLast = s.rrLast := rfl
@[simp] theorem State.bump_mem (o : Nat) (f : Fld) (v : Nat) : (s.bump o f v).mem = s.mem := rfl
@[simp] theorem State.bump_clk (o : Nat) (f : Fld) (v : Nat) : (s.bump o f v).clk = s.clk := rfl
@[simp] theorem State.bump_sq (o : Nat) (f : Fld) (v : Nat) : (s.bump o f v).sq = s.sq := rfl
@[simp] theorem State.bump_started (o : Nat) (f : Fld) (v : Nat) : (s.bump o f v).started = s.started := rfl
@[simp] theorem State.bump_unconf (o : Nat) (f : Fld) (v : Nat) : (s.bump o f v).unconf = s.unconf := rfl
@[simp] theorem State.bump_pcie (o : Nat) (f : Fld) (v : Nat) : (s.bump o f v).pcie = s.pcie := rfl
@[simp] theorem State.bump_flt (o : Nat) (f : Fld) (v : Nat) : (s.bump o f v).flt = s.flt := rfl
@[simp] theorem State.bump_evr (o : Nat) (f : Fld) (v : Nat) : (s.bump o f v).evr = s.evr := rfl
@[simp] theorem State.bump_notices (o : Nat) (f : Fld) (v : Nat) : (s.bump o f v).notices = s.notices := rfl
@[simp] theorem State.bump_noticeNo (o : Nat) (f : Fld) (v : Nat) : (s.bump o f v).noticeNo = s.noticeNo := rfl
@[simp] theorem State.bump_pages (o : Nat) (f : Fld) (v : Nat) : (s.bump o f v).pages = s.pages := rfl
@[simp] theorem State.bump_heldWr (o : Nat) (f : Fld) (v : Nat) : (s.bump o f v).heldWr = s.heldWr := rfl
@[simp] theorem State.bump_waitRd (o : Nat) (f : Fld) (v : Nat) : (s.bump o f v).waitRd = s.waitRd := rfl
@[simp] theorem State.bump_order (o : Nat) (f : Fld) (v : Nat) : (s.bump o f v).order = s.order := rfl
@[simp] theorem State.bump_fab (o : Nat) (f : Fld) (v : Nat) : (s.bump o f v).fab = s.fab := rfl
@[simp] theorem State.bump_tor (o : Nat) (f : Fld) (v : Nat) : (s.bump o f v).tor = s.tor := rfl
@[simp] theorem State.bump_freeCtr (o : Nat) (f : Fld) (v : Nat) : (s.bump o f v).freeCtr = s.freeCtr := rfl
@[simp] theorem State.bump_out (o : Nat) (f : Fld) (v : Nat) : (s.bump o f v).out = s.out := rfl
@[simp] theorem State.bump_dark (o : Nat) (f : Fld) (v : Nat) : (s.bump o f v).dark = s.dark := rfl
@[simp] theorem State.bump_obs (o : Nat) (f : Fld) (v : Nat) : (s.bump o f v).obs = s.obs := rfl
@[simp] theorem State.bump_journal (o : Nat) (f : Fld) (v : Nat) : (s.bump o f v).journal = s.journal := rfl
@[simp] theorem State.bump_arr (o : Nat) (f : Fld) (v : Nat) : (s.bump o f v).arr = s.arr := rfl
@[simp] theorem State.bump_sump (o : Nat) (f : Fld) (v : Nat) : (s.bump o f v).sump = s.sump := rfl
@[simp] theorem State.bump_gathers (o : Nat) (f : Fld) (v : Nat) : (s.bump o f v).gathers = s.gathers := rfl
@[simp] theorem State.bump_rowsIn (o : Nat) (f : Fld) (v : Nat) : (s.bump o f v).rowsIn = s.rowsIn := rfl
@[simp] theorem State.bump_upd (o : Nat) (f : Fld) (v : Nat) : (s.bump o f v).upd = s.upd := rfl
@[simp] theorem State.bump_scrub (o : Nat) (f : Fld) (v : Nat) : (s.bump o f v).scrub = s.scrub := rfl
@[simp] theorem State.bump_ranks (o : Nat) (f : Fld) (v : Nat) : (s.bump o f v).ranks = s.ranks := rfl
@[simp] theorem State.bump_homes (o : Nat) (f : Fld) (v : Nat) : (s.bump o f v).homes = s.homes := rfl
@[simp] theorem State.bump_quar (o : Nat) (f : Fld) (v : Nat) : (s.bump o f v).quar = s.quar := rfl
@[simp] theorem State.bump_scan (o : Nat) (f : Fld) (v : Nat) : (s.bump o f v).scan = s.scan := rfl
@[simp] theorem State.bump_hang (o : Nat) (f : Fld) (v : Nat) : (s.bump o f v).hang = s.hang := rfl
@[simp] theorem State.bump_trelfort (o : Nat) (f : Fld) (v : Nat) : (s.bump o f v).trelfort = s.trelfort := rfl
@[simp] theorem State.bump_risk (o : Nat) (f : Fld) (v : Nat) : (s.bump o f v).risk = s.risk := rfl
@[simp] theorem State.bump_pwr (o : Nat) (f : Fld) (v : Nat) : (s.bump o f v).pwr = s.pwr := rfl
@[simp] theorem State.bump_caddy (o : Nat) (f : Fld) (v : Nat) : (s.bump o f v).caddy = s.caddy := rfl

@[simp] theorem State.count_pending (o : Nat) (f : Fld) (v : Nat) : (s.count o f v).pending = s.pending := rfl
@[simp] theorem State.count_inForce (o : Nat) (f : Fld) (v : Nat) : (s.count o f v).inForce = s.inForce := rfl
@[simp] theorem State.count_genStale (o : Nat) (f : Fld) (v : Nat) : (s.count o f v).genStale = s.genStale := rfl
@[simp] theorem State.count_drainAt (o : Nat) (f : Fld) (v : Nat) : (s.count o f v).drainAt = s.drainAt := rfl
@[simp] theorem State.count_rrLast (o : Nat) (f : Fld) (v : Nat) : (s.count o f v).rrLast = s.rrLast := rfl
@[simp] theorem State.count_mem (o : Nat) (f : Fld) (v : Nat) : (s.count o f v).mem = s.mem := rfl
@[simp] theorem State.count_clk (o : Nat) (f : Fld) (v : Nat) : (s.count o f v).clk = s.clk := rfl
@[simp] theorem State.count_sq (o : Nat) (f : Fld) (v : Nat) : (s.count o f v).sq = s.sq := rfl
@[simp] theorem State.count_started (o : Nat) (f : Fld) (v : Nat) : (s.count o f v).started = s.started := rfl
@[simp] theorem State.count_unconf (o : Nat) (f : Fld) (v : Nat) : (s.count o f v).unconf = s.unconf := rfl
@[simp] theorem State.count_pcie (o : Nat) (f : Fld) (v : Nat) : (s.count o f v).pcie = s.pcie := rfl
@[simp] theorem State.count_flt (o : Nat) (f : Fld) (v : Nat) : (s.count o f v).flt = s.flt := rfl
@[simp] theorem State.count_evr (o : Nat) (f : Fld) (v : Nat) : (s.count o f v).evr = s.evr := rfl
@[simp] theorem State.count_notices (o : Nat) (f : Fld) (v : Nat) : (s.count o f v).notices = s.notices := rfl
@[simp] theorem State.count_noticeNo (o : Nat) (f : Fld) (v : Nat) : (s.count o f v).noticeNo = s.noticeNo := rfl
@[simp] theorem State.count_pages (o : Nat) (f : Fld) (v : Nat) : (s.count o f v).pages = s.pages := rfl
@[simp] theorem State.count_heldWr (o : Nat) (f : Fld) (v : Nat) : (s.count o f v).heldWr = s.heldWr := rfl
@[simp] theorem State.count_waitRd (o : Nat) (f : Fld) (v : Nat) : (s.count o f v).waitRd = s.waitRd := rfl
@[simp] theorem State.count_order (o : Nat) (f : Fld) (v : Nat) : (s.count o f v).order = s.order := rfl
@[simp] theorem State.count_fab (o : Nat) (f : Fld) (v : Nat) : (s.count o f v).fab = s.fab := rfl
@[simp] theorem State.count_tor (o : Nat) (f : Fld) (v : Nat) : (s.count o f v).tor = s.tor := rfl
@[simp] theorem State.count_freeCtr (o : Nat) (f : Fld) (v : Nat) : (s.count o f v).freeCtr = s.freeCtr := rfl
@[simp] theorem State.count_out (o : Nat) (f : Fld) (v : Nat) : (s.count o f v).out = s.out := rfl
@[simp] theorem State.count_dark (o : Nat) (f : Fld) (v : Nat) : (s.count o f v).dark = s.dark := rfl
@[simp] theorem State.count_obs (o : Nat) (f : Fld) (v : Nat) : (s.count o f v).obs = s.obs := rfl
@[simp] theorem State.count_journal (o : Nat) (f : Fld) (v : Nat) : (s.count o f v).journal = s.journal := rfl
@[simp] theorem State.count_arr (o : Nat) (f : Fld) (v : Nat) : (s.count o f v).arr = s.arr := rfl
@[simp] theorem State.count_sump (o : Nat) (f : Fld) (v : Nat) : (s.count o f v).sump = s.sump := rfl
@[simp] theorem State.count_gathers (o : Nat) (f : Fld) (v : Nat) : (s.count o f v).gathers = s.gathers := rfl
@[simp] theorem State.count_rowsIn (o : Nat) (f : Fld) (v : Nat) : (s.count o f v).rowsIn = s.rowsIn := rfl
@[simp] theorem State.count_upd (o : Nat) (f : Fld) (v : Nat) : (s.count o f v).upd = s.upd := rfl
@[simp] theorem State.count_scrub (o : Nat) (f : Fld) (v : Nat) : (s.count o f v).scrub = s.scrub := rfl
@[simp] theorem State.count_ranks (o : Nat) (f : Fld) (v : Nat) : (s.count o f v).ranks = s.ranks := rfl
@[simp] theorem State.count_homes (o : Nat) (f : Fld) (v : Nat) : (s.count o f v).homes = s.homes := rfl
@[simp] theorem State.count_quar (o : Nat) (f : Fld) (v : Nat) : (s.count o f v).quar = s.quar := rfl
@[simp] theorem State.count_scan (o : Nat) (f : Fld) (v : Nat) : (s.count o f v).scan = s.scan := rfl
@[simp] theorem State.count_hang (o : Nat) (f : Fld) (v : Nat) : (s.count o f v).hang = s.hang := rfl
@[simp] theorem State.count_trelfort (o : Nat) (f : Fld) (v : Nat) : (s.count o f v).trelfort = s.trelfort := rfl
@[simp] theorem State.count_risk (o : Nat) (f : Fld) (v : Nat) : (s.count o f v).risk = s.risk := rfl
@[simp] theorem State.count_pwr (o : Nat) (f : Fld) (v : Nat) : (s.count o f v).pwr = s.pwr := rfl
@[simp] theorem State.count_caddy (o : Nat) (f : Fld) (v : Nat) : (s.count o f v).caddy = s.caddy := rfl

@[simp] theorem State.lower_pending (o : Nat) (f : Fld) (v : Nat) : (s.lower o f v).pending = s.pending := rfl
@[simp] theorem State.lower_inForce (o : Nat) (f : Fld) (v : Nat) : (s.lower o f v).inForce = s.inForce := rfl
@[simp] theorem State.lower_genStale (o : Nat) (f : Fld) (v : Nat) : (s.lower o f v).genStale = s.genStale := rfl
@[simp] theorem State.lower_drainAt (o : Nat) (f : Fld) (v : Nat) : (s.lower o f v).drainAt = s.drainAt := rfl
@[simp] theorem State.lower_rrLast (o : Nat) (f : Fld) (v : Nat) : (s.lower o f v).rrLast = s.rrLast := rfl
@[simp] theorem State.lower_mem (o : Nat) (f : Fld) (v : Nat) : (s.lower o f v).mem = s.mem := rfl
@[simp] theorem State.lower_clk (o : Nat) (f : Fld) (v : Nat) : (s.lower o f v).clk = s.clk := rfl
@[simp] theorem State.lower_sq (o : Nat) (f : Fld) (v : Nat) : (s.lower o f v).sq = s.sq := rfl
@[simp] theorem State.lower_started (o : Nat) (f : Fld) (v : Nat) : (s.lower o f v).started = s.started := rfl
@[simp] theorem State.lower_unconf (o : Nat) (f : Fld) (v : Nat) : (s.lower o f v).unconf = s.unconf := rfl
@[simp] theorem State.lower_pcie (o : Nat) (f : Fld) (v : Nat) : (s.lower o f v).pcie = s.pcie := rfl
@[simp] theorem State.lower_flt (o : Nat) (f : Fld) (v : Nat) : (s.lower o f v).flt = s.flt := rfl
@[simp] theorem State.lower_evr (o : Nat) (f : Fld) (v : Nat) : (s.lower o f v).evr = s.evr := rfl
@[simp] theorem State.lower_notices (o : Nat) (f : Fld) (v : Nat) : (s.lower o f v).notices = s.notices := rfl
@[simp] theorem State.lower_noticeNo (o : Nat) (f : Fld) (v : Nat) : (s.lower o f v).noticeNo = s.noticeNo := rfl
@[simp] theorem State.lower_pages (o : Nat) (f : Fld) (v : Nat) : (s.lower o f v).pages = s.pages := rfl
@[simp] theorem State.lower_heldWr (o : Nat) (f : Fld) (v : Nat) : (s.lower o f v).heldWr = s.heldWr := rfl
@[simp] theorem State.lower_waitRd (o : Nat) (f : Fld) (v : Nat) : (s.lower o f v).waitRd = s.waitRd := rfl
@[simp] theorem State.lower_order (o : Nat) (f : Fld) (v : Nat) : (s.lower o f v).order = s.order := rfl
@[simp] theorem State.lower_fab (o : Nat) (f : Fld) (v : Nat) : (s.lower o f v).fab = s.fab := rfl
@[simp] theorem State.lower_tor (o : Nat) (f : Fld) (v : Nat) : (s.lower o f v).tor = s.tor := rfl
@[simp] theorem State.lower_freeCtr (o : Nat) (f : Fld) (v : Nat) : (s.lower o f v).freeCtr = s.freeCtr := rfl
@[simp] theorem State.lower_out (o : Nat) (f : Fld) (v : Nat) : (s.lower o f v).out = s.out := rfl
@[simp] theorem State.lower_dark (o : Nat) (f : Fld) (v : Nat) : (s.lower o f v).dark = s.dark := rfl
@[simp] theorem State.lower_obs (o : Nat) (f : Fld) (v : Nat) : (s.lower o f v).obs = s.obs := rfl
@[simp] theorem State.lower_journal (o : Nat) (f : Fld) (v : Nat) : (s.lower o f v).journal = s.journal := rfl
@[simp] theorem State.lower_arr (o : Nat) (f : Fld) (v : Nat) : (s.lower o f v).arr = s.arr := rfl
@[simp] theorem State.lower_sump (o : Nat) (f : Fld) (v : Nat) : (s.lower o f v).sump = s.sump := rfl
@[simp] theorem State.lower_gathers (o : Nat) (f : Fld) (v : Nat) : (s.lower o f v).gathers = s.gathers := rfl
@[simp] theorem State.lower_rowsIn (o : Nat) (f : Fld) (v : Nat) : (s.lower o f v).rowsIn = s.rowsIn := rfl
@[simp] theorem State.lower_upd (o : Nat) (f : Fld) (v : Nat) : (s.lower o f v).upd = s.upd := rfl
@[simp] theorem State.lower_scrub (o : Nat) (f : Fld) (v : Nat) : (s.lower o f v).scrub = s.scrub := rfl
@[simp] theorem State.lower_ranks (o : Nat) (f : Fld) (v : Nat) : (s.lower o f v).ranks = s.ranks := rfl
@[simp] theorem State.lower_homes (o : Nat) (f : Fld) (v : Nat) : (s.lower o f v).homes = s.homes := rfl
@[simp] theorem State.lower_quar (o : Nat) (f : Fld) (v : Nat) : (s.lower o f v).quar = s.quar := rfl
@[simp] theorem State.lower_scan (o : Nat) (f : Fld) (v : Nat) : (s.lower o f v).scan = s.scan := rfl
@[simp] theorem State.lower_hang (o : Nat) (f : Fld) (v : Nat) : (s.lower o f v).hang = s.hang := rfl
@[simp] theorem State.lower_trelfort (o : Nat) (f : Fld) (v : Nat) : (s.lower o f v).trelfort = s.trelfort := rfl
@[simp] theorem State.lower_risk (o : Nat) (f : Fld) (v : Nat) : (s.lower o f v).risk = s.risk := rfl
@[simp] theorem State.lower_pwr (o : Nat) (f : Fld) (v : Nat) : (s.lower o f v).pwr = s.pwr := rfl
@[simp] theorem State.lower_caddy (o : Nat) (f : Fld) (v : Nat) : (s.lower o f v).caddy = s.caddy := rfl

@[simp] theorem State.putBit_pending (o b : Nat) (v : Bool) : (s.putBit o b v).pending = s.pending := rfl
@[simp] theorem State.putBit_inForce (o b : Nat) (v : Bool) : (s.putBit o b v).inForce = s.inForce := rfl
@[simp] theorem State.putBit_genStale (o b : Nat) (v : Bool) : (s.putBit o b v).genStale = s.genStale := rfl
@[simp] theorem State.putBit_drainAt (o b : Nat) (v : Bool) : (s.putBit o b v).drainAt = s.drainAt := rfl
@[simp] theorem State.putBit_rrLast (o b : Nat) (v : Bool) : (s.putBit o b v).rrLast = s.rrLast := rfl
@[simp] theorem State.putBit_mem (o b : Nat) (v : Bool) : (s.putBit o b v).mem = s.mem := rfl
@[simp] theorem State.putBit_clk (o b : Nat) (v : Bool) : (s.putBit o b v).clk = s.clk := rfl
@[simp] theorem State.putBit_sq (o b : Nat) (v : Bool) : (s.putBit o b v).sq = s.sq := rfl
@[simp] theorem State.putBit_started (o b : Nat) (v : Bool) : (s.putBit o b v).started = s.started := rfl
@[simp] theorem State.putBit_unconf (o b : Nat) (v : Bool) : (s.putBit o b v).unconf = s.unconf := rfl
@[simp] theorem State.putBit_pcie (o b : Nat) (v : Bool) : (s.putBit o b v).pcie = s.pcie := rfl
@[simp] theorem State.putBit_flt (o b : Nat) (v : Bool) : (s.putBit o b v).flt = s.flt := rfl
@[simp] theorem State.putBit_evr (o b : Nat) (v : Bool) : (s.putBit o b v).evr = s.evr := rfl
@[simp] theorem State.putBit_notices (o b : Nat) (v : Bool) : (s.putBit o b v).notices = s.notices := rfl
@[simp] theorem State.putBit_noticeNo (o b : Nat) (v : Bool) : (s.putBit o b v).noticeNo = s.noticeNo := rfl
@[simp] theorem State.putBit_pages (o b : Nat) (v : Bool) : (s.putBit o b v).pages = s.pages := rfl
@[simp] theorem State.putBit_heldWr (o b : Nat) (v : Bool) : (s.putBit o b v).heldWr = s.heldWr := rfl
@[simp] theorem State.putBit_waitRd (o b : Nat) (v : Bool) : (s.putBit o b v).waitRd = s.waitRd := rfl
@[simp] theorem State.putBit_order (o b : Nat) (v : Bool) : (s.putBit o b v).order = s.order := rfl
@[simp] theorem State.putBit_fab (o b : Nat) (v : Bool) : (s.putBit o b v).fab = s.fab := rfl
@[simp] theorem State.putBit_tor (o b : Nat) (v : Bool) : (s.putBit o b v).tor = s.tor := rfl
@[simp] theorem State.putBit_freeCtr (o b : Nat) (v : Bool) : (s.putBit o b v).freeCtr = s.freeCtr := rfl
@[simp] theorem State.putBit_out (o b : Nat) (v : Bool) : (s.putBit o b v).out = s.out := rfl
@[simp] theorem State.putBit_dark (o b : Nat) (v : Bool) : (s.putBit o b v).dark = s.dark := rfl
@[simp] theorem State.putBit_obs (o b : Nat) (v : Bool) : (s.putBit o b v).obs = s.obs := rfl
@[simp] theorem State.putBit_journal (o b : Nat) (v : Bool) : (s.putBit o b v).journal = s.journal := rfl
@[simp] theorem State.putBit_arr (o b : Nat) (v : Bool) : (s.putBit o b v).arr = s.arr := rfl
@[simp] theorem State.putBit_sump (o b : Nat) (v : Bool) : (s.putBit o b v).sump = s.sump := rfl
@[simp] theorem State.putBit_gathers (o b : Nat) (v : Bool) : (s.putBit o b v).gathers = s.gathers := rfl
@[simp] theorem State.putBit_rowsIn (o b : Nat) (v : Bool) : (s.putBit o b v).rowsIn = s.rowsIn := rfl
@[simp] theorem State.putBit_upd (o b : Nat) (v : Bool) : (s.putBit o b v).upd = s.upd := rfl
@[simp] theorem State.putBit_scrub (o b : Nat) (v : Bool) : (s.putBit o b v).scrub = s.scrub := rfl
@[simp] theorem State.putBit_ranks (o b : Nat) (v : Bool) : (s.putBit o b v).ranks = s.ranks := rfl
@[simp] theorem State.putBit_homes (o b : Nat) (v : Bool) : (s.putBit o b v).homes = s.homes := rfl
@[simp] theorem State.putBit_quar (o b : Nat) (v : Bool) : (s.putBit o b v).quar = s.quar := rfl
@[simp] theorem State.putBit_scan (o b : Nat) (v : Bool) : (s.putBit o b v).scan = s.scan := rfl
@[simp] theorem State.putBit_hang (o b : Nat) (v : Bool) : (s.putBit o b v).hang = s.hang := rfl
@[simp] theorem State.putBit_trelfort (o b : Nat) (v : Bool) : (s.putBit o b v).trelfort = s.trelfort := rfl
@[simp] theorem State.putBit_risk (o b : Nat) (v : Bool) : (s.putBit o b v).risk = s.risk := rfl
@[simp] theorem State.putBit_pwr (o b : Nat) (v : Bool) : (s.putBit o b v).pwr = s.pwr := rfl
@[simp] theorem State.putBit_caddy (o b : Nat) (v : Bool) : (s.putBit o b v).caddy = s.caddy := rfl

@[simp] theorem State.setFn_pending (f v : Nat) : (s.setFn f v).pending = s.pending := rfl
@[simp] theorem State.setFn_inForce (f v : Nat) : (s.setFn f v).inForce = s.inForce := rfl
@[simp] theorem State.setFn_genStale (f v : Nat) : (s.setFn f v).genStale = s.genStale := rfl
@[simp] theorem State.setFn_drainAt (f v : Nat) : (s.setFn f v).drainAt = s.drainAt := rfl
@[simp] theorem State.setFn_rrLast (f v : Nat) : (s.setFn f v).rrLast = s.rrLast := rfl
@[simp] theorem State.setFn_mem (f v : Nat) : (s.setFn f v).mem = s.mem := rfl
@[simp] theorem State.setFn_clk (f v : Nat) : (s.setFn f v).clk = s.clk := rfl
@[simp] theorem State.setFn_sq (f v : Nat) : (s.setFn f v).sq = s.sq := rfl
@[simp] theorem State.setFn_started (f v : Nat) : (s.setFn f v).started = s.started := rfl
@[simp] theorem State.setFn_unconf (f v : Nat) : (s.setFn f v).unconf = s.unconf := rfl
@[simp] theorem State.setFn_pcie (f v : Nat) : (s.setFn f v).pcie = s.pcie := rfl
@[simp] theorem State.setFn_flt (f v : Nat) : (s.setFn f v).flt = s.flt := rfl
@[simp] theorem State.setFn_evr (f v : Nat) : (s.setFn f v).evr = s.evr := rfl
@[simp] theorem State.setFn_notices (f v : Nat) : (s.setFn f v).notices = s.notices := rfl
@[simp] theorem State.setFn_noticeNo (f v : Nat) : (s.setFn f v).noticeNo = s.noticeNo := rfl
@[simp] theorem State.setFn_pages (f v : Nat) : (s.setFn f v).pages = s.pages := rfl
@[simp] theorem State.setFn_heldWr (f v : Nat) : (s.setFn f v).heldWr = s.heldWr := rfl
@[simp] theorem State.setFn_waitRd (f v : Nat) : (s.setFn f v).waitRd = s.waitRd := rfl
@[simp] theorem State.setFn_order (f v : Nat) : (s.setFn f v).order = s.order := rfl
@[simp] theorem State.setFn_fab (f v : Nat) : (s.setFn f v).fab = s.fab := rfl
@[simp] theorem State.setFn_tor (f v : Nat) : (s.setFn f v).tor = s.tor := rfl
@[simp] theorem State.setFn_freeCtr (f v : Nat) : (s.setFn f v).freeCtr = s.freeCtr := rfl
@[simp] theorem State.setFn_out (f v : Nat) : (s.setFn f v).out = s.out := rfl
@[simp] theorem State.setFn_dark (f v : Nat) : (s.setFn f v).dark = s.dark := rfl
@[simp] theorem State.setFn_obs (f v : Nat) : (s.setFn f v).obs = s.obs := rfl
@[simp] theorem State.setFn_journal (f v : Nat) : (s.setFn f v).journal = s.journal := rfl
@[simp] theorem State.setFn_arr (f v : Nat) : (s.setFn f v).arr = s.arr := rfl
@[simp] theorem State.setFn_sump (f v : Nat) : (s.setFn f v).sump = s.sump := rfl
@[simp] theorem State.setFn_gathers (f v : Nat) : (s.setFn f v).gathers = s.gathers := rfl
@[simp] theorem State.setFn_rowsIn (f v : Nat) : (s.setFn f v).rowsIn = s.rowsIn := rfl
@[simp] theorem State.setFn_upd (f v : Nat) : (s.setFn f v).upd = s.upd := rfl
@[simp] theorem State.setFn_scrub (f v : Nat) : (s.setFn f v).scrub = s.scrub := rfl
@[simp] theorem State.setFn_ranks (f v : Nat) : (s.setFn f v).ranks = s.ranks := rfl
@[simp] theorem State.setFn_homes (f v : Nat) : (s.setFn f v).homes = s.homes := rfl
@[simp] theorem State.setFn_quar (f v : Nat) : (s.setFn f v).quar = s.quar := rfl
@[simp] theorem State.setFn_scan (f v : Nat) : (s.setFn f v).scan = s.scan := rfl
@[simp] theorem State.setFn_hang (f v : Nat) : (s.setFn f v).hang = s.hang := rfl
@[simp] theorem State.setFn_trelfort (f v : Nat) : (s.setFn f v).trelfort = s.trelfort := rfl
@[simp] theorem State.setFn_risk (f v : Nat) : (s.setFn f v).risk = s.risk := rfl
@[simp] theorem State.setFn_pwr (f v : Nat) : (s.setFn f v).pwr = s.pwr := rfl
@[simp] theorem State.setFn_caddy (f v : Nat) : (s.setFn f v).caddy = s.caddy := rfl

@[simp] theorem State.bumpGen_pending (f : Nat) : (s.bumpGen f).pending = s.pending := rfl
@[simp] theorem State.bumpGen_inForce (f : Nat) : (s.bumpGen f).inForce = s.inForce := rfl
@[simp] theorem State.bumpGen_genStale (f : Nat) : (s.bumpGen f).genStale = s.genStale := rfl
@[simp] theorem State.bumpGen_drainAt (f : Nat) : (s.bumpGen f).drainAt = s.drainAt := rfl
@[simp] theorem State.bumpGen_rrLast (f : Nat) : (s.bumpGen f).rrLast = s.rrLast := rfl
@[simp] theorem State.bumpGen_mem (f : Nat) : (s.bumpGen f).mem = s.mem := rfl
@[simp] theorem State.bumpGen_clk (f : Nat) : (s.bumpGen f).clk = s.clk := rfl
@[simp] theorem State.bumpGen_sq (f : Nat) : (s.bumpGen f).sq = s.sq := rfl
@[simp] theorem State.bumpGen_started (f : Nat) : (s.bumpGen f).started = s.started := rfl
@[simp] theorem State.bumpGen_unconf (f : Nat) : (s.bumpGen f).unconf = s.unconf := rfl
@[simp] theorem State.bumpGen_pcie (f : Nat) : (s.bumpGen f).pcie = s.pcie := rfl
@[simp] theorem State.bumpGen_flt (f : Nat) : (s.bumpGen f).flt = s.flt := rfl
@[simp] theorem State.bumpGen_evr (f : Nat) : (s.bumpGen f).evr = s.evr := rfl
@[simp] theorem State.bumpGen_notices (f : Nat) : (s.bumpGen f).notices = s.notices := rfl
@[simp] theorem State.bumpGen_noticeNo (f : Nat) : (s.bumpGen f).noticeNo = s.noticeNo := rfl
@[simp] theorem State.bumpGen_pages (f : Nat) : (s.bumpGen f).pages = s.pages := rfl
@[simp] theorem State.bumpGen_heldWr (f : Nat) : (s.bumpGen f).heldWr = s.heldWr := rfl
@[simp] theorem State.bumpGen_waitRd (f : Nat) : (s.bumpGen f).waitRd = s.waitRd := rfl
@[simp] theorem State.bumpGen_order (f : Nat) : (s.bumpGen f).order = s.order := rfl
@[simp] theorem State.bumpGen_fab (f : Nat) : (s.bumpGen f).fab = s.fab := rfl
@[simp] theorem State.bumpGen_tor (f : Nat) : (s.bumpGen f).tor = s.tor := rfl
@[simp] theorem State.bumpGen_freeCtr (f : Nat) : (s.bumpGen f).freeCtr = s.freeCtr := rfl
@[simp] theorem State.bumpGen_out (f : Nat) : (s.bumpGen f).out = s.out := rfl
@[simp] theorem State.bumpGen_dark (f : Nat) : (s.bumpGen f).dark = s.dark := rfl
@[simp] theorem State.bumpGen_obs (f : Nat) : (s.bumpGen f).obs = s.obs := rfl
@[simp] theorem State.bumpGen_journal (f : Nat) : (s.bumpGen f).journal = s.journal := rfl
@[simp] theorem State.bumpGen_arr (f : Nat) : (s.bumpGen f).arr = s.arr := rfl
@[simp] theorem State.bumpGen_sump (f : Nat) : (s.bumpGen f).sump = s.sump := rfl
@[simp] theorem State.bumpGen_gathers (f : Nat) : (s.bumpGen f).gathers = s.gathers := rfl
@[simp] theorem State.bumpGen_rowsIn (f : Nat) : (s.bumpGen f).rowsIn = s.rowsIn := rfl
@[simp] theorem State.bumpGen_upd (f : Nat) : (s.bumpGen f).upd = s.upd := rfl
@[simp] theorem State.bumpGen_scrub (f : Nat) : (s.bumpGen f).scrub = s.scrub := rfl
@[simp] theorem State.bumpGen_ranks (f : Nat) : (s.bumpGen f).ranks = s.ranks := rfl
@[simp] theorem State.bumpGen_homes (f : Nat) : (s.bumpGen f).homes = s.homes := rfl
@[simp] theorem State.bumpGen_quar (f : Nat) : (s.bumpGen f).quar = s.quar := rfl
@[simp] theorem State.bumpGen_scan (f : Nat) : (s.bumpGen f).scan = s.scan := rfl
@[simp] theorem State.bumpGen_hang (f : Nat) : (s.bumpGen f).hang = s.hang := rfl
@[simp] theorem State.bumpGen_trelfort (f : Nat) : (s.bumpGen f).trelfort = s.trelfort := rfl
@[simp] theorem State.bumpGen_risk (f : Nat) : (s.bumpGen f).risk = s.risk := rfl
@[simp] theorem State.bumpGen_pwr (f : Nat) : (s.bumpGen f).pwr = s.pwr := rfl
@[simp] theorem State.bumpGen_caddy (f : Nat) : (s.bumpGen f).caddy = s.caddy := rfl

@[simp] theorem State.emit_pending (x : Out) : (s.emit x).pending = s.pending := rfl
@[simp] theorem State.emit_regs (x : Out) : (s.emit x).regs = s.regs := rfl
@[simp] theorem State.emit_inForce (x : Out) : (s.emit x).inForce = s.inForce := rfl
@[simp] theorem State.emit_genStale (x : Out) : (s.emit x).genStale = s.genStale := rfl
@[simp] theorem State.emit_drainAt (x : Out) : (s.emit x).drainAt = s.drainAt := rfl
@[simp] theorem State.emit_rrLast (x : Out) : (s.emit x).rrLast = s.rrLast := rfl
@[simp] theorem State.emit_mem (x : Out) : (s.emit x).mem = s.mem := rfl
@[simp] theorem State.emit_clk (x : Out) : (s.emit x).clk = s.clk := rfl
@[simp] theorem State.emit_sq (x : Out) : (s.emit x).sq = s.sq := rfl
@[simp] theorem State.emit_started (x : Out) : (s.emit x).started = s.started := rfl
@[simp] theorem State.emit_unconf (x : Out) : (s.emit x).unconf = s.unconf := rfl
@[simp] theorem State.emit_pcie (x : Out) : (s.emit x).pcie = s.pcie := rfl
@[simp] theorem State.emit_flt (x : Out) : (s.emit x).flt = s.flt := rfl
@[simp] theorem State.emit_evr (x : Out) : (s.emit x).evr = s.evr := rfl
@[simp] theorem State.emit_notices (x : Out) : (s.emit x).notices = s.notices := rfl
@[simp] theorem State.emit_noticeNo (x : Out) : (s.emit x).noticeNo = s.noticeNo := rfl
@[simp] theorem State.emit_pages (x : Out) : (s.emit x).pages = s.pages := rfl
@[simp] theorem State.emit_heldWr (x : Out) : (s.emit x).heldWr = s.heldWr := rfl
@[simp] theorem State.emit_waitRd (x : Out) : (s.emit x).waitRd = s.waitRd := rfl
@[simp] theorem State.emit_order (x : Out) : (s.emit x).order = s.order := rfl
@[simp] theorem State.emit_fab (x : Out) : (s.emit x).fab = s.fab := rfl
@[simp] theorem State.emit_tor (x : Out) : (s.emit x).tor = s.tor := rfl
@[simp] theorem State.emit_freeCtr (x : Out) : (s.emit x).freeCtr = s.freeCtr := rfl
@[simp] theorem State.emit_dark (x : Out) : (s.emit x).dark = s.dark := rfl
@[simp] theorem State.emit_obs (x : Out) : (s.emit x).obs = s.obs := rfl
@[simp] theorem State.emit_journal (x : Out) : (s.emit x).journal = s.journal := rfl
@[simp] theorem State.emit_arr (x : Out) : (s.emit x).arr = s.arr := rfl
@[simp] theorem State.emit_sump (x : Out) : (s.emit x).sump = s.sump := rfl
@[simp] theorem State.emit_gathers (x : Out) : (s.emit x).gathers = s.gathers := rfl
@[simp] theorem State.emit_rowsIn (x : Out) : (s.emit x).rowsIn = s.rowsIn := rfl
@[simp] theorem State.emit_upd (x : Out) : (s.emit x).upd = s.upd := rfl
@[simp] theorem State.emit_scrub (x : Out) : (s.emit x).scrub = s.scrub := rfl
@[simp] theorem State.emit_ranks (x : Out) : (s.emit x).ranks = s.ranks := rfl
@[simp] theorem State.emit_homes (x : Out) : (s.emit x).homes = s.homes := rfl
@[simp] theorem State.emit_quar (x : Out) : (s.emit x).quar = s.quar := rfl
@[simp] theorem State.emit_scan (x : Out) : (s.emit x).scan = s.scan := rfl
@[simp] theorem State.emit_hang (x : Out) : (s.emit x).hang = s.hang := rfl
@[simp] theorem State.emit_trelfort (x : Out) : (s.emit x).trelfort = s.trelfort := rfl
@[simp] theorem State.emit_risk (x : Out) : (s.emit x).risk = s.risk := rfl
@[simp] theorem State.emit_pwr (x : Out) : (s.emit x).pwr = s.pwr := rfl
@[simp] theorem State.emit_caddy (x : Out) : (s.emit x).caddy = s.caddy := rfl

@[simp] theorem State.drew_pending (n : Nat) : (s.drew n).pending = s.pending := rfl
@[simp] theorem State.drew_regs (n : Nat) : (s.drew n).regs = s.regs := rfl
@[simp] theorem State.drew_inForce (n : Nat) : (s.drew n).inForce = s.inForce := rfl
@[simp] theorem State.drew_genStale (n : Nat) : (s.drew n).genStale = s.genStale := rfl
@[simp] theorem State.drew_drainAt (n : Nat) : (s.drew n).drainAt = s.drainAt := rfl
@[simp] theorem State.drew_rrLast (n : Nat) : (s.drew n).rrLast = s.rrLast := rfl
@[simp] theorem State.drew_mem (n : Nat) : (s.drew n).mem = s.mem := rfl
@[simp] theorem State.drew_clk (n : Nat) : (s.drew n).clk = s.clk := rfl
@[simp] theorem State.drew_sq (n : Nat) : (s.drew n).sq = s.sq := rfl
@[simp] theorem State.drew_started (n : Nat) : (s.drew n).started = s.started := rfl
@[simp] theorem State.drew_unconf (n : Nat) : (s.drew n).unconf = s.unconf := rfl
@[simp] theorem State.drew_pcie (n : Nat) : (s.drew n).pcie = s.pcie := rfl
@[simp] theorem State.drew_flt (n : Nat) : (s.drew n).flt = s.flt := rfl
@[simp] theorem State.drew_evr (n : Nat) : (s.drew n).evr = s.evr := rfl
@[simp] theorem State.drew_notices (n : Nat) : (s.drew n).notices = s.notices := rfl
@[simp] theorem State.drew_noticeNo (n : Nat) : (s.drew n).noticeNo = s.noticeNo := rfl
@[simp] theorem State.drew_pages (n : Nat) : (s.drew n).pages = s.pages := rfl
@[simp] theorem State.drew_heldWr (n : Nat) : (s.drew n).heldWr = s.heldWr := rfl
@[simp] theorem State.drew_waitRd (n : Nat) : (s.drew n).waitRd = s.waitRd := rfl
@[simp] theorem State.drew_order (n : Nat) : (s.drew n).order = s.order := rfl
@[simp] theorem State.drew_fab (n : Nat) : (s.drew n).fab = s.fab := rfl
@[simp] theorem State.drew_tor (n : Nat) : (s.drew n).tor = s.tor := rfl
@[simp] theorem State.drew_out (n : Nat) : (s.drew n).out = s.out := rfl
@[simp] theorem State.drew_dark (n : Nat) : (s.drew n).dark = s.dark := rfl
@[simp] theorem State.drew_obs (n : Nat) : (s.drew n).obs = s.obs := rfl
@[simp] theorem State.drew_journal (n : Nat) : (s.drew n).journal = s.journal := rfl
@[simp] theorem State.drew_arr (n : Nat) : (s.drew n).arr = s.arr := rfl
@[simp] theorem State.drew_sump (n : Nat) : (s.drew n).sump = s.sump := rfl
@[simp] theorem State.drew_gathers (n : Nat) : (s.drew n).gathers = s.gathers := rfl
@[simp] theorem State.drew_rowsIn (n : Nat) : (s.drew n).rowsIn = s.rowsIn := rfl
@[simp] theorem State.drew_upd (n : Nat) : (s.drew n).upd = s.upd := rfl
@[simp] theorem State.drew_scrub (n : Nat) : (s.drew n).scrub = s.scrub := rfl
@[simp] theorem State.drew_ranks (n : Nat) : (s.drew n).ranks = s.ranks := rfl
@[simp] theorem State.drew_homes (n : Nat) : (s.drew n).homes = s.homes := rfl
@[simp] theorem State.drew_quar (n : Nat) : (s.drew n).quar = s.quar := rfl
@[simp] theorem State.drew_scan (n : Nat) : (s.drew n).scan = s.scan := rfl
@[simp] theorem State.drew_hang (n : Nat) : (s.drew n).hang = s.hang := rfl
@[simp] theorem State.drew_trelfort (n : Nat) : (s.drew n).trelfort = s.trelfort := rfl
@[simp] theorem State.drew_risk (n : Nat) : (s.drew n).risk = s.risk := rfl
@[simp] theorem State.drew_pwr (n : Nat) : (s.drew n).pwr = s.pwr := rfl
@[simp] theorem State.drew_caddy (n : Nat) : (s.drew n).caddy = s.caddy := rfl

@[simp] theorem State.reach_pending (n : Nat) : (s.reach n).pending = s.pending := rfl
@[simp] theorem State.reach_regs (n : Nat) : (s.reach n).regs = s.regs := rfl
@[simp] theorem State.reach_inForce (n : Nat) : (s.reach n).inForce = s.inForce := rfl
@[simp] theorem State.reach_genStale (n : Nat) : (s.reach n).genStale = s.genStale := rfl
@[simp] theorem State.reach_drainAt (n : Nat) : (s.reach n).drainAt = s.drainAt := rfl
@[simp] theorem State.reach_rrLast (n : Nat) : (s.reach n).rrLast = s.rrLast := rfl
@[simp] theorem State.reach_mem (n : Nat) : (s.reach n).mem = s.mem := rfl
@[simp] theorem State.reach_sq (n : Nat) : (s.reach n).sq = s.sq := rfl
@[simp] theorem State.reach_started (n : Nat) : (s.reach n).started = s.started := rfl
@[simp] theorem State.reach_unconf (n : Nat) : (s.reach n).unconf = s.unconf := rfl
@[simp] theorem State.reach_pcie (n : Nat) : (s.reach n).pcie = s.pcie := rfl
@[simp] theorem State.reach_flt (n : Nat) : (s.reach n).flt = s.flt := rfl
@[simp] theorem State.reach_evr (n : Nat) : (s.reach n).evr = s.evr := rfl
@[simp] theorem State.reach_notices (n : Nat) : (s.reach n).notices = s.notices := rfl
@[simp] theorem State.reach_noticeNo (n : Nat) : (s.reach n).noticeNo = s.noticeNo := rfl
@[simp] theorem State.reach_pages (n : Nat) : (s.reach n).pages = s.pages := rfl
@[simp] theorem State.reach_heldWr (n : Nat) : (s.reach n).heldWr = s.heldWr := rfl
@[simp] theorem State.reach_waitRd (n : Nat) : (s.reach n).waitRd = s.waitRd := rfl
@[simp] theorem State.reach_order (n : Nat) : (s.reach n).order = s.order := rfl
@[simp] theorem State.reach_fab (n : Nat) : (s.reach n).fab = s.fab := rfl
@[simp] theorem State.reach_tor (n : Nat) : (s.reach n).tor = s.tor := rfl
@[simp] theorem State.reach_freeCtr (n : Nat) : (s.reach n).freeCtr = s.freeCtr := rfl
@[simp] theorem State.reach_out (n : Nat) : (s.reach n).out = s.out := rfl
@[simp] theorem State.reach_dark (n : Nat) : (s.reach n).dark = s.dark := rfl
@[simp] theorem State.reach_obs (n : Nat) : (s.reach n).obs = s.obs := rfl
@[simp] theorem State.reach_journal (n : Nat) : (s.reach n).journal = s.journal := rfl
@[simp] theorem State.reach_arr (n : Nat) : (s.reach n).arr = s.arr := rfl
@[simp] theorem State.reach_sump (n : Nat) : (s.reach n).sump = s.sump := rfl
@[simp] theorem State.reach_gathers (n : Nat) : (s.reach n).gathers = s.gathers := rfl
@[simp] theorem State.reach_rowsIn (n : Nat) : (s.reach n).rowsIn = s.rowsIn := rfl
@[simp] theorem State.reach_upd (n : Nat) : (s.reach n).upd = s.upd := rfl
@[simp] theorem State.reach_scrub (n : Nat) : (s.reach n).scrub = s.scrub := rfl
@[simp] theorem State.reach_ranks (n : Nat) : (s.reach n).ranks = s.ranks := rfl
@[simp] theorem State.reach_homes (n : Nat) : (s.reach n).homes = s.homes := rfl
@[simp] theorem State.reach_quar (n : Nat) : (s.reach n).quar = s.quar := rfl
@[simp] theorem State.reach_scan (n : Nat) : (s.reach n).scan = s.scan := rfl
@[simp] theorem State.reach_hang (n : Nat) : (s.reach n).hang = s.hang := rfl
@[simp] theorem State.reach_trelfort (n : Nat) : (s.reach n).trelfort = s.trelfort := rfl
@[simp] theorem State.reach_risk (n : Nat) : (s.reach n).risk = s.risk := rfl
@[simp] theorem State.reach_pwr (n : Nat) : (s.reach n).pwr = s.pwr := rfl
@[simp] theorem State.reach_caddy (n : Nat) : (s.reach n).caddy = s.caddy := rfl

@[simp] theorem State.setPort_pending (p : Nat) (v : Port) : (s.setPort p v).pending = s.pending := rfl
@[simp] theorem State.setPort_regs (p : Nat) (v : Port) : (s.setPort p v).regs = s.regs := rfl
@[simp] theorem State.setPort_inForce (p : Nat) (v : Port) : (s.setPort p v).inForce = s.inForce := rfl
@[simp] theorem State.setPort_genStale (p : Nat) (v : Port) : (s.setPort p v).genStale = s.genStale := rfl
@[simp] theorem State.setPort_drainAt (p : Nat) (v : Port) : (s.setPort p v).drainAt = s.drainAt := rfl
@[simp] theorem State.setPort_rrLast (p : Nat) (v : Port) : (s.setPort p v).rrLast = s.rrLast := rfl
@[simp] theorem State.setPort_mem (p : Nat) (v : Port) : (s.setPort p v).mem = s.mem := rfl
@[simp] theorem State.setPort_clk (p : Nat) (v : Port) : (s.setPort p v).clk = s.clk := rfl
@[simp] theorem State.setPort_sq (p : Nat) (v : Port) : (s.setPort p v).sq = s.sq := rfl
@[simp] theorem State.setPort_started (p : Nat) (v : Port) : (s.setPort p v).started = s.started := rfl
@[simp] theorem State.setPort_unconf (p : Nat) (v : Port) : (s.setPort p v).unconf = s.unconf := rfl
@[simp] theorem State.setPort_pcie (p : Nat) (v : Port) : (s.setPort p v).pcie = s.pcie := rfl
@[simp] theorem State.setPort_flt (p : Nat) (v : Port) : (s.setPort p v).flt = s.flt := rfl
@[simp] theorem State.setPort_evr (p : Nat) (v : Port) : (s.setPort p v).evr = s.evr := rfl
@[simp] theorem State.setPort_notices (p : Nat) (v : Port) : (s.setPort p v).notices = s.notices := rfl
@[simp] theorem State.setPort_noticeNo (p : Nat) (v : Port) : (s.setPort p v).noticeNo = s.noticeNo := rfl
@[simp] theorem State.setPort_pages (p : Nat) (v : Port) : (s.setPort p v).pages = s.pages := rfl
@[simp] theorem State.setPort_heldWr (p : Nat) (v : Port) : (s.setPort p v).heldWr = s.heldWr := rfl
@[simp] theorem State.setPort_waitRd (p : Nat) (v : Port) : (s.setPort p v).waitRd = s.waitRd := rfl
@[simp] theorem State.setPort_order (p : Nat) (v : Port) : (s.setPort p v).order = s.order := rfl
@[simp] theorem State.setPort_tor (p : Nat) (v : Port) : (s.setPort p v).tor = s.tor := rfl
@[simp] theorem State.setPort_freeCtr (p : Nat) (v : Port) : (s.setPort p v).freeCtr = s.freeCtr := rfl
@[simp] theorem State.setPort_out (p : Nat) (v : Port) : (s.setPort p v).out = s.out := rfl
@[simp] theorem State.setPort_dark (p : Nat) (v : Port) : (s.setPort p v).dark = s.dark := rfl
@[simp] theorem State.setPort_obs (p : Nat) (v : Port) : (s.setPort p v).obs = s.obs := rfl
@[simp] theorem State.setPort_journal (p : Nat) (v : Port) : (s.setPort p v).journal = s.journal := rfl
@[simp] theorem State.setPort_arr (p : Nat) (v : Port) : (s.setPort p v).arr = s.arr := rfl
@[simp] theorem State.setPort_sump (p : Nat) (v : Port) : (s.setPort p v).sump = s.sump := rfl
@[simp] theorem State.setPort_gathers (p : Nat) (v : Port) : (s.setPort p v).gathers = s.gathers := rfl
@[simp] theorem State.setPort_rowsIn (p : Nat) (v : Port) : (s.setPort p v).rowsIn = s.rowsIn := rfl
@[simp] theorem State.setPort_upd (p : Nat) (v : Port) : (s.setPort p v).upd = s.upd := rfl
@[simp] theorem State.setPort_scrub (p : Nat) (v : Port) : (s.setPort p v).scrub = s.scrub := rfl
@[simp] theorem State.setPort_ranks (p : Nat) (v : Port) : (s.setPort p v).ranks = s.ranks := rfl
@[simp] theorem State.setPort_homes (p : Nat) (v : Port) : (s.setPort p v).homes = s.homes := rfl
@[simp] theorem State.setPort_quar (p : Nat) (v : Port) : (s.setPort p v).quar = s.quar := rfl
@[simp] theorem State.setPort_scan (p : Nat) (v : Port) : (s.setPort p v).scan = s.scan := rfl
@[simp] theorem State.setPort_hang (p : Nat) (v : Port) : (s.setPort p v).hang = s.hang := rfl
@[simp] theorem State.setPort_trelfort (p : Nat) (v : Port) : (s.setPort p v).trelfort = s.trelfort := rfl
@[simp] theorem State.setPort_risk (p : Nat) (v : Port) : (s.setPort p v).risk = s.risk := rfl
@[simp] theorem State.setPort_pwr (p : Nat) (v : Port) : (s.setPort p v).pwr = s.pwr := rfl
@[simp] theorem State.setPort_caddy (p : Nat) (v : Port) : (s.setPort p v).caddy = s.caddy := rfl

@[simp] theorem State.setSq_pending (n : Nat) (v : SqSt) : (s.setSq n v).pending = s.pending := rfl
@[simp] theorem State.setSq_regs (n : Nat) (v : SqSt) : (s.setSq n v).regs = s.regs := rfl
@[simp] theorem State.setSq_inForce (n : Nat) (v : SqSt) : (s.setSq n v).inForce = s.inForce := rfl
@[simp] theorem State.setSq_genStale (n : Nat) (v : SqSt) : (s.setSq n v).genStale = s.genStale := rfl
@[simp] theorem State.setSq_drainAt (n : Nat) (v : SqSt) : (s.setSq n v).drainAt = s.drainAt := rfl
@[simp] theorem State.setSq_rrLast (n : Nat) (v : SqSt) : (s.setSq n v).rrLast = s.rrLast := rfl
@[simp] theorem State.setSq_mem (n : Nat) (v : SqSt) : (s.setSq n v).mem = s.mem := rfl
@[simp] theorem State.setSq_clk (n : Nat) (v : SqSt) : (s.setSq n v).clk = s.clk := rfl
@[simp] theorem State.setSq_started (n : Nat) (v : SqSt) : (s.setSq n v).started = s.started := rfl
@[simp] theorem State.setSq_unconf (n : Nat) (v : SqSt) : (s.setSq n v).unconf = s.unconf := rfl
@[simp] theorem State.setSq_pcie (n : Nat) (v : SqSt) : (s.setSq n v).pcie = s.pcie := rfl
@[simp] theorem State.setSq_flt (n : Nat) (v : SqSt) : (s.setSq n v).flt = s.flt := rfl
@[simp] theorem State.setSq_evr (n : Nat) (v : SqSt) : (s.setSq n v).evr = s.evr := rfl
@[simp] theorem State.setSq_notices (n : Nat) (v : SqSt) : (s.setSq n v).notices = s.notices := rfl
@[simp] theorem State.setSq_noticeNo (n : Nat) (v : SqSt) : (s.setSq n v).noticeNo = s.noticeNo := rfl
@[simp] theorem State.setSq_pages (n : Nat) (v : SqSt) : (s.setSq n v).pages = s.pages := rfl
@[simp] theorem State.setSq_heldWr (n : Nat) (v : SqSt) : (s.setSq n v).heldWr = s.heldWr := rfl
@[simp] theorem State.setSq_waitRd (n : Nat) (v : SqSt) : (s.setSq n v).waitRd = s.waitRd := rfl
@[simp] theorem State.setSq_order (n : Nat) (v : SqSt) : (s.setSq n v).order = s.order := rfl
@[simp] theorem State.setSq_fab (n : Nat) (v : SqSt) : (s.setSq n v).fab = s.fab := rfl
@[simp] theorem State.setSq_tor (n : Nat) (v : SqSt) : (s.setSq n v).tor = s.tor := rfl
@[simp] theorem State.setSq_freeCtr (n : Nat) (v : SqSt) : (s.setSq n v).freeCtr = s.freeCtr := rfl
@[simp] theorem State.setSq_out (n : Nat) (v : SqSt) : (s.setSq n v).out = s.out := rfl
@[simp] theorem State.setSq_dark (n : Nat) (v : SqSt) : (s.setSq n v).dark = s.dark := rfl
@[simp] theorem State.setSq_obs (n : Nat) (v : SqSt) : (s.setSq n v).obs = s.obs := rfl
@[simp] theorem State.setSq_journal (n : Nat) (v : SqSt) : (s.setSq n v).journal = s.journal := rfl
@[simp] theorem State.setSq_arr (n : Nat) (v : SqSt) : (s.setSq n v).arr = s.arr := rfl
@[simp] theorem State.setSq_sump (n : Nat) (v : SqSt) : (s.setSq n v).sump = s.sump := rfl
@[simp] theorem State.setSq_gathers (n : Nat) (v : SqSt) : (s.setSq n v).gathers = s.gathers := rfl
@[simp] theorem State.setSq_rowsIn (n : Nat) (v : SqSt) : (s.setSq n v).rowsIn = s.rowsIn := rfl
@[simp] theorem State.setSq_upd (n : Nat) (v : SqSt) : (s.setSq n v).upd = s.upd := rfl
@[simp] theorem State.setSq_scrub (n : Nat) (v : SqSt) : (s.setSq n v).scrub = s.scrub := rfl
@[simp] theorem State.setSq_ranks (n : Nat) (v : SqSt) : (s.setSq n v).ranks = s.ranks := rfl
@[simp] theorem State.setSq_homes (n : Nat) (v : SqSt) : (s.setSq n v).homes = s.homes := rfl
@[simp] theorem State.setSq_quar (n : Nat) (v : SqSt) : (s.setSq n v).quar = s.quar := rfl
@[simp] theorem State.setSq_scan (n : Nat) (v : SqSt) : (s.setSq n v).scan = s.scan := rfl
@[simp] theorem State.setSq_hang (n : Nat) (v : SqSt) : (s.setSq n v).hang = s.hang := rfl
@[simp] theorem State.setSq_trelfort (n : Nat) (v : SqSt) : (s.setSq n v).trelfort = s.trelfort := rfl
@[simp] theorem State.setSq_risk (n : Nat) (v : SqSt) : (s.setSq n v).risk = s.risk := rfl
@[simp] theorem State.setSq_pwr (n : Nat) (v : SqSt) : (s.setSq n v).pwr = s.pwr := rfl
@[simp] theorem State.setSq_caddy (n : Nat) (v : SqSt) : (s.setSq n v).caddy = s.caddy := rfl

/-- A delivered packet changes the fabric's list alone. -/
theorem State.deliver_eq (k : Packet) : s.deliver k = { s with fab := (s.deliver k).fab } := by
  unfold State.deliver
  split <;> rfl

@[simp] theorem State.deliver_pending (k : Packet) : (s.deliver k).pending = s.pending := congrArg (·.pending) (State.deliver_eq k)
@[simp] theorem State.deliver_regs (k : Packet) : (s.deliver k).regs = s.regs := congrArg (·.regs) (State.deliver_eq k)
@[simp] theorem State.deliver_inForce (k : Packet) : (s.deliver k).inForce = s.inForce := congrArg (·.inForce) (State.deliver_eq k)
@[simp] theorem State.deliver_genStale (k : Packet) : (s.deliver k).genStale = s.genStale := congrArg (·.genStale) (State.deliver_eq k)
@[simp] theorem State.deliver_drainAt (k : Packet) : (s.deliver k).drainAt = s.drainAt := congrArg (·.drainAt) (State.deliver_eq k)
@[simp] theorem State.deliver_rrLast (k : Packet) : (s.deliver k).rrLast = s.rrLast := congrArg (·.rrLast) (State.deliver_eq k)
@[simp] theorem State.deliver_mem (k : Packet) : (s.deliver k).mem = s.mem := congrArg (·.mem) (State.deliver_eq k)
@[simp] theorem State.deliver_clk (k : Packet) : (s.deliver k).clk = s.clk := congrArg (·.clk) (State.deliver_eq k)
@[simp] theorem State.deliver_sq (k : Packet) : (s.deliver k).sq = s.sq := congrArg (·.sq) (State.deliver_eq k)
@[simp] theorem State.deliver_started (k : Packet) : (s.deliver k).started = s.started := congrArg (·.started) (State.deliver_eq k)
@[simp] theorem State.deliver_unconf (k : Packet) : (s.deliver k).unconf = s.unconf := congrArg (·.unconf) (State.deliver_eq k)
@[simp] theorem State.deliver_pcie (k : Packet) : (s.deliver k).pcie = s.pcie := congrArg (·.pcie) (State.deliver_eq k)
@[simp] theorem State.deliver_flt (k : Packet) : (s.deliver k).flt = s.flt := congrArg (·.flt) (State.deliver_eq k)
@[simp] theorem State.deliver_evr (k : Packet) : (s.deliver k).evr = s.evr := congrArg (·.evr) (State.deliver_eq k)
@[simp] theorem State.deliver_notices (k : Packet) : (s.deliver k).notices = s.notices := congrArg (·.notices) (State.deliver_eq k)
@[simp] theorem State.deliver_noticeNo (k : Packet) : (s.deliver k).noticeNo = s.noticeNo := congrArg (·.noticeNo) (State.deliver_eq k)
@[simp] theorem State.deliver_pages (k : Packet) : (s.deliver k).pages = s.pages := congrArg (·.pages) (State.deliver_eq k)
@[simp] theorem State.deliver_heldWr (k : Packet) : (s.deliver k).heldWr = s.heldWr := congrArg (·.heldWr) (State.deliver_eq k)
@[simp] theorem State.deliver_waitRd (k : Packet) : (s.deliver k).waitRd = s.waitRd := congrArg (·.waitRd) (State.deliver_eq k)
@[simp] theorem State.deliver_order (k : Packet) : (s.deliver k).order = s.order := congrArg (·.order) (State.deliver_eq k)
@[simp] theorem State.deliver_tor (k : Packet) : (s.deliver k).tor = s.tor := congrArg (·.tor) (State.deliver_eq k)
@[simp] theorem State.deliver_freeCtr (k : Packet) : (s.deliver k).freeCtr = s.freeCtr := congrArg (·.freeCtr) (State.deliver_eq k)
@[simp] theorem State.deliver_out (k : Packet) : (s.deliver k).out = s.out := congrArg (·.out) (State.deliver_eq k)
@[simp] theorem State.deliver_dark (k : Packet) : (s.deliver k).dark = s.dark := congrArg (·.dark) (State.deliver_eq k)
@[simp] theorem State.deliver_obs (k : Packet) : (s.deliver k).obs = s.obs := congrArg (·.obs) (State.deliver_eq k)
@[simp] theorem State.deliver_journal (k : Packet) : (s.deliver k).journal = s.journal := congrArg (·.journal) (State.deliver_eq k)
@[simp] theorem State.deliver_arr (k : Packet) : (s.deliver k).arr = s.arr := congrArg (·.arr) (State.deliver_eq k)
@[simp] theorem State.deliver_sump (k : Packet) : (s.deliver k).sump = s.sump := congrArg (·.sump) (State.deliver_eq k)
@[simp] theorem State.deliver_gathers (k : Packet) : (s.deliver k).gathers = s.gathers := congrArg (·.gathers) (State.deliver_eq k)
@[simp] theorem State.deliver_rowsIn (k : Packet) : (s.deliver k).rowsIn = s.rowsIn := congrArg (·.rowsIn) (State.deliver_eq k)
@[simp] theorem State.deliver_upd (k : Packet) : (s.deliver k).upd = s.upd := congrArg (·.upd) (State.deliver_eq k)
@[simp] theorem State.deliver_scrub (k : Packet) : (s.deliver k).scrub = s.scrub := congrArg (·.scrub) (State.deliver_eq k)
@[simp] theorem State.deliver_ranks (k : Packet) : (s.deliver k).ranks = s.ranks := congrArg (·.ranks) (State.deliver_eq k)
@[simp] theorem State.deliver_homes (k : Packet) : (s.deliver k).homes = s.homes := congrArg (·.homes) (State.deliver_eq k)
@[simp] theorem State.deliver_quar (k : Packet) : (s.deliver k).quar = s.quar := congrArg (·.quar) (State.deliver_eq k)
@[simp] theorem State.deliver_scan (k : Packet) : (s.deliver k).scan = s.scan := congrArg (·.scan) (State.deliver_eq k)
@[simp] theorem State.deliver_hang (k : Packet) : (s.deliver k).hang = s.hang := congrArg (·.hang) (State.deliver_eq k)
@[simp] theorem State.deliver_trelfort (k : Packet) : (s.deliver k).trelfort = s.trelfort := congrArg (·.trelfort) (State.deliver_eq k)
@[simp] theorem State.deliver_risk (k : Packet) : (s.deliver k).risk = s.risk := congrArg (·.risk) (State.deliver_eq k)
@[simp] theorem State.deliver_pwr (k : Packet) : (s.deliver k).pwr = s.pwr := congrArg (·.pwr) (State.deliver_eq k)
@[simp] theorem State.deliver_caddy (k : Packet) : (s.deliver k).caddy = s.caddy := congrArg (·.caddy) (State.deliver_eq k)

@[simp] theorem State.emit_out (x : Out) : (s.emit x).out = s.out ++ [x] := rfl
@[simp] theorem State.drew_freeCtr (n : Nat) : (s.drew n).freeCtr = s.freeCtr + n := rfl
@[simp] theorem State.reach_now (n : Nat) : (s.reach n).clk.now = max s.clk.now n := rfl
@[simp] theorem State.reach_start (n : Nat) : (s.reach n).clk.start = s.clk.start := rfl
@[simp] theorem State.emit_reg (x : Out) (o : Nat) : (s.emit x).reg o = s.reg o := rfl
@[simp] theorem State.drew_reg (n o : Nat) : (s.drew n).reg o = s.reg o := rfl
@[simp] theorem State.reach_reg (n o : Nat) : (s.reach n).reg o = s.reg o := rfl
@[simp] theorem State.setPort_reg (p : Nat) (v : Port) (o : Nat) : (s.setPort p v).reg o = s.reg o := rfl
@[simp] theorem State.setSq_reg (n : Nat) (v : SqSt) (o : Nat) : (s.setSq n v).reg o = s.reg o := rfl
@[simp] theorem State.deliver_reg (k : Packet) (o : Nat) : (s.deliver k).reg o = s.reg o := congrArg (·.reg o) (State.deliver_eq k)
@[simp] theorem State.deliver_delivered (k : Packet) (h : knownKind k.kind = true) :
    (s.deliver k).fab.delivered = s.fab.delivered ++ [k] := by
  rw [State.deliver, if_pos h]

end Sys2Proof.Machine
end

