-- ==== Sys2Proof/Laws/Mem.lean ====
section
/-!
SUPPORT. Reads after writes of the memories: a byte written is read back, and every other byte is as it was.
-/
namespace Sys2Proof.Machine

open Sys2Proof

/-- What a byte of HBM or staging SRAM reads as after one is written. -/
theorem Mem.byte_setByte {m : Mem} (h : m.canon = true) {a x : Nat} {b : Byte} : (m.setByte a b).byte x = if x = a then b else m.byte x := by
  have h := memCanon_iff.mp h
  have hh := ((tblWf_iff hbmDefault).mp h.1).1
  have hs := ((tblWf_iff zeroByte).mp h.2.1).1
  unfold Mem.setByte Mem.byte
  generalize (2 : Nat) ^ 40 = top
  by_cases ha : a < top <;> by_cases hx : x < top
  · rw [if_pos ha, if_pos hx, if_pos hx, tblGet_put hbmDefault hh]
  · rw [if_pos ha, if_neg hx, if_neg hx, if_neg (by omega)]
  · rw [if_neg ha, if_pos hx, if_pos hx, if_neg (by omega)]
  · rw [if_neg ha, if_neg hx, if_neg hx, tblGet_put zeroByte hs]
    by_cases e : x = a
    · rw [if_pos e, if_pos (by rw [e])]
    · rw [if_neg e, if_neg (by omega)]

/-- What it reads as after bytes are written from place a on. -/
theorem Mem.byte_write {m : Mem} (h : m.canon = true) {a x : Nat} {d : List Byte} :
    (m.write a d).byte x = if a ≤ x ∧ x < a + d.length then d.getD (x - a) 0#8 else m.byte x := by
  induction d generalizing m a with
  | nil => rw [Mem.write, if_neg (by simp)]
  | cons b d ih =>
    rw [Mem.write, ih (memCanon_setByte h), Mem.byte_setByte h, List.length_cons]
    by_cases h1 : x = a
    · subst h1
      rw [if_neg (by omega), if_pos rfl, if_pos (by omega), Nat.sub_self]
      rfl
    · by_cases h2 : a + 1 ≤ x ∧ x < a + 1 + d.length
      · rw [if_pos h2, if_pos (by omega)]
        obtain ⟨k, hk⟩ : ∃ k, x - a = k + 1 := ⟨x - a - 1, by omega⟩
        rw [hk, show x - (a + 1) = k by omega]
        rfl
      · rw [if_neg h2, if_neg h1, if_neg (by omega)]

theorem Mem.byte_cleanse {m : Mem} {a n x : Nat} : (m.cleanse a n).byte x = m.byte x := rfl

/-- Places that a write does not touch read as before. -/
theorem Mem.read_write_off {m : Mem} (h : m.canon = true) {a x n : Nat} {d : List Byte} (hd : x + n ≤ a ∨ a + d.length ≤ x) :
    (m.write a d).read x n = m.read x n := by
  induction n generalizing x with
  | zero => rfl
  | succ n ih => rw [Mem.read, Mem.read, Mem.byte_write h, if_neg (by omega), ih (by omega)]

/-- What was written is read back. -/
theorem Mem.read_write {m : Mem} (h : m.canon = true) {a : Nat} {d : List Byte} : (m.write a d).read a d.length = d := by
  induction d generalizing m a with
  | nil => rfl
  | cons b d ih =>
    rw [List.length_cons, Mem.read, ih' h]
    rw [Mem.write, ih (memCanon_setByte h)]
where
  ih' {m : Mem} (h : m.canon = true) {a : Nat} {b : Byte} {d : List Byte} : (m.write a (b :: d)).byte a = b := by
    rw [Mem.byte_write h, if_pos (by rw [List.length_cons]; omega), Nat.sub_self]
    rfl

end Sys2Proof.Machine
end

