-- ==== Sys2Proof/Laws/Only.lean ====
section
/-!
SUPPORT. The relation `Only` (Safety.lean): states that agree on everything but some parts of the state.
-/
namespace Sys2Proof.Machine

open Sys2Proof

variable {p q : Parts} {s t u : State}

theorem Only.refl (p : Parts) (s : State) : Only p s s := rfl

theorem Only.trans (h : Only p s t) (k : Only p t u) : Only p s u := Eq.trans k h

/-- A change of fields that p blanks. -/
theorem Only.set {a1 a2 a3 a4 a5 a6 a7 a8 a9 a10 a11 a12 a13 a14 a15 a16 a17 a18 a19 a20 a21 a22 a23 a24 a25 a26 a27 a28 a29 a30 a31 a32 a33 a34 a35 a36 a37 a38 a39 a40 a41} (e : p.rest ⟨t.pending, a1, a2, a3, a4, a5, a6, a7, a8, a9, a10, a11, a12, a13, a14, a15, a16, a17, a18, a19, a20, a21, a22, a23, a24, a25, a26, a27, a28, a29, a30, a31, a32, a33, a34, a35, a36, a37, a38, a39, a40, a41⟩ = p.rest t) (h : Only p s t) :
    Only p s ⟨t.pending, a1, a2, a3, a4, a5, a6, a7, a8, a9, a10, a11, a12, a13, a14, a15, a16, a17, a18, a19, a20, a21, a22, a23, a24, a25, a26, a27, a28, a29, a30, a31, a32, a33, a34, a35, a36, a37, a38, a39, a40, a41⟩ := Eq.trans e h

theorem Only.set_iff {a1 a2 a3 a4 a5 a6 a7 a8 a9 a10 a11 a12 a13 a14 a15 a16 a17 a18 a19 a20 a21 a22 a23 a24 a25 a26 a27 a28 a29 a30 a31 a32 a33 a34 a35 a36 a37 a38 a39 a40 a41} (e : p.rest ⟨t.pending, a1, a2, a3, a4, a5, a6, a7, a8, a9, a10, a11, a12, a13, a14, a15, a16, a17, a18, a19, a20, a21, a22, a23, a24, a25, a26, a27, a28, a29, a30, a31, a32, a33, a34, a35, a36, a37, a38, a39, a40, a41⟩ = p.rest t) :
    Only p s ⟨t.pending, a1, a2, a3, a4, a5, a6, a7, a8, a9, a10, a11, a12, a13, a14, a15, a16, a17, a18, a19, a20, a21, a22, a23, a24, a25, a26, a27, a28, a29, a30, a31, a32, a33, a34, a35, a36, a37, a38, a39, a40, a41⟩ ↔ Only p s t := ⟨fun h => Eq.trans e.symm h, fun h => Eq.trans e h⟩

theorem Parts.same {a b : State} (h : a = b) : a = b := h

theorem Parts.leq {a b : Parts} (h : a.le b = true) : a.le b = true := h

/-- Field by field. -/
structure Parts.Agree (p : Parts) (s t : State) : Prop where
  pending : t.pending = s.pending
  regs : p.regs = false → t.regs = s.regs
  inForce : p.inForce = false → t.inForce = s.inForce
  genStale : p.genStale = false → t.genStale = s.genStale
  drainAt : p.drainAt = false → t.drainAt = s.drainAt
  rrLast : p.rrLast = false → t.rrLast = s.rrLast
  mem_hbm : p.hbm = false → t.mem.hbm = s.mem.hbm
  mem_staging : p.staging = false → t.mem.staging = s.mem.staging
  mem_trf : p.trf = false → t.mem.trf = s.mem.trf
  mem_hostW : p.hostW = false → t.mem.hostW = s.mem.hostW
  mem_flash0 : p.flash = false → t.mem.flash0 = s.mem.flash0
  mem_flash1 : p.flash = false → t.mem.flash1 = s.mem.flash1
  mem_stagTag : p.stagTag = false → t.mem.stagTag = s.mem.stagTag
  mem_poison : p.poison = false → t.mem.poison = s.mem.poison
  mem_scrubbed : p.poison = false → t.mem.scrubbed = s.mem.scrubbed
  mem_replaced : p.poison = false → t.mem.replaced = s.mem.replaced
  mem_dirty : p.dirty = false → t.mem.dirty = s.mem.dirty
  clk : p.clk = false → t.clk = s.clk
  sq : p.sq = false → t.sq = s.sq
  started : p.started = false → t.started = s.started
  unconf : p.unconf = false → t.unconf = s.unconf
  pcie : p.pcie = false → t.pcie = s.pcie
  flt : p.flt = false → t.flt = s.flt
  evr : p.evr = false → t.evr = s.evr
  notices : p.notices = false → t.notices = s.notices
  noticeNo : p.notices = false → t.noticeNo = s.noticeNo
  pages : p.pages = false → t.pages = s.pages
  heldWr : p.heldWr = false → t.heldWr = s.heldWr
  waitRd : p.waitRd = false → t.waitRd = s.waitRd
  order : p.order = false → t.order = s.order
  fab : p.fab = false → t.fab = s.fab
  tor : p.tor = false → t.tor = s.tor
  freeCtr : p.freeCtr = false → t.freeCtr = s.freeCtr
  out : p.out = false → t.out = s.out
  dark : p.dark = false → t.dark = s.dark
  obs : p.obs = false → t.obs = s.obs
  journal : p.journal = false → t.journal = s.journal
  arr : p.arr = false → t.arr = s.arr
  sump : p.sump = false → t.sump = s.sump
  gathers : p.gathers = false → t.gathers = s.gathers
  rowsIn : p.rowsIn = false → t.rowsIn = s.rowsIn
  upd : p.upd = false → t.upd = s.upd
  scrub : p.scrub = false → t.scrub = s.scrub
  ranks : p.ranks = false → t.ranks = s.ranks
  homes : p.homes = false → t.homes = s.homes
  quar : p.quar = false → t.quar = s.quar
  scan : p.scan = false → t.scan = s.scan
  hang : p.hang = false → t.hang = s.hang
  trelfort : p.trelfort = false → t.trelfort = s.trelfort
  risk : p.risk = false → t.risk = s.risk
  pwr : p.pwr = false → t.pwr = s.pwr
  caddy : p.caddy = false → t.caddy = s.caddy

theorem Parts.Agree.rest {u : State} (h : p.Agree t u) : p.rest u = p.rest t := by
  obtain ⟨h0, h1, h2, h3, h4, h5, h6, h7, h8, h9, h10, h11, h12, h13, h14, h15, h16, h17, h18, h19, h20, h21, h22, h23, h24, h25, h26, h27, h28, h29, h30, h31, h32, h33, h34, h35, h36, h37, h38, h39, h40, h41, h42, h43, h44, h45, h46, h47, h48, h49, h50, h51⟩ := h
  have H : ∀ {α : Type} {b : Bool} {d x y : α}, (b = false → x = y) → (bif b then d else x) = (bif b then d else y) := by
    intro α b d x y h; cases b
    · exact h rfl
    · rfl
  simp only [Parts.rest, Parts.restMem, h0, H h1, H h2, H h3, H h4, H h5, H h6, H h7, H h8, H h9, H h10, H h11, H h12, H h13, H h14, H h15, H h16, H h17, H h18, H h19, H h20, H h21, H h22, H h23, H h24, H h25, H h26, H h27, H h28, H h29, H h30, H h31, H h32, H h33, H h34, H h35, H h36, H h37, H h38, H h39, H h40, H h41, H h42, H h43, H h44, H h45, H h46, H h47, H h48, H h49, H h50, H h51]

/-- A change of the memories only. -/
theorem Only.setMem {m : Mem} (hm : p.restMem m = p.restMem t.mem) (h : Only p s t) : Only p s { t with mem := m } :=
  Eq.trans (by simp only [Parts.rest, hm]) h

theorem Parts.restMem_write {m : Mem} {a : Nat} {l : List Byte} (hh : p.hbm = true) (hs : p.staging = true) : p.restMem (m.write a l) = p.restMem m := by
  induction l generalizing m a with
  | nil => rfl
  | cons b l ih =>
    rw [Mem.write, ih, Mem.setByte]
    split <;> simp only [Parts.restMem, hh, hs, cond_true]

theorem Parts.restMem_cleanse {m : Mem} {a n : Nat} (hp : p.poison = true) : p.restMem (m.cleanse a n) = p.restMem m := by
  simp only [Mem.cleanse, Parts.restMem, hp, cond_true]

theorem cond_absorb {α : Type} {a b : Bool} {d x : α} (h : (!b || a) = true) : (bif a then d else bif b then d else x) = bif a then d else x := by
  cases a <;> cases b <;> simp_all

/-- What agrees on fewer parts less, agrees on more parts less. -/
theorem Parts.rest_rest (h : q.le p = true) : p.rest (q.rest s) = p.rest s := by
  simp only [Parts.le, Bool.and_eq_true] at h
  obtain ⟨⟨⟨⟨⟨⟨⟨⟨⟨⟨⟨⟨⟨⟨⟨⟨⟨⟨⟨⟨⟨⟨⟨⟨⟨⟨⟨⟨⟨⟨⟨⟨⟨⟨⟨⟨⟨⟨⟨⟨⟨⟨⟨⟨⟨⟨h1, h2⟩, h3⟩, h4⟩, h5⟩, h6⟩, h7⟩, h8⟩, h9⟩, h10⟩, h11⟩, h12⟩, h13⟩, h14⟩, h15⟩, h16⟩, h17⟩, h18⟩, h19⟩, h20⟩, h21⟩, h22⟩, h23⟩, h24⟩, h25⟩, h26⟩, h27⟩, h28⟩, h29⟩, h30⟩, h31⟩, h32⟩, h33⟩, h34⟩, h35⟩, h36⟩, h37⟩, h38⟩, h39⟩, h40⟩, h41⟩, h42⟩, h43⟩, h44⟩, h45⟩, h46⟩, h47⟩ := h
  simp only [Parts.rest, Parts.restMem, cond_absorb h1, cond_absorb h2, cond_absorb h3, cond_absorb h4, cond_absorb h5, cond_absorb h6, cond_absorb h7, cond_absorb h8, cond_absorb h9, cond_absorb h10, cond_absorb h11, cond_absorb h12, cond_absorb h13, cond_absorb h14, cond_absorb h15, cond_absorb h16, cond_absorb h17, cond_absorb h18, cond_absorb h19, cond_absorb h20, cond_absorb h21, cond_absorb h22, cond_absorb h23, cond_absorb h24, cond_absorb h25, cond_absorb h26, cond_absorb h27, cond_absorb h28, cond_absorb h29, cond_absorb h30, cond_absorb h31, cond_absorb h32, cond_absorb h33, cond_absorb h34, cond_absorb h35, cond_absorb h36, cond_absorb h37, cond_absorb h38, cond_absorb h39, cond_absorb h40, cond_absorb h41, cond_absorb h42, cond_absorb h43, cond_absorb h44, cond_absorb h45, cond_absorb h46, cond_absorb h47]

theorem Only.weaken (hq : q.le p = true) (h : Only q s t) : Only p s t := by
  rw [Only, ← Parts.rest_rest hq, h, Parts.rest_rest hq]

theorem Only.step (hq : q.le p = true) (h : Only p s t) (k : Only q t u) : Only p s u := h.trans (k.weaken hq)

theorem Parts.le_trans {r : Parts} (h : q.le r = true) (k : r.le p = true) : q.le p = true := by
  simp only [Parts.le, Bool.and_eq_true] at h k ⊢
  have H : ∀ {a b c : Bool}, (!a || b) = true → (!b || c) = true → (!a || c) = true := by decide
  obtain ⟨⟨⟨⟨⟨⟨⟨⟨⟨⟨⟨⟨⟨⟨⟨⟨⟨⟨⟨⟨⟨⟨⟨⟨⟨⟨⟨⟨⟨⟨⟨⟨⟨⟨⟨⟨⟨⟨⟨⟨⟨⟨⟨⟨⟨⟨h1, h2⟩, h3⟩, h4⟩, h5⟩, h6⟩, h7⟩, h8⟩, h9⟩, h10⟩, h11⟩, h12⟩, h13⟩, h14⟩, h15⟩, h16⟩, h17⟩, h18⟩, h19⟩, h20⟩, h21⟩, h22⟩, h23⟩, h24⟩, h25⟩, h26⟩, h27⟩, h28⟩, h29⟩, h30⟩, h31⟩, h32⟩, h33⟩, h34⟩, h35⟩, h36⟩, h37⟩, h38⟩, h39⟩, h40⟩, h41⟩, h42⟩, h43⟩, h44⟩, h45⟩, h46⟩, h47⟩ := h
  obtain ⟨⟨⟨⟨⟨⟨⟨⟨⟨⟨⟨⟨⟨⟨⟨⟨⟨⟨⟨⟨⟨⟨⟨⟨⟨⟨⟨⟨⟨⟨⟨⟨⟨⟨⟨⟨⟨⟨⟨⟨⟨⟨⟨⟨⟨⟨k1, k2⟩, k3⟩, k4⟩, k5⟩, k6⟩, k7⟩, k8⟩, k9⟩, k10⟩, k11⟩, k12⟩, k13⟩, k14⟩, k15⟩, k16⟩, k17⟩, k18⟩, k19⟩, k20⟩, k21⟩, k22⟩, k23⟩, k24⟩, k25⟩, k26⟩, k27⟩, k28⟩, k29⟩, k30⟩, k31⟩, k32⟩, k33⟩, k34⟩, k35⟩, k36⟩, k37⟩, k38⟩, k39⟩, k40⟩, k41⟩, k42⟩, k43⟩, k44⟩, k45⟩, k46⟩, k47⟩ := k
  exact ⟨⟨⟨⟨⟨⟨⟨⟨⟨⟨⟨⟨⟨⟨⟨⟨⟨⟨⟨⟨⟨⟨⟨⟨⟨⟨⟨⟨⟨⟨⟨⟨⟨⟨⟨⟨⟨⟨⟨⟨⟨⟨⟨⟨⟨⟨H h1 k1, H h2 k2⟩, H h3 k3⟩, H h4 k4⟩, H h5 k5⟩, H h6 k6⟩, H h7 k7⟩, H h8 k8⟩, H h9 k9⟩, H h10 k10⟩, H h11 k11⟩, H h12 k12⟩, H h13 k13⟩, H h14 k14⟩, H h15 k15⟩, H h16 k16⟩, H h17 k17⟩, H h18 k18⟩, H h19 k19⟩, H h20 k20⟩, H h21 k21⟩, H h22 k22⟩, H h23 k23⟩, H h24 k24⟩, H h25 k25⟩, H h26 k26⟩, H h27 k27⟩, H h28 k28⟩, H h29 k29⟩, H h30 k30⟩, H h31 k31⟩, H h32 k32⟩, H h33 k33⟩, H h34 k34⟩, H h35 k35⟩, H h36 k36⟩, H h37 k37⟩, H h38 k38⟩, H h39 k39⟩, H h40 k40⟩, H h41 k41⟩, H h42 k42⟩, H h43 k43⟩, H h44 k44⟩, H h45 k45⟩, H h46 k46⟩, H h47 k47⟩

/-! ### Folds, tuples, local definitions -/

theorem Only.foldl {α : Type} {f : State → α → State} {l : List α} (h : Only p s t) (hf : ∀ x a, Only p s x → Only p s (f x a)) :
    Only p s (l.foldl f t) := by
  induction l generalizing t with
  | nil => exact h
  | cons a l ih => exact ih (hf _ _ h)

theorem Only.foldr {α : Type} {f : α → State → State} {l : List α} (h : Only p s t) (hf : ∀ a x, Only p s x → Only p s (f a x)) :
    Only p s (l.foldr f t) := by
  induction l with
  | nil => exact h
  | cons a l ih => exact hf _ _ ih

theorem Only.foldl_fst {α β : Type} {f : State × β → α → State × β} {l : List α} {x : State × β} (h : Only p s x.1)
    (hf : ∀ x a, Only p s x.1 → Only p s (f x a).1) : Only p s (l.foldl f x).1 := by
  induction l generalizing x with
  | nil => exact h
  | cons a l ih => exact ih (hf _ _ h)

theorem Only.cut {x : State} {P : Prop} (k : Only p s x → P) (h : Only p s x) : P := k h
theorem Only.cut1 {β : Type} {x : State × β} {P : Prop} (k : Only p s x.1 → P) (h : Only p s x.1) : P := k h
theorem Only.cut2 {β : Type} {x : β × State} {P : Prop} (k : Only p s x.2 → P) (h : Only p s x.2) : P := k h
theorem Only.of_fst {β : Type} {r : State × β} {b : β} (e : r = (t, b)) (h : Only p s r.1) : Only p s t := by subst e; exact h
theorem Only.of_snd {β : Type} {r : β × State} {b : β} (e : r = (b, t)) (h : Only p s r.2) : Only p s t := by subst e; exact h
theorem Only.ite {c : Prop} [Decidable c] {a b : State} (ha : Only p s a) (hb : Only p s b) : Only p s (if c then a else b) := by
  split
  · exact ha
  · exact hb

theorem some_of_ite {α : Type} {c : Prop} [Decidable c] {x : Option α} {u : α} (e : (if c then x else none) = some u) : x = some u := by
  split at e
  · exact e
  · contradiction

theorem Only.foldChecks {α : Type} {f : State → α → State × Option Nat} {l : List α} (h : Only p s t)
    (hf : ∀ x a, Only p s x → Only p s (f x a).1) : Only p s (foldChecks t f l).1 := by
  induction l generalizing t with
  | nil => exact h
  | cons a l ih =>
    have ha := hf t a h
    rw [Sys2Proof.Machine.foldChecks]
    split
    · rename_i s' e; rw [e] at ha; exact ih ha
    · exact ha

/-! ### What is left alone -/

theorem Only.queue (h : Only p s t) : t.pending = s.pending := congrArg (·.pending) h

theorem Only.same_regs (h : Only p s t) (e : p.regs = false) : t.regs = s.regs := by
  have k := congrArg (·.regs) h
  simp only [Parts.rest, Parts.restMem, e, cond_false] at k
  exact k

theorem Only.same_inForce (h : Only p s t) (e : p.inForce = false) : t.inForce = s.inForce := by
  have k := congrArg (·.inForce) h
  simp only [Parts.rest, Parts.restMem, e, cond_false] at k
  exact k

theorem Only.same_genStale (h : Only p s t) (e : p.genStale = false) : t.genStale = s.genStale := by
  have k := congrArg (·.genStale) h
  simp only [Parts.rest, Parts.restMem, e, cond_false] at k
  exact k

theorem Only.same_drainAt (h : Only p s t) (e : p.drainAt = false) : t.drainAt = s.drainAt := by
  have k := congrArg (·.drainAt) h
  simp only [Parts.rest, Parts.restMem, e, cond_false] at k
  exact k

theorem Only.same_rrLast (h : Only p s t) (e : p.rrLast = false) : t.rrLast = s.rrLast := by
  have k := congrArg (·.rrLast) h
  simp only [Parts.rest, Parts.restMem, e, cond_false] at k
  exact k

theorem Only.same_mem_hbm (h : Only p s t) (e : p.hbm = false) : t.mem.hbm = s.mem.hbm := by
  have k := congrArg (·.mem.hbm) h
  simp only [Parts.rest, Parts.restMem, e, cond_false] at k
  exact k

theorem Only.same_mem_staging (h : Only p s t) (e : p.staging = false) : t.mem.staging = s.mem.staging := by
  have k := congrArg (·.mem.staging) h
  simp only [Parts.rest, Parts.restMem, e, cond_false] at k
  exact k

theorem Only.same_mem_trf (h : Only p s t) (e : p.trf = false) : t.mem.trf = s.mem.trf := by
  have k := congrArg (·.mem.trf) h
  simp only [Parts.rest, Parts.restMem, e, cond_false] at k
  exact k

theorem Only.same_mem_hostW (h : Only p s t) (e : p.hostW = false) : t.mem.hostW = s.mem.hostW := by
  have k := congrArg (·.mem.hostW) h
  simp only [Parts.rest, Parts.restMem, e, cond_false] at k
  exact k

theorem Only.same_mem_flash0 (h : Only p s t) (e : p.flash = false) : t.mem.flash0 = s.mem.flash0 := by
  have k := congrArg (·.mem.flash0) h
  simp only [Parts.rest, Parts.restMem, e, cond_false] at k
  exact k

theorem Only.same_mem_flash1 (h : Only p s t) (e : p.flash = false) : t.mem.flash1 = s.mem.flash1 := by
  have k := congrArg (·.mem.flash1) h
  simp only [Parts.rest, Parts.restMem, e, cond_false] at k
  exact k

theorem Only.same_mem_stagTag (h : Only p s t) (e : p.stagTag = false) : t.mem.stagTag = s.mem.stagTag := by
  have k := congrArg (·.mem.stagTag) h
  simp only [Parts.rest, Parts.restMem, e, cond_false] at k
  exact k

theorem Only.same_mem_poison (h : Only p s t) (e : p.poison = false) : t.mem.poison = s.mem.poison := by
  have k := congrArg (·.mem.poison) h
  simp only [Parts.rest, Parts.restMem, e, cond_false] at k
  exact k

theorem Only.same_mem_scrubbed (h : Only p s t) (e : p.poison = false) : t.mem.scrubbed = s.mem.scrubbed := by
  have k := congrArg (·.mem.scrubbed) h
  simp only [Parts.rest, Parts.restMem, e, cond_false] at k
  exact k

theorem Only.same_mem_replaced (h : Only p s t) (e : p.poison = false) : t.mem.replaced = s.mem.replaced := by
  have k := congrArg (·.mem.replaced) h
  simp only [Parts.rest, Parts.restMem, e, cond_false] at k
  exact k

theorem Only.same_mem_dirty (h : Only p s t) (e : p.dirty = false) : t.mem.dirty = s.mem.dirty := by
  have k := congrArg (·.mem.dirty) h
  simp only [Parts.rest, Parts.restMem, e, cond_false] at k
  exact k

theorem Only.same_clk (h : Only p s t) (e : p.clk = false) : t.clk = s.clk := by
  have k := congrArg (·.clk) h
  simp only [Parts.rest, Parts.restMem, e, cond_false] at k
  exact k

theorem Only.same_sq (h : Only p s t) (e : p.sq = false) : t.sq = s.sq := by
  have k := congrArg (·.sq) h
  simp only [Parts.rest, Parts.restMem, e, cond_false] at k
  exact k

theorem Only.same_started (h : Only p s t) (e : p.started = false) : t.started = s.started := by
  have k := congrArg (·.started) h
  simp only [Parts.rest, Parts.restMem, e, cond_false] at k
  exact k

theorem Only.same_unconf (h : Only p s t) (e : p.unconf = false) : t.unconf = s.unconf := by
  have k := congrArg (·.unconf) h
  simp only [Parts.rest, Parts.restMem, e, cond_false] at k
  exact k

theorem Only.same_pcie (h : Only p s t) (e : p.pcie = false) : t.pcie = s.pcie := by
  have k := congrArg (·.pcie) h
  simp only [Parts.rest, Parts.restMem, e, cond_false] at k
  exact k

theorem Only.same_flt (h : Only p s t) (e : p.flt = false) : t.flt = s.flt := by
  have k := congrArg (·.flt) h
  simp only [Parts.rest, Parts.restMem, e, cond_false] at k
  exact k

theorem Only.same_evr (h : Only p s t) (e : p.evr = false) : t.evr = s.evr := by
  have k := congrArg (·.evr) h
  simp only [Parts.rest, Parts.restMem, e, cond_false] at k
  exact k

theorem Only.same_notices (h : Only p s t) (e : p.notices = false) : t.notices = s.notices := by
  have k := congrArg (·.notices) h
  simp only [Parts.rest, Parts.restMem, e, cond_false] at k
  exact k

theorem Only.same_noticeNo (h : Only p s t) (e : p.notices = false) : t.noticeNo = s.noticeNo := by
  have k := congrArg (·.noticeNo) h
  simp only [Parts.rest, Parts.restMem, e, cond_false] at k
  exact k

theorem Only.same_pages (h : Only p s t) (e : p.pages = false) : t.pages = s.pages := by
  have k := congrArg (·.pages) h
  simp only [Parts.rest, Parts.restMem, e, cond_false] at k
  exact k

theorem Only.same_heldWr (h : Only p s t) (e : p.heldWr = false) : t.heldWr = s.heldWr := by
  have k := congrArg (·.heldWr) h
  simp only [Parts.rest, Parts.restMem, e, cond_false] at k
  exact k

theorem Only.same_waitRd (h : Only p s t) (e : p.waitRd = false) : t.waitRd = s.waitRd := by
  have k := congrArg (·.waitRd) h
  simp only [Parts.rest, Parts.restMem, e, cond_false] at k
  exact k

theorem Only.same_order (h : Only p s t) (e : p.order = false) : t.order = s.order := by
  have k := congrArg (·.order) h
  simp only [Parts.rest, Parts.restMem, e, cond_false] at k
  exact k

theorem Only.same_fab (h : Only p s t) (e : p.fab = false) : t.fab = s.fab := by
  have k := congrArg (·.fab) h
  simp only [Parts.rest, Parts.restMem, e, cond_false] at k
  exact k

theorem Only.same_tor (h : Only p s t) (e : p.tor = false) : t.tor = s.tor := by
  have k := congrArg (·.tor) h
  simp only [Parts.rest, Parts.restMem, e, cond_false] at k
  exact k

theorem Only.same_freeCtr (h : Only p s t) (e : p.freeCtr = false) : t.freeCtr = s.freeCtr := by
  have k := congrArg (·.freeCtr) h
  simp only [Parts.rest, Parts.restMem, e, cond_false] at k
  exact k

theorem Only.same_out (h : Only p s t) (e : p.out = false) : t.out = s.out := by
  have k := congrArg (·.out) h
  simp only [Parts.rest, Parts.restMem, e, cond_false] at k
  exact k

theorem Only.same_dark (h : Only p s t) (e : p.dark = false) : t.dark = s.dark := by
  have k := congrArg (·.dark) h
  simp only [Parts.rest, Parts.restMem, e, cond_false] at k
  exact k

theorem Only.same_obs (h : Only p s t) (e : p.obs = false) : t.obs = s.obs := by
  have k := congrArg (·.obs) h
  simp only [Parts.rest, Parts.restMem, e, cond_false] at k
  exact k

theorem Only.same_journal (h : Only p s t) (e : p.journal = false) : t.journal = s.journal := by
  have k := congrArg (·.journal) h
  simp only [Parts.rest, Parts.restMem, e, cond_false] at k
  exact k

theorem Only.same_arr (h : Only p s t) (e : p.arr = false) : t.arr = s.arr := by
  have k := congrArg (·.arr) h
  simp only [Parts.rest, Parts.restMem, e, cond_false] at k
  exact k

theorem Only.same_sump (h : Only p s t) (e : p.sump = false) : t.sump = s.sump := by
  have k := congrArg (·.sump) h
  simp only [Parts.rest, Parts.restMem, e, cond_false] at k
  exact k

theorem Only.same_gathers (h : Only p s t) (e : p.gathers = false) : t.gathers = s.gathers := by
  have k := congrArg (·.gathers) h
  simp only [Parts.rest, Parts.restMem, e, cond_false] at k
  exact k

theorem Only.same_rowsIn (h : Only p s t) (e : p.rowsIn = false) : t.rowsIn = s.rowsIn := by
  have k := congrArg (·.rowsIn) h
  simp only [Parts.rest, Parts.restMem, e, cond_false] at k
  exact k

theorem Only.same_upd (h : Only p s t) (e : p.upd = false) : t.upd = s.upd := by
  have k := congrArg (·.upd) h
  simp only [Parts.rest, Parts.restMem, e, cond_false] at k
  exact k

theorem Only.same_scrub (h : Only p s t) (e : p.scrub = false) : t.scrub = s.scrub := by
  have k := congrArg (·.scrub) h
  simp only [Parts.rest, Parts.restMem, e, cond_false] at k
  exact k

theorem Only.same_ranks (h : Only p s t) (e : p.ranks = false) : t.ranks = s.ranks := by
  have k := congrArg (·.ranks) h
  simp only [Parts.rest, Parts.restMem, e, cond_false] at k
  exact k

theorem Only.same_homes (h : Only p s t) (e : p.homes = false) : t.homes = s.homes := by
  have k := congrArg (·.homes) h
  simp only [Parts.rest, Parts.restMem, e, cond_false] at k
  exact k

theorem Only.same_quar (h : Only p s t) (e : p.quar = false) : t.quar = s.quar := by
  have k := congrArg (·.quar) h
  simp only [Parts.rest, Parts.restMem, e, cond_false] at k
  exact k

theorem Only.same_scan (h : Only p s t) (e : p.scan = false) : t.scan = s.scan := by
  have k := congrArg (·.scan) h
  simp only [Parts.rest, Parts.restMem, e, cond_false] at k
  exact k

theorem Only.same_hang (h : Only p s t) (e : p.hang = false) : t.hang = s.hang := by
  have k := congrArg (·.hang) h
  simp only [Parts.rest, Parts.restMem, e, cond_false] at k
  exact k

theorem Only.same_trelfort (h : Only p s t) (e : p.trelfort = false) : t.trelfort = s.trelfort := by
  have k := congrArg (·.trelfort) h
  simp only [Parts.rest, Parts.restMem, e, cond_false] at k
  exact k

theorem Only.same_risk (h : Only p s t) (e : p.risk = false) : t.risk = s.risk := by
  have k := congrArg (·.risk) h
  simp only [Parts.rest, Parts.restMem, e, cond_false] at k
  exact k

theorem Only.same_pwr (h : Only p s t) (e : p.pwr = false) : t.pwr = s.pwr := by
  have k := congrArg (·.pwr) h
  simp only [Parts.rest, Parts.restMem, e, cond_false] at k
  exact k

theorem Only.same_caddy (h : Only p s t) (e : p.caddy = false) : t.caddy = s.caddy := by
  have k := congrArg (·.caddy) h
  simp only [Parts.rest, Parts.restMem, e, cond_false] at k
  exact k

theorem Only.put_flt {x : Flt} (hp : p.flt = true) (h : Only p s t) : Only p s { t with flt := x } :=
  Only.set (Parts.Agree.rest (by constructor; rfl; all_goals (intro k; first | exact absurd (hp.symm.trans k) (by decide) | rfl))) h

theorem Only.put_obs {x : Obs} (hp : p.obs = true) (h : Only p s t) : Only p s { t with obs := x } :=
  Only.set (Parts.Agree.rest (by constructor; rfl; all_goals (intro k; first | exact absurd (hp.symm.trans k) (by decide) | rfl))) h

theorem Only.put_sump {x : Sump} (hp : p.sump = true) (h : Only p s t) : Only p s { t with sump := x } :=
  Only.set (Parts.Agree.rest (by constructor; rfl; all_goals (intro k; first | exact absurd (hp.symm.trans k) (by decide) | rfl))) h

end Sys2Proof.Machine
end

