-- ==== Sys2Proof/Laws/OnlyOps.lean ====
section
/-!
SUPPORT. Which parts of the state the operations of Machine/Ops.lean may change (Safety.lean).
-/
namespace Sys2Proof.Machine

open Sys2Proof

theorem State.setReg_only {p : Parts} {s t : State} {off : Nat} {w : Word} (hq : Parts.le { regs := true } p = true) (h : Only p s t) : Only p s (State.setReg t off w) := by
  refine Only.step hq h ?_
  unfold State.setReg
  repeat' first
    | with_reducible exact Only.refl _ _
    | ((with_reducible refine Parts.leq ?_); rfl)
    | simp (disch := with_unfolding_all (apply Parts.same; apply Eq.refl)) only [Only.set_iff]

theorem State.fput_only {p : Parts} {s t : State} {off : Nat} {f : Fld} {v : Nat} (hq : Parts.le { regs := true } p = true) (h : Only p s t) : Only p s (State.fput t off f v) := by
  refine Only.step hq h ?_
  unfold State.fput
  repeat' first
    | with_reducible exact Only.refl _ _
    | ((with_reducible refine Parts.leq ?_); rfl)
    | with_reducible apply State.setReg_only

theorem State.bump_only {p : Parts} {s t : State} {off : Nat} {f : Fld} {n : Nat} (hq : Parts.le { regs := true } p = true) (h : Only p s t) : Only p s (State.bump t off f n) := by
  refine Only.step hq h ?_
  unfold State.bump
  repeat' first
    | with_reducible exact Only.refl _ _
    | ((with_reducible refine Parts.leq ?_); rfl)
    | with_reducible apply State.fput_only

theorem State.count_only {p : Parts} {s t : State} {off : Nat} {f : Fld} {n : Nat} (hq : Parts.le { regs := true } p = true) (h : Only p s t) : Only p s (State.count t off f n) := by
  refine Only.step hq h ?_
  unfold State.count
  repeat' first
    | with_reducible exact Only.refl _ _
    | ((with_reducible refine Parts.leq ?_); rfl)
    | with_reducible apply State.fput_only

theorem State.lower_only {p : Parts} {s t : State} {off : Nat} {f : Fld} {n : Nat} (hq : Parts.le { regs := true } p = true) (h : Only p s t) : Only p s (State.lower t off f n) := by
  refine Only.step hq h ?_
  unfold State.lower
  repeat' first
    | with_reducible exact Only.refl _ _
    | ((with_reducible refine Parts.leq ?_); rfl)
    | with_reducible apply State.fput_only

theorem State.putBit_only {p : Parts} {s t : State} {off : Nat} {b : Nat} {v : Bool} (hq : Parts.le { regs := true } p = true) (h : Only p s t) : Only p s (State.putBit t off b v) := by
  refine Only.step hq h ?_
  unfold State.putBit
  repeat' first
    | with_reducible exact Only.refl _ _
    | ((with_reducible refine Parts.leq ?_); rfl)
    | with_reducible apply State.fput_only

theorem State.emit_only {p : Parts} {s t : State} {o : Out} (hq : Parts.le { out := true } p = true) (h : Only p s t) : Only p s (State.emit t o) := by
  refine Only.step hq h ?_
  unfold State.emit
  repeat' first
    | with_reducible exact Only.refl _ _
    | ((with_reducible refine Parts.leq ?_); rfl)
    | simp (disch := with_unfolding_all (apply Parts.same; apply Eq.refl)) only [Only.set_iff]

theorem State.drew_only {p : Parts} {s t : State} {n : Nat} (hq : Parts.le { freeCtr := true } p = true) (h : Only p s t) : Only p s (State.drew t n) := by
  refine Only.step hq h ?_
  unfold State.drew
  repeat' first
    | with_reducible exact Only.refl _ _
    | ((with_reducible refine Parts.leq ?_); rfl)
    | simp (disch := with_unfolding_all (apply Parts.same; apply Eq.refl)) only [Only.set_iff]

theorem State.evCount_only {p : Parts} {s t : State} {die : Nat} {ev : Nat} {n : Nat} {layer : Nat} {op : Nat} {qual : optParam (Nat → Bool) fun x => true} {check : optParam Bool false} (hq : Parts.le { obs := true } p = true) (h : Only p s t) : Only p s (State.evCount t die ev n layer op qual check) := by
  refine Only.step hq h ?_
  unfold State.evCount
  repeat' first
    | with_reducible exact Only.refl _ _
    | ((with_reducible refine Parts.leq ?_); rfl)
    | simp (disch := with_unfolding_all (apply Parts.same; apply Eq.refl)) only [Only.set_iff]
    | split

theorem State.setFn_only {p : Parts} {s t : State} {f : Nat} {st : Nat} (hq : Parts.le { regs := true } p = true) (h : Only p s t) : Only p s (State.setFn t f st) := by
  refine Only.step hq h ?_
  unfold State.setFn
  repeat' first
    | with_reducible exact Only.refl _ _
    | ((with_reducible refine Parts.leq ?_); rfl)
    | with_reducible apply State.fput_only

theorem State.bumpGen_only {p : Parts} {s t : State} {f : Nat} (hq : Parts.le { regs := true } p = true) (h : Only p s t) : Only p s (State.bumpGen t f) := by
  refine Only.step hq h ?_
  unfold State.bumpGen
  repeat' first
    | with_reducible exact Only.refl _ _
    | ((with_reducible refine Parts.leq ?_); rfl)
    | with_reducible apply State.fput_only

theorem State.reach_only {p : Parts} {s t : State} {instant : Nat} (hq : Parts.le { clk := true } p = true) (h : Only p s t) : Only p s (State.reach t instant) := by
  refine Only.step hq h ?_
  unfold State.reach
  repeat' first
    | with_reducible exact Only.refl _ _
    | ((with_reducible refine Parts.leq ?_); rfl)
    | simp (disch := with_unfolding_all (apply Parts.same; apply Eq.refl)) only [Only.set_iff]

theorem State.reachTime_only {p : Parts} {s t : State} {x1 : Int} (hq : Parts.le { clk := true } p = true) (h : Only p s t) : Only p s (State.reachTime t x1) := by
  refine Only.step hq h ?_
  unfold State.reachTime
  repeat' first
    | with_reducible exact Only.refl _ _
    | ((with_reducible refine Parts.leq ?_); rfl)
    | with_reducible apply State.reach_only
    | split

theorem State.reachNs_only {p : Parts} {s t : State} {v : Nat} (hq : Parts.le { clk := true } p = true) (h : Only p s t) : Only p s (State.reachNs t v) := by
  refine Only.step hq h ?_
  unfold State.reachNs
  repeat' first
    | with_reducible exact Only.refl _ _
    | ((with_reducible refine Parts.leq ?_); rfl)
    | with_reducible apply State.reach_only
    | split

theorem State.setDirty_only {p : Parts} {s t : State} {page : Nat} (hq : Parts.le { dirty := true } p = true) (h : Only p s t) : Only p s (State.setDirty t page) := by
  refine Only.step hq h ?_
  unfold State.setDirty
  repeat' first
    | with_reducible exact Only.refl _ _
    | ((with_reducible refine Parts.leq ?_); rfl)
    | simp (disch := with_unfolding_all (apply Parts.same; apply Eq.refl)) only [Only.set_iff]
    | split

theorem State.putTag_only {p : Parts} {s t : State} {page v : Nat} (hq : Parts.le { hbm := true, staging := true, stagTag := true } p = true) (h : Only p s t) : Only p s (State.putTag t page v) := by
  refine Only.step hq h ?_
  unfold State.putTag
  split
  · exact Only.setMem (Parts.restMem_write rfl rfl) (Only.refl _ _)
  · exact Only.set rfl (Only.refl _ _)

theorem State.setTag_only {p : Parts} {s t : State} {page : Nat} {x2 : Nat} (hq : Parts.le { hbm := true, staging := true, stagTag := true, dirty := true } p = true) (h : Only p s t) : Only p s (State.setTag t page x2) := by
  refine Only.step hq h ?_
  unfold State.setTag
  try dsimp -zeta only
  repeat' first
    | with_reducible assumption
    | with_reducible exact Only.refl _ _
    | ((with_reducible refine Parts.leq ?_); rfl)
    | with_reducible apply State.setDirty_only
    | with_reducible apply State.putTag_only
    | (extract_lets +onlyGivenNames x; first
        | (refine Only.cut (p := { hbm := true, staging := true, stagTag := true, dirty := true }) (s := t) (x := x) (fun hx => ?_) ?_; clear_value x; revert x; intro y hy; rotate_left; unfold x; clear x)
        | (refine Only.cut1 (p := { hbm := true, staging := true, stagTag := true, dirty := true }) (s := t) (x := x) (fun hx => ?_) ?_; clear_value x; revert x; intro y hy; rotate_left; unfold x; clear x)
        | (refine Only.cut2 (p := { hbm := true, staging := true, stagTag := true, dirty := true }) (s := t) (x := x) (fun hx => ?_) ?_; clear_value x; revert x; intro y hy; rotate_left; unfold x; clear x)
        | (revert x; intro y))
    | simp (disch := with_unfolding_all (apply Parts.same; apply Eq.refl)) only [Only.set_iff]
    | with_reducible apply Only.foldl
    | with_reducible apply Only.foldl_fst
    | (refine Only.of_fst ‹_ = _› ?_)
    | (refine Only.of_snd ‹_ = _› ?_)
    | split
    | (intro)

theorem State.openPage_only {p : Parts} {s t : State} {page : Nat} (hq : Parts.le { hbm := true, staging := true, stagTag := true, dirty := true } p = true) (h : Only p s t) : Only p s (State.openPage t page) := by
  refine Only.step hq h ?_
  unfold State.openPage
  try dsimp -zeta only
  repeat' first
    | with_reducible assumption
    | with_reducible exact Only.refl _ _
    | ((with_reducible refine Parts.leq ?_); rfl)
    | with_reducible apply State.setTag_only
    | (extract_lets +onlyGivenNames x; first
        | (refine Only.cut (p := { hbm := true, staging := true, stagTag := true, dirty := true }) (s := t) (x := x) (fun hx => ?_) ?_; clear_value x; revert x; intro y hy; rotate_left; unfold x; clear x)
        | (refine Only.cut1 (p := { hbm := true, staging := true, stagTag := true, dirty := true }) (s := t) (x := x) (fun hx => ?_) ?_; clear_value x; revert x; intro y hy; rotate_left; unfold x; clear x)
        | (refine Only.cut2 (p := { hbm := true, staging := true, stagTag := true, dirty := true }) (s := t) (x := x) (fun hx => ?_) ?_; clear_value x; revert x; intro y hy; rotate_left; unfold x; clear x)
        | (revert x; intro y))
    | simp (disch := with_unfolding_all (apply Parts.same; apply Eq.refl)) only [Only.set_iff]
    | with_reducible apply Only.foldl
    | with_reducible apply Only.foldl_fst
    | (refine Only.of_fst ‹_ = _› ?_)
    | (refine Only.of_snd ‹_ = _› ?_)
    | split
    | (intro)

theorem State.withdrawPage_only {p : Parts} {s t : State} {page : Nat} (hq : Parts.le { hbm := true, staging := true, stagTag := true, dirty := true } p = true) (h : Only p s t) : Only p s (State.withdrawPage t page) := by
  refine Only.step hq h ?_
  unfold State.withdrawPage
  try dsimp -zeta only
  repeat' first
    | with_reducible assumption
    | with_reducible exact Only.refl _ _
    | ((with_reducible refine Parts.leq ?_); rfl)
    | with_reducible apply State.setTag_only
    | (extract_lets +onlyGivenNames x; first
        | (refine Only.cut (p := { hbm := true, staging := true, stagTag := true, dirty := true }) (s := t) (x := x) (fun hx => ?_) ?_; clear_value x; revert x; intro y hy; rotate_left; unfold x; clear x)
        | (refine Only.cut1 (p := { hbm := true, staging := true, stagTag := true, dirty := true }) (s := t) (x := x) (fun hx => ?_) ?_; clear_value x; revert x; intro y hy; rotate_left; unfold x; clear x)
        | (refine Only.cut2 (p := { hbm := true, staging := true, stagTag := true, dirty := true }) (s := t) (x := x) (fun hx => ?_) ?_; clear_value x; revert x; intro y hy; rotate_left; unfold x; clear x)
        | (revert x; intro y))
    | simp (disch := with_unfolding_all (apply Parts.same; apply Eq.refl)) only [Only.set_iff]
    | with_reducible apply Only.foldl
    | with_reducible apply Only.foldl_fst
    | (refine Only.of_fst ‹_ = _› ?_)
    | (refine Only.of_snd ‹_ = _› ?_)
    | split
    | (intro)

theorem State.sealPage_only {p : Parts} {s t : State} {page : Nat} {fmt : Nat} {step : Nat} {bid : Nat} (hq : Parts.le { hbm := true, staging := true, stagTag := true, dirty := true } p = true) (h : Only p s t) : Only p s (State.sealPage t page fmt step bid) := by
  refine Only.step hq h ?_
  unfold State.sealPage
  try dsimp -zeta only
  repeat' first
    | with_reducible assumption
    | with_reducible exact Only.refl _ _
    | ((with_reducible refine Parts.leq ?_); rfl)
    | with_reducible apply State.setTag_only
    | (extract_lets +onlyGivenNames x; first
        | (refine Only.cut (p := { hbm := true, staging := true, stagTag := true, dirty := true }) (s := t) (x := x) (fun hx => ?_) ?_; clear_value x; revert x; intro y hy; rotate_left; unfold x; clear x)
        | (refine Only.cut1 (p := { hbm := true, staging := true, stagTag := true, dirty := true }) (s := t) (x := x) (fun hx => ?_) ?_; clear_value x; revert x; intro y hy; rotate_left; unfold x; clear x)
        | (refine Only.cut2 (p := { hbm := true, staging := true, stagTag := true, dirty := true }) (s := t) (x := x) (fun hx => ?_) ?_; clear_value x; revert x; intro y hy; rotate_left; unfold x; clear x)
        | (revert x; intro y))
    | simp (disch := with_unfolding_all (apply Parts.same; apply Eq.refl)) only [Only.set_iff]
    | with_reducible apply Only.foldl
    | with_reducible apply Only.foldl_fst
    | (refine Only.of_fst ‹_ = _› ?_)
    | (refine Only.of_snd ‹_ = _› ?_)
    | split
    | (intro)

theorem State.sealSump_only {p : Parts} {s t : State} {page : Nat} {fmt : Nat} {step : Nat} {bid : Nat} (hq : Parts.le { hbm := true, staging := true, stagTag := true } p = true) (h : Only p s t) : Only p s (State.sealSump t page fmt step bid) := by
  refine Only.step hq h ?_
  unfold State.sealSump
  try dsimp -zeta only
  repeat' first
    | with_reducible assumption
    | with_reducible exact Only.refl _ _
    | ((with_reducible refine Parts.leq ?_); rfl)
    | with_reducible apply State.putTag_only
    | (extract_lets +onlyGivenNames x; first
        | (refine Only.cut (p := { hbm := true, staging := true, stagTag := true }) (s := t) (x := x) (fun hx => ?_) ?_; clear_value x; revert x; intro y hy; rotate_left; unfold x; clear x)
        | (refine Only.cut1 (p := { hbm := true, staging := true, stagTag := true }) (s := t) (x := x) (fun hx => ?_) ?_; clear_value x; revert x; intro y hy; rotate_left; unfold x; clear x)
        | (refine Only.cut2 (p := { hbm := true, staging := true, stagTag := true }) (s := t) (x := x) (fun hx => ?_) ?_; clear_value x; revert x; intro y hy; rotate_left; unfold x; clear x)
        | (revert x; intro y))
    | simp (disch := with_unfolding_all (apply Parts.same; apply Eq.refl)) only [Only.set_iff]
    | with_reducible apply Only.foldl
    | with_reducible apply Only.foldl_fst
    | (refine Only.of_fst ‹_ = _› ?_)
    | (refine Only.of_snd ‹_ = _› ?_)
    | split
    | (intro)

theorem State.write_only {p : Parts} {s t : State} {a : Nat} {d : List Byte} (hq : Parts.le { hbm := true, staging := true, poison := true, dirty := true } p = true) (h : Only p s t) : Only p s (State.write t a d) := by
  refine Only.foldl ?_ (fun _ _ hx => State.setDirty_only (Parts.le_trans rfl hq) hx)
  exact Only.step hq h (Only.setMem ((Parts.restMem_cleanse rfl).trans (Parts.restMem_write rfl rfl)) (Only.refl _ _))

theorem State.tilerWritten_only {p : Parts} {s t : State} {a : Nat} {n : Nat} (hq : Parts.le { arr := true } p = true) (h : Only p s t) : Only p s (State.tilerWritten t a n) := by
  refine Only.step hq h ?_
  unfold State.tilerWritten
  try dsimp -zeta only
  repeat' first
    | with_reducible assumption
    | with_reducible exact Only.refl _ _
    | ((with_reducible refine Parts.leq ?_); rfl)
    | (extract_lets +onlyGivenNames x; first
        | (refine Only.cut (p := { arr := true }) (s := t) (x := x) (fun hx => ?_) ?_; clear_value x; revert x; intro y hy; rotate_left; unfold x; clear x)
        | (refine Only.cut1 (p := { arr := true }) (s := t) (x := x) (fun hx => ?_) ?_; clear_value x; revert x; intro y hy; rotate_left; unfold x; clear x)
        | (refine Only.cut2 (p := { arr := true }) (s := t) (x := x) (fun hx => ?_) ?_; clear_value x; revert x; intro y hy; rotate_left; unfold x; clear x)
        | (revert x; intro y))
    | simp (disch := with_unfolding_all (apply Parts.same; apply Eq.refl)) only [Only.set_iff]
    | with_reducible apply Only.foldl
    | with_reducible apply Only.foldl_fst
    | (refine Only.of_fst ‹_ = _› ?_)
    | (refine Only.of_snd ‹_ = _› ?_)
    | split
    | (intro)

theorem State.writePlain_only {p : Parts} {s t : State} {a : Nat} {d : List Byte} (hq : Parts.le (Parts.memory.or { arr := true }) p = true) (h : Only p s t) : Only p s (State.writePlain t a d) := by
  refine Only.step hq h ?_
  unfold State.writePlain
  try dsimp -zeta only
  repeat' first
    | with_reducible assumption
    | with_reducible exact Only.refl _ _
    | ((with_reducible refine Parts.leq ?_); rfl)
    | with_reducible apply State.openPage_only
    | with_reducible apply State.tilerWritten_only
    | with_reducible apply State.write_only
    | (extract_lets +onlyGivenNames x; first
        | (refine Only.cut (p := (Parts.memory.or { arr := true })) (s := t) (x := x) (fun hx => ?_) ?_; clear_value x; revert x; intro y hy; rotate_left; unfold x; clear x)
        | (refine Only.cut1 (p := (Parts.memory.or { arr := true })) (s := t) (x := x) (fun hx => ?_) ?_; clear_value x; revert x; intro y hy; rotate_left; unfold x; clear x)
        | (refine Only.cut2 (p := (Parts.memory.or { arr := true })) (s := t) (x := x) (fun hx => ?_) ?_; clear_value x; revert x; intro y hy; rotate_left; unfold x; clear x)
        | (revert x; intro y))
    | simp (disch := with_unfolding_all (apply Parts.same; apply Eq.refl)) only [Only.set_iff]
    | with_reducible apply Only.foldl
    | with_reducible apply Only.foldl_fst
    | (refine Only.of_fst ‹_ = _› ?_)
    | (refine Only.of_snd ‹_ = _› ?_)
    | split
    | (intro)

theorem State.writeSump_only {p : Parts} {s t : State} {a : Nat} {d : List Byte} (hq : Parts.le { hbm := true, staging := true, poison := true } p = true) (h : Only p s t) : Only p s (State.writeSump t a d) := by
  exact Only.step hq h (Only.setMem ((Parts.restMem_cleanse rfl).trans (Parts.restMem_write rfl rfl)) (Only.refl _ _))

theorem State.looseAt_only {p : Parts} {s t : State} {a : Nat} {n : Nat} (hq : Parts.le { hbm := true, staging := true, poison := true, freeCtr := true } p = true) (h : Only p s t) : Only p s (State.looseAt t a n) := by
  refine Only.step hq h ?_
  unfold State.looseAt
  try dsimp -zeta only
  repeat' first
    | with_reducible assumption
    | with_reducible exact Only.refl _ _
    | ((with_reducible refine Parts.leq ?_); rfl)
    | with_reducible apply State.writeSump_only
    | with_reducible apply State.drew_only
    | (extract_lets +onlyGivenNames x; first
        | (refine Only.cut (p := { hbm := true, staging := true, poison := true, freeCtr := true }) (s := t) (x := x) (fun hx => ?_) ?_; clear_value x; revert x; intro y hy; rotate_left; unfold x; clear x)
        | (refine Only.cut1 (p := { hbm := true, staging := true, poison := true, freeCtr := true }) (s := t) (x := x) (fun hx => ?_) ?_; clear_value x; revert x; intro y hy; rotate_left; unfold x; clear x)
        | (refine Only.cut2 (p := { hbm := true, staging := true, poison := true, freeCtr := true }) (s := t) (x := x) (fun hx => ?_) ?_; clear_value x; revert x; intro y hy; rotate_left; unfold x; clear x)
        | (revert x; intro y))
    | simp (disch := with_unfolding_all (apply Parts.same; apply Eq.refl)) only [Only.set_iff]
    | with_reducible apply Only.foldl
    | with_reducible apply Only.foldl_fst
    | (refine Only.of_fst ‹_ = _› ?_)
    | (refine Only.of_snd ‹_ = _› ?_)
    | split
    | (intro)

end Sys2Proof.Machine
end

