-- ==== Sys2Proof/Laws/OnlyRecord.lean ====
section
/-!
SUPPORT. Which parts of the state the operations of Machine/Record.lean may change (Safety.lean).
-/
namespace Sys2Proof.Machine

open Sys2Proof

theorem State.trfStore_only {p : Parts} {s t : State} {die : Nat} {off : Nat} {d : List Byte} (hq : Parts.le { trf := true, journal := true } p = true) (h : Only p s t) : Only p s (State.trfStore t die off d) := by
  refine Only.step hq h ?_
  unfold State.trfStore
  repeat' first
    | with_reducible exact Only.refl _ _
    | ((with_reducible refine Parts.leq ?_); rfl)
    | simp (disch := with_unfolding_all (apply Parts.same; apply Eq.refl)) only [Only.set_iff]
    | split

theorem State.record_only {p : Parts} {s t : State} {code : Nat} {cls : Nat} {sev : Nat} {time : Nat} {c : Ctx} (hq : Parts.le { regs := true, trf := true, flt := true, journal := true } p = true) (h : Only p s t) : Only p s (State.record t code cls sev time c) := by
  refine Only.step hq h ?_
  unfold State.record
  repeat' first
    | with_reducible exact Only.refl _ _
    | ((with_reducible refine Parts.leq ?_); rfl)
    | with_reducible apply State.count_only
    | with_reducible apply State.trfStore_only
    | with_reducible apply State.bump_only
    | simp (disch := with_unfolding_all (apply Parts.same; apply Eq.refl)) only [Only.set_iff]
    | split

theorem State.event_only {p : Parts} {s t : State} {code : Nat} {c : Ctx} (hq : Parts.le { regs := true, trf := true, flt := true, journal := true } p = true) (h : Only p s t) : Only p s (State.event t code c) := by
  refine Only.step hq h ?_
  unfold State.event
  repeat' first
    | with_reducible exact Only.refl _ _
    | ((with_reducible refine Parts.leq ?_); rfl)
    | with_reducible apply State.record_only

theorem State.armWhistle_only {p : Parts} {s t : State} {at_ : Nat} {action : Nat} (hq : Parts.le { regs := true, obs := true } p = true) (h : Only p s t) : Only p s (State.armWhistle t at_ action) := by
  refine Only.step hq h ?_
  unfold State.armWhistle
  repeat' first
    | with_reducible exact Only.refl _ _
    | ((with_reducible refine Parts.leq ?_); rfl)
    | with_reducible apply State.bump_only
    | with_reducible apply State.fput_only
    | simp (disch := with_unfolding_all (apply Parts.same; apply Eq.refl)) only [Only.set_iff]
    | split

theorem State.traceTrigger_only {p : Parts} {s t : State} {b : Nat} (hq : Parts.le { out := true, obs := true } p = true) (h : Only p s t) : Only p s (State.traceTrigger t b) := by
  refine Only.step hq h ?_
  unfold State.traceTrigger
  repeat' first
    | with_reducible exact Only.refl _ _
    | ((with_reducible refine Parts.leq ?_); rfl)
    | with_reducible apply State.emit_only
    | simp (disch := with_unfolding_all (apply Parts.same; apply Eq.refl)) only [Only.set_iff]
    | split

theorem State.notice_only {p : Parts} {s t : State} {kind : Nat} {cut : Nat} {record : List Byte} (hq : Parts.le { notices := true, out := true } p = true) (h : Only p s t) : Only p s (State.notice t kind cut record) := by
  refine Only.step hq h ?_
  unfold State.notice
  repeat' first
    | with_reducible exact Only.refl _ _
    | ((with_reducible refine Parts.leq ?_); rfl)
    | with_reducible apply State.emit_only
    | simp (disch := with_unfolding_all (apply Parts.same; apply Eq.refl)) only [Only.set_iff]

theorem State.limiterStart_only {p : Parts} {s t : State} {die : Nat} {cls : Nat} (hq : Parts.le { flt := true } p = true) (h : Only p s t) : Only p s (State.limiterStart t die cls) := by
  refine Only.step hq h ?_
  unfold State.limiterStart
  try dsimp -zeta only
  repeat' first
    | with_reducible assumption
    | with_reducible exact Only.refl _ _
    | ((with_reducible refine Parts.leq ?_); rfl)
    | (extract_lets +onlyGivenNames x; first
        | (refine Only.cut (p := { flt := true }) (s := t) (x := x) (fun hx => ?_) ?_; clear_value x; revert x; intro y hy; rotate_left; unfold x; clear x)
        | (refine Only.cut1 (p := { flt := true }) (s := t) (x := x) (fun hx => ?_) ?_; clear_value x; revert x; intro y hy; rotate_left; unfold x; clear x)
        | (refine Only.cut2 (p := { flt := true }) (s := t) (x := x) (fun hx => ?_) ?_; clear_value x; revert x; intro y hy; rotate_left; unfold x; clear x)
        | (revert x; intro y))
    | simp (disch := with_unfolding_all (apply Parts.same; apply Eq.refl)) only [Only.set_iff]
    | with_reducible apply Only.foldl
    | with_reducible apply Only.foldl_fst
    | (refine Only.of_fst ‹_ = _› ?_)
    | (refine Only.of_snd ‹_ = _› ?_)
    | split
    | (intro)

theorem State.reportLatest_only {p : Parts} {s t : State} {cls : Nat} {sev : Nat} {c : Ctx} (hq : Parts.le { flt := true } p = true) (h : Only p s t) : Only p s (State.reportLatest t cls sev c) := by
  refine Only.step hq h ?_
  unfold State.reportLatest
  try dsimp -zeta only
  repeat' first
    | with_reducible assumption
    | with_reducible exact Only.refl _ _
    | ((with_reducible refine Parts.leq ?_); rfl)
    | (extract_lets +onlyGivenNames x; first
        | (refine Only.cut (p := { flt := true }) (s := t) (x := x) (fun hx => ?_) ?_; clear_value x; revert x; intro y hy; rotate_left; unfold x; clear x)
        | (refine Only.cut1 (p := { flt := true }) (s := t) (x := x) (fun hx => ?_) ?_; clear_value x; revert x; intro y hy; rotate_left; unfold x; clear x)
        | (refine Only.cut2 (p := { flt := true }) (s := t) (x := x) (fun hx => ?_) ?_; clear_value x; revert x; intro y hy; rotate_left; unfold x; clear x)
        | (revert x; intro y))
    | simp (disch := with_unfolding_all (apply Parts.same; apply Eq.refl)) only [Only.set_iff]
    | with_reducible apply Only.foldl
    | with_reducible apply Only.foldl_fst
    | (refine Only.of_fst ‹_ = _› ?_)
    | (refine Only.of_snd ‹_ = _› ?_)
    | split
    | (intro)

theorem State.logReport_only {p : Parts} {s t : State} {acts : State → State} {cls : Nat} {sev : Nat} {c : Ctx} (hq : Parts.le { regs := true, trf := true, flt := true, journal := true } p = true) (h : Only p s t) (hacts : ∀ z, Only p s z → Only p s (acts z)) : Only p s (State.logReport acts t cls sev c) := by
  unfold State.logReport
  try dsimp -zeta only
  repeat' first
    | with_reducible assumption
    | with_reducible exact Only.refl _ _
    | ((with_reducible refine Parts.leq ?_); exact Parts.le_trans rfl hq)
    | apply hacts
    | with_reducible apply State.fput_only
    | with_reducible apply State.bump_only
    | with_reducible apply State.reportLatest_only
    | with_reducible apply State.limiterStart_only
    | with_reducible apply State.record_only
    | (extract_lets +onlyGivenNames x; first
        | (refine Only.cut (p := p) (s := s) (x := x) (fun hx => ?_) ?_; clear_value x; revert x; intro y hy; rotate_left; unfold x; clear x)
        | (refine Only.cut1 (p := p) (s := s) (x := x) (fun hx => ?_) ?_; clear_value x; revert x; intro y hy; rotate_left; unfold x; clear x)
        | (refine Only.cut2 (p := p) (s := s) (x := x) (fun hx => ?_) ?_; clear_value x; revert x; intro y hy; rotate_left; unfold x; clear x)
        | (revert x; intro y))
    | simp (disch := with_unfolding_all (apply Parts.same; apply Eq.refl)) only [Only.set_iff]
    | with_reducible apply Only.foldl
    | with_reducible apply Only.foldl_fst
    | (refine Only.of_fst ‹_ = _› ?_)
    | (refine Only.of_snd ‹_ = _› ?_)
    | split
    | (intro)

theorem State.faultWhistle_only {p : Parts} {s t : State} {sev : Nat} (hq : Parts.le { regs := true, trf := true, flt := true, obs := true, journal := true } p = true) (h : Only p s t) : Only p s (State.faultWhistle t sev) := by
  refine Only.step hq h ?_
  unfold State.faultWhistle
  try dsimp -zeta only
  repeat' first
    | with_reducible assumption
    | with_reducible exact Only.refl _ _
    | ((with_reducible refine Parts.leq ?_); rfl)
    | exact ‹_›
    | simp only [id_eq]
    | with_reducible apply State.logReport_only
    | with_reducible apply State.armWhistle_only
    | (extract_lets +onlyGivenNames x; first
        | (refine Only.cut (p := { regs := true, trf := true, flt := true, obs := true, journal := true }) (s := t) (x := x) (fun hx => ?_) ?_; clear_value x; revert x; intro y hy; rotate_left; unfold x; clear x)
        | (refine Only.cut1 (p := { regs := true, trf := true, flt := true, obs := true, journal := true }) (s := t) (x := x) (fun hx => ?_) ?_; clear_value x; revert x; intro y hy; rotate_left; unfold x; clear x)
        | (refine Only.cut2 (p := { regs := true, trf := true, flt := true, obs := true, journal := true }) (s := t) (x := x) (fun hx => ?_) ?_; clear_value x; revert x; intro y hy; rotate_left; unfold x; clear x)
        | (revert x; intro y))
    | simp (disch := with_unfolding_all (apply Parts.same; apply Eq.refl)) only [Only.set_iff]
    | with_reducible apply Only.foldl
    | with_reducible apply Only.foldl_fst
    | (refine Only.of_fst ‹_ = _› ?_)
    | (refine Only.of_snd ‹_ = _› ?_)
    | split
    | (intro)

theorem State.sevActions_only {p : Parts} {s t : State} {cls : Nat} {sev : Nat} {time : Nat} {c : Ctx} (hq : Parts.le Parts.report p = true) (h : Only p s t) : Only p s (State.sevActions t cls sev time c) := by
  refine Only.step hq h ?_
  unfold State.sevActions
  try dsimp -zeta only
  repeat' first
    | with_reducible assumption
    | with_reducible exact Only.refl _ _
    | ((with_reducible refine Parts.leq ?_); rfl)
    | with_reducible apply State.notice_only
    | with_reducible apply State.emit_only
    | with_reducible apply State.faultWhistle_only
    | with_reducible apply State.traceTrigger_only
    | (extract_lets +onlyGivenNames x; first
        | (refine Only.cut (p := Parts.report) (s := t) (x := x) (fun hx => ?_) ?_; clear_value x; revert x; intro y hy; rotate_left; unfold x; clear x)
        | (refine Only.cut1 (p := Parts.report) (s := t) (x := x) (fun hx => ?_) ?_; clear_value x; revert x; intro y hy; rotate_left; unfold x; clear x)
        | (refine Only.cut2 (p := Parts.report) (s := t) (x := x) (fun hx => ?_) ?_; clear_value x; revert x; intro y hy; rotate_left; unfold x; clear x)
        | (revert x; intro y))
    | simp (disch := with_unfolding_all (apply Parts.same; apply Eq.refl)) only [Only.set_iff]
    | with_reducible apply Only.foldl
    | with_reducible apply Only.foldl_fst
    | (refine Only.of_fst ‹_ = _› ?_)
    | (refine Only.of_snd ‹_ = _› ?_)
    | split
    | (intro)

theorem State.report_only {p : Parts} {s t : State} {cls : Nat} {sev : Nat} {c : Ctx} (hq : Parts.le Parts.report p = true) (h : Only p s t) : Only p s (State.report t cls sev c) := by
  refine Only.step hq h ?_
  unfold State.report
  try dsimp -zeta only
  repeat' first
    | with_reducible assumption
    | with_reducible exact Only.refl _ _
    | ((with_reducible refine Parts.leq ?_); rfl)
    | with_reducible apply State.logReport_only
    | with_reducible apply State.sevActions_only
    | (extract_lets +onlyGivenNames x; first
        | (refine Only.cut (p := Parts.report) (s := t) (x := x) (fun hx => ?_) ?_; clear_value x; revert x; intro y hy; rotate_left; unfold x; clear x)
        | (refine Only.cut1 (p := Parts.report) (s := t) (x := x) (fun hx => ?_) ?_; clear_value x; revert x; intro y hy; rotate_left; unfold x; clear x)
        | (refine Only.cut2 (p := Parts.report) (s := t) (x := x) (fun hx => ?_) ?_; clear_value x; revert x; intro y hy; rotate_left; unfold x; clear x)
        | (revert x; intro y))
    | simp (disch := with_unfolding_all (apply Parts.same; apply Eq.refl)) only [Only.set_iff]
    | with_reducible apply Only.foldl
    | with_reducible apply Only.foldl_fst
    | (refine Only.of_fst ‹_ = _› ?_)
    | (refine Only.of_snd ‹_ = _› ?_)
    | split
    | (intro)

theorem State.rejected_only {p : Parts} {s t : State} {off : Nat} {value : Nat} {fn : Option Nat} (hq : Parts.le Parts.report p = true) (h : Only p s t) : Only p s (State.rejected t off value fn) := by
  refine Only.step hq h ?_
  unfold State.rejected
  repeat' first
    | with_reducible exact Only.refl _ _
    | ((with_reducible refine Parts.leq ?_); rfl)
    | with_reducible apply State.report_only

theorem State.unmapped_only {p : Parts} {s t : State} {addr : Nat} {c : Ctx} (hq : Parts.le Parts.report p = true) (h : Only p s t) : Only p s (State.unmapped t addr c) := by
  refine Only.step hq h ?_
  unfold State.unmapped
  repeat' first
    | with_reducible exact Only.refl _ _
    | ((with_reducible refine Parts.leq ?_); rfl)
    | with_reducible apply State.report_only

theorem State.corrected_only {p : Parts} {s t : State} {subject : Nat} {n : Nat} (hq : Parts.le { flt := true } p = true) (h : Only p s t) : Only p s (State.corrected t subject n) := by
  refine Only.step hq h ?_
  unfold State.corrected
  repeat' first
    | with_reducible exact Only.refl _ _
    | ((with_reducible refine Parts.leq ?_); rfl)
    | simp (disch := with_unfolding_all (apply Parts.same; apply Eq.refl)) only [Only.set_iff]

theorem State.burstCorrected_only {p : Parts} {s t : State} {stack : Nat} (hq : Parts.le { regs := true, flt := true, obs := true } p = true) (h : Only p s t) : Only p s (State.burstCorrected t stack) := by
  refine Only.step hq h ?_
  unfold State.burstCorrected
  repeat' first
    | with_reducible exact Only.refl _ _
    | ((with_reducible refine Parts.leq ?_); rfl)
    | with_reducible apply State.corrected_only
    | with_reducible apply State.evCount_only
    | with_reducible apply State.bump_only

theorem State.eccRead_only {p : Parts} {s t : State} {burst : Nat} {x2 : Ecc} (hq : Parts.le { regs := true, poison := true, flt := true, obs := true } p = true) (h : Only p s t) : Only p s (State.eccRead t burst x2) := by
  refine Only.step hq h ?_
  unfold State.eccRead
  repeat' first
    | with_reducible exact Only.refl _ _
    | ((with_reducible refine Parts.leq ?_); rfl)
    | with_reducible apply State.burstCorrected_only
    | simp (disch := with_unfolding_all (apply Parts.same; apply Eq.refl)) only [Only.set_iff]
    | split

theorem State.eccAll_only {p : Parts} {s t : State} {ecc : EccFinds} (hq : Parts.le { regs := true, poison := true, flt := true, obs := true } p = true) (h : Only p s t) : Only p s (State.eccAll t ecc) := by
  refine Only.step hq h ?_
  unfold State.eccAll
  try dsimp -zeta only
  repeat' first
    | with_reducible assumption
    | with_reducible exact Only.refl _ _
    | ((with_reducible refine Parts.leq ?_); rfl)
    | with_reducible apply State.eccRead_only
    | (extract_lets +onlyGivenNames x; first
        | (refine Only.cut (p := { regs := true, poison := true, flt := true, obs := true }) (s := t) (x := x) (fun hx => ?_) ?_; clear_value x; revert x; intro y hy; rotate_left; unfold x; clear x)
        | (refine Only.cut1 (p := { regs := true, poison := true, flt := true, obs := true }) (s := t) (x := x) (fun hx => ?_) ?_; clear_value x; revert x; intro y hy; rotate_left; unfold x; clear x)
        | (refine Only.cut2 (p := { regs := true, poison := true, flt := true, obs := true }) (s := t) (x := x) (fun hx => ?_) ?_; clear_value x; revert x; intro y hy; rotate_left; unfold x; clear x)
        | (revert x; intro y))
    | simp (disch := with_unfolding_all (apply Parts.same; apply Eq.refl)) only [Only.set_iff]
    | with_reducible apply Only.foldl
    | with_reducible apply Only.foldl_fst
    | (refine Only.of_fst ‹_ = _› ?_)
    | (refine Only.of_snd ‹_ = _› ?_)
    | split
    | (intro)

theorem State.setRole_only {p : Parts} {s t : State} {d : Nat} {r : Nat} (hq : Parts.le { regs := true } p = true) (h : Only p s t) : Only p s (State.setRole t d r) := by
  refine Only.step hq h ?_
  unfold State.setRole
  repeat' first
    | with_reducible exact Only.refl _ _
    | ((with_reducible refine Parts.leq ?_); rfl)
    | with_reducible apply State.fput_only

theorem State.changeRole_only {p : Parts} {s t : State} {d : Nat} {r : Nat} (hq : Parts.le { regs := true, trf := true, flt := true, journal := true } p = true) (h : Only p s t) : Only p s (State.changeRole t d r) := by
  refine Only.step hq h ?_
  unfold State.changeRole
  repeat' first
    | with_reducible exact Only.refl _ _
    | ((with_reducible refine Parts.leq ?_); rfl)
    | with_reducible apply State.event_only
    | with_reducible apply State.setRole_only
    | split

theorem State.showPower_only {p : Parts} {s t : State}  (hq : Parts.le { regs := true } p = true) (h : Only p s t) : Only p s (State.showPower t) := by
  refine Only.step hq h ?_
  unfold State.showPower
  repeat' first
    | with_reducible exact Only.refl _ _
    | ((with_reducible refine Parts.leq ?_); rfl)
    | with_reducible apply State.fput_only

theorem State.setEff_only {p : Parts} {s t : State}  (hq : Parts.le { regs := true } p = true) (h : Only p s t) : Only p s (State.setEff t) := by
  refine Only.step hq h ?_
  unfold State.setEff
  repeat' first
    | with_reducible exact Only.refl _ _
    | ((with_reducible refine Parts.leq ?_); rfl)
    | with_reducible apply State.showPower_only
    | with_reducible apply State.fput_only
    | split

theorem State.clockCells_only {p : Parts} {s t : State}  (hq : Parts.le { regs := true, pwr := true } p = true) (h : Only p s t) : Only p s (State.clockCells t) := by
  refine Only.step hq h ?_
  unfold State.clockCells
  repeat' first
    | with_reducible exact Only.refl _ _
    | ((with_reducible refine Parts.leq ?_); rfl)
    | with_reducible apply State.showPower_only
    | simp (disch := with_unfolding_all (apply Parts.same; apply Eq.refl)) only [Only.set_iff]
    | split

theorem State.setTime_only {p : Parts} {s t : State} {st : Nat} (hq : Parts.le { regs := true, trf := true, flt := true, journal := true } p = true) (h : Only p s t) : Only p s (State.setTime t st) := by
  refine Only.step hq h ?_
  unfold State.setTime
  try dsimp -zeta only
  repeat' first
    | with_reducible assumption
    | with_reducible exact Only.refl _ _
    | ((with_reducible refine Parts.leq ?_); rfl)
    | with_reducible apply State.setReg_only
    | with_reducible apply State.fput_only
    | with_reducible apply State.bump_only
    | with_reducible apply State.event_only
    | (extract_lets +onlyGivenNames x; first
        | (refine Only.cut (p := { regs := true, trf := true, flt := true, journal := true }) (s := t) (x := x) (fun hx => ?_) ?_; clear_value x; revert x; intro y hy; rotate_left; unfold x; clear x)
        | (refine Only.cut1 (p := { regs := true, trf := true, flt := true, journal := true }) (s := t) (x := x) (fun hx => ?_) ?_; clear_value x; revert x; intro y hy; rotate_left; unfold x; clear x)
        | (refine Only.cut2 (p := { regs := true, trf := true, flt := true, journal := true }) (s := t) (x := x) (fun hx => ?_) ?_; clear_value x; revert x; intro y hy; rotate_left; unfold x; clear x)
        | (revert x; intro y))
    | simp (disch := with_unfolding_all (apply Parts.same; apply Eq.refl)) only [Only.set_iff]
    | with_reducible apply Only.foldl
    | with_reducible apply Only.foldl_fst
    | (refine Only.of_fst ‹_ = _› ?_)
    | (refine Only.of_snd ‹_ = _› ?_)
    | split
    | (intro)

theorem State.ptpApplied_only {p : Parts} {s t : State}  (hq : Parts.le { regs := true, trf := true, flt := true, journal := true } p = true) (h : Only p s t) : Only p s (State.ptpApplied t) := by
  refine Only.step hq h ?_
  unfold State.ptpApplied
  repeat' first
    | with_reducible exact Only.refl _ _
    | ((with_reducible refine Parts.leq ?_); rfl)
    | with_reducible apply State.setTime_only
    | split

end Sys2Proof.Machine
end

