-- ==== Sys2Proof/Laws/OnlyTorus.lean ====
section
/-!
SUPPORT. Which parts of the state the operations of Machine/Torus.lean may change (Safety.lean).
-/
namespace Sys2Proof.Machine

open Sys2Proof

theorem State.bridgeCarries_only {p : Parts} {s t : State} {n : Nat} {i : Nat} (hq : Parts.le { tor := true } p = true) (h : Only p s t) : Only p s (State.bridgeCarries t n i) := by
  refine Only.step hq h ?_
  unfold State.bridgeCarries
  try dsimp -zeta only
  repeat' first
    | with_reducible assumption
    | with_reducible exact Only.refl _ _
    | ((with_reducible refine Parts.leq ?_); rfl)
    | (extract_lets +onlyGivenNames x; first
        | (refine Only.cut (p := { tor := true }) (s := t) (x := x) (fun hx => ?_) ?_; clear_value x; revert x; intro y hy; rotate_left; unfold x; clear x)
        | (refine Only.cut1 (p := { tor := true }) (s := t) (x := x) (fun hx => ?_) ?_; clear_value x; revert x; intro y hy; rotate_left; unfold x; clear x)
        | (refine Only.cut2 (p := { tor := true }) (s := t) (x := x) (fun hx => ?_) ?_; clear_value x; revert x; intro y hy; rotate_left; unfold x; clear x)
        | (revert x; intro y))
    | simp (disch := with_unfolding_all (apply Parts.same; apply Eq.refl)) only [Only.set_iff]
    | with_reducible apply Only.foldl
    | with_reducible apply Only.foldl_fst
    | (refine Only.of_fst ‹_ = _› ?_)
    | (refine Only.of_snd ‹_ = _› ?_)
    | split
    | (intro)

theorem State.switchPasses_only {p : Parts} {s t : State} {r : Nat} (hq : Parts.le { tor := true } p = true) (h : Only p s t) : Only p s (State.switchPasses t r) := by
  refine Only.step hq h ?_
  unfold State.switchPasses
  try dsimp -zeta only
  repeat' first
    | with_reducible assumption
    | with_reducible exact Only.refl _ _
    | ((with_reducible refine Parts.leq ?_); rfl)
    | (extract_lets +onlyGivenNames x; first
        | (refine Only.cut (p := { tor := true }) (s := t) (x := x) (fun hx => ?_) ?_; clear_value x; revert x; intro y hy; rotate_left; unfold x; clear x)
        | (refine Only.cut1 (p := { tor := true }) (s := t) (x := x) (fun hx => ?_) ?_; clear_value x; revert x; intro y hy; rotate_left; unfold x; clear x)
        | (refine Only.cut2 (p := { tor := true }) (s := t) (x := x) (fun hx => ?_) ?_; clear_value x; revert x; intro y hy; rotate_left; unfold x; clear x)
        | (revert x; intro y))
    | simp (disch := with_unfolding_all (apply Parts.same; apply Eq.refl)) only [Only.set_iff]
    | with_reducible apply Only.foldl
    | with_reducible apply Only.foldl_fst
    | (refine Only.of_fst ‹_ = _› ?_)
    | (refine Only.of_snd ‹_ = _› ?_)
    | split
    | (intro)

theorem State.cross_only {p : Parts} {s t : State} {a : Nat} {b : Nat} {n : Nat} (hq : Parts.le { tor := true } p = true) (h : Only p s t) : Only p s (State.cross t a b n) := by
  refine Only.step hq h ?_
  unfold State.cross
  try dsimp -zeta only
  repeat' first
    | with_reducible assumption
    | with_reducible exact Only.refl _ _
    | ((with_reducible refine Parts.leq ?_); rfl)
    | with_reducible apply State.bridgeCarries_only
    | with_reducible apply State.switchPasses_only
    | (extract_lets +onlyGivenNames x; first
        | (refine Only.cut (p := { tor := true }) (s := t) (x := x) (fun hx => ?_) ?_; clear_value x; revert x; intro y hy; rotate_left; unfold x; clear x)
        | (refine Only.cut1 (p := { tor := true }) (s := t) (x := x) (fun hx => ?_) ?_; clear_value x; revert x; intro y hy; rotate_left; unfold x; clear x)
        | (refine Only.cut2 (p := { tor := true }) (s := t) (x := x) (fun hx => ?_) ?_; clear_value x; revert x; intro y hy; rotate_left; unfold x; clear x)
        | (revert x; intro y))
    | simp (disch := with_unfolding_all (apply Parts.same; apply Eq.refl)) only [Only.set_iff]
    | with_reducible apply Only.foldl
    | with_reducible apply Only.foldl_fst
    | (refine Only.of_fst ‹_ = _› ?_)
    | (refine Only.of_snd ‹_ = _› ?_)
    | split
    | (intro)

theorem State.crossTo_only {p : Parts} {s t : State} {a : Nat} {n : Nat} {x3 : Loc} (hq : Parts.le { tor := true } p = true) (h : Only p s t) : Only p s (State.crossTo t a n x3) := by
  refine Only.step hq h ?_
  unfold State.crossTo
  try dsimp -zeta only
  repeat' first
    | with_reducible assumption
    | with_reducible exact Only.refl _ _
    | ((with_reducible refine Parts.leq ?_); rfl)
    | with_reducible apply State.cross_only
    | with_reducible apply State.bridgeCarries_only
    | (extract_lets +onlyGivenNames x; first
        | (refine Only.cut (p := { tor := true }) (s := t) (x := x) (fun hx => ?_) ?_; clear_value x; revert x; intro y hy; rotate_left; unfold x; clear x)
        | (refine Only.cut1 (p := { tor := true }) (s := t) (x := x) (fun hx => ?_) ?_; clear_value x; revert x; intro y hy; rotate_left; unfold x; clear x)
        | (refine Only.cut2 (p := { tor := true }) (s := t) (x := x) (fun hx => ?_) ?_; clear_value x; revert x; intro y hy; rotate_left; unfold x; clear x)
        | (revert x; intro y))
    | simp (disch := with_unfolding_all (apply Parts.same; apply Eq.refl)) only [Only.set_iff]
    | with_reducible apply Only.foldl
    | with_reducible apply Only.foldl_fst
    | (refine Only.of_fst ‹_ = _› ?_)
    | (refine Only.of_snd ‹_ = _› ?_)
    | split
    | (intro)

end Sys2Proof.Machine
end

