-- ==== Sys2Proof/Laws/OnlyRoute.lean ====
section
/-!
SUPPORT. Which parts of the state the operations of Machine/Route.lean may change (Safety.lean).
-/
namespace Sys2Proof.Machine

open Sys2Proof

theorem State.setPort_only {p : Parts} {s t : State} {x1 : Nat} {v : Port} (hq : Parts.le { fab := true } p = true) (h : Only p s t) : Only p s (State.setPort t x1 v) := by
  refine Only.step hq h ?_
  unfold State.setPort
  repeat' first
    | with_reducible exact Only.refl _ _
    | ((with_reducible refine Parts.leq ?_); rfl)
    | simp (disch := with_unfolding_all (apply Parts.same; apply Eq.refl)) only [Only.set_iff]

theorem State.enqueue_only {p : Parts} {s t : State} {x1 : Nat} {k : Packet} {from_ : Option Nat} {inCls : Nat} {ahead : Bool} (hq : Parts.le { fab := true } p = true) (h : Only p s t) : Only p s (State.enqueue t x1 k from_ inCls ahead) := by
  refine Only.step hq h ?_
  unfold State.enqueue
  try dsimp -zeta only
  repeat' first
    | with_reducible assumption
    | with_reducible exact Only.refl _ _
    | ((with_reducible refine Parts.leq ?_); rfl)
    | with_reducible apply State.setPort_only
    | (extract_lets +onlyGivenNames x; first
        | (refine Only.cut (p := { fab := true }) (s := t) (x := x) (fun hx => ?_) ?_; clear_value x; revert x; intro y hy; rotate_left; unfold x; clear x)
        | (refine Only.cut1 (p := { fab := true }) (s := t) (x := x) (fun hx => ?_) ?_; clear_value x; revert x; intro y hy; rotate_left; unfold x; clear x)
        | (refine Only.cut2 (p := { fab := true }) (s := t) (x := x) (fun hx => ?_) ?_; clear_value x; revert x; intro y hy; rotate_left; unfold x; clear x)
        | (revert x; intro y))
    | simp (disch := with_unfolding_all (apply Parts.same; apply Eq.refl)) only [Only.set_iff]
    | with_reducible apply Only.foldl
    | with_reducible apply Only.foldl_fst
    | (refine Only.of_fst ‹_ = _› ?_)
    | (refine Only.of_snd ‹_ = _› ?_)
    | split
    | (intro)

theorem State.deliver_only {p : Parts} {s t : State} {k : Packet} (hq : Parts.le { fab := true } p = true) (h : Only p s t) : Only p s (State.deliver t k) := by
  refine Only.step hq h ?_
  unfold State.deliver
  try dsimp -zeta only
  repeat' first
    | with_reducible assumption
    | with_reducible exact Only.refl _ _
    | ((with_reducible refine Parts.leq ?_); rfl)
    | (extract_lets +onlyGivenNames x; first
        | (refine Only.cut (p := { fab := true }) (s := t) (x := x) (fun hx => ?_) ?_; clear_value x; revert x; intro y hy; rotate_left; unfold x; clear x)
        | (refine Only.cut1 (p := { fab := true }) (s := t) (x := x) (fun hx => ?_) ?_; clear_value x; revert x; intro y hy; rotate_left; unfold x; clear x)
        | (refine Only.cut2 (p := { fab := true }) (s := t) (x := x) (fun hx => ?_) ?_; clear_value x; revert x; intro y hy; rotate_left; unfold x; clear x)
        | (revert x; intro y))
    | simp (disch := with_unfolding_all (apply Parts.same; apply Eq.refl)) only [Only.set_iff]
    | with_reducible apply Only.foldl
    | with_reducible apply Only.foldl_fst
    | (refine Only.of_fst ‹_ = _› ?_)
    | (refine Only.of_snd ‹_ = _› ?_)
    | split
    | (intro)

theorem State.toPort_only {p : Parts} {s t : State} {r : Nat} {x2 : Nat} {n : Nat} {starts : Bool} (hq : Parts.le { tor := true } p = true) (h : Only p s t) : Only p s (State.toPort t r x2 n starts) := by
  refine Only.step hq h ?_
  unfold State.toPort
  try dsimp -zeta only
  repeat' first
    | with_reducible assumption
    | with_reducible exact Only.refl _ _
    | ((with_reducible refine Parts.leq ?_); rfl)
    | with_reducible apply State.bridgeCarries_only
    | with_reducible apply State.cross_only
    | (extract_lets +onlyGivenNames x; first
        | (refine Only.cut (p := { tor := true }) (s := t) (x := x) (fun hx => ?_) ?_; clear_value x; revert x; intro y hy; rotate_left; unfold x; clear x)
        | (refine Only.cut1 (p := { tor := true }) (s := t) (x := x) (fun hx => ?_) ?_; clear_value x; revert x; intro y hy; rotate_left; unfold x; clear x)
        | (refine Only.cut2 (p := { tor := true }) (s := t) (x := x) (fun hx => ?_) ?_; clear_value x; revert x; intro y hy; rotate_left; unfold x; clear x)
        | (revert x; intro y))
    | simp (disch := with_unfolding_all (apply Parts.same; apply Eq.refl)) only [Only.set_iff]
    | with_reducible apply Only.foldl
    | with_reducible apply Only.foldl_fst
    | (refine Only.of_fst ‹_ = _› ?_)
    | (refine Only.of_snd ‹_ = _› ?_)
    | split
    | (intro)

theorem State.tryForward_only {p : Parts} {s t u : State} {r : Nat} {k : Packet} {from_ : Option Nat} {ahead : optParam Bool false} (hq : Parts.le { fab := true, tor := true } p = true) (h : Only p s t) (e : State.tryForward t r k from_ ahead = some u) : Only p s u := by
  refine Only.step hq h ?_
  unfold State.tryForward at e
  split at e <;> first | contradiction | (injection e with e; subst e)
  try dsimp -zeta only
  repeat' first
    | with_reducible assumption
    | with_reducible exact Only.refl _ _
    | ((with_reducible refine Parts.leq ?_); rfl)
    | with_reducible apply State.enqueue_only
    | with_reducible apply State.toPort_only
    | (extract_lets +onlyGivenNames x; first
        | (refine Only.cut (p := { fab := true, tor := true }) (s := t) (x := x) (fun hx => ?_) ?_; clear_value x; revert x; intro y hy; rotate_left; unfold x; clear x)
        | (refine Only.cut1 (p := { fab := true, tor := true }) (s := t) (x := x) (fun hx => ?_) ?_; clear_value x; revert x; intro y hy; rotate_left; unfold x; clear x)
        | (refine Only.cut2 (p := { fab := true, tor := true }) (s := t) (x := x) (fun hx => ?_) ?_; clear_value x; revert x; intro y hy; rotate_left; unfold x; clear x)
        | (revert x; intro y))
    | simp (disch := with_unfolding_all (apply Parts.same; apply Eq.refl)) only [Only.set_iff]
    | with_reducible apply Only.foldl
    | with_reducible apply Only.foldl_fst
    | (refine Only.of_fst ‹_ = _› ?_)
    | (refine Only.of_snd ‹_ = _› ?_)
    | split
    | (intro)

theorem State.discardPacket_only {p : Parts} {s t : State} {r : Nat} {k : Packet} (hq : Parts.le { regs := true, fab := true, tor := true } p = true) (h : Only p s t) : Only p s (State.discardPacket t r k) := by
  refine Only.step hq h ?_
  unfold State.discardPacket
  try dsimp -zeta only
  repeat' first
    | with_reducible assumption
    | with_reducible exact Only.refl _ _
    | ((with_reducible refine Parts.leq ?_); rfl)
    | with_reducible apply State.bump_only
    | with_reducible apply State.deliver_only
    | refine State.tryForward_only ?_ ?_ ‹_›
    | refine State.tryForward_only ?_ ?_ (some_of_ite ‹_›)
    | (extract_lets +onlyGivenNames x; first
        | (refine Only.cut (p := { regs := true, fab := true, tor := true }) (s := t) (x := x) (fun hx => ?_) ?_; clear_value x; revert x; intro y hy; rotate_left; unfold x; clear x)
        | (refine Only.cut1 (p := { regs := true, fab := true, tor := true }) (s := t) (x := x) (fun hx => ?_) ?_; clear_value x; revert x; intro y hy; rotate_left; unfold x; clear x)
        | (refine Only.cut2 (p := { regs := true, fab := true, tor := true }) (s := t) (x := x) (fun hx => ?_) ?_; clear_value x; revert x; intro y hy; rotate_left; unfold x; clear x)
        | (revert x; intro y))
    | simp (disch := with_unfolding_all (apply Parts.same; apply Eq.refl)) only [Only.set_iff]
    | with_reducible apply Only.foldl
    | with_reducible apply Only.foldl_fst
    | (refine Only.of_fst ‹_ = _› ?_)
    | (refine Only.of_snd ‹_ = _› ?_)
    | split
    | (intro)

theorem State.forward_only {p : Parts} {s t : State} {r : Nat} {k : Packet} {from_ : Option Nat} (hq : Parts.le { regs := true, fab := true, tor := true } p = true) (h : Only p s t) : Only p s (State.forward t r k from_) := by
  refine Only.step hq h ?_
  unfold State.forward
  try dsimp -zeta only
  repeat' first
    | with_reducible assumption
    | with_reducible exact Only.refl _ _
    | ((with_reducible refine Parts.leq ?_); rfl)
    | refine State.tryForward_only ?_ ?_ ‹_›
    | refine State.tryForward_only ?_ ?_ (some_of_ite ‹_›)
    | with_reducible apply State.discardPacket_only
    | (extract_lets +onlyGivenNames x; first
        | (refine Only.cut (p := { regs := true, fab := true, tor := true }) (s := t) (x := x) (fun hx => ?_) ?_; clear_value x; revert x; intro y hy; rotate_left; unfold x; clear x)
        | (refine Only.cut1 (p := { regs := true, fab := true, tor := true }) (s := t) (x := x) (fun hx => ?_) ?_; clear_value x; revert x; intro y hy; rotate_left; unfold x; clear x)
        | (refine Only.cut2 (p := { regs := true, fab := true, tor := true }) (s := t) (x := x) (fun hx => ?_) ?_; clear_value x; revert x; intro y hy; rotate_left; unfold x; clear x)
        | (revert x; intro y))
    | simp (disch := with_unfolding_all (apply Parts.same; apply Eq.refl)) only [Only.set_iff]
    | with_reducible apply Only.foldl
    | with_reducible apply Only.foldl_fst
    | (refine Only.of_fst ‹_ = _› ?_)
    | (refine Only.of_snd ‹_ = _› ?_)
    | split
    | (intro)

theorem State.send_only {p : Parts} {s t : State} {r : Nat} {k : Packet} (hq : Parts.le { regs := true, fab := true, tor := true } p = true) (h : Only p s t) : Only p s (State.send t r k) := by
  refine Only.step hq h ?_
  unfold State.send
  try dsimp -zeta only
  repeat' first
    | with_reducible assumption
    | with_reducible exact Only.refl _ _
    | ((with_reducible refine Parts.leq ?_); rfl)
    | with_reducible apply State.deliver_only
    | with_reducible apply State.forward_only
    | (extract_lets +onlyGivenNames x; first
        | (refine Only.cut (p := { regs := true, fab := true, tor := true }) (s := t) (x := x) (fun hx => ?_) ?_; clear_value x; revert x; intro y hy; rotate_left; unfold x; clear x)
        | (refine Only.cut1 (p := { regs := true, fab := true, tor := true }) (s := t) (x := x) (fun hx => ?_) ?_; clear_value x; revert x; intro y hy; rotate_left; unfold x; clear x)
        | (refine Only.cut2 (p := { regs := true, fab := true, tor := true }) (s := t) (x := x) (fun hx => ?_) ?_; clear_value x; revert x; intro y hy; rotate_left; unfold x; clear x)
        | (revert x; intro y))
    | simp (disch := with_unfolding_all (apply Parts.same; apply Eq.refl)) only [Only.set_iff]
    | with_reducible apply Only.foldl
    | with_reducible apply Only.foldl_fst
    | (refine Only.of_fst ‹_ = _› ?_)
    | (refine Only.of_snd ‹_ = _› ?_)
    | split
    | (intro)

theorem State.newTag_only {p : Parts} {s t : State}  (hq : Parts.le { fab := true } p = true) (h : Only p s t) : Only p s (State.newTag t).2 := by
  refine Only.step hq h ?_
  unfold State.newTag
  repeat' first
    | with_reducible exact Only.refl _ _
    | ((with_reducible refine Parts.leq ?_); rfl)
    | simp (disch := with_unfolding_all (apply Parts.same; apply Eq.refl)) only [Only.set_iff]

theorem State.addRead_only {p : Parts} {s t : State} {x : RemRead} (hq : Parts.le { fab := true } p = true) (h : Only p s t) : Only p s (State.addRead t x) := by
  refine Only.step hq h ?_
  unfold State.addRead
  try dsimp -zeta only
  repeat' first
    | with_reducible assumption
    | with_reducible exact Only.refl _ _
    | ((with_reducible refine Parts.leq ?_); rfl)
    | (extract_lets +onlyGivenNames x; first
        | (refine Only.cut (p := { fab := true }) (s := t) (x := x) (fun hx => ?_) ?_; clear_value x; revert x; intro y hy; rotate_left; unfold x; clear x)
        | (refine Only.cut1 (p := { fab := true }) (s := t) (x := x) (fun hx => ?_) ?_; clear_value x; revert x; intro y hy; rotate_left; unfold x; clear x)
        | (refine Only.cut2 (p := { fab := true }) (s := t) (x := x) (fun hx => ?_) ?_; clear_value x; revert x; intro y hy; rotate_left; unfold x; clear x)
        | (revert x; intro y))
    | simp (disch := with_unfolding_all (apply Parts.same; apply Eq.refl)) only [Only.set_iff]
    | with_reducible apply Only.foldl
    | with_reducible apply Only.foldl_fst
    | (refine Only.of_fst ‹_ = _› ?_)
    | (refine Only.of_snd ‹_ = _› ?_)
    | split
    | (intro)

end Sys2Proof.Machine
end

