-- ==== Sys2Proof/Laws/OnlyGMem.lean ====
section
/-!
SUPPORT. Which parts of the state the operations of Machine/GMem.lean may change (Safety.lean).
-/
namespace Sys2Proof.Machine

open Sys2Proof

theorem State.noAnswer_only {p : Parts} {s t : State} {off : Nat} (hq : Parts.le Parts.report p = true) (h : Only p s t) : Only p s (State.noAnswer t off) := by
  refine Only.step hq h ?_
  unfold State.noAnswer
  repeat' first
    | with_reducible exact Only.refl _ _
    | ((with_reducible refine Parts.leq ?_); rfl)
    | with_reducible apply State.unmapped_only

theorem State.evrPop_only {p : Parts} {s t : State} {i : Nat} (hq : Parts.le { regs := true } p = true) (h : Only p s t) : Only p s (State.evrPop t i).1 := by
  refine Only.step hq h ?_
  unfold State.evrPop
  repeat' first
    | with_reducible exact Only.refl _ _
    | ((with_reducible refine Parts.leq ?_); rfl)
    | with_reducible apply State.count_only

theorem State.regRead_only {p : Parts} {s t : State} {who : Master} {off : Nat} (hq : Parts.le Parts.report p = true) (h : Only p s t) : Only p s (State.regRead t who off).1 := by
  refine Only.step hq h ?_
  unfold State.regRead
  repeat' first
    | with_reducible exact Only.refl _ _
    | ((with_reducible refine Parts.leq ?_); rfl)
    | with_reducible apply State.noAnswer_only
    | with_reducible apply State.unmapped_only
    | with_reducible apply State.evrPop_only
    | split

theorem State.regBytes_only {p : Parts} {s t : State} {who : Master} {off : Nat} {n : Nat} (hq : Parts.le Parts.report p = true) (h : Only p s t) : Only p s (State.regBytes t who off n).1 := by
  refine Only.step hq h ?_
  unfold State.regBytes
  repeat' first
    | with_reducible exact Only.refl _ _
    | ((with_reducible refine Parts.leq ?_); rfl)
    | with_reducible apply State.regRead_only
    | with_reducible apply State.rejected_only
    | with_reducible apply Only.foldl_fst
    | split
    | (intro)

theorem State.fetchPiece_only {p : Parts} {s t : State} {who : Master} {x2 : Nat × Nat} (hq : Parts.le (Parts.report.or { tor := true }) p = true) (h : Only p s t) : Only p s (State.fetchPiece t who x2).1 := by
  refine Only.step hq h ?_
  unfold State.fetchPiece
  try dsimp -zeta only
  repeat' first
    | with_reducible assumption
    | with_reducible exact Only.refl _ _
    | ((with_reducible refine Parts.leq ?_); rfl)
    | with_reducible apply State.regBytes_only
    | with_reducible apply State.unmapped_only
    | with_reducible apply State.crossTo_only
    | (extract_lets +onlyGivenNames x; first
        | (refine Only.cut (p := (Parts.report.or { tor := true })) (s := t) (x := x) (fun hx => ?_) ?_; clear_value x; revert x; intro y hy; rotate_left; unfold x; clear x)
        | (refine Only.cut1 (p := (Parts.report.or { tor := true })) (s := t) (x := x) (fun hx => ?_) ?_; clear_value x; revert x; intro y hy; rotate_left; unfold x; clear x)
        | (refine Only.cut2 (p := (Parts.report.or { tor := true })) (s := t) (x := x) (fun hx => ?_) ?_; clear_value x; revert x; intro y hy; rotate_left; unfold x; clear x)
        | (revert x; intro y))
    | simp (disch := with_unfolding_all (apply Parts.same; apply Eq.refl)) only [Only.set_iff]
    | with_reducible apply Only.foldl
    | with_reducible apply Only.foldl_fst
    | (refine Only.of_fst ‹_ = _› ?_)
    | (refine Only.of_snd ‹_ = _› ?_)
    | split
    | (intro)

theorem State.fetchBytes_only {p : Parts} {s t : State} {who : Master} {addr : Nat} {n : Nat} (hq : Parts.le (Parts.report.or { tor := true }) p = true) (h : Only p s t) : Only p s (State.fetchBytes t who addr n).1 := by
  refine Only.step hq h ?_
  unfold State.fetchBytes
  try dsimp -zeta only
  repeat' first
    | with_reducible assumption
    | with_reducible exact Only.refl _ _
    | ((with_reducible refine Parts.leq ?_); rfl)
    | with_reducible apply State.fetchPiece_only
    | (extract_lets +onlyGivenNames x; first
        | (refine Only.cut (p := (Parts.report.or { tor := true })) (s := t) (x := x) (fun hx => ?_) ?_; clear_value x; revert x; intro y hy; rotate_left; unfold x; clear x)
        | (refine Only.cut1 (p := (Parts.report.or { tor := true })) (s := t) (x := x) (fun hx => ?_) ?_; clear_value x; revert x; intro y hy; rotate_left; unfold x; clear x)
        | (refine Only.cut2 (p := (Parts.report.or { tor := true })) (s := t) (x := x) (fun hx => ?_) ?_; clear_value x; revert x; intro y hy; rotate_left; unfold x; clear x)
        | (revert x; intro y))
    | simp (disch := with_unfolding_all (apply Parts.same; apply Eq.refl)) only [Only.set_iff]
    | with_reducible apply Only.foldl
    | with_reducible apply Only.foldl_fst
    | (refine Only.of_fst ‹_ = _› ?_)
    | (refine Only.of_snd ‹_ = _› ?_)
    | split
    | (intro)

theorem State.plainWrite_only {p : Parts} {s t : State} {who : Master} {a : Nat} {d : List Byte} (hq : Parts.le (Parts.memory.or { regs := true, heldWr := true, order := true, arr := true }) p = true) (h : Only p s t) : Only p s (State.plainWrite t who a d) := by
  refine Only.step hq h ?_
  unfold State.plainWrite
  try dsimp -zeta only
  repeat' first
    | with_reducible assumption
    | with_reducible exact Only.refl _ _
    | ((with_reducible refine Parts.leq ?_); rfl)
    | with_reducible apply State.bump_only
    | with_reducible apply State.writePlain_only
    | (extract_lets +onlyGivenNames x; first
        | (refine Only.cut (p := (Parts.memory.or { regs := true, heldWr := true, order := true, arr := true })) (s := t) (x := x) (fun hx => ?_) ?_; clear_value x; revert x; intro y hy; rotate_left; unfold x; clear x)
        | (refine Only.cut1 (p := (Parts.memory.or { regs := true, heldWr := true, order := true, arr := true })) (s := t) (x := x) (fun hx => ?_) ?_; clear_value x; revert x; intro y hy; rotate_left; unfold x; clear x)
        | (refine Only.cut2 (p := (Parts.memory.or { regs := true, heldWr := true, order := true, arr := true })) (s := t) (x := x) (fun hx => ?_) ?_; clear_value x; revert x; intro y hy; rotate_left; unfold x; clear x)
        | (revert x; intro y))
    | simp (disch := with_unfolding_all (apply Parts.same; apply Eq.refl)) only [Only.set_iff]
    | with_reducible apply Only.foldl
    | with_reducible apply Only.foldl_fst
    | (refine Only.of_fst ‹_ = _› ?_)
    | (refine Only.of_snd ‹_ = _› ?_)
    | split
    | (intro)

theorem State.pieceWrite_only {p : Parts} {s t : State} {who : Master} {vc : Nat} {addr : Nat} {d : List Byte} (hq : Parts.le ((Parts.report.or Parts.memory).or { heldWr := true, order := true, fab := true, tor := true, arr := true }) p = true) (h : Only p s t) : Only p s (State.pieceWrite t who vc addr d) := by
  refine Only.step hq h ?_
  unfold State.pieceWrite
  try dsimp -zeta only
  repeat' first
    | with_reducible assumption
    | with_reducible exact Only.refl _ _
    | ((with_reducible refine Parts.leq ?_); rfl)
    | with_reducible apply State.plainWrite_only
    | with_reducible apply State.crossTo_only
    | with_reducible apply State.unmapped_only
    | with_reducible apply State.deliver_only
    | with_reducible apply State.send_only
    | (extract_lets +onlyGivenNames x; first
        | (refine Only.cut (p := ((Parts.report.or Parts.memory).or { heldWr := true, order := true, fab := true, tor := true, arr := true })) (s := t) (x := x) (fun hx => ?_) ?_; clear_value x; revert x; intro y hy; rotate_left; unfold x; clear x)
        | (refine Only.cut1 (p := ((Parts.report.or Parts.memory).or { heldWr := true, order := true, fab := true, tor := true, arr := true })) (s := t) (x := x) (fun hx => ?_) ?_; clear_value x; revert x; intro y hy; rotate_left; unfold x; clear x)
        | (refine Only.cut2 (p := ((Parts.report.or Parts.memory).or { heldWr := true, order := true, fab := true, tor := true, arr := true })) (s := t) (x := x) (fun hx => ?_) ?_; clear_value x; revert x; intro y hy; rotate_left; unfold x; clear x)
        | (revert x; intro y))
    | simp (disch := with_unfolding_all (apply Parts.same; apply Eq.refl)) only [Only.set_iff]
    | with_reducible apply Only.foldl
    | with_reducible apply Only.foldl_fst
    | (refine Only.of_fst ‹_ = _› ?_)
    | (refine Only.of_snd ‹_ = _› ?_)
    | split
    | (intro)

theorem State.gwrite_only {p : Parts} {s t : State} {who : Master} {vc : Nat} {addr : Nat} {d : List Byte} (hq : Parts.le ((Parts.report.or Parts.memory).or { heldWr := true, order := true, fab := true, tor := true, arr := true }) p = true) (h : Only p s t) : Only p s (State.gwrite t who vc addr d) := by
  refine Only.step hq h ?_
  unfold State.gwrite
  try dsimp -zeta only
  repeat' first
    | with_reducible assumption
    | with_reducible exact Only.refl _ _
    | ((with_reducible refine Parts.leq ?_); rfl)
    | with_reducible apply State.pieceWrite_only
    | (extract_lets +onlyGivenNames x; first
        | (refine Only.cut (p := ((Parts.report.or Parts.memory).or { heldWr := true, order := true, fab := true, tor := true, arr := true })) (s := t) (x := x) (fun hx => ?_) ?_; clear_value x; revert x; intro y hy; rotate_left; unfold x; clear x)
        | (refine Only.cut1 (p := ((Parts.report.or Parts.memory).or { heldWr := true, order := true, fab := true, tor := true, arr := true })) (s := t) (x := x) (fun hx => ?_) ?_; clear_value x; revert x; intro y hy; rotate_left; unfold x; clear x)
        | (refine Only.cut2 (p := ((Parts.report.or Parts.memory).or { heldWr := true, order := true, fab := true, tor := true, arr := true })) (s := t) (x := x) (fun hx => ?_) ?_; clear_value x; revert x; intro y hy; rotate_left; unfold x; clear x)
        | (revert x; intro y))
    | simp (disch := with_unfolding_all (apply Parts.same; apply Eq.refl)) only [Only.set_iff]
    | with_reducible apply Only.foldl
    | with_reducible apply Only.foldl_fst
    | (refine Only.of_fst ‹_ = _› ?_)
    | (refine Only.of_snd ‹_ = _› ?_)
    | split
    | (intro)

theorem State.hostWrite_only {p : Parts} {s t : State} {addr : Nat} {d : List Byte} (hq : Parts.le { hostW := true } p = true) (h : Only p s t) : Only p s (State.hostWrite t addr d) := by
  refine Only.step hq h ?_
  unfold State.hostWrite
  repeat' first
    | with_reducible exact Only.refl _ _
    | ((with_reducible refine Parts.leq ?_); rfl)
    | simp (disch := with_unfolding_all (apply Parts.same; apply Eq.refl)) only [Only.set_iff]

end Sys2Proof.Machine
end

