-- ==== Sys2Proof/Laws/OnlyComplete.lean ====
section
/-!
SUPPORT. Which parts of the state the operations of Machine/Complete.lean may change (Safety.lean).
-/
namespace Sys2Proof.Machine

open Sys2Proof

theorem State.setSq_only {p : Parts} {s t : State} {n : Nat} {v : SqSt} (hq : Parts.le { sq := true } p = true) (h : Only p s t) : Only p s (State.setSq t n v) := by
  refine Only.step hq h ?_
  unfold State.setSq
  repeat' first
    | with_reducible exact Only.refl _ _
    | ((with_reducible refine Parts.leq ?_); rfl)
    | simp (disch := with_unfolding_all (apply Parts.same; apply Eq.refl)) only [Only.set_iff]

theorem State.ringWrite_only {p : Parts} {s t : State} {who : Master} {loc : Bool} {addr : Nat} {d : List Byte} (hq : Parts.le ((Parts.report.or Parts.memory).or { hostW := true, heldWr := true, order := true, fab := true, tor := true, arr := true }) p = true) (h : Only p s t) : Only p s (State.ringWrite t who loc addr d) := by
  refine Only.step hq h ?_
  unfold State.ringWrite
  try dsimp -zeta only
  repeat' first
    | with_reducible assumption
    | with_reducible exact Only.refl _ _
    | ((with_reducible refine Parts.leq ?_); rfl)
    | with_reducible apply State.gwrite_only
    | with_reducible apply State.hostWrite_only
    | (extract_lets +onlyGivenNames x; first
        | (refine Only.cut (p := ((Parts.report.or Parts.memory).or { hostW := true, heldWr := true, order := true, fab := true, tor := true, arr := true })) (s := t) (x := x) (fun hx => ?_) ?_; clear_value x; revert x; intro y hy; rotate_left; unfold x; clear x)
        | (refine Only.cut1 (p := ((Parts.report.or Parts.memory).or { hostW := true, heldWr := true, order := true, fab := true, tor := true, arr := true })) (s := t) (x := x) (fun hx => ?_) ?_; clear_value x; revert x; intro y hy; rotate_left; unfold x; clear x)
        | (refine Only.cut2 (p := ((Parts.report.or Parts.memory).or { hostW := true, heldWr := true, order := true, fab := true, tor := true, arr := true })) (s := t) (x := x) (fun hx => ?_) ?_; clear_value x; revert x; intro y hy; rotate_left; unfold x; clear x)
        | (revert x; intro y))
    | simp (disch := with_unfolding_all (apply Parts.same; apply Eq.refl)) only [Only.set_iff]
    | with_reducible apply Only.foldl
    | with_reducible apply Only.foldl_fst
    | (refine Only.of_fst ‹_ = _› ?_)
    | (refine Only.of_snd ‹_ = _› ?_)
    | split
    | (intro)

theorem State.msixSend_only {p : Parts} {s t : State} {v : Nat} (hq : Parts.le { pcie := true, out := true } p = true) (h : Only p s t) : Only p s (State.msixSend t v) := by
  refine Only.step hq h ?_
  unfold State.msixSend
  repeat' first
    | with_reducible exact Only.refl _ _
    | ((with_reducible refine Parts.leq ?_); rfl)
    | with_reducible apply State.emit_only
    | simp (disch := with_unfolding_all (apply Parts.same; apply Eq.refl)) only [Only.set_iff]
    | split

theorem State.putRecord_only {p : Parts} {s t : State} {who : Master} {m : Nat} {seq : Nat} {step : Nat} {d : Done} {irq : Bool} (hq : Parts.le ((Parts.report.or Parts.memory).or { hostW := true, pcie := true, heldWr := true, order := true, fab := true, tor := true, arr := true }) p = true) (h : Only p s t) : Only p s (State.putRecord t who m seq step d irq) := by
  refine Only.step hq h ?_
  unfold State.putRecord
  try dsimp -zeta only
  repeat' first
    | with_reducible assumption
    | with_reducible exact Only.refl _ _
    | ((with_reducible refine Parts.leq ?_); rfl)
    | with_reducible apply State.ringWrite_only
    | with_reducible apply State.count_only
    | with_reducible apply State.msixSend_only
    | with_reducible apply State.bump_only
    | (extract_lets +onlyGivenNames x; first
        | (refine Only.cut (p := ((Parts.report.or Parts.memory).or { hostW := true, pcie := true, heldWr := true, order := true, fab := true, tor := true, arr := true })) (s := t) (x := x) (fun hx => ?_) ?_; clear_value x; revert x; intro y hy; rotate_left; unfold x; clear x)
        | (refine Only.cut1 (p := ((Parts.report.or Parts.memory).or { hostW := true, pcie := true, heldWr := true, order := true, fab := true, tor := true, arr := true })) (s := t) (x := x) (fun hx => ?_) ?_; clear_value x; revert x; intro y hy; rotate_left; unfold x; clear x)
        | (refine Only.cut2 (p := ((Parts.report.or Parts.memory).or { hostW := true, pcie := true, heldWr := true, order := true, fab := true, tor := true, arr := true })) (s := t) (x := x) (fun hx => ?_) ?_; clear_value x; revert x; intro y hy; rotate_left; unfold x; clear x)
        | (revert x; intro y))
    | simp (disch := with_unfolding_all (apply Parts.same; apply Eq.refl)) only [Only.set_iff]
    | with_reducible apply Only.foldl
    | with_reducible apply Only.foldl_fst
    | (refine Only.of_fst ‹_ = _› ?_)
    | (refine Only.of_snd ‹_ = _› ?_)
    | split
    | (intro)

theorem State.sendEvent_only {p : Parts} {s t : State} {n : Nat} {poison : Bool} {by_ : Nat} (hq : Parts.le { regs := true, sq := true } p = true) (h : Only p s t) : Only p s (State.sendEvent t n poison by_) := by
  refine Only.step hq h ?_
  unfold State.sendEvent
  repeat' first
    | with_reducible assumption
    | with_reducible exact Only.refl _ _
    | ((with_reducible refine Parts.leq ?_); rfl)
    | with_reducible apply State.fput_only
    | with_reducible apply State.setSq_only
    | (extract_lets +onlyGivenNames x; first
        | (refine Only.cut (p := { regs := true, sq := true }) (s := t) (x := x) (fun hx => ?_) ?_; clear_value x; revert x; intro y hy; rotate_left; unfold x; clear x)
        | (revert x; intro y))
    | split

theorem State.reserve_only {p : Parts} {s t : State} {m : Nat} {k : Nat} (hq : Parts.le { regs := true } p = true) (h : Only p s t) : Only p s (State.reserve t m k) := by
  refine Only.step hq h ?_
  unfold State.reserve
  repeat' first
    | with_reducible exact Only.refl _ _
    | ((with_reducible refine Parts.leq ?_); rfl)
    | with_reducible apply State.bump_only

theorem State.release_only {p : Parts} {s t : State} {m : Nat} {k : Nat} (hq : Parts.le { regs := true } p = true) (h : Only p s t) : Only p s (State.release t m k) := by
  refine Only.step hq h ?_
  unfold State.release
  repeat' first
    | with_reducible exact Only.refl _ _
    | ((with_reducible refine Parts.leq ?_); rfl)
    | with_reducible apply State.lower_only

theorem State.complete_only {p : Parts} {s t : State} {n : Nat} {bytes : List Byte} {seq : Nat} {slots : Nat} {keep : Nat} {d : Done} (hq : Parts.le ((Parts.report.or Parts.memory).or { hostW := true, sq := true, pcie := true, heldWr := true, order := true, fab := true, tor := true, arr := true }) p = true) (h : Only p s t) : Only p s (State.complete t n bytes seq slots keep d) := by
  refine Only.step hq h ?_
  unfold State.complete
  try dsimp -zeta only
  repeat' first
    | with_reducible assumption
    | with_reducible exact Only.refl _ _
    | ((with_reducible refine Parts.leq ?_); rfl)
    | with_reducible apply State.putRecord_only
    | with_reducible apply State.release_only
    | with_reducible apply State.sendEvent_only
    | (extract_lets +onlyGivenNames x; first
        | (refine Only.cut (p := ((Parts.report.or Parts.memory).or { hostW := true, sq := true, pcie := true, heldWr := true, order := true, fab := true, tor := true, arr := true })) (s := t) (x := x) (fun hx => ?_) ?_; clear_value x; revert x; intro y hy; rotate_left; unfold x; clear x)
        | (refine Only.cut1 (p := ((Parts.report.or Parts.memory).or { hostW := true, sq := true, pcie := true, heldWr := true, order := true, fab := true, tor := true, arr := true })) (s := t) (x := x) (fun hx => ?_) ?_; clear_value x; revert x; intro y hy; rotate_left; unfold x; clear x)
        | (refine Only.cut2 (p := ((Parts.report.or Parts.memory).or { hostW := true, sq := true, pcie := true, heldWr := true, order := true, fab := true, tor := true, arr := true })) (s := t) (x := x) (fun hx => ?_) ?_; clear_value x; revert x; intro y hy; rotate_left; unfold x; clear x)
        | (revert x; intro y))
    | simp (disch := with_unfolding_all (apply Parts.same; apply Eq.refl)) only [Only.set_iff]
    | with_reducible apply Only.foldl
    | with_reducible apply Only.foldl_fst
    | (refine Only.of_fst ‹_ = _› ?_)
    | (refine Only.of_snd ‹_ = _› ?_)
    | split
    | (intro)

theorem State.completeFetched_only {p : Parts} {s t : State} {n : Nat} {f : Fetched} {d : Done} (hq : Parts.le ((Parts.report.or Parts.memory).or { hostW := true, sq := true, pcie := true, heldWr := true, order := true, fab := true, tor := true, arr := true }) p = true) (h : Only p s t) : Only p s (State.completeFetched t n f d) := by
  refine Only.step hq h ?_
  unfold State.completeFetched
  try dsimp -zeta only
  repeat' first
    | with_reducible assumption
    | with_reducible exact Only.refl _ _
    | ((with_reducible refine Parts.leq ?_); rfl)
    | with_reducible apply State.complete_only
    | (extract_lets +onlyGivenNames x; first
        | (refine Only.cut (p := ((Parts.report.or Parts.memory).or { hostW := true, sq := true, pcie := true, heldWr := true, order := true, fab := true, tor := true, arr := true })) (s := t) (x := x) (fun hx => ?_) ?_; clear_value x; revert x; intro y hy; rotate_left; unfold x; clear x)
        | (refine Only.cut1 (p := ((Parts.report.or Parts.memory).or { hostW := true, sq := true, pcie := true, heldWr := true, order := true, fab := true, tor := true, arr := true })) (s := t) (x := x) (fun hx => ?_) ?_; clear_value x; revert x; intro y hy; rotate_left; unfold x; clear x)
        | (refine Only.cut2 (p := ((Parts.report.or Parts.memory).or { hostW := true, sq := true, pcie := true, heldWr := true, order := true, fab := true, tor := true, arr := true })) (s := t) (x := x) (fun hx => ?_) ?_; clear_value x; revert x; intro y hy; rotate_left; unfold x; clear x)
        | (revert x; intro y))
    | simp (disch := with_unfolding_all (apply Parts.same; apply Eq.refl)) only [Only.set_iff]
    | with_reducible apply Only.foldl
    | with_reducible apply Only.foldl_fst
    | (refine Only.of_fst ‹_ = _› ?_)
    | (refine Only.of_snd ‹_ = _› ?_)
    | split
    | (intro)

theorem State.updStarted_only {p : Parts} {s t : State} {n : Nat} {seq : Nat} {f : Started → Started} (hq : Parts.le { started := true } p = true) (h : Only p s t) : Only p s (State.updStarted t n seq f) := by
  refine Only.step hq h ?_
  unfold State.updStarted
  repeat' first
    | with_reducible exact Only.refl _ _
    | ((with_reducible refine Parts.leq ?_); rfl)
    | simp (disch := with_unfolding_all (apply Parts.same; apply Eq.refl)) only [Only.set_iff]

theorem State.answeredTimed_only {p : Parts} {s t : State} {tag : Nat} (hq : Parts.le { started := true, flt := true } p = true) (h : Only p s t) : Only p s (State.answeredTimed t tag) := by
  refine Only.step hq h ?_
  unfold State.answeredTimed
  try dsimp -zeta only
  repeat' first
    | with_reducible assumption
    | with_reducible exact Only.refl _ _
    | ((with_reducible refine Parts.leq ?_); rfl)
    | with_reducible apply State.updStarted_only
    | (extract_lets +onlyGivenNames x; first
        | (refine Only.cut (p := { started := true, flt := true }) (s := t) (x := x) (fun hx => ?_) ?_; clear_value x; revert x; intro y hy; rotate_left; unfold x; clear x)
        | (refine Only.cut1 (p := { started := true, flt := true }) (s := t) (x := x) (fun hx => ?_) ?_; clear_value x; revert x; intro y hy; rotate_left; unfold x; clear x)
        | (refine Only.cut2 (p := { started := true, flt := true }) (s := t) (x := x) (fun hx => ?_) ?_; clear_value x; revert x; intro y hy; rotate_left; unfold x; clear x)
        | (revert x; intro y))
    | simp (disch := with_unfolding_all (apply Parts.same; apply Eq.refl)) only [Only.set_iff]
    | with_reducible apply Only.foldl
    | with_reducible apply Only.foldl_fst
    | (refine Only.of_fst ‹_ = _› ?_)
    | (refine Only.of_snd ‹_ = _› ?_)
    | split
    | (intro)

theorem State.setDone_only {p : Parts} {s t : State} {n : Nat} {seq : Nat} {d : Done} (hq : Parts.le { started := true } p = true) (h : Only p s t) : Only p s (State.setDone t n seq d) := by
  refine Only.step hq h ?_
  unfold State.setDone
  repeat' first
    | with_reducible exact Only.refl _ _
    | ((with_reducible refine Parts.leq ?_); rfl)
    | with_reducible apply State.updStarted_only

end Sys2Proof.Machine
end

