-- ==== Sys2Proof/Laws/OnlyTags.lean ====
section
/-!
SUPPORT. Which parts of the state the operations of Machine/Tags.lean may change (Safety.lean).
-/
namespace Sys2Proof.Machine

open Sys2Proof

theorem State.tagMismatch_only {p : Parts} {s t : State} {page : Nat} {c : Ctx} {off : optParam Nat 0} (hq : Parts.le Parts.report p = true) (h : Only p s t) : Only p s (State.tagMismatch t page c off) := by
  refine Only.step hq h ?_
  unfold State.tagMismatch
  try dsimp -zeta only
  repeat' first
    | with_reducible assumption
    | with_reducible exact Only.refl _ _
    | ((with_reducible refine Parts.leq ?_); rfl)
    | with_reducible apply State.report_only
    | with_reducible apply State.bump_only
    | (extract_lets +onlyGivenNames x; first
        | (refine Only.cut (p := Parts.report) (s := t) (x := x) (fun hx => ?_) ?_; clear_value x; revert x; intro y hy; rotate_left; unfold x; clear x)
        | (refine Only.cut1 (p := Parts.report) (s := t) (x := x) (fun hx => ?_) ?_; clear_value x; revert x; intro y hy; rotate_left; unfold x; clear x)
        | (refine Only.cut2 (p := Parts.report) (s := t) (x := x) (fun hx => ?_) ?_; clear_value x; revert x; intro y hy; rotate_left; unfold x; clear x)
        | (revert x; intro y))
    | simp (disch := with_unfolding_all (apply Parts.same; apply Eq.refl)) only [Only.set_iff]
    | with_reducible apply Only.foldl
    | with_reducible apply Only.foldl_fst
    | (refine Only.of_fst ‹_ = _› ?_)
    | (refine Only.of_snd ‹_ = _› ?_)
    | split
    | (intro)

theorem State.tagEvents_only {p : Parts} {s t : State} {c : Ctx} {failed : Bool} (hq : Parts.le { obs := true } p = true) (h : Only p s t) : Only p s (State.tagEvents t c failed) := by
  refine Only.step hq h ?_
  unfold State.tagEvents
  repeat' first
    | with_reducible exact Only.refl _ _
    | ((with_reducible refine Parts.leq ?_); rfl)
    | with_reducible apply State.evCount_only
    | split

theorem State.tagReadPage_only {p : Parts} {s t : State} {c : Ctx} {page : Nat} {whole : Bool} {fmt : Option Nat} {bid : Option Nat} {off : optParam Nat 0} (hq : Parts.le Parts.report p = true) (h : Only p s t) : Only p s (State.tagReadPage t c page whole fmt bid off).1 := by
  refine Only.step hq h ?_
  unfold State.tagReadPage
  try dsimp -zeta only
  repeat' first
    | with_reducible assumption
    | with_reducible exact Only.refl _ _
    | ((with_reducible refine Parts.leq ?_); rfl)
    | with_reducible apply State.bump_only
    | with_reducible apply State.report_only
    | with_reducible apply State.tagMismatch_only
    | with_reducible apply State.tagEvents_only
    | (extract_lets +onlyGivenNames x; first
        | (refine Only.cut (p := Parts.report) (s := t) (x := x) (fun hx => ?_) ?_; clear_value x; revert x; intro y hy; rotate_left; unfold x; clear x)
        | (refine Only.cut1 (p := Parts.report) (s := t) (x := x) (fun hx => ?_) ?_; clear_value x; revert x; intro y hy; rotate_left; unfold x; clear x)
        | (refine Only.cut2 (p := Parts.report) (s := t) (x := x) (fun hx => ?_) ?_; clear_value x; revert x; intro y hy; rotate_left; unfold x; clear x)
        | (revert x; intro y))
    | simp (disch := with_unfolding_all (apply Parts.same; apply Eq.refl)) only [Only.set_iff]
    | with_reducible apply Only.foldl
    | with_reducible apply Only.foldl_fst
    | (refine Only.of_fst ‹_ = _› ?_)
    | (refine Only.of_snd ‹_ = _› ?_)
    | split
    | (intro)

theorem afterCheck_only {p : Parts} {s : State} {q : State × Option Nat} {f : State → State} (_ : Parts.le {} p = true) (h : Only p s q.1)
    (hf : ∀ x, Only p s x → Only p s (f x)) : Only p s (afterCheck q f).1 := by
  obtain ⟨a, _ | b⟩ := q
  · exact hf _ h
  · exact h

theorem State.noteScrubbed_only {p : Parts} {s t : State} {burst : Nat} {alone : Bool} (hq : Parts.le { poison := true } p = true) (h : Only p s t) :
    Only p s (State.noteScrubbed t burst alone) := Only.step hq h (Only.setMem rfl (Only.refl _ _))

theorem State.ueReport_only {p : Parts} {s t : State} {a : Nat} {c : Ctx} {by_ : optParam Bool false} (hq : Parts.le (Parts.report.or { poison := true }) p = true) (h : Only p s t) : Only p s (State.ueReport t a c by_) := by
  refine Only.step hq h ?_
  unfold State.ueReport
  try dsimp -zeta only
  repeat' first
    | with_reducible assumption
    | with_reducible exact Only.refl _ _
    | ((with_reducible refine Parts.leq ?_); rfl)
    | with_reducible apply State.bump_only
    | with_reducible apply State.setReg_only
    | with_reducible apply State.noteScrubbed_only
    | with_reducible apply State.report_only
    | (extract_lets +onlyGivenNames x; first
        | (refine Only.cut (p := (Parts.report.or { poison := true })) (s := t) (x := x) (fun hx => ?_) ?_; clear_value x; revert x; intro y hy; rotate_left; unfold x; clear x)
        | (refine Only.cut1 (p := (Parts.report.or { poison := true })) (s := t) (x := x) (fun hx => ?_) ?_; clear_value x; revert x; intro y hy; rotate_left; unfold x; clear x)
        | (refine Only.cut2 (p := (Parts.report.or { poison := true })) (s := t) (x := x) (fun hx => ?_) ?_; clear_value x; revert x; intro y hy; rotate_left; unfold x; clear x)
        | (revert x; intro y))
    | simp (disch := with_unfolding_all (apply Parts.same; apply Eq.refl)) only [Only.set_iff]
    | with_reducible apply Only.foldl
    | with_reducible apply Only.foldl_fst
    | (refine Only.of_fst ‹_ = _› ?_)
    | (refine Only.of_snd ‹_ = _› ?_)
    | split
    | (intro)

theorem State.poisonCheck_only {p : Parts} {s t : State} {c : Ctx} {addr : Nat} {n : Nat} (hq : Parts.le (Parts.report.or { poison := true }) p = true) (h : Only p s t) : Only p s (State.poisonCheck t c addr n).1 := by
  refine Only.step hq h ?_
  unfold State.poisonCheck
  try dsimp -zeta only
  repeat' first
    | with_reducible assumption
    | with_reducible exact Only.refl _ _
    | ((with_reducible refine Parts.leq ?_); rfl)
    | with_reducible apply Only.foldChecks
    | with_reducible apply State.ueReport_only
    | (extract_lets +onlyGivenNames x; first
        | (refine Only.cut (p := (Parts.report.or { poison := true })) (s := t) (x := x) (fun hx => ?_) ?_; clear_value x; revert x; intro y hy; rotate_left; unfold x; clear x)
        | (refine Only.cut1 (p := (Parts.report.or { poison := true })) (s := t) (x := x) (fun hx => ?_) ?_; clear_value x; revert x; intro y hy; rotate_left; unfold x; clear x)
        | (refine Only.cut2 (p := (Parts.report.or { poison := true })) (s := t) (x := x) (fun hx => ?_) ?_; clear_value x; revert x; intro y hy; rotate_left; unfold x; clear x)
        | (revert x; intro y))
    | simp (disch := with_unfolding_all (apply Parts.same; apply Eq.refl)) only [Only.set_iff]
    | with_reducible apply Only.foldl
    | with_reducible apply Only.foldl_fst
    | (refine Only.of_fst ‹_ = _› ?_)
    | (refine Only.of_snd ‹_ = _› ?_)
    | split
    | (intro)

theorem State.awareCheck_only {p : Parts} {s t : State} {c : Ctx} {addr : Nat} {n : Nat} {fmt : Option Nat} {bid : Option Nat} (hq : Parts.le (Parts.report.or { poison := true }) p = true) (h : Only p s t) : Only p s (State.awareCheck t c addr n fmt bid).1 := by
  refine Only.step hq h ?_
  unfold State.awareCheck
  try dsimp -zeta only
  repeat' first
    | with_reducible assumption
    | with_reducible exact Only.refl _ _
    | ((with_reducible refine Parts.leq ?_); rfl)
    | with_reducible apply Only.foldChecks
    | with_reducible apply State.tagReadPage_only
    | with_reducible apply State.poisonCheck_only
    | (extract_lets +onlyGivenNames x; first
        | (refine Only.cut (p := (Parts.report.or { poison := true })) (s := t) (x := x) (fun hx => ?_) ?_; clear_value x; revert x; intro y hy; rotate_left; unfold x; clear x)
        | (refine Only.cut1 (p := (Parts.report.or { poison := true })) (s := t) (x := x) (fun hx => ?_) ?_; clear_value x; revert x; intro y hy; rotate_left; unfold x; clear x)
        | (refine Only.cut2 (p := (Parts.report.or { poison := true })) (s := t) (x := x) (fun hx => ?_) ?_; clear_value x; revert x; intro y hy; rotate_left; unfold x; clear x)
        | (revert x; intro y))
    | simp (disch := with_unfolding_all (apply Parts.same; apply Eq.refl)) only [Only.set_iff]
    | with_reducible apply Only.foldl
    | with_reducible apply Only.foldl_fst
    | (refine Only.of_fst ‹_ = _› ?_)
    | (refine Only.of_snd ‹_ = _› ?_)
    | split
    | (intro)

theorem State.awareChecks_only {p : Parts} {s t : State} {c : Ctx} {rs : List (Nat × Nat)} (hq : Parts.le (Parts.report.or { poison := true }) p = true) (h : Only p s t) : Only p s (State.awareChecks t c rs).1 := by
  refine Only.step hq h ?_
  unfold State.awareChecks
  try dsimp -zeta only
  repeat' first
    | with_reducible assumption
    | with_reducible exact Only.refl _ _
    | ((with_reducible refine Parts.leq ?_); rfl)
    | with_reducible apply Only.foldChecks
    | with_reducible apply State.awareCheck_only
    | (extract_lets +onlyGivenNames x; first
        | (refine Only.cut (p := (Parts.report.or { poison := true })) (s := t) (x := x) (fun hx => ?_) ?_; clear_value x; revert x; intro y hy; rotate_left; unfold x; clear x)
        | (refine Only.cut1 (p := (Parts.report.or { poison := true })) (s := t) (x := x) (fun hx => ?_) ?_; clear_value x; revert x; intro y hy; rotate_left; unfold x; clear x)
        | (refine Only.cut2 (p := (Parts.report.or { poison := true })) (s := t) (x := x) (fun hx => ?_) ?_; clear_value x; revert x; intro y hy; rotate_left; unfold x; clear x)
        | (revert x; intro y))
    | simp (disch := with_unfolding_all (apply Parts.same; apply Eq.refl)) only [Only.set_iff]
    | with_reducible apply Only.foldl
    | with_reducible apply Only.foldl_fst
    | (refine Only.of_fst ‹_ = _› ?_)
    | (refine Only.of_snd ‹_ = _› ?_)
    | split
    | (intro)

theorem State.countPending_only {p : Parts} {s t : State}  (hq : Parts.le { regs := true } p = true) (h : Only p s t) : Only p s (State.countPending t) := by
  refine Only.step hq h ?_
  unfold State.countPending
  repeat' first
    | with_reducible exact Only.refl _ _
    | ((with_reducible refine Parts.leq ?_); rfl)
    | with_reducible apply State.fput_only

theorem State.makePending_only {p : Parts} {s t : State} {ticket : Nat} {tile : Nat} {pages : List Nat} (hq : Parts.le { regs := true, pages := true } p = true) (h : Only p s t) : Only p s (State.makePending t ticket tile pages) := by
  refine Only.step hq h ?_
  unfold State.makePending
  repeat' first
    | with_reducible exact Only.refl _ _
    | ((with_reducible refine Parts.leq ?_); rfl)
    | with_reducible apply State.countPending_only
    | simp (disch := with_unfolding_all (apply Parts.same; apply Eq.refl)) only [Only.set_iff]

theorem State.dropPending_only {p : Parts} {s t : State} {ticket : Nat} {pages : List Nat} (hq : Parts.le { regs := true, pages := true } p = true) (h : Only p s t) : Only p s (State.dropPending t ticket pages) := by
  refine Only.step hq h ?_
  unfold State.dropPending
  repeat' first
    | with_reducible exact Only.refl _ _
    | ((with_reducible refine Parts.leq ?_); rfl)
    | with_reducible apply State.countPending_only
    | simp (disch := with_unfolding_all (apply Parts.same; apply Eq.refl)) only [Only.set_iff]

end Sys2Proof.Machine
end

