-- ==== Sys2Proof/Laws/OnlyAccess.lean ====
section
/-!
SUPPORT. Which parts of the state the operations of Machine/Access.lean may change (Safety.lean).
-/
namespace Sys2Proof.Machine

open Sys2Proof

theorem State.readPiece_only {p : Parts} {s t : State} {who : Master} {addr : Nat} {n : Nat} {acc : ReadAcc} (hq : Parts.le (Parts.report.or { poison := true, tor := true }) p = true) (h : Only p s t) : Only p s (State.readPiece t who addr n acc).1 := by
  refine Only.step hq h ?_
  unfold State.readPiece
  try dsimp -zeta only
  repeat' first
    | with_reducible assumption
    | with_reducible exact Only.refl _ _
    | ((with_reducible refine Parts.leq ?_); rfl)
    | with_reducible apply State.crossTo_only
    | with_reducible apply State.regBytes_only
    | with_reducible apply State.unmapped_only
    | with_reducible apply State.ueReport_only
    | (extract_lets +onlyGivenNames x; first
        | (refine Only.cut (p := (Parts.report.or { poison := true, tor := true })) (s := t) (x := x) (fun hx => ?_) ?_; clear_value x; revert x; intro y hy; rotate_left; unfold x; clear x)
        | (refine Only.cut1 (p := (Parts.report.or { poison := true, tor := true })) (s := t) (x := x) (fun hx => ?_) ?_; clear_value x; revert x; intro y hy; rotate_left; unfold x; clear x)
        | (refine Only.cut2 (p := (Parts.report.or { poison := true, tor := true })) (s := t) (x := x) (fun hx => ?_) ?_; clear_value x; revert x; intro y hy; rotate_left; unfold x; clear x)
        | (revert x; intro y))
    | simp (disch := with_unfolding_all (apply Parts.same; apply Eq.refl)) only [Only.set_iff]
    | with_reducible apply Only.foldl
    | with_reducible apply Only.foldl_fst
    | (refine Only.of_fst ‹_ = _› ?_)
    | (refine Only.of_snd ‹_ = _› ?_)
    | split
    | (intro)

theorem State.readAll_only {p : Parts} {s t : State} {who : Master} {addr : Nat} {n : Nat} (hq : Parts.le (Parts.report.or { poison := true, tor := true }) p = true) (h : Only p s t) : Only p s (State.readAll t who addr n).1 := by
  refine Only.step hq h ?_
  unfold State.readAll
  try dsimp -zeta only
  repeat' first
    | with_reducible assumption
    | with_reducible exact Only.refl _ _
    | ((with_reducible refine Parts.leq ?_); rfl)
    | with_reducible apply State.readPiece_only
    | (extract_lets +onlyGivenNames x; first
        | (refine Only.cut (p := (Parts.report.or { poison := true, tor := true })) (s := t) (x := x) (fun hx => ?_) ?_; clear_value x; revert x; intro y hy; rotate_left; unfold x; clear x)
        | (refine Only.cut1 (p := (Parts.report.or { poison := true, tor := true })) (s := t) (x := x) (fun hx => ?_) ?_; clear_value x; revert x; intro y hy; rotate_left; unfold x; clear x)
        | (refine Only.cut2 (p := (Parts.report.or { poison := true, tor := true })) (s := t) (x := x) (fun hx => ?_) ?_; clear_value x; revert x; intro y hy; rotate_left; unfold x; clear x)
        | (revert x; intro y))
    | simp (disch := with_unfolding_all (apply Parts.same; apply Eq.refl)) only [Only.set_iff]
    | with_reducible apply Only.foldl
    | with_reducible apply Only.foldl_fst
    | (refine Only.of_fst ‹_ = _› ?_)
    | (refine Only.of_snd ‹_ = _› ?_)
    | split
    | (intro)

theorem State.tmpKeep_only {p : Parts} {s t : State} {die : Nat} {src : Nat} {type : Nat} {seq : Nat} {body : List Byte} (hq : Parts.le { out := true, trelfort := true } p = true) (h : Only p s t) : Only p s (State.tmpKeep t die src type seq body) := by
  refine Only.step hq h ?_
  unfold State.tmpKeep
  repeat' first
    | with_reducible exact Only.refl _ _
    | ((with_reducible refine Parts.leq ?_); rfl)
    | with_reducible apply State.emit_only
    | simp (disch := with_unfolding_all (apply Parts.same; apply Eq.refl)) only [Only.set_iff]

theorem State.tmpReply_only {p : Parts} {s t : State} {die : Nat} {src : Nat} {seq : Nat} {status : Nat} {data : List Byte} (hq : Parts.le { out := true, trelfort := true } p = true) (h : Only p s t) : Only p s (State.tmpReply t die src seq status data) := by
  refine Only.step hq h ?_
  unfold State.tmpReply
  repeat' first
    | with_reducible exact Only.refl _ _
    | ((with_reducible refine Parts.leq ?_); rfl)
    | with_reducible apply State.tmpKeep_only

theorem State.replyRead_only {p : Parts} {s t : State} {who : Master} {addr : Nat} {acc : ReadAcc} (hq : Parts.le { regs := true, fab := true, tor := true, out := true, trelfort := true } p = true) (h : Only p s t) : Only p s (State.replyRead t who addr acc) := by
  refine Only.step hq h ?_
  unfold State.replyRead
  try dsimp -zeta only
  repeat' first
    | with_reducible assumption
    | with_reducible exact Only.refl _ _
    | ((with_reducible refine Parts.leq ?_); rfl)
    | with_reducible apply State.send_only
    | with_reducible apply State.tmpReply_only
    | with_reducible apply State.emit_only
    | (extract_lets +onlyGivenNames x; first
        | (refine Only.cut (p := { regs := true, fab := true, tor := true, out := true, trelfort := true }) (s := t) (x := x) (fun hx => ?_) ?_; clear_value x; revert x; intro y hy; rotate_left; unfold x; clear x)
        | (refine Only.cut1 (p := { regs := true, fab := true, tor := true, out := true, trelfort := true }) (s := t) (x := x) (fun hx => ?_) ?_; clear_value x; revert x; intro y hy; rotate_left; unfold x; clear x)
        | (refine Only.cut2 (p := { regs := true, fab := true, tor := true, out := true, trelfort := true }) (s := t) (x := x) (fun hx => ?_) ?_; clear_value x; revert x; intro y hy; rotate_left; unfold x; clear x)
        | (revert x; intro y))
    | simp (disch := with_unfolding_all (apply Parts.same; apply Eq.refl)) only [Only.set_iff]
    | with_reducible apply Only.foldl
    | with_reducible apply Only.foldl_fst
    | (refine Only.of_fst ‹_ = _› ?_)
    | (refine Only.of_snd ‹_ = _› ?_)
    | split
    | (intro)

theorem State.serveRead_only {p : Parts} {s t : State} {who : Master} {addr : Nat} {n : Nat} (hq : Parts.le (Parts.report.or { poison := true, waitRd := true, order := true, fab := true, tor := true, trelfort := true }) p = true) (h : Only p s t) : Only p s (State.serveRead t who addr n) := by
  refine Only.step hq h ?_
  unfold State.serveRead
  try dsimp -zeta only
  repeat' first
    | with_reducible assumption
    | with_reducible exact Only.refl _ _
    | ((with_reducible refine Parts.leq ?_); rfl)
    | with_reducible apply State.readAll_only
    | with_reducible apply State.replyRead_only
    | (extract_lets +onlyGivenNames x; first
        | (refine Only.cut (p := (Parts.report.or { poison := true, waitRd := true, order := true, fab := true, tor := true, trelfort := true })) (s := t) (x := x) (fun hx => ?_) ?_; clear_value x; revert x; intro y hy; rotate_left; unfold x; clear x)
        | (refine Only.cut1 (p := (Parts.report.or { poison := true, waitRd := true, order := true, fab := true, tor := true, trelfort := true })) (s := t) (x := x) (fun hx => ?_) ?_; clear_value x; revert x; intro y hy; rotate_left; unfold x; clear x)
        | (refine Only.cut2 (p := (Parts.report.or { poison := true, waitRd := true, order := true, fab := true, tor := true, trelfort := true })) (s := t) (x := x) (fun hx => ?_) ?_; clear_value x; revert x; intro y hy; rotate_left; unfold x; clear x)
        | (revert x; intro y))
    | simp (disch := with_unfolding_all (apply Parts.same; apply Eq.refl)) only [Only.set_iff]
    | with_reducible apply Only.foldl
    | with_reducible apply Only.foldl_fst
    | (refine Only.of_fst ‹_ = _› ?_)
    | (refine Only.of_snd ‹_ = _› ?_)
    | split
    | (intro)

theorem State.serveWaiting_only {p : Parts} {s t : State}  (hq : Parts.le (Parts.report.or { poison := true, waitRd := true, fab := true, tor := true, trelfort := true }) p = true) (h : Only p s t) : Only p s (State.serveWaiting t) := by
  refine Only.step hq h ?_
  unfold State.serveWaiting
  try dsimp -zeta only
  repeat' first
    | with_reducible assumption
    | with_reducible exact Only.refl _ _
    | ((with_reducible refine Parts.leq ?_); rfl)
    | with_reducible apply State.readAll_only
    | with_reducible apply State.replyRead_only
    | (extract_lets +onlyGivenNames x; first
        | (refine Only.cut (p := (Parts.report.or { poison := true, waitRd := true, fab := true, tor := true, trelfort := true })) (s := t) (x := x) (fun hx => ?_) ?_; clear_value x; revert x; intro y hy; rotate_left; unfold x; clear x)
        | (refine Only.cut1 (p := (Parts.report.or { poison := true, waitRd := true, fab := true, tor := true, trelfort := true })) (s := t) (x := x) (fun hx => ?_) ?_; clear_value x; revert x; intro y hy; rotate_left; unfold x; clear x)
        | (refine Only.cut2 (p := (Parts.report.or { poison := true, waitRd := true, fab := true, tor := true, trelfort := true })) (s := t) (x := x) (fun hx => ?_) ?_; clear_value x; revert x; intro y hy; rotate_left; unfold x; clear x)
        | (revert x; intro y))
    | simp (disch := with_unfolding_all (apply Parts.same; apply Eq.refl)) only [Only.set_iff]
    | with_reducible apply Only.foldl
    | with_reducible apply Only.foldl_fst
    | (refine Only.of_fst ‹_ = _› ?_)
    | (refine Only.of_snd ‹_ = _› ?_)
    | split
    | (intro)

theorem State.eccIn_only {p : Parts} {s t : State} {addr : Nat} {n : Nat} {ecc : EccFinds} (hq : Parts.le { regs := true, poison := true, flt := true, obs := true } p = true) (h : Only p s t) : Only p s (State.eccIn t addr n ecc) := by
  refine Only.step hq h ?_
  unfold State.eccIn
  try dsimp -zeta only
  repeat' first
    | with_reducible assumption
    | with_reducible exact Only.refl _ _
    | ((with_reducible refine Parts.leq ?_); rfl)
    | with_reducible apply State.eccAll_only
    | (extract_lets +onlyGivenNames x; first
        | (refine Only.cut (p := { regs := true, poison := true, flt := true, obs := true }) (s := t) (x := x) (fun hx => ?_) ?_; clear_value x; revert x; intro y hy; rotate_left; unfold x; clear x)
        | (refine Only.cut1 (p := { regs := true, poison := true, flt := true, obs := true }) (s := t) (x := x) (fun hx => ?_) ?_; clear_value x; revert x; intro y hy; rotate_left; unfold x; clear x)
        | (refine Only.cut2 (p := { regs := true, poison := true, flt := true, obs := true }) (s := t) (x := x) (fun hx => ?_) ?_; clear_value x; revert x; intro y hy; rotate_left; unfold x; clear x)
        | (revert x; intro y))
    | simp (disch := with_unfolding_all (apply Parts.same; apply Eq.refl)) only [Only.set_iff]
    | with_reducible apply Only.foldl
    | with_reducible apply Only.foldl_fst
    | (refine Only.of_fst ‹_ = _› ?_)
    | (refine Only.of_snd ‹_ = _› ?_)
    | split
    | (intro)

theorem State.readPart_only {p : Parts} {s t : State} {who : Master} {sp : Space} {addr : Nat} {n : Nat} {ecc : EccFinds} (hq : Parts.le (Parts.report.or { poison := true, waitRd := true, order := true, fab := true, tor := true, trelfort := true }) p = true) (h : Only p s t) : Only p s (State.readPart t who sp addr n ecc) := by
  refine Only.step hq h ?_
  unfold State.readPart
  try dsimp -zeta only
  repeat' first
    | with_reducible assumption
    | with_reducible exact Only.refl _ _
    | ((with_reducible refine Parts.leq ?_); rfl)
    | with_reducible apply State.replyRead_only
    | with_reducible apply State.unmapped_only
    | with_reducible apply State.newTag_only
    | with_reducible apply State.addRead_only
    | with_reducible apply State.send_only
    | with_reducible apply State.serveRead_only
    | with_reducible apply State.eccIn_only
    | (extract_lets +onlyGivenNames x; first
        | (refine Only.cut (p := (Parts.report.or { poison := true, waitRd := true, order := true, fab := true, tor := true, trelfort := true })) (s := t) (x := x) (fun hx => ?_) ?_; clear_value x; revert x; intro y hy; rotate_left; unfold x; clear x)
        | (refine Only.cut1 (p := (Parts.report.or { poison := true, waitRd := true, order := true, fab := true, tor := true, trelfort := true })) (s := t) (x := x) (fun hx => ?_) ?_; clear_value x; revert x; intro y hy; rotate_left; unfold x; clear x)
        | (refine Only.cut2 (p := (Parts.report.or { poison := true, waitRd := true, order := true, fab := true, tor := true, trelfort := true })) (s := t) (x := x) (fun hx => ?_) ?_; clear_value x; revert x; intro y hy; rotate_left; unfold x; clear x)
        | (revert x; intro y))
    | simp (disch := with_unfolding_all (apply Parts.same; apply Eq.refl)) only [Only.set_iff]
    | with_reducible apply Only.foldl
    | with_reducible apply Only.foldl_fst
    | (refine Only.of_fst ‹_ = _› ?_)
    | (refine Only.of_snd ‹_ = _› ?_)
    | split
    | (intro)

theorem memoryRead_only {p : Parts} {s t : State} {who : Master} {sp : Space} {addr : Nat} {n : Nat} {ecc : EccFinds} (hq : Parts.le (Parts.report.or { poison := true, waitRd := true, order := true, fab := true, tor := true, trelfort := true }) p = true) (h : Only p s t) : Only p s (memoryRead t who sp addr n ecc) := by
  refine Only.step hq h ?_
  unfold memoryRead
  try dsimp -zeta only
  repeat' first
    | with_reducible assumption
    | with_reducible exact Only.refl _ _
    | ((with_reducible refine Parts.leq ?_); rfl)
    | with_reducible apply State.readPart_only
    | (extract_lets +onlyGivenNames x; first
        | (refine Only.cut (p := (Parts.report.or { poison := true, waitRd := true, order := true, fab := true, tor := true, trelfort := true })) (s := t) (x := x) (fun hx => ?_) ?_; clear_value x; revert x; intro y hy; rotate_left; unfold x; clear x)
        | (refine Only.cut1 (p := (Parts.report.or { poison := true, waitRd := true, order := true, fab := true, tor := true, trelfort := true })) (s := t) (x := x) (fun hx => ?_) ?_; clear_value x; revert x; intro y hy; rotate_left; unfold x; clear x)
        | (refine Only.cut2 (p := (Parts.report.or { poison := true, waitRd := true, order := true, fab := true, tor := true, trelfort := true })) (s := t) (x := x) (fun hx => ?_) ?_; clear_value x; revert x; intro y hy; rotate_left; unfold x; clear x)
        | (revert x; intro y))
    | simp (disch := with_unfolding_all (apply Parts.same; apply Eq.refl)) only [Only.set_iff]
    | with_reducible apply Only.foldl
    | with_reducible apply Only.foldl_fst
    | (refine Only.of_fst ‹_ = _› ?_)
    | (refine Only.of_snd ‹_ = _› ?_)
    | split
    | (intro)

theorem execMemoryRead_only {s u : State} {who : Master} {sp : Space} {addr : Nat} {len : Nat} {ecc : EccFinds} (e : execMemoryRead who sp addr len ecc s = .next u) : Only (Parts.report.or { poison := true, waitRd := true, order := true, fab := true, tor := true, trelfort := true }) s u := by
  unfold execMemoryRead at e
  injection e with e
  subst e
  try dsimp -zeta only
  repeat' first
    | with_reducible assumption
    | with_reducible exact Only.refl _ _
    | ((with_reducible refine Parts.leq ?_); rfl)
    | with_reducible apply memoryRead_only
    | (extract_lets +onlyGivenNames x; first
        | (refine Only.cut (p := (Parts.report.or { poison := true, waitRd := true, order := true, fab := true, tor := true, trelfort := true })) (s := s) (x := x) (fun hx => ?_) ?_; clear_value x; revert x; intro y hy; rotate_left; unfold x; clear x)
        | (refine Only.cut1 (p := (Parts.report.or { poison := true, waitRd := true, order := true, fab := true, tor := true, trelfort := true })) (s := s) (x := x) (fun hx => ?_) ?_; clear_value x; revert x; intro y hy; rotate_left; unfold x; clear x)
        | (refine Only.cut2 (p := (Parts.report.or { poison := true, waitRd := true, order := true, fab := true, tor := true, trelfort := true })) (s := s) (x := x) (fun hx => ?_) ?_; clear_value x; revert x; intro y hy; rotate_left; unfold x; clear x)
        | (revert x; intro y))
    | simp (disch := with_unfolding_all (apply Parts.same; apply Eq.refl)) only [Only.set_iff]
    | with_reducible apply Only.foldl
    | with_reducible apply Only.foldl_fst
    | (refine Only.of_fst ‹_ = _› ?_)
    | (refine Only.of_snd ‹_ = _› ?_)
    | split
    | (intro)

theorem execRegisterHolderTimeout_only {s u : State} {who : Master} {off : Nat} {write : Bool} (e : execRegisterHolderTimeout who off write s = .next u) : Only Parts.report s u := by
  unfold execRegisterHolderTimeout at e
  injection e with e
  subst e
  repeat' first
    | with_reducible exact Only.refl _ _
    | ((with_reducible refine Parts.leq ?_); rfl)
    | with_reducible apply State.noAnswer_only
    | with_reducible apply State.emit_only
    | split

theorem execEvrPop_only {s u : State} {who : Master} {i : Nat} (e : execEvrPop who i s = .next u) : Only { regs := true, out := true } s u := by
  unfold execEvrPop at e
  injection e with e
  subst e
  repeat' first
    | with_reducible exact Only.refl _ _
    | ((with_reducible refine Parts.leq ?_); rfl)
    | with_reducible apply State.evrPop_only
    | with_reducible apply State.emit_only
    | split

end Sys2Proof.Machine
end

