-- ==== Sys2Proof/Laws/OnlyTrace.lean ====
section
/-!
SUPPORT. Which parts of the state the operations of Machine/Trace.lean may change (Safety.lean).
-/
namespace Sys2Proof.Machine

open Sys2Proof

theorem State.applyTrace_only {p : Parts} {s t : State}  (hq : Parts.le { regs := true, obs := true } p = true) (h : Only p s t) : Only p s (State.applyTrace t) := by
  refine Only.step hq h ?_
  unfold State.applyTrace
  repeat' first
    | with_reducible exact Only.refl _ _
    | ((with_reducible refine Parts.leq ?_); rfl)
    | with_reducible apply State.setReg_only
    | simp (disch := with_unfolding_all (apply Parts.same; apply Eq.refl)) only [Only.set_iff]
    | with_reducible apply Only.foldl
    | split
    | (intro)

theorem State.traceStep_only {p : Parts} {s t : State} {b : Nat} {size : Nat} {wrap : State → State} (hq : Parts.le { regs := true } p = true) (h : Only p s t) (hwrap : ∀ z, Only p s z → Only p s (wrap z)) : Only p s (State.traceStep t b size wrap) := by
  unfold State.traceStep
  repeat' first
    | with_reducible assumption
    | apply hwrap
    | with_reducible apply State.fput_only
    | (extract_lets +onlyGivenNames x; first
        | (revert x; intro y))
    | split

theorem State.traceStopped_only {p : Parts} {s t : State} {b : Nat} (hq : Parts.le { regs := true } p = true) (h : Only p s t) : Only p s (State.traceStopped t b) := by
  refine Only.step hq h ?_
  unfold State.traceStopped
  repeat' first
    | with_reducible exact Only.refl _ _
    | ((with_reducible refine Parts.leq ?_); rfl)
    | with_reducible apply State.fput_only

theorem State.tracePost_only {p : Parts} {s t : State} {b : Nat} (hq : Parts.le { regs := true, obs := true } p = true) (h : Only p s t) : Only p s (State.tracePost t b) := by
  refine Only.step hq h ?_
  unfold State.tracePost
  repeat' first
    | with_reducible exact Only.refl _ _
    | ((with_reducible refine Parts.leq ?_); rfl)
    | with_reducible apply State.traceStopped_only
    | simp (disch := with_unfolding_all (apply Parts.same; apply Eq.refl)) only [Only.set_iff]
    | split

theorem State.tracePut_only {p : Parts} {s t : State} {b : Nat} {x2 : List Byte} (hq : Parts.le ((Parts.report.or Parts.memory).or { heldWr := true, order := true, fab := true, tor := true, arr := true }) p = true) (h : Only p s t) : Only p s (State.tracePut t b x2) := by
  refine Only.step hq h ?_
  unfold State.tracePut
  try dsimp only
  repeat' first
    | with_reducible assumption
    | with_reducible exact Only.refl _ _
    | ((with_reducible refine Parts.leq ?_); rfl)
    | with_reducible apply State.emit_only
    | with_reducible apply State.traceStep_only
    | with_reducible apply State.gwrite_only
    | with_reducible apply State.fput_only
    | with_reducible apply State.traceStopped_only
    | with_reducible apply State.tracePost_only
    | (extract_lets +onlyGivenNames x; first
        | (refine Only.cut (p := ((Parts.report.or Parts.memory).or { heldWr := true, order := true, fab := true, tor := true, arr := true })) (s := t) (x := x) (fun hx => ?_) ?_; clear_value x; revert x; intro y hy; rotate_left; unfold x; clear x)
        | (refine Only.cut1 (p := ((Parts.report.or Parts.memory).or { heldWr := true, order := true, fab := true, tor := true, arr := true })) (s := t) (x := x) (fun hx => ?_) ?_; clear_value x; revert x; intro y hy; rotate_left; unfold x; clear x)
        | (refine Only.cut2 (p := ((Parts.report.or Parts.memory).or { heldWr := true, order := true, fab := true, tor := true, arr := true })) (s := t) (x := x) (fun hx => ?_) ?_; clear_value x; revert x; intro y hy; rotate_left; unfold x; clear x)
        | (revert x; intro y))
    | simp (disch := with_unfolding_all (apply Parts.same; apply Eq.refl)) only [Only.set_iff]
    | with_reducible apply Only.foldl
    | with_reducible apply Only.foldl_fst
    | (refine Only.of_fst ‹_ = _› ?_)
    | (refine Only.of_snd ‹_ = _› ?_)
    | split
    | (intro)

theorem State.traceDiscard_only {p : Parts} {s t : State} {b : Nat} (hq : Parts.le { regs := true, obs := true } p = true) (h : Only p s t) : Only p s (State.traceDiscard t b) := by
  refine Only.step hq h ?_
  unfold State.traceDiscard
  try dsimp -zeta only
  repeat' first
    | with_reducible assumption
    | with_reducible exact Only.refl _ _
    | ((with_reducible refine Parts.leq ?_); rfl)
    | with_reducible apply State.bump_only
    | (extract_lets +onlyGivenNames x; first
        | (refine Only.cut (p := { regs := true, obs := true }) (s := t) (x := x) (fun hx => ?_) ?_; clear_value x; revert x; intro y hy; rotate_left; unfold x; clear x)
        | (refine Only.cut1 (p := { regs := true, obs := true }) (s := t) (x := x) (fun hx => ?_) ?_; clear_value x; revert x; intro y hy; rotate_left; unfold x; clear x)
        | (refine Only.cut2 (p := { regs := true, obs := true }) (s := t) (x := x) (fun hx => ?_) ?_; clear_value x; revert x; intro y hy; rotate_left; unfold x; clear x)
        | (revert x; intro y))
    | simp (disch := with_unfolding_all (apply Parts.same; apply Eq.refl)) only [Only.set_iff]
    | with_reducible apply Only.foldl
    | with_reducible apply Only.foldl_fst
    | (refine Only.of_fst ‹_ = _› ?_)
    | (refine Only.of_snd ‹_ = _› ?_)
    | split
    | (intro)

theorem State.traceLost_only {p : Parts} {s t : State} {b : Nat} {ring : Nat} {seq : Nat} (hq : Parts.le ((Parts.report.or Parts.memory).or { heldWr := true, order := true, fab := true, tor := true, freeCtr := true, arr := true }) p = true) (h : Only p s t) : Only p s (State.traceLost t b ring seq) := by
  refine Only.step hq h ?_
  unfold State.traceLost
  try dsimp -zeta only
  repeat' first
    | with_reducible assumption
    | with_reducible exact Only.refl _ _
    | ((with_reducible refine Parts.leq ?_); rfl)
    | with_reducible apply State.tracePut_only
    | with_reducible apply State.drew_only
    | (extract_lets +onlyGivenNames x; first
        | (refine Only.cut (p := ((Parts.report.or Parts.memory).or { heldWr := true, order := true, fab := true, tor := true, freeCtr := true, arr := true })) (s := t) (x := x) (fun hx => ?_) ?_; clear_value x; revert x; intro y hy; rotate_left; unfold x; clear x)
        | (refine Only.cut1 (p := ((Parts.report.or Parts.memory).or { heldWr := true, order := true, fab := true, tor := true, freeCtr := true, arr := true })) (s := t) (x := x) (fun hx => ?_) ?_; clear_value x; revert x; intro y hy; rotate_left; unfold x; clear x)
        | (refine Only.cut2 (p := ((Parts.report.or Parts.memory).or { heldWr := true, order := true, fab := true, tor := true, freeCtr := true, arr := true })) (s := t) (x := x) (fun hx => ?_) ?_; clear_value x; revert x; intro y hy; rotate_left; unfold x; clear x)
        | (revert x; intro y))
    | simp (disch := with_unfolding_all (apply Parts.same; apply Eq.refl)) only [Only.set_iff]
    | with_reducible apply Only.foldl
    | with_reducible apply Only.foldl_fst
    | (refine Only.of_fst ‹_ = _› ?_)
    | (refine Only.of_snd ‹_ = _› ?_)
    | split
    | (intro)

theorem State.traceOffer_only {p : Parts} {s t : State} {b : Nat} {ring : Nat} {seq : Nat} {x4 : List Byte} (hq : Parts.le ((Parts.report.or Parts.memory).or { heldWr := true, order := true, fab := true, tor := true, freeCtr := true, arr := true }) p = true) (h : Only p s t) : Only p s (State.traceOffer t b ring seq x4) := by
  refine Only.step hq h ?_
  unfold State.traceOffer
  try dsimp -zeta only
  repeat' first
    | with_reducible assumption
    | with_reducible exact Only.refl _ _
    | ((with_reducible refine Parts.leq ?_); rfl)
    | with_reducible apply State.drew_only
    | with_reducible apply State.traceDiscard_only
    | with_reducible apply State.tracePut_only
    | with_reducible apply State.traceLost_only
    | (extract_lets +onlyGivenNames x; first
        | (refine Only.cut (p := ((Parts.report.or Parts.memory).or { heldWr := true, order := true, fab := true, tor := true, freeCtr := true, arr := true })) (s := t) (x := x) (fun hx => ?_) ?_; clear_value x; revert x; intro y hy; rotate_left; unfold x; clear x)
        | (refine Only.cut1 (p := ((Parts.report.or Parts.memory).or { heldWr := true, order := true, fab := true, tor := true, freeCtr := true, arr := true })) (s := t) (x := x) (fun hx => ?_) ?_; clear_value x; revert x; intro y hy; rotate_left; unfold x; clear x)
        | (refine Only.cut2 (p := ((Parts.report.or Parts.memory).or { heldWr := true, order := true, fab := true, tor := true, freeCtr := true, arr := true })) (s := t) (x := x) (fun hx => ?_) ?_; clear_value x; revert x; intro y hy; rotate_left; unfold x; clear x)
        | (revert x; intro y))
    | simp (disch := with_unfolding_all (apply Parts.same; apply Eq.refl)) only [Only.set_iff]
    | with_reducible apply Only.foldl
    | with_reducible apply Only.foldl_fst
    | (refine Only.of_fst ‹_ = _› ?_)
    | (refine Only.of_snd ‹_ = _› ?_)
    | split
    | (intro)

theorem State.traceSync_only {p : Parts} {s t : State} {b : Nat} {ring : Nat} {seq : Nat} (hq : Parts.le ((Parts.report.or Parts.memory).or { heldWr := true, order := true, fab := true, tor := true, freeCtr := true, arr := true }) p = true) (h : Only p s t) : Only p s (State.traceSync t b ring seq) := by
  refine Only.step hq h ?_
  unfold State.traceSync
  try dsimp -zeta only
  repeat' first
    | with_reducible assumption
    | with_reducible exact Only.refl _ _
    | ((with_reducible refine Parts.leq ?_); rfl)
    | with_reducible apply State.traceOffer_only
    | with_reducible apply State.drew_only
    | (extract_lets +onlyGivenNames x; first
        | (refine Only.cut (p := ((Parts.report.or Parts.memory).or { heldWr := true, order := true, fab := true, tor := true, freeCtr := true, arr := true })) (s := t) (x := x) (fun hx => ?_) ?_; clear_value x; revert x; intro y hy; rotate_left; unfold x; clear x)
        | (refine Only.cut1 (p := ((Parts.report.or Parts.memory).or { heldWr := true, order := true, fab := true, tor := true, freeCtr := true, arr := true })) (s := t) (x := x) (fun hx => ?_) ?_; clear_value x; revert x; intro y hy; rotate_left; unfold x; clear x)
        | (refine Only.cut2 (p := ((Parts.report.or Parts.memory).or { heldWr := true, order := true, fab := true, tor := true, freeCtr := true, arr := true })) (s := t) (x := x) (fun hx => ?_) ?_; clear_value x; revert x; intro y hy; rotate_left; unfold x; clear x)
        | (revert x; intro y))
    | simp (disch := with_unfolding_all (apply Parts.same; apply Eq.refl)) only [Only.set_iff]
    | with_reducible apply Only.foldl
    | with_reducible apply Only.foldl_fst
    | (refine Only.of_fst ‹_ = _› ?_)
    | (refine Only.of_snd ‹_ = _› ?_)
    | split
    | (intro)

theorem State.tracePacket_only {p : Parts} {s t : State} {b : Nat} {ring : Nat} {seq : Nat} {x4 : List Byte} (hq : Parts.le ((Parts.report.or Parts.memory).or { heldWr := true, order := true, fab := true, tor := true, freeCtr := true, arr := true }) p = true) (h : Only p s t) : Only p s (State.tracePacket t b ring seq x4) := by
  refine Only.step hq h ?_
  unfold State.tracePacket
  try dsimp -zeta only
  repeat' first
    | with_reducible assumption
    | with_reducible exact Only.refl _ _
    | ((with_reducible refine Parts.leq ?_); rfl)
    | with_reducible apply State.traceSync_only
    | with_reducible apply State.traceOffer_only
    | (extract_lets +onlyGivenNames x; first
        | (refine Only.cut (p := ((Parts.report.or Parts.memory).or { heldWr := true, order := true, fab := true, tor := true, freeCtr := true, arr := true })) (s := t) (x := x) (fun hx => ?_) ?_; clear_value x; revert x; intro y hy; rotate_left; unfold x; clear x)
        | (refine Only.cut1 (p := ((Parts.report.or Parts.memory).or { heldWr := true, order := true, fab := true, tor := true, freeCtr := true, arr := true })) (s := t) (x := x) (fun hx => ?_) ?_; clear_value x; revert x; intro y hy; rotate_left; unfold x; clear x)
        | (refine Only.cut2 (p := ((Parts.report.or Parts.memory).or { heldWr := true, order := true, fab := true, tor := true, freeCtr := true, arr := true })) (s := t) (x := x) (fun hx => ?_) ?_; clear_value x; revert x; intro y hy; rotate_left; unfold x; clear x)
        | (revert x; intro y))
    | simp (disch := with_unfolding_all (apply Parts.same; apply Eq.refl)) only [Only.set_iff]
    | with_reducible apply Only.foldl
    | with_reducible apply Only.foldl_fst
    | (refine Only.of_fst ‹_ = _› ?_)
    | (refine Only.of_snd ‹_ = _› ?_)
    | split
    | (intro)

theorem State.traceTags_only {p : Parts} {s t : State} {b : Nat} {d : Started} (hq : Parts.le ((Parts.report.or Parts.memory).or { heldWr := true, order := true, fab := true, tor := true, freeCtr := true, arr := true }) p = true) (h : Only p s t) : Only p s (State.traceTags t b d) := by
  refine Only.step hq h ?_
  unfold State.traceTags
  try dsimp -zeta only
  repeat' first
    | with_reducible assumption
    | with_reducible exact Only.refl _ _
    | ((with_reducible refine Parts.leq ?_); rfl)
    | with_reducible apply State.tracePacket_only
    | (extract_lets +onlyGivenNames x; first
        | (refine Only.cut (p := ((Parts.report.or Parts.memory).or { heldWr := true, order := true, fab := true, tor := true, freeCtr := true, arr := true })) (s := t) (x := x) (fun hx => ?_) ?_; clear_value x; revert x; intro y hy; rotate_left; unfold x; clear x)
        | (refine Only.cut1 (p := ((Parts.report.or Parts.memory).or { heldWr := true, order := true, fab := true, tor := true, freeCtr := true, arr := true })) (s := t) (x := x) (fun hx => ?_) ?_; clear_value x; revert x; intro y hy; rotate_left; unfold x; clear x)
        | (refine Only.cut2 (p := ((Parts.report.or Parts.memory).or { heldWr := true, order := true, fab := true, tor := true, freeCtr := true, arr := true })) (s := t) (x := x) (fun hx => ?_) ?_; clear_value x; revert x; intro y hy; rotate_left; unfold x; clear x)
        | (revert x; intro y))
    | simp (disch := with_unfolding_all (apply Parts.same; apply Eq.refl)) only [Only.set_iff]
    | with_reducible apply Only.foldl
    | with_reducible apply Only.foldl_fst
    | (refine Only.of_fst ‹_ = _› ?_)
    | (refine Only.of_snd ‹_ = _› ?_)
    | split
    | (intro)

theorem State.traceEndPacket_only {p : Parts} {s t : State} {b : Nat} {d : Started} (hq : Parts.le ((Parts.report.or Parts.memory).or { heldWr := true, order := true, fab := true, tor := true, freeCtr := true, arr := true }) p = true) (h : Only p s t) : Only p s (State.traceEndPacket t b d) := by
  refine Only.step hq h ?_
  unfold State.traceEndPacket
  try dsimp -zeta only
  repeat' first
    | with_reducible assumption
    | with_reducible exact Only.refl _ _
    | ((with_reducible refine Parts.leq ?_); rfl)
    | with_reducible apply State.tracePacket_only
    | with_reducible apply State.drew_only
    | (extract_lets +onlyGivenNames x; first
        | (refine Only.cut (p := ((Parts.report.or Parts.memory).or { heldWr := true, order := true, fab := true, tor := true, freeCtr := true, arr := true })) (s := t) (x := x) (fun hx => ?_) ?_; clear_value x; revert x; intro y hy; rotate_left; unfold x; clear x)
        | (refine Only.cut1 (p := ((Parts.report.or Parts.memory).or { heldWr := true, order := true, fab := true, tor := true, freeCtr := true, arr := true })) (s := t) (x := x) (fun hx => ?_) ?_; clear_value x; revert x; intro y hy; rotate_left; unfold x; clear x)
        | (refine Only.cut2 (p := ((Parts.report.or Parts.memory).or { heldWr := true, order := true, fab := true, tor := true, freeCtr := true, arr := true })) (s := t) (x := x) (fun hx => ?_) ?_; clear_value x; revert x; intro y hy; rotate_left; unfold x; clear x)
        | (revert x; intro y))
    | simp (disch := with_unfolding_all (apply Parts.same; apply Eq.refl)) only [Only.set_iff]
    | with_reducible apply Only.foldl
    | with_reducible apply Only.foldl_fst
    | (refine Only.of_fst ‹_ = _› ?_)
    | (refine Only.of_snd ‹_ = _› ?_)
    | split
    | (intro)

theorem State.traceStart_only {p : Parts} {s t : State} {d : Started} {blocks : List Nat} (hq : Parts.le ((Parts.report.or Parts.memory).or { heldWr := true, order := true, fab := true, tor := true, freeCtr := true, arr := true }) p = true) (h : Only p s t) : Only p s (State.traceStart t d blocks) := by
  refine Only.step hq h ?_
  unfold State.traceStart
  try dsimp -zeta only
  repeat' first
    | with_reducible assumption
    | with_reducible exact Only.refl _ _
    | ((with_reducible refine Parts.leq ?_); rfl)
    | with_reducible apply State.traceTags_only
    | with_reducible apply State.traceSync_only
    | (extract_lets +onlyGivenNames x; first
        | (refine Only.cut (p := ((Parts.report.or Parts.memory).or { heldWr := true, order := true, fab := true, tor := true, freeCtr := true, arr := true })) (s := t) (x := x) (fun hx => ?_) ?_; clear_value x; revert x; intro y hy; rotate_left; unfold x; clear x)
        | (refine Only.cut1 (p := ((Parts.report.or Parts.memory).or { heldWr := true, order := true, fab := true, tor := true, freeCtr := true, arr := true })) (s := t) (x := x) (fun hx => ?_) ?_; clear_value x; revert x; intro y hy; rotate_left; unfold x; clear x)
        | (refine Only.cut2 (p := ((Parts.report.or Parts.memory).or { heldWr := true, order := true, fab := true, tor := true, freeCtr := true, arr := true })) (s := t) (x := x) (fun hx => ?_) ?_; clear_value x; revert x; intro y hy; rotate_left; unfold x; clear x)
        | (revert x; intro y))
    | simp (disch := with_unfolding_all (apply Parts.same; apply Eq.refl)) only [Only.set_iff]
    | with_reducible apply Only.foldl
    | with_reducible apply Only.foldl_fst
    | (refine Only.of_fst ‹_ = _› ?_)
    | (refine Only.of_snd ‹_ = _› ?_)
    | split
    | (intro)

theorem traceEnd_only {p : Parts} {s t : State} {d : Started} (hq : Parts.le ((Parts.report.or Parts.memory).or { heldWr := true, order := true, fab := true, tor := true, freeCtr := true, arr := true }) p = true) (h : Only p s t) : Only p s (traceEnd t d) := by
  refine Only.step hq h ?_
  unfold traceEnd
  try dsimp -zeta only
  repeat' first
    | with_reducible assumption
    | with_reducible exact Only.refl _ _
    | ((with_reducible refine Parts.leq ?_); rfl)
    | with_reducible apply State.traceEndPacket_only
    | with_reducible apply State.tracePacket_only
    | with_reducible apply State.drew_only
    | (extract_lets +onlyGivenNames x; first
        | (refine Only.cut (p := ((Parts.report.or Parts.memory).or { heldWr := true, order := true, fab := true, tor := true, freeCtr := true, arr := true })) (s := t) (x := x) (fun hx => ?_) ?_; clear_value x; revert x; intro y hy; rotate_left; unfold x; clear x)
        | (refine Only.cut1 (p := ((Parts.report.or Parts.memory).or { heldWr := true, order := true, fab := true, tor := true, freeCtr := true, arr := true })) (s := t) (x := x) (fun hx => ?_) ?_; clear_value x; revert x; intro y hy; rotate_left; unfold x; clear x)
        | (refine Only.cut2 (p := ((Parts.report.or Parts.memory).or { heldWr := true, order := true, fab := true, tor := true, freeCtr := true, arr := true })) (s := t) (x := x) (fun hx => ?_) ?_; clear_value x; revert x; intro y hy; rotate_left; unfold x; clear x)
        | (revert x; intro y))
    | simp (disch := with_unfolding_all (apply Parts.same; apply Eq.refl)) only [Only.set_iff]
    | with_reducible apply Only.foldl
    | with_reducible apply Only.foldl_fst
    | (refine Only.of_fst ‹_ = _› ?_)
    | (refine Only.of_snd ‹_ = _› ?_)
    | split
    | (intro)

end Sys2Proof.Machine
end

