-- ==== Sys2Proof/Laws/OnlyStop.lean ====
section
/-!
SUPPORT. Which parts of the state the operations of Machine/Stop.lean may change (Safety.lean).
-/
namespace Sys2Proof.Machine

open Sys2Proof

theorem State.updTicket_only {p : Parts} {s t : State} {x1 : Nat} {f : TicketSt → TicketSt} (hq : Parts.le { arr := true } p = true) (h : Only p s t) : Only p s (State.updTicket t x1 f) := by
  refine Only.step hq h ?_
  unfold State.updTicket
  repeat' first
    | with_reducible exact Only.refl _ _
    | ((with_reducible refine Parts.leq ?_); rfl)
    | simp (disch := with_unfolding_all (apply Parts.same; apply Eq.refl)) only [Only.set_iff]

theorem State.endRun_only {p : Parts} {s t : State}  (hq : Parts.le { regs := true, arr := true } p = true) (h : Only p s t) : Only p s (State.endRun t) := by
  refine Only.step hq h ?_
  unfold State.endRun
  try dsimp -zeta only
  repeat' first
    | with_reducible assumption
    | with_reducible exact Only.refl _ _
    | ((with_reducible refine Parts.leq ?_); rfl)
    | with_reducible apply State.bump_only
    | with_reducible apply State.updTicket_only
    | with_reducible apply State.setReg_only
    | (extract_lets +onlyGivenNames x; first
        | (refine Only.cut (p := { regs := true, arr := true }) (s := t) (x := x) (fun hx => ?_) ?_; clear_value x; revert x; intro y hy; rotate_left; unfold x; clear x)
        | (refine Only.cut1 (p := { regs := true, arr := true }) (s := t) (x := x) (fun hx => ?_) ?_; clear_value x; revert x; intro y hy; rotate_left; unfold x; clear x)
        | (refine Only.cut2 (p := { regs := true, arr := true }) (s := t) (x := x) (fun hx => ?_) ?_; clear_value x; revert x; intro y hy; rotate_left; unfold x; clear x)
        | (revert x; intro y))
    | simp (disch := with_unfolding_all (apply Parts.same; apply Eq.refl)) only [Only.set_iff]
    | with_reducible apply Only.foldl
    | with_reducible apply Only.foldl_fst
    | (refine Only.of_fst ‹_ = _› ?_)
    | (refine Only.of_snd ‹_ = _› ?_)
    | split
    | (intro)

theorem State.stopArray_only {p : Parts} {s t : State} {d : Started} (hq : Parts.le { regs := true, arr := true } p = true) (h : Only p s t) : Only p s (State.stopArray t d) := by
  refine Only.step hq h ?_
  unfold State.stopArray
  repeat' first
    | with_reducible exact Only.refl _ _
    | ((with_reducible refine Parts.leq ?_); rfl)
    | with_reducible apply State.endRun_only
    | split

theorem State.endRank_only {p : Parts} {s t : State} {n : Nat} {seq : Nat} (hq : Parts.le { ranks := true } p = true) (h : Only p s t) : Only p s (State.endRank t n seq) := by
  refine Only.step hq h ?_
  unfold State.endRank
  repeat' first
    | with_reducible exact Only.refl _ _
    | ((with_reducible refine Parts.leq ?_); rfl)
    | simp (disch := with_unfolding_all (apply Parts.same; apply Eq.refl)) only [Only.set_iff]

end Sys2Proof.Machine
end

