-- ==== Sys2Proof/Laws/OnlyRings.lean ====
section
/-!
SUPPORT. Which parts of the state the operations of Machine/Rings.lean may change (Safety.lean).
-/
namespace Sys2Proof.Machine

open Sys2Proof

theorem doorbell_only {p : Parts} {s t : State} {n : Nat} {value : Word} (hq : Parts.le { regs := true, sq := true } p = true) (h : Only p s t) : Only p s (doorbell t n value) := by
  refine Only.step hq h ?_
  unfold doorbell
  repeat' first
    | with_reducible exact Only.refl _ _
    | ((with_reducible refine Parts.leq ?_); rfl)
    | with_reducible apply State.fput_only
    | with_reducible apply State.setSq_only
    | with_reducible apply State.bump_only
    | (extract_lets +onlyGivenNames x; first
        | (revert x; intro y))
    | split

theorem execDoorbell_only {s u : State} {n : Nat} {value : Word} (e : execDoorbell n value s = .next u) : Only { regs := true, sq := true } s u := by
  unfold execDoorbell at e
  injection e with e
  subst e
  repeat' first
    | with_reducible exact Only.refl _ _
    | ((with_reducible refine Parts.leq ?_); rfl)
    | with_reducible apply doorbell_only
    | split

theorem State.extRead_only {p : Parts} {s t : State} {who : Master} {loc : Bool} {addr : Nat} {n : Nat} {ext : List Byte} (hq : Parts.le (Parts.report.or { tor := true }) p = true) (h : Only p s t) : Only p s (State.extRead t who loc addr n ext).1 := by
  refine Only.step hq h ?_
  unfold State.extRead
  try dsimp -zeta only
  repeat' first
    | with_reducible assumption
    | with_reducible exact Only.refl _ _
    | ((with_reducible refine Parts.leq ?_); rfl)
    | with_reducible apply State.unmapped_only
    | with_reducible apply State.fetchBytes_only
    | (extract_lets +onlyGivenNames x; first
        | (refine Only.cut (p := (Parts.report.or { tor := true })) (s := t) (x := x) (fun hx => ?_) ?_; clear_value x; revert x; intro y hy; rotate_left; unfold x; clear x)
        | (refine Only.cut1 (p := (Parts.report.or { tor := true })) (s := t) (x := x) (fun hx => ?_) ?_; clear_value x; revert x; intro y hy; rotate_left; unfold x; clear x)
        | (refine Only.cut2 (p := (Parts.report.or { tor := true })) (s := t) (x := x) (fun hx => ?_) ?_; clear_value x; revert x; intro y hy; rotate_left; unfold x; clear x)
        | (revert x; intro y))
    | simp (disch := with_unfolding_all (apply Parts.same; apply Eq.refl)) only [Only.set_iff]
    | with_reducible apply Only.foldl
    | with_reducible apply Only.foldl_fst
    | (refine Only.of_fst ‹_ = _› ?_)
    | (refine Only.of_snd ‹_ = _› ?_)
    | split
    | (intro)

theorem fetch_only {p : Parts} {s t : State} {n : Nat} {data : List Byte} {param : List Byte} (hq : Parts.le ((Parts.report.or Parts.memory).or { hostW := true, sq := true, pcie := true, heldWr := true, order := true, fab := true, tor := true, arr := true }) p = true) (h : Only p s t) : Only p s (fetch t n data param) := by
  refine Only.step hq h ?_
  unfold fetch
  try dsimp -zeta only
  repeat' first
    | with_reducible assumption
    | with_reducible exact Only.refl _ _
    | ((with_reducible refine Parts.leq ?_); rfl)
    | with_reducible apply State.extRead_only
    | with_reducible apply State.poisonCheck_only
    | with_reducible apply State.count_only
    | with_reducible apply State.reserve_only
    | with_reducible apply State.setSq_only
    | with_reducible apply State.complete_only
    | with_reducible apply State.putBit_only
    | (extract_lets +onlyGivenNames x; first
        | (refine Only.cut (p := ((Parts.report.or Parts.memory).or { hostW := true, sq := true, pcie := true, heldWr := true, order := true, fab := true, tor := true, arr := true })) (s := t) (x := x) (fun hx => ?_) ?_; clear_value x; revert x; intro y hy; rotate_left; unfold x; clear x)
        | (refine Only.cut1 (p := ((Parts.report.or Parts.memory).or { hostW := true, sq := true, pcie := true, heldWr := true, order := true, fab := true, tor := true, arr := true })) (s := t) (x := x) (fun hx => ?_) ?_; clear_value x; revert x; intro y hy; rotate_left; unfold x; clear x)
        | (refine Only.cut2 (p := ((Parts.report.or Parts.memory).or { hostW := true, sq := true, pcie := true, heldWr := true, order := true, fab := true, tor := true, arr := true })) (s := t) (x := x) (fun hx => ?_) ?_; clear_value x; revert x; intro y hy; rotate_left; unfold x; clear x)
        | (revert x; intro y))
    | simp (disch := with_unfolding_all (apply Parts.same; apply Eq.refl)) only [Only.set_iff]
    | with_reducible apply Only.foldl
    | with_reducible apply Only.foldl_fst
    | (refine Only.of_fst ‹_ = _› ?_)
    | (refine Only.of_snd ‹_ = _› ?_)
    | split
    | (intro)

theorem execDescriptorFetch_only {s u : State} {n : Nat} {data : List Byte} {param : List Byte} {ecc : EccFinds} (e : execDescriptorFetch n data param ecc s = .next u) : Only ((Parts.report.or Parts.memory).or { hostW := true, sq := true, pcie := true, heldWr := true, order := true, fab := true, tor := true, arr := true }) s u := by
  unfold execDescriptorFetch at e
  injection e with e
  subst e
  try dsimp -zeta only
  repeat' first
    | with_reducible assumption
    | with_reducible exact Only.refl _ _
    | ((with_reducible refine Parts.leq ?_); rfl)
    | with_reducible apply State.eccAll_only
    | with_reducible apply fetch_only
    | (extract_lets +onlyGivenNames x; first
        | (refine Only.cut (p := ((Parts.report.or Parts.memory).or { hostW := true, sq := true, pcie := true, heldWr := true, order := true, fab := true, tor := true, arr := true })) (s := s) (x := x) (fun hx => ?_) ?_; clear_value x; revert x; intro y hy; rotate_left; unfold x; clear x)
        | (refine Only.cut1 (p := ((Parts.report.or Parts.memory).or { hostW := true, sq := true, pcie := true, heldWr := true, order := true, fab := true, tor := true, arr := true })) (s := s) (x := x) (fun hx => ?_) ?_; clear_value x; revert x; intro y hy; rotate_left; unfold x; clear x)
        | (refine Only.cut2 (p := ((Parts.report.or Parts.memory).or { hostW := true, sq := true, pcie := true, heldWr := true, order := true, fab := true, tor := true, arr := true })) (s := s) (x := x) (fun hx => ?_) ?_; clear_value x; revert x; intro y hy; rotate_left; unfold x; clear x)
        | (revert x; intro y))
    | simp (disch := with_unfolding_all (apply Parts.same; apply Eq.refl)) only [Only.set_iff]
    | with_reducible apply Only.foldl
    | with_reducible apply Only.foldl_fst
    | (refine Only.of_fst ‹_ = _› ?_)
    | (refine Only.of_snd ‹_ = _› ?_)
    | split
    | (intro)

theorem State.declareHang_only {p : Parts} {s t : State} {ring : Nat} {die : Nat} {len : Nat} {fn : Nat} {port : Nat} {seq : Nat} {layer : Nat} {op : Nat} (hq : Parts.le { regs := true } p = true) (h : Only p s t) : Only p s (State.declareHang t ring die len fn port seq layer op) := by
  refine Only.step hq h ?_
  unfold State.declareHang
  repeat' first
    | with_reducible exact Only.refl _ _
    | ((with_reducible refine Parts.leq ?_); rfl)
    | with_reducible apply State.bump_only
    | with_reducible apply State.setReg_only
    | split

theorem dropDisowned_only {p : Parts} {s t : State} {d : Started} (hq : Parts.le (Parts.report.or { genStale := true, started := true }) p = true) (h : Only p s t) : Only p s (dropDisowned t d) := by
  refine Only.step hq h ?_
  unfold dropDisowned
  try dsimp -zeta only
  repeat' first
    | with_reducible assumption
    | with_reducible exact Only.refl _ _
    | ((with_reducible refine Parts.leq ?_); rfl)
    | with_reducible apply State.lower_only
    | with_reducible apply State.report_only
    | (extract_lets +onlyGivenNames x; first
        | (refine Only.cut (p := (Parts.report.or { genStale := true, started := true })) (s := t) (x := x) (fun hx => ?_) ?_; clear_value x; revert x; intro y hy; rotate_left; unfold x; clear x)
        | (refine Only.cut1 (p := (Parts.report.or { genStale := true, started := true })) (s := t) (x := x) (fun hx => ?_) ?_; clear_value x; revert x; intro y hy; rotate_left; unfold x; clear x)
        | (refine Only.cut2 (p := (Parts.report.or { genStale := true, started := true })) (s := t) (x := x) (fun hx => ?_) ?_; clear_value x; revert x; intro y hy; rotate_left; unfold x; clear x)
        | (revert x; intro y))
    | simp (disch := with_unfolding_all (apply Parts.same; apply Eq.refl)) only [Only.set_iff]
    | with_reducible apply Only.foldl
    | with_reducible apply Only.foldl_fst
    | (refine Only.of_fst ‹_ = _› ?_)
    | (refine Only.of_snd ‹_ = _› ?_)
    | split
    | (intro)

theorem State.dropStarted_only {p : Parts} {s t : State} {d : Started} (hq : Parts.le { started := true } p = true) (h : Only p s t) : Only p s (State.dropStarted t d) := by
  refine Only.step hq h ?_
  unfold State.dropStarted
  try dsimp -zeta only
  repeat' first
    | with_reducible assumption
    | with_reducible exact Only.refl _ _
    | ((with_reducible refine Parts.leq ?_); rfl)
    | (extract_lets +onlyGivenNames x; first
        | (refine Only.cut (p := { started := true }) (s := t) (x := x) (fun hx => ?_) ?_; clear_value x; revert x; intro y hy; rotate_left; unfold x; clear x)
        | (refine Only.cut1 (p := { started := true }) (s := t) (x := x) (fun hx => ?_) ?_; clear_value x; revert x; intro y hy; rotate_left; unfold x; clear x)
        | (refine Only.cut2 (p := { started := true }) (s := t) (x := x) (fun hx => ?_) ?_; clear_value x; revert x; intro y hy; rotate_left; unfold x; clear x)
        | (revert x; intro y))
    | simp (disch := with_unfolding_all (apply Parts.same; apply Eq.refl)) only [Only.set_iff]
    | with_reducible apply Only.foldl
    | with_reducible apply Only.foldl_fst
    | (refine Only.of_fst ‹_ = _› ?_)
    | (refine Only.of_snd ‹_ = _› ?_)
    | split
    | (intro)

theorem State.addUnconf_only {p : Parts} {s t : State} {x1 : Unconf} (hq : Parts.le { unconf := true } p = true) (h : Only p s t) : Only p s (State.addUnconf t x1) := by
  refine Only.step hq h ?_
  unfold State.addUnconf
  try dsimp -zeta only
  repeat' first
    | with_reducible assumption
    | with_reducible exact Only.refl _ _
    | ((with_reducible refine Parts.leq ?_); rfl)
    | (extract_lets +onlyGivenNames x; first
        | (refine Only.cut (p := { unconf := true }) (s := t) (x := x) (fun hx => ?_) ?_; clear_value x; revert x; intro y hy; rotate_left; unfold x; clear x)
        | (refine Only.cut1 (p := { unconf := true }) (s := t) (x := x) (fun hx => ?_) ?_; clear_value x; revert x; intro y hy; rotate_left; unfold x; clear x)
        | (refine Only.cut2 (p := { unconf := true }) (s := t) (x := x) (fun hx => ?_) ?_; clear_value x; revert x; intro y hy; rotate_left; unfold x; clear x)
        | (revert x; intro y))
    | simp (disch := with_unfolding_all (apply Parts.same; apply Eq.refl)) only [Only.set_iff]
    | with_reducible apply Only.foldl
    | with_reducible apply Only.foldl_fst
    | (refine Only.of_fst ‹_ = _› ?_)
    | (refine Only.of_snd ‹_ = _› ?_)
    | split
    | (intro)

theorem completeStarted_only {p : Parts} {s t : State} {d : Started} {out : Done} {end_ : State → State} (hq : Parts.le ((Parts.report.or Parts.memory).or { genStale := true, hostW := true, sq := true, started := true, unconf := true, pcie := true, heldWr := true, order := true, fab := true, tor := true, arr := true }) p = true) (h : Only p s t) (hend_ : ∀ z, Only p s z → Only p s (end_ z)) : Only p s (completeStarted t d out end_) := by
  unfold completeStarted
  try dsimp -zeta only
  repeat' first
    | with_reducible assumption
    | with_reducible exact Only.refl _ _
    | ((with_reducible refine Parts.leq ?_); exact Parts.le_trans rfl hq)
    | apply hend_
    | with_reducible apply dropDisowned_only
    | with_reducible apply State.complete_only
    | with_reducible apply State.dropStarted_only
    | with_reducible apply State.addUnconf_only
    | (extract_lets +onlyGivenNames x; first
        | (refine Only.cut (p := p) (s := s) (x := x) (fun hx => ?_) ?_; clear_value x; revert x; intro y hy; rotate_left; unfold x; clear x)
        | (refine Only.cut1 (p := p) (s := s) (x := x) (fun hx => ?_) ?_; clear_value x; revert x; intro y hy; rotate_left; unfold x; clear x)
        | (refine Only.cut2 (p := p) (s := s) (x := x) (fun hx => ?_) ?_; clear_value x; revert x; intro y hy; rotate_left; unfold x; clear x)
        | (revert x; intro y))
    | simp (disch := with_unfolding_all (apply Parts.same; apply Eq.refl)) only [Only.set_iff]
    | with_reducible apply Only.foldl
    | with_reducible apply Only.foldl_fst
    | (refine Only.of_fst ‹_ = _› ?_)
    | (refine Only.of_snd ‹_ = _› ?_)
    | split
    | (intro)

theorem execDescriptorComplete_only {s u : State} {n : Nat} {seq : Nat} (e : execDescriptorComplete n seq s = .next u) : Only ((Parts.report.or Parts.memory).or { genStale := true, hostW := true, sq := true, started := true, unconf := true, pcie := true, heldWr := true, order := true, fab := true, tor := true, freeCtr := true, arr := true }) s u := by
  unfold execDescriptorComplete at e
  injection e with e
  subst e
  try dsimp -zeta only
  repeat' first
    | with_reducible assumption
    | with_reducible exact Only.refl _ _
    | ((with_reducible refine Parts.leq ?_); rfl)
    | with_reducible apply completeStarted_only
    | with_reducible apply traceEnd_only
    | (extract_lets +onlyGivenNames x; first
        | (refine Only.cut (p := ((Parts.report.or Parts.memory).or { genStale := true, hostW := true, sq := true, started := true, unconf := true, pcie := true, heldWr := true, order := true, fab := true, tor := true, freeCtr := true, arr := true })) (s := s) (x := x) (fun hx => ?_) ?_; clear_value x; revert x; intro y hy; rotate_left; unfold x; clear x)
        | (refine Only.cut1 (p := ((Parts.report.or Parts.memory).or { genStale := true, hostW := true, sq := true, started := true, unconf := true, pcie := true, heldWr := true, order := true, fab := true, tor := true, freeCtr := true, arr := true })) (s := s) (x := x) (fun hx => ?_) ?_; clear_value x; revert x; intro y hy; rotate_left; unfold x; clear x)
        | (refine Only.cut2 (p := ((Parts.report.or Parts.memory).or { genStale := true, hostW := true, sq := true, started := true, unconf := true, pcie := true, heldWr := true, order := true, fab := true, tor := true, freeCtr := true, arr := true })) (s := s) (x := x) (fun hx => ?_) ?_; clear_value x; revert x; intro y hy; rotate_left; unfold x; clear x)
        | (revert x; intro y))
    | simp (disch := with_unfolding_all (apply Parts.same; apply Eq.refl)) only [Only.set_iff]
    | with_reducible apply Only.foldl
    | with_reducible apply Only.foldl_fst
    | (refine Only.of_fst ‹_ = _› ?_)
    | (refine Only.of_snd ‹_ = _› ?_)
    | split
    | (intro)

theorem execMsixUnmask_only {s u : State} {vector : Option Nat} (e : execMsixUnmask vector s = .next u) : Only { pcie := true, out := true } s u := by
  unfold execMsixUnmask at e
  injection e with e
  subst e
  repeat' first
    | with_reducible exact Only.refl _ _
    | ((with_reducible refine Parts.leq ?_); rfl)
    | with_reducible apply State.emit_only
    | simp (disch := with_unfolding_all (apply Parts.same; apply Eq.refl)) only [Only.set_iff]
    | with_reducible apply Only.foldl
    | (intro)

theorem cqHeadWrite_only {p : Parts} {s t : State} {m : Nat} {value : Nat} (hq : Parts.le Parts.report p = true) (h : Only p s t) : Only p s (cqHeadWrite t m value) := by
  refine Only.step hq h ?_
  unfold cqHeadWrite
  repeat' first
    | with_reducible exact Only.refl _ _
    | ((with_reducible refine Parts.leq ?_); rfl)
    | with_reducible apply State.fput_only
    | with_reducible apply State.rejected_only
    | (extract_lets +onlyGivenNames x; first
        | (revert x; intro y))
    | split

theorem execCqHeadWrite_only {s u : State} {m : Nat} {value : Nat} (e : execCqHeadWrite m value s = .next u) : Only Parts.report s u := by
  unfold execCqHeadWrite at e
  injection e with e
  subst e
  repeat' first
    | with_reducible exact Only.refl _ _
    | ((with_reducible refine Parts.leq ?_); rfl)
    | with_reducible apply cqHeadWrite_only
    | split

end Sys2Proof.Machine
end

