-- ==== Sys2Proof/Laws/OnlySump.lean ====
section
/-!
SUPPORT. Which parts of the state the operations of Machine/Sump.lean may change (Safety.lean).
-/
namespace Sys2Proof.Machine

open Sys2Proof

theorem State.writeImagePage_only {p : Parts} {s t : State} {place : Nat} {ip : Nat} {step : Nat} {d : List Byte} (hq : Parts.le { hbm := true, staging := true, stagTag := true, poison := true } p = true) (h : Only p s t) : Only p s (State.writeImagePage t place ip step d) := by
  refine Only.step hq h ?_
  unfold State.writeImagePage
  try dsimp -zeta only
  repeat' first
    | with_reducible assumption
    | with_reducible exact Only.refl _ _
    | ((with_reducible refine Parts.leq ?_); rfl)
    | with_reducible apply State.sealSump_only
    | with_reducible apply State.writeSump_only
    | (extract_lets +onlyGivenNames x; first
        | (refine Only.cut (p := { hbm := true, staging := true, stagTag := true, poison := true }) (s := t) (x := x) (fun hx => ?_) ?_; clear_value x; revert x; intro y hy; rotate_left; unfold x; clear x)
        | (refine Only.cut1 (p := { hbm := true, staging := true, stagTag := true, poison := true }) (s := t) (x := x) (fun hx => ?_) ?_; clear_value x; revert x; intro y hy; rotate_left; unfold x; clear x)
        | (refine Only.cut2 (p := { hbm := true, staging := true, stagTag := true, poison := true }) (s := t) (x := x) (fun hx => ?_) ?_; clear_value x; revert x; intro y hy; rotate_left; unfold x; clear x)
        | (revert x; intro y))
    | simp (disch := with_unfolding_all (apply Parts.same; apply Eq.refl)) only [Only.set_iff]
    | with_reducible apply Only.foldl
    | with_reducible apply Only.foldl_fst
    | (refine Only.of_fst ‹_ = _› ?_)
    | (refine Only.of_snd ‹_ = _› ?_)
    | split
    | (intro)

theorem State.clearInactive_only {p : Parts} {s t : State} {page : Nat} (hq : Parts.le { dirty := true } p = true) (h : Only p s t) : Only p s (State.clearInactive t page) := by
  refine Only.step hq h ?_
  unfold State.clearInactive
  repeat' first
    | with_reducible exact Only.refl _ _
    | ((with_reducible refine Parts.leq ?_); rfl)
    | simp (disch := with_unfolding_all (apply Parts.same; apply Eq.refl)) only [Only.set_iff]

theorem State.countInactive_only {p : Parts} {s t : State} {r : Nat} (hq : Parts.le { regs := true } p = true) (h : Only p s t) : Only p s (State.countInactive t r) := by
  refine Only.step hq h ?_
  unfold State.countInactive
  repeat' first
    | with_reducible exact Only.refl _ _
    | ((with_reducible refine Parts.leq ?_); rfl)
    | with_reducible apply State.fput_only

theorem State.dropInactive_only {p : Parts} {s t : State}  (hq : Parts.le { regs := true, dirty := true } p = true) (h : Only p s t) : Only p s (State.dropInactive t) := by
  refine Only.step hq h ?_
  unfold State.dropInactive
  repeat' first
    | with_reducible exact Only.refl _ _
    | ((with_reducible refine Parts.leq ?_); rfl)
    | with_reducible apply State.countInactive_only
    | simp (disch := with_unfolding_all (apply Parts.same; apply Eq.refl)) only [Only.set_iff]
    | with_reducible apply Only.foldl
    | (intro)

theorem State.clearDelta_only {p : Parts} {s t : State} {stack : Nat} (hq : Parts.le { hbm := true, staging := true, poison := true, sump := true } p = true) (h : Only p s t) : Only p s (State.clearDelta t stack) := by
  refine Only.step hq h ?_
  unfold State.clearDelta
  try dsimp -zeta only
  repeat' first
    | with_reducible assumption
    | with_reducible exact Only.refl _ _
    | ((with_reducible refine Parts.leq ?_); rfl)
    | with_reducible apply State.writeSump_only
    | (extract_lets +onlyGivenNames x; first
        | (refine Only.cut (p := { hbm := true, staging := true, poison := true, sump := true }) (s := t) (x := x) (fun hx => ?_) ?_; clear_value x; revert x; intro y hy; rotate_left; unfold x; clear x)
        | (refine Only.cut1 (p := { hbm := true, staging := true, poison := true, sump := true }) (s := t) (x := x) (fun hx => ?_) ?_; clear_value x; revert x; intro y hy; rotate_left; unfold x; clear x)
        | (refine Only.cut2 (p := { hbm := true, staging := true, poison := true, sump := true }) (s := t) (x := x) (fun hx => ?_) ?_; clear_value x; revert x; intro y hy; rotate_left; unfold x; clear x)
        | (revert x; intro y))
    | simp (disch := with_unfolding_all (apply Parts.same; apply Eq.refl)) only [Only.set_iff]
    | with_reducible apply Only.foldl
    | with_reducible apply Only.foldl_fst
    | (refine Only.of_fst ‹_ = _› ?_)
    | (refine Only.of_snd ‹_ = _› ?_)
    | split
    | (intro)

theorem State.clearDeltas_only {p : Parts} {s t : State}  (hq : Parts.le { hbm := true, staging := true, poison := true, sump := true } p = true) (h : Only p s t) : Only p s (State.clearDeltas t) := by
  refine Only.step hq h ?_
  unfold State.clearDeltas
  try dsimp -zeta only
  repeat' first
    | with_reducible assumption
    | with_reducible exact Only.refl _ _
    | ((with_reducible refine Parts.leq ?_); rfl)
    | with_reducible apply State.clearDelta_only
    | (extract_lets +onlyGivenNames x; first
        | (refine Only.cut (p := { hbm := true, staging := true, poison := true, sump := true }) (s := t) (x := x) (fun hx => ?_) ?_; clear_value x; revert x; intro y hy; rotate_left; unfold x; clear x)
        | (refine Only.cut1 (p := { hbm := true, staging := true, poison := true, sump := true }) (s := t) (x := x) (fun hx => ?_) ?_; clear_value x; revert x; intro y hy; rotate_left; unfold x; clear x)
        | (refine Only.cut2 (p := { hbm := true, staging := true, poison := true, sump := true }) (s := t) (x := x) (fun hx => ?_) ?_; clear_value x; revert x; intro y hy; rotate_left; unfold x; clear x)
        | (revert x; intro y))
    | simp (disch := with_unfolding_all (apply Parts.same; apply Eq.refl)) only [Only.set_iff]
    | with_reducible apply Only.foldl
    | with_reducible apply Only.foldl_fst
    | (refine Only.of_fst ‹_ = _› ?_)
    | (refine Only.of_snd ‹_ = _› ?_)
    | split
    | (intro)

theorem State.stopCut_only {p : Parts} {s t : State}  (hq : Parts.le { regs := true, hbm := true, staging := true, poison := true, dirty := true, sump := true } p = true) (h : Only p s t) : Only p s (State.stopCut t) := by
  refine Only.step hq h ?_
  unfold State.stopCut
  try dsimp -zeta only
  repeat' first
    | with_reducible assumption
    | with_reducible exact Only.refl _ _
    | ((with_reducible refine Parts.leq ?_); rfl)
    | with_reducible apply State.fput_only
    | with_reducible apply State.dropInactive_only
    | with_reducible apply State.clearDeltas_only
    | (extract_lets +onlyGivenNames x; first
        | (refine Only.cut (p := { regs := true, hbm := true, staging := true, poison := true, dirty := true, sump := true }) (s := t) (x := x) (fun hx => ?_) ?_; clear_value x; revert x; intro y hy; rotate_left; unfold x; clear x)
        | (refine Only.cut1 (p := { regs := true, hbm := true, staging := true, poison := true, dirty := true, sump := true }) (s := t) (x := x) (fun hx => ?_) ?_; clear_value x; revert x; intro y hy; rotate_left; unfold x; clear x)
        | (refine Only.cut2 (p := { regs := true, hbm := true, staging := true, poison := true, dirty := true, sump := true }) (s := t) (x := x) (fun hx => ?_) ?_; clear_value x; revert x; intro y hy; rotate_left; unfold x; clear x)
        | (revert x; intro y))
    | simp (disch := with_unfolding_all (apply Parts.same; apply Eq.refl)) only [Only.set_iff]
    | with_reducible apply Only.foldl
    | with_reducible apply Only.foldl_fst
    | (refine Only.of_fst ‹_ = _› ?_)
    | (refine Only.of_snd ‹_ = _› ?_)
    | split
    | (intro)

theorem State.sumpPhase_only {p : Parts} {s t : State} {r : Nat} {x2 : Nat} (hq : Parts.le { regs := true } p = true) (h : Only p s t) : Only p s (State.sumpPhase t r x2) := by
  refine Only.step hq h ?_
  unfold State.sumpPhase
  repeat' first
    | with_reducible exact Only.refl _ _
    | ((with_reducible refine Parts.leq ?_); rfl)
    | with_reducible apply State.fput_only

theorem State.ckpPhase_only {p : Parts} {s t : State} {x1 : Nat} (hq : Parts.le { regs := true } p = true) (h : Only p s t) : Only p s (State.ckpPhase t x1) := by
  refine Only.step hq h ?_
  unfold State.ckpPhase
  repeat' first
    | with_reducible exact Only.refl _ _
    | ((with_reducible refine Parts.leq ?_); rfl)
    | with_reducible apply State.sumpPhase_only
    | with_reducible apply State.fput_only
    | with_reducible apply Only.foldl
    | (intro)

theorem State.endDrain_only {p : Parts} {s t : State}  (hq : Parts.le { regs := true, sump := true } p = true) (h : Only p s t) : Only p s (State.endDrain t) := by
  refine Only.step hq h ?_
  unfold State.endDrain
  repeat' first
    | with_reducible exact Only.refl _ _
    | ((with_reducible refine Parts.leq ?_); rfl)
    | with_reducible apply State.ckpPhase_only
    | simp (disch := with_unfolding_all (apply Parts.same; apply Eq.refl)) only [Only.set_iff]

theorem State.stopDrain_only {p : Parts} {s t : State}  (hq : Parts.le { regs := true, sump := true } p = true) (h : Only p s t) : Only p s (State.stopDrain t) := by
  refine Only.step hq h ?_
  unfold State.stopDrain
  repeat' first
    | with_reducible exact Only.refl _ _
    | ((with_reducible refine Parts.leq ?_); rfl)
    | with_reducible apply State.endDrain_only
    | split

theorem State.sumpCheck_only {p : Parts} {s t : State} {c : Ctx} {x2 : Nat} (hq : Parts.le (Parts.report.or { poison := true }) p = true) (h : Only p s t) : Only p s (State.sumpCheck t c x2).1 := by
  refine Only.step hq h ?_
  unfold State.sumpCheck
  try dsimp -zeta only
  repeat' first
    | with_reducible assumption
    | with_reducible exact Only.refl _ _
    | ((with_reducible refine Parts.leq ?_); rfl)
    | with_reducible apply State.tagReadPage_only
    | with_reducible apply State.ueReport_only
    | (extract_lets +onlyGivenNames x; first
        | (refine Only.cut (p := (Parts.report.or { poison := true })) (s := t) (x := x) (fun hx => ?_) ?_; clear_value x; revert x; intro y hy; rotate_left; unfold x; clear x)
        | (refine Only.cut1 (p := (Parts.report.or { poison := true })) (s := t) (x := x) (fun hx => ?_) ?_; clear_value x; revert x; intro y hy; rotate_left; unfold x; clear x)
        | (refine Only.cut2 (p := (Parts.report.or { poison := true })) (s := t) (x := x) (fun hx => ?_) ?_; clear_value x; revert x; intro y hy; rotate_left; unfold x; clear x)
        | (revert x; intro y))
    | simp (disch := with_unfolding_all (apply Parts.same; apply Eq.refl)) only [Only.set_iff]
    | with_reducible apply Only.foldl
    | with_reducible apply Only.foldl_fst
    | (refine Only.of_fst ‹_ = _› ?_)
    | (refine Only.of_snd ‹_ = _› ?_)
    | split
    | (intro)

theorem State.foldPage_only {p : Parts} {s t : State} {stack : Nat} {step : Nat} {x3 : Nat} (hq : Parts.le (Parts.report.or { hbm := true, staging := true, stagTag := true, poison := true }) p = true) (h : Only p s t) : Only p s (State.foldPage t stack step x3).1 := by
  refine Only.step hq h ?_
  unfold State.foldPage
  try dsimp -zeta only
  repeat' first
    | with_reducible assumption
    | with_reducible exact Only.refl _ _
    | ((with_reducible refine Parts.leq ?_); rfl)
    | with_reducible apply afterCheck_only
    | with_reducible apply State.sumpCheck_only
    | with_reducible apply State.writeImagePage_only
    | (extract_lets +onlyGivenNames x; first
        | (refine Only.cut (p := (Parts.report.or { hbm := true, staging := true, stagTag := true, poison := true })) (s := t) (x := x) (fun hx => ?_) ?_; clear_value x; revert x; intro y hy; rotate_left; unfold x; clear x)
        | (refine Only.cut1 (p := (Parts.report.or { hbm := true, staging := true, stagTag := true, poison := true })) (s := t) (x := x) (fun hx => ?_) ?_; clear_value x; revert x; intro y hy; rotate_left; unfold x; clear x)
        | (refine Only.cut2 (p := (Parts.report.or { hbm := true, staging := true, stagTag := true, poison := true })) (s := t) (x := x) (fun hx => ?_) ?_; clear_value x; revert x; intro y hy; rotate_left; unfold x; clear x)
        | (revert x; intro y))
    | simp (disch := with_unfolding_all (apply Parts.same; apply Eq.refl)) only [Only.set_iff]
    | with_reducible apply Only.foldl
    | with_reducible apply Only.foldl_fst
    | (refine Only.of_fst ‹_ = _› ?_)
    | (refine Only.of_snd ‹_ = _› ?_)
    | split
    | (intro)

theorem State.foldStack_only {p : Parts} {s t : State} {stack : Nat} {step : Nat} (hq : Parts.le (Parts.report.or { hbm := true, staging := true, stagTag := true, poison := true, sump := true }) p = true) (h : Only p s t) : Only p s (State.foldStack t stack step).1 := by
  refine Only.step hq h ?_
  unfold State.foldStack
  try dsimp -zeta only
  repeat' first
    | with_reducible assumption
    | with_reducible exact Only.refl _ _
    | ((with_reducible refine Parts.leq ?_); rfl)
    | with_reducible apply afterCheck_only
    | with_reducible apply Only.foldChecks
    | with_reducible apply State.foldPage_only
    | with_reducible apply State.clearDelta_only
    | (extract_lets +onlyGivenNames x; first
        | (refine Only.cut (p := (Parts.report.or { hbm := true, staging := true, stagTag := true, poison := true, sump := true })) (s := t) (x := x) (fun hx => ?_) ?_; clear_value x; revert x; intro y hy; rotate_left; unfold x; clear x)
        | (refine Only.cut1 (p := (Parts.report.or { hbm := true, staging := true, stagTag := true, poison := true, sump := true })) (s := t) (x := x) (fun hx => ?_) ?_; clear_value x; revert x; intro y hy; rotate_left; unfold x; clear x)
        | (refine Only.cut2 (p := (Parts.report.or { hbm := true, staging := true, stagTag := true, poison := true, sump := true })) (s := t) (x := x) (fun hx => ?_) ?_; clear_value x; revert x; intro y hy; rotate_left; unfold x; clear x)
        | (revert x; intro y))
    | simp (disch := with_unfolding_all (apply Parts.same; apply Eq.refl)) only [Only.set_iff]
    | with_reducible apply Only.foldl
    | with_reducible apply Only.foldl_fst
    | (refine Only.of_fst ‹_ = _› ?_)
    | (refine Only.of_snd ‹_ = _› ?_)
    | split
    | (intro)

theorem State.foldAll_only {p : Parts} {s t : State} {step : Nat} (hq : Parts.le (Parts.report.or { hbm := true, staging := true, stagTag := true, poison := true, sump := true }) p = true) (h : Only p s t) : Only p s (State.foldAll t step).1 := by
  refine Only.step hq h ?_
  unfold State.foldAll
  try dsimp -zeta only
  repeat' first
    | with_reducible assumption
    | with_reducible exact Only.refl _ _
    | ((with_reducible refine Parts.leq ?_); rfl)
    | with_reducible apply Only.foldChecks
    | with_reducible apply State.foldStack_only
    | (extract_lets +onlyGivenNames x; first
        | (refine Only.cut (p := (Parts.report.or { hbm := true, staging := true, stagTag := true, poison := true, sump := true })) (s := t) (x := x) (fun hx => ?_) ?_; clear_value x; revert x; intro y hy; rotate_left; unfold x; clear x)
        | (refine Only.cut1 (p := (Parts.report.or { hbm := true, staging := true, stagTag := true, poison := true, sump := true })) (s := t) (x := x) (fun hx => ?_) ?_; clear_value x; revert x; intro y hy; rotate_left; unfold x; clear x)
        | (refine Only.cut2 (p := (Parts.report.or { hbm := true, staging := true, stagTag := true, poison := true, sump := true })) (s := t) (x := x) (fun hx => ?_) ?_; clear_value x; revert x; intro y hy; rotate_left; unfold x; clear x)
        | (revert x; intro y))
    | simp (disch := with_unfolding_all (apply Parts.same; apply Eq.refl)) only [Only.set_iff]
    | with_reducible apply Only.foldl
    | with_reducible apply Only.foldl_fst
    | (refine Only.of_fst ‹_ = _› ?_)
    | (refine Only.of_snd ‹_ = _› ?_)
    | split
    | (intro)

theorem State.cutFails_only {p : Parts} {s t : State} {stack : Nat} {cls : Nat} (hq : Parts.le { regs := true, hbm := true, staging := true, poison := true, dirty := true, started := true, sump := true } p = true) (h : Only p s t) : Only p s (State.cutFails t stack cls) := by
  refine Only.step hq h ?_
  unfold State.cutFails
  try dsimp -zeta only
  repeat' first
    | with_reducible assumption
    | with_reducible exact Only.refl _ _
    | ((with_reducible refine Parts.leq ?_); rfl)
    | with_reducible apply State.stopCut_only
    | with_reducible apply State.setDone_only
    | (extract_lets +onlyGivenNames x; first
        | (refine Only.cut (p := { regs := true, hbm := true, staging := true, poison := true, dirty := true, started := true, sump := true }) (s := t) (x := x) (fun hx => ?_) ?_; clear_value x; revert x; intro y hy; rotate_left; unfold x; clear x)
        | (refine Only.cut1 (p := { regs := true, hbm := true, staging := true, poison := true, dirty := true, started := true, sump := true }) (s := t) (x := x) (fun hx => ?_) ?_; clear_value x; revert x; intro y hy; rotate_left; unfold x; clear x)
        | (refine Only.cut2 (p := { regs := true, hbm := true, staging := true, poison := true, dirty := true, started := true, sump := true }) (s := t) (x := x) (fun hx => ?_) ?_; clear_value x; revert x; intro y hy; rotate_left; unfold x; clear x)
        | (revert x; intro y))
    | simp (disch := with_unfolding_all (apply Parts.same; apply Eq.refl)) only [Only.set_iff]
    | with_reducible apply Only.foldl
    | with_reducible apply Only.foldl_fst
    | (refine Only.of_fst ‹_ = _› ?_)
    | (refine Only.of_snd ‹_ = _› ?_)
    | split
    | (intro)

theorem State.deltaFull_only {p : Parts} {s t : State} {stack : Nat} {c : Cut} (hq : Parts.le ((Parts.report.or Parts.memory).or { started := true, sump := true }) p = true) (h : Only p s t) : Only p s (State.deltaFull t stack c) := by
  refine Only.step hq h ?_
  unfold State.deltaFull
  try dsimp -zeta only
  repeat' first
    | with_reducible assumption
    | with_reducible exact Only.refl _ _
    | ((with_reducible refine Parts.leq ?_); rfl)
    | with_reducible apply State.foldAll_only
    | with_reducible apply State.fput_only
    | with_reducible apply State.cutFails_only
    | with_reducible apply State.bump_only
    | (extract_lets +onlyGivenNames x; first
        | (refine Only.cut (p := ((Parts.report.or Parts.memory).or { started := true, sump := true })) (s := t) (x := x) (fun hx => ?_) ?_; clear_value x; revert x; intro y hy; rotate_left; unfold x; clear x)
        | (refine Only.cut1 (p := ((Parts.report.or Parts.memory).or { started := true, sump := true })) (s := t) (x := x) (fun hx => ?_) ?_; clear_value x; revert x; intro y hy; rotate_left; unfold x; clear x)
        | (refine Only.cut2 (p := ((Parts.report.or Parts.memory).or { started := true, sump := true })) (s := t) (x := x) (fun hx => ?_) ?_; clear_value x; revert x; intro y hy; rotate_left; unfold x; clear x)
        | (revert x; intro y))
    | simp (disch := with_unfolding_all (apply Parts.same; apply Eq.refl)) only [Only.set_iff]
    | with_reducible apply Only.foldl
    | with_reducible apply Only.foldl_fst
    | (refine Only.of_fst ‹_ = _› ?_)
    | (refine Only.of_snd ‹_ = _› ?_)
    | split
    | (intro)

theorem State.putImage_only {p : Parts} {s t : State} {stack ip : Nat} {d : List Byte} (hq : Parts.le ((Parts.report.or Parts.memory).or { started := true, sump := true }) p = true) (h : Only p s t) :
    Only p s (State.putImage t stack ip d) := by
  refine Only.step hq h ?_
  unfold State.putImage
  split
  · exact Only.refl _ _
  · extract_lets s1
    have h1 : Only ((Parts.report.or Parts.memory).or { started := true, sump := true }) t s1 := Only.ite (State.deltaFull_only rfl (Only.refl _ _)) (Only.refl _ _)
    clear_value s1
    split
    · exact h1
    · extract_lets w wsump s2 s3 s3sump s4
      have hw : Only ((Parts.report.or Parts.memory).or { started := true, sump := true }) t w := State.writeSump_only rfl (State.writeImagePage_only rfl h1)
      clear_value w
      have ha : Only ((Parts.report.or Parts.memory).or { started := true, sump := true }) t s2 := by
        unfold s2
        split
        · split
          · exact State.writeImagePage_only rfl h1
          · exact h1
        · exact Only.put_sump rfl hw
      clear_value s2
      have hb : Only ((Parts.report.or Parts.memory).or { started := true, sump := true }) t s3 := State.evCount_only rfl ha
      have hc : Only ((Parts.report.or Parts.memory).or { started := true, sump := true }) t s4 := Only.put_sump rfl hb
      clear_value s4
      exact State.fput_only rfl (State.bump_only rfl hc)

theorem State.copyUnit_only {p : Parts} {s t : State} {r : Prot} {page : Nat} (hq : Parts.le ((Parts.report.or Parts.memory).or { started := true, sump := true }) p = true) (h : Only p s t) : Only p s (State.copyUnit t r page) := by
  refine Only.step hq h ?_
  unfold State.copyUnit
  try dsimp -zeta only
  repeat' first
    | with_reducible assumption
    | with_reducible exact Only.refl _ _
    | ((with_reducible refine Parts.leq ?_); rfl)
    | with_reducible apply Only.foldChecks
    | with_reducible apply State.sumpCheck_only
    | with_reducible apply State.cutFails_only
    | with_reducible apply State.putImage_only
    | with_reducible apply State.writeSump_only
    | with_reducible apply State.sealSump_only
    | with_reducible apply State.bump_only
    | with_reducible apply State.countInactive_only
    | with_reducible apply State.clearInactive_only
    | (extract_lets +onlyGivenNames x; first
        | (refine Only.cut (p := ((Parts.report.or Parts.memory).or { started := true, sump := true })) (s := t) (x := x) (fun hx => ?_) ?_; clear_value x; revert x; intro y hy; rotate_left; unfold x; clear x)
        | (refine Only.cut1 (p := ((Parts.report.or Parts.memory).or { started := true, sump := true })) (s := t) (x := x) (fun hx => ?_) ?_; clear_value x; revert x; intro y hy; rotate_left; unfold x; clear x)
        | (refine Only.cut2 (p := ((Parts.report.or Parts.memory).or { started := true, sump := true })) (s := t) (x := x) (fun hx => ?_) ?_; clear_value x; revert x; intro y hy; rotate_left; unfold x; clear x)
        | (revert x; intro y))
    | simp (disch := with_unfolding_all (apply Parts.same; apply Eq.refl)) only [Only.set_iff]
    | with_reducible apply Only.foldl
    | with_reducible apply Only.foldl_fst
    | (refine Only.of_fst ‹_ = _› ?_)
    | (refine Only.of_snd ‹_ = _› ?_)
    | split
    | (intro)

theorem State.sumpGuard_only {p : Parts} {s t : State} {page : Nat} (hq : Parts.le ((Parts.report.or Parts.memory).or { started := true, sump := true }) p = true) (h : Only p s t) : Only p s (State.sumpGuard t page) := by
  refine Only.step hq h ?_
  unfold State.sumpGuard
  repeat' first
    | with_reducible exact Only.refl _ _
    | ((with_reducible refine Parts.leq ?_); rfl)
    | with_reducible apply State.bump_only
    | with_reducible apply State.copyUnit_only
    | split

theorem State.admitHeld_only {p : Parts} {s t : State} {ps : List Nat} (hq : Parts.le ((Parts.report.or Parts.memory).or { started := true, heldWr := true, arr := true, sump := true }) p = true) (h : Only p s t) : Only p s (State.admitHeld t ps) := by
  refine Only.step hq h ?_
  unfold State.admitHeld
  try dsimp -zeta only
  repeat' first
    | with_reducible assumption
    | with_reducible exact Only.refl _ _
    | ((with_reducible refine Parts.leq ?_); rfl)
    | with_reducible apply State.copyUnit_only
    | with_reducible apply State.writePlain_only
    | (extract_lets +onlyGivenNames x; first
        | (refine Only.cut (p := ((Parts.report.or Parts.memory).or { started := true, heldWr := true, arr := true, sump := true })) (s := t) (x := x) (fun hx => ?_) ?_; clear_value x; revert x; intro y hy; rotate_left; unfold x; clear x)
        | (refine Only.cut1 (p := ((Parts.report.or Parts.memory).or { started := true, heldWr := true, arr := true, sump := true })) (s := t) (x := x) (fun hx => ?_) ?_; clear_value x; revert x; intro y hy; rotate_left; unfold x; clear x)
        | (refine Only.cut2 (p := ((Parts.report.or Parts.memory).or { started := true, heldWr := true, arr := true, sump := true })) (s := t) (x := x) (fun hx => ?_) ?_; clear_value x; revert x; intro y hy; rotate_left; unfold x; clear x)
        | (revert x; intro y))
    | simp (disch := with_unfolding_all (apply Parts.same; apply Eq.refl)) only [Only.set_iff]
    | with_reducible apply Only.foldl
    | with_reducible apply Only.foldl_fst
    | (refine Only.of_fst ‹_ = _› ?_)
    | (refine Only.of_snd ‹_ = _› ?_)
    | split
    | (intro)

theorem State.readyPages_only {p : Parts} {s t : State} {ps : List Nat} (hq : Parts.le ((Parts.report.or Parts.memory).or { started := true, heldWr := true, arr := true, sump := true }) p = true) (h : Only p s t) : Only p s (State.readyPages t ps) := by
  refine Only.step hq h ?_
  unfold State.readyPages
  try dsimp -zeta only
  repeat' first
    | with_reducible assumption
    | with_reducible exact Only.refl _ _
    | ((with_reducible refine Parts.leq ?_); rfl)
    | with_reducible apply State.admitHeld_only
    | with_reducible apply State.sumpGuard_only
    | (extract_lets +onlyGivenNames x; first
        | (refine Only.cut (p := ((Parts.report.or Parts.memory).or { started := true, heldWr := true, arr := true, sump := true })) (s := t) (x := x) (fun hx => ?_) ?_; clear_value x; revert x; intro y hy; rotate_left; unfold x; clear x)
        | (refine Only.cut1 (p := ((Parts.report.or Parts.memory).or { started := true, heldWr := true, arr := true, sump := true })) (s := t) (x := x) (fun hx => ?_) ?_; clear_value x; revert x; intro y hy; rotate_left; unfold x; clear x)
        | (refine Only.cut2 (p := ((Parts.report.or Parts.memory).or { started := true, heldWr := true, arr := true, sump := true })) (s := t) (x := x) (fun hx => ?_) ?_; clear_value x; revert x; intro y hy; rotate_left; unfold x; clear x)
        | (revert x; intro y))
    | simp (disch := with_unfolding_all (apply Parts.same; apply Eq.refl)) only [Only.set_iff]
    | with_reducible apply Only.foldl
    | with_reducible apply Only.foldl_fst
    | (refine Only.of_fst ‹_ = _› ?_)
    | (refine Only.of_snd ‹_ = _› ?_)
    | split
    | (intro)

theorem State.engWrite_only {p : Parts} {s t : State} {a : Nat} {d : List Byte} (hq : Parts.le ((Parts.report.or Parts.memory).or { started := true, heldWr := true, arr := true, sump := true }) p = true) (h : Only p s t) : Only p s (State.engWrite t a d) := by
  refine Only.step hq h ?_
  unfold State.engWrite
  try dsimp -zeta only
  repeat' first
    | with_reducible assumption
    | with_reducible exact Only.refl _ _
    | ((with_reducible refine Parts.leq ?_); rfl)
    | with_reducible apply State.write_only
    | with_reducible apply State.readyPages_only
    | (extract_lets +onlyGivenNames x; first
        | (refine Only.cut (p := ((Parts.report.or Parts.memory).or { started := true, heldWr := true, arr := true, sump := true })) (s := t) (x := x) (fun hx => ?_) ?_; clear_value x; revert x; intro y hy; rotate_left; unfold x; clear x)
        | (refine Only.cut1 (p := ((Parts.report.or Parts.memory).or { started := true, heldWr := true, arr := true, sump := true })) (s := t) (x := x) (fun hx => ?_) ?_; clear_value x; revert x; intro y hy; rotate_left; unfold x; clear x)
        | (refine Only.cut2 (p := ((Parts.report.or Parts.memory).or { started := true, heldWr := true, arr := true, sump := true })) (s := t) (x := x) (fun hx => ?_) ?_; clear_value x; revert x; intro y hy; rotate_left; unfold x; clear x)
        | (revert x; intro y))
    | simp (disch := with_unfolding_all (apply Parts.same; apply Eq.refl)) only [Only.set_iff]
    | with_reducible apply Only.foldl
    | with_reducible apply Only.foldl_fst
    | (refine Only.of_fst ‹_ = _› ?_)
    | (refine Only.of_snd ‹_ = _› ?_)
    | split
    | (intro)

theorem State.unplaced_only {p : Parts} {s t : State} {c : Ctx} {ws : List (Nat × List Byte)} (hq : Parts.le Parts.report p = true) (h : Only p s t) : Only p s (State.unplaced t c ws) := by
  refine Only.step hq h ?_
  unfold State.unplaced
  try dsimp -zeta only
  repeat' first
    | with_reducible assumption
    | with_reducible exact Only.refl _ _
    | ((with_reducible refine Parts.leq ?_); rfl)
    | with_reducible apply State.unmapped_only
    | (extract_lets +onlyGivenNames x; first
        | (refine Only.cut (p := Parts.report) (s := t) (x := x) (fun hx => ?_) ?_; clear_value x; revert x; intro y hy; rotate_left; unfold x; clear x)
        | (refine Only.cut1 (p := Parts.report) (s := t) (x := x) (fun hx => ?_) ?_; clear_value x; revert x; intro y hy; rotate_left; unfold x; clear x)
        | (refine Only.cut2 (p := Parts.report) (s := t) (x := x) (fun hx => ?_) ?_; clear_value x; revert x; intro y hy; rotate_left; unfold x; clear x)
        | (revert x; intro y))
    | simp (disch := with_unfolding_all (apply Parts.same; apply Eq.refl)) only [Only.set_iff]
    | with_reducible apply Only.foldl
    | with_reducible apply Only.foldl_fst
    | (refine Only.of_fst ‹_ = _› ?_)
    | (refine Only.of_snd ‹_ = _› ?_)
    | split
    | (intro)

theorem State.awareWrites_only {p : Parts} {s t : State} {c : Ctx} {fmt : Nat} {step : Nat} {bid : Nat → Nat} {ws : List (Nat × List Byte)} (hq : Parts.le ((Parts.report.or Parts.memory).or { started := true, heldWr := true, arr := true, sump := true }) p = true) (h : Only p s t) : Only p s (State.awareWrites t c fmt step bid ws).1 := by
  refine Only.step hq h ?_
  unfold State.awareWrites
  try dsimp -zeta only
  repeat' first
    | with_reducible assumption
    | with_reducible exact Only.refl _ _
    | ((with_reducible refine Parts.leq ?_); rfl)
    | with_reducible apply State.readyPages_only
    | with_reducible apply State.unplaced_only
    | with_reducible apply State.engWrite_only
    | with_reducible apply State.sealPage_only
    | with_reducible apply State.tagMismatch_only
    | (extract_lets +onlyGivenNames x; first
        | (refine Only.cut (p := ((Parts.report.or Parts.memory).or { started := true, heldWr := true, arr := true, sump := true })) (s := t) (x := x) (fun hx => ?_) ?_; clear_value x; revert x; intro y hy; rotate_left; unfold x; clear x)
        | (refine Only.cut1 (p := ((Parts.report.or Parts.memory).or { started := true, heldWr := true, arr := true, sump := true })) (s := t) (x := x) (fun hx => ?_) ?_; clear_value x; revert x; intro y hy; rotate_left; unfold x; clear x)
        | (refine Only.cut2 (p := ((Parts.report.or Parts.memory).or { started := true, heldWr := true, arr := true, sump := true })) (s := t) (x := x) (fun hx => ?_) ?_; clear_value x; revert x; intro y hy; rotate_left; unfold x; clear x)
        | (revert x; intro y))
    | simp (disch := with_unfolding_all (apply Parts.same; apply Eq.refl)) only [Only.set_iff]
    | with_reducible apply Only.foldl
    | with_reducible apply Only.foldl_fst
    | (refine Only.of_fst ‹_ = _› ?_)
    | (refine Only.of_snd ‹_ = _› ?_)
    | split
    | (intro)

end Sys2Proof.Machine
end

