-- ==== Sys2Proof/Laws/OnlyDrain.lean ====
section
/-!
SUPPORT. Which parts of the state the operations of Machine/Drain.lean may change (Safety.lean).
-/
namespace Sys2Proof.Machine

open Sys2Proof

theorem State.dropPrefetch_only {p : Parts} {s t : State}  (hq : Parts.le { arr := true } p = true) (h : Only p s t) : Only p s (State.dropPrefetch t) := by
  refine Only.step hq h ?_
  unfold State.dropPrefetch
  repeat' first
    | with_reducible exact Only.refl _ _
    | ((with_reducible refine Parts.leq ?_); rfl)
    | simp (disch := with_unfolding_all (apply Parts.same; apply Eq.refl)) only [Only.set_iff]

theorem State.forgetPrefetch_only {p : Parts} {s t : State} {n : Nat} {seq : Nat} (hq : Parts.le { arr := true } p = true) (h : Only p s t) : Only p s (State.forgetPrefetch t n seq) := by
  refine Only.step hq h ?_
  unfold State.forgetPrefetch
  repeat' first
    | with_reducible exact Only.refl _ _
    | ((with_reducible refine Parts.leq ?_); rfl)
    | with_reducible apply State.dropPrefetch_only
    | split

theorem State.cancelRing_only {p : Parts} {s t : State} {f : Nat} {n : Nat} (hq : Parts.le ((Parts.report.or Parts.memory).or { hostW := true, sq := true, pcie := true, heldWr := true, order := true, fab := true, tor := true, arr := true }) p = true) (h : Only p s t) : Only p s (State.cancelRing t f n) := by
  refine Only.step hq h ?_
  unfold State.cancelRing
  try dsimp -zeta only
  repeat' first
    | with_reducible assumption
    | with_reducible exact Only.refl _ _
    | ((with_reducible refine Parts.leq ?_); rfl)
    | with_reducible apply State.setSq_only
    | with_reducible apply State.completeFetched_only
    | with_reducible apply State.forgetPrefetch_only
    | (extract_lets +onlyGivenNames x; first
        | (refine Only.cut (p := ((Parts.report.or Parts.memory).or { hostW := true, sq := true, pcie := true, heldWr := true, order := true, fab := true, tor := true, arr := true })) (s := t) (x := x) (fun hx => ?_) ?_; clear_value x; revert x; intro y hy; rotate_left; unfold x; clear x)
        | (refine Only.cut1 (p := ((Parts.report.or Parts.memory).or { hostW := true, sq := true, pcie := true, heldWr := true, order := true, fab := true, tor := true, arr := true })) (s := t) (x := x) (fun hx => ?_) ?_; clear_value x; revert x; intro y hy; rotate_left; unfold x; clear x)
        | (refine Only.cut2 (p := ((Parts.report.or Parts.memory).or { hostW := true, sq := true, pcie := true, heldWr := true, order := true, fab := true, tor := true, arr := true })) (s := t) (x := x) (fun hx => ?_) ?_; clear_value x; revert x; intro y hy; rotate_left; unfold x; clear x)
        | (revert x; intro y))
    | simp (disch := with_unfolding_all (apply Parts.same; apply Eq.refl)) only [Only.set_iff]
    | with_reducible apply Only.foldl
    | with_reducible apply Only.foldl_fst
    | (refine Only.of_fst ‹_ = _› ?_)
    | (refine Only.of_snd ‹_ = _› ?_)
    | split
    | (intro)

theorem State.dropStale_only {p : Parts} {s t : State} {f : Nat} (hq : Parts.le (Parts.report.or { genStale := true }) p = true) (h : Only p s t) : Only p s (State.dropStale t f) := by
  refine Only.step hq h ?_
  unfold State.dropStale
  repeat' first
    | with_reducible exact Only.refl _ _
    | ((with_reducible refine Parts.leq ?_); rfl)
    | with_reducible apply State.report_only
    | simp (disch := with_unfolding_all (apply Parts.same; apply Eq.refl)) only [Only.set_iff]

theorem State.enterDrain_only {p : Parts} {s t : State} {f : Nat} (hq : Parts.le ((Parts.report.or Parts.memory).or { drainAt := true, hostW := true, sq := true, pcie := true, heldWr := true, order := true, fab := true, tor := true, arr := true, sump := true }) p = true) (h : Only p s t) : Only p s (State.enterDrain t f) := by
  refine Only.step hq h ?_
  unfold State.enterDrain
  try dsimp -zeta only
  repeat' first
    | with_reducible assumption
    | with_reducible exact Only.refl _ _
    | ((with_reducible refine Parts.leq ?_); rfl)
    | with_reducible apply State.setFn_only
    | with_reducible apply State.dropPrefetch_only
    | with_reducible apply State.cancelRing_only
    | with_reducible apply State.stopCut_only
    | (extract_lets +onlyGivenNames x; first
        | (refine Only.cut (p := ((Parts.report.or Parts.memory).or { drainAt := true, hostW := true, sq := true, pcie := true, heldWr := true, order := true, fab := true, tor := true, arr := true, sump := true })) (s := t) (x := x) (fun hx => ?_) ?_; clear_value x; revert x; intro y hy; rotate_left; unfold x; clear x)
        | (refine Only.cut1 (p := ((Parts.report.or Parts.memory).or { drainAt := true, hostW := true, sq := true, pcie := true, heldWr := true, order := true, fab := true, tor := true, arr := true, sump := true })) (s := t) (x := x) (fun hx => ?_) ?_; clear_value x; revert x; intro y hy; rotate_left; unfold x; clear x)
        | (refine Only.cut2 (p := ((Parts.report.or Parts.memory).or { drainAt := true, hostW := true, sq := true, pcie := true, heldWr := true, order := true, fab := true, tor := true, arr := true, sump := true })) (s := t) (x := x) (fun hx => ?_) ?_; clear_value x; revert x; intro y hy; rotate_left; unfold x; clear x)
        | (revert x; intro y))
    | simp (disch := with_unfolding_all (apply Parts.same; apply Eq.refl)) only [Only.set_iff]
    | with_reducible apply Only.foldl
    | with_reducible apply Only.foldl_fst
    | (refine Only.of_fst ‹_ = _› ?_)
    | (refine Only.of_snd ‹_ = _› ?_)
    | split
    | (intro)

end Sys2Proof.Machine
end

