-- ==== Sys2Proof/Laws/OnlyLedger.lean ====
section
/-!
SUPPORT. Which parts of the state the operations of Machine/Ledger.lean may change (Safety.lean).
-/
namespace Sys2Proof.Machine

open Sys2Proof

theorem scrubRead_only {p : Parts} {s t : State} {st : Nat} {ecc : Ecc} (hq : Parts.le ((Parts.report.or Parts.memory).or { scrub := true }) p = true) (h : Only p s t) : Only p s (scrubRead t st ecc) := by
  refine Only.step hq h ?_
  unfold scrubRead
  try dsimp -zeta only
  repeat' first
    | with_reducible assumption
    | with_reducible exact Only.refl _ _
    | ((with_reducible refine Parts.leq ?_); rfl)
    | with_reducible apply State.eccRead_only
    | with_reducible apply State.ueReport_only
    | with_reducible apply State.withdrawPage_only
    | with_reducible apply State.tagMismatch_only
    | (extract_lets +onlyGivenNames x; first
        | (refine Only.cut (p := ((Parts.report.or Parts.memory).or { scrub := true })) (s := t) (x := x) (fun hx => ?_) ?_; clear_value x; revert x; intro y hy; rotate_left; unfold x; clear x)
        | (refine Only.cut1 (p := ((Parts.report.or Parts.memory).or { scrub := true })) (s := t) (x := x) (fun hx => ?_) ?_; clear_value x; revert x; intro y hy; rotate_left; unfold x; clear x)
        | (refine Only.cut2 (p := ((Parts.report.or Parts.memory).or { scrub := true })) (s := t) (x := x) (fun hx => ?_) ?_; clear_value x; revert x; intro y hy; rotate_left; unfold x; clear x)
        | (revert x; intro y))
    | simp (disch := with_unfolding_all (apply Parts.same; apply Eq.refl)) only [Only.set_iff]
    | with_reducible apply Only.foldl
    | with_reducible apply Only.foldl_fst
    | (refine Only.of_fst ‹_ = _› ?_)
    | (refine Only.of_snd ‹_ = _› ?_)
    | split
    | (intro)

theorem execScrubRead_only {s u : State} {st : Nat} {ecc : Ecc} (e : execScrubRead st ecc s = .next u) : Only ((Parts.report.or Parts.memory).or { scrub := true }) s u := by
  unfold execScrubRead at e
  injection e with e
  subst e
  try dsimp -zeta only
  repeat' first
    | with_reducible assumption
    | with_reducible exact Only.refl _ _
    | ((with_reducible refine Parts.leq ?_); rfl)
    | with_reducible apply scrubRead_only
    | (extract_lets +onlyGivenNames x; first
        | (refine Only.cut (p := ((Parts.report.or Parts.memory).or { scrub := true })) (s := s) (x := x) (fun hx => ?_) ?_; clear_value x; revert x; intro y hy; rotate_left; unfold x; clear x)
        | (refine Only.cut1 (p := ((Parts.report.or Parts.memory).or { scrub := true })) (s := s) (x := x) (fun hx => ?_) ?_; clear_value x; revert x; intro y hy; rotate_left; unfold x; clear x)
        | (refine Only.cut2 (p := ((Parts.report.or Parts.memory).or { scrub := true })) (s := s) (x := x) (fun hx => ?_) ?_; clear_value x; revert x; intro y hy; rotate_left; unfold x; clear x)
        | (revert x; intro y))
    | simp (disch := with_unfolding_all (apply Parts.same; apply Eq.refl)) only [Only.set_iff]
    | with_reducible apply Only.foldl
    | with_reducible apply Only.foldl_fst
    | (refine Only.of_fst ‹_ = _› ?_)
    | (refine Only.of_snd ‹_ = _› ?_)
    | split
    | (intro)

theorem State.swapBanks_only {p : Parts} {s t : State} {r : Nat} (hq : Parts.le { regs := true, dirty := true, started := true, sump := true } p = true) (h : Only p s t) : Only p s (State.swapBanks t r) := by
  refine Only.step hq h ?_
  unfold State.swapBanks
  repeat' first
    | with_reducible assumption
    | with_reducible exact Only.refl _ _
    | ((with_reducible refine Parts.leq ?_); rfl)
    | with_reducible apply State.fput_only
    | with_reducible apply State.countInactive_only
    | with_reducible apply State.setDone_only
    | (extract_lets +onlyGivenNames x; first
        | (refine Only.cut (p := { regs := true, dirty := true, started := true, sump := true }) (s := t) (x := x) (fun hx => ?_) ?_; clear_value x; revert x; intro y hy; rotate_left; unfold x; clear x)
        | (revert x; intro y))
    | simp (disch := with_unfolding_all (apply Parts.same; apply Eq.refl)) only [Only.set_iff]
    | with_reducible apply Only.foldl
    | split
    | (intro)

theorem execCutTokenArrival_only {s u : State} {r : Nat} (e : execCutTokenArrival r s = .next u) : Only { regs := true, dirty := true, started := true, sump := true } s u := by
  unfold execCutTokenArrival at e
  injection e with e
  subst e
  repeat' first
    | with_reducible assumption
    | with_reducible exact Only.refl _ _
    | ((with_reducible refine Parts.leq ?_); rfl)
    | with_reducible apply State.swapBanks_only
    | with_reducible apply State.bump_only
    | (extract_lets +onlyGivenNames x; first
        | (refine Only.cut (p := { regs := true, dirty := true, started := true, sump := true }) (s := s) (x := x) (fun hx => ?_) ?_; clear_value x; revert x; intro y hy; rotate_left; unfold x; clear x)
        | (revert x; intro y))
    | simp (disch := with_unfolding_all (apply Parts.same; apply Eq.refl)) only [Only.set_iff]
    | split

theorem execCutTokenRelease_only {s u : State} {r : Nat} (e : execCutTokenRelease r s = .next u) : Only { regs := true, dirty := true, started := true, sump := true } s u := by
  unfold execCutTokenRelease at e
  injection e with e
  subst e
  repeat' first
    | with_reducible exact Only.refl _ _
    | ((with_reducible refine Parts.leq ?_); rfl)
    | with_reducible apply State.swapBanks_only
    | (extract_lets +onlyGivenNames x; first
        | (refine Only.cut (p := { regs := true, dirty := true, started := true, sump := true }) (s := s) (x := x) (fun hx => ?_) ?_; clear_value x; revert x; intro y hy; rotate_left; unfold x; clear x)
        | (revert x; intro y))
    | simp (disch := with_unfolding_all (apply Parts.same; apply Eq.refl)) only [Only.set_iff]
    | split

theorem State.updGather_only {p : Parts} {s t : State} {n : Nat} {seq : Nat} {f : GatherRun → GatherRun} (hq : Parts.le { gathers := true } p = true) (h : Only p s t) : Only p s (State.updGather t n seq f) := by
  refine Only.step hq h ?_
  unfold State.updGather
  repeat' first
    | with_reducible exact Only.refl _ _
    | ((with_reducible refine Parts.leq ?_); rfl)
    | simp (disch := with_unfolding_all (apply Parts.same; apply Eq.refl)) only [Only.set_iff]

theorem State.endGather_only {p : Parts} {s t : State} {n : Nat} {seq : Nat} {d : Done} (hq : Parts.le { started := true, gathers := true } p = true) (h : Only p s t) : Only p s (State.endGather t n seq d) := by
  refine Only.step hq h ?_
  unfold State.endGather
  repeat' first
    | with_reducible exact Only.refl _ _
    | ((with_reducible refine Parts.leq ?_); rfl)
    | with_reducible apply State.setDone_only
    | simp (disch := with_unfolding_all (apply Parts.same; apply Eq.refl)) only [Only.set_iff]

theorem State.addGather_only {p : Parts} {s t : State} {g : GatherRun} (hq : Parts.le { gathers := true } p = true) (h : Only p s t) : Only p s (State.addGather t g) := by
  refine Only.step hq h ?_
  unfold State.addGather
  try dsimp -zeta only
  repeat' first
    | with_reducible assumption
    | with_reducible exact Only.refl _ _
    | ((with_reducible refine Parts.leq ?_); rfl)
    | (extract_lets +onlyGivenNames x; first
        | (refine Only.cut (p := { gathers := true }) (s := t) (x := x) (fun hx => ?_) ?_; clear_value x; revert x; intro y hy; rotate_left; unfold x; clear x)
        | (refine Only.cut1 (p := { gathers := true }) (s := t) (x := x) (fun hx => ?_) ?_; clear_value x; revert x; intro y hy; rotate_left; unfold x; clear x)
        | (refine Only.cut2 (p := { gathers := true }) (s := t) (x := x) (fun hx => ?_) ?_; clear_value x; revert x; intro y hy; rotate_left; unfold x; clear x)
        | (revert x; intro y))
    | simp (disch := with_unfolding_all (apply Parts.same; apply Eq.refl)) only [Only.set_iff]
    | with_reducible apply Only.foldl
    | with_reducible apply Only.foldl_fst
    | (refine Only.of_fst ‹_ = _› ?_)
    | (refine Only.of_snd ‹_ = _› ?_)
    | split
    | (intro)

theorem State.sendRow_only {p : Parts} {s t : State} {g : GatherRun} {b : List Byte} {q : GPos} (hq : Parts.le { regs := true, fab := true, tor := true } p = true) (h : Only p s t) : Only p s (State.sendRow t g b q).1 := by
  refine Only.step hq h ?_
  unfold State.sendRow
  try dsimp -zeta only
  repeat' first
    | with_reducible assumption
    | with_reducible exact Only.refl _ _
    | ((with_reducible refine Parts.leq ?_); rfl)
    | with_reducible apply State.newTag_only
    | with_reducible apply State.send_only
    | (extract_lets +onlyGivenNames x; first
        | (refine Only.cut (p := { regs := true, fab := true, tor := true }) (s := t) (x := x) (fun hx => ?_) ?_; clear_value x; revert x; intro y hy; rotate_left; unfold x; clear x)
        | (refine Only.cut1 (p := { regs := true, fab := true, tor := true }) (s := t) (x := x) (fun hx => ?_) ?_; clear_value x; revert x; intro y hy; rotate_left; unfold x; clear x)
        | (refine Only.cut2 (p := { regs := true, fab := true, tor := true }) (s := t) (x := x) (fun hx => ?_) ?_; clear_value x; revert x; intro y hy; rotate_left; unfold x; clear x)
        | (revert x; intro y))
    | simp (disch := with_unfolding_all (apply Parts.same; apply Eq.refl)) only [Only.set_iff]
    | with_reducible apply Only.foldl
    | with_reducible apply Only.foldl_fst
    | (refine Only.of_fst ‹_ = _› ?_)
    | (refine Only.of_snd ‹_ = _› ?_)
    | split
    | (intro)

theorem State.issueRow_only {p : Parts} {s t : State} {g : GatherRun} {b : List Byte} {x3 : GPos} (hq : Parts.le (Parts.report.or { poison := true, fab := true, tor := true }) p = true) (h : Only p s t) :
    Only p s (State.issueRow t g b x3).1 := by
  unfold State.issueRow
  extract_lets e c
  have k := State.awareCheck_only (c := c) (addr := e.mapAddr x3.idx) (n := 4) (fmt := none) (bid := none) (Parts.le_trans rfl hq) h
  generalize t.awareCheck c (e.mapAddr x3.idx) 4 none none = x at *
  obtain ⟨s1, _ | cls⟩ := x
  · dsimp only
    split
    · exact h
    · split
      · exact k
      · split
        · exact State.sendRow_only (Parts.le_trans rfl hq) (State.evCount_only (Parts.le_trans rfl hq) k)
        · exact State.unmapped_only (Parts.le_trans rfl hq) k
  · dsimp only
    split
    · exact h
    · exact k

theorem issueList_only {p : Parts} {s t : State} {f : State → GPos → State × GPos × Option Nat} {n : Nat} {l : List GPos} (h : Only p s t)
    (hf : ∀ x v, Only p s x → ∀ y o, f x v = (y, o) → Only p s y) : Only p s (issueList f t n l).1 := by
  induction l generalizing t n with
  | nil => exact h
  | cons v l ih =>
    rw [issueList]
    split
    · rcases hx : f t v with ⟨s1, q, _ | cls⟩
      · exact ih (hf t v h _ _ hx)
      · exact hf t v h _ _ hx
    · exact ih h

theorem State.issueBag_only {p : Parts} {s t : State} {g : GatherRun} {b : List Byte} {n : Nat} {l : List GPos} (hq : Parts.le (Parts.report.or { poison := true, fab := true, tor := true }) p = true) (h : Only p s t) :
    Only p s (State.issueBag t g b n l).1 :=
  issueList_only h (fun x v hx _ _ e => by
    have k := State.issueRow_only (g := g) (b := b) (x3 := v) hq hx
    rw [e] at k
    exact k)

theorem State.issueBags_only {p : Parts} {s t : State} {g : GatherRun} {b : List Byte} {n : Nat} {l : List (List GPos)} (hq : Parts.le (Parts.report.or { poison := true, fab := true, tor := true }) p = true)
    (h : Only p s t) : Only p s (State.issueBags t g b n l).1 := by
  induction l generalizing t n with
  | nil => exact h
  | cons v l ih =>
    rw [State.issueBags]
    have k := State.issueBag_only (g := g) (b := b) (n := n) (l := v) hq h
    generalize t.issueBag g b n v = x at *
    obtain ⟨s1, y, r, _ | cls⟩ := x
    · exact ih k
    · exact k

theorem State.issueGather_only {p : Parts} {s t : State} {g : GatherRun} {b : List Byte} (hq : Parts.le (Parts.report.or { poison := true, started := true, fab := true, tor := true, gathers := true }) p = true) (h : Only p s t) : Only p s (State.issueGather t g b) := by
  refine Only.step hq h ?_
  unfold State.issueGather
  try dsimp -zeta only
  repeat' first
    | with_reducible assumption
    | with_reducible exact Only.refl _ _
    | ((with_reducible refine Parts.leq ?_); rfl)
    | with_reducible apply State.issueBags_only
    | with_reducible apply State.endGather_only
    | with_reducible apply State.updGather_only
    | (extract_lets +onlyGivenNames x; first
        | (refine Only.cut (p := (Parts.report.or { poison := true, started := true, fab := true, tor := true, gathers := true })) (s := t) (x := x) (fun hx => ?_) ?_; clear_value x; revert x; intro y hy; rotate_left; unfold x; clear x)
        | (refine Only.cut1 (p := (Parts.report.or { poison := true, started := true, fab := true, tor := true, gathers := true })) (s := t) (x := x) (fun hx => ?_) ?_; clear_value x; revert x; intro y hy; rotate_left; unfold x; clear x)
        | (refine Only.cut2 (p := (Parts.report.or { poison := true, started := true, fab := true, tor := true, gathers := true })) (s := t) (x := x) (fun hx => ?_) ?_; clear_value x; revert x; intro y hy; rotate_left; unfold x; clear x)
        | (revert x; intro y))
    | simp (disch := with_unfolding_all (apply Parts.same; apply Eq.refl)) only [Only.set_iff]
    | with_reducible apply Only.foldl
    | with_reducible apply Only.foldl_fst
    | (refine Only.of_fst ‹_ = _› ?_)
    | (refine Only.of_snd ‹_ = _› ?_)
    | split
    | (intro)

theorem State.issueAll_only {p : Parts} {s t : State} {r : Nat} (hq : Parts.le (Parts.report.or { poison := true, started := true, fab := true, tor := true, gathers := true }) p = true) (h : Only p s t) : Only p s (State.issueAll t r) := by
  refine Only.step hq h ?_
  unfold State.issueAll
  try dsimp -zeta only
  repeat' first
    | with_reducible assumption
    | with_reducible exact Only.refl _ _
    | ((with_reducible refine Parts.leq ?_); rfl)
    | with_reducible apply State.issueGather_only
    | (extract_lets +onlyGivenNames x; first
        | (refine Only.cut (p := (Parts.report.or { poison := true, started := true, fab := true, tor := true, gathers := true })) (s := t) (x := x) (fun hx => ?_) ?_; clear_value x; revert x; intro y hy; rotate_left; unfold x; clear x)
        | (refine Only.cut1 (p := (Parts.report.or { poison := true, started := true, fab := true, tor := true, gathers := true })) (s := t) (x := x) (fun hx => ?_) ?_; clear_value x; revert x; intro y hy; rotate_left; unfold x; clear x)
        | (refine Only.cut2 (p := (Parts.report.or { poison := true, started := true, fab := true, tor := true, gathers := true })) (s := t) (x := x) (fun hx => ?_) ?_; clear_value x; revert x; intro y hy; rotate_left; unfold x; clear x)
        | (revert x; intro y))
    | simp (disch := with_unfolding_all (apply Parts.same; apply Eq.refl)) only [Only.set_iff]
    | with_reducible apply Only.foldl
    | with_reducible apply Only.foldl_fst
    | (refine Only.of_fst ‹_ = _› ?_)
    | (refine Only.of_snd ‹_ = _› ?_)
    | split
    | (intro)

theorem State.writeRow_only {p : Parts} {s t : State} {g : GatherRun} {b : List Byte} {addr : Nat} {d : List Byte} (hq : Parts.le ((Parts.report.or Parts.memory).or { started := true, heldWr := true, fab := true, tor := true, arr := true, sump := true }) p = true) (h : Only p s t) : Only p s (State.writeRow t g b addr d).1 := by
  refine Only.step hq h ?_
  unfold State.writeRow
  try dsimp -zeta only
  repeat' first
    | with_reducible assumption
    | with_reducible exact Only.refl _ _
    | ((with_reducible refine Parts.leq ?_); rfl)
    | with_reducible apply State.send_only
    | with_reducible apply State.awareWrites_only
    | (extract_lets +onlyGivenNames x; first
        | (refine Only.cut (p := ((Parts.report.or Parts.memory).or { started := true, heldWr := true, fab := true, tor := true, arr := true, sump := true })) (s := t) (x := x) (fun hx => ?_) ?_; clear_value x; revert x; intro y hy; rotate_left; unfold x; clear x)
        | (refine Only.cut1 (p := ((Parts.report.or Parts.memory).or { started := true, heldWr := true, fab := true, tor := true, arr := true, sump := true })) (s := t) (x := x) (fun hx => ?_) ?_; clear_value x; revert x; intro y hy; rotate_left; unfold x; clear x)
        | (refine Only.cut2 (p := ((Parts.report.or Parts.memory).or { started := true, heldWr := true, fab := true, tor := true, arr := true, sump := true })) (s := t) (x := x) (fun hx => ?_) ?_; clear_value x; revert x; intro y hy; rotate_left; unfold x; clear x)
        | (revert x; intro y))
    | simp (disch := with_unfolding_all (apply Parts.same; apply Eq.refl)) only [Only.set_iff]
    | with_reducible apply Only.foldl
    | with_reducible apply Only.foldl_fst
    | (refine Only.of_fst ‹_ = _› ?_)
    | (refine Only.of_snd ‹_ = _› ?_)
    | split
    | (intro)

theorem State.sealRows_only {p : Parts} {s t : State} {b : List Byte} (hq : Parts.le { hbm := true, staging := true, stagTag := true, dirty := true } p = true) (h : Only p s t) : Only p s (State.sealRows t b) := by
  refine Only.step hq h ?_
  unfold State.sealRows
  try dsimp -zeta only
  repeat' first
    | with_reducible assumption
    | with_reducible exact Only.refl _ _
    | ((with_reducible refine Parts.leq ?_); rfl)
    | with_reducible apply State.sealPage_only
    | (extract_lets +onlyGivenNames x; first
        | (refine Only.cut (p := { hbm := true, staging := true, stagTag := true, dirty := true }) (s := t) (x := x) (fun hx => ?_) ?_; clear_value x; revert x; intro y hy; rotate_left; unfold x; clear x)
        | (refine Only.cut1 (p := { hbm := true, staging := true, stagTag := true, dirty := true }) (s := t) (x := x) (fun hx => ?_) ?_; clear_value x; revert x; intro y hy; rotate_left; unfold x; clear x)
        | (refine Only.cut2 (p := { hbm := true, staging := true, stagTag := true, dirty := true }) (s := t) (x := x) (fun hx => ?_) ?_; clear_value x; revert x; intro y hy; rotate_left; unfold x; clear x)
        | (revert x; intro y))
    | simp (disch := with_unfolding_all (apply Parts.same; apply Eq.refl)) only [Only.set_iff]
    | with_reducible apply Only.foldl
    | with_reducible apply Only.foldl_fst
    | (refine Only.of_fst ‹_ = _› ?_)
    | (refine Only.of_snd ‹_ = _› ?_)
    | split
    | (intro)

theorem State.advanceGather_only {p : Parts} {s t : State} {n : Nat} {seq : Nat} (hq : Parts.le ((Parts.report.or Parts.memory).or { started := true, heldWr := true, fab := true, tor := true, arr := true, sump := true, gathers := true }) p = true) (h : Only p s t) : Only p s (State.advanceGather t n seq) := by
  refine Only.step hq h ?_
  unfold State.advanceGather
  try dsimp -zeta only
  repeat' first
    | with_reducible assumption
    | with_reducible exact Only.refl _ _
    | ((with_reducible refine Parts.leq ?_); rfl)
    | with_reducible apply Only.foldChecks
    | with_reducible apply State.writeRow_only
    | with_reducible apply State.endGather_only
    | with_reducible apply State.updGather_only
    | with_reducible apply State.sealRows_only
    | (extract_lets +onlyGivenNames x; first
        | (refine Only.cut (p := ((Parts.report.or Parts.memory).or { started := true, heldWr := true, fab := true, tor := true, arr := true, sump := true, gathers := true })) (s := t) (x := x) (fun hx => ?_) ?_; clear_value x; revert x; intro y hy; rotate_left; unfold x; clear x)
        | (refine Only.cut1 (p := ((Parts.report.or Parts.memory).or { started := true, heldWr := true, fab := true, tor := true, arr := true, sump := true, gathers := true })) (s := t) (x := x) (fun hx => ?_) ?_; clear_value x; revert x; intro y hy; rotate_left; unfold x; clear x)
        | (refine Only.cut2 (p := ((Parts.report.or Parts.memory).or { started := true, heldWr := true, fab := true, tor := true, arr := true, sump := true, gathers := true })) (s := t) (x := x) (fun hx => ?_) ?_; clear_value x; revert x; intro y hy; rotate_left; unfold x; clear x)
        | (revert x; intro y))
    | simp (disch := with_unfolding_all (apply Parts.same; apply Eq.refl)) only [Only.set_iff]
    | with_reducible apply Only.foldl
    | with_reducible apply Only.foldl_fst
    | (refine Only.of_fst ‹_ = _› ?_)
    | (refine Only.of_snd ‹_ = _› ?_)
    | split
    | (intro)

theorem State.openGather_only {p : Parts} {s t : State} {d : Started} {x2 : GatherP} {eb : List Byte} {os : List Nat} {idxs : List Nat} {wts : List Nat} (hq : Parts.le (Parts.report.or { poison := true, started := true, fab := true, tor := true, gathers := true }) p = true) (h : Only p s t) : Only p s (State.openGather t d x2 eb os idxs wts) := by
  refine Only.step hq h ?_
  unfold State.openGather
  try dsimp -zeta only
  repeat' first
    | with_reducible assumption
    | with_reducible exact Only.refl _ _
    | ((with_reducible refine Parts.leq ?_); rfl)
    | with_reducible apply State.unmapped_only
    | with_reducible apply State.newTag_only
    | with_reducible apply State.updStarted_only
    | with_reducible apply State.addGather_only
    | with_reducible apply State.endGather_only
    | with_reducible apply State.issueGather_only
    | with_reducible apply State.send_only
    | (extract_lets +onlyGivenNames x; first
        | (refine Only.cut (p := (Parts.report.or { poison := true, started := true, fab := true, tor := true, gathers := true })) (s := t) (x := x) (fun hx => ?_) ?_; clear_value x; revert x; intro y hy; rotate_left; unfold x; clear x)
        | (refine Only.cut1 (p := (Parts.report.or { poison := true, started := true, fab := true, tor := true, gathers := true })) (s := t) (x := x) (fun hx => ?_) ?_; clear_value x; revert x; intro y hy; rotate_left; unfold x; clear x)
        | (refine Only.cut2 (p := (Parts.report.or { poison := true, started := true, fab := true, tor := true, gathers := true })) (s := t) (x := x) (fun hx => ?_) ?_; clear_value x; revert x; intro y hy; rotate_left; unfold x; clear x)
        | (revert x; intro y))
    | simp (disch := with_unfolding_all (apply Parts.same; apply Eq.refl)) only [Only.set_iff]
    | with_reducible apply Only.foldl
    | with_reducible apply Only.foldl_fst
    | (refine Only.of_fst ‹_ = _› ?_)
    | (refine Only.of_snd ‹_ = _› ?_)
    | split
    | (intro)

theorem State.readLists_only {p : Parts} {s t : State} {t2 : State} {d : Started} {x3 : GatherP} {eb : List Byte} {ofs : List Byte} {idx : List Byte} {wts : List Byte} (hq : Parts.le (Parts.report.or { poison := true, started := true, fab := true, tor := true, gathers := true }) p = true) (h : Only p s t) (h2 : Only p s t2) : Only p s (State.readLists t t2 d x3 eb ofs idx wts) := by
  unfold State.readLists
  try dsimp -zeta only
  repeat' first
    | with_reducible assumption
    | with_reducible exact Only.refl _ _
    | ((with_reducible refine Parts.leq ?_); exact Parts.le_trans rfl hq)
    | with_reducible apply State.extRead_only
    | with_reducible apply State.setDone_only
    | with_reducible apply State.awareChecks_only
    | with_reducible apply State.openGather_only
    | (extract_lets +onlyGivenNames x; first
        | (refine Only.cut (p := p) (s := s) (x := x) (fun hx => ?_) ?_; clear_value x; revert x; intro y hy; rotate_left; unfold x; clear x)
        | (refine Only.cut1 (p := p) (s := s) (x := x) (fun hx => ?_) ?_; clear_value x; revert x; intro y hy; rotate_left; unfold x; clear x)
        | (refine Only.cut2 (p := p) (s := s) (x := x) (fun hx => ?_) ?_; clear_value x; revert x; intro y hy; rotate_left; unfold x; clear x)
        | (revert x; intro y))
    | simp (disch := with_unfolding_all (apply Parts.same; apply Eq.refl)) only [Only.set_iff]
    | with_reducible apply Only.foldl
    | with_reducible apply Only.foldl_fst
    | (refine Only.of_fst ‹_ = _› ?_)
    | (refine Only.of_snd ‹_ = _› ?_)
    | split
    | (intro)

theorem beginGather_only {p : Parts} {s t : State} {d : Started} {ofs : List Byte} {idx : List Byte} {wts : List Byte} (hq : Parts.le (Parts.report.or { poison := true, started := true, fab := true, tor := true, gathers := true }) p = true) (h : Only p s t) : Only p s (beginGather t d ofs idx wts) := by
  refine Only.step hq h ?_
  unfold beginGather
  try dsimp -zeta only
  repeat' first
    | with_reducible assumption
    | with_reducible exact Only.refl _ _
    | ((with_reducible refine Parts.leq ?_); rfl)
    | with_reducible apply State.awareChecks_only
    | with_reducible apply State.setDone_only
    | with_reducible apply State.readLists_only
    | (extract_lets +onlyGivenNames x; first
        | (refine Only.cut (p := (Parts.report.or { poison := true, started := true, fab := true, tor := true, gathers := true })) (s := t) (x := x) (fun hx => ?_) ?_; clear_value x; revert x; intro y hy; rotate_left; unfold x; clear x)
        | (refine Only.cut1 (p := (Parts.report.or { poison := true, started := true, fab := true, tor := true, gathers := true })) (s := t) (x := x) (fun hx => ?_) ?_; clear_value x; revert x; intro y hy; rotate_left; unfold x; clear x)
        | (refine Only.cut2 (p := (Parts.report.or { poison := true, started := true, fab := true, tor := true, gathers := true })) (s := t) (x := x) (fun hx => ?_) ?_; clear_value x; revert x; intro y hy; rotate_left; unfold x; clear x)
        | (revert x; intro y))
    | simp (disch := with_unfolding_all (apply Parts.same; apply Eq.refl)) only [Only.set_iff]
    | with_reducible apply Only.foldl
    | with_reducible apply Only.foldl_fst
    | (refine Only.of_fst ‹_ = _› ?_)
    | (refine Only.of_snd ‹_ = _› ?_)
    | split
    | (intro)

theorem execGather_only {s u : State} {n : Nat} {seq : Nat} {ofs : List Byte} {idx : List Byte} {wts : List Byte} {ecc : EccFinds} (e : execGather n seq ofs idx wts ecc s = .next u) : Only (Parts.report.or { poison := true, started := true, fab := true, tor := true, gathers := true }) s u := by
  unfold execGather at e
  injection e with e
  subst e
  try dsimp -zeta only
  repeat' first
    | with_reducible assumption
    | with_reducible exact Only.refl _ _
    | ((with_reducible refine Parts.leq ?_); rfl)
    | with_reducible apply State.eccAll_only
    | with_reducible apply State.issueGather_only
    | with_reducible apply beginGather_only
    | (extract_lets +onlyGivenNames x; first
        | (refine Only.cut (p := (Parts.report.or { poison := true, started := true, fab := true, tor := true, gathers := true })) (s := s) (x := x) (fun hx => ?_) ?_; clear_value x; revert x; intro y hy; rotate_left; unfold x; clear x)
        | (refine Only.cut1 (p := (Parts.report.or { poison := true, started := true, fab := true, tor := true, gathers := true })) (s := s) (x := x) (fun hx => ?_) ?_; clear_value x; revert x; intro y hy; rotate_left; unfold x; clear x)
        | (refine Only.cut2 (p := (Parts.report.or { poison := true, started := true, fab := true, tor := true, gathers := true })) (s := s) (x := x) (fun hx => ?_) ?_; clear_value x; revert x; intro y hy; rotate_left; unfold x; clear x)
        | (revert x; intro y))
    | simp (disch := with_unfolding_all (apply Parts.same; apply Eq.refl)) only [Only.set_iff]
    | with_reducible apply Only.foldl
    | with_reducible apply Only.foldl_fst
    | (refine Only.of_fst ‹_ = _› ?_)
    | (refine Only.of_snd ‹_ = _› ?_)
    | split
    | (intro)

theorem State.take_only {p : Parts} {s t u : State} {k : Packet} (hq : Parts.le { fab := true } p = true) (h : Only p s t) (e : State.take t k = some u) : Only p s u := by
  refine Only.step hq h ?_
  unfold State.take at e
  split at e <;> first | contradiction | (injection e with e; subst e)
  repeat' first
    | with_reducible exact Only.refl _ _
    | ((with_reducible refine Parts.leq ?_); rfl)
    | simp (disch := with_unfolding_all (apply Parts.same; apply Eq.refl)) only [Only.set_iff]

theorem State.answer_only {p : Parts} {s t : State} {r : Nat} {k : Packet} {kind : Nat} {err : Nat} {body : List Byte} (hq : Parts.le { regs := true, fab := true, tor := true } p = true) (h : Only p s t) : Only p s (State.answer t r k kind err body) := by
  refine Only.step hq h ?_
  unfold State.answer
  try dsimp -zeta only
  repeat' first
    | with_reducible assumption
    | with_reducible exact Only.refl _ _
    | ((with_reducible refine Parts.leq ?_); rfl)
    | with_reducible apply State.send_only
    | (extract_lets +onlyGivenNames x; first
        | (refine Only.cut (p := { regs := true, fab := true, tor := true }) (s := t) (x := x) (fun hx => ?_) ?_; clear_value x; revert x; intro y hy; rotate_left; unfold x; clear x)
        | (refine Only.cut1 (p := { regs := true, fab := true, tor := true }) (s := t) (x := x) (fun hx => ?_) ?_; clear_value x; revert x; intro y hy; rotate_left; unfold x; clear x)
        | (refine Only.cut2 (p := { regs := true, fab := true, tor := true }) (s := t) (x := x) (fun hx => ?_) ?_; clear_value x; revert x; intro y hy; rotate_left; unfold x; clear x)
        | (revert x; intro y))
    | simp (disch := with_unfolding_all (apply Parts.same; apply Eq.refl)) only [Only.set_iff]
    | with_reducible apply Only.foldl
    | with_reducible apply Only.foldl_fst
    | (refine Only.of_fst ‹_ = _› ?_)
    | (refine Only.of_snd ‹_ = _› ?_)
    | split
    | (intro)

theorem State.noteOpen_only {p : Parts} {s t : State} {k : Packet} (hq : Parts.le { rowsIn := true } p = true) (h : Only p s t) : Only p s (State.noteOpen t k) := by
  refine Only.step hq h ?_
  unfold State.noteOpen
  try dsimp -zeta only
  repeat' first
    | with_reducible assumption
    | with_reducible exact Only.refl _ _
    | ((with_reducible refine Parts.leq ?_); rfl)
    | (extract_lets +onlyGivenNames x; first
        | (refine Only.cut (p := { rowsIn := true }) (s := t) (x := x) (fun hx => ?_) ?_; clear_value x; revert x; intro y hy; rotate_left; unfold x; clear x)
        | (refine Only.cut1 (p := { rowsIn := true }) (s := t) (x := x) (fun hx => ?_) ?_; clear_value x; revert x; intro y hy; rotate_left; unfold x; clear x)
        | (refine Only.cut2 (p := { rowsIn := true }) (s := t) (x := x) (fun hx => ?_) ?_; clear_value x; revert x; intro y hy; rotate_left; unfold x; clear x)
        | (revert x; intro y))
    | simp (disch := with_unfolding_all (apply Parts.same; apply Eq.refl)) only [Only.set_iff]
    | with_reducible apply Only.foldl
    | with_reducible apply Only.foldl_fst
    | (refine Only.of_fst ‹_ = _› ?_)
    | (refine Only.of_snd ‹_ = _› ?_)
    | split
    | (intro)

theorem execGatherOpen_only {s u : State} {pkt : Packet} (e : execGatherOpen pkt s = .next u) : Only ((Parts.report.or Parts.memory).or { genStale := true, started := true, heldWr := true, fab := true, tor := true, arr := true, sump := true, gathers := true, rowsIn := true }) s u := by
  unfold execGatherOpen at e
  injection e with e
  subst e
  try dsimp -zeta only
  repeat' first
    | with_reducible assumption
    | with_reducible exact Only.refl _ _
    | ((with_reducible refine Parts.leq ?_); rfl)
    | refine State.take_only ?_ ?_ ‹_›
    | refine State.take_only ?_ ?_ (some_of_ite ‹_›)
    | with_reducible apply State.answer_only
    | with_reducible apply State.noteOpen_only
    | with_reducible apply State.dropStale_only
    | with_reducible apply State.issueAll_only
    | with_reducible apply State.advanceGather_only
    | with_reducible apply State.updGather_only
    | with_reducible apply State.endGather_only
    | (extract_lets +onlyGivenNames x; first
        | (refine Only.cut (p := ((Parts.report.or Parts.memory).or { genStale := true, started := true, heldWr := true, fab := true, tor := true, arr := true, sump := true, gathers := true, rowsIn := true })) (s := s) (x := x) (fun hx => ?_) ?_; clear_value x; revert x; intro y hy; rotate_left; unfold x; clear x)
        | (refine Only.cut1 (p := ((Parts.report.or Parts.memory).or { genStale := true, started := true, heldWr := true, fab := true, tor := true, arr := true, sump := true, gathers := true, rowsIn := true })) (s := s) (x := x) (fun hx => ?_) ?_; clear_value x; revert x; intro y hy; rotate_left; unfold x; clear x)
        | (refine Only.cut2 (p := ((Parts.report.or Parts.memory).or { genStale := true, started := true, heldWr := true, fab := true, tor := true, arr := true, sump := true, gathers := true, rowsIn := true })) (s := s) (x := x) (fun hx => ?_) ?_; clear_value x; revert x; intro y hy; rotate_left; unfold x; clear x)
        | (revert x; intro y))
    | simp (disch := with_unfolding_all (apply Parts.same; apply Eq.refl)) only [Only.set_iff]
    | with_reducible apply Only.foldl
    | with_reducible apply Only.foldl_fst
    | (refine Only.of_fst ‹_ = _› ?_)
    | (refine Only.of_snd ‹_ = _› ?_)
    | split
    | (intro)

theorem State.readRow_only {p : Parts} {s t : State} {c : Ctx} {x2 : TblEntry} {addr : Nat} (hq : Parts.le (Parts.report.or { poison := true }) p = true) (h : Only p s t) : Only p s (State.readRow t c x2 addr).1 := by
  refine Only.step hq h ?_
  unfold State.readRow
  try dsimp -zeta only
  repeat' first
    | with_reducible assumption
    | with_reducible exact Only.refl _ _
    | ((with_reducible refine Parts.leq ?_); rfl)
    | with_reducible apply State.unmapped_only
    | with_reducible apply State.tagReadPage_only
    | with_reducible apply State.poisonCheck_only
    | (extract_lets +onlyGivenNames x; first
        | (refine Only.cut (p := (Parts.report.or { poison := true })) (s := t) (x := x) (fun hx => ?_) ?_; clear_value x; revert x; intro y hy; rotate_left; unfold x; clear x)
        | (refine Only.cut1 (p := (Parts.report.or { poison := true })) (s := t) (x := x) (fun hx => ?_) ?_; clear_value x; revert x; intro y hy; rotate_left; unfold x; clear x)
        | (refine Only.cut2 (p := (Parts.report.or { poison := true })) (s := t) (x := x) (fun hx => ?_) ?_; clear_value x; revert x; intro y hy; rotate_left; unfold x; clear x)
        | (revert x; intro y))
    | simp (disch := with_unfolding_all (apply Parts.same; apply Eq.refl)) only [Only.set_iff]
    | with_reducible apply Only.foldl
    | with_reducible apply Only.foldl_fst
    | (refine Only.of_fst ‹_ = _› ?_)
    | (refine Only.of_snd ‹_ = _› ?_)
    | split
    | (intro)

theorem State.refuseRow_only {p : Parts} {s t : State} {r : Nat} {k : Packet} {ver : Nat} {cls : Nat} (hq : Parts.le { regs := true, fab := true, tor := true } p = true) (h : Only p s t) : Only p s (State.refuseRow t r k ver cls) := by
  refine Only.step hq h ?_
  unfold State.refuseRow
  try dsimp -zeta only
  repeat' first
    | with_reducible assumption
    | with_reducible exact Only.refl _ _
    | ((with_reducible refine Parts.leq ?_); rfl)
    | with_reducible apply State.answer_only
    | (extract_lets +onlyGivenNames x; first
        | (refine Only.cut (p := { regs := true, fab := true, tor := true }) (s := t) (x := x) (fun hx => ?_) ?_; clear_value x; revert x; intro y hy; rotate_left; unfold x; clear x)
        | (refine Only.cut1 (p := { regs := true, fab := true, tor := true }) (s := t) (x := x) (fun hx => ?_) ?_; clear_value x; revert x; intro y hy; rotate_left; unfold x; clear x)
        | (refine Only.cut2 (p := { regs := true, fab := true, tor := true }) (s := t) (x := x) (fun hx => ?_) ?_; clear_value x; revert x; intro y hy; rotate_left; unfold x; clear x)
        | (revert x; intro y))
    | simp (disch := with_unfolding_all (apply Parts.same; apply Eq.refl)) only [Only.set_iff]
    | with_reducible apply Only.foldl
    | with_reducible apply Only.foldl_fst
    | (refine Only.of_fst ‹_ = _› ?_)
    | (refine Only.of_snd ‹_ = _› ?_)
    | split
    | (intro)

theorem State.giveRow_only {p : Parts} {s t : State} {t2 : State} {r : Nat} {k : Packet} {c : Ctx} {x5 : TblEntry} (hq : Parts.le (Parts.report.or { poison := true, fab := true, tor := true }) p = true) (h : Only p s t) (h2 : Only p s t2) : Only p s (State.giveRow t t2 r k c x5) := by
  unfold State.giveRow
  try dsimp -zeta only
  repeat' first
    | with_reducible assumption
    | with_reducible exact Only.refl _ _
    | ((with_reducible refine Parts.leq ?_); exact Parts.le_trans rfl hq)
    | with_reducible apply State.refuseRow_only
    | with_reducible apply State.readRow_only
    | with_reducible apply State.answer_only
    | with_reducible apply State.evCount_only
    | (extract_lets +onlyGivenNames x; first
        | (refine Only.cut (p := p) (s := s) (x := x) (fun hx => ?_) ?_; clear_value x; revert x; intro y hy; rotate_left; unfold x; clear x)
        | (refine Only.cut1 (p := p) (s := s) (x := x) (fun hx => ?_) ?_; clear_value x; revert x; intro y hy; rotate_left; unfold x; clear x)
        | (refine Only.cut2 (p := p) (s := s) (x := x) (fun hx => ?_) ?_; clear_value x; revert x; intro y hy; rotate_left; unfold x; clear x)
        | (revert x; intro y))
    | simp (disch := with_unfolding_all (apply Parts.same; apply Eq.refl)) only [Only.set_iff]
    | with_reducible apply Only.foldl
    | with_reducible apply Only.foldl_fst
    | (refine Only.of_fst ‹_ = _› ?_)
    | (refine Only.of_snd ‹_ = _› ?_)
    | split
    | (intro)

theorem State.serveRow_only {p : Parts} {s t : State} {t2 : State} {r : Nat} {k : Packet} (hq : Parts.le (Parts.report.or { poison := true, fab := true, tor := true }) p = true) (h : Only p s t) (h2 : Only p s t2) : Only p s (State.serveRow t t2 r k) := by
  unfold State.serveRow
  try dsimp -zeta only
  repeat' first
    | with_reducible assumption
    | with_reducible exact Only.refl _ _
    | ((with_reducible refine Parts.leq ?_); exact Parts.le_trans rfl hq)
    | with_reducible apply State.refuseRow_only
    | with_reducible apply State.awareCheck_only
    | with_reducible apply State.giveRow_only
    | (extract_lets +onlyGivenNames x; first
        | (refine Only.cut (p := p) (s := s) (x := x) (fun hx => ?_) ?_; clear_value x; revert x; intro y hy; rotate_left; unfold x; clear x)
        | (refine Only.cut1 (p := p) (s := s) (x := x) (fun hx => ?_) ?_; clear_value x; revert x; intro y hy; rotate_left; unfold x; clear x)
        | (refine Only.cut2 (p := p) (s := s) (x := x) (fun hx => ?_) ?_; clear_value x; revert x; intro y hy; rotate_left; unfold x; clear x)
        | (revert x; intro y))
    | simp (disch := with_unfolding_all (apply Parts.same; apply Eq.refl)) only [Only.set_iff]
    | with_reducible apply Only.foldl
    | with_reducible apply Only.foldl_fst
    | (refine Only.of_fst ‹_ = _› ?_)
    | (refine Only.of_snd ‹_ = _› ?_)
    | split
    | (intro)

theorem execRowRequest_only {s u : State} {r : Nat} {pkt : Packet} {ecc : EccFinds} (e : execRowRequest r pkt ecc s = .next u) : Only (Parts.report.or { poison := true, fab := true, tor := true }) s u := by
  unfold execRowRequest at e
  injection e with e
  subst e
  try dsimp -zeta only
  repeat' first
    | with_reducible assumption
    | with_reducible exact Only.refl _ _
    | ((with_reducible refine Parts.leq ?_); rfl)
    | with_reducible apply State.eccAll_only
    | refine State.take_only ?_ ?_ ‹_›
    | refine State.take_only ?_ ?_ (some_of_ite ‹_›)
    | with_reducible apply State.serveRow_only
    | (extract_lets +onlyGivenNames x; first
        | (refine Only.cut (p := (Parts.report.or { poison := true, fab := true, tor := true })) (s := s) (x := x) (fun hx => ?_) ?_; clear_value x; revert x; intro y hy; rotate_left; unfold x; clear x)
        | (refine Only.cut1 (p := (Parts.report.or { poison := true, fab := true, tor := true })) (s := s) (x := x) (fun hx => ?_) ?_; clear_value x; revert x; intro y hy; rotate_left; unfold x; clear x)
        | (refine Only.cut2 (p := (Parts.report.or { poison := true, fab := true, tor := true })) (s := s) (x := x) (fun hx => ?_) ?_; clear_value x; revert x; intro y hy; rotate_left; unfold x; clear x)
        | (revert x; intro y))
    | simp (disch := with_unfolding_all (apply Parts.same; apply Eq.refl)) only [Only.set_iff]
    | with_reducible apply Only.foldl
    | with_reducible apply Only.foldl_fst
    | (refine Only.of_fst ‹_ = _› ?_)
    | (refine Only.of_snd ‹_ = _› ?_)
    | split
    | (intro)

theorem State.rowArrived_only {p : Parts} {s t : State} {g : GatherRun} {x2 : GPos → Bool} {d : List Byte} (hq : Parts.le { gathers := true } p = true) (h : Only p s t) : Only p s (State.rowArrived t g x2 d) := by
  refine Only.step hq h ?_
  unfold State.rowArrived
  repeat' first
    | with_reducible exact Only.refl _ _
    | ((with_reducible refine Parts.leq ?_); rfl)
    | with_reducible apply State.updGather_only

theorem State.rowArrivedAt_only {p : Parts} {s t : State} {g : GatherRun} {pos : Nat} {d : List Byte} (hq : Parts.le { gathers := true } p = true) (h : Only p s t) : Only p s (State.rowArrivedAt t g pos d) := by
  refine Only.step hq h ?_
  unfold State.rowArrivedAt
  repeat' first
    | with_reducible exact Only.refl _ _
    | ((with_reducible refine Parts.leq ?_); rfl)
    | with_reducible apply State.updGather_only

theorem State.afterRow_only {p : Parts} {s t : State} {n : Nat} {seq : Nat} {region : Nat} (hq : Parts.le ((Parts.report.or Parts.memory).or { started := true, heldWr := true, fab := true, tor := true, arr := true, sump := true, gathers := true }) p = true) (h : Only p s t) : Only p s (State.afterRow t n seq region) := by
  refine Only.step hq h ?_
  unfold State.afterRow
  try dsimp -zeta only
  repeat' first
    | with_reducible assumption
    | with_reducible exact Only.refl _ _
    | ((with_reducible refine Parts.leq ?_); rfl)
    | with_reducible apply State.issueAll_only
    | with_reducible apply State.advanceGather_only
    | (extract_lets +onlyGivenNames x; first
        | (refine Only.cut (p := ((Parts.report.or Parts.memory).or { started := true, heldWr := true, fab := true, tor := true, arr := true, sump := true, gathers := true })) (s := t) (x := x) (fun hx => ?_) ?_; clear_value x; revert x; intro y hy; rotate_left; unfold x; clear x)
        | (refine Only.cut1 (p := ((Parts.report.or Parts.memory).or { started := true, heldWr := true, fab := true, tor := true, arr := true, sump := true, gathers := true })) (s := t) (x := x) (fun hx => ?_) ?_; clear_value x; revert x; intro y hy; rotate_left; unfold x; clear x)
        | (refine Only.cut2 (p := ((Parts.report.or Parts.memory).or { started := true, heldWr := true, fab := true, tor := true, arr := true, sump := true, gathers := true })) (s := t) (x := x) (fun hx => ?_) ?_; clear_value x; revert x; intro y hy; rotate_left; unfold x; clear x)
        | (revert x; intro y))
    | simp (disch := with_unfolding_all (apply Parts.same; apply Eq.refl)) only [Only.set_iff]
    | with_reducible apply Only.foldl
    | with_reducible apply Only.foldl_fst
    | (refine Only.of_fst ‹_ = _› ?_)
    | (refine Only.of_snd ‹_ = _› ?_)
    | split
    | (intro)

theorem State.dropRowReply_only {p : Parts} {s t : State} {k : Packet} (hq : Parts.le (Parts.report.or { genStale := true, fab := true }) p = true) (h : Only p s t) : Only p s (State.dropRowReply t k) := by
  refine Only.step hq h ?_
  unfold State.dropRowReply
  try dsimp -zeta only
  repeat' first
    | with_reducible assumption
    | with_reducible exact Only.refl _ _
    | ((with_reducible refine Parts.leq ?_); rfl)
    | refine State.take_only ?_ ?_ ‹_›
    | refine State.take_only ?_ ?_ (some_of_ite ‹_›)
    | with_reducible apply State.dropStale_only
    | (extract_lets +onlyGivenNames x; first
        | (refine Only.cut (p := (Parts.report.or { genStale := true, fab := true })) (s := t) (x := x) (fun hx => ?_) ?_; clear_value x; revert x; intro y hy; rotate_left; unfold x; clear x)
        | (refine Only.cut1 (p := (Parts.report.or { genStale := true, fab := true })) (s := t) (x := x) (fun hx => ?_) ?_; clear_value x; revert x; intro y hy; rotate_left; unfold x; clear x)
        | (refine Only.cut2 (p := (Parts.report.or { genStale := true, fab := true })) (s := t) (x := x) (fun hx => ?_) ?_; clear_value x; revert x; intro y hy; rotate_left; unfold x; clear x)
        | (revert x; intro y))
    | simp (disch := with_unfolding_all (apply Parts.same; apply Eq.refl)) only [Only.set_iff]
    | with_reducible apply Only.foldl
    | with_reducible apply Only.foldl_fst
    | (refine Only.of_fst ‹_ = _› ?_)
    | (refine Only.of_snd ‹_ = _› ?_)
    | split
    | (intro)

theorem execRowReply_only {s u : State} {n : Nat} {seq : Nat} {pos : Nat} {pkt : Option Packet} {ecc : EccFinds} (e : execRowReply n seq pos pkt ecc s = .next u) : Only ((Parts.report.or Parts.memory).or { genStale := true, started := true, heldWr := true, fab := true, tor := true, arr := true, sump := true, gathers := true }) s u := by
  unfold execRowReply at e
  injection e with e
  subst e
  try dsimp only
  repeat' first
    | with_reducible assumption
    | with_reducible exact Only.refl _ _
    | ((with_reducible refine Parts.leq ?_); rfl)
    | with_reducible apply State.eccAll_only
    | with_reducible apply State.issueAll_only
    | with_reducible apply State.endGather_only
    | with_reducible apply State.readRow_only
    | with_reducible apply State.afterRow_only
    | with_reducible apply State.rowArrivedAt_only
    | with_reducible apply State.evCount_only
    | with_reducible apply State.dropRowReply_only
    | refine State.take_only ?_ ?_ ‹_›
    | refine State.take_only ?_ ?_ (some_of_ite ‹_›)
    | with_reducible apply State.dropStale_only
    | with_reducible apply State.answeredTimed_only
    | with_reducible apply State.rowArrived_only
    | (extract_lets +onlyGivenNames x; first
        | (refine Only.cut (p := ((Parts.report.or Parts.memory).or { genStale := true, started := true, heldWr := true, fab := true, tor := true, arr := true, sump := true, gathers := true })) (s := s) (x := x) (fun hx => ?_) ?_; clear_value x; revert x; intro y hy; rotate_left; unfold x; clear x)
        | (refine Only.cut1 (p := ((Parts.report.or Parts.memory).or { genStale := true, started := true, heldWr := true, fab := true, tor := true, arr := true, sump := true, gathers := true })) (s := s) (x := x) (fun hx => ?_) ?_; clear_value x; revert x; intro y hy; rotate_left; unfold x; clear x)
        | (refine Only.cut2 (p := ((Parts.report.or Parts.memory).or { genStale := true, started := true, heldWr := true, fab := true, tor := true, arr := true, sump := true, gathers := true })) (s := s) (x := x) (fun hx => ?_) ?_; clear_value x; revert x; intro y hy; rotate_left; unfold x; clear x)
        | (revert x; intro y))
    | simp (disch := with_unfolding_all (apply Parts.same; apply Eq.refl)) only [Only.set_iff]
    | with_reducible apply Only.foldl
    | with_reducible apply Only.foldl_fst
    | (refine Only.of_fst ‹_ = _› ?_)
    | (refine Only.of_snd ‹_ = _› ?_)
    | split
    | (intro)

theorem State.looseRows_only {p : Parts} {s t : State} {g : GatherRun} {b : List Byte} (hq : Parts.le ((Parts.report.or Parts.memory).or { started := true, heldWr := true, fab := true, tor := true, freeCtr := true, arr := true, sump := true }) p = true) (h : Only p s t) : Only p s (State.looseRows t g b) := by
  refine Only.step hq h ?_
  unfold State.looseRows
  try dsimp -zeta only
  repeat' first
    | with_reducible assumption
    | with_reducible exact Only.refl _ _
    | ((with_reducible refine Parts.leq ?_); rfl)
    | with_reducible apply State.writeRow_only
    | with_reducible apply State.drew_only
    | (extract_lets +onlyGivenNames x; first
        | (refine Only.cut (p := ((Parts.report.or Parts.memory).or { started := true, heldWr := true, fab := true, tor := true, freeCtr := true, arr := true, sump := true })) (s := t) (x := x) (fun hx => ?_) ?_; clear_value x; revert x; intro y hy; rotate_left; unfold x; clear x)
        | (refine Only.cut1 (p := ((Parts.report.or Parts.memory).or { started := true, heldWr := true, fab := true, tor := true, freeCtr := true, arr := true, sump := true })) (s := t) (x := x) (fun hx => ?_) ?_; clear_value x; revert x; intro y hy; rotate_left; unfold x; clear x)
        | (refine Only.cut2 (p := ((Parts.report.or Parts.memory).or { started := true, heldWr := true, fab := true, tor := true, freeCtr := true, arr := true, sump := true })) (s := t) (x := x) (fun hx => ?_) ?_; clear_value x; revert x; intro y hy; rotate_left; unfold x; clear x)
        | (revert x; intro y))
    | simp (disch := with_unfolding_all (apply Parts.same; apply Eq.refl)) only [Only.set_iff]
    | with_reducible apply Only.foldl
    | with_reducible apply Only.foldl_fst
    | (refine Only.of_fst ‹_ = _› ?_)
    | (refine Only.of_snd ‹_ = _› ?_)
    | split
    | (intro)

theorem State.stopGather_only {p : Parts} {s t : State} {d : Started} (hq : Parts.le ((Parts.report.or Parts.memory).or { started := true, heldWr := true, fab := true, tor := true, freeCtr := true, arr := true, sump := true, gathers := true }) p = true) (h : Only p s t) : Only p s (State.stopGather t d) := by
  refine Only.step hq h ?_
  unfold State.stopGather
  try dsimp -zeta only
  repeat' first
    | with_reducible assumption
    | with_reducible exact Only.refl _ _
    | ((with_reducible refine Parts.leq ?_); rfl)
    | with_reducible apply State.looseRows_only
    | (extract_lets +onlyGivenNames x; first
        | (refine Only.cut (p := ((Parts.report.or Parts.memory).or { started := true, heldWr := true, fab := true, tor := true, freeCtr := true, arr := true, sump := true, gathers := true })) (s := t) (x := x) (fun hx => ?_) ?_; clear_value x; revert x; intro y hy; rotate_left; unfold x; clear x)
        | (refine Only.cut1 (p := ((Parts.report.or Parts.memory).or { started := true, heldWr := true, fab := true, tor := true, freeCtr := true, arr := true, sump := true, gathers := true })) (s := t) (x := x) (fun hx => ?_) ?_; clear_value x; revert x; intro y hy; rotate_left; unfold x; clear x)
        | (refine Only.cut2 (p := ((Parts.report.or Parts.memory).or { started := true, heldWr := true, fab := true, tor := true, freeCtr := true, arr := true, sump := true, gathers := true })) (s := t) (x := x) (fun hx => ?_) ?_; clear_value x; revert x; intro y hy; rotate_left; unfold x; clear x)
        | (revert x; intro y))
    | simp (disch := with_unfolding_all (apply Parts.same; apply Eq.refl)) only [Only.set_iff]
    | with_reducible apply Only.foldl
    | with_reducible apply Only.foldl_fst
    | (refine Only.of_fst ‹_ = _› ?_)
    | (refine Only.of_snd ‹_ = _› ?_)
    | split
    | (intro)

theorem State.stopUpdate_only {p : Parts} {s t : State} {d : Started} (hq : Parts.le { regs := true, upd := true } p = true) (h : Only p s t) : Only p s (State.stopUpdate t d) := by
  refine Only.step hq h ?_
  unfold State.stopUpdate
  try dsimp -zeta only
  repeat' first
    | with_reducible assumption
    | with_reducible exact Only.refl _ _
    | ((with_reducible refine Parts.leq ?_); rfl)
    | with_reducible apply State.setReg_only
    | with_reducible apply State.fput_only
    | (extract_lets +onlyGivenNames x; first
        | (refine Only.cut (p := { regs := true, upd := true }) (s := t) (x := x) (fun hx => ?_) ?_; clear_value x; revert x; intro y hy; rotate_left; unfold x; clear x)
        | (refine Only.cut1 (p := { regs := true, upd := true }) (s := t) (x := x) (fun hx => ?_) ?_; clear_value x; revert x; intro y hy; rotate_left; unfold x; clear x)
        | (refine Only.cut2 (p := { regs := true, upd := true }) (s := t) (x := x) (fun hx => ?_) ?_; clear_value x; revert x; intro y hy; rotate_left; unfold x; clear x)
        | (revert x; intro y))
    | simp (disch := with_unfolding_all (apply Parts.same; apply Eq.refl)) only [Only.set_iff]
    | with_reducible apply Only.foldl
    | with_reducible apply Only.foldl_fst
    | (refine Only.of_fst ‹_ = _› ?_)
    | (refine Only.of_snd ‹_ = _› ?_)
    | split
    | (intro)

theorem State.stopDesc_only {p : Parts} {s t : State} {d : Started} {done : Done} (hq : Parts.le ((Parts.report.or Parts.memory).or { started := true, heldWr := true, fab := true, tor := true, freeCtr := true, arr := true, sump := true, gathers := true, upd := true, ranks := true }) p = true) (h : Only p s t) : Only p s (State.stopDesc t d done) := by
  refine Only.step hq h ?_
  unfold State.stopDesc
  try dsimp -zeta only
  repeat' first
    | with_reducible assumption
    | with_reducible exact Only.refl _ _
    | ((with_reducible refine Parts.leq ?_); rfl)
    | with_reducible apply State.setDone_only
    | with_reducible apply State.endRank_only
    | with_reducible apply State.stopUpdate_only
    | with_reducible apply State.stopGather_only
    | with_reducible apply State.stopArray_only
    | (extract_lets +onlyGivenNames x; first
        | (refine Only.cut (p := ((Parts.report.or Parts.memory).or { started := true, heldWr := true, fab := true, tor := true, freeCtr := true, arr := true, sump := true, gathers := true, upd := true, ranks := true })) (s := t) (x := x) (fun hx => ?_) ?_; clear_value x; revert x; intro y hy; rotate_left; unfold x; clear x)
        | (refine Only.cut1 (p := ((Parts.report.or Parts.memory).or { started := true, heldWr := true, fab := true, tor := true, freeCtr := true, arr := true, sump := true, gathers := true, upd := true, ranks := true })) (s := t) (x := x) (fun hx => ?_) ?_; clear_value x; revert x; intro y hy; rotate_left; unfold x; clear x)
        | (refine Only.cut2 (p := ((Parts.report.or Parts.memory).or { started := true, heldWr := true, fab := true, tor := true, freeCtr := true, arr := true, sump := true, gathers := true, upd := true, ranks := true })) (s := t) (x := x) (fun hx => ?_) ?_; clear_value x; revert x; intro y hy; rotate_left; unfold x; clear x)
        | (revert x; intro y))
    | simp (disch := with_unfolding_all (apply Parts.same; apply Eq.refl)) only [Only.set_iff]
    | with_reducible apply Only.foldl
    | with_reducible apply Only.foldl_fst
    | (refine Only.of_fst ‹_ = _› ?_)
    | (refine Only.of_snd ‹_ = _› ?_)
    | split
    | (intro)

theorem State.tagOpFails_only {p : Parts} {s t : State} {d : Started} {burst : Nat} (hq : Parts.le (Parts.report.or { poison := true, started := true }) p = true) (h : Only p s t) : Only p s (State.tagOpFails t d burst) := by
  refine Only.step hq h ?_
  unfold State.tagOpFails
  try dsimp -zeta only
  repeat' first
    | with_reducible assumption
    | with_reducible exact Only.refl _ _
    | ((with_reducible refine Parts.leq ?_); rfl)
    | with_reducible apply State.setDone_only
    | with_reducible apply State.ueReport_only
    | (extract_lets +onlyGivenNames x; first
        | (refine Only.cut (p := (Parts.report.or { poison := true, started := true })) (s := t) (x := x) (fun hx => ?_) ?_; clear_value x; revert x; intro y hy; rotate_left; unfold x; clear x)
        | (refine Only.cut1 (p := (Parts.report.or { poison := true, started := true })) (s := t) (x := x) (fun hx => ?_) ?_; clear_value x; revert x; intro y hy; rotate_left; unfold x; clear x)
        | (refine Only.cut2 (p := (Parts.report.or { poison := true, started := true })) (s := t) (x := x) (fun hx => ?_) ?_; clear_value x; revert x; intro y hy; rotate_left; unfold x; clear x)
        | (revert x; intro y))
    | simp (disch := with_unfolding_all (apply Parts.same; apply Eq.refl)) only [Only.set_iff]
    | with_reducible apply Only.foldl
    | with_reducible apply Only.foldl_fst
    | (refine Only.of_fst ‹_ = _› ?_)
    | (refine Only.of_snd ‹_ = _› ?_)
    | split
    | (intro)

theorem tagSeal_only {p : Parts} {s t : State} {d : Started} (hq : Parts.le ((Parts.report.or Parts.memory).or { started := true }) p = true) (h : Only p s t) : Only p s (tagSeal t d) := by
  refine Only.step hq h ?_
  unfold tagSeal
  try dsimp -zeta only
  repeat' first
    | with_reducible assumption
    | with_reducible exact Only.refl _ _
    | ((with_reducible refine Parts.leq ?_); rfl)
    | with_reducible apply State.sealPage_only
    | with_reducible apply State.tagOpFails_only
    | with_reducible apply State.setDone_only
    | (extract_lets +onlyGivenNames x; first
        | (refine Only.cut (p := ((Parts.report.or Parts.memory).or { started := true })) (s := t) (x := x) (fun hx => ?_) ?_; clear_value x; revert x; intro y hy; rotate_left; unfold x; clear x)
        | (refine Only.cut1 (p := ((Parts.report.or Parts.memory).or { started := true })) (s := t) (x := x) (fun hx => ?_) ?_; clear_value x; revert x; intro y hy; rotate_left; unfold x; clear x)
        | (refine Only.cut2 (p := ((Parts.report.or Parts.memory).or { started := true })) (s := t) (x := x) (fun hx => ?_) ?_; clear_value x; revert x; intro y hy; rotate_left; unfold x; clear x)
        | (revert x; intro y))
    | simp (disch := with_unfolding_all (apply Parts.same; apply Eq.refl)) only [Only.set_iff]
    | with_reducible apply Only.foldl
    | with_reducible apply Only.foldl_fst
    | (refine Only.of_fst ‹_ = _› ?_)
    | (refine Only.of_snd ‹_ = _› ?_)
    | split
    | (intro)

theorem tagVerify_only {p : Parts} {s t : State} {d : Started} (hq : Parts.le (Parts.report.or { poison := true, started := true }) p = true) (h : Only p s t) : Only p s (tagVerify t d) := by
  refine Only.step hq h ?_
  unfold tagVerify
  try dsimp only
  repeat' first
    | with_reducible assumption
    | with_reducible exact Only.refl _ _
    | ((with_reducible refine Parts.leq ?_); rfl)
    | with_reducible apply State.report_only
    | with_reducible apply State.bump_only
    | with_reducible apply State.tagOpFails_only
    | with_reducible apply State.setDone_only
    | (extract_lets +onlyGivenNames x; first
        | (refine Only.cut (p := (Parts.report.or { poison := true, started := true })) (s := t) (x := x) (fun hx => ?_) ?_; clear_value x; revert x; intro y hy; rotate_left; unfold x; clear x)
        | (refine Only.cut1 (p := (Parts.report.or { poison := true, started := true })) (s := t) (x := x) (fun hx => ?_) ?_; clear_value x; revert x; intro y hy; rotate_left; unfold x; clear x)
        | (refine Only.cut2 (p := (Parts.report.or { poison := true, started := true })) (s := t) (x := x) (fun hx => ?_) ?_; clear_value x; revert x; intro y hy; rotate_left; unfold x; clear x)
        | (revert x; intro y))
    | simp (disch := with_unfolding_all (apply Parts.same; apply Eq.refl)) only [Only.set_iff]
    | with_reducible apply Only.foldl
    | with_reducible apply Only.foldl_fst
    | (refine Only.of_fst ‹_ = _› ?_)
    | (refine Only.of_snd ‹_ = _› ?_)
    | split
    | (intro)

theorem execTagSeal_only {s u : State} {n : Nat} {seq : Nat} {ecc : EccFinds} (e : execTagSeal n seq ecc s = .next u) : Only ((Parts.report.or Parts.memory).or { started := true }) s u := by
  unfold execTagSeal at e
  injection e with e
  subst e
  try dsimp -zeta only
  repeat' first
    | with_reducible assumption
    | with_reducible exact Only.refl _ _
    | ((with_reducible refine Parts.leq ?_); rfl)
    | with_reducible apply State.eccAll_only
    | with_reducible apply tagSeal_only
    | (extract_lets +onlyGivenNames x; first
        | (refine Only.cut (p := ((Parts.report.or Parts.memory).or { started := true })) (s := s) (x := x) (fun hx => ?_) ?_; clear_value x; revert x; intro y hy; rotate_left; unfold x; clear x)
        | (refine Only.cut1 (p := ((Parts.report.or Parts.memory).or { started := true })) (s := s) (x := x) (fun hx => ?_) ?_; clear_value x; revert x; intro y hy; rotate_left; unfold x; clear x)
        | (refine Only.cut2 (p := ((Parts.report.or Parts.memory).or { started := true })) (s := s) (x := x) (fun hx => ?_) ?_; clear_value x; revert x; intro y hy; rotate_left; unfold x; clear x)
        | (revert x; intro y))
    | simp (disch := with_unfolding_all (apply Parts.same; apply Eq.refl)) only [Only.set_iff]
    | with_reducible apply Only.foldl
    | with_reducible apply Only.foldl_fst
    | (refine Only.of_fst ‹_ = _› ?_)
    | (refine Only.of_snd ‹_ = _› ?_)
    | split
    | (intro)

theorem execTagVerify_only {s u : State} {n : Nat} {seq : Nat} {ecc : EccFinds} (e : execTagVerify n seq ecc s = .next u) : Only (Parts.report.or { poison := true, started := true }) s u := by
  unfold execTagVerify at e
  injection e with e
  subst e
  try dsimp -zeta only
  repeat' first
    | with_reducible assumption
    | with_reducible exact Only.refl _ _
    | ((with_reducible refine Parts.leq ?_); rfl)
    | with_reducible apply State.eccAll_only
    | with_reducible apply tagVerify_only
    | (extract_lets +onlyGivenNames x; first
        | (refine Only.cut (p := (Parts.report.or { poison := true, started := true })) (s := s) (x := x) (fun hx => ?_) ?_; clear_value x; revert x; intro y hy; rotate_left; unfold x; clear x)
        | (refine Only.cut1 (p := (Parts.report.or { poison := true, started := true })) (s := s) (x := x) (fun hx => ?_) ?_; clear_value x; revert x; intro y hy; rotate_left; unfold x; clear x)
        | (refine Only.cut2 (p := (Parts.report.or { poison := true, started := true })) (s := s) (x := x) (fun hx => ?_) ?_; clear_value x; revert x; intro y hy; rotate_left; unfold x; clear x)
        | (revert x; intro y))
    | simp (disch := with_unfolding_all (apply Parts.same; apply Eq.refl)) only [Only.set_iff]
    | with_reducible apply Only.foldl
    | with_reducible apply Only.foldl_fst
    | (refine Only.of_fst ‹_ = _› ?_)
    | (refine Only.of_snd ‹_ = _› ?_)
    | split
    | (intro)

end Sys2Proof.Machine
end

