-- ==== Sys2Proof/Laws/OnlyUpdate.lean ====
section
/-!
SUPPORT. Which parts of the state the operations of Machine/Update.lean may change (Safety.lean).
-/
namespace Sys2Proof.Machine

open Sys2Proof

theorem State.setUpd_only {p : Parts} {s t : State} {r : Nat} {x2 : Option UpdRun} (hq : Parts.le { upd := true } p = true) (h : Only p s t) : Only p s (State.setUpd t r x2) := by
  refine Only.step hq h ?_
  unfold State.setUpd
  repeat' first
    | with_reducible exact Only.refl _ _
    | ((with_reducible refine Parts.leq ?_); rfl)
    | simp (disch := with_unfolding_all (apply Parts.same; apply Eq.refl)) only [Only.set_iff]

theorem State.startUpd_only {p : Parts} {s t : State} {d : Started} {ve : Option Nat} (hq : Parts.le { regs := true, upd := true } p = true) (h : Only p s t) : Only p s (State.startUpd t d ve) := by
  refine Only.step hq h ?_
  unfold State.startUpd
  repeat' first
    | with_reducible exact Only.refl _ _
    | ((with_reducible refine Parts.leq ?_); rfl)
    | with_reducible apply State.setUpd_only
    | with_reducible apply State.fput_only
    | with_reducible apply State.bump_only
    | split

theorem State.endUpd_only {p : Parts} {s t : State} {r : Nat} {d : Done} (hq : Parts.le { regs := true, started := true, upd := true } p = true) (h : Only p s t) : Only p s (State.endUpd t r d) := by
  refine Only.step hq h ?_
  unfold State.endUpd
  repeat' first
    | with_reducible exact Only.refl _ _
    | ((with_reducible refine Parts.leq ?_); rfl)
    | with_reducible apply State.fput_only
    | with_reducible apply State.setUpd_only
    | with_reducible apply State.setDone_only
    | with_reducible apply State.setReg_only
    | split

theorem State.promote_only {p : Parts} {s t : State} {r : Nat} {x2 : UpdRun} {b : List Byte} (hq : Parts.le ((Parts.report.or Parts.memory).or { started := true, heldWr := true, arr := true, sump := true }) p = true) (h : Only p s t) : Only p s (State.promote t r x2 b).1 := by
  refine Only.step hq h ?_
  unfold State.promote
  try dsimp -zeta only
  repeat' first
    | with_reducible assumption
    | with_reducible exact Only.refl _ _
    | ((with_reducible refine Parts.leq ?_); rfl)
    | with_reducible apply State.awareWrites_only
    | (extract_lets +onlyGivenNames x; first
        | (refine Only.cut (p := ((Parts.report.or Parts.memory).or { started := true, heldWr := true, arr := true, sump := true })) (s := t) (x := x) (fun hx => ?_) ?_; clear_value x; revert x; intro y hy; rotate_left; unfold x; clear x)
        | (refine Only.cut1 (p := ((Parts.report.or Parts.memory).or { started := true, heldWr := true, arr := true, sump := true })) (s := t) (x := x) (fun hx => ?_) ?_; clear_value x; revert x; intro y hy; rotate_left; unfold x; clear x)
        | (refine Only.cut2 (p := ((Parts.report.or Parts.memory).or { started := true, heldWr := true, arr := true, sump := true })) (s := t) (x := x) (fun hx => ?_) ?_; clear_value x; revert x; intro y hy; rotate_left; unfold x; clear x)
        | (revert x; intro y))
    | simp (disch := with_unfolding_all (apply Parts.same; apply Eq.refl)) only [Only.set_iff]
    | with_reducible apply Only.foldl
    | with_reducible apply Only.foldl_fst
    | (refine Only.of_fst ‹_ = _› ?_)
    | (refine Only.of_snd ‹_ = _› ?_)
    | split
    | (intro)

theorem State.engineFault_only {p : Parts} {s t : State} {d : Started} {cls : Nat} (hq : Parts.le { upd := true } p = true) (h : Only p s t) : Only p s (State.engineFault t d cls) := by
  refine Only.step hq h ?_
  unfold State.engineFault
  try dsimp -zeta only
  repeat' first
    | with_reducible assumption
    | with_reducible exact Only.refl _ _
    | ((with_reducible refine Parts.leq ?_); rfl)
    | with_reducible apply State.setUpd_only
    | (extract_lets +onlyGivenNames x; first
        | (refine Only.cut (p := { upd := true }) (s := t) (x := x) (fun hx => ?_) ?_; clear_value x; revert x; intro y hy; rotate_left; unfold x; clear x)
        | (refine Only.cut1 (p := { upd := true }) (s := t) (x := x) (fun hx => ?_) ?_; clear_value x; revert x; intro y hy; rotate_left; unfold x; clear x)
        | (refine Only.cut2 (p := { upd := true }) (s := t) (x := x) (fun hx => ?_) ?_; clear_value x; revert x; intro y hy; rotate_left; unfold x; clear x)
        | (revert x; intro y))
    | simp (disch := with_unfolding_all (apply Parts.same; apply Eq.refl)) only [Only.set_iff]
    | with_reducible apply Only.foldl
    | with_reducible apply Only.foldl_fst
    | (refine Only.of_fst ‹_ = _› ?_)
    | (refine Only.of_snd ‹_ = _› ?_)
    | split
    | (intro)

theorem State.updCheck_only {p : Parts} {s t : State} {c : Ctx} {rs : List (Nat × Nat)} {x : Nat × Nat × Option Nat × Option Nat} (hq : Parts.le (Parts.report.or { poison := true }) p = true) (h : Only p s t) : Only p s (State.updCheck t c rs x).1 := by
  refine Only.step hq h ?_
  unfold State.updCheck
  try dsimp -zeta only
  repeat' first
    | with_reducible assumption
    | with_reducible exact Only.refl _ _
    | ((with_reducible refine Parts.leq ?_); rfl)
    | with_reducible apply Only.foldChecks
    | with_reducible apply State.tagReadPage_only
    | with_reducible apply State.poisonCheck_only
    | (extract_lets +onlyGivenNames x; first
        | (refine Only.cut (p := (Parts.report.or { poison := true })) (s := t) (x := x) (fun hx => ?_) ?_; clear_value x; revert x; intro y hy; rotate_left; unfold x; clear x)
        | (refine Only.cut1 (p := (Parts.report.or { poison := true })) (s := t) (x := x) (fun hx => ?_) ?_; clear_value x; revert x; intro y hy; rotate_left; unfold x; clear x)
        | (refine Only.cut2 (p := (Parts.report.or { poison := true })) (s := t) (x := x) (fun hx => ?_) ?_; clear_value x; revert x; intro y hy; rotate_left; unfold x; clear x)
        | (revert x; intro y))
    | simp (disch := with_unfolding_all (apply Parts.same; apply Eq.refl)) only [Only.set_iff]
    | with_reducible apply Only.foldl
    | with_reducible apply Only.foldl_fst
    | (refine Only.of_fst ‹_ = _› ?_)
    | (refine Only.of_snd ‹_ = _› ?_)
    | split
    | (intro)

theorem State.updMismatch_only {p : Parts} {s t : State} {r : Nat} {x2 : UpdRun} {b : List Byte} (hq : Parts.le ((Parts.report.or Parts.memory).or { drainAt := true, hostW := true, sq := true, pcie := true, heldWr := true, order := true, fab := true, tor := true, arr := true, sump := true, upd := true }) p = true) (h : Only p s t) : Only p s (State.updMismatch t r x2 b) := by
  refine Only.step hq h ?_
  unfold State.updMismatch
  try dsimp -zeta only
  repeat' first
    | with_reducible assumption
    | with_reducible exact Only.refl _ _
    | ((with_reducible refine Parts.leq ?_); rfl)
    | with_reducible apply State.report_only
    | with_reducible apply State.enterDrain_only
    | with_reducible apply State.setUpd_only
    | (extract_lets +onlyGivenNames x; first
        | (refine Only.cut (p := ((Parts.report.or Parts.memory).or { drainAt := true, hostW := true, sq := true, pcie := true, heldWr := true, order := true, fab := true, tor := true, arr := true, sump := true, upd := true })) (s := t) (x := x) (fun hx => ?_) ?_; clear_value x; revert x; intro y hy; rotate_left; unfold x; clear x)
        | (refine Only.cut1 (p := ((Parts.report.or Parts.memory).or { drainAt := true, hostW := true, sq := true, pcie := true, heldWr := true, order := true, fab := true, tor := true, arr := true, sump := true, upd := true })) (s := t) (x := x) (fun hx => ?_) ?_; clear_value x; revert x; intro y hy; rotate_left; unfold x; clear x)
        | (refine Only.cut2 (p := ((Parts.report.or Parts.memory).or { drainAt := true, hostW := true, sq := true, pcie := true, heldWr := true, order := true, fab := true, tor := true, arr := true, sump := true, upd := true })) (s := t) (x := x) (fun hx => ?_) ?_; clear_value x; revert x; intro y hy; rotate_left; unfold x; clear x)
        | (revert x; intro y))
    | simp (disch := with_unfolding_all (apply Parts.same; apply Eq.refl)) only [Only.set_iff]
    | with_reducible apply Only.foldl
    | with_reducible apply Only.foldl_fst
    | (refine Only.of_fst ‹_ = _› ?_)
    | (refine Only.of_snd ‹_ = _› ?_)
    | split
    | (intro)

theorem State.sealRange_only {p : Parts} {s t : State} {addr : Nat} {n : Nat} {fmt : Nat} {step : Nat} {bid : Nat → Nat} (hq : Parts.le { hbm := true, staging := true, stagTag := true, dirty := true } p = true) (h : Only p s t) : Only p s (State.sealRange t addr n fmt step bid) := by
  refine Only.step hq h ?_
  unfold State.sealRange
  try dsimp -zeta only
  repeat' first
    | with_reducible assumption
    | with_reducible exact Only.refl _ _
    | ((with_reducible refine Parts.leq ?_); rfl)
    | with_reducible apply State.sealPage_only
    | (extract_lets +onlyGivenNames x; first
        | (refine Only.cut (p := { hbm := true, staging := true, stagTag := true, dirty := true }) (s := t) (x := x) (fun hx => ?_) ?_; clear_value x; revert x; intro y hy; rotate_left; unfold x; clear x)
        | (refine Only.cut1 (p := { hbm := true, staging := true, stagTag := true, dirty := true }) (s := t) (x := x) (fun hx => ?_) ?_; clear_value x; revert x; intro y hy; rotate_left; unfold x; clear x)
        | (refine Only.cut2 (p := { hbm := true, staging := true, stagTag := true, dirty := true }) (s := t) (x := x) (fun hx => ?_) ?_; clear_value x; revert x; intro y hy; rotate_left; unfold x; clear x)
        | (revert x; intro y))
    | simp (disch := with_unfolding_all (apply Parts.same; apply Eq.refl)) only [Only.set_iff]
    | with_reducible apply Only.foldl
    | with_reducible apply Only.foldl_fst
    | (refine Only.of_fst ‹_ = _› ?_)
    | (refine Only.of_snd ‹_ = _› ?_)
    | split
    | (intro)

theorem State.sealDense_only {p : Parts} {s t : State} {x1 : UpdRun} {b : List Byte} (hq : Parts.le { hbm := true, staging := true, stagTag := true, dirty := true } p = true) (h : Only p s t) : Only p s (State.sealDense t x1 b) := by
  refine Only.step hq h ?_
  unfold State.sealDense
  try dsimp -zeta only
  repeat' first
    | with_reducible assumption
    | with_reducible exact Only.refl _ _
    | ((with_reducible refine Parts.leq ?_); rfl)
    | with_reducible apply State.sealRange_only
    | (extract_lets +onlyGivenNames x; first
        | (refine Only.cut (p := { hbm := true, staging := true, stagTag := true, dirty := true }) (s := t) (x := x) (fun hx => ?_) ?_; clear_value x; revert x; intro y hy; rotate_left; unfold x; clear x)
        | (refine Only.cut1 (p := { hbm := true, staging := true, stagTag := true, dirty := true }) (s := t) (x := x) (fun hx => ?_) ?_; clear_value x; revert x; intro y hy; rotate_left; unfold x; clear x)
        | (refine Only.cut2 (p := { hbm := true, staging := true, stagTag := true, dirty := true }) (s := t) (x := x) (fun hx => ?_) ?_; clear_value x; revert x; intro y hy; rotate_left; unfold x; clear x)
        | (revert x; intro y))
    | simp (disch := with_unfolding_all (apply Parts.same; apply Eq.refl)) only [Only.set_iff]
    | with_reducible apply Only.foldl
    | with_reducible apply Only.foldl_fst
    | (refine Only.of_fst ‹_ = _› ?_)
    | (refine Only.of_snd ‹_ = _› ?_)
    | split
    | (intro)

theorem State.updEvents_only {p : Parts} {s t : State} {r : Nat} {x2 : UpdRun} {b : List Byte} {i : Nat} (hq : Parts.le { obs := true } p = true) (h : Only p s t) : Only p s (State.updEvents t r x2 b i) := by
  refine Only.step hq h ?_
  unfold State.updEvents
  repeat' first
    | with_reducible exact Only.refl _ _
    | ((with_reducible refine Parts.leq ?_); rfl)
    | with_reducible apply State.evCount_only
    | split

theorem State.updPut_only {p : Parts} {s t : State} {r : Nat} {b : List Byte} {x3 : UpdRun} {ws : List (Nat × Nat × List Byte)} (hq : Parts.le ((Parts.report.or Parts.memory).or { started := true, heldWr := true, arr := true, sump := true }) p = true) (h : Only p s t) : Only p s (State.updPut t r b x3 ws).1 := by
  refine Only.step hq h ?_
  unfold State.updPut
  try dsimp -zeta only
  repeat' first
    | with_reducible assumption
    | with_reducible exact Only.refl _ _
    | ((with_reducible refine Parts.leq ?_); rfl)
    | with_reducible apply Only.foldChecks
    | with_reducible apply State.awareWrites_only
    | with_reducible apply State.tagMismatch_only
    | (extract_lets +onlyGivenNames x; first
        | (refine Only.cut (p := ((Parts.report.or Parts.memory).or { started := true, heldWr := true, arr := true, sump := true })) (s := t) (x := x) (fun hx => ?_) ?_; clear_value x; revert x; intro y hy; rotate_left; unfold x; clear x)
        | (refine Only.cut1 (p := ((Parts.report.or Parts.memory).or { started := true, heldWr := true, arr := true, sump := true })) (s := t) (x := x) (fun hx => ?_) ?_; clear_value x; revert x; intro y hy; rotate_left; unfold x; clear x)
        | (refine Only.cut2 (p := ((Parts.report.or Parts.memory).or { started := true, heldWr := true, arr := true, sump := true })) (s := t) (x := x) (fun hx => ?_) ?_; clear_value x; revert x; intro y hy; rotate_left; unfold x; clear x)
        | (revert x; intro y))
    | simp (disch := with_unfolding_all (apply Parts.same; apply Eq.refl)) only [Only.set_iff]
    | with_reducible apply Only.foldl
    | with_reducible apply Only.foldl_fst
    | (refine Only.of_fst ‹_ = _› ?_)
    | (refine Only.of_snd ‹_ = _› ?_)
    | split
    | (intro)

theorem State.updDid_only {p : Parts} {s t : State} {r : Nat} {b : List Byte} {i : Nat} {x4 : UpdRun} {v : UpdRun} (hq : Parts.le (Parts.report.or { started := true, upd := true }) p = true) (h : Only p s t) : Only p s (State.updDid t r b i x4 v) := by
  refine Only.step hq h ?_
  unfold State.updDid
  try dsimp -zeta only
  repeat' first
    | with_reducible assumption
    | with_reducible exact Only.refl _ _
    | ((with_reducible refine Parts.leq ?_); rfl)
    | with_reducible apply State.updStarted_only
    | with_reducible apply State.fput_only
    | with_reducible apply State.setUpd_only
    | with_reducible apply State.updEvents_only
    | with_reducible apply State.bump_only
    | with_reducible apply State.report_only
    | (extract_lets +onlyGivenNames x; first
        | (refine Only.cut (p := (Parts.report.or { started := true, upd := true })) (s := t) (x := x) (fun hx => ?_) ?_; clear_value x; revert x; intro y hy; rotate_left; unfold x; clear x)
        | (refine Only.cut1 (p := (Parts.report.or { started := true, upd := true })) (s := t) (x := x) (fun hx => ?_) ?_; clear_value x; revert x; intro y hy; rotate_left; unfold x; clear x)
        | (refine Only.cut2 (p := (Parts.report.or { started := true, upd := true })) (s := t) (x := x) (fun hx => ?_) ?_; clear_value x; revert x; intro y hy; rotate_left; unfold x; clear x)
        | (revert x; intro y))
    | simp (disch := with_unfolding_all (apply Parts.same; apply Eq.refl)) only [Only.set_iff]
    | with_reducible apply Only.foldl
    | with_reducible apply Only.foldl_fst
    | (refine Only.of_fst ‹_ = _› ?_)
    | (refine Only.of_snd ‹_ = _› ?_)
    | split
    | (intro)

theorem State.updOne_only {p : Parts} {s t : State} {r : Nat} {b : List Byte} {x3 : UpdRun} {i : Nat} {bad : Bool} (hq : Parts.le ((Parts.report.or Parts.memory).or { drainAt := true, hostW := true, sq := true, started := true, pcie := true, heldWr := true, order := true, fab := true, tor := true, arr := true, sump := true, upd := true }) p = true) (h : Only p s t) : Only p s (State.updOne t r b x3 i bad).1 := by
  refine Only.step hq h ?_
  unfold State.updOne
  try dsimp -zeta only
  repeat' first
    | with_reducible assumption
    | with_reducible exact Only.refl _ _
    | ((with_reducible refine Parts.leq ?_); rfl)
    | with_reducible apply Only.foldChecks
    | with_reducible apply State.updCheck_only
    | with_reducible apply State.endUpd_only
    | with_reducible apply State.updMismatch_only
    | with_reducible apply State.updPut_only
    | with_reducible apply State.updDid_only
    | with_reducible apply State.sealDense_only
    | (extract_lets +onlyGivenNames x; first
        | (refine Only.cut (p := ((Parts.report.or Parts.memory).or { drainAt := true, hostW := true, sq := true, started := true, pcie := true, heldWr := true, order := true, fab := true, tor := true, arr := true, sump := true, upd := true })) (s := t) (x := x) (fun hx => ?_) ?_; clear_value x; revert x; intro y hy; rotate_left; unfold x; clear x)
        | (refine Only.cut1 (p := ((Parts.report.or Parts.memory).or { drainAt := true, hostW := true, sq := true, started := true, pcie := true, heldWr := true, order := true, fab := true, tor := true, arr := true, sump := true, upd := true })) (s := t) (x := x) (fun hx => ?_) ?_; clear_value x; revert x; intro y hy; rotate_left; unfold x; clear x)
        | (refine Only.cut2 (p := ((Parts.report.or Parts.memory).or { drainAt := true, hostW := true, sq := true, started := true, pcie := true, heldWr := true, order := true, fab := true, tor := true, arr := true, sump := true, upd := true })) (s := t) (x := x) (fun hx => ?_) ?_; clear_value x; revert x; intro y hy; rotate_left; unfold x; clear x)
        | (revert x; intro y))
    | simp (disch := with_unfolding_all (apply Parts.same; apply Eq.refl)) only [Only.set_iff]
    | with_reducible apply Only.foldl
    | with_reducible apply Only.foldl_fst
    | (refine Only.of_fst ‹_ = _› ?_)
    | (refine Only.of_snd ‹_ = _› ?_)
    | split
    | (intro)

theorem State.updSteps_only {p : Parts} {s t : State} {r : Nat} {b : List Byte} {x3 : Nat} {x4 : Option Nat} (hq : Parts.le ((Parts.report.or Parts.memory).or { drainAt := true, hostW := true, sq := true, started := true, pcie := true, heldWr := true, order := true, fab := true, tor := true, arr := true, sump := true, upd := true }) p = true) (h : Only p s t) : Only p s (State.updSteps t r b x3 x4) := by
  refine Only.step hq h ?_
  clear hq h
  induction x3 generalizing t x4 with
  | zero =>
    unfold State.updSteps
    try dsimp -zeta only
    repeat' first
      | with_reducible assumption
      | with_reducible exact Only.refl _ _
      | ((with_reducible refine Parts.leq ?_); rfl)
      | refine Only.trans ?_ (ih ..)
      | with_reducible apply State.updOne_only
      | (extract_lets +onlyGivenNames x; first
          | (refine Only.cut (p := ((Parts.report.or Parts.memory).or { drainAt := true, hostW := true, sq := true, started := true, pcie := true, heldWr := true, order := true, fab := true, tor := true, arr := true, sump := true, upd := true })) (s := t) (x := x) (fun hx => ?_) ?_; clear_value x; revert x; intro y hy; rotate_left; unfold x; clear x)
          | (refine Only.cut1 (p := ((Parts.report.or Parts.memory).or { drainAt := true, hostW := true, sq := true, started := true, pcie := true, heldWr := true, order := true, fab := true, tor := true, arr := true, sump := true, upd := true })) (s := t) (x := x) (fun hx => ?_) ?_; clear_value x; revert x; intro y hy; rotate_left; unfold x; clear x)
          | (refine Only.cut2 (p := ((Parts.report.or Parts.memory).or { drainAt := true, hostW := true, sq := true, started := true, pcie := true, heldWr := true, order := true, fab := true, tor := true, arr := true, sump := true, upd := true })) (s := t) (x := x) (fun hx => ?_) ?_; clear_value x; revert x; intro y hy; rotate_left; unfold x; clear x)
          | (revert x; intro y))
      | simp (disch := with_unfolding_all (apply Parts.same; apply Eq.refl)) only [Only.set_iff]
      | with_reducible apply Only.foldl
      | with_reducible apply Only.foldl_fst
      | (refine Only.of_fst ‹_ = _› ?_)
      | (refine Only.of_snd ‹_ = _› ?_)
      | split
      | (intro)
  | succ n ih =>
    unfold State.updSteps
    try dsimp -zeta only
    repeat' first
      | with_reducible assumption
      | with_reducible exact Only.refl _ _
      | ((with_reducible refine Parts.leq ?_); rfl)
      | refine Only.trans ?_ (ih ..)
      | with_reducible apply State.updOne_only
      | (extract_lets +onlyGivenNames x; first
          | (refine Only.cut (p := ((Parts.report.or Parts.memory).or { drainAt := true, hostW := true, sq := true, started := true, pcie := true, heldWr := true, order := true, fab := true, tor := true, arr := true, sump := true, upd := true })) (s := t) (x := x) (fun hx => ?_) ?_; clear_value x; revert x; intro y hy; rotate_left; unfold x; clear x)
          | (refine Only.cut1 (p := ((Parts.report.or Parts.memory).or { drainAt := true, hostW := true, sq := true, started := true, pcie := true, heldWr := true, order := true, fab := true, tor := true, arr := true, sump := true, upd := true })) (s := t) (x := x) (fun hx => ?_) ?_; clear_value x; revert x; intro y hy; rotate_left; unfold x; clear x)
          | (refine Only.cut2 (p := ((Parts.report.or Parts.memory).or { drainAt := true, hostW := true, sq := true, started := true, pcie := true, heldWr := true, order := true, fab := true, tor := true, arr := true, sump := true, upd := true })) (s := t) (x := x) (fun hx => ?_) ?_; clear_value x; revert x; intro y hy; rotate_left; unfold x; clear x)
          | (revert x; intro y))
      | simp (disch := with_unfolding_all (apply Parts.same; apply Eq.refl)) only [Only.set_iff]
      | with_reducible apply Only.foldl
      | with_reducible apply Only.foldl_fst
      | (refine Only.of_fst ‹_ = _› ?_)
      | (refine Only.of_snd ‹_ = _› ?_)
      | split
      | (intro)

theorem State.beginUpd_only {p : Parts} {s t : State} {r : Nat} {x2 : UpdRun} {b : List Byte} (hq : Parts.le ((Parts.report.or Parts.memory).or { started := true, heldWr := true, arr := true, sump := true, upd := true }) p = true) (h : Only p s t) : Only p s (State.beginUpd t r x2 b).1 := by
  refine Only.step hq h ?_
  unfold State.beginUpd
  try dsimp -zeta only
  repeat' first
    | with_reducible assumption
    | with_reducible exact Only.refl _ _
    | ((with_reducible refine Parts.leq ?_); rfl)
    | with_reducible apply State.awareChecks_only
    | with_reducible apply State.promote_only
    | with_reducible apply State.setUpd_only
    | (extract_lets +onlyGivenNames x; first
        | (refine Only.cut (p := ((Parts.report.or Parts.memory).or { started := true, heldWr := true, arr := true, sump := true, upd := true })) (s := t) (x := x) (fun hx => ?_) ?_; clear_value x; revert x; intro y hy; rotate_left; unfold x; clear x)
        | (refine Only.cut1 (p := ((Parts.report.or Parts.memory).or { started := true, heldWr := true, arr := true, sump := true, upd := true })) (s := t) (x := x) (fun hx => ?_) ?_; clear_value x; revert x; intro y hy; rotate_left; unfold x; clear x)
        | (refine Only.cut2 (p := ((Parts.report.or Parts.memory).or { started := true, heldWr := true, arr := true, sump := true, upd := true })) (s := t) (x := x) (fun hx => ?_) ?_; clear_value x; revert x; intro y hy; rotate_left; unfold x; clear x)
        | (revert x; intro y))
    | simp (disch := with_unfolding_all (apply Parts.same; apply Eq.refl)) only [Only.set_iff]
    | with_reducible apply Only.foldl
    | with_reducible apply Only.foldl_fst
    | (refine Only.of_fst ‹_ = _› ?_)
    | (refine Only.of_snd ‹_ = _› ?_)
    | split
    | (intro)

theorem updateStep_only {p : Parts} {s t : State} {d : Started} {count : Nat} {bad : Option Nat} (hq : Parts.le ((Parts.report.or Parts.memory).or { drainAt := true, hostW := true, sq := true, started := true, pcie := true, heldWr := true, order := true, fab := true, tor := true, arr := true, sump := true, upd := true }) p = true) (h : Only p s t) : Only p s (updateStep t d count bad) := by
  refine Only.step hq h ?_
  unfold updateStep
  try dsimp -zeta only
  repeat' first
    | with_reducible assumption
    | with_reducible exact Only.refl _ _
    | ((with_reducible refine Parts.leq ?_); rfl)
    | with_reducible apply State.beginUpd_only
    | with_reducible apply State.endUpd_only
    | with_reducible apply State.updSteps_only
    | (extract_lets +onlyGivenNames x; first
        | (refine Only.cut (p := ((Parts.report.or Parts.memory).or { drainAt := true, hostW := true, sq := true, started := true, pcie := true, heldWr := true, order := true, fab := true, tor := true, arr := true, sump := true, upd := true })) (s := t) (x := x) (fun hx => ?_) ?_; clear_value x; revert x; intro y hy; rotate_left; unfold x; clear x)
        | (refine Only.cut1 (p := ((Parts.report.or Parts.memory).or { drainAt := true, hostW := true, sq := true, started := true, pcie := true, heldWr := true, order := true, fab := true, tor := true, arr := true, sump := true, upd := true })) (s := t) (x := x) (fun hx => ?_) ?_; clear_value x; revert x; intro y hy; rotate_left; unfold x; clear x)
        | (refine Only.cut2 (p := ((Parts.report.or Parts.memory).or { drainAt := true, hostW := true, sq := true, started := true, pcie := true, heldWr := true, order := true, fab := true, tor := true, arr := true, sump := true, upd := true })) (s := t) (x := x) (fun hx => ?_) ?_; clear_value x; revert x; intro y hy; rotate_left; unfold x; clear x)
        | (revert x; intro y))
    | simp (disch := with_unfolding_all (apply Parts.same; apply Eq.refl)) only [Only.set_iff]
    | with_reducible apply Only.foldl
    | with_reducible apply Only.foldl_fst
    | (refine Only.of_fst ‹_ = _› ?_)
    | (refine Only.of_snd ‹_ = _› ?_)
    | split
    | (intro)

theorem execUpdateDense_only {s u : State} {n : Nat} {seq : Nat} {count : Nat} {bad : Option Nat} {ecc : EccFinds} (e : execUpdateDense n seq count bad ecc s = .next u) : Only ((Parts.report.or Parts.memory).or { drainAt := true, hostW := true, sq := true, started := true, pcie := true, heldWr := true, order := true, fab := true, tor := true, arr := true, sump := true, upd := true }) s u := by
  unfold execUpdateDense at e
  injection e with e
  subst e
  try dsimp -zeta only
  repeat' first
    | with_reducible assumption
    | with_reducible exact Only.refl _ _
    | ((with_reducible refine Parts.leq ?_); rfl)
    | with_reducible apply State.eccAll_only
    | with_reducible apply updateStep_only
    | (extract_lets +onlyGivenNames x; first
        | (refine Only.cut (p := ((Parts.report.or Parts.memory).or { drainAt := true, hostW := true, sq := true, started := true, pcie := true, heldWr := true, order := true, fab := true, tor := true, arr := true, sump := true, upd := true })) (s := s) (x := x) (fun hx => ?_) ?_; clear_value x; revert x; intro y hy; rotate_left; unfold x; clear x)
        | (refine Only.cut1 (p := ((Parts.report.or Parts.memory).or { drainAt := true, hostW := true, sq := true, started := true, pcie := true, heldWr := true, order := true, fab := true, tor := true, arr := true, sump := true, upd := true })) (s := s) (x := x) (fun hx => ?_) ?_; clear_value x; revert x; intro y hy; rotate_left; unfold x; clear x)
        | (refine Only.cut2 (p := ((Parts.report.or Parts.memory).or { drainAt := true, hostW := true, sq := true, started := true, pcie := true, heldWr := true, order := true, fab := true, tor := true, arr := true, sump := true, upd := true })) (s := s) (x := x) (fun hx => ?_) ?_; clear_value x; revert x; intro y hy; rotate_left; unfold x; clear x)
        | (revert x; intro y))
    | simp (disch := with_unfolding_all (apply Parts.same; apply Eq.refl)) only [Only.set_iff]
    | with_reducible apply Only.foldl
    | with_reducible apply Only.foldl_fst
    | (refine Only.of_fst ‹_ = _› ?_)
    | (refine Only.of_snd ‹_ = _› ?_)
    | split
    | (intro)

theorem execUpdateRows_only {s u : State} {n : Nat} {seq : Nat} {count : Nat} {bad : Option Nat} {ecc : EccFinds} (e : execUpdateRows n seq count bad ecc s = .next u) : Only ((Parts.report.or Parts.memory).or { drainAt := true, hostW := true, sq := true, started := true, pcie := true, heldWr := true, order := true, fab := true, tor := true, arr := true, sump := true, upd := true }) s u := by
  unfold execUpdateRows at e
  injection e with e
  subst e
  try dsimp -zeta only
  repeat' first
    | with_reducible assumption
    | with_reducible exact Only.refl _ _
    | ((with_reducible refine Parts.leq ?_); rfl)
    | with_reducible apply State.eccAll_only
    | with_reducible apply updateStep_only
    | (extract_lets +onlyGivenNames x; first
        | (refine Only.cut (p := ((Parts.report.or Parts.memory).or { drainAt := true, hostW := true, sq := true, started := true, pcie := true, heldWr := true, order := true, fab := true, tor := true, arr := true, sump := true, upd := true })) (s := s) (x := x) (fun hx => ?_) ?_; clear_value x; revert x; intro y hy; rotate_left; unfold x; clear x)
        | (refine Only.cut1 (p := ((Parts.report.or Parts.memory).or { drainAt := true, hostW := true, sq := true, started := true, pcie := true, heldWr := true, order := true, fab := true, tor := true, arr := true, sump := true, upd := true })) (s := s) (x := x) (fun hx => ?_) ?_; clear_value x; revert x; intro y hy; rotate_left; unfold x; clear x)
        | (refine Only.cut2 (p := ((Parts.report.or Parts.memory).or { drainAt := true, hostW := true, sq := true, started := true, pcie := true, heldWr := true, order := true, fab := true, tor := true, arr := true, sump := true, upd := true })) (s := s) (x := x) (fun hx => ?_) ?_; clear_value x; revert x; intro y hy; rotate_left; unfold x; clear x)
        | (revert x; intro y))
    | simp (disch := with_unfolding_all (apply Parts.same; apply Eq.refl)) only [Only.set_iff]
    | with_reducible apply Only.foldl
    | with_reducible apply Only.foldl_fst
    | (refine Only.of_fst ‹_ = _› ?_)
    | (refine Only.of_snd ‹_ = _› ?_)
    | split
    | (intro)

theorem State.setcoefOne_only {p : Parts} {s t : State} {c : Ctx} {b : List Byte} {r : Nat} (hq : Parts.le ((Parts.report.or Parts.memory).or { started := true, heldWr := true, arr := true, sump := true }) p = true) (h : Only p s t) : Only p s (State.setcoefOne t c b r).1 := by
  refine Only.step hq h ?_
  unfold State.setcoefOne
  try dsimp -zeta only
  repeat' first
    | with_reducible assumption
    | with_reducible exact Only.refl _ _
    | ((with_reducible refine Parts.leq ?_); rfl)
    | with_reducible apply State.awareChecks_only
    | with_reducible apply State.awareWrites_only
    | (extract_lets +onlyGivenNames x; first
        | (refine Only.cut (p := ((Parts.report.or Parts.memory).or { started := true, heldWr := true, arr := true, sump := true })) (s := t) (x := x) (fun hx => ?_) ?_; clear_value x; revert x; intro y hy; rotate_left; unfold x; clear x)
        | (refine Only.cut1 (p := ((Parts.report.or Parts.memory).or { started := true, heldWr := true, arr := true, sump := true })) (s := t) (x := x) (fun hx => ?_) ?_; clear_value x; revert x; intro y hy; rotate_left; unfold x; clear x)
        | (refine Only.cut2 (p := ((Parts.report.or Parts.memory).or { started := true, heldWr := true, arr := true, sump := true })) (s := t) (x := x) (fun hx => ?_) ?_; clear_value x; revert x; intro y hy; rotate_left; unfold x; clear x)
        | (revert x; intro y))
    | simp (disch := with_unfolding_all (apply Parts.same; apply Eq.refl)) only [Only.set_iff]
    | with_reducible apply Only.foldl
    | with_reducible apply Only.foldl_fst
    | (refine Only.of_fst ‹_ = _› ?_)
    | (refine Only.of_snd ‹_ = _› ?_)
    | split
    | (intro)

theorem State.setcoefAll_only {p : Parts} {s t : State} {c : Ctx} {b : List Byte} {x3 : List Nat} {x4 : List (Nat × Nat)} (hq : Parts.le ((Parts.report.or Parts.memory).or { started := true, heldWr := true, arr := true, sump := true }) p = true) (h : Only p s t) : Only p s (State.setcoefAll t c b x3 x4).1 := by
  refine Only.step hq h ?_
  clear hq h
  induction x3 generalizing t x4 with
  | nil =>
    unfold State.setcoefAll
    try dsimp -zeta only
    repeat' first
      | with_reducible assumption
      | with_reducible exact Only.refl _ _
      | ((with_reducible refine Parts.leq ?_); rfl)
      | refine Only.trans ?_ (ih ..)
      | with_reducible apply State.setcoefOne_only
      | (extract_lets +onlyGivenNames x; first
          | (refine Only.cut (p := ((Parts.report.or Parts.memory).or { started := true, heldWr := true, arr := true, sump := true })) (s := t) (x := x) (fun hx => ?_) ?_; clear_value x; revert x; intro y hy; rotate_left; unfold x; clear x)
          | (refine Only.cut1 (p := ((Parts.report.or Parts.memory).or { started := true, heldWr := true, arr := true, sump := true })) (s := t) (x := x) (fun hx => ?_) ?_; clear_value x; revert x; intro y hy; rotate_left; unfold x; clear x)
          | (refine Only.cut2 (p := ((Parts.report.or Parts.memory).or { started := true, heldWr := true, arr := true, sump := true })) (s := t) (x := x) (fun hx => ?_) ?_; clear_value x; revert x; intro y hy; rotate_left; unfold x; clear x)
          | (revert x; intro y))
      | simp (disch := with_unfolding_all (apply Parts.same; apply Eq.refl)) only [Only.set_iff]
      | with_reducible apply Only.foldl
      | with_reducible apply Only.foldl_fst
      | (refine Only.of_fst ‹_ = _› ?_)
      | (refine Only.of_snd ‹_ = _› ?_)
      | split
      | (intro)
  | cons a l ih =>
    unfold State.setcoefAll
    try dsimp -zeta only
    repeat' first
      | with_reducible assumption
      | with_reducible exact Only.refl _ _
      | ((with_reducible refine Parts.leq ?_); rfl)
      | refine Only.trans ?_ (ih ..)
      | with_reducible apply State.setcoefOne_only
      | (extract_lets +onlyGivenNames x; first
          | (refine Only.cut (p := ((Parts.report.or Parts.memory).or { started := true, heldWr := true, arr := true, sump := true })) (s := t) (x := x) (fun hx => ?_) ?_; clear_value x; revert x; intro y hy; rotate_left; unfold x; clear x)
          | (refine Only.cut1 (p := ((Parts.report.or Parts.memory).or { started := true, heldWr := true, arr := true, sump := true })) (s := t) (x := x) (fun hx => ?_) ?_; clear_value x; revert x; intro y hy; rotate_left; unfold x; clear x)
          | (refine Only.cut2 (p := ((Parts.report.or Parts.memory).or { started := true, heldWr := true, arr := true, sump := true })) (s := t) (x := x) (fun hx => ?_) ?_; clear_value x; revert x; intro y hy; rotate_left; unfold x; clear x)
          | (revert x; intro y))
      | simp (disch := with_unfolding_all (apply Parts.same; apply Eq.refl)) only [Only.set_iff]
      | with_reducible apply Only.foldl
      | with_reducible apply Only.foldl_fst
      | (refine Only.of_fst ‹_ = _› ?_)
      | (refine Only.of_snd ‹_ = _› ?_)
      | split
      | (intro)

theorem setcoef_only {p : Parts} {s t : State} {d : Started} (hq : Parts.le ((Parts.report.or Parts.memory).or { started := true, heldWr := true, arr := true, sump := true, upd := true }) p = true) (h : Only p s t) : Only p s (setcoef t d) := by
  refine Only.step hq h ?_
  unfold setcoef
  try dsimp -zeta only
  repeat' first
    | with_reducible assumption
    | with_reducible exact Only.refl _ _
    | ((with_reducible refine Parts.leq ?_); rfl)
    | with_reducible apply State.awareCheck_only
    | with_reducible apply State.endUpd_only
    | with_reducible apply State.setcoefAll_only
    | (extract_lets +onlyGivenNames x; first
        | (refine Only.cut (p := ((Parts.report.or Parts.memory).or { started := true, heldWr := true, arr := true, sump := true, upd := true })) (s := t) (x := x) (fun hx => ?_) ?_; clear_value x; revert x; intro y hy; rotate_left; unfold x; clear x)
        | (refine Only.cut1 (p := ((Parts.report.or Parts.memory).or { started := true, heldWr := true, arr := true, sump := true, upd := true })) (s := t) (x := x) (fun hx => ?_) ?_; clear_value x; revert x; intro y hy; rotate_left; unfold x; clear x)
        | (refine Only.cut2 (p := ((Parts.report.or Parts.memory).or { started := true, heldWr := true, arr := true, sump := true, upd := true })) (s := t) (x := x) (fun hx => ?_) ?_; clear_value x; revert x; intro y hy; rotate_left; unfold x; clear x)
        | (revert x; intro y))
    | simp (disch := with_unfolding_all (apply Parts.same; apply Eq.refl)) only [Only.set_iff]
    | with_reducible apply Only.foldl
    | with_reducible apply Only.foldl_fst
    | (refine Only.of_fst ‹_ = _› ?_)
    | (refine Only.of_snd ‹_ = _› ?_)
    | split
    | (intro)

theorem execSetcoef_only {s u : State} {n : Nat} {seq : Nat} {ecc : EccFinds} (e : execSetcoef n seq ecc s = .next u) : Only ((Parts.report.or Parts.memory).or { started := true, heldWr := true, arr := true, sump := true, upd := true }) s u := by
  unfold execSetcoef at e
  injection e with e
  subst e
  try dsimp -zeta only
  repeat' first
    | with_reducible assumption
    | with_reducible exact Only.refl _ _
    | ((with_reducible refine Parts.leq ?_); rfl)
    | with_reducible apply State.eccAll_only
    | with_reducible apply setcoef_only
    | (extract_lets +onlyGivenNames x; first
        | (refine Only.cut (p := ((Parts.report.or Parts.memory).or { started := true, heldWr := true, arr := true, sump := true, upd := true })) (s := s) (x := x) (fun hx => ?_) ?_; clear_value x; revert x; intro y hy; rotate_left; unfold x; clear x)
        | (refine Only.cut1 (p := ((Parts.report.or Parts.memory).or { started := true, heldWr := true, arr := true, sump := true, upd := true })) (s := s) (x := x) (fun hx => ?_) ?_; clear_value x; revert x; intro y hy; rotate_left; unfold x; clear x)
        | (refine Only.cut2 (p := ((Parts.report.or Parts.memory).or { started := true, heldWr := true, arr := true, sump := true, upd := true })) (s := s) (x := x) (fun hx => ?_) ?_; clear_value x; revert x; intro y hy; rotate_left; unfold x; clear x)
        | (revert x; intro y))
    | simp (disch := with_unfolding_all (apply Parts.same; apply Eq.refl)) only [Only.set_iff]
    | with_reducible apply Only.foldl
    | with_reducible apply Only.foldl_fst
    | (refine Only.of_fst ‹_ = _› ?_)
    | (refine Only.of_snd ‹_ = _› ?_)
    | split
    | (intro)

theorem veTakeover_only {p : Parts} {s t : State} {r : Nat} (hq : Parts.le { regs := true, started := true, upd := true } p = true) (h : Only p s t) : Only p s (veTakeover t r) := by
  refine Only.step hq h ?_
  unfold veTakeover
  repeat' first
    | with_reducible exact Only.refl _ _
    | ((with_reducible refine Parts.leq ?_); rfl)
    | with_reducible apply State.setUpd_only
    | with_reducible apply State.updStarted_only
    | with_reducible apply State.bump_only
    | with_reducible apply State.fput_only
    | with_reducible apply State.endUpd_only
    | split

theorem execVeTakeover_only {s u : State} {r : Nat} (e : execVeTakeover r s = .next u) : Only { regs := true, started := true, upd := true } s u := by
  unfold execVeTakeover at e
  injection e with e
  subst e
  repeat' first
    | with_reducible exact Only.refl _ _
    | ((with_reducible refine Parts.leq ?_); rfl)
    | with_reducible apply veTakeover_only
    | split

end Sys2Proof.Machine
end

