-- ==== Sys2Proof/Laws/OnlyArray.lean ====
section
/-!
SUPPORT. Which parts of the state the operations of Machine/Array.lean may change (Safety.lean).
-/
namespace Sys2Proof.Machine

open Sys2Proof

theorem State.arrEvent_only {p : Parts} {s t : State} {b : List Byte} {die : Nat} {x3 : Nat × Nat} (hq : Parts.le { obs := true, arr := true } p = true) (h : Only p s t) : Only p s (State.arrEvent t b die x3) := by
  refine Only.step hq h ?_
  unfold State.arrEvent
  repeat' first
    | with_reducible exact Only.refl _ _
    | ((with_reducible refine Parts.leq ?_); rfl)
    | with_reducible apply State.evCount_only
    | simp (disch := with_unfolding_all (apply Parts.same; apply Eq.refl)) only [Only.set_iff]

theorem State.arrEvents_only {p : Parts} {s t : State} {b : List Byte} {die : Nat} {es : List (Nat × Nat)} (hq : Parts.le { obs := true, arr := true } p = true) (h : Only p s t) : Only p s (State.arrEvents t b die es) := by
  refine Only.step hq h ?_
  unfold State.arrEvents
  repeat' first
    | with_reducible exact Only.refl _ _
    | ((with_reducible refine Parts.leq ?_); rfl)
    | with_reducible apply State.arrEvent_only
    | with_reducible apply Only.foldl
    | (intro)

theorem State.takeBack_only {p : Parts} {s t : State} {die : Nat} {c : Nat} {n : Nat} (hq : Parts.le { obs := true } p = true) (h : Only p s t) : Only p s (State.takeBack t die c n) := by
  refine Only.step hq h ?_
  unfold State.takeBack
  repeat' first
    | with_reducible exact Only.refl _ _
    | ((with_reducible refine Parts.leq ?_); rfl)
    | simp (disch := with_unfolding_all (apply Parts.same; apply Eq.refl)) only [Only.set_iff]

theorem State.uncount_only {p : Parts} {s t : State} {b : List Byte} (hq : Parts.le { obs := true, arr := true } p = true) (h : Only p s t) : Only p s (State.uncount t b) := by
  refine Only.step hq h ?_
  unfold State.uncount
  repeat' first
    | with_reducible assumption
    | with_reducible exact Only.refl _ _
    | ((with_reducible refine Parts.leq ?_); rfl)
    | with_reducible apply State.takeBack_only
    | simp (disch := with_unfolding_all (apply Parts.same; apply Eq.refl)) only [Only.set_iff]
    | with_reducible apply Only.foldl
    | (intro)

theorem State.recomputed_only {p : Parts} {s t : State} {b : List Byte} {x2 : List Byte} {num : Nat} {cell : Nat} (hq : Parts.le { obs := true } p = true) (h : Only p s t) : Only p s (State.recomputed t b x2 num cell) := by
  refine Only.step hq h ?_
  unfold State.recomputed
  repeat' first
    | with_reducible exact Only.refl _ _
    | ((with_reducible refine Parts.leq ?_); rfl)
    | with_reducible apply State.evCount_only
    | with_reducible apply Only.foldl
    | (intro)

theorem State.clearFences_only {p : Parts} {s t : State}  (hq : Parts.le { regs := true, arr := true } p = true) (h : Only p s t) : Only p s (State.clearFences t) := by
  refine Only.step hq h ?_
  unfold State.clearFences
  repeat' first
    | with_reducible exact Only.refl _ _
    | ((with_reducible refine Parts.leq ?_); rfl)
    | with_reducible apply State.setReg_only
    | simp (disch := with_unfolding_all (apply Parts.same; apply Eq.refl)) only [Only.set_iff]
    | with_reducible apply Only.foldl
    | (intro)

theorem State.startArray_only {p : Parts} {s t : State} {d : Started} (hq : Parts.le ((Parts.report.or Parts.memory).or { started := true, heldWr := true, order := true, fab := true, tor := true, freeCtr := true, arr := true, pwr := true }) p = true) (h : Only p s t) : Only p s (State.startArray t d) := by
  refine Only.step hq h ?_
  unfold State.startArray
  try dsimp -zeta only
  repeat' first
    | with_reducible assumption
    | with_reducible exact Only.refl _ _
    | ((with_reducible refine Parts.leq ?_); rfl)
    | with_reducible apply State.clockCells_only
    | with_reducible apply State.applyTrace_only
    | with_reducible apply State.clearFences_only
    | with_reducible apply State.fput_only
    | with_reducible apply State.setReg_only
    | with_reducible apply State.updStarted_only
    | with_reducible apply State.traceStart_only
    | (extract_lets +onlyGivenNames x; first
        | (refine Only.cut (p := ((Parts.report.or Parts.memory).or { started := true, heldWr := true, order := true, fab := true, tor := true, freeCtr := true, arr := true, pwr := true })) (s := t) (x := x) (fun hx => ?_) ?_; clear_value x; revert x; intro y hy; rotate_left; unfold x; clear x)
        | (refine Only.cut1 (p := ((Parts.report.or Parts.memory).or { started := true, heldWr := true, order := true, fab := true, tor := true, freeCtr := true, arr := true, pwr := true })) (s := t) (x := x) (fun hx => ?_) ?_; clear_value x; revert x; intro y hy; rotate_left; unfold x; clear x)
        | (refine Only.cut2 (p := ((Parts.report.or Parts.memory).or { started := true, heldWr := true, order := true, fab := true, tor := true, freeCtr := true, arr := true, pwr := true })) (s := t) (x := x) (fun hx => ?_) ?_; clear_value x; revert x; intro y hy; rotate_left; unfold x; clear x)
        | (revert x; intro y))
    | simp (disch := with_unfolding_all (apply Parts.same; apply Eq.refl)) only [Only.set_iff]
    | with_reducible apply Only.foldl
    | with_reducible apply Only.foldl_fst
    | (refine Only.of_fst ‹_ = _› ?_)
    | (refine Only.of_snd ‹_ = _› ?_)
    | split
    | (intro)

theorem State.setRun_only {p : Parts} {s t : State} {r : ArrRun} (hq : Parts.le { regs := true, arr := true } p = true) (h : Only p s t) : Only p s (State.setRun t r) := by
  refine Only.step hq h ?_
  unfold State.setRun
  repeat' first
    | with_reducible exact Only.refl _ _
    | ((with_reducible refine Parts.leq ?_); rfl)
    | with_reducible apply State.setReg_only
    | simp (disch := with_unfolding_all (apply Parts.same; apply Eq.refl)) only [Only.set_iff]

theorem State.failRun_only {p : Parts} {s t : State} {r : ArrRun} {cls : Nat} {cell : Nat} (hq : Parts.le { regs := true, started := true, arr := true } p = true) (h : Only p s t) : Only p s (State.failRun t r cls cell) := by
  refine Only.step hq h ?_
  unfold State.failRun
  repeat' first
    | with_reducible exact Only.refl _ _
    | ((with_reducible refine Parts.leq ?_); rfl)
    | with_reducible apply State.endRun_only
    | with_reducible apply State.setDone_only

theorem State.finishRun_only {p : Parts} {s t : State} {r : ArrRun} {d : Started} (hq : Parts.le (Parts.report.or { started := true, arr := true }) p = true) (h : Only p s t) : Only p s (State.finishRun t r d) := by
  refine Only.step hq h ?_
  unfold State.finishRun
  repeat' first
    | with_reducible exact Only.refl _ _
    | ((with_reducible refine Parts.leq ?_); rfl)
    | with_reducible apply State.report_only
    | with_reducible apply State.bump_only
    | with_reducible apply State.endRun_only
    | with_reducible apply State.setDone_only
    | split

theorem State.startAudit_only {p : Parts} {s t : State} {r : ArrRun} {d : Started} {tiles : List Tile} {pick : Nat} (hq : Parts.le { obs := true, arr := true } p = true) (h : Only p s t) : Only p s (State.startAudit t r d tiles pick) := by
  refine Only.step hq h ?_
  unfold State.startAudit
  repeat' first
    | with_reducible exact Only.refl _ _
    | ((with_reducible refine Parts.leq ?_); rfl)
    | with_reducible apply State.recomputed_only
    | simp (disch := with_unfolding_all (apply Parts.same; apply Eq.refl)) only [Only.set_iff]
    | split

theorem State.beginRun_only {p : Parts} {s t : State} {r : ArrRun} {d : Started} {pick : Nat} (hq : Parts.le (Parts.report.or { poison := true, started := true, arr := true }) p = true) (h : Only p s t) : Only p s (State.beginRun t r d pick) := by
  refine Only.step hq h ?_
  unfold State.beginRun
  try dsimp -zeta only
  repeat' first
    | with_reducible assumption
    | with_reducible exact Only.refl _ _
    | ((with_reducible refine Parts.leq ?_); rfl)
    | with_reducible apply State.awareChecks_only
    | with_reducible apply State.failRun_only
    | with_reducible apply State.startAudit_only
    | with_reducible apply State.setRun_only
    | with_reducible apply State.finishRun_only
    | (extract_lets +onlyGivenNames x; first
        | (refine Only.cut (p := (Parts.report.or { poison := true, started := true, arr := true })) (s := t) (x := x) (fun hx => ?_) ?_; clear_value x; revert x; intro y hy; rotate_left; unfold x; clear x)
        | (refine Only.cut1 (p := (Parts.report.or { poison := true, started := true, arr := true })) (s := t) (x := x) (fun hx => ?_) ?_; clear_value x; revert x; intro y hy; rotate_left; unfold x; clear x)
        | (refine Only.cut2 (p := (Parts.report.or { poison := true, started := true, arr := true })) (s := t) (x := x) (fun hx => ?_) ?_; clear_value x; revert x; intro y hy; rotate_left; unfold x; clear x)
        | (revert x; intro y))
    | simp (disch := with_unfolding_all (apply Parts.same; apply Eq.refl)) only [Only.set_iff]
    | with_reducible apply Only.foldl
    | with_reducible apply Only.foldl_fst
    | (refine Only.of_fst ‹_ = _› ?_)
    | (refine Only.of_snd ‹_ = _› ?_)
    | split
    | (intro)

theorem execSweep_only {s u : State} {n : Nat} {seq : Nat} {pick : Nat} {ecc : EccFinds} (e : execSweep n seq pick ecc s = .next u) : Only (Parts.report.or { poison := true, started := true, arr := true }) s u := by
  unfold execSweep at e
  injection e with e
  subst e
  try dsimp -zeta only
  repeat' first
    | with_reducible assumption
    | with_reducible exact Only.refl _ _
    | ((with_reducible refine Parts.leq ?_); rfl)
    | with_reducible apply State.eccAll_only
    | with_reducible apply State.beginRun_only
    | (extract_lets +onlyGivenNames x; first
        | (refine Only.cut (p := (Parts.report.or { poison := true, started := true, arr := true })) (s := s) (x := x) (fun hx => ?_) ?_; clear_value x; revert x; intro y hy; rotate_left; unfold x; clear x)
        | (refine Only.cut1 (p := (Parts.report.or { poison := true, started := true, arr := true })) (s := s) (x := x) (fun hx => ?_) ?_; clear_value x; revert x; intro y hy; rotate_left; unfold x; clear x)
        | (refine Only.cut2 (p := (Parts.report.or { poison := true, started := true, arr := true })) (s := s) (x := x) (fun hx => ?_) ?_; clear_value x; revert x; intro y hy; rotate_left; unfold x; clear x)
        | (revert x; intro y))
    | simp (disch := with_unfolding_all (apply Parts.same; apply Eq.refl)) only [Only.set_iff]
    | with_reducible apply Only.foldl
    | with_reducible apply Only.foldl_fst
    | (refine Only.of_fst ‹_ = _› ?_)
    | (refine Only.of_snd ‹_ = _› ?_)
    | split
    | (intro)

theorem execInteract_only {s u : State} {n : Nat} {seq : Nat} {pick : Nat} {ecc : EccFinds} (e : execInteract n seq pick ecc s = .next u) : Only (Parts.report.or { poison := true, started := true, arr := true }) s u := by
  unfold execInteract at e
  injection e with e
  subst e
  try dsimp -zeta only
  repeat' first
    | with_reducible assumption
    | with_reducible exact Only.refl _ _
    | ((with_reducible refine Parts.leq ?_); rfl)
    | with_reducible apply State.eccAll_only
    | with_reducible apply State.beginRun_only
    | (extract_lets +onlyGivenNames x; first
        | (refine Only.cut (p := (Parts.report.or { poison := true, started := true, arr := true })) (s := s) (x := x) (fun hx => ?_) ?_; clear_value x; revert x; intro y hy; rotate_left; unfold x; clear x)
        | (refine Only.cut1 (p := (Parts.report.or { poison := true, started := true, arr := true })) (s := s) (x := x) (fun hx => ?_) ?_; clear_value x; revert x; intro y hy; rotate_left; unfold x; clear x)
        | (refine Only.cut2 (p := (Parts.report.or { poison := true, started := true, arr := true })) (s := s) (x := x) (fun hx => ?_) ?_; clear_value x; revert x; intro y hy; rotate_left; unfold x; clear x)
        | (revert x; intro y))
    | simp (disch := with_unfolding_all (apply Parts.same; apply Eq.refl)) only [Only.set_iff]
    | with_reducible apply Only.foldl
    | with_reducible apply Only.foldl_fst
    | (refine Only.of_fst ‹_ = _› ?_)
    | (refine Only.of_snd ‹_ = _› ?_)
    | split
    | (intro)

theorem State.loseCells_only {p : Parts} {s t : State} {gone : List Nat} {cls : Nat} (hq : Parts.le { regs := true, started := true, arr := true } p = true) (h : Only p s t) : Only p s (State.loseCells t gone cls) := by
  refine Only.step hq h ?_
  unfold State.loseCells
  repeat' first
    | with_reducible exact Only.refl _ _
    | ((with_reducible refine Parts.leq ?_); rfl)
    | with_reducible apply State.setRun_only
    | with_reducible apply State.failRun_only
    | split

theorem State.fenceCell_only {p : Parts} {s t : State} {cell : Nat} {cls : Nat} (hq : Parts.le { regs := true, started := true, arr := true } p = true) (h : Only p s t) : Only p s (State.fenceCell t cell cls) := by
  refine Only.step hq h ?_
  unfold State.fenceCell
  repeat' first
    | with_reducible exact Only.refl _ _
    | ((with_reducible refine Parts.leq ?_); rfl)
    | with_reducible apply State.loseCells_only
    | with_reducible apply State.putBit_only

theorem State.fenceBlock_only {p : Parts} {s t : State} {b : Nat} {cls : Nat} (hq : Parts.le { regs := true, started := true, arr := true } p = true) (h : Only p s t) : Only p s (State.fenceBlock t b cls) := by
  refine Only.step hq h ?_
  unfold State.fenceBlock
  repeat' first
    | with_reducible exact Only.refl _ _
    | ((with_reducible refine Parts.leq ?_); rfl)
    | with_reducible apply State.loseCells_only
    | with_reducible apply State.putBit_only

theorem State.chunkStep_only {p : Parts} {s t : State} {r : ArrRun} {x : TileP} {cell : Nat} (hq : Parts.le { freeCtr := true } p = true) (h : Only p s t) :
    Only p s (State.chunkStep t r x cell).2.2 :=
  List.foldlRecOn (motive := fun (q : ArrRun × List (Nat × Nat) × State) => Only p s q.2.2) _ _ h (fun q hk a _ => Only.ite (State.drew_only hq hk) hk)

theorem State.storeError_only {p : Parts} {s t : State} {r : ArrRun} {d : Started} {cell : Nat} {num : Nat} (hq : Parts.le (Parts.report.or { started := true, arr := true }) p = true) (h : Only p s t) : Only p s (State.storeError t r d cell num) := by
  refine Only.step hq h ?_
  unfold State.storeError
  repeat' first
    | with_reducible exact Only.refl _ _
    | ((with_reducible refine Parts.leq ?_); rfl)
    | with_reducible apply State.report_only
    | with_reducible apply State.setRun_only
    | with_reducible apply State.failRun_only
    | split

theorem execChunkApply_only {s u : State} {cell : Nat} {bad : Option Nat} {corr : Nat} {ecc : EccFinds} (e : execChunkApply cell bad corr ecc s = .next u) : Only (Parts.report.or { poison := true, started := true, freeCtr := true, arr := true }) s u := by
  unfold execChunkApply at e
  injection e with e
  subst e
  try dsimp -zeta only
  repeat' first
    | with_reducible assumption
    | with_reducible exact Only.refl _ _
    | ((with_reducible refine Parts.leq ?_); rfl)
    | with_reducible apply State.eccAll_only
    | with_reducible apply State.chunkStep_only
    | with_reducible apply State.corrected_only
    | with_reducible apply State.arrEvents_only
    | with_reducible apply State.setRun_only
    | with_reducible apply State.storeError_only
    | (extract_lets +onlyGivenNames x; first
        | (refine Only.cut (p := (Parts.report.or { poison := true, started := true, freeCtr := true, arr := true })) (s := s) (x := x) (fun hx => ?_) ?_; clear_value x; revert x; intro y hy; rotate_left; unfold x; clear x)
        | (refine Only.cut1 (p := (Parts.report.or { poison := true, started := true, freeCtr := true, arr := true })) (s := s) (x := x) (fun hx => ?_) ?_; clear_value x; revert x; intro y hy; rotate_left; unfold x; clear x)
        | (refine Only.cut2 (p := (Parts.report.or { poison := true, started := true, freeCtr := true, arr := true })) (s := s) (x := x) (fun hx => ?_) ?_; clear_value x; revert x; intro y hy; rotate_left; unfold x; clear x)
        | (revert x; intro y))
    | simp (disch := with_unfolding_all (apply Parts.same; apply Eq.refl)) only [Only.set_iff]
    | with_reducible apply Only.foldl
    | with_reducible apply Only.foldl_fst
    | (refine Only.of_fst ‹_ = _› ?_)
    | (refine Only.of_snd ‹_ = _› ?_)
    | split
    | (intro)

theorem State.judgePages_only {p : Parts} {s t : State} {c : Ctx} {x2 : TicketSt} {outs : List (Nat × Nat × Nat)} {pages : List Nat} (hq : Parts.le Parts.report p = true) (h : Only p s t) : Only p s (State.judgePages t c x2 outs pages).1 := by
  refine Only.step hq h ?_
  unfold State.judgePages
  repeat' first
    | with_reducible assumption
    | with_reducible exact Only.refl _ _
    | ((with_reducible refine Parts.leq ?_); rfl)
    | with_reducible apply State.tagMismatch_only
    | with_reducible apply Only.foldl_fst
    | split
    | (intro)

theorem State.writeOut_only {p : Parts} {s t : State} {c : Ctx} {x2 : TicketSt} {outs : List (Nat × Nat × Nat)} {tile : Nat} {ws : List (Nat × List Byte)} (hq : Parts.le ((Parts.report.or Parts.memory).or { started := true, pages := true, heldWr := true, arr := true, sump := true }) p = true) (h : Only p s t) : Only p s (State.writeOut t c x2 outs tile ws).1 := by
  refine Only.step hq h ?_
  unfold State.writeOut
  try dsimp -zeta only
  repeat' first
    | with_reducible assumption
    | with_reducible exact Only.refl _ _
    | ((with_reducible refine Parts.leq ?_); rfl)
    | with_reducible apply State.judgePages_only
    | with_reducible apply State.engWrite_only
    | with_reducible apply State.makePending_only
    | with_reducible apply State.updTicket_only
    | (extract_lets +onlyGivenNames x; first
        | (refine Only.cut (p := ((Parts.report.or Parts.memory).or { started := true, pages := true, heldWr := true, arr := true, sump := true })) (s := t) (x := x) (fun hx => ?_) ?_; clear_value x; revert x; intro y hy; rotate_left; unfold x; clear x)
        | (refine Only.cut1 (p := ((Parts.report.or Parts.memory).or { started := true, pages := true, heldWr := true, arr := true, sump := true })) (s := t) (x := x) (fun hx => ?_) ?_; clear_value x; revert x; intro y hy; rotate_left; unfold x; clear x)
        | (refine Only.cut2 (p := ((Parts.report.or Parts.memory).or { started := true, pages := true, heldWr := true, arr := true, sump := true })) (s := t) (x := x) (fun hx => ?_) ?_; clear_value x; revert x; intro y hy; rotate_left; unfold x; clear x)
        | (revert x; intro y))
    | simp (disch := with_unfolding_all (apply Parts.same; apply Eq.refl)) only [Only.set_iff]
    | with_reducible apply Only.foldl
    | with_reducible apply Only.foldl_fst
    | (refine Only.of_fst ‹_ = _› ?_)
    | (refine Only.of_snd ‹_ = _› ?_)
    | split
    | (intro)

theorem State.foldStep_only {p : Parts} {s t : State} {r : ArrRun} {d : Started} {tk : TicketSt} {x4 : Tile} {fault : List (Nat × Nat)} (hq : Parts.le ((Parts.report.or Parts.memory).or { started := true, pages := true, heldWr := true, arr := true, sump := true }) p = true) (h : Only p s t) : Only p s (State.foldStep t r d tk x4 fault) := by
  refine Only.step hq h ?_
  unfold State.foldStep
  try dsimp -zeta only
  repeat' first
    | with_reducible assumption
    | with_reducible exact Only.refl _ _
    | ((with_reducible refine Parts.leq ?_); rfl)
    | with_reducible apply State.writeOut_only
    | with_reducible apply State.updTicket_only
    | with_reducible apply State.arrEvents_only
    | with_reducible apply State.setRun_only
    | with_reducible apply State.finishRun_only
    | (extract_lets +onlyGivenNames x; first
        | (refine Only.cut (p := ((Parts.report.or Parts.memory).or { started := true, pages := true, heldWr := true, arr := true, sump := true })) (s := t) (x := x) (fun hx => ?_) ?_; clear_value x; revert x; intro y hy; rotate_left; unfold x; clear x)
        | (refine Only.cut1 (p := ((Parts.report.or Parts.memory).or { started := true, pages := true, heldWr := true, arr := true, sump := true })) (s := t) (x := x) (fun hx => ?_) ?_; clear_value x; revert x; intro y hy; rotate_left; unfold x; clear x)
        | (refine Only.cut2 (p := ((Parts.report.or Parts.memory).or { started := true, pages := true, heldWr := true, arr := true, sump := true })) (s := t) (x := x) (fun hx => ?_) ?_; clear_value x; revert x; intro y hy; rotate_left; unfold x; clear x)
        | (revert x; intro y))
    | with_reducible apply Only.foldl
    | with_reducible apply Only.foldl_fst
    | (refine Only.of_fst ‹_ = _› ?_)
    | (refine Only.of_snd ‹_ = _› ?_)
    | split
    | (intro)
    | refine Only.set (Parts.Agree.rest (by constructor; rfl; all_goals (intro k; first | exact absurd k (by decide) | rfl))) ?_

theorem execTileFold_only {s u : State} {cell : Nat} {tile : Nat} {fault : List (Nat × Nat)} {bad : Bool} {corr : Nat} {ecc : EccFinds} (e : execTileFold cell tile fault bad corr ecc s = .next u) : Only ((Parts.report.or Parts.memory).or { started := true, pages := true, heldWr := true, arr := true, sump := true }) s u := by
  unfold execTileFold at e
  injection e with e
  subst e
  try dsimp -zeta only
  repeat' first
    | with_reducible assumption
    | with_reducible exact Only.refl _ _
    | ((with_reducible refine Parts.leq ?_); rfl)
    | with_reducible apply State.eccAll_only
    | with_reducible apply State.corrected_only
    | with_reducible apply State.storeError_only
    | with_reducible apply State.foldStep_only
    | (extract_lets +onlyGivenNames x; first
        | (refine Only.cut (p := ((Parts.report.or Parts.memory).or { started := true, pages := true, heldWr := true, arr := true, sump := true })) (s := s) (x := x) (fun hx => ?_) ?_; clear_value x; revert x; intro y hy; rotate_left; unfold x; clear x)
        | (refine Only.cut1 (p := ((Parts.report.or Parts.memory).or { started := true, pages := true, heldWr := true, arr := true, sump := true })) (s := s) (x := x) (fun hx => ?_) ?_; clear_value x; revert x; intro y hy; rotate_left; unfold x; clear x)
        | (refine Only.cut2 (p := ((Parts.report.or Parts.memory).or { started := true, pages := true, heldWr := true, arr := true, sump := true })) (s := s) (x := x) (fun hx => ?_) ?_; clear_value x; revert x; intro y hy; rotate_left; unfold x; clear x)
        | (revert x; intro y))
    | simp (disch := with_unfolding_all (apply Parts.same; apply Eq.refl)) only [Only.set_iff]
    | with_reducible apply Only.foldl
    | with_reducible apply Only.foldl_fst
    | (refine Only.of_fst ‹_ = _› ?_)
    | (refine Only.of_snd ‹_ = _› ?_)
    | split
    | (intro)

theorem execPrefetchStart_only {s u : State}  (e : execPrefetchStart s = .next u) : Only { regs := true, rrLast := true, arr := true, pwr := true } s u := by
  unfold execPrefetchStart at e
  injection e with e
  subst e
  repeat' first
    | with_reducible exact Only.refl _ _
    | ((with_reducible refine Parts.leq ?_); rfl)
    | with_reducible apply State.clockCells_only
    | simp (disch := with_unfolding_all (apply Parts.same; apply Eq.refl)) only [Only.set_iff]
    | split

theorem execFenceClearWrite_only {s u : State} {block : Option Nat} {value : Word} (e : execFenceClearWrite block value s = .next u) : Only { arr := true } s u := by
  unfold execFenceClearWrite at e
  injection e with e
  subst e
  repeat' first
    | with_reducible exact Only.refl _ _
    | ((with_reducible refine Parts.leq ?_); rfl)
    | simp (disch := with_unfolding_all (apply Parts.same; apply Eq.refl)) only [Only.set_iff]
    | split

end Sys2Proof.Machine
end

