-- ==== Sys2Proof/Laws/OnlyReduce.lean ====
section
/-!
SUPPORT. Which parts of the state the operations of Machine/Reduce.lean may change (Safety.lean).
-/
namespace Sys2Proof.Machine

open Sys2Proof

theorem State.rankRead_only {p : Parts} {s t : State} {c : Ctx} {addr : Nat} {n : Nat} (hq : Parts.le (Parts.report.or { poison := true }) p = true) (h : Only p s t) : Only p s (State.rankRead t c addr n).1 := by
  refine Only.step hq h ?_
  unfold State.rankRead
  try dsimp -zeta only
  repeat' first
    | with_reducible assumption
    | with_reducible exact Only.refl _ _
    | ((with_reducible refine Parts.leq ?_); rfl)
    | with_reducible apply State.unmapped_only
    | with_reducible apply Only.foldChecks
    | with_reducible apply State.tagReadPage_only
    | with_reducible apply State.poisonCheck_only
    | (extract_lets +onlyGivenNames x; first
        | (refine Only.cut (p := (Parts.report.or { poison := true })) (s := t) (x := x) (fun hx => ?_) ?_; clear_value x; revert x; intro y hy; rotate_left; unfold x; clear x)
        | (refine Only.cut1 (p := (Parts.report.or { poison := true })) (s := t) (x := x) (fun hx => ?_) ?_; clear_value x; revert x; intro y hy; rotate_left; unfold x; clear x)
        | (refine Only.cut2 (p := (Parts.report.or { poison := true })) (s := t) (x := x) (fun hx => ?_) ?_; clear_value x; revert x; intro y hy; rotate_left; unfold x; clear x)
        | (revert x; intro y))
    | simp (disch := with_unfolding_all (apply Parts.same; apply Eq.refl)) only [Only.set_iff]
    | with_reducible apply Only.foldl
    | with_reducible apply Only.foldl_fst
    | (refine Only.of_fst ‹_ = _› ?_)
    | (refine Only.of_snd ‹_ = _› ?_)
    | split
    | (intro)

theorem State.redReads_only {p : Parts} {s t : State} {c : Ctx} {x : RedP} (hq : Parts.le (Parts.report.or { poison := true }) p = true) (h : Only p s t) : Only p s (State.redReads t c x).1 := by
  refine Only.step hq h ?_
  unfold State.redReads
  try dsimp -zeta only
  repeat' first
    | with_reducible assumption
    | with_reducible exact Only.refl _ _
    | ((with_reducible refine Parts.leq ?_); rfl)
    | with_reducible apply State.rankRead_only
    | (extract_lets +onlyGivenNames x; first
        | (refine Only.cut (p := (Parts.report.or { poison := true })) (s := t) (x := x) (fun hx => ?_) ?_; clear_value x; revert x; intro y hy; rotate_left; unfold x; clear x)
        | (refine Only.cut1 (p := (Parts.report.or { poison := true })) (s := t) (x := x) (fun hx => ?_) ?_; clear_value x; revert x; intro y hy; rotate_left; unfold x; clear x)
        | (refine Only.cut2 (p := (Parts.report.or { poison := true })) (s := t) (x := x) (fun hx => ?_) ?_; clear_value x; revert x; intro y hy; rotate_left; unfold x; clear x)
        | (revert x; intro y))
    | simp (disch := with_unfolding_all (apply Parts.same; apply Eq.refl)) only [Only.set_iff]
    | with_reducible apply Only.foldl
    | with_reducible apply Only.foldl_fst
    | (refine Only.of_fst ‹_ = _› ?_)
    | (refine Only.of_snd ‹_ = _› ?_)
    | split
    | (intro)

theorem State.updRank_only {p : Parts} {s t : State} {n : Nat} {seq : Nat} {f : RankRun → RankRun} (hq : Parts.le { ranks := true } p = true) (h : Only p s t) : Only p s (State.updRank t n seq f) := by
  refine Only.step hq h ?_
  unfold State.updRank
  repeat' first
    | with_reducible exact Only.refl _ _
    | ((with_reducible refine Parts.leq ?_); rfl)
    | simp (disch := with_unfolding_all (apply Parts.same; apply Eq.refl)) only [Only.set_iff]

theorem State.toHome_only {p : Parts} {s t : State} {k : RankRun} {kind : Nat} {vc : Nat} {rest : List Byte} (hq : Parts.le { regs := true, fab := true, tor := true } p = true) (h : Only p s t) : Only p s (State.toHome t k kind vc rest) := by
  refine Only.step hq h ?_
  unfold State.toHome
  try dsimp -zeta only
  repeat' first
    | with_reducible assumption
    | with_reducible exact Only.refl _ _
    | ((with_reducible refine Parts.leq ?_); rfl)
    | with_reducible apply State.send_only
    | (extract_lets +onlyGivenNames x; first
        | (refine Only.cut (p := { regs := true, fab := true, tor := true }) (s := t) (x := x) (fun hx => ?_) ?_; clear_value x; revert x; intro y hy; rotate_left; unfold x; clear x)
        | (refine Only.cut1 (p := { regs := true, fab := true, tor := true }) (s := t) (x := x) (fun hx => ?_) ?_; clear_value x; revert x; intro y hy; rotate_left; unfold x; clear x)
        | (refine Only.cut2 (p := { regs := true, fab := true, tor := true }) (s := t) (x := x) (fun hx => ?_) ?_; clear_value x; revert x; intro y hy; rotate_left; unfold x; clear x)
        | (revert x; intro y))
    | simp (disch := with_unfolding_all (apply Parts.same; apply Eq.refl)) only [Only.set_iff]
    | with_reducible apply Only.foldl
    | with_reducible apply Only.foldl_fst
    | (refine Only.of_fst ‹_ = _› ?_)
    | (refine Only.of_snd ‹_ = _› ?_)
    | split
    | (intro)

theorem State.noteSend_only {p : Parts} {s t : State} {r : Nat} {ts : List Nat} (hq : Parts.le { arr := true } p = true) (h : Only p s t) : Only p s (State.noteSend t r ts) := by
  refine Only.step hq h ?_
  unfold State.noteSend
  repeat' first
    | with_reducible exact Only.refl _ _
    | ((with_reducible refine Parts.leq ?_); rfl)
    | with_reducible apply State.updTicket_only
    | with_reducible apply Only.foldl
    | (intro)

theorem State.rankRetract_only {p : Parts} {s t : State} {k : RankRun} {x2 : Nat} (hq : Parts.le { regs := true, fab := true, tor := true, ranks := true } p = true) (h : Only p s t) : Only p s (State.rankRetract t k x2) := by
  refine Only.step hq h ?_
  unfold State.rankRetract
  try dsimp -zeta only
  repeat' first
    | with_reducible assumption
    | with_reducible exact Only.refl _ _
    | ((with_reducible refine Parts.leq ?_); rfl)
    | with_reducible apply State.updRank_only
    | with_reducible apply State.toHome_only
    | (extract_lets +onlyGivenNames x; first
        | (refine Only.cut (p := { regs := true, fab := true, tor := true, ranks := true }) (s := t) (x := x) (fun hx => ?_) ?_; clear_value x; revert x; intro y hy; rotate_left; unfold x; clear x)
        | (refine Only.cut1 (p := { regs := true, fab := true, tor := true, ranks := true }) (s := t) (x := x) (fun hx => ?_) ?_; clear_value x; revert x; intro y hy; rotate_left; unfold x; clear x)
        | (refine Only.cut2 (p := { regs := true, fab := true, tor := true, ranks := true }) (s := t) (x := x) (fun hx => ?_) ?_; clear_value x; revert x; intro y hy; rotate_left; unfold x; clear x)
        | (revert x; intro y))
    | simp (disch := with_unfolding_all (apply Parts.same; apply Eq.refl)) only [Only.set_iff]
    | with_reducible apply Only.foldl
    | with_reducible apply Only.foldl_fst
    | (refine Only.of_fst ‹_ = _› ?_)
    | (refine Only.of_snd ‹_ = _› ?_)
    | split
    | (intro)

theorem State.sendExp_only {p : Parts} {s t : State} {k : RankRun} {dead : Option Int} (hq : Parts.le { regs := true, fab := true, tor := true, arr := true, ranks := true } p = true) (h : Only p s t) : Only p s (State.sendExp t k dead) := by
  refine Only.step hq h ?_
  unfold State.sendExp
  try dsimp -zeta only
  repeat' first
    | with_reducible assumption
    | with_reducible exact Only.refl _ _
    | ((with_reducible refine Parts.leq ?_); rfl)
    | with_reducible apply State.rankRetract_only
    | with_reducible apply State.toHome_only
    | with_reducible apply State.noteSend_only
    | (extract_lets +onlyGivenNames x; first
        | (refine Only.cut (p := { regs := true, fab := true, tor := true, arr := true, ranks := true }) (s := t) (x := x) (fun hx => ?_) ?_; clear_value x; revert x; intro y hy; rotate_left; unfold x; clear x)
        | (refine Only.cut1 (p := { regs := true, fab := true, tor := true, arr := true, ranks := true }) (s := t) (x := x) (fun hx => ?_) ?_; clear_value x; revert x; intro y hy; rotate_left; unfold x; clear x)
        | (refine Only.cut2 (p := { regs := true, fab := true, tor := true, arr := true, ranks := true }) (s := t) (x := x) (fun hx => ?_) ?_; clear_value x; revert x; intro y hy; rotate_left; unfold x; clear x)
        | (revert x; intro y))
    | simp (disch := with_unfolding_all (apply Parts.same; apply Eq.refl)) only [Only.set_iff]
    | with_reducible apply Only.foldl
    | with_reducible apply Only.foldl_fst
    | (refine Only.of_fst ‹_ = _› ?_)
    | (refine Only.of_snd ‹_ = _› ?_)
    | split
    | (intro)

theorem State.finishRank_only {p : Parts} {s t : State} {k : RankRun} {d : Done} (hq : Parts.le { started := true, ranks := true } p = true) (h : Only p s t) : Only p s (State.finishRank t k d) := by
  refine Only.step hq h ?_
  unfold State.finishRank
  repeat' first
    | with_reducible exact Only.refl _ _
    | ((with_reducible refine Parts.leq ?_); rfl)
    | with_reducible apply State.setDone_only
    | with_reducible apply State.endRank_only

theorem State.rankRead1_only {p : Parts} {s t : State} {k : RankRun} {dead : Option Int} (hq : Parts.le (Parts.report.or { poison := true, started := true, fab := true, tor := true, arr := true, ranks := true }) p = true) (h : Only p s t) : Only p s (State.rankRead1 t k dead) := by
  refine Only.step hq h ?_
  unfold State.rankRead1
  try dsimp -zeta only
  repeat' first
    | with_reducible assumption
    | with_reducible exact Only.refl _ _
    | ((with_reducible refine Parts.leq ?_); rfl)
    | with_reducible apply State.redReads_only
    | with_reducible apply State.finishRank_only
    | with_reducible apply State.bump_only
    | with_reducible apply State.updRank_only
    | with_reducible apply State.sendExp_only
    | (extract_lets +onlyGivenNames x; first
        | (refine Only.cut (p := (Parts.report.or { poison := true, started := true, fab := true, tor := true, arr := true, ranks := true })) (s := t) (x := x) (fun hx => ?_) ?_; clear_value x; revert x; intro y hy; rotate_left; unfold x; clear x)
        | (refine Only.cut1 (p := (Parts.report.or { poison := true, started := true, fab := true, tor := true, arr := true, ranks := true })) (s := t) (x := x) (fun hx => ?_) ?_; clear_value x; revert x; intro y hy; rotate_left; unfold x; clear x)
        | (refine Only.cut2 (p := (Parts.report.or { poison := true, started := true, fab := true, tor := true, arr := true, ranks := true })) (s := t) (x := x) (fun hx => ?_) ?_; clear_value x; revert x; intro y hy; rotate_left; unfold x; clear x)
        | (revert x; intro y))
    | simp (disch := with_unfolding_all (apply Parts.same; apply Eq.refl)) only [Only.set_iff]
    | with_reducible apply Only.foldl
    | with_reducible apply Only.foldl_fst
    | (refine Only.of_fst ‹_ = _› ?_)
    | (refine Only.of_snd ‹_ = _› ?_)
    | split
    | (intro)

theorem execReduce_only {s u : State} {n : Nat} {seq : Nat} {ecc : EccFinds} (e : execReduce n seq ecc s = .next u) : Only (Parts.report.or { poison := true, started := true, fab := true, tor := true, arr := true, ranks := true }) s u := by
  unfold execReduce at e
  injection e with e
  subst e
  try dsimp -zeta only
  repeat' first
    | with_reducible assumption
    | with_reducible exact Only.refl _ _
    | ((with_reducible refine Parts.leq ?_); rfl)
    | with_reducible apply State.eccAll_only
    | with_reducible apply State.rankRead1_only
    | with_reducible apply State.updStarted_only
    | (extract_lets +onlyGivenNames x; first
        | (refine Only.cut (p := (Parts.report.or { poison := true, started := true, fab := true, tor := true, arr := true, ranks := true })) (s := s) (x := x) (fun hx => ?_) ?_; clear_value x; revert x; intro y hy; rotate_left; unfold x; clear x)
        | (refine Only.cut1 (p := (Parts.report.or { poison := true, started := true, fab := true, tor := true, arr := true, ranks := true })) (s := s) (x := x) (fun hx => ?_) ?_; clear_value x; revert x; intro y hy; rotate_left; unfold x; clear x)
        | (refine Only.cut2 (p := (Parts.report.or { poison := true, started := true, fab := true, tor := true, arr := true, ranks := true })) (s := s) (x := x) (fun hx => ?_) ?_; clear_value x; revert x; intro y hy; rotate_left; unfold x; clear x)
        | (revert x; intro y))
    | simp (disch := with_unfolding_all (apply Parts.same; apply Eq.refl)) only [Only.set_iff]
    | with_reducible apply Only.foldl
    | with_reducible apply Only.foldl_fst
    | (refine Only.of_fst ‹_ = _› ?_)
    | (refine Only.of_snd ‹_ = _› ?_)
    | split
    | (intro)

theorem State.staleRed_only {p : Parts} {s t : State} {x1 : Nat} (hq : Parts.le { regs := true } p = true) (h : Only p s t) : Only p s (State.staleRed t x1) := by
  refine Only.step hq h ?_
  unfold State.staleRed
  repeat' first
    | with_reducible exact Only.refl _ _
    | ((with_reducible refine Parts.leq ?_); rfl)
    | with_reducible apply State.bump_only

theorem State.atRank_only {p : Parts} {s t : State} {kind : Nat} {k : Packet} {f : State → RankRun → State} {ended : State → RankRun → State} (hq : Parts.le (Parts.report.or { genStale := true, fab := true }) p = true) (h : Only p s t) (hf : ∀ z y0, Only p s z → Only p s (f z y0)) (hended : ∀ z y0, Only p s z → Only p s (ended z y0)) : Only p s (State.atRank t kind k f ended) := by
  unfold State.atRank
  repeat' first
    | with_reducible assumption
    | ((with_reducible refine Parts.leq ?_); exact Parts.le_trans rfl hq)
    | apply hf
    | apply hended
    | refine State.take_only ?_ ?_ ‹_›
    | with_reducible apply State.dropStale_only
    | with_reducible apply State.staleRed_only
    | split

theorem lateRank_only {p : Parts} {s t : State} {q : RankRun} (hq : Parts.le { regs := true } p = true) (h : Only p s t) : Only p s (lateRank t q) := by
  refine Only.step hq h ?_
  unfold lateRank
  repeat' first
    | with_reducible exact Only.refl _ _
    | ((with_reducible refine Parts.leq ?_); rfl)
    | with_reducible apply State.staleRed_only

theorem execBusy_only {s u : State} {pkt : Packet} (e : execBusy pkt s = .next u) : Only (Parts.report.or { genStale := true, fab := true, ranks := true }) s u := by
  unfold execBusy at e
  injection e with e
  subst e
  repeat' first
    | with_reducible exact Only.refl _ _
    | ((with_reducible refine Parts.leq ?_); rfl)
    | with_reducible apply State.atRank_only
    | with_reducible apply State.updRank_only
    | with_reducible apply lateRank_only
    | (intro)

theorem execExpRetryTimer_only {s u : State} {n : Nat} {seq : Nat} (e : execExpRetryTimer n seq s = .next u) : Only { regs := true, clk := true, fab := true, tor := true, arr := true, ranks := true } s u := by
  unfold execExpRetryTimer at e
  injection e with e
  subst e
  try dsimp -zeta only
  repeat' first
    | with_reducible assumption
    | with_reducible exact Only.refl _ _
    | ((with_reducible refine Parts.leq ?_); rfl)
    | with_reducible apply State.updRank_only
    | with_reducible apply State.reach_only
    | with_reducible apply State.sendExp_only
    | (extract_lets +onlyGivenNames x; first
        | (refine Only.cut (p := { regs := true, clk := true, fab := true, tor := true, arr := true, ranks := true }) (s := s) (x := x) (fun hx => ?_) ?_; clear_value x; revert x; intro y hy; rotate_left; unfold x; clear x)
        | (refine Only.cut1 (p := { regs := true, clk := true, fab := true, tor := true, arr := true, ranks := true }) (s := s) (x := x) (fun hx => ?_) ?_; clear_value x; revert x; intro y hy; rotate_left; unfold x; clear x)
        | (refine Only.cut2 (p := { regs := true, clk := true, fab := true, tor := true, arr := true, ranks := true }) (s := s) (x := x) (fun hx => ?_) ?_; clear_value x; revert x; intro y hy; rotate_left; unfold x; clear x)
        | (revert x; intro y))
    | simp (disch := with_unfolding_all (apply Parts.same; apply Eq.refl)) only [Only.set_iff]
    | with_reducible apply Only.foldl
    | with_reducible apply Only.foldl_fst
    | (refine Only.of_fst ‹_ = _› ?_)
    | (refine Only.of_snd ‹_ = _› ?_)
    | split
    | (intro)

theorem State.contribute_only {p : Parts} {s t : State} {q : RankRun} {E : Int} (hq : Parts.le ((Parts.report.or Parts.memory).or { started := true, heldWr := true, fab := true, tor := true, arr := true, sump := true, ranks := true }) p = true) (h : Only p s t) : Only p s (State.contribute t q E) := by
  refine Only.step hq h ?_
  unfold State.contribute
  try dsimp -zeta only
  repeat' first
    | with_reducible assumption
    | with_reducible exact Only.refl _ _
    | ((with_reducible refine Parts.leq ?_); rfl)
    | with_reducible apply State.awareWrites_only
    | with_reducible apply State.finishRank_only
    | with_reducible apply State.noteSend_only
    | with_reducible apply State.updRank_only
    | with_reducible apply State.evCount_only
    | with_reducible apply State.rankRetract_only
    | with_reducible apply State.toHome_only
    | (extract_lets +onlyGivenNames x; first
        | (refine Only.cut (p := ((Parts.report.or Parts.memory).or { started := true, heldWr := true, fab := true, tor := true, arr := true, sump := true, ranks := true })) (s := t) (x := x) (fun hx => ?_) ?_; clear_value x; revert x; intro y hy; rotate_left; unfold x; clear x)
        | (refine Only.cut1 (p := ((Parts.report.or Parts.memory).or { started := true, heldWr := true, fab := true, tor := true, arr := true, sump := true, ranks := true })) (s := t) (x := x) (fun hx => ?_) ?_; clear_value x; revert x; intro y hy; rotate_left; unfold x; clear x)
        | (refine Only.cut2 (p := ((Parts.report.or Parts.memory).or { started := true, heldWr := true, fab := true, tor := true, arr := true, sump := true, ranks := true })) (s := t) (x := x) (fun hx => ?_) ?_; clear_value x; revert x; intro y hy; rotate_left; unfold x; clear x)
        | (revert x; intro y))
    | simp (disch := with_unfolding_all (apply Parts.same; apply Eq.refl)) only [Only.set_iff]
    | with_reducible apply Only.foldl
    | with_reducible apply Only.foldl_fst
    | (refine Only.of_fst ‹_ = _› ?_)
    | (refine Only.of_snd ‹_ = _› ?_)
    | split
    | (intro)

theorem execGrant_only {s u : State} {pkt : Packet} {ecc : EccFinds} (e : execGrant pkt ecc s = .next u) : Only ((Parts.report.or Parts.memory).or { genStale := true, started := true, heldWr := true, fab := true, tor := true, arr := true, sump := true, ranks := true }) s u := by
  unfold execGrant at e
  injection e with e
  subst e
  try dsimp -zeta only
  repeat' first
    | with_reducible assumption
    | with_reducible exact Only.refl _ _
    | ((with_reducible refine Parts.leq ?_); rfl)
    | with_reducible apply State.eccAll_only
    | with_reducible apply State.atRank_only
    | with_reducible apply State.staleRed_only
    | with_reducible apply State.bump_only
    | with_reducible apply State.contribute_only
    | with_reducible apply State.updRank_only
    | with_reducible apply lateRank_only
    | (extract_lets +onlyGivenNames x; first
        | (refine Only.cut (p := ((Parts.report.or Parts.memory).or { genStale := true, started := true, heldWr := true, fab := true, tor := true, arr := true, sump := true, ranks := true })) (s := s) (x := x) (fun hx => ?_) ?_; clear_value x; revert x; intro y hy; rotate_left; unfold x; clear x)
        | (refine Only.cut1 (p := ((Parts.report.or Parts.memory).or { genStale := true, started := true, heldWr := true, fab := true, tor := true, arr := true, sump := true, ranks := true })) (s := s) (x := x) (fun hx => ?_) ?_; clear_value x; revert x; intro y hy; rotate_left; unfold x; clear x)
        | (refine Only.cut2 (p := ((Parts.report.or Parts.memory).or { genStale := true, started := true, heldWr := true, fab := true, tor := true, arr := true, sump := true, ranks := true })) (s := s) (x := x) (fun hx => ?_) ?_; clear_value x; revert x; intro y hy; rotate_left; unfold x; clear x)
        | (revert x; intro y))
    | simp (disch := with_unfolding_all (apply Parts.same; apply Eq.refl)) only [Only.set_iff]
    | with_reducible apply Only.foldl
    | with_reducible apply Only.foldl_fst
    | (refine Only.of_fst ‹_ = _› ?_)
    | (refine Only.of_snd ‹_ = _› ?_)
    | split
    | (intro)

theorem State.finalResult_only {p : Parts} {s t : State} {q : RankRun} {x2 : HeldRes} (hq : Parts.le ((Parts.report.or Parts.memory).or { started := true, heldWr := true, arr := true, sump := true, ranks := true }) p = true) (h : Only p s t) : Only p s (State.finalResult t q x2) := by
  refine Only.step hq h ?_
  unfold State.finalResult
  try dsimp -zeta only
  repeat' first
    | with_reducible assumption
    | with_reducible exact Only.refl _ _
    | ((with_reducible refine Parts.leq ?_); rfl)
    | with_reducible apply Only.foldChecks
    | with_reducible apply State.awareWrites_only
    | with_reducible apply State.finishRank_only
    | with_reducible apply State.updRank_only
    | (extract_lets +onlyGivenNames x; first
        | (refine Only.cut (p := ((Parts.report.or Parts.memory).or { started := true, heldWr := true, arr := true, sump := true, ranks := true })) (s := t) (x := x) (fun hx => ?_) ?_; clear_value x; revert x; intro y hy; rotate_left; unfold x; clear x)
        | (refine Only.cut1 (p := ((Parts.report.or Parts.memory).or { started := true, heldWr := true, arr := true, sump := true, ranks := true })) (s := t) (x := x) (fun hx => ?_) ?_; clear_value x; revert x; intro y hy; rotate_left; unfold x; clear x)
        | (refine Only.cut2 (p := ((Parts.report.or Parts.memory).or { started := true, heldWr := true, arr := true, sump := true, ranks := true })) (s := t) (x := x) (fun hx => ?_) ?_; clear_value x; revert x; intro y hy; rotate_left; unfold x; clear x)
        | (revert x; intro y))
    | simp (disch := with_unfolding_all (apply Parts.same; apply Eq.refl)) only [Only.set_iff]
    | with_reducible apply Only.foldl
    | with_reducible apply Only.foldl_fst
    | (refine Only.of_fst ‹_ = _› ?_)
    | (refine Only.of_snd ‹_ = _› ?_)
    | split
    | (intro)

theorem execResult_only {s u : State} {pkt : Packet} (e : execResult pkt s = .next u) : Only ((Parts.report.or Parts.memory).or { genStale := true, started := true, heldWr := true, fab := true, arr := true, sump := true, ranks := true }) s u := by
  unfold execResult at e
  injection e with e
  subst e
  try dsimp -zeta only
  repeat' first
    | with_reducible assumption
    | with_reducible exact Only.refl _ _
    | ((with_reducible refine Parts.leq ?_); rfl)
    | with_reducible apply State.atRank_only
    | with_reducible apply State.staleRed_only
    | with_reducible apply State.updRank_only
    | with_reducible apply State.finalResult_only
    | with_reducible apply lateRank_only
    | (extract_lets +onlyGivenNames x; first
        | (refine Only.cut (p := ((Parts.report.or Parts.memory).or { genStale := true, started := true, heldWr := true, fab := true, arr := true, sump := true, ranks := true })) (s := s) (x := x) (fun hx => ?_) ?_; clear_value x; revert x; intro y hy; rotate_left; unfold x; clear x)
        | (refine Only.cut1 (p := ((Parts.report.or Parts.memory).or { genStale := true, started := true, heldWr := true, fab := true, arr := true, sump := true, ranks := true })) (s := s) (x := x) (fun hx => ?_) ?_; clear_value x; revert x; intro y hy; rotate_left; unfold x; clear x)
        | (refine Only.cut2 (p := ((Parts.report.or Parts.memory).or { genStale := true, started := true, heldWr := true, fab := true, arr := true, sump := true, ranks := true })) (s := s) (x := x) (fun hx => ?_) ?_; clear_value x; revert x; intro y hy; rotate_left; unfold x; clear x)
        | (revert x; intro y))
    | simp (disch := with_unfolding_all (apply Parts.same; apply Eq.refl)) only [Only.set_iff]
    | with_reducible apply Only.foldl
    | with_reducible apply Only.foldl_fst
    | (refine Only.of_fst ‹_ = _› ?_)
    | (refine Only.of_snd ‹_ = _› ?_)
    | split
    | (intro)

theorem execAbort_only {s u : State} {pkt : Packet} (e : execAbort pkt s = .next u) : Only (Parts.report.or { genStale := true, started := true, fab := true, ranks := true }) s u := by
  unfold execAbort at e
  injection e with e
  subst e
  repeat' first
    | with_reducible assumption
    | with_reducible exact Only.refl _ _
    | ((with_reducible refine Parts.leq ?_); rfl)
    | with_reducible apply State.atRank_only
    | with_reducible apply State.finishRank_only
    | with_reducible apply lateRank_only
    | (extract_lets +onlyGivenNames x; first
        | (revert x; intro y))
    | split
    | (intro)

theorem execResultConfirm_only {s u : State} {pkt : Packet} (e : execResultConfirm pkt s = .next u) : Only ((Parts.report.or Parts.memory).or { genStale := true, started := true, heldWr := true, fab := true, arr := true, sump := true, ranks := true }) s u := by
  unfold execResultConfirm at e
  injection e with e
  subst e
  try dsimp -zeta only
  repeat' first
    | with_reducible assumption
    | with_reducible exact Only.refl _ _
    | ((with_reducible refine Parts.leq ?_); rfl)
    | with_reducible apply State.atRank_only
    | with_reducible apply State.staleRed_only
    | with_reducible apply State.finalResult_only
    | with_reducible apply State.updRank_only
    | with_reducible apply lateRank_only
    | (extract_lets +onlyGivenNames x; first
        | (refine Only.cut (p := ((Parts.report.or Parts.memory).or { genStale := true, started := true, heldWr := true, fab := true, arr := true, sump := true, ranks := true })) (s := s) (x := x) (fun hx => ?_) ?_; clear_value x; revert x; intro y hy; rotate_left; unfold x; clear x)
        | (refine Only.cut1 (p := ((Parts.report.or Parts.memory).or { genStale := true, started := true, heldWr := true, fab := true, arr := true, sump := true, ranks := true })) (s := s) (x := x) (fun hx => ?_) ?_; clear_value x; revert x; intro y hy; rotate_left; unfold x; clear x)
        | (refine Only.cut2 (p := ((Parts.report.or Parts.memory).or { genStale := true, started := true, heldWr := true, fab := true, arr := true, sump := true, ranks := true })) (s := s) (x := x) (fun hx => ?_) ?_; clear_value x; revert x; intro y hy; rotate_left; unfold x; clear x)
        | (revert x; intro y))
    | simp (disch := with_unfolding_all (apply Parts.same; apply Eq.refl)) only [Only.set_iff]
    | with_reducible apply Only.foldl
    | with_reducible apply Only.foldl_fst
    | (refine Only.of_fst ‹_ = _› ?_)
    | (refine Only.of_snd ‹_ = _› ?_)
    | split
    | (intro)

theorem execResultRetract_only {s u : State} {pkt : Packet} (e : execResultRetract pkt s = .next u) : Only (Parts.report.or { genStale := true, fab := true, ranks := true }) s u := by
  unfold execResultRetract at e
  injection e with e
  subst e
  repeat' first
    | with_reducible exact Only.refl _ _
    | ((with_reducible refine Parts.leq ?_); rfl)
    | with_reducible apply State.atRank_only
    | with_reducible apply State.staleRed_only
    | with_reducible apply State.updRank_only
    | with_reducible apply State.report_only
    | split
    | (intro)

theorem execResultSteepExpire_only {s u : State} {n : Nat} {seq : Nat} (e : execResultSteepExpire n seq s = .next u) : Only (Parts.report.or { clk := true, started := true, ranks := true }) s u := by
  unfold execResultSteepExpire at e
  injection e with e
  subst e
  repeat' first
    | with_reducible exact Only.refl _ _
    | ((with_reducible refine Parts.leq ?_); rfl)
    | with_reducible apply State.reach_only
    | with_reducible apply State.bump_only
    | with_reducible apply State.report_only
    | with_reducible apply State.finishRank_only
    | split

theorem State.rankPageConfirmed_only {p : Parts} {s t : State} {page : Nat} {x2 : Nat} (hq : Parts.le { regs := true, fab := true, tor := true, ranks := true } p = true) (h : Only p s t) : Only p s (State.rankPageConfirmed t page x2) := by
  refine Only.step hq h ?_
  unfold State.rankPageConfirmed
  try dsimp -zeta only
  repeat' first
    | with_reducible assumption
    | with_reducible exact Only.refl _ _
    | ((with_reducible refine Parts.leq ?_); rfl)
    | with_reducible apply State.updRank_only
    | with_reducible apply State.toHome_only
    | (extract_lets +onlyGivenNames x; first
        | (refine Only.cut (p := { regs := true, fab := true, tor := true, ranks := true }) (s := t) (x := x) (fun hx => ?_) ?_; clear_value x; revert x; intro y hy; rotate_left; unfold x; clear x)
        | (refine Only.cut1 (p := { regs := true, fab := true, tor := true, ranks := true }) (s := t) (x := x) (fun hx => ?_) ?_; clear_value x; revert x; intro y hy; rotate_left; unfold x; clear x)
        | (refine Only.cut2 (p := { regs := true, fab := true, tor := true, ranks := true }) (s := t) (x := x) (fun hx => ?_) ?_; clear_value x; revert x; intro y hy; rotate_left; unfold x; clear x)
        | (revert x; intro y))
    | simp (disch := with_unfolding_all (apply Parts.same; apply Eq.refl)) only [Only.set_iff]
    | with_reducible apply Only.foldl
    | with_reducible apply Only.foldl_fst
    | (refine Only.of_fst ‹_ = _› ?_)
    | (refine Only.of_snd ‹_ = _› ?_)
    | split
    | (intro)

theorem State.rankFence_only {p : Parts} {s t : State} {r : Nat} {x2 : Nat} (hq : Parts.le { regs := true, fab := true, tor := true, ranks := true } p = true) (h : Only p s t) : Only p s (State.rankFence t r x2) := by
  refine Only.step hq h ?_
  unfold State.rankFence
  try dsimp -zeta only
  repeat' first
    | with_reducible assumption
    | with_reducible exact Only.refl _ _
    | ((with_reducible refine Parts.leq ?_); rfl)
    | with_reducible apply State.rankRetract_only
    | (extract_lets +onlyGivenNames x; first
        | (refine Only.cut (p := { regs := true, fab := true, tor := true, ranks := true }) (s := t) (x := x) (fun hx => ?_) ?_; clear_value x; revert x; intro y hy; rotate_left; unfold x; clear x)
        | (refine Only.cut1 (p := { regs := true, fab := true, tor := true, ranks := true }) (s := t) (x := x) (fun hx => ?_) ?_; clear_value x; revert x; intro y hy; rotate_left; unfold x; clear x)
        | (refine Only.cut2 (p := { regs := true, fab := true, tor := true, ranks := true }) (s := t) (x := x) (fun hx => ?_) ?_; clear_value x; revert x; intro y hy; rotate_left; unfold x; clear x)
        | (revert x; intro y))
    | simp (disch := with_unfolding_all (apply Parts.same; apply Eq.refl)) only [Only.set_iff]
    | with_reducible apply Only.foldl
    | with_reducible apply Only.foldl_fst
    | (refine Only.of_fst ‹_ = _› ?_)
    | (refine Only.of_snd ‹_ = _› ?_)
    | split
    | (intro)

theorem State.rankSettled_only {p : Parts} {s t : State} {x1 : Nat} (hq : Parts.le (Parts.report.or { poison := true, started := true, fab := true, tor := true, arr := true, ranks := true }) p = true) (h : Only p s t) : Only p s (State.rankSettled t x1) := by
  refine Only.step hq h ?_
  unfold State.rankSettled
  try dsimp -zeta only
  repeat' first
    | with_reducible assumption
    | with_reducible exact Only.refl _ _
    | ((with_reducible refine Parts.leq ?_); rfl)
    | with_reducible apply State.rankRead1_only
    | (extract_lets +onlyGivenNames x; first
        | (refine Only.cut (p := (Parts.report.or { poison := true, started := true, fab := true, tor := true, arr := true, ranks := true })) (s := t) (x := x) (fun hx => ?_) ?_; clear_value x; revert x; intro y hy; rotate_left; unfold x; clear x)
        | (refine Only.cut1 (p := (Parts.report.or { poison := true, started := true, fab := true, tor := true, arr := true, ranks := true })) (s := t) (x := x) (fun hx => ?_) ?_; clear_value x; revert x; intro y hy; rotate_left; unfold x; clear x)
        | (refine Only.cut2 (p := (Parts.report.or { poison := true, started := true, fab := true, tor := true, arr := true, ranks := true })) (s := t) (x := x) (fun hx => ?_) ?_; clear_value x; revert x; intro y hy; rotate_left; unfold x; clear x)
        | (revert x; intro y))
    | simp (disch := with_unfolding_all (apply Parts.same; apply Eq.refl)) only [Only.set_iff]
    | with_reducible apply Only.foldl
    | with_reducible apply Only.foldl_fst
    | (refine Only.of_fst ‹_ = _› ?_)
    | (refine Only.of_snd ‹_ = _› ?_)
    | split
    | (intro)

theorem digestClose_only {p : Parts} {s t : State} {d : Started} (hq : Parts.le ((Parts.report.or Parts.memory).or { started := true, heldWr := true, order := true, fab := true, tor := true, arr := true, sump := true }) p = true) (h : Only p s t) : Only p s (digestClose t d) := by
  refine Only.step hq h ?_
  unfold digestClose
  try dsimp -zeta only
  repeat' first
    | with_reducible assumption
    | with_reducible exact Only.refl _ _
    | ((with_reducible refine Parts.leq ?_); rfl)
    | with_reducible apply State.rankRead_only
    | with_reducible apply State.setDone_only
    | with_reducible apply State.gwrite_only
    | with_reducible apply State.awareWrites_only
    | (extract_lets +onlyGivenNames x; first
        | (refine Only.cut (p := ((Parts.report.or Parts.memory).or { started := true, heldWr := true, order := true, fab := true, tor := true, arr := true, sump := true })) (s := t) (x := x) (fun hx => ?_) ?_; clear_value x; revert x; intro y hy; rotate_left; unfold x; clear x)
        | (refine Only.cut1 (p := ((Parts.report.or Parts.memory).or { started := true, heldWr := true, order := true, fab := true, tor := true, arr := true, sump := true })) (s := t) (x := x) (fun hx => ?_) ?_; clear_value x; revert x; intro y hy; rotate_left; unfold x; clear x)
        | (refine Only.cut2 (p := ((Parts.report.or Parts.memory).or { started := true, heldWr := true, order := true, fab := true, tor := true, arr := true, sump := true })) (s := t) (x := x) (fun hx => ?_) ?_; clear_value x; revert x; intro y hy; rotate_left; unfold x; clear x)
        | (revert x; intro y))
    | simp (disch := with_unfolding_all (apply Parts.same; apply Eq.refl)) only [Only.set_iff]
    | with_reducible apply Only.foldl
    | with_reducible apply Only.foldl_fst
    | (refine Only.of_fst ‹_ = _› ?_)
    | (refine Only.of_snd ‹_ = _› ?_)
    | split
    | (intro)

theorem execDigestClose_only {s u : State} {n : Nat} {seq : Nat} {ecc : EccFinds} (e : execDigestClose n seq ecc s = .next u) : Only ((Parts.report.or Parts.memory).or { started := true, heldWr := true, order := true, fab := true, tor := true, arr := true, sump := true }) s u := by
  unfold execDigestClose at e
  injection e with e
  subst e
  try dsimp -zeta only
  repeat' first
    | with_reducible assumption
    | with_reducible exact Only.refl _ _
    | ((with_reducible refine Parts.leq ?_); rfl)
    | with_reducible apply State.eccAll_only
    | with_reducible apply digestClose_only
    | (extract_lets +onlyGivenNames x; first
        | (refine Only.cut (p := ((Parts.report.or Parts.memory).or { started := true, heldWr := true, order := true, fab := true, tor := true, arr := true, sump := true })) (s := s) (x := x) (fun hx => ?_) ?_; clear_value x; revert x; intro y hy; rotate_left; unfold x; clear x)
        | (refine Only.cut1 (p := ((Parts.report.or Parts.memory).or { started := true, heldWr := true, order := true, fab := true, tor := true, arr := true, sump := true })) (s := s) (x := x) (fun hx => ?_) ?_; clear_value x; revert x; intro y hy; rotate_left; unfold x; clear x)
        | (refine Only.cut2 (p := ((Parts.report.or Parts.memory).or { started := true, heldWr := true, order := true, fab := true, tor := true, arr := true, sump := true })) (s := s) (x := x) (fun hx => ?_) ?_; clear_value x; revert x; intro y hy; rotate_left; unfold x; clear x)
        | (revert x; intro y))
    | simp (disch := with_unfolding_all (apply Parts.same; apply Eq.refl)) only [Only.set_iff]
    | with_reducible apply Only.foldl
    | with_reducible apply Only.foldl_fst
    | (refine Only.of_fst ‹_ = _› ?_)
    | (refine Only.of_snd ‹_ = _› ?_)
    | split
    | (intro)

end Sys2Proof.Machine
end

