-- ==== Sys2Proof/Laws/OnlyReduceHome.lean ====
section
/-!
SUPPORT. Which parts of the state the operations of Machine/ReduceHome.lean may change (Safety.lean).
-/
namespace Sys2Proof.Machine

open Sys2Proof

theorem State.putHome_only {p : Parts} {s t : State} {x1 : HomeBucket} (hq : Parts.le { homes := true } p = true) (h : Only p s t) : Only p s (State.putHome t x1) := by
  refine Only.step hq h ?_
  unfold State.putHome
  repeat' first
    | with_reducible exact Only.refl _ _
    | ((with_reducible refine Parts.leq ?_); rfl)
    | simp (disch := with_unfolding_all (apply Parts.same; apply Eq.refl)) only [Only.set_iff]

theorem State.dropHome_only {p : Parts} {s t : State} {x1 : HomeBucket} (hq : Parts.le { homes := true } p = true) (h : Only p s t) : Only p s (State.dropHome t x1) := by
  refine Only.step hq h ?_
  unfold State.dropHome
  repeat' first
    | with_reducible exact Only.refl _ _
    | ((with_reducible refine Parts.leq ?_); rfl)
    | simp (disch := with_unfolding_all (apply Parts.same; apply Eq.refl)) only [Only.set_iff]

theorem State.issueTok_only {p : Parts} {s t : State} {x1 : Nat} {n : Nat} (hq : Parts.le { regs := true } p = true) (h : Only p s t) : Only p s (State.issueTok t x1 n) := by
  refine Only.step hq h ?_
  unfold State.issueTok
  repeat' first
    | with_reducible exact Only.refl _ _
    | ((with_reducible refine Parts.leq ?_); rfl)
    | with_reducible apply State.count_only

theorem State.returnTok_only {p : Parts} {s t : State} {x1 : Nat} {n : Nat} (hq : Parts.le { regs := true } p = true) (h : Only p s t) : Only p s (State.returnTok t x1 n) := by
  refine Only.step hq h ?_
  unfold State.returnTok
  repeat' first
    | with_reducible exact Only.refl _ _
    | ((with_reducible refine Parts.leq ?_); rfl)
    | with_reducible apply State.count_only

theorem State.toRank_only {p : Parts} {s t : State} {x1 : HomeBucket} {r : HomeRank} {kind : Nat} {vc : Nat} {ver : Nat} {flags : Nat} {rest : List Byte} (hq : Parts.le { regs := true, fab := true, tor := true } p = true) (h : Only p s t) : Only p s (State.toRank t x1 r kind vc ver flags rest) := by
  refine Only.step hq h ?_
  unfold State.toRank
  try dsimp -zeta only
  repeat' first
    | with_reducible assumption
    | with_reducible exact Only.refl _ _
    | ((with_reducible refine Parts.leq ?_); rfl)
    | with_reducible apply State.send_only
    | (extract_lets +onlyGivenNames x; first
        | (refine Only.cut (p := { regs := true, fab := true, tor := true }) (s := t) (x := x) (fun hx => ?_) ?_; clear_value x; revert x; intro y hy; rotate_left; unfold x; clear x)
        | (refine Only.cut1 (p := { regs := true, fab := true, tor := true }) (s := t) (x := x) (fun hx => ?_) ?_; clear_value x; revert x; intro y hy; rotate_left; unfold x; clear x)
        | (refine Only.cut2 (p := { regs := true, fab := true, tor := true }) (s := t) (x := x) (fun hx => ?_) ?_; clear_value x; revert x; intro y hy; rotate_left; unfold x; clear x)
        | (revert x; intro y))
    | simp (disch := with_unfolding_all (apply Parts.same; apply Eq.refl)) only [Only.set_iff]
    | with_reducible apply Only.foldl
    | with_reducible apply Only.foldl_fst
    | (refine Only.of_fst ‹_ = _› ?_)
    | (refine Only.of_snd ‹_ = _› ?_)
    | split
    | (intro)

theorem State.toRanks_only {p : Parts} {s t : State} {x1 : HomeBucket} {kind : Nat} {vc : Nat} {ver : Nat} {flags : Nat} {rest : List Byte} (hq : Parts.le { regs := true, fab := true, tor := true } p = true) (h : Only p s t) : Only p s (State.toRanks t x1 kind vc ver flags rest) := by
  refine Only.step hq h ?_
  unfold State.toRanks
  try dsimp -zeta only
  repeat' first
    | with_reducible assumption
    | with_reducible exact Only.refl _ _
    | ((with_reducible refine Parts.leq ?_); rfl)
    | with_reducible apply State.toRank_only
    | (extract_lets +onlyGivenNames x; first
        | (refine Only.cut (p := { regs := true, fab := true, tor := true }) (s := t) (x := x) (fun hx => ?_) ?_; clear_value x; revert x; intro y hy; rotate_left; unfold x; clear x)
        | (refine Only.cut1 (p := { regs := true, fab := true, tor := true }) (s := t) (x := x) (fun hx => ?_) ?_; clear_value x; revert x; intro y hy; rotate_left; unfold x; clear x)
        | (refine Only.cut2 (p := { regs := true, fab := true, tor := true }) (s := t) (x := x) (fun hx => ?_) ?_; clear_value x; revert x; intro y hy; rotate_left; unfold x; clear x)
        | (revert x; intro y))
    | simp (disch := with_unfolding_all (apply Parts.same; apply Eq.refl)) only [Only.set_iff]
    | with_reducible apply Only.foldl
    | with_reducible apply Only.foldl_fst
    | (refine Only.of_fst ‹_ = _› ?_)
    | (refine Only.of_snd ‹_ = _› ?_)
    | split
    | (intro)

theorem State.abortHome_only {p : Parts} {s t : State} {x1 : HomeBucket} {reason : Nat} {laggard : Nat} (hq : Parts.le { regs := true, fab := true, tor := true, homes := true } p = true) (h : Only p s t) : Only p s (State.abortHome t x1 reason laggard) := by
  refine Only.step hq h ?_
  unfold State.abortHome
  try dsimp -zeta only
  repeat' first
    | with_reducible assumption
    | with_reducible exact Only.refl _ _
    | ((with_reducible refine Parts.leq ?_); rfl)
    | with_reducible apply State.dropHome_only
    | with_reducible apply State.returnTok_only
    | with_reducible apply State.toRanks_only
    | (extract_lets +onlyGivenNames x; first
        | (refine Only.cut (p := { regs := true, fab := true, tor := true, homes := true }) (s := t) (x := x) (fun hx => ?_) ?_; clear_value x; revert x; intro y hy; rotate_left; unfold x; clear x)
        | (refine Only.cut1 (p := { regs := true, fab := true, tor := true, homes := true }) (s := t) (x := x) (fun hx => ?_) ?_; clear_value x; revert x; intro y hy; rotate_left; unfold x; clear x)
        | (refine Only.cut2 (p := { regs := true, fab := true, tor := true, homes := true }) (s := t) (x := x) (fun hx => ?_) ?_; clear_value x; revert x; intro y hy; rotate_left; unfold x; clear x)
        | (revert x; intro y))
    | simp (disch := with_unfolding_all (apply Parts.same; apply Eq.refl)) only [Only.set_iff]
    | with_reducible apply Only.foldl
    | with_reducible apply Only.foldl_fst
    | (refine Only.of_fst ‹_ = _› ?_)
    | (refine Only.of_snd ‹_ = _› ?_)
    | split
    | (intro)

theorem State.sendResult_only {p : Parts} {s t : State} {x1 : HomeBucket} {unconf : Bool} (hq : Parts.le { regs := true, fab := true, tor := true } p = true) (h : Only p s t) : Only p s (State.sendResult t x1 unconf) := by
  refine Only.step hq h ?_
  unfold State.sendResult
  try dsimp -zeta only
  repeat' first
    | with_reducible assumption
    | with_reducible exact Only.refl _ _
    | ((with_reducible refine Parts.leq ?_); rfl)
    | with_reducible apply State.toRanks_only
    | (extract_lets +onlyGivenNames x; first
        | (refine Only.cut (p := { regs := true, fab := true, tor := true }) (s := t) (x := x) (fun hx => ?_) ?_; clear_value x; revert x; intro y hy; rotate_left; unfold x; clear x)
        | (refine Only.cut1 (p := { regs := true, fab := true, tor := true }) (s := t) (x := x) (fun hx => ?_) ?_; clear_value x; revert x; intro y hy; rotate_left; unfold x; clear x)
        | (refine Only.cut2 (p := { regs := true, fab := true, tor := true }) (s := t) (x := x) (fun hx => ?_) ?_; clear_value x; revert x; intro y hy; rotate_left; unfold x; clear x)
        | (revert x; intro y))
    | simp (disch := with_unfolding_all (apply Parts.same; apply Eq.refl)) only [Only.set_iff]
    | with_reducible apply Only.foldl
    | with_reducible apply Only.foldl_fst
    | (refine Only.of_fst ‹_ = _› ?_)
    | (refine Only.of_snd ‹_ = _› ?_)
    | split
    | (intro)

theorem State.concludeHome_only {p : Parts} {s t : State} {x1 : HomeBucket} (hq : Parts.le (Parts.report.or { fab := true, tor := true, homes := true }) p = true) (h : Only p s t) : Only p s (State.concludeHome t x1) := by
  refine Only.step hq h ?_
  unfold State.concludeHome
  try dsimp -zeta only
  repeat' first
    | with_reducible assumption
    | with_reducible exact Only.refl _ _
    | ((with_reducible refine Parts.leq ?_); rfl)
    | with_reducible apply State.putHome_only
    | with_reducible apply State.toRanks_only
    | with_reducible apply State.report_only
    | with_reducible apply State.bump_only
    | with_reducible apply State.sendResult_only
    | (extract_lets +onlyGivenNames x; first
        | (refine Only.cut (p := (Parts.report.or { fab := true, tor := true, homes := true })) (s := t) (x := x) (fun hx => ?_) ?_; clear_value x; revert x; intro y hy; rotate_left; unfold x; clear x)
        | (refine Only.cut1 (p := (Parts.report.or { fab := true, tor := true, homes := true })) (s := t) (x := x) (fun hx => ?_) ?_; clear_value x; revert x; intro y hy; rotate_left; unfold x; clear x)
        | (refine Only.cut2 (p := (Parts.report.or { fab := true, tor := true, homes := true })) (s := t) (x := x) (fun hx => ?_) ?_; clear_value x; revert x; intro y hy; rotate_left; unfold x; clear x)
        | (revert x; intro y))
    | simp (disch := with_unfolding_all (apply Parts.same; apply Eq.refl)) only [Only.set_iff]
    | with_reducible apply Only.foldl
    | with_reducible apply Only.foldl_fst
    | (refine Only.of_fst ‹_ = _› ?_)
    | (refine Only.of_snd ‹_ = _› ?_)
    | split
    | (intro)

theorem State.consume_only {p : Parts} {s t : State} {x1 : HomeBucket} {r : HomeRank} {c : Nat} {pay : List Byte} (hq : Parts.le { regs := true, obs := true } p = true) (h : Only p s t) : Only p s (State.consume t x1 r c pay).1 := by
  refine Only.step hq h ?_
  unfold State.consume
  repeat' first
    | with_reducible exact Only.refl _ _
    | ((with_reducible refine Parts.leq ?_); rfl)
    | with_reducible apply State.evCount_only
    | with_reducible apply State.returnTok_only

theorem State.consumeAll_only {p : Parts} {s t : State} {x1 : HomeBucket} {x2 : Nat} (hq : Parts.le { regs := true, obs := true } p = true) (h : Only p s t) : Only p s (State.consumeAll t x1 x2).1 := by
  refine Only.step hq h ?_
  clear hq h
  induction x2 generalizing t x1 with
  | zero =>
    unfold State.consumeAll
    repeat' first
      | with_reducible exact Only.refl _ _
      | with_reducible apply State.consume_only
  | succ n ih =>
    unfold State.consumeAll
    repeat' first
      | with_reducible exact Only.refl _ _
      | ((with_reducible refine Parts.leq ?_); rfl)
      | refine Only.trans ?_ (ih ..)
      | with_reducible apply State.consume_only
      | split

theorem State.retractVersion_only {p : Parts} {s t : State} {x1 : HomeBucket} {r : HomeRank} (hq : Parts.le { regs := true, fab := true, tor := true } p = true) (h : Only p s t) : Only p s (State.retractVersion t x1 r).1 := by
  refine Only.step hq h ?_
  unfold State.retractVersion
  try dsimp -zeta only
  repeat' first
    | with_reducible assumption
    | with_reducible exact Only.refl _ _
    | ((with_reducible refine Parts.leq ?_); rfl)
    | with_reducible apply State.bump_only
    | with_reducible apply State.toRanks_only
    | with_reducible apply State.returnTok_only
    | (extract_lets +onlyGivenNames x; first
        | (refine Only.cut (p := { regs := true, fab := true, tor := true }) (s := t) (x := x) (fun hx => ?_) ?_; clear_value x; revert x; intro y hy; rotate_left; unfold x; clear x)
        | (refine Only.cut1 (p := { regs := true, fab := true, tor := true }) (s := t) (x := x) (fun hx => ?_) ?_; clear_value x; revert x; intro y hy; rotate_left; unfold x; clear x)
        | (refine Only.cut2 (p := { regs := true, fab := true, tor := true }) (s := t) (x := x) (fun hx => ?_) ?_; clear_value x; revert x; intro y hy; rotate_left; unfold x; clear x)
        | (revert x; intro y))
    | simp (disch := with_unfolding_all (apply Parts.same; apply Eq.refl)) only [Only.set_iff]
    | with_reducible apply Only.foldl
    | with_reducible apply Only.foldl_fst
    | (refine Only.of_fst ‹_ = _› ?_)
    | (refine Only.of_snd ‹_ = _› ?_)
    | split
    | (intro)

theorem State.restartHome_only {p : Parts} {s t : State} {x1 : HomeBucket} (hq : Parts.le { regs := true } p = true) (h : Only p s t) : Only p s (State.restartHome t x1).1 := by
  refine Only.step hq h ?_
  unfold State.restartHome
  repeat' first
    | with_reducible exact Only.refl _ _
    | ((with_reducible refine Parts.leq ?_); rfl)
    | with_reducible apply State.returnTok_only

theorem State.atHome_only {p : Parts} {s t : State} {kind : Nat} {k : Packet} {f : State → State} (hq : Parts.le { fab := true } p = true) (h : Only p s t) (hf : ∀ z, Only p s z → Only p s (f z)) : Only p s (State.atHome t kind k f) := by
  unfold State.atHome
  repeat' first
    | with_reducible assumption
    | apply hf
    | refine State.take_only ?_ ?_ ‹_›
    | refine State.take_only ?_ ?_ (some_of_ite ‹_›)
    | split

theorem State.forRank_only {p : Parts} {s t : State} {k : Packet} {absent : State → State} {f : State → HomeBucket → HomeRank → State} (hq : Parts.le (Parts.report.or { genStale := true }) p = true) (h : Only p s t) (habsent : ∀ z, Only p s z → Only p s (absent z)) (hf : ∀ z y0 y1, Only p s z → Only p s (f z y0 y1)) : Only p s (State.forRank t k absent f) := by
  unfold State.forRank
  try dsimp -zeta only
  repeat' first
    | with_reducible assumption
    | with_reducible exact Only.refl _ _
    | ((with_reducible refine Parts.leq ?_); exact Parts.le_trans rfl hq)
    | apply habsent
    | apply hf
    | with_reducible apply State.dropStale_only
    | (extract_lets +onlyGivenNames x; first
        | (refine Only.cut (p := p) (s := s) (x := x) (fun hx => ?_) ?_; clear_value x; revert x; intro y hy; rotate_left; unfold x; clear x)
        | (refine Only.cut1 (p := p) (s := s) (x := x) (fun hx => ?_) ?_; clear_value x; revert x; intro y hy; rotate_left; unfold x; clear x)
        | (refine Only.cut2 (p := p) (s := s) (x := x) (fun hx => ?_) ?_; clear_value x; revert x; intro y hy; rotate_left; unfold x; clear x)
        | (revert x; intro y))
    | simp (disch := with_unfolding_all (apply Parts.same; apply Eq.refl)) only [Only.set_iff]
    | with_reducible apply Only.foldl
    | with_reducible apply Only.foldl_fst
    | (refine Only.of_fst ‹_ = _› ?_)
    | (refine Only.of_snd ‹_ = _› ?_)
    | split
    | (intro)

theorem State.takeEarly_only {p : Parts} {s t : State} {x1 : HomeBucket} {k : Packet} (hq : Parts.le { regs := true } p = true) (h : Only p s t) : Only p s (State.takeEarly t x1 k).1 := by
  refine Only.step hq h ?_
  unfold State.takeEarly
  try dsimp -zeta only
  repeat' first
    | with_reducible assumption
    | with_reducible exact Only.refl _ _
    | ((with_reducible refine Parts.leq ?_); rfl)
    | with_reducible apply State.bump_only
    | (extract_lets +onlyGivenNames x; first
        | (refine Only.cut (p := { regs := true }) (s := t) (x := x) (fun hx => ?_) ?_; clear_value x; revert x; intro y hy; rotate_left; unfold x; clear x)
        | (refine Only.cut1 (p := { regs := true }) (s := t) (x := x) (fun hx => ?_) ?_; clear_value x; revert x; intro y hy; rotate_left; unfold x; clear x)
        | (refine Only.cut2 (p := { regs := true }) (s := t) (x := x) (fun hx => ?_) ?_; clear_value x; revert x; intro y hy; rotate_left; unfold x; clear x)
        | (revert x; intro y))
    | simp (disch := with_unfolding_all (apply Parts.same; apply Eq.refl)) only [Only.set_iff]
    | with_reducible apply Only.foldl
    | with_reducible apply Only.foldl_fst
    | (refine Only.of_fst ‹_ = _› ?_)
    | (refine Only.of_snd ‹_ = _› ?_)
    | split
    | (intro)

theorem State.recordExp_only {p : Parts} {s t : State} {x1 : HomeBucket} {k : Packet} (hq : Parts.le (Parts.report.or { fab := true, tor := true, homes := true }) p = true) (h : Only p s t) : Only p s (State.recordExp t x1 k) := by
  refine Only.step hq h ?_
  unfold State.recordExp
  try dsimp -zeta only
  repeat' first
    | with_reducible assumption
    | with_reducible exact Only.refl _ _
    | ((with_reducible refine Parts.leq ?_); rfl)
    | with_reducible apply State.takeEarly_only
    | with_reducible apply State.concludeHome_only
    | with_reducible apply State.staleRed_only
    | with_reducible apply State.retractVersion_only
    | with_reducible apply State.restartHome_only
    | with_reducible apply State.putHome_only
    | (extract_lets +onlyGivenNames x; first
        | (refine Only.cut (p := (Parts.report.or { fab := true, tor := true, homes := true })) (s := t) (x := x) (fun hx => ?_) ?_; clear_value x; revert x; intro y hy; rotate_left; unfold x; clear x)
        | (refine Only.cut1 (p := (Parts.report.or { fab := true, tor := true, homes := true })) (s := t) (x := x) (fun hx => ?_) ?_; clear_value x; revert x; intro y hy; rotate_left; unfold x; clear x)
        | (refine Only.cut2 (p := (Parts.report.or { fab := true, tor := true, homes := true })) (s := t) (x := x) (fun hx => ?_) ?_; clear_value x; revert x; intro y hy; rotate_left; unfold x; clear x)
        | (revert x; intro y))
    | simp (disch := with_unfolding_all (apply Parts.same; apply Eq.refl)) only [Only.set_iff]
    | with_reducible apply Only.foldl
    | with_reducible apply Only.foldl_fst
    | (refine Only.of_fst ‹_ = _› ?_)
    | (refine Only.of_snd ‹_ = _› ?_)
    | split
    | (intro)

theorem execExp_only {s u : State} {pkt : Packet} (e : execExp pkt s = .next u) : Only (Parts.report.or { fab := true, tor := true, homes := true }) s u := by
  unfold execExp at e
  injection e with e
  subst e
  try dsimp -zeta only
  repeat' first
    | with_reducible assumption
    | with_reducible exact Only.refl _ _
    | ((with_reducible refine Parts.leq ?_); rfl)
    | with_reducible apply State.atHome_only
    | with_reducible apply State.toRank_only
    | with_reducible apply State.report_only
    | with_reducible apply State.abortHome_only
    | with_reducible apply State.recordExp_only
    | with_reducible apply State.bump_only
    | (extract_lets +onlyGivenNames x; first
        | (refine Only.cut (p := (Parts.report.or { fab := true, tor := true, homes := true })) (s := s) (x := x) (fun hx => ?_) ?_; clear_value x; revert x; intro y hy; rotate_left; unfold x; clear x)
        | (refine Only.cut1 (p := (Parts.report.or { fab := true, tor := true, homes := true })) (s := s) (x := x) (fun hx => ?_) ?_; clear_value x; revert x; intro y hy; rotate_left; unfold x; clear x)
        | (refine Only.cut2 (p := (Parts.report.or { fab := true, tor := true, homes := true })) (s := s) (x := x) (fun hx => ?_) ?_; clear_value x; revert x; intro y hy; rotate_left; unfold x; clear x)
        | (revert x; intro y))
    | simp (disch := with_unfolding_all (apply Parts.same; apply Eq.refl)) only [Only.set_iff]
    | with_reducible apply Only.foldl
    | with_reducible apply Only.foldl_fst
    | (refine Only.of_fst ‹_ = _› ?_)
    | (refine Only.of_snd ‹_ = _› ?_)
    | split
    | (intro)

theorem execGrantSend_only {s u : State} {x0 : Nat} {coll : Nat} {step : Nat} {bucket : Nat} (e : execGrantSend x0 coll step bucket s = .next u) : Only { regs := true, fab := true, tor := true, homes := true } s u := by
  unfold execGrantSend at e
  injection e with e
  subst e
  try dsimp -zeta only
  repeat' first
    | with_reducible assumption
    | with_reducible exact Only.refl _ _
    | ((with_reducible refine Parts.leq ?_); rfl)
    | with_reducible apply State.toRank_only
    | with_reducible apply State.issueTok_only
    | with_reducible apply State.putHome_only
    | (extract_lets +onlyGivenNames x; first
        | (refine Only.cut (p := { regs := true, fab := true, tor := true, homes := true }) (s := s) (x := x) (fun hx => ?_) ?_; clear_value x; revert x; intro y hy; rotate_left; unfold x; clear x)
        | (refine Only.cut1 (p := { regs := true, fab := true, tor := true, homes := true }) (s := s) (x := x) (fun hx => ?_) ?_; clear_value x; revert x; intro y hy; rotate_left; unfold x; clear x)
        | (refine Only.cut2 (p := { regs := true, fab := true, tor := true, homes := true }) (s := s) (x := x) (fun hx => ?_) ?_; clear_value x; revert x; intro y hy; rotate_left; unfold x; clear x)
        | (revert x; intro y))
    | simp (disch := with_unfolding_all (apply Parts.same; apply Eq.refl)) only [Only.set_iff]
    | with_reducible apply Only.foldl
    | with_reducible apply Only.foldl_fst
    | (refine Only.of_fst ‹_ = _› ?_)
    | (refine Only.of_snd ‹_ = _› ?_)
    | split
    | (intro)

theorem execContrib_only {s u : State} {pkt : Packet} (e : execContrib pkt s = .next u) : Only (Parts.report.or { genStale := true, fab := true, tor := true, homes := true }) s u := by
  unfold execContrib at e
  injection e with e
  subst e
  try dsimp -zeta only
  repeat' first
    | with_reducible assumption
    | with_reducible exact Only.refl _ _
    | ((with_reducible refine Parts.leq ?_); rfl)
    | with_reducible apply State.atHome_only
    | with_reducible apply State.forRank_only
    | with_reducible apply State.staleRed_only
    | with_reducible apply State.putHome_only
    | with_reducible apply State.report_only
    | with_reducible apply State.consumeAll_only
    | with_reducible apply State.concludeHome_only
    | (extract_lets +onlyGivenNames x; first
        | (refine Only.cut (p := (Parts.report.or { genStale := true, fab := true, tor := true, homes := true })) (s := s) (x := x) (fun hx => ?_) ?_; clear_value x; revert x; intro y hy; rotate_left; unfold x; clear x)
        | (refine Only.cut1 (p := (Parts.report.or { genStale := true, fab := true, tor := true, homes := true })) (s := s) (x := x) (fun hx => ?_) ?_; clear_value x; revert x; intro y hy; rotate_left; unfold x; clear x)
        | (refine Only.cut2 (p := (Parts.report.or { genStale := true, fab := true, tor := true, homes := true })) (s := s) (x := x) (fun hx => ?_) ?_; clear_value x; revert x; intro y hy; rotate_left; unfold x; clear x)
        | (revert x; intro y))
    | simp (disch := with_unfolding_all (apply Parts.same; apply Eq.refl)) only [Only.set_iff]
    | with_reducible apply Only.foldl
    | with_reducible apply Only.foldl_fst
    | (refine Only.of_fst ‹_ = _› ?_)
    | (refine Only.of_snd ‹_ = _› ?_)
    | split
    | (intro)

theorem execHomeDeadlineExpire_only {s u : State} {x0 : Nat} {coll : Nat} {step : Nat} {bucket : Nat} (e : execHomeDeadlineExpire x0 coll step bucket s = .next u) : Only (Parts.report.or { clk := true, fab := true, tor := true, homes := true }) s u := by
  unfold execHomeDeadlineExpire at e
  injection e with e
  subst e
  try dsimp -zeta only
  repeat' first
    | with_reducible assumption
    | with_reducible exact Only.refl _ _
    | ((with_reducible refine Parts.leq ?_); rfl)
    | with_reducible apply State.reachNs_only
    | with_reducible apply State.report_only
    | with_reducible apply State.abortHome_only
    | (extract_lets +onlyGivenNames x; first
        | (refine Only.cut (p := (Parts.report.or { clk := true, fab := true, tor := true, homes := true })) (s := s) (x := x) (fun hx => ?_) ?_; clear_value x; revert x; intro y hy; rotate_left; unfold x; clear x)
        | (refine Only.cut1 (p := (Parts.report.or { clk := true, fab := true, tor := true, homes := true })) (s := s) (x := x) (fun hx => ?_) ?_; clear_value x; revert x; intro y hy; rotate_left; unfold x; clear x)
        | (refine Only.cut2 (p := (Parts.report.or { clk := true, fab := true, tor := true, homes := true })) (s := s) (x := x) (fun hx => ?_) ?_; clear_value x; revert x; intro y hy; rotate_left; unfold x; clear x)
        | (revert x; intro y))
    | simp (disch := with_unfolding_all (apply Parts.same; apply Eq.refl)) only [Only.set_iff]
    | with_reducible apply Only.foldl
    | with_reducible apply Only.foldl_fst
    | (refine Only.of_fst ‹_ = _› ?_)
    | (refine Only.of_snd ‹_ = _› ?_)
    | split
    | (intro)

theorem State.keepEarly_only {p : Parts} {s t : State} {k : Packet} (hq : Parts.le { quar := true } p = true) (h : Only p s t) : Only p s (State.keepEarly t k) := by
  refine Only.step hq h ?_
  unfold State.keepEarly
  repeat' first
    | with_reducible exact Only.refl _ _
    | ((with_reducible refine Parts.leq ?_); rfl)
    | simp (disch := with_unfolding_all (apply Parts.same; apply Eq.refl)) only [Only.set_iff]

theorem execConfirm_only {s u : State} {pkt : Packet} (e : execConfirm pkt s = .next u) : Only (Parts.report.or { genStale := true, fab := true, tor := true, homes := true, quar := true }) s u := by
  unfold execConfirm at e
  injection e with e
  subst e
  try dsimp -zeta only
  repeat' first
    | with_reducible assumption
    | with_reducible exact Only.refl _ _
    | ((with_reducible refine Parts.leq ?_); rfl)
    | with_reducible apply State.atHome_only
    | with_reducible apply State.forRank_only
    | with_reducible apply State.keepEarly_only
    | with_reducible apply State.staleRed_only
    | with_reducible apply State.concludeHome_only
    | (extract_lets +onlyGivenNames x; first
        | (refine Only.cut (p := (Parts.report.or { genStale := true, fab := true, tor := true, homes := true, quar := true })) (s := s) (x := x) (fun hx => ?_) ?_; clear_value x; revert x; intro y hy; rotate_left; unfold x; clear x)
        | (refine Only.cut1 (p := (Parts.report.or { genStale := true, fab := true, tor := true, homes := true, quar := true })) (s := s) (x := x) (fun hx => ?_) ?_; clear_value x; revert x; intro y hy; rotate_left; unfold x; clear x)
        | (refine Only.cut2 (p := (Parts.report.or { genStale := true, fab := true, tor := true, homes := true, quar := true })) (s := s) (x := x) (fun hx => ?_) ?_; clear_value x; revert x; intro y hy; rotate_left; unfold x; clear x)
        | (revert x; intro y))
    | simp (disch := with_unfolding_all (apply Parts.same; apply Eq.refl)) only [Only.set_iff]
    | with_reducible apply Only.foldl
    | with_reducible apply Only.foldl_fst
    | (refine Only.of_fst ‹_ = _› ?_)
    | (refine Only.of_snd ‹_ = _› ?_)
    | split
    | (intro)

theorem execRetract_only {s u : State} {pkt : Packet} (e : execRetract pkt s = .next u) : Only (Parts.report.or { genStale := true, fab := true, tor := true, homes := true, quar := true }) s u := by
  unfold execRetract at e
  injection e with e
  subst e
  try dsimp -zeta only
  repeat' first
    | with_reducible assumption
    | with_reducible exact Only.refl _ _
    | ((with_reducible refine Parts.leq ?_); rfl)
    | with_reducible apply State.atHome_only
    | with_reducible apply State.forRank_only
    | with_reducible apply State.keepEarly_only
    | with_reducible apply State.staleRed_only
    | with_reducible apply State.report_only
    | with_reducible apply State.retractVersion_only
    | with_reducible apply State.putHome_only
    | (extract_lets +onlyGivenNames x; first
        | (refine Only.cut (p := (Parts.report.or { genStale := true, fab := true, tor := true, homes := true, quar := true })) (s := s) (x := x) (fun hx => ?_) ?_; clear_value x; revert x; intro y hy; rotate_left; unfold x; clear x)
        | (refine Only.cut1 (p := (Parts.report.or { genStale := true, fab := true, tor := true, homes := true, quar := true })) (s := s) (x := x) (fun hx => ?_) ?_; clear_value x; revert x; intro y hy; rotate_left; unfold x; clear x)
        | (refine Only.cut2 (p := (Parts.report.or { genStale := true, fab := true, tor := true, homes := true, quar := true })) (s := s) (x := x) (fun hx => ?_) ?_; clear_value x; revert x; intro y hy; rotate_left; unfold x; clear x)
        | (revert x; intro y))
    | simp (disch := with_unfolding_all (apply Parts.same; apply Eq.refl)) only [Only.set_iff]
    | with_reducible apply Only.foldl
    | with_reducible apply Only.foldl_fst
    | (refine Only.of_fst ‹_ = _› ?_)
    | (refine Only.of_snd ‹_ = _› ?_)
    | split
    | (intro)

theorem execJournalSteepExpire_only {s u : State} {x0 : Nat} {coll : Nat} {step : Nat} {bucket : Nat} {rank : Nat} (e : execJournalSteepExpire x0 coll step bucket rank s = .next u) : Only (Parts.report.or { clk := true, fab := true, tor := true, homes := true }) s u := by
  unfold execJournalSteepExpire at e
  injection e with e
  subst e
  try dsimp -zeta only
  repeat' first
    | with_reducible assumption
    | with_reducible exact Only.refl _ _
    | ((with_reducible refine Parts.leq ?_); rfl)
    | with_reducible apply State.reach_only
    | with_reducible apply State.retractVersion_only
    | with_reducible apply State.bump_only
    | with_reducible apply State.report_only
    | with_reducible apply State.putHome_only
    | (extract_lets +onlyGivenNames x; first
        | (refine Only.cut (p := (Parts.report.or { clk := true, fab := true, tor := true, homes := true })) (s := s) (x := x) (fun hx => ?_) ?_; clear_value x; revert x; intro y hy; rotate_left; unfold x; clear x)
        | (refine Only.cut1 (p := (Parts.report.or { clk := true, fab := true, tor := true, homes := true })) (s := s) (x := x) (fun hx => ?_) ?_; clear_value x; revert x; intro y hy; rotate_left; unfold x; clear x)
        | (refine Only.cut2 (p := (Parts.report.or { clk := true, fab := true, tor := true, homes := true })) (s := s) (x := x) (fun hx => ?_) ?_; clear_value x; revert x; intro y hy; rotate_left; unfold x; clear x)
        | (revert x; intro y))
    | simp (disch := with_unfolding_all (apply Parts.same; apply Eq.refl)) only [Only.set_iff]
    | with_reducible apply Only.foldl
    | with_reducible apply Only.foldl_fst
    | (refine Only.of_fst ‹_ = _› ?_)
    | (refine Only.of_snd ‹_ = _› ?_)
    | split
    | (intro)

theorem State.refuseHomes_only {p : Parts} {s t : State} {x1 : Nat} (hq : Parts.le { regs := true, fab := true, tor := true, homes := true } p = true) (h : Only p s t) : Only p s (State.refuseHomes t x1) := by
  refine Only.step hq h ?_
  unfold State.refuseHomes
  try dsimp -zeta only
  repeat' first
    | with_reducible assumption
    | with_reducible exact Only.refl _ _
    | ((with_reducible refine Parts.leq ?_); rfl)
    | with_reducible apply State.abortHome_only
    | (extract_lets +onlyGivenNames x; first
        | (refine Only.cut (p := { regs := true, fab := true, tor := true, homes := true }) (s := t) (x := x) (fun hx => ?_) ?_; clear_value x; revert x; intro y hy; rotate_left; unfold x; clear x)
        | (refine Only.cut1 (p := { regs := true, fab := true, tor := true, homes := true }) (s := t) (x := x) (fun hx => ?_) ?_; clear_value x; revert x; intro y hy; rotate_left; unfold x; clear x)
        | (refine Only.cut2 (p := { regs := true, fab := true, tor := true, homes := true }) (s := t) (x := x) (fun hx => ?_) ?_; clear_value x; revert x; intro y hy; rotate_left; unfold x; clear x)
        | (revert x; intro y))
    | simp (disch := with_unfolding_all (apply Parts.same; apply Eq.refl)) only [Only.set_iff]
    | with_reducible apply Only.foldl
    | with_reducible apply Only.foldl_fst
    | (refine Only.of_fst ‹_ = _› ?_)
    | (refine Only.of_snd ‹_ = _› ?_)
    | split
    | (intro)

end Sys2Proof.Machine
end

