-- ==== Sys2Proof/Laws/OnlyIntegrity.lean ====
section
/-!
SUPPORT. Which parts of the state the operations of Machine/Integrity.lean may change (Safety.lean).
-/
namespace Sys2Proof.Machine

open Sys2Proof

theorem State.fenceTicket_only {p : Parts} {s t : State} {x1 : Nat} (hq : Parts.le { regs := true, arr := true, quar := true } p = true) (h : Only p s t) : Only p s (State.fenceTicket t x1) := by
  refine Only.step hq h ?_
  unfold State.fenceTicket
  repeat' first
    | with_reducible exact Only.refl _ _
    | ((with_reducible refine Parts.leq ?_); rfl)
    | with_reducible apply State.updTicket_only
    | with_reducible apply State.bump_only
    | simp (disch := with_unfolding_all (apply Parts.same; apply Eq.refl)) only [Only.set_iff]
    | split

theorem State.dropFenced_only {p : Parts} {s t : State} {r : Nat} {x2 : Nat} (hq : Parts.le { fab := true } p = true) (h : Only p s t) : Only p s (State.dropFenced t r x2) := by
  refine Only.step hq h ?_
  unfold State.dropFenced
  repeat' first
    | with_reducible exact Only.refl _ _
    | ((with_reducible refine Parts.leq ?_); rfl)
    | with_reducible apply State.setPort_only
    | with_reducible apply Only.foldl
    | (intro)

theorem fenceArrives_only {p : Parts} {s t : State} {r : Nat} {x2 : Nat} (hq : Parts.le { regs := true, fab := true, tor := true, ranks := true, quar := true } p = true) (h : Only p s t) : Only p s (fenceArrives t r x2) := by
  refine Only.step hq h ?_
  unfold fenceArrives
  try dsimp -zeta only
  repeat' first
    | with_reducible assumption
    | with_reducible exact Only.refl _ _
    | ((with_reducible refine Parts.leq ?_); rfl)
    | with_reducible apply State.rankFence_only
    | with_reducible apply State.dropFenced_only
    | (extract_lets +onlyGivenNames x; first
        | (refine Only.cut (p := { regs := true, fab := true, tor := true, ranks := true, quar := true }) (s := t) (x := x) (fun hx => ?_) ?_; clear_value x; revert x; intro y hy; rotate_left; unfold x; clear x)
        | (refine Only.cut1 (p := { regs := true, fab := true, tor := true, ranks := true, quar := true }) (s := t) (x := x) (fun hx => ?_) ?_; clear_value x; revert x; intro y hy; rotate_left; unfold x; clear x)
        | (refine Only.cut2 (p := { regs := true, fab := true, tor := true, ranks := true, quar := true }) (s := t) (x := x) (fun hx => ?_) ?_; clear_value x; revert x; intro y hy; rotate_left; unfold x; clear x)
        | (revert x; intro y))
    | simp (disch := with_unfolding_all (apply Parts.same; apply Eq.refl)) only [Only.set_iff]
    | with_reducible apply Only.foldl
    | with_reducible apply Only.foldl_fst
    | (refine Only.of_fst ‹_ = _› ?_)
    | (refine Only.of_snd ‹_ = _› ?_)
    | split
    | (intro)

theorem execFenceMessage_only {s u : State} {r : Nat} {ticket : Nat} (e : execFenceMessage r ticket s = .next u) : Only { regs := true, fab := true, tor := true, ranks := true, quar := true } s u := by
  unfold execFenceMessage at e
  injection e with e
  subst e
  try dsimp -zeta only
  repeat' first
    | with_reducible assumption
    | with_reducible exact Only.refl _ _
    | ((with_reducible refine Parts.leq ?_); rfl)
    | with_reducible apply fenceArrives_only
    | (extract_lets +onlyGivenNames x; first
        | (refine Only.cut (p := { regs := true, fab := true, tor := true, ranks := true, quar := true }) (s := s) (x := x) (fun hx => ?_) ?_; clear_value x; revert x; intro y hy; rotate_left; unfold x; clear x)
        | (refine Only.cut1 (p := { regs := true, fab := true, tor := true, ranks := true, quar := true }) (s := s) (x := x) (fun hx => ?_) ?_; clear_value x; revert x; intro y hy; rotate_left; unfold x; clear x)
        | (refine Only.cut2 (p := { regs := true, fab := true, tor := true, ranks := true, quar := true }) (s := s) (x := x) (fun hx => ?_) ?_; clear_value x; revert x; intro y hy; rotate_left; unfold x; clear x)
        | (revert x; intro y))
    | simp (disch := with_unfolding_all (apply Parts.same; apply Eq.refl)) only [Only.set_iff]
    | with_reducible apply Only.foldl
    | with_reducible apply Only.foldl_fst
    | (refine Only.of_fst ‹_ = _› ?_)
    | (refine Only.of_snd ‹_ = _› ?_)
    | split
    | (intro)

theorem execSteepFenceTimer_only {s u : State} {ticket : Nat} (e : execSteepFenceTimer ticket s = .next u) : Only { regs := true, clk := true, arr := true, quar := true } s u := by
  unfold execSteepFenceTimer at e
  injection e with e
  subst e
  repeat' first
    | with_reducible exact Only.refl _ _
    | ((with_reducible refine Parts.leq ?_); rfl)
    | with_reducible apply State.fenceTicket_only
    | with_reducible apply State.reach_only
    | split

theorem State.sealOut_only {p : Parts} {s t : State} {k : TicketSt} {page : Nat} (hq : Parts.le { hbm := true, staging := true, stagTag := true, dirty := true } p = true) (h : Only p s t) : Only p s (State.sealOut t k page) := by
  refine Only.step hq h ?_
  unfold State.sealOut
  try dsimp -zeta only
  repeat' first
    | with_reducible assumption
    | with_reducible exact Only.refl _ _
    | ((with_reducible refine Parts.leq ?_); rfl)
    | with_reducible apply State.sealPage_only
    | (extract_lets +onlyGivenNames x; first
        | (refine Only.cut (p := { hbm := true, staging := true, stagTag := true, dirty := true }) (s := t) (x := x) (fun hx => ?_) ?_; clear_value x; revert x; intro y hy; rotate_left; unfold x; clear x)
        | (refine Only.cut1 (p := { hbm := true, staging := true, stagTag := true, dirty := true }) (s := t) (x := x) (fun hx => ?_) ?_; clear_value x; revert x; intro y hy; rotate_left; unfold x; clear x)
        | (refine Only.cut2 (p := { hbm := true, staging := true, stagTag := true, dirty := true }) (s := t) (x := x) (fun hx => ?_) ?_; clear_value x; revert x; intro y hy; rotate_left; unfold x; clear x)
        | (revert x; intro y))
    | simp (disch := with_unfolding_all (apply Parts.same; apply Eq.refl)) only [Only.set_iff]
    | with_reducible apply Only.foldl
    | with_reducible apply Only.foldl_fst
    | (refine Only.of_fst ‹_ = _› ?_)
    | (refine Only.of_snd ‹_ = _› ?_)
    | split
    | (intro)

theorem State.releasePages_only {p : Parts} {s t : State} {x1 : Nat} (hq : Parts.le ((Parts.report.or Parts.memory).or { pages := true, waitRd := true, fab := true, tor := true, ranks := true, trelfort := true }) p = true) (h : Only p s t) : Only p s (State.releasePages t x1) := by
  refine Only.step hq h ?_
  unfold State.releasePages
  try dsimp -zeta only
  repeat' first
    | with_reducible assumption
    | with_reducible exact Only.refl _ _
    | ((with_reducible refine Parts.leq ?_); rfl)
    | with_reducible apply State.serveWaiting_only
    | with_reducible apply State.rankPageConfirmed_only
    | with_reducible apply State.dropPending_only
    | with_reducible apply State.sealOut_only
    | (extract_lets +onlyGivenNames x; first
        | (refine Only.cut (p := ((Parts.report.or Parts.memory).or { pages := true, waitRd := true, fab := true, tor := true, ranks := true, trelfort := true })) (s := t) (x := x) (fun hx => ?_) ?_; clear_value x; revert x; intro y hy; rotate_left; unfold x; clear x)
        | (refine Only.cut1 (p := ((Parts.report.or Parts.memory).or { pages := true, waitRd := true, fab := true, tor := true, ranks := true, trelfort := true })) (s := t) (x := x) (fun hx => ?_) ?_; clear_value x; revert x; intro y hy; rotate_left; unfold x; clear x)
        | (refine Only.cut2 (p := ((Parts.report.or Parts.memory).or { pages := true, waitRd := true, fab := true, tor := true, ranks := true, trelfort := true })) (s := t) (x := x) (fun hx => ?_) ?_; clear_value x; revert x; intro y hy; rotate_left; unfold x; clear x)
        | (revert x; intro y))
    | simp (disch := with_unfolding_all (apply Parts.same; apply Eq.refl)) only [Only.set_iff]
    | with_reducible apply Only.foldl
    | with_reducible apply Only.foldl_fst
    | (refine Only.of_fst ‹_ = _› ?_)
    | (refine Only.of_snd ‹_ = _› ?_)
    | split
    | (intro)

theorem State.failDesc_only {p : Parts} {s t : State} {n : Nat} {seq : Nat} {d : Done} (hq : Parts.le { started := true } p = true) (h : Only p s t) : Only p s (State.failDesc t n seq d) := by
  refine Only.step hq h ?_
  unfold State.failDesc
  repeat' first
    | with_reducible exact Only.refl _ _
    | ((with_reducible refine Parts.leq ?_); rfl)
    | with_reducible apply State.updStarted_only

theorem State.withdrawTile_only {p : Parts} {s t : State} {k : TicketSt} {f : Folded} {cls : Nat} (hq : Parts.le { regs := true, hbm := true, staging := true, stagTag := true, dirty := true, started := true, pages := true, arr := true } p = true) (h : Only p s t) : Only p s (State.withdrawTile t k f cls) := by
  refine Only.step hq h ?_
  unfold State.withdrawTile
  try dsimp -zeta only
  repeat' first
    | with_reducible assumption
    | with_reducible exact Only.refl _ _
    | ((with_reducible refine Parts.leq ?_); rfl)
    | with_reducible apply State.withdrawPage_only
    | with_reducible apply State.updTicket_only
    | with_reducible apply State.dropPending_only
    | with_reducible apply State.failDesc_only
    | with_reducible apply State.endRun_only
    | (extract_lets +onlyGivenNames x; first
        | (refine Only.cut (p := { regs := true, hbm := true, staging := true, stagTag := true, dirty := true, started := true, pages := true, arr := true }) (s := t) (x := x) (fun hx => ?_) ?_; clear_value x; revert x; intro y hy; rotate_left; unfold x; clear x)
        | (refine Only.cut1 (p := { regs := true, hbm := true, staging := true, stagTag := true, dirty := true, started := true, pages := true, arr := true }) (s := t) (x := x) (fun hx => ?_) ?_; clear_value x; revert x; intro y hy; rotate_left; unfold x; clear x)
        | (refine Only.cut2 (p := { regs := true, hbm := true, staging := true, stagTag := true, dirty := true, started := true, pages := true, arr := true }) (s := t) (x := x) (fun hx => ?_) ?_; clear_value x; revert x; intro y hy; rotate_left; unfold x; clear x)
        | (revert x; intro y))
    | simp (disch := with_unfolding_all (apply Parts.same; apply Eq.refl)) only [Only.set_iff]
    | with_reducible apply Only.foldl
    | with_reducible apply Only.foldl_fst
    | (refine Only.of_fst ‹_ = _› ?_)
    | (refine Only.of_snd ‹_ = _› ?_)
    | split
    | (intro)

theorem State.standTile_only {p : Parts} {s t : State} {x1 : Nat} {num : Nat} {st : Nat} (hq : Parts.le { arr := true } p = true) (h : Only p s t) : Only p s (State.standTile t x1 num st) := by
  refine Only.step hq h ?_
  unfold State.standTile
  repeat' first
    | with_reducible exact Only.refl _ _
    | ((with_reducible refine Parts.leq ?_); rfl)
    | with_reducible apply State.updTicket_only

theorem State.strained_only {p : Parts} {s t : State} {b : List Byte} {x2 : List Byte} {f : Folded} {failed : Bool} {check : Bool} (hq : Parts.le { obs := true } p = true) (h : Only p s t) : Only p s (State.strained t b x2 f failed check) := by
  refine Only.step hq h ?_
  unfold State.strained
  repeat' first
    | with_reducible exact Only.refl _ _
    | ((with_reducible refine Parts.leq ?_); rfl)
    | with_reducible apply State.evCount_only
    | with_reducible apply Only.foldl
    | (intro)

theorem verdict_only {p : Parts} {s t : State} {k : TicketSt} {f : Folded} {forced : Bool} (hq : Parts.le ((Parts.report.or Parts.memory).or { pages := true, waitRd := true, fab := true, tor := true, arr := true, ranks := true, quar := true, trelfort := true }) p = true) (h : Only p s t) : Only p s (verdict t k f forced) := by
  refine Only.step hq h ?_
  unfold verdict
  try dsimp -zeta only
  repeat' first
    | with_reducible assumption
    | with_reducible exact Only.refl _ _
    | ((with_reducible refine Parts.leq ?_); rfl)
    | with_reducible apply State.bump_only
    | with_reducible apply State.strained_only
    | with_reducible apply State.releasePages_only
    | with_reducible apply State.standTile_only
    | with_reducible apply State.fenceTicket_only
    | (extract_lets +onlyGivenNames x; first
        | (refine Only.cut (p := ((Parts.report.or Parts.memory).or { pages := true, waitRd := true, fab := true, tor := true, arr := true, ranks := true, quar := true, trelfort := true })) (s := t) (x := x) (fun hx => ?_) ?_; clear_value x; revert x; intro y hy; rotate_left; unfold x; clear x)
        | (refine Only.cut1 (p := ((Parts.report.or Parts.memory).or { pages := true, waitRd := true, fab := true, tor := true, arr := true, ranks := true, quar := true, trelfort := true })) (s := t) (x := x) (fun hx => ?_) ?_; clear_value x; revert x; intro y hy; rotate_left; unfold x; clear x)
        | (refine Only.cut2 (p := ((Parts.report.or Parts.memory).or { pages := true, waitRd := true, fab := true, tor := true, arr := true, ranks := true, quar := true, trelfort := true })) (s := t) (x := x) (fun hx => ?_) ?_; clear_value x; revert x; intro y hy; rotate_left; unfold x; clear x)
        | (revert x; intro y))
    | simp (disch := with_unfolding_all (apply Parts.same; apply Eq.refl)) only [Only.set_iff]
    | with_reducible apply Only.foldl
    | with_reducible apply Only.foldl_fst
    | (refine Only.of_fst ‹_ = _› ?_)
    | (refine Only.of_snd ‹_ = _› ?_)
    | split
    | (intro)

theorem execStrainerVerdict_only {s u : State} {ticket : Nat} {tile : Nat} {forced : Bool} (e : execStrainerVerdict ticket tile forced s = .next u) : Only ((Parts.report.or Parts.memory).or { pages := true, waitRd := true, fab := true, tor := true, arr := true, ranks := true, quar := true, trelfort := true }) s u := by
  unfold execStrainerVerdict at e
  injection e with e
  subst e
  try dsimp -zeta only
  repeat' first
    | with_reducible assumption
    | with_reducible exact Only.refl _ _
    | ((with_reducible refine Parts.leq ?_); rfl)
    | with_reducible apply verdict_only
    | (extract_lets +onlyGivenNames x; first
        | (refine Only.cut (p := ((Parts.report.or Parts.memory).or { pages := true, waitRd := true, fab := true, tor := true, arr := true, ranks := true, quar := true, trelfort := true })) (s := s) (x := x) (fun hx => ?_) ?_; clear_value x; revert x; intro y hy; rotate_left; unfold x; clear x)
        | (refine Only.cut1 (p := ((Parts.report.or Parts.memory).or { pages := true, waitRd := true, fab := true, tor := true, arr := true, ranks := true, quar := true, trelfort := true })) (s := s) (x := x) (fun hx => ?_) ?_; clear_value x; revert x; intro y hy; rotate_left; unfold x; clear x)
        | (refine Only.cut2 (p := ((Parts.report.or Parts.memory).or { pages := true, waitRd := true, fab := true, tor := true, arr := true, ranks := true, quar := true, trelfort := true })) (s := s) (x := x) (fun hx => ?_) ?_; clear_value x; revert x; intro y hy; rotate_left; unfold x; clear x)
        | (revert x; intro y))
    | simp (disch := with_unfolding_all (apply Parts.same; apply Eq.refl)) only [Only.set_iff]
    | with_reducible apply Only.foldl
    | with_reducible apply Only.foldl_fst
    | (refine Only.of_fst ‹_ = _› ?_)
    | (refine Only.of_snd ‹_ = _› ?_)
    | split
    | (intro)

theorem bothSuspect_only {p : Parts} {s t : State} {k : TicketSt} {f : Folded} {replay : Option Nat} (hq : Parts.le (Parts.report.or { hbm := true, staging := true, stagTag := true, dirty := true, started := true, pages := true, arr := true }) p = true) (h : Only p s t) : Only p s (bothSuspect t k f replay) := by
  refine Only.step hq h ?_
  unfold bothSuspect
  try dsimp -zeta only
  repeat' first
    | with_reducible assumption
    | with_reducible exact Only.refl _ _
    | ((with_reducible refine Parts.leq ?_); rfl)
    | with_reducible apply State.withdrawTile_only
    | with_reducible apply State.fenceBlock_only
    | with_reducible apply State.report_only
    | with_reducible apply State.bump_only
    | (extract_lets +onlyGivenNames x; first
        | (refine Only.cut (p := (Parts.report.or { hbm := true, staging := true, stagTag := true, dirty := true, started := true, pages := true, arr := true })) (s := t) (x := x) (fun hx => ?_) ?_; clear_value x; revert x; intro y hy; rotate_left; unfold x; clear x)
        | (refine Only.cut1 (p := (Parts.report.or { hbm := true, staging := true, stagTag := true, dirty := true, started := true, pages := true, arr := true })) (s := t) (x := x) (fun hx => ?_) ?_; clear_value x; revert x; intro y hy; rotate_left; unfold x; clear x)
        | (refine Only.cut2 (p := (Parts.report.or { hbm := true, staging := true, stagTag := true, dirty := true, started := true, pages := true, arr := true })) (s := t) (x := x) (fun hx => ?_) ?_; clear_value x; revert x; intro y hy; rotate_left; unfold x; clear x)
        | (revert x; intro y))
    | simp (disch := with_unfolding_all (apply Parts.same; apply Eq.refl)) only [Only.set_iff]
    | with_reducible apply Only.foldl
    | with_reducible apply Only.foldl_fst
    | (refine Only.of_fst ‹_ = _› ?_)
    | (refine Only.of_snd ‹_ = _› ?_)
    | split
    | (intro)

theorem strainerAtFault_only {p : Parts} {s t : State} {k : TicketSt} {f : Folded} {replay : Option Nat} (hq : Parts.le ((Parts.report.or Parts.memory).or { started := true, pages := true, waitRd := true, fab := true, tor := true, arr := true, ranks := true, trelfort := true }) p = true) (h : Only p s t) : Only p s (strainerAtFault t k f replay) := by
  refine Only.step hq h ?_
  unfold strainerAtFault
  try dsimp -zeta only
  repeat' first
    | with_reducible assumption
    | with_reducible exact Only.refl _ _
    | ((with_reducible refine Parts.leq ?_); rfl)
    | with_reducible apply State.report_only
    | with_reducible apply State.bump_only
    | with_reducible apply State.fenceCell_only
    | with_reducible apply State.putBit_only
    | with_reducible apply State.releasePages_only
    | with_reducible apply State.standTile_only
    | (extract_lets +onlyGivenNames x; first
        | (refine Only.cut (p := ((Parts.report.or Parts.memory).or { started := true, pages := true, waitRd := true, fab := true, tor := true, arr := true, ranks := true, trelfort := true })) (s := t) (x := x) (fun hx => ?_) ?_; clear_value x; revert x; intro y hy; rotate_left; unfold x; clear x)
        | (refine Only.cut1 (p := ((Parts.report.or Parts.memory).or { started := true, pages := true, waitRd := true, fab := true, tor := true, arr := true, ranks := true, trelfort := true })) (s := t) (x := x) (fun hx => ?_) ?_; clear_value x; revert x; intro y hy; rotate_left; unfold x; clear x)
        | (refine Only.cut2 (p := ((Parts.report.or Parts.memory).or { started := true, pages := true, waitRd := true, fab := true, tor := true, arr := true, ranks := true, trelfort := true })) (s := t) (x := x) (fun hx => ?_) ?_; clear_value x; revert x; intro y hy; rotate_left; unfold x; clear x)
        | (revert x; intro y))
    | simp (disch := with_unfolding_all (apply Parts.same; apply Eq.refl)) only [Only.set_iff]
    | with_reducible apply Only.foldl
    | with_reducible apply Only.foldl_fst
    | (refine Only.of_fst ‹_ = _› ?_)
    | (refine Only.of_snd ‹_ = _› ?_)
    | split
    | (intro)

theorem State.rewriteTile_only {p : Parts} {s t : State} {k : TicketSt} {x : TileP} {g : Folded} (hq : Parts.le ((Parts.report.or Parts.memory).or { started := true, heldWr := true, arr := true, sump := true }) p = true) (h : Only p s t) : Only p s (State.rewriteTile t k x g) := by
  refine Only.step hq h ?_
  unfold State.rewriteTile
  try dsimp -zeta only
  repeat' first
    | with_reducible assumption
    | with_reducible exact Only.refl _ _
    | ((with_reducible refine Parts.leq ?_); rfl)
    | with_reducible apply State.engWrite_only
    | (extract_lets +onlyGivenNames x; first
        | (refine Only.cut (p := ((Parts.report.or Parts.memory).or { started := true, heldWr := true, arr := true, sump := true })) (s := t) (x := x) (fun hx => ?_) ?_; clear_value x; revert x; intro y hy; rotate_left; unfold x; clear x)
        | (refine Only.cut1 (p := ((Parts.report.or Parts.memory).or { started := true, heldWr := true, arr := true, sump := true })) (s := t) (x := x) (fun hx => ?_) ?_; clear_value x; revert x; intro y hy; rotate_left; unfold x; clear x)
        | (refine Only.cut2 (p := ((Parts.report.or Parts.memory).or { started := true, heldWr := true, arr := true, sump := true })) (s := t) (x := x) (fun hx => ?_) ?_; clear_value x; revert x; intro y hy; rotate_left; unfold x; clear x)
        | (revert x; intro y))
    | simp (disch := with_unfolding_all (apply Parts.same; apply Eq.refl)) only [Only.set_iff]
    | with_reducible apply Only.foldl
    | with_reducible apply Only.foldl_fst
    | (refine Only.of_fst ‹_ = _› ?_)
    | (refine Only.of_snd ‹_ = _› ?_)
    | split
    | (intro)

theorem resultAtFault_only {p : Parts} {s t : State} {k : TicketSt} {f : Folded} {g : Folded} {replay : Option Nat} (hq : Parts.le ((Parts.report.or Parts.memory).or { started := true, pages := true, heldWr := true, waitRd := true, fab := true, tor := true, arr := true, sump := true, ranks := true, trelfort := true }) p = true) (h : Only p s t) : Only p s (resultAtFault t k f g replay) := by
  refine Only.step hq h ?_
  unfold resultAtFault
  try dsimp -zeta only
  repeat' first
    | with_reducible assumption
    | with_reducible exact Only.refl _ _
    | ((with_reducible refine Parts.leq ?_); rfl)
    | with_reducible apply State.rewriteTile_only
    | with_reducible apply State.updTicket_only
    | with_reducible apply State.bump_only
    | with_reducible apply State.fenceCell_only
    | with_reducible apply State.releasePages_only
    | with_reducible apply State.report_only
    | (extract_lets +onlyGivenNames x; first
        | (refine Only.cut (p := ((Parts.report.or Parts.memory).or { started := true, pages := true, heldWr := true, waitRd := true, fab := true, tor := true, arr := true, sump := true, ranks := true, trelfort := true })) (s := t) (x := x) (fun hx => ?_) ?_; clear_value x; revert x; intro y hy; rotate_left; unfold x; clear x)
        | (refine Only.cut1 (p := ((Parts.report.or Parts.memory).or { started := true, pages := true, heldWr := true, waitRd := true, fab := true, tor := true, arr := true, sump := true, ranks := true, trelfort := true })) (s := t) (x := x) (fun hx => ?_) ?_; clear_value x; revert x; intro y hy; rotate_left; unfold x; clear x)
        | (refine Only.cut2 (p := ((Parts.report.or Parts.memory).or { started := true, pages := true, heldWr := true, waitRd := true, fab := true, tor := true, arr := true, sump := true, ranks := true, trelfort := true })) (s := t) (x := x) (fun hx => ?_) ?_; clear_value x; revert x; intro y hy; rotate_left; unfold x; clear x)
        | (revert x; intro y))
    | simp (disch := with_unfolding_all (apply Parts.same; apply Eq.refl)) only [Only.set_iff]
    | with_reducible apply Only.foldl
    | with_reducible apply Only.foldl_fst
    | (refine Only.of_fst ‹_ = _› ?_)
    | (refine Only.of_snd ‹_ = _› ?_)
    | split
    | (intro)

theorem replay_only {p : Parts} {s t : State} {k : TicketSt} {f : Folded} {forced : Bool} {fault : List (Nat × Nat)} (hq : Parts.le ((Parts.report.or Parts.memory).or { started := true, pages := true, heldWr := true, waitRd := true, fab := true, tor := true, arr := true, sump := true, ranks := true, trelfort := true }) p = true) (h : Only p s t) :
    Only p s (replay t k f forced fault) := by
  unfold replay
  split
  · exact bothSuspect_only (Parts.le_trans rfl hq) h
  · rename_i c _
    extract_lets q
    have hq2 : Only p s q.1 := State.awareChecks_only (Parts.le_trans rfl hq) h
    split
    · exact State.withdrawTile_only (Parts.le_trans rfl hq) hq2
    · rename_i x g bad s1 _ _
      have h1 : Only p s s1 := State.strained_only (Parts.le_trans rfl hq) (State.recomputed_only (Parts.le_trans rfl hq) hq2)
      exact Only.ite (bothSuspect_only (Parts.le_trans rfl hq) h1)
        (Only.ite (strainerAtFault_only (Parts.le_trans rfl hq) h1) (resultAtFault_only (Parts.le_trans rfl hq) h1))

theorem execReplayJudge_only {s u : State} {ticket : Nat} {forced : Bool} {fault : List (Nat × Nat)} {ecc : EccFinds} (e : execReplayJudge ticket forced fault ecc s = .next u) : Only ((Parts.report.or Parts.memory).or { started := true, pages := true, heldWr := true, waitRd := true, fab := true, tor := true, arr := true, sump := true, ranks := true, trelfort := true }) s u := by
  unfold execReplayJudge at e
  injection e with e
  subst e
  try dsimp -zeta only
  repeat' first
    | with_reducible assumption
    | with_reducible exact Only.refl _ _
    | ((with_reducible refine Parts.leq ?_); rfl)
    | with_reducible apply State.eccAll_only
    | with_reducible apply replay_only
    | (extract_lets +onlyGivenNames x; first
        | (refine Only.cut (p := ((Parts.report.or Parts.memory).or { started := true, pages := true, heldWr := true, waitRd := true, fab := true, tor := true, arr := true, sump := true, ranks := true, trelfort := true })) (s := s) (x := x) (fun hx => ?_) ?_; clear_value x; revert x; intro y hy; rotate_left; unfold x; clear x)
        | (refine Only.cut1 (p := ((Parts.report.or Parts.memory).or { started := true, pages := true, heldWr := true, waitRd := true, fab := true, tor := true, arr := true, sump := true, ranks := true, trelfort := true })) (s := s) (x := x) (fun hx => ?_) ?_; clear_value x; revert x; intro y hy; rotate_left; unfold x; clear x)
        | (refine Only.cut2 (p := ((Parts.report.or Parts.memory).or { started := true, pages := true, heldWr := true, waitRd := true, fab := true, tor := true, arr := true, sump := true, ranks := true, trelfort := true })) (s := s) (x := x) (fun hx => ?_) ?_; clear_value x; revert x; intro y hy; rotate_left; unfold x; clear x)
        | (revert x; intro y))
    | simp (disch := with_unfolding_all (apply Parts.same; apply Eq.refl)) only [Only.set_iff]
    | with_reducible apply Only.foldl
    | with_reducible apply Only.foldl_fst
    | (refine Only.of_fst ‹_ = _› ?_)
    | (refine Only.of_snd ‹_ = _› ?_)
    | split
    | (intro)

theorem State.withdrawDisagreements_only {p : Parts} {s t : State}  (hq : Parts.le { regs := true, hbm := true, staging := true, stagTag := true, dirty := true, started := true, pages := true, arr := true } p = true) (h : Only p s t) : Only p s (State.withdrawDisagreements t) := by
  refine Only.step hq h ?_
  unfold State.withdrawDisagreements
  try dsimp -zeta only
  repeat' first
    | with_reducible assumption
    | with_reducible exact Only.refl _ _
    | ((with_reducible refine Parts.leq ?_); rfl)
    | with_reducible apply State.withdrawTile_only
    | (extract_lets +onlyGivenNames x; first
        | (refine Only.cut (p := { regs := true, hbm := true, staging := true, stagTag := true, dirty := true, started := true, pages := true, arr := true }) (s := t) (x := x) (fun hx => ?_) ?_; clear_value x; revert x; intro y hy; rotate_left; unfold x; clear x)
        | (refine Only.cut1 (p := { regs := true, hbm := true, staging := true, stagTag := true, dirty := true, started := true, pages := true, arr := true }) (s := t) (x := x) (fun hx => ?_) ?_; clear_value x; revert x; intro y hy; rotate_left; unfold x; clear x)
        | (refine Only.cut2 (p := { regs := true, hbm := true, staging := true, stagTag := true, dirty := true, started := true, pages := true, arr := true }) (s := t) (x := x) (fun hx => ?_) ?_; clear_value x; revert x; intro y hy; rotate_left; unfold x; clear x)
        | (revert x; intro y))
    | simp (disch := with_unfolding_all (apply Parts.same; apply Eq.refl)) only [Only.set_iff]
    | with_reducible apply Only.foldl
    | with_reducible apply Only.foldl_fst
    | (refine Only.of_fst ‹_ = _› ?_)
    | (refine Only.of_snd ‹_ = _› ?_)
    | split
    | (intro)

theorem State.rerun_only {p : Parts} {s t : State} {r : ArrRun} {d : Started} {active : List Nat} (hq : Parts.le { regs := true, obs := true, arr := true } p = true) (h : Only p s t) : Only p s (State.rerun t r d active) := by
  refine Only.step hq h ?_
  unfold State.rerun
  repeat' first
    | with_reducible exact Only.refl _ _
    | ((with_reducible refine Parts.leq ?_); rfl)
    | with_reducible apply State.updTicket_only
    | with_reducible apply State.uncount_only
    | with_reducible apply State.setRun_only
    | simp (disch := with_unfolding_all (apply Parts.same; apply Eq.refl)) only [Only.set_iff]

theorem State.thirdMismatch_only {p : Parts} {s t : State} {r : ArrRun} {d : Started} {block : Nat} (hq : Parts.le { regs := true, hbm := true, staging := true, stagTag := true, dirty := true, started := true, pages := true, arr := true } p = true) (h : Only p s t) : Only p s (State.thirdMismatch t r d block) := by
  refine Only.step hq h ?_
  unfold State.thirdMismatch
  try dsimp -zeta only
  repeat' first
    | with_reducible assumption
    | with_reducible exact Only.refl _ _
    | ((with_reducible refine Parts.leq ?_); rfl)
    | with_reducible apply State.dropPending_only
    | with_reducible apply State.withdrawPage_only
    | with_reducible apply State.updTicket_only
    | with_reducible apply State.endRun_only
    | with_reducible apply State.setDone_only
    | (extract_lets +onlyGivenNames x; first
        | (refine Only.cut (p := { regs := true, hbm := true, staging := true, stagTag := true, dirty := true, started := true, pages := true, arr := true }) (s := t) (x := x) (fun hx => ?_) ?_; clear_value x; revert x; intro y hy; rotate_left; unfold x; clear x)
        | (refine Only.cut1 (p := { regs := true, hbm := true, staging := true, stagTag := true, dirty := true, started := true, pages := true, arr := true }) (s := t) (x := x) (fun hx => ?_) ?_; clear_value x; revert x; intro y hy; rotate_left; unfold x; clear x)
        | (refine Only.cut2 (p := { regs := true, hbm := true, staging := true, stagTag := true, dirty := true, started := true, pages := true, arr := true }) (s := t) (x := x) (fun hx => ?_) ?_; clear_value x; revert x; intro y hy; rotate_left; unfold x; clear x)
        | (revert x; intro y))
    | simp (disch := with_unfolding_all (apply Parts.same; apply Eq.refl)) only [Only.set_iff]
    | with_reducible apply Only.foldl
    | with_reducible apply Only.foldl_fst
    | (refine Only.of_fst ‹_ = _› ?_)
    | (refine Only.of_snd ‹_ = _› ?_)
    | split
    | (intro)

theorem lockstep_only {p : Parts} {s t : State} {b : Nat} (hq : Parts.le (Parts.report.or { hbm := true, staging := true, stagTag := true, dirty := true, started := true, pages := true, arr := true, quar := true }) p = true) (h : Only p s t) : Only p s (lockstep t b) := by
  refine Only.step hq h ?_
  unfold lockstep
  try dsimp -zeta only
  repeat' first
    | with_reducible assumption
    | with_reducible exact Only.refl _ _
    | ((with_reducible refine Parts.leq ?_); rfl)
    | with_reducible apply State.putBit_only
    | with_reducible apply State.report_only
    | with_reducible apply State.fenceTicket_only
    | with_reducible apply State.thirdMismatch_only
    | with_reducible apply State.failRun_only
    | with_reducible apply State.rerun_only
    | (extract_lets +onlyGivenNames x; first
        | (refine Only.cut (p := (Parts.report.or { hbm := true, staging := true, stagTag := true, dirty := true, started := true, pages := true, arr := true, quar := true })) (s := t) (x := x) (fun hx => ?_) ?_; clear_value x; revert x; intro y hy; rotate_left; unfold x; clear x)
        | (refine Only.cut1 (p := (Parts.report.or { hbm := true, staging := true, stagTag := true, dirty := true, started := true, pages := true, arr := true, quar := true })) (s := t) (x := x) (fun hx => ?_) ?_; clear_value x; revert x; intro y hy; rotate_left; unfold x; clear x)
        | (refine Only.cut2 (p := (Parts.report.or { hbm := true, staging := true, stagTag := true, dirty := true, started := true, pages := true, arr := true, quar := true })) (s := t) (x := x) (fun hx => ?_) ?_; clear_value x; revert x; intro y hy; rotate_left; unfold x; clear x)
        | (revert x; intro y))
    | simp (disch := with_unfolding_all (apply Parts.same; apply Eq.refl)) only [Only.set_iff]
    | with_reducible apply Only.foldl
    | with_reducible apply Only.foldl_fst
    | (refine Only.of_fst ‹_ = _› ?_)
    | (refine Only.of_snd ‹_ = _› ?_)
    | split
    | (intro)

theorem execLockstepMismatch_only {s u : State} {block : Nat} (e : execLockstepMismatch block s = .next u) : Only (Parts.report.or { hbm := true, staging := true, stagTag := true, dirty := true, started := true, pages := true, arr := true, quar := true }) s u := by
  unfold execLockstepMismatch at e
  injection e with e
  subst e
  try dsimp -zeta only
  repeat' first
    | with_reducible assumption
    | with_reducible exact Only.refl _ _
    | ((with_reducible refine Parts.leq ?_); rfl)
    | with_reducible apply lockstep_only
    | (extract_lets +onlyGivenNames x; first
        | (refine Only.cut (p := (Parts.report.or { hbm := true, staging := true, stagTag := true, dirty := true, started := true, pages := true, arr := true, quar := true })) (s := s) (x := x) (fun hx => ?_) ?_; clear_value x; revert x; intro y hy; rotate_left; unfold x; clear x)
        | (refine Only.cut1 (p := (Parts.report.or { hbm := true, staging := true, stagTag := true, dirty := true, started := true, pages := true, arr := true, quar := true })) (s := s) (x := x) (fun hx => ?_) ?_; clear_value x; revert x; intro y hy; rotate_left; unfold x; clear x)
        | (refine Only.cut2 (p := (Parts.report.or { hbm := true, staging := true, stagTag := true, dirty := true, started := true, pages := true, arr := true, quar := true })) (s := s) (x := x) (fun hx => ?_) ?_; clear_value x; revert x; intro y hy; rotate_left; unfold x; clear x)
        | (revert x; intro y))
    | simp (disch := with_unfolding_all (apply Parts.same; apply Eq.refl)) only [Only.set_iff]
    | with_reducible apply Only.foldl
    | with_reducible apply Only.foldl_fst
    | (refine Only.of_fst ‹_ = _› ?_)
    | (refine Only.of_snd ‹_ = _› ?_)
    | split
    | (intro)

theorem State.settleUnconf_only {p : Parts} {s t : State} {k : TicketSt} {x2 : Unconf} (hq : Parts.le ((Parts.report.or Parts.memory).or { hostW := true, pcie := true, heldWr := true, order := true, fab := true, tor := true, arr := true }) p = true) (h : Only p s t) : Only p s (State.settleUnconf t k x2) := by
  refine Only.step hq h ?_
  unfold State.settleUnconf
  try dsimp -zeta only
  repeat' first
    | with_reducible assumption
    | with_reducible exact Only.refl _ _
    | ((with_reducible refine Parts.leq ?_); rfl)
    | with_reducible apply State.release_only
    | with_reducible apply State.putRecord_only
    | (extract_lets +onlyGivenNames x; first
        | (refine Only.cut (p := ((Parts.report.or Parts.memory).or { hostW := true, pcie := true, heldWr := true, order := true, fab := true, tor := true, arr := true })) (s := t) (x := x) (fun hx => ?_) ?_; clear_value x; revert x; intro y hy; rotate_left; unfold x; clear x)
        | (refine Only.cut1 (p := ((Parts.report.or Parts.memory).or { hostW := true, pcie := true, heldWr := true, order := true, fab := true, tor := true, arr := true })) (s := t) (x := x) (fun hx => ?_) ?_; clear_value x; revert x; intro y hy; rotate_left; unfold x; clear x)
        | (refine Only.cut2 (p := ((Parts.report.or Parts.memory).or { hostW := true, pcie := true, heldWr := true, order := true, fab := true, tor := true, arr := true })) (s := t) (x := x) (fun hx => ?_) ?_; clear_value x; revert x; intro y hy; rotate_left; unfold x; clear x)
        | (revert x; intro y))
    | simp (disch := with_unfolding_all (apply Parts.same; apply Eq.refl)) only [Only.set_iff]
    | with_reducible apply Only.foldl
    | with_reducible apply Only.foldl_fst
    | (refine Only.of_fst ‹_ = _› ?_)
    | (refine Only.of_snd ‹_ = _› ?_)
    | split
    | (intro)

theorem State.settle_only {p : Parts} {s t : State} {k : TicketSt} (hq : Parts.le ((Parts.report.or Parts.memory).or { hostW := true, started := true, unconf := true, pcie := true, pages := true, heldWr := true, waitRd := true, order := true, fab := true, tor := true, arr := true, ranks := true, quar := true, trelfort := true }) p = true) (h : Only p s t) : Only p s (State.settle t k) := by
  refine Only.step hq h ?_
  unfold State.settle
  try dsimp -zeta only
  repeat' first
    | with_reducible assumption
    | with_reducible exact Only.refl _ _
    | ((with_reducible refine Parts.leq ?_); rfl)
    | with_reducible apply State.releasePages_only
    | with_reducible apply State.dropPending_only
    | with_reducible apply State.withdrawPage_only
    | with_reducible apply State.count_only
    | with_reducible apply State.settleUnconf_only
    | with_reducible apply State.serveWaiting_only
    | with_reducible apply State.rankSettled_only
    | (extract_lets +onlyGivenNames x; first
        | (refine Only.cut (p := ((Parts.report.or Parts.memory).or { hostW := true, started := true, unconf := true, pcie := true, pages := true, heldWr := true, waitRd := true, order := true, fab := true, tor := true, arr := true, ranks := true, quar := true, trelfort := true })) (s := t) (x := x) (fun hx => ?_) ?_; clear_value x; revert x; intro y hy; rotate_left; unfold x; clear x)
        | (refine Only.cut1 (p := ((Parts.report.or Parts.memory).or { hostW := true, started := true, unconf := true, pcie := true, pages := true, heldWr := true, waitRd := true, order := true, fab := true, tor := true, arr := true, ranks := true, quar := true, trelfort := true })) (s := t) (x := x) (fun hx => ?_) ?_; clear_value x; revert x; intro y hy; rotate_left; unfold x; clear x)
        | (refine Only.cut2 (p := ((Parts.report.or Parts.memory).or { hostW := true, started := true, unconf := true, pcie := true, pages := true, heldWr := true, waitRd := true, order := true, fab := true, tor := true, arr := true, ranks := true, quar := true, trelfort := true })) (s := t) (x := x) (fun hx => ?_) ?_; clear_value x; revert x; intro y hy; rotate_left; unfold x; clear x)
        | (revert x; intro y))
    | with_reducible apply Only.foldl
    | with_reducible apply Only.foldl_fst
    | (refine Only.of_fst ‹_ = _› ?_)
    | (refine Only.of_snd ‹_ = _› ?_)
    | split
    | (intro)
    | refine Only.set (Parts.Agree.rest (by constructor; rfl; all_goals (intro k; first | exact absurd k (by decide) | rfl))) ?_

theorem execTicketSettle_only {s u : State}  (e : execTicketSettle s = .next u) : Only ((Parts.report.or Parts.memory).or { hostW := true, started := true, unconf := true, pcie := true, pages := true, heldWr := true, waitRd := true, order := true, fab := true, tor := true, arr := true, ranks := true, quar := true, trelfort := true }) s u := by
  unfold execTicketSettle at e
  injection e with e
  subst e
  try dsimp -zeta only
  repeat' first
    | with_reducible assumption
    | with_reducible exact Only.refl _ _
    | ((with_reducible refine Parts.leq ?_); rfl)
    | with_reducible apply State.settle_only
    | (extract_lets +onlyGivenNames x; first
        | (refine Only.cut (p := ((Parts.report.or Parts.memory).or { hostW := true, started := true, unconf := true, pcie := true, pages := true, heldWr := true, waitRd := true, order := true, fab := true, tor := true, arr := true, ranks := true, quar := true, trelfort := true })) (s := s) (x := x) (fun hx => ?_) ?_; clear_value x; revert x; intro y hy; rotate_left; unfold x; clear x)
        | (refine Only.cut1 (p := ((Parts.report.or Parts.memory).or { hostW := true, started := true, unconf := true, pcie := true, pages := true, heldWr := true, waitRd := true, order := true, fab := true, tor := true, arr := true, ranks := true, quar := true, trelfort := true })) (s := s) (x := x) (fun hx => ?_) ?_; clear_value x; revert x; intro y hy; rotate_left; unfold x; clear x)
        | (refine Only.cut2 (p := ((Parts.report.or Parts.memory).or { hostW := true, started := true, unconf := true, pcie := true, pages := true, heldWr := true, waitRd := true, order := true, fab := true, tor := true, arr := true, ranks := true, quar := true, trelfort := true })) (s := s) (x := x) (fun hx => ?_) ?_; clear_value x; revert x; intro y hy; rotate_left; unfold x; clear x)
        | (revert x; intro y))
    | simp (disch := with_unfolding_all (apply Parts.same; apply Eq.refl)) only [Only.set_iff]
    | with_reducible apply Only.foldl
    | with_reducible apply Only.foldl_fst
    | (refine Only.of_fst ‹_ = _› ?_)
    | (refine Only.of_snd ‹_ = _› ?_)
    | split
    | (intro)

theorem State.writeItem_only {p : Parts} {s t : State} {r : Nat} {src : Nat} {data : List (Nat × List Byte)} (hq : Parts.le ((Parts.report.or Parts.memory).or { heldWr := true, order := true, fab := true, tor := true, arr := true }) p = true) (h : Only p s t) : Only p s (State.writeItem t r src data) := by
  refine Only.step hq h ?_
  unfold State.writeItem
  try dsimp -zeta only
  repeat' first
    | with_reducible assumption
    | with_reducible exact Only.refl _ _
    | ((with_reducible refine Parts.leq ?_); rfl)
    | with_reducible apply State.gwrite_only
    | (extract_lets +onlyGivenNames x; first
        | (refine Only.cut (p := ((Parts.report.or Parts.memory).or { heldWr := true, order := true, fab := true, tor := true, arr := true })) (s := t) (x := x) (fun hx => ?_) ?_; clear_value x; revert x; intro y hy; rotate_left; unfold x; clear x)
        | (refine Only.cut1 (p := ((Parts.report.or Parts.memory).or { heldWr := true, order := true, fab := true, tor := true, arr := true })) (s := t) (x := x) (fun hx => ?_) ?_; clear_value x; revert x; intro y hy; rotate_left; unfold x; clear x)
        | (refine Only.cut2 (p := ((Parts.report.or Parts.memory).or { heldWr := true, order := true, fab := true, tor := true, arr := true })) (s := t) (x := x) (fun hx => ?_) ?_; clear_value x; revert x; intro y hy; rotate_left; unfold x; clear x)
        | (revert x; intro y))
    | simp (disch := with_unfolding_all (apply Parts.same; apply Eq.refl)) only [Only.set_iff]
    | with_reducible apply Only.foldl
    | with_reducible apply Only.foldl_fst
    | (refine Only.of_fst ‹_ = _› ?_)
    | (refine Only.of_snd ‹_ = _› ?_)
    | split
    | (intro)

theorem quarantine_only {p : Parts} {s t : State} {r : Nat} {k : Packet} (hq : Parts.le ((Parts.report.or Parts.memory).or { heldWr := true, order := true, fab := true, tor := true, arr := true, quar := true }) p = true) (h : Only p s t) : Only p s (quarantine t r k) := by
  refine Only.step hq h ?_
  unfold quarantine
  try dsimp -zeta only
  repeat' first
    | with_reducible assumption
    | with_reducible exact Only.refl _ _
    | ((with_reducible refine Parts.leq ?_); rfl)
    | with_reducible apply State.writeItem_only
    | (extract_lets +onlyGivenNames x; first
        | (refine Only.cut (p := ((Parts.report.or Parts.memory).or { heldWr := true, order := true, fab := true, tor := true, arr := true, quar := true })) (s := t) (x := x) (fun hx => ?_) ?_; clear_value x; revert x; intro y hy; rotate_left; unfold x; clear x)
        | (refine Only.cut1 (p := ((Parts.report.or Parts.memory).or { heldWr := true, order := true, fab := true, tor := true, arr := true, quar := true })) (s := t) (x := x) (fun hx => ?_) ?_; clear_value x; revert x; intro y hy; rotate_left; unfold x; clear x)
        | (refine Only.cut2 (p := ((Parts.report.or Parts.memory).or { heldWr := true, order := true, fab := true, tor := true, arr := true, quar := true })) (s := t) (x := x) (fun hx => ?_) ?_; clear_value x; revert x; intro y hy; rotate_left; unfold x; clear x)
        | (revert x; intro y))
    | simp (disch := with_unfolding_all (apply Parts.same; apply Eq.refl)) only [Only.set_iff]
    | with_reducible apply Only.foldl
    | with_reducible apply Only.foldl_fst
    | (refine Only.of_fst ‹_ = _› ?_)
    | (refine Only.of_snd ‹_ = _› ?_)
    | split
    | (intro)

theorem execUnconfirmedWriteReceive_only {s u : State} {r : Nat} {pkt : Packet} (e : execUnconfirmedWriteReceive r pkt s = .next u) : Only ((Parts.report.or Parts.memory).or { heldWr := true, order := true, fab := true, tor := true, arr := true, quar := true }) s u := by
  unfold execUnconfirmedWriteReceive at e
  injection e with e
  subst e
  try dsimp -zeta only
  repeat' first
    | with_reducible assumption
    | with_reducible exact Only.refl _ _
    | ((with_reducible refine Parts.leq ?_); rfl)
    | refine State.take_only ?_ ?_ ‹_›
    | refine State.take_only ?_ ?_ (some_of_ite ‹_›)
    | with_reducible apply quarantine_only
    | (extract_lets +onlyGivenNames x; first
        | (refine Only.cut (p := ((Parts.report.or Parts.memory).or { heldWr := true, order := true, fab := true, tor := true, arr := true, quar := true })) (s := s) (x := x) (fun hx => ?_) ?_; clear_value x; revert x; intro y hy; rotate_left; unfold x; clear x)
        | (refine Only.cut1 (p := ((Parts.report.or Parts.memory).or { heldWr := true, order := true, fab := true, tor := true, arr := true, quar := true })) (s := s) (x := x) (fun hx => ?_) ?_; clear_value x; revert x; intro y hy; rotate_left; unfold x; clear x)
        | (refine Only.cut2 (p := ((Parts.report.or Parts.memory).or { heldWr := true, order := true, fab := true, tor := true, arr := true, quar := true })) (s := s) (x := x) (fun hx => ?_) ?_; clear_value x; revert x; intro y hy; rotate_left; unfold x; clear x)
        | (revert x; intro y))
    | simp (disch := with_unfolding_all (apply Parts.same; apply Eq.refl)) only [Only.set_iff]
    | with_reducible apply Only.foldl
    | with_reducible apply Only.foldl_fst
    | (refine Only.of_fst ‹_ = _› ?_)
    | (refine Only.of_snd ‹_ = _› ?_)
    | split
    | (intro)

theorem State.dropItem_only {p : Parts} {s t : State} {i : QItem} {kind : Nat} (hq : Parts.le { quar := true } p = true) (h : Only p s t) : Only p s (State.dropItem t i kind) := by
  refine Only.step hq h ?_
  unfold State.dropItem
  repeat' first
    | with_reducible exact Only.refl _ _
    | ((with_reducible refine Parts.leq ?_); rfl)
    | simp (disch := with_unfolding_all (apply Parts.same; apply Eq.refl)) only [Only.set_iff]

theorem writeConfirmed_only {p : Parts} {s t : State} {k : Packet} (hq : Parts.le ((Parts.report.or Parts.memory).or { heldWr := true, order := true, fab := true, tor := true, arr := true, quar := true }) p = true) (h : Only p s t) : Only p s (writeConfirmed t k) := by
  refine Only.step hq h ?_
  unfold writeConfirmed
  try dsimp -zeta only
  repeat' first
    | with_reducible assumption
    | with_reducible exact Only.refl _ _
    | ((with_reducible refine Parts.leq ?_); rfl)
    | with_reducible apply State.keepEarly_only
    | with_reducible apply State.writeItem_only
    | with_reducible apply State.dropItem_only
    | (extract_lets +onlyGivenNames x; first
        | (refine Only.cut (p := ((Parts.report.or Parts.memory).or { heldWr := true, order := true, fab := true, tor := true, arr := true, quar := true })) (s := t) (x := x) (fun hx => ?_) ?_; clear_value x; revert x; intro y hy; rotate_left; unfold x; clear x)
        | (refine Only.cut1 (p := ((Parts.report.or Parts.memory).or { heldWr := true, order := true, fab := true, tor := true, arr := true, quar := true })) (s := t) (x := x) (fun hx => ?_) ?_; clear_value x; revert x; intro y hy; rotate_left; unfold x; clear x)
        | (refine Only.cut2 (p := ((Parts.report.or Parts.memory).or { heldWr := true, order := true, fab := true, tor := true, arr := true, quar := true })) (s := t) (x := x) (fun hx => ?_) ?_; clear_value x; revert x; intro y hy; rotate_left; unfold x; clear x)
        | (revert x; intro y))
    | simp (disch := with_unfolding_all (apply Parts.same; apply Eq.refl)) only [Only.set_iff]
    | with_reducible apply Only.foldl
    | with_reducible apply Only.foldl_fst
    | (refine Only.of_fst ‹_ = _› ?_)
    | (refine Only.of_snd ‹_ = _› ?_)
    | split
    | (intro)

theorem execWriteConfirm_only {s u : State} {r : Nat} {pkt : Packet} (e : execWriteConfirm r pkt s = .next u) : Only ((Parts.report.or Parts.memory).or { heldWr := true, order := true, fab := true, tor := true, arr := true, quar := true }) s u := by
  unfold execWriteConfirm at e
  injection e with e
  subst e
  try dsimp -zeta only
  repeat' first
    | with_reducible assumption
    | with_reducible exact Only.refl _ _
    | ((with_reducible refine Parts.leq ?_); rfl)
    | refine State.take_only ?_ ?_ ‹_›
    | refine State.take_only ?_ ?_ (some_of_ite ‹_›)
    | with_reducible apply writeConfirmed_only
    | (extract_lets +onlyGivenNames x; first
        | (refine Only.cut (p := ((Parts.report.or Parts.memory).or { heldWr := true, order := true, fab := true, tor := true, arr := true, quar := true })) (s := s) (x := x) (fun hx => ?_) ?_; clear_value x; revert x; intro y hy; rotate_left; unfold x; clear x)
        | (refine Only.cut1 (p := ((Parts.report.or Parts.memory).or { heldWr := true, order := true, fab := true, tor := true, arr := true, quar := true })) (s := s) (x := x) (fun hx => ?_) ?_; clear_value x; revert x; intro y hy; rotate_left; unfold x; clear x)
        | (refine Only.cut2 (p := ((Parts.report.or Parts.memory).or { heldWr := true, order := true, fab := true, tor := true, arr := true, quar := true })) (s := s) (x := x) (fun hx => ?_) ?_; clear_value x; revert x; intro y hy; rotate_left; unfold x; clear x)
        | (revert x; intro y))
    | simp (disch := with_unfolding_all (apply Parts.same; apply Eq.refl)) only [Only.set_iff]
    | with_reducible apply Only.foldl
    | with_reducible apply Only.foldl_fst
    | (refine Only.of_fst ‹_ = _› ?_)
    | (refine Only.of_snd ‹_ = _› ?_)
    | split
    | (intro)

theorem writeRetracted_only {p : Parts} {s t : State} {r : Nat} {k : Packet} (hq : Parts.le (Parts.report.or { quar := true }) p = true) (h : Only p s t) : Only p s (writeRetracted t r k) := by
  refine Only.step hq h ?_
  unfold writeRetracted
  repeat' first
    | with_reducible exact Only.refl _ _
    | ((with_reducible refine Parts.leq ?_); rfl)
    | with_reducible apply State.keepEarly_only
    | with_reducible apply State.dropItem_only
    | with_reducible apply State.report_only
    | (extract_lets +onlyGivenNames x; first
        | (revert x; intro y))
    | split

theorem execWriteRetract_only {s u : State} {r : Nat} {pkt : Packet} (e : execWriteRetract r pkt s = .next u) : Only (Parts.report.or { fab := true, quar := true }) s u := by
  unfold execWriteRetract at e
  injection e with e
  subst e
  repeat' first
    | with_reducible exact Only.refl _ _
    | ((with_reducible refine Parts.leq ?_); rfl)
    | refine State.take_only ?_ ?_ ‹_›
    | with_reducible apply writeRetracted_only
    | split

theorem execSteepWindowExpire_only {s u : State} {src : Nat} {item : Nat} (e : execSteepWindowExpire src item s = .next u) : Only (Parts.report.or { clk := true, quar := true }) s u := by
  unfold execSteepWindowExpire at e
  injection e with e
  subst e
  repeat' first
    | with_reducible exact Only.refl _ _
    | ((with_reducible refine Parts.leq ?_); rfl)
    | with_reducible apply State.report_only
    | with_reducible apply State.bump_only
    | with_reducible apply State.dropItem_only
    | with_reducible apply State.reach_only
    | split

theorem execEarlyTokenExpire_only {s u : State}  (e : execEarlyTokenExpire s = .next u) : Only { clk := true, quar := true } s u := by
  unfold execEarlyTokenExpire at e
  injection e with e
  subst e
  repeat' first
    | with_reducible exact Only.refl _ _
    | ((with_reducible refine Parts.leq ?_); rfl)
    | with_reducible apply State.reach_only
    | simp (disch := with_unfolding_all (apply Parts.same; apply Eq.refl)) only [Only.set_iff]
    | split

theorem tagReadback_only {p : Parts} {s t : State} {r : Nat} {page : Nat} {chip : Nat} {dst : Nat} {crc : Nat} {again : Bool} (hq : Parts.le (Parts.report.or { fab := true, tor := true }) p = true) (h : Only p s t) : Only p s (tagReadback t r page chip dst crc again) := by
  refine Only.step hq h ?_
  unfold tagReadback
  try dsimp -zeta only
  repeat' first
    | with_reducible assumption
    | with_reducible exact Only.refl _ _
    | ((with_reducible refine Parts.leq ?_); rfl)
    | with_reducible apply State.send_only
    | with_reducible apply State.tagMismatch_only
    | (extract_lets +onlyGivenNames x; first
        | (refine Only.cut (p := (Parts.report.or { fab := true, tor := true })) (s := t) (x := x) (fun hx => ?_) ?_; clear_value x; revert x; intro y hy; rotate_left; unfold x; clear x)
        | (refine Only.cut1 (p := (Parts.report.or { fab := true, tor := true })) (s := t) (x := x) (fun hx => ?_) ?_; clear_value x; revert x; intro y hy; rotate_left; unfold x; clear x)
        | (refine Only.cut2 (p := (Parts.report.or { fab := true, tor := true })) (s := t) (x := x) (fun hx => ?_) ?_; clear_value x; revert x; intro y hy; rotate_left; unfold x; clear x)
        | (revert x; intro y))
    | simp (disch := with_unfolding_all (apply Parts.same; apply Eq.refl)) only [Only.set_iff]
    | with_reducible apply Only.foldl
    | with_reducible apply Only.foldl_fst
    | (refine Only.of_fst ‹_ = _› ?_)
    | (refine Only.of_snd ‹_ = _› ?_)
    | split
    | (intro)

theorem execTagCopyReadback_only {s u : State} {r : Nat} {page : Nat} {chip : Nat} {dst : Nat} {crc : Nat} {again : Bool} (e : execTagCopyReadback r page chip dst crc again s = .next u) : Only (Parts.report.or { fab := true, tor := true }) s u := by
  unfold execTagCopyReadback at e
  injection e with e
  subst e
  try dsimp -zeta only
  repeat' first
    | with_reducible assumption
    | with_reducible exact Only.refl _ _
    | ((with_reducible refine Parts.leq ?_); rfl)
    | with_reducible apply tagReadback_only
    | with_reducible apply State.evCount_only
    | (extract_lets +onlyGivenNames x; first
        | (refine Only.cut (p := (Parts.report.or { fab := true, tor := true })) (s := s) (x := x) (fun hx => ?_) ?_; clear_value x; revert x; intro y hy; rotate_left; unfold x; clear x)
        | (refine Only.cut1 (p := (Parts.report.or { fab := true, tor := true })) (s := s) (x := x) (fun hx => ?_) ?_; clear_value x; revert x; intro y hy; rotate_left; unfold x; clear x)
        | (refine Only.cut2 (p := (Parts.report.or { fab := true, tor := true })) (s := s) (x := x) (fun hx => ?_) ?_; clear_value x; revert x; intro y hy; rotate_left; unfold x; clear x)
        | (revert x; intro y))
    | simp (disch := with_unfolding_all (apply Parts.same; apply Eq.refl)) only [Only.set_iff]
    | with_reducible apply Only.foldl
    | with_reducible apply Only.foldl_fst
    | (refine Only.of_fst ‹_ = _› ?_)
    | (refine Only.of_snd ‹_ = _› ?_)
    | split
    | (intro)

theorem State.dropAudit_only {p : Parts} {s t : State} {a : Audit} (hq : Parts.le { arr := true } p = true) (h : Only p s t) : Only p s (State.dropAudit t a) := by
  refine Only.step hq h ?_
  unfold State.dropAudit
  repeat' first
    | with_reducible exact Only.refl _ _
    | ((with_reducible refine Parts.leq ?_); rfl)
    | simp (disch := with_unfolding_all (apply Parts.same; apply Eq.refl)) only [Only.set_iff]

theorem execAuditCompare_only {s u : State} {n : Nat} {seq : Nat} {fault : List (Nat × Nat)} {ecc : EccFinds} (e : execAuditCompare n seq fault ecc s = .next u) : Only { regs := true, poison := true, flt := true, obs := true, arr := true } s u := by
  unfold execAuditCompare at e
  injection e with e
  subst e
  try dsimp -zeta only
  repeat' first
    | with_reducible assumption
    | with_reducible exact Only.refl _ _
    | ((with_reducible refine Parts.leq ?_); rfl)
    | with_reducible apply State.eccAll_only
    | with_reducible apply State.bump_only
    | with_reducible apply State.dropAudit_only
    | (extract_lets +onlyGivenNames x; first
        | (refine Only.cut (p := { regs := true, poison := true, flt := true, obs := true, arr := true }) (s := s) (x := x) (fun hx => ?_) ?_; clear_value x; revert x; intro y hy; rotate_left; unfold x; clear x)
        | (refine Only.cut1 (p := { regs := true, poison := true, flt := true, obs := true, arr := true }) (s := s) (x := x) (fun hx => ?_) ?_; clear_value x; revert x; intro y hy; rotate_left; unfold x; clear x)
        | (refine Only.cut2 (p := { regs := true, poison := true, flt := true, obs := true, arr := true }) (s := s) (x := x) (fun hx => ?_) ?_; clear_value x; revert x; intro y hy; rotate_left; unfold x; clear x)
        | (revert x; intro y))
    | simp (disch := with_unfolding_all (apply Parts.same; apply Eq.refl)) only [Only.set_iff]
    | with_reducible apply Only.foldl
    | with_reducible apply Only.foldl_fst
    | (refine Only.of_fst ‹_ = _› ?_)
    | (refine Only.of_snd ‹_ = _› ?_)
    | split
    | (intro)

theorem thirdJudge_only {p : Parts} {s t : State} {a : Audit} {o : List Nat} {v : List Nat} {third : List Nat} {cell : Option Nat} (hq : Parts.le (Parts.report.or { started := true, arr := true }) p = true) (h : Only p s t) : Only p s (thirdJudge t a o v third cell) := by
  refine Only.step hq h ?_
  unfold thirdJudge
  try dsimp -zeta only
  repeat' first
    | with_reducible assumption
    | with_reducible exact Only.refl _ _
    | ((with_reducible refine Parts.leq ?_); rfl)
    | with_reducible apply State.report_only
    | with_reducible apply State.fenceCell_only
    | with_reducible apply State.fenceBlock_only
    | (extract_lets +onlyGivenNames x; first
        | (refine Only.cut (p := (Parts.report.or { started := true, arr := true })) (s := t) (x := x) (fun hx => ?_) ?_; clear_value x; revert x; intro y hy; rotate_left; unfold x; clear x)
        | (refine Only.cut1 (p := (Parts.report.or { started := true, arr := true })) (s := t) (x := x) (fun hx => ?_) ?_; clear_value x; revert x; intro y hy; rotate_left; unfold x; clear x)
        | (refine Only.cut2 (p := (Parts.report.or { started := true, arr := true })) (s := t) (x := x) (fun hx => ?_) ?_; clear_value x; revert x; intro y hy; rotate_left; unfold x; clear x)
        | (revert x; intro y))
    | simp (disch := with_unfolding_all (apply Parts.same; apply Eq.refl)) only [Only.set_iff]
    | with_reducible apply Only.foldl
    | with_reducible apply Only.foldl_fst
    | (refine Only.of_fst ‹_ = _› ?_)
    | (refine Only.of_snd ‹_ = _› ?_)
    | split
    | (intro)

theorem execAuditThirdJudge_only {s u : State} {n : Nat} {seq : Nat} {fault : List (Nat × Nat)} {ecc : EccFinds} (e : execAuditThirdJudge n seq fault ecc s = .next u) : Only (Parts.report.or { poison := true, started := true, arr := true }) s u := by
  unfold execAuditThirdJudge at e
  injection e with e
  subst e
  try dsimp -zeta only
  repeat' first
    | with_reducible assumption
    | with_reducible exact Only.refl _ _
    | ((with_reducible refine Parts.leq ?_); rfl)
    | with_reducible apply State.eccAll_only
    | with_reducible apply State.recomputed_only
    | with_reducible apply thirdJudge_only
    | with_reducible apply State.dropAudit_only
    | (extract_lets +onlyGivenNames x; first
        | (refine Only.cut (p := (Parts.report.or { poison := true, started := true, arr := true })) (s := s) (x := x) (fun hx => ?_) ?_; clear_value x; revert x; intro y hy; rotate_left; unfold x; clear x)
        | (refine Only.cut1 (p := (Parts.report.or { poison := true, started := true, arr := true })) (s := s) (x := x) (fun hx => ?_) ?_; clear_value x; revert x; intro y hy; rotate_left; unfold x; clear x)
        | (refine Only.cut2 (p := (Parts.report.or { poison := true, started := true, arr := true })) (s := s) (x := x) (fun hx => ?_) ?_; clear_value x; revert x; intro y hy; rotate_left; unfold x; clear x)
        | (revert x; intro y))
    | simp (disch := with_unfolding_all (apply Parts.same; apply Eq.refl)) only [Only.set_iff]
    | with_reducible apply Only.foldl
    | with_reducible apply Only.foldl_fst
    | (refine Only.of_fst ‹_ = _› ?_)
    | (refine Only.of_snd ‹_ = _› ?_)
    | split
    | (intro)

theorem State.blockOff_only {p : Parts} {s t : State} {b : Nat} (hq : Parts.le { staging := true, stagTag := true, dark := true } p = true) (h : Only p s t) : Only p s (State.blockOff t b) := by
  refine Only.step hq h ?_
  unfold State.blockOff
  repeat' first
    | with_reducible exact Only.refl _ _
    | ((with_reducible refine Parts.leq ?_); rfl)
    | simp (disch := with_unfolding_all (apply Parts.same; apply Eq.refl)) only [Only.set_iff]

theorem State.dieOn_only {p : Parts} {s t : State} {d : Nat} (hq : Parts.le { dark := true } p = true) (h : Only p s t) : Only p s (State.dieOn t d) := by
  refine Only.step hq h ?_
  unfold State.dieOn
  repeat' first
    | with_reducible exact Only.refl _ _
    | ((with_reducible refine Parts.leq ?_); rfl)
    | simp (disch := with_unfolding_all (apply Parts.same; apply Eq.refl)) only [Only.set_iff]

theorem State.scanShow_only {p : Parts} {s t : State} {b : Option Nat} (hq : Parts.le { regs := true } p = true) (h : Only p s t) : Only p s (State.scanShow t b) := by
  refine Only.step hq h ?_
  unfold State.scanShow
  repeat' first
    | with_reducible exact Only.refl _ _
    | ((with_reducible refine Parts.leq ?_); rfl)
    | with_reducible apply State.fput_only

theorem scanStart_only {p : Parts} {s t : State} {d : Started} (hq : Parts.le { regs := true, scan := true } p = true) (h : Only p s t) : Only p s (scanStart t d) := by
  refine Only.step hq h ?_
  unfold scanStart
  repeat' first
    | with_reducible exact Only.refl _ _
    | ((with_reducible refine Parts.leq ?_); rfl)
    | with_reducible apply State.scanShow_only
    | with_reducible apply State.putBit_only
    | simp (disch := with_unfolding_all (apply Parts.same; apply Eq.refl)) only [Only.set_iff]

theorem scanDesc_only {p : Parts} {s t : State} {d : Started} (hq : Parts.le { regs := true, started := true, scan := true } p = true) (h : Only p s t) : Only p s (scanDesc t d) := by
  refine Only.step hq h ?_
  unfold scanDesc
  repeat' first
    | with_reducible exact Only.refl _ _
    | ((with_reducible refine Parts.leq ?_); rfl)
    | with_reducible apply State.setDone_only
    | with_reducible apply scanStart_only
    | with_reducible apply State.updStarted_only
    | split

theorem execScanBlock_only {s u : State} {n : Nat} {seq : Nat} (e : execScanBlock n seq s = .next u) : Only { regs := true, started := true, scan := true } s u := by
  unfold execScanBlock at e
  injection e with e
  subst e
  repeat' first
    | with_reducible exact Only.refl _ _
    | ((with_reducible refine Parts.leq ?_); rfl)
    | with_reducible apply scanDesc_only
    | split

theorem execScanProceed_only {s u : State}  (e : execScanProceed s = .next u) : Only { staging := true, stagTag := true, dark := true, scan := true } s u := by
  unfold execScanProceed at e
  injection e with e
  subst e
  repeat' first
    | with_reducible exact Only.refl _ _
    | ((with_reducible refine Parts.leq ?_); rfl)
    | with_reducible apply State.blockOff_only
    | simp (disch := with_unfolding_all (apply Parts.same; apply Eq.refl)) only [Only.set_iff]
    | split

theorem State.scanOver_only {p : Parts} {s t : State} {c : Scan} (hq : Parts.le { regs := true, scan := true } p = true) (h : Only p s t) : Only p s (State.scanOver t c) := by
  refine Only.step hq h ?_
  unfold State.scanOver
  repeat' first
    | with_reducible exact Only.refl _ _
    | ((with_reducible refine Parts.leq ?_); rfl)
    | with_reducible apply State.scanShow_only
    | with_reducible apply State.putBit_only
    | simp (disch := with_unfolding_all (apply Parts.same; apply Eq.refl)) only [Only.set_iff]

theorem scanFinish_only {p : Parts} {s t : State} {c : Scan} {patterns : Nat} {fails : Nat} {first : Nat} {bad : Option Nat} (hq : Parts.le (Parts.report.or { started := true, dark := true, arr := true, scan := true }) p = true) (h : Only p s t) : Only p s (scanFinish t c patterns fails first bad) := by
  refine Only.step hq h ?_
  unfold scanFinish
  repeat' first
    | with_reducible exact Only.refl _ _
    | ((with_reducible refine Parts.leq ?_); rfl)
    | with_reducible apply State.setDone_only
    | with_reducible apply State.scanOver_only
    | with_reducible apply State.dieOn_only
    | with_reducible apply State.bump_only
    | with_reducible apply State.fenceBlock_only
    | with_reducible apply State.report_only
    | split

theorem execScanFinish_only {s u : State} {patterns : Nat} {fails : Nat} {first : Nat} {badSegment : Option Nat} (e : execScanFinish patterns fails first badSegment s = .next u) : Only (Parts.report.or { started := true, dark := true, arr := true, scan := true }) s u := by
  unfold execScanFinish at e
  injection e with e
  subst e
  repeat' first
    | with_reducible exact Only.refl _ _
    | ((with_reducible refine Parts.leq ?_); rfl)
    | with_reducible apply scanFinish_only
    | split

theorem State.scanStop_only {p : Parts} {s t : State}  (hq : Parts.le { regs := true, started := true, scan := true } p = true) (h : Only p s t) : Only p s (State.scanStop t) := by
  refine Only.step hq h ?_
  unfold State.scanStop
  repeat' first
    | with_reducible exact Only.refl _ _
    | ((with_reducible refine Parts.leq ?_); rfl)
    | with_reducible apply State.setDone_only
    | with_reducible apply State.scanOver_only
    | split

end Sys2Proof.Machine
end

