-- ==== Sys2Proof/Laws/OnlyLink.lean ====
section
/-!
SUPPORT. Which parts of the state the operations of Machine/Link.lean may change (Safety.lean).
-/
namespace Sys2Proof.Machine

open Sys2Proof

theorem State.countPlan_only {p : Parts} {s t : State} {lost : Bool} (hq : Parts.le { regs := true } p = true) (h : Only p s t) : Only p s (State.countPlan t lost) := by
  refine Only.step hq h ?_
  unfold State.countPlan
  repeat' first
    | with_reducible exact Only.refl _ _
    | ((with_reducible refine Parts.leq ?_); rfl)
    | with_reducible apply State.setReg_only

theorem State.setPortState_only {p : Parts} {s t : State} {x1 : Nat} {st : Nat} {lost : Bool} (hq : Parts.le { regs := true, trf := true, flt := true, journal := true } p = true) (h : Only p s t) : Only p s (State.setPortState t x1 st lost) := by
  refine Only.step hq h ?_
  unfold State.setPortState
  repeat' first
    | with_reducible exact Only.refl _ _
    | ((with_reducible refine Parts.leq ?_); rfl)
    | with_reducible apply State.countPlan_only
    | with_reducible apply State.event_only
    | with_reducible apply State.fput_only
    | split

theorem State.openHold_only {p : Parts} {s t : State} {x1 : Nat} (hq : Parts.le { flt := true } p = true) (h : Only p s t) : Only p s (State.openHold t x1) := by
  refine Only.step hq h ?_
  unfold State.openHold
  try dsimp -zeta only
  repeat' first
    | with_reducible assumption
    | with_reducible exact Only.refl _ _
    | ((with_reducible refine Parts.leq ?_); rfl)
    | (extract_lets +onlyGivenNames x; first
        | (refine Only.cut (p := { flt := true }) (s := t) (x := x) (fun hx => ?_) ?_; clear_value x; revert x; intro y hy; rotate_left; unfold x; clear x)
        | (refine Only.cut1 (p := { flt := true }) (s := t) (x := x) (fun hx => ?_) ?_; clear_value x; revert x; intro y hy; rotate_left; unfold x; clear x)
        | (refine Only.cut2 (p := { flt := true }) (s := t) (x := x) (fun hx => ?_) ?_; clear_value x; revert x; intro y hy; rotate_left; unfold x; clear x)
        | (revert x; intro y))
    | simp (disch := with_unfolding_all (apply Parts.same; apply Eq.refl)) only [Only.set_iff]
    | with_reducible apply Only.foldl
    | with_reducible apply Only.foldl_fst
    | (refine Only.of_fst ‹_ = _› ?_)
    | (refine Only.of_snd ‹_ = _› ?_)
    | split
    | (intro)

theorem State.closeHold_only {p : Parts} {s t : State} {x1 : Nat} (hq : Parts.le { flt := true } p = true) (h : Only p s t) : Only p s (State.closeHold t x1) := by
  refine Only.step hq h ?_
  unfold State.closeHold
  try dsimp -zeta only
  repeat' first
    | with_reducible assumption
    | with_reducible exact Only.refl _ _
    | ((with_reducible refine Parts.leq ?_); rfl)
    | (extract_lets +onlyGivenNames x; first
        | (refine Only.cut (p := { flt := true }) (s := t) (x := x) (fun hx => ?_) ?_; clear_value x; revert x; intro y hy; rotate_left; unfold x; clear x)
        | (refine Only.cut1 (p := { flt := true }) (s := t) (x := x) (fun hx => ?_) ?_; clear_value x; revert x; intro y hy; rotate_left; unfold x; clear x)
        | (refine Only.cut2 (p := { flt := true }) (s := t) (x := x) (fun hx => ?_) ?_; clear_value x; revert x; intro y hy; rotate_left; unfold x; clear x)
        | (revert x; intro y))
    | simp (disch := with_unfolding_all (apply Parts.same; apply Eq.refl)) only [Only.set_iff]
    | with_reducible apply Only.foldl
    | with_reducible apply Only.foldl_fst
    | (refine Only.of_fst ‹_ = _› ?_)
    | (refine Only.of_snd ‹_ = _› ?_)
    | split
    | (intro)

theorem State.train_only {p : Parts} {s t : State} {x1 : Nat} {retry : Bool} (hq : Parts.le { regs := true, trf := true, flt := true, fab := true, journal := true } p = true) (h : Only p s t) : Only p s (State.train t x1 retry) := by
  refine Only.step hq h ?_
  unfold State.train
  try dsimp -zeta only
  repeat' first
    | with_reducible assumption
    | with_reducible exact Only.refl _ _
    | ((with_reducible refine Parts.leq ?_); rfl)
    | with_reducible apply State.setPort_only
    | with_reducible apply State.openHold_only
    | with_reducible apply State.setPortState_only
    | with_reducible apply State.fput_only
    | (extract_lets +onlyGivenNames x; first
        | (refine Only.cut (p := { regs := true, trf := true, flt := true, fab := true, journal := true }) (s := t) (x := x) (fun hx => ?_) ?_; clear_value x; revert x; intro y hy; rotate_left; unfold x; clear x)
        | (refine Only.cut1 (p := { regs := true, trf := true, flt := true, fab := true, journal := true }) (s := t) (x := x) (fun hx => ?_) ?_; clear_value x; revert x; intro y hy; rotate_left; unfold x; clear x)
        | (refine Only.cut2 (p := { regs := true, trf := true, flt := true, fab := true, journal := true }) (s := t) (x := x) (fun hx => ?_) ?_; clear_value x; revert x; intro y hy; rotate_left; unfold x; clear x)
        | (revert x; intro y))
    | simp (disch := with_unfolding_all (apply Parts.same; apply Eq.refl)) only [Only.set_iff]
    | with_reducible apply Only.foldl
    | with_reducible apply Only.foldl_fst
    | (refine Only.of_fst ‹_ = _› ?_)
    | (refine Only.of_snd ‹_ = _› ?_)
    | split
    | (intro)

theorem State.creditBack_only {p : Parts} {s t : State} {x1 : Nat} {c : Option (Nat × Nat × Nat)} (hq : Parts.le { regs := true, fab := true } p = true) (h : Only p s t) : Only p s (State.creditBack t x1 c) := by
  refine Only.step hq h ?_
  unfold State.creditBack
  repeat' first
    | with_reducible exact Only.refl _ _
    | ((with_reducible refine Parts.leq ?_); rfl)
    | with_reducible apply State.count_only
    | with_reducible apply State.setPort_only
    | split

theorem State.allCreditsBack_only {p : Parts} {s t : State} {x1 : Nat} (hq : Parts.le { regs := true, fab := true } p = true) (h : Only p s t) : Only p s (State.allCreditsBack t x1) := by
  refine Only.step hq h ?_
  unfold State.allCreditsBack
  repeat' first
    | with_reducible exact Only.refl _ _
    | ((with_reducible refine Parts.leq ?_); rfl)
    | with_reducible apply State.count_only
    | with_reducible apply State.setPort_only

theorem State.auditPort_only {p : Parts} {s t : State} {x1 : Nat} (hq : Parts.le Parts.report p = true) (h : Only p s t) : Only p s (State.auditPort t x1) := by
  refine Only.step hq h ?_
  unfold State.auditPort
  repeat' first
    | with_reducible exact Only.refl _ _
    | ((with_reducible refine Parts.leq ?_); rfl)
    | with_reducible apply State.report_only
    | (extract_lets +onlyGivenNames x; first
        | (revert x; intro y))
    | split

theorem State.emitFlit_only {p : Parts} {s t : State} {x1 : Nat} {g : Flit} (hq : Parts.le { fab := true, out := true } p = true) (h : Only p s t) : Only p s (State.emitFlit t x1 g) := by
  refine Only.step hq h ?_
  unfold State.emitFlit
  try dsimp -zeta only
  repeat' first
    | with_reducible assumption
    | with_reducible exact Only.refl _ _
    | ((with_reducible refine Parts.leq ?_); rfl)
    | with_reducible apply State.emit_only
    | with_reducible apply State.setPort_only
    | (extract_lets +onlyGivenNames x; first
        | (refine Only.cut (p := { fab := true, out := true }) (s := t) (x := x) (fun hx => ?_) ?_; clear_value x; revert x; intro y hy; rotate_left; unfold x; clear x)
        | (refine Only.cut1 (p := { fab := true, out := true }) (s := t) (x := x) (fun hx => ?_) ?_; clear_value x; revert x; intro y hy; rotate_left; unfold x; clear x)
        | (refine Only.cut2 (p := { fab := true, out := true }) (s := t) (x := x) (fun hx => ?_) ?_; clear_value x; revert x; intro y hy; rotate_left; unfold x; clear x)
        | (revert x; intro y))
    | simp (disch := with_unfolding_all (apply Parts.same; apply Eq.refl)) only [Only.set_iff]
    | with_reducible apply Only.foldl
    | with_reducible apply Only.foldl_fst
    | (refine Only.of_fst ‹_ = _› ?_)
    | (refine Only.of_snd ‹_ = _› ?_)
    | split
    | (intro)

theorem State.putFlit_only {p : Parts} {s t : State} {x1 : Nat} {f : Flit} (hq : Parts.le { fab := true, out := true } p = true) (h : Only p s t) : Only p s (State.putFlit t x1 f) := by
  refine Only.step hq h ?_
  unfold State.putFlit
  try dsimp -zeta only
  repeat' first
    | with_reducible assumption
    | with_reducible exact Only.refl _ _
    | ((with_reducible refine Parts.leq ?_); rfl)
    | with_reducible apply State.emitFlit_only
    | with_reducible apply State.setPort_only
    | (extract_lets +onlyGivenNames x; first
        | (refine Only.cut (p := { fab := true, out := true }) (s := t) (x := x) (fun hx => ?_) ?_; clear_value x; revert x; intro y hy; rotate_left; unfold x; clear x)
        | (refine Only.cut1 (p := { fab := true, out := true }) (s := t) (x := x) (fun hx => ?_) ?_; clear_value x; revert x; intro y hy; rotate_left; unfold x; clear x)
        | (refine Only.cut2 (p := { fab := true, out := true }) (s := t) (x := x) (fun hx => ?_) ?_; clear_value x; revert x; intro y hy; rotate_left; unfold x; clear x)
        | (revert x; intro y))
    | simp (disch := with_unfolding_all (apply Parts.same; apply Eq.refl)) only [Only.set_iff]
    | with_reducible apply Only.foldl
    | with_reducible apply Only.foldl_fst
    | (refine Only.of_fst ‹_ = _› ?_)
    | (refine Only.of_snd ‹_ = _› ?_)
    | split
    | (intro)

theorem State.sendData_only {p : Parts} {s t : State} {x1 : Nat} {vc : Nat} {cls : Nat} {q : Queued} (hq : Parts.le { regs := true, fab := true, out := true, obs := true } p = true) (h : Only p s t) : Only p s (State.sendData t x1 vc cls q) := by
  refine Only.step hq h ?_
  unfold State.sendData
  repeat' first
    | with_reducible exact Only.refl _ _
    | ((with_reducible refine Parts.leq ?_); rfl)
    | with_reducible apply State.count_only
    | with_reducible apply State.setPort_only
    | with_reducible apply State.evCount_only
    | with_reducible apply State.putFlit_only
    | split

theorem State.enterKeepWarm_only {p : Parts} {s t : State} {x1 : Nat} (hq : Parts.le { regs := true, fab := true } p = true) (h : Only p s t) : Only p s (State.enterKeepWarm t x1) := by
  refine Only.step hq h ?_
  unfold State.enterKeepWarm
  repeat' first
    | with_reducible exact Only.refl _ _
    | ((with_reducible refine Parts.leq ?_); rfl)
    | with_reducible apply State.fput_only
    | with_reducible apply State.setPort_only
    | (extract_lets +onlyGivenNames x; first
        | (revert x; intro y))
    | split

theorem State.dataTurn_only {p : Parts} {s t u : State} {n : Nat} (hq : Parts.le { regs := true, fab := true, out := true, obs := true } p = true) (h : Only p s t) (e : State.dataTurn t n = some u) : Only p s u := by
  unfold State.dataTurn at e
  dsimp only at e
  split at e
  · contradiction
  · split at e
    · injection e with e; subst e
      exact State.emitFlit_only (Parts.le_trans rfl hq) (State.setPort_only (Parts.le_trans rfl hq) h)
    · split at e
      · contradiction
      · split at e
        · contradiction
        · obtain ⟨x, _, rfl⟩ := Option.map_eq_some_iff.mp e
          exact State.sendData_only (Parts.le_trans rfl hq) h

theorem State.sendLink_only {p : Parts} {s t : State} {x1 : Nat} {m : LinkMsg} (hq : Parts.le { fab := true, out := true } p = true) (h : Only p s t) : Only p s (State.sendLink t x1 m) := by
  refine Only.step hq h ?_
  unfold State.sendLink
  try dsimp -zeta only
  repeat' first
    | with_reducible assumption
    | with_reducible exact Only.refl _ _
    | ((with_reducible refine Parts.leq ?_); rfl)
    | with_reducible apply State.putFlit_only
    | with_reducible apply State.setPort_only
    | (extract_lets +onlyGivenNames x; first
        | (refine Only.cut (p := { fab := true, out := true }) (s := t) (x := x) (fun hx => ?_) ?_; clear_value x; revert x; intro y hy; rotate_left; unfold x; clear x)
        | (refine Only.cut1 (p := { fab := true, out := true }) (s := t) (x := x) (fun hx => ?_) ?_; clear_value x; revert x; intro y hy; rotate_left; unfold x; clear x)
        | (refine Only.cut2 (p := { fab := true, out := true }) (s := t) (x := x) (fun hx => ?_) ?_; clear_value x; revert x; intro y hy; rotate_left; unfold x; clear x)
        | (revert x; intro y))
    | simp (disch := with_unfolding_all (apply Parts.same; apply Eq.refl)) only [Only.set_iff]
    | with_reducible apply Only.foldl
    | with_reducible apply Only.foldl_fst
    | (refine Only.of_fst ‹_ = _› ?_)
    | (refine Only.of_snd ‹_ = _› ?_)
    | split
    | (intro)

theorem flitSend_only {p : Parts} {s t : State} {x1 : Nat} (hq : Parts.le { regs := true, fab := true, out := true, obs := true } p = true) (h : Only p s t) : Only p s (flitSend t x1) := by
  refine Only.step hq h ?_
  unfold flitSend
  try dsimp -zeta only
  repeat' first
    | with_reducible assumption
    | with_reducible exact Only.refl _ _
    | ((with_reducible refine Parts.leq ?_); rfl)
    | with_reducible apply State.sendLink_only
    | with_reducible apply State.setPort_only
    | refine State.dataTurn_only ?_ ?_ ‹_›
    | refine State.dataTurn_only ?_ ?_ (some_of_ite ‹_›)
    | with_reducible apply State.putFlit_only
    | with_reducible apply State.enterKeepWarm_only
    | (extract_lets +onlyGivenNames x; first
        | (refine Only.cut (p := { regs := true, fab := true, out := true, obs := true }) (s := t) (x := x) (fun hx => ?_) ?_; clear_value x; revert x; intro y hy; rotate_left; unfold x; clear x)
        | (refine Only.cut1 (p := { regs := true, fab := true, out := true, obs := true }) (s := t) (x := x) (fun hx => ?_) ?_; clear_value x; revert x; intro y hy; rotate_left; unfold x; clear x)
        | (refine Only.cut2 (p := { regs := true, fab := true, out := true, obs := true }) (s := t) (x := x) (fun hx => ?_) ?_; clear_value x; revert x; intro y hy; rotate_left; unfold x; clear x)
        | (revert x; intro y))
    | simp (disch := with_unfolding_all (apply Parts.same; apply Eq.refl)) only [Only.set_iff]
    | with_reducible apply Only.foldl
    | with_reducible apply Only.foldl_fst
    | (refine Only.of_fst ‹_ = _› ?_)
    | (refine Only.of_snd ‹_ = _› ?_)
    | split
    | (intro)

theorem State.parityFault_only {p : Parts} {s t : State} {x1 : Nat} {fatal : Bool} (hq : Parts.le Parts.report p = true) (h : Only p s t) : Only p s (State.parityFault t x1 fatal) := by
  refine Only.step hq h ?_
  unfold State.parityFault
  repeat' first
    | with_reducible exact Only.refl _ _
    | ((with_reducible refine Parts.leq ?_); rfl)
    | with_reducible apply State.report_only
    | with_reducible apply State.corrected_only
    | split

theorem State.ackUpTo_only {p : Parts} {s t : State} {x1 : Nat} {seq : Nat} (hq : Parts.le { flt := true, fab := true } p = true) (h : Only p s t) : Only p s (State.ackUpTo t x1 seq) := by
  refine Only.step hq h ?_
  unfold State.ackUpTo
  try dsimp -zeta only
  repeat' first
    | with_reducible assumption
    | with_reducible exact Only.refl _ _
    | ((with_reducible refine Parts.leq ?_); rfl)
    | with_reducible apply State.setPort_only
    | with_reducible apply State.closeHold_only
    | (extract_lets +onlyGivenNames x; first
        | (refine Only.cut (p := { flt := true, fab := true }) (s := t) (x := x) (fun hx => ?_) ?_; clear_value x; revert x; intro y hy; rotate_left; unfold x; clear x)
        | (refine Only.cut1 (p := { flt := true, fab := true }) (s := t) (x := x) (fun hx => ?_) ?_; clear_value x; revert x; intro y hy; rotate_left; unfold x; clear x)
        | (refine Only.cut2 (p := { flt := true, fab := true }) (s := t) (x := x) (fun hx => ?_) ?_; clear_value x; revert x; intro y hy; rotate_left; unfold x; clear x)
        | (revert x; intro y))
    | simp (disch := with_unfolding_all (apply Parts.same; apply Eq.refl)) only [Only.set_iff]
    | with_reducible apply Only.foldl
    | with_reducible apply Only.foldl_fst
    | (refine Only.of_fst ‹_ = _› ?_)
    | (refine Only.of_snd ‹_ = _› ?_)
    | split
    | (intro)

theorem State.nakAt_only {p : Parts} {s t : State} {x1 : Nat} {seq : Nat} (hq : Parts.le { regs := true, flt := true, fab := true, obs := true } p = true) (h : Only p s t) : Only p s (State.nakAt t x1 seq) := by
  refine Only.step hq h ?_
  unfold State.nakAt
  try dsimp -zeta only
  repeat' first
    | with_reducible assumption
    | with_reducible exact Only.refl _ _
    | ((with_reducible refine Parts.leq ?_); rfl)
    | with_reducible apply State.ackUpTo_only
    | with_reducible apply State.openHold_only
    | with_reducible apply State.setPort_only
    | with_reducible apply State.evCount_only
    | with_reducible apply State.bump_only
    | (extract_lets +onlyGivenNames x; first
        | (refine Only.cut (p := { regs := true, flt := true, fab := true, obs := true }) (s := t) (x := x) (fun hx => ?_) ?_; clear_value x; revert x; intro y hy; rotate_left; unfold x; clear x)
        | (refine Only.cut1 (p := { regs := true, flt := true, fab := true, obs := true }) (s := t) (x := x) (fun hx => ?_) ?_; clear_value x; revert x; intro y hy; rotate_left; unfold x; clear x)
        | (refine Only.cut2 (p := { regs := true, flt := true, fab := true, obs := true }) (s := t) (x := x) (fun hx => ?_) ?_; clear_value x; revert x; intro y hy; rotate_left; unfold x; clear x)
        | (revert x; intro y))
    | simp (disch := with_unfolding_all (apply Parts.same; apply Eq.refl)) only [Only.set_iff]
    | with_reducible apply Only.foldl
    | with_reducible apply Only.foldl_fst
    | (refine Only.of_fst ‹_ = _› ?_)
    | (refine Only.of_snd ‹_ = _› ?_)
    | split
    | (intro)

theorem execNakReceive_only {s u : State} {x0 : Nat} {seq : Nat} (e : execNakReceive x0 seq s = .next u) : Only { regs := true, flt := true, fab := true, obs := true } s u := by
  unfold execNakReceive at e
  injection e with e
  subst e
  try dsimp -zeta only
  repeat' first
    | with_reducible assumption
    | with_reducible exact Only.refl _ _
    | ((with_reducible refine Parts.leq ?_); rfl)
    | with_reducible apply State.nakAt_only
    | (extract_lets +onlyGivenNames x; first
        | (refine Only.cut (p := { regs := true, flt := true, fab := true, obs := true }) (s := s) (x := x) (fun hx => ?_) ?_; clear_value x; revert x; intro y hy; rotate_left; unfold x; clear x)
        | (refine Only.cut1 (p := { regs := true, flt := true, fab := true, obs := true }) (s := s) (x := x) (fun hx => ?_) ?_; clear_value x; revert x; intro y hy; rotate_left; unfold x; clear x)
        | (refine Only.cut2 (p := { regs := true, flt := true, fab := true, obs := true }) (s := s) (x := x) (fun hx => ?_) ?_; clear_value x; revert x; intro y hy; rotate_left; unfold x; clear x)
        | (revert x; intro y))
    | simp (disch := with_unfolding_all (apply Parts.same; apply Eq.refl)) only [Only.set_iff]
    | with_reducible apply Only.foldl
    | with_reducible apply Only.foldl_fst
    | (refine Only.of_fst ‹_ = _› ?_)
    | (refine Only.of_snd ‹_ = _› ?_)
    | split
    | (intro)

theorem execAckReceive_only {s u : State} {x0 : Nat} {seq : Nat} (e : execAckReceive x0 seq s = .next u) : Only { flt := true, fab := true } s u := by
  unfold execAckReceive at e
  injection e with e
  subst e
  try dsimp -zeta only
  repeat' first
    | with_reducible assumption
    | with_reducible exact Only.refl _ _
    | ((with_reducible refine Parts.leq ?_); rfl)
    | with_reducible apply State.ackUpTo_only
    | (extract_lets +onlyGivenNames x; first
        | (refine Only.cut (p := { flt := true, fab := true }) (s := s) (x := x) (fun hx => ?_) ?_; clear_value x; revert x; intro y hy; rotate_left; unfold x; clear x)
        | (refine Only.cut1 (p := { flt := true, fab := true }) (s := s) (x := x) (fun hx => ?_) ?_; clear_value x; revert x; intro y hy; rotate_left; unfold x; clear x)
        | (refine Only.cut2 (p := { flt := true, fab := true }) (s := s) (x := x) (fun hx => ?_) ?_; clear_value x; revert x; intro y hy; rotate_left; unfold x; clear x)
        | (revert x; intro y))
    | simp (disch := with_unfolding_all (apply Parts.same; apply Eq.refl)) only [Only.set_iff]
    | with_reducible apply Only.foldl
    | with_reducible apply Only.foldl_fst
    | (refine Only.of_fst ‹_ = _› ?_)
    | (refine Only.of_snd ‹_ = _› ?_)
    | split
    | (intro)

theorem execAckTimer_only {s u : State} {x0 : Nat} (e : execAckTimer x0 s = .next u) : Only { clk := true, fab := true, out := true } s u := by
  unfold execAckTimer at e
  injection e with e
  subst e
  repeat' first
    | with_reducible exact Only.refl _ _
    | ((with_reducible refine Parts.leq ?_); rfl)
    | with_reducible apply State.putFlit_only
    | with_reducible apply State.reach_only
    | split

theorem State.flitHead_only {p : Parts} {s t : State} {x1 : Nat} {f : Flit} (hq : Parts.le { regs := true, flt := true, fab := true, obs := true } p = true) (h : Only p s t) : Only p s (State.flitHead t x1 f) := by
  refine Only.step hq h ?_
  unfold State.flitHead
  try dsimp -zeta only
  repeat' first
    | with_reducible assumption
    | with_reducible exact Only.refl _ _
    | ((with_reducible refine Parts.leq ?_); rfl)
    | with_reducible apply State.nakAt_only
    | with_reducible apply State.ackUpTo_only
    | with_reducible apply State.creditBack_only
    | (extract_lets +onlyGivenNames x; first
        | (refine Only.cut (p := { regs := true, flt := true, fab := true, obs := true }) (s := t) (x := x) (fun hx => ?_) ?_; clear_value x; revert x; intro y hy; rotate_left; unfold x; clear x)
        | (refine Only.cut1 (p := { regs := true, flt := true, fab := true, obs := true }) (s := t) (x := x) (fun hx => ?_) ?_; clear_value x; revert x; intro y hy; rotate_left; unfold x; clear x)
        | (refine Only.cut2 (p := { regs := true, flt := true, fab := true, obs := true }) (s := t) (x := x) (fun hx => ?_) ?_; clear_value x; revert x; intro y hy; rotate_left; unfold x; clear x)
        | (revert x; intro y))
    | simp (disch := with_unfolding_all (apply Parts.same; apply Eq.refl)) only [Only.set_iff]
    | with_reducible apply Only.foldl
    | with_reducible apply Only.foldl_fst
    | (refine Only.of_fst ‹_ = _› ?_)
    | (refine Only.of_snd ‹_ = _› ?_)
    | split
    | (intro)

theorem State.sendNak_only {p : Parts} {s t : State} {x1 : Nat} (hq : Parts.le { fab := true, out := true } p = true) (h : Only p s t) : Only p s (State.sendNak t x1) := by
  refine Only.step hq h ?_
  unfold State.sendNak
  try dsimp -zeta only
  repeat' first
    | with_reducible assumption
    | with_reducible exact Only.refl _ _
    | ((with_reducible refine Parts.leq ?_); rfl)
    | with_reducible apply State.putFlit_only
    | with_reducible apply State.setPort_only
    | (extract_lets +onlyGivenNames x; first
        | (refine Only.cut (p := { fab := true, out := true }) (s := t) (x := x) (fun hx => ?_) ?_; clear_value x; revert x; intro y hy; rotate_left; unfold x; clear x)
        | (refine Only.cut1 (p := { fab := true, out := true }) (s := t) (x := x) (fun hx => ?_) ?_; clear_value x; revert x; intro y hy; rotate_left; unfold x; clear x)
        | (refine Only.cut2 (p := { fab := true, out := true }) (s := t) (x := x) (fun hx => ?_) ?_; clear_value x; revert x; intro y hy; rotate_left; unfold x; clear x)
        | (revert x; intro y))
    | simp (disch := with_unfolding_all (apply Parts.same; apply Eq.refl)) only [Only.set_iff]
    | with_reducible apply Only.foldl
    | with_reducible apply Only.foldl_fst
    | (refine Only.of_fst ‹_ = _› ?_)
    | (refine Only.of_snd ‹_ = _› ?_)
    | split
    | (intro)

theorem State.crcFail_only {p : Parts} {s t : State} {x1 : Nat} (hq : Parts.le { regs := true, flt := true, fab := true, out := true } p = true) (h : Only p s t) : Only p s (State.crcFail t x1) := by
  refine Only.step hq h ?_
  unfold State.crcFail
  try dsimp -zeta only
  repeat' first
    | with_reducible assumption
    | with_reducible exact Only.refl _ _
    | ((with_reducible refine Parts.leq ?_); rfl)
    | with_reducible apply State.sendNak_only
    | with_reducible apply State.corrected_only
    | with_reducible apply State.bump_only
    | (extract_lets +onlyGivenNames x; first
        | (refine Only.cut (p := { regs := true, flt := true, fab := true, out := true }) (s := t) (x := x) (fun hx => ?_) ?_; clear_value x; revert x; intro y hy; rotate_left; unfold x; clear x)
        | (refine Only.cut1 (p := { regs := true, flt := true, fab := true, out := true }) (s := t) (x := x) (fun hx => ?_) ?_; clear_value x; revert x; intro y hy; rotate_left; unfold x; clear x)
        | (refine Only.cut2 (p := { regs := true, flt := true, fab := true, out := true }) (s := t) (x := x) (fun hx => ?_) ?_; clear_value x; revert x; intro y hy; rotate_left; unfold x; clear x)
        | (revert x; intro y))
    | simp (disch := with_unfolding_all (apply Parts.same; apply Eq.refl)) only [Only.set_iff]
    | with_reducible apply Only.foldl
    | with_reducible apply Only.foldl_fst
    | (refine Only.of_fst ‹_ = _› ?_)
    | (refine Only.of_snd ‹_ = _› ?_)
    | split
    | (intro)

theorem State.flitIn_only {p : Parts} {s t : State} {x1 : Nat} {f : Flit} {crcOk : Bool} {act : State → State} (hq : Parts.le { regs := true, flt := true, fab := true, out := true, obs := true } p = true) (h : Only p s t) (hact : ∀ z, Only p s z → Only p s (act z)) : Only p s (State.flitIn t x1 f crcOk act) := by
  unfold State.flitIn
  try dsimp -zeta only
  repeat' first
    | with_reducible assumption
    | with_reducible exact Only.refl _ _
    | ((with_reducible refine Parts.leq ?_); exact Parts.le_trans rfl hq)
    | apply hact
    | with_reducible apply State.flitHead_only
    | with_reducible apply State.crcFail_only
    | (extract_lets +onlyGivenNames x; first
        | (refine Only.cut (p := p) (s := s) (x := x) (fun hx => ?_) ?_; clear_value x; revert x; intro y hy; rotate_left; unfold x; clear x)
        | (refine Only.cut1 (p := p) (s := s) (x := x) (fun hx => ?_) ?_; clear_value x; revert x; intro y hy; rotate_left; unfold x; clear x)
        | (refine Only.cut2 (p := p) (s := s) (x := x) (fun hx => ?_) ?_; clear_value x; revert x; intro y hy; rotate_left; unfold x; clear x)
        | (revert x; intro y))
    | simp (disch := with_unfolding_all (apply Parts.same; apply Eq.refl)) only [Only.set_iff]
    | with_reducible apply Only.foldl
    | with_reducible apply Only.foldl_fst
    | (refine Only.of_fst ‹_ = _› ?_)
    | (refine Only.of_snd ‹_ = _› ?_)
    | split
    | (intro)

theorem execIdleFlitReceive_only {s u : State} {x0 : Nat} {f : Flit} {crcOk : Bool} (e : execIdleFlitReceive x0 f crcOk s = .next u) : Only { regs := true, flt := true, fab := true, out := true, obs := true } s u := by
  unfold execIdleFlitReceive at e
  injection e with e
  subst e
  try dsimp -zeta only
  repeat' first
    | with_reducible assumption
    | with_reducible exact Only.refl _ _
    | ((with_reducible refine Parts.leq ?_); rfl)
    | simp only [id_eq]
    | with_reducible apply State.flitIn_only
    | (extract_lets +onlyGivenNames x; first
        | (refine Only.cut (p := { regs := true, flt := true, fab := true, out := true, obs := true }) (s := s) (x := x) (fun hx => ?_) ?_; clear_value x; revert x; intro y hy; rotate_left; unfold x; clear x)
        | (refine Only.cut1 (p := { regs := true, flt := true, fab := true, out := true, obs := true }) (s := s) (x := x) (fun hx => ?_) ?_; clear_value x; revert x; intro y hy; rotate_left; unfold x; clear x)
        | (refine Only.cut2 (p := { regs := true, flt := true, fab := true, out := true, obs := true }) (s := s) (x := x) (fun hx => ?_) ?_; clear_value x; revert x; intro y hy; rotate_left; unfold x; clear x)
        | (revert x; intro y))
    | simp (disch := with_unfolding_all (apply Parts.same; apply Eq.refl)) only [Only.set_iff]
    | with_reducible apply Only.foldl
    | with_reducible apply Only.foldl_fst
    | (refine Only.of_fst ‹_ = _› ?_)
    | (refine Only.of_snd ‹_ = _› ?_)
    | split
    | (intro)

theorem State.rejectFlit_only {p : Parts} {s t : State} {x1 : Nat} (hq : Parts.le { fab := true, out := true } p = true) (h : Only p s t) : Only p s (State.rejectFlit t x1) := by
  refine Only.step hq h ?_
  unfold State.rejectFlit
  try dsimp -zeta only
  repeat' first
    | with_reducible assumption
    | with_reducible exact Only.refl _ _
    | ((with_reducible refine Parts.leq ?_); rfl)
    | with_reducible apply State.sendNak_only
    | (extract_lets +onlyGivenNames x; first
        | (refine Only.cut (p := { fab := true, out := true }) (s := t) (x := x) (fun hx => ?_) ?_; clear_value x; revert x; intro y hy; rotate_left; unfold x; clear x)
        | (refine Only.cut1 (p := { fab := true, out := true }) (s := t) (x := x) (fun hx => ?_) ?_; clear_value x; revert x; intro y hy; rotate_left; unfold x; clear x)
        | (refine Only.cut2 (p := { fab := true, out := true }) (s := t) (x := x) (fun hx => ?_) ?_; clear_value x; revert x; intro y hy; rotate_left; unfold x; clear x)
        | (revert x; intro y))
    | simp (disch := with_unfolding_all (apply Parts.same; apply Eq.refl)) only [Only.set_iff]
    | with_reducible apply Only.foldl
    | with_reducible apply Only.foldl_fst
    | (refine Only.of_fst ‹_ = _› ?_)
    | (refine Only.of_snd ‹_ = _› ?_)
    | split
    | (intro)

theorem State.takePayload_only {p : Parts} {s t : State} {x1 : Nat} {f : Flit} (hq : Parts.le { fab := true } p = true) (h : Only p s t) : Only p s (State.takePayload t x1 f) := by
  refine Only.step hq h ?_
  unfold State.takePayload
  repeat' first
    | with_reducible exact Only.refl _ _
    | ((with_reducible refine Parts.leq ?_); rfl)
    | with_reducible apply State.setPort_only
    | split

theorem State.ackDue_only {p : Parts} {s t : State} {x1 : Nat} (hq : Parts.le { fab := true, out := true } p = true) (h : Only p s t) : Only p s (State.ackDue t x1) := by
  refine Only.step hq h ?_
  unfold State.ackDue
  repeat' first
    | with_reducible exact Only.refl _ _
    | ((with_reducible refine Parts.leq ?_); rfl)
    | with_reducible apply State.putFlit_only
    | split

theorem dataFlit_only {p : Parts} {s t : State} {x1 : Nat} {f : Flit} {crcOk : Bool} (hq : Parts.le { regs := true, flt := true, fab := true, out := true, obs := true } p = true) (h : Only p s t) : Only p s (dataFlit t x1 f crcOk) := by
  refine Only.step hq h ?_
  unfold dataFlit
  try dsimp -zeta only
  repeat' first
    | with_reducible assumption
    | with_reducible exact Only.refl _ _
    | ((with_reducible refine Parts.leq ?_); rfl)
    | with_reducible apply State.crcFail_only
    | with_reducible apply State.rejectFlit_only
    | with_reducible apply State.flitHead_only
    | with_reducible apply State.setPort_only
    | with_reducible apply State.bump_only
    | with_reducible apply State.takePayload_only
    | with_reducible apply State.evCount_only
    | with_reducible apply State.ackDue_only
    | (extract_lets +onlyGivenNames x; first
        | (refine Only.cut (p := { regs := true, flt := true, fab := true, out := true, obs := true }) (s := t) (x := x) (fun hx => ?_) ?_; clear_value x; revert x; intro y hy; rotate_left; unfold x; clear x)
        | (refine Only.cut1 (p := { regs := true, flt := true, fab := true, out := true, obs := true }) (s := t) (x := x) (fun hx => ?_) ?_; clear_value x; revert x; intro y hy; rotate_left; unfold x; clear x)
        | (refine Only.cut2 (p := { regs := true, flt := true, fab := true, out := true, obs := true }) (s := t) (x := x) (fun hx => ?_) ?_; clear_value x; revert x; intro y hy; rotate_left; unfold x; clear x)
        | (revert x; intro y))
    | simp (disch := with_unfolding_all (apply Parts.same; apply Eq.refl)) only [Only.set_iff]
    | with_reducible apply Only.foldl
    | with_reducible apply Only.foldl_fst
    | (refine Only.of_fst ‹_ = _› ?_)
    | (refine Only.of_snd ‹_ = _› ?_)
    | split
    | (intro)

theorem execDataFlitReceive_only {s u : State} {x0 : Nat} {f : Flit} {crcOk : Bool} (e : execDataFlitReceive x0 f crcOk s = .next u) : Only { regs := true, flt := true, fab := true, out := true, obs := true } s u := by
  unfold execDataFlitReceive at e
  injection e with e
  subst e
  repeat' first
    | with_reducible exact Only.refl _ _
    | ((with_reducible refine Parts.leq ?_); rfl)
    | with_reducible apply dataFlit_only
    | split

theorem State.resendVc0_only {p : Parts} {s t : State} {r : Nat} {qs : List Queued} (hq : Parts.le { regs := true, fab := true, tor := true } p = true) (h : Only p s t) : Only p s (State.resendVc0 t r qs) := by
  refine Only.step hq h ?_
  unfold State.resendVc0
  try dsimp -zeta only
  repeat' first
    | with_reducible assumption
    | with_reducible exact Only.refl _ _
    | ((with_reducible refine Parts.leq ?_); rfl)
    | refine State.tryForward_only ?_ ?_ ‹_›
    | refine State.tryForward_only ?_ ?_ (some_of_ite ‹_›)
    | with_reducible apply State.bump_only
    | (extract_lets +onlyGivenNames x; first
        | (refine Only.cut (p := { regs := true, fab := true, tor := true }) (s := t) (x := x) (fun hx => ?_) ?_; clear_value x; revert x; intro y hy; rotate_left; unfold x; clear x)
        | (refine Only.cut1 (p := { regs := true, fab := true, tor := true }) (s := t) (x := x) (fun hx => ?_) ?_; clear_value x; revert x; intro y hy; rotate_left; unfold x; clear x)
        | (refine Only.cut2 (p := { regs := true, fab := true, tor := true }) (s := t) (x := x) (fun hx => ?_) ?_; clear_value x; revert x; intro y hy; rotate_left; unfold x; clear x)
        | (revert x; intro y))
    | simp (disch := with_unfolding_all (apply Parts.same; apply Eq.refl)) only [Only.set_iff]
    | with_reducible apply Only.foldl
    | with_reducible apply Only.foldr
    | with_reducible apply Only.foldl_fst
    | (refine Only.of_fst ‹_ = _› ?_)
    | (refine Only.of_snd ‹_ = _› ?_)
    | split
    | (intro)

theorem State.dropTraffic_only {p : Parts} {s t : State} {x1 : Nat} (hq : Parts.le { regs := true, flt := true, fab := true, tor := true } p = true) (h : Only p s t) : Only p s (State.dropTraffic t x1).1 := by
  refine Only.step hq h ?_
  unfold State.dropTraffic
  try dsimp -zeta only
  repeat' first
    | with_reducible assumption
    | with_reducible exact Only.refl _ _
    | ((with_reducible refine Parts.leq ?_); rfl)
    | with_reducible apply State.closeHold_only
    | with_reducible apply State.allCreditsBack_only
    | with_reducible apply State.resendVc0_only
    | with_reducible apply State.setPort_only
    | (extract_lets +onlyGivenNames x; first
        | (refine Only.cut (p := { regs := true, flt := true, fab := true, tor := true }) (s := t) (x := x) (fun hx => ?_) ?_; clear_value x; revert x; intro y hy; rotate_left; unfold x; clear x)
        | (refine Only.cut1 (p := { regs := true, flt := true, fab := true, tor := true }) (s := t) (x := x) (fun hx => ?_) ?_; clear_value x; revert x; intro y hy; rotate_left; unfold x; clear x)
        | (refine Only.cut2 (p := { regs := true, flt := true, fab := true, tor := true }) (s := t) (x := x) (fun hx => ?_) ?_; clear_value x; revert x; intro y hy; rotate_left; unfold x; clear x)
        | (revert x; intro y))
    | simp (disch := with_unfolding_all (apply Parts.same; apply Eq.refl)) only [Only.set_iff]
    | with_reducible apply Only.foldl
    | with_reducible apply Only.foldl_fst
    | (refine Only.of_fst ‹_ = _› ?_)
    | (refine Only.of_snd ‹_ = _› ?_)
    | split
    | (intro)

theorem portDown_only {p : Parts} {s t : State} {x1 : Nat} (hq : Parts.le (Parts.report.or { fab := true, tor := true }) p = true) (h : Only p s t) : Only p s (portDown t x1) := by
  refine Only.step hq h ?_
  unfold portDown
  try dsimp -zeta only
  repeat' first
    | with_reducible assumption
    | with_reducible exact Only.refl _ _
    | ((with_reducible refine Parts.leq ?_); rfl)
    | with_reducible apply State.setPortState_only
    | with_reducible apply State.dropTraffic_only
    | with_reducible apply State.setPort_only
    | with_reducible apply State.report_only
    | (extract_lets +onlyGivenNames x; first
        | (refine Only.cut (p := (Parts.report.or { fab := true, tor := true })) (s := t) (x := x) (fun hx => ?_) ?_; clear_value x; revert x; intro y hy; rotate_left; unfold x; clear x)
        | (refine Only.cut1 (p := (Parts.report.or { fab := true, tor := true })) (s := t) (x := x) (fun hx => ?_) ?_; clear_value x; revert x; intro y hy; rotate_left; unfold x; clear x)
        | (refine Only.cut2 (p := (Parts.report.or { fab := true, tor := true })) (s := t) (x := x) (fun hx => ?_) ?_; clear_value x; revert x; intro y hy; rotate_left; unfold x; clear x)
        | (revert x; intro y))
    | simp (disch := with_unfolding_all (apply Parts.same; apply Eq.refl)) only [Only.set_iff]
    | with_reducible apply Only.foldl
    | with_reducible apply Only.foldl_fst
    | (refine Only.of_fst ‹_ = _› ?_)
    | (refine Only.of_snd ‹_ = _› ?_)
    | split
    | (intro)

theorem State.retrain_only {p : Parts} {s t : State} {x1 : Nat} (hq : Parts.le (Parts.report.or { fab := true, tor := true }) p = true) (h : Only p s t) : Only p s (State.retrain t x1) := by
  refine Only.step hq h ?_
  unfold State.retrain
  try dsimp -zeta only
  repeat' first
    | with_reducible assumption
    | with_reducible exact Only.refl _ _
    | ((with_reducible refine Parts.leq ?_); rfl)
    | with_reducible apply State.train_only
    | with_reducible apply portDown_only
    | (extract_lets +onlyGivenNames x; first
        | (refine Only.cut (p := (Parts.report.or { fab := true, tor := true })) (s := t) (x := x) (fun hx => ?_) ?_; clear_value x; revert x; intro y hy; rotate_left; unfold x; clear x)
        | (refine Only.cut1 (p := (Parts.report.or { fab := true, tor := true })) (s := t) (x := x) (fun hx => ?_) ?_; clear_value x; revert x; intro y hy; rotate_left; unfold x; clear x)
        | (refine Only.cut2 (p := (Parts.report.or { fab := true, tor := true })) (s := t) (x := x) (fun hx => ?_) ?_; clear_value x; revert x; intro y hy; rotate_left; unfold x; clear x)
        | (revert x; intro y))
    | simp (disch := with_unfolding_all (apply Parts.same; apply Eq.refl)) only [Only.set_iff]
    | with_reducible apply Only.foldl
    | with_reducible apply Only.foldl_fst
    | (refine Only.of_fst ‹_ = _› ?_)
    | (refine Only.of_snd ‹_ = _› ?_)
    | split
    | (intro)

theorem execPortRetrain_only {s u : State} {x0 : Nat} (e : execPortRetrain x0 s = .next u) : Only (Parts.report.or { fab := true, tor := true }) s u := by
  unfold execPortRetrain at e
  injection e with e
  subst e
  try dsimp -zeta only
  repeat' first
    | with_reducible assumption
    | with_reducible exact Only.refl _ _
    | ((with_reducible refine Parts.leq ?_); rfl)
    | with_reducible apply State.retrain_only
    | (extract_lets +onlyGivenNames x; first
        | (refine Only.cut (p := (Parts.report.or { fab := true, tor := true })) (s := s) (x := x) (fun hx => ?_) ?_; clear_value x; revert x; intro y hy; rotate_left; unfold x; clear x)
        | (refine Only.cut1 (p := (Parts.report.or { fab := true, tor := true })) (s := s) (x := x) (fun hx => ?_) ?_; clear_value x; revert x; intro y hy; rotate_left; unfold x; clear x)
        | (refine Only.cut2 (p := (Parts.report.or { fab := true, tor := true })) (s := s) (x := x) (fun hx => ?_) ?_; clear_value x; revert x; intro y hy; rotate_left; unfold x; clear x)
        | (revert x; intro y))
    | simp (disch := with_unfolding_all (apply Parts.same; apply Eq.refl)) only [Only.set_iff]
    | with_reducible apply Only.foldl
    | with_reducible apply Only.foldl_fst
    | (refine Only.of_fst ‹_ = _› ?_)
    | (refine Only.of_snd ‹_ = _› ?_)
    | split
    | (intro)

theorem execPortLinkLoss_only {s u : State} {x0 : Nat} (e : execPortLinkLoss x0 s = .next u) : Only (Parts.report.or { fab := true, tor := true }) s u := by
  unfold execPortLinkLoss at e
  injection e with e
  subst e
  try dsimp -zeta only
  repeat' first
    | with_reducible assumption
    | with_reducible exact Only.refl _ _
    | ((with_reducible refine Parts.leq ?_); rfl)
    | with_reducible apply State.retrain_only
    | (extract_lets +onlyGivenNames x; first
        | (refine Only.cut (p := (Parts.report.or { fab := true, tor := true })) (s := s) (x := x) (fun hx => ?_) ?_; clear_value x; revert x; intro y hy; rotate_left; unfold x; clear x)
        | (refine Only.cut1 (p := (Parts.report.or { fab := true, tor := true })) (s := s) (x := x) (fun hx => ?_) ?_; clear_value x; revert x; intro y hy; rotate_left; unfold x; clear x)
        | (refine Only.cut2 (p := (Parts.report.or { fab := true, tor := true })) (s := s) (x := x) (fun hx => ?_) ?_; clear_value x; revert x; intro y hy; rotate_left; unfold x; clear x)
        | (revert x; intro y))
    | simp (disch := with_unfolding_all (apply Parts.same; apply Eq.refl)) only [Only.set_iff]
    | with_reducible apply Only.foldl
    | with_reducible apply Only.foldl_fst
    | (refine Only.of_fst ‹_ = _› ?_)
    | (refine Only.of_snd ‹_ = _› ?_)
    | split
    | (intro)

theorem execPortDownRetry_only {s u : State} {x0 : Nat} (e : execPortDownRetry x0 s = .next u) : Only { regs := true, trf := true, clk := true, flt := true, fab := true, journal := true } s u := by
  unfold execPortDownRetry at e
  injection e with e
  subst e
  repeat' first
    | with_reducible exact Only.refl _ _
    | ((with_reducible refine Parts.leq ?_); rfl)
    | with_reducible apply State.train_only
    | with_reducible apply State.reach_only
    | split

theorem execPortTrainingTimeout_only {s u : State} {x0 : Nat} (e : execPortTrainingTimeout x0 s = .next u) : Only (Parts.report.or { clk := true, fab := true, tor := true }) s u := by
  unfold execPortTrainingTimeout at e
  injection e with e
  subst e
  try dsimp -zeta only
  repeat' first
    | with_reducible assumption
    | with_reducible exact Only.refl _ _
    | ((with_reducible refine Parts.leq ?_); rfl)
    | with_reducible apply portDown_only
    | with_reducible apply State.reach_only
    | (extract_lets +onlyGivenNames x; first
        | (refine Only.cut (p := (Parts.report.or { clk := true, fab := true, tor := true })) (s := s) (x := x) (fun hx => ?_) ?_; clear_value x; revert x; intro y hy; rotate_left; unfold x; clear x)
        | (refine Only.cut1 (p := (Parts.report.or { clk := true, fab := true, tor := true })) (s := s) (x := x) (fun hx => ?_) ?_; clear_value x; revert x; intro y hy; rotate_left; unfold x; clear x)
        | (refine Only.cut2 (p := (Parts.report.or { clk := true, fab := true, tor := true })) (s := s) (x := x) (fun hx => ?_) ?_; clear_value x; revert x; intro y hy; rotate_left; unfold x; clear x)
        | (revert x; intro y))
    | simp (disch := with_unfolding_all (apply Parts.same; apply Eq.refl)) only [Only.set_iff]
    | with_reducible apply Only.foldl
    | with_reducible apply Only.foldl_fst
    | (refine Only.of_fst ‹_ = _› ?_)
    | (refine Only.of_snd ‹_ = _› ?_)
    | split
    | (intro)

theorem trained_only {p : Parts} {s t : State} {x1 : Nat} {lastSeq : Nat} {passedOff : Bool} (hq : Parts.le (Parts.report.or { fab := true }) p = true) (h : Only p s t) : Only p s (trained t x1 lastSeq passedOff) := by
  refine Only.step hq h ?_
  unfold trained
  try dsimp -zeta only
  repeat' first
    | with_reducible assumption
    | with_reducible exact Only.refl _ _
    | ((with_reducible refine Parts.leq ?_); rfl)
    | with_reducible apply State.bump_only
    | with_reducible apply State.allCreditsBack_only
    | with_reducible apply State.setPort_only
    | with_reducible apply State.ackUpTo_only
    | with_reducible apply State.putFlit_only
    | with_reducible apply State.auditPort_only
    | with_reducible apply State.setPortState_only
    | (extract_lets +onlyGivenNames x; first
        | (refine Only.cut (p := (Parts.report.or { fab := true })) (s := t) (x := x) (fun hx => ?_) ?_; clear_value x; revert x; intro y hy; rotate_left; unfold x; clear x)
        | (refine Only.cut1 (p := (Parts.report.or { fab := true })) (s := t) (x := x) (fun hx => ?_) ?_; clear_value x; revert x; intro y hy; rotate_left; unfold x; clear x)
        | (refine Only.cut2 (p := (Parts.report.or { fab := true })) (s := t) (x := x) (fun hx => ?_) ?_; clear_value x; revert x; intro y hy; rotate_left; unfold x; clear x)
        | (revert x; intro y))
    | simp (disch := with_unfolding_all (apply Parts.same; apply Eq.refl)) only [Only.set_iff]
    | with_reducible apply Only.foldl
    | with_reducible apply Only.foldl_fst
    | (refine Only.of_fst ‹_ = _› ?_)
    | (refine Only.of_snd ‹_ = _› ?_)
    | split
    | (intro)

theorem execPortTrainingComplete_only {s u : State} {x0 : Nat} {lastSeq : Nat} {passedOff : Bool} (e : execPortTrainingComplete x0 lastSeq passedOff s = .next u) : Only (Parts.report.or { fab := true }) s u := by
  unfold execPortTrainingComplete at e
  injection e with e
  subst e
  repeat' first
    | with_reducible exact Only.refl _ _
    | ((with_reducible refine Parts.leq ?_); rfl)
    | with_reducible apply trained_only
    | split

theorem State.portOff_only {p : Parts} {s t : State} {x1 : Nat} (hq : Parts.le { regs := true, trf := true, flt := true, fab := true, tor := true, journal := true } p = true) (h : Only p s t) : Only p s (State.portOff t x1) := by
  refine Only.step hq h ?_
  unfold State.portOff
  try dsimp -zeta only
  repeat' first
    | with_reducible assumption
    | with_reducible exact Only.refl _ _
    | ((with_reducible refine Parts.leq ?_); rfl)
    | with_reducible apply State.setPortState_only
    | with_reducible apply State.dropTraffic_only
    | with_reducible apply State.fput_only
    | with_reducible apply State.setPort_only
    | (extract_lets +onlyGivenNames x; first
        | (refine Only.cut (p := { regs := true, trf := true, flt := true, fab := true, tor := true, journal := true }) (s := t) (x := x) (fun hx => ?_) ?_; clear_value x; revert x; intro y hy; rotate_left; unfold x; clear x)
        | (refine Only.cut1 (p := { regs := true, trf := true, flt := true, fab := true, tor := true, journal := true }) (s := t) (x := x) (fun hx => ?_) ?_; clear_value x; revert x; intro y hy; rotate_left; unfold x; clear x)
        | (refine Only.cut2 (p := { regs := true, trf := true, flt := true, fab := true, tor := true, journal := true }) (s := t) (x := x) (fun hx => ?_) ?_; clear_value x; revert x; intro y hy; rotate_left; unfold x; clear x)
        | (revert x; intro y))
    | simp (disch := with_unfolding_all (apply Parts.same; apply Eq.refl)) only [Only.set_iff]
    | with_reducible apply Only.foldl
    | with_reducible apply Only.foldl_fst
    | (refine Only.of_fst ‹_ = _› ?_)
    | (refine Only.of_snd ‹_ = _› ?_)
    | split
    | (intro)

theorem State.applyPorts_only {p : Parts} {s t : State} {r : Nat} (hq : Parts.le { regs := true, trf := true, flt := true, fab := true, tor := true, journal := true } p = true) (h : Only p s t) : Only p s (State.applyPorts t r) := by
  refine Only.step hq h ?_
  unfold State.applyPorts
  try dsimp -zeta only
  repeat' first
    | with_reducible assumption
    | with_reducible exact Only.refl _ _
    | ((with_reducible refine Parts.leq ?_); rfl)
    | with_reducible apply State.countPlan_only
    | with_reducible apply State.train_only
    | with_reducible apply State.portOff_only
    | (extract_lets +onlyGivenNames x; first
        | (refine Only.cut (p := { regs := true, trf := true, flt := true, fab := true, tor := true, journal := true }) (s := t) (x := x) (fun hx => ?_) ?_; clear_value x; revert x; intro y hy; rotate_left; unfold x; clear x)
        | (refine Only.cut1 (p := { regs := true, trf := true, flt := true, fab := true, tor := true, journal := true }) (s := t) (x := x) (fun hx => ?_) ?_; clear_value x; revert x; intro y hy; rotate_left; unfold x; clear x)
        | (refine Only.cut2 (p := { regs := true, trf := true, flt := true, fab := true, tor := true, journal := true }) (s := t) (x := x) (fun hx => ?_) ?_; clear_value x; revert x; intro y hy; rotate_left; unfold x; clear x)
        | (revert x; intro y))
    | simp (disch := with_unfolding_all (apply Parts.same; apply Eq.refl)) only [Only.set_iff]
    | with_reducible apply Only.foldl
    | with_reducible apply Only.foldl_fst
    | (refine Only.of_fst ‹_ = _› ?_)
    | (refine Only.of_snd ‹_ = _› ?_)
    | split
    | (intro)

theorem execHelloTimer_only {s u : State}  (e : execHelloTimer s = .next u) : Only (Parts.report.or { fab := true }) s u := by
  unfold execHelloTimer at e
  injection e with e
  subst e
  repeat' first
    | with_reducible assumption
    | with_reducible exact Only.refl _ _
    | ((with_reducible refine Parts.leq ?_); rfl)
    | with_reducible apply State.auditPort_only
    | with_reducible apply State.setPort_only
    | with_reducible apply Only.foldl
    | split
    | (intro)

theorem State.judgeHello_only {p : Parts} {s t : State} {x1 : Nat} {chip : Nat} {port : Nat} (hq : Parts.le (Parts.report.or { fab := true }) p = true) (h : Only p s t) : Only p s (State.judgeHello t x1 chip port) := by
  refine Only.step hq h ?_
  unfold State.judgeHello
  try dsimp -zeta only
  repeat' first
    | with_reducible assumption
    | with_reducible exact Only.refl _ _
    | ((with_reducible refine Parts.leq ?_); rfl)
    | with_reducible apply State.fput_only
    | with_reducible apply State.setPortState_only
    | with_reducible apply State.report_only
    | with_reducible apply State.setPort_only
    | with_reducible apply State.closeHold_only
    | (extract_lets +onlyGivenNames x; first
        | (refine Only.cut (p := (Parts.report.or { fab := true })) (s := t) (x := x) (fun hx => ?_) ?_; clear_value x; revert x; intro y hy; rotate_left; unfold x; clear x)
        | (refine Only.cut1 (p := (Parts.report.or { fab := true })) (s := t) (x := x) (fun hx => ?_) ?_; clear_value x; revert x; intro y hy; rotate_left; unfold x; clear x)
        | (refine Only.cut2 (p := (Parts.report.or { fab := true })) (s := t) (x := x) (fun hx => ?_) ?_; clear_value x; revert x; intro y hy; rotate_left; unfold x; clear x)
        | (revert x; intro y))
    | simp (disch := with_unfolding_all (apply Parts.same; apply Eq.refl)) only [Only.set_iff]
    | with_reducible apply Only.foldl
    | with_reducible apply Only.foldl_fst
    | (refine Only.of_fst ‹_ = _› ?_)
    | (refine Only.of_snd ‹_ = _› ?_)
    | split
    | (intro)

theorem State.answerHello_only {p : Parts} {s t : State} {x1 : Nat} (hq : Parts.le { fab := true, out := true } p = true) (h : Only p s t) : Only p s (State.answerHello t x1) := by
  refine Only.step hq h ?_
  unfold State.answerHello
  repeat' first
    | with_reducible exact Only.refl _ _
    | ((with_reducible refine Parts.leq ?_); rfl)
    | with_reducible apply State.setPort_only
    | with_reducible apply State.putFlit_only
    | (extract_lets +onlyGivenNames x; first
        | (revert x; intro y))
    | split

theorem State.takeHello_only {p : Parts} {s t : State} {x1 : Nat} {chip : Nat} {valid : Bool} {port : Nat} (hq : Parts.le (Parts.report.or { fab := true }) p = true) (h : Only p s t) : Only p s (State.takeHello t x1 chip valid port) := by
  refine Only.step hq h ?_
  unfold State.takeHello
  try dsimp -zeta only
  repeat' first
    | with_reducible assumption
    | with_reducible exact Only.refl _ _
    | ((with_reducible refine Parts.leq ?_); rfl)
    | with_reducible apply State.answerHello_only
    | with_reducible apply State.judgeHello_only
    | (extract_lets +onlyGivenNames x; first
        | (refine Only.cut (p := (Parts.report.or { fab := true })) (s := t) (x := x) (fun hx => ?_) ?_; clear_value x; revert x; intro y hy; rotate_left; unfold x; clear x)
        | (refine Only.cut1 (p := (Parts.report.or { fab := true })) (s := t) (x := x) (fun hx => ?_) ?_; clear_value x; revert x; intro y hy; rotate_left; unfold x; clear x)
        | (refine Only.cut2 (p := (Parts.report.or { fab := true })) (s := t) (x := x) (fun hx => ?_) ?_; clear_value x; revert x; intro y hy; rotate_left; unfold x; clear x)
        | (revert x; intro y))
    | simp (disch := with_unfolding_all (apply Parts.same; apply Eq.refl)) only [Only.set_iff]
    | with_reducible apply Only.foldl
    | with_reducible apply Only.foldl_fst
    | (refine Only.of_fst ‹_ = _› ?_)
    | (refine Only.of_snd ‹_ = _› ?_)
    | split
    | (intro)

theorem execHelloReceive_only {s u : State} {x0 : Nat} {f : Flit} {crcOk : Bool} (e : execHelloReceive x0 f crcOk s = .next u) : Only (Parts.report.or { fab := true }) s u := by
  unfold execHelloReceive at e
  injection e with e
  subst e
  try dsimp -zeta only
  repeat' first
    | with_reducible assumption
    | with_reducible exact Only.refl _ _
    | ((with_reducible refine Parts.leq ?_); rfl)
    | with_reducible apply State.flitIn_only
    | with_reducible apply State.takeHello_only
    | (extract_lets +onlyGivenNames x; first
        | (refine Only.cut (p := (Parts.report.or { fab := true })) (s := s) (x := x) (fun hx => ?_) ?_; clear_value x; revert x; intro y hy; rotate_left; unfold x; clear x)
        | (refine Only.cut1 (p := (Parts.report.or { fab := true })) (s := s) (x := x) (fun hx => ?_) ?_; clear_value x; revert x; intro y hy; rotate_left; unfold x; clear x)
        | (refine Only.cut2 (p := (Parts.report.or { fab := true })) (s := s) (x := x) (fun hx => ?_) ?_; clear_value x; revert x; intro y hy; rotate_left; unfold x; clear x)
        | (revert x; intro y))
    | simp (disch := with_unfolding_all (apply Parts.same; apply Eq.refl)) only [Only.set_iff]
    | with_reducible apply Only.foldl
    | with_reducible apply Only.foldl_fst
    | (refine Only.of_fst ‹_ = _› ?_)
    | (refine Only.of_snd ‹_ = _› ?_)
    | split
    | (intro)

theorem execDiscoveryTimeout_only {s u : State} {x0 : Nat} (e : execDiscoveryTimeout x0 s = .next u) : Only { regs := true, trf := true, clk := true, flt := true, fab := true, tor := true, journal := true } s u := by
  unfold execDiscoveryTimeout at e
  injection e with e
  subst e
  try dsimp -zeta only
  repeat' first
    | with_reducible assumption
    | with_reducible exact Only.refl _ _
    | ((with_reducible refine Parts.leq ?_); rfl)
    | with_reducible apply State.reach_only
    | with_reducible apply State.dropTraffic_only
    | with_reducible apply State.setPortState_only
    | with_reducible apply State.setPort_only
    | with_reducible apply State.countPlan_only
    | (extract_lets +onlyGivenNames x; first
        | (refine Only.cut (p := { regs := true, trf := true, clk := true, flt := true, fab := true, tor := true, journal := true }) (s := s) (x := x) (fun hx => ?_) ?_; clear_value x; revert x; intro y hy; rotate_left; unfold x; clear x)
        | (refine Only.cut1 (p := { regs := true, trf := true, clk := true, flt := true, fab := true, tor := true, journal := true }) (s := s) (x := x) (fun hx => ?_) ?_; clear_value x; revert x; intro y hy; rotate_left; unfold x; clear x)
        | (refine Only.cut2 (p := { regs := true, trf := true, clk := true, flt := true, fab := true, tor := true, journal := true }) (s := s) (x := x) (fun hx => ?_) ?_; clear_value x; revert x; intro y hy; rotate_left; unfold x; clear x)
        | (revert x; intro y))
    | simp (disch := with_unfolding_all (apply Parts.same; apply Eq.refl)) only [Only.set_iff]
    | with_reducible apply Only.foldl
    | with_reducible apply Only.foldl_fst
    | (refine Only.of_fst ‹_ = _› ?_)
    | (refine Only.of_snd ‹_ = _› ?_)
    | split
    | (intro)

theorem State.askKeepWarm_only {p : Parts} {s t : State} {x1 : Nat} (hq : Parts.le { fab := true } p = true) (h : Only p s t) : Only p s (State.askKeepWarm t x1) := by
  refine Only.step hq h ?_
  unfold State.askKeepWarm
  repeat' first
    | with_reducible exact Only.refl _ _
    | ((with_reducible refine Parts.leq ?_); rfl)
    | with_reducible apply State.setPort_only
    | (extract_lets +onlyGivenNames x; first
        | (revert x; intro y))
    | split

theorem State.kwAskedBy_only {p : Parts} {s t : State} {x1 : Nat} (hq : Parts.le { regs := true, fab := true, out := true } p = true) (h : Only p s t) : Only p s (State.kwAskedBy t x1) := by
  refine Only.step hq h ?_
  unfold State.kwAskedBy
  try dsimp -zeta only
  repeat' first
    | with_reducible assumption
    | with_reducible exact Only.refl _ _
    | ((with_reducible refine Parts.leq ?_); rfl)
    | with_reducible apply State.putFlit_only
    | with_reducible apply State.enterKeepWarm_only
    | with_reducible apply State.setPort_only
    | (extract_lets +onlyGivenNames x; first
        | (refine Only.cut (p := { regs := true, fab := true, out := true }) (s := t) (x := x) (fun hx => ?_) ?_; clear_value x; revert x; intro y hy; rotate_left; unfold x; clear x)
        | (refine Only.cut1 (p := { regs := true, fab := true, out := true }) (s := t) (x := x) (fun hx => ?_) ?_; clear_value x; revert x; intro y hy; rotate_left; unfold x; clear x)
        | (refine Only.cut2 (p := { regs := true, fab := true, out := true }) (s := t) (x := x) (fun hx => ?_) ?_; clear_value x; revert x; intro y hy; rotate_left; unfold x; clear x)
        | (revert x; intro y))
    | simp (disch := with_unfolding_all (apply Parts.same; apply Eq.refl)) only [Only.set_iff]
    | with_reducible apply Only.foldl
    | with_reducible apply Only.foldl_fst
    | (refine Only.of_fst ‹_ = _› ?_)
    | (refine Only.of_snd ‹_ = _› ?_)
    | split
    | (intro)

theorem execKeepWarmRequest_only {s u : State} {x0 : Nat} {rx : Option Flit} {crcOk : Bool} (e : execKeepWarmRequest x0 rx crcOk s = .next u) : Only { regs := true, flt := true, fab := true, out := true, obs := true } s u := by
  unfold execKeepWarmRequest at e
  injection e with e
  subst e
  try dsimp -zeta only
  repeat' first
    | with_reducible assumption
    | with_reducible exact Only.refl _ _
    | ((with_reducible refine Parts.leq ?_); rfl)
    | with_reducible apply State.askKeepWarm_only
    | with_reducible apply State.flitIn_only
    | with_reducible apply State.kwAskedBy_only
    | (extract_lets +onlyGivenNames x; first
        | (refine Only.cut (p := { regs := true, flt := true, fab := true, out := true, obs := true }) (s := s) (x := x) (fun hx => ?_) ?_; clear_value x; revert x; intro y hy; rotate_left; unfold x; clear x)
        | (refine Only.cut1 (p := { regs := true, flt := true, fab := true, out := true, obs := true }) (s := s) (x := x) (fun hx => ?_) ?_; clear_value x; revert x; intro y hy; rotate_left; unfold x; clear x)
        | (refine Only.cut2 (p := { regs := true, flt := true, fab := true, out := true, obs := true }) (s := s) (x := x) (fun hx => ?_) ?_; clear_value x; revert x; intro y hy; rotate_left; unfold x; clear x)
        | (revert x; intro y))
    | simp (disch := with_unfolding_all (apply Parts.same; apply Eq.refl)) only [Only.set_iff]
    | with_reducible apply Only.foldl
    | with_reducible apply Only.foldl_fst
    | (refine Only.of_fst ‹_ = _› ?_)
    | (refine Only.of_snd ‹_ = _› ?_)
    | split
    | (intro)

theorem State.askExit_only {p : Parts} {s t : State} {x1 : Nat} (hq : Parts.le { fab := true } p = true) (h : Only p s t) : Only p s (State.askExit t x1) := by
  refine Only.step hq h ?_
  unfold State.askExit
  repeat' first
    | with_reducible exact Only.refl _ _
    | ((with_reducible refine Parts.leq ?_); rfl)
    | with_reducible apply State.setPort_only
    | (extract_lets +onlyGivenNames x; first
        | (revert x; intro y))
    | split

theorem execKeepWarmExitRequest_only {s u : State} {x0 : Nat} {rx : Option Flit} {crcOk : Bool} (e : execKeepWarmExitRequest x0 rx crcOk s = .next u) : Only { regs := true, flt := true, fab := true, out := true, obs := true } s u := by
  unfold execKeepWarmExitRequest at e
  injection e with e
  subst e
  try dsimp -zeta only
  repeat' first
    | with_reducible assumption
    | with_reducible exact Only.refl _ _
    | ((with_reducible refine Parts.leq ?_); rfl)
    | with_reducible apply State.askExit_only
    | with_reducible apply State.flitIn_only
    | with_reducible apply State.setPort_only
    | (extract_lets +onlyGivenNames x; first
        | (refine Only.cut (p := { regs := true, flt := true, fab := true, out := true, obs := true }) (s := s) (x := x) (fun hx => ?_) ?_; clear_value x; revert x; intro y hy; rotate_left; unfold x; clear x)
        | (refine Only.cut1 (p := { regs := true, flt := true, fab := true, out := true, obs := true }) (s := s) (x := x) (fun hx => ?_) ?_; clear_value x; revert x; intro y hy; rotate_left; unfold x; clear x)
        | (refine Only.cut2 (p := { regs := true, flt := true, fab := true, out := true, obs := true }) (s := s) (x := x) (fun hx => ?_) ?_; clear_value x; revert x; intro y hy; rotate_left; unfold x; clear x)
        | (revert x; intro y))
    | simp (disch := with_unfolding_all (apply Parts.same; apply Eq.refl)) only [Only.set_iff]
    | with_reducible apply Only.foldl
    | with_reducible apply Only.foldl_fst
    | (refine Only.of_fst ‹_ = _› ?_)
    | (refine Only.of_snd ‹_ = _› ?_)
    | split
    | (intro)

theorem execKeepWarmExitComplete_only {s u : State} {x0 : Nat} (e : execKeepWarmExitComplete x0 s = .next u) : Only { regs := true, fab := true } s u := by
  unfold execKeepWarmExitComplete at e
  injection e with e
  subst e
  repeat' first
    | with_reducible exact Only.refl _ _
    | ((with_reducible refine Parts.leq ?_); rfl)
    | with_reducible apply State.fput_only
    | with_reducible apply State.setPort_only
    | split

end Sys2Proof.Machine
end

