-- ==== Sys2Proof/Laws/OnlyHalt.lean ====
section
/-!
SUPPORT. Which parts of the state the operations of Machine/Halt.lean may change (Safety.lean).
-/
namespace Sys2Proof.Machine

open Sys2Proof

theorem State.haltRope_only {p : Parts} {s t : State} {d : Started} (hq : Parts.le { regs := true, fab := true, tor := true } p = true) (h : Only p s t) : Only p s (State.haltRope t d) := by
  refine Only.step hq h ?_
  unfold State.haltRope
  try dsimp -zeta only
  repeat' first
    | with_reducible assumption
    | with_reducible exact Only.refl _ _
    | ((with_reducible refine Parts.leq ?_); rfl)
    | with_reducible apply State.rootDisarm_only
    | (extract_lets +onlyGivenNames x; first
        | (refine Only.cut (p := { regs := true, fab := true, tor := true }) (s := t) (x := x) (fun hx => ?_) ?_; clear_value x; revert x; intro y hy; rotate_left; unfold x; clear x)
        | (refine Only.cut1 (p := { regs := true, fab := true, tor := true }) (s := t) (x := x) (fun hx => ?_) ?_; clear_value x; revert x; intro y hy; rotate_left; unfold x; clear x)
        | (refine Only.cut2 (p := { regs := true, fab := true, tor := true }) (s := t) (x := x) (fun hx => ?_) ?_; clear_value x; revert x; intro y hy; rotate_left; unfold x; clear x)
        | (revert x; intro y))
    | simp (disch := with_unfolding_all (apply Parts.same; apply Eq.refl)) only [Only.set_iff]
    | with_reducible apply Only.foldl
    | with_reducible apply Only.foldl_fst
    | (refine Only.of_fst ‹_ = _› ?_)
    | (refine Only.of_snd ‹_ = _› ?_)
    | split
    | (intro)

theorem State.haltScan_only {p : Parts} {s t : State} {d : Started} (hq : Parts.le { regs := true, dark := true, scan := true } p = true) (h : Only p s t) : Only p s (State.haltScan t d) := by
  refine Only.step hq h ?_
  unfold State.haltScan
  repeat' first
    | with_reducible exact Only.refl _ _
    | ((with_reducible refine Parts.leq ?_); rfl)
    | with_reducible apply State.scanOver_only
    | with_reducible apply State.dieOn_only
    | split

theorem State.haltCaddy_only {p : Parts} {s t : State} {d : Started} (hq : Parts.le { caddy := true } p = true) (h : Only p s t) : Only p s (State.haltCaddy t d) := by
  refine Only.step hq h ?_
  unfold State.haltCaddy
  repeat' first
    | with_reducible exact Only.refl _ _
    | ((with_reducible refine Parts.leq ?_); rfl)
    | simp (disch := with_unfolding_all (apply Parts.same; apply Eq.refl)) only [Only.set_iff]
    | split

theorem State.haltDesc_only {p : Parts} {s t : State} {d : Started} {done : Done} (hq : Parts.le ((Parts.report.or Parts.memory).or { started := true, heldWr := true, fab := true, tor := true, freeCtr := true, dark := true, arr := true, sump := true, gathers := true, upd := true, ranks := true, scan := true, caddy := true }) p = true) (h : Only p s t) : Only p s (State.haltDesc t d done) := by
  refine Only.step hq h ?_
  unfold State.haltDesc
  try dsimp -zeta only
  repeat' first
    | with_reducible assumption
    | with_reducible exact Only.refl _ _
    | ((with_reducible refine Parts.leq ?_); rfl)
    | with_reducible apply State.stopDesc_only
    | with_reducible apply State.haltCaddy_only
    | with_reducible apply State.haltScan_only
    | with_reducible apply State.haltRope_only
    | (extract_lets +onlyGivenNames x; first
        | (refine Only.cut (p := ((Parts.report.or Parts.memory).or { started := true, heldWr := true, fab := true, tor := true, freeCtr := true, dark := true, arr := true, sump := true, gathers := true, upd := true, ranks := true, scan := true, caddy := true })) (s := t) (x := x) (fun hx => ?_) ?_; clear_value x; revert x; intro y hy; rotate_left; unfold x; clear x)
        | (refine Only.cut1 (p := ((Parts.report.or Parts.memory).or { started := true, heldWr := true, fab := true, tor := true, freeCtr := true, dark := true, arr := true, sump := true, gathers := true, upd := true, ranks := true, scan := true, caddy := true })) (s := t) (x := x) (fun hx => ?_) ?_; clear_value x; revert x; intro y hy; rotate_left; unfold x; clear x)
        | (refine Only.cut2 (p := ((Parts.report.or Parts.memory).or { started := true, heldWr := true, fab := true, tor := true, freeCtr := true, dark := true, arr := true, sump := true, gathers := true, upd := true, ranks := true, scan := true, caddy := true })) (s := t) (x := x) (fun hx => ?_) ?_; clear_value x; revert x; intro y hy; rotate_left; unfold x; clear x)
        | (revert x; intro y))
    | simp (disch := with_unfolding_all (apply Parts.same; apply Eq.refl)) only [Only.set_iff]
    | with_reducible apply Only.foldl
    | with_reducible apply Only.foldl_fst
    | (refine Only.of_fst ‹_ = _› ?_)
    | (refine Only.of_snd ‹_ = _› ?_)
    | split
    | (intro)

theorem execDeadlineMiss_only {s u : State} {n : Nat} {seq : Nat} (e : execDeadlineMiss n seq s = .next u) : Only (Parts.report.or { clk := true }) s u := by
  unfold execDeadlineMiss at e
  injection e with e
  subst e
  repeat' first
    | with_reducible exact Only.refl _ _
    | ((with_reducible refine Parts.leq ?_); rfl)
    | with_reducible apply State.reachTime_only
    | with_reducible apply State.declareHang_only
    | with_reducible apply State.report_only
    | split

theorem State.deadlineFetched_only {p : Parts} {s t : State} {n : Nat} {f : Fetched} (hq : Parts.le ((Parts.report.or Parts.memory).or { hostW := true, sq := true, pcie := true, heldWr := true, order := true, fab := true, tor := true, arr := true }) p = true) (h : Only p s t) : Only p s (State.deadlineFetched t n f) := by
  refine Only.step hq h ?_
  unfold State.deadlineFetched
  try dsimp -zeta only
  repeat' first
    | with_reducible assumption
    | with_reducible exact Only.refl _ _
    | ((with_reducible refine Parts.leq ?_); rfl)
    | with_reducible apply State.forgetPrefetch_only
    | with_reducible apply State.setSq_only
    | with_reducible apply State.completeFetched_only
    | (extract_lets +onlyGivenNames x; first
        | (refine Only.cut (p := ((Parts.report.or Parts.memory).or { hostW := true, sq := true, pcie := true, heldWr := true, order := true, fab := true, tor := true, arr := true })) (s := t) (x := x) (fun hx => ?_) ?_; clear_value x; revert x; intro y hy; rotate_left; unfold x; clear x)
        | (refine Only.cut1 (p := ((Parts.report.or Parts.memory).or { hostW := true, sq := true, pcie := true, heldWr := true, order := true, fab := true, tor := true, arr := true })) (s := t) (x := x) (fun hx => ?_) ?_; clear_value x; revert x; intro y hy; rotate_left; unfold x; clear x)
        | (refine Only.cut2 (p := ((Parts.report.or Parts.memory).or { hostW := true, sq := true, pcie := true, heldWr := true, order := true, fab := true, tor := true, arr := true })) (s := t) (x := x) (fun hx => ?_) ?_; clear_value x; revert x; intro y hy; rotate_left; unfold x; clear x)
        | (revert x; intro y))
    | simp (disch := with_unfolding_all (apply Parts.same; apply Eq.refl)) only [Only.set_iff]
    | with_reducible apply Only.foldl
    | with_reducible apply Only.foldl_fst
    | (refine Only.of_fst ‹_ = _› ?_)
    | (refine Only.of_snd ‹_ = _› ?_)
    | split
    | (intro)

theorem execDeadlineExpire_only {s u : State} {n : Nat} {seq : Nat} (e : execDeadlineExpire n seq s = .next u) : Only ((Parts.report.or Parts.memory).or { hostW := true, clk := true, sq := true, started := true, pcie := true, heldWr := true, order := true, fab := true, tor := true, freeCtr := true, dark := true, arr := true, sump := true, gathers := true, upd := true, ranks := true, scan := true, caddy := true }) s u := by
  unfold execDeadlineExpire at e
  injection e with e
  subst e
  try dsimp -zeta only
  repeat' first
    | with_reducible assumption
    | with_reducible exact Only.refl _ _
    | ((with_reducible refine Parts.leq ?_); rfl)
    | with_reducible apply State.deadlineFetched_only
    | with_reducible apply State.reachTime_only
    | with_reducible apply State.haltDesc_only
    | (extract_lets +onlyGivenNames x; first
        | (refine Only.cut (p := ((Parts.report.or Parts.memory).or { hostW := true, clk := true, sq := true, started := true, pcie := true, heldWr := true, order := true, fab := true, tor := true, freeCtr := true, dark := true, arr := true, sump := true, gathers := true, upd := true, ranks := true, scan := true, caddy := true })) (s := s) (x := x) (fun hx => ?_) ?_; clear_value x; revert x; intro y hy; rotate_left; unfold x; clear x)
        | (refine Only.cut1 (p := ((Parts.report.or Parts.memory).or { hostW := true, clk := true, sq := true, started := true, pcie := true, heldWr := true, order := true, fab := true, tor := true, freeCtr := true, dark := true, arr := true, sump := true, gathers := true, upd := true, ranks := true, scan := true, caddy := true })) (s := s) (x := x) (fun hx => ?_) ?_; clear_value x; revert x; intro y hy; rotate_left; unfold x; clear x)
        | (refine Only.cut2 (p := ((Parts.report.or Parts.memory).or { hostW := true, clk := true, sq := true, started := true, pcie := true, heldWr := true, order := true, fab := true, tor := true, freeCtr := true, dark := true, arr := true, sump := true, gathers := true, upd := true, ranks := true, scan := true, caddy := true })) (s := s) (x := x) (fun hx => ?_) ?_; clear_value x; revert x; intro y hy; rotate_left; unfold x; clear x)
        | (revert x; intro y))
    | simp (disch := with_unfolding_all (apply Parts.same; apply Eq.refl)) only [Only.set_iff]
    | with_reducible apply Only.foldl
    | with_reducible apply Only.foldl_fst
    | (refine Only.of_fst ‹_ = _› ?_)
    | (refine Only.of_snd ‹_ = _› ?_)
    | split
    | (intro)

end Sys2Proof.Machine
end

