-- ==== Sys2Proof/Laws/OnlyFaults.lean ====
section
/-!
SUPPORT. Which parts of the state the operations of Machine/Faults.lean may change (Safety.lean).
-/
namespace Sys2Proof.Machine

open Sys2Proof

theorem State.bridgeReport_only {p : Parts} {s t : State} {i : Nat} {die : Nat} {other : Nat} (hq : Parts.le Parts.report p = true) (h : Only p s t) : Only p s (State.bridgeReport t i die other) := by
  refine Only.step hq h ?_
  unfold State.bridgeReport
  repeat' first
    | with_reducible exact Only.refl _ _
    | ((with_reducible refine Parts.leq ?_); rfl)
    | with_reducible apply State.report_only

theorem bridgeDown_only {p : Parts} {s t : State} {i : Nat} (hq : Parts.le Parts.report p = true) (h : Only p s t) : Only p s (bridgeDown t i) := by
  refine Only.step hq h ?_
  unfold bridgeDown
  repeat' first
    | with_reducible exact Only.refl _ _
    | ((with_reducible refine Parts.leq ?_); rfl)
    | with_reducible apply State.bridgeReport_only
    | with_reducible apply State.report_only
    | simp (disch := with_unfolding_all (apply Parts.same; apply Eq.refl)) only [Only.set_iff]
    | split

theorem execBridgeRetryExhausted_only {s u : State} {bridge : Nat} (e : execBridgeRetryExhausted bridge s = .next u) : Only Parts.report s u := by
  unfold execBridgeRetryExhausted at e
  injection e with e
  subst e
  repeat' first
    | with_reducible exact Only.refl _ _
    | ((with_reducible refine Parts.leq ?_); rfl)
    | with_reducible apply bridgeDown_only
    | split

theorem execCongestionEpisode_only {s u : State} {level : Nat} {die : Nat} {point : Nat} {tc : Nat} (e : execCongestionEpisode level die point tc s = .next u) : Only { regs := true, trf := true, flt := true, journal := true } s u := by
  unfold execCongestionEpisode at e
  injection e with e
  subst e
  repeat' first
    | with_reducible exact Only.refl _ _
    | ((with_reducible refine Parts.leq ?_); rfl)
    | with_reducible apply State.event_only
    | with_reducible apply State.bump_only
    | simp (disch := with_unfolding_all (apply Parts.same; apply Eq.refl)) only [Only.set_iff]
    | split

theorem execCongestionEpisodeEnd_only {s u : State} {level : Nat} {die : Nat} {point : Nat} {tc : Nat} (e : execCongestionEpisodeEnd level die point tc s = .next u) : Only { flt := true } s u := by
  unfold execCongestionEpisodeEnd at e
  injection e with e
  subst e
  repeat' first
    | with_reducible exact Only.refl _ _
    | ((with_reducible refine Parts.leq ?_); rfl)
    | simp (disch := with_unfolding_all (apply Parts.same; apply Eq.refl)) only [Only.set_iff]

theorem execCeRate_only {s u : State} {subject : Nat} (e : execCeRate subject s = .next u) : Only Parts.report s u := by
  unfold execCeRate at e
  injection e with e
  subst e
  repeat' first
    | with_reducible exact Only.refl _ _
    | ((with_reducible refine Parts.leq ?_); rfl)
    | with_reducible apply State.report_only
    | simp (disch := with_unfolding_all (apply Parts.same; apply Eq.refl)) only [Only.set_iff]
    | split

theorem State.timedOut_only {p : Parts} {s t : State} {d : Started} {die : Nat} {target : Nat} {lower : Bool} (hq : Parts.le ((Parts.report.or Parts.memory).or { started := true, heldWr := true, fab := true, tor := true, freeCtr := true, dark := true, arr := true, sump := true, gathers := true, upd := true, ranks := true, scan := true, caddy := true }) p = true) (h : Only p s t) : Only p s (State.timedOut t d die target lower) := by
  refine Only.step hq h ?_
  unfold State.timedOut
  try dsimp -zeta only
  repeat' first
    | with_reducible assumption
    | with_reducible exact Only.refl _ _
    | ((with_reducible refine Parts.leq ?_); rfl)
    | with_reducible apply State.report_only
    | with_reducible apply State.haltDesc_only
    | (extract_lets +onlyGivenNames x; first
        | (refine Only.cut (p := ((Parts.report.or Parts.memory).or { started := true, heldWr := true, fab := true, tor := true, freeCtr := true, dark := true, arr := true, sump := true, gathers := true, upd := true, ranks := true, scan := true, caddy := true })) (s := t) (x := x) (fun hx => ?_) ?_; clear_value x; revert x; intro y hy; rotate_left; unfold x; clear x)
        | (refine Only.cut1 (p := ((Parts.report.or Parts.memory).or { started := true, heldWr := true, fab := true, tor := true, freeCtr := true, dark := true, arr := true, sump := true, gathers := true, upd := true, ranks := true, scan := true, caddy := true })) (s := t) (x := x) (fun hx => ?_) ?_; clear_value x; revert x; intro y hy; rotate_left; unfold x; clear x)
        | (refine Only.cut2 (p := ((Parts.report.or Parts.memory).or { started := true, heldWr := true, fab := true, tor := true, freeCtr := true, dark := true, arr := true, sump := true, gathers := true, upd := true, ranks := true, scan := true, caddy := true })) (s := t) (x := x) (fun hx => ?_) ?_; clear_value x; revert x; intro y hy; rotate_left; unfold x; clear x)
        | (revert x; intro y))
    | simp (disch := with_unfolding_all (apply Parts.same; apply Eq.refl)) only [Only.set_iff]
    | with_reducible apply Only.foldl
    | with_reducible apply Only.foldl_fst
    | (refine Only.of_fst ‹_ = _› ?_)
    | (refine Only.of_snd ‹_ = _› ?_)
    | split
    | (intro)

theorem State.addTimed_only {p : Parts} {s t : State} {x : Timed} (hq : Parts.le { flt := true } p = true) (h : Only p s t) : Only p s (State.addTimed t x) := by
  refine Only.step hq h ?_
  unfold State.addTimed
  try dsimp -zeta only
  repeat' first
    | with_reducible assumption
    | with_reducible exact Only.refl _ _
    | ((with_reducible refine Parts.leq ?_); rfl)
    | (extract_lets +onlyGivenNames x; first
        | (refine Only.cut (p := { flt := true }) (s := t) (x := x) (fun hx => ?_) ?_; clear_value x; revert x; intro y hy; rotate_left; unfold x; clear x)
        | (refine Only.cut1 (p := { flt := true }) (s := t) (x := x) (fun hx => ?_) ?_; clear_value x; revert x; intro y hy; rotate_left; unfold x; clear x)
        | (refine Only.cut2 (p := { flt := true }) (s := t) (x := x) (fun hx => ?_) ?_; clear_value x; revert x; intro y hy; rotate_left; unfold x; clear x)
        | (revert x; intro y))
    | simp (disch := with_unfolding_all (apply Parts.same; apply Eq.refl)) only [Only.set_iff]
    | with_reducible apply Only.foldl
    | with_reducible apply Only.foldl_fst
    | (refine Only.of_fst ‹_ = _› ?_)
    | (refine Only.of_snd ‹_ = _› ?_)
    | split
    | (intro)

theorem requestTimer_only {p : Parts} {s t : State} {d : Started} {kind : Nat} {die : Nat} {target : Nat} {write : Bool} {lower : Bool} (hq : Parts.le ((Parts.report.or Parts.memory).or { clk := true, started := true, heldWr := true, fab := true, tor := true, freeCtr := true, dark := true, arr := true, sump := true, gathers := true, upd := true, ranks := true, scan := true, caddy := true }) p = true) (h : Only p s t) : Only p s (requestTimer t d kind die target write lower) := by
  refine Only.step hq h ?_
  unfold requestTimer
  try dsimp -zeta only
  repeat' first
    | with_reducible assumption
    | with_reducible exact Only.refl _ _
    | ((with_reducible refine Parts.leq ?_); rfl)
    | with_reducible apply State.reach_only
    | with_reducible apply State.timedOut_only
    | with_reducible apply State.newTag_only
    | with_reducible apply State.addTimed_only
    | (extract_lets +onlyGivenNames x; first
        | (refine Only.cut (p := ((Parts.report.or Parts.memory).or { clk := true, started := true, heldWr := true, fab := true, tor := true, freeCtr := true, dark := true, arr := true, sump := true, gathers := true, upd := true, ranks := true, scan := true, caddy := true })) (s := t) (x := x) (fun hx => ?_) ?_; clear_value x; revert x; intro y hy; rotate_left; unfold x; clear x)
        | (refine Only.cut1 (p := ((Parts.report.or Parts.memory).or { clk := true, started := true, heldWr := true, fab := true, tor := true, freeCtr := true, dark := true, arr := true, sump := true, gathers := true, upd := true, ranks := true, scan := true, caddy := true })) (s := t) (x := x) (fun hx => ?_) ?_; clear_value x; revert x; intro y hy; rotate_left; unfold x; clear x)
        | (refine Only.cut2 (p := ((Parts.report.or Parts.memory).or { clk := true, started := true, heldWr := true, fab := true, tor := true, freeCtr := true, dark := true, arr := true, sump := true, gathers := true, upd := true, ranks := true, scan := true, caddy := true })) (s := t) (x := x) (fun hx => ?_) ?_; clear_value x; revert x; intro y hy; rotate_left; unfold x; clear x)
        | (revert x; intro y))
    | simp (disch := with_unfolding_all (apply Parts.same; apply Eq.refl)) only [Only.set_iff]
    | with_reducible apply Only.foldl
    | with_reducible apply Only.foldl_fst
    | (refine Only.of_fst ‹_ = _› ?_)
    | (refine Only.of_snd ‹_ = _› ?_)
    | split
    | (intro)

theorem execRegionTimerExpire_only {s u : State} {n : Nat} {seq : Nat} {die : Nat} {target : Nat} {write : Bool} {lower : Bool} (e : execRegionTimerExpire n seq die target write lower s = .next u) : Only ((Parts.report.or Parts.memory).or { clk := true, started := true, heldWr := true, fab := true, tor := true, freeCtr := true, dark := true, arr := true, sump := true, gathers := true, upd := true, ranks := true, scan := true, caddy := true }) s u := by
  unfold execRegionTimerExpire at e
  injection e with e
  subst e
  try dsimp -zeta only
  repeat' first
    | with_reducible assumption
    | with_reducible exact Only.refl _ _
    | ((with_reducible refine Parts.leq ?_); rfl)
    | with_reducible apply requestTimer_only
    | (extract_lets +onlyGivenNames x; first
        | (refine Only.cut (p := ((Parts.report.or Parts.memory).or { clk := true, started := true, heldWr := true, fab := true, tor := true, freeCtr := true, dark := true, arr := true, sump := true, gathers := true, upd := true, ranks := true, scan := true, caddy := true })) (s := s) (x := x) (fun hx => ?_) ?_; clear_value x; revert x; intro y hy; rotate_left; unfold x; clear x)
        | (refine Only.cut1 (p := ((Parts.report.or Parts.memory).or { clk := true, started := true, heldWr := true, fab := true, tor := true, freeCtr := true, dark := true, arr := true, sump := true, gathers := true, upd := true, ranks := true, scan := true, caddy := true })) (s := s) (x := x) (fun hx => ?_) ?_; clear_value x; revert x; intro y hy; rotate_left; unfold x; clear x)
        | (refine Only.cut2 (p := ((Parts.report.or Parts.memory).or { clk := true, started := true, heldWr := true, fab := true, tor := true, freeCtr := true, dark := true, arr := true, sump := true, gathers := true, upd := true, ranks := true, scan := true, caddy := true })) (s := s) (x := x) (fun hx => ?_) ?_; clear_value x; revert x; intro y hy; rotate_left; unfold x; clear x)
        | (revert x; intro y))
    | simp (disch := with_unfolding_all (apply Parts.same; apply Eq.refl)) only [Only.set_iff]
    | with_reducible apply Only.foldl
    | with_reducible apply Only.foldl_fst
    | (refine Only.of_fst ‹_ = _› ?_)
    | (refine Only.of_snd ‹_ = _› ?_)
    | split
    | (intro)

theorem State.reissueRow_only {p : Parts} {s t : State} {g : GatherRun} {x2 : GPos} {d : Started} (hq : Parts.le { regs := true, fab := true, tor := true, gathers := true } p = true) (h : Only p s t) : Only p s (State.reissueRow t g x2 d) := by
  refine Only.step hq h ?_
  unfold State.reissueRow
  try dsimp -zeta only
  repeat' first
    | with_reducible assumption
    | with_reducible exact Only.refl _ _
    | ((with_reducible refine Parts.leq ?_); rfl)
    | with_reducible apply State.sendRow_only
    | with_reducible apply State.updGather_only
    | (extract_lets +onlyGivenNames x; first
        | (refine Only.cut (p := { regs := true, fab := true, tor := true, gathers := true }) (s := t) (x := x) (fun hx => ?_) ?_; clear_value x; revert x; intro y hy; rotate_left; unfold x; clear x)
        | (refine Only.cut1 (p := { regs := true, fab := true, tor := true, gathers := true }) (s := t) (x := x) (fun hx => ?_) ?_; clear_value x; revert x; intro y hy; rotate_left; unfold x; clear x)
        | (refine Only.cut2 (p := { regs := true, fab := true, tor := true, gathers := true }) (s := t) (x := x) (fun hx => ?_) ?_; clear_value x; revert x; intro y hy; rotate_left; unfold x; clear x)
        | (revert x; intro y))
    | simp (disch := with_unfolding_all (apply Parts.same; apply Eq.refl)) only [Only.set_iff]
    | with_reducible apply Only.foldl
    | with_reducible apply Only.foldl_fst
    | (refine Only.of_fst ‹_ = _› ?_)
    | (refine Only.of_snd ‹_ = _› ?_)
    | split
    | (intro)

theorem rowTimer_only {p : Parts} {s t : State} {g : GatherRun} {x2 : GPos} {lower : Bool} (hq : Parts.le ((Parts.report.or Parts.memory).or { clk := true, started := true, heldWr := true, fab := true, tor := true, freeCtr := true, dark := true, arr := true, sump := true, gathers := true, upd := true, ranks := true, scan := true, caddy := true }) p = true) (h : Only p s t) : Only p s (rowTimer t g x2 lower) := by
  refine Only.step hq h ?_
  unfold rowTimer
  try dsimp -zeta only
  repeat' first
    | with_reducible assumption
    | with_reducible exact Only.refl _ _
    | ((with_reducible refine Parts.leq ?_); rfl)
    | with_reducible apply State.reach_only
    | with_reducible apply State.timedOut_only
    | with_reducible apply State.addTimed_only
    | with_reducible apply State.reissueRow_only
    | (extract_lets +onlyGivenNames x; first
        | (refine Only.cut (p := ((Parts.report.or Parts.memory).or { clk := true, started := true, heldWr := true, fab := true, tor := true, freeCtr := true, dark := true, arr := true, sump := true, gathers := true, upd := true, ranks := true, scan := true, caddy := true })) (s := t) (x := x) (fun hx => ?_) ?_; clear_value x; revert x; intro y hy; rotate_left; unfold x; clear x)
        | (refine Only.cut1 (p := ((Parts.report.or Parts.memory).or { clk := true, started := true, heldWr := true, fab := true, tor := true, freeCtr := true, dark := true, arr := true, sump := true, gathers := true, upd := true, ranks := true, scan := true, caddy := true })) (s := t) (x := x) (fun hx => ?_) ?_; clear_value x; revert x; intro y hy; rotate_left; unfold x; clear x)
        | (refine Only.cut2 (p := ((Parts.report.or Parts.memory).or { clk := true, started := true, heldWr := true, fab := true, tor := true, freeCtr := true, dark := true, arr := true, sump := true, gathers := true, upd := true, ranks := true, scan := true, caddy := true })) (s := t) (x := x) (fun hx => ?_) ?_; clear_value x; revert x; intro y hy; rotate_left; unfold x; clear x)
        | (revert x; intro y))
    | simp (disch := with_unfolding_all (apply Parts.same; apply Eq.refl)) only [Only.set_iff]
    | with_reducible apply Only.foldl
    | with_reducible apply Only.foldl_fst
    | (refine Only.of_fst ‹_ = _› ?_)
    | (refine Only.of_snd ‹_ = _› ?_)
    | split
    | (intro)

theorem readTimer_only {p : Parts} {s t : State} {x : RemRead} {lower : Bool} (hq : Parts.le (Parts.report.or { clk := true, fab := true, tor := true, trelfort := true }) p = true) (h : Only p s t) : Only p s (readTimer t x lower) := by
  refine Only.step hq h ?_
  unfold readTimer
  try dsimp -zeta only
  repeat' first
    | with_reducible assumption
    | with_reducible exact Only.refl _ _
    | ((with_reducible refine Parts.leq ?_); rfl)
    | with_reducible apply State.reach_only
    | with_reducible apply State.report_only
    | with_reducible apply State.replyRead_only
    | with_reducible apply State.newTag_only
    | with_reducible apply State.addTimed_only
    | with_reducible apply State.addRead_only
    | with_reducible apply State.send_only
    | (extract_lets +onlyGivenNames x; first
        | (refine Only.cut (p := (Parts.report.or { clk := true, fab := true, tor := true, trelfort := true })) (s := t) (x := x) (fun hx => ?_) ?_; clear_value x; revert x; intro y hy; rotate_left; unfold x; clear x)
        | (refine Only.cut1 (p := (Parts.report.or { clk := true, fab := true, tor := true, trelfort := true })) (s := t) (x := x) (fun hx => ?_) ?_; clear_value x; revert x; intro y hy; rotate_left; unfold x; clear x)
        | (refine Only.cut2 (p := (Parts.report.or { clk := true, fab := true, tor := true, trelfort := true })) (s := t) (x := x) (fun hx => ?_) ?_; clear_value x; revert x; intro y hy; rotate_left; unfold x; clear x)
        | (revert x; intro y))
    | simp (disch := with_unfolding_all (apply Parts.same; apply Eq.refl)) only [Only.set_iff]
    | with_reducible apply Only.foldl
    | with_reducible apply Only.foldl_fst
    | (refine Only.of_fst ‹_ = _› ?_)
    | (refine Only.of_snd ‹_ = _› ?_)
    | split
    | (intro)

theorem execFabricTimerExpire_only {s u : State} {tag : Nat} {lower : Bool} (e : execFabricTimerExpire tag lower s = .next u) : Only ((Parts.report.or Parts.memory).or { clk := true, started := true, heldWr := true, fab := true, tor := true, freeCtr := true, dark := true, arr := true, sump := true, gathers := true, upd := true, ranks := true, scan := true, trelfort := true, caddy := true }) s u := by
  unfold execFabricTimerExpire at e
  injection e with e
  subst e
  try dsimp -zeta only
  repeat' first
    | with_reducible assumption
    | with_reducible exact Only.refl _ _
    | ((with_reducible refine Parts.leq ?_); rfl)
    | with_reducible apply rowTimer_only
    | with_reducible apply readTimer_only
    | (extract_lets +onlyGivenNames x; first
        | (refine Only.cut (p := ((Parts.report.or Parts.memory).or { clk := true, started := true, heldWr := true, fab := true, tor := true, freeCtr := true, dark := true, arr := true, sump := true, gathers := true, upd := true, ranks := true, scan := true, trelfort := true, caddy := true })) (s := s) (x := x) (fun hx => ?_) ?_; clear_value x; revert x; intro y hy; rotate_left; unfold x; clear x)
        | (refine Only.cut1 (p := ((Parts.report.or Parts.memory).or { clk := true, started := true, heldWr := true, fab := true, tor := true, freeCtr := true, dark := true, arr := true, sump := true, gathers := true, upd := true, ranks := true, scan := true, trelfort := true, caddy := true })) (s := s) (x := x) (fun hx => ?_) ?_; clear_value x; revert x; intro y hy; rotate_left; unfold x; clear x)
        | (refine Only.cut2 (p := ((Parts.report.or Parts.memory).or { clk := true, started := true, heldWr := true, fab := true, tor := true, freeCtr := true, dark := true, arr := true, sump := true, gathers := true, upd := true, ranks := true, scan := true, trelfort := true, caddy := true })) (s := s) (x := x) (fun hx => ?_) ?_; clear_value x; revert x; intro y hy; rotate_left; unfold x; clear x)
        | (revert x; intro y))
    | simp (disch := with_unfolding_all (apply Parts.same; apply Eq.refl)) only [Only.set_iff]
    | with_reducible apply Only.foldl
    | with_reducible apply Only.foldl_fst
    | (refine Only.of_fst ‹_ = _› ?_)
    | (refine Only.of_snd ‹_ = _› ?_)
    | split
    | (intro)

theorem State.auditPool_only {p : Parts} {s t : State} {x1 : Nat} {holdings : Nat} (hq : Parts.le Parts.report p = true) (h : Only p s t) : Only p s (State.auditPool t x1 holdings) := by
  refine Only.step hq h ?_
  unfold State.auditPool
  repeat' first
    | with_reducible exact Only.refl _ _
    | ((with_reducible refine Parts.leq ?_); rfl)
    | with_reducible apply State.report_only
    | (extract_lets +onlyGivenNames x; first
        | (revert x; intro y))
    | split

theorem State.auditBridge_only {p : Parts} {s t : State} {i : Nat} (hq : Parts.le Parts.report p = true) (h : Only p s t) : Only p s (State.auditBridge t i) := by
  refine Only.step hq h ?_
  unfold State.auditBridge
  try dsimp -zeta only
  repeat' first
    | with_reducible assumption
    | with_reducible exact Only.refl _ _
    | ((with_reducible refine Parts.leq ?_); rfl)
    | with_reducible apply State.auditPool_only
    | (extract_lets +onlyGivenNames x; first
        | (refine Only.cut (p := Parts.report) (s := t) (x := x) (fun hx => ?_) ?_; clear_value x; revert x; intro y hy; rotate_left; unfold x; clear x)
        | (refine Only.cut1 (p := Parts.report) (s := t) (x := x) (fun hx => ?_) ?_; clear_value x; revert x; intro y hy; rotate_left; unfold x; clear x)
        | (refine Only.cut2 (p := Parts.report) (s := t) (x := x) (fun hx => ?_) ?_; clear_value x; revert x; intro y hy; rotate_left; unfold x; clear x)
        | (revert x; intro y))
    | simp (disch := with_unfolding_all (apply Parts.same; apply Eq.refl)) only [Only.set_iff]
    | with_reducible apply Only.foldl
    | with_reducible apply Only.foldl_fst
    | (refine Only.of_fst ‹_ = _› ?_)
    | (refine Only.of_snd ‹_ = _› ?_)
    | split
    | (intro)

theorem State.auditRed_only {p : Parts} {s t : State} {x1 : Nat} (hq : Parts.le Parts.report p = true) (h : Only p s t) : Only p s (State.auditRed t x1) := by
  refine Only.step hq h ?_
  unfold State.auditRed
  repeat' first
    | with_reducible exact Only.refl _ _
    | ((with_reducible refine Parts.leq ?_); rfl)
    | with_reducible apply State.report_only
    | (extract_lets +onlyGivenNames x; first
        | (revert x; intro y))
    | split

theorem execRegionSwitchQuiescent_only {s u : State} {r : Nat} (e : execRegionSwitchQuiescent r s = .next u) : Only Parts.report s u := by
  unfold execRegionSwitchQuiescent at e
  injection e with e
  subst e
  repeat' first
    | with_reducible exact Only.refl _ _
    | ((with_reducible refine Parts.leq ?_); rfl)
    | with_reducible apply State.auditPool_only
    | split

theorem State.disablePort_only {p : Parts} {s t : State} {x1 : Nat} (hq : Parts.le (Parts.report.or { inForce := true, fab := true, tor := true }) p = true) (h : Only p s t) : Only p s (State.disablePort t x1) := by
  refine Only.step hq h ?_
  unfold State.disablePort
  try dsimp -zeta only
  repeat' first
    | with_reducible assumption
    | with_reducible exact Only.refl _ _
    | ((with_reducible refine Parts.leq ?_); rfl)
    | with_reducible apply State.fput_only
    | with_reducible apply State.auditPort_only
    | with_reducible apply State.portOff_only
    | (extract_lets +onlyGivenNames x; first
        | (refine Only.cut (p := (Parts.report.or { inForce := true, fab := true, tor := true })) (s := t) (x := x) (fun hx => ?_) ?_; clear_value x; revert x; intro y hy; rotate_left; unfold x; clear x)
        | (refine Only.cut1 (p := (Parts.report.or { inForce := true, fab := true, tor := true })) (s := t) (x := x) (fun hx => ?_) ?_; clear_value x; revert x; intro y hy; rotate_left; unfold x; clear x)
        | (refine Only.cut2 (p := (Parts.report.or { inForce := true, fab := true, tor := true })) (s := t) (x := x) (fun hx => ?_) ?_; clear_value x; revert x; intro y hy; rotate_left; unfold x; clear x)
        | (revert x; intro y))
    | simp (disch := with_unfolding_all (apply Parts.same; apply Eq.refl)) only [Only.set_iff]
    | with_reducible apply Only.foldl
    | with_reducible apply Only.foldl_fst
    | (refine Only.of_fst ‹_ = _› ?_)
    | (refine Only.of_snd ‹_ = _› ?_)
    | split
    | (intro)

theorem State.dropTo_only {p : Parts} {s t : State} {chip : Nat} (hq : Parts.le { fab := true } p = true) (h : Only p s t) : Only p s (State.dropTo t chip) := by
  refine Only.step hq h ?_
  unfold State.dropTo
  repeat' first
    | with_reducible exact Only.refl _ _
    | ((with_reducible refine Parts.leq ?_); rfl)
    | with_reducible apply State.setPort_only
    | with_reducible apply Only.foldl
    | (intro)

theorem State.reclaimHome_only {p : Parts} {s t : State} {chip : Nat} {x2 : HomeBucket} (hq : Parts.le { regs := true, fab := true, tor := true, homes := true } p = true) (h : Only p s t) : Only p s (State.reclaimHome t chip x2) := by
  refine Only.step hq h ?_
  unfold State.reclaimHome
  try dsimp -zeta only
  repeat' first
    | with_reducible assumption
    | with_reducible exact Only.refl _ _
    | ((with_reducible refine Parts.leq ?_); rfl)
    | with_reducible apply State.retractVersion_only
    | with_reducible apply State.putHome_only
    | (extract_lets +onlyGivenNames x; first
        | (refine Only.cut (p := { regs := true, fab := true, tor := true, homes := true }) (s := t) (x := x) (fun hx => ?_) ?_; clear_value x; revert x; intro y hy; rotate_left; unfold x; clear x)
        | (refine Only.cut1 (p := { regs := true, fab := true, tor := true, homes := true }) (s := t) (x := x) (fun hx => ?_) ?_; clear_value x; revert x; intro y hy; rotate_left; unfold x; clear x)
        | (refine Only.cut2 (p := { regs := true, fab := true, tor := true, homes := true }) (s := t) (x := x) (fun hx => ?_) ?_; clear_value x; revert x; intro y hy; rotate_left; unfold x; clear x)
        | (revert x; intro y))
    | simp (disch := with_unfolding_all (apply Parts.same; apply Eq.refl)) only [Only.set_iff]
    | with_reducible apply Only.foldl
    | with_reducible apply Only.foldl_fst
    | (refine Only.of_fst ‹_ = _› ?_)
    | (refine Only.of_snd ‹_ = _› ?_)
    | split
    | (intro)

theorem reclaimChip_only {p : Parts} {s t : State} {d : Started} (hq : Parts.le (Parts.report.or { inForce := true, started := true, fab := true, tor := true, homes := true, quar := true }) p = true) (h : Only p s t) : Only p s (reclaimChip t d) := by
  refine Only.step hq h ?_
  unfold reclaimChip
  try dsimp -zeta only
  repeat' first
    | with_reducible assumption
    | with_reducible exact Only.refl _ _
    | ((with_reducible refine Parts.leq ?_); rfl)
    | with_reducible apply State.setDone_only
    | with_reducible apply State.dropTo_only
    | with_reducible apply State.disablePort_only
    | with_reducible apply State.reclaimHome_only
    | with_reducible apply State.auditRed_only
    | (extract_lets +onlyGivenNames x; first
        | (refine Only.cut (p := (Parts.report.or { inForce := true, started := true, fab := true, tor := true, homes := true, quar := true })) (s := t) (x := x) (fun hx => ?_) ?_; clear_value x; revert x; intro y hy; rotate_left; unfold x; clear x)
        | (refine Only.cut1 (p := (Parts.report.or { inForce := true, started := true, fab := true, tor := true, homes := true, quar := true })) (s := t) (x := x) (fun hx => ?_) ?_; clear_value x; revert x; intro y hy; rotate_left; unfold x; clear x)
        | (refine Only.cut2 (p := (Parts.report.or { inForce := true, started := true, fab := true, tor := true, homes := true, quar := true })) (s := t) (x := x) (fun hx => ?_) ?_; clear_value x; revert x; intro y hy; rotate_left; unfold x; clear x)
        | (revert x; intro y))
    | simp (disch := with_unfolding_all (apply Parts.same; apply Eq.refl)) only [Only.set_iff]
    | with_reducible apply Only.foldl
    | with_reducible apply Only.foldl_fst
    | (refine Only.of_fst ‹_ = _› ?_)
    | (refine Only.of_snd ‹_ = _› ?_)
    | split
    | (intro)

theorem execReclaim_only {s u : State} {n : Nat} {seq : Nat} (e : execReclaim n seq s = .next u) : Only (Parts.report.or { inForce := true, started := true, fab := true, tor := true, homes := true, quar := true }) s u := by
  unfold execReclaim at e
  injection e with e
  subst e
  try dsimp -zeta only
  repeat' first
    | with_reducible assumption
    | with_reducible exact Only.refl _ _
    | ((with_reducible refine Parts.leq ?_); rfl)
    | with_reducible apply reclaimChip_only
    | (extract_lets +onlyGivenNames x; first
        | (refine Only.cut (p := (Parts.report.or { inForce := true, started := true, fab := true, tor := true, homes := true, quar := true })) (s := s) (x := x) (fun hx => ?_) ?_; clear_value x; revert x; intro y hy; rotate_left; unfold x; clear x)
        | (refine Only.cut1 (p := (Parts.report.or { inForce := true, started := true, fab := true, tor := true, homes := true, quar := true })) (s := s) (x := x) (fun hx => ?_) ?_; clear_value x; revert x; intro y hy; rotate_left; unfold x; clear x)
        | (refine Only.cut2 (p := (Parts.report.or { inForce := true, started := true, fab := true, tor := true, homes := true, quar := true })) (s := s) (x := x) (fun hx => ?_) ?_; clear_value x; revert x; intro y hy; rotate_left; unfold x; clear x)
        | (revert x; intro y))
    | simp (disch := with_unfolding_all (apply Parts.same; apply Eq.refl)) only [Only.set_iff]
    | with_reducible apply Only.foldl
    | with_reducible apply Only.foldl_fst
    | (refine Only.of_fst ‹_ = _› ?_)
    | (refine Only.of_snd ‹_ = _› ?_)
    | split
    | (intro)

end Sys2Proof.Machine
end

