-- ==== Sys2Proof/Laws/OnlyFn.lean ====
section
/-!
SUPPORT. Which parts of the state the operations of Machine/Fn.lean may change (Safety.lean).
-/
namespace Sys2Proof.Machine

open Sys2Proof

theorem State.takeSettings_only {p : Parts} {s t : State} {f : Nat} (hq : Parts.le { inForce := true } p = true) (h : Only p s t) : Only p s (State.takeSettings t f) := by
  refine Only.step hq h ?_
  unfold State.takeSettings
  repeat' first
    | with_reducible exact Only.refl _ _
    | ((with_reducible refine Parts.leq ?_); rfl)
    | simp (disch := with_unfolding_all (apply Parts.same; apply Eq.refl)) only [Only.set_iff]

theorem State.zeroRegs_only {p : Parts} {s t : State} {offs : List Nat} (hq : Parts.le { regs := true } p = true) (h : Only p s t) : Only p s (State.zeroRegs t offs) := by
  refine Only.step hq h ?_
  unfold State.zeroRegs
  repeat' first
    | with_reducible exact Only.refl _ _
    | ((with_reducible refine Parts.leq ?_); rfl)
    | with_reducible apply State.setReg_only
    | with_reducible apply Only.foldl
    | (intro)

theorem State.reloadPort_only {p : Parts} {s t : State} {x1 : Nat} (hq : Parts.le { regs := true } p = true) (h : Only p s t) : Only p s (State.reloadPort t x1) := by
  refine Only.step hq h ?_
  unfold State.reloadPort
  repeat' first
    | with_reducible exact Only.refl _ _
    | ((with_reducible refine Parts.leq ?_); rfl)
    | with_reducible apply State.fput_only
    | with_reducible apply State.setReg_only

theorem State.restartArray_only {p : Parts} {s t : State}  (hq : Parts.le { regs := true } p = true) (h : Only p s t) : Only p s (State.restartArray t) := by
  refine Only.step hq h ?_
  unfold State.restartArray
  repeat' first
    | with_reducible exact Only.refl _ _
    | ((with_reducible refine Parts.leq ?_); rfl)
    | with_reducible apply State.zeroRegs_only
    | with_reducible apply State.fput_only

theorem State.restartLink_only {p : Parts} {s t : State} {r : Nat} (hq : Parts.le { regs := true, trf := true, flt := true, fab := true, tor := true, journal := true } p = true) (h : Only p s t) : Only p s (State.restartLink t r) := by
  refine Only.step hq h ?_
  unfold State.restartLink
  try dsimp -zeta only
  repeat' first
    | with_reducible assumption
    | with_reducible exact Only.refl _ _
    | ((with_reducible refine Parts.leq ?_); rfl)
    | with_reducible apply State.applyPorts_only
    | with_reducible apply State.fput_only
    | with_reducible apply State.reloadPort_only
    | (extract_lets +onlyGivenNames x; first
        | (refine Only.cut (p := { regs := true, trf := true, flt := true, fab := true, tor := true, journal := true }) (s := t) (x := x) (fun hx => ?_) ?_; clear_value x; revert x; intro y hy; rotate_left; unfold x; clear x)
        | (refine Only.cut1 (p := { regs := true, trf := true, flt := true, fab := true, tor := true, journal := true }) (s := t) (x := x) (fun hx => ?_) ?_; clear_value x; revert x; intro y hy; rotate_left; unfold x; clear x)
        | (refine Only.cut2 (p := { regs := true, trf := true, flt := true, fab := true, tor := true, journal := true }) (s := t) (x := x) (fun hx => ?_) ?_; clear_value x; revert x; intro y hy; rotate_left; unfold x; clear x)
        | (revert x; intro y))
    | simp (disch := with_unfolding_all (apply Parts.same; apply Eq.refl)) only [Only.set_iff]
    | with_reducible apply Only.foldl
    | with_reducible apply Only.foldl_fst
    | (refine Only.of_fst ‹_ = _› ?_)
    | (refine Only.of_snd ‹_ = _› ?_)
    | split
    | (intro)

theorem State.restartUpd_only {p : Parts} {s t : State} {r : Nat} (hq : Parts.le { regs := true } p = true) (h : Only p s t) : Only p s (State.restartUpd t r) := by
  refine Only.step hq h ?_
  unfold State.restartUpd
  repeat' first
    | with_reducible exact Only.refl _ _
    | ((with_reducible refine Parts.leq ?_); rfl)
    | with_reducible apply State.fput_only

theorem State.restartRed_only {p : Parts} {s t : State} {x1 : Nat} (hq : Parts.le { regs := true } p = true) (h : Only p s t) : Only p s (State.restartRed t x1) := by
  refine Only.step hq h ?_
  unfold State.restartRed
  repeat' first
    | with_reducible exact Only.refl _ _
    | ((with_reducible refine Parts.leq ?_); rfl)
    | with_reducible apply State.fput_only
    | with_reducible apply State.zeroRegs_only

theorem State.restartSq_only {p : Parts} {s t : State} {n : Nat} (hq : Parts.le { regs := true, sq := true } p = true) (h : Only p s t) : Only p s (State.restartSq t n) := by
  refine Only.step hq h ?_
  unfold State.restartSq
  repeat' first
    | with_reducible exact Only.refl _ _
    | ((with_reducible refine Parts.leq ?_); rfl)
    | with_reducible apply State.putBit_only
    | with_reducible apply State.zeroRegs_only
    | with_reducible apply State.setSq_only

theorem State.restartCq_only {p : Parts} {s t : State} {m : Nat} (hq : Parts.le { regs := true } p = true) (h : Only p s t) : Only p s (State.restartCq t m) := by
  refine Only.step hq h ?_
  unfold State.restartCq
  repeat' first
    | with_reducible exact Only.refl _ _
    | ((with_reducible refine Parts.leq ?_); rfl)
    | with_reducible apply State.fput_only
    | with_reducible apply State.zeroRegs_only

theorem State.passRestart_only {p : Parts} {s t : State} {f : Nat} (hq : Parts.le { regs := true, inForce := true, trf := true, sq := true, flt := true, fab := true, tor := true, journal := true, sump := true } p = true) (h : Only p s t) : Only p s (State.passRestart t f) := by
  refine Only.step hq h ?_
  unfold State.passRestart
  try dsimp -zeta only
  repeat' first
    | with_reducible assumption
    | with_reducible exact Only.refl _ _
    | ((with_reducible refine Parts.leq ?_); rfl)
    | with_reducible apply State.setFn_only
    | with_reducible apply State.takeSettings_only
    | with_reducible apply State.restartArray_only
    | with_reducible apply State.restartUpd_only
    | with_reducible apply State.restartLink_only
    | with_reducible apply State.restartRed_only
    | with_reducible apply State.ptpApplied_only
    | with_reducible apply State.restartSq_only
    | with_reducible apply State.restartCq_only
    | (extract_lets +onlyGivenNames x; first
        | (refine Only.cut (p := { regs := true, inForce := true, trf := true, sq := true, flt := true, fab := true, tor := true, journal := true, sump := true }) (s := t) (x := x) (fun hx => ?_) ?_; clear_value x; revert x; intro y hy; rotate_left; unfold x; clear x)
        | (refine Only.cut1 (p := { regs := true, inForce := true, trf := true, sq := true, flt := true, fab := true, tor := true, journal := true, sump := true }) (s := t) (x := x) (fun hx => ?_) ?_; clear_value x; revert x; intro y hy; rotate_left; unfold x; clear x)
        | (refine Only.cut2 (p := { regs := true, inForce := true, trf := true, sq := true, flt := true, fab := true, tor := true, journal := true, sump := true }) (s := t) (x := x) (fun hx => ?_) ?_; clear_value x; revert x; intro y hy; rotate_left; unfold x; clear x)
        | (revert x; intro y))
    | simp (disch := with_unfolding_all (apply Parts.same; apply Eq.refl)) only [Only.set_iff]
    | with_reducible apply Only.foldl
    | with_reducible apply Only.foldl_fst
    | (refine Only.of_fst ‹_ = _› ?_)
    | (refine Only.of_snd ‹_ = _› ?_)
    | split
    | (intro)

theorem State.restartFn_only {p : Parts} {s t : State} {f : Nat} (hq : Parts.le (Parts.report.or { inForce := true, sq := true, fab := true, tor := true, sump := true }) p = true) (h : Only p s t) : Only p s (State.restartFn t f) := by
  refine Only.step hq h ?_
  unfold State.restartFn
  try dsimp -zeta only
  repeat' first
    | with_reducible assumption
    | with_reducible exact Only.refl _ _
    | ((with_reducible refine Parts.leq ?_); rfl)
    | with_reducible apply State.rejected_only
    | with_reducible apply State.passRestart_only
    | (extract_lets +onlyGivenNames x; first
        | (refine Only.cut (p := (Parts.report.or { inForce := true, sq := true, fab := true, tor := true, sump := true })) (s := t) (x := x) (fun hx => ?_) ?_; clear_value x; revert x; intro y hy; rotate_left; unfold x; clear x)
        | (refine Only.cut1 (p := (Parts.report.or { inForce := true, sq := true, fab := true, tor := true, sump := true })) (s := t) (x := x) (fun hx => ?_) ?_; clear_value x; revert x; intro y hy; rotate_left; unfold x; clear x)
        | (refine Only.cut2 (p := (Parts.report.or { inForce := true, sq := true, fab := true, tor := true, sump := true })) (s := t) (x := x) (fun hx => ?_) ?_; clear_value x; revert x; intro y hy; rotate_left; unfold x; clear x)
        | (revert x; intro y))
    | simp (disch := with_unfolding_all (apply Parts.same; apply Eq.refl)) only [Only.set_iff]
    | with_reducible apply Only.foldl
    | with_reducible apply Only.foldl_fst
    | (refine Only.of_fst ‹_ = _› ?_)
    | (refine Only.of_snd ‹_ = _› ?_)
    | split
    | (intro)

theorem State.auditToken_only {p : Parts} {s t : State}  (hq : Parts.le Parts.report p = true) (h : Only p s t) : Only p s (State.auditToken t) := by
  refine Only.step hq h ?_
  unfold State.auditToken
  repeat' first
    | with_reducible exact Only.refl _ _
    | ((with_reducible refine Parts.leq ?_); rfl)
    | with_reducible apply State.report_only
    | (extract_lets +onlyGivenNames x; first
        | (revert x; intro y))
    | split

theorem State.auditCq_only {p : Parts} {s t : State} {m : Nat} (hq : Parts.le Parts.report p = true) (h : Only p s t) : Only p s (State.auditCq t m) := by
  refine Only.step hq h ?_
  unfold State.auditCq
  repeat' first
    | with_reducible exact Only.refl _ _
    | ((with_reducible refine Parts.leq ?_); rfl)
    | with_reducible apply State.report_only
    | split

theorem State.auditFn_only {p : Parts} {s t : State} {f : Nat} (hq : Parts.le Parts.report p = true) (h : Only p s t) : Only p s (State.auditFn t f) := by
  refine Only.step hq h ?_
  unfold State.auditFn
  try dsimp -zeta only
  repeat' first
    | with_reducible assumption
    | with_reducible exact Only.refl _ _
    | ((with_reducible refine Parts.leq ?_); rfl)
    | with_reducible apply State.auditBridge_only
    | with_reducible apply State.auditPort_only
    | with_reducible apply State.auditToken_only
    | with_reducible apply State.auditRed_only
    | with_reducible apply State.auditCq_only
    | (extract_lets +onlyGivenNames x; first
        | (refine Only.cut (p := Parts.report) (s := t) (x := x) (fun hx => ?_) ?_; clear_value x; revert x; intro y hy; rotate_left; unfold x; clear x)
        | (refine Only.cut1 (p := Parts.report) (s := t) (x := x) (fun hx => ?_) ?_; clear_value x; revert x; intro y hy; rotate_left; unfold x; clear x)
        | (refine Only.cut2 (p := Parts.report) (s := t) (x := x) (fun hx => ?_) ?_; clear_value x; revert x; intro y hy; rotate_left; unfold x; clear x)
        | (revert x; intro y))
    | simp (disch := with_unfolding_all (apply Parts.same; apply Eq.refl)) only [Only.set_iff]
    | with_reducible apply Only.foldl
    | with_reducible apply Only.foldl_fst
    | (refine Only.of_fst ‹_ = _› ?_)
    | (refine Only.of_snd ‹_ = _› ?_)
    | split
    | (intro)

theorem State.enterStopped_only {p : Parts} {s t : State} {f : Nat} (hq : Parts.le { regs := true, drainAt := true } p = true) (h : Only p s t) : Only p s (State.enterStopped t f) := by
  refine Only.step hq h ?_
  unfold State.enterStopped
  repeat' first
    | with_reducible exact Only.refl _ _
    | ((with_reducible refine Parts.leq ?_); rfl)
    | with_reducible apply State.setFn_only
    | simp (disch := with_unfolding_all (apply Parts.same; apply Eq.refl)) only [Only.set_iff]

theorem State.abortDesc_only {p : Parts} {s t : State} {d : Started} (hq : Parts.le ((Parts.report.or Parts.memory).or { genStale := true, hostW := true, sq := true, started := true, unconf := true, pcie := true, heldWr := true, order := true, fab := true, tor := true, freeCtr := true, dark := true, arr := true, sump := true, gathers := true, upd := true, ranks := true, scan := true, caddy := true }) p = true) (h : Only p s t) : Only p s (State.abortDesc t d) := by
  refine Only.step hq h ?_
  unfold State.abortDesc
  try dsimp -zeta only
  repeat' first
    | with_reducible assumption
    | with_reducible exact Only.refl _ _
    | ((with_reducible refine Parts.leq ?_); rfl)
    | with_reducible apply State.haltDesc_only
    | with_reducible apply State.updStarted_only
    | with_reducible apply completeStarted_only
    | with_reducible apply traceEnd_only
    | (extract_lets +onlyGivenNames x; first
        | (refine Only.cut (p := ((Parts.report.or Parts.memory).or { genStale := true, hostW := true, sq := true, started := true, unconf := true, pcie := true, heldWr := true, order := true, fab := true, tor := true, freeCtr := true, dark := true, arr := true, sump := true, gathers := true, upd := true, ranks := true, scan := true, caddy := true })) (s := t) (x := x) (fun hx => ?_) ?_; clear_value x; revert x; intro y hy; rotate_left; unfold x; clear x)
        | (refine Only.cut1 (p := ((Parts.report.or Parts.memory).or { genStale := true, hostW := true, sq := true, started := true, unconf := true, pcie := true, heldWr := true, order := true, fab := true, tor := true, freeCtr := true, dark := true, arr := true, sump := true, gathers := true, upd := true, ranks := true, scan := true, caddy := true })) (s := t) (x := x) (fun hx => ?_) ?_; clear_value x; revert x; intro y hy; rotate_left; unfold x; clear x)
        | (refine Only.cut2 (p := ((Parts.report.or Parts.memory).or { genStale := true, hostW := true, sq := true, started := true, unconf := true, pcie := true, heldWr := true, order := true, fab := true, tor := true, freeCtr := true, dark := true, arr := true, sump := true, gathers := true, upd := true, ranks := true, scan := true, caddy := true })) (s := t) (x := x) (fun hx => ?_) ?_; clear_value x; revert x; intro y hy; rotate_left; unfold x; clear x)
        | (revert x; intro y))
    | simp (disch := with_unfolding_all (apply Parts.same; apply Eq.refl)) only [Only.set_iff]
    | with_reducible apply Only.foldl
    | with_reducible apply Only.foldl_fst
    | (refine Only.of_fst ‹_ = _› ?_)
    | (refine Only.of_snd ‹_ = _› ?_)
    | split
    | (intro)

theorem State.disown_only {p : Parts} {s t : State} {n : Nat} (hq : Parts.le { regs := true } p = true) (h : Only p s t) : Only p s (State.disown t n) := by
  refine Only.step hq h ?_
  unfold State.disown
  repeat' first
    | with_reducible exact Only.refl _ _
    | ((with_reducible refine Parts.leq ?_); rfl)
    | with_reducible apply State.bumpGen_only
    | with_reducible apply State.bump_only
    | with_reducible apply State.release_only
    | (extract_lets +onlyGivenNames x; first
        | (revert x; intro y))
    | split

theorem State.releaseAll_only {p : Parts} {s t : State} {m : Nat} (hq : Parts.le { regs := true, started := true, unconf := true } p = true) (h : Only p s t) : Only p s (State.releaseAll t m) := by
  refine Only.step hq h ?_
  unfold State.releaseAll
  repeat' first
    | with_reducible exact Only.refl _ _
    | ((with_reducible refine Parts.leq ?_); rfl)
    | with_reducible apply State.fput_only
    | simp (disch := with_unfolding_all (apply Parts.same; apply Eq.refl)) only [Only.set_iff]

theorem State.abortFn_only {p : Parts} {s t : State} {f : Nat} (hq : Parts.le ((Parts.report.or Parts.memory).or { genStale := true, drainAt := true, hostW := true, sq := true, started := true, unconf := true, pcie := true, pages := true, heldWr := true, order := true, fab := true, tor := true, freeCtr := true, dark := true, arr := true, sump := true, gathers := true, upd := true, ranks := true, homes := true, scan := true, caddy := true }) p = true) (h : Only p s t) : Only p s (State.abortFn t f) := by
  refine Only.step hq h ?_
  unfold State.abortFn
  try dsimp -zeta only
  repeat' first
    | with_reducible assumption
    | with_reducible exact Only.refl _ _
    | ((with_reducible refine Parts.leq ?_); rfl)
    | with_reducible apply State.disown_only
    | with_reducible apply State.bumpGen_only
    | with_reducible apply State.releaseAll_only
    | with_reducible apply State.withdrawDisagreements_only
    | with_reducible apply State.abortDesc_only
    | with_reducible apply State.refuseHomes_only
    | with_reducible apply State.enterStopped_only
    | with_reducible apply State.auditCq_only
    | with_reducible apply State.auditFn_only
    | (extract_lets +onlyGivenNames x; first
        | (refine Only.cut (p := ((Parts.report.or Parts.memory).or { genStale := true, drainAt := true, hostW := true, sq := true, started := true, unconf := true, pcie := true, pages := true, heldWr := true, order := true, fab := true, tor := true, freeCtr := true, dark := true, arr := true, sump := true, gathers := true, upd := true, ranks := true, homes := true, scan := true, caddy := true })) (s := t) (x := x) (fun hx => ?_) ?_; clear_value x; revert x; intro y hy; rotate_left; unfold x; clear x)
        | (refine Only.cut1 (p := ((Parts.report.or Parts.memory).or { genStale := true, drainAt := true, hostW := true, sq := true, started := true, unconf := true, pcie := true, pages := true, heldWr := true, order := true, fab := true, tor := true, freeCtr := true, dark := true, arr := true, sump := true, gathers := true, upd := true, ranks := true, homes := true, scan := true, caddy := true })) (s := t) (x := x) (fun hx => ?_) ?_; clear_value x; revert x; intro y hy; rotate_left; unfold x; clear x)
        | (refine Only.cut2 (p := ((Parts.report.or Parts.memory).or { genStale := true, drainAt := true, hostW := true, sq := true, started := true, unconf := true, pcie := true, pages := true, heldWr := true, order := true, fab := true, tor := true, freeCtr := true, dark := true, arr := true, sump := true, gathers := true, upd := true, ranks := true, homes := true, scan := true, caddy := true })) (s := t) (x := x) (fun hx => ?_) ?_; clear_value x; revert x; intro y hy; rotate_left; unfold x; clear x)
        | (revert x; intro y))
    | simp (disch := with_unfolding_all (apply Parts.same; apply Eq.refl)) only [Only.set_iff]
    | with_reducible apply Only.foldl
    | with_reducible apply Only.foldl_fst
    | (refine Only.of_fst ‹_ = _› ?_)
    | (refine Only.of_snd ‹_ = _› ?_)
    | split
    | (intro)

theorem State.drainNow_only {p : Parts} {s t : State} {f : Nat} (hq : Parts.le ((Parts.report.or Parts.memory).or { genStale := true, drainAt := true, hostW := true, sq := true, started := true, unconf := true, pcie := true, pages := true, heldWr := true, order := true, fab := true, tor := true, freeCtr := true, dark := true, arr := true, sump := true, gathers := true, upd := true, ranks := true, homes := true, scan := true, caddy := true }) p = true) (h : Only p s t) : Only p s (State.drainNow t f) := by
  refine Only.step hq h ?_
  unfold State.drainNow
  try dsimp -zeta only
  repeat' first
    | with_reducible assumption
    | with_reducible exact Only.refl _ _
    | ((with_reducible refine Parts.leq ?_); rfl)
    | with_reducible apply State.enterDrain_only
    | with_reducible apply State.auditFn_only
    | with_reducible apply State.enterStopped_only
    | with_reducible apply State.abortFn_only
    | (extract_lets +onlyGivenNames x; first
        | (refine Only.cut (p := ((Parts.report.or Parts.memory).or { genStale := true, drainAt := true, hostW := true, sq := true, started := true, unconf := true, pcie := true, pages := true, heldWr := true, order := true, fab := true, tor := true, freeCtr := true, dark := true, arr := true, sump := true, gathers := true, upd := true, ranks := true, homes := true, scan := true, caddy := true })) (s := t) (x := x) (fun hx => ?_) ?_; clear_value x; revert x; intro y hy; rotate_left; unfold x; clear x)
        | (refine Only.cut1 (p := ((Parts.report.or Parts.memory).or { genStale := true, drainAt := true, hostW := true, sq := true, started := true, unconf := true, pcie := true, pages := true, heldWr := true, order := true, fab := true, tor := true, freeCtr := true, dark := true, arr := true, sump := true, gathers := true, upd := true, ranks := true, homes := true, scan := true, caddy := true })) (s := t) (x := x) (fun hx => ?_) ?_; clear_value x; revert x; intro y hy; rotate_left; unfold x; clear x)
        | (refine Only.cut2 (p := ((Parts.report.or Parts.memory).or { genStale := true, drainAt := true, hostW := true, sq := true, started := true, unconf := true, pcie := true, pages := true, heldWr := true, order := true, fab := true, tor := true, freeCtr := true, dark := true, arr := true, sump := true, gathers := true, upd := true, ranks := true, homes := true, scan := true, caddy := true })) (s := t) (x := x) (fun hx => ?_) ?_; clear_value x; revert x; intro y hy; rotate_left; unfold x; clear x)
        | (revert x; intro y))
    | simp (disch := with_unfolding_all (apply Parts.same; apply Eq.refl)) only [Only.set_iff]
    | with_reducible apply Only.foldl
    | with_reducible apply Only.foldl_fst
    | (refine Only.of_fst ‹_ = _› ?_)
    | (refine Only.of_snd ‹_ = _› ?_)
    | split
    | (intro)

theorem State.fnCmd_only {p : Parts} {s t : State} {f : Nat} {cmd : Nat} {act : State → State} (hq : Parts.le Parts.report p = true) (h : Only p s t) (hact : ∀ z, Only p s z → Only p s (act z)) : Only p s (State.fnCmd t f cmd act) := by
  unfold State.fnCmd
  repeat' first
    | with_reducible assumption
    | apply hact
    | with_reducible apply State.rejected_only
    | split

theorem State.badCmd_only {p : Parts} {s t : State} {f : Nat} {cmd : Nat} (hq : Parts.le Parts.report p = true) (h : Only p s t) : Only p s (State.badCmd t f cmd) := by
  refine Only.step hq h ?_
  unfold State.badCmd
  repeat' first
    | with_reducible exact Only.refl _ _
    | ((with_reducible refine Parts.leq ?_); rfl)
    | with_reducible apply State.rejected_only

theorem State.leaveRun_only {p : Parts} {s t : State} {f : Nat} (hq : Parts.le ((Parts.report.or Parts.memory).or { genStale := true, drainAt := true, hostW := true, sq := true, started := true, unconf := true, pcie := true, pages := true, heldWr := true, order := true, fab := true, tor := true, freeCtr := true, dark := true, arr := true, sump := true, gathers := true, upd := true, ranks := true, homes := true, scan := true, caddy := true }) p = true) (h : Only p s t) : Only p s (State.leaveRun t f) := by
  refine Only.step hq h ?_
  unfold State.leaveRun
  try dsimp -zeta only
  repeat' first
    | with_reducible assumption
    | with_reducible exact Only.refl _ _
    | ((with_reducible refine Parts.leq ?_); rfl)
    | with_reducible apply State.enterDrain_only
    | with_reducible apply State.abortFn_only
    | (extract_lets +onlyGivenNames x; first
        | (refine Only.cut (p := ((Parts.report.or Parts.memory).or { genStale := true, drainAt := true, hostW := true, sq := true, started := true, unconf := true, pcie := true, pages := true, heldWr := true, order := true, fab := true, tor := true, freeCtr := true, dark := true, arr := true, sump := true, gathers := true, upd := true, ranks := true, homes := true, scan := true, caddy := true })) (s := t) (x := x) (fun hx => ?_) ?_; clear_value x; revert x; intro y hy; rotate_left; unfold x; clear x)
        | (refine Only.cut1 (p := ((Parts.report.or Parts.memory).or { genStale := true, drainAt := true, hostW := true, sq := true, started := true, unconf := true, pcie := true, pages := true, heldWr := true, order := true, fab := true, tor := true, freeCtr := true, dark := true, arr := true, sump := true, gathers := true, upd := true, ranks := true, homes := true, scan := true, caddy := true })) (s := t) (x := x) (fun hx => ?_) ?_; clear_value x; revert x; intro y hy; rotate_left; unfold x; clear x)
        | (refine Only.cut2 (p := ((Parts.report.or Parts.memory).or { genStale := true, drainAt := true, hostW := true, sq := true, started := true, unconf := true, pcie := true, pages := true, heldWr := true, order := true, fab := true, tor := true, freeCtr := true, dark := true, arr := true, sump := true, gathers := true, upd := true, ranks := true, homes := true, scan := true, caddy := true })) (s := t) (x := x) (fun hx => ?_) ?_; clear_value x; revert x; intro y hy; rotate_left; unfold x; clear x)
        | (revert x; intro y))
    | simp (disch := with_unfolding_all (apply Parts.same; apply Eq.refl)) only [Only.set_iff]
    | with_reducible apply Only.foldl
    | with_reducible apply Only.foldl_fst
    | (refine Only.of_fst ‹_ = _› ?_)
    | (refine Only.of_snd ‹_ = _› ?_)
    | split
    | (intro)

theorem cmdStop_only {p : Parts} {s t : State} {f : Nat} (hq : Parts.le ((Parts.report.or Parts.memory).or { genStale := true, drainAt := true, hostW := true, sq := true, started := true, unconf := true, pcie := true, pages := true, heldWr := true, order := true, fab := true, tor := true, freeCtr := true, dark := true, arr := true, sump := true, gathers := true, upd := true, ranks := true, homes := true, scan := true, caddy := true }) p = true) (h : Only p s t) : Only p s (cmdStop f t) := by
  refine Only.step hq h ?_
  unfold cmdStop
  try dsimp -zeta only
  repeat' first
    | with_reducible assumption
    | with_reducible exact Only.refl _ _
    | ((with_reducible refine Parts.leq ?_); rfl)
    | with_reducible apply State.badCmd_only
    | with_reducible apply State.leaveRun_only
    | (extract_lets +onlyGivenNames x; first
        | (refine Only.cut (p := ((Parts.report.or Parts.memory).or { genStale := true, drainAt := true, hostW := true, sq := true, started := true, unconf := true, pcie := true, pages := true, heldWr := true, order := true, fab := true, tor := true, freeCtr := true, dark := true, arr := true, sump := true, gathers := true, upd := true, ranks := true, homes := true, scan := true, caddy := true })) (s := t) (x := x) (fun hx => ?_) ?_; clear_value x; revert x; intro y hy; rotate_left; unfold x; clear x)
        | (refine Only.cut1 (p := ((Parts.report.or Parts.memory).or { genStale := true, drainAt := true, hostW := true, sq := true, started := true, unconf := true, pcie := true, pages := true, heldWr := true, order := true, fab := true, tor := true, freeCtr := true, dark := true, arr := true, sump := true, gathers := true, upd := true, ranks := true, homes := true, scan := true, caddy := true })) (s := t) (x := x) (fun hx => ?_) ?_; clear_value x; revert x; intro y hy; rotate_left; unfold x; clear x)
        | (refine Only.cut2 (p := ((Parts.report.or Parts.memory).or { genStale := true, drainAt := true, hostW := true, sq := true, started := true, unconf := true, pcie := true, pages := true, heldWr := true, order := true, fab := true, tor := true, freeCtr := true, dark := true, arr := true, sump := true, gathers := true, upd := true, ranks := true, homes := true, scan := true, caddy := true })) (s := t) (x := x) (fun hx => ?_) ?_; clear_value x; revert x; intro y hy; rotate_left; unfold x; clear x)
        | (revert x; intro y))
    | simp (disch := with_unfolding_all (apply Parts.same; apply Eq.refl)) only [Only.set_iff]
    | with_reducible apply Only.foldl
    | with_reducible apply Only.foldl_fst
    | (refine Only.of_fst ‹_ = _› ?_)
    | (refine Only.of_snd ‹_ = _› ?_)
    | split
    | (intro)

theorem cmdChange_only {p : Parts} {s t : State} {f : Nat} (hq : Parts.le Parts.report p = true) (h : Only p s t) : Only p s (cmdChange f t) := by
  refine Only.step hq h ?_
  unfold cmdChange
  repeat' first
    | with_reducible exact Only.refl _ _
    | ((with_reducible refine Parts.leq ?_); rfl)
    | with_reducible apply State.setFn_only
    | with_reducible apply State.badCmd_only
    | (extract_lets +onlyGivenNames x; first
        | (revert x; intro y))
    | split

theorem cmdRestart_only {p : Parts} {s t : State} {f : Nat} (hq : Parts.le (Parts.report.or { inForce := true, sq := true, fab := true, tor := true, sump := true }) p = true) (h : Only p s t) : Only p s (cmdRestart f t) := by
  refine Only.step hq h ?_
  unfold cmdRestart
  try dsimp -zeta only
  repeat' first
    | with_reducible assumption
    | with_reducible exact Only.refl _ _
    | ((with_reducible refine Parts.leq ?_); rfl)
    | with_reducible apply State.restartFn_only
    | with_reducible apply State.badCmd_only
    | (extract_lets +onlyGivenNames x; first
        | (refine Only.cut (p := (Parts.report.or { inForce := true, sq := true, fab := true, tor := true, sump := true })) (s := t) (x := x) (fun hx => ?_) ?_; clear_value x; revert x; intro y hy; rotate_left; unfold x; clear x)
        | (refine Only.cut1 (p := (Parts.report.or { inForce := true, sq := true, fab := true, tor := true, sump := true })) (s := t) (x := x) (fun hx => ?_) ?_; clear_value x; revert x; intro y hy; rotate_left; unfold x; clear x)
        | (refine Only.cut2 (p := (Parts.report.or { inForce := true, sq := true, fab := true, tor := true, sump := true })) (s := t) (x := x) (fun hx => ?_) ?_; clear_value x; revert x; intro y hy; rotate_left; unfold x; clear x)
        | (revert x; intro y))
    | simp (disch := with_unfolding_all (apply Parts.same; apply Eq.refl)) only [Only.set_iff]
    | with_reducible apply Only.foldl
    | with_reducible apply Only.foldl_fst
    | (refine Only.of_fst ‹_ = _› ?_)
    | (refine Only.of_snd ‹_ = _› ?_)
    | split
    | (intro)

theorem cmdAbort_only {p : Parts} {s t : State} {f : Nat} (hq : Parts.le ((Parts.report.or Parts.memory).or { genStale := true, drainAt := true, hostW := true, sq := true, started := true, unconf := true, pcie := true, pages := true, heldWr := true, order := true, fab := true, tor := true, freeCtr := true, dark := true, arr := true, sump := true, gathers := true, upd := true, ranks := true, homes := true, scan := true, caddy := true }) p = true) (h : Only p s t) : Only p s (cmdAbort f t) := by
  refine Only.step hq h ?_
  unfold cmdAbort
  try dsimp -zeta only
  repeat' first
    | with_reducible assumption
    | with_reducible exact Only.refl _ _
    | ((with_reducible refine Parts.leq ?_); rfl)
    | with_reducible apply State.abortFn_only
    | with_reducible apply State.enterDrain_only
    | with_reducible apply State.badCmd_only
    | (extract_lets +onlyGivenNames x; first
        | (refine Only.cut (p := ((Parts.report.or Parts.memory).or { genStale := true, drainAt := true, hostW := true, sq := true, started := true, unconf := true, pcie := true, pages := true, heldWr := true, order := true, fab := true, tor := true, freeCtr := true, dark := true, arr := true, sump := true, gathers := true, upd := true, ranks := true, homes := true, scan := true, caddy := true })) (s := t) (x := x) (fun hx => ?_) ?_; clear_value x; revert x; intro y hy; rotate_left; unfold x; clear x)
        | (refine Only.cut1 (p := ((Parts.report.or Parts.memory).or { genStale := true, drainAt := true, hostW := true, sq := true, started := true, unconf := true, pcie := true, pages := true, heldWr := true, order := true, fab := true, tor := true, freeCtr := true, dark := true, arr := true, sump := true, gathers := true, upd := true, ranks := true, homes := true, scan := true, caddy := true })) (s := t) (x := x) (fun hx => ?_) ?_; clear_value x; revert x; intro y hy; rotate_left; unfold x; clear x)
        | (refine Only.cut2 (p := ((Parts.report.or Parts.memory).or { genStale := true, drainAt := true, hostW := true, sq := true, started := true, unconf := true, pcie := true, pages := true, heldWr := true, order := true, fab := true, tor := true, freeCtr := true, dark := true, arr := true, sump := true, gathers := true, upd := true, ranks := true, homes := true, scan := true, caddy := true })) (s := t) (x := x) (fun hx => ?_) ?_; clear_value x; revert x; intro y hy; rotate_left; unfold x; clear x)
        | (revert x; intro y))
    | simp (disch := with_unfolding_all (apply Parts.same; apply Eq.refl)) only [Only.set_iff]
    | with_reducible apply Only.foldl
    | with_reducible apply Only.foldl_fst
    | (refine Only.of_fst ‹_ = _› ?_)
    | (refine Only.of_snd ‹_ = _› ?_)
    | split
    | (intro)

theorem execModuleTimerExpire_only {s u : State} {n : Nat} {seq : Nat} (e : execModuleTimerExpire n seq s = .next u) : Only ((Parts.report.or Parts.memory).or { genStale := true, drainAt := true, hostW := true, clk := true, sq := true, started := true, unconf := true, pcie := true, pages := true, heldWr := true, order := true, fab := true, tor := true, freeCtr := true, dark := true, arr := true, sump := true, gathers := true, upd := true, ranks := true, homes := true, scan := true, caddy := true }) s u := by
  unfold execModuleTimerExpire at e
  injection e with e
  subst e
  try dsimp -zeta only
  repeat' first
    | with_reducible assumption
    | with_reducible exact Only.refl _ _
    | ((with_reducible refine Parts.leq ?_); rfl)
    | with_reducible apply State.reach_only
    | with_reducible apply State.leaveRun_only
    | with_reducible apply State.report_only
    | with_reducible apply State.engineFault_only
    | (extract_lets +onlyGivenNames x; first
        | (refine Only.cut (p := ((Parts.report.or Parts.memory).or { genStale := true, drainAt := true, hostW := true, clk := true, sq := true, started := true, unconf := true, pcie := true, pages := true, heldWr := true, order := true, fab := true, tor := true, freeCtr := true, dark := true, arr := true, sump := true, gathers := true, upd := true, ranks := true, homes := true, scan := true, caddy := true })) (s := s) (x := x) (fun hx => ?_) ?_; clear_value x; revert x; intro y hy; rotate_left; unfold x; clear x)
        | (refine Only.cut1 (p := ((Parts.report.or Parts.memory).or { genStale := true, drainAt := true, hostW := true, clk := true, sq := true, started := true, unconf := true, pcie := true, pages := true, heldWr := true, order := true, fab := true, tor := true, freeCtr := true, dark := true, arr := true, sump := true, gathers := true, upd := true, ranks := true, homes := true, scan := true, caddy := true })) (s := s) (x := x) (fun hx => ?_) ?_; clear_value x; revert x; intro y hy; rotate_left; unfold x; clear x)
        | (refine Only.cut2 (p := ((Parts.report.or Parts.memory).or { genStale := true, drainAt := true, hostW := true, clk := true, sq := true, started := true, unconf := true, pcie := true, pages := true, heldWr := true, order := true, fab := true, tor := true, freeCtr := true, dark := true, arr := true, sump := true, gathers := true, upd := true, ranks := true, homes := true, scan := true, caddy := true })) (s := s) (x := x) (fun hx => ?_) ?_; clear_value x; revert x; intro y hy; rotate_left; unfold x; clear x)
        | (revert x; intro y))
    | simp (disch := with_unfolding_all (apply Parts.same; apply Eq.refl)) only [Only.set_iff]
    | with_reducible apply Only.foldl
    | with_reducible apply Only.foldl_fst
    | (refine Only.of_fst ‹_ = _› ?_)
    | (refine Only.of_snd ‹_ = _› ?_)
    | split
    | (intro)

theorem execCmdStop_only {s u : State} {f : Nat} (e : execCmdStop f s = .next u) : Only ((Parts.report.or Parts.memory).or { genStale := true, drainAt := true, hostW := true, sq := true, started := true, unconf := true, pcie := true, pages := true, heldWr := true, order := true, fab := true, tor := true, freeCtr := true, dark := true, arr := true, sump := true, gathers := true, upd := true, ranks := true, homes := true, scan := true, caddy := true }) s u := by
  unfold execCmdStop at e
  injection e with e
  subst e
  try dsimp -zeta only
  repeat' first
    | with_reducible assumption
    | with_reducible exact Only.refl _ _
    | ((with_reducible refine Parts.leq ?_); rfl)
    | with_reducible apply State.fnCmd_only
    | with_reducible apply cmdStop_only
    | (extract_lets +onlyGivenNames x; first
        | (refine Only.cut (p := ((Parts.report.or Parts.memory).or { genStale := true, drainAt := true, hostW := true, sq := true, started := true, unconf := true, pcie := true, pages := true, heldWr := true, order := true, fab := true, tor := true, freeCtr := true, dark := true, arr := true, sump := true, gathers := true, upd := true, ranks := true, homes := true, scan := true, caddy := true })) (s := s) (x := x) (fun hx => ?_) ?_; clear_value x; revert x; intro y hy; rotate_left; unfold x; clear x)
        | (refine Only.cut1 (p := ((Parts.report.or Parts.memory).or { genStale := true, drainAt := true, hostW := true, sq := true, started := true, unconf := true, pcie := true, pages := true, heldWr := true, order := true, fab := true, tor := true, freeCtr := true, dark := true, arr := true, sump := true, gathers := true, upd := true, ranks := true, homes := true, scan := true, caddy := true })) (s := s) (x := x) (fun hx => ?_) ?_; clear_value x; revert x; intro y hy; rotate_left; unfold x; clear x)
        | (refine Only.cut2 (p := ((Parts.report.or Parts.memory).or { genStale := true, drainAt := true, hostW := true, sq := true, started := true, unconf := true, pcie := true, pages := true, heldWr := true, order := true, fab := true, tor := true, freeCtr := true, dark := true, arr := true, sump := true, gathers := true, upd := true, ranks := true, homes := true, scan := true, caddy := true })) (s := s) (x := x) (fun hx => ?_) ?_; clear_value x; revert x; intro y hy; rotate_left; unfold x; clear x)
        | (revert x; intro y))
    | simp (disch := with_unfolding_all (apply Parts.same; apply Eq.refl)) only [Only.set_iff]
    | with_reducible apply Only.foldl
    | with_reducible apply Only.foldl_fst
    | (refine Only.of_fst ‹_ = _› ?_)
    | (refine Only.of_snd ‹_ = _› ?_)
    | split
    | (intro)

theorem execCmdChange_only {s u : State} {f : Nat} (e : execCmdChange f s = .next u) : Only Parts.report s u := by
  unfold execCmdChange at e
  injection e with e
  subst e
  repeat' first
    | with_reducible exact Only.refl _ _
    | ((with_reducible refine Parts.leq ?_); rfl)
    | with_reducible apply State.fnCmd_only
    | with_reducible apply cmdChange_only
    | (intro)

theorem execCmdRestart_only {s u : State} {f : Nat} (e : execCmdRestart f s = .next u) : Only (Parts.report.or { inForce := true, sq := true, fab := true, tor := true, sump := true }) s u := by
  unfold execCmdRestart at e
  injection e with e
  subst e
  try dsimp -zeta only
  repeat' first
    | with_reducible assumption
    | with_reducible exact Only.refl _ _
    | ((with_reducible refine Parts.leq ?_); rfl)
    | with_reducible apply State.fnCmd_only
    | with_reducible apply cmdRestart_only
    | (extract_lets +onlyGivenNames x; first
        | (refine Only.cut (p := (Parts.report.or { inForce := true, sq := true, fab := true, tor := true, sump := true })) (s := s) (x := x) (fun hx => ?_) ?_; clear_value x; revert x; intro y hy; rotate_left; unfold x; clear x)
        | (refine Only.cut1 (p := (Parts.report.or { inForce := true, sq := true, fab := true, tor := true, sump := true })) (s := s) (x := x) (fun hx => ?_) ?_; clear_value x; revert x; intro y hy; rotate_left; unfold x; clear x)
        | (refine Only.cut2 (p := (Parts.report.or { inForce := true, sq := true, fab := true, tor := true, sump := true })) (s := s) (x := x) (fun hx => ?_) ?_; clear_value x; revert x; intro y hy; rotate_left; unfold x; clear x)
        | (revert x; intro y))
    | simp (disch := with_unfolding_all (apply Parts.same; apply Eq.refl)) only [Only.set_iff]
    | with_reducible apply Only.foldl
    | with_reducible apply Only.foldl_fst
    | (refine Only.of_fst ‹_ = _› ?_)
    | (refine Only.of_snd ‹_ = _› ?_)
    | split
    | (intro)

theorem execCmdAbort_only {s u : State} {f : Nat} (e : execCmdAbort f s = .next u) : Only ((Parts.report.or Parts.memory).or { genStale := true, drainAt := true, hostW := true, sq := true, started := true, unconf := true, pcie := true, pages := true, heldWr := true, order := true, fab := true, tor := true, freeCtr := true, dark := true, arr := true, sump := true, gathers := true, upd := true, ranks := true, homes := true, scan := true, caddy := true }) s u := by
  unfold execCmdAbort at e
  injection e with e
  subst e
  try dsimp -zeta only
  repeat' first
    | with_reducible assumption
    | with_reducible exact Only.refl _ _
    | ((with_reducible refine Parts.leq ?_); rfl)
    | with_reducible apply State.fnCmd_only
    | with_reducible apply cmdAbort_only
    | (extract_lets +onlyGivenNames x; first
        | (refine Only.cut (p := ((Parts.report.or Parts.memory).or { genStale := true, drainAt := true, hostW := true, sq := true, started := true, unconf := true, pcie := true, pages := true, heldWr := true, order := true, fab := true, tor := true, freeCtr := true, dark := true, arr := true, sump := true, gathers := true, upd := true, ranks := true, homes := true, scan := true, caddy := true })) (s := s) (x := x) (fun hx => ?_) ?_; clear_value x; revert x; intro y hy; rotate_left; unfold x; clear x)
        | (refine Only.cut1 (p := ((Parts.report.or Parts.memory).or { genStale := true, drainAt := true, hostW := true, sq := true, started := true, unconf := true, pcie := true, pages := true, heldWr := true, order := true, fab := true, tor := true, freeCtr := true, dark := true, arr := true, sump := true, gathers := true, upd := true, ranks := true, homes := true, scan := true, caddy := true })) (s := s) (x := x) (fun hx => ?_) ?_; clear_value x; revert x; intro y hy; rotate_left; unfold x; clear x)
        | (refine Only.cut2 (p := ((Parts.report.or Parts.memory).or { genStale := true, drainAt := true, hostW := true, sq := true, started := true, unconf := true, pcie := true, pages := true, heldWr := true, order := true, fab := true, tor := true, freeCtr := true, dark := true, arr := true, sump := true, gathers := true, upd := true, ranks := true, homes := true, scan := true, caddy := true })) (s := s) (x := x) (fun hx => ?_) ?_; clear_value x; revert x; intro y hy; rotate_left; unfold x; clear x)
        | (revert x; intro y))
    | simp (disch := with_unfolding_all (apply Parts.same; apply Eq.refl)) only [Only.set_iff]
    | with_reducible apply Only.foldl
    | with_reducible apply Only.foldl_fst
    | (refine Only.of_fst ‹_ = _› ?_)
    | (refine Only.of_snd ‹_ = _› ?_)
    | split
    | (intro)

theorem execDrainComplete_only {s u : State} {f : Nat} (e : execDrainComplete f s = .next u) : Only (Parts.report.or { drainAt := true }) s u := by
  unfold execDrainComplete at e
  injection e with e
  subst e
  repeat' first
    | with_reducible exact Only.refl _ _
    | ((with_reducible refine Parts.leq ?_); rfl)
    | with_reducible apply State.auditFn_only
    | with_reducible apply State.enterStopped_only
    | split

theorem execDrainLimitExpire_only {s u : State} {f : Nat} (e : execDrainLimitExpire f s = .next u) : Only ((Parts.report.or Parts.memory).or { genStale := true, drainAt := true, hostW := true, clk := true, sq := true, started := true, unconf := true, pcie := true, pages := true, heldWr := true, order := true, fab := true, tor := true, freeCtr := true, dark := true, arr := true, sump := true, gathers := true, upd := true, ranks := true, homes := true, scan := true, caddy := true }) s u := by
  unfold execDrainLimitExpire at e
  injection e with e
  subst e
  try dsimp -zeta only
  repeat' first
    | with_reducible assumption
    | with_reducible exact Only.refl _ _
    | ((with_reducible refine Parts.leq ?_); rfl)
    | with_reducible apply State.abortFn_only
    | with_reducible apply State.reach_only
    | (extract_lets +onlyGivenNames x; first
        | (refine Only.cut (p := ((Parts.report.or Parts.memory).or { genStale := true, drainAt := true, hostW := true, clk := true, sq := true, started := true, unconf := true, pcie := true, pages := true, heldWr := true, order := true, fab := true, tor := true, freeCtr := true, dark := true, arr := true, sump := true, gathers := true, upd := true, ranks := true, homes := true, scan := true, caddy := true })) (s := s) (x := x) (fun hx => ?_) ?_; clear_value x; revert x; intro y hy; rotate_left; unfold x; clear x)
        | (refine Only.cut1 (p := ((Parts.report.or Parts.memory).or { genStale := true, drainAt := true, hostW := true, clk := true, sq := true, started := true, unconf := true, pcie := true, pages := true, heldWr := true, order := true, fab := true, tor := true, freeCtr := true, dark := true, arr := true, sump := true, gathers := true, upd := true, ranks := true, homes := true, scan := true, caddy := true })) (s := s) (x := x) (fun hx => ?_) ?_; clear_value x; revert x; intro y hy; rotate_left; unfold x; clear x)
        | (refine Only.cut2 (p := ((Parts.report.or Parts.memory).or { genStale := true, drainAt := true, hostW := true, clk := true, sq := true, started := true, unconf := true, pcie := true, pages := true, heldWr := true, order := true, fab := true, tor := true, freeCtr := true, dark := true, arr := true, sump := true, gathers := true, upd := true, ranks := true, homes := true, scan := true, caddy := true })) (s := s) (x := x) (fun hx => ?_) ?_; clear_value x; revert x; intro y hy; rotate_left; unfold x; clear x)
        | (revert x; intro y))
    | simp (disch := with_unfolding_all (apply Parts.same; apply Eq.refl)) only [Only.set_iff]
    | with_reducible apply Only.foldl
    | with_reducible apply Only.foldl_fst
    | (refine Only.of_fst ‹_ = _› ?_)
    | (refine Only.of_snd ‹_ = _› ?_)
    | split
    | (intro)

theorem State.dropLate_only {p : Parts} {s t : State} {f : Nat} {gen : Nat} (hq : Parts.le { fab := true } p = true) (h : Only p s t) : Only p s (State.dropLate t f gen) := by
  refine Only.step hq h ?_
  unfold State.dropLate
  try dsimp -zeta only
  repeat' first
    | with_reducible assumption
    | with_reducible exact Only.refl _ _
    | ((with_reducible refine Parts.leq ?_); rfl)
    | (extract_lets +onlyGivenNames x; first
        | (refine Only.cut (p := { fab := true }) (s := t) (x := x) (fun hx => ?_) ?_; clear_value x; revert x; intro y hy; rotate_left; unfold x; clear x)
        | (refine Only.cut1 (p := { fab := true }) (s := t) (x := x) (fun hx => ?_) ?_; clear_value x; revert x; intro y hy; rotate_left; unfold x; clear x)
        | (refine Only.cut2 (p := { fab := true }) (s := t) (x := x) (fun hx => ?_) ?_; clear_value x; revert x; intro y hy; rotate_left; unfold x; clear x)
        | (revert x; intro y))
    | simp (disch := with_unfolding_all (apply Parts.same; apply Eq.refl)) only [Only.set_iff]
    | with_reducible apply Only.foldl
    | with_reducible apply Only.foldl_fst
    | (refine Only.of_fst ‹_ = _› ?_)
    | (refine Only.of_snd ‹_ = _› ?_)
    | split
    | (intro)

theorem execStaleReplyDrop_only {s u : State} {f : Nat} {gen : Nat} (e : execStaleReplyDrop f gen s = .next u) : Only ((Parts.report.or Parts.memory).or { genStale := true, started := true, heldWr := true, order := true, fab := true, tor := true, freeCtr := true, arr := true }) s u := by
  unfold execStaleReplyDrop at e
  injection e with e
  subst e
  try dsimp -zeta only
  repeat' first
    | with_reducible assumption
    | with_reducible exact Only.refl _ _
    | ((with_reducible refine Parts.leq ?_); rfl)
    | with_reducible apply dropDisowned_only
    | with_reducible apply traceEnd_only
    | with_reducible apply State.dropStale_only
    | with_reducible apply State.dropLate_only
    | (extract_lets +onlyGivenNames x; first
        | (refine Only.cut (p := ((Parts.report.or Parts.memory).or { genStale := true, started := true, heldWr := true, order := true, fab := true, tor := true, freeCtr := true, arr := true })) (s := s) (x := x) (fun hx => ?_) ?_; clear_value x; revert x; intro y hy; rotate_left; unfold x; clear x)
        | (refine Only.cut1 (p := ((Parts.report.or Parts.memory).or { genStale := true, started := true, heldWr := true, order := true, fab := true, tor := true, freeCtr := true, arr := true })) (s := s) (x := x) (fun hx => ?_) ?_; clear_value x; revert x; intro y hy; rotate_left; unfold x; clear x)
        | (refine Only.cut2 (p := ((Parts.report.or Parts.memory).or { genStale := true, started := true, heldWr := true, order := true, fab := true, tor := true, freeCtr := true, arr := true })) (s := s) (x := x) (fun hx => ?_) ?_; clear_value x; revert x; intro y hy; rotate_left; unfold x; clear x)
        | (revert x; intro y))
    | simp (disch := with_unfolding_all (apply Parts.same; apply Eq.refl)) only [Only.set_iff]
    | with_reducible apply Only.foldl
    | with_reducible apply Only.foldl_fst
    | (refine Only.of_fst ‹_ = _› ?_)
    | (refine Only.of_snd ‹_ = _› ?_)
    | split
    | (intro)

end Sys2Proof.Machine
end

