-- ==== Sys2Proof/Laws/OnlyHang.lean ====
section
/-!
SUPPORT. Which parts of the state the operations of Machine/Hang.lean may change (Safety.lean).
-/
namespace Sys2Proof.Machine

open Sys2Proof

theorem State.breakAt_only {p : Parts} {s t : State} {v : Wait} (hq : Parts.le ((Parts.report.or Parts.memory).or { hostW := true, sq := true, started := true, pcie := true, heldWr := true, order := true, fab := true, tor := true, arr := true, upd := true }) p = true) (h : Only p s t) : Only p s (State.breakAt t v) := by
  refine Only.step hq h ?_
  unfold State.breakAt
  try dsimp -zeta only
  repeat' first
    | with_reducible assumption
    | with_reducible exact Only.refl _ _
    | ((with_reducible refine Parts.leq ?_); rfl)
    | with_reducible apply State.completeFetched_only
    | with_reducible apply State.setFn_only
    | with_reducible apply State.forgetPrefetch_only
    | with_reducible apply State.setSq_only
    | with_reducible apply State.updStarted_only
    | with_reducible apply State.engineFault_only
    | (extract_lets +onlyGivenNames x; first
        | (refine Only.cut (p := ((Parts.report.or Parts.memory).or { hostW := true, sq := true, started := true, pcie := true, heldWr := true, order := true, fab := true, tor := true, arr := true, upd := true })) (s := t) (x := x) (fun hx => ?_) ?_; clear_value x; revert x; intro y hy; rotate_left; unfold x; clear x)
        | (refine Only.cut1 (p := ((Parts.report.or Parts.memory).or { hostW := true, sq := true, started := true, pcie := true, heldWr := true, order := true, fab := true, tor := true, arr := true, upd := true })) (s := t) (x := x) (fun hx => ?_) ?_; clear_value x; revert x; intro y hy; rotate_left; unfold x; clear x)
        | (refine Only.cut2 (p := ((Parts.report.or Parts.memory).or { hostW := true, sq := true, started := true, pcie := true, heldWr := true, order := true, fab := true, tor := true, arr := true, upd := true })) (s := t) (x := x) (fun hx => ?_) ?_; clear_value x; revert x; intro y hy; rotate_left; unfold x; clear x)
        | (revert x; intro y))
    | simp (disch := with_unfolding_all (apply Parts.same; apply Eq.refl)) only [Only.set_iff]
    | with_reducible apply Only.foldl
    | with_reducible apply Only.foldl_fst
    | (refine Only.of_fst ‹_ = _› ?_)
    | (refine Only.of_snd ‹_ = _› ?_)
    | split
    | (intro)

theorem State.breakCycle_only {p : Parts} {s t : State} {v : Wait} (hq : Parts.le ((Parts.report.or Parts.memory).or { genStale := true, drainAt := true, hostW := true, sq := true, started := true, unconf := true, pcie := true, pages := true, heldWr := true, order := true, fab := true, tor := true, freeCtr := true, dark := true, arr := true, sump := true, gathers := true, upd := true, ranks := true, homes := true, scan := true, caddy := true }) p = true) (h : Only p s t) : Only p s (State.breakCycle t v) := by
  refine Only.step hq h ?_
  unfold State.breakCycle
  try dsimp -zeta only
  repeat' first
    | with_reducible assumption
    | with_reducible exact Only.refl _ _
    | ((with_reducible refine Parts.leq ?_); rfl)
    | with_reducible apply State.breakAt_only
    | with_reducible apply State.leaveRun_only
    | with_reducible apply State.setFn_only
    | (extract_lets +onlyGivenNames x; first
        | (refine Only.cut (p := ((Parts.report.or Parts.memory).or { genStale := true, drainAt := true, hostW := true, sq := true, started := true, unconf := true, pcie := true, pages := true, heldWr := true, order := true, fab := true, tor := true, freeCtr := true, dark := true, arr := true, sump := true, gathers := true, upd := true, ranks := true, homes := true, scan := true, caddy := true })) (s := t) (x := x) (fun hx => ?_) ?_; clear_value x; revert x; intro y hy; rotate_left; unfold x; clear x)
        | (refine Only.cut1 (p := ((Parts.report.or Parts.memory).or { genStale := true, drainAt := true, hostW := true, sq := true, started := true, unconf := true, pcie := true, pages := true, heldWr := true, order := true, fab := true, tor := true, freeCtr := true, dark := true, arr := true, sump := true, gathers := true, upd := true, ranks := true, homes := true, scan := true, caddy := true })) (s := t) (x := x) (fun hx => ?_) ?_; clear_value x; revert x; intro y hy; rotate_left; unfold x; clear x)
        | (refine Only.cut2 (p := ((Parts.report.or Parts.memory).or { genStale := true, drainAt := true, hostW := true, sq := true, started := true, unconf := true, pcie := true, pages := true, heldWr := true, order := true, fab := true, tor := true, freeCtr := true, dark := true, arr := true, sump := true, gathers := true, upd := true, ranks := true, homes := true, scan := true, caddy := true })) (s := t) (x := x) (fun hx => ?_) ?_; clear_value x; revert x; intro y hy; rotate_left; unfold x; clear x)
        | (revert x; intro y))
    | simp (disch := with_unfolding_all (apply Parts.same; apply Eq.refl)) only [Only.set_iff]
    | with_reducible apply Only.foldl
    | with_reducible apply Only.foldl_fst
    | (refine Only.of_fst ‹_ = _› ?_)
    | (refine Only.of_snd ‹_ = _› ?_)
    | split
    | (intro)

theorem State.declareCycle_only {p : Parts} {s t : State} {c : List Wait} {v : Wait} (hq : Parts.le ((Parts.report.or Parts.memory).or { genStale := true, drainAt := true, hostW := true, sq := true, started := true, unconf := true, pcie := true, pages := true, heldWr := true, order := true, fab := true, tor := true, freeCtr := true, dark := true, arr := true, sump := true, gathers := true, upd := true, ranks := true, homes := true, scan := true, caddy := true }) p = true) (h : Only p s t) : Only p s (State.declareCycle t c v) := by
  refine Only.step hq h ?_
  unfold State.declareCycle
  try dsimp -zeta only
  repeat' first
    | with_reducible assumption
    | with_reducible exact Only.refl _ _
    | ((with_reducible refine Parts.leq ?_); rfl)
    | with_reducible apply State.report_only
    | with_reducible apply State.breakCycle_only
    | with_reducible apply State.declareHang_only
    | (extract_lets +onlyGivenNames x; first
        | (refine Only.cut (p := ((Parts.report.or Parts.memory).or { genStale := true, drainAt := true, hostW := true, sq := true, started := true, unconf := true, pcie := true, pages := true, heldWr := true, order := true, fab := true, tor := true, freeCtr := true, dark := true, arr := true, sump := true, gathers := true, upd := true, ranks := true, homes := true, scan := true, caddy := true })) (s := t) (x := x) (fun hx => ?_) ?_; clear_value x; revert x; intro y hy; rotate_left; unfold x; clear x)
        | (refine Only.cut1 (p := ((Parts.report.or Parts.memory).or { genStale := true, drainAt := true, hostW := true, sq := true, started := true, unconf := true, pcie := true, pages := true, heldWr := true, order := true, fab := true, tor := true, freeCtr := true, dark := true, arr := true, sump := true, gathers := true, upd := true, ranks := true, homes := true, scan := true, caddy := true })) (s := t) (x := x) (fun hx => ?_) ?_; clear_value x; revert x; intro y hy; rotate_left; unfold x; clear x)
        | (refine Only.cut2 (p := ((Parts.report.or Parts.memory).or { genStale := true, drainAt := true, hostW := true, sq := true, started := true, unconf := true, pcie := true, pages := true, heldWr := true, order := true, fab := true, tor := true, freeCtr := true, dark := true, arr := true, sump := true, gathers := true, upd := true, ranks := true, homes := true, scan := true, caddy := true })) (s := t) (x := x) (fun hx => ?_) ?_; clear_value x; revert x; intro y hy; rotate_left; unfold x; clear x)
        | (revert x; intro y))
    | simp (disch := with_unfolding_all (apply Parts.same; apply Eq.refl)) only [Only.set_iff]
    | with_reducible apply Only.foldl
    | with_reducible apply Only.foldl_fst
    | (refine Only.of_fst ‹_ = _› ?_)
    | (refine Only.of_snd ‹_ = _› ?_)
    | split
    | (intro)

theorem waitforSample_only {p : Parts} {s t : State}  (hq : Parts.le ((Parts.report.or Parts.memory).or { genStale := true, drainAt := true, hostW := true, sq := true, started := true, unconf := true, pcie := true, pages := true, heldWr := true, order := true, fab := true, tor := true, freeCtr := true, dark := true, arr := true, sump := true, gathers := true, upd := true, ranks := true, homes := true, scan := true, hang := true, caddy := true }) p = true) (h : Only p s t) : Only p s (waitforSample t) := by
  refine Only.step hq h ?_
  unfold waitforSample
  try dsimp -zeta only
  repeat' first
    | with_reducible assumption
    | with_reducible exact Only.refl _ _
    | ((with_reducible refine Parts.leq ?_); rfl)
    | with_reducible apply State.declareCycle_only
    | (extract_lets +onlyGivenNames x; first
        | (refine Only.cut (p := ((Parts.report.or Parts.memory).or { genStale := true, drainAt := true, hostW := true, sq := true, started := true, unconf := true, pcie := true, pages := true, heldWr := true, order := true, fab := true, tor := true, freeCtr := true, dark := true, arr := true, sump := true, gathers := true, upd := true, ranks := true, homes := true, scan := true, hang := true, caddy := true })) (s := t) (x := x) (fun hx => ?_) ?_; clear_value x; revert x; intro y hy; rotate_left; unfold x; clear x)
        | (refine Only.cut1 (p := ((Parts.report.or Parts.memory).or { genStale := true, drainAt := true, hostW := true, sq := true, started := true, unconf := true, pcie := true, pages := true, heldWr := true, order := true, fab := true, tor := true, freeCtr := true, dark := true, arr := true, sump := true, gathers := true, upd := true, ranks := true, homes := true, scan := true, hang := true, caddy := true })) (s := t) (x := x) (fun hx => ?_) ?_; clear_value x; revert x; intro y hy; rotate_left; unfold x; clear x)
        | (refine Only.cut2 (p := ((Parts.report.or Parts.memory).or { genStale := true, drainAt := true, hostW := true, sq := true, started := true, unconf := true, pcie := true, pages := true, heldWr := true, order := true, fab := true, tor := true, freeCtr := true, dark := true, arr := true, sump := true, gathers := true, upd := true, ranks := true, homes := true, scan := true, hang := true, caddy := true })) (s := t) (x := x) (fun hx => ?_) ?_; clear_value x; revert x; intro y hy; rotate_left; unfold x; clear x)
        | (revert x; intro y))
    | simp (disch := with_unfolding_all (apply Parts.same; apply Eq.refl)) only [Only.set_iff]
    | with_reducible apply Only.foldl
    | with_reducible apply Only.foldl_fst
    | (refine Only.of_fst ‹_ = _› ?_)
    | (refine Only.of_snd ‹_ = _› ?_)
    | split
    | (intro)

theorem execWaitforSample_only {s u : State}  (e : execWaitforSample s = .next u) : Only ((Parts.report.or Parts.memory).or { genStale := true, drainAt := true, hostW := true, sq := true, started := true, unconf := true, pcie := true, pages := true, heldWr := true, order := true, fab := true, tor := true, freeCtr := true, dark := true, arr := true, sump := true, gathers := true, upd := true, ranks := true, homes := true, scan := true, hang := true, caddy := true }) s u := by
  unfold execWaitforSample at e
  injection e with e
  subst e
  try dsimp -zeta only
  repeat' first
    | with_reducible assumption
    | with_reducible exact Only.refl _ _
    | ((with_reducible refine Parts.leq ?_); rfl)
    | with_reducible apply waitforSample_only
    | (extract_lets +onlyGivenNames x; first
        | (refine Only.cut (p := ((Parts.report.or Parts.memory).or { genStale := true, drainAt := true, hostW := true, sq := true, started := true, unconf := true, pcie := true, pages := true, heldWr := true, order := true, fab := true, tor := true, freeCtr := true, dark := true, arr := true, sump := true, gathers := true, upd := true, ranks := true, homes := true, scan := true, hang := true, caddy := true })) (s := s) (x := x) (fun hx => ?_) ?_; clear_value x; revert x; intro y hy; rotate_left; unfold x; clear x)
        | (refine Only.cut1 (p := ((Parts.report.or Parts.memory).or { genStale := true, drainAt := true, hostW := true, sq := true, started := true, unconf := true, pcie := true, pages := true, heldWr := true, order := true, fab := true, tor := true, freeCtr := true, dark := true, arr := true, sump := true, gathers := true, upd := true, ranks := true, homes := true, scan := true, hang := true, caddy := true })) (s := s) (x := x) (fun hx => ?_) ?_; clear_value x; revert x; intro y hy; rotate_left; unfold x; clear x)
        | (refine Only.cut2 (p := ((Parts.report.or Parts.memory).or { genStale := true, drainAt := true, hostW := true, sq := true, started := true, unconf := true, pcie := true, pages := true, heldWr := true, order := true, fab := true, tor := true, freeCtr := true, dark := true, arr := true, sump := true, gathers := true, upd := true, ranks := true, homes := true, scan := true, hang := true, caddy := true })) (s := s) (x := x) (fun hx => ?_) ?_; clear_value x; revert x; intro y hy; rotate_left; unfold x; clear x)
        | (revert x; intro y))
    | simp (disch := with_unfolding_all (apply Parts.same; apply Eq.refl)) only [Only.set_iff]
    | with_reducible apply Only.foldl
    | with_reducible apply Only.foldl_fst
    | (refine Only.of_fst ‹_ = _› ?_)
    | (refine Only.of_snd ‹_ = _› ?_)
    | split
    | (intro)

theorem State.sendProbe_only {p : Parts} {s t : State} {x1 : Nat} {body : List Byte} (hq : Parts.le { fab := true } p = true) (h : Only p s t) : Only p s (State.sendProbe t x1 body) := by
  refine Only.step hq h ?_
  unfold State.sendProbe
  repeat' first
    | with_reducible exact Only.refl _ _
    | ((with_reducible refine Parts.leq ?_); rfl)
    | with_reducible apply State.enqueue_only

theorem State.probeQueue_only {p : Parts} {s t : State} {x1 : Nat} {vc : Nat} {cls : Nat} {q : Queued} (hq : Parts.le { fab := true, hang := true } p = true) (h : Only p s t) : Only p s (State.probeQueue t x1 vc cls q) := by
  refine Only.step hq h ?_
  unfold State.probeQueue
  try dsimp -zeta only
  repeat' first
    | with_reducible assumption
    | with_reducible exact Only.refl _ _
    | ((with_reducible refine Parts.leq ?_); rfl)
    | simp only [id_eq]
    | with_reducible apply State.sendProbe_only
    | (extract_lets +onlyGivenNames x; first
        | (refine Only.cut (p := { fab := true, hang := true }) (s := t) (x := x) (fun hx => ?_) ?_; clear_value x; revert x; intro y hy; rotate_left; unfold x; clear x)
        | (refine Only.cut1 (p := { fab := true, hang := true }) (s := t) (x := x) (fun hx => ?_) ?_; clear_value x; revert x; intro y hy; rotate_left; unfold x; clear x)
        | (refine Only.cut2 (p := { fab := true, hang := true }) (s := t) (x := x) (fun hx => ?_) ?_; clear_value x; revert x; intro y hy; rotate_left; unfold x; clear x)
        | (revert x; intro y))
    | simp (disch := with_unfolding_all (apply Parts.same; apply Eq.refl)) only [Only.set_iff]
    | with_reducible apply Only.foldl
    | with_reducible apply Only.foldl_fst
    | (refine Only.of_fst ‹_ = _› ?_)
    | (refine Only.of_snd ‹_ = _› ?_)
    | split
    | (intro)

theorem execEgressStall_only {s u : State} {x0 : Nat} {vc : Nat} {cls : Nat} (e : execEgressStall x0 vc cls s = .next u) : Only { clk := true, fab := true, hang := true } s u := by
  unfold execEgressStall at e
  injection e with e
  subst e
  repeat' first
    | with_reducible exact Only.refl _ _
    | ((with_reducible refine Parts.leq ?_); rfl)
    | with_reducible apply State.probeQueue_only
    | with_reducible apply State.reach_only
    | split

theorem execProbeResendTimer_only {s u : State} {x0 : Nat} {vc : Nat} {cls : Nat} (e : execProbeResendTimer x0 vc cls s = .next u) : Only { clk := true, fab := true, hang := true } s u := by
  unfold execProbeResendTimer at e
  injection e with e
  subst e
  repeat' first
    | with_reducible exact Only.refl _ _
    | ((with_reducible refine Parts.leq ?_); rfl)
    | with_reducible apply State.probeQueue_only
    | with_reducible apply State.reach_only
    | split

theorem State.takeInbox_only {p : Parts} {s t u : State} {n : Nat} {k : Packet} (hq : Parts.le { fab := true } p = true) (h : Only p s t) (e : State.takeInbox t n k = some u) :
    Only p s u := by
  unfold State.takeInbox at e
  dsimp only at e
  split at e
  · contradiction
  · split at e
    · contradiction
    · injection e with e
      subst e
      exact State.setPort_only hq h

theorem State.dropHead_only {p : Parts} {s t : State} {x1 : Nat} {vc : Nat} {cls : Nat} {q : Queued} (hq : Parts.le { regs := true, fab := true } p = true) (h : Only p s t) : Only p s (State.dropHead t x1 vc cls q) := by
  refine Only.step hq h ?_
  unfold State.dropHead
  repeat' first
    | with_reducible exact Only.refl _ _
    | ((with_reducible refine Parts.leq ?_); rfl)
    | with_reducible apply State.setPort_only
    | with_reducible apply State.creditBack_only

theorem State.fabricCycle_only {p : Parts} {s t : State} {x1 : Nat} {vc : Nat} {cls : Nat} {q : Queued} (hq : Parts.le (Parts.report.or { fab := true }) p = true) (h : Only p s t) : Only p s (State.fabricCycle t x1 vc cls q) := by
  refine Only.step hq h ?_
  unfold State.fabricCycle
  repeat' first
    | with_reducible exact Only.refl _ _
    | ((with_reducible refine Parts.leq ?_); rfl)
    | with_reducible apply State.report_only
    | with_reducible apply State.dropHead_only
    | with_reducible apply State.declareHang_only

theorem hangProbe_only {p : Parts} {s t : State} {x1 : Nat} {k : Packet} (hq : Parts.le (Parts.report.or { fab := true }) p = true) (h : Only p s t) : Only p s (hangProbe t x1 k) := by
  refine Only.step hq h ?_
  unfold hangProbe
  try dsimp -zeta only
  repeat' first
    | with_reducible assumption
    | with_reducible exact Only.refl _ _
    | ((with_reducible refine Parts.leq ?_); rfl)
    | simp only [id_eq]
    | with_reducible apply State.fabricCycle_only
    | with_reducible apply State.sendProbe_only
    | (extract_lets +onlyGivenNames x; first
        | (refine Only.cut (p := (Parts.report.or { fab := true })) (s := t) (x := x) (fun hx => ?_) ?_; clear_value x; revert x; intro y hy; rotate_left; unfold x; clear x)
        | (refine Only.cut1 (p := (Parts.report.or { fab := true })) (s := t) (x := x) (fun hx => ?_) ?_; clear_value x; revert x; intro y hy; rotate_left; unfold x; clear x)
        | (refine Only.cut2 (p := (Parts.report.or { fab := true })) (s := t) (x := x) (fun hx => ?_) ?_; clear_value x; revert x; intro y hy; rotate_left; unfold x; clear x)
        | (revert x; intro y))
    | simp (disch := with_unfolding_all (apply Parts.same; apply Eq.refl)) only [Only.set_iff]
    | with_reducible apply Only.foldl
    | with_reducible apply Only.foldl_fst
    | (refine Only.of_fst ‹_ = _› ?_)
    | (refine Only.of_snd ‹_ = _› ?_)
    | split
    | (intro)

theorem State.clearMgmt_only {p : Parts} {s t : State} {r : Nat} {k : Packet} (hq : Parts.le { regs := true } p = true) (h : Only p s t) : Only p s (State.clearMgmt t r k).1 := by
  refine Only.step hq h ?_
  unfold State.clearMgmt
  repeat' first
    | with_reducible exact Only.refl _ _
    | ((with_reducible refine Parts.leq ?_); rfl)
    | with_reducible apply State.bump_only
    | split

theorem execHangProbe_only {s u : State} {x0 : Nat} {pkt : Packet} (e : execHangProbe x0 pkt s = .next u) : Only (Parts.report.or { fab := true }) s u := by
  unfold execHangProbe at e
  injection e with e
  subst e
  try dsimp -zeta only
  repeat' first
    | with_reducible assumption
    | with_reducible exact Only.refl _ _
    | ((with_reducible refine Parts.leq ?_); rfl)
    | refine State.takeInbox_only ?_ ?_ ‹_›
    | refine State.takeInbox_only ?_ ?_ (some_of_ite ‹_›)
    | with_reducible apply State.clearMgmt_only
    | with_reducible apply hangProbe_only
    | (extract_lets +onlyGivenNames x; first
        | (refine Only.cut (p := (Parts.report.or { fab := true })) (s := s) (x := x) (fun hx => ?_) ?_; clear_value x; revert x; intro y hy; rotate_left; unfold x; clear x)
        | (refine Only.cut1 (p := (Parts.report.or { fab := true })) (s := s) (x := x) (fun hx => ?_) ?_; clear_value x; revert x; intro y hy; rotate_left; unfold x; clear x)
        | (refine Only.cut2 (p := (Parts.report.or { fab := true })) (s := s) (x := x) (fun hx => ?_) ?_; clear_value x; revert x; intro y hy; rotate_left; unfold x; clear x)
        | (revert x; intro y))
    | simp (disch := with_unfolding_all (apply Parts.same; apply Eq.refl)) only [Only.set_iff]
    | with_reducible apply Only.foldl
    | with_reducible apply Only.foldl_fst
    | (refine Only.of_fst ‹_ = _› ?_)
    | (refine Only.of_snd ‹_ = _› ?_)
    | split
    | (intro)

end Sys2Proof.Machine
end

