-- ==== Sys2Proof/Laws/OnlyDump.lean ====
section
/-!
SUPPORT. Which parts of the state the operations of Machine/Dump.lean may change (Safety.lean).
-/
namespace Sys2Proof.Machine

open Sys2Proof

theorem Parts.restMem_putDump {p : Parts} {m : Mem} {k : Nat} {l : List Host.Cell} (hh : p.hbm = true) (hp : p.poison = true) :
    p.restMem (m.putDump k l) = p.restMem m := by
  simp only [Mem.putDump, Mem.cleanse, Parts.restMem, hh, hp, cond_true]

theorem Parts.restMem_dumpDirty {p : Parts} {m : Mem} {k b : Nat} (hd : p.dirty = true) : p.restMem (m.dumpDirty k b) = p.restMem m := by
  simp only [Mem.dumpDirty, Parts.restMem, hd, cond_true]

theorem Parts.restMem_trf {p : Parts} {m : Mem} {x : List Host.Cell} (ht : p.trf = true) : p.restMem { m with trf := x } = p.restMem m := by
  simp only [Parts.restMem, ht, cond_true]

theorem State.crashDump_only {p : Parts} {s t : State} {x : DumpFor} (hq : Parts.le { regs := true, hbm := true, trf := true, poison := true, dirty := true, freeCtr := true, hang := true } p = true) (h : Only p s t) :
    Only p s (State.crashDump t x) := by
  refine Only.step hq h ?_
  unfold State.crashDump
  extract_lets no sum cells m s0 s1 w s2
  clear_value sum
  have h0 : Only { regs := true, hbm := true, trf := true, poison := true, dirty := true, freeCtr := true, hang := true } t s0 := State.drew_only rfl (Only.refl _ _)
  have hm : Parts.restMem { regs := true, hbm := true, trf := true, poison := true, dirty := true, freeCtr := true, hang := true } m = Parts.restMem { regs := true, hbm := true, trf := true, poison := true, dirty := true, freeCtr := true, hang := true } t.mem  :=
    (Parts.restMem_dumpDirty rfl).trans ((Parts.restMem_dumpDirty rfl).trans ((Parts.restMem_putDump rfl rfl).trans (Parts.restMem_putDump rfl rfl)))
  have he : s0.mem = t.mem := rfl
  clear_value m s0
  have h1 : Only { regs := true, hbm := true, trf := true, poison := true, dirty := true, freeCtr := true, hang := true } t s1 := Only.setMem ((Parts.restMem_trf rfl).trans (hm.trans (congrArg _ he.symm))) h0
  have h2 : Only { regs := true, hbm := true, trf := true, poison := true, dirty := true, freeCtr := true, hang := true } t s2 := State.setReg_only rfl h1
  clear_value s2
  exact Only.set (Parts.Agree.rest (by constructor; rfl; all_goals (intro k; first | exact absurd k (by decide) | rfl))) h2

theorem State.flashWrite_only {p : Parts} {s t : State} {x1 : Nat} {a : Nat} {d : List Byte} (hq : Parts.le { flash := true } p = true) (h : Only p s t) : Only p s (State.flashWrite t x1 a d) := by
  refine Only.step hq h ?_
  unfold State.flashWrite
  repeat' first
    | with_reducible exact Only.refl _ _
    | ((with_reducible refine Parts.leq ?_); rfl)
    | simp (disch := with_unfolding_all (apply Parts.same; apply Eq.refl)) only [Only.set_iff]
    | split

theorem execSummaryFlashCopy_only {s u : State} {x0 : Nat} (e : execSummaryFlashCopy x0 s = .next u) : Only { flash := true, hang := true } s u := by
  unfold execSummaryFlashCopy at e
  injection e with e
  subst e
  repeat' first
    | with_reducible exact Only.refl _ _
    | ((with_reducible refine Parts.leq ?_); rfl)
    | with_reducible apply State.flashWrite_only
    | simp (disch := with_unfolding_all (apply Parts.same; apply Eq.refl)) only [Only.set_iff]
    | split

end Sys2Proof.Machine
end

