-- ==== Sys2Proof/Laws/OnlyReset.lean ====
section
/-!
SUPPORT. Which parts of the state the operations of Machine/Reset.lean may change (Safety.lean).
-/
namespace Sys2Proof.Machine

open Sys2Proof

theorem State.withdrawTicket_only {p : Parts} {s t : State} {x1 : Nat} (hq : Parts.le ((Parts.report.or Parts.memory).or { hostW := true, started := true, unconf := true, pcie := true, pages := true, heldWr := true, waitRd := true, order := true, fab := true, tor := true, arr := true, ranks := true, quar := true, trelfort := true }) p = true) (h : Only p s t) : Only p s (State.withdrawTicket t x1) := by
  refine Only.step hq h ?_
  unfold State.withdrawTicket
  try dsimp -zeta only
  repeat' first
    | with_reducible assumption
    | with_reducible exact Only.refl _ _
    | ((with_reducible refine Parts.leq ?_); rfl)
    | with_reducible apply fenceArrives_only
    | with_reducible apply State.fenceTicket_only
    | with_reducible apply State.settle_only
    | with_reducible apply State.updTicket_only
    | (extract_lets +onlyGivenNames x; first
        | (refine Only.cut (p := ((Parts.report.or Parts.memory).or { hostW := true, started := true, unconf := true, pcie := true, pages := true, heldWr := true, waitRd := true, order := true, fab := true, tor := true, arr := true, ranks := true, quar := true, trelfort := true })) (s := t) (x := x) (fun hx => ?_) ?_; clear_value x; revert x; intro y hy; rotate_left; unfold x; clear x)
        | (refine Only.cut1 (p := ((Parts.report.or Parts.memory).or { hostW := true, started := true, unconf := true, pcie := true, pages := true, heldWr := true, waitRd := true, order := true, fab := true, tor := true, arr := true, ranks := true, quar := true, trelfort := true })) (s := t) (x := x) (fun hx => ?_) ?_; clear_value x; revert x; intro y hy; rotate_left; unfold x; clear x)
        | (refine Only.cut2 (p := ((Parts.report.or Parts.memory).or { hostW := true, started := true, unconf := true, pcie := true, pages := true, heldWr := true, waitRd := true, order := true, fab := true, tor := true, arr := true, ranks := true, quar := true, trelfort := true })) (s := t) (x := x) (fun hx => ?_) ?_; clear_value x; revert x; intro y hy; rotate_left; unfold x; clear x)
        | (revert x; intro y))
    | simp (disch := with_unfolding_all (apply Parts.same; apply Eq.refl)) only [Only.set_iff]
    | with_reducible apply Only.foldl
    | with_reducible apply Only.foldl_fst
    | (refine Only.of_fst ‹_ = _› ?_)
    | (refine Only.of_snd ‹_ = _› ?_)
    | split
    | (intro)

theorem State.withdrawAll_only {p : Parts} {s t : State}  (hq : Parts.le ((Parts.report.or Parts.memory).or { hostW := true, started := true, unconf := true, pcie := true, pages := true, heldWr := true, waitRd := true, order := true, fab := true, tor := true, arr := true, ranks := true, quar := true, trelfort := true }) p = true) (h : Only p s t) : Only p s (State.withdrawAll t) := by
  refine Only.step hq h ?_
  unfold State.withdrawAll
  try dsimp -zeta only
  repeat' first
    | with_reducible assumption
    | with_reducible exact Only.refl _ _
    | ((with_reducible refine Parts.leq ?_); rfl)
    | with_reducible apply State.withdrawTicket_only
    | (extract_lets +onlyGivenNames x; first
        | (refine Only.cut (p := ((Parts.report.or Parts.memory).or { hostW := true, started := true, unconf := true, pcie := true, pages := true, heldWr := true, waitRd := true, order := true, fab := true, tor := true, arr := true, ranks := true, quar := true, trelfort := true })) (s := t) (x := x) (fun hx => ?_) ?_; clear_value x; revert x; intro y hy; rotate_left; unfold x; clear x)
        | (refine Only.cut1 (p := ((Parts.report.or Parts.memory).or { hostW := true, started := true, unconf := true, pcie := true, pages := true, heldWr := true, waitRd := true, order := true, fab := true, tor := true, arr := true, ranks := true, quar := true, trelfort := true })) (s := t) (x := x) (fun hx => ?_) ?_; clear_value x; revert x; intro y hy; rotate_left; unfold x; clear x)
        | (refine Only.cut2 (p := ((Parts.report.or Parts.memory).or { hostW := true, started := true, unconf := true, pcie := true, pages := true, heldWr := true, waitRd := true, order := true, fab := true, tor := true, arr := true, ranks := true, quar := true, trelfort := true })) (s := t) (x := x) (fun hx => ?_) ?_; clear_value x; revert x; intro y hy; rotate_left; unfold x; clear x)
        | (revert x; intro y))
    | simp (disch := with_unfolding_all (apply Parts.same; apply Eq.refl)) only [Only.set_iff]
    | with_reducible apply Only.foldl
    | with_reducible apply Only.foldl_fst
    | (refine Only.of_fst ‹_ = _› ?_)
    | (refine Only.of_snd ‹_ = _› ?_)
    | split
    | (intro)

theorem State.forceStop_only {p : Parts} {s t : State} {f : Nat} (hq : Parts.le ((Parts.report.or Parts.memory).or { genStale := true, drainAt := true, hostW := true, sq := true, started := true, unconf := true, pcie := true, pages := true, heldWr := true, order := true, fab := true, tor := true, freeCtr := true, dark := true, arr := true, sump := true, gathers := true, upd := true, ranks := true, homes := true, scan := true, caddy := true }) p = true) (h : Only p s t) : Only p s (State.forceStop t f) := by
  refine Only.step hq h ?_
  unfold State.forceStop
  try dsimp -zeta only
  repeat' first
    | with_reducible assumption
    | with_reducible exact Only.refl _ _
    | ((with_reducible refine Parts.leq ?_); rfl)
    | with_reducible apply State.abortFn_only
    | with_reducible apply State.enterDrain_only
    | with_reducible apply State.enterStopped_only
    | with_reducible apply State.bumpGen_only
    | (extract_lets +onlyGivenNames x; first
        | (refine Only.cut (p := ((Parts.report.or Parts.memory).or { genStale := true, drainAt := true, hostW := true, sq := true, started := true, unconf := true, pcie := true, pages := true, heldWr := true, order := true, fab := true, tor := true, freeCtr := true, dark := true, arr := true, sump := true, gathers := true, upd := true, ranks := true, homes := true, scan := true, caddy := true })) (s := t) (x := x) (fun hx => ?_) ?_; clear_value x; revert x; intro y hy; rotate_left; unfold x; clear x)
        | (refine Only.cut1 (p := ((Parts.report.or Parts.memory).or { genStale := true, drainAt := true, hostW := true, sq := true, started := true, unconf := true, pcie := true, pages := true, heldWr := true, order := true, fab := true, tor := true, freeCtr := true, dark := true, arr := true, sump := true, gathers := true, upd := true, ranks := true, homes := true, scan := true, caddy := true })) (s := t) (x := x) (fun hx => ?_) ?_; clear_value x; revert x; intro y hy; rotate_left; unfold x; clear x)
        | (refine Only.cut2 (p := ((Parts.report.or Parts.memory).or { genStale := true, drainAt := true, hostW := true, sq := true, started := true, unconf := true, pcie := true, pages := true, heldWr := true, order := true, fab := true, tor := true, freeCtr := true, dark := true, arr := true, sump := true, gathers := true, upd := true, ranks := true, homes := true, scan := true, caddy := true })) (s := t) (x := x) (fun hx => ?_) ?_; clear_value x; revert x; intro y hy; rotate_left; unfold x; clear x)
        | (revert x; intro y))
    | simp (disch := with_unfolding_all (apply Parts.same; apply Eq.refl)) only [Only.set_iff]
    | with_reducible apply Only.foldl
    | with_reducible apply Only.foldl_fst
    | (refine Only.of_fst ‹_ = _› ?_)
    | (refine Only.of_snd ‹_ = _› ?_)
    | split
    | (intro)

theorem State.abortFallback_only {p : Parts} {s t : State}  (hq : Parts.le { regs := true, started := true, upd := true } p = true) (h : Only p s t) : Only p s (State.abortFallback t) := by
  refine Only.step hq h ?_
  unfold State.abortFallback
  repeat' first
    | with_reducible assumption
    | with_reducible exact Only.refl _ _
    | ((with_reducible refine Parts.leq ?_); rfl)
    | with_reducible apply State.endUpd_only
    | with_reducible apply Only.foldl
    | split
    | (intro)

theorem State.holdDies_only {p : Parts} {s t : State}  (hq : Parts.le { regs := true, staging := true, stagTag := true, started := true, dark := true, obs := true, arr := true, upd := true, hang := true } p = true) (h : Only p s t) : Only p s (State.holdDies t) := by
  refine Only.step hq h ?_
  unfold State.holdDies
  repeat' first
    | with_reducible assumption
    | with_reducible exact Only.refl _ _
    | ((with_reducible refine Parts.leq ?_); rfl)
    | with_reducible apply State.abortFallback_only
    | (extract_lets +onlyGivenNames x; first
        | (refine Only.cut (p := { regs := true, staging := true, stagTag := true, started := true, dark := true, obs := true, arr := true, upd := true, hang := true }) (s := t) (x := x) (fun hx => ?_) ?_; clear_value x; revert x; intro y hy; rotate_left; unfold x; clear x))
    | with_reducible apply Only.foldl
    | (intro)
    | refine Only.set (Parts.Agree.rest (by constructor; rfl; all_goals (intro k; first | exact absurd k (by decide) | rfl))) ?_

theorem State.holdCompute_only {p : Parts} {s t : State}  (hq : Parts.le ((Parts.report.or Parts.memory).or { started := true, heldWr := true, fab := true, tor := true, freeCtr := true, dark := true, arr := true, sump := true, gathers := true, upd := true, ranks := true, scan := true, hang := true, caddy := true }) p = true) (h : Only p s t) : Only p s (State.holdCompute t) := by
  refine Only.step hq h ?_
  unfold State.holdCompute
  try dsimp -zeta only
  repeat' first
    | with_reducible assumption
    | with_reducible exact Only.refl _ _
    | ((with_reducible refine Parts.leq ?_); rfl)
    | with_reducible apply State.zeroRegs_only
    | with_reducible apply State.holdDies_only
    | with_reducible apply State.haltDesc_only
    | (extract_lets +onlyGivenNames x; first
        | (refine Only.cut (p := ((Parts.report.or Parts.memory).or { started := true, heldWr := true, fab := true, tor := true, freeCtr := true, dark := true, arr := true, sump := true, gathers := true, upd := true, ranks := true, scan := true, hang := true, caddy := true })) (s := t) (x := x) (fun hx => ?_) ?_; clear_value x; revert x; intro y hy; rotate_left; unfold x; clear x)
        | (refine Only.cut1 (p := ((Parts.report.or Parts.memory).or { started := true, heldWr := true, fab := true, tor := true, freeCtr := true, dark := true, arr := true, sump := true, gathers := true, upd := true, ranks := true, scan := true, hang := true, caddy := true })) (s := t) (x := x) (fun hx => ?_) ?_; clear_value x; revert x; intro y hy; rotate_left; unfold x; clear x)
        | (refine Only.cut2 (p := ((Parts.report.or Parts.memory).or { started := true, heldWr := true, fab := true, tor := true, freeCtr := true, dark := true, arr := true, sump := true, gathers := true, upd := true, ranks := true, scan := true, hang := true, caddy := true })) (s := t) (x := x) (fun hx => ?_) ?_; clear_value x; revert x; intro y hy; rotate_left; unfold x; clear x)
        | (revert x; intro y))
    | with_reducible apply Only.foldl
    | with_reducible apply Only.foldl_fst
    | (refine Only.of_fst ‹_ = _› ?_)
    | (refine Only.of_snd ‹_ = _› ?_)
    | split
    | (intro)
    | refine Only.set (Parts.Agree.rest (by constructor; rfl; all_goals (intro k; first | exact absurd k (by decide) | rfl))) ?_

theorem State.retrainAll_only {p : Parts} {s t : State}  (hq : Parts.le (Parts.report.or { hbm := true, fab := true }) p = true) (h : Only p s t) : Only p s (State.retrainAll t) := by
  refine Only.step hq h ?_
  unfold State.retrainAll
  try dsimp -zeta only
  repeat' first
    | with_reducible assumption
    | with_reducible exact Only.refl _ _
    | ((with_reducible refine Parts.leq ?_); rfl)
    | with_reducible apply State.train_only
    | with_reducible apply State.auditBridge_only
    | (extract_lets +onlyGivenNames x; first
        | (refine Only.cut (p := (Parts.report.or { hbm := true, fab := true })) (s := t) (x := x) (fun hx => ?_) ?_; clear_value x; revert x; intro y hy; rotate_left; unfold x; clear x)
        | (refine Only.cut1 (p := (Parts.report.or { hbm := true, fab := true })) (s := t) (x := x) (fun hx => ?_) ?_; clear_value x; revert x; intro y hy; rotate_left; unfold x; clear x)
        | (refine Only.cut2 (p := (Parts.report.or { hbm := true, fab := true })) (s := t) (x := x) (fun hx => ?_) ?_; clear_value x; revert x; intro y hy; rotate_left; unfold x; clear x)
        | (revert x; intro y))
    | simp (disch := with_unfolding_all (apply Parts.same; apply Eq.refl)) only [Only.set_iff]
    | with_reducible apply Only.foldl
    | with_reducible apply Only.foldl_fst
    | (refine Only.of_fst ‹_ = _› ?_)
    | (refine Only.of_snd ‹_ = _› ?_)
    | split
    | (intro)

theorem State.leaveDoze_only {p : Parts} {s t : State}  (hq : Parts.le { regs := true, pwr := true } p = true) (h : Only p s t) : Only p s (State.leaveDoze t) := by
  refine Only.step hq h ?_
  unfold State.leaveDoze
  repeat' first
    | with_reducible exact Only.refl _ _
    | ((with_reducible refine Parts.leq ?_); rfl)
    | with_reducible apply State.setEff_only
    | simp (disch := with_unfolding_all (apply Parts.same; apply Eq.refl)) only [Only.set_iff]
    | split

theorem State.markReset_only {p : Parts} {s t : State} {level : Nat} {cause : Nat} (hq : Parts.le { regs := true, trf := true, started := true, flt := true, fab := true, journal := true, scan := true, hang := true } p = true) (h : Only p s t) : Only p s (State.markReset t level cause) := by
  refine Only.step hq h ?_
  unfold State.markReset
  try dsimp -zeta only
  repeat' first
    | with_reducible assumption
    | with_reducible exact Only.refl _ _
    | ((with_reducible refine Parts.leq ?_); rfl)
    | with_reducible apply State.event_only
    | with_reducible apply State.bump_only
    | with_reducible apply State.fput_only
    | with_reducible apply State.scanStop_only
    | with_reducible apply State.ropeDisarm_only
    | with_reducible apply State.ropeReset_only
    | (extract_lets +onlyGivenNames x; first
        | (refine Only.cut (p := { regs := true, trf := true, started := true, flt := true, fab := true, journal := true, scan := true, hang := true }) (s := t) (x := x) (fun hx => ?_) ?_; clear_value x; revert x; intro y hy; rotate_left; unfold x; clear x)
        | (refine Only.cut1 (p := { regs := true, trf := true, started := true, flt := true, fab := true, journal := true, scan := true, hang := true }) (s := t) (x := x) (fun hx => ?_) ?_; clear_value x; revert x; intro y hy; rotate_left; unfold x; clear x)
        | (refine Only.cut2 (p := { regs := true, trf := true, started := true, flt := true, fab := true, journal := true, scan := true, hang := true }) (s := t) (x := x) (fun hx => ?_) ?_; clear_value x; revert x; intro y hy; rotate_left; unfold x; clear x)
        | (revert x; intro y))
    | simp (disch := with_unfolding_all (apply Parts.same; apply Eq.refl)) only [Only.set_iff]
    | with_reducible apply Only.foldl
    | with_reducible apply Only.foldl_fst
    | (refine Only.of_fst ‹_ = _› ?_)
    | (refine Only.of_snd ‹_ = _› ?_)
    | split
    | (intro)

theorem State.startReset_only {p : Parts} {s t : State} {level : Nat} {cause : Nat} {flag : Bool} {descs : List (Nat × Nat)} (hq : Parts.le ((Parts.report.or Parts.memory).or { genStale := true, drainAt := true, hostW := true, sq := true, started := true, unconf := true, pcie := true, pages := true, heldWr := true, waitRd := true, order := true, fab := true, tor := true, freeCtr := true, dark := true, arr := true, sump := true, gathers := true, upd := true, ranks := true, homes := true, quar := true, scan := true, hang := true, trelfort := true, pwr := true, caddy := true }) p = true) (h : Only p s t) : Only p s (State.startReset t level cause flag descs) := by
  refine Only.step hq h ?_
  unfold State.startReset
  try dsimp -zeta only
  repeat' first
    | with_reducible assumption
    | with_reducible exact Only.refl _ _
    | ((with_reducible refine Parts.leq ?_); rfl)
    | with_reducible apply State.withdrawAll_only
    | with_reducible apply State.markReset_only
    | with_reducible apply State.leaveDoze_only
    | with_reducible apply State.forceStop_only
    | with_reducible apply State.crashDump_only
    | with_reducible apply State.holdCompute_only
    | with_reducible apply State.stopDrain_only
    | with_reducible apply State.retrainAll_only
    | (extract_lets +onlyGivenNames x; first
        | (refine Only.cut (p := ((Parts.report.or Parts.memory).or { genStale := true, drainAt := true, hostW := true, sq := true, started := true, unconf := true, pcie := true, pages := true, heldWr := true, waitRd := true, order := true, fab := true, tor := true, freeCtr := true, dark := true, arr := true, sump := true, gathers := true, upd := true, ranks := true, homes := true, quar := true, scan := true, hang := true, trelfort := true, pwr := true, caddy := true })) (s := t) (x := x) (fun hx => ?_) ?_; clear_value x; revert x; intro y hy; rotate_left; unfold x; clear x)
        | (refine Only.cut1 (p := ((Parts.report.or Parts.memory).or { genStale := true, drainAt := true, hostW := true, sq := true, started := true, unconf := true, pcie := true, pages := true, heldWr := true, waitRd := true, order := true, fab := true, tor := true, freeCtr := true, dark := true, arr := true, sump := true, gathers := true, upd := true, ranks := true, homes := true, quar := true, scan := true, hang := true, trelfort := true, pwr := true, caddy := true })) (s := t) (x := x) (fun hx => ?_) ?_; clear_value x; revert x; intro y hy; rotate_left; unfold x; clear x)
        | (refine Only.cut2 (p := ((Parts.report.or Parts.memory).or { genStale := true, drainAt := true, hostW := true, sq := true, started := true, unconf := true, pcie := true, pages := true, heldWr := true, waitRd := true, order := true, fab := true, tor := true, freeCtr := true, dark := true, arr := true, sump := true, gathers := true, upd := true, ranks := true, homes := true, quar := true, scan := true, hang := true, trelfort := true, pwr := true, caddy := true })) (s := t) (x := x) (fun hx => ?_) ?_; clear_value x; revert x; intro y hy; rotate_left; unfold x; clear x)
        | (revert x; intro y))
    | simp (disch := with_unfolding_all (apply Parts.same; apply Eq.refl)) only [Only.set_iff]
    | with_reducible apply Only.foldl
    | with_reducible apply Only.foldl_fst
    | (refine Only.of_fst ‹_ = _› ?_)
    | (refine Only.of_snd ‹_ = _› ?_)
    | split
    | (intro)

theorem State.coldState_only {p : Parts} {s t : State} {held : Bool} {cause : Nat} (hq : Parts.le { regs := true, inForce := true, genStale := true, drainAt := true, rrLast := true, staging := true, trf := true, stagTag := true, poison := true, dirty := true, clk := true, sq := true, started := true, unconf := true, pcie := true, flt := true, notices := true, pages := true, heldWr := true, waitRd := true, order := true, fab := true, tor := true, dark := true, obs := true, journal := true, arr := true, sump := true, gathers := true, rowsIn := true, upd := true, scrub := true, ranks := true, homes := true, quar := true, scan := true, hang := true, trelfort := true, risk := true, pwr := true, caddy := true } p = true) (h : Only p s t) : Only p s (State.coldState t held cause) := by
  refine Only.step hq h ?_
  unfold State.coldState
  try dsimp -zeta only
  repeat' first
    | with_reducible assumption
    | with_reducible exact Only.refl _ _
    | ((with_reducible refine Parts.leq ?_); rfl)
    | (extract_lets +onlyGivenNames x; first
        | (refine Only.cut (p := { regs := true, inForce := true, genStale := true, drainAt := true, rrLast := true, staging := true, trf := true, stagTag := true, poison := true, dirty := true, clk := true, sq := true, started := true, unconf := true, pcie := true, flt := true, notices := true, pages := true, heldWr := true, waitRd := true, order := true, fab := true, tor := true, dark := true, obs := true, journal := true, arr := true, sump := true, gathers := true, rowsIn := true, upd := true, scrub := true, ranks := true, homes := true, quar := true, scan := true, hang := true, trelfort := true, risk := true, pwr := true, caddy := true }) (s := t) (x := x) (fun hx => ?_) ?_; clear_value x; revert x; intro y hy; rotate_left; unfold x; clear x)
        | (refine Only.cut1 (p := { regs := true, inForce := true, genStale := true, drainAt := true, rrLast := true, staging := true, trf := true, stagTag := true, poison := true, dirty := true, clk := true, sq := true, started := true, unconf := true, pcie := true, flt := true, notices := true, pages := true, heldWr := true, waitRd := true, order := true, fab := true, tor := true, dark := true, obs := true, journal := true, arr := true, sump := true, gathers := true, rowsIn := true, upd := true, scrub := true, ranks := true, homes := true, quar := true, scan := true, hang := true, trelfort := true, risk := true, pwr := true, caddy := true }) (s := t) (x := x) (fun hx => ?_) ?_; clear_value x; revert x; intro y hy; rotate_left; unfold x; clear x)
        | (refine Only.cut2 (p := { regs := true, inForce := true, genStale := true, drainAt := true, rrLast := true, staging := true, trf := true, stagTag := true, poison := true, dirty := true, clk := true, sq := true, started := true, unconf := true, pcie := true, flt := true, notices := true, pages := true, heldWr := true, waitRd := true, order := true, fab := true, tor := true, dark := true, obs := true, journal := true, arr := true, sump := true, gathers := true, rowsIn := true, upd := true, scrub := true, ranks := true, homes := true, quar := true, scan := true, hang := true, trelfort := true, risk := true, pwr := true, caddy := true }) (s := t) (x := x) (fun hx => ?_) ?_; clear_value x; revert x; intro y hy; rotate_left; unfold x; clear x)
        | (revert x; intro y))
    | simp (disch := with_unfolding_all (apply Parts.same; apply Eq.refl)) only [Only.set_iff]
    | with_reducible apply Only.foldl
    | with_reducible apply Only.foldl_fst
    | (refine Only.of_fst ‹_ = _› ?_)
    | (refine Only.of_snd ‹_ = _› ?_)
    | split
    | (intro)

theorem State.atStep_only {p : Parts} {s t : State} {n : Nat} (hq : Parts.le { regs := true } p = true) (h : Only p s t) : Only p s (State.atStep t n) := by
  refine Only.step hq h ?_
  unfold State.atStep
  repeat' first
    | with_reducible exact Only.refl _ _
    | ((with_reducible refine Parts.leq ?_); rfl)
    | with_reducible apply State.fput_only

theorem State.advance_only {p : Parts} {s t : State}  (hq : Parts.le { regs := true, pwr := true } p = true) (h : Only p s t) : Only p s (State.advance t) := by
  refine Only.step hq h ?_
  unfold State.advance
  repeat' first
    | with_reducible exact Only.refl _ _
    | ((with_reducible refine Parts.leq ?_); rfl)
    | with_reducible apply State.atStep_only
    | simp (disch := with_unfolding_all (apply Parts.same; apply Eq.refl)) only [Only.set_iff]
    | split

theorem State.coldPins_only {p : Parts} {s t : State}  (hq : Parts.le { out := true } p = true) (h : Only p s t) : Only p s (State.coldPins t) := by
  refine Only.step hq h ?_
  unfold State.coldPins
  repeat' first
    | with_reducible exact Only.refl _ _
    | ((with_reducible refine Parts.leq ?_); rfl)
    | with_reducible apply State.emit_only
    | split

theorem State.coldReset_only {p : Parts} {s t : State} {cause : Nat} {flag : Bool} {held : Bool} (hq : Parts.le ((Parts.report.or Parts.memory).or { inForce := true, genStale := true, drainAt := true, rrLast := true, clk := true, sq := true, started := true, unconf := true, pcie := true, pages := true, heldWr := true, waitRd := true, order := true, fab := true, tor := true, freeCtr := true, dark := true, arr := true, sump := true, gathers := true, rowsIn := true, upd := true, scrub := true, ranks := true, homes := true, quar := true, scan := true, hang := true, trelfort := true, risk := true, pwr := true, caddy := true }) p = true) (h : Only p s t) : Only p s (State.coldReset t cause flag held) := by
  refine Only.step hq h ?_
  unfold State.coldReset
  try dsimp -zeta only
  repeat' first
    | with_reducible assumption
    | with_reducible exact Only.refl _ _
    | ((with_reducible refine Parts.leq ?_); rfl)
    | with_reducible apply State.markReset_only
    | with_reducible apply State.crashDump_only
    | with_reducible apply State.portOff_only
    | with_reducible apply State.coldState_only
    | with_reducible apply State.coldPins_only
    | with_reducible apply State.atStep_only
    | (extract_lets +onlyGivenNames x; first
        | (refine Only.cut (p := ((Parts.report.or Parts.memory).or { inForce := true, genStale := true, drainAt := true, rrLast := true, clk := true, sq := true, started := true, unconf := true, pcie := true, pages := true, heldWr := true, waitRd := true, order := true, fab := true, tor := true, freeCtr := true, dark := true, arr := true, sump := true, gathers := true, rowsIn := true, upd := true, scrub := true, ranks := true, homes := true, quar := true, scan := true, hang := true, trelfort := true, risk := true, pwr := true, caddy := true })) (s := t) (x := x) (fun hx => ?_) ?_; clear_value x; revert x; intro y hy; rotate_left; unfold x; clear x)
        | (refine Only.cut1 (p := ((Parts.report.or Parts.memory).or { inForce := true, genStale := true, drainAt := true, rrLast := true, clk := true, sq := true, started := true, unconf := true, pcie := true, pages := true, heldWr := true, waitRd := true, order := true, fab := true, tor := true, freeCtr := true, dark := true, arr := true, sump := true, gathers := true, rowsIn := true, upd := true, scrub := true, ranks := true, homes := true, quar := true, scan := true, hang := true, trelfort := true, risk := true, pwr := true, caddy := true })) (s := t) (x := x) (fun hx => ?_) ?_; clear_value x; revert x; intro y hy; rotate_left; unfold x; clear x)
        | (refine Only.cut2 (p := ((Parts.report.or Parts.memory).or { inForce := true, genStale := true, drainAt := true, rrLast := true, clk := true, sq := true, started := true, unconf := true, pcie := true, pages := true, heldWr := true, waitRd := true, order := true, fab := true, tor := true, freeCtr := true, dark := true, arr := true, sump := true, gathers := true, rowsIn := true, upd := true, scrub := true, ranks := true, homes := true, quar := true, scan := true, hang := true, trelfort := true, risk := true, pwr := true, caddy := true })) (s := t) (x := x) (fun hx => ?_) ?_; clear_value x; revert x; intro y hy; rotate_left; unfold x; clear x)
        | (revert x; intro y))
    | simp (disch := with_unfolding_all (apply Parts.same; apply Eq.refl)) only [Only.set_iff]
    | with_reducible apply Only.foldl
    | with_reducible apply Only.foldl_fst
    | (refine Only.of_fst ‹_ = _› ?_)
    | (refine Only.of_snd ‹_ = _› ?_)
    | split
    | (intro)

theorem State.endResetDescs_only {p : Parts} {s t : State} {ok : Bool} (hq : Parts.le { started := true, freeCtr := true } p = true) (h : Only p s t) : Only p s (State.endResetDescs t ok) := by
  refine Only.step hq h ?_
  unfold State.endResetDescs
  repeat' first
    | with_reducible assumption
    | with_reducible exact Only.refl _ _
    | ((with_reducible refine Parts.leq ?_); rfl)
    | with_reducible apply State.setDone_only
    | with_reducible apply State.drew_only
    | with_reducible apply Only.foldl
    | split
    | (intro)

theorem State.requestReset_only {p : Parts} {s t : State} {level : Nat} {cause : Nat} {flag : Bool} {held : Bool} {desc : Option (Nat × Nat)} (hq : Parts.le Parts.most p = true) (h : Only p s t) : Only p s (State.requestReset t level cause flag held desc) := by
  refine Only.step hq h ?_
  unfold State.requestReset
  repeat' first
    | with_reducible exact Only.refl _ _
    | ((with_reducible refine Parts.leq ?_); rfl)
    | with_reducible apply State.endResetDescs_only
    | with_reducible apply State.coldReset_only
    | with_reducible apply State.startReset_only
    | simp (disch := with_unfolding_all (apply Parts.same; apply Eq.refl)) only [Only.set_iff]
    | split

theorem State.fatalReset_only {p : Parts} {s t : State}  (hq : Parts.le Parts.most p = true) (h : Only p s t) : Only p s (State.fatalReset t) := by
  refine Only.step hq h ?_
  unfold State.fatalReset
  repeat' first
    | with_reducible exact Only.refl _ _
    | ((with_reducible refine Parts.leq ?_); rfl)
    | with_reducible apply State.requestReset_only
    | simp (disch := with_unfolding_all (apply Parts.same; apply Eq.refl)) only [Only.set_iff]
    | split

theorem execFaultReport_only {s u : State} {cls : Nat} {sev : Nat} {die : Nat} {unit : Nat} {cell : Nat} {port : Nat} {ring : Nat} {seq : Nat} {layer : Nat} {op : Nat} (e : execFaultReport cls sev die unit cell port ring seq layer op s = .next u) : Only Parts.most s u := by
  unfold execFaultReport at e
  injection e with e
  subst e
  repeat' first
    | with_reducible exact Only.refl _ _
    | ((with_reducible refine Parts.leq ?_); rfl)
    | with_reducible apply State.fatalReset_only
    | with_reducible apply State.report_only
    | split

theorem execFlitSend_only {s u : State} {x0 : Nat} {parity : Option Bool} (e : execFlitSend x0 parity s = .next u) : Only Parts.most s u := by
  unfold execFlitSend at e
  injection e with e
  subst e
  repeat' first
    | with_reducible exact Only.refl _ _
    | ((with_reducible refine Parts.leq ?_); rfl)
    | with_reducible apply flitSend_only
    | with_reducible apply State.parityFault_only
    | with_reducible apply State.fatalReset_only
    | simp (disch := with_unfolding_all (apply Parts.same; apply Eq.refl)) only [Only.set_iff]
    | split

theorem resetDesc_only {p : Parts} {s t : State} {d : Started} (hq : Parts.le Parts.most p = true) (h : Only p s t) : Only p s (resetDesc t d) := by
  refine Only.step hq h ?_
  unfold resetDesc
  try dsimp -zeta only
  repeat' first
    | with_reducible assumption
    | with_reducible exact Only.refl _ _
    | ((with_reducible refine Parts.leq ?_); rfl)
    | with_reducible apply State.setDone_only
    | with_reducible apply State.requestReset_only
    | with_reducible apply State.updStarted_only
    | with_reducible apply completeStarted_only
    | with_reducible apply traceEnd_only
    | (extract_lets +onlyGivenNames x; first
        | (refine Only.cut (p := Parts.most) (s := t) (x := x) (fun hx => ?_) ?_; clear_value x; revert x; intro y hy; rotate_left; unfold x; clear x)
        | (refine Only.cut1 (p := Parts.most) (s := t) (x := x) (fun hx => ?_) ?_; clear_value x; revert x; intro y hy; rotate_left; unfold x; clear x)
        | (refine Only.cut2 (p := Parts.most) (s := t) (x := x) (fun hx => ?_) ?_; clear_value x; revert x; intro y hy; rotate_left; unfold x; clear x)
        | (revert x; intro y))
    | simp (disch := with_unfolding_all (apply Parts.same; apply Eq.refl)) only [Only.set_iff]
    | with_reducible apply Only.foldl
    | with_reducible apply Only.foldl_fst
    | (refine Only.of_fst ‹_ = _› ?_)
    | (refine Only.of_snd ‹_ = _› ?_)
    | split
    | (intro)

theorem execReset_only {s u : State} {n : Nat} {seq : Nat} (e : execReset n seq s = .next u) : Only Parts.most s u := by
  unfold execReset at e
  injection e with e
  subst e
  repeat' first
    | with_reducible exact Only.refl _ _
    | ((with_reducible refine Parts.leq ?_); rfl)
    | with_reducible apply resetDesc_only
    | split

theorem resetCmd_only {p : Parts} {s t : State} {level : Nat} {mgmt : Bool} {dump : Bool} (hq : Parts.le Parts.most p = true) (h : Only p s t) : Only p s (resetCmd t level mgmt dump) := by
  refine Only.step hq h ?_
  unfold resetCmd
  repeat' first
    | with_reducible exact Only.refl _ _
    | ((with_reducible refine Parts.leq ?_); rfl)
    | with_reducible apply State.requestReset_only
    | with_reducible apply State.rejected_only
    | split

theorem execResetCmdCompute_only {s u : State} {mgmt : Bool} {dump : Bool} (e : execResetCmdCompute mgmt dump s = .next u) : Only Parts.most s u := by
  unfold execResetCmdCompute at e
  injection e with e
  subst e
  repeat' first
    | with_reducible exact Only.refl _ _
    | ((with_reducible refine Parts.leq ?_); rfl)
    | with_reducible apply resetCmd_only

theorem execResetCmdModule_only {s u : State} {mgmt : Bool} {dump : Bool} (e : execResetCmdModule mgmt dump s = .next u) : Only Parts.most s u := by
  unfold execResetCmdModule at e
  injection e with e
  subst e
  repeat' first
    | with_reducible exact Only.refl _ _
    | ((with_reducible refine Parts.leq ?_); rfl)
    | with_reducible apply resetCmd_only

theorem execResetCmdCold_only {s u : State} {mgmt : Bool} {dump : Bool} (e : execResetCmdCold mgmt dump s = .next u) : Only Parts.most s u := by
  unfold execResetCmdCold at e
  injection e with e
  subst e
  repeat' first
    | with_reducible exact Only.refl _ _
    | ((with_reducible refine Parts.leq ?_); rfl)
    | with_reducible apply resetCmd_only

theorem execModResetAssert_only {s u : State}  (e : execModResetAssert s = .next u) : Only Parts.most s u := by
  unfold execModResetAssert at e
  injection e with e
  subst e
  repeat' first
    | with_reducible exact Only.refl _ _
    | ((with_reducible refine Parts.leq ?_); rfl)
    | with_reducible apply State.requestReset_only
    | simp (disch := with_unfolding_all (apply Parts.same; apply Eq.refl)) only [Only.set_iff]
    | split

theorem execModResetDeassert_only {s u : State}  (e : execModResetDeassert s = .next u) : Only { regs := true, hang := true, pwr := true } s u := by
  unfold execModResetDeassert at e
  injection e with e
  subst e
  repeat' first
    | with_reducible exact Only.refl _ _
    | ((with_reducible refine Parts.leq ?_); rfl)
    | with_reducible apply State.atStep_only
    | simp (disch := with_unfolding_all (apply Parts.same; apply Eq.refl)) only [Only.set_iff]
    | split

theorem execBlockBeatTimeout_only {s u : State} {b : Nat} (e : execBlockBeatTimeout b s = .next u) : Only { regs := true, clk := true, dark := true, hang := true } s u := by
  unfold execBlockBeatTimeout at e
  injection e with e
  subst e
  try dsimp -zeta only
  repeat' first
    | with_reducible assumption
    | with_reducible exact Only.refl _ _
    | ((with_reducible refine Parts.leq ?_); rfl)
    | with_reducible apply State.reach_only
    | with_reducible apply State.putBit_only
    | with_reducible apply State.dieOn_only
    | (extract_lets +onlyGivenNames x; first
        | (refine Only.cut (p := { regs := true, clk := true, dark := true, hang := true }) (s := s) (x := x) (fun hx => ?_) ?_; clear_value x; revert x; intro y hy; rotate_left; unfold x; clear x)
        | (refine Only.cut1 (p := { regs := true, clk := true, dark := true, hang := true }) (s := s) (x := x) (fun hx => ?_) ?_; clear_value x; revert x; intro y hy; rotate_left; unfold x; clear x)
        | (refine Only.cut2 (p := { regs := true, clk := true, dark := true, hang := true }) (s := s) (x := x) (fun hx => ?_) ?_; clear_value x; revert x; intro y hy; rotate_left; unfold x; clear x)
        | (revert x; intro y))
    | simp (disch := with_unfolding_all (apply Parts.same; apply Eq.refl)) only [Only.set_iff]
    | with_reducible apply Only.foldl
    | with_reducible apply Only.foldl_fst
    | (refine Only.of_fst ‹_ = _› ?_)
    | (refine Only.of_snd ‹_ = _› ?_)
    | split
    | (intro)

theorem execComputeResetTimeout_only {s u : State}  (e : execComputeResetTimeout s = .next u) : Only Parts.most s u := by
  unfold execComputeResetTimeout at e
  injection e with e
  subst e
  repeat' first
    | with_reducible exact Only.refl _ _
    | ((with_reducible refine Parts.leq ?_); rfl)
    | with_reducible apply State.requestReset_only
    | with_reducible apply State.reach_only
    | split

theorem execModuleRecoveryTimeout_only {s u : State}  (e : execModuleRecoveryTimeout s = .next u) : Only Parts.most s u := by
  unfold execModuleRecoveryTimeout at e
  injection e with e
  subst e
  repeat' first
    | with_reducible exact Only.refl _ _
    | ((with_reducible refine Parts.leq ?_); rfl)
    | with_reducible apply State.requestReset_only
    | with_reducible apply State.reach_only
    | split

theorem State.autoRestart_only {p : Parts} {s t : State} {f : Nat} (hq : Parts.le (Parts.report.or { inForce := true, sq := true, fab := true, tor := true, sump := true }) p = true) (h : Only p s t) : Only p s (State.autoRestart t f) := by
  refine Only.step hq h ?_
  unfold State.autoRestart
  try dsimp -zeta only
  repeat' first
    | with_reducible assumption
    | with_reducible exact Only.refl _ _
    | ((with_reducible refine Parts.leq ?_); rfl)
    | with_reducible apply State.restartFn_only
    | with_reducible apply State.setFn_only
    | (extract_lets +onlyGivenNames x; first
        | (refine Only.cut (p := (Parts.report.or { inForce := true, sq := true, fab := true, tor := true, sump := true })) (s := t) (x := x) (fun hx => ?_) ?_; clear_value x; revert x; intro y hy; rotate_left; unfold x; clear x)
        | (refine Only.cut1 (p := (Parts.report.or { inForce := true, sq := true, fab := true, tor := true, sump := true })) (s := t) (x := x) (fun hx => ?_) ?_; clear_value x; revert x; intro y hy; rotate_left; unfold x; clear x)
        | (refine Only.cut2 (p := (Parts.report.or { inForce := true, sq := true, fab := true, tor := true, sump := true })) (s := t) (x := x) (fun hx => ?_) ?_; clear_value x; revert x; intro y hy; rotate_left; unfold x; clear x)
        | (revert x; intro y))
    | simp (disch := with_unfolding_all (apply Parts.same; apply Eq.refl)) only [Only.set_iff]
    | with_reducible apply Only.foldl
    | with_reducible apply Only.foldl_fst
    | (refine Only.of_fst ‹_ = _› ?_)
    | (refine Only.of_snd ‹_ = _› ?_)
    | split
    | (intro)

theorem endReset_only {p : Parts} {s t : State} {r : ResetRun} (hq : Parts.le (Parts.report.or { inForce := true, sq := true, started := true, fab := true, tor := true, freeCtr := true, sump := true, hang := true }) p = true) (h : Only p s t) : Only p s (endReset t r) := by
  refine Only.step hq h ?_
  unfold endReset
  try dsimp -zeta only
  repeat' first
    | with_reducible assumption
    | with_reducible exact Only.refl _ _
    | ((with_reducible refine Parts.leq ?_); rfl)
    | with_reducible apply State.autoRestart_only
    | with_reducible apply State.endResetDescs_only
    | with_reducible apply State.event_only
    | with_reducible apply State.fput_only
    | (extract_lets +onlyGivenNames x; first
        | (refine Only.cut (p := (Parts.report.or { inForce := true, sq := true, started := true, fab := true, tor := true, freeCtr := true, sump := true, hang := true })) (s := t) (x := x) (fun hx => ?_) ?_; clear_value x; revert x; intro y hy; rotate_left; unfold x; clear x)
        | (refine Only.cut1 (p := (Parts.report.or { inForce := true, sq := true, started := true, fab := true, tor := true, freeCtr := true, sump := true, hang := true })) (s := t) (x := x) (fun hx => ?_) ?_; clear_value x; revert x; intro y hy; rotate_left; unfold x; clear x)
        | (refine Only.cut2 (p := (Parts.report.or { inForce := true, sq := true, started := true, fab := true, tor := true, freeCtr := true, sump := true, hang := true })) (s := t) (x := x) (fun hx => ?_) ?_; clear_value x; revert x; intro y hy; rotate_left; unfold x; clear x)
        | (revert x; intro y))
    | simp (disch := with_unfolding_all (apply Parts.same; apply Eq.refl)) only [Only.set_iff]
    | with_reducible apply Only.foldl
    | with_reducible apply Only.foldl_fst
    | (refine Only.of_fst ‹_ = _› ?_)
    | (refine Only.of_snd ‹_ = _› ?_)
    | split
    | (intro)

theorem execResetEnd_only {s u : State}  (e : execResetEnd s = .next u) : Only (Parts.report.or { inForce := true, sq := true, started := true, fab := true, tor := true, freeCtr := true, sump := true, hang := true }) s u := by
  unfold execResetEnd at e
  injection e with e
  subst e
  try dsimp -zeta only
  repeat' first
    | with_reducible assumption
    | with_reducible exact Only.refl _ _
    | ((with_reducible refine Parts.leq ?_); rfl)
    | with_reducible apply endReset_only
    | (extract_lets +onlyGivenNames x; first
        | (refine Only.cut (p := (Parts.report.or { inForce := true, sq := true, started := true, fab := true, tor := true, freeCtr := true, sump := true, hang := true })) (s := s) (x := x) (fun hx => ?_) ?_; clear_value x; revert x; intro y hy; rotate_left; unfold x; clear x)
        | (refine Only.cut1 (p := (Parts.report.or { inForce := true, sq := true, started := true, fab := true, tor := true, freeCtr := true, sump := true, hang := true })) (s := s) (x := x) (fun hx => ?_) ?_; clear_value x; revert x; intro y hy; rotate_left; unfold x; clear x)
        | (refine Only.cut2 (p := (Parts.report.or { inForce := true, sq := true, started := true, fab := true, tor := true, freeCtr := true, sump := true, hang := true })) (s := s) (x := x) (fun hx => ?_) ?_; clear_value x; revert x; intro y hy; rotate_left; unfold x; clear x)
        | (revert x; intro y))
    | simp (disch := with_unfolding_all (apply Parts.same; apply Eq.refl)) only [Only.set_iff]
    | with_reducible apply Only.foldl
    | with_reducible apply Only.foldl_fst
    | (refine Only.of_fst ‹_ = _› ?_)
    | (refine Only.of_snd ‹_ = _› ?_)
    | split
    | (intro)

theorem State.giveUp_only {p : Parts} {s t : State}  (hq : Parts.le { regs := true, inForce := true, genStale := true, drainAt := true, rrLast := true, staging := true, trf := true, stagTag := true, poison := true, dirty := true, clk := true, sq := true, started := true, unconf := true, pcie := true, flt := true, notices := true, pages := true, heldWr := true, waitRd := true, order := true, fab := true, tor := true, dark := true, obs := true, journal := true, arr := true, sump := true, gathers := true, rowsIn := true, upd := true, scrub := true, ranks := true, homes := true, quar := true, scan := true, hang := true, trelfort := true, risk := true, pwr := true, caddy := true } p = true) (h : Only p s t) : Only p s (State.giveUp t) := by
  refine Only.step hq h ?_
  unfold State.giveUp
  try dsimp -zeta only
  repeat' first
    | with_reducible assumption
    | with_reducible exact Only.refl _ _
    | ((with_reducible refine Parts.leq ?_); rfl)
    | with_reducible apply State.coldState_only
    | (extract_lets +onlyGivenNames x; first
        | (refine Only.cut (p := { regs := true, inForce := true, genStale := true, drainAt := true, rrLast := true, staging := true, trf := true, stagTag := true, poison := true, dirty := true, clk := true, sq := true, started := true, unconf := true, pcie := true, flt := true, notices := true, pages := true, heldWr := true, waitRd := true, order := true, fab := true, tor := true, dark := true, obs := true, journal := true, arr := true, sump := true, gathers := true, rowsIn := true, upd := true, scrub := true, ranks := true, homes := true, quar := true, scan := true, hang := true, trelfort := true, risk := true, pwr := true, caddy := true }) (s := t) (x := x) (fun hx => ?_) ?_; clear_value x; revert x; intro y hy; rotate_left; unfold x; clear x)
        | (refine Only.cut1 (p := { regs := true, inForce := true, genStale := true, drainAt := true, rrLast := true, staging := true, trf := true, stagTag := true, poison := true, dirty := true, clk := true, sq := true, started := true, unconf := true, pcie := true, flt := true, notices := true, pages := true, heldWr := true, waitRd := true, order := true, fab := true, tor := true, dark := true, obs := true, journal := true, arr := true, sump := true, gathers := true, rowsIn := true, upd := true, scrub := true, ranks := true, homes := true, quar := true, scan := true, hang := true, trelfort := true, risk := true, pwr := true, caddy := true }) (s := t) (x := x) (fun hx => ?_) ?_; clear_value x; revert x; intro y hy; rotate_left; unfold x; clear x)
        | (refine Only.cut2 (p := { regs := true, inForce := true, genStale := true, drainAt := true, rrLast := true, staging := true, trf := true, stagTag := true, poison := true, dirty := true, clk := true, sq := true, started := true, unconf := true, pcie := true, flt := true, notices := true, pages := true, heldWr := true, waitRd := true, order := true, fab := true, tor := true, dark := true, obs := true, journal := true, arr := true, sump := true, gathers := true, rowsIn := true, upd := true, scrub := true, ranks := true, homes := true, quar := true, scan := true, hang := true, trelfort := true, risk := true, pwr := true, caddy := true }) (s := t) (x := x) (fun hx => ?_) ?_; clear_value x; revert x; intro y hy; rotate_left; unfold x; clear x)
        | (revert x; intro y))
    | simp (disch := with_unfolding_all (apply Parts.same; apply Eq.refl)) only [Only.set_iff]
    | with_reducible apply Only.foldl
    | with_reducible apply Only.foldl_fst
    | (refine Only.of_fst ‹_ = _› ?_)
    | (refine Only.of_snd ‹_ = _› ?_)
    | split
    | (intro)

theorem State.bothLost_only {p : Parts} {s t : State}  (hq : Parts.le Parts.most p = true) (h : Only p s t) : Only p s (State.bothLost t) := by
  refine Only.step hq h ?_
  unfold State.bothLost
  repeat' first
    | with_reducible exact Only.refl _ _
    | ((with_reducible refine Parts.leq ?_); rfl)
    | with_reducible apply State.giveUp_only
    | with_reducible apply State.requestReset_only
    | simp (disch := with_unfolding_all (apply Parts.same; apply Eq.refl)) only [Only.set_iff]
    | split

theorem State.noStandby_only {p : Parts} {s t : State} {d : Nat} (hq : Parts.le (Parts.report.or { trelfort := true }) p = true) (h : Only p s t) : Only p s (State.noStandby t d) := by
  refine Only.step hq h ?_
  unfold State.noStandby
  repeat' first
    | with_reducible exact Only.refl _ _
    | ((with_reducible refine Parts.leq ?_); rfl)
    | with_reducible apply State.report_only
    | simp (disch := with_unfolding_all (apply Parts.same; apply Eq.refl)) only [Only.set_iff]
    | split

theorem State.trfReset_only {p : Parts} {s t : State} {d : Nat} (hq : Parts.le { regs := true, trf := true, flt := true, journal := true, hang := true, trelfort := true } p = true) (h : Only p s t) : Only p s (State.trfReset t d) := by
  refine Only.step hq h ?_
  unfold State.trfReset
  repeat' first
    | with_reducible exact Only.refl _ _
    | ((with_reducible refine Parts.leq ?_); rfl)
    | with_reducible apply State.changeRole_only
    | simp (disch := with_unfolding_all (apply Parts.same; apply Eq.refl)) only [Only.set_iff]

theorem State.trfMissed_only {p : Parts} {s t : State} {d : Nat} (hq : Parts.le Parts.most p = true) (h : Only p s t) : Only p s (State.trfMissed t d) := by
  refine Only.step hq h ?_
  unfold State.trfMissed
  repeat' first
    | with_reducible exact Only.refl _ _
    | ((with_reducible refine Parts.leq ?_); rfl)
    | with_reducible apply State.bothLost_only
    | with_reducible apply State.noStandby_only
    | with_reducible apply State.trfReset_only
    | split

theorem State.blockLost_only {p : Parts} {s t : State} {b : Nat} (hq : Parts.le (Parts.report.or { staging := true, stagTag := true, started := true, dark := true, arr := true, hang := true }) p = true) (h : Only p s t) : Only p s (State.blockLost t b) := by
  refine Only.step hq h ?_
  unfold State.blockLost
  repeat' first
    | with_reducible exact Only.refl _ _
    | ((with_reducible refine Parts.leq ?_); rfl)
    | with_reducible apply State.putBit_only
    | with_reducible apply State.blockOff_only
    | with_reducible apply State.fenceBlock_only
    | with_reducible apply State.report_only
    | simp (disch := with_unfolding_all (apply Parts.same; apply Eq.refl)) only [Only.set_iff]

theorem execPerstAssert_only {s u : State}  (e : execPerstAssert s = .next u) : Only ((Parts.report.or Parts.memory).or { genStale := true, drainAt := true, hostW := true, sq := true, started := true, unconf := true, pcie := true, pages := true, heldWr := true, order := true, fab := true, tor := true, freeCtr := true, dark := true, arr := true, sump := true, gathers := true, upd := true, ranks := true, homes := true, scan := true, caddy := true }) s u := by
  unfold execPerstAssert at e
  injection e with e
  subst e
  try dsimp -zeta only
  repeat' first
    | with_reducible assumption
    | with_reducible exact Only.refl _ _
    | ((with_reducible refine Parts.leq ?_); rfl)
    | with_reducible apply State.drainNow_only
    | (extract_lets +onlyGivenNames x; first
        | (refine Only.cut (p := ((Parts.report.or Parts.memory).or { genStale := true, drainAt := true, hostW := true, sq := true, started := true, unconf := true, pcie := true, pages := true, heldWr := true, order := true, fab := true, tor := true, freeCtr := true, dark := true, arr := true, sump := true, gathers := true, upd := true, ranks := true, homes := true, scan := true, caddy := true })) (s := s) (x := x) (fun hx => ?_) ?_; clear_value x; revert x; intro y hy; rotate_left; unfold x; clear x)
        | (refine Only.cut1 (p := ((Parts.report.or Parts.memory).or { genStale := true, drainAt := true, hostW := true, sq := true, started := true, unconf := true, pcie := true, pages := true, heldWr := true, order := true, fab := true, tor := true, freeCtr := true, dark := true, arr := true, sump := true, gathers := true, upd := true, ranks := true, homes := true, scan := true, caddy := true })) (s := s) (x := x) (fun hx => ?_) ?_; clear_value x; revert x; intro y hy; rotate_left; unfold x; clear x)
        | (refine Only.cut2 (p := ((Parts.report.or Parts.memory).or { genStale := true, drainAt := true, hostW := true, sq := true, started := true, unconf := true, pcie := true, pages := true, heldWr := true, order := true, fab := true, tor := true, freeCtr := true, dark := true, arr := true, sump := true, gathers := true, upd := true, ranks := true, homes := true, scan := true, caddy := true })) (s := s) (x := x) (fun hx => ?_) ?_; clear_value x; revert x; intro y hy; rotate_left; unfold x; clear x)
        | (revert x; intro y))
    | simp (disch := with_unfolding_all (apply Parts.same; apply Eq.refl)) only [Only.set_iff]
    | with_reducible apply Only.foldl
    | with_reducible apply Only.foldl_fst
    | (refine Only.of_fst ‹_ = _› ?_)
    | (refine Only.of_snd ‹_ = _› ?_)
    | split
    | (intro)

theorem execPerstDeassert_only {s u : State}  (e : execPerstDeassert s = .next u) : Only { pcie := true } s u := by
  unfold execPerstDeassert at e
  injection e with e
  subst e
  repeat' first
    | with_reducible exact Only.refl _ _
    | ((with_reducible refine Parts.leq ?_); rfl)
    | simp (disch := with_unfolding_all (apply Parts.same; apply Eq.refl)) only [Only.set_iff]

end Sys2Proof.Machine
end

