-- ==== Sys2Proof/Laws/OnlyEvr.lean ====
section
/-!
SUPPORT. Which parts of the state the operations of Machine/Evr.lean may change (Safety.lean).
-/
namespace Sys2Proof.Machine

open Sys2Proof

theorem State.setEvr_only {p : Parts} {s t : State} {x1 : Nat} {next : Nat} {n : Nat} (hq : Parts.le { evr := true } p = true) (h : Only p s t) : Only p s (State.setEvr t x1 next n) := by
  refine Only.step hq h ?_
  unfold State.setEvr
  repeat' first
    | with_reducible exact Only.refl _ _
    | ((with_reducible refine Parts.leq ?_); rfl)
    | simp (disch := with_unfolding_all (apply Parts.same; apply Eq.refl)) only [Only.set_iff]
    | split

theorem State.showFlash_only {p : Parts} {s t : State}  (hq : Parts.le { regs := true } p = true) (h : Only p s t) : Only p s (State.showFlash t) := by
  refine Only.step hq h ?_
  unfold State.showFlash
  repeat' first
    | with_reducible exact Only.refl _ _
    | ((with_reducible refine Parts.leq ?_); rfl)
    | with_reducible apply State.fput_only

theorem State.flashDrop_only {p : Parts} {s t : State} {x1 : Nat} (hq : Parts.le { regs := true, trf := true, flt := true, evr := true, journal := true } p = true) (h : Only p s t) : Only p s (State.flashDrop t x1) := by
  refine Only.step hq h ?_
  unfold State.flashDrop
  repeat' first
    | with_reducible exact Only.refl _ _
    | ((with_reducible refine Parts.leq ?_); rfl)
    | with_reducible apply State.event_only
    | with_reducible apply State.fput_only
    | with_reducible apply State.bump_only
    | simp (disch := with_unfolding_all (apply Parts.same; apply Eq.refl)) only [Only.set_iff]
    | split

theorem flashCopy_only {p : Parts} {s t : State} {x1 : Nat} (hq : Parts.le { regs := true, trf := true, flash := true, flt := true, evr := true, journal := true } p = true) (h : Only p s t) : Only p s (flashCopy t x1) := by
  refine Only.step hq h ?_
  unfold flashCopy
  repeat' first
    | with_reducible exact Only.refl _ _
    | ((with_reducible refine Parts.leq ?_); rfl)
    | with_reducible apply State.flashDrop_only
    | with_reducible apply State.showFlash_only
    | with_reducible apply State.setEvr_only
    | with_reducible apply State.flashWrite_only
    | (extract_lets +onlyGivenNames x; first
        | (revert x; intro y))
    | split

theorem execEvrFlashCopy_only {s u : State} {x0 : Nat} (e : execEvrFlashCopy x0 s = .next u) : Only { regs := true, trf := true, flash := true, flt := true, evr := true, journal := true } s u := by
  unfold execEvrFlashCopy at e
  injection e with e
  subst e
  repeat' first
    | with_reducible exact Only.refl _ _
    | ((with_reducible refine Parts.leq ?_); rfl)
    | with_reducible apply flashCopy_only
    | split

theorem State.flushFlash_only {p : Parts} {s t : State}  (hq : Parts.le { regs := true, trf := true, flash := true, flt := true, evr := true, journal := true } p = true) (h : Only p s t) : Only p s (State.flushFlash t) := by
  refine Only.step hq h ?_
  unfold State.flushFlash
  repeat' first
    | with_reducible exact Only.refl _ _
    | ((with_reducible refine Parts.leq ?_); rfl)
    | with_reducible apply flashCopy_only
    | with_reducible apply Only.foldl
    | split
    | (intro)

theorem ctlWrite_only {p : Parts} {s t : State} {mgmt : Bool} {v : Nat} (hq : Parts.le (Parts.report.or { evr := true }) p = true) (h : Only p s t) : Only p s (ctlWrite t mgmt v) := by
  refine Only.step hq h ?_
  unfold ctlWrite
  repeat' first
    | with_reducible exact Only.refl _ _
    | ((with_reducible refine Parts.leq ?_); rfl)
    | with_reducible apply State.fput_only
    | with_reducible apply State.rejected_only
    | simp (disch := with_unfolding_all (apply Parts.same; apply Eq.refl)) only [Only.set_iff]
    | split

theorem execClearFlash_only {s u : State} {mgmt : Bool} (e : execClearFlash mgmt s = .next u) : Only (Parts.report.or { evr := true }) s u := by
  unfold execClearFlash at e
  injection e with e
  subst e
  repeat' first
    | with_reducible exact Only.refl _ _
    | ((with_reducible refine Parts.leq ?_); rfl)
    | with_reducible apply ctlWrite_only

theorem execFlashEraseDone_only {s u : State}  (e : execFlashEraseDone s = .next u) : Only { regs := true, flash := true, evr := true } s u := by
  unfold execFlashEraseDone at e
  injection e with e
  subst e
  repeat' first
    | with_reducible exact Only.refl _ _
    | ((with_reducible refine Parts.leq ?_); rfl)
    | with_reducible apply State.showFlash_only
    | split
    | refine Only.set (Parts.Agree.rest (by constructor; rfl; all_goals (intro k; first | exact absurd k (by decide) | rfl))) ?_

theorem evrFetch_only {p : Parts} {s t : State} {d : Started} (hq : Parts.le ((Parts.report.or Parts.memory).or { started := true, heldWr := true, order := true, fab := true, tor := true, arr := true }) p = true) (h : Only p s t) : Only p s (evrFetch t d) := by
  refine Only.step hq h ?_
  unfold evrFetch
  try dsimp -zeta only
  repeat' first
    | with_reducible assumption
    | with_reducible exact Only.refl _ _
    | ((with_reducible refine Parts.leq ?_); rfl)
    | with_reducible apply State.setDone_only
    | with_reducible apply State.gwrite_only
    | (extract_lets +onlyGivenNames x; first
        | (refine Only.cut (p := ((Parts.report.or Parts.memory).or { started := true, heldWr := true, order := true, fab := true, tor := true, arr := true })) (s := t) (x := x) (fun hx => ?_) ?_; clear_value x; revert x; intro y hy; rotate_left; unfold x; clear x)
        | (refine Only.cut1 (p := ((Parts.report.or Parts.memory).or { started := true, heldWr := true, order := true, fab := true, tor := true, arr := true })) (s := t) (x := x) (fun hx => ?_) ?_; clear_value x; revert x; intro y hy; rotate_left; unfold x; clear x)
        | (refine Only.cut2 (p := ((Parts.report.or Parts.memory).or { started := true, heldWr := true, order := true, fab := true, tor := true, arr := true })) (s := t) (x := x) (fun hx => ?_) ?_; clear_value x; revert x; intro y hy; rotate_left; unfold x; clear x)
        | (revert x; intro y))
    | simp (disch := with_unfolding_all (apply Parts.same; apply Eq.refl)) only [Only.set_iff]
    | with_reducible apply Only.foldl
    | with_reducible apply Only.foldl_fst
    | (refine Only.of_fst ‹_ = _› ?_)
    | (refine Only.of_snd ‹_ = _› ?_)
    | split
    | (intro)

theorem execEvrFetch_only {s u : State} {n : Nat} {seq : Nat} (e : execEvrFetch n seq s = .next u) : Only ((Parts.report.or Parts.memory).or { started := true, heldWr := true, order := true, fab := true, tor := true, arr := true }) s u := by
  unfold execEvrFetch at e
  injection e with e
  subst e
  try dsimp -zeta only
  repeat' first
    | with_reducible assumption
    | with_reducible exact Only.refl _ _
    | ((with_reducible refine Parts.leq ?_); rfl)
    | with_reducible apply evrFetch_only
    | (extract_lets +onlyGivenNames x; first
        | (refine Only.cut (p := ((Parts.report.or Parts.memory).or { started := true, heldWr := true, order := true, fab := true, tor := true, arr := true })) (s := s) (x := x) (fun hx => ?_) ?_; clear_value x; revert x; intro y hy; rotate_left; unfold x; clear x)
        | (refine Only.cut1 (p := ((Parts.report.or Parts.memory).or { started := true, heldWr := true, order := true, fab := true, tor := true, arr := true })) (s := s) (x := x) (fun hx => ?_) ?_; clear_value x; revert x; intro y hy; rotate_left; unfold x; clear x)
        | (refine Only.cut2 (p := ((Parts.report.or Parts.memory).or { started := true, heldWr := true, order := true, fab := true, tor := true, arr := true })) (s := s) (x := x) (fun hx => ?_) ?_; clear_value x; revert x; intro y hy; rotate_left; unfold x; clear x)
        | (revert x; intro y))
    | simp (disch := with_unfolding_all (apply Parts.same; apply Eq.refl)) only [Only.set_iff]
    | with_reducible apply Only.foldl
    | with_reducible apply Only.foldl_fst
    | (refine Only.of_fst ‹_ = _› ?_)
    | (refine Only.of_snd ‹_ = _› ?_)
    | split
    | (intro)

theorem execOpHoursSave_only {s u : State}  (e : execOpHoursSave s = .next u) : Only { regs := true, clk := true, evr := true } s u := by
  unfold execOpHoursSave at e
  injection e with e
  subst e
  repeat' first
    | with_reducible exact Only.refl _ _
    | ((with_reducible refine Parts.leq ?_); rfl)
    | with_reducible apply State.reach_only
    | with_reducible apply State.count_only
    | simp (disch := with_unfolding_all (apply Parts.same; apply Eq.refl)) only [Only.set_iff]
    | split

end Sys2Proof.Machine
end

