-- ==== Sys2Proof/Laws/OnlyPower.lean ====
section
/-!
SUPPORT. Which parts of the state the operations of Machine/Power.lean may change (Safety.lean).
-/
namespace Sys2Proof.Machine

open Sys2Proof

theorem State.setFeed_only {p : Parts} {s t : State} {f : Nat} {v : Feed} (hq : Parts.le { pwr := true } p = true) (h : Only p s t) : Only p s (State.setFeed t f v) := by
  refine Only.step hq h ?_
  unfold State.setFeed
  repeat' first
    | with_reducible exact Only.refl _ _
    | ((with_reducible refine Parts.leq ?_); rfl)
    | simp (disch := with_unfolding_all (apply Parts.same; apply Eq.refl)) only [Only.set_iff]

theorem State.toFeed_only {p : Parts} {s t : State} {f : Nat} {st : Nat} (hq : Parts.le { regs := true, trf := true, flt := true, journal := true } p = true) (h : Only p s t) : Only p s (State.toFeed t f st) := by
  refine Only.step hq h ?_
  unfold State.toFeed
  repeat' first
    | with_reducible exact Only.refl _ _
    | ((with_reducible refine Parts.leq ?_); rfl)
    | with_reducible apply State.event_only
    | with_reducible apply State.fput_only
    | split

theorem State.feedVolt_only {p : Parts} {s t : State} {f : Nat} {volt : Nat} (hq : Parts.le { regs := true } p = true) (h : Only p s t) : Only p s (State.feedVolt t f volt) := by
  refine Only.step hq h ?_
  unfold State.feedVolt
  repeat' first
    | with_reducible exact Only.refl _ _
    | ((with_reducible refine Parts.leq ?_); rfl)
    | with_reducible apply State.fput_only

theorem execFeedInRange_only {s u : State} {f : Nat} {volt : Nat} (e : execFeedInRange f volt s = .next u) : Only { regs := true, trf := true, flt := true, journal := true, pwr := true } s u := by
  unfold execFeedInRange at e
  injection e with e
  subst e
  repeat' first
    | with_reducible exact Only.refl _ _
    | ((with_reducible refine Parts.leq ?_); rfl)
    | with_reducible apply State.feedVolt_only
    | with_reducible apply State.setFeed_only
    | with_reducible apply State.toFeed_only
    | (extract_lets +onlyGivenNames x; first
        | (revert x; intro y))
    | split

theorem execFeedPrechargeStart_only {s u : State} {f : Nat} {volt : Nat} (e : execFeedPrechargeStart f volt s = .next u) : Only { regs := true, pwr := true } s u := by
  unfold execFeedPrechargeStart at e
  injection e with e
  subst e
  repeat' first
    | with_reducible exact Only.refl _ _
    | ((with_reducible refine Parts.leq ?_); rfl)
    | with_reducible apply State.feedVolt_only
    | with_reducible apply State.setFeed_only
    | split

theorem execFeedPrechargeDone_only {s u : State} {f : Nat} (e : execFeedPrechargeDone f s = .next u) : Only { pwr := true } s u := by
  unfold execFeedPrechargeDone at e
  injection e with e
  subst e
  repeat' first
    | with_reducible exact Only.refl _ _
    | ((with_reducible refine Parts.leq ?_); rfl)
    | with_reducible apply State.setFeed_only
    | split

theorem State.feedActive_only {p : Parts} {s t : State} {f : Nat} (hq : Parts.le { regs := true, trf := true, flt := true, journal := true } p = true) (h : Only p s t) : Only p s (State.feedActive t f) := by
  refine Only.step hq h ?_
  unfold State.feedActive
  repeat' first
    | with_reducible exact Only.refl _ _
    | ((with_reducible refine Parts.leq ?_); rfl)
    | with_reducible apply State.toFeed_only
    | with_reducible apply State.fput_only

theorem execFeedQualified_only {s u : State} {f : Nat} {selftest : Bool} (e : execFeedQualified f selftest s = .next u) : Only { regs := true, trf := true, clk := true, flt := true, journal := true, pwr := true } s u := by
  unfold execFeedQualified at e
  injection e with e
  subst e
  repeat' first
    | with_reducible exact Only.refl _ _
    | ((with_reducible refine Parts.leq ?_); rfl)
    | with_reducible apply State.fput_only
    | with_reducible apply State.reach_only
    | with_reducible apply State.setFeed_only
    | with_reducible apply State.feedActive_only
    | with_reducible apply State.toFeed_only
    | with_reducible apply State.bump_only
    | (extract_lets +onlyGivenNames x; first
        | (revert x; intro y))
    | split

theorem execFeedOutOfRange_only {s u : State} {f : Nat} {volt : Nat} (e : execFeedOutOfRange f volt s = .next u) : Only { regs := true, trf := true, flt := true, journal := true, pwr := true } s u := by
  unfold execFeedOutOfRange at e
  injection e with e
  subst e
  repeat' first
    | with_reducible exact Only.refl _ _
    | ((with_reducible refine Parts.leq ?_); rfl)
    | with_reducible apply State.feedVolt_only
    | with_reducible apply State.setFeed_only
    | with_reducible apply State.toFeed_only
    | (extract_lets +onlyGivenNames x; first
        | (revert x; intro y))
    | split

theorem execFeedbPowerupTimer_only {s u : State}  (e : execFeedbPowerupTimer s = .next u) : Only { regs := true, trf := true, clk := true, flt := true, journal := true } s u := by
  unfold execFeedbPowerupTimer at e
  injection e with e
  subst e
  repeat' first
    | with_reducible exact Only.refl _ _
    | ((with_reducible refine Parts.leq ?_); rfl)
    | with_reducible apply State.feedActive_only
    | with_reducible apply State.reach_only
    | split

theorem State.shutDown_only {p : Parts} {s t : State}  (hq : Parts.le { regs := true, out := true, dark := true, hang := true, pwr := true } p = true) (h : Only p s t) : Only p s (State.shutDown t) := by
  refine Only.step hq h ?_
  unfold State.shutDown
  repeat' first
    | with_reducible exact Only.refl _ _
    | ((with_reducible refine Parts.leq ?_); rfl)
    | with_reducible apply State.emit_only
    | with_reducible apply State.setRole_only
    | simp (disch := with_unfolding_all (apply Parts.same; apply Eq.refl)) only [Only.set_iff]
    | split

theorem feedTrip_only {p : Parts} {s t : State} {f : Nat} {volt : Nat} {pickup : Bool} (hq : Parts.le (Parts.report.or { flash := true, evr := true, dark := true, hang := true, pwr := true }) p = true) (h : Only p s t) : Only p s (feedTrip t f volt pickup) := by
  refine Only.step hq h ?_
  unfold feedTrip
  repeat' first
    | with_reducible assumption
    | with_reducible exact Only.refl _ _
    | ((with_reducible refine Parts.leq ?_); rfl)
    | with_reducible apply State.toFeed_only
    | with_reducible apply State.feedVolt_only
    | with_reducible apply State.setFeed_only
    | with_reducible apply State.bump_only
    | with_reducible apply State.feedActive_only
    | with_reducible apply State.report_only
    | with_reducible apply State.fput_only
    | with_reducible apply State.shutDown_only
    | with_reducible apply State.flushFlash_only
    | (extract_lets +onlyGivenNames x; first
        | (refine Only.cut (p := (Parts.report.or { flash := true, evr := true, dark := true, hang := true, pwr := true })) (s := t) (x := x) (fun hx => ?_) ?_; clear_value x; revert x; intro y hy; rotate_left; unfold x; clear x)
        | (revert x; intro y))
    | split

theorem execFeedTrip_only {s u : State} {f : Nat} {volt : Nat} {pickup : Bool} (e : execFeedTrip f volt pickup s = .next u) : Only (Parts.report.or { flash := true, evr := true, dark := true, hang := true, pwr := true }) s u := by
  unfold execFeedTrip at e
  injection e with e
  subst e
  repeat' first
    | with_reducible exact Only.refl _ _
    | ((with_reducible refine Parts.leq ?_); rfl)
    | with_reducible apply feedTrip_only
    | split

theorem execLanternBeat_only {s u : State} {src : Nat} (e : execLanternBeat src s = .next u) : Only { dark := true, hang := true } s u := by
  unfold execLanternBeat at e
  injection e with e
  subst e
  repeat' first
    | with_reducible exact Only.refl _ _
    | ((with_reducible refine Parts.leq ?_); rfl)
    | with_reducible apply State.dieOn_only
    | simp (disch := with_unfolding_all (apply Parts.same; apply Eq.refl)) only [Only.set_iff]
    | split

theorem State.powerDieLost_only {p : Parts} {s t : State} {f : Nat} {pickup : Bool} (hq : Parts.le (Parts.report.or { flash := true, evr := true, dark := true, hang := true, pwr := true }) p = true) (h : Only p s t) : Only p s (State.powerDieLost t f pickup) := by
  refine Only.step hq h ?_
  unfold State.powerDieLost
  try dsimp -zeta only
  repeat' first
    | with_reducible assumption
    | with_reducible exact Only.refl _ _
    | ((with_reducible refine Parts.leq ?_); rfl)
    | with_reducible apply feedTrip_only
    | with_reducible apply State.toFeed_only
    | (extract_lets +onlyGivenNames x; first
        | (refine Only.cut (p := (Parts.report.or { flash := true, evr := true, dark := true, hang := true, pwr := true })) (s := t) (x := x) (fun hx => ?_) ?_; clear_value x; revert x; intro y hy; rotate_left; unfold x; clear x)
        | (refine Only.cut1 (p := (Parts.report.or { flash := true, evr := true, dark := true, hang := true, pwr := true })) (s := t) (x := x) (fun hx => ?_) ?_; clear_value x; revert x; intro y hy; rotate_left; unfold x; clear x)
        | (refine Only.cut2 (p := (Parts.report.or { flash := true, evr := true, dark := true, hang := true, pwr := true })) (s := t) (x := x) (fun hx => ?_) ?_; clear_value x; revert x; intro y hy; rotate_left; unfold x; clear x)
        | (revert x; intro y))
    | simp (disch := with_unfolding_all (apply Parts.same; apply Eq.refl)) only [Only.set_iff]
    | with_reducible apply Only.foldl
    | with_reducible apply Only.foldl_fst
    | (refine Only.of_fst ‹_ = _› ?_)
    | (refine Only.of_snd ‹_ = _› ?_)
    | split
    | (intro)

theorem execLanternMissTimer_only {s u : State} {src : Nat} {pickup : Bool} (e : execLanternMissTimer src pickup s = .next u) : Only (Parts.most.or { flash := true, evr := true }) s u := by
  unfold execLanternMissTimer at e
  injection e with e
  subst e
  try dsimp -zeta only
  repeat' first
    | with_reducible assumption
    | with_reducible exact Only.refl _ _
    | ((with_reducible refine Parts.leq ?_); rfl)
    | with_reducible apply State.reach_only
    | with_reducible apply State.blockLost_only
    | with_reducible apply State.trfMissed_only
    | with_reducible apply State.powerDieLost_only
    | (extract_lets +onlyGivenNames x; first
        | (refine Only.cut (p := (Parts.most.or { flash := true, evr := true })) (s := s) (x := x) (fun hx => ?_) ?_; clear_value x; revert x; intro y hy; rotate_left; unfold x; clear x)
        | (refine Only.cut1 (p := (Parts.most.or { flash := true, evr := true })) (s := s) (x := x) (fun hx => ?_) ?_; clear_value x; revert x; intro y hy; rotate_left; unfold x; clear x)
        | (refine Only.cut2 (p := (Parts.most.or { flash := true, evr := true })) (s := s) (x := x) (fun hx => ?_) ?_; clear_value x; revert x; intro y hy; rotate_left; unfold x; clear x)
        | (revert x; intro y))
    | simp (disch := with_unfolding_all (apply Parts.same; apply Eq.refl)) only [Only.set_iff]
    | with_reducible apply Only.foldl
    | with_reducible apply Only.foldl_fst
    | (refine Only.of_fst ‹_ = _› ?_)
    | (refine Only.of_snd ‹_ = _› ?_)
    | split
    | (intro)

theorem State.setCap_only {p : Parts} {s t : State} {v : Nat} (hq : Parts.le { regs := true } p = true) (h : Only p s t) : Only p s (State.setCap t v) := by
  refine Only.step hq h ?_
  unfold State.setCap
  repeat' first
    | with_reducible exact Only.refl _ _
    | ((with_reducible refine Parts.leq ?_); rfl)
    | with_reducible apply State.setEff_only
    | with_reducible apply State.fput_only

theorem execFeedCurrentLimit_only {s u : State} {curr : Nat} (e : execFeedCurrentLimit curr s = .next u) : Only { regs := true, pwr := true } s u := by
  unfold execFeedCurrentLimit at e
  injection e with e
  subst e
  repeat' first
    | with_reducible exact Only.refl _ _
    | ((with_reducible refine Parts.leq ?_); rfl)
    | with_reducible apply State.fput_only
    | with_reducible apply State.setCap_only
    | simp (disch := with_unfolding_all (apply Parts.same; apply Eq.refl)) only [Only.set_iff]
    | split

theorem dvfsWrite_only {p : Parts} {s t : State} {value : Word} (hq : Parts.le Parts.report p = true) (h : Only p s t) : Only p s (dvfsWrite t value) := by
  refine Only.step hq h ?_
  unfold dvfsWrite
  repeat' first
    | with_reducible exact Only.refl _ _
    | ((with_reducible refine Parts.leq ?_); rfl)
    | with_reducible apply State.setEff_only
    | with_reducible apply State.fput_only
    | with_reducible apply State.rejected_only
    | (extract_lets +onlyGivenNames x; first
        | (revert x; intro y))
    | split

theorem execTargetMhzWrite_only {s u : State} {value : Word} (e : execTargetMhzWrite value s = .next u) : Only Parts.report s u := by
  unfold execTargetMhzWrite at e
  injection e with e
  subst e
  repeat' first
    | with_reducible exact Only.refl _ _
    | ((with_reducible refine Parts.leq ?_); rfl)
    | with_reducible apply dvfsWrite_only

theorem execDvfsGlideStep_only {s u : State}  (e : execDvfsGlideStep s = .next u) : Only { regs := true, pwr := true } s u := by
  unfold execDvfsGlideStep at e
  injection e with e
  subst e
  repeat' first
    | with_reducible exact Only.refl _ _
    | ((with_reducible refine Parts.leq ?_); rfl)
    | with_reducible apply State.showPower_only
    | simp (disch := with_unfolding_all (apply Parts.same; apply Eq.refl)) only [Only.set_iff]
    | split

theorem execArrayIdle_only {s u : State}  (e : execArrayIdle s = .next u) : Only { regs := true, clk := true, pwr := true } s u := by
  unfold execArrayIdle at e
  injection e with e
  subst e
  repeat' first
    | with_reducible exact Only.refl _ _
    | ((with_reducible refine Parts.leq ?_); rfl)
    | with_reducible apply State.reach_only
    | with_reducible apply State.showPower_only
    | simp (disch := with_unfolding_all (apply Parts.same; apply Eq.refl)) only [Only.set_iff]
    | split

theorem State.enterDoze_only {p : Parts} {s t : State}  (hq : Parts.le { regs := true, staging := true, stagTag := true, started := true, fab := true, dark := true, obs := true, arr := true, upd := true, hang := true, pwr := true } p = true) (h : Only p s t) : Only p s (State.enterDoze t) := by
  refine Only.step hq h ?_
  unfold State.enterDoze
  repeat' first
    | with_reducible assumption
    | with_reducible exact Only.refl _ _
    | ((with_reducible refine Parts.leq ?_); rfl)
    | with_reducible apply State.holdDies_only
    | with_reducible apply State.askKeepWarm_only
    | (extract_lets +onlyGivenNames x; first
        | (refine Only.cut (p := { regs := true, staging := true, stagTag := true, started := true, fab := true, dark := true, obs := true, arr := true, upd := true, hang := true, pwr := true }) (s := t) (x := x) (fun hx => ?_) ?_; clear_value x; revert x; intro y hy; rotate_left; unfold x; clear x))
    | with_reducible apply Only.foldl
    | (intro)
    | refine Only.set (Parts.Agree.rest (by constructor; rfl; all_goals (intro k; first | exact absurd k (by decide) | rfl))) ?_

theorem State.exitDoze_only {p : Parts} {s t : State} {silent : List Nat} (hq : Parts.le { regs := true, fab := true, dark := true, pwr := true } p = true) (h : Only p s t) : Only p s (State.exitDoze t silent) := by
  refine Only.step hq h ?_
  unfold State.exitDoze
  repeat' first
    | with_reducible exact Only.refl _ _
    | ((with_reducible refine Parts.leq ?_); rfl)
    | with_reducible apply State.dieOn_only
    | with_reducible apply State.leaveDoze_only
    | with_reducible apply State.putBit_only
    | with_reducible apply State.askExit_only
    | with_reducible apply Only.foldl
    | (intro)

theorem powerDesc_only {p : Parts} {s t : State} {d : Started} {silent : List Nat} (hq : Parts.le { regs := true, staging := true, stagTag := true, started := true, fab := true, dark := true, obs := true, arr := true, upd := true, hang := true, pwr := true } p = true) (h : Only p s t) : Only p s (powerDesc t d silent) := by
  refine Only.step hq h ?_
  unfold powerDesc
  repeat' first
    | with_reducible assumption
    | with_reducible exact Only.refl _ _
    | ((with_reducible refine Parts.leq ?_); rfl)
    | with_reducible apply State.setDone_only
    | with_reducible apply State.enterDoze_only
    | with_reducible apply State.exitDoze_only
    | (extract_lets +onlyGivenNames x; first
        | (refine Only.cut (p := { regs := true, staging := true, stagTag := true, started := true, fab := true, dark := true, obs := true, arr := true, upd := true, hang := true, pwr := true }) (s := t) (x := x) (fun hx => ?_) ?_; clear_value x; revert x; intro y hy; rotate_left; unfold x; clear x))
    | simp (disch := with_unfolding_all (apply Parts.same; apply Eq.refl)) only [Only.set_iff]
    | split

theorem execPower_only {s u : State} {n : Nat} {seq : Nat} {silent : List Nat} (e : execPower n seq silent s = .next u) : Only { regs := true, staging := true, stagTag := true, started := true, fab := true, dark := true, obs := true, arr := true, upd := true, hang := true, pwr := true } s u := by
  unfold execPower at e
  injection e with e
  subst e
  repeat' first
    | with_reducible exact Only.refl _ _
    | ((with_reducible refine Parts.leq ?_); rfl)
    | with_reducible apply powerDesc_only
    | with_reducible apply State.updStarted_only
    | split

theorem State.showHot_only {p : Parts} {s t : State} {die : Nat} {temp : Nat} (hq : Parts.le { regs := true } p = true) (h : Only p s t) : Only p s (State.showHot t die temp) := by
  refine Only.step hq h ?_
  unfold State.showHot
  repeat' first
    | with_reducible exact Only.refl _ _
    | ((with_reducible refine Parts.leq ?_); rfl)
    | with_reducible apply State.fput_only

theorem State.warm_only {p : Parts} {s t : State} {die : Nat} {temp : Nat} (hq : Parts.le (Parts.report.or { pwr := true }) p = true) (h : Only p s t) : Only p s (State.warm t die temp) := by
  refine Only.step hq h ?_
  unfold State.warm
  repeat' first
    | with_reducible exact Only.refl _ _
    | ((with_reducible refine Parts.leq ?_); rfl)
    | with_reducible apply State.report_only
    | with_reducible apply State.setCap_only
    | refine Only.set (Parts.Agree.rest (by constructor; rfl; all_goals (intro k; first | exact absurd k (by decide) | rfl))) ?_

theorem execThermalWarn_only {s u : State} {die : Nat} {temp : Nat} (e : execThermalWarn die temp s = .next u) : Only (Parts.report.or { pwr := true }) s u := by
  unfold execThermalWarn at e
  injection e with e
  subst e
  repeat' first
    | with_reducible exact Only.refl _ _
    | ((with_reducible refine Parts.leq ?_); rfl)
    | with_reducible apply State.showHot_only
    | with_reducible apply State.warm_only
    | split

theorem capStep_only {p : Parts} {s t : State} {die : Nat} {temp : Nat} (hq : Parts.le { regs := true, clk := true, pwr := true } p = true) (h : Only p s t) : Only p s (capStep t die temp) := by
  refine Only.step hq h ?_
  unfold capStep
  repeat' first
    | with_reducible exact Only.refl _ _
    | ((with_reducible refine Parts.leq ?_); rfl)
    | with_reducible apply State.setCap_only
    | refine Only.set (Parts.Agree.rest (by constructor; rfl; all_goals (intro k; first | exact absurd k (by decide) | rfl))) ?_

theorem execCapStep_only {s u : State} {die : Nat} {temp : Nat} (e : execCapStep die temp s = .next u) : Only (Parts.report.or { clk := true, pwr := true }) s u := by
  unfold execCapStep at e
  injection e with e
  subst e
  repeat' first
    | with_reducible exact Only.refl _ _
    | ((with_reducible refine Parts.leq ?_); rfl)
    | with_reducible apply State.warm_only
    | with_reducible apply capStep_only
    | split

theorem thermalTrip_only {p : Parts} {s t : State} {die : Nat} {temp : Nat} {lost : List Nat} (hq : Parts.le (Parts.report.or { flash := true, evr := true, dark := true, hang := true, pwr := true }) p = true) (h : Only p s t) : Only p s (thermalTrip t die temp lost) := by
  refine Only.step hq h ?_
  unfold thermalTrip
  repeat' first
    | with_reducible exact Only.refl _ _
    | ((with_reducible refine Parts.leq ?_); rfl)
    | with_reducible apply State.emit_only
    | with_reducible apply State.bump_only
    | with_reducible apply State.showHot_only
    | with_reducible apply State.flushFlash_only
    | with_reducible apply State.report_only
    | with_reducible apply State.fput_only
    | simp (disch := with_unfolding_all (apply Parts.same; apply Eq.refl)) only [Only.set_iff]

theorem execThermalTrip_only {s u : State} {die : Nat} {temp : Nat} {lost : List Nat} (e : execThermalTrip die temp lost s = .next u) : Only (Parts.report.or { flash := true, evr := true, dark := true, hang := true, pwr := true }) s u := by
  unfold execThermalTrip at e
  injection e with e
  subst e
  repeat' first
    | with_reducible exact Only.refl _ _
    | ((with_reducible refine Parts.leq ?_); rfl)
    | with_reducible apply thermalTrip_only
    | split

theorem execThermtripRelease_only {s u : State}  (e : execThermtripRelease s = .next u) : Only { clk := true, out := true, pwr := true } s u := by
  unfold execThermtripRelease at e
  injection e with e
  subst e
  repeat' first
    | with_reducible exact Only.refl _ _
    | ((with_reducible refine Parts.leq ?_); rfl)
    | with_reducible apply State.reach_only
    | with_reducible apply State.emit_only
    | simp (disch := with_unfolding_all (apply Parts.same; apply Eq.refl)) only [Only.set_iff]
    | split

theorem execCoolantInletReading_only {s u : State} {temp : Nat} (e : execCoolantInletReading temp s = .next u) : Only (Parts.report.or { pwr := true }) s u := by
  unfold execCoolantInletReading at e
  injection e with e
  subst e
  repeat' first
    | with_reducible exact Only.refl _ _
    | ((with_reducible refine Parts.leq ?_); rfl)
    | with_reducible apply State.fput_only
    | with_reducible apply State.report_only
    | simp (disch := with_unfolding_all (apply Parts.same; apply Eq.refl)) only [Only.set_iff]
    | split

end Sys2Proof.Machine
end

