-- ==== Sys2Proof/Laws/OnlyStartup.lean ====
section
/-!
SUPPORT. Which parts of the state the operations of Machine/Startup.lean may change (Safety.lean).
-/
namespace Sys2Proof.Machine

open Sys2Proof

theorem State.poweredUp_only {p : Parts} {s t : State}  (hq : Parts.le (Parts.memory.or { regs := true, inForce := true, genStale := true, drainAt := true, rrLast := true, trf := true, clk := true, sq := true, started := true, unconf := true, pcie := true, flt := true, evr := true, notices := true, pages := true, heldWr := true, waitRd := true, order := true, fab := true, tor := true, dark := true, obs := true, journal := true, arr := true, sump := true, gathers := true, rowsIn := true, upd := true, scrub := true, ranks := true, homes := true, quar := true, scan := true, hang := true, trelfort := true, risk := true, pwr := true, caddy := true }) p = true) (h : Only p s t) : Only p s (State.poweredUp t) := by
  refine Only.step hq h ?_
  unfold State.poweredUp
  try dsimp -zeta only
  repeat' first
    | with_reducible assumption
    | with_reducible exact Only.refl _ _
    | ((with_reducible refine Parts.leq ?_); rfl)
    | with_reducible apply State.setReg_only
    | with_reducible apply State.showFlash_only
    | with_reducible apply State.fput_only
    | (extract_lets +onlyGivenNames x; first
        | (refine Only.cut (p := (Parts.memory.or { regs := true, inForce := true, genStale := true, drainAt := true, rrLast := true, trf := true, clk := true, sq := true, started := true, unconf := true, pcie := true, flt := true, evr := true, notices := true, pages := true, heldWr := true, waitRd := true, order := true, fab := true, tor := true, dark := true, obs := true, journal := true, arr := true, sump := true, gathers := true, rowsIn := true, upd := true, scrub := true, ranks := true, homes := true, quar := true, scan := true, hang := true, trelfort := true, risk := true, pwr := true, caddy := true })) (s := t) (x := x) (fun hx => ?_) ?_; clear_value x; revert x; intro y hy; rotate_left; unfold x; clear x)
        | (refine Only.cut1 (p := (Parts.memory.or { regs := true, inForce := true, genStale := true, drainAt := true, rrLast := true, trf := true, clk := true, sq := true, started := true, unconf := true, pcie := true, flt := true, evr := true, notices := true, pages := true, heldWr := true, waitRd := true, order := true, fab := true, tor := true, dark := true, obs := true, journal := true, arr := true, sump := true, gathers := true, rowsIn := true, upd := true, scrub := true, ranks := true, homes := true, quar := true, scan := true, hang := true, trelfort := true, risk := true, pwr := true, caddy := true })) (s := t) (x := x) (fun hx => ?_) ?_; clear_value x; revert x; intro y hy; rotate_left; unfold x; clear x)
        | (refine Only.cut2 (p := (Parts.memory.or { regs := true, inForce := true, genStale := true, drainAt := true, rrLast := true, trf := true, clk := true, sq := true, started := true, unconf := true, pcie := true, flt := true, evr := true, notices := true, pages := true, heldWr := true, waitRd := true, order := true, fab := true, tor := true, dark := true, obs := true, journal := true, arr := true, sump := true, gathers := true, rowsIn := true, upd := true, scrub := true, ranks := true, homes := true, quar := true, scan := true, hang := true, trelfort := true, risk := true, pwr := true, caddy := true })) (s := t) (x := x) (fun hx => ?_) ?_; clear_value x; revert x; intro y hy; rotate_left; unfold x; clear x)
        | (revert x; intro y))
    | simp (disch := with_unfolding_all (apply Parts.same; apply Eq.refl)) only [Only.set_iff]
    | with_reducible apply Only.foldl
    | with_reducible apply Only.foldl_fst
    | (refine Only.of_fst ‹_ = _› ?_)
    | (refine Only.of_snd ‹_ = _› ?_)
    | split
    | (intro)

theorem execPowerUp_only {s u : State}  (e : execPowerUp s = .next u) : Only ((Parts.report.or Parts.memory).or { inForce := true, genStale := true, drainAt := true, rrLast := true, clk := true, sq := true, started := true, unconf := true, pcie := true, evr := true, pages := true, heldWr := true, waitRd := true, order := true, fab := true, tor := true, dark := true, arr := true, sump := true, gathers := true, rowsIn := true, upd := true, scrub := true, ranks := true, homes := true, quar := true, scan := true, hang := true, trelfort := true, risk := true, pwr := true, caddy := true }) s u := by
  unfold execPowerUp at e
  injection e with e
  subst e
  try dsimp -zeta only
  repeat' first
    | with_reducible assumption
    | with_reducible exact Only.refl _ _
    | ((with_reducible refine Parts.leq ?_); rfl)
    | with_reducible apply State.atStep_only
    | with_reducible apply State.emit_only
    | with_reducible apply State.poweredUp_only
    | (extract_lets +onlyGivenNames x; first
        | (refine Only.cut (p := ((Parts.report.or Parts.memory).or { inForce := true, genStale := true, drainAt := true, rrLast := true, clk := true, sq := true, started := true, unconf := true, pcie := true, evr := true, pages := true, heldWr := true, waitRd := true, order := true, fab := true, tor := true, dark := true, arr := true, sump := true, gathers := true, rowsIn := true, upd := true, scrub := true, ranks := true, homes := true, quar := true, scan := true, hang := true, trelfort := true, risk := true, pwr := true, caddy := true })) (s := s) (x := x) (fun hx => ?_) ?_; clear_value x; revert x; intro y hy; rotate_left; unfold x; clear x)
        | (refine Only.cut1 (p := ((Parts.report.or Parts.memory).or { inForce := true, genStale := true, drainAt := true, rrLast := true, clk := true, sq := true, started := true, unconf := true, pcie := true, evr := true, pages := true, heldWr := true, waitRd := true, order := true, fab := true, tor := true, dark := true, arr := true, sump := true, gathers := true, rowsIn := true, upd := true, scrub := true, ranks := true, homes := true, quar := true, scan := true, hang := true, trelfort := true, risk := true, pwr := true, caddy := true })) (s := s) (x := x) (fun hx => ?_) ?_; clear_value x; revert x; intro y hy; rotate_left; unfold x; clear x)
        | (refine Only.cut2 (p := ((Parts.report.or Parts.memory).or { inForce := true, genStale := true, drainAt := true, rrLast := true, clk := true, sq := true, started := true, unconf := true, pcie := true, evr := true, pages := true, heldWr := true, waitRd := true, order := true, fab := true, tor := true, dark := true, arr := true, sump := true, gathers := true, rowsIn := true, upd := true, scrub := true, ranks := true, homes := true, quar := true, scan := true, hang := true, trelfort := true, risk := true, pwr := true, caddy := true })) (s := s) (x := x) (fun hx => ?_) ?_; clear_value x; revert x; intro y hy; rotate_left; unfold x; clear x)
        | (revert x; intro y))
    | simp (disch := with_unfolding_all (apply Parts.same; apply Eq.refl)) only [Only.set_iff]
    | with_reducible apply Only.foldl
    | with_reducible apply Only.foldl_fst
    | (refine Only.of_fst ‹_ = _› ?_)
    | (refine Only.of_snd ‹_ = _› ?_)
    | split
    | (intro)

theorem State.sendToken_only {p : Parts} {s t : State}  (hq : Parts.le { out := true, pwr := true } p = true) (h : Only p s t) : Only p s (State.sendToken t) := by
  refine Only.step hq h ?_
  unfold State.sendToken
  repeat' first
    | with_reducible exact Only.refl _ _
    | ((with_reducible refine Parts.leq ?_); rfl)
    | with_reducible apply State.emit_only
    | simp (disch := with_unfolding_all (apply Parts.same; apply Eq.refl)) only [Only.set_iff]
    | split

theorem State.beginDiscovery_only {p : Parts} {s t : State}  (hq : Parts.le { fab := true } p = true) (h : Only p s t) : Only p s (State.beginDiscovery t) := by
  refine Only.step hq h ?_
  unfold State.beginDiscovery
  repeat' first
    | with_reducible exact Only.refl _ _
    | ((with_reducible refine Parts.leq ?_); rfl)
    | simp (disch := with_unfolding_all (apply Parts.same; apply Eq.refl)) only [Only.set_iff]
    | split

theorem State.followChip_only {p : Parts} {s t : State}  (hq : Parts.le { regs := true, fab := true, pwr := true } p = true) (h : Only p s t) : Only p s (State.followChip t) := by
  refine Only.step hq h ?_
  unfold State.followChip
  repeat' first
    | with_reducible exact Only.refl _ _
    | ((with_reducible refine Parts.leq ?_); rfl)
    | with_reducible apply State.advance_only
    | with_reducible apply State.beginDiscovery_only
    | with_reducible apply State.setReg_only

theorem State.takeSlot_only {p : Parts} {s t : State} {slot : Nat} {beyond : Bool} (hq : Parts.le { regs := true, fab := true, out := true, pwr := true } p = true) (h : Only p s t) : Only p s (State.takeSlot t slot beyond) := by
  refine Only.step hq h ?_
  unfold State.takeSlot
  try dsimp -zeta only
  repeat' first
    | with_reducible assumption
    | with_reducible exact Only.refl _ _
    | ((with_reducible refine Parts.leq ?_); rfl)
    | with_reducible apply State.sendToken_only
    | with_reducible apply State.followChip_only
    | with_reducible apply State.fput_only
    | (extract_lets +onlyGivenNames x; first
        | (refine Only.cut (p := { regs := true, fab := true, out := true, pwr := true }) (s := t) (x := x) (fun hx => ?_) ?_; clear_value x; revert x; intro y hy; rotate_left; unfold x; clear x)
        | (refine Only.cut1 (p := { regs := true, fab := true, out := true, pwr := true }) (s := t) (x := x) (fun hx => ?_) ?_; clear_value x; revert x; intro y hy; rotate_left; unfold x; clear x)
        | (refine Only.cut2 (p := { regs := true, fab := true, out := true, pwr := true }) (s := t) (x := x) (fun hx => ?_) ?_; clear_value x; revert x; intro y hy; rotate_left; unfold x; clear x)
        | (revert x; intro y))
    | simp (disch := with_unfolding_all (apply Parts.same; apply Eq.refl)) only [Only.set_iff]
    | with_reducible apply Only.foldl
    | with_reducible apply Only.foldl_fst
    | (refine Only.of_fst ‹_ = _› ?_)
    | (refine Only.of_snd ‹_ = _› ?_)
    | split
    | (intro)

theorem State.compareSlot_only {p : Parts} {s t : State} {k : Nat} {slot : Nat} (hq : Parts.le { regs := true } p = true) (h : Only p s t) : Only p s (State.compareSlot t k slot) := by
  refine Only.step hq h ?_
  unfold State.compareSlot
  repeat' first
    | with_reducible exact Only.refl _ _
    | ((with_reducible refine Parts.leq ?_); rfl)
    | with_reducible apply State.fput_only
    | with_reducible apply State.bump_only
    | split

theorem enumToken_only {p : Parts} {s t : State} {f : List Byte} {coded : Bool} (hq : Parts.le { regs := true, fab := true, out := true, pwr := true } p = true) (h : Only p s t) : Only p s (enumToken t f coded) := by
  refine Only.step hq h ?_
  unfold enumToken
  repeat' first
    | with_reducible exact Only.refl _ _
    | ((with_reducible refine Parts.leq ?_); rfl)
    | with_reducible apply State.compareSlot_only
    | with_reducible apply State.takeSlot_only
    | with_reducible apply State.bump_only
    | simp (disch := with_unfolding_all (apply Parts.same; apply Eq.refl)) only [Only.set_iff]
    | split

theorem execEnumTokenReceive_only {s u : State} {frame : List Byte} {coded : Bool} (e : execEnumTokenReceive frame coded s = .next u) : Only { regs := true, fab := true, out := true, pwr := true } s u := by
  unfold execEnumTokenReceive at e
  injection e with e
  subst e
  repeat' first
    | with_reducible exact Only.refl _ _
    | ((with_reducible refine Parts.leq ?_); rfl)
    | with_reducible apply enumToken_only
    | split

theorem execEnumTokenSend_only {s u : State}  (e : execEnumTokenSend s = .next u) : Only { clk := true, out := true, pwr := true } s u := by
  unfold execEnumTokenSend at e
  injection e with e
  subst e
  repeat' first
    | with_reducible exact Only.refl _ _
    | ((with_reducible refine Parts.leq ?_); rfl)
    | with_reducible apply State.sendToken_only
    | with_reducible apply State.reach_only
    | split

theorem execEnumWaitExpire_only {s u : State}  (e : execEnumWaitExpire s = .next u) : Only { regs := true, clk := true } s u := by
  unfold execEnumWaitExpire at e
  injection e with e
  subst e
  repeat' first
    | with_reducible exact Only.refl _ _
    | ((with_reducible refine Parts.leq ?_); rfl)
    | with_reducible apply State.fput_only
    | with_reducible apply State.reach_only
    | split

theorem execAssignWaitExpire_only {s u : State}  (e : execAssignWaitExpire s = .next u) : Only { regs := true, clk := true, pwr := true } s u := by
  unfold execAssignWaitExpire at e
  injection e with e
  subst e
  repeat' first
    | with_reducible exact Only.refl _ _
    | ((with_reducible refine Parts.leq ?_); rfl)
    | with_reducible apply State.putBit_only
    | with_reducible apply State.reach_only
    | with_reducible apply State.advance_only
    | with_reducible apply State.atStep_only
    | simp (disch := with_unfolding_all (apply Parts.same; apply Eq.refl)) only [Only.set_iff]
    | split

theorem execLockWaitExpire_only {s u : State}  (e : execLockWaitExpire s = .next u) : Only { regs := true, inForce := true, trf := true, clk := true, flt := true, journal := true, pwr := true } s u := by
  unfold execLockWaitExpire at e
  injection e with e
  subst e
  repeat' first
    | with_reducible exact Only.refl _ _
    | ((with_reducible refine Parts.leq ?_); rfl)
    | with_reducible apply State.putBit_only
    | with_reducible apply State.reach_only
    | with_reducible apply State.fput_only
    | with_reducible apply State.advance_only
    | with_reducible apply State.ptpApplied_only
    | simp (disch := with_unfolding_all (apply Parts.same; apply Eq.refl)) only [Only.set_iff]
    | split

theorem chipAssign_only {p : Parts} {s t : State} {mgmt : Bool} {value : Word} (hq : Parts.le (Parts.report.or { fab := true, pwr := true }) p = true) (h : Only p s t) : Only p s (chipAssign t mgmt value) := by
  refine Only.step hq h ?_
  unfold chipAssign
  repeat' first
    | with_reducible exact Only.refl _ _
    | ((with_reducible refine Parts.leq ?_); rfl)
    | with_reducible apply State.followChip_only
    | with_reducible apply State.setReg_only
    | with_reducible apply State.sendToken_only
    | with_reducible apply State.rejected_only
    | split

theorem execChipAssignWrite_only {s u : State} {mgmt : Bool} {value : Word} (e : execChipAssignWrite mgmt value s = .next u) : Only (Parts.report.or { fab := true, pwr := true }) s u := by
  unfold execChipAssignWrite at e
  injection e with e
  subst e
  repeat' first
    | with_reducible exact Only.refl _ _
    | ((with_reducible refine Parts.leq ?_); rfl)
    | with_reducible apply chipAssign_only

theorem startCfg_only {p : Parts} {s t : State} {mgmt : Bool} {value : Word} (hq : Parts.le Parts.report p = true) (h : Only p s t) : Only p s (startCfg t mgmt value) := by
  refine Only.step hq h ?_
  unfold startCfg
  repeat' first
    | with_reducible exact Only.refl _ _
    | ((with_reducible refine Parts.leq ?_); rfl)
    | with_reducible apply State.setReg_only
    | with_reducible apply State.rejected_only
    | split

theorem execStartCfgWrite_only {s u : State} {mgmt : Bool} {value : Word} (e : execStartCfgWrite mgmt value s = .next u) : Only Parts.report s u := by
  unfold execStartCfgWrite at e
  injection e with e
  subst e
  repeat' first
    | with_reducible exact Only.refl _ _
    | ((with_reducible refine Parts.leq ?_); rfl)
    | with_reducible apply startCfg_only

theorem State.releaseDies_only {p : Parts} {s t : State} {failed : List Nat} {noScan : Bool} (hq : Parts.le (Parts.report.or { dark := true }) p = true) (h : Only p s t) : Only p s (State.releaseDies t failed noScan) := by
  refine Only.step hq h ?_
  unfold State.releaseDies
  repeat' first
    | with_reducible assumption
    | with_reducible exact Only.refl _ _
    | ((with_reducible refine Parts.leq ?_); rfl)
    | with_reducible apply State.report_only
    | with_reducible apply State.putBit_only
    | with_reducible apply State.fput_only
    | simp (disch := with_unfolding_all (apply Parts.same; apply Eq.refl)) only [Only.set_iff]
    | with_reducible apply Only.foldl
    | split
    | (intro)

theorem State.trainStacks_only {p : Parts} {s t : State}  (hq : Parts.le { hbm := true, poison := true } p = true) (h : Only p s t) : Only p s (State.trainStacks t) := by
  refine Only.step hq h ?_
  unfold State.trainStacks
  repeat' first
    | with_reducible exact Only.refl _ _
    | ((with_reducible refine Parts.leq ?_); rfl)
    | simp (disch := with_unfolding_all (apply Parts.same; apply Eq.refl)) only [Only.set_iff]

theorem State.openHost_only {p : Parts} {s t : State}  (hq : Parts.le { regs := true, pcie := true } p = true) (h : Only p s t) : Only p s (State.openHost t) := by
  refine Only.step hq h ?_
  unfold State.openHost
  repeat' first
    | with_reducible exact Only.refl _ _
    | ((with_reducible refine Parts.leq ?_); rfl)
    | with_reducible apply State.putBit_only
    | simp (disch := with_unfolding_all (apply Parts.same; apply Eq.refl)) only [Only.set_iff]
    | split

theorem State.putSettings_only {p : Parts} {s t : State} {settings : List (Nat × Word)} {rings : List Nat} (hq : Parts.le { regs := true } p = true) (h : Only p s t) : Only p s (State.putSettings t settings rings) := by
  refine Only.step hq h ?_
  unfold State.putSettings
  repeat' first
    | with_reducible assumption
    | with_reducible exact Only.refl _ _
    | ((with_reducible refine Parts.leq ?_); rfl)
    | with_reducible apply State.setReg_only
    | with_reducible apply Only.foldl
    | split
    | (intro)

theorem State.bringUp_only {p : Parts} {s t : State} {f : Nat} (hq : Parts.le (Parts.report.or { inForce := true, sq := true, fab := true, tor := true, sump := true }) p = true) (h : Only p s t) : Only p s (State.bringUp t f) := by
  refine Only.step hq h ?_
  unfold State.bringUp
  try dsimp -zeta only
  repeat' first
    | with_reducible assumption
    | with_reducible exact Only.refl _ _
    | ((with_reducible refine Parts.leq ?_); rfl)
    | with_reducible apply State.restartFn_only
    | with_reducible apply State.setFn_only
    | (extract_lets +onlyGivenNames x; first
        | (refine Only.cut (p := (Parts.report.or { inForce := true, sq := true, fab := true, tor := true, sump := true })) (s := t) (x := x) (fun hx => ?_) ?_; clear_value x; revert x; intro y hy; rotate_left; unfold x; clear x)
        | (refine Only.cut1 (p := (Parts.report.or { inForce := true, sq := true, fab := true, tor := true, sump := true })) (s := t) (x := x) (fun hx => ?_) ?_; clear_value x; revert x; intro y hy; rotate_left; unfold x; clear x)
        | (refine Only.cut2 (p := (Parts.report.or { inForce := true, sq := true, fab := true, tor := true, sump := true })) (s := t) (x := x) (fun hx => ?_) ?_; clear_value x; revert x; intro y hy; rotate_left; unfold x; clear x)
        | (revert x; intro y))
    | simp (disch := with_unfolding_all (apply Parts.same; apply Eq.refl)) only [Only.set_iff]
    | with_reducible apply Only.foldl
    | with_reducible apply Only.foldl_fst
    | (refine Only.of_fst ‹_ = _› ?_)
    | (refine Only.of_snd ‹_ = _› ?_)
    | split
    | (intro)

theorem State.services_only {p : Parts} {s t : State} {settings : List (Nat × Word)} {rings : List Nat} (hq : Parts.le (Parts.report.or { inForce := true, sq := true, fab := true, tor := true, sump := true }) p = true) (h : Only p s t) : Only p s (State.services t settings rings) := by
  refine Only.step hq h ?_
  unfold State.services
  try dsimp -zeta only
  repeat' first
    | with_reducible assumption
    | with_reducible exact Only.refl _ _
    | ((with_reducible refine Parts.leq ?_); rfl)
    | with_reducible apply State.bringUp_only
    | with_reducible apply State.putSettings_only
    | (extract_lets +onlyGivenNames x; first
        | (refine Only.cut (p := (Parts.report.or { inForce := true, sq := true, fab := true, tor := true, sump := true })) (s := t) (x := x) (fun hx => ?_) ?_; clear_value x; revert x; intro y hy; rotate_left; unfold x; clear x)
        | (refine Only.cut1 (p := (Parts.report.or { inForce := true, sq := true, fab := true, tor := true, sump := true })) (s := t) (x := x) (fun hx => ?_) ?_; clear_value x; revert x; intro y hy; rotate_left; unfold x; clear x)
        | (refine Only.cut2 (p := (Parts.report.or { inForce := true, sq := true, fab := true, tor := true, sump := true })) (s := t) (x := x) (fun hx => ?_) ?_; clear_value x; revert x; intro y hy; rotate_left; unfold x; clear x)
        | (revert x; intro y))
    | simp (disch := with_unfolding_all (apply Parts.same; apply Eq.refl)) only [Only.set_iff]
    | with_reducible apply Only.foldl
    | with_reducible apply Only.foldl_fst
    | (refine Only.of_fst ‹_ = _› ?_)
    | (refine Only.of_snd ‹_ = _› ?_)
    | split
    | (intro)

theorem State.ready_only {p : Parts} {s t : State}  (hq : Parts.le (Parts.report.or { fab := true, hang := true, trelfort := true, pwr := true }) p = true) (h : Only p s t) : Only p s (State.ready t) := by
  refine Only.step hq h ?_
  unfold State.ready
  repeat' first
    | with_reducible exact Only.refl _ _
    | ((with_reducible refine Parts.leq ?_); rfl)
    | with_reducible apply State.event_only
    | with_reducible apply State.beginDiscovery_only
    | with_reducible apply State.noStandby_only
    | (extract_lets +onlyGivenNames x; first
        | (revert x; intro y))
    | split
    | refine Only.set (Parts.Agree.rest (by constructor; rfl; all_goals (intro k; first | exact absurd k (by decide) | rfl))) ?_

theorem execStartupReady_only {s u : State} {failed : List Nat} {noScan : Bool} {settings : List (Nat × Word)} {rings : List Nat} (e : execStartupReady failed noScan settings rings s = .next u) : Only (Parts.report.or { inForce := true, hbm := true, poison := true, sq := true, pcie := true, fab := true, tor := true, dark := true, sump := true, hang := true, trelfort := true, pwr := true }) s u := by
  unfold execStartupReady at e
  injection e with e
  subst e
  try dsimp -zeta only
  repeat' first
    | with_reducible assumption
    | with_reducible exact Only.refl _ _
    | ((with_reducible refine Parts.leq ?_); rfl)
    | with_reducible apply State.openHost_only
    | with_reducible apply State.trainStacks_only
    | with_reducible apply State.releaseDies_only
    | with_reducible apply State.ready_only
    | with_reducible apply State.services_only
    | (extract_lets +onlyGivenNames x; first
        | (refine Only.cut (p := (Parts.report.or { inForce := true, hbm := true, poison := true, sq := true, pcie := true, fab := true, tor := true, dark := true, sump := true, hang := true, trelfort := true, pwr := true })) (s := s) (x := x) (fun hx => ?_) ?_; clear_value x; revert x; intro y hy; rotate_left; unfold x; clear x)
        | (refine Only.cut1 (p := (Parts.report.or { inForce := true, hbm := true, poison := true, sq := true, pcie := true, fab := true, tor := true, dark := true, sump := true, hang := true, trelfort := true, pwr := true })) (s := s) (x := x) (fun hx => ?_) ?_; clear_value x; revert x; intro y hy; rotate_left; unfold x; clear x)
        | (refine Only.cut2 (p := (Parts.report.or { inForce := true, hbm := true, poison := true, sq := true, pcie := true, fab := true, tor := true, dark := true, sump := true, hang := true, trelfort := true, pwr := true })) (s := s) (x := x) (fun hx => ?_) ?_; clear_value x; revert x; intro y hy; rotate_left; unfold x; clear x)
        | (revert x; intro y))
    | simp (disch := with_unfolding_all (apply Parts.same; apply Eq.refl)) only [Only.set_iff]
    | with_reducible apply Only.foldl
    | with_reducible apply Only.foldl_fst
    | (refine Only.of_fst ‹_ = _› ?_)
    | (refine Only.of_snd ‹_ = _› ?_)
    | split
    | (intro)

theorem execPcieConfigRequest_only {s u : State} {req : CfgReq} (e : execPcieConfigRequest req s = .next u) : Only { pcie := true, freeCtr := true, out := true } s u := by
  unfold execPcieConfigRequest at e
  injection e with e
  subst e
  repeat' first
    | with_reducible exact Only.refl _ _
    | ((with_reducible refine Parts.leq ?_); rfl)
    | with_reducible apply State.emit_only
    | with_reducible apply State.drew_only
    | simp (disch := with_unfolding_all (apply Parts.same; apply Eq.refl)) only [Only.set_iff]
    | with_reducible apply Only.foldl
    | split
    | (intro)

theorem execPcieLinkUp_only {s u : State}  (e : execPcieLinkUp s = .next u) : Only { regs := true, pcie := true } s u := by
  unfold execPcieLinkUp at e
  injection e with e
  subst e
  repeat' first
    | with_reducible exact Only.refl _ _
    | ((with_reducible refine Parts.leq ?_); rfl)
    | with_reducible apply State.putBit_only
    | simp (disch := with_unfolding_all (apply Parts.same; apply Eq.refl)) only [Only.set_iff]
    | split

end Sys2Proof.Machine
end

