-- ==== Sys2Proof/Laws/OnlyObserve.lean ====
section
/-!
SUPPORT. Which parts of the state the operations of Machine/Observe.lean may change (Safety.lean).
-/
namespace Sys2Proof.Machine

open Sys2Proof

theorem State.putRW_only {p : Parts} {s t : State} {off : Nat} {v : Word} (hq : Parts.le { regs := true } p = true) (h : Only p s t) : Only p s (State.putRW t off v) := by
  refine Only.step hq h ?_
  unfold State.putRW
  repeat' first
    | with_reducible exact Only.refl _ _
    | ((with_reducible refine Parts.leq ?_); rfl)
    | with_reducible apply State.setReg_only
    | split

theorem State.zeroCounter_only {p : Parts} {s t : State} {d : Nat} {n : Nat} (hq : Parts.le { obs := true } p = true) (h : Only p s t) : Only p s (State.zeroCounter t d n) := by
  refine Only.step hq h ?_
  unfold State.zeroCounter
  repeat' first
    | with_reducible exact Only.refl _ _
    | ((with_reducible refine Parts.leq ?_); rfl)
    | simp (disch := with_unfolding_all (apply Parts.same; apply Eq.refl)) only [Only.set_iff]

theorem evtSelWrite_only {p : Parts} {s t : State} {mgmt : Bool} {d : Nat} {n : Nat} {v : Word} (hq : Parts.le Parts.report p = true) (h : Only p s t) : Only p s (evtSelWrite t mgmt d n v) := by
  refine Only.step hq h ?_
  unfold evtSelWrite
  repeat' first
    | with_reducible exact Only.refl _ _
    | ((with_reducible refine Parts.leq ?_); rfl)
    | with_reducible apply State.zeroCounter_only
    | with_reducible apply State.putRW_only
    | with_reducible apply State.rejected_only
    | split

theorem execEvtSelWrite_only {s u : State} {who : Master} {d : Nat} {n : Nat} {value : Word} (e : execEvtSelWrite who d n value s = .next u) : Only Parts.report s u := by
  unfold execEvtSelWrite at e
  injection e with e
  subst e
  repeat' first
    | with_reducible exact Only.refl _ _
    | ((with_reducible refine Parts.leq ?_); rfl)
    | with_reducible apply evtSelWrite_only

theorem filterWrite_only {p : Parts} {s t : State} {mgmt : Bool} {d : Nat} {n : Nat} {v : Word} (hq : Parts.le Parts.report p = true) (h : Only p s t) : Only p s (filterWrite t mgmt d n v) := by
  refine Only.step hq h ?_
  unfold filterWrite
  repeat' first
    | with_reducible exact Only.refl _ _
    | ((with_reducible refine Parts.leq ?_); rfl)
    | with_reducible apply State.zeroCounter_only
    | with_reducible apply State.putRW_only
    | with_reducible apply State.rejected_only
    | split

theorem execFilterWrite_only {s u : State} {who : Master} {d : Nat} {n : Nat} {value : Word} (e : execFilterWrite who d n value s = .next u) : Only Parts.report s u := by
  unfold execFilterWrite at e
  injection e with e
  subst e
  repeat' first
    | with_reducible exact Only.refl _ _
    | ((with_reducible refine Parts.leq ?_); rfl)
    | with_reducible apply filterWrite_only

theorem State.whistle_only {p : Parts} {s t : State} {off : Nat} {value : Nat} {at_ : Nat} {action : Nat} (hq : Parts.le Parts.report p = true) (h : Only p s t) : Only p s (State.whistle t off value at_ action) := by
  refine Only.step hq h ?_
  unfold State.whistle
  repeat' first
    | with_reducible exact Only.refl _ _
    | ((with_reducible refine Parts.leq ?_); rfl)
    | with_reducible apply State.rejected_only
    | with_reducible apply State.armWhistle_only
    | split

theorem whistleWrite_only {p : Parts} {s t : State} {mgmt : Bool} {v : Word} (hq : Parts.le Parts.report p = true) (h : Only p s t) : Only p s (whistleWrite t mgmt v) := by
  refine Only.step hq h ?_
  unfold whistleWrite
  repeat' first
    | with_reducible exact Only.refl _ _
    | ((with_reducible refine Parts.leq ?_); rfl)
    | with_reducible apply State.whistle_only
    | with_reducible apply State.rejected_only
    | split

theorem execWhistleWrite_only {s u : State} {who : Master} {value : Word} (e : execWhistleWrite who value s = .next u) : Only Parts.report s u := by
  unfold execWhistleWrite at e
  injection e with e
  subst e
  repeat' first
    | with_reducible exact Only.refl _ _
    | ((with_reducible refine Parts.leq ?_); rfl)
    | with_reducible apply whistleWrite_only

theorem whistleSend_only {p : Parts} {s t : State} {mgmt : Bool} {v : Word} (hq : Parts.le (Parts.report.or { fab := true, tor := true }) p = true) (h : Only p s t) : Only p s (whistleSend t mgmt v) := by
  refine Only.step hq h ?_
  unfold whistleSend
  try dsimp -zeta only
  repeat' first
    | with_reducible assumption
    | with_reducible exact Only.refl _ _
    | ((with_reducible refine Parts.leq ?_); rfl)
    | with_reducible apply State.send_only
    | with_reducible apply State.rejected_only
    | (extract_lets +onlyGivenNames x; first
        | (refine Only.cut (p := (Parts.report.or { fab := true, tor := true })) (s := t) (x := x) (fun hx => ?_) ?_; clear_value x; revert x; intro y hy; rotate_left; unfold x; clear x)
        | (refine Only.cut1 (p := (Parts.report.or { fab := true, tor := true })) (s := t) (x := x) (fun hx => ?_) ?_; clear_value x; revert x; intro y hy; rotate_left; unfold x; clear x)
        | (refine Only.cut2 (p := (Parts.report.or { fab := true, tor := true })) (s := t) (x := x) (fun hx => ?_) ?_; clear_value x; revert x; intro y hy; rotate_left; unfold x; clear x)
        | (revert x; intro y))
    | simp (disch := with_unfolding_all (apply Parts.same; apply Eq.refl)) only [Only.set_iff]
    | with_reducible apply Only.foldl
    | with_reducible apply Only.foldl_fst
    | (refine Only.of_fst ‹_ = _› ?_)
    | (refine Only.of_snd ‹_ = _› ?_)
    | split
    | (intro)

theorem execWhistleSend_only {s u : State} {who : Master} {value : Word} (e : execWhistleSend who value s = .next u) : Only (Parts.report.or { fab := true, tor := true }) s u := by
  unfold execWhistleSend at e
  injection e with e
  subst e
  try dsimp -zeta only
  repeat' first
    | with_reducible assumption
    | with_reducible exact Only.refl _ _
    | ((with_reducible refine Parts.leq ?_); rfl)
    | with_reducible apply whistleSend_only
    | (extract_lets +onlyGivenNames x; first
        | (refine Only.cut (p := (Parts.report.or { fab := true, tor := true })) (s := s) (x := x) (fun hx => ?_) ?_; clear_value x; revert x; intro y hy; rotate_left; unfold x; clear x)
        | (refine Only.cut1 (p := (Parts.report.or { fab := true, tor := true })) (s := s) (x := x) (fun hx => ?_) ?_; clear_value x; revert x; intro y hy; rotate_left; unfold x; clear x)
        | (refine Only.cut2 (p := (Parts.report.or { fab := true, tor := true })) (s := s) (x := x) (fun hx => ?_) ?_; clear_value x; revert x; intro y hy; rotate_left; unfold x; clear x)
        | (revert x; intro y))
    | simp (disch := with_unfolding_all (apply Parts.same; apply Eq.refl)) only [Only.set_iff]
    | with_reducible apply Only.foldl
    | with_reducible apply Only.foldl_fst
    | (refine Only.of_fst ‹_ = _› ?_)
    | (refine Only.of_snd ‹_ = _› ?_)
    | split
    | (intro)

theorem State.hear_only {p : Parts} {s t : State} {src : Nat} {id : Nat} (hq : Parts.le { obs := true } p = true) (h : Only p s t) : Only p s (State.hear t src id) := by
  refine Only.step hq h ?_
  unfold State.hear
  try dsimp -zeta only
  repeat' first
    | with_reducible assumption
    | with_reducible exact Only.refl _ _
    | ((with_reducible refine Parts.leq ?_); rfl)
    | simp only [id_eq]
    | (extract_lets +onlyGivenNames x; first
        | (refine Only.cut (p := { obs := true }) (s := t) (x := x) (fun hx => ?_) ?_; clear_value x; revert x; intro y hy; rotate_left; unfold x; clear x)
        | (refine Only.cut1 (p := { obs := true }) (s := t) (x := x) (fun hx => ?_) ?_; clear_value x; revert x; intro y hy; rotate_left; unfold x; clear x)
        | (refine Only.cut2 (p := { obs := true }) (s := t) (x := x) (fun hx => ?_) ?_; clear_value x; revert x; intro y hy; rotate_left; unfold x; clear x)
        | (revert x; intro y))
    | simp (disch := with_unfolding_all (apply Parts.same; apply Eq.refl)) only [Only.set_iff]
    | with_reducible apply Only.foldl
    | with_reducible apply Only.foldl_fst
    | (refine Only.of_fst ‹_ = _› ?_)
    | (refine Only.of_snd ‹_ = _› ?_)
    | split
    | (intro)

theorem whistleTake_only {p : Parts} {s t : State} {k : Packet} (hq : Parts.le Parts.report p = true) (h : Only p s t) : Only p s (whistleTake t k) := by
  refine Only.step hq h ?_
  unfold whistleTake
  repeat' first
    | with_reducible exact Only.refl _ _
    | ((with_reducible refine Parts.leq ?_); rfl)
    | with_reducible apply State.bump_only
    | with_reducible apply State.whistle_only
    | with_reducible apply State.hear_only
    | split

theorem execWhistlePacket_only {s u : State} {pkt : Packet} (e : execWhistlePacket pkt s = .next u) : Only (Parts.report.or { fab := true }) s u := by
  unfold execWhistlePacket at e
  injection e with e
  subst e
  repeat' first
    | with_reducible exact Only.refl _ _
    | ((with_reducible refine Parts.leq ?_); rfl)
    | refine State.take_only ?_ ?_ ‹_›
    | with_reducible apply whistleTake_only
    | split

theorem execDbgTrigInEdge_only {s u : State}  (e : execDbgTrigInEdge s = .next u) : Only Parts.report s u := by
  unfold execDbgTrigInEdge at e
  injection e with e
  subst e
  repeat' first
    | with_reducible assumption
    | with_reducible exact Only.refl _ _
    | ((with_reducible refine Parts.leq ?_); rfl)
    | with_reducible apply State.whistle_only
    | with_reducible apply State.traceTrigger_only
    | (extract_lets +onlyGivenNames x; first
        | (refine Only.cut (p := Parts.report) (s := s) (x := x) (fun hx => ?_) ?_; clear_value x; revert x; intro y hy; rotate_left; unfold x; clear x)
        | (revert x; intro y))
    | with_reducible apply Only.foldl
    | split
    | (intro)

theorem State.capture_only {p : Parts} {s t : State} {action : Nat} (hq : Parts.le { regs := true, freeCtr := true } p = true) (h : Only p s t) : Only p s (State.capture t action) := by
  refine Only.step hq h ?_
  unfold State.capture
  repeat' first
    | with_reducible exact Only.refl _ _
    | ((with_reducible refine Parts.leq ?_); rfl)
    | with_reducible apply State.setReg_only
    | with_reducible apply State.fput_only
    | with_reducible apply State.count_only
    | with_reducible apply State.drew_only
    | with_reducible apply Only.foldl
    | (intro)

theorem State.whistleActs_only {p : Parts} {s t : State} {a : Nat} (hq : Parts.le { regs := true, freeCtr := true, out := true, obs := true } p = true) (h : Only p s t) : Only p s (State.whistleActs t a) := by
  refine Only.step hq h ?_
  unfold State.whistleActs
  repeat' first
    | with_reducible assumption
    | with_reducible exact Only.refl _ _
    | ((with_reducible refine Parts.leq ?_); rfl)
    | with_reducible apply State.capture_only
    | with_reducible apply State.fput_only
    | with_reducible apply State.emit_only
    | (extract_lets +onlyGivenNames x; first
        | (refine Only.cut (p := { regs := true, freeCtr := true, out := true, obs := true }) (s := t) (x := x) (fun hx => ?_) ?_; clear_value x; revert x; intro y hy; rotate_left; unfold x; clear x))
    | simp (disch := with_unfolding_all (apply Parts.same; apply Eq.refl)) only [Only.set_iff]
    | split

theorem whistleFire_only {p : Parts} {s t : State} {v : Nat} (hq : Parts.le { regs := true, clk := true, freeCtr := true, out := true, obs := true } p = true) (h : Only p s t) : Only p s (whistleFire t v) := by
  refine Only.step hq h ?_
  unfold whistleFire
  have h1 : Only { regs := true, clk := true, freeCtr := true, out := true, obs := true } t (t.reachNs v) := State.reachNs_only rfl (Only.refl _ _)
  revert h1
  generalize t.reachNs v = s1
  intro h1
  extract_lets s1' due rest src s2
  clear_value due rest
  have h2 : Only { regs := true, clk := true, freeCtr := true, out := true, obs := true } t s2 := Only.put_obs rfl h1
  clear_value s2
  exact State.whistleActs_only rfl (State.fput_only rfl h2)

theorem execWhistleFire_only {s u : State}  (e : execWhistleFire s = .next u) : Only { regs := true, clk := true, freeCtr := true, out := true, obs := true } s u := by
  unfold execWhistleFire at e
  injection e with e
  subst e
  repeat' first
    | with_reducible exact Only.refl _ _
    | ((with_reducible refine Parts.leq ?_); rfl)
    | with_reducible apply whistleFire_only
    | split

theorem dumpDesc_only {p : Parts} {s t : State} {d : Started} (hq : Parts.le ((Parts.report.or Parts.memory).or { started := true, heldWr := true, order := true, fab := true, tor := true, arr := true }) p = true) (h : Only p s t) : Only p s (dumpDesc t d) := by
  refine Only.step hq h ?_
  unfold dumpDesc
  try dsimp -zeta only
  repeat' first
    | with_reducible assumption
    | with_reducible exact Only.refl _ _
    | ((with_reducible refine Parts.leq ?_); rfl)
    | with_reducible apply State.setDone_only
    | with_reducible apply State.gwrite_only
    | (extract_lets +onlyGivenNames x; first
        | (refine Only.cut (p := ((Parts.report.or Parts.memory).or { started := true, heldWr := true, order := true, fab := true, tor := true, arr := true })) (s := t) (x := x) (fun hx => ?_) ?_; clear_value x; revert x; intro y hy; rotate_left; unfold x; clear x)
        | (refine Only.cut1 (p := ((Parts.report.or Parts.memory).or { started := true, heldWr := true, order := true, fab := true, tor := true, arr := true })) (s := t) (x := x) (fun hx => ?_) ?_; clear_value x; revert x; intro y hy; rotate_left; unfold x; clear x)
        | (refine Only.cut2 (p := ((Parts.report.or Parts.memory).or { started := true, heldWr := true, order := true, fab := true, tor := true, arr := true })) (s := t) (x := x) (fun hx => ?_) ?_; clear_value x; revert x; intro y hy; rotate_left; unfold x; clear x)
        | (revert x; intro y))
    | simp (disch := with_unfolding_all (apply Parts.same; apply Eq.refl)) only [Only.set_iff]
    | with_reducible apply Only.foldl
    | with_reducible apply Only.foldl_fst
    | (refine Only.of_fst ‹_ = _› ?_)
    | (refine Only.of_snd ‹_ = _› ?_)
    | split
    | (intro)

theorem execCounterDump_only {s u : State} {n : Nat} {seq : Nat} (e : execCounterDump n seq s = .next u) : Only ((Parts.report.or Parts.memory).or { started := true, heldWr := true, order := true, fab := true, tor := true, arr := true }) s u := by
  unfold execCounterDump at e
  injection e with e
  subst e
  try dsimp -zeta only
  repeat' first
    | with_reducible assumption
    | with_reducible exact Only.refl _ _
    | ((with_reducible refine Parts.leq ?_); rfl)
    | with_reducible apply dumpDesc_only
    | (extract_lets +onlyGivenNames x; first
        | (refine Only.cut (p := ((Parts.report.or Parts.memory).or { started := true, heldWr := true, order := true, fab := true, tor := true, arr := true })) (s := s) (x := x) (fun hx => ?_) ?_; clear_value x; revert x; intro y hy; rotate_left; unfold x; clear x)
        | (refine Only.cut1 (p := ((Parts.report.or Parts.memory).or { started := true, heldWr := true, order := true, fab := true, tor := true, arr := true })) (s := s) (x := x) (fun hx => ?_) ?_; clear_value x; revert x; intro y hy; rotate_left; unfold x; clear x)
        | (refine Only.cut2 (p := ((Parts.report.or Parts.memory).or { started := true, heldWr := true, order := true, fab := true, tor := true, arr := true })) (s := s) (x := x) (fun hx => ?_) ?_; clear_value x; revert x; intro y hy; rotate_left; unfold x; clear x)
        | (revert x; intro y))
    | simp (disch := with_unfolding_all (apply Parts.same; apply Eq.refl)) only [Only.set_iff]
    | with_reducible apply Only.foldl
    | with_reducible apply Only.foldl_fst
    | (refine Only.of_fst ‹_ = _› ?_)
    | (refine Only.of_snd ‹_ = _› ?_)
    | split
    | (intro)

theorem State.traceRun_only {p : Parts} {s t : State} {b : Nat} {x2 : Nat} (hq : Parts.le ((Parts.report.or Parts.memory).or { heldWr := true, order := true, fab := true, tor := true, freeCtr := true, arr := true }) p = true) (h : Only p s t) : Only p s (State.traceRun t b x2) := by
  refine Only.step hq h ?_
  clear hq h
  induction x2 generalizing t with
  | zero =>
    unfold State.traceRun
    try dsimp -zeta only
    repeat' first
      | with_reducible assumption
      | with_reducible exact Only.refl _ _
      | ((with_reducible refine Parts.leq ?_); rfl)
      | refine Only.trans ?_ (ih ..)
      | with_reducible apply State.tracePut_only
      | with_reducible apply State.drew_only
      | (extract_lets +onlyGivenNames x; first
          | (refine Only.cut (p := ((Parts.report.or Parts.memory).or { heldWr := true, order := true, fab := true, tor := true, freeCtr := true, arr := true })) (s := t) (x := x) (fun hx => ?_) ?_; clear_value x; revert x; intro y hy; rotate_left; unfold x; clear x)
          | (refine Only.cut1 (p := ((Parts.report.or Parts.memory).or { heldWr := true, order := true, fab := true, tor := true, freeCtr := true, arr := true })) (s := t) (x := x) (fun hx => ?_) ?_; clear_value x; revert x; intro y hy; rotate_left; unfold x; clear x)
          | (refine Only.cut2 (p := ((Parts.report.or Parts.memory).or { heldWr := true, order := true, fab := true, tor := true, freeCtr := true, arr := true })) (s := t) (x := x) (fun hx => ?_) ?_; clear_value x; revert x; intro y hy; rotate_left; unfold x; clear x)
          | (revert x; intro y))
      | simp (disch := with_unfolding_all (apply Parts.same; apply Eq.refl)) only [Only.set_iff]
      | with_reducible apply Only.foldl
      | with_reducible apply Only.foldl_fst
      | (refine Only.of_fst ‹_ = _› ?_)
      | (refine Only.of_snd ‹_ = _› ?_)
      | split
      | (intro)
  | succ n ih =>
    unfold State.traceRun
    try dsimp -zeta only
    repeat' first
      | with_reducible assumption
      | with_reducible exact Only.refl _ _
      | ((with_reducible refine Parts.leq ?_); rfl)
      | refine Only.trans ?_ (ih ..)
      | with_reducible apply State.tracePut_only
      | with_reducible apply State.drew_only
      | (extract_lets +onlyGivenNames x; first
          | (refine Only.cut (p := ((Parts.report.or Parts.memory).or { heldWr := true, order := true, fab := true, tor := true, freeCtr := true, arr := true })) (s := t) (x := x) (fun hx => ?_) ?_; clear_value x; revert x; intro y hy; rotate_left; unfold x; clear x)
          | (refine Only.cut1 (p := ((Parts.report.or Parts.memory).or { heldWr := true, order := true, fab := true, tor := true, freeCtr := true, arr := true })) (s := t) (x := x) (fun hx => ?_) ?_; clear_value x; revert x; intro y hy; rotate_left; unfold x; clear x)
          | (refine Only.cut2 (p := ((Parts.report.or Parts.memory).or { heldWr := true, order := true, fab := true, tor := true, freeCtr := true, arr := true })) (s := t) (x := x) (fun hx => ?_) ?_; clear_value x; revert x; intro y hy; rotate_left; unfold x; clear x)
          | (revert x; intro y))
      | simp (disch := with_unfolding_all (apply Parts.same; apply Eq.refl)) only [Only.set_iff]
      | with_reducible apply Only.foldl
      | with_reducible apply Only.foldl_fst
      | (refine Only.of_fst ‹_ = _› ?_)
      | (refine Only.of_snd ‹_ = _› ?_)
      | split
      | (intro)

theorem execTracePostStop_only {s u : State} {b : Nat} (e : execTracePostStop b s = .next u) : Only ((Parts.report.or Parts.memory).or { heldWr := true, order := true, fab := true, tor := true, freeCtr := true, arr := true }) s u := by
  unfold execTracePostStop at e
  injection e with e
  subst e
  try dsimp -zeta only
  repeat' first
    | with_reducible assumption
    | with_reducible exact Only.refl _ _
    | ((with_reducible refine Parts.leq ?_); rfl)
    | with_reducible apply State.traceRun_only
    | (extract_lets +onlyGivenNames x; first
        | (refine Only.cut (p := ((Parts.report.or Parts.memory).or { heldWr := true, order := true, fab := true, tor := true, freeCtr := true, arr := true })) (s := s) (x := x) (fun hx => ?_) ?_; clear_value x; revert x; intro y hy; rotate_left; unfold x; clear x)
        | (refine Only.cut1 (p := ((Parts.report.or Parts.memory).or { heldWr := true, order := true, fab := true, tor := true, freeCtr := true, arr := true })) (s := s) (x := x) (fun hx => ?_) ?_; clear_value x; revert x; intro y hy; rotate_left; unfold x; clear x)
        | (refine Only.cut2 (p := ((Parts.report.or Parts.memory).or { heldWr := true, order := true, fab := true, tor := true, freeCtr := true, arr := true })) (s := s) (x := x) (fun hx => ?_) ?_; clear_value x; revert x; intro y hy; rotate_left; unfold x; clear x)
        | (revert x; intro y))
    | simp (disch := with_unfolding_all (apply Parts.same; apply Eq.refl)) only [Only.set_iff]
    | with_reducible apply Only.foldl
    | with_reducible apply Only.foldl_fst
    | (refine Only.of_fst ‹_ = _› ?_)
    | (refine Only.of_snd ‹_ = _› ?_)
    | split
    | (intro)

theorem traceCfgWrite_only {p : Parts} {s t : State} {base : Bool} {v : Word} (hq : Parts.le { regs := true, obs := true } p = true) (h : Only p s t) : Only p s (traceCfgWrite t base v) := by
  refine Only.step hq h ?_
  unfold traceCfgWrite
  repeat' first
    | with_reducible exact Only.refl _ _
    | ((with_reducible refine Parts.leq ?_); rfl)
    | with_reducible apply State.putRW_only
    | simp (disch := with_unfolding_all (apply Parts.same; apply Eq.refl)) only [Only.set_iff]

theorem execTraceCfgWrite_only {s u : State} {base : Bool} {value : Word} (e : execTraceCfgWrite base value s = .next u) : Only { regs := true, obs := true } s u := by
  unfold execTraceCfgWrite at e
  injection e with e
  subst e
  repeat' first
    | with_reducible exact Only.refl _ _
    | ((with_reducible refine Parts.leq ?_); rfl)
    | with_reducible apply traceCfgWrite_only

theorem State.setIr_only {p : Parts} {s t : State} {x1 : Nat} {op : Nat} (hq : Parts.le { obs := true } p = true) (h : Only p s t) : Only p s (State.setIr t x1 op) := by
  refine Only.step hq h ?_
  unfold State.setIr
  repeat' first
    | with_reducible exact Only.refl _ _
    | ((with_reducible refine Parts.leq ?_); rfl)
    | simp (disch := with_unfolding_all (apply Parts.same; apply Eq.refl)) only [Only.set_iff]

theorem State.bypass_only {p : Parts} {s t : State} {x1 : Nat} {op : Nat} (hq : Parts.le { out := true, obs := true } p = true) (h : Only p s t) : Only p s (State.bypass t x1 op) := by
  refine Only.step hq h ?_
  unfold State.bypass
  repeat' first
    | with_reducible exact Only.refl _ _
    | ((with_reducible refine Parts.leq ?_); rfl)
    | with_reducible apply State.emit_only
    | with_reducible apply State.setIr_only

theorem execJtagBypass_only {s u : State} {x0 : Nat} (e : execJtagBypass x0 s = .next u) : Only { out := true, obs := true } s u := by
  unfold execJtagBypass at e
  injection e with e
  subst e
  repeat' first
    | with_reducible exact Only.refl _ _
    | ((with_reducible refine Parts.leq ?_); rfl)
    | with_reducible apply State.bypass_only
    | split

theorem execJtagIdcode_only {s u : State} {x0 : Nat} (e : execJtagIdcode x0 s = .next u) : Only { out := true, obs := true } s u := by
  unfold execJtagIdcode at e
  injection e with e
  subst e
  repeat' first
    | with_reducible exact Only.refl _ _
    | ((with_reducible refine Parts.leq ?_); rfl)
    | with_reducible apply State.emit_only
    | with_reducible apply State.setIr_only
    | split

theorem execJtagSamplePreload_only {s u : State} {x0 : Nat} {pads : Nat} {shifted : Nat} (e : execJtagSamplePreload x0 pads shifted s = .next u) : Only { out := true, obs := true } s u := by
  unfold execJtagSamplePreload at e
  injection e with e
  subst e
  repeat' first
    | with_reducible exact Only.refl _ _
    | ((with_reducible refine Parts.leq ?_); rfl)
    | with_reducible apply State.setIr_only
    | with_reducible apply State.emit_only
    | simp (disch := with_unfolding_all (apply Parts.same; apply Eq.refl)) only [Only.set_iff]
    | split

theorem execJtagExtest_only {s u : State} {x0 : Nat} {pads : Nat} {shifted : Nat} (e : execJtagExtest x0 pads shifted s = .next u) : Only { out := true, obs := true } s u := by
  unfold execJtagExtest at e
  injection e with e
  subst e
  repeat' first
    | with_reducible exact Only.refl _ _
    | ((with_reducible refine Parts.leq ?_); rfl)
    | with_reducible apply State.setIr_only
    | with_reducible apply State.emit_only
    | simp (disch := with_unfolding_all (apply Parts.same; apply Eq.refl)) only [Only.set_iff]
    | split

theorem execJtagIjtag_only {s u : State} {x0 : Nat} {bits : Nat} {held : Bool} (e : execJtagIjtag x0 bits held s = .next u) : Only { freeCtr := true, out := true, obs := true } s u := by
  unfold execJtagIjtag at e
  injection e with e
  subst e
  repeat' first
    | with_reducible exact Only.refl _ _
    | ((with_reducible refine Parts.leq ?_); rfl)
    | with_reducible apply State.bypass_only
    | with_reducible apply State.setIr_only
    | with_reducible apply State.emit_only
    | with_reducible apply State.drew_only
    | simp (disch := with_unfolding_all (apply Parts.same; apply Eq.refl)) only [Only.set_iff]
    | split

theorem State.kTrace_only {p : Parts} {s t : State} {x1 : Nat} (hq : Parts.le { freeCtr := true, obs := true } p = true) (h : Only p s t) : Only p s (State.kTrace t x1) := by
  refine Only.step hq h ?_
  unfold State.kTrace
  repeat' first
    | with_reducible exact Only.refl _ _
    | ((with_reducible refine Parts.leq ?_); rfl)
    | with_reducible apply State.drew_only
    | simp (disch := with_unfolding_all (apply Parts.same; apply Eq.refl)) only [Only.set_iff]
    | split

theorem execJtagKtrace_only {s u : State} {x0 : Nat} (e : execJtagKtrace x0 s = .next u) : Only { freeCtr := true, out := true, obs := true } s u := by
  unfold execJtagKtrace at e
  injection e with e
  subst e
  repeat' first
    | with_reducible exact Only.refl _ _
    | ((with_reducible refine Parts.leq ?_); rfl)
    | with_reducible apply State.bypass_only
    | with_reducible apply State.kTrace_only
    | with_reducible apply State.setIr_only
    | with_reducible apply State.emit_only
    | simp (disch := with_unfolding_all (apply Parts.same; apply Eq.refl)) only [Only.set_iff]
    | split

theorem execJtagKeyprog_only {s u : State} {x0 : Nat} {key : List Byte} (e : execJtagKeyprog x0 key s = .next u) : Only { out := true, obs := true } s u := by
  unfold execJtagKeyprog at e
  injection e with e
  subst e
  repeat' first
    | with_reducible exact Only.refl _ _
    | ((with_reducible refine Parts.leq ?_); rfl)
    | with_reducible apply State.bypass_only
    | with_reducible apply State.setIr_only
    | simp (disch := with_unfolding_all (apply Parts.same; apply Eq.refl)) only [Only.set_iff]
    | split

theorem execTrstAssert_only {s u : State}  (e : execTrstAssert s = .next u) : Only { obs := true } s u := by
  unfold execTrstAssert at e
  injection e with e
  subst e
  repeat' first
    | with_reducible exact Only.refl _ _
    | ((with_reducible refine Parts.leq ?_); rfl)
    | simp (disch := with_unfolding_all (apply Parts.same; apply Eq.refl)) only [Only.set_iff]

end Sys2Proof.Machine
end

