-- ==== Sys2Proof/Laws/OnlyTime.lean ====
section
/-!
SUPPORT. Which parts of the state the operations of Machine/Time.lean may change (Safety.lean).
-/
namespace Sys2Proof.Machine

open Sys2Proof

theorem State.broadcast_only {p : Parts} {s t : State} {c : TimeChange} (hq : Parts.le { clk := true } p = true) (h : Only p s t) : Only p s (State.broadcast t c) := by
  refine Only.step hq h ?_
  unfold State.broadcast
  repeat' first
    | with_reducible exact Only.refl _ _
    | ((with_reducible refine Parts.leq ?_); rfl)
    | simp (disch := with_unfolding_all (apply Parts.same; apply Eq.refl)) only [Only.set_iff]

theorem execTimeParamApply_only {s u : State}  (e : execTimeParamApply s = .next u) : Only { clk := true } s u := by
  unfold execTimeParamApply at e
  injection e with e
  subst e
  repeat' first
    | with_reducible exact Only.refl _ _
    | ((with_reducible refine Parts.leq ?_); rfl)
    | with_reducible apply State.reach_only
    | simp (disch := with_unfolding_all (apply Parts.same; apply Eq.refl)) only [Only.set_iff]
    | split

theorem rateWrite_only {p : Parts} {s t : State} {allowed : Bool} {value : Word} (hq : Parts.le (Parts.report.or { clk := true }) p = true) (h : Only p s t) : Only p s (rateWrite t allowed value) := by
  refine Only.step hq h ?_
  unfold rateWrite
  repeat' first
    | with_reducible exact Only.refl _ _
    | ((with_reducible refine Parts.leq ?_); rfl)
    | with_reducible apply State.broadcast_only
    | with_reducible apply State.rejected_only
    | split

theorem execRateWrite_only {s u : State} {allowed : Bool} {value : Word} (e : execRateWrite allowed value s = .next u) : Only (Parts.report.or { clk := true }) s u := by
  unfold execRateWrite at e
  injection e with e
  subst e
  repeat' first
    | with_reducible exact Only.refl _ _
    | ((with_reducible refine Parts.leq ?_); rfl)
    | with_reducible apply rateWrite_only

theorem adjWrite_only {p : Parts} {s t : State} {allowed : Bool} {value : Word} (hq : Parts.le (Parts.report.or { clk := true }) p = true) (h : Only p s t) : Only p s (adjWrite t allowed value) := by
  refine Only.step hq h ?_
  unfold adjWrite
  repeat' first
    | with_reducible exact Only.refl _ _
    | ((with_reducible refine Parts.leq ?_); rfl)
    | with_reducible apply State.broadcast_only
    | with_reducible apply State.rejected_only
    | split

theorem execAdjWrite_only {s u : State} {allowed : Bool} {value : Word} (e : execAdjWrite allowed value s = .next u) : Only (Parts.report.or { clk := true }) s u := by
  unfold execAdjWrite at e
  injection e with e
  subst e
  repeat' first
    | with_reducible exact Only.refl _ _
    | ((with_reducible refine Parts.leq ?_); rfl)
    | with_reducible apply adjWrite_only

theorem execSlewEnd_only {s u : State}  (e : execSlewEnd s = .next u) : Only { clk := true } s u := by
  unfold execSlewEnd at e
  injection e with e
  subst e
  repeat' first
    | with_reducible exact Only.refl _ _
    | ((with_reducible refine Parts.leq ?_); rfl)
    | with_reducible apply State.reach_only
    | simp (disch := with_unfolding_all (apply Parts.same; apply Eq.refl)) only [Only.set_iff]
    | split

theorem announce_only {p : Parts} {s t : State} {gm : Nat} {ivl : Nat} {best : Bool} (hq : Parts.le { regs := true, trf := true, clk := true, flt := true, journal := true } p = true) (h : Only p s t) : Only p s (announce t gm ivl best) := by
  refine Only.step hq h ?_
  unfold announce
  repeat' first
    | with_reducible exact Only.refl _ _
    | ((with_reducible refine Parts.leq ?_); rfl)
    | with_reducible apply State.setTime_only
    | simp (disch := with_unfolding_all (apply Parts.same; apply Eq.refl)) only [Only.set_iff]
    | split

theorem exchange_only {p : Parts} {s t : State} {d : Int} (hq : Parts.le { regs := true, trf := true, clk := true, flt := true, journal := true, pwr := true } p = true) (h : Only p s t) : Only p s (exchange t d) := by
  refine Only.step hq h ?_
  unfold exchange
  try dsimp -zeta only
  repeat' first
    | with_reducible assumption
    | with_reducible exact Only.refl _ _
    | ((with_reducible refine Parts.leq ?_); rfl)
    | with_reducible apply State.fput_only
    | with_reducible apply State.advance_only
    | with_reducible apply State.setTime_only
    | (extract_lets +onlyGivenNames x; first
        | (refine Only.cut (p := { regs := true, trf := true, clk := true, flt := true, journal := true, pwr := true }) (s := t) (x := x) (fun hx => ?_) ?_; clear_value x; revert x; intro y hy; rotate_left; unfold x; clear x)
        | (refine Only.cut1 (p := { regs := true, trf := true, clk := true, flt := true, journal := true, pwr := true }) (s := t) (x := x) (fun hx => ?_) ?_; clear_value x; revert x; intro y hy; rotate_left; unfold x; clear x)
        | (refine Only.cut2 (p := { regs := true, trf := true, clk := true, flt := true, journal := true, pwr := true }) (s := t) (x := x) (fun hx => ?_) ?_; clear_value x; revert x; intro y hy; rotate_left; unfold x; clear x)
        | (revert x; intro y))
    | simp (disch := with_unfolding_all (apply Parts.same; apply Eq.refl)) only [Only.set_iff]
    | with_reducible apply Only.foldl
    | with_reducible apply Only.foldl_fst
    | (refine Only.of_fst ‹_ = _› ?_)
    | (refine Only.of_snd ‹_ = _› ?_)
    | split
    | (intro)

theorem execPtpMessage_only {s u : State} {msg : PtpMsg} (e : execPtpMessage msg s = .next u) : Only { regs := true, trf := true, clk := true, flt := true, journal := true, pwr := true } s u := by
  unfold execPtpMessage at e
  injection e with e
  subst e
  repeat' first
    | with_reducible exact Only.refl _ _
    | ((with_reducible refine Parts.leq ?_); rfl)
    | with_reducible apply announce_only
    | with_reducible apply exchange_only
    | split

theorem execAnnounceTimeout_only {s u : State}  (e : execAnnounceTimeout s = .next u) : Only { regs := true, trf := true, clk := true, flt := true, journal := true } s u := by
  unfold execAnnounceTimeout at e
  injection e with e
  subst e
  repeat' first
    | with_reducible exact Only.refl _ _
    | ((with_reducible refine Parts.leq ?_); rfl)
    | with_reducible apply State.setTime_only
    | with_reducible apply State.reach_only
    | split

theorem execSyncInEdge_only {s u : State}  (e : execSyncInEdge s = .next u) : Only { regs := true, trf := true, flt := true, journal := true } s u := by
  unfold execSyncInEdge at e
  injection e with e
  subst e
  repeat' first
    | with_reducible exact Only.refl _ _
    | ((with_reducible refine Parts.leq ?_); rfl)
    | with_reducible apply State.setReg_only
    | with_reducible apply State.event_only
    | with_reducible apply State.putBit_only
    | split

theorem execRefclkLost_only {s u : State}  (e : execRefclkLost s = .next u) : Only { regs := true, trf := true, clk := true, flt := true, journal := true } s u := by
  unfold execRefclkLost at e
  injection e with e
  subst e
  repeat' first
    | with_reducible exact Only.refl _ _
    | ((with_reducible refine Parts.leq ?_); rfl)
    | with_reducible apply State.setTime_only
    | with_reducible apply State.putBit_only
    | simp (disch := with_unfolding_all (apply Parts.same; apply Eq.refl)) only [Only.set_iff]

theorem execRefclkReturn_only {s u : State}  (e : execRefclkReturn s = .next u) : Only { clk := true } s u := by
  unfold execRefclkReturn at e
  injection e with e
  subst e
  repeat' first
    | with_reducible exact Only.refl _ _
    | ((with_reducible refine Parts.leq ?_); rfl)
    | simp (disch := with_unfolding_all (apply Parts.same; apply Eq.refl)) only [Only.set_iff]
    | split

theorem execRefclkSwitchback_only {s u : State} {sync : Bool} (e : execRefclkSwitchback sync s = .next u) : Only { regs := true, clk := true } s u := by
  unfold execRefclkSwitchback at e
  injection e with e
  subst e
  repeat' first
    | with_reducible exact Only.refl _ _
    | ((with_reducible refine Parts.leq ?_); rfl)
    | with_reducible apply State.reach_only
    | with_reducible apply State.putBit_only
    | simp (disch := with_unfolding_all (apply Parts.same; apply Eq.refl)) only [Only.set_iff]
    | split

end Sys2Proof.Machine
end

