-- ==== Sys2Proof/Laws/OnlyWrite.lean ====
section
/-!
SUPPORT. Which parts of the state the operations of Machine/Write.lean may change (Safety.lean).
-/
namespace Sys2Proof.Machine

open Sys2Proof

theorem fnWrite_only {p : Parts} {s t : State} {f : Nat} {v : Word} (hq : Parts.le ((Parts.report.or Parts.memory).or { inForce := true, genStale := true, drainAt := true, hostW := true, sq := true, started := true, unconf := true, pcie := true, pages := true, heldWr := true, order := true, fab := true, tor := true, freeCtr := true, dark := true, arr := true, sump := true, gathers := true, upd := true, ranks := true, homes := true, scan := true, caddy := true }) p = true) (h : Only p s t) : Only p s (fnWrite t f v) := by
  refine Only.step hq h ?_
  unfold fnWrite
  try dsimp -zeta only
  repeat' first
    | with_reducible assumption
    | with_reducible exact Only.refl _ _
    | ((with_reducible refine Parts.leq ?_); rfl)
    | with_reducible apply State.fput_only
    | with_reducible apply State.rejected_only
    | with_reducible apply State.fnCmd_only
    | with_reducible apply cmdStop_only
    | with_reducible apply cmdChange_only
    | with_reducible apply cmdRestart_only
    | with_reducible apply cmdAbort_only
    | with_reducible apply State.badCmd_only
    | (extract_lets +onlyGivenNames x; first
        | (refine Only.cut (p := ((Parts.report.or Parts.memory).or { inForce := true, genStale := true, drainAt := true, hostW := true, sq := true, started := true, unconf := true, pcie := true, pages := true, heldWr := true, order := true, fab := true, tor := true, freeCtr := true, dark := true, arr := true, sump := true, gathers := true, upd := true, ranks := true, homes := true, scan := true, caddy := true })) (s := t) (x := x) (fun hx => ?_) ?_; clear_value x; revert x; intro y hy; rotate_left; unfold x; clear x)
        | (refine Only.cut1 (p := ((Parts.report.or Parts.memory).or { inForce := true, genStale := true, drainAt := true, hostW := true, sq := true, started := true, unconf := true, pcie := true, pages := true, heldWr := true, order := true, fab := true, tor := true, freeCtr := true, dark := true, arr := true, sump := true, gathers := true, upd := true, ranks := true, homes := true, scan := true, caddy := true })) (s := t) (x := x) (fun hx => ?_) ?_; clear_value x; revert x; intro y hy; rotate_left; unfold x; clear x)
        | (refine Only.cut2 (p := ((Parts.report.or Parts.memory).or { inForce := true, genStale := true, drainAt := true, hostW := true, sq := true, started := true, unconf := true, pcie := true, pages := true, heldWr := true, order := true, fab := true, tor := true, freeCtr := true, dark := true, arr := true, sump := true, gathers := true, upd := true, ranks := true, homes := true, scan := true, caddy := true })) (s := t) (x := x) (fun hx => ?_) ?_; clear_value x; revert x; intro y hy; rotate_left; unfold x; clear x)
        | (revert x; intro y))
    | simp (disch := with_unfolding_all (apply Parts.same; apply Eq.refl)) only [Only.set_iff]
    | with_reducible apply Only.foldl
    | with_reducible apply Only.foldl_fst
    | (refine Only.of_fst ‹_ = _› ?_)
    | (refine Only.of_snd ‹_ = _› ?_)
    | split
    | (intro)

theorem resetWrite_only {p : Parts} {s t : State} {mgmt : Bool} {v : Word} (hq : Parts.le Parts.most p = true) (h : Only p s t) : Only p s (resetWrite t mgmt v) := by
  refine Only.step hq h ?_
  unfold resetWrite
  repeat' first
    | with_reducible exact Only.refl _ _
    | ((with_reducible refine Parts.leq ?_); rfl)
    | with_reducible apply State.rejected_only
    | with_reducible apply resetCmd_only
    | (extract_lets +onlyGivenNames x; first
        | (revert x; intro y))
    | split

theorem fenceWrite_only {p : Parts} {s t : State} {block : Option Nat} {v : Word} (hq : Parts.le { arr := true } p = true) (h : Only p s t) : Only p s (fenceWrite t block v) := by
  refine Only.step hq h ?_
  unfold fenceWrite
  repeat' first
    | with_reducible exact Only.refl _ _
    | ((with_reducible refine Parts.leq ?_); rfl)
    | simp (disch := with_unfolding_all (apply Parts.same; apply Eq.refl)) only [Only.set_iff]
    | split

theorem sevWrite_only {p : Parts} {s t : State} {v : Word} (hq : Parts.le { regs := true, flt := true, out := true } p = true) (h : Only p s t) : Only p s (sevWrite t v) := by
  refine Only.step hq h ?_
  unfold sevWrite
  repeat' first
    | with_reducible exact Only.refl _ _
    | ((with_reducible refine Parts.leq ?_); rfl)
    | with_reducible apply State.fput_only
    | with_reducible apply State.emit_only
    | simp (disch := with_unfolding_all (apply Parts.same; apply Eq.refl)) only [Only.set_iff]
    | split

theorem hangWrite_only {p : Parts} {s t : State} {v : Word} (hq : Parts.le { regs := true } p = true) (h : Only p s t) : Only p s (hangWrite t v) := by
  refine Only.step hq h ?_
  unfold hangWrite
  repeat' first
    | with_reducible exact Only.refl _ _
    | ((with_reducible refine Parts.leq ?_); rfl)
    | with_reducible apply State.fput_only
    | split

theorem whistleCfgWrite_only {p : Parts} {s t : State} {v : Word} (hq : Parts.le Parts.report p = true) (h : Only p s t) : Only p s (whistleCfgWrite t v) := by
  refine Only.step hq h ?_
  unfold whistleCfgWrite
  repeat' first
    | with_reducible exact Only.refl _ _
    | ((with_reducible refine Parts.leq ?_); rfl)
    | with_reducible apply State.putRW_only
    | with_reducible apply State.rejected_only
    | split

theorem dbgWrite_only {p : Parts} {s t : State} {v : Word} (hq : Parts.le Parts.report p = true) (h : Only p s t) : Only p s (dbgWrite t v) := by
  refine Only.step hq h ?_
  unfold dbgWrite
  repeat' first
    | with_reducible exact Only.refl _ _
    | ((with_reducible refine Parts.leq ?_); rfl)
    | with_reducible apply State.putRW_only
    | with_reducible apply State.rejected_only
    | split

theorem State.clearW1c_only {p : Parts} {s t : State} {r : RegRow} {off : Nat} {v : Word} (hq : Parts.le { regs := true } p = true) (h : Only p s t) : Only p s (State.clearW1c t r off v) := by
  refine Only.step hq h ?_
  unfold State.clearW1c
  repeat' first
    | with_reducible exact Only.refl _ _
    | ((with_reducible refine Parts.leq ?_); rfl)
    | with_reducible apply State.setReg_only

theorem State.plainReg_only {p : Parts} {s t : State} {r : RegRow} {a : Nat} {off : Nat} {v : Word} (hq : Parts.le Parts.report p = true) (h : Only p s t) : Only p s (State.plainReg t r a off v) := by
  refine Only.step hq h ?_
  unfold State.plainReg
  repeat' first
    | with_reducible exact Only.refl _ _
    | ((with_reducible refine Parts.leq ?_); rfl)
    | with_reducible apply State.putRW_only
    | with_reducible apply State.rejected_only
    | with_reducible apply State.clearW1c_only
    | split

theorem State.regAct1_only {p : Parts} {s t : State} {mgmt : Bool} {r : RegRow} {a : Nat} {off : Nat} {v : Word} (hq : Parts.le Parts.most p = true) (h : Only p s t) : Only p s (State.regAct1 t mgmt r a off v) := by
  refine Only.step hq h ?_
  unfold State.regAct1
  repeat' first
    | with_reducible exact Only.refl _ _
    | ((with_reducible refine Parts.leq ?_); rfl)
    | with_reducible apply fnWrite_only
    | with_reducible apply resetWrite_only
    | with_reducible apply chipAssign_only
    | with_reducible apply hangWrite_only
    | with_reducible apply doorbell_only
    | with_reducible apply cqHeadWrite_only
    | with_reducible apply fenceWrite_only
    | with_reducible apply State.plainReg_only
    | split

theorem State.regAct2_only {p : Parts} {s t : State} {mgmt : Bool} {r : RegRow} {a : Nat} {b : Nat} {off : Nat} {v : Word} (hq : Parts.le (Parts.report.or { clk := true, evr := true, fab := true, tor := true, trelfort := true }) p = true) (h : Only p s t) : Only p s (State.regAct2 t mgmt r a b off v) := by
  refine Only.step hq h ?_
  unfold State.regAct2
  try dsimp -zeta only
  repeat' first
    | with_reducible assumption
    | with_reducible exact Only.refl _ _
    | ((with_reducible refine Parts.leq ?_); rfl)
    | with_reducible apply Only.ite
    | with_reducible apply sevWrite_only
    | with_reducible apply State.countLost_only
    | with_reducible apply State.plainReg_only
    | with_reducible apply roleCmd_only
    | with_reducible apply arbWrite_only
    | with_reducible apply ctlWrite_only
    | with_reducible apply rateWrite_only
    | with_reducible apply adjWrite_only
    | with_reducible apply whistleCfgWrite_only
    | with_reducible apply whistleWrite_only
    | with_reducible apply whistleSend_only
    | with_reducible apply traceCfgWrite_only
    | with_reducible apply dbgWrite_only
    | with_reducible apply evtSelWrite_only
    | with_reducible apply filterWrite_only
    | with_reducible apply dvfsWrite_only
    | with_reducible apply startCfg_only
    | (extract_lets +onlyGivenNames x; first
        | (refine Only.cut (p := (Parts.report.or { clk := true, evr := true, fab := true, tor := true, trelfort := true })) (s := t) (x := x) (fun hx => ?_) ?_; clear_value x; revert x; intro y hy; rotate_left; unfold x; clear x)
        | (refine Only.cut1 (p := (Parts.report.or { clk := true, evr := true, fab := true, tor := true, trelfort := true })) (s := t) (x := x) (fun hx => ?_) ?_; clear_value x; revert x; intro y hy; rotate_left; unfold x; clear x)
        | (refine Only.cut2 (p := (Parts.report.or { clk := true, evr := true, fab := true, tor := true, trelfort := true })) (s := t) (x := x) (fun hx => ?_) ?_; clear_value x; revert x; intro y hy; rotate_left; unfold x; clear x)
        | (revert x; intro y))
    | simp (disch := with_unfolding_all (apply Parts.same; apply Eq.refl)) only [Only.set_iff]
    | with_reducible apply Only.foldl
    | with_reducible apply Only.foldl_fst
    | (refine Only.of_fst ‹_ = _› ?_)
    | (refine Only.of_snd ‹_ = _› ?_)
    | split
    | (intro)

theorem State.regWrite_only {p : Parts} {s t : State} {who : Master} {off : Nat} {v : Word} (hq : Parts.le (Parts.most.or { evr := true }) p = true) (h : Only p s t) : Only p s (State.regWrite t who off v) := by
  refine Only.step hq h ?_
  unfold State.regWrite
  repeat' first
    | with_reducible exact Only.refl _ _
    | ((with_reducible refine Parts.leq ?_); rfl)
    | with_reducible apply State.noAnswer_only
    | with_reducible apply State.unmapped_only
    | with_reducible apply State.rejected_only
    | with_reducible apply State.regAct1_only
    | with_reducible apply State.regAct2_only
    | split

theorem execRegisterWrite_only {s u : State} {who : Master} {off : Nat} {value : Word} (e : execRegisterWrite who off value s = .next u) : Only (Parts.most.or { evr := true }) s u := by
  unfold execRegisterWrite at e
  injection e with e
  subst e
  repeat' first
    | with_reducible exact Only.refl _ _
    | ((with_reducible refine Parts.leq ?_); rfl)
    | with_reducible apply State.regWrite_only

theorem State.regWrites_only {p : Parts} {s t : State} {who : Master} {off : Nat} {d : List Byte} (hq : Parts.le (Parts.most.or { evr := true }) p = true) (h : Only p s t) : Only p s (State.regWrites t who off d) := by
  refine Only.step hq h ?_
  unfold State.regWrites
  repeat' first
    | with_reducible exact Only.refl _ _
    | ((with_reducible refine Parts.leq ?_); rfl)
    | with_reducible apply State.regWrite_only
    | with_reducible apply State.rejected_only
    | with_reducible apply Only.foldl
    | split
    | (intro)

theorem State.servePiece_only {p : Parts} {s t : State} {who : Master} {addr : Nat} {d : List Byte} (hq : Parts.le (Parts.most.or { evr := true }) p = true) (h : Only p s t) : Only p s (State.servePiece t who addr d) := by
  refine Only.step hq h ?_
  unfold State.servePiece
  try dsimp -zeta only
  repeat' first
    | with_reducible assumption
    | with_reducible exact Only.refl _ _
    | ((with_reducible refine Parts.leq ?_); rfl)
    | with_reducible apply State.crossTo_only
    | with_reducible apply State.plainWrite_only
    | with_reducible apply State.unmapped_only
    | with_reducible apply State.regWrites_only
    | (extract_lets +onlyGivenNames x; first
        | (refine Only.cut (p := (Parts.most.or { evr := true })) (s := t) (x := x) (fun hx => ?_) ?_; clear_value x; revert x; intro y hy; rotate_left; unfold x; clear x)
        | (refine Only.cut1 (p := (Parts.most.or { evr := true })) (s := t) (x := x) (fun hx => ?_) ?_; clear_value x; revert x; intro y hy; rotate_left; unfold x; clear x)
        | (refine Only.cut2 (p := (Parts.most.or { evr := true })) (s := t) (x := x) (fun hx => ?_) ?_; clear_value x; revert x; intro y hy; rotate_left; unfold x; clear x)
        | (revert x; intro y))
    | simp (disch := with_unfolding_all (apply Parts.same; apply Eq.refl)) only [Only.set_iff]
    | with_reducible apply Only.foldl
    | with_reducible apply Only.foldl_fst
    | (refine Only.of_fst ‹_ = _› ?_)
    | (refine Only.of_snd ‹_ = _› ?_)
    | split
    | (intro)

theorem State.serveWrite_only {p : Parts} {s t : State} {who : Master} {addr : Nat} {d : List Byte} (hq : Parts.le (Parts.most.or { evr := true }) p = true) (h : Only p s t) : Only p s (State.serveWrite t who addr d) := by
  refine Only.step hq h ?_
  unfold State.serveWrite
  repeat' first
    | with_reducible exact Only.refl _ _
    | ((with_reducible refine Parts.leq ?_); rfl)
    | with_reducible apply State.servePiece_only
    | with_reducible apply Only.foldl
    | (intro)

theorem State.globalWrite_only {p : Parts} {s t : State} {who : Master} {a : Nat} {d : List Byte} (hq : Parts.le (Parts.most.or { evr := true }) p = true) (h : Only p s t) : Only p s (State.globalWrite t who a d) := by
  refine Only.step hq h ?_
  unfold State.globalWrite
  repeat' first
    | with_reducible exact Only.refl _ _
    | ((with_reducible refine Parts.leq ?_); rfl)
    | with_reducible apply State.send_only
    | with_reducible apply State.unmapped_only
    | with_reducible apply State.serveWrite_only
    | with_reducible apply Only.foldl
    | split
    | (intro)

theorem memoryWrite_only {p : Parts} {s t : State} {who : Master} {sp : Space} {addr : Nat} {d : List Byte} (hq : Parts.le (Parts.most.or { evr := true }) p = true) (h : Only p s t) : Only p s (memoryWrite t who sp addr d) := by
  refine Only.step hq h ?_
  unfold memoryWrite
  repeat' first
    | with_reducible exact Only.refl _ _
    | ((with_reducible refine Parts.leq ?_); rfl)
    | with_reducible apply State.unmapped_only
    | with_reducible apply State.globalWrite_only
    | with_reducible apply Only.foldl
    | split
    | (intro)

theorem execMemoryWrite_only {s u : State} {who : Master} {sp : Space} {addr : Nat} {data : List Byte} (e : execMemoryWrite who sp addr data s = .next u) : Only (Parts.most.or { evr := true }) s u := by
  unfold execMemoryWrite at e
  injection e with e
  subst e
  repeat' first
    | with_reducible exact Only.refl _ _
    | ((with_reducible refine Parts.leq ?_); rfl)
    | with_reducible apply memoryWrite_only

theorem tmpWrite_only {p : Parts} {s t : State} {x1 : Nat} {src : Nat} {g : List Byte} (hq : Parts.le (Parts.most.or { evr := true }) p = true) (h : Only p s t) : Only p s (tmpWrite t x1 src g) := by
  refine Only.step hq h ?_
  unfold tmpWrite
  try dsimp -zeta only
  repeat' first
    | with_reducible assumption
    | with_reducible exact Only.refl _ _
    | ((with_reducible refine Parts.leq ?_); rfl)
    | with_reducible apply State.tmpReply_only
    | with_reducible apply State.newTag_only
    | with_reducible apply State.tmpDone_only
    | with_reducible apply State.addRead_only
    | with_reducible apply State.send_only
    | with_reducible apply State.serveWrite_only
    | (extract_lets +onlyGivenNames x; first
        | (refine Only.cut (p := (Parts.most.or { evr := true })) (s := t) (x := x) (fun hx => ?_) ?_; clear_value x; revert x; intro y hy; rotate_left; unfold x; clear x)
        | (refine Only.cut1 (p := (Parts.most.or { evr := true })) (s := t) (x := x) (fun hx => ?_) ?_; clear_value x; revert x; intro y hy; rotate_left; unfold x; clear x)
        | (refine Only.cut2 (p := (Parts.most.or { evr := true })) (s := t) (x := x) (fun hx => ?_) ?_; clear_value x; revert x; intro y hy; rotate_left; unfold x; clear x)
        | (revert x; intro y))
    | simp (disch := with_unfolding_all (apply Parts.same; apply Eq.refl)) only [Only.set_iff]
    | with_reducible apply Only.foldl
    | with_reducible apply Only.foldl_fst
    | (refine Only.of_fst ‹_ = _› ?_)
    | (refine Only.of_snd ‹_ = _› ?_)
    | split
    | (intro)

theorem execTmpWrite_only {s u : State} {x0 : Nat} {src : Nat} {dgram : List Byte} (e : execTmpWrite x0 src dgram s = .next u) : Only (Parts.most.or { evr := true }) s u := by
  unfold execTmpWrite at e
  injection e with e
  subst e
  repeat' first
    | with_reducible assumption
    | with_reducible exact Only.refl _ _
    | ((with_reducible refine Parts.leq ?_); rfl)
    | with_reducible apply State.tmpIn_only
    | with_reducible apply State.asPrimary_only
    | with_reducible apply tmpWrite_only
    | (intro)

theorem memacc_only {p : Parts} {s t : State} {x1 : Nat} {write : Bool} {addr : Nat} {data : Word} (hq : Parts.le (Parts.most.or { evr := true }) p = true) (h : Only p s t) : Only p s (memacc t x1 write addr data) := by
  refine Only.step hq h ?_
  unfold memacc
  repeat' first
    | with_reducible exact Only.refl _ _
    | ((with_reducible refine Parts.leq ?_); rfl)
    | with_reducible apply State.emit_only
    | with_reducible apply State.unmapped_only
    | with_reducible apply State.globalWrite_only
    | with_reducible apply State.serveRead_only
    | with_reducible apply State.readAll_only
    | with_reducible apply memoryRead_only
    | split

theorem execJtagMemacc_only {s u : State} {x0 : Nat} {write : Bool} {addr : Nat} {data : Word} {ecc : EccFinds} (e : execJtagMemacc x0 write addr data ecc s = .next u) : Only (Parts.most.or { evr := true }) s u := by
  unfold execJtagMemacc at e
  injection e with e
  subst e
  try dsimp -zeta only
  repeat' first
    | with_reducible assumption
    | with_reducible exact Only.refl _ _
    | ((with_reducible refine Parts.leq ?_); rfl)
    | with_reducible apply State.eccAll_only
    | with_reducible apply memacc_only
    | with_reducible apply State.setIr_only
    | with_reducible apply State.bypass_only
    | (extract_lets +onlyGivenNames x; first
        | (refine Only.cut (p := (Parts.most.or { evr := true })) (s := s) (x := x) (fun hx => ?_) ?_; clear_value x; revert x; intro y hy; rotate_left; unfold x; clear x)
        | (refine Only.cut1 (p := (Parts.most.or { evr := true })) (s := s) (x := x) (fun hx => ?_) ?_; clear_value x; revert x; intro y hy; rotate_left; unfold x; clear x)
        | (refine Only.cut2 (p := (Parts.most.or { evr := true })) (s := s) (x := x) (fun hx => ?_) ?_; clear_value x; revert x; intro y hy; rotate_left; unfold x; clear x)
        | (revert x; intro y))
    | simp (disch := with_unfolding_all (apply Parts.same; apply Eq.refl)) only [Only.set_iff]
    | with_reducible apply Only.foldl
    | with_reducible apply Only.foldl_fst
    | (refine Only.of_fst ‹_ = _› ?_)
    | (refine Only.of_snd ‹_ = _› ?_)
    | split
    | (intro)

end Sys2Proof.Machine
end

