-- ==== Sys2Proof/Laws/OnlyStart.lean ====
section
/-!
SUPPORT. Which parts of the state the operations of Machine/Start.lean may change (Safety.lean).
-/
namespace Sys2Proof.Machine

open Sys2Proof

theorem State.paramOf_only {p : Parts} {s t : State} {n : Nat} {f : Fetched} {ext : List Byte} (hq : Parts.le (Parts.report.or { tor := true }) p = true) (h : Only p s t) : Only p s (State.paramOf t n f ext).1 := by
  refine Only.step hq h ?_
  unfold State.paramOf
  try dsimp -zeta only
  repeat' first
    | with_reducible assumption
    | with_reducible exact Only.refl _ _
    | ((with_reducible refine Parts.leq ?_); rfl)
    | with_reducible apply State.extRead_only
    | (extract_lets +onlyGivenNames x; first
        | (refine Only.cut (p := (Parts.report.or { tor := true })) (s := t) (x := x) (fun hx => ?_) ?_; clear_value x; revert x; intro y hy; rotate_left; unfold x; clear x)
        | (refine Only.cut1 (p := (Parts.report.or { tor := true })) (s := t) (x := x) (fun hx => ?_) ?_; clear_value x; revert x; intro y hy; rotate_left; unfold x; clear x)
        | (refine Only.cut2 (p := (Parts.report.or { tor := true })) (s := t) (x := x) (fun hx => ?_) ?_; clear_value x; revert x; intro y hy; rotate_left; unfold x; clear x)
        | (revert x; intro y))
    | simp (disch := with_unfolding_all (apply Parts.same; apply Eq.refl)) only [Only.set_iff]
    | with_reducible apply Only.foldl
    | with_reducible apply Only.foldl_fst
    | (refine Only.of_fst ‹_ = _› ?_)
    | (refine Only.of_snd ‹_ = _› ?_)
    | split
    | (intro)

theorem State.paramReport_only {p : Parts} {s t : State} {n : Nat} {f : Fetched} (hq : Parts.le (Parts.report.or { poison := true }) p = true) (h : Only p s t) : Only p s (State.paramReport t n f) := by
  refine Only.step hq h ?_
  unfold State.paramReport
  try dsimp -zeta only
  repeat' first
    | with_reducible assumption
    | with_reducible exact Only.refl _ _
    | ((with_reducible refine Parts.leq ?_); rfl)
    | with_reducible apply State.poisonCheck_only
    | (extract_lets +onlyGivenNames x; first
        | (refine Only.cut (p := (Parts.report.or { poison := true })) (s := t) (x := x) (fun hx => ?_) ?_; clear_value x; revert x; intro y hy; rotate_left; unfold x; clear x)
        | (refine Only.cut1 (p := (Parts.report.or { poison := true })) (s := t) (x := x) (fun hx => ?_) ?_; clear_value x; revert x; intro y hy; rotate_left; unfold x; clear x)
        | (refine Only.cut2 (p := (Parts.report.or { poison := true })) (s := t) (x := x) (fun hx => ?_) ?_; clear_value x; revert x; intro y hy; rotate_left; unfold x; clear x)
        | (revert x; intro y))
    | simp (disch := with_unfolding_all (apply Parts.same; apply Eq.refl)) only [Only.set_iff]
    | with_reducible apply Only.foldl
    | with_reducible apply Only.foldl_fst
    | (refine Only.of_fst ‹_ = _› ?_)
    | (refine Only.of_snd ‹_ = _› ?_)
    | split
    | (intro)

theorem State.dropFetched_only {p : Parts} {s t : State} {n : Nat} (hq : Parts.le { sq := true } p = true) (h : Only p s t) : Only p s (State.dropFetched t n) := by
  refine Only.step hq h ?_
  unfold State.dropFetched
  repeat' first
    | with_reducible exact Only.refl _ _
    | ((with_reducible refine Parts.leq ?_); rfl)
    | with_reducible apply State.setSq_only

theorem State.endHead_only {p : Parts} {s t : State} {n : Nat} {f : Fetched} {d : Done} (hq : Parts.le ((Parts.report.or Parts.memory).or { hostW := true, sq := true, pcie := true, heldWr := true, order := true, fab := true, tor := true, arr := true }) p = true) (h : Only p s t) : Only p s (State.endHead t n f d) := by
  refine Only.step hq h ?_
  unfold State.endHead
  try dsimp -zeta only
  repeat' first
    | with_reducible assumption
    | with_reducible exact Only.refl _ _
    | ((with_reducible refine Parts.leq ?_); rfl)
    | with_reducible apply State.completeFetched_only
    | with_reducible apply State.forgetPrefetch_only
    | with_reducible apply State.dropFetched_only
    | (extract_lets +onlyGivenNames x; first
        | (refine Only.cut (p := ((Parts.report.or Parts.memory).or { hostW := true, sq := true, pcie := true, heldWr := true, order := true, fab := true, tor := true, arr := true })) (s := t) (x := x) (fun hx => ?_) ?_; clear_value x; revert x; intro y hy; rotate_left; unfold x; clear x)
        | (refine Only.cut1 (p := ((Parts.report.or Parts.memory).or { hostW := true, sq := true, pcie := true, heldWr := true, order := true, fab := true, tor := true, arr := true })) (s := t) (x := x) (fun hx => ?_) ?_; clear_value x; revert x; intro y hy; rotate_left; unfold x; clear x)
        | (refine Only.cut2 (p := ((Parts.report.or Parts.memory).or { hostW := true, sq := true, pcie := true, heldWr := true, order := true, fab := true, tor := true, arr := true })) (s := t) (x := x) (fun hx => ?_) ?_; clear_value x; revert x; intro y hy; rotate_left; unfold x; clear x)
        | (revert x; intro y))
    | simp (disch := with_unfolding_all (apply Parts.same; apply Eq.refl)) only [Only.set_iff]
    | with_reducible apply Only.foldl
    | with_reducible apply Only.foldl_fst
    | (refine Only.of_fst ‹_ = _› ?_)
    | (refine Only.of_snd ‹_ = _› ?_)
    | split
    | (intro)

theorem State.takeEvents_only {p : Parts} {s t : State} {n : Nat} {f : Fetched} (hq : Parts.le { regs := true } p = true) (h : Only p s t) : Only p s (State.takeEvents t n f) := by
  refine Only.step hq h ?_
  unfold State.takeEvents
  try dsimp -zeta only
  repeat' first
    | with_reducible assumption
    | with_reducible exact Only.refl _ _
    | ((with_reducible refine Parts.leq ?_); rfl)
    | with_reducible apply State.lower_only
    | (extract_lets +onlyGivenNames x; first
        | (refine Only.cut (p := { regs := true }) (s := t) (x := x) (fun hx => ?_) ?_; clear_value x; revert x; intro y hy; rotate_left; unfold x; clear x)
        | (refine Only.cut1 (p := { regs := true }) (s := t) (x := x) (fun hx => ?_) ?_; clear_value x; revert x; intro y hy; rotate_left; unfold x; clear x)
        | (refine Only.cut2 (p := { regs := true }) (s := t) (x := x) (fun hx => ?_) ?_; clear_value x; revert x; intro y hy; rotate_left; unfold x; clear x)
        | (revert x; intro y))
    | simp (disch := with_unfolding_all (apply Parts.same; apply Eq.refl)) only [Only.set_iff]
    | with_reducible apply Only.foldl
    | with_reducible apply Only.foldl_fst
    | (refine Only.of_fst ‹_ = _› ?_)
    | (refine Only.of_snd ‹_ = _› ?_)
    | split
    | (intro)

theorem State.startOn_only {p : Parts} {s t : State} {n : Nat} {f : Fetched} {fn : Nat} {x4 : List Byte} (hq : Parts.le ((Parts.report.or Parts.memory).or { rrLast := true, sq := true, started := true, heldWr := true, order := true, fab := true, tor := true, freeCtr := true, arr := true, upd := true, pwr := true }) p = true) (h : Only p s t) : Only p s (State.startOn t n f fn x4) := by
  refine Only.step hq h ?_
  unfold State.startOn
  try dsimp -zeta only
  repeat' first
    | with_reducible assumption
    | with_reducible exact Only.refl _ _
    | ((with_reducible refine Parts.leq ?_); rfl)
    | with_reducible apply State.dropFetched_only
    | with_reducible apply State.startArray_only
    | with_reducible apply State.startUpd_only
    | (extract_lets +onlyGivenNames x; first
        | (refine Only.cut (p := ((Parts.report.or Parts.memory).or { rrLast := true, sq := true, started := true, heldWr := true, order := true, fab := true, tor := true, freeCtr := true, arr := true, upd := true, pwr := true })) (s := t) (x := x) (fun hx => ?_) ?_; clear_value x; revert x; intro y hy; rotate_left; unfold x; clear x)
        | (refine Only.cut1 (p := ((Parts.report.or Parts.memory).or { rrLast := true, sq := true, started := true, heldWr := true, order := true, fab := true, tor := true, freeCtr := true, arr := true, upd := true, pwr := true })) (s := t) (x := x) (fun hx => ?_) ?_; clear_value x; revert x; intro y hy; rotate_left; unfold x; clear x)
        | (refine Only.cut2 (p := ((Parts.report.or Parts.memory).or { rrLast := true, sq := true, started := true, heldWr := true, order := true, fab := true, tor := true, freeCtr := true, arr := true, upd := true, pwr := true })) (s := t) (x := x) (fun hx => ?_) ?_; clear_value x; revert x; intro y hy; rotate_left; unfold x; clear x)
        | (revert x; intro y))
    | simp (disch := with_unfolding_all (apply Parts.same; apply Eq.refl)) only [Only.set_iff]
    | with_reducible apply Only.foldl
    | with_reducible apply Only.foldl_fst
    | (refine Only.of_fst ‹_ = _› ?_)
    | (refine Only.of_snd ‹_ = _› ?_)
    | split
    | (intro)

theorem State.aboutToStart_only {p : Parts} {s t : State} {t2 : State} {n : Nat} {f : Fetched} {ext : List Byte} (hq : Parts.le ((Parts.report.or Parts.memory).or { rrLast := true, hostW := true, sq := true, started := true, pcie := true, heldWr := true, order := true, fab := true, tor := true, freeCtr := true, arr := true, upd := true, pwr := true }) p = true) (h : Only p s t) (h2 : Only p s t2) : Only p s (State.aboutToStart t t2 n f ext) := by
  unfold State.aboutToStart
  try dsimp -zeta only
  repeat' first
    | with_reducible assumption
    | with_reducible exact Only.refl _ _
    | ((with_reducible refine Parts.leq ?_); exact Parts.le_trans rfl hq)
    | with_reducible apply State.paramOf_only
    | with_reducible apply State.endHead_only
    | with_reducible apply State.report_only
    | with_reducible apply State.paramReport_only
    | with_reducible apply State.startOn_only
    | (extract_lets +onlyGivenNames x; first
        | (refine Only.cut (p := p) (s := s) (x := x) (fun hx => ?_) ?_; clear_value x; revert x; intro y hy; rotate_left; unfold x; clear x)
        | (refine Only.cut1 (p := p) (s := s) (x := x) (fun hx => ?_) ?_; clear_value x; revert x; intro y hy; rotate_left; unfold x; clear x)
        | (refine Only.cut2 (p := p) (s := s) (x := x) (fun hx => ?_) ?_; clear_value x; revert x; intro y hy; rotate_left; unfold x; clear x)
        | (revert x; intro y))
    | simp (disch := with_unfolding_all (apply Parts.same; apply Eq.refl)) only [Only.set_iff]
    | with_reducible apply Only.foldl
    | with_reducible apply Only.foldl_fst
    | (refine Only.of_fst ‹_ = _› ?_)
    | (refine Only.of_snd ‹_ = _› ?_)
    | split
    | (intro)

theorem startNext_only {p : Parts} {s t : State} {n : Nat} {f : Fetched} {ext : List Byte} (hq : Parts.le ((Parts.report.or Parts.memory).or { rrLast := true, hostW := true, sq := true, started := true, pcie := true, heldWr := true, order := true, fab := true, tor := true, freeCtr := true, arr := true, upd := true, pwr := true }) p = true) (h : Only p s t) : Only p s (startNext t n f ext) := by
  refine Only.step hq h ?_
  unfold startNext
  try dsimp -zeta only
  repeat' first
    | with_reducible assumption
    | with_reducible exact Only.refl _ _
    | ((with_reducible refine Parts.leq ?_); rfl)
    | with_reducible apply State.endHead_only
    | with_reducible apply State.takeEvents_only
    | with_reducible apply State.fput_only
    | with_reducible apply State.aboutToStart_only
    | (extract_lets +onlyGivenNames x; first
        | (refine Only.cut (p := ((Parts.report.or Parts.memory).or { rrLast := true, hostW := true, sq := true, started := true, pcie := true, heldWr := true, order := true, fab := true, tor := true, freeCtr := true, arr := true, upd := true, pwr := true })) (s := t) (x := x) (fun hx => ?_) ?_; clear_value x; revert x; intro y hy; rotate_left; unfold x; clear x)
        | (refine Only.cut1 (p := ((Parts.report.or Parts.memory).or { rrLast := true, hostW := true, sq := true, started := true, pcie := true, heldWr := true, order := true, fab := true, tor := true, freeCtr := true, arr := true, upd := true, pwr := true })) (s := t) (x := x) (fun hx => ?_) ?_; clear_value x; revert x; intro y hy; rotate_left; unfold x; clear x)
        | (refine Only.cut2 (p := ((Parts.report.or Parts.memory).or { rrLast := true, hostW := true, sq := true, started := true, pcie := true, heldWr := true, order := true, fab := true, tor := true, freeCtr := true, arr := true, upd := true, pwr := true })) (s := t) (x := x) (fun hx => ?_) ?_; clear_value x; revert x; intro y hy; rotate_left; unfold x; clear x)
        | (revert x; intro y))
    | simp (disch := with_unfolding_all (apply Parts.same; apply Eq.refl)) only [Only.set_iff]
    | with_reducible apply Only.foldl
    | with_reducible apply Only.foldl_fst
    | (refine Only.of_fst ‹_ = _› ?_)
    | (refine Only.of_snd ‹_ = _› ?_)
    | split
    | (intro)

theorem execDescriptorStart_only {s u : State} {n : Nat} {param : List Byte} {ecc : EccFinds} (e : execDescriptorStart n param ecc s = .next u) : Only ((Parts.report.or Parts.memory).or { rrLast := true, hostW := true, sq := true, started := true, pcie := true, heldWr := true, order := true, fab := true, tor := true, freeCtr := true, arr := true, upd := true, pwr := true }) s u := by
  unfold execDescriptorStart at e
  injection e with e
  subst e
  try dsimp -zeta only
  repeat' first
    | with_reducible assumption
    | with_reducible exact Only.refl _ _
    | ((with_reducible refine Parts.leq ?_); rfl)
    | with_reducible apply State.eccAll_only
    | with_reducible apply startNext_only
    | (extract_lets +onlyGivenNames x; first
        | (refine Only.cut (p := ((Parts.report.or Parts.memory).or { rrLast := true, hostW := true, sq := true, started := true, pcie := true, heldWr := true, order := true, fab := true, tor := true, freeCtr := true, arr := true, upd := true, pwr := true })) (s := s) (x := x) (fun hx => ?_) ?_; clear_value x; revert x; intro y hy; rotate_left; unfold x; clear x)
        | (refine Only.cut1 (p := ((Parts.report.or Parts.memory).or { rrLast := true, hostW := true, sq := true, started := true, pcie := true, heldWr := true, order := true, fab := true, tor := true, freeCtr := true, arr := true, upd := true, pwr := true })) (s := s) (x := x) (fun hx => ?_) ?_; clear_value x; revert x; intro y hy; rotate_left; unfold x; clear x)
        | (refine Only.cut2 (p := ((Parts.report.or Parts.memory).or { rrLast := true, hostW := true, sq := true, started := true, pcie := true, heldWr := true, order := true, fab := true, tor := true, freeCtr := true, arr := true, upd := true, pwr := true })) (s := s) (x := x) (fun hx => ?_) ?_; clear_value x; revert x; intro y hy; rotate_left; unfold x; clear x)
        | (revert x; intro y))
    | simp (disch := with_unfolding_all (apply Parts.same; apply Eq.refl)) only [Only.set_iff]
    | with_reducible apply Only.foldl
    | with_reducible apply Only.foldl_fst
    | (refine Only.of_fst ‹_ = _› ?_)
    | (refine Only.of_snd ‹_ = _› ?_)
    | split
    | (intro)

end Sys2Proof.Machine
end

