-- ==== Sys2Proof/Laws/OnlyReceive.lean ====
section
/-!
SUPPORT. Which parts of the state the operations of Machine/Receive.lean may change (Safety.lean).
-/
namespace Sys2Proof.Machine

open Sys2Proof

theorem State.refuse_only {p : Parts} {s t : State} {r : Nat} {k : Packet} {err : Nat} (hq : Parts.le { regs := true, fab := true, tor := true } p = true) (h : Only p s t) : Only p s (State.refuse t r k err) := by
  refine Only.step hq h ?_
  unfold State.refuse
  try dsimp -zeta only
  repeat' first
    | with_reducible assumption
    | with_reducible exact Only.refl _ _
    | ((with_reducible refine Parts.leq ?_); rfl)
    | with_reducible apply State.send_only
    | (extract_lets +onlyGivenNames x; first
        | (refine Only.cut (p := { regs := true, fab := true, tor := true }) (s := t) (x := x) (fun hx => ?_) ?_; clear_value x; revert x; intro y hy; rotate_left; unfold x; clear x)
        | (refine Only.cut1 (p := { regs := true, fab := true, tor := true }) (s := t) (x := x) (fun hx => ?_) ?_; clear_value x; revert x; intro y hy; rotate_left; unfold x; clear x)
        | (refine Only.cut2 (p := { regs := true, fab := true, tor := true }) (s := t) (x := x) (fun hx => ?_) ?_; clear_value x; revert x; intro y hy; rotate_left; unfold x; clear x)
        | (revert x; intro y))
    | simp (disch := with_unfolding_all (apply Parts.same; apply Eq.refl)) only [Only.set_iff]
    | with_reducible apply Only.foldl
    | with_reducible apply Only.foldl_fst
    | (refine Only.of_fst ‹_ = _› ?_)
    | (refine Only.of_snd ‹_ = _› ?_)
    | split
    | (intro)

theorem State.writeRequest_only {p : Parts} {s t : State} {r : Nat} {k : Packet} (hq : Parts.le (Parts.most.or { evr := true }) p = true) (h : Only p s t) : Only p s (State.writeRequest t r k) := by
  refine Only.step hq h ?_
  unfold State.writeRequest
  repeat' first
    | with_reducible exact Only.refl _ _
    | ((with_reducible refine Parts.leq ?_); rfl)
    | with_reducible apply State.serveWrite_only
    | with_reducible apply State.refuse_only
    | with_reducible apply State.send_only
    | (extract_lets +onlyGivenNames x; first
        | (revert x; intro y))
    | split

theorem State.takeRead_only {p : Parts} {s t u : State} {tag : Nat} {x : RemRead} (hq : Parts.le { flt := true, fab := true } p = true) (h : Only p s t) (e : State.takeRead t tag = some (x, u)) :
    Only p s u := by
  unfold State.takeRead at e
  split at e
  · injection e with e
    injection e with e1 e2
    subst e2
    exact Only.step hq h (Only.set rfl (Only.refl _ _))
  · contradiction

theorem State.readAnswered_only {p : Parts} {s t : State} {k : Packet} (hq : Parts.le (Parts.report.or { genStale := true, fab := true, tor := true, trelfort := true }) p = true) (h : Only p s t) : Only p s (State.readAnswered t k) := by
  refine Only.step hq h ?_
  unfold State.readAnswered
  try dsimp -zeta only
  repeat' first
    | with_reducible assumption
    | with_reducible exact Only.refl _ _
    | ((with_reducible refine Parts.leq ?_); rfl)
    | refine State.takeRead_only ?_ ?_ ‹_›
    | refine State.takeRead_only ?_ ?_ (some_of_ite ‹_›)
    | with_reducible apply State.replyRead_only
    | with_reducible apply State.dropStale_only
    | (extract_lets +onlyGivenNames x; first
        | (refine Only.cut (p := (Parts.report.or { genStale := true, fab := true, tor := true, trelfort := true })) (s := t) (x := x) (fun hx => ?_) ?_; clear_value x; revert x; intro y hy; rotate_left; unfold x; clear x)
        | (refine Only.cut1 (p := (Parts.report.or { genStale := true, fab := true, tor := true, trelfort := true })) (s := t) (x := x) (fun hx => ?_) ?_; clear_value x; revert x; intro y hy; rotate_left; unfold x; clear x)
        | (refine Only.cut2 (p := (Parts.report.or { genStale := true, fab := true, tor := true, trelfort := true })) (s := t) (x := x) (fun hx => ?_) ?_; clear_value x; revert x; intro y hy; rotate_left; unfold x; clear x)
        | (revert x; intro y))
    | simp (disch := with_unfolding_all (apply Parts.same; apply Eq.refl)) only [Only.set_iff]
    | with_reducible apply Only.foldl
    | with_reducible apply Only.foldl_fst
    | (refine Only.of_fst ‹_ = _› ?_)
    | (refine Only.of_snd ‹_ = _› ?_)
    | split
    | (intro)

theorem State.sealWhole_only {p : Parts} {s t : State} {k : Packet} {ps : List (Nat × Nat)} (hq : Parts.le { hbm := true, staging := true, stagTag := true, dirty := true, rowsIn := true } p = true) (h : Only p s t) : Only p s (State.sealWhole t k ps) := by
  refine Only.step hq h ?_
  unfold State.sealWhole
  try dsimp -zeta only
  repeat' first
    | with_reducible assumption
    | with_reducible exact Only.refl _ _
    | ((with_reducible refine Parts.leq ?_); rfl)
    | with_reducible apply State.sealPage_only
    | (extract_lets +onlyGivenNames x; first
        | (refine Only.cut (p := { hbm := true, staging := true, stagTag := true, dirty := true, rowsIn := true }) (s := t) (x := x) (fun hx => ?_) ?_; clear_value x; revert x; intro y hy; rotate_left; unfold x; clear x)
        | (refine Only.cut1 (p := { hbm := true, staging := true, stagTag := true, dirty := true, rowsIn := true }) (s := t) (x := x) (fun hx => ?_) ?_; clear_value x; revert x; intro y hy; rotate_left; unfold x; clear x)
        | (refine Only.cut2 (p := { hbm := true, staging := true, stagTag := true, dirty := true, rowsIn := true }) (s := t) (x := x) (fun hx => ?_) ?_; clear_value x; revert x; intro y hy; rotate_left; unfold x; clear x)
        | (revert x; intro y))
    | simp (disch := with_unfolding_all (apply Parts.same; apply Eq.refl)) only [Only.set_iff]
    | with_reducible apply Only.foldl
    | with_reducible apply Only.foldl_fst
    | (refine Only.of_fst ‹_ = _› ?_)
    | (refine Only.of_snd ‹_ = _› ?_)
    | split
    | (intro)

theorem State.rowWrite_only {p : Parts} {s t : State} {r : Nat} {k : Packet} (hq : Parts.le ((Parts.report.or Parts.memory).or { started := true, heldWr := true, arr := true, sump := true, rowsIn := true }) p = true) (h : Only p s t) : Only p s (State.rowWrite t r k) := by
  refine Only.step hq h ?_
  unfold State.rowWrite
  try dsimp -zeta only
  repeat' first
    | with_reducible assumption
    | with_reducible exact Only.refl _ _
    | ((with_reducible refine Parts.leq ?_); rfl)
    | with_reducible apply State.sealWhole_only
    | with_reducible apply State.awareWrites_only
    | (extract_lets +onlyGivenNames x; first
        | (refine Only.cut (p := ((Parts.report.or Parts.memory).or { started := true, heldWr := true, arr := true, sump := true, rowsIn := true })) (s := t) (x := x) (fun hx => ?_) ?_; clear_value x; revert x; intro y hy; rotate_left; unfold x; clear x)
        | (refine Only.cut1 (p := ((Parts.report.or Parts.memory).or { started := true, heldWr := true, arr := true, sump := true, rowsIn := true })) (s := t) (x := x) (fun hx => ?_) ?_; clear_value x; revert x; intro y hy; rotate_left; unfold x; clear x)
        | (refine Only.cut2 (p := ((Parts.report.or Parts.memory).or { started := true, heldWr := true, arr := true, sump := true, rowsIn := true })) (s := t) (x := x) (fun hx => ?_) ?_; clear_value x; revert x; intro y hy; rotate_left; unfold x; clear x)
        | (revert x; intro y))
    | simp (disch := with_unfolding_all (apply Parts.same; apply Eq.refl)) only [Only.set_iff]
    | with_reducible apply Only.foldl
    | with_reducible apply Only.foldl_fst
    | (refine Only.of_fst ‹_ = _› ?_)
    | (refine Only.of_snd ‹_ = _› ?_)
    | split
    | (intro)

theorem State.servePacket_only {p : Parts} {s t : State} {r : Nat} {k : Packet} (hq : Parts.le (Parts.most.or { evr := true }) p = true) (h : Only p s t) : Only p s (State.servePacket t r k) := by
  refine Only.step hq h ?_
  unfold State.servePacket
  repeat' first
    | with_reducible exact Only.refl _ _
    | ((with_reducible refine Parts.leq ?_); rfl)
    | with_reducible apply State.serveRead_only
    | with_reducible apply State.serveWrite_only
    | with_reducible apply State.writeRequest_only
    | with_reducible apply State.rowWrite_only
    | with_reducible apply State.readAnswered_only
    | split

theorem State.ingress_only {p : Parts} {s t : State} {r : Nat} {q : Nat} {k : Packet} (hq : Parts.le (Parts.most.or { evr := true }) p = true) (h : Only p s t) : Only p s (State.ingress t r q k) := by
  refine Only.step hq h ?_
  unfold State.ingress
  repeat' first
    | with_reducible exact Only.refl _ _
    | ((with_reducible refine Parts.leq ?_); rfl)
    | with_reducible apply State.servePacket_only
    | with_reducible apply State.deliver_only
    | with_reducible apply State.discardPacket_only
    | with_reducible apply State.forward_only
    | split

theorem execPacketReceive_only {s u : State} {r : Nat} {x1 : Option Nat} {pkt : Packet} {ecc : EccFinds} (e : execPacketReceive r x1 pkt ecc s = .next u) : Only (Parts.most.or { evr := true }) s u := by
  unfold execPacketReceive at e
  injection e with e
  subst e
  try dsimp -zeta only
  repeat' first
    | with_reducible assumption
    | with_reducible exact Only.refl _ _
    | ((with_reducible refine Parts.leq ?_); rfl)
    | with_reducible apply State.eccAll_only
    | refine State.takeInbox_only ?_ ?_ ‹_›
    | refine State.takeInbox_only ?_ ?_ (some_of_ite ‹_›)
    | with_reducible apply State.clearMgmt_only
    | with_reducible apply State.ingress_only
    | refine State.take_only ?_ ?_ ‹_›
    | refine State.take_only ?_ ?_ (some_of_ite ‹_›)
    | with_reducible apply State.servePacket_only
    | (extract_lets +onlyGivenNames x; first
        | (refine Only.cut (p := (Parts.most.or { evr := true })) (s := s) (x := x) (fun hx => ?_) ?_; clear_value x; revert x; intro y hy; rotate_left; unfold x; clear x)
        | (refine Only.cut1 (p := (Parts.most.or { evr := true })) (s := s) (x := x) (fun hx => ?_) ?_; clear_value x; revert x; intro y hy; rotate_left; unfold x; clear x)
        | (refine Only.cut2 (p := (Parts.most.or { evr := true })) (s := s) (x := x) (fun hx => ?_) ?_; clear_value x; revert x; intro y hy; rotate_left; unfold x; clear x)
        | (revert x; intro y))
    | simp (disch := with_unfolding_all (apply Parts.same; apply Eq.refl)) only [Only.set_iff]
    | with_reducible apply Only.foldl
    | with_reducible apply Only.foldl_fst
    | (refine Only.of_fst ‹_ = _› ?_)
    | (refine Only.of_snd ‹_ = _› ?_)
    | split
    | (intro)

theorem State.gatherError_only {p : Parts} {s t : State} {k : Packet} (hq : Parts.le (Parts.report.or { genStale := true, started := true, gathers := true }) p = true) (h : Only p s t) : Only p s (State.gatherError t k) := by
  refine Only.step hq h ?_
  unfold State.gatherError
  repeat' first
    | with_reducible exact Only.refl _ _
    | ((with_reducible refine Parts.leq ?_); rfl)
    | with_reducible apply State.dropStale_only
    | with_reducible apply State.endGather_only
    | with_reducible apply State.unmapped_only
    | split

theorem State.rankError_only {p : Parts} {s t : State} {k : Packet} (hq : Parts.le (Parts.report.or { genStale := true, started := true, ranks := true }) p = true) (h : Only p s t) : Only p s (State.rankError t k) := by
  refine Only.step hq h ?_
  unfold State.rankError
  repeat' first
    | with_reducible exact Only.refl _ _
    | ((with_reducible refine Parts.leq ?_); rfl)
    | with_reducible apply State.dropStale_only
    | with_reducible apply State.finishRank_only
    | with_reducible apply State.unmapped_only
    | split

theorem State.treeError_only {p : Parts} {s t : State} {k : Packet} (hq : Parts.le ((Parts.report.or Parts.memory).or { sq := true, started := true, heldWr := true, order := true, fab := true, tor := true, arr := true, caddy := true }) p = true) (h : Only p s t) : Only p s (State.treeError t k) := by
  refine Only.step hq h ?_
  unfold State.treeError
  try dsimp -zeta only
  repeat' first
    | with_reducible assumption
    | with_reducible exact Only.refl _ _
    | ((with_reducible refine Parts.leq ?_); rfl)
    | with_reducible apply State.ropeUnanswered_only
    | with_reducible apply State.caddyAnswered_only
    | (extract_lets +onlyGivenNames x; first
        | (refine Only.cut (p := ((Parts.report.or Parts.memory).or { sq := true, started := true, heldWr := true, order := true, fab := true, tor := true, arr := true, caddy := true })) (s := t) (x := x) (fun hx => ?_) ?_; clear_value x; revert x; intro y hy; rotate_left; unfold x; clear x)
        | (refine Only.cut1 (p := ((Parts.report.or Parts.memory).or { sq := true, started := true, heldWr := true, order := true, fab := true, tor := true, arr := true, caddy := true })) (s := t) (x := x) (fun hx => ?_) ?_; clear_value x; revert x; intro y hy; rotate_left; unfold x; clear x)
        | (refine Only.cut2 (p := ((Parts.report.or Parts.memory).or { sq := true, started := true, heldWr := true, order := true, fab := true, tor := true, arr := true, caddy := true })) (s := t) (x := x) (fun hx => ?_) ?_; clear_value x; revert x; intro y hy; rotate_left; unfold x; clear x)
        | (revert x; intro y))
    | simp (disch := with_unfolding_all (apply Parts.same; apply Eq.refl)) only [Only.set_iff]
    | with_reducible apply Only.foldl
    | with_reducible apply Only.foldl_fst
    | (refine Only.of_fst ‹_ = _› ?_)
    | (refine Only.of_snd ‹_ = _› ?_)
    | split
    | (intro)

theorem State.readError_only {p : Parts} {s t : State} {k : Packet} (hq : Parts.le (Parts.report.or { genStale := true, fab := true, tor := true, trelfort := true }) p = true) (h : Only p s t) : Only p s (State.readError t k) := by
  refine Only.step hq h ?_
  unfold State.readError
  try dsimp -zeta only
  repeat' first
    | with_reducible assumption
    | with_reducible exact Only.refl _ _
    | ((with_reducible refine Parts.leq ?_); rfl)
    | refine State.takeRead_only ?_ ?_ ‹_›
    | refine State.takeRead_only ?_ ?_ (some_of_ite ‹_›)
    | with_reducible apply State.unmapped_only
    | with_reducible apply State.replyRead_only
    | with_reducible apply State.dropStale_only
    | (extract_lets +onlyGivenNames x; first
        | (refine Only.cut (p := (Parts.report.or { genStale := true, fab := true, tor := true, trelfort := true })) (s := t) (x := x) (fun hx => ?_) ?_; clear_value x; revert x; intro y hy; rotate_left; unfold x; clear x)
        | (refine Only.cut1 (p := (Parts.report.or { genStale := true, fab := true, tor := true, trelfort := true })) (s := t) (x := x) (fun hx => ?_) ?_; clear_value x; revert x; intro y hy; rotate_left; unfold x; clear x)
        | (refine Only.cut2 (p := (Parts.report.or { genStale := true, fab := true, tor := true, trelfort := true })) (s := t) (x := x) (fun hx => ?_) ?_; clear_value x; revert x; intro y hy; rotate_left; unfold x; clear x)
        | (revert x; intro y))
    | simp (disch := with_unfolding_all (apply Parts.same; apply Eq.refl)) only [Only.set_iff]
    | with_reducible apply Only.foldl
    | with_reducible apply Only.foldl_fst
    | (refine Only.of_fst ‹_ = _› ?_)
    | (refine Only.of_snd ‹_ = _› ?_)
    | split
    | (intro)

theorem execErrorReplyReceive_only {s u : State} {pkt : Packet} (e : execErrorReplyReceive pkt s = .next u) : Only ((Parts.report.or Parts.memory).or { genStale := true, sq := true, started := true, heldWr := true, order := true, fab := true, tor := true, arr := true, gathers := true, ranks := true, trelfort := true, caddy := true }) s u := by
  unfold execErrorReplyReceive at e
  injection e with e
  subst e
  try dsimp -zeta only
  repeat' first
    | with_reducible assumption
    | with_reducible exact Only.refl _ _
    | ((with_reducible refine Parts.leq ?_); rfl)
    | refine State.take_only ?_ ?_ ‹_›
    | refine State.take_only ?_ ?_ (some_of_ite ‹_›)
    | with_reducible apply State.gatherError_only
    | with_reducible apply State.rankError_only
    | with_reducible apply State.treeError_only
    | with_reducible apply State.readError_only
    | (extract_lets +onlyGivenNames x; first
        | (refine Only.cut (p := ((Parts.report.or Parts.memory).or { genStale := true, sq := true, started := true, heldWr := true, order := true, fab := true, tor := true, arr := true, gathers := true, ranks := true, trelfort := true, caddy := true })) (s := s) (x := x) (fun hx => ?_) ?_; clear_value x; revert x; intro y hy; rotate_left; unfold x; clear x)
        | (refine Only.cut1 (p := ((Parts.report.or Parts.memory).or { genStale := true, sq := true, started := true, heldWr := true, order := true, fab := true, tor := true, arr := true, gathers := true, ranks := true, trelfort := true, caddy := true })) (s := s) (x := x) (fun hx => ?_) ?_; clear_value x; revert x; intro y hy; rotate_left; unfold x; clear x)
        | (refine Only.cut2 (p := ((Parts.report.or Parts.memory).or { genStale := true, sq := true, started := true, heldWr := true, order := true, fab := true, tor := true, arr := true, gathers := true, ranks := true, trelfort := true, caddy := true })) (s := s) (x := x) (fun hx => ?_) ?_; clear_value x; revert x; intro y hy; rotate_left; unfold x; clear x)
        | (revert x; intro y))
    | simp (disch := with_unfolding_all (apply Parts.same; apply Eq.refl)) only [Only.set_iff]
    | with_reducible apply Only.foldl
    | with_reducible apply Only.foldl_fst
    | (refine Only.of_fst ‹_ = _› ?_)
    | (refine Only.of_snd ‹_ = _› ?_)
    | split
    | (intro)

end Sys2Proof.Machine
end

