-- ==== Sys2Proof/Laws/OnlyVeOp.lean ====
section
/-!
SUPPORT. Which parts of the state the operations of Machine/VeOp.lean may change (Safety.lean).
-/
namespace Sys2Proof.Machine

open Sys2Proof

theorem State.veEvents_only {p : Parts} {s t : State} {b : List Byte} {v : VeP} {blocks : List Nat} (hq : Parts.le { obs := true, arr := true } p = true) (h : Only p s t) : Only p s (State.veEvents t b v blocks) := by
  refine Only.step hq h ?_
  unfold State.veEvents
  try dsimp -zeta only
  repeat' first
    | with_reducible assumption
    | with_reducible exact Only.refl _ _
    | ((with_reducible refine Parts.leq ?_); rfl)
    | with_reducible apply State.arrEvents_only
    | (extract_lets +onlyGivenNames x; first
        | (refine Only.cut (p := { obs := true, arr := true }) (s := t) (x := x) (fun hx => ?_) ?_; clear_value x; revert x; intro y hy; rotate_left; unfold x; clear x)
        | (refine Only.cut1 (p := { obs := true, arr := true }) (s := t) (x := x) (fun hx => ?_) ?_; clear_value x; revert x; intro y hy; rotate_left; unfold x; clear x)
        | (refine Only.cut2 (p := { obs := true, arr := true }) (s := t) (x := x) (fun hx => ?_) ?_; clear_value x; revert x; intro y hy; rotate_left; unfold x; clear x)
        | (revert x; intro y))
    | simp (disch := with_unfolding_all (apply Parts.same; apply Eq.refl)) only [Only.set_iff]
    | with_reducible apply Only.foldl
    | with_reducible apply Only.foldl_fst
    | (refine Only.of_fst ‹_ = _› ?_)
    | (refine Only.of_snd ‹_ = _› ?_)
    | split
    | (intro)

theorem State.veRun_only {p : Parts} {s t : State} {c : Ctx} {v : VeP} {step : Nat} (hq : Parts.le ((Parts.report.or Parts.memory).or { started := true, heldWr := true, arr := true, sump := true }) p = true) (h : Only p s t) : Only p s (State.veRun t c v step).1 := by
  refine Only.step hq h ?_
  unfold State.veRun
  try dsimp -zeta only
  repeat' first
    | with_reducible assumption
    | with_reducible exact Only.refl _ _
    | ((with_reducible refine Parts.leq ?_); rfl)
    | with_reducible apply State.awareChecks_only
    | with_reducible apply State.awareWrites_only
    | (extract_lets +onlyGivenNames x; first
        | (refine Only.cut (p := ((Parts.report.or Parts.memory).or { started := true, heldWr := true, arr := true, sump := true })) (s := t) (x := x) (fun hx => ?_) ?_; clear_value x; revert x; intro y hy; rotate_left; unfold x; clear x)
        | (refine Only.cut1 (p := ((Parts.report.or Parts.memory).or { started := true, heldWr := true, arr := true, sump := true })) (s := t) (x := x) (fun hx => ?_) ?_; clear_value x; revert x; intro y hy; rotate_left; unfold x; clear x)
        | (refine Only.cut2 (p := ((Parts.report.or Parts.memory).or { started := true, heldWr := true, arr := true, sump := true })) (s := t) (x := x) (fun hx => ?_) ?_; clear_value x; revert x; intro y hy; rotate_left; unfold x; clear x)
        | (revert x; intro y))
    | simp (disch := with_unfolding_all (apply Parts.same; apply Eq.refl)) only [Only.set_iff]
    | with_reducible apply Only.foldl
    | with_reducible apply Only.foldl_fst
    | (refine Only.of_fst ‹_ = _› ?_)
    | (refine Only.of_snd ‹_ = _› ?_)
    | split
    | (intro)

theorem veOp_only {p : Parts} {s t : State} {r : ArrRun} {d : Started} (hq : Parts.le ((Parts.report.or Parts.memory).or { hostW := true, started := true, unconf := true, pcie := true, pages := true, heldWr := true, waitRd := true, order := true, fab := true, tor := true, arr := true, sump := true, ranks := true, quar := true, trelfort := true }) p = true) (h : Only p s t) : Only p s (veOp t r d) := by
  refine Only.step hq h ?_
  unfold veOp
  try dsimp -zeta only
  repeat' first
    | with_reducible assumption
    | with_reducible exact Only.refl _ _
    | ((with_reducible refine Parts.leq ?_); rfl)
    | with_reducible apply State.veRun_only
    | with_reducible apply State.veEvents_only
    | with_reducible apply State.endRun_only
    | with_reducible apply State.setDone_only
    | with_reducible apply State.settle_only
    | (extract_lets +onlyGivenNames x; first
        | (refine Only.cut (p := ((Parts.report.or Parts.memory).or { hostW := true, started := true, unconf := true, pcie := true, pages := true, heldWr := true, waitRd := true, order := true, fab := true, tor := true, arr := true, sump := true, ranks := true, quar := true, trelfort := true })) (s := t) (x := x) (fun hx => ?_) ?_; clear_value x; revert x; intro y hy; rotate_left; unfold x; clear x)
        | (refine Only.cut1 (p := ((Parts.report.or Parts.memory).or { hostW := true, started := true, unconf := true, pcie := true, pages := true, heldWr := true, waitRd := true, order := true, fab := true, tor := true, arr := true, sump := true, ranks := true, quar := true, trelfort := true })) (s := t) (x := x) (fun hx => ?_) ?_; clear_value x; revert x; intro y hy; rotate_left; unfold x; clear x)
        | (refine Only.cut2 (p := ((Parts.report.or Parts.memory).or { hostW := true, started := true, unconf := true, pcie := true, pages := true, heldWr := true, waitRd := true, order := true, fab := true, tor := true, arr := true, sump := true, ranks := true, quar := true, trelfort := true })) (s := t) (x := x) (fun hx => ?_) ?_; clear_value x; revert x; intro y hy; rotate_left; unfold x; clear x)
        | (revert x; intro y))
    | simp (disch := with_unfolding_all (apply Parts.same; apply Eq.refl)) only [Only.set_iff]
    | with_reducible apply Only.foldl
    | with_reducible apply Only.foldl_fst
    | (refine Only.of_fst ‹_ = _› ?_)
    | (refine Only.of_snd ‹_ = _› ?_)
    | split
    | (intro)

theorem execVeOp_only {s u : State} {n : Nat} {seq : Nat} {ecc : EccFinds} (e : execVeOp n seq ecc s = .next u) : Only ((Parts.report.or Parts.memory).or { hostW := true, started := true, unconf := true, pcie := true, pages := true, heldWr := true, waitRd := true, order := true, fab := true, tor := true, arr := true, sump := true, ranks := true, quar := true, trelfort := true }) s u := by
  unfold execVeOp at e
  injection e with e
  subst e
  try dsimp -zeta only
  repeat' first
    | with_reducible assumption
    | with_reducible exact Only.refl _ _
    | ((with_reducible refine Parts.leq ?_); rfl)
    | with_reducible apply State.eccAll_only
    | with_reducible apply veOp_only
    | (extract_lets +onlyGivenNames x; first
        | (refine Only.cut (p := ((Parts.report.or Parts.memory).or { hostW := true, started := true, unconf := true, pcie := true, pages := true, heldWr := true, waitRd := true, order := true, fab := true, tor := true, arr := true, sump := true, ranks := true, quar := true, trelfort := true })) (s := s) (x := x) (fun hx => ?_) ?_; clear_value x; revert x; intro y hy; rotate_left; unfold x; clear x)
        | (refine Only.cut1 (p := ((Parts.report.or Parts.memory).or { hostW := true, started := true, unconf := true, pcie := true, pages := true, heldWr := true, waitRd := true, order := true, fab := true, tor := true, arr := true, sump := true, ranks := true, quar := true, trelfort := true })) (s := s) (x := x) (fun hx => ?_) ?_; clear_value x; revert x; intro y hy; rotate_left; unfold x; clear x)
        | (refine Only.cut2 (p := ((Parts.report.or Parts.memory).or { hostW := true, started := true, unconf := true, pcie := true, pages := true, heldWr := true, waitRd := true, order := true, fab := true, tor := true, arr := true, sump := true, ranks := true, quar := true, trelfort := true })) (s := s) (x := x) (fun hx => ?_) ?_; clear_value x; revert x; intro y hy; rotate_left; unfold x; clear x)
        | (revert x; intro y))
    | simp (disch := with_unfolding_all (apply Parts.same; apply Eq.refl)) only [Only.set_iff]
    | with_reducible apply Only.foldl
    | with_reducible apply Only.foldl_fst
    | (refine Only.of_fst ‹_ = _› ?_)
    | (refine Only.of_snd ‹_ = _› ?_)
    | split
    | (intro)

end Sys2Proof.Machine
end

