-- ==== Sys2Proof/Laws/Regs.lean ====
section
/-!
SUPPORT. Reads after writes of registers and of their fields.
-/
namespace Sys2Proof.Machine

open Sys2Proof

/-! ### Fields of a word -/

/-- A field that lies in a word. -/
def Fld.ok (f : Fld) : Prop := f.lo ≤ f.hi ∧ f.hi < 64

theorem Fld.max_succ {f : Fld} : f.max + 1 = 2 ^ (f.hi + 1 - f.lo) := by
  have := Nat.two_pow_pos (f.hi + 1 - f.lo)
  unfold Fld.max
  omega

theorem Fld.get_testBit {f : Fld} {w : Word} {i : Nat} :
    (f.get w).testBit i = (decide (i < f.hi + 1 - f.lo) && w.toNat.testBit (f.lo + i)) := by
  simp only [Fld.get, bitsOf, Nat.testBit_mod_two_pow, Nat.testBit_div_two_pow, Nat.add_comm]

theorem Fld.mask_testBit {f : Fld} (h : f.ok) {i : Nat} : f.mask.toNat.testBit i = decide (f.lo ≤ i ∧ i ≤ f.hi) := by
  obtain ⟨h1, h2⟩ := h
  have e : f.max = 2 ^ (f.hi + 1 - f.lo) - 1 := rfl
  rw [Fld.mask, BitVec.toNat_ofNat, Nat.testBit_mod_two_pow, Nat.testBit_mul_two_pow, e, Nat.testBit_two_pow_sub_one]
  by_cases a : f.lo ≤ i <;> by_cases b : i ≤ f.hi <;> simp [a, b] <;> omega

theorem Fld.put_testBit {f : Fld} (h : f.ok) {w : Word} {v i : Nat} :
    (f.put w v).toNat.testBit i = if f.lo ≤ i ∧ i ≤ f.hi then v.testBit (i - f.lo) else w.toNat.testBit i := by
  have hm := Fld.mask_testBit h (i := i)
  obtain ⟨h1, h2⟩ := h
  have key : (f.put w v).getLsbD i = if f.lo ≤ i ∧ i ≤ f.hi then v.testBit (i - f.lo) else w.getLsbD i := by
    by_cases hi : i < 64
    · have hk : f.mask.getLsbD i = decide (f.lo ≤ i ∧ i ≤ f.hi) := hm
      rw [Fld.put, BitVec.getLsbD_or, BitVec.getLsbD_and, BitVec.getLsbD_not, hk, Fld.max_succ, BitVec.getLsbD_ofNat,
        Nat.testBit_mul_two_pow, Nat.testBit_mod_two_pow]
      by_cases a : f.lo ≤ i <;> by_cases b : i ≤ f.hi <;> simp [a, b, hi] <;> omega
    · rw [BitVec.getLsbD_of_ge _ _ (by omega), BitVec.getLsbD_of_ge _ _ (by omega), if_neg (by omega)]
  exact key

/-- A field reads as what was put into it, reduced to its width. -/
theorem Fld.get_put {f : Fld} (h : f.ok) {w : Word} {v : Nat} : f.get (f.put w v) = v % (f.max + 1) := by
  apply Nat.eq_of_testBit_eq
  intro i
  rw [Fld.get_testBit, Fld.put_testBit h, Fld.max_succ, Nat.testBit_mod_two_pow]
  by_cases hi : i < f.hi + 1 - f.lo
  · rw [if_pos (by omega)]
    simp [hi]
  · simp [hi]

/-- A field is left alone by a write of a field that does not meet it. -/
theorem Fld.get_put_ne {f g : Fld} (hg : g.ok) (hd : f.hi < g.lo ∨ g.hi < f.lo) {w : Word} {v : Nat} : f.get (g.put w v) = f.get w := by
  apply Nat.eq_of_testBit_eq
  intro i
  rw [Fld.get_testBit, Fld.get_testBit, Fld.put_testBit hg]
  by_cases hi : i < f.hi + 1 - f.lo
  · rw [if_neg (by omega)]
  · simp [hi]

/-! ### Registers -/

variable {s : State}

theorem State.reg_setReg (h : tblWf regReset s.regs = true) {o o' : Nat} {w : Word} :
    (s.setReg o w).reg o' = if o' = o then w else s.reg o' := tblGet_put regReset ((tblWf_iff regReset).mp h).1

theorem State.setReg_wf (h : tblWf regReset s.regs = true) {o : Nat} {w : Word} : tblWf regReset (s.setReg o w).regs = true := tblWf_put regReset h

theorem State.fput_wf (h : tblWf regReset s.regs = true) {o : Nat} {f : Fld} {v : Nat} : tblWf regReset (s.fput o f v).regs = true :=
  State.setReg_wf h

/-- A register keeps its word when a field of another one is set. -/
theorem State.reg_fput_ne (h : tblWf regReset s.regs = true) {o o' : Nat} {f : Fld} {v : Nat} (hne : o' ≠ o) :
    (s.fput o f v).reg o' = s.reg o' := by
  rw [State.fput, State.reg_setReg h, if_neg hne]

theorem State.reg_fput_same (h : tblWf regReset s.regs = true) {o : Nat} {f : Fld} {v : Nat} :
    (s.fput o f v).reg o = f.put (s.reg o) v := by
  rw [State.fput, State.reg_setReg h, if_pos rfl]

/-- A field reads as what was set, reduced to its width. -/
theorem State.fget_fput (h : tblWf regReset s.regs = true) {o : Nat} {f : Fld} (hf : f.ok) {v : Nat} :
    (s.fput o f v).fget o f = v % (f.max + 1) := by
  rw [State.fget, State.reg_fput_same h, Fld.get_put hf]

/-- Another field of the same register is left alone. -/
theorem State.fget_fput_fld (h : tblWf regReset s.regs = true) {o : Nat} {f g : Fld} (hg : g.ok) (hd : f.hi < g.lo ∨ g.hi < f.lo) {v : Nat} :
    (s.fput o g v).fget o f = s.fget o f := by
  rw [State.fget, State.reg_fput_same h, Fld.get_put_ne hg hd, State.fget]

/-- So is every field of another register. -/
theorem State.fget_fput_ne (h : tblWf regReset s.regs = true) {o o' : Nat} {f g : Fld} {v : Nat} (hne : o' ≠ o) :
    (s.fput o g v).fget o' f = s.fget o' f := by
  rw [State.fget, State.reg_fput_ne h hne, State.fget]

end Sys2Proof.Machine
end

