-- ==== Sys2Proof/Laws/RegFrame.lean ====
section
/-!
SUPPORT. Which registers the shared operations may change: chains of field writes, and all that a report or an event causes.
-/
namespace Sys2Proof.Machine

open Sys2Proof

/-- From s to t every register keeps its word, except where l allows a change, and the canonical form of the registers is kept. -/
structure RegsBut (l : Nat → Prop) (s t : State) : Prop where
  wf   : tblWf regReset s.regs = true → tblWf regReset t.regs = true
  same : tblWf regReset s.regs = true → ∀ off, ¬l off → t.reg off = s.reg off

variable {l : Nat → Prop} {s t u : State}

theorem RegsBut.refl (l : Nat → Prop) (s : State) : RegsBut l s s := ⟨id, fun _ _ _ => rfl⟩

theorem RegsBut.trans (h : RegsBut l s t) (k : RegsBut l t u) : RegsBut l s u :=
  ⟨fun w => k.wf (h.wf w), fun w o ho => (k.same (h.wf w) o ho).trans (h.same w o ho)⟩

theorem RegsBut.mono {m : Nat → Prop} (h : RegsBut l s t) (hm : ∀ x, l x → m x) : RegsBut m s t :=
  ⟨h.wf, fun w o ho => h.same w o (fun hl => ho (hm o hl))⟩

theorem RegsBut.setReg {o : Nat} {w : Word} (ho : l o) (h : RegsBut l s t) : RegsBut l s (t.setReg o w) :=
  ⟨fun x => State.setReg_wf (h.wf x), fun x off hoff => by
    have hne : off ≠ o := fun e => hoff (e ▸ ho)
    rw [State.reg_setReg (h.wf x), if_neg hne]
    exact h.same x off hoff⟩

theorem RegsBut.fput {o v : Nat} {f : Fld} (ho : l o) (h : RegsBut l s t) : RegsBut l s (t.fput o f v) := h.setReg ho

theorem RegsBut.bump {o v : Nat} {f : Fld} (ho : l o) (h : RegsBut l s t) : RegsBut l s (t.bump o f v) := h.setReg ho

theorem RegsBut.count {o v : Nat} {f : Fld} (ho : l o) (h : RegsBut l s t) : RegsBut l s (t.count o f v) := h.setReg ho

/-- A step that leaves the registers alone. -/
theorem RegsBut.regs (e : u.regs = t.regs) (h : RegsBut l s t) : RegsBut l s u :=
  ⟨fun x => by rw [e]; exact h.wf x, fun x off hoff => by rw [State.reg, e]; exact h.same x off hoff⟩

theorem RegsBut.ite {c : Prop} [Decidable c] {a b : State} (ha : RegsBut l s a) (hb : RegsBut l s b) : RegsBut l s (if c then a else b) := by
  split
  · exact ha
  · exact hb

/-! ### Records and reports -/

theorem RegsBut.trfStore {die off : Nat} {d : List Byte} (h : RegsBut l s t) : RegsBut l s (t.trfStore die off d) := by
  refine h.regs ?_
  unfold State.trfStore
  dsimp only
  rw [apply_ite State.regs]
  exact ite_self _

theorem RegsBut.record {code cls sev time : Nat} {c : Ctx} (h1 : l Reg.EVR_HEAD_SEQ) (h2 : l Reg.EVR_DROPPED) (h : RegsBut l s t) :
    RegsBut l s (t.record code cls sev time c) := by
  unfold State.record
  split
  · exact h.regs (by rfl)
  · exact RegsBut.ite (h.trfStore.count h1) (h.bump h2)

theorem RegsBut.armWhistle {v a : Nat} (hw : l Reg.OBS_WHISTLE_STATUS) (h : RegsBut l s t) : RegsBut l s (t.armWhistle v a) := by
  unfold State.armWhistle
  exact RegsBut.ite (h.bump hw) ((h.regs (by rfl)).fput hw)

theorem RegsBut.traceTrigger {b : Nat} (h : RegsBut l s t) : RegsBut l s (t.traceTrigger b) := by
  refine h.regs ?_
  unfold State.traceTrigger
  dsimp only
  rw [apply_ite State.regs, apply_ite State.regs]
  show (if _ then (if _ then t.regs else t.regs) else t.regs) = t.regs
  rw [ite_self, ite_self]

/-- A step that changes other parts of the state only. -/
theorem RegsBut.only {p : Parts} (k : Only p t u) (hp : p.regs = false) (h : RegsBut l s t) : RegsBut l s u := h.regs (k.same_regs hp)

/-- What the report of a class may change covers what a rejected Whistle ACTION reports. -/
theorem reportRegs_rejected {cls x : Nat} (h : x ∈ reportRegs 0x11) : x ∈ reportRegs cls := by
  simp only [reportRegs, List.mem_cons, List.not_mem_nil, or_false] at h ⊢
  omega

/-- The first effects of a report (R459, R460): they leave every register but those of `reportRegs`. -/
theorem RegsBut.logReport {acts : State → State} {cls sev : Nat} {c : Ctx} (hl : ∀ x, x ∈ reportRegs cls → l x)
    (ha : ∀ x, RegsBut l s x → RegsBut l s (acts x)) (h : RegsBut l s t) : RegsBut l s (State.logReport acts t cls sev c) := by
  have m1 := hl (Reg.FLT_CLASS_CNT cls) (by simp [reportRegs])
  have m2 := hl Reg.FLT_SEV_CNT (by simp [reportRegs])
  have m3 := hl Reg.FLT_SUPPRESSED (by simp [reportRegs])
  have m4 := hl Reg.EVR_HEAD_SEQ (by simp [reportRegs])
  have m5 := hl Reg.EVR_DROPPED (by simp [reportRegs])
  have k1 := (h.bump m1 (f := Fld.FLT_CLASS_CNT_COUNT) (v := 1)).fput m1 (f := Fld.FLT_CLASS_CNT_LAST_NS) (v := t.timeNs)
  unfold State.logReport
  dsimp only
  have k2 : ∀ x : State, RegsBut l s x → RegsBut l s (match sevField sev with | some f => x.bump Reg.FLT_SEV_CNT f 1 | none => x) := by
    intro x hx
    split
    · exact hx.bump m2
    · exact hx
  have k3 : RegsBut l s _ := (k2 _ k1).only (State.reportLatest_only (p := { flt := true }) (cls := cls) (sev := sev) (c := c) rfl (Only.refl _ _)) rfl
  refine RegsBut.ite (k3.bump m3) (ha _ (RegsBut.record m4 m5 ?_))
  exact RegsBut.ite (k3.only (State.limiterStart_only (p := { flt := true }) rfl (Only.refl _ _)) rfl) k3

theorem RegsBut.faultWhistle {sev : Nat} (hl : ∀ x, x ∈ reportRegs 0x11 → l x) (h : RegsBut l s t) : RegsBut l s (t.faultWhistle sev) :=
  RegsBut.ite h (RegsBut.ite (h.logReport hl (fun _ hx => hx)) (h.armWhistle (hl _ (by simp [reportRegs]))))

theorem RegsBut.sevActions {cls sev time : Nat} {c : Ctx} (hf : ∀ x, RegsBut l s x → RegsBut l s (x.faultWhistle sev)) (h : RegsBut l s t) :
    RegsBut l s (t.sevActions cls sev time c) := by
  unfold State.sevActions
  dsimp only
  have a1 : ∀ {x : State} (p : Prop) [Decidable p] (k : Nat) (r : List Byte), RegsBut l s x →
      RegsBut l s (if p then x.notice k 0 r else x) := fun p _ k r hx => RegsBut.ite (hx.regs (by rfl)) hx
  have a2 : ∀ {x : State} (p : Prop) [Decidable p], RegsBut l s x → RegsBut l s (if p then
      (if x.flt.alert then x else ({ x with flt := { x.flt with alert := true } } : State).emit (.pin 0 true)) else x) :=
    fun p _ hx => RegsBut.ite (RegsBut.ite hx (hx.regs (by rfl))) hx
  have a3 : ∀ {x : State} (p : Prop) [Decidable p], RegsBut l s x →
      RegsBut l s (if p then ({ x with flt := { x.flt with fatal := true, fatalCls := cls, fatalDie := c.die } } : State) else x) :=
    fun p _ hx => RegsBut.ite (hx.regs (by rfl)) hx
  have a5 : ∀ {x : State} (p : Prop) [Decidable p], RegsBut l s x → RegsBut l s (if p then x.emit .trigOut else x) :=
    fun p _ hx => RegsBut.ite (hx.regs (by rfl)) hx
  have a6 : ∀ {x : State} (p : Prop) [Decidable p], RegsBut l s x → RegsBut l s (if p then x.traceTrigger c.die else x) :=
    fun p _ hx => RegsBut.ite hx.traceTrigger hx
  exact a6 _ (a5 _ (hf _ (a3 _ (a2 _ (a1 _ _ _ h)))))

theorem RegsBut.report {cls sev : Nat} {c : Ctx} (hl : ∀ x, x ∈ reportRegs cls → l x) (h : RegsBut l s t) :
    RegsBut l s (t.report cls sev c) :=
  h.logReport hl (fun _ hx => hx.sevActions (fun _ hy => hy.faultWhistle (fun y hy => hl y (reportRegs_rejected hy))))

theorem RegsBut.event {code : Nat} {c : Ctx} (h1 : l Reg.EVR_HEAD_SEQ) (h2 : l Reg.EVR_DROPPED) (h : RegsBut l s t) :
    RegsBut l s (t.event code c) := h.record h1 h2

theorem RegsBut.rejected {off v : Nat} {f : Option Nat} (hl : ∀ x, x ∈ reportRegs 0x11 → l x) (h : RegsBut l s t) :
    RegsBut l s (t.rejected off v f) := h.report hl

/-! ### Packets, plain writes and completions -/

/-- Every register that a report may change is a side register. -/
theorem sideReg_report {cls x : Nat} (hc : cls < 0x1C0) (h : x ∈ reportRegs cls) : sideReg x = true := by
  simp only [reportRegs, List.mem_cons, List.not_mem_nil, or_false] at h
  rcases h with h | h | h | h | h | h | h <;> subst h
  · unfold sideReg Reg.FLT_CLASS_CNT
    rw [show decide (0x800018 ≤ 0x800100 + 0x8 * cls) = true from decide_eq_true (by omega),
      show decide (0x800100 + 0x8 * cls < 0x801000) = true from decide_eq_true (by omega)]
    rfl
  all_goals decide

theorem RegsBut.sideReport {cls sev : Nat} {c : Ctx} (hc : cls < 0x1C0) (hl : ∀ x, sideReg x = true → l x) (h : RegsBut l s t) :
    RegsBut l s (t.report cls sev c) := h.report (fun _ hx => hl _ (sideReg_report hc hx))

theorem RegsBut.sideEvent {code : Nat} {c : Ctx} (hl : ∀ x, sideReg x = true → l x) (h : RegsBut l s t) : RegsBut l s (t.event code c) :=
  h.event (hl _ (by decide)) (hl _ (by decide))

theorem RegsBut.forward {r : Nat} {k : Packet} {from_ : Option Nat} (hr : r < 8) (hl : ∀ x, sideReg x = true → l x) (h : RegsBut l s t) :
    RegsBut l s (t.forward r k from_) := by
  have hreg : l (Reg.FAB_STATUS r) := by
    refine hl _ ?_
    unfold sideReg Reg.FAB_STATUS
    rw [show decide (0x500000 ≤ 0x5000A0 + 0x10000 * r) = true from decide_eq_true (by omega),
      show decide (0x5000A0 + 0x10000 * r < 0x580000) = true from decide_eq_true (by omega),
      show (0x5000A0 + 0x10000 * r) % 0x10000 = 0xA0 by omega]
    simp only [Bool.and_self, beq_self_eq_true, Bool.or_true]
  have hf : ∀ {x x' : State} {k' : Packet} {q : Option Nat} {b : Bool}, x.tryForward r k' q b = some x' → RegsBut l s x → RegsBut l s x' :=
    fun e hx => hx.only (State.tryForward_only (p := { fab := true, tor := true }) rfl (Only.refl _ _) e) rfl
  have hd : ∀ {x : State} {k' : Packet}, RegsBut l s x → RegsBut l s (x.deliver k') :=
    fun hx => hx.only (State.deliver_only (p := { fab := true }) rfl (Only.refl _ _)) rfl
  unfold State.forward
  split
  · exact hf ‹_› h
  · unfold State.discardPacket
    dsimp only
    refine RegsBut.ite (RegsBut.ite (hd (h.bump hreg)) ?_) (h.bump hreg)
    split
    · exact hf ‹_› (h.bump hreg)
    · exact (h.bump hreg).bump hreg

theorem RegsBut.send {r : Nat} {k : Packet} (hr : r < 8) (hl : ∀ x, sideReg x = true → l x) (h : RegsBut l s t) : RegsBut l s (t.send r k) :=
  RegsBut.ite (h.only (State.deliver_only (p := { fab := true }) rfl (Only.refl _ _)) rfl) (h.forward hr hl)

theorem RegsBut.foldl {α : Type} {f : State → α → State} {xs : List α} (h : RegsBut l s t) (hf : ∀ x a, RegsBut l s x → RegsBut l s (f x a)) :
    RegsBut l s (xs.foldl f t) := by
  induction xs generalizing t with
  | nil => exact h
  | cons a xs ih => exact ih (hf t a h)

theorem RegsBut.writePlain {a : Nat} {d : List Byte} (h : RegsBut l s t) : RegsBut l s (t.writePlain a d) :=
  h.only (State.writePlain_only (p := Parts.memory.or { arr := true }) rfl (Only.refl _ _)) rfl

/-- A place of HBM lies below 2^40, a place of staging SRAM below 2^33. -/
inductive Loc.Small : Loc → Prop where
  | hbm {a : Nat} (h : a < 2 ^ 40) : Loc.Small (.hbm a)
  | staging {a : Nat} (h : a < 2 ^ 33) : Loc.Small (.staging a)
  | reg {a : Nat} : Loc.Small (.reg a)
  | trf {a : Nat} : Loc.Small (.trf a)
  | unmapped : Loc.Small .unmapped

theorem State.locOf_small {off : Nat} : (t.locOf off).Small := by
  have b : off < 0x020200000000 → off - 0x020000000000 < 2 ^ 33 := by omega
  unfold State.locOf
  repeat' split
  · exact .hbm (by omega)
  · exact .hbm (by omega)
  · rename_i h3
    dsimp only
    split
    · exact .staging (b h3)
    · exact .unmapped
  all_goals constructor

theorem State.gloc_small {addr : Nat} {x : Loc} (e : t.gloc addr = .own x) : x.Small := by
  unfold State.gloc at e
  dsimp only at e
  split at e
  · injection e with e
    exact e ▸ State.locOf_small
  · split at e
    · split at e
      · injection e with e
        exact e ▸ State.locOf_small
      · exact absurd e (by simp)
    · exact absurd e (by simp)

theorem RegsBut.plainWrite {who : Master} {a : Nat} {d : List Byte} (ha : a < 2 ^ 41) (hl : ∀ x, sideReg x = true → l x) (h : RegsBut l s t) :
    RegsBut l s (t.plainWrite who a d) := by
  refine RegsBut.ite (RegsBut.ite ((h.regs (by rfl)).bump (hl _ ?_)) (h.regs (by rfl))) h.writePlain
  unfold sideReg Reg.LDG_SUMP_STATUS regionOfPage
  have : a / 4096 / 2 ^ 24 / 2 < 16 := by omega
  rw [show decide (0x380000 ≤ 0x380000 + 0x100 * (a / 4096 / 2 ^ 24 / 2)) = true from decide_eq_true (by omega),
    show decide (0x380000 + 0x100 * (a / 4096 / 2 ^ 24 / 2) < 0x3A0000) = true from decide_eq_true (by omega)]
  simp only [Bool.and_self, Bool.or_true, Bool.true_or]

/-- The unit enters the torus at one of the eight regions. -/
def Placed (who : Master) : Prop := ∀ s : State, s.entry who < 8

theorem service_placed {o : Origin} : Placed (.service o) := by
  intro s
  rw [State.entry]
  split <;> decide

theorem RegsBut.crossTo {r n : Nat} {x : Loc} (h : RegsBut l s t) : RegsBut l s (t.crossTo r n x) :=
  h.only (State.crossTo_only (p := { tor := true }) rfl (Only.refl _ _)) rfl

theorem RegsBut.pieceWrite {who : Master} {vc addr : Nat} {d : List Byte} (hr : Placed who) (hl : ∀ x, sideReg x = true → l x)
    (h : RegsBut l s t) : RegsBut l s (t.pieceWrite who vc addr d) := by
  unfold State.pieceWrite
  dsimp only
  split
  · exact h.crossTo.plainWrite (by cases State.gloc_small ‹_› with | hbm b => omega) hl
  · exact h.crossTo.plainWrite (by cases State.gloc_small ‹_› with | staging b => omega) hl
  · exact RegsBut.ite (h.crossTo.regs (by rfl)) (h.sideReport (by decide) hl)
  · exact h.only (State.deliver_only (p := { fab := true }) rfl (Only.refl _ _)) rfl
  · exact h.sideReport (by decide) hl
  · exact h.sideReport (by decide) hl
  · exact RegsBut.ite (h.send (hr t) hl) (h.sideReport (by decide) hl)

theorem RegsBut.gwrite {who : Master} {vc addr : Nat} {d : List Byte} (hr : Placed who) (hl : ∀ x, sideReg x = true → l x)
    (h : RegsBut l s t) : RegsBut l s (t.gwrite who vc addr d) := RegsBut.foldl h (fun _ _ hx => hx.pieceWrite hr hl)

theorem Fld.get_le {f : Fld} {w : Word} : f.get w ≤ f.max := by
  have : f.get w < f.max + 1 := by
    rw [Fld.max_succ]
    exact Nat.mod_lt _ (Nat.two_pow_pos _)
  omega

theorem State.cqOf_lt {n : Nat} : t.cqOf n < 256 := Nat.lt_succ_of_le (Fld.get_le (f := Fld.RING_SQ_CFG_CQ))

theorem leNat_lt {b : List Byte} : leNat b < 256 ^ b.length := by
  induction b with
  | nil => decide
  | cons x b ih =>
    have := x.isLt
    have e : leNat (x :: b) = x.toNat + 256 * leNat b := rfl
    rw [List.length_cons, Nat.pow_succ, e]
    omega

theorem leAt_lt {b : List Byte} {i n : Nat} : leAt b i n < 256 ^ n :=
  Nat.lt_of_lt_of_le leNat_lt (Nat.pow_le_pow_right (by decide) (by rw [List.length_take]; omega))

theorem ringReg_of {x : Nat} (h : 0x100000 ≤ x ∧ x < 0x108000) : ringReg x = true := by
  unfold ringReg
  rw [decide_eq_true h.1, decide_eq_true h.2]
  rfl

theorem RegsBut.ringWrite {who : Master} {loc : Bool} {a : Nat} {d : List Byte} (hw : Placed who) (hl : ∀ x, sideReg x = true → l x)
    (h : RegsBut l s t) : RegsBut l s (t.ringWrite who loc a d) := RegsBut.ite (h.gwrite hw hl) (h.regs (by rfl))

theorem RegsBut.msixSend {v : Nat} (h : RegsBut l s t) : RegsBut l s (t.msixSend v) :=
  RegsBut.ite h (RegsBut.ite (RegsBut.ite h (h.regs (by rfl))) (h.regs (by rfl)))

theorem RegsBut.putRecord {who : Master} {m seq step : Nat} {d : Done} {irq : Bool} (hw : Placed who) (hm : m < 256) (hl : ∀ x, sideReg x = true → l x)
    (hr : ∀ x, ringReg x = true → l x) (h : RegsBut l s t) : RegsBut l s (t.putRecord who m seq step d irq) := by
  have a1 : l (Reg.RING_CQ_TAIL m) := hr _ (ringReg_of (by unfold Reg.RING_CQ_TAIL; omega))
  have a2 : l (Reg.RING_CQ_STATUS m) := hr _ (ringReg_of (by unfold Reg.RING_CQ_STATUS; omega))
  unfold State.putRecord
  dsimp only
  refine RegsBut.ite ?_ (h.bump a2)
  refine RegsBut.ite (RegsBut.msixSend ?_) ?_ <;> exact RegsBut.count a1 (RegsBut.ringWrite hw hl (RegsBut.ringWrite hw hl h))

theorem RegsBut.sendEvent {n by_ : Nat} {p : Bool} (hn : n < 256) (hr : ∀ x, ringReg x = true → l x) (h : RegsBut l s t) :
    RegsBut l s (t.sendEvent n p by_) := by
  have a1 : l (Reg.RING_EVT_BANK n) := hr _ (ringReg_of (by unfold Reg.RING_EVT_BANK; omega))
  unfold State.sendEvent
  dsimp only
  have k := RegsBut.ite (c := t.fget (Reg.RING_EVT_BANK n) Fld.RING_EVT_BANK_COUNT ≥ 2 ^ 32 - 1)
    (h.fput a1 (f := Fld.RING_EVT_BANK_OVERFLOW) (v := 1))
    (h.fput a1 (f := Fld.RING_EVT_BANK_COUNT) (v := t.fget (Reg.RING_EVT_BANK n) Fld.RING_EVT_BANK_COUNT + 1))
  exact RegsBut.ite ((k.regs (by rfl)).fput a1) k

theorem RegsBut.release {m k : Nat} (hm : m < 256) (hr : ∀ x, ringReg x = true → l x) (h : RegsBut l s t) : RegsBut l s (t.release m k) :=
  h.setReg (hr _ (ringReg_of (by unfold Reg.RING_CQ_STATUS; omega)))

theorem ringMaster_placed {n seq : Nat} {b : List Byte} : Placed (ringMaster n seq b) := fun _ => by
  show 0 < 8
  decide

theorem RegsBut.complete {n seq slots keep : Nat} {b : List Byte} {d : Done} (hl : ∀ x, sideReg x = true → l x)
    (hr : ∀ x, ringReg x = true → l x) (h : RegsBut l s t) : RegsBut l s (t.complete n b seq slots keep d) := by
  have k : RegsBut l s ((t.putRecord (ringMaster n seq b) (t.cqOf n) seq (dSTEP b) d (dIRQ b)).release (t.cqOf n) (slots - keep)) :=
    (h.putRecord ringMaster_placed State.cqOf_lt hl hr).release State.cqOf_lt hr
  exact RegsBut.ite (k.sendEvent (Nat.mod_lt _ (by decide)) hr) k

/-- A report counts its class and notes its time (R459); later effects of the report leave that register alone, but for CONFIG_REJECTED,
which a discarded Whistle ACTION may count once more (R671). -/
theorem State.report_classCnt {cls sev : Nat} {c : Ctx} (hc : cls < 0x1C0) (hd : cls ≠ 0x11 ∨ sev = 0) (w : tblWf regReset s.regs = true) :
    (s.report cls sev c).reg (Reg.FLT_CLASS_CNT cls) =
      ((s.bump (Reg.FLT_CLASS_CNT cls) Fld.FLT_CLASS_CNT_COUNT 1).fput (Reg.FLT_CLASS_CNT cls) Fld.FLT_CLASS_CNT_LAST_NS s.timeNs).reg
        (Reg.FLT_CLASS_CNT cls) := by
  generalize hb : (s.bump (Reg.FLT_CLASS_CNT cls) Fld.FLT_CLASS_CNT_COUNT 1).fput (Reg.FLT_CLASS_CNT cls) Fld.FLT_CLASS_CNT_LAST_NS s.timeNs = s1
  have k0 := RegsBut.refl (fun x => x ≠ Reg.FLT_CLASS_CNT cls) s1
  have w0 : tblWf regReset s1.regs = true := hb ▸ State.setReg_wf (State.setReg_wf w)
  have ne : ∀ y, (y < 0x800100 ∨ 0x801000 ≤ y) → y ≠ Reg.FLT_CLASS_CNT cls := by
    intro y hy
    unfold Reg.FLT_CLASS_CNT
    omega
  have m2 := ne Reg.FLT_SEV_CNT (by decide)
  have m3 := ne Reg.FLT_SUPPRESSED (by decide)
  have m4 := ne Reg.EVR_HEAD_SEQ (by decide)
  have m5 := ne Reg.EVR_DROPPED (by decide)
  have m6 := ne Reg.OBS_WHISTLE_STATUS (by decide)
  have kf : ∀ x, RegsBut (fun x => x ≠ Reg.FLT_CLASS_CNT cls) s1 x → RegsBut (fun x => x ≠ Reg.FLT_CLASS_CNT cls) s1 (x.faultWhistle sev) := by
    intro x hx
    rcases hd with hd | hd
    · refine hx.faultWhistle (fun y hy => ?_)
      have m1 : Reg.FLT_CLASS_CNT 0x11 ≠ Reg.FLT_CLASS_CNT cls := by
        unfold Reg.FLT_CLASS_CNT
        omega
      simp only [reportRegs, List.mem_cons, List.not_mem_nil, or_false] at hy
      rcases hy with hy | hy | hy | hy | hy | hy | hy <;> subst hy <;> assumption
    · subst hd
      unfold State.faultWhistle
      dsimp only
      rw [if_pos (by rcases x.fget Reg.OBS_WHISTLE_CFG Fld.OBS_WHISTLE_CFG_FAULT_SEV with _ | n <;> simp)]
      exact hx
  have k : RegsBut (fun x => x ≠ Reg.FLT_CLASS_CNT cls) s1 (s.report cls sev c) := by
    unfold State.report State.logReport
    dsimp only
    rw [hb]
    have k2 : ∀ x : State, RegsBut (fun x => x ≠ Reg.FLT_CLASS_CNT cls) s1 x →
        RegsBut (fun x => x ≠ Reg.FLT_CLASS_CNT cls) s1 (match sevField sev with | some f => x.bump Reg.FLT_SEV_CNT f 1 | none => x) := by
      intro x hx
      split
      · exact hx.bump m2
      · exact hx
    have k3 : RegsBut (fun x => x ≠ Reg.FLT_CLASS_CNT cls) s1 _ :=
      (k2 _ k0).only (State.reportLatest_only (p := { flt := true }) (cls := cls) (sev := sev) (c := c) rfl (Only.refl _ _)) rfl
    refine RegsBut.ite (k3.bump m3) (RegsBut.sevActions kf (RegsBut.record m4 m5 ?_))
    exact RegsBut.ite (k3.only (State.limiterStart_only (p := { flt := true }) rfl (Only.refl _ _)) rfl) k3
  exact k.same w0 _ (fun h => h rfl)

theorem State.report_count {cls sev : Nat} {c : Ctx} (hc : cls < 0x1C0) (hd : cls ≠ 0x11 ∨ sev = 0) (w : tblWf regReset s.regs = true) :
    (s.report cls sev c).fget (Reg.FLT_CLASS_CNT cls) Fld.FLT_CLASS_CNT_COUNT =
      min Fld.FLT_CLASS_CNT_COUNT.max (s.fget (Reg.FLT_CLASS_CNT cls) Fld.FLT_CLASS_CNT_COUNT + 1) := by
  have w1 : tblWf regReset (s.bump (Reg.FLT_CLASS_CNT cls) Fld.FLT_CLASS_CNT_COUNT 1).regs = true := State.setReg_wf w
  rw [State.fget, State.report_classCnt hc hd w]
  show State.fget (State.fput _ _ _ _) _ _ = _
  rw [State.fget_fput_fld w1 ⟨by decide, by decide⟩ (by decide), State.bump, State.fget_fput w ⟨by decide, by decide⟩]
  exact Nat.mod_eq_of_lt (Nat.lt_succ_of_le (Nat.min_le_left _ _))

end Sys2Proof.Machine
end

