-- ==== Sys2Proof/Laws/Started.lean ====
section
/-!
SUPPORT. Started descriptors: what is found after one of them was changed or got its outcome.
-/
namespace Sys2Proof.Machine

open Sys2Proof

theorem find_updFirst {α : Type} {p : α → Bool} {f : α → α} {l : List α} (h : ∀ a, p a = true → p (f a) = true) :
    (updFirst p f l).find? p = (l.find? p).map f := by
  induction l with
  | nil => rfl
  | cons a l ih =>
    by_cases hp : p a = true
    · simp only [updFirst, hp, if_true, List.find?_cons, h a hp, Option.map_some]
    · simp only [Bool.not_eq_true] at hp
      simp only [updFirst, hp, Bool.false_eq_true, if_false, List.find?_cons, ih]

variable {s : State} {n seq : Nat}

/-- A started descriptor after it was changed, its ring and RING_SEQ kept. -/
theorem State.findStarted_updStarted {f : Started → Started} (h : ∀ d, (f d).ring = d.ring ∧ (f d).seq = d.seq) :
    (s.updStarted n seq f).findStarted n seq = (s.findStarted n seq).map f :=
  find_updFirst (fun d hd => by simpa [h d] using hd)

/-- A started descriptor after it got its outcome. -/
theorem State.findStarted_setDone {d : Started} {x : Done} (h : s.findStarted n seq = some d) (hd : d.done = none) :
    (s.setDone n seq x).findStarted n seq = some { d with done := some (d.outcome (s.doneDie (d.located x))) } := by
  rw [State.setDone, State.findStarted_updStarted, h]
  · simp [hd]
  · intro d
    split <;> exact ⟨rfl, rfl⟩

/-- The first outcome of a started descriptor stands. -/
theorem State.findStarted_setDone_done {d : Started} {x : Done} (h : s.findStarted n seq = some d) (hd : d.done.isSome = true) :
    (s.setDone n seq x).findStarted n seq = some d := by
  rw [State.setDone, State.findStarted_updStarted, h]
  · simp [hd]
  · intro d
    split <;> exact ⟨rfl, rfl⟩

/-- The STATUS of an outcome is the one it was given. -/
theorem Started.outcome_status {d : Started} {x : Done} : (d.outcome x).status = x.status := by
  unfold Started.outcome
  dsimp only
  split <;> split <;> rfl

theorem Started.located_status {d : Started} {x : Done} : (d.located x).status = x.status := by
  unfold Started.located
  split <;> rfl

theorem State.doneDie_status {x : Done} : (s.doneDie x).status = x.status := by
  unfold State.doneDie
  split <;> rfl

theorem State.doneDie_result {x : Done} : (s.doneDie x).result = x.result := by
  unfold State.doneDie
  split <;> rfl

theorem Started.outcome_result {d : Started} {x : Done} : (d.outcome x).result = x.result := by
  unfold Started.outcome
  dsimp only
  split <;> split <;> rfl

end Sys2Proof.Machine
end

