-- ==== Sys2Proof/Tests/Slice0.lean ====
section
/-!
SUPPORT. Tests: for every clause of the statements a state and operands that meet its hypotheses, with what the command then does, as the
cited rule has it; and for every check of `Instr.wf` a term that it refuses. Each test is one step on a small state.
-/
-- one test after another: many kernel checks at once take too much memory
set_option Elab.async false
namespace Sys2Proof.Tests

open Sys2Proof Sys2Proof.Machine

/-! ### States -/

/-- The state that a command leads to. -/
def after (c : Instr) (s : State) : State := match exec c s with | .next t => t | _ => s

/-- Fields of registers set. -/
def puts (s : State) (l : List (Nat × Fld × Nat)) : State := l.foldl (fun s e => s.fput e.1 e.2.1 e.2.2) s

/-- A module in service: every die runs, T0 is PRIMARY and T1 STANDBY, FEED_A is ACTIVE and FEED_B STANDBY, the host port is open. -/
def up : State :=
  puts { State.reset with dark := [], pwr := { good := true }, pcie := { linkUp := true, bars := true, msixEn := true } }
    [(Reg.MOD_RESET_STATUS, Fld.MOD_RESET_STATUS_PHASE, 1), (Reg.PWR_START_STATUS, Fld.PWR_START_STATUS_READY, 1),
     (Reg.TRF_ROLE, Fld.TRF_ROLE_T0_ROLE, 3), (Reg.TRF_ROLE, Fld.TRF_ROLE_T1_ROLE, 2),
     (Reg.PWR_FEED_STATUS, Fld.PWR_FEED_STATUS_STATE_A, 3), (Reg.PWR_FEED_STATUS, Fld.PWR_FEED_STATUS_STATE_B, 2)]

/-- Chip 0x0625 of rack 2 in group 3 (the example of R714). -/
def chip : State := puts up
  [(Reg.MOD_CHIP_NUMBER, Fld.MOD_CHIP_NUMBER_GROUP, 3), (Reg.MOD_CHIP_NUMBER, Fld.MOD_CHIP_NUMBER_MEMBER, 37),
   (Reg.MOD_CHIP_NUMBER, Fld.MOD_CHIP_NUMBER_VALID, 1)]

/-- A function in a state. -/
def put (s : State) (f st : Nat) : State := s.setFn f st

/-- The count of a fault class. -/
def cnt (s : State) (cls : Nat) : Nat := s.fget (Reg.FLT_CLASS_CNT cls) Fld.FLT_CLASS_CNT_COUNT

/-! ### The queue -/

theorem test_step_runs_front : (match step { up with pending := [.trstAssert, .powerUp] } with | .next t => t.pending | _ => []) = [.powerUp] := by decide
theorem test_step_idles_one_tick : (match step up with | .next t => t.clk.now | _ => 0) = 1 := by decide
theorem test_step_keeps_canon : up.canon = true ∧ (after (.doorbell 0 5#64) up).canon = true ∧ (after .trstAssert up).pending = [] := by decide

/-! ### Rings and descriptors -/

/-- Fields set in registers and in force. -/
def force (s : State) (l : List (Nat × Fld × Nat)) : State :=
  l.foldl (fun s e => let t := s.fput e.1 e.2.1 e.2.2; { t with inForce := tblPut regReset t.inForce e.1 (t.reg e.1) }) s

/-- 64 bytes with fields (byte, length, value). -/
def desc (l : List (Nat × Nat × Nat)) : List Byte :=
  l.foldl (fun b f => b.take f.1 ++ leBytes f.2.1 f.2.2 ++ b.drop (f.1 + f.2.1)) (List.replicate 64 0#8)

/-- Ring 0 with 64 slots bound to completion ring 0 of 64 slots, both in RUN. -/
def ring : State :=
  force ((chip.setFn (sqFn 0) fnRUN).setFn (cqFn 0) fnRUN)
    [(Reg.RING_SQ_CFG 0, Fld.RING_SQ_CFG_LOG2_SIZE, 6), (Reg.RING_CQ_CFG 0, Fld.RING_CQ_CFG_LOG2_SIZE, 6)]

/-- A fetched descriptor at the head of ring n. -/
def head (s : State) (n : Nat) (b : List Byte) : State := s.setSq n { fetched := [{ seq := 0, bytes := b, deadline := none, slots := 1 }] }

/-- A started descriptor of ring n and RING_SEQ 0 on a function. -/
def start (s : State) (n fn : Nat) (b : List Byte) : State :=
  { s with started := s.started ++ [{ ring := n, seq := 0, bytes := b, fn := fn, gen := 1, deadline := none, slots := 1 }] }

theorem test_doorbell_whole_ring : ring.canon = true ∧ ring.sqSize 0 = 64 ∧
    (after (.doorbell 0 64#64) ring).fget (Reg.RING_SQ_TAIL 0) Fld.RING_SQ_TAIL_TAIL = 64 := by decide
theorem test_doorbell_one_too_far :
    let t := after (.doorbell 0 65#64) ring
    t.fget (Reg.RING_SQ_TAIL 0) Fld.RING_SQ_TAIL_TAIL = 0 ∧ t.fget (Reg.RING_SQ_STATUS 0) Fld.RING_SQ_STATUS_DB_REJECT = 1 := by decide

/-- Completion ring 5 with CQ_TAIL 3. -/
def tail3 : State := puts up [(Reg.RING_CQ_TAIL 5, Fld.RING_CQ_TAIL_TAIL, 3)]
theorem test_cq_head_to_tail : tail3.canon = true ∧
    (after (.cqHeadWrite 5 3) tail3).fget (Reg.RING_CQ_HEAD 5) Fld.RING_CQ_HEAD_HEAD = 3 := by decide
theorem test_cq_head_past_tail : let t := after (.cqHeadWrite 5 4) tail3
    t.fget (Reg.RING_CQ_HEAD 5) Fld.RING_CQ_HEAD_HEAD = 0 ∧ cnt t 0x11 = 1 := by decide
theorem test_fetch : let s := after (.doorbell 0 1#64) ring
    s.canon = true ∧ tblWf noSq s.sq = true ∧ s.mayFetch 0 = true ∧
      ((after (.descriptorFetch 0 (desc []) [] []) s).sqSt 0).fetched.length = 1 := by decide
theorem test_fetch_bad_seq : let s := after (.doorbell 0 1#64) ring
    s.mayFetch 0 = true ∧ (s.fetchVerdict 0 { seq := 0, bytes := desc [(4, 4, 9)], deadline := none, slots := 1 } false).map (·.status) = some stBAD_SEQ ∧
      (after (.descriptorFetch 0 (desc [(4, 4, 9)]) [] []) s).fget (Reg.RING_SQ_STATUS 0) Fld.RING_SQ_STATUS_HALTED = 1 := by decide
theorem test_msix_unmask : let s := { up with pcie := { up.pcie with pend := [7, 8], vecMask := [7, 8] } }
    s.pcie.fnMask = false ∧ (after (.msixUnmask (some 7)) s).out = [.msix 7] ∧ (after (.msixUnmask (some 7)) s).pcie.pend = [8] := by decide

/-- A CUT (0x4010) at the head of ring 192, which feeds function 0x050. -/
def cutHead : State := head ((ring.setFn (sqFn 192) fnRUN).setFn 0x50 fnRUN) 192 (desc [(0, 2, 0x4010), (22, 2, 1)])
theorem test_start_conditions : let s := puts cutHead [(Reg.RING_EVT_BANK 192, Fld.RING_EVT_BANK_COUNT, 3)]
    let b := desc [(0, 2, 0x4010), (22, 2, 1)]
    let f : Fetched := { seq := 0, bytes := b, deadline := none, slots := 1 }
    let q := (s.takeEvents 192 f).paramOf 192 f []
    let u := q.1
    s.serialOk 192 b = true ∧ s.late f = false ∧ s.hasEvents 192 f = true ∧ s.takesPoison 192 f = false ∧ rangeBad b [] = false ∧
      q.2 = [] ∧ targetOf b q.2 = some 0x50 ∧ u.cancels 0x50 b = false ∧ u.genStale? 0x50 b = false ∧ u.paramPoisoned 192 b = false ∧
      u.operandsBad b [] = false ∧ u.hasRoom 0x50 192 0 b [] = true ∧ u.ticketLeft 0x50 = true ∧ u.turnOf 0x50 192 = true ∧
      u.startRefused b [] = false := by decide
theorem test_start : let t := after (.descriptorStart 192 [] []) (puts cutHead [(Reg.RING_EVT_BANK 192, Fld.RING_EVT_BANK_COUNT, 3)])
    t.started.map (·.fn) = [0x50] ∧ (t.sqSt 192).fetched = [] ∧ t.fget (Reg.RING_EVT_BANK 192) Fld.RING_EVT_BANK_COUNT = 2 := by decide
theorem test_start_waits_for_events : (after (.descriptorStart 192 [] []) cutHead).started = [] := by decide
theorem test_nop_completes : let s := head ring 0 (desc [])
    tblWf noSq s.sq = true ∧ ((after (.descriptorStart 0 [] []) s).sqSt 0).fetched = [] ∧ (after (.descriptorStart 0 [] []) s).started = [] ∧
      (after (.descriptorStart 0 [] []) s).fget (Reg.RING_CQ_TAIL 0) Fld.RING_CQ_TAIL_TAIL = 1 := by decide
theorem test_deadline_unstarted : let s := ring.setSq 0 { fetched := [{ seq := 0, bytes := desc [], deadline := some 70, slots := 1 }] }
    ((after (.deadlineExpire 0 0) s).sqSt 0).fetched = [] ∧ (after (.deadlineExpire 0 0) s).clk.now = 70 := by decide

/-- A descriptor of ring 0 with a deadline at 70 ns runs on function 0x050. -/
def due : State := { ring with started := [{ ring := 0, seq := 0, bytes := desc [], fn := 0x50, gen := 1, deadline := some 70, slots := 1 }] }
theorem test_deadline_running : (due.sqSt 0).fetched = [] ∧ (after (.deadlineExpire 0 0) due).endOf 0 0 = some stDEADLINE := by decide
theorem test_deadline_miss : let t := after (.deadlineMiss 0 0) due
    due.canon = true ∧ t.time = 1070 ∧ cnt t 0x02 = 1 ∧ t.fget Reg.MOD_HANG_STATUS Fld.MOD_HANG_STATUS_VALID = 1 := by decide
theorem test_complete : let s := { due with started := due.started.map (fun x => { x with done := some { status := stSUCCESS } }) }
    ((s.findStarted 0 0).map (fun x => (x.ticket, x.rgen == s.gen (sqFn 0), s.resultsLanded x))) = some (none, true, true) ∧ s.cqWrites (s.cqOf 0) = true ∧
      (after (.descriptorComplete 0 0) s).started = [] := by decide

/-! ### Functions -/

theorem test_stop : let s := puts (up.setFn 0x10 fnRUN) [(Reg.MOD_FN 0x10, Fld.MOD_FN_DRAIN_LIMIT, 5)]
    s.canon = true ∧ fnAssigned 0x10 = true ∧ s.resetCovers 0x10 = false ∧ s.fnState 0x10 = fnRUN ∧
      s.fget (Reg.MOD_FN 0x10) Fld.MOD_FN_DRAIN_LIMIT ≠ 0 ∧ (after (.cmdStop 0x10) s).fnState 0x10 = fnDRAIN := by decide +kernel
theorem test_change : up.fnState 0x10 = fnSTOPPED ∧ up.resetCovers 0x10 = false ∧ (after (.cmdChange 0x10) up).fnState 0x10 = fnCHANGE := by decide
theorem test_restart : let s := up.setFn 0x51 fnCHANGE
    s.canon = true ∧ s.fnState 0x51 = fnCHANGE ∧ s.badSetting 0x51 = none ∧ (after (.cmdRestart 0x51) s).fnState 0x51 = fnRUN := by decide
theorem test_restart_bad : let s := puts (up.setFn (cqFn 3) fnCHANGE) [(Reg.RING_CQ_CFG 3, Fld.RING_CQ_CFG_LOG2_SIZE, 5)]
    s.badSetting (cqFn 3) = some (Reg.RING_CQ_CFG 3) ∧ (after (.cmdRestart (cqFn 3)) s).fnState (cqFn 3) = fnCHANGE ∧
      cnt (after (.cmdRestart (cqFn 3)) s) 0x11 = 1 := by decide
theorem test_abort_bumps_gen : let s := up.setFn 0x10 fnRUN
    s.fnState 0x10 = fnRUN ∧ (after (.cmdAbort 0x10) s).fnState 0x10 = fnSTOPPED ∧ (after (.cmdAbort 0x10) s).gen 0x10 = 2 := by decide +kernel
theorem test_abort_gen_wraps : let s := puts (up.setFn 0x10 fnDRAIN) [(Reg.MOD_FN 0x10, Fld.MOD_FN_GEN, 0xFF)]
    (after (.cmdAbort 0x10) s).gen 0x10 = 1 := by decide
theorem test_drain_complete : let s := up.setFn 0x10 fnDRAIN
    s.drained 0x10 = true ∧ (after (.drainComplete 0x10) s).fnState 0x10 = fnSTOPPED ∧ (after (.drainComplete 0x10) s).gen 0x10 = 1 := by decide
theorem test_drain_limit : let s := start (puts (up.setFn 0x10 fnDRAIN) [(Reg.MOD_FN 0x10, Fld.MOD_FN_DRAIN_LIMIT, 5)]) 0 0x10 (desc [(0, 2, 0x2001)])
    s.drained 0x10 = false ∧ (after (.drainLimitExpire 0x10) s).fnState 0x10 = fnSTOPPED ∧ (after (.drainLimitExpire 0x10) s).clk.now = 5000000 ∧
      (after (.drainLimitExpire 0x10) s).gen 0x10 = 2 := by decide +kernel
theorem test_stale_reply : fnAssigned 0x10 = true ∧ up.gen 0x10 = 1 ∧ tblGet zeroAt (after (.staleReplyDrop 0x10 7) up).genStale 0x10 = 1 ∧
    cnt (after (.staleReplyDrop 0x10 7) up) 0x12 = 1 := by decide
theorem test_abort_of_a_ring_bumps_gen : let s := up.setFn (sqFn 3) fnRUN
    s.fnState (sqFn 3) = fnRUN ∧ (after (.cmdAbort (sqFn 3)) s).gen (sqFn 3) = 2 := by decide +kernel

/-- A disowned descriptor of ring 0 that has its outcome: the ring's GEN has moved on. -/
def disowned : State := puts
  { up with started := [{ ring := 0, seq := 0, bytes := desc [], fn := 0x50, gen := 1, deadline := none, slots := 0, rgen := 1, done := some { status := stSUCCESS } }] }
  [(Reg.RING_SQ_STATUS 0, Fld.RING_SQ_STATUS_DISOWNED, 1), (Reg.MOD_FN (sqFn 0), Fld.MOD_FN_GEN, 2)]
theorem test_disowned_record_dropped : let t := after (.staleReplyDrop (sqFn 0) 1) disowned
    disowned.gen (sqFn 0) ≠ 1 ∧ t.started = [] ∧ t.fget (Reg.RING_SQ_STATUS 0) Fld.RING_SQ_STATUS_DISOWNED = 0 ∧
      tblGet zeroAt t.genStale (sqFn 0) = 1 ∧ cnt t 0x12 = 1 := by decide

/-! ### Memory and registers -/

/-- The global address of HBM place a of this module. -/
def at_ (a : Nat) : Nat := ownAt (0x010000000000 + a)
/-- Two bytes at the end of HBM page 1. -/
def mem12 : State := { up with mem := up.mem.write 0x1FFE [1#8, 2#8] }

theorem test_read_end_of_page : at_ 0x1FFE % 4096 + 2 = 4096 ∧ mem12.gloc (at_ 0x1FFE) = .own (.hbm 0x1FFE) ∧ mem12.pendingIn (at_ 0x1FFE) 2 = false ∧
    mem12.behindWrite .mgmtPort mem12.order (mem12.gbursts (at_ 0x1FFE) 2) = false ∧
    (pagesOf 0x1FFE 2).any mem12.isWithdrawn = false ∧ mem12.poisonedAt 0x1FFE 2 = false ∧
    (after (.memoryRead .mgmtPort .global (at_ 0x1FFE) 2 []) mem12).out = [.readReply .mgmtPort (at_ 0x1FFE) [1#8, 2#8] false] := by decide
theorem test_read_waits_for_pending_page : let s := { mem12 with pages := [{ page := 1, ticket := 0, tile := 0 }] }
    s.pendingIn (at_ 0x1FFE) 2 = true ∧ (after (.memoryRead .host .global (at_ 0x1FFE) 2 []) s).waitRd.length = 1 := by decide
theorem test_read_unmapped : mem12.canon = true ∧ mem12.gloc (ownAt 0x050000000000) = .own .unmapped ∧
    (after (.memoryRead .mgmtPort .global (ownAt 0x050000000000) 2 []) mem12).out =
      [.readReply .mgmtPort (ownAt 0x050000000000) [0#8, 0#8] false] ∧
    cnt (after (.memoryRead .mgmtPort .global (ownAt 0x050000000000) 2 []) mem12) 0x14 = 1 := by decide
theorem test_write : mem12.sumpHolds 0x1FFF 1 = false ∧ mem12.behindHeld 0x1FFF 1 = false ∧ mem12.behindRead .host mem12.order (burstsOf 0x1FFF 1) = false ∧
    (after (.memoryWrite .host .global (at_ 0x1FFF) [9#8]) mem12).mem.read 0x1FFE 2 = [1#8, 9#8] := by decide

/-- A read by the host of the end of page 1 waits. -/
def hostReads : State := { mem12 with waitRd := [{ who := .host, stamp := 0, addr := at_ 0x1FFE, len := 2 }], order := 1 }
theorem test_write_behind_older_read : hostReads.behindRead .host hostReads.order (burstsOf 0x1FC0 1) = true ∧
    hostReads.behindRead .host hostReads.order (burstsOf 0x1FBF 1) = false ∧ hostReads.behindRead .jtag hostReads.order (burstsOf 0x1FC0 1) = false ∧
    (after (.memoryWrite .host .global (at_ 0x1FC0) [9#8]) hostReads).heldWr.map (·.key) = [0x1FC0] := by decide
theorem test_read_finds_uncorrectable :
    (after (.memoryRead .mgmtPort .global (at_ 0x1FFE) 2 [(0x1FFE / 64, .uncorrectable)]) mem12).mem.poison = [0x1FFE / 64] := by decide

/-- Protected range 0 is page 1 of stack 0, dirty in the inactive bank, while a cut is being copied. -/
def copying : State :=
  let s := force up [(Reg.CKP_RANGE_A 0, Fld.CKP_RANGE_A_KIND, 1), (Reg.CKP_RANGE_A 0, Fld.CKP_RANGE_A_BASE, 0x10000001),
    (Reg.CKP_RANGE_B 0, Fld.CKP_RANGE_B_PAGES, 1)]
  { s with
    mem := { s.mem with dirty := [(dirtyKey 0 0 1, true), (dirtyKey 0 1 1, true)] }
    sump := { s.sump with
      cut := some { ring := 192, seq := 0, step := 5, jobId := 1, trigger := 0, waitSeal := false, waitDrain := false, full := false, direct := false } } }
theorem test_write_held_by_sump : copying.canon = true ∧ copying.sumpHolds 0x1000 1 = true ∧
    (after (.memoryWrite .host .global (at_ 0x1000) [9#8]) copying).heldWr = [{ who := .host, stamp := 0, key := 0x1000, data := [9#8] }] := by decide

theorem test_write_read_only_register : up.answers Reg.MOD_CHIP_NUMBER = true ∧
    (findReg Reg.MOD_CHIP_NUMBER).all (fun x => !x.1.writable || (x.1.mgmt && !(mgmtOf .host))) = true ∧
    cnt (after (.registerWrite .host Reg.MOD_CHIP_NUMBER 5#64) up) 0x11 = 1 := by decide
theorem test_write_config_register_out_of_change : up.fnState 0 = fnSTOPPED ∧
    (findReg Reg.ARR_TILER_CFG).any (fun x => x.1.writable && x.1.owner == some (0, 0)) = true ∧
    cnt (after (.registerWrite .host Reg.ARR_TILER_CFG 5#64) up) 0x11 = 1 := by decide
theorem test_write_config_register_in_change : let s := up.setFn 0 fnCHANGE
    s.canon = true ∧ s.answers Reg.ARR_TILER_CFG = true ∧ s.fnState 0 = fnCHANGE ∧
      (after (.registerWrite .host Reg.ARR_TILER_CFG 0xFFFFFFFFFFFFFFFF#64) s).fget Reg.ARR_TILER_CFG Fld.ARR_TILER_CFG_OVERLAP = 1 := by decide
theorem test_register_holder_timeout : let t := after (.registerHolderTimeout .host 8 false) up
    cnt t 0x14 = 1 ∧ t.out = [.readReply .host (ownAt 0x030000000008) (List.replicate 8 0#8) false] := by decide
theorem test_evr_pop : let s := puts up [(Reg.EVR_HEAD_SEQ, Fld.EVR_HEAD_SEQ_SEQ, 3)]
    let u := { s with evr := { s.evr with full := true } }
    u.canon = true ∧ u.popCount 1 = 2 ∧ (after (.evrPop .host 1) u).fget Reg.EVR_TAIL_SEQ Fld.EVR_TAIL_SEQ_SEQ = 2 := by decide

/-! ### The array -/

/-- A SWEEP of one BF16 product: A and B in pages 1 and 2 of HBM, C (binary32) in page 3. -/
def sweepB : List Byte := desc [(0, 2, 0x1001), (36, 1, 5), (37, 1, 5), (38, 1, 6), (40, 1, 5), (48, 4, 1), (52, 4, 1), (56, 4, 1), (60, 4, 1)]
def sweepQ : List Byte := leBytes 8 (at_ 0x1000) ++ leBytes 8 (at_ 0x2000) ++ leBytes 8 (at_ 0x3000) ++ List.replicate 104 0#8

/-- An array descriptor of ring 0 runs on cell 0 with ticket 1; it multiplies 2 by 3. -/
def runsOn (gone : List Nat) (b p : List Byte) : State :=
  let ts := Machine.dealt b p [0] gone
  { up with
    dark := gone
    mem := (up.mem.write 0x1000 [0x00#8, 0x40#8]).write 0x2000 [0x40#8, 0x40#8]
    started := [{ ring := 0, seq := 0, bytes := b, param := p, fn := 0, gen := 1, deadline := none, slots := 1, ticket := some 1 }]
    arr := { up.arr with
      run := some { ring := 0, seq := 0, op := dOPCODE b, ticket := 1, active := [0], tiles := ts, left := ts.length, gone := gone }
      tickets := [{ num := 1, ring := 0, seq := 0, bytes := b, param := p }] } }
def runs : List Byte → List Byte → State := runsOn []

theorem test_sweep_deals : let s := runs sweepB sweepQ
    (s.runOf 0 0).isSome = true ∧ (s.arr.run.map (fun r => (sweepReads r sweepB sweepQ).any (fun q => s.pendingIn q.1 q.2))) = some false ∧
      (s.arr.run.map (fun r => (s.awareChecks (arrCtx 0 sweepB 0) (sweepReads r sweepB sweepQ)).2)) = some none ∧
      (after (.sweep 0 0 0 []) s).arr.run.map (fun r => (r.left, r.begun)) = some (1, true) := by decide +kernel
theorem test_sweep_fails_on_withdrawn_page : let s := (runs sweepB sweepQ).withdrawPage 1
    (s.arr.run.map (fun r => (s.awareChecks (arrCtx 0 sweepB 0) (sweepReads r sweepB sweepQ)).2)) = some (some 0x01) ∧
      (after (.sweep 0 0 0 []) s).endOf 0 0 = some stFAULTED ∧ (after (.sweep 0 0 0 []) s).arr.run = none := by decide

/-- The sweep once it is begunS, and once its chunk is applied. -/
def begunS : State := after (.sweep 0 0 0 []) (runs sweepB sweepQ)
def applied : State := after (.chunkApply 0 none 0 []) begunS
theorem test_chunk_applies : begunS.arr.run.map (·.begun) = some true ∧
    (applied.arr.run.map (fun r => r.tiles.map (fun t => t.next))) = some [1] := by decide +kernel
theorem test_fold_ends_sweep : (applied.arr.run.map (fun r => (r.left, (groupOf r 0).map (·.num)))) = some (1, [0]) ∧
    (after (.tileFold 0 0 [] false 0 []) applied).arr.run = none ∧ (after (.tileFold 0 0 [] false 0 []) applied).endOf 0 0 = some stSUCCESS ∧
    leNat ((after (.tileFold 0 0 [] false 0 []) applied).mem.read 0x3000 4) = 0x40C00000 := by decide +kernel

/-- A cell of another block is active too. -/
def two (s : State) : State := { s with arr := { s.arr with run := s.arr.run.map (fun r => { r with active := [0, 64] }) } }
def folding : Option Bool :=
  match applied.runOf 0 0, applied.arr.tickets.find? (·.num == 1) with
  | some (r, d), some tk => (groupOf r 0).head?.map (fun u =>
      let x := tileP d.bytes d.param
      let o := applied.outOf x (tk.tiles ++ [foldOf x u []]) (foldOf x u []) true
      u.next == x.chunks && !applied.foldWaits tk (arrOuts d.bytes d.param r.gone) (applied.pagesOfWrites (o.data ++ o.scales)))
  | _, _ => none
theorem test_fold_conditions : folding = some true := by decide +kernel
theorem test_bad_store_word_moves_tile : moveTarget ([0, 64].filter (· != 0)) 0 = some 64 ∧
    (after (.chunkApply 0 (some 0) 0 []) (two begunS)).arr.run.map (fun r => r.tiles.map (fun t => (t.cell, t.next))) = some [(64, 0)] ∧
    (after (.tileFold 0 0 [] true 0 []) (two applied)).arr.run.map (fun r => (r.left, r.tiles.map (fun t => (t.cell, t.next)))) = some (1, [(64, 0)]) := by decide +kernel

/-- An INTERACT with two features of two BF16 values, one sample, in the staging SRAM of block 0; only block 0 has power. -/
def interB : List Byte := desc [(0, 2, 0x1003), (24, 1, 5), (25, 1, 6), (29, 1, 2), (30, 2, 2), (32, 4, 1), (36, 4, 0x4000000), (40, 4, 64),
  (44, 4, 0x4001000), (48, 4, 64)]
def interS : State := runsOn ((List.range 63).map (· + 1)) interB []
theorem test_interact_deals : (interS.runOf 0 0).isSome = true ∧ (interS.arr.run.map (·.tiles.length)) = some 1 ∧
    (interS.arr.run.map (fun r => (sweepReads r interB []).any (fun q => interS.pendingIn q.1 q.2))) = some false ∧
    (interS.arr.run.map (fun r => (interS.awareChecks (arrCtx 0 interB 0) (sweepReads r interB [])).2)) = some none ∧
    (after (.interact 0 0 0 []) interS).arr.run.map (fun r => (r.left, r.begun)) = some (1, true) := by decide +kernel
theorem test_interact_fails : (after (.interact 0 0 0 []) (interS.withdrawPage (2 ^ 28 + 0x4000))).endOf 0 0 = some stFAULTED := by decide

/-- A second tile that is not the last: two rows of tiles. -/
def sweep2 : State := after (.chunkApply 0 none 0 []) (after (.sweep 0 0 0 []) (runs (desc [(0, 2, 0x1001), (36, 1, 5), (37, 1, 5), (38, 1, 6), (40, 1, 5),
  (48, 4, 65), (52, 4, 1), (56, 4, 1), (60, 4, 1)]) (sweepQ.take 76 ++ leBytes 4 64 ++ leBytes 4 64 ++ leBytes 4 64 ++ sweepQ.drop 88)))
theorem test_fold_leaves_others : (sweep2.arr.run.map (fun r => (r.left, (groupOf r 0).map (fun t => (t.num, t.next))))) = some (2, [(0, 1), (1, 1)]) ∧
    (after (.tileFold 0 0 [] false 0 []) sweep2).arr.run.map (fun r => (r.left, r.tiles.map (·.num))) = some (1, [1]) := by decide +kernel

/-- A VE_OP that adds two binary32 vectors of one element. -/
def veB : List Byte := desc [(0, 2, 0x1020), (24, 2, 1), (26, 1, 6), (27, 1, 6), (28, 4, 1), (32, 8, at_ 0x1000), (40, 8, at_ 0x2000), (48, 8, at_ 0x3000)]
theorem test_ve_op : let s0 := runs veB []
    let s : State := { s0 with mem := (up.mem.write 0x1000 (leBytes 4 0x3F800000)).write 0x2000 (leBytes 4 0x40000000) }
    ((veP veB).ins ++ (veP veB).outs).any (fun q => s.pendingIn q.1 q.2) = false ∧ s.canon = true ∧
      (after (.veOp 0 0 []) s).endOf 0 0 = some stSUCCESS ∧ leNat ((after (.veOp 0 0 []) s).mem.read 0x3000 4) = 0x40400000 ∧
      (after (.veOp 0 0 []) s).fget Reg.INTG_TICKET Fld.INTG_TICKET_SETTLED = 0 := by decide
theorem test_ve_op_settles : let s := puts (runs veB []) [(Reg.INTG_TICKET, Fld.INTG_TICKET_SETTLED, 1), (Reg.INTG_TICKET, Fld.INTG_TICKET_NEXT, 2)]
    s.arr.tickets.map (fun k => (k.num, k.tiles.length)) = [(1, 0)] ∧
      (after (.veOp 0 0 []) s).fget Reg.INTG_TICKET Fld.INTG_TICKET_SETTLED = 2 := by decide
theorem test_ve_op_fails : (after (.veOp 0 0 []) ((runs veB []).withdrawPage 1)).endOf 0 0 = some stFAULTED := by decide

theorem test_prefetch : let s := head (force { begunS with arr := { begunS.arr with prefetch := none } } [(Reg.ARR_TILER_CFG, Fld.ARR_TILER_CFG_OVERLAP, 1)]) 31 veB
    s.arrayOrder.getLast? = some 31 ∧ (s.findStarted 0 0).any (fun d => s.eligible d 31 { seq := 0, bytes := veB, deadline := none, slots := 1 }) = true ∧
      (after .prefetchStart s).arr.prefetch = some (31, 0) := by decide +kernel
/-- The same product, its parameter block in HBM page 48, waits at ring 31 of HBM, with one chunk to fetch ahead. -/
def ahead : State :=
  let s := force begunS [(Reg.ARR_TILER_CFG, Fld.ARR_TILER_CFG_OVERLAP, 1), (Reg.ARR_TILER_CFG, Fld.ARR_TILER_CFG_PREFETCH_CHUNKS, 1),
    (Reg.RING_SQ_BASE 31, Fld.RING_SQ_BASE_LOC, 1)]
  head { s with mem := s.mem.write 0x30000 sweepQ } 31
    (desc [(0, 2, 0x1001), (2, 2, 4), (24, 8, at_ 0x30000), (32, 4, 128), (36, 1, 5), (37, 1, 5), (38, 1, 6), (40, 1, 5), (48, 4, 1), (52, 4, 1), (56, 4, 1), (60, 4, 1)])
theorem test_prefetch_fetches : (ahead.sqSt 31).fetched.head?.map (fun f => ((ahead.findStarted 0 0).map (fun d => ahead.eligible d 31 f),
    (ahead.fetchAhead (tileP f.bytes (ahead.peekParam 31 f)) [0]).map (fun c => (c.cell, c.tile, c.chunk)))) = some (some true, [(0, 0, 0)]) := by decide +kernel
theorem test_fence_clear_block : let s := puts up [(Reg.ARR_FENCE_BLOCK, ⟨63, 0⟩, 6)]
    (after (.fenceClearWrite none 0xFFFFFFFFFFFFFFFC#64) s).arr.clearBlock = 4 := by decide
theorem test_fence_clear_cell : let s := puts up [(Reg.ARR_FENCE_CELL 63, ⟨63, 0⟩, 3)]
    (after (.fenceClearWrite (some 63) 1#64) s).arr.clearCell = [(63, 1)] := by decide

/-! ### Scrubbing, cut tokens, GATHER and tags -/

theorem test_scrub_next_burst : let s := { up with scrub := [(15, 2 ^ 30 - 2)] }
    s.fget (Reg.LDG_SCRUB_CFG 7) Fld.LDG_SCRUB_CFG_PERIOD_H ≠ 0 ∧ s.blockUp 0x47 = true ∧ (2 ^ 30 - 2) % 64 ≠ 63 ∧
      (after (.scrubRead 15 .clean) s).scrub = [(15, 2 ^ 30 - 1)] := by decide
/-- A page with FMT 5 whose tag holds CRC c, and whose last burst is read next. -/
def crcIs (c : Nat) : State := { up.putTag 0 (mkTag 5 0 0 c) with scrub := [(0, 63)] }
theorem test_scrub_withdraws : ∃ s : State, s.canon = true ∧ s.fget (Reg.LDG_SCRUB_CFG 0) Fld.LDG_SCRUB_CFG_PERIOD_H ≠ 0 ∧ s.blockUp 0x40 = true ∧
    tblGet zeroAt s.scrub 0 = 63 ∧ s.isOpen 0 = false ∧ s.isWithdrawn 0 = false ∧ s.crcGood 0 = false := by
  have h : ∀ c, (crcIs c).pageBytes 0 = up.mem.read 0 4096 := fun c => Mem.read_write_off (by decide) (.inl (by decide))
  have g : ∀ c, (crcIs c).crcGood 0 = (tagCrc ((crcIs c).tag 0) == crc32c (up.mem.read 0 4096)) := by intro c; rw [State.crcGood, h]
  have e0 : tagCrc ((crcIs 0).tag 0) = 0 := by decide +kernel
  have e1 : tagCrc ((crcIs 1).tag 0) = 1 := by decide +kernel
  by_cases hx : crc32c (up.mem.read 0 4096) = 0
  · exact ⟨crcIs 1, by decide, by decide, by decide, by decide, by decide, by decide, by rw [g, e1, hx]; rfl⟩
  · exact ⟨crcIs 0, by decide, by decide, by decide, by decide, by decide, by decide, by rw [g, e0]; exact beq_false_of_ne (Ne.symm hx)⟩
theorem test_scrub_poison : let s := { up with mem := { up.mem with poison := [0] } }
    tblGet zeroAt s.scrub 0 = 0 ∧ cnt (after (.scrubRead 0 .clean) s) 0x07 = 1 := by decide

/-- A cut whose tokens are on their way to region 7. -/
def cutOn : State := { up with sump := { up.sump with
  tokens := [7], cut := some { ring := 192, seq := 0, step := 5, jobId := 1, trigger := 0, waitSeal := false, waitDrain := false, full := false, direct := false } } }
theorem test_cut_token_swaps : cutOn.canon = true ∧ cutOn.inactivePages 7 = [] ∧ (after (.cutTokenArrival 7) cutOn).activeBank 7 = 1 - cutOn.activeBank 7 ∧
    (after (.cutTokenArrival 7) cutOn).sump.cut.map (·.swapped) = some [7] := by decide
theorem test_cut_token_held : let s := { cutOn with mem := { cutOn.mem with dirty := [(dirtyKey 14 (1 - cutOn.activeBank 7) 5, true)] } }
    s.canon = true ∧ s.inactivePages 7 ≠ [] ∧ (after (.cutTokenArrival 7) s).sump.held = [7] := by decide
theorem test_cut_token_released : let s := { cutOn with sump := { cutOn.sump with tokens := [], held := [7] } }
    s.inactivePages 7 = [] ∧ (after (.cutTokenRelease 7) s).sump.held = [] ∧ (after (.cutTokenRelease 7) s).activeBank 7 = 1 - cutOn.activeBank 7 := by decide

/-- Table 0 of region 0: 1,024 binary32 rows of one element in one bucket of this module; row 0 is 1.0. -/
def entryB : List Byte := desc [(0, 1, 1), (1, 1, 6), (2, 1, 10), (4, 2, 1), (6, 1, 6), (16, 8, at_ 0x11000), (24, 8, at_ 0x20000), (32, 4, 7), (40, 4, 1)]
def table : State :=
  let s := force up [(Reg.LDG_TBL_DIR_BASE 0, Fld.LDG_TBL_DIR_BASE_BASE, at_ 0x10000 / 4096), (Reg.LDG_TBL_DIR_CFG 0, Fld.LDG_TBL_DIR_CFG_COUNT, 1)]
  { s with mem := ((s.mem.write 0x10000 entryB).write 0x11000 (leBytes 4 0xFFFF)).write 0x20000 (leBytes 4 0x3F800000) }

/-- A GATHER of row 0 into the staging SRAM of block 0. -/
def gatherB : List Byte := desc [(0, 2, 0x2001), (26, 1, 6), (30, 1, 1), (32, 4, 1), (36, 4, 64), (40, 8, at_ 0x12000), (56, 8, stagingAddr 0 0x4000000)]
def gathering : State := after (.gather 0 0 [] [] [] []) (start table 0 0x10 gatherB)
theorem test_gather_conditions : let s := start table 0 0x10 gatherB
    let p := gatherP gatherB
    let e := tblEntry entryB
    let c := gatherCtx 0 p.region gatherB
    let who := masterOf 0x40 (originOfDesc 0 0 gatherB)
    let q := s.awareChecks c [(s.entryAddr 0 0, 64), (p.ofs, p.ofsLen)]
    let x := q.1.extRead who true p.ofs p.ofsLen []
    let os := gatherOfs p x.2
    let y := (x.1.awareChecks c [(p.idx, 8), (p.weights, 0)]).1.extRead who true p.idx 8 []
    let s1 := (y.1.extRead who true p.weights 0 []).1
    (p.region, p.table, p.pool == 4) = (0, 0, false) ∧ s.pendingIn (s.entryAddr 0 0) 64 = false ∧ s.pendingIn p.ofs p.ofsLen = false ∧ q.2 = none ∧
      q.1.tableOf 0 0 = some entryB ∧ p.entryBad e = false ∧ ofsGood p.pool os = true ∧ os.getLastD 0 = 1 ∧ x.1.pendingIn p.idx 8 = false ∧
      x.1.pendingIn p.weights 0 = false ∧ (x.1.awareChecks c [(p.idx, 8), (p.weights, 0)]).2 = none ∧ (chunksOf 8 1 y.2).map leNat = [0] ∧
      s1.ownAddr p.out = true ∧ (s1.placeOf (e.mapAddr 0)).isSome = true ∧ (s1.awareCheck c (e.mapAddr 0) 4 none none).2 = none ∧
      s1.ownAddr ((s1.placeRow e 0).1 * 2 ^ 48) = true := by decide +kernel
theorem test_gather_without_entry : (after (.gather 0 0 [] [] [] []) (start up 0 0x10 gatherB)).endOf 0 0 = some stBAD_OPERAND := by decide +kernel
theorem test_gather : (gathering.findGather 0 0).map (fun g => (g.bags.map (·.length), g.opened, g.written)) = some ([1], false, []) ∧
    gathering.endOf 0 0 = none ∧ (gathering.findStarted 0 0).map (·.begun) = some true := by decide +kernel
theorem test_row_reply : let t := after (.rowReply 0 0 0 none []) gathering
    (gathering.findGather 0 0).map (fun g => (posAt g 0).map (·.st)) = some (some 2) ∧
      (t.findGather 0 0).map (fun g => (posAt g 0).map (fun q => (q.st, leNat q.data))) = some (some (3, 0x3F800000)) := by decide +kernel

/-- The OPEN message that the GATHER sent, and the target's answer. -/
def openMsg : Packet := gathering.fab.delivered.headD { dst := 0, src := 0, kind := 0 }
def opened : State := after (.gatherOpen openMsg) gathering
def opens : Packet := opened.fab.delivered.headD { dst := 0, src := 0, kind := 0 }
theorem test_open_answer : openMsg.kind = 0x13 ∧ openMsg.src = 0xFFFF ∧ (gathering.take openMsg).isSome = true ∧
    opened.fab.delivered.map (fun k => (k.kind, k.tag)) = [(0x14, openMsg.tag)] := by decide +kernel
theorem test_open_opens : (opened.findGather 0 0).map (fun g => (g.openTag == opens.tag, g.bags.any bagReady)) = some (true, false) ∧
    ((after (.gatherOpen opens) opened).findGather 0 0).map (·.opened) = some true := by decide +kernel
theorem test_open_refused : (after (.gatherOpen { opens with kind := 0x15 })
    { opened with fab := { opened.fab with delivered := [{ opens with kind := 0x15 }] } }).endOf 0 0 = some stBAD_OPERAND := by decide +kernel
theorem test_gather_ends : let t := after (.rowReply 0 0 0 none []) (after (.gatherOpen opens) opened)
    t.endOf 0 0 = some stSUCCESS ∧ leNat (t.mem.read (2 ^ 40 + 0x4000000) 4) = 0x3F800000 := by decide +kernel

/-- A row request from this module. -/
def rowReq (table : Nat) : Packet := { dst := 0xFFFF, src := 0xFFFF, kind := 0x10, tag := 9, body := rowReqBody table 7 0 0, vc := 3, port := 5 }
def asked (table : Nat) (s : State) : State := { s with fab := { s.fab with delivered := [rowReq table] } }
theorem test_row_request_unknown_table : ((asked 1 table).take (rowReq 1)).isSome = true ∧ table.tableOf 0 1 = none ∧
    (after (.rowRequest 0 (rowReq 1) []) (asked 1 table)).fab.delivered.map (fun k => (k.kind, k.body)) = [(0x12, [0#8, 0#8, 0#8, 0#8, 0#8])] := by decide +kernel
theorem test_row_request : let s := asked 0 (table.setFn 0x10 fnRUN)
    let e := tblEntry entryB
    s.tableOf 0 0 = some entryB ∧ e.mapVer = 7 ∧ 0 < e.slots ∧ s.fnState 0x10 = fnRUN ∧ s.pendingIn (e.rowAddr 0 0) e.payload = false ∧
      (s.readRow { die := 0x40, unit := 0x13, region := some 0 } e (e.rowAddr 0 0)).2 = none ∧
      (after (.rowRequest 0 (rowReq 0) []) s).fab.delivered.map (fun k => (k.kind, k.tag, leNat k.body)) = [(0x11, 9, 0x3F800000)] := by decide +kernel
theorem test_row_refusal : let k : Packet := { dst := 0xFFFF, src := 0x0625, kind := 0x12, gen := 1, body := leBytes 4 0 ++ leBytes 1 0, vc := 3 }
    let s := { gathering with
      fab := { gathering.fab with delivered := [k] }
      gathers := gathering.gathers.map (fun g => { g with bags := g.bags.map (fun b => b.map (fun q => { q with chip := 0x0625 })) }) }
    (s.findGather 0 0).map (waitsTag k.tag) = some true ∧
      (s.findStarted 0 0).map (fun d => (d.gen, d.done)) = some (1, none) ∧ (after (.rowReply 0 0 0 (some k) []) s).endOf 0 0 = some stREFUSED := by decide +kernel

/-- TAG_SEAL and TAG_VERIFY of page 1 with a FMT. -/
def sealB (op fmt : Nat) : List Byte := desc [(0, 2, op), (25, 1, fmt), (28, 4, 1), (32, 8, at_ 0x1000)]
theorem test_tag_seal : let s := start mem12 0 0x10 (sealB 0x2020 5)
    (s.findStarted 0 0).map (fun d => (s.tagOpReady d 0x2020, s.tagOpPages d.bytes, s.isWithdrawn 1)) = some (true, [1], false) ∧ alwaysOpen 1 = false := by decide
theorem test_tag_verify_passes : let s := start mem12 0 0x10 (sealB 0x2021 0xFF)
    (s.findStarted 0 0).map (fun d => s.tagOpReady d 0x2021) = some true ∧
      (((after (.tagVerify 0 0 []) s).findStarted 0 0).bind (·.done)).map (fun o => (o.status, o.result)) = some (stSUCCESS, 2 ^ 32) := by decide
theorem test_tag_verify_fails : let s := start mem12 0 0x10 (sealB 0x2021 5)
    (((after (.tagVerify 0 0 []) s).findStarted 0 0).bind (·.done)).map (fun o => (o.status, o.result)) = some (stSUCCESS, 2 ^ 32 + 1) ∧
      cnt (after (.tagVerify 0 0 []) s) 0x09 = 1 := by decide

/-! ### The Update engines -/

/-- The rule table of region 0 at HBM place 0x30000: entry 0 has p' = p - g (c0 = c7 = c11 = 1), TYPE 1 (DIAG). -/
def ones : List Nat := [0x3F800000, 0, 0, 0, 0, 0, 0, 0x3F800000, 0, 0, 0, 0x3F800000, 0, 0, 0, 0]
def rules : State :=
  let s := force table [(Reg.UPD_RULE_BASE 0, Fld.UPD_RULE_BASE_BASE, at_ 0x30000 / 4096)]
  { s with mem := ((s.mem.write 0x30100 (ones.flatMap (leBytes 4) ++ [1#8, 0#8, 1#8])).write 0x40000 (leBytes 4 0x40400000)).write 0x41000 (leBytes 4 0x3F800000) }

/-- An update on Update engine 0 of ring 32. -/
def updating (b : List Byte) (i : Nat) (fault : Option Nat := none) : State :=
  let s := puts (start rules 32 0x11 b) [(Reg.UPD_PROGRESS 0, Fld.UPD_PROGRESS_NEXT, i)]
  s.setUpd 0 (some { ring := 32, seq := 0, begun := true, slot := ones.flatMap (leBytes 4) ++ [1#8, 0#8, 1#8] ++ List.replicate 61 0#8, fault := fault })

/-- UPDATE_DENSE of two records and binary32 gradients; UPDATE_ROWS of one row. -/
def denseB : List Byte := desc [(0, 2, 0x2010), (26, 1, 6), (28, 4, 2), (32, 4, 1), (40, 8, at_ 0x40000), (48, 8, at_ 0x41000)]
def rowsB : List Byte := desc [(0, 2, 0x2011), (26, 1, 6), (30, 1, 1), (32, 4, 1), (36, 4, 64), (40, 8, at_ 0x12000), (48, 8, at_ 0x41000)]

/-- What the statement about updates asks of unit i. -/
def unitOk (s : State) (b : List Byte) (i : Nat) : Bool :=
  match s.updRun 0 with
  | some u =>
    let c := updCtx u 0 b
    let q := foldChecks s (fun s x => s.updCheck c (s.updWhole u b) x) (s.updReads u b i)
    let w := q.1.updUnit u b i
    let x := q.1.updPut 0 b u w.1
    i < updTotal u b && !(s.updReads u b i).any (fun x => s.pendingIn x.1 x.2.1) && q.2.isNone && x.2.isNone && tblWf noUpd s.upd && s.canon
  | none => false
theorem test_update_dense_goes_on : unitOk (updating denseB 0) denseB 0 = true ∧
    (after (.updateDense 32 0 1 none []) (updating denseB 0)).fget (Reg.UPD_PROGRESS 0) Fld.UPD_PROGRESS_NEXT = 1 ∧
    leNat ((after (.updateDense 32 0 1 none []) (updating denseB 0)).mem.read 0x40000 4) = 0x40000000 := by decide +kernel
theorem test_update_dense_ends : unitOk (updating denseB 1) denseB 1 = true ∧
    (after (.updateDense 32 0 1 none []) (updating denseB 1)).endOf 32 0 = some stSUCCESS ∧
    (after (.updateDense 32 0 1 none []) (updating denseB 1)).updRun 0 = none := by decide +kernel
theorem test_update_rows_ends : unitOk (updating rowsB 0) rowsB 0 = true ∧
    (after (.updateRows 32 0 1 none []) (updating rowsB 0)).endOf 32 0 = some stSUCCESS := by decide +kernel

/-- SETCOEF of entry 3 of region 0 with coefficients of zero for step 9; one pending for step 8. -/
def setcoefB : List Byte := desc [(0, 2, 0x2018), (25, 1, 3), (26, 1, 1), (28, 4, 9), (32, 8, at_ 0x42000)]
theorem test_setcoef : let s := updating setcoefB 0
    s.pendingIn (at_ 0x42000) 64 = false ∧ s.pendingIn (s.pendingSlot 0 3) 128 = false ∧ s.sump.cut = none ∧
      (((after (.setcoef 32 0 []) s).findStarted 32 0).bind (·.done)).map (fun o => (o.status, o.result)) = some (stSUCCESS, 2 ^ 48 + 1) := by decide +kernel
theorem test_setcoef_refused : let s0 := updating setcoefB 0
    let s := { s0 with mem := s0.mem.write (0x30180 + 256 * 3 + 64) [1#8, 0#8, 1#8, 0#8, 8#8] }
    slotType (s.gread (s.pendingSlot 0 3) 128) = 1 ∧ slotEff (s.gread (s.pendingSlot 0 3) 128) = 8 ∧ (after (.setcoef 32 0 []) s).endOf 32 0 = some stREFUSED := by decide +kernel
theorem test_ve_takeover : let s := (updating denseB 0 (some 0x07)).setFn 0 fnRUN
    s.canon = true ∧ tblWf noUpd s.upd = true ∧ s.veBlock (ownerBlock denseB) = some 0 ∧
      ((after (.veTakeover 0) s).updRun 0).map (fun u => (u.ve, u.fault)) = some (some 0, none) ∧
      ((after (.veTakeover 0) s).findStarted 32 0).map (·.fallback) = some true := by decide +kernel
theorem test_ve_takeover_none : let s := updating denseB 0 (some 0x07)
    s.veBlock (ownerBlock denseB) = none ∧ (after (.veTakeover 0) s).endOf 32 0 = some stFAULTED ∧ (after (.veTakeover 0) s).updRun 0 = none := by decide
theorem test_update_mismatch : ((after (.updateDense 32 0 1 (some 0) []) (updating denseB 0)).updRun 0).map (·.fault) = some (some 0x01) ∧
    ((after (.updateRows 32 0 1 (some 0) []) (updating rowsB 0)).updRun 0).map (·.fault) = some (some 0x01) := by decide +kernel

/-- The same updates, not begun. -/
def fresh (b : List Byte) : State := (start rules 32 0x11 b).setUpd 0 (some { ring := 32, seq := 0 })
theorem test_update_begins : (fresh denseB).pendingIn ((fresh denseB).activeSlot 0 0) 256 = false ∧
    ((fresh denseB).beginUpd 0 { ring := 32, seq := 0 } denseB).2 = none ∧
    ((after (.updateDense 32 0 0 none []) (fresh denseB)).updRun 0).map (·.begun) = some true ∧
    ((after (.updateRows 32 0 0 none []) (fresh rowsB)).updRun 0).map (·.begun) = some true := by decide +kernel
theorem test_setcoef_bad : let s0 := updating setcoefB 0
    (after (.setcoef 32 0 []) { s0 with mem := s0.mem.write 0x42000 (leBytes 4 0x7F800000) }).endOf 32 0 = some stBAD_OPERAND := by decide +kernel

/-! ### Ports -/

/-- Port 0 in a state, planned to meet chip 9 at its port 4, with what the port holds. -/
def port (st : Nat) (pt : Port) : State :=
  (puts (force chip [(Reg.FAB_PORT_CFG 0 0, Fld.FAB_PORT_CFG_PLANNED, 1), (Reg.FAB_PORT_CFG 0 0, Fld.FAB_PORT_CFG_ENABLE, 1),
    (Reg.FAB_PORT_CFG 0 0, Fld.FAB_PORT_CFG_PLAN_CHIP, 9), (Reg.FAB_PORT_CFG 0 0, Fld.FAB_PORT_CFG_PLAN_PORT, 4)])
    [(Reg.FAB_PORT_STATUS 0 0, Fld.FAB_PORT_STATUS_STATE, st)]).setPort 0 pt

/-- The flits that have left, with their ports. -/
def sentFlits (s : State) : List (Nat × Flit) := s.out.filterMap (fun o => match o with | .flit p g _ => some (p, g) | _ => none)

/-- Two DATA flits. -/
def flit (n : Nat) : Flit := { type := 1, seq := n, vc := 1, sop := true, eop := true, payload := packetBytes { dst := 0xFFFF, src := 9, kind := 2, tag := 3 } }
def replaying : State := port pACTIVE { replay := [flit 5, flit 6], nakRun := 3 }
theorem test_ack : replaying.carries 0 = true ∧ tblWf portDefault replaying.fab.ports = true ∧ (replaying.port 0).replay.any (·.seq == 5) = true ∧
    ((after (.ackReceive 0 5) replaying).port 0).replay = [flit 6] := by decide
theorem test_nak : replaying.canon = true ∧ ((after (.nakReceive 0 5) replaying).port 0).resend = [flit 6] ∧
    (after (.nakReceive 0 5) replaying).fget (Reg.FAB_PORT_ERR 0 0) Fld.FAB_PORT_ERR_REPLAYS = 1 := by decide
theorem test_ack_timer : let s := port pACTIVE { sinceAck := 1, lastAck := 100, rxNext := 0 }
    s.carries 0 = true ∧ 0 < (s.port 0).sinceAck ∧ sentFlits (after (.ackTimer 0) s) = [(0, { ackSeq := 4095, ackValid := true })] ∧
      (after (.ackTimer 0) s).clk.now = 1100 := by decide
theorem test_idle_returns_credit : let s := port pACTIVE { used := [(2, 5)] }
    ((after (.idleFlitReceive 0 { credit0 := some (1, 0, 2) } true) s).port 0).used = [(2, 3)] ∧
      (after (.idleFlitReceive 0 { credit0 := some (1, 0, 2) } true) s).fget (Reg.FLT_AUDIT 0) Fld.FLT_AUDIT_RETURNED = 2 := by decide
theorem test_data_flit : let s := port pACTIVE { rxNext := 4095 }
    s.portState 0 = pACTIVE ∧ (s.port 0).rxNext = 4095 ∧ ((after (.dataFlitReceive 0 (flit 4095) true) s).port 0).rxNext = 0 ∧
      ((after (.dataFlitReceive 0 (flit 4095) true) s).port 0).inbox.map (fun e => (e.1.kind, e.1.tag, e.2)) = [(2, 3, 1)] := by decide
theorem test_data_flit_bad_crc : let t := after (.dataFlitReceive 0 (flit 0) false) (port pACTIVE {})
    (t.port 0).rxNext = 0 ∧ (t.port 0).discard = true ∧ (t.port 0).inbox = [] ∧ t.fget (Reg.FAB_PORT_ERR 0 0) Fld.FAB_PORT_ERR_CRC_ERR = 1 := by decide
theorem test_send_link : let s := port pDISCOVERING { linkOut := [.keepWarm] }
    s.carries 0 = true ∧ sentFlits (after (.flitSend 0 none) s) = [(0, { type := 2, link := some .keepWarm, ackSeq := 4095, ackValid := true })] ∧
      ((after (.flitSend 0 none) s).port 0).lastLink = true := by decide
theorem test_send_idle : let s := port pDISCOVERING {}
    s.carries 0 = true ∧ s.portState 0 ≠ pACTIVE ∧ sentFlits (after (.flitSend 0 none) s) = [(0, { ackSeq := 4095, ackValid := true })] := by decide +kernel
theorem test_send_replay : let s := port pACTIVE { replay := [flit 6], resend := [flit 6] }
    s.carries 0 = true ∧ sentFlits (after (.flitSend 0 none) s) = [(0, { flit 6 with ackSeq := 4095, ackValid := true })] ∧
      ((after (.flitSend 0 none) s).port 0).resend = [] ∧ ((after (.flitSend 0 none) s).port 0).replay = [flit 6] := by decide

/-- A packet of 33 bytes waits on VC1. -/
def waiting : State := (port pACTIVE { txSeq := 4095 }).enqueue 0 { dst := 9, src := 0x0625, kind := 2, body := [7#8] } none 0 false
theorem test_send_data : waiting.carries 0 = true ∧ waiting.nextVc 0 = some 1 ∧ (waiting.pairReady 0 1).map (fun x => (x.1, x.2.rest.length)) = some (0, 33) ∧
    (sentFlits (after (.flitSend 0 none) waiting)).map (fun e => (e.1, e.2.type, e.2.seq, e.2.vc, e.2.payload.length)) =
      [(0, 1, 4095, 1, 33)] ∧ ((after (.flitSend 0 none) waiting).port 0).txSeq = 0 ∧
      ((after (.flitSend 0 none) waiting).port 0).replay.map (·.seq) = [4095] := by decide
/-- R307. The bytes of a flit: its CRC-32C covers bytes 0 to 251. -/
theorem test_flit_bytes : (flitBytes (flit 6)).length = 256 ∧ (flitBytes (flit 6)).take 4 = [6#8, 0x10#8, 0x19#8, 32#8] ∧
    leAt (flitBytes (flit 6)) 252 4 = crc32c ((flitBytes (flit 6)).take 252) := by decide +kernel
theorem test_send_link_conditions : let s := port pDISCOVERING { linkOut := [.keepWarm] }
    s.vc0Ready 0 = false ∧ ((after (.flitSend 0 none) s).port 0).linkSent = [.keepWarm] := by decide
theorem test_idle_bad_crc : (sentFlits (after (.idleFlitReceive 0 {} false) (port pACTIVE {}))).map (fun e => (e.1, e.2.nak, e.2.ackSeq)) = [(0, true, 4095)] := by decide

theorem test_retrain : let s := port pACTIVE { nakRun := 8 }
    s.canon = true ∧ s.portState 0 = pACTIVE ∧ (after (.portRetrain 0) s).portState 0 = pTRAINING ∧ ((after (.portRetrain 0) s).port 0).nakRun = 0 := by decide
theorem test_link_loss : (after (.portLinkLoss 0) (port pACTIVE {})).portState 0 = pTRAINING ∧ (after (.portLinkLoss 0) (port pDORMANT {})).portState 0 = pTRAINING ∧
    (after (.portLinkLoss 0) (port pQUARANTINED {})).portState 0 = pTRAINING := by decide
theorem test_down_retry : let s := port pDOWN { trainAt := 7 }
    s.portState 0 = pDOWN ∧ (after (.portDownRetry 0) s).portState 0 = pTRAINING ∧ (after (.portDownRetry 0) s).clk.now = 1000000007 := by decide
theorem test_training_timeout : let s := port pTRAINING { trainAt := 7 }
    s.portState 0 = pTRAINING ∧ (s.recentRetrains 0).length < 3 ∧ (s.port 0).retry = false ∧ (after (.portTrainingTimeout 0) s).portState 0 = pDOWN ∧
      cnt (after (.portTrainingTimeout 0) s) 0x06 = 1 ∧ (after (.portTrainingTimeout 0) s).clk.now = 5000007 := by decide
theorem test_training_complete : let s := port pTRAINING { replay := [flit 5, flit 6], passedOff := false }
    s.portState 0 = pTRAINING ∧ (s.port 0).passedOff = false ∧ (after (.portTrainingComplete 0 5 false) s).portState 0 = pDISCOVERING ∧
      ((after (.portTrainingComplete 0 5 false) s).port 0).resend = [flit 6] := by decide
theorem test_training_complete_off : let s := port pTRAINING { replay := [flit 5, flit 6], txSeq := 7, passedOff := true }
    ((after (.portTrainingComplete 0 5 false) s).port 0).replay = [] ∧ ((after (.portTrainingComplete 0 5 false) s).port 0).txSeq = 0 := by decide
theorem test_hello_timer : let t := after .helloTimer (port pACTIVE {})
    (t.port 0).linkOut = [.hello 0x0625 true 0] ∧ (t.port 1).linkOut = [] := by decide +kernel
/-- A LINK flit with a HELLO. -/
def hello (c : Nat) (valid : Bool) (p : Nat) : Flit := { type := 2, link := some (.hello c valid p) }
theorem test_hello_planned : let s := port pDISCOVERING {}
    s.canon = true ∧ s.carries 0 = true ∧ s.chip = some 0x0625 ∧ s.planned 0 = true ∧ 9 = s.portCfg 0 Fld.FAB_PORT_CFG_PLAN_CHIP ∧
      (after (.helloReceive 0 (hello 9 true 4) true) s).portState 0 = pACTIVE ∧
      (after (.helloReceive 0 (hello 9 true 4) true) s).fget (Reg.FAB_PORT_STATUS 0 0) Fld.FAB_PORT_STATUS_NEIGH_CHIP = 9 := by decide
theorem test_hello_wrong_chip : (after (.helloReceive 0 (hello 8 true 4) true) (port pDISCOVERING {})).portState 0 = pQUARANTINED ∧
    (after (.helloReceive 0 (hello 0x0625 true 4) true) (port pDISCOVERING {})).portState 0 = pQUARANTINED := by decide
theorem test_hello_unplanned : let s := puts (chip.setPort 1 {}) [(Reg.FAB_PORT_STATUS 0 1, Fld.FAB_PORT_STATUS_STATE, pDISCOVERING)]
    s.planned 1 = false ∧ (after (.helloReceive 1 (hello 9 true 4) true) s).portState 1 = pDORMANT ∧ cnt (after (.helloReceive 1 (hello 9 true 4) true) s) 0x0A = 1 := by decide
theorem test_hello_not_valid : (after (.helloReceive 0 (hello 9 false 4) true) (port pDISCOVERING {})).portState 0 = pDISCOVERING := by decide
theorem test_discovery_timeout : let s0 := port pTRAINING {}
    let s := { s0 with fab := { s0.fab with discStart := some 5 } }
    s.canon = true ∧ s.planned 0 = true ∧ (after (.discoveryTimeout 0) s).portState 0 = pDOWN ∧ (after (.discoveryTimeout 0) s).clk.now = 10000000005 ∧
      (after (.discoveryTimeout 0) s).fget Reg.FAB_PLAN_STATUS Fld.FAB_PLAN_STATUS_DEGRADED = 1 := by decide
theorem test_keep_warm : let s := port pACTIVE { kwAsked := true, linkOut := [.keepWarm], linkSent := [.keepWarm] }
    (s.port 0).queued 2 5 = 0 ∧ (after (.keepWarmRequest 0 (some { type := 2, link := some .keepWarm }) true) s).fget (Reg.FAB_PORT_STATUS 0 0) Fld.FAB_PORT_STATUS_KW = 1 := by decide
theorem test_keep_warm_asks : let s := force (port pACTIVE {}) [(Reg.FAB_PORT_CFG 0 0, Fld.FAB_PORT_CFG_KW_FORCE, 1)]
    s.wantsKeepWarm 0 = true ∧ ((after (.keepWarmRequest 0 none true) s).port 0).linkOut = [.keepWarm] := by decide

/-- Port 0 in Keep-warm. -/
def warm (pt : Port) : State := puts (port pACTIVE pt) [(Reg.FAB_PORT_STATUS 0 0, Fld.FAB_PORT_STATUS_KW, 1)]
theorem test_keep_warm_exit_asked : (warm {}).carries 0 = true ∧ ((after (.keepWarmExitRequest 0 (some { type := 2, link := some .keepWarmExit }) true) (warm {})).port 0).kwExit = true := by decide
theorem test_keep_warm_exit_asks : (warm {}).leavesKeepWarm 0 = true ∧ ((after (.keepWarmExitRequest 0 none true) (warm {})).port 0).linkOut = [.keepWarmExit] := by decide
theorem test_keep_warm_ends : ((warm { kwExit := true }).port 0).kwExit = true ∧
    (after (.keepWarmExitComplete 0) (warm { kwExit := true })).fget (Reg.FAB_PORT_STATUS 0 0) Fld.FAB_PORT_STATUS_KW = 0 := by decide

/-! ### Packets -/

/-- Packets in the inbox of port 0 of link die 0; the route to chip 9 leads over port 1 and crosses the dateline. -/
def inbox (k : Packet) : State :=
  puts ((force (chip.setPort 0 { inbox := [(k, 1)] }) [(Reg.FAB_PORT_CFG 0 1, Fld.FAB_PORT_CFG_NGROUP, 3)]).setReg (Reg.FAB_ROUTE 0 (512 + 0))
      (BitVec.ofNat 64 (2 ^ 63 + 2 ^ 61)))
    [(Reg.FAB_PORT_STATUS 0 1, Fld.FAB_PORT_STATUS_STATE, pACTIVE), (Reg.FAB_PORT_STATUS 0 1, Fld.FAB_PORT_STATUS_NEIGH_CHIP, 9),
     (Reg.FAB_ROUTE 0 512, Fld.FAB_ROUTE_GROUP, 3), (Reg.FAB_ROUTE 0 512, Fld.FAB_ROUTE_NEXT, 9)]
theorem test_packet_delivered : let k : Packet := { dst := 0xFFFF, src := 9, kind := 0x21 }
    ((inbox k).takeInbox 0 k).isSome = true ∧ servedKind k = false ∧ (after (.packetReceive 0 (some 0) k []) (inbox k)).fab.delivered = [k] := by decide
theorem test_packet_forwarded : let k : Packet := { dst := 9, src := 8, kind := 0x21, ttl := 2 }
    (inbox k).route 0 9 = some ([1], true) ∧ tblWf portDefault (inbox k).fab.ports = true ∧
      ((after (.packetReceive 0 (some 0) k []) (inbox k)).port 1).queue.map (fun e => (e.1, e.2.map (fun q => (q.pkt.ttl, q.pkt.cls, q.from_)))) =
        [(pairKey 1 1, [(1, 1, some 0)])] := by decide
theorem test_packet_without_ttl : let k : Packet := { dst := 9, src := 8, kind := 0x21, ttl := 1 }
    (inbox k).canon = true ∧ isRequest k.kind = false ∧ (after (.packetReceive 0 (some 0) k []) (inbox k)).fab.delivered = [] ∧
      (after (.packetReceive 0 (some 0) k []) (inbox k)).fget (Reg.FAB_STATUS 0) Fld.FAB_STATUS_NO_ROUTE = 1 := by decide

/-- A packet delivered to this module while the host reads eight bytes under tag 3. -/
def got (k : Packet) : State := { chip with fab := { chip.fab with delivered := [k], reads := [{ tag := 3, who := .host, addr := 0x1000, len := 8 }] } }
theorem test_reply_ends_read : let k : Packet := { dst := 0xFFFF, src := 9, kind := 2, tag := 3, body := [1#8] }
    ((got k).take k).isSome = true ∧ (after (.packetReceive 0 none k []) (got k)).out = [.readReply .host 0x1000 [1#8] false] ∧
      (after (.packetReceive 0 none k []) (got k)).fab.reads = [] := by decide
theorem test_error_reply_ends_read : let k : Packet := { dst := 0xFFFF, src := 9, kind := 6, tag := 3, err := 1, vc := 4 }
    ((got k).take k).isSome = true ∧ Out.readReply .host 0x1000 (List.replicate 8 0#8) false ∈ (after (.errorReplyReceive k) (got k)).out ∧
      cnt (after (.errorReplyReceive k) (got k)) 0x14 = 1 := by decide
theorem test_error_reply_ends_gather : let k : Packet := { dst := 0xFFFF, src := 0x0625, kind := 6, gen := 1, err := 1, vc := 3 }
    let s := { gathering with fab := { gathering.fab with delivered := [k] } }
    ((s.gathers.find? (fun g => (g.openTag == k.tag && !g.opened) || g.bags.any (fun b => b.any (fun q => q.st == 2 && q.tag == k.tag)))).map
        (fun g => (g.ring, g.seq))) = some (0, 0) ∧ (s.findStarted 0 0).map (fun d => (d.gen, d.done)) = some (1, none) ∧
      (after (.errorReplyReceive k) s).endOf 0 0 = some stFAULTED := by decide +kernel
theorem test_error_reply_stale : let k : Packet := { dst := 0xFFFF, src := 0x0625, kind := 6, gen := 2, err := 1, vc := 3 }
    let s := { gathering with fab := { gathering.fab with delivered := [k] } }
    (after (.errorReplyReceive k) s).endOf 0 0 = none ∧ cnt (after (.errorReplyReceive k) s) 0x12 = 1 := by decide +kernel

/-! ### The Rope -/

/-- A rope table: this module with the child chip 9. -/
def ropeT : List Byte := leBytes 4 0x0625 ++ leBytes 4 1 ++ leBytes 4 1 ++ leBytes 4 0xFFFFFFFF ++ leBytes 4 9 ++ leBytes 8 0 ++ leBytes 4 0xFFFFFFFF
def jobB : List Byte := leBytes 8 (at_ 0x50000) ++ leBytes 4 2 ++ leBytes 4 77 ++ List.replicate 8 0#8 ++ leBytes 8 (at_ 0x51000) ++ List.replicate 32 0#8

/-- JOB_START or JOB_END runs. -/
def roping (b p : List Byte) : State :=
  { ring with mem := ring.mem.write 0x50000 ropeT, started := [{ ring := 2, seq := 0, bytes := b, param := p, fn := 0x30, gen := 1, deadline := none, slots := 1 }] }
theorem test_job_start : let s := roping (desc [(0, 2, 0x3001)]) jobB
    s.canon = true ∧ s.chip ≠ none ∧ ropeOk (s.gread (at_ 0x50000) 32) 2 s.ownChip = true ∧ ropeKids (s.gread (at_ 0x50000) 32) 0 = [1] ∧
      s.fabricRefuses = false ∧ s.fab.token = true ∧ s.nodeOf 77 = none ∧ s.fnState (sqFn 0) = fnRUN ∧
      (after (.jobStart 2 0 []) s).fab.root.map (fun r => (r.job, r.n, r.phase, r.okCount, r.waiting)) = some (77, 2, 0, 1, [1]) ∧
      (after (.jobStart 2 0 []) s).fab.token = false := by decide
theorem test_job_start_bad_table : let s := roping (desc [(0, 2, 0x3001)]) (leBytes 8 (at_ 0x50010) ++ jobB.drop 8)
    ropeOk (s.gread (at_ 0x50010) 32) 2 s.ownChip = false ∧ (after (.jobStart 2 0 []) s).endOf 2 0 = some stBAD_OPERAND := by decide

/-- The root in a phase; one module acknowledged. -/
def root (r : RopeRoot) : State := let s := roping (desc [(0, 2, 0x3001)]) jobB; { s with fab := { s.fab with root := some r } }
def root0 : RopeRoot := {
  ring := 2, seq := 0, job := 77, n := 2, addr := at_ 0x50000, stat := at_ 0x51000, height := 1, startRing := 0, keep := false,
  wait := 100, lead := 5, sentAt := 50, waiting := [1], entries := ropeT, okCount := 1 }
theorem test_root_arm_timeout : let t := after .rootArmTimeout (root root0)
    t.clk.now = 150 ∧ t.fab.root.map (fun r => (r.phase, r.silent, r.waiting, r.sentAt)) = some (1, [1], [], 150) := by decide
theorem test_missing_in_arm : let t := after .missingTimeout (root { root0 with phase := 1 })
    t.fab.root = none ∧ t.endOf 2 0 = some stFAULTED := by decide
theorem test_missing_in_commit : (after .missingTimeout (root { root0 with phase := 3, cCount := 2 })).endOf 2 0 = some stSUCCESS ∧
    (after .missingTimeout (root { root0 with phase := 3, cCount := 1 })).endOf 2 0 = some stFAULTED := by decide

/-- A participant of job 77, whose root is chip 9. -/
def node0 : RopeNode := {
  job := 77, root := 9, addr := 0, stat := 0, index := 1, depth := 1, height := 3, ring := 0, parent := 9, wait := 100, hold := 1000,
  armed := true, armAt := 50, kids := [(2, 8)], waiting := [2], okCount := 1 }
def inJob (n : RopeNode) (b : List Byte) : State :=
  let s := puts (roping b []) [(Reg.FAB_ROPE_STATUS, Fld.FAB_ROPE_STATUS_JOB_ID, 77), (Reg.FAB_ROPE_STATUS, Fld.FAB_ROPE_STATUS_ARMED, 1)]
  { s with fab := { s.fab with nodes := [n], token := false } }
theorem test_job_end : let s := inJob node0 (desc [(0, 2, 0x3002), (24, 4, 77)])
    (s.nodeOf 77).map (·.armed) = some true ∧ (after (.jobEnd 2 0) s).endOf 2 0 = some stSUCCESS ∧ (after (.jobEnd 2 0) s).fab.token = true ∧
      (after (.jobEnd 2 0) s).fab.nodes = [] := by decide
theorem test_job_end_refused : let s := inJob node0 (desc [(0, 2, 0x3002), (24, 4, 78)])
    (after (.jobEnd 2 0) s).endOf 2 0 = some stREFUSED ∧ (after (.jobEnd 2 0) s).fab.token = false := by decide

/-- A state to which a Rope packet is delivered. -/
def heard (s : State) (k : Packet) : State := { s with fab := { s.fab with delivered := [k] } }
def rope (kind : Nat) (body : List Byte) : Packet := { dst := 0xFFFF, src := 9, kind := kind, gen := 1, body := body }
/-- An acknowledgement of index 1 for one of three modules, while the root waits for 1 and 2. -/
def ack1 (kind : Nat) : Packet := rope kind (ackBody 77 1 1 0 false [])
def root3 (phase : Nat) : State := root { root0 with n := 3, waiting := [1, 2], phase := phase, cCount := 1, okCount := 1 }
theorem test_root_counts_arm : ((heard (root3 0) (ack1 0x41)).take (ack1 0x41)).isSome = true ∧
    (after (.armAckReceive (ack1 0x41)) (heard (root3 0) (ack1 0x41))).fab.root.map (fun r => (r.armed, r.waiting)) = some (2, [2]) := by decide
theorem test_root_counts_commit : (after (.commitAckReceive (ack1 0x44)) (heard (root3 2) (ack1 0x44))).fab.root.map (fun r => (r.committed, r.waiting)) =
    some (2, [2]) := by decide
theorem test_all_committed : let s := heard (root { root0 with phase := 2, cCount := 1 }) (ack1 0x44)
    (after (.commitAckReceive (ack1 0x44)) s).endOf 2 0 = some stSUCCESS ∧ (after (.commitAckReceive (ack1 0x44)) s).fab.root = none := by decide
theorem test_not_armed_noted : let k := rope 0x46 (ackBody 77 1 1 0 false [])
    (after (.commitAckReceive k) (heard (root3 2) k)).fab.root.map (fun r => (r.notArmed, r.waiting)) = some ([1], [2]) := by decide

/-- ARM of job 77 as entry 1; the root's entries for it and its child. -/
def armK (ring : Nat) : Packet := rope 0x40 (armBody 77 0 0 1 1 3 ring 9)
def armEs : List Byte := leBytes 4 0x0625 ++ leBytes 4 2 ++ leBytes 4 1 ++ leBytes 4 0xFFFFFFFF ++ leBytes 4 8 ++ List.replicate 12 0#8
theorem test_arm : let t := after (.arm (armK 0) armEs) (heard ring (armK 0))
    ((heard ring (armK 0)).take (armK 0)).isSome = true ∧ ring.canon = true ∧ (heard ring (armK 0)).armVerdict 77 0 = 0x01 ∧
      (t.nodeOf 77).map (fun m => (m.armed, m.okCount, m.kids, m.parent)) = some (true, 1, [(2, 8)], 9) ∧ t.fab.token = false ∧
      t.fget Reg.FAB_ROPE_STATUS Fld.FAB_ROPE_STATUS_JOB_ID = 77 := by decide
theorem test_arm_refused : let t := after (.arm (armK 1) armEs) (heard ring (armK 1))
    (heard ring (armK 1)).armVerdict 77 1 = 0x12 ∧ (t.nodeOf 77).map (fun m => (m.armed, m.refCount)) = some (false, 1) ∧ t.fab.token = true := by decide
def ack2 (kind : Nat) : Packet := rope kind (ackBody 77 2 1 1 false [])
theorem test_node_counts_arm : ((after (.armAckReceive (ack2 0x41)) (heard (inJob node0 []) (ack2 0x41))).nodeOf 77).map
    (fun m => (m.okCount, m.refCount, m.waiting, m.answered)) = some (2, 1, [], true) := by decide
theorem test_arm_wait_expires : let t := after (.armWaitExpire 77) (inJob node0 [])
    t.clk.now = 250 ∧ (t.nodeOf 77).map (fun m => (m.answered, m.silent, m.waiting)) = some (true, [2], []) := by decide
theorem test_commit_wait_expires : let t := after (.armWaitExpire 77) (inJob { node0 with answered := true, committed := true, cAt := 70, cWaiting := [2] } [])
    t.clk.now = 270 ∧ (t.nodeOf 77).map (fun m => (m.cAnswered, m.cSilent)) = some (true, [2]) := by decide
def adoptK : Packet := rope 0x42 (adoptBody 77 0 0 3 0 2 0 9 0 [5])
theorem test_adopt : adoptKids adoptK = [5] ∧
    ((after (.adopt adoptK (leBytes 4 6 ++ List.replicate 12 0#8)) (heard (inJob node0 []) adoptK)).nodeOf 77).map (·.adopted) = some [(5, 6)] := by decide
def commitK : Packet := rope 0x43 (commitBody 77 1 500 9)
theorem test_commit : let s := heard (inJob node0 []) commitK
    let t := after (.commit commitK) s
    s.canon = true ∧ (s.take commitK).isSome = true ∧ s.reached 500 = false ∧ (t.nodeOf 77).map (fun m => (m.committed, m.startAt)) = some (true, some 500) ∧
      t.fget Reg.FAB_ROPE_STATUS Fld.FAB_ROPE_STATUS_COMMITTED = 1 := by decide
theorem test_node_counts_commit : ((after (.commitAckReceive (ack2 0x44)) (heard (inJob { node0 with committed := true, cCount := 1, cWaiting := [2, 3] } [])
    (ack2 0x44))).nodeOf 77).map (fun m => (m.cCount, m.cWaiting)) = some (2, [3]) := by decide
theorem test_start_time : let s := inJob { node0 with committed := true, startAt := some 500 } []
    let t := after .startTimeReached s
    s.canon = true ∧ t.fget (Reg.RING_EVT_BANK 0) Fld.RING_EVT_BANK_COUNT = 1 ∧ (t.nodeOf 77).map (·.startAt) = some none := by decide
theorem test_disarm : let k := rope 0x45 (leBytes 4 77)
    ((after (.disarm k) (heard (inJob node0 []) k)).nodeOf 77) = none ∧ (after (.disarm k) (heard (inJob node0 []) k)).fab.token = true := by decide
theorem test_arm_hold_expires : let t := after .armHoldExpire (inJob node0 [])
    t.clk.now = 1050 ∧ t.nodeOf 77 = none ∧ t.fab.token = true := by decide

/-! ### Reduction -/

/-- REDUCE of two binary32 gradients in mode 1 as rank 0 of N = 1 on engine 0; its home is engine 0 of this module. -/
def reduceB : List Byte := desc [(0, 2, 0x3010), (12, 4, 5), (36, 1, 0), (37, 1, 1), (38, 1, 6), (39, 1, 6), (44, 4, 1), (52, 2, 7), (56, 2, 0x0625), (60, 4, 2)]
def reduceQ : List Byte := leBytes 8 (at_ 0x41000) ++ leBytes 8 (at_ 0x43000) ++ List.replicate 48 0#8
def reducing : State :=
  let s := force (chip.setFn 0x40 fnRUN) [(Reg.RED_DLOG_BASE 0, Fld.RED_DLOG_BASE_BASE, at_ 0x60000 / 4096)]
  { s with mem := s.mem.write 0x41000 (leBytes 4 0x3F800000 ++ leBytes 4 0xC0000000)
           started := [{ ring := 40, seq := 0, bytes := reduceB, param := reduceQ, fn := 0x40, gen := 1, deadline := none, slots := 1 }] }
def rank0 : RankRun := { ring := 40, seq := 0, eng := 0, bytes := reduceB, param := reduceQ, stat := 1, xs := [.fin false 1 0, .fin true 1 1] }
theorem test_reduce : let x := redP reduceB reduceQ
    let s0 := State.updStarted { reducing with ranks := [{ ring := 40, seq := 0, eng := 0, bytes := reduceB, param := reduceQ }] } 40 0 (fun x => { x with begun := true })
    (s0.redReads (rankCtx 40 0 reduceB) x).2 = none ∧
      ((after (.reduce 40 0 []) reducing).findRank 40 0).map (fun q => (q.stat, q.xs.map toF32)) = some (1, [0x3F800000, 0xC0000000]) ∧
      (after (.reduce 40 0 []) reducing).fab.delivered.map (fun k => (k.kind, k.addr, rColl k, rStep k)) = [(0x20, 0, 7, dSTEP reduceB)] := by decide
theorem test_reduce_faulted : (after (.reduce 40 0 []) (reducing.withdrawPage 0x41)).endOf 40 0 = some stFAULTED := by decide

/-- A rank, and a packet of its home to it. -/
def rankIs (q : RankRun) (k : Packet) : State := { reducing with ranks := [q], fab := { reducing.fab with delivered := [k] } }
def homeK (kind ver epoch : Nat) (rest : List Byte) (flags : Nat := 0) : Packet :=
  { dst := 0xFFFF, src := 0x0625, kind := kind, flags := flags, gen := 1, addr := 0, vc := 2, body := redHead 7 ver epoch (dSTEP reduceB) 0 0 ++ rest }
/-- What the statement asks of a packet that reaches the rank. -/
def hearsOk (q : RankRun) (k : Packet) : Bool :=
  let s := rankIs q k
  (s.take k).isSome && k.gen == s.gen (0x40 + k.addr) && s.ranks.find? (rankOf k) == some q && !q.closed && s.findRank q.ring q.seq == some q && s.canon
theorem test_busy : hearsOk rank0 (homeK 0x25 0 0 []) = true ∧
    ((after (.busy (homeK 0x25 0 0 [])) (rankIs rank0 (homeK 0x25 0 0 []))).findRank 40 0).map (·.busyAt) = some (some 0) := by decide
theorem test_exp_retry : let t := after (.expRetryTimer 40 0) { reducing with ranks := [{ rank0 with busyAt := some 7 }] }
    t.clk.now = 2007 ∧ t.ranks.map (·.busyAt) = [none] ∧ t.fab.delivered.map (·.kind) = [0x20] := by decide
theorem test_grant : let k := homeK 0x21 0 1 (leBytes 2 1)
    hearsOk rank0 k = true ∧ ((after (.grant k []) (rankIs rank0 k)).findRank 40 0).map (fun q => (q.epoch, q.c != 0)) = some (1, true) ∧
      (after (.grant k []) (rankIs rank0 k)).fab.delivered.map (·.kind) = [0x22] := by decide +kernel
theorem test_grant_stale : let k := homeK 0x21 0 0 (leBytes 2 1)
    hearsOk { rank0 with ver := 1 } k = true ∧ (after (.grant k []) (rankIs { rank0 with ver := 1 } k)).fget (Reg.RED_CNT_B 0) Fld.RED_CNT_B_STALE = 1 := by decide

/-- RESULT: E = 1, four-byte lanes 32 and -64, H = 9. -/
def resultK (flags : Nat) : Packet := homeK 0x23 0 0 (leBytes 2 1 ++ leBytes 1 4 ++ leBytes 1 0 ++ leBytes 8 9 ++ leBytes 4 0 ++ leBytes 4 32 ++ leBytes 4 0xFFFFFFC0) flags
theorem test_result_unconfirmed : hearsOk rank0 (resultK 1) = true ∧ pUnconf (resultK 1) = true ∧
    ((after (.result (resultK 1)) (rankIs rank0 (resultK 1))).findRank 40 0).map (fun q => q.res.map (fun h => (h.e, h.lane, h.h, h.final))) =
      some (some (1, 4, 9, false)) := by decide
theorem test_result_final : (redP reduceB reduceQ).count * 4 ≤ ((resultK 0).body.drop 32).length ∧ leAt (resultK 0).body 18 1 = 4 ∧
    (after (.result (resultK 0)) (rankIs rank0 (resultK 0))).endOf 40 0 = some stSUCCESS ∧
    ((after (.result (resultK 0)) (rankIs rank0 (resultK 0))).mem.read 0x43000 8) = leBytes 4 0x3F800000 ++ leBytes 4 0xC0000000 := by decide +kernel
theorem test_abort : let k := homeK 0x24 0 0 (leBytes 2 1 ++ leBytes 2 0 ++ leBytes 4 3)
    hearsOk rank0 k = true ∧ (after (.abort k) (rankIs rank0 k)).endOf 40 0 = some stDEADLINE := by decide
theorem test_abort_reasons : let k (r : Nat) := homeK 0x24 0 0 (leBytes 2 r ++ leBytes 2 0 ++ leBytes 4 0)
    (after (.abort (k 2)) (rankIs rank0 (k 2))).endOf 40 0 = some stREFUSED ∧ (after (.abort (k 3)) (rankIs rank0 (k 3))).endOf 40 0 = some stBAD_OPERAND := by decide

/-- A held RESULT with sequence 0. -/
def heldR : HeldRes := { seq := 0, e := 1, lane := 4, ext := false, h := 9, segs := [(0, leBytes 4 32 ++ leBytes 4 0xFFFFFFC0)], final := false, since := 40 }
theorem test_result_confirm_early : ((after (.resultConfirm (homeK 0x32 0 0 [])) (rankIs rank0 (homeK 0x32 0 0 []))).findRank 40 0).map (·.sure) = some [0] := by decide
theorem test_result_confirm : hearsOk { rank0 with res := some heldR } (homeK 0x32 0 0 []) = true ∧ heldR.whole 2 = true ∧
    (after (.resultConfirm (homeK 0x32 0 0 [])) (rankIs { rank0 with res := some heldR } (homeK 0x32 0 0 []))).endOf 40 0 = some stSUCCESS := by decide
theorem test_result_retract : ((after (.resultRetract (homeK 0x33 0 0 [])) (rankIs { rank0 with res := some heldR } (homeK 0x33 0 0 []))).findRank 40 0).map
    (fun q => (q.gone, q.res)) = some ([0], none) := by decide
theorem test_result_steep : let s := { reducing with ranks := [{ rank0 with res := some heldR }] }
    s.canon = true ∧ (after (.resultSteepExpire 40 0) s).endOf 40 0 = some stFAULTED ∧ cnt (after (.resultSteepExpire 40 0) s) 0x02 = 1 := by decide

/-- DIGEST_CLOSE of one log entry. -/
def closing : State :=
  { reducing with
    mem := reducing.mem.write 0x60000 (leBytes 4 0 ++ leBytes 4 0 ++ leBytes 8 1 ++ leBytes 8 2 ++ leBytes 4 0 ++ leBytes 4 1)
    started := [{ ring := 40, seq := 0, bytes := desc [(0, 2, 0x3018), (32, 4, 1), (40, 8, at_ 0x44000)], fn := 0x40, gen := 1, deadline := none, slots := 1 }] }
theorem test_digest_close : let b := desc [(0, 2, 0x3018), (32, 4, 1), (40, 8, at_ 0x44000)]
    (closing.rankRead (rankCtx 40 0 b) (closing.dlogAddr 0 0 0) 32).2 = none ∧ closing.gloc (at_ 0x44000) = .own (.hbm 0x44000) ∧ closing.sump.cut = none ∧
      (closing.awareWrites (rankCtx 40 0 b) 0 (dSTEP b) defaultId [(at_ 0x44000, List.replicate 64 0#8)]).2 = none ∧
      (after (.digestClose 40 0 []) closing).endOf 40 0 = some stSUCCESS ∧ (after (.digestClose 40 0 []) closing).mem.read 0x44004 4 = leBytes 4 1 := by decide +kernel
theorem test_digest_close_faulted : (after (.digestClose 40 0 []) (closing.withdrawPage 0x60)).endOf 40 0 = some stFAULTED := by decide

/-- The home: engine 0 of this module, two ranks of two elements in mode 1; rank 1 is granted and sends q = 3, -5. -/
def hrank (j : Nat) : HomeRank := { rank := j, chip := 0x0625, eng := 0, gen := 1, layer := 0, op := 0, ver := 0, stat := some 1 }
def home0 : HomeBucket := { eng := 0, coll := 7, step := 5, bucket := 0, n := 2, mode := 1, count := 2, e := some 1, lanes := [10, 20] }
def homeS (hs : List HomeBucket) (k : Packet) : State := { reducing with homes := hs, fab := { reducing.fab with delivered := [k] } }
def expK (n : Nat) : Packet :=
  { dst := 0xFFFF, src := 9, kind := 0x20, gen := 1, vc := 2,
    body := redHead 7 0 0 5 0 1 ++ leBytes 2 0xFFFE ++ leBytes 1 1 ++ leBytes 1 0 ++ leBytes 4 n ++ leBytes 4 2 ++ leBytes 4 0 }
theorem test_exp_opens : let s := homeS [] (expK 2)
    (s.take (expK 2)).isSome = true ∧ s.homeOf (expK 2) = none ∧ s.fnState 0x40 = fnRUN ∧ s.earlyFor (expK 2) = [] ∧
      (after (.exp (expK 2)) s).homes.map (fun h => (h.n, h.lanes, h.e, h.ranks.map (·.stat))) = [(2, [0, 0], none, [some (-2)])] := by decide
theorem test_exp_opens_alone : (after (.exp (expK 1)) (homeS [] (expK 1))).homes.map (·.e) = [some (-2)] := by decide
theorem test_exp_busy : let s := homeS ((List.range 64).map (fun i => { home0 with bucket := i + 1 })) (expK 2)
    s.canon = true ∧ (s.homesOf 0).length = 64 ∧ s.homeOf (expK 2) = none ∧ (after (.exp (expK 2)) s).homes.length = 64 ∧
      (after (.exp (expK 2)) s).fget (Reg.RED_CNT_B 0) Fld.RED_CNT_B_BUSY = 1 := by decide
theorem test_exp_disagrees : let s := homeS [{ home0 with ranks := [hrank 0] }] (expK 3)
    (s.homeOf (expK 3)).map (·.n) = some 2 ∧ (after (.exp (expK 3)) s).homes = [] ∧ cnt (after (.exp (expK 3)) s) 0x0F = 1 := by decide
/-- The home may grant. -/
def granting : State :=
  force { reducing with homes := [{ home0 with ranks := [hrank 0, hrank 1] }] }
    [(Reg.RED_JRNL_CFG 0, Fld.RED_JRNL_CFG_ENTRIES, 4), (Reg.RED_BUF_SIZE 0, Fld.RED_BUF_SIZE_PAGES, 1)]
theorem test_grant_send : let s := granting
    s.canon = true ∧ s.homes.map s.grantable = [some (hrank 0)] ∧ (after (.grantSend 0 7 5 0) s).homes.map (fun h => h.ranks.map (·.granted)) = [[true, false]] ∧
      (after (.grantSend 0 7 5 0) s).fget (Reg.RED_AUDIT 0) Fld.RED_AUDIT_ISSUED = 1 := by decide

/-- CONTRIB of rank 0: q = 3, -5, with a right and a wrong item CRC. -/
def pay : List Byte := [3#8, 0xFB#8]
def contribK (c epoch : Nat) : Packet :=
  { dst := 0xFFFF, src := 0x0625, kind := 0x22, gen := 1, vc := 2,
    body := redHead 7 0 epoch 5 0 0 ++ leBytes 8 c ++ leBytes 4 0 ++ leBytes 4 0 ++ pay }
def granted0 : HomeBucket := { home0 with ranks := [{ hrank 0 with granted := true }, hrank 1] }
def goodC : Nat := itemCrc 0 5 0 1 1 pay
theorem test_contrib : let s := homeS [granted0] (contribK goodC 0)
    s.homeOf (contribK goodC 0) = some granted0 ∧ granted0.rankAt 0 = some { hrank 0 with granted := true } ∧ granted0.next = 0 ∧
      leAt (contribK goodC 0).body 16 8 = goodC ∧
      (after (.contrib (contribK goodC 0)) s).homes.map (fun h => (h.lanes, h.ranks.map (fun r => (r.eaten, r.granted)))) =
        [([13, 15], [(true, false), (false, false)])] := by decide +kernel
theorem test_contrib_bad_crc : let s := homeS [granted0] (contribK (goodC + 1) 0)
    s.canon = true ∧ leAt (contribK (goodC + 1) 0).body 16 8 ≠ goodC ∧ (after (.contrib (contribK (goodC + 1) 0)) s).homes.map (·.lanes) = [[10, 20]] ∧
      cnt (after (.contrib (contribK (goodC + 1) 0)) s) 0x0F = 1 := by decide +kernel
theorem test_contrib_stale : let s := homeS [{ granted0 with epoch := 1 }] (contribK goodC 0)
    (after (.contrib (contribK goodC 0)) s).homes = s.homes ∧ (after (.contrib (contribK goodC 0)) s).fget (Reg.RED_CNT_B 0) Fld.RED_CNT_B_STALE = 1 := by decide +kernel
theorem test_home_deadline : let s := { reducing with homes := [{ home0 with ranks := [{ hrank 0 with dead := 90 }] }] }
    s.canon = true ∧ (after (.homeDeadlineExpire 0 7 5 0) s).homes = [] ∧ cnt (after (.homeDeadlineExpire 0 7 5 0) s) 0x02 = 1 ∧
      (after (.homeDeadlineExpire 0 7 5 0) s).clk.now = 90 := by decide

/-- CONFIRM and RETRACT of version 0 of rank 0; the bucket has consumed its unconfirmed contribution. -/
def tokK (kind : Nat) : Packet := { dst := 0xFFFF, src := 0x0625, kind := kind, gen := 1, body := redHead 7 0 0 5 0 0, vc := 0 }
def eaten0 : HomeBucket :=
  { home0 with lanes := [13, 15], ranks := [{ hrank 0 with eaten := true, unconf := true }, hrank 1],
               jrnl := [{ rank := 0, ver := 0, stat := 1, c := goodC, payload := pay, since := 30 }] }
theorem test_early_tokens : (after (.confirm (tokK 0x30)) (homeS [] (tokK 0x30))).quar.early = [(tokK 0x30, 0)] ∧
    (after (.retract (tokK 0x31)) (homeS [] (tokK 0x31))).quar.early = [(tokK 0x31, 0)] := by decide
theorem test_confirm : let s := homeS [eaten0] (tokK 0x30)
    s.homeOf (tokK 0x30) = some eaten0 ∧ eaten0.full = false ∧
      (after (.confirm (tokK 0x30)) s).homes.map (fun h => (h.jrnl, h.lanes, (h.rankAt 0).map (·.tokens))) = [([], [13, 15], some [(0x30, 0)])] := by decide +kernel
theorem test_retract_unconsumed : let s := homeS [granted0] (tokK 0x31)
    s.canon = true ∧ (after (.retract (tokK 0x31)) s).homes.map (fun h => (h.lanes, (h.rankAt 0).map (fun r => (r.stat, r.old, r.granted)))) =
      [([10, 20], some (none, some 1, false))] ∧ (after (.retract (tokK 0x31)) s).fget (Reg.RED_CNT_A 0) Fld.RED_CNT_A_RETRACTED = 1 := by decide
theorem test_retract_consumed : (after (.retract (tokK 0x31)) (homeS [eaten0] (tokK 0x31))).homes.map (fun h => (h.lanes, h.jrnl, (h.rankAt 0).map (·.eaten))) =
    [([10, 20], [], some false)] := by decide
theorem test_journal_steep : let s := { reducing with homes := [eaten0] }
    s.canon = true ∧ (after (.journalSteepExpire 0 7 5 0 0) s).homes.map (fun h => (h.lanes, h.jrnl)) = [([10, 20], [])] ∧
      (after (.journalSteepExpire 0 7 5 0 0) s).fget Reg.INTG_STEEP_CNT Fld.INTG_STEEP_CNT_EXPIRED = 1 := by decide

/-! ### Tickets -/

/-- The sweep's tile has folded; its descriptor still runs, or has ended. -/
def folded (ended : Bool) : State :=
  let s := after (.tileFold 0 0 [] false 0 []) applied
  { s with arr := { s.arr with tickets := s.arr.tickets.map (fun k => { k with ended := ended }) } }
theorem test_verdict_passes : let s := folded false
    s.canon = true ∧ (s.ticketOf 1).map (fun k => k.tiles.map (fun f => (f.num, f.standing, tilePasses (tileP k.bytes k.param) f))) = some [(0, 0, true)] ∧
      ((after (.strainerVerdict 1 0 false) s).ticketOf 1).map (fun k => k.tiles.map (·.standing)) = some [1] ∧
      (after (.strainerVerdict 1 0 false) s).pages = s.pages ∧ s.pages ≠ [] := by decide +kernel
theorem test_verdict_passes_ended : let s := folded true
    (s.ticketOf 1).map (·.ended) = some true ∧ s.pages.map (·.page) = [3] ∧ s.isOpen 3 = true ∧ (after (.strainerVerdict 1 0 false) s).pages = [] := by decide +kernel
theorem test_verdict_fails : let s := folded false
    ((after (.strainerVerdict 1 0 true) s).ticketOf 1).map (fun k => (k.fenced, k.tiles.map (·.standing))) = some (true, [2]) ∧
      (after (.strainerVerdict 1 0 true) s).fget Reg.INTG_STEEP_CNT Fld.INTG_STEEP_CNT_FENCED = 1 := by decide +kernel

/-- The tile has failed, with its value or another in its place; every block is powered and a cell can replay. -/
def failed (w : Nat) : State :=
  let s := folded false
  { s with arr := { s.arr with run := none, tickets := s.arr.tickets.map (fun k => { k with tiles := k.tiles.map (fun f => { f with standing := 2, vals := [ofF32 w], words := [w] }) }) } }
def noCells : State := { puts up [(Reg.ARR_FENCE_BLOCK, ⟨63, 0⟩, 2 ^ 64 - 1)] with arr := (failed 0x40C00000).arr, pages := (failed 0x40C00000).pages, started := (failed 0x40C00000).started }
theorem test_replay_no_cell : (noCells.ticketOf 1).map (fun k => k.failed.map (·.cell)) = some (some 0) ∧ replayCell noCells.mayReplay 0 = none ∧
    cnt (after (.replayJudge 1 false [] []) noCells) 0x01 = 1 ∧
    ((after (.replayJudge 1 false [] []) noCells).ticketOf 1).map (fun k => (k.withdrawn.isSome, k.tiles.map (·.standing))) = some (true, [3]) := by decide +kernel
theorem test_replay_equal : let s := failed 0x40C00000
    replayCell s.mayReplay 0 = some 64 ∧ (s.ticketOf 1).map (fun k => (s.awareChecks (arrCtx k.ring k.bytes 64) ((tileP k.bytes k.param).reads 0)).2) = some none ∧
      (s.ticketOf 1).map (fun k => tilePasses (tileP k.bytes k.param) (foldOf (tileP k.bytes k.param) (s.runTile (tileP k.bytes k.param) 0 64) [])) = some true ∧
      (after (.replayJudge 1 false [] []) s).rbit (Reg.INTG_STRAINER_FLAG 0) 0 = true ∧
      ((after (.replayJudge 1 false [] []) s).ticketOf 1).map (fun k => k.tiles.map (·.standing)) = some [1] := by decide +kernel
theorem test_replay_differs : let s := failed 0x40E00000
    s.arr.run = none ∧ (after (.replayJudge 1 false [] []) s).rbit (Reg.ARR_FENCE_CELL 0) 0 = true ∧
      ((after (.replayJudge 1 false [] []) s).ticketOf 1).map (fun k => k.tiles.map (fun f => (f.cell, f.standing))) = some [(64, 1)] := by decide +kernel
theorem test_lockstep_idle : up.canon = true ∧ up.blockUp 63 = true ∧ (after (.lockstepMismatch 63) up).rbit Reg.ARR_FENCE_BLOCK 63 = true ∧
    cnt (after (.lockstepMismatch 63) up) 0x13 = 1 := by decide

/-- The begunS sweep on two cells of two blocks, hit twice before or not at all. -/
def hit (n : Nat) : State := { begunS with arr := { begunS.arr with run := begunS.arr.run.map (fun r => { r with hits := n, active := [0, 64] }) } }
theorem test_lockstep_third : (hit 2).arr.run.map (·.hits) = some 2 ∧ (after (.lockstepMismatch 0) (hit 2)).endOf 0 0 = some stFAULTED ∧
    (after (.lockstepMismatch 0) (hit 2)).arr.run = none := by decide +kernel
theorem test_lockstep_reruns : (hit 0).canon = true ∧ (after (.lockstepMismatch 0) (hit 0)).arr.run.map (fun r => (r.hits, r.active, r.left)) = some (1, [64], 1) := by decide +kernel
theorem test_ticket_settles : let s0 := puts (folded true) [(Reg.INTG_TICKET, Fld.INTG_TICKET_SETTLED, 1), (Reg.INTG_TICKET, Fld.INTG_TICKET_NEXT, 2)]
    let s := after (.strainerVerdict 1 0 false) { s0 with arr := { s0.arr with run := none } }
    s.canon = true ∧ s.ripeTicket.map (·.num) = some 1 ∧ (after .ticketSettle s).arr.tickets = [] ∧ (after .ticketSettle s).pages = [] ∧
      (after .ticketSettle s).fget Reg.INTG_TICKET Fld.INTG_TICKET_SETTLED = 2 := by decide +kernel
theorem test_fence_message : let s := { up with quar := { up.quar with msgs := [(2, 1)] } }
    (after (.fenceMessage 2 1) s).quar.msgs = [] ∧ (after (.fenceMessage 2 1) s).quar.fenced = [(2, [1])] := by decide
theorem test_steep_fence : let s0 := folded false
    let s := { s0 with arr := { s0.arr with tickets := s0.arr.tickets.map (fun k => { k with firstSend := some (2, 10) }) } }
    (after (.steepFenceTimer 1) s).quar.msgs = (List.range 8).map (fun r => (r, 1)) ∧ s.steepWindow = 20000 ∧
      (after (.steepFenceTimer 1) s).clk.now = 12010 := by decide +kernel

/-! ### Quarantine, audits and scan tests -/

/-- A write of chip 9 to HBM place 0x45000 of this module, UNCONFIRMED, of item 6 with ticket 1; and tokens of it. -/
def writeK : Packet := { dst := 0xFFFF, src := 9, kind := 0x03, flags := 1, addr := 0x010000045000, tag := 6 * 65536 + 1, body := [7#8, 8#8], vc := 4 }
def tokenK (kind : Nat) : Packet := { dst := 0xFFFF, src := 9, kind := kind, body := leBytes 2 6, vc := 0 }
def quarS (q : Quar) (k : Packet) : State := { chip with quar := q, fab := { chip.fab with delivered := [k] } }
def held6 : QItem := { die := 0, src := 9, item := 6, ticket := 1, data := [(0x010000045000, [7#8, 8#8])], since := 50 }
theorem test_quarantine_opens : let s := quarS {} writeK
    (s.take writeK).isSome = true ∧ s.quarUse 0 + 2 ≤ 2 ^ 22 ∧ s.earlyWrite 9 6 = none ∧ pItem writeK = 6 ∧
      (after (.unconfirmedWriteReceive 0 writeK) s).quar.items = [{ held6 with since := 0 }] := by decide
theorem test_quarantine_joins : (after (.unconfirmedWriteReceive 0 writeK) (quarS { items := [held6] } writeK)).quar.items.map (·.data.length) = [2] := by decide
theorem test_write_confirm : let s := quarS { items := [held6] } (tokenK 0x34)
    s.canon = true ∧ s.gloc (ownAt 0x010000045000) = .own (.hbm 0x45000) ∧ s.sumpHolds 0x45000 2 = false ∧ s.behindHeld 0x45000 2 = false ∧
      s.behindRead (.remote held6.die 9 4 false 0 0xFFFF 0xFFFF) s.order (burstsOf 0x45000 2) = false ∧
      (after (.writeConfirm 0 (tokenK 0x34)) s).mem.read 0x45000 2 = [7#8, 8#8] ∧ (after (.writeConfirm 0 (tokenK 0x34)) s).quar.items = [] := by decide
theorem test_write_tokens_early : (after (.writeConfirm 0 (tokenK 0x34)) (quarS {} (tokenK 0x34))).quar.early = [(tokenK 0x34, 0)] ∧
    (after (.writeRetract 0 (tokenK 0x35)) (quarS {} (tokenK 0x35))).quar.early = [(tokenK 0x35, 0)] := by decide
theorem test_write_retract : let t := after (.writeRetract 0 (tokenK 0x35)) (quarS { items := [held6] } (tokenK 0x35))
    t.quar.items = [] ∧ t.mem.read 0x45000 2 = [0#8, 0#8] := by decide
theorem test_write_retract_of_confirmed : let s := quarS { done := [(9, 6, 0x34)] } (tokenK 0x35)
    s.canon = true ∧ cnt (after (.writeRetract 0 (tokenK 0x35)) s) 0x01 = 1 ∧ (after (.writeRetract 0 (tokenK 0x35)) s).quar = s.quar := by decide
theorem test_steep_window : let t := after (.steepWindowExpire 9 6) (quarS { items := [held6] } (tokenK 0x35))
    t.quar.items = [] ∧ cnt t 0x02 = 1 ∧ t.clk.now = 20050 ∧ t.fget Reg.INTG_STEEP_CNT Fld.INTG_STEEP_CNT_EXPIRED = 1 := by decide
theorem test_early_token_expires : let t := after .earlyTokenExpire (quarS { early := [(tokenK 0x34, 9), (tokenK 0x35, 10)] } (tokenK 0x35))
    t.quar.early = [(tokenK 0x35, 10)] ∧ t.clk.now = 20009 := by decide

/-- Page 1 of HBM with CRC 77 in its tag. -/
def tag77 : State := chip.setTag 1 (mkTag 5 0 0 77)
theorem test_tag_copy_differs : tag77.canon = true ∧ tag77.isPending 1 = false ∧ tagCrc (tag77.tag 1) = 77 ∧
    (after (.tagCopyReadback 0 1 0x0625 2 78 true) tag77).fget Reg.INTG_TAG_CNT Fld.INTG_TAG_CNT_MISMATCH = 1 ∧
    cnt (after (.tagCopyReadback 0 1 0x0625 2 78 true) tag77) 0x09 = 1 := by decide
theorem test_tag_copy : tag77.chip = some 0x0625 ∧ (after (.tagCopyReadback 0 1 0x0625 2 77 false) tag77).fab.delivered.map (fun k => (k.kind, k.addr, k.body)) =
    [(0x03, 0x010000000000 + tagPlace 2, leBytes 8 (mkTag 5 0 0 77))] := by decide

/-- An audit of tile 0 of the sweep: cell 0 folded 7, the truth on cell 64 is 6. -/
def audit0 (again : Option (List Nat)) (orig : Nat) : Audit :=
  { ring := 0, seq := 0, bytes := sweepB, param := sweepQ, tile := 0, cell := 0, auditCell := 64, truth := [0x40C00000], orig := some [orig], again := again }
def auditing (a : Audit) : State := { up with arr := { up.arr with audits := [a] } }
theorem test_audit_equal : let s := auditing (audit0 none 0x40C00000)
    s.canon = true ∧ (after (.auditCompare 0 0 [] []) s).arr.audits = [] ∧ (after (.auditCompare 0 0 [] []) s).fget Reg.INTG_AUDIT_CNT Fld.INTG_AUDIT_CNT_RUN = 1 := by decide
theorem test_audit_differs : let s := auditing (audit0 none 0x40E00000)
    (after (.auditCompare 0 0 [] []) s).arr.audits.map (fun a => a.again.isSome) = [true] ∧
      (after (.auditCompare 0 0 [] []) s).fget Reg.INTG_AUDIT_CNT Fld.INTG_AUDIT_CNT_MISMATCH = 1 := by decide
theorem test_audit_third_with_audit : let a := audit0 (some [0x40C00000]) 0x40E00000
    replayCell (fun c => (auditing a).mayReplay c && c != 0 && c != 64) 64 = some 128 ∧
      (after (.auditThirdJudge 0 0 [] []) (auditing a)).rbit (Reg.ARR_FENCE_CELL 0) 0 = true ∧ cnt (after (.auditThirdJudge 0 0 [] []) (auditing a)) 0x01 = 1 := by decide +kernel
theorem test_audit_third_with_original : let a := audit0 (some [0x40E00000]) 0x40C00000
    (after (.auditThirdJudge 0 0 [] []) (auditing a)).rbit (Reg.ARR_FENCE_CELL 1) 0 = true := by decide +kernel
theorem test_audit_third_neither : let a := audit0 (some [0x40E00000]) 0x41000000
    (after (.auditThirdJudge 0 0 [] []) (auditing a)).rbit Reg.ARR_FENCE_BLOCK 0 = true := by decide +kernel

/-- SCAN_BLOCK of block 5 by the primary Trelfort. -/
def scanB : List Byte := desc [(0, 2, 0x5010), (24, 1, 5)]
def scanS : State := force (start up 200 0x53 scanB) [(Reg.ARR_BLOCK_MASK, ⟨63, 0⟩, 2 ^ 64 - 1)]
theorem test_scan_bad : scanBad (desc [(0, 2, 0x5010), (24, 1, 64)]) = true ∧
    (after (.scanBlock 200 0) (start up 200 0x53 (desc [(0, 2, 0x5010), (24, 1, 64)]))).endOf 200 0 = some stBAD_OPERAND := by decide
theorem test_scan_begins : scanS.canon = true ∧ scanBad scanB = false ∧ scanS.scan = none ∧ scanS.obs.ijtag ≠ some (scanS.trfOf 0) ∧
    (after (.scanBlock 200 0) scanS).scan.map (fun c => (c.block, c.held)) = some (5, false) ∧
    (after (.scanBlock 200 0) scanS).rbit Reg.ARR_BLOCK_MASK 5 = false ∧
    (after (.scanBlock 200 0) scanS).fget Reg.INTG_SCAN_STATUS Fld.INTG_SCAN_STATUS_RUNNING = 1 := by decide
def scanned : State := after .scanProceed (after (.scanBlock 200 0) scanS)
theorem test_scan_proceeds : ((after (.scanBlock 200 0) scanS).scan.map (after (.scanBlock 200 0) scanS).scanReady) = some true ∧
    scanned.scan.map (·.held) = some true ∧ scanned.dark = [5] := by decide
theorem test_scan_passes : scanned.canon = true ∧ (after (.scanFinish 9 0 0 none) scanned).endOf 200 0 = some stSUCCESS ∧
    (after (.scanFinish 9 0 0 none) scanned).dark = [] ∧ (after (.scanFinish 9 0 0 none) scanned).rbit Reg.ARR_BLOCK_MASK 5 = true := by decide
theorem test_scan_fails : (after (.scanFinish 9 2 1 none) scanned).endOf 200 0 = some stFAULTED ∧
    (after (.scanFinish 9 2 1 none) scanned).rbit Reg.ARR_FENCE_BLOCK 5 = true ∧ cnt (after (.scanFinish 9 2 1 none) scanned) 0x01 = 1 := by decide

/-! ### Losses, timers and hangs -/

theorem test_bridge_loss : (after (.bridgeRetryExhausted 89) up).flt.bridges = [89] ∧ cnt (after (.bridgeRetryExhausted 89) up) 0x06 = 2 := by decide
theorem test_bridge_degrades : let t := after (.bridgeRetryExhausted 81) (after (.bridgeRetryExhausted 80) up)
    t.flt.degraded = true ∧ cnt t 0x06 = 5 := by decide +kernel
theorem test_congestion : let t := after (.congestionEpisode 3 1 2 0) up
    t.flt.congest = [(3, 1, 2, 0)] ∧ t.fget Reg.FLT_CONG_CNT Fld.FLT_CONG_CNT_MODULE = 1 ∧ (after (.congestionEpisode 3 1 2 0) t) = t := by decide
theorem test_congestion_ends : (after (.congestionEpisodeEnd 3 1 2 0) (after (.congestionEpisode 3 1 2 0) up)).flt.congest = [] := by decide

/-- Corrected errors of a place, with CE_LIMIT 1. -/
def ce (n : Nat) (done : Bool) : State :=
  let s := force up [(Reg.FLT_CFG, Fld.FLT_CFG_CE_LIMIT, 1)]
  { s with flt := { s.flt with ceWin := [(4, List.replicate n 0)], ceDone := if done then [(4, true)] else [] } }
theorem test_ce_rate : (ce 2 false).canon = true ∧ cnt (after (.ceRate 4) (ce 2 false)) 0x08 = 1 ∧ (after (.ceRate 4) (ce 2 false)).flt.ceDone = [(4, true)] := by decide
theorem test_ce_rate_once : cnt (after (.ceRate 4) (ce 2 true)) 0x08 = 0 ∧ (after (.ceRate 4) (ce 1 true)).flt.ceDone = [] := by decide
theorem test_fault_report : let t := after (.faultReport 0x15 3 0x40 0xFF 0xFF 0xFF 0xFFFF 0xFFFFFF 0xFFFF 0xFFFF) up
    up.flt.fatal = false ∧ cnt t 0x15 = 1 ∧ t.flt.alert = true ∧ t.fget Reg.FLT_SEV_CNT Fld.FLT_SEV_CNT_UNCONTAINED = 1 ∧
      (after (.faultReport 1 2 0x40 0xFF 0xFF 0xFF 0xFFFF 0xFFFFFF 0xFFFF 0xFFFF) up).fget Reg.FLT_SEV_CNT Fld.FLT_SEV_CNT_CONTAINED = 1 := by decide
theorem test_switch_balances : (after (.regionSwitchQuiescent 7) up) = up := by decide
theorem test_switch_unbalanced : let s := puts up [(Reg.FLT_AUDIT 145, Fld.FLT_AUDIT_ISSUED, 1)]
    s.canon = true ∧ cnt (after (.regionSwitchQuiescent 7) s) 0x05 = 1 := by decide
theorem test_reclaim_bad : (after (.reclaim 200 0) (start up 200 0x53 (desc [(0, 2, 0x5020), (26, 1, 1)]))).endOf 200 0 = some stBAD_OPERAND := by decide
theorem test_reclaim : let b := desc [(0, 2, 0x5020), (24, 2, 9)]
    let s0 := puts (start (port pACTIVE { used := [(2, 5)] }) 200 0x53 b) [(Reg.FAB_PORT_STATUS 0 0, Fld.FAB_PORT_STATUS_NEIGH_CHIP, 9)]
    let s := { s0 with quar := { s0.quar with items := [held6] } }
    let t := after (.reclaim 200 0) s
    s.canon = true ∧ dPARAM b = false ∧ zeroBytes b 26 63 = true ∧ s.portsTo 9 = [0] ∧ t.quar.items = [] ∧ t.portState 0 = pOFF ∧
      ((t.findStarted 200 0).bind (·.done)).map (fun o => (o.status, o.result % 2 ^ 32)) = some (stSUCCESS, 5) := by decide

/-- A timer of a started descriptor. -/
def timing (l : List Timed) : State := let s := start up 0 0x10 gatherB; { s with flt := { s.flt with timed := l }, fab := { s.fab with nextTag := 2 ^ 32 - 1 } }
def timed0 : Timed := { kind := 0, ring := 0, seq := 0, die := 3, target := 4, tag := 8, lower := true }
theorem test_region_timer_reissues : let t := after (.regionTimerExpire 0 0 3 4 false true) (timing [])
    t.flt.timed = [{ timed0 with tag := 2 ^ 32 - 1 }] ∧ t.fab.nextTag = 0 := by decide
theorem test_region_timer_write : (after (.regionTimerExpire 0 0 3 4 true false) (timing [])).endOf 0 0 = some stFAULTED ∧
    cnt (after (.regionTimerExpire 0 0 3 4 true false) (timing [])) 0x02 = 1 := by decide
theorem test_region_timer_again : (timing [timed0]).flt.timed.find? (isTimed 0 0 0 3 4) = some timed0 ∧
    (after (.regionTimerExpire 0 0 3 4 false false) (timing [timed0])).endOf 0 0 = some stFAULTED ∧
    cnt (after (.regionTimerExpire 0 0 3 4 false false) (timing [timed0])) 0x06 = 1 := by decide

/-- A GATHER of a row that chip 9 owns, reached over port 1. -/
def remoteRow (l : List Timed) : State :=
  let s := { inbox { dst := 0, src := 0, kind := 0 } with mem := table.mem.write 0x11000 (leBytes 4 9), regs := (inbox { dst := 0, src := 0, kind := 0 }).regs }
  let s1 := force s [(Reg.LDG_TBL_DIR_BASE 0, Fld.LDG_TBL_DIR_BASE_BASE, at_ 0x10000 / 4096), (Reg.LDG_TBL_DIR_CFG 0, Fld.LDG_TBL_DIR_CFG_COUNT, 1)]
  let t := after (.gather 0 0 [] [] [] []) (start s1 0 0x10 gatherB)
  { t with flt := { t.flt with timed := l } }
/-- The tag of the row's position. -/
def rowTag : Nat := ((remoteRow []).gathers.flatMap (fun g => g.bags.flatten.map (·.tag))).headD 0
theorem test_fabric_timer_reissues_row : ((remoteRow []).rowOfTag rowTag).map (fun x => (x.1.ring, x.2.st)) = some (0, 2) ∧
    ((remoteRow []).rowOfTag rowTag).map (fun x => (remoteRow []).hasRoute x.1.region ((remoteRow []).placeRow (tblEntry x.1.entry) x.2.idx).1) = some true ∧
    (after (.fabricTimerExpire rowTag false) (remoteRow [])).flt.timed.map (fun x => (x.kind, x.ring, x.tag)) = [(1, 0, (remoteRow []).fab.nextTag)] := by decide
theorem test_fabric_timer_row_again : let s := remoteRow [{ timed0 with kind := 1, tag := rowTag }]
    s.canon = true ∧ (after (.fabricTimerExpire rowTag false) s).endOf 0 0 = some stFAULTED ∧ cnt (after (.fabricTimerExpire rowTag false) s) 0x02 = 1 := by decide

/-- A read of the host under tag 3. -/
def reading (l : List Timed) : State :=
  { chip with fab := { chip.fab with reads := [{ tag := 3, who := .host, addr := 0x1000, len := 8 }] }, flt := { chip.flt with timed := l } }
theorem test_fabric_timer_reissues_read : let t := after (.fabricTimerExpire 3 true) (reading [])
    (reading []).rowOfTag 3 = none ∧ t.fab.reads.map (·.tag) = [(reading []).fab.nextTag] ∧ t.flt.timed.map (fun x => (x.kind, x.lower)) = [(1, true)] := by decide
theorem test_fabric_timer_read_again : let s := reading [{ timed0 with kind := 1, tag := 3 }]
    s.canon = true ∧ (after (.fabricTimerExpire 3 true) s).fab.reads = [] ∧
      Out.readReply .host 0x1000 (List.replicate 8 0#8) true ∈ (after (.fabricTimerExpire 3 true) s).out ∧ cnt (after (.fabricTimerExpire 3 true) s) 0x06 = 1 := by decide
theorem test_module_timer : let s := (start up 0 0x10 gatherB).setFn 0x10 fnRUN
    s.canon = true ∧ s.fnState 0x10 = fnRUN ∧ (after (.moduleTimerExpire 0 0) s).fnState 0x10 = fnDRAIN ∧ cnt (after (.moduleTimerExpire 0 0) s) 0x02 = 1 := by decide +kernel
theorem test_module_timer_no_limit : let s := puts ((start up 0 0x10 gatherB).setFn 0x10 fnRUN) [(Reg.MOD_FN 0x10, Fld.MOD_FN_DRAIN_LIMIT, 0)]
    s.fget (Reg.MOD_FN 0x10) Fld.MOD_FN_DRAIN_LIMIT = 0 ∧ (after (.moduleTimerExpire 0 0) s).fnState 0x10 = fnSTOPPED ∧
      (after (.moduleTimerExpire 0 0) (start up 0 0x10 gatherB)).fnState 0x10 = (start up 0 0x10 gatherB).fnState 0x10 := by decide +kernel

/-- Rings 0 and 1 each wait for an event that the other's next descriptor signals; ring 1 was rung last. -/
def waitB (rg : Nat) : List Byte := desc [(0, 2, 0x4010), (2, 2, 1 + 256 * rg), (22, 2, 1)]
def wf (s : State) : State := force s [(Reg.MOD_HANG_CFG, Fld.MOD_HANG_CFG_WF_EN, 1), (Reg.MOD_HANG_CFG, Fld.MOD_HANG_CFG_STALL_MS, 1)]
def cycle (es : List Wait) : State :=
  let f (rg : Nat) : Fetched := { seq := 7, bytes := waitB rg, deadline := none, slots := 1, bellAt := 1 - rg }
  let s := wf ((ring.setFn (sqFn 1) fnRUN).setSq 0 { fetched := [f 1] })
  let s1 := s.setSq 1 { fetched := [f 0] }
  { s1 with hang := { s1.hang with edges := es } }
def edges2 : List Wait := [(sqFn 0, sqFn 1, 0, 7), (sqFn 1, sqFn 0, 1, 7)]
theorem test_waits : (cycle []).wfOn = true ∧ (cycle []).waits = edges2 ∧ (after .waitforSample (cycle [])).hang.edges = edges2 := by decide +kernel
theorem test_hang_cycle : let s := cycle edges2
    let t := after .waitforSample s
    s.canon = true ∧ findCycle (s.waits.filter (fun e => s.hang.edges.contains e)) = some edges2 ∧ s.victim edges2 = some (sqFn 1, sqFn 0, 1, 7) ∧
      s.fnState (sqFn 1) = fnRUN ∧ t.fnState (sqFn 1) ≠ fnRUN ∧ (t.sqSt 1).fetched = [] ∧ t.fget Reg.MOD_HANG_STATUS Fld.MOD_HANG_STATUS_RING = 1 ∧
      t.fget Reg.MOD_HANG_STATUS Fld.MOD_HANG_STATUS_LEN = 2 ∧ t.fget Reg.MOD_HANG_SEQ Fld.MOD_HANG_SEQ_RING_SEQ = 7 ∧ cnt t 0x03 = 1 := by decide +kernel
theorem test_hang_counted : let s := puts (cycle edges2) [(Reg.MOD_HANG_STATUS, Fld.MOD_HANG_STATUS_VALID, 1), (Reg.MOD_HANG_STATUS, Fld.MOD_HANG_STATUS_COUNT, 1)]
    (after .waitforSample s).fget Reg.MOD_HANG_STATUS Fld.MOD_HANG_STATUS_COUNT = 2 ∧ (after .waitforSample s).fget Reg.MOD_HANG_STATUS Fld.MOD_HANG_STATUS_LEN = 0 := by decide +kernel

/-- The head packet of VC1 of port 0, which came in through port 2, has no credit. -/
def stuckK : Packet := { dst := 9, src := 8, kind := 0x21 }
def stuck (probes : List Probe) (k : Packet) : State :=
  let s := wf ((port pACTIVE { used := [(2, 4096)], inbox := [(k, 1)] }).enqueue 0 stuckK (some 0) 0 false)
  { s with hang := { s.hang with probes := probes, probeNo := 5 } }
def probe0 : Probe := { port := 0, vc := 1, cls := 0, id := 4, pkt := stuckK, since := 0, sent := 1000000 }
def noK : Packet := { dst := 0, src := 0, kind := 0 }
theorem test_egress_stall : let t := after (.egressStall 0 1 0) (stuck [] noK)
    (stuck [] noK).wfOn = true ∧ ((stuck [] noK).blockedHead 0 1 0).map (·.pkt) = some stuckK ∧ t.clk.now = 1000000 ∧
      (tblGet noQueue (t.port 0).queue (pairKey 0 0)).map (fun e => (e.pkt.kind, e.pkt.body)) = [(0x3A, probeBody 0x0625 0 1 0 0 5)] ∧ t.hang.probeNo = 6 := by decide
theorem test_egress_stall_again : let t := after (.egressStall 0 1 0) (stuck [probe0] noK)
    t.hang.probes.map (·.id) = [4] ∧ t.hang.probeNo = 5 := by decide
theorem test_probe_resend : let t := after (.probeResendTimer 0 1 0) (stuck [probe0] noK)
    t.clk.now = 1500000 ∧ (tblGet noQueue (t.port 0).queue (pairKey 0 0)).map (·.pkt.body) = [probeBody 0x0625 0 1 0 0 4] := by decide
theorem test_probe_resend_other_head : let s := stuck [{ probe0 with since := 9 }] noK
    after (.probeResendTimer 0 1 0) s = s := by decide

/-- A probe of chip 9 and one of this module that has come back, at port 0. -/
def probeK (origin hops : Nat) : Packet := { dst := 0x0625, src := 9, kind := 0x3A, body := probeBody origin 0 1 0 hops 4, vc := 0 }
theorem test_probe_goes_on : let s := { stuck [] (probeK 9 14) with clk := { (stuck [] (probeK 9 14)).clk with now := 1000000 } }
    (s.takeInbox 0 (probeK 9 14)).map (fun s1 => (s1.wfOn, s1.chip, s1.onward 0 1)) = some (true, some 0x0625, [0]) ∧
      (tblGet noQueue ((after (.hangProbe 0 (probeK 9 14)) s).port 0).queue (pairKey 0 0)).map (·.pkt.body) = [probeBody 9 0 1 0 15 4] := by decide
theorem test_probe_ends : let s := { stuck [] (probeK 9 15) with clk := { (stuck [] (probeK 9 15)).clk with now := 1000000 } }
    tblGet noQueue ((after (.hangProbe 0 (probeK 9 15)) s).port 0).queue (pairKey 0 0) = [] := by decide
theorem test_fabric_cycle : let s := stuck [probe0] (probeK 0x0625 3)
    let t := after (.hangProbe 0 (probeK 0x0625 3)) s
    s.canon = true ∧ (s.takeInbox 0 (probeK 0x0625 3)).map (fun s1 => (s1.blockedHead 0 1 0).isSome && s1.hang.probes == [probe0]) = some true ∧
      cnt t 0x03 = 1 ∧ tblGet noQueue (t.port 0).queue (pairKey 1 0) = [] ∧ t.fget Reg.MOD_HANG_STATUS Fld.MOD_HANG_STATUS_FUNCTION = 0x30 ∧
      t.fget Reg.MOD_HANG_STATUS Fld.MOD_HANG_STATUS_RING = 0xFF := by decide
theorem test_probe_of_other_head : let s := stuck [{ probe0 with since := 9 }] (probeK 0x0625 3)
    cnt (after (.hangProbe 0 (probeK 0x0625 3)) s) 0x03 = 0 := by decide

/-! ### Resets -/

/-- RESET of a level, sent by ring 200. -/
def resetB (level : Nat) : List Byte := desc [(0, 2, 0x5030), (24, 1, level)]
def resetS (level : Nat) : State := start up 200 0x51 (resetB level)
theorem test_reset_bad : (after (.reset 200 0) (resetS 4)).endOf 200 0 = some stBAD_OPERAND ∧ (after (.reset 200 0) (resetS 0)).endOf 200 0 = some stBAD_OPERAND := by decide
theorem test_reset_compute : let t := after (.reset 200 0) (resetS 1)
    (resetS 1).canon = true ∧ up.pwr.tripAt = none ∧ up.fed = true ∧ up.pwr.good = true ∧ up.resetLevel = 0 ∧
      t.hang.reset.map (fun r => (r.level, r.descs)) = some (1, [(200, 0)]) ∧ t.fget Reg.MOD_RESET_STATUS Fld.MOD_RESET_STATUS_PHASE = 0 := by decide
theorem test_reset_module : (after (.reset 200 0) (resetS 2)).resetLevel = 2 := by decide
theorem test_reset_cmd_rejected : cnt (after (.resetCmdCompute false false) up) 0x11 = 1 ∧ cnt (after (.resetCmdModule false true) up) 0x11 = 1 ∧
    cnt (after (.resetCmdCold false false) up) 0x11 = 1 := by decide

/-- No dump is written at a reset. -/
def noDump (s : State) : State := force s [(Reg.MOD_RESET_CFG, ⟨2, 0⟩, 0)]
/-- A compute reset of a module with a fenced block, the array function in RUN, and a byte in the staging SRAM. -/
def before : State := let s := puts (noDump (up.setFn 0 fnRUN)) [(Reg.ARR_FENCE_BLOCK, ⟨63, 0⟩, 8)]; { s with mem := s.mem.write (2 ^ 40) [1#8] }
theorem test_compute_reset : let t := after (.resetCmdCompute true false) before
    before.canon = true ∧ t.hang.reset.map (fun r => (r.level, r.start)) = some (1, 0) ∧ t.fnState 0 = fnSTOPPED ∧ t.gen 0 = 2 ∧
      t.reg Reg.ARR_FENCE_BLOCK = 0#64 ∧ t.dark.contains 63 = true ∧ t.mem.byte (2 ^ 40) = 0#8 := by decide +kernel

/-- A reset of a level runs. -/
def resetting (l : Nat) (descs : List (Nat × Nat)) : State :=
  let s := noDump (resetS 1)
  { s with hang := { s.hang with reset := some { level := l, start := 5, descs := descs, beaten := [] } } }
theorem test_reset_merged : after (.resetCmdCompute true false) (resetting 1 []) = resetting 1 [] ∧
    after (.resetCmdModule true false) (resetting 2 []) = resetting 2 [] ∧ after (.resetCmdCold true false) (resetting 3 []) = resetting 3 [] := by decide
theorem test_module_recovery : let s0 := force (puts up [(Reg.FAB_PORT_STATUS 0 0, Fld.FAB_PORT_STATUS_STATE, pACTIVE)]) [(Reg.FAB_PORT_CFG 0 0, Fld.FAB_PORT_CFG_ENABLE, 1)]
    let s := noDump ((s0.setFn 0x10 fnRUN).setFn 0x51 fnRUN)
    let t := after (.resetCmdModule true false) s
    s.canon = true ∧ s.resetLevel = 0 ∧ s.portState 0 ≠ pOFF ∧ recoveryFns.contains 0x10 = true ∧ recoveryFns.contains 0x51 = false ∧ t.resetLevel = 2 := by decide +kernel
theorem test_cold_reset : let t := after (.resetCmdCold true false) before
    t.stepNo = 2 ∧ t.started = [] ∧ t.inForce = [] ∧ t.reg Reg.ARR_FENCE_BLOCK = regReset Reg.ARR_FENCE_BLOCK ∧ before.dumpOn 3 false = false := by decide +kernel
theorem test_fatal_report : (after (.faultReport 0x01 4 0x40 0xFF 0xFF 0xFF 0xFFFF 0xFFFFFF 0xFFFF 0xFFFF) up).resetLevel = 2 := by decide
theorem test_compute_timeout : let s := resetting 1 [(200, 0)]
    let t := after .computeResetTimeout s
    s.canon = true ∧ (s.findStarted 200 0).map (fun x => (x.fn, x.done.isSome)) = some (0x51, false) ∧ s.started.length = 1 ∧
      (s.findStarted 200 0).map (fun x => dOPCODE x.bytes) = some 0x5030 ∧ t.resetLevel = 2 := by decide +kernel
theorem test_recovery_timeout : (after .moduleRecoveryTimeout (resetting 2 [])).resetLevel = 3 ∧
    (after .moduleRecoveryTimeout (resetting 2 [])).clk.now = 6000000005 := by decide +kernel
theorem test_mod_reset : let t := after .modResetAssert up
    t.hang.reset.map (fun r => (r.level, r.held)) = some (3, true) ∧ t.stepNo = 0 ∧
      (after .modResetDeassert t).hang.reset.map (·.held) = some false ∧ (after .modResetDeassert t).stepNo = 2 := by decide +kernel
theorem test_mod_reset_during_cold : (after .modResetAssert (resetting 3 [])).hang.reset.map (·.held) = some true := by decide

theorem test_beat : (after (.lanternBeat 63) { up with hang := { up.hang with misses := [(63, 2)] } }).hang.misses = [] := by decide
theorem test_beat_after_reset : let s := { resetting 1 [] with dark := [63] }
    (after (.lanternBeat 63) s).dark = [] ∧ (after (.lanternBeat 63) s).hang.reset.map (·.beaten) = some [63] := by decide
theorem test_no_beat : let s := { resetting 1 [] with dark := [63] }
    s.canon = true ∧ (after (.blockBeatTimeout 63) s).rbit Reg.ARR_FENCE_BLOCK 63 = true ∧ (after (.blockBeatTimeout 63) s).dark = [] := by decide

/-- Sources with misses so far; the module is not in SERVICE. -/
def missing (l : List (Nat × Nat)) (s : State) : State := let s := puts s [(Reg.MOD_RESET_STATUS, Fld.MOD_RESET_STATUS_PHASE, 0)]; { s with hang := { s.hang with misses := l } }
theorem test_miss : (missing [] up).canon = true ∧ (missing [] up).watched 63 = true ∧ (after (.lanternMissTimer 63 false) (missing [] up)).hang.misses = [(63, 1)] ∧
    (after (.lanternMissTimer 63 false) (missing [] up)).clk.now = 10000000 := by decide
theorem test_block_lost : let t := after (.lanternMissTimer 63 false) (missing [(63, 2)] up)
    t.rbit Reg.MOD_LANTERN_MISS 63 = true ∧ t.rbit Reg.ARR_FENCE_BLOCK 63 = true ∧ t.dark = [63] ∧ cnt t 0x04 = 1 := by decide
theorem test_standby_lost : let s := missing [(0x51, 2)] up
    s.watched 0x51 = true ∧ s.trfLost 0 = false ∧ tblWf zeroAt s.hang.misses = true ∧ s.primary = some 0 ∧ s.trelfort.noStandby = false ∧
      (after (.lanternMissTimer 0x51 false) s).role 1 = rBOOT ∧ cnt (after (.lanternMissTimer 0x51 false) s) 0x04 = 1 := by decide
theorem test_both_lost : let s := missing [(0x50, 2), (0x51, 3)] (noDump up)
    s.watched 0x50 = true ∧ s.trfLost 1 = true ∧ s.resetLevel = 0 ∧ s.pwr.colds = 0 ∧ s.fed = true ∧ s.pwr.tripAt = none ∧
      (after (.lanternMissTimer 0x50 false) s).resetLevel = 3 ∧ (after (.lanternMissTimer 0x50 false) s).pwr.colds = 1 := by decide +kernel

theorem test_beat_of_power_die : (after (.lanternBeat 0x53) { up with hang := { up.hang with misses := [(0x53, 2)] } }).hang.misses = [] := by decide
/-- P1 feeds the module or stands by, and misses its third beat. -/
def lostP1 (a b : Nat) : State := missing [(0x53, 2)] (puts up [(Reg.PWR_FEED_STATUS, Fld.PWR_FEED_STATUS_STATE_A, a), (Reg.PWR_FEED_STATUS, Fld.PWR_FEED_STATUS_STATE_B, b)])
theorem test_standby_feed_lost : (lostP1 fACTIVE fSTANDBY).canon = true ∧ (lostP1 fACTIVE fSTANDBY).watched 0x53 = true ∧
    (after (.lanternMissTimer 0x53 false) (lostP1 fACTIVE fSTANDBY)).feedState 1 = fABSENT ∧
    (after (.lanternMissTimer 0x53 false) (lostP1 fACTIVE fSTANDBY)).feedState 0 = fACTIVE := by decide
theorem test_active_feed_lost : let t := after (.lanternMissTimer 0x53 true) (lostP1 fSTANDBY fACTIVE)
    (lostP1 fSTANDBY fACTIVE).watched 0x53 = true ∧ t.feedState 1 = fFAILED ∧ t.feedState 0 = fACTIVE ∧ cnt t 0x0B = 1 := by decide
theorem test_absent_feed_lost : let t := after (.lanternMissTimer 0x53 true) (lostP1 fACTIVE fABSENT)
    t.hang.misses = [(0x53, 3)] ∧ t.feedState 1 = fABSENT := by decide

/-- A compute reset whose blocks have all been heard. -/
def heardAll (auto : Nat) : State :=
  let s := force (puts (resetting 1 [(200, 0)]) [(Reg.MOD_RESET_STATUS, Fld.MOD_RESET_STATUS_PHASE, 0)]) [(Reg.MOD_RESET_CFG, Fld.MOD_RESET_CFG_AUTO_RESTART, auto)]
  { s with hang := { s.hang with reset := s.hang.reset.map (fun r => { r with beaten := List.range 64 }) } }
theorem test_reset_ends : let t := after .resetEnd (heardAll 0)
    (heardAll 0).canon = true ∧ t.hang.reset = none ∧ t.fget Reg.MOD_RESET_STATUS Fld.MOD_RESET_STATUS_PHASE = 1 ∧ t.endOf 200 0 = some stSUCCESS ∧
      t.fnState 0 = fnSTOPPED := by decide
theorem test_recovery_ends : let s := { heardAll 0 with hang := { (heardAll 0).hang with reset := (heardAll 0).hang.reset.map (fun r => { r with level := 2 }) } }
    (List.range 48).all (fun p => s.portState p != pTRAINING) = true ∧ (after .resetEnd s).hang.reset = none := by decide
theorem test_auto_restart : (heardAll 1).fnState 0 = fnSTOPPED ∧ ((heardAll 1).setFn 0 fnCHANGE).badSetting 0 = none ∧
    (after .resetEnd (heardAll 1)).fnState 0 = fnRUN := by decide
theorem test_summary_copy : let s := { up with hang := { up.hang with toFlash := [0, 1] } }
    s.canon = true ∧ oldestSlot (s.flash 1) = 0 ∧ s.hang.toFlash.contains 1 = true := by decide
theorem test_perst : let s := (ring.setFn (sqFn 32) fnDRAIN)
    s.canon = true ∧ s.cfg (Reg.RING_SQ_BASE 32) Fld.RING_SQ_BASE_LOC = 0 ∧ s.fnState (sqFn 32) = fnDRAIN ∧
      s.cfg (Reg.RING_CQ_BASE 0) Fld.RING_CQ_BASE_LOC = 0 ∧ s.fnState (cqFn 0) = fnRUN := by decide
theorem test_perst_ends : (after .perstDeassert { up with pcie := { perst := true } }).pcie = {} := by decide

/-! ### The Caddy log, the spread map and REBUILD -/

/-- CADDY_RECORD of step 0 of job 77 with a loss buffer of 64 zero bytes; the log lies at HBM place 0x100000. -/
def caddyB : List Byte := desc [(0, 2, 0x4001), (2, 2, 4), (40, 4, 64), (48, 8, at_ 0x46000)]
def caddyP : List Byte := leBytes 8 (77 * 2 ^ 32) ++ List.replicate 4088 0#8
def caddyS (b : List Byte) (copies : Nat) : State :=
  let s := force chip [(Reg.CONT_CADDY_BASE, Fld.CONT_CADDY_BASE_BASE, at_ 0x100000 / 4096), (Reg.CONT_CADDY_CFG, Fld.CONT_CADDY_CFG_COPIES, copies),
    (Reg.CONT_BUDDY_BASE, Fld.CONT_BUDDY_BASE_BASE, at_ 0x20000000 / 4096), (Reg.CONT_BUDDY, Fld.CONT_BUDDY_BUDDY0, 0x0625), (Reg.CONT_BUDDY, Fld.CONT_BUDDY_BUDDY1, 0x0626),
    (Reg.CONT_BUDDY, Fld.CONT_BUDDY_SRC0, 9)]
  { s with started := [{ ring := 192, seq := 0, bytes := b, param := caddyP, fn := 0x50, gen := 1, deadline := none, slots := 1 }] }
theorem test_caddy_bad : let b := desc [(0, 2, 0x4001), (2, 2, 4), (48, 8, at_ 0x46000)]
    ((caddyS b 0).unbegun 192 0 0x4001).map ((caddyS b 0).inTurn caddyOps) = some true ∧ (after (.caddyRecord 192 0 []) (caddyS b 0)).endOf 192 0 = some stBAD_OPERAND := by decide +kernel
theorem test_caddy_waits : let s := { caddyS caddyB 0 with pages := [{ page := 0x46, ticket := 0, tile := 0 }] }
    (s.unbegun 192 0 0x4001).map s.caddyBad = some false ∧ s.pendingIn (at_ 0x46000) 64 = true ∧
      (after (.caddyRecord 192 0 []) s).started.map (fun d => (d.begun, d.done)) = [(false, none)] := by decide +kernel
theorem test_caddy_writes : let s := caddyS caddyB 1
    s.canon = true ∧ (s.awareCheck (ctxOf 192 caddyB s.trfDie 0x30) (at_ 0x46000) 64 none none).2 = none ∧ s.caddySlot 0 = at_ 0x100000 ∧
      s.gloc (at_ 0x100000) = .own (.hbm 0x100000) ∧ s.sumpHolds 0x100000 4096 = false ∧ s.behindHeld 0x100000 4096 = false ∧
      s.behindRead trfMaster s.order (burstsOf 0x100000 4096) = false ∧
      caddyValid (s.gread (at_ 0x100000) 4096) 0 77 = false ∧ s.cfg Reg.CONT_CADDY_CFG Fld.CONT_CADDY_CFG_COPIES = 1 := by decide +kernel

/-- The record of step 0 of job 77 as logged, with a digest. -/
def logged (digest crc : Nat) (ver : Nat) : State :=
  let s := caddyS caddyB 0
  { s with mem := (((s.mem.write 0x100004 (leBytes 4 77)).write 0x10000C (leBytes 4 ver)).write 0x100018 (leBytes 8 digest)).write 0x100FF8 (leBytes 4 crc ++ leBytes 4 cairn) }
theorem test_caddy_same : let t := after (.caddyRecord 192 0 []) (logged 0 2495607550 0)
    ((t.findStarted 192 0).bind (·.done)).map (fun o => (o.status, o.result)) = some (stSUCCESS, crc64 (List.replicate 64 0#8)) := by decide +kernel
theorem test_caddy_other_digest : let t := after (.caddyRecord 192 0 []) (logged 1 4138568955 0)
    t.endOf 192 0 = some stFAULTED ∧ cnt t 0x0F = 1 := by decide +kernel
/-- A copy of a record, an answer, and a record that waits for its copies. -/
def copyK (src k : Nat) : Packet := { dst := 0xFFFF, src := src, kind := 0x3C, addr := k, body := List.replicate 4092 0#8 ++ leBytes 4 cairn }
def ackK (k o : Nat) : Packet := { dst := 0xFFFF, src := 0x0625 + k, kind := 0x3D, body := caddyAckBody 0 k o }
def awaiting (l : List (Option Nat)) (k : Packet) : State :=
  { caddyS caddyB 2 with
    fab := { chip.fab with delivered := [k] }
    caddy := some { ring := 192, seq := 0, step := 0, digest := 0, sentAt := 70, acks := l, differs := false } }
theorem take_delivered (s : State) (k : Packet) (h : s.fab.delivered = [k]) : s.take k = some { s with fab := { s.fab with delivered := [] } } := by
  simp [State.take, h, dropFirst, Packet.sameFlow]
theorem test_copy_refused : ∃ s1, (awaiting [] (copyK 8 0)).take (copyK 8 0) = some s1 ∧ s1.buddySrc 0 = 9 := ⟨_, take_delivered _ _ rfl, by decide +kernel⟩
theorem test_copy_taken : ∃ s1, (awaiting [] (copyK 9 0)).take (copyK 9 0) = some s1 ∧ s1.buddySrc 0 = 9 ∧ s1.gloc (s1.buddySlot 0 0) = .own (.hbm 0x20000000) ∧
    s1.sumpHolds 0x20000000 4096 = false ∧ s1.behindHeld 0x20000000 4096 = false ∧ s1.behindRead trfMaster s1.order (burstsOf 0x20000000 4096) = false ∧ (copyK 9 0).body.length = 4096 ∧ leAt (copyK 9 0).body 4092 4 = cairn :=
  ⟨_, take_delivered _ _ rfl, by decide +kernel⟩
theorem test_caddy_ack : (after (.caddyAck (ackK 0 0)) (awaiting [none, none] (ackK 0 0))).caddy.map (·.acks) = some [some 0, none] := by decide +kernel
theorem test_caddy_ack_of_another : let k := { ackK 1 0 with src := 0x0625 }
    (after (.caddyAck k) (awaiting [none, none] k)).caddy.map (·.acks) = some [none, none] := by decide +kernel
theorem test_caddy_last_ack : let t := after (.caddyAck (ackK 1 0)) (awaiting [some 0, none] (ackK 1 0))
    t.caddy = none ∧ t.endOf 192 0 = some stSUCCESS := by decide +kernel
theorem test_buddy_wait : let t := after .buddyWaitExpire (awaiting [some 0, none] (ackK 1 0))
    t.endOf 192 0 = some stSUCCESS ∧ t.fget Reg.CONT_CADDY_STATUS Fld.CONT_CADDY_STATUS_BUDDY_MISS = 1 := by decide +kernel
theorem test_buddy_wait_none_written : (after .buddyWaitExpire (awaiting [some 2, none] (ackK 1 0))).endOf 192 0 = some stFAULTED ∧
    (after .buddyWaitExpire (awaiting [some 1, some 0] (ackK 1 0))).endOf 192 0 = some stFAULTED := by decide +kernel

/-- Chip 9 is lost; the plan gives its rows to this module from slot 5 on. -/
def planB : List Byte := leBytes 4 (9 + 65536) ++ List.replicate 12 0#8 ++ leBytes 2 0x0625 ++ leBytes 2 1 ++ leBytes 2 5 ++ leBytes 2 4
def spreading (fn mode : Nat) : State :=
  let dirs := (List.range 8).flatMap (fun r => [(Reg.LDG_TBL_DIR_BASE r, Fld.LDG_TBL_DIR_BASE_BASE, at_ 0x10000 / 4096), (Reg.LDG_TBL_DIR_CFG r, Fld.LDG_TBL_DIR_CFG_COUNT, 1)])
  let s := force chip (dirs ++ [(Reg.CONT_SPREAD_BASE, Fld.CONT_SPREAD_BASE_BASE, at_ 0x110000 / 4096), (Reg.CONT_SPREAD_CFG, Fld.CONT_SPREAD_CFG_PLANS, 1)])
  let t := (List.range 8).foldl (fun s r => s.setFn (0x10 + 4 * r) fn) s
  { t with
    mem := (table.mem.write 0x11000 (leBytes 4 (if mode = 0 then 9 else 0x0625 + 5 * 65536))).write 0x110000 planB
    started := [{ ring := 192, seq := 0, bytes := desc [(0, 2, 0x4010), (24, 2, 9), (26, 1, mode)], fn := 0x50, gen := 1, deadline := none, slots := 1 }] }
theorem test_spread_bad : (after (.spreadApply 192 0 []) (spreading fnCHANGE 2)).endOf 192 0 = some stBAD_OPERAND := by decide +kernel
theorem test_spread_refused : let s := spreading fnRUN 0
    (s.planFor 9).map (fun p => (planBad p 9, survivorsOf p)) = some (false, [{ chip := 0x0625, weight := 1, slot := 5, count := 4 }]) ∧
      (after (.spreadApply 192 0 []) s).endOf 192 0 = some stREFUSED ∧ (after (.spreadApply 192 0 []) s).mem = s.mem := by decide +kernel
theorem test_spread_applied : let t := after (.spreadApply 192 0 []) (spreading fnCHANGE 0)
    t.endOf 192 0 = some stSUCCESS ∧ t.isLost 9 = true ∧ t.mem.read 0x11000 4 = leBytes 4 (0x0625 + 5 * 65536) ∧
      t.fget Reg.CONT_SPREAD_STATUS Fld.CONT_SPREAD_STATUS_APPLIED = 1 := by decide +kernel
theorem test_spread_returned : let t := after (.spreadApply 192 0 []) (spreading fnCHANGE 1)
    t.endOf 192 0 = some stSUCCESS ∧ t.isLost 9 = false ∧ t.mem.read 0x11000 4 = leBytes 4 9 := by decide +kernel

/-- REBUILD of the first page of step 3 of chip 7 from ten holders, all chip 9. -/
def rebuildQ : List Byte := leBytes 8 (7 + 5 * 2 ^ 24 + 3 * 2 ^ 32) ++ leBytes 8 0 ++ leBytes 8 4096 ++ leBytes 8 (at_ 0x47000) ++ (List.replicate 10 (leBytes 2 9)).flatten ++ List.replicate 12 0#8
def rebuilding (p : List Byte) : State :=
  { inbox noK with started := [{ ring := 192, seq := 0, bytes := desc [(0, 2, 0x4020), (2, 2, 4)], param := p, fn := 0x12, gen := 1, deadline := none, slots := 1 }] }
def view : HolderView := { base := 0, area := 2, owners := [BitVec.ofNat 64 (2 ^ 16 + 7)], index0 := leBytes 8 (7 + 3 * 2 ^ 32) ++ List.replicate 52 0#8 ++ leBytes 4 cairn, index1 := [] }
def views10 : List (Option HolderView) := List.replicate 10 (some view)
def pieces8 : List PieceRead := (List.range 8).map (fun h => { stripe := 0, piece := h, data := zeroPiece, crcs := (chunksOf 4096 16 zeroPiece).map crc32c })
theorem test_rebuild_bad : let s := rebuilding (rebuildQ.take 63)
    (s.unbegun 192 0 0x4020).map (s.inTurn [0x4020]) = some true ∧ s.sump.cut = none ∧ s.canon = true ∧ (after (.rebuild 192 0 [] [] []) s).endOf 192 0 = some stBAD_OPERAND := by decide +kernel
theorem test_rebuild_fails : let s := rebuilding rebuildQ
    s.rebuildBad (desc [(0, 2, 0x4020), (2, 2, 4)]) rebuildQ = false ∧
      (((after (.rebuild 192 0 [] [] []) s).findStarted 192 0).bind (·.done)).map (fun o => (o.status, o.result)) = some (stFAULTED, 0) := by decide +kernel
/-- A stripe none of whose eight data pieces is gone is its data pieces. -/
theorem solve_all (ds : Pieces) (f : Nat → List Byte) (p q : Option (List Byte)) (h : ∀ i, i < 8 → ds[i]? = some (some (f i))) :
    solveStripe ds p q = some ((List.range 8).map f) := by
  have g : (List.range 8).filter (fun h => ((ds[h]?).getD none).isNone) = [] := by
    rw [List.filter_eq_nil_iff]; intro a ha; simp [h a (List.mem_range.mp ha)]
  unfold solveStripe
  simp only [g]
  refine congrArg some (List.map_congr_left ?_)
  intro a ha
  simp [h a (List.mem_range.mp ha)]
theorem rebuild_one (x : RebuildP) (who : Master) (step n q : Nat) (sets : List (Option Nat)) (ps : List PieceRead) (s : State) (d : List Byte)
    (h : s.rebuildStripe x sets ps q = some (d, false)) :
    rebuildAll x who step sets ps s n [q] = (((s.askStripe x who sets ps q).rebuildWrite x step q d).bump Reg.CONT_REBUILD_STATUS Fld.CONT_REBUILD_STATUS_STRIPES 1, none, n) := by
  simp only [rebuildAll, h]; rfl
theorem test_rebuild_succeeds : ∃ s1 m, rebuildAll (rebuildP rebuildQ) (.ledger 0 (originOfDesc 192 0 (desc [(0, 2, 0x4020), (2, 2, 4)]))) 0 ((List.range 10).map (fun h => (rebuilding rebuildQ).rebuildSet (rebuildP rebuildQ) h ((views10[h]?).getD none)))
    pieces8 (rebuilding rebuildQ) 0 [0] = (s1, none, m) := by
  have hs : (List.range 10).map (fun h => (rebuilding rebuildQ).rebuildSet (rebuildP rebuildQ) h ((views10[h]?).getD none)) = List.replicate 10 (some 0) := by decide +kernel
  have hc : (List.range 8).map (fun h => decide ((rebuilding rebuildQ).chip = some ((rebuildP rebuildQ).chips.getD h 0))) = List.replicate 8 false := by decide +kernel
  have hp : (List.range 8).map ((rebuilding rebuildQ).rebuildPiece (rebuildP rebuildQ) (List.replicate 10 (some 0)) pieces8 0) = List.replicate 8 (some zeroPiece) := by
    have e : ∀ h, h < 8 → (rebuilding rebuildQ).rebuildPiece (rebuildP rebuildQ) (List.replicate 10 (some 0)) pieces8 0 h = some zeroPiece := by
      intro h hh
      have h1 : (rebuilding rebuildQ).chip ≠ some ((rebuildP rebuildQ).chips.getD h 0) := by
        have : ∀ h, h < 8 → (rebuilding rebuildQ).chip ≠ some ((rebuildP rebuildQ).chips.getD h 0) := by decide +kernel
        exact this h hh
      have h2 : pieces8.find? (fun p => p.stripe == 0 && p.piece == h) = some { stripe := 0, piece := h, data := zeroPiece, crcs := (chunksOf 4096 16 zeroPiece).map crc32c } := by
        have hf : (List.range 8).find? (· == h) = some h :=
          List.find?_range_eq_some.mpr ⟨beq_self_eq_true h, List.mem_range.mpr hh, fun j hj => by simpa using Nat.ne_of_lt hj⟩
        simpa [pieces8, List.find?_map, Function.comp_def] using hf
      have h3 : ((List.replicate 10 (some 0))[h]?).getD none = some 0 := by
        rw [List.getElem?_replicate_of_lt (by omega)]; rfl
      unfold State.rebuildPiece
      simp only [h3, if_neg h1, h2, Option.map_some, beq_self_eq_true, if_true]
    generalize zeroPiece = z at e ⊢
    have : List.replicate 8 (some z) = (List.range 8).map (fun _ => some z) := rfl
    rw [this]
    exact List.map_congr_left (fun h hh => e h (List.mem_range.mp hh))
  rw [hs]
  have hr : (rebuilding rebuildQ).rebuildStripe (rebuildP rebuildQ) (List.replicate 10 (some 0)) pieces8 0 = some (((List.range 8).map (fun _ => zeroPiece)).flatten, false) := by
    generalize zeroPiece = z at hp ⊢
    have hz : solveStripe (List.replicate 8 (some z)) none none = some ((List.range 8).map (fun _ => z)) :=
      solve_all _ (fun _ => z) none none (fun i hi => List.getElem?_replicate_of_lt hi)
    simp only [State.rebuildStripe, hp]
    rw [if_neg (by simp), if_neg (by simp), hz, Option.map_some]
    exact congrArg some (congrArg _ (by simp))
  exact ⟨_, _, rebuild_one _ _ _ _ _ _ _ _ _ hr⟩

/-! ### Cuts and restoring -/

/-- CUT of step 5 for job 77; page 0x50 is the one page of range 0, its Sump begins at HBM place 0x100000. -/
def cutB (opts job : Nat) : List Byte := desc [(0, 2, 0x4030), (12, 4, 5), (24, 4, job), (28, 1, opts)]
def sumpS : State := (List.range 8).foldl (fun s r => s.setFn (0x12 + 4 * r) fnRUN) (force chip
  [(Reg.CKP_RANGE_A 0, Fld.CKP_RANGE_A_KIND, 1), (Reg.CKP_RANGE_A 0, Fld.CKP_RANGE_A_BASE, 0x10000050), (Reg.CKP_RANGE_B 0, Fld.CKP_RANGE_B_PAGES, 1),
   (Reg.CKP_SUMP_BASE, Fld.CKP_SUMP_BASE_BASE, 0x100), (Reg.CKP_SUMP_CFG, Fld.CKP_SUMP_CFG_SHADOW_MIB, 1), (Reg.CKP_SUMP_CFG, Fld.CKP_SUMP_CFG_DELTA_MIB, 1),
   (Reg.CKP_MANIFEST_BASE, Fld.CKP_MANIFEST_BASE_BASE, at_ 0x400000 / 4096)])
def cutting (b : List Byte) : State := start sumpS 192 0x50 b
def cut0 : Cut := { ring := 192, seq := 0, step := 5, jobId := 77, trigger := 0, waitSeal := true, waitDrain := false, full := false, direct := false }
theorem test_cut_not_due : let s := cutting (cutB 4 77)
    s.canon = true ∧ (s.unbegun 192 0 0x4030).map (fun d => s.cutNotDue d.bytes) = some true ∧ (after (.cut 192 0) s).endOf 192 0 = some stSUCCESS := by decide
theorem test_cut_refused : let s := cutting (cutB 0 0)
    (s.unbegun 192 0 0x4030).map (fun d => (s.cutNotDue d.bytes, s.cutRefused d.bytes)) = some (false, true) ∧
      (after (.cut 192 0) s).endOf 192 0 = some stREFUSED := by decide
theorem test_cut_waits : let s0 := cutting (cutB 0 77)
    let s := { s0 with sump := { s0.sump with sealed := some cut0 } }
    (s.unbegun 192 0 0x4030).map (fun d => (s.cutNotDue d.bytes, s.cutRefused d.bytes)) = some (false, false) ∧ (after (.cut 192 0) s).sump.cut = none := by decide
theorem test_cut_taken : let t := after (.cut 192 0) (cutting (cutB 0 77))
    t.sump.cut.map (fun c => (c.step, c.jobId, c.full, c.direct)) = some (5, 77, true, true) ∧ t.sump.tokens = List.range 8 ∧
      t.fget Reg.CKP_STATUS Fld.CKP_STATUS_FULL_CUTS = 1 := by decide

/-- Region 0 has swapped its banks; these pages are set in its inactive bank. -/
def copyS (pages : List Nat) : State :=
  let s := cutting (cutB 0 77)
  { s with
    sump := { s.sump with cut := some { cut0 with swapped := [0] } }
    mem := { s.mem with dirty := pages.map (fun p => (dirtyKey 0 (1 - s.activeBank 0) p, true)) } }
theorem test_sump_copy_finished : (copyS []).canon = true ∧ (copyS []).inactivePages 0 = [] ∧
    (after (.sumpCopy 0 []) (copyS [])).sump.cut.map (·.finished) = some [0] := by decide
theorem test_sump_copy_unprotected : (copyS [7]).inactivePages 0 = [7] ∧ (copyS [7]).protOfPage 7 = none ∧ (after (.sumpCopy 0 []) (copyS [7])).inactivePages 0 = [] := by decide
theorem test_sump_copy_waits : let s := { copyS [0x50] with pages := [{ page := 0x50, ticket := 0, tile := 0 }] }
    (s.protOfPage 0x50).map (fun p => (unitOf p 0x50).any s.isPending) = some true ∧ s.inactivePages 0 = [0x50] := by decide
theorem test_sump_copy_to_delta : let s := copyS [0x50]
    s.canon = true ∧ s.inactivePages 0 = [0x50] ∧ (s.protOfPage 0x50).map (fun p => (p.narrow, s.imageBase p)) = some (false, 0) ∧ s.isPending 0x50 = false ∧
      (s.sumpCheck { die := 0x40, unit := 0x15, region := some 0 } 0x50).2 = none ∧ tblGet zeroAt s.sump.delta 0 < s.deltaRoom ∧
      (s.deltaPage 0 0 + 4096) % 2 ^ 36 ≤ 0xFE8000000 ∧ s.deltaPage 0 0 = 0x201000 ∧ s.deltaIndex 0 0 = 0x200000 := by decide +kernel
theorem test_sump_copy_fails : let s0 := copyS [0x50]
    let s := { s0 with mem := { s0.mem with poison := [0x50 * 64] } }
    s.canon = true ∧ (s.sumpCheck { die := 0x40, unit := 0x15, region := some 0 } 0x50).2 = some 0x07 ∧ (after (.sumpCopy 0 []) s).sump.cut = none ∧
      (after (.sumpCopy 0 []) s).endOf 192 0 = some stFAULTED := by decide +kernel
theorem test_held_write_release : let s := { chip with heldWr := [{ who := .host, stamp := 0, key := 0x7000, data := [1#8, 2#8] }] }
    s.heldWr.zipIdx.find? (fun e => s.heldReady e.2 e.1) = some ({ who := .host, stamp := 0, key := 0x7000, data := [1#8, 2#8] }, 0) ∧
      (after (.heldWriteRelease []) s).heldWr = [] ∧ (after (.heldWriteRelease []) s).mem.read 0x7000 2 = [1#8, 2#8] := by decide

/-- Every engine has finished; a cut that is sealed folds or drains. -/
def sealing (direct : Bool) : State :=
  let s := cutting (cutB 1 77)
  { s with sump := { s.sump with cut := some { cut0 with direct := direct, full := direct, finished := List.range 8 } } }
theorem test_seal : let s := sealing false
    s.canon = true ∧ s.primary.isSome = true ∧ s.gloc (s.manifestAddr (s.sump.ordinal + 1)) = .own (.hbm 0x401000) ∧ s.behindHeld 0x401000 4096 = false ∧
      s.sumpHolds 0x401000 4096 = false ∧ (s.findStarted 192 0).map (·.done) = some none := by decide
/-- A sealed cut in a phase; no holder has an area. -/
def sealedS (phase : Nat) (c : Cut) : State := let s := puts (cutting (cutB 1 77)) [(Reg.CKP_STATUS, Fld.CKP_STATUS_PHASE, phase)]; { s with sump := { s.sump with sealed := some c } }
/-- The delta area of stack 0 holds one page, whose burst is poisoned. -/
def badDelta (s : State) : State := { s with sump := { s.sump with delta := [(0, 1)] }, mem := { s.mem with poison := [s.deltaPage 0 0 / 64] } }
theorem test_fold_fails : let s := badDelta (sealedS 2 { cut0 with waitDrain := true })
    s.canon = true ∧ (s.foldAll 5).2 = some 0x07 ∧ (after (.foldEnd [] []) s).fget Reg.CKP_STATUS Fld.CKP_STATUS_PHASE = 0 ∧
      (after (.foldEnd [] []) s).endOf 192 0 = some stFAULTED := by decide +kernel
theorem test_fold_end : let s := sealedS 2 cut0
    s.canon = true ∧ s.sumpRuns = true ∧ (s.foldAll 5).2 = none ∧ tblWf zeroAt s.sump.delta = true ∧ (after (.foldEnd [] []) s).fget Reg.CKP_STATUS Fld.CKP_STATUS_PHASE = 3 ∧
      (after (.foldEnd [] []) s).fget Reg.CKP_STEPS Fld.CKP_STEPS_SHADOW_STEP = 5 ∧
      (after (.foldEnd [] []) s).fget Reg.CKP_DRAIN_STATUS Fld.CKP_DRAIN_STATUS_MISSED = 10 := by decide +kernel
theorem test_drain_end : let s := sealedS 3 { cut0 with waitDrain := true }
    s.canon = true ∧ s.sumpRuns = true ∧ (s.findStarted 192 0).map (·.done) = some none ∧ stripesOf s.imageSize = 1 ∧ s.drainFails [] = none := by decide +kernel

/-- RESTORE_SELECT of one module, this one, whose shadow holds step 3. -/
def selectB (n : Nat) : List Byte := desc [(0, 2, 0x4058), (24, 4, 77), (28, 4, n), (32, 8, at_ 0x52000), (40, 8, at_ 0x53000)]
def selecting (n : Nat) : State := let s := start chip 192 0x50 (selectB n); { s with mem := s.mem.write 0x52000 (leBytes 2 9) }
theorem test_select_bad : let s := selecting 0
    (s.unbegun 192 0 0x4058).map (fun d => selectBad d.bytes) = some true ∧ (after (.restoreSelect 192 0 [] [] []) s).endOf 192 0 = some stBAD_OPERAND := by decide
theorem test_select_none : let s := selecting 1
    s.canon = true ∧ (s.unbegun 192 0 0x4058).map (fun d => selectBad d.bytes) = some false ∧ (after (.restoreSelect 192 0 [] [] []) s).endOf 192 0 = some stFAULTED ∧
      cnt (after (.restoreSelect 192 0 [] [] []) s) 0x10 = 1 := by decide +kernel

/-- Two lost modules, both chip 7; ten holders hold step 3, of the second also step 4. -/
def lost7 : List Byte := leBytes 2 7 ++ leBytes 2 1 ++ (List.replicate 10 (leBytes 2 9)).flatten
def select7 : State := let s := start (inbox noK) 192 0x50 (selectB 2); { s with mem := s.mem.write 0x52000 (lost7 ++ lost7) }
def shown (v : HolderView) : ModView := { steps := 0#64, status := 0#64, manifests := [], holders := [], views := List.replicate 10 (some v) }
def view4 : HolderView := { view with index1 := leBytes 8 (7 + 4 * 2 ^ 32) ++ List.replicate 52 0#8 ++ leBytes 4 cairn }
theorem test_select_same : let t := after (.restoreSelect 192 0 [shown view, shown view] [] []) select7
    select7.canon = true ∧ ((t.findStarted 192 0).bind (·.done)).map (fun o => (o.status, o.result)) = some (stSUCCESS, 3) ∧
      t.fget Reg.CKP_RESTORE_STATUS Fld.CKP_RESTORE_STATUS_STEP = 3 := by decide +kernel
theorem test_select_mixed : let t := after (.restoreSelect 192 0 [shown view, shown view4] [] []) select7
    ((t.findStarted 192 0).bind (·.done)).map (fun o => (o.status, o.result)) = some (stSUCCESS, 3 + 2 ^ 32) ∧
      t.fget Reg.CKP_RESTORE_STATUS Fld.CKP_RESTORE_STATUS_MIXED = 1 ∧ cnt t 0x10 = 1 := by decide +kernel

/-- RESTORE of the whole image from the Sump. -/
def restoreB (src : Nat) : List Byte := desc [(0, 2, 0x4050), (12, 4, 6), (24, 1, src), (28, 4, 5)]
def restoring (b : List Byte) (step phase : Nat) : State :=
  let s := puts (start sumpS 192 0x50 b) [(Reg.CKP_STATUS, Fld.CKP_STATUS_SHADOW_VALID, 1), (Reg.CKP_STEPS, Fld.CKP_STEPS_SHADOW_STEP, step),
    (Reg.CKP_STEPS, Fld.CKP_STEPS_DELTA_STEP, 2 ^ 32 - 1), (Reg.CKP_STATUS, Fld.CKP_STATUS_PHASE, phase)]
  { s with sump := { s.sump with sealed := if phase = 2 then some cut0 else none } }
theorem test_restore_bad : let s := restoring (restoreB 2) 5 0
    (s.unbegun 192 0 0x4050).map (fun d => s.restoreBad d.bytes) = some true ∧ (after (.restore 192 0 [] []) s).endOf 192 0 = some stBAD_OPERAND := by decide
theorem test_restore_refused : let s := restoring (restoreB 0) 4 0
    s.restoreBad (restoreB 0) = false ∧ (s.restoreRefused (s.restoreP (restoreB 0))).map (fun o => (o.status, o.result)) = some (stREFUSED, 4) ∧
      (after (.restore 192 0 [] []) s).endOf 192 0 = some stREFUSED := by decide +kernel
theorem test_restore_waits : let s := restoring (restoreB 0) 5 2
    s.restoreBad (restoreB 0) = false ∧ s.restoreRefused (s.restoreP (restoreB 0)) = none ∧ s.sump.sealed.isSome = true ∧ s.sumpRuns = true ∧
      (after (.restore 192 0 [] []) s).endOf 192 0 = none := by decide +kernel
/-- What the statement names: the units, and the class that ends the loop. -/
def restoredBy (s : State) : Option Nat × List Nat × Option Nat :=
  let p := s.restoreP (restoreB 0)
  let s1 := (s.restoreBegin p).1
  ((s.restoreBegin p).2, (s1.restoreUnits p).map (·.2),
    (foldChecks s1 (fun s (u : Prot × Nat) => s.restoreUnit p (dSTEP (restoreB 0)) [] u.1 u.2) (s1.restoreUnits p)).2)
theorem test_restore : restoredBy (restoring (restoreB 0) 5 0) = (none, [0], none) := by decide +kernel
theorem test_restore_fails : let s0 := restoring (restoreB 0) 5 0
    let s := { s0 with mem := { s0.mem with poison := [0x100 * 64] } }
    s.canon = true ∧ restoredBy s = (none, [0], some 0x07) ∧ (after (.restore 192 0 [] []) s).endOf 192 0 = some stFAULTED := by decide +kernel
/-- RESTORE of an image in this module's HBM, whose page is pending. -/
def restoreOwnB : List Byte := desc [(0, 2, 0x4050), (12, 4, 6), (24, 1, 1), (28, 4, 5), (32, 8, at_ 0x55000)]
theorem test_restore_own_image_waits : let s0 := restoring restoreOwnB 5 0
    let s := { s0 with pages := [{ page := 0x55, ticket := 0, tile := 0 }] }
    s.restoreBad restoreOwnB = false ∧ s.restoreRefused (s.restoreP restoreOwnB) = none ∧
      s.pendingIn ((s.restoreP restoreOwnB).addr + (s.restoreP restoreOwnB).off) (s.restoreP restoreOwnB).len = true ∧
      (after (.restore 192 0 [] []) s).endOf 192 0 = none := by decide +kernel
theorem test_restore_delta_fails : let s := puts (badDelta (restoring (restoreB 0) 4 0)) [(Reg.CKP_STEPS, Fld.CKP_STEPS_DELTA_STEP, 5)]
    s.restoreRefused (s.restoreP (restoreB 0)) = none ∧ (s.restoreBegin (s.restoreP (restoreB 0))).2 = some 0x07 ∧
      (after (.restore 192 0 [] []) s).endOf 192 0 = some stFAULTED := by decide +kernel

/-! ### The Trelforts -/

theorem test_boot_rom_recovery : up.canon = true ∧ up.mayBoot 1 = true ∧ up.pwr.stopped = false ∧ up.bootSlot 1 = none ∧
    (after (.bootRom 1) up).role 1 = rRECOVERY := by decide +kernel
def svn3 : State := let s := puts up [(Reg.TRF_BOOT 0, Fld.TRF_BOOT_SVN, 3)]; { s with trelfort := { s.trelfort with fuse0 := 2 } }
theorem test_fuse_advance : (after (.fuseSvnAdvance true 0 64) svn3).fuse 0 = 3 ∧ (after (.fuseSvnAdvance true 0 1) svn3).fuse 0 = 2 ∧
    (after (.fuseSvnAdvance true 0 64) svn3).fget (Reg.TRF_BOOT 0) Fld.TRF_BOOT_FUSE_SVN = 3 := by decide
theorem test_fuse_rejected : (after (.fuseSvnAdvance false 0 64) svn3).fuse 0 = 2 ∧ cnt (after (.fuseSvnAdvance false 0 64) svn3) 0x11 = 1 ∧
    cnt (after (.fuseSvnAdvance true 2 64) svn3) 0x11 = 1 := by decide
theorem test_kcore_lockstep : up.trfUp = true ∧ up.role 1 ≠ rHALTED ∧ up.trfLost 0 = false ∧ up.trelfort.noStandby = false ∧
    (after (.kcoreLockstep 1) up).role 1 = rHALTED ∧ cnt (after (.kcoreLockstep 1) up) 0x04 = 1 := by decide
def alone : State := noDump ((up.setRole 1 rHALTED).setHalted 1 (some 60))
theorem test_kcore_lockstep_both : alone.canon = true ∧ alone.trfUp = true ∧ alone.role 0 ≠ rHALTED ∧ alone.trfLost 1 = true ∧ alone.pwr.tripAt = none ∧
    alone.fed = true ∧ alone.resetLevel < 3 ∧ alone.pwr.colds < 3 := by decide
def orphan : State := let s := (((up.setRole 0 rHALTED).setRan 0 false).setTime tLOCKED).setHalted 0 (some 60); { s with journal := [(8, [5#8])] }
theorem test_takeover : let t := after .takeover orphan
    orphan.canon = true ∧ [0, 1].find? orphan.mayTakeOver = some 1 ∧ t.primary = some 1 ∧ t.role 0 = rHALTED ∧ t.timeState = tHOLDOVER ∧ t.journal = [] ∧
      rdTbl t.mem.trf (trfBase 1 + 8) 1 = [5#8] := by decide +kernel
def journalS : State := { up with journal := [(8, [5#8]), (9, [6#8])] }
theorem test_journal_entry : journalS.follower = some 1 ∧ (after (.journalEntry false 90) journalS).journal = [(9, [6#8])] ∧
    rdTbl (after (.journalEntry false 90) journalS).mem.trf (trfBase 1 + 8) 1 = [5#8] ∧
    (after (.journalEntry false 90) journalS).fget Reg.TRF_ROLE Fld.TRF_ROLE_LAG_US = 50 := by decide
theorem test_journal_entry_last : (after (.journalEntry false 90) (after (.journalEntry false 90) journalS)).fget Reg.TRF_ROLE Fld.TRF_ROLE_LAG_US = 0 := by decide
theorem test_journal_entry_lost : (after (.journalEntry true 0) journalS).role 1 = rSYNCING ∧ cnt (after (.journalEntry true 0) journalS) 0x04 = 1 := by decide
def syncing : State := let s := up.setRole 1 rSYNCING; { s with mem := { s.mem with trf := [(trfBase 0 + 8, 5#8), (trfBase 1 + 9, 6#8)] } }
theorem test_sync_complete : syncing.follower = some 1 ∧ (after .syncComplete syncing).role 1 = rSTANDBY ∧
    [8, 9].map (fun o => tblGet zeroByte (after .syncComplete syncing).mem.trf (trfBase 1 + o)) = [5#8, 0#8] := by decide +kernel
theorem test_swap : (after (.swap true true) up).trelfort.swapAt = some up.clk.now ∧ cnt (after (.swap true true) journalS) 0x11 = 1 ∧
    cnt (after (.swap false true) up) 0x11 = 1 := by decide
def swapping : State := after (.swap true true) up
theorem test_swap_handover : (after .swapHandover swapping).primary = some 1 ∧ (after .swapHandover swapping).role 0 = rSTANDBY ∧
    (after .swapHandover swapping).clk.now = swapping.clk.now := by decide
theorem test_swap_handover_busy : (after .swapHandover (start swapping 192 0x50 (cutB 0 77))).clk.now = 100000000 := by decide +kernel
theorem test_swap_handover_gone : (after .swapHandover (swapping.setRole 1 rHALTED)).primary = some 0 ∧
    (after .swapHandover (swapping.setRole 1 rHALTED)).trelfort.swapAt = none := by decide

/-! ### The management port -/

/-- Chip 0x0625 with no MAC asked for. -/
def port0 : State := force chip [(Reg.TRF_MGMT_CFG, Fld.TRF_MGMT_CFG_MAC_EN, 0)]
/-- A datagram of SEQ 4 to chip 0x0625. -/
def dgram (type : Nat) (body : List Byte) : List Byte :=
  leBytes 2 (1 + 256 * type) ++ leBytes 2 0 ++ leBytes 4 4 ++ leBytes 2 0x0625 ++ leBytes 2 body.length ++ leBytes 4 0 ++ List.replicate 16 0#8 ++ body
def freshOk (s : State) (k : Nat) (type : Nat) (g : List Byte) : Bool :=
  s.canon && s.trfUp && s.tmpForMe g && tmpType g == type && s.macOk k g && (s.trelfort.replies.find? (fun r => r.1 == 2 * 7 + k && r.2.1 == tmpSeq g)).isNone
def readD (n : Nat) : List Byte := dgram 0x01 (leBytes 8 (at_ 0x45000) ++ leBytes 4 n ++ leBytes 4 0)
def reply (status p : Nat) (data : List Byte) : Out := .tmp 7 0x03 4 (leBytes 2 status ++ leBytes 1 p ++ List.replicate 13 0#8 ++ data)
theorem test_tmp_bad_mac : let s := chip
    s.tmpForMe (readD 8) = true ∧ s.macOk 0 (readD 8) = false ∧
      (after (.tmpRead 0 7 (readD 8) []) s).fget Reg.TRF_TMP_STATUS Fld.TRF_TMP_STATUS_MAC_FAIL = 1 := by decide +kernel
theorem test_tmp_again : let s := { port0 with trelfort := { port0.trelfort with replies := [(14, 4, 0x03, [9#8])] } }
    s.macOk 0 (readD 8) = true ∧ (after (.tmpRead 0 7 (readD 8) []) s).out = [.tmp 7 0x03 4 [9#8]] := by decide +kernel
theorem test_tmp_read : freshOk port0 0 0x01 (readD 8) = true ∧ port0.tmpAwaited 0 7 4 = false ∧ port0.gloc (at_ 0x45000) = .own (.hbm 0x45000) ∧
    (let e := port0.tmpDone.eccIn (at_ 0x45000) 8 []; !e.readWaits (.tmp 0 7 4) e.order (at_ 0x45000) 8 && !e.isWithdrawn 0x45 && !e.poisonedAt 0x45000 8) = true ∧
    (after (.tmpRead 0 7 (readD 8) []) { port0 with mem := port0.mem.write 0x45000 [7#8] }).out =
      [reply 0 0 (leBytes 8 7)] := by decide +kernel
theorem test_tmp_read_waits : let s := { port0 with waitRd := [{ who := .tmp 0 7 4, stamp := 0, addr := at_ 0x45000, len := 8 }] }
    s.tmpAwaited 0 7 4 = true ∧ after (.tmpRead 0 7 (readD 8) []) s = s := by decide +kernel
theorem test_tmp_read_other : freshOk port0 1 0x01 (readD 8) = true ∧ port0.primary ≠ some 1 ∧ port0.role 1 = rSTANDBY ∧
    (after (.tmpRead 1 7 (readD 8) []) port0).out = [reply 1 0 []] := by decide +kernel
theorem test_tmp_read_bad : tmpCount 12 = false ∧ (after (.tmpRead 0 7 (readD 12) []) port0).out = [reply 3 0 []] := by decide +kernel
def writeD : List Byte := dgram 0x02 (leBytes 8 (at_ 0x45000) ++ leBytes 4 8 ++ leBytes 4 0 ++ leBytes 8 7)
theorem test_tmp_write : freshOk port0 0 0x02 writeD = true ∧ (tmpBody writeD).length = 16 + 8 ∧ port0.sumpHolds 0x45000 8 = false ∧ port0.behindHeld 0x45000 8 = false ∧
    port0.tmpAwaited 0 7 4 = false ∧ port0.behindRead (.tmp 0 7 4) port0.order (burstsOf 0x45000 8) = false ∧
    (after (.tmpWrite 0 7 writeD) port0).mem.read 0x45000 8 = leBytes 8 7 ∧ (after (.tmpWrite 0 7 writeD) port0).out = [reply 0 0 []] := by decide +kernel
theorem test_tmp_status : freshOk port0 0 0x20 (dgram 0x20 []) = true ∧ (after (.tmpStatus 0 7 (dgram 0x20 [])) port0).out = [.tmp 7 0x20 4 port0.statusBody] ∧
    (port0.statusBody.drop 8).take 2 = leBytes 2 0x0625 := by decide +kernel
/-- FLASH_WRITE of slot 1 of T0. -/
def flashD (off : Nat) : List Byte := dgram 0x30 (leBytes 4 off ++ leBytes 4 256 ++ leBytes 1 0 ++ List.replicate 7 0#8 ++ List.replicate 256 5#8)
theorem test_flash_write : freshOk port0 0 0x30 (flashD 0x900000) = true ∧ port0.flashOpen 0 0x900000 256 = true ∧
    rdFlash ((after (.flashWrite 0 7 (flashD 0x900000)) port0).flash 0) 0x9000FF 2 = [5#8, 0xFF#8] := by decide +kernel
theorem test_flash_write_running_slot : port0.flashOpen 0 0x100000 256 = false ∧ (after (.flashWrite 0 7 (flashD 0x100000)) port0).mem.flash0 = [] ∧
    (after (.flashWrite 0 7 (flashD 0x100000)) port0).out = [reply 3 0 []] := by decide +kernel
def noticed : State := { port0 with notices := [{ seq := 3, kind := 1, cut := 0, record := [], sent := 50, since := 50 }] }
theorem test_notice_ack : freshOk noticed 0 0x11 (dgram 0x11 (leBytes 8 3)) = true ∧ (after (.noticeAck 0 7 (dgram 0x11 (leBytes 8 3))) noticed).notices = [] ∧
    (after (.noticeAck 0 7 (dgram 0x11 (leBytes 8 4))) noticed).notices.length = 1 := by decide +kernel
theorem test_notice_repeat : let t := after (.noticeRepeat 3) noticed
    t.out = [.notice 3 1 0 []] ∧ t.notices.map (·.sent) = [100000050] ∧ t.clk.now = 100000050 := by decide
theorem test_notice_given_up : let s := { noticed with notices := noticed.notices.map (fun n => { n with sent := 59900000050 }) }
    (after (.noticeRepeat 3) s).notices = [] ∧ (after (.noticeRepeat 3) s).fget Reg.TRF_TMP_STATUS Fld.TRF_TMP_STATUS_UNACKED = 1 := by decide

/-! ### The risk scorer -/

theorem test_risk_event : let s := force up [(Reg.TRF_RISK_WEIGHT, Fld.TRF_RISK_WEIGHT_CE, 5), (Reg.TRF_RISK_THRESH, Fld.TRF_RISK_THRESH_WATCH, 100)]
    (after (.riskEvent 143 0) s).riskScore 143 = 5 ∧ (after (.riskEvent 143 0) s).riskLevel 143 = 0 := by decide +kernel
theorem test_risk_watch : let s := force up [(Reg.TRF_RISK_WEIGHT, Fld.TRF_RISK_WEIGHT_RETRY, 5), (Reg.TRF_RISK_THRESH, Fld.TRF_RISK_THRESH_WATCH, 5),
      (Reg.TRF_RISK_THRESH, Fld.TRF_RISK_THRESH_WARN, 9), (Reg.TRF_RISK_THRESH, Fld.TRF_RISK_THRESH_RETIRE, 20)]
    (after (.riskEvent 0 1) s).riskLevel 0 = 1 ∧ (after (.riskEvent 0 1) (after (.riskEvent 0 1) s)).riskLevel 0 = 2 ∧
      (after (.riskEvent 0 1) (after (.riskEvent 0 1) s)).notices.map (·.kind) = [1] := by decide +kernel
theorem test_risk_boundary : let s := force up [(Reg.TRF_RISK_WEIGHT, Fld.TRF_RISK_WEIGHT_CE, 5), (Reg.TRF_RISK_THRESH, Fld.TRF_RISK_THRESH_WATCH, 5), (Reg.TRF_RISK_CFG, Fld.TRF_RISK_CFG_BUCKET_MIN, 1)]
    let u := after (.riskEvent 7 0) s
    u.canon = true ∧ u.primary.isSome = true ∧ tblWf noBuckets u.risk.buckets = true ∧ (tblGet noBuckets (u.riskRoll 7).risk.buckets 7).take 3 = [0, 5, 0] ∧
      (u.riskRoll 7).riskScore 7 = 5 := by decide +kernel

/-! ### The Event Recorder's flash, and module time -/

theorem test_flash_copy_idle : let s := { up with evr := { up.evr with next0 := up.evrHead } }
    s.evr.eraseAt = none ∧ s.evrNext 0 = s.evrHead ∧ (after (.evrFlashCopy 0) s).evrN 0 = 0 := by decide
def oneRecord : State := let s := puts up [(Reg.EVR_HEAD_SEQ, Fld.EVR_HEAD_SEQ_SEQ, 1)]; { s with mem := { s.mem with trf := [(trfBase 0 + 0x400000, 9#8)] } }
theorem test_flash_copy : let t := after (.evrFlashCopy 0) oneRecord
    oneRecord.canon = true ∧ oneRecord.evrNext 0 ≠ oneRecord.evrHead ∧ rdFlash (t.flash 0) 0x1100000 2 = [9#8, 0#8] ∧ t.evrN 0 = 1 ∧
      t.fget Reg.EVR_FLASH_STATUS Fld.EVR_FLASH_STATUS_COUNT = 1 := by decide
theorem test_flash_copy_full : let s := { oneRecord with evr := { oneRecord.evr with n0 := 65536 } }
    s.evrHeld < 16320 ∧ (after (.evrFlashCopy 0) s).evr.full = true ∧ (after (.evrFlashCopy 0) s).evrHead = 2 ∧
      (after (.evrFlashCopy 0) s).fget Reg.EVR_DROPPED Fld.EVR_DROPPED_FLASH = 1 := by decide
theorem test_flash_copy_still_full : let s := { oneRecord with evr := { oneRecord.evr with n0 := 65536, full := true, seen := 0 } }
    s.evr.seen ≠ s.evrHead ∧ (after (.evrFlashCopy 0) s).evr.seen = 1 ∧ (after (.evrFlashCopy 0) s).fget Reg.EVR_DROPPED Fld.EVR_DROPPED_FLASH = 1 := by decide
theorem test_clear_flash : (after (.clearFlash true) up).evr.eraseAt = some 0 ∧ cnt (after (.clearFlash false) up) 0x11 = 1 := by decide
theorem test_erase_done : let s0 := after (.clearFlash true) (after (.evrFlashCopy 0) oneRecord)
    s0.evr.eraseAt ≠ none ∧ (after .flashEraseDone s0).mem.flash0 = [] ∧ (after .flashEraseDone s0).evrN 0 = 0 := by decide
def fetchB (n : Nat) : List Byte := desc [(0, 2, 0x5040), (32, 4, n), (40, 8, at_ 0x54000)]
def fetching (n : Nat) : State := start chip 192 0x51 (fetchB n)
theorem test_evr_fetch_bad : (fetching 0).canon = true ∧ ((fetching 0).findStarted 192 0).map (fun d => (dOPCODE d.bytes, d.done)) = some (0x5040, none) ∧
    (after (.evrFetch 192 0) (fetching 0)).endOf 192 0 = some stBAD_OPERAND := by decide
theorem test_evr_fetch : let s := { fetching 1 with mem := { (fetching 1).mem with flash0 := tblPutList erasedByte [] (0x1100000 + 124) (leBytes 4 cairn) } }
    (fetching 1).inOwnHbm (at_ 0x54000) 128 = true ∧ (fetching 1).gloc (at_ 0x54000) = .own (.hbm 0x54000) ∧ s.sumpHolds 0x54000 128 = false ∧ s.behindHeld 0x54000 128 = false ∧
      s.behindRead (.service (originOfDesc 192 0 (fetchB 1))) s.order (burstsOf 0x54000 128) = false ∧
      (((after (.evrFetch 192 0) s).findStarted 192 0).bind (·.done)).map (fun o => (o.status, o.result)) = some (stSUCCESS, 1) ∧
      (after (.evrFetch 192 0) s).mem.read 0x5407B 2 = [0xFF#8, 0x2B#8] := by decide +kernel
theorem test_op_hours : (after .opHoursSave up).fget Reg.EVR_LIFE Fld.EVR_LIFE_OP_HOURS = 1 ∧ (after .opHoursSave up).clk.now = 14062500000 := by decide

theorem test_rate_write : (after (.rateWrite true (BitVec.ofNat 64 (2 ^ 32 - 600000))) up).clk.changes = [(2000, .rate (-500000))] ∧
    cnt (after (.rateWrite false 1#64) up) 0x11 = 1 := by decide
theorem test_adj_write : (after (.adjWrite true (BitVec.ofNat 64 (2 ^ 64 - 5))) up).clk.changes = [(2000, .slew (-5))] ∧
    (after (.adjWrite true 5#64) (puts up [(Reg.MOD_RESET_STATUS, Fld.MOD_RESET_STATUS_PHASE, 0)])).clk.changes = [(2000, .offset 5)] ∧
    cnt (after (.adjWrite false 1#64) up) 0x11 = 1 := by decide
def changing (x : TimeChange) : State := { up with clk := { up.clk with changes := [(2000, x)] } }
theorem test_time_param : (after .timeParamApply (changing (.offset 7))).time = 2007 ∧ (after .timeParamApply (changing (.rate 5))).clk.rate = 5 ∧
    (after .timeParamApply (changing (.rate 5))).time = 2000 ∧ (after .timeParamApply (changing (.slew 3))).clk.slewD = 3 := by decide
theorem test_slew_end : let s := after .timeParamApply (changing (.slew 3))
    s.clk.slewing = true ∧ (after .slewEnd s).clk.offset = 3 ∧ (after .slewEnd s).clk.now = 8000 ∧ (after .slewEnd s).time = 8003 ∧
      (after .slewEnd up).clk.slewing = false := by decide
/-- PTP runs; the unit is in a state, with n good exchanges of grandmaster 5. -/
def ptp (st n : Nat) : State :=
  let s := puts (force up [(Reg.TIME_CFG, Fld.TIME_CFG_PTP_EN, 1), (Reg.TIME_CFG, Fld.TIME_CFG_LOCK_NS, 100)]) [(Reg.TIME_STATUS, Fld.TIME_STATUS_STATE, st)]
  { s with clk := { s.clk with gm := 5, good := n, annIvl := 1000 } }
theorem test_announce_wins : (ptp tFREE 0).canon = true ∧ (ptp tFREE 0).ptpOn = true ∧ (ptp tFREE 0).rbit Reg.TIME_STATUS 5 = false ∧
    (after (.ptpMessage (.announce 6 10 true)) (ptp tFREE 0)).timeState = tLOCKING ∧ (after (.ptpMessage (.announce 6 10 true)) (ptp tFREE 0)).clk.gm = 6 := by decide
theorem test_announce_again : (after (.ptpMessage (.announce 5 9 true)) (ptp tLOCKED 0)).clk.annIvl = 9 ∧
    (after (.ptpMessage (.announce 5 9 true)) (ptp tLOCKED 0)).timeState = tLOCKED := by decide
theorem test_announce_better : (after (.ptpMessage (.announce 6 9 true)) (ptp tLOCKED 0)).timeState = tHOLDOVER := by decide
theorem test_exchange_locked : (after (.ptpMessage (.exchange (-1))) (ptp tLOCKED 0)).fget Reg.TIME_STATUS Fld.TIME_STATUS_LAST_OFFSET = 2 ^ 32 - 1 := by decide
theorem test_exchange_locking : (after (.ptpMessage (.exchange 100)) (ptp tLOCKING 14)).clk.good = 15 ∧
    (after (.ptpMessage (.exchange (-101))) (ptp tLOCKING 14)).clk.good = 0 := by decide
theorem test_exchange_locks : (after (.ptpMessage (.exchange 100)) (ptp tLOCKING 15)).timeState = tLOCKED ∧
    (after (.ptpMessage (.exchange 100)) (ptp tLOCKING 15)).reg Reg.TIME_GM_ID = 5#64 := by decide
theorem test_announce_timeout : (after .announceTimeout (ptp tLOCKED 0)).timeState = tHOLDOVER ∧ (after .announceTimeout (ptp tLOCKED 0)).clk.now = 3000 := by decide
def edge (now : Nat) : State := let s := force (ptp tLOCKED 0) [(Reg.TIME_CFG, Fld.TIME_CFG_SYNC_EN, 1), (Reg.TIME_CFG, Fld.TIME_CFG_SYNC_TOL_NS, 50)]; { s with clk := { s.clk with now := now } }
theorem test_sync_edge : (edge 999999950).timeState = tLOCKED ∧ (after .syncInEdge (edge 999999950)).rbit Reg.TIME_STATUS 6 = false ∧
    (after .syncInEdge (edge 51)).rbit Reg.TIME_STATUS 6 = true ∧ (after .syncInEdge (edge 51)).reg Reg.TIME_SYNC_STAMP = 51#64 := by decide
theorem test_sync_edge_unjudged : (after .syncInEdge up).rbit Reg.TIME_STATUS 6 = false := by decide
theorem test_refclk : let s := after .refclkLost (ptp tLOCKED 0)
    s.timeState = tHOLDOVER ∧ s.rbit Reg.TIME_STATUS 5 = true ∧ (after .refclkReturn s).clk.refBack = some 0 ∧ (after .refclkReturn up).clk.refBack = none ∧
      (after (.refclkSwitchback false) (after .refclkReturn s)).clk.now = 1000000000 ∧
      (after (.refclkSwitchback true) (after .refclkReturn s)).rbit Reg.TIME_STATUS 5 = false := by decide

/-! ### Counters, Whistles, trace and the TAPs -/

/-- EVENT 0x0010 is an event of every die. -/
def evt : Word := Fld.OBS_EVT_SEL_EVENT.put 0#64 (((eventCodes 0).headD 0))
theorem test_evt_sel : let s := { up with obs := { up.obs with counters := [(3, 9)] } }
    mgmtOf .mgmtPort = true ∧ evtOk 0 evt = true ∧ (after (.evtSelWrite .mgmtPort 0 3 evt) s).obs.counters = [] ∧
      (after (.evtSelWrite .mgmtPort 0 3 evt) s).reg (Reg.OBS_EVT_SEL 0 3) = evt := by decide
theorem test_evt_sel_rejected : mgmtOf .host = false ∧ cnt (after (.evtSelWrite .host 0 3 evt) up) 0x11 = 1 ∧ evtOk 0 (Fld.OBS_EVT_SEL_EVENT.put 0#64 0xFF) = false := by decide +kernel
theorem test_filter : (after (.filterWrite .mgmtPort 79 47 5#64) up).reg (Reg.OBS_FILTER 79 47) = 5#64 ∧ cnt (after (.filterWrite .host 0 0 5#64) up) 0x11 = 1 := by decide

/-- A Whistle word of an action, at a time. -/
def whistle (a t : Nat) : Word := Fld.OBS_WHISTLE_ACTION.put (Fld.OBS_WHISTLE_AT.put 0#64 t) a
def four : State := { up with obs := { up.obs with whistles := List.replicate 4 (9, 1) } }
theorem test_whistle : badAction 1 = false ∧ (after (.whistleWrite .mgmtPort (whistle 1 77)) up).obs.whistles = [(77, 1)] ∧
    (after (.whistleWrite .mgmtPort (Fld.OBS_WHISTLE_IMMEDIATE.put (whistle 1 77) 1)) up).obs.whistles = [(2000, 1)] := by decide
theorem test_whistle_rejected : badAction 12 = true ∧ cnt (after (.whistleWrite .mgmtPort (whistle 12 77)) up) 0x11 = 1 ∧
    cnt (after (.whistleWrite .host (whistle 1 77)) up) 0x11 = 1 := by decide
theorem test_whistle_refused : (after (.whistleWrite .mgmtPort (whistle 1 77)) four).fget Reg.OBS_WHISTLE_STATUS Fld.OBS_WHISTLE_STATUS_REFUSED = 1 := by decide
def sendW : Word := Fld.OBS_WHISTLE_SEND_DST.put (Fld.OBS_WHISTLE_SEND_ACTION.put (Fld.OBS_WHISTLE_SEND_AT.put 0#64 77) 1) 0x0625
theorem test_whistle_send : chip.chip = some (Fld.OBS_WHISTLE_SEND_DST.get sendW) ∧
    (after (.whistleSend .mgmtPort sendW) chip).fab.delivered.map (fun k => (k.kind, leAt k.body 0 4, leAt k.body 4 1)) = [(0x38, 77, 1)] ∧
    cnt (after (.whistleSend .host sendW) chip) 0x11 = 1 := by decide
def whistleK (a : Nat) : Packet := { dst := 0x0625, src := 9, kind := 0x38, vc := 0, body := leBytes 4 77 ++ leBytes 1 a ++ leBytes 1 0 ++ leBytes 2 3 ++ leBytes 8 0 }
def hears (en : Nat) (ids : List (Nat × Nat)) : State :=
  let s := force chip [(Reg.OBS_WHISTLE_CFG, Fld.OBS_WHISTLE_CFG_REMOTE_EN, en)]
  { s with obs := { s.obs with heard := ids }, fab := { s.fab with delivered := [whistleK 1] } }
theorem test_whistle_packet_off : ((hears 0 []).take (whistleK 1)).isSome = true ∧
    (after (.whistlePacket (whistleK 1)) (hears 0 [])).fget Reg.OBS_WHISTLE_STATUS Fld.OBS_WHISTLE_STATUS_REMOTE_DROPPED = 1 := by decide
theorem test_whistle_packet : (after (.whistlePacket (whistleK 1)) (hears 1 [])).obs.whistles = [(77, 1)] ∧
    (after (.whistlePacket (whistleK 1)) (hears 1 [])).obs.heard.contains (9, 3) = true := by decide
theorem test_whistle_packet_twice : (hears 1 [(9, 3)]).fget Reg.OBS_WHISTLE_CFG Fld.OBS_WHISTLE_CFG_REMOTE_EN ≠ 0 ∧
    (after (.whistlePacket (whistleK 1)) (hears 1 [(9, 3)])).obs.whistles = [] := by decide
theorem test_trig_pin : Fld.OBS_TRACE_CFG_TRIG_PIN.get up.obs.trCfg = 0 ∧ (after .dbgTrigInEdge up).obs.whistles = [] ∧
    (let s := puts up [(Reg.OBS_WHISTLE_CFG, Fld.OBS_WHISTLE_CFG_PIN_EN, 1), (Reg.OBS_WHISTLE_CFG, Fld.OBS_WHISTLE_CFG_PIN_ACTION, 2)]
     (after .dbgTrigInEdge s).obs.whistles = [(2000, 2)]) := by decide
/-- What the two statements about WHISTLE_FIRE ask: the Whistle reached, the actions, and one die that is dark. -/
theorem test_whistle_fire_hypotheses : let s := { up with dark := [5], obs := { up.obs with whistles := [(77, 1), (99, 2)], counters := [(0, 6)] } }
    s.canon = true ∧ s.firstWhistle = some 77 ∧ (s.obs.whistles.filter (fun w => (s.reachNs 77).reached w.1)).map (·.2) = [1] ∧
      s.blockUp 5 = false ∧ s.blockUp 0 = true ∧ timeEvents.contains (Fld.OBS_EVT_SEL_EVENT.get (s.reg (Reg.OBS_EVT_SEL 0 0))) = false := by decide
theorem test_whistle_fire_hold : let s := { up with obs := { up.obs with whistles := [(77, 6)], counters := [(0, 6)] } }
    (after .whistleFire s).clk.now = 77 ∧ (after .whistleFire s).obs.counters = [] ∧ (after .whistleFire s).obs.whistles = [] ∧
      (after .whistleFire s).fget Reg.OBS_WHISTLE_STATUS Fld.OBS_WHISTLE_STATUS_HELD = 1 := by decide
def dumping (b : Nat) : State := start chip 192 0x51 (desc [(0, 2, 0x5050), (40, 8, at_ 0x60000), (48, 1, b)])
theorem test_counter_dump_bad : ((dumping 1).unbegun 192 0 0x5050).map (fun d => dumpBad d.bytes) = some true ∧
    (after (.counterDump 192 0) (dumping 1)).endOf 192 0 = some stBAD_OPERAND := by decide
theorem test_counter_dump : ((dumping 0).unbegun 192 0 0x5050).map (fun d => dumpBad d.bytes) = some false := by decide

theorem test_trace_cfg : (after (.traceCfgWrite false (Fld.OBS_TRACE_CFG_POST.put 0#64 7)) up).fget Reg.OBS_TRACE_CFG Fld.OBS_TRACE_CFG_POST = 7 ∧
    (after (.traceCfgWrite true (Fld.OBS_TRACE_BASE_BASE.put 0#64 7)) up).fget Reg.OBS_TRACE_BASE Fld.OBS_TRACE_BASE_BASE = 7 ∧
    (after (.traceCfgWrite true 0#64) up).obs.trDirty = true := by decide
theorem test_trace_post_stop_hypotheses : let s := { up with obs := { up.obs with trPost := [(7, 1)] } }
    tblWf zeroAt s.obs.trPost = true ∧ Fld.OBS_TRACE_CFG_SINK.get s.obs.trCfg = 0 ∧ tblGet zeroAt s.obs.trPost 7 = 1 ∧ tblGet zeroAt s.obs.trPost 8 = 0 ∧
      s.fget (Reg.OBS_TRACE_PTR 7) Fld.OBS_TRACE_PTR_STOPPED = 0 := by decide
theorem test_jtag_idcode : (after (.jtagIdcode 1) up).out = [.tdo 1 0x1C161B47] ∧ (after (.jtagBypass 0) up).obs.ir0 = 0xFF := by decide
theorem test_jtag_extest : (after (.jtagExtest 0 5 9) up).obs.pads = 9 ∧ (after (.jtagExtest 0 5 9) up).out = [.tdo 0 5] ∧
    (after (.jtagSamplePreload 0 5 9) up).obs.bsr = 9 ∧ (after .trstAssert (after (.jtagExtest 0 5 9) up)).obs.extest = false := by decide
theorem test_jtag_locked : up.unlocked = false ∧ (after (.jtagMemacc 0 true 0 0#64 []) up).out = [.tdo 0 0] ∧ (after (.jtagKtrace 1) up).out = [.tdo 1 0] := by decide
def unlocked : State := puts chip [(Reg.OBS_JTAG_CFG, Fld.OBS_JTAG_CFG_UNLOCK, 1)]
theorem test_jtag_ijtag : let s := { unlocked with scan := some { ring := 192, seq := 0, block := 5, trf := 0, mask := false, waits := none } }
    s.scan.map (fun c => s.trfOf c.trf) = some 0 ∧ (after (.jtagIjtag 0 4 false) s).out = [.tdo 0 15] := by decide
theorem test_jtag_ktrace : Fld.OBS_TRACE_CFG_KCORE.get unlocked.obs.trCfg = 0 ∧ (after (.jtagKtrace 0) unlocked).out = [.tdo 0 0] := by decide
theorem test_jtag_keyprog : let t := after (.jtagKeyprog 1 (List.replicate 32 6#8)) unlocked
    unlocked.unlocked = true ∧ t.obs.macKey1 = some (List.replicate 32 6#8) ∧
      (after (.jtagKeyprog 1 (List.replicate 32 7#8)) t).obs.macKey1 = some (List.replicate 32 6#8) := by decide +kernel
theorem test_jtag_memacc : let t := after (.jtagMemacc 0 true (at_ 0x7000) 77#64 []) unlocked
    unlocked.gloc (at_ 0x7000) = .own (.hbm 0x7000) ∧ unlocked.sumpHolds 0x7000 8 = false ∧ unlocked.pendingIn (at_ 0x7000) 8 = false ∧
      t.mem.read 0x7000 8 = leBytes 8 77 ∧ (after (.jtagMemacc 0 false (at_ 0x7000) 0#64 []) { t with out := [] }).out = [.tdo 0 (77 + at_ 0x7000 * 2 ^ 64 + 2 ^ 128)] := by decide +kernel
theorem test_jtag_memacc_unmapped : unlocked.isUnmapped 0 (ownAt 0x050000000000) = true ∧ cnt (after (.jtagMemacc 0 true (ownAt 0x050000000000) 0#64 []) unlocked) 0x14 = 1 := by decide +kernel

/-! ### Feeds, clock, power states and temperature -/

/-- The feeds in states a and b. -/
def feeds (a b : Nat) (s : State := up) : State := puts s [(Reg.PWR_FEED_STATUS, Fld.PWR_FEED_STATUS_STATE_A, a), (Reg.PWR_FEED_STATUS, Fld.PWR_FEED_STATUS_STATE_B, b)]
theorem test_feed_in_range : voltIn 9000 = true ∧ (after (.feedInRange 1 9000) (feeds fACTIVE fABSENT)).feedState 1 = fQUALIFYING ∧
    (after (.feedInRange 1 9000) (feeds fACTIVE fABSENT)).fget Reg.PWR_FEED_MEAS (feedVoltFld 1) = 9000 := by decide
theorem test_feed_out_of_range : voltIn 9001 = false ∧ (after (.feedOutOfRange 1 1000) ((feeds fACTIVE fSTANDBY).setFeed 1 { up.feed 1 with charged := true })).feedState 1 = fABSENT ∧
    ((after (.feedOutOfRange 1 1000) ((feeds fACTIVE fSTANDBY).setFeed 1 { up.feed 1 with charged := true })).feed 1).charged = false := by decide
def charging : State := after (.feedPrechargeStart 1 8000) (up.setFeed 1 { up.feed 1 with inRange := true })
theorem test_feed_precharge : (charging.feed 1).charging = true ∧ ((after (.feedPrechargeDone 1) charging).feed 1).since = some 0 ∧
    (up.feed 0).charging = false := by decide
def qualifying (f : Nat) (s : State) : State := s.setFeed f { s.feed f with since := some 7 }
theorem test_feed_qualified : let s := qualifying 1 (feeds fACTIVE fQUALIFYING)
    (after (.feedQualified 1 true) s).feedState 1 = fSTANDBY ∧ (after (.feedQualified 1 true) s).clk.now = 10000000007 ∧
      (after (.feedQualified 1 false) s).feedState 1 = fQUALIFYING ∧ (after (.feedQualified 1 false) s).fget Reg.PWR_FEED_CHECK Fld.PWR_FEED_CHECK_QUAL_FAILS = 1 := by decide
/-- A module without power, whose feeds are in states a and b. -/
def off (a b : Nat) : State := feeds a b { State.reset with pwr := { State.reset.pwr with feedA := {}, feedB := {} } }
theorem test_feed_qualified_active : let s := qualifying 0 (off fQUALIFYING fABSENT)
    s.canon = true ∧ s.awaitsFeed = true ∧ (after (.feedQualified 0 true) s).feedState 0 = fACTIVE := by decide
theorem test_feedb_powerup : let s := off fABSENT fSTANDBY
    s.awaitsFeed = true ∧ (after .feedbPowerupTimer s).feedState 1 = fACTIVE ∧ (after .feedbPowerupTimer s).clk.now = 30000000000 := by decide
theorem test_feed_trip_switches : let t := after (.feedTrip 0 100 true) up
    up.feedState 0 = fACTIVE ∧ up.feedState 1 = fSTANDBY ∧ t.feedState 1 = fACTIVE ∧ t.fget Reg.PWR_FEED_STATUS Fld.PWR_FEED_STATUS_ACTIVE = 1 ∧ cnt t 0x0B = 1 := by decide
theorem test_feed_trip_off : let t := after (.feedTrip 0 100 false) up
    t.pwr.good = false ∧ t.feedState 1 = fFAILED ∧ t.dark.contains 0x4F = true ∧ (after (.feedTrip 1 100 true) up).feedState 1 = fSTANDBY := by decide +kernel
theorem test_feed_current : let t := after (.feedCurrentLimit 1001) up
    up.pwr.thermCap ≤ 1000 ∧ up.pwr.overCur = false ∧ t.pwr.overCur = true ∧ t.capMhz = up.capMhz - 50 ∧ (after (.feedCurrentLimit 949) t).capMhz = up.capMhz := by decide

def mhz (n : Nat) : Word := Fld.PWR_DVFS_TARGET_MHZ.put 0#64 n
theorem test_target_mhz : (after (.targetMhzWrite (mhz 600)) up).fget Reg.PWR_DVFS Fld.PWR_DVFS_EFF_MHZ = 600 ∧
    cnt (after (.targetMhzWrite (mhz 625)) up) 0x11 = 1 ∧ cnt (after (.targetMhzWrite (mhz 1050)) up) 0x11 = 1 := by decide
def gliding : State := let s := after (.targetMhzWrite (mhz 600)) up; { s with pwr := { s.pwr with mhz := 630 } }
theorem test_glide : (after .dvfsGlideStep gliding).pwr.mhz = 600 ∧ (after .dvfsGlideStep { gliding with pwr := { gliding.pwr with mhz := 500 } }).pwr.mhz = 550 ∧
    (after .dvfsGlideStep (after .dvfsGlideStep gliding)).pwr.mhz = 600 := by decide
theorem test_array_idle : up.service = true ∧ up.pwr.doze = false ∧ up.arr.prefetch = none ∧ (after .arrayIdle up).fget Reg.PWR_STATE Fld.PWR_STATE_STATE = 3 ∧
    (after .arrayIdle up).clk.now = 1000 := by decide
def powerB (act : Nat) : List Byte := desc [(0, 2, 0x5060), (24, 1, act)]
theorem test_power_bad : ((start up 192 0x51 (powerB 2)).unbegun 192 0 0x5060).isSome = true ∧
    (after (.power 192 0 []) (start up 192 0x51 (powerB 2))).endOf 192 0 = some stBAD_OPERAND := by decide
theorem test_power_refused : let s := start (up.setFn 0 fnRUN) 192 0x51 (powerB 1)
    s.dozeRefused = true ∧ (after (.power 192 0 []) s).endOf 192 0 = some stREFUSED := by decide
theorem test_power_doze_hypotheses : (start up 192 0x51 (powerB 1)).dozeRefused = false ∧ zeroBytes (powerB 1) 25 63 = true ∧ dPARAM (powerB 1) = false ∧
    (List.range 8).all (fun r => (up.updRun r).isNone) = true := by decide
theorem test_power_awake : (after (.power 192 0 []) (start up 192 0x51 (powerB 0))).endOf 192 0 = some stSUCCESS := by decide
theorem test_power_exit_hypotheses : (start { up with pwr := { up.pwr with doze := true } } 192 0x51 (powerB 0)).pwr.doze = true ∧
    (start { up with pwr := { up.pwr with doze := true } } 192 0x51 (powerB 0)).canon = true := by decide

def warm1 : State := { up with pwr := { up.pwr with hot := true } }
theorem test_thermal_warn : up.warnC ≤ 105 ∧ up.pwr.hot = false ∧ (after (.thermalWarn 3 105) up).pwr.hot = true ∧ cnt (after (.thermalWarn 3 105) up) 0x0C = 1 ∧
    (after (.thermalWarn 3 105) up).capMhz = 950 ∧ (after (.thermalWarn 4 105) warm1).fget Reg.PWR_THERM_STATUS Fld.PWR_THERM_STATUS_HOT_DIE = 4 := by decide
theorem test_cap_step : (after (.capStep 3 105) up).capMhz = 950 ∧ (after (.capStep 3 105) warm1).capMhz = 950 ∧ (after (.capStep 3 105) warm1).clk.now = 10000000 ∧
    0 + 5 < up.warnC ∧ (after (.capStep 3 0) (after (.capStep 3 105) up)).capMhz = 1000 ∧ (after (.capStep 3 0) (after (.capStep 3 105) up)).clk.now = 100000000 := by decide
theorem test_thermal_trip : let t := after (.thermalTrip 3 110 [2]) up
    t.pwr.good = false ∧ t.pwr.tripAt = some 0 ∧ t.rbit Reg.PWR_THERM_STATUS 2 = true ∧ t.dark.contains 0 = true ∧ cnt t 0x0C = 1 := by decide +kernel
theorem test_thermtrip_release : let s0 := { up with pwr := { up.pwr with tripAt := some 5 } }
    let s := puts s0 [(Reg.PWR_THERM_STATUS, Fld.PWR_THERM_STATUS_COOLANT_C, 40)]
    (after .thermtripRelease s).out = [.pin 2 false] ∧ (after .thermtripRelease s).clk.now = 60000000005 ∧
      (after .thermtripRelease (puts s [(Reg.PWR_THERM_STATUS, Fld.PWR_THERM_STATUS_COOLANT_C, 41)])).pwr.tripAt = some 5 := by decide +kernel
theorem test_coolant : cnt (after (.coolantInletReading 41) up) 0x0C = 1 ∧ cnt (after (.coolantInletReading 42) (after (.coolantInletReading 41) up)) 0x0C = 1 ∧
    (after (.coolantInletReading 40) (after (.coolantInletReading 41) up)).pwr.inletHot = false ∧ cnt (after (.coolantInletReading 0xFF) up) 0x0C = 0 := by decide

/-! ### Enumeration and start-up -/

/-- A token frame; its CRC-8 covers bytes 1 to 3. -/
def token (slot ov : Nat) : List Byte := leBytes 1 0xD5 ++ leBytes 1 1 ++ leBytes 1 slot ++ leBytes 1 ov ++ leBytes 1 (crc8 (leBytes 1 1 ++ leBytes 1 slot ++ leBytes 1 ov))
theorem test_token_bad : up.enumerates = true ∧ tokenOk (token 3 0) false = false ∧
    (after (.enumTokenReceive (token 3 0) false) up).fget Reg.MOD_ENUM_STATUS Fld.MOD_ENUM_STATUS_BAD_FRAMES = 1 := by decide
theorem test_token_gives_slot : let t := after (.enumTokenReceive (token 15 0) true) up
    tokenOk (token 15 0) true = true ∧ up.slot = none ∧ t.slot = some 15 ∧ t.out = [.enumToken 0xFF] := by decide
def slot3 : State := puts up [(Reg.MOD_ENUM_STATUS, Fld.MOD_ENUM_STATUS_SLOT, 3), (Reg.MOD_ENUM_STATUS, Fld.MOD_ENUM_STATUS_SLOT_VALID, 1)]
theorem test_token_held_slot : slot3.slot = some 3 ∧ (after (.enumTokenReceive (token 3 0) true) slot3).fget Reg.MOD_ENUM_STATUS Fld.MOD_ENUM_STATUS_CHANGES = 0 ∧
    (after (.enumTokenReceive (token 4 0) true) slot3).fget Reg.MOD_ENUM_STATUS Fld.MOD_ENUM_STATUS_LAST_RX = 4 ∧ (after (.enumTokenReceive (token 4 0) true) slot3).slot = some 3 := by decide
theorem test_token_over : (after (.enumTokenReceive (token 16 0) true) up).out = [.enumToken 0xFF] ∧ (after (.enumTokenReceive (token 16 0) true) up).slot = none ∧
    bitOf (leAt (token 3 1) 3 1) 0 = true ∧ (after (.enumTokenReceive (token 3 1) true) up).fget Reg.MOD_ENUM_STATUS Fld.MOD_ENUM_STATUS_OVER = 1 := by decide
theorem test_token_send : (after .enumTokenSend slot3).out = [.enumToken 4] ∧ (after .enumTokenSend slot3).clk.now = 10000000 ∧ (after .enumTokenSend up).out = [] := by decide
/-- Start-up stands in a step. -/
def stepping (n : Nat) : State := puts up [(Reg.PWR_START_STATUS, Fld.PWR_START_STATUS_READY, 0), (Reg.PWR_START_STATUS, Fld.PWR_START_STATUS_STEP, n), (Reg.PWR_START_CFG, Fld.PWR_START_CFG_ENUM_WAIT_S, 2)]
theorem test_enum_wait : (stepping 3).pwr.enumOk = false ∧ (after .enumWaitExpire (stepping 3)).fget Reg.MOD_ENUM_STATUS Fld.MOD_ENUM_STATUS_STUCK = 1 ∧
    (after .enumWaitExpire (stepping 3)).clk.now = 2000000000 := by decide
def assignW (group rack ovr : Nat) : Word :=
  [(Fld.MOD_CHIP_ASSIGN_GROUP, group), (Fld.MOD_CHIP_ASSIGN_RACK, rack), (Fld.MOD_CHIP_ASSIGN_VALID, 1), (Fld.MOD_CHIP_ASSIGN_SLOT_OVR_EN, 1), (Fld.MOD_CHIP_ASSIGN_SLOT_OVR, ovr)].foldl
    (fun w e => e.1.put w e.2) 0#64
/-- The example of R714: group 3, rack 2, slot 5 is chip number 0x0625. -/
theorem test_chip_assign : (stepping 3).assignOpen = true ∧ (after (.chipAssignWrite true (assignW 3 2 5)) (stepping 3)).chip = some 0x0625 := by decide +kernel
theorem test_chip_assign_rejected : cnt (after (.chipAssignWrite true (assignW 64 2 5)) (stepping 3)) 0x11 = 1 ∧ (stepping 3).canon = true ∧
    (up.setFn 0x30 fnRUN).assignOpen = false := by decide +kernel
theorem test_power_up_hypotheses : let s := off fACTIVE fABSENT
    s.fed = true ∧ s.pwr.good = false ∧ s.pwr.tripped = false := by decide
theorem test_power_up_tripped : let s0 := off fACTIVE fABSENT
    let s := { s0 with pwr := { s0.pwr with tripped := true } }
    s.fed = true ∧ (after .powerUp s).pwr.good = false := by decide
theorem test_assign_wait : (stepping 3).chip = none ∧ (after .assignWaitExpire (stepping 3)).rbit Reg.PWR_START_STATUS 6 = true ∧ 4 ≤ (after .assignWaitExpire (stepping 3)).stepNo := by decide +kernel
theorem test_lock_wait : (after .lockWaitExpire (stepping 4)).stepNo = 5 ∧ (after .lockWaitExpire (stepping 4)).rbit Reg.PWR_START_STATUS 5 = true := by decide +kernel
theorem test_start_cfg : (after (.startCfgWrite true (Fld.PWR_START_CFG_LOCK_WAIT_S.put 0#64 9)) up).fget Reg.PWR_START_CFG Fld.PWR_START_CFG_LOCK_WAIT_S = 9 ∧
    cnt (after (.startCfgWrite false 0#64) up) 0x11 = 1 := by decide
theorem test_startup_ready_hypotheses : let s := puts (stepping 5) [(Reg.PWR_START_CFG, Fld.PWR_START_CFG_SCAN, 1)]
    s.canon = true ∧ s.stepNo = 5 ∧ s.primary.isSome = true ∧ s.pwr.good = true ∧ s.pcie.perst = false ∧ s.badSetting 0x50 = none := by decide +kernel
theorem test_pcie_config_retry : (stepping 3).pcieOut = true ∧ (after (.pcieConfigRequest (.read 0)) (stepping 3)).out = [.cfgReply true 0] := by decide
theorem test_pcie_config : let s := { up with pcie := { up.pcie with pend := [3] } }
    s.pcieOut = true ∧ s.pcie.linkUp = true ∧ (after (.pcieConfigRequest (.msix true false)) s).out = [.msix 3, .cfgReply false 0] ∧
      (after (.pcieConfigRequest (.msix true true)) s).pcie.pend = [3] ∧ (after (.pcieConfigRequest (.write 4 1)) up).out = [.cfgReply false 0] := by decide
theorem test_pcie_link_up : (after .pcieLinkUp { up with pcie := { up.pcie with linkUp := false, bars := false } }).pcie.bars = true ∧
    (after .pcieLinkUp { stepping 3 with pcie := { up.pcie with linkUp := false, bars := false } }).pcie.bars = false := by decide
/-- R538. Eight pieces, of which one data piece and Q are gone. -/
theorem test_two_gone : (List.replicate 8 zeroPiece).length = 8 ∧ (∀ d, d ∈ List.replicate 8 zeroPiece → d.length = pieceLen) ∧
    ((List.range 10).filter [3, 9].contains).length = 2 :=
  ⟨rfl, fun d hd => by rw [List.eq_of_mem_replicate hd]; exact List.length_replicate, rfl⟩

/-! ### Well-formed commands -/

/-- A packet whose fields fit, one of whose channel there is none, and a module of which nothing is read. -/
def okK : Packet := { dst := 9, src := 0x0625, kind := 2 }
def badK : Packet := { okK with vc := 7 }
def noMod : ModView := { steps := 0#64, status := 0#64, manifests := [], holders := [], views := [] }
/-- A command of every constructor whose operands fit, and for every check of `Instr.wf` a command that fails it alone. -/
def fits0 : List Instr := [
  .memoryRead .host .bar0 0 0 [], .memoryWrite .host .bar0 0 [], .registerWrite .host 0 0#64, .registerHolderTimeout .host 0 false,
  .bridgeRetryExhausted 0, .doorbell 0 0#64, .descriptorFetch 0 [] [] [], .descriptorStart 0 [] [],
  .deadlineExpire 0 0, .deadlineMiss 0 0, .descriptorComplete 0 0, .msixUnmask none,
  .cqHeadWrite 0 0, .cmdStop 0, .cmdChange 0, .cmdRestart 0,
  .cmdAbort 0, .drainComplete 0, .drainLimitExpire 0, .staleReplyDrop 0 0,
  .evrPop .host 0, .sweep 0 0 0 [], .interact 0 0 0 [], .veOp 0 0 [],
  .chunkApply 0 none 0 [], .tileFold 0 0 [] false 0 [], .prefetchStart, .fenceClearWrite none 0#64,
  .scrubRead 0 .clean, .cutTokenArrival 0, .cutTokenRelease 0, .gather 0 0 [] [] [] [],
  .rowRequest 0 okK [], .rowReply 0 0 0 none [], .gatherOpen okK, .updateDense 0 0 0 none [],
  .updateRows 0 0 0 none [], .setcoef 0 0 [], .veTakeover 0, .tagSeal 0 0 []]
def fits1 : List Instr := [
  .tagVerify 0 0 [], .flitSend 0 none, .dataFlitReceive 0 {} false, .idleFlitReceive 0 {} false,
  .nakReceive 0 0, .ackReceive 0 0, .ackTimer 0, .portRetrain 0,
  .portTrainingComplete 0 0 false, .portTrainingTimeout 0, .portLinkLoss 0, .portDownRetry 0,
  .helloTimer, .helloReceive 0 {} false, .discoveryTimeout 0, .packetReceive 0 none okK [],
  .errorReplyReceive okK, .keepWarmRequest 0 none false, .keepWarmExitRequest 0 none false, .keepWarmExitComplete 0,
  .jobStart 0 0 [], .jobEnd 0 0, .arm okK [], .armAckReceive okK,
  .armWaitExpire 0, .rootArmTimeout, .adopt okK [], .missingTimeout,
  .commit okK, .commitAckReceive okK, .startTimeReached, .disarm okK,
  .armHoldExpire, .reduce 0 0 [], .digestClose 0 0 [], .exp okK,
  .busy okK, .expRetryTimer 0 0, .grantSend 0 0 0 0, .grant okK []]
def fits2 : List Instr := [
  .contrib okK, .result okK, .abort okK, .homeDeadlineExpire 0 0 0 0,
  .confirm okK, .retract okK, .resultConfirm okK, .resultRetract okK,
  .journalSteepExpire 0 0 0 0 0, .resultSteepExpire 0 0, .tagCopyReadback 0 0 0 0 0 false, .strainerVerdict 0 0 false,
  .replayJudge 0 false [] [], .lockstepMismatch 0, .ticketSettle, .fenceMessage 0 0,
  .steepFenceTimer 0, .unconfirmedWriteReceive 0 okK, .writeConfirm 0 okK, .writeRetract 0 okK,
  .steepWindowExpire 0 0, .earlyTokenExpire, .auditCompare 0 0 [] [], .auditThirdJudge 0 0 [] [],
  .scanBlock 0 0, .scanProceed, .scanFinish 0 0 0 none, .congestionEpisode 0 0 0 0,
  .congestionEpisodeEnd 0 0 0 0, .ceRate 0, .regionTimerExpire 0 0 0 0 false false, .fabricTimerExpire 0 false,
  .moduleTimerExpire 0 0, .reclaim 0 0, .regionSwitchQuiescent 0, .faultReport 0 0 0 0 0 0 0 0 0 0,
  .waitforSample, .egressStall 0 0 0, .probeResendTimer 0 0 0, .hangProbe 0 okK]
def fits3 : List Instr := [
  .lanternBeat 0, .lanternMissTimer 0 false, .reset 0 0, .resetCmdCompute false false,
  .resetCmdModule false false, .resetCmdCold false false, .modResetAssert, .perstAssert,
  .perstDeassert, .blockBeatTimeout 0, .computeResetTimeout, .moduleRecoveryTimeout,
  .resetEnd, .summaryFlashCopy 0, .modResetDeassert, .cut 0 0,
  .sumpCopy 0 [], .heldWriteRelease [], .manifestSeal [] [], .foldEnd [] [],
  .flowstoneDrainEnd [] [], .restoreSelect 0 0 [] [] [], .restore 0 0 [] [], .caddyRecord 0 0 [],
  .caddyCopy okK, .caddyAck okK, .buddyWaitExpire, .spreadApply 0 0 [],
  .rebuild 0 0 [] [] [], .bootRom 0, .kcoreLockstep 0, .takeover,
  .journalEntry false 0, .syncComplete, .swap false false, .swapHandover,
  .fuseSvnAdvance false 0 0, .tmpRead 0 0 [] [], .tmpWrite 0 0 [], .tmpStatus 0 0 []]
def fits4 : List Instr := [
  .flashWrite 0 0 [], .noticeAck 0 0 [], .noticeRepeat 0, .riskEvent 0 0,
  .riskBucketBoundary, .evrFlashCopy 0, .clearFlash false, .flashEraseDone,
  .evrFetch 0 0, .opHoursSave, .timeParamApply, .rateWrite false 0#64,
  .adjWrite false 0#64, .slewEnd, .ptpMessage .other, .announceTimeout,
  .syncInEdge, .refclkLost, .refclkReturn, .refclkSwitchback false,
  .evtSelWrite .host 0 0 0#64, .filterWrite .host 0 0 0#64, .whistleWrite .host 0#64, .whistleSend .host 0#64,
  .whistlePacket okK, .dbgTrigInEdge, .whistleFire, .counterDump 0 0,
  .tracePostStop 0, .traceCfgWrite false 0#64, .jtagBypass 0, .jtagIdcode 0,
  .jtagSamplePreload 0 0 0, .jtagExtest 0 0 0, .jtagIjtag 0 0 false, .jtagKtrace 0,
  .jtagMemacc 0 false 0 0#64 [], .jtagKeyprog 0 (List.replicate 32 0#8), .trstAssert, .feedInRange 0 0]
def fits5 : List Instr := [
  .feedPrechargeStart 0 0, .feedPrechargeDone 0, .feedQualified 0 false, .feedOutOfRange 0 0,
  .feedbPowerupTimer, .feedTrip 0 0 false, .feedCurrentLimit 0, .powerUp,
  .startupReady [] false [] [], .enumTokenReceive (List.replicate 5 0#8) false, .enumTokenSend, .enumWaitExpire,
  .assignWaitExpire, .lockWaitExpire, .chipAssignWrite false 0#64, .startCfgWrite false 0#64,
  .targetMhzWrite 0#64, .dvfsGlideStep, .arrayIdle, .power 0 0 [],
  .thermalWarn 0 0, .capStep 0 0, .thermalTrip 0 0 [], .thermtripRelease,
  .coolantInletReading 0, .pcieConfigRequest (.read 0), .pcieLinkUp]
def fails0 : List Instr := [
  .memoryRead (.block 64 {}) .bar0 0 0 [], .memoryRead .host .bar0 18446744073709551616 0 [], .memoryRead .host .bar0 0 4294967296 [], .memoryRead .host .bar0 0 0 [(17179869184, .corrected)],
  .memoryWrite (.block 64 {}) .bar0 0 [], .memoryWrite .host .bar0 18446744073709551616 [], .registerWrite (.block 64 {}) 0 0#64, .registerWrite .host 16777216 0#64,
  .registerHolderTimeout (.block 64 {}) 0 false, .registerHolderTimeout .host 16777216 false, .bridgeRetryExhausted 138, .doorbell 256 0#64,
  .descriptorFetch 256 [] [] [], .descriptorFetch 0 [] [] [(17179869184, .corrected)], .descriptorStart 256 [] [], .descriptorStart 0 [] [(17179869184, .corrected)],
  .deadlineExpire 256 0, .deadlineExpire 0 4294967296, .deadlineMiss 256 0, .deadlineMiss 0 4294967296,
  .descriptorComplete 256 0, .descriptorComplete 0 4294967296, .msixUnmask (some 256), .cqHeadWrite 256 0,
  .cqHeadWrite 0 18446744073709551616, .cmdStop 768, .cmdChange 768, .cmdRestart 768,
  .cmdAbort 768, .drainComplete 768, .drainLimitExpire 768, .staleReplyDrop 768 0,
  .staleReplyDrop 0 256, .evrPop (.block 64 {}) 0, .evrPop .host 65536, .sweep 256 0 0 [],
  .sweep 0 4294967296 0 [], .sweep 0 0 18446744073709551616 [], .sweep 0 0 0 [(17179869184, .corrected)], .interact 256 0 0 []]
def fails1 : List Instr := [
  .interact 0 4294967296 0 [], .interact 0 0 18446744073709551616 [], .interact 0 0 0 [(17179869184, .corrected)], .veOp 256 0 [],
  .veOp 0 4294967296 [], .veOp 0 0 [(17179869184, .corrected)], .chunkApply 4096 none 0 [], .chunkApply 0 (some 18446744073709551616) 0 [],
  .chunkApply 0 none 4294967296 [], .chunkApply 0 none 0 [(17179869184, .corrected)], .tileFold 4096 0 [] false 0 [], .tileFold 0 0 [] false 4294967296 [],
  .tileFold 0 18446744073709551616 [] false 0 [], .tileFold 0 0 [(4096, 0)] false 0 [], .tileFold 0 0 [(0, 18446744073709551616)] false 0 [], .tileFold 0 0 [] false 0 [(17179869184, .corrected)],
  .fenceClearWrite (some 64) 0#64, .scrubRead 16 .clean, .cutTokenArrival 8, .cutTokenRelease 8,
  .gather 256 0 [] [] [] [], .gather 0 4294967296 [] [] [] [], .gather 0 0 [] [] [] [(17179869184, .corrected)], .rowRequest 8 okK [],
  .rowRequest 0 badK [], .rowRequest 0 okK [(17179869184, .corrected)], .rowReply 256 0 0 none [], .rowReply 0 4294967296 0 none [],
  .rowReply 0 0 4294967296 none [], .rowReply 0 0 0 (some badK) [], .rowReply 0 0 0 none [(17179869184, .corrected)], .gatherOpen badK,
  .updateDense 256 0 0 none [], .updateDense 0 4294967296 0 none [], .updateDense 0 0 4294967296 none [], .updateDense 0 0 0 (some 18446744073709551616) [],
  .updateDense 0 0 0 none [(17179869184, .corrected)], .updateRows 256 0 0 none [], .updateRows 0 4294967296 0 none [], .updateRows 0 0 4294967296 none []]
def fails2 : List Instr := [
  .updateRows 0 0 0 (some 18446744073709551616) [], .updateRows 0 0 0 none [(17179869184, .corrected)], .setcoef 256 0 [], .setcoef 0 4294967296 [],
  .setcoef 0 0 [(17179869184, .corrected)], .veTakeover 8, .tagSeal 256 0 [], .tagSeal 0 4294967296 [],
  .tagSeal 0 0 [(17179869184, .corrected)], .tagVerify 256 0 [], .tagVerify 0 4294967296 [], .tagVerify 0 0 [(17179869184, .corrected)],
  .flitSend 48 none, .dataFlitReceive 48 {} false, .dataFlitReceive 0 { type := 3 } false, .idleFlitReceive 48 {} false,
  .idleFlitReceive 0 { type := 3 } false, .nakReceive 48 0, .nakReceive 0 4096, .ackReceive 48 0,
  .ackReceive 0 4096, .ackTimer 48, .portRetrain 48, .portTrainingComplete 48 0 false,
  .portTrainingComplete 0 4096 false, .portTrainingTimeout 48, .portLinkLoss 48, .portDownRetry 48,
  .helloReceive 48 {} false, .helloReceive 0 { type := 3 } false, .discoveryTimeout 48, .packetReceive 8 none okK [],
  .packetReceive 0 (some 48) okK [], .packetReceive 0 none badK [], .packetReceive 0 none okK [(17179869184, .corrected)], .errorReplyReceive badK,
  .keepWarmRequest 48 none false, .keepWarmRequest 0 (some { type := 3 }) false, .keepWarmExitRequest 48 none false, .keepWarmExitRequest 0 (some { type := 3 }) false]
def fails3 : List Instr := [
  .keepWarmExitComplete 48, .jobStart 256 0 [], .jobStart 0 4294967296 [], .jobStart 0 0 [(17179869184, .corrected)],
  .jobEnd 256 0, .jobEnd 0 4294967296, .arm badK [], .armAckReceive badK,
  .armWaitExpire 4294967296, .adopt badK [], .commit badK, .commitAckReceive badK,
  .disarm badK, .reduce 256 0 [], .reduce 0 4294967296 [], .reduce 0 0 [(17179869184, .corrected)],
  .digestClose 256 0 [], .digestClose 0 4294967296 [], .digestClose 0 0 [(17179869184, .corrected)], .exp badK,
  .busy badK, .expRetryTimer 256 0, .expRetryTimer 0 4294967296, .grantSend 16 0 0 0,
  .grantSend 0 65536 0 0, .grantSend 0 0 4294967296 0, .grantSend 0 0 0 4294967296, .grant badK [],
  .grant okK [(17179869184, .corrected)], .contrib badK, .result badK, .abort badK,
  .homeDeadlineExpire 16 0 0 0, .homeDeadlineExpire 0 65536 0 0, .homeDeadlineExpire 0 0 4294967296 0, .homeDeadlineExpire 0 0 0 4294967296,
  .confirm badK, .retract badK, .resultConfirm badK, .resultRetract badK]
def fails4 : List Instr := [
  .journalSteepExpire 16 0 0 0 0, .journalSteepExpire 0 65536 0 0 0, .journalSteepExpire 0 0 4294967296 0 0, .journalSteepExpire 0 0 0 4294967296 0,
  .journalSteepExpire 0 0 0 0 4294967296, .resultSteepExpire 256 0, .resultSteepExpire 0 4294967296, .tagCopyReadback 8 0 0 0 0 false,
  .tagCopyReadback 0 536870912 0 0 0 false, .tagCopyReadback 0 0 65536 0 0 false, .tagCopyReadback 0 0 0 268435456 0 false, .tagCopyReadback 0 0 0 0 4294967296 false,
  .strainerVerdict 65536 0 false, .strainerVerdict 0 18446744073709551616 false, .replayJudge 65536 false [] [], .replayJudge 0 false [(4096, 0)] [],
  .replayJudge 0 false [(0, 18446744073709551616)] [], .replayJudge 0 false [] [(17179869184, .corrected)], .lockstepMismatch 64, .fenceMessage 8 0,
  .fenceMessage 0 65536, .steepFenceTimer 65536, .unconfirmedWriteReceive 8 okK, .unconfirmedWriteReceive 0 badK,
  .writeConfirm 8 okK, .writeConfirm 0 badK, .writeRetract 8 okK, .writeRetract 0 badK,
  .steepWindowExpire 65536 0, .steepWindowExpire 0 65536, .auditCompare 256 0 [] [], .auditCompare 0 4294967296 [] [],
  .auditCompare 0 0 [(4096, 0)] [], .auditCompare 0 0 [(0, 18446744073709551616)] [], .auditCompare 0 0 [] [(17179869184, .corrected)], .auditThirdJudge 256 0 [] [],
  .auditThirdJudge 0 4294967296 [] [], .auditThirdJudge 0 0 [(4096, 0)] [], .auditThirdJudge 0 0 [(0, 18446744073709551616)] [], .auditThirdJudge 0 0 [] [(17179869184, .corrected)]]
def fails5 : List Instr := [
  .scanBlock 256 0, .scanBlock 0 4294967296, .scanFinish 18446744073709551616 0 0 none, .scanFinish 0 18446744073709551616 0 none,
  .scanFinish 0 0 18446744073709551616 none, .scanFinish 0 0 0 (some 65536), .congestionEpisode 4 0 0 0, .congestionEpisode 0 0x54 0 0,
  .congestionEpisode 0 0 65536 0, .congestionEpisode 0 0 0 256, .congestionEpisodeEnd 4 0 0 0, .congestionEpisodeEnd 0 0x54 0 0,
  .congestionEpisodeEnd 0 0 65536 0, .congestionEpisodeEnd 0 0 0 256, .ceRate 8192, .regionTimerExpire 256 0 0 0 false false,
  .regionTimerExpire 0 4294967296 0 0 false false, .regionTimerExpire 0 0 0x54 0 false false, .regionTimerExpire 0 0 0 0x54 false false, .fabricTimerExpire 4294967296 false,
  .moduleTimerExpire 256 0, .moduleTimerExpire 0 4294967296, .reclaim 256 0, .reclaim 0 4294967296,
  .regionSwitchQuiescent 8, .faultReport 256 0 0 0 0 0 0 0 0 0, .faultReport 0 5 0 0 0 0 0 0 0 0, .faultReport 0 0 0x54 0 0 0 0 0 0 0,
  .faultReport 0 0 0 256 0 0 0 0 0 0, .faultReport 0 0 0 0 4096 0 0 0 0 0, .faultReport 0 0 0 0 0 256 0 0 0 0, .faultReport 0 0 0 0 0 0 256 0 0 0,
  .faultReport 0 0 0 0 0 0 0 4294967296 0 0, .faultReport 0 0 0 0 0 0 0 0 65536 0, .faultReport 0 0 0 0 0 0 0 0 0 65536, .egressStall 48 0 0,
  .egressStall 0 7 0, .egressStall 0 0 2, .probeResendTimer 48 0 0, .probeResendTimer 0 7 0]
def fails6 : List Instr := [
  .probeResendTimer 0 0 2, .hangProbe 48 okK, .hangProbe 0 badK, .lanternBeat 64,
  .lanternBeat 0x54, .lanternMissTimer 64 false, .lanternMissTimer 0x54 false, .reset 256 0,
  .reset 0 4294967296, .blockBeatTimeout 64, .summaryFlashCopy 2, .cut 256 0,
  .cut 0 4294967296, .sumpCopy 8 [], .sumpCopy 0 [(17179869184, .corrected)], .heldWriteRelease [(17179869184, .corrected)],
  .manifestSeal [none] [], .manifestSeal [] [(17179869184, .corrected)], .foldEnd [none] [], .foldEnd [] [(17179869184, .corrected)],
  .flowstoneDrainEnd [(10, 0, 0)] [], .flowstoneDrainEnd [(0, 0, 16)] [], .flowstoneDrainEnd [] [(17179869184, .corrected)], .restoreSelect 256 0 [] [] [],
  .restoreSelect 0 4294967296 [] [] [], .restoreSelect 0 0 [] [] [(17179869184, .corrected)], .restore 256 0 [] [], .restore 0 4294967296 [] [],
  .restore 0 0 [] [(17179869184, .corrected)], .caddyRecord 256 0 [], .caddyRecord 0 4294967296 [], .caddyRecord 0 0 [(17179869184, .corrected)],
  .caddyCopy badK, .caddyAck badK, .spreadApply 256 0 [], .spreadApply 0 4294967296 [],
  .spreadApply 0 0 [(17179869184, .corrected)], .rebuild 256 0 [] [] [], .rebuild 0 4294967296 [] [] [], .rebuild 0 0 [none] [] []]
def fails7 : List Instr := [
  .rebuild 0 0 [] [{ stripe := 0, piece := 10, data := [], crcs := [] }] [], .rebuild 0 0 [] [] [(17179869184, .corrected)], .bootRom 2, .kcoreLockstep 2,
  .journalEntry false 4294967296, .fuseSvnAdvance false 2 0, .fuseSvnAdvance false 0 256, .tmpRead 2 0 [] [],
  .tmpRead 0 65536 [] [], .tmpRead 0 0 [] [(17179869184, .corrected)], .tmpWrite 2 0 [], .tmpWrite 0 65536 [],
  .tmpStatus 2 0 [], .tmpStatus 0 65536 [], .flashWrite 2 0 [], .flashWrite 0 65536 [],
  .noticeAck 2 0 [], .noticeAck 0 65536 [], .noticeRepeat 4294967296, .riskEvent 65536 0,
  .riskEvent 0 3, .evrFlashCopy 2, .evrFetch 256 0, .evrFetch 0 4294967296,
  .evtSelWrite (.block 64 {}) 0 0 0#64, .evtSelWrite .host 80 0 0#64, .evtSelWrite .host 0 48 0#64, .filterWrite (.block 64 {}) 0 0 0#64,
  .filterWrite .host 80 0 0#64, .filterWrite .host 0 48 0#64, .whistleWrite (.block 64 {}) 0#64, .whistleSend (.block 64 {}) 0#64,
  .whistlePacket badK, .counterDump 256 0, .counterDump 0 4294967296, .tracePostStop 64,
  .jtagBypass 2, .jtagIdcode 2, .jtagSamplePreload 2 0 0, .jtagSamplePreload 0 18446744073709551616 0]
def fails8 : List Instr := [
  .jtagSamplePreload 0 0 18446744073709551616, .jtagExtest 2 0 0, .jtagExtest 0 18446744073709551616 0, .jtagExtest 0 0 18446744073709551616,
  .jtagIjtag 2 0 false, .jtagKtrace 2, .jtagMemacc 2 false 0 0#64 [], .jtagMemacc 0 false 18446744073709551616 0#64 [],
  .jtagMemacc 0 false 0 0#64 [(17179869184, .corrected)], .jtagKeyprog 2 (List.replicate 32 0#8), .jtagKeyprog 0 [], .feedInRange 2 0,
  .feedInRange 0 65536, .feedPrechargeStart 2 0, .feedPrechargeStart 0 65536, .feedPrechargeDone 2,
  .feedQualified 2 false, .feedOutOfRange 2 0, .feedOutOfRange 0 65536, .feedTrip 2 0 false,
  .feedTrip 0 65536 false, .feedCurrentLimit 4294967296, .startupReady [64] false [] [], .startupReady [] false [(16777216, 0#64)] [],
  .startupReady [] false [] [256], .enumTokenReceive [] false, .power 256 0 [], .power 0 4294967296 [],
  .power 0 0 [64], .thermalWarn 0x54 0, .thermalWarn 0 256, .capStep 0x54 0,
  .capStep 0 256, .thermalTrip 0x54 0 [], .thermalTrip 0 256 [], .thermalTrip 0 0 [16],
  .coolantInletReading 256, .pcieConfigRequest (.read 4096)]
theorem test_fits_0 : fits0.all Instr.wf = true := by decide
theorem test_fits_1 : fits1.all Instr.wf = true := by decide
theorem test_fits_2 : fits2.all Instr.wf = true := by decide
theorem test_fits_3 : fits3.all Instr.wf = true := by decide
theorem test_fits_4 : fits4.all Instr.wf = true := by decide
theorem test_fits_5 : fits5.all Instr.wf = true := by decide
theorem test_fails_0 : fails0.any Instr.wf = false := by decide
theorem test_fails_1 : fails1.any Instr.wf = false := by decide
theorem test_fails_2 : fails2.any Instr.wf = false := by decide
theorem test_fails_3 : fails3.any Instr.wf = false := by decide
theorem test_fails_4 : fails4.any Instr.wf = false := by decide
theorem test_fails_5 : fails5.any Instr.wf = false := by decide
theorem test_fails_6 : fails6.any Instr.wf = false := by decide
theorem test_fails_7 : fails7.any Instr.wf = false := by decide
theorem test_fails_8 : fails8.any Instr.wf = false := by decide
/-- Operands that are too long. -/
theorem test_too_long :
    (Instr.memoryWrite .host .bar0 0 (List.replicate (2 ^ 32) 0#8)).wf = false ∧
    (Instr.descriptorFetch 0 (List.replicate (2 ^ 32) 0#8) [] []).wf = false ∧
    (Instr.descriptorFetch 0 [] (List.replicate (2 ^ 32) 0#8) []).wf = false ∧
    (Instr.descriptorStart 0 (List.replicate (2 ^ 32) 0#8) []).wf = false ∧
    (Instr.arm okK (List.replicate (2 ^ 32) 0#8)).wf = false ∧
    (Instr.adopt okK (List.replicate (2 ^ 32) 0#8)).wf = false ∧
    (Instr.restoreSelect 0 0 (List.replicate (2 ^ 16) noMod) [] []).wf = false ∧
    (Instr.restore 0 0 (List.replicate (2 ^ 32) 0#8) []).wf = false ∧
    (Instr.tmpRead 0 0 (List.replicate (2 ^ 16) 0#8) []).wf = false ∧
    (Instr.tmpWrite 0 0 (List.replicate (2 ^ 16) 0#8)).wf = false ∧
    (Instr.tmpStatus 0 0 (List.replicate (2 ^ 16) 0#8)).wf = false ∧
    (Instr.flashWrite 0 0 (List.replicate (2 ^ 16) 0#8)).wf = false ∧
    (Instr.noticeAck 0 0 (List.replicate (2 ^ 16) 0#8)).wf = false := by
  simp only [Instr.wf, List.length_replicate]; decide
theorem test_packet_fields : [{ okK with dst := 65536 }, { okK with src := 65536 }, { okK with kind := 256 }, { okK with flags := 256 }, { okK with gen := 256 }, { okK with ttl := 256 }, { okK with addr := 18446744073709551616 }, { okK with layer := 65536 }, { okK with op := 65536 }, { okK with tag := 4294967296 }, { okK with err := 4294967296 }, { okK with vc := 7 }, { okK with cls := 2 }].any Packet.wf = false := by decide
theorem test_packet_too_long : { okK with body := List.replicate 4097 0#8 }.wf = false := by simp only [Packet.wf, List.length_replicate]; decide
theorem test_flit_fields : [{ type := 3 }, { seq := 4096 }, { vc := 8 }, { cls := 2 }, { ackSeq := 4096 }, { credit0 := some (8, 0, 0) }, { credit0 := some (0, 2, 0) },
    { credit0 := some (0, 0, 2048) }, { credit1 := some (8, 0, 0) }, { link := some (.hello 65536 true 0) }, { link := some (.hello 0 true 64) },
    { link := some (.lastSeq 4096 false) }].any Flit.wf = false ∧ ({ payload := List.replicate 241 0#8 } : Flit).wf = false := by decide +kernel
theorem test_masters : [Master.block 64 {}, .ledger 8 {}, .link 8 {}, .service { ring := 257 }, .service { seq := 4294967296 }, .service { layer := 65536 },
    .service { op := 65536 }, .remote 8 0 0 false 0 0 0, .remote 0 65536 0 false 0 0 0, .remote 0 0 7 false 0 0 0, .remote 0 0 0 false 4294967296 0 0,
    .remote 0 0 0 false 0 65536 0, .remote 0 0 0 false 0 0 65536, .ring 256, .tmp 2 0 0, .tmp 0 65536 0, .tmp 0 0 4294967296].any Master.wf = false ∧
    [CfgReq.read 4096, .write 4096 0, .write 0 4294967296].any CfgReq.wf = false := by decide
theorem test_pieces : ({ stripe := 0, piece := 0, data := [], crcs := List.replicate 16 0 } : PieceRead).wf = false ∧
    ({ stripe := 0, piece := 10, data := zeroPiece, crcs := List.replicate 16 0 } : PieceRead).wf = false ∧
    ({ stripe := 0, piece := 9, data := zeroPiece, crcs := [] } : PieceRead).wf = false := 
  ⟨by decide, by simp only [PieceRead.wf, zeroPiece, pieceLen, List.length_replicate]; decide, by simp only [PieceRead.wf, zeroPiece, pieceLen, List.length_replicate]; decide⟩

end Sys2Proof.Tests
end

/-!
SUPPORT. A request within one 4 KiB piece of this module's HBM: how it is cut, which place it names, and what its read, its plain write and
the opening of its page do (spec/01 R36, R51, R53, spec/09 R415).
-/
namespace Sys2Proof.Machine

open Sys2Proof

variable {s t : State} {who : Master} {addr n a : Nat}

/-! ### How a request within one piece is cut (R50, R51) -/

theorem pieces_one {fuel : Nat} (hn : 0 < n) (h : n ≤ pieceRoom addr) : pieces (fuel + 2) addr n = [(addr, n)] := by
  simp [pieces, Nat.ne_of_gt hn, Nat.min_eq_left h]

theorem piecesOf_one (hn : 0 < n) (h : n ≤ pieceRoom addr) : piecesOf addr n = [(addr, n)] := pieces_one hn h

theorem spaceParts_global (hn : 0 < n) (h : n ≤ 4096) : spaceParts .global addr n = [(addr, n)] := by
  have hm : min n (spaceRoom .global addr) = n := Nat.min_eq_left (Nat.le_trans h (by simp [spaceRoom]))
  simp [spaceParts, cutSpace, Nat.ne_of_gt hn, hm]

theorem readParts_global (hn : 0 < n) (h : n ≤ 4096) : readParts .global addr n = [(addr, n)] := by
  simp [readParts, spaceParts_global hn h, bodies, h]

theorem pagesOf_one (hn : 0 < n) (h : a % 4096 + n ≤ 4096) : pagesOf a n = [a / 4096] := by
  have : (a + n - 1) / 4096 - a / 4096 + 1 = 1 := by omega
  simp [pagesOf, Nat.ne_of_gt hn, this]

/-! ### The place of an address (R29, R31, R36) -/

theorem State.locOf_of_gloc {x : Loc} (e : s.gloc addr = .own x) : s.locOf (addr % 2 ^ 48) = x := by
  unfold State.gloc at e
  dsimp only at e
  split at e
  · exact GLoc.own.inj e
  · split at e
    · split at e
      · exact GLoc.own.inj e
      · contradiction
    · contradiction

/-- Only register space is cut elsewhere than at the ends of pages. -/
theorem State.pieceRoom_of_gloc {x : Loc} (e : s.gloc addr = .own x) (hx : ∀ off, x ≠ .reg off) : pieceRoom addr = 4096 - addr % 4096 := by
  have hr : ¬(0x030000000000 ≤ addr % 2 ^ 48 ∧ addr % 2 ^ 48 < 0x030001000000) := by
    intro h
    refine hx (addr % 2 ^ 48 - 0x030000000000) ((State.locOf_of_gloc e).symm.trans ?_)
    simp only [State.locOf, Bool.and_eq_true, decide_eq_true_eq]
    rw [if_neg (by omega), if_neg (by omega), if_neg (by omega), if_pos (by omega), if_pos (by omega)]
  unfold pieceRoom
  simp only [Bool.and_eq_true, decide_eq_true_eq]
  rw [if_neg hr]

theorem State.piecesOf_of_gloc {x : Loc} (e : s.gloc addr = .own x) (hx : ∀ off, x ≠ .reg off) (hn : 0 < n) (h : addr % 4096 + n ≤ 4096) :
    piecesOf addr n = [(addr, n)] := piecesOf_one hn (by rw [State.pieceRoom_of_gloc e hx]; omega)

/-- A place of HBM lies as far in its page as its address does. -/
theorem State.hbm_page_offset (e : s.gloc addr = .own (.hbm a)) : a % 4096 = addr % 4096 := by
  have hl := State.locOf_of_gloc e
  unfold State.locOf at hl
  dsimp only at hl
  split at hl
  · have := Loc.hbm.inj hl
    omega
  · split at hl
    · have := Loc.hbm.inj hl
      omega
    · repeat' split at hl
      all_goals exact absurd hl (by simp)

theorem State.hbm_lt (e : s.gloc addr = .own (.hbm a)) : a < 2 ^ 40 := by
  cases State.gloc_small e with | hbm h => exact h

/-- The place of an address depends on the chip number and on the blocks that answer alone. -/
theorem State.gloc_congr (hc : t.reg Reg.MOD_CHIP_NUMBER = s.reg Reg.MOD_CHIP_NUMBER) (hd : t.dark = s.dark) : t.gloc addr = s.gloc addr := by
  have hchip : t.chip = s.chip := by
    unfold State.chip
    rw [hc]
  have hloc : t.locOf = s.locOf := by
    funext off
    unfold State.locOf State.blockUp
    rw [hd]
  unfold State.gloc
  rw [hchip, hloc]

/-! ### What the codes find leaves the map alone (R220) -/

/-- A value that is kept in a table is read back, and changes no other entry, whatever the table's form. -/
theorem tblGet_put_kept {α : Type} [DecidableEq α] (d : Nat → α) {m : Tbl α} {k j : Nat} {v : α} (hv : v ≠ d k) :
    tblGet d (tblPut d m k v) j = if j = k then v else tblGet d m j := by
  induction m with
  | nil =>
    simp only [tblPut, if_neg hv, tblGet]
    split
    · rfl
    · exact ite_self _
  | cons x m ih =>
    obtain ⟨i, u⟩ := x
    simp only [tblPut, if_neg hv]
    split
    · subst k
      simp only [tblGet]
      split <;> rfl
    · split
      · simp only [tblGet]
        split
        · rfl
        · by_cases hj : j < k
          · rw [if_pos hj, if_neg (by omega), if_pos (by omega)]
          · rw [if_neg hj]
      · simp only [tblGet, ih]
        by_cases hk : j = k
        · subst hk
          rw [if_pos rfl, if_pos rfl, if_neg ‹_›, if_neg ‹_›]
        · rw [if_neg hk, if_neg hk]

theorem eccStatus_reset : ∀ i < 16, regReset (Reg.LDG_ECC_STATUS (i / 2) (i % 2)) = 0#64 := by decide

/-- The count of corrected errors changes no other register: a counter that has counted is never at its reset value. -/
theorem State.reg_bump_eccStatus {i o : Nat} (hi : i < 16) (hne : o ≠ Reg.LDG_ECC_STATUS (i / 2) (i % 2)) :
    (s.bump (Reg.LDG_ECC_STATUS (i / 2) (i % 2)) Fld.LDG_ECC_STATUS_CE_COUNT 1).reg o = s.reg o := by
  unfold State.bump State.fput State.setReg State.reg
  dsimp only
  rw [tblGet_put_kept, if_neg hne]
  intro h
  have hz := congrArg Fld.LDG_ECC_STATUS_CE_COUNT.get (h.trans (eccStatus_reset i hi))
  rw [Fld.get_put ⟨by decide, by decide⟩] at hz
  have hm : Fld.LDG_ECC_STATUS_CE_COUNT.max = 2 ^ 32 - 1 := rfl
  have h0 : Fld.LDG_ECC_STATUS_CE_COUNT.get 0#64 = 0 := rfl
  rw [h0, hm, satAdd] at hz
  omega

theorem State.chipNumber_eccRead {b : Nat} {e : Ecc} (hb : b < 2 ^ 34) :
    (s.eccRead b e).reg Reg.MOD_CHIP_NUMBER = s.reg Reg.MOD_CHIP_NUMBER := by
  have hc : (s.burstCorrected (b / 2 ^ 30)).reg Reg.MOD_CHIP_NUMBER = s.reg Reg.MOD_CHIP_NUMBER := by
    have hi : b / 2 ^ 30 < 16 := by omega
    refine Eq.trans ?_ (State.reg_bump_eccStatus (s := s) hi (by unfold Reg.MOD_CHIP_NUMBER Reg.LDG_ECC_STATUS; omega))
    exact congrArg (tblGet regReset · _)
      ((State.corrected_only (p := { obs := true, flt := true }) rfl (State.evCount_only rfl (Only.refl _ _))).same_regs rfl)
  cases e with
  | clean => rfl
  | onDie => exact hc
  | corrected => exact hc
  | uncorrectable =>
    unfold State.eccRead
    dsimp only
    split <;> rfl

theorem State.chipNumber_eccAll {ecc : EccFinds} : (s.eccAll ecc).reg Reg.MOD_CHIP_NUMBER = s.reg Reg.MOD_CHIP_NUMBER := by
  unfold State.eccAll
  induction ecc generalizing s with
  | nil => rfl
  | cons e ecc ih =>
    rw [List.foldl_cons, ih]
    split
    · exact State.chipNumber_eccRead ‹_›
    · rfl

theorem State.gloc_eccIn {m k : Nat} {ecc : EccFinds} : (s.eccIn m k ecc).gloc addr = s.gloc addr :=
  State.gloc_congr State.chipNumber_eccAll
    ((State.eccIn_only (p := { regs := true, poison := true, flt := true, obs := true }) rfl (Only.refl _ _)).same_dark rfl)

/-! ### Crossing the torus changes its counts alone (R10, R332) -/

theorem Only.eq_tor (h : Only { tor := true } s t) : t = { s with tor := t.tor } := congrArg (fun u : State => { u with tor := t.tor }) h

theorem State.crossTo_eq {r : Nat} {x : Loc} : s.crossTo r n x = { s with tor := (s.crossTo r n x).tor } :=
  (State.crossTo_only rfl (Only.refl _ _)).eq_tor

/-! ### A read by a master (R36, R433) -/

/-- The masters that a read is answered to by no packet and no datagram: the units of this module, its management port, its TAPs and the host. -/
def atModule : Master → Prop
  | .remote .. => False
  | .tmp .. => False
  | _ => True

theorem State.replyRead_atModule (hw : atModule who) {acc : ReadAcc} :
    s.replyRead who addr acc = s.emit (.readReply who addr acc.data acc.poison) := by
  cases who with
  | remote => exact hw.elim
  | tmp => exact hw.elim
  | _ => rfl

/-- What the BARs let through (R702). -/
theorem host_passes (hb : who = .host → s.pcie.bars = true) : (who == .host && !s.pcie.bars) = false := by
  by_cases h : who = .host
  · simp [hb h]
  · simp [h]

/-- A read of one packet's length of an address of this module is served here. -/
theorem memoryRead_own {x : Loc} {ecc : EccFinds} (hb : who = .host → s.pcie.bars = true) (hn : 0 < n) (h : n ≤ 4096)
    (e : s.gloc addr = .own x) : memoryRead s who .global addr n ecc = (s.eccIn addr n ecc).serveRead who addr n := by
  simp [memoryRead, host_passes hb, readParts_global hn h, State.readPart, State.spaceAddr, e]

theorem State.serveRead_waits (h : s.readWaits who s.order addr n = true) :
    s.serveRead who addr n = { s with waitRd := s.waitRd ++ [{ who := who, stamp := s.order, addr := addr, len := n }], order := s.order + 1 } := by
  rw [State.serveRead, if_pos h]

/-- A read within one piece that waits for nothing is answered with what that piece holds. -/
theorem State.serveRead_piece {x : Loc} (h : s.readWaits who s.order addr n = false) (e : s.gloc addr = .own x) (hx : ∀ off, x ≠ .reg off)
    (hn : 0 < n) (hp : addr % 4096 + n ≤ 4096) :
    s.serveRead who addr n = (s.readPiece who addr n {}).1.replyRead who addr (s.readPiece who addr n {}).2 := by
  simp [State.serveRead, h, State.readAll, State.piecesOf_of_gloc e hx hn hp]

/-- A piece of HBM without a withdrawn page and a poisoned burst reads as the bytes there. -/
theorem State.readPiece_hbm {acc : ReadAcc} (e : s.gloc addr = .own (.hbm a)) (hw : (pagesOf a n).any s.isWithdrawn = false)
    (hp : s.poisonedAt a n = false) : s.readPiece who addr n acc =
      (s.crossTo (s.entry who) n (.hbm a), { acc with data := acc.data ++ s.mem.read a n, mapped := true }) := by
  have hf : (burstsOf a n).find? (s.mem.poison.contains ·) = none := by
    simpa [State.poisonedAt] using hp
  unfold State.readPiece
  simp only [e]
  rw [State.crossTo_eq]
  generalize (s.crossTo (s.entry who) n (.hbm a)).tor = x
  have e' : ({ s with tor := x } : State).gloc addr = .own (.hbm a) := e
  have hw' : (pagesOf a n).any ({ s with tor := x } : State).isWithdrawn = false := hw
  simp only [e', Loc.place, hw', hf]
  rfl

/-- A piece that names no place reads as zeros, and is reported (R35). -/
theorem State.readPiece_unmapped {acc : ReadAcc} (e : s.gloc addr = .own .unmapped) :
    s.readPiece who addr n acc = (s.unmapped addr (s.whoCtx who), { acc with data := acc.data ++ List.replicate n 0#8 }) := by
  simp only [State.readPiece, e, State.crossTo]

end Sys2Proof.Machine

/-!
SUPPORT. Requests of addresses without a place, and what a plain write leaves in HBM: the bytes, the page OPEN, and nothing else but its tag
(spec/01 R35, R53, spec/09 R406-R415).
-/
namespace Sys2Proof.Machine

open Sys2Proof

variable {s t : State} {who : Master} {addr n a : Nat} {d : List Byte}

/-! ### An address without a place has no pages and no bursts -/

theorem State.placeOf_unmapped (e : s.gloc addr = .own .unmapped) : s.placeOf addr = none := by
  simp [State.placeOf, e, Loc.place]

theorem State.gbursts_unmapped (e : s.gloc addr = .own .unmapped) (hn : 0 < n) (hp : addr % 4096 + n ≤ 4096) : s.gbursts addr n = [] := by
  simp [State.gbursts, State.piecesOf_of_gloc e (by simp) hn hp, State.placeOf_unmapped e]

theorem State.gpages_unmapped (e : s.gloc addr = .own .unmapped) (hn : 0 < n) (hp : addr % 4096 + n ≤ 4096) : s.gpages addr n = [] := by
  simp [State.gpages, State.piecesOf_of_gloc e (by simp) hn hp, State.placeOf_unmapped e]

theorem State.eccIn_unmapped {ecc : EccFinds} (e : s.gloc addr = .own .unmapped) (hn : 0 < n) (hp : addr % 4096 + n ≤ 4096) :
    s.eccIn addr n ecc = s := by
  have hf : ecc.filter (fun x => (s.gbursts addr n).contains x.1) = [] :=
    List.filter_eq_nil_iff.mpr fun x _ => by
      rw [State.gbursts_unmapped e hn hp]
      exact Bool.false_ne_true
  unfold State.eccIn
  dsimp only
  rw [hf]
  exact List.foldl_nil

theorem State.readWaits_unmapped {stamp : Nat} (e : s.gloc addr = .own .unmapped) (hn : 0 < n) (hp : addr % 4096 + n ≤ 4096) :
    s.readWaits who stamp addr n = false := by
  simp [State.readWaits, State.pendingIn, State.behindWrite, State.gbursts_unmapped e hn hp, State.gpages_unmapped e hn hp]

/-- Only a range that touches a page can wait for a pending one. -/
theorem State.pos_of_pendingIn (h : s.pendingIn addr n = true) : 0 < n := by
  rcases Nat.eq_zero_or_pos n with rfl | hn
  · simp [State.pendingIn, State.gpages, piecesOf, pieces] at h
  · exact hn

/-! ### The bytes of HBM and staging SRAM after a plain write (R415) -/

theorem State.canon_mem (h : s.canon = true) : s.mem.canon = true := by
  simp only [State.canon, Bool.and_eq_true] at h
  exact h.2

theorem State.canon_regs (h : s.canon = true) : tblWf regReset s.regs = true := by
  simp only [State.canon, Bool.and_eq_true] at h
  exact h.1.1

/-- A step that leaves HBM and staging SRAM alone. -/
theorem Only.byte {p : Parts} (h : Only p s t) (hh : p.hbm = false) (hs : p.staging = false) (x : Nat) : t.mem.byte x = s.mem.byte x := by
  simp only [Mem.byte, h.same_mem_hbm hh, h.same_mem_staging hs]

theorem Mem.read_congr {m k : Mem} (h : ∀ x, a ≤ x → x < a + n → m.byte x = k.byte x) : m.read a n = k.read a n := by
  induction n generalizing a with
  | zero => rfl
  | succ n ih => rw [Mem.read, Mem.read, h a (by omega) (by omega), ih (fun x h1 h2 => h x (by omega) (by omega))]

theorem State.write_byte (h : s.canon = true) {x : Nat} :
    (s.write a d).mem.byte x = if a ≤ x ∧ x < a + d.length then d.getD (x - a) 0#8 else s.mem.byte x := by
  rw [← Mem.byte_write (State.canon_mem h)]
  exact (Only.foldl (p := { dirty := true }) (Only.refl _ _) (fun _ _ k => State.setDirty_only rfl k)).byte rfl rfl x

theorem State.write_read (h : s.canon = true) : (s.write a d).mem.read a d.length = d := by
  refine Eq.trans (Mem.read_congr (k := s.mem.write a d) fun x _ _ => ?_) (Mem.read_write (State.canon_mem h))
  rw [State.write_byte h, Mem.byte_write (State.canon_mem h)]

theorem leBytes_length {k v : Nat} : (leBytes k v).length = k := by
  induction k generalizing v with
  | zero => rfl
  | succ k ih => rw [leBytes, List.length_cons, ih]

theorem leNat_leBytes {k v : Nat} : leNat (leBytes k v) = v % 256 ^ k := by
  induction k generalizing v with
  | zero => simp [leBytes, leNat, Nat.mod_one]
  | succ k ih =>
    rw [leBytes, leNat, ih, BitVec.toNat_ofNat, Nat.pow_succ' (n := k)]
    exact Nat.mod_mul.symm

/-- A tag that is written is read back. -/
theorem State.tag_setTag (h : s.canon = true) {p v : Nat} (hp : p < 2 ^ 28) : (s.setTag p v).tag p = v % 2 ^ 64 := by
  have hr : (s.setTag p v).mem.read (tagPlace p) 8 = (s.mem.write (tagPlace p) (leBytes 8 v)).read (tagPlace p) (leBytes 8 v).length := by
    rw [leBytes_length]
    refine Mem.read_congr fun x _ _ => ?_
    rw [State.setTag, if_pos hp, State.putTag, if_pos hp]
    exact (State.setDirty_only (p := { dirty := true }) rfl (Only.refl _ _)).byte rfl rfl x
  rw [State.tag, if_pos hp, hr, Mem.read_write (State.canon_mem h)]
  exact leNat_leBytes

/-- Writing the tag of a page of HBM changes the eight bytes of its place alone. -/
theorem State.setTag_byte (h : s.canon = true) {p v x : Nat} (hp : p < 2 ^ 28) (hx : ¬(tagPlace p ≤ x ∧ x < tagPlace p + 8)) :
    (s.setTag p v).mem.byte x = s.mem.byte x := by
  rw [State.setTag, if_pos hp, State.putTag, if_pos hp, (State.setDirty_only (p := { dirty := true }) rfl (Only.refl _ _)).byte rfl rfl x,
    Mem.byte_write (State.canon_mem h), leBytes_length, if_neg hx]

theorem tagFmt_mkTag {f step bid crc : Nat} : tagFmt (mkTag f step bid crc % 2 ^ 64) = f % 256 := by
  simp only [tagFmt, bitsOf, mkTag]
  omega

theorem State.openPage_isOpen (h : s.canon = true) {p : Nat} (hp : p < 2 ^ 28) : (s.openPage p).isOpen p = true := by
  unfold State.openPage
  split
  · rename_i ha
    rw [State.isOpen, ha, Bool.true_or]
  · rw [State.isOpen, State.tag_setTag h hp, tagFmt_mkTag]
    exact Bool.or_true _

theorem State.openPage_byte (h : s.canon = true) {p x : Nat} (hp : p < 2 ^ 28) (hx : alwaysOpen p = true ∨ ¬(tagPlace p ≤ x ∧ x < tagPlace p + 8)) :
    (s.openPage p).mem.byte x = s.mem.byte x := by
  unfold State.openPage
  split
  · rfl
  · exact State.setTag_byte h hp (hx.resolve_left ‹_›)

/-- The tag of a page lies in a page that is always OPEN, so in another page than one that is not. -/
theorem tagPlace_off_page {p x : Nat} (hp : p < 2 ^ 28) (ha : alwaysOpen p = false) (hx : x / 4096 = p) :
    ¬(tagPlace p ≤ x ∧ x < tagPlace p + 8) := by
  rw [alwaysOpen, if_pos hp] at ha
  simp only [Bool.or_eq_false_iff, Bool.and_eq_false_iff, decide_eq_false_iff_not] at ha
  unfold tagPlace
  omega

/-- A plain write within one page of HBM: the bytes are there, the page is OPEN, and only the page's tag changes besides. -/
theorem State.writePlain_page (h : s.canon = true) (ha : a < 2 ^ 40) (hd : 0 < d.length) (hp : a % 4096 + d.length ≤ 4096) :
    (s.writePlain a d).mem.read a d.length = d ∧
      (∀ x, ¬(a ≤ x ∧ x < a + d.length) → ¬(tagPlace (a / 4096) ≤ x ∧ x < tagPlace (a / 4096) + 8) →
        (s.writePlain a d).mem.byte x = s.mem.byte x) ∧
      (s.writePlain a d).isOpen (a / 4096) = true := by
  have hpage : a / 4096 < 2 ^ 28 := by omega
  have hw : s.writePlain a d = ((s.write a d).tilerWritten a d.length).openPage (a / 4096) := by
    rw [State.writePlain, pagesOf_one hd hp]
    rfl
  have hc : ((s.write a d).tilerWritten a d.length).canon = true := (State.tilerWritten_keeps (State.write_keeps (Keeps.refl s))).canon h
  have hb : ∀ x, ((s.write a d).tilerWritten a d.length).mem.byte x = (s.write a d).mem.byte x :=
    (State.tilerWritten_only (p := { arr := true }) rfl (Only.refl _ _)).byte rfl rfl
  rw [hw]
  refine ⟨Eq.trans (Mem.read_congr fun x h1 h2 => ?_) (State.write_read h), fun x h1 h2 => ?_, State.openPage_isOpen hc hpage⟩
  · rw [State.openPage_byte hc hpage, hb]
    cases ho : alwaysOpen (a / 4096) with
    | true => exact .inl rfl
    | false => exact .inr (tagPlace_off_page hpage ho (by omega))
  · rw [State.openPage_byte hc hpage (.inr h2), hb, State.write_byte h, if_neg h1]

/-! ### A write by a master (R53, R224, R568) -/

/-- A write within one piece of this module's HBM is a plain write of the place that it names, once it has crossed the torus. -/
theorem memoryWrite_hbm (hb : who = .host → s.pcie.bars = true) (hd : 0 < d.length) (hp : addr % 4096 + d.length ≤ 4096)
    (e : s.gloc addr = .own (.hbm a)) :
    memoryWrite s who .global addr d = (s.crossTo (s.entry who) d.length (.hbm a)).plainWrite who a d := by
  have hw : memoryWrite s who .global addr d = s.servePiece who addr d := by
    simp [memoryWrite, host_passes hb, spaceParts_global hd (show d.length ≤ 4096 by omega), State.spaceAddr, State.globalWrite, e,
      State.serveWrite, dataPieces, State.piecesOf_of_gloc e (by simp) hd hp]
  rw [hw, State.servePiece]
  simp only [e]
  rw [State.crossTo_eq]
  generalize (s.crossTo (s.entry who) d.length (.hbm a)).tor = x
  have e' : ({ s with tor := x } : State).gloc addr = .own (.hbm a) := e
  simp only [e']

theorem State.plainWrite_free (h : (s.sumpHolds a d.length || s.behindHeld a d.length || s.behindRead who s.order (burstsOf a d.length)) = false) :
    s.plainWrite who a d = s.writePlain a d := by
  rw [State.plainWrite, if_neg (by rw [h]; decide)]

/-- A plain write that is held up joins the held writes; SUMP_STATUS counts one that waits for the Sump. -/
theorem State.plainWrite_held (h : (s.sumpHolds a d.length || s.behindHeld a d.length || s.behindRead who s.order (burstsOf a d.length)) = true) :
    (s.plainWrite who a d).heldWr = s.heldWr ++ [{ who := who, stamp := s.order, key := a, data := d }] ∧
      Only { regs := true, heldWr := true, order := true } s (s.plainWrite who a d) := by
  rw [State.plainWrite, if_pos h]
  dsimp only
  split
  · exact ⟨rfl, State.bump_only rfl (Only.set rfl (Only.refl _ _))⟩
  · exact ⟨rfl, Only.set rfl (Only.refl _ _)⟩

end Sys2Proof.Machine

/-!
O13. Reads and writes of HBM by a master: one lemma for each case of the statement.
-/
namespace Sys2Proof.Machine

open Sys2Proof

variable {z s : State} {who : Master} {addr n a : Nat} {d : List Byte} {ecc : EccFinds}

/-! ### The five cases of O13 -/

theorem exec_memoryRead : exec (.memoryRead who .global addr n ecc) s = .next (memoryRead s who .global addr n ecc) := rfl

theorem exec_memoryWrite : exec (.memoryWrite who .global addr d) s = .next (memoryWrite s who .global addr d) := rfl

/-- A read of HBM that waits for nothing and meets no withdrawn page and no poison is answered with the bytes there (R36). -/
theorem memoryRead_answers (hb : who = .host → z.pcie.bars = true) (hw : atModule who) (hn : 0 < n) (hp : addr % 4096 + n ≤ 4096)
    (hs : s = z.eccIn addr n ecc) (e : s.gloc addr = .own (.hbm a)) (hq : s.readWaits who s.order addr n = false)
    (hd : (pagesOf a n).any s.isWithdrawn = false) (hu : s.poisonedAt a n = false) :
    (memoryRead z who .global addr n ecc).out = s.out ++ [.readReply who addr (s.mem.read a n) false] ∧
      Only { out := true, tor := true } s (memoryRead z who .global addr n ecc) := by
  have hr : memoryRead z who .global addr n ecc =
      (s.crossTo (s.entry who) n (.hbm a)).emit (.readReply who addr (s.mem.read a n) false) := by
    have ez : z.gloc addr = .own (.hbm a) := by rw [← State.gloc_eccIn (ecc := ecc) (m := addr) (k := n), ← hs, e]
    rw [memoryRead_own hb hn (by omega) ez, ← hs, State.serveRead_piece hq e (by simp) hn hp, State.readPiece_hbm e hd hu,
      State.replyRead_atModule hw]
    rfl
  rw [hr]
  refine ⟨?_, State.emit_only rfl (State.crossTo_only rfl (Only.refl _ _))⟩
  rw [State.emit_out, State.crossTo_eq]

/-- A read with a pending page waits (R433). -/
theorem memoryRead_waits (hb : who = .host → z.pcie.bars = true) (hn : n ≤ 4096) (hs : s = z.eccIn addr n ecc)
    (e : s.gloc addr = .own (.hbm a)) (hq : s.pendingIn addr n = true) :
    (memoryRead z who .global addr n ecc).waitRd = s.waitRd ++ [{ who := who, stamp := s.order, addr := addr, len := n }] ∧
      Only { waitRd := true, order := true } s (memoryRead z who .global addr n ecc) := by
  have ez : z.gloc addr = .own (.hbm a) := by rw [← State.gloc_eccIn (ecc := ecc) (m := addr) (k := n), ← hs, e]
  rw [memoryRead_own hb (State.pos_of_pendingIn hq) hn ez, ← hs, State.serveRead_waits (by rw [State.readWaits, hq, Bool.true_or])]
  exact ⟨rfl, Only.set rfl (Only.refl _ _)⟩

/-- A read of an address that names no place is answered with zeros and reported (R35). -/
theorem memoryRead_zeros (hc : s.canon = true) (hb : who = .host → s.pcie.bars = true) (hw : atModule who) (hn : 0 < n)
    (hp : addr % 4096 + n ≤ 4096) (e : s.gloc addr = .own .unmapped) :
    Out.readReply who addr (List.replicate n 0#8) false ∈ (memoryRead s who .global addr n ecc).out ∧
      Counted s (memoryRead s who .global addr n ecc) 0x14 ∧ SameRegs s (memoryRead s who .global addr n ecc) (reportRegs 0x14) ∧
      Only Parts.report s (memoryRead s who .global addr n ecc) := by
  have hr : memoryRead s who .global addr n ecc =
      (s.unmapped addr (s.whoCtx who)).emit (.readReply who addr (List.replicate n 0#8) false) := by
    rw [memoryRead_own hb hn (by omega) e, State.eccIn_unmapped e hn hp, State.serveRead_piece (State.readWaits_unmapped e hn hp) e (by simp) hn hp,
      State.readPiece_unmapped e, State.replyRead_atModule hw]
    rfl
  have w := State.canon_regs hc
  rw [hr]
  refine ⟨?_, ?_, fun off hoff => ?_, State.emit_only rfl (State.unmapped_only rfl (Only.refl _ _))⟩
  · rw [State.emit_out]
    exact List.mem_append_right _ (List.mem_singleton_self _)
  · exact State.report_count (by decide) (.inl (by decide)) w
  · exact (RegsBut.report (l := (· ∈ reportRegs 0x14)) (fun _ hx => hx) (RegsBut.refl _ s)).same w off hoff

/-- A write of HBM that nothing holds up is stored, and its page is OPEN (R53, R415). -/
theorem memoryWrite_stores (hc : s.canon = true) (hb : who = .host → s.pcie.bars = true) (hd : 0 < d.length)
    (hp : addr % 4096 + d.length ≤ 4096) (e : s.gloc addr = .own (.hbm a))
    (hf : (s.sumpHolds a d.length || s.behindHeld a d.length || s.behindRead who s.order (burstsOf a d.length)) = false) :
    (memoryWrite s who .global addr d).mem.read a d.length = d ∧
      (∀ x, ¬(a ≤ x ∧ x < a + d.length) → ¬(tagPlace (a / 4096) ≤ x ∧ x < tagPlace (a / 4096) + 8) →
        (memoryWrite s who .global addr d).mem.byte x = s.mem.byte x) ∧
      (memoryWrite s who .global addr d).isOpen (a / 4096) = true ∧
      Only (Parts.memory.or { tor := true, arr := true }) s (memoryWrite s who .global addr d) := by
  have hk : (s.crossTo (s.entry who) d.length (.hbm a)).canon = true := (State.crossTo_keeps (Keeps.refl s)).canon hc
  rw [memoryWrite_hbm hb hd hp e, State.plainWrite_free (by rw [State.crossTo_eq]; exact hf)]
  obtain ⟨hread, hbyte, hopen⟩ := State.writePlain_page hk (State.hbm_lt e) hd (by rw [State.hbm_page_offset e]; exact hp)
  refine ⟨hread, fun x h1 h2 => (hbyte x h1 h2).trans ?_, hopen, State.writePlain_only rfl (State.crossTo_only rfl (Only.refl _ _))⟩
  rw [State.crossTo_eq]

/-- A write of HBM that is held up joins the held writes (R53, R224, R568). -/
theorem memoryWrite_held (hb : who = .host → s.pcie.bars = true) (hd : 0 < d.length) (hp : addr % 4096 + d.length ≤ 4096)
    (e : s.gloc addr = .own (.hbm a))
    (hf : (s.sumpHolds a d.length || s.behindHeld a d.length || s.behindRead who s.order (burstsOf a d.length)) = true) :
    (memoryWrite s who .global addr d).heldWr = s.heldWr ++ [{ who := who, stamp := s.order, key := a, data := d }] ∧
      Only { regs := true, heldWr := true, order := true, tor := true } s (memoryWrite s who .global addr d) := by
  rw [memoryWrite_hbm hb hd hp e]
  obtain ⟨hheld, honly⟩ := State.plainWrite_held (s := s.crossTo (s.entry who) d.length (.hbm a)) (who := who) (a := a) (d := d)
    (by rw [State.crossTo_eq]; exact hf)
  refine ⟨hheld.trans ?_, (State.crossTo_only rfl (Only.refl _ _)).step rfl honly⟩
  rw [State.crossTo_eq]

/-- Settles O13: a request within one 4 KiB piece is one piece, what the codes find moves no place, and a read or a plain write of one place
of HBM does what R36, R35, R415, R433 and R568 say. -/
theorem memoryReadsAndWrites : Obligations.MemoryReadsAndWrites := by
  unfold Obligations.MemoryReadsAndWrites
  refine ⟨?_, ?_, ?_, ?_, ?_⟩
  · intro z who addr n a ecc hb hw hn hp s e hq ho hd hu
    exact ⟨_, exec_memoryRead, memoryRead_answers hb hw hn hp rfl e (by rw [State.readWaits, hq, ho]; rfl) hd hu⟩
  · intro z who addr n a ecc hb hn s e hq
    exact ⟨_, exec_memoryRead, memoryRead_waits hb hn rfl e hq⟩
  · intro s who addr n ecc hc hb hw hn hp e
    exact ⟨_, exec_memoryRead, memoryRead_zeros hc hb hw hn hp e⟩
  · intro s who addr a d hc hb hd hp e h1 h2 h3
    exact ⟨_, exec_memoryWrite, memoryWrite_stores hc hb (List.length_pos_iff.mpr hd) hp e (by rw [h1, h2, h3]; rfl)⟩
  · intro s who addr a d _ hb hd hp e hf
    exact ⟨_, exec_memoryWrite, memoryWrite_held hb (List.length_pos_iff.mpr hd) hp e (by simpa [or_assoc] using hf)⟩

end Sys2Proof.Machine

/-!
O31. It fails at FAULT_REPORT of CONFIG_REJECTED: the report is counted, and when a Whistle that it raises has an ACTION that R671 discards,
the discard is reported as CONFIG_REJECTED too, so that one command counts the class twice.
-/
namespace Sys2Proof.Machine

open Sys2Proof

/-- The state of reset, but with FAULT_SEV 2 (R672). FAULT_ACTION is 0 as at reset, an ACTION that R671 discards. -/
def discardingWhistle : State := State.reset.fput Reg.OBS_WHISTLE_CFG Fld.OBS_WHISTLE_CFG_FAULT_SEV 2

/-- A CONTAINED report of CONFIG_REJECTED by Ledger die 0. -/
def rejectedReport : Instr := .faultReport 0x11 2 0x40 0 0 0 0 0 0 0

/-- The class had no report, and has two after the one command: the report itself and that of the discarded ACTION. -/
theorem rejectedReport_counts_twice {t : State} (h : exec rejectedReport discardingWhistle = .next t) :
    discardingWhistle.fget (Reg.FLT_CLASS_CNT 0x11) Fld.FLT_CLASS_CNT_COUNT = 0 ∧
      t.fget (Reg.FLT_CLASS_CNT 0x11) Fld.FLT_CLASS_CNT_COUNT = 2 := by
  cases h
  decide

/-- Refutes O31: its clause on FAULT_REPORT counts one report of class 0x11, where the discarded ACTION of a Whistle adds another (R671). -/
theorem not_lossesAreCountedAndReclaimed : ¬ Obligations.LossesAreCountedAndReclaimed := by
  unfold Obligations.LossesAreCountedAndReclaimed
  rintro ⟨-, -, -, -, hreport, -⟩
  obtain ⟨t, ht, hcounted, -⟩ := hreport discardingWhistle 0x11 2 0x40 0 0 0 0 0 0 0 (by decide) (by decide) (by decide) (by decide)
    (by decide) (by decide)
  obtain ⟨hbefore, hafter⟩ := rejectedReport_counts_twice ht
  rw [Counted, Rose, hbefore, hafter] at hcounted
  exact absurd hcounted (by decide)

end Sys2Proof.Machine

/-!
O15. It fails at a VE_OP whose ticket settles WITHDRAWN with it. The RETRACTION record of a completion that the ticket left UNCONFIRMED (R96)
goes to the completion ring that `Unconf.cq` names, and the clause asks of the state only that it is canonical, not that the module has that
ring (R61). No command leads to such a state; in one, the TAIL of the ring lies over INTG.TICKET, and SETTLED goes on by two.
-/
namespace Sys2Proof.Machine

open Sys2Proof

/-- A VE_OP that converts one binary32 value (SUBOP 9) from page 1 of HBM to page 3. -/
def oneValueCopied : List Byte :=
  leBytes 2 0x1020 ++ List.replicate 22 0#8 ++ leBytes 2 9 ++ leBytes 1 6 ++ leBytes 1 6 ++ leBytes 4 1 ++
    leBytes 8 (ownAt 0x010000001000) ++ List.replicate 8 0#8 ++ leBytes 8 (ownAt 0x010000003000) ++ List.replicate 8 0#8

/-- It runs on cell 0 with ticket 1. -/
def copyRun : ArrRun := { ring := 0, seq := 0, op := 0x1020, ticket := 1, active := [0], tiles := [], left := 0 }

def copyStarted : Started :=
  { ring := 0, seq := 0, bytes := oneValueCopied, fn := 0, gen := 1, deadline := none, slots := 1, ticket := some 1 }

/-- Ticket 1 is to settle WITHDRAWN. -/
def withdrawnTicket : TicketSt := { num := 1, ring := 0, seq := 0, bytes := oneValueCopied, param := [], withdrawn := some 0x01 }

/-- A completion of ring 0x17F00 that waits for ticket 1; the module has 256 completion rings (R61). The registers CQ_BASE, CQ_CFG and CQ_TAIL
of such a ring lie over CFG, STEEP and TICKET of INTG. -/
def strayCompletion : Unconf := { ring := 0, seq := 1, step := 0, ticket := 1, irq := false, cq := 0x17F00 }

/-- The state of reset, but the VE_OP runs, ticket 1 is the next to settle, and TICKET.NEXT has its largest value. A Steep window of
20,006 ns in force gives the stray ring 64 slots. -/
def strayAtSettle : State :=
  { State.reset with
    regs := [(Reg.INTG_TICKET, 0x1FFFF#64)]
    inForce := [(Reg.INTG_CFG, 2#64), (Reg.INTG_STEEP, 20006#64)]
    started := [copyStarted]
    unconf := [strayCompletion]
    arr := { State.reset.arr with run := some copyRun, tickets := [withdrawnTicket] } }

/-- SETTLED was 1; the one command counts the ticket, and the carry of the record's TAIL counts once more. -/
theorem strayAtSettle_settles_two {t : State} (h : exec (.veOp 0 0 []) strayAtSettle = .next t) :
    strayAtSettle.fget Reg.INTG_TICKET Fld.INTG_TICKET_SETTLED = 1 ∧ t.fget Reg.INTG_TICKET Fld.INTG_TICKET_SETTLED = 3 := by
  cases h
  decide

/-- Refutes O15: SETTLED goes on by two where its clause on VE_OP says one, for a completion of a ring that the module
does not have. -/
theorem not_arrayDealsAppliesAndFolds : ¬ Obligations.ArrayDealsAppliesAndFolds := by
  unfold Obligations.ArrayDealsAppliesAndFolds
  rintro ⟨-, -, -, -, hve⟩
  obtain ⟨t, ht, -, -, -, -, -, hsettled⟩ := hve strayAtSettle 0 0 [] copyRun copyStarted rfl rfl (by decide)
  obtain ⟨hbefore, hafter⟩ := strayAtSettle_settles_two ht
  have h := hsettled withdrawnTicket (by decide) rfl rfl hbefore.symm rfl
  rw [hafter] at h
  exact absurd (h.trans (congrArg (fun n => (n + 1) % 65536) hbefore)) (by decide)

end Sys2Proof.Machine

/-!
O16. The choice of the descriptor for the overlap window (spec/04 R191-R194), and the writes of the fence registers (R198).
-/
namespace Sys2Proof.Machine

open Sys2Proof

variable {s : State} {r : ArrRun} {d : Started} {n : Nat} {f : Fetched} {before after : List Nat}

/-- A search ends at the first element that has an answer. -/
theorem findSome?_first {α β : Type} {g : α → Option β} {xs ys : List α} {a : α} {b : β} (hx : ∀ x ∈ xs, g x = none) (ha : g a = some b) :
    (xs ++ a :: ys).findSome? g = some b := by
  rw [List.findSome?_append, List.findSome?_eq_none_iff.mpr hx, Option.none_or, List.findSome?_cons_of_isSome (by rw [ha]; rfl), ha]

/-- The state in which the Tiler has chosen the head f of ring n, before the cells are clocked (R192-R194). -/
def State.prefetched (s : State) (n : Nat) (f : Fetched) : State :=
  let cells := if dOPCODE f.bytes = 0x1001 then s.activeSet else []
  { s with
    rrLast := tblPut (fun _ => 31) s.rrLast 0 n
    arr := { s.arr with
      prefetch := some (n, f.seq), preCells := cells, tilerHits := s.arr.tilerHits.filter (·.2 == s.arr.half)
      pre := if dOPCODE f.bytes = 0x1001 then s.fetchAhead (tileP f.bytes (s.peekParam n f)) cells else [] } }

/-- R86, R191. The first ring of the round-robin order whose head is eligible is chosen. -/
theorem execPrefetchStart_first (hr : s.arr.run = some r) (hd : s.findStarted r.ring r.seq = some d)
    (ho : s.cfg Reg.ARR_TILER_CFG Fld.ARR_TILER_CFG_OVERLAP = 1) (hp : s.arr.prefetch = none) (horder : s.arrayOrder = before ++ n :: after)
    (hb : ∀ m, m ∈ before → ∀ g, (s.sqSt m).fetched.head? = some g → s.eligible d m g = false)
    (hf : (s.sqSt n).fetched.head? = some f) (he : s.eligible d n f = true) :
    execPrefetchStart s = .next (s.prefetched n f).clockCells := by
  obtain ⟨rest, hrest⟩ := List.head?_eq_some_iff.mp hf
  simp only [execPrefetchStart, hr, hd, ho, hp, horder, decide_true, Option.isNone_none, Bool.and_self, if_true]
  rw [findSome?_first (b := (n, f)) ?others ?chosen]
  case others =>
    intro m hm
    cases hq : (s.sqSt m).fetched with
    | nil => rfl
    | cons g gs => simp [hb m hm g (by rw [hq]; rfl)]
  case chosen => simp [hrest, he]
  simp only [State.prefetched, hr]

theorem State.clockCells_arr : s.clockCells.arr = s.arr :=
  (State.clockCells_only (p := { regs := true, pwr := true }) rfl (Only.refl _ _)).same_arr rfl

theorem State.clockCells_rrLast : s.clockCells.rrLast = s.rrLast :=
  (State.clockCells_only (p := { regs := true, pwr := true }) rfl (Only.refl _ _)).same_rrLast rfl

/-- The chunks that are fetched ahead are those of the active cells, for a SWEEP (R194). -/
theorem State.prefetched_pre : (s.prefetched n f).arr.pre =
    (if dOPCODE f.bytes = 0x1001 then s.fetchAhead (tileP f.bytes (s.peekParam n f)) s.activeSet else []) := by
  unfold State.prefetched
  by_cases h : dOPCODE f.bytes = 0x1001 <;> simp only [h, if_true, if_false]

theorem execFenceClearWrite_block {value : Word} : execFenceClearWrite none value s =
    .next { s with arr := { s.arr with clearBlock := s.arr.clearBlock ||| (s.reg Reg.ARR_FENCE_BLOCK &&& value).toNat } } := rfl

theorem execFenceClearWrite_cell {b : Nat} {value : Word} (hb : b < 64) : execFenceClearWrite (some b) value s =
    .next { s with arr := { s.arr with
      clearCell := tblPut zeroAt s.arr.clearCell b (tblGet zeroAt s.arr.clearCell b ||| (s.reg (Reg.ARR_FENCE_CELL b) &&& value).toNat) } } := by
  unfold execFenceClearWrite
  exact congrArg Host.Outcome.next (if_pos hb)

/-- Settles O16: the chosen ring is the first of the order with an eligible head, and a write of a fence register notes the set bits that it
holds as 1. -/
theorem prefetchAndFenceClearing : Obligations.PrefetchAndFenceClearing := by
  unfold Obligations.PrefetchAndFenceClearing
  refine ⟨?_, ?_, ?_⟩
  · intro s r d n f before after hr hd ho hp horder hb hf he
    have e := execPrefetchStart_first hr hd ho hp horder hb hf he
    have harr : (s.prefetched n f).clockCells.arr = (s.prefetched n f).arr := State.clockCells_arr
    exact ⟨_, e, congrArg (·.prefetch) harr, congrArg (·.run) harr, congrArg (·.preCells) harr,
      (congrArg (·.pre) harr).trans State.prefetched_pre, State.clockCells_rrLast, execPrefetchStart_only e⟩
  · intro s value
    refine ⟨_, execFenceClearWrite_block, fun i hi => ?_, rfl, rfl, execFenceClearWrite_only execFenceClearWrite_block⟩
    show (s.arr.clearBlock ||| (s.reg Reg.ARR_FENCE_BLOCK &&& value).toNat).testBit i = _
    rw [Nat.testBit_or, BitVec.testBit_toNat, BitVec.getLsbD_and]
  · intro s b value hb
    exact ⟨_, execFenceClearWrite_cell hb, rfl, rfl, rfl, execFenceClearWrite_only (execFenceClearWrite_cell hb)⟩

end Sys2Proof.Machine

/-!
O17. It fails at a SCRUB_READ whose burst is corrected while the place of the scrubber lies past the 2^30 bursts of its stack. Where the
clauses on a failing page and on an uncorrectable burst ask for a place within the stack, this one does not, though SCRUB_READ itself leaves
every place below 2^30 (R223). Past the end the burst is the next stack's, and that stack counts the correction (R220).
-/
namespace Sys2Proof.Machine

open Sys2Proof

/-- The state of reset, but every die is powered, and the scrubber of stack 0 stands one burst past the end of its stack. -/
def scrubberPastStack : State := { State.reset with dark := [], scrub := [(0, 2 ^ 30)] }

/-- CE_COUNT of stack 0 stays 0; that of stack 1, whose burst 0 was read, becomes 1. -/
theorem scrubberPastStack_counts_next_stack {t : State} (h : exec (.scrubRead 0 .corrected) scrubberPastStack = .next t) :
    scrubberPastStack.fget (Reg.LDG_ECC_STATUS 0 0) Fld.LDG_ECC_STATUS_CE_COUNT = 0 ∧
      t.fget (Reg.LDG_ECC_STATUS 0 0) Fld.LDG_ECC_STATUS_CE_COUNT = 0 ∧
      t.fget (Reg.LDG_ECC_STATUS 0 1) Fld.LDG_ECC_STATUS_CE_COUNT = 1 := by
  cases h
  decide

/-- Refutes O17: its clause on a corrected burst has CE_COUNT of the scrubber's stack rise, where the burst lies in the next stack for a
place that the clause does not keep below 2^30. -/
theorem not_scrubbingAndCutTokens : ¬ Obligations.ScrubbingAndCutTokens := by
  unfold Obligations.ScrubbingAndCutTokens
  rintro ⟨hread, -⟩
  obtain ⟨-, hcorrected⟩ := hread scrubberPastStack 0 (by decide) (by decide) (by decide) (by decide) (.inl (by decide))
  obtain ⟨t, ht, -, hrose, -⟩ := hcorrected .corrected (.inr rfl) (by decide)
  obtain ⟨hbefore, hafter, -⟩ := scrubberPastStack_counts_next_stack ht
  rw [Rose, hbefore, hafter] at hrose
  exact absurd hrose (by decide)

end Sys2Proof.Machine

/-!
O18. It fails at the GATHER_OPEN of an accepted range. After the answer every GATHER of the engine's region issues rows (R258), and a GATHER
is found again by its ring and RING_SEQ. The clause asks that no GATHER of the region has a row left to issue, but not that a ring and
RING_SEQ name one GATHER. In the state below they name two, as no two descriptors under way should: the one found first belongs to another
region, has a row left, and fails for want of a route (R255).
-/
namespace Sys2Proof.Machine

open Sys2Proof

/-- A GATHER of region 0 whose one row has been asked for, and whose OPEN message has TAG 7. -/
def openingGather : GatherRun :=
  { ring := 0, seq := 0, region := 0, entry := [], bags := [[{ idx := 0, st := 2 }]], openTag := 7 }

/-- A GATHER of region 1 with a row still to issue. -/
def unissuedGather : GatherRun :=
  { ring := 1, seq := 0, region := 1, entry := [], bags := [[{ idx := 0, st := 1 }]], openTag := 8 }

/-- A second GATHER of the same ring and RING_SEQ, in region 0, with nothing to issue. -/
def twinGather : GatherRun := { unissuedGather with region := 0, bags := [] }

def unissuedStarted : Started := { ring := 1, seq := 0, bytes := [], fn := 0x14, gen := 1, deadline := none, slots := 1 }

/-- The target accepts the range of TAG 7 (KIND 0x14). -/
def rangeAccepted : Packet := { dst := 0xFFFF, src := 0xFFFF, kind := 0x14, tag := 7 }

/-- The state of reset, but with these three GATHERs and the answer of the target delivered. -/
def twoGathersOneSeq : State :=
  { State.reset with
    started := [unissuedStarted]
    gathers := [openingGather, unissuedGather, twinGather]
    fab := { State.reset.fab with delivered := [rangeAccepted] } }

/-- The row of shard-map entry 0 belongs to chip 0, to which region 1 has no route: its descriptor had no outcome, and ends FAULTED. -/
theorem twoGathersOneSeq_fails_other {t : State} (h : exec (.gatherOpen rangeAccepted) twoGathersOneSeq = .next t) :
    twoGathersOneSeq.endOf 1 0 = none ∧ t.endOf 1 0 = some stFAULTED := by
  cases h
  decide

/-- Refutes O18: its clause on an accepted range leaves every started descriptor as it was, where one of another region fails that shares
its ring and RING_SEQ with a GATHER of the region. -/
theorem not_gatherReadsRows : ¬ Obligations.GatherReadsRows := by
  unfold Obligations.GatherReadsRows
  rintro ⟨-, -, -, -, -, -, -, haccepted, -⟩
  obtain ⟨t, ht, -, hstarted, -⟩ := haccepted twoGathersOneSeq { twoGathersOneSeq with fab := State.reset.fab } 0 0 rangeAccepted openingGather
    (by decide) rfl (by decide) (by decide) (by decide) (by decide) rfl (by decide)
  obtain ⟨hbefore, hafter⟩ := twoGathersOneSeq_fails_other ht
  have hsame : t.endOf 1 0 = twoGathersOneSeq.endOf 1 0 := by simp only [State.endOf, State.findStarted, hstarted]
  rw [hbefore, hafter] at hsame
  exact absurd hsame (by decide)

end Sys2Proof.Machine

/-!
SUPPORT. What the writes of a tag-aware engine do to started descriptors: a cut that stops on their way may end its own, and with no cut on
they touch none (spec/09 R412-R414, spec/13 R567-R574).
-/
namespace Sys2Proof.Machine

open Sys2Proof

variable {s t u : State}

/-- A step that leaves the descriptors alone. -/
theorem State.findStarted_congr {n seq : Nat} (e : t.started = s.started) : t.findStarted n seq = s.findStarted n seq := by
  rw [State.findStarted, State.findStarted, e]

/-- From s to t a started descriptor stays as it is, but that a cut that stops may end one without outcome FAULTED (R412). -/
def MayFault (s t : State) : Prop :=
  ∀ n seq d, s.findStarted n seq = some d → t.findStarted n seq = some d ∨
    (d.done = none ∧ ∃ o, o.status = stFAULTED ∧ t.findStarted n seq = some { d with done := some o })

theorem MayFault.refl (s : State) : MayFault s s := fun _ _ _ h => .inl h

theorem MayFault.trans (h : MayFault s t) (k : MayFault t u) : MayFault s u := by
  intro n seq d hd
  rcases h n seq d hd with ht | ⟨hn, o, ho, ht⟩
  · exact k n seq d ht
  · rcases k n seq _ ht with hu | ⟨hn', -⟩
    · exact .inr ⟨hn, o, ho, hu⟩
    · exact absurd hn' (by simp)

theorem MayFault.started (e : u.started = t.started) (h : MayFault s t) : MayFault s u := by
  intro n seq d hd
  rw [State.findStarted_congr e]
  exact h n seq d hd

theorem MayFault.foldl {α : Type} {f : State → α → State} {l : List α} (h : MayFault s t) (hf : ∀ x a, MayFault x (f x a)) :
    MayFault s (l.foldl f t) := by
  induction l generalizing t with
  | nil => exact h
  | cons a l ih => exact ih (h.trans (hf t a))

/-- A search passes by an element that was changed, when it wants the element neither before nor after. -/
theorem find_updFirst_other {α : Type} {p q : α → Bool} {f : α → α} {l : List α}
    (h : ∀ a, p a = true → q a = false ∧ q (f a) = false) : (updFirst p f l).find? q = l.find? q := by
  induction l with
  | nil => rfl
  | cons a l ih =>
    by_cases hp : p a = true
    · obtain ⟨h1, h2⟩ := h a hp
      simp only [updFirst, hp, if_true, List.find?_cons, h1, h2]
    · simp only [Bool.not_eq_true] at hp
      simp only [updFirst, hp, Bool.false_eq_true, if_false, List.find?_cons, ih]

theorem State.findStarted_setDone_other {m k n seq : Nat} {o : Done} (h : ¬(m = n ∧ k = seq)) :
    (s.setDone m k o).findStarted n seq = s.findStarted n seq := by
  refine find_updFirst_other fun d hd => ?_
  have hne : (d.ring == n && d.seq == seq) = false := by
    simp only [Bool.and_eq_true, beq_iff_eq] at hd
    obtain ⟨rfl, rfl⟩ := hd
    simpa using h
  refine ⟨hne, ?_⟩
  split <;> exact hne

/-- An outcome FAULTED ends a descriptor that had none, and leaves every other one. -/
theorem MayFault.setDone {m k : Nat} {o : Done} (ho : o.status = stFAULTED) (h : MayFault s t) : MayFault s (t.setDone m k o) := by
  refine h.trans fun n seq d hd => ?_
  by_cases e : m = n ∧ k = seq
  · obtain ⟨rfl, rfl⟩ := e
    cases hn : d.done with
    | none =>
      refine .inr ⟨rfl, _, ?_, State.findStarted_setDone hd hn⟩
      rw [Started.outcome_status, State.doneDie_status, Started.located_status, ho]
    | some _ => exact .inl (State.findStarted_setDone_done hd (by rw [hn]; rfl))
  · rw [State.findStarted_setDone_other e]
    exact .inl hd

/-- What the write of a tag-aware engine may change besides the outcome of a cut's descriptor, and what it may change with no cut on. -/
def Parts.engWrite : Parts := (Parts.report.or Parts.memory).or { heldWr := true, arr := true, sump := true }
def Parts.engWriteNoCut : Parts := (Parts.report.or Parts.memory).or { heldWr := true, arr := true }

theorem MayFault.only (k : Only Parts.engWrite t u) (h : MayFault s t) : MayFault s u := h.started (k.same_started rfl)

/-! ### What the copy of a unit may end (R412, R567, R574) -/

theorem State.cutFails_mayFault {st cls : Nat} : MayFault s (s.cutFails st cls) := by
  unfold State.cutFails
  split
  · exact ((MayFault.refl s).setDone rfl).only (State.stopCut_only rfl (Only.refl _ _))
  · exact MayFault.refl s

theorem State.deltaFull_mayFault {st : Nat} {c : Cut} : MayFault s (s.deltaFull st c) := by
  have k := (MayFault.refl s).only (State.foldAll_only (step := c.step) rfl
    (State.fput_only (off := Reg.CKP_STATUS) (f := Fld.CKP_STATUS_SHADOW_VALID) (v := 0) rfl (Only.refl _ s)))
  unfold State.deltaFull
  split
  · rename_i s1 cls e
    rw [e] at k
    exact k.trans State.cutFails_mayFault
  · rename_i s1 e
    rw [e] at k
    dsimp only
    split <;> exact k.started rfl

theorem State.putImage_mayFault {st ip : Nat} {d : List Byte} : MayFault s (s.putImage st ip d) := by
  unfold State.putImage
  split
  · exact MayFault.refl s
  · extract_lets s1
    have h1 : MayFault s s1 := by
      unfold s1
      split
      · exact State.deltaFull_mayFault
      · exact MayFault.refl s
    clear_value s1
    split
    · exact h1
    · extract_lets e w s2 s3 s4
      have h2 : Only Parts.engWrite s1 s2 := by
        unfold s2
        split
        · split
          · exact State.writeImagePage_only rfl (Only.refl _ _)
          · exact Only.refl _ _
        · exact Only.put_sump rfl (State.writeSump_only rfl (State.writeImagePage_only rfl (Only.refl _ _)))
      clear_value s2
      exact h1.only (State.fput_only rfl (State.bump_only rfl (Only.put_sump rfl (State.evCount_only rfl h2))))

theorem State.copyUnit_mayFault {r : Prot} {page : Nat} : MayFault s (s.copyUnit r page) := by
  unfold State.copyUnit
  have k := (MayFault.refl s).only (Only.foldChecks (f := fun s p => s.sumpCheck (sumpCtx (page / 2 ^ 24)) p) (l := unitOf r page)
    (Only.refl _ s) (fun _ _ hx => State.sumpCheck_only rfl hx))
  extract_lets ps st first
  split
  · rename_i s1 cls e
    rw [e] at k
    exact k.trans State.cutFails_mayFault
  · rename_i s1 e
    rw [e] at k
    extract_lets step img ip s2 s3 s4 s5
    have h5 : MayFault s1 s5 := by
      unfold s5
      split
      · have h2 : MayFault s1 s2 := (MayFault.refl s1).foldl fun _ _ => State.putImage_mayFault
        have h3 : Only Parts.engWrite s2 s3 := State.writeSump_only rfl (Only.refl _ _)
        have h4 : Only Parts.engWrite s2 s4 := h3.foldl fun _ _ hx => Only.ite hx (State.sealSump_only rfl hx)
        exact h2.only (State.bump_only rfl h4)
      · exact State.putImage_mayFault
    exact (k.trans h5).only (State.countInactive_only rfl ((Only.refl _ s5).foldl fun _ _ hx => State.clearInactive_only rfl hx))

/-! ### Writes of a tag-aware engine (R53, R413, R568) -/

/-- From s to t an engine has written: a cut that stops may end FAULTED, and with no cut on no descriptor is touched. -/
structure EngWrote (s t : State) : Prop where
  faults : MayFault s t
  noCut  : s.sump.cut = none → Only Parts.engWriteNoCut s t

theorem EngWrote.refl (s : State) : EngWrote s s := ⟨MayFault.refl s, fun _ => Only.refl _ s⟩

theorem EngWrote.trans (h : EngWrote s t) (k : EngWrote t u) : EngWrote s u :=
  ⟨h.faults.trans k.faults, fun hc => (h.noCut hc).trans (k.noCut (by rw [(h.noCut hc).same_sump rfl, hc]))⟩

theorem EngWrote.only (k : Only Parts.engWriteNoCut t u) (h : EngWrote s t) : EngWrote s u :=
  ⟨h.faults.only (k.weaken rfl), fun hc => (h.noCut hc).trans k⟩

theorem EngWrote.foldl {α : Type} {f : State → α → State} {l : List α} (h : EngWrote s t) (hf : ∀ x a, EngWrote x (f x a)) :
    EngWrote s (l.foldl f t) := by
  induction l generalizing t with
  | nil => exact h
  | cons a l ih => exact ih (h.trans (hf t a))

theorem EngWrote.foldChecks {α : Type} {f : State → α → State × Option Nat} {l : List α} (hf : ∀ x a, EngWrote x (f x a).1) :
    EngWrote s (foldChecks s f l).1 := by
  induction l generalizing s with
  | nil => exact EngWrote.refl s
  | cons a l ih =>
    have ha := hf s a
    rw [Machine.foldChecks]
    split
    · rename_i s' e
      rw [e] at ha
      exact ha.trans ih
    · exact ha

/-- Only while a cut is on does a page wait for its copy. -/
theorem State.cut_of_uncopied {page : Nat} {r : Prot} (h : s.uncopied page = some r) : s.sump.cut ≠ none := by
  intro hc
  simp [State.uncopied, hc] at h

theorem State.copyUncopied_engWrote {page : Nat} {r : Prot} (h : s.uncopied page = some r) : EngWrote s (s.copyUnit r page) :=
  ⟨State.copyUnit_mayFault, fun hc => absurd hc (State.cut_of_uncopied h)⟩

theorem State.sumpGuard_engWrote {page : Nat} : EngWrote s (s.sumpGuard page) := by
  unfold State.sumpGuard
  split
  · exact (State.copyUncopied_engWrote ‹_›).only (State.bump_only rfl (Only.refl _ _))
  · exact EngWrote.refl s

theorem State.admitHeld_engWrote {ps : List Nat} : EngWrote s (s.admitHeld ps) := by
  refine (EngWrote.refl s).foldl fun x w => ?_
  split
  · exact EngWrote.refl x
  · extract_lets x1
    have h1 : EngWrote x x1 := by
      refine (EngWrote.refl x).foldl fun y p => ?_
      split
      · exact State.copyUncopied_engWrote ‹_›
      · exact EngWrote.refl y
    exact h1.only (State.writePlain_only rfl (Only.set rfl (Only.refl _ x1)))

theorem State.readyPages_engWrote {ps : List Nat} : EngWrote s (s.readyPages ps) :=
  ((EngWrote.refl s).foldl fun _ _ => State.sumpGuard_engWrote).trans State.admitHeld_engWrote

theorem State.engWrite_engWrote {a : Nat} {d : List Byte} : EngWrote s (s.engWrite a d) :=
  State.readyPages_engWrote.only (State.write_only rfl (Only.refl _ _))

theorem State.awareWrites_engWrote {c : Ctx} {fmt step : Nat} {bid : Nat → Nat} {ws : List (Nat × List Byte)} :
    EngWrote s (s.awareWrites c fmt step bid ws).1 := by
  unfold State.awareWrites
  extract_lets pl pages s0 cover bad s1 s2 s3
  have h0 : EngWrote s s0 := ((EngWrote.refl s).only (State.unplaced_only rfl (Only.refl _ _))).trans State.readyPages_engWrote
  have h1 : EngWrote s s1 := h0.foldl fun _ _ => State.engWrite_engWrote
  have h2 : EngWrote s s2 := h1.foldl fun x p =>
    (EngWrote.refl x).only (Only.ite (State.sealPage_only rfl (Only.refl _ _)) (Only.ite (Only.refl _ _) (State.sealPage_only rfl (Only.refl _ _))))
  exact h2.foldl fun x p => (EngWrote.refl x).only (State.tagMismatch_only rfl (Only.refl _ _))

theorem State.updPut_engWrote {r : Nat} {b : List Byte} {v : UpdRun} {ws : List (Nat × Nat × List Byte)} : EngWrote s (s.updPut r b v ws).1 := by
  unfold State.updPut
  extract_lets stale
  split
  · exact EngWrote.foldChecks fun _ _ => State.awareWrites_engWrote
  · exact (EngWrote.refl s).foldl fun x p => (EngWrote.refl x).only (State.tagMismatch_only rfl (Only.refl _ _))

theorem State.promote_engWrote {r : Nat} {v : UpdRun} {b : List Byte} : EngWrote s (s.promote r v b).1 := by
  unfold State.promote
  extract_lets e
  split
  · exact State.awareWrites_engWrote
  · exact EngWrote.refl s

theorem State.setcoefOne_engWrote {c : Ctx} {b : List Byte} {r : Nat} : EngWrote s (s.setcoefOne c b r).1 := by
  unfold State.setcoefOne
  extract_lets e rd x a old act prev ver tv q
  have h : EngWrote s x := (EngWrote.refl s).only (State.awareChecks_only rfl (Only.refl _ _))
  split
  · exact h
  · split
    · exact h
    · exact h.trans State.awareWrites_engWrote

end Sys2Proof.Machine

/-!
SUPPORT. The Update engines: a run and its descriptor, one unit of an update, its start, checks that pass, SETCOEF and VE_TAKEOVER
(spec/06 R275-R299).
-/
namespace Sys2Proof.Machine

open Sys2Proof

variable {s t z : State} {r n seq i g count cls blk : Nat} {bad : Option Nat} {b : List Byte} {u v : UpdRun} {d y : Started} {o : Done} {c : Ctx}
  {ecc : EccFinds}

/-! ### The run of an engine and its descriptor (R299, R300) -/

theorem State.updRun_congr (e : t.upd = s.upd) : t.updRun r = s.updRun r := by rw [State.updRun, State.updRun, e]

theorem State.updRun_setUpd (w : tblWf noUpd s.upd = true) {x : Option UpdRun} : (s.setUpd r x).updRun r = x := by
  rw [State.updRun, State.setUpd, tblGet_put noUpd ((tblWf_iff noUpd).mp w).1, if_pos rfl]

/-- An update that ends frees its engine. -/
theorem State.updRun_endUpd (w : tblWf noUpd s.upd = true) : (s.endUpd r o).updRun r = none := by
  unfold State.endUpd
  split
  · assumption
  · exact (State.updRun_setUpd w : (s.setUpd r none).updRun r = none)

theorem Started.located_result {x : Done} : (d.located x).result = x.result := by
  unfold Started.located
  split <;> rfl

/-- The descriptor of the run gets the outcome. -/
theorem State.findStarted_endUpd (hu : s.updRun r = some u) (hd : s.findStarted u.ring u.seq = some y) (hn : y.done = none) :
    ∃ x, (s.endUpd r o).findStarted u.ring u.seq = some { y with done := some x } ∧ x.status = o.status ∧ x.result = o.result := by
  unfold State.endUpd
  simp only [hu]
  refine ⟨_, State.findStarted_setDone hd hn, ?_⟩
  rw [Started.outcome_status, State.doneDie_status, Started.located_status, Started.outcome_result, State.doneDie_result,
    Started.located_result]
  cases u.ve <;> exact ⟨rfl, rfl⟩

/-- One that has its outcome keeps it. -/
theorem State.findStarted_endUpd_done (hu : s.updRun r = some u) (hd : s.findStarted u.ring u.seq = some y) (hn : y.done.isSome = true) :
    (s.endUpd r o).findStarted u.ring u.seq = some y := by
  unfold State.endUpd
  simp only [hu]
  exact State.findStarted_setDone_done hd hn

theorem State.endOf_of_findStarted {x : Done} (h : s.findStarted n seq = some y) (hx : y.done = some x) : s.endOf n seq = some x.status := by
  simp [State.endOf, h, hx]

theorem State.endOf_endUpd (hu : s.updRun r = some u) (hd : s.findStarted u.ring u.seq = some y) (hn : y.done = none) :
    (s.endUpd r o).endOf u.ring u.seq = some o.status := by
  obtain ⟨x, hx, hs, -⟩ := State.findStarted_endUpd (o := o) hu hd hn
  rw [State.endOf_of_findStarted hx rfl, hs]

/-- A started descriptor without outcome, or with the one that a cut gave it. -/
def Started.openOrFaulted (y : Started) : Prop := y.done = none ∨ ∃ x, y.done = some x ∧ x.status = stFAULTED

theorem MayFault.findStarted (h : MayFault s t) (hd : s.findStarted n seq = some d) (hn : d.done = none) :
    ∃ y, t.findStarted n seq = some y ∧ y.openOrFaulted := by
  rcases h n seq d hd with ht | ⟨-, x, hx, ht⟩
  · exact ⟨d, ht, .inl hn⟩
  · exact ⟨_, ht, .inr ⟨x, rfl, hx⟩⟩

theorem State.endOf_endUpd_openOrFaulted (hu : s.updRun r = some u) (hd : s.findStarted u.ring u.seq = some y) (hy : y.openOrFaulted) :
    (s.endUpd r o).endOf u.ring u.seq = some o.status ∨ (s.endUpd r o).endOf u.ring u.seq = some stFAULTED := by
  rcases hy with hn | ⟨x, hx, hs⟩
  · exact .inl (State.endOf_endUpd hu hd hn)
  · rw [State.endOf_of_findStarted (State.findStarted_endUpd_done hu hd (by rw [hx]; rfl)) hx, hs]
    exact .inr rfl

/-! ### One unit (R287, R290-R293) -/

/-- The checked reads of unit i, what it computes, and its writes: the steps that `updOne` takes. -/
def State.unitRead (s : State) (r : Nat) (b : List Byte) (u : UpdRun) (i : Nat) : State × Option Nat :=
  foldChecks s (fun s x => s.updCheck (updCtx u r b) (s.updWhole u b) x) (s.updReads u b i)
def State.unitWork (s : State) (r : Nat) (b : List Byte) (u : UpdRun) (i : Nat) : List (Nat × Nat × List Byte) × UpdRun :=
  (s.unitRead r b u i).1.updUnit u b i
def State.unitPut (s : State) (r : Nat) (b : List Byte) (u : UpdRun) (i : Nat) : State × Option Nat :=
  (s.unitRead r b u i).1.updPut r b u (s.unitWork r b u i).1

theorem State.updOne_goesOn (hq : (s.unitRead r b u i).2 = none) (hx : (s.unitPut r b u i).2 = none) (hl : i + 1 ≠ updTotal u b) :
    s.updOne r b u i false = ((s.unitPut r b u i).1.updDid r b i u (s.unitWork r b u i).2, true) := by
  unfold State.unitPut State.unitWork State.unitRead at *
  simp only [State.updOne, hq, hx, Bool.false_and, Bool.false_eq_true, if_false, if_neg hl]

theorem State.updOne_last (hq : (s.unitRead r b u i).2 = none) (hx : (s.unitPut r b u i).2 = none) (hl : i + 1 = updTotal u b) :
    s.updOne r b u i false =
      ((((s.unitPut r b u i).1.updDid r b i u (s.unitWork r b u i).2).sealDense u b).endUpd r (updDone (s.unitWork r b u i).2), false) := by
  unfold State.unitPut State.unitWork State.unitRead at *
  simp only [State.updOne, hq, hx, Bool.false_and, Bool.false_eq_true, if_false, if_pos hl]

theorem State.updOne_mismatch (hq : (s.unitRead r b u i).2 = none) (hv : u.ve = none) :
    s.updOne r b u i true = ((s.unitRead r b u i).1.updMismatch r u b, false) := by
  unfold State.unitRead at *
  simp only [State.updOne, hq, hv, Option.isNone_none, Bool.and_self, if_true]

/-- A unit changes the counts of the run and its mark of the DIAG form alone. -/
theorem State.updUnit_run : ∃ m k g, (s.updUnit u b i).2 = { u with nonfinite := m, singular := k, diag := g } := by
  unfold State.updUnit
  dsimp only
  repeat' split
  all_goals exact ⟨_, _, _, rfl⟩

theorem State.unitWork_ring : (s.unitWork r b u i).2.ring = u.ring := by
  obtain ⟨m, k, g, h⟩ := State.updUnit_run (s := (s.unitRead r b u i).1) (u := u) (b := b) (i := i)
  rw [State.unitWork, h]

theorem State.unitWork_seq : (s.unitWork r b u i).2.seq = u.seq := by
  obtain ⟨m, k, g, h⟩ := State.updUnit_run (s := (s.unitRead r b u i).1) (u := u) (b := b) (i := i)
  rw [State.unitWork, h]

theorem State.unitRead_only : Only (Parts.report.or { poison := true }) s (s.unitRead r b u i).1 :=
  (Only.refl _ s).foldChecks fun _ _ hx => State.updCheck_only rfl hx

theorem State.unitPut_engWrote : EngWrote s (s.unitPut r b u i).1 :=
  ((EngWrote.refl s).only (State.unitRead_only.weaken rfl)).trans State.updPut_engWrote

theorem State.unitPut_upd : (s.unitPut r b u i).1.upd = s.upd :=
  ((State.updPut_only rfl (State.unitRead_only.weaken rfl) :
    Only (Parts.engWrite.or { started := true }) s (s.unitPut r b u i).1)).same_upd rfl

theorem State.unitPut_keeps : Keeps s (s.unitPut r b u i).1 :=
  State.updPut_keeps ((Keeps.refl s).foldChecks fun _ _ hx => State.updCheck_keeps hx)

/-! ### After a unit (R284, R292, R666) -/

theorem State.findStarted_markFallback (h : s.findStarted n seq = some y) :
    (s.updStarted n seq (fun d => { d with fallback := true })).findStarted n seq = some { y with fallback := true } := by
  have e := State.findStarted_updStarted (s := s) (n := n) (seq := seq) (f := fun d => { d with fallback := true }) (fun _ => ⟨rfl, rfl⟩)
  rw [e, h]
  rfl

/-- The descriptor is marked when blocks took the DIAG form (R284, R286). -/
def State.markedFor (s : State) (u v : UpdRun) : State :=
  if v.diag then s.updStarted u.ring u.seq (fun d => { d with fallback := true }) else s

/-- A unit that is done marks the descriptor and puts the run in place; the rest is events, registers and a report. -/
theorem State.updDid_report : Only Parts.report ((s.markedFor u v).setUpd r (some v)) (s.updDid r b i u v) := by
  unfold State.updDid
  extract_lets s0 s1 s2
  have he : Only Parts.report s0 (s0.updEvents r u b i) := State.updEvents_only rfl (Only.refl _ s0)
  have h1 : Only Parts.report (s0.setUpd r (some v)) s1 := State.fput_only rfl (congrArg (State.setUpd · r (some v)) he)
  have h2 : Only Parts.report (s0.setUpd r (some v)) s2 := State.bump_only rfl (State.bump_only rfl h1)
  exact Only.ite (State.report_only rfl h2) h2

theorem State.findStarted_updDid (h : s.findStarted u.ring u.seq = some y) :
    (s.updDid r b i u v).findStarted u.ring u.seq = some (if v.diag then { y with fallback := true } else y) := by
  refine (State.findStarted_congr (State.updDid_report.same_started rfl)).trans ?_
  show (s.markedFor u v).findStarted u.ring u.seq = _
  unfold State.markedFor
  split
  · exact State.findStarted_markFallback h
  · exact h

theorem Started.openOrFaulted_marked (h : y.openOrFaulted) : (if v.diag then { y with fallback := true } else y).openOrFaulted := by
  split <;> exact h

theorem State.updDid_upd : (s.updDid r b i u v).upd = (s.setUpd r (some v)).upd := by
  refine (State.updDid_report.same_upd rfl).trans ?_
  unfold State.markedFor
  split <;> rfl

theorem State.updRun_updDid (w : tblWf noUpd s.upd = true) : (s.updDid r b i u v).updRun r = some v :=
  (State.updRun_congr State.updDid_upd).trans (State.updRun_setUpd w)

/-- PROGRESS stands past the unit: neither the counts nor a report touch it. -/
theorem State.progress_updDid (w : tblWf regReset s.regs = true) (hr : r < 8) :
    (s.updDid r b i u v).fget (Reg.UPD_PROGRESS r) Fld.UPD_PROGRESS_NEXT = (i + 1) % 2 ^ 32 := by
  unfold State.updDid
  extract_lets s0 s1 s2
  have h0 : (((s0.updEvents r u b i).setUpd r (some v))).regs = s.regs := by
    refine ((State.updEvents_only (p := { obs := true }) rfl (Only.refl _ s0)).same_regs rfl).trans ?_
    unfold s0
    split <;> rfl
  have w0 : tblWf regReset ((s0.updEvents r u b i).setUpd r (some v)).regs = true := h0 ▸ w
  have hs : ∀ x, x ∈ reportRegs 0x0E → x ≠ Reg.UPD_PROGRESS r := by
    intro x hx e
    subst e
    simp only [reportRegs, List.mem_cons, List.not_mem_nil, or_false, Reg.UPD_PROGRESS, Reg.FLT_CLASS_CNT, Reg.FLT_SEV_CNT, Reg.FLT_SUPPRESSED,
      Reg.EVR_HEAD_SEQ, Reg.EVR_DROPPED, Reg.OBS_WHISTLE_STATUS] at hx
    omega
  have hb : Reg.UPD_STATUS r ≠ Reg.UPD_PROGRESS r := by
    unfold Reg.UPD_STATUS Reg.UPD_PROGRESS
    omega
  have k2 : RegsBut (fun x => x ≠ Reg.UPD_PROGRESS r) s1 s2 :=
    RegsBut.bump (l := fun x => x ≠ Reg.UPD_PROGRESS r) hb (RegsBut.bump (l := fun x => x ≠ Reg.UPD_PROGRESS r) hb (RegsBut.refl _ s1))
  have k := (RegsBut.ite (c := (decide (u.singular = 0) && v.singular != 0) = true)
    (RegsBut.report (sev := 0) (c := { updCtx u r b with vals := [i] }) hs k2) k2).same (State.fput_wf w0) (Reg.UPD_PROGRESS r) (fun h => h rfl)
  rw [State.fget, k]
  exact State.fget_fput w0 ⟨by decide, by decide⟩

/-! ### The commands (R275, R287, R290) -/

/-- The state in which a command of an Update engine acts: what the codes find on its reads changes neither runs nor canonical form. -/
theorem State.eccAll_upd : (z.eccAll ecc).upd = z.upd :=
  (State.eccAll_only (p := { regs := true, poison := true, flt := true, obs := true }) rfl (Only.refl _ z)).same_upd rfl

theorem State.findStarted_key (h : s.findStarted n seq = some d) : d.ring = n ∧ d.seq = seq := by
  simpa using List.find?_some h

theorem exec_updateDense (hd : (z.eccAll ecc).findStarted n seq = some d) (hn : d.done = none) (ho : dOPCODE d.bytes = 0x2010) :
    exec (.updateDense n seq count bad ecc) z = .next (updateStep (z.eccAll ecc) d count bad) := by
  simp [exec, execUpdateDense, hd, hn, ho]

theorem exec_updateRows (hd : (z.eccAll ecc).findStarted n seq = some d) (hn : d.done = none) (ho : dOPCODE d.bytes = 0x2011) :
    exec (.updateRows n seq count bad ecc) z = .next (updateStep (z.eccAll ecc) d count bad) := by
  simp [exec, execUpdateRows, hd, hn, ho]

/-- Run u stands at Update engine r for a started descriptor without outcome. -/
structure State.RunsOn (s : State) (r n seq : Nat) (d : Started) (u : UpdRun) : Prop where
  wf    : tblWf noUpd s.upd = true
  found : s.findStarted n seq = some d
  noEnd : d.done = none
  run   : s.updRun r = some u
  ring  : u.ring = n
  seq   : u.seq = seq

/-- The writes of an engine leave the run, and with no cut on the descriptor too. -/
theorem State.RunsOn.wrote (h : s.RunsOn r n seq d u) (hu : t.upd = s.upd) (hw : EngWrote s t) (hc : s.sump.cut = none) :
    t.RunsOn r n seq d u :=
  ⟨hu ▸ h.wf, (State.findStarted_congr ((hw.noCut hc).same_started rfl)).trans h.found, h.noEnd, (State.updRun_congr hu).trans h.run,
    h.ring, h.seq⟩

/-- The run ends with an outcome. -/
theorem State.RunsOn.ends (h : s.RunsOn r n seq d u) :
    (s.endUpd r o).updRun r = none ∧
      ∃ x, (s.endUpd r o).findStarted n seq = some { d with done := some x } ∧ x.status = o.status ∧ x.result = o.result := by
  obtain ⟨hw, hd, hn, hu, rfl, rfl⟩ := h
  exact ⟨State.updRun_endUpd hw, State.findStarted_endUpd hu hd hn⟩

theorem State.RunsOn.endOf (h : s.RunsOn r n seq d u) : (s.endUpd r o).endOf n seq = some o.status := by
  obtain ⟨-, hd, hn, hu, rfl, rfl⟩ := h
  exact State.endOf_endUpd hu hd hn

/-- A step that changes no memory but that of the Trelforts. -/
theorem Only.mem_trf {p : Parts} (h : Only p s t) (hp : p.restMem = Parts.restMem { trf := true }) : t.mem = { s.mem with trf := t.mem.trf } := by
  have k : p.restMem t.mem = p.restMem s.mem := congrArg State.mem h
  rw [hp] at k
  exact congrArg (fun m : Mem => { m with trf := t.mem.trf }) k

/-- R293. The run of an engine whose datapaths disagree has the fault. -/
theorem State.updRun_updMismatch (w : tblWf noUpd s.upd = true) : (s.updMismatch r u b).updRun r = some { u with fault := some 0x01 } := by
  unfold State.updMismatch
  extract_lets c s1
  have w1 : tblWf noUpd s1.upd = true := by
    rw [show s1.upd = s.upd from (State.report_only (p := Parts.report) rfl (Only.refl _ s)).same_upd rfl]
    exact w
  have k := State.enterDrain_only (f := 0x11 + 4 * r) (p := Parts.engWrite.or
    { drainAt := true, hostW := true, sq := true, pcie := true, order := true, fab := true, tor := true }) rfl
    (Only.refl _ (s1.setUpd r (some { u with fault := some 0x01 })))
  exact (State.updRun_congr (k.same_upd rfl)).trans (State.updRun_setUpd w1)

theorem State.promote_upd : (s.promote r u b).1.upd = s.upd :=
  (State.promote_only (p := Parts.engWrite.or { started := true }) rfl (Only.refl _ s)).same_upd rfl

/-- R275. An update begins by the checks of its slots and the promotion; only when both pass is the run marked. -/
theorem State.beginUpd_steps : ∃ x, x.upd = s.upd ∧ EngWrote s x ∧
    (s.beginUpd r u b = (x.setUpd r (some { u with begun := true }), none) ∨ ∃ cls, s.beginUpd r u b = (x, some cls)) := by
  unfold State.beginUpd
  extract_lets e c q
  have hq : Only (Parts.report.or { poison := true }) s q.1 := State.awareChecks_only rfl (Only.refl _ s)
  have wq : EngWrote s q.1 := (EngWrote.refl s).only (hq.weaken rfl)
  clear_value q
  split
  · exact ⟨q.1, hq.same_upd rfl, wq, .inr ⟨_, rfl⟩⟩
  · have hp : (q.1.promote r u b).1.upd = s.upd := State.promote_upd.trans (hq.same_upd rfl)
    have wp : EngWrote s (q.1.promote r u b).1 := wq.trans State.promote_engWrote
    rcases hx : q.1.promote r u b with ⟨x, none | cls⟩ <;> rw [hx] at hp wp
    · exact ⟨x, hp, wp, .inl rfl⟩
    · exact ⟨x, hp, wp, .inr ⟨cls, rfl⟩⟩

theorem State.updRun_beginUpd (w : tblWf noUpd s.upd = true) (hok : (s.beginUpd r u b).2 = none) :
    (s.beginUpd r u b).1.updRun r = some { u with begun := true } := by
  obtain ⟨x, hx, -, e | ⟨cls, e⟩⟩ := State.beginUpd_steps (s := s) (r := r) (u := u) (b := b)
  · rw [e]
    exact State.updRun_setUpd (by rw [hx]; exact w)
  · rw [e] at hok
    exact absurd hok (by simp)

theorem State.beginUpd_fails {cls : Nat} (hbad : (s.beginUpd r u b).2 = some cls) :
    (s.beginUpd r u b).1.upd = s.upd ∧ EngWrote s (s.beginUpd r u b).1 := by
  obtain ⟨x, hx, hw, e | ⟨cls, e⟩⟩ := State.beginUpd_steps (s := s) (r := r) (u := u) (b := b)
  · rw [e] at hbad
    exact absurd hbad (by simp)
  · rw [e]
    exact ⟨hx, hw⟩

/-- Unit i is the next one of a begun update, need not wait, and passes its checks. -/
structure State.UnitReady (s : State) (r i : Nat) (b : List Byte) (u : UpdRun) : Prop where
  noFault : u.fault = none
  begun   : u.begun = true
  next    : s.fget (Reg.UPD_PROGRESS r) Fld.UPD_PROGRESS_NEXT = i
  inside  : i < updTotal u b
  free    : (s.updReads u b i).any (fun x => s.pendingIn x.1 x.2.1) = false
  passes  : (s.unitRead r b u i).2 = none

section
variable (h : s.RunsOn r n seq d u) (hr : updDie d.fn = r)
include h hr

/-- A command for one unit does that unit. -/
theorem updateStep_one (k : s.UnitReady r i d.bytes u) : updateStep s d 1 bad = (s.updOne r d.bytes u i (bad = some 0)).1 := by
  obtain ⟨-, hd, -, hu, h1, h2⟩ := h
  obtain ⟨h3, h4⟩ := State.findStarted_key hd
  obtain ⟨hf, hb, hi, hl, hp, -⟩ := k
  have hsteps : updateStep s d 1 bad = s.updSteps r d.bytes 1 bad := by
    simp [updateStep, hr, hu, h1, h2, h3, h4, hf, hb]
  simp only [hsteps, State.updSteps, hu, hi, hf, Option.isSome_none, Bool.false_or, decide_eq_true_eq, Nat.not_le.mpr hl, if_false, hp,
    Bool.false_eq_true, ite_self]

/-- What unit i leaves when others follow (R292): PROGRESS past it, the run with its counts, its writes in memory, and the descriptor as it
was but for the mark of a block in DIAG form. -/
theorem updateStep_goesOn (k : s.UnitReady r i d.bytes u) (hc : s.canon = true) (h8 : r < 8) (hx : (s.unitPut r d.bytes u i).2 = none)
    (hne : i + 1 ≠ updTotal u d.bytes) :
    (updateStep s d 1 none).fget (Reg.UPD_PROGRESS r) Fld.UPD_PROGRESS_NEXT = (i + 1) % 2 ^ 32 ∧
      (updateStep s d 1 none).updRun r = some (s.unitWork r d.bytes u i).2 ∧
      (updateStep s d 1 none).mem = { (s.unitPut r d.bytes u i).1.mem with trf := (updateStep s d 1 none).mem.trf } ∧
      (s.sump.cut = none → (s.unitWork r d.bytes u i).2.diag = false → (updateStep s d 1 none).started = s.started) ∧
      ((s.unitWork r d.bytes u i).2.diag = true → ∃ y, (updateStep s d 1 none).findStarted n seq = some y ∧ y.fallback = true) := by
  have e : updateStep s d 1 none = (s.unitPut r d.bytes u i).1.updDid r d.bytes i u (s.unitWork r d.bytes u i).2 := by
    rw [updateStep_one h hr k]
    exact congrArg Prod.fst (State.updOne_goesOn k.passes hx hne)
  have hw := State.unitPut_engWrote (s := s) (r := r) (b := d.bytes) (u := u) (i := i)
  rw [e]
  refine ⟨State.progress_updDid (State.canon_regs (State.unitPut_keeps.canon hc)) h8, State.updRun_updDid (State.unitPut_upd.symm ▸ h.wf),
    (State.updDid_only (p := Parts.report.or { started := true, upd := true }) rfl (Only.refl _ _)).mem_trf rfl, fun hcut hd => ?_, fun hd => ?_⟩
  · refine (State.updDid_report.same_started rfl).trans (Eq.trans ?_ ((hw.noCut hcut).same_started rfl))
    rw [State.markedFor, if_neg (by rw [hd]; decide)]
    rfl
  · obtain ⟨y, hy, -⟩ := hw.faults.findStarted h.found h.noEnd
    rw [← h.ring, ← h.seq] at hy ⊢
    exact ⟨_, State.findStarted_updDid hy, by rw [hd]; rfl⟩

/-- The last unit ends the update and frees the engine; only a cut of the same name takes its SUCCESS. -/
theorem updateStep_last (k : s.UnitReady r i d.bytes u) (hx : (s.unitPut r d.bytes u i).2 = none) (he : i + 1 = updTotal u d.bytes) :
    (updateStep s d 1 none).updRun r = none ∧
      ((updateStep s d 1 none).endOf n seq = some stSUCCESS ∨ (updateStep s d 1 none).endOf n seq = some stFAULTED) ∧
      (s.sump.cut = none → (updateStep s d 1 none).endOf n seq = some stSUCCESS) := by
  obtain ⟨v, hv⟩ : ∃ v, (s.unitWork r d.bytes u i).2 = v := ⟨_, rfl⟩
  obtain ⟨p, hp⟩ : ∃ p, (s.unitPut r d.bytes u i).1 = p := ⟨_, rfl⟩
  have hstep : updateStep s d 1 none = ((p.updDid r d.bytes i u v).sealDense u d.bytes).endUpd r (updDone v) := by
    rw [updateStep_one h hr k, ← hv, ← hp]
    exact congrArg Prod.fst (State.updOne_last k.passes hx he)
  have hw : EngWrote s p := hp ▸ State.unitPut_engWrote
  have w : tblWf noUpd p.upd = true := by
    rw [← hp, State.unitPut_upd]
    exact h.wf
  have ks : Only { hbm := true, staging := true, stagTag := true, dirty := true } (p.updDid r d.bytes i u v)
      ((p.updDid r d.bytes i u v).sealDense u d.bytes) := State.sealDense_only rfl (Only.refl _ _)
  have hrun : ((p.updDid r d.bytes i u v).sealDense u d.bytes).updRun r = some v :=
    (State.updRun_congr (ks.same_upd rfl)).trans (State.updRun_updDid w)
  have hring : v.ring = n := by rw [← hv, State.unitWork_ring, h.ring]
  have hseq : v.seq = seq := by rw [← hv, State.unitWork_seq, h.seq]
  have hfound : ∀ y, p.findStarted n seq = some y → ((p.updDid r d.bytes i u v).sealDense u d.bytes).findStarted v.ring v.seq =
      some (if v.diag then { y with fallback := true } else y) := by
    intro y hy
    rw [State.findStarted_congr (ks.same_started rfl), hring, hseq]
    rw [← h.ring, ← h.seq] at hy ⊢
    exact State.findStarted_updDid hy
  rw [hstep, ← hring, ← hseq]
  refine ⟨State.updRun_endUpd (by rw [ks.same_upd rfl, State.updDid_upd]; exact tblWf_put noUpd w), ?_, fun hcut => ?_⟩
  · obtain ⟨y, hy, ho⟩ := hw.faults.findStarted h.found h.noEnd
    exact State.endOf_endUpd_openOrFaulted hrun (hfound y hy) (Started.openOrFaulted_marked ho)
  · have hy : p.findStarted n seq = some d := (State.findStarted_congr ((hw.noCut hcut).same_started rfl)).trans h.found
    exact State.endOf_endUpd hrun (hfound d hy) (by split <;> exact h.noEnd)

/-- The datapaths disagree on the next unit: the run stands there with its fault (R293). -/
theorem updateStep_mismatch (k : s.UnitReady r i d.bytes u) (hv : u.ve = none) :
    (updateStep s d 1 (some 0)).updRun r = some { u with fault := some 0x01 } := by
  rw [updateStep_one h hr k, decide_eq_true rfl, State.updOne_mismatch k.passes hv]
  refine State.updRun_updMismatch ?_
  rw [State.unitRead_only.same_upd rfl]
  exact h.wf

/-- A command that comes before the first unit begins the update, or ends it FAULTED (R275). -/
theorem updateStep_begin (hf : u.fault = none) (hb : u.begun = false)
    (hp : s.pendingIn (s.activeSlot r (leAt d.bytes 25 1)) 256 = false) :
    ((s.beginUpd r u d.bytes).2 = none → (updateStep s d 0 none).updRun r = some { u with begun := true }) ∧
      ((s.beginUpd r u d.bytes).2 ≠ none →
        (updateStep s d 0 none).updRun r = none ∧ (s.sump.cut = none → (updateStep s d 0 none).endOf n seq = some stFAULTED)) := by
  obtain ⟨h3, h4⟩ := State.findStarted_key h.found
  constructor
  · intro hok
    have hstep : updateStep s d 0 none = (s.beginUpd r u d.bytes).1 := by
      simp [updateStep, hr, h.run, h.ring, h.seq, h3, h4, hf, hb, hp, hok, State.updSteps]
    rw [hstep]
    exact State.updRun_beginUpd h.wf hok
  · intro hbad
    obtain ⟨cls, hcls⟩ := Option.ne_none_iff_exists'.mp hbad
    have hstep : updateStep s d 0 none = (s.beginUpd r u d.bytes).1.endUpd r { status := stFAULTED, cls := cls } := by
      simp [updateStep, hr, h.run, h.ring, h.seq, h3, h4, hf, hb, hp, hcls]
    obtain ⟨hupd, hwrote⟩ := State.beginUpd_fails hcls
    rw [hstep]
    exact ⟨State.updRun_endUpd (by rw [hupd]; exact h.wf), fun hcut => (h.wrote hupd hwrote hcut).endOf⟩

end

/-! ### Checks that pass (R411, R221) -/

theorem foldChecks_passes {α : Type} {p : Parts} {f : State → α → State × Option Nat} {l : List α}
    (hf : ∀ x a, (f x a).2 = none → Only p x (f x a).1) (h : (foldChecks s f l).2 = none) : Only p s (foldChecks s f l).1 := by
  induction l generalizing s with
  | nil => exact Only.refl p s
  | cons a l ih =>
    have ha := hf s a
    rw [foldChecks] at h ⊢
    split at h
    · rename_i x e
      rw [e] at ha
      exact (ha rfl).trans (ih h)
    · rename_i hne
      exact (hne _ (Prod.ext rfl h)).elim

/-- A tag check that passes is counted, and changes nothing else. -/
theorem State.tagReadPage_passes {page : Nat} {whole : Bool} {fmt bid : Option Nat} (h : (s.tagReadPage c page whole fmt bid).2 = none) :
    Only { regs := true, obs := true } s (s.tagReadPage c page whole fmt bid).1 := by
  unfold State.tagReadPage at h ⊢
  split
  · exact State.bump_only rfl (Only.refl _ s)
  · rename_i hopen
    rw [if_neg hopen] at h
    split
    · rw [if_pos ‹_›] at h
      exact absurd h (by simp)
    · rename_i hwithdrawn
      rw [if_neg hwithdrawn] at h
      split
      · rw [if_pos ‹_›] at h
        exact absurd h (by simp)
      · exact State.tagEvents_only rfl (Only.refl _ s)

theorem State.poisonCheck_passes {addr n : Nat} (h : (s.poisonCheck c addr n).2 = none) :
    Only { regs := true, obs := true } s (s.poisonCheck c addr n).1 := by
  refine foldChecks_passes (fun x a hx => ?_) h
  split at hx
  · split at hx
    · exact absurd hx (by simp)
    · exact Only.refl _ x
  · exact Only.refl _ x

theorem State.awareCheck_passes {addr n : Nat} {fmt bid : Option Nat} (h : (s.awareCheck c addr n fmt bid).2 = none) :
    Only { regs := true, obs := true } s (s.awareCheck c addr n fmt bid).1 := by
  have hf := foldChecks_passes (s := s) (f := fun s (p : Nat × Bool) => s.tagReadPage c p.1 p.2 fmt bid) (l := s.pagesWhole addr n)
    (p := { regs := true, obs := true }) fun _ _ hx => State.tagReadPage_passes hx
  unfold State.awareCheck at h ⊢
  split
  · rename_i x e
    rw [e] at h hf
    exact (hf rfl).trans (State.poisonCheck_passes h)
  · rename_i hne
    split at h
    · exact absurd ‹_› (hne _)
    · exact hf h

theorem State.awareChecks_passes {rs : List (Nat × Nat)} (h : (s.awareChecks c rs).2 = none) :
    Only { regs := true, obs := true } s (s.awareChecks c rs).1 :=
  foldChecks_passes (fun _ _ hx => State.awareCheck_passes hx) h

/-! ### SETCOEF (R278-R280) -/

theorem exec_setcoef (hd : (z.eccAll ecc).findStarted n seq = some d) (hn : d.done = none) (ho : dOPCODE d.bytes = 0x2018) :
    exec (.setcoef n seq ecc) z = .next (setcoef (z.eccAll ecc) d) := by
  simp [exec, execSetcoef, hd, hn, ho]

/-- A pending slot for another step refuses the SETCOEF of a die. -/
theorem State.setcoefOne_refuses (hrd : s.awareChecks c [(s.ruleBase g, 4), (s.activeSlot g (leAt b 25 1), 256)] = (t, none))
    (ht : slotType (t.gread (t.pendingSlot g (leAt b 25 1)) 128) ≠ 0) (he : slotEff (t.gread (t.pendingSlot g (leAt b 25 1)) 128) ≠ leAt b 28 4) :
    s.setcoefOne c b g = (t, none, none) := by
  simp [State.setcoefOne, hrd, ht, he]

theorem State.setcoefOne_upd : (s.setcoefOne c b g).1.upd = s.upd :=
  (State.setcoefOne_only (p := Parts.engWrite.or { started := true }) rfl (Only.refl _ s)).same_upd rfl

/-- ENTRY_VER and TABLE_VER fit in the fields of RESULT. -/
theorem State.setcoefOne_fits {v : Nat × Nat} {x : Option Nat} (h : (s.setcoefOne c b g).2 = (some v, x)) : v.1 < 2 ^ 32 ∧ v.2 < 2 ^ 32 := by
  unfold State.setcoefOne at h
  extract_lets e rd y a old act prev ver tv q at h
  have hold : slotVer old < 256 ^ 2 := leAt_lt
  have hact : slotVer act < 256 ^ 2 := leAt_lt
  have hver : ver < 2 ^ 32 := by
    unfold ver prev
    split <;> split <;> omega
  split at h
  · exact absurd h (by simp)
  · split at h
    · exact absurd h (by simp)
    · have hv : (ver, tv) = v := Option.some.inj (congrArg Prod.fst h)
      rw [← hv]
      exact ⟨hver, Nat.mod_lt _ (by decide)⟩

/-- The SETCOEF of one die ends as its table does (R279). -/
theorem State.setcoefAll_one {v : Nat × Nat} (h : (s.setcoefOne c b g).2 = (some v, none)) :
    s.setcoefAll c b [g] [] = ((s.setcoefOne c b g).1, { status := stSUCCESS, result := v.1 * 2 ^ 48 + v.2 }) := by
  obtain ⟨h1, h2⟩ := State.setcoefOne_fits h
  have m1 : min 4294967295 v.1 = v.1 := by omega
  have m2 : min 4294967295 v.2 = v.2 := by omega
  simp [State.setcoefAll, h, m1, m2]

theorem State.setcoefAll_refused (h : (s.setcoefOne c b g).2 = (none, none)) :
    s.setcoefAll c b [g] [] = ((s.setcoefOne c b g).1, { status := stREFUSED }) := by
  simp [State.setcoefAll, h]

section
variable {s1 : State} (h : s.RunsOn r n seq d u) (hr : updDie d.fn = r) (hg : updRegion d.bytes ≠ 0xFF)
  (hp1 : s.pendingIn (leAt d.bytes 32 8) 64 = false)
  (hp2 : s.pendingIn (s.pendingSlot (updRegion d.bytes) (leAt d.bytes 25 1)) 128 = false)
  (hc : s.awareCheck (updCtx u r d.bytes) (leAt d.bytes 32 8) 64 none none = (s1, none))
include h hr hg hp1 hp2 hc

/-- A SETCOEF of one die that need not wait, once its coefficients are read (R278). -/
theorem setcoef_one : setcoef s d =
    if coefsBad (leAt d.bytes 26 1) (slotCoefs (s1.gread (leAt d.bytes 32 8) 64)) then s1.endUpd r { status := stBAD_OPERAND }
    else (s1.setcoefAll (updCtx u r d.bytes) d.bytes [updRegion d.bytes] []).1.endUpd r
      (s1.setcoefAll (updCtx u r d.bytes) d.bytes [updRegion d.bytes] []).2 := by
  obtain ⟨-, hd, -, hu, h1, h2⟩ := h
  obtain ⟨h3, h4⟩ := State.findStarted_key hd
  simp [setcoef, hr, hu, h1, h2, h3, h4, setcoefDies, hg, hp1, hp2, hc]

omit hr hg hp1 hp2 in
/-- The run still stands once they are read. -/
theorem State.RunsOn.coefsRead (hcut : s.sump.cut = none) : Only { regs := true, obs := true } s s1 ∧ s1.RunsOn r n seq d u := by
  have k : Only { regs := true, obs := true } s s1 := by
    have := State.awareCheck_passes (congrArg Prod.snd hc)
    rwa [hc] at this
  exact ⟨k, h.wrote (k.same_upd rfl) ((EngWrote.refl s).only (k.weaken rfl)) hcut⟩

theorem setcoef_badOperand (hcut : s.sump.cut = none)
    (hbad : coefsBad (leAt d.bytes 26 1) (slotCoefs (s1.gread (leAt d.bytes 32 8) 64)) = true) :
    (setcoef s d).updRun r = none ∧ (setcoef s d).endOf n seq = some stBAD_OPERAND := by
  obtain ⟨-, h1⟩ := h.coefsRead hc hcut
  rw [setcoef_one h hr hg hp1 hp2 hc, if_pos hbad]
  exact ⟨h1.ends.1, h1.endOf⟩

theorem setcoef_refused (hcut : s.sump.cut = none)
    (hgood : coefsBad (leAt d.bytes 26 1) (slotCoefs (s1.gread (leAt d.bytes 32 8) 64)) = false)
    (hrd : s1.awareChecks (updCtx u r d.bytes)
      [(s1.ruleBase (updRegion d.bytes), 4), (s1.activeSlot (updRegion d.bytes) (leAt d.bytes 25 1), 256)] = (t, none))
    (ht : slotType (t.gread (t.pendingSlot (updRegion d.bytes) (leAt d.bytes 25 1)) 128) ≠ 0)
    (he : slotEff (t.gread (t.pendingSlot (updRegion d.bytes) (leAt d.bytes 25 1)) 128) ≠ leAt d.bytes 28 4) :
    (setcoef s d).updRun r = none ∧ (setcoef s d).endOf n seq = some stREFUSED ∧
      (setcoef s d).mem = { s.mem with trf := (setcoef s d).mem.trf } := by
  obtain ⟨k1, h1⟩ := h.coefsRead hc hcut
  have k2 : Only { regs := true, obs := true } s1 t := by
    have := State.awareChecks_passes (congrArg Prod.snd hrd)
    rwa [hrd] at this
  have hcut1 : s1.sump.cut = none := by rw [k1.same_sump rfl, hcut]
  have h2 := h1.wrote (k2.same_upd rfl) ((EngWrote.refl s1).only (k2.weaken rfl)) hcut1
  have e := State.setcoefOne_refuses hrd ht he
  rw [setcoef_one h hr hg hp1 hp2 hc, hgood, if_neg (by decide), State.setcoefAll_refused (by rw [e]), e]
  refine ⟨h2.ends.1, h2.endOf, ?_⟩
  exact Only.mem_trf (p := Parts.report.or { started := true, upd := true }) (State.endUpd_only rfl ((k1.trans k2).weaken rfl)) rfl

theorem setcoef_done (hcut : s.sump.cut = none) {v : Nat × Nat}
    (hgood : coefsBad (leAt d.bytes 26 1) (slotCoefs (s1.gread (leAt d.bytes 32 8) 64)) = false)
    (hv : (s1.setcoefOne (updCtx u r d.bytes) d.bytes (updRegion d.bytes)).2 = (some v, none)) :
    (setcoef s d).updRun r = none ∧
      ∃ y o, (setcoef s d).findStarted n seq = some y ∧ y.done = some o ∧ o.status = stSUCCESS ∧ o.result = v.1 * 2 ^ 48 + v.2 := by
  obtain ⟨k1, h1⟩ := h.coefsRead hc hcut
  have hcut1 : s1.sump.cut = none := by rw [k1.same_sump rfl, hcut]
  have h2 := h1.wrote State.setcoefOne_upd (State.setcoefOne_engWrote (c := updCtx u r d.bytes) (b := d.bytes) (r := updRegion d.bytes)) hcut1
  rw [setcoef_one h hr hg hp1 hp2 hc, hgood, if_neg (by decide), State.setcoefAll_one hv]
  obtain ⟨hfree, x, hx, hs, hres⟩ := h2.ends (o := { status := stSUCCESS, result := v.1 * 2 ^ 48 + v.2 })
  exact ⟨hfree, _, x, hx, rfl, hs, hres⟩

end

/-! ### VE_TAKEOVER (R297, R299) -/

theorem exec_veTakeover (hr : r < 8) : exec (.veTakeover r) s = .next (veTakeover s r) := by
  simp [exec, execVeTakeover, hr]

/-- The vector engines of the block that stands in run the update on. -/
theorem veTakeover_resumes (hu : s.updRun r = some u) (hf : u.fault = some cls) (hd : s.findStarted u.ring u.seq = some d)
    (hv : s.veBlock (ownerBlock d.bytes) = some blk) :
    veTakeover s r = (((s.setUpd r (some { u with ve := some blk, fault := none })).updStarted u.ring u.seq
      (fun x => { x with fallback := true })).fput (Reg.UPD_STATUS r) Fld.UPD_STATUS_VE_BUSY 1).bump (Reg.UPD_STATUS r) Fld.UPD_STATUS_HANDED 1 := by
  simp only [veTakeover, hu, hf, hd, hv]

theorem veTakeover_fails (hu : s.updRun r = some u) (hf : u.fault = some cls) (hd : s.findStarted u.ring u.seq = some d)
    (hv : s.veBlock (ownerBlock d.bytes) = none) : veTakeover s r = s.endUpd r { status := stFAULTED, cls := cls } := by
  simp only [veTakeover, hu, hf, hd, hv]

/-- What the handover leaves in UPD_STATUS: VE_BUSY, and HANDED up by one. -/
theorem State.handed (w : tblWf regReset s.regs = true) :
    let t := (s.fput (Reg.UPD_STATUS r) Fld.UPD_STATUS_VE_BUSY 1).bump (Reg.UPD_STATUS r) Fld.UPD_STATUS_HANDED 1
    t.fget (Reg.UPD_STATUS r) Fld.UPD_STATUS_VE_BUSY = 1 ∧ Rose s t (Reg.UPD_STATUS r) Fld.UPD_STATUS_HANDED 1 ∧
      SameRegs s t [Reg.UPD_STATUS r] := by
  have w1 : tblWf regReset (s.fput (Reg.UPD_STATUS r) Fld.UPD_STATUS_VE_BUSY 1).regs = true := State.fput_wf w
  refine ⟨?_, ?_, fun off hoff => ?_⟩
  · rw [State.bump, State.fget_fput_fld w1 ⟨by decide, by decide⟩ (by decide), State.fget_fput w ⟨by decide, by decide⟩]
    rfl
  · rw [Rose, State.bump, State.fget_fput w1 ⟨by decide, by decide⟩, State.fget_fput_fld w ⟨by decide, by decide⟩ (by decide)]
    exact Nat.mod_eq_of_lt (Nat.lt_succ_of_le (Nat.min_le_left _ _))
  · exact (RegsBut.bump (l := (· ∈ [Reg.UPD_STATUS r])) (List.mem_singleton_self _)
      (RegsBut.fput (List.mem_singleton_self _) (RegsBut.refl _ s))).same w off hoff

theorem veTakeover_handsOver (hc : s.canon = true) (hw : tblWf noUpd s.upd = true) (hu : s.updRun r = some u) (hf : u.fault = some cls)
    (hd : s.findStarted u.ring u.seq = some d) (hv : s.veBlock (ownerBlock d.bytes) = some blk) :
    (veTakeover s r).updRun r = some { u with ve := some blk, fault := none } ∧
      (veTakeover s r).findStarted u.ring u.seq = some { d with fallback := true } ∧
      (veTakeover s r).fget (Reg.UPD_STATUS r) Fld.UPD_STATUS_VE_BUSY = 1 ∧
      Rose s (veTakeover s r) (Reg.UPD_STATUS r) Fld.UPD_STATUS_HANDED 1 ∧ SameRegs s (veTakeover s r) [Reg.UPD_STATUS r] ∧
      Only { regs := true, started := true, upd := true } s (veTakeover s r) := by
  have k := veTakeover_only (p := { regs := true, started := true, upd := true }) (r := r) rfl (Only.refl _ s)
  rw [veTakeover_resumes hu hf hd hv] at k ⊢
  obtain ⟨hbusy, hrose, hsame⟩ := State.handed (r := r)
    (s := (s.setUpd r (some { u with ve := some blk, fault := none })).updStarted u.ring u.seq (fun x => { x with fallback := true }))
    (State.canon_regs hc)
  exact ⟨State.updRun_setUpd hw, State.findStarted_markFallback (s := s) hd, hbusy, hrose, hsame, k⟩

theorem veTakeover_ends (h : s.RunsOn r n seq d u) (hf : u.fault = some cls) (hv : s.veBlock (ownerBlock d.bytes) = none) :
    (veTakeover s r).updRun r = none ∧ (veTakeover s r).endOf n seq = some stFAULTED ∧
      Only { regs := true, started := true, upd := true } s (veTakeover s r) := by
  have k := veTakeover_only (p := { regs := true, started := true, upd := true }) (r := r) rfl (Only.refl _ s)
  obtain ⟨-, hd, -, hu, h1, h2⟩ := id h
  rw [veTakeover_fails hu hf (by rw [h1, h2]; exact hd) hv] at k ⊢
  exact ⟨h.ends.1, h.endOf, k⟩

end Sys2Proof.Machine

/-!
O20. It holds: every operation of an Update engine leaves the runs to `setUpd`, and the descriptors to `setDone` and the mark of the fallback.
-/
namespace Sys2Proof.Machine

open Sys2Proof

/-- Settles O20: a unit that passes its checks ends as `updateStep_goesOn` and `updateStep_last` say, a SETCOEF ends as the table of its one die
does, and a takeover changes the run, the mark and UPD_STATUS alone. -/
theorem updatesRunAndHandOver : Obligations.UpdatesRunAndHandOver := by
  unfold Obligations.UpdatesRunAndHandOver
  refine ⟨?_, ?_, ?_, ?_, ?_⟩
  · intro z n seq ecc d u hz hw s hd hn r b i hr hu h1 h2 hf hb hl hp q w x hq hx good
    have h : s.RunsOn r n seq d u := ⟨State.eccAll_upd.symm ▸ hw, hd, hn, hu, h1, h2⟩
    have k : s.UnitReady r i b u := ⟨hf, hb, rfl, hl, hp, hq⟩
    have hc : s.canon = true := (State.eccAll_keeps (Keeps.refl z)).canon hz
    have hgood : good (updateStep s d 1 none) := ⟨updateStep_goesOn h rfl k hc hr hx, updateStep_last h rfl k hx⟩
    have hbad := updateStep_mismatch h rfl k
    exact ⟨fun ho => ⟨_, exec_updateDense hd hn ho, hgood⟩, fun ho => ⟨_, exec_updateRows hd hn ho, hgood⟩,
      fun hv ho => ⟨_, exec_updateDense hd hn ho, hbad hv⟩, fun hv ho => ⟨_, exec_updateRows hd hn ho, hbad hv⟩⟩
  · intro z n seq ecc d u hw s hd hn r hu h1 h2 hf hb hp good
    have h : s.RunsOn r n seq d u := ⟨State.eccAll_upd.symm ▸ hw, hd, hn, hu, h1, h2⟩
    have hgood : good (updateStep s d 0 none) := updateStep_begin h rfl hf hb hp
    exact ⟨fun ho => ⟨_, exec_updateDense hd hn ho, hgood⟩, fun ho => ⟨_, exec_updateRows hd hn ho, hgood⟩⟩
  · intro z n seq ecc d u hw s hd hn ho r b c g hu h1 h2 hg hp1 hp2 hck hcut s1 rd old bad
    have h : s.RunsOn r n seq d u := ⟨State.eccAll_upd.symm ▸ hw, hd, hn, hu, h1, h2⟩
    have hc : s.awareCheck c (leAt b 32 8) 64 none none = (s1, none) := Prod.ext rfl hck
    have hx := exec_setcoef (z := z) hd hn ho
    exact ⟨fun hbad => ⟨_, hx, setcoef_badOperand h rfl hg hp1 hp2 hc hcut hbad⟩,
      fun hgood hrd ht he => ⟨_, hx, setcoef_refused h rfl hg hp1 hp2 hc hcut hgood (Prod.ext rfl hrd) ht he⟩,
      fun v hgood hv => ⟨_, hx, setcoef_done h rfl hg hp1 hp2 hc hcut hgood hv⟩⟩
  · intro s r cls blk u d hc hw hr hu hf hd hv
    exact ⟨_, exec_veTakeover hr, veTakeover_handsOver hc hw hu hf hd hv⟩
  · intro s r cls u d hw hr hu hf hd hn hv
    exact ⟨_, exec_veTakeover hr, veTakeover_ends ⟨hw, hd, hn, hu, rfl, rfl⟩ hf hv⟩

end Sys2Proof.Machine

/-!
O26. It fails at EXP_RETRY_TIMER of a rank whose deadline has passed. A rank repeats its EXP after BUSY until its deadline only (R384), where
the clause has the EXP leave for a home in this module whatever the deadline is. In the state below the home answered BUSY at instant 0 and
the deadline is 1000 ns: the two microseconds of R384 end after it.
-/
namespace Sys2Proof.Machine

open Sys2Proof

variable {s : State} {n seq at_ : Nat} {q : RankRun} {d : Started} {deadline : Int}

/-- R384. Past the deadline the timer forgets the BUSY, and the rank sends nothing. -/
theorem exec_expRetryTimer_pastDeadline (hq : s.findRank n seq = some q) (hd : s.findStarted n seq = some d) (hb : q.busyAt = some at_)
    (he : d.deadline = some deadline) (hp : deadline ≤ (s.reach (at_ + 2000)).time) :
    exec (.expRetryTimer n seq) s = .next ((s.reach (at_ + 2000)).updRank n seq (fun x => { x with busyAt := none })) := by
  have hpast : (q.closed || d.deadline.any (fun t => decide (t ≤ (s.reach (at_ + 2000)).time))) = true := by
    rw [he, Option.any_some, decide_eq_true hp, Bool.or_true]
  show execExpRetryTimer n seq s = _
  simp only [execExpRetryTimer, hq, hd, hb]
  exact congrArg Host.Outcome.next (if_pos hpast)

/-- A REDUCE whose operands are all 0: its home is engine 0 of chip 0. -/
def zeroReduce : List Byte := leBytes 2 0x3010 ++ List.replicate 62 0#8

/-- Its rank heard BUSY at instant 0. -/
def busyRank : RankRun := { ring := 0, seq := 0, eng := 0, bytes := zeroReduce, param := [], busyAt := some 0 }

def briefReduce : Started :=
  { ring := 0, seq := 0, bytes := zeroReduce, fn := 0x40, gen := 1, deadline := some 1000, slots := 1, begun := true }

/-- The state of reset, but the module is chip 0 and this REDUCE runs. -/
def busyPastDeadline : State :=
  { State.reset with regs := [(Reg.MOD_CHIP_NUMBER, 0x10000#64)], started := [briefReduce], ranks := [busyRank] }

/-- Instant 2000 lies past the deadline, and no packet is there. -/
theorem busyPastDeadline_sends_nothing {t : State} (h : exec (.expRetryTimer 0 0) busyPastDeadline = .next t) : t.fab.delivered = [] := by
  rw [exec_expRetryTimer_pastDeadline (s := busyPastDeadline) (q := busyRank) (d := briefReduce) rfl rfl rfl rfl (by decide)] at h
  cases h
  rfl

/-- Refutes O26: its clause on EXP_RETRY_TIMER has the EXP sent again whatever the deadline is, where the rank stops at it (R384). -/
theorem not_ranksFollowTheirHome : ¬ Obligations.RanksFollowTheirHome := by
  unfold Obligations.RanksFollowTheirHome
  rintro ⟨-, -, hretry, -⟩
  obtain ⟨t, ht, -, -, hsent, -⟩ := hretry busyPastDeadline 0 0 0 busyRank briefReduce rfl rfl rfl rfl
  obtain ⟨k, hk, -⟩ := hsent (by decide)
  rw [busyPastDeadline_sends_nothing ht] at hk
  exact absurd hk List.not_mem_nil

end Sys2Proof.Machine

/-!
O27. It fails at the CONFIRM of a version whose EXP has not come yet. Such a token is kept until its item arrives (spec/09 R440), and the
bucket stays as it is, where the clause asks only that the version is not below the rank's and has the token noted at once. In the state
below the home knows version 0 of rank 0, and the CONFIRM names version 1.
-/
namespace Sys2Proof.Machine

open Sys2Proof

variable {s s1 : State} {k : Packet} {h : HomeBucket} {r : HomeRank}

/-- R440. A CONFIRM of a version later than the one that the home knows is kept, and nothing else is done. -/
theorem exec_confirm_laterVersion (ht : s.take k = some s1) (hk : k.kind = 0x30) (ha : k.addr ≤ 15) (hh : s1.homeOf k = some h)
    (hr : h.rankAt (rRank k) = some r) (hg : k.gen = r.gen) (hv : r.ver < rVer k) (hf : h.final = false)
    (hc : r.tokens.contains (0x30, rVer k) = false) (hx : r.tokens.contains (0x31, rVer k) = false) :
    exec (.confirm k) s = .next (s1.keepEarly k) := by
  show execConfirm k s = _
  simp only [execConfirm, State.atHome, hk, ht, Nat.not_lt.mpr ha, State.forRank, hh, hr, hg, hv, Nat.lt_asymm hv, hf, hc, hx, bne_self_eq_false,
    decide_false, Bool.or_self, Bool.false_eq_true, if_false, if_true]

/-- What the home knows of rank 0: its EXP of version 0. -/
def firstVersion : HomeRank := { rank := 0, chip := 0, eng := 0, gen := 0, layer := 0, op := 0, ver := 0, stat := some 0 }

/-- A bucket of two ranks, one of which is known. -/
def openBucket : HomeBucket := { eng := 0, coll := 0, step := 0, bucket := 0, n := 2, mode := 1, count := 1, lanes := [0], ranks := [firstVersion] }

/-- CONFIRM of version 1 of rank 0. -/
def earlyConfirm : Packet := { dst := 0, src := 0, kind := 0x30, vc := 0, body := redHead 0 1 0 0 0 0 }

/-- The state of reset, but with this bucket and the CONFIRM delivered. -/
def confirmBeforeExp : State :=
  { State.reset with homes := [openBucket], fab := { State.reset.fab with delivered := [earlyConfirm] } }

/-- No token is noted of rank 0. -/
theorem confirmBeforeExp_notes_nothing {t : State} (e : exec (.confirm earlyConfirm) confirmBeforeExp = .next t) : t.homes = [openBucket] := by
  rw [exec_confirm_laterVersion (s := confirmBeforeExp) (s1 := { confirmBeforeExp with fab := State.reset.fab }) (h := openBucket) (r := firstVersion)
    (by decide) rfl (by decide) (by decide) (by decide) (by decide) (by decide) rfl rfl rfl] at e
  cases e
  rfl

/-- Refutes O27: its clause on CONFIRM has the token of every version from the rank's on noted in the bucket, where one of a later version is
kept until its EXP comes (R440). -/
theorem not_homesReduceExactly : ¬ Obligations.HomesReduceExactly := by
  unfold Obligations.HomesReduceExactly
  rintro ⟨-, -, -, -, -, -, -, hconfirm, -⟩
  obtain ⟨t, ht, ⟨h', hh, hnoted, -⟩, -⟩ := hconfirm confirmBeforeExp earlyConfirm openBucket firstVersion
    ⟨by decide, rfl, by decide, by decide, by decide⟩ (by decide) rfl rfl rfl (by decide)
  have hsame : t.homeOf earlyConfirm = some openBucket := by
    rw [State.homeOf, confirmBeforeExp_notes_nothing ht]
    decide
  obtain rfl : openBucket = h' := Option.some.inj (hsame.symm.trans hh)
  exact absurd hnoted (by decide)

end Sys2Proof.Machine

/-!
SUPPORT. What work that stops, completes or writes on its way leaves alone: the counts of the two classes that a request timer reports, and
the registers of the functions (spec/10 R459, R467, R468).
-/
namespace Sys2Proof.Machine

open Sys2Proof

variable {s t u : State}

/-- The counts of the two classes that a request timer reports, and the registers of the functions. -/
def timerReg (off : Nat) : Bool :=
  decide (off = Reg.FLT_CLASS_CNT 0x02 ∨ off = Reg.FLT_CLASS_CNT 0x06 ∨ (Reg.MOD_FN 0 ≤ off ∧ off < Reg.MOD_FN 0x300))

/-- From s to t those registers keep their words. -/
abbrev Spares (s t : State) : Prop := RegsBut (fun off => timerReg off = false) s t

theorem timerReg_eq_false {off : Nat} (h2 : off ≠ Reg.FLT_CLASS_CNT 0x02) (h6 : off ≠ Reg.FLT_CLASS_CNT 0x06) (hf : Reg.MOD_FN 0x300 ≤ off) :
    timerReg off = false :=
  decide_eq_false (by omega)

/-- A register above those of the functions is none of these by the last two bytes of its offset. -/
theorem timerReg_of_low_bytes {off : Nat} (h : 0x2800 ≤ off) (h2 : off % 0x10000 ≠ 0x110) (h6 : off % 0x10000 ≠ 0x130) : timerReg off = false :=
  timerReg_eq_false (by unfold Reg.FLT_CLASS_CNT; omega) (by unfold Reg.FLT_CLASS_CNT; omega) h

theorem Spares.refl (s : State) : Spares s s := RegsBut.refl _ s

theorem RegsBut.foldChecks {l : Nat → Prop} {α : Type} {f : State → α → State × Option Nat} {xs : List α} (h : RegsBut l s t)
    (hf : ∀ x a, RegsBut l s x → RegsBut l s (f x a).1) : RegsBut l s (foldChecks t f xs).1 := by
  induction xs generalizing t with
  | nil => exact h
  | cons a xs ih =>
    have ha := hf t a h
    rw [Machine.foldChecks]
    split
    · rename_i e
      rw [e] at ha
      exact ih ha
    · exact ha

theorem RegsBut.afterCheck {l : Nat → Prop} {q : State × Option Nat} {f : State → State} (h : RegsBut l s q.1)
    (hf : ∀ x, RegsBut l s x → RegsBut l s (f x)) : RegsBut l s (afterCheck q f).1 := by
  unfold Machine.afterCheck
  split
  · exact hf _ h
  · exact h

/-! ### Reports of other classes, and packets -/

theorem State.report_spares {cls sev : Nat} {c : Ctx} (hc : cls < 0x1C0) (h2 : cls ≠ 0x02) (h6 : cls ≠ 0x06) (h : Spares s t) :
    Spares s (t.report cls sev c) := by
  have hcnt : timerReg (Reg.FLT_CLASS_CNT cls) = false :=
    timerReg_eq_false (by unfold Reg.FLT_CLASS_CNT; omega) (by unfold Reg.FLT_CLASS_CNT; omega)
      (by unfold Reg.FLT_CLASS_CNT Reg.MOD_FN; omega)
  refine RegsBut.report (fun x hx => ?_) h
  simp only [reportRegs, List.mem_cons, List.not_mem_nil, or_false] at hx
  rcases hx with rfl | rfl | rfl | rfl | rfl | rfl | rfl
  · exact hcnt
  all_goals rfl

theorem State.tryForward_spares {r : Nat} {k : Packet} {q : Option Nat} {b : Bool} (e : t.tryForward r k q b = some u) (h : Spares s t) :
    Spares s u := h.only (State.tryForward_only (p := { fab := true, tor := true }) rfl (Only.refl _ _) e) rfl

theorem State.deliver_spares {k : Packet} (h : Spares s t) : Spares s (t.deliver k) :=
  h.only (State.deliver_only (p := { fab := true }) rfl (Only.refl _ _)) rfl

theorem State.forward_spares {r : Nat} {k : Packet} {q : Option Nat} (h : Spares s t) : Spares s (t.forward r k q) := by
  have hr : timerReg (Reg.FAB_STATUS r) = false := by
    refine timerReg_of_low_bytes ?_ ?_ ?_ <;> unfold Reg.FAB_STATUS <;> omega
  unfold State.forward
  split
  · exact State.tryForward_spares ‹_› h
  · unfold State.discardPacket
    dsimp only
    refine RegsBut.ite (RegsBut.ite (State.deliver_spares (h.bump hr)) ?_) (h.bump hr)
    split
    · exact State.tryForward_spares ‹_› (h.bump hr)
    · exact (h.bump hr).bump hr

theorem State.send_spares {r : Nat} {k : Packet} (h : Spares s t) : Spares s (t.send r k) :=
  RegsBut.ite (State.deliver_spares h) (State.forward_spares h)

/-! ### Sump reads and the copy of a unit (R412, R567, R574) -/

theorem State.tagMismatch_spares {page off : Nat} {c : Ctx} (h : Spares s t) : Spares s (t.tagMismatch page c off) :=
  State.report_spares (cls := 0x09) (by decide) (by decide) (by decide) (h.bump rfl)

theorem State.ueReport_spares {a : Nat} {c : Ctx} {b : Bool} (h : Spares s t) : Spares s (t.ueReport a c b) := by
  have h1 : timerReg (Reg.LDG_ECC_STATUS (a / 2 ^ 36 / 2) (a / 2 ^ 36 % 2)) = false := by
    refine timerReg_of_low_bytes ?_ ?_ ?_ <;> unfold Reg.LDG_ECC_STATUS <;> omega
  have h2 : timerReg (Reg.LDG_UE_ADDR (a / 2 ^ 36 / 2) (a / 2 ^ 36 % 2)) = false := by
    refine timerReg_of_low_bytes ?_ ?_ ?_ <;> unfold Reg.LDG_UE_ADDR <;> omega
  exact State.report_spares (cls := 0x07) (by decide) (by decide) (by decide) (((h.bump h1).setReg h2).regs (by rfl))

theorem State.tagReadPage_spares {c : Ctx} {page off : Nat} {whole : Bool} {fmt bid : Option Nat} (h : Spares s t) :
    Spares s (t.tagReadPage c page whole fmt bid off).1 := by
  have hev : ∀ {x : State} (failed : Bool), Spares s x → Spares s (x.tagEvents c failed) :=
    fun _ hx => hx.only (State.tagEvents_only (p := { obs := true }) rfl (Only.refl _ _)) rfl
  unfold State.tagReadPage
  split
  · exact h.bump rfl
  · split
    · have k : Spares s (t.report 0x01 2 (pageCtx page c)) := State.report_spares (by decide) (by decide) (by decide) h
      exact k
    · split
      · exact State.tagMismatch_spares (hev true (hev true h))
      · exact hev false h

theorem State.sumpCheck_spares {c : Ctx} {p : Nat} (h : Spares s t) : Spares s (t.sumpCheck c p).1 := by
  have k := State.tagReadPage_spares (c := c) (page := p) (off := 0) (whole := true) (fmt := none) (bid := none) h
  unfold State.sumpCheck
  split
  · rename_i e
    rw [e] at k
    split
    · exact State.ueReport_spares k
    · exact k
  · exact k

theorem State.writeImagePage_spares {pl ip step : Nat} {d : List Byte} (h : Spares s t) : Spares s (t.writeImagePage pl ip step d) :=
  h.only (State.writeImagePage_only (p := Parts.memory) rfl (Only.refl _ _)) rfl

theorem State.foldAll_spares {step : Nat} (h : Spares s t) : Spares s (t.foldAll step).1 := by
  refine RegsBut.foldChecks h fun x stack hx => ?_
  refine RegsBut.afterCheck (RegsBut.foldChecks hx fun y e hy => ?_) fun y hy =>
    hy.only (State.clearDelta_only (p := Parts.memory.or { sump := true }) rfl (Only.refl _ _)) rfl
  unfold State.foldPage
  extract_lets ip
  split
  · exact hy
  · exact RegsBut.afterCheck (State.sumpCheck_spares hy) fun z hz => State.writeImagePage_spares hz

theorem ckpStatus_spared : timerReg Reg.CKP_STATUS = false := rfl

theorem sumpStatus_spared {r : Nat} : timerReg (Reg.LDG_SUMP_STATUS r) = false := by
  refine timerReg_of_low_bytes ?_ ?_ ?_ <;> unfold Reg.LDG_SUMP_STATUS <;> omega

theorem State.countInactive_spares {r : Nat} (h : Spares s t) : Spares s (t.countInactive r) := by
  refine h.fput ?_
  refine timerReg_of_low_bytes ?_ ?_ ?_ <;> unfold Reg.LDG_DIRTY_CTL <;> omega

theorem State.dropInactive_spares (h : Spares s t) : Spares s t.dropInactive :=
  RegsBut.foldl (h.regs (by rfl)) fun _ _ hx => State.countInactive_spares hx

theorem State.stopCut_spares (h : Spares s t) : Spares s t.stopCut := by
  unfold State.stopCut
  split
  · exact h
  · extract_lets s1 s2 s3
    have h1 : Spares s s1 := RegsBut.ite (h.fput rfl) h
    have h2 : Spares s s2 := RegsBut.foldl h1 fun _ _ hx => hx.fput sumpStatus_spared
    have hd : Spares s s2.clearDeltas :=
      h2.only (State.clearDeltas_only (p := Parts.memory.or { sump := true }) rfl (Only.refl _ _)) rfl
    have h3 : Spares s s3 := RegsBut.fput ckpStatus_spared (State.dropInactive_spares hd)
    clear_value s3
    exact h3.regs (by rfl)

theorem State.cutFails_spares {stack cls : Nat} (h : Spares s t) : Spares s (t.cutFails stack cls) := by
  unfold State.cutFails
  split
  · exact State.stopCut_spares (h.regs (by rfl))
  · exact h

theorem State.deltaFull_spares {stack : Nat} {c : Cut} (h : Spares s t) : Spares s (t.deltaFull stack c) := by
  have k := State.foldAll_spares (step := c.step)
    (h.fput (o := Reg.CKP_STATUS) (f := Fld.CKP_STATUS_SHADOW_VALID) (v := 0) rfl)
  unfold State.deltaFull
  split
  · rename_i e
    rw [e] at k
    exact State.cutFails_spares k
  · rename_i e
    rw [e] at k
    exact (RegsBut.ite k (k.bump rfl)).regs (by rfl)

theorem State.putImage_spares {stack ip : Nat} {d : List Byte} (h : Spares s t) : Spares s (t.putImage stack ip d) := by
  have hp : timerReg (Reg.LDG_SUMP_PROGRESS (stack / 2)) = false := by
    refine timerReg_of_low_bytes ?_ ?_ ?_ <;> unfold Reg.LDG_SUMP_PROGRESS <;> omega
  unfold State.putImage
  split
  · exact h
  · extract_lets s1
    have h1 : Spares s s1 := RegsBut.ite (State.deltaFull_spares h) h
    clear_value s1
    split
    · exact h1
    · extract_lets w wSump s2 s3 s3Sump s4
      have h2 : Spares s s2 := by
        unfold s2
        split
        · split
          · exact State.writeImagePage_spares h1
          · exact h1
        · exact h1.only (p := Parts.memory.or { sump := true })
            (Only.put_sump rfl (State.writeSump_only rfl (State.writeImagePage_only rfl (Only.refl _ _)))) rfl
      clear_value s2
      have h3 : Spares s s3 := h2.only (State.evCount_only (p := { obs := true }) rfl (Only.refl _ _)) rfl
      clear_value s3
      have h4 : Spares s s4 := h3.regs (by rfl)
      exact (h4.bump sumpStatus_spared).fput hp

theorem State.copyUnit_spares {r : Prot} {page : Nat} (h : Spares s t) : Spares s (t.copyUnit r page) := by
  have k := RegsBut.foldChecks (f := fun s p => s.sumpCheck (sumpCtx (page / 2 ^ 24)) p) (xs := unitOf r page) h
    fun _ _ hx => State.sumpCheck_spares hx
  unfold State.copyUnit
  extract_lets ps st first
  split
  · rename_i e
    rw [e] at k
    exact State.cutFails_spares k
  · rename_i s1 e
    rw [e] at k
    extract_lets step img ip s2 s3 s4 s5
    have h5 : Spares s s5 := by
      unfold s5
      split
      · have h2 : Spares s s2 := RegsBut.foldl k fun _ _ hx => State.putImage_spares hx
        have h3 : Spares s s3 := h2.only (State.writeSump_only (p := Parts.memory) rfl (Only.refl _ _)) rfl
        have h4 : Spares s s4 := RegsBut.foldl h3 fun _ _ hx =>
          RegsBut.ite hx (hx.only (State.sealSump_only (p := Parts.memory) rfl (Only.refl _ _)) rfl)
        exact h4.bump rfl
      · exact State.putImage_spares k
    exact State.countInactive_spares (RegsBut.foldl h5 fun _ _ hx =>
      hx.only (State.clearInactive_only (p := { dirty := true }) rfl (Only.refl _ _)) rfl)

/-! ### Writes of a tag-aware engine (R53, R413, R568) -/

theorem State.sumpGuard_spares {page : Nat} (h : Spares s t) : Spares s (t.sumpGuard page) := by
  unfold State.sumpGuard
  split
  · exact (State.copyUnit_spares h).bump sumpStatus_spared
  · exact h

theorem State.admitHeld_spares {ps : List Nat} (h : Spares s t) : Spares s (t.admitHeld ps) := by
  refine RegsBut.foldl h fun x w hx => RegsBut.ite hx ?_
  refine RegsBut.writePlain (RegsBut.regs (by rfl) (RegsBut.foldl hx fun y p hy => ?_))
  split
  · exact State.copyUnit_spares hy
  · exact hy

theorem State.readyPages_spares {ps : List Nat} (h : Spares s t) : Spares s (t.readyPages ps) :=
  State.admitHeld_spares (RegsBut.foldl h fun _ _ hx => State.sumpGuard_spares hx)

theorem State.engWrite_spares {a : Nat} {d : List Byte} (h : Spares s t) : Spares s (t.engWrite a d) :=
  (State.readyPages_spares h).only (State.write_only (p := Parts.memory) rfl (Only.refl _ _)) rfl

theorem State.unplaced_spares {c : Ctx} {ws : List (Nat × List Byte)} (h : Spares s t) : Spares s (t.unplaced c ws) :=
  RegsBut.foldl h fun _ _ hx => RegsBut.ite hx (State.report_spares (by decide) (by decide) (by decide) hx)

theorem State.awareWrites_spares {c : Ctx} {fmt step : Nat} {bid : Nat → Nat} {ws : List (Nat × List Byte)} (h : Spares s t) :
    Spares s (t.awareWrites c fmt step bid ws).1 := by
  have hseal : ∀ {x : State} {page f st id : Nat}, Spares s x → Spares s (x.sealPage page f st id) :=
    fun hx => hx.only (State.sealPage_only (p := Parts.memory) rfl (Only.refl _ _)) rfl
  unfold State.awareWrites
  extract_lets pl pages s0 cover bad s1 s2 s3
  have h0 : Spares s s0 := State.readyPages_spares (State.unplaced_spares h)
  have h1 : Spares s s1 := RegsBut.foldl h0 fun _ _ hx => State.engWrite_spares hx
  have h2 : Spares s s2 := RegsBut.foldl h1 fun _ _ hx => RegsBut.ite (hseal hx) (RegsBut.ite hx (hseal hx))
  exact RegsBut.foldl h2 fun _ _ hx => State.tagMismatch_spares hx

/-! ### A descriptor that is stopped at its abort point (R92, R115) -/

theorem State.writeRow_spares {g : GatherRun} {b d : List Byte} {addr : Nat} (h : Spares s t) : Spares s (t.writeRow g b addr d).1 := by
  unfold State.writeRow
  extract_lets c
  split
  · exact State.send_spares h
  · exact State.awareWrites_spares h

theorem State.stopGather_spares {d : Started} (h : Spares s t) : Spares s (t.stopGather d) := by
  unfold State.stopGather
  split
  · refine RegsBut.regs (t := t.looseRows _ d.bytes) (by rfl) ?_
    exact RegsBut.ite (RegsBut.foldl h fun _ _ hx => State.writeRow_spares (hx.regs (by rfl))) h
  · exact h

theorem State.endRun_spares (h : Spares s t) : Spares s t.endRun := by
  unfold State.endRun
  split
  · exact h
  · extract_lets s0 s1 s1Arr s2
    have h0 : Spares s s0 := RegsBut.ite (h.bump rfl) h
    clear_value s0
    have h2 : Spares s s2 := h0.regs (by rfl)
    exact h2.setReg rfl

theorem State.stopArray_spares {d : Started} (h : Spares s t) : Spares s (t.stopArray d) := by
  unfold State.stopArray
  split
  · exact RegsBut.ite (State.endRun_spares h) h
  · exact h

theorem State.stopUpdate_spares {d : Started} (h : Spares s t) : Spares s (t.stopUpdate d) := by
  unfold State.stopUpdate
  extract_lets r
  have hs : timerReg (Reg.UPD_STATUS r) = false := by
    refine timerReg_of_low_bytes ?_ ?_ ?_ <;> unfold Reg.UPD_STATUS <;> omega
  have hr : timerReg (Reg.UPD_RUNNING r) = false := by
    refine timerReg_of_low_bytes ?_ ?_ ?_ <;> unfold Reg.UPD_RUNNING <;> omega
  split
  · exact RegsBut.ite (((h.regs (by rfl)).fput hs).setReg hr) h
  · exact h

theorem State.stopDesc_spares {d : Started} {o : Done} (h : Spares s t) : Spares s (t.stopDesc d o) :=
  (State.stopUpdate_spares (State.stopGather_spares (State.stopArray_spares h))).regs (by rfl)

theorem State.dropNode_spares {job : Nat} (h : Spares s t) : Spares s (t.dropNode job) := by
  unfold State.dropNode
  extract_lets held tFab s1
  have h1 : Spares s s1 := h.regs (by rfl)
  clear_value s1
  refine RegsBut.ite ?_ h1
  exact (RegsBut.ite h1 ((h1.regs (by rfl)).count rfl)).setReg rfl

theorem State.haltRope_spares {d : Started} (h : Spares s t) : Spares s (t.haltRope d) := by
  unfold State.haltRope
  split
  · rename_i r _
    have hr : Spares s (t.rootDisarm r) :=
      RegsBut.ite h (State.dropNode_spares (RegsBut.foldl h fun _ _ hx => State.send_spares hx))
    exact RegsBut.ite (hr.regs (by rfl)) h
  · exact h

theorem State.haltScan_spares {d : Started} (h : Spares s t) : Spares s (t.haltScan d) := by
  unfold State.haltScan
  split
  · refine RegsBut.ite ?_ h
    exact RegsBut.fput rfl (RegsBut.fput rfl (RegsBut.fput rfl (h.regs (by rfl))))
  · exact h

theorem State.haltDesc_spares {d : Started} {o : Done} (h : Spares s t) : Spares s (t.haltDesc d o) :=
  State.stopDesc_spares ((State.haltScan_spares (State.haltRope_spares h)).only
    (State.haltCaddy_only (p := { caddy := true }) rfl (Only.refl _ _)) rfl)

end Sys2Proof.Machine

/-!
SUPPORT. A descriptor whose request has failed ends FAULTED and is reported once (spec/10 R467).
-/
namespace Sys2Proof.Machine

open Sys2Proof

variable {s t : State} {n seq : Nat} {d : Started}

/-- The stop of a GATHER may end the descriptor of a cut, as its rows are written. -/
theorem State.stopGather_mayFault {x : Started} : MayFault s (s.stopGather x) := by
  unfold State.stopGather
  split
  · rename_i g _
    have hrow : ∀ (y : State) (i : Nat) (v : List Byte), MayFault y (y.writeRow g x.bytes i v).1 := by
      intro y i v
      unfold State.writeRow
      extract_lets c
      split
      · exact (MayFault.refl y).started ((State.send_only (p := { regs := true, fab := true, tor := true }) rfl (Only.refl _ _)).same_started rfl)
      · exact State.awareWrites_engWrote.faults
    have hl : MayFault s (s.looseRows g x.bytes) := by
      unfold State.looseRows
      extract_lets p k
      split
      · exact (MayFault.refl s).foldl fun y i => (MayFault.refl y).started (u := y.drew k) rfl |>.trans (hrow _ _ _)
      · exact MayFault.refl s
    exact hl.started rfl
  · exact MayFault.refl s

theorem reduceStop_faulted {x : Started} {o : Done} (ho : o.status = stFAULTED) : (reduceStop x o).status = stFAULTED := by
  unfold reduceStop
  split
  · exact ho
  · exact ho

/-- Until its outcome is set, a descriptor that is stopped keeps what it has, but that it may have ended FAULTED as a cut. -/
theorem State.haltDesc_endOf_faulted {o : Done} (hf : s.findStarted n seq = some d) (hd : d.done = none) (hn : d.ring = n) (hq : d.seq = seq)
    (ho : o.status = stFAULTED) : (s.haltDesc d o).endOf n seq = some stFAULTED := by
  subst hn hq
  unfold State.haltDesc State.stopDesc
  generalize ha : ((((s.haltRope d).haltScan d).haltCaddy d).stopArray d) = a
  have k : Only { regs := true, fab := true, tor := true, dark := true, scan := true, caddy := true, arr := true } s a :=
    ha ▸ State.stopArray_only rfl (State.haltCaddy_only rfl (State.haltScan_only rfl (State.haltRope_only rfl (Only.refl _ s))))
  have h1 : MayFault s (a.stopGather d) := ((MayFault.refl s).started (k.same_started rfl)).trans State.stopGather_mayFault
  have h2 : MayFault s (((a.stopGather d).stopUpdate d).endRank d.ring d.seq) :=
    h1.started ((State.endRank_only (p := { regs := true, upd := true, ranks := true }) rfl
      (State.stopUpdate_only rfl (Only.refl _ _))).same_started rfl)
  generalize (((a.stopGather d).stopUpdate d).endRank d.ring d.seq) = b at h2 ⊢
  obtain ⟨y, hb, hy | ⟨x, hy, hx⟩⟩ := h2.findStarted hf hd
  · rw [State.endOf_of_findStarted (State.findStarted_setDone hb hy) rfl, Started.outcome_status, State.doneDie_status,
      Started.located_status, reduceStop_faulted ho]
  · rw [State.endOf_of_findStarted (State.findStarted_setDone_done hb (by rw [hy]; rfl)) hy, hx]

theorem State.endOf_congr (e : t.started = s.started) : t.endOf n seq = s.endOf n seq := by
  rw [State.endOf, State.endOf, State.findStarted_congr e]

theorem timeoutClass_cases (lower : Bool) : timeoutClass lower = 0x06 ∨ timeoutClass lower = 0x02 := by
  cases lower
  · exact .inr rfl
  · exact .inl rfl

theorem timerReg_timeoutClass (lower : Bool) : timerReg (Reg.FLT_CLASS_CNT (timeoutClass lower)) = true := by
  cases lower <;> rfl

/-- The report of a timeout after steps that leave its count alone counts it once. -/
theorem Spares.counted_report {lower : Bool} {sev : Nat} {c : Ctx} (w : tblWf regReset s.regs = true) (h : Spares s t) :
    Counted s (t.report (timeoutClass lower) sev c) (timeoutClass lower) := by
  have hc : timeoutClass lower < 0x1C0 ∧ timeoutClass lower ≠ 0x11 := by
    rcases timeoutClass_cases lower with e | e <;> rw [e] <;> decide
  have hr : t.reg (Reg.FLT_CLASS_CNT (timeoutClass lower)) = s.reg (Reg.FLT_CLASS_CNT (timeoutClass lower)) :=
    h.same w _ (by simp [timerReg_timeoutClass])
  unfold Counted Rose
  rw [State.report_count hc.1 (.inl hc.2) (h.wf w), State.fget, hr, State.fget]

/-- R467. The descriptor of a failed request ends FAULTED, and the class is counted once; what came before in s changed neither registers
nor descriptors. -/
theorem State.timedOut_faults {die target : Nat} {lower : Bool} (w : tblWf regReset s.regs = true) (hf : s.findStarted n seq = some d)
    (hd : d.done = none) (hr : t.regs = s.regs) (hs : t.started = s.started) :
    (t.timedOut d die target lower).endOf n seq = some stFAULTED ∧ Counted s (t.timedOut d die target lower) (timeoutClass lower) := by
  obtain ⟨hn, hq⟩ := State.findStarted_key hf
  constructor
  · unfold State.timedOut
    rw [State.endOf_congr ((State.report_only (p := Parts.report) rfl (Only.refl _ _)).same_started rfl)]
    exact State.haltDesc_endOf_faulted ((State.findStarted_congr hs).trans hf) hd hn hq rfl
  · exact Spares.counted_report w (State.haltDesc_spares ((Spares.refl s).regs hr))

end Sys2Proof.Machine

/-!
SUPPORT. A function that leaves RUN: its state and its DRAIN_LIMIT, and the counts of timeouts, while ring by ring its fetched work is
cancelled (spec/02 R104, R105, R115).
-/
namespace Sys2Proof.Machine

open Sys2Proof

variable {s t : State}

/-! ### Completions (R82-R85, R97-R99) -/

theorem State.pieceWrite_spares {who : Master} {vc addr : Nat} {d : List Byte} (h : Spares s t) : Spares s (t.pieceWrite who vc addr d) := by
  have hun : ∀ {c : Ctx}, Spares s (t.unmapped addr c) := State.report_spares (by decide) (by decide) (by decide) h
  have hplain : ∀ {x : State} {a : Nat}, Spares s x → Spares s (x.plainWrite who a d) := fun hx =>
    RegsBut.ite (RegsBut.ite ((hx.regs (by rfl)).bump sumpStatus_spared) (hx.regs (by rfl))) hx.writePlain
  unfold State.pieceWrite
  extract_lets r
  split
  · exact hplain h.crossTo
  · exact hplain h.crossTo
  · exact RegsBut.ite (h.crossTo.regs (by rfl)) hun
  · exact State.deliver_spares h
  · exact hun
  · exact hun
  · exact RegsBut.ite (State.send_spares h) hun

theorem State.ringWrite_spares {who : Master} {loc : Bool} {a : Nat} {d : List Byte} (h : Spares s t) : Spares s (t.ringWrite who loc a d) :=
  RegsBut.ite (RegsBut.foldl h fun _ _ hx => State.pieceWrite_spares hx) (h.regs (by rfl))

theorem timerReg_of_ringReg {off : Nat} (h : ringReg off = true) : timerReg off = false := by
  simp only [ringReg, Bool.and_eq_true, decide_eq_true_eq] at h
  exact timerReg_eq_false (by unfold Reg.FLT_CLASS_CNT; omega) (by unfold Reg.FLT_CLASS_CNT; omega) (by unfold Reg.MOD_FN; omega)

theorem State.complete_spares {n seq slots keep : Nat} {b : List Byte} {d : Done} (h : Spares s t) : Spares s (t.complete n b seq slots keep d) := by
  have hm : t.cqOf n < 256 := State.cqOf_lt
  have htail : timerReg (Reg.RING_CQ_TAIL (t.cqOf n)) = false := timerReg_of_ringReg (ringReg_of (by unfold Reg.RING_CQ_TAIL; omega))
  have hstat : timerReg (Reg.RING_CQ_STATUS (t.cqOf n)) = false := timerReg_of_ringReg (ringReg_of (by unfold Reg.RING_CQ_STATUS; omega))
  have hrec : Spares s (t.putRecord (ringMaster n seq b) (t.cqOf n) seq (dSTEP b) d (dIRQ b)) := by
    unfold State.putRecord
    extract_lets base loc tail slot s1 s2 s3
    have h1 : Spares s s1 := State.ringWrite_spares h
    have h2 : Spares s s2 := State.ringWrite_spares h1
    have h3 : Spares s s3 := h2.count htail
    exact RegsBut.ite (RegsBut.ite h3.msixSend h3) (h.bump hstat)
  have hrel : Spares s ((t.putRecord (ringMaster n seq b) (t.cqOf n) seq (dSTEP b) d (dIRQ b)).release (t.cqOf n) (slots - keep)) :=
    hrec.setReg hstat
  exact RegsBut.ite (RegsBut.sendEvent (Nat.mod_lt _ (by decide)) (fun _ hx => timerReg_of_ringReg hx) hrel) hrel

theorem State.cancelRing_spares {f n : Nat} (h : Spares s t) : Spares s (t.cancelRing f n) := by
  refine RegsBut.foldl (h.regs (by rfl)) fun x y hx => State.complete_spares ?_
  exact hx.only (State.forgetPrefetch_only (p := { arr := true }) rfl (Only.refl _ _)) rfl

/-! ### DRAIN -/

variable {f : Nat}

theorem timerReg_fn (hf : f < 0x300) : timerReg (Reg.MOD_FN f) = true := by
  refine decide_eq_true (.inr (.inr ?_))
  unfold Reg.MOD_FN
  omega

/-- A report leaves the registers of the functions alone, whatever its class. -/
theorem State.report_modFn {cls sev : Nat} {c : Ctx} (w : tblWf regReset s.regs = true) (hf : f < 0x300) :
    (s.report cls sev c).reg (Reg.MOD_FN f) = s.reg (Reg.MOD_FN f) := by
  refine (RegsBut.report (l := (· ∈ reportRegs cls)) (fun _ h => h) (RegsBut.refl _ s)).same w _ ?_
  simp only [reportRegs, List.mem_cons, List.not_mem_nil, or_false, Reg.MOD_FN, Reg.FLT_CLASS_CNT, Reg.FLT_SEV_CNT, Reg.FLT_SUPPRESSED,
    Reg.EVR_HEAD_SEQ, Reg.EVR_DROPPED, Reg.OBS_WHISTLE_STATUS]
  omega

/-- A function in RUN enters DRAIN by its STATE; the rest leaves the registers of functions and the counts of timeouts alone. -/
theorem State.enterDrain_spares (h : s.fnState f = fnRUN) : Spares (s.setFn f fnDRAIN) (s.enterDrain f) := by
  unfold State.enterDrain
  rw [if_pos h]
  extract_lets s1 s2 s3 s4
  have h1 : Spares s1 s1 := Spares.refl s1
  have h3 : Spares s1 s3 := RegsBut.ite (h1.regs (by rfl)) (h1.regs (by rfl))
  have h4 : Spares s1 s4 := RegsBut.foldl h3 fun _ _ hx => State.cancelRing_spares hx
  exact RegsBut.ite (State.stopCut_spares h4) h4

theorem State.enterDrain_of_not_run (h : s.fnState f ≠ fnRUN) : s.enterDrain f = s := by
  unfold State.enterDrain
  rw [if_neg h]

theorem Fld.modFnState_ok : Fld.MOD_FN_STATE.ok := ⟨by decide, by decide⟩

theorem State.enterDrain_fnState (w : tblWf regReset s.regs = true) (hf : f < 0x300) (h : s.fnState f = fnRUN) :
    (s.enterDrain f).fnState f = fnDRAIN := by
  have k := (State.enterDrain_spares h).same (State.fput_wf w) (Reg.MOD_FN f) (by simp [timerReg_fn hf])
  rw [State.fnState, State.fget, k]
  exact (State.fget_fput w Fld.modFnState_ok).trans rfl

theorem State.enterDrain_limit (w : tblWf regReset s.regs = true) (hf : f < 0x300) :
    (s.enterDrain f).fget (Reg.MOD_FN f) Fld.MOD_FN_DRAIN_LIMIT = s.fget (Reg.MOD_FN f) Fld.MOD_FN_DRAIN_LIMIT := by
  by_cases h : s.fnState f = fnRUN
  · have k := (State.enterDrain_spares h).same (State.fput_wf w) (Reg.MOD_FN f) (by simp [timerReg_fn hf])
    rw [State.fget, k]
    exact State.fget_fput_fld w Fld.modFnState_ok (.inr (by decide))
  · rw [State.enterDrain_of_not_run h]

/-- No timeout is counted on the way. -/
theorem State.enterDrain_timeouts {lower : Bool} (w : tblWf regReset s.regs = true) (hf : f < 0x300) :
    (s.enterDrain f).reg (Reg.FLT_CLASS_CNT (timeoutClass lower)) = s.reg (Reg.FLT_CLASS_CNT (timeoutClass lower)) := by
  by_cases h : s.fnState f = fnRUN
  · have hne : Reg.FLT_CLASS_CNT (timeoutClass lower) ≠ Reg.MOD_FN f := by
      unfold Reg.FLT_CLASS_CNT Reg.MOD_FN
      omega
    rw [(State.enterDrain_spares h).same (State.fput_wf w) _ (by simp [timerReg_timeoutClass])]
    exact State.reg_fput_ne w hne
  · rw [State.enterDrain_of_not_run h]

theorem State.enterDrain_started : (s.enterDrain f).started = s.started :=
  (State.enterDrain_only (p := Parts.engWrite.or
    { drainAt := true, hostW := true, sq := true, pcie := true, order := true, fab := true, tor := true }) rfl (Only.refl _ s)).same_started rfl

/-- R115 step 5. A function that aborts its work is STOPPED. -/
theorem State.abortFn_fnState (c : s.canon = true) : (s.abortFn f).fnState f = fnSTOPPED := by
  unfold State.abortFn
  extract_lets cqs s0 s1 s2
  have h0 : Keeps s s0 := Keeps.ite (State.withdrawDisagreements_keeps (Keeps.refl s)) (Keeps.refl s)
  have h1 : Keeps s s1 := Keeps.foldl h0 fun _ _ hx => State.abortDesc_keeps hx
  have h2 : Keeps s s2 := by
    unfold s2
    split
    · exact State.disown_keeps (Keeps.refl s)
    · split
      · exact State.bumpGen_keeps (State.releaseAll_keeps (Keeps.refl s))
      · exact State.bumpGen_keeps (Keeps.ite (State.refuseHomes_keeps h1) h1)
  have h3 : Keeps s (cqs.foldl State.auditCq (s2.auditFn f)) := Keeps.foldl (State.auditFn_keeps h2) fun _ _ hx => State.auditCq_keeps hx
  exact (State.fget_fput (State.canon_regs (h3.canon c)) Fld.modFnState_ok).trans rfl

/-- A function other than a ring's with a started descriptor is not drained. -/
theorem State.not_drained {d : Started} (hf : f < 0x100) (hd : d ∈ s.started) (hfn : d.fn = f) : s.drained f = false := by
  have hany : s.started.any (·.fn == f) = true := List.any_eq_true.mpr ⟨d, hd, by simpa using hfn⟩
  unfold State.drained
  rw [if_neg (by simp; omega), if_neg (by simp; omega), hany]
  rfl

/-- R104, R105. Where a function with started work is after it was taken out of RUN: STOPPED when its DRAIN_LIMIT is 0, else in DRAIN. -/
theorem State.leaveRun_fnState {d : Started} (c : s.canon = true) (hf : f < 0x100) (hd : d ∈ s.started) (hfn : d.fn = f)
    (h : s.fnState f = fnRUN ∨ s.fnState f = fnDRAIN) :
    (s.leaveRun f).fnState f = if s.fget (Reg.MOD_FN f) Fld.MOD_FN_DRAIN_LIMIT = 0 then fnSTOPPED else fnDRAIN := by
  have w := State.canon_regs c
  have hst : (s.enterDrain f).fnState f = fnDRAIN := by
    rcases h with h | h
    · exact State.enterDrain_fnState w (by omega) h
    · rw [State.enterDrain_of_not_run (by rw [h]; decide), h]
  have hdr : (s.enterDrain f).drained f = false := State.not_drained hf (by rwa [State.enterDrain_started]) hfn
  unfold State.leaveRun
  simp only [hst, State.enterDrain_limit w (show f < 0x300 by omega), hdr]
  by_cases hz : s.fget (Reg.MOD_FN f) Fld.MOD_FN_DRAIN_LIMIT = 0
  · simp [hz, State.abortFn_fnState ((State.enterDrain_keeps (Keeps.refl s)).canon c)]
  · simp [hz, hst]

/-- A function out of RUN and DRAIN stays where it is. -/
theorem State.leaveRun_of_stopped (hr : s.fnState f ≠ fnRUN) (hd : s.fnState f ≠ fnDRAIN) : s.leaveRun f = s := by
  unfold State.leaveRun
  simp [State.enterDrain_of_not_run hr, hd]

/-- A function that has a DRAIN_LIMIT leaves RUN without an abort. -/
theorem State.leaveRun_of_limit (w : tblWf regReset s.regs = true) (hf : f < 0x300)
    (h : s.fget (Reg.MOD_FN f) Fld.MOD_FN_DRAIN_LIMIT ≠ 0) : s.leaveRun f = s.enterDrain f := by
  unfold State.leaveRun
  simp [State.enterDrain_limit w hf, h]

end Sys2Proof.Machine

/-!
O32. The request timers, one command after another (spec/10 R465-R468): a request that has reached the end of R466 fails its descriptor
through `State.timedOut`, or its read at the master; a read is sent once more under the next tag; the module timer takes its function out of
RUN.
-/
namespace Sys2Proof.Machine

open Sys2Proof

variable {s : State} {n seq die target tag : Nat} {write lower : Bool} {d : Started} {g : GatherRun} {p : GPos} {x : RemRead}

/-! ### The region request timer (R466, R467) -/

section
variable (hf : s.findStarted n seq = some d) (hd : d.done = none)
include hf hd

theorem exec_regionTimerExpire (h1 : dieAssigned die = true) (h2 : dieAssigned target = true) :
    exec (.regionTimerExpire n seq die target write lower) s =
      .next (requestTimer s d 0 die target write (lower || s.pathDown die target)) := by
  show execRegionTimerExpire n seq die target write lower s = _
  simp only [execRegionTimerExpire, hf, hd, h1, h2, Option.isNone_none, Bool.and_self, if_true]

omit hd in
theorem requestTimer_reissues (ht : s.flt.timed.find? (isTimed 0 n seq die target) = none) :
    requestTimer s d 0 die target false lower = s.newTag.2.addTimed
      { kind := 0, ring := n, seq := seq, die := die, target := target, tag := s.fab.nextTag, lower := lower, since := s.clk.now } := by
  obtain ⟨rfl, rfl⟩ := State.findStarted_key hf
  simp only [requestTimer, ht, Bool.false_eq_true, if_false]
  rfl

/-- R466. A write is not sent again. -/
theorem requestTimer_write_faults (w : tblWf regReset s.regs = true) (ht : s.flt.timed.find? (isTimed 0 n seq die target) = none) :
    (requestTimer s d 0 die target true lower).endOf n seq = some stFAULTED ∧
      Counted s (requestTimer s d 0 die target true lower) (timeoutClass lower) := by
  obtain ⟨hn, hq⟩ := State.findStarted_key hf
  have e : requestTimer s d 0 die target true lower = s.timedOut d die target lower := by
    simp only [requestTimer, hn, hq, ht, if_true]
  rw [e]
  exact State.timedOut_faults w hf hd rfl rfl

/-- R466. The second expiry of a request fails it. -/
theorem requestTimer_again_faults {y : Timed} (w : tblWf regReset s.regs = true)
    (ht : s.flt.timed.find? (isTimed 0 n seq die target) = some y) :
    (requestTimer s d 0 die target write lower).endOf n seq = some stFAULTED ∧
      Counted s (requestTimer s d 0 die target write lower) (timeoutClass (lower || y.lower)) := by
  obtain ⟨hn, hq⟩ := State.findStarted_key hf
  unfold requestTimer
  rw [hn, hq]
  split
  · rename_i z hz
    obtain rfl : z = y := Option.some.inj (hz.symm.trans ht)
    extract_lets s1
    have k : Only { clk := true } s s1 := Only.ite (Only.refl _ s) (State.reach_only rfl (Only.refl _ s))
    clear_value s1
    exact State.timedOut_faults w hf hd (k.same_regs rfl) (k.same_started rfl)
  · rename_i hz
    exact absurd (hz.symm.trans ht) (by simp)

end

/-! ### The fabric request timer of a row (R464, R466) -/

theorem State.hasRoute_congr {t : State} {r chip : Nat} (e : t.regs = s.regs) (h : t.inForce = s.inForce) : t.hasRoute r chip = s.hasRoute r chip := by
  unfold State.hasRoute State.route State.hopPorts State.portState State.portCfg State.fget State.cfg State.reg
  rw [e, h]

section
variable (hp : s.rowOfTag tag = some (g, p))
include hp

theorem exec_fabricTimerExpire_row :
    exec (.fabricTimerExpire tag lower) s = .next (rowTimer s g p (lower || s.routeLost g.region p.chip)) := by
  show execFabricTimerExpire tag lower s = _
  simp only [execFabricTimerExpire, hp]

end

section
variable (hf : s.findStarted g.ring g.seq = some d)
include hf

/-- R466. The second expiry of a row request fails its GATHER. -/
theorem rowTimer_again_faults (w : tblWf regReset s.regs = true) (hd : d.done = none)
    (ha : s.flt.timed.any (fun t => t.kind == 1 && t.tag == p.tag) = true) :
    (rowTimer s g p lower).endOf g.ring g.seq = some stFAULTED ∧ Counted s (rowTimer s g p lower) (timeoutClass lower) := by
  unfold rowTimer
  split
  · rename_i hz
    exact absurd (hz.symm.trans hf) (by simp)
  · rename_i y hy
    obtain rfl : y = d := Option.some.inj (hy.symm.trans hf)
    extract_lets chip s1 again
    have k : Only { clk := true } s s1 := Only.ite (Only.refl _ s) (State.reach_only rfl (Only.refl _ s))
    have hag : again = true := by
      unfold again
      rw [k.same_flt rfl, ha]
    clear_value s1 again
    rw [hag, if_pos (by simp)]
    exact State.timedOut_faults w hf hd (k.same_regs rfl) (k.same_started rfl)

/-- R466. A row whose chip has a route is asked for once more, under the next tag. -/
theorem rowTimer_reissues (hn : s.flt.timed.any (fun t => t.kind == 1 && t.tag == p.tag) = false) (hr : s.hasRoute g.region p.chip = true) :
    (∃ y : Timed, (rowTimer s g p lower).flt.timed = s.flt.timed ++ [y] ∧ y.kind = 1 ∧ y.ring = g.ring ∧ y.seq = g.seq ∧
      y.tag = s.fab.nextTag ∧ y.lower = lower) ∧ (rowTimer s g p lower).started = s.started := by
  unfold rowTimer
  split
  · rename_i hz
    exact absurd (hz.symm.trans hf) (by simp)
  · rename_i y hy
    extract_lets chip s1 again
    have k : Only { clk := true } s s1 := Only.ite (Only.refl _ s) (State.reach_only rfl (Only.refl _ s))
    have hag : again = false := by
      unfold again
      rw [k.same_flt rfl, hn]
    have hro : s1.hasRoute g.region chip = true := (State.hasRoute_congr (k.same_regs rfl) (k.same_inForce rfl)).trans hr
    have hs : Only { regs := true, clk := true, fab := true, tor := true, gathers := true } s (s1.reissueRow g p y) :=
      State.reissueRow_only rfl (k.weaken rfl)
    have ht : s1.fab = s.fab := k.same_fab rfl
    clear_value s1 again
    rw [hag, hro, if_neg (by simp)]
    refine ⟨⟨_, congrArg (· ++ [_]) (congrArg Flt.timed (hs.same_flt rfl)), rfl, rfl, rfl, ?_, rfl⟩, hs.same_started rfl⟩
    show s1.fab.nextTag = _
    rw [ht]

end

/-! ### The fabric request timer of a read (R464, R466, R467) -/

theorem State.enqueue_reads {q : Nat} {k : Packet} {from_ : Option Nat} {c : Nat} {b : Bool} :
    (s.enqueue q k from_ c b).fab.reads = s.fab.reads := rfl

theorem State.tryForward_reads {t : State} {r : Nat} {k : Packet} {q : Option Nat} {b : Bool} (e : s.tryForward r k q b = some t) :
    t.fab.reads = s.fab.reads := by
  unfold State.tryForward at e
  split at e
  · contradiction
  · cases e
    rw [State.enqueue_reads]
    exact congrArg Fab.reads ((State.toPort_only (p := { tor := true }) rfl (Only.refl _ s)).same_fab rfl)

theorem State.deliver_reads {k : Packet} : (s.deliver k).fab.reads = s.fab.reads := by
  unfold State.deliver
  split <;> rfl

/-- A packet on its way leaves the reads that are open. -/
theorem State.send_reads {r : Nat} {k : Packet} : (s.send r k).fab.reads = s.fab.reads := by
  unfold State.send State.forward State.discardPacket
  extract_lets own k s1 own e
  have h1 : s1.fab = s.fab := rfl
  clear_value s1
  split
  · exact State.deliver_reads
  · split
    · exact State.tryForward_reads ‹_›
    · split
      · split
        · rw [State.deliver_reads, h1]
        · split
          · rw [State.tryForward_reads ‹_›, h1]
          · exact congrArg Fab.reads h1
      · exact congrArg Fab.reads h1

section
variable (hp : s.rowOfTag tag = none) (hx : s.fab.reads.find? (·.tag == tag) = some x)
include hp hx

theorem exec_fabricTimerExpire_read : exec (.fabricTimerExpire tag lower) s =
    .next (readTimer s x (lower || s.routeLost (s.entry x.who) (x.addr / 2 ^ 48))) := by
  show execFabricTimerExpire tag lower s = _
  simp only [execFabricTimerExpire, hp, hx]

end

/-- R466. A read is asked for once more: what stands in the state as the packet leaves. -/
theorem readTimer_sends (hx : x.tag = tag) (hdata : x.data = []) (hn : s.flt.timed.any (fun t => t.kind == 1 && t.tag == tag) = false) :
    ∃ (u : State) (k : Packet) (y : Timed), readTimer s x lower = u.send (s.entry x.who) k ∧
      u.fab.reads = s.fab.reads.filter (·.tag != tag) ++ [{ x with tag := s.fab.nextTag, since := u.clk.now }] ∧
      u.flt.timed = s.flt.timed ++ [y] ∧ (y.kind = 1 ∧ y.tag = s.fab.nextTag ∧ y.lower = lower) ∧
      Only { clk := true, fab := true, flt := true } s u := by
  subst hx
  unfold readTimer
  extract_lets r s1 fab drop t s2
  have k : Only { clk := true } s s1 := Only.ite (Only.refl _ s) (State.reach_only rfl (Only.refl _ s))
  have hfab : s1.fab = s.fab := k.same_fab rfl
  have hflt : s1.flt = s.flt := k.same_flt rfl
  clear_value s1
  rw [if_neg (by simp [hdata, hflt, hn])]
  refine ⟨s2, _, { kind := 1, ring := 0xFF, seq := 0, die := 0x48 + r, target := x.addr / 2 ^ 48, tag := t.1, lower := lower, since := s1.clk.now },
    rfl, ?_, ?_, ⟨rfl, ?_, rfl⟩, ?_⟩
  · show s1.fab.reads.filter _ ++ [({ x with tag := s1.fab.nextTag, since := s1.clk.now } : RemRead)] = _
    rw [hfab]
    rfl
  · show s1.flt.timed ++ _ = _
    rw [hflt]
  · show s1.fab.nextTag = _
    rw [hfab]
  · exact (k.weaken rfl).trans (Only.set rfl (Only.refl _ s1))

theorem readTimer_reissues (hx : x.tag = tag) (hdata : x.data = []) (hn : s.flt.timed.any (fun t => t.kind == 1 && t.tag == tag) = false) :
    (readTimer s x lower).fab.reads = s.fab.reads.filter (·.tag != tag) ++
        [{ x with tag := s.fab.nextTag, since := (readTimer s x lower).clk.now }] ∧
      (∃ y : Timed, (readTimer s x lower).flt.timed = s.flt.timed ++ [y] ∧ y.kind = 1 ∧ y.tag = s.fab.nextTag ∧ y.lower = lower) ∧
      Only { regs := true, clk := true, fab := true, tor := true, flt := true } s (readTimer s x lower) := by
  obtain ⟨u, k, y, e, hreads, htimed, hy, hu⟩ := readTimer_sends (lower := lower) hx hdata hn
  have hsend : Only { regs := true, fab := true, tor := true } u (u.send (s.entry x.who) k) := State.send_only rfl (Only.refl _ u)
  rw [e, State.send_reads, hreads, hsend.same_clk rfl, hsend.same_flt rfl]
  exact ⟨rfl, ⟨y, htimed, hy⟩, (hu.weaken rfl).trans (hsend.weaken rfl)⟩

/-- R467. A read that has come to the end of R466 is dropped, and reported to its master and to the module: zeros, poisoned for a read. -/
theorem readTimer_drops (hx : x.tag = tag) (w : tblWf regReset s.regs = true) (hw : atModule x.who)
    (hend : x.data ≠ [] ∨ s.flt.timed.any (fun t => t.kind == 1 && t.tag == tag) = true) :
    (readTimer s x lower).fab.reads = s.fab.reads.filter (·.tag != tag) ∧
      Out.readReply x.who x.addr (List.replicate x.len 0#8) x.data.isEmpty ∈ (readTimer s x lower).out ∧
      Counted s (readTimer s x lower) (timeoutClass lower) ∧ SameRegs s (readTimer s x lower) (reportRegs (timeoutClass lower)) := by
  subst hx
  unfold readTimer
  extract_lets r s1 fab drop t s2
  have k : Only { clk := true } s s1 := Only.ite (Only.refl _ s) (State.reach_only rfl (Only.refl _ s))
  have hfab : s1.fab = s.fab := k.same_fab rfl
  have hflt : s1.flt = s.flt := k.same_flt rfl
  have hregs : s1.regs = s.regs := k.same_regs rfl
  clear_value s1
  rw [if_pos (by rw [hflt]; simpa using hend), State.replyRead_atModule hw]
  generalize hu : drop.emit (.readReply x.who x.addr (List.replicate x.len 0#8) x.data.isEmpty) = u
  have hureads : u.fab.reads = s.fab.reads.filter (·.tag != x.tag) := by
    subst hu
    show s1.fab.reads.filter _ = _
    rw [hfab]
  have huout : Out.readReply x.who x.addr (List.replicate x.len 0#8) x.data.isEmpty ∈ u.out := by
    subst hu
    exact List.mem_append_right _ (List.mem_singleton_self _)
  have huregs : u.regs = s.regs := by
    subst hu
    exact hregs
  refine ⟨?_, (State.report_keeps (Keeps.refl u)).out.subset huout, Spares.counted_report w ((Spares.refl s).regs huregs), ?_⟩
  · rw [(State.report_only (p := Parts.report) rfl (Only.refl _ u)).same_fab rfl, hureads]
  · exact (RegsBut.report (l := (· ∈ reportRegs (timeoutClass lower))) (fun _ h => h) ((RegsBut.refl _ s).regs huregs)).same w

/-! ### The module operation timer (R468) -/

section
variable (hf : s.findStarted n seq = some d) (hd : d.done = none)
include hf hd

/-- R468. The function of the descriptor leaves RUN after a report, before which no register and no descriptor has changed. -/
theorem exec_moduleTimerExpire : ∃ (u : State) (c : Ctx),
    exec (.moduleTimerExpire n seq) s = .next
      ((u.report (timeoutClass (s.flt.timed.any (fun t => t.ring == n && t.seq == seq && t.lower))) 2 c).leaveRun d.fn) ∧
      Only { clk := true, upd := true } s u ∧ Keeps s u := by
  show ∃ u c, execModuleTimerExpire n seq s = _ ∧ _
  unfold execModuleTimerExpire
  simp only [hf, hd, Option.isNone_none, if_true]
  exact ⟨_, _, rfl, State.engineFault_only rfl (Only.ite (Only.refl _ s) (State.reach_only rfl (Only.refl _ s))),
    State.engineFault_keeps (Keeps.ite (Keeps.refl s) (State.reach_keeps (Keeps.refl s)))⟩

end

/-- R468. What the timer does to the function of a descriptor, and the report of it. -/
theorem moduleTimer_leavesRun {u : State} {c : Ctx} (hc : s.canon = true) (hf : s.findStarted n seq = some d) (hfn : d.fn < 0x100)
    (hu : Only { clk := true, upd := true } s u) (hk : Keeps s u) :
    let t := (u.report (timeoutClass lower) 2 c).leaveRun d.fn
    let lim := s.fget (Reg.MOD_FN d.fn) Fld.MOD_FN_DRAIN_LIMIT
    (s.fnState d.fn = fnRUN ∨ s.fnState d.fn = fnDRAIN → t.fnState d.fn = if lim = 0 then fnSTOPPED else fnDRAIN) ∧
      (s.fnState d.fn ≠ fnRUN → s.fnState d.fn ≠ fnDRAIN → t.fnState d.fn = s.fnState d.fn) ∧
      (lim ≠ 0 → Counted s t (timeoutClass lower)) := by
  have hcount : Counted s (u.report (timeoutClass lower) 2 c) (timeoutClass lower) :=
    Spares.counted_report (State.canon_regs hc) ((Spares.refl s).only hu rfl)
  have hreg : (u.report (timeoutClass lower) 2 c).reg (Reg.MOD_FN d.fn) = s.reg (Reg.MOD_FN d.fn) := by
    rw [State.report_modFn (State.canon_regs (hk.canon hc)) (by omega), State.reg, hu.same_regs rfl, State.reg]
  have hmem : d ∈ (u.report (timeoutClass lower) 2 c).started := by
    rw [(State.report_only (p := Parts.report) rfl (Only.refl _ u)).same_started rfl, hu.same_started rfl]
    exact List.mem_of_find?_eq_some hf
  have hcv : (u.report (timeoutClass lower) 2 c).canon = true := (State.report_keeps hk).canon hc
  generalize u.report (timeoutClass lower) 2 c = v at hcount hreg hmem hcv ⊢
  have hstate : v.fnState d.fn = s.fnState d.fn := congrArg Fld.MOD_FN_STATE.get hreg
  have hlim : v.fget (Reg.MOD_FN d.fn) Fld.MOD_FN_DRAIN_LIMIT = s.fget (Reg.MOD_FN d.fn) Fld.MOD_FN_DRAIN_LIMIT :=
    congrArg Fld.MOD_FN_DRAIN_LIMIT.get hreg
  rw [← hstate, ← hlim]
  refine ⟨State.leaveRun_fnState hcv hfn hmem rfl, fun h1 h2 => by rw [State.leaveRun_of_stopped h1 h2], fun hz => ?_⟩
  rw [State.leaveRun_of_limit (State.canon_regs hcv) (by omega) hz]
  unfold Counted Rose at hcount ⊢
  rw [← hcount, State.fget, State.enterDrain_timeouts (State.canon_regs hcv) (by omega), State.fget]

/-- Settles O32, timer by timer: the region timer, the fabric timer of a row and of a read, and the module timer. -/
theorem requestTimersReissueOnce : Obligations.RequestTimersReissueOnce := by
  unfold Obligations.RequestTimersReissueOnce
  refine ⟨?_, ?_, ?_, ?_, ?_⟩
  · intro s n seq die target lower d hf hd h1 h2 ht
    refine ⟨_, exec_regionTimerExpire hf hd h1 h2, ?_⟩
    rw [requestTimer_reissues hf ht]
    exact ⟨rfl, rfl, Only.set rfl (Only.refl _ s)⟩
  · intro s n seq die target write lower d hc hf hd h1 h2 low
    have w := State.canon_regs hc
    refine ⟨fun ht hw => ?_, fun x ht => ?_⟩
    · subst hw
      exact ⟨_, exec_regionTimerExpire hf hd h1 h2, requestTimer_write_faults hf hd w ht⟩
    · exact ⟨_, exec_regionTimerExpire hf hd h1 h2, requestTimer_again_faults hf hd w ht⟩
  · intro s tag lower g p d hc hp hf hd low
    refine ⟨fun ha => ⟨_, exec_fabricTimerExpire_row hp, rowTimer_again_faults hf (State.canon_regs hc) hd ha⟩, fun hn hr => ?_⟩
    obtain ⟨⟨y, ht, hkind, hring, hseq, htag, hlower⟩, hst⟩ := rowTimer_reissues (lower := low) hf hn hr
    have hlow : low = lower := by simp [low, State.routeLost, hr]
    exact ⟨_, exec_fabricTimerExpire_row hp, ⟨y, ht, hkind, hring, hseq, htag, hlower.trans hlow⟩, hst⟩
  · intro s tag lower x hc hp hx low
    have htag : x.tag = tag := by simpa using List.find?_some hx
    refine ⟨fun hdata hn => ⟨_, exec_fabricTimerExpire_read hp hx, readTimer_reissues htag hdata hn⟩, fun hend hw => ?_⟩
    exact ⟨_, exec_fabricTimerExpire_read hp hx, readTimer_drops htag (State.canon_regs hc) hw hend⟩
  · intro s n seq d hc hf hd hfn lim
    obtain ⟨u, c, e, hu, hk⟩ := exec_moduleTimerExpire hf hd
    exact ⟨_, e, moduleTimer_leavesRun hc hf hfn hu hk⟩

end Sys2Proof.Machine

/-!
O33. The hang detector: WAITFOR_SAMPLE takes a victim's blocked descriptor from the table of the submission rings. The statement asks the
canonical form (`tblWf`) of the ports' table where a probe is queued, and asks none of the rings' table where a victim is broken: over a table
that lists a ring more than once, each removal only uncovers the entry behind.
-/
namespace Sys2Proof.Machine

open Sys2Proof

/-- A fetched descriptor of RING_SEQ 7 (OPCODE 0x4010) that needs one event and signals ring m. -/
def waitsAndSignals (m : Nat) : Fetched :=
  { seq := 7, bytes := leBytes 2 0x4010 ++ leBytes 2 (256 * m + 1) ++ List.replicate 18 0#8 ++ leBytes 2 1 ++ List.replicate 40 0#8,
    deadline := none, slots := 1 }

/-- Rings 0 and 1 each wait for the event that the other's next descriptor signals. -/
def mutualWaits : List Wait := [(sqFn 0, sqFn 1, 0, 7), (sqFn 1, sqFn 0, 1, 7)]

/-- A module in service with the detector on, and the two rings of `mutualWaits`, which stood in the last sample. The table of the rings
lists ring 0 three times; ring 0 is in RUN. -/
def tripledRing : State :=
  { State.reset with
    regs := [(Reg.MOD_RESET_STATUS, 1#64), (Reg.MOD_FN (sqFn 0), 0x3201000000#64)]
    inForce := [(Reg.MOD_HANG_CFG, 0x10000#64)]
    sq := List.replicate 3 (0, { fetched := [waitsAndSignals 1] }) ++ [(1, { fetched := [waitsAndSignals 0] })]
    hang := { edges := mutualWaits } }

theorem tripledRing_canon : tripledRing.canon = true := by decide

theorem tripledRing_wfOn : tripledRing.wfOn = true := by decide

theorem tripledRing_cycle : findCycle (tripledRing.waits.filter (fun e => tripledRing.hang.edges.contains e)) = some mutualWaits := by
  decide +kernel

/-- R487. Both rings were rung at the same instant, so the victim is the first edge of the cycle. -/
theorem tripledRing_victim : tripledRing.victim mutualWaits = some (sqFn 0, sqFn 1, 0, 7) := by decide

/-- The break takes two entries of ring 0 away, at the victim and at its DRAIN (R115 step 2): the third still holds RING_SEQ 7. -/
theorem tripledRing_still_blocked {t : State} (h : exec .waitforSample tripledRing = .next t) :
    (t.sqSt 0).fetched.any (·.seq == 7) = true := by
  have run : (if tripledRing.wfOn then waitforSample tripledRing else tripledRing) = t := Host.Outcome.next.inj h
  rw [← run]
  decide +kernel

/-- Refutes O33: where the table of the submission rings is not in canonical form, which the statement does not ask of it, a victim ring
still holds its blocked descriptor. The state is `tripledRing`, which lists ring 0 three times. It is a gap of the hypotheses, not of the
detector: the model writes that table by `tblPut` alone, which keeps the canonical form, so no module comes to such a state from reset. -/
theorem not_hangsAreFoundNamedAndBroken : ¬ Obligations.HangsAreFoundNamedAndBroken := by
  unfold Obligations.HangsAreFoundNamedAndBroken
  rintro ⟨-, declared, -⟩
  obtain ⟨t, run, -, -, -, -, released, -⟩ := declared tripledRing mutualWaits (sqFn 0, sqFn 1, 0, 7) tripledRing_canon tripledRing_wfOn
    tripledRing_cycle tripledRing_victim (by decide) (by decide)
  have gone : (t.sqSt 0).fetched.any (·.seq == 7) = false := released (by decide) (by decide) rfl
  exact absurd gone (by simp only [tripledRing_still_blocked run, Bool.true_eq_false, not_false_eq_true])

end Sys2Proof.Machine

/-!
O34. What starts a reset: a RESET of LEVEL 2 completes before the reset begins, and its trace ends with its record (R217). The pointer of a
traced block lies at 0xE00100 + 8 * block, and no hypothesis of the statement bounds the blocks of a traced descriptor: for block 0x1FFE0 that
is PWR.FEED_STATUS, so that the packets of the trace take away the feed that lets the reset begin (R495).
-/
namespace Sys2Proof.Machine

open Sys2Proof

/-- A number of no block, whose trace pointer is PWR.FEED_STATUS. -/
def strayBlock : Nat := 0x1FFE0

theorem tracePtr_strayBlock : Reg.OBS_TRACE_PTR strayBlock = Reg.PWR_FEED_STATUS := rfl

/-- A RESET of LEVEL 2 that ring 0 has started. -/
def levelTwo : Started :=
  { ring := 0, seq := 0, bytes := leBytes 2 0x5030 ++ List.replicate 22 0#8 ++ [2#8] ++ List.replicate 39 0#8, fn := 0x51, gen := 1,
    deadline := none, slots := 1 }

/-- FEED_B is ACTIVE and carries the module; a RESET of LEVEL 2 is traced at `strayBlock`, whose trace stops after one more packet. -/
def strayTrace : State :=
  { State.reset with
    regs := [(Reg.PWR_FEED_STATUS, 0x30#64)]
    pwr := { good := true }
    started := [levelTwo]
    arr := { trace := [(descKey 0 0, [strayBlock])] }
    obs := { trPost := [(strayBlock, 1)] } }

theorem strayTrace_canon : strayTrace.canon = true := by decide

theorem strayTrace_mayReset : strayTrace.mayReset := by
  unfold State.mayReset
  decide

/-- The trace has stopped: WPTR is 0x40, which stands in FEED_STATUS as FEED_B in state 4. -/
structure FeedTraced (s : State) : Prop where
  cfg : s.obs.trCfg = 1#64
  regs : s.regs = [(Reg.PWR_FEED_STATUS, 0x100000040#64)]

/-- The trace has stopped, or one packet will stop it. -/
structure FeedTracing (s : State) : Prop where
  cfg : s.obs.trCfg = 1#64
  left : s.regs = [(Reg.PWR_FEED_STATUS, 0x30#64)] ∧ s.obs.trPost = [(strayBlock, 1)] ∨ s.regs = [(Reg.PWR_FEED_STATUS, 0x100000040#64)]

section
variable {s : State}

theorem FeedTraced.tracing (h : FeedTraced s) : FeedTracing s := ⟨h.cfg, .inr h.regs⟩

theorem FeedTraced.not_fed (h : FeedTraced s) : s.fed = false := by
  unfold State.fed State.fget State.reg
  rw [h.regs]
  decide

/-- The trace depends on the registers, TRACE_CFG in force and the packets left after a trigger. -/
theorem FeedTracing.congr {t : State} (h : FeedTracing s) (hr : t.regs = s.regs) (hc : t.obs.trCfg = s.obs.trCfg)
    (hp : t.obs.trPost = s.obs.trPost) : FeedTracing t :=
  ⟨hc.trans h.cfg, by rw [hr, hp]; exact h.left⟩

/-- A packet to the buffer moves WPTR by 16 and uses up the last packet that the trigger left (R683, R685); a stopped trace takes none. -/
theorem FeedTracing.tracePut (h : FeedTracing s) (p : List Byte) : FeedTraced (s.tracePut strayBlock p) := by
  obtain ⟨hcfg, ⟨hregs, hpost⟩ | hregs⟩ := h
  case inl =>
    constructor <;>
      simp +decide [State.tracePut, State.traceStep, State.tracePost, State.traceStopped, State.fget, State.fput, State.setReg, State.reg,
        tracePtr_strayBlock, hcfg, hregs, hpost, tblGet, tblPut]
  case inr =>
    have stopped : s.fget (Reg.OBS_TRACE_PTR strayBlock) Fld.OBS_TRACE_PTR_STOPPED = 1 := by
      unfold State.fget State.reg
      rw [hregs]
      decide
    simp only [State.tracePut, stopped, if_true]
    exact ⟨hcfg, hregs⟩

/-- The sink is the buffer, so every packet is offered to it at once (R684). -/
theorem FeedTracing.traceOffer (h : FeedTracing s) (ring seq : Nat) (p : List Byte) : FeedTraced (s.traceOffer strayBlock ring seq p) := by
  have buffered : s.traceStreams strayBlock = false := by
    simp +decide [State.traceStreams, h.cfg]
  unfold State.traceOffer
  rw [buffered]
  exact h.tracePut p

theorem FeedTracing.traceSync (h : FeedTracing s) (ring seq : Nat) : FeedTraced (s.traceSync strayBlock ring seq) := by
  unfold State.traceSync
  refine FeedTracing.traceOffer ?_ ring seq _
  exact h.congr rfl rfl rfl

theorem FeedTracing.tracePacket (h : FeedTracing s) (ring seq : Nat) (p : List Byte) : FeedTraced (s.tracePacket strayBlock ring seq p) := by
  unfold State.tracePacket
  split
  · refine FeedTracing.traceOffer ?_ ring seq _
    exact (h.traceSync ring seq).tracing.congr rfl rfl rfl
  · refine FeedTracing.traceOffer ?_ ring seq _
    exact h.congr rfl rfl rfl

theorem FeedTracing.traceEndPacket (h : FeedTracing s) (d : Started) : FeedTraced (s.traceEndPacket strayBlock d) := by
  unfold State.traceEndPacket
  refine FeedTracing.tracePacket ?_ d.ring d.seq _
  exact h.congr rfl rfl rfl

/-- Packets of a path leave the trace as it was or stopped. -/
theorem FeedTracing.path (h : FeedTracing s) (ring seq : Nat) (ps : List (List Byte)) :
    FeedTracing (ps.foldl (fun s p => s.tracePacket strayBlock ring seq p) s) := by
  induction ps generalizing s with
  | nil => exact h
  | cons p ps ih => exact ih (h.tracePacket ring seq p).tracing

/-- R217, R682. The END packet stops the trace where no packet of the path did. -/
theorem FeedTracing.traceEnd {d : Started} (h : FeedTracing s) (hb : s.arr.trace = [(descKey d.ring d.seq, [strayBlock])])
    (hup : s.blockUp strayBlock = true) : FeedTraced (traceEnd s d) := by
  have found : s.arr.trace.find? (fun e => e.1 == descKey d.ring d.seq) = some (descKey d.ring d.seq, [strayBlock]) := by
    rw [hb, List.find?_cons_of_pos (by simp)]
  unfold Machine.traceEnd
  split
  case h_1 missing => exact absurd (missing.symm.trans found) (by simp)
  case h_2 e traced =>
    obtain rfl : e = (descKey d.ring d.seq, [strayBlock]) := Option.some.inj (traced.symm.trans found)
    extract_lets a s1
    have up1 : s1.blockUp strayBlock = true := hup
    have tracing : FeedTracing s1 := h.congr rfl rfl rfl
    clear_value s1
    simp only [List.filter_cons, List.filter_nil, up1, if_true, List.foldl_cons, List.foldl_nil]
    refine FeedTracing.traceEndPacket (FeedTracing.path ?_ d.ring d.seq _) d
    exact tracing.congr rfl rfl rfl

end

/-- A completion leaves FEED_STATUS as it was: it is neither a ring's register nor one of what reports and sends change. -/
theorem State.complete_fed {s : State} {n seq slots keep : Nat} {b : List Byte} {o : Done} (w : tblWf regReset s.regs = true) :
    (s.complete n b seq slots keep o).fed = s.fed := by
  have kept : RegsBut (fun off => sideReg off = true ∨ ringReg off = true) s (s.complete n b seq slots keep o) :=
    RegsBut.complete (fun _ => Or.inl) (fun _ => Or.inr) (RegsBut.refl _ s)
  unfold State.fed State.fget
  rw [kept.same w Reg.PWR_FEED_STATUS (by decide)]

/-- The record of `levelTwo` leaves no feed to carry the module. -/
theorem strayTrace_completed_not_fed (o : Done) : (completeStarted strayTrace levelTwo o (fun s => traceEnd s levelTwo)).fed = false := by
  have ended : FeedTraced (traceEnd strayTrace levelTwo) := FeedTracing.traceEnd ⟨rfl, .inl ⟨rfl, rfl⟩⟩ rfl (by decide)
  have own : (levelTwo.rgen != strayTrace.gen (sqFn levelTwo.ring)) = false := by decide
  have wf : tblWf regReset ((traceEnd strayTrace levelTwo).dropStarted levelTwo).regs = true := by
    rw [State.dropStarted, ended.regs]
    decide
  unfold completeStarted
  rw [own, if_neg Bool.false_ne_true]
  exact (State.complete_fed wf).trans ended.not_fed

/-- R495. No reset begins while no feed carries the module. -/
theorem State.requestReset_unfed {s : State} (h : s.fed = false) {level cause : Nat} {flag held : Bool} {desc : Option (Nat × Nat)} :
    s.requestReset level cause flag held desc = s := by
  rw [State.requestReset, h, if_pos (by simp)]

/-- R495, R496. The RESET ends with its record: no reset begins, for no feed carries the module. -/
theorem strayTrace_no_reset {t : State} (h : exec (.reset 0 0) strayTrace = .next t) : t.resetLevel = 0 := by
  have run : t = (completeStarted strayTrace levelTwo { status := stSUCCESS, die := 0x50, unit := 0x31 }
      (fun s => traceEnd s levelTwo)).requestReset 2 0 false false none := by
    cases h
    rfl
  have idle : Only { Parts.most with hang := false } strayTrace (completeStarted strayTrace levelTwo
      { status := stSUCCESS, die := 0x50, unit := 0x31 } (fun s => traceEnd s levelTwo)) :=
    completeStarted_only rfl (Only.refl _ strayTrace) (fun _ hz => traceEnd_only rfl hz)
  rw [run, State.requestReset_unfed (strayTrace_completed_not_fed _), State.resetLevel, idle.same_hang rfl]
  rfl

/-- Refutes O34: a RESET of LEVEL 2 completes without a reset when the trace that ends with its record writes into FEED_STATUS, for the
statement bounds no block of a traced descriptor. The state is `strayTrace`, whose trace is of block 0x1FFE0. It is a gap of the hypotheses,
not of the RESET command: the blocks that a module traces from reset are those of its 64. -/
theorem not_resetsStartByTheirTriggers : ¬ Obligations.ResetsStartByTheirTriggers := by
  unfold Obligations.ResetsStartByTheirTriggers
  rintro ⟨reset, -⟩
  obtain ⟨-, begins, -⟩ := reset strayTrace 0 0 levelTwo (by decide) (by decide) rfl rfl
  obtain ⟨t, run, level, -⟩ := begins (by decide) strayTrace_canon strayTrace_mayReset (by decide)
  have none_begun : t.resetLevel = 0 := strayTrace_no_reset run
  exact absurd (none_begun.symm.trans level) (by decide)

end Sys2Proof.Machine

/-!
O35. The course of a reset: BLOCK_BEAT_TIMEOUT fires 10 ms after the reset began (R499 step 6), so it may move the clock there, while the
statement's frame of that command lists the registers, the held dies and the detectors, and not the clock.
-/
namespace Sys2Proof.Machine

open Sys2Proof

/-- A compute reset that began at time 0 and has heard no block. -/
def silentReset : ResetRun := { level := 1, start := 0 }

/-- The module at the instant its compute reset begins. -/
def justReset : State := { State.reset with hang := { State.reset.hang with reset := some silentReset } }

theorem justReset_canon : justReset.canon = true := by decide

/-- R499 step 6. BLOCK_BEAT_TIMEOUT of a block that the running reset still waits for leaves the clock at 10 ms after the reset began, or
later. -/
theorem execBlockBeatTimeout_now {s t : State} {b : Nat} {r : ResetRun} (hr : s.hang.reset = some r) (hl : r.level ≤ 2) (hb : b < 64)
    (hw : r.beaten.contains b = false) (h : exec (.blockBeatTimeout b) s = .next t) : r.start + 10000000 ≤ t.clk.now := by
  change execBlockBeatTimeout b s = .next t at h
  simp only [execBlockBeatTimeout, hr, hl, hb, hw, decide_true, Bool.not_false, Bool.and_true, if_true, Host.Outcome.next.injEq] at h
  subst h
  exact Nat.le_max_right _ _

/-- Refutes O35: when the 10 ms of a block run out, the clock moves to that instant, which the statement's frame of BLOCK_BEAT_TIMEOUT
forbids (what the command may change is `execBlockBeatTimeout_only`). Block 0 of a compute reset that began at time 0 is given up at time
10,000,000 ns. -/
theorem not_resetsRunToTheirEnd : ¬ Obligations.ResetsRunToTheirEnd := by
  unfold Obligations.ResetsRunToTheirEnd
  rintro ⟨-, timeout, -⟩
  obtain ⟨t, run, -, -, -, -, frame⟩ :=
    timeout justReset 0 silentReset justReset_canon rfl (by decide) (by decide) (by decide)
  have late : 10000000 ≤ t.clk.now := execBlockBeatTimeout_now (r := silentReset) rfl (by decide) (by decide) (by decide) run
  have still : t.clk.now = 0 := congrArg Clock.now (frame.same_clk rfl)
  omega

end Sys2Proof.Machine

/-!
SUPPORT. GF(2^8) with the polynomial 0x11D: sums are bitwise, products associate and distribute over sums, and the factors by which REBUILD
divides have inverses (spec/12 R538, R542).
-/
namespace Sys2Proof.Machine

open Sys2Proof

/-! ### GF(2^8): sums are bitwise, products distribute over them (R538) -/

/-- A function of bytes that keeps sums of GF(2^8). -/
def KeepsXor (f : Nat → Nat) : Prop := ∀ a b, a < 256 → b < 256 → f (a ^^^ b) = f a ^^^ f b

theorem KeepsXor.zero {f : Nat → Nat} (hf : KeepsXor f) : f 0 = 0 := by
  have h : f 0 = f 0 ^^^ f 0 := hf 0 0 (by decide) (by decide)
  rw [h, Nat.xor_self]

/-- The top bit of a number and the rest of it. -/
theorem xor_two_pow_of_le {n a : Nat} (h : 2 ^ n ≤ a) (ha : a < 2 ^ (n + 1)) : a = 2 ^ n ^^^ (a - 2 ^ n) := by
  have hlt : a - 2 ^ n < 2 ^ n := by rw [Nat.pow_succ] at ha; omega
  have hor : 2 ^ n * 1 + (a - 2 ^ n) = 2 ^ n * 1 ||| (a - 2 ^ n) := Nat.two_pow_add_eq_or_of_lt hlt 1
  rw [Nat.mul_one] at hor
  apply Nat.eq_of_testBit_eq
  intro i
  rw [show a = 2 ^ n ||| (a - 2 ^ n) by omega, Nat.testBit_or, Nat.testBit_xor, ← hor, Nat.add_sub_cancel_left, Nat.testBit_two_pow]
  by_cases hi : n = i
  · subst hi
    rw [Nat.testBit_lt_two_pow hlt]
    simp
  · simp [hi]

theorem KeepsXor.comp {f g : Nat → Nat} (hf : KeepsXor f) (hg : KeepsXor g) (hlt : ∀ a, a < 256 → g a < 256) :
    KeepsXor (fun a => f (g a)) := by
  intro a b ha hb
  show f (g (a ^^^ b)) = _
  rw [hg a b ha hb, hf _ _ (hlt a ha) (hlt b hb)]

/-- Two such functions agree on every byte when they agree on the eight bits. -/
theorem KeepsXor.ext {f g : Nat → Nat} (hf : KeepsXor f) (hg : KeepsXor g) (h : ∀ k, k < 8 → f (2 ^ k) = g (2 ^ k)) {a : Nat} (ha : a < 256) :
    f a = g a := by
  have key : ∀ n, n ≤ 8 → ∀ a, a < 2 ^ n → f a = g a := by
    intro n
    induction n with
    | zero =>
      intro _ a ha
      obtain rfl : a = 0 := by omega
      rw [hf.zero, hg.zero]
    | succ n ih =>
      intro hn a ha
      by_cases hlow : a < 2 ^ n
      · exact ih (by omega) a hlow
      · have hpow : 2 ^ n ≤ 2 ^ 7 := Nat.pow_le_pow_right (by decide) (by omega)
        have hrest : a - 2 ^ n < 2 ^ n := by rw [Nat.pow_succ] at ha; omega
        rw [xor_two_pow_of_le (Nat.le_of_not_lt hlow) ha, hf _ _ (by omega) (by omega), hg _ _ (by omega) (by omega), h n (by omega),
          ih (by omega) _ hrest]
  exact key 8 (Nat.le_refl 8) a ha

theorem xor_lt_256 {a b : Nat} (ha : a < 256) (hb : b < 256) : a ^^^ b < 256 := Nat.xor_lt_two_pow (n := 8) ha hb

theorem gfDouble_lt {a : Nat} (ha : a < 256) : gfDouble a < 256 := by
  revert a
  decide +kernel

/-- Doubling is a shift, with the polynomial added where the top bit is set. -/
theorem gfDouble_eq {a : Nat} (ha : a < 256) : gfDouble a = (a <<< 1) ^^^ (if a.testBit 7 then 0x11D else 0) := by
  revert a
  decide +kernel

theorem gfDouble_keepsXor : KeepsXor gfDouble := by
  intro a b ha hb
  have hpoly : ∀ p q : Bool, (if (p ^^ q) then 0x11D else 0) = (if p then 0x11D else 0) ^^^ (if q then 0x11D else 0) := by decide
  rw [gfDouble_eq (xor_lt_256 ha hb), gfDouble_eq ha, gfDouble_eq hb, Nat.testBit_xor, hpoly, Nat.shiftLeft_xor_distrib]
  ac_rfl

/-- The term of a product for the last bit of its second factor. -/
theorem ite_odd_xor {a b c : Nat} : (if (b ^^^ c) % 2 = 1 then a else 0) = (if b % 2 = 1 then a else 0) ^^^ (if c % 2 = 1 then a else 0) := by
  have hodd : (b ^^^ c) % 2 = 1 ↔ ¬(b % 2 = 1 ↔ c % 2 = 1) := Nat.xor_mod_two_eq_one
  by_cases hb : b % 2 = 1
  · by_cases hc : c % 2 = 1
    · rw [if_neg fun h => hodd.mp h (iff_of_true hb hc), if_pos hb, if_pos hc, Nat.xor_self]
    · rw [if_pos (hodd.mpr fun h => hc (h.mp hb)), if_pos hb, if_neg hc, Nat.xor_zero]
  · by_cases hc : c % 2 = 1
    · rw [if_pos (hodd.mpr fun h => hb (h.mpr hc)), if_neg hb, if_pos hc, Nat.zero_xor]
    · rw [if_neg fun h => hodd.mp h (iff_of_false hb hc), if_neg hb, if_neg hc, Nat.xor_zero]

theorem gfMulN_xor_right {n a b c : Nat} : gfMulN n a (b ^^^ c) = gfMulN n a b ^^^ gfMulN n a c := by
  induction n generalizing a b c with
  | zero => exact (Nat.xor_self 0).symm
  | succ n ih =>
    rw [gfMulN, gfMulN, gfMulN, ite_odd_xor, Nat.xor_div_two, ih]
    ac_rfl

theorem gfMulN_xor_left {n a b c : Nat} (ha : a < 256) (hb : b < 256) : gfMulN n (a ^^^ b) c = gfMulN n a c ^^^ gfMulN n b c := by
  induction n generalizing a b c with
  | zero => exact (Nat.xor_self 0).symm
  | succ n ih =>
    have hbit : (if c % 2 = 1 then a ^^^ b else 0) = (if c % 2 = 1 then a else 0) ^^^ (if c % 2 = 1 then b else 0) := by
      split <;> rfl
    rw [gfMulN, gfMulN, gfMulN, hbit, gfDouble_keepsXor a b ha hb, ih (gfDouble_lt ha) (gfDouble_lt hb)]
    ac_rfl

theorem gfMulN_lt {n a b : Nat} (ha : a < 256) : gfMulN n a b < 256 := by
  induction n generalizing a b with
  | zero => exact Nat.zero_lt_succ 255
  | succ n ih =>
    refine xor_lt_256 ?_ (ih (gfDouble_lt ha))
    split
    · exact ha
    · decide

theorem gfMul_lt {a b : Nat} (ha : a < 256) : gfMul a b < 256 := gfMulN_lt ha

theorem gfMul_keepsXor_right (a : Nat) : KeepsXor (gfMul a) := fun _ _ _ _ => gfMulN_xor_right

theorem gfMul_keepsXor_left (b : Nat) : KeepsXor (fun a => gfMul a b) := fun _ _ ha hb => gfMulN_xor_left ha hb

/-- Products associate: both sides keep sums in each factor, and agree on the products of single bits. -/
theorem gfMul_assoc {a b c : Nat} (ha : a < 256) (hb : b < 256) (hc : c < 256) : gfMul a (gfMul b c) = gfMul (gfMul a b) c := by
  have bits : ∀ i, i < 8 → ∀ j, j < 8 → ∀ k, k < 8 →
      gfMul (2 ^ i) (gfMul (2 ^ j) (2 ^ k)) = gfMul (gfMul (2 ^ i) (2 ^ j)) (2 ^ k) := by decide +kernel
  have right := gfMul_keepsXor_right
  have left := gfMul_keepsXor_left
  refine ((right a).comp (right b) fun _ _ => gfMul_lt hb).ext (right _) (fun k hk => ?_) hc
  refine ((right a).comp (left (2 ^ k)) fun _ => gfMul_lt).ext ((left (2 ^ k)).comp (right a) fun _ _ => gfMul_lt ha) (fun j hj => ?_) hb
  exact (left (gfMul (2 ^ j) (2 ^ k))).ext ((left (2 ^ k)).comp (left (2 ^ j)) fun _ => gfMul_lt) (fun i hi => bits i hi j hj k hk) ha

theorem one_gfMul {a : Nat} (ha : a < 256) : gfMul 1 a = a :=
  (gfMul_keepsXor_right 1).ext (g := id) (fun _ _ _ _ => rfl) (by decide) ha

theorem two_gfMul {a : Nat} (ha : a < 256) : gfMul 2 a = gfDouble a :=
  (gfMul_keepsXor_right 2).ext gfDouble_keepsXor (by decide) ha

theorem gfPow2_lt {h : Nat} : gfPow2 h < 256 := by
  induction h with
  | zero => decide
  | succ h ih => exact gfDouble_lt ih

/-- R542. What one erased piece was multiplied with in Q has an inverse. -/
theorem gfInv_pow_mul {i : Nat} (hi : i < 8) : gfMul (gfInv (gfPow2 i)) (gfPow2 i) = 1 := by
  revert i
  decide +kernel

/-- R542. So has the sum of the factors of two erased pieces. -/
theorem gfInv_pows_mul {i j : Nat} (hi : i < 8) (hj : j < 8) (hne : i ≠ j) :
    gfMul (gfInv (gfPow2 i ^^^ gfPow2 j)) (gfPow2 i ^^^ gfPow2 j) = 1 := by
  have all : ∀ i, i < 8 → ∀ j, j < 8 → i ≠ j → gfMul (gfInv (gfPow2 i ^^^ gfPow2 j)) (gfPow2 i ^^^ gfPow2 j) = 1 := by decide +kernel
  exact all i hi j hj hne

theorem gfInv_lt {a : Nat} : gfInv a < 256 := by
  unfold gfInv
  cases h : (List.range 256).find? (fun x => gfMul a x == 1) with
  | none => exact Nat.zero_lt_succ 255
  | some x => exact List.mem_range.mp (List.mem_of_find?_eq_some h)

/-! ### Bytes times elements -/

/-- A byte times an element of GF(2^8), as `gfScale` takes it of every byte of a piece. -/
def gfTimes (c : Nat) (x : Byte) : Byte := BitVec.ofNat 8 (gfMul c x.toNat)

theorem gfScale_eq_map (c : Nat) (d : List Byte) : gfScale c d = d.map (gfTimes c) := rfl

variable {c e : Nat} {x y : Byte}

theorem toNat_gfTimes (hc : c < 256) : (gfTimes c x).toNat = gfMul c x.toNat := by
  rw [gfTimes, BitVec.toNat_ofNat, Nat.mod_eq_of_lt (gfMul_lt hc)]

theorem gfTimes_zero : gfTimes c 0#8 = 0#8 := congrArg (BitVec.ofNat 8) (gfMul_keepsXor_right c).zero

theorem gfTimes_xor (hc : c < 256) : gfTimes c (x ^^^ y) = gfTimes c x ^^^ gfTimes c y := by
  apply BitVec.eq_of_toNat_eq
  rw [BitVec.toNat_xor, toNat_gfTimes hc, toNat_gfTimes hc, toNat_gfTimes hc, BitVec.toNat_xor, gfMul_keepsXor_right c _ _ x.isLt y.isLt]

theorem xor_gfTimes (hc : c < 256) (he : e < 256) : gfTimes (c ^^^ e) x = gfTimes c x ^^^ gfTimes e x := by
  apply BitVec.eq_of_toNat_eq
  rw [BitVec.toNat_xor, toNat_gfTimes (xor_lt_256 hc he), toNat_gfTimes hc, toNat_gfTimes he]
  exact gfMul_keepsXor_left _ c e hc he

theorem gfTimes_gfTimes (hc : c < 256) (he : e < 256) : gfTimes c (gfTimes e x) = gfTimes (gfMul c e) x := by
  apply BitVec.eq_of_toNat_eq
  rw [toNat_gfTimes hc, toNat_gfTimes he, toNat_gfTimes (gfMul_lt hc), gfMul_assoc hc he x.isLt]

theorem one_gfTimes : gfTimes 1 x = x := by
  apply BitVec.eq_of_toNat_eq
  rw [toNat_gfTimes (by decide), one_gfMul x.isLt]

theorem gfTimes_cancel (hc : c < 256) (he : e < 256) (h : gfMul c e = 1) : gfTimes c (gfTimes e x) = x := by
  rw [gfTimes_gfTimes hc he, h, one_gfTimes]

theorem two_gfTimes_pow {h : Nat} : gfTimes 2 (gfTimes (gfPow2 h) x) = gfTimes (gfPow2 (h + 1)) x := by
  rw [gfTimes_gfTimes (by decide) gfPow2_lt, two_gfMul gfPow2_lt, gfPow2]

/-- A byte that is in both of two sums leaves their sum. -/
theorem xor_xor_shared {x y z : Byte} : x ^^^ y ^^^ (x ^^^ z) = y ^^^ z := by
  have h : x ^^^ y ^^^ (x ^^^ z) = x ^^^ x ^^^ (y ^^^ z) := by ac_rfl
  rw [h, BitVec.xor_self, BitVec.zero_xor]

end Sys2Proof.Machine

/-!
SUPPORT. Pieces of a stripe byte by byte: sums of pieces, P as the sum of the data pieces, and Q as the sum of their products with the powers
of two (spec/12 R538).
-/
namespace Sys2Proof.Machine

open Sys2Proof

variable {c : Nat}

/-! ### Sums of bytes over a range -/

/-- The sum of the first n bytes that f names. -/
def xorSum (n : Nat) (f : Nat → Byte) : Byte := (List.range n).foldl (fun a h => a ^^^ f h) 0#8

variable {n : Nat} {f g : Nat → Byte}

theorem xorSum_zero : xorSum 0 f = 0#8 := rfl

theorem xorSum_succ : xorSum (n + 1) f = xorSum n f ^^^ f n := by
  rw [xorSum, List.range_succ, List.foldl_append]
  rfl

theorem xorSum_congr (h : ∀ i, i < n → f i = g i) : xorSum n f = xorSum n g := by
  induction n with
  | zero => rfl
  | succ n ih => rw [xorSum_succ, xorSum_succ, ih fun i hi => h i (by omega), h n (by omega)]

theorem xorSum_succ_left : xorSum (n + 1) f = f 0 ^^^ xorSum n (fun h => f (h + 1)) := by
  induction n with
  | zero => rw [xorSum_succ, xorSum_zero, xorSum_zero, BitVec.zero_xor, BitVec.xor_zero]
  | succ n ih => rw [xorSum_succ, ih, xorSum_succ, BitVec.xor_assoc]

theorem gfTimes_xorSum (hc : c < 256) : gfTimes c (xorSum n f) = xorSum n (fun h => gfTimes c (f h)) := by
  induction n with
  | zero => exact gfTimes_zero
  | succ n ih => rw [xorSum_succ, xorSum_succ, gfTimes_xor hc, ih]

/-- One byte taken out of a sum. -/
theorem xorSum_erase {i : Nat} (hi : i < n) : xorSum n f = f i ^^^ xorSum n (fun h => if h = i then 0#8 else f h) := by
  induction n with
  | zero => exact absurd hi (Nat.not_lt_zero i)
  | succ n ih =>
    rw [xorSum_succ, xorSum_succ]
    by_cases hin : i = n
    · subst hin
      rw [if_pos rfl, BitVec.xor_zero, BitVec.xor_comm, xorSum_congr (n := i) fun h hh => (if_neg (Nat.ne_of_lt hh)).symm]
    · rw [ih (by omega), if_neg (fun e => hin e.symm), BitVec.xor_assoc]

/-- What a sum loses with one byte. -/
theorem xorSum_without_one {i : Nat} (hi : i < n) (hg : ∀ h, h < n → g h = if h = i then 0#8 else f h) :
    xorSum n f ^^^ xorSum n g = f i := by
  rw [xorSum_congr hg, xorSum_erase (f := f) hi, BitVec.xor_assoc, BitVec.xor_self, BitVec.xor_zero]

/-- What a sum loses with two bytes. -/
theorem xorSum_without_two {i j : Nat} (hi : i < n) (hj : j < n) (hne : j ≠ i) (hg : ∀ h, h < n → g h = if h = i ∨ h = j then 0#8 else f h) :
    xorSum n f ^^^ xorSum n g = f i ^^^ f j := by
  have hrest : ∀ h, h < n → g h = if h = j then 0#8 else if h = i then 0#8 else f h := by
    intro h hh
    rw [hg h hh]
    by_cases h1 : h = i <;> by_cases h2 : h = j <;> simp [h1, h2]
  have hj' := xorSum_without_one (f := fun h => if h = i then 0#8 else f h) hj hrest
  rw [if_neg hne] at hj'
  rw [xorSum_erase (f := f) hi, BitVec.xor_assoc, hj']

/-! ### Pieces, byte by byte -/

theorem getD_of_lt {α : Type} {l : List α} {i : Nat} {x : α} (h : i < l.length) : l.getD i x = l[i] := by
  rw [List.getD_eq_getElem?_getD, List.getElem?_eq_getElem h, Option.getD_some]

/-- Byte k of a piece, zero past its end. -/
def byteAt (k : Nat) (d : List Byte) : Byte := d.getD k 0#8

variable {k len : Nat} {a b d : List Byte}

theorem pieces_ext (hl : a.length = b.length) (h : ∀ k, byteAt k a = byteAt k b) : a = b := by
  refine List.ext_getElem hl fun k ha hb => ?_
  have hk := h k
  rwa [byteAt, byteAt, getD_of_lt ha, getD_of_lt hb] at hk

theorem xorBytes_length (ha : a.length = len) (hb : b.length = len) : (xorBytes a b).length = len := by
  rw [xorBytes, List.length_zipWith, ha, hb, Nat.min_self]

theorem gfScale_length (hd : d.length = len) : (gfScale c d).length = len := by
  rw [gfScale, List.length_map, hd]

theorem byteAt_xorBytes (ha : a.length = len) (hb : b.length = len) : byteAt k (xorBytes a b) = byteAt k a ^^^ byteAt k b := by
  simp only [byteAt, xorBytes, List.getD_eq_getElem?_getD, List.getElem?_zipWith]
  by_cases hk : k < len
  · simp [List.getElem?_eq_getElem (ha ▸ hk : k < a.length), List.getElem?_eq_getElem (hb ▸ hk : k < b.length)]
  · simp [List.getElem?_eq_none (ha ▸ Nat.le_of_not_lt hk : a.length ≤ k), List.getElem?_eq_none (hb ▸ Nat.le_of_not_lt hk : b.length ≤ k)]

theorem byteAt_gfScale : byteAt k (gfScale c d) = gfTimes c (byteAt k d) := by
  rw [gfScale_eq_map, byteAt, byteAt, List.getD_eq_getElem?_getD, List.getD_eq_getElem?_getD, List.getElem?_map]
  cases d[k]? with
  | none => exact gfTimes_zero.symm
  | some x => rfl

theorem byteAt_zeroPiece : byteAt k zeroPiece = 0#8 := by
  rw [byteAt, zeroPiece, List.getD_eq_getElem?_getD, List.getElem?_replicate]
  split
  · rfl
  · rfl

theorem zeroPiece_length : zeroPiece.length = pieceLen := List.length_replicate

/-- A running sum of pieces is a sum of their bytes. -/
theorem pieceSum_spec {F : Nat → List Byte} (hF : ∀ h, h < n → (F h).length = pieceLen) :
    ((List.range n).foldl (fun a h => xorBytes a (F h)) zeroPiece).length = pieceLen ∧
      ∀ k, byteAt k ((List.range n).foldl (fun a h => xorBytes a (F h)) zeroPiece) = xorSum n (fun h => byteAt k (F h)) := by
  induction n with
  | zero => exact ⟨zeroPiece_length, fun _ => byteAt_zeroPiece⟩
  | succ n ih =>
    obtain ⟨hlen, hbytes⟩ := ih fun h hh => hF h (by omega)
    have hn := hF n (Nat.lt_succ_self n)
    rw [List.range_succ, List.foldl_append]
    exact ⟨xorBytes_length hlen hn, fun k => by rw [xorSum_succ, ← hbytes k]; exact byteAt_xorBytes hlen hn⟩

/-! ### P and Q, byte by byte (R538) -/

/-- Each byte of a running sum that begins with d. -/
theorem foldl_xorBytes_spec {ds : List (List Byte)} (hd : d.length = len) (hds : ∀ x, x ∈ ds → x.length = len) :
    (ds.foldl xorBytes d).length = len ∧
      ∀ k, byteAt k (ds.foldl xorBytes d) = byteAt k d ^^^ xorSum ds.length (fun h => byteAt k (ds.getD h [])) := by
  induction ds generalizing d with
  | nil => exact ⟨hd, fun k => (BitVec.xor_zero).symm⟩
  | cons x xs ih =>
    have hx : x.length = len := hds x List.mem_cons_self
    obtain ⟨hlen, hbytes⟩ := ih (xorBytes_length hd hx) fun y hy => hds y (List.mem_cons_of_mem x hy)
    refine ⟨hlen, fun k => ?_⟩
    rw [List.foldl_cons, hbytes k, byteAt_xorBytes hd hx, List.length_cons, xorSum_succ_left, BitVec.xor_assoc]
    rfl

theorem parityP_spec {ds : List (List Byte)} (hne : ds ≠ []) (hds : ∀ x, x ∈ ds → x.length = len) :
    (parityP ds).length = len ∧ ∀ k, byteAt k (parityP ds) = xorSum ds.length (fun h => byteAt k (ds.getD h [])) := by
  cases ds with
  | nil => exact absurd rfl hne
  | cons x xs =>
    obtain ⟨hlen, hbytes⟩ := foldl_xorBytes_spec (hds x List.mem_cons_self) fun y hy => hds y (List.mem_cons_of_mem x hy)
    refine ⟨hlen, fun k => (hbytes k).trans ?_⟩
    rw [List.length_cons, xorSum_succ_left]
    rfl

/-- Doubling every byte of a piece, as the fold of Q does. -/
theorem map_gfDouble (d : List Byte) : d.map (fun b => BitVec.ofNat 8 (gfDouble b.toNat)) = gfScale 2 d :=
  List.map_congr_left fun b _ => by rw [two_gfMul b.isLt]

/-- Q of one more piece in front: that piece, and twice the Q of the others. -/
theorem parityQ_cons {x : List Byte} {xs : List (List Byte)} (hne : xs ≠ []) :
    parityQ (x :: xs) = xorBytes (gfScale 2 (parityQ xs)) x := by
  obtain ⟨y, ys, hrev⟩ := List.exists_cons_of_ne_nil (List.reverse_ne_nil_iff.mpr hne)
  rw [parityQ, parityQ, List.reverse_cons, hrev, List.cons_append]
  dsimp only
  rw [List.foldl_append, List.foldl_cons, List.foldl_nil, map_gfDouble]

theorem parityQ_spec {ds : List (List Byte)} (hne : ds ≠ []) (hds : ∀ x, x ∈ ds → x.length = len) :
    (parityQ ds).length = len ∧
      ∀ k, byteAt k (parityQ ds) = xorSum ds.length (fun h => gfTimes (gfPow2 h) (byteAt k (ds.getD h []))) := by
  induction ds with
  | nil => exact absurd rfl hne
  | cons x xs ih =>
    have hx : x.length = len := hds x List.mem_cons_self
    by_cases hxs : xs = []
    · subst hxs
      refine ⟨hx, fun k => ?_⟩
      rw [List.length_singleton, xorSum_succ, xorSum_zero, BitVec.zero_xor]
      exact one_gfTimes.symm
    · obtain ⟨hlen, hbytes⟩ := ih hxs fun y hy => hds y (List.mem_cons_of_mem x hy)
      rw [parityQ_cons hxs]
      refine ⟨xorBytes_length (gfScale_length hlen) hx, fun k => ?_⟩
      rw [byteAt_xorBytes (gfScale_length hlen) hx, byteAt_gfScale, hbytes k, gfTimes_xorSum (by decide), List.length_cons,
        xorSum_succ_left, BitVec.xor_comm, show gfPow2 0 = 1 from rfl, one_gfTimes]
      exact congrArg (byteAt k x ^^^ ·) (xorSum_congr fun h _ => two_gfTimes_pow)

end Sys2Proof.Machine

/-!
O38. It holds. P without the pieces that are held is the sum of the pieces that are gone, and Q without them is the sum of their products with
their powers of two: one sum gives one piece, and two sums give two, since two powers of two differ and their sum has an inverse (R542).
-/
namespace Sys2Proof.Machine

open Sys2Proof

variable {k : Nat}

/-! ### The four cases of a stripe (R542) -/

/-- The positions of the data pieces that are gone, and the piece of a position as it is held, zero where it is gone. -/
def goneOf (data : Pieces) : List Nat := (List.range 8).filter (fun h => ((data[h]?).getD none).isNone)
def heldOf (data : Pieces) (h : Nat) : List Byte := ((data[h]?).getD none).getD zeroPiece

/-- P and Q of the pieces that are held. -/
def heldP (data : Pieces) : List Byte := (List.range 8).foldl (fun a h => xorBytes a (heldOf data h)) zeroPiece
def heldQ (data : Pieces) : List Byte := (List.range 8).foldl (fun a h => xorBytes a (gfScale (gfPow2 h) (heldOf data h))) zeroPiece

/-- The last of two pieces that are gone, from P and Q without the pieces that are held. -/
def lastOfTwo (i j : Nat) (a b : List Byte) : List Byte := gfScale (gfInv (gfPow2 i ^^^ gfPow2 j)) (xorBytes b (gfScale (gfPow2 i) a))

/-- The held pieces with others put in place of those that are gone. -/
def filled (data : Pieces) (f : Nat → Option (List Byte)) : List (List Byte) := (List.range 8).map (fun h => (f h).getD (heldOf data h))

variable {data : Pieces} {i j : Nat} {p q : List Byte} {oq op : Option (List Byte)}

theorem solveStripe_complete (h : goneOf data = []) : solveStripe data op oq = some (filled data fun _ => none) := by
  unfold goneOf at h
  simp only [solveStripe, h]
  rfl

theorem solveStripe_byP (h : goneOf data = [i]) :
    solveStripe data (some p) oq = some (filled data fun x => if x = i then some (xorBytes p (heldP data)) else none) := by
  unfold goneOf at h
  simp only [solveStripe, h]
  rfl

theorem solveStripe_byQ (h : goneOf data = [i]) : solveStripe data none (some q) =
    some (filled data fun x => if x = i then some (gfScale (gfInv (gfPow2 i)) (xorBytes q (heldQ data))) else none) := by
  unfold goneOf at h
  simp only [solveStripe, h]
  rfl

theorem solveStripe_byBoth (h : goneOf data = [i, j]) : solveStripe data (some p) (some q) =
    some (filled data fun x =>
      if x = i then some (xorBytes (xorBytes p (heldP data)) (lastOfTwo i j (xorBytes p (heldP data)) (xorBytes q (heldQ data))))
      else if x = j then some (lastOfTwo i j (xorBytes p (heldP data)) (xorBytes q (heldQ data))) else none) := by
  unfold goneOf at h
  simp only [solveStripe, h]
  rfl

/-! ### What is held of a stripe -/

/-- Of eight pieces, data holds each one or nothing in its place. -/
def PartOf (ds : List (List Byte)) (data : Pieces) : Prop := ∀ h, h < 8 → data[h]? = some none ∨ data[h]? = some (some (ds.getD h []))

theorem mem_goneOf {h : Nat} : h ∈ goneOf data ↔ h < 8 ∧ (data[h]?).getD none = none := by
  rw [goneOf, List.mem_filter, List.mem_range, Option.isNone_iff_eq_none]

theorem goneOf_nodup : (goneOf data).Nodup := List.Pairwise.filter _ List.nodup_range

variable {ds : List (List Byte)}

theorem PartOf.heldOf_eq (hs : PartOf ds data) {h : Nat} (hh : h < 8) :
    heldOf data h = if h ∈ goneOf data then zeroPiece else ds.getD h [] := by
  have hmem := mem_goneOf (data := data) (h := h)
  unfold heldOf
  rcases hs h hh with e | e
  · rw [e] at hmem ⊢
    rw [if_pos (hmem.mpr ⟨hh, rfl⟩)]
    rfl
  · rw [e] at hmem ⊢
    rw [if_neg fun hg => absurd (hmem.mp hg).2 (by simp)]
    rfl

/-- The pieces that are gone put back in their places. -/
theorem PartOf.filled_eq (hs : PartOf ds data) (hlen : ds.length = 8) {f : Nat → Option (List Byte)}
    (hf : ∀ h, f h = if h ∈ goneOf data then some (ds.getD h []) else none) : filled data f = ds := by
  refine List.ext_getElem (by rw [filled, List.length_map, List.length_range, hlen]) fun h _ hh => ?_
  have heq : (f h).getD (heldOf data h) = ds.getD h [] := by
    rw [hf, hs.heldOf_eq (hlen ▸ hh)]
    split <;> rfl
  rw [← getD_of_lt (x := []) hh, ← heq]
  simp [filled]

section

variable (hs : PartOf ds data) (hlen : ds.length = 8) (hds : ∀ d, d ∈ ds → d.length = pieceLen)

include hlen in
theorem ne_nil_of_eight : ds ≠ [] := fun e => by
  rw [e] at hlen
  exact absurd hlen (by decide)

include hs in
theorem PartOf.byteAt_heldOf {h : Nat} (hh : h < 8) :
    byteAt k (heldOf data h) = if h ∈ goneOf data then 0#8 else byteAt k (ds.getD h []) := by
  rw [hs.heldOf_eq hh, apply_ite (byteAt k), byteAt_zeroPiece]

include hlen hds

theorem getD_pieceLen {h : Nat} (hh : h < 8) : (ds.getD h []).length = pieceLen := by
  have hl : h < ds.length := hlen ▸ hh
  rw [getD_of_lt hl]
  exact hds _ (List.getElem_mem hl)

include hs

theorem PartOf.heldOf_length {h : Nat} (hh : h < 8) : (heldOf data h).length = pieceLen := by
  rw [hs.heldOf_eq hh]
  split
  · exact zeroPiece_length
  · exact getD_pieceLen hlen hds hh

/-- P without the pieces that are held. -/
theorem PartOf.restP : (xorBytes (parityP ds) (heldP data)).length = pieceLen ∧ ∀ k, byteAt k (xorBytes (parityP ds) (heldP data)) =
    xorSum 8 (fun h => byteAt k (ds.getD h [])) ^^^ xorSum 8 (fun h => byteAt k (heldOf data h)) := by
  obtain ⟨hp, hpb⟩ := parityP_spec (ne_nil_of_eight hlen) hds
  rw [hlen] at hpb
  obtain ⟨hh, hhb⟩ := pieceSum_spec (n := 8) (F := heldOf data) fun h => hs.heldOf_length hlen hds
  refine ⟨xorBytes_length hp hh, fun k => ?_⟩
  rw [← hpb k, ← hhb k]
  exact byteAt_xorBytes hp hh

/-- Q without the pieces that are held. -/
theorem PartOf.restQ : (xorBytes (parityQ ds) (heldQ data)).length = pieceLen ∧ ∀ k, byteAt k (xorBytes (parityQ ds) (heldQ data)) =
    xorSum 8 (fun h => gfTimes (gfPow2 h) (byteAt k (ds.getD h []))) ^^^ xorSum 8 (fun h => gfTimes (gfPow2 h) (byteAt k (heldOf data h))) := by
  obtain ⟨hq, hqb⟩ := parityQ_spec (ne_nil_of_eight hlen) hds
  rw [hlen] at hqb
  obtain ⟨hh, hhb⟩ := pieceSum_spec (n := 8) (F := fun h => gfScale (gfPow2 h) (heldOf data h))
    fun h hh => gfScale_length (hs.heldOf_length hlen hds hh)
  simp only [byteAt_gfScale] at hhb
  refine ⟨xorBytes_length hq hh, fun k => ?_⟩
  rw [← hqb k, ← hhb k]
  exact byteAt_xorBytes hq hh

/-! ### One piece gone -/

theorem PartOf.lost_byP (h : goneOf data = [i]) : xorBytes (parityP ds) (heldP data) = ds.getD i [] := by
  have hi : i < 8 := (mem_goneOf.mp (h ▸ List.mem_singleton_self i)).1
  obtain ⟨hl, hb⟩ := hs.restP hlen hds
  refine pieces_ext (hl.trans (getD_pieceLen hlen hds hi).symm) fun k => (hb k).trans ?_
  refine xorSum_without_one (f := fun h => byteAt k (ds.getD h [])) hi fun x hx => ?_
  rw [hs.byteAt_heldOf hx, h]
  simp only [List.mem_singleton]

theorem PartOf.lost_byQ (h : goneOf data = [i]) : gfScale (gfInv (gfPow2 i)) (xorBytes (parityQ ds) (heldQ data)) = ds.getD i [] := by
  have hi : i < 8 := (mem_goneOf.mp (h ▸ List.mem_singleton_self i)).1
  obtain ⟨hl, hb⟩ := hs.restQ hlen hds
  refine pieces_ext ((gfScale_length hl).trans (getD_pieceLen hlen hds hi).symm) fun k => ?_
  have hk := xorSum_without_one (n := 8) (f := fun h => gfTimes (gfPow2 h) (byteAt k (ds.getD h [])))
    (g := fun h => gfTimes (gfPow2 h) (byteAt k (heldOf data h))) hi fun x hx => by
      rw [hs.byteAt_heldOf hx, h, apply_ite (gfTimes _), gfTimes_zero]
      simp only [List.mem_singleton]
  rw [byteAt_gfScale, hb k, hk, gfTimes_cancel gfInv_lt gfPow2_lt (gfInv_pow_mul hi)]

/-! ### Two pieces gone -/

theorem PartOf.lost_byBoth (h : goneOf data = [i, j]) :
    lastOfTwo i j (xorBytes (parityP ds) (heldP data)) (xorBytes (parityQ ds) (heldQ data)) = ds.getD j [] ∧
      xorBytes (xorBytes (parityP ds) (heldP data)) (ds.getD j []) = ds.getD i [] := by
  have hi : i < 8 := (mem_goneOf.mp (h ▸ List.mem_cons_self)).1
  have hj : j < 8 := (mem_goneOf.mp (h ▸ List.mem_cons_of_mem i (List.mem_singleton_self j))).1
  have hne : i ≠ j := by
    have := h ▸ goneOf_nodup (data := data)
    simpa using this
  have hw := @gfPow2_lt i
  have hv := @gfPow2_lt j
  obtain ⟨hla, ha⟩ := hs.restP hlen hds
  obtain ⟨hlb, hb⟩ := hs.restQ hlen hds
  have hli := getD_pieceLen hlen hds hi
  have hlj := getD_pieceLen hlen hds hj
  have hak : ∀ k, byteAt k (xorBytes (parityP ds) (heldP data)) = byteAt k (ds.getD i []) ^^^ byteAt k (ds.getD j []) := fun k =>
    (ha k).trans (xorSum_without_two (f := fun h => byteAt k (ds.getD h [])) hi hj hne.symm fun x hx => by
      rw [hs.byteAt_heldOf hx, h]
      simp only [List.mem_cons, List.not_mem_nil, or_false])
  have hbk : ∀ k, byteAt k (xorBytes (parityQ ds) (heldQ data)) =
      gfTimes (gfPow2 i) (byteAt k (ds.getD i [])) ^^^ gfTimes (gfPow2 j) (byteAt k (ds.getD j [])) := fun k =>
    (hb k).trans (xorSum_without_two (f := fun h => gfTimes (gfPow2 h) (byteAt k (ds.getD h []))) hi hj hne.symm fun x hx => by
      rw [hs.byteAt_heldOf hx, h, apply_ite (gfTimes _), gfTimes_zero]
      simp only [List.mem_cons, List.not_mem_nil, or_false])
  constructor
  · refine pieces_ext ((gfScale_length (xorBytes_length hlb (gfScale_length hla))).trans hlj.symm) fun k => ?_
    rw [lastOfTwo, byteAt_gfScale, byteAt_xorBytes hlb (gfScale_length hla), byteAt_gfScale, hak, hbk, gfTimes_xor hw]
    rw [xor_xor_shared, BitVec.xor_comm, ← xor_gfTimes hw hv, gfTimes_cancel gfInv_lt (xor_lt_256 hw hv) (gfInv_pows_mul hi hj hne)]
  · refine pieces_ext ((xorBytes_length hla hlj).trans hli.symm) fun k => ?_
    rw [byteAt_xorBytes hla hlj, hak, BitVec.xor_assoc, BitVec.xor_self, BitVec.xor_zero]

end

/-! ### Any two of ten -/

/-- What is held of eight pieces when some positions are gone. -/
def kept (ds : List (List Byte)) (gone : List Nat) : Pieces := (List.range 8).map (fun h => if gone.contains h then none else ds[h]?)

variable {gone : List Nat}

theorem kept_getElem? (hlen : ds.length = 8) {h : Nat} (hh : h < 8) :
    (kept ds gone)[h]? = some (if gone.contains h then none else some (ds.getD h [])) := by
  have hl : h < ds.length := hlen ▸ hh
  rw [kept, List.getElem?_map, List.getElem?_range hh, Option.map_some, List.getElem?_eq_getElem hl, getD_of_lt hl]

theorem kept_heldOf (hlen : ds.length = 8) : PartOf ds (kept ds gone) := by
  intro h hh
  rw [kept_getElem? hlen hh]
  split
  · exact .inl rfl
  · exact .inr rfl

theorem goneOf_kept (hlen : ds.length = 8) : goneOf (kept ds gone) = (List.range 8).filter gone.contains := by
  refine List.filter_congr fun h hh => ?_
  rw [kept_getElem? hlen (List.mem_range.mp hh)]
  cases gone.contains h <;> rfl

/-- The erased pieces of ten are the erased data pieces, and P and Q when they are gone. -/
theorem erased_count : ((List.range 10).filter gone.contains).length =
    ((List.range 8).filter gone.contains).length + (if gone.contains 8 then 1 else 0) + (if gone.contains 9 then 1 else 0) := by
  have e : List.range 10 = List.range 8 ++ [8] ++ [9] := rfl
  have one : ∀ x, ([x].filter gone.contains).length = if gone.contains x then 1 else 0 := by
    intro x
    rw [List.filter_cons]
    cases gone.contains x <;> rfl
  rw [e, List.filter_append, List.filter_append, List.length_append, List.length_append, one, one]

/-- R542. Eight pieces with P and Q, of which at most two are gone, are solved to the eight pieces. -/
theorem solveStripe_kept (hlen : ds.length = 8) (hds : ∀ d, d ∈ ds → d.length = pieceLen)
    (hgone : ((List.range 10).filter gone.contains).length ≤ 2) :
    solveStripe (kept ds gone) (if gone.contains 8 then none else some (parityP ds)) (if gone.contains 9 then none else some (parityQ ds)) =
      some ds := by
  have hs : PartOf ds (kept ds gone) := kept_heldOf hlen
  rw [erased_count, ← goneOf_kept hlen] at hgone
  generalize kept ds gone = data at hs hgone ⊢
  match hg : goneOf data, hgone with
  | [], _ =>
    rw [solveStripe_complete hg, hs.filled_eq hlen fun h => by rw [hg]; rfl]
  | [i], hgone =>
    by_cases h8 : gone.contains 8
    · have h9 : ¬ gone.contains 9 := fun h9 => by
        rw [if_pos h8, if_pos h9, List.length_singleton] at hgone
        omega
      rw [if_pos h8, if_neg h9, solveStripe_byQ hg, hs.lost_byQ hlen hds hg]
      rw [hs.filled_eq hlen fun h => by rw [hg]; by_cases e : h = i <;> simp [e]]
    · rw [if_neg h8, solveStripe_byP hg, hs.lost_byP hlen hds hg]
      rw [hs.filled_eq hlen fun h => by rw [hg]; by_cases e : h = i <;> simp [e]]
  | [i, j], hgone =>
    have h8 : ¬ gone.contains 8 := fun h8 => by
      rw [if_pos h8, List.length_cons, List.length_singleton] at hgone
      omega
    have h9 : ¬ gone.contains 9 := fun h9 => by
      rw [if_pos h9, List.length_cons, List.length_singleton] at hgone
      omega
    obtain ⟨hj, hi⟩ := hs.lost_byBoth hlen hds hg
    rw [if_neg h8, if_neg h9, solveStripe_byBoth hg, hj, hi]
    refine congrArg some (hs.filled_eq hlen fun h => ?_)
    rw [hg]
    by_cases e : h = i
    · simp [e]
    · by_cases e' : h = j
      · subst e'
        simp [e]
      · simp [e, e']
  | _ :: _ :: _ :: _, hgone =>
    simp only [List.length_cons] at hgone
    omega

/-- Settles O38: a stripe of which at most two pieces are erased is complete, or is solved by P, by Q, or by both. -/
theorem anyTwoErasedPiecesComeBack : Obligations.AnyTwoErasedPiecesComeBack := by
  unfold Obligations.AnyTwoErasedPiecesComeBack
  intro ds gone hlen hds hgone
  exact solveStripe_kept hlen hds hgone

end Sys2Proof.Machine

/-!
SUPPORT. A started descriptor that has not begun and gets its outcome, and counters that rise (spec/02 R82, R93).
-/
namespace Sys2Proof.Machine

open Sys2Proof

variable {s t u : State} {n seq op k m off : Nat} {d : Started} {o : Done} {f : Fld}

theorem State.unbegun_found (h : s.unbegun n seq op = some d) : s.findStarted n seq = some d ∧ d.done = none := by
  unfold State.unbegun at h
  split at h
  · rename_i x hx
    split at h
    · rename_i hc
      simp only [Bool.and_eq_true, Option.isNone_iff_eq_none] at hc
      obtain rfl := Option.some.inj h
      exact ⟨hx, hc.2⟩
    · exact absurd h (by simp)
  · exact absurd h (by simp)

/-- A descriptor without outcome gets the STATUS and the RESULT that its unit gives it. -/
theorem State.setDone_found (hf : s.findStarted n seq = some d) (hd : d.done = none) : ∃ y x, (s.setDone n seq o).findStarted n seq = some y ∧
    y.done = some x ∧ x.status = o.status ∧ x.result = o.result := by
  refine ⟨_, _, State.findStarted_setDone hf hd, rfl, ?_, ?_⟩
  · rw [Started.outcome_status, State.doneDie_status, Started.located_status]
  · rw [Started.outcome_result, State.doneDie_result, Started.located_result]

theorem State.setDone_endOf (hf : s.findStarted n seq = some d) (hd : d.done = none) : (s.setDone n seq o).endOf n seq = some o.status := by
  obtain ⟨y, x, hy, hx, hs, -⟩ := State.setDone_found (o := o) hf hd
  rw [State.endOf_of_findStarted hy hx, hs]

theorem Rose.of_eq (h : t.fget off f = s.fget off f) : Rose s t off f 0 := by
  unfold Rose
  rw [h, Nat.add_zero, Nat.min_eq_right]
  exact Fld.get_le

theorem Rose.trans (h : Rose s t off f k) (g : Rose t u off f m) : Rose s u off f (k + m) := by
  unfold Rose at h g ⊢
  rw [g, h]
  omega

theorem State.bump_rose (w : tblWf regReset s.regs = true) (hf : f.ok) : Rose s (s.bump off f k) off f k := by
  rw [Rose, State.bump, State.fget_fput w hf]
  exact Nat.mod_eq_of_lt (Nat.lt_succ_of_le (Nat.min_le_left _ _))

end Sys2Proof.Machine

/-!
SUPPORT. SPREAD_APPLY: the checks of what it reads, the list of lost chips, and its three ends (spec/12 R530-R534).
-/
namespace Sys2Proof.Machine

open Sys2Proof

variable {s z : State} {n seq chip lost mode : Nat} {d : Started} {ecc : EccFinds} {c : Ctx} {cs : List TblChange} {p : List Byte}

/-! ### Checks that pass leave the state as it is (R221) -/

theorem Only.eq_of_no_part {s t : State} (h : Only {} s t) : t = s := h

theorem State.poisonCheck_unchanged {addr k : Nat} (h : (s.poisonCheck c addr k).2 = none) : Only {} s (s.poisonCheck c addr k).1 := by
  refine foldChecks_passes (fun x a hx => ?_) h
  split at hx
  · split at hx
    · exact absurd hx (by simp)
    · exact Only.refl _ x
  · exact Only.refl _ x

/-- The checks of SPREAD_APPLY over the ranges that it reads. -/
def State.spreadChecks (s : State) (d : Started) : State × Option Nat :=
  foldChecks s (fun s r => s.poisonCheck (ctxOf d.ring d.bytes s.trfDie 0x30) r.1 r.2) s.spreadReads

theorem State.spreadChecks_sound (h : (s.spreadChecks d).2 = none) : s.spreadChecks d = (s, none) :=
  Prod.ext (Only.eq_of_no_part (foldChecks_passes (fun _ _ hx => State.poisonCheck_unchanged hx) h)) h

theorem State.spreadChecks_started : (s.spreadChecks d).1.started = s.started :=
  (Only.foldChecks (p := Parts.report.or { poison := true }) (Only.refl _ s) fun _ _ hx => State.poisonCheck_only rfl hx).same_started rfl

/-- A read that fails ends the descriptor FAULTED. -/
theorem State.spreadRead_fails (hp : s.spreadReads.any (fun r => s.pendingIn r.1 r.2) = false) (h : (s.spreadChecks d).2 ≠ none) :
    ∃ x, x.status = stFAULTED ∧ s.spreadRead d = (s.spreadChecks d).1.setDone d.ring d.seq x := by
  obtain ⟨cls, hcls⟩ := Option.ne_none_iff_exists'.mp h
  have e : s.spreadChecks d = ((s.spreadChecks d).1, some cls) := Prod.ext rfl hcls
  refine ⟨{ status := stFAULTED, cls := cls, die := 0x50, unit := 0x30 }, rfl, ?_⟩
  rw [State.spreadRead, if_neg (by rw [hp]; decide)]
  unfold State.spreadChecks at e ⊢
  rw [e]

theorem State.spreadRead_sound (hp : s.spreadReads.any (fun r => s.pendingIn r.1 r.2) = false) (h : (s.spreadChecks d).2 = none) :
    s.spreadRead d = spreadDesc s d := by
  have e := State.spreadChecks_sound h
  rw [State.spreadRead, if_neg (by rw [hp]; decide)]
  unfold State.spreadChecks at e
  rw [e]

/-! ### The registers that tables leave alone -/

theorem State.changeTable_regs {l : Nat → Prop} {t : State} {x : TblChange} (hl : ∀ y, sideReg y = true → l y) (h : RegsBut l s t) :
    RegsBut l s (t.changeTable x) := by
  unfold State.changeTable
  exact RegsBut.ite h (((h.foldl fun _ _ hx => hx.gwrite service_placed hl).gwrite service_placed hl).gwrite service_placed hl)

theorem State.changeTables_regs : RegsBut (fun off => sideReg off = true) s (cs.foldl State.changeTable s) :=
  RegsBut.foldl (RegsBut.refl _ s) fun _ _ hx => State.changeTable_regs (fun _ hy => hy) hx

theorem sideReg_lost {i : Nat} (hi : i < 8) : sideReg (Reg.CONT_LOST i) = false := by
  revert i
  decide

/-! ### The list of lost chips (R532, R533) -/

theorem State.isLost_iff : s.isLost chip = true ↔ ∃ i, i < 8 ∧ s.fget (Reg.CONT_LOST i) Fld.CONT_LOST_VALID = 1 ∧
    s.fget (Reg.CONT_LOST i) Fld.CONT_LOST_CHIP = chip := by
  simp [State.isLost, State.lostList]

/-- The list is that of the eight registers. -/
theorem State.lostList_congr {t : State} (h : ∀ i, i < 8 → t.reg (Reg.CONT_LOST i) = s.reg (Reg.CONT_LOST i)) : t.lostList = s.lostList := by
  have hf : ∀ i, i ∈ List.range 8 → (t.fget (Reg.CONT_LOST i) Fld.CONT_LOST_VALID == 1) = (s.fget (Reg.CONT_LOST i) Fld.CONT_LOST_VALID == 1) :=
    fun i hi => by rw [State.fget, State.fget, h i (List.mem_range.mp hi)]
  unfold State.lostList
  rw [List.filter_congr hf]
  refine List.map_congr_left fun i hi => ?_
  rw [State.fget, State.fget, h i (List.mem_range.mp (List.mem_filter.mp hi).1)]

theorem State.isLost_congr {t : State} (h : ∀ i, i < 8 → t.reg (Reg.CONT_LOST i) = s.reg (Reg.CONT_LOST i)) : t.isLost chip = s.isLost chip := by
  rw [State.isLost, State.isLost, State.lostList_congr h]

theorem lost_ne_status {i : Nat} : Reg.CONT_LOST i ≠ Reg.CONT_SPREAD_STATUS := by
  unfold Reg.CONT_LOST Reg.CONT_SPREAD_STATUS
  omega

theorem State.countLost_reg (w : tblWf regReset s.regs = true) {i : Nat} : s.countLost.reg (Reg.CONT_LOST i) = s.reg (Reg.CONT_LOST i) :=
  State.reg_fput_ne w lost_ne_status

theorem State.countLost_applied (w : tblWf regReset s.regs = true) :
    s.countLost.fget Reg.CONT_SPREAD_STATUS Fld.CONT_SPREAD_STATUS_APPLIED = s.fget Reg.CONT_SPREAD_STATUS Fld.CONT_SPREAD_STATUS_APPLIED :=
  State.fget_fput_fld w ⟨by decide, by decide⟩ (by decide)

/-- With every entry in use the list has eight chips. -/
theorem State.lostList_full (h : (List.range 8).find? (fun i => s.fget (Reg.CONT_LOST i) Fld.CONT_LOST_VALID == 0) = none) :
    s.lostList.length = 8 := by
  have hv : ∀ i, i ∈ List.range 8 → (s.fget (Reg.CONT_LOST i) Fld.CONT_LOST_VALID == 1) = true := by
    intro i hi
    have hne := List.find?_eq_none.mp h i hi
    have hle : s.fget (Reg.CONT_LOST i) Fld.CONT_LOST_VALID ≤ 1 := Fld.get_le (f := Fld.CONT_LOST_VALID)
    simp only [beq_iff_eq] at hne ⊢
    omega
  rw [State.lostList, List.filter_eq_self.mpr hv, List.length_map, List.length_range]

/-- A chip is listed after it was put on the list, when there was room or it stood there. -/
theorem State.listLost_lists (w : tblWf regReset s.regs = true) (hc : chip < 65536) (h : s.isLost chip = true ∨ s.lostList.length ≠ 8) :
    (s.listLost chip).isLost chip = true := by
  unfold State.listLost
  split
  · assumption
  · rename_i hn
    split
    · rename_i i hi
      have w1 : tblWf regReset (s.fput (Reg.CONT_LOST i) Fld.CONT_LOST_CHIP chip).regs = true := State.fput_wf w
      refine State.isLost_iff.mpr ⟨i, List.mem_range.mp (List.mem_of_find?_eq_some hi), ?_, ?_⟩
      · rw [State.fget, State.countLost_reg (State.fput_wf w1)]
        exact State.fget_fput w1 ⟨by decide, by decide⟩
      · rw [State.fget, State.countLost_reg (State.fput_wf w1)]
        exact (State.fget_fput_fld w1 ⟨by decide, by decide⟩ (by decide)).trans
          ((State.fget_fput w ⟨by decide, by decide⟩).trans (Nat.mod_eq_of_lt hc))
    · rename_i hi
      exact absurd (State.lostList_full hi) (h.resolve_left hn)

/-- Entries of the list that are cleared. -/
theorem State.clearLost_reg {xs : List (Nat × Nat)} (w : tblWf regReset s.regs = true) {i : Nat} :
    (xs.foldl (fun s x => s.setReg (Reg.CONT_LOST x.1) 0#64) s).reg (Reg.CONT_LOST i) =
      if i ∈ xs.map (·.1) then 0#64 else s.reg (Reg.CONT_LOST i) := by
  induction xs generalizing s with
  | nil => rfl
  | cons x xs ih =>
    have hinj : Reg.CONT_LOST i = Reg.CONT_LOST x.1 ↔ i = x.1 := by
      unfold Reg.CONT_LOST
      omega
    rw [List.foldl_cons, ih (State.setReg_wf w), State.reg_setReg w]
    simp only [hinj, List.map_cons, List.mem_cons]
    by_cases h1 : i = x.1 <;> by_cases h2 : i ∈ xs.map (·.1) <;> simp [h1, h2]

/-- Clearing entries leaves every register alone but those of the list. -/
theorem State.clearLost_regs {xs : List (Nat × Nat)} :
    RegsBut (fun off => off ≠ Reg.CONT_SPREAD_STATUS) s (xs.foldl (fun s x => s.setReg (Reg.CONT_LOST x.1) 0#64) s) :=
  RegsBut.foldl (RegsBut.refl _ s) fun _ _ hx => hx.setReg lost_ne_status

/-- No entry names a chip after it was taken off the list. -/
theorem State.unlistLost_unlists (w : tblWf regReset s.regs = true) : (s.unlistLost chip).isLost chip = false := by
  refine Bool.eq_false_iff.mpr fun h => ?_
  obtain ⟨i, hi, hv, hchip⟩ := State.isLost_iff.mp h
  rw [State.fget, State.unlistLost, State.countLost_reg (State.clearLost_regs.wf w), State.clearLost_reg w] at hv hchip
  split at hv
  · exact absurd hv (by decide)
  · rename_i hnot
    rw [if_neg hnot] at hchip
    refine hnot (List.mem_map.mpr ⟨(i, chip), List.mem_filter.mpr ⟨List.mem_map.mpr ⟨i, ?_, ?_⟩, by simp⟩, rfl⟩)
    · exact List.mem_filter.mpr ⟨List.mem_range.mpr hi, by rw [State.fget, hv]; rfl⟩
    · exact congrArg (Prod.mk i) hchip

/-- R532, R533. The chip is put on the list by APPLY, and taken off it by RETURN. -/
def State.relist (s : State) (mode lost : Nat) : State := if mode = 0 then s.listLost lost else s.unlistLost lost

theorem State.relist_isLost (w : tblWf regReset s.regs = true) (hc : lost < 65536)
    (h : mode = 0 → s.isLost lost = true ∨ s.lostList.length ≠ 8) : (s.relist mode lost).isLost lost = (mode == 0) := by
  unfold State.relist
  split
  · rename_i hm
    rw [State.listLost_lists w hc (h hm), hm]
    rfl
  · rename_i hm
    rw [State.unlistLost_unlists w]
    exact (beq_eq_false_iff_ne.mpr hm).symm

/-- The list stays as it is, or some of its registers change and LOST_COUNT follows. -/
theorem State.relist_counts : s.relist mode lost = s ∨
    ∃ x, RegsBut (fun off => off ≠ Reg.CONT_SPREAD_STATUS) s x ∧ s.relist mode lost = x.countLost := by
  unfold State.relist
  split
  · unfold State.listLost
    split
    · exact .inl rfl
    · split
      · exact .inr ⟨_, RegsBut.fput lost_ne_status (RegsBut.fput lost_ne_status (RegsBut.refl _ s)), rfl⟩
      · exact .inl rfl
  · exact .inr ⟨_, State.clearLost_regs, rfl⟩

theorem State.relist_wf (w : tblWf regReset s.regs = true) : tblWf regReset (s.relist mode lost).regs = true := by
  rcases State.relist_counts (s := s) (mode := mode) (lost := lost) with e | ⟨x, hx, e⟩
  · rwa [e]
  · rw [e]
    exact State.fput_wf (hx.wf w)

theorem State.relist_applied (w : tblWf regReset s.regs = true) :
    (s.relist mode lost).fget Reg.CONT_SPREAD_STATUS Fld.CONT_SPREAD_STATUS_APPLIED =
      s.fget Reg.CONT_SPREAD_STATUS Fld.CONT_SPREAD_STATUS_APPLIED := by
  rcases State.relist_counts (s := s) (mode := mode) (lost := lost) with e | ⟨x, hx, e⟩
  · rw [e]
  · rw [e, State.countLost_applied (hx.wf w), State.fget, State.fget, hx.same w _ (fun h => h rfl)]

theorem State.relist_started : (s.relist mode lost).started = s.started := by
  unfold State.relist
  split
  · exact (State.listLost_only (p := { regs := true }) rfl (Only.refl _ s)).same_started rfl
  · exact (State.unlistLost_only (p := { regs := true }) rfl (Only.refl _ s)).same_started rfl

/-! ### The ends of SPREAD_APPLY -/

/-- R530. The operands are bad. -/
def spreadOperandsBad (b : List Byte) : Bool := dPARAM b || decide (1 < leAt b 26 1) || !zeroBytes b 27 63

/-- R532, R533. The changes of the tables. -/
def State.spreadChanges (s : State) (b p : List Byte) : List TblChange :=
  s.tables.map (fun t => if leAt b 26 1 = 0 then s.applyChange t.1 t.2 (leAt b 24 2) (survivorsOf p)
    else s.returnChange t.1 t.2 (leAt b 24 2) (survivorsOf p))

/-- The number of tables that change. -/
def changedTables (cs : List TblChange) : Nat := (cs.filter (fun c => !c.sets.isEmpty)).length

/-- R532-R534. The tables are changed, the list of lost chips follows, and APPLIED counts. -/
def State.spreadDone (s : State) (mode lost : Nat) (cs : List TblChange) : State :=
  let t := (cs.foldl State.changeTable s).relist mode lost
  if changedTables cs = 0 then t else t.bump Reg.CONT_SPREAD_STATUS Fld.CONT_SPREAD_STATUS_APPLIED 1

/-- What the service answers. -/
def spreadEnd (status result : Nat) : Done := { status := status, result := result, die := 0x50, unit := 0x30 }

theorem spreadDesc_bad (h : spreadOperandsBad d.bytes = true ∨ s.planFor (leAt d.bytes 24 2) = none ∨
      (∃ p, s.planFor (leAt d.bytes 24 2) = some p ∧ planBad p (leAt d.bytes 24 2) = true)) :
    spreadDesc s d = s.setDone d.ring d.seq (spreadEnd stBAD_OPERAND 0) := by
  unfold spreadDesc
  dsimp only
  split
  · rfl
  · rename_i hgood
    rcases h with h | h | ⟨p, hp, h⟩
    · exact absurd h hgood
    · rw [h]
      rfl
    · rw [hp]
      simp only [h, if_true]
      rfl

section

variable (hgood : spreadOperandsBad d.bytes = false) (hp : s.planFor (leAt d.bytes 24 2) = some p) (hplan : planBad p (leAt d.bytes 24 2) = false)
include hgood hp hplan

theorem spreadDesc_refused {r : Nat}
    (h : s.spreadRefused (leAt d.bytes 24 2) (leAt d.bytes 26 1) (survivorsOf p) (s.spreadChanges d.bytes p) = some r) :
    spreadDesc s d = s.setDone d.ring d.seq (spreadEnd stREFUSED r) := by
  unfold spreadOperandsBad at hgood
  unfold State.spreadChanges at h
  simp only [spreadDesc, hgood, Bool.false_eq_true, if_false, hp, hplan, h]
  rfl

theorem spreadDesc_applied
    (h : s.spreadRefused (leAt d.bytes 24 2) (leAt d.bytes 26 1) (survivorsOf p) (s.spreadChanges d.bytes p) = none) :
    spreadDesc s d = (s.spreadDone (leAt d.bytes 26 1) (leAt d.bytes 24 2) (s.spreadChanges d.bytes p)).setDone d.ring d.seq
      (spreadEnd stSUCCESS (changedTables (s.spreadChanges d.bytes p) * 2 ^ 32)) := by
  unfold spreadOperandsBad at hgood
  unfold State.spreadChanges at h
  simp only [spreadDesc, hgood, Bool.false_eq_true, if_false, hp, hplan, h]
  rfl

end

/-- R531. An APPLY that is not refused finds its chip listed, or an entry free. -/
theorem State.apply_has_room {sv : List Survivor} (h : s.spreadRefused lost 0 sv cs = none) : s.isLost lost = true ∨ s.lostList.length ≠ 8 := by
  unfold State.spreadRefused at h
  split at h
  · exact absurd h (by simp)
  split at h
  · exact absurd h (by simp)
  split at h
  · exact absurd h (by simp)
  rw [if_pos rfl] at h
  split at h
  · exact absurd h (by simp)
  split at h
  · exact absurd h (by simp)
  · rename_i hroom
    simp only [Bool.or_eq_true, Bool.and_eq_true, Bool.not_eq_true', beq_iff_eq, not_or, not_and] at hroom
    cases hl : s.isLost lost with
    | true => exact .inl rfl
    | false => exact .inr (hroom.1 hl)

theorem State.spreadDone_started : (s.spreadDone mode lost cs).started = s.started := by
  have tables : (cs.foldl State.changeTable s).started = s.started :=
    (Only.foldl (p := (Parts.report.or Parts.memory).or { heldWr := true, order := true, fab := true, tor := true, arr := true })
      (Only.refl _ s) fun _ _ hx => State.changeTable_only rfl hx).same_started rfl
  unfold State.spreadDone
  dsimp only
  split
  · exact State.relist_started.trans tables
  · exact State.relist_started.trans tables

theorem State.spreadDone_isLost (w : tblWf regReset s.regs = true) (hc : lost < 65536)
    (h : mode = 0 → s.isLost lost = true ∨ s.lostList.length ≠ 8) : (s.spreadDone mode lost cs).isLost lost = (mode == 0) := by
  have hregs := State.changeTables_regs (s := s) (cs := cs)
  have hsame : ∀ i, i < 8 → (cs.foldl State.changeTable s).reg (Reg.CONT_LOST i) = s.reg (Reg.CONT_LOST i) := fun i hi =>
    hregs.same w _ (by rw [sideReg_lost hi]; decide)
  have hlist : ((cs.foldl State.changeTable s).relist mode lost).isLost lost = (mode == 0) :=
    State.relist_isLost (hregs.wf w) hc (by rwa [State.isLost_congr hsame, State.lostList_congr hsame])
  unfold State.spreadDone
  dsimp only
  split
  · exact hlist
  · exact (State.isLost_congr fun i _ => State.reg_fput_ne (State.relist_wf (hregs.wf w)) lost_ne_status).trans hlist

theorem State.spreadDone_applied (w : tblWf regReset s.regs = true) :
    Rose s (s.spreadDone mode lost cs) Reg.CONT_SPREAD_STATUS Fld.CONT_SPREAD_STATUS_APPLIED (if changedTables cs = 0 then 0 else 1) := by
  have hregs := State.changeTables_regs (s := s) (cs := cs)
  have hsame : Rose s ((cs.foldl State.changeTable s).relist mode lost) Reg.CONT_SPREAD_STATUS Fld.CONT_SPREAD_STATUS_APPLIED 0 :=
    Rose.of_eq ((State.relist_applied (hregs.wf w)).trans (by rw [State.fget, State.fget, hregs.same w _ (by decide)]))
  unfold State.spreadDone
  dsimp only
  split
  · exact hsame
  · exact hsame.trans (State.bump_rose (State.relist_wf (hregs.wf w)) ⟨by decide, by decide⟩)

theorem exec_spreadApply (hu : (z.eccAll ecc).unbegun n seq 0x4010 = some d) (ht : (z.eccAll ecc).inTurn caddyOps d = true) :
    exec (.spreadApply n seq ecc) z = .next ((z.eccAll ecc).spreadRead d) := by
  show execSpreadApply n seq ecc z = _
  simp only [execSpreadApply, hu, ht, if_true]

end Sys2Proof.Machine

/-!
SUPPORT. REBUILD, stripe by stripe: with no cut on it touches no descriptor, and REBUILD_STATUS counts the stripes (spec/12 R540-R544).
-/
namespace Sys2Proof.Machine

open Sys2Proof

variable {s z : State} {n seq m q step : Nat} {d : Started} {ecc : EccFinds} {x : RebuildP} {who : Master} {sets : List (Option Nat)}
  {ps : List PieceRead} {qs : List Nat} {views : List (Option HolderView)} {r : List Byte × Bool}

/-! ### One stripe -/

/-- A page waits for no copy while no cut is on. -/
theorem State.sumpGuard_noCut {page : Nat} (h : s.sump.cut = none) : s.sumpGuard page = s := by
  unfold State.sumpGuard
  split
  · exact absurd h (State.cut_of_uncopied ‹_›)
  · rfl

theorem State.rebuildWrite_noCut {b : List Byte} (h : s.sump.cut = none) : Only Parts.memory s (s.rebuildWrite x step q b) := by
  refine Only.foldl (Only.refl _ s) fun y e hy => ?_
  have hcut : y.sump.cut = none := by rw [hy.same_sump rfl, h]
  dsimp only
  split
  · split
    · rw [State.sumpGuard_noCut hcut]
      exact State.sealSump_only rfl (State.writeSump_only rfl hy)
    · exact hy
  · exact hy

/-- The reads of a stripe leave as packets of the engine's region, which changes no register but counts of packets without a route. -/
theorem State.askStripe_regs (hx : x.region < 8) : RegsBut (fun off => sideReg off = true) s (s.askStripe x who sets ps q) := by
  have asked : ∀ {t : State} {chip off k : Nat}, RegsBut (fun off => sideReg off = true) s t →
      RegsBut (fun off => sideReg off = true) s (t.askRead x.region who chip off k) :=
    fun ht => RegsBut.send hx (fun _ hy => hy) (ht.regs (by rfl))
  refine RegsBut.foldl (RegsBut.refl _ s) fun t h ht => ?_
  split
  · exact RegsBut.ite ht (ht.foldl fun _ _ hy => asked hy)
  · exact ht

/-- The state after a stripe whose pages are written, and counted where it needed parity. -/
def State.stripeRebuilt (s : State) (x : RebuildP) (who : Master) (step : Nat) (sets : List (Option Nat)) (ps : List PieceRead) (q : Nat)
    (r : List Byte × Bool) : State :=
  let t := ((s.askStripe x who sets ps q).rebuildWrite x step q r.1).bump Reg.CONT_REBUILD_STATUS Fld.CONT_REBUILD_STATUS_STRIPES 1
  if r.2 then t.bump Reg.CONT_REBUILD_STATUS Fld.CONT_REBUILD_STATUS_RECONSTRUCTED 1 else t

theorem rebuildAll_stops (h : s.rebuildStripe x sets ps q = none) :
    rebuildAll x who step sets ps s n (q :: qs) = (s.askStripe x who sets ps q, some q, n) := by
  simp only [rebuildAll, h]

theorem rebuildAll_goesOn (h : s.rebuildStripe x sets ps q = some r) : rebuildAll x who step sets ps s n (q :: qs) =
    rebuildAll x who step sets ps (s.stripeRebuilt x who step sets ps q r) (if r.2 then n + 1 else n) qs := by
  simp only [rebuildAll, h, State.stripeRebuilt]
  cases r.2 <;> rfl

theorem State.stripeRebuilt_only (h : s.sump.cut = none) :
    Only (Parts.memory.or { regs := true, fab := true, tor := true }) s (s.stripeRebuilt x who step sets ps q r) := by
  have hask : Only { regs := true, fab := true, tor := true } s (s.askStripe x who sets ps q) := State.askStripe_only rfl (Only.refl _ s)
  have hcut : (s.askStripe x who sets ps q).sump.cut = none := by rw [hask.same_sump rfl, h]
  have hwrite : Only (Parts.memory.or { regs := true, fab := true, tor := true }) s ((s.askStripe x who sets ps q).rebuildWrite x step q r.1) :=
    (hask.weaken rfl).trans ((State.rebuildWrite_noCut hcut).weaken rfl)
  exact Only.ite (State.bump_only rfl (State.bump_only rfl hwrite)) (State.bump_only rfl hwrite)

theorem State.stripeRebuilt_counts (h : s.sump.cut = none) (hx : x.region < 8) (w : tblWf regReset s.regs = true) :
    tblWf regReset (s.stripeRebuilt x who step sets ps q r).regs = true ∧
      Rose s (s.stripeRebuilt x who step sets ps q r) Reg.CONT_REBUILD_STATUS Fld.CONT_REBUILD_STATUS_STRIPES 1 := by
  have hask : Only { regs := true, fab := true, tor := true } s (s.askStripe x who sets ps q) := State.askStripe_only rfl (Only.refl _ s)
  have hregs : RegsBut (fun off => sideReg off = true) s ((s.askStripe x who sets ps q).rebuildWrite x step q r.1) :=
    (State.askStripe_regs hx).only (State.rebuildWrite_noCut (by rw [hask.same_sump rfl, h])) rfl
  generalize ht : ((s.askStripe x who sets ps q).rebuildWrite x step q r.1) = t at hregs
  have w1 := hregs.wf w
  have hsame : Rose s t Reg.CONT_REBUILD_STATUS Fld.CONT_REBUILD_STATUS_STRIPES 0 :=
    Rose.of_eq (by rw [State.fget, State.fget, hregs.same w _ (by decide)])
  have hone := hsame.trans (State.bump_rose (k := 1) w1 ⟨by decide, by decide⟩)
  have w2 : tblWf regReset (t.bump Reg.CONT_REBUILD_STATUS Fld.CONT_REBUILD_STATUS_STRIPES 1).regs = true := State.fput_wf w1
  unfold State.stripeRebuilt
  rw [ht]
  dsimp only
  split
  · exact ⟨State.fput_wf w2, hone.trans (Rose.of_eq (State.fget_fput_fld w2 ⟨by decide, by decide⟩ (by decide)))⟩
  · exact ⟨w2, hone⟩

/-! ### All stripes -/

theorem rebuildAll_started (h : s.sump.cut = none) : (rebuildAll x who step sets ps s n qs).1.started = s.started := by
  induction qs generalizing s n with
  | nil => rfl
  | cons q qs ih =>
    cases hr : s.rebuildStripe x sets ps q with
    | none =>
      rw [rebuildAll_stops hr]
      exact (State.askStripe_only (p := { regs := true, fab := true, tor := true }) rfl (Only.refl _ s)).same_started rfl
    | some r =>
      have k := State.stripeRebuilt_only (who := who) (step := step) (x := x) (sets := sets) (ps := ps) (q := q) (r := r) h
      rw [rebuildAll_goesOn hr, ih (by rw [k.same_sump rfl, h]), k.same_started rfl]

/-- With every stripe rebuilt, STRIPES counts them all. -/
theorem rebuildAll_counts (h : s.sump.cut = none) (hx : x.region < 8) (w : tblWf regReset s.regs = true)
    (hr : (rebuildAll x who step sets ps s n qs).2.1 = none) :
    Rose s (rebuildAll x who step sets ps s n qs).1 Reg.CONT_REBUILD_STATUS Fld.CONT_REBUILD_STATUS_STRIPES qs.length := by
  induction qs generalizing s n with
  | nil => exact Rose.of_eq rfl
  | cons q qs ih =>
    cases e : s.rebuildStripe x sets ps q with
    | none =>
      rw [rebuildAll_stops e] at hr
      exact absurd hr (by simp)
    | some r =>
      have k := State.stripeRebuilt_only (who := who) (step := step) (x := x) (sets := sets) (ps := ps) (q := q) (r := r) h
      obtain ⟨w1, hone⟩ := State.stripeRebuilt_counts (who := who) (step := step) (x := x) (sets := sets) (ps := ps) (q := q) (r := r) h hx w
      rw [rebuildAll_goesOn e] at hr ⊢
      rw [List.length_cons, Nat.add_comm qs.length 1]
      exact hone.trans (ih (by rw [k.same_sump rfl, h]) w1 hr)

/-! ### The ends of REBUILD -/

/-- R541. The sets of the ten holders that serve a rebuild. -/
def State.rebuildSets (s : State) (p : List Byte) (views : List (Option HolderView)) : List (Option Nat) :=
  (List.range 10).map (fun h => s.rebuildSet (rebuildP p) h ((views[h]?).getD none))

/-- How many stripes cover the range of a REBUILD, and which. -/
def stripeCount (x : RebuildP) : Nat := (x.off + x.len - 1) / 524288 + 1 - x.off / 524288
def stripesOfRange (x : RebuildP) : List Nat := (List.range (stripeCount x)).map (x.off / 524288 + ·)

/-- The engine that runs a REBUILD, as a master. -/
def rebuildMaster (d : Started) : Master := .ledger (rebuildP d.param).region (originOfDesc d.ring d.seq d.bytes)

/-- The stripes of a REBUILD, one after another. -/
def State.rebuildRun (s : State) (d : Started) (views : List (Option HolderView)) (ps : List PieceRead) : State × Option Nat × Nat :=
  rebuildAll (rebuildP d.param) (rebuildMaster d) (dSTEP d.bytes) (s.rebuildSets d.param views) ps s 0 (stripesOfRange (rebuildP d.param))

/-- What the Sump copy engine of the descriptor's function answers. -/
def rebuildEnd (d : Started) (status cls result : Nat) : Done :=
  { status := status, cls := cls, result := result, die := dieOfFn d.fn, unit := 0x15 }

/-- R542, R543. The pages from stripe q on are indeterminate, and the stripe is reported. -/
def State.stripeFails (s : State) (d : Started) (q : Nat) : State :=
  (s.rebuildLoose (rebuildP d.param) q).report 0x07 2
    { ctxOf d.ring d.bytes (dieOfFn d.fn) 0x15 with vals := [(rebuildP d.param).owner, (rebuildP d.param).step, q] }

theorem rebuildDesc_bad (h : s.rebuildBad d.bytes d.param = true) :
    rebuildDesc s d views ps = s.setDone d.ring d.seq (rebuildEnd d stBAD_OPERAND 0 0) := by
  unfold rebuildDesc
  dsimp only
  rw [if_pos h]
  rfl

theorem rebuildDesc_succeeds {s1 : State} (h : s.rebuildBad d.bytes d.param = false) (hr : s.rebuildRun d views ps = (s1, none, m)) :
    rebuildDesc s d views ps = s1.setDone d.ring d.seq (rebuildEnd d stSUCCESS 0 (stripeCount (rebuildP d.param) * 2 ^ 32 + m)) := by
  unfold State.rebuildRun rebuildMaster State.rebuildSets stripesOfRange stripeCount at hr
  unfold rebuildDesc
  dsimp only
  rw [if_neg (by rw [h]; decide), hr]
  rfl

theorem rebuildDesc_fails {s1 : State} (h : s.rebuildBad d.bytes d.param = false) (hr : s.rebuildRun d views ps = (s1, some q, m)) :
    rebuildDesc s d views ps = (s1.stripeFails d q).setDone d.ring d.seq (rebuildEnd d stFAULTED 0x07 q) := by
  unfold State.rebuildRun rebuildMaster State.rebuildSets stripesOfRange stripeCount at hr
  unfold rebuildDesc
  dsimp only
  rw [if_neg (by rw [h]; decide), hr]
  rfl

theorem region_of_operands {b p : List Byte} (h : s.rebuildBad b p = false) : (rebuildP p).region < 8 := by
  simp only [State.rebuildBad, Bool.or_eq_false_iff, decide_eq_false_iff_not] at h
  omega

section

variable {t : State} {oq : Option Nat} (hr : s.rebuildRun d views ps = (t, oq, m))
include hr

theorem State.rebuildRun_started (hcut : s.sump.cut = none) : t.started = s.started := by
  have h := rebuildAll_started (x := rebuildP d.param) (who := rebuildMaster d) (step := dSTEP d.bytes) (sets := s.rebuildSets d.param views)
    (ps := ps) (n := 0) (qs := stripesOfRange (rebuildP d.param)) hcut
  unfold State.rebuildRun at hr
  rwa [hr] at h

theorem State.rebuildRun_canon (hc : s.canon = true) : t.canon = true := by
  have h : Keeps s (s.rebuildRun d views ps).1 := rebuildAll_keeps (Keeps.refl s)
  rw [hr] at h
  exact h.canon hc

theorem State.rebuildRun_counts (hc : s.canon = true) (hcut : s.sump.cut = none) (hb : s.rebuildBad d.bytes d.param = false) (ho : oq = none) :
    Rose s t Reg.CONT_REBUILD_STATUS Fld.CONT_REBUILD_STATUS_STRIPES (stripeCount (rebuildP d.param)) := by
  have h := rebuildAll_counts (who := rebuildMaster d) (step := dSTEP d.bytes) (sets := s.rebuildSets d.param views)
    (ps := ps) (n := 0) (qs := stripesOfRange (rebuildP d.param)) hcut (region_of_operands hb) (State.canon_regs hc)
  unfold State.rebuildRun at hr
  rw [hr] at h
  have hk := h ho
  rwa [stripesOfRange, List.length_map, List.length_range] at hk

end

theorem exec_rebuild (hu : (z.eccAll ecc).unbegun n seq 0x4020 = some d) (ht : (z.eccAll ecc).inTurn [0x4020] d = true) :
    exec (.rebuild n seq views ps ecc) z = .next (rebuildDesc (z.eccAll ecc) d views ps) := by
  show execRebuild n seq views ps ecc z = _
  simp only [execRebuild, hu, ht, if_true]

theorem State.stripeFails_started : (s.stripeFails d q).started = s.started :=
  (State.report_only (p := Parts.report.or { hbm := true, staging := true, poison := true, freeCtr := true }) rfl
    (State.rebuildLoose_only rfl (Only.refl _ s))).same_started rfl

theorem State.stripeFails_hbm : (s.stripeFails d q).mem.hbm = (s.rebuildLoose (rebuildP d.param) q).mem.hbm :=
  (State.report_only (p := Parts.report) rfl (Only.refl _ _)).same_mem_hbm rfl

theorem State.stripeFails_counted (w : s.canon = true) : Counted (s.rebuildLoose (rebuildP d.param) q) (s.stripeFails d q) 0x07 :=
  State.report_count (by decide) (.inl (by decide)) (State.canon_regs ((State.rebuildLoose_keeps (Keeps.refl s)).canon w))

end Sys2Proof.Machine

/-!
O37. It holds, end by end of the two descriptors (spec/12 R530-R534, R540-R543).
-/
namespace Sys2Proof.Machine

open Sys2Proof

/-- A descriptor got its outcome, with this STATUS and this RESULT. -/
def State.EndedWith (t : State) (n seq status result : Nat) : Prop :=
  ∃ y o, t.findStarted n seq = some y ∧ y.done = some o ∧ o.status = status ∧ o.result = result

variable {s t : State} {d : Started} {o : Done} {p : List Byte} {views : List (Option HolderView)} {ps : List PieceRead} {r m q : Nat}

section

variable (hf : s.findStarted d.ring d.seq = some d) (hd : d.done = none)
include hf hd

/-- A unit that left the descriptors alone ends this one. -/
theorem State.endedWith_setDone (hs : t.started = s.started) : (t.setDone d.ring d.seq o).EndedWith d.ring d.seq o.status o.result :=
  State.setDone_found ((State.findStarted_congr hs).trans hf) hd

/-! ### SPREAD_APPLY -/

section

variable (hp : s.spreadReads.any (fun r => s.pendingIn r.1 r.2) = false)
include hp

theorem State.spreadRead_faulted (h : (s.spreadChecks d).2 ≠ none) : (s.spreadRead d).endOf d.ring d.seq = some stFAULTED := by
  obtain ⟨x, hst, e⟩ := State.spreadRead_fails hp h
  rw [e, State.setDone_endOf ((State.findStarted_congr State.spreadChecks_started).trans hf) hd, hst]

variable (hs : (s.spreadChecks d).2 = none)
include hs

theorem State.spreadRead_badOperand (h : spreadOperandsBad d.bytes = true ∨ s.planFor (leAt d.bytes 24 2) = none ∨
      (∃ p, s.planFor (leAt d.bytes 24 2) = some p ∧ planBad p (leAt d.bytes 24 2) = true)) :
    (s.spreadRead d).endOf d.ring d.seq = some stBAD_OPERAND ∧ Only { started := true } s (s.spreadRead d) := by
  rw [State.spreadRead_sound hp hs, spreadDesc_bad h]
  exact ⟨State.setDone_endOf hf hd, State.setDone_only rfl (Only.refl _ _)⟩

variable (hgood : spreadOperandsBad d.bytes = false) (hplan : s.planFor (leAt d.bytes 24 2) = some p)
  (hpb : planBad p (leAt d.bytes 24 2) = false)
include hgood hplan hpb

theorem State.spreadRead_refused
    (h : s.spreadRefused (leAt d.bytes 24 2) (leAt d.bytes 26 1) (survivorsOf p) (s.spreadChanges d.bytes p) = some r) :
    (s.spreadRead d).EndedWith d.ring d.seq stREFUSED r ∧ Only { started := true } s (s.spreadRead d) := by
  rw [State.spreadRead_sound hp hs, spreadDesc_refused hgood hplan hpb h]
  exact ⟨State.endedWith_setDone hf hd rfl, State.setDone_only rfl (Only.refl _ _)⟩

theorem State.spreadRead_succeeds (hc : s.canon = true)
    (h : s.spreadRefused (leAt d.bytes 24 2) (leAt d.bytes 26 1) (survivorsOf p) (s.spreadChanges d.bytes p) = none) :
    (s.spreadRead d).EndedWith d.ring d.seq stSUCCESS (changedTables (s.spreadChanges d.bytes p) * 2 ^ 32) ∧
      (s.spreadRead d).isLost (leAt d.bytes 24 2) = (leAt d.bytes 26 1 == 0) ∧
      Rose s (s.spreadRead d) Reg.CONT_SPREAD_STATUS Fld.CONT_SPREAD_STATUS_APPLIED
        (if changedTables (s.spreadChanges d.bytes p) = 0 then 0 else 1) := by
  have w := State.canon_regs hc
  have hroom : leAt d.bytes 26 1 = 0 → s.isLost (leAt d.bytes 24 2) = true ∨ s.lostList.length ≠ 8 := fun hm => by
    rw [hm] at h
    exact State.apply_has_room h
  rw [State.spreadRead_sound hp hs, spreadDesc_applied hgood hplan hpb h]
  exact ⟨State.endedWith_setDone hf hd State.spreadDone_started, State.spreadDone_isLost w leAt_lt hroom, State.spreadDone_applied w⟩

end

/-! ### REBUILD -/

theorem rebuildDesc_badOperand (h : s.rebuildBad d.bytes d.param = true) :
    (rebuildDesc s d views ps).endOf d.ring d.seq = some stBAD_OPERAND ∧ Only { started := true } s (rebuildDesc s d views ps) := by
  rw [rebuildDesc_bad h]
  exact ⟨State.setDone_endOf hf hd, State.setDone_only rfl (Only.refl _ _)⟩

variable (hcut : s.sump.cut = none) (hc : s.canon = true) (hb : s.rebuildBad d.bytes d.param = false)
include hcut hc hb

theorem rebuildDesc_success (h : s.rebuildRun d views ps = (t, none, m)) :
    (rebuildDesc s d views ps).EndedWith d.ring d.seq stSUCCESS (stripeCount (rebuildP d.param) * 2 ^ 32 + m) ∧
      (rebuildDesc s d views ps).mem = t.mem ∧
      Rose s (rebuildDesc s d views ps) Reg.CONT_REBUILD_STATUS Fld.CONT_REBUILD_STATUS_STRIPES (stripeCount (rebuildP d.param)) := by
  have hcount := State.rebuildRun_counts h hc hcut hb rfl
  rw [rebuildDesc_succeeds hb h]
  exact ⟨State.endedWith_setDone hf hd (State.rebuildRun_started h hcut), rfl, hcount⟩

theorem rebuildDesc_faulted (h : s.rebuildRun d views ps = (t, some q, m)) :
    (rebuildDesc s d views ps).EndedWith d.ring d.seq stFAULTED q ∧
      Counted (t.rebuildLoose (rebuildP d.param) q) (rebuildDesc s d views ps) 0x07 ∧
      (rebuildDesc s d views ps).mem.hbm = (t.rebuildLoose (rebuildP d.param) q).mem.hbm := by
  rw [rebuildDesc_fails hb h]
  exact ⟨State.endedWith_setDone hf hd (State.stripeFails_started.trans (State.rebuildRun_started h hcut)),
    State.stripeFails_counted (State.rebuildRun_canon h hc), State.stripeFails_hbm⟩

end

/-- Settles O37: each end of SPREAD_APPLY and of REBUILD is one case of what the descriptor does, and no write on the way touches a
descriptor, CONT.LOST or the counts of CONT. -/
theorem spreadMapsAndRebuilds : Obligations.SpreadMapsAndRebuilds := by
  unfold Obligations.SpreadMapsAndRebuilds
  constructor
  · intro z n seq ecc d s hc hu ht hp
    obtain ⟨hf, hd⟩ := State.unbegun_found hu
    obtain ⟨rfl, rfl⟩ := State.findStarted_key hf
    have run := exec_spreadApply hu ht
    refine ⟨fun hs => ?_, fun hs hbad => ?_, fun p hs hgood hplan hpb => ⟨fun r hr => ?_, fun hr => ?_⟩⟩
    · exact ⟨_, run, State.spreadRead_faulted hf hd hp hs⟩
    · exact ⟨_, run, State.spreadRead_badOperand hf hd hp hs hbad⟩
    · obtain ⟨⟨y, o, hy, ho, hst, hres⟩, frame⟩ := State.spreadRead_refused hf hd hp hs hgood hplan hpb hr
      exact ⟨_, y, o, run, hy, ho, hst, hres, frame⟩
    · obtain ⟨⟨y, o, hy, ho, hst, hres⟩, listed, applied⟩ := State.spreadRead_succeeds hf hd hp hs hgood hplan hpb hc hr
      exact ⟨_, y, o, run, hy, ho, hst, hres, listed, applied⟩
  · intro z n seq views ps ecc d s hc hu ht hcut
    obtain ⟨hf, hd⟩ := State.unbegun_found hu
    obtain ⟨rfl, rfl⟩ := State.findStarted_key hf
    have run := exec_rebuild (views := views) (ps := ps) hu ht
    refine ⟨fun hbad => ?_, fun hb => ⟨fun t m hr => ?_, fun t q m hr => ?_⟩⟩
    · exact ⟨_, run, rebuildDesc_badOperand hf hd hbad⟩
    · obtain ⟨⟨y, o, hy, ho, hst, hres⟩, same, counted⟩ := rebuildDesc_success hf hd hcut hc hb hr
      exact ⟨_, y, o, run, hy, ho, hst, hres, same, counted⟩
    · obtain ⟨⟨y, o, hy, ho, hst, hres⟩, counted, same⟩ := rebuildDesc_faulted hf hd hcut hc hb hr
      exact ⟨_, y, o, run, hy, ho, hst, hres, counted, same⟩

end Sys2Proof.Machine
